-- ==== Sys2Proof/Word.lean ====
section
/-! DEFINITION. The word types of the module and their plainest arithmetic. -/
namespace Sys2Proof

/-- A register of the control window: 32 bits (R9). -/
abbrev Word := BitVec 32

/-- A 64-bit value: a KQ register (R222), a tag value, module time. -/
abbrev DWord := BitVec 64

/-- A byte of memory or of a frame. -/
abbrev Byte := BitVec 8

/-- A status code: 16 bits, the high byte the region or block, the low byte the condition (R11). -/
abbrev Status := BitVec 16

/-- A tag: an entry of the 65,536-entry tag directory. -/
abbrev Tag := BitVec 16

end Sys2Proof
end

