-- ==== Sys2Proof/Syntax.lean ====
section
/-! DEFINITION. The commands of the module: one constructor per row of spec/opcode_table.json, with the
operands that the row's rules name. An operation's operands are what the host or the program gives; an
event's are what the environment supplies (log entries 4 and 5). -/
namespace Sys2Proof

/-- The regions of the module (Table ARCH-1); `code` is the region's number in its status codes and in
SUP_REGIONS. -/
inductive Region where
  | logic | loop | field | link | safety | backup
  deriving DecidableEq, Repr

/-- The clock domains (Table ARCH-6). -/
inductive ClockDomain where
  | triad | loop | fabric | net | cause | can | host | safe | back
  deriving DecidableEq, Repr

/-- A tide-capable output (R135): DIO00 to DIO07 and PO0 to PO3. -/
inductive TideOut where
  | dio (k : Fin 8)
  | po (k : Fin 4)
  deriving DecidableEq, Repr

/-- Where the tide-table and step memories meet a double-bit error: in an entry, or in the step on which a sequencer works
(R166, Table TIDE-32). -/
inductive MemErr where
  | entry (i : Fin 4096)
  | step (q : Fin 32)
  deriving DecidableEq, Repr

/-- A sequencer mirror record (Table TIDE-30); times in ns. -/
structure SeqMirror where
  st : Fin 5
  step : Fin 1024
  nominal : Nat
  actualOff : Nat
  pos : DWord
  signals : Byte
  held : Nat
  crc : Word
  deriving DecidableEq, Repr

/-- A tag-directory entry as the image defines it (Table EXE-3, W0 and W1). -/
structure TagDef where
  typ : Nat
  locKind : Nat
  output : Bool
  colour : Nat
  writerKind : Nat
  writerIndex : Nat
  location : Word
  init : DWord
  deriving DecidableEq, Repr

/-- A task as the image defines it (R169 to R179, Table EXE-16). -/
structure TaskDef where
  kind : Nat
  prio : Nat
  tide : Nat
  hold : Nat
  either : Bool
  src : Nat
  index : Nat
  angle : Word
  step : Word
  wdog : Nat
  period : Nat
  entry : Nat
  inputs : List Tag
  outputs : List Tag
  deriving DecidableEq, Repr

/-- A remote station as the image defines it (R194, R198): its task and its STALE_LIMIT. -/
structure StationDef where
  task : Nat
  staleLimit : Nat
  deriving DecidableEq, Repr

/-- Kind of a timer, counter or edge-detector instance (R211). -/
inductive InstKind where
  | ton | tof | tp | counter | edge
  deriving DecidableEq, Repr

/-- An instance as the image defines it: its kind, its key (R211) and a counter's initial value (R213). -/
structure InstDef where
  kind : InstKind
  key : Word
  init : DWord
  deriving DecidableEq, Repr

/-- A program image, as its content is defined by the rules of the manual. Its binary form is Burid's
and the manual does not give it; lists are by index. DESIGN CHOICE: log entry 50. -/
structure Image where
  gen : Word
  crc : Word
  /-- Instructions of code (R223). -/
  codeLen : Nat
  consts : List (Nat × DWord)
  changeable : List Nat
  tags : List (Nat × TagDef)
  tasks : List (Nat × TaskDef)
  stations : List (Nat × StationDef)
  timers : List (Nat × InstDef)
  counters : List (Nat × InstDef)
  edges : List (Nat × InstDef)
  /-- Size of the data area in bytes, and its initial content: byte offset and value (R215). -/
  dataLen : Nat
  data : List (Nat × Byte)
  deriving DecidableEq, Repr

/-- Type of a comparison (R233). -/
inductive CmpType where
  | i64 | i32 | u64 | u32 | f64 | f32
  deriving DecidableEq, Repr

/-- Condition of CSET (Table KQ-10). -/
inductive CmpCond where
  | eq | ne | lt | le | gt | ge
  deriving DecidableEq, Repr

/-- Area of an image access (Table KQ-15). -/
inductive ImgArea where
  | data | input | output | tagMem
  deriving DecidableEq, Repr

/-- Width of an image access (Table KQ-15). -/
inductive AccSize where
  | b1 | b2 | b4 | b8
  deriving DecidableEq, Repr

/-- Flag tested by BF and BNF (R243). -/
inductive KqFlag where
  | z | n | ov | dz | nv | tov
  deriving DecidableEq, Repr


/-- A loop mirror record (Table LOOP-7): mode code, the fallback byte (action in bits 1:0, in fallback in bit 7,
lost, frozen and implausible in bits 6 to 4), working setpoint, i, d_prev, out_prev and D7. -/
structure LoopMirror where
  mode : Fin 5
  fb : Byte
  wsp : Word
  i : DWord
  dPrev : DWord
  outPrev : Word
  d7 : Word
  deriving DecidableEq, Repr

/-- Carrier of a safety connection with its address (Tables FRAME-1 and FRAME-5). -/
inductive Carrier where
  | ring (station : Fin 64)
  | plant (ip : Word) (port : BitVec 16)
  | can (channel : Fin 4) (txId rxId : Word)
  | causeway
  deriving DecidableEq, Repr

/-- A connection entry of the safety configuration (Table FRAME-1); `map` is the consumer's 32 bits and
`sel` the producer's 32 selectors. -/
structure ConnDef where
  producer : Bool := false
  connId : BitVec 16 := 0
  key : Word := 0
  texp : BitVec 16 := 0
  carrier : Carrier := .causeway
  map : Word := 0
  sel : List Byte := []
  deriving DecidableEq, Repr

/-- A heartbeat (Table PAIR-3) whose check holds; `home` is coded as PAIR_CFG.HOME, times in ns, `period` in µs. -/
structure Heartbeat where
  st : Fin 7
  sideB : Bool
  home : Fin 4
  auth : Bool
  capable : Bool
  lever : Bool
  inhibit : Bool
  period : Nat
  base : DWord
  since : BitVec 16
  mode : Fin 6
  regions : BitVec 6
  major : Byte
  minor : Byte
  cause : Status
  imageCrc : Word
  deriving DecidableEq, Repr

/-- A REPLAY record (Table PAIR-2): the task, the result word, and the flags that the instruction set. -/
structure Replay where
  task : Fin 24
  val : DWord
  z : Option Bool
  n : Option Bool
  tov : Bool
  deriving DecidableEq, Repr

/-- Commit record of one core (R442). -/
structure VoteRec where
  pc : BitVec 22
  flags : Byte
  sig : DWord
  addr : DWord
  data : DWord
  kind : Word
  fault : Byte
  deriving DecidableEq, Repr

/-- Where the symbol code meets an error (R457, Table TRIAD-2). -/
inductive EccPlace where
  | buffer
  | saveArea (task : Fin 24)
  | instances | stacks | control
  | tagDir
  deriving DecidableEq, Repr

/-- Results of the triad's self-test (R455): the cores and the fields of the commit record by bit. -/
structure TriadBist where
  voter : Bool
  ecc : Bool
  cores : BitVec 3
  fields : BitVec 7
  deriving DecidableEq, Repr

/-- What a plant frame carries, for its receive queue (Table NET-1); `other` gives its VLAN priority. -/
inductive PlantKind where
  | ptp | goose | safety | supervision
  | other (prio : Option (Fin 8))
  deriving DecidableEq, Repr

/-- For whom a plant frame is: for this module alone, for it and others, or for others (R509). -/
inductive PlantDest where
  | mine | all | others
  deriving DecidableEq, Repr

/-- Result of the best-master algorithm (R516): the sender, another master, the module itself, or nobody. -/
inductive Bmca where
  | sender | other | self | nobody
  deriving DecidableEq, Repr

/-- A PTP message that the module sends at an interval (R516). -/
inductive PtpSend where
  | pdelayReq | sync | announce
  deriving DecidableEq, Repr

/-- A GOOSE message; `ref` is the encoding of its gocbRef, `vals` its members by the map's types, a UtcTime as seconds
in bits 63:32 and fraction in bits 31:0, `tal` in ms. -/
structure GooseMsg where
  dst : BitVec 16
  appid : BitVec 16
  ref : List Byte
  sim : Bool
  confRev : Word
  stNum : Word
  sqNum : Word
  tal : Nat
  vals : List DWord
  deriving DecidableEq, Repr

/-- A granule of a STATE record (Table PAIR-2): 8 bytes of tag memory, a byte of the data area by its offset, an entry
of an instance table, a force-table entry, or an output of the image last committed. -/
inductive Granule where
  | tag (slot : BitVec 16) (val : DWord)
  | data (off : Nat) (val : Byte)
  | timer (i : Fin 8192) (run : Bool) (start : Nat) (q : Bool) (et : Int) (prevIn : Bool)
  | counter (i : Fin 4096) (cv : DWord) (up down inited : Bool)
  | edge (i : Fin 16384) (prev init : Bool)
  | force (i : Fin 1024) (tag : Tag) (val : DWord)
  | forceOff (i : Fin 1024)
  | output (tag : Tag) (val : DWord)
  deriving DecidableEq, Repr

/-- A CONTROL record other than those of a handover (Table PAIR-2): host tag writes, forces, change operations by the
OP code of EXE_CHANGE_CMD, the list of VALUES, a verified image, the home side's request of R500, and what the active side
asks of the standby side. -/
inductive ControlRec where
  | tag (tag : Tag) (val : DWord)
  | force (tag : Tag) (val : DWord)
  | forceClear (tag : Tag)
  | forceClearAll
  | change (op : Fin 8)
  | values (list : List (Nat × Nat × DWord))
  | verified (crc : Word)
  | reclaim
  | rejoin
  | resync
  | track
  deriving DecidableEq, Repr

/-- The mirrored items of a safety connection (R436); `since` in µs before the record. -/
structure ConnItems where
  run : Bool
  acked : Bool
  epoch : Byte
  seq : BitVec 16
  payload : Word
  since : Nat
  deriving DecidableEq, Repr

/-- A valid frame on a CAN bus (R545); a base identifier lies in bits 28:18, `stamp` is the module time of the sample
point of its start of frame (R550). -/
structure CanFrame where
  ide : Bool
  id : BitVec 29
  fdf : Bool
  brs : Bool
  esi : Bool
  rtr : Bool
  dlc : Fin 16
  data : List Byte
  stamp : DWord
  deriving DecidableEq, Repr

/-- How a transmission fails (R555, R559): it loses arbitration, it meets a bit error in the data field, or another
error, which ISO 11898-1:2015 counts in TEC or, in its exceptions, does not. -/
inductive CanErr where
  | lost
  | collision
  | error (counts : Bool)
  deriving DecidableEq, Repr

/-- The key that signed an item (R641): the test key, or a customer key slot with the digest of the key. -/
inductive Signer where
  | test
  | slot (k : Fin 2) (digest : BitVec 384)
  deriving DecidableEq, Repr

/-- A signature: its key, and whether it and the CRC-32C of the item verify. -/
structure Signed where
  signer : Signer
  good : Bool
  deriving DecidableEq, Repr

/-- The safety configuration (R382, R417, R556): the words of SAF_CFG, SQn_CFG, SIp_CFG and SAF_CLAIMi, its CRC-32C, the
connections, the message buffers that it claims with W0 to W2, and whether it keeps the rules. -/
structure SafeCfg where
  cfg : Word
  crc : Word
  sq : List (Fin 8 × Word)
  si : List (Fin 8 × Word)
  claims : List (Fin 16 × Word)
  conns : List (Fin 32 × ConnDef)
  can : List (Fin 4 × Fin 64 × Word × Word × Word)
  good : Bool
  deriving DecidableEq, Repr

/-- A copy of the configuration store (R661) with what it holds (R203, R382, R410, R620). -/
structure CfgCopy where
  format : BitVec 16
  gen : Word
  signed : Signed
  changeMode : Option Bool
  split : Bool
  binds : List (Fin 24 × Word)
  safe : SafeCfg
  deriving DecidableEq, Repr

/-- Instructions of the test access port (R650). PRESUMED: log entry 40. -/
inductive ScanInst where
  | bypass | idcode | sample | extest | clamp | highz | dbgAuth | dbgAccess
  deriving DecidableEq, Repr

/-- The commands of the module. -/
inductive Instr where
  /-- R3. A host write to a register field with no row of its own acts under its access code. -/
  | registerWrite (addr : BitVec 26) (be : BitVec 4) (value : Word) (hwSet : Word)
  /-- R10. A read of the low word of a 64-bit pair captures the high word for the next high-word read. -/
  | lowWordRead (addr : BitVec 26)
  /-- R5. A read of an RC field returns its value and clears it; an event in the same clock is kept for the next read. -/
  | counterRead (addr : BitVec 26) (events : Word)
  /-- R34. A region-level check fails or a fault climbs to the region, which enters its fallback. -/
  | regionFault (region : Region) (status : Status)
  /-- R36. A region has not entered its fallback within 1 ms, and the fault climbs to the module level. -/
  | regionFallbackFail (region : Region)
  /-- R41. A frequency monitor sees its domain outside ±1 % for 100 µs, which is a clock failure of the owning region. -/
  | clockFailure (domain : ClockDomain)
  /-- R33. A bank isolation has not removed the fault within 1 ms, and the fault climbs to the region. -/
  | bankIsolationTimeout (region : Region)
  /-- R704. CD_FABRIC stops, the supervisor core stops with it, and the keep-alives and liveness watch take the outputs to ebb. -/
  | cdFabricStop
  /-- R39. The supervisor core toggles its liveness line every 1 ms. -/
  | livenessToggle
  /-- R39. The Safety region sees no liveness toggle for 5 ms and asserts the hard-wired ebb line and AUTH release. -/
  | safLiveness (tie : Bool)
  /-- R63. A supply feed has stayed below 19.2 V for 1 ms, and a feed alarm is raised. -/
  | modFeedLow (feedB : Bool) (tie : Bool)
  /-- R63. A feed has stayed above 19.2 V for 100 ms, and its alarm clears. -/
  | modFeedOk (feedB : Bool)
  /-- R64. The OR-ed supply falls below 16.0 V, and the module acts as for a module-level fault. -/
  | modPowerFail
  /-- R64. 1 ms after the 16.0 V crossing the module enters reset with cause POWER_FAIL. -/
  | powerFailReset
  /-- R678. The OR-ed supply falls below 9.5 V, the logic loses power and both feeds count as lost. -/
  | powerLoss
  /-- R64. The OR-ed supply has stayed above 19.2 V for 100 ms, and reset is released with cause POWER_ON. -/
  | powerOn
  /-- R96. SEATED_N and the lever have read closed for 100 ms, and the internal converters start. -/
  | insertionQualified
  /-- R99. SEATED_N goes high; the module releases AUTH and opens its output switches. -/
  | seatedNBreak
  /-- R97. The extraction lever opens; the active side hands over to an in-step standby or refuses removal. -/
  | leverOpen
  /-- R97. After the handover, the module puts its outputs into ebb, releases AUTH and reports ready for removal. -/
  | modRemoveReady
  /-- R98. The lever closes, cancelling a pending removal request or leaving the module as standby. -/
  | leverClose
  /-- R68. SID1 or SID0 changes while the module is out of reset; the latched identity is kept and an event is written. -/
  | modSidChanged (sid : BitVec 2)
  /-- R92. PEER_PRSNT_N changes and is reported to the host without starting a takeover. -/
  | peerPresenceChange (present : Bool)
  /-- R72. Having decided to take authority with AUTH free for 1 µs and the lever closed, the module drives AUTH. -/
  | authClaim
  /-- R73. 200 ns after claiming, the module measures its driver current and either becomes active or contests. -/
  | authMeasure (alone : Bool)
  /-- R75. While holding AUTH, the driver current stays below 2.3 mA for 25 cycles and the contest rule applies again. -/
  | authShared
  /-- R76. A contesting side A or lone module sees 25 consecutive cycles at 2.3 mA or more and becomes the active side. -/
  | authConfirmRun
  /-- R76. No confirming run has ended within 10 µs, so the module releases AUTH and writes the status. -/
  | pairContestLost
  /-- R108. An ENABLE bit of TIDE_CTRL is set; the tide enters ACQUIRE, LOCKED or FAULT. -/
  | tideEnable (n : Fin 8)
  /-- R128. An ENABLE bit is cleared, and the tide enters DISABLED with its angle frozen. -/
  | tideDisable (n : Fin 8)
  /-- R122. A RESYNC bit is written; the next accepted measurement jumps the angle, or a free-run tide is set to OFFSET at once. -/
  | tideResync (n : Fin 8)
  /-- R130. A write to TIDE_LOCK opens the RWL registers of a disabled tide. -/
  | tideLockOpen (mask : BitVec 8)
  /-- R106. The mains front end locates a zero crossing, which is accepted or rejected. -/
  | mainsCrossing (n : Fin 8) (positive : Bool) (peakMv : Nat) (ageNs : Nat) (tie : Bool)
  /-- R107. The tracker passes the expected crossing angle plus 45° without an answering crossing, and a miss is counted. -/
  | tideMiss (n : Fin 8)
  /-- R109. A filtered edge of A or B changes the position P by one, with a turn change at the wrap. -/
  | encoderEdge (n : Fin 8) (both : Bool) (forward : Bool)
  /-- R111. A filtered rising edge of the step input counts one step in the direction sampled. -/
  | stepEdge (n : Fin 8) (forward : Bool)
  /-- R115. A rising Z edge sets P and TURN or checks P under INDEX_MODE. -/
  | indexPulse (n : Fin 8)
  /-- R113. At the end of each 1 µs interval an encoder, step or network-time tide forms its measurement. -/
  | tideMeasurement (n : Fin 8)
  /-- R116. A differential input stays below 200 mV for 1 µs; the cell is invalid and the tide enters HOLDOVER. -/
  | tideLineFault (input : Fin 4) (z : Bool) (present : Bool)
  /-- R120. In the tide's update slot the arithmetic unit corrects θ and ω from a pending measurement and judges the state transitions. -/
  | trackerUpdate (n : Fin 8)
  /-- R127. HOLD_LIMIT expires in HOLDOVER and the tide enters LOST. -/
  | tideLost (n : Fin 8) (tie : Bool)
  /-- R129. The TI front-end reference check fails; TI0 to TI3 are invalid and their tides enter HOLDOVER. -/
  | tideBankFault
  /-- R134. TT_CMD WRITE commits W0 to W4 of a host-owned entry in one cycle. -/
  | ttWrite
  /-- R134. TT_CMD READ copies an entry to TT_DATA0 to TT_DATA7. -/
  | ttRead
  /-- R133. TT_CMD RETIRE clears VALID of a host-owned entry. -/
  | ttRetire
  /-- R133. A write of TT_PARTITION moves HOST_FIRST, or is ignored while any entry is valid. -/
  | ttPartitionWrite (value : Word)
  /-- R143. A write of TT_CLAIM starts or stops the tide-table writer of tide-capable outputs. -/
  | ttClaimWrite (value : Word)
  /-- R136. The scanner visits an entry, updates LAST_SEEN, arms it when it lies within the look-ahead, or finds a missed crossing. -/
  | ttScanVisit (i : Fin 4096)
  /-- R137. An armed entry's tide crosses ANGLE and the entry performs its action and repeats or retires. -/
  | ttFire (i : Fin 4096) (forward : Bool) (step : Fin 32) (dropped : Bool)
  /-- R138. A missed crossing with LATE_POLICY 1 fires in the cycle after the scanner found it. -/
  | ttLateFire (i : Fin 4096)
  /-- R135. PARAM cycles after a PULSE fired, its writer returns to 0 at the same fraction of a cycle. -/
  | pulseTrailingEdge (out : TideOut)
  /-- R146. A delay line is calibrated against CD_FABRIC in its turn each second. -/
  | ttCalibration (out : TideOut) (ok : Bool)
  /-- R166. A double-bit error in an entry retires it; one in a step puts the sequencer that works on it to FAULT. -/
  | ttMemErr (place : MemErr)
  /-- R152. In its slot a sequencer tests exit, tide and pending commands, and enters the next step with its actions. -/
  | sqEvaluation (q : Fin 32)
  /-- R153. A time duration runs out at an evaluation and the step exits. -/
  | sqDurationElapsed (q : Fin 32)
  /-- R156. TIMEOUT passes since the actual entry and the step leaves for FAULT_NEXT. -/
  | sqTimeout (q : Fin 32)
  /-- R157. START clears the signals and enters step STEP in RUN. -/
  | sqStart (q : Fin 32) (step : Fin 1024)
  /-- R157. HOLD enters HELD and freezes time, timeout and the remaining angle. -/
  | sqHold (q : Fin 32)
  /-- R157. RESUME returns a held sequencer to RUN. -/
  | sqResume (q : Fin 32)
  /-- R157. ABORT enters IDLE with no action. -/
  | sqAbort (q : Fin 32)
  /-- R157. JUMP enters step STEP in RUN. -/
  | sqJump (q : Fin 32) (step : Fin 1024)
  /-- R158. A W1S write of SQs_SIGNAL sets signal bits, which accumulate. -/
  | sqSignalWrite (q : Fin 32) (sig : Byte)
  /-- R163. A standby receives a sequencer mirror record and holds it. -/
  | sqMirrorRecord (q : Fin 32) (rec : SeqMirror)
  /-- R173. A cyclic task's tide crosses its release angle and the task is released with its input snapshot. -/
  | taskRelease (t : Fin 8) (forward : Bool)
  /-- R175. A task whose tide is in an excluded state is released by the module's own timer. -/
  | taskTimerRelease (t : Fin 8)
  /-- R178. A source event sets the pending flag of an event task. -/
  | eventTaskSignal (e : Fin 16)
  /-- R178. An idle event task with its flag set is released and the flag clears. -/
  | eventTaskRelease (e : Fin 16)
  /-- R177. A W1S write of EXE_EVT_SIGNAL signals event tasks. -/
  | exeEvtSignalWrite (sig : BitVec 16)
  /-- R180. The input image and cycle time are copied and the program phase begins. -/
  | inputLatchComplete (t : Fin 24)
  /-- R171. A running task is preempted at its next commit point by a higher-priority release. -/
  | taskPreempt
  /-- R182. The output image is copied to the cells in one cycle, the commit completes and a slack may open. -/
  | outputCommit (t : Fin 24) (tie : Bool)
  /-- R176. A write of EXE_CTRL.RUN starts or stops task releases. -/
  | exeRunWrite (run : Bool)
  /-- R186. A slack action has waited SLACK_STARVE without a long enough slack. -/
  | exeNoSlack
  /-- R195. A station's cycle deadline arrives in CD_NET and unanswered stations are marked stale. -/
  | stationDeadline (t : Fin 8)
  /-- R201. A task's WD_LIMIT expires before its commit, and the triad halts to the module level. -/
  | exeOverrun (t : Fin 24)
  /-- R206. VERIFY starts checking and loading the image in the inactive area. -/
  | changeVerify
  /-- R206. The VERIFY check completes; PHASE becomes VERIFIED or the image is refused. -/
  | changeVerifyDone (img : Image) (sound : Bool) (legal : Bool)
  /-- R208. ARM prepares the carry-over, computes NEED_US and waits for a qualifying slack. -/
  | changeArm
  /-- R204. CANCEL discards the new image or stops a check or wait. -/
  | changeCancel (switching : Bool)
  /-- R204. REVERT arms a switch back to the previous image. -/
  | changeRevert
  /-- R204. COMMIT releases the previous image and PHASE becomes NONE. -/
  | changeCommit
  /-- R216. VALUES starts checking and arms the values-only change list. -/
  | changeValues
  /-- R216. The values list check completes and the list is armed or refused. -/
  | valuesCheckDone
  /-- R208. In the first qualifying slack the swap carries tags, instances and forces over to the new image. -/
  | imageSwap
  /-- R215. In a qualifying slack the module switches back to the previous image. -/
  | revertSwitch
  /-- R216. The armed values list is applied in full in one slack. -/
  | valuesApply
  /-- R191. EXE_FORCE_CMD SET forces a tag or replaces its force value. -/
  | forceSet
  /-- R191. EXE_FORCE_CMD CLEAR removes the force of a tag. -/
  | forceClear
  /-- R191. EXE_FORCE_CMD CLEAR_ALL clears every force entry. -/
  | forceClearAll
  /-- R191. EXE_FORCE_CMD READ copies a tag's force value to the value registers. -/
  | forceRead
  /-- R190. A host write through the tag-directory window sets a host-written tag or is dropped and counted. -/
  | hostTagWrite (tag : Tag) (high : Bool) (value : Word)
  /-- R229. Integer add with overflow flag. -/
  | add (w32 : Bool) (rd ra rb : Fin 64)
  /-- R229. Integer subtract. -/
  | sub (w32 : Bool) (rd ra rb : Fin 64)
  /-- R229. Low half of the integer product. -/
  | mul (w32 : Bool) (rd ra rb : Fin 64)
  /-- R228. High half of the signed product. -/
  | mulh (w32 : Bool) (rd ra rb : Fin 64)
  /-- R230. Signed quotient, with zero and DZ on division by zero. -/
  | div (w32 : Bool) (rd ra rb : Fin 64)
  /-- R230. Unsigned quotient. -/
  | divu (w32 : Bool) (rd ra rb : Fin 64)
  /-- R230. Signed remainder. -/
  | rem (w32 : Bool) (rd ra rb : Fin 64)
  /-- R230. Unsigned remainder. -/
  | remu (w32 : Bool) (rd ra rb : Fin 64)
  /-- R229. Integer negation. -/
  | neg (w32 : Bool) (rd ra : Fin 64)
  /-- R229. Integer absolute value. -/
  | abs (w32 : Bool) (rd ra : Fin 64)
  /-- R228. Signed minimum. -/
  | min (w32 : Bool) (rd ra rb : Fin 64)
  /-- R228. Signed maximum. -/
  | max (w32 : Bool) (rd ra rb : Fin 64)
  /-- R228. Unsigned minimum. -/
  | minu (w32 : Bool) (rd ra rb : Fin 64)
  /-- R228. Unsigned maximum. -/
  | maxu (w32 : Bool) (rd ra rb : Fin 64)
  /-- R228. Register move without flags. -/
  | mov (w32 : Bool) (rd ra : Fin 64)
  /-- R228. Select RA or RB on Z. -/
  | selz (w32 : Bool) (rd ra rb : Fin 64)
  /-- R232. Floating-point add. -/
  | fadd (f32 : Bool) (rd ra rb : Fin 64)
  /-- R232. Floating-point subtract. -/
  | fsub (f32 : Bool) (rd ra rb : Fin 64)
  /-- R232. Floating-point multiply. -/
  | fmul (f32 : Bool) (rd ra rb : Fin 64)
  /-- R232. Floating-point divide. -/
  | fdiv (f32 : Bool) (rd ra rb : Fin 64)
  /-- R232. Floating-point square root. -/
  | fsqrt (f32 : Bool) (rd ra : Fin 64)
  /-- R231. Floating-point sign inversion. -/
  | fneg (f32 : Bool) (rd ra : Fin 64)
  /-- R231. Floating-point sign clear. -/
  | fabs (f32 : Bool) (rd ra : Fin 64)
  /-- R232. Floating-point minimum. -/
  | fmin (f32 : Bool) (rd ra rb : Fin 64)
  /-- R232. Floating-point maximum. -/
  | fmax (f32 : Bool) (rd ra rb : Fin 64)
  /-- R233. Compare setting Z and N. -/
  | cmp (ty : CmpType) (ra rb : Fin 64)
  /-- R233. Conditional set of RD from a comparison. -/
  | cset (ty : CmpType) (c : CmpCond) (rd ra rb : Fin 64)
  /-- R234. Convert I64 to F64, rounded. -/
  | cvtI64F64 (rd ra : Fin 64)
  /-- R234. Convert I64 to F32, rounded. -/
  | cvtI64F32 (rd ra : Fin 64)
  /-- R234. Convert I32 to F32, rounded. -/
  | cvtI32F32 (rd ra : Fin 64)
  /-- R234. Convert I32 to F64, exact. -/
  | cvtI32F64 (rd ra : Fin 64)
  /-- R234. Convert F64 to I64, truncated. -/
  | trnF64I64 (rd ra : Fin 64)
  /-- R234. Convert F64 to I64, rounded. -/
  | rndF64I64 (rd ra : Fin 64)
  /-- R234. Convert F32 to I32, truncated. -/
  | trnF32I32 (rd ra : Fin 64)
  /-- R234. Convert F32 to I32, rounded. -/
  | rndF32I32 (rd ra : Fin 64)
  /-- R234. Convert F32 to F64, exact. -/
  | cvtF32F64 (rd ra : Fin 64)
  /-- R234. Convert F64 to F32, rounded. -/
  | cvtF64F32 (rd ra : Fin 64)
  /-- R234. Convert F64 to I32, truncated. -/
  | trnF64I32 (rd ra : Fin 64)
  /-- R234. Convert F64 to I32, rounded. -/
  | rndF64I32 (rd ra : Fin 64)
  /-- R234. Sign-extend bits 15:0. -/
  | sext16 (rd ra : Fin 64)
  /-- R234. Sign-extend bits 31:0. -/
  | sext32 (rd ra : Fin 64)
  /-- R234. Zero-extend bits 31:0. -/
  | zext32 (rd ra : Fin 64)
  /-- R234. Convert U64 to F64, rounded. -/
  | cvtU64F64 (rd ra : Fin 64)
  /-- R235. Bitwise and. -/
  | and (w32 : Bool) (rd ra rb : Fin 64)
  /-- R235. Bitwise or. -/
  | or (w32 : Bool) (rd ra rb : Fin 64)
  /-- R235. Bitwise exclusive or. -/
  | xor (w32 : Bool) (rd ra rb : Fin 64)
  /-- R235. And with inverted RB. -/
  | andn (w32 : Bool) (rd ra rb : Fin 64)
  /-- R235. Bitwise inversion. -/
  | not (w32 : Bool) (rd ra : Fin 64)
  /-- R235. Shift left. -/
  | shl (w32 : Bool) (rd ra rb : Fin 64)
  /-- R235. Logical shift right. -/
  | shr (w32 : Bool) (rd ra rb : Fin 64)
  /-- R235. Arithmetic shift right. -/
  | sar (w32 : Bool) (rd ra rb : Fin 64)
  /-- R235. Rotate left. -/
  | rol (w32 : Bool) (rd ra rb : Fin 64)
  /-- R235. Rotate right. -/
  | ror (w32 : Bool) (rd ra rb : Fin 64)
  /-- R235. Extract one bit. -/
  | bext (w32 : Bool) (rd ra rb : Fin 64)
  /-- R235. Set one bit. -/
  | bset (w32 : Bool) (rd ra rb : Fin 64)
  /-- R235. Clear one bit. -/
  | bclr (w32 : Bool) (rd ra rb : Fin 64)
  /-- R235. Count 1 bits. -/
  | popc (w32 : Bool) (rd ra : Fin 64)
  /-- R235. Count leading zeros. -/
  | clz (w32 : Bool) (rd ra : Fin 64)
  /-- R241. Load from an image area by byte offset. -/
  | imld (area : ImgArea) (sgn : Bool) (size : AccSize) (rd ra rb : Fin 64)
  /-- R241. Store to an image area by byte offset. -/
  | imst (area : ImgArea) (size : AccSize) (rd ra rb : Fin 64)
  /-- R238. Indexed tag load. -/
  | tldx (ty : Fin 16) (rd ra rb : Fin 64)
  /-- R239. Indexed tag store. -/
  | tstx (ty : Fin 16) (rd ra rb : Fin 64)
  /-- R244. Jump to the address in RA. -/
  | jmpr (ra : Fin 64) (legal : Bool)
  /-- R244. Call the address in RA. -/
  | callr (ra : Fin 64) (legal : Bool)
  /-- R244. Return from a call. -/
  | ret
  /-- R236. Load a sign-extended immediate. -/
  | li (rd : Fin 64) (imm : BitVec 16)
  /-- R236. Load a zero-extended immediate. -/
  | liu (rd : Fin 64) (imm : BitVec 16)
  /-- R236. Insert an immediate into bits 15:0. -/
  | ins0 (rd : Fin 64) (imm : BitVec 16)
  /-- R236. Insert an immediate into bits 31:16. -/
  | ins1 (rd : Fin 64) (imm : BitVec 16)
  /-- R236. Insert an immediate into bits 47:32. -/
  | ins2 (rd : Fin 64) (imm : BitVec 16)
  /-- R236. Insert an immediate into bits 63:48. -/
  | ins3 (rd : Fin 64) (imm : BitVec 16)
  /-- R236. Add a sign-extended immediate, 64 bits. -/
  | addi (rd : Fin 64) (imm : BitVec 16)
  /-- R236. Add a sign-extended immediate, 32 bits. -/
  | addi32 (rd : Fin 64) (imm : BitVec 16)
  /-- R236. And with a zero-extended immediate. -/
  | andi (rd : Fin 64) (imm : BitVec 16)
  /-- R236. Or with a zero-extended immediate. -/
  | ori (rd : Fin 64) (imm : BitVec 16)
  /-- R236. Exclusive or with a zero-extended immediate. -/
  | xori (rd : Fin 64) (imm : BitVec 16)
  /-- R236. Shift left by an immediate. -/
  | shli (rd : Fin 64) (n : Fin 64)
  /-- R236. Logical shift right by an immediate. -/
  | shri (rd : Fin 64) (n : Fin 64)
  /-- R236. Arithmetic shift right by an immediate. -/
  | sari (rd : Fin 64) (n : Fin 64)
  /-- R236. Compare with a signed immediate. -/
  | cmpi (rd : Fin 64) (imm : BitVec 16)
  /-- R236. Compare with an unsigned immediate. -/
  | cmpiu (rd : Fin 64) (imm : BitVec 16)
  /-- R236. Multiply by a signed immediate. -/
  | muli (rd : Fin 64) (imm : BitVec 16)
  /-- R237. Load a constant-pool entry. -/
  | cld (rd : Fin 64) (i : Fin 4096)
  /-- R238. Load a tag into a register with TO for stale or invalid data. -/
  | tld (ty : Fin 16) (rd : Fin 64) (tag : Tag)
  /-- R239. Store a register to a tag allowed to the task. -/
  | tst (ty : Fin 16) (rd : Fin 64) (tag : Tag)
  /-- R243. Unconditional branch. -/
  | br (off : BitVec 20)
  /-- R243. Push the return address and branch. -/
  | call (off : BitVec 20)
  /-- R243. Branch when a register is zero. -/
  | bz (rs : Fin 64) (off : BitVec 20)
  /-- R243. Branch when a register is not zero. -/
  | bnz (rs : Fin 64) (off : BitVec 20)
  /-- R243. Branch when a register is negative. -/
  | bltz (rs : Fin 64) (off : BitVec 20)
  /-- R243. Branch when a register is zero or positive. -/
  | bgez (rs : Fin 64) (off : BitVec 20)
  /-- R243. Branch when a flag is 1. -/
  | bf (f : KqFlag) (off : BitVec 20)
  /-- R243. Branch when a flag is 0. -/
  | bnf (f : KqFlag) (off : BitVec 20)
  /-- R246. On-delay timer instance update. -/
  | ton (rd ra : Fin 64) (x : BitVec 14)
  /-- R246. Off-delay timer instance update. -/
  | tof (rd ra : Fin 64) (x : BitVec 14)
  /-- R246. Pulse timer instance update. -/
  | tp (rd ra : Fin 64) (x : BitVec 14)
  /-- R247. Read a timer's elapsed time. -/
  | tet (rd : Fin 64) (x : BitVec 14)
  /-- R248. Up-counter instance update. -/
  | ctu (rd ra : Fin 64) (x : BitVec 14)
  /-- R248. Down-counter instance update. -/
  | ctd (rd ra : Fin 64) (x : BitVec 14)
  /-- R248. Up-down counter instance update. -/
  | ctud (rd ra : Fin 64) (x : BitVec 14)
  /-- R248. Read a counter value. -/
  | ctv (rd : Fin 64) (x : BitVec 14)
  /-- R249. Rising-edge detector. -/
  | rtrg (rd ra : Fin 64) (x : BitVec 14)
  /-- R249. Falling-edge detector. -/
  | ftrg (rd ra : Fin 64) (x : BitVec 14)
  /-- R250. Convert a packed calendar value to TIME. -/
  | cal2t (rd ra rb : Fin 64)
  /-- R250. Convert a TIME to a packed calendar value. -/
  | t2cal (rd ra : Fin 64)
  /-- R254. The program commits a tide-table entry. -/
  | tsch (rd : Fin 64) (ra : Fin 62) (rb : Fin 64) (waits : Bool)
  /-- R254. The program retires a tide-table entry. -/
  | tret (rd rb : Fin 64) (waits : Bool)
  /-- R272. The program writes a loop setpoint. -/
  | lsp (rd ra rb : Fin 64) (waits : Bool)
  /-- R272. The program writes a loop mode. -/
  | lmode (rd ra rb : Fin 64) (waits : Bool)
  /-- R272. The program writes a loop parameter. -/
  | lpar (rd ra rb : Fin 64) (waits : Bool)
  /-- R308. The program reads a loop item. -/
  | lrd (rd rb : Fin 64) (waits : Bool)
  /-- R254. The program sends a command to a step sequencer. -/
  | sqc (rd ra rb : Fin 64) (waits : Bool)
  /-- R254. The program reads a sequencer's state. -/
  | sqs (rd rb : Fin 64) (waits : Bool)
  /-- R254. The program sets sequencer signal bits. -/
  | sqsig (rd ra rb : Fin 64) (waits : Bool)
  /-- R621. The program sends a word on a mailbox. -/
  | msend (rd ra rb : Fin 64) (waits : Bool)
  /-- R621. The program takes a word from a mailbox. -/
  | mrecv (rd rb : Fin 64) (waits : Bool)
  /-- R622. The program rings doorbell bits. -/
  | mdbl (rd ra rb : Fin 64) (waits : Bool)
  /-- R622. The program writes a mailbox return code. -/
  | mack (rd ra rb : Fin 64) (waits : Bool)
  /-- R625. The program tries a lock register. -/
  | lktry (rd rb : Fin 64) (waits : Bool)
  /-- R625. The program releases a lock it holds. -/
  | lkrel (rd rb : Fin 64) (waits : Bool)
  /-- R255. The program places a safety request and takes the last response. -/
  | sxch (rd ra : Fin 64)
  /-- R256. Wait until every earlier access of the task is complete. -/
  | mfence
  /-- R256. Wait until protection rules committed before it have drained. -/
  | rfence
  /-- R256. The drain a fence or ordered block instruction waits on ends and the instruction completes. -/
  | fenceDrained
  /-- R258. The target of a waiting block instruction answers and the instruction completes. -/
  | blockAnswer
  /-- R257. End the program phase, release held locks and lead to the commit. -/
  | yield
  /-- R254. Read the flags word. -/
  | fget (rd : Fin 64)
  /-- R225. Clear selected sticky flags. -/
  | fclr (ra : Fin 64)
  /-- R251. Read the task's cycle time. -/
  | cyct (rd : Fin 64)
  /-- R251. Read module time. -/
  | mtim (rd : Fin 64)
  /-- R253. Write a Strandline record with an event code and datum. -/
  | log (code : BitVec 12) (ra : Fin 64)
  /-- R252. Read a tide item. -/
  | tang (rd : Fin 64) (item : Fin 4) (tide : Fin 8)
  /-- R258. 960 CD_TRIAD cycles pass without a commit point and the triad makes one. -/
  | commitPointTimer
  /-- R265. A loop frame starts from the engine timer or a tide crossing and captures local inputs. -/
  | loopFrameStart (cycles : Nat) (crossing : Bool)
  /-- R282. A slot is evaluated at its position: control law, model, supervisor, output and trace. -/
  | loopEvaluation (k : Fin 2048)
  /-- R293. PV is invalid or NaN, or stale for LOST_COUNT evaluations. -/
  | loopLost (k : Fin 2048)
  /-- R294. The freeze window expires with PV within 1 LSB while the output moved. -/
  | loopFrozen (k : Fin 2048)
  /-- R293. The residual exceeds RES_BAND for RES_COUNT evaluations. -/
  | loopImplausible (k : Fin 2048)
  /-- R297. Conditions have been clear for RECOVER evaluations and the slot leaves fallback. -/
  | loopRecovered (k : Fin 2048)
  /-- R273. LOOP_CMD LOAD writes a descriptor to a slot in OFF. -/
  | loopLoad
  /-- R273. LOOP_CMD READ copies D0 to D7 to the descriptor registers. -/
  | loopRead
  /-- R276. LOOP_CMD SET_PAR writes a parameter. -/
  | loopSetPar
  /-- R276. LOOP_CMD GET_PAR reads a parameter. -/
  | loopGetPar
  /-- R272. LOOP_CMD SET_SP writes the local setpoint. -/
  | loopSetSp
  /-- R277. LOOP_CMD SET_MODE changes the slot's mode. -/
  | loopSetMode
  /-- R308. LOOP_CMD READ_ITEM reads an item. -/
  | loopReadItem
  /-- R273. LOOP_CMD CLEAR invalidates the descriptor and resets the parameters. -/
  | loopClear
  /-- R307. A write of LOOP_CTRL.RUN starts or stops frames. -/
  | loopRunWrite (run : Bool)
  /-- R301. TRACE_CMD ARM starts a trace buffer. -/
  | traceArm (b : Fin 32)
  /-- R301. TRACE_CMD STOP stops a trace buffer. -/
  | traceStop (b : Fin 32)
  /-- R301. TRACE_CMD TRIGGER triggers a trace buffer. -/
  | traceTrigger (b : Fin 32)
  /-- R301. TRACE_CMD CLEAR fills a trace buffer with zeros. -/
  | traceClear (b : Fin 32)
  /-- R301. A buffer records its POST records or fills, and stops. -/
  | traceDone (b : Fin 32)
  /-- R302. A standby receives a loop mirror record and re-aligns the slot. -/
  | loopMirrorRecord (k : Fin 2048) (rec : LoopMirror)
  /-- R306. A slot bank's FIFO check fails and the bank is isolated. -/
  | loopBankIsolated (b : Fin 128)
  /-- R306. A write of LOOP_BANK_REEN starts the FIFO self-test of a slot bank. -/
  | loopBankReen (b : Fin 128)
  /-- R306. The FIFO self-test passes and the slot bank resumes. -/
  | loopBankReenabled (b : Fin 128)
  /-- R313. A DIO pin crosses a threshold and the synchronised value changes. -/
  | dioPinChange (n : Fin 32) (level : Bool) (currentMa : BitVec 12)
  /-- R313. A changed value has been stable for the filter time and passes to the filtered value. -/
  | dioFilterExpiry (n : Fin 32)
  /-- R317. The current limit stays engaged for 100 µs and the output latches off. -/
  | dioShort (chs : BitVec 32) (tie : Bool)
  /-- R317. The current exceeds 0.6 A for 12 ms and the output latches off. -/
  | dioOverload (chs : BitVec 32) (tie : Bool)
  /-- R317. The switch reaches its shutdown temperature and latches off. -/
  | dioOvertemp (chs : BitVec 32)
  /-- R318. A write to DIO_REARM re-arms latched-off outputs. -/
  | dioRearm (mask : Word)
  /-- R320. An off output has read high for RB_DELAY and is declared stuck-on. -/
  | dioStuckOn (chs : BitVec 32) (tie : Bool)
  /-- R323. The pin still reads high RB_DELAY after the bank switch opened. -/
  | dioStuckExternal (n : Fin 32)
  /-- R320. An on output has read low for RB_DELAY. -/
  | dioStuckOff (chs : BitVec 32) (tie : Bool)
  /-- R320. An on output carries under 5 mA for 10 ms with OPEN_EN. -/
  | dioOpenLoad (n : Fin 32)
  /-- R322. Arbitrated value and pin agree for RB_DELAY and a readback fault clears. -/
  | dioFaultClear (n : Fin 32)
  /-- R326. A bank supply has been below 19.2 V for 1 ms. -/
  | dioBankWarn (k : Fin 4) (mv : BitVec 16)
  /-- R326. A bank supply has stayed at or above 19.2 V for 100 ms and the warning clears. -/
  | dioBankWarnClear (k : Fin 4) (mv : BitVec 16)
  /-- R327. A bank supply falls below 15.0 V and the bank's inputs are invalid. -/
  | dioBankLow (k : Fin 4) (mv : BitVec 16)
  /-- R327. A bank supply rises to 15.2 V and its inputs are valid again. -/
  | dioBankLowClear (k : Fin 4) (mv : BitVec 16)
  /-- R328. A bank supply stays low for 1 ms and the bank latches off. -/
  | dioBankLatchoff (k : Fin 4) (tie : Bool)
  /-- R331. A bank's output currents exceed 4.5 A for 12 ms and the bank switches off. -/
  | dioBankOvercurrent (k : Fin 4)
  /-- R329. DIO_BANK_CMD REENABLE re-enables a latched-off or switched-off bank or is refused. -/
  | dioBankReenable (k : Fin 4)
  /-- R347. DIO_BANK_CMD RECOVER takes a bank out of isolation once its check passes. -/
  | dioBankRecover (k : Fin 4) (pass : Bool)
  /-- R311. A write of DIO_BANKk_CFG.EN enables a bank after its direction checks. -/
  | dioBankEnable (k : Fin 4) (en : Bool)
  /-- R347. A bank driver self-check fails and the bank is isolated. -/
  | dioBankIsolated (k : Fin 4)
  /-- R332. No keep-alive retrigger for 12 µs to 20 µs opens every output switch of the bank. -/
  | dioKeepaliveExpiry (k : Fin 4)
  /-- R332. After retriggers resume for 1 ms the driver drives again and reports. -/
  | dioStageSilent (k : Fin 4)
  /-- R341. RFX_CMD WRITE commits a term descriptor and clears its latch. -/
  | rfxWrite
  /-- R334. RFX_CMD READ copies a term descriptor to the data registers. -/
  | rfxRead
  /-- R341. RFX_CMD DISABLE clears ENABLE and the latch of a term. -/
  | rfxDisable
  /-- R336. RFX_CMD RESET_LATCH resets a term's latch for one cycle. -/
  | rfxResetLatch
  /-- R344. Every 100 µs the matrix recomputes its descriptor CRC. -/
  | rfxCrcCheck (ok : Bool)
  /-- R346. A standby receives the latch word and sets the latches it shows. -/
  | reflexRecord (latches : BitVec 64)
  /-- R354. A write of ANA_ENABLE enables a channel after the checks of Table ANA-2. -/
  | anaChannelEnable (value : BitVec 16)
  /-- R354. A write of ANA_LOCK opens a disabled channel's configuration. -/
  | anaLockOpen (value : BitVec 16)
  /-- R357. A conversion completes and becomes the cell value or readback, judged against the limits. -/
  | anaConversion (convs : List (Fin 16 × DWord)) (overlap : Bool)
  /-- R360. A loop-powered input stays above 24 mA for 10 ms. -/
  | anaLoopShort (chs : BitVec 16)
  /-- R366. An output measures below 0.1 mA for 10 ms with low headroom. -/
  | anaOutOpen (chs : BitVec 16)
  /-- R366. An output's current differs from its command for 10 ms. -/
  | anaReadbackErr (chs : BitVec 16)
  /-- R366. Command and measurement agree for 10 ms and the output fault clears. -/
  | anaOutputFaultClear (n : Fin 16)
  /-- R367. Headroom stays below 1.5 V for 1 ms. -/
  | anaCompliance (n : Fin 16) (mv : BitVec 16) (tie : Bool)
  /-- R368. Headroom stays at or above 2.0 V for 100 ms. -/
  | anaComplianceClear (n : Fin 16) (mv : BitVec 16) (tie : Bool)
  /-- R370. No keep-alive retrigger switches off an analog bank's sources and loop power. -/
  | anaKeepaliveExpiry (k : Fin 4)
  /-- R370. After retriggers resume for 1 ms the bank restores its outputs. -/
  | anaStageSilent (k : Fin 4)
  /-- R377. A bank's reference check fails and the bank is isolated. -/
  | anaBankIsolated (k : Fin 4)
  /-- R377. ANA_BANK_CMD RECOVER takes a bank out of isolation once the check passes. -/
  | anaBankRecover (k : Fin 4) (pass : Bool)
  /-- R373. POLL_PERIOD elapses and the module sends command 3. -/
  | hartPoll (n : Fin 16)
  /-- R372. A HART response frame arrives and updates tags or completes a transaction. -/
  | hartResponse (n : Fin 16) (good tie : Bool) (resp dev : Byte) (vars : List Word) (data : List Byte)
  /-- R372. RESP_TO expires without a response; the request is retried or the transaction fails. -/
  | hartRespTimeout (n : Fin 16)
  /-- R374. A burst frame of command 3 updates the HART tags. -/
  | hartBurstFrame (n : Fin 16) (dev : Byte) (vars : List Word)
  /-- R375. The host starts a HART transaction on a channel. -/
  | anaHartCmd (cmd : BitVec 16) (len : Byte)
  /-- R388. A safety cycle takes the latest request, evaluates each output and publishes the response. -/
  | safetyCycle
  /-- R386. No fresh request for SX_TIMEOUT and every REQ is taken as 0. -/
  | safSxTimeout (tie : Bool)
  /-- R384. The safety processor toggles its heartbeat line to Breakwater every 100 µs. -/
  | safetyHeartbeatToggle
  /-- R384. Breakwater's RC timer expires without a heartbeat and opens every low-side switch. -/
  | safBwHb
  /-- R394. A contact's value has been stable for SI_FILT and changes. -/
  | siFilterExpiry (p : Fin 8) (b : Bool) (level : Bool)
  /-- R395. The contacts of a pair disagree for DISC and the pair faults. -/
  | safSiDiscrepancy (p : Fin 8) (tie : Bool)
  /-- R393. A test-pulse source pulls low for its pulse. -/
  | tpPulseStart (k : Fin 4)
  /-- R393. A test pulse and its window end, and the contacts are checked. -/
  | tpPulseEnd (k : Fin 4) (low : BitVec 16)
  /-- R393. A source's readback misses its 50 µs edge bound, a Safety region fault. -/
  | safTpSource (k : Fin 4)
  /-- R399. An output test is due and one switch is pulsed. -/
  | sqTestStart (n : Fin 8) (hs : Bool)
  /-- R399. The private-node readback confirms a test and the test passes. -/
  | sqTestConfirm (n : Fin 8)
  /-- R400. A test is not confirmed within its bound; the output enters FAULT. -/
  | sqTestExpiry (n : Fin 8) (tie : Bool)
  /-- R402. No passed test of a switch within 2 × TEST_PERIOD. -/
  | safTestOverdue (n : Fin 8)
  /-- R403. Switch current above 2.4 A for 100 µs puts the output in FAULT. -/
  | safSqOvercurrent (n : Fin 8)
  /-- R403. Private-node readback disagrees with the switch command for 1 ms. -/
  | safSqDisagree (n : Fin 8)
  /-- R405. A bank supply stays below 15.0 V for 1 ms and the bank's permits fall. -/
  | safBankLow (k : Fin 4) (tie : Bool)
  /-- R405. A bank supply stays at or above 19.2 V for 100 ms and permits return. -/
  | safBankRestored (k : Fin 4)
  /-- R406. The region's AUTH sense shows its side holding AUTH and it takes safety authority from the mirror. -/
  | safAuthTaken
  /-- R406. The AUTH sense drops and safety authority ends, or the handover hold starts. -/
  | safAuthReleased
  /-- R409. 100 µs after release the old side ends its hold and opens its switches. -/
  | safHandoverHoldEnd
  /-- R411. A lockstep mismatch puts the Safety region into fallback. -/
  | safLockstep
  /-- R411. A Breakwater self-test failure puts the Safety region into fallback. -/
  | safBwSelftest
  /-- R423. A consumer judges an arriving safety frame under the tests of Table FRAME-4. -/
  | safetyFrameReceive (carrier : Fin 4) (src : DWord) (frame : List Byte)
  /-- R422. An opening consumer repeats its OPEN every TEXP / 4. -/
  | consumerOpenRepeat (i : Fin 16)
  /-- R424. The consumer watchdog expires and the connection fails into a new epoch. -/
  | safConnWdog (i : Fin 16) (tie : Bool)
  /-- R427. A producer judges an arriving OPEN or ACK. -/
  | producerFrameReceive (carrier : Fin 4) (src : DWord) (frame : List Byte)
  /-- R429. No ACK within TEXP and the producer returns to IDLE. -/
  | safConnAckTimeout (i : Fin 16) (tie : Bool)
  /-- R431. 2 s after RUN following a retention loss, consumers start sending OPEN. -/
  | consumerEpochHoldEnd
  /-- R443. The voter compares the three commit records at a commit point. -/
  | triadVote (r0 r1 r2 : Option VoteRec)
  /-- R448. In a qualifying slack the fenced core is reset, tested and loaded. -/
  | triadResyncStart (pass : Bool)
  /-- R448. The core rejoins lockstep and the triad returns to TRIPLEX. -/
  | triadResyncDone
  /-- R449. A resynchronisation has not completed within 150 µs. -/
  | triadResyncTimeout
  /-- R458. A read or scrub corrects one symbol and writes it back. -/
  | triadEccCorrected (place : EccPlace) (symbol : Fin 19) (word : BitVec 20)
  /-- R459. An uncorrectable error in a non-recoverable area faults the Logic region. -/
  | triadEccUncorr (place : EccPlace) (word : BitVec 20)
  /-- R464. TRIAD_CMD UNRETIRE returns a retired core at the next reset. -/
  | triadUnretire (core : Fin 4)
  /-- R473. HB_PERIOD elapses and a heartbeat is sent on both paths. -/
  | heartbeatSend (other : Bool)
  /-- R473. A heartbeat arrives, restarting path and partner silence and driving pair decisions. -/
  | heartbeatReceive (cw2 : Bool) (hb : Heartbeat) (good tie other : Bool)
  /-- R472. No heartbeat on one path for 3 periods. -/
  | pairPathLost (cw2 : Bool)
  /-- R474. No heartbeat on either path for 3 periods; takeover may follow. -/
  | pairPeerLost (other : Bool)
  /-- R468. The partner has stayed in WAITING for 1 s without claiming. -/
  | pairWaitExpiry
  /-- R494. AUTH reads free for 1 ms while the partner reports ACTIVE. -/
  | pairAuthSense
  /-- R475. No SAFETY record arrives for the stale bound and the mirror is stale. -/
  | safetyMirrorStale (tie : Bool)
  /-- R477. An IN_STEP standby releases a task from a RELEASE record. -/
  | releaseRecord (q : Word) (t : Fin 24) (cycle : Nat) (cycleTime : DWord) (angle : Word) (vals : List (Tag × DWord × Bool × Bool))
  /-- R477. A standby preempts or resumes a task at the record's commit-point count. -/
  | schedRecord (q : Word) (t : Fin 24) (points : Nat) (resume : Bool)
  /-- R478. A standby takes a replayed instruction's result from the record. -/
  | replayRecord (q : Word) (rec : Replay)
  /-- R485. A COMMIT record arrives and the active side compares output CRCs. -/
  | commitRecord (q : Word) (t : Fin 24) (cycle : Nat) (crc : Word) (since : BitVec 16) (tie : Bool)
  /-- R490. A standby applies STATE granules. -/
  | stateRecord (q : Word) (granules : List Granule)
  /-- R483. A standby compares or resets its tide from a TIDE record. -/
  | tideRecord (n : Fin 8) (locked : Bool) (pos : DWord) (omega : Int) (base : DWord)
  /-- R479. A standby applies a CONTROL record of a host tag write, force or command. -/
  | controlRecord (q : Word) (rec : ControlRec)
  /-- R408. A standby stores the mirrored safety items. -/
  | safetyRecord (sqs : List (Fin 8 × Fin 4)) (req : DWord) (conns : List (Fin 32 × ConnItems)) (split : Bool)
  /-- R488. A cycle's lag exceeds its budget. -/
  | pairTrailing (t : Fin 24) (cycle : Nat)
  /-- R491. The bulk copy completes and the standby passes to TRACKING. -/
  | syncComplete
  /-- R490. A tracking standby rejoins at a slack and enters IN_STEP. -/
  | trackingRejoin
  /-- R487. A yield of the active side has not switched over within SLACK_STARVE. -/
  | yieldExpiry
  /-- R497. PAIR_CMD SWITCHOVER requests a switchover. -/
  | pairSwitchoverCmd
  /-- R490. PAIR_CMD REJOIN asks a tracking standby to rejoin. -/
  | pairRejoin
  /-- R707. PAIR_CMD RESYNC sends the standby to SYNCING. -/
  | pairResync
  /-- R498. PAIR_CMD CANCEL withdraws a waiting switchover. -/
  | pairCancel
  /-- R498. In a qualifying slack the active side sends HANDOVER. -/
  | switchoverStart
  /-- R498. The standby checks HANDOVER and returns READY or REFUSE. -/
  | handoverRecord (q : Word) (cycles : List (Fin 24 × Nat)) (angles : List (Fin 24 × Word)) (base : DWord)
  /-- R498. The active side receives READY and releases AUTH. -/
  | readyRecord (q : Word)
  /-- R498. The former active side receives TAKEN and opens its analog paths. -/
  | takenRecord (q : Word)
  /-- R499. REFUSE or no TAKEN within 50 µs; the former active side reclaims. -/
  | pairSwitchFailed
  /-- R500. The dwell runs out and the home side asks for a switchover. -/
  | pairReclaim
  /-- R507. A write of NET_CTRL enables ports or changes media and redundancy. -/
  | netCtrlWrite (value : Word) (ok : BitVec 4)
  /-- R542. A port loses its link. -/
  | netLinkDown (port : Fin 4)
  /-- R542. A port gains its link. -/
  | netLinkUp (port : Fin 4)
  /-- R508. A frame arrives on a plant port and is de-duplicated and dispatched. -/
  | plantFrameReceive (port : Bool) (src : BitVec 48) (seq : Option (BitVec 16)) (kind : PlantKind) (dest : PlantDest) (frame : List Byte)
  /-- R510. A frame's duplicate has not followed within 400 ms. -/
  | redundantCopyTimeout (src : BitVec 48) (seq : BitVec 16)
  /-- R508. A PRP or HSR supervision frame is sent every 2 s. -/
  | supervisionSend
  /-- R510. Own supervision frames return on one port only for three intervals. -/
  | netHsrOpen
  /-- R512. 100 ms after becoming active the gratuitous ARP is sent again. -/
  | gratuitousArpRepeat
  /-- R517. A Sync from the selected master is taken by the servo. -/
  | ptpSync (port : Bool) (gm : DWord) (sec : BitVec 48) (ns : Word) (corr : Int) (age : Nat) (twoStep : Bool)
  /-- R516. An Announce arrives and the BMCA runs. -/
  | ptpAnnounce (port : Bool) (gm : DWord) (utc : Option (BitVec 16)) (best : Bmca)
  /-- R519. The announce receipt timeout expires. -/
  | ptpAnnounceTimeout (best : Bmca) (tie : Bool)
  /-- R519. No Sync from the master for 3 intervals. -/
  | ptpSyncSilence (both : Bool) (tie : Bool)
  /-- R515. A Pdelay_Req arrives and a one-step Pdelay_Resp is sent. -/
  | ptpPdelayReq (port : Bool) (turn : Nat)
  /-- R517. A Pdelay_Resp arrives and the link delay is measured. -/
  | ptpPdelayResp (port : Bool) (t2 : Int) (corr : Int) (age : Nat) (twoStep : Bool)
  /-- R516. An interval elapses and a Pdelay_Req, Sync or Announce is sent. -/
  | ptpMessageSend (kind : PtpSend) (port : Bool)
  /-- R518. PTP_CMD ACCEPT_STEP allows the next large offset to step module time. -/
  | ptpAcceptStep
  /-- R518. PTP_CMD CANCEL_STEP withdraws an ACCEPT_STEP. -/
  | ptpCancelStep
  /-- R524. GSE_CMD WRITE loads a GOOSE descriptor. -/
  | gseWrite
  /-- R524. GSE_CMD READ copies a descriptor to the data registers. -/
  | gseRead
  /-- R524. GSE_CMD DISABLE stops a GOOSE entry. -/
  | gseDisable
  /-- R526. A publication's repetition interval elapses and it is sent again. -/
  | gooseRetransmit (i : Fin 16)
  /-- R527. A subscription takes a GOOSE message. -/
  | gooseReceive (msg : GooseMsg)
  /-- R528. A subscription's validity timer expires and its tags turn stale. -/
  | netGseTalExpired (j : Fin 64) (tie : Bool)
  /-- R533. LNCH_CMD WRITE loads a launch-slot descriptor. -/
  | lnchWrite
  /-- R530. LNCH_CMD READ copies a launch-slot descriptor. -/
  | lnchRead
  /-- R533. LNCH_CMD DISABLE stops a launch slot. -/
  | lnchDisable
  /-- R531. A fired launch leaves the port, after any frame in progress. -/
  | launchSend (slot : Fin 64) (late : Bool)
  /-- R531. The guard ends GUARD µs after the predicted instant without a launch. -/
  | launchGuardExpiry (slot : Fin 64)
  /-- R537. LEAD_US before a task's predicted release, the ring cycle is sent on both ports. -/
  | ringCycleLaunch (t : Fin 8)
  /-- R538. A returning segment carries DONE and the current TID; a late answer is discarded. -/
  | stationAnswer (st : Fin 64) (tid : BitVec 16) (ir0 ir1 : Bool) (vals : List (Tag × DWord)) (tie : Bool)
  /-- R541. Every 1 s the ring is enumerated and stations admitted. -/
  | ringEnumeration (found : List (Fin 64 × Word × Fin 64))
  /-- R541. A write of RING_CTRL.RUN starts or stops the ring. -/
  | ringRunWrite (run : Bool)
  /-- R540. 2 s after link, the ring master may send its first frame. -/
  | ringWaitExpiry
  /-- R534. A standby forwards a ring frame between its ports and records TIDs. -/
  | ringPassThrough (segs : List (Fin 64 × BitVec 16))
  /-- R542. A PHY self-check fails or a selected SFP is absent, and the port is disabled. -/
  | netPortIsolated (port : Fin 4)
  /-- R563. A CAN_CTRL.EN bit is set and the channel is checked and started. -/
  | canChannelEnable (value : Word)
  /-- R549. A host write to a message buffer is taken or refused. -/
  | canBufferWrite (c : Fin 4) (b : Fin 64) (word : Fin 32) (value : Word)
  /-- R551. A valid frame is stored in the first matching buffer or the queue. -/
  | canFrameReceive (c : Fin 4) (frame : CanFrame)
  /-- R555. A transmission completes. -/
  | canTxComplete (c : Fin 4) (begun : Option (Fin 65)) (stamp : DWord)
  /-- R555. A transmission loses arbitration or meets an error and is retried. -/
  | canTxError (c : Fin 4) (begun : Option (Fin 65)) (kind : CanErr)
  /-- R548. Recovery sees 128 occurrences of 11 recessive bits. -/
  | canBusOn (c : Fin 4)
  /-- R557. A transmission misses its deadline and is withdrawn. -/
  | canTxTimeout (c : Fin 4) (b : Fin 64) (tie : Bool) (stamp : DWord)
  /-- R554. A tag-bound receive buffer gets no frame for TIMEOUT. -/
  | canRxSilent (c : Fin 4) (b : Fin 64) (tie : Bool)
  /-- R549. CAN_CMD REQUEST requests transmission of a buffer. -/
  | canRequest (c : Fin 4) (b : Fin 64)
  /-- R558. CAN_CMD CANCEL withdraws a pending transmission. -/
  | canCancel (c : Fin 4) (b : Fin 64) (begun : Bool)
  /-- R552. CAN_CMD RELEASE clears FULL of a buffer. -/
  | canRelease (c : Fin 4) (b : Fin 64) (tie : Bool)
  /-- R559. CAN_CMD CLEAR_CLASH clears a buffer's clash bit and count. -/
  | canClearClash (c : Fin 4) (b : Fin 64)
  /-- R548. CAN_CMD RECOVER starts bus-off recovery. -/
  | canRecover (c : Fin 4)
  /-- R562. CAN_CMD RECOVER_CH takes a channel out of isolation. -/
  | canRecoverCh (c : Fin 4) (check : Bool)
  /-- R562. A transceiver or isolated-supply self-check fails and the channel stops. -/
  | canChannelIsolated (c : Fin 4)
  /-- R572. The writer writes an accepted record into the ring and the live drains. -/
  | strandlineRingWrite
  /-- R575. STR_CMD FREEZE stops writing into the ring. -/
  | strFreeze
  /-- R576. STR_CMD THAW appends the hold area and resumes. -/
  | strThaw (tie : Bool)
  /-- R576. The hold area has been appended and the recorder runs. -/
  | strThawAppendDone
  /-- R578. STR_CMD READ copies a record to STR_REC0 to STR_REC7. -/
  | strRead (uncorr : Bool)
  /-- R570. STR_CMD LOG writes a host record. -/
  | strLog
  /-- R577. A freeze reaches FREEZE_MAX and the recorder thaws. -/
  | strFreezeExpired
  /-- R579. A host request in Q51 is answered in Q50. -/
  | strandlineRequest (first : Word) (count : Nat)
  /-- R579. Once per second the skipped drain records are reported. -/
  | strDrainSkip
  /-- R581. The start-up scan or fill ends and STR_START is written. -/
  | strandlineScanEnd
  /-- R574. A write of STR_RL_CFG changes a code's rate limit. -/
  | strRlCfgWrite (value : Word)
  /-- R584. A window of 2^20 ticks ends and the trim accumulator acts. -/
  | trimWindow
  /-- R585. No tick for 250 µs sets OSF. -/
  | clkOscStopped
  /-- R585. A host write clears OSF unless the crystal is stopped. -/
  | clkOsfClear (stopped : Bool)
  /-- R587. Every 60 s while locked the count is set from module time. -/
  | clkSync
  /-- R589. CLK_CMD SET_TICKS loads the count. -/
  | clkSetTicks
  /-- R592. CLK_CMD SET_CAL loads the count from a calendar date. -/
  | clkSetCal
  /-- R592. CLK_CMD READ_CAL writes the packed calendar value of the count. -/
  | clkReadCal
  /-- R590. CLK_CMD REGS_VALIDATE sets REGS_VALID. -/
  | clkRegsValidate
  /-- R590. A host write of a backup register reaches the backup domain. -/
  | clkBregWrite (i : Fin 16) (value : Word)
  /-- R593. The main 3.3 V rail crosses its threshold and VBAK changes source. -/
  | vbakSwitch (toMain : Bool)
  /-- R594. VBAK falls below 1.6 V and the backup domain is reset when power returns. -/
  | clkRetentionLost
  /-- R595. Every 10 s the cell is loaded and its voltage judged. -/
  | clkCellCheck (mv : Nat)
  /-- R606. A host access to BAR2 or a window is checked and acts. -/
  | hostMemoryAccess (bar2 : Bool) (off : BitVec 33) (len : Fin 257) (write : Bool) (data : List Byte) (uncorr : Option (Fin 256))
  /-- R617. MPU_CMD COMMIT puts the staged rules in force. -/
  | mpuCommit
  /-- R616. MPU_CMD ABANDON discards the staged rules. -/
  | mpuAbandon
  /-- R633. MPU_CMD READ copies committed rules to the staging registers. -/
  | mpuRead
  /-- R617. Every part of the old epoch has completed and BUSY clears. -/
  | mpuCommitted
  /-- R618. A write of MPU_CTRL.LOCKED closes the host's staging. -/
  | mpuLockWrite
  /-- R619. A DRAM read corrects a symbol. -/
  | memEccCorrected (addr : BitVec 36)
  /-- R619. An uncorrectable DRAM symbol is handled by partition. -/
  | memEccUncorr (addr : BitVec 36)
  /-- R621. A write of MBXm_SEND puts a word into the queue towards the other end. -/
  | mbxSend (master : Fin 10) (m : Fin 24) (word : Word)
  /-- R621. A read of MBXm_RECV takes the oldest word. -/
  | mbxRecv (master : Fin 10) (m : Fin 24)
  /-- R622. End 0 rings doorbell bits. -/
  | mbxDoorbellRing (master : Fin 10) (m : Fin 24) (bits : Word)
  /-- R622. End 1 takes doorbell bits. -/
  | mbxDoorbellTake (master : Fin 10) (m : Fin 24) (bits : Word)
  /-- R622. End 1 writes a return code. -/
  | mbxAckWrite (master : Fin 10) (m : Fin 24) (code : BitVec 16)
  /-- R622. End 0 reads the return code and clears NEW and OVERRUN. -/
  | mbxAckRead (master : Fin 10) (m : Fin 24)
  /-- R620. A write of MBXm_BIND binds a mailbox or is refused. -/
  | mbxBindWrite (m : Fin 24) (value : Word)
  /-- R620. A write of MBX_CTRL.BIND_LOCK closes the bindings. -/
  | mbxBindLock
  /-- R625. A read of a lock register acquires a free lock or reports its holder. -/
  | mbxLockRead (master : Fin 10) (i : Fin 64)
  /-- R625. A write of 1 by the holder frees a lock. -/
  | mbxLockWrite (master : Fin 10) (i : Fin 64) (value : Word)
  /-- R627. The host frees held locks by force. -/
  | mbxLockForce (high : Bool) (mask : Word)
  /-- R631. A write of QUE_EN enables or disables queues. -/
  | queEnable (high : Bool) (value : Word)
  /-- R630. The host advances HEAD of a host-produced queue. -/
  | queHeadWrite (q : Fin 64) (index : BitVec 16)
  /-- R630. The host advances TAIL of a host-consumed queue. -/
  | queTailWrite (q : Fin 64) (index : BitVec 16)
  /-- R638. LCY_CMD TRANSITION requests a lifecycle transition. -/
  | lcyTransition (target confirm : Byte)
  /-- R641. LCY_CMD REVOKE_KEY revokes a key slot. -/
  | lcyRevokeKey (slot : Fin 2)
  /-- R649. LCY_CMD DBG_CLOSE closes the debug session. -/
  | lcyDbgClose
  /-- R642. LCY_CMD NEW_NONCE draws a new nonce. -/
  | lcyNewNonce
  /-- R639. A fuse group reads blown and the new lifecycle state takes effect. -/
  | lcyStateChanged
  /-- R640. A key package in Q35 installs key digests or is refused. -/
  | keyPackage (uid : DWord) (good : Bool) (k0 k1 : Option (BitVec 384))
  /-- R642. A return authorisation in Q35 is checked. -/
  | returnAuthorisation (uid nonce : DWord) (good : Bool)
  /-- R648. The host writes a debug token. -/
  | lcyDbgTokenWrite (token : Word)
  /-- R648. The debugger presents a token and a session opens or a failure counts. -/
  | dbgAuth (value : Word) (tie : Bool)
  /-- R648. A token's 60 s validity expires. -/
  | dbgTokenExpiry
  /-- R649. The session WINDOW ends and the session closes. -/
  | dbgSessionExpiry
  /-- R647. An access of M9 passes the lifecycle lock check and the protection check. -/
  | debugAccess (write : Bool) (addr : BitVec 36) (len : Fin 257) (data : List Byte)
  /-- R651. An instruction-register update takes an open instruction or decodes BYPASS. -/
  | scanInstruction (inst : ScanInst)
  /-- R653. FWU_CMD PROGRAM erases the other slot for programming. -/
  | fwuProgram
  /-- R654. FWU_CMD VERIFY checks the programmed slot. -/
  | fwuVerify (good : Bool)
  /-- R655. FWU_CMD ACTIVATE selects the verified slot on trial. -/
  | fwuActivate (full : Bool)
  /-- R659. FWU_CMD REJECT ends a trial as a failure. -/
  | fwuReject
  /-- R653. FWU_CMD ABORT abandons programming. -/
  | fwuAbort
  /-- R653. An item of a firmware image in Q32 is written and answered. -/
  | firmwareItem
  /-- R646. An item in Q33 writes the configuration store or is refused. -/
  | configStoreWrite (copy : CfgCopy)
  /-- R653. An item in Q34 writes the program store. -/
  | programStoreWrite (image : Option Image) (signed : Signed)
  /-- R656. At the next slack the firmware restart pause begins. -/
  | fwuPauseStart
  /-- R656. The restart ends and skipped releases are made up once. -/
  | fwuActivated
  /-- R658. The health criteria have held for 30 s and the trial ends. -/
  | fwuHealthOk
  /-- R659. The trial window expires without HEALTH_OK and the module resets into the previous slot. -/
  | fwuTrialExpiry (tie : Bool)
  /-- R668. A command to OFF moves the module down the chain to OFF. -/
  | powerCmdOff
  /-- R668. A command to QUIET moves the module to QUIET, abandoning a step under way. -/
  | powerCmdQuiet
  /-- R670. A command to READY starts the region restart from QUIET or leaves RUN. -/
  | powerCmdReady
  /-- R672. A command to RUN moves the module to RUN and it decides authority. -/
  | powerCmdRun
  /-- R673. A command to HOLD freezes the outputs. -/
  | powerCmdHold
  /-- R670. The restart into READY completes with every output in ebb. -/
  | readyRestartDone (bist : TriadBist) (prog : Bool)
  /-- R680. SUP_CMD RESET with CONFIRM resets the module. -/
  | supReset (confirm : Byte)
  /-- R677. SUP_CMD RECOVER asks a region or the TI bank to leave its fallback. -/
  | supRecover (target : Fin 16) (pass : Bool)
  /-- R706. HOST_RST_N has been low for 1 ms and the module enters reset or wakes from OFF. -/
  | hostRst
  /-- R679. The supervisor watchdog expires and resets the module. -/
  | supWatchdog
  /-- R678. SEATED_N goes high then low again and the module resets. -/
  | reseated
  /-- R66. Reset is released, SID is latched and start-up begins. -/
  | resetRelease
  /-- R681. Start-up ends in QUIET with START_DONE set. -/
  | supStart (runOk otherOk : Bool) (queues : List (Fin 64 × Word × Word × Word))
  /-- R383. Breakwater's own RC filter of an SI contact passes a level change, which changes healthy_bw and LS_ON and can open a low-side switch without the processor. -/
  | breakwaterContactChange (p : Fin 8) (b : Bool) (level : Bool)
  /-- R407. The other side pulls AUTH low, so this side's AUTH sense shows the line held and a switch test under way is abandoned with both switches opened. -/
  | authTakenByOtherSide
  /-- R471. An acknowledgement of ordered causeway records arrives, and the sender frees those records from its 4 MiB buffer. -/
  | causewayRecordAck (kind : Fin 13) (q : Word)
  /-- R470. 10 ms pass without a slack and the active side sends a TIDE record for each enabled tide. -/
  | tideRecordSend
  /-- R515. A two-step Follow_Up or Pdelay_Resp_Follow_Up arrives and supplies the timestamp that completes the offset or link-delay measurement. -/
  | ptpFollowUp (port : Bool) (pdelay : Bool) (sec : BitVec 48) (ns : Word) (corr : Int)
  /-- R560. A frame on the bus fails reception, for example its CRC, so it is discarded, counted in CNc_RX_COUNTS.CRC and REC is updated. -/
  | canRxError (c : Fin 4) (crc : Bool) (eight : Bool)
  /-- R513. An answer to an acyclic ring message arrives on IR0 or IR1 and is placed in Q11 for the host. -/
  | acyclicRingAnswer (ir1 : Bool) (err : Bool) (frame : List Byte)
  /-- R653. An item placed by the host in Q36 to Q39 is answered with ERR set. -/
  | unusedBulkQueueItem (k : Fin 4)
  deriving DecidableEq, Repr

end Sys2Proof
end

