-- ==== Sys2Proof/Decode.lean ====
section
/-! DEFINITION. Words that spell a command: spec/opcode_table.json gives no row any bits, so no word spells one (log
entry 2). -/
namespace Sys2Proof

/-- The command that a word spells by the bits of the opcode table. -/
def decodeTableWord (_nbits _w : Nat) : Option Instr := none

end Sys2Proof
end

