-- ==== Sys2Proof/Machine/Float.lean ====
section
/-! DEFINITION. IEEE 754 binary32 and binary64 arithmetic under R231 and R232, exact over natural numbers
and rounded once to nearest, ties to even. Values are bit patterns as numbers. -/
namespace Sys2Proof.Machine.Flt

/-- A binary format: fraction bits and exponent bits. -/
structure Fmt where
  p : Nat
  e : Nat
  deriving DecidableEq, Repr

def f64 : Fmt := ⟨52, 11⟩
def f32 : Fmt := ⟨23, 8⟩

/-- Exponent bias. -/
def Fmt.bias (f : Fmt) : Nat := 2 ^ (f.e - 1) - 1
/-- Bits of plus infinity. -/
def Fmt.inf (f : Fmt) : Nat := (2 ^ f.e - 1) * 2 ^ f.p
/-- The sign bit. -/
def Fmt.sbit (f : Fmt) : Nat := 2 ^ (f.p + f.e)
/-- The canonical NaN of R232. -/
def Fmt.nan (f : Fmt) : Nat := f.inf + 2 ^ (f.p - 1)

def sign (f : Fmt) (a : Nat) : Bool := a / f.sbit % 2 == 1
def mag (f : Fmt) (a : Nat) : Nat := a % f.sbit
def isNan (f : Fmt) (a : Nat) : Bool := decide (f.inf < mag f a)
def isSnan (f : Fmt) (a : Nat) : Bool := isNan f a && a / 2 ^ (f.p - 1) % 2 == 0
def isInf (f : Fmt) (a : Nat) : Bool := mag f a == f.inf
def isZero (f : Fmt) (a : Nat) : Bool := mag f a == 0
def isFinite (f : Fmt) (a : Nat) : Bool := decide (mag f a < f.inf)
/-- quiet() of R232. -/
def quiet (f : Fmt) (a : Nat) : Nat := if isSnan f a then a + 2 ^ (f.p - 1) else a
def neg (f : Fmt) (a : Nat) : Nat := if sign f a then a - f.sbit else a + f.sbit
def abs (f : Fmt) (a : Nat) : Nat := mag f a
/-- The magnitude with a sign. -/
def withSign (f : Fmt) (s : Bool) (m : Nat) : Nat := if s then m + f.sbit else m

/-- The significand and the exponent of a finite value: m * 2^q. -/
def sig (f : Fmt) (a : Nat) : Nat :=
  if mag f a / 2 ^ f.p = 0 then mag f a else mag f a % 2 ^ f.p + 2 ^ f.p
def expo (f : Fmt) (a : Nat) : Int :=
  (max 1 (mag f a / 2 ^ f.p) : Nat) - ((f.bias + f.p : Nat) : Int)

/-- A result with the sticky flags it sets (R232). -/
structure Res where
  bits : Nat
  nv : Bool := false
  ov : Bool := false
  dz : Bool := false
  deriving DecidableEq, Repr

/-- Round m * 2^q, plus something below one unit when `sticky`, to the nearest, ties to even. -/
def round (f : Fmt) (s : Bool) (m : Nat) (q : Int) (sticky : Bool) : Res :=
  if m = 0 then ⟨withSign f s 0, false, false, false⟩
  else
    let qmin : Int := 1 - ((f.bias + f.p : Nat) : Int)
    let qt := max ((Nat.log2 m : Int) + q - (f.p : Int)) qmin
    let sh := qt - q
    let k := sh.toNat
    let n := if sh ≤ 0 then m * 2 ^ (-sh).toNat else m / 2 ^ k
    let r := m % 2 ^ k
    let half := 2 ^ (k - 1)
    let up := decide (0 < sh) && (decide (half < r) || (r == half && (sticky || n % 2 == 1)))
    let bits := (qt - qmin).toNat * 2 ^ f.p + n + up.toNat
    if f.inf ≤ bits then ⟨withSign f s f.inf, false, true, false⟩ else ⟨withSign f s bits, false, false, false⟩

/-- The NaN rule of R232 around an operation on two operands. -/
def nanRule (f : Fmt) (a b : Nat) (invalid : Bool) (r : Res) : Res :=
  let s := isSnan f a || isSnan f b
  if isNan f a then ⟨quiet f a, s, false, false⟩
  else if isNan f b then ⟨quiet f b, s, false, false⟩
  else if invalid then ⟨f.nan, true, false, false⟩
  else r

/-- The exact sum of two finite values, rounded. -/
def addFin (f : Fmt) (a b : Nat) : Res :=
  let q := min (expo f a) (expo f b)
  let x := (sig f a * 2 ^ (expo f a - q).toNat : Nat)
  let y := (sig f b * 2 ^ (expo f b - q).toNat : Nat)
  let t : Int := (if sign f a then -(x : Int) else x) + (if sign f b then -(y : Int) else y)
  if t = 0 then ⟨withSign f (sign f a && sign f b) 0, false, false, false⟩
  else round f (decide (t < 0)) t.natAbs q false

def add (f : Fmt) (a b : Nat) : Res :=
  nanRule f a b (isInf f a && isInf f b && sign f a != sign f b)
    (if isInf f a then ⟨a, false, false, false⟩ else if isInf f b then ⟨b, false, false, false⟩ else addFin f a b)

/-- Subtraction; a NaN operand keeps its own sign. -/
def sub (f : Fmt) (a b : Nat) : Res :=
  nanRule f a b (isInf f a && isInf f b && sign f a == sign f b)
    (if isInf f a then ⟨a, false, false, false⟩
     else if isInf f b then ⟨neg f b, false, false, false⟩ else addFin f a (neg f b))

def mul (f : Fmt) (a b : Nat) : Res :=
  let s := sign f a != sign f b
  nanRule f a b ((isInf f a && isZero f b) || (isZero f a && isInf f b))
    (if isInf f a || isInf f b then ⟨withSign f s f.inf, false, false, false⟩
     else round f s (sig f a * sig f b) (expo f a + expo f b) false)

def div (f : Fmt) (a b : Nat) : Res :=
  let s := sign f a != sign f b
  nanRule f a b ((isInf f a && isInf f b) || (isZero f a && isZero f b))
    (if isZero f b then ⟨withSign f s f.inf, false, false, true⟩
     else if isInf f a then ⟨withSign f s f.inf, false, false, false⟩
     else if isInf f b then ⟨withSign f s 0, false, false, false⟩
     else
       let k := 2 * f.p + 8
       let n := sig f a * 2 ^ k
       round f s (n / sig f b) (expo f a - expo f b - (k : Int)) (n % sig f b != 0))

/-- The integer square root, bit by bit from bit `n` down. -/
def isqrt (m : Nat) : Nat → Nat → Nat
  | 0, r => r
  | n + 1, r => isqrt m n (if (r + 2 ^ n) * (r + 2 ^ n) ≤ m then r + 2 ^ n else r)

def sqrt (f : Fmt) (a : Nat) : Res :=
  nanRule f a a (sign f a && !isZero f a)
    (if isInf f a || isZero f a then ⟨a, false, false, false⟩
     else
       let t := 2 * (f.p + 4) + (if expo f a % 2 = 0 then 0 else 1)
       let m := sig f a * 2 ^ t
       let r := isqrt m (2 * f.p + 8) 0
       round f false r ((expo f a - (t : Int)) / 2) (r * r != m))

/-- A key that orders the values that are not NaN, -0 below +0. -/
def key (f : Fmt) (a : Nat) : Int := if sign f a then -(mag f a : Int) - 1 else (mag f a : Int)

def fmin (f : Fmt) (a b : Nat) : Res := nanRule f a b false ⟨if key f b < key f a then b else a, false, false, false⟩
def fmax (f : Fmt) (a b : Nat) : Res := nanRule f a b false ⟨if key f a < key f b then b else a, false, false, false⟩

/-- Equality and order of two values that are not NaN. -/
def eq (f : Fmt) (a b : Nat) : Bool := (isZero f a && isZero f b) || key f a == key f b
def lt (f : Fmt) (a b : Nat) : Bool := !eq f a b && decide (key f a < key f b)

/-- An integer, rounded. -/
def ofInt (f : Fmt) (n : Int) : Res := round f (decide (n < 0)) n.natAbs 0 false

/-- The integer nearest to a finite value, ties to even; or the value rounded towards zero. -/
def toIntFin (f : Fmt) (nearest : Bool) (a : Nat) : Int :=
  let q := expo f a
  let m := sig f a
  let v : Nat :=
    if 0 ≤ q then m * 2 ^ q.toNat
    else
      let k := (-q).toNat
      let n := m / 2 ^ k
      let r := m % 2 ^ k
      let half := 2 ^ (k - 1)
      if nearest && (decide (half < r) || (r == half && n % 2 == 1)) then n + 1 else n
  if sign f a then -(v : Int) else v

/-- A float-to-integer conversion with its limits (R234): the value and NV. -/
def toInt (f : Fmt) (nearest : Bool) (lo hi : Int) (a : Nat) : Int × Bool :=
  if isNan f a then (0, true)
  else if isInf f a then (if sign f a then lo else hi, true)
  else
    let v := toIntFin f nearest a
    if v < lo then (lo, true) else if hi < v then (hi, true) else (v, false)

/-- A NaN carried to another format: the sign and the most significant fraction bits kept, quieted. -/
def convNan (f g : Fmt) (a : Nat) : Nat :=
  let fr := mag f a % 2 ^ f.p
  let fr' := if f.p ≤ g.p then fr * 2 ^ (g.p - f.p) else fr / 2 ^ (f.p - g.p)
  withSign g (sign f a) (quiet g (g.inf + (if fr' / 2 ^ (g.p - 1) % 2 = 1 then fr' else fr' + 2 ^ (g.p - 1))))

/-- A value carried from format `f` to format `g`, rounded (R234). -/
def conv (f g : Fmt) (a : Nat) : Res :=
  if isNan f a then ⟨convNan f g a, isSnan f a, false, false⟩
  else if isInf f a then ⟨withSign g (sign f a) g.inf, false, false, false⟩
  else round g (sign f a) (sig f a) (expo f a) false

/-! Binary64 arithmetic without its flags, for the loop engine and the analog channels. -/
def fadd (a b : Nat) : Nat := (add f64 a b).bits
def fsub (a b : Nat) : Nat := (sub f64 a b).bits
def fmul (a b : Nat) : Nat := (mul f64 a b).bits
def fdiv (a b : Nat) : Nat := (div f64 a b).bits
def fneg (a : Nat) : Nat := neg f64 a
/-- a < b; false for a NaN. -/
def flt (a b : Nat) : Bool := !isNan f64 a && !isNan f64 b && lt f64 a b
/-- a ≤ b; false for a NaN. -/
def fle (a b : Nat) : Bool := !isNan f64 a && !isNan f64 b && (lt f64 a b || eq f64 a b)
def ffin (a : Nat) : Bool := isFinite f64 a
/-- REAL32 bits widened exactly, and binary64 bits rounded to REAL32. -/
def widen (w : Word) : Nat := (conv f32 f64 w.toNat).bits
def narrow (a : Nat) : Word := BitVec.ofNat 32 (conv f64 f32 a).bits
/-- An integer as binary64. -/
def fint (n : Int) : Nat := (ofInt f64 n).bits
def one : Nat := 0x3FF0000000000000

end Sys2Proof.Machine.Flt
end

