-- ==== Sys2Proof/Config.lean ====
section
/-! DEFINITION. What one module fixes and the spec leaves open: factory values, and the free values,
which have no body, so that nothing can be proved of their value. -/
namespace Sys2Proof.Config

/-- The free values: the `n`-th value the spec does not fix, where `n` is `State.freeCtr`. DESIGN
CHOICE: log entry 3. -/
opaque freeValue : Nat → DWord

/-- Which way an inexact number is rounded where no rule says it, by the count of free values and the number: log entry 3. -/
opaque roundUp : Nat → Nat → Bool

/-- What a register whose value only the hardware knows reads at a CD_FABRIC cycle, by cycle and address: a voltage, a
temperature, a progress, or which way an inexact unit is rounded: log entry 3. -/
opaque reading : Nat → Nat → Word

/-- The variant (0 S4, 1 S8, 2 C8) and the hardware revision, as the factory set them. -/
opaque variant : Fin 3
opaque hwRev : BitVec 4

/-- MOD_ID (Table MOD-2). -/
def modId : Word := BitVec.ofNat 32 (0x7260 * 2 ^ 16 + (variant.val + 1) * 2 ^ 12 + hwRev.toNat * 2 ^ 8)

/-- The unique identifier, low and high word (Table LCY-8). -/
opaque uidLo : Word
opaque uidHi : Word

/-- The maintenance MAC address, low and high word (Table NET-10). -/
opaque maintMacLo : Word
opaque maintMacHi : Word

/-- The pair protocol version: major in the high byte, minor in the low byte (Table PAIR-3). -/
opaque pairVersion : BitVec 16

/-- The silicon revision and the manufacturer code in the IDCODE. -/
opaque siliconRev : BitVec 4
opaque jep106 : BitVec 11

/-- The IDCODE of R650. -/
def idcode : Word := BitVec.ofNat 32 (siliconRev.toNat * 2 ^ 28 + 0x7260 * 2 ^ 12 + jep106.toNat * 2 + 1)

/-- The queue item of a received CAN frame: RX_ID word, format word W3 and data bytes; and the arbitration key of a
frame that waits in a transmit queue. The spec gives neither layout: log entry 3. -/
opaque canItem : Word → Word → List Byte → List Byte
opaque canItemKey : List Byte → Nat

/-- A byte of the code that an image with a CRC holds at an offset: the binary form of an image is Burid's. -/
opaque codeByte : Word → Nat → Byte

/-- A byte that a read finds at an internal address whose content the spec does not lay out, by the count of free values
and the address: log entry 3. -/
opaque hiddenByte : Nat → Nat → Byte

/-- The payload of an answer to a bulk item, from its offset and status (R653); its layout is not given: log entry 3. -/
opaque bulkAnswer : Word → Status → List Byte

end Sys2Proof.Config
end

