-- ==== Sys2Proof/Machine/RegMap.lean ====
section
/-! DEFINITION. The register map of the control window: for every register of the block maps its
address (R51 and the block map of its chapter), its reset value and which of its bits each access
code of R3 governs; and a name for every field of the field tables. -/
namespace Sys2Proof.Machine

/-- One row of a block map: `count` registers of one name, `stride` bytes apart from `addr` on, the
reset value, and the bits of the field table by access code (R3). A bit in none of the masks is RO,
WO or reserved (R7). -/
structure RegRow where
  addr : Nat
  stride : Nat
  count : Nat
  reset : Word
  rw : Word
  rwl : Word
  w1c : Word
  w1s : Word
  rc : Word
  deriving DecidableEq, Repr

/-- The register or registers of a row include the one at address `a`. -/
def RegRow.has (r : RegRow) (a : Nat) : Bool :=
  if r.count = 1 then a == r.addr
  else decide (r.addr ≤ a) && ((a - r.addr) % r.stride == 0) && decide ((a - r.addr) / r.stride < r.count)

/-- Part 1 of the TIDE block map. -/
def rowsTIDE1 : List RegRow := [
  ⟨0x020000, 0x0, 1, 0x00000000, 0x000000FF, 0x00000000, 0x00000000, 0x00000000, 0x00000000⟩, -- TIDE_CTRL
  ⟨0x020004, 0x0, 1, 0x00000000, 0x000000FF, 0x00000000, 0x00000000, 0x00000000, 0x00000000⟩, -- TIDE_LOCK
  ⟨0x020008, 0x0, 1, 0x00000000, 0x00000000, 0x00000000, 0x00000000, 0x00000000, 0x00000000⟩, -- TIDE_STATE
  ⟨0x02000C, 0x0, 1, 0x00000000, 0x00000000, 0x00000000, 0xFFFFFFFF, 0x00000000, 0x00000000⟩, -- TIDE_EVENT
  ⟨0x020010, 0x0, 1, 0x00000000, 0xFFFFFFFF, 0x00000000, 0x00000000, 0x00000000, 0x00000000⟩, -- TIDE_IRQ_EN
  ⟨0x020014, 0x0, 1, 0x00000000, 0x00000000, 0x00000000, 0x00000000, 0x00000000, 0x0000FFFF⟩, -- TIDE_CLOSE_CALL
  ⟨0x020100, 0x40, 8, 0x5C481000, 0x00000000, 0xFFFFF307, 0x00000000, 0x00000000, 0x00000000⟩, -- TDn_CFG
  ⟨0x020104, 0x40, 8, 0x0000C350, 0x00000000, 0xFFFFFFFF, 0x00000000, 0x00000000, 0x00000000⟩, -- TDn_SCALE
  ⟨0x020108, 0x40, 8, 0x00000000, 0x00000000, 0xFFFFFFFF, 0x00000000, 0x00000000, 0x00000000⟩, -- TDn_OFFSET
  ⟨0x02010C, 0x40, 8, 0x0410400A, 0x00000000, 0xFFFFFFFF, 0x00000000, 0x00000000, 0x00000000⟩, -- TDn_WINDOWS
  ⟨0x020110, 0x40, 8, 0x000000C8, 0x00000000, 0x0000FFFF, 0x00000000, 0x00000000, 0x00000000⟩, -- TDn_HOLDLIM
  ⟨0x020114, 0x40, 8, 0x00000000, 0x00000000, 0x00000000, 0x00000000, 0x00000000, 0x00000000⟩, -- TDn_STATUS
  ⟨0x020118, 0x40, 8, 0x00000000, 0x00000000, 0x00000000, 0x00000000, 0x00000000, 0x00000000⟩, -- TDn_ANGLE
  ⟨0x02011C, 0x40, 8, 0x00000000, 0x00000000, 0x00000000, 0x00000000, 0x00000000, 0x00000000⟩, -- TDn_TURN
  ⟨0x020120, 0x40, 8, 0x00000000, 0x00000000, 0x00000000, 0x00000000, 0x00000000, 0x00000000⟩, -- TDn_FREQ_LO
  ⟨0x020124, 0x40, 8, 0x00000000, 0x00000000, 0x00000000, 0x00000000, 0x00000000, 0x00000000⟩, -- TDn_FREQ_HI
  ⟨0x020128, 0x40, 8, 0x00000000, 0x00000000, 0x00000000, 0x00000000, 0x00000000, 0x00000000⟩, -- TDn_PHASE_ERR
  ⟨0x02012C, 0x40, 8, 0x00000000, 0x00000000, 0x00000000, 0x00000000, 0x00000000, 0xFFFFFFFF⟩, -- TDn_COUNTS
  ⟨0x020130, 0x40, 8, 0x00000000, 0x00000000, 0x00000000, 0x00000000, 0x00000000, 0x00000000⟩, -- TDn_HOLD_TIME
  ⟨0x020134, 0x40, 8, 0x00000000, 0x00000000, 0x00000000, 0x00000000, 0x00000000, 0x00000000⟩, -- TDn_AMPL
  ⟨0x021000, 0x0, 1, 0x00000000, 0x00000001, 0x00000000, 0x00000000, 0x00000000, 0x00000000⟩, -- TT_CTRL
  ⟨0x021004, 0x0, 1, 0x00000800, 0x00001FFF, 0x00000000, 0x00000000, 0x00000000, 0x00000000⟩, -- TT_PARTITION
  ⟨0x021008, 0x0, 1, 0x00000000, 0x00000FFF, 0x00000000, 0x00000000, 0x00000000, 0x00000000⟩, -- TT_SEL
  ⟨0x02100C, 0x0, 1, 0x00000000, 0x00000000, 0x00000000, 0x00000000, 0x00000000, 0x00000000⟩, -- TT_CMD
  ⟨0x021010, 0x0, 1, 0x00000400, 0x00000000, 0x00000000, 0x00000000, 0x00000000, 0x00000000⟩, -- TT_RESULT
  ⟨0x021014, 0x0, 1, 0x00000000, 0x00000FFF, 0x00000000, 0x00000000, 0x00000000, 0x00000000⟩, -- TT_CLAIM
  ⟨0x021018, 0x0, 1, 0x00000000, 0x00000000, 0x00000000, 0x00FFFFFF, 0x00000000, 0x00000000⟩, -- TT_EVENT
  ⟨0x02101C, 0x0, 1, 0x00000000, 0x00FFFFFF, 0x00000000, 0x00000000, 0x00000000, 0x00000000⟩, -- TT_IRQ_EN
  ⟨0x021020, 0x0, 1, 0x00000000, 0x00000000, 0x00000000, 0x00000000, 0x00000000, 0xFFFFFFFF⟩, -- TT_LATE_COUNT
  ⟨0x021024, 0x0, 1, 0x00000000, 0x00000000, 0x00000000, 0x00000000, 0x00000000, 0x00000000⟩, -- TT_OVERSPEED
  ⟨0x021028, 0x0, 1, 0x00000000, 0x00000000, 0x00000000, 0x00000000, 0x00000000, 0x00000000⟩, -- TT_CAL_STATUS
  ⟨0x02102C, 0x0, 1, 0x00000000, 0x00000000, 0x00000000, 0x00000000, 0x00000000, 0x0000FFFF⟩, -- TT_MERGED
  ⟨0x021040, 0x4, 8, 0x00000000, 0xFFFFFFFF, 0x00000000, 0x00000000, 0x00000000, 0x00000000⟩, -- TT_DATA
  ⟨0x022000, 0x0, 1, 0x00000000, 0x00000000, 0x00000000, 0x00000000, 0x00000000, 0x00000000⟩, -- SQ_RUN
  ⟨0x022004, 0x0, 1, 0x00000000, 0x00000000, 0x00000000, 0xFFFFFFFF, 0x00000000, 0x00000000⟩, -- SQ_DONE_EV
  ⟨0x022008, 0x0, 1, 0x00000000, 0x00000000, 0x00000000, 0xFFFFFFFF, 0x00000000, 0x00000000⟩, -- SQ_FAULT_EV
  ⟨0x02200C, 0x0, 1, 0x00000000, 0xFFFFFFFF, 0x00000000, 0x00000000, 0x00000000, 0x00000000⟩, -- SQ_DONE_IRQ_EN
  ⟨0x022010, 0x0, 1, 0x00000000, 0xFFFFFFFF, 0x00000000, 0x00000000, 0x00000000, 0x00000000⟩, -- SQ_FAULT_IRQ_EN
  ⟨0x022014, 0x0, 1, 0x00000000, 0x00000000, 0x00000000, 0x00000000, 0x00000000, 0x0000FFFF⟩, -- SQ_CLOSE_CALL
  ⟨0x022100, 0x20, 32, 0x00000000, 0x00000000, 0x00000000, 0x00000000, 0x00000000, 0x00000000⟩ -- SQs_CMD
  ]

/-- Part 2 of the TIDE block map. -/
def rowsTIDE2 : List RegRow := [
  ⟨0x022104, 0x20, 32, 0x00000000, 0x00000000, 0x00000000, 0x00000000, 0x00000000, 0x00000000⟩, -- SQs_STATE
  ⟨0x022108, 0x20, 32, 0x00000000, 0x00000000, 0x00000000, 0x00000000, 0x00000000, 0x00000000⟩, -- SQs_ELAPSED
  ⟨0x02210C, 0x20, 32, 0x00000000, 0x00000000, 0x00000000, 0x00000000, 0x000000FF, 0x00000000⟩, -- SQs_SIGNAL
  ⟨0x022110, 0x20, 32, 0x00000000, 0x00000000, 0x00000000, 0x00000000, 0x00000000, 0x0000FFFF⟩ -- SQs_DROPPED
  ]

/-- The TIDE block (R130, R167; Table TIDE-33, Table TIDE-8; 03_tide_tracking.md, 04_tide_tables_and_step_tables.md). -/
def rowsTIDE : List RegRow := rowsTIDE1 ++ rowsTIDE2

/-- The EXE block (R219; Table EXE-10; 05_execution_model.md). -/
def rowsEXE : List RegRow := [
  ⟨0x030000, 0x0, 1, 0x00000000, 0x00000001, 0x00000000, 0x00000000, 0x00000000, 0x00000000⟩, -- EXE_CTRL
  ⟨0x030004, 0x0, 1, 0x00000A01, 0x0000FF00, 0x00000001, 0x00000000, 0x00000000, 0x00000000⟩, -- EXE_CFG
  ⟨0x030008, 0x0, 1, 0x00000000, 0x00000000, 0x00000000, 0x00000000, 0x00000000, 0x00000000⟩, -- EXE_STATE
  ⟨0x03000C, 0x0, 1, 0x00000000, 0x00000000, 0x00000000, 0x000001FF, 0x00000000, 0x00000000⟩, -- EXE_EVENT
  ⟨0x030010, 0x0, 1, 0x00000000, 0x000001FF, 0x00000000, 0x00000000, 0x00000000, 0x00000000⟩, -- EXE_IRQ_EN
  ⟨0x030014, 0x0, 1, 0x00000000, 0x00000000, 0x00000000, 0x00000000, 0x00000000, 0x0000FFFF⟩, -- EXE_CLOSE_CALL
  ⟨0x030018, 0x0, 1, 0x00000000, 0x00000000, 0x00000000, 0x00000000, 0x00000000, 0x00000000⟩, -- EXE_OVERRUN
  ⟨0x030020, 0x0, 1, 0x00000000, 0x00000000, 0x00000000, 0x00000000, 0x00000000, 0x00000000⟩, -- EXE_CHANGE_CMD
  ⟨0x030024, 0x0, 1, 0x00000300, 0x00000000, 0x00000000, 0x00000000, 0x00000000, 0x00000000⟩, -- EXE_CHANGE_STATUS
  ⟨0x030028, 0x0, 1, 0x00000000, 0x00001FFF, 0x00000000, 0x00000000, 0x00000000, 0x00000000⟩, -- EXE_VALUES_LEN
  ⟨0x03002C, 0x0, 1, 0x00000000, 0x00000000, 0x00000000, 0x00000000, 0x00000000, 0x00000000⟩, -- EXE_CHANGE_DROPS
  ⟨0x030030, 0x0, 1, 0x00000000, 0x00000000, 0x00000000, 0x00000000, 0x00000000, 0x00000000⟩, -- EXE_IMAGE_GEN
  ⟨0x030034, 0x0, 1, 0x00000000, 0x00000000, 0x00000000, 0x00000000, 0x00000000, 0x00000000⟩, -- EXE_IMAGE_CRC
  ⟨0x030040, 0x0, 1, 0x00000000, 0x0000FFFF, 0x00000000, 0x00000000, 0x00000000, 0x00000000⟩, -- EXE_FORCE_TAG
  ⟨0x030044, 0x0, 1, 0x00000000, 0xFFFFFFFF, 0x00000000, 0x00000000, 0x00000000, 0x00000000⟩, -- EXE_FORCE_VAL_LO
  ⟨0x030048, 0x0, 1, 0x00000000, 0xFFFFFFFF, 0x00000000, 0x00000000, 0x00000000, 0x00000000⟩, -- EXE_FORCE_VAL_HI
  ⟨0x03004C, 0x0, 1, 0x00000000, 0x00000000, 0x00000000, 0x00000000, 0x00000000, 0x00000000⟩, -- EXE_FORCE_CMD
  ⟨0x030050, 0x0, 1, 0x00000300, 0x00000000, 0x00000000, 0x00000000, 0x00000000, 0x00000000⟩, -- EXE_FORCE_RESULT
  ⟨0x030054, 0x0, 1, 0x00000000, 0x00000000, 0x00000000, 0x00000000, 0x00000000, 0x00000000⟩, -- EXE_FORCE_COUNT
  ⟨0x030060, 0x0, 1, 0x00000000, 0x00000000, 0x00000000, 0x00000000, 0x00000000, 0x00000000⟩, -- EXE_SLACK
  ⟨0x030064, 0x0, 1, 0x00000000, 0x00000000, 0x00000000, 0x00000000, 0x00000000, 0x0000FFFF⟩, -- EXE_SLACK_MISS
  ⟨0x030070, 0x0, 1, 0x00000000, 0x00000000, 0x00000000, 0x00000000, 0x0000FFFF, 0x00000000⟩, -- EXE_EVT_SIGNAL
  ⟨0x030080, 0x0, 1, 0x00000000, 0x00000000, 0x00000000, 0x00000000, 0x00000000, 0x00000000⟩, -- EXE_STALE_LO
  ⟨0x030084, 0x0, 1, 0x00000000, 0x00000000, 0x00000000, 0x00000000, 0x00000000, 0x00000000⟩, -- EXE_STALE_HI
  ⟨0x030088, 0x0, 1, 0x00000000, 0x00000000, 0x00000000, 0x00000000, 0x00000000, 0x00000000⟩, -- EXE_INVALID_LO
  ⟨0x03008C, 0x0, 1, 0x00000000, 0x00000000, 0x00000000, 0x00000000, 0x00000000, 0x00000000⟩, -- EXE_INVALID_HI
  ⟨0x030090, 0x0, 1, 0x00000000, 0x00000000, 0x00000000, 0x00000000, 0x00000000, 0x0000FFFF⟩, -- EXE_STATION_LATE
  ⟨0x030094, 0x0, 1, 0x00000000, 0x00000000, 0x00000000, 0x00000000, 0x00000000, 0x0000FFFF⟩, -- EXE_TAG_DENIED
  ⟨0x030100, 0x20, 24, 0x00000000, 0x00000000, 0x00000000, 0x00000000, 0x00000000, 0x00000000⟩, -- TASKt_CFG
  ⟨0x030104, 0x20, 24, 0x00000000, 0x00000000, 0x00000000, 0x00000000, 0x00000000, 0x00000000⟩, -- TASKt_ANGLE
  ⟨0x030108, 0x20, 24, 0x00000000, 0x00000000, 0x00000000, 0x00000000, 0x00000000, 0x00000000⟩, -- TASKt_STEP
  ⟨0x03010C, 0x20, 24, 0x00000000, 0x00000000, 0x00000000, 0x00000000, 0x00000000, 0x00000000⟩, -- TASKt_WDOG
  ⟨0x030110, 0x20, 24, 0x00000000, 0x00000000, 0x00000000, 0x00000000, 0x00000000, 0x00000000⟩, -- TASKt_STATUS
  ⟨0x030114, 0x20, 24, 0x00000000, 0x00000000, 0x00000000, 0x00000000, 0x00000000, 0x00000000⟩, -- TASKt_EXEC
  ⟨0x030118, 0x20, 24, 0x00000000, 0x00000000, 0x00000000, 0x00000000, 0x00000000, 0x00FFFFFF⟩, -- TASKt_EXEC_MAX
  ⟨0x03011C, 0x20, 24, 0x00000000, 0x00000000, 0x00000000, 0x00000000, 0x00000000, 0xFFFF0000⟩ -- TASKt_COUNTS
  ]

/-- The LOOP block (R307; Table LOOP-10; 07_loop_engine.md). -/
def rowsLOOP : List RegRow := [
  ⟨0x040000, 0x0, 1, 0x00000000, 0x00000001, 0x00000000, 0x00000000, 0x00000000, 0x00000000⟩, -- LOOP_CTRL
  ⟨0x040004, 0x0, 1, 0x00000000, 0x00000000, 0x00000371, 0x00000000, 0x00000000, 0x00000000⟩, -- LOOP_FRAME
  ⟨0x040008, 0x0, 1, 0x00000000, 0x00000000, 0xFFFFFFFF, 0x00000000, 0x00000000, 0x00000000⟩, -- LOOP_FRAME_ANGLE
  ⟨0x04000C, 0x0, 1, 0x00000000, 0x00000000, 0xFFFFFFFF, 0x00000000, 0x00000000, 0x00000000⟩, -- LOOP_FRAME_STEP
  ⟨0x040010, 0x0, 1, 0x00000000, 0x00000000, 0x00000000, 0x00000000, 0x00000000, 0x00000000⟩, -- LOOP_STATUS
  ⟨0x040014, 0x0, 1, 0x00000000, 0x00000000, 0x00000000, 0x00000000, 0x00000000, 0x00000000⟩, -- LOOP_FRAME_LAST
  ⟨0x040018, 0x0, 1, 0x00000000, 0x00000000, 0x00000000, 0x000003FF, 0x00000000, 0x00000000⟩, -- LOOP_EVENT
  ⟨0x04001C, 0x0, 1, 0x00000000, 0x000003FF, 0x00000000, 0x00000000, 0x00000000, 0x00000000⟩, -- LOOP_IRQ_EN
  ⟨0x040020, 0x0, 1, 0x00000000, 0x00000000, 0x00000000, 0x00000000, 0x00000000, 0x0000FFFF⟩, -- LOOP_CLOSE_CALL
  ⟨0x040024, 0x0, 1, 0x00000000, 0x00000000, 0x00000000, 0x00000000, 0x00000000, 0xFFFFFFFF⟩, -- LOOP_EVT_COUNTS
  ⟨0x040028, 0x0, 1, 0x00000000, 0x00000000, 0x00000000, 0x00000000, 0x00000000, 0x0000FFFF⟩, -- LOOP_MIRROR_ERR
  ⟨0x04002C, 0x0, 1, 0x00000000, 0x00000000, 0x00000000, 0x00000000, 0x00000000, 0x00000000⟩, -- LOOP_LOAD
  ⟨0x040030, 0x0, 1, 0x00000000, 0x000007FF, 0x00000000, 0x00000000, 0x00000000, 0x00000000⟩, -- LOOP_SEL
  ⟨0x040034, 0x0, 1, 0x00000000, 0x000000FF, 0x00000000, 0x00000000, 0x00000000, 0x00000000⟩, -- LOOP_ARG
  ⟨0x040038, 0x0, 1, 0x00000000, 0xFFFFFFFF, 0x00000000, 0x00000000, 0x00000000, 0x00000000⟩, -- LOOP_VAL
  ⟨0x04003C, 0x0, 1, 0x00000000, 0x00000000, 0x00000000, 0x00000000, 0x00000000, 0x00000000⟩, -- LOOP_CMD
  ⟨0x040040, 0x0, 1, 0x00000500, 0x00000000, 0x00000000, 0x00000000, 0x00000000, 0x00000000⟩, -- LOOP_RESULT
  ⟨0x040044, 0x0, 1, 0x00000000, 0x00000000, 0x00000000, 0x00000000, 0x00000000, 0x00000000⟩, -- LOOP_SLOT_STATE
  ⟨0x040060, 0x4, 8, 0x00000000, 0xFFFFFFFF, 0x00000000, 0x00000000, 0x00000000, 0x00000000⟩, -- LOOP_DESC
  ⟨0x040100, 0x4, 4, 0x00000000, 0x00000000, 0x00000000, 0x00000000, 0x00000000, 0x00000000⟩, -- LOOP_BANK_ISO
  ⟨0x040110, 0x0, 1, 0x00000000, 0x00000000, 0x00000000, 0x00000000, 0x00000000, 0x00000000⟩, -- LOOP_BANK_REEN
  ⟨0x040120, 0x0, 1, 0x00000000, 0x00000000, 0x00000000, 0x00000000, 0x00000000, 0x00000000⟩, -- TRACE_CMD
  ⟨0x040200, 0x10, 32, 0x00000000, 0xFFFF07FF, 0x00000000, 0x00000000, 0x00000000, 0x00000000⟩, -- TRBb_CFG
  ⟨0x040204, 0x10, 32, 0x00000000, 0xFFF0FFFF, 0x00000000, 0x00000000, 0x00000000, 0x00000000⟩, -- TRBb_TRIG
  ⟨0x040208, 0x10, 32, 0x00000000, 0x00003FFF, 0x00000000, 0x00000000, 0x00000000, 0x00000000⟩, -- TRBb_POST
  ⟨0x04020C, 0x10, 32, 0x00000000, 0x00000000, 0x00000000, 0x00000000, 0x00000000, 0x00000000⟩, -- TRBb_STATUS
  ⟨0x040400, 0x4, 64, 0x00000000, 0x00000000, 0x00000000, 0x00000000, 0x00000000, 0x00000000⟩ -- LOOP_FB_MAP
  ]

/-- The DIO block (R348; Table DIO-5; 08_digital_field_io_and_reflex.md). -/
def rowsDIO : List RegRow := [
  ⟨0x050000, 0x0, 1, 0x00000000, 0x00000000, 0x00000000, 0x00000000, 0x00000000, 0x00000000⟩, -- DIO_IN
  ⟨0x050004, 0x0, 1, 0x00000000, 0x00000000, 0x00000000, 0x00000000, 0x00000000, 0x00000000⟩, -- DIO_OUT
  ⟨0x050008, 0x0, 1, 0x00000000, 0x00000000, 0x00000000, 0x00000000, 0x00000000, 0x00000000⟩, -- DIO_INVALID
  ⟨0x050010, 0x4, 4, 0x00000000, 0x00000000, 0x00000000, 0x00000000, 0x00000000, 0x00000000⟩, -- DIO_SRC
  ⟨0x050020, 0x0, 1, 0x00000000, 0x00000000, 0x00000000, 0x000000FF, 0x00000000, 0x00000000⟩, -- DIO_EVENT
  ⟨0x050024, 0x0, 1, 0x00000000, 0x000000FF, 0x00000000, 0x00000000, 0x00000000, 0x00000000⟩, -- DIO_IRQ_EN
  ⟨0x050028, 0x0, 1, 0x00000000, 0x00000000, 0x00000000, 0x00000000, 0x00000000, 0x0000FFFF⟩, -- DIO_CLOSE_CALL
  ⟨0x05002C, 0x0, 1, 0x00000000, 0x00000000, 0x00000000, 0x00000000, 0x00000000, 0x00000000⟩, -- DIO_REARM
  ⟨0x050030, 0x0, 1, 0x00000000, 0x00000000, 0x00000000, 0x00000000, 0x00000000, 0x00000000⟩, -- DIO_BANK_CMD
  ⟨0x050034, 0x0, 1, 0x00000600, 0x00000000, 0x00000000, 0x00000000, 0x00000000, 0x00000000⟩, -- DIO_BANK_RESULT
  ⟨0x050040, 0x10, 4, 0x400A0000, 0xE0FFFFFF, 0x00000000, 0x00000000, 0x00000000, 0x00000000⟩, -- DIO_BANKk_CFG
  ⟨0x050044, 0x10, 4, 0x00000000, 0x00000000, 0x00000000, 0x00000000, 0x00000000, 0x00000000⟩, -- DIO_BANKk_STATUS
  ⟨0x050048, 0x10, 4, 0x00000000, 0x00000000, 0x00000000, 0x00000000, 0x00000000, 0x00000000⟩, -- DIO_BANKk_VOLT
  ⟨0x05004C, 0x10, 4, 0x00000000, 0x00000000, 0x00000000, 0x00000000, 0x00000000, 0xFFFFFFFF⟩, -- DIO_BANKk_COUNTS
  ⟨0x050100, 0x8, 32, 0x01000300, 0x00000000, 0xE300FF00, 0x00000000, 0x00000000, 0x00000000⟩, -- DIOn_CFG
  ⟨0x050104, 0x8, 32, 0x00000000, 0x00000000, 0x00000000, 0x00000000, 0x00000000, 0x00000000⟩ -- DIOn_STATUS
  ]

/-- The RFX block (R349; Table RFX-6; 08_digital_field_io_and_reflex.md). -/
def rowsRFX : List RegRow := [
  ⟨0x070000, 0x0, 1, 0x00000000, 0x00000001, 0x00000000, 0x00000000, 0x00000000, 0x00000000⟩, -- RFX_CTRL
  ⟨0x070004, 0x0, 1, 0x00000000, 0x0000003F, 0x00000000, 0x00000000, 0x00000000, 0x00000000⟩, -- RFX_SEL
  ⟨0x070008, 0x0, 1, 0x00000000, 0x00000000, 0x00000000, 0x00000000, 0x00000000, 0x00000000⟩, -- RFX_CMD
  ⟨0x07000C, 0x0, 1, 0x00000800, 0x00000000, 0x00000000, 0x00000000, 0x00000000, 0x00000000⟩, -- RFX_RESULT
  ⟨0x070010, 0x0, 1, 0x00000000, 0x00000000, 0x00000000, 0x00000000, 0x00000000, 0x00000000⟩, -- RFX_OUT_LO
  ⟨0x070014, 0x0, 1, 0x00000000, 0x00000000, 0x00000000, 0x00000000, 0x00000000, 0x00000000⟩, -- RFX_OUT_HI
  ⟨0x070018, 0x0, 1, 0x00000000, 0x00000000, 0x00000000, 0x00000000, 0x00000000, 0x00000000⟩, -- RFX_ARMED_LO
  ⟨0x07001C, 0x0, 1, 0x00000000, 0x00000000, 0x00000000, 0x00000000, 0x00000000, 0x00000000⟩, -- RFX_ARMED_HI
  ⟨0x070020, 0x0, 1, 0x00000000, 0x00000000, 0x00000000, 0xFFFFFFFF, 0x00000000, 0x00000000⟩, -- RFX_FIRED_LO
  ⟨0x070024, 0x0, 1, 0x00000000, 0x00000000, 0x00000000, 0xFFFFFFFF, 0x00000000, 0x00000000⟩, -- RFX_FIRED_HI
  ⟨0x070028, 0x0, 1, 0x00000000, 0x00000000, 0x00000000, 0x0000000F, 0x00000000, 0x00000000⟩, -- RFX_EVENT
  ⟨0x07002C, 0x0, 1, 0x00000000, 0x0000000F, 0x00000000, 0x00000000, 0x00000000, 0x00000000⟩, -- RFX_IRQ_EN
  ⟨0x070030, 0x0, 1, 0x00000000, 0x00000000, 0x00000000, 0x00000000, 0x00000000, 0x00000000⟩, -- RFX_CRC
  ⟨0x070040, 0x4, 16, 0x00000000, 0xFFFFFFFF, 0x00000000, 0x00000000, 0x00000000, 0x00000000⟩ -- RFX_DATA
  ]

/-- The ANA block (R378; Table ANA-8; 09_analog_loops_and_hart.md). -/
def rowsANA : List RegRow := [
  ⟨0x060000, 0x0, 1, 0x00000000, 0x0000FFFF, 0x00000000, 0x00000000, 0x00000000, 0x00000000⟩, -- ANA_ENABLE
  ⟨0x060004, 0x0, 1, 0x00000000, 0x0000FFFF, 0x00000000, 0x00000000, 0x00000000, 0x00000000⟩, -- ANA_LOCK
  ⟨0x060008, 0x0, 1, 0x00000000, 0x00000000, 0x00000000, 0x00000000, 0x00000000, 0x00000000⟩, -- ANA_INVALID
  ⟨0x06000C, 0x0, 1, 0x00000000, 0x00000000, 0x00000000, 0x00000000, 0x00000000, 0x00000000⟩, -- ANA_COMPLIANCE
  ⟨0x060010, 0x0, 1, 0x00000000, 0x00000000, 0x00000000, 0x000000FF, 0x00000000, 0x00000000⟩, -- ANA_EVENT
  ⟨0x060014, 0x0, 1, 0x00000000, 0x000000FF, 0x00000000, 0x00000000, 0x00000000, 0x00000000⟩, -- ANA_IRQ_EN
  ⟨0x060018, 0x0, 1, 0x00000000, 0x00000000, 0x00000000, 0x00000000, 0x00000000, 0x0000FFFF⟩, -- ANA_CLOSE_CALL
  ⟨0x06001C, 0x0, 1, 0x00000000, 0x00000000, 0x00000000, 0x00000000, 0x00000000, 0x00000000⟩, -- ANA_BANK_STATUS
  ⟨0x060020, 0x0, 1, 0x00000000, 0x00000000, 0x00000000, 0x00000000, 0x00000000, 0x00000000⟩, -- ANA_BANK_CMD
  ⟨0x060024, 0x0, 1, 0x00000700, 0x00000000, 0x00000000, 0x00000000, 0x00000000, 0x00000000⟩, -- ANA_BANK_RESULT
  ⟨0x060030, 0x0, 1, 0x00000000, 0x0000000F, 0x00000000, 0x00000000, 0x00000000, 0x00000000⟩, -- ANA_HART_SEL
  ⟨0x060034, 0x0, 1, 0x00000000, 0x00000000, 0x00000000, 0x00000000, 0x00000000, 0x00000000⟩, -- ANA_HART_CMD
  ⟨0x060038, 0x0, 1, 0x00000700, 0x00000000, 0x00000000, 0x00000000, 0x00000000, 0x00000000⟩, -- ANA_HART_RESULT
  ⟨0x060040, 0x4, 16, 0x00000000, 0xFFFFFFFF, 0x00000000, 0x00000000, 0x00000000, 0x00000000⟩, -- ANA_HART_DATA
  ⟨0x060100, 0x80, 16, 0x04040000, 0x00000000, 0xFFFFF800, 0x00000000, 0x00000000, 0x00000000⟩, -- ANn_CFG
  ⟨0x060104, 0x80, 16, 0x40800000, 0x00000000, 0xFFFFFFFF, 0x00000000, 0x00000000, 0x00000000⟩, -- ANn_RANGE_LO
  ⟨0x060108, 0x80, 16, 0x41A00000, 0x00000000, 0xFFFFFFFF, 0x00000000, 0x00000000, 0x00000000⟩, -- ANn_RANGE_HI
  ⟨0x06010C, 0x80, 16, 0x00000000, 0x00000000, 0xFFFFFFFF, 0x00000000, 0x00000000, 0x00000000⟩, -- ANn_EU_LO
  ⟨0x060110, 0x80, 16, 0x42C80000, 0x00000000, 0xFFFFFFFF, 0x00000000, 0x00000000, 0x00000000⟩, -- ANn_EU_HI
  ⟨0x060114, 0x80, 16, 0x3F800000, 0x00000000, 0xFFFFFFFF, 0x00000000, 0x00000000, 0x00000000⟩, -- ANn_TRIM_GAIN
  ⟨0x060118, 0x80, 16, 0x00000000, 0x00000000, 0xFFFFFFFF, 0x00000000, 0x00000000, 0x00000000⟩, -- ANn_TRIM_OFF
  ⟨0x06011C, 0x80, 16, 0x3C23D70A, 0x00000000, 0xFFFFFFFF, 0x00000000, 0x00000000, 0x00000000⟩, -- ANn_SQRT_CUT
  ⟨0x060120, 0x80, 16, 0x00000000, 0x00000000, 0x00000000, 0x00000000, 0x00000000, 0x00000000⟩, -- ANn_VALUE
  ⟨0x060124, 0x80, 16, 0x00000000, 0x00000000, 0x00000000, 0x00000000, 0x00000000, 0x00000000⟩, -- ANn_MEAS
  ⟨0x060128, 0x80, 16, 0x00000000, 0x00000000, 0x00000000, 0x00000000, 0x00000000, 0x00000000⟩, -- ANn_STATUS
  ⟨0x06012C, 0x80, 16, 0x00000000, 0x00000000, 0x00000000, 0x00000000, 0x00000000, 0x00000000⟩, -- ANn_HEADROOM
  ⟨0x060130, 0x80, 16, 0x00000000, 0x00000000, 0x00000000, 0x00000000, 0x00000000, 0x00000000⟩, -- ANn_RES
  ⟨0x060134, 0x80, 16, 0x000A8F00, 0x00000000, 0xFFFFFFF8, 0x00000000, 0x00000000, 0x00000000⟩, -- ANn_HART_CFG
  ⟨0x060138, 0x80, 16, 0x00000000, 0x00000000, 0x00000000, 0x00000000, 0x00000000, 0x00000000⟩, -- ANn_HART_STATUS
  ⟨0x06013C, 0x80, 16, 0x00000000, 0x00000000, 0x00000000, 0x00000000, 0x00000000, 0xFFFFFFFF⟩, -- ANn_COUNTS
  ⟨0x060140, 0x80, 16, 0x00000000, 0x00000000, 0xFFFFFFFF, 0x00000000, 0x00000000, 0x00000000⟩, -- ANn_HART_TAG01
  ⟨0x060144, 0x80, 16, 0x00000000, 0x00000000, 0xFFFFFFFF, 0x00000000, 0x00000000, 0x00000000⟩, -- ANn_HART_TAG23
  ⟨0x060148, 0x80, 16, 0x00000000, 0x00000000, 0x00000000, 0x00000000, 0x00000000, 0x00000000⟩, -- ANn_STAMP_LO
  ⟨0x06014C, 0x80, 16, 0x00000000, 0x00000000, 0x00000000, 0x00000000, 0x00000000, 0x00000000⟩, -- ANn_STAMP_HI
  ⟨0x060150, 0x80, 16, 0x0000000A, 0x00000000, 0x0000FFFF, 0x00000000, 0x00000000, 0x00000000⟩, -- ANn_HART_POLL
  ⟨0x061000, 0x4, 1024, 0x00000000, 0x00000000, 0xFFFFFFFF, 0x00000000, 0x00000000, 0x00000000⟩ -- ANn_TBLX_i, ANn_TBLY_i (R378)
  ]

/-- The SAF block (R415; Table SAF-5; 10_safety_channels.md). -/
def rowsSAF : List RegRow := [
  ⟨0x080000, 0x0, 1, 0x00000000, 0x00000000, 0x00000000, 0x00000000, 0x00000000, 0x00000000⟩, -- SAF_STATE
  ⟨0x080004, 0x0, 1, 0x00000000, 0x00000000, 0x00000000, 0x00000000, 0x00000000, 0x00000000⟩, -- SAF_CFG
  ⟨0x080008, 0x0, 1, 0x00000000, 0x00000000, 0x00000000, 0x00000000, 0x00000000, 0x00000000⟩, -- SAF_CFG_CRC
  ⟨0x08000C, 0x0, 1, 0x00000000, 0x00000000, 0x00000000, 0x00000000, 0x00000000, 0x0000007F⟩, -- SAF_EVENT
  ⟨0x080010, 0x0, 1, 0x00000000, 0x00000000, 0x00000000, 0x00000000, 0x00000000, 0x0000FFFF⟩, -- SAF_CLOSE_CALL
  ⟨0x080014, 0x0, 1, 0x00000900, 0x00000000, 0x00000000, 0x00000000, 0x00000000, 0x00000000⟩, -- SAF_LAST_STATUS
  ⟨0x080018, 0x0, 1, 0x00000000, 0x00000000, 0x00000000, 0x00000000, 0x00000000, 0x00000000⟩, -- SAF_CYCLES
  ⟨0x080020, 0x0, 1, 0x00000000, 0x00000000, 0x00000000, 0x00000000, 0x00000000, 0x00000000⟩, -- SAF_SX_REQ_LO
  ⟨0x080024, 0x0, 1, 0x00000000, 0x00000000, 0x00000000, 0x00000000, 0x00000000, 0x00000000⟩, -- SAF_SX_REQ_HI
  ⟨0x080028, 0x0, 1, 0x00000000, 0x00000000, 0x00000000, 0x00000000, 0x00000000, 0x00000000⟩, -- SAF_SX_RSP_LO
  ⟨0x08002C, 0x0, 1, 0x00000000, 0x00000000, 0x00000000, 0x00000000, 0x00000000, 0x00000000⟩, -- SAF_SX_RSP_HI
  ⟨0x080030, 0x0, 1, 0x00000000, 0x00000000, 0x00000000, 0x00000000, 0x00000000, 0x00000000⟩, -- SAF_BW_STATUS
  ⟨0x080034, 0x0, 1, 0x00000000, 0x00000000, 0x00000000, 0x00000000, 0x00000000, 0x00000000⟩, -- SAF_TP_STATUS
  ⟨0x080038, 0x0, 1, 0x00000000, 0x00000000, 0x00000000, 0x00000000, 0x00000000, 0x00000000⟩, -- SAF_BANK_STATUS
  ⟨0x080100, 0x10, 8, 0x00000000, 0x00000000, 0x00000000, 0x00000000, 0x00000000, 0x00000000⟩, -- SQn_CFG
  ⟨0x080104, 0x10, 8, 0x00000000, 0x00000000, 0x00000000, 0x00000000, 0x00000000, 0x00000000⟩, -- SQn_SAFE_MASK
  ⟨0x080108, 0x10, 8, 0x00000000, 0x00000000, 0x00000000, 0x00000000, 0x00000000, 0x00000000⟩, -- SQn_STATUS
  ⟨0x08010C, 0x10, 8, 0x00000000, 0x00000000, 0x00000000, 0x00000000, 0x00000000, 0xFFFFFFFF⟩, -- SQn_COUNTS
  ⟨0x080200, 0x8, 8, 0x00000000, 0x00000000, 0x00000000, 0x00000000, 0x00000000, 0x00000000⟩, -- SIp_CFG
  ⟨0x080204, 0x8, 8, 0x00000000, 0x00000000, 0x00000000, 0x00000000, 0x00000000, 0x00000000⟩, -- SIp_STATUS
  ⟨0x080300, 0x4, 16, 0x00000000, 0x00000000, 0x00000000, 0x00000000, 0x00000000, 0x00000000⟩ -- SAF_CLAIM
  ]

/-- The TRIAD block (R463; Table TRIAD-5; 12_triad_execution.md). -/
def rowsTRIAD : List RegRow := [
  ⟨0x0A0000, 0x0, 1, 0x00000000, 0x00000000, 0x00000000, 0x00000000, 0x00000000, 0x00000000⟩, -- TRIAD_STATE
  ⟨0x0A0004, 0x0, 1, 0x00000000, 0x00000000, 0x00000000, 0x000000FF, 0x00000000, 0x00000000⟩, -- TRIAD_EVENT
  ⟨0x0A0008, 0x0, 1, 0x00000000, 0x000000FF, 0x00000000, 0x00000000, 0x00000000, 0x00000000⟩, -- TRIAD_IRQ_EN
  ⟨0x0A000C, 0x0, 1, 0x00000000, 0x00000000, 0x00000000, 0x00000000, 0x00000000, 0x0000FFFF⟩, -- TRIAD_CLOSE_CALL
  ⟨0x0A0010, 0x0, 1, 0x00000000, 0x00000000, 0x00000000, 0x00000000, 0x00000000, 0x00000000⟩, -- TRIAD_HEALTH
  ⟨0x0A0014, 0x0, 1, 0x00000000, 0x00000000, 0x00000000, 0x00000000, 0x00000000, 0x00FFFFFF⟩, -- TRIAD_VOTES
  ⟨0x0A0018, 0x0, 1, 0x00000000, 0x00000000, 0x00000000, 0x00000000, 0x00000000, 0x00000000⟩, -- TRIAD_RESYNC
  ⟨0x0A001C, 0x0, 1, 0x00000000, 0x00000000, 0x00000000, 0x00000000, 0x00000000, 0x00000000⟩, -- TRIAD_DIFF
  ⟨0x0A0020, 0x0, 1, 0x00000000, 0x00000000, 0x00000000, 0x00000000, 0x00000000, 0x00000000⟩, -- TRIAD_DIFF_PC
  ⟨0x0A0024, 0x0, 1, 0x00000000, 0x00000000, 0x00000000, 0x00000000, 0x00000000, 0x00000000⟩, -- TRIAD_BIST
  ⟨0x0A0028, 0x0, 1, 0x00000000, 0x00000000, 0x00000000, 0x00000000, 0x00000000, 0xFFFFFFFF⟩, -- TRIAD_ECC
  ⟨0x0A002C, 0x0, 1, 0x00000000, 0x00000000, 0x00000000, 0x00000000, 0x00000000, 0x00000000⟩, -- TRIAD_ECC_ADDR
  ⟨0x0A0030, 0x0, 1, 0x00000000, 0x00000000, 0x00000000, 0x00000000, 0x00000000, 0x00000000⟩, -- TRIAD_SCRUB
  ⟨0x0A0034, 0x0, 1, 0x00000000, 0x00000000, 0x00000000, 0x00000000, 0x00000000, 0x00000000⟩, -- TRIAD_CMD
  ⟨0x0A0038, 0x0, 1, 0x00000B00, 0x00000000, 0x00000000, 0x00000000, 0x00000000, 0x00000000⟩ -- TRIAD_RESULT
  ]

/-- The PAIR block (R504; Table PAIR-10; 13_pair_redundancy.md). -/
def rowsPAIR : List RegRow := [
  ⟨0x090000, 0x0, 1, 0x00000002, 0x00000003, 0x00000000, 0x00000000, 0x00000000, 0x00000000⟩, -- PAIR_CTRL
  ⟨0x090004, 0x0, 1, 0x800A51F4, 0xCFFFFFFF, 0x00000000, 0x00000000, 0x00000000, 0x00000000⟩, -- PAIR_CFG
  ⟨0x090008, 0x0, 1, 0x00000000, 0x00000000, 0x00000000, 0x00000000, 0x00000000, 0x00000000⟩, -- PAIR_STATE
  ⟨0x09000C, 0x0, 1, 0x00000000, 0x00000000, 0x00000000, 0x000003FF, 0x00000000, 0x00000000⟩, -- PAIR_EVENT
  ⟨0x090010, 0x0, 1, 0x00000000, 0x000003FF, 0x00000000, 0x00000000, 0x00000000, 0x00000000⟩, -- PAIR_IRQ_EN
  ⟨0x090014, 0x0, 1, 0x00000000, 0x00000000, 0x00000000, 0x00000000, 0x00000000, 0x0000FFFF⟩, -- PAIR_CLOSE_CALL
  ⟨0x090018, 0x0, 1, 0x00000000, 0x00000000, 0x00000000, 0x00000000, 0x00000000, 0x00000000⟩, -- PAIR_CMD
  ⟨0x09001C, 0x0, 1, 0x00000A00, 0x00000000, 0x00000000, 0x00000000, 0x00000000, 0x00000000⟩, -- PAIR_RESULT
  ⟨0x090020, 0x0, 1, 0x00000000, 0x00000000, 0x00000000, 0x00000000, 0x00000000, 0x00000000⟩, -- PAIR_LAG
  ⟨0x090024, 0x0, 1, 0x00000000, 0x00000000, 0x00000000, 0x00000000, 0x00000000, 0xFFFFFFFF⟩, -- PAIR_COUNTS
  ⟨0x090028, 0x0, 1, 0x00000000, 0x00000000, 0x00000000, 0x00000000, 0x00000000, 0xFFFFFFFF⟩, -- PAIR_HB_MISS
  ⟨0x09002C, 0x0, 1, 0x00000000, 0x00000000, 0x00000000, 0x00000000, 0x00000000, 0x00000000⟩, -- PAIR_MISMATCH
  ⟨0x090030, 0x0, 1, 0x00000000, 0x00000000, 0x00000000, 0x00000000, 0x00000000, 0x00000000⟩, -- PAIR_PEER
  ⟨0x090034, 0x0, 1, 0x00000000, 0x00000000, 0x00000000, 0x00000000, 0x00000000, 0x00000000⟩, -- PAIR_SYNC
  ⟨0x090038, 0x0, 1, 0x00000000, 0x00000000, 0x00000000, 0x00000000, 0x00000000, 0x00000000⟩, -- PAIR_DWELL
  ⟨0x09003C, 0x0, 1, 0x00000000, 0x00000000, 0x00000000, 0x00000000, 0x00000000, 0x00000000⟩, -- PAIR_TIDE_ALIGN
  ⟨0x090040, 0x0, 1, 0x00100000, 0xFFFFFFFF, 0x00000000, 0x00000000, 0x00000000, 0x00000000⟩, -- PAIR_TIDE_WIN
  ⟨0x090044, 0x0, 1, 0x00000A00, 0x00000000, 0x00000000, 0x00000000, 0x00000000, 0x00000000⟩, -- PAIR_LAST_CAUSE
  ⟨0x090048, 0x0, 1, 0x00000000, 0x00000000, 0x00000000, 0x00000000, 0x00000000, 0x0000FFFF⟩ -- PAIR_MISSED
  ]

/-- Part 1 of the NET block map. -/
def rowsNET1 : List RegRow := [
  ⟨0x0B0000, 0x0, 1, 0x00000000, 0xF000000F, 0x00000000, 0x00000000, 0x00000000, 0x00000000⟩, -- NET_CTRL
  ⟨0x0B0004, 0x0, 1, 0x00000000, 0x00000000, 0x00000000, 0x00000000, 0x00000000, 0x00000000⟩, -- NET_PORT_STATUS
  ⟨0x0B0008, 0x0, 1, 0x00000000, 0x00000000, 0x00000000, 0x000007FF, 0x00000000, 0x00000000⟩, -- NET_EVENT
  ⟨0x0B000C, 0x0, 1, 0x00000000, 0x000007FF, 0x00000000, 0x00000000, 0x00000000, 0x00000000⟩, -- NET_IRQ_EN
  ⟨0x0B0010, 0x0, 1, 0x00000000, 0x00000000, 0x00000000, 0x00000000, 0x00000000, 0x0000FFFF⟩, -- NET_CLOSE_CALL
  ⟨0x0B0014, 0x0, 1, 0x00000000, 0x00000000, 0x00000000, 0x00000000, 0x00000000, 0xFFFFFFFF⟩, -- NET_RED_COUNTS
  ⟨0x0B0020, 0x0, 1, 0x00000000, 0xFFFFFFFF, 0x00000000, 0x00000000, 0x00000000, 0x00000000⟩, -- NET_SVC_MAC_LO
  ⟨0x0B0024, 0x0, 1, 0x00000000, 0x0000FFFF, 0x00000000, 0x00000000, 0x00000000, 0x00000000⟩, -- NET_SVC_MAC_HI
  ⟨0x0B0028, 0x0, 1, 0x00000000, 0xFFFFFFFF, 0x00000000, 0x00000000, 0x00000000, 0x00000000⟩, -- NET_SVC_IP
  ⟨0x0B002C, 0x0, 1, 0x80000018, 0xFFFF003F, 0x00000000, 0x00000000, 0x00000000, 0x00000000⟩, -- NET_SVC_NET
  ⟨0x0B0030, 0x0, 1, Config.maintMacLo, 0x00000000, 0x00000000, 0x00000000, 0x00000000, 0x00000000⟩, -- NET_MAINT_MAC_LO
  ⟨0x0B0034, 0x0, 1, Config.maintMacHi, 0x00000000, 0x00000000, 0x00000000, 0x00000000, 0x00000000⟩, -- NET_MAINT_MAC_HI
  ⟨0x0B0040, 0x0, 1, 0x00414800, 0xFFCFFFF0, 0x00000000, 0x00000000, 0x00000000, 0x00000000⟩, -- PTP_CFG
  ⟨0x0B0044, 0x0, 1, 0x00002710, 0xFFFFFFFF, 0x00000000, 0x00000000, 0x00000000, 0x00000000⟩, -- PTP_JUMP
  ⟨0x0B0048, 0x0, 1, 0x00000000, 0x00000000, 0x00000000, 0x00000000, 0x00000000, 0x00000000⟩, -- PTP_STATE
  ⟨0x0B004C, 0x0, 1, 0x00000000, 0x00000000, 0x00000000, 0x00000000, 0x00000000, 0x00000000⟩, -- PTP_CMD
  ⟨0x0B0050, 0x0, 1, 0x00000000, 0x00000000, 0x00000000, 0x00000000, 0x00000000, 0x00000000⟩, -- PTP_OFFSET
  ⟨0x0B0054, 0x0, 1, 0x00000000, 0x00000000, 0x00000000, 0x00000000, 0x00000000, 0x00000000⟩, -- PTP_LINK_DELAY
  ⟨0x0B0058, 0x0, 1, 0x00000000, 0x00000000, 0x00000000, 0x00000000, 0x00000000, 0x00000000⟩, -- PTP_FREQ
  ⟨0x0B005C, 0x0, 1, 0x00000000, 0x00000000, 0x00000000, 0x00000000, 0x00000000, 0x00000000⟩, -- PTP_PENDING_STEP
  ⟨0x0B0060, 0x0, 1, 0x00000000, 0x00000000, 0x00000000, 0x00000000, 0x00000000, 0x00000000⟩, -- PTP_GM_LO
  ⟨0x0B0064, 0x0, 1, 0x00000000, 0x00000000, 0x00000000, 0x00000000, 0x00000000, 0x00000000⟩, -- PTP_GM_HI
  ⟨0x0B0068, 0x0, 1, 0x00000000, 0x00000000, 0x00000000, 0x00000000, 0x00000000, 0x00000000⟩, -- PTP_TIME_LO
  ⟨0x0B006C, 0x0, 1, 0x00000000, 0x00000000, 0x00000000, 0x00000000, 0x00000000, 0x00000000⟩, -- PTP_TIME_HI
  ⟨0x0B0070, 0x0, 1, 0x00000025, 0x00000000, 0x00000000, 0x00000000, 0x00000000, 0x00000000⟩, -- PTP_UTC_OFFSET
  ⟨0x0B0074, 0x0, 1, 0x00000000, 0x00000000, 0x00000000, 0x00000000, 0x00000000, 0xFFFFFFFF⟩, -- PTP_COUNTS
  ⟨0x0B0080, 0x0, 1, 0x00000000, 0x0000007F, 0x00000000, 0x00000000, 0x00000000, 0x00000000⟩, -- GSE_SEL
  ⟨0x0B0084, 0x0, 1, 0x00000000, 0x00000000, 0x00000000, 0x00000000, 0x00000000, 0x00000000⟩, -- GSE_CMD
  ⟨0x0B0088, 0x0, 1, 0x00000C00, 0x00000000, 0x00000000, 0x00000000, 0x00000000, 0x00000000⟩, -- GSE_RESULT
  ⟨0x0B0090, 0x0, 1, 0x00000000, 0x00000000, 0x00000000, 0x00000000, 0x00000000, 0x00000000⟩, -- GSE_VALID_LO
  ⟨0x0B0094, 0x0, 1, 0x00000000, 0x00000000, 0x00000000, 0x00000000, 0x00000000, 0x00000000⟩, -- GSE_VALID_HI
  ⟨0x0B0098, 0x0, 1, 0x00000000, 0x00000000, 0x00000000, 0x00000000, 0x00000000, 0x00000000⟩, -- GSE_PUB_RUN
  ⟨0x0B00C0, 0x4, 8, 0x00000000, 0xFFFFFFFF, 0x00000000, 0x00000000, 0x00000000, 0x00000000⟩, -- GSE_DATA
  ⟨0x0B0100, 0x0, 1, 0x00000000, 0x0000003F, 0x00000000, 0x00000000, 0x00000000, 0x00000000⟩, -- LNCH_SEL
  ⟨0x0B0104, 0x0, 1, 0x00000000, 0x00000000, 0x00000000, 0x00000000, 0x00000000, 0x00000000⟩, -- LNCH_CMD
  ⟨0x0B0108, 0x0, 1, 0x00000C00, 0x00000000, 0x00000000, 0x00000000, 0x00000000, 0x00000000⟩, -- LNCH_RESULT
  ⟨0x0B0110, 0x0, 1, 0x00000000, 0xFFFFFFFF, 0x00000000, 0x00000000, 0x00000000, 0x00000000⟩, -- LNCH_DATA0
  ⟨0x0B0114, 0x0, 1, 0x00000000, 0xFFFFFFFF, 0x00000000, 0x00000000, 0x00000000, 0x00000000⟩, -- LNCH_DATA1
  ⟨0x0B0118, 0x0, 1, 0x00000000, 0x00000000, 0x00000000, 0x00000000, 0x00000000, 0xFFFFFFFF⟩, -- LNCH_COUNTS
  ⟨0x0B0140, 0x0, 1, 0x00000000, 0x00000001, 0x00000000, 0x00000000, 0x00000000, 0x00000000⟩ -- RING_CTRL
  ]

/-- Part 2 of the NET block map. -/
def rowsNET2 : List RegRow := [
  ⟨0x0B0144, 0x0, 1, 0x07801E00, 0xFFFFFF00, 0x00000000, 0x00000000, 0x00000000, 0x00000000⟩, -- RING_CFG
  ⟨0x0B0148, 0x0, 1, 0x00000000, 0x00000000, 0x00000000, 0x00000000, 0x00000000, 0x00000000⟩, -- RING_STATE
  ⟨0x0B014C, 0x0, 1, 0x00000000, 0x00000000, 0x00000000, 0x00000000, 0x00000000, 0x00000000⟩, -- RING_RTT
  ⟨0x0B0150, 0x0, 1, 0x00000000, 0x00000000, 0x00000000, 0x00000000, 0x00000000, 0xFFFFFFFF⟩, -- RING_COUNTS
  ⟨0x0B0154, 0x0, 1, 0x00000000, 0x00000000, 0x00000000, 0x00000000, 0x00000000, 0x00000000⟩, -- RING_PRESENT_LO
  ⟨0x0B0158, 0x0, 1, 0x00000000, 0x00000000, 0x00000000, 0x00000000, 0x00000000, 0x00000000⟩, -- RING_PRESENT_HI
  ⟨0x0B0200, 0x8, 64, 0x00000000, 0xFFFFFFFF, 0x00000000, 0x00000000, 0x00000000, 0x00000000⟩, -- STNs_ID
  ⟨0x0B0204, 0x8, 64, 0x00000000, 0x00000000, 0x00000000, 0x00000000, 0x00000000, 0x00000000⟩ -- STNs_STATUS
  ]

/-- The NET block (R543; Table NET-9; 14_network_and_time.md). -/
def rowsNET : List RegRow := rowsNET1 ++ rowsNET2

/-- The CAN block (R563; Table CAN-4; 15_can_fd.md). -/
def rowsCAN : List RegRow := [
  ⟨0x0C0000, 0x0, 1, 0x00000000, 0x0000000F, 0x00000000, 0x00000000, 0x00000000, 0x00000000⟩, -- CAN_CTRL
  ⟨0x0C0004, 0x0, 1, 0x00000000, 0x00000000, 0x00000000, 0x0000007F, 0x00000000, 0x00000000⟩, -- CAN_EVENT
  ⟨0x0C0008, 0x0, 1, 0x00000000, 0x0000007F, 0x00000000, 0x00000000, 0x00000000, 0x00000000⟩, -- CAN_IRQ_EN
  ⟨0x0C000C, 0x0, 1, 0x00000000, 0x00000000, 0x00000000, 0x0000FFFF, 0x00000000, 0x00000000⟩, -- CAN_HP_EVENT
  ⟨0x0C0010, 0x0, 1, 0x00000000, 0x0000FFFF, 0x00000000, 0x00000000, 0x00000000, 0x00000000⟩, -- CAN_HP_IRQ_EN
  ⟨0x0C0014, 0x0, 1, 0x00000000, 0x00000000, 0x00000000, 0x00000000, 0x00000000, 0x0000FFFF⟩, -- CAN_CLOSE_CALL
  ⟨0x0C0018, 0x0, 1, 0x00000000, 0x00000000, 0x00000000, 0x00000000, 0x00000000, 0x00000000⟩, -- CAN_CMD
  ⟨0x0C001C, 0x0, 1, 0x00000D00, 0x00000000, 0x00000000, 0x00000000, 0x00000000, 0x00000000⟩, -- CAN_RESULT
  ⟨0x0C0100, 0x40, 4, 0x80000000, 0x00000000, 0xF8000000, 0x00000000, 0x00000000, 0x00000000⟩, -- CNc_CFG
  ⟨0x0C0104, 0x40, 4, 0x3E7E3E00, 0x00000000, 0xFFFFFE1F, 0x00000000, 0x00000000, 0x00000000⟩, -- CNc_NBT
  ⟨0x0C0108, 0x40, 4, 0x7F382020, 0x00000000, 0xFFFFE07F, 0x00000000, 0x00000000, 0x00000000⟩, -- CNc_DBT
  ⟨0x0C010C, 0x40, 4, 0x00000000, 0x00000000, 0x00000000, 0x00000000, 0x00000000, 0x00000000⟩, -- CNc_STATUS
  ⟨0x0C0110, 0x40, 4, 0x00000000, 0x00000000, 0x00000000, 0x00000000, 0x00000000, 0x00000000⟩, -- CNc_PENDING_LO
  ⟨0x0C0114, 0x40, 4, 0x00000000, 0x00000000, 0x00000000, 0x00000000, 0x00000000, 0x00000000⟩, -- CNc_PENDING_HI
  ⟨0x0C0118, 0x40, 4, 0x00000000, 0x00000000, 0x00000000, 0x00000000, 0x00000000, 0x00000000⟩, -- CNc_FULL_LO
  ⟨0x0C011C, 0x40, 4, 0x00000000, 0x00000000, 0x00000000, 0x00000000, 0x00000000, 0x00000000⟩, -- CNc_FULL_HI
  ⟨0x0C0120, 0x40, 4, 0x00000000, 0x00000000, 0x3FFFFFFF, 0x00000000, 0x00000000, 0x00000000⟩, -- CNc_QFILT
  ⟨0x0C0124, 0x40, 4, 0x00000000, 0x00000000, 0x3FFFFFFF, 0x00000000, 0x00000000, 0x00000000⟩, -- CNc_QMASK
  ⟨0x0C0128, 0x40, 4, 0x00000000, 0x00000000, 0x00000000, 0x00000000, 0x00000000, 0x00000000⟩, -- CNc_CLASH_LO
  ⟨0x0C012C, 0x40, 4, 0x00000000, 0x00000000, 0x00000000, 0x00000000, 0x00000000, 0x00000000⟩, -- CNc_CLASH_HI
  ⟨0x0C0130, 0x40, 4, 0x00000000, 0x00000000, 0x00000000, 0x00000000, 0x00000000, 0xFFFFFFFF⟩ -- CNc_RX_COUNTS
  ]

/-- The STRAND block (R597; Table STRAND-3; 16_strandline_and_clock.md). -/
def rowsSTRAND : List RegRow := [
  ⟨0x0D0000, 0x0, 1, 0x00000000, 0x00000003, 0x00000000, 0x00000000, 0x00000000, 0x00000000⟩, -- STR_CTRL
  ⟨0x0D0004, 0x0, 1, 0x00000000, 0x00000000, 0x00000000, 0x00000000, 0x00000000, 0x00000000⟩, -- STR_STATE
  ⟨0x0D0008, 0x0, 1, 0x00000000, 0x00000000, 0x00000000, 0x0000007F, 0x00000000, 0x00000000⟩, -- STR_EVENT
  ⟨0x0D000C, 0x0, 1, 0x00000000, 0x0000007F, 0x00000000, 0x00000000, 0x00000000, 0x00000000⟩, -- STR_IRQ_EN
  ⟨0x0D0010, 0x0, 1, 0x00000000, 0x00000000, 0x00000000, 0x00000000, 0x00000000, 0x0000FFFF⟩, -- STR_CLOSE_CALL
  ⟨0x0D0014, 0x0, 1, 0x00000000, 0x00000000, 0x00000000, 0x00000000, 0x00000000, 0x00000000⟩, -- STR_CMD
  ⟨0x0D0018, 0x0, 1, 0x00000E00, 0x00000000, 0x00000000, 0x00000000, 0x00000000, 0x00000000⟩, -- STR_RESULT
  ⟨0x0D001C, 0x0, 1, 0x0000000A, 0x000003FF, 0x00000000, 0x00000000, 0x00000000, 0x00000000⟩, -- STR_FREEZE_CFG
  ⟨0x0D0020, 0x0, 1, 0x00000000, 0x00000000, 0x00000000, 0x00000000, 0x00000000, 0x00000000⟩, -- STR_HEAD
  ⟨0x0D0024, 0x0, 1, 0x00000000, 0x00000000, 0x00000000, 0x00000000, 0x00000000, 0x00000000⟩, -- STR_SEQ
  ⟨0x0D0028, 0x0, 1, 0x00000000, 0x00000000, 0x00000000, 0x00000000, 0x00000000, 0x00000000⟩, -- STR_FROZEN_HEAD
  ⟨0x0D002C, 0x0, 1, 0x00000000, 0x00000000, 0x00000000, 0x00000000, 0x00000000, 0x00000000⟩, -- STR_FROZEN_SEQ
  ⟨0x0D0030, 0x0, 1, 0x00000000, 0x00000000, 0x00000000, 0x00000000, 0x00000000, 0xFFFFFFFF⟩, -- STR_COUNTS
  ⟨0x0D0034, 0x0, 1, 0x00000000, 0x00000000, 0x00000000, 0x00000000, 0x00000000, 0x0000FFFF⟩, -- STR_DRAIN_SKIP
  ⟨0x0D0038, 0x0, 1, 0x00000000, 0x00000000, 0x00000000, 0x00000000, 0x00000000, 0x0000FFFF⟩, -- STR_CRC_BAD
  ⟨0x0D003C, 0x0, 1, 0x00000000, 0x00000000, 0x00000000, 0x00000000, 0x00000000, 0x00000000⟩, -- STR_HOLD_USED
  ⟨0x0D0040, 0x0, 1, 0x00000000, 0x00000FFF, 0x00000000, 0x00000000, 0x00000000, 0x00000000⟩, -- STR_RL_SEL
  ⟨0x0D0044, 0x0, 1, 0x00000000, 0xFFFFFF80, 0x00000000, 0x00000000, 0x00000000, 0x00000000⟩, -- STR_RL_CFG
  ⟨0x0D0048, 0x0, 1, 0x00000000, 0x00000000, 0x00000000, 0x00000000, 0x00000000, 0x00000000⟩, -- STR_RL_STATE
  ⟨0x0D0050, 0x0, 1, 0x00000000, 0x003FFFFF, 0x00000000, 0x00000000, 0x00000000, 0x00000000⟩, -- STR_READ_IDX
  ⟨0x0D0060, 0x4, 8, 0x00000000, 0x00000000, 0x00000000, 0x00000000, 0x00000000, 0x00000000⟩, -- STR_REC
  ⟨0x0D0080, 0x0, 1, 0x00000000, 0x00000FFF, 0x00000000, 0x00000000, 0x00000000, 0x00000000⟩, -- STR_HOST_CODE
  ⟨0x0D0084, 0x0, 1, 0x00000000, 0xFFFFFFFF, 0x00000000, 0x00000000, 0x00000000, 0x00000000⟩, -- STR_HOST_DATUM_LO
  ⟨0x0D0088, 0x0, 1, 0x00000000, 0xFFFFFFFF, 0x00000000, 0x00000000, 0x00000000, 0x00000000⟩ -- STR_HOST_DATUM_HI
  ]

/-- The CLK block (R598; Table CLK-2; 16_strandline_and_clock.md). -/
def rowsCLK : List RegRow := [
  ⟨0x0E0000, 0x0, 1, 0x00000001, 0x00000001, 0x00000000, 0x00000000, 0x00000000, 0x00000000⟩, -- CLK_CTRL
  ⟨0x0E0004, 0x0, 1, 0x00000000, 0x00000000, 0x00000000, 0x80000000, 0x00000000, 0x00000000⟩, -- CLK_STATUS
  ⟨0x0E0008, 0x0, 1, 0x00000000, 0x00000000, 0x00000000, 0x0000001F, 0x00000000, 0x00000000⟩, -- CLK_EVENT
  ⟨0x0E000C, 0x0, 1, 0x00000000, 0x0000001F, 0x00000000, 0x00000000, 0x00000000, 0x00000000⟩, -- CLK_IRQ_EN
  ⟨0x0E0010, 0x0, 1, 0x00000000, 0x00000000, 0x00000000, 0x00000000, 0x00000000, 0x00000000⟩, -- CLK_COUNT_LO
  ⟨0x0E0014, 0x0, 1, 0x00000000, 0x00000000, 0x00000000, 0x00000000, 0x00000000, 0x00000000⟩, -- CLK_COUNT_HI
  ⟨0x0E0018, 0x0, 1, 0x00000000, 0xFFFFFFFF, 0x00000000, 0x00000000, 0x00000000, 0x00000000⟩, -- CLK_SET_LO
  ⟨0x0E001C, 0x0, 1, 0x00000000, 0x0000FFFF, 0x00000000, 0x00000000, 0x00000000, 0x00000000⟩, -- CLK_SET_HI
  ⟨0x0E0020, 0x0, 1, 0x00000000, 0xFFFFFFFF, 0x00000000, 0x00000000, 0x00000000, 0x00000000⟩, -- CLK_CAL_LO
  ⟨0x0E0024, 0x0, 1, 0x00000000, 0xFFFFFFFF, 0x00000000, 0x00000000, 0x00000000, 0x00000000⟩, -- CLK_CAL_HI
  ⟨0x0E0028, 0x0, 1, 0x00000000, 0x0000FFFF, 0x00000000, 0x00000000, 0x00000000, 0x00000000⟩, -- CLK_TRIM
  ⟨0x0E002C, 0x0, 1, 0x00000000, 0x00000000, 0x00000000, 0x00000000, 0x00000000, 0x00000000⟩, -- CLK_DRIFT
  ⟨0x0E0030, 0x0, 1, 0x00000000, 0x00000000, 0x00000000, 0x00000000, 0x00000000, 0x00000000⟩, -- CLK_CELL
  ⟨0x0E0034, 0x0, 1, 0x00000000, 0x00000000, 0x00000000, 0x00000000, 0x00000000, 0x00000000⟩, -- CLK_CMD
  ⟨0x0E0038, 0x0, 1, 0x00000F00, 0x00000000, 0x00000000, 0x00000000, 0x00000000, 0x00000000⟩, -- CLK_RESULT
  ⟨0x0E0040, 0x4, 16, 0x00000000, 0xFFFFFFFF, 0x00000000, 0x00000000, 0x00000000, 0x00000000⟩ -- CLK_BREG
  ]

/-- The MPU block (R633; Table MPU-5; 17_memory_protection_and_mailboxes.md). -/
def rowsMPU : List RegRow := [
  ⟨0x0F0000, 0x0, 1, 0x00000000, 0x00000000, 0x00000000, 0x00000000, 0x00000001, 0x00000000⟩, -- MPU_CTRL
  ⟨0x0F0004, 0x0, 1, 0x00000000, 0x00000000, 0x00000000, 0x00000000, 0x00000000, 0x00000000⟩, -- MPU_EPOCH
  ⟨0x0F0008, 0x0, 1, 0x00000000, 0x00000000, 0x00000000, 0x00000000, 0x00000000, 0x00000000⟩, -- MPU_CMD
  ⟨0x0F000C, 0x0, 1, 0x00001000, 0x00000000, 0x00000000, 0x00000000, 0x00000000, 0x00000000⟩, -- MPU_RESULT
  ⟨0x0F0010, 0x0, 1, 0x00000000, 0x00000000, 0x00000000, 0x00000007, 0x00000000, 0x00000000⟩, -- MPU_EVENT
  ⟨0x0F0014, 0x0, 1, 0x00000000, 0x00000007, 0x00000000, 0x00000000, 0x00000000, 0x00000000⟩, -- MPU_IRQ_EN
  ⟨0x0F0018, 0x0, 1, 0x00000000, 0x00000000, 0x80000F1F, 0x00000000, 0x00000000, 0x00000000⟩, -- MPU_STG_SEL
  ⟨0x0F001C, 0x0, 1, 0x00000000, 0x00000000, 0xFFFFFFFF, 0x00000000, 0x00000000, 0x00000000⟩, -- MPU_STG_W0
  ⟨0x0F0020, 0x0, 1, 0x00000000, 0x00000000, 0xFFFFFFFF, 0x00000000, 0x00000000, 0x00000000⟩, -- MPU_STG_W1
  ⟨0x0F0024, 0x0, 1, 0x00000000, 0x00000000, 0xFFFFFFFF, 0x00000000, 0x00000000, 0x00000000⟩, -- MPU_STG_W2
  ⟨0x0F0028, 0x0, 1, 0xFFFF0000, 0x00000000, 0xFFFF000F, 0x00000000, 0x00000000, 0x00000000⟩, -- MPU_STG_MCFG
  ⟨0x0F0030, 0x0, 1, 0x00000000, 0x00000000, 0x00000000, 0x00000000, 0x00000000, 0x00000000⟩, -- MPU_DENY_LO
  ⟨0x0F0034, 0x0, 1, 0x00000000, 0x00000000, 0x00000000, 0x00000000, 0x00000000, 0x00000000⟩, -- MPU_DENY_HI
  ⟨0x0F0040, 0x0, 1, 0x00000000, 0x00000000, 0x00000000, 0x00000000, 0x00000000, 0xFFFFFFFF⟩, -- MEM_ECC
  ⟨0x0F0044, 0x0, 1, 0x00000000, 0x00000000, 0x00000000, 0x00000000, 0x00000000, 0x00000000⟩, -- MEM_ECC_ADDR_LO
  ⟨0x0F0048, 0x0, 1, 0x00000000, 0x00000000, 0x00000000, 0x00000000, 0x00000000, 0x00000000⟩, -- MEM_ECC_ADDR_HI
  ⟨0x0F004C, 0x0, 1, 0x00000000, 0x00000000, 0x00000000, 0x00000000, 0x00000000, 0x00000000⟩, -- MEM_SCRUB
  ⟨0x0F0100, 0x4, 10, 0x00000000, 0x00000000, 0x00000000, 0x00000000, 0x00000000, 0x0000FFFF⟩ -- MPU_DENY_COUNTm
  ]

/-- The MBX block (R634; Table MBX-1; 17_memory_protection_and_mailboxes.md). -/
def rowsMBX : List RegRow := [
  ⟨0x100000, 0x0, 1, 0x00000000, 0x00000000, 0x00000000, 0x00000000, 0x00000001, 0x00000000⟩, -- MBX_CTRL
  ⟨0x100004, 0x0, 1, 0x00000000, 0x00000000, 0x00000000, 0x00FFFFFF, 0x00000000, 0x00000000⟩, -- MBX_EV_DBL
  ⟨0x100008, 0x0, 1, 0x00000000, 0x00000000, 0x00000000, 0x00FFFFFF, 0x00000000, 0x00000000⟩, -- MBX_EV_ACK
  ⟨0x10000C, 0x0, 1, 0x00000000, 0x00000000, 0x00000000, 0x00FFFFFF, 0x00000000, 0x00000000⟩, -- MBX_EV_RX
  ⟨0x100010, 0x0, 1, 0x00000000, 0x00FFFFFF, 0x00000000, 0x00000000, 0x00000000, 0x00000000⟩, -- MBX_IRQ_EN_DBL
  ⟨0x100014, 0x0, 1, 0x00000000, 0x00FFFFFF, 0x00000000, 0x00000000, 0x00000000, 0x00000000⟩, -- MBX_IRQ_EN_ACK
  ⟨0x100018, 0x0, 1, 0x00000000, 0x00FFFFFF, 0x00000000, 0x00000000, 0x00000000, 0x00000000⟩, -- MBX_IRQ_EN_RX
  ⟨0x100020, 0x0, 1, 0x00000000, 0x00000000, 0x00000000, 0x00000000, 0x00000000, 0x00000000⟩, -- MBX_LOCK_HELD_LO
  ⟨0x100024, 0x0, 1, 0x00000000, 0x00000000, 0x00000000, 0x00000000, 0x00000000, 0x00000000⟩, -- MBX_LOCK_HELD_HI
  ⟨0x100028, 0x0, 1, 0x00000000, 0x00000000, 0x00000000, 0x00000000, 0x00000000, 0x00000000⟩, -- MBX_LOCK_FORCE_LO
  ⟨0x10002C, 0x0, 1, 0x00000000, 0x00000000, 0x00000000, 0x00000000, 0x00000000, 0x00000000⟩, -- MBX_LOCK_FORCE_HI
  ⟨0x100040, 0x4, 8, 0xFFFFFFFF, 0x00000000, 0x00000000, 0x00000000, 0x00000000, 0x00000000⟩, -- MBX_LOCK_OWNER
  ⟨0x100100, 0x20, 24, 0x00000000, 0x00000000, 0x80FFFFFF, 0x00000000, 0x00000000, 0x00000000⟩, -- MBXm_BIND
  ⟨0x100104, 0x20, 24, 0x00000000, 0x00000000, 0x00000000, 0x00000000, 0x00000000, 0x00000000⟩, -- MBXm_SEND
  ⟨0x100108, 0x20, 24, 0x00000000, 0x00000000, 0x00000000, 0x00000000, 0x00000000, 0xFFFFFFFF⟩, -- MBXm_RECV
  ⟨0x10010C, 0x20, 24, 0x00000000, 0x00000000, 0x00000000, 0x00000000, 0xFFFFFFFF, 0x00000000⟩, -- MBXm_DBL
  ⟨0x100110, 0x20, 24, 0x00000000, 0x0000FFFF, 0x00000000, 0x00000000, 0x00000000, 0x00000000⟩, -- MBXm_ACK
  ⟨0x100114, 0x20, 24, 0x00000000, 0x00000000, 0x00000000, 0x00000000, 0x00000000, 0x00000000⟩, -- MBXm_STATUS
  ⟨0x100800, 0x4, 64, 0x00000000, 0x00000000, 0x00000000, 0x00000000, 0x00000000, 0x00000000⟩ -- MBX_LOCK
  ]

/-- The QUE block (R635; Table QUE-3; 17_memory_protection_and_mailboxes.md). -/
def rowsQUE : List RegRow := [
  ⟨0x130000, 0x0, 1, 0x00000000, 0xFFFFFFFF, 0x00000000, 0x00000000, 0x00000000, 0x00000000⟩, -- QUE_EN_LO
  ⟨0x130004, 0x0, 1, 0x00000000, 0xFFFFFFFF, 0x00000000, 0x00000000, 0x00000000, 0x00000000⟩, -- QUE_EN_HI
  ⟨0x130008, 0x0, 1, 0x00000000, 0x00000000, 0x00000000, 0xFFFFFFFF, 0x00000000, 0x00000000⟩, -- QUE_EV_LO
  ⟨0x13000C, 0x0, 1, 0x00000000, 0x00000000, 0x00000000, 0xFFFFFFFF, 0x00000000, 0x00000000⟩, -- QUE_EV_HI
  ⟨0x130010, 0x0, 1, 0x00000000, 0xFFFFFFFF, 0x00000000, 0x00000000, 0x00000000, 0x00000000⟩, -- QUE_IRQ_EN_LO
  ⟨0x130014, 0x0, 1, 0x00000000, 0xFFFFFFFF, 0x00000000, 0x00000000, 0x00000000, 0x00000000⟩, -- QUE_IRQ_EN_HI
  ⟨0x130100, 0x20, 64, 0x00000000, 0x00000000, 0xFFFFFFC0, 0x00000000, 0x00000000, 0x00000000⟩, -- QUEq_BASE_LO
  ⟨0x130104, 0x20, 64, 0x00000000, 0x00000000, 0x0000000F, 0x00000000, 0x00000000, 0x00000000⟩, -- QUEq_BASE_HI
  ⟨0x130108, 0x20, 64, 0x00080B01, 0x00000000, 0x000F0FFF, 0x00000000, 0x00000000, 0x00000000⟩, -- QUEq_CFG
  ⟨0x13010C, 0x20, 64, 0x00000000, 0x0000FFFF, 0x00000000, 0x00000000, 0x00000000, 0x00000000⟩, -- QUEq_HEAD
  ⟨0x130110, 0x20, 64, 0x00000000, 0x0000FFFF, 0x00000000, 0x00000000, 0x00000000, 0x00000000⟩, -- QUEq_TAIL
  ⟨0x130114, 0x20, 64, 0x00000000, 0x00000000, 0x00000000, 0x00000000, 0x00000000, 0xFFFFFFFF⟩, -- QUEq_COUNTS
  ⟨0x130118, 0x20, 64, 0x00000000, 0x00000000, 0x00000000, 0x00000000, 0x00000000, 0x00000000⟩ -- QUEq_STATUS
  ]

/-- The LCY block (R664; Table LCY-7; 18_lifecycle_debug_and_update.md). -/
def rowsLCY : List RegRow := [
  ⟨0x110000, 0x0, 1, 0x00000000, 0x00000000, 0x00000000, 0x00000000, 0x00000000, 0x00000000⟩, -- LCY_STATE
  ⟨0x110004, 0x0, 1, 0x00000000, 0x00000000, 0x00000000, 0x00000000, 0x00000000, 0x00000000⟩, -- LCY_CMD
  ⟨0x110008, 0x0, 1, 0x00001200, 0x00000000, 0x00000000, 0x00000000, 0x00000000, 0x00000000⟩, -- LCY_RESULT
  ⟨0x11000C, 0x0, 1, 0x00000000, 0x00000000, 0x00000000, 0x0000000F, 0x00000000, 0x00000000⟩, -- LCY_EVENT
  ⟨0x110010, 0x0, 1, 0x00000000, 0x0000000F, 0x00000000, 0x00000000, 0x00000000, 0x00000000⟩, -- LCY_IRQ_EN
  ⟨0x110014, 0x0, 1, 0x00000000, 0x00000000, 0x00000000, 0x00000000, 0x00000000, 0x0000FFFF⟩, -- LCY_CLOSE_CALL
  ⟨0x110018, 0x0, 1, Config.uidLo, 0x00000000, 0x00000000, 0x00000000, 0x00000000, 0x00000000⟩, -- LCY_UID_LO
  ⟨0x11001C, 0x0, 1, Config.uidHi, 0x00000000, 0x00000000, 0x00000000, 0x00000000, 0x00000000⟩, -- LCY_UID_HI
  ⟨0x110020, 0x0, 1, 0x00000000, 0x00000000, 0x00000000, 0x00000000, 0x00000000, 0x00000000⟩, -- LCY_NONCE_LO
  ⟨0x110024, 0x0, 1, 0x00000000, 0x00000000, 0x00000000, 0x00000000, 0x00000000, 0x00000000⟩, -- LCY_NONCE_HI
  ⟨0x110028, 0x0, 1, 0x00000000, 0x00000000, 0x00000000, 0x00000000, 0x00000000, 0x00000000⟩, -- LCY_DBG_TOKEN
  ⟨0x11002C, 0x0, 1, 0x00000258, 0x80000FFF, 0x00000000, 0x00000000, 0x00000000, 0x00000000⟩, -- LCY_DBG_CFG
  ⟨0x110030, 0x0, 1, 0x00000000, 0x00000000, 0x00000000, 0x20000000, 0x00000000, 0x00000000⟩, -- LCY_DBG_STATUS
  ⟨0x110034, 0x0, 1, 0x00000000, 0x00000000, 0x00000000, 0x00000000, 0x00000000, 0x00000000⟩, -- LCY_DBG_DENY_LO
  ⟨0x110038, 0x0, 1, 0x00000000, 0x00000000, 0x00000000, 0x00000000, 0x00000000, 0x00000000⟩, -- LCY_DBG_DENY_HI
  ⟨0x11003C, 0x0, 1, Config.idcode, 0x00000000, 0x00000000, 0x00000000, 0x00000000, 0x00000000⟩, -- LCY_IDCODE
  ⟨0x110040, 0x0, 1, 0x00000000, 0x00000000, 0x00000000, 0x00000000, 0x00000000, 0x00000000⟩ -- LCY_ERASE
  ]

/-- The FWU block (R665; Table FWU-3; 18_lifecycle_debug_and_update.md). -/
def rowsFWU : List RegRow := [
  ⟨0x120000, 0x0, 1, 0x00000000, 0x00000000, 0x00000000, 0x00000000, 0x00000000, 0x00000000⟩, -- FWU_STATE
  ⟨0x120004, 0x0, 1, 0x00000000, 0x00000000, 0x00000000, 0x00000000, 0x00000000, 0x00000000⟩, -- FWU_CMD
  ⟨0x120008, 0x0, 1, 0x00001300, 0x00000000, 0x00000000, 0x00000000, 0x00000000, 0x00000000⟩, -- FWU_RESULT
  ⟨0x12000C, 0x0, 1, 0x00000000, 0x00000000, 0x00000000, 0x0000000F, 0x00000000, 0x00000000⟩, -- FWU_EVENT
  ⟨0x120010, 0x0, 1, 0x00000000, 0x0000000F, 0x00000000, 0x00000000, 0x00000000, 0x00000000⟩, -- FWU_IRQ_EN
  ⟨0x120014, 0x0, 1, 0x00000000, 0x00000000, 0x00000000, 0x00000000, 0x00000000, 0x0000FFFF⟩, -- FWU_CLOSE_CALL
  ⟨0x120018, 0x0, 1, 0x00000258, 0x0001FFFF, 0x00000000, 0x00000000, 0x00000000, 0x00000000⟩, -- FWU_CFG
  ⟨0x12001C, 0x0, 1, 0x00000000, 0x00000000, 0x00000000, 0x00000000, 0x00000000, 0x00000000⟩, -- FWU_TRIAL_LEFT
  ⟨0x120020, 0x0, 1, 0x00000000, 0x00000000, 0x00000000, 0x00000000, 0x00000000, 0x00000000⟩, -- FWU_VER_RUN
  ⟨0x120024, 0x0, 1, 0x00000000, 0x00000000, 0x00000000, 0x00000000, 0x00000000, 0x00000000⟩, -- FWU_VER_OTHER
  ⟨0x120028, 0x0, 1, 0x00000000, 0x00000000, 0x00000000, 0x00000000, 0x00000000, 0x00000000⟩, -- FWU_CFG_FORMAT
  ⟨0x12002C, 0x0, 1, 0x00000000, 0x00000000, 0x00000000, 0x00000000, 0x00000000, 0x00000000⟩, -- FWU_PAUSE
  ⟨0x120030, 0x0, 1, 0x00000000, 0x00000000, 0x00000000, 0x00000000, 0x00000000, 0xFFFFFFFF⟩ -- FWU_COUNTS
  ]

/-- The MOD block (R685; Table MOD-1; 19_power_states_and_startup.md). -/
def rowsMOD : List RegRow := [
  ⟨0x000000, 0x0, 1, Config.modId, 0x00000000, 0x00000000, 0x00000000, 0x00000000, 0x00000000⟩, -- MOD_ID
  ⟨0x000004, 0x0, 1, 0x00000000, 0x00000000, 0x00000000, 0x00000000, 0x00000000, 0x00000000⟩, -- MOD_STATUS
  ⟨0x000008, 0x0, 1, 0x00000000, 0x00000000, 0x00000000, 0x00000000, 0x00000000, 0x00000000⟩, -- MOD_RESET_CAUSE
  ⟨0x00000C, 0x0, 1, 0x00000000, 0x00000000, 0x00000000, 0x00000000, 0x00000000, 0x00000000⟩, -- MOD_FEED
  ⟨0x000010, 0x0, 1, 0x00000000, 0x00000000, 0x00000000, 0x00000000, 0x00000000, 0x00000000⟩, -- MOD_TEMP
  ⟨0x000014, 0x0, 1, 0x00000000, 0x00000000, 0x00000000, 0x00000007, 0x00000000, 0x00000000⟩, -- MOD_EVENT
  ⟨0x000018, 0x0, 1, 0x00000000, 0x00000007, 0x00000000, 0x00000000, 0x00000000, 0x00000000⟩, -- MOD_IRQ_EN
  ⟨0x00001C, 0x0, 1, 0x00000000, 0x00000000, 0x00000000, 0x00000000, 0x00000000, 0x0000FFFF⟩ -- MOD_CLOSE_CALL
  ]

/-- The SUP block (R686; Table SUP-8; 19_power_states_and_startup.md). -/
def rowsSUP : List RegRow := [
  ⟨0x010000, 0x0, 1, 0x00000000, 0x00000000, 0x00000000, 0x00000000, 0x00000000, 0x00000000⟩, -- SUP_PWR_CMD
  ⟨0x010004, 0x0, 1, 0x11000200, 0x00000000, 0x00000000, 0x00000000, 0x00000000, 0x00000000⟩, -- SUP_PWR_STATE
  ⟨0x010008, 0x0, 1, 0x00000000, 0x00000000, 0x00000000, 0x00000000, 0x00000000, 0x00000000⟩, -- SUP_CMD
  ⟨0x01000C, 0x0, 1, 0x00000200, 0x00000000, 0x00000000, 0x00000000, 0x00000000, 0x00000000⟩, -- SUP_RESULT
  ⟨0x010010, 0x0, 1, 0x00000000, 0x00000000, 0x00000000, 0x00000000, 0x00000000, 0x00000000⟩, -- SUP_REGIONS
  ⟨0x010014, 0x0, 1, 0x00000000, 0x00000000, 0x00000000, 0x0000000F, 0x00000000, 0x00000000⟩, -- SUP_EVENT
  ⟨0x010018, 0x0, 1, 0x00000000, 0x0000000F, 0x00000000, 0x00000000, 0x00000000, 0x00000000⟩ -- SUP_IRQ_EN
  ]

/-- The block map of the 64 KiB block that holds `a` (Table ARCH-9); none in the unassigned range (R52) and the windows. -/
def blockRows (a : Nat) : List RegRow :=
  match a / 0x10000 with
  | 0 => rowsMOD
  | 1 => rowsSUP
  | 2 => rowsTIDE
  | 3 => rowsEXE
  | 4 => rowsLOOP
  | 5 => rowsDIO
  | 6 => rowsANA
  | 7 => rowsRFX
  | 8 => rowsSAF
  | 9 => rowsPAIR
  | 10 => rowsTRIAD
  | 11 => rowsNET
  | 12 => rowsCAN
  | 13 => rowsSTRAND
  | 14 => rowsCLK
  | 15 => rowsMPU
  | 16 => rowsMBX
  | 17 => rowsLCY
  | 18 => rowsFWU
  | 19 => rowsQUE
  | _ => []

/-- The row of the register at `a`; none where the block map lists nothing (R8). -/
def regRow (a : Nat) : Option RegRow := (blockRows a).find? (fun r => r.has a)

/-- The reset value of the register at `a`; an offset the block map does not list reads as zero (R8). -/
def regReset (a : Nat) : Word := ((regRow a).map RegRow.reset).getD 0

/-- A field of a register: the register's address, the field's lowest bit and its width. -/
structure RegField where
  addr : Nat
  lo : Nat
  width : Nat
  deriving DecidableEq, Repr

end Sys2Proof.Machine

/-! Register addresses, under the manual's names; of a family, as a function of its index, which
stays inside the family. -/
namespace Sys2Proof.Machine.Reg

abbrev TIDE_CTRL : Nat := 0x020000
abbrev TIDE_LOCK : Nat := 0x020004
abbrev TIDE_STATE : Nat := 0x020008
abbrev TIDE_EVENT : Nat := 0x02000C
abbrev TIDE_IRQ_EN : Nat := 0x020010
abbrev TIDE_CLOSE_CALL : Nat := 0x020014
abbrev TDn_CFG (i : Nat) : Nat := 0x020100 + 0x40 * (i % 8)
abbrev TDn_SCALE (i : Nat) : Nat := 0x020104 + 0x40 * (i % 8)
abbrev TDn_OFFSET (i : Nat) : Nat := 0x020108 + 0x40 * (i % 8)
abbrev TDn_WINDOWS (i : Nat) : Nat := 0x02010C + 0x40 * (i % 8)
abbrev TDn_HOLDLIM (i : Nat) : Nat := 0x020110 + 0x40 * (i % 8)
abbrev TDn_STATUS (i : Nat) : Nat := 0x020114 + 0x40 * (i % 8)
abbrev TDn_ANGLE (i : Nat) : Nat := 0x020118 + 0x40 * (i % 8)
abbrev TDn_TURN (i : Nat) : Nat := 0x02011C + 0x40 * (i % 8)
abbrev TDn_FREQ_LO (i : Nat) : Nat := 0x020120 + 0x40 * (i % 8)
abbrev TDn_FREQ_HI (i : Nat) : Nat := 0x020124 + 0x40 * (i % 8)
abbrev TDn_PHASE_ERR (i : Nat) : Nat := 0x020128 + 0x40 * (i % 8)
abbrev TDn_COUNTS (i : Nat) : Nat := 0x02012C + 0x40 * (i % 8)
abbrev TDn_HOLD_TIME (i : Nat) : Nat := 0x020130 + 0x40 * (i % 8)
abbrev TDn_AMPL (i : Nat) : Nat := 0x020134 + 0x40 * (i % 8)
abbrev TT_CTRL : Nat := 0x021000
abbrev TT_PARTITION : Nat := 0x021004
abbrev TT_SEL : Nat := 0x021008
abbrev TT_CMD : Nat := 0x02100C
abbrev TT_RESULT : Nat := 0x021010
abbrev TT_CLAIM : Nat := 0x021014
abbrev TT_EVENT : Nat := 0x021018
abbrev TT_IRQ_EN : Nat := 0x02101C
abbrev TT_LATE_COUNT : Nat := 0x021020
abbrev TT_OVERSPEED : Nat := 0x021024
abbrev TT_CAL_STATUS : Nat := 0x021028
abbrev TT_MERGED : Nat := 0x02102C
abbrev TT_DATA (i : Nat) : Nat := 0x021040 + 0x4 * (i % 8)
abbrev SQ_RUN : Nat := 0x022000
abbrev SQ_DONE_EV : Nat := 0x022004
abbrev SQ_FAULT_EV : Nat := 0x022008
abbrev SQ_DONE_IRQ_EN : Nat := 0x02200C
abbrev SQ_FAULT_IRQ_EN : Nat := 0x022010
abbrev SQ_CLOSE_CALL : Nat := 0x022014
abbrev SQs_CMD (i : Nat) : Nat := 0x022100 + 0x20 * (i % 32)
abbrev SQs_STATE (i : Nat) : Nat := 0x022104 + 0x20 * (i % 32)
abbrev SQs_ELAPSED (i : Nat) : Nat := 0x022108 + 0x20 * (i % 32)
abbrev SQs_SIGNAL (i : Nat) : Nat := 0x02210C + 0x20 * (i % 32)
abbrev SQs_DROPPED (i : Nat) : Nat := 0x022110 + 0x20 * (i % 32)
abbrev EXE_CTRL : Nat := 0x030000
abbrev EXE_CFG : Nat := 0x030004
abbrev EXE_STATE : Nat := 0x030008
abbrev EXE_EVENT : Nat := 0x03000C
abbrev EXE_IRQ_EN : Nat := 0x030010
abbrev EXE_CLOSE_CALL : Nat := 0x030014
abbrev EXE_OVERRUN : Nat := 0x030018
abbrev EXE_CHANGE_CMD : Nat := 0x030020
abbrev EXE_CHANGE_STATUS : Nat := 0x030024
abbrev EXE_VALUES_LEN : Nat := 0x030028
abbrev EXE_CHANGE_DROPS : Nat := 0x03002C
abbrev EXE_IMAGE_GEN : Nat := 0x030030
abbrev EXE_IMAGE_CRC : Nat := 0x030034
abbrev EXE_FORCE_TAG : Nat := 0x030040
abbrev EXE_FORCE_VAL_LO : Nat := 0x030044
abbrev EXE_FORCE_VAL_HI : Nat := 0x030048
abbrev EXE_FORCE_CMD : Nat := 0x03004C
abbrev EXE_FORCE_RESULT : Nat := 0x030050
abbrev EXE_FORCE_COUNT : Nat := 0x030054
abbrev EXE_SLACK : Nat := 0x030060
abbrev EXE_SLACK_MISS : Nat := 0x030064
abbrev EXE_EVT_SIGNAL : Nat := 0x030070
abbrev EXE_STALE_LO : Nat := 0x030080
abbrev EXE_STALE_HI : Nat := 0x030084
abbrev EXE_INVALID_LO : Nat := 0x030088
abbrev EXE_INVALID_HI : Nat := 0x03008C
abbrev EXE_STATION_LATE : Nat := 0x030090
abbrev EXE_TAG_DENIED : Nat := 0x030094
abbrev TASKt_CFG (i : Nat) : Nat := 0x030100 + 0x20 * (i % 24)
abbrev TASKt_ANGLE (i : Nat) : Nat := 0x030104 + 0x20 * (i % 24)
abbrev TASKt_STEP (i : Nat) : Nat := 0x030108 + 0x20 * (i % 24)
abbrev TASKt_WDOG (i : Nat) : Nat := 0x03010C + 0x20 * (i % 24)
abbrev TASKt_STATUS (i : Nat) : Nat := 0x030110 + 0x20 * (i % 24)
abbrev TASKt_EXEC (i : Nat) : Nat := 0x030114 + 0x20 * (i % 24)
abbrev TASKt_EXEC_MAX (i : Nat) : Nat := 0x030118 + 0x20 * (i % 24)
abbrev TASKt_COUNTS (i : Nat) : Nat := 0x03011C + 0x20 * (i % 24)
abbrev LOOP_CTRL : Nat := 0x040000
abbrev LOOP_FRAME : Nat := 0x040004
abbrev LOOP_FRAME_ANGLE : Nat := 0x040008
abbrev LOOP_FRAME_STEP : Nat := 0x04000C
abbrev LOOP_STATUS : Nat := 0x040010
abbrev LOOP_FRAME_LAST : Nat := 0x040014
abbrev LOOP_EVENT : Nat := 0x040018
abbrev LOOP_IRQ_EN : Nat := 0x04001C
abbrev LOOP_CLOSE_CALL : Nat := 0x040020
abbrev LOOP_EVT_COUNTS : Nat := 0x040024
abbrev LOOP_MIRROR_ERR : Nat := 0x040028
abbrev LOOP_LOAD : Nat := 0x04002C
abbrev LOOP_SEL : Nat := 0x040030
abbrev LOOP_ARG : Nat := 0x040034
abbrev LOOP_VAL : Nat := 0x040038
abbrev LOOP_CMD : Nat := 0x04003C
abbrev LOOP_RESULT : Nat := 0x040040
abbrev LOOP_SLOT_STATE : Nat := 0x040044
abbrev LOOP_DESC (i : Nat) : Nat := 0x040060 + 0x4 * (i % 8)
abbrev LOOP_BANK_ISO (i : Nat) : Nat := 0x040100 + 0x4 * (i % 4)
abbrev LOOP_BANK_REEN : Nat := 0x040110
abbrev TRACE_CMD : Nat := 0x040120
abbrev TRBb_CFG (i : Nat) : Nat := 0x040200 + 0x10 * (i % 32)
abbrev TRBb_TRIG (i : Nat) : Nat := 0x040204 + 0x10 * (i % 32)
abbrev TRBb_POST (i : Nat) : Nat := 0x040208 + 0x10 * (i % 32)
abbrev TRBb_STATUS (i : Nat) : Nat := 0x04020C + 0x10 * (i % 32)
abbrev LOOP_FB_MAP (i : Nat) : Nat := 0x040400 + 0x4 * (i % 64)
abbrev DIO_IN : Nat := 0x050000
abbrev DIO_OUT : Nat := 0x050004
abbrev DIO_INVALID : Nat := 0x050008
abbrev DIO_SRC (i : Nat) : Nat := 0x050010 + 0x4 * (i % 4)
abbrev DIO_EVENT : Nat := 0x050020
abbrev DIO_IRQ_EN : Nat := 0x050024
abbrev DIO_CLOSE_CALL : Nat := 0x050028
abbrev DIO_REARM : Nat := 0x05002C
abbrev DIO_BANK_CMD : Nat := 0x050030
abbrev DIO_BANK_RESULT : Nat := 0x050034
abbrev DIO_BANKk_CFG (i : Nat) : Nat := 0x050040 + 0x10 * (i % 4)
abbrev DIO_BANKk_STATUS (i : Nat) : Nat := 0x050044 + 0x10 * (i % 4)
abbrev DIO_BANKk_VOLT (i : Nat) : Nat := 0x050048 + 0x10 * (i % 4)
abbrev DIO_BANKk_COUNTS (i : Nat) : Nat := 0x05004C + 0x10 * (i % 4)
abbrev DIOn_CFG (i : Nat) : Nat := 0x050100 + 0x8 * (i % 32)
abbrev DIOn_STATUS (i : Nat) : Nat := 0x050104 + 0x8 * (i % 32)
abbrev RFX_CTRL : Nat := 0x070000
abbrev RFX_SEL : Nat := 0x070004
abbrev RFX_CMD : Nat := 0x070008
abbrev RFX_RESULT : Nat := 0x07000C
abbrev RFX_OUT_LO : Nat := 0x070010
abbrev RFX_OUT_HI : Nat := 0x070014
abbrev RFX_ARMED_LO : Nat := 0x070018
abbrev RFX_ARMED_HI : Nat := 0x07001C
abbrev RFX_FIRED_LO : Nat := 0x070020
abbrev RFX_FIRED_HI : Nat := 0x070024
abbrev RFX_EVENT : Nat := 0x070028
abbrev RFX_IRQ_EN : Nat := 0x07002C
abbrev RFX_CRC : Nat := 0x070030
abbrev RFX_DATA (i : Nat) : Nat := 0x070040 + 0x4 * (i % 16)
abbrev ANA_ENABLE : Nat := 0x060000
abbrev ANA_LOCK : Nat := 0x060004
abbrev ANA_INVALID : Nat := 0x060008
abbrev ANA_COMPLIANCE : Nat := 0x06000C
abbrev ANA_EVENT : Nat := 0x060010
abbrev ANA_IRQ_EN : Nat := 0x060014
abbrev ANA_CLOSE_CALL : Nat := 0x060018
abbrev ANA_BANK_STATUS : Nat := 0x06001C
abbrev ANA_BANK_CMD : Nat := 0x060020
abbrev ANA_BANK_RESULT : Nat := 0x060024
abbrev ANA_HART_SEL : Nat := 0x060030
abbrev ANA_HART_CMD : Nat := 0x060034
abbrev ANA_HART_RESULT : Nat := 0x060038
abbrev ANA_HART_DATA (i : Nat) : Nat := 0x060040 + 0x4 * (i % 16)
abbrev ANn_CFG (i : Nat) : Nat := 0x060100 + 0x80 * (i % 16)
abbrev ANn_RANGE_LO (i : Nat) : Nat := 0x060104 + 0x80 * (i % 16)
abbrev ANn_RANGE_HI (i : Nat) : Nat := 0x060108 + 0x80 * (i % 16)
abbrev ANn_EU_LO (i : Nat) : Nat := 0x06010C + 0x80 * (i % 16)
abbrev ANn_EU_HI (i : Nat) : Nat := 0x060110 + 0x80 * (i % 16)
abbrev ANn_TRIM_GAIN (i : Nat) : Nat := 0x060114 + 0x80 * (i % 16)
abbrev ANn_TRIM_OFF (i : Nat) : Nat := 0x060118 + 0x80 * (i % 16)
abbrev ANn_SQRT_CUT (i : Nat) : Nat := 0x06011C + 0x80 * (i % 16)
abbrev ANn_VALUE (i : Nat) : Nat := 0x060120 + 0x80 * (i % 16)
abbrev ANn_MEAS (i : Nat) : Nat := 0x060124 + 0x80 * (i % 16)
abbrev ANn_STATUS (i : Nat) : Nat := 0x060128 + 0x80 * (i % 16)
abbrev ANn_HEADROOM (i : Nat) : Nat := 0x06012C + 0x80 * (i % 16)
abbrev ANn_RES (i : Nat) : Nat := 0x060130 + 0x80 * (i % 16)
abbrev ANn_HART_CFG (i : Nat) : Nat := 0x060134 + 0x80 * (i % 16)
abbrev ANn_HART_STATUS (i : Nat) : Nat := 0x060138 + 0x80 * (i % 16)
abbrev ANn_COUNTS (i : Nat) : Nat := 0x06013C + 0x80 * (i % 16)
abbrev ANn_HART_TAG01 (i : Nat) : Nat := 0x060140 + 0x80 * (i % 16)
abbrev ANn_HART_TAG23 (i : Nat) : Nat := 0x060144 + 0x80 * (i % 16)
abbrev ANn_STAMP_LO (i : Nat) : Nat := 0x060148 + 0x80 * (i % 16)
abbrev ANn_STAMP_HI (i : Nat) : Nat := 0x06014C + 0x80 * (i % 16)
abbrev ANn_HART_POLL (i : Nat) : Nat := 0x060150 + 0x80 * (i % 16)
abbrev SAF_STATE : Nat := 0x080000
abbrev SAF_CFG : Nat := 0x080004
abbrev SAF_CFG_CRC : Nat := 0x080008
abbrev SAF_EVENT : Nat := 0x08000C
abbrev SAF_CLOSE_CALL : Nat := 0x080010
abbrev SAF_LAST_STATUS : Nat := 0x080014
abbrev SAF_CYCLES : Nat := 0x080018
abbrev SAF_SX_REQ_LO : Nat := 0x080020
abbrev SAF_SX_REQ_HI : Nat := 0x080024
abbrev SAF_SX_RSP_LO : Nat := 0x080028
abbrev SAF_SX_RSP_HI : Nat := 0x08002C
abbrev SAF_BW_STATUS : Nat := 0x080030
abbrev SAF_TP_STATUS : Nat := 0x080034
abbrev SAF_BANK_STATUS : Nat := 0x080038
abbrev SQn_CFG (i : Nat) : Nat := 0x080100 + 0x10 * (i % 8)
abbrev SQn_SAFE_MASK (i : Nat) : Nat := 0x080104 + 0x10 * (i % 8)
abbrev SQn_STATUS (i : Nat) : Nat := 0x080108 + 0x10 * (i % 8)
abbrev SQn_COUNTS (i : Nat) : Nat := 0x08010C + 0x10 * (i % 8)
abbrev SIp_CFG (i : Nat) : Nat := 0x080200 + 0x8 * (i % 8)
abbrev SIp_STATUS (i : Nat) : Nat := 0x080204 + 0x8 * (i % 8)
abbrev SAF_CLAIM (i : Nat) : Nat := 0x080300 + 0x4 * (i % 16)
abbrev TRIAD_STATE : Nat := 0x0A0000
abbrev TRIAD_EVENT : Nat := 0x0A0004
abbrev TRIAD_IRQ_EN : Nat := 0x0A0008
abbrev TRIAD_CLOSE_CALL : Nat := 0x0A000C
abbrev TRIAD_HEALTH : Nat := 0x0A0010
abbrev TRIAD_VOTES : Nat := 0x0A0014
abbrev TRIAD_RESYNC : Nat := 0x0A0018
abbrev TRIAD_DIFF : Nat := 0x0A001C
abbrev TRIAD_DIFF_PC : Nat := 0x0A0020
abbrev TRIAD_BIST : Nat := 0x0A0024
abbrev TRIAD_ECC : Nat := 0x0A0028
abbrev TRIAD_ECC_ADDR : Nat := 0x0A002C
abbrev TRIAD_SCRUB : Nat := 0x0A0030
abbrev TRIAD_CMD : Nat := 0x0A0034
abbrev TRIAD_RESULT : Nat := 0x0A0038
abbrev PAIR_CTRL : Nat := 0x090000
abbrev PAIR_CFG : Nat := 0x090004
abbrev PAIR_STATE : Nat := 0x090008
abbrev PAIR_EVENT : Nat := 0x09000C
abbrev PAIR_IRQ_EN : Nat := 0x090010
abbrev PAIR_CLOSE_CALL : Nat := 0x090014
abbrev PAIR_CMD : Nat := 0x090018
abbrev PAIR_RESULT : Nat := 0x09001C
abbrev PAIR_LAG : Nat := 0x090020
abbrev PAIR_COUNTS : Nat := 0x090024
abbrev PAIR_HB_MISS : Nat := 0x090028
abbrev PAIR_MISMATCH : Nat := 0x09002C
abbrev PAIR_PEER : Nat := 0x090030
abbrev PAIR_SYNC : Nat := 0x090034
abbrev PAIR_DWELL : Nat := 0x090038
abbrev PAIR_TIDE_ALIGN : Nat := 0x09003C
abbrev PAIR_TIDE_WIN : Nat := 0x090040
abbrev PAIR_LAST_CAUSE : Nat := 0x090044
abbrev PAIR_MISSED : Nat := 0x090048
abbrev NET_CTRL : Nat := 0x0B0000
abbrev NET_PORT_STATUS : Nat := 0x0B0004
abbrev NET_EVENT : Nat := 0x0B0008
abbrev NET_IRQ_EN : Nat := 0x0B000C
abbrev NET_CLOSE_CALL : Nat := 0x0B0010
abbrev NET_RED_COUNTS : Nat := 0x0B0014
abbrev NET_SVC_MAC_LO : Nat := 0x0B0020
abbrev NET_SVC_MAC_HI : Nat := 0x0B0024
abbrev NET_SVC_IP : Nat := 0x0B0028
abbrev NET_SVC_NET : Nat := 0x0B002C
abbrev NET_MAINT_MAC_LO : Nat := 0x0B0030
abbrev NET_MAINT_MAC_HI : Nat := 0x0B0034
abbrev PTP_CFG : Nat := 0x0B0040
abbrev PTP_JUMP : Nat := 0x0B0044
abbrev PTP_STATE : Nat := 0x0B0048
abbrev PTP_CMD : Nat := 0x0B004C
abbrev PTP_OFFSET : Nat := 0x0B0050
abbrev PTP_LINK_DELAY : Nat := 0x0B0054
abbrev PTP_FREQ : Nat := 0x0B0058
abbrev PTP_PENDING_STEP : Nat := 0x0B005C
abbrev PTP_GM_LO : Nat := 0x0B0060
abbrev PTP_GM_HI : Nat := 0x0B0064
abbrev PTP_TIME_LO : Nat := 0x0B0068
abbrev PTP_TIME_HI : Nat := 0x0B006C
abbrev PTP_UTC_OFFSET : Nat := 0x0B0070
abbrev PTP_COUNTS : Nat := 0x0B0074
abbrev GSE_SEL : Nat := 0x0B0080
abbrev GSE_CMD : Nat := 0x0B0084
abbrev GSE_RESULT : Nat := 0x0B0088
abbrev GSE_VALID_LO : Nat := 0x0B0090
abbrev GSE_VALID_HI : Nat := 0x0B0094
abbrev GSE_PUB_RUN : Nat := 0x0B0098
abbrev GSE_DATA (i : Nat) : Nat := 0x0B00C0 + 0x4 * (i % 8)
abbrev LNCH_SEL : Nat := 0x0B0100
abbrev LNCH_CMD : Nat := 0x0B0104
abbrev LNCH_RESULT : Nat := 0x0B0108
abbrev LNCH_DATA0 : Nat := 0x0B0110
abbrev LNCH_DATA1 : Nat := 0x0B0114
abbrev LNCH_COUNTS : Nat := 0x0B0118
abbrev RING_CTRL : Nat := 0x0B0140
abbrev RING_CFG : Nat := 0x0B0144
abbrev RING_STATE : Nat := 0x0B0148
abbrev RING_RTT : Nat := 0x0B014C
abbrev RING_COUNTS : Nat := 0x0B0150
abbrev RING_PRESENT_LO : Nat := 0x0B0154
abbrev RING_PRESENT_HI : Nat := 0x0B0158
abbrev STNs_ID (i : Nat) : Nat := 0x0B0200 + 0x8 * (i % 64)
abbrev STNs_STATUS (i : Nat) : Nat := 0x0B0204 + 0x8 * (i % 64)
abbrev CAN_CTRL : Nat := 0x0C0000
abbrev CAN_EVENT : Nat := 0x0C0004
abbrev CAN_IRQ_EN : Nat := 0x0C0008
abbrev CAN_HP_EVENT : Nat := 0x0C000C
abbrev CAN_HP_IRQ_EN : Nat := 0x0C0010
abbrev CAN_CLOSE_CALL : Nat := 0x0C0014
abbrev CAN_CMD : Nat := 0x0C0018
abbrev CAN_RESULT : Nat := 0x0C001C
abbrev CNc_CFG (i : Nat) : Nat := 0x0C0100 + 0x40 * (i % 4)
abbrev CNc_NBT (i : Nat) : Nat := 0x0C0104 + 0x40 * (i % 4)
abbrev CNc_DBT (i : Nat) : Nat := 0x0C0108 + 0x40 * (i % 4)
abbrev CNc_STATUS (i : Nat) : Nat := 0x0C010C + 0x40 * (i % 4)
abbrev CNc_PENDING_LO (i : Nat) : Nat := 0x0C0110 + 0x40 * (i % 4)
abbrev CNc_PENDING_HI (i : Nat) : Nat := 0x0C0114 + 0x40 * (i % 4)
abbrev CNc_FULL_LO (i : Nat) : Nat := 0x0C0118 + 0x40 * (i % 4)
abbrev CNc_FULL_HI (i : Nat) : Nat := 0x0C011C + 0x40 * (i % 4)
abbrev CNc_QFILT (i : Nat) : Nat := 0x0C0120 + 0x40 * (i % 4)
abbrev CNc_QMASK (i : Nat) : Nat := 0x0C0124 + 0x40 * (i % 4)
abbrev CNc_CLASH_LO (i : Nat) : Nat := 0x0C0128 + 0x40 * (i % 4)
abbrev CNc_CLASH_HI (i : Nat) : Nat := 0x0C012C + 0x40 * (i % 4)
abbrev CNc_RX_COUNTS (i : Nat) : Nat := 0x0C0130 + 0x40 * (i % 4)
abbrev STR_CTRL : Nat := 0x0D0000
abbrev STR_STATE : Nat := 0x0D0004
abbrev STR_EVENT : Nat := 0x0D0008
abbrev STR_IRQ_EN : Nat := 0x0D000C
abbrev STR_CLOSE_CALL : Nat := 0x0D0010
abbrev STR_CMD : Nat := 0x0D0014
abbrev STR_RESULT : Nat := 0x0D0018
abbrev STR_FREEZE_CFG : Nat := 0x0D001C
abbrev STR_HEAD : Nat := 0x0D0020
abbrev STR_SEQ : Nat := 0x0D0024
abbrev STR_FROZEN_HEAD : Nat := 0x0D0028
abbrev STR_FROZEN_SEQ : Nat := 0x0D002C
abbrev STR_COUNTS : Nat := 0x0D0030
abbrev STR_DRAIN_SKIP : Nat := 0x0D0034
abbrev STR_CRC_BAD : Nat := 0x0D0038
abbrev STR_HOLD_USED : Nat := 0x0D003C
abbrev STR_RL_SEL : Nat := 0x0D0040
abbrev STR_RL_CFG : Nat := 0x0D0044
abbrev STR_RL_STATE : Nat := 0x0D0048
abbrev STR_READ_IDX : Nat := 0x0D0050
abbrev STR_REC (i : Nat) : Nat := 0x0D0060 + 0x4 * (i % 8)
abbrev STR_HOST_CODE : Nat := 0x0D0080
abbrev STR_HOST_DATUM_LO : Nat := 0x0D0084
abbrev STR_HOST_DATUM_HI : Nat := 0x0D0088
abbrev CLK_CTRL : Nat := 0x0E0000
abbrev CLK_STATUS : Nat := 0x0E0004
abbrev CLK_EVENT : Nat := 0x0E0008
abbrev CLK_IRQ_EN : Nat := 0x0E000C
abbrev CLK_COUNT_LO : Nat := 0x0E0010
abbrev CLK_COUNT_HI : Nat := 0x0E0014
abbrev CLK_SET_LO : Nat := 0x0E0018
abbrev CLK_SET_HI : Nat := 0x0E001C
abbrev CLK_CAL_LO : Nat := 0x0E0020
abbrev CLK_CAL_HI : Nat := 0x0E0024
abbrev CLK_TRIM : Nat := 0x0E0028
abbrev CLK_DRIFT : Nat := 0x0E002C
abbrev CLK_CELL : Nat := 0x0E0030
abbrev CLK_CMD : Nat := 0x0E0034
abbrev CLK_RESULT : Nat := 0x0E0038
abbrev CLK_BREG (i : Nat) : Nat := 0x0E0040 + 0x4 * (i % 16)
abbrev MPU_CTRL : Nat := 0x0F0000
abbrev MPU_EPOCH : Nat := 0x0F0004
abbrev MPU_CMD : Nat := 0x0F0008
abbrev MPU_RESULT : Nat := 0x0F000C
abbrev MPU_EVENT : Nat := 0x0F0010
abbrev MPU_IRQ_EN : Nat := 0x0F0014
abbrev MPU_STG_SEL : Nat := 0x0F0018
abbrev MPU_STG_W0 : Nat := 0x0F001C
abbrev MPU_STG_W1 : Nat := 0x0F0020
abbrev MPU_STG_W2 : Nat := 0x0F0024
abbrev MPU_STG_MCFG : Nat := 0x0F0028
abbrev MPU_DENY_LO : Nat := 0x0F0030
abbrev MPU_DENY_HI : Nat := 0x0F0034
abbrev MEM_ECC : Nat := 0x0F0040
abbrev MEM_ECC_ADDR_LO : Nat := 0x0F0044
abbrev MEM_ECC_ADDR_HI : Nat := 0x0F0048
abbrev MEM_SCRUB : Nat := 0x0F004C
abbrev MPU_DENY_COUNTm (i : Nat) : Nat := 0x0F0100 + 0x4 * (i % 10)
abbrev MBX_CTRL : Nat := 0x100000
abbrev MBX_EV_DBL : Nat := 0x100004
abbrev MBX_EV_ACK : Nat := 0x100008
abbrev MBX_EV_RX : Nat := 0x10000C
abbrev MBX_IRQ_EN_DBL : Nat := 0x100010
abbrev MBX_IRQ_EN_ACK : Nat := 0x100014
abbrev MBX_IRQ_EN_RX : Nat := 0x100018
abbrev MBX_LOCK_HELD_LO : Nat := 0x100020
abbrev MBX_LOCK_HELD_HI : Nat := 0x100024
abbrev MBX_LOCK_FORCE_LO : Nat := 0x100028
abbrev MBX_LOCK_FORCE_HI : Nat := 0x10002C
abbrev MBX_LOCK_OWNER (i : Nat) : Nat := 0x100040 + 0x4 * (i % 8)
abbrev MBXm_BIND (i : Nat) : Nat := 0x100100 + 0x20 * (i % 24)
abbrev MBXm_SEND (i : Nat) : Nat := 0x100104 + 0x20 * (i % 24)
abbrev MBXm_RECV (i : Nat) : Nat := 0x100108 + 0x20 * (i % 24)
abbrev MBXm_DBL (i : Nat) : Nat := 0x10010C + 0x20 * (i % 24)
abbrev MBXm_ACK (i : Nat) : Nat := 0x100110 + 0x20 * (i % 24)
abbrev MBXm_STATUS (i : Nat) : Nat := 0x100114 + 0x20 * (i % 24)
abbrev MBX_LOCK (i : Nat) : Nat := 0x100800 + 0x4 * (i % 64)
abbrev QUE_EN_LO : Nat := 0x130000
abbrev QUE_EN_HI : Nat := 0x130004
abbrev QUE_EV_LO : Nat := 0x130008
abbrev QUE_EV_HI : Nat := 0x13000C
abbrev QUE_IRQ_EN_LO : Nat := 0x130010
abbrev QUE_IRQ_EN_HI : Nat := 0x130014
abbrev QUEq_BASE_LO (i : Nat) : Nat := 0x130100 + 0x20 * (i % 64)
abbrev QUEq_BASE_HI (i : Nat) : Nat := 0x130104 + 0x20 * (i % 64)
abbrev QUEq_CFG (i : Nat) : Nat := 0x130108 + 0x20 * (i % 64)
abbrev QUEq_HEAD (i : Nat) : Nat := 0x13010C + 0x20 * (i % 64)
abbrev QUEq_TAIL (i : Nat) : Nat := 0x130110 + 0x20 * (i % 64)
abbrev QUEq_COUNTS (i : Nat) : Nat := 0x130114 + 0x20 * (i % 64)
abbrev QUEq_STATUS (i : Nat) : Nat := 0x130118 + 0x20 * (i % 64)
abbrev LCY_STATE : Nat := 0x110000
abbrev LCY_CMD : Nat := 0x110004
abbrev LCY_RESULT : Nat := 0x110008
abbrev LCY_EVENT : Nat := 0x11000C
abbrev LCY_IRQ_EN : Nat := 0x110010
abbrev LCY_CLOSE_CALL : Nat := 0x110014
abbrev LCY_UID_LO : Nat := 0x110018
abbrev LCY_UID_HI : Nat := 0x11001C
abbrev LCY_NONCE_LO : Nat := 0x110020
abbrev LCY_NONCE_HI : Nat := 0x110024
abbrev LCY_DBG_TOKEN : Nat := 0x110028
abbrev LCY_DBG_CFG : Nat := 0x11002C
abbrev LCY_DBG_STATUS : Nat := 0x110030
abbrev LCY_DBG_DENY_LO : Nat := 0x110034
abbrev LCY_DBG_DENY_HI : Nat := 0x110038
abbrev LCY_IDCODE : Nat := 0x11003C
abbrev LCY_ERASE : Nat := 0x110040
abbrev FWU_STATE : Nat := 0x120000
abbrev FWU_CMD : Nat := 0x120004
abbrev FWU_RESULT : Nat := 0x120008
abbrev FWU_EVENT : Nat := 0x12000C
abbrev FWU_IRQ_EN : Nat := 0x120010
abbrev FWU_CLOSE_CALL : Nat := 0x120014
abbrev FWU_CFG : Nat := 0x120018
abbrev FWU_TRIAL_LEFT : Nat := 0x12001C
abbrev FWU_VER_RUN : Nat := 0x120020
abbrev FWU_VER_OTHER : Nat := 0x120024
abbrev FWU_CFG_FORMAT : Nat := 0x120028
abbrev FWU_PAUSE : Nat := 0x12002C
abbrev FWU_COUNTS : Nat := 0x120030
abbrev MOD_ID : Nat := 0x000000
abbrev MOD_STATUS : Nat := 0x000004
abbrev MOD_RESET_CAUSE : Nat := 0x000008
abbrev MOD_FEED : Nat := 0x00000C
abbrev MOD_TEMP : Nat := 0x000010
abbrev MOD_EVENT : Nat := 0x000014
abbrev MOD_IRQ_EN : Nat := 0x000018
abbrev MOD_CLOSE_CALL : Nat := 0x00001C
abbrev SUP_PWR_CMD : Nat := 0x010000
abbrev SUP_PWR_STATE : Nat := 0x010004
abbrev SUP_CMD : Nat := 0x010008
abbrev SUP_RESULT : Nat := 0x01000C
abbrev SUP_REGIONS : Nat := 0x010010
abbrev SUP_EVENT : Nat := 0x010014
abbrev SUP_IRQ_EN : Nat := 0x010018
abbrev ANn_TBLX (n i : Nat) : Nat := 0x061000 + 0x100 * (n % 16) + 0x8 * (i % 32)
abbrev ANn_TBLY (n i : Nat) : Nat := 0x061004 + 0x100 * (n % 16) + 0x8 * (i % 32)

end Sys2Proof.Machine.Reg

/-! Register fields, under the manual's names `<register>_<field>`. -/
namespace Sys2Proof.Machine.Fld

abbrev TIDE_CTRL_RESYNC : RegField := ⟨0x020000, 8, 8⟩
abbrev TIDE_CTRL_ENABLE : RegField := ⟨0x020000, 0, 8⟩
abbrev TIDE_LOCK_OPEN : RegField := ⟨0x020004, 0, 8⟩
abbrev TIDE_EVENT_JUMP : RegField := ⟨0x02000C, 24, 8⟩
abbrev TIDE_EVENT_LOST : RegField := ⟨0x02000C, 16, 8⟩
abbrev TIDE_EVENT_HOLDOVER : RegField := ⟨0x02000C, 8, 8⟩
abbrev TIDE_EVENT_LOCKED : RegField := ⟨0x02000C, 0, 8⟩
abbrev TIDE_IRQ_EN_JUMP : RegField := ⟨0x020010, 24, 8⟩
abbrev TIDE_IRQ_EN_LOST : RegField := ⟨0x020010, 16, 8⟩
abbrev TIDE_IRQ_EN_HOLDOVER : RegField := ⟨0x020010, 8, 8⟩
abbrev TIDE_IRQ_EN_LOCKED : RegField := ⟨0x020010, 0, 8⟩
abbrev TIDE_CLOSE_CALL_COUNT : RegField := ⟨0x020014, 0, 16⟩
abbrev TDn_CFG_KI_SHIFT (i : Nat) : RegField := ⟨0x020100 + 0x40 * (i % 8), 26, 6⟩
abbrev TDn_CFG_KP_SHIFT (i : Nat) : RegField := ⟨0x020100 + 0x40 * (i % 8), 22, 4⟩
abbrev TDn_CFG_HOLD_ENTRY (i : Nat) : RegField := ⟨0x020100 + 0x40 * (i % 8), 18, 4⟩
abbrev TDn_CFG_RELOCK_MODE (i : Nat) : RegField := ⟨0x020100 + 0x40 * (i % 8), 17, 1⟩
abbrev TDn_CFG_HOLD_MODE (i : Nat) : RegField := ⟨0x020100 + 0x40 * (i % 8), 16, 1⟩
abbrev TDn_CFG_DIR_INVERT (i : Nat) : RegField := ⟨0x020100 + 0x40 * (i % 8), 15, 1⟩
abbrev TDn_CFG_INDEX_MODE (i : Nat) : RegField := ⟨0x020100 + 0x40 * (i % 8), 13, 2⟩
abbrev TDn_CFG_MEAS_EDGES (i : Nat) : RegField := ⟨0x020100 + 0x40 * (i % 8), 12, 1⟩
abbrev TDn_CFG_INPUT (i : Nat) : RegField := ⟨0x020100 + 0x40 * (i % 8), 8, 2⟩
abbrev TDn_CFG_SOURCE (i : Nat) : RegField := ⟨0x020100 + 0x40 * (i % 8), 0, 3⟩
abbrev TDn_WINDOWS_LOCK_COUNT (i : Nat) : RegField := ⟨0x02010C + 0x40 * (i % 8), 24, 8⟩
abbrev TDn_WINDOWS_LOCK_WIN (i : Nat) : RegField := ⟨0x02010C + 0x40 * (i % 8), 16, 8⟩
abbrev TDn_WINDOWS_SLEW_WIN (i : Nat) : RegField := ⟨0x02010C + 0x40 * (i % 8), 8, 8⟩
abbrev TDn_WINDOWS_FILTER (i : Nat) : RegField := ⟨0x02010C + 0x40 * (i % 8), 0, 8⟩
abbrev TDn_HOLDLIM_HOLD_LIMIT (i : Nat) : RegField := ⟨0x020110 + 0x40 * (i % 8), 0, 16⟩
abbrev TDn_STATUS_PHASE_REJECT (i : Nat) : RegField := ⟨0x020114 + 0x40 * (i % 8), 8, 1⟩
abbrev TDn_STATUS_CFG_CONFLICT (i : Nat) : RegField := ⟨0x020114 + 0x40 * (i % 8), 7, 1⟩
abbrev TDn_STATUS_RELOCK_HELD (i : Nat) : RegField := ⟨0x020114 + 0x40 * (i % 8), 6, 1⟩
abbrev TDn_STATUS_FREQ_RANGE (i : Nat) : RegField := ⟨0x020114 + 0x40 * (i % 8), 5, 1⟩
abbrev TDn_STATUS_AMPL_LOW (i : Nat) : RegField := ⟨0x020114 + 0x40 * (i % 8), 4, 1⟩
abbrev TDn_STATUS_LINE_FAULT (i : Nat) : RegField := ⟨0x020114 + 0x40 * (i % 8), 3, 1⟩
abbrev TDn_STATUS_QUAD_ERR (i : Nat) : RegField := ⟨0x020114 + 0x40 * (i % 8), 2, 1⟩
abbrev TDn_STATUS_INDEX_ERR (i : Nat) : RegField := ⟨0x020114 + 0x40 * (i % 8), 1, 1⟩
abbrev TDn_STATUS_REF_OK (i : Nat) : RegField := ⟨0x020114 + 0x40 * (i % 8), 0, 1⟩
abbrev TDn_COUNTS_MISS (i : Nat) : RegField := ⟨0x02012C + 0x40 * (i % 8), 16, 16⟩
abbrev TDn_COUNTS_QUAD (i : Nat) : RegField := ⟨0x02012C + 0x40 * (i % 8), 0, 16⟩
abbrev TDn_AMPL_AMPL (i : Nat) : RegField := ⟨0x020134 + 0x40 * (i % 8), 0, 16⟩
abbrev TT_CTRL_SHADOW : RegField := ⟨0x021000, 1, 1⟩
abbrev TT_CTRL_RUN : RegField := ⟨0x021000, 0, 1⟩
abbrev TT_PARTITION_HOST_FIRST : RegField := ⟨0x021004, 0, 13⟩
abbrev TT_SEL_INDEX : RegField := ⟨0x021008, 0, 12⟩
abbrev TT_CMD_OP : RegField := ⟨0x02100C, 0, 4⟩
abbrev TT_RESULT_BUSY : RegField := ⟨0x021010, 31, 1⟩
abbrev TT_RESULT_STATUS : RegField := ⟨0x021010, 0, 16⟩
abbrev TT_CLAIM_PO : RegField := ⟨0x021014, 8, 4⟩
abbrev TT_CLAIM_DIO : RegField := ⟨0x021014, 0, 8⟩
abbrev TT_EVENT_SUPPRESSED : RegField := ⟨0x021018, 16, 8⟩
abbrev TT_EVENT_LATE : RegField := ⟨0x021018, 8, 8⟩
abbrev TT_EVENT_ARM_FULL : RegField := ⟨0x021018, 0, 8⟩
abbrev TT_IRQ_EN_SUPPRESSED : RegField := ⟨0x02101C, 16, 8⟩
abbrev TT_IRQ_EN_LATE : RegField := ⟨0x02101C, 8, 8⟩
abbrev TT_IRQ_EN_ARM_FULL : RegField := ⟨0x02101C, 0, 8⟩
abbrev TT_LATE_COUNT_SUPPRESSED : RegField := ⟨0x021020, 16, 16⟩
abbrev TT_LATE_COUNT_LATE : RegField := ⟨0x021020, 0, 16⟩
abbrev TT_OVERSPEED_TIDE : RegField := ⟨0x021024, 0, 8⟩
abbrev TT_CAL_STATUS_PO : RegField := ⟨0x021028, 8, 4⟩
abbrev TT_CAL_STATUS_DIO : RegField := ⟨0x021028, 0, 8⟩
abbrev TT_MERGED_COUNT : RegField := ⟨0x02102C, 0, 16⟩
abbrev SQ_CLOSE_CALL_COUNT : RegField := ⟨0x022014, 0, 16⟩
abbrev SQs_CMD_OP (i : Nat) : RegField := ⟨0x022100 + 0x20 * (i % 32), 28, 4⟩
abbrev SQs_CMD_STEP (i : Nat) : RegField := ⟨0x022100 + 0x20 * (i % 32), 0, 10⟩
abbrev SQs_STATE_STATE (i : Nat) : RegField := ⟨0x022104 + 0x20 * (i % 32), 28, 4⟩
abbrev SQs_STATE_STEP (i : Nat) : RegField := ⟨0x022104 + 0x20 * (i % 32), 16, 10⟩
abbrev SQs_STATE_MIRROR_OK (i : Nat) : RegField := ⟨0x022104 + 0x20 * (i % 32), 15, 1⟩
abbrev SQs_STATE_LAST (i : Nat) : RegField := ⟨0x022104 + 0x20 * (i % 32), 0, 8⟩
abbrev SQs_SIGNAL_SIG (i : Nat) : RegField := ⟨0x02210C + 0x20 * (i % 32), 0, 8⟩
abbrev SQs_DROPPED_COUNT (i : Nat) : RegField := ⟨0x022110 + 0x20 * (i % 32), 0, 16⟩
abbrev EXE_CTRL_RUN : RegField := ⟨0x030000, 0, 1⟩
abbrev EXE_CFG_SLACK_STARVE : RegField := ⟨0x030004, 8, 8⟩
abbrev EXE_CFG_CHANGE_MODE : RegField := ⟨0x030004, 0, 1⟩
abbrev EXE_STATE_REVERT_OK : RegField := ⟨0x030008, 7, 1⟩
abbrev EXE_STATE_AREA : RegField := ⟨0x030008, 6, 1⟩
abbrev EXE_STATE_STATE : RegField := ⟨0x030008, 0, 4⟩
abbrev EXE_EVENT_TAG_DENIED : RegField := ⟨0x03000C, 8, 1⟩
abbrev EXE_EVENT_EVT_MERGED : RegField := ⟨0x03000C, 7, 1⟩
abbrev EXE_EVENT_FREERUN : RegField := ⟨0x03000C, 6, 1⟩
abbrev EXE_EVENT_NO_SLACK : RegField := ⟨0x03000C, 5, 1⟩
abbrev EXE_EVENT_STALE : RegField := ⟨0x03000C, 4, 1⟩
abbrev EXE_EVENT_FORCE_DROPPED : RegField := ⟨0x03000C, 3, 1⟩
abbrev EXE_EVENT_CHANGE_REFUSED : RegField := ⟨0x03000C, 2, 1⟩
abbrev EXE_EVENT_CHANGE_DONE : RegField := ⟨0x03000C, 1, 1⟩
abbrev EXE_EVENT_OVERRUN : RegField := ⟨0x03000C, 0, 1⟩
abbrev EXE_IRQ_EN_TAG_DENIED : RegField := ⟨0x030010, 8, 1⟩
abbrev EXE_IRQ_EN_EVT_MERGED : RegField := ⟨0x030010, 7, 1⟩
abbrev EXE_IRQ_EN_FREERUN : RegField := ⟨0x030010, 6, 1⟩
abbrev EXE_IRQ_EN_NO_SLACK : RegField := ⟨0x030010, 5, 1⟩
abbrev EXE_IRQ_EN_STALE : RegField := ⟨0x030010, 4, 1⟩
abbrev EXE_IRQ_EN_FORCE_DROPPED : RegField := ⟨0x030010, 3, 1⟩
abbrev EXE_IRQ_EN_CHANGE_REFUSED : RegField := ⟨0x030010, 2, 1⟩
abbrev EXE_IRQ_EN_CHANGE_DONE : RegField := ⟨0x030010, 1, 1⟩
abbrev EXE_IRQ_EN_OVERRUN : RegField := ⟨0x030010, 0, 1⟩
abbrev EXE_CLOSE_CALL_COUNT : RegField := ⟨0x030014, 0, 16⟩
abbrev EXE_OVERRUN_VALID : RegField := ⟨0x030018, 31, 1⟩
abbrev EXE_OVERRUN_KIND : RegField := ⟨0x030018, 30, 1⟩
abbrev EXE_OVERRUN_TASK : RegField := ⟨0x030018, 0, 5⟩
abbrev EXE_CHANGE_CMD_OP : RegField := ⟨0x030020, 0, 4⟩
abbrev EXE_CHANGE_STATUS_BUSY : RegField := ⟨0x030024, 31, 1⟩
abbrev EXE_CHANGE_STATUS_PHASE : RegField := ⟨0x030024, 28, 3⟩
abbrev EXE_CHANGE_STATUS_NEED_US : RegField := ⟨0x030024, 16, 12⟩
abbrev EXE_CHANGE_STATUS_STATUS : RegField := ⟨0x030024, 0, 16⟩
abbrev EXE_VALUES_LEN_LEN : RegField := ⟨0x030028, 0, 13⟩
abbrev EXE_CHANGE_DROPS_FORCES : RegField := ⟨0x03002C, 16, 16⟩
abbrev EXE_CHANGE_DROPS_TYPE_RESETS : RegField := ⟨0x03002C, 0, 16⟩
abbrev EXE_FORCE_TAG_TAG : RegField := ⟨0x030040, 0, 16⟩
abbrev EXE_FORCE_CMD_OP : RegField := ⟨0x03004C, 0, 3⟩
abbrev EXE_FORCE_RESULT_BUSY : RegField := ⟨0x030050, 31, 1⟩
abbrev EXE_FORCE_RESULT_STATUS : RegField := ⟨0x030050, 0, 16⟩
abbrev EXE_FORCE_COUNT_COUNT : RegField := ⟨0x030054, 0, 11⟩
abbrev EXE_SLACK_LAST_US : RegField := ⟨0x030060, 0, 16⟩
abbrev EXE_SLACK_MISS_COUNT : RegField := ⟨0x030064, 0, 16⟩
abbrev EXE_EVT_SIGNAL_SIG : RegField := ⟨0x030070, 0, 16⟩
abbrev EXE_STATION_LATE_COUNT : RegField := ⟨0x030090, 0, 16⟩
abbrev EXE_TAG_DENIED_COUNT : RegField := ⟨0x030094, 0, 16⟩
abbrev TASKt_CFG_KIND (i : Nat) : RegField := ⟨0x030100 + 0x20 * (i % 24), 30, 2⟩
abbrev TASKt_CFG_PRIORITY (i : Nat) : RegField := ⟨0x030100 + 0x20 * (i % 24), 25, 5⟩
abbrev TASKt_CFG_TIDE (i : Nat) : RegField := ⟨0x030100 + 0x20 * (i % 24), 22, 3⟩
abbrev TASKt_CFG_HOLD (i : Nat) : RegField := ⟨0x030100 + 0x20 * (i % 24), 20, 2⟩
abbrev TASKt_CFG_DIR (i : Nat) : RegField := ⟨0x030100 + 0x20 * (i % 24), 19, 1⟩
abbrev TASKt_CFG_SRC (i : Nat) : RegField := ⟨0x030100 + 0x20 * (i % 24), 12, 4⟩
abbrev TASKt_CFG_INDEX (i : Nat) : RegField := ⟨0x030100 + 0x20 * (i % 24), 0, 12⟩
abbrev TASKt_WDOG_WD_LIMIT (i : Nat) : RegField := ⟨0x03010C + 0x20 * (i % 24), 0, 24⟩
abbrev TASKt_STATUS_STATE (i : Nat) : RegField := ⟨0x030110 + 0x20 * (i % 24), 28, 4⟩
abbrev TASKt_STATUS_FREERUN (i : Nat) : RegField := ⟨0x030110 + 0x20 * (i % 24), 27, 1⟩
abbrev TASKt_STATUS_PENDING (i : Nat) : RegField := ⟨0x030110 + 0x20 * (i % 24), 26, 1⟩
abbrev TASKt_STATUS_INTERVAL (i : Nat) : RegField := ⟨0x030110 + 0x20 * (i % 24), 0, 24⟩
abbrev TASKt_EXEC_US (i : Nat) : RegField := ⟨0x030114 + 0x20 * (i % 24), 0, 24⟩
abbrev TASKt_EXEC_MAX_US (i : Nat) : RegField := ⟨0x030118 + 0x20 * (i % 24), 0, 24⟩
abbrev TASKt_COUNTS_MERGED (i : Nat) : RegField := ⟨0x03011C + 0x20 * (i % 24), 16, 16⟩
abbrev TASKt_COUNTS_CYCLES (i : Nat) : RegField := ⟨0x03011C + 0x20 * (i % 24), 0, 16⟩
abbrev LOOP_CTRL_SHADOW : RegField := ⟨0x040000, 1, 1⟩
abbrev LOOP_CTRL_RUN : RegField := ⟨0x040000, 0, 1⟩
abbrev LOOP_FRAME_HOLD : RegField := ⟨0x040004, 8, 2⟩
abbrev LOOP_FRAME_TIDE : RegField := ⟨0x040004, 4, 3⟩
abbrev LOOP_FRAME_SRC : RegField := ⟨0x040004, 0, 1⟩
abbrev LOOP_STATUS_FREERUN : RegField := ⟨0x040010, 31, 1⟩
abbrev LOOP_STATUS_FALLBACK : RegField := ⟨0x040010, 30, 1⟩
abbrev LOOP_STATUS_FRAME : RegField := ⟨0x040010, 0, 16⟩
abbrev LOOP_EVENT_NUMERIC : RegField := ⟨0x040018, 9, 1⟩
abbrev LOOP_EVENT_MIRROR_MISMATCH : RegField := ⟨0x040018, 8, 1⟩
abbrev LOOP_EVENT_TRACE_DONE : RegField := ⟨0x040018, 7, 1⟩
abbrev LOOP_EVENT_TRACE_TRIG : RegField := ⟨0x040018, 6, 1⟩
abbrev LOOP_EVENT_BANK_ISO : RegField := ⟨0x040018, 5, 1⟩
abbrev LOOP_EVENT_FREERUN : RegField := ⟨0x040018, 4, 1⟩
abbrev LOOP_EVENT_EVT_LATE : RegField := ⟨0x040018, 3, 1⟩
abbrev LOOP_EVENT_CFG_REFUSED : RegField := ⟨0x040018, 2, 1⟩
abbrev LOOP_EVENT_RECOVERED : RegField := ⟨0x040018, 1, 1⟩
abbrev LOOP_EVENT_FALLBACK : RegField := ⟨0x040018, 0, 1⟩
abbrev LOOP_IRQ_EN_NUMERIC : RegField := ⟨0x04001C, 9, 1⟩
abbrev LOOP_IRQ_EN_MIRROR_MISMATCH : RegField := ⟨0x04001C, 8, 1⟩
abbrev LOOP_IRQ_EN_TRACE_DONE : RegField := ⟨0x04001C, 7, 1⟩
abbrev LOOP_IRQ_EN_TRACE_TRIG : RegField := ⟨0x04001C, 6, 1⟩
abbrev LOOP_IRQ_EN_BANK_ISO : RegField := ⟨0x04001C, 5, 1⟩
abbrev LOOP_IRQ_EN_FREERUN : RegField := ⟨0x04001C, 4, 1⟩
abbrev LOOP_IRQ_EN_EVT_LATE : RegField := ⟨0x04001C, 3, 1⟩
abbrev LOOP_IRQ_EN_CFG_REFUSED : RegField := ⟨0x04001C, 2, 1⟩
abbrev LOOP_IRQ_EN_RECOVERED : RegField := ⟨0x04001C, 1, 1⟩
abbrev LOOP_IRQ_EN_FALLBACK : RegField := ⟨0x04001C, 0, 1⟩
abbrev LOOP_CLOSE_CALL_COUNT : RegField := ⟨0x040020, 0, 16⟩
abbrev LOOP_EVT_COUNTS_LATE : RegField := ⟨0x040024, 16, 16⟩
abbrev LOOP_EVT_COUNTS_MERGED : RegField := ⟨0x040024, 0, 16⟩
abbrev LOOP_MIRROR_ERR_COUNT : RegField := ⟨0x040028, 0, 16⟩
abbrev LOOP_SEL_SLOT : RegField := ⟨0x040030, 0, 11⟩
abbrev LOOP_ARG_ARG : RegField := ⟨0x040034, 0, 8⟩
abbrev LOOP_CMD_OP : RegField := ⟨0x04003C, 0, 4⟩
abbrev LOOP_RESULT_BUSY : RegField := ⟨0x040040, 31, 1⟩
abbrev LOOP_RESULT_STATUS : RegField := ⟨0x040040, 0, 16⟩
abbrev LOOP_SLOT_STATE_MODE : RegField := ⟨0x040044, 28, 4⟩
abbrev LOOP_SLOT_STATE_FALLBACK : RegField := ⟨0x040044, 27, 1⟩
abbrev LOOP_SLOT_STATE_LOST : RegField := ⟨0x040044, 26, 1⟩
abbrev LOOP_SLOT_STATE_FROZEN : RegField := ⟨0x040044, 25, 1⟩
abbrev LOOP_SLOT_STATE_IMPLAUSIBLE : RegField := ⟨0x040044, 24, 1⟩
abbrev LOOP_SLOT_STATE_SAT_HI : RegField := ⟨0x040044, 23, 1⟩
abbrev LOOP_SLOT_STATE_SAT_LO : RegField := ⟨0x040044, 22, 1⟩
abbrev LOOP_SLOT_STATE_SELECTED : RegField := ⟨0x040044, 21, 1⟩
abbrev LOOP_SLOT_STATE_TRACKING : RegField := ⟨0x040044, 20, 1⟩
abbrev LOOP_SLOT_STATE_BACKUP_PV : RegField := ⟨0x040044, 19, 1⟩
abbrev LOOP_SLOT_STATE_MIRROR_OK : RegField := ⟨0x040044, 18, 1⟩
abbrev LOOP_SLOT_STATE_DESC_VALID : RegField := ⟨0x040044, 17, 1⟩
abbrev LOOP_SLOT_STATE_FORCED_OUT : RegField := ⟨0x040044, 16, 1⟩
abbrev LOOP_SLOT_STATE_LAST : RegField := ⟨0x040044, 0, 8⟩
abbrev LOOP_BANK_REEN_GO : RegField := ⟨0x040110, 31, 1⟩
abbrev LOOP_BANK_REEN_BANK : RegField := ⟨0x040110, 0, 7⟩
abbrev TRACE_CMD_OP : RegField := ⟨0x040120, 28, 4⟩
abbrev TRACE_CMD_BUF : RegField := ⟨0x040120, 0, 5⟩
abbrev TRBb_CFG_MASK (i : Nat) : RegField := ⟨0x040200 + 0x10 * (i % 32), 16, 16⟩
abbrev TRBb_CFG_SLOT (i : Nat) : RegField := ⟨0x040200 + 0x10 * (i % 32), 0, 11⟩
abbrev TRBb_TRIG_MODE (i : Nat) : RegField := ⟨0x040204 + 0x10 * (i % 32), 30, 2⟩
abbrev TRBb_TRIG_SRC (i : Nat) : RegField := ⟨0x040204 + 0x10 * (i % 32), 28, 2⟩
abbrev TRBb_TRIG_DECIM (i : Nat) : RegField := ⟨0x040204 + 0x10 * (i % 32), 20, 8⟩
abbrev TRBb_TRIG_TAG (i : Nat) : RegField := ⟨0x040204 + 0x10 * (i % 32), 0, 16⟩
abbrev TRBb_POST_POST (i : Nat) : RegField := ⟨0x040208 + 0x10 * (i % 32), 0, 14⟩
abbrev TRBb_STATUS_RUN (i : Nat) : RegField := ⟨0x04020C + 0x10 * (i % 32), 31, 1⟩
abbrev TRBb_STATUS_TRIGGERED (i : Nat) : RegField := ⟨0x04020C + 0x10 * (i % 32), 30, 1⟩
abbrev TRBb_STATUS_WRAPPED (i : Nat) : RegField := ⟨0x04020C + 0x10 * (i % 32), 29, 1⟩
abbrev TRBb_STATUS_STOPPED (i : Nat) : RegField := ⟨0x04020C + 0x10 * (i % 32), 28, 1⟩
abbrev TRBb_STATUS_TRIG_INDEX (i : Nat) : RegField := ⟨0x04020C + 0x10 * (i % 32), 14, 14⟩
abbrev TRBb_STATUS_WR_INDEX (i : Nat) : RegField := ⟨0x04020C + 0x10 * (i % 32), 0, 14⟩
abbrev DIO_EVENT_STAGE_SILENT : RegField := ⟨0x050020, 7, 1⟩
abbrev DIO_EVENT_DIR_CONFLICT : RegField := ⟨0x050020, 6, 1⟩
abbrev DIO_EVENT_OPEN_LOAD : RegField := ⟨0x050020, 5, 1⟩
abbrev DIO_EVENT_BANK_ISO : RegField := ⟨0x050020, 4, 1⟩
abbrev DIO_EVENT_BANK_REEN : RegField := ⟨0x050020, 3, 1⟩
abbrev DIO_EVENT_BANK_OFF : RegField := ⟨0x050020, 2, 1⟩
abbrev DIO_EVENT_BANK_WARN : RegField := ⟨0x050020, 1, 1⟩
abbrev DIO_EVENT_CH_FAULT : RegField := ⟨0x050020, 0, 1⟩
abbrev DIO_IRQ_EN_STAGE_SILENT : RegField := ⟨0x050024, 7, 1⟩
abbrev DIO_IRQ_EN_DIR_CONFLICT : RegField := ⟨0x050024, 6, 1⟩
abbrev DIO_IRQ_EN_OPEN_LOAD : RegField := ⟨0x050024, 5, 1⟩
abbrev DIO_IRQ_EN_BANK_ISO : RegField := ⟨0x050024, 4, 1⟩
abbrev DIO_IRQ_EN_BANK_REEN : RegField := ⟨0x050024, 3, 1⟩
abbrev DIO_IRQ_EN_BANK_OFF : RegField := ⟨0x050024, 2, 1⟩
abbrev DIO_IRQ_EN_BANK_WARN : RegField := ⟨0x050024, 1, 1⟩
abbrev DIO_IRQ_EN_CH_FAULT : RegField := ⟨0x050024, 0, 1⟩
abbrev DIO_CLOSE_CALL_COUNT : RegField := ⟨0x050028, 0, 16⟩
abbrev DIO_BANK_CMD_OP : RegField := ⟨0x050030, 28, 4⟩
abbrev DIO_BANK_CMD_BANK : RegField := ⟨0x050030, 0, 2⟩
abbrev DIO_BANK_RESULT_BUSY : RegField := ⟨0x050034, 31, 1⟩
abbrev DIO_BANK_RESULT_STATUS : RegField := ⟨0x050034, 0, 16⟩
abbrev DIO_BANKk_CFG_EN (i : Nat) : RegField := ⟨0x050040 + 0x10 * (i % 4), 31, 1⟩
abbrev DIO_BANKk_CFG_STUCK_ACTION (i : Nat) : RegField := ⟨0x050040 + 0x10 * (i % 4), 30, 1⟩
abbrev DIO_BANKk_CFG_REEN_TAG_EN (i : Nat) : RegField := ⟨0x050040 + 0x10 * (i % 4), 29, 1⟩
abbrev DIO_BANKk_CFG_RB_DELAY (i : Nat) : RegField := ⟨0x050040 + 0x10 * (i % 4), 16, 8⟩
abbrev DIO_BANKk_CFG_REEN_TAG (i : Nat) : RegField := ⟨0x050040 + 0x10 * (i % 4), 0, 16⟩
abbrev DIO_BANKk_STATUS_STATE (i : Nat) : RegField := ⟨0x050044 + 0x10 * (i % 4), 29, 3⟩
abbrev DIO_BANKk_STATUS_WARN (i : Nat) : RegField := ⟨0x050044 + 0x10 * (i % 4), 28, 1⟩
abbrev DIO_BANKk_STATUS_LOW (i : Nat) : RegField := ⟨0x050044 + 0x10 * (i % 4), 27, 1⟩
abbrev DIO_BANKk_STATUS_SWITCH (i : Nat) : RegField := ⟨0x050044 + 0x10 * (i % 4), 26, 1⟩
abbrev DIO_BANKk_STATUS_REEN_READY (i : Nat) : RegField := ⟨0x050044 + 0x10 * (i % 4), 25, 1⟩
abbrev DIO_BANKk_VOLT_MV (i : Nat) : RegField := ⟨0x050048 + 0x10 * (i % 4), 0, 16⟩
abbrev DIO_BANKk_COUNTS_WARN (i : Nat) : RegField := ⟨0x05004C + 0x10 * (i % 4), 16, 16⟩
abbrev DIO_BANKk_COUNTS_OFF (i : Nat) : RegField := ⟨0x05004C + 0x10 * (i % 4), 0, 16⟩
abbrev DIOn_CFG_DIR (i : Nat) : RegField := ⟨0x050100 + 0x8 * (i % 32), 31, 1⟩
abbrev DIOn_CFG_OPEN_EN (i : Nat) : RegField := ⟨0x050100 + 0x8 * (i % 32), 30, 1⟩
abbrev DIOn_CFG_AUTO_REARM (i : Nat) : RegField := ⟨0x050100 + 0x8 * (i % 32), 29, 1⟩
abbrev DIOn_CFG_FILT_UNIT (i : Nat) : RegField := ⟨0x050100 + 0x8 * (i % 32), 24, 2⟩
abbrev DIOn_CFG_FILT (i : Nat) : RegField := ⟨0x050100 + 0x8 * (i % 32), 8, 8⟩
abbrev DIOn_STATUS_INVALID (i : Nat) : RegField := ⟨0x050104 + 0x8 * (i % 32), 31, 1⟩
abbrev DIOn_STATUS_LATCHED (i : Nat) : RegField := ⟨0x050104 + 0x8 * (i % 32), 30, 1⟩
abbrev DIOn_STATUS_FAULT (i : Nat) : RegField := ⟨0x050104 + 0x8 * (i % 32), 26, 4⟩
abbrev DIOn_STATUS_SOURCE (i : Nat) : RegField := ⟨0x050104 + 0x8 * (i % 32), 21, 5⟩
abbrev DIOn_STATUS_PIN (i : Nat) : RegField := ⟨0x050104 + 0x8 * (i % 32), 20, 1⟩
abbrev DIOn_STATUS_CURRENT (i : Nat) : RegField := ⟨0x050104 + 0x8 * (i % 32), 0, 12⟩
abbrev RFX_CTRL_RUN : RegField := ⟨0x070000, 0, 1⟩
abbrev RFX_SEL_TERM : RegField := ⟨0x070004, 0, 6⟩
abbrev RFX_CMD_OP : RegField := ⟨0x070008, 0, 4⟩
abbrev RFX_RESULT_BUSY : RegField := ⟨0x07000C, 31, 1⟩
abbrev RFX_RESULT_STATUS : RegField := ⟨0x07000C, 0, 16⟩
abbrev RFX_EVENT_CHECK_FAIL : RegField := ⟨0x070028, 3, 1⟩
abbrev RFX_EVENT_TAG_LOST : RegField := ⟨0x070028, 2, 1⟩
abbrev RFX_EVENT_CFG_REFUSED : RegField := ⟨0x070028, 1, 1⟩
abbrev RFX_EVENT_FIRED : RegField := ⟨0x070028, 0, 1⟩
abbrev RFX_IRQ_EN_CHECK_FAIL : RegField := ⟨0x07002C, 3, 1⟩
abbrev RFX_IRQ_EN_TAG_LOST : RegField := ⟨0x07002C, 2, 1⟩
abbrev RFX_IRQ_EN_CFG_REFUSED : RegField := ⟨0x07002C, 1, 1⟩
abbrev RFX_IRQ_EN_FIRED : RegField := ⟨0x07002C, 0, 1⟩
abbrev ANA_ENABLE_EN : RegField := ⟨0x060000, 0, 16⟩
abbrev ANA_LOCK_OPEN : RegField := ⟨0x060004, 0, 16⟩
abbrev ANA_INVALID_INVALID : RegField := ⟨0x060008, 0, 16⟩
abbrev ANA_COMPLIANCE_COMPLIANCE : RegField := ⟨0x06000C, 0, 16⟩
abbrev ANA_EVENT_CFG_REFUSED : RegField := ⟨0x060010, 7, 1⟩
abbrev ANA_EVENT_HART_DONE : RegField := ⟨0x060010, 6, 1⟩
abbrev ANA_EVENT_HART_DEV_STATUS : RegField := ⟨0x060010, 5, 1⟩
abbrev ANA_EVENT_HART_FAIL : RegField := ⟨0x060010, 4, 1⟩
abbrev ANA_EVENT_BANK : RegField := ⟨0x060010, 3, 1⟩
abbrev ANA_EVENT_OUTPUT_FAULT : RegField := ⟨0x060010, 2, 1⟩
abbrev ANA_EVENT_COMPLIANCE : RegField := ⟨0x060010, 1, 1⟩
abbrev ANA_EVENT_INPUT_FAULT : RegField := ⟨0x060010, 0, 1⟩
abbrev ANA_IRQ_EN_CFG_REFUSED : RegField := ⟨0x060014, 7, 1⟩
abbrev ANA_IRQ_EN_HART_DONE : RegField := ⟨0x060014, 6, 1⟩
abbrev ANA_IRQ_EN_HART_DEV_STATUS : RegField := ⟨0x060014, 5, 1⟩
abbrev ANA_IRQ_EN_HART_FAIL : RegField := ⟨0x060014, 4, 1⟩
abbrev ANA_IRQ_EN_BANK : RegField := ⟨0x060014, 3, 1⟩
abbrev ANA_IRQ_EN_OUTPUT_FAULT : RegField := ⟨0x060014, 2, 1⟩
abbrev ANA_IRQ_EN_COMPLIANCE : RegField := ⟨0x060014, 1, 1⟩
abbrev ANA_IRQ_EN_INPUT_FAULT : RegField := ⟨0x060014, 0, 1⟩
abbrev ANA_CLOSE_CALL_COUNT : RegField := ⟨0x060018, 0, 16⟩
abbrev ANA_BANK_CMD_OP : RegField := ⟨0x060020, 28, 4⟩
abbrev ANA_BANK_CMD_BANK : RegField := ⟨0x060020, 0, 2⟩
abbrev ANA_BANK_RESULT_BUSY : RegField := ⟨0x060024, 31, 1⟩
abbrev ANA_BANK_RESULT_STATUS : RegField := ⟨0x060024, 0, 16⟩
abbrev ANA_HART_SEL_CHANNEL : RegField := ⟨0x060030, 0, 4⟩
abbrev ANA_HART_CMD_CMD : RegField := ⟨0x060034, 16, 16⟩
abbrev ANA_HART_CMD_LEN : RegField := ⟨0x060034, 0, 8⟩
abbrev ANA_HART_RESULT_BUSY : RegField := ⟨0x060038, 31, 1⟩
abbrev ANA_HART_RESULT_LEN : RegField := ⟨0x060038, 16, 8⟩
abbrev ANA_HART_RESULT_STATUS : RegField := ⟨0x060038, 0, 16⟩
abbrev ANn_CFG_MODE (i : Nat) : RegField := ⟨0x060100 + 0x80 * (i % 16), 29, 3⟩
abbrev ANn_CFG_CHAR (i : Nat) : RegField := ⟨0x060100 + 0x80 * (i % 16), 27, 2⟩
abbrev ANn_CFG_LIMIT_EN (i : Nat) : RegField := ⟨0x060100 + 0x80 * (i % 16), 26, 1⟩
abbrev ANn_CFG_EBB_SEL (i : Nat) : RegField := ⟨0x060100 + 0x80 * (i % 16), 24, 2⟩
abbrev ANn_CFG_NAN_SEL (i : Nat) : RegField := ⟨0x060100 + 0x80 * (i % 16), 22, 2⟩
abbrev ANn_CFG_ALARM_ON_INVALID (i : Nat) : RegField := ⟨0x060100 + 0x80 * (i % 16), 21, 1⟩
abbrev ANn_CFG_TRIG (i : Nat) : RegField := ⟨0x060100 + 0x80 * (i % 16), 20, 1⟩
abbrev ANn_CFG_RATE (i : Nat) : RegField := ⟨0x060100 + 0x80 * (i % 16), 17, 3⟩
abbrev ANn_CFG_TBL_N (i : Nat) : RegField := ⟨0x060100 + 0x80 * (i % 16), 11, 6⟩
abbrev ANn_STATUS_INVALID (i : Nat) : RegField := ⟨0x060128 + 0x80 * (i % 16), 31, 1⟩
abbrev ANn_STATUS_COMPLIANCE (i : Nat) : RegField := ⟨0x060128 + 0x80 * (i % 16), 30, 1⟩
abbrev ANn_STATUS_UNDER (i : Nat) : RegField := ⟨0x060128 + 0x80 * (i % 16), 29, 1⟩
abbrev ANn_STATUS_OVER (i : Nat) : RegField := ⟨0x060128 + 0x80 * (i % 16), 28, 1⟩
abbrev ANn_STATUS_ALARM (i : Nat) : RegField := ⟨0x060128 + 0x80 * (i % 16), 27, 1⟩
abbrev ANn_STATUS_FAULT (i : Nat) : RegField := ⟨0x060128 + 0x80 * (i % 16), 23, 4⟩
abbrev ANn_STATUS_SENSE (i : Nat) : RegField := ⟨0x060128 + 0x80 * (i % 16), 22, 1⟩
abbrev ANn_STATUS_CODE (i : Nat) : RegField := ⟨0x060128 + 0x80 * (i % 16), 0, 16⟩
abbrev ANn_HEADROOM_MV (i : Nat) : RegField := ⟨0x06012C + 0x80 * (i % 16), 0, 16⟩
abbrev ANn_HART_CFG_EN (i : Nat) : RegField := ⟨0x060134 + 0x80 * (i % 16), 31, 1⟩
abbrev ANn_HART_CFG_MASTER (i : Nat) : RegField := ⟨0x060134 + 0x80 * (i % 16), 30, 1⟩
abbrev ANn_HART_CFG_BURST_ACCEPT (i : Nat) : RegField := ⟨0x060134 + 0x80 * (i % 16), 29, 1⟩
abbrev ANn_HART_CFG_POLL_EN (i : Nat) : RegField := ⟨0x060134 + 0x80 * (i % 16), 28, 1⟩
abbrev ANn_HART_CFG_POLL_ADDR (i : Nat) : RegField := ⟨0x060134 + 0x80 * (i % 16), 22, 6⟩
abbrev ANn_HART_CFG_PREAMBLE (i : Nat) : RegField := ⟨0x060134 + 0x80 * (i % 16), 17, 5⟩
abbrev ANn_HART_CFG_RETRIES (i : Nat) : RegField := ⟨0x060134 + 0x80 * (i % 16), 14, 3⟩
abbrev ANn_HART_CFG_RESP_TO (i : Nat) : RegField := ⟨0x060134 + 0x80 * (i % 16), 7, 7⟩
abbrev ANn_HART_CFG_TAG_EN (i : Nat) : RegField := ⟨0x060134 + 0x80 * (i % 16), 3, 4⟩
abbrev ANn_HART_STATUS_DEV_STATUS (i : Nat) : RegField := ⟨0x060138 + 0x80 * (i % 16), 24, 8⟩
abbrev ANn_HART_STATUS_RESP_CODE (i : Nat) : RegField := ⟨0x060138 + 0x80 * (i % 16), 16, 8⟩
abbrev ANn_HART_STATUS_LONG_OK (i : Nat) : RegField := ⟨0x060138 + 0x80 * (i % 16), 15, 1⟩
abbrev ANn_HART_STATUS_BURST (i : Nat) : RegField := ⟨0x060138 + 0x80 * (i % 16), 14, 1⟩
abbrev ANn_HART_STATUS_LAST (i : Nat) : RegField := ⟨0x060138 + 0x80 * (i % 16), 0, 8⟩
abbrev ANn_COUNTS_HART_FAIL (i : Nat) : RegField := ⟨0x06013C + 0x80 * (i % 16), 16, 16⟩
abbrev ANn_COUNTS_TRIG_MERGED (i : Nat) : RegField := ⟨0x06013C + 0x80 * (i % 16), 0, 16⟩
abbrev ANn_HART_TAG01_PV_TAG (i : Nat) : RegField := ⟨0x060140 + 0x80 * (i % 16), 16, 16⟩
abbrev ANn_HART_TAG01_SV_TAG (i : Nat) : RegField := ⟨0x060140 + 0x80 * (i % 16), 0, 16⟩
abbrev ANn_HART_TAG23_TV_TAG (i : Nat) : RegField := ⟨0x060144 + 0x80 * (i % 16), 16, 16⟩
abbrev ANn_HART_TAG23_QV_TAG (i : Nat) : RegField := ⟨0x060144 + 0x80 * (i % 16), 0, 16⟩
abbrev ANn_HART_POLL_PERIOD (i : Nat) : RegField := ⟨0x060150 + 0x80 * (i % 16), 0, 16⟩
abbrev SAF_STATE_STATE : RegField := ⟨0x080000, 28, 4⟩
abbrev SAF_STATE_AUTHORITY : RegField := ⟨0x080000, 27, 1⟩
abbrev SAF_STATE_CERTIFIED : RegField := ⟨0x080000, 26, 1⟩
abbrev SAF_STATE_SPLIT_STRAP : RegField := ⟨0x080000, 25, 1⟩
abbrev SAF_STATE_CFG_OK : RegField := ⟨0x080000, 24, 1⟩
abbrev SAF_STATE_CAUSE : RegField := ⟨0x080000, 0, 16⟩
abbrev SAF_CFG_SAFE_CYCLE : RegField := ⟨0x080004, 24, 8⟩
abbrev SAF_CFG_SX_TIMEOUT : RegField := ⟨0x080004, 12, 12⟩
abbrev SAF_CFG_TP_PERIOD : RegField := ⟨0x080004, 0, 12⟩
abbrev SAF_EVENT_FALLBACK : RegField := ⟨0x08000C, 6, 1⟩
abbrev SAF_EVENT_AUTHORITY : RegField := ⟨0x08000C, 5, 1⟩
abbrev SAF_EVENT_BANK_LOW : RegField := ⟨0x08000C, 4, 1⟩
abbrev SAF_EVENT_TEST : RegField := ⟨0x08000C, 3, 1⟩
abbrev SAF_EVENT_SX_TIMEOUT : RegField := ⟨0x08000C, 2, 1⟩
abbrev SAF_EVENT_FAULT : RegField := ⟨0x08000C, 1, 1⟩
abbrev SAF_EVENT_TRIP : RegField := ⟨0x08000C, 0, 1⟩
abbrev SAF_CLOSE_CALL_COUNT : RegField := ⟨0x080010, 0, 16⟩
abbrev SAF_LAST_STATUS_STATUS : RegField := ⟨0x080014, 0, 16⟩
abbrev SAF_BW_STATUS_LS_ON : RegField := ⟨0x080030, 24, 8⟩
abbrev SAF_BW_STATUS_HB_OK : RegField := ⟨0x080030, 23, 1⟩
abbrev SAF_BW_STATUS_EBB_LINE : RegField := ⟨0x080030, 22, 1⟩
abbrev SAF_BW_STATUS_SPLIT_HOLD : RegField := ⟨0x080030, 21, 1⟩
abbrev SAF_BW_STATUS_AUTH_HELD : RegField := ⟨0x080030, 20, 1⟩
abbrev SAF_BW_STATUS_SELFTEST_OK : RegField := ⟨0x080030, 19, 1⟩
abbrev SAF_TP_STATUS_RUN : RegField := ⟨0x080034, 28, 4⟩
abbrev SAF_TP_STATUS_LEVEL : RegField := ⟨0x080034, 24, 4⟩
abbrev SAF_BANK_STATUS_RESTORING : RegField := ⟨0x080038, 4, 4⟩
abbrev SAF_BANK_STATUS_LOW : RegField := ⟨0x080038, 0, 4⟩
abbrev SQn_CFG_SI_MASK (i : Nat) : RegField := ⟨0x080100 + 0x10 * (i % 8), 24, 8⟩
abbrev SQn_CFG_RESTART (i : Nat) : RegField := ⟨0x080100 + 0x10 * (i % 8), 23, 1⟩
abbrev SQn_CFG_USED (i : Nat) : RegField := ⟨0x080100 + 0x10 * (i % 8), 22, 1⟩
abbrev SQn_CFG_TEST_PERIOD (i : Nat) : RegField := ⟨0x080100 + 0x10 * (i % 8), 8, 8⟩
abbrev SQn_STATUS_STATE (i : Nat) : RegField := ⟨0x080108 + 0x10 * (i % 8), 28, 4⟩
abbrev SQn_STATUS_FAULT (i : Nat) : RegField := ⟨0x080108 + 0x10 * (i % 8), 24, 4⟩
abbrev SQn_STATUS_HS_ON (i : Nat) : RegField := ⟨0x080108 + 0x10 * (i % 8), 23, 1⟩
abbrev SQn_STATUS_LS_ON (i : Nat) : RegField := ⟨0x080108 + 0x10 * (i % 8), 22, 1⟩
abbrev SQn_STATUS_PERMIT (i : Nat) : RegField := ⟨0x080108 + 0x10 * (i % 8), 21, 1⟩
abbrev SQn_STATUS_REQ (i : Nat) : RegField := ⟨0x080108 + 0x10 * (i % 8), 20, 1⟩
abbrev SQn_STATUS_TESTING (i : Nat) : RegField := ⟨0x080108 + 0x10 * (i % 8), 19, 1⟩
abbrev SQn_STATUS_TEST_AGE (i : Nat) : RegField := ⟨0x080108 + 0x10 * (i % 8), 0, 16⟩
abbrev SQn_COUNTS_DISCARDED (i : Nat) : RegField := ⟨0x08010C + 0x10 * (i % 8), 16, 16⟩
abbrev SQn_COUNTS_DELAYED (i : Nat) : RegField := ⟨0x08010C + 0x10 * (i % 8), 0, 16⟩
abbrev SIp_CFG_MODE (i : Nat) : RegField := ⟨0x080200 + 0x8 * (i % 8), 30, 2⟩
abbrev SIp_CFG_SRC_A (i : Nat) : RegField := ⟨0x080200 + 0x8 * (i % 8), 27, 3⟩
abbrev SIp_CFG_SRC_B (i : Nat) : RegField := ⟨0x080200 + 0x8 * (i % 8), 24, 3⟩
abbrev SIp_CFG_DISC (i : Nat) : RegField := ⟨0x080200 + 0x8 * (i % 8), 16, 8⟩
abbrev SIp_CFG_SI_FILT (i : Nat) : RegField := ⟨0x080200 + 0x8 * (i % 8), 8, 8⟩
abbrev SIp_STATUS_HEALTHY (i : Nat) : RegField := ⟨0x080204 + 0x8 * (i % 8), 31, 1⟩
abbrev SIp_STATUS_FAULT (i : Nat) : RegField := ⟨0x080204 + 0x8 * (i % 8), 30, 1⟩
abbrev SIp_STATUS_KIND (i : Nat) : RegField := ⟨0x080204 + 0x8 * (i % 8), 28, 2⟩
abbrev SIp_STATUS_A (i : Nat) : RegField := ⟨0x080204 + 0x8 * (i % 8), 27, 1⟩
abbrev SIp_STATUS_B (i : Nat) : RegField := ⟨0x080204 + 0x8 * (i % 8), 26, 1⟩
abbrev SAF_CLAIM_EN (i : Nat) : RegField := ⟨0x080300 + 0x4 * (i % 16), 31, 1⟩
abbrev SAF_CLAIM_SQ (i : Nat) : RegField := ⟨0x080300 + 0x4 * (i % 16), 16, 3⟩
abbrev SAF_CLAIM_CELL (i : Nat) : RegField := ⟨0x080300 + 0x4 * (i % 16), 0, 16⟩
abbrev TRIAD_STATE_MODE : RegField := ⟨0x0A0000, 28, 4⟩
abbrev TRIAD_STATE_VOTING : RegField := ⟨0x0A0000, 25, 3⟩
abbrev TRIAD_STATE_RETIRED : RegField := ⟨0x0A0000, 22, 3⟩
abbrev TRIAD_STATE_FENCED : RegField := ⟨0x0A0000, 19, 3⟩
abbrev TRIAD_EVENT_BIST_FAIL : RegField := ⟨0x0A0004, 7, 1⟩
abbrev TRIAD_EVENT_NO_MAJORITY : RegField := ⟨0x0A0004, 6, 1⟩
abbrev TRIAD_EVENT_ECC_UNCORR : RegField := ⟨0x0A0004, 5, 1⟩
abbrev TRIAD_EVENT_ECC_CORR : RegField := ⟨0x0A0004, 4, 1⟩
abbrev TRIAD_EVENT_RETIRED : RegField := ⟨0x0A0004, 3, 1⟩
abbrev TRIAD_EVENT_RESYNC_FAIL : RegField := ⟨0x0A0004, 2, 1⟩
abbrev TRIAD_EVENT_RESYNC_DONE : RegField := ⟨0x0A0004, 1, 1⟩
abbrev TRIAD_EVENT_OUTVOTE : RegField := ⟨0x0A0004, 0, 1⟩
abbrev TRIAD_IRQ_EN_BIST_FAIL : RegField := ⟨0x0A0008, 7, 1⟩
abbrev TRIAD_IRQ_EN_NO_MAJORITY : RegField := ⟨0x0A0008, 6, 1⟩
abbrev TRIAD_IRQ_EN_ECC_UNCORR : RegField := ⟨0x0A0008, 5, 1⟩
abbrev TRIAD_IRQ_EN_ECC_CORR : RegField := ⟨0x0A0008, 4, 1⟩
abbrev TRIAD_IRQ_EN_RETIRED : RegField := ⟨0x0A0008, 3, 1⟩
abbrev TRIAD_IRQ_EN_RESYNC_FAIL : RegField := ⟨0x0A0008, 2, 1⟩
abbrev TRIAD_IRQ_EN_RESYNC_DONE : RegField := ⟨0x0A0008, 1, 1⟩
abbrev TRIAD_IRQ_EN_OUTVOTE : RegField := ⟨0x0A0008, 0, 1⟩
abbrev TRIAD_CLOSE_CALL_COUNT : RegField := ⟨0x0A000C, 0, 16⟩
abbrev TRIAD_HEALTH_SINCE : RegField := ⟨0x0A0010, 0, 16⟩
abbrev TRIAD_VOTES_T2 : RegField := ⟨0x0A0014, 16, 8⟩
abbrev TRIAD_VOTES_T1 : RegField := ⟨0x0A0014, 8, 8⟩
abbrev TRIAD_VOTES_T0 : RegField := ⟨0x0A0014, 0, 8⟩
abbrev TRIAD_RESYNC_LAST_US : RegField := ⟨0x0A0018, 16, 8⟩
abbrev TRIAD_RESYNC_FAIL_T2 : RegField := ⟨0x0A0018, 8, 4⟩
abbrev TRIAD_RESYNC_FAIL_T1 : RegField := ⟨0x0A0018, 4, 4⟩
abbrev TRIAD_RESYNC_FAIL_T0 : RegField := ⟨0x0A0018, 0, 4⟩
abbrev TRIAD_DIFF_CORE : RegField := ⟨0x0A001C, 30, 2⟩
abbrev TRIAD_DIFF_FIELD : RegField := ⟨0x0A001C, 26, 4⟩
abbrev TRIAD_DIFF_TASK : RegField := ⟨0x0A001C, 21, 5⟩
abbrev TRIAD_DIFF_PC_PC : RegField := ⟨0x0A0020, 0, 22⟩
abbrev TRIAD_BIST_DONE : RegField := ⟨0x0A0024, 31, 1⟩
abbrev TRIAD_BIST_VOTER_OK : RegField := ⟨0x0A0024, 30, 1⟩
abbrev TRIAD_BIST_CORE_OK : RegField := ⟨0x0A0024, 27, 3⟩
abbrev TRIAD_BIST_ECC_OK : RegField := ⟨0x0A0024, 26, 1⟩
abbrev TRIAD_BIST_FIELD_OK : RegField := ⟨0x0A0024, 19, 7⟩
abbrev TRIAD_ECC_UNCORR : RegField := ⟨0x0A0028, 16, 16⟩
abbrev TRIAD_ECC_CORR : RegField := ⟨0x0A0028, 0, 16⟩
abbrev TRIAD_ECC_ADDR_AREA : RegField := ⟨0x0A002C, 30, 2⟩
abbrev TRIAD_ECC_ADDR_SYMBOL : RegField := ⟨0x0A002C, 24, 6⟩
abbrev TRIAD_ECC_ADDR_OFFSET : RegField := ⟨0x0A002C, 0, 24⟩
abbrev TRIAD_CMD_OP : RegField := ⟨0x0A0034, 28, 4⟩
abbrev TRIAD_CMD_CORE : RegField := ⟨0x0A0034, 0, 2⟩
abbrev TRIAD_RESULT_BUSY : RegField := ⟨0x0A0038, 31, 1⟩
abbrev TRIAD_RESULT_STATUS : RegField := ⟨0x0A0038, 0, 16⟩
abbrev PAIR_CTRL_REJOIN_AUTO : RegField := ⟨0x090000, 1, 1⟩
abbrev PAIR_CTRL_RECLAIM_INHIBIT : RegField := ⟨0x090000, 0, 1⟩
abbrev PAIR_CFG_HOME : RegField := ⟨0x090004, 30, 2⟩
abbrev PAIR_CFG_RECLAIM_DWELL : RegField := ⟨0x090004, 16, 12⟩
abbrev PAIR_CFG_LAG_PCT : RegField := ⟨0x090004, 10, 6⟩
abbrev PAIR_CFG_HB_PERIOD : RegField := ⟨0x090004, 0, 10⟩
abbrev PAIR_STATE_STATE : RegField := ⟨0x090008, 28, 4⟩
abbrev PAIR_STATE_PEER : RegField := ⟨0x090008, 24, 4⟩
abbrev PAIR_STATE_SIDE : RegField := ⟨0x090008, 22, 2⟩
abbrev PAIR_STATE_AUTH_HELD : RegField := ⟨0x090008, 21, 1⟩
abbrev PAIR_STATE_PEER_PRESENT : RegField := ⟨0x090008, 20, 1⟩
abbrev PAIR_STATE_CW1_OK : RegField := ⟨0x090008, 19, 1⟩
abbrev PAIR_STATE_CW2_OK : RegField := ⟨0x090008, 18, 1⟩
abbrev PAIR_STATE_CAPABLE : RegField := ⟨0x090008, 17, 1⟩
abbrev PAIR_STATE_HOME_CONFLICT : RegField := ⟨0x090008, 16, 1⟩
abbrev PAIR_STATE_SWITCH_PENDING : RegField := ⟨0x090008, 15, 1⟩
abbrev PAIR_STATE_YIELD_PENDING : RegField := ⟨0x090008, 14, 1⟩
abbrev PAIR_EVENT_CMD_REFUSED : RegField := ⟨0x09000C, 9, 1⟩
abbrev PAIR_EVENT_STANDBY_FAULT : RegField := ⟨0x09000C, 8, 1⟩
abbrev PAIR_EVENT_TIDE_MISALIGNED : RegField := ⟨0x09000C, 7, 1⟩
abbrev PAIR_EVENT_IN_STEP : RegField := ⟨0x09000C, 6, 1⟩
abbrev PAIR_EVENT_TRACKING : RegField := ⟨0x09000C, 5, 1⟩
abbrev PAIR_EVENT_MISMATCH : RegField := ⟨0x09000C, 4, 1⟩
abbrev PAIR_EVENT_TAKEOVER_BLOCKED : RegField := ⟨0x09000C, 3, 1⟩
abbrev PAIR_EVENT_PEER_LOST : RegField := ⟨0x09000C, 2, 1⟩
abbrev PAIR_EVENT_PATH : RegField := ⟨0x09000C, 1, 1⟩
abbrev PAIR_EVENT_AUTH_CHANGE : RegField := ⟨0x09000C, 0, 1⟩
abbrev PAIR_IRQ_EN_CMD_REFUSED : RegField := ⟨0x090010, 9, 1⟩
abbrev PAIR_IRQ_EN_STANDBY_FAULT : RegField := ⟨0x090010, 8, 1⟩
abbrev PAIR_IRQ_EN_TIDE_MISALIGNED : RegField := ⟨0x090010, 7, 1⟩
abbrev PAIR_IRQ_EN_IN_STEP : RegField := ⟨0x090010, 6, 1⟩
abbrev PAIR_IRQ_EN_TRACKING : RegField := ⟨0x090010, 5, 1⟩
abbrev PAIR_IRQ_EN_MISMATCH : RegField := ⟨0x090010, 4, 1⟩
abbrev PAIR_IRQ_EN_TAKEOVER_BLOCKED : RegField := ⟨0x090010, 3, 1⟩
abbrev PAIR_IRQ_EN_PEER_LOST : RegField := ⟨0x090010, 2, 1⟩
abbrev PAIR_IRQ_EN_PATH : RegField := ⟨0x090010, 1, 1⟩
abbrev PAIR_IRQ_EN_AUTH_CHANGE : RegField := ⟨0x090010, 0, 1⟩
abbrev PAIR_CLOSE_CALL_COUNT : RegField := ⟨0x090014, 0, 16⟩
abbrev PAIR_CMD_OP : RegField := ⟨0x090018, 28, 4⟩
abbrev PAIR_RESULT_BUSY : RegField := ⟨0x09001C, 31, 1⟩
abbrev PAIR_RESULT_STATUS : RegField := ⟨0x09001C, 0, 16⟩
abbrev PAIR_LAG_LAST_US : RegField := ⟨0x090020, 16, 16⟩
abbrev PAIR_LAG_TRAIL_RUN : RegField := ⟨0x090020, 8, 8⟩
abbrev PAIR_LAG_LAST_PCT : RegField := ⟨0x090020, 0, 8⟩
abbrev PAIR_COUNTS_TAKEOVERS : RegField := ⟨0x090024, 24, 8⟩
abbrev PAIR_COUNTS_SWITCHOVERS : RegField := ⟨0x090024, 16, 8⟩
abbrev PAIR_COUNTS_MISMATCHES : RegField := ⟨0x090024, 8, 8⟩
abbrev PAIR_COUNTS_TRACKING : RegField := ⟨0x090024, 0, 8⟩
abbrev PAIR_HB_MISS_CW1 : RegField := ⟨0x090028, 16, 16⟩
abbrev PAIR_HB_MISS_CW2 : RegField := ⟨0x090028, 0, 16⟩
abbrev PAIR_MISMATCH_VALID : RegField := ⟨0x09002C, 31, 1⟩
abbrev PAIR_MISMATCH_OUTCOME : RegField := ⟨0x09002C, 29, 2⟩
abbrev PAIR_MISMATCH_TASK : RegField := ⟨0x09002C, 24, 5⟩
abbrev PAIR_MISMATCH_CYCLE : RegField := ⟨0x09002C, 0, 16⟩
abbrev PAIR_PEER_TRIAD_MODE : RegField := ⟨0x090030, 28, 4⟩
abbrev PAIR_PEER_VER_MAJOR : RegField := ⟨0x090030, 24, 4⟩
abbrev PAIR_PEER_FALLBACK : RegField := ⟨0x090030, 16, 6⟩
abbrev PAIR_PEER_SINCE : RegField := ⟨0x090030, 0, 16⟩
abbrev PAIR_SYNC_REMAIN_MIB : RegField := ⟨0x090034, 16, 16⟩
abbrev PAIR_SYNC_DIRTY : RegField := ⟨0x090034, 0, 16⟩
abbrev PAIR_DWELL_ELAPSED : RegField := ⟨0x090038, 0, 12⟩
abbrev PAIR_TIDE_ALIGN_ALIGNED : RegField := ⟨0x09003C, 0, 8⟩
abbrev PAIR_LAST_CAUSE_STATUS : RegField := ⟨0x090044, 0, 16⟩
abbrev PAIR_MISSED_COUNT : RegField := ⟨0x090048, 0, 16⟩
abbrev NET_CTRL_REDUN : RegField := ⟨0x0B0000, 30, 2⟩
abbrev NET_CTRL_MEDIA1 : RegField := ⟨0x0B0000, 29, 1⟩
abbrev NET_CTRL_MEDIA0 : RegField := ⟨0x0B0000, 28, 1⟩
abbrev NET_EVENT_PORT_ISO : RegField := ⟨0x0B0008, 10, 1⟩
abbrev NET_EVENT_STATION : RegField := ⟨0x0B0008, 9, 1⟩
abbrev NET_EVENT_RING_BREAK : RegField := ⟨0x0B0008, 8, 1⟩
abbrev NET_EVENT_LAUNCH : RegField := ⟨0x0B0008, 7, 1⟩
abbrev NET_EVENT_GSE_CFG : RegField := ⟨0x0B0008, 6, 1⟩
abbrev NET_EVENT_GSE_INVALID : RegField := ⟨0x0B0008, 5, 1⟩
abbrev NET_EVENT_PTP_MASTER : RegField := ⟨0x0B0008, 4, 1⟩
abbrev NET_EVENT_PTP_JUMP : RegField := ⟨0x0B0008, 3, 1⟩
abbrev NET_EVENT_PTP_STATE : RegField := ⟨0x0B0008, 2, 1⟩
abbrev NET_EVENT_RED_LOSS : RegField := ⟨0x0B0008, 1, 1⟩
abbrev NET_EVENT_LINK : RegField := ⟨0x0B0008, 0, 1⟩
abbrev NET_IRQ_EN_PORT_ISO : RegField := ⟨0x0B000C, 10, 1⟩
abbrev NET_IRQ_EN_STATION : RegField := ⟨0x0B000C, 9, 1⟩
abbrev NET_IRQ_EN_RING_BREAK : RegField := ⟨0x0B000C, 8, 1⟩
abbrev NET_IRQ_EN_LAUNCH : RegField := ⟨0x0B000C, 7, 1⟩
abbrev NET_IRQ_EN_GSE_CFG : RegField := ⟨0x0B000C, 6, 1⟩
abbrev NET_IRQ_EN_GSE_INVALID : RegField := ⟨0x0B000C, 5, 1⟩
abbrev NET_IRQ_EN_PTP_MASTER : RegField := ⟨0x0B000C, 4, 1⟩
abbrev NET_IRQ_EN_PTP_JUMP : RegField := ⟨0x0B000C, 3, 1⟩
abbrev NET_IRQ_EN_PTP_STATE : RegField := ⟨0x0B000C, 2, 1⟩
abbrev NET_IRQ_EN_RED_LOSS : RegField := ⟨0x0B000C, 1, 1⟩
abbrev NET_IRQ_EN_LINK : RegField := ⟨0x0B000C, 0, 1⟩
abbrev NET_CLOSE_CALL_COUNT : RegField := ⟨0x0B0010, 0, 16⟩
abbrev NET_RED_COUNTS_LOST_B : RegField := ⟨0x0B0014, 16, 16⟩
abbrev NET_RED_COUNTS_LOST_A : RegField := ⟨0x0B0014, 0, 16⟩
abbrev NET_SVC_MAC_HI_BYTES : RegField := ⟨0x0B0024, 0, 16⟩
abbrev NET_SVC_NET_PRIO : RegField := ⟨0x0B002C, 29, 3⟩
abbrev NET_SVC_NET_VLAN_EN : RegField := ⟨0x0B002C, 28, 1⟩
abbrev NET_SVC_NET_VLAN_ID : RegField := ⟨0x0B002C, 16, 12⟩
abbrev NET_SVC_NET_PREFIX : RegField := ⟨0x0B002C, 0, 6⟩
abbrev NET_MAINT_MAC_HI_BYTES : RegField := ⟨0x0B0034, 0, 16⟩
abbrev PTP_CFG_DOMAIN : RegField := ⟨0x0B0040, 24, 8⟩
abbrev PTP_CFG_MASTER_OK : RegField := ⟨0x0B0040, 23, 1⟩
abbrev PTP_CFG_STEP_AT_START : RegField := ⟨0x0B0040, 22, 1⟩
abbrev PTP_CFG_KP : RegField := ⟨0x0B0040, 16, 4⟩
abbrev PTP_CFG_KI : RegField := ⟨0x0B0040, 12, 4⟩
abbrev PTP_CFG_PRIORITY1 : RegField := ⟨0x0B0040, 4, 8⟩
abbrev PTP_STATE_SERVO : RegField := ⟨0x0B0048, 28, 4⟩
abbrev PTP_STATE_DISCIPLINED : RegField := ⟨0x0B0048, 27, 1⟩
abbrev PTP_STATE_REFUSING : RegField := ⟨0x0B0048, 26, 1⟩
abbrev PTP_STATE_MASTER : RegField := ⟨0x0B0048, 25, 1⟩
abbrev PTP_STATE_SRC_PORT : RegField := ⟨0x0B0048, 24, 1⟩
abbrev PTP_STATE_PORT1 : RegField := ⟨0x0B0048, 20, 4⟩
abbrev PTP_STATE_PORT0 : RegField := ⟨0x0B0048, 16, 4⟩
abbrev PTP_CMD_OP : RegField := ⟨0x0B004C, 28, 4⟩
abbrev PTP_LINK_DELAY_NP1 : RegField := ⟨0x0B0054, 16, 16⟩
abbrev PTP_LINK_DELAY_NP0 : RegField := ⟨0x0B0054, 0, 16⟩
abbrev PTP_UTC_OFFSET_VALID : RegField := ⟨0x0B0070, 31, 1⟩
abbrev PTP_UTC_OFFSET_S : RegField := ⟨0x0B0070, 0, 16⟩
abbrev PTP_COUNTS_REFUSED : RegField := ⟨0x0B0074, 16, 16⟩
abbrev PTP_COUNTS_MASTER_CHANGES : RegField := ⟨0x0B0074, 0, 16⟩
abbrev GSE_SEL_ENTRY : RegField := ⟨0x0B0080, 0, 7⟩
abbrev GSE_CMD_OP : RegField := ⟨0x0B0084, 0, 4⟩
abbrev GSE_RESULT_BUSY : RegField := ⟨0x0B0088, 31, 1⟩
abbrev GSE_RESULT_STATUS : RegField := ⟨0x0B0088, 0, 16⟩
abbrev GSE_PUB_RUN_RUN : RegField := ⟨0x0B0098, 0, 16⟩
abbrev LNCH_SEL_SLOT : RegField := ⟨0x0B0100, 0, 6⟩
abbrev LNCH_CMD_OP : RegField := ⟨0x0B0104, 0, 4⟩
abbrev LNCH_RESULT_BUSY : RegField := ⟨0x0B0108, 31, 1⟩
abbrev LNCH_RESULT_STATUS : RegField := ⟨0x0B0108, 0, 16⟩
abbrev LNCH_COUNTS_MERGED : RegField := ⟨0x0B0118, 16, 16⟩
abbrev LNCH_COUNTS_LATE : RegField := ⟨0x0B0118, 0, 16⟩
abbrev RING_CTRL_RUN : RegField := ⟨0x0B0140, 0, 1⟩
abbrev RING_CFG_LEAD_US : RegField := ⟨0x0B0144, 22, 10⟩
abbrev RING_CFG_STN_WDOG : RegField := ⟨0x0B0144, 8, 14⟩
abbrev RING_STATE_STATE : RegField := ⟨0x0B0148, 28, 4⟩
abbrev RING_STATE_BREAK : RegField := ⟨0x0B0148, 27, 1⟩
abbrev RING_STATE_PASS : RegField := ⟨0x0B0148, 26, 1⟩
abbrev RING_STATE_BREAK_AFTER : RegField := ⟨0x0B0148, 20, 6⟩
abbrev RING_COUNTS_BREAKS : RegField := ⟨0x0B0150, 16, 16⟩
abbrev RING_COUNTS_QSKIP : RegField := ⟨0x0B0150, 0, 16⟩
abbrev STNs_STATUS_STATE (i : Nat) : RegField := ⟨0x0B0204 + 0x8 * (i % 64), 30, 2⟩
abbrev STNs_STATUS_STALE (i : Nat) : RegField := ⟨0x0B0204 + 0x8 * (i % 64), 29, 1⟩
abbrev STNs_STATUS_INVALID (i : Nat) : RegField := ⟨0x0B0204 + 0x8 * (i % 64), 28, 1⟩
abbrev STNs_STATUS_VIA_IR0 (i : Nat) : RegField := ⟨0x0B0204 + 0x8 * (i % 64), 27, 1⟩
abbrev STNs_STATUS_VIA_IR1 (i : Nat) : RegField := ⟨0x0B0204 + 0x8 * (i % 64), 26, 1⟩
abbrev STNs_STATUS_POSITION (i : Nat) : RegField := ⟨0x0B0204 + 0x8 * (i % 64), 16, 6⟩
abbrev STNs_STATUS_LAST_TID (i : Nat) : RegField := ⟨0x0B0204 + 0x8 * (i % 64), 0, 16⟩
abbrev CAN_CTRL_EN : RegField := ⟨0x0C0000, 0, 4⟩
abbrev CAN_EVENT_ISOLATED : RegField := ⟨0x0C0004, 6, 1⟩
abbrev CAN_EVENT_CLASH : RegField := ⟨0x0C0004, 5, 1⟩
abbrev CAN_EVENT_BUS_OFF : RegField := ⟨0x0C0004, 4, 1⟩
abbrev CAN_EVENT_ERR_STATE : RegField := ⟨0x0C0004, 3, 1⟩
abbrev CAN_EVENT_TX_FAIL : RegField := ⟨0x0C0004, 2, 1⟩
abbrev CAN_EVENT_TX_DONE : RegField := ⟨0x0C0004, 1, 1⟩
abbrev CAN_EVENT_RX : RegField := ⟨0x0C0004, 0, 1⟩
abbrev CAN_IRQ_EN_ISOLATED : RegField := ⟨0x0C0008, 6, 1⟩
abbrev CAN_IRQ_EN_CLASH : RegField := ⟨0x0C0008, 5, 1⟩
abbrev CAN_IRQ_EN_BUS_OFF : RegField := ⟨0x0C0008, 4, 1⟩
abbrev CAN_IRQ_EN_ERR_STATE : RegField := ⟨0x0C0008, 3, 1⟩
abbrev CAN_IRQ_EN_TX_FAIL : RegField := ⟨0x0C0008, 2, 1⟩
abbrev CAN_IRQ_EN_TX_DONE : RegField := ⟨0x0C0008, 1, 1⟩
abbrev CAN_IRQ_EN_RX : RegField := ⟨0x0C0008, 0, 1⟩
abbrev CAN_HP_EVENT_HP : RegField := ⟨0x0C000C, 0, 16⟩
abbrev CAN_HP_IRQ_EN_HP : RegField := ⟨0x0C0010, 0, 16⟩
abbrev CAN_CLOSE_CALL_COUNT : RegField := ⟨0x0C0014, 0, 16⟩
abbrev CAN_CMD_OP : RegField := ⟨0x0C0018, 28, 4⟩
abbrev CAN_CMD_CHANNEL : RegField := ⟨0x0C0018, 6, 2⟩
abbrev CAN_CMD_BUFFER : RegField := ⟨0x0C0018, 0, 6⟩
abbrev CAN_RESULT_BUSY : RegField := ⟨0x0C001C, 31, 1⟩
abbrev CAN_RESULT_STATUS : RegField := ⟨0x0C001C, 0, 16⟩
abbrev CNc_CFG_FD_EN (i : Nat) : RegField := ⟨0x0C0100 + 0x40 * (i % 4), 31, 1⟩
abbrev CNc_CFG_RESTRICTED (i : Nat) : RegField := ⟨0x0C0100 + 0x40 * (i % 4), 30, 1⟩
abbrev CNc_CFG_AUTO_RECOVER (i : Nat) : RegField := ⟨0x0C0100 + 0x40 * (i % 4), 29, 1⟩
abbrev CNc_CFG_TERM (i : Nat) : RegField := ⟨0x0C0100 + 0x40 * (i % 4), 28, 1⟩
abbrev CNc_CFG_QUEUE_EN (i : Nat) : RegField := ⟨0x0C0100 + 0x40 * (i % 4), 27, 1⟩
abbrev CNc_NBT_NSJW (i : Nat) : RegField := ⟨0x0C0104 + 0x40 * (i % 4), 25, 7⟩
abbrev CNc_NBT_NTSEG1 (i : Nat) : RegField := ⟨0x0C0104 + 0x40 * (i % 4), 16, 9⟩
abbrev CNc_NBT_NTSEG2 (i : Nat) : RegField := ⟨0x0C0104 + 0x40 * (i % 4), 9, 7⟩
abbrev CNc_NBT_NBRP (i : Nat) : RegField := ⟨0x0C0104 + 0x40 * (i % 4), 0, 5⟩
abbrev CNc_DBT_DSJW (i : Nat) : RegField := ⟨0x0C0108 + 0x40 * (i % 4), 28, 4⟩
abbrev CNc_DBT_DTSEG1 (i : Nat) : RegField := ⟨0x0C0108 + 0x40 * (i % 4), 23, 5⟩
abbrev CNc_DBT_DTSEG2 (i : Nat) : RegField := ⟨0x0C0108 + 0x40 * (i % 4), 19, 4⟩
abbrev CNc_DBT_DBRP (i : Nat) : RegField := ⟨0x0C0108 + 0x40 * (i % 4), 14, 5⟩
abbrev CNc_DBT_TDC_EN (i : Nat) : RegField := ⟨0x0C0108 + 0x40 * (i % 4), 13, 1⟩
abbrev CNc_DBT_TDCO (i : Nat) : RegField := ⟨0x0C0108 + 0x40 * (i % 4), 0, 7⟩
abbrev CNc_STATUS_STATE (i : Nat) : RegField := ⟨0x0C010C + 0x40 * (i % 4), 29, 3⟩
abbrev CNc_STATUS_STANDBY (i : Nat) : RegField := ⟨0x0C010C + 0x40 * (i % 4), 28, 1⟩
abbrev CNc_STATUS_RESTRICTED (i : Nat) : RegField := ⟨0x0C010C + 0x40 * (i % 4), 27, 1⟩
abbrev CNc_STATUS_TEC (i : Nat) : RegField := ⟨0x0C010C + 0x40 * (i % 4), 8, 9⟩
abbrev CNc_STATUS_REC (i : Nat) : RegField := ⟨0x0C010C + 0x40 * (i % 4), 0, 8⟩
abbrev CNc_QFILT_IDE (i : Nat) : RegField := ⟨0x0C0120 + 0x40 * (i % 4), 29, 1⟩
abbrev CNc_QFILT_ID (i : Nat) : RegField := ⟨0x0C0120 + 0x40 * (i % 4), 0, 29⟩
abbrev CNc_QMASK_IDE (i : Nat) : RegField := ⟨0x0C0124 + 0x40 * (i % 4), 29, 1⟩
abbrev CNc_QMASK_ID (i : Nat) : RegField := ⟨0x0C0124 + 0x40 * (i % 4), 0, 29⟩
abbrev CNc_RX_COUNTS_LOST (i : Nat) : RegField := ⟨0x0C0130 + 0x40 * (i % 4), 16, 16⟩
abbrev CNc_RX_COUNTS_CRC (i : Nat) : RegField := ⟨0x0C0130 + 0x40 * (i % 4), 0, 16⟩
abbrev STR_CTRL_PRIO_EN : RegField := ⟨0x0D0000, 1, 1⟩
abbrev STR_CTRL_LIVE_EN : RegField := ⟨0x0D0000, 0, 1⟩
abbrev STR_STATE_STATE : RegField := ⟨0x0D0004, 28, 4⟩
abbrev STR_STATE_RECOVERED : RegField := ⟨0x0D0004, 27, 1⟩
abbrev STR_EVENT_MEM_ERR : RegField := ⟨0x0D0008, 6, 1⟩
abbrev STR_EVENT_CRC_BAD : RegField := ⟨0x0D0008, 5, 1⟩
abbrev STR_EVENT_DRAIN_SKIP : RegField := ⟨0x0D0008, 4, 1⟩
abbrev STR_EVENT_HOLD_FULL : RegField := ⟨0x0D0008, 3, 1⟩
abbrev STR_EVENT_EXPIRED : RegField := ⟨0x0D0008, 2, 1⟩
abbrev STR_EVENT_FREEZE : RegField := ⟨0x0D0008, 1, 1⟩
abbrev STR_EVENT_LOST : RegField := ⟨0x0D0008, 0, 1⟩
abbrev STR_IRQ_EN_MEM_ERR : RegField := ⟨0x0D000C, 6, 1⟩
abbrev STR_IRQ_EN_CRC_BAD : RegField := ⟨0x0D000C, 5, 1⟩
abbrev STR_IRQ_EN_DRAIN_SKIP : RegField := ⟨0x0D000C, 4, 1⟩
abbrev STR_IRQ_EN_HOLD_FULL : RegField := ⟨0x0D000C, 3, 1⟩
abbrev STR_IRQ_EN_EXPIRED : RegField := ⟨0x0D000C, 2, 1⟩
abbrev STR_IRQ_EN_FREEZE : RegField := ⟨0x0D000C, 1, 1⟩
abbrev STR_IRQ_EN_LOST : RegField := ⟨0x0D000C, 0, 1⟩
abbrev STR_CLOSE_CALL_COUNT : RegField := ⟨0x0D0010, 0, 16⟩
abbrev STR_CMD_OP : RegField := ⟨0x0D0014, 28, 4⟩
abbrev STR_RESULT_BUSY : RegField := ⟨0x0D0018, 31, 1⟩
abbrev STR_RESULT_STATUS : RegField := ⟨0x0D0018, 0, 16⟩
abbrev STR_FREEZE_CFG_FREEZE_MAX : RegField := ⟨0x0D001C, 0, 10⟩
abbrev STR_HEAD_INDEX : RegField := ⟨0x0D0020, 0, 22⟩
abbrev STR_FROZEN_HEAD_INDEX : RegField := ⟨0x0D0028, 0, 22⟩
abbrev STR_COUNTS_LOST : RegField := ⟨0x0D0030, 16, 16⟩
abbrev STR_COUNTS_SUPPRESSED : RegField := ⟨0x0D0030, 0, 16⟩
abbrev STR_DRAIN_SKIP_COUNT : RegField := ⟨0x0D0034, 0, 16⟩
abbrev STR_CRC_BAD_COUNT : RegField := ⟨0x0D0038, 0, 16⟩
abbrev STR_HOLD_USED_COUNT : RegField := ⟨0x0D003C, 0, 17⟩
abbrev STR_RL_SEL_CODE : RegField := ⟨0x0D0040, 0, 12⟩
abbrev STR_RL_CFG_RATE : RegField := ⟨0x0D0044, 16, 16⟩
abbrev STR_RL_CFG_BURST : RegField := ⟨0x0D0044, 8, 8⟩
abbrev STR_RL_CFG_PRIO : RegField := ⟨0x0D0044, 7, 1⟩
abbrev STR_RL_STATE_SUPPR : RegField := ⟨0x0D0048, 16, 16⟩
abbrev STR_RL_STATE_AVAIL : RegField := ⟨0x0D0048, 8, 8⟩
abbrev STR_READ_IDX_INDEX : RegField := ⟨0x0D0050, 0, 22⟩
abbrev STR_HOST_CODE_CODE : RegField := ⟨0x0D0080, 0, 12⟩
abbrev CLK_CTRL_SYNC_EN : RegField := ⟨0x0E0000, 0, 1⟩
abbrev CLK_STATUS_OSF : RegField := ⟨0x0E0004, 31, 1⟩
abbrev CLK_STATUS_TRUSTED : RegField := ⟨0x0E0004, 30, 1⟩
abbrev CLK_STATUS_REGS_VALID : RegField := ⟨0x0E0004, 29, 1⟩
abbrev CLK_STATUS_ON_BACKUP : RegField := ⟨0x0E0004, 28, 1⟩
abbrev CLK_STATUS_CELL_LOW : RegField := ⟨0x0E0004, 27, 1⟩
abbrev CLK_EVENT_CAL_INVALID : RegField := ⟨0x0E0008, 4, 1⟩
abbrev CLK_EVENT_CELL_LOW : RegField := ⟨0x0E0008, 3, 1⟩
abbrev CLK_EVENT_SET : RegField := ⟨0x0E0008, 2, 1⟩
abbrev CLK_EVENT_RETENTION : RegField := ⟨0x0E0008, 1, 1⟩
abbrev CLK_EVENT_OSF : RegField := ⟨0x0E0008, 0, 1⟩
abbrev CLK_IRQ_EN_CAL_INVALID : RegField := ⟨0x0E000C, 4, 1⟩
abbrev CLK_IRQ_EN_CELL_LOW : RegField := ⟨0x0E000C, 3, 1⟩
abbrev CLK_IRQ_EN_SET : RegField := ⟨0x0E000C, 2, 1⟩
abbrev CLK_IRQ_EN_RETENTION : RegField := ⟨0x0E000C, 1, 1⟩
abbrev CLK_IRQ_EN_OSF : RegField := ⟨0x0E000C, 0, 1⟩
abbrev CLK_COUNT_HI_TICKS : RegField := ⟨0x0E0014, 0, 16⟩
abbrev CLK_SET_HI_TICKS : RegField := ⟨0x0E001C, 0, 16⟩
abbrev CLK_TRIM_TRIM : RegField := ⟨0x0E0028, 0, 16⟩
abbrev CLK_CELL_MV : RegField := ⟨0x0E0030, 0, 16⟩
abbrev CLK_CMD_OP : RegField := ⟨0x0E0034, 28, 4⟩
abbrev CLK_RESULT_BUSY : RegField := ⟨0x0E0038, 31, 1⟩
abbrev CLK_RESULT_STATUS : RegField := ⟨0x0E0038, 0, 16⟩
abbrev MPU_CTRL_LOCKED : RegField := ⟨0x0F0000, 0, 1⟩
abbrev MPU_CMD_OP : RegField := ⟨0x0F0008, 28, 4⟩
abbrev MPU_RESULT_BUSY : RegField := ⟨0x0F000C, 31, 1⟩
abbrev MPU_RESULT_STATUS : RegField := ⟨0x0F000C, 0, 16⟩
abbrev MPU_EVENT_ECC_UNCORR : RegField := ⟨0x0F0010, 2, 1⟩
abbrev MPU_EVENT_COMMITTED : RegField := ⟨0x0F0010, 1, 1⟩
abbrev MPU_EVENT_DENIED : RegField := ⟨0x0F0010, 0, 1⟩
abbrev MPU_IRQ_EN_ECC_UNCORR : RegField := ⟨0x0F0014, 2, 1⟩
abbrev MPU_IRQ_EN_COMMITTED : RegField := ⟨0x0F0014, 1, 1⟩
abbrev MPU_IRQ_EN_DENIED : RegField := ⟨0x0F0014, 0, 1⟩
abbrev MPU_STG_SEL_PAINT : RegField := ⟨0x0F0018, 31, 1⟩
abbrev MPU_STG_SEL_MASTER : RegField := ⟨0x0F0018, 8, 4⟩
abbrev MPU_STG_SEL_ENTRY : RegField := ⟨0x0F0018, 0, 5⟩
abbrev MPU_STG_MCFG_COLOUR_MASK : RegField := ⟨0x0F0028, 16, 16⟩
abbrev MPU_STG_MCFG_COLOUR : RegField := ⟨0x0F0028, 0, 4⟩
abbrev MEM_ECC_UNCORR : RegField := ⟨0x0F0040, 16, 16⟩
abbrev MEM_ECC_CORR : RegField := ⟨0x0F0040, 0, 16⟩
abbrev MEM_ECC_ADDR_HI_ADDR : RegField := ⟨0x0F0048, 0, 4⟩
abbrev MPU_DENY_COUNTm_COUNT (i : Nat) : RegField := ⟨0x0F0100 + 0x4 * (i % 10), 0, 16⟩
abbrev MBX_CTRL_BIND_LOCK : RegField := ⟨0x100000, 0, 1⟩
abbrev MBX_EV_DBL_MB : RegField := ⟨0x100004, 0, 24⟩
abbrev MBX_EV_ACK_MB : RegField := ⟨0x100008, 0, 24⟩
abbrev MBX_EV_RX_MB : RegField := ⟨0x10000C, 0, 24⟩
abbrev MBX_IRQ_EN_DBL_MB : RegField := ⟨0x100010, 0, 24⟩
abbrev MBX_IRQ_EN_ACK_MB : RegField := ⟨0x100014, 0, 24⟩
abbrev MBX_IRQ_EN_RX_MB : RegField := ⟨0x100018, 0, 24⟩
abbrev MBXm_BIND_EN (i : Nat) : RegField := ⟨0x100100 + 0x20 * (i % 24), 31, 1⟩
abbrev MBXm_BIND_END0 (i : Nat) : RegField := ⟨0x100100 + 0x20 * (i % 24), 20, 4⟩
abbrev MBXm_BIND_END1 (i : Nat) : RegField := ⟨0x100100 + 0x20 * (i % 24), 16, 4⟩
abbrev MBXm_BIND_DBL_TAG (i : Nat) : RegField := ⟨0x100100 + 0x20 * (i % 24), 0, 16⟩
abbrev MBXm_ACK_NEW (i : Nat) : RegField := ⟨0x100110 + 0x20 * (i % 24), 31, 1⟩
abbrev MBXm_ACK_OVERRUN (i : Nat) : RegField := ⟨0x100110 + 0x20 * (i % 24), 30, 1⟩
abbrev MBXm_ACK_CODE (i : Nat) : RegField := ⟨0x100110 + 0x20 * (i % 24), 0, 16⟩
abbrev MBXm_STATUS_END (i : Nat) : RegField := ⟨0x100114 + 0x20 * (i % 24), 31, 1⟩
abbrev MBXm_STATUS_COLLISION_IN (i : Nat) : RegField := ⟨0x100114 + 0x20 * (i % 24), 30, 1⟩
abbrev MBXm_STATUS_COLLISION_OUT (i : Nat) : RegField := ⟨0x100114 + 0x20 * (i % 24), 29, 1⟩
abbrev MBXm_STATUS_RX_COUNT (i : Nat) : RegField := ⟨0x100114 + 0x20 * (i % 24), 20, 4⟩
abbrev MBXm_STATUS_TX_COUNT (i : Nat) : RegField := ⟨0x100114 + 0x20 * (i % 24), 16, 4⟩
abbrev MBXm_STATUS_LAST (i : Nat) : RegField := ⟨0x100114 + 0x20 * (i % 24), 0, 16⟩
abbrev MBX_LOCK_HOLDER (i : Nat) : RegField := ⟨0x100800 + 0x4 * (i % 64), 8, 4⟩
abbrev MBX_LOCK_ACQUIRED (i : Nat) : RegField := ⟨0x100800 + 0x4 * (i % 64), 0, 1⟩
abbrev QUEq_BASE_LO_ADDR (i : Nat) : RegField := ⟨0x130100 + 0x20 * (i % 64), 6, 26⟩
abbrev QUEq_BASE_HI_ADDR (i : Nat) : RegField := ⟨0x130104 + 0x20 * (i % 64), 0, 4⟩
abbrev QUEq_CFG_ENTRIES_LOG2 (i : Nat) : RegField := ⟨0x130108 + 0x20 * (i % 64), 16, 4⟩
abbrev QUEq_CFG_SLOT_LOG2 (i : Nat) : RegField := ⟨0x130108 + 0x20 * (i % 64), 8, 4⟩
abbrev QUEq_CFG_THRESH (i : Nat) : RegField := ⟨0x130108 + 0x20 * (i % 64), 0, 8⟩
abbrev QUEq_HEAD_INDEX (i : Nat) : RegField := ⟨0x13010C + 0x20 * (i % 64), 0, 16⟩
abbrev QUEq_TAIL_INDEX (i : Nat) : RegField := ⟨0x130110 + 0x20 * (i % 64), 0, 16⟩
abbrev QUEq_COUNTS_DROP (i : Nat) : RegField := ⟨0x130114 + 0x20 * (i % 64), 16, 16⟩
abbrev QUEq_COUNTS_OVERRUN (i : Nat) : RegField := ⟨0x130114 + 0x20 * (i % 64), 0, 16⟩
abbrev QUEq_STATUS_ENABLED (i : Nat) : RegField := ⟨0x130118 + 0x20 * (i % 64), 31, 1⟩
abbrev QUEq_STATUS_MODULE_CFG (i : Nat) : RegField := ⟨0x130118 + 0x20 * (i % 64), 30, 1⟩
abbrev QUEq_STATUS_LAST_ERR (i : Nat) : RegField := ⟨0x130118 + 0x20 * (i % 64), 29, 1⟩
abbrev QUEq_STATUS_FILL (i : Nat) : RegField := ⟨0x130118 + 0x20 * (i % 64), 0, 17⟩
abbrev LCY_STATE_STATE : RegField := ⟨0x110000, 28, 4⟩
abbrev LCY_STATE_KEY0 : RegField := ⟨0x110000, 27, 1⟩
abbrev LCY_STATE_KEY1 : RegField := ⟨0x110000, 26, 1⟩
abbrev LCY_STATE_REVOKED0 : RegField := ⟨0x110000, 25, 1⟩
abbrev LCY_STATE_REVOKED1 : RegField := ⟨0x110000, 24, 1⟩
abbrev LCY_STATE_ERASING : RegField := ⟨0x110000, 23, 1⟩
abbrev LCY_CMD_OP : RegField := ⟨0x110004, 28, 4⟩
abbrev LCY_CMD_TARGET : RegField := ⟨0x110004, 8, 8⟩
abbrev LCY_CMD_CONFIRM : RegField := ⟨0x110004, 0, 8⟩
abbrev LCY_RESULT_BUSY : RegField := ⟨0x110008, 31, 1⟩
abbrev LCY_RESULT_STATUS : RegField := ⟨0x110008, 0, 16⟩
abbrev LCY_EVENT_SCAN_REFUSED : RegField := ⟨0x11000C, 3, 1⟩
abbrev LCY_EVENT_DBG : RegField := ⟨0x11000C, 2, 1⟩
abbrev LCY_EVENT_REFUSED : RegField := ⟨0x11000C, 1, 1⟩
abbrev LCY_EVENT_STATE : RegField := ⟨0x11000C, 0, 1⟩
abbrev LCY_IRQ_EN_SCAN_REFUSED : RegField := ⟨0x110010, 3, 1⟩
abbrev LCY_IRQ_EN_DBG : RegField := ⟨0x110010, 2, 1⟩
abbrev LCY_IRQ_EN_REFUSED : RegField := ⟨0x110010, 1, 1⟩
abbrev LCY_IRQ_EN_STATE : RegField := ⟨0x110010, 0, 1⟩
abbrev LCY_CLOSE_CALL_COUNT : RegField := ⟨0x110014, 0, 16⟩
abbrev LCY_DBG_CFG_SCAN_EN : RegField := ⟨0x11002C, 31, 1⟩
abbrev LCY_DBG_CFG_WINDOW : RegField := ⟨0x11002C, 0, 12⟩
abbrev LCY_DBG_STATUS_OPEN : RegField := ⟨0x110030, 31, 1⟩
abbrev LCY_DBG_STATUS_SCAN_OPEN : RegField := ⟨0x110030, 30, 1⟩
abbrev LCY_DBG_STATUS_DBG_DENY : RegField := ⟨0x110030, 29, 1⟩
abbrev LCY_DBG_STATUS_CAUSE : RegField := ⟨0x110030, 28, 1⟩
abbrev LCY_DBG_STATUS_FAILS : RegField := ⟨0x110030, 26, 2⟩
abbrev LCY_DBG_STATUS_REMAIN : RegField := ⟨0x110030, 0, 12⟩
abbrev LCY_DBG_DENY_HI_ADDR : RegField := ⟨0x110038, 0, 4⟩
abbrev LCY_ERASE_PERCENT : RegField := ⟨0x110040, 0, 8⟩
abbrev FWU_STATE_RUN_SLOT : RegField := ⟨0x120000, 31, 1⟩
abbrev FWU_STATE_OTHER_VALID : RegField := ⟨0x120000, 30, 1⟩
abbrev FWU_STATE_TRIAL : RegField := ⟨0x120000, 29, 1⟩
abbrev FWU_STATE_HEALTH_OK : RegField := ⟨0x120000, 28, 1⟩
abbrev FWU_STATE_CFG_OLD : RegField := ⟨0x120000, 27, 1⟩
abbrev FWU_STATE_PROGRAMMING : RegField := ⟨0x120000, 26, 1⟩
abbrev FWU_CMD_OP : RegField := ⟨0x120004, 28, 4⟩
abbrev FWU_CMD_FULL : RegField := ⟨0x120004, 27, 1⟩
abbrev FWU_RESULT_BUSY : RegField := ⟨0x120008, 31, 1⟩
abbrev FWU_RESULT_STATUS : RegField := ⟨0x120008, 0, 16⟩
abbrev FWU_EVENT_FALLBACK : RegField := ⟨0x12000C, 3, 1⟩
abbrev FWU_EVENT_HEALTH_OK : RegField := ⟨0x12000C, 2, 1⟩
abbrev FWU_EVENT_ACTIVATED : RegField := ⟨0x12000C, 1, 1⟩
abbrev FWU_EVENT_REFUSED : RegField := ⟨0x12000C, 0, 1⟩
abbrev FWU_IRQ_EN_FALLBACK : RegField := ⟨0x120010, 3, 1⟩
abbrev FWU_IRQ_EN_HEALTH_OK : RegField := ⟨0x120010, 2, 1⟩
abbrev FWU_IRQ_EN_ACTIVATED : RegField := ⟨0x120010, 1, 1⟩
abbrev FWU_IRQ_EN_REFUSED : RegField := ⟨0x120010, 0, 1⟩
abbrev FWU_CLOSE_CALL_COUNT : RegField := ⟨0x120014, 0, 16⟩
abbrev FWU_CFG_TRIAL_WIN : RegField := ⟨0x120018, 0, 17⟩
abbrev FWU_CFG_FORMAT_PREVIOUS : RegField := ⟨0x120028, 16, 16⟩
abbrev FWU_CFG_FORMAT_CURRENT : RegField := ⟨0x120028, 0, 16⟩
abbrev FWU_PAUSE_SKIPPED : RegField := ⟨0x12002C, 16, 16⟩
abbrev FWU_PAUSE_US : RegField := ⟨0x12002C, 0, 16⟩
abbrev FWU_COUNTS_ACTIVATIONS : RegField := ⟨0x120030, 16, 16⟩
abbrev FWU_COUNTS_FALLBACKS : RegField := ⟨0x120030, 0, 16⟩
abbrev MOD_ID_PART : RegField := ⟨0x000000, 16, 16⟩
abbrev MOD_ID_VARIANT : RegField := ⟨0x000000, 12, 4⟩
abbrev MOD_ID_HW_REV : RegField := ⟨0x000000, 8, 4⟩
abbrev MOD_STATUS_SID : RegField := ⟨0x000004, 30, 2⟩
abbrev MOD_STATUS_SEATED : RegField := ⟨0x000004, 29, 1⟩
abbrev MOD_STATUS_LEVER : RegField := ⟨0x000004, 28, 1⟩
abbrev MOD_STATUS_FEED_A_OK : RegField := ⟨0x000004, 27, 1⟩
abbrev MOD_STATUS_FEED_B_OK : RegField := ⟨0x000004, 26, 1⟩
abbrev MOD_STATUS_REMOVE_READY : RegField := ⟨0x000004, 25, 1⟩
abbrev MOD_STATUS_CFG_OK : RegField := ⟨0x000004, 24, 1⟩
abbrev MOD_STATUS_PROGRAM_OK : RegField := ⟨0x000004, 23, 1⟩
abbrev MOD_STATUS_START_DONE : RegField := ⟨0x000004, 22, 1⟩
abbrev MOD_RESET_CAUSE_CAUSE : RegField := ⟨0x000008, 28, 4⟩
abbrev MOD_RESET_CAUSE_STARTS : RegField := ⟨0x000008, 0, 16⟩
abbrev MOD_FEED_FEED_B : RegField := ⟨0x00000C, 16, 16⟩
abbrev MOD_FEED_FEED_A : RegField := ⟨0x00000C, 0, 16⟩
abbrev MOD_TEMP_TEMP : RegField := ⟨0x000010, 0, 16⟩
abbrev MOD_EVENT_REMOVE : RegField := ⟨0x000014, 2, 1⟩
abbrev MOD_EVENT_SID : RegField := ⟨0x000014, 1, 1⟩
abbrev MOD_EVENT_FEED : RegField := ⟨0x000014, 0, 1⟩
abbrev MOD_IRQ_EN_REMOVE : RegField := ⟨0x000018, 2, 1⟩
abbrev MOD_IRQ_EN_SID : RegField := ⟨0x000018, 1, 1⟩
abbrev MOD_IRQ_EN_FEED : RegField := ⟨0x000018, 0, 1⟩
abbrev MOD_CLOSE_CALL_COUNT : RegField := ⟨0x00001C, 0, 16⟩
abbrev SUP_PWR_CMD_TARGET : RegField := ⟨0x010000, 0, 4⟩
abbrev SUP_PWR_STATE_STATE : RegField := ⟨0x010004, 28, 4⟩
abbrev SUP_PWR_STATE_TARGET : RegField := ⟨0x010004, 24, 4⟩
abbrev SUP_PWR_STATE_BUSY : RegField := ⟨0x010004, 23, 1⟩
abbrev SUP_PWR_STATE_EBB : RegField := ⟨0x010004, 22, 1⟩
abbrev SUP_PWR_STATE_MODULE_FAULT : RegField := ⟨0x010004, 21, 1⟩
abbrev SUP_PWR_STATE_LAST : RegField := ⟨0x010004, 0, 16⟩
abbrev SUP_CMD_OP : RegField := ⟨0x010008, 28, 4⟩
abbrev SUP_CMD_CONFIRM : RegField := ⟨0x010008, 8, 8⟩
abbrev SUP_CMD_TARGET : RegField := ⟨0x010008, 0, 4⟩
abbrev SUP_RESULT_BUSY : RegField := ⟨0x01000C, 31, 1⟩
abbrev SUP_RESULT_STATUS : RegField := ⟨0x01000C, 0, 16⟩
abbrev SUP_REGIONS_TI_BANK : RegField := ⟨0x010010, 8, 1⟩
abbrev SUP_REGIONS_FALLBACK : RegField := ⟨0x010010, 0, 6⟩
abbrev SUP_EVENT_MODULE : RegField := ⟨0x010014, 3, 1⟩
abbrev SUP_EVENT_FALLBACK : RegField := ⟨0x010014, 2, 1⟩
abbrev SUP_EVENT_REFUSED : RegField := ⟨0x010014, 1, 1⟩
abbrev SUP_EVENT_STATE : RegField := ⟨0x010014, 0, 1⟩
abbrev SUP_IRQ_EN_MODULE : RegField := ⟨0x010018, 3, 1⟩
abbrev SUP_IRQ_EN_FALLBACK : RegField := ⟨0x010018, 2, 1⟩
abbrev SUP_IRQ_EN_REFUSED : RegField := ⟨0x010018, 1, 1⟩
abbrev SUP_IRQ_EN_STATE : RegField := ⟨0x010018, 0, 1⟩

end Sys2Proof.Machine.Fld
end

