-- ==== Sys2Proof/Machine/Sparse.lean ====
section
/-! DEFINITION. Sparse data in one canonical form: a list of key and value pairs with rising keys that
lists no entry equal to what an unlisted key reads as. Memory, the register file and every table of
the model are kept so; equal tables are then equal data. -/
namespace Sys2Proof.Machine.Sparse

variable {α : Type}

/-- The entry at a key, if one is listed. -/
def find (m : List (Nat × α)) (k : Nat) : Option α :=
  match m with
  | [] => none
  | (k', v) :: t => if k = k' then some v else find t k

/-- The value at a key; `d` says what an unlisted key reads as. -/
def get (d : Nat → α) (m : List (Nat × α)) (k : Nat) : α := (find m k).getD (d k)

/-- Remove a key. -/
def erase (m : List (Nat × α)) (k : Nat) : List (Nat × α) :=
  match m with
  | [] => []
  | (k', v) :: t => if k = k' then erase t k else (k', v) :: erase t k

/-- Insert at its place, replacing what is listed there. -/
def insert (m : List (Nat × α)) (k : Nat) (v : α) : List (Nat × α) :=
  match m with
  | [] => [(k, v)]
  | (k', v') :: t =>
    if k < k' then (k, v) :: (k', v') :: t
    else if k = k' then (k, v) :: t
    else (k', v') :: insert t k v

/-- Set the value at a key: writing what an unlisted key reads as removes the entry. -/
def set [DecidableEq α] (d : Nat → α) (m : List (Nat × α)) (k : Nat) (v : α) : List (Nat × α) :=
  if v = d k then erase m k else insert m k v

/-- The keys rise strictly from above `lo`, and no entry equals what an unlisted key reads as. -/
def wfFrom [DecidableEq α] (d : Nat → α) (lo : Option Nat) : List (Nat × α) → Bool
  | [] => true
  | (k, v) :: t => (match lo with | none => true | some l => decide (l < k)) && decide (v ≠ d k) && wfFrom d (some k) t

/-- The canonical form. -/
def wf [DecidableEq α] (d : Nat → α) (m : List (Nat × α)) : Bool := wfFrom d none m

end Sys2Proof.Machine.Sparse
end

