-- ==== Sys2Proof/Machine/State.lean ====
section
/-! DEFINITION. The state of the module: every register, buffer, counter, mode and pin the spec gives it,
as plain data, with the queue of waiting commands; the reasons a step can stop; and reset. Tables and
memories are sparse lists in the canonical form of `Sparse`. Registers of the control window live in
`regs`, by address, except where a field below holds the same bits and the register is computed from
it (`State.view`). -/
namespace Sys2Proof.Machine

/-- Reasons a step stops with a fault. The model has none of its own: every command has an effect. -/
inductive Fault where
  /-- A DRAM, SRAM, trace, step or flash address outside every range of Table MEM-1 reached a memory
  operation; raised by no meaning (the checks of R600 come first). Safe. -/
  | noMemory
  deriving DecidableEq, Repr

/-- Reasons a step refuses a command. -/
inductive Refusal where
  /-- The command has no meaning in the model; raised by the arms of `exec` that have none. Safe. -/
  | notModelled (mnemonic : String)
  deriving DecidableEq, Repr

/-- State of a tide (Table TIDE-4). -/
inductive TideState where
  | disabled | acquire | locked | holdover | lost | fault
  deriving DecidableEq, Repr

/-- An accepted measurement that waits for the tide's update slot (R120, R121): the reference angle
and its stamp in ns, the signed error where R114 gives it directly, and for a mains crossing the
interval from the one before it, in ns. -/
structure TidePend where
  phi : Word
  tk : Nat
  err : Option Int := none
  interval : Option Nat := none
  deriving DecidableEq, Repr

/-- One tide: its tracker and the counts of Tables TIDE-4 and TIDE-5. -/
structure Tide where
  st : TideState := .disabled
  /-- TURN, ANGLE and the 32 fraction bits of theta (R101, R120). -/
  pos : BitVec 96 := 0
  /-- Tracker frequency in 2^-32 counts per CD_FABRIC cycle (R120). -/
  omega : Int := 0
  /-- Frequency at the last accepted measurements, newest first, at most eight (R124). -/
  hist : List Int := []
  lockCnt : Nat := 0
  unlockCnt : Nat := 0
  relockCnt : Nat := 0
  missCnt : Nat := 0
  /-- The next accepted measurement is the first after enable or RESYNC (R122). -/
  fresh : Bool := false
  /-- It is the first after RESYNC, at which the tide jumps (Table TIDE-9). -/
  resync : Bool := false
  /-- Crossings accepted since enable or RESYNC (R107, R122). -/
  crossings : Nat := 0
  pend : Option TidePend := none
  /-- Stamp of the last accepted crossing, and whether crossings were missed or rejected since (R106). -/
  lastCross : Option Nat := none
  skipped : Bool := false
  /-- Expected crossing angle (R107). -/
  expect : Word := 0
  /-- Position within the turn (Table TIDE-3). -/
  p : Nat := 0
  indexSeen : Bool := false
  hadEdge : Bool := false
  edgeNs : Nat := 0
  /-- The present 1 µs interval is rejected (R110, R115). -/
  reject : Bool := false
  /-- Time of entry into HOLDOVER (R124). -/
  holdNs : Nat := 0
  deriving DecidableEq, Repr

/-- A tide-table entry: words W0 to W7 (Table TIDE-24), and whether a comparator holds it (R136). -/
structure TTEntry where
  w0 : Word := 0
  w1 : Word := 0
  w2 : Word := 0
  w3 : Word := 0
  w4 : Word := 0
  w5 : Word := 0
  w6 : Word := 0
  w7 : Word := 0x400
  armed : Bool := false
  /-- The scanner found a missed crossing that fires in the next cycle (R138): forward or backward. -/
  late : Option Bool := none
  /-- The ANGLE at which it fired since the scanner's last visit: crossings count from there (R138). -/
  firedAt : Option Word := none
  deriving DecidableEq, Repr

/-- The tide-table writer of a tide-capable output (R143 to R147). -/
structure TTOut where
  value : Bool := false
  /-- CD_FABRIC cycle of a pending trailing edge. -/
  trailing : Option Nat := none
  /-- Placement of the last edge, in 250 ps steps after the start of its cycle. -/
  placed : Nat := 0
  lineFailed : Bool := false
  /-- An EDGE fired in the shadow while a takeover was due (R162). -/
  shadow : Bool := false
  deriving DecidableEq, Repr

/-- Commands of a sequencer (Table TIDE-29). -/
inductive SeqCmd where
  | start (step : Nat)
  | hold
  | resume
  | abort
  | jump (step : Nat)
  deriving DecidableEq, Repr

/-- State of a sequencer (R157). -/
inductive SeqState where
  | idle | run | held | done | fault
  deriving DecidableEq, Repr

/-- A step sequencer (R148 to R165); times in ns of the execution time base. -/
structure Seq where
  st : SeqState := .idle
  step : Nat := 0
  /-- Working registers: the 16 words of the step copied at entry (R149). -/
  work : List Word := []
  nominal : Int := 0
  actual : Int := 0
  startPos : DWord := 0
  /-- Time HELD in the step, and the instant and position of the present HOLD (R157). -/
  heldNs : Nat := 0
  heldAt : Option (Nat × DWord) := none
  signals : Byte := 0
  last : Byte := 0
  cmds : List SeqCmd := []
  mirrorOk : Bool := false
  mirror : Option SeqMirror := none
  /-- Instant and tide position at the arrival of the mirror record. -/
  mirrorAt : Nat × DWord := (0, 0)
  deriving DecidableEq, Repr

/-- A tag value with its flags, as an input image holds it (R179, R180). -/
structure Sample where
  val : DWord := 0
  stale : Bool := false
  invalid : Bool := false
  deriving DecidableEq, Repr

/-- Phase of a task (Table EXE-16, TASKt_STATUS.STATE); `ready` is a latched task whose program phase has
not begun. -/
inductive TaskPhase where
  | idle | latch | ready | run | preempted | commit
  deriving DecidableEq, Repr

/-- What a task waits on (R256, R258): a drain; the drain of the rules of an epoch; the answer of a block with the result it will write, where an ordered
instruction waits for the drain too; or a REPLAY record (R478), with whether its end is a commit point. -/
inductive Wait where
  | none
  | fence
  | rules (epoch : Word)
  | block (rd : Fin 64) (val : DWord) (z : Option Bool) (tov ordered : Bool)
  | replay (rd : Fin 64) (point : Bool)
  deriving DecidableEq, Repr

/-- The flags word (Table KQ-1). -/
structure Flags where
  z : Bool := false
  n : Bool := false
  ov : Bool := false
  dz : Bool := false
  nv : Bool := false
  tov : Bool := false
  deriving DecidableEq, Repr

/-- A release that waits: until 100 µs after the previous one (R174), or for the end of a slack action, with its
crossing instant in ns (R185). -/
inductive Held where
  | no
  | gap
  | slack (at_ : Nat)
  deriving DecidableEq, Repr

/-- One task at run time (R169 to R182, R222 to R224). -/
structure Task where
  phase : TaskPhase := .idle
  /-- General registers k1 to k63 where not zero. -/
  k : List (Nat × DWord) := []
  flags : Flags := {}
  pc : Nat := 0
  stack : List Nat := []
  wait : Wait := .none
  /-- Next release angle (R173); none until the first crossing takes TASKt_ANGLE of the image. -/
  angle : Option Word := none
  freerun : Bool := false
  pending : Bool := false
  held : Held := .no
  released : Bool := false
  lastRelease : Nat := 0
  interval : Nat := 0
  cycleTime : Nat := 0
  /-- Completed cycles, and the commit counters of the image headers (R604). -/
  cycles : Nat := 0
  inHdr : Word := 0
  outHdr : Word := 0
  /-- Local input cells as snapshot at the release, and the input image (R179, R180), by tag. -/
  snap : List (Nat × Sample) := []
  input : List (Nat × Sample) := []
  output : List (Nat × DWord) := []
  /-- Commit points since the release (R258). -/
  points : Nat := 0
  deriving DecidableEq, Repr

/-- A remote station at run time (R195 to R198). -/
structure Station where
  answered : Bool := false
  staleCount : Nat := 0
  stale : Bool := false
  invalid : Bool := false
  deriving DecidableEq, Repr

/-- Phase of an online change (Table EXE-13). -/
inductive ChangePhase where
  | none | verified | armed | swapped
  deriving DecidableEq, Repr

/-- Operation of an online change that is under way. -/
inductive ChangeBusy where
  | none | verify | values | swap | revert | apply
  deriving DecidableEq, Repr

/-- A timer instance (R246). -/
structure Timer where
  run : Bool := false
  start : Nat := 0
  q : Bool := false
  et : Int := 0
  prevIn : Bool := false
  deriving DecidableEq, Repr

/-- A counter instance (R248). -/
structure Counter where
  cv : DWord := 0
  prev : List Bool := []
  inited : Bool := false
  deriving DecidableEq, Repr

/-- An edge-detector entry (R249). -/
structure Edge where
  prev : Bool := false
  init : Bool := false
  deriving DecidableEq, Repr

/-- Execution of the control program (chapters 5 and 6). -/
structure Exe where
  /-- The running image, the one in the inactive area (verified), and the previous one (R215). -/
  image : Option Image := none
  inactive : Option Image := none
  previous : Option Image := none
  area : Bool := false
  phase : ChangePhase := .none
  busy : ChangeBusy := .none
  /-- PHASE before the VERIFY under way (R204). -/
  savedPhase : ChangePhase := .none
  needUs : Nat := 0
  tasks : List (Nat × Task) := []
  /-- The task whose program phase the triad runs (R171). -/
  running : Option Nat := none
  stations : List (Nat × Station) := []
  /-- Force table by entry: tag and value (R191). -/
  forces : List (Nat × Nat × DWord) := []
  /-- Tag memory, by 8-byte slot (Table MEM-3). -/
  tagMem : List (Nat × DWord) := []
  /-- Last received value of a remote tag, and the value a program-class writer presents (R179, R183), by tag. -/
  remote : List (Nat × DWord) := []
  committed : List (Nat × DWord) := []
  /-- STALE and INVALID of tags that a block writes, by tag (R187). -/
  flags : List (Nat × Sample) := []
  timers : List (Nat × Timer) := []
  counters : List (Nat × Counter) := []
  edges : List (Nat × Edge) := []
  /-- The values-only change list: tag or constant entries of Table EXE-7, four words each. -/
  list : List (Nat × Word) := []
  /-- The checked list that waits for its slack: kind, index and value (R216). -/
  values : List (Nat × Nat × DWord) := []
  /-- Start of the present slack, in ns (R184). -/
  slackSince : Nat := 0
  /-- Execution time base minus the ns since module reset; a standby side takes its partner's base (R181, R481). -/
  base : Int := 0
  deriving DecidableEq, Repr


/-- Mode of a loop slot (Table LOOP-3). -/
inductive LoopMode where
  | off | manual | auto | cascade | track
  deriving DecidableEq, Repr

/-- Fallback action of a loop slot (Table LOOP-4). -/
inductive FbAction where
  | hold | safe | manual | backup
  deriving DecidableEq, Repr

/-- A write that takes effect at the slot's next evaluation (R272). -/
inductive SlotWrite where
  | sp (v : Word)
  | par (code : Nat) (v : Word)
  | mode (m : LoopMode)
  deriving DecidableEq, Repr

/-- A freeze window (R293): its start in ns, the process value at the start, and the smallest and largest
output since; values are binary64 patterns. -/
structure FrzWin where
  start : Nat
  pv : DWord
  lo : DWord
  hi : DWord
  /-- An earlier evaluation has found FRZ_WIN expired (R294). -/
  expired : Bool := false
  deriving DecidableEq, Repr

/-- What a member of an override group leaves for the selection (R289 to R291), in binary64. -/
structure LoopCand where
  cand : DWord
  u : DWord
  /-- p + d + ff, and the integral step. -/
  pdf : DWord
  di : DWord
  eligible : Bool
  /-- Output that the lead's mode gives (R290). -/
  fixed : Option DWord
  /-- The sample interval of the evaluation in s. -/
  ts : DWord
  deriving DecidableEq, Repr

/-- A loop slot (R263 to R308). -/
structure LoopSlot where
  valid : Bool := false
  /-- Descriptor words D0 to D6; empty for seven zeros. -/
  desc : List Word := []
  /-- Parameters by code where they differ from the resets of Table LOOP-2. -/
  par : List (Nat × Word) := []
  mode : LoopMode := .off
  /-- Local setpoint, REAL32. -/
  sp : Word := 0
  /-- Working setpoint and the state of R282, binary64. -/
  wsp : DWord := 0
  i : DWord := 0
  dPrev : DWord := 0
  yPrev : DWord := 0
  outPrev : DWord := 0
  x : DWord := 0
  /-- Terms of the last evaluation with a usable PV: p, d, ff and y. -/
  p : DWord := 0
  d : DWord := 0
  ff : DWord := 0
  y : DWord := 0
  /-- Outputs of earlier evaluations, newest first, at most sixteen (R292). -/
  hist : List DWord := []
  frz : Option FrzWin := none
  bakFrz : Option FrzWin := none
  lostCnt : Nat := 0
  bakCnt : Nat := 0
  resCnt : Nat := 0
  clearCnt : Nat := 0
  fb : Option FbAction := none
  lost : Bool := false
  frozen : Bool := false
  implausible : Bool := false
  bakLost : Bool := false
  satHi : Bool := false
  satLo : Bool := false
  selected : Bool := false
  tracking : Bool := false
  ffInvalid : Bool := false
  intHeld : Bool := false
  upBlocked : Bool := false
  dnBlocked : Bool := false
  forcedOut : Bool := false
  mirrorOk : Bool := false
  /-- A mirror record that replaces state before the next evaluation (R302). -/
  mirror : Option LoopMirror := none
  /-- Low byte of the slot's last status. -/
  last : Byte := 0
  /-- Local cell inputs captured for the next evaluation, by tag (R269, R271). -/
  cap : List (Nat × Sample) := []
  writes : List SlotWrite := []
  /-- The frame evaluates the slot; an event sample is pending (R267, R271). -/
  due : Bool := false
  evt : Bool := false
  /-- The two latest sample instants of an event slot, in ns. -/
  sampleNs : Nat := 0
  samplePrev : Nat := 0
  /-- CD_LOOP time of the frame start of the last evaluation. -/
  clock : Nat := 0
  /-- Module time of the sample instant. -/
  stamp : DWord := 0
  /-- The first evaluation after OFF is to come (R278); the next one takes i from out_prev (R297, R306). -/
  fresh : Bool := false
  rebase : Bool := false
  /-- Trace channels 0 to 15 at the last evaluation (Table LOOP-5). -/
  items : List Word := []
  cand : Option LoopCand := none
  /-- The slot has entered fallback since its last trace record (R301). -/
  fell : Bool := false
  deriving DecidableEq, Repr

/-- A trace buffer's working state (R299 to R301); the rest lies in its registers. -/
structure TraceBuf where
  seq : Nat := 0
  skip : Nat := 0
  /-- Records left after the trigger. -/
  post : Option Nat := none
  /-- The last record is written, and TRACE_DONE is to come. -/
  done : Bool := false
  tagPrev : Bool := false
  deriving DecidableEq, Repr

/-- The loop engine (R263 to R308). -/
structure Loop where
  slots : List (Nat × LoopSlot) := []
  /-- Number of the present frame; none before the first after RUN (R267). -/
  frame : Option Nat := none
  /-- CD_LOOP time of the present frame start, in cycles, and the frame interval of free-running frames. -/
  clock : Nat := 0
  interval : Nat := 18750
  angle : Word := 0
  freerun : Bool := false
  /-- Module time and ns of the present frame start. -/
  stamp : DWord := 0
  ns : Nat := 0
  /-- Evaluations of each lane in the present frame. -/
  load : List Nat := []
  trace : List (Nat × TraceBuf) := []
  /-- Groups with no eligible member (R290), and slot banks whose self-test runs (R306). -/
  ovrNone : List Nat := []
  selfTest : List Nat := []
  /-- Next slot of the round-robin of mirror records (R302). -/
  mirrorNext : Nat := 0
  deriving DecidableEq, Repr


/-- A digital channel (R310 to R324). Times in ns of the execution time base. -/
structure DioCh where
  /-- Synchronised and filtered value of the input stage (R313). -/
  pin : Bool := false
  filt : Bool := false
  /-- The last valid value, which an invalid input delivers (R26). -/
  last : Bool := false
  latched : Bool := false
  /-- DIOn_STATUS.FAULT and SOURCE. -/
  fault : Fin 9 := 0
  source : Nat := 0
  /-- Instant of the trip (R318). -/
  tripNs : Nat := 0
  /-- Invalid by the cell's own checks. -/
  mark : Bool := false
  current : Nat := 0
  /-- Registered arbitration: the arbitrated value, the value presented to the driver, and the winning writer as
  DIO_SRC codes it (R19, Table DIO-6). -/
  arb : Bool := false
  out : Bool := false
  src : Nat := 0
  /-- Last instants at which the presented value rose and fell, and the filtered value rose (R321). -/
  onAt : Option Nat := none
  offAt : Option Nat := none
  roseAt : Option Nat := none
  deriving DecidableEq, Repr

/-- STATE of a DIO bank (Table DIO-9). -/
inductive DioBankState where
  | disabled | on | latchedOff | switchedOff | isolated
  deriving DecidableEq, Repr

/-- A DIO bank (R325 to R332). -/
structure DioBank where
  st : DioBankState := .disabled
  warn : Bool := false
  low : Bool := false
  switch : Bool := false
  reenReady : Bool := false
  /-- The keep-alive has expired and the driver stays off (R332). -/
  silent : Bool := false
  /-- Previous value of the re-enable tag (R329). -/
  reenPrev : Bool := false
  deriving DecidableEq, Repr

/-- A pulse output: the registered value and its writer (R18, R19). -/
structure PoCh where
  out : Bool := false
  src : Nat := 0
  deriving DecidableEq, Repr

/-- A reflex term (R334 to R342). -/
structure Term where
  /-- Words W0 to W15 (Table RFX-1); empty for sixteen zeros. -/
  desc : List Word := []
  latch : Bool := false
  /-- Output of the last CD_FABRIC cycle (R339). -/
  out : Bool := false
  /-- The arm or reset tag was lost in a swap (R342). -/
  lost : Bool := false
  deriving DecidableEq, Repr


/-- Why a HART transaction runs (R371, R373, R375). -/
inductive HartKind where
  | ident | poll | more | host
  deriving DecidableEq, Repr

/-- A HART transaction: its command number, request data and the attempts left (R372). -/
structure HartTxn where
  kind : HartKind
  cmd : Nat
  data : List Byte
  left : Nat
  deriving DecidableEq, Repr

/-- An analog channel (R351 to R376); values are REAL32 patterns. -/
structure AnCh where
  /-- The last valid value, which the cell delivers (R26). -/
  cell : Word := 0
  /-- ANn_STATUS.FAULT; the cell is invalid under it. -/
  fault : Fin 9 := 0
  under : Bool := false
  above : Bool := false
  /-- Invalid until the next conversion inside the limits (R360, R369). -/
  waitConv : Bool := false
  compliance : Bool := false
  /-- Module time of a triggered conversion under way (R359). -/
  conv : Option DWord := none
  /-- Registered arbitration: the winning value, its writer as DIO_SRC codes it, the code and the alarm (R363, R364). -/
  val : Word := 0
  src : Nat := 0
  code : Nat := 0
  alarm : Bool := false
  /-- HART (R371 to R376): the transaction under way and those that wait, failed polls in a row, the long address. -/
  txn : Option HartTxn := none
  waiting : List HartTxn := []
  failed : Nat := 0
  long : List Byte := []
  /-- Instant of the last burst frame (R374). -/
  burstAt : Option Nat := none
  deriving DecidableEq, Repr

/-- An analog bank (R369, R370, Table ANA-7). -/
structure AnBank where
  isolated : Bool := false
  loopLow : Bool := false
  silent : Bool := false
  deriving DecidableEq, Repr


/-- State of a safety output (R388, Table SAF-7). -/
inductive SqState where
  | off | on | tripped | fault
  deriving DecidableEq, Repr

/-- A switch test under way (R399): the switch, and whether the pulse opens it (dark) or closes it (bright). -/
structure SqTest where
  hs : Bool
  dark : Bool
  deriving DecidableEq, Repr

/-- A safety output (R380 to R409). Times in ns of the execution time base. -/
structure SqOut where
  st : SqState := .off
  /-- SQn_STATUS.FAULT. -/
  fault : Fin 5 := 0
  /-- The high-side switch is closed; the two lines to Breakwater (R383). -/
  hs : Bool := false
  lsReq : Bool := false
  lsTest : Bool := false
  test : Option SqTest := none
  /-- An energising waits for the end of a test pulse (R401). -/
  delayed : Bool := false
  /-- Last passed test of each switch. -/
  passHs : Nat := 0
  passLs : Nat := 0
  /-- A reset edge was taken in FAULT, with the bright tests passed since (R404). -/
  leaving : Option (Bool × Bool) := none
  /-- Bright tests deferred under R407. -/
  deferHs : Bool := true
  deferLs : Bool := true
  /-- State mirrored from the active side (R408). -/
  mirror : Option SqState := none
  deriving DecidableEq, Repr

/-- A dual-contact pair (R392 to R397), with Breakwater's own filtered levels (R383). -/
structure SiPair where
  a : Bool := false
  b : Bool := false
  bwA : Bool := false
  bwB : Bool := false
  /-- SIp_STATUS.KIND. -/
  kind : Fin 4 := 0
  /-- Since the discrepancy the contacts have agreed in the demanding state (R395). -/
  demanded : Bool := false
  /-- Under a stuck or cross-short fault, the contacts concerned with their consecutive good windows (R396). -/
  goodA : Option Nat := none
  goodB : Option Nat := none
  deriving DecidableEq, Repr

/-- State of a safety connection (R422, R427): a consumer is opening or in RUN, a producer idle or in RUN; a
failed consumer opens again at once (R426). -/
inductive ConnState where
  | idle | opening | run
  deriving DecidableEq, Repr

/-- The mirrored items of a connection (R436), times in ns. -/
structure ConnMirror where
  run : Bool
  epoch : Byte
  seq : BitVec 16
  acked : Bool
  payload : Word
  since : Nat
  deriving DecidableEq, Repr

/-- A safety connection at run time (R417 to R437). -/
structure Conn where
  /-- Its entry in the safety configuration (Table FRAME-1). -/
  entry : ConnDef := {}
  st : ConnState := .idle
  epoch : Byte := 0
  /-- Consumer: the last accepted SEQ; producer: the current one. -/
  seq : BitVec 16 := 0
  acked : Bool := false
  /-- Consumer: the last accepted payload, and whether it is delivered; producer: the payload last sent. -/
  payload : Word := 0
  live : Bool := false
  /-- Instant of the last ACK sent or first OPEN, or of the first sending of the current SEQ. -/
  since : Option Nat := none
  /-- A payload is to be sampled for the current SEQ. -/
  sample : Bool := false
  /-- The watchdog of the present epoch has been reported in OPENING. -/
  said : Bool := false
  /-- Instants of the last frames discarded as corrupt, newest first (R425). -/
  corrupt : List Nat := []
  /-- Carrier address of the peer (R430), and the frame last sent. -/
  peer : DWord := 0
  tx : List Byte := []
  mirror : Option ConnMirror := none
  deriving DecidableEq, Repr

/-- The Safety region (R380 to R438). -/
structure Saf where
  sq : List (Nat × SqOut) := []
  si : List (Nat × SiPair) := []
  /-- The word that the last SXCH placed in the exchange, and SEQ of the last fresh request (R385, R386). -/
  word : Option DWord := none
  lastSeq : Option Byte := none
  /-- REQ is taken as 0 for every output after SX_TIMEOUT. -/
  timedOut : Bool := false
  /-- RESET of the last fresh request, and the reset edges of the present one (Table SAF-1). -/
  resets : Byte := 0
  resetEdge : Byte := 0
  /-- Safety authority (R406), its gain in ns, and the handover hold; Breakwater's AUTH_HELD. -/
  auth : Bool := false
  authAt : Nat := 0
  handover : Bool := false
  holding : Bool := false
  bwAuth : Bool := false
  /-- Breakwater: HB_OK and its self-test; the heartbeat line (R384). -/
  hbOk : Bool := true
  bwOk : Bool := false
  hbLine : Bool := false
  /-- Ebb signalled by the supervisor core (R24). -/
  ebb : Bool := false
  /-- Sources pulling low, and permits removed for a low bank (R393, R405). -/
  pulsing : List Nat := []
  bankLow : List Nat := []
  /-- The mirrored last fresh request (R408). -/
  mirrorReq : Option DWord := none
  /-- No SAFETY record has arrived within the bound of R475. -/
  mirrorStale : Bool := false
  /-- The last SAFETY record came from a Safety region in SPLIT (R469). -/
  mirrorSplit : Bool := false
  /-- Connections: consumers 0 to 15, producers 16 to 31; consumers wait after a loss of retention (R431). -/
  conns : List (Nat × Conn) := []
  epochHold : Bool := true
  deriving DecidableEq, Repr


/-- The triad (R440 to R464); its mode and counts lie in its registers. Times in ns. -/
structure Triad where
  /-- Cores retired in the configuration store, which survives resets (R452). -/
  retired : BitVec 3 := 0
  /-- The core in resynchronisation and its start (R448). -/
  resync : Option (Nat × Nat) := none
  /-- Instants at which cores rejoined, by core (R450). -/
  rejoined : List (Nat × Nat) := []
  /-- Failed resynchronisations since the module reset: core and instant, newest first (R452). -/
  fails : List (Nat × Nat) := []
  deriving DecidableEq, Repr


/-- An output commit of one side for the comparison of R485: task, cycle number, CRC-32C, SINCE and instant. -/
structure PairCommit where
  task : Nat
  cycle : Nat
  crc : Word
  since : Nat
  at_ : Nat
  deriving DecidableEq, Repr

/-- Why a switchover is due (R497). -/
inductive SwitchWhy where
  | command | reclaim | lever | yield | power | firmware
  deriving DecidableEq, Repr

/-- Progress of a switchover (Table PAIR-8): the active side waits for a slack, has sent HANDOVER, or has released
AUTH; the standby side has returned READY. -/
inductive Switch where
  | none
  | waiting (why : SwitchWhy)
  | sent (why : SwitchWhy)
  | released (why : SwitchWhy)
  | granted
  deriving DecidableEq, Repr

/-- The causeway and the pair (R466 to R503). Record kinds are numbered by their rows in Table PAIR-2. Times in ns. -/
structure Pair where
  /-- Ordered records sent and taken so far, by kind, and records sent that are not acknowledged, oldest first:
  kind, sequence number and content (R471). -/
  sent : List (Nat × Nat) := []
  taken : List (Nat × Nat) := []
  unacked : List (Nat × Nat × List DWord) := []
  /-- Number of the last heartbeat sent; the partner's last heartbeat; no heartbeat for three periods (R474). -/
  hbSeq : Word := 0
  peer : Option Heartbeat := none
  peerLost : Bool := false
  /-- The partner has stayed in WAITING for 1 s (R468). -/
  waitOver : Bool := false
  /-- Last arrival, consecutive periods with a heartbeat, and arrivals since the last own period, for CW1 and CW2. -/
  last1 : Option Nat := none
  last2 : Option Nat := none
  run1 : Nat := 0
  run2 : Nat := 0
  seen1 : Bool := false
  seen2 : Bool := false
  /-- Cause of a takeover that is due (R493), and whether it was reported as blocked or not allowed. -/
  takeover : Option Status := none
  blockedSaid : Bool := false
  deniedSaid : Bool := false
  /-- The partner's program fault waits for the end of this side's cycle (R493). -/
  faultWait : Option Status := none
  /-- Entry into TRACKING of this side or of the partner (R490), a REJOIN command of the active side, and the start of
  the dwell (R500). -/
  trackAt : Option Nat := none
  rejoin : Bool := false
  dwellAt : Option Nat := none
  /-- Commits of this side and of the partner that await comparison, newest first (R485). -/
  mine : List PairCommit := []
  theirs : List PairCommit := []
  switch : Switch := .none
  /-- REPLAY records not yet used, oldest first, and SCHED records that wait for their count (R477, R478). -/
  replay : List Replay := []
  sched : List (Nat × Nat) := []
  /-- CRC-32C of the image that the partner has verified (R501). -/
  peerVerified : Option Word := none
  /-- Consecutive disagreeing and agreeing TIDE records, by tide (R483). -/
  tideBad : List (Nat × Nat) := []
  tideGood : List (Nat × Nat) := []
  /-- The last TIDE records were sent at this instant (R470). -/
  tideSent : Nat := 0
  deriving DecidableEq, Repr


/-- An entry of the duplicate-discard table (R508, R510): source, sequence number, port of the first copy, its
instant in ns, and whether the other copy has followed. -/
structure DupEntry where
  src : BitVec 48
  seq : BitVec 16
  port : Bool
  at_ : Nat
  both : Bool
  deriving DecidableEq, Repr

/-- PTP on one plant port (R515 to R520). A timestamp is module time in ns. -/
structure PtpPort where
  /-- Round trips less turnaround of the last measurements, newest first, at most eight (R517). -/
  delays : List Int := []
  /-- Departure of the last Pdelay_Req that awaits its answer. -/
  reqAt : Option Int := none
  /-- A two-step Sync awaits its Follow_Up: arrival and correction; a two-step answer likewise: t4 - t1 + t2 less the
  correction so far. -/
  sync : Option (Int × Int) := none
  resp : Option Int := none
  /-- The last offset that the port measured. -/
  offset : Option Int := none
  deriving DecidableEq, Repr

/-- The servo (R517 to R522); y lies in PTP_FREQ. -/
structure Ptp where
  port0 : PtpPort := {}
  port1 : PtpPort := {}
  /-- A master is selected; its identity lies in PTP_GM_LO and PTP_GM_HI. -/
  master : Bool := false
  /-- An identity has been recorded since reset, and an offset has been judged. -/
  known : Bool := false
  judged : Bool := false
  stepAccepted : Bool := false
  /-- Consecutive Syncs within 100 ns, above 1,000 ns, and refused. -/
  near : Nat := 0
  far : Nat := 0
  refused : Nat := 0
  /-- Slew in 2^-32 ns per CD_NET cycle, and the cycles that it still runs. -/
  slew : Int := 0
  slewLeft : Nat := 0
  deriving DecidableEq, Repr

/-- A GOOSE entry (R524 to R529): a publication in 0 to 15, a subscription in 16 to 79. -/
structure Gse where
  /-- Descriptor words W0 to W7 (Table NET-3); empty for eight zeros. -/
  desc : List Word := []
  stNum : Word := 0
  sqNum : Word := 0
  /-- A message has been accepted, or a state has been started. -/
  live : Bool := false
  /-- Publication: values last sent, and the interval to the next repetition in ms. -/
  last : List DWord := []
  interval : Nat := 0
  deriving DecidableEq, Repr

/-- A launch slot (R530 to R533). -/
structure Launch where
  w0 : Word := 0
  w1 : Word := 0
  /-- Descriptor word W0 and frame copied at arming; a WRITE or DISABLE since, or EN 0 at arming, cancels it. -/
  armed : Option (Word × List Byte) := none
  cancelled : Bool := false
  /-- The guard is in force. -/
  guard : Bool := false
  /-- Fired, and not yet left. -/
  waiting : Option (Word × List Byte) := none
  deriving DecidableEq, Repr

/-- A remote station as the ring master or a passing side sees it (R534 to R541). -/
structure RingStn where
  tid : Nat := 0
  /-- TIDs issued in the last 2 s with their instants in ns. -/
  issued : List (Nat × Nat) := []
  /-- The deadline of the present cycle has passed. -/
  closed : Bool := true
  ir0 : Bool := false
  ir1 : Bool := false
  /-- Consecutive cycles answered in one direction only. -/
  one : Nat := 0
  deriving DecidableEq, Repr

/-- The I/O ring (R534 to R541). -/
structure Ring where
  stn : List (Nat × RingStn) := []
  /-- 2 s have passed since the ring ports first showed link. -/
  waitOver : Bool := false
  /-- Every configured station is admitted; consecutive cycles answered in both directions. -/
  up : Bool := false
  whole : Nat := 0
  /-- Ring cycles sent by each task, the last launch, and the round trips of the last second with their instants. -/
  cycles : List (Nat × Nat) := []
  launchAt : Nat := 0
  rtts : List (Nat × Nat) := []
  deriving DecidableEq, Repr

/-- The plant ports and rings (R506 to R544). -/
structure Net where
  dup : List DupEntry := []
  /-- Node table: source address and the instant last heard (R508). -/
  nodes : List (BitVec 48 × Nat) := []
  /-- Instants at which copies were found missing on NP0 and NP1 within the last second (R510). -/
  lost0 : List Nat := []
  lost1 : List Nat := []
  degraded : Bool := false
  ptp : Ptp := {}
  gse : List (Nat × Gse) := []
  launch : List (Nat × Launch) := []
  ring : Ring := {}
  deriving DecidableEq, Repr

/-- A PTP message as sent (R515, R516, R522): an answer with its turnaround, a Sync with its origin. -/
inductive PtpMsg where
  | pdelayReq
  | pdelayResp (turn : Nat)
  | sync (origin : DWord)
  | announce (domain priority1 : Nat)
  deriving DecidableEq, Repr

/-- A CAN message buffer (Table CAN-1). -/
structure CanBuf where
  /-- Words W0 to W31 where not zero. -/
  words : List (Nat × Word) := []
  /-- A cancel arrived after the start of the frame (R558). -/
  cancelled : Bool := false
  /-- ID_CLASH (R559), and the instants in ns of its collisions of the last second. -/
  clash : Bool := false
  hits : List Nat := []
  /-- Sends at the next commit of its task, because the side became active (R561). -/
  owed : Bool := false
  deriving DecidableEq, Repr

/-- Who presented a Strandline record (Table STRAND-1, SOURCE). -/
inductive StrSource where
  | module | program | sequencer | host
  deriving DecidableEq, Repr

/-- A Strandline record (Table STRAND-1) without CHECK, which is computed from the rest (R567). -/
structure StrRec where
  stamp : DWord := 0
  seq : Word := 0
  status : Status := 0
  untrusted : Bool := false
  undisc : Bool := false
  source : StrSource := .module
  code : Nat := 0
  datum : DWord := 0
  origin : Nat := 0
  pair : Nat := 0
  suppr : Nat := 0
  deriving DecidableEq, Repr

/-- State of the recorder (Table STRAND-4, STR_STATE.STATE). -/
inductive StrPhase where
  | starting | run | frozen | thawing
  deriving DecidableEq, Repr

/-- The event recorder (R565 to R582). The ring itself lies in DRAM. -/
structure Strand where
  phase : StrPhase := .starting
  recovered : Bool := false
  /-- SEQ of the last accepted record. -/
  seq : Word := 0
  /-- SEQ of the last record in the ring; its index follows from R565. -/
  ringSeq : Word := 0
  ringUsed : Bool := false
  frozenSeq : Word := 0
  frozenUsed : Bool := false
  /-- Accepted records not yet in the ring, oldest first (R571). -/
  queue : List StrRec := []
  /-- The hold area (R575, R580). -/
  hold : List StrRec := []
  holdFullSaid : Bool := false
  /-- Records lost since the last STR_LOST_RECORDS (R571). -/
  lostSince : Nat := 0
  /-- STR_COUNTS. -/
  lost : Nat := 0
  suppressed : Nat := 0
  /-- STR_EVENT. -/
  events : Word := 0
  /-- Rate limits by code: STR_RL_CFG where changed, TAT and SUPPR (R573, R574). -/
  rlCfg : List (Nat × Word) := []
  tat : List (Nat × Nat) := []
  suppr : List (Nat × Nat) := []
  /-- Every record carries UNTRUSTED (R588). -/
  untrusted : Bool := true
  /-- Drain records skipped since the last report (R579). -/
  skips : Nat := 0
  /-- Instant of the freeze, in ns (R577). -/
  frozenAt : Nat := 0
  /-- Module time loaded at the start (R588), in ns. -/
  loaded : DWord := 0
  deriving DecidableEq, Repr

/-- The backup domain, retained through every reset (R583 to R595). -/
structure Backup where
  count : Nat := 0
  trim : Int := 0
  acc : Int := 0
  /-- Ticks of the present window, and the adjustments left in it (R584). -/
  window : Nat := 0
  adjust : Int := 0
  /-- 1/64 ns units since the last tick of CD_BACK (R583). -/
  phase : Nat := 0
  osf : Bool := true
  trusted : Bool := false
  regsValid : Bool := false
  breg : List (Nat × Word) := []
  stopped : Bool := false
  onBackup : Bool := false
  cellLow : Bool := false
  /-- Count loaded by the last sync (R587); none before the first. -/
  lastSync : Option Nat := none
  /-- A retention loss not yet reported (R594). -/
  lossPending : Bool := true
  deriving DecidableEq, Repr


/-- A region descriptor or paint entry: words W0 to W2 (Table MPU-1, Table MPU-6). -/
structure Desc where
  w0 : Word := 0
  w1 : Word := 0
  w2 : Word := 0
  deriving DecidableEq, Repr

/-- A rule set of the protection unit (R611, R616): a master's COLOUR_MASK and COLOUR by master, and its
descriptors by master * 32 + number, where they differ from the defaults of R615. -/
structure MpuRules where
  cfg : List (Nat × Word) := []
  desc : List (Nat × Desc) := []
  deriving DecidableEq, Repr

/-- The protection unit (R609 to R618). -/
structure Mpu where
  rules : MpuRules := {}
  staged : MpuRules := {}
  /-- Staged paint entries. -/
  paint : List (Nat × Desc) := []
  /-- Granule colours other than 0: painted ranges (first granule, last granule, colour), newest first. -/
  colours : List (Nat × Nat × Nat) := []
  deriving DecidableEq, Repr

/-- A mailbox (R620 to R624); its binding lies in MBXm_BIND. -/
structure Mailbox where
  /-- Words towards end 0 and end 1, oldest first (R621). -/
  to0 : List Word := []
  to1 : List Word := []
  coll0 : Bool := false
  coll1 : Bool := false
  /-- Doorbell bits that end 1 has not taken, and the acknowledge register (R622). -/
  bell : Word := 0
  code : BitVec 16 := 0
  new : Bool := false
  overrun : Bool := false
  last0 : Status := 0
  last1 : Status := 0
  deriving DecidableEq, Repr

/-- The holder of a lock register: a master and, for M0, its task (R625). -/
structure LockHold where
  master : Nat
  task : Nat
  deriving DecidableEq, Repr

/-- A message that the module sends at its boundary: MSI-X (R608), Ethernet and ring frames, causeway
records, CAN transmissions and HART telegrams. The model's own record of what was sent, oldest first
(log entry 10). -/
inductive Out where
  | msix (vector : Nat)
  | frame (port : Nat) (bytes : List Byte)
  | causeway (kind : Nat) (data : List DWord)
  | can (channel : Nat) (w0 w2 : Word) (data : List Word)
  | canItem (channel : Nat) (payload : List Byte)
  | hart (channel : Nat) (bytes : List Byte)
  | safety (conn : Nat) (peer : DWord) (bytes : List Byte)
  | ptp (port1 : Bool) (msg : PtpMsg)
  | goose (entry : Nat) (stNum sqNum : Word) (tal : Nat) (vals : List DWord)
  | supervision (port1 : Bool)
  | arp (ip : Word)
  | ring (task cycle wdogUs : Nat) (segs : List (Nat × Nat)) (outs : List (Nat × DWord))
  | ringPass (segs : List (Nat × Nat))
  deriving DecidableEq, Repr

/-- Lifecycle, keys and debug (R637 to R652). -/
structure Lcy where
  /-- The state that the fuses give (Table LCY-1), the key slots and the revocation fuses. -/
  st : Fin 6 := 0
  key0 : Option (BitVec 384) := none
  key1 : Option (BitVec 384) := none
  revoked : BitVec 2 := 0
  /-- A transition whose fuse group is not yet blown, and the erase marker with its target (R643). -/
  transition : Option (Fin 6) := none
  marker : Option (Fin 6) := none
  /-- The nonce of the accepted return authorisation (R642). -/
  auth : Option DWord := none
  /-- The token in force, and whether SCAN_EN was 1 when it was written (R648). -/
  token : Option (Word × Bool) := none
  /-- End of the session in ns. -/
  sessionEnd : Nat := 0
  /-- The instruction of the test access port (R650). -/
  ir : ScanInst := .idcode
  deriving DecidableEq, Repr

/-- Firmware slots, configuration store and program store (R653 to R662). -/
structure Fwu where
  /-- The slot that runs is B; the slots that are marked valid. -/
  runB : Bool := false
  validA : Bool := true
  validB : Bool := false
  trial : Bool := false
  healthOk : Bool := false
  programming : Bool := false
  /-- The last item of an image has been written, and the slot is not yet verified. -/
  complete : Bool := false
  /-- Trial window in s as read at ACTIVATE, and its end in ns. -/
  trialWin : Nat := 600
  trialEnd : Nat := 0
  /-- A failed trial is to be reported at the next start (R660). -/
  fallbackDue : Bool := false
  /-- No valid slot at the start (R682). -/
  noFw : Bool := false
  /-- An ACTIVATE with FULL 1, and one that waits for a switchover (R502, R657). -/
  full : Bool := false
  viaSwitch : Bool := false
  /-- Start of the restart pause in ns, and the releases that it skipped. -/
  pauseAt : Nat := 0
  skipped : Nat := 0
  /-- Current and previous copy of the configuration store. -/
  cur : Option CfgCopy := none
  prev : Option CfgCopy := none
  /-- Program store: accepted images by area, and the area marked running. -/
  prog : List (Nat × Image × Signed) := []
  progArea : Fin 2 := 0
  deriving DecidableEq, Repr


/-- The supervisor core, the feeds and the pins of power and insertion (chapters 1, 2 and 19). -/
structure Sup where
  /-- The module is in reset (R91): from a reset source until RESET_RELEASE. -/
  inReset : Bool := true
  /-- DRAM was unpowered since the previous start (R580). -/
  dramLost : Bool := true
  /-- Cause latches (R678). -/
  cause : Fin 16 := 0
  starts : Nat := 0
  /-- SID pins, and the identity latched at the release of reset (R66). -/
  sidPins : BitVec 2 := 3
  sid : BitVec 2 := 0
  seated : Bool := false
  leverClosed : Bool := false
  /-- A removal is requested by the open lever (R97). -/
  removing : Bool := false
  /-- RUN has been entered since the module reset (R620). -/
  runSeen : Bool := false
  /-- The next state of the step under way; the final target is SUP_PWR_STATE.TARGET (R668). -/
  stepTo : Option Nat := none
  /-- Converters run: insertion is qualified (R96). -/
  converters : Bool := false
  /-- SEATED_N has gone high since the last reset (R99). -/
  unseated : Bool := false
  /-- The OR-ed supply has not stayed above 19.2 V for 100 ms since it fell (R64); it fell below 16.0 V. -/
  supplyLow : Bool := true
  powerFail : Bool := false
  /-- CD_FABRIC is stopped (R704). -/
  fabricStopped : Bool := false
  /-- Liveness: the line, and the hard-wired ebb and AUTH release of R39. -/
  liveness : Bool := false
  hardEbb : Bool := false
  /-- Clock domains that failed their monitor (R41). -/
  clockFailed : List ClockDomain := []
  /-- The Link region fell back for a fault of its own: the queue manager serves no interface (Table NET-8). -/
  queFault : Bool := false
  /-- Banks in isolation by region and bank number, with the instant in ns; and the last isolation of a
  region (R33). -/
  isolated : List (Nat × Nat) := []
  lastIso : List (Nat × Nat) := []
  /-- AUTH: this side drives it, the other side drives it, and the contest of R76 runs. -/
  authDriven : Bool := false
  authOther : Bool := false
  contesting : Bool := false
  /-- CD_FABRIC cycle of the AUTH claim under way (R73). -/
  claimAt : Option Nat := none
  peerPresent : Bool := false
  /-- What the program writers and the tide-table writers present in HOLD, by tag and by output code; the last
  safety request before HOLD (R673). -/
  heldProg : List (Nat × DWord) := []
  heldTT : List Nat := []
  heldReq : Byte := 0
  deriving DecidableEq, Repr

/-- The state of the module. -/
structure State where
  /-- Commands that wait, first in, first out. -/
  pending : List Instr := []
  /-- The model's own: the master whose access to the control window is carried out; M8 but within a DEBUG_ACCESS. -/
  accMaster : Nat := 8
  /-- Value that the last host read returned. -/
  hostData : Word := 0
  /-- Bytes that the last host read of BAR2 or a window returned (R606). -/
  hostBytes : List Byte := []
  /-- High words captured by reads of low words, by address (R10). -/
  captured : List (Nat × Word) := []
  /-- The register file of the control window, by address. -/
  regs : List (Nat × Word) := []
  /-- CD_FABRIC cycles since the module reset; eight ns each are the execution time base (R181). -/
  cycle : Nat := 0
  /-- Module time in units of 2^-32 ns (R514). -/
  mtime : Nat := 0
  /-- The model's own: free values taken so far (log entry 3). -/
  freeCtr : Nat := 0
  /-- Bytes of DRAM, local SRAM, trace, step memory and flash, by internal address (Table MEM-1). -/
  mem : List (Nat × Byte) := []
  strand : Strand := {}
  backup : Backup := {}
  tides : List (Nat × Tide) := []
  /-- TI lines with a line fault, input * 2 + (1 for Z) (R116). -/
  tiFault : List Nat := []
  tt : List (Nat × TTEntry) := []
  ttOut : List (Nat × TTOut) := []
  /-- Scan period in which TT_ARM_FULL was last reported, by tide (R139). -/
  ttFull : List (Nat × Nat) := []
  seqs : List (Nat × Seq) := []
  exe : Exe := {}
  loop : Loop := {}
  dio : List (Nat × DioCh) := []
  dioBank : List (Nat × DioBank) := []
  po : List (Nat × PoCh) := []
  terms : List (Nat × Term) := []
  /-- The reflex matrix is stopped by its configuration check (R344). -/
  rfxStopped : Bool := false
  an : List (Nat × AnCh) := []
  anBank : List (Nat × AnBank) := []
  saf : Saf := {}
  triad : Triad := {}
  pair : Pair := {}
  net : Net := {}
  /-- CAN message buffers, channel * 64 + buffer (Table CAN-1). -/
  can : List (Nat × CanBuf) := []
  lcy : Lcy := {}
  fwu : Fwu := {}
  /-- Bytes that the last access of the debugger returned (R647). -/
  dbgData : List Byte := []
  /-- The firmware restart pause runs (R656). -/
  fwPause : Bool := false
  /-- A firmware restart waits for its slack (R656). -/
  fwWait : Bool := false
  sup : Sup := {}
  mpu : Mpu := {}
  mailboxes : List (Nat × Mailbox) := []
  locks : List (Nat × LockHold) := []
  /-- Items produced into each queue (Table QUE-2, SEQ). -/
  queSeq : List (Nat × Word) := []
  /-- What was sent at the boundary, oldest first. -/
  out : List Out := []
  deriving DecidableEq, Repr

/-- The module right after reset. -/
def State.reset : State := {}

end Sys2Proof.Machine
end

