-- ==== Sys2Proof/Machine/Status.lean ====
section
/-! DEFINITION. The status codes of the manual: the high byte by block or region (R55), the low byte
from the status table of each chapter. -/
namespace Sys2Proof.Machine.Code

/-! Region low bytes, Table ARCH-11 (R56): the status of region n is 0x2n00 plus the low byte (R56). -/
abbrev REGION_FALLBACK (r : Nat) : Status := BitVec.ofNat 16 (0x2000 + 0x100 * r + 0x01)
abbrev REGION_CLOCK (r : Nat) : Status := BitVec.ofNat 16 (0x2000 + 0x100 * r + 0x02)
abbrev REGION_ISOLATE_FAIL (r : Nat) : Status := BitVec.ofNat 16 (0x2000 + 0x100 * r + 0x03)
abbrev REGION_BANKS (r : Nat) : Status := BitVec.ofNat 16 (0x2000 + 0x100 * r + 0x04)
abbrev REGION_FALLBACK_FAIL (r : Nat) : Status := BitVec.ofNat 16 (0x2000 + 0x100 * r + 0x05)
abbrev REGION_BUS (r : Nat) : Status := BitVec.ofNat 16 (0x2000 + 0x100 * r + 0x06)
abbrev REGION_RECOVERED (r : Nat) : Status := BitVec.ofNat 16 (0x2000 + 0x100 * r + 0x07)

/-! Table TIDE-23 (R131), high byte 0x04. -/
abbrev TIDE_CFG_CONFLICT : Status := 0x0401
abbrev TIDE_CFG_RANGE : Status := 0x0402
abbrev TIDE_LOCKED : Status := 0x0410
abbrev TIDE_HOLDOVER : Status := 0x0411
abbrev TIDE_LOST : Status := 0x0412
abbrev TIDE_JUMP : Status := 0x0413
abbrev TIDE_UNLOCK : Status := 0x0414
abbrev TIDE_RELOCK_HELD : Status := 0x0415
abbrev TIDE_LINE_FAULT : Status := 0x0416
abbrev TIDE_QUAD_ERROR : Status := 0x0417
abbrev TIDE_INDEX_ERROR : Status := 0x0418
abbrev TIDE_FREQ_RANGE : Status := 0x0419
abbrev TIDE_AMPL_LOW : Status := 0x041A
abbrev TIDE_BANK_FAULT : Status := 0x041B
abbrev TIDE_PHASE_REJECT : Status := 0x041C

/-! Table TIDE-41 (R168), high byte 0x04. -/
abbrev TT_LATE : Status := 0x0420
abbrev TT_SUPPRESSED : Status := 0x0421
abbrev TT_BAD_TARGET : Status := 0x0422
abbrev TT_NOT_OWNER : Status := 0x0423
abbrev TT_ARM_FULL : Status := 0x0425
abbrev TT_OVERSPEED : Status := 0x0426
abbrev TT_CAL_FAIL : Status := 0x0427
abbrev TT_MEM_ERR : Status := 0x0428
abbrev TT_PARTITION_BUSY : Status := 0x0429
abbrev TT_NOT_CLAIMED : Status := 0x042A
abbrev SQ_DONE : Status := 0x0430
abbrev SQ_TIMEOUT : Status := 0x0431
abbrev SQ_TIDE_LOST : Status := 0x0432
abbrev SQ_BAD_STEP : Status := 0x0433
abbrev SQ_CMD_DROPPED : Status := 0x0434
abbrev SQ_CMD_INVALID : Status := 0x0435
abbrev SQ_MIRROR_MISMATCH : Status := 0x0436
abbrev SQ_RESUMED : Status := 0x0437
abbrev SQ_MEM_ERR : Status := 0x0438
abbrev SQ_FAULT : Status := 0x0439
abbrev SQ_NOT_WRITER : Status := 0x043A

/-! Table EXE-17 (R221), high byte 0x03. -/
abbrev EXE_IMAGE_BAD : Status := 0x0301
abbrev EXE_WRITER_CONFLICT : Status := 0x0302
abbrev EXE_IMAGE_TOO_LARGE : Status := 0x0303
abbrev EXE_TASK_CFG : Status := 0x0304
abbrev EXE_MODE_REFUSED : Status := 0x0305
abbrev EXE_CHANGE_INVALID : Status := 0x0306
abbrev EXE_TAG_TYPE : Status := 0x0307
abbrev EXE_VALUE_REFUSED : Status := 0x0308
abbrev EXE_OVERRUN : Status := 0x0310
abbrev EXE_EVT_MERGED : Status := 0x0311
abbrev EXE_TASK_FREERUN : Status := 0x0312
abbrev EXE_TASK_RETIDE : Status := 0x0313
abbrev EXE_STATION_STALE : Status := 0x0314
abbrev EXE_STATION_INVALID : Status := 0x0315
abbrev EXE_EVT_UNDEFINED : Status := 0x0316
abbrev EXE_CHANGE_DONE : Status := 0x0321
abbrev EXE_FORCE_DROPPED : Status := 0x0322
abbrev EXE_TYPE_RESET : Status := 0x0323
abbrev EXE_NO_SLACK : Status := 0x0324
abbrev EXE_CHANGE_REVERTED : Status := 0x0325
abbrev EXE_CHANGE_COMMITTED : Status := 0x0326
abbrev EXE_CHANGE_CANCELLED : Status := 0x0327
abbrev EXE_FORCE_SET : Status := 0x0330
abbrev EXE_FORCE_CLEARED : Status := 0x0331
abbrev EXE_FORCE_FULL : Status := 0x0332
abbrev EXE_FORCE_REFUSED : Status := 0x0333
abbrev EXE_NOT_FORCED : Status := 0x0334

/-! Table KQ-20 (R262), high byte 0x03. -/
abbrev KQ_ILLEGAL : Status := 0x0340
abbrev KQ_TAG_UNDEF : Status := 0x0341
abbrev KQ_TAG_TYPE : Status := 0x0342
abbrev KQ_TAG_WRITER : Status := 0x0343
abbrev KQ_ALIGN : Status := 0x0344
abbrev KQ_BOUNDS : Status := 0x0345
abbrev KQ_PROT : Status := 0x0346
abbrev KQ_STACK : Status := 0x0347
abbrev KQ_YIELD_NESTED : Status := 0x0348
abbrev KQ_INDEX : Status := 0x0349
abbrev KQ_CODE_RANGE : Status := 0x034A
abbrev KQ_DIV_ZERO : Status := 0x0350
abbrev KQ_LOCK_RELEASED : Status := 0x0351

/-! Table LOOP-16 (R309), high byte 0x05. -/
abbrev LOOP_DESC_BAD : Status := 0x0501
abbrev LOOP_TAG_TYPE : Status := 0x0502
abbrev LOOP_OUT_WRITER : Status := 0x0503
abbrev LOOP_SCHED_CONFLICT : Status := 0x0504
abbrev LOOP_CASC_CFG : Status := 0x0505
abbrev LOOP_OVR_CFG : Status := 0x0506
abbrev LOOP_PAR_RANGE : Status := 0x0507
abbrev LOOP_BAD_MODE : Status := 0x0508
abbrev LOOP_NOT_OFF : Status := 0x0509
abbrev LOOP_BAD_ITEM : Status := 0x050A
abbrev LOOP_NO_DESC : Status := 0x050B
abbrev LOOP_FB_ACTIVE : Status := 0x050C
abbrev LOOP_LOST : Status := 0x0510
abbrev LOOP_FROZEN : Status := 0x0511
abbrev LOOP_IMPLAUSIBLE : Status := 0x0512
abbrev LOOP_FALLBACK : Status := 0x0513
abbrev LOOP_RECOVERED : Status := 0x0514
abbrev LOOP_BACKUP_LOST : Status := 0x0515
abbrev LOOP_NUMERIC : Status := 0x0516
abbrev LOOP_EVT_LATE : Status := 0x0517
abbrev LOOP_EVT_MERGED : Status := 0x0518
abbrev LOOP_FRAME_FREERUN : Status := 0x0519
abbrev LOOP_FRAME_RETIDE : Status := 0x051A
abbrev LOOP_SAMPLE_IGNORED : Status := 0x051B
abbrev LOOP_OVR_NONE : Status := 0x051C
abbrev LOOP_TRACE_TRIG : Status := 0x0520
abbrev LOOP_MIRROR_MISMATCH : Status := 0x0521
abbrev LOOP_BANK_ISOLATED : Status := 0x0522
abbrev LOOP_BANK_REENABLED : Status := 0x0523

/-! Table DIO-11 (R350), high byte 0x06. -/
abbrev DIO_DIR_CONFLICT : Status := 0x0601
abbrev DIO_STUCK_ON : Status := 0x0610
abbrev DIO_STUCK_EXTERNAL : Status := 0x0611
abbrev DIO_BACK_FED : Status := 0x0612
abbrev DIO_STUCK_OFF : Status := 0x0613
abbrev DIO_SHORT : Status := 0x0614
abbrev DIO_OVERLOAD : Status := 0x0615
abbrev DIO_OVERTEMP : Status := 0x0616
abbrev DIO_OPEN_LOAD : Status := 0x0617
abbrev DIO_REARMED : Status := 0x0618
abbrev DIO_BANK_WARN : Status := 0x0620
abbrev DIO_BANK_LOW : Status := 0x0621
abbrev DIO_BANK_LATCHOFF : Status := 0x0622
abbrev DIO_BANK_REENABLED : Status := 0x0623
abbrev DIO_REEN_REFUSED : Status := 0x0624
abbrev DIO_BANK_ISOLATED : Status := 0x0625
abbrev DIO_BANK_SWITCHOFF : Status := 0x0626
abbrev DIO_STAGE_SILENT : Status := 0x0627

/-! Table RFX-8 (R350), high byte 0x08. -/
abbrev RFX_CFG_BAD : Status := 0x0801
abbrev RFX_TARGET_BAD : Status := 0x0802
abbrev RFX_TAG_BAD : Status := 0x0803
abbrev RFX_FIRED : Status := 0x0810
abbrev RFX_LATCH_RESET : Status := 0x0811
abbrev RFX_TAG_LOST : Status := 0x0812
abbrev RFX_CHECK_FAIL : Status := 0x0820

/-! Table ANA-13 (R379), high byte 0x07. -/
abbrev ANA_CFG_BAD : Status := 0x0701
abbrev ANA_DIR_CONFLICT : Status := 0x0702
abbrev ANA_TABLE_BAD : Status := 0x0703
abbrev ANA_UNDER_RANGE : Status := 0x0710
abbrev ANA_OVER_RANGE : Status := 0x0711
abbrev ANA_FAIL_LOW : Status := 0x0712
abbrev ANA_FAIL_HIGH : Status := 0x0713
abbrev ANA_OPEN_WIRE : Status := 0x0714
abbrev ANA_LOOP_SHORT : Status := 0x0715
abbrev ANA_LOOP_POWER_LOW : Status := 0x0716
abbrev ANA_TRIG_MERGED : Status := 0x0718
abbrev ANA_TRIG_IGNORED : Status := 0x0719
abbrev ANA_COMPLIANCE : Status := 0x0720
abbrev ANA_COMPLIANCE_CLEAR : Status := 0x0721
abbrev ANA_READBACK_ERR : Status := 0x0722
abbrev ANA_OUT_OPEN : Status := 0x0723
abbrev ANA_ALARM_CURRENT : Status := 0x0724
abbrev ANA_HART_TIMEOUT : Status := 0x0730
abbrev ANA_HART_COMM_ERR : Status := 0x0731
abbrev ANA_HART_DEV_STATUS : Status := 0x0732
abbrev ANA_HART_REFUSED : Status := 0x0733
abbrev ANA_HART_POLL_STALE : Status := 0x0734
abbrev ANA_BANK_ISOLATED : Status := 0x0740
abbrev ANA_BANK_RECOVERED : Status := 0x0741
abbrev ANA_STAGE_SILENT : Status := 0x0742

/-! Table SAF-8 (R416), high byte 0x09. -/
abbrev SAF_CFG_BAD : Status := 0x0901
abbrev SAF_SPLIT : Status := 0x0902
abbrev SAF_TRIP : Status := 0x0910
abbrev SAF_RESET : Status := 0x0911
abbrev SAF_SX_TIMEOUT : Status := 0x0912
abbrev SAF_TEST_DISCARDED : Status := 0x0913
abbrev SAF_ENERGISE_DELAYED : Status := 0x0914
abbrev SAF_SQ_HS_FAIL : Status := 0x0915
abbrev SAF_SQ_LS_FAIL : Status := 0x0916
abbrev SAF_TEST_OVERDUE : Status := 0x0917
abbrev SAF_SQ_OVERCURRENT : Status := 0x0918
abbrev SAF_SQ_DISAGREE : Status := 0x0919
abbrev SAF_SI_DISCREPANCY : Status := 0x0920
abbrev SAF_SI_STUCK : Status := 0x0921
abbrev SAF_SI_CROSS : Status := 0x0922
abbrev SAF_SI_RECOVERED : Status := 0x0923
abbrev SAF_BANK_LOW : Status := 0x0924
abbrev SAF_BANK_RESTORED : Status := 0x0925
abbrev SAF_AUTH_TAKEN : Status := 0x0930
abbrev SAF_AUTH_RELEASED : Status := 0x0931
abbrev SAF_EBB : Status := 0x0932
abbrev SAF_LIVENESS : Status := 0x0933
abbrev SAF_LOCKSTEP : Status := 0x0940
abbrev SAF_BW_SELFTEST : Status := 0x0941
abbrev SAF_BW_HB : Status := 0x0942
abbrev SAF_TP_SOURCE : Status := 0x0943

/-! Table FRAME-7 (R439), high byte 0x09. -/
abbrev SAF_CONN_OPEN : Status := 0x0950
abbrev SAF_CONN_RUN : Status := 0x0951
abbrev SAF_CONN_WDOG : Status := 0x0952
abbrev SAF_CONN_ACK_TIMEOUT : Status := 0x0953
abbrev SAF_CONN_CRC : Status := 0x0954
abbrev SAF_CONN_TEXP : Status := 0x0955
abbrev SAF_FRAME_CORRUPT : Status := 0x0956
abbrev SAF_FRAME_OLD_EPOCH : Status := 0x0957
abbrev SAF_FRAME_ORDER : Status := 0x0958

/-! Table TRIAD-7 (R465), high byte 0x0B. -/
abbrev TRIAD_BIST_FAIL : Status := 0x0B01
abbrev TRIAD_CORE_BIST_FAIL : Status := 0x0B02
abbrev TRIAD_OUTVOTE : Status := 0x0B10
abbrev TRIAD_RESYNC_DONE : Status := 0x0B11
abbrev TRIAD_RESYNC_FAIL : Status := 0x0B12
abbrev TRIAD_CORE_RETIRED : Status := 0x0B13
abbrev TRIAD_NO_MAJORITY : Status := 0x0B14
abbrev TRIAD_ECC_CORRECTED : Status := 0x0B20
abbrev TRIAD_ECC_UNCORR : Status := 0x0B21
abbrev TRIAD_ECC_RECOVERED : Status := 0x0B22
abbrev TRIAD_UNRETIRE : Status := 0x0B30
abbrev TRIAD_CMD_REFUSED : Status := 0x0B31

/-! Table PAIR-14 (R505), high byte 0x0A. -/
abbrev PAIR_HOME_CONFLICT : Status := 0x0A02
abbrev PAIR_VERSION : Status := 0x0A03
abbrev PAIR_IMAGE_DIFF : Status := 0x0A04
abbrev PAIR_STANDBY_REFUSED : Status := 0x0A05
abbrev PAIR_NOT_IN_STEP : Status := 0x0A06
abbrev PAIR_CMD_INVALID : Status := 0x0A07
abbrev PAIR_PATH_LOST : Status := 0x0A10
abbrev PAIR_PATH_RESTORED : Status := 0x0A11
abbrev PAIR_PEER_LOST : Status := 0x0A12
abbrev PAIR_TAKEOVER : Status := 0x0A13
abbrev PAIR_TAKEOVER_BLOCKED : Status := 0x0A14
abbrev PAIR_NO_TAKEOVER : Status := 0x0A15
abbrev PAIR_AUTH_SENSE : Status := 0x0A16
abbrev PAIR_CONTEST_LOST : Status := 0x0A17
abbrev PAIR_SWITCHOVER : Status := 0x0A20
abbrev PAIR_RECLAIM : Status := 0x0A21
abbrev PAIR_SWITCH_FAILED : Status := 0x0A22
abbrev PAIR_TRAILING : Status := 0x0A30
abbrev PAIR_TRACKING : Status := 0x0A31
abbrev PAIR_SYNC_START : Status := 0x0A32
abbrev PAIR_IN_STEP : Status := 0x0A33
abbrev PAIR_MISMATCH : Status := 0x0A34
abbrev PAIR_YIELD : Status := 0x0A35
abbrev PAIR_TIDE_MISALIGNED : Status := 0x0A36
abbrev PAIR_STANDBY_FAULT : Status := 0x0A37
abbrev PAIR_SAFETY_MIRROR_STALE : Status := 0x0A38

/-! Table NET-14 (R544), high byte 0x0C. -/
abbrev NET_CFG_BAD : Status := 0x0C01
abbrev NET_LINK_DOWN : Status := 0x0C10
abbrev NET_LINK_UP : Status := 0x0C11
abbrev NET_RED_DEGRADED : Status := 0x0C12
abbrev NET_HSR_OPEN : Status := 0x0C13
abbrev NET_PTP_LOCKED : Status := 0x0C20
abbrev NET_PTP_UNLOCKED : Status := 0x0C21
abbrev NET_PTP_HOLDOVER : Status := 0x0C22
abbrev NET_PTP_JUMP_REFUSED : Status := 0x0C23
abbrev NET_PTP_STEPPED : Status := 0x0C24
abbrev NET_PTP_MASTER_CHANGE : Status := 0x0C25
abbrev NET_PTP_PORT_SWITCH : Status := 0x0C26
abbrev NET_PTP_GRANDMASTER : Status := 0x0C27
abbrev NET_GSE_TAL_EXPIRED : Status := 0x0C30
abbrev NET_GSE_CONFREV : Status := 0x0C31
abbrev NET_GSE_ORDER : Status := 0x0C32
abbrev NET_GSE_RESTART : Status := 0x0C33
abbrev NET_LAUNCH_MERGED : Status := 0x0C38
abbrev NET_LAUNCH_LATE : Status := 0x0C39
abbrev NET_LAUNCH_DISABLED : Status := 0x0C3A
abbrev NET_RING_UP : Status := 0x0C40
abbrev NET_RING_BREAK : Status := 0x0C41
abbrev NET_RING_CLOSED : Status := 0x0C42
abbrev NET_STATION_ID : Status := 0x0C43
abbrev NET_STATION_JOIN : Status := 0x0C44
abbrev NET_RING_QSKIP : Status := 0x0C45
abbrev NET_PORT_ISOLATED : Status := 0x0C50

/-! Table CAN-6 (R564), high byte 0x0D. -/
abbrev CAN_CFG_BAD : Status := 0x0D01
abbrev CAN_TIMING_BAD : Status := 0x0D02
abbrev CAN_ERR_PASSIVE : Status := 0x0D10
abbrev CAN_ERR_ACTIVE : Status := 0x0D11
abbrev CAN_BUS_OFF : Status := 0x0D12
abbrev CAN_BUS_ON : Status := 0x0D13
abbrev CAN_ID_CLASH : Status := 0x0D14
abbrev CAN_TX_TIMEOUT : Status := 0x0D15
abbrev CAN_CANCELLED : Status := 0x0D16
abbrev CAN_CANCEL_LATE : Status := 0x0D17
abbrev CAN_RX_OVERRUN : Status := 0x0D18
abbrev CAN_RX_SILENT : Status := 0x0D19
abbrev CAN_CHANNEL_ISOLATED : Status := 0x0D20
abbrev CAN_CHANNEL_RECOVERED : Status := 0x0D21

/-! Table STRAND-5 (R599), high byte 0x0E. -/
abbrev STR_START : Status := 0x0E01
abbrev STR_LOST_RECORDS : Status := 0x0E10
abbrev STR_FROZEN : Status := 0x0E11
abbrev STR_THAWED : Status := 0x0E12
abbrev STR_FREEZE_EXPIRED : Status := 0x0E13
abbrev STR_HOLD_FULL : Status := 0x0E14
abbrev STR_DRAIN_SKIP : Status := 0x0E15
abbrev STR_CRC_BAD : Status := 0x0E16
abbrev STR_MEM_ERR : Status := 0x0E17
abbrev STR_CMD_REFUSED : Status := 0x0E18

/-! Table CLK-4 (R599), high byte 0x0F. -/
abbrev CAL_INVALID : Status := 0x0F01
abbrev CLK_RANGE : Status := 0x0F02
abbrev CLK_OSC_STOPPED : Status := 0x0F10
abbrev CLK_RETENTION_LOST : Status := 0x0F11
abbrev CLK_SET : Status := 0x0F12
abbrev CLK_SYNCED : Status := 0x0F13
abbrev CLK_CELL_LOW : Status := 0x0F14
abbrev CLK_CELL_OK : Status := 0x0F15
abbrev CLK_REGS_VALIDATED : Status := 0x0F16

/-! Table MPU-8 (R636), high byte 0x10. -/
abbrev MPU_CFG_BAD : Status := 0x1001
abbrev MPU_LOCKED : Status := 0x1002
abbrev MPU_DENIED : Status := 0x1010
abbrev MPU_DECODE : Status := 0x1011
abbrev MPU_COMMITTED : Status := 0x1020
abbrev MPU_COMMIT_BUSY : Status := 0x1021
abbrev MEM_ECC_CORRECTED : Status := 0x1030
abbrev MEM_ECC_UNCORR : Status := 0x1031
abbrev MEM_ECC_RECOVERED : Status := 0x1032

/-! Table MBX-3 (R636), high byte 0x11. -/
abbrev MBX_CFG_BAD : Status := 0x1101
abbrev MBX_NOT_BOUND : Status := 0x1110
abbrev MBX_WRONG_END : Status := 0x1111
abbrev MBX_OVERWRITE : Status := 0x1112
abbrev MBX_EMPTY : Status := 0x1113
abbrev MBX_ACK_OVERRUN : Status := 0x1114
abbrev MBX_LOCK_FORCED : Status := 0x1120
abbrev MBX_LOCK_NOT_HELD : Status := 0x1121

/-! Table QUE-5 (R636), high byte 0x14. -/
abbrev QUE_CFG_BAD : Status := 0x1401
abbrev QUE_OVERFLOW : Status := 0x1410
abbrev QUE_OVERRUN : Status := 0x1411
abbrev QUE_MEM_ERR : Status := 0x1412

/-! Table LCY-9 (R666), high byte 0x12. -/
abbrev LCY_CMD_REFUSED : Status := 0x1201
abbrev LCY_AUTH_BAD : Status := 0x1202
abbrev LCY_NOT_QUIET : Status := 0x1203
abbrev LCY_KEY_BAD : Status := 0x1204
abbrev LCY_SEALED : Status := 0x1206
abbrev LCY_STATE_CHANGED : Status := 0x1210
abbrev LCY_ERASE_DONE : Status := 0x1211
abbrev LCY_ERASE_RESUMED : Status := 0x1212
abbrev LCY_KEY_REVOKED : Status := 0x1213
abbrev LCY_DBG_OPEN : Status := 0x1220
abbrev LCY_DBG_CLOSED : Status := 0x1221
abbrev LCY_DBG_TOKEN_BAD : Status := 0x1222
abbrev LCY_DBG_LOCKED : Status := 0x1223
abbrev LCY_SCAN_REFUSED : Status := 0x1224

/-! Table FWU-5 (R666), high byte 0x13. -/
abbrev FWU_IMAGE_BAD : Status := 0x1301
abbrev FWU_INCOMPATIBLE : Status := 0x1302
abbrev FWU_CMD_INVALID : Status := 0x1303
abbrev FWU_TRIAL_BUSY : Status := 0x1304
abbrev FWU_SAFE_RESET_NEEDED : Status := 0x1305
abbrev FWU_VERIFIED : Status := 0x1311
abbrev FWU_ACTIVATED : Status := 0x1312
abbrev FWU_HEALTH_OK : Status := 0x1313
abbrev FWU_FALLBACK : Status := 0x1314
abbrev FWU_CFG_MIGRATED : Status := 0x1315
abbrev FWU_CFG_FORMAT : Status := 0x1316
abbrev FWU_REJECTED : Status := 0x1317

/-! Table MOD-3 (R687), high byte 0x01. -/
abbrev MOD_SID_INVALID : Status := 0x0101
abbrev MOD_SID_CHANGED : Status := 0x0102
abbrev MOD_FEED_LOW : Status := 0x0110
abbrev MOD_FEED_OK : Status := 0x0111
abbrev MOD_POWER_FAIL : Status := 0x0112
abbrev MOD_REMOVE_READY : Status := 0x0120
abbrev MOD_REMOVE_REFUSED : Status := 0x0121

/-! Table SUP-9 (R687), high byte 0x02. -/
abbrev SUP_CMD_REFUSED : Status := 0x0201
abbrev SUP_STEP_REFUSED : Status := 0x0202
abbrev SUP_RECOVER_REFUSED : Status := 0x0203
abbrev SUP_START : Status := 0x0210
abbrev SUP_STATE_CHANGED : Status := 0x0211
abbrev SUP_MODULE_EBB : Status := 0x0212
abbrev SUP_BOOT_SLOT : Status := 0x0214
abbrev SUP_NO_FIRMWARE : Status := 0x0215

/-! Success of each block: low byte 0x00 (R12). -/
abbrev MOD_OK : Status := 0x0100
abbrev SUP_OK : Status := 0x0200
abbrev EXE_OK : Status := 0x0300
abbrev TIDE_OK : Status := 0x0400
abbrev LOOP_OK : Status := 0x0500
abbrev DIO_OK : Status := 0x0600
abbrev ANA_OK : Status := 0x0700
abbrev RFX_OK : Status := 0x0800
abbrev SAF_OK : Status := 0x0900
abbrev PAIR_OK : Status := 0x0A00
abbrev TRIAD_OK : Status := 0x0B00
abbrev NET_OK : Status := 0x0C00
abbrev CAN_OK : Status := 0x0D00
abbrev STRAND_OK : Status := 0x0E00
abbrev CLK_OK : Status := 0x0F00
abbrev MPU_OK : Status := 0x1000
abbrev MBX_OK : Status := 0x1100
abbrev LCY_OK : Status := 0x1200
abbrev FWU_OK : Status := 0x1300
abbrev QUE_OK : Status := 0x1400

end Sys2Proof.Machine.Code
end

