-- ==== Sys2Proof/Machine/Ops.lean ====
section
/-! DEFINITION. The operations every meaning is built from: registers and their fields, free values,
interrupts, memory bytes, the presentation of Strandline records, the protection check and the host's
path to a command register. Each is a function from states to states. -/
namespace Sys2Proof.Machine

/-! ### Registers -/

/-- The register at address `a` as the register file holds it. -/
def rd (a : Nat) (s : State) : Word := Sparse.get regReset s.regs a

/-- Set the register at address `a`. -/
def wr (a : Nat) (v : Word) (s : State) : State := { s with regs := Sparse.set regReset s.regs a v }

/-- The value of a field within a word. -/
def fieldOf (w : Word) (f : RegField) : Nat := w.toNat / 2 ^ f.lo % 2 ^ f.width

/-- The bits of a field. -/
def fieldMask (f : RegField) : Word := BitVec.ofNat 32 ((2 ^ f.width - 1) * 2 ^ f.lo)

/-- A word with one field replaced. -/
def withField (w : Word) (f : RegField) (v : Nat) : Word :=
  (w &&& ~~~ fieldMask f) ||| BitVec.ofNat 32 (v % 2 ^ f.width * 2 ^ f.lo)

/-- The value of a register field. -/
def fld (f : RegField) (s : State) : Nat := fieldOf (rd f.addr s) f

/-- A register field is not zero. -/
def flag (f : RegField) (s : State) : Bool := fld f s != 0

/-- Set a register field. -/
def setFld (f : RegField) (v : Nat) (s : State) : State := wr f.addr (withField (rd f.addr s) f v) s

/-- Set a one-bit register field. -/
def setFlag (f : RegField) (b : Bool) (s : State) : State := setFld f b.toNat s

/-- Count in a saturating register field (R48). -/
def bump (f : RegField) (s : State) : State := setFld f (min (fld f s + 1) (2 ^ f.width - 1)) s

/-- Count several in a saturating register field. -/
def bumpBy (f : RegField) (n : Nat) (s : State) : State := setFld f (min (fld f s + n) (2 ^ f.width - 1)) s

/-- Set the bits of a mask in a register. -/
def orReg (a : Nat) (m : Word) (s : State) : State := wr a (rd a s ||| m) s

/-- Clear the bits of a mask in a register. -/
def clrReg (a : Nat) (m : Word) (s : State) : State := wr a (rd a s &&& ~~~ m) s

/-- Bit `i` as a mask. -/
def bitMask (i : Nat) : Word := BitVec.ofNat 32 (2 ^ i)

/-- Bit `i` of a register. -/
def bitAt (a i : Nat) (s : State) : Bool := (rd a s).getLsbD i

/-- Set bit `i` of a register to `b`. -/
def setBitAt (a i : Nat) (b : Bool) (s : State) : State :=
  if b then orReg a (bitMask i) s else clrReg a (bitMask i) s

/-- Write a 64-bit value to a register pair, low word first (R10). -/
def wr64 (lo : Nat) (v : DWord) (s : State) : State :=
  wr (lo + 4) (BitVec.ofNat 32 (v.toNat / 2 ^ 32)) (wr lo (BitVec.ofNat 32 v.toNat) s)

/-- The 64-bit value of a register pair. -/
def rd64 (lo : Nat) (s : State) : DWord := BitVec.ofNat 64 ((rd (lo + 4) s).toNat * 2 ^ 32 + (rd lo s).toNat)

/-- Apply `f` when `c` holds. -/
def onlyIf (c : Bool) (f : State → State) (s : State) : State := if c then f s else s

/-- Fold a state operation over a list. -/
def forAll {α : Type} (l : List α) (f : α → State → State) (s : State) : State :=
  l.foldl (fun t x => f x t) s

/-! ### Free values and rounding -/

/-- Hand the next free value to an operation (log entry 3). -/
def withFree (k : DWord → State → State) (s : State) : State :=
  k (Config.freeValue s.freeCtr) { s with freeCtr := s.freeCtr + 1 }

/-- `num / den` rounded to the nearest, an exact half by `up`. -/
def roundTie (num den : Nat) (up : Bool) : Nat :=
  if 2 * (num % den) < den then num / den
  else if 2 * (num % den) > den then num / den + 1
  else num / den + up.toNat

/-- `num / den` rounded to the nearest, halves away from zero (R122). -/
def roundAway (num : Int) (den : Nat) : Int :=
  if num < 0 then - Int.ofNat (roundTie num.natAbs den true) else Int.ofNat (roundTie num.natAbs den true)

/-- The execution time base in ns (R181): eight per CD_FABRIC cycle. -/
def nowNs (s : State) : Nat := 8 * s.cycle

/-- Module time in ns. -/
def moduleNs (s : State) : DWord := BitVec.ofNat 64 (s.mtime / 2 ^ 32)

/-- A word from a natural number. -/
def toW (n : Nat) : Word := BitVec.ofNat 32 n

/-- A 64-bit value from a natural number. -/
def toD (n : Nat) : DWord := BitVec.ofNat 64 n

/-! ### Interrupts -/

/-- Record a message sent at the boundary. DESIGN CHOICE: log entry 10. -/
def sendOut (o : Out) (s : State) : State := { s with out := s.out ++ [o] }

/-- The event and enable registers of the block with interrupt vector `v` (R608). -/
def irqPairs (v : Nat) : List (Nat × Nat) :=
  match v with
  | 0x01 => [(Reg.MOD_EVENT, Reg.MOD_IRQ_EN)]
  | 0x02 => [(Reg.SUP_EVENT, Reg.SUP_IRQ_EN)]
  | 0x03 => [(Reg.EXE_EVENT, Reg.EXE_IRQ_EN)]
  | 0x04 => [(Reg.TIDE_EVENT, Reg.TIDE_IRQ_EN), (Reg.TT_EVENT, Reg.TT_IRQ_EN),
      (Reg.SQ_DONE_EV, Reg.SQ_DONE_IRQ_EN), (Reg.SQ_FAULT_EV, Reg.SQ_FAULT_IRQ_EN)]
  | 0x05 => [(Reg.LOOP_EVENT, Reg.LOOP_IRQ_EN)]
  | 0x06 => [(Reg.DIO_EVENT, Reg.DIO_IRQ_EN)]
  | 0x07 => [(Reg.ANA_EVENT, Reg.ANA_IRQ_EN)]
  | 0x08 => [(Reg.RFX_EVENT, Reg.RFX_IRQ_EN)]
  | 0x0A => [(Reg.PAIR_EVENT, Reg.PAIR_IRQ_EN)]
  | 0x0B => [(Reg.TRIAD_EVENT, Reg.TRIAD_IRQ_EN)]
  | 0x0C => [(Reg.NET_EVENT, Reg.NET_IRQ_EN)]
  | 0x0D => [(Reg.CAN_EVENT, Reg.CAN_IRQ_EN)]
  | 0x0F => [(Reg.CLK_EVENT, Reg.CLK_IRQ_EN)]
  | 0x10 => [(Reg.MPU_EVENT, Reg.MPU_IRQ_EN)]
  | 0x11 => [(Reg.MBX_EV_DBL, Reg.MBX_IRQ_EN_DBL), (Reg.MBX_EV_ACK, Reg.MBX_IRQ_EN_ACK),
      (Reg.MBX_EV_RX, Reg.MBX_IRQ_EN_RX)]
  | 0x12 => [(Reg.LCY_EVENT, Reg.LCY_IRQ_EN)]
  | 0x13 => [(Reg.FWU_EVENT, Reg.FWU_IRQ_EN)]
  | 0x14 => [(Reg.QUE_EV_LO, Reg.QUE_IRQ_EN_LO), (Reg.QUE_EV_HI, Reg.QUE_IRQ_EN_HI)]
  | 0x15 => [(Reg.CAN_HP_EVENT, Reg.CAN_HP_IRQ_EN)]
  | _ => []

/-- The enabled-and-set level of a vector's block (R608). -/
def irqLevel (v : Nat) (s : State) : Bool :=
  if v = 0x0E then (s.strand.events &&& rd Reg.STR_IRQ_EN s) != 0
  else if v = 0x09 then rd Reg.SAF_EVENT s != 0
  else (irqPairs v).any (fun p => (rd p.1 s &&& rd p.2 s) != 0)

/-- An operation that may change the level of vector `v`: a rise of the level sends its message (R608). -/
def withIrq (v : Nat) (f : State → State) (s : State) : State :=
  let t := f s
  if !irqLevel v s && irqLevel v t then sendOut (.msix v) t else t

/-- Set event bits of a block. -/
def raise (v a : Nat) (m : Word) (s : State) : State := withIrq v (orReg a m) s

/-- Set an event field of a block. -/
def raiseF (v : Nat) (f : RegField) (s : State) : State := raise v f.addr (fieldMask f) s

/-- Set one bit of an event field that has a bit per resource. -/
def raiseBit (v : Nat) (f : RegField) (i : Nat) (s : State) : State := raise v f.addr (bitMask (f.lo + i)) s

/-! ### Memory -/

/-- The byte at an internal address; an unlisted byte reads as zero (log entry 11). -/
def mget (a : Nat) (s : State) : Byte := Sparse.get (fun _ => 0) s.mem a

/-- Write a byte. -/
def mset (a : Nat) (b : Byte) (s : State) : State := { s with mem := Sparse.set (fun _ => 0) s.mem a b }

/-- The `n` bytes from `a` on as a little-endian number. -/
def mgetN (a : Nat) (n : Nat) (s : State) : Nat :=
  match n with
  | 0 => 0
  | k + 1 => (mget a s).toNat + 256 * mgetN (a + 1) k s

/-- Write a number as `n` little-endian bytes from `a` on. -/
def msetN (a : Nat) (n : Nat) (v : Nat) (s : State) : State :=
  match n with
  | 0 => s
  | k + 1 => msetN (a + 1) k (v / 256) (mset a (BitVec.ofNat 8 v) s)

/-- The bytes of a number, low byte first. -/
def leBytes (n : Nat) (v : Nat) : List Byte :=
  match n with
  | 0 => []
  | k + 1 => BitVec.ofNat 8 v :: leBytes k (v / 256)

/-- The number that bytes give, low byte first. -/
def leNat : List Byte → Nat
  | [] => 0
  | b :: t => b.toNat + 256 * leNat t

/-- Write bytes from `a` on. -/
def msetBytes (a : Nat) (l : List Byte) (s : State) : State :=
  match l with
  | [] => s
  | b :: t => msetBytes (a + 1) t (mset a b s)

/-- The `n` bytes from `a` on. -/
def mgetBytes (a : Nat) (n : Nat) (s : State) : List Byte :=
  match n with
  | 0 => []
  | k + 1 => mget a s :: mgetBytes (a + 1) k s

/-- Zero the bytes of a range. -/
def mclear (a n : Nat) (s : State) : State :=
  { s with mem := s.mem.filter (fun p => decide (p.1 < a) || decide (a + n ≤ p.1)) }

/-- Bits of the CRC-32C register shifted out (R420). -/
def crcShift : Nat → Word → Word
  | 0, c => c
  | k + 1, c => crcShift k (if c.getLsbD 0 then (c >>> 1) ^^^ 0x82F63B78#32 else c >>> 1)

/-- The CRC-32C of R420 over bytes, with the register seeded to 0xFFFF_FFFF xor the key. -/
def crc32c (key : Word) (l : List Byte) : Word :=
  (l.foldl (fun c b => crcShift 8 (c ^^^ b.zeroExtend 32)) (0xFFFFFFFF#32 ^^^ key)) ^^^ 0xFFFFFFFF#32

/-! ### Strandline: presenting a record -/

/-- The event code of a module record (R569). -/
def strCode (st : Status) : Nat :=
  let hi := st.toNat / 256
  (if hi < 0x20 then hi else hi - 0x0B) * 128 + st.toNat % 128

/-- STR_RL_CFG of a code at reset (R574): region codes have no limit and PRIO 1. -/
def rlDefault (c : Nat) : Word := if 0xA80 ≤ c ∧ c ≤ 0xD7F then 0x00002080 else 0x00642000

/-- STR_RL_CFG of a code. -/
def rlCfg (c : Nat) (s : State) : Word := Sparse.get rlDefault s.strand.rlCfg c

/-- A rate-limit word's RATE and BURST; BURST 0 is taken as 1 (R574). -/
def rlRate (w : Word) : Nat := fieldOf w Fld.STR_RL_CFG_RATE
def rlBurst (w : Word) : Nat := max 1 (fieldOf w Fld.STR_RL_CFG_BURST)

/-- The side of the pair this module is by its latched slot identity: side B (R66). -/
def sideB (s : State) : Bool := s.sup.sid == 1

/-- A record presented now (Table STRAND-1). -/
def mkRec (src : StrSource) (st : Status) (code origin : Nat) (datum : DWord) (s : State) : StrRec :=
  { stamp := moduleNs s, status := st, untrusted := s.strand.untrusted
    undisc := !flag Fld.PTP_STATE_DISCIPLINED s, source := src, code := code, datum := datum
    origin := origin, pair := fld Fld.PAIR_STATE_STATE s + (if sideB s then 16 else 0) }

/-- Set event bits of STR_EVENT. -/
def strEvent (f : RegField) (s : State) : State :=
  withIrq 0x0E (fun t => { t with strand := { t.strand with events := t.strand.events ||| fieldMask f } }) s

/-- A record that finds no room is lost (R571). -/
def strLose (s : State) : State :=
  strEvent Fld.STR_EVENT_LOST { s with strand := { s.strand with
    lost := min (s.strand.lost + 1) 0xFFFF, lostSince := s.strand.lostSince + 1 } }

/-- The record may use the reserved queue entries (R571). -/
def strPrivileged (r : StrRec) : Bool :=
  r.source == .module && (decide (0x20 ≤ r.status.toNat / 256) || r.status == Code.SUP_MODULE_EBB
    || r.status == Code.STR_LOST_RECORDS)

/-- A record that passed its rate limit takes its place (R571, R575, R576, R580). While the ring is
scanned it waits in the hold area without a SEQ (R581). -/
def strAccept (r : StrRec) (s : State) : State :=
  let st := s.strand
  match st.phase with
  | .starting =>
    if st.hold.length < 65536 then { s with strand := { st with hold := st.hold ++ [r] } } else strLose s
  | .run =>
    if st.queue.length < (if strPrivileged r then 256 else 240) then
      { s with strand := { st with seq := st.seq + 1, queue := st.queue ++ [{ r with seq := st.seq + 1 }] } }
    else strLose s
  | .frozen | .thawing =>
    if st.hold.length < 65536 then
      { s with strand := { st with seq := st.seq + 1, hold := st.hold ++ [{ r with seq := st.seq + 1 }] } }
    else if st.holdFullSaid then strLose s
    else strEvent Fld.STR_EVENT_HOLD_FULL (strLose (strLose
      { s with strand := { st with holdFullSaid := true } }))

/-- ns per token of a rate (R573); the rounding of an exact half is free. -/
def rlToken (rate : Nat) (s : State) : Nat :=
  roundTie 1000000000 rate (Config.roundUp 0 rate)

/-- Present a record: the rate limit of its code first (R573), then the writer. -/
def present (r : StrRec) (s : State) : State :=
  let w := rlCfg r.code s
  let sup := Sparse.get (fun _ => 0) s.strand.suppr r.code
  let pass := fun t => strAccept { r with suppr := sup }
    { t with strand := { t.strand with suppr := Sparse.erase t.strand.suppr r.code } }
  if rlRate w = 0 then pass s
  else
    let tk := rlToken (rlRate w) s
    let tat := Sparse.get (fun _ => 0) s.strand.tat r.code
    if tat ≤ nowNs s + (rlBurst w - 1) * tk then
      pass { s with strand := { s.strand with
        tat := Sparse.set (fun _ => 0) s.strand.tat r.code (max tat (nowNs s) + tk) } }
    else { s with strand := { s.strand with
      suppr := Sparse.set (fun _ => 0) s.strand.suppr r.code (min (sup + 1) 0xFFFF)
      suppressed := min (s.strand.suppressed + 1) 0xFFFF } }

/-- Report a status with its datum. -/
def sayD (st : Status) (datum : DWord) (s : State) : State :=
  present (mkRec .module st (strCode st) 0 datum s) s

/-- Report a status whose datum the spec does not give: the datum is free (log entry 3). -/
def say (st : Status) (s : State) : State := withFree (fun d => sayD st d) s

/-- Report a region status to the host (vector 0x00) and to Strandline (R56, R608). -/
def sayRegion (st : Status) (s : State) : State := say st (sendOut (.msix 0) s)

/-- Complete a command with a status in its RESULT field; a status other than success is reported
(log entry 12). -/
def result (f : RegField) (st : Status) (s : State) : State :=
  onlyIf (st.toNat % 256 != 0) (say st) (setFld f st.toNat s)

/-! ### The protection unit -/

/-- Kind of an access (R612). -/
inductive Acc where
  | read | write | fetch
  deriving DecidableEq, Repr

/-- A descriptor over the granules of a byte range with attribute bits 31:27 (Table MPU-1). -/
def mkDesc (first last attr : Nat) : Desc :=
  { w0 := toW (first / 64), w1 := toW (last / 64), w2 := toW (attr * 2 ^ 27) }

/-- Attributes of a default descriptor: EN with R; with R and W; with R and X; with R, W and X. -/
def attrR : Nat := 0b11000
def attrRW : Nat := 0b11100
def attrRX : Nat := 0b11010
def attrRWX : Nat := 0b11110

/-- The default descriptors of a master (Table MPU-3); their numbers are the model's (log entry 13). -/
def defaultRules (m : Nat) : List Desc :=
  let code := fun a => mkDesc 0x000000000 0x001FFFFFF a
  let data := fun a => mkDesc 0x002000000 0x009FFFFFF a
  let image := fun a => mkDesc 0x00A000000 0x00AFFFFFF a
  let cause := fun a => mkDesc 0x00B000000 0x00BFFFFFF a
  let queues := fun a => mkDesc 0x00C000000 0x00FFFFFFF a
  let fw := fun a => mkDesc 0x018200000 0x01BFFFFFF a
  let host := fun a => mkDesc 0x020000000 0x1FFFFFFFF a
  let sram := fun a => mkDesc 0x200000000 0x2003FFFFF a
  let tags := fun a => mkDesc 0x200400000 0x2004FFFFF a
  let trace := fun a => mkDesc 0x201000000 0x2017FFFFF a
  let step := fun a => mkDesc 0x201800000 0x2019FFFFF a
  let mbx := fun a => mkDesc 0x400100000 0x40010FFFF a
  match m with
  | 0 => [code attrRX, data attrRW, image attrRW, sram attrRW, tags attrR, trace attrR, step attrRW, mbx attrRW]
  | 1 => [image attrRW, trace attrRW, tags attrR]
  | 2 => [mbx attrRW, mkDesc 0x400130000 0x40013FFFF attrRW, queues attrRW, fw attrRW, image attrR]
  | 3 => [mkDesc 0x000000000 0x1FFFFFFFF attrRWX, sram attrRWX, tags attrRWX, trace attrRWX, step attrRWX,
      mkDesc 0x300000000 0x37FFFFFFF attrRWX, mkDesc 0x400000000 0x403FFFFFF attrRWX]
  | 4 => [data attrRW, image attrRW, sram attrRW, cause attrRW, queues attrRW, step attrR, tags attrR]
  | 5 => [queues attrRW, data attrR, image attrR]
  | 6 => [queues attrRW, image attrRW]
  | 7 => [mkDesc 0x010000000 0x0181FFFFF attrRW, queues attrRW]
  | 8 => [mkDesc 0x400000000 0x403FFFFFF attrRW, queues attrRW, host attrRW, image attrR, tags attrR, trace attrR, step attrR]
  | 9 => [mkDesc 0x400000000 0x403FFFFFF attrRW, host attrRW, queues attrRW, image attrRW, tags attrRW,
      mkDesc 0x010000000 0x0181FFFFF attrRW, trace attrRW, step attrRW, code attrRW, data attrRW, sram attrRW,
      mkDesc 0x300000000 0x37FFFFFFF attrR]
  | _ => []

/-- Descriptor `k % 32` of master `k / 32` before any commit (R615): they fill the numbers from 1 on, since the
staging registers, which show descriptor 0 of M0 at reset, read 0 there (Table MPU-5). -/
def defaultDesc (k : Nat) : Desc := if k % 32 = 0 then {} else ((defaultRules (k / 32))[k % 32 - 1]?).getD {}

/-- COLOUR_MASK and COLOUR of a master before any commit (R615). -/
def defaultCfg (_ : Nat) : Word := 0xFFFF0000

/-- A master's configuration word in a rule set, in the layout of MPU_STG_MCFG. -/
def mpuCfg (r : MpuRules) (m : Nat) : Word := Sparse.get defaultCfg r.cfg m

/-- A descriptor of a rule set. -/
def mpuDesc (r : MpuRules) (m d : Nat) : Desc := Sparse.get defaultDesc r.desc (m * 32 + d)

/-- The access colour of a master (R610). -/
def masterColour (m : Nat) (s : State) : Nat := fieldOf (mpuCfg s.mpu.rules m) Fld.MPU_STG_MCFG_COLOUR

def inRange (a lo hi : Nat) : Bool := decide (lo ≤ a) && decide (a ≤ hi)

/-- A fixed rule of Table MPU-2 forbids the access. -/
def mpuFixed (m a : Nat) (k : Acc) : Bool :=
  (inRange a 0x010000000 0x0181FFFFF && k == .write && m != 7)
  || inRange a 0x01C000000 0x01FFFFFFF
  || (inRange a 0x018200000 0x01BFFFFFF && m != 3 && m != 2)
  || (inRange a 0x00B000000 0x00BFFFFFF && k == .write && m != 4 && m != 3)
  || (inRange a 0x300000000 0x37FFFFFFF && k == .write)
  || (inRange a 0x401000000 0x401FFFFFF && k == .write && m == 8)
  || (inRange a 0x4000F0000 0x4000FFFFF && k == .write && m != 8 && m != 3)

/-- End of the installed DRAM (Table MEM-1): an S4 has 4 GiB. -/
def dramEnd : Nat := if Config.variant = 0 then 0x0FFFFFFFF else 0x1FFFFFFFF

/-- An address inside a target of Table MEM-1. -/
def populated (a : Nat) : Bool :=
  if a < 0x200000000 then decide (a ≤ dramEnd)
  else inRange a 0x200000000 0x2004FFFFF || inRange a 0x201000000 0x2019FFFFF
    || inRange a 0x300000000 0x37FFFFFFF || inRange a 0x400000000 0x403FFFFFF

/-- Tagged targets (R609). -/
def tagged (a : Nat) : Bool := decide (a ≤ 0x1FFFFFFFF) || inRange a 0x200000000 0x2004FFFFF

/-- The colour of the granule that holds `a`. -/
def granuleColour (a : Nat) (s : State) : Nat :=
  if tagged a then ((s.mpu.colours.find? (fun c => inRange (a / 64) c.1 c.2.1)).map (·.2.2)).getD 0 else 0

/-- The lowest-numbered enabled descriptor of a master over an address, among the first `n` from `d` on. -/
def findDesc (r : MpuRules) (m a : Nat) : Nat → Nat → Option Desc
  | 0, _ => none
  | n + 1, d =>
    let x := mpuDesc r m d
    if x.w2.getLsbD 31 && inRange (a / 64) (x.w0.toNat % 2 ^ 30) (x.w1.toNat % 2 ^ 30) then some x
    else findDesc r m a n (d + 1)

/-- The check of one part of an access (R612): the cause of a denial, or none. -/
def mpuCheck (m a : Nat) (k : Acc) (colour : Nat) (s : State) : Option Nat :=
  if mpuFixed m a k then some 0
  else if !populated a then some 5
  else match findDesc s.mpu.rules m a 32 0 with
    | none => some 1
    | some d =>
      if !(match k with | .read => d.w2.getLsbD 30 | .write => d.w2.getLsbD 29 | .fetch => d.w2.getLsbD 28) then some 2
      else if tagged a then
        let g := granuleColour a s
        if !(mpuCfg s.mpu.rules m).getLsbD (16 + g) then some 3
        else if k == .write && g != colour && !d.w2.getLsbD 27 then some 4
        else none
      else none

/-- The denial datum (Table MPU-7). -/
def denyDatum (m a : Nat) (k : Acc) (colour cause : Nat) (s : State) : DWord :=
  let kind := match k with | .read => 0 | .write => 1 | .fetch => 2
  toD (m * 2 ^ 60 + colour * 2 ^ 56 + granuleColour a s * 2 ^ 52 + cause * 2 ^ 49 + kind * 2 ^ 47 + a % 2 ^ 36)

/-- Record a denied access (R613, R600). -/
def mpuDeny (m a : Nat) (k : Acc) (colour cause : Nat) (s : State) : State :=
  let d := denyDatum m a k colour cause s
  s |> bump (Fld.MPU_DENY_COUNTm_COUNT m) |> wr64 Reg.MPU_DENY_LO d
    |> raiseF 0x10 Fld.MPU_EVENT_DENIED
    |> sayD (if cause = 5 then Code.MPU_DECODE else Code.MPU_DENIED) d

/-! ### The host's path to a register -/

/-- The power state (Table SUP-1). -/
def power (s : State) : Nat := fld Fld.SUP_PWR_STATE_STATE s

/-- The module answers a host access at window offset `a`: it is not in OFF or in reset, and before the
end of start-up only MOD and SUP act, and FWU and QUE without firmware (R671, R681, R682). -/
def hostAnswers (a : Nat) (s : State) : Bool :=
  power s != 0 && !s.sup.inReset
  && (flag Fld.MOD_STATUS_START_DONE s || decide (a < 0x20000) || (s.fwu.noFw && inRange a 0x120000 0x13FFFF))

/-- The protection check of an access at window offset `a`, of the host as master M8 (R54); within a DEBUG_ACCESS, of
the debugger as M9. -/
def hostCause (a : Nat) (k : Acc) (s : State) : Option Nat :=
  mpuCheck s.accMaster (0x400000000 + a) k (masterColour s.accMaster s) s

/-- The host's access is answered and allowed. -/
def hostOk (a : Nat) (k : Acc) (s : State) : Bool := hostAnswers a s && (hostCause a k s).isNone

/-- A host access of one register: not answered it does nothing; denied it is recorded (R54, R613). -/
def hostAcc (a : Nat) (k : Acc) (f : State → State) (s : State) : State :=
  if !hostAnswers a s then s
  else match hostCause a k s with
    | none => f s
    | some c => mpuDeny s.accMaster (0x400000000 + a) k (masterColour s.accMaster s) c s

/-- A host write of a register or command register. -/
def hostCmd (a : Nat) (f : State → State) (s : State) : State := hostAcc a .write f s

/-! ### Power and ebb -/

/-- The module runs: it is neither in reset nor in OFF, and CD_FABRIC ticks. -/
def alive (s : State) : Bool := !s.sup.inReset && power s != 0 && !s.sup.fabricStopped

/-- The regions that READY powers run (Table SUP-1). -/
def regionsUp (s : State) : Bool := alive s && decide (2 ≤ power s)

/-- A region is in fallback: 0 Logic, 1 Loop, 2 Field, 3 Link, 4 Safety, 5 backup domain (Table SUP-6). -/
def inFallback (r : Nat) (s : State) : Bool := bitAt Reg.SUP_REGIONS r s

/-- The module time is disciplined (Table NET-2). -/
def disciplined (s : State) : Bool := flag Fld.PTP_STATE_DISCIPLINED s

/-! ### The causeway and the pair -/

/-- The pair state of this side, and the partner's by its last heartbeat (Table PAIR-1). -/
def pairState (s : State) : Nat := fld Fld.PAIR_STATE_STATE s
def peerState (s : State) : Nat := fld Fld.PAIR_STATE_PEER s

/-- A standby side: SYNCING, TRACKING or IN_STEP. -/
def onStandby (s : State) : Bool := inRange (pairState s) 2 4

/-- The partner mirrors this side: this side is ACTIVE and the partner's last heartbeat shows SYNCING, TRACKING or
IN_STEP (Table PAIR-1). -/
def mirroring (s : State) : Bool :=
  pairState s == 1 && inRange (peerState s) 2 4 && (flag Fld.PAIR_STATE_CW1_OK s || flag Fld.PAIR_STATE_CW2_OK s)

/-- Ordered kinds of Table PAIR-2: RELEASE, SCHED, REPLAY, COMMIT, STATE, SEQ and CONTROL. -/
def cwOrdered (kind : Nat) : Bool := [1, 2, 3, 4, 5, 7, 12].contains kind

/-- The causeway runs: the module is not alone, out of reset, and CD_CAUSE and CD_FABRIC tick (R466, Table ARCH-4). -/
def cwUp (s : State) : Bool :=
  alive s && decide (2 ≤ power s) && pairState s != 5 && !s.sup.clockFailed.contains .cause

/-- Bytes of unacknowledged records (R471). -/
def unackedBytes (s : State) : Nat := (s.pair.unacked.map (fun r => 8 * r.2.2.length)).foldl (· + ·) 0

/-- Send a record on the causeway (R470, R471); an ordered one waits for its acknowledgement. When the buffer
overflows, the standby side is sent to SYNCING. -/
def cwSend (kind : Nat) (data : List DWord) (s : State) : State :=
  if !cwUp s then s
  else
    let s := sendOut (.causeway kind data) s
    if cwOrdered kind then
      let q := Sparse.get (fun _ => 0) s.pair.sent kind + 1
      let s := { s with pair := { s.pair with
        sent := Sparse.set (fun _ => 0) s.pair.sent kind q
        unacked := s.pair.unacked ++ [(kind, q, data)] } }
      if 0x400000 < unackedBytes s then
        sendOut (.causeway 12 [12, 3]) { s with pair := { s.pair with unacked := [] } }
      else s
    else s

/-- Send a mirror record while the partner mirrors this side. -/
def cwMirror (kind : Nat) (data : List DWord) (s : State) : State := onlyIf (mirroring s) (cwSend kind data) s

/-- Send a SCHED or REPLAY record, which goes to a standby side in step only (R490). -/
def cwStep (kind : Nat) (data : List DWord) (s : State) : State := onlyIf (peerState s == 4) (cwMirror kind data) s

/-- The execution time base (R181), which a standby side takes from its partner (R481). -/
def execBase (s : State) : Nat := ((nowNs s : Int) + s.exe.base).toNat

/-- HB_PERIOD in ns. -/
def hbPeriod (s : State) : Nat := 1000 * fld Fld.PAIR_CFG_HB_PERIOD s

/-- This side is takeover-capable (R469). -/
def pairCapable (s : State) : Bool :=
  inRange (pairState s) 3 4 && [1, 2, 4].contains (fld Fld.TRIAD_STATE_MODE s)
  && fld Fld.SUP_REGIONS_FALLBACK s % 32 == 0
  && (fld Fld.SAF_STATE_STATE s == 2 || (fld Fld.SAF_STATE_STATE s == 3 && s.saf.mirrorSplit))
  && s.sup.leverClosed && s.pair.peer.any (fun h => h.major.toNat == Config.pairVersion.toNat / 256)
  && decide (power s = 3)

/-- The heartbeat of Table PAIR-3 as four 64-bit words. -/
def heartbeat (s : State) : List DWord :=
  let b0 := pairState s * 16 + s.sup.sid.toNat * 4 + fld Fld.PAIR_CFG_HOME s
  let b1 := (flag Fld.PAIR_STATE_AUTH_HELD s).toNat * 128 + (pairCapable s).toNat * 64 + s.sup.leverClosed.toNat * 32
    + fld Fld.PAIR_CTRL_RECLAIM_INHIBIT s * 16
  let d0 := toD (b0 + b1 * 2 ^ 8 + fld Fld.PAIR_CFG_HB_PERIOD s * 2 ^ 16 + s.pair.hbSeq.toNat * 2 ^ 32)
  let d1 := toD (execBase s)
  let d2 := toD (fld Fld.TRIAD_HEALTH_SINCE s + fld Fld.TRIAD_STATE_MODE s * 2 ^ 16
    + fld Fld.SUP_REGIONS_FALLBACK s * 2 ^ 24 + Config.pairVersion.toNat * 2 ^ 32 + fld Fld.PAIR_LAST_CAUSE_STATUS s * 2 ^ 48)
  let crc := (rd Reg.EXE_IMAGE_CRC s).toNat
  let sum := crc32c 0 (leBytes 8 d0.toNat ++ leBytes 8 d1.toNat ++ leBytes 8 d2.toNat ++ leBytes 4 crc)
  [d0, d1, d2, toD (crc + sum.toNat * 2 ^ 32)]

/-- Send a heartbeat on both paths (R473). -/
def hbSend (s : State) : State :=
  let s := { s with pair := { s.pair with hbSeq := s.pair.hbSeq + 1 } }
  cwSend 0 (heartbeat s) s

/-- Enter a pair state; a change sends a heartbeat at once (Table PAIR-2). A lone module stays ALONE (R466). -/
def pairTo (n : Nat) (s : State) : State :=
  if pairState s = 5 || pairState s = n then s
  else setFld Fld.PAIR_STATE_STATE n s
    |> onlyIf (n == 2 || n == 3) (raiseF 0x0A Fld.PAIR_EVENT_TRACKING)
    |> onlyIf (n == 3) (bump Fld.PAIR_COUNTS_TRACKING)
    |> onlyIf (n == 4) (raiseF 0x0A Fld.PAIR_EVENT_IN_STEP)
    |> hbSend

/-- A standby side enters SYNCING (R471, R487, R494, R707): what it held of the active side's cycles is dropped. -/
def syncStart (s : State) : State :=
  { s with
    pair := { s.pair with trackAt := none, replay := [], sched := [], mine := [], theirs := [] }
    exe := { s.exe with tasks := [], running := none } }
    |> pairTo 2 |> say Code.PAIR_SYNC_START

/-! ### CAN message buffers (Table CAN-1) -/

def canBuf (c b : Nat) (s : State) : CanBuf := Sparse.get (fun _ => {}) s.can (c * 64 + b)
def onCan (c b : Nat) (f : CanBuf → CanBuf) (s : State) : State :=
  { s with can := Sparse.set (fun _ => {}) s.can (c * 64 + b) (f (canBuf c b s)) }

/-- Word `i` of a buffer. -/
def CanBuf.word (x : CanBuf) (i : Nat) : Word := Sparse.get (fun _ => 0) x.words i
def CanBuf.setWord (i : Nat) (v : Word) (x : CanBuf) : CanBuf := { x with words := Sparse.set (fun _ => 0) x.words i v }

/-- A field of a buffer: the word number stands in place of the address (Table CAN-1). -/
def CanBuf.get (x : CanBuf) (f : RegField) : Nat := fieldOf (x.word f.addr) f
def CanBuf.has (x : CanBuf) (f : RegField) : Bool := x.get f != 0
def CanBuf.put (f : RegField) (v : Nat) (x : CanBuf) : CanBuf := x.setWord f.addr (withField (x.word f.addr) f v)

abbrev canKind : RegField := ⟨0, 30, 2⟩
abbrev canIde : RegField := ⟨0, 29, 1⟩
abbrev canId : RegField := ⟨0, 0, 29⟩
abbrev canOwner : RegField := ⟨1, 30, 2⟩
abbrev canLock : RegField := ⟨1, 29, 1⟩
abbrev canMask : RegField := ⟨1, 0, 29⟩
abbrev canFdf : RegField := ⟨2, 31, 1⟩
abbrev canDlc : RegField := ⟨2, 26, 4⟩
abbrev canTxMode : RegField := ⟨2, 24, 2⟩
abbrev canTask : RegField := ⟨2, 21, 3⟩
abbrev canTag : RegField := ⟨2, 0, 16⟩
abbrev canSeq : RegField := ⟨3, 28, 4⟩
abbrev canFull : RegField := ⟨3, 27, 1⟩
abbrev canOverrun : RegField := ⟨3, 26, 1⟩
abbrev canPending : RegField := ⟨3, 25, 1⟩
abbrev canLast : RegField := ⟨3, 0, 16⟩
abbrev canTimeout : RegField := ⟨6, 0, 32⟩

/-- Report a status of a buffer. -/
def canSay (c b : Nat) (st : Status) (s : State) : State := onCan c b (fun x => x.put canLast st.toNat) s |> say st

/-- A pending request is withdrawn with a status. -/
def canWithdraw (c b : Nat) (st : Status) (s : State) : State :=
  onCan c b (fun x => { x.put canPending 0 with cancelled := false }) s |> canSay c b st

/-- Withdrawn by its deadline or by a cancel. -/
def canTxFail (c b : Nat) (st : Status) (s : State) : State :=
  s |> canWithdraw c b st |> raiseF 0x0D Fld.CAN_EVENT_TX_FAIL

def canPendingAt (c b : Nat) (s : State) : Bool := (canBuf c b s).get canKind == 2 && (canBuf c b s).has canPending

/-- Authority is released: every pending transmission is withdrawn (R561). -/
def canWithdrawAll (s : State) : State :=
  forAll (List.range 4) (fun c t => forAll ((List.range 64).filter (fun b => canPendingAt c b t))
    (fun b => canTxFail c b Code.CAN_CANCELLED) t) s

/-- This side stops driving AUTH (R37, R99); a release of authority is announced with its cause (R493). -/
def releaseAuth (cause : Status) (s : State) : State :=
  let held := flag Fld.PAIR_STATE_AUTH_HELD s
  let t := setFlag Fld.PAIR_STATE_AUTH_HELD false
    { s with sup := { s.sup with authDriven := false, contesting := false, claimAt := none } }
  if held then t |> setFld Fld.PAIR_LAST_CAUSE_STATUS cause.toNat |> raiseF 0x0A Fld.PAIR_EVENT_AUTH_CHANGE
    |> canWithdrawAll |> hbSend
  else t

/-- The module level (R37, R676): the supervisor core sets EBB and MODULE_FAULT, reports SUP_MODULE_EBB
with the originating status, and releases AUTH; the pair state is OUT (Table PAIR-1). -/
def moduleEbb (st : Status) (s : State) : State :=
  s |> setFlag Fld.SUP_PWR_STATE_EBB true |> setFlag Fld.SUP_PWR_STATE_MODULE_FAULT true
    |> raiseF 0x02 Fld.SUP_EVENT_MODULE |> sayD Code.SUP_MODULE_EBB (toD st.toNat) |> releaseAuth st |> pairTo 6

/-! ### Locks and regions -/

/-- Free by force every lock whose holder `p` names (R627); each is reported, with a datum whose layout
the spec leaves open. -/
def forceLocks (p : Nat → LockHold → Bool) (s : State) : State :=
  let gone := s.locks.filter (fun x => p x.1 x.2)
  forAll gone (fun _ t => say Code.MBX_LOCK_FORCED t)
    { s with locks := s.locks.filter (fun x => !p x.1 x.2) }

/-- Masters that belong to a region (Table ARCH-1). -/
def regionMasters (r : Nat) : List Nat :=
  match r with
  | 0 => [0, 7]
  | 1 => [1]
  | 3 => [4, 5, 6, 8]
  | 4 => [2]
  | _ => []

/-- A region enters its fallback (R34): SUP_REGIONS, SUP_EVENT, the region status and the locks of the
region's masters (R627). The region's own action follows from the bit or is added by `enterFallback`. -/
def markFallback (r : Nat) (s : State) : State :=
  s |> setBitAt Reg.SUP_REGIONS r true |> raiseF 0x02 Fld.SUP_EVENT_FALLBACK
    |> sayRegion (Code.REGION_FALLBACK r) |> forceLocks (fun _ h => (regionMasters r).contains h.master)

end Sys2Proof.Machine
end

