-- ==== Sys2Proof/Machine/Cells.lean ====
section
/-! DEFINITION. The cells of the Field and Safety regions, the tags that name them, and the arbitration of
output cells (R18 to R26): the value each output presents is selected from its writers and registered. -/
namespace Sys2Proof.Machine

/-! ### Parts of the state by index -/

def dioCh (n : Nat) (s : State) : DioCh := Sparse.get (fun _ => {}) s.dio n
def onDio (n : Nat) (f : DioCh → DioCh) (s : State) : State :=
  { s with dio := Sparse.set (fun _ => {}) s.dio n (f (dioCh n s)) }
def dioBank (k : Nat) (s : State) : DioBank := Sparse.get (fun _ => {}) s.dioBank k
def onDioBank (k : Nat) (f : DioBank → DioBank) (s : State) : State :=
  { s with dioBank := Sparse.set (fun _ => {}) s.dioBank k (f (dioBank k s)) }
def poCh (n : Nat) (s : State) : PoCh := Sparse.get (fun _ => {}) s.po n
def setPo (n : Nat) (c : PoCh) (s : State) : State := { s with po := Sparse.set (fun _ => {}) s.po n c }
def term (j : Nat) (s : State) : Term := Sparse.get (fun _ => {}) s.terms j
def onTerm (j : Nat) (f : Term → Term) (s : State) : State :=
  { s with terms := Sparse.set (fun _ => {}) s.terms j (f (term j s)) }
def anCh (n : Nat) (s : State) : AnCh := Sparse.get (fun _ => {}) s.an n
def onAn (n : Nat) (f : AnCh → AnCh) (s : State) : State :=
  { s with an := Sparse.set (fun _ => {}) s.an n (f (anCh n s)) }
def anBank (k : Nat) (s : State) : AnBank := Sparse.get (fun _ => {}) s.anBank k
def onAnBank (k : Nat) (f : AnBank → AnBank) (s : State) : State :=
  { s with anBank := Sparse.set (fun _ => {}) s.anBank k (f (anBank k s)) }
def sq (n : Nat) (s : State) : SqOut := Sparse.get (fun _ => {}) s.saf.sq n
def onSq (n : Nat) (f : SqOut → SqOut) (s : State) : State :=
  { s with saf := { s.saf with sq := Sparse.set (fun _ => {}) s.saf.sq n (f (sq n s)) } }
def siPair (p : Nat) (s : State) : SiPair := Sparse.get (fun _ => {}) s.saf.si p
def onSi (p : Nat) (f : SiPair → SiPair) (s : State) : State :=
  { s with saf := { s.saf with si := Sparse.set (fun _ => {}) s.saf.si p (f (siPair p s)) } }
def ttOut (c : Nat) (s : State) : TTOut := Sparse.get (fun _ => {}) s.ttOut c
def onTTOut (c : Nat) (f : TTOut → TTOut) (s : State) : State :=
  { s with ttOut := Sparse.set (fun _ => {}) s.ttOut c (f (ttOut c s)) }

/-- The code of a tide-capable output (R135). -/
def tideOutCode : TideOut → Nat
  | .dio k => k
  | .po k => 0x100 + k

/-! ### Safety switches -/

/-- A(p) and the antivalence of B(p) by Breakwater's own filters (R383). -/
def healthyBw (p : Nat) (s : State) : Bool :=
  let x := siPair p s
  match fld (Fld.SIp_CFG_MODE p) s with
  | 1 => x.bwA && x.bwB
  | 2 => x.bwA && !x.bwB
  | _ => false

/-- This side's AUTH sense shows the line free (R383). -/
def authFree (s : State) : Bool := !s.sup.authDriven && !s.sup.authOther

/-- LS_ON(n) with a level of LS_REQ(n) (R383). -/
def lsOnWith (n : Nat) (req : Bool) (s : State) : Bool :=
  let x := sq n s
  let pairs := (List.range 8).all (fun p => !(fld (Fld.SQn_CFG_SI_MASK n) s).testBit p || healthyBw p s)
  let run := req && s.saf.bwAuth && pairs
  let bt := x.lsTest && !x.hs && (s.saf.bwAuth || authFree s)
  s.saf.hbOk && !s.sup.hardEbb && !flag Fld.SAF_STATE_SPLIT_STRAP s && (run || bt)

/-- LS_ON(n) (R383). -/
def lsOn (n : Nat) (s : State) : Bool := lsOnWith n (sq n s).lsReq s

/-- SQn is energised (R390): its state is ON and its switches are closed, but for the one that a dark test has open. -/
def sqEnergised (n : Nat) (s : State) : Bool :=
  let x := sq n s
  let dark := fun h => x.test.any (fun t => t.dark && t.hs == h)
  x.st == .on && (x.hs || dark true) && lsOnWith n (x.lsReq || dark false) s

/-- A safety-configuration claim asserts its demand on a cell (R390). -/
def safDemand (cell : Nat) (s : State) : Bool :=
  (List.range 16).any (fun i => flag (Fld.SAF_CLAIM_EN i) s && fld (Fld.SAF_CLAIM_CELL i) s == cell
    && !sqEnergised (fld (Fld.SAF_CLAIM_SQ i) s) s)

/-! ### Invalid cells -/

def dioDir (n : Nat) (s : State) : Bool := flag (Fld.DIOn_CFG_DIR n) s

/-- A DIO cell is marked invalid: by its own checks, by its delay line, by its bank, or by the Field region's fallback
(R26, R29, R146, R315, R328, R330, Table ARCH-4). -/
def dioInvalid (n : Nat) (s : State) : Bool :=
  let b := dioBank (n / 8) s
  if dioDir n s then (dioCh n s).mark || (decide (n < 8) && (ttOut n s).lineFailed) || b.st == .latchedOff || b.st == .switchedOff
  else (dioCh n s).mark || b.low || b.st == .isolated || inFallback 2 s

def anMode (n : Nat) (s : State) : Nat := fld (Fld.ANn_CFG_MODE n) s
def anEnabled (n : Nat) (s : State) : Bool := bitAt Reg.ANA_ENABLE n s
def anOutput (n : Nat) (s : State) : Bool := anMode n s == 4

/-- An analog cell is marked invalid (R354, R360, R366, R369, R29, Table ARCH-4). -/
def anInvalid (n : Nat) (s : State) : Bool :=
  let x := anCh n s
  !anEnabled n s || anMode n s == 0 || x.fault != 0
  || (!anOutput n s && (x.waitConv || (anBank (n / 4) s).isolated || inFallback 2 s))

/-! ### Tags -/

/-- The running image's entry of a tag; a tag with TYPE 0 is undefined (R187). -/
def tagDef (t : Nat) (s : State) : Option TagDef :=
  (s.exe.image.bind (fun i => Sparse.find i.tags t)).filter (fun d => d.typ != 0)

/-- The force value of a tag, when a force-table entry holds it (R191). -/
def forceOf (t : Nat) (s : State) : Option DWord := (s.exe.forces.find? (fun e => e.2.1 == t)).map (·.2.2)

/-- The output tag of a local cell (R189). -/
def outTagAt (cell : Nat) (s : State) : Option Nat :=
  (s.exe.image.bind (fun i => i.tags.find? (fun e => e.2.typ != 0 && e.2.locKind == 1 && e.2.output
    && e.2.location.toNat % 65536 == cell))).map (·.1)

/-- Tag memory: the value at a slot of eight bytes (Table MEM-3). -/
def tagMemGet (slot : Nat) (s : State) : DWord := Sparse.get (fun _ => 0) s.exe.tagMem slot
def tagMemSet (slot : Nat) (v : DWord) (s : State) : State :=
  { s with exe := { s.exe with tagMem := Sparse.set (fun _ => 0) s.exe.tagMem slot v } }

/-- STALE and INVALID of a tag, as the blocks set them (R187). -/
def tagFlags (t : Nat) (s : State) : Sample := Sparse.get (fun _ => {}) s.exe.flags t
def setTagFlags (t : Nat) (stale invalid : Bool) (s : State) : State :=
  { s with exe := { s.exe with flags := Sparse.set (fun _ => {}) s.exe.flags t { stale := stale, invalid := invalid } } }

/-- What the program-class writer of an output tag presents: none while it does not assert. -/
def committed (t : Nat) (s : State) : Option DWord := Sparse.find s.exe.committed t
def setCommitted (t : Nat) (v : DWord) (s : State) : State :=
  { s with exe := { s.exe with committed := Sparse.insert s.exe.committed t v } }
def dropCommitted (t : Nat) (s : State) : State :=
  { s with exe := { s.exe with committed := Sparse.erase s.exe.committed t } }

/-- A Boolean as a tag value. -/
def boolD (b : Bool) : DWord := if b then 1 else 0

/-- The value of an input cell with its INVALID flag (R26, R188, R314, R391, R404, R396). -/
def cellSample (c : Nat) (s : State) : Sample :=
  if c < 32 then
    let i := dioInvalid c s
    { val := boolD (if i then (dioCh c s).last else (dioCh c s).filt), invalid := i }
  else if inRange c 0x200 0x20F then
    { val := (anCh (c - 0x200) s).cell.zeroExtend 64, invalid := anInvalid (c - 0x200) s }
  else if inRange c 0x300 0x30F then
    let x := siPair ((c - 0x300) / 2) s
    { val := boolD (if c % 2 = 0 then x.a else x.b), invalid := x.kind != 0 }
  else if inRange c 0x400 0x407 then
    { val := boolD ((sq (c - 0x400) s).st == .on), invalid := (sq (c - 0x400) s).st == .fault }
  else {}

/-- The output cell at a code is marked invalid. -/
def cellOutInvalid (c : Nat) (s : State) : Bool :=
  if c < 32 then dioInvalid c s
  else if inRange c 0x100 0x103 then (ttOut c s).lineFailed
  else if inRange c 0x200 0x20F then anInvalid (c - 0x200) s
  else false

/-- The present underlying value and flags of a tag: what its cell, its memory, its station or its writer holds
(R179, R187). -/
def tagLive (t : Nat) (s : State) : Sample :=
  match tagDef t s with
  | none => {}
  | some d =>
    let f := tagFlags t s
    match d.locKind with
    | 0 => { f with val := tagMemGet (d.location.toNat / 8) s }
    | 1 =>
      let c := d.location.toNat % 65536
      if d.output then { f with val := (committed t s).getD d.init, invalid := f.invalid || cellOutInvalid c s }
      else cellSample c s
    | _ =>
      if d.output then { f with val := (committed t s).getD d.init }
      else
        let st := Sparse.get (fun _ => ({} : Station)) s.exe.stations (d.location.toNat / 2 ^ 26)
        { val := (Sparse.find s.exe.remote t).getD d.init, stale := st.stale, invalid := st.invalid }

/-- The value a load sees outside any image: the force value of a forced tag (R192). -/
def tagNow (t : Nat) (s : State) : Sample :=
  match forceOf t s with
  | some v => { tagLive t s with val := v }
  | none => tagLive t s

/-- A BOOL tag is true. -/
def tagTrue (t : Nat) (s : State) : Bool := (tagNow t s).val.getLsbD 0

/-- The tag is a BOOL memory-only tag (R329, R335). -/
def boolMemTag (t : Nat) (s : State) : Bool := (tagDef t s).any (fun d => d.typ == 1 && d.locKind == 0)

/-! ### Arbitration -/

/-- The ebb writer of the field output cells asserts (R23, R37, R39, R93, R672, Table ARCH-4): the module may act
on its outputs only in RUN and HOLD as the active side or alone, or in the handover hold of R93. -/
def fieldEbb (s : State) : Bool :=
  let st := fld Fld.PAIR_STATE_STATE s
  !alive s || decide (power s < 3) || flag Fld.SUP_PWR_STATE_EBB s || s.sup.hardEbb || s.sup.unseated || inFallback 2 s
  || !(st == 1 || (st == 5 && flag Fld.PAIR_STATE_AUTH_HELD s) || s.saf.holding)

/-- HOLD: the program and tide-table writers present what they held at its entry (R673). -/
def frozen (s : State) : Bool := power s == 4

/-- The program-class writer of a cell (R21). -/
def progWriter (cell : Nat) (s : State) : Option DWord :=
  (outTagAt cell s).bind (fun t => if frozen s then Sparse.find s.sup.heldProg t else committed t s)

/-- The tide-table writer of a tide-capable output (R143). -/
def ttWriter (cell : Nat) (s : State) : Option Bool :=
  let claimed := if cell < 8 then bitAt Reg.TT_CLAIM cell s
    else inRange cell 0x100 0x103 && bitAt Reg.TT_CLAIM (8 + (cell - 0x100)) s
  if claimed then some (if frozen s then s.sup.heldTT.contains cell else (ttOut cell s).value) else none

/-- The output links of a term: target, value and mode (Table RFX-3). -/
def termLinks (x : Term) : List (Nat × Bool × Bool) :=
  ((List.range 8).map (fun l => (x.desc.getD (12 + l / 2) 0).toNat / 2 ^ (16 * (l % 2)) % 65536)).filterMap (fun w =>
    if w.testBit 15 then some (w % 512, w.testBit 14, w.testBit 13) else none)

/-- The terms that the matrix evaluates (R344, R349). -/
def termOn (x : Term) : Bool := (x.desc.getD 0 0).getLsbD 31

/-- The reflex writer of a cell: 0 when any term asserts 0, otherwise 1 (R338). -/
def rfxWriter (cell : Nat) (s : State) : Option Bool :=
  if !flag Fld.RFX_CTRL_RUN s || s.rfxStopped then none
  else
    let vs := s.terms.flatMap (fun e => if termOn e.2 then
      (termLinks e.2).filterMap (fun l => if l.1 == cell then
        (if e.2.out then some l.2.1 else if l.2.2 then some (!l.2.1) else none) else none) else [])
    if vs.isEmpty then none else some (vs.all id)

/-- Writers as DIO_SRC codes them (Table DIO-6). -/
def srcNone : Nat := 0
def srcProg : Nat := 1
def srcTt : Nat := 2
def srcForce : Nat := 3
def srcRfx : Nat := 4
def srcEbb : Nat := 5
def srcSafety : Nat := 6
def srcLatched : Nat := 7

/-- The winning writer of a switching output cell and its value (R18, R19, R22, R23); `iso` is the isolation of
its bank (R29). -/
def arbitrate (cell : Nat) (iso : Bool) (s : State) : Nat × Bool :=
  if safDemand cell s then (srcSafety, false)
  else if fieldEbb s || iso then (srcEbb, false)
  else match rfxWriter cell s with
    | some v => (srcRfx, v)
    | none => match (outTagAt cell s).bind (fun t => forceOf t s) with
      | some v => (srcForce, v.getLsbD 0)
      | none => match ttWriter cell s with
        | some v => (srcTt, v)
        | none => match progWriter cell s with
          | some v => (srcProg, v.getLsbD 0)
          | none => (srcNone, false)

/-- Clear a channel's latch and invalid mark and report (R318). -/
def dioRearm (n : Nat) (s : State) : State :=
  s |> onDio n (fun c => { c with latched := false, mark := false, fault := 0 }) |> say Code.DIO_REARMED

/-- Register the arbitration of one DIO channel (R19), with the automatic re-arm of R318. -/
def dioSettleCh (n : Nat) (s : State) : State :=
  let b := dioBank (n / 8) s
  let a := arbitrate n (b.st == .isolated) s
  let c := dioCh n s
  let dir := dioDir n s
  let arb := dir && a.2
  let s := if c.latched && flag (Fld.DIOn_CFG_AUTO_REARM n) s && arb && !c.arb
      && decide (c.tripNs + 1000000000 ≤ nowNs s) then dioRearm n s else s
  let c := dioCh n s
  let out := arb && b.st == .on && !c.latched && !b.silent
  let src := if !dir || b.st == .disabled then srcNone
    else if c.latched || b.st == .latchedOff || b.st == .switchedOff then srcLatched else a.1
  let now := nowNs s
  onDio n (fun c => { c with
    arb := arb
    out := out
    src := src
    onAt := if out && !c.out then some now else c.onAt
    offAt := if !out && c.out then some now else c.offAt
    last := if dioInvalid n s then c.last else c.filt }) s

/-- Register the arbitration of a pulse output. -/
def poSettle (k : Nat) (s : State) : State :=
  let a := arbitrate (0x100 + k) false s
  setPo k { out := a.2, src := a.1 } s

/-! ### Analog outputs -/

def anF32 (r : Nat → Nat) (n : Nat) (s : State) : Nat := Flt.widen (rd (r n) s)

/-- Linear interpolation between two points, in binary64. -/
def lerp (x0 y0 x1 y1 x : Nat) : Nat :=
  Flt.fadd y0 (Flt.fmul (Flt.fdiv (Flt.fsub x x0) (Flt.fsub x1 x0)) (Flt.fsub y1 y0))

/-- Interpolation over points with rising abscissas: the first ordinate below the first, the last above the last. -/
def interp (x : Nat) : List (Nat × Nat) → Nat
  | [] => 0
  | [p] => p.2
  | p :: q :: t => if Flt.flt x p.1 then p.2 else if Flt.fle x q.1 then lerp p.1 p.2 q.1 q.2 x else interp x (q :: t)

/-- The table of a channel, widened (R378). -/
def anTable (n : Nat) (s : State) : List (Nat × Nat) :=
  (List.range (fld (Fld.ANn_CFG_TBL_N n) s)).map (fun i =>
    (Flt.widen (rd (Reg.ANn_TBLX n i) s), Flt.widen (rd (Reg.ANn_TBLY n i) s)))

/-- The inverse of a strictly monotonic table. -/
def interpInv (l : List (Nat × Nat)) (y : Nat) : Nat :=
  let m := l.map (fun p => (p.2, p.1))
  match m with
  | a :: b :: _ => if Flt.flt b.1 a.1 then interp y m.reverse else interp y m
  | _ => interp y m

/-- `x` clamped to a range. -/
def fclamp (lo hi x : Nat) : Nat := if Flt.flt x lo then lo else if Flt.flt hi x then hi else x

/-- Binary64 constants of R360, R362 and R366. -/
def cf (num : Int) (den : Nat) : Nat := Flt.fdiv (Flt.fint num) (Flt.fint den)

/-- The current of a value in engineering units (R362). -/
def anCurrent (n : Nat) (v : Nat) (s : State) : Nat :=
  let euLo := anF32 Reg.ANn_EU_LO n s
  let lo := anF32 Reg.ANn_RANGE_LO n s
  let hi := anF32 Reg.ANn_RANGE_HI n s
  let span := Flt.fsub hi lo
  let x := Flt.fdiv (Flt.fsub v euLo) (Flt.fsub (anF32 Reg.ANn_EU_HI n s) euLo)
  let x := if fld (Fld.ANn_CFG_CHAR n) s = 2 then interpInv (anTable n s) x else x
  let i := Flt.fadd lo (Flt.fmul x span)
  if flag (Fld.ANn_CFG_LIMIT_EN n) s then
    fclamp (Flt.fsub lo (Flt.fmul (cf 125 10000) span)) (Flt.fadd hi (Flt.fmul (cf 3125 100000) span)) i
  else fclamp 0 (Flt.fint 24) i

/-- The converter code of a current (R362). -/
def anCode (n : Nat) (i : Nat) (s : State) : Nat :=
  let c := Flt.fdiv (Flt.fmul (Flt.fdiv (Flt.fsub i (anF32 Reg.ANn_TRIM_OFF n s)) (anF32 Reg.ANn_TRIM_GAIN n s))
    (Flt.fint 65536)) (Flt.fint 24)
  (Flt.toInt Flt.f64 true 0 65535 c).1.toNat

/-- The winning writer of an analog output and its value (R363). -/
def anArbitrate (n : Nat) (s : State) : Nat × Word :=
  let cell := 0x200 + n
  if safDemand cell s then (srcSafety, 0)
  else if fieldEbb s || (anBank (n / 4) s).isolated then (srcEbb, 0)
  else match (outTagAt cell s).bind (fun t => forceOf t s) with
    | some v => (srcForce, v.setWidth 32)
    | none => match progWriter cell s with
      | some v => (srcProg, v.setWidth 32)
      | none => (srcNone, 0)

/-- The winning case of R364: an alarm current. A standby side keeps its outputs off (R93). -/
def anAlarm (n src : Nat) (v : Word) (s : State) : Bool :=
  (src == srcEbb && !onStandby s && inRange (fld (Fld.ANn_CFG_EBB_SEL n) s) 1 2)
  || ((src == srcForce || src == srcProg) && Flt.isNan Flt.f32 v.toNat && inRange (fld (Fld.ANn_CFG_NAN_SEL n) s) 1 2)
  || (src == srcProg && flag (Fld.ANn_CFG_ALARM_ON_INVALID n) s
      && (outTagAt (0x200 + n) s).any (fun t => (tagFlags t s).invalid))

/-- Register the arbitration of an analog output and load its code (R362 to R364). -/
def anSettle (n : Nat) (s : State) : State :=
  if !(anEnabled n s && anOutput n s) then s
  else
    let a := anArbitrate n s
    let c := anCh n s
    let alarm := anAlarm n a.1 a.2 s
    let code := if a.1 == srcForce || a.1 == srcProg then
        (if Flt.isNan Flt.f32 a.2.toNat then c.code else anCode n (anCurrent n (Flt.widen a.2) s) s)
      else 0
    let t := onAn n (fun c => { c with val := a.2, src := a.1, code := code, alarm := alarm }) s
    onlyIf (alarm && !c.alarm) (say Code.ANA_ALARM_CURRENT) t

/-! ### Re-enable of a DIO bank (R329) -/

/-- The bank supply switch closes and the bank drives again; its cells become valid, so that a channel that is still
stuck-on is declared anew and switches the bank off again. -/
def dioReenable (k : Nat) (s : State) : State :=
  let en := flag (Fld.DIO_BANKk_CFG_EN k) s
  s |> onDioBank k (fun b => { b with st := if en then .on else .disabled, switch := en })
    |> forAll (List.range 8) (fun j => onDio (8 * k + j) (fun c =>
      if c.fault = 1 ∨ c.fault = 2 then { c with fault := 0, mark := false } else c))
    |> raiseF 0x06 Fld.DIO_EVENT_BANK_REEN |> say Code.DIO_BANK_REENABLED

/-- A re-enable command from the host or the program (R329). -/
def dioReenCmd (k : Nat) (s : State) : State :=
  let b := dioBank k s
  if (b.st == .latchedOff || b.st == .switchedOff) && b.reenReady then dioReenable k s
  else say Code.DIO_REEN_REFUSED s

/-- A rising edge of the re-enable tag (R329). -/
def dioReenTag (k : Nat) (s : State) : State :=
  if !flag (Fld.DIO_BANKk_CFG_REEN_TAG_EN k) s then s
  else
    let t := fld (Fld.DIO_BANKk_CFG_REEN_TAG k) s
    let v := boolMemTag t s && tagTrue t s
    let s' := onDioBank k (fun b => { b with reenPrev := v }) s
    let b := dioBank k s
    if v && !b.reenPrev && (b.st == .latchedOff || b.st == .switchedOff) then dioReenCmd k s' else s'

/-! ### Settling -/

/-- One registration of every output cell (R19). -/
def settle (s : State) : State :=
  s |> forAll (List.range 32) dioSettleCh |> forAll (List.range 4) poSettle |> forAll (List.range 16) anSettle

/-- Write the underlying value of a tag (R192): memory-only tags in tag memory, output tags in their writer. -/
def tagStore (t : Nat) (v : DWord) (s : State) : State :=
  match tagDef t s with
  | none => s
  | some d =>
    if d.locKind = 0 then forAll (List.range 4) dioReenTag (tagMemSet (d.location.toNat / 8) v s)
    else if d.output then setCommitted t v s
    else s

end Sys2Proof.Machine
end

