-- ==== Sys2Proof/Machine/AnaOps.lean ====
section
/-! DEFINITION. Analog channels: limits, characteristics, the checks at enable and triggers (R351 to R370). -/
namespace Sys2Proof.Machine

/-- Values at the boundary of REAL32: 0.9, 1.1 and 0.1, widened. -/
def f09 : Nat := Flt.widen 0x3F666666
def f11 : Nat := Flt.widen 0x3F8CCCCD
def f01 : Nat := Flt.widen 0x3DCCCCCD

/-- Within a closed range. -/
def fin (lo hi x : Nat) : Bool := Flt.fle lo x && Flt.fle x hi

/-- Strictly rising. -/
def rising : List Nat → Bool
  | [] => true
  | x :: t => (match t with | [] => true | y :: _ => Flt.flt x y) && rising t

/-- A tag of HART: REAL32, memory-only, with no writer (R373). -/
def hartTagOk (t : Nat) (s : State) : Bool :=
  (tagDef t s).any (fun d => d.typ == 5 && d.locKind == 0 && d.writerKind == 0)

/-- The four HART tags of a channel, PV first, and those in use. -/
def hartTags (n : Nat) (s : State) : List (Nat × Bool) :=
  let en := fld (Fld.ANn_HART_CFG_TAG_EN n) s
  [(fld (Fld.ANn_HART_TAG01_PV_TAG n) s, en.testBit 0), (fld (Fld.ANn_HART_TAG01_SV_TAG n) s, en.testBit 1),
   (fld (Fld.ANn_HART_TAG23_TV_TAG n) s, en.testBit 2), (fld (Fld.ANn_HART_TAG23_QV_TAG n) s, en.testBit 3)]

def hartEn (n : Nat) (s : State) : Bool := flag (Fld.ANn_HART_CFG_EN n) s

/-- An input tag names the cell. -/
def inTagAt (cell : Nat) (s : State) : Bool :=
  s.exe.image.any (fun i => i.tags.any (fun e => e.2.typ != 0 && e.2.locKind == 1 && !e.2.output
    && e.2.location.toNat % 65536 == cell))

/-- The checks of Table ANA-2, in its order. -/
def anCheck (n : Nat) (s : State) : Option Status :=
  let mode := anMode n s
  let lo := anF32 Reg.ANn_RANGE_LO n s
  let hi := anF32 Reg.ANn_RANGE_HI n s
  let char := fld (Fld.ANn_CFG_CHAR n) s
  let minR := if mode = 3 then cf (-21) 2 else 0
  let maxR := if mode = 3 then cf 21 2 else Flt.fint 24
  let off := if mode = 3 then cf 1 2 else Flt.one
  let tbl := anTable n s
  let ys := tbl.map (·.2)
  if decide (4 < mode) || char == 3 || fld (Fld.ANn_CFG_EBB_SEL n) s == 3 || fld (Fld.ANn_CFG_NAN_SEL n) s == 3
      || !Flt.flt lo hi || !fin minR maxR lo || !fin minR maxR hi
      || Flt.eq Flt.f64 (anF32 Reg.ANn_EU_LO n s) (anF32 Reg.ANn_EU_HI n s)
      || !fin f09 f11 (anF32 Reg.ANn_TRIM_GAIN n s) || !fin (Flt.fneg off) off (anF32 Reg.ANn_TRIM_OFF n s)
      || !fin 0 f01 (anF32 Reg.ANn_SQRT_CUT n s) || (char == 1 && mode == 4) then some Code.ANA_CFG_BAD
  else if hartEn n s && (mode == 3 || mode == 0 || decide (3 ≤ fld (Fld.ANn_CFG_RATE n) s)
      || !(hartTags n s).all (fun t => !t.2 || hartTagOk t.1 s)) then some Code.ANA_CFG_BAD
  else if char == 2 && (!inRange (fld (Fld.ANn_CFG_TBL_N n) s) 2 32 || !rising (tbl.map (·.1))
      || (mode == 4 && !rising ys && !rising ys.reverse)) then some Code.ANA_TABLE_BAD
  else if (if mode = 4 then inTagAt (0x200 + n) s else (outTagAt (0x200 + n) s).isSome) then some Code.ANA_DIR_CONFLICT
  else none

/-- The steepest slope between neighbouring points. -/
def steepest : List (Nat × Nat) → Nat
  | [] => 0
  | p :: t =>
    match t with
    | [] => 0
    | q :: _ =>
      let d := Flt.abs Flt.f64 (Flt.fdiv (Flt.fsub q.2 p.2) (Flt.fsub q.1 p.1))
      let r := steepest t
      if Flt.flt r d then d else r

/-- ANn_RES (R358). -/
def anRes (n : Nat) (s : State) : Word :=
  let bits := 20 - fld (Fld.ANn_CFG_RATE n) s
  let span := Flt.fint (if anMode n s = 3 then 21 else 24)
  let ratio := Flt.abs Flt.f64 (Flt.fdiv (Flt.fsub (anF32 Reg.ANn_EU_HI n s) (anF32 Reg.ANn_EU_LO n s))
    (Flt.fsub (anF32 Reg.ANn_RANGE_HI n s) (anF32 Reg.ANn_RANGE_LO n s)))
  let slope := match fld (Fld.ANn_CFG_CHAR n) s with
    | 1 => Flt.fdiv Flt.one (Flt.fmul (Flt.fint 2) (Flt.sqrt Flt.f64 (anF32 Reg.ANn_SQRT_CUT n s)).bits)
    | 2 => steepest (anTable n s)
    | _ => Flt.one
  Flt.narrow (Flt.fmul (Flt.fmul (Flt.fdiv span (Flt.fint ((2 ^ bits : Nat) : Int))) ratio) slope)

/-- The measurement and value of a conversion, in binary64 (R361). -/
def anConvert (n : Nat) (mcal : Nat) (s : State) : Nat × Nat :=
  let m := Flt.fadd (Flt.fmul mcal (anF32 Reg.ANn_TRIM_GAIN n s)) (anF32 Reg.ANn_TRIM_OFF n s)
  let lo := anF32 Reg.ANn_RANGE_LO n s
  let euLo := anF32 Reg.ANn_EU_LO n s
  let x := Flt.fdiv (Flt.fsub m lo) (Flt.fsub (anF32 Reg.ANn_RANGE_HI n s) lo)
  let y := match fld (Fld.ANn_CFG_CHAR n) s with
    | 1 => if Flt.flt x (anF32 Reg.ANn_SQRT_CUT n s) then 0 else (Flt.sqrt Flt.f64 x).bits
    | 2 => interp x (anTable n s)
    | _ => x
  (m, Flt.fadd euLo (Flt.fmul y (Flt.fsub (anF32 Reg.ANn_EU_HI n s) euLo)))

/-- The fault of an input after a conversion (R360): 1 fail low, 2 fail high, 3 open wire, 4 loop short, 5 loop power
low. -/
def anFault (n m : Nat) (s : State) : Fin 9 :=
  let lo := anF32 Reg.ANn_RANGE_LO n s
  let hi := anF32 Reg.ANn_RANGE_HI n s
  let span := Flt.fsub hi lo
  let mode := anMode n s
  if mode = 3 then (if Flt.flt (cf 21 2) m then 2 else if Flt.flt m (cf (-21) 2) then 1 else 0)
  else if mode = 1 && (anBank (n / 4) s).loopLow then 5
  else if Flt.flt m (cf 1 2) then 3
  else if flag (Fld.ANn_CFG_LIMIT_EN n) s && Flt.fle m (Flt.fsub lo (Flt.fmul (cf 25 1000) span)) then 1
  else if (anCh n s).fault == 4 && Flt.flt (Flt.fint 24) m then 4
  else if flag (Fld.ANn_CFG_LIMIT_EN n) s && Flt.fle (Flt.fadd hi (Flt.fmul (cf 625 10000) span)) m then 2
  else 0

/-- Under range and over range (R360). -/
def anUnder (n m : Nat) (s : State) : Bool :=
  let lo := anF32 Reg.ANn_RANGE_LO n s
  flag (Fld.ANn_CFG_LIMIT_EN n) s && anMode n s != 3
  && Flt.flt m (Flt.fsub lo (Flt.fmul (cf 125 10000) (Flt.fsub (anF32 Reg.ANn_RANGE_HI n s) lo)))
def anOver (n m : Nat) (s : State) : Bool :=
  let hi := anF32 Reg.ANn_RANGE_HI n s
  flag (Fld.ANn_CFG_LIMIT_EN n) s && anMode n s != 3
  && Flt.flt (Flt.fadd hi (Flt.fmul (cf 3125 100000) (Flt.fsub hi (anF32 Reg.ANn_RANGE_LO n s)))) m

/-- The status of an input or output fault. -/
def anFaultStatus (f : Fin 9) : Status :=
  match f with
  | 1 => Code.ANA_FAIL_LOW
  | 2 => Code.ANA_FAIL_HIGH
  | 3 => Code.ANA_OPEN_WIRE
  | 4 => Code.ANA_LOOP_SHORT
  | 5 => Code.ANA_LOOP_POWER_LOW
  | 6 => Code.ANA_READBACK_ERR
  | _ => Code.ANA_OUT_OPEN

/-- Declare a fault of a channel. -/
def anFaultSet (f : Fin 9) (n : Nat) (s : State) : State :=
  s |> onAn n (fun c => { c with fault := f })
    |> raiseF 0x07 (if f = 6 ∨ f = 7 then Fld.ANA_EVENT_OUTPUT_FAULT else Fld.ANA_EVENT_INPUT_FAULT) |> say (anFaultStatus f)

/-- The channels of an analog bank. -/
def anBankChs (k : Nat) : List Nat := (List.range 4).map (fun j => 4 * k + j)

/-- R369: Lk+ falls below the low comparator. -/
def anaLoopLow (k : Nat) (s : State) : State :=
  forAll ((anBankChs k).filter (fun n => anEnabled n s && anMode n s == 1)) (fun n t =>
    anFaultSet 5 n (onAn n (fun c => { c with waitConv := true }) t)) (onAnBank k (fun b => { b with loopLow := true }) s)

/-- ANALOG_SAMPLE of the tide table on a channel (R359). -/
def analogTrigger (n : Nat) (s : State) : State :=
  if !(anEnabled n s && flag (Fld.ANn_CFG_TRIG n) s && inRange (anMode n s) 1 3) then say Code.ANA_TRIG_IGNORED s
  else if (anCh n s).conv.isSome then say Code.ANA_TRIG_MERGED (bump (Fld.ANn_COUNTS_TRIG_MERGED n) s)
  else onAn n (fun c => { c with conv := some (moduleNs s) }) s

end Sys2Proof.Machine
end

