-- ==== Sys2Proof/Machine/Queue.lean ====
section
/-! DEFINITION. Queues (R628 to R631): rings of slots in DRAM. -/
namespace Sys2Proof.Machine

/-- Who configures and who consumes and produces a queue (Table QUE-1). -/
def queModule (q : Nat) : Bool := inRange q 0 2 || inRange q 8 10 || inRange q 24 31 || inRange q 52 63
def queHostProduced (q : Nat) : Bool :=
  inRange q 3 7 || [17, 19, 21, 23].contains q || inRange q 32 39 || q == 51
def queHostConsumed (q : Nat) : Bool :=
  inRange q 11 15 || [16, 18, 20, 22].contains q || inRange q 40 50

/-- The enable, event and enable-interrupt bits of a queue. -/
def queEnReg (q : Nat) : Nat := if q < 32 then Reg.QUE_EN_LO else Reg.QUE_EN_HI
def queEvReg (q : Nat) : Nat := if q < 32 then Reg.QUE_EV_LO else Reg.QUE_EV_HI
def queEnabled (q : Nat) (s : State) : Bool := bitAt (queEnReg q) (q % 32) s

def queEntries (q : Nat) (s : State) : Nat := 2 ^ fld (Fld.QUEq_CFG_ENTRIES_LOG2 q) s
def queSlot (q : Nat) (s : State) : Nat := 2 ^ fld (Fld.QUEq_CFG_SLOT_LOG2 q) s
def queBase (q : Nat) (s : State) : Nat :=
  fld (Fld.QUEq_BASE_HI_ADDR q) s * 2 ^ 32 + fld (Fld.QUEq_BASE_LO_ADDR q) s * 64
def queHead (q : Nat) (s : State) : Nat := fld (Fld.QUEq_HEAD_INDEX q) s
def queTail (q : Nat) (s : State) : Nat := fld (Fld.QUEq_TAIL_INDEX q) s

/-- Filled slots. -/
def queFill (q : Nat) (s : State) : Nat := (queHead q s + queEntries q s - queTail q s) % queEntries q s

/-- The queue is full (R628 and the text before it). -/
def queFull (q : Nat) (s : State) : Bool := (queHead q s + 1) % queEntries q s == queTail q s

/-- The address of a slot. -/
def queAddr (q i : Nat) (s : State) : Nat := queBase q s + i * queSlot q s

/-- Set the queue's event bit. -/
def queEvent (q : Nat) (s : State) : State := raise 0x14 (queEvReg q) (bitMask (q % 32)) s

/-- A module producer puts an item into its queue (R629, R630); a payload longer than the slot is cut.
An item for a queue that is not enabled is not produced (log entry 14). -/
def quePush (q flags src : Nat) (stamp : DWord) (payload : List Byte) (s : State) : State :=
  if !queEnabled q s then s
  else if queFull q s then s |> bump (Fld.QUEq_COUNTS_DROP q) |> say Code.QUE_OVERFLOW
  else
    let room := queSlot q s - 16
    let cut := decide (room < payload.length)
    let p := payload.take room
    let seq := Sparse.get (fun _ => 0) s.queSeq q
    let a := queAddr q (queHead q s) s
    let t := s |> msetBytes (a + 16) p
      |> msetBytes a (leBytes 2 p.length ++ leBytes 1 (flags + cut.toNat) ++ leBytes 1 src ++ leBytes 4 seq.toNat
          ++ leBytes 8 stamp.toNat)
      |> setFld (Fld.QUEq_HEAD_INDEX q) ((queHead q s + 1) % queEntries q s)
    let t := { t with queSeq := Sparse.set (fun _ => 0) t.queSeq q (seq + 1) }
    onlyIf (queFill q t == max 1 (fld (Fld.QUEq_CFG_THRESH q) s)) (queEvent q) t

/-- A module consumer frees the slot at TAIL; an emptied queue sets its event (R631). -/
def queFree (q : Nat) (s : State) : State :=
  let t := setFld (Fld.QUEq_TAIL_INDEX q) ((queTail q s + 1) % queEntries q s) s
  onlyIf (queFill q t == 0) (queEvent q) t

/-- The item at TAIL: none when the queue is not enabled or empty. -/
def queHas (q : Nat) (s : State) : Bool := queEnabled q s && queFill q s != 0

/-- A module consumer takes the item at TAIL and passes its payload on; a slot whose LEN is larger than the
slot allows is skipped with LAST_ERR set (R630). -/
def queTake (q : Nat) (k : List Byte → State → State) (s : State) : State :=
  if !queHas q s then s
  else
    let a := queAddr q (queTail q s) s
    let len := mgetN a 2 s
    if queSlot q s - 16 < len then queFree q (setFlag (Fld.QUEq_STATUS_LAST_ERR q) true s)
    else k (mgetBytes (a + 16) len s) (queFree q s)

end Sys2Proof.Machine
end

