-- ==== Sys2Proof/Machine/Tasks.lean ====
section
/-! DEFINITION. The tasks of the running image and the signals that release event tasks (R177, R178). -/
namespace Sys2Proof.Machine

def task (t : Nat) (s : State) : Task := Sparse.get (fun _ => {}) s.exe.tasks t
def onTask (t : Nat) (f : Task → Task) (s : State) : State :=
  { s with exe := { s.exe with tasks := Sparse.set (fun _ => {}) s.exe.tasks t (f (task t s)) } }

/-- The running image's definition of a task; KIND 0 is undefined (R177). -/
def taskDef (t : Nat) (s : State) : Option TaskDef :=
  (s.exe.image.bind (fun i => Sparse.find i.tasks t)).filter (fun d => d.kind != 0)

/-- A source event of event task `e`, which is task 8 + e (R177, R178). -/
def signalTask (e : Nat) (s : State) : State :=
  let t := 8 + e
  if (taskDef t s).isNone then sayD Code.EXE_EVT_UNDEFINED (toD t) s
  else if (task t s).pending then say Code.EXE_EVT_MERGED (raiseF 0x03 Fld.EXE_EVENT_EVT_MERGED (bump (Fld.TASKt_COUNTS_MERGED t) s))
  else onTask t (fun x => { x with pending := true }) s

/-- The event tasks whose own source is this one (Table EXE-1). -/
def signalSource (src index : Nat) (s : State) : State :=
  forAll ((List.range 16).filter (fun e => (taskDef (8 + e) s).any (fun d => d.src == src && d.index == index))) signalTask s

end Sys2Proof.Machine
end

