-- ==== Sys2Proof/Machine/CanOps.lean ====
section
/-! DEFINITION. CAN FD channels (R545 to R564): the operations that their commands, the output commit, an image swap and
a change of the active side share. -/
namespace Sys2Proof.Machine

/-! ### Buffers -/

/-- Data bytes of a length code; a classical frame has at most eight (ISO 11898-1:2015). -/
def canBytes (fdf : Bool) (dlc : Nat) : Nat :=
  if dlc ≤ 8 || !fdf then min dlc 8
  else match dlc with
    | 9 => 12
    | 10 => 16
    | 11 => 20
    | 12 => 24
    | 13 => 32
    | 14 => 48
    | _ => 64

/-! ### Channels -/

/-- State of a channel: 0 STOPPED, 1 ERROR_ACTIVE, 2 ERROR_PASSIVE, 3 BUS_OFF, 4 RECOVERING, 5 ISOLATED. -/
def canState (c : Nat) (s : State) : Nat := fld (Fld.CNc_STATUS_STATE c) s

/-- The interface works (Table ARCH-4). -/
def canUp (s : State) : Bool := regionsUp s && !s.sup.queFault && !s.sup.clockFailed.contains .can

/-- The channel takes part in the traffic of its bus. -/
def canOnBus (c : Nat) (s : State) : Bool := canUp s && inRange (canState c s) 1 2

/-- Restricted operation is in force: selected, or imposed on a side that is not active (R560, R561). DEDUCED: log entry 39. -/
def canRestricted (c : Nat) (s : State) : Bool :=
  flag (Fld.CNc_CFG_RESTRICTED c) s
  || !((pairState s == 1 || pairState s == 5) && flag Fld.PAIR_STATE_AUTH_HELD s)

/-- The channel may send. -/
def canSends (c : Nat) (s : State) : Bool := canOnBus c s && !canRestricted c s

/-- The error counters change (R548). PRESUMED: log entry 38. -/
def canCount (c tec rec : Nat) (s : State) : State :=
  let was := canState c s
  let s := s |> setFld (Fld.CNc_STATUS_TEC c) (min tec 511) |> setFld (Fld.CNc_STATUS_REC c) (min rec 255)
  if !inRange was 1 2 then s
  else if 255 < tec then
    s |> setFld (Fld.CNc_STATUS_STATE c) (if flag (Fld.CNc_CFG_AUTO_RECOVER c) s then 4 else 3)
      |> raiseF 0x0D Fld.CAN_EVENT_BUS_OFF |> raiseF 0x0D Fld.CAN_EVENT_ERR_STATE |> say Code.CAN_BUS_OFF
  else if was = 1 && (decide (128 ≤ tec) || decide (128 ≤ rec)) then
    s |> setFld (Fld.CNc_STATUS_STATE c) 2 |> raiseF 0x0D Fld.CAN_EVENT_ERR_STATE |> say Code.CAN_ERR_PASSIVE
  else if was = 2 && decide (tec < 128) && decide (rec < 128) then
    s |> setFld (Fld.CNc_STATUS_STATE c) 1 |> raiseF 0x0D Fld.CAN_EVENT_ERR_STATE |> say Code.CAN_ERR_ACTIVE
  else s

def canTec (c : Nat) (s : State) : Nat := fld (Fld.CNc_STATUS_TEC c) s
def canRec (c : Nat) (s : State) : Nat := fld (Fld.CNc_STATUS_REC c) s

/-! ### Tags (R554) -/

/-- The tags of a tag-bound buffer: those of its data when it transmits, and those of the longest frame that its channel
can receive otherwise. -/
def canTags (c : Nat) (x : CanBuf) (s : State) : List Nat :=
  let n := if x.get canKind = 2 then (canBytes (x.has canFdf) (x.get canDlc) + 3) / 4
    else if flag (Fld.CNc_CFG_FD_EN c) s then 16 else 2
  (List.range n).map (fun k => x.get canTag + k)

/-- Tasks of the image that a tag is an input of. -/
def inputTasks (g : Nat) (s : State) : List Nat :=
  (((s.exe.image.map (·.tasks)).getD []).filter (fun x => x.2.kind != 0 && x.2.inputs.any (fun t => t.toNat == g))).map (·.1)

/-- A tag-bound buffer keeps the rules of R554. -/
def canTagsOk (c : Nat) (x : CanBuf) (s : State) : Bool :=
  let l := canTags c x s
  let words := l.all (fun g => (tagDef g s).any (fun d => d.typ == 9))
  match x.get canKind with
  | 1 =>
    words && l.all (fun g => (tagDef g s).any (fun d => d.locKind == 0 && d.writerKind == 0))
    && (match l.map (fun g => inputTasks g s) with
      | [] => true
      | a :: t => a.length == 1 && t.all (fun b => b == a))
  | 2 => words && x.get canTxMode != 3
  | _ => true

/-- The buffers of a channel that tags own and that are not off. DEDUCED: log entry 39. -/
def canBound (c : Nat) (s : State) : List Nat :=
  (List.range 64).filter (fun b => (canBuf c b s).get canOwner == 1 && (canBuf c b s).get canKind != 0)

/-- The rules are checked again at an image swap; a buffer that fails is set to KIND 0b00 (R554). -/
def canSwapCheck (s : State) : State :=
  forAll (List.range 4) (fun c t => forAll (canBound c t) (fun b u =>
    if canTagsOk c (canBuf c b u) u then u
    else onCan c b (fun x => { (x.put canKind 0).put canPending 0 with cancelled := false, owed := false }) u
      |> canSay c b Code.CAN_CFG_BAD) t) s

/-- Mark the tags of a receive buffer stale or fresh. -/
def canStaleTags (c b : Nat) (stale : Bool) (s : State) : State :=
  forAll (canTags c (canBuf c b s) s) (fun g t => setTagFlags g stale (tagFlags g t).invalid t) s

/-- CD_CAN fails: what was received last is stale (Table ARCH-4). DEDUCED: log entry 39. -/
def canFail (s : State) : State :=
  forAll (List.range 4) (fun c t =>
    forAll ((canBound c t).filter (fun b => (canBuf c b t).get canKind == 1)) (fun b => canStaleTags c b true) t) s

/-! ### Transmission -/

/-- Request the transmission of a buffer (R555, R559): the request ends its clash. -/
def canAsk (c b : Nat) (s : State) : State :=
  onCan c b (fun x => { x.put canPending 1 with cancelled := false, clash := false, hits := [], owed := false }) s

/-- The side becomes active: each tag-bound transmit buffer sends at the next commit of its task (R561). -/
def canActive (s : State) : State :=
  forAll (List.range 4) (fun c t => forAll ((canBound c t).filter (fun b => (canBuf c b t).get canKind == 2))
    (fun b => onCan c b (fun x => { x with owed := true })) t) s

/-- A transmit buffer samples its tags; the words that it now holds. -/
def canSample (c b : Nat) (s : State) : State :=
  let l := canTags c (canBuf c b s) s
  onCan c b (fun x => (List.range l.length).foldl (fun y k => y.setWord (8 + k) ((tagNow (l.getD k 0) s).val.setWidth 32)) x) s

/-- A tag-bound transmit buffer at a commit of its task: it samples, and requests as TX_MODE gives; a standby side only
samples (R554, R561). -/
def canCommitBuf (c b : Nat) (s : State) : State :=
  let x := canBuf c b s
  let s := canSample c b s
  let changed := (canBuf c b s).words != x.words
  let asks := x.owed || x.get canTxMode == 1 || (x.get canTxMode == 2 && changed)
  onlyIf (asks && !onStandby s && inRange (canState c s) 1 4) (canAsk c b) s

/-- An output commit of a task (R554). -/
def canCommit (t : Nat) (s : State) : State :=
  forAll (List.range 4) (fun c u => forAll ((canBound c u).filter (fun b =>
    (canBuf c b u).get canKind == 2 && (canBuf c b u).get canTask == t)) (fun b => canCommitBuf c b) u) s

end Sys2Proof.Machine
end

