-- ==== Sys2Proof/Machine/LoopOps.lean ====
section
/-! DEFINITION. The loop engine (R263 to R306): slots, their descriptors and parameters, the plausibility
supervisor, the control law, override groups and traces. -/
namespace Sys2Proof.Machine

/-! ### Slots, descriptors and parameters -/

def slot (k : Nat) (s : State) : LoopSlot := Sparse.get (fun _ => {}) s.loop.slots k
def setSlot (k : Nat) (x : LoopSlot) (s : State) : State :=
  { s with loop := { s.loop with slots := Sparse.set (fun _ => {}) s.loop.slots k x } }
def onSlot (k : Nat) (f : LoopSlot → LoopSlot) (s : State) : State := setSlot k (f (slot k s)) s

/-- A field of a descriptor word (Table LOOP-1). -/
def LoopSlot.fld (x : LoopSlot) (w lo width : Nat) : Nat := (x.desc.getD w 0).toNat / 2 ^ lo % 2 ^ width
def LoopSlot.bit (x : LoopSlot) (w i : Nat) : Bool := (x.desc.getD w 0).getLsbD i
abbrev LoopSlot.sched (x : LoopSlot) : Nat := x.fld 0 30 2
abbrev LoopSlot.div (x : LoopSlot) : Nat := x.fld 0 21 9
abbrev LoopSlot.phase (x : LoopSlot) : Nat := x.fld 0 13 8
abbrev LoopSlot.position (x : LoopSlot) : Nat := x.fld 0 0 6
abbrev LoopSlot.pvTag (x : LoopSlot) : Nat := x.fld 1 16 16
abbrev LoopSlot.outTag (x : LoopSlot) : Nat := x.fld 1 0 16
abbrev LoopSlot.ffTag (x : LoopSlot) : Nat := x.fld 2 16 16
abbrev LoopSlot.trkTag (x : LoopSlot) : Nat := x.fld 2 0 16
abbrev LoopSlot.bakTag (x : LoopSlot) : Nat := x.fld 3 16 16
abbrev LoopSlot.cascEn (x : LoopSlot) : Bool := x.bit 3 15
abbrev LoopSlot.primary (x : LoopSlot) : Nat := x.fld 3 0 11
abbrev LoopSlot.ovrEn (x : LoopSlot) : Bool := x.bit 4 31
abbrev LoopSlot.ovrHigh (x : LoopSlot) : Bool := x.bit 4 30
abbrev LoopSlot.member (x : LoopSlot) : Nat := x.fld 4 27 3
abbrev LoopSlot.lastMember (x : LoopSlot) : Nat := x.fld 4 24 3
abbrev LoopSlot.group (x : LoopSlot) : Nat := x.fld 4 16 8
abbrev LoopSlot.direct (x : LoopSlot) : Bool := x.bit 5 31
abbrev LoopSlot.ffEn (x : LoopSlot) : Bool := x.bit 5 30
abbrev LoopSlot.trkEn (x : LoopSlot) : Bool := x.bit 5 29
abbrev LoopSlot.bakEn (x : LoopSlot) : Bool := x.bit 5 28
abbrev LoopSlot.outEn (x : LoopSlot) : Bool := x.bit 5 27
abbrev LoopSlot.spTrack (x : LoopSlot) : Bool := x.bit 5 26
abbrev LoopSlot.fbRecover (x : LoopSlot) : Bool := x.bit 5 25
abbrev LoopSlot.mdlDead (x : LoopSlot) : Nat := x.fld 5 16 4
abbrev LoopSlot.resCount (x : LoopSlot) : Nat := x.fld 5 8 8
abbrev LoopSlot.lostCount (x : LoopSlot) : Nat := x.fld 5 0 8
abbrev LoopSlot.recover (x : LoopSlot) : Nat := x.fld 6 24 8

/-- FB_ACTION (Table LOOP-4). -/
def LoopSlot.fbAction (x : LoopSlot) : FbAction :=
  match x.fld 5 23 2 with
  | 0 => .hold
  | 1 => .safe
  | 2 => .manual
  | _ => .backup

def LoopMode.code : LoopMode → Nat
  | .off => 0
  | .manual => 1
  | .auto => 2
  | .cascade => 3
  | .track => 4

/-- The mode of a code; codes 0x5 to 0xF are reserved (Table LOOP-3). -/
def loopModeOf (c : Nat) : Option LoopMode :=
  match c with
  | 0 => some .off
  | 1 => some .manual
  | 2 => some .auto
  | 3 => some .cascade
  | 4 => some .track
  | _ => none

/-- Reset values of the parameters, REAL32 (Table LOOP-2). -/
def parReset (c : Nat) : Word :=
  match c with
  | 0x00 | 0x04 | 0x13 => 0x3F800000
  | 0x03 => 0x41200000
  | 0x09 => 0x42C80000
  | 0x0C => 0xFF7FFFFF
  | 0x0D => 0x7F7FFFFF
  | _ => 0

def LoopSlot.parAt (x : LoopSlot) (c : Nat) : Word := Sparse.get parReset x.par c
/-- A parameter widened to binary64 (R282). -/
def LoopSlot.pw (x : LoopSlot) (c : Nat) : Nat := Flt.widen (x.parAt c)

/-- The range of a parameter, against the parameters in force (R276, Table LOOP-2). -/
def parOk (x : LoopSlot) (c : Nat) (v : Word) : Bool :=
  let w := Flt.widen v
  let le := fun a b => Flt.fle a b
  let n := fun (k : Int) => Flt.fint k
  Flt.isFinite Flt.f32 v.toNat && (match c with
    | 0x00 => Flt.flt 0 w
    | 0x03 => le (n 1) w && le w (n 1000)
    | 0x04 | 0x05 | 0x13 => le 0 w && le w (n 1)
    | 0x08 => Flt.flt w (x.pw 0x09)
    | 0x09 => Flt.flt (x.pw 0x08) w
    | 0x0C => le w (x.pw 0x0D)
    | 0x0D => le (x.pw 0x0C) w
    | 0x10 => le (n (-1)) w && le w (n 1)
    | 0x15 => le 0 w && le w (n 3600)
    | 0x01 | 0x02 | 0x0A | 0x0B | 0x14 | 0x16 | 0x17 | 0x18 | 0x19 => le 0 w
    | _ => true)

/-- D7: the CRC-32C of D0 to D6 and the parameter set (Table LOOP-1). -/
def slotCrc (x : LoopSlot) : Word :=
  crc32c 0 ((List.range 7).flatMap (fun i => leBytes 4 (x.desc.getD i 0).toNat)
    ++ (List.range 26).flatMap (fun c => leBytes 4 (x.parAt c).toNat))

/-- Valid slots with their numbers. -/
def validSlots (s : State) : List (Nat × LoopSlot) := s.loop.slots.filter (·.2.valid)

/-- A descriptor that LOAD refuses (R274). -/
def descBad (x : LoopSlot) : Bool :=
  decide (2 ≤ x.sched) || x.div == 0 || decide (256 < x.div) || decide (x.div ≤ x.phase)
  || x.resCount == 0 || x.lostCount == 0 || x.recover == 0
  || (x.fbAction == .backup && !x.bakEn) || (x.ovrEn && x.lastMember == 0)
  || (x.sched == 1 && (x.cascEn || x.ovrEn))

/-- A LOAD of `x` into slot `k` would create a conflict (R268). -/
def schedConflict (k : Nat) (x : LoopSlot) (s : State) : Bool :=
  x.sched == 0 && (validSlots s).any (fun e => e.1 != k && e.1 / 16 % 4 == k / 16 % 4 && e.2.sched == 0
    && e.2.position == x.position && (e.2.phase : Int) % (Nat.gcd e.2.div x.div) == (x.phase : Int) % (Nat.gcd e.2.div x.div))

/-- The tag is REAL32. -/
def real32Tag (t : Nat) (s : State) : Bool := (tagDef t s).any (fun d => d.typ == 5)

/-- OUT_TAG names the slot as its writer (R275). -/
def outOwned (k : Nat) (x : LoopSlot) (s : State) : Bool :=
  (tagDef x.outTag s).any (fun d => d.writerKind == 2 && d.writerIndex == k)

/-- Following primaries from slot `j` reaches slot `k` within `n` links. -/
def cascReaches (k : Nat) (s : State) : Nat → Nat → Bool
  | 0, _ => false
  | n + 1, j =>
    let x := slot j s
    if !(x.valid && x.cascEn) then false
    else x.primary == k || cascReaches k s n x.primary

/-- The cascade rules of a secondary hold (R285). -/
def cascOk (k : Nat) (x : LoopSlot) (s : State) : Bool :=
  let p := slot x.primary s
  !x.cascEn || (p.valid && x.sched == 0 && p.sched == 0 && x.primary != k && p.div % x.div == 0
    && p.phase % x.div == x.phase % x.div && decide (p.position < x.position) && !cascReaches k s 2048 x.primary)

/-- Members of an override group with their slot numbers. -/
def groupOf (g : Nat) (s : State) : List (Nat × LoopSlot) :=
  (validSlots s).filter (fun e => e.2.ovrEn && e.2.group == g)

/-- The slot at a member position of a group. -/
def memberAt (g m : Nat) (s : State) : Option (Nat × LoopSlot) := (groupOf g s).find? (fun e => e.2.member == m)

/-- The override rules hold for the group of a member (R288). -/
def ovrOk (x : LoopSlot) (s : State) : Bool :=
  let g := groupOf x.group s
  !x.ovrEn || (g.length == x.lastMember + 1
    && (List.range (x.lastMember + 1)).all (fun m => (g.filter (fun e => e.2.member == m)).length == 1)
    && g.all (fun e => e.2.lastMember == x.lastMember && e.2.ovrHigh == x.ovrHigh && e.2.sched == 0
        && e.2.div == x.div && e.2.phase == x.phase && (e.2.member == 0 || !e.2.outEn)
        && g.all (fun f => !decide (e.2.member < f.2.member) || decide (e.2.position < f.2.position)))
    && (x.member == 0 || (memberAt x.group 0 s).any (fun e => e.2.mode != .off)))

/-- The checks of R275, in its order. -/
def slotCheck (k : Nat) (x : LoopSlot) (s : State) : Option Status :=
  let tags := [x.pvTag] ++ (if x.outEn then [x.outTag] else []) ++ (if x.ffEn then [x.ffTag] else [])
    ++ (if x.trkEn then [x.trkTag] else []) ++ (if x.bakEn then [x.bakTag] else [])
  if !tags.all (fun t => real32Tag t s) then some Code.LOOP_TAG_TYPE
  else if x.outEn && !outOwned k x s then some Code.LOOP_OUT_WRITER
  else if !cascOk k x s then some Code.LOOP_CASC_CFG
  else if !ovrOk x s then some Code.LOOP_OVR_CFG
  else none

/-! ### Reports -/

/-- Report a slot's status and keep its low byte. -/
def slotSay (k : Nat) (st : Status) (s : State) : State :=
  say st (onSlot k (fun x => { x with last := st.setWidth 8 }) s)

/-- A refused LOAD, parameter or mode command. -/
def slotRefuse (k : Nat) (st : Status) (s : State) : State := slotSay k st (raiseF 0x05 Fld.LOOP_EVENT_CFG_REFUSED s)

/-- Bank `b` of slots is isolated (R306). -/
def slotBankIso (b : Nat) (s : State) : Bool := bitAt (Reg.LOOP_BANK_ISO (b / 32)) (b % 32) s

/-- The INVALID flag of OUT_TAG follows the slot's fallback and its bank (R295, R306). -/
def markOut (k : Nat) (s : State) : State :=
  let x := slot k s
  if x.outEn && outOwned k x s then
    setTagFlags x.outTag false (x.mode != .off && (x.fb.isSome || slotBankIso (k / 16) s)) s
  else s

/-- The mirror record of a slot (Table LOOP-7). -/
def slotMirror (k : Nat) (s : State) : State :=
  let x := slot k s
  let fb := match x.fb with | none => 0 | some a => 128 + (match a with | .hold => 0 | .safe => 1 | .manual => 2 | .backup => 3)
  cwMirror 6 [toD (k + x.mode.code * 2 ^ 16 + (fb + x.lost.toNat * 64 + x.frozen.toNat * 32 + x.implausible.toNat * 16) * 2 ^ 24
    + (Flt.narrow x.wsp.toNat).toNat * 2 ^ 32), x.i, x.dPrev,
    toD ((Flt.narrow x.outPrev.toNat).toNat + (slotCrc x).toNat * 2 ^ 32)] s

/-- Enter fallback (R295, Table LOOP-4). -/
def slotFallback (k : Nat) (a : FbAction) (s : State) : State :=
  s |> onSlot k (fun x =>
      let y := { x with fb := some a, fell := true, clearCnt := 0, bakLost := false, bakFrz := none, bakCnt := 0, rebase := x.rebase || a == .backup }
      if a == .manual then { y with
        mode := .manual
        par := Sparse.set parReset x.par 0x0E (Flt.narrow x.outPrev.toNat) }
      else y)
    |> raiseF 0x05 Fld.LOOP_EVENT_FALLBACK |> slotSay k Code.LOOP_FALLBACK |> markOut k
    |> onlyIf (a == .manual) (slotMirror k)

/-- Leave fallback (R297): i is taken from out_prev at the next evaluation. -/
def slotRecover (k : Nat) (s : State) : State :=
  s |> onSlot k (fun x => { x with fb := none, bakLost := false, rebase := true })
    |> raiseF 0x05 Fld.LOOP_EVENT_RECOVERED |> slotSay k Code.LOOP_RECOVERED |> markOut k

/-! ### Inputs -/

/-- An input of a slot (R269): a local cell input as captured, anything else as it is now; a forced tag reads as
its force value. -/
def slotIn (x : LoopSlot) (t : Nat) (s : State) : Sample :=
  let now := tagNow t s
  match tagDef t s with
  | none => now
  | some d =>
    if d.locKind == 1 && !d.output then
      let c := (Sparse.find x.cap t).getD (tagLive t s)
      match forceOf t s with
      | some v => { c with val := v }
      | none => c
    else now

/-- Capture the local cell inputs of a slot (R269, R271). -/
def slotCapture (k : Nat) (stamp : DWord) (s : State) : State :=
  let x := slot k s
  let tags := [x.pvTag] ++ (if x.ffEn then [x.ffTag] else []) ++ (if x.trkEn then [x.trkTag] else [])
    ++ (if x.bakEn then [x.bakTag] else [])
  let cap := tags.foldl (fun m t =>
    if (tagDef t s).any (fun d => d.locKind == 1 && !d.output) then Sparse.insert m t (tagLive t s) else m) []
  setSlot k { x with cap := cap, stamp := stamp } s

def Sample.word (v : Sample) : Word := v.val.setWidth 32
def Sample.f (v : Sample) : Nat := Flt.widen v.word
def Sample.nan (v : Sample) : Bool := Flt.isNan Flt.f32 v.word.toNat

/-! ### The plausibility supervisor -/

/-- What the supervisor finds at an evaluation (R292 to R294). -/
structure Judge where
  pv : Nat
  lost : Bool
  frozen : Bool
  implausible : Bool
  lostCnt : Nat
  resCnt : Nat
  frz : Option FrzWin
  tie : Bool
  xPred : Nat
  r : Nat
  x : Nat
  deriving DecidableEq, Repr

/-- One LSB of a tag (R293): the resolution of an analog input cell, FRZ_LSB for any other tag. -/
def pvLsb (x : LoopSlot) (t : Nat) (s : State) : Nat :=
  match tagDef t s with
  | some d =>
    let c := d.location.toNat % 65536
    if d.locKind == 1 && inRange c 0x200 0x20F then Flt.widen (rd (Reg.ANn_RES (c - 0x200)) s) else x.pw 0x17
  | none => x.pw 0x17

/-- The freeze window after a look at PV (R293, R294): the window, whether it declares a freeze, and whether PV
left its band as the window expired. -/
def freezeStep (x : LoopSlot) (w : Option FrzWin) (pv lsb now : Nat) : Option FrzWin × Bool × Bool :=
  let out := x.outPrev
  match w with
  | none => (some { start := now, pv := toD pv, lo := out, hi := out }, false, false)
  | some w =>
    let lo := if Flt.flt out.toNat w.lo.toNat then out else w.lo
    let hi := if Flt.flt w.hi.toNat out.toNat then out else w.hi
    let expired := Flt.fle (x.pw 0x15) (Flt.fdiv (Flt.fint (now - w.start : Nat)) (Flt.fint 1000000000))
    let moved := Flt.flt (x.pw 0x16) (Flt.fsub hi.toNat lo.toNat)
    if Flt.flt lsb (Flt.abs Flt.f64 (Flt.fsub pv w.pv.toNat)) then
      (some { start := now, pv := toD pv, lo := out, hi := out }, false, expired && !w.expired)
    else (some { w with lo := lo, hi := hi, expired := expired }, expired && moved, false)

/-- The slot is under the control law (R293, R295). -/
def LoopSlot.autoMode (x : LoopSlot) : Bool := x.mode == .auto || x.mode == .cascade

/-- OUT_TAG is forced while the slot is under the control law (R280). -/
def outForced (x : LoopSlot) (s : State) : Option DWord :=
  if x.autoMode && x.outEn then forceOf x.outTag s else none

/-- The supervisor's look at the slot's inputs (R292 to R294). -/
def judge (x : LoopSlot) (s : State) : Judge :=
  let pvS := slotIn x x.pvTag s
  let cnt := if pvS.stale then x.lostCnt + 1 else 0
  let lost := pvS.invalid || pvS.nan || decide (x.lostCount ≤ cnt)
  let pv := pvS.f
  let x0 := if x.fresh then pv else x.x.toNat
  let uh := (x.hist.getD x.mdlDead x.outPrev).toNat
  let xp := Flt.fadd (Flt.fadd (Flt.fmul (x.pw 0x10) x0) (Flt.fmul (x.pw 0x11) uh)) (x.pw 0x12)
  let r := Flt.fsub pv xp
  let checks := x.autoMode && (outForced x s).isNone
  let band := x.pw 0x14
  let cntR := if !checks || lost then 0
    else if Flt.flt 0 band && Flt.flt band (Flt.abs Flt.f64 r) then x.resCnt + 1 else 0
  let f := if checks && Flt.flt 0 (x.pw 0x15) && !lost
    then freezeStep x x.frz pv (pvLsb x x.pvTag s) s.loop.ns else (none, false, false)
  { pv := pv, lost := lost, frozen := f.2.1, implausible := decide (x.resCount ≤ cntR) && cntR != 0
    lostCnt := cnt, resCnt := cntR, frz := f.1, tie := f.2.2, xPred := xp, r := r
    x := if lost then xp else Flt.fadd xp (Flt.fmul (x.pw 0x13) r) }

/-- The slot may enter fallback on a condition: it is under the control law, OUT_TAG is not forced and no fallback
lasts (R280, R295). -/
def mayFall (x : LoopSlot) (s : State) : Bool := x.autoMode && (outForced x s).isNone && x.fb.isNone

/-- A condition is found that was not set: set it, report it, and enter fallback (R293, R295). -/
def condFound (k : Nat) (st : Status) (f : LoopSlot → LoopSlot) (s : State) : State :=
  let t := slotSay k st (onSlot k f s)
  let x := slot k t
  if mayFall x t then slotFallback k x.fbAction t else t

/-- The three conditions after a look (R293 to R297). -/
def supervise (k : Nat) (j : Judge) (s : State) : State :=
  let x := slot k s
  let clear := !(j.lost || j.frozen || j.implausible)
  s |> onlyIf j.tie (bump Fld.LOOP_CLOSE_CALL_COUNT)
    |> onSlot k (fun y => { y with
        lost := j.lost && y.lost, frozen := j.frozen && y.frozen, implausible := j.implausible && y.implausible })
    |> onlyIf (j.lost && !x.lost) (condFound k Code.LOOP_LOST (fun y => { y with lost := true }))
    |> onlyIf (j.frozen && !x.frozen) (condFound k Code.LOOP_FROZEN (fun y => { y with frozen := true }))
    |> onlyIf (j.implausible && !x.implausible) (condFound k Code.LOOP_IMPLAUSIBLE (fun y => { y with implausible := true }))
    |> (fun t => let y := slot k t
        if mayFall y t && (y.lost || y.frozen || y.implausible) then slotFallback k y.fbAction t else t)
    |> onSlot k (fun y => { y with clearCnt := if y.fb.isSome && clear then y.clearCnt + 1 else 0 })
    |> (fun t => let y := slot k t
        if y.fb.isSome && y.fb != some .manual && y.fbRecover && clear && decide (y.recover ≤ y.clearCnt)
        then slotRecover k t else t)

/-! ### The control law -/

/-- Clamp to OUT_LO to OUT_HI. -/
def outClamp (x : LoopSlot) (v : Nat) : Nat := fclamp (x.pw 0x08) (x.pw 0x09) v

/-- The rate limit around out_prev; a rate of 0 imposes none (R282). -/
def outRate (x : LoopSlot) (ts v : Nat) : Nat :=
  let prev := x.outPrev.toNat
  let hi := Flt.fadd prev (Flt.fmul (x.pw 0x0A) ts)
  let lo := Flt.fsub prev (Flt.fmul (x.pw 0x0B) ts)
  let v := if Flt.flt 0 (x.pw 0x0A) && Flt.flt hi v then hi else v
  if Flt.flt 0 (x.pw 0x0B) && Flt.flt v lo then lo else v

/-- The sample interval in s (R267, R271). -/
def slotTs (x : LoopSlot) (s : State) : Nat :=
  if x.fresh then Flt.fdiv (Flt.fint (x.div * 18750 : Nat)) (Flt.fint 600000000)
  else if x.sched = 1 then Flt.fdiv (Flt.fint ((x.sampleNs - x.samplePrev) / 8 : Nat)) (Flt.fint 125000000)
  else Flt.fdiv (Flt.fint (s.loop.clock - x.clock : Nat)) (Flt.fint 600000000)

/-- The target of the working setpoint (R279, R281, R285). -/
def spTarget (x : LoopSlot) (s : State) : Nat :=
  if x.mode = .cascade then Flt.widen (Flt.narrow (slot x.primary s).outPrev.toNat) else Flt.widen x.sp

/-- The working setpoint moves to its target (R281). -/
def spMove (x : LoopSlot) (target ts : Nat) : Nat :=
  let rate := x.pw 0x18
  let step := Flt.fmul rate ts
  let w := x.wsp.toNat
  let v := if Flt.flt 0 rate then
      (if Flt.flt (Flt.fadd w step) target then Flt.fadd w step
       else if Flt.flt target (Flt.fsub w step) then Flt.fsub w step else target)
    else target
  fclamp (x.pw 0x0C) (x.pw 0x0D) v

/-- The terms of an evaluation (R282). -/
structure Terms where
  e : Nat
  p : Nat
  d : Nat
  ff : Nat
  y : Nat
  di : Nat
  deriving DecidableEq, Repr

def Terms.pdf (t : Terms) : Nat := Flt.fadd (Flt.fadd t.p t.d) t.ff
def Terms.u (t : Terms) (i : Nat) : Nat := Flt.fadd (Flt.fadd (Flt.fadd t.p (Flt.fadd i t.di)) t.d) t.ff

/-- -1.0 and 1.0. -/
def sgOf (x : LoopSlot) : Nat := if x.direct then Flt.fneg Flt.one else Flt.one

/-- The proportional term. -/
def pTerm (x : LoopSlot) (sp pv : Nat) : Nat :=
  Flt.fmul (Flt.fmul (x.pw 0x00) (sgOf x)) (Flt.fsub (Flt.fmul (x.pw 0x04) sp) pv)

/-- The feedforward term and whether FF_TAG cannot be used (R283). -/
def ffTerm (x : LoopSlot) (s : State) : Nat × Bool :=
  let f := slotIn x x.ffTag s
  let bad := f.invalid || f.stale || f.nan
  if x.ffEn && !bad then (Flt.fadd (Flt.fmul (x.pw 0x06) f.f) (x.pw 0x07), false) else (x.pw 0x07, x.ffEn)

/-- The terms from a usable process value (R282). -/
def mkTerms (x : LoopSlot) (sp pv ts ff : Nat) (firstY : Bool) : Terms :=
  let sg := sgOf x
  let e := Flt.fmul sg (Flt.fsub sp pv)
  let e := if Flt.fle (Flt.abs Flt.f64 e) (x.pw 0x19) then 0 else e
  let kp := x.pw 0x00
  let y := Flt.fmul sg (Flt.fsub (Flt.fmul (x.pw 0x05) sp) pv)
  let td := x.pw 0x02
  let den := Flt.fadd td (Flt.fmul (x.pw 0x03) ts)
  let yPrev := if firstY then y else x.yPrev.toNat
  let d := if Flt.flt 0 td then
      Flt.fadd (Flt.fmul (Flt.fdiv td den) x.dPrev.toNat)
        (Flt.fmul (Flt.fdiv (Flt.fmul (Flt.fmul kp td) (x.pw 0x03)) den) (Flt.fsub y yPrev))
    else 0
  let ti := x.pw 0x01
  { e := e, p := pTerm x sp pv, d := d, ff := ff, y := y
    di := if Flt.flt 0 ti then Flt.fmul (Flt.fdiv (Flt.fmul kp ts) ti) e else 0 }

/-- The secondary of a slot (R286, R287). -/
def secondaryOf (k : Nat) (s : State) : Option LoopSlot :=
  ((validSlots s).find? (fun e => e.2.cascEn && e.2.primary == k)).map (·.2)

/-- The flags that a secondary publishes (R286). -/
def publish (x : LoopSlot) : LoopSlot :=
  let w := x.wsp.toNat
  { x with
    upBlocked := Flt.fle (x.pw 0x0D) w || (if x.direct then x.satLo else x.satHi)
    dnBlocked := Flt.fle w (x.pw 0x0C) || (if x.direct then x.satHi else x.satLo) }

/-- What an evaluation decides about its output (R277 to R291). -/
structure Outcome where
  out : Nat
  i : Nat
  u : Nat
  satHi : Bool := false
  satLo : Bool := false
  held : Bool := false
  tracking : Bool := false
  forced : Bool := false
  trk : Nat := 0
  /-- The output is given by the mode, a force, a fallback or tracking, and not by the control law. -/
  fixed : Bool := true
  deriving DecidableEq, Repr

/-- The control law with conditional integration (R282); `up` and `dn` are the blocks of a secondary. -/
def controlLaw (x : LoopSlot) (t : Terms) (i ts : Nat) (up dn : Bool) : Outcome :=
  let u := t.u i
  let limit := fun v => outRate x ts (outClamp x v)
  let uc := limit u
  let hi := Flt.flt uc u
  let lo := Flt.flt u uc
  let held := (Flt.flt 0 t.di && (hi || up)) || (Flt.flt t.di 0 && (lo || dn))
  if held then { out := limit (Flt.fadd (Flt.fadd (Flt.fadd t.p i) t.d) t.ff), i := i, u := u, satHi := hi, satLo := lo, held := true, fixed := false }
  else { out := uc, i := Flt.fadd i t.di, u := u, satHi := hi, satLo := lo, fixed := false }

/-- The output of an evaluation, by mode, force and fallback (R277, R279, R280, R287, R295, R296). -/
def outcome (k : Nat) (x : LoopSlot) (t : Terms) (i ts : Nat) (usable : Bool) (s : State) : Outcome :=
  let follow := fun v : Nat => ({ out := v, i := Flt.fsub v t.pdf, u := t.u i } : Outcome)
  let hold : Outcome := { out := x.outPrev.toNat, i := i, u := t.u i }
  match x.mode with
  | .off => hold
  | .manual => follow (outClamp x (x.pw 0x0E))
  | .track =>
    let f := slotIn x x.trkTag s
    { follow (if f.invalid then x.outPrev.toNat else outClamp x f.f) with trk := f.f }
  | _ =>
    match outForced x s with
    | some v => { follow (outClamp x (Flt.widen (v.setWidth 32))) with forced := true, trk := Flt.widen (v.setWidth 32) }
    | none =>
      let sec := secondaryOf k s
      let law := fun _ : Unit => controlLaw x t i ts (sec.any (fun y => y.mode != .off && y.upBlocked))
        (sec.any (fun y => y.mode != .off && y.dnBlocked))
      match x.fb with
      | some .hold | some .manual => hold
      | some .safe => { (if usable then follow (x.pw 0x0F) else hold) with out := x.pw 0x0F }
      | some .backup => if x.bakLost then hold else law ()
      | none =>
        match sec with
        | some y =>
          if x.mode == .auto && (y.mode != .cascade || y.fb.isSome) then
            { follow (outClamp x y.wsp.toNat) with tracking := true }
          else law ()
        | none => law ()

/-- A value may stand as an output. -/
def allFinite (l : List Nat) : Bool := l.all Flt.ffin

/-! ### Output and trace -/

/-- Write OUT_TAG (R270, R284). -/
def slotWrite (k : Nat) (s : State) : State :=
  let x := slot k s
  if x.outEn && outOwned k x s then tagStore x.outTag ((Flt.narrow x.outPrev.toNat).zeroExtend 64) s else s

/-- The slot stops writing OUT_TAG (Table LOOP-3). -/
def slotRelease (k : Nat) (s : State) : State :=
  let x := slot k s
  if x.outEn && outOwned k x s then dropCommitted x.outTag s else s

def traceBuf (b : Nat) (s : State) : TraceBuf := Sparse.get (fun _ => {}) s.loop.trace b
def onTrace (b : Nat) (f : TraceBuf → TraceBuf) (s : State) : State :=
  { s with loop := { s.loop with trace := Sparse.set (fun _ => {}) s.loop.trace b (f (traceBuf b s)) } }

/-- Internal address of a trace buffer (R299). -/
def traceBase (b : Nat) : Nat := 0x201000000 + 0x40000 * b

/-- Channels recorded, and the records a buffer holds (R299). -/
def traceMask (b : Nat) (s : State) : Nat := fld (Fld.TRBb_CFG_MASK b) s
def traceChannels (b : Nat) (s : State) : List Nat := (List.range 16).filter (fun c => (traceMask b s).testBit c)
def traceLen (b : Nat) (s : State) : Nat := 16 + 4 * (traceChannels b s).length
def traceCap (b : Nat) (s : State) : Nat := 262144 / traceLen b s

/-- A trigger of a buffer (R301). -/
def traceTrig (b : Nat) (s : State) : State :=
  if flag (Fld.TRBb_STATUS_RUN b) s && !flag (Fld.TRBb_STATUS_TRIGGERED b) s then
    s |> setFlag (Fld.TRBb_STATUS_TRIGGERED b) true
      |> setFld (Fld.TRBb_STATUS_TRIG_INDEX b) (fld (Fld.TRBb_STATUS_WR_INDEX b) s)
      |> onlyIf (fld (Fld.TRBb_TRIG_MODE b) s == 1) (fun t =>
          onTrace b (fun x => { x with post := some (fld (Fld.TRBb_POST_POST b) t) }) t)
      |> raiseF 0x05 Fld.LOOP_EVENT_TRACE_TRIG |> say Code.LOOP_TRACE_TRIG
  else s

/-- Write one record of slot `k` (Table LOOP-6). -/
def tracePut (b k : Nat) (s : State) : State :=
  let x := slot k s
  let tb := traceBuf b s
  let i := fld (Fld.TRBb_STATUS_WR_INDEX b) s
  let a := traceBase b + i * traceLen b s
  let w2 := tb.seq % 256 * 2 ^ 24 + x.mode.code * 2 ^ 20 + x.fb.isSome.toNat * 2 ^ 19 + x.lost.toNat * 2 ^ 18
    + x.frozen.toNat * 2 ^ 17 + x.implausible.toNat * 2 ^ 16 + x.satHi.toNat * 2 ^ 15 + x.satLo.toNat * 2 ^ 14
    + x.ffInvalid.toNat * 2 ^ 13 + x.selected.toNat * 2 ^ 12 + x.intHeld.toNat * 2 ^ 11 + k
  let vals := (traceChannels b s).flatMap (fun c => leBytes 4 (x.items.getD c 0).toNat)
  let next := (i + 1) % traceCap b s
  let full := next == 0
  let mode := fld (Fld.TRBb_TRIG_MODE b) s
  let done := (mode == 2 && full) || tb.post == some 0
  s |> msetBytes a (leBytes 8 x.stamp.toNat ++ leBytes 4 w2 ++ leBytes 4 (traceMask b s) ++ vals)
    |> setFld (Fld.TRBb_STATUS_WR_INDEX b) next
    |> onlyIf full (setFlag (Fld.TRBb_STATUS_WRAPPED b) true)
    |> onTrace b (fun t => { t with seq := t.seq + 1, done := done, post := t.post.map (· - 1) })

/-- The buffers of a slot record its evaluation (R299, R301). -/
def traceSlot (k : Nat) (s : State) : State :=
  let fell := (slot k s).fell
  onSlot k (fun x => { x with fell := false }) <| forAll ((List.range 32).filter (fun b => flag (Fld.TRBb_STATUS_RUN b) s && fld (Fld.TRBb_CFG_SLOT b) s == k)) (fun b t =>
    let tag := tagTrue (fld (Fld.TRBb_TRIG_TAG b) t) t
    let hit := match fld (Fld.TRBb_TRIG_SRC b) t with
      | 1 => fell
      | 2 => tag && !(traceBuf b t).tagPrev
      | _ => false
    let t := t |> onTrace b (fun x => { x with tagPrev := tag }) |> onlyIf hit (traceTrig b)
    let tb := traceBuf b t
    if tb.done then t
    else if tb.skip = 0 then tracePut b k (onTrace b (fun x => { x with skip := fld (Fld.TRBb_TRIG_DECIM b) t }) t)
    else onTrace b (fun x => { x with skip := x.skip - 1 }) t) s

/-! ### Override groups -/

/-- The member that the group selects (R289): lowest or highest candidate, the lowest position among equals. -/
def ovrSelect (high : Bool) : List (Nat × LoopCand) → Option (Nat × LoopCand)
  | [] => none
  | e :: t =>
    match ovrSelect high t with
    | none => some e
    | some f =>
      let better := if high then Flt.flt e.2.cand.toNat f.2.cand.toNat else Flt.flt f.2.cand.toNat e.2.cand.toNat
      some (if better then f else e)

/-- Set one trace channel of a slot. -/
def setItem (x : LoopSlot) (c : Nat) (v : Nat) : LoopSlot :=
  { x with items := (List.range 16).map (fun j => if j = c then Flt.narrow v else x.items.getD j 0) }

/-- A member after the selection (R291). -/
def memberAfter (high : Bool) (group : Nat) (sel : Bool) (x : LoopSlot) : LoopSlot :=
  match x.cand with
  | none => { x with outPrev := toD group, hist := (toD group :: x.hist).take 16 }
  | some c =>
    let i := x.i.toNat
    let hi := Flt.flt group c.u.toNat
    let lo := Flt.flt c.u.toNat group
    let di := c.di.toNat
    let held := sel && ((Flt.flt 0 di && hi) || (Flt.flt di 0 && lo))
    let i' := if sel then (if held then i else Flt.fadd i di) else Flt.fsub group c.pdf.toNat
    let y := { x with
      i := toD i', outPrev := toD group, hist := (toD group :: x.hist).take 16, selected := sel, intHeld := held
      satHi := if sel then hi else !high, satLo := if sel then lo else high, cand := none }
    publish (setItem (setItem (setItem y 2 group) 5 i') 11 group)

/-- The selection at the evaluation of member LAST (R289 to R291). -/
def ovrFinish (g : Nat) (ts : Nat) (s : State) : State :=
  match memberAt g 0 s with
  | none => s
  | some (lead, l) =>
    let members := (groupOf g s).filter (fun e => e.2.mode != .off)
    let sorted := (List.range 8).filterMap (fun m => members.find? (fun e => e.2.member == m))
    let cands := sorted.filterMap (fun e => e.2.cand.bind (fun c => if c.eligible then some (e.1, c) else none))
    let fixed := l.cand.bind (·.fixed)
    let ts := (l.cand.map (fun c => c.ts.toNat)).getD ts
    let free := fixed.isNone && (l.mode == .auto || l.mode == .cascade)
    let pick := if free then ovrSelect l.ovrHigh cands else none
    let none' := free && pick.isNone
    let group := match fixed with
      | some v => v.toNat
      | none => match pick with
        | some c => outRate l ts c.2.cand.toNat
        | none => l.outPrev.toNat
    let t := forAll sorted (fun e u => onSlot e.1 (memberAfter l.ovrHigh group (pick.any (fun c => c.1 == e.1))) u) s
    let t := if none' && !t.loop.ovrNone.contains g then
        say Code.LOOP_OVR_NONE { t with loop := { t.loop with ovrNone := g :: t.loop.ovrNone } }
      else if none' then t
      else { t with loop := { t.loop with ovrNone := t.loop.ovrNone.filter (· != g) } }
    t |> slotWrite lead |> forAll sorted (fun e => traceSlot e.1)

/-! ### Writes to a slot -/

/-- The slot goes to OFF (R277, R288). -/
def slotOff (k : Nat) (s : State) : State :=
  let x := slot k s
  let one := fun j t => onSlot j (fun y => { y with
      mode := .off, fb := none, due := false, evt := false, cand := none, lost := false, frozen := false
      implausible := false, frz := none, resCnt := 0, lostCnt := 0 }) (slotRelease j t) |> markOut j
  let t := one k s
  if x.ovrEn && x.member == 0 then
    forAll ((groupOf x.group s).filter (fun e => e.2.member != 0)) (fun e => one e.1) t
  else t

/-- A mode command takes effect on a slot that is not in OFF (R277, R297). -/
def modeEffect (k : Nat) (m : LoopMode) (s : State) : State :=
  let x := slot k s
  let set := fun t => slotMirror k (onSlot k (fun y => { y with mode := m }) t)
  match m with
  | .off => slotMirror k (slotOff k s)
  | .auto | .cascade =>
    match x.fb with
    | none => set s
    | some .manual => set (slotRecover k s)
    | some _ =>
      if x.fbRecover then set s
      else if x.lost || x.frozen || x.implausible then slotRefuse k Code.LOOP_FB_ACTIVE s
      else set (slotRecover k s)
  | _ => if x.fb == some .manual then set (slotRecover k s) else set s

/-- A write takes effect (R272, R276). -/
def writeEffect (k : Nat) (w : SlotWrite) (s : State) : State :=
  match w with
  | .sp v => onSlot k (fun x => { x with sp := v }) s
  | .par c v =>
    if parOk (slot k s) c v then onSlot k (fun x => { x with par := Sparse.set parReset x.par c v }) s
    else slotRefuse k Code.LOOP_PAR_RANGE s
  | .mode m => if (slot k s).mode == .off then s else modeEffect k m s

/-- A write waits for the next evaluation. -/
def queueWrite (k : Nat) (w : SlotWrite) (s : State) : State := onSlot k (fun x => { x with writes := x.writes ++ [w] }) s

/-- A setpoint write (R272). -/
def loopPutSp (k : Nat) (v : Word) (s : State) : Status × State := (Code.LOOP_OK, queueWrite k (.sp v) s)

/-- A parameter write; a reserved code or a value that is not finite is refused at once (R276, R309). -/
def loopPutPar (k c : Nat) (v : Word) (s : State) : Status × State :=
  if 0x19 < c then (Code.LOOP_BAD_ITEM, slotRefuse k Code.LOOP_BAD_ITEM s)
  else if !Flt.isFinite Flt.f32 v.toNat then (Code.LOOP_PAR_RANGE, slotRefuse k Code.LOOP_PAR_RANGE s)
  else (Code.LOOP_OK, queueWrite k (.par c v) s)

/-- A mode command (R275, R277): a slot in OFF leaves it at once when its checks pass. -/
def loopPutMode (k c : Nat) (s : State) : Status × State :=
  let x := slot k s
  let no := fun st => (st, slotRefuse k st s)
  match loopModeOf c with
  | none => no Code.LOOP_BAD_MODE
  | some m =>
    if (m == .cascade && !x.cascEn) || (m == .track && !x.trkEn) then no Code.LOOP_BAD_MODE
    else if m != .off && !x.valid then no Code.LOOP_NO_DESC
    else if x.mode != .off then (Code.LOOP_OK, queueWrite k (.mode m) s)
    else if m == .off then (Code.LOOP_OK, s)
    else match slotCheck k x s with
      | some st => no st
      | none => (Code.LOOP_OK, slotMirror k (onSlot k (fun y => { y with mode := m, fresh := true }) s))

/-! ### The evaluation -/

/-- The mirror record of R302 replaces the standby's state. -/
def applyMirror (k : Nat) (s : State) : State :=
  let x := slot k s
  match x.mirror with
  | none => s
  | some r =>
    let m := (loopModeOf r.mode).getD .off
    let fb := if r.fb.getLsbD 7 then
        some (match r.fb.toNat % 4 with | 0 => FbAction.hold | 1 => .safe | 2 => .manual | _ => .backup)
      else none
    onSlot k (fun y => { y with
      mirror := none, mode := m, fb := fb, lost := r.fb.getLsbD 6, frozen := r.fb.getLsbD 5, implausible := r.fb.getLsbD 4
      wsp := toD (Flt.widen r.wsp), i := r.i, dPrev := r.dPrev, outPrev := toD (Flt.widen r.outPrev) }) s |> markOut k

/-- R278: before the first evaluation after OFF. -/
def slotInit (k : Nat) (s : State) : State :=
  let x := slot k s
  if !x.fresh then s
  else
    let start := fun v : Nat => onSlot k (fun y => { y with
      outPrev := toD (outClamp y v), dPrev := 0, frz := none, resCnt := 0, lostCnt := 0, hist := [], rebase := true }) 
    if x.outEn then start (Flt.widen ((tagLive x.outTag s).val.setWidth 32)) s
    else withFree (fun d => start d.toNat) s

/-- The BACKUP fallback's check of BAK_TAG (R296). -/
def checkBackup (k : Nat) (s : State) : State :=
  let x := slot k s
  if x.fb != some .backup then s
  else
    let b := slotIn x x.bakTag s
    let cnt := if b.stale then x.bakCnt + 1 else 0
    let lost := b.invalid || b.nan || decide (x.lostCount ≤ cnt)
    let f := if Flt.flt 0 (x.pw 0x15) && !lost then freezeStep x x.bakFrz b.f (pvLsb x x.bakTag s) s.loop.ns else (none, false, false)
    let bad := lost || f.2.1
    s |> onSlot k (fun y => { y with bakCnt := cnt, bakFrz := f.1, bakLost := bad, rebase := y.rebase || (x.bakLost && !bad) })
      |> onlyIf (bad && !x.bakLost) (slotSay k Code.LOOP_BACKUP_LOST)

/-- The sixteen trace channels (Table LOOP-5). -/
def mkItems (x : LoopSlot) (j : Judge) (t : Terms) (o : Outcome) (pv ts : Nat) (cand : Nat) (s : State) : List Word :=
  ([x.wsp.toNat, pv, o.out, t.e, t.p, o.i, t.d, t.ff, o.u, j.xPred, j.r, o.trk].map Flt.narrow)
  ++ [(slotIn x x.pvTag s).word, (slotIn x x.bakTag s).word] ++ ([ts, cand].map Flt.narrow)

/-- Numeric fault (R284). -/
def numericFault (k : Nat) (s : State) : State :=
  s |> onSlot k (fun x => { x with
        fb := some .hold, fell := true, clearCnt := 0, cand := none, due := false, evt := false, cap := [], clock := s.loop.clock, fresh := false })
    |> raiseF 0x05 Fld.LOOP_EVENT_NUMERIC |> raiseF 0x05 Fld.LOOP_EVENT_FALLBACK |> slotSay k Code.LOOP_NUMERIC |> markOut k

/-- The control part of an evaluation, after writes and supervision (R278 to R291). -/
def evalControl (k : Nat) (old : LoopSlot) (j : Judge) (ts : Nat) (s : State) : State :=
  let x := slot k s
  let bak := x.fb == some .backup && !x.bakLost
  let pv := if bak then (slotIn x x.bakTag s).f else j.pv
  let usable := if x.fb == some .backup then !x.bakLost else !j.lost
  let manualLike := x.mode == .manual || x.mode == .track
  let x := if x.spTrack && manualLike && usable then { x with sp := Flt.narrow pv, wsp := toD pv } else x
  let sp := if x.spTrack && manualLike && usable then fclamp (x.pw 0x0C) (x.pw 0x0D) pv else spMove x (spTarget x s) ts
  let x := { x with wsp := toD sp }
  let x := if x.mode = .cascade then { x with sp := Flt.narrow sp } else x
  let ff := ffTerm x s
  let t := if usable then mkTerms (if x.rebase && bak then { x with dPrev := 0 } else x) sp pv ts ff.1 (x.fresh || (x.rebase && bak))
    else { e := 0, p := x.p.toNat, d := x.d.toNat, ff := ff.1, y := x.yPrev.toNat, di := 0 }
  let changed := [0x00, 0x04, 0x06, 0x07].any (fun c => old.parAt c != x.parAt c)
  let i := if x.rebase then Flt.fsub x.outPrev.toNat t.pdf
    else if changed && usable then
      let o := { x with par := old.par }
      Flt.fadd x.i.toNat (Flt.fsub (Flt.fadd (pTerm o sp pv) (ffTerm o s).1) (Flt.fadd t.p t.ff))
    else x.i.toNat
  let o := outcome k x t i ts usable s
  let cand := outClamp x o.u
  if !allFinite [o.u, o.out, o.i] then
    let items := mkItems x j t { o with out := x.outPrev.toNat } pv ts (if x.ovrEn then cand else o.u) s
    s |> numericFault k |> onSlot k (fun y => { y with items := items }) |> onlyIf (!x.ovrEn) (traceSlot k)
  else
    let safe := x.autoMode && x.fb == some .safe
    let base := { x with
      p := toD t.p, d := toD t.d, ff := toD t.ff, y := toD t.y, dPrev := toD t.d, yPrev := toD t.y, x := toD j.x
      ffInvalid := ff.2, tracking := o.tracking, forcedOut := o.forced
      lostCnt := j.lostCnt, resCnt := j.resCnt, frz := j.frz, fresh := false, rebase := false, due := false, evt := false
      cap := [], clock := s.loop.clock
      items := mkItems x j t o pv ts (if x.ovrEn then cand else o.u) s }
    if x.ovrEn then
      let c : LoopCand := { cand := toD (if safe then x.pw 0x0F else cand), u := toD (if safe then x.pw 0x0F else o.u), pdf := toD t.pdf
                            di := toD (if o.fixed then 0 else t.di), eligible := !o.fixed || safe
                            fixed := if x.member == 0 && (o.forced || o.tracking || manualLike) then some (toD o.out) else none, ts := toD ts }
      setSlot k { base with i := toD i, cand := some c, selected := false } s
    else
      s |> setSlot k (publish { base with
            i := toD o.i, outPrev := toD o.out, hist := (toD o.out :: x.hist).take 16, satHi := o.satHi, satLo := o.satLo
            intHeld := o.held, selected := false })
        |> slotWrite k |> traceSlot k

/-- The slot belongs to a group whose selection its position makes (R289). -/
def closesGroup (x : LoopSlot) (s : State) : Bool :=
  x.valid && x.ovrEn && x.member == x.lastMember && (memberAt x.group 0 s).any (fun e => e.2.mode != .off)

/-- Count the evaluation in its lane (LOOP_LOAD). -/
def laneCount (k : Nat) (s : State) : State :=
  let l := k / 16 % 4
  let load := (List.range 4).map (fun j => s.loop.load.getD j 0 + (j == l).toNat)
  let t := { s with loop := { s.loop with load := load } }
  let f : RegField := ⟨Reg.LOOP_LOAD, 8 * l, 8⟩
  setFld f (max (fld f t) (min 255 (load.getD l 0))) t

/-- The engine evaluates: RUN has started frames, the Loop region runs and the slot's bank is not isolated (R298,
R306). -/
def engineRuns (k : Nat) (s : State) : Bool :=
  regionsUp s && !inFallback 1 s && !slotBankIso (k / 16) s

/-- One evaluation of a slot (R272, R278 to R301). -/
def evaluate (k : Nat) (s : State) : State :=
  let s := applyMirror k (laneCount k s)
  let old := slot k s
  let s := forAll old.writes (writeEffect k) (onSlot k (fun x => { x with writes := [] }) s)
  if (slot k s).mode == .off then onSlot k (fun x => { x with due := false, evt := false }) s
  else
    let s := slotInit k s
    let x := slot k s
    let ts := slotTs x s
    let j := judge x s
    evalControl k old j ts (checkBackup k (supervise k j s))

/-- An evaluation at a slot's position, and the selection of its group when it closes one. -/
def evaluateAt (k : Nat) (s : State) : State :=
  let ts := slotTs (slot k s) s
  let t := if (slot k s).mode == .off then onSlot k (fun x => { x with due := false }) s else evaluate k s
  if closesGroup (slot k t) t then ovrFinish (slot k t).group ts t else t

/-! ### Samples, swaps and the region's fallback -/

/-- LOOP_SAMPLE of the tide table (R271). -/
def loopSample (k : Nat) (s : State) : State :=
  let x := slot k s
  if x.mode == .off || x.sched != 1 then slotSay k Code.LOOP_SAMPLE_IGNORED s
  else if x.evt then slotSay k Code.LOOP_EVT_MERGED (bump Fld.LOOP_EVT_COUNTS_MERGED s)
  else
    s |> slotCapture k (moduleNs s)
      |> onSlot k (fun y => { y with evt := true, samplePrev := y.sampleNs, sampleNs := nowNs s })

/-- The checks of R275 at an image swap. -/
def loopSwapCheck (s : State) : State :=
  forAll (s.loop.slots.filter (fun e => e.2.mode != .off)) (fun e t =>
    let x := slot e.1 t
    match slotCheck e.1 x t with
    | none => t
    | some st =>
      t |> onSlot e.1 (fun y => { y with fb := some .hold, fell := true, clearCnt := 0 })
        |> raiseF 0x05 Fld.LOOP_EVENT_FALLBACK |> slotSay e.1 st |> markOut e.1) s

/-- The Loop region's fallback (R298, Table ARCH-4): SAFE slots write SAFE_OUT once; the others hold. -/
def loopRegionFallback (s : State) : State :=
  forAll (s.loop.slots.filter (fun e => e.2.mode != .off && (!e.2.ovrEn || e.2.member == 0) && e.2.fbAction == .safe))
    (fun e t => slotWrite e.1 (onSlot e.1 (fun y => { y with outPrev := toD (y.pw 0x0F) }) t)) s

end Sys2Proof.Machine
end

