-- ==== Sys2Proof/Machine/TideOps.lean ====
section
/-! DEFINITION. The tide tracker (R100 to R129): measurements, the phase-locked update, and the
transitions of Table TIDE-5. -/
namespace Sys2Proof.Machine

/-- State codes of Table TIDE-4. -/
def TideState.code : TideState → Nat
  | .disabled => 0
  | .acquire => 1
  | .locked => 2
  | .holdover => 3
  | .lost => 4
  | .fault => 5

/-- A tide. -/
def tide (n : Nat) (s : State) : Tide := Sparse.get (fun _ => {}) s.tides n
def setTide (n : Nat) (t : Tide) (s : State) : State := { s with tides := Sparse.set (fun _ => {}) s.tides n t }

/-- Update a tide. -/
def onTide (n : Nat) (f : Tide → Tide) (s : State) : State := setTide n (f (tide n s)) s

/-- The angle and the turn count of a tide (R101). -/
def tideAngle (n : Nat) (s : State) : Word := BitVec.ofNat 32 ((tide n s).pos.toNat / 2 ^ 32)
def tideTurn (n : Nat) (s : State) : Word := BitVec.ofNat 32 ((tide n s).pos.toNat / 2 ^ 64)
/-- The position TURN:ANGLE (R101). -/
def tidePos (n : Nat) (s : State) : DWord := BitVec.ofNat 64 ((tide n s).pos.toNat / 2 ^ 32)

/-- The signed modular difference of two angles (R102). -/
def angleDiff (a b : Word) : Int := (a - b).toInt

/-- a lies after b (R102). -/
def angleAfter (a b : Word) : Bool := decide (0 < angleDiff a b)

def tideEnabled (n : Nat) (s : State) : Bool := bitAt Reg.TIDE_CTRL n s
def tideSource (n : Nat) (s : State) : Nat := fld (Fld.TDn_CFG_SOURCE n) s
def tideInput (n : Nat) (s : State) : Nat := fld (Fld.TDn_CFG_INPUT n) s
def tideScale (n : Nat) (s : State) : Nat := (rd (Reg.TDn_SCALE n) s).toNat
def tideOffset (n : Nat) (s : State) : Word := rd (Reg.TDn_OFFSET n) s

/-- A paired source: encoder or step/direction (Table TIDE-1). -/
def tidePaired (n : Nat) (s : State) : Bool := tideSource n s == 2 || tideSource n s == 3

/-- The tracker runs: every state except DISABLED and FAULT (R120). -/
def tideRuns (n : Nat) (s : State) : Bool := (tide n s).st != .disabled && (tide n s).st != .fault

/-- The TI front ends deliver: the regions run, the Field region is not in fallback and the TI bank is not in
fault (R129). -/
def tiLive (s : State) : Bool := regionsUp s && !inFallback 2 s && !flag Fld.SUP_REGIONS_TI_BANK s

/-- TI inputs that a tide uses (R108). -/
def tideInputs (n : Nat) (s : State) : List Nat :=
  if tideSource n s = 1 then [tideInput n s]
  else if tidePaired n s then [tideInput n s, tideInput n s + 1] else []

/-- The enable is refused for its source or inputs (R108). -/
def tideConflict (n : Nat) (s : State) : Bool :=
  decide (4 < tideSource n s) || (tidePaired n s && tideInput n s % 2 == 1)
  || (List.range 8).any (fun m => m != n && tideEnabled m s && (tide m s).st != .fault
      && tideSource m s != tideSource n s && (tideInputs m s).any (fun i => (tideInputs n s).contains i))

/-- The range of SCALE by source (Table TIDE-15). -/
def scaleOk (src scale : Nat) : Bool :=
  match src with
  | 0 => decide (1 ≤ scale)
  | 1 => inRange scale 45000 66000
  | 2 => inRange scale 4 16777216
  | 3 => inRange scale 1 16777216
  | _ => decide (1000 ≤ scale)

/-- Every field lies in its range (Tables TIDE-14 to TIDE-18). -/
def tideRangeOk (n : Nat) (s : State) : Bool :=
  scaleOk (tideSource n s) (tideScale n s) && inRange (fld (Fld.TDn_CFG_KI_SHIFT n) s) 8 47
  && fld (Fld.TDn_CFG_HOLD_ENTRY n) s != 0 && fld (Fld.TDn_WINDOWS_LOCK_COUNT n) s != 0
  && inRange (fld (Fld.TDn_HOLDLIM_HOLD_LIMIT n) s) 1 60000 && fld (Fld.TDn_CFG_INDEX_MODE n) s != 3

/-- The frequency of a value in mHz, in 2^-32 counts per cycle (R122). -/
def omegaMhz (mhz : Nat) : Int := roundAway ((mhz * 2 ^ 64 * 8 : Nat) : Int) 1000000000000

/-- The frequency set at enable (R122). -/
def omegaInit (n : Nat) (s : State) : Int :=
  match tideSource n s with
  | 0 | 1 => omegaMhz (tideScale n s)
  | 4 => roundAway ((2 ^ 67 : Nat) : Int) (tideScale n s)
  | _ => 0

/-- The clamp of the tracker frequency (R122). -/
def omegaClamp (src : Nat) (w : Int) : Int :=
  if src = 1 then max (omegaMhz 45000) (min (omegaMhz 66000) w)
  else max (-(2 ^ 63 - 1)) (min (2 ^ 63 - 1) w)

/-- The frequency of holdover (R124); the rounding of the mean is free where it is inexact. -/
def omegaHold (n : Nat) (up : Bool) (s : State) : Int :=
  let h := (tide n s).hist
  if flag (Fld.TDn_CFG_HOLD_MODE n) s then 0
  else if h.isEmpty then omegaInit n s
  else
    let sum := h.foldl (· + ·) 0
    let q := sum / (h.length : Int)
    if sum % (h.length : Int) = 0 then q else q + up.toNat

/-- Report a transition: its TIDE_EVENT bit and its status (R123). -/
def tideEvent (f : RegField) (n : Nat) (st : Status) (s : State) : State := s |> raiseBit 0x04 f n |> say st

/-- Enter HOLDOVER from ACQUIRE or LOCKED (Table TIDE-5); a network-time tide held over for undisciplined
module time keeps its frequency (R118, R124). -/
def tideHold (net : Bool) (n : Nat) (s : State) : State :=
  match (tide n s).st with
  | .acquire | .locked =>
    s |> withFree (fun d t => onTide n (fun x => { x with
          st := .holdover, omega := if net then x.omega else omegaHold n (d.getLsbD 0) t
          holdNs := nowNs t, relockCnt := 0, lockCnt := 0, unlockCnt := 0, skipped := true }) t)
      |> tideEvent Fld.TIDE_EVENT_HOLDOVER n Code.TIDE_HOLDOVER
  | _ => s

/-- Enter LOCKED. -/
def tideLock (n : Nat) (s : State) : State :=
  s |> onTide n (fun x => { x with st := .locked, lockCnt := 0, unlockCnt := 0, relockCnt := 0 })
    |> setFlag (Fld.TDn_STATUS_RELOCK_HELD n) false |> tideEvent Fld.TIDE_EVENT_LOCKED n Code.TIDE_LOCKED

/-- While module time is not disciplined, a network-time tide is in HOLDOVER (R118). -/
def tideNetCheck (n : Nat) (s : State) : State :=
  if tideSource n s == 4 && !disciplined s then tideHold true n s else s

/-- A line fault stands on one of the tide's lines (R116). -/
def tideLineFault (n : Nat) (s : State) : Bool :=
  tidePaired n s && s.tiFault.any (fun k =>
    (tideInputs n s).contains (k / 2) && (k % 2 == 0 || fld (Fld.TDn_CFG_INDEX_MODE n) s != 0))

/-- A tide on TI inputs that do not deliver, or that have a line fault, is in HOLDOVER (R116, R129, Table ARCH-4). DEDUCED:
log entry 21. -/
def tideInputCheck (n : Nat) (s : State) : State :=
  let s := setFlag (Fld.TDn_STATUS_LINE_FAULT n) (tideLineFault n s) s
  if inRange (tideSource n s) 1 3 && (!tiLive s || tideLineFault n s) then tideHold false n s else s

/-- Check every network-time tide after the servo has left LOCKED (R118). -/
def tidesNetCheck (s : State) : State := forAll (List.range 8) tideNetCheck s

/-- Set theta to a 64-bit value; TURN follows the wrap (R125, R128). -/
def jumpTo (theta : BitVec 64) (x : Tide) : Tide :=
  { x with pos := x.pos + (theta - BitVec.ofNat 64 x.pos.toNat).signExtend 96 }

/-- Set theta and TURN 0 (R122). -/
def placeAt (theta : BitVec 64) (x : Tide) : Tide := { x with pos := theta.zeroExtend 96 }

/-- ENABLE set (Table TIDE-5, R108, R122). -/
def tideEnable (n : Nat) (s : State) : State :=
  let s := s |> setBitAt Reg.TIDE_CTRL n true |> setBitAt Reg.TIDE_LOCK n false
  if tideConflict n s then
    s |> onTide n (fun x => { x with st := .fault }) |> setFlag (Fld.TDn_STATUS_CFG_CONFLICT n) true |> say Code.TIDE_CFG_CONFLICT
  else if !tideRangeOk n s then
    s |> onTide n (fun x => { x with st := .fault }) |> setFlag (Fld.TDn_STATUS_CFG_CONFLICT n) true |> say Code.TIDE_CFG_RANGE
  else
    let w := omegaInit n s
    let s := onTide n (fun x => { pos := x.pos, p := x.p, omega := w, st := .acquire, fresh := true }) s
    let s := onlyIf (tideSource n s != 1) (setFld (Fld.TDn_AMPL_AMPL n) 0) s
    if tideSource n s = 0 then tideLock n (onTide n (fun x => { x with fresh := false }) s)
    else tideInputCheck n (tideNetCheck n s)

/-- ENABLE cleared (Table TIDE-5, R128): the angle is frozen and a waiting measurement discarded. -/
def tideDisable (n : Nat) (s : State) : State :=
  s |> setBitAt Reg.TIDE_CTRL n false |> setFlag (Fld.TDn_STATUS_CFG_CONFLICT n) false
    |> setFlag (Fld.TDn_STATUS_RELOCK_HELD n) false
    |> onTide n (fun x => { pos := x.pos, omega := x.omega, p := x.p, st := .disabled })

/-- RESYNC written (R122, Table TIDE-9). -/
def tideResync (n : Nat) (s : State) : State :=
  if !tideRuns n s then s
  else if tideSource n s = 0 then
    s |> onTide n (jumpTo (BitVec.ofNat 64 ((tideOffset n s).toNat * 2 ^ 32)))
      |> tideEvent Fld.TIDE_EVENT_JUMP n Code.TIDE_JUMP
  else
    let w := if tidePaired n s then (tide n s).omega else omegaInit n s
    onTide n (fun x => { x with fresh := true, resync := true, omega := w, crossings := 0, indexSeen := false }) s

/-- A measurement is missed or rejected: counted, and HOLDOVER after HOLD_ENTRY in a row (Table TIDE-5). -/
def tideMissed (n : Nat) (s : State) : State :=
  let t := s |> bump (Fld.TDn_COUNTS_MISS n)
    |> onTide n (fun x => { x with missCnt := x.missCnt + 1, lockCnt := 0, unlockCnt := 0, relockCnt := 0 })
  if fld (Fld.TDn_CFG_HOLD_ENTRY n) t ≤ (tide n t).missCnt then tideHold false n t else t

/-- A measurement is accepted and waits for the update slot (R121). -/
def tideAccept (n : Nat) (p : TidePend) (s : State) : State :=
  s |> setFlag (Fld.TDn_STATUS_REF_OK n) true |> onTide n (fun x => { x with missCnt := 0, pend := some p })

/-- One expected crossing interval in angle: half a turn or a full turn (R107). -/
def crossStep (n : Nat) (s : State) : Word := if flag (Fld.TDn_CFG_MEAS_EDGES n) s then 0x80000000 else 0

/-- Crossing intervals that the time `iv` in ns spans at the tracker's frequency (R106). -/
def crossSpan (n iv : Nat) (up : Bool) (s : State) : Nat :=
  let unit := if flag (Fld.TDn_CFG_MEAS_EDGES n) s then 2 ^ 63 else 2 ^ 64
  if (tide n s).skipped then max 1 (roundTie (iv * (tide n s).omega.natAbs) (8 * unit) up) else 1

/-- The interval lies outside 45 Hz to 66 Hz (R106). -/
def crossFreqBad (n iv k : Nat) (s : State) : Bool :=
  let per := if flag (Fld.TDn_CFG_MEAS_EDGES n) s then 2 * iv else iv
  decide (k * 1000000000 < 45 * per) || decide (66 * per < k * 1000000000)

/-- The tracker phase at an instant in ns (R120). -/
def thetaAt (tk : Nat) (x : Tide) (s : State) : BitVec 64 :=
  BitVec.ofNat 64 x.pos.toNat - BitVec.ofInt 64 (Int.tdiv (x.omega * ((nowNs s : Int) - tk)) 8)

/-- The integer part of a phase: its angle. -/
def thetaAngle (t : BitVec 64) : Word := BitVec.ofNat 32 (t.toNat / 2 ^ 32)

/-- A mains crossing (R106, R107). Every test that fails sets its bit and reports its status; the
rejection counts once. -/
def mainsCrossing (n : Nat) (positive : Bool) (peak tk : Nat) (s : State) : State :=
  let x := tide n s
  let up := Config.roundUp s.freeCtr tk
  let iv := (x.lastCross).map (fun l => tk - l)
  let k := (iv.map (fun v => crossSpan n v up s)).getD 1
  let ampBad := decide (peak < fld (Fld.TDn_WINDOWS_FILTER n) s * 50)
  let freqBad := (iv.map (fun v => crossFreqBad n v k s)).getD false
  let off := (angleDiff (thetaAngle (thetaAt tk x s)) x.expect).natAbs
  let far := x.crossings != 0 && decide (0x20000000 < off)
  let phaseBad := x.st == .locked && far
  let s := s |> setFld (Fld.TDn_AMPL_AMPL n) (min peak 0xFFFF)
    |> setFlag (Fld.TDn_STATUS_AMPL_LOW n) ampBad |> setFlag (Fld.TDn_STATUS_FREQ_RANGE n) freqBad
    |> setFlag (Fld.TDn_STATUS_PHASE_REJECT n) phaseBad
  if ampBad || freqBad || phaseBad then
    let answers := x.crossings != 0 && !far
    s |> setFlag (Fld.TDn_STATUS_REF_OK n) false
      |> onlyIf ampBad (say Code.TIDE_AMPL_LOW) |> onlyIf freqBad (say Code.TIDE_FREQ_RANGE)
      |> onlyIf phaseBad (say Code.TIDE_PHASE_REJECT)
      |> onTide n (fun x => { x with skipped := true, expect := (if answers then x.expect + crossStep n s else x.expect) })
      |> tideMissed n
  else
    let phi := tideOffset n s + (if positive then 0 else 0x80000000)
    s |> onTide n (fun x => { x with
          crossings := x.crossings + 1, lastCross := some tk, skipped := false, expect := phi + crossStep n s })
      |> tideAccept n { phi := phi, tk := tk, interval := iv.map (fun v => v / k) }

/-- A miss (R107). -/
def tideMiss (n : Nat) (s : State) : State :=
  s |> onTide n (fun x => { x with
        skipped := true, expect := (if x.crossings != 0 then x.expect + crossStep n s else x.expect) })
    |> tideMissed n

/-- The position moves by one edge or step (R109, R111). -/
def moveP (n : Nat) (forward : Bool) (s : State) : State :=
  let sc := tideScale n s
  onTide n (fun x => { x with
    p := if forward then (x.p + 1) % sc else (x.p + sc - 1) % sc, hadEdge := true, edgeNs := nowNs s }) s

/-- The reference angle of the position (Table TIDE-3). -/
def phiP (n : Nat) (s : State) : Word :=
  toW ((tide n s).p * 2 ^ 32 / tideScale n s) + tideOffset n s

/-- The first Z sets P and TURN to 0, and the tracker jumps (R115). -/
def indexSet (n : Nat) (s : State) : State :=
  s |> onTide n (fun x => placeAt (BitVec.ofNat 64 ((tideOffset n s).toNat * 2 ^ 32)) { x with
        p := 0, indexSeen := true, edgeNs := nowNs s })
    |> tideEvent Fld.TIDE_EVENT_JUMP n Code.TIDE_JUMP

/-- A rising Z edge (R115). -/
def indexPulse (n : Nat) (s : State) : State :=
  let m := fld (Fld.TDn_CFG_INDEX_MODE n) s
  let x := tide n s
  if m = 0 then s
  else if !x.indexSeen then indexSet n s
  else if m = 1 then s
  else if x.p = 0 ∨ x.p = 1 ∨ x.p + 1 = tideScale n s then setFlag (Fld.TDn_STATUS_INDEX_ERR n) false s
  else s |> setFlag (Fld.TDn_STATUS_INDEX_ERR n) true |> onTide n (fun x => { x with reject := true })
    |> say Code.TIDE_INDEX_ERROR

/-- The phase error of an interval without an edge: 0 within one edge of phi, otherwise the signed distance
back to the nearer edge of that band (R114). -/
def bandError (n : Nat) (s : State) : Int :=
  let w : Int := ((2 ^ 32 / tideScale n s : Nat) : Int)
  let d := angleDiff (tideAngle n s) (phiP n s)
  if d.natAbs ≤ w.natAbs then 0 else if 0 < d then w - d else - w - d

/-- The reference angle of network time (Table TIDE-3). -/
def phiNet (n : Nat) (s : State) : Word :=
  toW ((moduleNs s).toNat % tideScale n s * 2 ^ 32 / tideScale n s) + tideOffset n s

/-- The end of a 1 µs interval (R113, R114, R117). -/
def tideMeasure (n : Nat) (s : State) : State :=
  let x := tide n s
  if !tideRuns n s then s
  else if tideSource n s = 4 then
    tideAccept n { phi := phiNet n s, tk := nowNs s } (tideNetCheck n s)
  else if !tidePaired n s then s
  else if !tiLive s || tideLineFault n s then onTide n (fun x => { x with reject := false, hadEdge := false }) s
  else if x.reject then
    s |> setFlag (Fld.TDn_STATUS_REF_OK n) false |> onTide n (fun x => { x with reject := false, hadEdge := false }) |> tideMissed n
  else
    let p : TidePend := if x.hadEdge then { phi := phiP n s, tk := x.edgeNs }
      else { phi := phiP n s, tk := nowNs s, err := some (bandError n s) }
    s |> setFlag (Fld.TDn_STATUS_QUAD_ERR n) false |> onTide n (fun x => { x with hadEdge := false }) |> tideAccept n p

/-- Record the frequency of an accepted measurement (R124). -/
def pushOmega (x : Tide) : Tide := { x with hist := (x.omega :: x.hist).take 8 }

/-- The proportional and integral correction (R120). -/
def piStep (n : Nat) (e : Int) (x : Tide) (s : State) : Tide :=
  let kp := fld (Fld.TDn_CFG_KP_SHIFT n) s
  let ki := fld (Fld.TDn_CFG_KI_SHIFT n) s
  { x with
    pos := x.pos + BitVec.ofInt 96 (e * 2 ^ (32 - kp))
    omega := omegaClamp (tideSource n s) (x.omega + (if ki ≤ 32 then e * 2 ^ (32 - ki) else e / 2 ^ (ki - 32))) }

/-- The frequency that a crossing interval gives (R122). -/
def omegaOfInterval (n iv : Nat) (s : State) : Int :=
  roundAway (((if flag (Fld.TDn_CFG_MEAS_EDGES n) s then 2 ^ 63 else 2 ^ 64) * 8 : Nat) : Int) (max 1 iv)

/-- The tracker's update from an accepted measurement (R120, R122, R118, R125, Table TIDE-5). -/
def trackerUpdate (n : Nat) (s : State) : State :=
  let x := tide n s
  match x.pend with
  | none => s
  | some p =>
    if !tideRuns n s then s
    else
      let tk := thetaAt p.tk x s
      let e := match p.err with | some e => e | none => angleDiff p.phi (thetaAngle tk)
      let place : BitVec 64 := BitVec.ofNat 64 (p.phi.toNat * 2 ^ 32)
        + BitVec.ofInt 64 (Int.tdiv (x.omega * ((nowNs s : Int) - p.tk)) 8)
      let slew := fld (Fld.TDn_WINDOWS_SLEW_WIN n) s * 2 ^ 20
      let lockWin := fld (Fld.TDn_WINDOWS_LOCK_WIN n) s * 2 ^ 16
      let count := fld (Fld.TDn_WINDOWS_LOCK_COUNT n) s
      let held := flag (Fld.TDn_STATUS_RELOCK_HELD n) s
      let jumpMode := !flag (Fld.TDn_CFG_RELOCK_MODE n) s
      let s := s |> wr (Reg.TDn_PHASE_ERR n) (BitVec.ofInt 32 e) |> onTide n (fun x => { x with pend := none })
      let big := decide (slew < e.natAbs)
      let pi := onTide n (fun y => pushOmega (match p.interval with
        | some iv => if tideSource n s = 1 && x.crossings == 2 then
            { piStep n e y s with omega := omegaClamp 1 (omegaOfInterval n iv s) } else piStep n e y s
        | none => piStep n e y s))
      let jump := fun t => t |> onTide n (fun x => pushOmega (jumpTo place x)) |> tideEvent Fld.TIDE_EVENT_JUMP n Code.TIDE_JUMP
      let hold := fun t => if held then t
        else t |> setFlag (Fld.TDn_STATUS_RELOCK_HELD n) true |> say Code.TIDE_RELOCK_HELD
      if x.fresh then
        s |> onTide n (fun x => pushOmega (placeAt place { x with fresh := false, resync := false }))
          |> onlyIf x.resync (tideEvent Fld.TIDE_EVENT_JUMP n Code.TIDE_JUMP) |> onlyIf (x.resync && held) (tideLock n)
      else match x.st with
        | .holdover | .lost =>
          if tideSource n s = 4 then
            let t := if !big then pi s else if jumpMode then jump s else hold (onTide n pushOmega s)
            let t := onTide n (fun x => { x with relockCnt := if big || !disciplined s then 0 else x.relockCnt + 1 }) t
            if count ≤ (tide n t).relockCnt then tideLock n t else t
          else
            let t := onTide n (fun x => { x with relockCnt := x.relockCnt + 1 }) s
            if (tide n t).relockCnt < count || held then onTide n pushOmega t
            else if !big then tideLock n (pi t)
            else if jumpMode then tideLock n (jump t)
            else hold (onTide n pushOmega t)
        | .acquire =>
          let t := onTide n (fun x => { x with lockCnt := if e.natAbs ≤ lockWin then x.lockCnt + 1 else 0 }) (pi s)
          if count ≤ (tide n t).lockCnt then tideLock n t else t
        | .locked =>
          let t := onTide n (fun x => { x with unlockCnt := if big then x.unlockCnt + 1 else 0 }) (pi s)
          if count ≤ (tide n t).unlockCnt then
            t |> onTide n (fun x => { x with st := .acquire, lockCnt := 0, unlockCnt := 0 }) |> say Code.TIDE_UNLOCK
          else t
        | _ => s

/-- HOLD_LIMIT expires; on a tie the measurement wins (R127). -/
def tideLost (n : Nat) (tie : Bool) (s : State) : State :=
  if (tide n s).st != .holdover then s
  else if tie then bump Fld.TIDE_CLOSE_CALL_COUNT s
  else s |> onTide n (fun x => { x with st := .lost }) |> tideEvent Fld.TIDE_EVENT_LOST n Code.TIDE_LOST

/-- A line fault begins or ends on line `input`, or its Z (R116). -/
def lineFault (input : Nat) (z present : Bool) (s : State) : State :=
  let k := input * 2 + z.toNat
  let t := { s with tiFault := if present then (if s.tiFault.contains k then s.tiFault else k :: s.tiFault)
      else s.tiFault.filter (· != k) }
  forAll ((List.range 8).filter (fun n => tideRuns n s && tidePaired n s)) (fun n u =>
    let u := setFlag (Fld.TDn_STATUS_LINE_FAULT n) (tideLineFault n u) u
    if tideLineFault n u && !tideLineFault n s then u |> say Code.TIDE_LINE_FAULT |> tideHold false n else u) t

/-- Every tide on TI inputs enters HOLDOVER: they do not deliver (R129, Tables TIDE-7 and ARCH-4). -/
def tidesHold (s : State) : State :=
  forAll ((List.range 8).filter (fun n => inRange (tideSource n s) 1 3)) (tideHold false) s

/-- The TI front-end reference check fails (R129, Table TIDE-7). -/
def tiBankFault (s : State) : State :=
  s |> setFlag Fld.SUP_REGIONS_TI_BANK true |> say Code.TIDE_BANK_FAULT |> tidesHold

/-- One CD_FABRIC cycle of a tracker (R120). -/
def tideAdvance (x : Tide) : Tide :=
  match x.st with
  | .disabled | .fault => x
  | _ => { x with pos := x.pos + BitVec.ofInt 96 x.omega }

/-- A tide state that a HOLD code allows (R175). -/
def tideAllows (hold : Nat) (st : TideState) : Bool :=
  match hold with
  | 0 => st == .locked
  | 1 => st == .locked || st == .holdover
  | 2 => st == .locked || st == .holdover || st == .lost || st == .acquire
  | _ => false

end Sys2Proof.Machine
end

