-- ==== Sys2Proof/Machine/NetOps.lean ====
section
/-! DEFINITION. Plant ports, the PTP servo, GOOSE, launch slots and the I/O ring (R506 to R544): the operations that
their commands, the tide table, the output commit and a takeover share. -/
namespace Sys2Proof.Machine

/-! ### Ports -/

/-- The Link region serves its networks (Table ARCH-4). -/
def netUp (s : State) : Bool := regionsUp s && !s.sup.queFault && !s.sup.clockFailed.contains .net

/-- Fields of a port in NET_PORT_STATUS (Table NET-10): 0 NP0, 1 NP1, 2 IR0, 3 IR1. -/
def portLink (p : Nat) : RegField := ⟨Reg.NET_PORT_STATUS, 8 * p, 1⟩
def portSfp (p : Nat) : RegField := ⟨Reg.NET_PORT_STATUS, 8 * p + 1, 1⟩
def portIso (p : Nat) : RegField := ⟨Reg.NET_PORT_STATUS, 8 * p + 2, 1⟩

/-- A port is enabled and not isolated. -/
def portOn (p : Nat) (s : State) : Bool := bitAt Reg.NET_CTRL p s && !flag (portIso p) s

/-- A port can send and receive. -/
def portUp (p : Nat) (s : State) : Bool := netUp s && portOn p s && flag (portLink p) s

/-- The plant ports send every frame twice (R508, R509). -/
def redundant (s : State) : Bool := inRange (fld Fld.NET_CTRL_REDUN s) 1 2
def hsr (s : State) : Bool := fld Fld.NET_CTRL_REDUN s == 2

/-- The side that uses the service addresses: the active side or a lone module (R511). -/
def serving (s : State) : Bool := pairState s == 1 || pairState s == 5

/-- Report a NET status with its event bit. -/
def netSay (f : RegField) (st : Status) (s : State) : State := s |> raiseF 0x0C f |> say st

/-- A division rounded down, or up where it is inexact and a free value says so. -/
def freeDiv (num : Int) (den : Nat) (s : State) : Int :=
  num / (den : Int) + (if num % (den : Int) = 0 then 0 else (Config.roundUp s.freeCtr num.natAbs).toNat)

/-! ### PTP (R514 to R523) -/

def onPtp (f : Ptp → Ptp) (s : State) : State := { s with net := { s.net with ptp := f s.net.ptp } }

/-- One plant port's PTP state: `b` is NP1. -/
def ptpPort (b : Bool) (s : State) : PtpPort := if b then s.net.ptp.port1 else s.net.ptp.port0
def onPtpPort (b : Bool) (f : PtpPort → PtpPort) (s : State) : State :=
  onPtp (fun p => if b then { p with port1 := f p.port1 } else { p with port0 := f p.port0 }) s

def servo (s : State) : Nat := fld Fld.PTP_STATE_SERVO s

/-- The servo changes state (Table NET-2); leaving LOCKED, module time is no longer disciplined (R519, R118). -/
def servoTo (n : Nat) (s : State) : State :=
  if servo s = n then s
  else
    s |> setFld Fld.PTP_STATE_SERVO n |> setFlag Fld.PTP_STATE_DISCIPLINED (n == 2) |> raiseF 0x0C Fld.NET_EVENT_PTP_STATE
      |> onlyIf (n == 1 && servo s == 2) (say Code.NET_PTP_UNLOCKED)
      |> onlyIf (n == 2) (say Code.NET_PTP_LOCKED)
      |> onlyIf (n == 3) (fun t => t |> say Code.NET_PTP_HOLDOVER
          |> onPtp (fun p => { p with slew := 0, slewLeft := 0, near := 0, far := 0 }))
      |> onlyIf (servo s == 2) tidesNetCheck

/-- A signed value saturated to 32 bits. -/
def sat32 (o : Int) : Word := BitVec.ofInt 32 (max (-(2 ^ 31)) (min (2 ^ 31 - 1) o))

/-- Limits of y and of y with the slew, in 2^-32 ns per cycle (R514): 200 ppm and 400 ppm of 8 ns. -/
def yLimit : Int := 6871947
def slewLimit : Int := 13743895

def servoY (s : State) : Int := (rd Reg.PTP_FREQ s).toInt

/-- Module time advances by one CD_NET cycle (R514). -/
def mtimeAdvance (s : State) : State :=
  let p := s.net.ptp
  let rate := max (-slewLimit) (min slewLimit (servoY s + (if p.slewLeft = 0 then 0 else p.slew)))
  { s with
    mtime := (((s.mtime : Int) + 8 * 2 ^ 32 + rate).toNat) % 2 ^ 96
    net := { s.net with ptp := { p with slewLeft := p.slewLeft - 1 } } }

/-- Module time is stepped by an offset (R518). -/
def ptpStep (o : Int) (s : State) : State :=
  { s with mtime := (((s.mtime : Int) - o * 2 ^ 32) % 2 ^ 96).toNat }
    |> onPtp (fun p => { p with stepAccepted := false, refused := 0, near := 0, far := 0 })
    |> setFlag Fld.PTP_STATE_REFUSING false |> say Code.NET_PTP_STEPPED |> servoTo 1

/-- An offset above JUMP_NS is refused; the fourth in a row ends in HOLDOVER (R518). It lies above 1,000 ns, so it counts
towards the four of Table NET-2 that end LOCKED. -/
def ptpRefuse (o : Int) (s : State) : State :=
  let s := s |> onPtp (fun p => { p with refused := p.refused + 1, near := 0, far := p.far + 1 })
    |> wr Reg.PTP_PENDING_STEP (sat32 o) |> setFlag Fld.PTP_STATE_REFUSING true |> bump Fld.PTP_COUNTS_REFUSED
    |> netSay Fld.NET_EVENT_PTP_JUMP Code.NET_PTP_JUMP_REFUSED
  if 4 ≤ s.net.ptp.refused then servoTo 3 s else if servo s = 2 && 4 ≤ s.net.ptp.far then servoTo 1 s else s

/-- The servo takes an offset in ns (R517 to R519). The Sync interval is 1 s (R516); the rounding of y and of the slew
per cycle is free. -/
def servoOffset (o : Int) (s : State) : State :=
  let p := s.net.ptp
  let first := !p.judged
  let s := s |> wr Reg.PTP_OFFSET (sat32 o) |> onPtp (fun p => { p with judged := true })
  if (rd Reg.PTP_JUMP s).toNat < o.natAbs then
    if (servo s == 0 && first && flag Fld.PTP_CFG_STEP_AT_START s) || p.stepAccepted then ptpStep o s else ptpRefuse o s
  else
    let y := freeDiv (servoY s * (1000000000 * 2 ^ fld Fld.PTP_CFG_KI s) - o * 2 ^ 35) (1000000000 * 2 ^ fld Fld.PTP_CFG_KI s) s
    let sl := freeDiv (-o * 2 ^ 32) (125000000 * 2 ^ fld Fld.PTP_CFG_KP s) s
    let s := s |> wr Reg.PTP_FREQ (BitVec.ofInt 32 (max (-yLimit) (min yLimit y)))
      |> onPtp (fun p => { p with
          slew := sl, slewLeft := 125000000, refused := 0
          near := if o.natAbs ≤ 100 then p.near + 1 else 0
          far := if 1000 < o.natAbs then p.far + 1 else 0 })
    let s := onlyIf (servo s == 0 || servo s == 3) (servoTo 1) s
    if servo s = 1 && 4 ≤ s.net.ptp.near then servoTo 2 (onPtp (fun p => { p with far := 0 }) s)
    else if servo s = 2 && 4 ≤ s.net.ptp.far then servoTo 1 (onPtp (fun p => { p with near := 0 }) s)
    else s

/-- Mean link delay of a port in ns (R517): none before its first measurement; rounding is free. -/
def linkDelay (b : Bool) (s : State) : Int :=
  let l := (ptpPort b s).delays
  if l.isEmpty then 0 else freeDiv (l.foldl (· + ·) 0) (2 * l.length) s

/-- A port's link-delay measurement: the round trip less the turnaround (R517). -/
def linkMeasure (b : Bool) (x : Int) (s : State) : State :=
  let s := onPtpPort b (fun p => { p with delays := (x :: p.delays).take 8, reqAt := none, resp := none }) s
  setFld (if b then Fld.PTP_LINK_DELAY_NP1 else Fld.PTP_LINK_DELAY_NP0) (min (linkDelay b s).toNat 0xFFFF) s

/-- The source port is NP1. -/
def srcPort (s : State) : Bool := flag Fld.PTP_STATE_SRC_PORT s

/-- The PTP states of the plant ports, in the coding of IEEE 1588 (Table NET-11). -/
def ptpPorts (s : State) : State :=
  let code := fun (b : Bool) =>
    if !bitAt Reg.NET_CTRL b.toNat s then 3 else if flag (portIso b.toNat) s then 2
    else if flag Fld.PTP_STATE_MASTER s then 6
    else if !s.net.ptp.master then 4
    else if b == srcPort s then 9 else if redundant s then 7 else 4
  s |> setFld Fld.PTP_STATE_PORT0 (code false) |> setFld Fld.PTP_STATE_PORT1 (code true)

/-- A port measures an offset: t2 less t1 less the correction less the link delay; the servo acts on the source
port's (R517, R520). -/
def ptpMeasure (b : Bool) (x : Int) (s : State) : State :=
  let o := x - linkDelay b s
  let s := onPtpPort b (fun p => { p with offset := some o, sync := none }) s
  if b == srcPort s then servoOffset o s else s

/-- The identity of the selected master (R521). -/
def ptpMaster (gm : DWord) (s : State) : State :=
  let change := s.net.ptp.known && rd64 Reg.PTP_GM_LO s != gm
  s |> wr64 Reg.PTP_GM_LO gm |> onPtp (fun p => { p with known := true, master := true })
    |> setFlag Fld.PTP_STATE_MASTER false
    |> onlyIf change (fun t => t |> bump Fld.PTP_COUNTS_MASTER_CHANGES
        |> netSay Fld.NET_EVENT_PTP_MASTER Code.NET_PTP_MASTER_CHANGE)

/-- The other port becomes the source (R520). -/
def ptpSwitch (s : State) : State :=
  let apart := match s.net.ptp.port0.offset, s.net.ptp.port1.offset with
    | some a, some b => decide (250 < (a - b).natAbs)
    | _, _ => false
  s |> setFlag Fld.PTP_STATE_SRC_PORT (!srcPort s) |> netSay Fld.NET_EVENT_PTP_MASTER Code.NET_PTP_PORT_SWITCH
    |> onlyIf apart (fun t => t |> bump Fld.PTP_COUNTS_MASTER_CHANGES
        |> netSay Fld.NET_EVENT_PTP_MASTER Code.NET_PTP_MASTER_CHANGE)
    |> ptpPorts

/-- The module is the grandmaster (R522): the algorithm has selected it, and it is not on a standby side. The register
file keeps the selection. -/
def ptpGrand (s : State) : Bool := flag Fld.PTP_STATE_MASTER s && serving s

/-- The best-master algorithm selects the module (R522). -/
def ptpSelf (s : State) : State :=
  let ok := flag Fld.PTP_CFG_MASTER_OK s
  s |> onPtp (fun p => { p with master := false }) |> setFlag Fld.PTP_STATE_MASTER ok
    |> onlyIf (ok && serving s && !flag Fld.PTP_STATE_MASTER s) (say Code.NET_PTP_GRANDMASTER) |> ptpPorts

/-! ### GOOSE (R524 to R529) -/

def gse (k : Nat) (s : State) : Gse := Sparse.get (fun _ => {}) s.net.gse k
def onGse (k : Nat) (f : Gse → Gse) (s : State) : State :=
  { s with net := { s.net with gse := Sparse.set (fun _ => {}) s.net.gse k (f (gse k s)) } }

/-- Bits `hi` to `lo` of a descriptor word. -/
def gseBits (d : List Word) (w hi lo : Nat) : Nat := (d.getD w 0).toNat / 2 ^ lo % 2 ^ (hi + 1 - lo)

def gseEn (x : Gse) : Bool := gseBits x.desc 0 31 31 == 1

/-- The image data area in DRAM (Table MEM-2). -/
def dataBase (s : State) : Nat := if s.exe.area then 0x06000000 else 0x02000000

/-- The member map: type and tag of each member (Table NET-4). -/
def gseMap (d : List Word) (s : State) : List (Nat × Nat) :=
  (List.range (gseBits d 5 7 0)).map (fun i =>
    let w := mgetN (dataBase s + 16 * gseBits d 5 31 8 + 4 * i) 4 s
    (w / 2 ^ 28, w % 65536))

/-- The tag type of a member type (Table NET-4). -/
def gseType (m : Nat) : Nat :=
  match m with
  | 1 => 1
  | 2 => 3
  | 3 => 5
  | 4 => 2
  | 5 => 9
  | 6 => 7
  | _ => 0

/-- Module time in ns of a UtcTime with the seconds in bits 63:32 and the fraction below (R525); the rounding of the
fraction is free. -/
def utcToTime (v : DWord) (s : State) : DWord :=
  let sec := (v.toNat / 2 ^ 32 : Int) - 946684800 + fld Fld.PTP_UTC_OFFSET_S s
  BitVec.ofInt 64 (sec * 1000000000 + freeDiv (v.toNat % 2 ^ 32 * 1000000000) (2 ^ 32) s)

/-- The inverse (R525). -/
def timeToUtc (v : DWord) (s : State) : DWord :=
  let sec : Int := v.toInt / 1000000000 + 946684800 - fld Fld.PTP_UTC_OFFSET_S s
  BitVec.ofInt 64 (sec * 2 ^ 32 + min (2 ^ 32 - 1) (freeDiv (v.toInt % 1000000000 * 2 ^ 32) 1000000000 s))

/-- Send a publication's message (R526): with the interval to its next repetition, from the service address. -/
def gooseSend (k : Nat) (s : State) : State :=
  let x := gse k s
  let vals := ((gseMap x.desc s).zip x.last).map (fun e => if e.1.1 = 6 then timeToUtc e.2 s else e.2)
  onlyIf (serving s && netUp s) (sendOut (.goose k x.stNum x.sqNum (2 * x.interval) vals)) s

/-- A publication starts a new state with these values (R526). -/
def gooseStart (k : Nat) (vals : List DWord) (s : State) : State :=
  gooseSend k (onGse k (fun x => { x with
    stNum := x.stNum + 1, sqNum := 0, live := true, last := vals, interval := gseBits x.desc 3 31 16 }) s)

/-- A publication samples its member tags (R526). -/
def gooseSample (k : Nat) (s : State) : State :=
  let x := gse k s
  let vals := (gseMap x.desc s).map (fun e => (tagNow e.2 s).val)
  if x.live && x.last == vals then s else gooseStart k vals s

/-- An output commit of a task (R526). -/
def gooseCommit (t : Nat) (s : State) : State :=
  forAll ((List.range 16).filter (fun k => gseEn (gse k s) && gseBits (gse k s).desc 0 29 27 == t)) gooseSample s

/-- A side that becomes active starts a new state of each publication (R526). -/
def gooseActive (s : State) : State :=
  forAll ((List.range 16).filter (fun k => gseEn (gse k s) && (gse k s).live)) (fun k t => gooseStart k (gse k t).last t) s

/-- The valid bit of subscription 16 + j. -/
def gseValid (j : Nat) : RegField := ⟨if j < 32 then Reg.GSE_VALID_LO else Reg.GSE_VALID_HI, j % 32, 1⟩

/-- STALE on the member tags of a subscription (R528). -/
def gseStale (k : Nat) (b : Bool) (s : State) : State :=
  forAll (gseMap (gse k s).desc s) (fun e t => setTagFlags e.2 b (tagFlags e.2 t).invalid t) s

/-- Values reach the member tags (R527, Table NET-4). -/
def gseDeliver (k : Nat) (vals : List DWord) (s : State) : State :=
  gseStale k false (forAll ((gseMap (gse k s).desc s).zip vals) (fun e t =>
    tagStore e.1.2 (if e.1.1 = 6 then utcToTime e.2 t else if e.1.1 = 1 then e.2 &&& 1 else
      if e.1.1 = 4 then e.2 &&& 0xFFFF else e.2 &&& 0xFFFFFFFF) t) s)

/-- An entry is disabled (R524). -/
def gseOff (k : Nat) (s : State) : State :=
  s |> onGse k (fun x => { desc := x.desc.mapIdx (fun i w => if i = 0 then w &&& 0x7FFFFFFF else w) })
    |> onlyIf (decide (16 ≤ k)) (setFlag (gseValid (k - 16)) false)

/-- The member tags of a subscription meet R529. -/
def gseTagsOk (d : List Word) (s : State) : Bool :=
  (gseMap d s).all (fun e => (tagDef e.2 s).any (fun t => t.locKind == 0 && t.typ == gseType e.1 && t.writerKind == 0)
    && (((s.exe.image.map (·.tasks)).getD []).filter (fun x => x.2.kind != 0 && x.2.inputs.any (fun g => g.toNat == e.2))).length == 1)

/-- R529: at an image swap a subscription that breaks the rule is refused again, and so is off. DEDUCED: log entry 36. -/
def gseSwapCheck (s : State) : State :=
  forAll ((List.range 64).filter (fun j => gseEn (gse (16 + j) s) && !gseTagsOk (gse (16 + j) s).desc s)) (fun j t =>
    netSay Fld.NET_EVENT_GSE_CFG Code.NET_CFG_BAD (gseOff (16 + j) t)) s

/-! ### Launch slots (R530 to R533) -/

def launch (n : Nat) (s : State) : Launch := Sparse.get (fun _ => {}) s.net.launch n
def onLaunch (n : Nat) (f : Launch → Launch) (s : State) : State :=
  { s with net := { s.net with launch := Sparse.set (fun _ => {}) s.net.launch n (f (launch n s)) } }

/-- The tide table arms the launching entry: descriptor and frame are copied (R531, R533). -/
def launchArm (n : Nat) (s : State) : State :=
  let x := launch n s
  let frame := mgetBytes (dataBase s + x.w1.toNat) (x.w0.toNat / 2 ^ 11 % 2 ^ 11) s
  onLaunch n (fun x => { x with
    armed := some (x.w0, frame), cancelled := !x.w0.getLsbD 31, guard := x.w0.toNat / 2 ^ 24 % 16 != 0 }) s

/-- The launching entry fires (R531 to R533); a standby side launches nothing (R161). -/
def launchFire (n : Nat) (s : State) : State :=
  let s := if (launch n s).armed.isNone then launchArm n s else s
  let x := launch n s
  let s := onLaunch n (fun x => { x with armed := none, cancelled := false, guard := false }) s
  if onStandby s then s
  else if x.cancelled then s |> raiseF 0x0C Fld.NET_EVENT_LAUNCH |> sayD Code.NET_LAUNCH_DISABLED (toD n)
  else if x.waiting.isSome then s |> bump Fld.LNCH_COUNTS_MERGED |> netSay Fld.NET_EVENT_LAUNCH Code.NET_LAUNCH_MERGED
  else onLaunch n (fun y => { y with waiting := x.armed }) s

/-! ### The I/O ring (R534 to R541) -/

def ringStn (n : Nat) (s : State) : RingStn := Sparse.get (fun _ => {}) s.net.ring.stn n
def onRingStn (n : Nat) (f : RingStn → RingStn) (s : State) : State :=
  { s with net := { s.net with ring := { s.net.ring with stn := Sparse.set (fun _ => {}) s.net.ring.stn n (f (ringStn n s)) } } }
def station (n : Nat) (s : State) : Station := Sparse.get (fun _ => {}) s.exe.stations n
def onStation (n : Nat) (f : Station → Station) (s : State) : State :=
  { s with exe := { s.exe with stations := Sparse.set (fun _ => {}) s.exe.stations n (f (station n s)) } }

/-- This side is ring master (R534, R540). -/
def ringMaster (s : State) : Bool :=
  serving s && flag Fld.RING_CTRL_RUN s && s.net.ring.waitOver && netUp s

/-- The stations of a task (R194). -/
def taskStations (t : Nat) (s : State) : List (Nat × StationDef) :=
  ((s.exe.image.map (·.stations)).getD []).filter (fun e => e.2.task == t)

/-- A new ring master starts each counter half way round (R540). -/
def ringRestart (s : State) : State :=
  forAll (s.net.ring.stn.map (·.1)) (fun n => onRingStn n (fun x => { x with tid := (x.tid + 32768) % 65536, closed := true })) s

/-- The next TID of a station: past 0 and past those issued within 2 s, with the count of those skipped (R540). -/
def tidNext : Nat → Nat → List Nat → Nat × Nat
  | 0, last, _ => (last % 65535 + 1, 0)
  | n + 1, last, used =>
    let t := last % 65535 + 1
    if used.contains t then let r := tidNext n t used; (r.1, r.2 + 1) else (t, 0)

/-- A side that becomes active takes the service addresses, the publications and the ring (R512, R526, R540). -/
def netActive (s : State) : State :=
  s |> onlyIf (netUp s) (sendOut (.arp (rd Reg.NET_SVC_IP s))) |> gooseActive |> ringRestart
    |> setFlag Fld.RING_STATE_PASS false |> onlyIf (flag Fld.PTP_STATE_MASTER s) (say Code.NET_PTP_GRANDMASTER)

/-- The EXE_STALE bit of a station. -/
def staleBit (n : Nat) : RegField := ⟨if n < 32 then Reg.EXE_STALE_LO else Reg.EXE_STALE_HI, n % 32, 1⟩

/-- CD_NET fails: the servo enters HOLDOVER, every station turns stale (Table NET-8), and so do the tags that
subscriptions last received (Table ARCH-4). -/
def netFail (s : State) : State :=
  let t := forAll ((List.range 64).filter (fun j => gseEn (gse (16 + j) s) && flag (gseValid j) s))
    (fun j => gseStale (16 + j) true) s
  servoTo 3 (forAll ((s.exe.image.map (·.stations)).getD []) (fun e t =>
    onlyIf (!(station e.1 t).stale) (raiseF 0x03 Fld.EXE_EVENT_STALE) t |> onStation e.1 (fun x => { x with stale := true })
      |> setFlag (staleBit e.1) true |> setFlag (Fld.STNs_STATUS_STALE e.1) true) t)

end Sys2Proof.Machine
end

