-- ==== Sys2Proof/Machine/SafOps.lean ====
section
/-! DEFINITION. The Safety region: permits and the evaluation of the safety outputs (R387, R388), their tests
(R399 to R404), safety connections (R417 to R437) and the region's fallback (R412). -/
namespace Sys2Proof.Machine

/-! ### Reports -/

/-- Report a status of the block (R415). -/
def safSay (st : Status) (s : State) : State := say st (setFld Fld.SAF_LAST_STATUS_STATUS st.toNat s)

/-- Set an event of the block. -/
def safEv (f : RegField) (s : State) : State := raiseF 0x09 f s

/-- A tie under R47. -/
def safTie (tie : Bool) (s : State) : State := onlyIf tie (bump Fld.SAF_CLOSE_CALL_COUNT) s

/-- SAF_STATE.STATE (Table SAF-6). -/
def safState (s : State) : Nat := fld Fld.SAF_STATE_STATE s
def safRuns (s : State) : Bool := regionsUp s && safState s == 1
/-- The region is past START and not in fallback. -/
def safUp (s : State) : Bool := regionsUp s && inRange (safState s) 1 3

/-! ### Safe inputs and connections -/

def conn (i : Nat) (s : State) : Conn := Sparse.get (fun _ => {}) s.saf.conns i
def onConn (i : Nat) (f : Conn → Conn) (s : State) : State :=
  { s with saf := { s.saf with conns := Sparse.set (fun _ => {}) s.saf.conns i (f (conn i s)) } }

/-- Safe inputs 0 to 31 (R421): a connection that delivers no values gives 0. -/
def safeInputs (s : State) : Word :=
  s.saf.conns.foldl (fun w e => if e.1 < 16 && e.2.live then w ||| (e.2.payload &&& e.2.entry.map) else w) 0

/-- A pair is healthy by the processor's contacts, and has no fault (R392, R396). -/
def pairHealthy (p : Nat) (s : State) : Bool :=
  let x := siPair p s
  x.kind == 0 && (match fld (Fld.SIp_CFG_MODE p) s with
    | 1 => x.a && x.b
    | 2 => x.a && !x.b
    | _ => false)

/-- The permit of an output (R387). -/
def sqPermit (n : Nat) (s : State) : Bool :=
  flag (Fld.SQn_CFG_USED n) s
  && (List.range 8).all (fun p => !(fld (Fld.SQn_CFG_SI_MASK n) s).testBit p || pairHealthy p s)
  && (rd (Reg.SQn_SAFE_MASK n) s &&& ~~~ safeInputs s) == 0
  && !s.saf.bankLow.contains (n / 2) && !s.saf.ebb && !s.sup.hardEbb && s.saf.auth && safRuns s

/-! ### Outputs -/

/-- A decision to de-energise: both switches open, and a test under way is discarded (R389, R401). -/
def sqCut (n : Nat) (s : State) : State :=
  let x := sq n s
  let t := onSq n (fun x => { x with hs := false, lsReq := false, lsTest := false, test := none, delayed := false }) s
  onlyIf x.test.isSome (fun t => t |> bump (Fld.SQn_COUNTS_DISCARDED n) |> safEv Fld.SAF_EVENT_TEST
    |> safSay Code.SAF_TEST_DISCARDED) t

/-- A decision to energise: both switches close, after the test pulse if one is under way (R389, R401). -/
def sqClose (n : Nat) (s : State) : State :=
  onSq n (fun x => if x.test.isSome then { x with st := .on, delayed := true }
    else { x with st := .on, hs := true, lsReq := true }) s

/-- An output enters FAULT (R400, R403). -/
def sqFault (n : Nat) (code : Fin 5) (st : Status) (s : State) : State :=
  s |> onSq n (fun x => { x with
        st := .fault
        fault := code
        leaving := none
        hs := false
        lsReq := false
        lsTest := false
        test := none
        delayed := false })
    |> safEv Fld.SAF_EVENT_FAULT |> safSay st

/-- R388 for one output: `req` is its REQ bit and `edge` its reset edge. -/
def sqEval (n : Nat) (req edge : Bool) (s : State) : State :=
  if !flag (Fld.SQn_CFG_USED n) s then s
  else
    let x := sq n s
    let permit := sqPermit n s
    let trip := fun (st : SqState) (t : State) =>
      t |> onSq n (fun x => { x with st := st }) |> safEv Fld.SAF_EVENT_TRIP |> safSay Code.SAF_TRIP
    match x.st with
    | .fault => onlyIf (edge && permit && x.leaving.isNone) (onSq n (fun x => { x with leaving := some (false, false) })) s
    | .on =>
      if !permit then trip (if flag (Fld.SQn_CFG_RESTART n) s then .tripped else .off) (sqCut n s)
      else if req then s
      else onSq n (fun x => { x with st := .off }) (sqCut n s)
    | .off =>
      if !permit then onlyIf (flag (Fld.SQn_CFG_RESTART n) s && req) (trip .tripped) s
      else onlyIf req (sqClose n) s
    | .tripped =>
      onlyIf (permit && edge) (fun t => safSay Code.SAF_RESET (onSq n (fun x => { x with st := .off }) t)) s

/-- REQ as R388 uses it (R386, R673). -/
def safReq (s : State) : Byte :=
  let req : Byte := if s.saf.timedOut then 0 else (rd Reg.SAF_SX_REQ_LO s).setWidth 8
  if frozen s then req &&& s.sup.heldReq else req

/-- Evaluate every output (R388). -/
def sqEvalAll (edges : Byte) (s : State) : State :=
  forAll (List.range 8) (fun n t => sqEval n ((safReq s).getLsbD n) (edges.getLsbD n) t) s

/-- The ebb signal of the supervisor core removes every permit at once (R24, R389, R414). -/
def safEbb (s : State) : State :=
  if s.saf.ebb then s
  else
    let t := { s with saf := { s.saf with ebb := true } }
    onlyIf (safUp t) (fun t => sqEvalAll 0 (safSay Code.SAF_EBB t)) t

/-- Switch tests are allowed (R407). -/
def mayTest (s : State) : Bool :=
  s.saf.auth || (authFree s && (fld Fld.PAIR_STATE_STATE s == 5 || !sideB s || !s.sup.peerPresent))

/-! ### Frames of safety connections -/

/-- The 12 or 16 bytes of a safety frame (Table FRAME-2); `kind` is 0 DATA, 1 ACK, 2 OPEN. -/
def safetyFrame (d : ConnDef) (epoch : Byte) (kind : Nat) (seq : BitVec 16) (payload : Word) : List Byte :=
  let b := leBytes 2 d.connId.toNat ++ [epoch] ++ leBytes 1 (kind * 64 + (if kind = 0 then 4 else 0))
    ++ leBytes 2 seq.toNat ++ leBytes 2 d.texp.toNat ++ (if kind = 0 then leBytes 4 payload.toNat else [])
  b ++ leBytes 4 (crc32c d.key b).toNat

/-- Bytes as 64-bit words, low byte first. -/
def dwords : Nat → List Byte → List DWord
  | 0, _ => []
  | n + 1, l => if l.isEmpty then [] else toD (leNat (l.take 8)) :: dwords n (l.drop 8)

/-- The side sends and judges safety frames (R436, R438). -/
def safTalks (s : State) : Bool := safUp s && s.saf.auth

/-- Hand a frame to the connection's carrier (R434). -/
def connSend (i : Nat) (bytes : List Byte) (s : State) : State :=
  let c := conn i s
  let t := onConn i (fun c => { c with tx := bytes }) s
  match c.entry.carrier with
  | .causeway => cwSend 11 (dwords 2 bytes) t
  | _ => sendOut (.safety i c.peer bytes) t

/-- The epoch after `e` (R422). -/
def nextEpoch (e : Byte) : Byte := if e = 255 then 1 else e + 1
/-- The sequence number after `q`. -/
def nextSeq (q : BitVec 16) : BitVec 16 := if q = 65535 then 1 else q + 1

/-- A consumer sends an OPEN of its epoch. -/
def connOpenSend (i : Nat) (s : State) : State :=
  let c := conn i s
  connSend i (safetyFrame c.entry c.epoch 2 0 0) s

/-- A consumer takes a new epoch and sends its first OPEN (R422); `mirrored` keeps the watchdog and the values (R437).
While the epochs are held after a loss of retention nothing is sent (R431). -/
def connOpen (i : Nat) (mirrored : Bool) (s : State) : State :=
  let keep := fun (c : Conn) => { c with st := .opening, said := false }
  if s.saf.epochHold then onConn i (fun c => { keep c with live := false, since := none }) s
  else
    s |> onConn i (fun c => { keep c with
          epoch := nextEpoch c.epoch
          live := mirrored && c.live
          since := if mirrored then c.since else some (nowNs s) })
      |> safSay Code.SAF_CONN_OPEN |> connOpenSend i

/-- A consumer connection fails (R426). -/
def connFail (i : Nat) (st : Status) (s : State) : State :=
  s |> safSay st |> onConn i (fun c => { c with live := false, corrupt := [] }) |> connOpen i false

def isConsumer (e : Nat × Conn) : Bool := decide (e.1 < 16)

/-- The connections as the region enters RUN (R422, R427), and on a gain of authority (R437). -/
def connStart (s : State) : State :=
  forAll s.saf.conns (fun e t =>
    let i := e.1
    let m := if t.saf.mirrorStale then none else e.2.mirror
    match m with
    | some m =>
      if m.run then
        let set := fun t => onConn i (fun c => { c with
          st := .run
          epoch := m.epoch
          seq := m.seq
          acked := m.acked
          payload := m.payload
          live := isConsumer e
          since := some m.since
          sample := !isConsumer e && !m.acked
          mirror := none }) t
        if isConsumer e then connOpen i true (set t) else set t
      else if isConsumer e then connOpen i false (onConn i (fun c => { c with epoch := m.epoch, mirror := none }) t)
      else onConn i (fun c => { c with st := .idle, mirror := none }) t
    | none => if isConsumer e then connOpen i false t else onConn i (fun c => { c with st := .idle, tx := [] }) t) s

/-- A payload bit of a producer (Table FRAME-3). -/
def payloadBit (code : Byte) (s : State) : Bool :=
  let c := code.toNat
  if inRange c 0x10 0x17 then pairHealthy (c - 0x10) s
  else if inRange c 0x20 0x27 then (sq (c - 0x20) s).st == .on
  else if inRange c 0x30 0x37 then sqPermit (c - 0x30) s
  else if inRange c 0x40 0x5F then (safeInputs s).getLsbD (c - 0x40)
  else false

/-- The payload a producer samples (R421). -/
def payloadOf (d : ConnDef) (s : State) : Word :=
  toW ((List.range 32).foldl (fun w i => w + (payloadBit (d.sel.getD i 0) s).toNat * 2 ^ i) 0)

/-- A producer at the start of a safety cycle (R428). -/
def producerCycle (i : Nat) (s : State) : State :=
  let c := conn i s
  if c.st != .run then s
  else
    let adv := c.acked && !c.sample
    let s := onlyIf (c.sample || c.acked) (onConn i (fun c => { c with
      seq := if adv then nextSeq c.seq else c.seq
      acked := false
      sample := false
      payload := payloadOf c.entry s
      since := if adv || c.since.isNone then some (nowNs s) else c.since })) s
    let c := conn i s
    connSend i (safetyFrame c.entry c.epoch 0 c.seq c.payload) s

/-- The mirrored items of a connection (R436). -/
def connItems (e : Nat × Conn) (s : State) : List DWord :=
  let c := e.2
  [toD (e.1 + (c.st == .run).toNat * 2 ^ 8 + c.acked.toNat * 2 ^ 9 + c.epoch.toNat * 2 ^ 16 + c.seq.toNat * 2 ^ 32),
   toD (c.payload.toNat + (nowNs s - c.since.getD (nowNs s)) / 1000 % 2 ^ 32 * 2 ^ 32)]

/-! ### The response word and the mirror record -/

def SqState.code : SqState → Nat
  | .off => 0
  | .on => 1
  | .tripped => 2
  | .fault => 3

/-- Eight bits from a predicate on 0 to 7. -/
def bits8 (f : Nat → Bool) : Nat := (List.range 8).foldl (fun w i => w + (f i).toNat * 2 ^ i) 0

/-- CERTIFIED (Table SAF-6): on the S4 and S8 variants. -/
def safCertified (s : State) : Bool :=
  Config.variant != 2 && flag Fld.SAF_STATE_CFG_OK s && !flag Fld.SAF_STATE_SPLIT_STRAP s

/-- The response word (Table SAF-2). -/
def safResponse (s : State) : DWord :=
  toD ((s.saf.lastSeq.getD 0).toNat * 2 ^ 56 + safState s * 2 ^ 52 + s.saf.auth.toNat * 2 ^ 51
    + (safCertified s).toNat * 2 ^ 50
    + bits8 (fun n => (sq n s).st == .tripped) * 2 ^ 40 + bits8 (fun n => sqPermit n s) * 2 ^ 32
    + bits8 (fun n => (sq n s).st == .fault) * 2 ^ 24 + bits8 (fun p => (siPair p s).kind == 0) * 2 ^ 16
    + bits8 (fun p => pairHealthy p s) * 2 ^ 8 + bits8 (fun n => sqEnergised n s))

/-- The SAFETY record of a cycle (R408, R436). -/
def safMirror (s : State) : State :=
  cwMirror 10 ([toD ((List.range 8).foldl (fun w n => w + (sq n s).st.code * 16 ^ n) 0), rd64 Reg.SAF_SX_REQ_LO s]
    ++ s.saf.conns.flatMap (fun e => connItems e s)) s

/-! ### Start and fallback of the region -/

/-- Stop the test-pulse sources. -/
def tpStop (s : State) : State := setFld Fld.SAF_TP_STATUS_RUN 0 { s with saf := { s.saf with pulsing := [] } }

/-- Start the test-pulse sources (R393). -/
def tpStart (s : State) : State := s |> setFld Fld.SAF_TP_STATUS_RUN 15 |> setFld Fld.SAF_TP_STATUS_LEVEL 15

/-- The region's own part of its fallback (R412). -/
def safFall (cause : Status) (s : State) : State :=
  let t := s |> setFld Fld.SAF_STATE_STATE 4 |> setFld Fld.SAF_STATE_CAUSE cause.toNat |> safEv Fld.SAF_EVENT_FALLBACK
  let t := forAll (List.range 8) (fun n t => onSq n (fun x => { x with
    st := if x.st == .on then .off else x.st
    hs := false
    lsReq := false
    lsTest := false
    test := none
    delayed := false
    leaving := none }) t) (setFld Fld.SAF_TP_STATUS_LEVEL 0 (tpStop t))
  forAll t.saf.conns (fun e t => onConn e.1 (fun c => { c with st := .idle, live := false, tx := [] }) t) t

/-- The region leaves START when its tests have passed (R413, R410, R406). -/
def safStart (s : State) : State :=
  if safState s != 0 || !flag Fld.SAF_STATE_CFG_OK s then s
  else if flag Fld.SAF_STATE_SPLIT_STRAP s then
    s |> setFld Fld.SAF_STATE_STATE 3 |> safSay Code.SAF_SPLIT |> onlyIf s.saf.auth (fun t => tpStart (connStart t))
  else if s.saf.auth then s |> setFld Fld.SAF_STATE_STATE 1 |> connStart |> tpStart
  else setFld Fld.SAF_STATE_STATE 2 s

end Sys2Proof.Machine
end

