-- ==== Sys2Proof/Machine/Region.lean ====
section
/-! DEFINITION. Region faults, bank isolations, clock failures and the module level (R28 to R41, R704). -/
namespace Sys2Proof.Machine

def regionCode : Region → Nat
  | .logic => 0
  | .loop => 1
  | .field => 2
  | .link => 3
  | .safety => 4
  | .backup => 5

/-- The module level acts (R37, R676): every output goes to ebb, the Safety region is signalled, AUTH is released. -/
def moduleFault (st : Status) (s : State) : State := moduleEbb st (safEbb s)

/-- Sequencers in RUN or HELD enter FAULT (Table TIDE-32). -/
def seqsFault (s : State) : State :=
  forAll (s.seqs.filter (fun e => e.2.st == .run || e.2.st == .held)) (fun e t =>
    let q := { e.2 with st := .fault, last := Code.SQ_FAULT.setWidth 8, cmds := [] }
    { t with seqs := Sparse.set (fun _ => {}) t.seqs e.1 q }
      |> raiseBit 0x04 ⟨Reg.SQ_FAULT_EV, 0, 32⟩ e.1 |> say Code.SQ_FAULT) s

/-- The triad's mode, with the cores that vote in it (Table TRIAD-6). -/
def triadMode (m : Nat) (s : State) : State :=
  let out := fld Fld.TRIAD_STATE_RETIRED s ||| fld Fld.TRIAD_STATE_FENCED s
  s |> setFld Fld.TRIAD_STATE_MODE m
    |> setFld Fld.TRIAD_STATE_VOTING (if inRange m 1 4 then 7 - out else 0)

/-- What a region does as it enters its fallback (Table ARCH-4); the rest follows from its bit in SUP_REGIONS. -/
def regionAction (r : Nat) (st : Status) (s : State) : State :=
  match r with
  | 0 => { triadMode 5 (setFld Fld.EXE_STATE_STATE 3 s) with exe := { s.exe with running := none } }
  | 1 => loopRegionFallback s
  | 2 => tidesHold (seqsFault (setFlag Fld.TT_CTRL_RUN false s))
  | 4 => safFall st s
  | 5 => { s with backup := { s.backup with regsValid := false } }
  | _ => s

/-- A region enters its fallback (R34) with the status of the fault; the Logic region, and the Field and Loop regions
together, climb to the module level (R36). -/
def enterFallback (r : Nat) (st : Status) (s : State) : State :=
  if inFallback r s then s
  else
    let t := markFallback r (regionAction r st s)
    if r = 0 || (inFallback 1 t && inFallback 2 t && (r == 1 || r == 2)) then moduleFault st t else t

/-- A Safety region fault (R411, R412). -/
def safFault (st : Status) (s : State) : State :=
  if inFallback 4 s || !regionsUp s then s else enterFallback 4 st (safSay st s)

/-- A bank of a region is isolated (R29, R33): a second one of the region within 1 s climbs. Banks of the Field
region are numbered 0 to 3 for DIO and 4 to 7 for analog. -/
def isolateBank (r b : Nat) (s : State) : State :=
  let near := s.sup.isolated.any (fun e => e.1 / 256 == r && e.1 != r * 256 + b && decide (nowNs s ≤ e.2 + 1000000000))
    || s.sup.lastIso.any (fun e => e.1 / 256 == r && e.1 != r * 256 + b && decide (nowNs s ≤ e.2 + 1000000000))
  let t := { s with sup := { s.sup with
    isolated := Sparse.insert s.sup.isolated (r * 256 + b) (nowNs s)
    lastIso := Sparse.insert s.sup.lastIso (r * 256 + b) (nowNs s) } }
  if near then enterFallback r (Code.REGION_BANKS r) (sayRegion (Code.REGION_BANKS r) t) else t

/-- A bank leaves isolation. -/
def unisolateBank (r b : Nat) (s : State) : State :=
  { s with sup := { s.sup with isolated := Sparse.erase s.sup.isolated (r * 256 + b) } }

/-- A queue-manager error stops every interface of the Link region (Tables NET-8, MEM-6). DEDUCED: log entry 36. -/
def queueFail (s : State) : State := netFail (canFail { s with sup := { s.sup with queFault := true } })

/-- R34: a region-level check fails, or a fault climbs to the region. -/
def execRegionFault (region : Region) (status : Status) (s : State) : Host.Outcome State Fault Refusal :=
  let r := regionCode region
  .next (if !alive s || (r != 5 && !regionsUp s) || inFallback r s then s
    else if r = 4 then safFault status s
    else enterFallback r status (sayRegion status (onlyIf (r == 3) queueFail s)))

/-- R36: a region has not entered its fallback within 1 ms. -/
def execRegionFallbackFail (region : Region) (s : State) : Host.Outcome State Fault Refusal :=
  .next (if !alive s then s
    else moduleFault (Code.REGION_FALLBACK_FAIL (regionCode region)) (sayRegion (Code.REGION_FALLBACK_FAIL (regionCode region)) s))

/-- The region that owns a clock domain (Table ARCH-1). -/
def domainRegion : ClockDomain → Nat
  | .triad => 0
  | .loop => 1
  | .fabric => 2
  | .net | .cause | .can | .host => 3
  | .safe => 4
  | .back => 5

/-- A plant or causeway path reaches the host (R36). -/
def hostPath (s : State) : Bool :=
  (!s.sup.clockFailed.contains .net && fld ⟨Reg.NET_PORT_STATUS, 0, 32⟩ s != 0)
  || flag Fld.PAIR_STATE_CW1_OK s || flag Fld.PAIR_STATE_CW2_OK s

/-- What a failed clock domain stops beside its region's fallback (Tables ARCH-4 and NET-8). -/
def linkStale (d : ClockDomain) (s : State) : State :=
  match d with
  | .net => netFail s
  | .can => canFail s
  | _ => s

/-- R41, R704: a domain fails its frequency monitor. CD_BACK has none (R585). -/
def execClockFailure (domain : ClockDomain) (s : State) : Host.Outcome State Fault Refusal :=
  let r := domainRegion domain
  let st := Code.REGION_CLOCK r
  .next (if !regionsUp s || domain == .back || s.sup.clockFailed.contains domain then s
    else
      let t := sayRegion st { s with sup := { s.sup with clockFailed := domain :: s.sup.clockFailed } }
      let t := if r = 4 then safFault st t else enterFallback r st (linkStale domain t)
      match domain with
      | .fabric => if flag Fld.SUP_PWR_STATE_MODULE_FAULT t then t else moduleFault st t
      | .host => if hostPath t then t else moduleFault st t
      | _ => t)

/-- R33: an isolation has not removed the fault within 1 ms. -/
def execBankIsolationTimeout (region : Region) (s : State) : Host.Outcome State Fault Refusal :=
  let r := regionCode region
  .next (if regionsUp s && s.sup.isolated.any (fun e => e.1 / 256 == r) && !inFallback r s then
      enterFallback r (Code.REGION_ISOLATE_FAIL r) (sayRegion (Code.REGION_ISOLATE_FAIL r) s)
    else s)

/-- R704: CD_FABRIC stops, and the supervisor core with it. -/
def execCdFabricStop (s : State) : Host.Outcome State Fault Refusal :=
  .next { s with sup := { s.sup with fabricStopped := true } }

/-- R39: the supervisor core toggles its liveness line. -/
def execLivenessToggle (s : State) : Host.Outcome State Fault Refusal :=
  .next (if alive s then { s with sup := { s.sup with liveness := !s.sup.liveness } } else s)

/-- R39, R414: no toggle for 5 ms; the hard-wired ebb line and AUTH release. A report needs CD_FABRIC. DEDUCED: log entry 30. -/
def execSafLiveness (tie : Bool) (s : State) : Host.Outcome State Fault Refusal :=
  .next (if s.sup.inReset || decide (power s < 2) then s
    else
      let t := pairTo 6 <| releaseAuth Code.SAF_LIVENESS { safTie tie s with sup := { s.sup with hardEbb := true } }
      let t := onlyIf (!t.sup.fabricStopped) (safSay Code.SAF_LIVENESS) t
      onlyIf (inRange (safState t) 1 3) (sqEvalAll 0) t)

end Sys2Proof.Machine
end

