-- ==== Sys2Proof/Machine/Dio.lean ====
section
/-! DEFINITION. Digital field I/O: the meanings of its events and commands (R310 to R332, R347). -/
namespace Sys2Proof.Machine

/-- RB_DELAY of a bank in ns (R320, Table DIO-9). -/
def rbDelay (k : Nat) (s : State) : Nat := 100000 * max 1 (fld (Fld.DIO_BANKk_CFG_RB_DELAY k) s)

/-- The side acts: it is the active side or in a lone slot (R320). -/
def actsActive (s : State) : Bool := fld Fld.PAIR_STATE_STATE s == 1 || fld Fld.PAIR_STATE_STATE s == 5

/-- The readback checks of a channel run (R320, R327): its bank has EN 1 and is not low, latched off or switched off. -/
def dioJudged (n : Nat) (s : State) : Bool :=
  let b := dioBank (n / 8) s
  regionsUp s && actsActive s && dioDir n s && flag (Fld.DIO_BANKk_CFG_EN (n / 8)) s && (b.st == .on || b.st == .isolated) && !b.low

/-- Declare a fault that marks the cell invalid. -/
def dioFault (code : Fin 9) (st : Status) (n : Nat) (s : State) : State :=
  s |> onDio n (fun c => { c with fault := code, mark := true }) |> raiseF 0x06 Fld.DIO_EVENT_CH_FAULT |> say st

/-- Y explains that X reads high (R321): Y is on and turned on within RB_DELAY before. -/
def dioFeeder (n : Nat) (s : State) : Option Nat :=
  (List.range 32).find? (fun y => y != n && dioDir y s && (dioCh y s).out
    && (dioCh y s).onAt.any (fun t => decide (nowNs s ≤ t + rbDelay (n / 8) s)))

/-- Y turned off within RB_DELAY before X reads low (R321). -/
def dioFed (n : Nat) (s : State) : Option Nat :=
  (List.range 32).find? (fun y => y != n && dioDir y s && !(dioCh y s).out
    && (dioCh y s).offAt.any (fun t => decide (nowNs s ≤ t + rbDelay (n / 8) s)))

def dioBackFed (n y : Nat) (s : State) : State :=
  dioFault 3 Code.DIO_BACK_FED n (onDio n (fun c => { c with source := y }) s)

/-- R321: what a new filtered value says of a channel commanded off. -/
def dioFeedCheck (n : Nat) (s : State) : State :=
  let c := dioCh n s
  if !dioJudged n s || c.arb then s
  else if c.filt then
    match dioFeeder n s with
    | some y => if c.fault = 0 then dioBackFed n y s else s
    | none => s
  else match dioFed n s with
    | some y => if c.fault = 1 then dioBackFed n y s else s
    | none => s

/-- A value passes to the filtered value (R313, R314); its edges are sources of event tasks on input channels. -/
def dioPass (n : Nat) (s : State) : State :=
  let c := dioCh n s
  if c.pin == c.filt then s
  else
    let t := onDio n (fun c => { c with filt := c.pin, roseAt := if c.pin then some (nowNs s) else c.roseAt }) s
    let t := if dioDir n s then t else signalSource (if c.pin then 1 else 2) n t
    dioFeedCheck n t

/-- R313: the synchronised value changes; with FILT 0 it is the filtered value at once. -/
def execDioPinChange (n : Fin 32) (level : Bool) (currentMa : BitVec 12) (s : State) : Host.Outcome State Fault Refusal :=
  .next (if !regionsUp s then s
    else
      let t := onDio n.val (fun c => { c with pin := level, current := currentMa.toNat }) s
      if fld (Fld.DIOn_CFG_FILT n.val) s = 0 then dioPass n.val t else t)

/-- R313: the value has been stable for the filter time. -/
def execDioFilterExpiry (n : Fin 32) (s : State) : Host.Outcome State Fault Refusal :=
  .next (if regionsUp s then dioPass n.val s else s)

/-- A bank is isolated (R28, R29, Table DIO-4). -/
def dioIsolate (k : Nat) (s : State) : State :=
  if (dioBank k s).st == .isolated then s
  else
    s |> onDioBank k (fun b => { b with st := .isolated, switch := false }) |> raiseF 0x06 Fld.DIO_EVENT_BANK_ISO
      |> say Code.DIO_BANK_ISOLATED |> isolateBank 2 k

/-- Apply a cell condition to the channels of a mask that meet it; two or more of one bank in one cycle isolate the
bank (R28). -/
def dioCells (chs : BitVec 32) (ok : Nat → Bool) (act : Nat → State → State) (s : State) : State :=
  let l := (List.range 32).filter (fun n => chs.getLsbD n && ok n)
  let t := forAll l act s
  forAll ((List.range 4).filter (fun k => decide (2 ≤ (l.filter (fun n => n / 8 == k)).length))) dioIsolate t

/-- A tie under R46 stops the declaration. -/
def dioTie (tie : Bool) (f : State → State) (s : State) : State :=
  if tie then bump Fld.DIO_CLOSE_CALL_COUNT s else f s

/-- R317: an output latches off. -/
def dioTrip (code : Fin 9) (st : Status) (n : Nat) (s : State) : State :=
  dioFault code st n (onDio n (fun c => { c with latched := true, tripNs := nowNs s }) s)

/-- An output whose switch may carry current. -/
def dioDrives (n : Nat) (s : State) : Bool := regionsUp s && dioDir n s && (dioCh n s).out && !(dioCh n s).latched

/-- R317: the current limit has been engaged for 100 µs. -/
def execDioShort (chs : BitVec 32) (tie : Bool) (s : State) : Host.Outcome State Fault Refusal :=
  .next (dioTie tie (dioCells chs (fun n => dioDrives n s) (dioTrip 5 Code.DIO_SHORT)) s)

/-- R317: the current has exceeded 0.6 A for 12 ms. -/
def execDioOverload (chs : BitVec 32) (tie : Bool) (s : State) : Host.Outcome State Fault Refusal :=
  .next (dioTie tie (dioCells chs (fun n => dioDrives n s) (dioTrip 6 Code.DIO_OVERLOAD)) s)

/-- R317: a switch has reached its shutdown temperature. -/
def execDioOvertemp (chs : BitVec 32) (s : State) : Host.Outcome State Fault Refusal :=
  .next (dioCells chs (fun n => regionsUp s && dioDir n s && !(dioCh n s).latched) (dioTrip 7 Code.DIO_OVERTEMP) s)

/-- R318: the host re-arms latched outputs. -/
def execDioRearm (mask : Word) (s : State) : Host.Outcome State Fault Refusal :=
  .next (hostCmd Reg.DIO_REARM (fun s =>
    forAll ((List.range 32).filter (fun n => mask.getLsbD n && (dioCh n s).latched)) dioRearm s) s)

/-- A bank switches off (R323, R331). -/
def dioSwitchOff (k : Nat) (s : State) : State :=
  if (dioBank k s).st != .on then s
  else
    s |> onDioBank k (fun b => { b with st := .switchedOff, switch := false }) |> raiseF 0x06 Fld.DIO_EVENT_BANK_OFF
      |> bump (Fld.DIO_BANKk_COUNTS_OFF k) |> say Code.DIO_BANK_SWITCHOFF

/-- A channel is declared stuck-on (R320, R324), and its bank switched off with STUCK_ACTION 1 (R323). -/
def dioStuckOn (n : Nat) (s : State) : State :=
  s |> dioFault 1 Code.DIO_STUCK_ON n |> onlyIf (flag (Fld.DIO_BANKk_CFG_STUCK_ACTION (n / 8)) s) (dioSwitchOff (n / 8))

/-- The stuck-on condition of a channel. -/
def dioStuckCond (n : Nat) (s : State) : Bool :=
  let c := dioCh n s
  (c.fault == 0 || c.fault == 8) && ((dioJudged n s && !c.arb && c.filt)
    || (regionsUp s && onStandby s && dioDir n s && !c.out && decide (10 ≤ c.current)))

/-- R320, R323, R324. -/
def execDioStuckOn (chs : BitVec 32) (tie : Bool) (s : State) : Host.Outcome State Fault Refusal :=
  .next (dioTie tie (dioCells chs (fun n => dioStuckCond n s) dioStuckOn) s)

/-- R323: the pin still reads high RB_DELAY after the bank switch opened. -/
def execDioStuckExternal (n : Fin 32) (s : State) : Host.Outcome State Fault Refusal :=
  let c := dioCh n.val s
  .next (if regionsUp s && c.fault == 1 && c.filt && (dioBank (n.val / 8) s).st == .switchedOff then
      dioFault 2 Code.DIO_STUCK_EXTERNAL n.val s
    else s)

/-- R320: an output commanded on has read low for RB_DELAY. -/
def execDioStuckOff (chs : BitVec 32) (tie : Bool) (s : State) : Host.Outcome State Fault Refusal :=
  .next (dioTie tie (dioCells chs (fun n => dioJudged n s && (dioCh n s).arb && !(dioCh n s).filt
      && !(dioCh n s).latched && decide ((dioCh n s).current < 2500) && ((dioCh n s).fault == 0 || (dioCh n s).fault == 8))
    (dioFault 4 Code.DIO_STUCK_OFF)) s)

/-- R320: an open load, a warning only. -/
def execDioOpenLoad (n : Fin 32) (s : State) : Host.Outcome State Fault Refusal :=
  let c := dioCh n.val s
  .next (if dioDrives n.val s && c.filt && decide (c.current < 5) && flag (Fld.DIOn_CFG_OPEN_EN n.val) s && c.fault == 0 then
      s |> onDio n.val (fun c => { c with fault := 8 }) |> raiseF 0x06 Fld.DIO_EVENT_OPEN_LOAD |> say Code.DIO_OPEN_LOAD
    else s)

/-- The status of a readback fault. -/
def dioFaultStatus (f : Fin 9) : Status :=
  match f with
  | 1 => Code.DIO_STUCK_ON
  | 2 => Code.DIO_STUCK_EXTERNAL
  | 3 => Code.DIO_BACK_FED
  | _ => Code.DIO_STUCK_OFF

/-- R322: the arbitrated value and the pin have agreed for RB_DELAY. -/
def execDioFaultClear (n : Fin 32) (s : State) : Host.Outcome State Fault Refusal :=
  let c := dioCh n.val s
  .next (if regionsUp s && inRange c.fault.val 1 4 && c.arb == c.filt then
      sayD (dioFaultStatus c.fault) 0 (onDio n.val (fun c => { c with fault := 0, mark := false }) s)
    else s)

/-! ### Bank supplies -/

/-- The converter's reading of a bank supply (R325). -/
def dioVolt (k : Nat) (mv : BitVec 16) (s : State) : State := setFld (Fld.DIO_BANKk_VOLT_MV k) mv.toNat s

/-- R326: below 19.2 V for 1 ms. -/
def execDioBankWarn (k : Fin 4) (mv : BitVec 16) (s : State) : Host.Outcome State Fault Refusal :=
  .next (if !regionsUp s || (dioBank k.val s).warn then s
    else
      s |> dioVolt k.val mv |> onDioBank k.val (fun b => { b with warn := true, reenReady := false })
        |> raiseF 0x06 Fld.DIO_EVENT_BANK_WARN |> bump (Fld.DIO_BANKk_COUNTS_WARN k.val) |> say Code.DIO_BANK_WARN)

/-- R326, R329: at or above 19.2 V for 100 ms. -/
def execDioBankWarnClear (k : Fin 4) (mv : BitVec 16) (s : State) : Host.Outcome State Fault Refusal :=
  .next (if regionsUp s && !(dioBank k.val s).low then
      s |> dioVolt k.val mv |> onDioBank k.val (fun b => { b with warn := false, reenReady := true })
    else s)

/-- R327, R369: below 15.0 V; the bank's inputs are invalid, and those of the analog bank that it feeds. -/
def execDioBankLow (k : Fin 4) (mv : BitVec 16) (s : State) : Host.Outcome State Fault Refusal :=
  .next (if !regionsUp s || (dioBank k.val s).low then s
    else
      s |> dioVolt k.val mv |> onDioBank k.val (fun b => { b with low := true, reenReady := false }) |> say Code.DIO_BANK_LOW
        |> anaLoopLow k.val)

/-- R327, R369: the supply rises to 15.2 V. -/
def execDioBankLowClear (k : Fin 4) (mv : BitVec 16) (s : State) : Host.Outcome State Fault Refusal :=
  .next (if regionsUp s then s |> dioVolt k.val mv |> onDioBank k.val (fun b => { b with low := false })
      |> onAnBank k.val (fun b => { b with loopLow := false }) else s)

/-- R328: low for 1 ms. -/
def execDioBankLatchoff (k : Fin 4) (tie : Bool) (s : State) : Host.Outcome State Fault Refusal :=
  .next (if !regionsUp s || !(dioBank k.val s).low then s
    else dioTie tie (fun s =>
      if (dioBank k.val s).st == .on then
        s |> onDioBank k.val (fun b => { b with st := .latchedOff, switch := false }) |> raiseF 0x06 Fld.DIO_EVENT_BANK_OFF
          |> bump (Fld.DIO_BANKk_COUNTS_OFF k.val) |> say Code.DIO_BANK_LATCHOFF
      else s) s)

/-- R331: more than 4.5 A for 12 ms. -/
def execDioBankOvercurrent (k : Fin 4) (s : State) : Host.Outcome State Fault Refusal :=
  .next (if regionsUp s then dioSwitchOff k.val s else s)

/-- R329: DIO_BANK_CMD REENABLE. -/
def execDioBankReenable (k : Fin 4) (s : State) : Host.Outcome State Fault Refusal :=
  .next (hostCmd Reg.DIO_BANK_CMD (fun s =>
    let b := dioBank k.val s
    let ok := (b.st == .latchedOff || b.st == .switchedOff) && b.reenReady
    setFld Fld.DIO_BANK_RESULT_STATUS (if ok then Code.DIO_OK else Code.DIO_REEN_REFUSED).toNat (dioReenCmd k.val s)) s)

/-- R347: DIO_BANK_CMD RECOVER; `pass` says whether the self-check passes. The status of a recovery that does not take
place is free (log entry 3). -/
def execDioBankRecover (k : Fin 4) (pass : Bool) (s : State) : Host.Outcome State Fault Refusal :=
  .next (hostCmd Reg.DIO_BANK_CMD (fun s =>
    if (dioBank k.val s).st == .isolated && pass then
      let en := flag (Fld.DIO_BANKk_CFG_EN k.val) s
      s |> onDioBank k.val (fun b => { b with st := if en then .on else .disabled, switch := en }) |> unisolateBank 2 k.val
        |> setFld Fld.DIO_BANK_RESULT_STATUS Code.DIO_OK.toNat
    else withFree (fun d => setFld Fld.DIO_BANK_RESULT_STATUS (d.toNat % 65536)) s) s)

/-- R311: a channel of the bank with DIR 0 is the target of an output tag or of an enabled reflex term. -/
def dioDirConflict (k : Nat) (s : State) : Bool :=
  (List.range 8).any (fun j =>
    let n := 8 * k + j
    !dioDir n s && ((outTagAt n s).isSome
      || s.terms.any (fun e => termOn e.2 && (termLinks e.2).any (fun l => l.1 == n))))

/-- R311: DIO_BANKk_CFG.EN; a bank that is off or isolated leaves that state under its own rule only. -/
def execDioBankEnable (k : Fin 4) (en : Bool) (s : State) : Host.Outcome State Fault Refusal :=
  .next (hostCmd (Reg.DIO_BANKk_CFG k.val) (fun s =>
    if en then
      if flag (Fld.DIO_BANKk_CFG_EN k.val) s then s
      else if dioDirConflict k.val s then say Code.DIO_DIR_CONFLICT (raiseF 0x06 Fld.DIO_EVENT_DIR_CONFLICT s)
      else
        s |> setFlag (Fld.DIO_BANKk_CFG_EN k.val) true
          |> onDioBank k.val (fun b => if b.st == .disabled then { b with st := .on, switch := true } else b)
    else
      s |> setFlag (Fld.DIO_BANKk_CFG_EN k.val) false
        |> onDioBank k.val (fun b => { b with st := if b.st == .on then .disabled else b.st, switch := false })) s)

/-- R347: the bank driver's self-check fails. -/
def execDioBankIsolated (k : Fin 4) (s : State) : Host.Outcome State Fault Refusal :=
  .next (if regionsUp s then dioIsolate k.val s else s)

/-- R332: no keep-alive; the driver opens every output switch of its bank, whatever the clocks do. -/
def execDioKeepaliveExpiry (k : Fin 4) (s : State) : Host.Outcome State Fault Refusal :=
  .next (if s.sup.inReset || decide (power s < 2) then s
    else forAll (List.range 8) (fun j => onDio (8 * k.val + j) (fun c => { c with out := false }))
      (onDioBank k.val (fun b => { b with silent := true }) s))

/-- R332: the retriggers have resumed for 1 ms. -/
def execDioStageSilent (k : Fin 4) (s : State) : Host.Outcome State Fault Refusal :=
  .next (if regionsUp s && (dioBank k.val s).silent then
      s |> onDioBank k.val (fun b => { b with silent := false }) |> raiseF 0x06 Fld.DIO_EVENT_STAGE_SILENT
        |> say Code.DIO_STAGE_SILENT
    else s)

end Sys2Proof.Machine
end

