-- ==== Sys2Proof/Machine/Ana.lean ====
section
/-! DEFINITION. Analog channels and HART: the meanings of their events and commands (R351 to R377). -/
namespace Sys2Proof.Machine

/-! ### HART transactions (R371 to R376) -/

/-- Report a HART status of a channel and keep its low byte. -/
def hartSay (n : Nat) (st : Status) (s : State) : State := say st (setFld (Fld.ANn_HART_STATUS_LAST n) (st.toNat % 256) s)

/-- The telegram of a request: preamble, delimiter, address, command, byte count, data and longitudinal parity. -/
def hartFrame (n : Nat) (t : HartTxn) (s : State) : List Byte :=
  let m := !flag (Fld.ANn_HART_CFG_MASTER n) s
  let long := (anCh n s).long
  let addr := if t.kind == .ident || long.isEmpty then
      [BitVec.ofNat 8 (m.toNat * 128 + fld (Fld.ANn_HART_CFG_POLL_ADDR n) s)]
    else (long.headD 0 &&& 0x7F ||| (if m then 0x80 else 0)) :: long.drop 1
  let cmd := if t.cmd < 256 then t.cmd else 31
  let data := (if t.cmd < 256 then [] else [BitVec.ofNat 8 (t.cmd / 256), BitVec.ofNat 8 t.cmd]) ++ t.data
  let body := (if addr.length = 1 then (0x02 : Byte) else 0x82) :: addr ++ [BitVec.ofNat 8 cmd, BitVec.ofNat 8 data.length] ++ data
  List.replicate (fld (Fld.ANn_HART_CFG_PREAMBLE n) s) 0xFF ++ body ++ [body.foldl (· ^^^ ·) 0]

def hartSend (n : Nat) (t : HartTxn) (s : State) : State := sendOut (.hart n (hartFrame n t s)) s

/-- Start a transaction, or let it wait: a host transaction runs before a waiting poll (R375). -/
def hartStart (n : Nat) (t : HartTxn) (s : State) : State :=
  let c := anCh n s
  if c.txn.isNone then hartSend n t (onAn n (fun c => { c with txn := some t }) s)
  else
    let w := if t.kind == .host then c.waiting.filter (·.kind == .host) ++ [t] ++ c.waiting.filter (·.kind != .host)
      else if c.waiting.any (·.kind == t.kind) then c.waiting else c.waiting ++ [t]
    onAn n (fun c => { c with waiting := w }) s

/-- The transaction under way ends and the next one runs. -/
def hartNext (n : Nat) (s : State) : State :=
  let t := onAn n (fun c => { c with txn := none }) s
  match (anCh n t).waiting with
  | [] => t
  | x :: w => hartStart n x (onAn n (fun c => { c with waiting := w }) t)

def hartRetries (n : Nat) (s : State) : Nat := fld (Fld.ANn_HART_CFG_RETRIES n) s

/-- A host transaction completes (R375). -/
def hartDone (st : Status) (len : Nat) (s : State) : State :=
  s |> setFlag Fld.ANA_HART_RESULT_BUSY false |> setFld Fld.ANA_HART_RESULT_LEN (min len 255)
    |> setFld Fld.ANA_HART_RESULT_STATUS st.toNat |> raiseF 0x07 Fld.ANA_EVENT_HART_DONE

/-- Flags of the four HART tags (R373). -/
def hartMark (n : Nat) (stale invalid : Bool) (s : State) : State :=
  forAll ((hartTags n s).filter (·.2)) (fun t => setTagFlags t.1 stale invalid) s

/-- Write the dynamic variables to the tags in use (R373). -/
def hartVars (n : Nat) (vars : List Word) (s : State) : State :=
  let l := ((hartTags n s).zip vars).filter (fun p => p.1.2 && hartTagOk p.1.1 s)
  hartMark n false false (forAll l (fun p => tagStore p.1.1 (p.2.zeroExtend 64))
    (onAn n (fun c => { c with failed := 0 }) s))

/-- The device status byte (R373). -/
def hartDev (n : Nat) (dev : Byte) (s : State) : State :=
  let old := fld (Fld.ANn_HART_STATUS_DEV_STATUS n) s
  let t := setFld (Fld.ANn_HART_STATUS_DEV_STATUS n) dev.toNat s
  onlyIf (old != dev.toNat) (fun t => hartSay n Code.ANA_HART_DEV_STATUS (raiseF 0x07 Fld.ANA_EVENT_HART_DEV_STATUS t)) t

/-- A transaction has used up its attempts (R372, R373). -/
def hartFail (n : Nat) (k : HartKind) (s : State) : State :=
  let t := s |> hartSay n Code.ANA_HART_TIMEOUT |> raiseF 0x07 Fld.ANA_EVENT_HART_FAIL |> bump (Fld.ANn_COUNTS_HART_FAIL n)
  let t := match k with
    | .poll =>
      let t := onAn n (fun c => { c with failed := c.failed + 1 }) t
      hartSay n Code.ANA_HART_POLL_STALE (hartMark n true (decide (3 ≤ (anCh n t).failed)) t)
    | .host => hartDone Code.ANA_HART_TIMEOUT 0 t
    | _ => t
  hartNext n t

/-- No good response: a further attempt, or the end (R372). -/
def hartRetry (n : Nat) (x : HartTxn) (s : State) : State :=
  if x.left = 0 then hartFail n x.kind s
  else
    let y := { x with left := x.left - 1 }
    hartSend n y (onAn n (fun c => { c with txn := some y }) s)

/-- Abandon the transactions of a side that loses authority (R376). -/
def hartAbandon (s : State) : State :=
  forAll (s.an.filter (fun e => e.2.txn.isSome)) (fun e t =>
    let host := (e.2.txn.toList ++ e.2.waiting).any (·.kind == .host)
    onlyIf host (hartDone Code.ANA_HART_TIMEOUT 0) (onAn e.1 (fun c => { c with txn := none, waiting := [] }) t)) s

/-- The modem of a channel works. -/
def hartUp (n : Nat) (s : State) : Bool := regionsUp s && anEnabled n s && hartEn n s

/-- The poll period in ns (R373). -/
def hartPeriod (n : Nat) (s : State) : Nat := 100000000 * fld (Fld.ANn_HART_POLL_PERIOD n) s

/-- R373, R374: POLL_PERIOD elapses. -/
def execHartPoll (n : Fin 16) (s : State) : Host.Outcome State Fault Refusal :=
  let burst := (anCh n.val s).burstAt.any (fun t => decide (nowNs s ≤ t + 2 * hartPeriod n.val s))
  .next (if !hartUp n.val s || !flag (Fld.ANn_HART_CFG_POLL_EN n.val) s || onStandby s
      || burst then s
    else hartStart n.val ⟨.poll, 3, [], hartRetries n.val s⟩ (setFlag (Fld.ANn_HART_STATUS_BURST n.val) false s))

/-- R371 to R376: a response arrives. `resp` and `dev` are its two status bytes, `vars` the dynamic variables of a
response to command 3, and `data` its data bytes; for command 0 `data` is the long address. -/
def execHartResponse (n : Fin 16) (good tie : Bool) (resp dev : Byte) (vars : List Word) (data : List Byte) (s : State) :
    Host.Outcome State Fault Refusal :=
  let k := n.val
  .next (if !hartUp k s then s
    else if onStandby s then (if good && !vars.isEmpty then hartVars k vars (hartDev k dev s) else s)
    else match (anCh k s).txn with
      | none => s
      | some x =>
        let s := onlyIf tie (bump Fld.ANA_CLOSE_CALL_COUNT) s
        if !good then hartRetry k x (hartSay k Code.ANA_HART_COMM_ERR s)
        else
          let t := hartDev k dev (setFld (Fld.ANn_HART_STATUS_RESP_CODE k) resp.toNat s)
          match x.kind with
          | .ident => hartNext k (setFlag (Fld.ANn_HART_STATUS_LONG_OK k) true (onAn k (fun c => { c with long := data.take 5 }) t))
          | .poll =>
            let t := hartVars k vars t
            let more : HartTxn := ⟨.more, 48, [], hartRetries k t⟩
            hartNext k (if dev.getLsbD 4 then onAn k (fun c => { c with waiting := more :: c.waiting }) t else t)
          | .more => hartNext k t
          | .host => hartNext k (hartDone Code.ANA_OK data.length (forAll (List.range 16) (fun w =>
              wr (Reg.ANA_HART_DATA w) (toW (leNat ((data.drop (4 * w)).take 4)))) t)))

/-- R372: RESP_TO expires. -/
def execHartRespTimeout (n : Fin 16) (s : State) : Host.Outcome State Fault Refusal :=
  .next (match (anCh n.val s).txn with
    | none => s
    | some x => hartRetry n.val x s)

/-- R374: a burst frame of command 3. -/
def execHartBurstFrame (n : Fin 16) (dev : Byte) (vars : List Word) (s : State) : Host.Outcome State Fault Refusal :=
  .next (if hartUp n.val s && flag (Fld.ANn_HART_CFG_BURST_ACCEPT n.val) s then
      s |> onAn n.val (fun c => { c with burstAt := some (nowNs s) }) |> setFlag (Fld.ANn_HART_STATUS_BURST n.val) true
        |> hartDev n.val dev |> hartVars n.val vars
    else s)

/-- The first bytes of the HART data registers. -/
def hartData (len : Nat) (s : State) : List Byte :=
  ((List.range 16).flatMap (fun w => leBytes 4 (rd (Reg.ANA_HART_DATA w) s).toNat)).take len

/-- R375, R376: a host transaction; a standby side never transmits, so there it completes at once as abandoned. -/
def execAnaHartCmd (cmd : BitVec 16) (len : Byte) (s : State) : Host.Outcome State Fault Refusal :=
  .next (hostCmd Reg.ANA_HART_CMD (fun s =>
    let n := fld Fld.ANA_HART_SEL_CHANNEL s
    if flag Fld.ANA_HART_RESULT_BUSY s then s
    else if !hartUp n s then hartDone Code.ANA_HART_REFUSED 0 (hartSay n Code.ANA_HART_REFUSED s)
    else if onStandby s then hartDone Code.ANA_HART_TIMEOUT 0 (hartSay n Code.ANA_HART_TIMEOUT s)
    else hartStart n ⟨.host, cmd.toNat, hartData (min len.toNat 64) s, hartRetries n s⟩
      (setFlag Fld.ANA_HART_RESULT_BUSY true s)) s)

/-! ### Enable and configuration (R354) -/

/-- A channel is disabled: it drives nothing and its transactions end. -/
def anDisable (n : Nat) (s : State) : State :=
  let c := anCh n s
  let host := (c.txn.toList ++ c.waiting).any (·.kind == .host)
  let t := setBitAt Reg.ANA_ENABLE n false (onAn n (fun c => { cell := c.cell }) s)
  onlyIf host (hartDone Code.ANA_HART_TIMEOUT 0) t

/-- A channel is enabled after its checks; HART identifies its device (R354, R371). -/
def anEnable (n : Nat) (s : State) : State :=
  match anCheck n s with
  | some st => say st (raiseF 0x07 Fld.ANA_EVENT_CFG_REFUSED s)
  | none =>
    let t := s |> setBitAt Reg.ANA_ENABLE n true |> setBitAt Reg.ANA_LOCK n false |> wr (Reg.ANn_RES n) (anRes n s)
      |> onAn n (fun c => { cell := c.cell, waitConv := true })
      |> setFlag (Fld.ANn_HART_STATUS_LONG_OK n) false
    onlyIf (hartEn n t && !onStandby t) (hartStart n ⟨.ident, 0, [], hartRetries n t⟩) t

/-- R354: a write of ANA_ENABLE. -/
def execAnaChannelEnable (value : BitVec 16) (s : State) : Host.Outcome State Fault Refusal :=
  .next (hostCmd Reg.ANA_ENABLE (fun s =>
    forAll (List.range 16) (fun n t =>
      if value.getLsbD n then (if anEnabled n t then t else anEnable n t)
      else if anEnabled n t then anDisable n t else t) s) s)

/-- R354, Table ANA-9: a write of ANA_LOCK; OPEN takes effect only on a disabled channel. -/
def execAnaLockOpen (value : BitVec 16) (s : State) : Host.Outcome State Fault Refusal :=
  .next (hostCmd Reg.ANA_LOCK (fun s => wr Reg.ANA_LOCK (value.zeroExtend 32 &&& ~~~ rd Reg.ANA_ENABLE s) s) s)

/-! ### Conversions and faults -/

/-- Half periods before completion at which the window has its centre, in ns (R357, Table ANA-3). -/
def anLag (rate : Nat) (s : State) : Nat :=
  match rate with
  | 0 => 150000000
  | 1 => 15000000
  | 2 => 1500000
  | 3 => 375000
  | 4 => 93750
  | _ => (Config.freeValue s.freeCtr).toNat % 2 ^ 32

/-- One completed conversion (R357 to R361, R365). -/
def anConversion (n : Nat) (mcal : Nat) (s : State) : State :=
  let c := anCh n s
  let r := anConvert n mcal s
  let stamp := match c.conv with
    | some t => t
    | none => moduleNs s - toD (anLag (fld (Fld.ANn_CFG_RATE n) s) s)
  let t := s |> wr (Reg.ANn_MEAS n) (Flt.narrow r.1) |> wr (Reg.ANn_VALUE n) (Flt.narrow r.2) |> wr64 (Reg.ANn_STAMP_LO n) stamp
    |> onAn n (fun c => { c with conv := none })
  let t := if fld (Fld.ANn_CFG_RATE n) s ≤ 4 then t else { t with freeCtr := t.freeCtr + 1 }
  if anOutput n s then t
  else
    let f := anFault n r.1 s
    let under := anUnder n r.1 s
    let ov := anOver n r.1 s
    let t := onAn n (fun c => { c with
      under := under
      above := ov
      waitConv := c.waitConv && f != 0
      cell := if f = 0 then Flt.narrow r.2 else c.cell }) t
    let t := if f = 0 then onAn n (fun c => { c with fault := 0 }) t else onlyIf (f != c.fault) (anFaultSet f n) t
    let rise := fun (was now : Bool) st => onlyIf (now && !was && f == 0) (fun t =>
      say st (raiseF 0x07 Fld.ANA_EVENT_INPUT_FAULT t))
    t |> rise c.under under Code.ANA_UNDER_RANGE |> rise c.above ov Code.ANA_OVER_RANGE

/-- An analog bank is isolated (R28, Table ANA-7). -/
def anaIsolate (k : Nat) (s : State) : State :=
  if (anBank k s).isolated then s
  else
    s |> onAnBank k (fun b => { b with isolated := true }) |> raiseF 0x07 Fld.ANA_EVENT_BANK |> say Code.ANA_BANK_ISOLATED
      |> isolateBank 2 (4 + k)

/-- Two or more channels of a bank that take the same new fault in one cycle isolate the bank (R28); a loop-power sag
does not count (R369). -/
def anaCount (chs : List Nat) (before after : State) : State :=
  let new := chs.filter (fun n => (anCh n after).fault != 0 && (anCh n after).fault != 5
    && (anCh n after).fault != (anCh n before).fault)
  forAll ((List.range 4).filter (fun k => new.any (fun a => a / 4 == k && new.any (fun b =>
    b != a && b / 4 == k && (anCh a after).fault == (anCh b after).fault)))) anaIsolate after

/-- R357: conversions that complete in one cycle, as channels and measurements in binary64; `overlap` says that their
windows contain the overlap of a switchover (R356). -/
def execAnaConversion (convs : List (Fin 16 × DWord)) (overlap : Bool) (s : State) : Host.Outcome State Fault Refusal :=
  let l := convs.filter (fun e => anEnabled e.1.val s && inRange (anMode e.1.val s) 1 4
    && (anOutput e.1.val s || !flag (Fld.ANn_CFG_TRIG e.1.val) s || (anCh e.1.val s).conv.isSome))
  .next (if !regionsUp s then s
    else if overlap then forAll l (fun e => onAn e.1.val (fun c => { c with conv := none })) s
    else anaCount (l.map (fun e => e.1.val)) s (forAll l (fun e => anConversion e.1.val e.2.toNat) s))

/-- Declare a fault on the channels of a mask that meet a condition. -/
def anaCells (chs : BitVec 16) (ok : Nat → Bool) (f : Fin 9) (s : State) : State :=
  let l := (List.range 16).filter (fun n => chs.getLsbD n && ok n && (anCh n s).fault != f)
  anaCount l s (forAll l (anFaultSet f) s)

/-- R360: a loop-powered input has stayed above 24 mA for 10 ms. -/
def execAnaLoopShort (chs : BitVec 16) (s : State) : Host.Outcome State Fault Refusal :=
  .next (anaCells chs (fun n => regionsUp s && anEnabled n s && anMode n s == 1) 4 s)

/-- R366: an output is open. -/
def execAnaOutOpen (chs : BitVec 16) (s : State) : Host.Outcome State Fault Refusal :=
  .next (anaCells chs (fun n => regionsUp s && anEnabled n s && anOutput n s) 7 s)

/-- R366: an output's current differs from its command while COMPLIANCE is 0. -/
def execAnaReadbackErr (chs : BitVec 16) (s : State) : Host.Outcome State Fault Refusal :=
  .next (anaCells chs (fun n => regionsUp s && anEnabled n s && anOutput n s && !(anCh n s).compliance) 6 s)

/-- R366: command and measurement have agreed for 10 ms. -/
def execAnaOutputFaultClear (n : Fin 16) (s : State) : Host.Outcome State Fault Refusal :=
  let f := (anCh n.val s).fault
  .next (if regionsUp s && (f == 6 || f == 7) then onAn n.val (fun c => { c with fault := 0 }) s else s)

/-- R367: the headroom has stayed below 1.5 V for 1 ms. -/
def execAnaCompliance (n : Fin 16) (mv : BitVec 16) (tie : Bool) (s : State) : Host.Outcome State Fault Refusal :=
  let c := anCh n.val s
  .next (if !(regionsUp s && anEnabled n.val s && anOutput n.val s) then s
    else
      let s := wr (Reg.ANn_HEADROOM n.val) (mv.zeroExtend 32) s
      if tie then bump Fld.ANA_CLOSE_CALL_COUNT s
      else if c.compliance || c.fault == 7 then s
      else
        s |> onAn n.val (fun c => { c with compliance := true }) |> raiseF 0x07 Fld.ANA_EVENT_COMPLIANCE
          |> say Code.ANA_COMPLIANCE)

/-- R368: the headroom has stayed at or above 2.0 V for 100 ms. -/
def execAnaComplianceClear (n : Fin 16) (mv : BitVec 16) (tie : Bool) (s : State) : Host.Outcome State Fault Refusal :=
  .next (if !(regionsUp s && anEnabled n.val s && anOutput n.val s) then s
    else
      let t := wr (Reg.ANn_HEADROOM n.val) (mv.zeroExtend 32) s
      if tie then bump Fld.ANA_CLOSE_CALL_COUNT t
      else if (anCh n.val s).compliance then
        say Code.ANA_COMPLIANCE_CLEAR (onAn n.val (fun c => { c with compliance := false }) t)
      else t)

/-- R370: no keep-alive; the bank switches off its current sources and loop power, whatever the clocks do. -/
def execAnaKeepaliveExpiry (k : Fin 4) (s : State) : Host.Outcome State Fault Refusal :=
  .next (if s.sup.inReset || decide (power s < 2) then s else onAnBank k.val (fun b => { b with silent := true }) s)

/-- R370: the retriggers have resumed for 1 ms. -/
def execAnaStageSilent (k : Fin 4) (s : State) : Host.Outcome State Fault Refusal :=
  .next (if regionsUp s && (anBank k.val s).silent then
      s |> onAnBank k.val (fun b => { b with silent := false }) |> raiseF 0x07 Fld.ANA_EVENT_BANK |> say Code.ANA_STAGE_SILENT
    else s)

/-- R377: a bank's reference check fails. -/
def execAnaBankIsolated (k : Fin 4) (s : State) : Host.Outcome State Fault Refusal :=
  .next (if regionsUp s then anaIsolate k.val s else s)

/-- R377: ANA_BANK_CMD RECOVER; the status of a recovery that does not take place is free (log entry 3). -/
def execAnaBankRecover (k : Fin 4) (pass : Bool) (s : State) : Host.Outcome State Fault Refusal :=
  .next (hostCmd Reg.ANA_BANK_CMD (fun s =>
    if (anBank k.val s).isolated && pass then
      s |> onAnBank k.val (fun b => { b with isolated := false }) |> unisolateBank 2 (4 + k.val)
        |> raiseF 0x07 Fld.ANA_EVENT_BANK |> say Code.ANA_BANK_RECOVERED |> setFld Fld.ANA_BANK_RESULT_STATUS Code.ANA_OK.toNat
    else withFree (fun d => setFld Fld.ANA_BANK_RESULT_STATUS (d.toNat % 65536)) s) s)

end Sys2Proof.Machine
end

