-- ==== Sys2Proof/Machine/MbxOps.lean ====
section
/-! DEFINITION. Mailboxes and lock registers as their masters use them (R620 to R627). -/
namespace Sys2Proof.Machine

def mbx (m : Nat) (s : State) : Mailbox := Sparse.get (fun _ => {}) s.mailboxes m
def onMbx (m : Nat) (f : Mailbox → Mailbox) (s : State) : State :=
  { s with mailboxes := Sparse.set (fun _ => {}) s.mailboxes m (f (mbx m s)) }

/-- The masters at the ends of a mailbox. -/
def mbxEnd0 (m : Nat) (s : State) : Nat := fld (Fld.MBXm_BIND_END0 m) s
def mbxEnd1 (m : Nat) (s : State) : Nat := fld (Fld.MBXm_BIND_END1 m) s

/-- The end of a mailbox at which a master stands: false is end 0; none when it is not bound (R620). -/
def mbxEnd (m master : Nat) (s : State) : Option Bool :=
  if !flag (Fld.MBXm_BIND_EN m) s then none
  else if mbxEnd0 m s = master then some false
  else if mbxEnd1 m s = master then some true
  else none

/-- Note the status of an operation of an end, and report one other than success. DEDUCED: log entry 46. -/
def mbxNote (m : Nat) (e : Bool) (st : Status) (s : State) : State :=
  onMbx m (fun x => if e then { x with last1 := st } else { x with last0 := st }) s
    |> onlyIf (st.toNat % 256 != 0) (say st)

/-- Set a mailbox event bit towards the host (R623). -/
def mbxEvent (f : RegField) (m receiver : Nat) (s : State) : State := onlyIf (receiver == 8) (raiseBit 0x11 f m) s

/-- An operation of a master at an end of a mailbox. -/
def mbxOp (m master : Nat) (f : Bool → State → Status × State) (s : State) : Status × State :=
  match mbxEnd m master s with
  | none => (Code.MBX_NOT_BOUND, say Code.MBX_NOT_BOUND s)
  | some e =>
    let r := f e s
    (r.1, mbxNote m e r.1 r.2)

/-- A word into the queue towards the other end (R621). -/
def mbxSend (m master : Nat) (w : Word) (s : State) : Status × State :=
  mbxOp m master (fun e s =>
    let q := if e then (mbx m s).to0 else (mbx m s).to1
    let full := decide (8 ≤ q.length)
    let q' := (if full then q.drop 1 else q) ++ [w]
    let t := onMbx m (fun x => if e then { x with to0 := q', coll0 := x.coll0 || full }
      else { x with to1 := q', coll1 := x.coll1 || full }) s
    (if full then Code.MBX_OVERWRITE else Code.MBX_OK,
      mbxEvent Fld.MBX_EV_RX_MB m (if e then mbxEnd0 m s else mbxEnd1 m s) t)) s

/-- The oldest word towards a master; none from an empty queue (R621). -/
def mbxPeek (m master : Nat) (s : State) : Option Word :=
  match mbxEnd m master s with
  | none => none
  | some e => (if e then (mbx m s).to1 else (mbx m s).to0).head?

/-- Take the oldest word; an emptied queue clears the direction's collision flag (R621, Table MBX-2). Only the host's
receive from an empty queue has the status MBX_EMPTY. DEDUCED: log entry 46. -/
def mbxTake (m master : Nat) (s : State) : Status × State :=
  mbxOp m master (fun e s =>
    let q := if e then (mbx m s).to1 else (mbx m s).to0
    let q' := q.drop 1
    (if q.isEmpty && master == 8 then Code.MBX_EMPTY else Code.MBX_OK,
      onMbx m (fun x => if e then { x with to1 := q', coll1 := x.coll1 && !q'.isEmpty }
        else { x with to0 := q', coll0 := x.coll0 && !q'.isEmpty }) s)) s

/-- End 0 rings doorbell bits (R622, R623). -/
def mbxRing (m master : Nat) (bits : Word) (s : State) : Status × State :=
  mbxOp m master (fun e s =>
    if e then (Code.MBX_WRONG_END, s)
    else
      let t := onMbx m (fun x => { x with bell := x.bell ||| bits }) s
      let t := mbxEvent Fld.MBX_EV_DBL_MB m (mbxEnd1 m s) t
      (Code.MBX_OK, onlyIf (mbxEnd1 m s == 0) (signalSource 4 m) t)) s

/-- End 1 writes a return code (R622). -/
def mbxAck (m master : Nat) (code : BitVec 16) (s : State) : Status × State :=
  mbxOp m master (fun e s =>
    if !e then (Code.MBX_WRONG_END, s)
    else
      let lost := (mbx m s).new
      let t := onMbx m (fun x => { x with code := code, new := true, overrun := x.overrun || lost }) s
      (if lost then Code.MBX_ACK_OVERRUN else Code.MBX_OK, mbxEvent Fld.MBX_EV_ACK_MB m (mbxEnd0 m s) t)) s

/-- At the release of an event task that a doorbell towards M0 sources, the bits move to DBL_TAG (R623). -/
def bellToTag (m : Nat) (s : State) : State :=
  let g := fld (Fld.MBXm_BIND_DBL_TAG m) s
  let bell := (mbx m s).bell
  if mbxEnd m 0 s != some true then s
  else onMbx m (fun x => { x with bell := 0 }) s
    |> onlyIf ((tagDef g s).any (fun d => d.typ == 9 && d.locKind == 0))
      (tagStore g ((tagLive g s).val ||| bell.zeroExtend 64))

/-- The holder of a lock register. -/
def lockHolder (i : Nat) (s : State) : Option LockHold := Sparse.find s.locks i

/-- A read by a master acquires a free lock (R625). -/
def lockTry (i master t : Nat) (s : State) : State :=
  match lockHolder i s with
  | some _ => s
  | none => { s with locks := Sparse.insert s.locks i ⟨master, t⟩ }

/-- The lock is freed. -/
def lockFree (i : Nat) (s : State) : State := { s with locks := Sparse.erase s.locks i }

end Sys2Proof.Machine
end

