-- ==== Sys2Proof/Machine/TtOps.lean ====
section
/-! DEFINITION. The tide table (R132 to R147, R161, R162): entries, their checks at commit, the scanner, and firing. -/
namespace Sys2Proof.Machine

def ttEntry (i : Nat) (s : State) : TTEntry := Sparse.get (fun _ => {}) s.tt i
def onTT (i : Nat) (f : TTEntry → TTEntry) (s : State) : State :=
  { s with tt := Sparse.set (fun _ => {}) s.tt i (f (ttEntry i s)) }

/-! ### Fields of an entry (Table TIDE-24) -/

def ttValid (e : TTEntry) : Bool := e.w0.getLsbD 31
def ttTide (e : TTEntry) : Nat := e.w0.toNat / 2 ^ 28 % 8
def ttAction (e : TTEntry) : Nat := e.w0.toNat / 2 ^ 24 % 16
def ttHold (e : TTEntry) : Nat := e.w0.toNat / 2 ^ 22 % 4
def ttDir (e : TTEntry) : Nat := e.w0.toNat / 2 ^ 20 % 4
def ttRepeat (e : TTEntry) : Bool := e.w0.getLsbD 19
def ttTarget (e : TTEntry) : Nat := e.w0.toNat % 65536

/-- DIR allows a crossing in this direction. -/
def ttDirOk (e : TTEntry) (forward : Bool) : Bool :=
  match ttDir e with
  | 0 => forward
  | 1 => !forward
  | 2 => true
  | _ => false

/-- Clear VALID. -/
def ttRetire (e : TTEntry) : TTEntry := { e with w0 := e.w0 &&& 0x7FFFFFFF, armed := false, late := none, firedAt := none }

/-- The entry belongs to the host (R133). -/
def ttHosts (i : Nat) (s : State) : Bool := decide (fld Fld.TT_PARTITION_HOST_FIRST s ≤ i)

/-- An entry reports a status (W7, LAST_STATUS). -/
def ttSay (i : Nat) (st : Status) (s : State) : State :=
  say st (onTT i (fun e => { e with w7 := st.zeroExtend 32 }) s)

/-! ### Commit (R134, R135, R143) -/

/-- The code of a tide-capable output, and its claim. -/
def ttOutOk (c : Nat) : Bool := decide (c < 8) || inRange c 0x100 0x103
def ttClaimed (c : Nat) (s : State) : Bool := bitAt Reg.TT_CLAIM (if c < 8 then c else 8 + (c - 0x100)) s

/-- A TAG_CAPTURE keeps its type rule (Table TIDE-25). -/
def ttCaptureOk (target src : Nat) (s : State) : Bool :=
  match tagDef target s with
  | none => false
  | some d => d.locKind == 0 && (d.typ == 8 || d.typ == 7 || (tagDef src s).any (fun x => x.typ == d.typ))

/-- The checks of R135. -/
def ttBad (e : TTEntry) (s : State) : Bool :=
  ttHold e == 3 || ttDir e == 3
  || (match ttAction e with
    | 0 => false
    | 1 => !ttOutOk (ttTarget e)
    | 2 => !ttOutOk (ttTarget e) || e.w3 == 0
    | 3 => decide (15 < ttTarget e)
    | 4 => !ttCaptureOk (ttTarget e) (e.w3.toNat % 65536) s
    | 5 => decide (63 < ttTarget e)
    | 6 => decide (2047 < ttTarget e)
    | 7 => decide (15 < ttTarget e)
    | _ => true)

/-- ANGLE lies ahead of the tide's angle within the look-ahead, in a direction that DIR allows (R136). -/
def ttAhead (e : TTEntry) (s : State) : Bool :=
  let n := ttTide e
  let look := Nat.min ((tide n s).omega.natAbs * 8192 / 2 ^ 32) 0x40000000
  let d := angleDiff e.w1 (tideAngle n s)
  (ttDirOk e true && decide (0 < d) && decide (d ≤ look)) || (ttDirOk e false && decide (d < 0) && decide (-d ≤ look))

/-- Comparators of a tide in use (R136). -/
def ttArmed (n : Nat) (s : State) : Nat := (s.tt.filter (fun x => x.2.armed && ttTide x.2 == n)).length

/-- ARM_FULL is reported once per scan period (R139). -/
def ttArmFull (i n : Nat) (s : State) : State :=
  let now := s.cycle / 4096
  if Sparse.find s.ttFull n = some now then s
  else { s with ttFull := Sparse.insert s.ttFull n now } |> raiseBit 0x04 Fld.TT_EVENT_ARM_FULL n |> ttSay i Code.TT_ARM_FULL

/-- Arm an entry, or let it go (R136, R139); arming a launching entry copies its slot (R531). -/
def ttArm (i : Nat) (s : State) : State :=
  let e := ttEntry i s
  let n := ttTide e
  if !ttValid e || !tideEnabled n s || !ttAhead e s then onTT i (fun x => { x with armed := false }) s
  else if e.armed then s
  else if 32 ≤ ttArmed n s then ttArmFull i n s
  else onlyIf (ttAction e == 5) (launchArm (ttTarget e)) (onTT i (fun x => { x with armed := true }) s)

/-- Commit W0 to W4 of an entry for its owner (R133 to R135, R143); it is checked for arming at once (R136). -/
def ttCommit (host : Bool) (i : Nat) (w0 w1 w2 w3 w4 : Word) (s : State) : Status × State :=
  let e : TTEntry := { w0 := w0, w1 := w1, w2 := w2, w3 := w3, w4 := w4, w5 := tideAngle (w0.toNat / 2 ^ 28 % 8) s }
  if ttHosts i s != host then (Code.TT_NOT_OWNER, say Code.TT_NOT_OWNER s)
  else if ttBad e s then (Code.TT_BAD_TARGET, say Code.TT_BAD_TARGET s)
  else if inRange (ttAction e) 1 2 && !ttClaimed (ttTarget e) s then (Code.TT_NOT_CLAIMED, say Code.TT_NOT_CLAIMED s)
  else (Code.TIDE_OK, ttArm i (onTT i (fun _ => e) s))

/-- Retire an entry for its owner (R133). -/
def ttRetireBy (host : Bool) (i : Nat) (s : State) : Status × State :=
  if ttHosts i s != host then (Code.TT_NOT_OWNER, say Code.TT_NOT_OWNER s) else (Code.TIDE_OK, onTT i ttRetire s)

/-! ### Firing (R137 to R147) -/

/-- An edge on a tide-capable output, placed in the following cycle (R144, R146, R147). -/
def ttEdge (c : Nat) (level : Bool) (step : Nat) (trailing : Option Nat) (s : State) : State :=
  let late := onStandby s && (s.pair.peerLost || s.pair.takeover.isSome)
  onTTOut c (fun x => { x with
    value := level, trailing := trailing, placed := if x.lineFailed then 0 else step, shadow := x.shadow || late }) s

/-- The value that TAG_CAPTURE takes in the firing cycle (Table TIDE-25). -/
def ttCapture (e : TTEntry) (s : State) : DWord :=
  match (tagDef (ttTarget e) s).map (·.typ) with
  | some 8 => (tideAngle (ttTide e) s).zeroExtend 64
  | some 7 => moduleNs s
  | _ => (tagNow (e.w3.toNat % 65536) s).val

/-- The action of an entry (Table TIDE-25); `dropped` when a later edge on its output acts in the same cycle (R147). -/
def ttAct (e : TTEntry) (step : Nat) (dropped : Bool) (s : State) : State :=
  match ttAction e with
  | 1 => if dropped then bump Fld.TT_MERGED_COUNT s else ttEdge (ttTarget e) (e.w3.getLsbD 0) step none s
  | 2 => if dropped then bump Fld.TT_MERGED_COUNT s
    else ttEdge (ttTarget e) true step (some (s.cycle + e.w3.toNat)) s
  | 3 => analogTrigger (ttTarget e) s
  | 4 => tagStore (ttTarget e) (ttCapture e s) s
  | 5 => launchFire (ttTarget e) s
  | 6 => loopSample (ttTarget e) s
  | 7 => signalTask (ttTarget e) s
  | _ => s

/-- After a firing, a suppression or a discard (R141). -/
def ttNext (i : Nat) (forward : Bool) (s : State) : State :=
  let e := ttEntry i s
  if !ttRepeat e || e.w4 == 1 then onTT i (fun x => ttRetire { x with w4 := if ttRepeat e then 0 else x.w4 }) s
  else onTT i (fun x => { x with
    w1 := if forward then x.w1 + x.w2 else x.w1 - x.w2, w4 := if x.w4 = 0 then 0 else x.w4 - 1
    armed := false, late := none, firedAt := some e.w1 }) s

/-- A crossing of an entry acts or is suppressed by its tide's state (R140). -/
def ttFire (i : Nat) (forward : Bool) (step : Nat) (dropped : Bool) (s : State) : State :=
  let e := ttEntry i s
  let n := ttTide e
  if tideAllows (ttHold e) (tide n s).st then
    s |> onTT i (fun x => { x with w6 := toW (Nat.min (x.w6.toNat + 1) 0xFFFF) }) |> ttAct e step dropped |> ttNext i forward
  else
    s |> bump Fld.TT_LATE_COUNT_SUPPRESSED |> raiseBit 0x04 Fld.TT_EVENT_SUPPRESSED n |> ttSay i Code.TT_SUPPRESSED
      |> ttNext i forward

/-- The tide table acts: its RUN bit is set and its unit works (R140, Table ARCH-4). -/
def ttRuns (s : State) : Bool := regionsUp s && !inFallback 2 s && flag Fld.TT_CTRL_RUN s

/-- A crossing that the scanner finds missed since a reference angle: its direction (R138). -/
def ttMissed (e : TTEntry) (ref now : Word) : Option Bool :=
  let moved := angleDiff now ref
  let d := angleDiff e.w1 ref
  if ttDirOk e true && decide (0 < d) && decide (d ≤ moved) then some true
  else if ttDirOk e false && decide (d < 0) && decide (moved ≤ d) then some false
  else none

/-- The scanner finds a missed crossing (R138). -/
def ttLate (i : Nat) (forward : Bool) (s : State) : State :=
  let e := ttEntry i s
  let s := s |> bump Fld.TT_LATE_COUNT_LATE |> raiseBit 0x04 Fld.TT_EVENT_LATE (ttTide e) |> ttSay i Code.TT_LATE
  if e.w0.getLsbD 18 then onTT i (fun x => { x with late := some forward, armed := false }) s else ttNext i forward s

/-- The overspeed bit of a tide (R139). -/
def ttOverspeed (n : Nat) (s : State) : State :=
  let ov := tideRuns n s && decide (0x40000000 < (tide n s).omega.natAbs * 4096 / 2 ^ 32)
  let was := bitAt Reg.TT_OVERSPEED n s
  onlyIf (ov && !was) (say Code.TT_OVERSPEED) (setBitAt Reg.TT_OVERSPEED n ov s)

/-- The scanner visits an entry (R136, R138 to R140). -/
def ttVisit (i : Nat) (s : State) : State :=
  let s := forAll (List.range 8) ttOverspeed s
  let e := ttEntry i s
  let now := tideAngle (ttTide e) s
  let miss := if ttRuns s && ttValid e && e.late.isNone then ttMissed e (e.firedAt.getD e.w5) now else none
  let s := onTT i (fun x => { x with w5 := now, firedAt := none }) s
  match miss with
  | some f => ttLate i f s
  | none => ttArm i s

/-- A side becomes active: an edge that fired in the shadow during the takeover reaches its pin now (R162). -/
def ttActive (s : State) : State :=
  forAll (s.ttOut.filter (fun x => x.2.shadow)) (fun x t =>
    onTTOut x.1 (fun o => { o with shadow := false }) (onlyIf (ttClaimed x.1 t) (say Code.TT_LATE) t)) s

end Sys2Proof.Machine
end

