-- ==== Sys2Proof/Machine/SeqOps.lean ====
section
/-! DEFINITION. Step sequencers (R148 to R165): steps, their exits and actions, commands, mirror records, takeover. -/
namespace Sys2Proof.Machine

def seq (q : Nat) (s : State) : Seq := Sparse.get (fun _ => {}) s.seqs q
def onSeq (q : Nat) (f : Seq → Seq) (s : State) : State :=
  { s with seqs := Sparse.set (fun _ => {}) s.seqs q (f (seq q s)) }

/-- A status of a sequencer, kept in SQs_STATE.LAST. -/
def sqSay (q : Nat) (st : Status) (s : State) : State := say st (onSeq q (fun x => { x with last := st.setWidth 8 }) s)

def seqCode : SeqState → Nat
  | .idle => 0
  | .run => 1
  | .held => 2
  | .done => 3
  | .fault => 4

def seqStateOf (n : Fin 5) : SeqState :=
  match n with
  | 0 => .idle
  | 1 => .run
  | 2 => .held
  | 3 => .done
  | 4 => .fault

/-! ### Steps (R148 to R150, Table TIDE-27) -/

/-- Address of a step in step memory (R148). -/
def stepAddr (q n : Nat) : Nat := 0x201800000 + 0x10000 * q + 0x40 * n

/-- The 16 words of a step, and its bytes. -/
def stepWords (q n : Nat) (s : State) : List Word := (List.range 16).map (fun w => toW (mgetN (stepAddr q n + 4 * w) 4 s))

/-- CRC-32C of this side's copy of a step (Table TIDE-30). -/
def stepCrc (q n : Nat) (s : State) : Word := crc32c 0 (mgetBytes (stepAddr q n) 64 s)

/-- A field of a step word. -/
def stepBits (l : List Word) (w hi lo : Nat) : Nat := (l.getD w 0).toNat / 2 ^ lo % 2 ^ (hi + 1 - lo)

def durKind (l : List Word) : Nat := stepBits l 0 31 30
def exitKind (l : List Word) : Nat := stepBits l 0 29 28
def stepCop (l : List Word) : Nat := stepBits l 3 31 28
def stepTag (l : List Word) : Nat := stepBits l 3 15 0

/-- A step is invalid (R150). -/
def stepBad (l : List Word) (s : State) : Bool :=
  durKind l == 3 || decide (6 < stepCop l)
  || [6, 8, 10, 12].any (fun w => decide (6 < stepBits l w 31 28))
  || (durKind l == 0 && exitKind l != 1)
  || (exitKind l != 0 && stepCop l == 0)
  || (inRange (stepCop l) 3 5 && !(tagDef (stepTag l) s).any (fun d => [2, 3, 5, 9].contains d.typ))

/-- A comparison of a tag's value with CONST in the tag's type (Table TIDE-27): first below, then equal. -/
def stepCompare (typ : Nat) (v : DWord) (c : Word) : Bool × Bool :=
  match typ with
  | 2 => let a := (v.setWidth 16).toInt; let b := (c.setWidth 16).toInt; (decide (a < b), a == b)
  | 3 => let a := (v.setWidth 32).toInt; let b := c.toInt; (decide (a < b), a == b)
  | 5 => let a := Flt.widen (v.setWidth 32); let b := Flt.widen c; (Flt.flt a b, Flt.fle a b && Flt.fle b a)
  | _ => let a := v.toNat % 2 ^ 32; let b := c.toNat; (decide (a < b), a == b)

/-- The condition of a step holds (R155). -/
def stepCond (x : Seq) (s : State) : Bool :=
  let l := x.work
  if stepCop l = 6 then x.signals.getLsbD (stepBits l 3 2 0)
  else
    let v := tagNow (stepTag l) s
    let typ := ((tagDef (stepTag l) s).map (·.typ)).getD 0
    let c := stepCompare typ v.val (l.getD 4 0)
    let nan := typ == 5 && (Flt.isNan Flt.f32 (v.val.toNat % 2 ^ 32) || Flt.isNan Flt.f32 (l.getD 4 0).toNat)
    !v.stale && !v.invalid && (match stepCop l with
      | 1 => typ == 1 && v.val.getLsbD 0
      | 2 => typ == 1 && !v.val.getLsbD 0
      | 3 => !c.1 && !nan
      | 4 => c.1 || c.2
      | 5 => c.2
      | _ => false)

/-- DURATION in ns (R153). -/
def stepDur (l : List Word) : Nat := 10000 * (l.getD 1 0).toNat

/-- DURATION in 2^-32 turns (R154). -/
def stepAngle (l : List Word) : Nat := 65536 * (l.getD 1 0).toNat

def stepTide (l : List Word) : Nat := stepBits l 0 27 25

/-- The time duration of the step has run at an instant (R153). -/
def timeDue (x : Seq) (now : Int) : Bool := durKind x.work == 1 && decide (x.nominal + stepDur x.work ≤ now)

/-- The angle duration of the step has been covered (R154). -/
def angleDue (x : Seq) (s : State) : Bool :=
  durKind x.work == 2 && decide ((stepAngle x.work : Int) ≤ (tidePos (stepTide x.work) s - x.startPos).toInt)

/-- The exit of the step is due (Table TIDE-27, EXIT). -/
def exitDue (x : Seq) (s : State) : Bool :=
  let dur := timeDue x (execBase s) || angleDue x s
  match exitKind x.work with
  | 0 => dur
  | 1 => stepCond x s
  | 2 => dur || stepCond x s
  | _ => dur && stepCond x s

/-- The exit is on the time duration, which runs out at this evaluation (R153). -/
def exitOnTime (x : Seq) (s : State) : Bool :=
  timeDue x (execBase s) && (exitKind x.work != 3 || !timeDue x ((execBase s : Int) - 256)) && exitKind x.work != 1

def exitOnAngle (x : Seq) (s : State) : Bool := angleDue x s && exitKind x.work != 1

/-- TIMEOUT has passed since the actual entry, without the time HELD (R156). -/
def timeoutDue (x : Seq) (s : State) : Bool :=
  x.work.getD 2 0 != 0 && decide (x.actual + x.heldNs + 10000 * (x.work.getD 2 0).toNat ≤ (execBase s : Int))

/-- The tide of an angle step is LOST, DISABLED or FAULT (R154). -/
def tideGone (x : Seq) (s : State) : Bool :=
  durKind x.work == 2 && (match (tide (stepTide x.work) s).st with
    | .lost | .disabled | .fault => true
    | .acquire | .locked | .holdover => false)

/-! ### Mirror records (R163, Table TIDE-30) -/

/-- The mirror record of a sequencer, as 64-bit words; in HELD the time held so far is added to the nominal entry (R153). -/
def seqRecord (q : Nat) (s : State) : List DWord :=
  let x := seq q s
  let hold := (x.heldAt.map (fun a => execBase s - a.1)).getD 0
  let move := (x.heldAt.map (fun a => tidePos (stepTide x.work) s - a.2)).getD 0
  let nominal : Int := x.nominal + hold - execBase s + (moduleNs s).toNat
  let b := leBytes 1 q ++ leBytes 1 (seqCode x.st) ++ leBytes 2 x.step ++ leBytes 8 nominal.toNat
    ++ leBytes 4 (BitVec.ofInt 32 ((x.actual - x.nominal - hold) / 10000)).toNat ++ leBytes 8 (x.startPos + move).toNat ++ leBytes 1 x.signals.toNat
    ++ leBytes 3 ((x.heldNs + hold) / 10000) ++ leBytes 4 (stepCrc q x.step s).toNat
  (List.range 4).map (fun i => toD (leNat ((b.drop (8 * i)).take 8)))

def seqMirror (q : Nat) (s : State) : State := cwMirror 7 (seqRecord q s) s

/-- At each slack a record goes out for every sequencer, every enabled tide and the reflex latches (Table PAIR-2). -/
def tideRecord (n : Nat) (s : State) : List DWord :=
  let x := tide n s
  [toD (n + 256 * x.st.code), tidePos n s, BitVec.ofInt 64 x.omega, toD (execBase s)]

def tidesMirror (s : State) : State :=
  let s := onlyIf (mirroring s) (fun t => { t with pair := { t.pair with tideSent := nowNs t } }) s
  forAll ((List.range 8).filter (fun n => tideEnabled n s)) (fun n t => cwMirror 8 (tideRecord n t) t) s

def rfxLatches (s : State) : DWord := toD ((List.range 64).foldl (fun m j => m + (term j s).latch.toNat * 2 ^ j) 0)

def slackMirror (s : State) : State :=
  if !mirroring s then s
  else cwMirror 9 [rfxLatches s] (tidesMirror (forAll (List.range 32) seqMirror s))

/-! ### Actions (R151, Table TIDE-28) -/

/-- The value of a TAG_WRITE in the tag's type. -/
def stepValue (typ : Nat) (v : Word) : DWord :=
  match typ with
  | 1 => (v &&& 1).zeroExtend 64
  | 2 => (v &&& 0xFFFF).zeroExtend 64
  | _ => v.zeroExtend 64

/-- One action of sequencer `q`. -/
def stepAction (q act target : Nat) (v : Word) (s : State) : State :=
  match act with
  | 1 => match tagDef target s with
    | some d => if d.writerKind = 3 && d.writerIndex == q then tagStore target (stepValue d.typ v) s
      else sqSay q Code.SQ_NOT_WRITER s
    | none => sqSay q Code.SQ_NOT_WRITER s
  | 2 => if target < 2048 then (loopPutSp target v s).2 else s
  | 3 => if target < 2048 then (loopPutMode target v.toNat s).2 else s
  | 4 =>
    if 4095 < target then s
    else if ttHosts target s then sqSay q Code.TT_NOT_OWNER s
    else if v.getLsbD 0 then ttArm target (onTT target (fun e => { e with w0 := e.w0 ||| 0x80000000 }) s)
    else onTT target ttRetire s
  | 5 => if target < 16 then signalTask target s else s
  | 6 => present (mkRec .sequencer 0 (target % 4096) q (v.zeroExtend 64) s) s
  | _ => s

/-- The entry actions of the working step, in order. -/
def stepActions (q : Nat) (s : State) : State :=
  let l := (seq q s).work
  forAll [6, 8, 10, 12] (fun w => stepAction q (stepBits l w 31 28) (stepBits l w 15 0) (l.getD (w + 1) 0)) s

/-! ### Transitions (R153 to R160) -/

/-- Enter FAULT (R160). -/
def seqFault (q : Nat) (s : State) : State :=
  onSeq q (fun x => { x with st := .fault, heldAt := none }) s |> raiseBit 0x04 ⟨Reg.SQ_FAULT_EV, 0, 32⟩ q
    |> sqSay q Code.SQ_FAULT |> seqMirror q

/-- The position of a tide at an instant of the execution time base, at its present frequency (R154). -/
def posAt (n : Nat) (at_ : Int) (s : State) : DWord :=
  let x := tide n s
  BitVec.ofNat 64 ((x.pos - BitVec.ofInt 96 (Int.tdiv (x.omega * ((execBase s : Int) - at_)) 8)).toNat / 2 ^ 32)

/-- Enter a step in RUN with its nominal entry, and its start position where an angle exit gives one (R149 to R154). -/
def enterStep (q n : Nat) (nominal : Int) (start : Option (Nat × DWord)) (s : State) : State :=
  let l := stepWords q n s
  let pos := match start with
    | some (td, p) => if td = stepTide l then p else posAt (stepTide l) nominal s
    | none => posAt (stepTide l) nominal s
  let s := onSeq q (fun x => { x with
    st := .run, step := n, work := l, nominal := nominal, actual := execBase s, startPos := pos, heldNs := 0, heldAt := none }) s
  if stepBad l s then seqFault q (sqSay q Code.SQ_BAD_STEP s) else stepActions q (seqMirror q s)

/-- Leave for FAULT_NEXT (R154, R156). -/
def toFaultNext (q : Nat) (st : Status) (s : State) : State :=
  let n := stepBits (seq q s).work 0 9 0
  let s := sqSay q st s
  if n = 1023 then seqFault q s else enterStep q n (execBase s) none s

/-- What the evaluation of a running sequencer decides (R152): nothing, DONE, or a step to enter with its status. -/
inductive SeqMove where
  | stay
  | done
  | next
  | lost (st : Status)
  deriving DecidableEq, Repr

def seqMove (x : Seq) (s : State) : SeqMove :=
  if x.st != .run then .stay
  else if exitDue x s then (if stepBits x.work 0 24 24 = 1 then .done else .next)
  else if timeoutDue x s then .lost Code.SQ_TIMEOUT
  else if tideGone x s then .lost Code.SQ_TIDE_LOST
  else .stay

/-- A command is accepted in a state (Table TIDE-29). -/
def cmdOk (st : SeqState) : SeqCmd → Bool
  | .start _ => st == .idle || st == .done || st == .fault
  | .hold => st == .run
  | .resume => st == .held
  | .abort | .jump _ => st == .run || st == .held

/-- Precedence of a command: lower acts first (R158). -/
def cmdRank : SeqCmd → Nat
  | .abort => 0
  | .hold => 1
  | .jump _ => 2
  | .start _ => 3
  | .resume => 4

/-- The command that acts among those accepted: the first of the highest precedence. -/
def cmdPick : List SeqCmd → Option SeqCmd
  | [] => none
  | c :: t => match cmdPick t with
    | some d => if cmdRank d < cmdRank c then some d else some c
    | none => some c

/-- A command acts (Table TIDE-29). -/
def cmdAct (q : Nat) (c : SeqCmd) (s : State) : State :=
  let now : Int := execBase s
  match c with
  | .start n => enterStep q n now none (onSeq q (fun x => { x with signals := 0 }) s)
  | .hold => seqMirror q (onSeq q (fun x => { x with
      st := .held, heldAt := some (execBase s, tidePos (stepTide x.work) s) }) s)
  | .resume => seqMirror q (onSeq q (fun x => match x.heldAt with
      | some (a, p) => { x with
          st := .run, heldAt := none, heldNs := x.heldNs + (execBase s - a), nominal := x.nominal + (now - a)
          startPos := tidePos (stepTide x.work) s - (p - x.startPos) }
      | none => { x with st := .run }) s)
  | .abort => seqMirror q (onSeq q (fun x => { x with st := .idle, heldAt := none }) s)
  | .jump n => enterStep q n now none s

/-- The move of an evaluation takes place; a signal condition clears its bit at the exit (R155). -/
def doMove (q : Nat) (m : SeqMove) (s : State) : State :=
  let x := seq q s
  let clear := fun t => onlyIf (stepCop x.work == 6 && exitKind x.work != 0) (onSeq q (fun y => { y with
    signals := y.signals &&& ~~~BitVec.ofNat 8 (2 ^ stepBits x.work 3 2 0) })) t
  match m with
  | .stay => s
  | .done => clear s |> onSeq q (fun y => { y with st := .done }) |> raiseBit 0x04 ⟨Reg.SQ_DONE_EV, 0, 32⟩ q
      |> sqSay q Code.SQ_DONE |> seqMirror q
  | .next =>
    let nominal : Int := if exitOnTime x s then x.nominal + stepDur x.work else execBase s
    let start := if exitOnAngle x s then some (stepTide x.work, x.startPos + toD (stepAngle x.work)) else none
    enterStep q (stepBits x.work 0 21 12) nominal start (clear s)
  | .lost st => toFaultNext q st s

/-- The state in which pending commands are judged after a move (R159). -/
def moveState (x : Seq) (m : SeqMove) : SeqState :=
  match m with
  | .stay => x.st
  | .done => .done
  | .next => .run
  | .lost _ => if stepBits x.work 0 9 0 = 1023 then .fault else .run

/-- One evaluation of a sequencer (R152, R156, R158, R159). -/
def seqEval (q : Nat) (s : State) : State :=
  let x := seq q s
  let m := seqMove x s
  let s := onlyIf (x.st == .run && exitDue x s && timeoutDue x s) (bump Fld.SQ_CLOSE_CALL_COUNT) s
  let s := onSeq q (fun y => { y with cmds := [] }) s
  let jump := match cmdPick (x.cmds.filter (cmdOk (moveState x m))) with
    | some (.jump _) => (match m with | .next | .lost _ => true | _ => false)
    | _ => false
  let s := if jump then s else doMove q m s
  let st := if jump then .run else (seq q s).st
  let good := x.cmds.filter (cmdOk st)
  let s := forAll (x.cmds.filter (fun c => !cmdOk st c)) (fun _ => sqSay q Code.SQ_CMD_INVALID) s
  let s := forAll (List.range (good.length - 1)) (fun _ t => sqSay q Code.SQ_CMD_DROPPED (bump (Fld.SQs_DROPPED_COUNT q) t)) s
  match cmdPick good with
  | some c => cmdAct q c s
  | none => s

/-- The sequencers run: not on the standby side, and the Field region issues actions (R163, Table ARCH-4). -/
def seqsRun (s : State) : Bool := regionsUp s && !inFallback 2 s && !onStandby s

/-- A command for a sequencer waits for its next evaluation (R158). -/
def seqPut (q : Nat) (c : SeqCmd) (s : State) : State := onSeq q (fun x => { x with cmds := x.cmds ++ [c] }) s

/-- Signal bits accumulate (R158). -/
def seqSignal (q : Nat) (b : Byte) (s : State) : State := onSeq q (fun x => { x with signals := x.signals ||| b }) s

/-- At takeover a sequencer resumes from its mirror record, or enters FAULT (R164, R165). -/
def seqResume (q : Nat) (s : State) : State :=
  let x := seq q s
  match x.mirror with
  | some r =>
    if !x.mirrorOk then seqFault q s
    else
      let nominal : Int := (r.nominal : Int) - (moduleNs s).toNat + execBase s
      let st := seqStateOf r.st
      let held := st == .held
      let s := onSeq q (fun x => { x with
        st := st, step := r.step, work := stepWords q r.step s, nominal := nominal
        actual := nominal + 10000 * (BitVec.ofNat 32 r.actualOff).toInt, startPos := r.pos, heldNs := 10000 * r.held, signals := r.signals
        heldAt := if held then some x.mirrorAt else none
        mirrorOk := false, mirror := none }) s |> sqSay q Code.SQ_RESUMED
      onlyIf ((st == .run || held) && stepBits (seq q s).work 0 23 23 == 1) (stepActions q) s
  | none => seqFault q s

/-- SQs_STATE (Table TIDE-39). -/
def seqStateWord (q : Nat) (s : State) : Word :=
  let x := seq q s
  toW (seqCode x.st * 2 ^ 28 + x.step % 1024 * 2 ^ 16 + x.mirrorOk.toNat * 2 ^ 15 + x.last.toNat)

/-- A command by its OP code and STEP (Table TIDE-29). -/
def seqCmdOf (op step : Nat) : Option SeqCmd :=
  match op with
  | 1 => some (.start step)
  | 2 => some .hold
  | 3 => some .resume
  | 4 => some .abort
  | 5 => some (.jump step)
  | _ => none

end Sys2Proof.Machine
end

