-- ==== Sys2Proof/Machine/ExecOps.lean ====
section
/-! DEFINITION. Releases, latches, slacks, overruns and commits of tasks (R169 to R202), and program faults (R260). -/
namespace Sys2Proof.Machine

/-- A time in whole µs; which way an inexact one is rounded is free (log entry 3). -/
def usOf (ns : Nat) (s : State) : Nat :=
  ns / 1000 + (if ns % 1000 = 0 then 0 else (Config.roundUp s.freeCtr ns).toNat)

/-- The triad executes (R445, R448): its mode is TRIPLEX, PENDING or DUPLEX and the Logic region is not in fallback. -/
def triadRuns (s : State) : Bool :=
  regionsUp s && !inFallback 0 s && [1, 2, 4].contains (fld Fld.TRIAD_STATE_MODE s)
  && fld Fld.EXE_STATE_STATE s != 3

/-- Tasks are released (Table EXE-11, EXE_CTRL.RUN). DEDUCED: log entry 23. -/
def exeRuns (s : State) : Bool :=
  regionsUp s && !inFallback 0 s && fld Fld.EXE_STATE_STATE s != 3 && flag Fld.EXE_CTRL_RUN s
  && decide (3 ≤ power s) && s.exe.image.isSome && inRange (fld Fld.TRIAD_STATE_MODE s) 1 4

/-- No task is in its latch, program or commit phase (R184). -/
def allIdle (s : State) : Bool := s.exe.tasks.all (fun e => e.2.phase == .idle)

/-- A slack action runs over several commands: a resynchronisation, a switchover or the firmware pause (R185). -/
def slackBusy (s : State) : Bool :=
  fld Fld.TRIAD_STATE_MODE s == 3 || s.fwPause
  || (match s.pair.switch with | .sent _ | .released _ => true | _ => false)

/-- ns to the next crossing of a position `a` by a tide, at its present frequency (R184). -/
def crossIn (n : Nat) (a : Word) (either : Bool) (s : State) : Option Nat :=
  let x := tide n s
  let p := x.pos.toNat % 2 ^ 64
  let full := 2 ^ 64
  let ahead := (a.toNat * 2 ^ 32 + full - p - 1) % full + 1
  let behind := (p + full - a.toNat * 2 ^ 32 - 1) % full + 1
  if 0 < x.omega then some (8 * ((ahead + x.omega.natAbs - 1) / x.omega.natAbs))
  else if x.omega < 0 && either then some (8 * ((behind + x.omega.natAbs - 1) / x.omega.natAbs))
  else none

/-- The interval of timer releases in ns (R175); before any measured interval the nominal period is taken. DEDUCED: log entry 23. -/
def timerInterval (d : TaskDef) (x : Task) : Nat :=
  max 100000 (min 10000000000 (if x.interval = 0 then 1000 * d.period else x.interval))

/-- ns to the predicted next release of a cyclic task (R184). -/
def nextRelease (t : Nat) (s : State) : Option Nat :=
  match taskDef t s with
  | none => none
  | some d =>
    let x := task t s
    if d.kind != 1 then none
    else if x.held != .no then some 0
    else if tideAllows d.hold (tide d.tide s).st then crossIn d.tide (x.angle.getD d.angle) d.either s
    else some (x.lastRelease + timerInterval d x - nowNs s)

/-- The predicted length of the present slack in ns; none when no release is predicted (R184). -/
def slackLen (s : State) : Option Nat :=
  if !exeRuns s then none
  else ((List.range 8).filterMap (fun t => nextRelease t s)).foldl
    (fun m x => some (match m with | none => x | some y => min x y)) none

/-- A slack is open that offers the need in ns (R185); a standby side acts in the slack of its partner (R480). DEDUCED: log entry 23. -/
def slackRoom (need : Nat) (s : State) : Bool :=
  allIdle s && !slackBusy s && (onStandby s || match slackLen s with | none => true | some l => decide (need + 10000 ≤ l))

/-- The fenced core whose resynchronisation may start in the present slack (R448, R450). DEDUCED: log entry 23. -/
def resyncDue (s : State) : Option Nat :=
  if fld Fld.TRIAD_STATE_MODE s != 2 || !slackRoom 150000 s then none
  else if s.triad.fails.any (fun e => decide (s.exe.slackSince < e.2 + 1000000000)) then none
  else (List.range 3).find? (fun c => (fld Fld.TRIAD_STATE_FENCED s).testBit c)

/-- A slack action with its need in ns may start; a resynchronisation that waits for the slack is taken first (R451). -/
def slackFits (need : Nat) (s : State) : Bool := slackRoom need s && (resyncDue s).isNone

/-- The slack ends: its length is recorded (Table EXE-15). -/
def slackEnd (s : State) : State :=
  if allIdle s then setFld Fld.EXE_SLACK_LAST_US (min (usOf (nowNs s - s.exe.slackSince) s) 0xFFFF) s else s

/-- The slack begins when the last phase has ended; the mirror records of a slack go out (R163, R470). -/
def slackBegin (s : State) : State :=
  if allIdle s then slackMirror { s with exe := { s.exe with slackSince := nowNs s } } else s

/-! ### Faults -/

/-- R201: an overrun; `kind` 0 is the watchdog and 1 a release before the commit. -/
def overrun (t kind : Nat) (s : State) : State :=
  if inFallback 0 s then s
  else s |> wr Reg.EXE_OVERRUN (toW (2 ^ 31 + kind * 2 ^ 30 + t)) |> raiseF 0x03 Fld.EXE_EVENT_OVERRUN
    |> sayD Code.EXE_OVERRUN (toD (kind * 256 + t)) |> enterFallback 0 Code.EXE_OVERRUN

/-- R260: a program fault of a task at its present instruction; on a standby side R482. -/
def progFault (st : Status) (t : Nat) (s : State) : State :=
  s |> sayD st (toD (t * 2 ^ 32 + (task t s).pc))
    |> onlyIf (onStandby s) (fun u => u |> raiseF 0x0A Fld.PAIR_EVENT_STANDBY_FAULT |> say Code.PAIR_STANDBY_FAULT)
    |> enterFallback 0 st

/-! ### Which task runs (R170, R171) -/

/-- A task waits for the triad: its program phase has not begun, or it is preempted. -/
def wantsCore (x : Task) : Bool := x.phase == .ready || x.phase == .preempted

def taskPrio (t : Nat) (s : State) : Nat := ((taskDef t s).map (·.prio)).getD 32

/-- The task of the highest priority that waits for the triad; the lower number first (R170). -/
def nextTask (s : State) : Option Nat :=
  (List.range 24).foldl (fun m t =>
    if !wantsCore (task t s) then m
    else match m with
      | none => some t
      | some u => if taskPrio t s < taskPrio u s then some t else some u) none

/-- A task runs. -/
def runTask (t : Nat) (s : State) : State :=
  let was := (task t s).phase
  let s := onTask t (fun x => { x with phase := .run }) { s with exe := { s.exe with running := some t } }
  onlyIf (was == .preempted) (cwStep 2 [toD (t + 2 ^ 63), toD (task t s).points]) s

/-- With the triad free, the next task runs. -/
def startNext (s : State) : State :=
  match s.exe.running with
  | some _ => s
  | none => match nextTask s with
    | some t => runTask t s
    | none => s

/-- The running task is preempted (R171); the standby side learns the count (R477). -/
def preempt (s : State) : State :=
  match s.exe.running with
  | none => s
  | some t =>
    onTask t (fun x => { x with phase := .preempted }) { s with exe := { s.exe with running := none } }
      |> cwStep 2 [toD t, toD (task t s).points] |> startNext

/-! ### Release and latch -/

/-- Tags of a list in ascending order. -/
def tagOrder (l : List Tag) : List Nat := (l.foldl (fun m t => Sparse.insert m t.toNat ()) []).map (·.1)

/-- The local input cells of a task as they stand (R180). -/
def snapshot (d : TaskDef) (s : State) : List (Nat × Sample) :=
  (tagOrder d.inputs).filterMap (fun t =>
    if (tagDef t s).any (fun e => e.locKind == 1) then some (t, tagLive t s) else none)

/-- Registers, flags, return stack and program counter at a release (R224). -/
def freshTask (d : TaskDef) (x : Task) : Task :=
  { x with k := [], flags := {}, stack := [], wait := .none, pc := d.entry, points := 0 }

/-- A task is released with the release instant `at_` in ns since module reset (R173, R180). -/
def releaseTask (t at_ : Nat) (s : State) : State :=
  match taskDef t s with
  | none => s
  | some d =>
    let s := onlyIf (d.kind == 2 && d.src == 4) (bellToTag d.index) (slackEnd s)
    let snap := snapshot d s
    onTask t (fun x => { freshTask d x with
      phase := .latch, held := .no, released := true, pending := x.pending && d.kind == 1
      interval := if x.released then at_ - x.lastRelease else x.interval
      lastRelease := at_, cycleTime := ((at_ : Int) + s.exe.base).toNat, snap := snap, inHdr := x.inHdr + 1 }) s

/-- A release is due now (R174, R185, R200); in the firmware pause a second one is skipped (R656). DEDUCED: log entry 23. -/
def dueRelease (t : Nat) (s : State) : State :=
  let x := task t s
  let slackHeld := match x.held with | .slack _ => true | _ => false
  if s.fwPause && slackHeld then { s with fwu := { s.fwu with skipped := s.fwu.skipped + 1 } }
  else if x.phase != .idle || slackHeld then overrun t 1 s
  else if x.held == .gap then s
  else if x.released && decide (nowNs s < x.lastRelease + 100000) then onTask t (fun y => { y with held := .gap }) s
  else if slackBusy s then onTask t (fun y => { y with held := .slack (nowNs s) }) s
  else releaseTask t (nowNs s) s

/-- A held release comes when what holds it has ended (R174, R185). DEDUCED: log entry 23. -/
def heldRelease (t : Nat) (s : State) : State :=
  let x := task t s
  if !exeRuns s || onStandby s then s
  else match x.held with
  | .no => s
  | .gap =>
    if nowNs s < x.lastRelease + 100000 then s
    else if slackBusy s then onTask t (fun y => { y with held := .slack (nowNs s) }) s
    else releaseTask t (nowNs s) s
  | .slack a => if slackBusy s then s else releaseTask t a s

/-- What the input latch takes for a tag (R180, R192). -/
def latchTag (t : Nat) (x : Task) (s : State) : Sample :=
  let v := (Sparse.find x.snap t).getD (tagLive t s)
  match forceOf t s with
  | some f => { v with val := f }
  | none => v

/-- The RELEASE record of a task (R476). -/
def releaseRecord (t : Nat) (s : State) : List DWord :=
  let x := task t s
  [toD (t + x.cycles * 2 ^ 8), toD x.cycleTime, (x.angle.getD 0).zeroExtend 64]
  ++ x.input.flatMap (fun e => [toD (e.1 + e.2.stale.toNat * 2 ^ 16 + e.2.invalid.toNat * 2 ^ 17), e.2.val])

/-- The input image is complete, and the program phase can begin (R180). -/
def latchDone (t : Nat) (s : State) : State :=
  match taskDef t s with
  | none => s
  | some d =>
    let s' := onTask t (fun x => { x with
      phase := .ready, inHdr := x.inHdr + 1, input := (tagOrder d.inputs).map (fun g => (g, latchTag g x s)), snap := [] }) s
    s' |> cwMirror 1 (releaseRecord t s') |> startNext

/-! ### Output commit -/

/-- The output image of a task in tag order (R182, R603). -/
def outImage (t : Nat) (s : State) : List (Nat × DWord) :=
  match taskDef t s with
  | none => []
  | some d => (tagOrder d.outputs).map (fun g =>
      (g, (Sparse.find (task t s).output g).getD (((tagDef g s).map (·.init)).getD 0)))

/-- CRC-32C of an output image in tag order (R485). -/
def outCrc (l : List (Nat × DWord)) : Word := crc32c 0 (l.flatMap (fun e => leBytes 8 e.2.toNat))

/-- Remember a commit for the comparison of R485. DEDUCED: log entry 34. -/
def noteCommit (t : Nat) (crc : Word) (s : State) : State :=
  if !(mirroring s || pairState s == 4) then s
  else
    let c := { task := t, cycle := (task t s).cycles, crc := crc, since := fld Fld.TRIAD_HEALTH_SINCE s, at_ := nowNs s }
    onlyIf (pairState s == 4 || peerState s == 4)
      (fun t => { t with pair := { t.pair with mine := (c :: t.pair.mine).take 256 } }) s
      |> cwSend 4 [toD t, toD (task t s).cycles, crc.zeroExtend 64, toD (fld Fld.TRIAD_HEALTH_SINCE s)]

/-- The output image reaches the cells and the commit completes (R182, R454). -/
def commitTask (t : Nat) (s : State) : State :=
  let img := outImage t s
  let us := usOf (nowNs s - (task t s).lastRelease) s
  s |> forAll img (fun e => tagStore e.1 e.2) |> bump Fld.TRIAD_HEALTH_SINCE
    |> noteCommit t (outCrc img)
    |> onTask t (fun x => { x with phase := .idle, cycles := x.cycles + 1, outHdr := x.outHdr + 2, output := img })
    |> setFld (Fld.TASKt_EXEC_US t) (min us 0xFFFFFF)
    |> setFld (Fld.TASKt_EXEC_MAX_US t) (max (fld (Fld.TASKt_EXEC_MAX_US t) s) (min us 0xFFFFFF))
    |> setFld (Fld.TASKt_COUNTS_CYCLES t) ((fld (Fld.TASKt_COUNTS_CYCLES t) s + 1) % 65536)
    |> gooseCommit t |> canCommit t
    |> slackBegin

end Sys2Proof.Machine
end

