-- ==== Sys2Proof/Machine/Rfx.lean ====
section
/-! DEFINITION. The reflex matrix (R334 to R346). -/
namespace Sys2Proof.Machine

def Term.w (x : Term) (i : Nat) : Word := x.desc.getD i 0
def Term.latching (x : Term) : Bool := (x.w 0).getLsbD 30
def Term.resetDom (x : Term) : Bool := (x.w 0).getLsbD 29
def Term.armEn (x : Term) : Bool := (x.w 0).getLsbD 28
def Term.resetEn (x : Term) : Bool := (x.w 0).getLsbD 27
def Term.armTag (x : Term) : Nat := (x.w 0).toNat % 65536
def Term.resetTag (x : Term) : Nat := (x.w 1).toNat / 65536
/-- Input selector i (Table RFX-1). -/
def Term.sel (x : Term) (i : Nat) : Nat := (x.w (2 + i / 4)).toNat / 2 ^ (8 * (i % 4)) % 256

/-- An input of a term (Table RFX-2). -/
def rfxInput (c : Nat) (s : State) : Bool :=
  if c < 32 then (dioCh c s).filt
  else if inRange c 0x20 0x23 then !(dioBank (c - 0x20) s).low
  else if inRange c 0x40 0x7F then (term (c - 0x40) s).out
  else false

/-- The index of the truth table (R336). -/
def rfxIndex (x : Term) (s : State) : Nat :=
  (List.range 8).foldl (fun w i => w + (rfxInput (x.sel i) s).toNat * 2 ^ i) 0

/-- A term is armed (R337, R342). -/
def rfxArmed (x : Term) (s : State) : Bool := !x.lost && (!x.armEn || tagTrue x.armTag s)

/-- One evaluation of a term from the state `s` of the cycle; `cmd` is RESET_LATCH (R336, R337). -/
def rfxStep (x : Term) (cmd : Bool) (s : State) : Term :=
  if !termOn x then { x with out := false }
  else
    let i := rfxIndex x s
    let armed := rfxArmed x s
    let f := armed && (x.w (4 + i / 32)).getLsbD (i % 32)
    let r := (x.resetEn && tagTrue x.resetTag s) || cmd
    if !x.latching then { x with out := f }
    else
      let l := armed && (if x.resetDom then (x.latch || f) && !r else f || (x.latch && !r))
      { x with latch := l, out := l }

/-- Record what a term's evaluation shows (R343): `s` is the state of the cycle. -/
def rfxReport (j : Nat) (x y : Term) (s t : State) : State :=
  let t := if y.out && !x.out then
      t |> setBitAt (if j < 32 then Reg.RFX_FIRED_LO else Reg.RFX_FIRED_HI) (j % 32) true
        |> raiseF 0x08 Fld.RFX_EVENT_FIRED |> sayD Code.RFX_FIRED (toD (j * 256 + rfxIndex x s))
    else t
  onlyIf (x.latch && !y.latch && termOn x && rfxArmed x s) (say Code.RFX_LATCH_RESET) t

/-- Evaluate one term. -/
def rfxTerm (j : Nat) (cmd : Bool) (s t : State) : State :=
  let x := term j s
  let y := rfxStep x cmd s
  if y = x then t else rfxReport j x y s (onTerm j (fun _ => y) t)

def rfxRuns (s : State) : Bool := regionsUp s && flag Fld.RFX_CTRL_RUN s && !s.rfxStopped

/-- Every term of one CD_FABRIC cycle, each from the outputs of the cycle before (R339). -/
def rfxCycle (s : State) : State :=
  if rfxRuns s then forAll (s.terms.map (·.1)) (fun j t => rfxTerm j false s t) s else s

/-- RFX_CRC: the CRC-32C of the 64 descriptors (R341, R344). -/
def rfxCrc (s : State) : Word :=
  crc32c 0 ((List.range 64).flatMap (fun j => (List.range 16).flatMap (fun i => leBytes 4 ((term j s).w i).toNat)))

def rfxSel (s : State) : Nat := fld Fld.RFX_SEL_TERM s

/-- The checks of R335. -/
def rfxCheck (x : Term) (s : State) : Option Status :=
  let selOk := fun c => decide (c < 0x24) || inRange c 0x40 0x7F || c == 0xFF
  if !(List.range 8).all (fun i => selOk (x.sel i)) then some Code.RFX_CFG_BAD
  else if !(termLinks x).all (fun l => (decide (l.1 < 32) && dioDir l.1 s) || inRange l.1 0x100 0x103) then some Code.RFX_TARGET_BAD
  else if (x.armEn && !boolMemTag x.armTag s) || (x.resetEn && !boolMemTag x.resetTag s) then some Code.RFX_TAG_BAD
  else none

/-- R341, R335: WRITE. -/
def execRfxWrite (s : State) : Host.Outcome State Fault Refusal :=
  .next (hostCmd Reg.RFX_CMD (fun s =>
    let j := rfxSel s
    let x : Term := { desc := (List.range 16).map (fun i => rd (Reg.RFX_DATA i) s), out := (term j s).out }
    match rfxCheck x s with
    | some st => result Fld.RFX_RESULT_STATUS st (raiseF 0x08 Fld.RFX_EVENT_CFG_REFUSED s)
    | none =>
      let t := onTerm j (fun _ => x) s
      result Fld.RFX_RESULT_STATUS Code.RFX_OK (wr Reg.RFX_CRC (rfxCrc t) t)) s)

/-- R334: READ. -/
def execRfxRead (s : State) : Host.Outcome State Fault Refusal :=
  .next (hostCmd Reg.RFX_CMD (fun s =>
    let x := term (rfxSel s) s
    result Fld.RFX_RESULT_STATUS Code.RFX_OK (forAll (List.range 16) (fun i => wr (Reg.RFX_DATA i) (x.w i)) s)) s)

/-- R341: DISABLE. -/
def execRfxDisable (s : State) : Host.Outcome State Fault Refusal :=
  .next (hostCmd Reg.RFX_CMD (fun s =>
    let t := onTerm (rfxSel s) (fun x => { x with
      desc := if x.desc.isEmpty then [] else (x.w 0 &&& ~~~ bitMask 31) :: x.desc.drop 1
      latch := false
      out := false }) s
    result Fld.RFX_RESULT_STATUS Code.RFX_OK (wr Reg.RFX_CRC (rfxCrc t) t)) s)

/-- R336: RESET_LATCH gives R for one cycle of the term. -/
def execRfxResetLatch (s : State) : Host.Outcome State Fault Refusal :=
  .next (hostCmd Reg.RFX_CMD (fun s =>
    result Fld.RFX_RESULT_STATUS Code.RFX_OK (onlyIf (rfxRuns s) (rfxTerm (rfxSel s) true s) s)) s)

/-- R344: the descriptor check; `ok` says whether the recomputed CRC equals RFX_CRC. -/
def execRfxCrcCheck (ok : Bool) (s : State) : Host.Outcome State Fault Refusal :=
  .next (if !regionsUp s || ok || s.rfxStopped then s
    else
      { s with rfxStopped := true } |> raiseF 0x08 Fld.RFX_EVENT_CHECK_FAIL |> say Code.RFX_CHECK_FAIL
        |> enterFallback 2 Code.RFX_CHECK_FAIL)

/-- R346: a standby sets every latch that the active side's latch word shows. -/
def execReflexRecord (latches : BitVec 64) (s : State) : Host.Outcome State Fault Refusal :=
  .next (if regionsUp s && onStandby s then
      forAll ((List.range 64).filter (fun j => latches.getLsbD j)) (fun j => onTerm j (fun x => { x with latch := true })) s
    else s)

/-- R342: the check of every enabled term's tags at an image swap. -/
def rfxSwapCheck (s : State) : State :=
  forAll (s.terms.filter (fun e => termOn e.2 && ((e.2.armEn && !boolMemTag e.2.armTag s)
      || (e.2.resetEn && !boolMemTag e.2.resetTag s)))) (fun e t =>
    t |> onTerm e.1 (fun x => { x with lost := true, latch := false }) |> raiseF 0x08 Fld.RFX_EVENT_TAG_LOST
      |> say Code.RFX_TAG_LOST) s

end Sys2Proof.Machine
end

