-- ==== Sys2Proof/Machine/Image.lean ====
section
/-! DEFINITION. Images: the checks of VERIFY (R206), the switch of images (R207 to R215), values-only changes (R216),
forces (R191) and host tag writes (R190). -/
namespace Sys2Proof.Machine

/-! ### The checks of VERIFY (R206) -/

/-- A task definition breaks check 3. -/
def taskBad (t : Nat) (d : TaskDef) : Bool :=
  (d.kind == 1 && decide (8 ≤ t)) || (d.kind == 2 && (decide (t < 8) || decide (24 ≤ t))) || decide (2 < d.kind)
  || !inRange d.wdog 100 10000000 || decide (31 < d.prio)
  || (d.kind == 1 && (!inRange d.period 100 10000000 || decide (2 < d.hold)))
  || (d.kind == 2 && (decide (4 < d.src) || ((d.src == 1 || d.src == 2) && decide (31 < d.index))
      || (d.src == 3 && decide (15 < d.index)) || (d.src == 4 && decide (23 < d.index))))

/-- Check 3: tasks and stations (R194, R206). -/
def tasksBad (m : Image) : Bool :=
  m.tasks.any (fun e => e.2.kind != 0 && taskBad e.1 e.2)
  || m.stations.any (fun e => decide (63 < e.1) || !inRange e.2.staleLimit 1 255
      || !(Sparse.find m.tasks e.2.task).any (fun d => d.kind == 1))
  || !(m.stations.map (·.1)).Nodup

/-- The type that a local cell requires (Table EXE-4); none for a code that is not listed. -/
def cellType (c : Nat) : Option Nat :=
  if c < 32 || inRange c 0x100 0x103 || inRange c 0x300 0x30F || inRange c 0x400 0x407 then some 1
  else if inRange c 0x200 0x20F then some 5
  else none

def statusCell (c : Nat) : Bool := inRange c 0x300 0x30F || inRange c 0x400 0x407

/-- A directory entry breaks check 4 (R188). -/
def tagBad (d : TagDef) : Bool :=
  let c := d.location.toNat % 65536
  d.typ != 0 && (decide (9 < d.typ) || decide (2 < d.locKind) || decide (4 < d.writerKind)
    || (d.writerKind == 1 && decide (23 < d.writerIndex)) || (d.writerKind == 2 && decide (2047 < d.writerIndex))
    || (d.writerKind == 3 && decide (31 < d.writerIndex))
    || (d.locKind == 0 && (d.location.toNat % 8 != 0 || decide (0x80000 ≤ d.location.toNat)))
    || (d.locKind == 1 && (cellType c != some d.typ || (statusCell c && (d.output || d.writerKind != 0)))))

/-- The tags that a task writes. -/
def taskOutputs (m : Image) : List (Nat × Nat) :=
  m.tasks.flatMap (fun e => if e.2.kind = 0 then [] else e.2.outputs.map (fun g => (e.1, g.toNat)))

/-- Where an output tag drives: the cell, or the station with its offset. -/
def outPlace (d : TagDef) : Nat × Nat := (d.locKind, if d.locKind = 1 then d.location.toNat % 65536
  else d.location.toNat / 2 ^ 26 * 65536 + d.location.toNat % 65536)

/-- Check 5: a breach of R189. -/
def writersBad (m : Image) : Bool :=
  let outs := taskOutputs m
  let drives := m.tags.filter (fun e => e.2.typ != 0 && e.2.output)
  drives.any (fun e => e.2.writerKind == 0)
  || !((drives.filter (fun e => e.2.locKind != 0)).map (fun e => outPlace e.2)).Nodup
  || !(outs.map (·.2)).Nodup
  || outs.any (fun o => !(Sparse.find m.tags o.2).any (fun d => d.writerKind == 1 && d.writerIndex == o.1))
  || m.tags.any (fun e => e.2.typ != 0 && e.2.locKind != 0 && e.2.writerKind == 1 && !outs.contains (e.2.writerIndex, e.1))

/-- Colours of the memory-only tags by granule of tag memory (R609). -/
def coloursBad (m : Image) : Bool :=
  let mem := m.tags.filter (fun e => e.2.typ != 0 && e.2.locKind == 0)
  mem.any (fun a => mem.any (fun b => a.2.location.toNat / 64 == b.2.location.toNat / 64 && a.2.colour != b.2.colour))

/-- The status of the first check of R206 that fails. `sound` is the outcome of check 1 and `legal` of the checks of
code and instances in check 6, which need the binary image. -/
def imageStatus (m : Image) (sound legal : Bool) : Option Status :=
  if !sound then some Code.EXE_IMAGE_BAD
  else if 4194304 < m.codeLen then some Code.EXE_IMAGE_TOO_LARGE
  else if tasksBad m then some Code.EXE_TASK_CFG
  else if m.tags.any (fun e => tagBad e.2) then some Code.EXE_TAG_TYPE
  else if writersBad m then some Code.EXE_WRITER_CONFLICT
  else if !legal || coloursBad m then some Code.EXE_IMAGE_BAD
  else none

/-! ### Carry-over -/

/-- Tags that exist in both images with the same TYPE (R208). -/
def tagsCarried (old new : Image) : List Nat :=
  (new.tags.filter (fun e => e.2.typ != 0 && (Sparse.find old.tags e.1).any (fun d => d.typ == e.2.typ))).map (·.1)

/-- Tags of both images whose TYPE differs (R209). -/
def tagsReset (old new : Image) : List Nat :=
  (new.tags.filter (fun e => e.2.typ != 0
    && (Sparse.find old.tags e.1).any (fun d => d.typ != 0 && d.typ != e.2.typ))).map (·.1)

/-- Pairs of old and new index of the instances that carry over (R211). -/
def instCarried (old new : List (Nat × InstDef)) : List (Nat × Nat) :=
  new.filterMap (fun n => (old.find? (fun o => o.2.key == n.2.key && o.2.kind == n.2.kind)).map (fun o => (o.1, n.1)))

/-- NEED_US of a switch (R208). -/
def needUs (old new : Image) : Nat :=
  let n := (instCarried old.timers new.timers).length + (instCarried old.counters new.counters).length
    + (instCarried old.edges new.edges).length
  (20000 + 8 * (tagsCarried old new).length + 16 * n + 999) / 1000

/-- Move carried instances to their new index. -/
def moveInst {α : Type} (m : List (Nat × Nat)) (l : List (Nat × α)) : List (Nat × α) :=
  m.foldl (fun t p => match Sparse.find l p.1 with | some v => Sparse.insert t p.2 v | none => t) []

/-- The counters of an image: those carried, and the others at their initial values (R213). -/
def newCounters (carried : List (Nat × Counter)) (m : Image) : List (Nat × Counter) :=
  m.counters.foldl (fun t e => Sparse.set (fun _ => {}) t e.1
    ((Sparse.find carried e.1).getD { cv := e.2.init, prev := [], inited := false })) []

/-- The underlying value of a tag before a switch. -/
def oldValue (g : Nat) (s : State) : DWord := (tagLive g s).val

/-- A memory-only tag's colour is painted on its granule of tag memory (R609, R618). -/
def paintTags (m : Image) (s : State) : State :=
  let mem := m.tags.filter (fun e => e.2.typ != 0 && e.2.locKind == 0)
  let ranges := (mem.map (fun e => ((0x0A000000 + e.2.location.toNat) / 64, e.2.colour))).eraseDups
  { s with mpu := { s.mpu with colours := ranges.map (fun r => (r.1, r.1, r.2)) ++ s.mpu.colours } }
    |> setFld ⟨Reg.MPU_EPOCH, 0, 32⟩ ((rd Reg.MPU_EPOCH s).toNat + 1)

/-- A task's run-time state under a new image: a cyclic task of the same tide keeps its release angle and history
(R209, R214; log entry 16). -/
def carryTask (old new : Image) (carry : Bool) (keep : List Nat) (t : Nat) (x : Task) : Task :=
  match Sparse.find old.tasks t, Sparse.find new.tasks t with
  | some a, some b =>
    if !carry || a.kind != b.kind then {}
    else
      let keepAngle := a.kind == 1 && a.tide == b.tide
      { ({} : Task) with
        pending := x.pending, cycles := x.cycles, inHdr := x.inHdr, outHdr := x.outHdr
        angle := if keepAngle then x.angle else none, freerun := keepAngle && x.freerun
        released := keepAngle && x.released, lastRelease := if keepAngle then x.lastRelease else 0
        interval := if keepAngle then x.interval else 0
        input := x.input.filter (fun e => keep.contains e.1) }
  | _, _ => {}

/-- The output image of a task after a switch: the values of its output tags (R209). -/
def startOutputs (m : Image) (val : Nat → DWord) (t : Nat) : List (Nat × DWord) :=
  match Sparse.find m.tasks t with
  | none => []
  | some d => (tagOrder d.outputs).map (fun g => (g, val g))

/-- The value of a tag after a switch (R209). -/
def newValue (keep : List Nat) (m : Image) (s : State) (g : Nat) : DWord :=
  if keep.contains g then oldValue g s else ((Sparse.find m.tags g).map (·.init)).getD 0

/-- What the program-class writers present after a switch: each output cell or remote output that has a writer keeps
the value it has (R214). -/
def newCommitted (m : Image) (old : Option Image) (s : State) : List (Nat × DWord) :=
  (m.tags.filter (fun e => e.2.typ != 0 && e.2.output && e.2.locKind != 0)).foldl (fun l e =>
    match old.bind (fun o => o.tags.find? (fun d => d.2.typ != 0 && d.2.output && outPlace d.2 == outPlace e.2)) with
    | none => l
    | some d => match Sparse.find s.exe.committed d.1 with
      | none => l
      | some v => Sparse.insert l e.1 v) []

/-- The forces that survive a switch (R210). DEDUCED: log entry 24. -/
def forcesKept (old : Option Image) (m : Image) (s : State) : List (Nat × Nat × DWord) :=
  s.exe.forces.filter (fun f => (Sparse.find m.tags f.2.1).any (fun d => d.typ != 0
    && (old.bind (fun o => Sparse.find o.tags f.2.1)).any (fun e => e.typ == d.typ)))

/-- Report forces dropped and types reset in a switch (R209, R210). -/
def reportDrops (dropped reset : List Nat) (s : State) : State :=
  s |> wr Reg.EXE_CHANGE_DROPS (toW (min dropped.length 65535 * 65536 + min reset.length 65535))
    |> forAll dropped (fun g t => t |> raiseF 0x03 Fld.EXE_EVENT_FORCE_DROPPED |> sayD Code.EXE_FORCE_DROPPED (toD g))
    |> forAll reset (fun g t => sayD Code.EXE_TYPE_RESET (toD g) t)

/-- Switch to image `m` (R207 to R215); `carry` is false while EXE_CTRL.RUN is 0. -/
def switchTo (m : Image) (carry : Bool) (s : State) : State :=
  let old := s.exe.image
  let none' : Image := ⟨0, 0, 0, [], [], [], [], [], [], [], [], 0, []⟩
  let o := old.getD none'
  let keep := if carry then tagsCarried o m else []
  let val := newValue keep m s
  let forces := forcesKept old m s
  let dropped := (s.exe.forces.filter (fun f => !forces.contains f)).map (·.2.1)
  let mem := (m.tags.filter (fun e => e.2.typ != 0 && e.2.locKind == 0)).foldl
    (fun l e => Sparse.set (fun _ => 0) l (e.2.location.toNat / 8) (val e.1)) []
  let map := fun (a b : List (Nat × InstDef)) => if carry then instCarried a b else []
  let tasks := m.tasks.foldl (fun l e => Sparse.set (fun _ => {}) l e.1
    { carryTask o m carry keep e.1 (task e.1 s) with output := startOutputs m val e.1 }) []
  let exe := { s.exe with
    image := some m, previous := old, inactive := none, area := !s.exe.area, running := none
    tasks := tasks, forces := forces, tagMem := mem
    committed := newCommitted m old s
    remote := s.exe.remote.filter (fun e => keep.contains e.1)
    flags := s.exe.flags.filter (fun e => keep.contains e.1)
    stations := s.exe.stations.filter (fun e => (Sparse.find m.stations e.1).isSome)
    timers := moveInst (map o.timers m.timers) s.exe.timers
    counters := newCounters (moveInst (map o.counters m.counters) s.exe.counters) m
    edges := moveInst (map o.edges m.edges) s.exe.edges
    slackSince := nowNs s }
  { s with exe := exe }
    |> wr Reg.EXE_IMAGE_GEN m.gen |> wr Reg.EXE_IMAGE_CRC m.crc |> setFlag Fld.MOD_STATUS_PROGRAM_OK true
    |> paintTags m |> reportDrops dropped (if carry then tagsReset o m else [])
    |> rfxSwapCheck |> gseSwapCheck |> loopSwapCheck |> canSwapCheck |> forAll (List.range 4) dioReenTag

/-! ### Online change (R203 to R217) -/

/-- Set the status of the last operation; one other than success is reported. -/
def changeResult (st : Status) (s : State) : State := result Fld.EXE_CHANGE_STATUS_STATUS st s

/-- A refused operation (R205, R206). -/
def changeRefuse (st : Status) (s : State) : State :=
  s |> raiseF 0x03 Fld.EXE_EVENT_CHANGE_REFUSED |> changeResult st

/-- A command that a standby side refuses (R479). -/
def standbyRefuse (f : RegField) (s : State) : State :=
  s |> raiseF 0x0A Fld.PAIR_EVENT_CMD_REFUSED |> result f Code.PAIR_STANDBY_REFUSED

/-- A change operation of the host: ignored while BUSY, refused on a standby side (R204, R479). -/
def changeOp (f : State → State) (s : State) : State :=
  hostCmd Reg.EXE_CHANGE_CMD (fun s =>
    if s.exe.busy != .none then s
    else if onStandby s then
      standbyRefuse Fld.EXE_CHANGE_STATUS_STATUS (raiseF 0x03 Fld.EXE_EVENT_CHANGE_REFUSED s)
    else f s) s

/-- Start an operation that is checked or waits for a slack. -/
def changeStart (b : ChangeBusy) (ph : ChangePhase) (need : Nat) (s : State) : State :=
  { s with exe := { s.exe with busy := b, savedPhase := s.exe.phase, phase := ph, needUs := need } }

/-- End an operation in a phase. -/
def changeEnd (ph : ChangePhase) (st : Status) (s : State) : State :=
  { s with exe := { s.exe with busy := .none, phase := ph } } |> changeResult st

/-- An image switch or a values list took effect. -/
def changeDone (ph : ChangePhase) (st : Status) (s : State) : State :=
  s |> raiseF 0x03 Fld.EXE_EVENT_CHANGE_DONE |> changeEnd ph st

/-- R208: the switch to the verified image. -/
def doSwap (carry : Bool) (s : State) : State :=
  match s.exe.inactive with
  | none => s
  | some m => changeDone .swapped Code.EXE_CHANGE_DONE (switchTo m carry s)

/-- R215: the switch back; the image left is discarded and PHASE is NONE (log entry 17). -/
def doRevert (carry : Bool) (s : State) : State :=
  match s.exe.previous with
  | none => s
  | some m =>
    let t := switchTo m carry s
    changeDone .none Code.EXE_CHANGE_REVERTED { t with exe := { t.exe with previous := none } }

/-- Tell the partner of an accepted change operation (R501). -/
def changeTell (op : Nat) (s : State) : State := cwMirror 12 [toD 3, toD op] s

/-- R206: VERIFY. -/
def execChangeVerify (s : State) : Host.Outcome State Fault Refusal :=
  .next (hostCmd Reg.EXE_CHANGE_CMD (fun s =>
    if s.exe.busy != .none then s
    else if !(s.exe.phase == .none || s.exe.phase == .swapped) then changeRefuse Code.EXE_CHANGE_INVALID s
    else if flag Fld.EXE_CFG_CHANGE_MODE s then changeRefuse Code.EXE_MODE_REFUSED s
    else changeStart .verify s.exe.phase 0 s) s)

/-- Load an image's initial data-area content into the DRAM of the inactive area (R215). -/
def loadData (m : Image) (s : State) : State :=
  let base := if s.exe.area then 0x02000000 else 0x06000000
  let code := if s.exe.area then 0 else 0x01000000
  forAll m.data (fun e => mset (base + e.1) e.2) (mclear base 0x04000000 (mclear code 0x01000000 s))

/-- R206: the check of VERIFY ends. DEDUCED: log entry 24. -/
def execChangeVerifyDone (img : Image) (sound legal : Bool) (s : State) : Host.Outcome State Fault Refusal :=
  .next (if !regionsUp s || s.exe.busy != .verify then s
    else match imageStatus img sound legal with
      | some st => changeRefuse st { s with exe := { s.exe with busy := .none } }
      | none =>
        { s with exe := { s.exe with inactive := some img, previous := none } } |> loadData img
          |> changeEnd .verified Code.EXE_OK |> cwSend 12 [toD 4, img.crc.zeroExtend 64])

/-- The partner mirrors the program and has not verified the same image (R501). -/
def imageDiffers (m : Image) (s : State) : Bool :=
  pairState s == 1 && inRange (peerState s) 3 4 && s.pair.peerVerified != some m.crc

/-- R207, R208: ARM. -/
def execChangeArm (s : State) : Host.Outcome State Fault Refusal :=
  .next (changeOp (fun s =>
    match s.exe.phase, s.exe.inactive with
    | .verified, some m =>
      if imageDiffers m s then changeRefuse Code.PAIR_IMAGE_DIFF s
      else if !flag Fld.EXE_CTRL_RUN s then changeTell 2 (doSwap false s)
      else
        let need := match s.exe.image with | some o => needUs o m | none => 20
        s |> changeStart .swap .armed need |> setFld Fld.EXE_CHANGE_STATUS_STATUS Code.EXE_OK.toNat |> changeTell 2
    | _, _ => changeRefuse Code.EXE_CHANGE_INVALID s) s)

/-- R204: CANCEL; `switching` says that the switch has started in its slack. -/
def execChangeCancel (switching : Bool) (s : State) : Host.Outcome State Fault Refusal :=
  .next (hostCmd Reg.EXE_CHANGE_CMD (fun s =>
    if onStandby s then
      standbyRefuse Fld.EXE_CHANGE_STATUS_STATUS (raiseF 0x03 Fld.EXE_EVENT_CHANGE_REFUSED s)
    else match s.exe.busy with
    | .none =>
      if s.exe.phase == .verified then
        changeEnd .none Code.EXE_CHANGE_CANCELLED { s with exe := { s.exe with inactive := none } }
      else changeRefuse Code.EXE_CHANGE_INVALID s
    | .verify => changeEnd s.exe.savedPhase Code.EXE_CHANGE_CANCELLED s
    | _ =>
      if switching then changeRefuse Code.EXE_CHANGE_INVALID s
      else changeTell 6 (changeEnd .none Code.EXE_CHANGE_CANCELLED
        { s with exe := { s.exe with inactive := none } })) s)

/-- R204, R207: REVERT. -/
def execChangeRevert (s : State) : Host.Outcome State Fault Refusal :=
  .next (changeOp (fun s =>
    match s.exe.phase, s.exe.previous with
    | .swapped, some m =>
      if imageDiffers m s then changeRefuse Code.PAIR_IMAGE_DIFF s
      else if !flag Fld.EXE_CTRL_RUN s then changeTell 4 (doRevert false s)
      else
        let need := match s.exe.image with | some o => needUs o m | none => 20
        s |> changeStart .revert .swapped need |> setFld Fld.EXE_CHANGE_STATUS_STATUS Code.EXE_OK.toNat |> changeTell 4
    | _, _ => changeRefuse Code.EXE_CHANGE_INVALID s) s)

/-- R204: COMMIT releases the previous image. -/
def execChangeCommit (s : State) : Host.Outcome State Fault Refusal :=
  .next (changeOp (fun s =>
    if s.exe.phase == .swapped then
      changeTell 5 (changeEnd .none Code.EXE_CHANGE_COMMITTED { s with exe := { s.exe with previous := none } })
    else changeRefuse Code.EXE_CHANGE_INVALID s) s)

/-- R216: VALUES. -/
def execChangeValues (s : State) : Host.Outcome State Fault Refusal :=
  .next (changeOp (fun s =>
    if s.exe.phase == .none || s.exe.phase == .swapped then changeStart .values s.exe.phase 0 s
    else changeRefuse Code.EXE_CHANGE_INVALID s) s)

/-- Word `w` of entry `i` of the values-only change list (Table EXE-7). -/
def listWord (i w : Nat) (s : State) : Word := Sparse.get (fun _ => 0) s.exe.list (4 * i + w)

/-- An entry of the change list as kind, index and value. -/
def listEntry (s : State) (i : Nat) : Nat × Nat × DWord :=
  ((listWord i 0 s).toNat / 2 ^ 28, (listWord i 0 s).toNat % 65536,
    toD ((listWord i 3 s).toNat * 2 ^ 32 + (listWord i 2 s).toNat))

/-- An entry that R216 allows. -/
def listOk (e : Nat × Nat × DWord) (s : State) : Bool :=
  match e.1 with
  | 1 => (tagDef e.2.1 s).any (fun d => !d.output && d.locKind == 0)
  | 2 => s.exe.image.any (fun m => m.changeable.contains e.2.1)
  | _ => false

/-- R216: the check of a values list ends. -/
def execValuesCheckDone (s : State) : Host.Outcome State Fault Refusal :=
  .next (if !regionsUp s || s.exe.busy != .values then s
    else
      let n := fld Fld.EXE_VALUES_LEN_LEN s
      let l := (List.range (min n 4096)).map (listEntry s)
      if !inRange n 1 4096 || l.any (fun e => !listOk e s) then
        changeRefuse Code.EXE_VALUE_REFUSED { s with exe := { s.exe with busy := .none } }
      else
        { s with exe := { s.exe with busy := .apply, needUs := (2000 + 8 * n + 999) / 1000, values := l } }
          |> cwMirror 12 ([3, 7] ++ l.flatMap (fun e => [toD (e.1 * 2 ^ 16 + e.2.1), e.2.2])))

/-- A tag value narrowed to its type (R190, Table KQ-14). -/
def narrowTag (typ : Nat) (v : DWord) : DWord :=
  match typ with
  | 1 => v &&& 1
  | 2 => v &&& 0xFFFF
  | 3 | 5 | 8 | 9 => v &&& 0xFFFFFFFF
  | _ => v

/-- Apply one entry (R216, R217, R237). -/
def applyEntry (e : Nat × Nat × DWord) (s : State) : State :=
  if e.1 = 1 then tagStore e.2.1 (narrowTag (((tagDef e.2.1 s).map (·.typ)).getD 0) e.2.2) s
  else { s with exe := { s.exe with
    image := s.exe.image.map (fun m => { m with consts := Sparse.insert m.consts e.2.1 e.2.2 }) } }

/-- An armed change meets its slack (R185, R208); in a pair the partner's commits have arrived (R501). -/
def changeFits (s : State) : Bool :=
  regionsUp s && slackFits (1000 * s.exe.needUs) s && (peerState s != 4 || pairState s != 1 || s.pair.mine.isEmpty)

/-- A standby side that does not execute enters SYNCING after its switch (R501). -/
def changeSync (s : State) : State := if inRange (pairState s) 2 3 then syncStart s else s

/-- R208: the swap. -/
def execImageSwap (s : State) : Host.Outcome State Fault Refusal :=
  .next (if s.exe.busy == .swap && changeFits s then changeSync (doSwap true s) else s)

/-- R215: the switch back. -/
def execRevertSwitch (s : State) : Host.Outcome State Fault Refusal :=
  .next (if s.exe.busy == .revert && changeFits s then changeSync (doRevert true s) else s)

/-- R216: the list is applied in full. -/
def execValuesApply (s : State) : Host.Outcome State Fault Refusal :=
  .next (if s.exe.busy == .apply && changeFits s then
    changeDone s.exe.phase Code.EXE_CHANGE_DONE (forAll s.exe.values applyEntry { s with exe := { s.exe with values := [] } })
  else s)

/-- R186: a waiting action has found no slack for SLACK_STARVE. -/
def execExeNoSlack (s : State) : Host.Outcome State Fault Refusal :=
  let waits := [ChangeBusy.swap, .revert, .apply].contains s.exe.busy || fld Fld.TRIAD_STATE_MODE s == 2
    || s.fwWait || (match s.pair.switch with | .waiting _ => true | _ => false)
  .next (if regionsUp s && waits then
    s |> bump Fld.EXE_SLACK_MISS_COUNT |> raiseF 0x03 Fld.EXE_EVENT_NO_SLACK |> say Code.EXE_NO_SLACK
  else s)

/-! ### Forces (R191 to R193) -/

/-- A tag that cannot be forced. -/
def forceRefused (g : Nat) (s : State) : Bool :=
  !(tagDef g s).any (fun d => !(d.locKind == 1 && statusCell (d.location.toNat % 65536)))

/-- Set or replace the force of a tag. -/
def setForce (g : Nat) (v : DWord) (s : State) : State :=
  let i := match s.exe.forces.find? (fun e => e.2.1 == g) with
    | some e => e.1
    | none => ((List.range 1024).find? (fun i => (Sparse.find s.exe.forces i).isNone)).getD 0
  forAll (List.range 4) dioReenTag { s with exe := { s.exe with forces := Sparse.insert s.exe.forces i (g, v) } }

/-- Remove the forces that `p` names. -/
def dropForces (p : Nat → Bool) (s : State) : State :=
  forAll (List.range 4) dioReenTag { s with exe := { s.exe with forces := s.exe.forces.filter (fun e => !p e.2.1) } }

/-- A force command; refused on a standby side (R479). -/
def forceCmd (f : Nat → State → State) (s : State) : State :=
  hostCmd Reg.EXE_FORCE_CMD (fun s =>
    if onStandby s then standbyRefuse Fld.EXE_FORCE_RESULT_STATUS s else f (fld Fld.EXE_FORCE_TAG_TAG s) s) s

/-- Set the result of a force command. -/
def forceResult (st : Status) (s : State) : State := result Fld.EXE_FORCE_RESULT_STATUS st s

/-- R191: SET. -/
def execForceSet (s : State) : Host.Outcome State Fault Refusal :=
  .next (forceCmd (fun g s =>
    if forceRefused g s then forceResult Code.EXE_FORCE_REFUSED s
    else if (forceOf g s).isNone && decide (1024 ≤ s.exe.forces.length) then forceResult Code.EXE_FORCE_FULL s
    else
      let v := narrowTag (((tagDef g s).map (·.typ)).getD 0) (rd64 Reg.EXE_FORCE_VAL_LO s)
      s |> setForce g v |> cwMirror 12 [toD 2, toD g, v] |> forceResult Code.EXE_FORCE_SET) s)

/-- R191: CLEAR. -/
def execForceClear (s : State) : Host.Outcome State Fault Refusal :=
  .next (forceCmd (fun g s =>
    if (forceOf g s).isNone then forceResult Code.EXE_NOT_FORCED s
    else s |> dropForces (· == g) |> cwMirror 12 [toD 5, toD g] |> forceResult Code.EXE_FORCE_CLEARED) s)

/-- R191: CLEAR_ALL. -/
def execForceClearAll (s : State) : Host.Outcome State Fault Refusal :=
  .next (forceCmd (fun _ s =>
    s |> dropForces (fun _ => true) |> cwMirror 12 [toD 6] |> forceResult Code.EXE_FORCE_CLEARED) s)

/-- R191: READ. -/
def execForceRead (s : State) : Host.Outcome State Fault Refusal :=
  .next (forceCmd (fun g s =>
    match forceOf g s with
    | some v => s |> wr64 Reg.EXE_FORCE_VAL_LO v |> forceResult Code.EXE_OK
    | none => s |> wr64 Reg.EXE_FORCE_VAL_LO 0 |> forceResult Code.EXE_NOT_FORCED) s)

/-! ### Host tag writes (R190) -/

/-- The colour check of an access of the host or the debugger to a tag (R190, R612): the cause of a denial. -/
def tagColourCause (m : Nat) (d : TagDef) (k : Acc) (s : State) : Option Nat :=
  let shared := (findDesc s.mpu.rules m 0x402100000 32 0).any (fun x => x.w2.getLsbD 27)
  if !(mpuCfg s.mpu.rules m).getLsbD (16 + d.colour) then some 3
  else if k == .write && d.colour != masterColour m s && !shared then some 4
  else none

/-- A half of a 64-bit value replaced. -/
def replaceHalf (v : DWord) (high : Bool) (w : Word) : DWord :=
  if high then toD (w.toNat * 2 ^ 32 + v.toNat % 2 ^ 32) else toD (v.toNat / 2 ^ 32 * 2 ^ 32 + w.toNat)

/-- A host write that is dropped (R190). -/
def tagDenied (s : State) : State := s |> bump Fld.EXE_TAG_DENIED_COUNT |> raiseF 0x03 Fld.EXE_EVENT_TAG_DENIED

/-- R190: a host write of one half of a tag value. -/
def execHostTagWrite (tag : Tag) (high : Bool) (value : Word) (s : State) : Host.Outcome State Fault Refusal :=
  let g := tag.toNat
  let a := 0x02100000 + 8 * g + (if high then 4 else 0)
  .next (hostCmd a (fun s =>
    match tagDef g s with
    | none => tagDenied s
    | some d =>
      if d.writerKind != 4 || onStandby s then tagDenied s
      else match tagColourCause 8 d .write s with
        | some c => mpuDeny 8 (0x400000000 + a) .write (masterColour 8 s) c s
        | none =>
          let v := narrowTag d.typ (replaceHalf (tagLive g s).val high value)
          s |> tagStore g v |> cwMirror 12 [toD 1, toD g, v]) s)

end Sys2Proof.Machine
end

