-- ==== Sys2Proof/Machine/PairOps.lean ====
section
/-! DEFINITION. The pair (R466 to R502) and AUTH (R69 to R77): decisions, comparison of commits, takeover and the steps
of a switchover, as the commands and events of chapters 2, 13 and 19 use them. -/
namespace Sys2Proof.Machine

def onPair (f : Pair → Pair) (s : State) : State := { s with pair := f s.pair }

/-! ### Who may claim (R466, R468, R493, R499) -/

/-- HOME none; 0b11 acts as 0b10 (Table PAIR-11). -/
def homeNone (s : State) : Bool := decide (2 ≤ fld Fld.PAIR_CFG_HOME s)
/-- This is the home side. -/
def homeSide (s : State) : Bool := !homeNone s && fld Fld.PAIR_CFG_HOME s == s.sup.sid.toNat

/-- The partner's pair protocol has this side's major version, as far as it is known. -/
def versionOk (s : State) : Bool := s.pair.peer.all (fun h => h.major.toNat == Config.pairVersion.toNat / 256)

/-- The partner's last heartbeat shows this pair state, and the partner is not lost. -/
def peerIs (n : Nat) (s : State) : Bool := !s.pair.peerLost && s.pair.peer.any (fun h => h.st.val == n)

/-- The partner is an in-step, takeover-capable standby side (R497). -/
def peerInStep (s : State) : Bool := peerIs 4 s && s.pair.peer.any (fun h => h.capable)

/-- The supervisor core decides to take authority (R466, R468, R493, R498, R499). -/
def wantsAuth (s : State) : Bool :=
  match pairState s with
  | 0 => (homeSide s || (homeNone s && s.sup.sid == 0) || s.pair.peerLost || s.pair.waitOver) && !peerIs 1 s
  | 1 => !flag Fld.PAIR_STATE_AUTH_HELD s && s.pair.switch == .none
  | 2 => false
  | 3 | 4 => (s.pair.takeover.isSome && pairCapable s) || s.pair.switch == .granted
  | 5 => !flag Fld.PAIR_STATE_AUTH_HELD s
  | _ => false

/-- The module may claim AUTH (R72, R98, R672, R677). DEDUCED: log entry 34. -/
def mayClaim (s : State) : Bool :=
  alive s && power s == 3 && s.sup.seated && s.sup.leverClosed && !flag Fld.SUP_PWR_STATE_MODULE_FAULT s && !s.sup.hardEbb
  && !s.sup.authDriven && wantsAuth s

/-! ### Becoming active (R73, R493, R495, R498) -/

/-- What a side held as a standby side, and its decisions, are dropped. -/
def pairClear (p : Pair) : Pair :=
  { p with
    takeover := none, faultWait := none, blockedSaid := false, deniedSaid := false, waitOver := false, trackAt := none
    rejoin := false, dwellAt := none, mine := [], theirs := [], switch := .none, replay := [], sched := [] }

/-- Moves of STEP until a release angle that lies behind by some counts lies ahead (R495). -/
def movesAhead (step behind : Nat) : Nat := if step = 0 || 2 ^ 31 ≤ step then 1 else behind / step + 1

/-- R495: a cyclic task whose next release angle its tide has crossed is released once at once. -/
def takeoverRelease (t : Nat) (s : State) : State :=
  match taskDef t s with
  | none => s
  | some d =>
    let x := tide d.tide s
    match (task t s).angle with
    | none => s
    | some a =>
      let p := tideAngle d.tide s
      let fwd := decide (0 ≤ x.omega)
      let behind := if fwd then (p - a).toNat else (a - p).toNat
      if d.kind != 1 || !exeRuns s || !tideAllows d.hold x.st || (!fwd && !d.either) || decide (2 ^ 31 ≤ behind) then s
      else
        let n := movesAhead d.step.toNat behind
        let step := BitVec.ofNat 32 (n * d.step.toNat)
        s |> onTask t (fun y => { y with angle := some (if fwd then a + step else a - step) })
          |> bumpBy Fld.PAIR_MISSED_COUNT (n - 1) |> dueRelease t

/-- Instructions that waited for a REPLAY record act on the side's own blocks (R495). DEDUCED: log entry 25. -/
def dropReplayWaits (s : State) : State :=
  forAll (List.range 24) (fun t => onTask t (fun x =>
    match x.wait with
    | .replay _ _ => { x with wait := .none }
    | _ => x)) s

/-- A standby side becomes active: it takes over what the active side ran (R162, R165, R495, R512). -/
def standbyActive (takeover : Bool) (s : State) : State :=
  s |> ttActive |> forAll (List.range 32) seqResume |> dropReplayWaits
    |> onlyIf takeover (forAll (List.range 8) takeoverRelease) |> startNext

/-- This side holds AUTH alone and becomes the active side. -/
def becomeActive (s : State) : State :=
  let was := pairState s
  let s := setFlag Fld.PAIR_STATE_AUTH_HELD true
      { s with sup := { s.sup with contesting := false, claimAt := none, authOther := false } }
    |> raiseF 0x0A Fld.PAIR_EVENT_AUTH_CHANGE
  if was = 1 then hbSend s
  else
    let took := s.pair.takeover
    let granted := s.pair.switch == .granted
    let s := match took with
      | some c => s |> setFld Fld.PAIR_LAST_CAUSE_STATUS c.toNat |> bump Fld.PAIR_COUNTS_TAKEOVERS
          |> sayD Code.PAIR_TAKEOVER (toD c.toNat)
      | none => onlyIf granted (fun t => t |> setFld Fld.PAIR_LAST_CAUSE_STATUS Code.PAIR_SWITCHOVER.toNat
          |> bump Fld.PAIR_COUNTS_SWITCHOVERS) s
    s |> onPair pairClear |> pairTo 1 |> onlyIf granted (cwSend 12 [10]) |> netActive |> canActive
      |> onlyIf (inRange was 2 4) (standbyActive took.isSome)

/-- A contest is lost: AUTH is released, and the side decides afresh (R73, R75 to R77). -/
def contestLost (s : State) : State :=
  s |> say Code.PAIR_CONTEST_LOST |> releaseAuth Code.PAIR_CONTEST_LOST
    |> onPair (fun p => { pairClear p with peerLost := false }) |> pairTo 0

/-! ### Takeover decisions (R493, R494) -/

/-- AUTH is held by the other side as a takeover is due (R494). -/
def takeoverBlocked (s : State) : State :=
  if s.pair.takeover.isSome && pairCapable s && s.sup.authOther && !s.pair.blockedSaid then
    onPair (fun p => { p with blockedSaid := true }) s |> raiseF 0x0A Fld.PAIR_EVENT_TAKEOVER_BLOCKED
      |> say Code.PAIR_TAKEOVER_BLOCKED
  else s

/-- A takeover is due, but this side may not take over. DEDUCED: log entry 34. -/
def noTakeover (s : State) : State :=
  if s.pair.deniedSaid then s else onPair (fun p => { p with deniedSaid := true }) s |> say Code.PAIR_NO_TAKEOVER

/-- A takeover is due with its cause. -/
def takeoverDue (c : Status) (s : State) : State :=
  if pairCapable s then takeoverBlocked (onPair (fun p => { p with takeover := some c }) s) else noTakeover s

/-- The standby side halts with its partner (R202, R482). -/
def partnerOverrun (s : State) : State :=
  if inFallback 0 s then s
  else s |> raiseF 0x03 Fld.EXE_EVENT_OVERRUN |> say Code.EXE_OVERRUN |> enterFallback 0 Code.EXE_OVERRUN

/-- The partner's heartbeat shows OUT or WAITING with its cause (R482, R493). -/
def partnerOut (c : Status) (s : State) : State :=
  let step := pairState s == 4
  if s.pair.takeover.isSome || s.pair.faultWait.isSome then s
  else if c = Code.EXE_OVERRUN then (if step then partnerOverrun s else noTakeover s)
  else if inRange c.toNat 0x0340 0x034A then
    (if !step then noTakeover s
     else if allIdle s then takeoverDue c s
     else onPair (fun p => { p with faultWait := some c }) s)
  else takeoverDue c s

/-- R493: this side has ended its cycle without the partner's program fault. -/
def faultCycleDone (s : State) : State :=
  match s.pair.faultWait with
  | some c => if pairState s = 4 && allIdle s then takeoverDue c (onPair (fun p => { p with faultWait := none }) s) else s
  | none => s

/-! ### Comparison of commits (R485 to R488) -/

/-- A pending yield (R487). -/
def yieldPending (s : State) : Bool :=
  match s.pair.switch with
  | .waiting .yield | .sent .yield | .released .yield => true
  | _ => false

/-- Table PAIR-5: the row of PAIR_MISMATCH.OUTCOME, and whether the active side yields. -/
def mismatchRow (active standby : Nat) : Nat × Bool :=
  if 1000 ≤ active then (if 1000 ≤ standby then (0, false) else (1, false))
  else if 1000 ≤ standby then (2, true)
  else (3, decide (active < standby))

/-- A mismatch of one task cycle, with the SINCE values of the active and the standby side; `onActive` says on which
side. DEDUCED: log entry 34. -/
def mismatch (onActive : Bool) (t cycle active standby : Nat) (s : State) : State :=
  if yieldPending s then s
  else
    let r := mismatchRow active standby
    let s := s |> wr Reg.PAIR_MISMATCH (toW (2 ^ 31 + r.1 * 2 ^ 29 + t * 2 ^ 24 + cycle % 65536))
      |> bump Fld.PAIR_COUNTS_MISMATCHES |> raiseF 0x0A Fld.PAIR_EVENT_MISMATCH |> say Code.PAIR_MISMATCH
      |> onlyIf (r.1 != 0) (say Code.PAIR_YIELD)
    if onActive then onlyIf r.2 (onPair (fun p => { p with switch := if p.switch == .none then .waiting .yield else p.switch })) s
    else if r.2 then s else syncStart s

/-- The base of a task's lag budget in ns (R488). -/
def lagBase (t : Nat) (s : State) : Nat :=
  match taskDef t s with
  | some d => 1000 * (if d.kind = 1 then d.period else d.wdog)
  | none => 0

/-- The lag budget in ns. -/
def lagBudget (t : Nat) (s : State) : Nat := lagBase t s * fld Fld.PAIR_CFG_LAG_PCT s / 100

/-- PAIR_LAG shows the lag of a cycle in ns. -/
def setLag (t lag : Nat) (s : State) : State :=
  s |> setFld Fld.PAIR_LAG_LAST_US (min (usOf lag s) 0xFFFF)
    |> setFld Fld.PAIR_LAG_LAST_PCT (if lagBase t s = 0 then 255 else min (lag * 100 / lagBase t s) 255)

def commitOf (l : List PairCommit) (t cycle : Nat) : Option PairCommit := l.find? (fun c => c.task == t && c.cycle == cycle)
def commitDrop (l : List PairCommit) (t cycle : Nat) : List PairCommit := l.filter (fun c => !(c.task == t && c.cycle == cycle))

/-- On the active side: the partner's COMMIT of a cycle (R485, R488, R489). -/
def activeCompare (c : PairCommit) (tie : Bool) (s : State) : State :=
  match commitOf s.pair.mine c.task c.cycle with
  | none => s
  | some m =>
    let lag := nowNs s - m.at_
    let inTime := tie || decide (lag ≤ lagBudget c.task s)
    let s := onPair (fun p => { p with mine := commitDrop p.mine c.task c.cycle }) s |> setLag c.task lag
      |> onlyIf tie (bump Fld.PAIR_CLOSE_CALL_COUNT) |> onlyIf inTime (setFld Fld.PAIR_LAG_TRAIL_RUN 0)
    if m.crc = c.crc then s else mismatch true c.task c.cycle m.since c.since s

/-- On a standby side in step: both COMMIT records of a cycle are at hand (R486). -/
def standbyCompare (t cycle : Nat) (s : State) : State :=
  match commitOf s.pair.mine t cycle, commitOf s.pair.theirs t cycle with
  | some m, some a =>
    let s := onPair (fun p => { p with mine := commitDrop p.mine t cycle, theirs := commitDrop p.theirs t cycle }) s
    if m.crc = a.crc then s else mismatch false t cycle a.since m.since s
  | _, _ => s

/-- What follows a commit on a standby side in step. -/
def pairCommitted (t cycle : Nat) (s : State) : State :=
  if pairState s = 4 then faultCycleDone (standbyCompare t cycle s) else s

/-! ### Ordered records (R471) -/

/-- Take a record of an ordered kind by its sequence number: one already taken is discarded, and a gap sends the standby
side to SYNCING. -/
def cwTake (kind : Nat) (q : Word) (f : State → State) (s : State) : State :=
  if !cwUp s then s
  else
    let n := Sparse.get (fun _ => 0) s.pair.taken kind
    let d := (q - toW n).toNat
    let take := fun (u : State) => onPair (fun p => { p with taken := Sparse.set (fun _ => 0) p.taken kind q.toNat }) u
    if d = 1 then f (take s)
    else if d = 0 || 2 ^ 31 ≤ d then s
    else if onStandby s then syncStart (take s)
    else cwMirror 12 [12, 3] (take s)

/-! ### Switchover (R497 to R500) -/

/-- The status of a switchover by its reason (Table PAIR-14). DEDUCED: log entry 34. -/
def switchStatus (w : SwitchWhy) : Status := if w = .reclaim then Code.PAIR_RECLAIM else Code.PAIR_SWITCHOVER

/-- The command of PAIR_CMD ends. -/
def pairDone (st : Status) (s : State) : State :=
  if flag Fld.PAIR_RESULT_BUSY s then s |> setFlag Fld.PAIR_RESULT_BUSY false |> setFld Fld.PAIR_RESULT_STATUS st.toNat else s

/-- A switchover is asked for; one that already waits or runs serves it. -/
def switchAsk (w : SwitchWhy) (s : State) : State :=
  onPair (fun p => { p with switch := if p.switch == .none then .waiting w else p.switch }) s

/-- A waiting switchover is withdrawn: after a yield the standby side re-mirrors (R487, R498). -/
def switchDrop (s : State) : State :=
  match s.pair.switch with
  | .waiting w => onPair (fun p => { p with switch := .none }) s |> onlyIf (w == .yield) (cwMirror 12 [12, 3]) |> pairDone Code.PAIR_OK
  | _ => s

/-- A removal is refused (R97). -/
def removeRefused (s : State) : State :=
  { s with sup := { s.sup with removing := false } } |> raiseF 0x01 Fld.MOD_EVENT_REMOVE |> say Code.MOD_REMOVE_REFUSED

/-- The dwell of R500 runs. -/
def dwellRuns (s : State) : Bool :=
  homeSide s && pairState s == 4 && pairCapable s && fld Fld.TRIAD_STATE_MODE s == 1
  && decide (1000 ≤ fld Fld.TRIAD_HEALTH_SINCE s) && !flag Fld.PAIR_CTRL_RECLAIM_INHIBIT s
  && !flag Fld.PAIR_STATE_HOME_CONFLICT s && s.pair.peer.any (fun h => !h.inhibit)

/-- Follow the dwell: any break restarts it. -/
def dwellStep (s : State) : State :=
  onPair (fun p => { p with dwellAt := if dwellRuns s then some (p.dwellAt.getD (nowNs s)) else none }) s

end Sys2Proof.Machine
end

