-- ==== Sys2Proof/Machine/Auth.lean ====
section
/-! DEFINITION. The AUTH line (R69 to R77): the meanings of its events. -/
namespace Sys2Proof.Machine

/-- The side may go on driving in a contest: side A or a lone-slot module (R73). -/
def keepsDriving (s : State) : Bool := s.sup.sid == 0 || s.sup.sid == 2

/-- The instructions that drive pins (R652). -/
def scanDrives (i : ScanInst) : Bool := i == .extest || i == .clamp || i == .highz

/-- The module claims AUTH, or leaves QUIET or READY: an instruction that drives pins gives way to BYPASS (R652). -/
def scanLeave (s : State) : State :=
  { s with lcy := { s.lcy with ir := if scanDrives s.lcy.ir then .bypass else s.lcy.ir } }

/-- R72: AUTH has read free for 1 µs, and the module has decided to take authority. -/
def execAuthClaim (s : State) : Host.Outcome State Fault Refusal :=
  .next (if mayClaim s then
    scanLeave { s with sup := { s.sup with authDriven := true, authOther := false, claimAt := some s.cycle } }
  else s)

/-- R73: 200 ns after the claim the driver current is measured; `alone` says that it is 2.3 mA or more. -/
def execAuthMeasure (alone : Bool) (s : State) : Host.Outcome State Fault Refusal :=
  .next (if !alive s || !s.sup.authDriven || s.sup.claimAt.isNone then s
    else if alone then becomeActive s
    else if keepsDriving s then
      { s with sup := { s.sup with contesting := true, claimAt := none, authOther := true } }
    else contestLost { s with sup := { s.sup with authOther := true } })

/-- R75: while AUTH is held, the current has stayed below 2.3 mA for 25 cycles. -/
def execAuthShared (s : State) : Host.Outcome State Fault Refusal :=
  .next (if !alive s || !flag Fld.PAIR_STATE_AUTH_HELD s || !s.sup.authDriven || s.sup.contesting then s
    else
      let t := { s with sup := { s.sup with authOther := true } }
      if keepsDriving s then { t with sup := { t.sup with contesting := true } } else contestLost t)

/-- R76: 25 consecutive cycles at 2.3 mA or more end the contest. -/
def execAuthConfirmRun (s : State) : Host.Outcome State Fault Refusal :=
  .next (if !alive s || !s.sup.contesting then s
    else if flag Fld.PAIR_STATE_AUTH_HELD s then { s with sup := { s.sup with contesting := false, authOther := false } }
    else becomeActive s)

/-- R76: no confirming run has ended within 10 µs. -/
def execPairContestLost (s : State) : Host.Outcome State Fault Refusal :=
  .next (if alive s && s.sup.contesting then contestLost s else s)

end Sys2Proof.Machine
end

