-- ==== Sys2Proof/Machine/Calendar.lean ====
section
/-! DEFINITION. The calendar of R591: valid dates, days since 2000-01-01, and the packed value of
Table KQ-19. -/
namespace Sys2Proof.Machine.Cal

/-- A leap year (R591). -/
def leap (y : Nat) : Bool := (y % 4 == 0 && y % 100 != 0) || y % 400 == 0

/-- The length of a month (R591). -/
def monthLen (m y : Nat) : Nat :=
  if m = 2 then (if leap y then 29 else 28)
  else if m = 4 ∨ m = 6 ∨ m = 9 ∨ m = 11 then 30 else 31

/-- Days of the first `n` years from 2000 on. -/
def yearDays : Nat → Nat
  | 0 => 0
  | n + 1 => yearDays n + 365 + (leap (2000 + n)).toNat

/-- Days of the first `n` months of year `y`. -/
def monthDays (y : Nat) : Nat → Nat
  | 0 => 0
  | n + 1 => monthDays y n + monthLen (n + 1) y

/-- A date and time of day. -/
structure Date where
  year : Nat
  month : Nat
  day : Nat
  hour : Nat
  minute : Nat
  second : Nat
  deriving DecidableEq, Repr

/-- The valid dates (R591). -/
def Date.valid (d : Date) : Bool :=
  decide (2000 ≤ d.year) && decide (d.year ≤ 2271) && decide (1 ≤ d.month) && decide (d.month ≤ 12)
  && decide (d.hour ≤ 23) && decide (d.minute ≤ 59) && decide (d.second ≤ 59)
  && decide (1 ≤ d.day) && decide (d.day ≤ monthLen d.month d.year)

/-- Days since 2000-01-01. -/
def Date.days (d : Date) : Nat := yearDays (d.year - 2000) + monthDays d.year (d.month - 1) + (d.day - 1)

/-- Seconds since 2000-01-01 00:00:00. -/
def Date.seconds (d : Date) : Nat := d.days * 86400 + d.hour * 3600 + d.minute * 60 + d.second

/-- The last second of 2271, plus one. -/
def endSeconds : Nat := yearDays 272 * 86400

/-- Split a day number within `n` years from `y` on into the year and the day of the year. -/
def findYear : Nat → Nat → Nat → Nat × Nat
  | 0, y, d => (y, d)
  | n + 1, y, d =>
    let len := 365 + (leap y).toNat
    if d < len then (y, d) else findYear n (y + 1) (d - len)

/-- Split a day of the year within `n` months from `m` on into the month and the day of the month, from 0. -/
def findMonth (y : Nat) : Nat → Nat → Nat → Nat × Nat
  | 0, m, d => (m, d)
  | n + 1, m, d => if d < monthLen m y then (m, d) else findMonth y n (m + 1) (d - monthLen m y)

/-- The date of a second count. -/
def ofSeconds (t : Nat) : Date :=
  let y := findYear 272 2000 (t / 86400)
  let m := findMonth y.1 12 1 y.2
  let r := t % 86400
  ⟨y.1, m.1, m.2 + 1, r / 3600, r / 60 % 60, r % 60⟩

/-- The date that a packed value names; WEEKDAY is ignored (Table KQ-19). -/
def unpack (w : DWord) : Date :=
  let n := w.toNat
  ⟨n / 2 ^ 48, n / 2 ^ 40 % 256, n / 2 ^ 32 % 256, n / 2 ^ 24 % 256, n / 2 ^ 16 % 256, n / 2 ^ 8 % 256⟩

/-- The packed value of a second count, WEEKDAY (5 + days) mod 7 (R591). -/
def pack (t : Nat) : DWord :=
  let d := ofSeconds t
  BitVec.ofNat 64 (d.year * 2 ^ 48 + d.month * 2 ^ 40 + d.day * 2 ^ 32 + d.hour * 2 ^ 24 + d.minute * 2 ^ 16
    + d.second * 2 ^ 8 + (5 + t / 86400) % 7)

end Sys2Proof.Machine.Cal
end

