-- ==== Sys2Proof/Machine/Clock.lean ====
section
/-! DEFINITION. The backup clock (R583 to R595): the meanings of its commands and events. -/
namespace Sys2Proof.Machine

/-- The module time of a count, in ns with a 2^-32 fraction of zero (R583, R588). -/
def countNs (c : Nat) : Nat := c * 1953125 / 64

/-- The last tick of 2271 (R589). -/
def lastTick : Nat := 281263944499199

/-- TRUSTED becomes 1 when the count is set while OSF is clear (R586). -/
def setCount (c : Nat) (b : Backup) : Backup :=
  { b with count := c, phase := 0, trusted := b.trusted || !b.osf }

/-- R584: a window of 2^20 ticks ends. -/
def trimWindow (b : Backup) : Backup :=
  let acc := b.acc + b.trim
  let k := Int.tdiv acc 32
  { b with acc := acc - 32 * k, adjust := k, window := 0 }

/-- R584: the window of 2^20 ticks ends, unless the crystal is stopped. DEDUCED: log entry 20. -/
def execTrimWindow (s : State) : Host.Outcome State Fault Refusal :=
  .next (if s.backup.stopped then s else { s with backup := trimWindow s.backup })

/-- R585, Table ARCH-4: no tick for 250 µs. -/
def execClkOscStopped (s : State) : Host.Outcome State Fault Refusal :=
  let t := { s with backup := { s.backup with osf := true, stopped := true, trusted := false } }
  .next (if !alive s then t
  else { t with backup := { t.backup with regsValid := false } }
    |> raiseF 0x0F Fld.CLK_EVENT_OSF |> say Code.CLK_OSC_STOPPED |> sayRegion (Code.REGION_CLOCK 5) |> markFallback 5)

/-- R585: the host clears OSF; `stopped` says whether the crystal is still stopped. -/
def execClkOsfClear (stopped : Bool) (s : State) : Host.Outcome State Fault Refusal :=
  .next (hostCmd Reg.CLK_STATUS (fun s =>
    if stopped then s else { s with backup := { s.backup with osf := false, stopped := false } }) s)

/-- R587: every 60 s while SYNC_EN is 1 and the servo is LOCKED, the count is set from module time. The
drift is the difference over the interval since the previous sync; the spec gives neither its rounding nor
its value at the first sync, so those are free. -/
def clkSync (s : State) : State :=
  let c : Nat := s.mtime * 64 / (1953125 * 2 ^ 32)
  let diff : Int := (s.backup.count : Int) - c
  let drift := fun (d : DWord) => match s.backup.lastSync with
    | none => d.toNat % 2 ^ 32
    | some p =>
      if c ≤ p then d.toNat % 2 ^ 32
      else
        let num := diff * 1000000000
        let den := c - p
        let q := num / (den : Int)
        (BitVec.ofInt 32 (if num % (den : Int) = 0 then q else q + (d.getLsbD 0).toNat)).toNat
  let was := s.backup.trusted
  s |> withFree (fun d => wr Reg.CLK_DRIFT (toW (drift d)))
    |> (fun t => { t with backup := { setCount c t.backup with lastSync := some c } })
    |> raiseF 0x0F Fld.CLK_EVENT_SET |> onlyIf (!was) (say Code.CLK_SYNCED)

/-- R587. -/
def execClkSync (s : State) : Host.Outcome State Fault Refusal :=
  .next (if alive s && flag Fld.CLK_CTRL_SYNC_EN s && disciplined s then clkSync s else s)

/-- Load the count on the host's command (R589, R592). -/
def clkLoad (c : Nat) (s : State) : State :=
  { s with backup := { setCount c s.backup with acc := 0 } }
    |> result Fld.CLK_RESULT_STATUS Code.CLK_OK |> raiseF 0x0F Fld.CLK_EVENT_SET |> say Code.CLK_SET

/-- R589: CLK_CMD SET_TICKS. -/
def execClkSetTicks (s : State) : Host.Outcome State Fault Refusal :=
  .next (hostCmd Reg.CLK_CMD (fun s =>
    let v := (rd64 Reg.CLK_SET_LO s).toNat % 2 ^ 48
    if lastTick < v then result Fld.CLK_RESULT_STATUS Code.CLK_RANGE s else clkLoad v s) s)

/-- A calendar command that met an invalid date (R592). -/
def calInvalid (s : State) : State :=
  s |> raiseF 0x0F Fld.CLK_EVENT_CAL_INVALID |> result Fld.CLK_RESULT_STATUS Code.CAL_INVALID

/-- R592: CLK_CMD SET_CAL. -/
def execClkSetCal (s : State) : Host.Outcome State Fault Refusal :=
  .next (hostCmd Reg.CLK_CMD (fun s =>
    let d := Cal.unpack (rd64 Reg.CLK_CAL_LO s)
    if d.valid then clkLoad (d.seconds * 32768) s else calInvalid s) s)

/-- R592: CLK_CMD READ_CAL. -/
def execClkReadCal (s : State) : Host.Outcome State Fault Refusal :=
  .next (hostCmd Reg.CLK_CMD (fun s =>
    if s.backup.count ≤ lastTick then
      s |> wr64 Reg.CLK_CAL_LO (Cal.pack (s.backup.count / 32768)) |> result Fld.CLK_RESULT_STATUS Code.CLK_OK
    else calInvalid s) s)

/-- R590: CLK_CMD REGS_VALIDATE. -/
def execClkRegsValidate (s : State) : Host.Outcome State Fault Refusal :=
  .next (hostCmd Reg.CLK_CMD (fun s =>
    { s with backup := { s.backup with regsValid := true } }
      |> result Fld.CLK_RESULT_STATUS Code.CLK_OK |> say Code.CLK_REGS_VALIDATED) s)

/-- R590: a host write of a backup register. -/
def execClkBregWrite (i : Fin 16) (value : Word) (s : State) : Host.Outcome State Fault Refusal :=
  .next (hostCmd (Reg.CLK_BREG i) (fun s =>
    { s with backup := { s.backup with breg := Sparse.set (fun _ => 0) s.backup.breg i value } }) s)

/-- R593: VBAK changes its source. -/
def execVbakSwitch (toMain : Bool) (s : State) : Host.Outcome State Fault Refusal :=
  .next { s with backup := { s.backup with onBackup := !toMain } }

/-- R594: VBAK has fallen below 1.6 V and rises above 1.8 V again; the report waits for the next start. -/
def execClkRetentionLost (s : State) : Host.Outcome State Fault Refusal :=
  .next { s with backup := { s.backup with
    count := 0, trim := 0, acc := 0, window := 0, adjust := 0, phase := 0, breg := [], osf := true
    trusted := false, regsValid := false, lastSync := none, lossPending := true } }

/-- R595: the cell is loaded for 1 ms and its voltage judged; a change is reported. -/
def execClkCellCheck (mv : Nat) (s : State) : Host.Outcome State Fault Refusal :=
  .next (if !alive s || s.backup.onBackup then s
  else
    let t := setFld Fld.CLK_CELL_MV (min mv 0xFFFF) s
    if mv < 2500 && !s.backup.cellLow then
      { t with backup := { t.backup with cellLow := true } } |> raiseF 0x0F Fld.CLK_EVENT_CELL_LOW |> say Code.CLK_CELL_LOW
    else if 2700 ≤ mv && s.backup.cellLow then
      { t with backup := { t.backup with cellLow := false } } |> raiseF 0x0F Fld.CLK_EVENT_CELL_LOW |> say Code.CLK_CELL_OK
    else t)

end Sys2Proof.Machine
end

