-- ==== Sys2Proof/Machine/ResetOps.lean ====
section
/-! DEFINITION. Resets of the module and of its regions, the configuration store at a start, erasure and failed trials
(R588, R643, R659 to R662, R670, R678): the operations that power, lifecycle and firmware share. -/
namespace Sys2Proof.Machine

/-! ### Firmware slots and the configuration store -/

/-- Flash address of a firmware slot (Table MEM-4), and the slot that does not run. -/
def slotBase (b : Bool) : Nat := if b then 0x310000000 else 0x300000000
def otherSlot (s : State) : Bool := !s.fwu.runB

def slotValid (b : Bool) (s : State) : Bool := if b then s.fwu.validB else s.fwu.validA
def setSlotValid (b v : Bool) (s : State) : State :=
  { s with fwu := if b then { s.fwu with validB := v } else { s.fwu with validA := v } }

/-- Fields of the header of the image in a slot (Table FWU-1). -/
def hdrVersion (b : Bool) (s : State) : Nat := mgetN (slotBase b + 4) 4 s
def hdrCfgFormat (b : Bool) (s : State) : Nat := mgetN (slotBase b + 10) 2 s
def hdrCfgFrom (b : Bool) (s : State) : Nat := mgetN (slotBase b + 12) 2 s
def hdrVariants (b : Bool) (s : State) : Nat := mgetN (slotBase b + 14) 1 s
def hdrSafeCrc (b : Bool) (s : State) : Nat := mgetN (slotBase b + 16) 4 s

/-- The digest in a customer key slot. -/
def keyOf (k : Nat) (s : State) : Option (BitVec 384) := if k = 0 then s.lcy.key0 else s.lcy.key1

/-- A signed item is accepted in the present lifecycle state (R641, Tables LCY-1 and LCY-3). -/
def accepts (x : Signed) (s : State) : Bool :=
  x.good && (match x.signer with
    | .test => s.lcy.st.val == 0 || s.lcy.st.val == 4
    | .slot k d => inRange s.lcy.st 1 3 && keyOf k s == some d && !s.lcy.revoked.getLsbD k)

/-- A copy of the configuration store is usable in a format. -/
def cfgFits (c : CfgCopy) (f : Nat) (s : State) : Bool := accepts c.signed s && c.format.toNat == f

/-- The copy that the running firmware uses (R661, R662). -/
def cfgUsed (s : State) : Option CfgCopy :=
  let f := hdrCfgFormat s.fwu.runB s
  match s.fwu.cur.filter (fun c => cfgFits c f s) with
  | some c => some c
  | none => s.fwu.prev.filter (fun c => cfgFits c f s)

/-- Migration at a start (R661): an older copy that the firmware knows is kept as the previous one. The generation of the
new copy is free. -/
def cfgMigrate (s : State) : State :=
  let f := hdrCfgFormat s.fwu.runB s
  match s.fwu.cur with
  | some c =>
    if accepts c.signed s && inRange c.format.toNat (hdrCfgFrom s.fwu.runB s) (f - 1) && decide (0 < f) then
      withFree (fun d t => say Code.FWU_CFG_MIGRATED { t with fwu := { t.fwu with
        cur := some { c with format := BitVec.ofNat 16 f, gen := d.setWidth 32 }, prev := some c } }) s
    else s
  | none => s

/-- The mode of online change that the store holds (R203). -/
def storedMode (s : State) : Bool := ((cfgUsed s).bind (·.changeMode)).getD true

/-- A trial fails (R659, R660): the previous slot and the previous store come back, and the slot on trial is invalid. DEDUCED: log entry 42. -/
def trialFail (s : State) : State :=
  if !s.fwu.trial then s
  else
    let bad := s.fwu.runB
    setSlotValid bad false { s with fwu := { s.fwu with
      runB := !bad, trial := false, fallbackDue := true
      cur := if s.fwu.prev.isSome then s.fwu.prev else s.fwu.cur
      prev := none } }

/-! ### Reset -/

/-- A consumer's epoch is retained through a reset while a feed is present (R431). -/
def keptConns (s : State) : List (Nat × Conn) :=
  (s.saf.conns.filter (fun e => e.1 < 16 && e.2.epoch != 0)).map (fun e => (e.1, ({ epoch := e.2.epoch } : Conn)))

/-- What a reset keeps: the backup domain, flash and DRAM, fuses and firmware slots, pins and latches; every register and
every block takes its reset value (R580, R593, R670, R678). The waiting commands and what was sent are the model's. -/
def resetState (cause : Nat) (s : State) : State :=
  { State.reset with
    pending := s.pending, hostData := s.hostData, hostBytes := s.hostBytes, dbgData := s.dbgData
    freeCtr := s.freeCtr, out := s.out, mem := s.mem, backup := s.backup
    mpu := { colours := s.mpu.colours }
    lcy := { s.lcy with transition := none, auth := none, token := none, sessionEnd := 0, ir := .idcode }
    fwu := { s.fwu with
      healthOk := false, programming := false, complete := false, noFw := false, full := false, viaSwitch := false
      pauseAt := 0, skipped := 0 }
    triad := { retired := s.triad.retired }
    saf := { conns := keptConns s, epochHold := s.saf.epochHold }
    sup := { cause := Fin.ofNat 16 cause, starts := s.sup.starts, sidPins := s.sup.sidPins, sid := s.sup.sid
             seated := s.sup.seated, leverClosed := s.sup.leverClosed, converters := s.sup.converters
             authOther := s.sup.authOther, peerPresent := s.sup.peerPresent
             dramLost := s.sup.dramLost, supplyLow := s.sup.supplyLow } }

/-- The debug session closes (R649). -/
def sessionClose (s : State) : State :=
  if flag Fld.LCY_DBG_STATUS_OPEN s then
    s |> setFlag Fld.LCY_DBG_STATUS_OPEN false |> setFlag Fld.LCY_DBG_STATUS_SCAN_OPEN false
      |> raiseF 0x12 Fld.LCY_EVENT_DBG |> say Code.LCY_DBG_CLOSED
  else s

/-- The module enters reset (R91, R678 to R680): a trial ends as a failure, and an open session closes. -/
def moduleReset (cause : Nat) (s : State) : State :=
  let open_ := flag Fld.LCY_DBG_STATUS_OPEN s
  resetState cause (trialFail s)
    |> onlyIf open_ (fun t => t |> raiseF 0x12 Fld.LCY_EVENT_DBG |> say Code.LCY_DBG_CLOSED)

/-- DRAM loses its contents, and its granules their colours (Table SUP-5). -/
def dramClear (s : State) : State :=
  let t := mclear 0 0x200000000 s
  { t with mpu := { t.mpu with colours := t.mpu.colours.filter (fun c => decide (0x200000000 / 64 ≤ c.1)) } }

/-- Everything but flash loses its contents. DEDUCED: log entry 20. -/
def memLost (s : State) : State :=
  let t := mclear 0 0x300000000 s
  { t with mpu := { t.mpu with colours := [] }, sup := { t.sup with dramLost := true } }

/-- Registers that a restart of the regions resets: every block but MOD, SUP, STRAND, CLK, MPU, MBX, LCY, FWU and QUE,
which QUIET powers (Table SUP-1, R670). -/
def regionReg (a : Nat) : Bool := inRange a 0x20000 0xCFFFF

/-- What the regions hold goes to its reset state (R670); the supervisor core, the host port, DRAM, the backup domain and the
slot identity carry on. The execution time base starts at 0 (R181). DEDUCED: log entry 20. -/
def regionsClear (s : State) : State :=
  { s with
    regs := s.regs.filter (fun e => !regionReg e.1)
    tides := [], tiFault := [], tt := [], ttOut := [], ttFull := [], seqs := []
    exe := { base := - (nowNs s : Int), slackSince := nowNs s }
    loop := {}, dio := [], dioBank := [], po := [], terms := [], rfxStopped := false, an := [], anBank := []
    saf := { conns := keptConns s, epochHold := s.saf.epochHold }
    triad := { retired := s.triad.retired }, pair := {}, net := {}, can := [], locks := []
    fwPause := false, fwWait := false
    sup := { s.sup with
      hardEbb := false, clockFailed := [], queFault := false, isolated := [], lastIso := [], authDriven := false
      contesting := false, claimAt := none, removing := false, runSeen := false
      heldProg := [], heldTT := [], heldReq := 0 } }

/-- Every region goes to its reset state (R670). -/
def regionsReset (s : State) : State :=
  regionsClear s |> clrReg Reg.SUP_REGIONS 0x11F
    |> setFlag Fld.MPU_CTRL_LOCKED false |> setFlag Fld.MBX_CTRL_BIND_LOCK false
    |> setFlag Fld.MOD_STATUS_PROGRAM_OK false

/-- The pair state at a start (Table PAIR-1, R67, R466). -/
def pairStart (s : State) : State :=
  setFld Fld.PAIR_STATE_STATE (match s.sup.sid.toNat with | 3 => 6 | 2 => 5 | _ => 0) s

/-! ### Erasure (R643) -/

/-- Keys, program store, configuration store, DRAM and backup registers are erased. -/
def eraseAll (s : State) : State :=
  let t := dramClear (mclear 0x320000000 0x28000000 s)
  { t with
    lcy := { t.lcy with key0 := none, key1 := none, marker := none }
    fwu := { t.fwu with cur := none, prev := none, prog := [] }
    triad := { t.triad with retired := 0 }
    backup := { t.backup with breg := [], regsValid := false } }

/-- The fuse group of a target reads blown (R639). -/
def stateBlown (target : Fin 6) (s : State) : State :=
  let old := s.lcy.st.val
  { s with lcy := { s.lcy with st := target, transition := none } }
    |> raiseF 0x12 Fld.LCY_EVENT_STATE |> sayD Code.LCY_STATE_CHANGED (toD (old * 2 ^ 12 + target.val * 2 ^ 8))

/-! ### Safety configuration (R382, R410, R417, R556) -/

/-- Registers, connections and message buffers of the safety configuration; a consumer keeps its retained epoch. -/
def safeLoad (c : SafeCfg) (s : State) : State :=
  let s := s |> wr Reg.SAF_CFG c.cfg |> wr Reg.SAF_CFG_CRC c.crc |> setFlag Fld.SAF_STATE_CFG_OK true
    |> forAll c.sq (fun e => wr (Reg.SQn_CFG e.1) e.2) |> forAll c.si (fun e => wr (Reg.SIp_CFG e.1) e.2)
    |> forAll c.claims (fun e => wr (Reg.SAF_CLAIM e.1) e.2)
  let old := s.saf.conns
  let s := { s with saf := { s.saf with conns := c.conns.foldl (fun l e =>
    Sparse.insert l e.1.val { entry := e.2, epoch := (Sparse.get (fun _ => ({} : Conn)) old e.1.val).epoch }) [] } }
  forAll c.can (fun e => onCan e.1 e.2.1 (fun x =>
    ((x.setWord 0 e.2.2.1).setWord 1 (withField e.2.2.2.1 canOwner 2)).setWord 2 e.2.2.2.2)) s

/-- The safety configuration in force from this start on; one that fails keeps the region in fallback (R382). -/
def safeConfig (s : State) : State :=
  match cfgUsed s with
  | none => s
  | some c =>
    let s := setFlag Fld.SAF_STATE_SPLIT_STRAP c.split s
    if c.safe.good then safeLoad c.safe s else safFault Code.SAF_CFG_BAD s

end Sys2Proof.Machine
end

