-- ==== Sys2Proof/Machine/Lifecycle.lean ====
section
/-! DEFINITION. Lifecycle states, keys, debug sessions and boundary scan (R637 to R652): the meanings of their commands
and events. -/
namespace Sys2Proof.Machine

/-- A command of LCY_CMD; one written while BUSY is ignored. -/
def lcyCmd (f : State → State) (s : State) : State :=
  hostCmd Reg.LCY_CMD (fun s => if flag Fld.LCY_RESULT_BUSY s then s else f s) s

def lcyResult (st : Status) (s : State) : State := result Fld.LCY_RESULT_STATUS st s

/-- A refused command. -/
def lcyRefuse (st : Status) (s : State) : State := s |> raiseF 0x12 Fld.LCY_EVENT_REFUSED |> lcyResult st

/-- The payload of an answer to a bulk item: its offset and a status (R653). -/
def bulkAnswer (q : Nat) (off : Nat) (st : Status) (s : State) : State :=
  quePush q 0 0 (moduleNs s) (Config.bulkAnswer (toW off) st) s

/-! ### Lifecycle (R637 to R645) -/

/-- Table LCY-2 lists the transition. -/
def lcyListed (a b : Nat) : Bool :=
  [(0, 1), (1, 2), (2, 3), (2, 4), (3, 4)].contains (a, b) || (decide (a < 5) && b == 5)

/-- The precondition of a listed transition that fails, as its status. DEDUCED: log entry 41. -/
def lcyBlocked (target : Nat) (s : State) : Option Status :=
  match target with
  | 1 => if s.lcy.key0.isSome then none else some Code.LCY_CMD_REFUSED
  | 3 => if flag Fld.EXE_CFG_CHANGE_MODE s == storedMode s then none else some Code.LCY_CMD_REFUSED
  | 4 =>
    if s.lcy.auth != some (rd64 Reg.LCY_NONCE_LO s) then some Code.LCY_AUTH_BAD
    else if power s = 1 then none else some Code.LCY_NOT_QUIET
  | 5 => if power s = 1 then none else some Code.LCY_NOT_QUIET
  | _ => none

/-- R638: TRANSITION. The erase marker is written first (R643), and sealing closes the session. -/
def execLcyTransition (target confirm : Byte) (s : State) : Host.Outcome State Fault Refusal :=
  .next (lcyCmd (fun s =>
    if confirm != ~~~target || !lcyListed s.lcy.st target.toNat then lcyRefuse Code.LCY_CMD_REFUSED s
    else match lcyBlocked target.toNat s with
    | some st => lcyRefuse st s
    | none =>
      let t := Fin.ofNat 6 target.toNat
      { s with lcy := { s.lcy with transition := some t, marker := if 4 ≤ t.val then some t else s.lcy.marker } }
        |> setFlag Fld.LCY_RESULT_BUSY true |> onlyIf (t.val == 3) sessionClose) s)

/-- R639, R643: the fuse group reads blown. After an erasure the module resets with cause FIRMWARE (Table SUP-3), and its
reports wait for the start. -/
def execLcyStateChanged (s : State) : Host.Outcome State Fault Refusal :=
  .next (if !alive s then s
    else match s.lcy.transition with
    | none => s
    | some t =>
      if 4 ≤ t.val then eraseAll s |> moduleReset 4 |> say Code.LCY_ERASE_DONE |> stateBlown t
      else stateBlown t s |> sessionClose |> setFlag Fld.LCY_RESULT_BUSY false |> lcyResult Code.LCY_OK)

/-- R641: REVOKE_KEY. -/
def execLcyRevokeKey (slot : Fin 2) (s : State) : Host.Outcome State Fault Refusal :=
  .next (lcyCmd (fun s =>
    let o := 1 - slot.val
    if (keyOf o s).isNone || s.lcy.revoked.getLsbD o then lcyRefuse Code.LCY_CMD_REFUSED s
    else { s with lcy := { s.lcy with revoked := s.lcy.revoked ||| BitVec.ofNat 2 (2 ^ slot.val) } }
      |> lcyResult Code.LCY_OK |> say Code.LCY_KEY_REVOKED) s)

/-- Draw a new nonce (R642). -/
def newNonce (s : State) : State := withFree (fun d => wr64 Reg.LCY_NONCE_LO d) s

/-- R642: NEW_NONCE. -/
def execLcyNewNonce (s : State) : Host.Outcome State Fault Refusal :=
  .next (lcyCmd (fun s => s |> newNonce |> lcyResult Code.LCY_OK) s)

/-- The UID of this module. -/
def uid : DWord := toD (Config.uidHi.toNat * 2 ^ 32 + Config.uidLo.toNat)

/-- An item of Q35 is judged and answered in Q43. -/
def keyItem (bad : Bool) (st : Status) (f : State → State) (s : State) : State :=
  if !alive s then s
  else queTake 35 (fun _ t =>
    if bad then t |> raiseF 0x12 Fld.LCY_EVENT_REFUSED |> say st |> bulkAnswer 43 0 st
    else t |> f |> bulkAnswer 43 0 Code.LCY_OK) s

/-- R640: a key package. DEDUCED: log entry 41. -/
def execKeyPackage (uid_ : DWord) (good : Bool) (k0 k1 : Option (BitVec 384)) (s : State) : Host.Outcome State Fault Refusal :=
  let bad := !good || uid_ != uid || decide (1 < s.lcy.st.val) || (k0.isSome && s.lcy.key0.isSome) || (k1.isSome && s.lcy.key1.isSome)
  .next (keyItem bad Code.LCY_KEY_BAD (fun t => { t with lcy := { t.lcy with
    key0 := if k0.isSome then k0 else t.lcy.key0
    key1 := if k1.isSome then k1 else t.lcy.key1 } }) s)

/-- R642: a return authorisation. DEDUCED: log entry 41. -/
def execReturnAuthorisation (uid_ nonce : DWord) (good : Bool) (s : State) : Host.Outcome State Fault Refusal :=
  let bad := !good || uid_ != uid || nonce != rd64 Reg.LCY_NONCE_LO s
  .next (keyItem bad Code.LCY_AUTH_BAD (fun t => { t with lcy := { t.lcy with auth := some nonce } }) s)

/-! ### Debug sessions (R648, R649) -/

/-- The token is void (Table LCY-8). -/
def tokenVoid (s : State) : State := { s with lcy := { s.lcy with token := none } }

/-- R648: a debug token is written; 0 voids it. -/
def execLcyDbgTokenWrite (token : Word) (s : State) : Host.Outcome State Fault Refusal :=
  .next (hostCmd Reg.LCY_DBG_TOKEN (fun s =>
    if token = 0 then (if s.lcy.token.isSome then s |> tokenVoid |> raiseF 0x12 Fld.LCY_EVENT_DBG else s)
    else { s with lcy := { s.lcy with token := some (token, flag Fld.LCY_DBG_CFG_SCAN_EN s) } }
      |> setFld Fld.LCY_DBG_STATUS_FAILS 0) s)

/-- A session opens for WINDOW. -/
def sessionOpen (scan : Bool) (s : State) : State :=
  { s with lcy := { s.lcy with sessionEnd := nowNs s + 1000000000 * fld Fld.LCY_DBG_CFG_WINDOW s } }
    |> setFlag Fld.LCY_DBG_STATUS_OPEN true |> setFlag Fld.LCY_DBG_STATUS_SCAN_OPEN scan
    |> raiseF 0x12 Fld.LCY_EVENT_DBG |> say Code.LCY_DBG_OPEN

/-- R648: a value is presented in DBG_AUTH; `tie` in the cycle in which the token expires. DEDUCED: log entry 52. -/
def execDbgAuth (value : Word) (tie : Bool) (s : State) : Host.Outcome State Fault Refusal :=
  .next (match s.lcy.token with
  | none => s
  | some (v, scan) =>
    if !alive s || s.lcy.st.val != 2 || s.lcy.ir != .dbgAuth then s
    else
      let s := onlyIf tie (bump Fld.LCY_CLOSE_CALL_COUNT) s
      let t := if value = v then sessionOpen scan s
        else
          let n := fld Fld.LCY_DBG_STATUS_FAILS s + 1
          let t := setFld Fld.LCY_DBG_STATUS_FAILS (min n 3) s
          if n < 3 then t else t |> tokenVoid |> raiseF 0x12 Fld.LCY_EVENT_DBG |> say Code.LCY_DBG_TOKEN_BAD
      onlyIf tie tokenVoid t)

/-- R648: 60 s have passed since the token was written. -/
def execDbgTokenExpiry (s : State) : Host.Outcome State Fault Refusal :=
  .next (if alive s && s.lcy.token.isSome then s |> tokenVoid |> raiseF 0x12 Fld.LCY_EVENT_DBG else s)

/-- R649: WINDOW ends. -/
def execDbgSessionExpiry (s : State) : Host.Outcome State Fault Refusal :=
  .next (if alive s then sessionClose s else s)

/-- R649: DBG_CLOSE. -/
def execLcyDbgClose (s : State) : Host.Outcome State Fault Refusal :=
  .next (lcyCmd (fun s => s |> sessionClose |> lcyResult Code.LCY_OK) s)

/-! ### Boundary scan (R650 to R652) -/

/-- The instruction is open in the present state (Table LCY-5). -/
def scanOpen (i : ScanInst) (s : State) : Bool :=
  match s.lcy.st.val with
  | 2 => i == .bypass || i == .idcode || i == .dbgAuth || flag Fld.LCY_DBG_STATUS_SCAN_OPEN s
  | 3 | 5 => i == .bypass || i == .idcode
  | _ => true

/-- R651, R652: an update of the instruction register; one that is not open, or that would drive pins while the module
holds AUTH or outside QUIET and READY, is decoded as BYPASS. -/
def execScanInstruction (inst : ScanInst) (s : State) : Host.Outcome State Fault Refusal :=
  let drive := !scanDrives inst || (!s.sup.authDriven && inRange (power s) 1 2)
  .next (if !alive s then s
    else if scanOpen inst s && drive then { s with lcy := { s.lcy with ir := inst } }
    else { s with lcy := { s.lcy with ir := .bypass } }
      |> raiseF 0x12 Fld.LCY_EVENT_SCAN_REFUSED |> say Code.LCY_SCAN_REFUSED)

end Sys2Proof.Machine
end

