-- ==== Sys2Proof/Machine/Firmware.lean ====
section
/-! DEFINITION. Firmware slots, activation and trial, the configuration store and the program store (R653 to R662): the
meanings of their commands and items. -/
namespace Sys2Proof.Machine

def fwuResult (st : Status) (s : State) : State := result Fld.FWU_RESULT_STATUS st s
def fwuRefuse (st : Status) (s : State) : State := s |> raiseF 0x13 Fld.FWU_EVENT_REFUSED |> fwuResult st

/-- A command of FWU_CMD; one written while BUSY is ignored. -/
def fwuCmd (f : State → State) (s : State) : State :=
  hostCmd Reg.FWU_CMD (fun s => if flag Fld.FWU_RESULT_BUSY s then s else f s) s

def onFwu (f : Fwu → Fwu) (s : State) : State := { s with fwu := f s.fwu }

def retired (s : State) : Bool := s.lcy.st.val == 5

/-! ### Programming (R653, R654) -/

/-- R653: PROGRAM. -/
def execFwuProgram (s : State) : Host.Outcome State Fault Refusal :=
  .next (fwuCmd (fun s =>
    if s.fwu.trial then fwuRefuse Code.FWU_TRIAL_BUSY s
    else if retired s then fwuRefuse Code.FWU_CMD_INVALID s
    else s |> setSlotValid (otherSlot s) false |> mclear (slotBase (otherSlot s)) 0x10000000
      |> onFwu (fun x => { x with programming := true, complete := false }) |> fwuResult Code.FWU_OK) s)

/-- R653: ABORT; the slot stays invalid. -/
def execFwuAbort (s : State) : Host.Outcome State Fault Refusal :=
  .next (fwuCmd (fun s =>
    s |> onFwu (fun x => { x with programming := false, complete := false }) |> fwuResult Code.FWU_OK) s)

/-- Take a bulk item from a queue: its offset, LAST and data; what it answers goes to the answer queue (R653). -/
def bulkItem (q : Nat) (f : Nat → Bool → List Byte → State → Status × State) (s : State) : State :=
  if !alive s then s
  else queTake q (fun p t =>
    let off := leNat (p.take 4)
    let r := f off ((leNat ((p.drop 4).take 4)) % 2 == 1) (p.drop 8) t
    let u := onlyIf (r.1.toNat % 256 != 0) (fun u => u |> raiseF 0x13 Fld.FWU_EVENT_REFUSED |> say r.1) r.2
    bulkAnswer (q + 8) off r.1 u) s

/-- R653: an item of a firmware image. -/
def execFirmwareItem (s : State) : Host.Outcome State Fault Refusal :=
  .next (bulkItem 32 (fun off last data t =>
    if !t.fwu.programming || retired t || decide (0x10000000 < off + data.length) then (Code.FWU_CMD_INVALID, t)
    else (Code.FWU_OK, t |> msetBytes (slotBase (otherSlot t) + off) data
      |> onlyIf last (onFwu (fun x => { x with programming := false, complete := true })))) s)

/-- Bit of VARIANTS for this module (Tables FWU-1 and MOD-2). -/
def variantBit : Nat := Config.variant.val

/-- The programmed image does not suit the module or its store (R654). -/
def fwIncompatible (s : State) : Bool :=
  let b := otherSlot s
  let format := (s.fwu.cur.map (·.format.toNat)).getD 0
  !(hdrVariants b s).testBit variantBit || decide (format < hdrCfgFrom b s)
  || (decide (hdrCfgFormat b s < format) && !s.fwu.prev.any (fun c => c.format.toNat == hdrCfgFormat b s))

/-- R654: VERIFY; `good` says that digest and signature hold. -/
def execFwuVerify (good : Bool) (s : State) : Host.Outcome State Fault Refusal :=
  .next (fwuCmd (fun s =>
    if !s.fwu.complete || retired s then fwuRefuse Code.FWU_CMD_INVALID s
    else if !good then fwuRefuse Code.FWU_IMAGE_BAD s
    else if fwIncompatible s then fwuRefuse Code.FWU_INCOMPATIBLE s
    else s |> setSlotValid (otherSlot s) true |> onFwu (fun x => { x with complete := false })
      |> fwuResult Code.FWU_OK |> say Code.FWU_VERIFIED) s)

/-! ### Activation (R655 to R657, R502) -/

/-- The verified slot runs from here on, on trial (R655, R658). -/
def trialStart (s : State) : State :=
  onFwu (fun x => { x with
    runB := !x.runB, trial := true, healthOk := false, trialEnd := nowNs s + 1000000000 * x.trialWin }) s

/-- Reset into the verified slot. -/
def activateReset (s : State) : State := trialStart (moduleReset 4 s)

/-- ACTIVATE on a lone module, or on a side that proceeds as one (R656, R657). DEDUCED: log entry 42. -/
def activateLone (s : State) : State :=
  if s.fwu.noFw then activateReset s
  else if hdrSafeCrc (otherSlot s) s == hdrSafeCrc s.fwu.runB s then { s with fwWait := true }
  else if s.fwu.full then activateReset s
  else s |> setFlag Fld.FWU_RESULT_BUSY false |> fwuRefuse Code.FWU_SAFE_RESET_NEEDED

/-- R655, R502: ACTIVATE; a standby side resets, an active side with a capable partner first hands over. DEDUCED: log entry 42. -/
def execFwuActivate (full : Bool) (s : State) : Host.Outcome State Fault Refusal :=
  .next (fwuCmd (fun s =>
    let phase := s.exe.phase == .verified || s.exe.phase == .armed
    if !slotValid (otherSlot s) s || s.fwu.trial || retired s || phase then fwuRefuse Code.FWU_CMD_INVALID s
    else
      let s := s |> onFwu (fun x => { x with full := full, trialWin := fld Fld.FWU_CFG_TRIAL_WIN s })
        |> setFlag Fld.FWU_RESULT_BUSY true
      if onStandby s then activateReset s
      else if pairState s = 1 && peerInStep s then
        switchAsk .firmware { s with fwWait := true, fwu := { s.fwu with viaSwitch := true } }
      else activateLone s) s)

/-- The switchover that ACTIVATE asked for has ended: the side activates as the standby side, or as a lone module. -/
def activateContinue (s : State) : State :=
  if !s.fwu.viaSwitch || s.pair.switch != .none then s
  else
    let t := { s with fwWait := false, fwu := { s.fwu with viaSwitch := false } }
    if onStandby t then activateReset t else activateLone t

/-- R656: at the opening of the next slack the pause begins, and the new firmware starts. -/
def execFwuPauseStart (s : State) : Host.Outcome State Fault Refusal :=
  .next (if alive s && s.fwWait && !s.fwu.viaSwitch && allIdle s && !slackBusy s then
    { trialStart s with fwWait := false, fwPause := true }
      |> onFwu (fun x => { x with pauseAt := nowNs s, skipped := 0 })
  else s)

/-- R656: the pause ends: each task whose angle was crossed is released once, now. -/
def execFwuActivated (s : State) : Host.Outcome State Fault Refusal :=
  .next (if !alive s || !s.fwPause then s
    else
      let us := usOf (nowNs s - s.fwu.pauseAt) s
      let held := (List.range 24).filter (fun t => match (task t s).held with | .slack _ => true | _ => false)
      { s with fwPause := false, freeCtr := s.freeCtr + 1 }
        |> forAll held (fun t => releaseTask t (nowNs s))
        |> setFld Fld.FWU_PAUSE_US (min us 0xFFFF) |> setFld Fld.FWU_PAUSE_SKIPPED (min s.fwu.skipped 0xFFFF)
        |> bump Fld.FWU_COUNTS_ACTIVATIONS |> raiseF 0x13 Fld.FWU_EVENT_ACTIVATED
        |> setFlag Fld.FWU_RESULT_BUSY false |> fwuResult Code.FWU_OK |> sayD Code.FWU_ACTIVATED (toD us))

/-! ### Trial (R658 to R660) -/

/-- The conditions of R658 hold now. -/
def healthy (s : State) : Bool :=
  alive s && flag Fld.MOD_STATUS_START_DONE s && (cfgUsed s).isSome && fld Fld.SUP_REGIONS_FALLBACK s % 32 == 0
  && inRange (power s) 2 4 && [1, 4, 5].contains (pairState s)

/-- The trial ends in success; the previous store is dropped (R658, R661). -/
def healthOk (s : State) : State :=
  s |> onFwu (fun x => { x with trial := false, healthOk := true, prev := none })
    |> raiseF 0x13 Fld.FWU_EVENT_HEALTH_OK |> say Code.FWU_HEALTH_OK

/-- R658: the criteria have held for 30 s. -/
def execFwuHealthOk (s : State) : Host.Outcome State Fault Refusal :=
  .next (if s.fwu.trial && healthy s then healthOk s else s)

/-- R659: the window expires; HEALTH_OK in the same cycle wins. -/
def execFwuTrialExpiry (tie : Bool) (s : State) : Host.Outcome State Fault Refusal :=
  .next (if !alive s || !s.fwu.trial then s
    else if tie && healthy s then healthOk (bump Fld.FWU_CLOSE_CALL_COUNT s)
    else moduleReset 4 s)

/-- R659: REJECT. -/
def execFwuReject (s : State) : Host.Outcome State Fault Refusal :=
  .next (fwuCmd (fun s =>
    if s.fwu.trial then moduleReset 4 s |> say Code.FWU_REJECTED else fwuRefuse Code.FWU_CMD_INVALID s) s)

/-! ### Configuration store, program store and unused queues (R645, R646, R653, R661) -/

/-- R646, R661: an item of the configuration store; `copy` is the content that the last item completes. DEDUCED: log entry 42. -/
def execConfigStoreWrite (copy : CfgCopy) (s : State) : Host.Outcome State Fault Refusal :=
  .next (bulkItem 33 (fun _ last _ t =>
    let split := ((cfgUsed t).map (·.split)).getD false
    if retired t then (Code.FWU_CMD_INVALID, t)
    else if t.fwu.trial then (Code.FWU_TRIAL_BUSY, t)
    else if !last then (Code.FWU_OK, t)
    else if !accepts copy.signed t then (Code.FWU_IMAGE_BAD, t)
    else if t.lcy.st.val == 3 && (copy.split != split || copy.changeMode.getD true != storedMode t) then
      (Code.LCY_SEALED, raiseF 0x12 Fld.LCY_EVENT_REFUSED t)
    else (Code.FWU_OK, onFwu (fun x => { x with cur := some copy }) t)) s)

/-- Flash address of the program store; its two areas follow each other (Table MEM-4). -/
def progBase : Nat := 0x328000000

/-- R653, Table LCY-3: an item of the program store; `image` is what the last item completes. The area written last is
the one that a start runs. DEDUCED: log entry 42. -/
def execProgramStoreWrite (image : Option Image) (signed : Signed) (s : State) : Host.Outcome State Fault Refusal :=
  .next (bulkItem 34 (fun off last data t =>
    let area := off / 0x10000000
    if retired t || decide (0x20000000 < off + data.length) then (Code.FWU_CMD_INVALID, t)
    else
      let t := msetBytes (progBase + off) data t
      if !last then (Code.FWU_OK, t)
      else match image with
      | some m =>
        if accepts signed t then
          (Code.FWU_OK, onFwu (fun x => { x with
            prog := Sparse.insert x.prog area (m, signed), progArea := Fin.ofNat 2 area }) t)
        else (Code.EXE_IMAGE_BAD, onFwu (fun x => { x with prog := Sparse.erase x.prog area }) t)
      | none => (Code.EXE_IMAGE_BAD, onFwu (fun x => { x with prog := Sparse.erase x.prog area }) t)) s)

/-- R653: an item in Q36 to Q39 is answered with ERR set. -/
def execUnusedBulkQueueItem (k : Fin 4) (s : State) : Host.Outcome State Fault Refusal :=
  .next (if !alive s then s
    else queTake (36 + k) (fun p t =>
      quePush (44 + k) 2 0 (moduleNs t) (Config.bulkAnswer (toW (leNat (p.take 4))) Code.FWU_CMD_INVALID) t) s)

end Sys2Proof.Machine
end

