-- ==== Sys2Proof/Machine/Mem.lean ====
section
/-! DEFINITION. Protection rules, DRAM errors, mailboxes, lock registers and queue indices (R609 to R635): the
meanings of their commands and events. -/
namespace Sys2Proof.Machine

/-! ### Protection (R616 to R618) -/

/-- A staged paint entry. -/
def stagedPaint (i : Nat) (s : State) : Desc := Sparse.get (fun _ => {}) s.mpu.paint i

/-- The granules a descriptor or paint entry spans (Table MPU-1). -/
def descStart (d : Desc) : Nat := d.w0.toNat % 2 ^ 30
def descEnd (d : Desc) : Nat := d.w1.toNat % 2 ^ 30
def descOn (d : Desc) : Bool := d.w2.getLsbD 31

/-- The staged set is refused (R617): START above END, or paint in the colour store. -/
def stagedBad (s : State) : Bool :=
  (List.range 320).any (fun k => let d := mpuDesc s.mpu.staged (k / 32) (k % 32); descOn d && decide (descEnd d < descStart d))
  || (List.range 16).any (fun i => let d := stagedPaint i s
    descOn d && (decide (descEnd d < descStart d)
      || (decide (descStart d ≤ 0x01FFFFFFF / 64) && decide (0x01C000000 / 64 ≤ descEnd d))))

/-- Status of the last MPU command. -/
def mpuResult (st : Status) (s : State) : State := result Fld.MPU_RESULT_STATUS st s

/-- Put the staged set in force (R617). -/
def mpuApply (s : State) : State :=
  let paint := ((List.range 16).map (fun i => stagedPaint i s)).filter descOn
  let ranges := paint.map (fun d => (descStart d, descEnd d, d.w2.toNat % 16))
  { s with mpu := { s.mpu with
    rules := s.mpu.staged, paint := [], colours := ranges.reverse ++ s.mpu.colours } }
    |> wr Reg.MPU_EPOCH (rd Reg.MPU_EPOCH s + 1) |> setFlag Fld.MPU_RESULT_BUSY true

/-- R617: MPU_CMD COMMIT. -/
def execMpuCommit (s : State) : Host.Outcome State Fault Refusal :=
  .next (hostCmd Reg.MPU_CMD (fun s =>
    if flag Fld.MPU_CTRL_LOCKED s then mpuResult Code.MPU_LOCKED s
    else if flag Fld.MPU_RESULT_BUSY s then mpuResult Code.MPU_COMMIT_BUSY s
    else if stagedBad s then mpuResult Code.MPU_CFG_BAD s
    else mpuApply s) s)

/-- R617: every part of the old epoch has completed. -/
def execMpuCommitted (s : State) : Host.Outcome State Fault Refusal :=
  .next (if alive s && flag Fld.MPU_RESULT_BUSY s then
    s |> setFlag Fld.MPU_RESULT_BUSY false |> raiseF 0x10 Fld.MPU_EVENT_COMMITTED |> mpuResult Code.MPU_COMMITTED
  else s)

/-- R616: MPU_CMD ABANDON. -/
def execMpuAbandon (s : State) : Host.Outcome State Fault Refusal :=
  .next (hostCmd Reg.MPU_CMD (fun s =>
    mpuResult Code.MPU_OK { s with mpu := { s.mpu with staged := s.mpu.rules, paint := [] } }) s)

/-- Stage a descriptor of a master. -/
def stageDesc (m d : Nat) (x : Desc) (s : State) : State :=
  { s with mpu := { s.mpu with staged := { s.mpu.staged with
    desc := Sparse.set defaultDesc s.mpu.staged.desc (m * 32 + d) x } } }

/-- Stage a master's configuration word. -/
def stageCfg (m : Nat) (w : Word) (s : State) : State :=
  { s with mpu := { s.mpu with staged := { s.mpu.staged with cfg := Sparse.set defaultCfg s.mpu.staged.cfg m w } } }

/-- Stage a paint entry. -/
def stagePaint (i : Nat) (x : Desc) (s : State) : State :=
  { s with mpu := { s.mpu with paint := Sparse.set (fun _ => {}) s.mpu.paint i x } }

/-- R633: MPU_CMD READ; a committed paint entry is disabled (R616). -/
def execMpuRead (s : State) : Host.Outcome State Fault Refusal :=
  .next (hostCmd Reg.MPU_CMD (fun s =>
    let m := fld Fld.MPU_STG_SEL_MASTER s
    let e := fld Fld.MPU_STG_SEL_ENTRY s
    let t := if flag Fld.MPU_STG_SEL_PAINT s then stagePaint (e % 16) {} s
      else if m < 10 then stageCfg m (mpuCfg s.mpu.rules m) (stageDesc m e (mpuDesc s.mpu.rules m e) s)
      else s
    mpuResult Code.MPU_OK t) s)

/-- R618: a host write of 1 to MPU_CTRL.LOCKED. -/
def execMpuLockWrite (s : State) : Host.Outcome State Fault Refusal :=
  .next (hostCmd Reg.MPU_CTRL (setFlag Fld.MPU_CTRL_LOCKED true) s)

/-! ### DRAM errors (R619) -/

/-- R619: a correctable symbol. -/
def execMemEccCorrected (addr : BitVec 36) (s : State) : Host.Outcome State Fault Refusal :=
  .next (if alive s && decide (addr.toNat ≤ dramEnd) then s |> bump Fld.MEM_ECC_CORR |> say Code.MEM_ECC_CORRECTED else s)

/-- The queues whose slots hold an address. -/
def queuesAt (a : Nat) (s : State) : List Nat :=
  (List.range 64).filter (fun q => queEnabled q s && decide (queBase q s ≤ a)
    && decide (a < queBase q s + queEntries q s * queSlot q s))

/-- A slot of a queue is dropped (Table MEM-5). DEDUCED: log entry 47. -/
def dropSlot (a q : Nat) (s : State) : State :=
  let t := s |> setFlag (Fld.QUEq_STATUS_LAST_ERR q) true |> say Code.QUE_MEM_ERR
  if queFill q s != 0 && (a - queBase q s) / queSlot q s == queTail q s then queFree q t else t

/-- An uncorrectable symbol is counted and its codeword recorded (R619). -/
def dramEccRecord (a : Nat) (s : State) : State :=
  s |> bump Fld.MEM_ECC_UNCORR |> wr Reg.MEM_ECC_ADDR_LO (toW (a / 16 * 16)) |> wr Reg.MEM_ECC_ADDR_HI (toW (a / 2 ^ 32))
    |> raiseF 0x10 Fld.MPU_EVENT_ECC_UNCORR

/-- R619, Table MEM-5: an uncorrectable symbol. -/
def execMemEccUncorr (addr : BitVec 36) (s : State) : Host.Outcome State Fault Refusal :=
  let a := addr.toNat
  let area := if s.exe.area then 1 else 0
  let image := if a < 0x02000000 then some (a / 0x01000000) else if a < 0x0A000000 then some ((a - 0x02000000) / 0x04000000) else none
  let logic := fun s => enterFallback 0 Code.MEM_ECC_UNCORR (say Code.MEM_ECC_UNCORR s)
  .next (if !alive s || decide (dramEnd < a) then s
    else
      let s := dramEccRecord a s
      match image with
      | some i =>
        if i = area && s.exe.image.isSome then logic s
        else say Code.MEM_ECC_RECOVERED { s with exe := { s.exe with
          inactive := none, previous := none, phase := .none, busy := .none } }
      | none =>
        if inRange a 0x0A000000 0x0AFFFFFF || inRange a 0x18200000 0x1FFFFFFF then logic s
        else if inRange a 0x0B000000 0x0BFFFFFF then
          say Code.MEM_ECC_RECOVERED (if onStandby s then syncStart s else s)
        else if inRange a 0x0C000000 0x0FFFFFFF then forAll (queuesAt a s) (dropSlot a) s
        else if inRange a 0x10000000 0x181FFFFF then s
        else say Code.MEM_ECC_UNCORR s)

/-! ### Mailboxes (R620 to R624) -/

/-- An access of a master to a register of the control window (R50, R54, R612). -/
def masterAcc (master a : Nat) (k : Acc) (f : State → State) (s : State) : State :=
  if master = 8 then hostAcc a k f s
  else if !alive s then s
  else match mpuCheck master (0x400000000 + a) k (masterColour master s) s with
    | none => f s
    | some c => mpuDeny master (0x400000000 + a) k (masterColour master s) c s

/-- What a read returns to the host. -/
def hostGets (master : Nat) (w : Word) (s : State) : State := if master = 8 then { s with hostData := w } else s

/-- R621: a write of MBXm_SEND. -/
def execMbxSend (master : Fin 10) (m : Fin 24) (word : Word) (s : State) : Host.Outcome State Fault Refusal :=
  .next (masterAcc master (Reg.MBXm_SEND m) .write (fun s => (mbxSend m master word s).2) s)

/-- R621: a read of MBXm_RECV. -/
def execMbxRecv (master : Fin 10) (m : Fin 24) (s : State) : Host.Outcome State Fault Refusal :=
  .next (masterAcc master (Reg.MBXm_RECV m) .read (fun s =>
    hostGets master ((mbxPeek m master s).getD 0) (mbxTake m master s).2) s)

/-- R622: doorbell bits rung. -/
def execMbxDoorbellRing (master : Fin 10) (m : Fin 24) (bits : Word) (s : State) : Host.Outcome State Fault Refusal :=
  .next (masterAcc master (Reg.MBXm_DBL m) .write (fun s => (mbxRing m master bits s).2) s)

/-- R622: doorbell bits taken by end 1; end 0 takes none. -/
def execMbxDoorbellTake (master : Fin 10) (m : Fin 24) (bits : Word) (s : State) : Host.Outcome State Fault Refusal :=
  .next (masterAcc master (Reg.MBXm_DBL m) .write (fun s => (mbxOp m master (fun e s =>
    if e then (Code.MBX_OK, onMbx m (fun x => { x with bell := x.bell &&& ~~~ bits }) s) else (Code.MBX_WRONG_END, s)) s).2) s)

/-- R622: a return code written. -/
def execMbxAckWrite (master : Fin 10) (m : Fin 24) (code : BitVec 16) (s : State) : Host.Outcome State Fault Refusal :=
  .next (masterAcc master (Reg.MBXm_ACK m) .write (fun s => (mbxAck m master code s).2) s)

/-- R622: a read of the acknowledge register; a read by end 0 clears NEW and OVERRUN. -/
def execMbxAckRead (master : Fin 10) (m : Fin 24) (s : State) : Host.Outcome State Fault Refusal :=
  .next (masterAcc master (Reg.MBXm_ACK m) .read (fun s =>
    let x := mbx m s
    match mbxEnd m master s with
    | none => hostGets master 0 (say Code.MBX_NOT_BOUND s)
    | some false =>
      s |> onMbx m (fun y => { y with new := false, overrun := false })
        |> hostGets master (toW (x.new.toNat * 2 ^ 31 + x.overrun.toNat * 2 ^ 30 + x.code.toNat))
    | some true => hostGets master (toW x.code.toNat) s) s)

/-- The lock of the bindings is open (R620). -/
def bindOpen (s : State) : Bool := !flag Fld.MBX_CTRL_BIND_LOCK s && !s.sup.runSeen

/-- A binding that R620 allows. -/
def bindOk (w : Word) : Bool :=
  let a := w.toNat / 2 ^ 20 % 16
  let b := w.toNat / 2 ^ 16 % 16
  [0, 2, 3, 8].contains a && [0, 2, 3, 8].contains b && a != b

/-- R620: a write of MBXm_BIND. -/
def execMbxBindWrite (m : Fin 24) (value : Word) (s : State) : Host.Outcome State Fault Refusal :=
  .next (hostCmd (Reg.MBXm_BIND m) (fun s =>
    let v := value &&& 0x80FFFFFF
    if !bindOpen s then s
    else if v.getLsbD 31 && !bindOk v then wr (Reg.MBXm_BIND m) (v &&& 0x7FFFFFFF) (say Code.MBX_CFG_BAD s)
    else wr (Reg.MBXm_BIND m) v s) s)

/-- R620: a write of 1 to MBX_CTRL.BIND_LOCK. -/
def execMbxBindLock (s : State) : Host.Outcome State Fault Refusal :=
  .next (hostCmd Reg.MBX_CTRL (setFlag Fld.MBX_CTRL_BIND_LOCK true) s)

/-! ### Lock registers (R625 to R627) -/

/-- R625: a read of a lock register. -/
def execMbxLockRead (master : Fin 10) (i : Fin 64) (s : State) : Host.Outcome State Fault Refusal :=
  .next (masterAcc master (Reg.MBX_LOCK i) .read (fun s =>
    let won := (lockHolder i s).isNone
    let h := ((lockHolder i s).map (·.master)).getD master.val
    hostGets master (toW (h * 256 + won.toNat)) (lockTry i master 0 s)) s)

/-- R625: a write of 1 by the holder frees the lock. -/
def execMbxLockWrite (master : Fin 10) (i : Fin 64) (value : Word) (s : State) : Host.Outcome State Fault Refusal :=
  .next (masterAcc master (Reg.MBX_LOCK i) .write (fun s =>
    if !value.getLsbD 0 then s
    else if (lockHolder i s).any (fun h => h.master == master.val) then lockFree i s
    else say Code.MBX_LOCK_NOT_HELD s) s)

/-- R627: the host frees held locks by force. -/
def execMbxLockForce (high : Bool) (mask : Word) (s : State) : Host.Outcome State Fault Refusal :=
  .next (hostCmd (if high then Reg.MBX_LOCK_FORCE_HI else Reg.MBX_LOCK_FORCE_LO)
    (forceLocks (fun i _ => decide (i / 32 = high.toNat) && mask.getLsbD (i % 32))) s)

/-! ### Queues (R628 to R631) -/

/-- A queue's configuration can be enabled (R631, Table QUE-4). -/
def queCfgOk (q : Nat) (s : State) : Bool :=
  let base := queBase q s
  let last := base + queEntries q s * queSlot q s - 1
  inRange (fld (Fld.QUEq_CFG_ENTRIES_LOG2 q) s) 4 16 && inRange (fld (Fld.QUEq_CFG_SLOT_LOG2 q) s) 6 14
  && base % queSlot q s == 0
  && ((inRange base 0x0C000000 0x0FFFFFFF && inRange last 0x0C000000 0x0FFFFFFF)
    || (inRange base 0x20000000 dramEnd && inRange last 0x20000000 dramEnd))

/-- Enable or disable one queue (R631). -/
def queSwitch (value : Word) (q : Nat) (s : State) : State :=
  let on := value.getLsbD (q % 32)
  if on == queEnabled q s then s
  else if on then
    if queCfgOk q s then setBitAt (queEnReg q) (q % 32) true s else say Code.QUE_CFG_BAD s
  else s |> setBitAt (queEnReg q) (q % 32) false
    |> setFld (Fld.QUEq_HEAD_INDEX q) 0 |> setFld (Fld.QUEq_TAIL_INDEX q) 0

/-- R631: a write of QUE_EN_LO or QUE_EN_HI. DEDUCED: log entry 47. -/
def execQueEnable (high : Bool) (value : Word) (s : State) : Host.Outcome State Fault Refusal :=
  .next (hostCmd (if high then Reg.QUE_EN_HI else Reg.QUE_EN_LO)
    (forAll ((List.range 32).map (fun j => 32 * high.toNat + j)) (queSwitch value)) s)

/-- A host index write that would pass the other index (R630). -/
def queOverrun (q : Nat) (s : State) : State := s |> bump (Fld.QUEq_COUNTS_OVERRUN q) |> say Code.QUE_OVERRUN

/-- R630: the host advances HEAD of a host-produced queue. -/
def execQueHeadWrite (q : Fin 64) (index : BitVec 16) (s : State) : Host.Outcome State Fault Refusal :=
  .next (hostCmd (Reg.QUEq_HEAD q) (fun s =>
    let n := queEntries q s
    if !queHostProduced q || !queEnabled q s then s
    else if decide (n ≤ index.toNat) || decide (n - 1 - queFill q s < (index.toNat + n - queHead q s) % n) then queOverrun q s
    else setFld (Fld.QUEq_HEAD_INDEX q) index.toNat s) s)

/-- R630: the host advances TAIL of a host-consumed queue. -/
def execQueTailWrite (q : Fin 64) (index : BitVec 16) (s : State) : Host.Outcome State Fault Refusal :=
  .next (hostCmd (Reg.QUEq_TAIL q) (fun s =>
    let n := queEntries q s
    if !queHostConsumed q || !queEnabled q s then s
    else if decide (n ≤ index.toNat) || decide (queFill q s < (index.toNat + n - queTail q s) % n) then queOverrun q s
    else setFld (Fld.QUEq_TAIL_INDEX q) index.toNat s) s)

end Sys2Proof.Machine
end

