-- ==== Sys2Proof/Machine/Triad.lean ====
section
/-! DEFINITION. The triad (R440 to R464): votes, fencing, resynchronisation, retirement, self-test and symbol code. -/
namespace Sys2Proof.Machine

/-! ### Votes (R442 to R447) -/

/-- The first field in which two records differ, as TRIAD_DIFF codes it; a core without a record differs in field 7
(R443). -/
def voteDiff : Option VoteRec → Option VoteRec → Option Nat
  | some a, some b =>
    if a.pc ≠ b.pc then some 0 else if a.flags ≠ b.flags then some 1 else if a.sig ≠ b.sig then some 2
    else if a.addr ≠ b.addr then some 3 else if a.data ≠ b.data then some 4 else if a.kind ≠ b.kind then some 5
    else if a.fault ≠ b.fault then some 6 else none
  | _, _ => some 7

/-- Outcome of a vote (Table TRIAD-1): all equal, an odd core with its field and the core whose record stands, or no
majority with the first differing field. -/
inductive VoteResult where
  | equal
  | odd (core field major : Nat)
  | none (field : Nat)
  deriving DecidableEq, Repr

/-- The vote of the voting cores. -/
def vote (l : List (Nat × Option VoteRec)) : VoteResult :=
  match l with
  | [a, b, c] =>
    match voteDiff a.2 b.2, voteDiff a.2 c.2, voteDiff b.2 c.2 with
    | .none, .none, _ => .equal
    | .none, some f, _ => .odd c.1 f a.1
    | some f, .none, _ => .odd b.1 f a.1
    | some f, some _, .none => .odd a.1 f b.1
    | some f, some g, some h => .none (Nat.min f (Nat.min g h))
  | [a, b] => match voteDiff a.2 b.2 with
    | .none => .equal
    | some f => .none f
  | _ => .equal

/-- Record a disagreement (R444); CORE 3 is no majority. -/
def recordDiff (core field t : Nat) (s : State) : State :=
  s |> setFld Fld.TRIAD_DIFF_CORE core |> setFld Fld.TRIAD_DIFF_FIELD field |> setFld Fld.TRIAD_DIFF_TASK t
    |> setFld Fld.TRIAD_DIFF_PC_PC (task t s).pc

def votesField (c : Nat) : RegField :=
  match c with
  | 0 => Fld.TRIAD_VOTES_T0
  | 1 => Fld.TRIAD_VOTES_T1
  | _ => Fld.TRIAD_VOTES_T2

/-! ### Resynchronisation and retirement (R448 to R453) -/

/-- A failed attempt lies within the last 60 min (R452). -/
def recentFail (now : Nat) (e : Nat × Nat) : Bool := decide (now < e.2 + 3600000000000)

/-- Failed attempts of a core within the last 60 min, 0 to 3 (TRIAD_RESYNC). -/
def failCount (c : Nat) (s : State) : Nat :=
  Nat.min 3 (s.triad.fails.filter (fun e => e.1 == c && recentFail (nowNs s) e)).length

/-- A core is retired (R452): powered down, in the configuration store, and the triad is in DUPLEX. -/
def retireCore (c : Nat) (s : State) : State :=
  { s with triad := { s.triad with retired := s.triad.retired ||| BitVec.ofNat 3 (2 ^ c) } }
    |> setFld Fld.TRIAD_STATE_RETIRED (fld Fld.TRIAD_STATE_RETIRED s ||| 2 ^ c)
    |> setFld Fld.TRIAD_STATE_FENCED (fld Fld.TRIAD_STATE_FENCED s &&& (7 ^^^ 2 ^ c))
    |> triadMode 4 |> raiseF 0x0B Fld.TRIAD_EVENT_RETIRED |> say Code.TRIAD_CORE_RETIRED

/-- A resynchronisation of a core fails (R450); the third failure within 60 min retires it (R452). -/
def resyncFail (c : Nat) (s : State) : State :=
  let s := { s with triad := { s.triad with
    resync := none, rejoined := Sparse.erase s.triad.rejoined c, fails := (c, nowNs s) :: s.triad.fails } }
    |> setFld Fld.TRIAD_HEALTH_SINCE 0 |> raiseF 0x0B Fld.TRIAD_EVENT_RESYNC_FAIL |> say Code.TRIAD_RESYNC_FAIL
  if inFallback 0 s then s
  else if failCount c s = 3 then retireCore c s
  else triadMode 2 s

/-- The odd core is fenced (R444). -/
def fence (c field t : Nat) (s : State) : State :=
  let rejoined := (Sparse.find s.triad.rejoined c).any (fun a => decide (nowNs s ≤ a + 1000000000))
  s |> recordDiff c field t |> bump (votesField c) |> setFld Fld.TRIAD_HEALTH_SINCE 0
    |> setFld Fld.TRIAD_STATE_FENCED (fld Fld.TRIAD_STATE_FENCED s ||| 2 ^ c) |> triadMode 2
    |> raiseF 0x0B Fld.TRIAD_EVENT_OUTVOTE |> say Code.TRIAD_OUTVOTE |> isolateBank 0 c
    |> onlyIf rejoined (resyncFail c)

/-- A vote without a majority halts the triad (R445). -/
def noMajority (field t : Nat) (s : State) : State :=
  s |> recordDiff 3 field t |> raiseF 0x0B Fld.TRIAD_EVENT_NO_MAJORITY |> say Code.TRIAD_NO_MAJORITY
    |> enterFallback 0 Code.TRIAD_NO_MAJORITY

/-- The program fault that a record carries (R446, Table KQ-20). -/
def voteFault (r : Option VoteRec) (t : Nat) (s : State) : State :=
  match r with
  | some v => onlyIf (v.fault != 0 && !inFallback 0 s) (progFault (0x0300 + v.fault.zeroExtend 16) t) s
  | none => s

/-- R443: the voter compares the commit records of the voting cores at a commit point of the running task. -/
def execTriadVote (r0 r1 r2 : Option VoteRec) (s : State) : Host.Outcome State Fault Refusal :=
  .next (match s.exe.running with
  | none => s
  | some t =>
    if !triadRuns s then s
    else
      let recs := [(0, r0), (1, r1), (2, r2)]
      let l := recs.filter (fun e => (fld Fld.TRIAD_STATE_VOTING s).testBit e.1)
      match vote l with
      | .equal => voteFault (l.head?.bind (·.2)) t s
      | .odd c f m => voteFault ((recs.find? (fun e => e.1 == m)).bind (·.2)) t (fence c f t s)
      | .none f => noMajority f t s)

/-- R448: in a qualifying slack the fenced core is reset and tested; `pass` is the result of its self-test (R450). -/
def execTriadResyncStart (pass : Bool) (s : State) : Host.Outcome State Fault Refusal :=
  .next (match resyncDue s with
  | none => s
  | some c =>
    if !regionsUp s || inFallback 0 s then s
    else if !pass then resyncFail c s
    else triadMode 3 { s with triad := { s.triad with resync := some (c, nowNs s) } })

/-- R448, R449: the core rejoins lockstep; in the cycle in which the 150 µs expire, completion wins. -/
def execTriadResyncDone (s : State) : Host.Outcome State Fault Refusal :=
  .next (match s.triad.resync with
  | none => s
  | some (c, a) =>
    if !regionsUp s || inFallback 0 s || decide (a + 150000 < nowNs s) then s
    else
      { s with triad := { s.triad with resync := none, rejoined := Sparse.insert s.triad.rejoined c (nowNs s) } }
        |> onlyIf (nowNs s == a + 150000) (bump Fld.TRIAD_CLOSE_CALL_COUNT)
        |> setFld Fld.TRIAD_STATE_FENCED (fld Fld.TRIAD_STATE_FENCED s &&& (7 ^^^ 2 ^ c)) |> triadMode 1
        |> setFld Fld.TRIAD_RESYNC_LAST_US (usOf (nowNs s - a) s) |> unisolateBank 0 c
        |> raiseF 0x0B Fld.TRIAD_EVENT_RESYNC_DONE |> say Code.TRIAD_RESYNC_DONE)

/-- R449: a resynchronisation has not completed 150 µs after its start. -/
def execTriadResyncTimeout (s : State) : Host.Outcome State Fault Refusal :=
  .next (match s.triad.resync with
  | none => s
  | some (c, a) =>
    if !regionsUp s || inFallback 0 s || decide (nowNs s < a + 150000) then s else resyncFail c s)

/-! ### Start-up (R455, R456) -/

/-- The start-up self-test of the triad with its results. DEDUCED: log entry 32. -/
def triadStart (b : TriadBist) (s : State) : State :=
  let was := s.triad.retired
  let voter := b.voter && b.fields == 0x7F
  let bad := ~~~b.cores &&& ~~~was
  let working := ((List.range 3).filter (fun c => (b.cores &&& ~~~was).getLsbD c)).length
  let s := { s with triad := { retired := was } }
    |> setFlag Fld.TRIAD_BIST_DONE true |> setFlag Fld.TRIAD_BIST_VOTER_OK voter |> setFlag Fld.TRIAD_BIST_ECC_OK b.ecc
    |> setFld Fld.TRIAD_BIST_CORE_OK b.cores.toNat |> setFld Fld.TRIAD_BIST_FIELD_OK b.fields.toNat
    |> setFld Fld.TRIAD_HEALTH_SINCE 0 |> setFld Fld.TRIAD_STATE_FENCED 0 |> setFld Fld.TRIAD_STATE_RETIRED was.toNat
  if !voter || !b.ecc || decide (working < 2) then
    s |> raiseF 0x0B Fld.TRIAD_EVENT_BIST_FAIL |> say Code.TRIAD_BIST_FAIL
      |> enterFallback 0 Code.TRIAD_BIST_FAIL |> triadMode 0
  else match (List.range 3).find? (fun c => bad.getLsbD c) with
    | some c => s |> raiseF 0x0B Fld.TRIAD_EVENT_BIST_FAIL |> say Code.TRIAD_CORE_BIST_FAIL |> retireCore c
    | none => triadMode (if was = 0 then 1 else 4) s

/-! ### Symbol code (R457 to R461) -/

/-- Area of a codeword, as TRIAD_ECC_ADDR codes it. -/
def eccArea : EccPlace → Nat
  | .buffer => 2
  | .tagDir => 1
  | _ => 0

/-- Record an erroneous codeword; `word` is its number in its area. -/
def eccRecord (place : EccPlace) (symbol : Nat) (word : BitVec 20) (s : State) : State :=
  s |> setFld Fld.TRIAD_ECC_ADDR_AREA (eccArea place) |> setFld Fld.TRIAD_ECC_ADDR_SYMBOL symbol
    |> setFld Fld.TRIAD_ECC_ADDR_OFFSET (word.toNat * 16)

/-- R458: a read or the scrubber corrects one symbol. -/
def execTriadEccCorrected (place : EccPlace) (symbol : Fin 19) (word : BitVec 20) (s : State) :
    Host.Outcome State Fault Refusal :=
  .next (if !regionsUp s then s
    else s |> bump Fld.TRIAD_ECC_CORR |> eccRecord place symbol word |> raiseF 0x0B Fld.TRIAD_EVENT_ECC_CORR
      |> say Code.TRIAD_ECC_CORRECTED)

/-- R459, Table TRIAD-2: an uncorrectable error. -/
def execTriadEccUncorr (place : EccPlace) (word : BitVec 20) (s : State) : Host.Outcome State Fault Refusal :=
  .next (if !regionsUp s then s
    else
      let s := s |> bump Fld.TRIAD_ECC_UNCORR |> eccRecord place 0x3F word |> raiseF 0x0B Fld.TRIAD_EVENT_ECC_UNCORR
      let fatal := fun t => enterFallback 0 Code.TRIAD_ECC_UNCORR (say Code.TRIAD_ECC_UNCORR t)
      match place with
      | .buffer => say Code.TRIAD_ECC_RECOVERED s
      | .saveArea t =>
        if (task t s).phase == .preempted then fatal s
        else say Code.TRIAD_ECC_RECOVERED (onlyIf (s.exe.running != some t.val)
          (onTask t (fun x => { x with k := [], flags := {} })) s)
      | _ => fatal s)

/-! ### Command (R464) -/

/-- R452, R464: UNRETIRE takes effect at the next module reset. -/
def execTriadUnretire (core : Fin 4) (s : State) : Host.Outcome State Fault Refusal :=
  .next (hostCmd Reg.TRIAD_CMD (fun s =>
    if !(fld Fld.TRIAD_STATE_RETIRED s).testBit core then result Fld.TRIAD_RESULT_STATUS Code.TRIAD_CMD_REFUSED s
    else result Fld.TRIAD_RESULT_STATUS Code.TRIAD_UNRETIRE
      { s with triad := { s.triad with retired := s.triad.retired &&& ~~~BitVec.ofNat 3 (2 ^ core.val) } }) s)

end Sys2Proof.Machine
end

