-- ==== Sys2Proof/Machine/Power.lean ====
section
/-! DEFINITION. Power states, resets and start-up (R667 to R687, R706, R708): the meanings of their commands and events. -/
namespace Sys2Proof.Machine

/-! ### Steps (Table SUP-2) -/

/-- A step completes (R669). -/
def stepDone (dst : Nat) (s : State) : State :=
  let old := power s
  s |> setFld Fld.SUP_PWR_STATE_STATE dst |> setFld Fld.SUP_PWR_STATE_LAST Code.SUP_STATE_CHANGED.toNat
    |> raiseF 0x02 Fld.SUP_EVENT_STATE |> sayD Code.SUP_STATE_CHANGED (toD (old * 2 ^ 12 + dst * 2 ^ 8))

/-- The module waits no longer for a step. -/
def stepIdle (s : State) : State :=
  setFlag Fld.SUP_PWR_STATE_BUSY false { s with sup := { s.sup with stepTo := none } }

/-- A step is under way. -/
def stepWaits (dst : Nat) (s : State) : State :=
  setFlag Fld.SUP_PWR_STATE_BUSY true { s with sup := { s.sup with stepTo := some dst } }

/-- A step is refused by its condition `n` (R708). -/
def stepRefuse (dst n : Nat) (s : State) : State :=
  let old := power s
  s |> stepIdle |> setFld Fld.SUP_PWR_STATE_LAST Code.SUP_STEP_REFUSED.toNat |> raiseF 0x02 Fld.SUP_EVENT_REFUSED
    |> sayD Code.SUP_STEP_REFUSED (toD (old * 2 ^ 12 + dst * 2 ^ 8 + n))

/-- The first condition that fails, from 1, in a list of conditions. -/
def firstFalse (l : List Bool) : Option Nat := (l.findIdx? (fun b => !b)).map (· + 1)

/-- Conditions of the step from QUIET to READY, and from READY to RUN, in the order of Table SUP-2. -/
def readyConditions (s : State) : List Bool :=
  [flag Fld.MOD_STATUS_START_DONE s, flag Fld.MOD_STATUS_CFG_OK s, !retired s]
def runConditions (s : State) : List Bool :=
  [s.sup.sid != 3, [1, 2, 4].contains (fld Fld.TRIAD_STATE_MODE s), fld Fld.SUP_REGIONS_FALLBACK s % 16 == 0, !retired s]

/-- RUN is entered: EBB and MODULE_FAULT clear, and the frozen values of a HOLD are released (R672, R673, R676). -/
def enterRun (s : State) : State :=
  { s with
    saf := { s.saf with ebb := false }
    sup := { s.sup with runSeen := true, heldProg := [], heldTT := [], heldReq := 0 } }
    |> setFlag Fld.SUP_PWR_STATE_EBB false |> setFlag Fld.SUP_PWR_STATE_MODULE_FAULT false |> scanLeave

/-- HOLD is entered: the writers present what they hold now (R673). -/
def enterHold (s : State) : State :=
  { s with sup := { s.sup with
    heldProg := s.exe.committed
    heldTT := ((List.range 12).map (fun i => if i < 8 then i else 0x100 + (i - 8))).filter (fun c => (ttOut c s).value)
    heldReq := safReq s } }

/-- RUN or HOLD is left (R674): outputs to ebb, the Safety region signalled, AUTH released. -/
def leaveRun (s : State) : State :=
  let s := { s with sup := { s.sup with heldProg := [], heldTT := [], heldReq := 0 } }
  s |> safEbb |> releaseAuth Code.SUP_STATE_CHANGED |> onPair pairClear |> onlyIf (pairState s != 6) (pairTo 0)

/-- Every rail but those of the backup domain and the wake circuit goes off (R671, R684). -/
def switchOff (s : State) : State :=
  setFld Fld.SUP_PWR_STATE_STATE 0 (memLost { moduleReset s.sup.cause s with sup := { (moduleReset s.sup.cause s).sup with inReset := false } })

/-- The step out of RUN or HOLD, then the steps after it: first a switchover where the partner can take over (R674). -/
def powerLeave (next : State → State) (s : State) : State :=
  if s.sup.stepTo.isNone && flag Fld.PAIR_STATE_AUTH_HELD s && pairState s == 1 && peerInStep s then
    s |> switchAsk .power |> stepWaits 2
  else { s with sup := { s.sup with stepTo := none } } |> leaveRun |> stepDone 2 |> next

/-- One step towards the target and the steps after it, or the end of the walk (R668). -/
def powerStep (next : State → State) (s : State) : State :=
  let cur := power s
  let target := fld Fld.SUP_PWR_STATE_TARGET s
  if cur = target then stepIdle s
  else if cur < target then
    if cur = 1 then
      (match firstFalse (readyConditions s) with
      | some c => stepRefuse 2 c s
      | none => stepWaits 2 s)
    else if cur = 2 then
      (match firstFalse (runConditions s) with
      | some c => stepRefuse 3 c s
      | none => s |> stepDone 3 |> enterRun |> next)
    else s |> enterHold |> stepDone 4 |> next
  else if cur = 4 ∧ target = 3 then s |> stepDone 3 |> enterRun |> next
  else if 3 ≤ cur then powerLeave next s
  else if cur = 2 then s |> regionsReset |> scanLeave |> stepDone 1 |> next
  else s |> stepDone 0 |> switchOff

/-- Up to `n` steps towards the target (R668). -/
def powerWalk : Nat → State → State
  | 0, s => s
  | n + 1, s => powerStep (powerWalk n) s

/-- A command to a state; BUSY ignores it, but a command to QUIET abandons the step under way (R668). Without firmware
every command is refused (R682). -/
def powerCmd (target : Nat) (s : State) : State :=
  hostCmd Reg.SUP_PWR_CMD (fun s =>
    if s.fwu.noFw then s |> raiseF 0x02 Fld.SUP_EVENT_REFUSED |> say Code.SUP_CMD_REFUSED
    else if flag Fld.SUP_PWR_STATE_BUSY s && target != 1 then s
    else
      let s := if s.pair.switch == .waiting .power then switchDrop s else s
      s |> stepIdle |> setFld Fld.SUP_PWR_STATE_TARGET target |> powerWalk 5) s

/-- The switchover of R674 has ended, or was refused: the step goes on. -/
def powerContinue (s : State) : State :=
  if s.sup.stepTo == some 2 && decide (3 ≤ power s) && s.pair.switch == .none then powerWalk 5 s else s

/-- R668: a command to OFF. -/
def execPowerCmdOff (s : State) : Host.Outcome State Fault Refusal := .next (powerCmd 0 s)
/-- R668: a command to QUIET. -/
def execPowerCmdQuiet (s : State) : Host.Outcome State Fault Refusal := .next (powerCmd 1 s)
/-- R668, R670: a command to READY. -/
def execPowerCmdReady (s : State) : Host.Outcome State Fault Refusal := .next (powerCmd 2 s)
/-- R668, R672: a command to RUN. -/
def execPowerCmdRun (s : State) : Host.Outcome State Fault Refusal := .next (powerCmd 3 s)
/-- R668, R673: a command to HOLD. -/
def execPowerCmdHold (s : State) : Host.Outcome State Fault Refusal := .next (powerCmd 4 s)

/-! ### The restart into READY (R670, Table SUP-4) -/

/-- The program image of the store is loaded; EXE_CTRL.RUN stays 0 and EXE_STATE reads STOPPED. The area of the image is
that of the store (R207, Table SUP-4). -/
def programLoad (pass : Bool) (s : State) : State :=
  match Sparse.find s.fwu.prog s.fwu.progArea.val with
  | some (m, signed) =>
    if pass && accepts signed s then
      switchTo m false { s with exe := { s.exe with area := s.fwu.progArea.val == 0 } }
        |> (fun t => { t with exe := { t.exe with previous := none } })
    else s
  | none => s

/-- R670: the restart ends; `bist` is the triad's self-test and `prog` the check of the program image. -/
def execReadyRestartDone (bist : TriadBist) (prog : Bool) (s : State) : Host.Outcome State Fault Refusal :=
  .next (if !alive s || power s != 1 || s.sup.stepTo != some 2 then s
    else s |> sessionClose |> regionsReset |> setFld Fld.SUP_PWR_STATE_STATE 2 |> pairStart
      |> safeConfig |> triadStart bist |> safStart |> programLoad prog
      |> (fun t => setFlag Fld.EXE_CFG_CHANGE_MODE (storedMode t) t)
      |> setFld Fld.SUP_PWR_STATE_STATE 1 |> (fun t => { t with sup := { t.sup with stepTo := none } })
      |> stepDone 2 |> powerWalk 4)

/-! ### SUP_CMD (R677, R680) -/

def supRefuse (st : Status) (s : State) : State :=
  s |> raiseF 0x02 Fld.SUP_EVENT_REFUSED |> result Fld.SUP_RESULT_STATUS st

/-- R680: RESET. -/
def execSupReset (confirm : Byte) (s : State) : Host.Outcome State Fault Refusal :=
  .next (hostCmd Reg.SUP_CMD (fun s =>
    if confirm = 0x5A then moduleReset 3 s else supRefuse Code.SUP_CMD_REFUSED s) s)

/-- What a region's recovery ends beside its bit. -/
def recoverRegion (r : Nat) (s : State) : State :=
  let gone := fun (l : List ClockDomain) => l.filter (fun d => domainRegion d != r)
  let s := { s with sup := { s.sup with clockFailed := gone s.sup.clockFailed, queFault := s.sup.queFault && r != 3 } }
  s |> setBitAt Reg.SUP_REGIONS r false |> raiseF 0x02 Fld.SUP_EVENT_FALLBACK |> sayRegion (Code.REGION_RECOVERED r)

/-- The checks of a region pass: `pass` is the outcome of the checks outside the state; the backup domain needs R586. -/
def recoverOk (r : Nat) (pass : Bool) (s : State) : Bool :=
  pass && (r != 5 || (!s.backup.osf && s.backup.trusted && s.backup.regsValid))

/-- R677: RECOVER; 8 is the TI bank. -/
def execSupRecover (target : Fin 16) (pass : Bool) (s : State) : Host.Outcome State Fault Refusal :=
  let r := target.val
  .next (hostCmd Reg.SUP_CMD (fun s =>
    if r = 8 && flag Fld.SUP_REGIONS_TI_BANK s && pass then
      s |> setFlag Fld.SUP_REGIONS_TI_BANK false |> result Fld.SUP_RESULT_STATUS Code.SUP_OK
    else if [1, 2, 3, 5].contains r && inFallback r s && recoverOk r pass s then
      s |> recoverRegion r |> result Fld.SUP_RESULT_STATUS Code.SUP_OK
    else supRefuse Code.SUP_RECOVER_REFUSED s) s)

/-! ### Reset sources (Table SUP-3) -/

/-- The logic is powered and out of OFF. -/
def powered (s : State) : Bool := !s.sup.supplyLow && power s != 0

/-- R706, R671: HOST_RST_N has been low for 1 ms; OFF wakes. -/
def execHostRst (s : State) : Host.Outcome State Fault Refusal :=
  .next (if s.sup.supplyLow then s else moduleReset 2 s)

/-- R679: the supervisor watchdog expires. -/
def execSupWatchdog (s : State) : Host.Outcome State Fault Refusal :=
  .next (if powered s && !s.sup.inReset then moduleReset 5 s else s)

/-- R99, R678: SEATED_N went high and is low again. -/
def execReseated (s : State) : Host.Outcome State Fault Refusal :=
  .next (if !s.sup.unseated then s
    else
      let t := { s with sup := { s.sup with seated := true, unseated := false } }
      if powered s then moduleReset 6 t else t)

/-! ### Start-up (Table SUP-5) -/

/-- Slot identity by the pins SID1 and SID0 (Table CONN-3), as MOD_STATUS codes it. -/
def sidOf (pins : BitVec 2) : BitVec 2 :=
  match pins.toNat with
  | 2 => 0
  | 1 => 1
  | 3 => 2
  | _ => 3

/-- Reset is released: the identity is latched, module time is loaded, a nonce is drawn, and an erasure that was cut
short is completed (R66, R67, R588, R642, R644). -/
def resetRelease (s : State) : State :=
  let ns := countNs s.backup.count
  let s := { s with
    mtime := ns * 2 ^ 32
    strand := { s.strand with untrusted := !s.backup.trusted, loaded := toD ns }
    sup := { s.sup with inReset := false, sid := sidOf s.sup.sidPins, starts := s.sup.starts + 1 } }
  let s := s |> pairStart |> newNonce
    |> onlyIf (s.sup.sid == 3) (fun t => t |> raiseF 0x01 Fld.MOD_EVENT_SID |> say Code.MOD_SID_INVALID)
  match s.lcy.marker with
  | some t => eraseAll s |> say Code.LCY_ERASE_RESUMED |> stateBlown t
  | none => s

/-- The supply and the seat allow the module to leave reset (R64, R65). -/
def mayStart (s : State) : Bool := s.sup.inReset && !s.sup.supplyLow && s.sup.converters

/-- R66: the reset condition ends. -/
def execResetRelease (s : State) : Host.Outcome State Fault Refusal :=
  .next (if mayStart s then resetRelease s else s)

/-- Queues that the firmware configures at the start (R628). DEDUCED: log entry 20. -/
def queueLoad (l : List (Fin 64 × Word × Word × Word)) (s : State) : State :=
  forAll (l.filter (fun e => queModule e.1)) (fun e t =>
    let u := t |> wr (Reg.QUEq_CFG e.1) e.2.1 |> wr (Reg.QUEq_BASE_LO e.1) e.2.2.1 |> wr (Reg.QUEq_BASE_HI e.1) e.2.2.2
    if queCfgOk e.1 u then setBitAt (queEnReg e.1) (e.1 % 32) true u else say Code.QUE_CFG_BAD u) s

/-- The mailbox bindings of the store (R620). -/
def bindLoad (l : List (Fin 24 × Word)) (s : State) : State :=
  forAll l (fun e t =>
    let v := e.2 &&& 0x80FFFFFF
    if v.getLsbD 31 && !bindOk v then wr (Reg.MBXm_BIND e.1) (v &&& 0x7FFFFFFF) (say Code.MBX_CFG_BAD t)
    else wr (Reg.MBXm_BIND e.1) v t) s

/-- The configuration store is taken, or none is usable (R203, R661, R662, R683). -/
def configLoad (s : State) : State :=
  let s := cfgMigrate s
  let s := setFlag Fld.EXE_CFG_CHANGE_MODE (storedMode s) s
  match cfgUsed s with
  | some c => s |> setFlag Fld.MOD_STATUS_CFG_OK true |> bindLoad c.binds
  | none => say Code.FWU_CFG_FORMAT s

/-- A lost retention of the backup domain is reported (R594). -/
def retentionReport (s : State) : State :=
  if s.backup.lossPending then
    { s with backup := { s.backup with lossPending := false } } |> raiseF 0x0F Fld.CLK_EVENT_RETENTION
      |> say Code.CLK_RETENTION_LOST |> markFallback 5
  else s

/-- A failed trial is reported (R660). -/
def fallbackReport (s : State) : State :=
  if s.fwu.fallbackDue then
    onFwu (fun x => { x with fallbackDue := false }) s |> bump Fld.FWU_COUNTS_FALLBACKS
      |> raiseF 0x13 Fld.FWU_EVENT_FALLBACK |> say Code.FWU_FALLBACK
  else s

/-- The selected firmware slot with the outcome of its check; none when no slot is valid (R682, Table SUP-5). -/
def bootSlot (runOk otherOk : Bool) (s : State) : Option Bool :=
  if slotValid s.fwu.runB s && runOk then some s.fwu.runB
  else if slotValid (otherSlot s) s && otherOk then some (otherSlot s)
  else none

/-- R681: start-up ends; `runOk` and `otherOk` say that digest and signature of the slots hold, and `queues` is what the
firmware configures. -/
def execSupStart (runOk otherOk : Bool) (queues : List (Fin 64 × Word × Word × Word)) (s : State) :
    Host.Outcome State Fault Refusal :=
  .next (if !alive s || flag Fld.MOD_STATUS_START_DONE s || s.fwu.noFw || s.strand.phase == .starting then s
    else match bootSlot runOk otherOk s with
    | none => say Code.SUP_NO_FIRMWARE (onFwu (fun x => { x with noFw := true }) s)
    | some b =>
      let s := if b = s.fwu.runB then s else say Code.SUP_BOOT_SLOT (onFwu (fun x => { x with runB := b }) s)
      { s with sup := { s.sup with dramLost := false } }
        |> fallbackReport |> configLoad |> queueLoad queues |> retentionReport
        |> setFlag Fld.MOD_STATUS_START_DONE true |> sayD Code.SUP_START (toD s.sup.cause.val))

end Sys2Proof.Machine
end

