-- ==== Sys2Proof/Machine/Boundary.lean ====
section
/-! DEFINITION. Feeds, seat, lever, slot identity and presence (R62 to R68, R92, R96 to R99): the meanings of their
events. -/
namespace Sys2Proof.Machine

/-- Report a MOD status with its event bit. -/
def modSay (f : RegField) (st : Status) (s : State) : State := s |> raiseF 0x01 f |> say st

def feedOk (b : Bool) : RegField := if b then Fld.MOD_STATUS_FEED_B_OK else Fld.MOD_STATUS_FEED_A_OK

/-- R63, R685: a feed has stayed below 19.2 V for 1 ms; a rise in the cycle of expiry wins. -/
def execModFeedLow (feedB : Bool) (tie : Bool) (s : State) : Host.Outcome State Fault Refusal :=
  .next (if !alive s then s
    else if tie then bump Fld.MOD_CLOSE_CALL_COUNT s
    else s |> setFlag (feedOk feedB) false |> modSay Fld.MOD_EVENT_FEED Code.MOD_FEED_LOW)

/-- R63: a feed has stayed above 19.2 V for 100 ms. -/
def execModFeedOk (feedB : Bool) (s : State) : Host.Outcome State Fault Refusal :=
  .next (if !alive s || flag (feedOk feedB) s then s
    else s |> setFlag (feedOk feedB) true |> modSay Fld.MOD_EVENT_FEED Code.MOD_FEED_OK)

/-- R64: the OR-ed supply falls below 16.0 V. -/
def execModPowerFail (s : State) : Host.Outcome State Fault Refusal :=
  .next (if !alive s || s.sup.powerFail then s
    else { s with sup := { s.sup with powerFail := true } } |> say Code.MOD_POWER_FAIL |> moduleFault Code.MOD_POWER_FAIL)

/-- R64: 1 ms after the crossing; reset holds until the supply has qualified again. -/
def execPowerFailReset (s : State) : Host.Outcome State Fault Refusal :=
  .next (if !alive s || !s.sup.powerFail then s
    else
      let t := moduleReset 1 s
      { t with sup := { t.sup with supplyLow := true } })

/-- R678: the OR-ed supply falls below 9.5 V: logic, DRAM, cause latches and retained memory lose power (R431, R593). -/
def execPowerLoss (s : State) : Host.Outcome State Fault Refusal :=
  let t := memLost (moduleReset 0 s)
  .next { t with
    saf := { t.saf with conns := [], epochHold := true }
    sup := { t.sup with starts := 0, supplyLow := true } }

/-- R64: the supply has stayed above 19.2 V for 100 ms. -/
def execPowerOn (s : State) : Host.Outcome State Fault Refusal :=
  let t := { s with sup := { s.sup with supplyLow := false } }
  .next (if s.sup.supplyLow && mayStart t then resetRelease t else t)

/-- R65, R96: SEATED_N and the lever have read closed for 100 ms. -/
def execInsertionQualified (s : State) : Host.Outcome State Fault Refusal :=
  .next { s with sup := { s.sup with seated := true, leverClosed := true, converters := true } }

/-- R99: SEATED_N goes high. The hard-wired path opens every output switch. -/
def execSeatedNBreak (s : State) : Host.Outcome State Fault Refusal :=
  let t := { s with sup := { s.sup with seated := false, unseated := true } }
  .next (if !alive s then t
    else withFree (fun d u => u |> releaseAuth (d.setWidth 16) |> pairTo 6)
      { t with sup := { t.sup with hardEbb := true } }
      |> onlyIf (safUp s) (sqEvalAll 0))

/-- The side holds authority as the active side or alone. -/
def activeSide (s : State) : Bool := (pairState s == 1 || pairState s == 5) && flag Fld.PAIR_STATE_AUTH_HELD s

/-- R97: the lever opens. -/
def execLeverOpen (s : State) : Host.Outcome State Fault Refusal :=
  let t := { s with sup := { s.sup with leverClosed := false } }
  .next (if !alive s || !activeSide s then t
    else if pairState s = 1 && peerInStep s then switchAsk .lever { t with sup := { t.sup with removing := true } }
    else removeRefused t)

/-- R97: after the handover the module is ready for removal; a handover that failed refuses it. -/
def execModRemoveReady (s : State) : Host.Outcome State Fault Refusal :=
  .next (if !alive s || !s.sup.removing || s.pair.switch != .none then s
    else if activeSide s then removeRefused s
    else { s with sup := { s.sup with removing := false } }
      |> setFlag Fld.MOD_STATUS_REMOVE_READY true |> modSay Fld.MOD_EVENT_REMOVE Code.MOD_REMOVE_READY)

/-- R98: the lever closes; a handover that has not begun is cancelled. -/
def execLeverClose (s : State) : Host.Outcome State Fault Refusal :=
  .next ({ s with sup := { s.sup with leverClosed := true, removing := s.sup.removing && s.pair.switch != .waiting .lever } }
    |> onlyIf (s.pair.switch == .waiting .lever) switchDrop
    |> onlyIf (alive s) (setFlag Fld.MOD_STATUS_REMOVE_READY false))

/-- R68: the slot identity pins change; out of reset the latched identity stays. -/
def execModSidChanged (sid : BitVec 2) (s : State) : Host.Outcome State Fault Refusal :=
  let t := { s with sup := { s.sup with sidPins := sid } }
  .next (if alive s && sidOf sid != s.sup.sid then modSay Fld.MOD_EVENT_SID Code.MOD_SID_CHANGED t else t)

/-- R92: PEER_PRSNT_N changes. -/
def execPeerPresenceChange (present : Bool) (s : State) : Host.Outcome State Fault Refusal :=
  .next { s with sup := { s.sup with peerPresent := present } }

end Sys2Proof.Machine
end

