-- ==== Sys2Proof/Machine/Can.lean ====
section
/-! DEFINITION. CAN FD channels (R545 to R564): the meanings of their commands and events. -/
namespace Sys2Proof.Machine

/-! ### Enabling a channel (R547, R554, R563) -/

/-- Periods of 12.5 ns in a nominal and in a data bit. -/
def canNominal (c : Nat) (s : State) : Nat :=
  (fld (Fld.CNc_NBT_NBRP c) s + 1) * (1 + (fld (Fld.CNc_NBT_NTSEG1 c) s + 1) + (fld (Fld.CNc_NBT_NTSEG2 c) s + 1))
def canData (c : Nat) (s : State) : Nat :=
  (fld (Fld.CNc_DBT_DBRP c) s + 1) * (1 + (fld (Fld.CNc_DBT_DTSEG1 c) s + 1) + (fld (Fld.CNc_DBT_DTSEG2 c) s + 1))

/-- The bit timing of a channel is accepted (R547): 80 periods make 1 Mbit/s and 4,000 make 20 kbit/s. -/
def canTimingOk (c : Nat) (s : State) : Bool :=
  inRange (fld (Fld.CNc_NBT_NTSEG1 c) s + 1) 2 256
  && decide (fld (Fld.CNc_NBT_NSJW c) s ≤ fld (Fld.CNc_NBT_NTSEG2 c) s)
  && decide (fld (Fld.CNc_DBT_DSJW c) s ≤ fld (Fld.CNc_DBT_DTSEG2 c) s)
  && inRange (canNominal c s) 80 4000 && inRange (canData c s) 10 80 && decide (canData c s ≤ canNominal c s)

/-- Enable one channel, or refuse it. PRESUMED: log entry 38. -/
def canEnable (c : Nat) (s : State) : State :=
  if !canTimingOk c s then say Code.CAN_TIMING_BAD s
  else if (canBound c s).any (fun b => !canTagsOk c (canBuf c b s) s) then say Code.CAN_CFG_BAD s
  else
    let s := setBitAt Reg.CAN_CTRL c true s
    if canState c s = 5 then s
    else s |> setFld (Fld.CNc_STATUS_STATE c) 1 |> setFld (Fld.CNc_STATUS_TEC c) 0 |> setFld (Fld.CNc_STATUS_REC c) 0

/-- Stop one channel. -/
def canDisable (c : Nat) (s : State) : State :=
  let s := setBitAt Reg.CAN_CTRL c false s
  if canState c s = 5 then s else setFld (Fld.CNc_STATUS_STATE c) 0 s

/-- R563: a write of CAN_CTRL; each rising bit of EN checks its channel. -/
def execCanChannelEnable (value : Word) (s : State) : Host.Outcome State Fault Refusal :=
  .next (hostCmd Reg.CAN_CTRL (fun s => forAll (List.range 4) (fun c t =>
    if value.getLsbD c && !bitAt Reg.CAN_CTRL c t then canEnable c t
    else if !value.getLsbD c && bitAt Reg.CAN_CTRL c t then canDisable c t
    else t) s) s)

/-! ### Host access to buffers (R549) -/

def canAddr (c b word : Nat) : Nat := 0x0C1000 + 0x2000 * c + 0x80 * b + 4 * word

/-- The host may write a word of a buffer: not a safety buffer; W0 to W2 and W6 while it is off or a transmit buffer that
is not pending; data words; never the words that the module writes. A reserved code is not taken. DEDUCED: log entry 39. -/
def canWritable (c b word : Nat) (v : Word) (s : State) : Bool :=
  let x := canBuf c b s
  let idle := x.get canKind == 0 || (x.get canKind == 2 && !x.has canPending)
  x.get canOwner != 2
  && ((decide (word ≤ 2) && idle
      && !(word == 0 && v.toNat / 2 ^ 30 == 3) && !(word == 1 && decide (2 ≤ v.toNat / 2 ^ 30))
      && !(word == 2 && v.toNat / 2 ^ 24 % 4 == 3))
    || (word == 6 && idle) || inRange word 8 23)

/-- Bits of a buffer word that hold what is written. -/
def canWordMask (word : Nat) : Word := if word = 2 then 0xFFE0FFFF else 0xFFFFFFFF

/-- R549: a host write of one word of a message buffer. -/
def execCanBufferWrite (c : Fin 4) (b : Fin 64) (word : Fin 32) (value : Word) (s : State) : Host.Outcome State Fault Refusal :=
  .next (hostCmd (canAddr c b word) (fun s =>
    if canWritable c b word value s then onCan c b (fun x => x.setWord word (value &&& canWordMask word)) s
    else say Code.CAN_CFG_BAD s) s)

/-! ### Reception (R550 to R554) -/

/-- A frame that was received counts in REC (ISO 11898-1:2015): above 127 it falls to 119 to 127. -/
def canReceived (c : Nat) (s : State) : State :=
  if canRec c s ≤ 127 then canCount c (canTec c s) (canRec c s - 1) s
  else withFree (fun d t => canCount c (canTec c t) (119 + d.toNat % 9) t) s

/-- The buffer matches a frame (R551). -/
def canMatches (x : CanBuf) (f : CanFrame) : Bool :=
  x.get canKind == 1 && x.has canIde == f.ide
  && ((x.word 0).setWidth 29 ^^^ f.id) &&& (x.word 1).setWidth 29 == 0

/-- A matching buffer that can take the frame. -/
def canTakes (x : CanBuf) : Bool := !(x.has canLock && x.has canFull)

/-- The identifier word of W7. -/
def canRxId (f : CanFrame) : Word := toW (f.ide.toNat * 2 ^ 29 + f.id.toNat)

/-- The format bits of W3. -/
def canFormat (f : CanFrame) : Nat :=
  f.esi.toNat * 2 ^ 24 + f.fdf.toNat * 2 ^ 23 + f.brs.toNat * 2 ^ 22 + f.rtr.toNat * 2 ^ 21 + f.dlc.val * 2 ^ 17

/-- The data bytes of a frame; a remote frame has none. -/
def canPayload (f : CanFrame) : List Byte := if f.rtr then [] else f.data.take (canBytes f.fdf f.dlc)

/-- Put bytes into data words from byte `i` on. DEDUCED: log entry 39. -/
def canPutBytes : List Byte → Nat → CanBuf → CanBuf
  | [], _, x => x
  | v :: t, i, x => canPutBytes t (i + 1) (x.put ⟨8 + i / 4, 8 * (i % 4), 8⟩ v.toNat)

/-- The words of a buffer with a frame stored: W3 last (R550). -/
def canStored (f : CanFrame) (last : Status) (x : CanBuf) : CanBuf :=
  let y := canPutBytes (canPayload f) 0 x
  let y := ((y.setWord 7 (canRxId f)).setWord 4 (f.stamp.setWidth 32)).setWord 5 ((f.stamp >>> 32).setWidth 32)
  y.setWord 3 (toW ((x.get canSeq + 1) % 16 * 2 ^ 28 + 2 ^ 27 + (x.has canFull).toNat * 2 ^ 26 + canFormat f + last.toNat))

/-- Store a frame in a buffer, with its event and its tags (R551, R553, R554). -/
def canStore (c b : Nat) (f : CanFrame) (s : State) : State :=
  let ov := (canBuf c b s).has canFull
  let st : Status := if ov then Code.CAN_RX_OVERRUN else Code.CAN_OK
  let s := onCan c b (canStored f st) s
  let s := if b < 4 then s |> raiseBit 0x15 Fld.CAN_HP_EVENT_HP (4 * c + b) |> signalSource 3 (4 * c + b)
    else raiseF 0x0D Fld.CAN_EVENT_RX s
  let s := onlyIf ov (say Code.CAN_RX_OVERRUN) s
  let x := canBuf c b s
  if x.get canOwner = 1 then
    s |> forAll (List.range (((canPayload f).length + 3) / 4)) (fun k => tagStore (x.get canTag + k) ((x.word (8 + k)).setWidth 64))
      |> canStaleTags c b false
  else s

/-- The receive queue takes a frame (R551, R564). -/
def canQueued (c : Nat) (f : CanFrame) (s : State) : Bool :=
  flag (Fld.CNc_CFG_QUEUE_EN c) s
  && (rd (Reg.CNc_QFILT c) s ^^^ canRxId f) &&& rd (Reg.CNc_QMASK c) s == 0

/-- R546, R551: a valid frame arrives. A channel with FD_EN 0 takes an FD frame for a format error. -/
def execCanFrameReceive (c : Fin 4) (frame : CanFrame) (s : State) : Host.Outcome State Fault Refusal :=
  .next (if !canOnBus c s then s
    else if frame.fdf && !flag (Fld.CNc_CFG_FD_EN c) s then canCount c (canTec c s) (canRec c s + 1) s
    else
      let s := canReceived c s
      let hits := (List.range 64).filter (fun b => canMatches (canBuf c b s) frame)
      let full := hits.takeWhile (fun b => !canTakes (canBuf c b s))
      let s := forAll full (fun b => onCan c b (fun x => x.put canOverrun 1)) s
      match hits.drop full.length with
      | b :: _ => canStore c b frame s
      | [] =>
        if canQueued c frame s then
          quePush (16 + 2 * c) 0 c frame.stamp (Config.canItem (canRxId frame) (toW (canFormat frame)) (canPayload frame)) s
        else bump (Fld.CNc_RX_COUNTS_LOST c) s)

/-- R560: a frame fails reception; `crc` when its CRC failed, `eight` when ISO 11898-1:2015 counts eight. PRESUMED: log entry 38. -/
def execCanRxError (c : Fin 4) (crc : Bool) (eight : Bool) (s : State) : Host.Outcome State Fault Refusal :=
  .next (if !canOnBus c s then s
    else s |> onlyIf crc (bump (Fld.CNc_RX_COUNTS_CRC c))
      |> canCount c (canTec c s) (canRec c s + (if eight then 8 else 1)))

/-- R554: no frame for TIMEOUT; a frame in the cycle of expiry wins. -/
def execCanRxSilent (c : Fin 4) (b : Fin 64) (tie : Bool) (s : State) : Host.Outcome State Fault Refusal :=
  let x := canBuf c b s
  .next (if !(canUp s && inRange (canState c s) 1 4 && x.get canKind == 1 && x.get canOwner == 1 && x.has canTimeout) then s
    else if tie then bump Fld.CAN_CLOSE_CALL_COUNT s
    else s |> canStaleTags c b true |> canSay c b Code.CAN_RX_SILENT)

/-! ### Transmission (R555 to R559) -/

/-- The arbitration field of a buffer's frame as a number: a dominant bit is 0, and the base identifier comes first, then
the bits that tell the formats apart, then the extension (ISO 11898-1:2015). -/
def canArb (x : CanBuf) : Nat :=
  let base := x.get canId / 2 ^ 18
  base * 2 ^ 19 + (if x.has canIde then 2 ^ 18 + x.get canId % 2 ^ 18 else 0)

def canTxQueue (c : Nat) : Nat := 17 + 2 * c

/-- The arbitration key of what waits in place `b` of a channel; 64 is the head of the transmit queue (R555). -/
def canWaits (c b : Nat) (s : State) : Option Nat :=
  if b < 64 then (if canPendingAt c b s then some (canArb (canBuf c b s)) else none)
  else if queHas (canTxQueue c) s then
    let q := canTxQueue c
    some (Config.canItemKey (mgetBytes (queAddr q (queTail q s) s + 16) (mgetN (queAddr q (queTail q s) s) 2 s) s))
  else none

/-- The frame that the channel offers: the highest arbitration priority, then the lowest place (R555). -/
def canOffer (c : Nat) (s : State) : Option Nat :=
  ((List.range 65).foldl (fun m b => match canWaits c b s with
    | none => m
    | some k => (match m with
      | none => some (b, k)
      | some p => if k < p.2 then some (b, k) else m)) (none : Option (Nat × Nat))).map (·.1)

/-- The frame on the bus: the one that had begun before the present offer, if it still waits, else the offer. -/
def canOnWire (c : Nat) (begun : Option (Fin 65)) (s : State) : Option Nat :=
  match begun with
  | some b => if (canWaits c b s).isSome then some b else none
  | none => canOffer c s

/-- A transmission completes (R555, R558). -/
def canComplete (c b : Nat) (stamp : DWord) (s : State) : State :=
  let s := canCount c (canTec c s - 1) (canRec c s) s
  if b = 64 then queTake (canTxQueue c) (fun p t => t |> sendOut (.canItem c p) |> raiseF 0x0D Fld.CAN_EVENT_TX_DONE) s
  else
    let x := canBuf c b s
    let st : Status := if x.cancelled then Code.CAN_CANCEL_LATE else Code.CAN_OK
    let n := (canBytes (x.has canFdf) (x.get canDlc) + 3) / 4
    s |> sendOut (.can c (x.word 0) (x.word 2) ((List.range n).map (fun k => x.word (8 + k))))
      |> onCan c b (fun x => { ((((x.put canPending 0).put canSeq (x.get canSeq + 1)).put canLast st.toNat).setWord 4
          (stamp.setWidth 32)).setWord 5 ((stamp >>> 32).setWidth 32) with cancelled := false })
      |> raiseF 0x0D Fld.CAN_EVENT_TX_DONE |> onlyIf x.cancelled (say Code.CAN_CANCEL_LATE)

/-- R555: a transmission completes. -/
def execCanTxComplete (c : Fin 4) (begun : Option (Fin 65)) (stamp : DWord) (s : State) : Host.Outcome State Fault Refusal :=
  .next (match canOnWire c begun s with
  | some b => if canSends c s then canComplete c b stamp s else s
  | none => s)

/-- A failed attempt of a frame whose cancel came late is not repeated (R558). -/
def canRetry (c b : Nat) (s : State) : State :=
  if b < 64 && (canBuf c b s).cancelled then canTxFail c b Code.CAN_CANCELLED s else s

/-- A collision on a buffer (R559): the third within 1 s is a clash, which withdraws the request. -/
def canCollide (c b : Nat) (s : State) : State :=
  let hits := nowNs s :: (canBuf c b s).hits.filter (fun t => decide (nowNs s ≤ t + 1000000000))
  let s := onCan c b (fun x => { x with hits := hits }) s
  if hits.length < 3 then s
  else onCan c b (fun x => { x with clash := true }) s |> canWithdraw c b Code.CAN_ID_CLASH |> raiseF 0x0D Fld.CAN_EVENT_CLASH

/-- R555, R559: a transmission loses arbitration or meets an error. PRESUMED: log entry 38. -/
def execCanTxError (c : Fin 4) (begun : Option (Fin 65)) (kind : CanErr) (s : State) : Host.Outcome State Fault Refusal :=
  .next (match canOnWire c begun s with
  | none => s
  | some b =>
    if !canSends c s then s
    else match kind with
    | .lost => canRetry c b s
    | .error counts => canRetry c b (canCount c (canTec c s + (if counts then 8 else 0)) (canRec c s) s)
    | .collision =>
      let s := canCount c (canTec c s + 8) (canRec c s) s
      canRetry c b (onlyIf (decide (b < 64)) (canCollide c b) s))

/-- R548: recovery has seen 128 occurrences of 11 recessive bits. -/
def execCanBusOn (c : Fin 4) (s : State) : Host.Outcome State Fault Refusal :=
  .next (if !canUp s || canState c s != 4 then s
    else s |> setFld (Fld.CNc_STATUS_STATE c) 1 |> setFld (Fld.CNc_STATUS_TEC c) 0 |> setFld (Fld.CNc_STATUS_REC c) 0
      |> raiseF 0x0D Fld.CAN_EVENT_ERR_STATE |> say Code.CAN_BUS_ON)

/-- R557: a transmission has not completed within TIMEOUT; one that completes in the cycle of expiry wins. -/
def execCanTxTimeout (c : Fin 4) (b : Fin 64) (tie : Bool) (stamp : DWord) (s : State) : Host.Outcome State Fault Refusal :=
  .next (if !(canUp s && canPendingAt c b s && (canBuf c b s).has canTimeout) then s
    else if tie && canSends c s then canComplete c b stamp (bump Fld.CAN_CLOSE_CALL_COUNT s)
    else canTxFail c b Code.CAN_TX_TIMEOUT s)

/-! ### CAN_CMD (Table CAN-5) -/

def canResult (st : Status) (s : State) : State := result Fld.CAN_RESULT_STATUS st s

/-- A command on a buffer that the host may use; a safety buffer refuses it. -/
def canBufCmd (c b : Nat) (f : State → State) (s : State) : State :=
  hostCmd Reg.CAN_CMD (fun s => if (canBuf c b s).get canOwner = 2 then canResult Code.CAN_CFG_BAD s else f s) s

/-- R549, R555: REQUEST. DEDUCED: log entry 39. -/
def execCanRequest (c : Fin 4) (b : Fin 64) (s : State) : Host.Outcome State Fault Refusal :=
  .next (canBufCmd c b (fun s =>
    if (canBuf c b s).get canKind = 2 then canResult Code.CAN_OK (canAsk c b s) else canResult Code.CAN_CFG_BAD s) s)

/-- R558: CANCEL; `begun` when the start-of-frame bit of the buffer's frame has begun. DEDUCED: log entry 39. -/
def execCanCancel (c : Fin 4) (b : Fin 64) (begun : Bool) (s : State) : Host.Outcome State Fault Refusal :=
  .next (canBufCmd c b (fun s =>
    if !canPendingAt c b s then canResult Code.CAN_OK s
    else if begun && canSends c s then canResult Code.CAN_OK (onCan c b (fun x => { x with cancelled := true }) s)
    else s |> onCan c b (fun x => { (x.put canPending 0).put canLast Code.CAN_CANCELLED.toNat with cancelled := false })
      |> raiseF 0x0D Fld.CAN_EVENT_TX_FAIL |> canResult Code.CAN_CANCELLED) s)

/-- R552: RELEASE; a frame stored in the same CD_CAN cycle keeps FULL. -/
def execCanRelease (c : Fin 4) (b : Fin 64) (tie : Bool) (s : State) : Host.Outcome State Fault Refusal :=
  .next (canBufCmd c b (fun s => canResult Code.CAN_OK (onlyIf (!tie) (onCan c b (fun x => x.put canFull 0)) s)) s)

/-- R559: CLEAR_CLASH. -/
def execCanClearClash (c : Fin 4) (b : Fin 64) (s : State) : Host.Outcome State Fault Refusal :=
  .next (canBufCmd c b (fun s => canResult Code.CAN_OK (onCan c b (fun x => { x with clash := false, hits := [] }) s)) s)

/-- R548: RECOVER. PRESUMED: log entry 38. -/
def execCanRecover (c : Fin 4) (s : State) : Host.Outcome State Fault Refusal :=
  .next (hostCmd Reg.CAN_CMD (fun s =>
    canResult Code.CAN_OK (onlyIf (canState c s == 3) (setFld (Fld.CNc_STATUS_STATE c) 4) s)) s)

/-! ### Isolation (R562) -/

/-- R562: a transceiver or isolated-supply self-check fails; channel banks follow the four ports. -/
def execCanChannelIsolated (c : Fin 4) (s : State) : Host.Outcome State Fault Refusal :=
  .next (if !canUp s || canState c s == 5 then s
    else s |> setFld (Fld.CNc_STATUS_STATE c) 5 |> raiseF 0x0D Fld.CAN_EVENT_ISOLATED
      |> say Code.CAN_CHANNEL_ISOLATED |> isolateBank 3 (4 + c))

/-- R562: RECOVER_CH; `check` when the self-check passes. DEDUCED: log entry 39. -/
def execCanRecoverCh (c : Fin 4) (check : Bool) (s : State) : Host.Outcome State Fault Refusal :=
  .next (hostCmd Reg.CAN_CMD (fun s =>
    if canState c s != 5 then canResult Code.CAN_OK s
    else if !check then canResult Code.CAN_CHANNEL_ISOLATED s
    else s |> setFld (Fld.CNc_STATUS_STATE c) (if bitAt Reg.CAN_CTRL c s then 1 else 0)
      |> setFld (Fld.CNc_STATUS_TEC c) 0 |> setFld (Fld.CNc_STATUS_REC c) 0
      |> unisolateBank 3 (4 + c) |> say Code.CAN_CHANNEL_RECOVERED |> canResult Code.CAN_OK) s)

end Sys2Proof.Machine
end

