-- ==== Sys2Proof/Machine/Exec.lean ====
section
/-! DEFINITION. Task execution (R169 to R202): the meanings of its commands and events. -/
namespace Sys2Proof.Machine

/-- R173 to R176: a tide crosses a cyclic task's release angle. -/
def execTaskRelease (t : Fin 8) (forward : Bool) (s : State) : Host.Outcome State Fault Refusal :=
  .next (match taskDef t s with
  | none => s
  | some d =>
    let x := task t s
    if !exeRuns s || onStandby s || d.kind != 1 || !tideAllows d.hold (tide d.tide s).st || (!forward && !d.either)
      || (x.freerun && x.released && decide (nowNs s < x.lastRelease + 100000)) then s
    else
      let a := x.angle.getD d.angle
      let s := onTask t (fun y => { y with freerun := false, angle := some (if forward then a + d.step else a - d.step) }) s
      let s := onlyIf x.freerun (fun u => u |> raiseF 0x03 Fld.EXE_EVENT_FREERUN |> say Code.EXE_TASK_RETIDE) s
      dueRelease t s)

/-- R175: the module's own timer releases a cyclic task. -/
def execTaskTimerRelease (t : Fin 8) (s : State) : Host.Outcome State Fault Refusal :=
  .next (match taskDef t s with
  | none => s
  | some d =>
    if !exeRuns s || onStandby s || d.kind != 1 || tideAllows d.hold (tide d.tide s).st then s
    else
      let was := (task t s).freerun
      s |> onTask t (fun y => { y with freerun := true })
        |> onlyIf (!was) (fun u => u |> raiseF 0x03 Fld.EXE_EVENT_FREERUN |> say Code.EXE_TASK_FREERUN)
        |> dueRelease t)

/-- R178: a source event of an event task. -/
def execEventTaskSignal (e : Fin 16) (s : State) : Host.Outcome State Fault Refusal :=
  .next (if regionsUp s then signalTask e s else s)

/-- R178: an idle event task with its flag set is released; a running slack action holds the release (R185). -/
def execEventTaskRelease (e : Fin 16) (s : State) : Host.Outcome State Fault Refusal :=
  let x := task (8 + e) s
  .next (if !(exeRuns s && !onStandby s && x.pending && x.phase == .idle && (taskDef (8 + e) s).any (fun d => d.kind == 2)) then s
    else if x.held != .no then heldRelease (8 + e) s
    else if slackBusy s then onTask (8 + e) (fun y => { y with held := .slack (nowNs s) }) s
    else releaseTask (8 + e) (nowNs s) s)

/-- R177: a W1S write of EXE_EVT_SIGNAL; each bit is taken at once. -/
def execExeEvtSignalWrite (sig : BitVec 16) (s : State) : Host.Outcome State Fault Refusal :=
  .next (hostCmd Reg.EXE_EVT_SIGNAL (forAll ((List.range 16).filter (fun e => sig.getLsbD e)) signalTask) s)

/-- R180: a task's input image is complete. -/
def execInputLatchComplete (t : Fin 24) (s : State) : Host.Outcome State Fault Refusal :=
  .next (if regionsUp s && !inFallback 0 s && (task t s).phase == .latch then latchDone t s else s)

/-- R171, R447: the running task reaches a commit point with a task of higher priority released. -/
def execTaskPreempt (s : State) : Host.Outcome State Fault Refusal :=
  .next (match s.exe.running, nextTask s with
  | some t, some u => if triadRuns s && !onStandby s && decide (taskPrio u s < taskPrio t s) then preempt s else s
  | _, _ => s)

/-- R182, R200: a task's commit completes; a tie with its watchdog or its next release goes to the commit. -/
def execOutputCommit (t : Fin 24) (tie : Bool) (s : State) : Host.Outcome State Fault Refusal :=
  .next (if regionsUp s && !inFallback 0 s && (task t s).phase == .commit then
    s |> onlyIf tie (bump Fld.EXE_CLOSE_CALL_COUNT) |> commitTask t |> pairCommitted t (task t s).cycles
  else s)

/-- R176: a write of EXE_CTRL.RUN; with 0 a running cycle completes. -/
def execExeRunWrite (run : Bool) (s : State) : Host.Outcome State Fault Refusal :=
  .next (hostCmd Reg.EXE_CTRL (fun s =>
    let rise := run && !flag Fld.EXE_CTRL_RUN s
    let s := setFlag Fld.EXE_CTRL_RUN run s
    if rise then forAll (List.range 24) (fun t => onTask t (fun x => { x with released := false, held := .no })) s else s) s)

/-- R200, R201, R482: a task's WD_LIMIT expires before its commit. On an IN_STEP side whose partner has reported the
commit of the cycle, the side enters TRACKING instead. -/
def execExeOverrun (t : Fin 24) (s : State) : Host.Outcome State Fault Refusal :=
  let x := task t s
  let late := x.phase != .idle || (match x.held with | .slack _ => true | _ => false)
  .next (if !regionsUp s || inFallback 0 s || !late || inRange (pairState s) 2 3 || s.fwPause then s
    else if pairState s == 4 && s.pair.theirs.any (fun c => c.task == t.val && c.cycle == x.cycles) then
      { s with
        pair := { s.pair with trackAt := some (nowNs s) }
        exe := { s.exe with running := none } }
        |> forAll (List.range 24) (fun u => onTask u (fun y => { y with phase := .idle })) |> pairTo 3 |> raiseF 0x0A Fld.PAIR_EVENT_STANDBY_FAULT |> say Code.PAIR_STANDBY_FAULT
    else overrun t 0 s)

end Sys2Proof.Machine
end

