-- ==== Sys2Proof/Machine/Kq.lean ====
section
/-! DEFINITION. The Kloquakor machine (R222 to R227, R258 to R260): registers and flags of the running task, results,
commit points, program faults, and instructions that a standby side replays. An instruction acts on the task that
the triad runs; without one the command leaves the state as it is. -/
namespace Sys2Proof.Machine

/-- Register `i` of a task; k0 reads as zero, since nothing is ever stored there (R222). -/
def kAt (x : Task) (i : Nat) : DWord := Sparse.get (fun _ => 0) x.k i

/-- Write a register; a write to k0 is discarded (R222). -/
def kSet (rd : Fin 64) (v : DWord) (x : Task) : Task :=
  if rd.val = 0 then x else { x with k := Sparse.set (fun _ => 0) x.k rd.val v }

/-- What an instruction computes: the value for RD, Z and N where it sets them, and the sticky flags it sets (R225). -/
structure KqRes where
  val : DWord := 0
  z : Option Bool := none
  n : Option Bool := none
  ov : Bool := false
  dz : Bool := false
  nv : Bool := false
  tov : Bool := false
  deriving DecidableEq, Repr

/-- The flags after a result (R225). -/
def kqFlags (r : KqRes) (f : Flags) : Flags :=
  { z := r.z.getD f.z, n := r.n.getD f.n, ov := f.ov || r.ov, dz := f.dz || r.dz, nv := f.nv || r.nv, tov := f.tov || r.tov }

/-- Write a result and move to the next instruction. -/
def kqPut (rd : Fin 64) (r : KqRes) (x : Task) : Task :=
  { kSet rd r.val x with flags := kqFlags r x.flags, pc := x.pc + 1 }

/-- Set flags and move to the next instruction, with RD unchanged. -/
def kqNoPut (r : KqRes) (x : Task) : Task := { x with flags := kqFlags r x.flags, pc := x.pc + 1 }

/-- The triad executes an instruction of task `t`: it runs the task, which waits for nothing, and the side is not a
standby side that executes nothing (R477, R490). -/
def kqReady (t : Nat) (s : State) : Bool :=
  triadRuns s && (task t s).wait == .none && (!onStandby s || pairState s == 4)

/-- One instruction of the running task. -/
def kqRun (f : Nat → State → State) (s : State) : State :=
  match s.exe.running with
  | some t => if kqReady t s then f t s else s
  | none => s

/-- An instruction that acts on the task's own registers only. -/
def kqTask (f : Task → Task) (s : State) : State := kqRun (fun t s => onTask t f s) s

/-- A commit point of the task (R258); on a standby side in step the SCHED record of the count preempts it (R477). -/
def commitPoint (t : Nat) (s : State) : State :=
  let s := onTask t (fun x => { x with points := x.points + 1 }) s
  let due := fun (e : Nat × Nat) => e.1 == t && decide (e.2 ≤ (task t s).points)
  if pairState s = 4 && s.exe.running == some t && s.pair.sched.any due then
    preempt { s with pair := { s.pair with sched := s.pair.sched.filter (fun e => !due e) } }
  else s

/-- A program fault: the instruction has no effect but the fault (R260). -/
def kqFault (st : Status) (t : Nat) (s : State) : State := progFault st t s

/-- The protection check of the triad as master M0 (R242); a tag access carries the tag's colour (R610). -/
def kqProt (t a : Nat) (k : Acc) (colour : Nat) (f : State → State) (s : State) : State :=
  match mpuCheck 0 a k colour s with
  | none => f s
  | some c => kqFault Code.KQ_PROT t (mpuDeny 0 a k colour c s)

/-- Access to a register of the control window as master M0 (R242). -/
def kqReg (t a : Nat) (k : Acc) (f : State → State) (s : State) : State :=
  kqProt t (0x400000000 + a) k (masterColour 0 s) f s

/-- The end of an instruction: a commit point where it is one. -/
def kqEnd (t : Nat) (point : Bool) (s : State) : State := onlyIf point (commitPoint t) s

/-- The REPLAY record of a result (Table PAIR-2): task, the flags it sets, and the word. -/
def replayData (t : Nat) (r : KqRes) : List DWord :=
  let o := fun (b : Option Bool) => match b with | none => 0 | some b => 2 + b.toNat
  [toD (t + 2 ^ 8 * o r.z + 2 ^ 10 * o r.n + 2 ^ 12 * r.tov.toNat), r.val]

/-- A result as a REPLAY record gives it. -/
def replayRes (r : Replay) : KqRes := { val := r.val, z := r.z, n := r.n, tov := r.tov }

/-- Take the oldest REPLAY record of a task. -/
def takeReplay (t : Nat) (s : State) : Option (Replay × State) :=
  match s.pair.replay.find? (fun r => r.task.val == t) with
  | none => none
  | some r => some (r, { s with pair := { s.pair with replay := s.pair.replay.erase r } })

/-- An instruction of Table PAIR-4. On the active side it acts and its result is sent; on a standby side in step the
side does its own part, and the result comes from the REPLAY record, for which it waits (R478). -/
def kqReplay (t : Nat) (rd : Fin 64) (point : Bool) (own : State → State) (act : State → KqRes × State) (s : State) : State :=
  if pairState s = 4 then
    let s := own s
    match takeReplay t s with
    | some (r, s) => kqEnd t point (onTask t (kqPut rd (replayRes r)) s)
    | none => onTask t (fun x => { x with wait := .replay rd point }) s
  else
    let r := act s
    r.2 |> cwStep 3 (replayData t r.1) |> onTask t (kqPut rd r.1) |> kqEnd t point

/-- A block instruction of Table PAIR-4, at OP 0x3A: where its target has not answered, the task waits for the
answer (R258). -/
def kqBlock (t : Nat) (rd : Fin 64) (waits ordered : Bool) (own : State → State) (act : State → KqRes × State)
    (s : State) : State :=
  if pairState s = 4 || !waits then kqReplay t rd true own act s
  else
    let r := act s
    r.2 |> cwStep 3 (replayData t r.1)
      |> onTask t (fun x => { x with wait := .block rd r.1.val r.1.z r.1.tov ordered })

/-- The result of an instruction that returns a status: Z when the low byte is 0x00 (R254). -/
def statusRes (st : Status) : KqRes := { val := st.zeroExtend 64, z := some (st.toNat % 256 == 0) }

/-- The status and state of an operation as a result. -/
def statusAct (f : State → Status × State) (s : State) : KqRes × State :=
  let r := f s
  (statusRes r.1, r.2)

/-- An effect, without its status. -/
def ownPart (f : State → Status × State) (s : State) : State := (f s).2

/-- The running image. -/
def kqImage (s : State) : Image :=
  s.exe.image.getD ⟨0, 0, 0, [], [], [], [], [], [], [], [], 0, []⟩

/-! ### Branches and calls (R243 to R245) -/

/-- Go to a target: outside the code it is a program fault. -/
def kqGoto (t : Nat) (target : Int) (point : Bool) (f : Task → Task) (s : State) : State :=
  if 0 ≤ target && decide (target < (kqImage s).codeLen) then
    kqEnd t point (onTask t (fun x => { f x with pc := target.toNat }) s)
  else kqFault Code.KQ_CODE_RANGE t s

/-- A branch whose condition holds or not; taken backward it is a commit point (R258). DEDUCED: log entry 25. -/
def kqBranch (off : BitVec 20) (c : Task → Bool) (s : State) : State :=
  kqRun (fun t s =>
    let x := task t s
    if c x then kqGoto t ((x.pc : Int) + off.toInt) (decide (off.toInt ≤ 0)) id s
    else onTask t (fun x => { x with pc := x.pc + 1 }) s) s

/-- Push the return address (R243, R245). DEDUCED: log entry 25. -/
def kqCall (t : Nat) (target : Int) (s : State) : State :=
  if 256 ≤ (task t s).stack.length then kqFault Code.KQ_STACK t s
  else kqGoto t target true (fun x => { x with stack := (x.pc + 1) :: x.stack }) s

/-- R243: BR. -/
def execBr (off : BitVec 20) (s : State) : Host.Outcome State Fault Refusal := .next (kqBranch off (fun _ => true) s)

/-- R243: CALL. -/
def execCall (off : BitVec 20) (s : State) : Host.Outcome State Fault Refusal :=
  .next (kqRun (fun t s => kqCall t (((task t s).pc : Int) + off.toInt) s) s)

/-- R243: BZ. -/
def execBz (rs : Fin 64) (off : BitVec 20) (s : State) : Host.Outcome State Fault Refusal :=
  .next (kqBranch off (fun x => kAt x rs == 0) s)

/-- R243: BNZ. -/
def execBnz (rs : Fin 64) (off : BitVec 20) (s : State) : Host.Outcome State Fault Refusal :=
  .next (kqBranch off (fun x => kAt x rs != 0) s)

/-- R243: BLTZ. -/
def execBltz (rs : Fin 64) (off : BitVec 20) (s : State) : Host.Outcome State Fault Refusal :=
  .next (kqBranch off (fun x => (kAt x rs).msb) s)

/-- R243: BGEZ. -/
def execBgez (rs : Fin 64) (off : BitVec 20) (s : State) : Host.Outcome State Fault Refusal :=
  .next (kqBranch off (fun x => !(kAt x rs).msb) s)

/-- A flag by its code (R243). -/
def flagOf (f : KqFlag) (x : Flags) : Bool :=
  match f with
  | .z => x.z
  | .n => x.n
  | .ov => x.ov
  | .dz => x.dz
  | .nv => x.nv
  | .tov => x.tov

/-- R243: BF. -/
def execBf (f : KqFlag) (off : BitVec 20) (s : State) : Host.Outcome State Fault Refusal :=
  .next (kqBranch off (fun x => flagOf f x.flags) s)

/-- R243: BNF. -/
def execBnf (f : KqFlag) (off : BitVec 20) (s : State) : Host.Outcome State Fault Refusal :=
  .next (kqBranch off (fun x => !flagOf f x.flags) s)

/-- An illegal instruction stands at the present program counter (R227). -/
def kqIllegal (t : Nat) (legal : Bool) (s : State) : State :=
  onlyIf (!legal && kqReady t s && s.exe.running == some t) (kqFault Code.KQ_ILLEGAL t) s

/-- R244, R227: JMPR; `legal` says whether the word at the target is a legal instruction. -/
def execJmpr (ra : Fin 64) (legal : Bool) (s : State) : Host.Outcome State Fault Refusal :=
  .next (kqRun (fun t s => kqIllegal t legal (kqGoto t (kAt (task t s) ra).toNat false id s)) s)

/-- R244, R227: CALLR. -/
def execCallr (ra : Fin 64) (legal : Bool) (s : State) : Host.Outcome State Fault Refusal :=
  .next (kqRun (fun t s => kqIllegal t legal (kqCall t (kAt (task t s) ra).toNat s)) s)

/-- R244: RET. -/
def execRet (s : State) : Host.Outcome State Fault Refusal :=
  .next (kqRun (fun t s =>
    match (task t s).stack with
    | [] => kqFault Code.KQ_STACK t s
    | a :: _ => kqGoto t a true (fun x => { x with stack := x.stack.drop 1 }) s) s)

/-! ### The end of a program phase, and waits -/

/-- R257: YIELD frees the locks that the task still holds. -/
def yieldLocks (t : Nat) (s : State) : State :=
  forAll (s.locks.filter (fun e => e.2 == ⟨0, t⟩)) (fun e u =>
    sayD Code.KQ_LOCK_RELEASED (toD (t * 2 ^ 32 + e.1)) (lockFree e.1 u)) s

/-- R257: YIELD. -/
def execYield (s : State) : Host.Outcome State Fault Refusal :=
  .next (kqRun (fun t s =>
    if (task t s).stack != [] then kqFault Code.KQ_YIELD_NESTED t s
    else
      let s := s |> yieldLocks t |> onTask t (fun x =>
        { x with phase := .commit, points := x.points + 1, pc := x.pc + 1, outHdr := x.outHdr + 1 })
      startNext { s with exe := { s.exe with running := none } }) s)

/-- A wait of the running task ends, and its instruction completes. -/
def waitEnd (t : Nat) (rd : Fin 64) (r : KqRes) (s : State) : State :=
  commitPoint t (onTask t (fun x => kqPut rd r { x with wait := .none }) s)

/-- R256: MFENCE. -/
def execMfence (s : State) : Host.Outcome State Fault Refusal :=
  .next (kqTask (fun x => { x with wait := .fence }) s)

/-- R256: RFENCE waits for the rules in force at its start. -/
def execRfence (s : State) : Host.Outcome State Fault Refusal :=
  .next (kqTask (fun x => { x with wait := .rules (rd Reg.MPU_EPOCH s) }) s)

/-- The rules of an epoch have drained: none drains now, or the epoch is past (R617). -/
def rulesDrained (epoch : Word) (s : State) : Bool := !flag Fld.MPU_RESULT_BUSY s || rd Reg.MPU_EPOCH s != epoch

/-- R256, R258: the drain ends, for a fence or an ordered block instruction. DEDUCED: log entry 25. -/
def execFenceDrained (s : State) : Host.Outcome State Fault Refusal :=
  .next (match s.exe.running with
  | none => s
  | some t => if !triadRuns s then s
    else match (task t s).wait with
    | .fence => waitEnd t 0 {} s
    | .rules e => if rulesDrained e s then waitEnd t 0 {} s else s
    | .block rd v z o true => waitEnd t rd { val := v, z := z, tov := o } s
    | _ => s)

/-- R258: the target of a block instruction answers. -/
def execBlockAnswer (s : State) : Host.Outcome State Fault Refusal :=
  .next (match s.exe.running with
  | none => s
  | some t => if !triadRuns s then s
    else match (task t s).wait with
    | .block rd v z o _ => waitEnd t rd { val := v, z := z, tov := o } s
    | _ => s)

/-- R258: 960 CD_TRIAD cycles without a commit point. -/
def execCommitPointTimer (s : State) : Host.Outcome State Fault Refusal :=
  .next (match s.exe.running with
  | none => s
  | some t => if triadRuns s then commitPoint t s else s)

/-- R254: FGET. -/
def execFget (rd : Fin 64) (s : State) : Host.Outcome State Fault Refusal :=
  .next (kqRun (fun t s => commitPoint t (onTask t (fun x =>
    let f := x.flags
    kqPut rd { val := toD (f.z.toNat + 2 * f.n.toNat + 4 * f.ov.toNat + 8 * f.dz.toNat + 16 * f.nv.toNat + 32 * f.tov.toNat) } x)
    s)) s)

/-- R225: FCLR. -/
def execFclr (ra : Fin 64) (s : State) : Host.Outcome State Fault Refusal :=
  .next (kqRun (fun t s => commitPoint t (onTask t (fun x =>
    let w := kAt x ra
    let f := x.flags
    { x with
      pc := x.pc + 1
      flags := { z := f.z && !w.getLsbD 0, n := f.n && !w.getLsbD 1, ov := f.ov && !w.getLsbD 2, dz := f.dz && !w.getLsbD 3
                 nv := f.nv && !w.getLsbD 4, tov := f.tov && !w.getLsbD 5 } }) s)) s)

/-- R251: CYCT. -/
def execCyct (rd : Fin 64) (s : State) : Host.Outcome State Fault Refusal :=
  .next (kqRun (fun t s => commitPoint t (onTask t (fun x => kqPut rd { val := toD x.cycleTime } x) s)) s)

end Sys2Proof.Machine
end

