-- ==== Sys2Proof/Machine/KqArith.lean ====
section
/-! DEFINITION. Kloquakor arithmetic: integers, floating point, comparisons, conversions, logic, immediates and
constants (R228 to R237). -/
namespace Sys2Proof.Machine

/-! ### Results by width -/

/-- An operand as a signed or an unsigned number in the width: W is 32 bits (R228). -/
def sval (w : Bool) (v : DWord) : Int := if w then (v.setWidth 32).toInt else v.toInt
def uval (w : Bool) (v : DWord) : Nat := if w then v.toNat % 2 ^ 32 else v.toNat
def widthOf (w : Bool) : Nat := if w then 32 else 64

/-- A result wrapped to the width and sign-extended (R228, R229). -/
def wrapTo (w : Bool) (v : Int) : DWord := if w then (BitVec.ofInt 32 v).signExtend 64 else BitVec.ofInt 64 v

/-- The signed range of the width does not hold the value (R229). -/
def outOfRange (w : Bool) (v : Int) : Bool :=
  decide (v < -(2 ^ (widthOf w - 1))) || decide (2 ^ (widthOf w - 1) ≤ v)

/-- Z and N of a sign-extended result (R228). -/
def intRes (w ovs : Bool) (v : Int) : KqRes :=
  let r := wrapTo w v
  { val := r, z := some (r == 0), n := some r.msb, ov := ovs && outOfRange w v }

/-- A logic result, zero-extended (R235). -/
def logRes (w : Bool) (v : DWord) : KqRes :=
  let r := if w then (v.setWidth 32).zeroExtend 64 else v
  { val := r, z := some (r == 0), n := some (r.getLsbD (widthOf w - 1)) }

/-- An operation on two registers. -/
def kq2 (rd ra rb : Fin 64) (f : DWord → DWord → KqRes) (s : State) : Host.Outcome State Fault Refusal :=
  .next (kqTask (fun x => kqPut rd (f (kAt x ra) (kAt x rb)) x) s)

/-- An operation on one register. -/
def kq1 (rd ra : Fin 64) (f : DWord → KqRes) (s : State) : Host.Outcome State Fault Refusal :=
  .next (kqTask (fun x => kqPut rd (f (kAt x ra)) x) s)

/-! ### Integer arithmetic (Table KQ-8) -/

def execAdd (w : Bool) (rd ra rb : Fin 64) (s : State) := kq2 rd ra rb (fun a b => intRes w true (sval w a + sval w b)) s
def execSub (w : Bool) (rd ra rb : Fin 64) (s : State) := kq2 rd ra rb (fun a b => intRes w true (sval w a - sval w b)) s
def execMul (w : Bool) (rd ra rb : Fin 64) (s : State) := kq2 rd ra rb (fun a b => intRes w true (sval w a * sval w b)) s
def execMulh (w : Bool) (rd ra rb : Fin 64) (s : State) :=
  kq2 rd ra rb (fun a b => intRes w false (sval w a * sval w b / 2 ^ widthOf w)) s

/-- A division or remainder: by zero the result is 0, DZ is set and the event is reported (R230). -/
def kqDiv (w : Bool) (rd ra rb : Fin 64) (f : DWord → DWord → KqRes) (s : State) : Host.Outcome State Fault Refusal :=
  .next (kqRun (fun t s =>
    let x := task t s
    if uval w (kAt x rb) = 0 then
      sayD Code.KQ_DIV_ZERO (toD (t * 2 ^ 32 + x.pc)) (onTask t (kqPut rd { intRes w false 0 with dz := true }) s)
    else onTask t (kqPut rd (f (kAt x ra) (kAt x rb))) s) s)

def execDiv (w : Bool) (rd ra rb : Fin 64) (s : State) :=
  kqDiv w rd ra rb (fun a b => intRes w true (Int.tdiv (sval w a) (sval w b))) s
def execDivu (w : Bool) (rd ra rb : Fin 64) (s : State) :=
  kqDiv w rd ra rb (fun a b => intRes w false (uval w a / uval w b : Nat)) s
def execRem (w : Bool) (rd ra rb : Fin 64) (s : State) :=
  kqDiv w rd ra rb (fun a b => intRes w false (Int.tmod (sval w a) (sval w b))) s
def execRemu (w : Bool) (rd ra rb : Fin 64) (s : State) :=
  kqDiv w rd ra rb (fun a b => intRes w false (uval w a % uval w b : Nat)) s
def execNeg (w : Bool) (rd ra : Fin 64) (s : State) := kq1 rd ra (fun a => intRes w true (-sval w a)) s
def execAbs (w : Bool) (rd ra : Fin 64) (s : State) := kq1 rd ra (fun a => intRes w true (sval w a).natAbs) s
def execMin (w : Bool) (rd ra rb : Fin 64) (s : State) :=
  kq2 rd ra rb (fun a b => intRes w false (min (sval w a) (sval w b))) s
def execMax (w : Bool) (rd ra rb : Fin 64) (s : State) :=
  kq2 rd ra rb (fun a b => intRes w false (max (sval w a) (sval w b))) s
def execMinu (w : Bool) (rd ra rb : Fin 64) (s : State) :=
  kq2 rd ra rb (fun a b => intRes w false (min (uval w a) (uval w b) : Nat)) s
def execMaxu (w : Bool) (rd ra rb : Fin 64) (s : State) :=
  kq2 rd ra rb (fun a b => intRes w false (max (uval w a) (uval w b) : Nat)) s
def execMov (w : Bool) (rd ra : Fin 64) (s : State) := kq1 rd ra (fun a => { val := wrapTo w (sval w a) }) s
def execSelz (w : Bool) (rd ra rb : Fin 64) (s : State) : Host.Outcome State Fault Refusal :=
  .next (kqTask (fun x => kqPut rd { val := wrapTo w (sval w (if x.flags.z then kAt x ra else kAt x rb)) } x) s)

/-! ### Floating point (Table KQ-9) -/

def fmtOf (f32 : Bool) : Flt.Fmt := if f32 then Flt.f32 else Flt.f64
/-- An operand in the format (R231). -/
def fval (f32 : Bool) (v : DWord) : Nat := uval f32 v

/-- A result with the flags of R232. -/
def fltRes (f32 : Bool) (r : Flt.Res) : KqRes :=
  let f := fmtOf f32
  { val := toD r.bits, z := some (Flt.isZero f r.bits), n := some (Flt.sign f r.bits && !Flt.isNan f r.bits)
    ov := r.ov, dz := r.dz, nv := r.nv }

def kqF2 (f32 : Bool) (rd ra rb : Fin 64) (op : Flt.Fmt → Nat → Nat → Flt.Res) (s : State) :=
  kq2 rd ra rb (fun a b => fltRes f32 (op (fmtOf f32) (fval f32 a) (fval f32 b))) s
def kqF1 (f32 : Bool) (rd ra : Fin 64) (op : Flt.Fmt → Nat → Flt.Res) (s : State) :=
  kq1 rd ra (fun a => fltRes f32 (op (fmtOf f32) (fval f32 a))) s

def execFadd (f32 : Bool) (rd ra rb : Fin 64) (s : State) := kqF2 f32 rd ra rb Flt.add s
def execFsub (f32 : Bool) (rd ra rb : Fin 64) (s : State) := kqF2 f32 rd ra rb Flt.sub s
def execFmul (f32 : Bool) (rd ra rb : Fin 64) (s : State) := kqF2 f32 rd ra rb Flt.mul s
def execFdiv (f32 : Bool) (rd ra rb : Fin 64) (s : State) := kqF2 f32 rd ra rb Flt.div s
def execFsqrt (f32 : Bool) (rd ra : Fin 64) (s : State) := kqF1 f32 rd ra Flt.sqrt s
def execFneg (f32 : Bool) (rd ra : Fin 64) (s : State) := kqF1 f32 rd ra (fun f a => { bits := Flt.neg f a }) s
def execFabs (f32 : Bool) (rd ra : Fin 64) (s : State) := kqF1 f32 rd ra (fun f a => { bits := Flt.abs f a }) s
def execFmin (f32 : Bool) (rd ra rb : Fin 64) (s : State) := kqF2 f32 rd ra rb Flt.fmin s
def execFmax (f32 : Bool) (rd ra rb : Fin 64) (s : State) := kqF2 f32 rd ra rb Flt.fmax s

/-! ### Comparisons (R233) -/

/-- What a comparison finds: equal, below, a NaN operand, a signalling NaN. -/
structure CmpRes where
  eq : Bool
  lt : Bool
  nan : Bool := false
  snan : Bool := false

def fltCmp (f : Flt.Fmt) (a b : Nat) : CmpRes :=
  let nan := Flt.isNan f a || Flt.isNan f b
  { eq := !nan && Flt.eq f a b, lt := !nan && Flt.lt f a b, nan := nan, snan := Flt.isSnan f a || Flt.isSnan f b }

def cmpOf (ty : CmpType) (a b : DWord) : CmpRes :=
  match ty with
  | .i64 => { eq := a == b, lt := decide (sval false a < sval false b) }
  | .i32 => { eq := uval true a == uval true b, lt := decide (sval true a < sval true b) }
  | .u64 => { eq := a == b, lt := decide (uval false a < uval false b) }
  | .u32 => { eq := uval true a == uval true b, lt := decide (uval true a < uval true b) }
  | .f64 => fltCmp Flt.f64 (fval false a) (fval false b)
  | .f32 => fltCmp Flt.f32 (fval true a) (fval true b)

/-- CMP sets Z, N and NV, and writes no register (R233). -/
def cmpRes (ty : CmpType) (a b : DWord) : KqRes :=
  let c := cmpOf ty a b
  { z := some c.eq, n := some c.lt, nv := c.nan }

/-- A condition of Table KQ-10; with a NaN only NE holds. -/
def condHolds (c : CmpCond) (r : CmpRes) : Bool :=
  match c with
  | .eq => r.eq
  | .ne => !r.eq
  | .lt => r.lt
  | .le => r.lt || r.eq
  | .gt => !r.nan && !r.lt && !r.eq
  | .ge => !r.nan && !r.lt

/-- CSET (R233). -/
def csetRes (ty : CmpType) (c : CmpCond) (a b : DWord) : KqRes :=
  let r := cmpOf ty a b
  let h := condHolds c r
  { val := boolD h, z := some (!h), nv := match c with | .eq | .ne => r.snan | _ => r.nan }

def execCmp (ty : CmpType) (ra rb : Fin 64) (s : State) : Host.Outcome State Fault Refusal :=
  .next (kqTask (fun x => kqNoPut (cmpRes ty (kAt x ra) (kAt x rb)) x) s)
def execCset (ty : CmpType) (c : CmpCond) (rd ra rb : Fin 64) (s : State) := kq2 rd ra rb (csetRes ty c) s

/-! ### Conversions (R234, Table KQ-11) -/

/-- A float to a signed integer of the width. -/
def toIntRes (f32 w nearest : Bool) (a : DWord) : KqRes :=
  let n := widthOf w - 1
  let r := Flt.toInt (fmtOf f32) nearest (-(2 ^ n)) (2 ^ n - 1) (fval f32 a)
  let v := BitVec.ofInt 64 r.1
  { val := v, z := some (v == 0), n := some v.msb, nv := r.2 }

/-- Z and N from the 64-bit value. -/
def extRes (v : DWord) : KqRes := { val := v, z := some (v == 0), n := some v.msb }

def execCvtI64F64 (rd ra : Fin 64) (s : State) := kq1 rd ra (fun a => fltRes false (Flt.ofInt Flt.f64 (sval false a))) s
def execCvtI64F32 (rd ra : Fin 64) (s : State) := kq1 rd ra (fun a => fltRes true (Flt.ofInt Flt.f32 (sval false a))) s
def execCvtI32F32 (rd ra : Fin 64) (s : State) := kq1 rd ra (fun a => fltRes true (Flt.ofInt Flt.f32 (sval true a))) s
def execCvtI32F64 (rd ra : Fin 64) (s : State) := kq1 rd ra (fun a => fltRes false (Flt.ofInt Flt.f64 (sval true a))) s
def execTrnF64I64 (rd ra : Fin 64) (s : State) := kq1 rd ra (toIntRes false false false) s
def execRndF64I64 (rd ra : Fin 64) (s : State) := kq1 rd ra (toIntRes false false true) s
def execTrnF32I32 (rd ra : Fin 64) (s : State) := kq1 rd ra (toIntRes true true false) s
def execRndF32I32 (rd ra : Fin 64) (s : State) := kq1 rd ra (toIntRes true true true) s
def execCvtF32F64 (rd ra : Fin 64) (s : State) := kq1 rd ra (fun a => fltRes false (Flt.conv Flt.f32 Flt.f64 (fval true a))) s
def execCvtF64F32 (rd ra : Fin 64) (s : State) := kq1 rd ra (fun a => fltRes true (Flt.conv Flt.f64 Flt.f32 (fval false a))) s
def execTrnF64I32 (rd ra : Fin 64) (s : State) := kq1 rd ra (toIntRes false true false) s
def execRndF64I32 (rd ra : Fin 64) (s : State) := kq1 rd ra (toIntRes false true true) s
def execSext16 (rd ra : Fin 64) (s : State) := kq1 rd ra (fun a => extRes ((a.setWidth 16).signExtend 64)) s
def execSext32 (rd ra : Fin 64) (s : State) := kq1 rd ra (fun a => extRes ((a.setWidth 32).signExtend 64)) s
def execZext32 (rd ra : Fin 64) (s : State) := kq1 rd ra (fun a => extRes ((a.setWidth 32).zeroExtend 64)) s
def execCvtU64F64 (rd ra : Fin 64) (s : State) := kq1 rd ra (fun a => fltRes false (Flt.ofInt Flt.f64 a.toNat)) s

/-! ### Logic and shifts (Table KQ-12) -/

/-- A count modulo the width (R235). -/
def countOf (w : Bool) (b : DWord) : Nat := b.toNat % widthOf w

def shlVal (a : DWord) (n : Nat) : DWord := a <<< n
def shrVal (w : Bool) (a : DWord) (n : Nat) : DWord := toD (uval w a / 2 ^ n)
def sarVal (w : Bool) (a : DWord) (n : Nat) : DWord := BitVec.ofInt 64 (sval w a / 2 ^ n)
def rolVal (w : Bool) (a : DWord) (n : Nat) : DWord :=
  if w then ((a.setWidth 32).rotateLeft n).zeroExtend 64 else a.rotateLeft n
def rorVal (w : Bool) (a : DWord) (n : Nat) : DWord :=
  if w then ((a.setWidth 32).rotateRight n).zeroExtend 64 else a.rotateRight n

/-- The number of 1 bits among the lowest `n`. -/
def popCount (a : DWord) (n : Nat) : Nat := ((List.range n).filter (fun i => a.getLsbD i)).length

/-- Leading zero bits in the width. -/
def leadingZeros (w : Bool) (a : DWord) : Nat :=
  if uval w a = 0 then widthOf w else widthOf w - 1 - Nat.log2 (uval w a)

def execAnd (w : Bool) (rd ra rb : Fin 64) (s : State) := kq2 rd ra rb (fun a b => logRes w (a &&& b)) s
def execOr (w : Bool) (rd ra rb : Fin 64) (s : State) := kq2 rd ra rb (fun a b => logRes w (a ||| b)) s
def execXor (w : Bool) (rd ra rb : Fin 64) (s : State) := kq2 rd ra rb (fun a b => logRes w (a ^^^ b)) s
def execAndn (w : Bool) (rd ra rb : Fin 64) (s : State) := kq2 rd ra rb (fun a b => logRes w (a &&& ~~~ b)) s
def execNot (w : Bool) (rd ra : Fin 64) (s : State) := kq1 rd ra (fun a => logRes w (~~~ a)) s
def execShl (w : Bool) (rd ra rb : Fin 64) (s : State) := kq2 rd ra rb (fun a b => logRes w (shlVal a (countOf w b))) s
def execShr (w : Bool) (rd ra rb : Fin 64) (s : State) := kq2 rd ra rb (fun a b => logRes w (shrVal w a (countOf w b))) s
def execSar (w : Bool) (rd ra rb : Fin 64) (s : State) := kq2 rd ra rb (fun a b => logRes w (sarVal w a (countOf w b))) s
def execRol (w : Bool) (rd ra rb : Fin 64) (s : State) := kq2 rd ra rb (fun a b => logRes w (rolVal w a (countOf w b))) s
def execRor (w : Bool) (rd ra rb : Fin 64) (s : State) := kq2 rd ra rb (fun a b => logRes w (rorVal w a (countOf w b))) s
def execBext (w : Bool) (rd ra rb : Fin 64) (s : State) :=
  kq2 rd ra rb (fun a b => logRes w (boolD (a.getLsbD (countOf w b)))) s
def execBset (w : Bool) (rd ra rb : Fin 64) (s : State) :=
  kq2 rd ra rb (fun a b => logRes w (a ||| toD (2 ^ countOf w b))) s
def execBclr (w : Bool) (rd ra rb : Fin 64) (s : State) :=
  kq2 rd ra rb (fun a b => logRes w (a &&& ~~~ toD (2 ^ countOf w b))) s
def execPopc (w : Bool) (rd ra : Fin 64) (s : State) := kq1 rd ra (fun a => logRes w (toD (popCount a (widthOf w)))) s
def execClz (w : Bool) (rd ra : Fin 64) (s : State) := kq1 rd ra (fun a => logRes w (toD (leadingZeros w a))) s

/-! ### Immediates and constants (R236, R237, Table KQ-13) -/

def sext16 (imm : BitVec 16) : DWord := imm.signExtend 64
def zext16 (imm : BitVec 16) : DWord := imm.zeroExtend 64

/-- Write an immediate into 16 bits of a register (R236). -/
def insVal (l : Nat) (imm : BitVec 16) (v : DWord) : DWord :=
  (v &&& ~~~ toD (65535 * 2 ^ (16 * l))) ||| toD (imm.toNat * 2 ^ (16 * l))

def execLi (rd : Fin 64) (imm : BitVec 16) (s : State) := kq1 rd rd (fun _ => { val := sext16 imm }) s
def execLiu (rd : Fin 64) (imm : BitVec 16) (s : State) := kq1 rd rd (fun _ => { val := zext16 imm }) s
def execIns0 (rd : Fin 64) (imm : BitVec 16) (s : State) := kq1 rd rd (fun a => { val := insVal 0 imm a }) s
def execIns1 (rd : Fin 64) (imm : BitVec 16) (s : State) := kq1 rd rd (fun a => { val := insVal 1 imm a }) s
def execIns2 (rd : Fin 64) (imm : BitVec 16) (s : State) := kq1 rd rd (fun a => { val := insVal 2 imm a }) s
def execIns3 (rd : Fin 64) (imm : BitVec 16) (s : State) := kq1 rd rd (fun a => { val := insVal 3 imm a }) s
def execAddi (rd : Fin 64) (imm : BitVec 16) (s : State) :=
  kq1 rd rd (fun a => intRes false true (sval false a + imm.toInt)) s
def execAddi32 (rd : Fin 64) (imm : BitVec 16) (s : State) :=
  kq1 rd rd (fun a => intRes true true (sval true a + imm.toInt)) s
def execAndi (rd : Fin 64) (imm : BitVec 16) (s : State) := kq1 rd rd (fun a => logRes false (a &&& zext16 imm)) s
def execOri (rd : Fin 64) (imm : BitVec 16) (s : State) := kq1 rd rd (fun a => logRes false (a ||| zext16 imm)) s
def execXori (rd : Fin 64) (imm : BitVec 16) (s : State) := kq1 rd rd (fun a => logRes false (a ^^^ zext16 imm)) s
def execShli (rd : Fin 64) (n : Fin 64) (s : State) := kq1 rd rd (fun a => logRes false (shlVal a n)) s
def execShri (rd : Fin 64) (n : Fin 64) (s : State) := kq1 rd rd (fun a => logRes false (shrVal false a n)) s
def execSari (rd : Fin 64) (n : Fin 64) (s : State) := kq1 rd rd (fun a => logRes false (sarVal false a n)) s
def execCmpi (rd : Fin 64) (imm : BitVec 16) (s : State) : Host.Outcome State Fault Refusal :=
  .next (kqTask (fun x => kqNoPut (cmpRes .i64 (kAt x rd) (sext16 imm)) x) s)
def execCmpiu (rd : Fin 64) (imm : BitVec 16) (s : State) : Host.Outcome State Fault Refusal :=
  .next (kqTask (fun x => kqNoPut (cmpRes .u64 (kAt x rd) (zext16 imm)) x) s)
def execMuli (rd : Fin 64) (imm : BitVec 16) (s : State) :=
  kq1 rd rd (fun a => intRes false true (sval false a * imm.toInt)) s

/-- An entry of the constant pool; one that the image does not list holds zero. -/
def constAt (i : Nat) (s : State) : DWord := (Sparse.find (kqImage s).consts i).getD 0

/-- R237: CLD. -/
def execCld (rd : Fin 64) (i : Fin 4096) (s : State) : Host.Outcome State Fault Refusal :=
  .next (kqRun (fun t s => onTask t (kqPut rd { val := constAt i s }) s) s)

end Sys2Proof.Machine
end

