-- ==== Sys2Proof/Machine/KqTag.lean ====
section
/-! DEFINITION. Tag and image access of the Kloquakor instructions (R238 to R242). -/
namespace Sys2Proof.Machine

/-! ### Tags -/

/-- The task's image assigns the tag to it as an input, or as an output (R179). -/
def assignedIn (t g : Nat) (s : State) : Bool := (taskDef t s).any (fun d => d.inputs.any (fun i => i.toNat == g))
def assignedOut (t g : Nat) (s : State) : Bool := (taskDef t s).any (fun d => d.outputs.any (fun i => i.toNat == g))

/-- What the last input latch of another task took, for a tag that it has as an input (R179). DEDUCED: log entry 25. -/
def otherLatch (g : Nat) (s : State) : Option Sample :=
  (List.range 24).findSome? (fun u => if assignedIn u g s then Sparse.find (task u s).input g else none)

/-- What a load by task `t` sees (R179, R192, R199). -/
def loadSample (t g : Nat) (s : State) : Sample :=
  let live := tagLive g s
  if assignedIn t g s then (Sparse.find (task t s).input g).getD live
  else match forceOf g s with
    | some v => { live with val := v }
    | none =>
      if assignedOut t g s then { live with val := (Sparse.find (outImage t s) g).getD live.val }
      else if (tagDef g s).any (fun d => d.locKind != 0) then (otherLatch g s).getD live
      else live

/-- A value extended into a register (Table KQ-14). -/
def loadExt (typ : Nat) (v : DWord) : DWord :=
  match typ with
  | 1 => v &&& 1
  | 2 => (v.setWidth 16).signExtend 64
  | 3 => (v.setWidth 32).signExtend 64
  | 5 | 8 | 9 => (v.setWidth 32).zeroExtend 64
  | _ => v

/-- A register narrowed for a store, and OV (Table KQ-14). -/
def storeVal (typ : Nat) (v : DWord) : DWord := if typ = 1 then boolD (v != 0) else narrowTag typ v
def storeOv (typ : Nat) (v : DWord) : Bool :=
  match typ with
  | 2 => decide (v.toInt < -32768) || decide (32767 < v.toInt)
  | 3 => outOfRange true v.toInt
  | _ => false

/-- Where the protection unit sees a tag access of a task (Table MEM-3, Table MEM-1). -/
def tagPlace (t g : Nat) (d : TagDef) (s : State) : Nat :=
  let at_ := fun (l : List Tag) => ((tagOrder l).findIdx? (· == g)).getD 0 * 8 + 8
  match taskDef t s with
  | some k =>
    if assignedIn t g s then 0x0A100000 + 0x80000 * t + at_ k.inputs
    else if assignedOut t g s then 0x0A140000 + 0x80000 * t + at_ k.outputs
    else if d.locKind = 0 then 0x0A000000 + d.location.toNat % 0x80000
    else 0x200400000 + 16 * g
  | none => 0x200400000 + 16 * g

/-- The type check of a tag access (R240). -/
def kqTyped (t g : Nat) (ty : Fin 16) (f : TagDef → State → State) (s : State) : State :=
  match tagDef g s with
  | none => kqFault Code.KQ_TAG_UNDEF t s
  | some d => if ty.val != 0 && ty.val != d.typ then kqFault Code.KQ_TAG_TYPE t s else f d s

/-- The load is replayed on a standby side in step (Table PAIR-4). -/
def loadReplayed (t g : Nat) (d : TagDef) (s : State) : Bool :=
  inRange d.writerKind 2 4 || (forceOf g s).isSome
  || (d.locKind != 0 && !assignedIn t g s && !assignedOut t g s)

/-- The result of a load (R238). -/
def loadRes (t g : Nat) (d : TagDef) (s : State) : KqRes :=
  let x := loadSample t g s
  { extRes (loadExt d.typ x.val) with tov := x.stale || x.invalid }

/-- A tag load by the running task (R238, R240, R242). -/
def kqLoad (t g : Nat) (ty : Fin 16) (rd : Fin 64) (s : State) : State :=
  kqTyped t g ty (fun d => kqProt t (tagPlace t g d s) .read d.colour (fun s =>
    if loadReplayed t g d s then kqReplay t rd false id (fun u => (loadRes t g d u, u)) s
    else onTask t (kqPut rd (loadRes t g d s)) s)) s

/-- The task may store to the tag (R239). -/
def storeAllowed (t : Nat) (d : TagDef) : Bool :=
  (d.writerKind == 1 && d.writerIndex == t) || (d.locKind == 0 && d.writerKind == 0)

/-- Put a narrowed value where the task's store goes (R179, R192). -/
def storeTo (t g : Nat) (v : DWord) (s : State) : State :=
  if assignedOut t g s then onTask t (fun x => { x with output := Sparse.insert x.output g v }) s else tagStore g v s

/-- A tag store by the running task (R239, R240, R242). -/
def kqStore (t g : Nat) (ty : Fin 16) (v : DWord) (s : State) : State :=
  kqTyped t g ty (fun d s =>
    if !storeAllowed t d then kqFault Code.KQ_TAG_WRITER t s
    else kqProt t (tagPlace t g d s) .write d.colour (fun s =>
      s |> storeTo t g (storeVal d.typ v) |> onTask t (kqNoPut { ov := storeOv d.typ v }) |> commitPoint t) s) s

/-- The tag of an indexed access (R238, R239). -/
def tagIndex (x : Task) (ra rb : Fin 64) : Nat := (kAt x ra + kAt x rb).toNat % 65536

/-- R238: TLD. -/
def execTld (ty : Fin 16) (rd : Fin 64) (tag : Tag) (s : State) : Host.Outcome State Fault Refusal :=
  .next (kqRun (fun t s => kqLoad t tag.toNat ty rd s) s)

/-- R238: TLDX. -/
def execTldx (ty : Fin 16) (rd ra rb : Fin 64) (s : State) : Host.Outcome State Fault Refusal :=
  .next (kqRun (fun t s => kqLoad t (tagIndex (task t s) ra rb) ty rd s) s)

/-- R239: TST. -/
def execTst (ty : Fin 16) (rd : Fin 64) (tag : Tag) (s : State) : Host.Outcome State Fault Refusal :=
  .next (kqRun (fun t s => kqStore t tag.toNat ty (kAt (task t s) rd) s) s)

/-- R239: TSTX. -/
def execTstx (ty : Fin 16) (rd ra rb : Fin 64) (s : State) : Host.Outcome State Fault Refusal :=
  .next (kqRun (fun t s => kqStore t (tagIndex (task t s) ra rb) ty (kAt (task t s) rd) s) s)

/-! ### Images (R241, R605) -/

def sizeBytes : AccSize → Nat
  | .b1 => 1
  | .b2 => 2
  | .b4 => 4
  | .b8 => 8

/-- The header of an image (R604). -/
def imgHeader (hdr : Word) (x : Task) : DWord := toD (x.cycles % 2 ^ 32 * 2 ^ 32 + hdr.toNat)

/-- The words of a task's input or output image: the header and the values in tag order (R603, R604). -/
def imgWords (out : Bool) (t : Nat) (s : State) : List DWord :=
  let x := task t s
  if out then imgHeader x.outHdr x :: (outImage t s).map (·.2)
  else imgHeader x.inHdr x :: (match taskDef t s with
    | none => []
    | some d => (tagOrder d.inputs).map (fun g => ((Sparse.find x.input g).map (·.val)).getD 0))

/-- Where an access lies: at an internal address of memory; in a word of the task's image, with the address that the
protection unit sees; or in tag memory. -/
inductive ImgRef where
  | mem (a : Nat)
  | word (i : Nat) (a : Nat)
  | tagMem (off : Nat)

/-- Resolve an access of `n` bytes at an offset; none outside the area (R241, R605). -/
def imgRef (area : ImgArea) (t off n : Nat) (s : State) : Option ImgRef :=
  match area with
  | .data =>
    if off + n ≤ (kqImage s).dataLen then some (.mem (dataBase s + off))
    else if inRange off 0x04000000 0x047FFFFF then some (.mem (0x201000000 + (off - 0x04000000)))
    else if inRange off 0x04800000 0x049FFFFF then some (.mem (0x201800000 + (off - 0x04800000)))
    else none
  | .input => if off + n ≤ 8 * (imgWords false t s).length then some (.word (off / 8) (0x0A100000 + 0x80000 * t + off)) else none
  | .output => if off + n ≤ 8 * (imgWords true t s).length then some (.word (off / 8) (0x0A140000 + 0x80000 * t + off)) else none
  | .tagMem => if off + n ≤ 0x80000 then some (.tagMem off) else none

/-- `n` bytes of a word from byte `b` on. -/
def wordBytes (w : DWord) (b n : Nat) : Nat := w.toNat / 2 ^ (8 * b) % 2 ^ (8 * n)

/-- A word with `n` bytes from byte `b` on replaced. -/
def wordReplace (w : DWord) (b n v : Nat) : DWord :=
  toD (w.toNat - wordBytes w b n * 2 ^ (8 * b) + v % 2 ^ (8 * n) * 2 ^ (8 * b))

/-- The address that the protection unit sees. -/
def refAddr : ImgRef → Nat
  | .mem a => a
  | .word _ a => a
  | .tagMem off => 0x0A000000 + off

/-- The bytes read. -/
def refRead (area : ImgArea) (t off n : Nat) (r : ImgRef) (s : State) : Nat :=
  match r with
  | .mem a => mgetN a n s
  | .word i _ => wordBytes ((imgWords (area == .output) t s).getD i 0) (off % 8) n
  | .tagMem o => wordBytes (tagMemGet (o / 8) s) (o % 8) n

/-- Write bytes: memory, or a value of the task's output image. -/
def refWrite (t off n v : Nat) (r : ImgRef) (s : State) : State :=
  match r with
  | .mem a => msetN a n v s
  | .word i _ =>
    match (outImage t s)[i - 1]? with
    | some e => onTask t (fun x => { x with output := Sparse.insert x.output e.1 (wordReplace e.2 (off % 8) n v) }) s
    | none => s
  | .tagMem _ => s

/-- The value that IMLD writes (Table KQ-15). -/
def imldVal (sgn : Bool) (size : AccSize) (v : Nat) : DWord :=
  match sgn, size with
  | true, .b1 => (BitVec.ofNat 8 v).signExtend 64
  | true, .b2 => (BitVec.ofNat 16 v).signExtend 64
  | true, .b4 => (BitVec.ofNat 32 v).signExtend 64
  | _, _ => toD v

/-- The offset of an image access (R241). -/
def imgOff (x : Task) (ra rb : Fin 64) : Nat := (kAt x ra + kAt x rb).toNat

/-- R241: IMLD. -/
def execImld (area : ImgArea) (sgn : Bool) (size : AccSize) (rd ra rb : Fin 64) (s : State) : Host.Outcome State Fault Refusal :=
  .next (kqRun (fun t s =>
    let off := imgOff (task t s) ra rb
    let n := sizeBytes size
    if off % n ≠ 0 then kqFault Code.KQ_ALIGN t s
    else match imgRef area t off n s with
      | none => kqFault Code.KQ_BOUNDS t s
      | some r => kqProt t (refAddr r) .read (masterColour 0 s) (fun s =>
          let res := fun u => extRes (imldVal sgn size (refRead area t off n r u))
          if area = .tagMem then kqReplay t rd false id (fun u => (res u, u)) s
          else onTask t (kqPut rd (res s)) s) s) s)

/-- An area to which the offset may not be stored (R241). -/
def imstReadOnly (area : ImgArea) (off : Nat) : Bool :=
  match area with
  | .data => false
  | .output => decide (off < 8)
  | .input | .tagMem => true

/-- R241: IMST. -/
def execImst (area : ImgArea) (size : AccSize) (rd ra rb : Fin 64) (s : State) : Host.Outcome State Fault Refusal :=
  .next (kqRun (fun t s =>
    let off := imgOff (task t s) ra rb
    let n := sizeBytes size
    if off % n ≠ 0 then kqFault Code.KQ_ALIGN t s
    else if imstReadOnly area off then kqFault Code.KQ_BOUNDS t s
    else match imgRef area t off n s with
      | none => kqFault Code.KQ_BOUNDS t s
      | some r => kqProt t (refAddr r) .write (masterColour 0 s) (fun s =>
          s |> refWrite t off n (kAt (task t s) rd).toNat r |> onTask t (kqNoPut {}) |> commitPoint t) s) s)

end Sys2Proof.Machine
end

