-- ==== Sys2Proof/Machine/Loop.lean ====
section
/-! DEFINITION. The loop engine: the meanings of its frames, evaluations, commands and traces (R264 to R308). -/
namespace Sys2Proof.Machine

/-- The engine starts frames (R298, R307). -/
def loopUp (s : State) : Bool := regionsUp s && !inFallback 1 s && flag Fld.LOOP_CTRL_RUN s

/-- The frame tide's state allows frames from it (R266). -/
def frameTideOk (s : State) : Bool := tideAllows (fld Fld.LOOP_FRAME_HOLD s) (tide (fld Fld.LOOP_FRAME_TIDE s) s).st

/-- A frame start that the engine accepts (R264 to R266): `cycles` is the CD_LOOP cycles since the previous start, and
`crossing` says that a tide crossing starts it. -/
def frameOk (cycles : Nat) (crossing : Bool) (s : State) : Bool :=
  let first := s.loop.frame.isNone
  if fld Fld.LOOP_FRAME_SRC s = 0 then !crossing && (first || cycles == 18750)
  else if crossing then frameTideOk s && (first || decide (18750 ≤ cycles))
  else !frameTideOk s || s.loop.freerun

/-- The interval of a frame from the engine's timer with SRC 1 (R266), and of any other frame. -/
def frameCycles (cycles : Nat) (crossing : Bool) (s : State) : Nat :=
  if s.loop.frame.isNone then 0
  else if fld Fld.LOOP_FRAME_SRC s = 1 && !crossing then min (max s.loop.interval 18750) 600000000
  else cycles

/-- Frames change to the engine timer or return to the tide (R266). -/
def frameSource (crossing : Bool) (s : State) : State :=
  if fld Fld.LOOP_FRAME_SRC s = 0 then s
  else if crossing then
    let t := { s with loop := { s.loop with angle := s.loop.angle + rd Reg.LOOP_FRAME_STEP s } }
    if s.loop.freerun then
      { t with loop := { t.loop with freerun := false } } |> setFlag Fld.LOOP_STATUS_FREERUN false
        |> raiseF 0x05 Fld.LOOP_EVENT_FREERUN |> say Code.LOOP_FRAME_RETIDE
    else t
  else if s.loop.freerun then s
  else
    { s with loop := { s.loop with freerun := true } } |> setFlag Fld.LOOP_STATUS_FREERUN true
      |> raiseF 0x05 Fld.LOOP_EVENT_FREERUN |> say Code.LOOP_FRAME_FREERUN

/-- The slot at a number of the round-robin of mirror records (R302). -/
def mirrorRound (s : State) : State :=
  let l := (s.loop.slots.filter (fun e => e.2.mode != .off)).map (·.1)
  if l.isEmpty then s
  else
    let from' := s.loop.mirrorNext
    let order := l.filter (fun k => decide (from' ≤ k)) ++ l.filter (fun k => decide (k < from'))
    let send := order.take 64
    let t := forAll send slotMirror s
    { t with loop := { t.loop with mirrorNext := (send.getLastD 0) + 1 } }

/-- One slot at a frame start: a periodic slot of the frame captures its inputs (R267, R269); a pending event sample
has waited past it (R271). DEDUCED: log entry 27. -/
def slotFrame (f : Nat) (stamp : DWord) (k : Nat) (s : State) : State :=
  let x := slot k s
  if !x.valid then s
  else if x.sched = 1 then
    onlyIf x.evt (fun t => t |> bump Fld.LOOP_EVT_COUNTS_LATE |> raiseF 0x05 Fld.LOOP_EVENT_EVT_LATE
      |> slotSay k Code.LOOP_EVT_LATE) s
  else if f % x.div == x.phase && (x.mode != .off || closesGroup x s) then
    onSlot k (fun y => { y with due := true }) (slotCapture k stamp s)
  else onSlot k (fun y => { y with due := false }) s

/-- R265 to R269, R271, R302: a frame starts. -/
def frameStart (cycles : Nat) (crossing : Bool) (s : State) : State :=
  let n := frameCycles cycles crossing s
  let first := s.loop.frame.isNone
  let f := match s.loop.frame with | none => 0 | some f => f + 1
  let stamp := moduleNs s
  let t := frameSource crossing s
  let t := { t with loop := { t.loop with
    frame := some f
    clock := t.loop.clock + n
    interval := if first then t.loop.interval else n
    stamp := stamp
    ns := nowNs s
    load := [] } }
  let t := setFld Fld.LOOP_STATUS_FRAME (f % 65536) t
  let t := if first then t
    else withFree (fun d => wr Reg.LOOP_FRAME_LAST (toW (min (roundTie (n * 5) 3 (d.getLsbD 0)) 0xFFFFFFFF))) t
  mirrorRound (forAll (t.loop.slots.map (·.1)) (slotFrame f stamp) t)

/-- R265. -/
def execLoopFrameStart (cycles : Nat) (crossing : Bool) (s : State) : Host.Outcome State Fault Refusal :=
  .next (if loopUp s && frameOk cycles crossing s then frameStart cycles crossing s else s)

/-- The slot's evaluation is to come. -/
def slotReady (k : Nat) (s : State) : Bool := engineRuns k s && ((slot k s).due || (slot k s).evt)

/-- R282: a slot is evaluated at its position. -/
def execLoopEvaluation (k : Fin 2048) (s : State) : Host.Outcome State Fault Refusal :=
  .next (if slotReady k.val s then evaluateAt k.val s else s)

/-- The supervisor finds one condition at the evaluation to come. -/
def condEvent (k : Nat) (st : Status) (now : Judge → Bool) (was : LoopSlot → Bool) (set : LoopSlot → LoopSlot) (s : State) :
    State :=
  let x := slot k s
  if slotReady k s && x.mode != .off && now (judge x s) && !was x then condFound k st set s else s

/-- R293: PV is lost. -/
def execLoopLost (k : Fin 2048) (s : State) : Host.Outcome State Fault Refusal :=
  .next (condEvent k.val Code.LOOP_LOST (·.lost) (·.lost) (fun x => { x with lost := true }) s)

/-- R294: PV is frozen. -/
def execLoopFrozen (k : Fin 2048) (s : State) : Host.Outcome State Fault Refusal :=
  .next (condEvent k.val Code.LOOP_FROZEN (·.frozen) (·.frozen) (fun x => { x with frozen := true }) s)

/-- R293: PV is implausible. -/
def execLoopImplausible (k : Fin 2048) (s : State) : Host.Outcome State Fault Refusal :=
  .next (condEvent k.val Code.LOOP_IMPLAUSIBLE (·.implausible) (·.implausible) (fun x => { x with implausible := true }) s)

/-- R297: the conditions have been clear for RECOVER evaluations. -/
def execLoopRecovered (k : Fin 2048) (s : State) : Host.Outcome State Fault Refusal :=
  let x := slot k.val s
  let j := judge x s
  .next (if slotReady k.val s && x.mode != .off && x.fb.isSome && x.fb != some .manual && x.fbRecover
      && !j.lost && !j.frozen && !j.implausible && decide (x.recover ≤ x.clearCnt + 1) then slotRecover k.val s
    else s)

/-! ### Slot commands of the host -/

def loopSel (s : State) : Nat := fld Fld.LOOP_SEL_SLOT s
def loopArg (s : State) : Nat := fld Fld.LOOP_ARG_ARG s
def loopResult (st : Status) (s : State) : State := setFld Fld.LOOP_RESULT_STATUS st.toNat s

/-- A slot command that is refused. -/
def loopRefuse (k : Nat) (st : Status) (s : State) : State := loopResult st (slotRefuse k st s)

/-- R273, R274: LOAD. -/
def execLoopLoad (s : State) : Host.Outcome State Fault Refusal :=
  .next (hostCmd Reg.LOOP_CMD (fun s =>
    let k := loopSel s
    let x := { slot k s with desc := (List.range 7).map (fun i => rd (Reg.LOOP_DESC i) s), valid := true }
    if (slot k s).mode != .off then loopRefuse k Code.LOOP_NOT_OFF s
    else if descBad x then loopRefuse k Code.LOOP_DESC_BAD s
    else if schedConflict k x s then loopRefuse k Code.LOOP_SCHED_CONFLICT s
    else loopResult Code.LOOP_OK (setSlot k x s)) s)

/-- R273: READ. -/
def execLoopRead (s : State) : Host.Outcome State Fault Refusal :=
  .next (hostCmd Reg.LOOP_CMD (fun s =>
    let x := slot (loopSel s) s
    s |> forAll (List.range 7) (fun i => wr (Reg.LOOP_DESC i) (x.desc.getD i 0)) |> wr (Reg.LOOP_DESC 7) (slotCrc x)
      |> loopResult Code.LOOP_OK) s)

/-- R276: SET_PAR. -/
def execLoopSetPar (s : State) : Host.Outcome State Fault Refusal :=
  .next (hostCmd Reg.LOOP_CMD (fun s =>
    let r := loopPutPar (loopSel s) (loopArg s) (rd Reg.LOOP_VAL s) s
    loopResult r.1 r.2) s)

/-- R276: GET_PAR. -/
def execLoopGetPar (s : State) : Host.Outcome State Fault Refusal :=
  .next (hostCmd Reg.LOOP_CMD (fun s =>
    let k := loopSel s
    if 0x19 < loopArg s then loopRefuse k Code.LOOP_BAD_ITEM s
    else s |> wr Reg.LOOP_VAL ((slot k s).parAt (loopArg s)) |> loopResult Code.LOOP_OK) s)

/-- R272: SET_SP. -/
def execLoopSetSp (s : State) : Host.Outcome State Fault Refusal :=
  .next (hostCmd Reg.LOOP_CMD (fun s =>
    let r := loopPutSp (loopSel s) (rd Reg.LOOP_VAL s) s
    loopResult r.1 r.2) s)

/-- R277: SET_MODE. -/
def execLoopSetMode (s : State) : Host.Outcome State Fault Refusal :=
  .next (hostCmd Reg.LOOP_CMD (fun s =>
    let r := loopPutMode (loopSel s) (loopArg s % 16) s
    loopResult r.1 r.2) s)

/-- An item of a slot and whether it is invalid (R308); none for an unknown item. -/
def slotItem (k c : Nat) (s : State) : Option (Word × Bool) :=
  let x := slot k s
  let off := x.mode == .off
  if c < 16 then
    let bak := slotIn x x.bakTag s
    some (x.items.getD c 0, off || (x.lost && (c == 1 || c == 9 || c == 10)) || (c == 13 && (bak.invalid || bak.stale)))
  else if c = 0x10 then some (Flt.narrow (Flt.fint x.mode.code), off)
  else if inRange c 0x40 0x59 then some (x.parAt (c - 0x40), off)
  else none

/-- R308: READ_ITEM. -/
def execLoopReadItem (s : State) : Host.Outcome State Fault Refusal :=
  .next (hostCmd Reg.LOOP_CMD (fun s =>
    let k := loopSel s
    match slotItem k (loopArg s) s with
    | none => loopResult Code.LOOP_BAD_ITEM (slotSay k Code.LOOP_BAD_ITEM s)
    | some v => s |> wr Reg.LOOP_VAL v.1 |> loopResult Code.LOOP_OK) s)

/-- R273: CLEAR. -/
def execLoopClear (s : State) : Host.Outcome State Fault Refusal :=
  .next (hostCmd Reg.LOOP_CMD (fun s =>
    let k := loopSel s
    if (slot k s).mode != .off then loopRefuse k Code.LOOP_NOT_OFF s
    else loopResult Code.LOOP_OK (onSlot k (fun x => { x with valid := false, desc := [], par := [], writes := [] }) s)) s)

/-- R307: LOOP_CTRL.RUN. -/
def execLoopRunWrite (run : Bool) (s : State) : Host.Outcome State Fault Refusal :=
  .next (hostCmd Reg.LOOP_CTRL (fun s =>
    if run && !flag Fld.LOOP_CTRL_RUN s then
      { s with loop := { s.loop with frame := none, angle := rd Reg.LOOP_FRAME_ANGLE s, freerun := false } }
        |> setFlag Fld.LOOP_CTRL_RUN true |> wr Reg.LOOP_LOAD 0 |> setFlag Fld.LOOP_STATUS_FREERUN false
    else setFlag Fld.LOOP_CTRL_RUN run s) s)

/-! ### Traces -/

/-- A buffer stops (R301). -/
def traceStop (b : Nat) (s : State) : State :=
  s |> setFlag (Fld.TRBb_STATUS_RUN b) false |> setFlag (Fld.TRBb_STATUS_STOPPED b) true
    |> onTrace b (fun x => { x with done := false, post := none }) |> raiseF 0x05 Fld.LOOP_EVENT_TRACE_DONE

/-- R301: ARM. -/
def execTraceArm (b : Fin 32) (s : State) : Host.Outcome State Fault Refusal :=
  .next (hostCmd Reg.TRACE_CMD (fun s =>
    if traceMask b.val s = 0 || fld (Fld.TRBb_TRIG_MODE b.val) s = 3 || fld (Fld.TRBb_TRIG_SRC b.val) s = 3 then
      say Code.LOOP_DESC_BAD (raiseF 0x05 Fld.LOOP_EVENT_CFG_REFUSED s)
    else
      s |> wr (Reg.TRBb_STATUS b.val) 0 |> setFlag (Fld.TRBb_STATUS_RUN b.val) true
        |> onTrace b.val (fun _ => { tagPrev := tagTrue (fld (Fld.TRBb_TRIG_TAG b.val) s) s })) s)

/-- R301: STOP. -/
def execTraceStop (b : Fin 32) (s : State) : Host.Outcome State Fault Refusal :=
  .next (hostCmd Reg.TRACE_CMD (fun s => onlyIf (flag (Fld.TRBb_STATUS_RUN b.val) s) (traceStop b.val) s) s)

/-- R301: TRIGGER, a source only with SRC 0b00. -/
def execTraceTrigger (b : Fin 32) (s : State) : Host.Outcome State Fault Refusal :=
  .next (hostCmd Reg.TRACE_CMD (fun s => onlyIf (fld (Fld.TRBb_TRIG_SRC b.val) s == 0) (traceTrig b.val) s) s)

/-- Table LOOP-15: CLEAR. -/
def execTraceClear (b : Fin 32) (s : State) : Host.Outcome State Fault Refusal :=
  .next (hostCmd Reg.TRACE_CMD (fun s => mclear (traceBase b.val) 262144 s) s)

/-- R301: the buffer has recorded its POST records, or is full. -/
def execTraceDone (b : Fin 32) (s : State) : Host.Outcome State Fault Refusal :=
  .next (onlyIf (flag (Fld.TRBb_STATUS_RUN b.val) s && (traceBuf b.val s).done) (traceStop b.val) s)

/-! ### The standby side and slot banks -/

/-- R302, R303: a mirror record arrives on a standby side. -/
def execLoopMirrorRecord (k : Fin 2048) (rec : LoopMirror) (s : State) : Host.Outcome State Fault Refusal :=
  .next (if !regionsUp s || !inRange (fld Fld.PAIR_STATE_STATE s) 2 4 then s
    else if rec.d7 != slotCrc (slot k.val s) then
      s |> onSlot k.val (fun x => { x with mirrorOk := false, mirror := none }) |> slotSay k.val Code.LOOP_MIRROR_MISMATCH
        |> bump Fld.LOOP_MIRROR_ERR_COUNT |> raiseF 0x05 Fld.LOOP_EVENT_MIRROR_MISMATCH
    else onSlot k.val (fun x => { x with mirrorOk := true, mirror := some rec }) s)

/-- The slots of a bank. -/
def bankSlots (b : Nat) : List Nat := (List.range 16).map (fun j => 16 * b + j)

/-- R306: a slot bank's FIFO check fails. -/
def execLoopBankIsolated (b : Fin 128) (s : State) : Host.Outcome State Fault Refusal :=
  .next (if !regionsUp s || inFallback 1 s || slotBankIso b.val s then s
    else
      s |> setBitAt (Reg.LOOP_BANK_ISO (b.val / 32)) (b.val % 32) true |> raiseF 0x05 Fld.LOOP_EVENT_BANK_ISO
        |> say Code.LOOP_BANK_ISOLATED |> forAll (bankSlots b.val) markOut |> isolateBank 1 b.val)

/-- R306: the host starts the FIFO self-test. -/
def execLoopBankReen (b : Fin 128) (s : State) : Host.Outcome State Fault Refusal :=
  .next (hostCmd Reg.LOOP_BANK_REEN (fun s =>
    if slotBankIso b.val s && !s.loop.selfTest.contains b.val then
      { s with loop := { s.loop with selfTest := b.val :: s.loop.selfTest } }
    else s) s)

/-- R306: the self-test passes. -/
def execLoopBankReenabled (b : Fin 128) (s : State) : Host.Outcome State Fault Refusal :=
  .next (if regionsUp s && slotBankIso b.val s && s.loop.selfTest.contains b.val then
      { s with loop := { s.loop with selfTest := s.loop.selfTest.filter (· != b.val) } }
        |> setBitAt (Reg.LOOP_BANK_ISO (b.val / 32)) (b.val % 32) false |> unisolateBank 1 b.val
        |> forAll (bankSlots b.val) (fun k => onSlot k (fun x => { x with rebase := x.rebase || x.mode != .off }))
        |> forAll (bankSlots b.val) markOut |> say Code.LOOP_BANK_REENABLED
    else s)

end Sys2Proof.Machine
end

