-- ==== Sys2Proof/Machine/Strand.lean ====
section
/-! DEFINITION. Strandline (R565 to R582): the meanings of its commands and events. -/
namespace Sys2Proof.Machine

/-- The ring's partition and its number of records (R565, Table MEM-2). -/
def ringBase : Nat := 0x10000000
def ringLen : Nat := 4194304

/-- The ring index of a sequence number (R565). -/
def ringIndex (seq : Word) : Nat := (seq - 1).toNat % ringLen

/-- A record's source code (Table STRAND-1). -/
def StrSource.code : StrSource → Nat
  | .module => 0
  | .program => 1
  | .sequencer => 2
  | .host => 3

/-- Bytes 0 to 27 of a record (Table STRAND-1). -/
def recHead (r : StrRec) : List Byte :=
  leBytes 8 r.stamp.toNat ++ leBytes 4 r.seq.toNat ++ leBytes 2 r.status.toNat
  ++ leBytes 2 (r.untrusted.toNat * 2 ^ 15 + r.undisc.toNat * 2 ^ 14 + r.source.code * 2 ^ 12 + r.code % 2 ^ 12)
  ++ leBytes 8 r.datum.toNat ++ leBytes 1 r.origin ++ leBytes 1 r.pair ++ leBytes 2 r.suppr

/-- The 32 bytes of a record with its CHECK (R567). -/
def recBytes (r : StrRec) : List Byte := recHead r ++ leBytes 4 (crc32c 0 (recHead r)).toNat

/-- A record that found a live drain full is skipped there and counted (R579). -/
def drainTo (q : Nat) (r : StrRec) (s : State) : State :=
  if queEnabled q s && queFull q s then
    let t := quePush q 0 0 r.stamp (recBytes r) s
    bump Fld.STR_DRAIN_SKIP_COUNT { t with strand := { t.strand with skips := t.strand.skips + 1 } }
  else quePush q 0 0 r.stamp (recBytes r) s

/-- Write a record into the ring, then into the live drains (R572, R579). -/
def ringPut (r : StrRec) (s : State) : State :=
  let t := msetBytes (ringBase + 32 * ringIndex r.seq) (recBytes r) s
  { t with strand := { t.strand with ringSeq := r.seq, ringUsed := true } }
    |> onlyIf (flag Fld.STR_CTRL_LIVE_EN s) (drainTo 48 r)
    |> onlyIf (flag Fld.STR_CTRL_PRIO_EN s && fieldOf (rlCfg r.code s) Fld.STR_RL_CFG_PRIO == 1) (drainTo 49 r)

/-- Once an entry is free again, the records lost are reported; that record has no rate limit (R571). -/
def sayLost (s : State) : State :=
  if s.strand.lostSince = 0 then s
  else strAccept (mkRec .module Code.STR_LOST_RECORDS (strCode Code.STR_LOST_RECORDS) 0 (toD s.strand.lostSince) s)
    { s with strand := { s.strand with lostSince := 0 } }

/-- R572: the writer writes the oldest accepted record into the ring. -/
def execStrandlineRingWrite (s : State) : Host.Outcome State Fault Refusal :=
  .next (match s.strand.phase, s.strand.queue with
    | .run, r :: q => sayLost (ringPut r { s with strand := { s.strand with queue := q } })
    | _, _ => s)

/-- Status of the last STR command; a refusal is reported. -/
def strResult (st : Status) (s : State) : State := result Fld.STR_RESULT_STATUS st s

/-- R575: records accepted up to the command go into the ring, then the ring is frozen. -/
def strFreeze (s : State) : State :=
  let t := forAll s.strand.queue ringPut { s with strand := { s.strand with queue := [] } }
  { t with strand := { t.strand with
      phase := .frozen, frozenSeq := t.strand.ringSeq, frozenUsed := t.strand.ringUsed
      holdFullSaid := false, frozenAt := nowNs t } }
    |> sayLost |> strResult Code.STRAND_OK |> strEvent Fld.STR_EVENT_FREEZE |> say Code.STR_FROZEN

/-- R575, R577: STR_CMD FREEZE. -/
def execStrFreeze (s : State) : Host.Outcome State Fault Refusal :=
  .next (hostCmd Reg.STR_CMD (fun s =>
    if s.strand.phase = .run then strFreeze s else strResult Code.STR_CMD_REFUSED s) s)

/-- R576: the append begins. -/
def strBeginAppend (s : State) : State :=
  strEvent Fld.STR_EVENT_FREEZE { s with strand := { s.strand with phase := .thawing } }

/-- R576, R577: STR_CMD THAW; a tie with the expiry goes to the command. -/
def execStrThaw (tie : Bool) (s : State) : Host.Outcome State Fault Refusal :=
  .next (hostCmd Reg.STR_CMD (fun s =>
    if s.strand.phase = .frozen then
      s |> strBeginAppend |> onlyIf tie (bump Fld.STR_CLOSE_CALL_COUNT) |> strResult Code.STRAND_OK |> say Code.STR_THAWED
    else strResult Code.STR_CMD_REFUSED s) s)

/-- R576: the hold area is in the ring in SEQ order, and normal writing resumes. -/
def execStrThawAppendDone (s : State) : Host.Outcome State Fault Refusal :=
  .next (if s.strand.phase = .thawing then
    sayLost (forAll s.strand.hold ringPut { s with strand := { s.strand with phase := .run, hold := [] } })
  else s)

/-- R577: a freeze has lasted FREEZE_MAX. -/
def execStrFreezeExpired (s : State) : Host.Outcome State Fault Refusal :=
  .next (if s.strand.phase = .frozen then
    s |> strBeginAppend |> strEvent Fld.STR_EVENT_EXPIRED |> say Code.STR_FREEZE_EXPIRED
  else s)

/-- Copy the record at a ring index into STR_REC0 to STR_REC7, or all ones. -/
def readRecord (i : Nat) (ones : Bool) (s : State) : State :=
  forAll (List.range 8) (fun w => wr (Reg.STR_REC w)
    (if ones then 0xFFFFFFFF else toW (mgetN (ringBase + 32 * i + 4 * w) 4 s))) s

/-- R578: STR_CMD READ. -/
def execStrRead (uncorr : Bool) (s : State) : Host.Outcome State Fault Refusal :=
  .next (hostCmd Reg.STR_CMD (fun s =>
    let i := fld Fld.STR_READ_IDX_INDEX s
    if uncorr then
      s |> readRecord i true |> setFld Fld.STR_RESULT_STATUS Code.STR_MEM_ERR.toNat
        |> strEvent Fld.STR_EVENT_MEM_ERR |> sayD Code.STR_MEM_ERR (toD i)
    else s |> readRecord i false |> strResult Code.STRAND_OK) s)

/-- R570: STR_CMD LOG writes a record of source host. -/
def execStrLog (s : State) : Host.Outcome State Fault Refusal :=
  .next (hostCmd Reg.STR_CMD (fun s =>
    s |> strResult Code.STRAND_OK
      |> present (mkRec .host 0 (fld Fld.STR_HOST_CODE_CODE s) 0 (rd64 Reg.STR_HOST_DATUM_LO s) s)) s)

/-- The record at a ring index is not empty (R566). -/
def ringFilled (i : Nat) (s : State) : Bool := mgetN (ringBase + 32 * i) 32 s != 0

/-- SEQ of the record at a ring index. -/
def ringSeqAt (i : Nat) (s : State) : Word := toW (mgetN (ringBase + 32 * i + 8) 4 s)

/-- The record at a ring index is not empty and its CHECK holds (R567). -/
def ringValid (i : Nat) (s : State) : Bool :=
  ringFilled i s &&
    crc32c 0 (mgetBytes (ringBase + 32 * i) 28 s) == toW (mgetN (ringBase + 32 * i + 28) 4 s)

/-- The index after which the SEQ of the next index breaks (R580). -/
def ringBreak (i : Nat) (s : State) : Bool :=
  let j := (i + 1) % ringLen
  !(ringValid j s && ringSeqAt j s == ringSeqAt i s + 1)

/-- R579: a request in Q51 is answered in Q50: the records of the range still held, then their number and
the SEQ of the oldest record held. One record is one item (log entry 15). -/
def answerRequest (first : Word) (count : Nat) (s : State) : State :=
  let held := fun k => let q := first + toW k; ringValid (ringIndex q) s && ringSeqAt (ringIndex q) s == q
  let found := (List.range (min count 65536)).filter held
  let newest := if s.strand.phase = .frozen then s.strand.frozenSeq else s.strand.ringSeq
  let oldest := if newest.toNat ≤ ringLen then (1 : Word) else newest - toW (ringLen - 1)
  let t := forAll found (fun k t =>
    quePush 50 0 0 (moduleNs t) (mgetBytes (ringBase + 32 * ringIndex (first + toW k)) 32 s) t) s
  quePush 50 0 0 (moduleNs s) (leBytes 4 found.length ++ leBytes 4 oldest.toNat) t

/-- R579: the writer takes a request from Q51. -/
def execStrandlineRequest (first : Word) (count : Nat) (s : State) : Host.Outcome State Fault Refusal :=
  .next (queTake 51 (fun _ => answerRequest first count) s)

/-- R579: once per second the records skipped in the live drains are reported. -/
def execStrDrainSkip (s : State) : Host.Outcome State Fault Refusal :=
  .next (if s.strand.skips = 0 then s
  else { s with strand := { s.strand with skips := 0 } } |> strEvent Fld.STR_EVENT_DRAIN_SKIP |> say Code.STR_DRAIN_SKIP)

/-- Ring indices at which memory lists a byte. -/
def ringTouched (s : State) : List Nat :=
  (s.mem.filterMap (fun p => if inRange p.1 ringBase (ringBase + 32 * ringLen - 1) then some ((p.1 - ringBase) / 32)
    else none)).eraseDups

/-- SEQ of the newest valid record, by the distance of wrapping sequence numbers; 0 when there is none (R580). -/
def newestSeq (l : List Nat) (s : State) : Word :=
  match l.filter (fun i => ringValid i s && ringBreak i s) with
  | [] => 0
  | i :: t => t.foldl (fun q j => if (ringSeqAt j s - q).toInt > 0 then ringSeqAt j s else q) (ringSeqAt i s)

/-- Write a module record that precedes the hold area at a start (R581). -/
def startRecord (st : Status) (datum stamp : DWord) (s : State) : State :=
  let q := s.strand.seq + 1
  ringPut { mkRec .module st (strCode st) 0 datum s with seq := q, stamp := stamp }
    { s with strand := { s.strand with seq := q } }

/-- The records of the hold area take their SEQ in order of presentation (R581). -/
def numberHold (seq : Word) : List StrRec → List StrRec
  | [] => []
  | r :: t => { r with seq := seq + 1 } :: numberHold (seq + 1) t

/-- R580, R581: the scan or fill of the ring ends, STR_START is written, and the append begins. -/
def scanEnd (s : State) : State :=
  let s := if s.sup.dramLost then mclear ringBase (32 * ringLen) s else s
  let l := ringTouched s
  let bad := (l.filter (fun i => ringFilled i s && !ringValid i s)).length
  let kept := !s.sup.dramLost
  let newest := newestSeq l s
  let t := { s with strand := { s.strand with seq := newest, recovered := kept, ringSeq := newest, ringUsed := newest != 0 } }
    |> startRecord Code.STR_START (toD kept.toNat) s.strand.loaded
  let t := if bad = 0 then t
    else t |> bumpBy Fld.STR_CRC_BAD_COUNT bad |> strEvent Fld.STR_EVENT_CRC_BAD
      |> startRecord Code.STR_CRC_BAD (toD bad) (moduleNs t)
  let hold := numberHold t.strand.seq t.strand.hold
  { t with strand := { t.strand with
      phase := if hold.isEmpty then .run else .thawing
      seq := t.strand.seq + toW hold.length, hold := hold } }

/-- R581: the start-up scan ends. -/
def execStrandlineScanEnd (s : State) : Host.Outcome State Fault Refusal :=
  .next (if s.strand.phase = .starting && alive s then scanEnd s else s)

/-- R574: a write of STR_RL_CFG sets the limit of the code in STR_RL_SEL, and the full burst is available. -/
def execStrRlCfgWrite (value : Word) (s : State) : Host.Outcome State Fault Refusal :=
  .next (hostCmd Reg.STR_RL_CFG (fun s =>
    let c := fld Fld.STR_RL_SEL_CODE s
    { s with strand := { s.strand with
      rlCfg := Sparse.set rlDefault s.strand.rlCfg c (value &&& 0xFFFFFF80), tat := Sparse.erase s.strand.tat c } }) s)

end Sys2Proof.Machine
end

