-- ==== Sys2Proof/Machine/View.lean ====
section
/-! DEFINITION. What a read of a register returns: the register file, and for a register whose bits another part of the
state holds, the value computed from it. -/
namespace Sys2Proof.Machine

/-- Registers that are computed: `count` of them, `stride` bytes apart from `addr` on, and the value of the i-th. -/
structure Derived where
  addr : Nat
  stride : Nat
  count : Nat
  val : Nat → State → Word

def Derived.has (d : Derived) (a : Nat) : Bool :=
  if d.count = 1 then a == d.addr
  else decide (d.addr ≤ a) && ((a - d.addr) % d.stride == 0) && decide ((a - d.addr) / d.stride < d.count)

/-- One register, and a row of them. -/
def reg1 (a : Nat) (f : State → Word) : Derived := ⟨a, 0, 1, fun _ => f⟩

/-- `n` bits from a predicate. -/
def bitsOf (n : Nat) (f : Nat → Bool) : Nat := (List.range n).foldl (fun w i => w + (f i).toNat * 2 ^ i) 0
def bitsW (n : Nat) (f : Nat → Bool) : Word := toW (bitsOf n f)

/-- `n` fields of `w` bits. -/
def fieldsW (n w : Nat) (f : Nat → Nat) : Word := toW ((List.range n).foldl (fun m i => m + f i * 2 ^ (w * i)) 0)

/-- A count of a unit that saturates in `bits` bits; which way an inexact one is rounded is free (log entry 3). -/
def unitsOf (a unit bits ns : Nat) (s : State) : Nat :=
  min (2 ^ bits - 1) (ns / unit + (if ns % unit = 0 then 0 else ((Config.reading s.cycle a).getLsbD 0).toNat))

/-- The stored register with a field replaced. -/
def viewFld (f : RegField) (v : Nat) (s : State) : Word := withField (rd f.addr s) f v

/-! ### TIDE -/

def tideHold_us (n : Nat) (s : State) : Word :=
  match (tide n s).st with
  | .holdover | .lost => toW (unitsOf (Reg.TDn_HOLD_TIME n) 1000 32 (nowNs s - (tide n s).holdNs) s)
  | _ => 0

/-- SQs_ELAPSED: time since the actual entry less the time HELD (R157). -/
def seqElapsed (q : Nat) (s : State) : Word :=
  let x := seq q s
  if x.st != .run && x.st != .held then 0
  else
    let upTo := match x.heldAt with | some a => a.1 | none => execBase s
    toW (unitsOf (Reg.SQs_ELAPSED q) 10000 32 (((upTo : Int) - x.actual - x.heldNs).toNat) s)

def viewTIDE : List Derived := [
  reg1 Reg.TIDE_STATE (fun s => fieldsW 8 4 (fun n => (tide n s).st.code)),
  ⟨Reg.TDn_ANGLE 0, 0x40, 8, tideAngle⟩,
  ⟨Reg.TDn_TURN 0, 0x40, 8, tideTurn⟩,
  ⟨Reg.TDn_FREQ_LO 0, 0x40, 8, fun n s => BitVec.ofInt 32 (tide n s).omega⟩,
  ⟨Reg.TDn_FREQ_HI 0, 0x40, 8, fun n s => BitVec.ofInt 32 ((tide n s).omega / 2 ^ 32)⟩,
  ⟨Reg.TDn_HOLD_TIME 0, 0x40, 8, tideHold_us⟩,
  reg1 Reg.TT_CTRL (fun s => viewFld Fld.TT_CTRL_SHADOW (onStandby s).toNat s),
  reg1 Reg.SQ_RUN (fun s => bitsW 32 (fun q => (seq q s).st == .run || (seq q s).st == .held)),
  ⟨Reg.SQs_STATE 0, 0x20, 32, seqStateWord⟩,
  ⟨Reg.SQs_ELAPSED 0, 0x20, 32, seqElapsed⟩,
  ⟨Reg.SQs_SIGNAL 0, 0x20, 32, fun q s => toW (seq q s).signals.toNat⟩]

/-! ### EXE -/

def ChangePhase.code : ChangePhase → Nat
  | .none => 0
  | .verified => 1
  | .armed => 2
  | .swapped => 3

/-- A task's configuration from the running image (Table EXE-16); zero where it defines none. -/
def taskWord (f : TaskDef → Nat) (t : Nat) (s : State) : Word := toW (((taskDef t s).map f).getD 0)

def taskCfg (d : TaskDef) : Nat :=
  d.kind * 2 ^ 30 + d.prio * 2 ^ 25 + d.tide * 2 ^ 22 + d.hold * 2 ^ 20 + d.either.toNat * 2 ^ 19 + d.src * 2 ^ 12 + d.index

def TaskPhase.code : TaskPhase → Nat
  | .idle => 0
  | .latch => 1
  | .ready | .run => 2
  | .preempted => 3
  | .commit => 4

def taskStatus (t : Nat) (s : State) : Word :=
  let x := task t s
  toW (x.phase.code * 2 ^ 28 + x.freerun.toNat * 2 ^ 27 + x.pending.toNat * 2 ^ 26
    + unitsOf (Reg.TASKt_STATUS t) 1000 24 x.interval s)

def viewEXE : List Derived := [
  reg1 Reg.EXE_STATE (fun s =>
    withField (withField (rd Reg.EXE_STATE s) Fld.EXE_STATE_REVERT_OK s.exe.previous.isSome.toNat) Fld.EXE_STATE_AREA s.exe.area.toNat),
  reg1 Reg.EXE_CHANGE_STATUS (fun s => toW ((s.exe.busy != .none).toNat * 2 ^ 31 + s.exe.phase.code * 2 ^ 28
    + min 4095 s.exe.needUs * 2 ^ 16 + fld Fld.EXE_CHANGE_STATUS_STATUS s)),
  reg1 Reg.EXE_FORCE_COUNT (fun s => toW s.exe.forces.length),
  reg1 Reg.EXE_INVALID_LO (fun s => bitsW 32 (fun k => (station k s).invalid)),
  reg1 Reg.EXE_INVALID_HI (fun s => bitsW 32 (fun k => (station (32 + k) s).invalid)),
  ⟨Reg.TASKt_CFG 0, 0x20, 24, taskWord taskCfg⟩,
  ⟨Reg.TASKt_ANGLE 0, 0x20, 24, fun t s => (task t s).angle.getD (taskWord (fun d => d.angle.toNat) t s)⟩,
  ⟨Reg.TASKt_STEP 0, 0x20, 24, taskWord (fun d => d.step.toNat)⟩,
  ⟨Reg.TASKt_WDOG 0, 0x20, 24, taskWord (·.wdog)⟩,
  ⟨Reg.TASKt_STATUS 0, 0x20, 24, taskStatus⟩,
  ⟨Reg.TASKt_COUNTS 0, 0x20, 24, fun t s => viewFld (Fld.TASKt_COUNTS_CYCLES t) ((task t s).cycles % 65536) s⟩]

/-! ### LOOP -/

def slotState (s : State) : Word :=
  let x := slot (fld Fld.LOOP_SEL_SLOT s) s
  toW (x.mode.code * 2 ^ 28 + x.fb.isSome.toNat * 2 ^ 27 + x.lost.toNat * 2 ^ 26 + x.frozen.toNat * 2 ^ 25
    + x.implausible.toNat * 2 ^ 24 + x.satHi.toNat * 2 ^ 23 + x.satLo.toNat * 2 ^ 22 + x.selected.toNat * 2 ^ 21
    + x.tracking.toNat * 2 ^ 20 + (x.fb == some .backup).toNat * 2 ^ 19 + x.mirrorOk.toNat * 2 ^ 18 + x.valid.toNat * 2 ^ 17
    + x.forcedOut.toNat * 2 ^ 16 + x.last.toNat)

def viewLOOP : List Derived := [
  reg1 Reg.LOOP_CTRL (fun s => viewFld Fld.LOOP_CTRL_SHADOW (onStandby s).toNat s),
  reg1 Reg.LOOP_STATUS (fun s => viewFld Fld.LOOP_STATUS_FALLBACK (inFallback 1 s).toNat s),
  reg1 Reg.LOOP_SLOT_STATE slotState,
  ⟨Reg.LOOP_FB_MAP 0, 4, 64, fun k s => bitsW 32 (fun j => (slot (32 * k + j) s).fb.isSome)⟩]

/-! ### DIO, RFX and ANA -/

def DioBankState.code : DioBankState → Nat
  | .disabled => 0
  | .on => 1
  | .latchedOff => 2
  | .switchedOff => 3
  | .isolated => 4

def bankStatus (k : Nat) (s : State) : Word :=
  let b := dioBank k s
  toW (b.st.code * 2 ^ 29 + b.warn.toNat * 2 ^ 28 + b.low.toNat * 2 ^ 27 + b.switch.toNat * 2 ^ 26 + b.reenReady.toNat * 2 ^ 25)

def dioStatus (n : Nat) (s : State) : Word :=
  let c := dioCh n s
  toW ((dioInvalid n s).toNat * 2 ^ 31 + c.latched.toNat * 2 ^ 30 + c.fault.val * 2 ^ 26 + c.source * 2 ^ 21
    + c.filt.toNat * 2 ^ 20 + min 4095 c.current)

def viewDIO : List Derived := [
  reg1 Reg.DIO_IN (fun s => bitsW 32 (fun n => (dioCh n s).filt)),
  reg1 Reg.DIO_OUT (fun s => bitsW 32 (fun n => (dioCh n s).out)),
  reg1 Reg.DIO_INVALID (fun s => bitsW 32 (fun n => dioInvalid n s)),
  ⟨Reg.DIO_SRC 0, 4, 4, fun m s => fieldsW 8 4 (fun c => (dioCh (8 * m + c) s).src)⟩,
  ⟨Reg.DIO_BANKk_STATUS 0, 16, 4, bankStatus⟩,
  ⟨Reg.DIOn_STATUS 0, 8, 32, dioStatus⟩]

/-- A term is enabled and not disarmed under R337 or R342. -/
def termArmed (j : Nat) (s : State) : Bool := termOn (term j s) && rfxArmed (term j s) s

def viewRFX : List Derived := [
  reg1 Reg.RFX_OUT_LO (fun s => bitsW 32 (fun j => (term j s).out)),
  reg1 Reg.RFX_OUT_HI (fun s => bitsW 32 (fun j => (term (32 + j) s).out)),
  reg1 Reg.RFX_ARMED_LO (fun s => bitsW 32 (fun j => termArmed j s)),
  reg1 Reg.RFX_ARMED_HI (fun s => bitsW 32 (fun j => termArmed (32 + j) s))]

/-- The sense switch, the loop power or the current source is on (R355); a silent bank's current sources are off
(R370). -/
def anSense (n : Nat) (s : State) : Bool :=
  anEnabled n s && serving s && ((anMode n s == 1 || anMode n s == 2) || (anMode n s == 4 && !(anBank (n / 4) s).silent))

def anStatus (n : Nat) (s : State) : Word :=
  let x := anCh n s
  toW ((anInvalid n s).toNat * 2 ^ 31 + x.compliance.toNat * 2 ^ 30 + x.under.toNat * 2 ^ 29 + x.above.toNat * 2 ^ 28
    + x.alarm.toNat * 2 ^ 27 + (if (anBank (n / 4) s).isolated then 8 else x.fault.val) * 2 ^ 23 + (anSense n s).toNat * 2 ^ 22
    + x.code % 65536)

def viewANA : List Derived := [
  reg1 Reg.ANA_INVALID (fun s => bitsW 16 (fun n => anInvalid n s)),
  reg1 Reg.ANA_COMPLIANCE (fun s => bitsW 16 (fun n => (anCh n s).compliance)),
  reg1 Reg.ANA_BANK_STATUS (fun s => fieldsW 4 4 (fun k =>
    let b := anBank k s
    b.isolated.toNat + b.loopLow.toNat * 2 + b.silent.toNat * 4)),
  ⟨Reg.ANn_HEADROOM 0, 0x80, 16, fun n s => if anOutput n s then rd (Reg.ANn_HEADROOM n) s else 0⟩,
  ⟨Reg.ANn_HART_STATUS 0, 0x80, 16, fun n s => rd (Reg.ANn_HART_STATUS n) s ||| (if (anCh n s).compliance then bitMask 26 else 0)⟩,
  ⟨Reg.ANn_STATUS 0, 0x80, 16, anStatus⟩]

/-! ### SAF and TRIAD -/

def sqStatus (n : Nat) (s : State) : Word :=
  let x := sq n s
  toW (x.st.code * 2 ^ 28 + x.fault.val * 2 ^ 24 + x.hs.toNat * 2 ^ 23 + (lsOn n s).toNat * 2 ^ 22 + (sqPermit n s).toNat * 2 ^ 21
    + (bitAt Reg.SAF_SX_REQ_LO n s).toNat * 2 ^ 20 + x.test.isSome.toNat * 2 ^ 19
    + unitsOf (Reg.SQn_STATUS n) 1000000000 16 (nowNs s - min x.passHs x.passLs) s)

def siStatus (p : Nat) (s : State) : Word :=
  let x := siPair p s
  toW ((pairHealthy p s).toNat * 2 ^ 31 + (x.kind != 0).toNat * 2 ^ 30 + x.kind.val * 2 ^ 28 + x.a.toNat * 2 ^ 27 + x.b.toNat * 2 ^ 26)

def viewSAF : List Derived := [
  reg1 Reg.SAF_STATE (fun s =>
    withField (withField (rd Reg.SAF_STATE s) Fld.SAF_STATE_AUTHORITY s.saf.auth.toNat) Fld.SAF_STATE_CERTIFIED (safCertified s).toNat),
  reg1 Reg.SAF_BW_STATUS (fun s => toW (bits8 (fun n => lsOn n s) * 2 ^ 24 + s.saf.hbOk.toNat * 2 ^ 23 + s.sup.hardEbb.toNat * 2 ^ 22
    + (flag Fld.SAF_STATE_SPLIT_STRAP s).toNat * 2 ^ 21 + s.saf.bwAuth.toNat * 2 ^ 20 + s.saf.bwOk.toNat * 2 ^ 19)),
  reg1 Reg.SAF_BANK_STATUS (fun s => bitsW 8 (fun i =>
    if i < 4 then s.saf.bankLow.contains i else s.saf.bankLow.contains (i - 4) && (Config.reading s.cycle Reg.SAF_BANK_STATUS).getLsbD i)),
  ⟨Reg.SQn_STATUS 0, 16, 8, sqStatus⟩,
  ⟨Reg.SIp_STATUS 0, 8, 8, siStatus⟩]

def viewTRIAD : List Derived := [
  reg1 Reg.TRIAD_RESYNC (fun s => toW (fld Fld.TRIAD_RESYNC_LAST_US s * 2 ^ 16 + failCount 2 s * 2 ^ 8 + failCount 1 s * 2 ^ 4 + failCount 0 s)),
  reg1 Reg.TRIAD_SCRUB (fun s => Config.reading s.cycle Reg.TRIAD_SCRUB)]

/-! ### PAIR, NET and CAN -/

def pairWord (s : State) : Word :=
  let sw := match s.pair.switch with | .waiting _ => true | _ => false
  let w := withField (withField (rd Reg.PAIR_STATE s) Fld.PAIR_STATE_SIDE s.sup.sid.toNat)
    Fld.PAIR_STATE_PEER_PRESENT s.sup.peerPresent.toNat
  withField (withField (withField w Fld.PAIR_STATE_CAPABLE (pairCapable s).toNat) Fld.PAIR_STATE_SWITCH_PENDING sw.toNat)
    Fld.PAIR_STATE_YIELD_PENDING (yieldPending s).toNat

def viewPAIR : List Derived := [
  reg1 Reg.PAIR_STATE pairWord,
  reg1 Reg.PAIR_SYNC (fun s => if pairState s = 2 then Config.reading s.cycle Reg.PAIR_SYNC else 0),
  reg1 Reg.PAIR_DWELL (fun s => match s.pair.dwellAt with
    | some t => toW (unitsOf Reg.PAIR_DWELL 1000000000 12 (nowNs s - t) s)
    | none => 0)]

/-- The longest round trip over the last second. -/
def ringRtt (s : State) : Nat :=
  ((s.net.ring.rtts.filter (fun e => decide (nowNs s ≤ e.2 + 1000000000))).map (·.1)).foldl max 0

/-- STNs_STATUS: a station without an identity is not configured; one that has not been admitted is absent. DEDUCED: log entry 19. -/
def stnStatus (n : Nat) (s : State) : Word :=
  let f := Fld.STNs_STATUS_STATE n
  if rd (Reg.STNs_ID n) s = 0 then viewFld f 0 s else viewFld f (max 1 (fld f s)) s

/-- PTP_STATE; a standby side that the algorithm selects stays PASSIVE (R522). -/
def ptpStateWord (s : State) : Word :=
  let port := fun (n : Nat) => if n = 6 then 7 else n
  if serving s then rd Reg.PTP_STATE s
  else withField (withField (withField (rd Reg.PTP_STATE s) Fld.PTP_STATE_MASTER 0)
    Fld.PTP_STATE_PORT0 (port (fld Fld.PTP_STATE_PORT0 s))) Fld.PTP_STATE_PORT1 (port (fld Fld.PTP_STATE_PORT1 s))

def viewNET : List Derived := [
  reg1 Reg.PTP_STATE ptpStateWord,
  ⟨Reg.STNs_STATUS 0, 8, 64, stnStatus⟩,
  reg1 Reg.NET_MAINT_MAC_LO (fun _ => Config.maintMacLo),
  reg1 Reg.NET_MAINT_MAC_HI (fun _ => Config.maintMacHi &&& 0xFFFF),
  reg1 Reg.PTP_TIME_LO (fun s => (moduleNs s).setWidth 32),
  reg1 Reg.PTP_TIME_HI (fun s => toW ((moduleNs s).toNat / 2 ^ 32)),
  reg1 Reg.GSE_PUB_RUN (fun s => bitsW 16 (fun k => gseEn (gse k s) && (gse k s).live && serving s)),
  reg1 Reg.RING_RTT (fun s => toW (ringRtt s))]

/-- A bit per buffer of a channel. -/
def canBits (f : CanBuf → Bool) (hi : Bool) (c : Nat) (s : State) : Word :=
  bitsW 32 (fun j => f (canBuf c (32 * hi.toNat + j) s))

def canPendingB (x : CanBuf) : Bool := x.get canKind == 2 && x.has canPending

def viewCAN : List Derived := [
  ⟨Reg.CNc_STATUS 0, 0x40, 4, fun c s =>
    withField (withField (rd (Reg.CNc_STATUS c) s) (Fld.CNc_STATUS_STANDBY c) (onStandby s && bitAt Reg.CAN_CTRL c s).toNat)
      (Fld.CNc_STATUS_RESTRICTED c) (canRestricted c s).toNat⟩,
  ⟨Reg.CNc_PENDING_LO 0, 0x40, 4, canBits canPendingB false⟩,
  ⟨Reg.CNc_PENDING_HI 0, 0x40, 4, canBits canPendingB true⟩,
  ⟨Reg.CNc_FULL_LO 0, 0x40, 4, canBits (·.has canFull) false⟩,
  ⟨Reg.CNc_FULL_HI 0, 0x40, 4, canBits (·.has canFull) true⟩,
  ⟨Reg.CNc_CLASH_LO 0, 0x40, 4, canBits (·.clash) false⟩,
  ⟨Reg.CNc_CLASH_HI 0, 0x40, 4, canBits (·.clash) true⟩]

/-! ### STRAND and CLK -/

def StrPhase.code : StrPhase → Nat
  | .starting => 0
  | .run => 1
  | .frozen => 2
  | .thawing => 3

/-- The ring index and the SEQ of a record, zero where the ring holds none. DEDUCED: log entry 19. -/
def headWord (used : Bool) (q : Word) : Word := if used then toW (ringIndex q) else 0

/-- Records that the selected code could take now (R573): with no limit the field saturates. DEDUCED: log entry 19. -/
def rlAvail (s : State) : Nat :=
  let c := fld Fld.STR_RL_SEL_CODE s
  let w := rlCfg c s
  if rlRate w = 0 then 255
  else
    let tk := rlToken (rlRate w) s
    (nowNs s + rlBurst w * tk - max (nowNs s) (Sparse.get (fun _ => 0) s.strand.tat c)) / tk

def viewSTRAND : List Derived := [
  reg1 Reg.STR_STATE (fun s => toW (s.strand.phase.code * 2 ^ 28 + s.strand.recovered.toNat * 2 ^ 27)),
  reg1 Reg.STR_EVENT (fun s => s.strand.events),
  reg1 Reg.STR_HEAD (fun s => headWord s.strand.ringUsed s.strand.ringSeq),
  reg1 Reg.STR_SEQ (fun s => if s.strand.ringUsed then s.strand.ringSeq else 0),
  reg1 Reg.STR_FROZEN_HEAD (fun s => headWord s.strand.frozenUsed s.strand.frozenSeq),
  reg1 Reg.STR_FROZEN_SEQ (fun s => if s.strand.frozenUsed then s.strand.frozenSeq else 0),
  reg1 Reg.STR_COUNTS (fun s => toW (s.strand.lost * 2 ^ 16 + s.strand.suppressed)),
  reg1 Reg.STR_HOLD_USED (fun s => toW s.strand.hold.length),
  reg1 Reg.STR_RL_CFG (fun s => rlCfg (fld Fld.STR_RL_SEL_CODE s) s),
  reg1 Reg.STR_RL_STATE (fun s =>
    toW (Sparse.get (fun _ => 0) s.strand.suppr (fld Fld.STR_RL_SEL_CODE s) * 2 ^ 16 + rlAvail s * 2 ^ 8))]

def viewCLK : List Derived := [
  reg1 Reg.CLK_STATUS (fun s => toW (s.backup.osf.toNat * 2 ^ 31 + s.backup.trusted.toNat * 2 ^ 30 + s.backup.regsValid.toNat * 2 ^ 29
    + s.backup.onBackup.toNat * 2 ^ 28 + s.backup.cellLow.toNat * 2 ^ 27)),
  reg1 Reg.CLK_COUNT_LO (fun s => toW s.backup.count),
  reg1 Reg.CLK_COUNT_HI (fun s => toW (s.backup.count / 2 ^ 32)),
  reg1 Reg.CLK_TRIM (fun s => (BitVec.ofInt 16 s.backup.trim).zeroExtend 32),
  ⟨Reg.CLK_BREG 0, 4, 16, fun i s => Sparse.get (fun _ => 0) s.backup.breg i⟩]

/-! ### MPU, MBX and QUE -/

/-- The staged descriptor or paint entry that MPU_STG_SEL selects. -/
def stagedDesc (s : State) : Desc :=
  if flag Fld.MPU_STG_SEL_PAINT s then stagedPaint (fld Fld.MPU_STG_SEL_ENTRY s % 16) s
  else mpuDesc s.mpu.staged (fld Fld.MPU_STG_SEL_MASTER s) (fld Fld.MPU_STG_SEL_ENTRY s)

def viewMPU : List Derived := [
  reg1 Reg.MPU_STG_W0 (fun s => (stagedDesc s).w0),
  reg1 Reg.MPU_STG_W1 (fun s => (stagedDesc s).w1),
  reg1 Reg.MPU_STG_W2 (fun s => (stagedDesc s).w2),
  reg1 Reg.MPU_STG_MCFG (fun s => mpuCfg s.mpu.staged (fld Fld.MPU_STG_SEL_MASTER s)),
  reg1 Reg.MEM_SCRUB (fun s => Config.reading s.cycle Reg.MEM_SCRUB)]

/-- A lock's holder in four bits, 0xF free. -/
def lockOwner (i : Nat) (s : State) : Nat := ((lockHolder i s).map (·.master)).getD 15

/-- MBXm_STATUS as a master reads it (Table MBX-2); zero for one that is not bound (R620). -/
def mbxStatus (master m : Nat) (s : State) : Word :=
  match mbxEnd m master s with
  | none => 0
  | some e =>
    let x := mbx m s
    let rx := if e then x.to1 else x.to0
    let tx := if e then x.to0 else x.to1
    toW (e.toNat * 2 ^ 31 + (if e then x.coll1 else x.coll0).toNat * 2 ^ 30 + (if e then x.coll0 else x.coll1).toNat * 2 ^ 29
      + rx.length * 2 ^ 20 + tx.length * 2 ^ 16 + (if e then x.last1 else x.last0).toNat)

def viewMBX : List Derived := [
  reg1 Reg.MBX_LOCK_HELD_LO (fun s => bitsW 32 (fun j => (lockHolder j s).isSome)),
  reg1 Reg.MBX_LOCK_HELD_HI (fun s => bitsW 32 (fun j => (lockHolder (32 + j) s).isSome)),
  ⟨Reg.MBX_LOCK_OWNER 0, 4, 8, fun k s => fieldsW 8 4 (fun j => lockOwner (8 * k + j) s)⟩,
  ⟨Reg.MBXm_DBL 0, 0x20, 24, fun m s => if (mbxEnd m 8 s).isSome then (mbx m s).bell else 0⟩,
  ⟨Reg.MBXm_STATUS 0, 0x20, 24, mbxStatus 8⟩]

def viewQUE : List Derived := [
  ⟨Reg.QUEq_STATUS 0, 0x20, 64, fun q s => toW ((queEnabled q s).toNat * 2 ^ 31 + (queModule q).toNat * 2 ^ 30
    + fld (Fld.QUEq_STATUS_LAST_ERR q) s * 2 ^ 29 + (if queEnabled q s then queFill q s else 0))⟩]

/-! ### LCY, FWU and MOD -/

def lcyWord (s : State) : Word :=
  toW (s.lcy.st.val * 2 ^ 28 + s.lcy.key0.isSome.toNat * 2 ^ 27 + s.lcy.key1.isSome.toNat * 2 ^ 26
    + (s.lcy.revoked.getLsbD 0).toNat * 2 ^ 25 + (s.lcy.revoked.getLsbD 1).toNat * 2 ^ 24 + s.lcy.marker.isSome.toNat * 2 ^ 23)

def viewLCY : List Derived := [
  reg1 Reg.LCY_STATE lcyWord,
  reg1 Reg.LCY_DBG_STATUS (fun s => viewFld Fld.LCY_DBG_STATUS_REMAIN
    (if flag Fld.LCY_DBG_STATUS_OPEN s then unitsOf Reg.LCY_DBG_STATUS 1000000000 12 (s.lcy.sessionEnd - nowNs s) s else 0) s),
  reg1 Reg.LCY_ERASE (fun s => if s.lcy.marker.isSome then toW ((Config.reading s.cycle Reg.LCY_ERASE).toNat % 101) else 0)]

/-- FORMAT of a copy of the configuration store; 0 for a copy that is not there. -/
def copyFormat (c : Option CfgCopy) : Nat := (c.map (fun x => x.format.toNat)).getD 0

def fwuWord (s : State) : Word :=
  let old := s.fwu.prev.isSome && copyFormat s.fwu.prev != copyFormat s.fwu.cur
  toW (s.fwu.runB.toNat * 2 ^ 31 + (slotValid (otherSlot s) s).toNat * 2 ^ 30 + s.fwu.trial.toNat * 2 ^ 29
    + s.fwu.healthOk.toNat * 2 ^ 28 + old.toNat * 2 ^ 27 + s.fwu.programming.toNat * 2 ^ 26)

def viewFWU : List Derived := [
  reg1 Reg.FWU_STATE fwuWord,
  reg1 Reg.FWU_TRIAL_LEFT (fun s =>
    if s.fwu.trial then toW (unitsOf Reg.FWU_TRIAL_LEFT 1000000000 32 (s.fwu.trialEnd - nowNs s) s) else 0),
  reg1 Reg.FWU_VER_RUN (fun s => toW (hdrVersion s.fwu.runB s)),
  reg1 Reg.FWU_VER_OTHER (fun s => if slotValid (otherSlot s) s then toW (hdrVersion (otherSlot s) s) else 0),
  reg1 Reg.FWU_CFG_FORMAT (fun s => toW (copyFormat s.fwu.prev * 2 ^ 16 + copyFormat s.fwu.cur))]

def viewMOD : List Derived := [
  reg1 Reg.MOD_STATUS (fun s => withField (withField (withField (rd Reg.MOD_STATUS s) ⟨Reg.MOD_STATUS, 30, 2⟩ s.sup.sid.toNat)
    ⟨Reg.MOD_STATUS, 29, 1⟩ s.sup.seated.toNat) ⟨Reg.MOD_STATUS, 28, 1⟩ s.sup.leverClosed.toNat),
  reg1 Reg.MOD_RESET_CAUSE (fun s => toW (s.sup.cause.val * 2 ^ 28 + s.sup.starts % 65536)),
  reg1 Reg.MOD_FEED (fun s => Config.reading s.cycle Reg.MOD_FEED),
  reg1 Reg.MOD_TEMP (fun s => (Config.reading s.cycle Reg.MOD_TEMP) &&& 0xFFFF)]

/-! ### A read -/

/-- The computed registers of the block that holds offset `a` (Table ARCH-9). -/
def blockDerived (a : Nat) : List Derived :=
  match a / 65536 with
  | 0x00 => viewMOD
  | 0x02 => viewTIDE
  | 0x03 => viewEXE
  | 0x04 => viewLOOP
  | 0x05 => viewDIO
  | 0x06 => viewANA
  | 0x07 => viewRFX
  | 0x08 => viewSAF
  | 0x09 => viewPAIR
  | 0x0A => viewTRIAD
  | 0x0B => viewNET
  | 0x0C => viewCAN
  | 0x0D => viewSTRAND
  | 0x0E => viewCLK
  | 0x0F => viewMPU
  | 0x10 => viewMBX
  | 0x11 => viewLCY
  | 0x12 => viewFWU
  | 0x13 => viewQUE
  | _ => []

/-- The CAN message buffers within the CAN block (Table CAN-1): channel, buffer and word of an offset. -/
def canPlace (a : Nat) : Option (Nat × Nat × Nat) :=
  if inRange a 0x0C1000 0x0C8FFF && a % 4 == 0 then
    some ((a - 0x0C1000) / 0x2000, (a - 0x0C1000) / 0x80 % 64, a / 4 % 32)
  else none

/-- What the register at window offset `a` holds for a reader (R3, R8, R52, R681). -/
def State.view (a : Nat) (s : State) : Word :=
  if !(flag Fld.MOD_STATUS_START_DONE s || decide (a < 0x20000) || (s.fwu.noFw && inRange a 0x120000 0x13FFFF)) then regReset a
  else match canPlace a with
    | some (c, b, w) => (canBuf c b s).word w
    | none => match (blockDerived a).find? (fun d => d.has a) with
      | some d => d.val ((a - d.addr) / max 1 d.stride) s
      | none => rd a s

end Sys2Proof.Machine
end

