-- ==== Sys2Proof/Machine/Access.lean ====
section
/-! DEFINITION. Reads and writes of registers and of memory bytes by whoever addresses them: access codes, locks and ranges
of register fields (R3 to R10), and the content behind each internal address (R600 to R605). -/
namespace Sys2Proof.Machine

/-! ### Register writes -/

/-- The interrupt vector of the block at a window offset (Table ARCH-9, Table ARCH-10, R608). -/
def vectorOf (a : Nat) : Nat :=
  if a = Reg.CAN_HP_EVENT || a = Reg.CAN_HP_IRQ_EN then 0x15
  else ([0x01, 0x02, 0x04, 0x03, 0x05, 0x06, 0x07, 0x08, 0x09, 0x0A, 0x0B, 0x0C, 0x0D, 0x0E, 0x0F, 0x10, 0x11, 0x12, 0x13,
    0x14][a / 65536]?).getD 0x1F

/-- Registers whose writes are commands of their own. -/
def ownRow (a : Nat) : Bool :=
  [Reg.TIDE_CTRL, Reg.TIDE_LOCK, Reg.TT_PARTITION, Reg.TT_CLAIM, Reg.EXE_CTRL, Reg.EXE_EVT_SIGNAL, Reg.LOOP_CTRL, Reg.ANA_ENABLE,
    Reg.ANA_LOCK, Reg.NET_CTRL, Reg.RING_CTRL, Reg.CAN_CTRL, Reg.STR_RL_CFG, Reg.CLK_STATUS, Reg.MPU_CTRL, Reg.MBX_CTRL,
    Reg.QUE_EN_LO, Reg.QUE_EN_HI, Reg.LCY_DBG_TOKEN].contains a
  || inRange a (Reg.CLK_BREG 0) (Reg.CLK_BREG 15) || inRange a 0x100100 0x100FFF
  || (inRange a 0x022100 0x0224FF && a % 32 == 12)
  || (inRange a 0x130100 0x1308FF && (a % 32 == 12 || a % 32 == 16))

/-- The lock of the RWL field at `a` is open (R6 and the chapter that owns the block). -/
def lockOpen (a : Nat) (s : State) : Bool :=
  if inRange a 0x020100 0x0202FF then bitAt Reg.TIDE_LOCK ((a - 0x020100) / 0x40) s
  else if a = Reg.EXE_CFG then s.lcy.st != 3 && s.exe.phase != .verified && s.exe.phase != .armed
  else if inRange a 0x040000 0x04FFFF then !flag Fld.LOOP_CTRL_RUN s
  else if inRange a 0x050100 0x0501FF then !flag (Fld.DIO_BANKk_CFG_EN ((a - 0x050100) / 64)) s
  else if inRange a 0x060100 0x0608FF then bitAt Reg.ANA_LOCK ((a - 0x060100) / 0x80) s
  else if inRange a 0x061000 0x061FFF then bitAt Reg.ANA_LOCK ((a - 0x061000) / 0x100) s
  else if inRange a 0x0C0100 0x0C01FF then !bitAt Reg.CAN_CTRL ((a - 0x0C0100) / 0x40) s
  else if inRange a 0x0F0000 0x0FFFFF then !flag Fld.MPU_CTRL_LOCKED s
  else if inRange a 0x130100 0x1308FF then
    !queModule ((a - 0x130100) / 32) && !queEnabled ((a - 0x130100) / 32) s
  else false

/-- A field held inside its range. -/
def clampFld (f : RegField) (lo hi : Nat) (w : Word) : Word := withField w f (max lo (min hi (fieldOf w f)))

/-- Values that the field tables clamp. DEDUCED: log entry 19. -/
def clampReg (a : Nat) (w : Word) : Word :=
  if a = Reg.PAIR_CFG then w |> clampFld Fld.PAIR_CFG_RECLAIM_DWELL 1 3600 |> clampFld Fld.PAIR_CFG_LAG_PCT 5 50
    |> clampFld Fld.PAIR_CFG_HB_PERIOD 100 500
  else if a = Reg.PTP_JUMP then toW (max 1000 (min 1000000000 w.toNat))
  else if a = Reg.RING_CFG then clampFld Fld.RING_CFG_LEAD_US 10 1000 w
  else if a = Reg.STR_FREEZE_CFG then clampFld Fld.STR_FREEZE_CFG_FREEZE_MAX 1 600 w
  else if a = Reg.LCY_DBG_CFG then clampFld Fld.LCY_DBG_CFG_WINDOW 10 3600 w
  else if a = Reg.FWU_CFG then clampFld Fld.FWU_CFG_TRIAL_WIN 60 86400 w
  else w

/-- A write by access code (R3, R4, R6, R7): bits of `hw` are set by hardware in the same clock. -/
def writeByCode (r : RegRow) (a : Nat) (v hw : Word) (s : State) : State :=
  let m := r.rw ||| (if lockOpen a s then r.rwl else 0)
  let w := clampReg a ((rd a s &&& ~~~ m) ||| (v &&& m))
  wr a (w &&& ~~~ (v &&& r.w1c &&& ~~~ hw)) s

/-- A write of a staged descriptor or paint word (R616, Table MPU-1, Table MPU-6). -/
def writeStaged (f : Desc → Desc) (s : State) : State :=
  let m := fld Fld.MPU_STG_SEL_MASTER s
  let e := fld Fld.MPU_STG_SEL_ENTRY s
  if flag Fld.MPU_STG_SEL_PAINT s then stagePaint (e % 16) (f (stagedDesc s)) s
  else if m < 10 then stageDesc m e (f (stagedDesc s)) s
  else s

/-- The bits of a staged W2 that mean something. -/
def w2Mask (s : State) : Word := if flag Fld.MPU_STG_SEL_PAINT s then 0x8000000F else 0xF8000000

/-- TRIM of a written word, clamped (R584). -/
def trimOf (v : Word) : Int := max (-16383) (min 16383 (v.setWidth 16).toInt)

/-- A write that passed its check, of a register that has no command of its own. -/
def writeReg (a : Nat) (v hw : Word) (s : State) : State :=
  match regRow a with
  | none => s
  | some r =>
    if ownRow a || inRange a 0x080000 0x08FFFF then s
    else if a = Reg.SUP_PWR_CMD then
      if 5 ≤ v.toNat % 16 then s |> raiseF 0x02 Fld.SUP_EVENT_REFUSED |> say Code.SUP_CMD_REFUSED else s
    else if a = Reg.STR_EVENT then
      { s with strand := { s.strand with events := s.strand.events &&& ~~~ (v &&& r.w1c &&& ~~~ hw) } }
    else if a = Reg.CLK_TRIM then { s with backup := { s.backup with trim := trimOf v } }
    else if a = Reg.MPU_STG_W0 then onlyIf (lockOpen a s) (writeStaged (fun d => { d with w0 := v &&& 0x3FFFFFFF })) s
    else if a = Reg.MPU_STG_W1 then onlyIf (lockOpen a s) (writeStaged (fun d => { d with w1 := v &&& 0x3FFFFFFF })) s
    else if a = Reg.MPU_STG_W2 then onlyIf (lockOpen a s) (writeStaged (fun d => { d with w2 := v &&& w2Mask s })) s
    else if a = Reg.MPU_STG_MCFG then
      onlyIf (lockOpen a s && decide (fld Fld.MPU_STG_SEL_MASTER s < 10))
        (stageCfg (fld Fld.MPU_STG_SEL_MASTER s) (v &&& 0xFFFF000F)) s
    else if inRange a 0x040200 0x0403FF then
      onlyIf (!flag (Fld.TRBb_STATUS_RUN ((a - 0x040200) / 16)) s) (writeByCode r a v hw) s
    else if inRange a 0x050040 0x05007F then
      let k := (a - 0x050040) / 16
      let v' := withField v (Fld.DIO_BANKk_CFG_EN k) (fld (Fld.DIO_BANKk_CFG_EN k) s)
      let t := writeByCode r a v' hw s
      let g := fld (Fld.DIO_BANKk_CFG_REEN_TAG k) t
      onDioBank k (fun b => { b with reenPrev := boolMemTag g t && tagTrue g t }) t
    else withIrq (vectorOf a) (writeByCode r a v hw) s

/-! ### Register reads -/

/-- Low words of 64-bit values: the high word follows (R10). DEDUCED: log entry 19. -/
def lowWords : List (Nat × Nat × Nat) := [
  (Reg.TDn_ANGLE 0, 0x40, 8), (Reg.TDn_FREQ_LO 0, 0x40, 8), (Reg.EXE_FORCE_VAL_LO, 4, 1), (Reg.ANn_STAMP_LO 0, 0x80, 16),
  (Reg.SAF_SX_REQ_LO, 4, 1), (Reg.SAF_SX_RSP_LO, 4, 1), (Reg.NET_SVC_MAC_LO, 4, 1), (Reg.NET_MAINT_MAC_LO, 4, 1),
  (Reg.PTP_GM_LO, 4, 1), (Reg.PTP_TIME_LO, 4, 1), (Reg.STR_HOST_DATUM_LO, 4, 1), (Reg.CLK_COUNT_LO, 4, 1), (Reg.CLK_SET_LO, 4, 1),
  (Reg.CLK_CAL_LO, 4, 1), (Reg.MPU_DENY_LO, 4, 1), (Reg.MEM_ECC_ADDR_LO, 4, 1), (Reg.LCY_UID_LO, 4, 1), (Reg.LCY_NONCE_LO, 4, 1),
  (Reg.LCY_DBG_DENY_LO, 4, 1), (Reg.QUEq_BASE_LO 0, 0x20, 64)]

def isLow (a : Nat) : Bool :=
  lowWords.any (fun e => decide (e.1 ≤ a) && (a - e.1) % e.2.1 == 0 && decide ((a - e.1) / e.2.1 < e.2.2))

/-- A read of a word that may be half of a 64-bit value: the low word captures the high word, which the next read of the
high word returns (R10). -/
def pairRead (a : Nat) (low high : Bool) (v : Nat → Word) (s : State) : Word × State :=
  if low then (v a, { s with captured := Sparse.insert s.captured (a + 4) (v (a + 4)) })
  else if high then ((Sparse.find s.captured a).getD (v a), { s with captured := Sparse.erase s.captured a })
  else (v a, s)

/-- Clear the RC bits of a register; counts of events in the same clock are kept for the next read (R5). -/
def clearRc (a : Nat) (events : Word) (s : State) : State :=
  if a = Reg.STR_COUNTS then
    { s with strand := { s.strand with lost := events.toNat / 65536, suppressed := events.toNat % 65536 } }
  else match regRow a with
    | none => s
    | some r => withIrq (vectorOf a) (wr a ((rd a s &&& ~~~ r.rc) ||| (events &&& r.rc))) s

/-- A read of a register with its side effects: RC bits clear, a low word captures its high word. -/
def readReg (a : Nat) (s : State) : Word × State :=
  let r := pairRead a (isLow a) (decide (4 ≤ a) && isLow (a - 4)) (fun b => s.view b) s
  (r.1, clearRc a 0 r.2)

/-! ### Memory bytes -/

/-- Byte `i` of a number. -/
def byteOf (v i : Nat) : Byte := BitVec.ofNat 8 (v / 2 ^ (8 * i))

/-- A 64-bit value with one byte replaced. -/
def putByte (v : DWord) (i : Nat) (b : Byte) : DWord := wordReplace v i 1 b.toNat

/-- W0 of a directory entry (Table EXE-3). -/
def dirW0 (d : TagDef) : Nat :=
  d.typ * 2 ^ 28 + d.locKind * 2 ^ 26 + d.output.toNat * 2 ^ 25 + d.colour * 2 ^ 20 + d.writerKind * 2 ^ 16 + d.writerIndex

/-- W2 of a tag's directory entry: FORCED, INVALID, STALE and FORCE_INDEX. -/
def dirW2 (g : Nat) (s : State) : Nat :=
  let x := tagLive g s
  let f := s.exe.forces.find? (fun e => e.2.1 == g)
  f.isSome.toNat * 2 ^ 31 + x.invalid.toNat * 2 ^ 30 + x.stale.toNat * 2 ^ 29 + (f.map (·.1)).getD 0

/-- The directory entry of a tag in the running image. -/
def dirEntry (g : Nat) (s : State) : Option TagDef := s.exe.image.bind (fun i => Sparse.find i.tags g)

/-- Byte `off` of the tag directory (R187). -/
def dirByte (off : Nat) (s : State) : Byte :=
  match dirEntry (off / 16) s with
  | none => 0
  | some d => match off / 4 % 4 with
    | 0 => byteOf (dirW0 d) (off % 4)
    | 1 => byteOf d.location.toNat (off % 4)
    | 2 => byteOf (dirW2 (off / 16) s) (off % 4)
    | _ => 0

/-- A word of the process-image partition (Table MEM-3); none where the spec lays out nothing. -/
def imageWord (i : Nat) (s : State) : Option DWord :=
  let off := 8 * i
  if off < 0x80000 then some (tagMemGet i s)
  else if inRange off 0xC0000 0xC7FFF then s.exe.image.map (fun m => (Sparse.find m.consts (i - 0x18000)).getD 0)
  else if inRange off 0x100000 0xCFFFFF then
    (imgWords (decide (0x40000 ≤ off % 0x80000)) ((off - 0x100000) / 0x80000) s)[off % 0x40000 / 8]?
  else if 0xD00000 ≤ off then some 0
  else none

/-- The byte at an internal address: of code it is opaque in the image, and where the spec lays out no content it is free
(log entry 3). DESIGN CHOICE: log entry 44. -/
def memByte (a : Nat) (s : State) : Byte :=
  if a ≤ 0x01FFFFFF then
    mget a s ^^^ (match (if a / 0x01000000 = s.exe.area.toNat then s.exe.image else s.exe.inactive.or s.exe.previous) with
      | some m => Config.codeByte m.crc (a % 0x01000000)
      | none => 0)
  else if inRange a 0x0A000000 0x0AFFFFFF then
    match imageWord ((a - 0x0A000000) / 8) s with
    | some w => byteOf w.toNat (a % 8)
    | none => Config.hiddenByte s.freeCtr a
  else if inRange a 0x0B000000 0x0BFFFFFF || inRange a 0x18000000 0x1BFFFFFF || inRange a 0x320000000 0x327FFFFFF then
    Config.hiddenByte s.freeCtr a
  else if inRange a 0x200400000 0x2004FFFFF then dirByte (a - 0x200400000) s
  else if 0x348000000 ≤ a then 0
  else mget a s

/-- The bytes of a range. -/
def memBytes (a n : Nat) (s : State) : List Byte :=
  match n with
  | 0 => []
  | k + 1 => memByte a s :: memBytes (a + 1) k s

/-- The directory entry that W0 and W1 give. -/
def dirOf (w0 w1 : Nat) (init : DWord) : TagDef :=
  { typ := w0 / 2 ^ 28 % 16, locKind := w0 / 2 ^ 26 % 4, output := w0.testBit 25, colour := w0 / 2 ^ 20 % 16
    writerKind := w0 / 2 ^ 16 % 16, writerIndex := w0 % 65536, location := toW w1, init := init }

/-- Write a byte of a directory entry; only the module sets FORCED, STALE and INVALID (R187). -/
def dirPut (off : Nat) (b : Byte) (s : State) : State :=
  match s.exe.image with
  | none => s
  | some m =>
    let d := (Sparse.find m.tags (off / 16)).getD (dirOf 0 0 0)
    let put := fun v => (wordReplace (toD v) (off % 4) 1 b.toNat).toNat
    let e := match off / 4 % 4 with
      | 0 => dirOf (put (dirW0 d)) d.location.toNat d.init
      | 1 => dirOf (dirW0 d) (put d.location.toNat) d.init
      | _ => d
    { s with exe := { s.exe with image := some { m with tags := Sparse.insert m.tags (off / 16) e } } }

/-- Write a byte of the process-image partition: tag memory, the constants, the values of a task's images. -/
def imagePut (off : Nat) (b : Byte) (s : State) : State :=
  let i := off / 8
  if off < 0x80000 then tagMemSet i (putByte (tagMemGet i s) (off % 8) b) s
  else if inRange off 0xC0000 0xC7FFF then
    { s with exe := { s.exe with image := s.exe.image.map (fun m => { m with
      consts := Sparse.insert m.consts (i - 0x18000) (putByte ((Sparse.find m.consts (i - 0x18000)).getD 0) (off % 8) b) }) } }
  else if inRange off 0x100000 0xCFFFFF then
    let t := (off - 0x100000) / 0x80000
    let k := off % 0x40000 / 8
    match taskDef t s with
    | none => s
    | some d =>
      if k = 0 then s
      else if off % 0x80000 < 0x40000 then match (tagOrder d.inputs)[k - 1]? with
        | none => s
        | some g => onTask t (fun x =>
            let y := (Sparse.find x.input g).getD {}
            { x with input := Sparse.insert x.input g { y with val := putByte y.val (off % 8) b } }) s
      else match (outImage t s)[k - 1]? with
        | none => s
        | some e => onTask t (fun x => { x with output := Sparse.insert x.output e.1 (putByte e.2 (off % 8) b) }) s
  else s

/-- Write a byte at an internal address. DESIGN CHOICE: log entry 44. -/
def memPut (a : Nat) (b : Byte) (s : State) : State :=
  if a ≤ 0x01FFFFFF then mset a (b ^^^ (memByte a s ^^^ mget a s)) s
  else if inRange a 0x0A000000 0x0AFFFFFF then imagePut (a - 0x0A000000) b s
  else if inRange a 0x200400000 0x2004FFFFF then dirPut (a - 0x200400000) b s
  else mset a b s

/-- Write bytes from an internal address on. -/
def memPuts (a : Nat) (l : List Byte) (s : State) : State :=
  match l with
  | [] => s
  | b :: t => memPuts (a + 1) t (memPut a b s)

/-- The parts of an access at boundaries of `g` bytes, 64 for the check of R612: address and length; at most `k` of them. -/
def accParts (g : Nat) : Nat → Nat → Nat → List (Nat × Nat)
  | 0, _, _ => []
  | k + 1, a, n =>
    if n = 0 then []
    else (a, min n (g - a % g)) :: accParts g k (a + min n (g - a % g)) (n - min n (g - a % g))

end Sys2Proof.Machine
end

