-- ==== Sys2Proof/Machine/Host.lean ====
section
/-! DEFINITION. Accesses of the host: registers under their access codes, captured words, counters that a read clears, and
the memory behind BAR2 and the windows of BAR0 (R3 to R10, R52 to R54, R190, R606, R607). -/
namespace Sys2Proof.Machine

/-! ### Registers -/

/-- A host read at a window offset: nothing answers in OFF and in reset; before the end of start-up a register shows its
reset value; a denied read returns zero (R54, R671, R681). DEDUCED: log entry 19. -/
def hostRead (a : Nat) (f : State → State) (s : State) : State :=
  if power s = 0 || s.sup.inReset then s
  else if !hostAnswers a s then { s with hostData := s.view a }
  else match hostCause a .read s with
    | none => f s
    | some c => mpuDeny s.accMaster (0x400000000 + a) .read (masterColour s.accMaster s) c { s with hostData := 0 }

/-- R3 to R9, R53: a host write of a register with no command of its own. -/
def execRegisterWrite (addr : BitVec 26) (be : BitVec 4) (value hwSet : Word) (s : State) :
    Host.Outcome State Fault Refusal :=
  let a := addr.toNat
  .next (if be != 0xF || a % 4 != 0 || decide (0x01000000 ≤ a) || inRange a 0x080000 0x08FFFF then s
    else hostCmd a (writeReg a value hwSet) s)

/-- The half of a tag's value at an offset of the tag values (Table EXE-5). -/
def tagWord (off : Nat) (s : State) : Word :=
  let v := (tagLive (off / 8) s).val.toNat
  if off % 8 = 0 then toW v else toW (v / 2 ^ 32)

/-- The offset lies among the tag values. -/
def inTagValues (a : Nat) : Bool := inRange a 0x02100000 0x0217FFFF

/-- The colour check of a read of a tag value (R190). -/
def tagReadCause (m off : Nat) (s : State) : Option Nat := (tagDef (off / 8) s).bind (fun d => tagColourCause m d .read s)

/-- A word read of a tag value, with the capture of R10. -/
def tagRead (off : Nat) (s : State) : Word × State :=
  pairRead (0x02100000 + off) (off % 8 == 0) (off % 8 == 4) (fun b => tagWord (b - 0x02100000) s) s

/-- R10: a host read of either word of a 64-bit value. -/
def execLowWordRead (addr : BitVec 26) (s : State) : Host.Outcome State Fault Refusal :=
  let a := addr.toNat
  .next (if isLow a || (decide (4 ≤ a) && isLow (a - 4)) then
      hostRead a (fun s => let r := readReg a s; { r.2 with hostData := r.1 }) s
    else if inTagValues a && a % 4 == 0 then
      hostRead a (fun s => match tagReadCause 8 (a - 0x02100000) s with
        | some c => mpuDeny 8 (0x400000000 + a) .read (masterColour 8 s) c { s with hostData := 0 }
        | none => let r := tagRead (a - 0x02100000) s; { r.2 with hostData := r.1 }) s
    else s)

/-- The register clears on a read and has no row of its own. -/
def isCounter (a : Nat) : Bool := (regRow a).any (fun r => r.rc != 0) && !inRange a 0x100100 0x100FFF

/-- R5: a host read of a register with RC fields; `events` count in the same clock. -/
def execCounterRead (addr : BitVec 26) (events : Word) (s : State) : Host.Outcome State Fault Refusal :=
  let a := addr.toNat
  .next (if isCounter a then
      hostRead a (fun s => clearRc a events { s with hostData := s.view a }) s
    else s)

/-! ### What an internal address reaches -/

/-- What lies behind an address of Table MEM-1: bytes of a target; within the control window registers, tag values and the
values-only list; or nothing. -/
inductive Behind where
  | mem (a : Nat) | dir (a : Nat) | regs (off : Nat) | tags (off : Nat) | list (off : Nat) | nothing
  deriving DecidableEq, Repr

/-- Table ARCH-9, Table EXE-5, R148, R299, R607. -/
def behind (a : Nat) : Behind :=
  let w := a - 0x400000000
  if a < 0x400000000 then .mem a
  else if w < 0x01000000 then .regs w
  else if inRange w 0x01000000 0x01FFFFFF then .mem (0x0A000000 + (w - 0x01000000))
  else if inRange w 0x02000000 0x020FFFFF then .dir (0x200400000 + (w - 0x02000000))
  else if inTagValues w then .tags (w - 0x02100000)
  else if inRange w 0x02800000 0x0280FFFF then .list (w - 0x02800000)
  else if inRange w 0x03000000 0x037FFFFF then .mem (0x201000000 + (w - 0x03000000))
  else if inRange w 0x03800000 0x039FFFFF then .mem (0x201800000 + (w - 0x03800000))
  else .nothing

/-- The check of a part: at its own address and at the target that a window reaches (R612). DEDUCED: log entry 45. -/
def partCause (m a : Nat) (k : Acc) (s : State) : Option (Nat × Nat) :=
  match mpuCheck m a k (masterColour m s) s with
  | some c => some (a, c)
  | none => match behind a with
    | .mem t | .dir t =>
      if t = a then none else (mpuCheck m t k (masterColour m s) s).map (fun c => (t, c))
    | _ => none

/-- A byte of the values-only list (Table EXE-7). -/
def listByte (off : Nat) (s : State) : Byte := byteOf (Sparse.get (fun _ => 0) s.exe.list (off / 4)).toNat (off % 4)

/-- Write bytes of the values-only list. -/
def listPuts (off : Nat) (l : List Byte) (s : State) : State :=
  match l with
  | [] => s
  | b :: t =>
    let w := Sparse.get (fun _ => 0) s.exe.list (off / 4)
    let w' := toW (wordReplace (toD w.toNat) (off % 4) 1 b.toNat).toNat
    listPuts (off + 1) t { s with exe := { s.exe with list := Sparse.set (fun _ => 0) s.exe.list (off / 4) w' } }

/-- A 64-bit value with bytes replaced from byte `i` on. -/
def putBytes (v : DWord) (i : Nat) : List Byte → DWord
  | [] => v
  | b :: t => putBytes (putByte v i b) (i + 1) t

/-! ### Reads -/

/-- Read the tag values of one part, a tag at a time (R190): bytes and the first denial. -/
def tagsRead (m : Nat) (parts : List (Nat × Nat)) (s : State) : (List Byte × Option (Nat × Nat)) × State :=
  match parts with
  | [] => (([], none), s)
  | (off, n) :: rest =>
    let one := match tagReadCause m off s with
      | some c => ((List.replicate n 0, some (0x402100000 + off, c)), s)
      | none =>
        if n = 4 && off % 4 = 0 then let r := tagRead off s; ((leBytes 4 r.1.toNat, none), r.2)
        else (((leBytes 8 (tagLive (off / 8) s).val.toNat).drop (off % 8) |>.take n, none), s)
    let more := tagsRead m rest one.2
    ((one.1.1 ++ more.1.1, one.1.2.or more.1.2), more.2)

/-- Read one part that passed its check; registers are not read here. -/
def partRead (m a n : Nat) (s : State) : (List Byte × Option (Nat × Nat)) × State :=
  match behind a with
  | .mem t | .dir t => ((memBytes t n s, none), s)
  | .tags off => tagsRead m (accParts 8 9 off n) s
  | .list off => (((List.range n).map (fun i => listByte (off + i) s), none), s)
  | .regs _ | .nothing => ((List.replicate n 0, none), s)

/-- Read the parts of an access: a denied part returns zeros (R613). -/
def partsRead (m : Nat) (parts : List (Nat × Nat)) (s : State) : (List Byte × Option (Nat × Nat)) × State :=
  match parts with
  | [] => (([], none), s)
  | (a, n) :: rest =>
    let one := match partCause m a .read s with
      | some d => ((List.replicate n 0, some d), s)
      | none => partRead m a n s
    let more := partsRead m rest one.2
    ((one.1.1 ++ more.1.1, one.1.2.or more.1.2), more.2)

/-! ### Writes -/

/-- Write the tag values of one part, a tag at a time (R190): the first denial. -/
def tagsWrite (m : Nat) (parts : List (Nat × Nat)) (l : List Byte) (s : State) : Option (Nat × Nat) × State :=
  match parts with
  | [] => (none, s)
  | (off, n) :: rest =>
    let g := off / 8
    let one := match tagDef g s with
      | none => (none, tagDenied s)
      | some d =>
        if d.writerKind != 4 || onStandby s then (none, tagDenied s)
        else match tagColourCause m d .write s with
          | some c => (some (0x402100000 + off, c), s)
          | none =>
            let v := narrowTag d.typ (putBytes (tagLive g s).val (off % 8) (l.take n))
            (none, s |> tagStore g v |> cwMirror 12 [toD 1, toD g, v])
    let more := tagsWrite m rest (l.drop n) one.2
    (one.1.or more.1, more.2)

/-- Write one part that passed its check; registers are not written here, and the directory is read only through its
window (Table EXE-5). -/
def partWrite (m a : Nat) (l : List Byte) (s : State) : Option (Nat × Nat) × State :=
  match behind a with
  | .mem t => (none, memPuts t l s)
  | .tags off => tagsWrite m (accParts 8 9 off l.length) l s
  | .list off => (none, listPuts off l s)
  | .dir _ | .regs _ | .nothing => (none, s)

/-- Write the parts of an access: a denied part is dropped (R613). -/
def partsWrite (m : Nat) (parts : List (Nat × Nat)) (l : List Byte) (s : State) : Option (Nat × Nat) × State :=
  match parts with
  | [] => (none, s)
  | (a, n) :: rest =>
    let one := match partCause m a .write s with
      | some d => (some d, s)
      | none => partWrite m a (l.take n) s
    let more := partsWrite m rest (l.drop n) one.2
    (one.1.or more.1, more.2)

/-- One record for an access with a denied part (R613). DEDUCED: log entry 45. -/
def denyFirst (m : Nat) (k : Acc) (d : Option (Nat × Nat)) (s : State) : State :=
  match d with
  | none => s
  | some (a, c) => mpuDeny m a k (masterColour m s) c s

/-! ### The host's access to memory -/

/-- Bytes from `a` on of which the codeword of byte `i` could not be corrected: in the host region they read as ones
(Table MEM-5). -/
def onesAt (a : Nat) (i : Nat) (l : List Byte) : List Byte :=
  l.zipIdx.map (fun e => if (a + e.2) / 16 = (a + i) / 16 then 0xFF else e.1)

/-- A read that meets an uncorrectable symbol of the host region (R619). -/
def hostEcc (a : Nat) (uncorr : Option (Fin 256)) (n : Nat) (s : State) : State :=
  match uncorr with
  | none => s
  | some i =>
    if decide (i.val < n) && inRange (a + i) 0x20000000 dramEnd && (partCause 8 (a + i) .read s).isNone then
      say Code.MEM_ECC_UNCORR (dramEccRecord (a + i) { s with hostBytes := onesAt a i s.hostBytes })
    else s

/-- An answered access of the host at an internal address. -/
def hostMem (a n : Nat) (write : Bool) (data : List Byte) (uncorr : Option (Fin 256)) (s : State) : State :=
  if write then
    let l := (data ++ List.replicate n 0).take n
    let r := partsWrite 8 (accParts 64 5 a n) l s
    denyFirst 8 .write r.1 r.2
  else
    let r := partsRead 8 (accParts 64 5 a n) s
    let t := { r.2 with hostBytes := r.1.1, freeCtr := r.2.freeCtr + 1 }
    denyFirst 8 .read r.1.2 (hostEcc a uncorr n t)

/-- R606: a host access to BAR2 or to a window of BAR0. -/
def execHostMemoryAccess (bar2 : Bool) (off : BitVec 33) (len : Fin 257) (write : Bool) (data : List Byte)
    (uncorr : Option (Fin 256)) (s : State) : Host.Outcome State Fault Refusal :=
  let o := off.toNat
  let n := len.val
  let a := if bar2 then o else 0x400000000 + o
  .next (if (if bar2 then decide (0x200000000 < o + n) else decide (o < 0x01000000) || decide (0x04000000 < o + n)) then s
    else if power s = 0 || s.sup.inReset then s
    else if !hostAnswers (if bar2 then 0x130000 else o) s then
      onlyIf (!write) (fun t => { t with hostBytes := List.replicate n 0 }) s
    else hostMem a n write data uncorr s)

end Sys2Proof.Machine
end

