-- ==== Sys2Proof/Machine/Net.lean ====
section
/-! DEFINITION. Plant networks, PTP, GOOSE, time-triggered launch and the I/O ring (R506 to R544, R195 to R198): the
meanings of their commands and events. -/
namespace Sys2Proof.Machine

/-! ### Ports (R506 to R513, R542) -/

/-- R507, Table NET-8: a write of NET_CTRL; `ok` says which ports pass their check when they are enabled. -/
def execNetCtrlWrite (value : Word) (ok : BitVec 4) (s : State) : Host.Outcome State Fault Refusal :=
  .next (hostCmd Reg.NET_CTRL (fun s =>
    let was := rd Reg.NET_CTRL s
    let change := value.toNat / 2 ^ 28 != was.toNat / 2 ^ 28
    let open_ := !was.getLsbD 0 && !was.getLsbD 1
    let bad := change && (!open_ || value.toNat / 2 ^ 30 == 3)
    let top := if bad then was else value
    let s := wr Reg.NET_CTRL ((top &&& 0xF0000000) ||| (value &&& 0xF)) s
    s |> onlyIf bad (say Code.NET_CFG_BAD)
      |> forAll (List.range 4) (fun p => onlyIf (value.getLsbD p && !was.getLsbD p && ok.getLsbD p && flag (portIso p) s)
          (fun t => unisolateBank 3 p (setFlag (portIso p) false t)))
      |> ptpPorts) s)

/-- A redundant port is in the condition of R510: reported once on entry. -/
def redCheck (s : State) : State :=
  let cut := fun (l : List Nat) => l.filter (fun a => decide (nowNs s ≤ a + 1000000000))
  let l0 := cut s.net.lost0
  let l1 := cut s.net.lost1
  let bad := redundant s && ((portOn 0 s && !flag (portLink 0) s) || (portOn 1 s && !flag (portLink 1) s)
    || decide (100 ≤ l0.length) || decide (100 ≤ l1.length))
  let was := s.net.degraded
  { s with net := { s.net with lost0 := l0, lost1 := l1, degraded := bad } }
    |> onlyIf (bad && !was) (netSay Fld.NET_EVENT_RED_LOSS Code.NET_RED_DEGRADED)

/-- R542: a port loses its link. -/
def execNetLinkDown (port : Fin 4) (s : State) : Host.Outcome State Fault Refusal :=
  .next (if !regionsUp s || !flag (portLink port) s then s
    else s |> setFlag (portLink port) false |> netSay Fld.NET_EVENT_LINK Code.NET_LINK_DOWN |> redCheck)

/-- R542: a port gains its link. A link through an SFP shows that the SFP is present. -/
def execNetLinkUp (port : Fin 4) (s : State) : Host.Outcome State Fault Refusal :=
  .next (if !regionsUp s || !portOn port s || flag (portLink port) s then s
    else s |> setFlag (portLink port) true
      |> onlyIf (decide (port.val < 2) && bitAt Reg.NET_CTRL (28 + port) s) (setFlag (portSfp port) true)
      |> netSay Fld.NET_EVENT_LINK Code.NET_LINK_UP |> redCheck)

/-- R542: a PHY self-check fails, or a selected SFP is absent or faulted. -/
def execNetPortIsolated (port : Fin 4) (s : State) : Host.Outcome State Fault Refusal :=
  .next (if !regionsUp s || !portOn port s then s
    else s |> setFlag (portIso port) true |> setFlag (portLink port) false
      |> netSay Fld.NET_EVENT_PORT_ISO Code.NET_PORT_ISOLATED |> isolateBank 3 port |> redCheck |> ptpPorts)

/-- The maintenance and service addresses of this module (R511). -/
def maintMac : Nat := Config.maintMacHi.toNat % 65536 * 2 ^ 32 + Config.maintMacLo.toNat
def ownMac (src : BitVec 48) (s : State) : Bool :=
  src.toNat == maintMac || src.toNat == fld Fld.NET_SVC_MAC_HI_BYTES s * 2 ^ 32 + (rd Reg.NET_SVC_MAC_LO s).toNat

/-- The receive queue of a frame (Table NET-1). -/
def plantQueue : PlantKind → Nat
  | .ptp => 8
  | .goose => 9
  | .safety => 10
  | .supervision => 15
  | .other none => 15
  | .other (some p) => 15 - p.val / 2

/-- An accepted frame goes to its queue; a supervision frame into the node table (R508, R513). -/
def plantDispatch (port : Bool) (src : BitVec 48) (kind : PlantKind) (frame : List Byte) (s : State) : State :=
  match kind with
  | .supervision =>
    let l := s.net.nodes.filter (fun e => e.1 != src && decide (nowNs s ≤ e.2 + 60000000000))
    { s with net := { s.net with nodes := ((src, nowNs s) :: l).take 512 } }
  | _ => quePush (plantQueue kind) 0 port.toNat (moduleNs s) frame s

/-- R508, R509: a frame arrives on a plant port; `seq` is its sequence number when it is redundant. -/
def execPlantFrameReceive (port : Bool) (src : BitVec 48) (seq : Option (BitVec 16)) (kind : PlantKind) (dest : PlantDest)
    (frame : List Byte) (s : State) : Host.Outcome State Fault Refusal :=
  let take := fun (t : State) => if dest = .others then t else plantDispatch port src kind frame t
  let pass := fun (t : State) => onlyIf (hsr t && dest != .mine && portUp (1 - port.toNat) t) (sendOut (.frame (1 - port.toNat) frame)) t
  .next (if !portUp port.toNat s then s
    else if hsr s && ownMac src s then s
    else match seq with
    | none => take s
    | some q =>
      if !redundant s then take s
      else
        let fresh := s.net.dup.filter (fun e => decide (nowNs s < e.at_ + 400000000))
        match fresh.find? (fun e => e.src == src && e.seq == q) with
        | some e => { s with net := { s.net with
            dup := fresh.map (fun x => if x = e then { x with both := x.both || x.port != port } else x) } }
        | none => pass (take { s with net := { s.net with
            dup := ({ src := src, seq := q, port := port, at_ := nowNs s, both := false } :: fresh).take 1024 } }))

/-- R510: the duplicate of a frame has not followed within 400 ms. -/
def execRedundantCopyTimeout (src : BitVec 48) (seq : BitVec 16) (s : State) : Host.Outcome State Fault Refusal :=
  .next (match s.net.dup.find? (fun e => e.src == src && e.seq == seq) with
  | none => s
  | some e =>
    let s := { s with net := { s.net with dup := s.net.dup.filter (fun x => x != e) } }
    if e.both || !netUp s then s
    else if e.port then
      redCheck (bump Fld.NET_RED_COUNTS_LOST_A { s with net := { s.net with lost0 := nowNs s :: s.net.lost0 } })
    else redCheck (bump Fld.NET_RED_COUNTS_LOST_B { s with net := { s.net with lost1 := nowNs s :: s.net.lost1 } }))

/-- R508: a supervision frame is sent every 2 s. -/
def execSupervisionSend (s : State) : Host.Outcome State Fault Refusal :=
  .next (if !redundant s then s
    else s |> onlyIf (portUp 0 s) (sendOut (.supervision false)) |> onlyIf (portUp 1 s) (sendOut (.supervision true)))

/-- R510: own supervision frames return on one port only for three intervals. -/
def execNetHsrOpen (s : State) : Host.Outcome State Fault Refusal :=
  .next (if netUp s && hsr s then netSay Fld.NET_EVENT_RED_LOSS Code.NET_HSR_OPEN s else s)

/-- R512: 100 ms after becoming active. -/
def execGratuitousArpRepeat (s : State) : Host.Outcome State Fault Refusal :=
  .next (if netUp s && serving s then sendOut (.arp (rd Reg.NET_SVC_IP s)) s else s)

/-- R513: an answer to an acyclic ring message. -/
def execAcyclicRingAnswer (ir1 : Bool) (err : Bool) (frame : List Byte) (s : State) : Host.Outcome State Fault Refusal :=
  .next (if portUp (2 + ir1.toNat) s then quePush 11 (2 * err.toNat) (2 + ir1.toNat) (moduleNs s) frame s else s)

/-! ### PTP (R514 to R522) -/

/-- A PTP timestamp as module time in ns (R525: both count from the same second without leap seconds). -/
def ptpTime (sec : BitVec 48) (ns : Word) : Int := ((sec.toNat : Int) - 946684800) * 1000000000 + ns.toNat

/-- R517: a Sync of the selected master arrives `age` ns ago; a one-step Sync carries its origin, a two-step one waits
for its Follow_Up. -/
def execPtpSync (port : Bool) (gm : DWord) (sec : BitVec 48) (ns : Word) (corr : Int) (age : Nat) (twoStep : Bool)
    (s : State) : Host.Outcome State Fault Refusal :=
  let t2 := ((moduleNs s).toNat : Int) - age
  .next (if !portUp port.toNat s || !s.net.ptp.master || rd64 Reg.PTP_GM_LO s != gm then s
    else if twoStep then onPtpPort port (fun p => { p with sync := some (t2, corr) }) s
    else ptpMeasure port (t2 - ptpTime sec ns - corr) s)

/-- R515: a Follow_Up completes the measurement of a two-step Sync or of a two-step Pdelay answer. -/
def execPtpFollowUp (port : Bool) (pdelay : Bool) (sec : BitVec 48) (ns : Word) (corr : Int) (s : State) :
    Host.Outcome State Fault Refusal :=
  .next (if !portUp port.toNat s then s
    else if pdelay then
      match (ptpPort port s).resp with
      | some x => linkMeasure port (x - ptpTime sec ns - corr) s
      | none => s
    else match (ptpPort port s).sync with
      | some (t2, c) => ptpMeasure port (t2 - ptpTime sec ns - c - corr) s
      | none => s)

/-- R516, R521: an Announce arrives and the best-master algorithm runs; `best` is its result. -/
def execPtpAnnounce (port : Bool) (gm : DWord) (utc : Option (BitVec 16)) (best : Bmca) (s : State) :
    Host.Outcome State Fault Refusal :=
  .next (if !portUp port.toNat s then s
    else
      let s := match utc with
        | some u => s |> setFlag Fld.PTP_UTC_OFFSET_VALID true |> setFld Fld.PTP_UTC_OFFSET_S u.toNat
        | none => s
      match best with
      | .sender =>
        let moved := !s.net.ptp.master || (!redundant s && srcPort s != port)
        ptpPorts (onlyIf moved (setFlag Fld.PTP_STATE_SRC_PORT port) (ptpMaster gm s))
      | .other => s
      | .self => ptpSelf s
      | .nobody => ptpPorts (setFlag Fld.PTP_STATE_MASTER false (onPtp (fun p => { p with master := false }) s)))

/-- R519: the announce receipt timeout; a message in the cycle of expiry wins. `best` is what the algorithm then
selects: another master qualifies or none does. -/
def execPtpAnnounceTimeout (best : Bmca) (tie : Bool) (s : State) : Host.Outcome State Fault Refusal :=
  .next (if !netUp s || !s.net.ptp.master then s
    else if tie then bump Fld.NET_CLOSE_CALL_COUNT s
    else match best with
      | .sender | .other => s
      | .self => ptpSelf (servoTo 3 s)
      | .nobody => ptpPorts (onPtp (fun p => { p with master := false }) (servoTo 3 s)))

/-- R519, R520: no Sync from the selected master for 3 Sync intervals, on either port or on the source port alone. -/
def execPtpSyncSilence (both : Bool) (tie : Bool) (s : State) : Host.Outcome State Fault Refusal :=
  .next (if !netUp s || (!s.net.ptp.master && !inRange (servo s) 1 2) then s
    else if tie then bump Fld.NET_CLOSE_CALL_COUNT s
    else if both || !redundant s || !s.net.ptp.master then servoTo 3 s
    else ptpSwitch s)

/-- R515: a Pdelay_Req arrives and is answered in one step with its turnaround. -/
def execPtpPdelayReq (port : Bool) (turn : Nat) (s : State) : Host.Outcome State Fault Refusal :=
  .next (if portUp port.toNat s then sendOut (.ptp port (.pdelayResp turn)) s else s)

/-- R517: a Pdelay_Resp arrives `age` ns ago. One step: the correction is the turnaround. Two steps: it carries t2, and
t3 follows. -/
def execPtpPdelayResp (port : Bool) (t2 : Int) (corr : Int) (age : Nat) (twoStep : Bool) (s : State) :
    Host.Outcome State Fault Refusal :=
  .next (match (ptpPort port s).reqAt with
  | none => s
  | some t1 =>
    let t4 := ((moduleNs s).toNat : Int) - age
    if !portUp port.toNat s then s
    else if twoStep then onPtpPort port (fun p => { p with resp := some (t4 - t1 + t2 - corr) }) s
    else linkMeasure port (t4 - t1 - corr) s)

/-- R516, R522: an interval elapses. -/
def execPtpMessageSend (kind : PtpSend) (port : Bool) (s : State) : Host.Outcome State Fault Refusal :=
  .next (if !portUp port.toNat s then s
    else match kind with
      | .pdelayReq => sendOut (.ptp port .pdelayReq)
          (onPtpPort port (fun p => { p with reqAt := some ((moduleNs s).toNat : Int), resp := none }) s)
      | .sync => onlyIf (ptpGrand s) (sendOut (.ptp port (.sync (moduleNs s)))) s
      | .announce => onlyIf (ptpGrand s)
          (sendOut (.ptp port (.announce (fld Fld.PTP_CFG_DOMAIN s) (fld Fld.PTP_CFG_PRIORITY1 s)))) s)

/-- R518: PTP_CMD ACCEPT_STEP. -/
def execPtpAcceptStep (s : State) : Host.Outcome State Fault Refusal :=
  .next (hostCmd Reg.PTP_CMD (onPtp (fun p => { p with stepAccepted := true })) s)

/-- R518: PTP_CMD CANCEL_STEP. -/
def execPtpCancelStep (s : State) : Host.Outcome State Fault Refusal :=
  .next (hostCmd Reg.PTP_CMD (onPtp (fun p => { p with stepAccepted := false })) s)

/-! ### GOOSE (R524 to R529) -/

/-- A descriptor for entry `k` is refused (R524, R529, Table NET-3). -/
def gseBad (k : Nat) (d : List Word) (s : State) : Bool :=
  let len := (s.exe.image.map (·.dataLen)).getD 0
  let pub := decide (k < 16)
  decide (79 < k) || gseEn (gse k s)
  || gseBits d 0 26 16 != 0 || gseBits d 1 31 16 != 0 || gseBits d 6 31 0 != 0 || gseBits d 7 31 0 != 0
  || (pub && !(inRange (gseBits d 3 31 16) 1 1000 && inRange (gseBits d 3 15 0) 10 60000))
  || gseBits d 4 7 0 == 0 || !inRange (gseBits d 5 7 0) 1 64
  || decide (len < 16 * gseBits d 4 31 8 + gseBits d 4 7 0) || decide (len < 16 * gseBits d 5 31 8 + 4 * gseBits d 5 7 0)
  || (gseMap d s).any (fun e => !inRange e.1 1 6)
  || (!pub && gseBits d 0 31 31 == 1 && !gseTagsOk d s)

/-- R524: GSE_CMD WRITE. -/
def execGseWrite (s : State) : Host.Outcome State Fault Refusal :=
  .next (hostCmd Reg.GSE_CMD (fun s =>
    let k := fld Fld.GSE_SEL_ENTRY s
    let d := (List.range 8).map (fun w => rd (Reg.GSE_DATA w) s)
    if gseBad k d s then s |> raiseF 0x0C Fld.NET_EVENT_GSE_CFG |> result Fld.GSE_RESULT_STATUS Code.NET_CFG_BAD
    else result Fld.GSE_RESULT_STATUS Code.NET_OK
      (onGse k (fun _ => { desc := if d.all (· == 0) then [] else d }) s)) s)

/-- R524: GSE_CMD READ. -/
def execGseRead (s : State) : Host.Outcome State Fault Refusal :=
  .next (hostCmd Reg.GSE_CMD (fun s =>
    let k := fld Fld.GSE_SEL_ENTRY s
    if 79 < k then result Fld.GSE_RESULT_STATUS Code.NET_CFG_BAD s
    else result Fld.GSE_RESULT_STATUS Code.NET_OK
      (forAll (List.range 8) (fun w t => wr (Reg.GSE_DATA w) ((gse k s).desc.getD w 0) t) s)) s)

/-- R524: GSE_CMD DISABLE. -/
def execGseDisable (s : State) : Host.Outcome State Fault Refusal :=
  .next (hostCmd Reg.GSE_CMD (fun s =>
    let k := fld Fld.GSE_SEL_ENTRY s
    if 79 < k then result Fld.GSE_RESULT_STATUS Code.NET_CFG_BAD s
    else s |> gseOff k |> result Fld.GSE_RESULT_STATUS Code.NET_OK) s)

/-- R526: a repetition interval elapses. -/
def execGooseRetransmit (i : Fin 16) (s : State) : Host.Outcome State Fault Refusal :=
  let x := gse i s
  .next (if !regionsUp s || !gseEn x || !x.live then s
    else gooseSend i (onGse i (fun x => { x with
      sqNum := x.sqNum + 1, interval := min (2 * x.interval) (gseBits x.desc 3 15 0) }) s))

/-- A subscription takes a message that matches it (R527, R528). A new stNum is one above the current one. -/
def gooseTake (k : Nat) (m : GooseMsg) (s : State) : State :=
  let x := gse k s
  let j := k - 16
  let accept := fun (t : State) => t |> gseDeliver k m.vals |> setFlag (gseValid j) true
    |> onGse k (fun x => { x with stNum := m.stNum, sqNum := m.sqNum, live := true })
  if m.confRev != x.desc.getD 2 0 || m.vals.length != gseBits x.desc 5 7 0 then
    netSay Fld.NET_EVENT_GSE_CFG Code.NET_GSE_CONFREV s
  else if !x.live || decide (x.stNum.toNat < m.stNum.toNat) then accept s
  else if m.stNum = x.stNum && decide (x.sqNum.toNat < m.sqNum.toNat) then
    s |> setFlag (gseValid j) true |> onGse k (fun x => { x with sqNum := m.sqNum })
  else if m.stNum = 1 && m.sqNum = 0 then accept (say Code.NET_GSE_RESTART s)
  else netSay Fld.NET_EVENT_GSE_CFG Code.NET_GSE_ORDER s

/-- The message's destination, APPID, gocbRef and simulation flag match an enabled subscription (R524, R527); its
template begins with the encoded gocbRef. -/
def gooseMatch (k : Nat) (m : GooseMsg) (s : State) : Bool :=
  let d := (gse k s).desc
  gseEn (gse k s) && gseBits d 1 15 0 == m.dst.toNat && gseBits d 0 15 0 == m.appid.toNat
  && decide (m.ref.length ≤ gseBits d 4 7 0)
  && mgetBytes (dataBase s + 16 * gseBits d 4 31 8) m.ref.length s == m.ref
  && (!m.sim || gseBits d 0 30 30 == 1)

/-- R527: a GOOSE message is taken by each subscription that it matches. -/
def execGooseReceive (msg : GooseMsg) (s : State) : Host.Outcome State Fault Refusal :=
  .next (if !netUp s then s
    else forAll ((List.range 64).filter (fun j => gooseMatch (16 + j) msg s)) (fun j => gooseTake (16 + j) msg) s)

/-- R528: a subscription's validity timer expires; a message in that cycle wins. -/
def execNetGseTalExpired (j : Fin 64) (tie : Bool) (s : State) : Host.Outcome State Fault Refusal :=
  .next (if !netUp s || !gseEn (gse (16 + j) s) || !flag (gseValid j) s then s
    else if tie then bump Fld.NET_CLOSE_CALL_COUNT s
    else s |> gseStale (16 + j) true |> setFlag (gseValid j) false
      |> netSay Fld.NET_EVENT_GSE_INVALID Code.NET_GSE_TAL_EXPIRED)

/-! ### Launch slots (R530 to R533) -/

/-- A launch-slot descriptor lies outside Table NET-5. -/
def launchBad (w0 w1 : Word) (s : State) : Bool :=
  let len := w0.toNat / 2 ^ 11 % 2 ^ 11
  !inRange len 60 1514 || (w0.getLsbD 30 && decide (len < w0.toNat % 2 ^ 11 + 8)) || w0.toNat / 2 ^ 22 % 4 != 0
  || w1.toNat % 8 != 0 || decide ((s.exe.image.map (·.dataLen)).getD 0 < w1.toNat + len)

/-- R530, R533: LNCH_CMD WRITE; an armed launch is cancelled. -/
def execLnchWrite (s : State) : Host.Outcome State Fault Refusal :=
  .next (hostCmd Reg.LNCH_CMD (fun s =>
    let w0 := rd Reg.LNCH_DATA0 s
    let w1 := rd Reg.LNCH_DATA1 s
    if launchBad w0 w1 s then result Fld.LNCH_RESULT_STATUS Code.NET_CFG_BAD s
    else result Fld.LNCH_RESULT_STATUS Code.NET_OK
      (onLaunch (fld Fld.LNCH_SEL_SLOT s) (fun x => { x with w0 := w0, w1 := w1, cancelled := x.armed.isSome }) s)) s)

/-- R530: LNCH_CMD READ. -/
def execLnchRead (s : State) : Host.Outcome State Fault Refusal :=
  .next (hostCmd Reg.LNCH_CMD (fun s =>
    let x := launch (fld Fld.LNCH_SEL_SLOT s) s
    s |> wr Reg.LNCH_DATA0 x.w0 |> wr Reg.LNCH_DATA1 x.w1 |> result Fld.LNCH_RESULT_STATUS Code.NET_OK) s)

/-- R533: LNCH_CMD DISABLE. -/
def execLnchDisable (s : State) : Host.Outcome State Fault Refusal :=
  .next (hostCmd Reg.LNCH_CMD (fun s =>
    result Fld.LNCH_RESULT_STATUS Code.NET_OK
      (onLaunch (fld Fld.LNCH_SEL_SLOT s) (fun x => { x with w0 := x.w0 &&& 0x7FFFFFFF, cancelled := x.armed.isSome }) s)) s)

/-- A frame with module time inserted little-endian at an offset (R531). -/
def stampFrame (off : Nat) (t : DWord) (l : List Byte) : List Byte := l.take off ++ leBytes 8 t.toNat ++ l.drop (off + 8)

/-- R531, R532: a fired launch leaves its ports; `late` when it waited for another frame. -/
def execLaunchSend (slot : Fin 64) (late : Bool) (s : State) : Host.Outcome State Fault Refusal :=
  .next (match (launch slot s).waiting with
  | none => s
  | some (w0, frame) =>
    if !netUp s then s
    else
      let f := if w0.getLsbD 30 then stampFrame (w0.toNat % 2 ^ 11) (moduleNs s) frame else frame
      onLaunch slot (fun x => { x with waiting := none }) s
        |> onlyIf late (fun t => t |> bump Fld.LNCH_COUNTS_LATE |> netSay Fld.NET_EVENT_LAUNCH Code.NET_LAUNCH_LATE)
        |> onlyIf ((redundant s || w0.getLsbD 28) && portUp 0 s) (sendOut (.frame 0 f))
        |> onlyIf ((redundant s || w0.getLsbD 29) && portUp 1 s) (sendOut (.frame 1 f)))

/-- R531: the guard ends without a launch. -/
def execLaunchGuardExpiry (slot : Fin 64) (s : State) : Host.Outcome State Fault Refusal :=
  .next (onLaunch slot (fun x => { x with guard := false }) s)

/-! ### The I/O ring (R534 to R541) -/

/-- R537, R540, R673: a task's ring cycle is launched on both ports with the outputs of its last commit, or in HOLD of the
last one before it, and new TIDs. -/
def execRingCycleLaunch (t : Fin 8) (s : State) : Host.Outcome State Fault Refusal :=
  .next (if !ringMaster s || fld Fld.RING_STATE_STATE s != 3 || (taskStations t s).isEmpty then s
    else
      let issue := fun (st : Nat) (u : State) =>
        let x := ringStn st u
        let used := x.issued.filter (fun e => decide (nowNs u < e.2 + 2000000000))
        let r := tidNext 65535 x.tid (used.map (·.1))
        onRingStn st (fun x => { x with
            tid := r.1, issued := (r.1, nowNs u) :: used, closed := false, ir0 := false, ir1 := false }) u
          |> onStation st (fun x => { x with answered := false })
          |> setFld (Fld.STNs_STATUS_LAST_TID st) r.1
          |> forAll (List.range r.2) (fun _ v => say Code.NET_RING_QSKIP (bump Fld.RING_COUNTS_QSKIP v))
      let u := forAll (taskStations t s) (fun e => issue e.1) s
      let segs := (taskStations t s).map (fun e => (e.1, (ringStn e.1 u).tid))
      let outs := (if frozen u then u.sup.heldProg else u.exe.committed).filter (fun e => (tagDef e.1 u).any (fun d => d.locKind == 2 && d.output
        && segs.any (fun g => g.1 == d.location.toNat / 2 ^ 26)))
      let n := Sparse.get (fun _ => 0) u.net.ring.cycles t.val + 1
      { u with net := { u.net with ring := { u.net.ring with
          launchAt := nowNs u, cycles := Sparse.set (fun _ => 0) u.net.ring.cycles t.val n } } }
        |> onlyIf (portUp 2 u || portUp 3 u) (sendOut (.ring t n (100 * fld Fld.RING_CFG_STN_WDOG u) segs (outs.map (fun e => (e.1, (forceOf e.1 u).getD e.2))))))

/-- R538, R195, R197: a returning segment carries DONE and a TID; `ir0` and `ir1` say on which ports it arrives now. DEDUCED: log entry 37. -/
def execStationAnswer (st : Fin 64) (tid : BitVec 16) (ir0 ir1 : Bool) (vals : List (Tag × DWord)) (tie : Bool)
    (s : State) : Host.Outcome State Fault Refusal :=
  let x := ringStn st s
  .next (if !ringMaster s || !((portUp 2 s && ir0) || (portUp 3 s && ir1)) then s
    else if x.tid != tid.toNat || (x.closed && !(station st s).answered) then
      bump Fld.EXE_STATION_LATE_COUNT s
    else if x.closed then s
    else
      let first := !(station st s).answered
      let mine := fun (g : Tag) => (tagDef g.toNat s).any (fun d => d.locKind == 2 && !d.output
        && d.location.toNat / 2 ^ 26 == st.val)
      let s := onRingStn st (fun x => { x with ir0 := x.ir0 || ir0, ir1 := x.ir1 || ir1 }) s
        |> setFlag (Fld.STNs_STATUS_VIA_IR0 st) (x.ir0 || ir0) |> setFlag (Fld.STNs_STATUS_VIA_IR1 st) (x.ir1 || ir1)
      let s := { s with net := { s.net with ring := { s.net.ring with
        rtts := (nowNs s, nowNs s - s.net.ring.launchAt) :: s.net.ring.rtts.filter (fun e => decide (nowNs s ≤ e.1 + 1000000000)) } } }
      if !first then s
      else
        let s := onlyIf tie (bump Fld.NET_CLOSE_CALL_COUNT) s
        let s := onStation st (fun y => { y with answered := true }) s
        { s with exe := { s.exe with
          remote := (vals.filter (fun e => mine e.1)).foldl (fun m e => Sparse.insert m e.1.toNat e.2) s.exe.remote } })

/-- The deadline of one station (R195, R196, R198); the inputs of a station with another identity stay invalid (R541). -/
def stationDeadline (n limit : Nat) (s : State) : State :=
  let x := station n s
  let s := onRingStn n (fun r => { r with closed := true, one := if x.answered && r.ir0 != r.ir1 then r.one + 1 else 0 }) s
  if x.answered then
    let other := fld (Fld.STNs_STATUS_STATE n) s == 3
    s |> onStation n (fun _ => { answered := true, invalid := other }) |> setFlag (staleBit n) false
      |> setFlag (Fld.STNs_STATUS_STALE n) false |> setFlag (Fld.STNs_STATUS_INVALID n) other
  else
    let k := x.staleCount + 1
    let inv := decide (limit ≤ k)
    s |> onStation n (fun y => { y with stale := true, staleCount := k, invalid := y.invalid || inv })
      |> setFlag (staleBit n) true |> setFlag (Fld.STNs_STATUS_STALE n) true |> say Code.EXE_STATION_STALE
      |> onlyIf (!x.stale) (raiseF 0x0C Fld.NET_EVENT_STATION)
      |> onlyIf (!x.stale || (inv && !x.invalid)) (raiseF 0x03 Fld.EXE_EVENT_STALE)
      |> onlyIf inv (setFlag (Fld.STNs_STATUS_INVALID n) true)
      |> onlyIf (inv && !x.invalid) (say Code.EXE_STATION_INVALID)

/-- Break and closure of the ring after a cycle (R539). -/
def ringJudge (l : List (Nat × StationDef)) (s : State) : State :=
  let ans := l.filter (fun e => (station e.1 s).answered)
  let whole := ans.length == l.length && ans.all (fun e => (ringStn e.1 s).ir0 && (ringStn e.1 s).ir1)
  let n := if whole then s.net.ring.whole + 1 else 0
  let s := { s with net := { s.net with ring := { s.net.ring with whole := n } } }
  if !flag Fld.RING_STATE_BREAK s then
    if l.any (fun e => decide (3 ≤ (ringStn e.1 s).one)) then
      let reach := (ans.filter (fun e => (ringStn e.1 s).ir0)).map (fun e => fld (Fld.STNs_STATUS_POSITION e.1) s)
      s |> setFlag Fld.RING_STATE_BREAK true |> setFld Fld.RING_STATE_BREAK_AFTER (reach.foldl max 0)
        |> bump Fld.RING_COUNTS_BREAKS |> netSay Fld.NET_EVENT_RING_BREAK Code.NET_RING_BREAK
    else s
  else if 10 ≤ n then s |> setFlag Fld.RING_STATE_BREAK false |> say Code.NET_RING_CLOSED
  else s

/-- R195: the cycle deadline of a task's stations arrives in CD_NET. -/
def execStationDeadline (t : Fin 8) (s : State) : Host.Outcome State Fault Refusal :=
  let l := taskStations t s
  .next (if !regionsUp s || onStandby s then s
    else ringJudge l (forAll l (fun e => stationDeadline e.1 e.2.staleLimit) s))

/-- Judge one configured station in an enumeration (R541). -/
def enumStation (found : List (Fin 64 × Word × Fin 64)) (n : Nat) (s : State) : State :=
  let id := rd (Reg.STNs_ID n) s
  let was := fld (Fld.STNs_STATUS_STATE n) s
  if id = 0 then setFld (Fld.STNs_STATUS_STATE n) 0 s
  else match found.find? (fun e => e.1.val == n) with
    | none => setFld (Fld.STNs_STATUS_STATE n) 1 s
    | some (_, i, p) =>
      let s := setFld (Fld.STNs_STATUS_POSITION n) p s
      if i = id then
        s |> setFld (Fld.STNs_STATUS_STATE n) 2 |> onlyIf (was != 2) (netSay Fld.NET_EVENT_STATION Code.NET_STATION_JOIN)
      else
        s |> setFld (Fld.STNs_STATUS_STATE n) 3 |> onStation n (fun x => { x with invalid := true })
          |> setFlag (Fld.STNs_STATUS_INVALID n) true
          |> onlyIf (was != 3) (netSay Fld.NET_EVENT_STATION Code.NET_STATION_ID)

/-- The bit of a station in RING_PRESENT. -/
def presentBit (n : Nat) : RegField := ⟨if n < 32 then Reg.RING_PRESENT_LO else Reg.RING_PRESENT_HI, n % 32, 1⟩

/-- R541: the ring is enumerated; `found` gives the number, identity and position that each station reports. -/
def execRingEnumeration (found : List (Fin 64 × Word × Fin 64)) (s : State) : Host.Outcome State Fault Refusal :=
  .next (if !ringMaster s || !inRange (fld Fld.RING_STATE_STATE s) 2 3 then s
    else
      let s := forAll (List.range 64) (enumStation found) s
      let s := forAll (List.range 64) (fun n t => setFlag (presentBit n) (fld (Fld.STNs_STATUS_STATE n) t == 2) t) s
      let states := (List.range 64).map (fun n => fld (Fld.STNs_STATUS_STATE n) s)
      let up := states.any (· == 2) && states.all (fun x => x == 0 || x == 2)
      let was := s.net.ring.up
      { s with net := { s.net with ring := { s.net.ring with up := up } } }
        |> setFld Fld.RING_STATE_STATE 3 |> onlyIf (up && !was) (say Code.NET_RING_UP))

/-- R541, R540: a write of RING_CTRL.RUN. -/
def execRingRunWrite (run : Bool) (s : State) : Host.Outcome State Fault Refusal :=
  .next (hostCmd Reg.RING_CTRL (fun s =>
    let was := flag Fld.RING_CTRL_RUN s
    let s := setFlag Fld.RING_CTRL_RUN run s
    if run && !was then ringRestart (setFld Fld.RING_STATE_STATE (if s.net.ring.waitOver then 2 else 1) s)
    else if run then s
    else { setFld Fld.RING_STATE_STATE 0 s with net := { s.net with ring := { s.net.ring with up := false } } }) s)

/-- R540: 2 s after the ring ports first show link. -/
def execRingWaitExpiry (s : State) : Host.Outcome State Fault Refusal :=
  .next (if !regionsUp s then s
    else onlyIf (fld Fld.RING_STATE_STATE s == 1) (setFld Fld.RING_STATE_STATE 2)
      { s with net := { s.net with ring := { s.net.ring with waitOver := true } } })

/-- R534: a standby side passes a ring frame between its ports and records the TIDs of its segments. -/
def execRingPassThrough (segs : List (Fin 64 × BitVec 16)) (s : State) : Host.Outcome State Fault Refusal :=
  .next (if !onStandby s || !(portUp 2 s && portUp 3 s) then s
    else
      let s := forAll segs (fun e t => onRingStn e.1 (fun x => { x with tid := e.2.toNat }) t
        |> setFld (Fld.STNs_STATUS_LAST_TID e.1) e.2.toNat) s
      sendOut (.ringPass (segs.map (fun e => (e.1.val, e.2.toNat)))) (setFlag Fld.RING_STATE_PASS true s))

end Sys2Proof.Machine
end

