-- ==== Sys2Proof/Machine/Pair.lean ====
section
/-! DEFINITION. The causeway and the pair (R466 to R503, R707): the meanings of their commands and events. -/
namespace Sys2Proof.Machine

/-! ### Heartbeats (R472 to R474) -/

/-- The path of the records that take one: CW1, CW2 while CW1 is lost, or none (R470). -/
def cwPath (s : State) : Nat := if flag Fld.PAIR_STATE_CW1_OK s then 1 else if flag Fld.PAIR_STATE_CW2_OK s then 2 else 0

/-- After a change of that path the records not acknowledged go out again (R471). -/
def cwResend (was : Nat) (s : State) : State :=
  if cwPath s = was || cwPath s = 0 then s else forAll s.pair.unacked (fun r => sendOut (.causeway r.1 r.2.2)) s

/-- One period of a path: a missed heartbeat, or one more of a run that restores the path (R472). -/
def pathPeriod (cw2 : Bool) (s : State) : State :=
  let seen := if cw2 then s.pair.seen2 else s.pair.seen1
  let run := if cw2 then s.pair.run2 else s.pair.run1
  let ok := if cw2 then Fld.PAIR_STATE_CW2_OK else Fld.PAIR_STATE_CW1_OK
  let n := if seen then min (run + 1) 10 else 0
  onPair (fun p => if cw2 then { p with seen2 := false, run2 := n } else { p with seen1 := false, run1 := n }) s
    |> onlyIf (!seen) (bump (if cw2 then Fld.PAIR_HB_MISS_CW2 else Fld.PAIR_HB_MISS_CW1))
    |> onlyIf (n == 10 && !flag ok s) (fun t => t |> setFlag ok true |> raiseF 0x0A Fld.PAIR_EVENT_PATH
        |> say Code.PAIR_PATH_RESTORED |> cwResend (cwPath s))

/-- What the AUTH line shows of the other side. -/
def senseOther (other : Bool) (s : State) : State := { s with sup := { s.sup with authOther := other } }

/-- R473, R494: HB_PERIOD elapses; `other` says that the other side holds AUTH. -/
def execHeartbeatSend (other : Bool) (s : State) : Host.Outcome State Fault Refusal :=
  .next (if !cwUp s then s
    else s |> senseOther other |> pathPeriod false |> pathPeriod true |> hbSend |> takeoverBlocked)

/-- The partner's heartbeat in the registers (Tables PAIR-11 and PAIR-13). -/
def peerRegs (hb : Heartbeat) (s : State) : State :=
  s |> setFld Fld.PAIR_STATE_PEER hb.st
    |> wr Reg.PAIR_PEER (toW (hb.mode.val * 2 ^ 28 + hb.major.toNat % 16 * 2 ^ 24 + hb.regions.toNat * 2 ^ 16 + hb.since.toNat))

/-- R467: the sides name different home modules. -/
def homeCheck (hb : Heartbeat) (s : State) : State :=
  let c := min hb.home.val 2 != min (fld Fld.PAIR_CFG_HOME s) 2
  s |> setFlag Fld.PAIR_STATE_HOME_CONFLICT c
    |> onlyIf (c && !flag Fld.PAIR_STATE_HOME_CONFLICT s) (say Code.PAIR_HOME_CONFLICT)

/-- R502: a side in WAITING whose active partner has another protocol version says so once. -/
def versionCheck (old : Option Heartbeat) (hb : Heartbeat) (s : State) : State :=
  let other := hb.major.toNat != Config.pairVersion.toNat / 256
  onlyIf (pairState s == 0 && hb.st == 1 && other && !old.any (fun h => h.st == 1)) (say Code.PAIR_VERSION) s

/-- What the active side notes of its partner (R471, R490). -/
def peerNote (old : Option Heartbeat) (hb : Heartbeat) (s : State) : State :=
  onPair (fun p => { p with
    mine := if hb.st == 4 then p.mine else []
    unacked := if 2 ≤ hb.st.val && hb.st.val ≤ 4 then p.unacked else []
    trackAt := if hb.st == 3 then (if old.any (fun h => h.st == 3) then p.trackAt else some (nowNs s)) else none }) s

/-- R468, R482, R493, R494: what a heartbeat decides, by this side's pair state. -/
def peerDecide (lost : Bool) (old : Option Heartbeat) (hb : Heartbeat) (s : State) : State :=
  match pairState s with
  | 0 => if hb.st = 1 && versionOk s then syncStart s else s
  | 1 => peerNote old hb s
  | 2 | 3 | 4 =>
    if hb.st = 1 then
      let s := onPair (fun p => { p with takeover := none, blockedSaid := false, deniedSaid := false }) s
      if lost then syncStart s else s
    else if hb.st = 0 || hb.st = 6 then partnerOut hb.cause s
    else s
  | _ => s

/-- R481: in a slack a standby side takes the base of the active side. DEDUCED: log entry 33. -/
def takeBase (base : DWord) (s : State) : State :=
  if onStandby s && allIdle s then { s with exe := { s.exe with base := (base.toNat : Int) - nowNs s } } else s

/-- R473: a heartbeat arrives on CW1 or CW2. -/
def execHeartbeatReceive (cw2 : Bool) (hb : Heartbeat) (good tie other : Bool) (s : State) :
    Host.Outcome State Fault Refusal :=
  .next (if !cwUp s || !good then s
    else
      let old := s.pair.peer
      let lost := s.pair.peerLost
      let now := nowNs s
      let s := onPair (fun p => { p with
        peer := some hb, peerLost := false, waitOver := p.waitOver && hb.st == 0
        last1 := if cw2 then p.last1 else some now, last2 := if cw2 then some now else p.last2
        seen1 := p.seen1 || !cw2, seen2 := p.seen2 || cw2 }) s
      s |> senseOther other |> onlyIf tie (bump Fld.PAIR_CLOSE_CALL_COUNT) |> peerRegs hb |> homeCheck hb
        |> versionCheck old hb |> peerDecide lost old hb |> takeoverBlocked |> takeBase hb.base)

/-- R472: no heartbeat on a path for three periods; the records not acknowledged go out again (R470, R471). -/
def execPairPathLost (cw2 : Bool) (s : State) : Host.Outcome State Fault Refusal :=
  let ok := if cw2 then Fld.PAIR_STATE_CW2_OK else Fld.PAIR_STATE_CW1_OK
  .next (if !cwUp s || !flag ok s then s
    else
      s |> setFlag ok false |> onPair (fun p => if cw2 then { p with run2 := 0 } else { p with run1 := 0 })
        |> raiseF 0x0A Fld.PAIR_EVENT_PATH |> say Code.PAIR_PATH_LOST
        |> cwResend (cwPath s))

/-- R474: no heartbeat on either path for three periods. -/
def execPairPeerLost (other : Bool) (s : State) : Host.Outcome State Fault Refusal :=
  .next (if !alive s || decide (power s < 2) || pairState s == 5 || s.pair.peerLost then s
    else
      s |> onPair (fun p => { p with peerLost := true, mine := [], unacked := [] }) |> senseOther other
        |> setFld Fld.PAIR_STATE_PEER 15 |> raiseF 0x0A Fld.PAIR_EVENT_PEER_LOST |> say Code.PAIR_PEER_LOST
        |> onlyIf (onStandby s) (takeoverDue Code.PAIR_PEER_LOST))

/-- R468: the partner has stayed in WAITING for 1 s. -/
def execPairWaitExpiry (s : State) : Host.Outcome State Fault Refusal :=
  .next (if alive s && pairState s == 0 && peerIs 0 s then onPair (fun p => { p with waitOver := true }) s else s)

/-- R494: AUTH has read free for 1 ms while the partner reports ACTIVE. -/
def execPairAuthSense (s : State) : Host.Outcome State Fault Refusal :=
  .next (if cwUp s && !s.sup.authDriven && peerIs 1 s then say Code.PAIR_AUTH_SENSE (senseOther false s) else s)

/-! ### Records that a standby side receives (R476 to R484, R490, R491) -/

/-- R475: no SAFETY record within the bound; in a tie the expiry wins. -/
def execSafetyMirrorStale (tie : Bool) (s : State) : Host.Outcome State Fault Refusal :=
  .next (if regionsUp s && !s.saf.auth then safTie tie { s with saf := { s.saf with mirrorStale := true } } else s)

/-- The state of a safety output by its code (Table SAF-7). -/
def sqStateOf (c : Fin 4) : SqState :=
  match c with
  | 0 => .off
  | 1 => .on
  | 2 => .tripped
  | 3 => .fault

/-- R408, R436: a SAFETY record. -/
def execSafetyRecord (sqs : List (Fin 8 × Fin 4)) (req : DWord) (conns : List (Fin 32 × ConnItems)) (split : Bool)
    (s : State) : Host.Outcome State Fault Refusal :=
  .next (if !cwUp s || s.saf.auth then s
    else
      let now := nowNs s
      { s with saf := { s.saf with mirrorReq := some req, mirrorStale := false, mirrorSplit := split } }
        |> forAll sqs (fun e => onSq e.1 (fun x => { x with mirror := some (sqStateOf e.2) }))
        |> forAll conns (fun e => onConn e.1 (fun c => { c with
            mirror := some ⟨e.2.run, e.2.epoch, e.2.seq, e.2.acked, e.2.payload, now - 1000 * e.2.since⟩ })))

/-- The agreed input image of a RELEASE record. -/
def recordInput (vals : List (Tag × DWord × Bool × Bool)) : List (Nat × Sample) :=
  vals.foldl (fun m e => Sparse.insert m e.1.toNat { val := e.2.1, stale := e.2.2.1, invalid := e.2.2.2 }) []

/-- R477: a task released by its record; the watchdog counts from here (R482). -/
def standbyRelease (t cycle : Nat) (cycleTime : DWord) (vals : List (Tag × DWord × Bool × Bool)) (s : State) : State :=
  match taskDef t s with
  | none => s
  | some d =>
    onTask t (fun x => { freshTask d x with
      phase := .ready, held := .no, released := true, pending := false
      interval := if x.released then nowNs s - x.lastRelease else x.interval
      lastRelease := nowNs s, cycleTime := cycleTime.toNat, cycles := cycle, input := recordInput vals, snap := []
      inHdr := x.inHdr + 2 }) (slackEnd s) |> startNext

/-- A standby side in step that cannot follow enters TRACKING (R482, R489). -/
def toTracking (s : State) : State :=
  { s with
    pair := { s.pair with trackAt := some (nowNs s), replay := [], sched := [], mine := [], theirs := [] }
    exe := { s.exe with running := none } }
    |> forAll (List.range 24) (fun u => onTask u (fun y => { y with phase := .idle, wait := .none })) |> pairTo 3

/-- R477, R490: a RELEASE record. DEDUCED: log entry 33. -/
def execReleaseRecord (q : Word) (t : Fin 24) (cycle : Nat) (cycleTime : DWord) (angle : Word)
    (vals : List (Tag × DWord × Bool × Bool)) (s : State) : Host.Outcome State Fault Refusal :=
  .next (cwTake 1 q (fun s =>
    if !onStandby s then s
    else
      let step := ((taskDef t s).map (·.step)).getD 0
      let s := onlyIf ((taskDef t s).any (fun d => d.kind == 1)) (onTask t (fun x => { x with angle := some (angle + step) })) s
      if pairState s != 4 then s
      else if (task t s).phase != .idle then
        toTracking s |> raiseF 0x0A Fld.PAIR_EVENT_STANDBY_FAULT |> say Code.PAIR_STANDBY_FAULT
      else standbyRelease t cycle cycleTime vals s) s)

/-- R477: a SCHED record; a resumption follows from the end of the task that preempted. -/
def execSchedRecord (q : Word) (t : Fin 24) (points : Nat) (resume : Bool) (s : State) : Host.Outcome State Fault Refusal :=
  .next (cwTake 2 q (fun s =>
    if pairState s != 4 || resume then s
    else if s.exe.running == some t.val && decide (points ≤ (task t s).points) then preempt s
    else onPair (fun p => { p with sched := p.sched ++ [(t.val, points)] }) s) s)

/-- R478: a REPLAY record. -/
def execReplayRecord (q : Word) (rec : Replay) (s : State) : Host.Outcome State Fault Refusal :=
  .next (cwTake 3 q (fun s =>
    let t := rec.task.val
    if pairState s != 4 then s
    else match (task t s).wait with
      | .replay rd point => kqEnd t point (onTask t (fun x => kqPut rd (replayRes rec) { x with wait := .none }) s)
      | _ => onPair (fun p => { p with replay := p.replay ++ [rec] }) s) s)

/-- R485, R486: a COMMIT record; `tie` says that the lag budget expires as it arrives. -/
def execCommitRecord (q : Word) (t : Fin 24) (cycle : Nat) (crc : Word) (since : BitVec 16) (tie : Bool) (s : State) :
    Host.Outcome State Fault Refusal :=
  .next (cwTake 4 q (fun s =>
    let c : PairCommit := { task := t, cycle := cycle, crc := crc, since := since.toNat, at_ := nowNs s }
    if pairState s = 1 then activeCompare c tie s
    else if pairState s = 4 then standbyCompare t cycle (onPair (fun p => { p with theirs := (c :: p.theirs).take 256 }) s)
    else s) s)

/-- Apply a granule (Table PAIR-2). DEDUCED: log entry 33. -/
def applyGranule (g : Granule) (s : State) : State :=
  let exe := s.exe
  match g with
  | .tag slot v => tagMemSet slot.toNat v s
  | .data off b => if off < ((exe.image.map (·.dataLen)).getD 0) then mset (dataBase s + off) b s else s
  | .timer i run start q et prevIn =>
    { s with exe := { exe with timers := Sparse.set (fun _ => {}) exe.timers i ⟨run, start, q, et, prevIn⟩ } }
  | .counter i cv up down inited =>
    { s with exe := { exe with
      counters := Sparse.set (fun _ => {}) exe.counters i ⟨cv, if up || down || inited then [up, down] else [], inited⟩ } }
  | .edge i prev init => { s with exe := { exe with edges := Sparse.set (fun _ => {}) exe.edges i ⟨prev, init⟩ } }
  | .force i t v => { s with exe := { exe with forces := Sparse.insert exe.forces i (t.toNat, v) } }
  | .forceOff i => { s with exe := { exe with forces := Sparse.erase exe.forces i } }
  | .output t v => setCommitted t.toNat v s

/-- R490, R491: STATE granules. -/
def execStateRecord (q : Word) (granules : List Granule) (s : State) : Host.Outcome State Fault Refusal :=
  .next (cwTake 5 q (fun s => if inRange (pairState s) 2 3 then forAll granules applyGranule s else s) s)

/-- CD_FABRIC cycles since a record's base; none before it. -/
def cyclesSince (base : DWord) (s : State) : Nat := (execBase s - base.toNat) / 8

/-- Count a TIDE record as agreeing or not, and follow PAIR_TIDE_ALIGN (R483). -/
def tideAlign (n : Nat) (bad now : Bool) (s : State) : State :=
  let b := if bad then min (Sparse.get (fun _ => 0) s.pair.tideBad n + 1) 3 else 0
  let g := if bad || now then 0 else min (Sparse.get (fun _ => 0) s.pair.tideGood n + 1) 3
  let s := onPair (fun p => { p with
    tideBad := Sparse.set (fun _ => 0) p.tideBad n b, tideGood := Sparse.set (fun _ => 0) p.tideGood n g }) s
  if (b = 3 || now) && bitAt Reg.PAIR_TIDE_ALIGN n s then
    setBitAt Reg.PAIR_TIDE_ALIGN n false s |> raiseF 0x0A Fld.PAIR_EVENT_TIDE_MISALIGNED |> say Code.PAIR_TIDE_MISALIGNED
  else if g = 3 then setBitAt Reg.PAIR_TIDE_ALIGN n true s
  else s

/-- R481, R483, R484: a TIDE record. -/
def execTideRecord (n : Fin 8) (locked : Bool) (pos : DWord) (omega : Int) (base : DWord) (s : State) :
    Host.Outcome State Fault Refusal :=
  .next (if !cwUp s || !onStandby s then s
    else
      let x := tide n s
      let c := cyclesSince base s
      let own : BitVec 96 := x.pos - BitVec.ofInt 96 (x.omega * c)
      let diff := (BitVec.ofNat 64 (own.toNat / 2 ^ 32) - pos).toInt
      let bad := decide ((rd Reg.PAIR_TIDE_WIN s).toNat < diff.natAbs)
      let s := tideAlign n bad (locked != (x.st == .locked)) s
      let s := if tideEnabled n s && tideSource n s == 0 then
          onTide n (fun y => { y with
            omega := omega, pos := BitVec.ofNat 96 (pos.toNat * 2 ^ 32) + BitVec.ofInt 96 (omega * c) }) s
        else s
      takeBase base s)

/-- R501: a change operation of the active side on the standby side. -/
def standbyChange (op : Nat) (s : State) : State :=
  match op with
  | 2 => match s.exe.phase, s.exe.inactive with
    | .verified, some _ => if flag Fld.EXE_CTRL_RUN s then changeStart .swap .armed 0 s else changeSync (doSwap false s)
    | _, _ => s
  | 4 => match s.exe.phase, s.exe.previous with
    | .swapped, some _ => if flag Fld.EXE_CTRL_RUN s then changeStart .revert .swapped 0 s else changeSync (doRevert false s)
    | _, _ => s
  | 5 => if s.exe.phase == .swapped then
      changeEnd .none Code.EXE_CHANGE_COMMITTED { s with exe := { s.exe with previous := none } } else s
  | 6 => match s.exe.busy with
    | .swap | .revert | .apply => changeEnd .none Code.EXE_CHANGE_CANCELLED
        { s with exe := { s.exe with inactive := none, previous := none, values := [] } }
    | _ => s
  | _ => s

/-- The CONTROL records that a standby side applies (Table PAIR-2). -/
def standbyControl (r : ControlRec) (s : State) : State :=
  match r with
  | .tag t v => tagStore t.toNat v s
  | .force t v => setForce t.toNat v s
  | .forceClear t => dropForces (· == t.toNat) s
  | .forceClearAll => dropForces (fun _ => true) s
  | .change op => standbyChange op s
  | .values l => { s with exe := { s.exe with busy := .apply, savedPhase := s.exe.phase, needUs := 0, values := l } }
  | .rejoin => if pairState s = 3 then onPair (fun p => { p with rejoin := true }) s else s
  | .resync => syncStart s
  | .track => if inRange (pairState s) 2 4 then say Code.PAIR_TRACKING (toTracking s) else s
  | .verified _ | .reclaim => s

/-- R479, R489, R490, R500, R501: a CONTROL record. -/
def applyControl (r : ControlRec) (s : State) : State :=
  match r with
  | .verified crc => onPair (fun p => { p with peerVerified := some crc }) s
  | .reclaim => if pairState s = 1 && peerInStep s then switchAsk .reclaim s else s
  | .tag _ _ | .force _ _ | .forceClear _ | .forceClearAll | .change _ | .values _ | .rejoin | .resync | .track =>
    onlyIf (onStandby s) (standbyControl r) s

/-- R479: a CONTROL record, taken from the first path that delivers it (R471). -/
def execControlRecord (q : Word) (rec : ControlRec) (s : State) : Host.Outcome State Fault Refusal :=
  .next (cwTake 12 q (applyControl rec) s)

/-- R488, R489: a cycle's lag exceeds its budget, as the active side sees it. -/
def execPairTrailing (t : Fin 24) (cycle : Nat) (s : State) : Host.Outcome State Fault Refusal :=
  .next (if pairState s != 1 || !peerIs 4 s then s
    else match commitOf s.pair.mine t cycle with
      | none => s
      | some m =>
        let n := min (fld Fld.PAIR_LAG_TRAIL_RUN s + 1) 8
        s |> setLag t (nowNs s - m.at_) |> setFld Fld.PAIR_LAG_TRAIL_RUN n
          |> onlyIf (n == 1) (say Code.PAIR_TRAILING) |> onlyIf (n == 8) (cwMirror 12 [12, 4]))

/-- R491: the copy is complete, and the standby side passes to TRACKING. -/
def execSyncComplete (s : State) : Host.Outcome State Fault Refusal :=
  .next (if cwUp s && pairState s == 2 then say Code.PAIR_TRACKING (toTracking s)
    else if cwUp s && peerIs 2 s && allIdle s then cwMirror 12 [12, 4] s
    else s)

/-- R490: a standby side rejoins after 10 s in TRACKING, in a slack. -/
def execTrackingRejoin (s : State) : Host.Outcome State Fault Refusal :=
  .next (if cwUp s && pairState s == 3 && (flag Fld.PAIR_CTRL_REJOIN_AUTO s || s.pair.rejoin)
      && s.pair.trackAt.any (fun a => decide (a + 10000000000 ≤ nowNs s)) && peerIs 1 s then
    onPair (fun p => { p with trackAt := none, rejoin := false }) s |> pairTo 4 |> say Code.PAIR_IN_STEP
  else s)

/-- R487: a yield of the active side has not switched over within SLACK_STARVE. -/
def execYieldExpiry (s : State) : Host.Outcome State Fault Refusal :=
  .next (if alive s && s.pair.switch == .waiting .yield then switchDrop s else s)

/-- R471: an acknowledgement frees what it covers. -/
def execCausewayRecordAck (kind : Fin 13) (q : Word) (s : State) : Host.Outcome State Fault Refusal :=
  .next (if cwUp s then
    onPair (fun p => { p with unacked := p.unacked.filter (fun r => !(r.1 == kind.val && decide ((q - toW r.2.1).toNat < 2 ^ 31))) }) s
  else s)

/-- R470: 10 ms without a slack. -/
def execTideRecordSend (s : State) : Host.Outcome State Fault Refusal :=
  .next (if cwUp s && mirroring s && decide (s.pair.tideSent + 10000000 ≤ nowNs s) then tidesMirror s else s)

/-! ### Commands (R497, R498, R707) -/

/-- A refused command (R707). -/
def pairRefuse (st : Status) (s : State) : State :=
  s |> raiseF 0x0A Fld.PAIR_EVENT_CMD_REFUSED |> result Fld.PAIR_RESULT_STATUS st

/-- A command of PAIR_CMD; one written while BUSY is ignored, but for CANCEL. -/
def pairCmd (cancel : Bool) (f : State → State) (s : State) : State :=
  hostCmd Reg.PAIR_CMD (fun s =>
    if flag Fld.PAIR_RESULT_BUSY s && !cancel then s
    else if pairState s = 5 then pairRefuse Code.PAIR_CMD_INVALID s
    else if pairState s = 1 then f s
    else pairRefuse Code.PAIR_STANDBY_REFUSED s) s

/-- R497: PAIR_CMD SWITCHOVER. -/
def execPairSwitchoverCmd (s : State) : Host.Outcome State Fault Refusal :=
  .next (pairCmd false (fun s =>
    if peerInStep s then switchAsk .command (setFlag Fld.PAIR_RESULT_BUSY true s) else pairRefuse Code.PAIR_NOT_IN_STEP s) s)

/-- R490: PAIR_CMD REJOIN. DEDUCED: log entry 33. -/
def execPairRejoin (s : State) : Host.Outcome State Fault Refusal :=
  .next (pairCmd false (fun s =>
    if peerIs 3 s && s.pair.trackAt.any (fun a => decide (a + 10000000000 ≤ nowNs s)) then
      s |> cwSend 12 [12, 2] |> result Fld.PAIR_RESULT_STATUS Code.PAIR_OK
    else pairRefuse Code.PAIR_CMD_INVALID s) s)

/-- R707: PAIR_CMD RESYNC. DEDUCED: log entry 33. -/
def execPairResync (s : State) : Host.Outcome State Fault Refusal :=
  .next (pairCmd false (fun s =>
    if peerIs 3 s || peerIs 4 s then s |> cwSend 12 [12, 3] |> result Fld.PAIR_RESULT_STATUS Code.PAIR_OK
    else pairRefuse Code.PAIR_CMD_INVALID s) s)

/-- R498: PAIR_CMD CANCEL. DEDUCED: log entry 34. -/
def execPairCancel (s : State) : Host.Outcome State Fault Refusal :=
  .next (pairCmd true (fun s =>
    match s.pair.switch with
    | .waiting w => setFld Fld.PAIR_RESULT_STATUS Code.PAIR_OK.toNat (switchDrop
        { s with
          sup := { s.sup with removing := s.sup.removing && w != .lever }
          fwWait := s.fwWait && w != .firmware })
    | _ => pairRefuse Code.PAIR_CMD_INVALID s) s)

/-! ### The switchover (Table PAIR-8) -/

/-- The HANDOVER record: last committed cycle and release angle of each task, and the execution time base. -/
def handoverData (s : State) : List DWord :=
  [7, toD (execBase s)] ++ (List.range 24).flatMap (fun t =>
    if (taskDef t s).isSome then [toD (t + (task t s).cycles * 2 ^ 8), ((task t s).angle.getD 0).zeroExtend 64] else [])

/-- R498: in a slack the active side sends HANDOVER. -/
def execSwitchoverStart (s : State) : Host.Outcome State Fault Refusal :=
  .next (match s.pair.switch with
  | .waiting w =>
    if cwUp s && pairState s == 1 && peerInStep s && s.pair.mine.isEmpty && slackFits 120000 s then
      cwSend 12 (handoverData s) (onPair (fun p => { p with switch := .sent w }) s)
    else if w == .lever && s.sup.removing && !peerInStep s then removeRefused (switchDrop s)
    else s
  | _ => s)

/-- R498: the standby side checks HANDOVER and returns READY or REFUSE. -/
def execHandoverRecord (q : Word) (cycles : List (Fin 24 × Nat)) (angles : List (Fin 24 × Word)) (base : DWord) (s : State) :
    Host.Outcome State Fault Refusal :=
  .next (cwTake 12 q (fun s =>
    if !onStandby s then s
    else if pairState s = 4 && pairCapable s && allIdle s && cycles.all (fun e => (task e.1 s).cycles == e.2) then
      takeBase base s |> forAll angles (fun e => onTask e.1 (fun x => { x with angle := some e.2 }))
        |> onPair (fun p => { p with switch := .granted }) |> cwSend 12 [8]
    else cwSend 12 [9] s) s)

/-- R498: the active side receives READY and releases AUTH. -/
def execReadyRecord (q : Word) (s : State) : Host.Outcome State Fault Refusal :=
  .next (cwTake 12 q (fun s =>
    match s.pair.switch with
    | .sent w =>
      { s with saf := { s.saf with handover := s.saf.auth } } |> onPair (fun p => { p with switch := .released w })
        |> releaseAuth (switchStatus w)
    | _ => s) s)

/-- R498: the former active side receives TAKEN: it is the standby side now, in step or, after a yield, in SYNCING. -/
def execTakenRecord (q : Word) (s : State) : Host.Outcome State Fault Refusal :=
  .next (cwTake 12 q (fun s =>
    match s.pair.switch with
    | .released w =>
      let s := s |> say (switchStatus w) |> bump Fld.PAIR_COUNTS_SWITCHOVERS |> pairDone (switchStatus w)
        |> onPair (fun p => { pairClear p with unacked := [] })
      if w = .yield then syncStart s else pairTo 4 s
    | _ => s) s)

/-- R499: REFUSE, or no TAKEN within 50 µs; the side claims again (`wantsAuth`). -/
def execPairSwitchFailed (s : State) : Host.Outcome State Fault Refusal :=
  .next (match s.pair.switch with
  | .sent w | .released w =>
    if !alive s || pairState s != 1 then s
    else
      { s with saf := { s.saf with handover := false } }
        |> onPair (fun p => { p with switch := .none }) |> say Code.PAIR_SWITCH_FAILED |> pairDone Code.PAIR_SWITCH_FAILED
        |> onlyIf (w == .lever && s.sup.removing) removeRefused
  | _ => s)

/-- R500: the dwell has run, and the home side asks for a switchover. -/
def execPairReclaim (s : State) : Host.Outcome State Fault Refusal :=
  .next (if cwUp s && dwellRuns s
      && s.pair.dwellAt.any (fun a => decide (a + 1000000000 * fld Fld.PAIR_CFG_RECLAIM_DWELL s ≤ nowNs s)) then
    cwSend 12 [11] s
  else s)

end Sys2Proof.Machine
end

