-- ==== Sys2Proof/Machine/Sequencer.lean ====
section
/-! DEFINITION. Step sequencers (R148 to R165): the meanings of their commands and events. -/
namespace Sys2Proof.Machine

/-- R152: the evaluation slot of a sequencer. -/
def execSqEvaluation (q : Fin 32) (s : State) : Host.Outcome State Fault Refusal :=
  .next (if seqsRun s then seqEval q s else s)

/-- R153: the evaluation at which a time duration has run out. -/
def execSqDurationElapsed (q : Fin 32) (s : State) : Host.Outcome State Fault Refusal :=
  .next (if seqsRun s && (seq q s).st == .run && timeDue (seq q s) (execBase s) then seqEval q s else s)

/-- R156: the evaluation at which TIMEOUT has passed. -/
def execSqTimeout (q : Fin 32) (s : State) : Host.Outcome State Fault Refusal :=
  .next (if seqsRun s && (seq q s).st == .run && timeoutDue (seq q s) s then seqEval q s else s)

/-- A host command for a sequencer (R157, R158). -/
def seqHost (q : Fin 32) (c : SeqCmd) (s : State) : State := hostCmd (Reg.SQs_CMD q) (seqPut q c) s

/-- R157: START. -/
def execSqStart (q : Fin 32) (step : Fin 1024) (s : State) : Host.Outcome State Fault Refusal :=
  .next (seqHost q (.start step) s)

/-- R157: HOLD. -/
def execSqHold (q : Fin 32) (s : State) : Host.Outcome State Fault Refusal := .next (seqHost q .hold s)

/-- R157: RESUME. -/
def execSqResume (q : Fin 32) (s : State) : Host.Outcome State Fault Refusal := .next (seqHost q .resume s)

/-- R157: ABORT. -/
def execSqAbort (q : Fin 32) (s : State) : Host.Outcome State Fault Refusal := .next (seqHost q .abort s)

/-- R157: JUMP. -/
def execSqJump (q : Fin 32) (step : Fin 1024) (s : State) : Host.Outcome State Fault Refusal :=
  .next (seqHost q (.jump step) s)

/-- R158: a W1S write of SQs_SIGNAL. -/
def execSqSignalWrite (q : Fin 32) (sig : Byte) (s : State) : Host.Outcome State Fault Refusal :=
  .next (hostCmd (Reg.SQs_SIGNAL q) (seqSignal q sig) s)

/-- R163, R164: a standby side receives a mirror record. -/
def execSqMirrorRecord (q : Fin 32) (rec : SeqMirror) (s : State) : Host.Outcome State Fault Refusal :=
  .next (if !regionsUp s || !onStandby s then s
    else if stepCrc q rec.step s = rec.crc then onSeq q (fun x => { x with
        mirrorOk := true, mirror := some rec, mirrorAt := (execBase s, tidePos (stepTide (stepWords q rec.step s)) s) }) s
    else sqSay q Code.SQ_MIRROR_MISMATCH (onSeq q (fun x => { x with mirrorOk := false, mirror := some rec }) s))

end Sys2Proof.Machine
end

