-- ==== Sys2Proof/Machine/Tide.lean ====
section
/-! DEFINITION. Tides (R100 to R131): the meanings of their commands and events. -/
namespace Sys2Proof.Machine

/-- R108, R122: the host sets an ENABLE bit. -/
def execTideEnable (n : Fin 8) (s : State) : Host.Outcome State Fault Refusal :=
  .next (hostCmd Reg.TIDE_CTRL (fun s => if tideEnabled n s then s else tideEnable n s) s)

/-- R128: the host clears an ENABLE bit. -/
def execTideDisable (n : Fin 8) (s : State) : Host.Outcome State Fault Refusal :=
  .next (hostCmd Reg.TIDE_CTRL (fun s => if tideEnabled n s then tideDisable n s else s) s)

/-- R122, Table TIDE-9: the host writes a RESYNC bit. -/
def execTideResync (n : Fin 8) (s : State) : Host.Outcome State Fault Refusal :=
  .next (hostCmd Reg.TIDE_CTRL (tideResync n) s)

/-- R130, Table TIDE-10: a write of TIDE_LOCK; a 1 takes effect only while the tide is not enabled. -/
def execTideLockOpen (mask : BitVec 8) (s : State) : Host.Outcome State Fault Refusal :=
  .next (hostCmd Reg.TIDE_LOCK (fun s =>
    forAll (List.range 8) (fun n t => setBitAt Reg.TIDE_LOCK n (mask.getLsbD n && !tideEnabled n s) t) s) s)

/-- The crossing counts for the tide: a running mains tide with its input alive, and with MEAS_EDGES 0 only
the positive-going crossings (Table TIDE-3, R107). -/
def crossingUsed (n : Nat) (positive : Bool) (s : State) : Bool :=
  tideRuns n s && tideSource n s == 1 && tiLive s && (positive || flag (Fld.TDn_CFG_MEAS_EDGES n) s)

/-- R106, R107: a mains crossing located `ageNs` before now; `tie` says that a miss fires in this cycle. -/
def execMainsCrossing (n : Fin 8) (positive : Bool) (peakMv ageNs : Nat) (tie : Bool) (s : State) :
    Host.Outcome State Fault Refusal :=
  .next (if crossingUsed n positive s then
    s |> onlyIf tie (bump Fld.TIDE_CLOSE_CALL_COUNT) |> mainsCrossing n positive peakMv (nowNs s - ageNs)
  else s)

/-- R107: the tracker passed the expected crossing. -/
def execTideMiss (n : Fin 8) (s : State) : Host.Outcome State Fault Refusal :=
  .next (if tideSource n s == 1 && ((tide n s).st == .acquire || (tide n s).st == .locked) && alive s
    then tideMiss n s else s)

/-- The edges of the tide's pair count (R116, R129). -/
def edgesLive (n src : Nat) (s : State) : Bool :=
  tideRuns n s && tideSource n s == src && tiLive s && !tideLineFault n s

/-- R109, R110: a filtered edge of A or B, `forward` by the lines' own sense; `both` is a double change. -/
def execEncoderEdge (n : Fin 8) (both forward : Bool) (s : State) : Host.Outcome State Fault Refusal :=
  .next (if !edgesLive n 2 s then s
  else if both then
    s |> setFlag (Fld.TDn_STATUS_QUAD_ERR n) true |> bump (Fld.TDn_COUNTS_QUAD n)
      |> onTide n (fun x => { x with reject := true }) |> say Code.TIDE_QUAD_ERROR
  else moveP n (forward != flag (Fld.TDn_CFG_DIR_INVERT n) s) s)

/-- R111: a filtered rising edge of the step input, with the direction sampled. -/
def execStepEdge (n : Fin 8) (forward : Bool) (s : State) : Host.Outcome State Fault Refusal :=
  .next (if edgesLive n 3 s then moveP n (forward != flag (Fld.TDn_CFG_DIR_INVERT n) s) s else s)

/-- R115: a rising edge of Z. -/
def execIndexPulse (n : Fin 8) (s : State) : Host.Outcome State Fault Refusal :=
  .next (if edgesLive n 2 s || edgesLive n 3 s then indexPulse n s else s)

/-- R113, R114, R117: a 1 µs interval ends. -/
def execTideMeasurement (n : Fin 8) (s : State) : Host.Outcome State Fault Refusal :=
  .next (if regionsUp s then tideMeasure n s else s)

/-- R116: a differential line falls below 200 mV for 1 µs, or stands above it again. -/
def execTideLineFault (input : Fin 4) (z present : Bool) (s : State) : Host.Outcome State Fault Refusal :=
  .next (if regionsUp s then lineFault input z present s else s)

/-- R120: the tide's update slot. -/
def execTrackerUpdate (n : Fin 8) (s : State) : Host.Outcome State Fault Refusal :=
  .next (if regionsUp s then trackerUpdate n s else s)

/-- R127: HOLD_LIMIT expires. -/
def execTideLost (n : Fin 8) (tie : Bool) (s : State) : Host.Outcome State Fault Refusal :=
  .next (if alive s then tideLost n tie s else s)

/-- R129: the reference check of the TI front ends fails. -/
def execTideBankFault (s : State) : Host.Outcome State Fault Refusal :=
  .next (if regionsUp s then tiBankFault s else s)

end Sys2Proof.Machine
end

