-- ==== Sys2Proof/Machine/TideTable.lean ====
section
/-! DEFINITION. The tide table (R132 to R147, R166): the meanings of its commands and events. -/
namespace Sys2Proof.Machine

/-- R134: TT_CMD WRITE. -/
def execTtWrite (s : State) : Host.Outcome State Fault Refusal :=
  .next (hostCmd Reg.TT_CMD (fun s =>
    let d := fun w => rd (Reg.TT_DATA w) s
    let r := ttCommit true (fld Fld.TT_SEL_INDEX s) (d 0) (d 1) (d 2) (d 3) (d 4) s
    setFld Fld.TT_RESULT_STATUS r.1.toNat r.2) s)

/-- R134: TT_CMD READ. -/
def execTtRead (s : State) : Host.Outcome State Fault Refusal :=
  .next (hostCmd Reg.TT_CMD (fun s =>
    let e := ttEntry (fld Fld.TT_SEL_INDEX s) s
    forAll ([e.w0, e.w1, e.w2, e.w3, e.w4, e.w5, e.w6, e.w7].mapIdx (fun i w => (i, w))) (fun p => wr (Reg.TT_DATA p.1) p.2)
      (result Fld.TT_RESULT_STATUS Code.TIDE_OK s)) s)

/-- R133: TT_CMD RETIRE. -/
def execTtRetire (s : State) : Host.Outcome State Fault Refusal :=
  .next (hostCmd Reg.TT_CMD (fun s =>
    let r := ttRetireBy true (fld Fld.TT_SEL_INDEX s) s
    setFld Fld.TT_RESULT_STATUS r.1.toNat r.2) s)

/-- R133, Table TIDE-35: a write of TT_PARTITION. -/
def execTtPartitionWrite (value : Word) (s : State) : Host.Outcome State Fault Refusal :=
  .next (hostCmd Reg.TT_PARTITION (fun s =>
    if s.tt.any (fun x => ttValid x.2) then result Fld.TT_RESULT_STATUS Code.TT_PARTITION_BUSY s
    else setFld Fld.TT_PARTITION_HOST_FIRST (Nat.min (value.toNat % 8192) 4096) s) s)

/-- The tide-capable output of a bit of TT_CLAIM. -/
def claimCode (b : Nat) : Nat := if b < 8 then b else 0x100 + (b - 8)

/-- R143: a write of TT_CLAIM; a writer starts at 0 from its claim on. -/
def execTtClaimWrite (value : Word) (s : State) : Host.Outcome State Fault Refusal :=
  .next (hostCmd Reg.TT_CLAIM (fun s =>
    let fresh := (List.range 12).filter (fun b => value.getLsbD b && !bitAt Reg.TT_CLAIM b s)
    forAll fresh (fun b => onTTOut (claimCode b) (fun x => { lineFailed := x.lineFailed }))
      (wr Reg.TT_CLAIM (value &&& 0xFFF) s)) s)

/-- R136: the scanner visits an entry. -/
def execTtScanVisit (i : Fin 4096) (s : State) : Host.Outcome State Fault Refusal :=
  .next (if regionsUp s then ttVisit i s else s)

/-- R137: an armed entry's tide crosses its angle; `step` is the placement of R144 in 250 ps. -/
def execTtFire (i : Fin 4096) (forward : Bool) (step : Fin 32) (dropped : Bool) (s : State) :
    Host.Outcome State Fault Refusal :=
  let e := ttEntry i s
  .next (if ttRuns s && ttValid e && e.armed && ttDirOk e forward && tideRuns (ttTide e) s then ttFire i forward step dropped s
    else s)

/-- R138: a missed crossing with LATE_POLICY 1 fires in the cycle after the scanner found it, with no placement. -/
def execTtLateFire (i : Fin 4096) (s : State) : Host.Outcome State Fault Refusal :=
  .next (match (ttEntry i s).late with
  | none => s
  | some f =>
    let t := onTT i (fun x => { x with late := none }) s
    if ttRuns s && ttValid (ttEntry i s) then ttFire i f 0 false t else t)

/-- R135: a PULSE ends. -/
def execPulseTrailingEdge (out : TideOut) (s : State) : Host.Outcome State Fault Refusal :=
  let c := tideOutCode out
  .next (if regionsUp s && (ttOut c s).trailing.isSome then onTTOut c (fun x => { x with value := false, trailing := none, shadow := false }) s
    else s)

/-- R146: a delay line is calibrated; a failure marks the output invalid. -/
def execTtCalibration (out : TideOut) (ok : Bool) (s : State) : Host.Outcome State Fault Refusal :=
  let c := tideOutCode out
  .next (if !regionsUp s || ok || (ttOut c s).lineFailed then s
    else s |> onTTOut c (fun x => { x with lineFailed := true, placed := 0 })
      |> setBitAt Reg.TT_CAL_STATUS (if c < 8 then c else 8 + (c - 0x100)) true
      |> say Code.TT_CAL_FAIL)

/-- R166, Table TIDE-32: a double-bit error retires an entry, and puts a sequencer in RUN or HELD to FAULT. -/
def execTtMemErr (place : MemErr) (s : State) : Host.Outcome State Fault Refusal :=
  .next (if !regionsUp s then s
    else match place with
      | .entry i => ttSay i Code.TT_MEM_ERR (onTT i ttRetire s)
      | .step q => if (seq q s).st == .run || (seq q s).st == .held then seqFault q (sqSay q Code.SQ_MEM_ERR s) else s)

end Sys2Proof.Machine
end

