-- ==== Sys2Proof/Machine/Cmd.lean ====
section
/-! DEFINITION. What a word written to a command register commands: the debugger's writes of the control window go this
way (R647). An operand that the environment gives a command is a free value here (log entry 3). -/
namespace Sys2Proof.Machine

/-- The state that a meaning answers. -/
def after (o : Host.Outcome State Fault Refusal) (s : State) : State :=
  match o with
  | .next t => t
  | _ => s

/-- The next free value is used. -/
def spent (s : State) : State := { s with freeCtr := s.freeCtr + 1 }

/-- The i of a row of registers. -/
def rowOf (a base stride count : Nat) : Option Nat :=
  if decide (base ≤ a) && (a - base) % stride == 0 && decide ((a - base) / stride < count) then some ((a - base) / stride) else none

abbrev Meaning := State → Host.Outcome State Fault Refusal

/-- The meaning that an OP field selects; another value is ignored. -/
def byOp (op : Nat) (l : List (Nat × Meaning)) (s : State) : State :=
  match l.find? (fun e => e.1 == op) with
  | some e => after (e.2 s) s
  | none => s

/-- A write of TIDE_CTRL: ENABLE and RESYNC of each tide (Table TIDE-9). -/
def tideCtrlWrite (v : Word) (s : State) : State :=
  forAll (List.range 8) (fun i t =>
    let n := Fin.ofNat 8 i
    let u := after (if v.getLsbD i then execTideEnable n t else execTideDisable n t) t
    if v.getLsbD (8 + i) then after (execTideResync n u) u else u) s

/-- Commands of TIDE and EXE. -/
def cmdTide (a : Nat) (v : Word) (s : State) : Option State :=
  let op := v.toNat / 2 ^ 28
  let lo := v.toNat % 16
  let step := Fin.ofNat 1024 v.toNat
  if a = Reg.TIDE_CTRL then some (tideCtrlWrite v s)
  else if a = Reg.TIDE_LOCK then some (after (execTideLockOpen (v.setWidth 8) s) s)
  else if a = Reg.TT_CMD then some (byOp lo [(1, execTtWrite), (2, execTtRead), (3, execTtRetire)] s)
  else if a = Reg.TT_PARTITION then some (after (execTtPartitionWrite v s) s)
  else if a = Reg.TT_CLAIM then some (after (execTtClaimWrite v s) s)
  else if a = Reg.EXE_CTRL then some (after (execExeRunWrite (v.getLsbD 0) s) s)
  else if a = Reg.EXE_CHANGE_CMD then
    some (byOp lo [(1, execChangeVerify), (2, execChangeArm), (3, fun t => execChangeCancel ((Config.freeValue t.freeCtr).getLsbD 0)
        (spent t)), (4, execChangeRevert), (5, execChangeCommit), (6, execChangeValues)] s)
  else if a = Reg.EXE_FORCE_CMD then
    some (byOp (lo % 8) [(1, execForceSet), (2, execForceClear), (3, execForceClearAll), (4, execForceRead)] s)
  else if a = Reg.EXE_EVT_SIGNAL then some (after (execExeEvtSignalWrite (v.setWidth 16) s) s)
  else match rowOf a (Reg.SQs_CMD 0) 0x20 32, rowOf a (Reg.SQs_SIGNAL 0) 0x20 32 with
    | some i, _ =>
      let q := Fin.ofNat 32 i
      some (byOp op [(1, execSqStart q step), (2, execSqHold q), (3, execSqResume q), (4, execSqAbort q), (5, execSqJump q step)] s)
    | _, some i => some (after (execSqSignalWrite (Fin.ofNat 32 i) (v.setWidth 8) s) s)
    | _, _ => none

/-- Commands of LOOP, DIO, RFX, ANA and TRIAD. -/
def cmdField (a : Nat) (v : Word) (s : State) : Option State :=
  let op := v.toNat / 2 ^ 28
  let lo := v.toNat % 16
  let k := Fin.ofNat 4 v.toNat
  let b := Fin.ofNat 32 v.toNat
  let free := (Config.freeValue s.freeCtr).getLsbD 0
  let t := spent s
  if a = Reg.LOOP_CTRL then some (after (execLoopRunWrite (v.getLsbD 0) s) s)
  else if a = Reg.LOOP_CMD then
    some (byOp lo [(1, execLoopLoad), (2, execLoopRead), (3, execLoopSetPar), (4, execLoopGetPar), (5, execLoopSetSp),
      (6, execLoopSetMode), (7, execLoopReadItem), (8, execLoopClear)] s)
  else if a = Reg.LOOP_BANK_REEN then
    some (if v.getLsbD 31 then after (execLoopBankReen (Fin.ofNat 128 v.toNat) s) s else s)
  else if a = Reg.TRACE_CMD then
    some (byOp op [(1, execTraceArm b), (2, execTraceStop b), (3, execTraceTrigger b), (4, execTraceClear b)] s)
  else if a = Reg.DIO_REARM then some (after (execDioRearm v s) s)
  else if a = Reg.DIO_BANK_CMD then some (byOp op [(1, execDioBankReenable k), (2, execDioBankRecover k free)] t)
  else if a = Reg.RFX_CMD then
    some (byOp lo [(1, execRfxWrite), (2, execRfxRead), (3, execRfxDisable), (4, execRfxResetLatch)] s)
  else if a = Reg.ANA_HART_CMD then
    some (after (execAnaHartCmd (BitVec.ofNat 16 (v.toNat / 65536)) (v.setWidth 8) s) s)
  else if a = Reg.ANA_ENABLE then some (after (execAnaChannelEnable (v.setWidth 16) s) s)
  else if a = Reg.ANA_LOCK then some (after (execAnaLockOpen (v.setWidth 16) s) s)
  else if a = Reg.ANA_BANK_CMD then some (byOp op [(2, execAnaBankRecover k free)] t)
  else if a = Reg.TRIAD_CMD then some (byOp op [(1, execTriadUnretire k)] s)
  else match rowOf a (Reg.DIO_BANKk_CFG 0) 0x10 4 with
    | some i => some (let u := hostCmd a (writeReg a v 0) s; after (execDioBankEnable (Fin.ofNat 4 i) (v.getLsbD 31) u) u)
    | none => none

/-- Commands of PAIR, NET and CAN. -/
def cmdLink (a : Nat) (v : Word) (s : State) : Option State :=
  let op := v.toNat / 2 ^ 28
  let lo := v.toNat % 16
  let c := Fin.ofNat 4 (v.toNat / 64)
  let b := Fin.ofNat 64 v.toNat
  let d := Config.freeValue s.freeCtr
  let free := d.getLsbD 0
  let t := spent s
  if a = Reg.PAIR_CMD then
    some (byOp op [(1, execPairSwitchoverCmd), (2, execPairRejoin), (3, execPairResync), (4, execPairCancel)] s)
  else if a = Reg.NET_CTRL then some (after (execNetCtrlWrite v (d.setWidth 4) t) t)
  else if a = Reg.PTP_CMD then some (byOp op [(1, execPtpAcceptStep), (2, execPtpCancelStep)] s)
  else if a = Reg.GSE_CMD then some (byOp lo [(1, execGseWrite), (2, execGseRead), (3, execGseDisable)] s)
  else if a = Reg.LNCH_CMD then some (byOp lo [(1, execLnchWrite), (2, execLnchRead), (3, execLnchDisable)] s)
  else if a = Reg.RING_CTRL then some (after (execRingRunWrite (v.getLsbD 0) s) s)
  else if a = Reg.CAN_CTRL then some (after (execCanChannelEnable v s) s)
  else if a = Reg.CAN_CMD then
    some (byOp op [(1, execCanRequest c b), (2, execCanCancel c b free), (3, execCanRelease c b free), (4, execCanClearClash c b),
      (5, execCanRecover c), (6, execCanRecoverCh c free)] t)
  else match canPlace a with
    | some (c, b, w) => some (after (execCanBufferWrite (Fin.ofNat 4 c) (Fin.ofNat 64 b) (Fin.ofNat 32 w) v s) s)
    | none => none

/-- Commands of STRAND, CLK, MBX, LCY, FWU, SUP and QUE. The MPU block takes no write of M9 (Table MPU-2). -/
def cmdSystem (a : Nat) (v : Word) (s : State) : Option State :=
  let op := v.toNat / 2 ^ 28
  let target : Byte := BitVec.ofNat 8 (v.toNat / 256)
  let free := (Config.freeValue s.freeCtr).getLsbD 0
  let t := spent s
  if a = Reg.STR_CMD then some (byOp op [(1, execStrFreeze), (2, execStrThaw free), (3, execStrRead free), (4, execStrLog)] t)
  else if a = Reg.STR_RL_CFG then some (after (execStrRlCfgWrite v s) s)
  else if a = Reg.CLK_STATUS then some (if v.getLsbD 31 then after (execClkOsfClear free t) t else s)
  else if a = Reg.CLK_CMD then
    some (byOp op [(1, execClkSetTicks), (2, execClkSetCal), (3, execClkReadCal), (4, execClkRegsValidate)] s)
  else if a = Reg.MBX_CTRL then some (if v.getLsbD 0 then after (execMbxBindLock s) s else s)
  else if a = Reg.MBX_LOCK_FORCE_LO || a = Reg.MBX_LOCK_FORCE_HI then
    some (after (execMbxLockForce (a == Reg.MBX_LOCK_FORCE_HI) v s) s)
  else if a = Reg.LCY_CMD then
    some (byOp op [(1, execLcyTransition target (v.setWidth 8)), (2, execLcyRevokeKey (Fin.ofNat 2 target.toNat)),
      (3, execLcyDbgClose), (4, execLcyNewNonce)] s)
  else if a = Reg.LCY_DBG_TOKEN then some (after (execLcyDbgTokenWrite v s) s)
  else if a = Reg.FWU_CMD then
    some (byOp op [(1, execFwuProgram), (2, execFwuVerify free), (3, execFwuActivate (v.getLsbD 27)), (4, execFwuReject),
      (5, execFwuAbort)] t)
  else if a = Reg.SUP_PWR_CMD then
    some (match v.toNat % 16 with
      | 0 => after (execPowerCmdOff s) s
      | 1 => after (execPowerCmdQuiet s) s
      | 2 => after (execPowerCmdReady s) s
      | 3 => after (execPowerCmdRun s) s
      | 4 => after (execPowerCmdHold s) s
      | _ => hostCmd a (writeReg a v 0) s)
  else if a = Reg.SUP_CMD then
    some (byOp op [(1, execSupReset target), (2, execSupRecover (Fin.ofNat 16 v.toNat) free)] t)
  else if a = Reg.QUE_EN_LO || a = Reg.QUE_EN_HI then some (after (execQueEnable (a == Reg.QUE_EN_HI) v s) s)
  else match rowOf a (Reg.CLK_BREG 0) 4 16, rowOf a (Reg.QUEq_HEAD 0) 0x20 64, rowOf a (Reg.QUEq_TAIL 0) 0x20 64 with
    | some i, _, _ => some (after (execClkBregWrite (Fin.ofNat 16 i) v s) s)
    | _, some q, _ => some (after (execQueHeadWrite (Fin.ofNat 64 q) (v.setWidth 16) s) s)
    | _, _, some q => some (after (execQueTailWrite (Fin.ofNat 64 q) (v.setWidth 16) s) s)
    | _, _, _ => none

/-- A write of M9 in the MBX block's mailboxes and lock registers: M9 is bound to no mailbox (R620, R625). -/
def cmdMailbox (a : Nat) (v : Word) (s : State) : Option State :=
  match rowOf a (Reg.MBX_LOCK 0) 4 64 with
  | some i => some (after (execMbxLockWrite 9 (Fin.ofNat 64 i) v s) s)
  | none =>
    if inRange a 0x100100 0x1003FF then
      some (match rowOf a (Reg.MBXm_BIND 0) 0x20 24 with
        | some m => after (execMbxBindWrite (Fin.ofNat 24 m) v s) s
        | none => hostCmd a (say Code.MBX_NOT_BOUND) s)
    else none

/-- A word that M9 writes to a register of the control window. DEDUCED: log entry 52. -/
def regWrite9 (a : Nat) (v : Word) (s : State) : State :=
  match (cmdTide a v s).or ((cmdField a v s).or ((cmdLink a v s).or ((cmdSystem a v s).or (cmdMailbox a v s)))) with
  | some t => t
  | none => hostCmd a (writeReg a v 0) s

/-- A read by M9 of a register of the control window. -/
def regRead9 (a : Nat) (s : State) : Word × State :=
  match rowOf a (Reg.MBX_LOCK 0) 4 64 with
  | some i =>
    let h := ((lockHolder i s).map (·.master)).getD 9
    (toW (h * 256 + (lockHolder i s).isNone.toNat), lockTry i 9 0 s)
  | none =>
    if inRange a 0x100100 0x1003FF && (rowOf a (Reg.MBXm_BIND 0) 0x20 24).isNone then (0, say Code.MBX_NOT_BOUND s)
    else readReg a s

end Sys2Proof.Machine
end

