-- ==== Sys2Proof/Machine/Debug.lean ====
section
/-! DEFINITION. Accesses of the debugger, M9 (R647): the lock check of Table LCY-4, then the protection check. -/
namespace Sys2Proof.Machine

/-- Groups of targets of Table LCY-4. -/
inductive Reach where
  | control | host | process | image | flash | closed | unmapped
  deriving DecidableEq, Repr

/-- The group of an internal address. A window of BAR0 belongs to what it reaches. -/
def reachOf (a : Nat) : Reach :=
  let group := fun t =>
    if t ≤ 0x09FFFFFF || inRange t 0x200000000 0x2003FFFFF then Reach.image
    else if inRange t 0x0A000000 0x0AFFFFFF || inRange t 0x10000000 0x181FFFFF || inRange t 0x200400000 0x2004FFFFF
      || inRange t 0x201000000 0x2019FFFFF then .process
    else if inRange t 0x0C000000 0x0FFFFFFF || inRange t 0x20000000 0x1FFFFFFFF then .host
    else if inRange t 0x300000000 0x37FFFFFFF then .flash
    else if t ≤ 0x1FFFFFFF then .closed
    else .unmapped
  if 0x404000000 ≤ a then .unmapped
  else match behind a with
    | .mem t | .dir t => group t
    | .tags _ => .process
    | .regs w => if inRange w 0x080000 0x08FFFF then .closed else .control
    | .list _ | .nothing => .control

/-- The part is locked in the present lifecycle state (Table LCY-4). -/
def debugLocked (a : Nat) (k : Acc) (s : State) : Bool :=
  let open_ := s.lcy.st.val == 0 || s.lcy.st.val == 1 || s.lcy.st.val == 4
  let session := s.lcy.st.val == 2 && flag Fld.LCY_DBG_STATUS_OPEN s
  match reachOf a with
  | .unmapped => false
  | .closed => true
  | .host => !open_ && !session
  | .control | .process => !open_ && !(session && k == .read)
  | .image => !open_
  | .flash => !open_ || k == .write

/-- A part that the lock check or the protection check turned away: address, and the cause of the protection check. -/
abbrev DebugDenied := Nat × Option Nat

/-- The check of one part (R647, R612). -/
def debugCause (a : Nat) (k : Acc) (s : State) : Option DebugDenied :=
  if debugLocked a k s then some (a, none) else (partCause 9 a k s).map (fun (d : Nat × Nat) => (d.1, some d.2))

/-- Read the words of registers that a part touches. -/
def regsRead9 (l : List (Nat × Nat)) (s : State) : List Byte × State :=
  match l with
  | [] => ([], s)
  | (off, n) :: rest =>
    let r := regRead9 (off / 4 * 4) s
    let more := regsRead9 rest r.2
    (((leBytes 4 r.1.toNat).drop (off % 4)).take n ++ more.1, more.2)

/-- Write the words of registers that a part covers whole (R9). -/
def regsWrite9 (l : List (Nat × Nat)) (data : List Byte) (s : State) : State :=
  match l with
  | [] => s
  | (off, n) :: rest =>
    regsWrite9 rest (data.drop n) (if n = 4 then regWrite9 off (toW (leNat (data.take 4))) s else s)

/-- Read the parts of an access of M9: bytes and the parts turned away, first to last. -/
def debugRead (parts : List (Nat × Nat)) (s : State) : (List Byte × List DebugDenied) × State :=
  match parts with
  | [] => (([], []), s)
  | (a, n) :: rest =>
    let one := match debugCause a .read s with
      | some d => ((List.replicate n 0, [d]), s)
      | none => match behind a with
        | .regs off => let r := regsRead9 (accParts 4 17 off n) s; ((r.1, []), r.2)
        | _ => let r := partRead 9 a n s; ((r.1.1, (r.1.2.map (fun (d : Nat × Nat) => (d.1, some d.2))).toList), r.2)
    let more := debugRead rest one.2
    ((one.1.1 ++ more.1.1, one.1.2 ++ more.1.2), more.2)

/-- Write the parts of an access of M9: the parts turned away, first to last. -/
def debugWrite (parts : List (Nat × Nat)) (l : List Byte) (s : State) : List DebugDenied × State :=
  match parts with
  | [] => ([], s)
  | (a, n) :: rest =>
    let one := match debugCause a .write s with
      | some d => ([d], s)
      | none => match behind a with
        | .regs off => ([], regsWrite9 (accParts 4 17 off n) (l.take n) s)
        | _ => let r := partWrite 9 a (l.take n) s; ((r.1.map (fun (d : Nat × Nat) => (d.1, some d.2))).toList, r.2)
    let more := debugWrite rest (l.drop n) one.2
    (one.1 ++ more.1, more.2)

/-- Record what an access turned away (R647, R613): DBG_DENY with the cause of the last part, the last locked address, one
event for locked parts, and one denial for the first part that the protection check denied. DEDUCED: log entry 52. -/
def debugRecord (k : Acc) (l : List DebugDenied) (s : State) : State :=
  let locked := l.filter (fun d => d.2.isNone)
  let denied := l.filterMap (fun d => d.2.map (fun c => (d.1, c)))
  s |> onlyIf (!l.isEmpty) (fun t => t |> setFlag Fld.LCY_DBG_STATUS_DBG_DENY true
        |> setFlag Fld.LCY_DBG_STATUS_CAUSE ((l.getLast?).any (fun d => d.2.isSome)))
    |> (fun t => match locked.getLast? with
      | some d => say Code.LCY_DBG_LOCKED (wr64 Reg.LCY_DBG_DENY_LO (toD d.1) t)
      | none => t)
    |> denyFirst 9 k denied.head?

/-- The access with its accesses of registers made as M9. -/
def debugMem (write : Bool) (a n : Nat) (data : List Byte) (s : State) : State :=
  let s := { s with accMaster := 9 }
  let t := if write then
      let r := debugWrite (accParts 64 5 a n) ((data ++ List.replicate n 0).take n) s
      debugRecord .write r.1 r.2
    else
      let r := debugRead (accParts 64 5 a n) s
      debugRecord .read r.1.2 { r.2 with dbgData := r.1.1, freeCtr := r.2.freeCtr + 1 }
  { t with accMaster := 8 }

/-- R647: an access of M9. -/
def execDebugAccess (write : Bool) (addr : BitVec 36) (len : Fin 257) (data : List Byte) (s : State) :
    Host.Outcome State Fault Refusal :=
  .next (if !alive s || !flag Fld.MOD_STATUS_START_DONE s then s else debugMem write addr.toNat len.val data s)

end Sys2Proof.Machine
end

