-- ==== Sys2Proof/Machine/KqInst.lean ====
section
/-! DEFINITION. Timers, counters, edge detection and the calendar of the Kloquakor instructions (R246 to R250). Each
instruction is a commit point and sets Z when RD is 0 (R258). -/
namespace Sys2Proof.Machine

/-- Z when RD is 0; N unchanged. -/
def zRes (v : DWord) : KqRes := { val := v, z := some (v == 0) }

/-- The instruction names an instance that the image defines, of a kind that `p` accepts (R246). -/
def instOk (l : List (Nat × InstDef)) (i size : Nat) (p : InstKind → Bool) : Bool :=
  decide (i < size) && (Sparse.find l i).any (fun d => p d.kind)

/-- The end of an instance instruction: RD, Z, and the commit point. -/
def instEnd (t : Nat) (rd : Fin 64) (v : DWord) (s : State) : State := commitPoint t (onTask t (kqPut rd (zRes v)) s)

def kqTimer (i : Nat) (s : State) : Timer := Sparse.get (fun _ => {}) s.exe.timers i
def setKqTimer (i : Nat) (x : Timer) (s : State) : State :=
  { s with exe := { s.exe with timers := Sparse.set (fun _ => {}) s.exe.timers i x } }
def kqCounter (i : Nat) (s : State) : Counter := Sparse.get (fun _ => {}) s.exe.counters i
def setKqCounter (i : Nat) (x : Counter) (s : State) : State :=
  { s with exe := { s.exe with counters := Sparse.set (fun _ => {}) s.exe.counters i x } }
def kqEdge (i : Nat) (s : State) : Edge := Sparse.get (fun _ => {}) s.exe.edges i
def setKqEdge (i : Nat) (x : Edge) (s : State) : State :=
  { s with exe := { s.exe with edges := Sparse.set (fun _ => {}) s.exe.edges i x } }

/-! ### Timers (R246) -/

/-- The time since START. -/
def elapsed (x : Timer) (now : Nat) : Int := (now : Int) - x.start

/-- START := now and RUN := 1 when the timer does not run. -/
def timerStart (now : Nat) (x : Timer) : Timer := if x.run then x else { x with run := true, start := now }

def stepTon (inp : Bool) (now : Nat) (pt : Int) (x : Timer) : Timer :=
  if !inp then { x with run := false, et := 0, q := false }
  else
    let x := timerStart now x
    { x with et := min (elapsed x now) pt, q := decide (pt ≤ elapsed x now) }

/-- A running timer ends at PT, or shows its elapsed time. -/
def timerRun (now : Nat) (pt : Int) (x : Timer) : Timer :=
  if pt ≤ elapsed x now then { x with run := false, q := false, et := pt } else { x with et := elapsed x now }

def stepTof (inp : Bool) (now : Nat) (pt : Int) (x : Timer) : Timer :=
  if inp then { x with run := false, et := 0, q := true }
  else if x.q then timerRun now pt (timerStart now x)
  else x

def stepTp (inp : Bool) (now : Nat) (pt : Int) (x : Timer) : Timer :=
  let x := if x.run then timerRun now pt x else x
  let x := if !x.run && inp && !x.prevIn then
      let y := { x with start := now, et := 0 }
      if 0 < pt then { y with run := true, q := true } else y
    else x
  let x := if !x.run && !inp then { x with et := 0 } else x
  { x with prevIn := inp }

/-- A timer instruction: IN is bit 0 of RA, PT is RD as signed ns, and now is the task's cycle time (R246). -/
def kqTimerOp (k : InstKind) (step : Bool → Nat → Int → Timer → Timer) (rd ra : Fin 64) (i : Nat) (s : State) :
    Host.Outcome State Fault Refusal :=
  .next (kqRun (fun t s =>
    if !instOk (kqImage s).timers i 8192 (· == k) then kqFault Code.KQ_INDEX t s
    else
      let x := task t s
      let y := step ((kAt x ra).getLsbD 0) x.cycleTime (max 0 (kAt x rd).toInt) (kqTimer i s)
      instEnd t rd (boolD y.q) (setKqTimer i y s)) s)

/-- R246: TON. -/
def execTon (rd ra : Fin 64) (x : BitVec 14) (s : State) : Host.Outcome State Fault Refusal :=
  kqTimerOp .ton stepTon rd ra x.toNat s

/-- R246: TOF. -/
def execTof (rd ra : Fin 64) (x : BitVec 14) (s : State) : Host.Outcome State Fault Refusal :=
  kqTimerOp .tof stepTof rd ra x.toNat s

/-- R246: TP. -/
def execTp (rd ra : Fin 64) (x : BitVec 14) (s : State) : Host.Outcome State Fault Refusal :=
  kqTimerOp .tp stepTp rd ra x.toNat s

/-- R247: TET. -/
def execTet (rd : Fin 64) (x : BitVec 14) (s : State) : Host.Outcome State Fault Refusal :=
  .next (kqRun (fun t s =>
    if !instOk (kqImage s).timers x.toNat 8192 (fun k => k == .ton || k == .tof || k == .tp) then kqFault Code.KQ_INDEX t s
    else instEnd t rd (BitVec.ofInt 64 (kqTimer x.toNat s).et) s) s)

/-! ### Counters (R248) -/

/-- The stored level of the up input, or of the down input. -/
def prevUp (x : Counter) : Bool := x.prev.getD 0 false
def prevDown (x : Counter) : Bool := x.prev.getD 1 false

def cvUp (v : DWord) : DWord := if v = 0x7FFFFFFFFFFFFFFF#64 then v else v + 1
def cvDown (v : DWord) : DWord := if v = 0x8000000000000000#64 then v else v - 1

/-- One execution: the levels of the count inputs that the instruction has, its R and LD, and PV. At the first
execution the inputs are stored and nothing is counted. -/
def stepCounter (up down : Option Bool) (r ld : Bool) (pv : DWord) (x : Counter) : Counter :=
  let rise := fun (new : Option Bool) (old : Bool) => x.inited && new.getD false && !old
  let u := rise up (prevUp x)
  let d := rise down (prevDown x)
  let cv := if r then 0 else if ld then pv
    else if u && !d then cvUp x.cv else if d && !u then cvDown x.cv else x.cv
  { cv := cv, prev := [up.getD (prevUp x), down.getD (prevDown x)], inited := true }

/-- QU and QD (Table KQ-17). -/
def cvFull (x : Counter) (pv : DWord) : Bool := decide (pv.toInt ≤ x.cv.toInt)
def cvEmpty (x : Counter) : Bool := decide (x.cv.toInt ≤ 0)

/-- A counter instruction: its inputs are bits of RA, PV is RD. -/
def kqCounterOp (step : DWord → DWord → Counter → Counter) (q : Counter → DWord → DWord) (rd ra : Fin 64) (i : Nat) (s : State) :
    Host.Outcome State Fault Refusal :=
  .next (kqRun (fun t s =>
    if !instOk (kqImage s).counters i 4096 (· == .counter) then kqFault Code.KQ_INDEX t s
    else
      let x := task t s
      let pv := kAt x rd
      let y := step (kAt x ra) pv (kqCounter i s)
      instEnd t rd (q y pv) (setKqCounter i y s)) s)

/-- R248: CTU. -/
def execCtu (rd ra : Fin 64) (x : BitVec 14) (s : State) : Host.Outcome State Fault Refusal :=
  kqCounterOp (fun a pv => stepCounter (some (a.getLsbD 0)) none (a.getLsbD 1) false pv) (fun y pv => boolD (cvFull y pv))
    rd ra x.toNat s

/-- R248: CTD. -/
def execCtd (rd ra : Fin 64) (x : BitVec 14) (s : State) : Host.Outcome State Fault Refusal :=
  kqCounterOp (fun a pv => stepCounter none (some (a.getLsbD 0)) false (a.getLsbD 1) pv) (fun y _ => boolD (cvEmpty y))
    rd ra x.toNat s

/-- R248: CTUD. -/
def execCtud (rd ra : Fin 64) (x : BitVec 14) (s : State) : Host.Outcome State Fault Refusal :=
  kqCounterOp (fun a pv => stepCounter (some (a.getLsbD 0)) (some (a.getLsbD 1)) (a.getLsbD 2) (a.getLsbD 3) pv)
    (fun y pv => toD ((cvFull y pv).toNat + 2 * (cvEmpty y).toNat)) rd ra x.toNat s

/-- R248: CTV. -/
def execCtv (rd : Fin 64) (x : BitVec 14) (s : State) : Host.Outcome State Fault Refusal :=
  .next (kqRun (fun t s =>
    if !instOk (kqImage s).counters x.toNat 4096 (· == .counter) then kqFault Code.KQ_INDEX t s
    else instEnd t rd (kqCounter x.toNat s).cv s) s)

/-! ### Edges (R249) -/

/-- RD and the entry after one execution. -/
def stepEdge (rising inp : Bool) (x : Edge) : Bool × Edge :=
  ((x.init && (if rising then inp && !x.prev else !inp && x.prev)), { prev := inp, init := true })

def kqEdgeOp (rising : Bool) (rd ra : Fin 64) (i : Nat) (s : State) : Host.Outcome State Fault Refusal :=
  .next (kqRun (fun t s =>
    if !instOk (kqImage s).edges i 16384 (· == .edge) then kqFault Code.KQ_INDEX t s
    else
      let r := stepEdge rising ((kAt (task t s) ra).getLsbD 0) (kqEdge i s)
      instEnd t rd (boolD r.1) (setKqEdge i r.2 s)) s)

/-- R249: RTRG. -/
def execRtrg (rd ra : Fin 64) (x : BitVec 14) (s : State) : Host.Outcome State Fault Refusal :=
  kqEdgeOp true rd ra x.toNat s

/-- R249: FTRG. -/
def execFtrg (rd ra : Fin 64) (x : BitVec 14) (s : State) : Host.Outcome State Fault Refusal :=
  kqEdgeOp false rd ra x.toNat s

/-! ### The calendar (R250) -/

/-- A calendar instruction: a value it cannot convert leaves RD and sets NV; otherwise Z is cleared. -/
def calEnd (rd : Fin 64) (r : Option DWord) (x : Task) : Task :=
  match r with
  | some v => kqPut rd { val := v, z := some false } x
  | none => kqNoPut { nv := true } x

/-- R250: CAL2T. -/
def execCal2t (rd ra rb : Fin 64) (s : State) : Host.Outcome State Fault Refusal :=
  .next (kqRun (fun t s => commitPoint t (onTask t (fun x =>
    let d := Cal.unpack (kAt x ra)
    let ns := (kAt x rb).toNat
    calEnd rd (if d.valid && decide (ns < 1000000000) then some (toD (d.seconds * 1000000000 + ns)) else none) x) s)) s)

/-- R250: T2CAL. -/
def execT2cal (rd ra : Fin 64) (s : State) : Host.Outcome State Fault Refusal :=
  .next (kqRun (fun t s => commitPoint t (onTask t (fun x =>
    let n := (kAt x ra).toNat
    calEnd rd (if n < Cal.endSeconds * 1000000000 then some (Cal.pack (n / 1000000000)) else none) x) s)) s)

end Sys2Proof.Machine
end

