-- ==== Sys2Proof/Machine/Saf.lean ====
section
/-! DEFINITION. The Safety region: the meanings of its cycle, its events and its tests (R380 to R414). -/
namespace Sys2Proof.Machine

/-- The request in the exchange is fresh (R385, R386). -/
def reqFresh (w : DWord) (s : State) : Bool :=
  let n := w.toNat
  n / 2 ^ 32 % 2 ^ 24 == 0 && n / 2 ^ 8 % 2 ^ 16 == 0 && s.saf.lastSeq != some (BitVec.ofNat 8 (n / 2 ^ 56))

/-- Take the latest request (R385); the reset edges are those between two fresh requests (Table SAF-1). DEDUCED: log entry 30. -/
def takeRequest (s : State) : State :=
  match s.saf.word with
  | none => { s with saf := { s.saf with resetEdge := 0 } }
  | some w =>
    if !reqFresh w s then { s with saf := { s.saf with resetEdge := 0 } }
    else
      let r : Byte := BitVec.ofNat 8 (w.toNat / 2 ^ 24)
      wr64 Reg.SAF_SX_REQ_LO w { s with saf := { s.saf with
        lastSeq := some (BitVec.ofNat 8 (w.toNat / 2 ^ 56))
        timedOut := false
        resets := r
        resetEdge := if s.saf.lastSeq.isNone then 0 else r &&& ~~~ s.saf.resets } }

/-- R388, R385, R428: a safety cycle. In fallback it only publishes the response. -/
def execSafetyCycle (s : State) : Host.Outcome State Fault Refusal :=
  let publish := fun t : State => wr64 Reg.SAF_SX_RSP_LO (safResponse t) t
  .next (if safUp s then
      let t := takeRequest s
      let t := sqEvalAll t.saf.resetEdge t
      let t := onlyIf (safTalks t) (forAll (t.saf.conns.filter (fun e => !isConsumer e)) (fun e => producerCycle e.1)) t
      t |> wr Reg.SAF_CYCLES (rd Reg.SAF_CYCLES t + 1) |> publish |> onlyIf (safRuns t) safMirror
    else if regionsUp s && safState s == 4 then publish s
    else s)

/-- R386: no fresh request for SX_TIMEOUT. -/
def execSafSxTimeout (tie : Bool) (s : State) : Host.Outcome State Fault Refusal :=
  .next (if safUp s then
      { safTie tie s with saf := { s.saf with timedOut := true } } |> safEv Fld.SAF_EVENT_SX_TIMEOUT |> safSay Code.SAF_SX_TIMEOUT
    else s)

/-- R384: the heartbeat line toggles. -/
def execSafetyHeartbeatToggle (s : State) : Host.Outcome State Fault Refusal :=
  .next (if regionsUp s then { s with saf := { s.saf with hbLine := !s.saf.hbLine } } else s)

/-- R384: Breakwater's timer expires and holds HB_OK clear until a module reset. -/
def execSafBwHb (s : State) : Host.Outcome State Fault Refusal :=
  .next (if s.sup.inReset || decide (power s < 2) || !s.saf.hbOk then s
    else safFault Code.SAF_BW_HB { s with saf := { s.saf with hbOk := false } })

/-- The contacts of a pair agree, and the pair is demanding by its contacts (R392, R395). -/
def siAgree (p : Nat) (x : SiPair) (s : State) : Bool :=
  if fld (Fld.SIp_CFG_MODE p) s = 2 then x.a != x.b else x.a == x.b
def siDemands (p : Nat) (x : SiPair) (s : State) : Bool := siAgree p x s && !x.a

/-- A pair leaves its fault (R395, R396). -/
def siRecover (p : Nat) (s : State) : State :=
  safSay Code.SAF_SI_RECOVERED (onSi p (fun x => { x with
    kind := 0, demanded := false, goodA := none, goodB := none }) s)

/-- R394: a contact's filtered value changes; a discrepancy clears once the contacts have agreed in the demanding
state and then in the healthy one (R395). -/
def execSiFilterExpiry (p : Fin 8) (b level : Bool) (s : State) : Host.Outcome State Fault Refusal :=
  .next (if !regionsUp s then s
    else
      let t := onSi p.val (fun x => if b then { x with b := level } else { x with a := level }) s
      let x := siPair p.val t
      if x.kind != 1 then t
      else if siDemands p.val x t then onSi p.val (fun x => { x with demanded := true }) t
      else if siAgree p.val x t && x.demanded then siRecover p.val t
      else t)

/-- A pair faults. -/
def siFault (p : Nat) (kind : Fin 4) (st : Status) (f : SiPair → SiPair) (s : State) : State :=
  s |> onSi p (fun x => f { x with kind := kind, demanded := false }) |> safEv Fld.SAF_EVENT_FAULT |> safSay st

/-- R395: the contacts have disagreed for DISC. -/
def execSafSiDiscrepancy (p : Fin 8) (tie : Bool) (s : State) : Host.Outcome State Fault Refusal :=
  .next (if safUp s && inRange (fld (Fld.SIp_CFG_MODE p.val) s) 1 2 && !siAgree p.val (siPair p.val s) s
      && (siPair p.val s).kind == 0 then
      siFault p.val 1 Code.SAF_SI_DISCREPANCY id (safTie tie s)
    else s)

/-- R393: source k pulls low. The sources run while the side holds safety authority, but not in its handover hold (R406). -/
def execTpPulseStart (k : Fin 4) (s : State) : Host.Outcome State Fault Refusal :=
  .next (if safUp s && (fld Fld.SAF_TP_STATUS_RUN s).testBit k.val && !s.saf.pulsing.contains k.val then
      setBitAt Reg.SAF_TP_STATUS (24 + k.val) false { s with saf := { s.saf with pulsing := k.val :: s.saf.pulsing } }
    else s)

/-- What a window of source `k` shows of one contact (R396): none where it is not checked; otherwise the fault kind it
would raise and whether the contact behaved. `low` says that it read low in the window. -/
def windowCheck (src k : Nat) (low filtered : Bool) : Option (Fin 4 × Bool) :=
  if src = k then some (2, low) else if src < 4 then some (3, !(low && filtered)) else none

/-- The checks of a pair at the end of a window (R396). -/
def pairWindow (p k : Nat) (lowA lowB : Bool) (s : State) : State :=
  if !inRange (fld (Fld.SIp_CFG_MODE p) s) 1 2 then s
  else
    let x := siPair p s
    let a := windowCheck (fld (Fld.SIp_CFG_SRC_A p) s) k lowA x.a
    let b := windowCheck (fld (Fld.SIp_CFG_SRC_B p) s) k lowB x.b
    if x.kind == 2 || x.kind == 3 then
      let count := fun (g : Option Nat) (c : Option (Fin 4 × Bool)) => match g, c with
        | some n, some (kind, ok) => if kind == x.kind then (if ok then (if n = 2 then none else some (n + 1)) else some 0) else g
        | _, _ => g
      let ga := count x.goodA a
      let gb := count x.goodB b
      if ga.isNone && gb.isNone then siRecover p s else onSi p (fun x => { x with goodA := ga, goodB := gb }) s
    else
      let bad := fun (c : Option (Fin 4 × Bool)) (kind : Fin 4) => c == some (kind, false)
      let fault := fun (kind : Fin 4) st => siFault p kind st (fun x => { x with
        goodA := if bad a kind then some 0 else none, goodB := if bad b kind then some 0 else none }) s
      if bad a 2 || bad b 2 then fault 2 Code.SAF_SI_STUCK
      else if bad a 3 || bad b 3 then fault 3 Code.SAF_SI_CROSS
      else s

/-- R393, R396: the pulse and its window end; bit 2p of `low` says that contact A of pair p read low in the window,
bit 2p + 1 the same of contact B. -/
def execTpPulseEnd (k : Fin 4) (low : BitVec 16) (s : State) : Host.Outcome State Fault Refusal :=
  .next (if !s.saf.pulsing.contains k.val then s
    else
      let t := setBitAt Reg.SAF_TP_STATUS (24 + k.val) true
        { s with saf := { s.saf with pulsing := s.saf.pulsing.filter (· != k.val) } }
      forAll (List.range 8) (fun p => pairWindow p k.val (low.getLsbD (2 * p)) (low.getLsbD (2 * p + 1))) t)

/-- R393: a source misses its edge bound. -/
def execSafTpSource (k : Fin 4) (s : State) : Host.Outcome State Fault Refusal :=
  .next (if regionsUp s && ((fld Fld.SAF_TP_STATUS_RUN s).testBit k.val || safState s == 0) then
      safFault Code.SAF_TP_SOURCE s
    else s)

/-- R399, R404, R407: a test pulse starts: a dark test of an energised output, a bright test of any other; an output in
FAULT is tested on its way out only, and no bright test starts within 1 ms of a gain of authority. -/
def execSqTestStart (n : Fin 8) (hs : Bool) (s : State) : Host.Outcome State Fault Refusal :=
  let x := sq n.val s
  .next (if !regionsUp s || decide (2 < safState s) || !flag (Fld.SQn_CFG_USED n.val) s || !mayTest s || x.test.isSome then s
    else if x.st == .on then
      if x.hs && x.lsReq then
        onSq n.val (fun x => { x with test := some ⟨hs, true⟩, hs := x.hs && !hs, lsReq := x.lsReq && hs }) s
      else s
    else if (x.st == .fault && x.leaving.isNone) || (s.saf.auth && decide (nowNs s < s.saf.authAt + 1000000)) then s
    else onSq n.val (fun x => { x with test := some ⟨hs, false⟩, hs := hs, lsTest := !hs }) s)

/-- R399, R401, R404: the private node confirms the test. -/
def execSqTestConfirm (n : Fin 8) (s : State) : Host.Outcome State Fault Refusal :=
  let x := sq n.val s
  .next (match x.test with
  | none => s
  | some t =>
    let now := nowNs s
    let on := t.dark || x.delayed
    let left := x.leaving.map (fun l => if t.hs then (true, l.2) else (l.1, true))
    let out := left == some (true, true)
    s |> onSq n.val (fun x => { x with
          test := none
          hs := on
          lsReq := on
          lsTest := false
          delayed := false
          passHs := if t.hs then now else x.passHs
          passLs := if t.hs then x.passLs else now
          deferHs := x.deferHs && (t.dark || !t.hs)
          deferLs := x.deferLs && (t.dark || t.hs)
          leaving := if out then none else left
          st := if out then .off else x.st
          fault := if out then 0 else x.fault })
      |> onlyIf x.delayed (fun t => t |> bump (Fld.SQn_COUNTS_DELAYED n.val) |> safEv Fld.SAF_EVENT_TEST
          |> safSay Code.SAF_ENERGISE_DELAYED))

/-- R400: a test is not confirmed within its bound. -/
def execSqTestExpiry (n : Fin 8) (tie : Bool) (s : State) : Host.Outcome State Fault Refusal :=
  .next (match (sq n.val s).test with
  | none => s
  | some t => sqFault n.val (if t.hs then 1 else 2) (if t.hs then Code.SAF_SQ_HS_FAIL else Code.SAF_SQ_LS_FAIL) (safTie tie s))

/-- R402: a switch has passed no test within 2 × TEST_PERIOD. -/
def execSafTestOverdue (n : Fin 8) (s : State) : Host.Outcome State Fault Refusal :=
  .next (if safRuns s && s.saf.auth && flag (Fld.SQn_CFG_USED n.val) s then
      s |> safEv Fld.SAF_EVENT_TEST |> safSay Code.SAF_TEST_OVERDUE
    else s)

/-- R403: a switch current above 2.4 A for 100 µs; a test under way is discarded (R401). -/
def execSafSqOvercurrent (n : Fin 8) (s : State) : Host.Outcome State Fault Refusal :=
  .next (if regionsUp s then sqFault n.val 3 Code.SAF_SQ_OVERCURRENT (sqCut n.val s) else s)

/-- R403: the private nodes have disagreed with the command for 1 ms, in every state but START. -/
def execSafSqDisagree (n : Fin 8) (s : State) : Host.Outcome State Fault Refusal :=
  .next (if regionsUp s && safState s != 0 then sqFault n.val 4 Code.SAF_SQ_DISAGREE (sqCut n.val s) else s)

/-- R405: a bank supply has stayed below 15.0 V for 1 ms. -/
def execSafBankLow (k : Fin 4) (tie : Bool) (s : State) : Host.Outcome State Fault Refusal :=
  .next (if regionsUp s && !s.saf.bankLow.contains k.val then
      let t := safTie tie { s with saf := { s.saf with bankLow := k.val :: s.saf.bankLow } }
      t |> safEv Fld.SAF_EVENT_BANK_LOW |> safSay Code.SAF_BANK_LOW
    else s)

/-- R405: the supply has stayed at or above 19.2 V for 100 ms. -/
def execSafBankRestored (k : Fin 4) (s : State) : Host.Outcome State Fault Refusal :=
  .next (if regionsUp s && s.saf.bankLow.contains k.val then
      { s with saf := { s.saf with bankLow := s.saf.bankLow.filter (· != k.val) } }
        |> safSay Code.SAF_BANK_RESTORED
    else s)

/-- An output as authority is gained (R408, R475): the mirrored state, and closed where it is ON with its permit. -/
def sqGain (n : Nat) (s : State) : State :=
  if !flag (Fld.SQn_CFG_USED n) s then s
  else
    let stale : SqState := if flag (Fld.SQn_CFG_RESTART n) s then .tripped else .off
    let t := onSq n (fun x => { x with
      st := if s.saf.mirrorStale then stale else x.mirror.getD x.st
      mirror := none
      test := none
      hs := false
      lsReq := false
      lsTest := false
      delayed := false }) s
    if (sq n t).st == .on && sqPermit n t then
      onSq n (fun x => { x with
        hs := true, lsReq := true, deferHs := false, deferLs := false, passHs := nowNs t, passLs := nowNs t }) t
    else t

/-- R406, R408, R437: the side holds AUTH alone, and its Safety region takes safety authority. -/
def execSafAuthTaken (s : State) : Host.Outcome State Fault Refusal :=
  .next (if !regionsUp s || s.saf.auth || !flag Fld.PAIR_STATE_AUTH_HELD s then s
    else
      let t := { s with saf := { s.saf with auth := true, authAt := nowNs s, bwAuth := true, handover := false, holding := false } }
        |> safEv Fld.SAF_EVENT_AUTHORITY |> safSay Code.SAF_AUTH_TAKEN
      if safState t = 2 then
        let t := setFld Fld.SAF_STATE_STATE 1 t
        let t := match t.saf.mirrorReq with
          | some w =>
            if t.saf.mirrorStale then t
            else wr64 Reg.SAF_SX_REQ_LO w { t with saf := { t.saf with
              lastSeq := some (BitVec.ofNat 8 (w.toNat / 2 ^ 56)), resets := BitVec.ofNat 8 (w.toNat / 2 ^ 24), mirrorReq := none } }
          | none => t
        let t := connStart (forAll (List.range 8) sqGain t)
        let t := onlyIf t.saf.mirrorStale (say Code.PAIR_SAFETY_MIRROR_STALE) t
        tpStart { t with saf := { t.saf with mirrorStale := false } }
      else onlyIf (safState t == 3) (fun t => tpStart (connStart t)) t)

/-- Safety authority ends: the region goes to SHADOW with its switches open and its sources off (R406). -/
def safDrop (s : State) : State :=
  let t := { s with saf := { s.saf with auth := false, bwAuth := false, holding := false, handover := false } }
    |> safEv Fld.SAF_EVENT_AUTHORITY |> safSay Code.SAF_AUTH_RELEASED |> tpStop |> setFld Fld.SAF_TP_STATUS_LEVEL 0
  let t := onlyIf (safState t == 1) (setFld Fld.SAF_STATE_STATE 2) t
  let t := onlyIf (safUp t) (sqEvalAll 0) t
  let t := forAll (List.range 8) (fun n => onSq n (fun x => { x with
    hs := false, lsReq := false, lsTest := false, test := none, delayed := false })) t
  forAll t.saf.conns (fun e => onConn e.1 (fun c => { c with st := .idle, live := false, tx := [] })) t

/-- R406, R409: the AUTH sense drops; at a switchover the handover hold starts, in which the sources are held without
pulses. -/
def execSafAuthReleased (s : State) : Host.Outcome State Fault Refusal :=
  .next (if !s.saf.auth || s.saf.holding || flag Fld.PAIR_STATE_AUTH_HELD s then s
    else if s.saf.handover && safRuns s then
      setFld Fld.SAF_TP_STATUS_LEVEL 15 (tpStop { s with saf := { s.saf with holding := true, handover := false } })
    else safDrop s)

/-- R409: the hold ends. -/
def execSafHandoverHoldEnd (s : State) : Host.Outcome State Fault Refusal :=
  .next (if s.saf.holding then safDrop s else s)

/-- R411: a lockstep mismatch; the comparator is off with the split strap set (R410). -/
def execSafLockstep (s : State) : Host.Outcome State Fault Refusal :=
  .next (if flag Fld.SAF_STATE_SPLIT_STRAP s then s else safFault Code.SAF_LOCKSTEP s)

/-- R411: Breakwater fails its self-test. -/
def execSafBwSelftest (s : State) : Host.Outcome State Fault Refusal :=
  .next (if regionsUp s then safFault Code.SAF_BW_SELFTEST { s with saf := { s.saf with bwOk := false } } else s)

/-- R383: Breakwater's own filter of a contact passes a change. -/
def execBreakwaterContactChange (p : Fin 8) (b level : Bool) (s : State) : Host.Outcome State Fault Refusal :=
  .next (if s.sup.inReset || decide (power s < 2) then s
    else onSi p.val (fun x => if b then { x with bwB := level } else { x with bwA := level }) s)

/-- R407: the other side takes AUTH; a switch test under way on a side without authority is abandoned. -/
def execAuthTakenByOtherSide (s : State) : Host.Outcome State Fault Refusal :=
  let t := { s with sup := { s.sup with authOther := true } }
  .next (if t.saf.auth then t
    else forAll (List.range 8) (fun n => onSq n (fun x => if x.test.isSome then { x with
      test := none, hs := false, lsReq := false, lsTest := false, delayed := false } else x)) t)

/-! ### Safety connections -/

/-- A field of a frame. -/
def frameId (f : List Byte) : BitVec 16 := BitVec.ofNat 16 (leNat (f.take 2))
def frameEpoch (f : List Byte) : Byte := f.getD 2 0
def frameKind (f : List Byte) : Nat := (f.getD 3 0).toNat / 64
def frameSeq (f : List Byte) : BitVec 16 := BitVec.ofNat 16 (leNat ((f.drop 4).take 2))
def frameTexp (f : List Byte) : BitVec 16 := BitVec.ofNat 16 (leNat ((f.drop 6).take 2))
def framePayload (f : List Byte) : Word := toW (leNat ((f.drop 8).take 4))

/-- The frame is well formed and passes its check under a key (Table FRAME-2, R420). -/
def frameGood (key : Word) (f : List Byte) : Bool :=
  let kind := frameKind f
  let len := (f.getD 3 0).toNat % 64
  let n := if kind = 0 then 16 else 12
  decide (kind < 3) && f.length == n && len == (if kind = 0 then 4 else 0)
  && (if kind = 2 then frameSeq f == 0 else frameSeq f != 0)
  && leNat (f.drop (n - 4)) == (crc32c key (f.take (n - 4))).toNat

/-- Carriers numbered as in the table of a frame's arrival: 0 ring, 1 plant Ethernet, 2 CAN, 3 causeway. -/
def carrierKind : Carrier → Nat
  | .ring _ => 0
  | .plant _ _ => 1
  | .can _ _ _ => 2
  | .causeway => 3

/-- The consumer or producer that a frame's CONN_ID names on a carrier (R418). DEDUCED: log entry 31. -/
def connOf (consumer : Bool) (carrier : Nat) (f : List Byte) (s : State) : Option (Nat × Conn) :=
  s.saf.conns.find? (fun e => isConsumer e == consumer && carrierKind e.2.entry.carrier == carrier
    && e.2.entry.connId == frameId f)

/-- A frame is discarded as corrupt; the fourth within 1 s fails the connection (R425). -/
def connCorrupt (i : Nat) (s : State) : State :=
  let t := safSay Code.SAF_FRAME_CORRUPT s
  let now := nowNs s
  let l := (now :: (conn i s).corrupt.filter (fun x => decide (now < x + 1000000000))).take 4
  if l.length = 4 then connFail i Code.SAF_CONN_CRC t else onConn i (fun c => { c with corrupt := l }) t

/-- An ACK of a consumer. -/
def connAck (i : Nat) (src : DWord) (f : List Byte) (s : State) : State :=
  let c := conn i s
  connSend i (safetyFrame c.entry c.epoch 1 (frameSeq f) 0) (onConn i (fun c => { c with peer := src }) s)

/-- R423: a consumer judges a frame (Table FRAME-4). -/
def execSafetyFrameReceive (carrier : Fin 4) (src : DWord) (frame : List Byte) (s : State) :
    Host.Outcome State Fault Refusal :=
  .next (if !safTalks s || s.saf.epochHold then s
    else match connOf true carrier.val frame s with
      | none => safSay Code.SAF_FRAME_CORRUPT s
      | some (i, c) =>
        if !frameGood c.entry.key frame then connCorrupt i s
        else if frameKind frame != 0 then s
        else if frameEpoch frame != c.epoch then safSay Code.SAF_FRAME_OLD_EPOCH s
        else if frameTexp frame != c.entry.texp then connFail i Code.SAF_CONN_TEXP s
        else if c.st == .run && frameSeq frame == c.seq then connAck i src frame s
        else if (c.st == .run && frameSeq frame == nextSeq c.seq) || (c.st == .opening && frameSeq frame == 1) then
          s |> onConn i (fun c => { c with
                st := .run
                seq := frameSeq frame
                payload := framePayload frame
                live := true
                since := some (nowNs s)
                said := false })
            |> onlyIf (c.st == .opening) (safSay Code.SAF_CONN_RUN) |> connAck i src frame
        else safSay Code.SAF_FRAME_ORDER s)

/-- R422: an opening consumer repeats its OPEN. -/
def execConsumerOpenRepeat (i : Fin 16) (s : State) : Host.Outcome State Fault Refusal :=
  .next (if safTalks s && !s.saf.epochHold && (conn i.val s).st == .opening then connOpenSend i.val s else s)

/-- R424: the consumer's watchdog expires. -/
def execSafConnWdog (i : Fin 16) (tie : Bool) (s : State) : Host.Outcome State Fault Refusal :=
  let c := conn i.val s
  .next (if !safTalks s || s.saf.epochHold then s
    else match c.st with
      | .run => connFail i.val Code.SAF_CONN_WDOG (safTie tie s)
      | .opening =>
        safTie tie s |> onConn i.val (fun c => { c with said := true, live := false })
          |> onlyIf (!c.said) (safSay Code.SAF_CONN_WDOG)
      | .idle => s)

/-- R427, R428: a producer judges an OPEN or an ACK. -/
def execProducerFrameReceive (carrier : Fin 4) (src : DWord) (frame : List Byte) (s : State) :
    Host.Outcome State Fault Refusal :=
  .next (if !safTalks s then s
    else match connOf false carrier.val frame s with
      | none => s
      | some (i, c) =>
        if !frameGood c.entry.key frame then s
        else if frameKind frame = 2 then
          if frameTexp frame != c.entry.texp then safSay Code.SAF_CONN_TEXP s
          else if c.st != .run || inRange (frameEpoch frame - c.epoch).toNat 1 127 then
            safSay Code.SAF_CONN_OPEN (onConn i (fun c => { c with
              st := .run
              epoch := frameEpoch frame
              seq := 1
              acked := false
              sample := true
              since := none
              peer := src }) s)
          else s
        else if frameKind frame = 1 && c.st == .run && frameEpoch frame == c.epoch && frameSeq frame == c.seq then
          onConn i (fun c => { c with acked := true }) s
        else s)

/-- R429: no ACK within TEXP. -/
def execSafConnAckTimeout (i : Fin 16) (tie : Bool) (s : State) : Host.Outcome State Fault Refusal :=
  let c := conn (16 + i.val) s
  .next (if safTalks s && c.st == .run && !c.acked then
      safTie tie s |> onConn (16 + i.val) (fun c => { c with st := .idle, tx := [] }) |> safSay Code.SAF_CONN_ACK_TIMEOUT
    else s)

/-- R431: 2 s after RUN, the consumers start at epoch 1. -/
def execConsumerEpochHoldEnd (s : State) : Host.Outcome State Fault Refusal :=
  .next (if !safTalks s || !s.saf.epochHold then s
    else forAll (s.saf.conns.filter isConsumer) (fun e => connOpen e.1 false)
      { s with saf := { s.saf with epochHold := false } })

end Sys2Proof.Machine
end

