-- ==== Sys2Proof/Machine/KqSys.lean ====
section
/-! DEFINITION. Block operations of the Kloquakor instructions (R251 to R257, Tables KQ-18 and PAIR-4). -/
namespace Sys2Proof.Machine

/-- An index that its table bounds (R254). -/
def kqIndexed (t : Nat) (rb : Fin 64) (size : Nat) (f : Nat → State → State) (s : State) : State :=
  let i := (kAt (task t s) rb).toNat
  if i < size then f i s else kqFault Code.KQ_INDEX t s

/-- Bits of a register. -/
def kBits (x : Task) (r : Fin 64) (hi lo : Nat) : Nat := (kAt x r).toNat / 2 ^ lo % 2 ^ (hi + 1 - lo)

/-- The low and the high word of register `i`. -/
def kLow (x : Task) (i : Nat) : Word := (kAt x i).setWidth 32
def kHigh (x : Task) (i : Nat) : Word := toW ((kAt x i).toNat / 2 ^ 32)

/-! ### The tide table -/

/-- R254: TSCH. -/
def execTsch (rd : Fin 64) (ra : Fin 62) (rb : Fin 64) (waits : Bool) (s : State) : Host.Outcome State Fault Refusal :=
  .next (kqRun (fun t s => kqIndexed t rb 4096 (fun i s =>
    let x := task t s
    let op := ttCommit false i (kLow x ra.val) (kHigh x ra.val) (kLow x (ra.val + 1)) (kHigh x (ra.val + 1)) (kLow x (ra.val + 2))
    kqBlock t rd waits false (ownPart op) (statusAct op) s) s) s)

/-- R254: TRET. -/
def execTret (rd rb : Fin 64) (waits : Bool) (s : State) : Host.Outcome State Fault Refusal :=
  .next (kqRun (fun t s => kqIndexed t rb 4096 (fun i s =>
    kqBlock t rd waits false (ownPart (ttRetireBy false i)) (statusAct (ttRetireBy false i)) s) s) s)

/-! ### Loop slots (R272, R308) -/

/-- R272: LSP. -/
def execLsp (rd ra rb : Fin 64) (waits : Bool) (s : State) : Host.Outcome State Fault Refusal :=
  .next (kqRun (fun t s =>
    let x := task t s
    let op := loopPutSp (kBits x rb 10 0) (kLow x ra)
    kqBlock t rd waits false (ownPart op) (statusAct op) s) s)

/-- R272: LMODE. -/
def execLmode (rd ra rb : Fin 64) (waits : Bool) (s : State) : Host.Outcome State Fault Refusal :=
  .next (kqRun (fun t s =>
    let x := task t s
    let op := loopPutMode (kBits x rb 10 0) (kBits x ra 3 0)
    kqBlock t rd waits false (ownPart op) (statusAct op) s) s)

/-- R272: LPAR. -/
def execLpar (rd ra rb : Fin 64) (waits : Bool) (s : State) : Host.Outcome State Fault Refusal :=
  .next (kqRun (fun t s =>
    let x := task t s
    let op := loopPutPar (kBits x rb 10 0) (kBits x rb 23 16) (kLow x ra)
    kqBlock t rd waits false (ownPart op) (statusAct op) s) s)

/-- An item of a slot (R308); a reserved one is reported, and its value is free (log entry 3). -/
def loopItemRes (k c : Nat) (s : State) : KqRes × State :=
  match slotItem k c s with
  | some v => ({ val := v.1.zeroExtend 64, tov := v.2 }, s)
  | none => ({ val := Config.freeValue s.freeCtr },
      slotSay k Code.LOOP_BAD_ITEM { s with freeCtr := s.freeCtr + 1 })

/-- R308: LRD. DEDUCED: log entry 25. -/
def execLrd (rd rb : Fin 64) (waits : Bool) (s : State) : Host.Outcome State Fault Refusal :=
  .next (kqRun (fun t s =>
    let x := task t s
    kqBlock t rd waits false id (loopItemRes (kBits x rb 10 0) (kBits x rb 23 16)) s) s)

/-! ### Sequencers -/

/-- Deliver a command or signals: the status is that of delivery (R254). -/
def delivered (f : State → State) (s : State) : Status × State := (Code.TIDE_OK, f s)

/-- R254: SQC. DEDUCED: log entry 22. -/
def execSqc (rd ra rb : Fin 64) (waits : Bool) (s : State) : Host.Outcome State Fault Refusal :=
  .next (kqRun (fun t s =>
    let x := task t s
    let q := kBits x rb 4 0
    let put := fun u => match seqCmdOf (kBits x ra 31 28) (kBits x ra 9 0) with
      | some c => seqPut q c u
      | none => u
    kqBlock t rd waits false id (statusAct (delivered put)) s) s)

/-- R254: SQS. -/
def execSqs (rd rb : Fin 64) (waits : Bool) (s : State) : Host.Outcome State Fault Refusal :=
  .next (kqRun (fun t s =>
    let q := kBits (task t s) rb 4 0
    kqBlock t rd waits false id (fun u => ({ val := (seqStateWord q u).zeroExtend 64 }, u)) s) s)

/-- R254: SQSIG. -/
def execSqsig (rd ra rb : Fin 64) (waits : Bool) (s : State) : Host.Outcome State Fault Refusal :=
  .next (kqRun (fun t s =>
    let x := task t s
    let put := seqSignal (kBits x rb 4 0) ((kAt x ra).setWidth 8)
    kqBlock t rd waits false id (statusAct (delivered put)) s) s)

/-! ### Mailboxes and locks (R620 to R626); a standby side in step does not act on its own (Table PAIR-4) -/

/-- R621: MSEND. -/
def execMsend (rd ra rb : Fin 64) (waits : Bool) (s : State) : Host.Outcome State Fault Refusal :=
  .next (kqRun (fun t s => kqIndexed t rb 24 (fun m s =>
    kqReg t (Reg.MBXm_SEND m) .write (fun s =>
      kqBlock t rd waits true id (statusAct (mbxSend m 0 (kLow (task t s) ra))) s) s) s) s)

/-- Take a word from a mailbox: bit 32 of RD says that there was one (Table KQ-18). -/
def mrecvRes (m : Nat) (s : State) : KqRes × State :=
  let w := mbxPeek m 0 s
  let u := (mbxTake m 0 s).2
  match w with
  | some w => ({ val := toD (2 ^ 32 + w.toNat), z := some false }, u)
  | none => ({ val := 0, z := some true }, u)

/-- R621: MRECV. -/
def execMrecv (rd rb : Fin 64) (waits : Bool) (s : State) : Host.Outcome State Fault Refusal :=
  .next (kqRun (fun t s => kqIndexed t rb 24 (fun m s =>
    kqReg t (Reg.MBXm_RECV m) .read (kqBlock t rd waits false id (mrecvRes m)) s) s) s)

/-- R622: MDBL. -/
def execMdbl (rd ra rb : Fin 64) (waits : Bool) (s : State) : Host.Outcome State Fault Refusal :=
  .next (kqRun (fun t s => kqIndexed t rb 24 (fun m s =>
    kqReg t (Reg.MBXm_DBL m) .write (fun s =>
      kqBlock t rd waits true id (statusAct (mbxRing m 0 (kLow (task t s) ra))) s) s) s) s)

/-- R622: MACK. -/
def execMack (rd ra rb : Fin 64) (waits : Bool) (s : State) : Host.Outcome State Fault Refusal :=
  .next (kqRun (fun t s => kqIndexed t rb 24 (fun m s =>
    kqReg t (Reg.MBXm_ACK m) .write (fun s =>
      kqBlock t rd waits true id (statusAct (mbxAck m 0 ((kAt (task t s) ra).setWidth 16))) s) s) s) s)

/-- The read of a lock register by a task (R625). -/
def lktryRes (i t : Nat) (s : State) : KqRes × State :=
  let free := (lockHolder i s).isNone
  ({ val := boolD free, z := some (!free) }, lockTry i 0 t s)

/-- R625: LKTRY. -/
def execLktry (rd rb : Fin 64) (waits : Bool) (s : State) : Host.Outcome State Fault Refusal :=
  .next (kqRun (fun t s => kqIndexed t rb 64 (fun i s =>
    kqReg t (Reg.MBX_LOCK i) .read (kqBlock t rd waits false id (lktryRes i t)) s) s) s)

/-- The release of a lock by a task (R625). -/
def lkrelRes (i t : Nat) (s : State) : KqRes × State :=
  if lockHolder i s = some ⟨0, t⟩ then ({ val := 1 }, lockFree i s)
  else ({ val := 0 }, say Code.MBX_LOCK_NOT_HELD s)

/-- R625: LKREL. DEDUCED: log entry 25. -/
def execLkrel (rd rb : Fin 64) (waits : Bool) (s : State) : Host.Outcome State Fault Refusal :=
  .next (kqRun (fun t s => kqIndexed t rb 64 (fun i s =>
    kqReg t (Reg.MBX_LOCK i) .write (kqBlock t rd waits true id (lkrelRes i t)) s) s) s)

/-! ### The safety exchange, Strandline, time and tides -/

/-- Place a request word in the safety exchange (R255). -/
def placeRequest (w : DWord) (s : State) : State := { s with saf := { s.saf with word := some w } }

/-- R255: SXCH. -/
def execSxch (rd ra : Fin 64) (s : State) : Host.Outcome State Fault Refusal :=
  .next (kqRun (fun t s =>
    let put := placeRequest (kAt (task t s) ra)
    kqReplay t rd true put (fun u => ({ val := rd64 Reg.SAF_SX_RSP_LO u }, put u)) s) s)

/-- R251: MTIM. -/
def execMtim (rd : Fin 64) (s : State) : Host.Outcome State Fault Refusal :=
  .next (kqRun (fun t s =>
    kqReplay t rd true id (fun u => ({ val := moduleNs u, tov := !disciplined u }, u)) s) s)

/-- R253: LOG. -/
def execLog (code : BitVec 12) (ra : Fin 64) (s : State) : Host.Outcome State Fault Refusal :=
  .next (kqRun (fun t s =>
    s |> present (mkRec .program 0 code.toNat t (kAt (task t s) ra) s) |> onTask t (kqNoPut {}) |> commitPoint t) s)

/-- A state code of Table TIDE-4. -/
def tideStateCode : TideState → Nat
  | .disabled => 0
  | .acquire => 1
  | .locked => 2
  | .holdover => 3
  | .lost => 4
  | .fault => 5

/-- An item of a tide (R252). -/
def tangRes (item n : Nat) (s : State) : KqRes :=
  let v := match item with
    | 0 => tidePos n s
    | 1 => BitVec.ofInt 64 (tide n s).omega
    | 2 => toD (tideStateCode (tide n s).st)
    | _ => (rd (Reg.TDn_PHASE_ERR n) s).signExtend 64
  { zRes v with tov := (tide n s).st != .locked }

/-- R252: TANG. -/
def execTang (rd : Fin 64) (item : Fin 4) (tide : Fin 8) (s : State) : Host.Outcome State Fault Refusal :=
  .next (kqRun (fun t s => kqReplay t rd true id (fun u => (tangRes item tide u, u)) s) s)

end Sys2Proof.Machine
end

