-- ==== Sys2Proof/Machine/Dispatch.lean ====
section
/-! DEFINITION. One arm per command: a direct call of its meaning. -/
namespace Sys2Proof.Machine

def exec (i : Instr) (s : State) : Host.Outcome State Fault Refusal :=
  match i with
  | .registerWrite addr be value hwSet => Sys2Proof.Machine.execRegisterWrite addr be value hwSet s
  | .lowWordRead addr => Sys2Proof.Machine.execLowWordRead addr s
  | .counterRead addr events => Sys2Proof.Machine.execCounterRead addr events s
  | .regionFault region status => Sys2Proof.Machine.execRegionFault region status s
  | .regionFallbackFail region => Sys2Proof.Machine.execRegionFallbackFail region s
  | .clockFailure domain => Sys2Proof.Machine.execClockFailure domain s
  | .bankIsolationTimeout region => Sys2Proof.Machine.execBankIsolationTimeout region s
  | .cdFabricStop => Sys2Proof.Machine.execCdFabricStop s
  | .livenessToggle => Sys2Proof.Machine.execLivenessToggle s
  | .safLiveness tie => Sys2Proof.Machine.execSafLiveness tie s
  | .modFeedLow feedB tie => Sys2Proof.Machine.execModFeedLow feedB tie s
  | .modFeedOk feedB => Sys2Proof.Machine.execModFeedOk feedB s
  | .modPowerFail => Sys2Proof.Machine.execModPowerFail s
  | .powerFailReset => Sys2Proof.Machine.execPowerFailReset s
  | .powerLoss => Sys2Proof.Machine.execPowerLoss s
  | .powerOn => Sys2Proof.Machine.execPowerOn s
  | .insertionQualified => Sys2Proof.Machine.execInsertionQualified s
  | .seatedNBreak => Sys2Proof.Machine.execSeatedNBreak s
  | .leverOpen => Sys2Proof.Machine.execLeverOpen s
  | .modRemoveReady => Sys2Proof.Machine.execModRemoveReady s
  | .leverClose => Sys2Proof.Machine.execLeverClose s
  | .modSidChanged sid => Sys2Proof.Machine.execModSidChanged sid s
  | .peerPresenceChange present => Sys2Proof.Machine.execPeerPresenceChange present s
  | .authClaim => Sys2Proof.Machine.execAuthClaim s
  | .authMeasure alone => Sys2Proof.Machine.execAuthMeasure alone s
  | .authShared => Sys2Proof.Machine.execAuthShared s
  | .authConfirmRun => Sys2Proof.Machine.execAuthConfirmRun s
  | .pairContestLost => Sys2Proof.Machine.execPairContestLost s
  | .tideEnable n => Sys2Proof.Machine.execTideEnable n s
  | .tideDisable n => Sys2Proof.Machine.execTideDisable n s
  | .tideResync n => Sys2Proof.Machine.execTideResync n s
  | .tideLockOpen mask => Sys2Proof.Machine.execTideLockOpen mask s
  | .mainsCrossing n positive peakMv ageNs tie => Sys2Proof.Machine.execMainsCrossing n positive peakMv ageNs tie s
  | .tideMiss n => Sys2Proof.Machine.execTideMiss n s
  | .encoderEdge n both forward => Sys2Proof.Machine.execEncoderEdge n both forward s
  | .stepEdge n forward => Sys2Proof.Machine.execStepEdge n forward s
  | .indexPulse n => Sys2Proof.Machine.execIndexPulse n s
  | .tideMeasurement n => Sys2Proof.Machine.execTideMeasurement n s
  | .tideLineFault input z present => Sys2Proof.Machine.execTideLineFault input z present s
  | .trackerUpdate n => Sys2Proof.Machine.execTrackerUpdate n s
  | .tideLost n tie => Sys2Proof.Machine.execTideLost n tie s
  | .tideBankFault => Sys2Proof.Machine.execTideBankFault s
  | .ttWrite => Sys2Proof.Machine.execTtWrite s
  | .ttRead => Sys2Proof.Machine.execTtRead s
  | .ttRetire => Sys2Proof.Machine.execTtRetire s
  | .ttPartitionWrite value => Sys2Proof.Machine.execTtPartitionWrite value s
  | .ttClaimWrite value => Sys2Proof.Machine.execTtClaimWrite value s
  | .ttScanVisit ix => Sys2Proof.Machine.execTtScanVisit ix s
  | .ttFire ix forward step dropped => Sys2Proof.Machine.execTtFire ix forward step dropped s
  | .ttLateFire ix => Sys2Proof.Machine.execTtLateFire ix s
  | .pulseTrailingEdge out => Sys2Proof.Machine.execPulseTrailingEdge out s
  | .ttCalibration out ok => Sys2Proof.Machine.execTtCalibration out ok s
  | .ttMemErr place => Sys2Proof.Machine.execTtMemErr place s
  | .sqEvaluation q => Sys2Proof.Machine.execSqEvaluation q s
  | .sqDurationElapsed q => Sys2Proof.Machine.execSqDurationElapsed q s
  | .sqTimeout q => Sys2Proof.Machine.execSqTimeout q s
  | .sqStart q step => Sys2Proof.Machine.execSqStart q step s
  | .sqHold q => Sys2Proof.Machine.execSqHold q s
  | .sqResume q => Sys2Proof.Machine.execSqResume q s
  | .sqAbort q => Sys2Proof.Machine.execSqAbort q s
  | .sqJump q step => Sys2Proof.Machine.execSqJump q step s
  | .sqSignalWrite q sig => Sys2Proof.Machine.execSqSignalWrite q sig s
  | .sqMirrorRecord q rec => Sys2Proof.Machine.execSqMirrorRecord q rec s
  | .taskRelease t forward => Sys2Proof.Machine.execTaskRelease t forward s
  | .taskTimerRelease t => Sys2Proof.Machine.execTaskTimerRelease t s
  | .eventTaskSignal e => Sys2Proof.Machine.execEventTaskSignal e s
  | .eventTaskRelease e => Sys2Proof.Machine.execEventTaskRelease e s
  | .exeEvtSignalWrite sig => Sys2Proof.Machine.execExeEvtSignalWrite sig s
  | .inputLatchComplete t => Sys2Proof.Machine.execInputLatchComplete t s
  | .taskPreempt => Sys2Proof.Machine.execTaskPreempt s
  | .outputCommit t tie => Sys2Proof.Machine.execOutputCommit t tie s
  | .exeRunWrite run => Sys2Proof.Machine.execExeRunWrite run s
  | .exeNoSlack => Sys2Proof.Machine.execExeNoSlack s
  | .stationDeadline t => Sys2Proof.Machine.execStationDeadline t s
  | .exeOverrun t => Sys2Proof.Machine.execExeOverrun t s
  | .changeVerify => Sys2Proof.Machine.execChangeVerify s
  | .changeVerifyDone img sound legal => Sys2Proof.Machine.execChangeVerifyDone img sound legal s
  | .changeArm => Sys2Proof.Machine.execChangeArm s
  | .changeCancel switching => Sys2Proof.Machine.execChangeCancel switching s
  | .changeRevert => Sys2Proof.Machine.execChangeRevert s
  | .changeCommit => Sys2Proof.Machine.execChangeCommit s
  | .changeValues => Sys2Proof.Machine.execChangeValues s
  | .valuesCheckDone => Sys2Proof.Machine.execValuesCheckDone s
  | .imageSwap => Sys2Proof.Machine.execImageSwap s
  | .revertSwitch => Sys2Proof.Machine.execRevertSwitch s
  | .valuesApply => Sys2Proof.Machine.execValuesApply s
  | .forceSet => Sys2Proof.Machine.execForceSet s
  | .forceClear => Sys2Proof.Machine.execForceClear s
  | .forceClearAll => Sys2Proof.Machine.execForceClearAll s
  | .forceRead => Sys2Proof.Machine.execForceRead s
  | .hostTagWrite tag high value => Sys2Proof.Machine.execHostTagWrite tag high value s
  | .add w32 rd ra rb => Sys2Proof.Machine.execAdd w32 rd ra rb s
  | .sub w32 rd ra rb => Sys2Proof.Machine.execSub w32 rd ra rb s
  | .mul w32 rd ra rb => Sys2Proof.Machine.execMul w32 rd ra rb s
  | .mulh w32 rd ra rb => Sys2Proof.Machine.execMulh w32 rd ra rb s
  | .div w32 rd ra rb => Sys2Proof.Machine.execDiv w32 rd ra rb s
  | .divu w32 rd ra rb => Sys2Proof.Machine.execDivu w32 rd ra rb s
  | .rem w32 rd ra rb => Sys2Proof.Machine.execRem w32 rd ra rb s
  | .remu w32 rd ra rb => Sys2Proof.Machine.execRemu w32 rd ra rb s
  | .neg w32 rd ra => Sys2Proof.Machine.execNeg w32 rd ra s
  | .abs w32 rd ra => Sys2Proof.Machine.execAbs w32 rd ra s
  | .min w32 rd ra rb => Sys2Proof.Machine.execMin w32 rd ra rb s
  | .max w32 rd ra rb => Sys2Proof.Machine.execMax w32 rd ra rb s
  | .minu w32 rd ra rb => Sys2Proof.Machine.execMinu w32 rd ra rb s
  | .maxu w32 rd ra rb => Sys2Proof.Machine.execMaxu w32 rd ra rb s
  | .mov w32 rd ra => Sys2Proof.Machine.execMov w32 rd ra s
  | .selz w32 rd ra rb => Sys2Proof.Machine.execSelz w32 rd ra rb s
  | .fadd f32 rd ra rb => Sys2Proof.Machine.execFadd f32 rd ra rb s
  | .fsub f32 rd ra rb => Sys2Proof.Machine.execFsub f32 rd ra rb s
  | .fmul f32 rd ra rb => Sys2Proof.Machine.execFmul f32 rd ra rb s
  | .fdiv f32 rd ra rb => Sys2Proof.Machine.execFdiv f32 rd ra rb s
  | .fsqrt f32 rd ra => Sys2Proof.Machine.execFsqrt f32 rd ra s
  | .fneg f32 rd ra => Sys2Proof.Machine.execFneg f32 rd ra s
  | .fabs f32 rd ra => Sys2Proof.Machine.execFabs f32 rd ra s
  | .fmin f32 rd ra rb => Sys2Proof.Machine.execFmin f32 rd ra rb s
  | .fmax f32 rd ra rb => Sys2Proof.Machine.execFmax f32 rd ra rb s
  | .cmp ty ra rb => Sys2Proof.Machine.execCmp ty ra rb s
  | .cset ty c rd ra rb => Sys2Proof.Machine.execCset ty c rd ra rb s
  | .cvtI64F64 rd ra => Sys2Proof.Machine.execCvtI64F64 rd ra s
  | .cvtI64F32 rd ra => Sys2Proof.Machine.execCvtI64F32 rd ra s
  | .cvtI32F32 rd ra => Sys2Proof.Machine.execCvtI32F32 rd ra s
  | .cvtI32F64 rd ra => Sys2Proof.Machine.execCvtI32F64 rd ra s
  | .trnF64I64 rd ra => Sys2Proof.Machine.execTrnF64I64 rd ra s
  | .rndF64I64 rd ra => Sys2Proof.Machine.execRndF64I64 rd ra s
  | .trnF32I32 rd ra => Sys2Proof.Machine.execTrnF32I32 rd ra s
  | .rndF32I32 rd ra => Sys2Proof.Machine.execRndF32I32 rd ra s
  | .cvtF32F64 rd ra => Sys2Proof.Machine.execCvtF32F64 rd ra s
  | .cvtF64F32 rd ra => Sys2Proof.Machine.execCvtF64F32 rd ra s
  | .trnF64I32 rd ra => Sys2Proof.Machine.execTrnF64I32 rd ra s
  | .rndF64I32 rd ra => Sys2Proof.Machine.execRndF64I32 rd ra s
  | .sext16 rd ra => Sys2Proof.Machine.execSext16 rd ra s
  | .sext32 rd ra => Sys2Proof.Machine.execSext32 rd ra s
  | .zext32 rd ra => Sys2Proof.Machine.execZext32 rd ra s
  | .cvtU64F64 rd ra => Sys2Proof.Machine.execCvtU64F64 rd ra s
  | .and w32 rd ra rb => Sys2Proof.Machine.execAnd w32 rd ra rb s
  | .or w32 rd ra rb => Sys2Proof.Machine.execOr w32 rd ra rb s
  | .xor w32 rd ra rb => Sys2Proof.Machine.execXor w32 rd ra rb s
  | .andn w32 rd ra rb => Sys2Proof.Machine.execAndn w32 rd ra rb s
  | .not w32 rd ra => Sys2Proof.Machine.execNot w32 rd ra s
  | .shl w32 rd ra rb => Sys2Proof.Machine.execShl w32 rd ra rb s
  | .shr w32 rd ra rb => Sys2Proof.Machine.execShr w32 rd ra rb s
  | .sar w32 rd ra rb => Sys2Proof.Machine.execSar w32 rd ra rb s
  | .rol w32 rd ra rb => Sys2Proof.Machine.execRol w32 rd ra rb s
  | .ror w32 rd ra rb => Sys2Proof.Machine.execRor w32 rd ra rb s
  | .bext w32 rd ra rb => Sys2Proof.Machine.execBext w32 rd ra rb s
  | .bset w32 rd ra rb => Sys2Proof.Machine.execBset w32 rd ra rb s
  | .bclr w32 rd ra rb => Sys2Proof.Machine.execBclr w32 rd ra rb s
  | .popc w32 rd ra => Sys2Proof.Machine.execPopc w32 rd ra s
  | .clz w32 rd ra => Sys2Proof.Machine.execClz w32 rd ra s
  | .imld area sgn size rd ra rb => Sys2Proof.Machine.execImld area sgn size rd ra rb s
  | .imst area size rd ra rb => Sys2Proof.Machine.execImst area size rd ra rb s
  | .tldx ty rd ra rb => Sys2Proof.Machine.execTldx ty rd ra rb s
  | .tstx ty rd ra rb => Sys2Proof.Machine.execTstx ty rd ra rb s
  | .jmpr ra legal => Sys2Proof.Machine.execJmpr ra legal s
  | .callr ra legal => Sys2Proof.Machine.execCallr ra legal s
  | .ret => Sys2Proof.Machine.execRet s
  | .li rd imm => Sys2Proof.Machine.execLi rd imm s
  | .liu rd imm => Sys2Proof.Machine.execLiu rd imm s
  | .ins0 rd imm => Sys2Proof.Machine.execIns0 rd imm s
  | .ins1 rd imm => Sys2Proof.Machine.execIns1 rd imm s
  | .ins2 rd imm => Sys2Proof.Machine.execIns2 rd imm s
  | .ins3 rd imm => Sys2Proof.Machine.execIns3 rd imm s
  | .addi rd imm => Sys2Proof.Machine.execAddi rd imm s
  | .addi32 rd imm => Sys2Proof.Machine.execAddi32 rd imm s
  | .andi rd imm => Sys2Proof.Machine.execAndi rd imm s
  | .ori rd imm => Sys2Proof.Machine.execOri rd imm s
  | .xori rd imm => Sys2Proof.Machine.execXori rd imm s
  | .shli rd n => Sys2Proof.Machine.execShli rd n s
  | .shri rd n => Sys2Proof.Machine.execShri rd n s
  | .sari rd n => Sys2Proof.Machine.execSari rd n s
  | .cmpi rd imm => Sys2Proof.Machine.execCmpi rd imm s
  | .cmpiu rd imm => Sys2Proof.Machine.execCmpiu rd imm s
  | .muli rd imm => Sys2Proof.Machine.execMuli rd imm s
  | .cld rd ix => Sys2Proof.Machine.execCld rd ix s
  | .tld ty rd tag => Sys2Proof.Machine.execTld ty rd tag s
  | .tst ty rd tag => Sys2Proof.Machine.execTst ty rd tag s
  | .br off => Sys2Proof.Machine.execBr off s
  | .call off => Sys2Proof.Machine.execCall off s
  | .bz rs off => Sys2Proof.Machine.execBz rs off s
  | .bnz rs off => Sys2Proof.Machine.execBnz rs off s
  | .bltz rs off => Sys2Proof.Machine.execBltz rs off s
  | .bgez rs off => Sys2Proof.Machine.execBgez rs off s
  | .bf f off => Sys2Proof.Machine.execBf f off s
  | .bnf f off => Sys2Proof.Machine.execBnf f off s
  | .ton rd ra x => Sys2Proof.Machine.execTon rd ra x s
  | .tof rd ra x => Sys2Proof.Machine.execTof rd ra x s
  | .tp rd ra x => Sys2Proof.Machine.execTp rd ra x s
  | .tet rd x => Sys2Proof.Machine.execTet rd x s
  | .ctu rd ra x => Sys2Proof.Machine.execCtu rd ra x s
  | .ctd rd ra x => Sys2Proof.Machine.execCtd rd ra x s
  | .ctud rd ra x => Sys2Proof.Machine.execCtud rd ra x s
  | .ctv rd x => Sys2Proof.Machine.execCtv rd x s
  | .rtrg rd ra x => Sys2Proof.Machine.execRtrg rd ra x s
  | .ftrg rd ra x => Sys2Proof.Machine.execFtrg rd ra x s
  | .cal2t rd ra rb => Sys2Proof.Machine.execCal2t rd ra rb s
  | .t2cal rd ra => Sys2Proof.Machine.execT2cal rd ra s
  | .tsch rd ra rb waits => Sys2Proof.Machine.execTsch rd ra rb waits s
  | .tret rd rb waits => Sys2Proof.Machine.execTret rd rb waits s
  | .lsp rd ra rb waits => Sys2Proof.Machine.execLsp rd ra rb waits s
  | .lmode rd ra rb waits => Sys2Proof.Machine.execLmode rd ra rb waits s
  | .lpar rd ra rb waits => Sys2Proof.Machine.execLpar rd ra rb waits s
  | .lrd rd rb waits => Sys2Proof.Machine.execLrd rd rb waits s
  | .sqc rd ra rb waits => Sys2Proof.Machine.execSqc rd ra rb waits s
  | .sqs rd rb waits => Sys2Proof.Machine.execSqs rd rb waits s
  | .sqsig rd ra rb waits => Sys2Proof.Machine.execSqsig rd ra rb waits s
  | .msend rd ra rb waits => Sys2Proof.Machine.execMsend rd ra rb waits s
  | .mrecv rd rb waits => Sys2Proof.Machine.execMrecv rd rb waits s
  | .mdbl rd ra rb waits => Sys2Proof.Machine.execMdbl rd ra rb waits s
  | .mack rd ra rb waits => Sys2Proof.Machine.execMack rd ra rb waits s
  | .lktry rd rb waits => Sys2Proof.Machine.execLktry rd rb waits s
  | .lkrel rd rb waits => Sys2Proof.Machine.execLkrel rd rb waits s
  | .sxch rd ra => Sys2Proof.Machine.execSxch rd ra s
  | .mfence => Sys2Proof.Machine.execMfence s
  | .rfence => Sys2Proof.Machine.execRfence s
  | .fenceDrained => Sys2Proof.Machine.execFenceDrained s
  | .blockAnswer => Sys2Proof.Machine.execBlockAnswer s
  | .yield => Sys2Proof.Machine.execYield s
  | .fget rd => Sys2Proof.Machine.execFget rd s
  | .fclr ra => Sys2Proof.Machine.execFclr ra s
  | .cyct rd => Sys2Proof.Machine.execCyct rd s
  | .mtim rd => Sys2Proof.Machine.execMtim rd s
  | .log code ra => Sys2Proof.Machine.execLog code ra s
  | .tang rd item tide => Sys2Proof.Machine.execTang rd item tide s
  | .commitPointTimer => Sys2Proof.Machine.execCommitPointTimer s
  | .loopFrameStart cycles crossing => Sys2Proof.Machine.execLoopFrameStart cycles crossing s
  | .loopEvaluation k => Sys2Proof.Machine.execLoopEvaluation k s
  | .loopLost k => Sys2Proof.Machine.execLoopLost k s
  | .loopFrozen k => Sys2Proof.Machine.execLoopFrozen k s
  | .loopImplausible k => Sys2Proof.Machine.execLoopImplausible k s
  | .loopRecovered k => Sys2Proof.Machine.execLoopRecovered k s
  | .loopLoad => Sys2Proof.Machine.execLoopLoad s
  | .loopRead => Sys2Proof.Machine.execLoopRead s
  | .loopSetPar => Sys2Proof.Machine.execLoopSetPar s
  | .loopGetPar => Sys2Proof.Machine.execLoopGetPar s
  | .loopSetSp => Sys2Proof.Machine.execLoopSetSp s
  | .loopSetMode => Sys2Proof.Machine.execLoopSetMode s
  | .loopReadItem => Sys2Proof.Machine.execLoopReadItem s
  | .loopClear => Sys2Proof.Machine.execLoopClear s
  | .loopRunWrite run => Sys2Proof.Machine.execLoopRunWrite run s
  | .traceArm b => Sys2Proof.Machine.execTraceArm b s
  | .traceStop b => Sys2Proof.Machine.execTraceStop b s
  | .traceTrigger b => Sys2Proof.Machine.execTraceTrigger b s
  | .traceClear b => Sys2Proof.Machine.execTraceClear b s
  | .traceDone b => Sys2Proof.Machine.execTraceDone b s
  | .loopMirrorRecord k rec => Sys2Proof.Machine.execLoopMirrorRecord k rec s
  | .loopBankIsolated b => Sys2Proof.Machine.execLoopBankIsolated b s
  | .loopBankReen b => Sys2Proof.Machine.execLoopBankReen b s
  | .loopBankReenabled b => Sys2Proof.Machine.execLoopBankReenabled b s
  | .dioPinChange n level currentMa => Sys2Proof.Machine.execDioPinChange n level currentMa s
  | .dioFilterExpiry n => Sys2Proof.Machine.execDioFilterExpiry n s
  | .dioShort chs tie => Sys2Proof.Machine.execDioShort chs tie s
  | .dioOverload chs tie => Sys2Proof.Machine.execDioOverload chs tie s
  | .dioOvertemp chs => Sys2Proof.Machine.execDioOvertemp chs s
  | .dioRearm mask => Sys2Proof.Machine.execDioRearm mask s
  | .dioStuckOn chs tie => Sys2Proof.Machine.execDioStuckOn chs tie s
  | .dioStuckExternal n => Sys2Proof.Machine.execDioStuckExternal n s
  | .dioStuckOff chs tie => Sys2Proof.Machine.execDioStuckOff chs tie s
  | .dioOpenLoad n => Sys2Proof.Machine.execDioOpenLoad n s
  | .dioFaultClear n => Sys2Proof.Machine.execDioFaultClear n s
  | .dioBankWarn k mv => Sys2Proof.Machine.execDioBankWarn k mv s
  | .dioBankWarnClear k mv => Sys2Proof.Machine.execDioBankWarnClear k mv s
  | .dioBankLow k mv => Sys2Proof.Machine.execDioBankLow k mv s
  | .dioBankLowClear k mv => Sys2Proof.Machine.execDioBankLowClear k mv s
  | .dioBankLatchoff k tie => Sys2Proof.Machine.execDioBankLatchoff k tie s
  | .dioBankOvercurrent k => Sys2Proof.Machine.execDioBankOvercurrent k s
  | .dioBankReenable k => Sys2Proof.Machine.execDioBankReenable k s
  | .dioBankRecover k pass => Sys2Proof.Machine.execDioBankRecover k pass s
  | .dioBankEnable k en => Sys2Proof.Machine.execDioBankEnable k en s
  | .dioBankIsolated k => Sys2Proof.Machine.execDioBankIsolated k s
  | .dioKeepaliveExpiry k => Sys2Proof.Machine.execDioKeepaliveExpiry k s
  | .dioStageSilent k => Sys2Proof.Machine.execDioStageSilent k s
  | .rfxWrite => Sys2Proof.Machine.execRfxWrite s
  | .rfxRead => Sys2Proof.Machine.execRfxRead s
  | .rfxDisable => Sys2Proof.Machine.execRfxDisable s
  | .rfxResetLatch => Sys2Proof.Machine.execRfxResetLatch s
  | .rfxCrcCheck ok => Sys2Proof.Machine.execRfxCrcCheck ok s
  | .reflexRecord latches => Sys2Proof.Machine.execReflexRecord latches s
  | .anaChannelEnable value => Sys2Proof.Machine.execAnaChannelEnable value s
  | .anaLockOpen value => Sys2Proof.Machine.execAnaLockOpen value s
  | .anaConversion convs overlap => Sys2Proof.Machine.execAnaConversion convs overlap s
  | .anaLoopShort chs => Sys2Proof.Machine.execAnaLoopShort chs s
  | .anaOutOpen chs => Sys2Proof.Machine.execAnaOutOpen chs s
  | .anaReadbackErr chs => Sys2Proof.Machine.execAnaReadbackErr chs s
  | .anaOutputFaultClear n => Sys2Proof.Machine.execAnaOutputFaultClear n s
  | .anaCompliance n mv tie => Sys2Proof.Machine.execAnaCompliance n mv tie s
  | .anaComplianceClear n mv tie => Sys2Proof.Machine.execAnaComplianceClear n mv tie s
  | .anaKeepaliveExpiry k => Sys2Proof.Machine.execAnaKeepaliveExpiry k s
  | .anaStageSilent k => Sys2Proof.Machine.execAnaStageSilent k s
  | .anaBankIsolated k => Sys2Proof.Machine.execAnaBankIsolated k s
  | .anaBankRecover k pass => Sys2Proof.Machine.execAnaBankRecover k pass s
  | .hartPoll n => Sys2Proof.Machine.execHartPoll n s
  | .hartResponse n good tie resp dev vars data => Sys2Proof.Machine.execHartResponse n good tie resp dev vars data s
  | .hartRespTimeout n => Sys2Proof.Machine.execHartRespTimeout n s
  | .hartBurstFrame n dev vars => Sys2Proof.Machine.execHartBurstFrame n dev vars s
  | .anaHartCmd cmd len => Sys2Proof.Machine.execAnaHartCmd cmd len s
  | .safetyCycle => Sys2Proof.Machine.execSafetyCycle s
  | .safSxTimeout tie => Sys2Proof.Machine.execSafSxTimeout tie s
  | .safetyHeartbeatToggle => Sys2Proof.Machine.execSafetyHeartbeatToggle s
  | .safBwHb => Sys2Proof.Machine.execSafBwHb s
  | .siFilterExpiry p b level => Sys2Proof.Machine.execSiFilterExpiry p b level s
  | .safSiDiscrepancy p tie => Sys2Proof.Machine.execSafSiDiscrepancy p tie s
  | .tpPulseStart k => Sys2Proof.Machine.execTpPulseStart k s
  | .tpPulseEnd k low => Sys2Proof.Machine.execTpPulseEnd k low s
  | .safTpSource k => Sys2Proof.Machine.execSafTpSource k s
  | .sqTestStart n hs => Sys2Proof.Machine.execSqTestStart n hs s
  | .sqTestConfirm n => Sys2Proof.Machine.execSqTestConfirm n s
  | .sqTestExpiry n tie => Sys2Proof.Machine.execSqTestExpiry n tie s
  | .safTestOverdue n => Sys2Proof.Machine.execSafTestOverdue n s
  | .safSqOvercurrent n => Sys2Proof.Machine.execSafSqOvercurrent n s
  | .safSqDisagree n => Sys2Proof.Machine.execSafSqDisagree n s
  | .safBankLow k tie => Sys2Proof.Machine.execSafBankLow k tie s
  | .safBankRestored k => Sys2Proof.Machine.execSafBankRestored k s
  | .safAuthTaken => Sys2Proof.Machine.execSafAuthTaken s
  | .safAuthReleased => Sys2Proof.Machine.execSafAuthReleased s
  | .safHandoverHoldEnd => Sys2Proof.Machine.execSafHandoverHoldEnd s
  | .safLockstep => Sys2Proof.Machine.execSafLockstep s
  | .safBwSelftest => Sys2Proof.Machine.execSafBwSelftest s
  | .safetyFrameReceive carrier src frame => Sys2Proof.Machine.execSafetyFrameReceive carrier src frame s
  | .consumerOpenRepeat ix => Sys2Proof.Machine.execConsumerOpenRepeat ix s
  | .safConnWdog ix tie => Sys2Proof.Machine.execSafConnWdog ix tie s
  | .producerFrameReceive carrier src frame => Sys2Proof.Machine.execProducerFrameReceive carrier src frame s
  | .safConnAckTimeout ix tie => Sys2Proof.Machine.execSafConnAckTimeout ix tie s
  | .consumerEpochHoldEnd => Sys2Proof.Machine.execConsumerEpochHoldEnd s
  | .triadVote r0 r1 r2 => Sys2Proof.Machine.execTriadVote r0 r1 r2 s
  | .triadResyncStart pass => Sys2Proof.Machine.execTriadResyncStart pass s
  | .triadResyncDone => Sys2Proof.Machine.execTriadResyncDone s
  | .triadResyncTimeout => Sys2Proof.Machine.execTriadResyncTimeout s
  | .triadEccCorrected place symbol word => Sys2Proof.Machine.execTriadEccCorrected place symbol word s
  | .triadEccUncorr place word => Sys2Proof.Machine.execTriadEccUncorr place word s
  | .triadUnretire core => Sys2Proof.Machine.execTriadUnretire core s
  | .heartbeatSend other => Sys2Proof.Machine.execHeartbeatSend other s
  | .heartbeatReceive cw2 hb good tie other => Sys2Proof.Machine.execHeartbeatReceive cw2 hb good tie other s
  | .pairPathLost cw2 => Sys2Proof.Machine.execPairPathLost cw2 s
  | .pairPeerLost other => Sys2Proof.Machine.execPairPeerLost other s
  | .pairWaitExpiry => Sys2Proof.Machine.execPairWaitExpiry s
  | .pairAuthSense => Sys2Proof.Machine.execPairAuthSense s
  | .safetyMirrorStale tie => Sys2Proof.Machine.execSafetyMirrorStale tie s
  | .releaseRecord q t cycle cycleTime angle vals => Sys2Proof.Machine.execReleaseRecord q t cycle cycleTime angle vals s
  | .schedRecord q t points resume => Sys2Proof.Machine.execSchedRecord q t points resume s
  | .replayRecord q rec => Sys2Proof.Machine.execReplayRecord q rec s
  | .commitRecord q t cycle crc since tie => Sys2Proof.Machine.execCommitRecord q t cycle crc since tie s
  | .stateRecord q granules => Sys2Proof.Machine.execStateRecord q granules s
  | .tideRecord n locked pos omega base => Sys2Proof.Machine.execTideRecord n locked pos omega base s
  | .controlRecord q rec => Sys2Proof.Machine.execControlRecord q rec s
  | .safetyRecord sqs req conns split => Sys2Proof.Machine.execSafetyRecord sqs req conns split s
  | .pairTrailing t cycle => Sys2Proof.Machine.execPairTrailing t cycle s
  | .syncComplete => Sys2Proof.Machine.execSyncComplete s
  | .trackingRejoin => Sys2Proof.Machine.execTrackingRejoin s
  | .yieldExpiry => Sys2Proof.Machine.execYieldExpiry s
  | .pairSwitchoverCmd => Sys2Proof.Machine.execPairSwitchoverCmd s
  | .pairRejoin => Sys2Proof.Machine.execPairRejoin s
  | .pairResync => Sys2Proof.Machine.execPairResync s
  | .pairCancel => Sys2Proof.Machine.execPairCancel s
  | .switchoverStart => Sys2Proof.Machine.execSwitchoverStart s
  | .handoverRecord q cycles angles base => Sys2Proof.Machine.execHandoverRecord q cycles angles base s
  | .readyRecord q => Sys2Proof.Machine.execReadyRecord q s
  | .takenRecord q => Sys2Proof.Machine.execTakenRecord q s
  | .pairSwitchFailed => Sys2Proof.Machine.execPairSwitchFailed s
  | .pairReclaim => Sys2Proof.Machine.execPairReclaim s
  | .netCtrlWrite value ok => Sys2Proof.Machine.execNetCtrlWrite value ok s
  | .netLinkDown port => Sys2Proof.Machine.execNetLinkDown port s
  | .netLinkUp port => Sys2Proof.Machine.execNetLinkUp port s
  | .plantFrameReceive port src seq kind dest frame => Sys2Proof.Machine.execPlantFrameReceive port src seq kind dest frame s
  | .redundantCopyTimeout src seq => Sys2Proof.Machine.execRedundantCopyTimeout src seq s
  | .supervisionSend => Sys2Proof.Machine.execSupervisionSend s
  | .netHsrOpen => Sys2Proof.Machine.execNetHsrOpen s
  | .gratuitousArpRepeat => Sys2Proof.Machine.execGratuitousArpRepeat s
  | .ptpSync port gm sec ns corr age twoStep => Sys2Proof.Machine.execPtpSync port gm sec ns corr age twoStep s
  | .ptpAnnounce port gm utc best => Sys2Proof.Machine.execPtpAnnounce port gm utc best s
  | .ptpAnnounceTimeout best tie => Sys2Proof.Machine.execPtpAnnounceTimeout best tie s
  | .ptpSyncSilence both tie => Sys2Proof.Machine.execPtpSyncSilence both tie s
  | .ptpPdelayReq port turn => Sys2Proof.Machine.execPtpPdelayReq port turn s
  | .ptpPdelayResp port t2 corr age twoStep => Sys2Proof.Machine.execPtpPdelayResp port t2 corr age twoStep s
  | .ptpMessageSend kind port => Sys2Proof.Machine.execPtpMessageSend kind port s
  | .ptpAcceptStep => Sys2Proof.Machine.execPtpAcceptStep s
  | .ptpCancelStep => Sys2Proof.Machine.execPtpCancelStep s
  | .gseWrite => Sys2Proof.Machine.execGseWrite s
  | .gseRead => Sys2Proof.Machine.execGseRead s
  | .gseDisable => Sys2Proof.Machine.execGseDisable s
  | .gooseRetransmit ix => Sys2Proof.Machine.execGooseRetransmit ix s
  | .gooseReceive msg => Sys2Proof.Machine.execGooseReceive msg s
  | .netGseTalExpired j tie => Sys2Proof.Machine.execNetGseTalExpired j tie s
  | .lnchWrite => Sys2Proof.Machine.execLnchWrite s
  | .lnchRead => Sys2Proof.Machine.execLnchRead s
  | .lnchDisable => Sys2Proof.Machine.execLnchDisable s
  | .launchSend slot late => Sys2Proof.Machine.execLaunchSend slot late s
  | .launchGuardExpiry slot => Sys2Proof.Machine.execLaunchGuardExpiry slot s
  | .ringCycleLaunch t => Sys2Proof.Machine.execRingCycleLaunch t s
  | .stationAnswer st tid ir0 ir1 vals tie => Sys2Proof.Machine.execStationAnswer st tid ir0 ir1 vals tie s
  | .ringEnumeration found => Sys2Proof.Machine.execRingEnumeration found s
  | .ringRunWrite run => Sys2Proof.Machine.execRingRunWrite run s
  | .ringWaitExpiry => Sys2Proof.Machine.execRingWaitExpiry s
  | .ringPassThrough segs => Sys2Proof.Machine.execRingPassThrough segs s
  | .netPortIsolated port => Sys2Proof.Machine.execNetPortIsolated port s
  | .canChannelEnable value => Sys2Proof.Machine.execCanChannelEnable value s
  | .canBufferWrite c b word value => Sys2Proof.Machine.execCanBufferWrite c b word value s
  | .canFrameReceive c frame => Sys2Proof.Machine.execCanFrameReceive c frame s
  | .canTxComplete c begun stamp => Sys2Proof.Machine.execCanTxComplete c begun stamp s
  | .canTxError c begun kind => Sys2Proof.Machine.execCanTxError c begun kind s
  | .canBusOn c => Sys2Proof.Machine.execCanBusOn c s
  | .canTxTimeout c b tie stamp => Sys2Proof.Machine.execCanTxTimeout c b tie stamp s
  | .canRxSilent c b tie => Sys2Proof.Machine.execCanRxSilent c b tie s
  | .canRequest c b => Sys2Proof.Machine.execCanRequest c b s
  | .canCancel c b begun => Sys2Proof.Machine.execCanCancel c b begun s
  | .canRelease c b tie => Sys2Proof.Machine.execCanRelease c b tie s
  | .canClearClash c b => Sys2Proof.Machine.execCanClearClash c b s
  | .canRecover c => Sys2Proof.Machine.execCanRecover c s
  | .canRecoverCh c check => Sys2Proof.Machine.execCanRecoverCh c check s
  | .canChannelIsolated c => Sys2Proof.Machine.execCanChannelIsolated c s
  | .strandlineRingWrite => Sys2Proof.Machine.execStrandlineRingWrite s
  | .strFreeze => Sys2Proof.Machine.execStrFreeze s
  | .strThaw tie => Sys2Proof.Machine.execStrThaw tie s
  | .strThawAppendDone => Sys2Proof.Machine.execStrThawAppendDone s
  | .strRead uncorr => Sys2Proof.Machine.execStrRead uncorr s
  | .strLog => Sys2Proof.Machine.execStrLog s
  | .strFreezeExpired => Sys2Proof.Machine.execStrFreezeExpired s
  | .strandlineRequest first count => Sys2Proof.Machine.execStrandlineRequest first count s
  | .strDrainSkip => Sys2Proof.Machine.execStrDrainSkip s
  | .strandlineScanEnd => Sys2Proof.Machine.execStrandlineScanEnd s
  | .strRlCfgWrite value => Sys2Proof.Machine.execStrRlCfgWrite value s
  | .trimWindow => Sys2Proof.Machine.execTrimWindow s
  | .clkOscStopped => Sys2Proof.Machine.execClkOscStopped s
  | .clkOsfClear stopped => Sys2Proof.Machine.execClkOsfClear stopped s
  | .clkSync => Sys2Proof.Machine.execClkSync s
  | .clkSetTicks => Sys2Proof.Machine.execClkSetTicks s
  | .clkSetCal => Sys2Proof.Machine.execClkSetCal s
  | .clkReadCal => Sys2Proof.Machine.execClkReadCal s
  | .clkRegsValidate => Sys2Proof.Machine.execClkRegsValidate s
  | .clkBregWrite ix value => Sys2Proof.Machine.execClkBregWrite ix value s
  | .vbakSwitch toMain => Sys2Proof.Machine.execVbakSwitch toMain s
  | .clkRetentionLost => Sys2Proof.Machine.execClkRetentionLost s
  | .clkCellCheck mv => Sys2Proof.Machine.execClkCellCheck mv s
  | .hostMemoryAccess bar2 off len write data uncorr => Sys2Proof.Machine.execHostMemoryAccess bar2 off len write data uncorr s
  | .mpuCommit => Sys2Proof.Machine.execMpuCommit s
  | .mpuAbandon => Sys2Proof.Machine.execMpuAbandon s
  | .mpuRead => Sys2Proof.Machine.execMpuRead s
  | .mpuCommitted => Sys2Proof.Machine.execMpuCommitted s
  | .mpuLockWrite => Sys2Proof.Machine.execMpuLockWrite s
  | .memEccCorrected addr => Sys2Proof.Machine.execMemEccCorrected addr s
  | .memEccUncorr addr => Sys2Proof.Machine.execMemEccUncorr addr s
  | .mbxSend master m word => Sys2Proof.Machine.execMbxSend master m word s
  | .mbxRecv master m => Sys2Proof.Machine.execMbxRecv master m s
  | .mbxDoorbellRing master m bits => Sys2Proof.Machine.execMbxDoorbellRing master m bits s
  | .mbxDoorbellTake master m bits => Sys2Proof.Machine.execMbxDoorbellTake master m bits s
  | .mbxAckWrite master m code => Sys2Proof.Machine.execMbxAckWrite master m code s
  | .mbxAckRead master m => Sys2Proof.Machine.execMbxAckRead master m s
  | .mbxBindWrite m value => Sys2Proof.Machine.execMbxBindWrite m value s
  | .mbxBindLock => Sys2Proof.Machine.execMbxBindLock s
  | .mbxLockRead master ix => Sys2Proof.Machine.execMbxLockRead master ix s
  | .mbxLockWrite master ix value => Sys2Proof.Machine.execMbxLockWrite master ix value s
  | .mbxLockForce high mask => Sys2Proof.Machine.execMbxLockForce high mask s
  | .queEnable high value => Sys2Proof.Machine.execQueEnable high value s
  | .queHeadWrite q index => Sys2Proof.Machine.execQueHeadWrite q index s
  | .queTailWrite q index => Sys2Proof.Machine.execQueTailWrite q index s
  | .lcyTransition target confirm => Sys2Proof.Machine.execLcyTransition target confirm s
  | .lcyRevokeKey slot => Sys2Proof.Machine.execLcyRevokeKey slot s
  | .lcyDbgClose => Sys2Proof.Machine.execLcyDbgClose s
  | .lcyNewNonce => Sys2Proof.Machine.execLcyNewNonce s
  | .lcyStateChanged => Sys2Proof.Machine.execLcyStateChanged s
  | .keyPackage uid good k0 k1 => Sys2Proof.Machine.execKeyPackage uid good k0 k1 s
  | .returnAuthorisation uid nonce good => Sys2Proof.Machine.execReturnAuthorisation uid nonce good s
  | .lcyDbgTokenWrite token => Sys2Proof.Machine.execLcyDbgTokenWrite token s
  | .dbgAuth value tie => Sys2Proof.Machine.execDbgAuth value tie s
  | .dbgTokenExpiry => Sys2Proof.Machine.execDbgTokenExpiry s
  | .dbgSessionExpiry => Sys2Proof.Machine.execDbgSessionExpiry s
  | .debugAccess write addr len data => Sys2Proof.Machine.execDebugAccess write addr len data s
  | .scanInstruction inst => Sys2Proof.Machine.execScanInstruction inst s
  | .fwuProgram => Sys2Proof.Machine.execFwuProgram s
  | .fwuVerify good => Sys2Proof.Machine.execFwuVerify good s
  | .fwuActivate full => Sys2Proof.Machine.execFwuActivate full s
  | .fwuReject => Sys2Proof.Machine.execFwuReject s
  | .fwuAbort => Sys2Proof.Machine.execFwuAbort s
  | .firmwareItem => Sys2Proof.Machine.execFirmwareItem s
  | .configStoreWrite copy => Sys2Proof.Machine.execConfigStoreWrite copy s
  | .programStoreWrite image signed => Sys2Proof.Machine.execProgramStoreWrite image signed s
  | .fwuPauseStart => Sys2Proof.Machine.execFwuPauseStart s
  | .fwuActivated => Sys2Proof.Machine.execFwuActivated s
  | .fwuHealthOk => Sys2Proof.Machine.execFwuHealthOk s
  | .fwuTrialExpiry tie => Sys2Proof.Machine.execFwuTrialExpiry tie s
  | .powerCmdOff => Sys2Proof.Machine.execPowerCmdOff s
  | .powerCmdQuiet => Sys2Proof.Machine.execPowerCmdQuiet s
  | .powerCmdReady => Sys2Proof.Machine.execPowerCmdReady s
  | .powerCmdRun => Sys2Proof.Machine.execPowerCmdRun s
  | .powerCmdHold => Sys2Proof.Machine.execPowerCmdHold s
  | .readyRestartDone bist prog => Sys2Proof.Machine.execReadyRestartDone bist prog s
  | .supReset confirm => Sys2Proof.Machine.execSupReset confirm s
  | .supRecover target pass => Sys2Proof.Machine.execSupRecover target pass s
  | .hostRst => Sys2Proof.Machine.execHostRst s
  | .supWatchdog => Sys2Proof.Machine.execSupWatchdog s
  | .reseated => Sys2Proof.Machine.execReseated s
  | .resetRelease => Sys2Proof.Machine.execResetRelease s
  | .supStart runOk otherOk queues => Sys2Proof.Machine.execSupStart runOk otherOk queues s
  | .breakwaterContactChange p b level => Sys2Proof.Machine.execBreakwaterContactChange p b level s
  | .authTakenByOtherSide => Sys2Proof.Machine.execAuthTakenByOtherSide s
  | .causewayRecordAck kind q => Sys2Proof.Machine.execCausewayRecordAck kind q s
  | .tideRecordSend => Sys2Proof.Machine.execTideRecordSend s
  | .ptpFollowUp port pdelay sec ns corr => Sys2Proof.Machine.execPtpFollowUp port pdelay sec ns corr s
  | .canRxError c crc eight => Sys2Proof.Machine.execCanRxError c crc eight s
  | .acyclicRingAnswer ir1 err frame => Sys2Proof.Machine.execAcyclicRingAnswer ir1 err frame s
  | .unusedBulkQueueItem k => Sys2Proof.Machine.execUnusedBulkQueueItem k s

end Sys2Proof.Machine
end

