-- ==== Sys2Proof/Machine/Tick.lean ====
section
/-! DEFINITION. What one CD_FABRIC cycle does when no command waits (log entry 1): the clocks and the tides advance, the
outputs and the reflex terms take one step, held releases and transmissions go on, and steps that wait for another go on. An
event that has a row of its own comes by its row. -/
namespace Sys2Proof.Machine

/-- Ticks by which the count advances at tick `i` of a window with `k` adjustments left (R584). -/
def trimAdvance (i : Nat) (k : Int) : Nat := if i % 512 != 0 || k = 0 then 1 else if 0 < k then 2 else 0

/-- Adjustments left after tick `i` of a window. -/
def trimLeft (i : Nat) (k : Int) : Int := if i % 512 != 0 || k = 0 then k else if 0 < k then k - 1 else k + 1

/-- 8 ns of the backup domain: 1,953,125 of 64 to the ns make a tick (R583, R584). -/
def backupAdvance (b : Backup) : Backup :=
  if b.stopped then b
  else if b.phase + 512 < 1953125 then { b with phase := b.phase + 512 }
  else { b with
    phase := b.phase + 512 - 1953125, window := b.window + 1
    count := b.count + trimAdvance b.window b.adjust, adjust := trimLeft b.window b.adjust }

/-- The trackers of R120. -/
def tidesAdvance (s : State) : State :=
  { s with tides := s.tides.map (fun e => (e.1, tideAdvance e.2)) }

/-- A frame of a host transmit queue goes to the port that its header names; to both plant ports where they are redundant
(R507 to R509, Table QUE-2). DEDUCED: log entry 36. -/
def queTransmit (base q : Nat) (s : State) : State :=
  let p := base + (mget (queAddr q (queTail q s) s + 3) s).toNat % 2
  let both := base == 0 && redundant s
  let ok := if both then portUp 0 s || portUp 1 s else portUp p s
  if !queHas q s || !ok then s
  else queTake q (fun f t =>
    if both then t |> onlyIf (portUp 0 t) (sendOut (.frame 0 f)) |> onlyIf (portUp 1 t) (sendOut (.frame 1 f))
    else sendOut (.frame p f) t) s

/-- The transmit queues of R513: the lowest-numbered non-empty one of the plant ports, and Q3 to the ring (R541). -/
def transmit (s : State) : State :=
  let t := match ([4, 5, 6, 7].filter (fun q => queHas q s)).head? with
    | some q => queTransmit 0 q s
    | none => s
  onlyIf (ringMaster t) (queTransmit 2 3) t

/-- One CD_FABRIC cycle of a module that runs. -/
def fabricCycle (s : State) : State :=
  { s with cycle := s.cycle + 1 }
    |> mtimeAdvance |> onlyIf (regionsUp s) tidesAdvance |> settle |> rfxCycle
    |> onlyIf (regionsUp s) (forAll (List.range 24) heldRelease)
    |> dwellStep |> onlyIf (regionsUp s) transmit |> powerContinue |> activateContinue

/-- 8 ns pass: the backup domain counts on through reset and off (R583), the rest only while CD_FABRIC ticks. -/
def tick (s : State) : State :=
  let t := { s with backup := backupAdvance s.backup }
  if alive t then fabricCycle t else t

end Sys2Proof.Machine
end

