-- ==== Sys2Proof/Machine/Step.lean ====
section
/-! DEFINITION. The step: the command at the front of the queue acts on the rest; with none waiting, one CD_FABRIC cycle passes
(log entry 1). -/
namespace Sys2Proof.Machine

/-- One step of the module. -/
def step (s : State) : Host.Outcome State Fault Refusal :=
  match s.pending with
  | c :: rest => exec c { s with pending := rest }
  | [] => .next (tick s)

/-- The state with a command at the front of its queue. -/
def State.front (c : Instr) (s : State) : State := { s with pending := c :: s.pending }

/-- The state with the command that a word spells at the front of its queue; the table gives no row bits (log entry 2). -/
def State.withFetchWord (s : State) (nbits w : Nat) : State :=
  match decodeTableWord nbits w with
  | some c => s.front c
  | none => s

end Sys2Proof.Machine
end

