-- ==== Sys2Proof/WellFormed.lean ====
section
/-! DEFINITION. Well-formed commands: what the types of the operands do not say. A command that is not well-formed still
has a meaning (the access is ignored, cut or completed with zeros); no rule of the spec describes one. -/
namespace Sys2Proof

/-- An address of the register area, aligned to a word (R9, Table ARCH-9). -/
def wfRegister (addr : BitVec 26) : Bool := decide (addr.toNat % 4 = 0) && decide (addr.toNat < 0x01000000)

/-- A word of the register area or of the tag values (R10, R190). -/
def wfWord (addr : BitVec 26) : Bool :=
  wfRegister addr || (decide (addr.toNat % 4 = 0) && decide (0x02100000 ≤ addr.toNat) && decide (addr.toNat < 0x02180000))

/-- A span inside its BAR and outside the register area (R606). -/
def wfSpan (bar2 : Bool) (off : BitVec 33) (len : Fin 257) : Bool :=
  decide (1 ≤ len.val) && (if bar2 then decide (off.toNat + len.val ≤ 0x200000000)
    else decide (0x01000000 ≤ off.toNat) && decide (off.toNat + len.val ≤ 0x04000000))

/-- A write carries as many bytes as its length says, a read none. -/
def wfData (write : Bool) (len : Fin 257) (data : List Byte) : Bool :=
  decide (data.length = if write then len.val else 0)

/-- The checks of a command. -/
def Instr.wf : Instr → Bool
  | .registerWrite addr _ _ _ => wfRegister addr
  | .lowWordRead addr => wfWord addr
  | .counterRead addr _ => wfRegister addr
  | .hostMemoryAccess bar2 off len write data _ => wfSpan bar2 off len && wfData write len data
  | .debugAccess write addr len data =>
    decide (1 ≤ len.val) && decide (addr.toNat + len.val ≤ 2 ^ 36) && wfData write len data
  | _ => true

end Sys2Proof
end

