-- ==== Sys2Proof/Safety.lean ====
section
/-! DEFINITION. What the statements about every step speak of: completion, the parts of the state that a step may change, the
canonical form of tables and memories, and the order of lifecycle states. -/
namespace Sys2Proof.Machine

/-- The command answers a next state of which `P` holds. -/
def Completes (c : Instr) (s : State) (P : State → Prop) : Prop := ∃ t, exec c s = .next t ∧ P t

/-- The command to a power state (R668). -/
def powerCommand (c : Fin 5) : Instr :=
  match c.val with
  | 0 => .powerCmdOff
  | 1 => .powerCmdQuiet
  | 2 => .powerCmdReady
  | 3 => .powerCmdRun
  | _ => .powerCmdHold

/-! ### Kloquakor instructions -/

/-- The triad runs task `n` and executes its next instruction (R171, R477). -/
def kqRuns (n : Fin 24) (s : State) : Bool := s.exe.running == some n.val && kqReady n s

/-- A register of a task and its bits 31:0. -/
abbrev kReg (n : Fin 24) (s : State) (r : Fin 64) : DWord := kAt (task n s) r
abbrev kReg32 (n : Fin 24) (s : State) (r : Fin 64) : Word := (kReg n s r).setWidth 32

/-- A 64-bit result, or a 32-bit one sign-extended (R228) or zero-extended (R231, R235). -/
def sx (w : Bool) (lo : Word) (full : DWord) : DWord := if w then lo.signExtend 64 else full
def zx (w : Bool) (lo : Word) (full : DWord) : DWord := if w then lo.zeroExtend 64 else full

/-- Task `n` wrote `v` to RD, where a write to k0 is discarded, has the flags `f` and goes on to the next instruction
(R222, R223). -/
abbrev KqWrote (n : Fin 24) (rd : Fin 64) (v : DWord) (f : Flags) (s t : State) : Prop :=
  (∀ r : Fin 64, kReg n t r = if r = rd ∧ r.val ≠ 0 then v else kReg n s r)
  ∧ (task n t).flags = f ∧ (task n t).pc = (task n s).pc + 1

/-- Task `n` wrote no register, has the flags `f` and goes on to the next instruction. -/
abbrev KqKept (n : Fin 24) (f : Flags) (s t : State) : Prop :=
  (∀ r : Fin 64, kReg n t r = kReg n s r) ∧ (task n t).flags = f ∧ (task n t).pc = (task n s).pc + 1

/-- A result with Z and N from its 64 bits, and OV set by an overflow (R225, R229). -/
abbrev KqArith (n : Fin 24) (rd : Fin 64) (v : DWord) (ov : Bool) (s t : State) : Prop :=
  KqWrote n rd v { (task n s).flags with z := v == 0, n := v.msb, ov := (task n s).flags.ov || ov } s t

/-- A logic result: Z from it and N from its top bit in the width (R235). -/
abbrev KqLogic (n : Fin 24) (rd : Fin 64) (w : Bool) (v : DWord) (s t : State) : Prop :=
  KqWrote n rd v { (task n s).flags with z := v == 0, n := v.getLsbD (if w then 31 else 63) } s t

/-- Task `n` goes on at a program counter with a return stack, its registers and flags unchanged. -/
abbrev KqWent (n : Fin 24) (pc : Int) (stack : List Nat) (s t : State) : Prop :=
  ((task n t).pc : Int) = pc ∧ (task n t).stack = stack ∧ (task n t).k = (task n s).k ∧ (task n t).flags = (task n s).flags

/-- Task `n` went on at PC + OFF when the branch was taken, and else at the next instruction (R243). -/
abbrev KqBranched (n : Fin 24) (off : BitVec 20) (taken : Bool) (s t : State) : Prop :=
  KqWent n (if taken then ((task n s).pc : Int) + off.toInt else (task n s).pc + 1) (task n s).stack s t

/-- A status in RD, with Z for success (R254). -/
abbrev KqStatus (n : Fin 24) (rd : Fin 64) (st : Status) (s t : State) : Prop :=
  KqWrote n rd (st.zeroExtend 64) { (task n s).flags with z := st.toNat % 256 == 0 } s t

/-- The task waits for the target of a block instruction (R258). -/
def blockWait : Wait → Bool
  | .block _ _ _ _ _ => true
  | _ => false

/-- The program fault of R260: the task's registers stay, and the triad is halted with the module level. -/
abbrev KqFaulted (n : Fin 24) (s t : State) : Prop :=
  (task n t) = (task n s) ∧ inFallback 0 t = true ∧ flag Fld.SUP_PWR_STATE_MODULE_FAULT t = true ∧ t.sup.authDriven = false

/-- Bits of a binary64 or (`f`) binary32 value in a register: a NaN, a signalling NaN, an infinity, a zero, the sign, and the
NaN made quiet (R232). -/
def nanF (f : Bool) (v : DWord) : Bool := if f then decide (0x7F800000 < v.toNat % 2 ^ 31) else decide (0x7FF0000000000000 < v.toNat % 2 ^ 63)
def snanF (f : Bool) (v : DWord) : Bool := nanF f v && !v.getLsbD (if f then 22 else 51)
def infF (f : Bool) (v : DWord) : Bool := if f then decide (v.toNat % 2 ^ 31 = 0x7F800000) else decide (v.toNat % 2 ^ 63 = 0x7FF0000000000000)
def zeroF (f : Bool) (v : DWord) : Bool := if f then decide (v.toNat % 2 ^ 31 = 0) else decide (v.toNat % 2 ^ 63 = 0)
def signF (f : Bool) (v : DWord) : Bool := v.getLsbD (if f then 31 else 63)
def quietF (f : Bool) (v : DWord) : DWord := if f then (v &&& 0xFFFFFFFF#64) ||| 0x400000#64 else v ||| 0x8000000000000#64
/-- The canonical NaN and plus infinity of the format. -/
def nanC (f : Bool) : DWord := if f then 0x7FC00000#64 else 0x7FF8000000000000#64
def infC (f : Bool) (neg : Bool) : DWord :=
  if f then (if neg then 0xFF800000#64 else 0x7F800000#64) else (if neg then 0xFFF0000000000000#64 else 0x7FF0000000000000#64)
/-- The bits of the format. -/
def bitsF (f : Bool) (v : DWord) : DWord := if f then v &&& 0xFFFFFFFF#64 else v

/-- The order of two values that are not NaN by their bits; `-0` lies below `+0` where `zeros` says so. -/
def belowF (f zeros : Bool) (a b : DWord) : Bool :=
  if zeroF f a && zeroF f b then zeros && signF f a && !signF f b
  else match signF f a, signF f b with
    | false, false => (bitsF f a).ult (bitsF f b)
    | true, true => (bitsF f b).ult (bitsF f a)
    | true, false => true
    | false, true => false

/-- A finite value as an exact multiple of one fixed power of two, a half of the least subnormal number of the format. -/
def exactF (f : Bool) (v : Nat) : Int :=
  let m := Flt.sig (fmtOf f) v * 2 ^ (Flt.expo (fmtOf f) v + ((fmtOf f).bias + (fmtOf f).p : Nat)).toNat
  if Flt.sign (fmtOf f) v then -(m : Int) else m

/-- The sequence number of the next record of an ordered kind (R471). -/
def nextRecord (kind : Nat) (s : State) : Word := toW (Sparse.get (fun _ => 0) s.pair.taken kind) + 1

/-- A queue gives its consumer an item (R630), and the item's payload; a bulk item carries an offset, LAST and data (R653). -/
def itemReady (q : Nat) (s : State) : Bool :=
  queHas q s && decide (mgetN (queAddr q (queTail q s) s) 2 s ≤ queSlot q s - 16)
def itemBytes (q : Nat) (s : State) : List Byte :=
  mgetBytes (queAddr q (queTail q s) s + 16) (mgetN (queAddr q (queTail q s) s) 2 s) s
def itemOffset (q : Nat) (s : State) : Nat := leNat ((itemBytes q s).take 4)
def itemLast (q : Nat) (s : State) : Bool := leNat (((itemBytes q s).drop 4).take 4) % 2 == 1
def itemData (q : Nat) (s : State) : List Byte := (itemBytes q s).drop 8

/-- A register whose writes the access codes of its fields rule alone (R3): not one whose writes are commands of their own, or
that holds no bits of its own, or whose fields have a range. -/
def plainReg (a : Nat) : Bool :=
  (regRow a).isSome && decide (a < 0x01000000) && !ownRow a && !inRange a 0x080000 0x08FFFF && !inRange a 0x040200 0x0403FF
  && !inRange a 0x050040 0x05007F
  && !([Reg.SUP_PWR_CMD, Reg.STR_EVENT, Reg.CLK_TRIM, Reg.MPU_STG_W0, Reg.MPU_STG_W1, Reg.MPU_STG_W2, Reg.MPU_STG_MCFG,
    Reg.PAIR_CFG, Reg.PTP_JUMP, Reg.RING_CFG, Reg.STR_FREEZE_CFG, Reg.LCY_DBG_CFG, Reg.FWU_CFG].contains a)

/-- The parts of the state. `block b` is the registers at window offsets 0x10000 * b to 0x10000 * b + 0xFFFF; `blocks` stands for
every block. -/
inductive Part where
  | pending | master | host | block (b : Nat) | blocks | time | free | mem | strand | backup | tides | tideTable | seqs | exe | loop
  | dio | rfx | ana | saf | triad | pair | net | can | lcy | fwu | sup | mpu | mbx | queSeq | out
  deriving DecidableEq, Repr

/-- The part is the same in two states. -/
def Part.same (p : Part) (s t : State) : Prop :=
  match p with
  | .pending => t.pending = s.pending
  | .master => t.accMaster = s.accMaster
  | .host => t.hostData = s.hostData ∧ t.hostBytes = s.hostBytes ∧ t.captured = s.captured ∧ t.dbgData = s.dbgData
  | .block b => ∀ a, a / 65536 = b → rd a t = rd a s
  | .blocks => True
  | .time => t.cycle = s.cycle ∧ t.mtime = s.mtime
  | .free => t.freeCtr = s.freeCtr
  | .mem => t.mem = s.mem
  | .strand => t.strand = s.strand
  | .backup => t.backup = s.backup
  | .tides => t.tides = s.tides ∧ t.tiFault = s.tiFault
  | .tideTable => t.tt = s.tt ∧ t.ttOut = s.ttOut ∧ t.ttFull = s.ttFull
  | .seqs => t.seqs = s.seqs
  | .exe => t.exe = s.exe
  | .loop => t.loop = s.loop
  | .dio => t.dio = s.dio ∧ t.dioBank = s.dioBank ∧ t.po = s.po
  | .rfx => t.terms = s.terms ∧ t.rfxStopped = s.rfxStopped
  | .ana => t.an = s.an ∧ t.anBank = s.anBank
  | .saf => t.saf = s.saf
  | .triad => t.triad = s.triad
  | .pair => t.pair = s.pair
  | .net => t.net = s.net
  | .can => t.can = s.can
  | .lcy => t.lcy = s.lcy
  | .fwu => t.fwu = s.fwu ∧ t.fwPause = s.fwPause ∧ t.fwWait = s.fwWait
  | .sup => t.sup = s.sup
  | .mpu => t.mpu = s.mpu
  | .mbx => t.mailboxes = s.mailboxes ∧ t.locks = s.locks
  | .queSeq => t.queSeq = s.queSeq
  | .out => t.out = s.out

/-- The part is listed: by itself, or as one of the blocks. -/
def Part.listed (p : Part) (A : List Part) : Bool :=
  A.contains p || (match p with | .block _ => A.contains .blocks | _ => false)

/-- Nothing but the listed parts may differ. -/
def Only (A : List Part) (s t : State) : Prop := ∀ p : Part, p.listed A = false → p.same s t

/-- Whenever a command answers a next state, nothing but the listed parts differs. -/
def Frame (A : List Part) (c : Instr) : Prop := ∀ s t : State, exec c s = .next t → Only A s t

/-- An instruction of task `n` changed nothing of the triad but that task, and so no other task `o`. -/
abbrev KqStays (n o : Fin 24) (s t : State) : Prop :=
  t.exe = { s.exe with tasks := t.exe.tasks } ∧ (n ≠ o → task o t = task o s)

/-- The bytes of the slot that a queue fills next, and of all its slots. -/
def inSlot (q : Nat) (s : State) (a : Nat) : Bool :=
  queEnabled q s && decide (queAddr q (queHead q s) s ≤ a) && decide (a < queAddr q (queHead q s) s + queSlot q s)
def inQueue (q : Nat) (s : State) (a : Nat) : Bool :=
  queEnabled q s && decide (queAddr q 0 s ≤ a) && decide (a < queAddr q 0 s + queEntries q s * queSlot q s)

/-- The transition under way and the erase marker are transitions of Table LCY-2 from the present state (R638, R643). -/
def LifecycleSound (s : State) : Prop :=
  s.lcy.transition.all (fun x => lcyListed s.lcy.st.val x.val) = true
  ∧ s.lcy.marker.all (fun x => lcyListed s.lcy.st.val x.val && decide (4 ≤ x.val)) = true

/-- The register file, memory and tag memory are in canonical form: rising keys, and no entry that equals what an unlisted
key reads as. -/
def Canonical (s : State) : Prop :=
  Sparse.wf regReset s.regs = true ∧ Sparse.wf (fun _ => (0 : Byte)) s.mem = true
  ∧ Sparse.wf (fun _ => (0 : DWord)) s.exe.tagMem = true

end Sys2Proof.Machine
end

