-- ==== Sys2Proof/Certificates/Slice0/Obligations.lean ====
section
/-! DEFINITION. The statements for the provers. -/
open Sys2Proof Sys2Proof.Machine

/-- A region fault, a fallback that fails, a failed clock domain, an isolation that does not act and a lost liveness line do
what chapters 1 and 19 say: the region's fallback bit is set, and the module level sets EBB and MODULE_FAULT and
releases AUTH. (R33, R34, R36, R37, R39, R41, R704) -/
def Obligations.RegionFaults : Prop := ∀ (s : State) (r : Region) (st : Status) (d : ClockDomain) (tie : Bool),
  (regionsUp s = true → inFallback (regionCode r) s = false →
    Completes (.regionFault r st) s (fun t => inFallback (regionCode r) t = true
      ∧ (r = .logic → flag Fld.SUP_PWR_STATE_MODULE_FAULT t = true ∧ t.sup.authDriven = false)))
  ∧ (alive s = true → Completes (.regionFallbackFail r) s (fun t => flag Fld.SUP_PWR_STATE_EBB t = true
      ∧ flag Fld.SUP_PWR_STATE_MODULE_FAULT t = true ∧ flag Fld.PAIR_STATE_AUTH_HELD t = false ∧ t.sup.authDriven = false))
  ∧ (regionsUp s = true → d ≠ .back → s.sup.clockFailed.contains d = false →
    Completes (.clockFailure d) s (fun t => t.sup.clockFailed = d :: s.sup.clockFailed ∧ inFallback (domainRegion d) t = true))
  ∧ (regionsUp s = true → s.sup.isolated.any (fun e => e.1 / 256 == regionCode r) = true → inFallback (regionCode r) s = false →
    Completes (.bankIsolationTimeout r) s (fun t => inFallback (regionCode r) t = true))
  ∧ Completes .cdFabricStop s (fun t => t = { s with sup := { s.sup with fabricStopped := true } } ∧ alive t = false)
  ∧ (alive s = true → Completes .livenessToggle s (fun t => t.sup.liveness = !s.sup.liveness))
  ∧ (s.sup.inReset = false → 2 ≤ power s → Completes (.safLiveness tie) s (fun t => t.sup.hardEbb = true
      ∧ t.sup.authDriven = false ∧ flag Fld.PAIR_STATE_AUTH_HELD t = false))

/-- The feeds, the OR-ed supply, the seat contact, the lever, the SID pins and the presence pin act as chapters 1, 2 and 19
say: each sets its state bits, a supply failure acts as the module level and then resets, and a loss of power empties
what is not flash. A claim drives the line; a measurement of 2.3 mA or more makes the side hold authority; below it side
A or a lone module goes on driving in a contest and another side stops; a confirming run ends the contest, and a contest
that no run ends is lost. (R62, R63, R64, R65, R66, R68, R69, R72, R73, R74, R75, R76) -/
def Obligations.FeedsSeatLeverAndAuthLine : Prop :=
  (∀ (s : State) (b : Bool) (sid : BitVec 2),
  (alive s = true → Completes (.modFeedLow b false) s (fun t => flag (feedOk b) t = false ∧ flag (feedOk !b) t = flag (feedOk !b) s))
  ∧ (alive s = true → Completes (.modFeedLow b true) s (fun t => flag (feedOk b) t = flag (feedOk b) s
      ∧ fld Fld.MOD_CLOSE_CALL_COUNT t = min (fld Fld.MOD_CLOSE_CALL_COUNT s + 1) 0xFFFF))
  ∧ (alive s = true → flag (feedOk b) s = false → Completes (.modFeedOk b) s (fun t => flag (feedOk b) t = true))
  ∧ (alive s = true → s.sup.powerFail = false → Completes .modPowerFail s (fun t => t.sup.powerFail = true
      ∧ flag Fld.SUP_PWR_STATE_MODULE_FAULT t = true ∧ t.sup.authDriven = false))
  ∧ (alive s = true → s.sup.powerFail = true → Completes .powerFailReset s (fun t => t.sup.inReset = true ∧ t.sup.supplyLow = true
      ∧ t.sup.cause = 1 ∧ t.mem = s.mem ∧ t.backup = s.backup))
  ∧ Completes .powerLoss s (fun t => t.sup.inReset = true ∧ t.sup.cause = 0 ∧ t.saf.conns = [] ∧ t.backup = s.backup
      ∧ (∀ a, a < 0x300000000 → mget a t = 0) ∧ (∀ a, 0x300000000 ≤ a → mget a t = mget a s))
  ∧ (s.sup.inReset = true → s.sup.supplyLow = true → s.sup.converters = true → Completes .powerOn s (fun t => t.sup.inReset = false
      ∧ t.sup.supplyLow = false ∧ t.sup.sid = sidOf s.sup.sidPins))
  ∧ Completes .insertionQualified s (fun t => t.sup.seated = true ∧ t.sup.leverClosed = true ∧ t.sup.converters = true ∧ t.regs = s.regs)
  ∧ (alive s = true → Completes .seatedNBreak s (fun t => t.sup.seated = false ∧ t.sup.unseated = true ∧ t.sup.hardEbb = true
      ∧ t.sup.authDriven = false))
  ∧ (alive s = true → activeSide s = false → Completes .leverOpen s (fun t => t = { s with sup := { s.sup with leverClosed := false } }))
  ∧ (alive s = true → s.sup.removing = true → s.pair.switch = .none → activeSide s = false →
    Completes .modRemoveReady s (fun t => flag Fld.MOD_STATUS_REMOVE_READY t = true ∧ t.sup.removing = false))
  ∧ (alive s = true → Completes .leverClose s (fun t => t.sup.leverClosed = true ∧ flag Fld.MOD_STATUS_REMOVE_READY t = false))
  ∧ (alive s = true → sidOf sid ≠ s.sup.sid → Completes (.modSidChanged sid) s (fun t => t.sup.sidPins = sid ∧ t.sup.sid = s.sup.sid
      ∧ flag Fld.MOD_EVENT_SID t = true))
  ∧ Completes (.peerPresenceChange b) s (fun t => t = { s with sup := { s.sup with peerPresent := b } }))
  ∧ (∀ (s : State) (alone : Bool),
  (mayClaim s = true → Completes .authClaim s (fun t => t.sup.authDriven = true ∧ t.sup.claimAt = some s.cycle ∧ t.regs = s.regs))
  ∧ (alive s = true → s.sup.authDriven = true → s.sup.claimAt.isSome = true →
    Completes (.authMeasure true) s (fun t => flag Fld.PAIR_STATE_AUTH_HELD t = true ∧ t.sup.claimAt = none ∧ t.sup.contesting = false))
  ∧ (alive s = true → s.sup.authDriven = true → s.sup.claimAt.isSome = true →
    Completes (.authMeasure false) s (fun t => if s.sup.sid = 0 ∨ s.sup.sid = 2 then t.sup.contesting = true ∧ t.sup.authDriven = true
      else t.sup.authDriven = false ∧ flag Fld.PAIR_STATE_AUTH_HELD t = false))
  ∧ (alive s = true → flag Fld.PAIR_STATE_AUTH_HELD s = true → s.sup.authDriven = true → s.sup.contesting = false →
    Completes .authShared s (fun t => if s.sup.sid = 0 ∨ s.sup.sid = 2 then t.sup.contesting = true ∧ flag Fld.PAIR_STATE_AUTH_HELD t = true
      else t.sup.authDriven = false ∧ flag Fld.PAIR_STATE_AUTH_HELD t = false))
  ∧ (alive s = true → s.sup.contesting = true → Completes .authConfirmRun s (fun t => t.sup.contesting = false ∧ t.sup.authOther = false
      ∧ flag Fld.PAIR_STATE_AUTH_HELD t = true))
  ∧ (alive s = true → s.sup.contesting = true → Completes .pairContestLost s (fun t => t.sup.contesting = false ∧ t.sup.authDriven = false
      ∧ flag Fld.PAIR_STATE_AUTH_HELD t = false)))

/-- A 32-bit write of a register with no command of its own gives its RW bits (and its RWL bits while the lock is open) the
written value, clears its W1C bits where a 1 is written and hardware does not set them, and leaves every other bit; a
write with byte enables changes nothing; a read of a low word captures its high word; a read of a counter returns it and
leaves the events of the same clock. An allowed access to the host region of DRAM through BAR2 returns the bytes of its
range, or stores its data there and changes no other byte of memory; an access that no module answers changes nothing.
(R3, R4, R5, R6, R7, R9, R10, R52, R54, R603, R606, 17_memory_protection_and_mailboxes.md) -/
def Obligations.HostRegisterAndMemoryAccess : Prop :=
  (∀ (s : State) (a : BitVec 26) (v hw : Word) (be : BitVec 4),
  (plainReg a.toNat = true → a.toNat % 4 = 0 → hostOk a.toNat .write s = true →
    Completes (.registerWrite a 0xF v hw) s (fun t => ∀ r, regRow a.toNat = some r → ∀ i, i < 32 →
      (rd a.toNat t).getLsbD i =
        if r.rw.getLsbD i || (r.rwl.getLsbD i && lockOpen a.toNat s) then v.getLsbD i
        else if r.w1c.getLsbD i then (rd a.toNat s).getLsbD i && !(v.getLsbD i && !hw.getLsbD i)
        else (rd a.toNat s).getLsbD i))
  ∧ (hostOk Reg.CLK_TRIM .write s = true → Completes (.registerWrite (BitVec.ofNat 26 Reg.CLK_TRIM) 0xF v hw) s (fun t => t.backup.trim = trimOf v))
  ∧ (hostOk Reg.STR_EVENT .write s = true → Completes (.registerWrite (BitVec.ofNat 26 Reg.STR_EVENT) 0xF v hw) s (fun t =>
      t.strand.events = s.strand.events &&& ~~~ (v &&& 0x7F &&& ~~~ hw)))
  ∧ (be ≠ 0xF → Completes (.registerWrite a be v hw) s (fun t => t = s))
  ∧ (isLow a.toNat = true → regRow a.toNat ≠ none → hostOk a.toNat .read s = true → Completes (.lowWordRead a) s (fun t =>
      t.hostData = s.view a.toNat ∧ Sparse.find t.captured (a.toNat + 4) = some (s.view (a.toNat + 4))))
  ∧ (isLow a.toNat = false → 4 ≤ a.toNat → isLow (a.toNat - 4) = true → hostOk a.toNat .read s = true → Completes (.lowWordRead a) s (fun t =>
      t.hostData = (Sparse.find s.captured a.toNat).getD (s.view a.toNat)))
  ∧ (isCounter a.toNat = true → a.toNat ≠ Reg.STR_COUNTS → hostOk a.toNat .read s = true → Completes (.counterRead a v) s (fun t =>
      t.hostData = s.view a.toNat ∧ ∀ r, regRow a.toNat = some r →
        rd a.toNat t = (rd a.toNat s &&& ~~~ r.rc) ||| (v &&& r.rc))))
  ∧ (∀ (s : State) (off : BitVec 33) (len : Fin 257) (data : List Byte),
  (power s ≠ 0 → s.sup.inReset = false → hostAnswers 0x130000 s = true → 0x20000000 ≤ off.toNat → off.toNat + len ≤ 0x100000000 →
    (accParts 64 5 off.toNat len).all (fun p => (partCause 8 p.1 .read s).isNone) = true →
    Completes (.hostMemoryAccess true off len false data none) s (fun t =>
      t.hostBytes = mgetBytes off.toNat len s ∧ t.mem = s.mem ∧ t.regs = s.regs))
  ∧ (power s ≠ 0 → s.sup.inReset = false → hostAnswers 0x130000 s = true → 0x20000000 ≤ off.toNat → off.toNat + len ≤ 0x100000000 →
    data.length = len → (accParts 64 5 off.toNat len).all (fun p => (partCause 8 p.1 .write s).isNone) = true →
    Completes (.hostMemoryAccess true off len true data none) s (fun t => t.regs = s.regs ∧ ∀ a, mget a t =
      if off.toNat ≤ a ∧ a < off.toNat + len then data.getD (a - off.toNat) 0 else mget a s))
  ∧ (power s = 0 ∨ s.sup.inReset = true → ∀ (w bar2 : Bool), Completes (.hostMemoryAccess bar2 off len w data none) s (fun t => t = s)))

/-- After a host write that is answered and allowed, the fields that the field tables bound hold a value inside their
bounds, whatever was written; a trace buffer that runs keeps its configuration, and the EN bit of a DIO bank is not
changed by a plain write of its register. (R7, 13_pair_redundancy.md, 14_network_and_time.md,
16_strandline_and_clock.md, 18_lifecycle_debug_and_update.md) -/
def Obligations.RangedFieldsStayInRange : Prop := ∀ (s : State) (v hw : Word) (b : Fin 32) (k : Fin 4),
  (hostOk Reg.PAIR_CFG .write s = true → Completes (.registerWrite (BitVec.ofNat 26 Reg.PAIR_CFG) 0xF v hw) s (fun t =>
    inRange (fld Fld.PAIR_CFG_RECLAIM_DWELL t) 1 3600 = true ∧ inRange (fld Fld.PAIR_CFG_LAG_PCT t) 5 50 = true
    ∧ inRange (fld Fld.PAIR_CFG_HB_PERIOD t) 100 500 = true))
  ∧ (hostOk Reg.PTP_JUMP .write s = true → Completes (.registerWrite (BitVec.ofNat 26 Reg.PTP_JUMP) 0xF v hw) s (fun t =>
    rd Reg.PTP_JUMP t = toW (max 1000 (min 1000000000 v.toNat))))
  ∧ (hostOk Reg.RING_CFG .write s = true → Completes (.registerWrite (BitVec.ofNat 26 Reg.RING_CFG) 0xF v hw) s (fun t =>
    inRange (fld Fld.RING_CFG_LEAD_US t) 10 1000 = true))
  ∧ (hostOk Reg.STR_FREEZE_CFG .write s = true → Completes (.registerWrite (BitVec.ofNat 26 Reg.STR_FREEZE_CFG) 0xF v hw) s (fun t =>
    inRange (fld Fld.STR_FREEZE_CFG_FREEZE_MAX t) 1 600 = true))
  ∧ (hostOk Reg.LCY_DBG_CFG .write s = true → Completes (.registerWrite (BitVec.ofNat 26 Reg.LCY_DBG_CFG) 0xF v hw) s (fun t =>
    inRange (fld Fld.LCY_DBG_CFG_WINDOW t) 10 3600 = true))
  ∧ (hostOk Reg.FWU_CFG .write s = true → Completes (.registerWrite (BitVec.ofNat 26 Reg.FWU_CFG) 0xF v hw) s (fun t =>
    inRange (fld Fld.FWU_CFG_TRIAL_WIN t) 60 86400 = true))
  ∧ (flag (Fld.TRBb_STATUS_RUN b) s = true → hostOk (Reg.TRBb_CFG b) .write s = true →
    Completes (.registerWrite (BitVec.ofNat 26 (Reg.TRBb_CFG b)) 0xF v hw) s (fun t => t = s))
  ∧ (hostOk (Reg.DIO_BANKk_CFG k) .write s = true →
    Completes (.registerWrite (BitVec.ofNat 26 (Reg.DIO_BANKk_CFG k)) 0xF v hw) s (fun t =>
      fld (Fld.DIO_BANKk_CFG_EN k) t = fld (Fld.DIO_BANKk_CFG_EN k) s))

/-- Setting ENABLE starts a tide whose configuration is sound (LOCKED at once for a free-running source, ACQUIRE for
another, at the initial frequency and with its position kept) and sends one whose configuration conflicts or is out of
range to FAULT; clearing it freezes the position; RESYNC makes the next measurement the first, or jumps a free-running
tide to its offset; a lock bit opens only while its tide is disabled. The update slot takes the waiting measurement,
shows its phase error, and in LOCKED corrects the position by the error shifted by KP_SHIFT and the frequency by the
error shifted by KI_SHIFT, clamped; HOLD_LIMIT sends HOLDOVER to LOST unless a measurement arrives in the same cycle; a
failed reference check sends every tide on TI inputs to HOLDOVER. (R101, R108, R120, R121, R122, R123, R124, R127, R128,
R129, R130, 03_tide_tracking.md) -/
def Obligations.TideCommandsAndTracking : Prop :=
  (∀ (s : State) (n : Fin 8) (m : BitVec 8),
  (hostOk Reg.TIDE_CTRL .write s = true → tideEnabled n s = false → tideConflict n s = false → tideRangeOk n s = true →
    (tideSource n s = 4 → disciplined s = true) → Completes (.tideEnable n) s (fun t => tideEnabled n t = true
      ∧ bitAt Reg.TIDE_LOCK n t = false ∧ (tide n t).st = (if tideSource n s = 0 then .locked else .acquire)
      ∧ (tide n t).omega = omegaInit n s ∧ (tide n t).pos = (tide n s).pos))
  ∧ (hostOk Reg.TIDE_CTRL .write s = true → tideEnabled n s = false → tideConflict n s = true ∨ tideRangeOk n s = false →
    Completes (.tideEnable n) s (fun t => (tide n t).st = .fault ∧ flag (Fld.TDn_STATUS_CFG_CONFLICT n) t = true))
  ∧ (hostOk Reg.TIDE_CTRL .write s = true → tideEnabled n s = true → Completes (.tideDisable n) s (fun t => tideEnabled n t = false
      ∧ (tide n t).st = .disabled ∧ (tide n t).pos = (tide n s).pos ∧ (tide n t).pend = none))
  ∧ (hostOk Reg.TIDE_CTRL .write s = true → tideRuns n s = true → tideSource n s ≠ 0 → Completes (.tideResync n) s (fun t =>
      (tide n t).fresh = true ∧ (tide n t).crossings = 0 ∧ (tide n t).st = (tide n s).st))
  ∧ (hostOk Reg.TIDE_CTRL .write s = true → tideRuns n s = true → tideSource n s = 0 → Completes (.tideResync n) s (fun t =>
      tideAngle n t = tideOffset n s))
  ∧ (hostOk Reg.TIDE_LOCK .write s = true → Completes (.tideLockOpen m) s (fun t => ∀ i : Fin 8,
      bitAt Reg.TIDE_LOCK i t = (m.getLsbD i && !tideEnabled i s))))
  ∧ (∀ (s : State) (n : Fin 8),
  (regionsUp s = true → tideRuns n s = true → ∀ p ∈ (tide n s).pend, Completes (.trackerUpdate n) s (fun t => (tide n t).pend = none
      ∧ rd (Reg.TDn_PHASE_ERR n) t = BitVec.ofInt 32 (p.err.getD (angleDiff p.phi (thetaAngle (thetaAt p.tk (tide n s) s))))))
  ∧ (regionsUp s = true → (tide n s).st = .locked → (tide n s).fresh = false → ∀ p ∈ (tide n s).pend,
    Completes (.trackerUpdate n) s (fun t =>
      let e := p.err.getD (angleDiff p.phi (thetaAngle (thetaAt p.tk (tide n s) s)))
      let ki := fld (Fld.TDn_CFG_KI_SHIFT n) s
      (tide n t).pos = (tide n s).pos + BitVec.ofInt 96 (e * 2 ^ (32 - fld (Fld.TDn_CFG_KP_SHIFT n) s))
      ∧ (tide n t).omega = omegaClamp (tideSource n s) ((tide n s).omega + (if ki ≤ 32 then e * 2 ^ (32 - ki) else e / 2 ^ (ki - 32)))))
  ∧ (alive s = true → (tide n s).st = .holdover → Completes (.tideLost n false) s (fun t => (tide n t).st = .lost
      ∧ (tide n t).pos = (tide n s).pos))
  ∧ (alive s = true → (tide n s).st = .holdover → Completes (.tideLost n true) s (fun t => t.tides = s.tides
      ∧ fld Fld.TIDE_CLOSE_CALL_COUNT t = min (fld Fld.TIDE_CLOSE_CALL_COUNT s + 1) 0xFFFF))
  ∧ (regionsUp s = true → inRange (tideSource n s) 1 3 = true → (tide n s).st = .locked → Completes .tideBankFault s (fun t =>
      flag Fld.SUP_REGIONS_TI_BANK t = true ∧ (tide n t).st = .holdover)))

/-- A first mains crossing of sufficient amplitude becomes the waiting measurement at its instant and angle, one of too
small an amplitude is rejected; a miss counts and leads to HOLDOVER at HOLD_ENTRY; an edge moves the position by one
within SCALE; the first index pulse places the tide; a line fault is recorded and cleared; a 1 µs interval turns the
position or network time into a measurement. (R106, R107, R109, R110, R111, R113, R114, R115, R116, R117, R118) -/
def Obligations.TideMeasurements : Prop := ∀ (s : State) (n : Fin 8) (pos fwd tie z : Bool) (peak age : Nat) (input : Fin 4),
  (crossingUsed n pos s = true → (tide n s).lastCross = none → (tide n s).crossings = 0 → fld (Fld.TDn_WINDOWS_FILTER n) s * 50 ≤ peak →
    Completes (.mainsCrossing n pos peak age tie) s (fun t => flag (Fld.TDn_STATUS_REF_OK n) t = true ∧ (tide n t).crossings = 1
      ∧ (tide n t).pend = some { phi := tideOffset n s + (if pos then 0 else 0x80000000), tk := nowNs s - age }
      ∧ (tide n t).lastCross = some (nowNs s - age)))
  ∧ (crossingUsed n pos s = true → peak < fld (Fld.TDn_WINDOWS_FILTER n) s * 50 → Completes (.mainsCrossing n pos peak age tie) s (fun t =>
      flag (Fld.TDn_STATUS_REF_OK n) t = false ∧ flag (Fld.TDn_STATUS_AMPL_LOW n) t = true ∧ (tide n t).skipped = true
      ∧ (tide n t).pend = (tide n s).pend))
  ∧ (tideSource n s = 1 → (tide n s).st = .acquire ∨ (tide n s).st = .locked → alive s = true → Completes (.tideMiss n) s (fun t =>
      (tide n t).skipped = true ∧ (tide n t).missCnt = (tide n s).missCnt + 1
      ∧ (tide n t).st = if fld (Fld.TDn_CFG_HOLD_ENTRY n) s ≤ (tide n s).missCnt + 1 then .holdover else (tide n s).st))
  ∧ (edgesLive n 2 s = true → Completes (.encoderEdge n false fwd) s (fun t => (tide n t).hadEdge = true ∧ (tide n t).p =
      if fwd = flag (Fld.TDn_CFG_DIR_INVERT n) s then ((tide n s).p + tideScale n s - 1) % tideScale n s else ((tide n s).p + 1) % tideScale n s))
  ∧ (edgesLive n 2 s = true → Completes (.encoderEdge n true fwd) s (fun t => flag (Fld.TDn_STATUS_QUAD_ERR n) t = true
      ∧ (tide n t).reject = true ∧ (tide n t).p = (tide n s).p))
  ∧ (edgesLive n 3 s = true → Completes (.stepEdge n fwd) s (fun t => (tide n t).hadEdge = true ∧ (tide n t).p =
      if fwd = flag (Fld.TDn_CFG_DIR_INVERT n) s then ((tide n s).p + tideScale n s - 1) % tideScale n s else ((tide n s).p + 1) % tideScale n s))
  ∧ (edgesLive n 2 s = true ∨ edgesLive n 3 s = true → fld (Fld.TDn_CFG_INDEX_MODE n) s ≠ 0 → (tide n s).indexSeen = false →
    Completes (.indexPulse n) s (fun t => (tide n t).p = 0 ∧ (tide n t).indexSeen = true ∧ tideAngle n t = tideOffset n s ∧ tideTurn n t = 0))
  ∧ (regionsUp s = true → tideRuns n s = true → tideSource n s = 4 → disciplined s = true → Completes (.tideMeasurement n) s (fun t =>
      (tide n t).pend = some { phi := phiNet n s, tk := nowNs s } ∧ flag (Fld.TDn_STATUS_REF_OK n) t = true))
  ∧ (edgesLive n 2 s = true → (tide n s).reject = false → (tide n s).hadEdge = true → Completes (.tideMeasurement n) s (fun t =>
      (tide n t).pend = some { phi := phiP n s, tk := (tide n s).edgeNs } ∧ (tide n t).hadEdge = false))
  ∧ (regionsUp s = true → Completes (.tideLineFault input z true) s (fun t => t.tiFault.contains (input * 2 + z.toNat) = true))
  ∧ (regionsUp s = true → Completes (.tideLineFault input z false) s (fun t => t.tiFault.contains (input * 2 + z.toNat) = false))

/-- TT_CMD WRITE by the owner of a sound and claimed entry stores the five words, completes with success and changes no
other entry; by another owner it changes no entry; READ copies the eight words to TT_DATA; RETIRE clears VALID; a write
of TT_PARTITION moves the boundary only while no entry is valid; a write of TT_CLAIM claims the twelve outputs. A visit
notes the angle of a valid entry and lets go of one that lies outside the look-ahead; a crossing counts the firing and
retires the entry or advances it by STEP, and is suppressed and counted when the tide's state does not allow it; a pulse
ends; a failed calibration marks its line; a memory error retires the entry, and one in a step puts its sequencer in RUN
or HELD to FAULT. (R132, R133, R134, R135, R136, R137, R138, R140, R141, R143, R146, 04_tide_tables_and_step_tables.md) -/
def Obligations.TideTable : Prop :=
  (∀ (s : State) (v : Word) (j : Fin 4096) (w : Fin 8),
  (hostOk Reg.TT_CMD .write s = true → ttHosts (fld Fld.TT_SEL_INDEX s) s = true →
    ttBad { w0 := rd (Reg.TT_DATA 0) s, w3 := rd (Reg.TT_DATA 3) s } s = false →
    ttClaimed ((rd (Reg.TT_DATA 0) s).toNat % 65536) s = true ∨ inRange ((rd (Reg.TT_DATA 0) s).toNat / 2 ^ 24 % 16) 1 2 = false →
    Completes .ttWrite s (fun t => (ttEntry (fld Fld.TT_SEL_INDEX s) t).w0 = rd (Reg.TT_DATA 0) s
      ∧ (ttEntry (fld Fld.TT_SEL_INDEX s) t).w1 = rd (Reg.TT_DATA 1) s ∧ (ttEntry (fld Fld.TT_SEL_INDEX s) t).w2 = rd (Reg.TT_DATA 2) s
      ∧ (ttEntry (fld Fld.TT_SEL_INDEX s) t).w3 = rd (Reg.TT_DATA 3) s ∧ (ttEntry (fld Fld.TT_SEL_INDEX s) t).w4 = rd (Reg.TT_DATA 4) s
      ∧ fld Fld.TT_RESULT_STATUS t = Code.TIDE_OK.toNat ∧ (j.val ≠ fld Fld.TT_SEL_INDEX s → ttEntry j t = ttEntry j s)))
  ∧ (hostOk Reg.TT_CMD .write s = true → ttHosts (fld Fld.TT_SEL_INDEX s) s = false → Completes .ttWrite s (fun t =>
      t.tt = s.tt ∧ fld Fld.TT_RESULT_STATUS t = Code.TT_NOT_OWNER.toNat))
  ∧ (hostOk Reg.TT_CMD .write s = true → Completes .ttRead s (fun t => t.tt = s.tt ∧
      rd (Reg.TT_DATA w) t = (let e := ttEntry (fld Fld.TT_SEL_INDEX s) s
        match w with | 0 => e.w0 | 1 => e.w1 | 2 => e.w2 | 3 => e.w3 | 4 => e.w4 | 5 => e.w5 | 6 => e.w6 | 7 => e.w7)))
  ∧ (hostOk Reg.TT_CMD .write s = true → ttHosts (fld Fld.TT_SEL_INDEX s) s = true → Completes .ttRetire s (fun t =>
      ttValid (ttEntry (fld Fld.TT_SEL_INDEX s) t) = false ∧ (ttEntry (fld Fld.TT_SEL_INDEX s) t).armed = false
      ∧ (ttEntry (fld Fld.TT_SEL_INDEX s) t).w1 = (ttEntry (fld Fld.TT_SEL_INDEX s) s).w1))
  ∧ (hostOk Reg.TT_PARTITION .write s = true → s.tt.any (fun x => ttValid x.2) = false → Completes (.ttPartitionWrite v) s (fun t =>
      fld Fld.TT_PARTITION_HOST_FIRST t = min (v.toNat % 8192) 4096))
  ∧ (hostOk Reg.TT_PARTITION .write s = true → s.tt.any (fun x => ttValid x.2) = true → Completes (.ttPartitionWrite v) s (fun t =>
      fld Fld.TT_PARTITION_HOST_FIRST t = fld Fld.TT_PARTITION_HOST_FIRST s ∧ fld Fld.TT_RESULT_STATUS t = Code.TT_PARTITION_BUSY.toNat))
  ∧ (hostOk Reg.TT_CLAIM .write s = true → Completes (.ttClaimWrite v) s (fun t => rd Reg.TT_CLAIM t = v &&& 0xFFF
      ∧ (∀ b : Fin 12, v.getLsbD b = true → bitAt Reg.TT_CLAIM b s = false → (ttOut (claimCode b) t).value = false))))
  ∧ (∀ (s : State) (i : Fin 4096) (fwd dropped : Bool) (step q : Fin 32) (o : TideOut),
  (regionsUp s = true → ttValid (ttEntry i s) = true → Completes (.ttScanVisit i) s (fun t =>
      (ttEntry i t).w5 = tideAngle (ttTide (ttEntry i s)) s ∧ (ttAhead (ttEntry i s) s = false → (ttEntry i t).armed = false)))
  ∧ (ttRuns s = true → ttValid (ttEntry i s) = true → (ttEntry i s).armed = true → ttDirOk (ttEntry i s) fwd = true →
    tideRuns (ttTide (ttEntry i s)) s = true → tideAllows (ttHold (ttEntry i s)) (tide (ttTide (ttEntry i s)) s).st = true →
    Completes (.ttFire i fwd step dropped) s (fun t =>
      (ttEntry i t).w6 = toW (min ((ttEntry i s).w6.toNat + 1) 0xFFFF)
      ∧ ttValid (ttEntry i t) = (ttRepeat (ttEntry i s) && (ttEntry i s).w4 != 1)
      ∧ (ttEntry i t).w1 = if ttRepeat (ttEntry i s) && (ttEntry i s).w4 != 1 then
          (if fwd then (ttEntry i s).w1 + (ttEntry i s).w2 else (ttEntry i s).w1 - (ttEntry i s).w2) else (ttEntry i s).w1))
  ∧ (ttRuns s = true → ttValid (ttEntry i s) = true → (ttEntry i s).armed = true → ttDirOk (ttEntry i s) fwd = true →
    tideRuns (ttTide (ttEntry i s)) s = true → tideAllows (ttHold (ttEntry i s)) (tide (ttTide (ttEntry i s)) s).st = false →
    Completes (.ttFire i fwd step dropped) s (fun t => (ttEntry i t).w6 = (ttEntry i s).w6
      ∧ bitAt Reg.TT_EVENT (Fld.TT_EVENT_SUPPRESSED.lo + ttTide (ttEntry i s)) t = true))
  ∧ (ttRuns s = true → ttValid (ttEntry i s) = true → (ttEntry i s).late.isSome = true →
    tideAllows (ttHold (ttEntry i s)) (tide (ttTide (ttEntry i s)) s).st = true → Completes (.ttLateFire i) s (fun t =>
      (ttEntry i t).w6 = toW (min ((ttEntry i s).w6.toNat + 1) 0xFFFF) ∧ (ttEntry i t).late = none))
  ∧ (regionsUp s = true → (ttOut (tideOutCode o) s).trailing.isSome = true → Completes (.pulseTrailingEdge o) s (fun t =>
      (ttOut (tideOutCode o) t).value = false ∧ (ttOut (tideOutCode o) t).trailing = none))
  ∧ (regionsUp s = true → (ttOut (tideOutCode o) s).lineFailed = false → Completes (.ttCalibration o false) s (fun t =>
      (ttOut (tideOutCode o) t).lineFailed = true))
  ∧ (regionsUp s = true → Completes (.ttMemErr (.entry i)) s (fun t => ttValid (ttEntry i t) = false
      ∧ (ttEntry i t).w7 = Code.TT_MEM_ERR.zeroExtend 32))
  ∧ (regionsUp s = true → (seq q s).st = .run ∨ (seq q s).st = .held → Completes (.ttMemErr (.step q)) s (fun t => (seq q t).st = .fault
      ∧ bitAt Reg.SQ_FAULT_EV q t = true ∧ t.tt = s.tt)))

/-- A host command waits for the next evaluation; there a START of an idle sequencer enters its step (FAULT for an invalid
one), a due exit of a last step ends in DONE, a time duration that runs out enters the next step at the nominal instant,
a timeout with no fault step ends in FAULT; signal bits accumulate; a mirror record is kept with the check of its step.
(R148, R152, R153, R155, R156, R157, R158, R159, R160, R163) -/
def Obligations.SequencerCommands : Prop := ∀ (s : State) (q : Fin 32) (n : Fin 1024) (b : Byte) (r : SeqMirror),
  (seqsRun s = true → (seq q s).st = .idle → (seq q s).cmds = [.start n] → Completes (.sqEvaluation q) s (fun t =>
      (seq q t).step = n ∧ (seq q t).cmds = [] ∧ (seq q t).work = stepWords q n s
      ∧ (seq q t).st = if stepBad (stepWords q n s) s then .fault else .run))
  ∧ (seqsRun s = true → (seq q s).st = .run → exitDue (seq q s) s = true → stepBits (seq q s).work 0 24 24 = 1 → (seq q s).cmds = [] →
    Completes (.sqEvaluation q) s (fun t => (seq q t).st = .done ∧ bitAt Reg.SQ_DONE_EV q t = true))
  ∧ (seqsRun s = true → (seq q s).st = .run → timeDue (seq q s) (execBase s) = true → exitKind (seq q s).work = 0 →
    stepBits (seq q s).work 0 24 24 = 0 → (seq q s).cmds = [] → Completes (.sqDurationElapsed q) s (fun t =>
      (seq q t).step = stepBits (seq q s).work 0 21 12 ∧ (seq q t).nominal = (seq q s).nominal + stepDur (seq q s).work))
  ∧ (seqsRun s = true → (seq q s).st = .run → timeoutDue (seq q s) s = true → exitDue (seq q s) s = false →
    stepBits (seq q s).work 0 9 0 = 1023 → (seq q s).cmds = [] → Completes (.sqTimeout q) s (fun t => (seq q t).st = .fault
      ∧ bitAt Reg.SQ_FAULT_EV q t = true))
  ∧ (hostOk (Reg.SQs_CMD q) .write s = true → Completes (.sqStart q n) s (fun t => (seq q t).cmds = (seq q s).cmds ++ [.start n])
      ∧ Completes (.sqHold q) s (fun t => (seq q t).cmds = (seq q s).cmds ++ [.hold])
      ∧ Completes (.sqResume q) s (fun t => (seq q t).cmds = (seq q s).cmds ++ [.resume])
      ∧ Completes (.sqAbort q) s (fun t => (seq q t).cmds = (seq q s).cmds ++ [.abort])
      ∧ Completes (.sqJump q n) s (fun t => (seq q t).cmds = (seq q s).cmds ++ [.jump n] ∧ (seq q t).st = (seq q s).st))
  ∧ (hostOk (Reg.SQs_SIGNAL q) .write s = true → Completes (.sqSignalWrite q b) s (fun t => (seq q t).signals = (seq q s).signals ||| b))
  ∧ (regionsUp s = true → onStandby s = true → Completes (.sqMirrorRecord q r) s (fun t => (seq q t).mirror = some r
      ∧ (seq q t).mirrorOk = decide (stepCrc q r.step s = r.crc)))

/-- A crossing in an allowed tide state releases an idle cyclic task, moves its release angle by STEP and takes the
execution time base as its cycle time; one before the commit is an overrun; the module's own timer releases it while its
tide's state is not allowed; a signal sets an event task's pending flag or is merged, the release clears it, and a
running slack action holds the release with its instant; the latch takes every input tag in tag order; a task of higher
priority preempts the running one. (R171, R173, R174, R175, R177, R178, R180, R200, R201) -/
def Obligations.TaskReleases : Prop := ∀ (s : State) (n : Fin 8) (e : Fin 16) (i : Fin 24) (u : Fin 24) (fwd : Bool) (sig : BitVec 16),
  (exeRuns s = true → onStandby s = false →
    (taskDef n s).any (fun d => d.kind == 1 && tideAllows d.hold (tide d.tide s).st && (fwd || d.either)) = true →
    (task n s).freerun = false → (task n s).phase = .idle → (task n s).held = .no → slackBusy s = false →
    (task n s).released = false ∨ (task n s).lastRelease + 100000 ≤ nowNs s → Completes (.taskRelease n fwd) s (fun t =>
      (task n t).phase = .latch ∧ (task n t).lastRelease = nowNs s ∧ (task n t).cycleTime = execBase s ∧ (task n t).k = []
      ∧ (task n t).angle = (taskDef n s).map (fun d =>
          if fwd then (task n s).angle.getD d.angle + d.step else (task n s).angle.getD d.angle - d.step)))
  ∧ (exeRuns s = true → onStandby s = false →
    (taskDef n s).any (fun d => d.kind == 1 && tideAllows d.hold (tide d.tide s).st && (fwd || d.either)) = true →
    (task n s).freerun = false → (task n s).phase ≠ .idle → s.fwPause = false → Completes (.taskRelease n fwd) s (fun t =>
      rd Reg.EXE_OVERRUN t = toW (0xC0000000 + n) ∧ inFallback 0 t = true ∧ flag Fld.SUP_PWR_STATE_MODULE_FAULT t = true))
  ∧ (exeRuns s = true → onStandby s = false →
    (taskDef n s).any (fun d => d.kind == 1 && !tideAllows d.hold (tide d.tide s).st) = true →
    (task n s).phase = .idle → (task n s).held = .no → slackBusy s = false →
    (task n s).released = false ∨ (task n s).lastRelease + 100000 ≤ nowNs s → Completes (.taskTimerRelease n) s (fun t =>
      (task n t).phase = .latch ∧ (task n t).freerun = true ∧ (task n t).lastRelease = nowNs s ∧ (task n t).angle = (task n s).angle))
  ∧ (regionsUp s = true → (taskDef (8 + e) s).isSome = true → (task (8 + e) s).pending = false → Completes (.eventTaskSignal e) s (fun t =>
      (task (8 + e) t).pending = true))
  ∧ (regionsUp s = true → (taskDef (8 + e) s).isSome = true → (task (8 + e) s).pending = true → Completes (.eventTaskSignal e) s (fun t =>
      (task (8 + e) t).pending = true ∧ flag Fld.EXE_EVENT_EVT_MERGED t = true
      ∧ fld (Fld.TASKt_COUNTS_MERGED (8 + e)) t = min (fld (Fld.TASKt_COUNTS_MERGED (8 + e)) s + 1) 0xFFFF))
  ∧ (regionsUp s = true → (taskDef (8 + e) s).isSome = false → Completes (.eventTaskSignal e) s (fun t => t.exe = s.exe))
  ∧ (exeRuns s = true → onStandby s = false → (taskDef (8 + e) s).any (fun d => d.kind == 2) = true →
    (task (8 + e) s).pending = true → (task (8 + e) s).phase = .idle → (task (8 + e) s).held = .no → Completes (.eventTaskRelease e) s (fun t =>
      if slackBusy s then (task (8 + e) t).phase = .idle ∧ (task (8 + e) t).pending = true ∧ (task (8 + e) t).held = .slack (nowNs s)
      else (task (8 + e) t).phase = .latch ∧ (task (8 + e) t).pending = false ∧ (task (8 + e) t).lastRelease = nowNs s))
  ∧ (hostOk Reg.EXE_EVT_SIGNAL .write s = true → sig.getLsbD e = true → (taskDef (8 + e) s).isSome = true →
    Completes (.exeEvtSignalWrite sig) s (fun t => (task (8 + e) t).pending = true))
  ∧ (regionsUp s = true → inFallback 0 s = false → (task i s).phase = .latch → (taskDef i s).isSome = true →
    Completes (.inputLatchComplete i) s (fun t => ((task i t).phase = .ready ∨ (task i t).phase = .run) ∧ (task i t).snap = []
      ∧ some (task i t).input = (taskDef i s).map (fun d => (tagOrder d.inputs).map (fun g => (g, latchTag g (task i s) s)))))
  ∧ (triadRuns s = true → onStandby s = false → s.exe.running = some i.val → nextTask s = some u.val → taskPrio u s < taskPrio i s →
    (task i s).phase = .run → Completes .taskPreempt s (fun t => t.exe.running = some u.val ∧ (task u t).phase = .run
      ∧ (task i t).phase = .preempted ∧ (task i t).k = (task i s).k ∧ (task i t).pc = (task i s).pc))

/-- A commit ends the cycle with the task's output image, counts it, and with a tie counts a close call; a write of RUN sets
it; an action that waits too long is counted and reported; at its deadline an answered station of an active side is not
stale, an unanswered one is stale and at its limit invalid; an expired watchdog halts the triad with the task recorded,
or sends an in-step side whose partner has committed to TRACKING. (R176, R182, R183, R186, R195, R196, R198, R200, R201,
R482) -/
def Obligations.TaskCommitsAndOverruns : Prop := ∀ (s : State) (i : Fin 24) (n : Fin 8) (k : Fin 64) (tie b : Bool),
  (regionsUp s = true → inFallback 0 s = false → (task i s).phase = .commit → pairState s ≠ 4 → Completes (.outputCommit i tie) s (fun t =>
      (task i t).phase = .idle ∧ (task i t).cycles = (task i s).cycles + 1 ∧ (task i t).output = outImage i s
      ∧ (∀ g ∈ outImage i s, (tagDef g.1 s).any (fun d => d.locKind != 0 && d.output) = true →
          committed g.1 t = some g.2)
      ∧ fld (Fld.TASKt_COUNTS_CYCLES i) t = (fld (Fld.TASKt_COUNTS_CYCLES i) s + 1) % 65536
      ∧ rd Reg.EXE_CLOSE_CALL t = if tie then rd Reg.EXE_CLOSE_CALL (bump Fld.EXE_CLOSE_CALL_COUNT s) else rd Reg.EXE_CLOSE_CALL s))
  ∧ (hostOk Reg.EXE_CTRL .write s = true → Completes (.exeRunWrite b) s (fun t => flag Fld.EXE_CTRL_RUN t = b
      ∧ (task i t).phase = (task i s).phase ∧ (b = true → flag Fld.EXE_CTRL_RUN s = false → (task i t).released = false)))
  ∧ (regionsUp s = true → s.exe.busy = .swap ∨ s.exe.busy = .revert ∨ s.exe.busy = .apply → Completes .exeNoSlack s (fun t =>
      flag Fld.EXE_EVENT_NO_SLACK t = true ∧ fld Fld.EXE_SLACK_MISS_COUNT t = min (fld Fld.EXE_SLACK_MISS_COUNT s + 1) 0xFFFF
      ∧ t.exe = s.exe))
  ∧ (regionsUp s = true → onStandby s = false → (taskStations n s).map (·.1) = [k.val] → (station k s).answered = true →
    Completes (.stationDeadline n) s (fun t => (station k t).stale = false ∧ (station k t).invalid = (fld (Fld.STNs_STATUS_STATE k) s == 3)
      ∧ (station k t).staleCount = 0 ∧ flag (staleBit k) t = false))
  ∧ (regionsUp s = true → onStandby s = false → (taskStations n s).map (·.1) = [k.val] → (station k s).answered = false →
    Completes (.stationDeadline n) s (fun t => (station k t).stale = true ∧ flag (staleBit k) t = true
      ∧ (station k t).staleCount = (station k s).staleCount + 1 ∧ t.exe.remote = s.exe.remote
      ∧ ((taskStations n s).any (fun e => decide (e.2.staleLimit ≤ (station k s).staleCount + 1)) = true → (station k t).invalid = true)))
  ∧ (regionsUp s = true → inFallback 0 s = false → (task i s).phase ≠ .idle → pairState s = 1 ∨ pairState s = 5 → s.fwPause = false →
    Completes (.exeOverrun i) s (fun t => rd Reg.EXE_OVERRUN t = toW (0x80000000 + i) ∧ inFallback 0 t = true
      ∧ flag Fld.EXE_EVENT_OVERRUN t = true ∧ flag Fld.SUP_PWR_STATE_EBB t = true ∧ t.sup.authDriven = false))
  ∧ (regionsUp s = true → inFallback 0 s = false → (task i s).phase ≠ .idle → pairState s = 4 → s.fwPause = false →
    s.pair.theirs.any (fun c => c.task == i.val && c.cycle == (task i s).cycles) = true → Completes (.exeOverrun i) s (fun t =>
      pairState t = 3 ∧ flag Fld.PAIR_EVENT_STANDBY_FAULT t = true ∧ t.exe.running = none ∧ (task i t).phase = .idle ∧ inFallback 0 t = false))

/-- VERIFY starts its check, and is refused in values-only mode; the check loads a good image and refuses another with the
first failing status; ARM waits for its slack or, with RUN 0, switches at once; an operation in another phase is refused
and changes nothing of the images; CANCEL, REVERT, COMMIT and VALUES act as Table EXE-6 says; a values list with a
refused entry ends the operation. (R203, R204, R205, R206, R207, R216, R501) -/
def Obligations.OnlineChangeCommands : Prop := ∀ (s : State) (m : Image) (sound legal b : Bool),
  (hostOk Reg.EXE_CHANGE_CMD .write s = true → s.exe.busy = .none → s.exe.phase = .none ∨ s.exe.phase = .swapped →
    flag Fld.EXE_CFG_CHANGE_MODE s = false → Completes .changeVerify s (fun t => t.exe.busy = .verify ∧ t.exe.savedPhase = s.exe.phase
      ∧ t.exe.image = s.exe.image))
  ∧ (hostOk Reg.EXE_CHANGE_CMD .write s = true → s.exe.busy = .none → s.exe.phase = .none ∨ s.exe.phase = .swapped →
    flag Fld.EXE_CFG_CHANGE_MODE s = true → Completes .changeVerify s (fun t => t.exe = s.exe
      ∧ fld Fld.EXE_CHANGE_STATUS_STATUS t = Code.EXE_MODE_REFUSED.toNat ∧ flag Fld.EXE_EVENT_CHANGE_REFUSED t = true))
  ∧ (regionsUp s = true → s.exe.busy = .verify → imageStatus m sound legal = none → Completes (.changeVerifyDone m sound legal) s (fun t =>
      t.exe.inactive = some m ∧ t.exe.previous = none ∧ t.exe.image = s.exe.image ∧ t.exe.phase = .verified ∧ t.exe.busy = .none
      ∧ fld Fld.EXE_CHANGE_STATUS_STATUS t = Code.EXE_OK.toNat))
  ∧ (regionsUp s = true → s.exe.busy = .verify → (imageStatus m sound legal).isSome = true → Completes (.changeVerifyDone m sound legal) s (fun t =>
      t.exe = { s.exe with busy := .none } ∧ t.mem = s.mem ∧ flag Fld.EXE_EVENT_CHANGE_REFUSED t = true
      ∧ some (fld Fld.EXE_CHANGE_STATUS_STATUS t) = (imageStatus m sound legal).map BitVec.toNat))
  ∧ (hostOk Reg.EXE_CHANGE_CMD .write s = true → s.exe.busy = .none → onStandby s = false → s.exe.phase = .verified → s.exe.inactive = some m →
    imageDiffers m s = false → flag Fld.EXE_CTRL_RUN s = true → Completes .changeArm s (fun t => t.exe.phase = .armed ∧ t.exe.busy = .swap
      ∧ t.exe.needUs = (match s.exe.image with | some o => needUs o m | none => 20) ∧ t.exe.image = s.exe.image))
  ∧ (hostOk Reg.EXE_CHANGE_CMD .write s = true → s.exe.busy = .none → onStandby s = false → s.exe.phase = .verified → s.exe.inactive = some m →
    imageDiffers m s = false → flag Fld.EXE_CTRL_RUN s = false → Completes .changeArm s (fun t => t.exe.phase = .swapped
      ∧ t.exe.image = some m ∧ t.exe.previous = s.exe.image ∧ t.exe.timers = [] ∧ rd Reg.EXE_IMAGE_CRC t = m.crc))
  ∧ (hostOk Reg.EXE_CHANGE_CMD .write s = true → s.exe.busy = .none → onStandby s = false → s.exe.phase = .none →
    Completes .changeArm s (fun t => t.exe = s.exe ∧ fld Fld.EXE_CHANGE_STATUS_STATUS t = Code.EXE_CHANGE_INVALID.toNat)
    ∧ Completes .changeRevert s (fun t => t.exe = s.exe ∧ fld Fld.EXE_CHANGE_STATUS_STATUS t = Code.EXE_CHANGE_INVALID.toNat)
    ∧ Completes .changeCommit s (fun t => t.exe = s.exe ∧ fld Fld.EXE_CHANGE_STATUS_STATUS t = Code.EXE_CHANGE_INVALID.toNat))
  ∧ (hostOk Reg.EXE_CHANGE_CMD .write s = true → onStandby s = false → s.exe.busy = .verify → Completes (.changeCancel b) s (fun t =>
      t.exe.busy = .none ∧ t.exe.phase = s.exe.savedPhase ∧ fld Fld.EXE_CHANGE_STATUS_STATUS t = Code.EXE_CHANGE_CANCELLED.toNat))
  ∧ (hostOk Reg.EXE_CHANGE_CMD .write s = true → onStandby s = false → s.exe.busy = .swap → Completes (.changeCancel false) s (fun t =>
      t.exe.busy = .none ∧ t.exe.phase = .none ∧ t.exe.inactive = none ∧ t.exe.image = s.exe.image))
  ∧ (hostOk Reg.EXE_CHANGE_CMD .write s = true → onStandby s = false → s.exe.busy = .swap → Completes (.changeCancel true) s (fun t =>
      t.exe = s.exe ∧ fld Fld.EXE_CHANGE_STATUS_STATUS t = Code.EXE_CHANGE_INVALID.toNat))
  ∧ (hostOk Reg.EXE_CHANGE_CMD .write s = true → s.exe.busy = .none → onStandby s = false → s.exe.phase = .swapped → s.exe.previous = some m →
    imageDiffers m s = false → flag Fld.EXE_CTRL_RUN s = true → Completes .changeRevert s (fun t => t.exe.busy = .revert ∧ t.exe.image = s.exe.image))
  ∧ (hostOk Reg.EXE_CHANGE_CMD .write s = true → s.exe.busy = .none → onStandby s = false → s.exe.phase = .swapped →
    Completes .changeCommit s (fun t => t.exe.phase = .none ∧ t.exe.previous = none ∧ t.exe.image = s.exe.image
      ∧ fld Fld.EXE_CHANGE_STATUS_STATUS t = Code.EXE_CHANGE_COMMITTED.toNat))
  ∧ (hostOk Reg.EXE_CHANGE_CMD .write s = true → s.exe.busy = .none → onStandby s = false → s.exe.phase = .none ∨ s.exe.phase = .swapped →
    Completes .changeValues s (fun t => t.exe.busy = .values ∧ t.exe.phase = s.exe.phase))
  ∧ (regionsUp s = true → s.exe.busy = .values → inRange (fld Fld.EXE_VALUES_LEN_LEN s) 1 4096 = true →
    ((List.range (fld Fld.EXE_VALUES_LEN_LEN s)).map (listEntry s)).all (fun e => listOk e s) = true → Completes .valuesCheckDone s (fun t =>
      t.exe.busy = .apply ∧ t.exe.values = (List.range (fld Fld.EXE_VALUES_LEN_LEN s)).map (listEntry s) ∧ t.exe.image = s.exe.image))
  ∧ (regionsUp s = true → s.exe.busy = .values → inRange (fld Fld.EXE_VALUES_LEN_LEN s) 1 4096 = false → Completes .valuesCheckDone s (fun t =>
      t.exe = { s.exe with busy := .none } ∧ fld Fld.EXE_CHANGE_STATUS_STATUS t = Code.EXE_VALUE_REFUSED.toNat))

/-- In a slack that offers the need, the swap runs the new image and keeps the old one, keeps the value of a carried memory-
only tag at its new location, moves carried timers, and drops every force whose tag does not carry over; the switch back
runs the previous image (PHASE NONE after it is the model's choice, log entry 17); a checked values list is applied in
full. SET gives a tag its force value and leaves the forces of other tags; CLEAR, CLEAR_ALL and READ act as R191 says; a
standby side refuses force commands; a host write of a half of a host tag's value takes it, and one of any other tag is
dropped and counted. (R190, R191, R192, R208, R209, R210, R211, R215, R216, R479) -/
def Obligations.ImageSwitchesAndForces : Prop :=
  (∀ (s : State) (m o : Image) (g : Tag),
  (s.exe.busy = .swap → changeFits s = true → inRange (pairState s) 2 3 = false → s.exe.inactive = some m → Completes .imageSwap s (fun t =>
      t.exe.image = some m ∧ t.exe.previous = s.exe.image ∧ t.exe.inactive = none ∧ t.exe.phase = .swapped ∧ t.exe.busy = .none
      ∧ t.exe.area = !s.exe.area ∧ flag Fld.EXE_EVENT_CHANGE_DONE t = true ∧ fld Fld.EXE_CHANGE_STATUS_STATUS t = Code.EXE_CHANGE_DONE.toNat
      ∧ t.exe.forces = forcesKept s.exe.image m s))
  ∧ (s.exe.busy = .swap → changeFits s = true → inRange (pairState s) 2 3 = false → s.exe.inactive = some m → s.exe.image = some o →
    ((m.tags.filter (fun e => e.2.typ != 0 && e.2.locKind == 0)).map (fun e => e.2.location.toNat / 8)).Nodup →
    (Sparse.find m.tags g.toNat).any (fun d => d.typ != 0 && d.locKind == 0 && (Sparse.find o.tags g.toNat).any (fun e => e.typ == d.typ)) = true →
    Completes .imageSwap s (fun t => (tagLive g.toNat t).val = (tagLive g.toNat s).val
      ∧ t.exe.timers = moveInst (instCarried o.timers m.timers) s.exe.timers))
  ∧ (s.exe.busy = .revert → changeFits s = true → inRange (pairState s) 2 3 = false → s.exe.previous = some m → Completes .revertSwitch s (fun t =>
      t.exe.image = some m ∧ t.exe.previous = none ∧ t.exe.phase = .none ∧ t.exe.busy = .none
      ∧ fld Fld.EXE_CHANGE_STATUS_STATUS t = Code.EXE_CHANGE_REVERTED.toNat))
  ∧ (s.exe.busy = .apply → changeFits s = true → s.exe.values.all (fun e => e.1 == 2) = true → Completes .valuesApply s (fun t =>
      t.exe.image = s.exe.image.map (fun m => s.exe.values.foldl (fun m e => { m with consts := Sparse.insert m.consts e.2.1 e.2.2 }) m)
      ∧ t.exe.values = [] ∧ t.exe.busy = .none ∧ t.exe.phase = s.exe.phase ∧ flag Fld.EXE_EVENT_CHANGE_DONE t = true))
  ∧ (s.exe.busy = .apply → changeFits s = true → s.exe.values.length = 1 →
    s.exe.values.all (fun e => e.1 == 1 && (tagDef e.2.1 s).any (fun d => d.locKind == 0 && d.typ == 4)) = true →
    Completes .valuesApply s (fun t => ∀ e ∈ s.exe.values, (tagLive e.2.1 t).val = e.2.2)))
  ∧ (∀ (s : State) (g h : Tag) (high : Bool) (v : Word),
  (hostOk Reg.EXE_FORCE_CMD .write s = true → onStandby s = false → fld Fld.EXE_FORCE_TAG_TAG s = g.toNat → forceRefused g.toNat s = false →
    (forceOf g.toNat s).isSome = true ∨ s.exe.forces.length < 1024 → Completes .forceSet s (fun t =>
      forceOf g.toNat t = some (narrowTag (((tagDef g.toNat s).map (·.typ)).getD 0) (rd64 Reg.EXE_FORCE_VAL_LO s))
      ∧ fld Fld.EXE_FORCE_RESULT_STATUS t = Code.EXE_FORCE_SET.toNat
      ∧ ((s.exe.forces.map (·.1)).Nodup → h ≠ g → forceOf h.toNat t = forceOf h.toNat s)))
  ∧ (hostOk Reg.EXE_FORCE_CMD .write s = true → onStandby s = false → fld Fld.EXE_FORCE_TAG_TAG s = g.toNat → forceRefused g.toNat s = true →
    Completes .forceSet s (fun t => t.exe = s.exe ∧ fld Fld.EXE_FORCE_RESULT_STATUS t = Code.EXE_FORCE_REFUSED.toNat))
  ∧ (hostOk Reg.EXE_FORCE_CMD .write s = true → onStandby s = false → fld Fld.EXE_FORCE_TAG_TAG s = g.toNat → (forceOf g.toNat s).isSome = true →
    Completes .forceClear s (fun t => forceOf g.toNat t = none ∧ (h ≠ g → forceOf h.toNat t = forceOf h.toNat s)
      ∧ fld Fld.EXE_FORCE_RESULT_STATUS t = Code.EXE_FORCE_CLEARED.toNat))
  ∧ (hostOk Reg.EXE_FORCE_CMD .write s = true → onStandby s = false → fld Fld.EXE_FORCE_TAG_TAG s = g.toNat → (forceOf g.toNat s).isSome = false →
    Completes .forceClear s (fun t => t.exe = s.exe ∧ fld Fld.EXE_FORCE_RESULT_STATUS t = Code.EXE_NOT_FORCED.toNat))
  ∧ (hostOk Reg.EXE_FORCE_CMD .write s = true → onStandby s = false → Completes .forceClearAll s (fun t => t.exe.forces = []
      ∧ fld Fld.EXE_FORCE_RESULT_STATUS t = Code.EXE_FORCE_CLEARED.toNat))
  ∧ (hostOk Reg.EXE_FORCE_CMD .write s = true → onStandby s = false → fld Fld.EXE_FORCE_TAG_TAG s = g.toNat → Completes .forceRead s (fun t =>
      rd64 Reg.EXE_FORCE_VAL_LO t = (forceOf g.toNat s).getD 0 ∧ t.exe = s.exe
      ∧ fld Fld.EXE_FORCE_RESULT_STATUS t = (if (forceOf g.toNat s).isSome then Code.EXE_OK.toNat else Code.EXE_NOT_FORCED.toNat)))
  ∧ (hostOk Reg.EXE_FORCE_CMD .write s = true → onStandby s = true → Completes .forceSet s (fun t => t.exe = s.exe
      ∧ flag Fld.PAIR_EVENT_CMD_REFUSED t = true ∧ fld Fld.EXE_FORCE_RESULT_STATUS t = Code.PAIR_STANDBY_REFUSED.toNat))
  ∧ (hostOk (0x02100000 + 8 * g.toNat + (if high then 4 else 0)) .write s = true → onStandby s = false →
    (tagDef g.toNat s).any (fun d => d.writerKind == 4 && d.locKind == 0 && (tagColourCause 8 d .write s).isNone) = true →
    Completes (.hostTagWrite g high v) s (fun t => some (tagLive g.toNat t).val
      = (tagDef g.toNat s).map (fun d => narrowTag d.typ (replaceHalf (tagLive g.toNat s).val high v))))
  ∧ (hostOk (0x02100000 + 8 * g.toNat + (if high then 4 else 0)) .write s = true → (tagDef g.toNat s).any (fun d => d.writerKind == 4) = false →
    Completes (.hostTagWrite g high v) s (fun t => t.exe = s.exe ∧ flag Fld.EXE_EVENT_TAG_DENIED t = true
      ∧ fld Fld.EXE_TAG_DENIED_COUNT t = min (fld Fld.EXE_TAG_DENIED_COUNT s + 1) 0xFFFF)))

/-- Each integer instruction writes its wrapped result, sign-extended from the width, sets Z and N from it and OV by signed
overflow, and changes no other register; a division by zero gives 0, sets DZ and the program goes on. (R222, R225, R228,
R229, R230) -/
def Obligations.KqIntegerArithmetic : Prop := ∀ (s : State) (n : Fin 24) (w : Bool) (rd ra rb : Fin 64),
  (kqRuns n s = true → Completes (.add w rd ra rb) s (KqArith n rd (sx w (kReg32 n s ra + kReg32 n s rb) (kReg n s ra + kReg n s rb))
    (if w then (kReg32 n s ra).saddOverflow (kReg32 n s rb) else (kReg n s ra).saddOverflow (kReg n s rb)) s))
  ∧ (kqRuns n s = true → Completes (.sub w rd ra rb) s (KqArith n rd (sx w (kReg32 n s ra - kReg32 n s rb) (kReg n s ra - kReg n s rb))
    (if w then (kReg32 n s ra).ssubOverflow (kReg32 n s rb) else (kReg n s ra).ssubOverflow (kReg n s rb)) s))
  ∧ (kqRuns n s = true → Completes (.mul w rd ra rb) s (KqArith n rd (sx w (kReg32 n s ra * kReg32 n s rb) (kReg n s ra * kReg n s rb))
    (if w then (kReg32 n s ra).smulOverflow (kReg32 n s rb) else (kReg n s ra).smulOverflow (kReg n s rb)) s))
  ∧ (kqRuns n s = true → Completes (.mulh w rd ra rb) s (KqArith n rd
    (sx w (((kReg32 n s ra).signExtend 64 * (kReg32 n s rb).signExtend 64).extractLsb' 32 32)
      (((kReg n s ra).signExtend 128 * (kReg n s rb).signExtend 128).extractLsb' 64 64)) false s))
  ∧ (kqRuns n s = true → sx w (kReg32 n s rb) (kReg n s rb) ≠ 0 → Completes (.div w rd ra rb) s
    (KqArith n rd (sx w ((kReg32 n s ra).sdiv (kReg32 n s rb)) ((kReg n s ra).sdiv (kReg n s rb)))
      (if w then kReg32 n s ra == 0x80000000#32 && kReg32 n s rb == 0xFFFFFFFF#32
        else kReg n s ra == 0x8000000000000000#64 && kReg n s rb == 0xFFFFFFFFFFFFFFFF#64) s))
  ∧ (kqRuns n s = true → sx w (kReg32 n s rb) (kReg n s rb) ≠ 0 → Completes (.divu w rd ra rb) s
    (KqArith n rd (sx w (kReg32 n s ra / kReg32 n s rb) (kReg n s ra / kReg n s rb)) false s))
  ∧ (kqRuns n s = true → sx w (kReg32 n s rb) (kReg n s rb) ≠ 0 → Completes (.rem w rd ra rb) s
    (KqArith n rd (sx w ((kReg32 n s ra).srem (kReg32 n s rb)) ((kReg n s ra).srem (kReg n s rb))) false s))
  ∧ (kqRuns n s = true → sx w (kReg32 n s rb) (kReg n s rb) ≠ 0 → Completes (.remu w rd ra rb) s
    (KqArith n rd (sx w (kReg32 n s ra % kReg32 n s rb) (kReg n s ra % kReg n s rb)) false s))
  ∧ (kqRuns n s = true → sx w (kReg32 n s rb) (kReg n s rb) = 0 →
    Completes (.div w rd ra rb) s (KqWrote n rd 0 { (task n s).flags with z := true, n := false, dz := true } s)
    ∧ Completes (.divu w rd ra rb) s (KqWrote n rd 0 { (task n s).flags with z := true, n := false, dz := true } s)
    ∧ Completes (.rem w rd ra rb) s (KqWrote n rd 0 { (task n s).flags with z := true, n := false, dz := true } s)
    ∧ Completes (.remu w rd ra rb) s (KqWrote n rd 0 { (task n s).flags with z := true, n := false, dz := true } s))
  ∧ (kqRuns n s = true → Completes (.neg w rd ra) s (KqArith n rd (sx w (-kReg32 n s ra) (-kReg n s ra))
    (if w then kReg32 n s ra == 0x80000000#32 else kReg n s ra == 0x8000000000000000#64) s))
  ∧ (kqRuns n s = true → Completes (.abs w rd ra) s (KqArith n rd (sx w (kReg32 n s ra).abs (kReg n s ra).abs)
    (if w then kReg32 n s ra == 0x80000000#32 else kReg n s ra == 0x8000000000000000#64) s))
  ∧ (kqRuns n s = true → Completes (.min w rd ra rb) s (KqArith n rd
    (if (sx w (kReg32 n s ra) (kReg n s ra)).slt (sx w (kReg32 n s rb) (kReg n s rb)) then sx w (kReg32 n s ra) (kReg n s ra)
      else sx w (kReg32 n s rb) (kReg n s rb)) false s))
  ∧ (kqRuns n s = true → Completes (.max w rd ra rb) s (KqArith n rd
    (if (sx w (kReg32 n s ra) (kReg n s ra)).slt (sx w (kReg32 n s rb) (kReg n s rb)) then sx w (kReg32 n s rb) (kReg n s rb)
      else sx w (kReg32 n s ra) (kReg n s ra)) false s))
  ∧ (kqRuns n s = true → Completes (.minu w rd ra rb) s (KqArith n rd
    (if (zx w (kReg32 n s ra) (kReg n s ra)).ult (zx w (kReg32 n s rb) (kReg n s rb)) then sx w (kReg32 n s ra) (kReg n s ra)
      else sx w (kReg32 n s rb) (kReg n s rb)) false s))
  ∧ (kqRuns n s = true → Completes (.maxu w rd ra rb) s (KqArith n rd
    (if (zx w (kReg32 n s ra) (kReg n s ra)).ult (zx w (kReg32 n s rb) (kReg n s rb)) then sx w (kReg32 n s rb) (kReg n s rb)
      else sx w (kReg32 n s ra) (kReg n s ra)) false s))
  ∧ (kqRuns n s = true → Completes (.mov w rd ra) s (KqWrote n rd (sx w (kReg32 n s ra) (kReg n s ra)) (task n s).flags s))
  ∧ (kqRuns n s = true → Completes (.selz w rd ra rb) s (KqWrote n rd
    (if (task n s).flags.z then sx w (kReg32 n s ra) (kReg n s ra) else sx w (kReg32 n s rb) (kReg n s rb)) (task n s).flags s))

/-- Each logic or shift instruction works in its width with the count modulo the width, writes its result zero-extended,
sets Z from it and N from its top bit in the width, and changes no other register and no other flag. The immediate
instructions load, insert, add, multiply, combine, shift and compare as Table KQ-13 and R236 say, with the flags of the
matching register instructions; CLD loads an entry of the constant pool and leaves the flags. (R222, R225, R228, R229,
R235, R236, R237) -/
def Obligations.KqLogicShiftsAndImmediates : Prop :=
  (∀ (s : State) (n : Fin 24) (w : Bool) (rd ra rb : Fin 64),
  (kqRuns n s = true → Completes (.and w rd ra rb) s (KqLogic n rd w (zx w (kReg32 n s ra &&& kReg32 n s rb) (kReg n s ra &&& kReg n s rb)) s))
  ∧ (kqRuns n s = true → Completes (.or w rd ra rb) s (KqLogic n rd w (zx w (kReg32 n s ra ||| kReg32 n s rb) (kReg n s ra ||| kReg n s rb)) s))
  ∧ (kqRuns n s = true → Completes (.xor w rd ra rb) s (KqLogic n rd w (zx w (kReg32 n s ra ^^^ kReg32 n s rb) (kReg n s ra ^^^ kReg n s rb)) s))
  ∧ (kqRuns n s = true → Completes (.andn w rd ra rb) s
    (KqLogic n rd w (zx w (kReg32 n s ra &&& ~~~kReg32 n s rb) (kReg n s ra &&& ~~~kReg n s rb)) s))
  ∧ (kqRuns n s = true → Completes (.not w rd ra) s (KqLogic n rd w (zx w (~~~kReg32 n s ra) (~~~kReg n s ra)) s))
  ∧ (kqRuns n s = true → Completes (.shl w rd ra rb) s (KqLogic n rd w
    (zx w (kReg32 n s ra <<< ((kReg n s rb).toNat % 32)) (kReg n s ra <<< ((kReg n s rb).toNat % 64))) s))
  ∧ (kqRuns n s = true → Completes (.shr w rd ra rb) s (KqLogic n rd w
    (zx w (kReg32 n s ra >>> ((kReg n s rb).toNat % 32)) (kReg n s ra >>> ((kReg n s rb).toNat % 64))) s))
  ∧ (kqRuns n s = true → Completes (.sar w rd ra rb) s (KqLogic n rd w
    (zx w ((kReg32 n s ra).sshiftRight ((kReg n s rb).toNat % 32)) ((kReg n s ra).sshiftRight ((kReg n s rb).toNat % 64))) s))
  ∧ (kqRuns n s = true → Completes (.rol w rd ra rb) s (KqLogic n rd w
    (zx w ((kReg32 n s ra).rotateLeft ((kReg n s rb).toNat % 32)) ((kReg n s ra).rotateLeft ((kReg n s rb).toNat % 64))) s))
  ∧ (kqRuns n s = true → Completes (.ror w rd ra rb) s (KqLogic n rd w
    (zx w ((kReg32 n s ra).rotateRight ((kReg n s rb).toNat % 32)) ((kReg n s ra).rotateRight ((kReg n s rb).toNat % 64))) s))
  ∧ (kqRuns n s = true → Completes (.bext w rd ra rb) s (KqLogic n rd w
    (if (kReg n s ra).getLsbD ((kReg n s rb).toNat % (if w then 32 else 64)) then 1 else 0) s))
  ∧ (kqRuns n s = true → Completes (.bset w rd ra rb) s (KqLogic n rd w
    (zx w (kReg32 n s ra ||| (1#32 <<< ((kReg n s rb).toNat % 32))) (kReg n s ra ||| (1#64 <<< ((kReg n s rb).toNat % 64)))) s))
  ∧ (kqRuns n s = true → Completes (.bclr w rd ra rb) s (KqLogic n rd w
    (zx w (kReg32 n s ra &&& ~~~(1#32 <<< ((kReg n s rb).toNat % 32))) (kReg n s ra &&& ~~~(1#64 <<< ((kReg n s rb).toNat % 64)))) s))
  ∧ (kqRuns n s = true → Completes (.popc w rd ra) s (KqLogic n rd w
    (zx w (kReg32 n s ra).cpop (kReg n s ra).cpop) s))
  ∧ (kqRuns n s = true → Completes (.clz w rd ra) s (KqLogic n rd w (zx w (kReg32 n s ra).clz (kReg n s ra).clz) s)))
  ∧ (∀ (s : State) (n : Fin 24) (rd k : Fin 64) (imm : BitVec 16) (i : Fin 4096),
  (kqRuns n s = true → Completes (.li rd imm) s (KqWrote n rd (imm.signExtend 64) (task n s).flags s))
  ∧ (kqRuns n s = true → Completes (.liu rd imm) s (KqWrote n rd (imm.zeroExtend 64) (task n s).flags s))
  ∧ (kqRuns n s = true → Completes (.ins0 rd imm) s (KqWrote n rd
    ((kReg n s rd).extractLsb' 16 48 ++ imm) (task n s).flags s))
  ∧ (kqRuns n s = true → Completes (.ins1 rd imm) s (KqWrote n rd
    ((kReg n s rd).extractLsb' 32 32 ++ imm ++ (kReg n s rd).extractLsb' 0 16) (task n s).flags s))
  ∧ (kqRuns n s = true → Completes (.ins2 rd imm) s (KqWrote n rd
    ((kReg n s rd).extractLsb' 48 16 ++ imm ++ (kReg n s rd).extractLsb' 0 32) (task n s).flags s))
  ∧ (kqRuns n s = true → Completes (.ins3 rd imm) s (KqWrote n rd
    (imm ++ (kReg n s rd).extractLsb' 0 48) (task n s).flags s))
  ∧ (kqRuns n s = true → Completes (.addi rd imm) s (KqArith n rd (kReg n s rd + imm.signExtend 64)
    ((kReg n s rd).saddOverflow (imm.signExtend 64)) s))
  ∧ (kqRuns n s = true → Completes (.addi32 rd imm) s (KqArith n rd ((kReg32 n s rd + imm.signExtend 32).signExtend 64)
    ((kReg32 n s rd).saddOverflow (imm.signExtend 32)) s))
  ∧ (kqRuns n s = true → Completes (.muli rd imm) s (KqArith n rd (kReg n s rd * imm.signExtend 64)
    ((kReg n s rd).smulOverflow (imm.signExtend 64)) s))
  ∧ (kqRuns n s = true → Completes (.andi rd imm) s (KqLogic n rd false (kReg n s rd &&& imm.zeroExtend 64) s))
  ∧ (kqRuns n s = true → Completes (.ori rd imm) s (KqLogic n rd false (kReg n s rd ||| imm.zeroExtend 64) s))
  ∧ (kqRuns n s = true → Completes (.xori rd imm) s (KqLogic n rd false (kReg n s rd ^^^ imm.zeroExtend 64) s))
  ∧ (kqRuns n s = true → Completes (.shli rd k) s (KqLogic n rd false (kReg n s rd <<< k.val) s))
  ∧ (kqRuns n s = true → Completes (.shri rd k) s (KqLogic n rd false (kReg n s rd >>> k.val) s))
  ∧ (kqRuns n s = true → Completes (.sari rd k) s (KqLogic n rd false ((kReg n s rd).sshiftRight k.val) s))
  ∧ (kqRuns n s = true → Completes (.cmpi rd imm) s (KqKept n
    { (task n s).flags with z := kReg n s rd == imm.signExtend 64, n := (kReg n s rd).slt (imm.signExtend 64) } s))
  ∧ (kqRuns n s = true → Completes (.cmpiu rd imm) s (KqKept n
    { (task n s).flags with z := kReg n s rd == imm.zeroExtend 64, n := (kReg n s rd).ult (imm.zeroExtend 64) } s))
  ∧ (kqRuns n s = true → s.exe.image.any (fun m => (Sparse.find m.consts i.val).isSome) = true → Completes (.cld rd i) s (KqWrote n rd
    ((s.exe.image.bind (fun m => Sparse.find m.consts i.val)).getD 0) (task n s).flags s)))

/-- A NaN operand gives that NaN made quiet, RA's first, and NV only for a signalling one; an invalid operation gives the
canonical NaN and NV; infinities, zeros and a division by zero follow IEEE 754; any other result is the operation's of
the model, with Z, N, OV, NV and DZ from it; FNEG and FABS change the sign bit only; FMIN and FMAX give one of the
operands by order, with -0 below +0. CMP and CSET find equality and order in their type, CMP in Z and N, CSET as 1 or 0
with Z its zero; with a NaN only NE holds and NV follows R233; a conversion to an integer gives 0 with NV for a NaN and
the nearest limit with NV outside the range; extensions are of the bits; NaNs carry over between the formats as R234
says; any other rounded result is that of the model. (R225, R231, R232, R233, R234) -/
def Obligations.KqFloatingPointAndConversions : Prop :=
  (∀ (s : State) (n : Fin 24) (w : Bool) (rd ra rb : Fin 64),
  (kqRuns n s = true → nanF w (kReg n s ra) = true →
    (let p := KqWrote n rd (quietF w (kReg n s ra)) { (task n s).flags with
        z := false, n := false, nv := (task n s).flags.nv || snanF w (kReg n s ra) || snanF w (kReg n s rb) } s;
      Completes (.fadd w rd ra rb) s p ∧ Completes (.fsub w rd ra rb) s p ∧ Completes (.fmul w rd ra rb) s p
      ∧ Completes (.fdiv w rd ra rb) s p ∧ Completes (.fmin w rd ra rb) s p ∧ Completes (.fmax w rd ra rb) s p))
  ∧ (kqRuns n s = true → nanF w (kReg n s ra) = false → nanF w (kReg n s rb) = true →
    (let p := KqWrote n rd (quietF w (kReg n s rb)) { (task n s).flags with
        z := false, n := false, nv := (task n s).flags.nv || snanF w (kReg n s rb) } s;
      Completes (.fadd w rd ra rb) s p ∧ Completes (.fsub w rd ra rb) s p ∧ Completes (.fmul w rd ra rb) s p
      ∧ Completes (.fdiv w rd ra rb) s p ∧ Completes (.fmin w rd ra rb) s p ∧ Completes (.fmax w rd ra rb) s p))
  ∧ (kqRuns n s = true → infF w (kReg n s ra) = true → infF w (kReg n s rb) = true →
    (let bad := KqWrote n rd (nanC w) { (task n s).flags with z := false, n := false, nv := true } s
      let same := signF w (kReg n s ra) == signF w (kReg n s rb);
      Completes (if same then .fsub w rd ra rb else .fadd w rd ra rb) s bad ∧ Completes (.fdiv w rd ra rb) s bad
      ∧ Completes (.fmul w rd ra rb) s (KqWrote n rd (infC w !same) { (task n s).flags with z := false, n := !same } s)
      ∧ Completes (if same then .fadd w rd ra rb else .fsub w rd ra rb) s
        (KqWrote n rd (bitsF w (kReg n s ra)) { (task n s).flags with z := false, n := signF w (kReg n s ra) } s)))
  ∧ (kqRuns n s = true → infF w (kReg n s ra) = true → zeroF w (kReg n s rb) = true →
    (let neg := signF w (kReg n s ra) != signF w (kReg n s rb);
      Completes (.fmul w rd ra rb) s (KqWrote n rd (nanC w) { (task n s).flags with z := false, n := false, nv := true } s)
      ∧ Completes (.fdiv w rd ra rb) s
        (KqWrote n rd (infC w neg) { (task n s).flags with z := false, n := neg, dz := true } s)))
  ∧ (kqRuns n s = true → nanF w (kReg n s ra) = false → infF w (kReg n s ra) = false → zeroF w (kReg n s ra) = false →
    zeroF w (kReg n s rb) = true → (let neg := signF w (kReg n s ra) != signF w (kReg n s rb);
      Completes (.fdiv w rd ra rb) s (KqWrote n rd (infC w neg) { (task n s).flags with z := false, n := neg, dz := true } s)))
  ∧ (kqRuns n s = true → zeroF w (kReg n s ra) = true → zeroF w (kReg n s rb) = true →
    Completes (.fdiv w rd ra rb) s (KqWrote n rd (nanC w) { (task n s).flags with z := false, n := false, nv := true } s))
  ∧ (kqRuns n s = true → nanF w (kReg n s ra) = false → nanF w (kReg n s rb) = false →
    (let p := fun (r : Flt.Res) => KqWrote n rd (toD r.bits) { (task n s).flags with
        z := zeroF w (toD r.bits), n := signF w (toD r.bits) && !nanF w (toD r.bits), ov := (task n s).flags.ov || r.ov
        dz := (task n s).flags.dz || r.dz, nv := (task n s).flags.nv || r.nv } s
      let a := (bitsF w (kReg n s ra)).toNat
      let b := (bitsF w (kReg n s rb)).toNat
      Completes (.fadd w rd ra rb) s (p (Flt.add (fmtOf w) a b)) ∧ Completes (.fsub w rd ra rb) s (p (Flt.sub (fmtOf w) a b))
      ∧ Completes (.fmul w rd ra rb) s (p (Flt.mul (fmtOf w) a b)) ∧ Completes (.fdiv w rd ra rb) s (p (Flt.div (fmtOf w) a b))
      ∧ Completes (.fsqrt w rd ra) s (p (Flt.sqrt (fmtOf w) a))))
  ∧ (kqRuns n s = true → nanF w (kReg n s ra) = true → Completes (.fsqrt w rd ra) s (KqWrote n rd (quietF w (kReg n s ra))
      { (task n s).flags with z := false, n := false, nv := (task n s).flags.nv || snanF w (kReg n s ra) } s))
  ∧ (kqRuns n s = true → nanF w (kReg n s ra) = false → signF w (kReg n s ra) = true → zeroF w (kReg n s ra) = false →
    Completes (.fsqrt w rd ra) s (KqWrote n rd (nanC w) { (task n s).flags with z := false, n := false, nv := true } s))
  ∧ (kqRuns n s = true → (let v := bitsF w (kReg n s ra) ^^^ (if w then 0x80000000#64 else 0x8000000000000000#64)
      Completes (.fneg w rd ra) s (KqWrote n rd v { (task n s).flags with z := zeroF w v, n := signF w v && !nanF w v } s)))
  ∧ (kqRuns n s = true → (let v := bitsF w (kReg n s ra) &&& (if w then 0x7FFFFFFF#64 else 0x7FFFFFFFFFFFFFFF#64)
      Completes (.fabs w rd ra) s (KqWrote n rd v { (task n s).flags with z := zeroF w v, n := false } s)))
  ∧ (kqRuns n s = true → nanF w (kReg n s ra) = false → nanF w (kReg n s rb) = false →
    (let lo := bitsF w (if belowF w true (kReg n s rb) (kReg n s ra) then kReg n s rb else kReg n s ra)
      let hi := bitsF w (if belowF w true (kReg n s ra) (kReg n s rb) then kReg n s rb else kReg n s ra)
      Completes (.fmin w rd ra rb) s (KqWrote n rd lo { (task n s).flags with z := zeroF w lo, n := signF w lo } s)
      ∧ Completes (.fmax w rd ra rb) s (KqWrote n rd hi { (task n s).flags with z := zeroF w hi, n := signF w hi } s))))
  ∧ (∀ (s : State) (n : Fin 24) (w : Bool) (ty : CmpType) (c : CmpCond) (rd ra rb : Fin 64),
  (kqRuns n s = true → ty ≠ .f64 → ty ≠ .f32 →
    (let eq := match ty with | .i64 | .u64 => kReg n s ra == kReg n s rb | _ => kReg32 n s ra == kReg32 n s rb
      let lt := match ty with
        | .i64 => (kReg n s ra).slt (kReg n s rb)
        | .i32 => (kReg32 n s ra).slt (kReg32 n s rb)
        | .u64 => (kReg n s ra).ult (kReg n s rb)
        | _ => (kReg32 n s ra).ult (kReg32 n s rb)
      let h := match c with | .eq => eq | .ne => !eq | .lt => lt | .le => lt || eq | .gt => !lt && !eq | .ge => !lt
      Completes (.cmp ty ra rb) s (KqKept n { (task n s).flags with z := eq, n := lt } s)
      ∧ Completes (.cset ty c rd ra rb) s (KqWrote n rd (if h then 1 else 0) { (task n s).flags with z := !h } s)))
  ∧ (kqRuns n s = true → nanF w (kReg n s ra) = false → nanF w (kReg n s rb) = false →
    (let eq := (zeroF w (kReg n s ra) && zeroF w (kReg n s rb)) || bitsF w (kReg n s ra) == bitsF w (kReg n s rb)
      let lt := belowF w false (kReg n s ra) (kReg n s rb)
      let h := match c with | .eq => eq | .ne => !eq | .lt => lt | .le => lt || eq | .gt => !lt && !eq | .ge => !lt
      Completes (.cmp (if w then .f32 else .f64) ra rb) s (KqKept n { (task n s).flags with z := eq, n := lt } s)
      ∧ Completes (.cset (if w then .f32 else .f64) c rd ra rb) s (KqWrote n rd (if h then 1 else 0) { (task n s).flags with z := !h } s)))
  ∧ (kqRuns n s = true → nanF w (kReg n s ra) = true ∨ nanF w (kReg n s rb) = true →
    (let sn := snanF w (kReg n s ra) || snanF w (kReg n s rb);
      Completes (.cmp (if w then .f32 else .f64) ra rb) s (KqKept n { (task n s).flags with z := false, n := false, nv := true } s)
      ∧ Completes (.cset (if w then .f32 else .f64) c rd ra rb) s (KqWrote n rd (if c = .ne then 1 else 0)
        { (task n s).flags with z := c != .ne, nv := (task n s).flags.nv || (if c = .eq ∨ c = .ne then sn else true) } s)))
  ∧ (kqRuns n s = true → nanF false (kReg n s ra) = true →
    (let p := KqWrote n rd 0 { (task n s).flags with z := true, n := false, nv := true } s;
      Completes (.trnF64I64 rd ra) s p ∧ Completes (.rndF64I64 rd ra) s p ∧ Completes (.trnF64I32 rd ra) s p ∧ Completes (.rndF64I32 rd ra) s p
      ∧ (let v := zx true ((if signF false (kReg n s ra) then 0x80000000#32 else 0#32) ||| 0x7FC00000#32 ||| ((kReg n s ra).extractLsb' 29 22).zeroExtend 32) 0;
        Completes (.cvtF64F32 rd ra) s (KqWrote n rd v
          { (task n s).flags with z := false, n := false, nv := (task n s).flags.nv || snanF false (kReg n s ra) } s))))
  ∧ (kqRuns n s = true → nanF true (kReg n s ra) = true →
    (let p := KqWrote n rd 0 { (task n s).flags with z := true, n := false, nv := true } s;
      Completes (.trnF32I32 rd ra) s p ∧ Completes (.rndF32I32 rd ra) s p
      ∧ (let v := (if signF true (kReg n s ra) then 0xFFF8000000000000#64 else 0x7FF8000000000000#64)
            ||| (((kReg n s ra).extractLsb' 0 22).zeroExtend 64 <<< 29)
        Completes (.cvtF32F64 rd ra) s (KqWrote n rd v
          { (task n s).flags with z := false, n := false, nv := (task n s).flags.nv || snanF true (kReg n s ra) } s))))
  ∧ (kqRuns n s = true → infF false (kReg n s ra) = true →
    (let m := signF false (kReg n s ra)
      let p := fun (lo hi : DWord) => KqWrote n rd (if m then lo else hi) { (task n s).flags with z := false, n := m, nv := true } s;
      Completes (.trnF64I64 rd ra) s (p 0x8000000000000000 0x7FFFFFFFFFFFFFFF) ∧ Completes (.rndF64I64 rd ra) s (p 0x8000000000000000 0x7FFFFFFFFFFFFFFF)
      ∧ Completes (.trnF64I32 rd ra) s (p 0xFFFFFFFF80000000 0x7FFFFFFF) ∧ Completes (.rndF64I32 rd ra) s (p 0xFFFFFFFF80000000 0x7FFFFFFF)))
  ∧ (kqRuns n s = true → nanF false (kReg n s ra) = false → infF false (kReg n s ra) = false →
    (let z := fun (hi : Int) (b : Bool) => max (-hi - 1) (min hi (Flt.toIntFin Flt.f64 b (kReg n s ra).toNat))
      let p := fun (hi : Int) (b : Bool) => KqWrote n rd (BitVec.ofInt 64 (z hi b)) { (task n s).flags with
        z := decide (z hi b = 0), n := decide (z hi b < 0), nv := (task n s).flags.nv || Flt.toIntFin Flt.f64 b (kReg n s ra).toNat != z hi b } s;
      Completes (.trnF64I64 rd ra) s (p (2 ^ 63 - 1) false) ∧ Completes (.rndF64I64 rd ra) s (p (2 ^ 63 - 1) true)
      ∧ Completes (.trnF64I32 rd ra) s (p (2 ^ 31 - 1) false) ∧ Completes (.rndF64I32 rd ra) s (p (2 ^ 31 - 1) true)))
  ∧ (kqRuns n s = true → nanF true (kReg n s ra) = false → infF true (kReg n s ra) = false →
    (let z := fun (b : Bool) => max (-2 ^ 31) (min (2 ^ 31 - 1) (Flt.toIntFin Flt.f32 b (kReg32 n s ra).toNat))
      let p := fun (b : Bool) => KqWrote n rd (BitVec.ofInt 64 (z b)) { (task n s).flags with
        z := decide (z b = 0), n := decide (z b < 0), nv := (task n s).flags.nv || Flt.toIntFin Flt.f32 b (kReg32 n s ra).toNat != z b } s;
      Completes (.trnF32I32 rd ra) s (p false) ∧ Completes (.rndF32I32 rd ra) s (p true)))
  ∧ (kqRuns n s = true →
    (let p := fun (w : Bool) (r : Flt.Res) => KqWrote n rd (toD r.bits) { (task n s).flags with
        z := zeroF w (toD r.bits), n := signF w (toD r.bits), ov := (task n s).flags.ov || r.ov } s;
      Completes (.cvtI64F64 rd ra) s (p false (Flt.ofInt Flt.f64 (kReg n s ra).toInt)) ∧ Completes (.cvtI64F32 rd ra) s (p true (Flt.ofInt Flt.f32 (kReg n s ra).toInt))
      ∧ Completes (.cvtI32F32 rd ra) s (p true (Flt.ofInt Flt.f32 (kReg32 n s ra).toInt)) ∧ Completes (.cvtI32F64 rd ra) s (p false (Flt.ofInt Flt.f64 (kReg32 n s ra).toInt))
      ∧ Completes (.cvtU64F64 rd ra) s (p false (Flt.ofInt Flt.f64 (kReg n s ra).toNat))))
  ∧ (kqRuns n s = true → nanF w (kReg n s ra) = false →
    (let r := Flt.conv (fmtOf w) (fmtOf !w) (bitsF w (kReg n s ra)).toNat
      let p := KqWrote n rd (toD r.bits) { (task n s).flags with
        z := zeroF (!w) (toD r.bits), n := signF (!w) (toD r.bits), ov := (task n s).flags.ov || r.ov } s;
      Completes (if w then .cvtF32F64 rd ra else .cvtF64F32 rd ra) s p))
  ∧ (kqRuns n s = true →
    (let p := fun (v : DWord) => KqWrote n rd v { (task n s).flags with z := v == 0, n := v.msb } s;
      Completes (.sext16 rd ra) s (p (((kReg n s ra).setWidth 16).signExtend 64)) ∧ Completes (.sext32 rd ra) s (p ((kReg32 n s ra).signExtend 64))
      ∧ Completes (.zext32 rd ra) s (p ((kReg32 n s ra).zeroExtend 64)))))

/-- For finite operands whose result does not overflow, no finite value of the format lies nearer to the exact sum or
product than the result, and where another lies as near, the result's significand is even. (R231, R232) -/
def Obligations.SumsAndProductsRoundToNearest : Prop := ∀ (w : Bool) (a b c : DWord),
  (Flt.isFinite (fmtOf w) (fval w a) = true → Flt.isFinite (fmtOf w) (fval w b) = true → Flt.isFinite (fmtOf w) (fval w c) = true →
    (Flt.add (fmtOf w) (fval w a) (fval w b)).ov = false →
    (let r := (Flt.add (fmtOf w) (fval w a) (fval w b)).bits
      let e := exactF w (fval w a) + exactF w (fval w b)
      Flt.isFinite (fmtOf w) r = true ∧ (exactF w r - e).natAbs ≤ (exactF w (fval w c) - e).natAbs
      ∧ ((exactF w r - e).natAbs = (exactF w (fval w c) - e).natAbs → exactF w r ≠ exactF w (fval w c) → r % 2 = 0)))
  ∧ (Flt.isFinite (fmtOf w) (fval w a) = true → Flt.isFinite (fmtOf w) (fval w b) = true → Flt.isFinite (fmtOf w) (fval w c) = true →
    (Flt.mul (fmtOf w) (fval w a) (fval w b)).ov = false →
    (let r := (Flt.mul (fmtOf w) (fval w a) (fval w b)).bits
      let e := exactF w (fval w a) * exactF w (fval w b)
      let one := exactF w (if w then 0x3F800000 else 0x3FF0000000000000)
      Flt.isFinite (fmtOf w) r = true ∧ (one * exactF w r - e).natAbs ≤ (one * exactF w (fval w c) - e).natAbs
      ∧ ((one * exactF w r - e).natAbs = (one * exactF w (fval w c) - e).natAbs → exactF w r ≠ exactF w (fval w c) → r % 2 = 0)))

/-- A load of a defined tag of the expected type, allowed by the protection unit, writes its value extended by type, sets Z
and N from it and TO for a stale or invalid one; an assigned input comes from the input image, and a forced tag that is
no assigned input gives the force value; an allowed store narrows and puts the value in the output image or the tag
memory and sets only OV; an undefined tag, another type or a store not allowed is a program fault. An aligned access
inside the data area that the protection unit allows reads or writes its bytes, low byte first, and a store changes no
other byte of memory; a load extends by SGN and sets Z and N; an access inside another area completes as well; a
misaligned access, one outside the area and a store to a read-only area are program faults. (R179, R192, R199, R238,
R239, R240, R241, R242, R260, R603, R605) -/
def Obligations.KqTagAndImageAccess : Prop :=
  (∀ (s : State) (n : Fin 24) (ty : Fin 16) (rd ra rb : Fin 64) (g : Tag),
  (kqRuns n s = true → pairState s ≠ 4 → (tagDef g.toNat s).any (fun d => (ty.val == 0 || ty.val == d.typ)
      && (mpuCheck 0 (tagPlace n g.toNat d s) .read d.colour s).isNone) = true →
    (let x := loadSample n g.toNat s
      let v := loadExt (((tagDef g.toNat s).map (·.typ)).getD 0) x.val
      Completes (.tld ty rd g) s (KqWrote n rd v { (task n s).flags with
        z := v == 0, n := v.msb, tov := (task n s).flags.tov || x.stale || x.invalid } s)))
  ∧ (kqRuns n s = true → pairState s ≠ 4 → (tagDef ((kReg n s ra + kReg n s rb).toNat % 65536) s).any (fun d =>
      (ty.val == 0 || ty.val == d.typ)
        && (mpuCheck 0 (tagPlace n ((kReg n s ra + kReg n s rb).toNat % 65536) d s) .read d.colour s).isNone) = true →
    (let g := (kReg n s ra + kReg n s rb).toNat % 65536
      let x := loadSample n g s
      let v := loadExt (((tagDef g s).map (·.typ)).getD 0) x.val
      Completes (.tldx ty rd ra rb) s (KqWrote n rd v { (task n s).flags with
        z := v == 0, n := v.msb, tov := (task n s).flags.tov || x.stale || x.invalid } s)))
  ∧ (assignedIn n g.toNat s = true → (Sparse.find (task n s).input g.toNat).isSome = true →
      some (loadSample n g.toNat s) = Sparse.find (task n s).input g.toNat)
  ∧ (assignedIn n g.toNat s = false → (forceOf g.toNat s).isSome = true → some (loadSample n g.toNat s).val = forceOf g.toNat s)
  ∧ (kqRuns n s = true → (tagDef g.toNat s).any (fun d => (ty.val == 0 || ty.val == d.typ) && storeAllowed n d && d.locKind == 0
      && (mpuCheck 0 (tagPlace n g.toNat d s) .write d.colour s).isNone) = true → assignedOut n g.toNat s = false →
    (let typ := ((tagDef g.toNat s).map (·.typ)).getD 0;
      Completes (.tst ty rd g) s (fun t => KqKept n { (task n s).flags with ov := (task n s).flags.ov || storeOv typ (kReg n s rd) } s t
        ∧ (tagLive g.toNat t).val = storeVal typ (kReg n s rd))))
  ∧ (kqRuns n s = true → (tagDef g.toNat s).any (fun d => (ty.val == 0 || ty.val == d.typ) && storeAllowed n d
      && (mpuCheck 0 (tagPlace n g.toNat d s) .write d.colour s).isNone) = true → assignedOut n g.toNat s = true →
    (let typ := ((tagDef g.toNat s).map (·.typ)).getD 0;
      Completes (.tst ty rd g) s (fun t => KqKept n { (task n s).flags with ov := (task n s).flags.ov || storeOv typ (kReg n s rd) } s t
        ∧ Sparse.find (task n t).output g.toNat = some (storeVal typ (kReg n s rd)) ∧ t.exe.tagMem = s.exe.tagMem)))
  ∧ (kqRuns n s = true → (tagDef ((kReg n s ra + kReg n s rb).toNat % 65536) s).any (fun d => (ty.val == 0 || ty.val == d.typ)
      && storeAllowed n d && (mpuCheck 0 (tagPlace n ((kReg n s ra + kReg n s rb).toNat % 65536) d s) .write d.colour s).isNone) = true →
    (let typ := ((tagDef ((kReg n s ra + kReg n s rb).toNat % 65536) s).map (·.typ)).getD 0;
      Completes (.tstx ty rd ra rb) s (KqKept n { (task n s).flags with ov := (task n s).flags.ov || storeOv typ (kReg n s rd) } s)))
  ∧ (kqRuns n s = true → (tagDef g.toNat s).isSome = false → Completes (.tld ty rd g) s (KqFaulted n s) ∧ Completes (.tst ty rd g) s (KqFaulted n s))
  ∧ (kqRuns n s = true → (tagDef g.toNat s).any (fun d => ty.val != 0 && ty.val != d.typ) = true →
      Completes (.tld ty rd g) s (KqFaulted n s) ∧ Completes (.tst ty rd g) s (KqFaulted n s))
  ∧ (kqRuns n s = true → (tagDef g.toNat s).any (fun d => !storeAllowed n d) = true → Completes (.tst ty rd g) s (KqFaulted n s)))
  ∧ (∀ (s : State) (n : Fin 24) (area : ImgArea) (sgn : Bool) (z : AccSize) (rd ra rb : Fin 64) (a : Nat),
  (kqRuns n s = true → (kReg n s ra + kReg n s rb).toNat % sizeBytes z = 0 → (kReg n s ra + kReg n s rb).toNat + sizeBytes z ≤ (kqImage s).dataLen →
    (mpuCheck 0 (dataBase s + (kReg n s ra + kReg n s rb).toNat) .read (masterColour 0 s) s).isNone = true →
    (let v : DWord := let m := mgetN (dataBase s + (kReg n s ra + kReg n s rb).toNat) (sizeBytes z) s
        match z with
        | .b1 => if sgn then (BitVec.ofNat 8 m).signExtend 64 else toD m
        | .b2 => if sgn then (BitVec.ofNat 16 m).signExtend 64 else toD m
        | .b4 => if sgn then (BitVec.ofNat 32 m).signExtend 64 else toD m
        | .b8 => toD m
      Completes (.imld .data sgn z rd ra rb) s (KqWrote n rd v { (task n s).flags with z := v == 0, n := v.msb } s)))
  ∧ (kqRuns n s = true → (kReg n s ra + kReg n s rb).toNat % sizeBytes z = 0 → (kReg n s ra + kReg n s rb).toNat + sizeBytes z ≤ (kqImage s).dataLen →
    (mpuCheck 0 (dataBase s + (kReg n s ra + kReg n s rb).toNat) .write (masterColour 0 s) s).isNone = true →
    Completes (.imst .data z rd ra rb) s (fun t => KqKept n (task n s).flags s t
      ∧ (∀ b : Fin 8, b.val < sizeBytes z → mget (dataBase s + (kReg n s ra + kReg n s rb).toNat + b) t = (kReg n s rd).extractLsb' (8 * b) 8)
      ∧ (a < dataBase s + (kReg n s ra + kReg n s rb).toNat ∨ dataBase s + (kReg n s ra + kReg n s rb).toNat + sizeBytes z ≤ a → mget a t = mget a s)))
  ∧ (kqRuns n s = true → area ≠ .data → area ≠ .tagMem ∨ pairState s ≠ 4 → (kReg n s ra + kReg n s rb).toNat % sizeBytes z = 0 →
    (imgRef area n (kReg n s ra + kReg n s rb).toNat (sizeBytes z) s).any (fun r =>
      (mpuCheck 0 (refAddr r) .read (masterColour 0 s) s).isNone) = true → Completes (.imld area sgn z rd ra rb) s (fun t =>
        (task n t).pc = (task n s).pc + 1 ∧ (∀ r : Fin 64, r ≠ rd → kReg n t r = kReg n s r)
        ∧ (rd.val ≠ 0 → (task n t).flags.z = (kReg n t rd == 0) ∧ (task n t).flags.n = (kReg n t rd).msb)))
  ∧ (kqRuns n s = true → (kReg n s ra + kReg n s rb).toNat % 8 = 0 → 8 ≤ (kReg n s ra + kReg n s rb).toNat →
    (kReg n s ra + kReg n s rb).toNat + 8 ≤ 8 * (imgWords true n s).length →
    (mpuCheck 0 (0x0A140000 + 0x80000 * n + (kReg n s ra + kReg n s rb).toNat) .write (masterColour 0 s) s).isNone = true →
    Completes (.imst .output .b8 rd ra rb) s (fun t => KqKept n (task n s).flags s t ∧ t.mem = s.mem
      ∧ (outImage n t)[(kReg n s ra + kReg n s rb).toNat / 8 - 1]?.map (·.2) = some (kReg n s rd)))
  ∧ (kqRuns n s = true → (kReg n s ra + kReg n s rb).toNat % sizeBytes z ≠ 0 → Completes (.imld area sgn z rd ra rb) s (KqFaulted n s)
      ∧ Completes (.imst area z rd ra rb) s (KqFaulted n s))
  ∧ (kqRuns n s = true → (kReg n s ra + kReg n s rb).toNat % sizeBytes z = 0 →
    (imgRef area n (kReg n s ra + kReg n s rb).toNat (sizeBytes z) s).isNone = true → Completes (.imld area sgn z rd ra rb) s (KqFaulted n s)
      ∧ Completes (.imst area z rd ra rb) s (KqFaulted n s))
  ∧ (kqRuns n s = true → Completes (.imst .input z rd ra rb) s (KqFaulted n s) ∧ Completes (.imst .tagMem z rd ra rb) s (KqFaulted n s)))

/-- A branch goes to PC + OFF when its condition on a register as I64 or on a flag holds and else to the next instruction;
CALL and CALLR push PC + 1, RET pops it, JMPR goes to RA; registers and flags stay; a target outside the code, a full or
an empty return stack, an illegal instruction at a computed target and a YIELD inside a call are program faults; YIELD
ends the program phase and frees the task's locks. (R227, R243, R244, R245, R257, R260) -/
def Obligations.KqBranchesAndCalls : Prop := ∀ (s : State) (n : Fin 24) (f : KqFlag) (rs : Fin 64) (off : BitVec 20) (legal : Bool) (i : Fin 64),
  (kqRuns n s = true → 0 ≤ ((task n s).pc : Int) + off.toInt → ((task n s).pc : Int) + off.toInt < (kqImage s).codeLen →
    Completes (.br off) s (KqBranched n off true s) ∧ Completes (.bz rs off) s (KqBranched n off (kReg n s rs == 0) s) ∧ Completes (.bnz rs off) s (KqBranched n off (kReg n s rs != 0) s))
  ∧ (kqRuns n s = true → 0 ≤ ((task n s).pc : Int) + off.toInt → ((task n s).pc : Int) + off.toInt < (kqImage s).codeLen →
    Completes (.bltz rs off) s (KqBranched n off (decide ((kReg n s rs).toInt < 0)) s) ∧ Completes (.bgez rs off) s (KqBranched n off (decide (0 ≤ (kReg n s rs).toInt)) s)
      ∧ Completes (.bf f off) s (KqBranched n off (flagOf f (task n s).flags) s) ∧ Completes (.bnf f off) s (KqBranched n off (!(flagOf f (task n s).flags)) s))
  ∧ (kqRuns n s = true → ((task n s).pc : Int) + off.toInt < 0 ∨ (kqImage s).codeLen ≤ ((task n s).pc : Int) + off.toInt →
    Completes (.br off) s (KqFaulted n s) ∧ Completes (.call off) s (KqFaulted n s))
  ∧ (kqRuns n s = true → 0 ≤ ((task n s).pc : Int) + off.toInt → ((task n s).pc : Int) + off.toInt < (kqImage s).codeLen →
    (task n s).stack.length < 256 → Completes (.call off) s
      (KqWent n (((task n s).pc : Int) + off.toInt) (((task n s).pc + 1) :: (task n s).stack) s))
  ∧ (kqRuns n s = true → (kReg n s rs).toNat < (kqImage s).codeLen → Completes (.jmpr rs true) s
      (KqWent n (kReg n s rs).toNat (task n s).stack s))
  ∧ (kqRuns n s = true → (kReg n s rs).toNat < (kqImage s).codeLen → (task n s).stack.length < 256 → Completes (.callr rs true) s
      (KqWent n (kReg n s rs).toNat (((task n s).pc + 1) :: (task n s).stack) s))
  ∧ (kqRuns n s = true → (task n s).stack.length = 256 → Completes (.call off) s (KqFaulted n s) ∧ Completes (.callr rs legal) s (KqFaulted n s))
  ∧ (kqRuns n s = true → (kReg n s rs).toNat < (kqImage s).codeLen → pairState s ≠ 4 → Completes (.jmpr rs false) s (fun t =>
      inFallback 0 t = true ∧ (task n t).pc = (kReg n s rs).toNat))
  ∧ (kqRuns n s = true → (task n s).stack.any (fun a => decide (a < (kqImage s).codeLen)) = true → (task n s).stack.all (fun a =>
      decide (a < (kqImage s).codeLen)) = true → Completes .ret s (fun t => (task n t).stack = (task n s).stack.tail
        ∧ (task n s).stack.head? = some (task n t).pc ∧ (task n t).k = (task n s).k ∧ (task n t).flags = (task n s).flags))
  ∧ (kqRuns n s = true → (task n s).stack = [] → Completes .ret s (KqFaulted n s))
  ∧ (kqRuns n s = true → (task n s).stack = [] → Completes .yield s (fun t => (task n t).phase = .commit ∧ t.exe.running ≠ some n.val
      ∧ (task n t).output = (task n s).output ∧ (lockHolder i s = some ⟨0, n⟩ → lockHolder i t = none)
      ∧ (lockHolder i s ≠ some ⟨0, n⟩ → lockHolder i t = lockHolder i s)))
  ∧ (kqRuns n s = true → (task n s).stack ≠ [] → Completes .yield s (KqFaulted n s))

/-- TON, TOF and TP step their timer as the code of R246 says with PT below 0 taken as 0, and RD is Q; counters count one on
a rising edge after their first execution, with R before LD and no change when both count inputs rise, and stop at their
limits; an edge entry never reports at its first execution; an instance the image does not define, or of another kind,
is a program fault; T2CAL of a TIME to the end of 2271 gives the date and time of its second and the weekday, and CAL2T
converts a valid date; other inputs leave RD and set NV. (R246, R247, R248, R249, R250, R591) -/
def Obligations.KqInstances : Prop := ∀ (s : State) (n : Fin 24) (rd ra rb : Fin 64) (x : BitVec 14),
  (kqRuns n s = true → instOk (kqImage s).timers x.toNat 8192 (· == .ton) = true →
    (let pt := max 0 (kReg n s rd).toInt
      let y := kqTimer x.toNat s
      let st := if y.run then y.start else (task n s).cycleTime
      let el : Int := ((task n s).cycleTime : Int) - st
      let z : Timer := if (kReg n s ra).getLsbD 0 then { y with run := true, start := st, et := min el pt, q := decide (pt ≤ el) }
        else { y with run := false, et := 0, q := false }
      Completes (.ton rd ra x) s (fun t => kqTimer x.toNat t = z
        ∧ KqWrote n rd (if z.q then 1 else 0) { (task n s).flags with z := !z.q } s t)))
  ∧ (kqRuns n s = true → instOk (kqImage s).timers x.toNat 8192 (· == .tof) = true →
    (let pt := max 0 (kReg n s rd).toInt
      let y := kqTimer x.toNat s
      let st := if y.run then y.start else (task n s).cycleTime
      let el : Int := ((task n s).cycleTime : Int) - st
      let z : Timer := if (kReg n s ra).getLsbD 0 then { y with run := false, et := 0, q := true }
        else if !y.q then y
        else if pt ≤ el then { y with run := false, start := st, q := false, et := pt } else { y with run := true, start := st, et := el }
      Completes (.tof rd ra x) s (fun t => kqTimer x.toNat t = z
        ∧ KqWrote n rd (if z.q then 1 else 0) { (task n s).flags with z := !z.q } s t)))
  ∧ (kqRuns n s = true → instOk (kqImage s).timers x.toNat 8192 (· == .tp) = true →
    (let pt := max 0 (kReg n s rd).toInt
      let y := kqTimer x.toNat s
      let el : Int := ((task n s).cycleTime : Int) - y.start
      let ends := y.run && decide (pt ≤ el)
      let inp := (kReg n s ra).getLsbD 0
      let starts := (!y.run || ends) && inp && !y.prevIn
      let z : Timer :=
        if starts then { run := decide (0 < pt), start := (task n s).cycleTime, q := decide (0 < pt) || (y.q && !ends), et := 0, prevIn := true }
        else if ends then { y with run := false, q := false, et := if inp then pt else 0, prevIn := inp }
        else if y.run then { y with et := el, prevIn := inp }
        else { y with et := if inp then y.et else 0, prevIn := inp }
      Completes (.tp rd ra x) s (fun t => kqTimer x.toNat t = z
        ∧ KqWrote n rd (if z.q then 1 else 0) { (task n s).flags with z := !z.q } s t)))
  ∧ (kqRuns n s = true → instOk (kqImage s).timers x.toNat 8192 (fun k => k == .ton || k == .tof || k == .tp) = true →
    (let v := BitVec.ofInt 64 (kqTimer x.toNat s).et;
      Completes (.tet rd x) s (fun t => KqWrote n rd v { (task n s).flags with z := v == 0 } s t ∧ kqTimer x.toNat t = kqTimer x.toNat s)))
  ∧ (kqRuns n s = true → instOk (kqImage s).counters x.toNat 4096 (· == .counter) = true →
    (let y := kqCounter x.toNat s
      let a := kReg n s ra
      let pv := kReg n s rd
      let up := y.inited && a.getLsbD 0 && !y.prev.getD 0 false
      let down := y.inited && a.getLsbD 1 && !y.prev.getD 1 false
      let inc := if y.cv.toInt = 2 ^ 63 - 1 then y.cv else y.cv + 1
      let dec := if y.cv.toInt = -2 ^ 63 then y.cv else y.cv - 1
      let u := if a.getLsbD 1 then 0 else if up then inc else y.cv
      let d := if a.getLsbD 1 then pv else if y.inited && a.getLsbD 0 && !y.prev.getD 1 false then dec else y.cv
      let b := if a.getLsbD 2 then 0 else if a.getLsbD 3 then pv else if up && !down then inc else if down && !up then dec else y.cv
      let put := fun (c : Instr) (cv r : DWord) (p : List Bool) => Completes c s (fun t => KqWrote n rd r { (task n s).flags with z := r == 0 } s t
        ∧ kqCounter x.toNat t = { cv := cv, prev := p, inited := true })
      put (.ctu rd ra x) u (if pv.toInt ≤ u.toInt then 1 else 0) [a.getLsbD 0, y.prev.getD 1 false]
      ∧ put (.ctd rd ra x) d (if d.toInt ≤ 0 then 1 else 0) [y.prev.getD 0 false, a.getLsbD 0]
      ∧ put (.ctud rd ra x) b ((if pv.toInt ≤ b.toInt then 1 else 0) + (if b.toInt ≤ 0 then 2 else 0)) [a.getLsbD 0, a.getLsbD 1]))
  ∧ (kqRuns n s = true → instOk (kqImage s).counters x.toNat 4096 (· == .counter) = true → Completes (.ctv rd x) s (fun t =>
      KqWrote n rd (kqCounter x.toNat s).cv { (task n s).flags with z := (kqCounter x.toNat s).cv == 0 } s t
      ∧ t.exe.counters = s.exe.counters))
  ∧ (kqRuns n s = true → instOk (kqImage s).edges x.toNat 16384 (· == .edge) = true →
    (let y := kqEdge x.toNat s
      let inp := (kReg n s ra).getLsbD 0
      let up := y.init && inp && !y.prev
      let down := y.init && !inp && y.prev;
      Completes (.rtrg rd ra x) s (fun t => KqWrote n rd (if up then 1 else 0) { (task n s).flags with z := !up } s t
        ∧ kqEdge x.toNat t = { prev := inp, init := true })
      ∧ Completes (.ftrg rd ra x) s (fun t => KqWrote n rd (if down then 1 else 0) { (task n s).flags with z := !down } s t
        ∧ kqEdge x.toNat t = { prev := inp, init := true })))
  ∧ (kqRuns n s = true → Sparse.find (kqImage s).timers x.toNat = none → Completes (.ton rd ra x) s (KqFaulted n s)
      ∧ Completes (.tof rd ra x) s (KqFaulted n s) ∧ Completes (.tp rd ra x) s (KqFaulted n s) ∧ Completes (.tet rd x) s (KqFaulted n s))
  ∧ (kqRuns n s = true → Sparse.find (kqImage s).counters x.toNat = none → Completes (.ctu rd ra x) s (KqFaulted n s)
      ∧ Completes (.ctd rd ra x) s (KqFaulted n s) ∧ Completes (.ctud rd ra x) s (KqFaulted n s) ∧ Completes (.ctv rd x) s (KqFaulted n s))
  ∧ (kqRuns n s = true → Sparse.find (kqImage s).edges x.toNat = none → Completes (.rtrg rd ra x) s (KqFaulted n s)
      ∧ Completes (.ftrg rd ra x) s (KqFaulted n s))
  ∧ (kqRuns n s = true → rd.val ≠ 0 → (kReg n s ra).toNat < Cal.endSeconds * 1000000000 → Completes (.t2cal rd ra) s (fun t =>
      (Cal.unpack (kReg n t rd)).valid = true ∧ (Cal.unpack (kReg n t rd)).seconds = (kReg n s ra).toNat / 1000000000
      ∧ (kReg n t rd).toNat % 256 = (5 + (kReg n s ra).toNat / 86400000000000) % 7 ∧ (task n t).flags = { (task n s).flags with z := false }))
  ∧ (kqRuns n s = true → (Cal.unpack (kReg n s ra)).valid = true → (kReg n s rb).toNat < 1000000000 → Completes (.cal2t rd ra rb) s
      (KqWrote n rd (toD ((Cal.unpack (kReg n s ra)).seconds * 1000000000 + (kReg n s rb).toNat)) { (task n s).flags with z := false } s))
  ∧ (kqRuns n s = true → (Cal.unpack (kReg n s ra)).valid = false ∨ 1000000000 ≤ (kReg n s rb).toNat → Completes (.cal2t rd ra rb) s
      (KqKept n { (task n s).flags with nv := true } s))

/-- With an index in range and an answering target, each block instruction acts on its target, writes its status or value to
RD and, for a status, sets Z for success and clears it otherwise; an index out of range is a program fault; while its
target has not answered the task waits, with RD not yet written. (R133, R254, R258, R260, R272, R620, R621, R622, R625) -/
def Obligations.KqBlockCommands : Prop := ∀ (s : State) (n : Fin 24) (rd ra rb : Fin 64) (r3 : Fin 62) (i : Fin 64),
  (kqRuns n s = true → pairState s ≠ 4 → (kReg n s rb).toNat < 4096 → ttHosts (kReg n s rb).toNat s = false →
    ttBad { w0 := (kAt (task n s) r3).setWidth 32, w3 := (kAt (task n s) (r3 + 1)).extractLsb' 32 32 } s = false →
    inRange ((kAt (task n s) r3).toNat / 2 ^ 24 % 16) 1 2 = false → Completes (.tsch rd r3 rb false) s (fun t =>
        KqStatus n rd Code.TIDE_OK s t ∧ (ttEntry (kReg n s rb).toNat t).w0 = (kAt (task n s) r3).setWidth 32
        ∧ (ttEntry (kReg n s rb).toNat t).w1 = (kAt (task n s) r3).extractLsb' 32 32
        ∧ (ttEntry (kReg n s rb).toNat t).w2 = (kAt (task n s) (r3 + 1)).setWidth 32
        ∧ (ttEntry (kReg n s rb).toNat t).w3 = (kAt (task n s) (r3 + 1)).extractLsb' 32 32
        ∧ (ttEntry (kReg n s rb).toNat t).w4 = (kAt (task n s) (r3 + 2)).setWidth 32))
  ∧ (kqRuns n s = true → pairState s ≠ 4 → (kReg n s rb).toNat < 4096 → ttHosts (kReg n s rb).toNat s = false →
    Completes (.tret rd rb false) s (fun t => KqStatus n rd Code.TIDE_OK s t ∧ ttValid (ttEntry (kReg n s rb).toNat t) = false))
  ∧ (kqRuns n s = true → pairState s ≠ 4 → (kReg n s rb).toNat < 4096 → ttHosts (kReg n s rb).toNat s = true →
    Completes (.tsch rd r3 rb false) s (fun t => KqStatus n rd Code.TT_NOT_OWNER s t ∧ t.tt = s.tt)
    ∧ Completes (.tret rd rb false) s (fun t => KqStatus n rd Code.TT_NOT_OWNER s t ∧ t.tt = s.tt))
  ∧ (kqRuns n s = true → 4096 ≤ (kReg n s rb).toNat → Completes (.tsch rd r3 rb false) s (KqFaulted n s)
    ∧ Completes (.tret rd rb false) s (KqFaulted n s) ∧ Completes (.msend rd ra rb false) s (KqFaulted n s)
    ∧ Completes (.mrecv rd rb false) s (KqFaulted n s) ∧ Completes (.lktry rd rb false) s (KqFaulted n s))
  ∧ (kqRuns n s = true → pairState s ≠ 4 → (let k := (kReg n s rb).toNat % 2048;
      Completes (.lsp rd ra rb false) s (fun t => KqStatus n rd Code.LOOP_OK s t
        ∧ slot k t = { slot k s with writes := (slot k s).writes ++ [.sp (kReg32 n s ra)] })))
  ∧ (kqRuns n s = true → pairState s ≠ 4 → (kReg n s rb).toNat / 65536 % 256 ≤ 0x19 → Flt.isFinite Flt.f32 (kReg32 n s ra).toNat = true →
    (let k := (kReg n s rb).toNat % 2048;
      Completes (.lpar rd ra rb false) s (fun t => KqStatus n rd Code.LOOP_OK s t
        ∧ slot k t = { slot k s with writes := (slot k s).writes ++ [.par ((kReg n s rb).toNat / 65536 % 256) (kReg32 n s ra)] })))
  ∧ (kqRuns n s = true → pairState s ≠ 4 → (slot ((kReg n s rb).toNat % 2048) s).valid = true →
    (slot ((kReg n s rb).toNat % 2048) s).mode ≠ .off → (kReg n s ra).toNat % 16 = 2 → (let k := (kReg n s rb).toNat % 2048;
      Completes (.lmode rd ra rb false) s (fun t => KqStatus n rd Code.LOOP_OK s t
        ∧ slot k t = { slot k s with writes := (slot k s).writes ++ [.mode .auto] })))
  ∧ (kqRuns n s = true → pairState s ≠ 4 → (slotItem ((kReg n s rb).toNat % 2048) ((kReg n s rb).toNat / 65536 % 256) s).isSome = true →
    (let v := (slotItem ((kReg n s rb).toNat % 2048) ((kReg n s rb).toNat / 65536 % 256) s).getD (0, false);
      Completes (.lrd rd rb false) s (KqWrote n rd (v.1.zeroExtend 64) { (task n s).flags with tov := (task n s).flags.tov || v.2 } s)))
  ∧ (kqRuns n s = true → pairState s ≠ 4 → (let q := (kReg n s rb).toNat % 32
      (inRange ((kReg n s ra).toNat / 2 ^ 28 % 16) 1 1 = true → Completes (.sqc rd ra rb false) s (fun t => KqStatus n rd Code.TIDE_OK s t
        ∧ (seq q t).cmds = (seq q s).cmds ++ [.start ((kReg n s ra).toNat % 1024)]))
      ∧ Completes (.sqs rd rb false) s (KqWrote n rd ((seqStateWord q s).zeroExtend 64) (task n s).flags s)
      ∧ Completes (.sqsig rd ra rb false) s (fun t => KqStatus n rd Code.TIDE_OK s t
        ∧ (seq q t).signals = (seq q s).signals ||| (kReg n s ra).setWidth 8)))
  ∧ (kqRuns n s = true → pairState s ≠ 4 → (kReg n s rb).toNat < 24 → mbxEnd (kReg n s rb).toNat 0 s = some false →
    (mpuCheck 0 (0x400000000 + Reg.MBXm_SEND (kReg n s rb).toNat) .write (masterColour 0 s) s).isNone = true →
    (mbx (kReg n s rb).toNat s).to1.length < 8 → Completes (.msend rd ra rb false) s (fun t => KqStatus n rd Code.MBX_OK s t
      ∧ (mbx (kReg n s rb).toNat t).to1 = (mbx (kReg n s rb).toNat s).to1 ++ [kReg32 n s ra]))
  ∧ (kqRuns n s = true → pairState s ≠ 4 → (kReg n s rb).toNat < 24 → mbxEnd (kReg n s rb).toNat 0 s = some false →
    (mpuCheck 0 (0x400000000 + Reg.MBXm_RECV (kReg n s rb).toNat) .read (masterColour 0 s) s).isNone = true →
    (let l := (mbx (kReg n s rb).toNat s).to0;
      Completes (.mrecv rd rb false) s (fun t => (mbx (kReg n s rb).toNat t).to0 = l.tail
        ∧ KqWrote n rd (match l.head? with | some w => toD (2 ^ 32 + w.toNat) | none => 0) { (task n s).flags with z := l.isEmpty } s t)))
  ∧ (kqRuns n s = true → pairState s ≠ 4 → (kReg n s rb).toNat < 24 → mbxEnd (kReg n s rb).toNat 0 s = some false →
    (mpuCheck 0 (0x400000000 + Reg.MBXm_DBL (kReg n s rb).toNat) .write (masterColour 0 s) s).isNone = true →
    Completes (.mdbl rd ra rb false) s (fun t => KqStatus n rd Code.MBX_OK s t
      ∧ (mbx (kReg n s rb).toNat t).bell = (mbx (kReg n s rb).toNat s).bell ||| kReg32 n s ra))
  ∧ (kqRuns n s = true → pairState s ≠ 4 → (kReg n s rb).toNat < 24 → mbxEnd (kReg n s rb).toNat 0 s = some true →
    (mpuCheck 0 (0x400000000 + Reg.MBXm_ACK (kReg n s rb).toNat) .write (masterColour 0 s) s).isNone = true →
    Completes (.mack rd ra rb false) s (fun t => (mbx (kReg n s rb).toNat t).code = (kReg n s ra).setWidth 16
      ∧ (mbx (kReg n s rb).toNat t).new = true
      ∧ KqStatus n rd (if (mbx (kReg n s rb).toNat s).new then Code.MBX_ACK_OVERRUN else Code.MBX_OK) s t))
  ∧ (kqRuns n s = true → pairState s ≠ 4 → (kReg n s rb).toNat = i.val →
    (mpuCheck 0 (0x400000000 + Reg.MBX_LOCK i) .read (masterColour 0 s) s).isNone = true → Completes (.lktry rd rb false) s (fun t =>
      KqWrote n rd (if (lockHolder i s).isNone then 1 else 0) { (task n s).flags with z := (lockHolder i s).isSome } s t
      ∧ lockHolder i t = (lockHolder i s).or (some ⟨0, n⟩)))
  ∧ (kqRuns n s = true → pairState s ≠ 4 → (kReg n s rb).toNat = i.val →
    (mpuCheck 0 (0x400000000 + Reg.MBX_LOCK i) .write (masterColour 0 s) s).isNone = true → Completes (.lkrel rd rb false) s (fun t =>
      KqWrote n rd (if lockHolder i s = some ⟨0, n⟩ then 1 else 0) (task n s).flags s t
      ∧ lockHolder i t = if lockHolder i s = some ⟨0, n⟩ then none else lockHolder i s))
  ∧ (kqRuns n s = true → pairState s ≠ 4 → Completes (.sqs rd rb true) s (fun t => (task n t).k = (task n s).k
      ∧ (task n t).pc = (task n s).pc ∧ (task n t).flags = (task n s).flags
      ∧ (task n t).wait = .block rd ((seqStateWord ((kReg n s rb).toNat % 32) s).zeroExtend 64) none false false))

/-- SXCH places its word and reads the response; a fence waits and its drain ends it, RFENCE while the rules of its epoch
drain, and the answer ends a waiting block instruction; FGET reads and FCLR clears the flags; CYCT and MTIM read the
cycle time and module time, MTIM with TO while it is not disciplined; TANG reads a tide with TO unless LOCKED; LOG
presents a record and sets nothing; 960 cycles make a commit point. (R171, R225, R251, R252, R253, R254, R255, R256,
R258) -/
def Obligations.KqSystem : Prop := ∀ (s : State) (n : Fin 24) (rd ra : Fin 64) (code : BitVec 12) (d : Fin 8) (e : Word),
  (kqRuns n s = true → pairState s ≠ 4 → Completes (.sxch rd ra) s (fun t => t.saf.word = some (kReg n s ra)
      ∧ KqWrote n rd (rd64 Reg.SAF_SX_RSP_LO s) (task n s).flags s t ∧ (task n t).points = (task n s).points + 1))
  ∧ (kqRuns n s = true → Completes .mfence s (fun t => (task n t) = { (task n s) with wait := .fence }))
  ∧ (kqRuns n s = true → Completes .rfence s (fun t => (task n t) = { (task n s) with wait := .rules (Sys2Proof.Machine.rd Reg.MPU_EPOCH s) }))
  ∧ (s.exe.running = some n.val → triadRuns s = true → (task n s).wait = .fence → Completes .fenceDrained s (fun t =>
      KqKept n (task n s).flags s t ∧ (task n t).wait = .none ∧ (task n t).points = (task n s).points + 1))
  ∧ (s.exe.running = some n.val → triadRuns s = true → (task n s).wait = .rules e →
    flag Fld.MPU_RESULT_BUSY s = false ∨ Sys2Proof.Machine.rd Reg.MPU_EPOCH s ≠ e → Completes .fenceDrained s (fun t =>
      KqKept n (task n s).flags s t ∧ (task n t).wait = .none ∧ (task n t).points = (task n s).points + 1))
  ∧ (s.exe.running = some n.val → (task n s).wait = .rules e → flag Fld.MPU_RESULT_BUSY s = true → Sys2Proof.Machine.rd Reg.MPU_EPOCH s = e →
    Completes .fenceDrained s (fun t => t = s))
  ∧ (s.exe.running = some n.val → triadRuns s = true → blockWait (task n s).wait = true →
    Completes .blockAnswer s (fun t => (task n t).pc = (task n s).pc + 1 ∧ (task n t).wait = .none ∧ (task n t).flags.n = (task n s).flags.n))
  ∧ (kqRuns n s = true → Completes (.fget rd) s (KqWrote n rd
      (((if (task n s).flags.z then 1 else 0) ||| (if (task n s).flags.n then 2 else 0) ||| (if (task n s).flags.ov then 4 else 0)
        ||| (if (task n s).flags.dz then 8 else 0) ||| (if (task n s).flags.nv then 16 else 0) ||| (if (task n s).flags.tov then 32 else 0) : DWord))
      (task n s).flags s))
  ∧ (kqRuns n s = true → (let w := kReg n s ra
      let f := (task n s).flags;
      Completes (.fclr ra) s (KqKept n
        { z := f.z && !w.getLsbD 0, n := f.n && !w.getLsbD 1, ov := f.ov && !w.getLsbD 2, dz := f.dz && !w.getLsbD 3
          nv := f.nv && !w.getLsbD 4, tov := f.tov && !w.getLsbD 5 } s)))
  ∧ (kqRuns n s = true → Completes (.cyct rd) s (KqWrote n rd (toD (task n s).cycleTime) (task n s).flags s))
  ∧ (kqRuns n s = true → pairState s ≠ 4 → Completes (.mtim rd) s (KqWrote n rd (moduleNs s)
      { (task n s).flags with tov := (task n s).flags.tov || !disciplined s } s))
  ∧ (kqRuns n s = true → pairState s ≠ 4 → (let lo := tideAngle d s
      let v := tideTurn d s ++ lo
      let tv := (task n s).flags.tov || (tide d s).st != .locked
      let st : DWord := match (tide d s).st with | .disabled => 0 | .acquire => 1 | .locked => 2 | .holdover => 3 | .lost => 4 | .fault => 5
      let pe := (Sys2Proof.Machine.rd (Reg.TDn_PHASE_ERR d) s).signExtend 64;
      Completes (.tang rd 0 d) s (KqWrote n rd v { (task n s).flags with z := v == 0, tov := tv } s)
      ∧ Completes (.tang rd 1 d) s (KqWrote n rd (BitVec.ofInt 64 (tide d s).omega)
        { (task n s).flags with z := BitVec.ofInt 64 (tide d s).omega == 0, tov := tv } s)
      ∧ Completes (.tang rd 2 d) s (KqWrote n rd st { (task n s).flags with z := st == 0, tov := tv } s)
      ∧ Completes (.tang rd 3 d) s (KqWrote n rd pe { (task n s).flags with z := pe == 0, tov := tv } s)))
  ∧ (kqRuns n s = true → Completes (.log code ra) s (fun t => KqKept n (task n s).flags s t ∧ (task n t).points = (task n s).points + 1))
  ∧ (kqRuns n s = true → rlRate (rlCfg code.toNat s) = 0 → s.strand.phase = .run → s.strand.queue.length < 240 → Completes (.log code ra) s (fun t =>
      t.strand.queue.length = s.strand.queue.length + 1
      ∧ t.strand.queue.getLast?.map (fun r => (r.source, r.code, r.datum, r.origin)) = some (.program, code.toNat, kReg n s ra, n.val)))
  ∧ (s.exe.running = some n.val → triadRuns s = true → Completes .commitPointTimer s (fun t => (task n t).points = (task n s).points + 1
      ∧ (task n t).k = (task n s).k ∧ (task n t).pc = (task n s).pc))

/-- The first frame is frame 0 and each later one follows a frame of 18,750 cycles; a periodic slot is due in the frames of
its phase; an evaluation ends the slot's turn; in MANUAL the output is the manual output clamped, and under the control
law without rate limits it lies between OUT_LO and OUT_HI, unless a value is not finite, when the slot holds; a
condition that the supervisor finds sends a slot under the control law to its fallback, and a slot that recovers leaves
it. (R265, R267, R277, R282, R284, R287, R292, R293, R294, R295, R297) -/
def Obligations.LoopFramesAndEvaluations : Prop := ∀ (s : State) (k : Fin 2048) (n : Nat),
  (loopUp s = true → s.loop.frame = none → fld Fld.LOOP_FRAME_SRC s = 0 → Completes (.loopFrameStart n false) s (fun t =>
    t.loop.frame = some 0 ∧ t.loop.clock = s.loop.clock ∧ fld Fld.LOOP_STATUS_FRAME t = 0))
  ∧ (loopUp s = true → s.loop.frame = some n → fld Fld.LOOP_FRAME_SRC s = 0 → Completes (.loopFrameStart 18750 false) s (fun t =>
    t.loop.frame = some (n + 1) ∧ t.loop.clock = s.loop.clock + 18750 ∧ fld Fld.LOOP_STATUS_FRAME t = (n + 1) % 65536
    ∧ ((slot k s).valid = true → (slot k s).sched ≠ 1 → (slot k s).mode ≠ .off → (slot k t).due = ((n + 1) % (slot k s).div == (slot k s).phase))))
  ∧ (slotReady k s = true → (slot k s).mode = .off → (slot k s).ovrEn = false → Completes (.loopEvaluation k) s (fun t =>
    (slot k t).due = false ∧ (slot k t).outPrev = (slot k s).outPrev))
  ∧ (slotReady k s = true → (slot k s).mode ≠ .off → (slot k s).writes = [] → (slot k s).mirror = none →
    Completes (.loopEvaluation k) s (fun t => (slot k t).due = false ∧ (slot k t).evt = false ∧ (slot k t).fresh = false
      ∧ (slot k t).clock = s.loop.clock))
  ∧ (slotReady k s = true → (slot k s).mode = .manual → (slot k s).writes = [] → (slot k s).mirror = none → (slot k s).fresh = false →
    (slot k s).ovrEn = false → Completes (.loopEvaluation k) s (fun t =>
      (slot k t).outPrev = toD (outClamp (slot k s) ((slot k s).pw 0x0E))
      ∨ (slot k t).outPrev = (slot k s).outPrev ∧ (slot k t).fb = some .hold ∧ flag Fld.LOOP_EVENT_NUMERIC t = true))
  ∧ (slotReady k s = true → (slot k s).autoMode = true → (slot k s).writes = [] → (slot k s).mirror = none → (slot k s).fresh = false →
    (slot k s).ovrEn = false → (slot k s).fb = none → (judge (slot k s) s).lost = false → (judge (slot k s) s).frozen = false →
    (judge (slot k s) s).implausible = false → (slot k s).pw 0x0A = 0 → (slot k s).pw 0x0B = 0 →
    Flt.flt ((slot k s).pw 0x08) ((slot k s).pw 0x09) = true → Completes (.loopEvaluation k) s (fun t =>
      Flt.fle ((slot k s).pw 0x08) (slot k t).outPrev.toNat = true ∧ Flt.fle (slot k t).outPrev.toNat ((slot k s).pw 0x09) = true
      ∨ (slot k t).outPrev = (slot k s).outPrev ∧ (slot k t).fb = some .hold ∧ flag Fld.LOOP_EVENT_NUMERIC t = true))
  ∧ (slotReady k s = true → (judge (slot k s) s).lost = true → (slot k s).lost = false → mayFall (slot k s) s = true →
    Completes (.loopLost k) s (fun t => (slot k t).lost = true ∧ (slot k t).fb = some (slot k s).fbAction
      ∧ flag Fld.LOOP_EVENT_FALLBACK t = true))
  ∧ (slotReady k s = true → (judge (slot k s) s).frozen = true → (slot k s).frozen = false → mayFall (slot k s) s = true →
    Completes (.loopFrozen k) s (fun t => (slot k t).frozen = true ∧ (slot k t).fb = some (slot k s).fbAction
      ∧ flag Fld.LOOP_EVENT_FALLBACK t = true))
  ∧ (slotReady k s = true → (judge (slot k s) s).implausible = true → (slot k s).implausible = false → mayFall (slot k s) s = true →
    Completes (.loopImplausible k) s (fun t => (slot k t).implausible = true ∧ (slot k t).fb = some (slot k s).fbAction
      ∧ flag Fld.LOOP_EVENT_FALLBACK t = true))
  ∧ (slotReady k s = true → (slot k s).mode ≠ .off → (slot k s).fb = some .hold → (slot k s).fbRecover = true →
    (judge (slot k s) s).lost = false → (judge (slot k s) s).frozen = false → (judge (slot k s) s).implausible = false →
    (slot k s).recover ≤ (slot k s).clearCnt + 1 → Completes (.loopRecovered k) s (fun t => (slot k t).fb = none
      ∧ (slot k t).rebase = true ∧ flag Fld.LOOP_EVENT_RECOVERED t = true))

/-- LOAD puts a sound descriptor into a slot in OFF and leaves every other slot; a slot that is not in OFF, a bad descriptor
and a conflict are refused with their status; READ answers the descriptor and its CRC; setpoint and parameter writes
wait for the next evaluation, a reserved code or a value that is not finite is refused; a mode command takes a slot out
of OFF when its checks pass, waits on a slot that runs, and is refused for a reserved mode or an empty slot; items,
parameters and CLEAR act as Tables LOOP-2 and LOOP-8 say; RUN starts a new first frame. ARM starts a configured buffer
and is refused for one that records nothing or names a reserved mode or source; TRIGGER marks the current record once;
STOP and the end of the recording stop a running buffer and raise TRACE_DONE; CLEAR leaves zeros; a standby keeps a
mirror record whose slot CRC matches its own and counts one that does not match; a bank whose check fails is isolated
until its self-test passes. (R272, R273, R274, R275, R276, R277, R301, R302, R303, R306, R307, R308) -/
def Obligations.LoopCommandsTracesAndBanks : Prop :=
  (∀ (s : State) (k j : Fin 2048) (i : Fin 7) (m : LoopMode) (run : Bool),
  (hostOk Reg.LOOP_CMD .write s = true → loopSel s = k.val → (slot k s).mode = .off →
    descBad { slot k s with desc := (List.range 7).map (fun i => rd (Reg.LOOP_DESC i) s), valid := true } = false →
    schedConflict k { slot k s with desc := (List.range 7).map (fun i => rd (Reg.LOOP_DESC i) s), valid := true } s = false →
    Completes .loopLoad s (fun t => (slot k t).valid = true ∧ (slot k t).desc.getD i 0 = rd (Reg.LOOP_DESC i) s
      ∧ (slot k t).par = (slot k s).par ∧ (j ≠ k → slot j t = slot j s) ∧ fld Fld.LOOP_RESULT_STATUS t = Code.LOOP_OK.toNat))
  ∧ (hostOk Reg.LOOP_CMD .write s = true → loopSel s = k.val → (slot k s).mode ≠ .off →
    Completes .loopLoad s (fun t => (slot k t).desc = (slot k s).desc ∧ fld Fld.LOOP_RESULT_STATUS t = Code.LOOP_NOT_OFF.toNat
      ∧ flag Fld.LOOP_EVENT_CFG_REFUSED t = true)
    ∧ Completes .loopClear s (fun t => (slot k t).desc = (slot k s).desc ∧ fld Fld.LOOP_RESULT_STATUS t = Code.LOOP_NOT_OFF.toNat
      ∧ flag Fld.LOOP_EVENT_CFG_REFUSED t = true))
  ∧ (hostOk Reg.LOOP_CMD .write s = true → loopSel s = k.val → (slot k s).mode = .off →
    descBad { slot k s with desc := (List.range 7).map (fun i => rd (Reg.LOOP_DESC i) s), valid := true } = true →
    Completes .loopLoad s (fun t => (slot k t).desc = (slot k s).desc ∧ fld Fld.LOOP_RESULT_STATUS t = Code.LOOP_DESC_BAD.toNat))
  ∧ (hostOk Reg.LOOP_CMD .write s = true → loopSel s = k.val → Completes .loopRead s (fun t => rd (Reg.LOOP_DESC i) t = (slot k s).desc.getD i 0
      ∧ rd (Reg.LOOP_DESC 7) t = slotCrc (slot k s) ∧ t.loop = s.loop ∧ fld Fld.LOOP_RESULT_STATUS t = Code.LOOP_OK.toNat))
  ∧ (hostOk Reg.LOOP_CMD .write s = true → loopSel s = k.val → loopArg s ≤ 0x19 → Flt.isFinite Flt.f32 (rd Reg.LOOP_VAL s).toNat = true →
    Completes .loopSetPar s (fun t => (slot k t).writes = (slot k s).writes ++ [.par (loopArg s) (rd Reg.LOOP_VAL s)]
      ∧ (slot k t).par = (slot k s).par ∧ fld Fld.LOOP_RESULT_STATUS t = Code.LOOP_OK.toNat))
  ∧ (hostOk Reg.LOOP_CMD .write s = true → loopSel s = k.val → 0x19 < loopArg s → Completes .loopSetPar s (fun t =>
      (slot k t).writes = (slot k s).writes ∧ fld Fld.LOOP_RESULT_STATUS t = Code.LOOP_BAD_ITEM.toNat)
    ∧ Completes .loopGetPar s (fun t => rd Reg.LOOP_VAL t = rd Reg.LOOP_VAL s ∧ fld Fld.LOOP_RESULT_STATUS t = Code.LOOP_BAD_ITEM.toNat))
  ∧ (hostOk Reg.LOOP_CMD .write s = true → loopSel s = k.val → loopArg s ≤ 0x19 → Flt.isFinite Flt.f32 (rd Reg.LOOP_VAL s).toNat = false →
    Completes .loopSetPar s (fun t => (slot k t).writes = (slot k s).writes ∧ fld Fld.LOOP_RESULT_STATUS t = Code.LOOP_PAR_RANGE.toNat))
  ∧ (hostOk Reg.LOOP_CMD .write s = true → loopSel s = k.val → loopArg s ≤ 0x19 → Completes .loopGetPar s (fun t =>
      rd Reg.LOOP_VAL t = (slot k s).parAt (loopArg s) ∧ t.loop = s.loop ∧ fld Fld.LOOP_RESULT_STATUS t = Code.LOOP_OK.toNat))
  ∧ (hostOk Reg.LOOP_CMD .write s = true → loopSel s = k.val → Completes .loopSetSp s (fun t =>
      (slot k t).writes = (slot k s).writes ++ [.sp (rd Reg.LOOP_VAL s)] ∧ (slot k t).sp = (slot k s).sp))
  ∧ (hostOk Reg.LOOP_CMD .write s = true → loopSel s = k.val → loopModeOf (loopArg s % 16) = some m → (slot k s).valid = true →
    (m = .cascade → (slot k s).cascEn = true) → (m = .track → (slot k s).trkEn = true) → (slot k s).mode = .off → m ≠ .off →
    slotCheck k (slot k s) s = none → Completes .loopSetMode s (fun t => (slot k t).mode = m ∧ (slot k t).fresh = true
      ∧ fld Fld.LOOP_RESULT_STATUS t = Code.LOOP_OK.toNat))
  ∧ (hostOk Reg.LOOP_CMD .write s = true → loopSel s = k.val → loopModeOf (loopArg s % 16) = some m → (slot k s).valid = true →
    (m = .cascade → (slot k s).cascEn = true) → (m = .track → (slot k s).trkEn = true) → (slot k s).mode ≠ .off →
    Completes .loopSetMode s (fun t => (slot k t).mode = (slot k s).mode ∧ (slot k t).writes = (slot k s).writes ++ [.mode m]
      ∧ fld Fld.LOOP_RESULT_STATUS t = Code.LOOP_OK.toNat))
  ∧ (hostOk Reg.LOOP_CMD .write s = true → loopSel s = k.val → loopModeOf (loopArg s % 16) = none → Completes .loopSetMode s (fun t =>
      (slot k t).mode = (slot k s).mode ∧ fld Fld.LOOP_RESULT_STATUS t = Code.LOOP_BAD_MODE.toNat))
  ∧ (hostOk Reg.LOOP_CMD .write s = true → loopSel s = k.val → loopArg s % 16 = 1 → (slot k s).valid = false → Completes .loopSetMode s (fun t =>
      (slot k t).mode = (slot k s).mode ∧ fld Fld.LOOP_RESULT_STATUS t = Code.LOOP_NO_DESC.toNat))
  ∧ (hostOk Reg.LOOP_CMD .write s = true → loopSel s = k.val → loopArg s < 16 → Completes .loopReadItem s (fun t =>
      rd Reg.LOOP_VAL t = (slot k s).items.getD (loopArg s) 0 ∧ fld Fld.LOOP_RESULT_STATUS t = Code.LOOP_OK.toNat))
  ∧ (hostOk Reg.LOOP_CMD .write s = true → loopSel s = k.val → 0x10 < loopArg s → loopArg s < 0x40 → Completes .loopReadItem s (fun t =>
      rd Reg.LOOP_VAL t = rd Reg.LOOP_VAL s ∧ fld Fld.LOOP_RESULT_STATUS t = Code.LOOP_BAD_ITEM.toNat))
  ∧ (hostOk Reg.LOOP_CMD .write s = true → loopSel s = k.val → (slot k s).mode = .off → Completes .loopClear s (fun t =>
      (slot k t).valid = false ∧ (slot k t).par = [] ∧ (j ≠ k → slot j t = slot j s) ∧ fld Fld.LOOP_RESULT_STATUS t = Code.LOOP_OK.toNat))
  ∧ (hostOk Reg.LOOP_CTRL .write s = true → Completes (.loopRunWrite run) s (fun t => flag Fld.LOOP_CTRL_RUN t = run
      ∧ t.loop.slots = s.loop.slots ∧ (run = true → flag Fld.LOOP_CTRL_RUN s = false → t.loop.frame = none ∧ rd Reg.LOOP_LOAD t = 0))))
  ∧ (∀ (s : State) (b : Fin 32) (c : Fin 128) (k : Fin 2048) (rec : LoopMirror) (a : Nat),
  (hostOk Reg.TRACE_CMD .write s = true → traceMask b s ≠ 0 → fld (Fld.TRBb_TRIG_MODE b) s ≠ 3 → fld (Fld.TRBb_TRIG_SRC b) s ≠ 3 →
    Completes (.traceArm b) s (fun t => flag (Fld.TRBb_STATUS_RUN b) t = true ∧ flag (Fld.TRBb_STATUS_TRIGGERED b) t = false
      ∧ fld (Fld.TRBb_STATUS_WR_INDEX b) t = 0 ∧ (traceBuf b t).seq = 0))
  ∧ (hostOk Reg.TRACE_CMD .write s = true → traceMask b s = 0 → Completes (.traceArm b) s (fun t => flag Fld.LOOP_EVENT_CFG_REFUSED t = true
      ∧ rd (Reg.TRBb_STATUS b) t = rd (Reg.TRBb_STATUS b) s))
  ∧ (hostOk Reg.TRACE_CMD .write s = true → flag (Fld.TRBb_STATUS_RUN b) s = true → Completes (.traceStop b) s (fun t =>
      flag (Fld.TRBb_STATUS_RUN b) t = false ∧ flag (Fld.TRBb_STATUS_STOPPED b) t = true ∧ flag Fld.LOOP_EVENT_TRACE_DONE t = true))
  ∧ (hostOk Reg.TRACE_CMD .write s = true → fld (Fld.TRBb_TRIG_SRC b) s = 0 → flag (Fld.TRBb_STATUS_RUN b) s = true →
    flag (Fld.TRBb_STATUS_TRIGGERED b) s = false → Completes (.traceTrigger b) s (fun t => flag (Fld.TRBb_STATUS_TRIGGERED b) t = true
      ∧ fld (Fld.TRBb_STATUS_TRIG_INDEX b) t = fld (Fld.TRBb_STATUS_WR_INDEX b) s ∧ flag Fld.LOOP_EVENT_TRACE_TRIG t = true))
  ∧ (hostOk Reg.TRACE_CMD .write s = true → Completes (.traceClear b) s (fun t => rd (Reg.TRBb_STATUS b) t = rd (Reg.TRBb_STATUS b) s
      ∧ (traceBase b ≤ a → a < traceBase b + 262144 → mget a t = 0)
      ∧ (a < traceBase b ∨ traceBase b + 262144 ≤ a → mget a t = mget a s)))
  ∧ (flag (Fld.TRBb_STATUS_RUN b) s = true → (traceBuf b s).done = true → Completes (.traceDone b) s (fun t =>
      flag (Fld.TRBb_STATUS_RUN b) t = false ∧ flag (Fld.TRBb_STATUS_STOPPED b) t = true ∧ flag Fld.LOOP_EVENT_TRACE_DONE t = true))
  ∧ (regionsUp s = true → inRange (pairState s) 2 4 = true → Completes (.loopMirrorRecord k { rec with d7 := slotCrc (slot k s) }) s (fun t =>
      (slot k t).mirrorOk = true ∧ (slot k t).mirror = some { rec with d7 := slotCrc (slot k s) } ∧ (slot k t).outPrev = (slot k s).outPrev))
  ∧ (regionsUp s = true → inRange (pairState s) 2 4 = true → rec.d7 ≠ slotCrc (slot k s) → Completes (.loopMirrorRecord k rec) s (fun t =>
      (slot k t).mirrorOk = false ∧ (slot k t).mirror = none ∧ flag Fld.LOOP_EVENT_MIRROR_MISMATCH t = true))
  ∧ (regionsUp s = true → inFallback 1 s = false → slotBankIso c s = false → Completes (.loopBankIsolated c) s (fun t =>
      slotBankIso c t = true ∧ flag Fld.LOOP_EVENT_BANK_ISO t = true ∧ (k / 16 = c.val → engineRuns k t = false)))
  ∧ (hostOk Reg.LOOP_BANK_REEN .write s = true → slotBankIso c s = true → Completes (.loopBankReen c) s (fun t =>
      t.loop.selfTest.contains c.val = true ∧ slotBankIso c t = true))
  ∧ (regionsUp s = true → slotBankIso c s = true → s.loop.selfTest.contains c.val = true → Completes (.loopBankReenabled c) s (fun t =>
      slotBankIso c t = false ∧ t.loop.selfTest.contains c.val = false)))

/-- A pin change is filtered, or passes at once with FILT 0; a shorted, overloaded or overheated output latches off with its
fault and its cell marked invalid, and a re-arm clears it; an output commanded off that reads high is stuck on and
switches its bank off with STUCK_ACTION 1, one commanded on that reads low is stuck off; two channels of one bank in one
cycle isolate the bank; a tie changes no channel; a fault that has gone clears; an open load only warns. (R28, R46,
R313, R317, R318, R320, R321, R322, R323, R324) -/
def Obligations.DioInputsAndFaults : Prop := ∀ (s : State) (n m : Fin 32) (chs : BitVec 32) (ma : BitVec 12) (mask : Word) (level : Bool),
  (regionsUp s = true → fld (Fld.DIOn_CFG_FILT n) s ≠ 0 → Completes (.dioPinChange n level ma) s (fun t =>
      (dioCh n t).pin = level ∧ (dioCh n t).current = ma.toNat ∧ (dioCh n t).filt = (dioCh n s).filt ∧ (m ≠ n → dioCh m t = dioCh m s)))
  ∧ (regionsUp s = true → fld (Fld.DIOn_CFG_FILT n) s = 0 → Completes (.dioPinChange n level ma) s (fun t =>
      (dioCh n t).pin = level ∧ (dioCh n t).filt = level ∧ (m ≠ n → (dioCh m t).filt = (dioCh m s).filt)))
  ∧ (regionsUp s = true → Completes (.dioFilterExpiry n) s (fun t => (dioCh n t).filt = (dioCh n s).pin
      ∧ (m ≠ n → (dioCh m t).filt = (dioCh m s).filt)))
  ∧ (dioDrives n s = true → chs.getLsbD n = true → Completes (.dioShort chs false) s (fun t =>
      (dioCh n t).latched = true ∧ (dioCh n t).fault = 5 ∧ (dioCh n t).mark = true ∧ flag Fld.DIO_EVENT_CH_FAULT t = true)
    ∧ Completes (.dioOverload chs false) s (fun t =>
      (dioCh n t).latched = true ∧ (dioCh n t).fault = 6 ∧ (dioCh n t).mark = true ∧ flag Fld.DIO_EVENT_CH_FAULT t = true))
  ∧ (dioDrives n s = true → dioDrives m s = true → n ≠ m → n / 8 = m / 8 → chs.getLsbD n = true → chs.getLsbD m = true →
    Completes (.dioShort chs false) s (fun t => (dioBank (n / 8) t).st = .isolated ∧ (dioBank (n / 8) t).switch = false))
  ∧ (Completes (.dioShort chs true) s (fun t => t.dio = s.dio ∧ t.dioBank = s.dioBank)
    ∧ Completes (.dioOverload chs true) s (fun t => t.dio = s.dio ∧ t.dioBank = s.dioBank)
    ∧ Completes (.dioStuckOn chs true) s (fun t => t.dio = s.dio ∧ t.dioBank = s.dioBank)
    ∧ Completes (.dioStuckOff chs true) s (fun t => t.dio = s.dio ∧ t.dioBank = s.dioBank))
  ∧ (regionsUp s = true → dioDir n s = true → (dioCh n s).latched = false → chs.getLsbD n = true →
    Completes (.dioOvertemp chs) s (fun t => (dioCh n t).latched = true ∧ (dioCh n t).fault = 7 ∧ (dioCh n t).mark = true))
  ∧ (hostOk Reg.DIO_REARM .write s = true → Completes (.dioRearm mask) s (fun t =>
      dioCh n t = if mask.getLsbD n && (dioCh n s).latched then { dioCh n s with latched := false, mark := false, fault := 0 } else dioCh n s))
  ∧ (dioStuckCond n s = true → chs.getLsbD n = true → Completes (.dioStuckOn chs false) s (fun t =>
      (dioCh n t).fault = 1 ∧ (dioCh n t).mark = true ∧ (flag (Fld.DIO_BANKk_CFG_STUCK_ACTION (n / 8)) s = true →
        (dioBank (n / 8) s).st = .on → (dioBank (n / 8) t).switch = false ∧ flag Fld.DIO_EVENT_BANK_OFF t = true)))
  ∧ (regionsUp s = true → (dioCh n s).fault = 1 → (dioCh n s).filt = true → (dioBank (n / 8) s).st = .switchedOff →
    Completes (.dioStuckExternal n) s (fun t => (dioCh n t).fault = 2 ∧ (dioCh n t).mark = true))
  ∧ (dioJudged n s = true → (dioCh n s).arb = true → (dioCh n s).filt = false → (dioCh n s).latched = false →
    (dioCh n s).current < 2500 → (dioCh n s).fault = 0 → chs.getLsbD n = true → Completes (.dioStuckOff chs false) s (fun t =>
      (dioCh n t).fault = 4 ∧ (dioCh n t).mark = true))
  ∧ (dioDrives n s = true → (dioCh n s).filt = true → (dioCh n s).current < 5 → flag (Fld.DIOn_CFG_OPEN_EN n) s = true →
    (dioCh n s).fault = 0 → Completes (.dioOpenLoad n) s (fun t => (dioCh n t).fault = 8 ∧ (dioCh n t).mark = (dioCh n s).mark
      ∧ (dioCh n t).latched = false ∧ flag Fld.DIO_EVENT_OPEN_LOAD t = true))
  ∧ (regionsUp s = true → inRange (dioCh n s).fault.val 1 4 = true → (dioCh n s).arb = (dioCh n s).filt →
    Completes (.dioFaultClear n) s (fun t => (dioCh n t).fault = 0 ∧ (dioCh n t).mark = false))

/-- A low supply warns, marks the bank low with its analog bank, and latches it off; an overcurrent switches it off;
REENABLE closes the switch of a bank whose supply is good and is refused otherwise; RECOVER ends an isolation whose
self-check passes; EN is refused where a channel's direction conflicts and else turns a disabled bank on; without keep-
alives the bank opens its outputs and stays silent until they resume. (R311, R326, R327, R328, R329, R331, R332, R347,
R369) -/
def Obligations.DioBankSupplies : Prop := ∀ (s : State) (k : Fin 4) (j : Fin 8) (mv : BitVec 16),
  (regionsUp s = true → (dioBank k s).warn = false → Completes (.dioBankWarn k mv) s (fun t => (dioBank k t).warn = true
      ∧ fld (Fld.DIO_BANKk_VOLT_MV k) t = mv.toNat ∧ flag Fld.DIO_EVENT_BANK_WARN t = true ∧ (dioBank k t).st = (dioBank k s).st))
  ∧ (regionsUp s = true → (dioBank k s).low = false → Completes (.dioBankWarnClear k mv) s (fun t => (dioBank k t).warn = false
      ∧ (dioBank k t).reenReady = true ∧ fld (Fld.DIO_BANKk_VOLT_MV k) t = mv.toNat))
  ∧ (regionsUp s = true → (dioBank k s).low = false → Completes (.dioBankLow k mv) s (fun t => (dioBank k t).low = true
      ∧ (dioBank k t).reenReady = false ∧ (anBank k t).loopLow = true ∧ (dioDir (8 * k + j) s = false → dioInvalid (8 * k + j) t = true)))
  ∧ (regionsUp s = true → Completes (.dioBankLowClear k mv) s (fun t => (dioBank k t).low = false ∧ (anBank k t).loopLow = false
      ∧ fld (Fld.DIO_BANKk_VOLT_MV k) t = mv.toNat))
  ∧ (regionsUp s = true → (dioBank k s).low = true → (dioBank k s).st = .on → Completes (.dioBankLatchoff k false) s (fun t =>
      (dioBank k t).st = .latchedOff ∧ (dioBank k t).switch = false ∧ flag Fld.DIO_EVENT_BANK_OFF t = true))
  ∧ (regionsUp s = true → (dioBank k s).st = .on → Completes (.dioBankOvercurrent k) s (fun t =>
      (dioBank k t).st = .switchedOff ∧ (dioBank k t).switch = false ∧ flag Fld.DIO_EVENT_BANK_OFF t = true))
  ∧ (hostOk Reg.DIO_BANK_CMD .write s = true → (dioBank k s).st = .latchedOff ∨ (dioBank k s).st = .switchedOff → (dioBank k s).reenReady = true →
    flag (Fld.DIO_BANKk_CFG_EN k) s = true → Completes (.dioBankReenable k) s (fun t => (dioBank k t).st = .on ∧ (dioBank k t).switch = true
      ∧ fld Fld.DIO_BANK_RESULT_STATUS t = Code.DIO_OK.toNat))
  ∧ (hostOk Reg.DIO_BANK_CMD .write s = true → (dioBank k s).reenReady = false → Completes (.dioBankReenable k) s (fun t =>
      dioBank k t = dioBank k s ∧ fld Fld.DIO_BANK_RESULT_STATUS t = Code.DIO_REEN_REFUSED.toNat))
  ∧ (hostOk Reg.DIO_BANK_CMD .write s = true → (dioBank k s).st = .isolated → flag (Fld.DIO_BANKk_CFG_EN k) s = true →
    Completes (.dioBankRecover k true) s (fun t => (dioBank k t).st = .on ∧ fld Fld.DIO_BANK_RESULT_STATUS t = Code.DIO_OK.toNat)
    ∧ Completes (.dioBankRecover k false) s (fun t => (dioBank k t).st = .isolated))
  ∧ (hostOk (Reg.DIO_BANKk_CFG k) .write s = true → flag (Fld.DIO_BANKk_CFG_EN k) s = false → dioDirConflict k s = false →
    (dioBank k s).st = .disabled → Completes (.dioBankEnable k true) s (fun t => flag (Fld.DIO_BANKk_CFG_EN k) t = true
      ∧ (dioBank k t).st = .on ∧ (dioBank k t).switch = true))
  ∧ (hostOk (Reg.DIO_BANKk_CFG k) .write s = true → flag (Fld.DIO_BANKk_CFG_EN k) s = false → dioDirConflict k s = true →
    Completes (.dioBankEnable k true) s (fun t => flag (Fld.DIO_BANKk_CFG_EN k) t = false ∧ dioBank k t = dioBank k s
      ∧ flag Fld.DIO_EVENT_DIR_CONFLICT t = true))
  ∧ (hostOk (Reg.DIO_BANKk_CFG k) .write s = true → (dioBank k s).st = .on → Completes (.dioBankEnable k false) s (fun t =>
      flag (Fld.DIO_BANKk_CFG_EN k) t = false ∧ (dioBank k t).st = .disabled ∧ (dioBank k t).switch = false))
  ∧ (regionsUp s = true → (dioBank k s).st ≠ .isolated → Completes (.dioBankIsolated k) s (fun t => (dioBank k t).st = .isolated
      ∧ (dioBank k t).switch = false ∧ flag Fld.DIO_EVENT_BANK_ISO t = true))
  ∧ (s.sup.inReset = false → 2 ≤ power s → Completes (.dioKeepaliveExpiry k) s (fun t => (dioBank k t).silent = true
      ∧ (dioCh (8 * k + j) t).out = false))
  ∧ (regionsUp s = true → (dioBank k s).silent = true → Completes (.dioStageSilent k) s (fun t => (dioBank k t).silent = false
      ∧ flag Fld.DIO_EVENT_STAGE_SILENT t = true))

/-- WRITE takes a sound descriptor with its latch cleared and refuses another with the first failing check; READ answers the
descriptor; DISABLE clears the enable and the output; RESET_LATCH clears the latch of a set-dominant term whose function
is 0; a failed descriptor check stops the matrix and sends the Field region to fallback; a standby sets the latches that
the record shows; nothing here touches another term. (R334, R335, R336, R337, R341, R344, R346) -/
def Obligations.ReflexMatrix : Prop := ∀ (s : State) (j m : Fin 64) (i : Fin 16) (ok : Bool) (latches : BitVec 64),
  (hostOk Reg.RFX_CMD .write s = true → rfxSel s = j.val →
    rfxCheck { desc := (List.range 16).map (fun i => rd (Reg.RFX_DATA i) s), out := (term j s).out } s = none → Completes .rfxWrite s (fun t =>
      (term j t).w i = rd (Reg.RFX_DATA i) s ∧ (term j t).latch = false ∧ (term j t).out = (term j s).out ∧ (m ≠ j → term m t = term m s)
      ∧ fld Fld.RFX_RESULT_STATUS t = Code.RFX_OK.toNat))
  ∧ (hostOk Reg.RFX_CMD .write s = true → rfxSel s = j.val →
    (rfxCheck { desc := (List.range 16).map (fun i => rd (Reg.RFX_DATA i) s), out := (term j s).out } s).isSome = true →
    Completes .rfxWrite s (fun t => t.terms = s.terms ∧ flag Fld.RFX_EVENT_CFG_REFUSED t = true
      ∧ some (fld Fld.RFX_RESULT_STATUS t) = (rfxCheck { desc := (List.range 16).map (fun i => rd (Reg.RFX_DATA i) s), out := (term j s).out } s).map
          BitVec.toNat))
  ∧ (hostOk Reg.RFX_CMD .write s = true → rfxSel s = j.val → Completes .rfxRead s (fun t => rd (Reg.RFX_DATA i) t = (term j s).w i
      ∧ t.terms = s.terms ∧ fld Fld.RFX_RESULT_STATUS t = Code.RFX_OK.toNat))
  ∧ (hostOk Reg.RFX_CMD .write s = true → rfxSel s = j.val → Completes .rfxDisable s (fun t => termOn (term j t) = false
      ∧ (term j t).out = false ∧ (term j t).latch = false ∧ (i ≠ 0 → (term j t).w i = (term j s).w i) ∧ (m ≠ j → term m t = term m s)))
  ∧ (hostOk Reg.RFX_CMD .write s = true → rfxSel s = j.val → rfxRuns s = true → termOn (term j s) = true → (term j s).latching = true →
    ((term j s).w (4 + rfxIndex (term j s) s / 32)).getLsbD (rfxIndex (term j s) s % 32) = false → Completes .rfxResetLatch s (fun t =>
      (term j t).latch = false ∧ (term j t).out = false ∧ (term j t).desc = (term j s).desc ∧ (m ≠ j → term m t = term m s)))
  ∧ (regionsUp s = true → s.rfxStopped = false → Completes (.rfxCrcCheck false) s (fun t => t.rfxStopped = true ∧ inFallback 2 t = true
      ∧ rfxRuns t = false ∧ flag Fld.RFX_EVENT_CHECK_FAIL t = true))
  ∧ (regionsUp s = true → onStandby s = true → Completes (.reflexRecord latches) s (fun t =>
      (term j t).latch = ((term j s).latch || latches.getLsbD j) ∧ (term j t).out = (term j s).out ∧ (term j t).desc = (term j s).desc))

/-- A channel whose configuration is sound is enabled with its lock closed and another is refused; a channel that is
disabled holds no fault; a completed conversion writes its measurement and value, and on an input the fault of R360,
with the cell holding the value only without a fault; a conversion in the overlap of a switchover is discarded; shorts,
open outputs, readback errors and compliance are declared and cleared. (R28, R354, R356, R360, R361, R366, R367, R368,
R369) -/
def Obligations.AnalogConversionsAndFaults : Prop := ∀ (s : State) (n m : Fin 16) (v mv chs : BitVec 16) (mcal : DWord) (overlap : Bool),
  (hostOk Reg.ANA_ENABLE .write s = true → v.getLsbD n = true → anEnabled n s = false → anCheck n s = none →
    Completes (.anaChannelEnable v) s (fun t => anEnabled n t = true ∧ bitAt Reg.ANA_LOCK n t = false ∧ rd (Reg.ANn_RES n) t = anRes n s
      ∧ (anCh n t).waitConv = true))
  ∧ (hostOk Reg.ANA_ENABLE .write s = true → v.getLsbD n = true → anEnabled n s = false → (anCheck n s).isSome = true →
    Completes (.anaChannelEnable v) s (fun t => anEnabled n t = false ∧ flag Fld.ANA_EVENT_CFG_REFUSED t = true))
  ∧ (hostOk Reg.ANA_ENABLE .write s = true → v.getLsbD n = false → anEnabled n s = true → Completes (.anaChannelEnable v) s (fun t =>
      anEnabled n t = false ∧ anCh n t = { cell := (anCh n s).cell }))
  ∧ (hostOk Reg.ANA_LOCK .write s = true → Completes (.anaLockOpen v) s (fun t =>
      bitAt Reg.ANA_LOCK n t = (v.getLsbD n && !anEnabled n s)))
  ∧ (regionsUp s = true → anEnabled n s = true → inRange (anMode n s) 1 3 = true → flag (Fld.ANn_CFG_TRIG n) s = false →
    Completes (.anaConversion [(n, mcal)] false) s (fun t => rd (Reg.ANn_MEAS n) t = Flt.narrow (anConvert n mcal.toNat s).1
      ∧ rd (Reg.ANn_VALUE n) t = Flt.narrow (anConvert n mcal.toNat s).2
      ∧ (anCh n t).fault = anFault n (anConvert n mcal.toNat s).1 s
      ∧ (anCh n t).cell = (if (anCh n t).fault = 0 then Flt.narrow (anConvert n mcal.toNat s).2 else (anCh n s).cell)
      ∧ (m ≠ n → anCh m t = anCh m s)))
  ∧ (regionsUp s = true → Completes (.anaConversion [(n, mcal)] true) s (fun t => rd (Reg.ANn_VALUE n) t = rd (Reg.ANn_VALUE n) s
      ∧ (anCh n t).fault = (anCh n s).fault ∧ (anCh n t).cell = (anCh n s).cell))
  ∧ (regionsUp s = true → anEnabled n s = true → anMode n s = 1 → chs.getLsbD n = true → Completes (.anaLoopShort chs) s (fun t =>
      (anCh n t).fault = 4 ∧ (anInvalid n t = true)))
  ∧ (regionsUp s = true → anEnabled n s = true → anOutput n s = true → chs.getLsbD n = true → Completes (.anaOutOpen chs) s (fun t =>
      (anCh n t).fault = 7) ∧ ((anCh n s).compliance = false → Completes (.anaReadbackErr chs) s (fun t => (anCh n t).fault = 6)))
  ∧ (regionsUp s = true → anEnabled n s = true → anMode n s = 1 → anEnabled m s = true → anMode m s = 1 → n ≠ m → n / 4 = m / 4 →
    chs.getLsbD n = true → chs.getLsbD m = true → (anCh n s).fault = 0 → (anCh m s).fault = 0 → Completes (.anaLoopShort chs) s (fun t =>
      (anBank (n / 4) t).isolated = true))
  ∧ (regionsUp s = true → (anCh n s).fault = 6 ∨ (anCh n s).fault = 7 → Completes (.anaOutputFaultClear n) s (fun t => (anCh n t).fault = 0))
  ∧ (regionsUp s = true → anEnabled n s = true → anOutput n s = true → (anCh n s).fault ≠ 7 → Completes (.anaCompliance n mv false) s (fun t =>
      (anCh n t).compliance = true ∧ rd (Reg.ANn_HEADROOM n) t = mv.zeroExtend 32))
  ∧ (regionsUp s = true → anEnabled n s = true → anOutput n s = true → Completes (.anaComplianceClear n mv false) s (fun t =>
      (anCh n t).compliance = false ∧ rd (Reg.ANn_HEADROOM n) t = mv.zeroExtend 32)
    ∧ Completes (.anaCompliance n mv true) s (fun t => t.an = s.an) ∧ Completes (.anaComplianceClear n mv true) s (fun t => t.an = s.an))

/-- A poll starts a transaction with command 3 when none is under way; a good response ends it with its status byte, one
that is not good is retried while attempts are left and else fails; a host transaction makes the result busy, and is
refused on a channel without a modem and while one runs; burst frames mark the channel; an isolated bank comes back by
RECOVER, and keep-alives that stop silence a bank. (R370, R371, R372, R373, R374, R375, R376, R377) -/
def Obligations.HartAndAnalogBanks : Prop := ∀ (s : State) (n : Fin 16) (k : Fin 4) (cmd : BitVec 16) (len resp dev : Byte)
    (vars : List Word) (data : List Byte),
  (hartUp n s = true → flag (Fld.ANn_HART_CFG_POLL_EN n) s = true → onStandby s = false →
    (anCh n s).burstAt = none → (anCh n s).txn = none → Completes (.hartPoll n) s (fun t =>
      (anCh n t).txn = some ⟨.poll, 3, [], hartRetries n s⟩ ∧ t.out.length = s.out.length + 1))
  ∧ (hartUp n s = true → onStandby s = false → (anCh n s).txn.any (fun x => x.left != 0) = true → Completes (.hartResponse n false false resp dev vars data) s
      (fun t => (anCh n t).txn = (anCh n s).txn.map (fun x => { x with left := x.left - 1 }))
    ∧ Completes (.hartRespTimeout n) s (fun t => (anCh n t).txn = (anCh n s).txn.map (fun x => { x with left := x.left - 1 })))
  ∧ (hartUp n s = true → onStandby s = false → (anCh n s).txn.any (fun x => x.left == 0) = true → (anCh n s).waiting = [] →
    Completes (.hartRespTimeout n) s (fun t => (anCh n t).txn = none ∧ flag Fld.ANA_EVENT_HART_FAIL t = true))
  ∧ (hartUp n s = true → onStandby s = false → (anCh n s).txn.any (fun x => x.kind == .ident) = true → (anCh n s).waiting = [] →
    Completes (.hartResponse n true false resp dev vars data) s (fun t => (anCh n t).txn = none ∧ (anCh n t).long = data.take 5
      ∧ flag (Fld.ANn_HART_STATUS_LONG_OK n) t = true ∧ fld (Fld.ANn_HART_STATUS_RESP_CODE n) t = resp.toNat))
  ∧ (hartUp n s = true → onStandby s = false → (anCh n s).txn.any (fun x => x.kind == .host) = true → (anCh n s).waiting = [] →
    Completes (.hartResponse n true false resp dev vars data) s (fun t => (anCh n t).txn = none ∧ flag Fld.ANA_HART_RESULT_BUSY t = false
      ∧ fld Fld.ANA_HART_RESULT_STATUS t = Code.ANA_OK.toNat ∧ fld Fld.ANA_HART_RESULT_LEN t = min data.length 255))
  ∧ (hartUp n s = true → flag (Fld.ANn_HART_CFG_BURST_ACCEPT n) s = true → Completes (.hartBurstFrame n dev vars) s (fun t =>
      flag (Fld.ANn_HART_STATUS_BURST n) t = true ∧ (anCh n t).burstAt = some (nowNs s) ∧ (anCh n t).failed = 0
      ∧ fld (Fld.ANn_HART_STATUS_DEV_STATUS n) t = dev.toNat))
  ∧ (hostOk Reg.ANA_HART_CMD .write s = true → flag Fld.ANA_HART_RESULT_BUSY s = false → fld Fld.ANA_HART_SEL_CHANNEL s = n.val → hartUp n s = true →
    onStandby s = false → (anCh n s).txn = none → Completes (.anaHartCmd cmd len) s (fun t => flag Fld.ANA_HART_RESULT_BUSY t = true
      ∧ (anCh n t).txn = some ⟨.host, cmd.toNat, hartData (min len.toNat 64) s, hartRetries n s⟩))
  ∧ (hostOk Reg.ANA_HART_CMD .write s = true → flag Fld.ANA_HART_RESULT_BUSY s = true → Completes (.anaHartCmd cmd len) s (fun t => t.an = s.an
      ∧ flag Fld.ANA_HART_RESULT_BUSY t = true))
  ∧ (hostOk Reg.ANA_HART_CMD .write s = true → flag Fld.ANA_HART_RESULT_BUSY s = false → fld Fld.ANA_HART_SEL_CHANNEL s = n.val → hartUp n s = false →
    Completes (.anaHartCmd cmd len) s (fun t => t.an = s.an ∧ fld Fld.ANA_HART_RESULT_STATUS t = Code.ANA_HART_REFUSED.toNat))
  ∧ (s.sup.inReset = false → 2 ≤ power s → Completes (.anaKeepaliveExpiry k) s (fun t => (anBank k t).silent = true ∧ t.an = s.an))
  ∧ (regionsUp s = true → (anBank k s).silent = true → Completes (.anaStageSilent k) s (fun t => (anBank k t).silent = false
      ∧ flag Fld.ANA_EVENT_BANK t = true))
  ∧ (regionsUp s = true → (anBank k s).isolated = false → Completes (.anaBankIsolated k) s (fun t => (anBank k t).isolated = true
      ∧ flag Fld.ANA_EVENT_BANK t = true))
  ∧ (hostOk Reg.ANA_BANK_CMD .write s = true → (anBank k s).isolated = true → Completes (.anaBankRecover k true) s (fun t =>
      (anBank k t).isolated = false ∧ fld Fld.ANA_BANK_RESULT_STATUS t = Code.ANA_OK.toNat)
    ∧ Completes (.anaBankRecover k false) s (fun t => (anBank k t).isolated = true))

/-- In a safety cycle an output that is ON without its permit opens both switches and trips, one whose request is gone opens
them, one that is OFF closes them only with permit and request, and one that tripped needs a reset edge in a fresh
request; in fallback a cycle only publishes; without requests the output requests count as 0; a test pulse opens or
closes one switch, its confirmation restores the output, and a test that is not confirmed, an overcurrent and a
disagreement put the output in FAULT with its switches open. (R385, R386, R387, R388, R389, R399, R400, R401, R402,
R403, R404) -/
def Obligations.SafetyOutputs : Prop := ∀ (s : State) (n : Fin 8) (hs tie : Bool),
  (safUp s = true → flag (Fld.SQn_CFG_USED n) s = true → (sq n s).st = .on → sqPermit n s = false → Completes .safetyCycle s (fun t =>
      (sq n t).st = (if flag (Fld.SQn_CFG_RESTART n) s then .tripped else .off) ∧ (sq n t).hs = false ∧ (sq n t).lsReq = false
      ∧ flag Fld.SAF_EVENT_TRIP t = true ∧ rd Reg.SAF_CYCLES t = rd Reg.SAF_CYCLES s + 1))
  ∧ (safUp s = true → flag (Fld.SQn_CFG_USED n) s = true → (sq n s).st = .on → sqPermit n s = true → s.saf.word = none →
    (safReq s).getLsbD n = true → Completes .safetyCycle s (fun t => sq n t = sq n s))
  ∧ (safUp s = true → flag (Fld.SQn_CFG_USED n) s = true → (sq n s).st = .on → sqPermit n s = true → s.saf.word = none →
    (safReq s).getLsbD n = false → Completes .safetyCycle s (fun t => (sq n t).st = .off ∧ (sq n t).hs = false ∧ (sq n t).lsReq = false))
  ∧ (safUp s = true → flag (Fld.SQn_CFG_USED n) s = true → (sq n s).st = .off → sqPermit n s = true → s.saf.word = none →
    (safReq s).getLsbD n = true → (sq n s).test = none → Completes .safetyCycle s (fun t =>
      (sq n t).st = .on ∧ (sq n t).hs = true ∧ (sq n t).lsReq = true))
  ∧ (safUp s = true → (sq n s).st = .off → sqPermit n s = false → Completes .safetyCycle s (fun t =>
      (sq n t).st ≠ .on ∧ (sq n t).hs = (sq n s).hs))
  ∧ (safUp s = true → flag (Fld.SQn_CFG_USED n) s = true → (sq n s).st = .tripped → sqPermit n s = true → 
    s.saf.word.any (fun w => reqFresh w s && w.getLsbD (24 + n)) = true → s.saf.lastSeq.isSome = true → s.saf.resets.getLsbD n = false →
    Completes .safetyCycle s (fun t => (sq n t).st = .off ∧ some (rd64 Reg.SAF_SX_REQ_LO t) = s.saf.word ∧ t.saf.timedOut = false))
  ∧ (safUp s = true → (sq n s).st = .tripped → s.saf.word = none → Completes .safetyCycle s (fun t => (sq n t).st = .tripped))
  ∧ (regionsUp s = true → safState s = 4 → Completes .safetyCycle s (fun t => t.saf = s.saf ∧ rd64 Reg.SAF_SX_RSP_LO t = safResponse s))
  ∧ (safUp s = true → Completes (.safSxTimeout tie) s (fun t => t.saf.timedOut = true ∧ flag Fld.SAF_EVENT_SX_TIMEOUT t = true
      ∧ (frozen s = false → safReq t = 0)))
  ∧ (regionsUp s = true → safState s ≤ 2 → flag (Fld.SQn_CFG_USED n) s = true → mayTest s = true → (sq n s).test = none → (sq n s).st = .on →
    (sq n s).hs = true → (sq n s).lsReq = true → Completes (.sqTestStart n hs) s (fun t => (sq n t).test = some ⟨hs, true⟩
      ∧ (sq n t).hs = !hs ∧ (sq n t).lsReq = hs ∧ (sq n t).st = .on))
  ∧ (regionsUp s = true → safState s ≤ 2 → flag (Fld.SQn_CFG_USED n) s = true → mayTest s = true → (sq n s).test = none →
    (sq n s).st = .off ∨ (sq n s).st = .tripped → s.saf.authAt + 1000000 ≤ nowNs s → Completes (.sqTestStart n hs) s (fun t =>
      (sq n t).test = some ⟨hs, false⟩ ∧ (sq n t).hs = hs ∧ (sq n t).lsTest = !hs ∧ (sq n t).st = (sq n s).st))
  ∧ ((sq n s).test.any (fun x => x.dark) = true → Completes (.sqTestConfirm n) s (fun t => (sq n t).test = none ∧ (sq n t).hs = true
      ∧ (sq n t).lsReq = true ∧ (sq n t).lsTest = false))
  ∧ ((sq n s).test.any (fun x => !x.dark) = true → (sq n s).delayed = false → Completes (.sqTestConfirm n) s (fun t => (sq n t).test = none
      ∧ (sq n t).hs = false ∧ (sq n t).lsReq = false ∧ (sq n t).lsTest = false))
  ∧ ((sq n s).test.isSome = true → Completes (.sqTestExpiry n tie) s (fun t => (sq n t).st = .fault ∧ (sq n t).hs = false
      ∧ (sq n t).lsReq = false ∧ (sq n t).test = none ∧ flag Fld.SAF_EVENT_FAULT t = true))
  ∧ (regionsUp s = true → Completes (.safSqOvercurrent n) s (fun t => (sq n t).st = .fault ∧ (sq n t).fault = 3 ∧ (sq n t).hs = false
      ∧ (sq n t).lsReq = false))
  ∧ (regionsUp s = true → safState s ≠ 0 → Completes (.safSqDisagree n) s (fun t => (sq n t).st = .fault ∧ (sq n t).fault = 4
      ∧ (sq n t).hs = false ∧ (sq n t).lsReq = false))
  ∧ (safRuns s = true → s.saf.auth = true → flag (Fld.SQn_CFG_USED n) s = true → Completes (.safTestOverdue n) s (fun t => t.saf = s.saf
      ∧ flag Fld.SAF_EVENT_TEST t = true ∧ fld Fld.SAF_LAST_STATUS_STATUS t = Code.SAF_TEST_OVERDUE.toNat))

/-- A contact takes its filtered value; a discrepancy faults its pair; a source pulls low and ends its pulse, and a contact
that does not follow its own source is stuck; a low bank supply is held until it is restored; the AUTH sense gives and
takes safety authority, with every switch open when it goes, and a handover holds first; a lockstep mismatch, a missed
heartbeat, a failed self-test and a missed edge send the region to fallback. (R383, R384, R393, R394, R395, R396, R405,
R406, R408, R409, R411, R412) -/
def Obligations.SafetyInputsAndAuthority : Prop := ∀ (s : State) (p n : Fin 8) (k : Fin 4) (b level tie : Bool) (low : BitVec 16),
  (regionsUp s = true → (siPair p s).kind ≠ 1 → Completes (.siFilterExpiry p b level) s (fun t =>
      (siPair p t) = (if b then { siPair p s with b := level } else { siPair p s with a := level }) ∧ (n ≠ p → siPair n t = siPair n s)))
  ∧ (safUp s = true → inRange (fld (Fld.SIp_CFG_MODE p) s) 1 2 = true → siAgree p (siPair p s) s = false → (siPair p s).kind = 0 →
    Completes (.safSiDiscrepancy p tie) s (fun t => (siPair p t).kind = 1 ∧ pairHealthy p t = false ∧ flag Fld.SAF_EVENT_FAULT t = true))
  ∧ (safUp s = true → (fld Fld.SAF_TP_STATUS_RUN s).testBit k = true → s.saf.pulsing.contains k.val = false → Completes (.tpPulseStart k) s (fun t =>
      t.saf.pulsing.contains k.val = true ∧ bitAt Reg.SAF_TP_STATUS (24 + k) t = false))
  ∧ (s.saf.pulsing.contains k.val = true → Completes (.tpPulseEnd k low) s (fun t => t.saf.pulsing.contains k.val = false
      ∧ bitAt Reg.SAF_TP_STATUS (24 + k) t = true ∧ (inRange (fld (Fld.SIp_CFG_MODE p) s) 1 2 = true → fld (Fld.SIp_CFG_SRC_A p) s = k.val →
          low.getLsbD (2 * p) = false → (siPair p s).kind = 0 → (siPair p t).kind = 2)))
  ∧ (regionsUp s = true → safState s = 0 → inFallback 4 s = false → Completes (.safTpSource k) s (fun t => inFallback 4 t = true))
  ∧ (regionsUp s = true → s.saf.bankLow.contains k.val = false → Completes (.safBankLow k tie) s (fun t => t.saf.bankLow.contains k.val = true
      ∧ flag Fld.SAF_EVENT_BANK_LOW t = true ∧ (n / 2 = k.val → sqPermit n t = false)))
  ∧ (regionsUp s = true → s.saf.bankLow.contains k.val = true → Completes (.safBankRestored k) s (fun t => t.saf.bankLow.contains k.val = false))
  ∧ (regionsUp s = true → s.saf.auth = false → flag Fld.PAIR_STATE_AUTH_HELD s = true → Completes .safAuthTaken s (fun t => t.saf.auth = true
      ∧ t.saf.authAt = nowNs s ∧ flag Fld.SAF_EVENT_AUTHORITY t = true ∧ (safState s = 2 → safState t = 1)))
  ∧ (s.saf.auth = true → s.saf.holding = false → flag Fld.PAIR_STATE_AUTH_HELD s = false → s.saf.handover = false → Completes .safAuthReleased s
      (fun t => t.saf.auth = false ∧ (sq n t).hs = false ∧ (sq n t).lsReq = false ∧ (safState s = 1 → safState t = 2)))
  ∧ (s.saf.auth = true → s.saf.holding = false → flag Fld.PAIR_STATE_AUTH_HELD s = false → s.saf.handover = true → safRuns s = true →
    Completes .safAuthReleased s (fun t => t.saf.auth = true ∧ t.saf.holding = true ∧ sq n t = sq n s))
  ∧ (s.saf.holding = true → Completes .safHandoverHoldEnd s (fun t => t.saf.auth = false ∧ t.saf.holding = false ∧ (sq n t).hs = false
      ∧ (sq n t).lsReq = false))
  ∧ (flag Fld.SAF_STATE_SPLIT_STRAP s = false → regionsUp s = true → inFallback 4 s = false → Completes .safLockstep s (fun t =>
      inFallback 4 t = true ∧ safState t = 4))
  ∧ (regionsUp s = true → inFallback 4 s = false → Completes .safBwSelftest s (fun t => t.saf.bwOk = false ∧ inFallback 4 t = true))
  ∧ (regionsUp s = true → s.saf.hbOk = true → inFallback 4 s = false → Completes .safBwHb s (fun t => t.saf.hbOk = false ∧ inFallback 4 t = true))
  ∧ (regionsUp s = true → Completes .safetyHeartbeatToggle s (fun t => t.saf.hbLine = !s.saf.hbLine))
  ∧ (s.sup.inReset = false → 2 ≤ power s → Completes (.breakwaterContactChange p b level) s (fun t =>
      siPair p t = (if b then { siPair p s with bwB := level } else { siPair p s with bwA := level })))
  ∧ (s.saf.auth = false → Completes .authTakenByOtherSide s (fun t => t.sup.authOther = true ∧ (sq n t).test = none))

/-- A consumer in RUN takes the payload of the next frame of its epoch and delivers it, only acknowledges a repetition, and
rejects an old epoch; one that is opening takes SEQ 1; a frame that fails its check changes no delivered value unless it
fails the connection; a watchdog expiry fails a connection, which opens again with the next epoch and delivers nothing;
a producer starts at SEQ 1 with an OPEN, notes the ACK of its SEQ, and stops without one; the hold of the epochs ends
with an OPEN of epoch 1. (R418, R420, R422, R423, R424, R425, R427, R428, R429, R431) -/
def Obligations.SafetyConnections : Prop := ∀ (s : State) (i : Fin 16) (car : Fin 4) (src : DWord) (p : Word) (e : Byte) (tie : Bool),
  (safTalks s = true → s.saf.epochHold = false → (conn i s).st = .run →
    connOf true car (safetyFrame (conn i s).entry (conn i s).epoch 0 (nextSeq (conn i s).seq) p) s = some (i.val, conn i s) →
    Completes (.safetyFrameReceive car src (safetyFrame (conn i s).entry (conn i s).epoch 0 (nextSeq (conn i s).seq) p)) s (fun t =>
      (conn i t).payload = p ∧ (conn i t).live = true ∧ (conn i t).seq = nextSeq (conn i s).seq ∧ (conn i t).since = some (nowNs s)
      ∧ (conn i t).tx = safetyFrame (conn i s).entry (conn i s).epoch 1 (nextSeq (conn i s).seq) 0))
  ∧ (safTalks s = true → s.saf.epochHold = false → (conn i s).st = .run → (conn i s).seq ≠ 0 →
    connOf true car (safetyFrame (conn i s).entry (conn i s).epoch 0 (conn i s).seq p) s = some (i.val, conn i s) →
    Completes (.safetyFrameReceive car src (safetyFrame (conn i s).entry (conn i s).epoch 0 (conn i s).seq p)) s (fun t =>
      (conn i t).payload = (conn i s).payload ∧ (conn i t).seq = (conn i s).seq ∧ (conn i t).since = (conn i s).since
      ∧ (conn i t).tx = safetyFrame (conn i s).entry (conn i s).epoch 1 (conn i s).seq 0))
  ∧ (safTalks s = true → s.saf.epochHold = false → (conn i s).st = .opening →
    connOf true car (safetyFrame (conn i s).entry (conn i s).epoch 0 1 p) s = some (i.val, conn i s) →
    Completes (.safetyFrameReceive car src (safetyFrame (conn i s).entry (conn i s).epoch 0 1 p)) s (fun t =>
      (conn i t).st = .run ∧ (conn i t).payload = p ∧ (conn i t).live = true))
  ∧ (safTalks s = true → s.saf.epochHold = false → e ≠ (conn i s).epoch →
    connOf true car (safetyFrame (conn i s).entry e 0 1 p) s = some (i.val, conn i s) →
    Completes (.safetyFrameReceive car src (safetyFrame (conn i s).entry e 0 1 p)) s (fun t =>
      t.saf = s.saf ∧ fld Fld.SAF_LAST_STATUS_STATUS t = Code.SAF_FRAME_OLD_EPOCH.toNat))
  ∧ (safTalks s = true → s.saf.epochHold = false → connOf true car (leBytes 2 (conn i s).entry.connId.toNat) s = some (i.val, conn i s) →
    frameGood (conn i s).entry.key (leBytes 2 (conn i s).entry.connId.toNat) = false → Completes (.safetyFrameReceive car src (leBytes 2 (conn i s).entry.connId.toNat)) s (fun t =>
      (conn i t).payload = (conn i s).payload ∧ ((conn i t).live = (conn i s).live ∨ (conn i t).live = false)
      ∧ (conn i t).seq = (conn i s).seq))
  ∧ (safTalks s = true → s.saf.epochHold = false → (conn i s).st = .opening → Completes (.consumerOpenRepeat i) s (fun t =>
      (conn i t).tx = safetyFrame (conn i s).entry (conn i s).epoch 2 0 0 ∧ (conn i t).epoch = (conn i s).epoch))
  ∧ (safTalks s = true → s.saf.epochHold = false → (conn i s).st = .run → Completes (.safConnWdog i tie) s (fun t =>
      (conn i t).st = .opening ∧ (conn i t).live = false ∧ (conn i t).epoch = nextEpoch (conn i s).epoch
      ∧ (conn i t).tx = safetyFrame (conn i s).entry (nextEpoch (conn i s).epoch) 2 0 0))
  ∧ (safTalks s = true → (conn (16 + i) s).st ≠ .run →
    connOf false car (safetyFrame (conn (16 + i) s).entry e 2 0 0) s = some (16 + i.val, conn (16 + i) s) →
    Completes (.producerFrameReceive car src (safetyFrame (conn (16 + i) s).entry e 2 0 0)) s (fun t =>
      (conn (16 + i) t).st = .run ∧ (conn (16 + i) t).epoch = e ∧ (conn (16 + i) t).seq = 1 ∧ (conn (16 + i) t).acked = false))
  ∧ (safTalks s = true → (conn (16 + i) s).st = .run → (conn (16 + i) s).seq ≠ 0 →
    connOf false car (safetyFrame (conn (16 + i) s).entry (conn (16 + i) s).epoch 1 (conn (16 + i) s).seq 0) s = some (16 + i.val, conn (16 + i) s) →
    Completes (.producerFrameReceive car src (safetyFrame (conn (16 + i) s).entry (conn (16 + i) s).epoch 1 (conn (16 + i) s).seq 0)) s (fun t =>
      (conn (16 + i) t).acked = true ∧ (conn (16 + i) t).seq = (conn (16 + i) s).seq))
  ∧ (safTalks s = true → (conn (16 + i) s).st = .run → (conn (16 + i) s).acked = false → Completes (.safConnAckTimeout i tie) s (fun t =>
      (conn (16 + i) t).st = .idle ∧ (conn (16 + i) t).tx = []))
  ∧ (safTalks s = true → s.saf.epochHold = true → Completes .consumerEpochHoldEnd s (fun t => t.saf.epochHold = false))
  ∧ (safTalks s = true → s.saf.epochHold = true → s.saf.conns.map (·.1) = [i.val] → Completes .consumerEpochHoldEnd s (fun t =>
      (conn i t).st = .opening ∧ (conn i t).epoch = nextEpoch (conn i s).epoch))

/-- Equal records of three voting cores leave the machine as it was; a record that differs from two equal ones fences its
core and is recorded with its first differing field; with three different program counters, or two cores that differ,
there is no majority and the triad goes to fallback; a fenced core that passes its test resynchronises and rejoins
within 150 µs, and fails otherwise; a corrected symbol is counted and an uncorrectable one in a program store halts the
triad; UNRETIRE gives a core back and is refused for one that is not retired. (R443, R444, R445, R448, R449, R450, R452,
R458, R459, R464) -/
def Obligations.TriadVotesAndRecovery : Prop := ∀ (s : State) (r q u : VoteRec) (t0 : Fin 24) (core : Fin 4) (sym : Fin 19) (word : BitVec 20),
  (s.exe.running = some t0.val → triadRuns s = true → fld Fld.TRIAD_STATE_VOTING s = 7 →
    Completes (.triadVote (some { r with fault := 0 }) (some { r with fault := 0 }) (some { r with fault := 0 })) s (fun t => t = s))
  ∧ (s.exe.running = some t0.val → triadRuns s = true → fld Fld.TRIAD_STATE_VOTING s = 7 → r.pc ≠ q.pc → s.triad.rejoined = [] →
    s.sup.isolated = [] → s.sup.lastIso = [] → Completes (.triadVote (some { r with fault := 0 }) (some { r with fault := 0 }) (some q)) s (fun t =>
      fld Fld.TRIAD_STATE_FENCED t = fld Fld.TRIAD_STATE_FENCED s ||| 4 ∧ fld Fld.TRIAD_DIFF_CORE t = 2 ∧ fld Fld.TRIAD_DIFF_FIELD t = 0
      ∧ flag Fld.TRIAD_EVENT_OUTVOTE t = true ∧ fld Fld.TRIAD_STATE_MODE t = 2 ∧ inFallback 0 t = inFallback 0 s))
  ∧ (s.exe.running = some t0.val → triadRuns s = true → fld Fld.TRIAD_STATE_VOTING s = 7 → s.triad.rejoined = [] →
    s.sup.isolated = [] → s.sup.lastIso = [] → Completes (.triadVote (some { r with fault := 0 }) none (some { r with fault := 0 })) s (fun t =>
      fld Fld.TRIAD_STATE_FENCED t = fld Fld.TRIAD_STATE_FENCED s ||| 2 ∧ fld Fld.TRIAD_DIFF_CORE t = 1 ∧ fld Fld.TRIAD_DIFF_FIELD t = 7))
  ∧ (s.exe.running = some t0.val → triadRuns s = true → fld Fld.TRIAD_STATE_VOTING s = 7 → r.pc ≠ q.pc → r.pc ≠ u.pc → q.pc ≠ u.pc →
    Completes (.triadVote (some r) (some q) (some u)) s (fun t => inFallback 0 t = true ∧ fld Fld.TRIAD_DIFF_CORE t = 3
      ∧ fld Fld.TRIAD_DIFF_FIELD t = 0 ∧ flag Fld.TRIAD_EVENT_NO_MAJORITY t = true))
  ∧ (s.exe.running = some t0.val → triadRuns s = true → fld Fld.TRIAD_STATE_VOTING s = 3 → r.pc ≠ q.pc →
    Completes (.triadVote (some r) (some q) none) s (fun t => inFallback 0 t = true ∧ fld Fld.TRIAD_DIFF_CORE t = 3))
  ∧ (resyncDue s = some core.val → regionsUp s = true → inFallback 0 s = false → Completes (.triadResyncStart true) s (fun t =>
      t.triad.resync = some (core.val, nowNs s) ∧ fld Fld.TRIAD_STATE_MODE t = 3 ∧ fld Fld.TRIAD_STATE_FENCED t = fld Fld.TRIAD_STATE_FENCED s))
  ∧ (resyncDue s = some core.val → regionsUp s = true → inFallback 0 s = false → Completes (.triadResyncStart false) s (fun t =>
      t.triad.resync = none ∧ flag Fld.TRIAD_EVENT_RESYNC_FAIL t = true ∧ (t.triad.fails = (core.val, nowNs s) :: s.triad.fails)))
  ∧ (s.triad.resync.any (fun e => nowNs s ≤ e.2 + 150000) = true → regionsUp s = true → inFallback 0 s = false → Completes .triadResyncDone s
      (fun t => t.triad.resync = none ∧ fld Fld.TRIAD_STATE_MODE t = 1 ∧ flag Fld.TRIAD_EVENT_RESYNC_DONE t = true
      ∧ t.triad.fails = s.triad.fails))
  ∧ (s.triad.resync.any (fun e => e.2 + 150000 ≤ nowNs s) = true → regionsUp s = true → inFallback 0 s = false → Completes .triadResyncTimeout s
      (fun t => t.triad.resync = none ∧ fld Fld.TRIAD_STATE_MODE t ≠ 3 ∧ flag Fld.TRIAD_EVENT_RESYNC_FAIL t = true))
  ∧ (regionsUp s = true → Completes (.triadEccCorrected .buffer sym word) s (fun t => flag Fld.TRIAD_EVENT_ECC_CORR t = true
      ∧ fld Fld.TRIAD_ECC_ADDR_SYMBOL t = sym.val ∧ fld Fld.TRIAD_ECC_ADDR_OFFSET t = word.toNat * 16 ∧ inFallback 0 t = inFallback 0 s))
  ∧ (regionsUp s = true → Completes (.triadEccUncorr .buffer word) s (fun t => flag Fld.TRIAD_EVENT_ECC_UNCORR t = true
      ∧ fld Fld.TRIAD_ECC_ADDR_SYMBOL t = 0x3F ∧ inFallback 0 t = inFallback 0 s)
    ∧ Completes (.triadEccUncorr .tagDir word) s (fun t => flag Fld.TRIAD_EVENT_ECC_UNCORR t = true ∧ inFallback 0 t = true))
  ∧ (hostOk Reg.TRIAD_CMD .write s = true → (fld Fld.TRIAD_STATE_RETIRED s).testBit core = true → Completes (.triadUnretire core) s (fun t =>
      t.triad.retired.getLsbD core = false ∧ fld Fld.TRIAD_RESULT_STATUS t = Code.TRIAD_UNRETIRE.toNat))
  ∧ (hostOk Reg.TRIAD_CMD .write s = true → (fld Fld.TRIAD_STATE_RETIRED s).testBit core = false → Completes (.triadUnretire core) s (fun t =>
      t.triad.retired = s.triad.retired ∧ fld Fld.TRIAD_RESULT_STATUS t = Code.TRIAD_CMD_REFUSED.toNat))

/-- A period sends the next heartbeat and counts a missed one; a good heartbeat is the partner's state from then on, starts
the copy of a side that waits for an active partner of its version, and makes a takeover due on a standby side whose
partner is out; a path or the partner is lost as the rules say; timers of WAITING, of a yield, of the tide records and
of TRACKING act; an acknowledgement frees what it covers. (R468, R470, R471, R472, R473, R474, R475, R482, R487, R490,
R493, R494) -/
def Obligations.PairHeartbeats : Prop := ∀ (s : State) (hb : Heartbeat) (cw2 tie other : Bool) (sqs : List (Fin 8 × Fin 4)) (req : DWord)
    (split : Bool) (q : Word) (kind : Fin 13) (t0 : Fin 24) (cyc : Nat),
  (cwUp s = true → Completes (.heartbeatSend other) s (fun t => t.pair.hbSeq = s.pair.hbSeq + 1 ∧ t.sup.authOther = other
      ∧ t.pair.seen1 = false ∧ t.pair.seen2 = false ∧ (s.pair.seen1 = false → t.pair.run1 = 0)))
  ∧ (cwUp s = true → Completes (.heartbeatReceive cw2 hb true tie other) s (fun t => t.pair.peer = some hb ∧ t.pair.peerLost = false
      ∧ fld Fld.PAIR_STATE_PEER t = hb.st.val ∧ (if cw2 then t.pair.last2 else t.pair.last1) = some (nowNs s)))
  ∧ (cwUp s = true → Completes (.heartbeatReceive cw2 hb false tie other) s (fun t => t.pair.peer = s.pair.peer ∧ pairState t = pairState s))
  ∧ (cwUp s = true → pairState s = 0 → hb.st = 1 → hb.major.toNat = Config.pairVersion.toNat / 256 →
    Completes (.heartbeatReceive cw2 hb true tie other) s (fun t => pairState t = 2 ∧ t.exe.running = none))
  ∧ (cwUp s = true → pairState s = 0 → hb.st = 1 → hb.major.toNat ≠ Config.pairVersion.toNat / 256 →
    Completes (.heartbeatReceive cw2 hb true tie other) s (fun t => pairState t = 0))
  ∧ (cwUp s = true → (if cw2 then flag Fld.PAIR_STATE_CW2_OK s else flag Fld.PAIR_STATE_CW1_OK s) = true → Completes (.pairPathLost cw2) s (fun t =>
      (if cw2 then flag Fld.PAIR_STATE_CW2_OK t else flag Fld.PAIR_STATE_CW1_OK t) = false ∧ flag Fld.PAIR_EVENT_PATH t = true
      ∧ t.out.length = s.out.length + (if cwPath t = cwPath s ∨ cwPath t = 0 then 0 else s.pair.unacked.length)))
  ∧ (alive s = true → 2 ≤ power s → pairState s ≠ 5 → s.pair.peerLost = false → Completes (.pairPeerLost other) s (fun t => t.pair.peerLost = true
      ∧ t.pair.unacked = [] ∧ fld Fld.PAIR_STATE_PEER t = 15 ∧ flag Fld.PAIR_EVENT_PEER_LOST t = true ∧ pairState t = pairState s))
  ∧ (alive s = true → pairState s = 0 → peerIs 0 s = true → Completes .pairWaitExpiry s (fun t => t.pair.waitOver = true))
  ∧ (cwUp s = true → s.sup.authDriven = false → peerIs 1 s = true → Completes .pairAuthSense s (fun t => t.sup.authOther = false
      ∧ pairState t = pairState s))
  ∧ (regionsUp s = true → s.saf.auth = false → Completes (.safetyMirrorStale tie) s (fun t => t.saf.mirrorStale = true))
  ∧ (cwUp s = true → s.saf.auth = false → Completes (.safetyRecord sqs req [] split) s (fun t => t.saf.mirrorStale = false
      ∧ t.saf.mirrorReq = some req ∧ t.saf.mirrorSplit = split))
  ∧ (cwUp s = true → Completes (.causewayRecordAck kind q) s (fun t =>
      t.pair.unacked = s.pair.unacked.filter (fun r => !(r.1 == kind.val && decide ((q - toW r.2.1).toNat < 2 ^ 31)))))
  ∧ (cwUp s = true → mirroring s = true → s.pair.tideSent + 10000000 ≤ nowNs s → Completes .tideRecordSend s (fun t => t.pair.tideSent = nowNs s))
  ∧ (cwUp s = true → pairState s = 2 → Completes .syncComplete s (fun t => pairState t = 3 ∧ t.pair.trackAt = some (nowNs s)
      ∧ flag Fld.PAIR_EVENT_TRACKING t = true))
  ∧ (cwUp s = true → pairState s = 3 → flag Fld.PAIR_CTRL_REJOIN_AUTO s = true → s.pair.trackAt = some 0 → 10000000000 ≤ nowNs s →
    peerIs 1 s = true → Completes .trackingRejoin s (fun t => pairState t = 4 ∧ t.pair.trackAt = none ∧ flag Fld.PAIR_EVENT_IN_STEP t = true))
  ∧ (alive s = true → s.pair.switch = .waiting .yield → Completes .yieldExpiry s (fun t => t.pair.switch = .none))
  ∧ (pairState s = 1 → peerIs 4 s = true → (commitOf s.pair.mine t0 cyc).isSome = true → fld Fld.PAIR_LAG_TRAIL_RUN s < 7 →
    Completes (.pairTrailing t0 cyc) s (fun t => fld Fld.PAIR_LAG_TRAIL_RUN t = fld Fld.PAIR_LAG_TRAIL_RUN s + 1 ∧ t.pair.mine = s.pair.mine))

/-- Of an ordered kind the next record is taken and its number noted, an old one changes nothing, and on a standby side a
gap starts the copy anew; a RELEASE releases the idle task with the record's input image and cycle, and one for a task
that is not idle sends the side to TRACKING; a REPLAY, a SCHED and a COMMIT are kept until they are used; granules and
CONTROL records are applied; a free-running tide takes the frequency of the record. A command on a lone module or a
standby side is refused; SWITCHOVER waits for a slack when the partner is in step and is refused otherwise; CANCEL
withdraws one that waits; in a slack HANDOVER goes out; a standby side that agrees grants it, and one that does not
refuses; READY releases AUTH, TAKEN makes the former active side the standby in step, and a failed switchover leaves it
active; REJOIN, RESYNC and RECLAIM send their records. (R471, R477, R478, R479, R481, R484, R485, R497, R498, R499,
R500, R707) -/
def Obligations.PairRecordsAndSwitchover : Prop :=
  (∀ (s : State) (t0 : Fin 24) (n : Fin 8) (cycle points : Nat) (ct v pos base : DWord) (angle crc q : Word) (omega : Int)
    (tag : Tag) (rec : Replay) (since : BitVec 16) (lk : Bool) (vals : List (Tag × DWord × Bool × Bool)),
  (cwUp s = true → pairState s = 4 → (taskDef t0 s).isSome = true → (task t0 s).phase = .idle →
    Completes (.releaseRecord (nextRecord 1 s) t0 cycle ct angle vals) s (fun t => (task t0 t).phase ≠ .idle ∧ (task t0 t).cycles = cycle
      ∧ (task t0 t).cycleTime = ct.toNat ∧ (task t0 t).lastRelease = nowNs s ∧ Sparse.get (fun _ => 0) t.pair.taken 1 = (nextRecord 1 s).toNat))
  ∧ (cwUp s = true → pairState s = 4 → (task t0 s).phase ≠ .idle →
    Completes (.releaseRecord (nextRecord 1 s) t0 cycle ct angle vals) s (fun t => pairState t = 3 ∧ t.exe.running = none
      ∧ flag Fld.PAIR_EVENT_STANDBY_FAULT t = true))
  ∧ (cwUp s = true → 2 ^ 31 ≤ (q - toW (Sparse.get (fun _ => 0) s.pair.taken 1)).toNat → Completes (.releaseRecord q t0 cycle ct angle vals) s
      (fun t => t = s))
  ∧ (cwUp s = true → onStandby s = true → Completes (.stateRecord (nextRecord 5 s + 1) []) s (fun t => pairState t = 2 ∧ t.exe.running = none
      ∧ t.exe.tasks = []))
  ∧ (cwUp s = true → pairState s = 4 → s.exe.running ≠ some t0.val → Completes (.schedRecord (nextRecord 2 s) t0 points false) s (fun t =>
      t.pair.sched = s.pair.sched ++ [(t0.val, points)] ∧ t.exe = s.exe))
  ∧ (cwUp s = true → pairState s = 4 → (task rec.task s).wait = .none → Completes (.replayRecord (nextRecord 3 s) rec) s (fun t =>
      t.pair.replay = s.pair.replay ++ [rec] ∧ t.exe = s.exe))
  ∧ (cwUp s = true → pairState s = 4 → commitOf s.pair.mine t0 cycle = none → Completes (.commitRecord (nextRecord 4 s) t0 cycle crc since false) s
      (fun t => (commitOf t.pair.theirs t0 cycle).any (fun c => c.crc == crc && c.since == since.toNat) = true ∧ pairState t = 4))
  ∧ (cwUp s = true → pairState s = 1 → (commitOf s.pair.mine t0 cycle).any (fun m => m.crc == 0x1234 && m.at_ == nowNs s) = true →
    Completes (.commitRecord (nextRecord 4 s) t0 cycle 0x1234 since false) s (fun t => commitOf t.pair.mine t0 cycle = none
      ∧ fld Fld.PAIR_LAG_TRAIL_RUN t = 0 ∧ rd Reg.PAIR_MISMATCH t = rd Reg.PAIR_MISMATCH s))
  ∧ (cwUp s = true → pairState s = 1 → yieldPending s = false → (commitOf s.pair.mine t0 cycle).any (fun m => m.crc == 0x1234) = true →
    Completes (.commitRecord (nextRecord 4 s) t0 cycle 0x1235 since false) s (fun t => flag Fld.PAIR_EVENT_MISMATCH t = true
      ∧ (rd Reg.PAIR_MISMATCH t).getLsbD 31 = true))
  ∧ (cwUp s = true → inRange (pairState s) 2 3 = true → Completes (.stateRecord (nextRecord 5 s) [.tag 9 v]) s (fun t => tagMemGet 9 t = v)
    ∧ Completes (.stateRecord (nextRecord 5 s) [.force 3 tag v, .forceOff 3]) s (fun t => Sparse.find t.exe.forces 3 = none))
  ∧ (cwUp s = true → onStandby s = true → tideEnabled n s = true → tideSource n s = 0 → execBase s ≤ base.toNat →
    Completes (.tideRecord n lk pos omega base) s (fun t => (tide n t).omega = omega ∧ (tide n t).pos.toNat = pos.toNat * 2 ^ 32))
  ∧ (cwUp s = true → onStandby s = true → Completes (.controlRecord (nextRecord 12 s) .forceClearAll) s (fun t => t.exe.forces = [])
    ∧ Completes (.controlRecord (nextRecord 12 s) .resync) s (fun t => pairState t = 2))
  ∧ (cwUp s = true → pairState s = 1 → peerInStep s = true → s.pair.switch = .none → Completes (.controlRecord (nextRecord 12 s) .reclaim) s (fun t =>
      t.pair.switch = .waiting .reclaim)))
  ∧ (∀ (s : State) (a : Word) (t0 : Fin 24) (base : DWord),
  (hostOk Reg.PAIR_CMD .write s = true → flag Fld.PAIR_RESULT_BUSY s = false → pairState s = 1 → peerInStep s = true → s.pair.switch = .none →
    Completes .pairSwitchoverCmd s (fun t => t.pair.switch = .waiting .command ∧ flag Fld.PAIR_RESULT_BUSY t = true ∧ pairState t = 1))
  ∧ (hostOk Reg.PAIR_CMD .write s = true → flag Fld.PAIR_RESULT_BUSY s = false → pairState s = 1 → peerInStep s = false →
    Completes .pairSwitchoverCmd s (fun t => t.pair = s.pair ∧ flag Fld.PAIR_EVENT_CMD_REFUSED t = true
      ∧ fld Fld.PAIR_RESULT_STATUS t = Code.PAIR_NOT_IN_STEP.toNat))
  ∧ (hostOk Reg.PAIR_CMD .write s = true → flag Fld.PAIR_RESULT_BUSY s = false → pairState s ≠ 1 → pairState s ≠ 5 →
    Completes .pairSwitchoverCmd s (fun t => t.pair = s.pair ∧ fld Fld.PAIR_RESULT_STATUS t = Code.PAIR_STANDBY_REFUSED.toNat)
    ∧ Completes .pairRejoin s (fun t => t.pair = s.pair ∧ fld Fld.PAIR_RESULT_STATUS t = Code.PAIR_STANDBY_REFUSED.toNat)
    ∧ Completes .pairResync s (fun t => t.pair = s.pair ∧ fld Fld.PAIR_RESULT_STATUS t = Code.PAIR_STANDBY_REFUSED.toNat))
  ∧ (hostOk Reg.PAIR_CMD .write s = true → flag Fld.PAIR_RESULT_BUSY s = false → pairState s = 5 → Completes .pairResync s (fun t => t.pair = s.pair
      ∧ fld Fld.PAIR_RESULT_STATUS t = Code.PAIR_CMD_INVALID.toNat))
  ∧ (hostOk Reg.PAIR_CMD .write s = true → flag Fld.PAIR_RESULT_BUSY s = false → pairState s = 1 → peerIs 4 s = true → cwUp s = true →
    Completes .pairResync s (fun t => fld Fld.PAIR_RESULT_STATUS t = Code.PAIR_OK.toNat ∧ t.out.length = s.out.length + 1))
  ∧ (hostOk Reg.PAIR_CMD .write s = true → flag Fld.PAIR_RESULT_BUSY s = false → pairState s = 1 → peerIs 3 s = true → s.pair.trackAt = some 0 →
    10000000000 ≤ nowNs s → cwUp s = true → Completes .pairRejoin s (fun t => fld Fld.PAIR_RESULT_STATUS t = Code.PAIR_OK.toNat
      ∧ t.out.length = s.out.length + 1))
  ∧ (hostOk Reg.PAIR_CMD .write s = true → pairState s = 1 → s.pair.switch = .waiting .command → Completes .pairCancel s (fun t =>
      t.pair.switch = .none ∧ flag Fld.PAIR_RESULT_BUSY t = false ∧ fld Fld.PAIR_RESULT_STATUS t = Code.PAIR_OK.toNat))
  ∧ (hostOk Reg.PAIR_CMD .write s = true → pairState s = 1 → s.pair.switch = .none → Completes .pairCancel s (fun t =>
      t.pair = s.pair ∧ fld Fld.PAIR_RESULT_STATUS t = Code.PAIR_CMD_INVALID.toNat))
  ∧ (s.pair.switch = .waiting .command → cwUp s = true → pairState s = 1 → peerInStep s = true → s.pair.mine = [] → slackFits 120000 s = true →
    Completes .switchoverStart s (fun t => t.pair.switch = .sent .command ∧ pairState t = 1))
  ∧ (cwUp s = true → pairState s = 4 → pairCapable s = true → allIdle s = true → Completes (.handoverRecord (nextRecord 12 s) [] [(t0, a)] base) s
      (fun t => t.pair.switch = .granted ∧ (task t0 t).angle = some a ∧ pairState t = 4))
  ∧ (cwUp s = true → onStandby s = true → pairCapable s = false → Completes (.handoverRecord (nextRecord 12 s) [] [(t0, a)] base) s
      (fun t => t.pair.switch = s.pair.switch ∧ (task t0 t).angle = (task t0 s).angle ∧ pairState t = pairState s))
  ∧ (cwUp s = true → s.pair.switch = .sent .command → Completes (.readyRecord (nextRecord 12 s)) s (fun t => t.pair.switch = .released .command
      ∧ flag Fld.PAIR_STATE_AUTH_HELD t = false ∧ t.sup.authDriven = false))
  ∧ (cwUp s = true → s.pair.switch = .released .command → pairState s = 1 → Completes (.takenRecord (nextRecord 12 s)) s (fun t =>
      pairState t = 4 ∧ t.pair.switch = .none ∧ flag Fld.PAIR_RESULT_BUSY t = false))
  ∧ (alive s = true → pairState s = 1 → s.pair.switch = .sent .command ∨ s.pair.switch = .released .command → Completes .pairSwitchFailed s (fun t =>
      t.pair.switch = .none ∧ pairState t = 1 ∧ flag Fld.PAIR_RESULT_BUSY t = false))
  ∧ (cwUp s = true → dwellRuns s = true → s.pair.dwellAt = some 0 → 1000000000 * fld Fld.PAIR_CFG_RECLAIM_DWELL s ≤ nowNs s →
    Completes .pairReclaim s (fun t => t.out.length = s.out.length + 1 ∧ pairState t = pairState s)))

/-- NET_CTRL enables ports, and its redundancy changes only with both plant ports closed; a port loses and gains its link
and is isolated; the first copy of a redundant frame is delivered and its second is discarded; a copy that does not
follow is counted as lost on the other network; supervision and address frames go out on ports that work. (R507, R508,
R509, R510, R511, R512, R513, R542) -/
def Obligations.PlantPorts : Prop := ∀ (s : State) (port : Fin 4) (np ir1 err : Bool) (v : Word) (ok : BitVec 4) (src : BitVec 48) (seq : BitVec 16)
    (kind : PlantKind) (frame : List Byte),
  (hostOk Reg.NET_CTRL .write s = true → rd Reg.NET_CTRL s &&& 3 = 0 → v.toNat / 2 ^ 30 ≠ 3 → Completes (.netCtrlWrite v ok) s (fun t =>
      rd Reg.NET_CTRL t = v &&& 0xF000000F ∧ (v.getLsbD port = true → ok.getLsbD port = true → bitAt Reg.NET_CTRL port s = false →
        flag (portIso port) t = false)))
  ∧ (hostOk Reg.NET_CTRL .write s = true → rd Reg.NET_CTRL s &&& 3 ≠ 0 → v.toNat / 2 ^ 28 ≠ (rd Reg.NET_CTRL s).toNat / 2 ^ 28 →
    Completes (.netCtrlWrite v ok) s (fun t => rd Reg.NET_CTRL t = (rd Reg.NET_CTRL s &&& 0xF0000000) ||| (v &&& 0xF)))
  ∧ (regionsUp s = true → flag (portLink port) s = true → Completes (.netLinkDown port) s (fun t => flag (portLink port) t = false
      ∧ flag Fld.NET_EVENT_LINK t = true ∧ portUp port t = false))
  ∧ (regionsUp s = true → portOn port s = true → flag (portLink port) s = false → Completes (.netLinkUp port) s (fun t =>
      flag (portLink port) t = true ∧ flag Fld.NET_EVENT_LINK t = true))
  ∧ (regionsUp s = true → portOn port s = true → Completes (.netPortIsolated port) s (fun t => flag (portIso port) t = true
      ∧ flag (portLink port) t = false ∧ portOn port t = false))
  ∧ (portUp np.toNat s = true → redundant s = true → (hsr s && ownMac src s) = false →
    (s.net.dup.filter (fun e => decide (nowNs s < e.at_ + 400000000))).any (fun e => e.src == src && e.seq == seq) = false →
    Completes (.plantFrameReceive np src (some seq) kind .mine frame) s (fun t =>
      t.net.dup.head? = some { src := src, seq := seq, port := np, at_ := nowNs s, both := false }))
  ∧ (portUp np.toNat s = true → redundant s = true → hsr s = false →
    (s.net.dup.filter (fun e => decide (nowNs s < e.at_ + 400000000))).any (fun e => e.src == src && e.seq == seq) = true →
    Completes (.plantFrameReceive np src (some seq) kind .mine frame) s (fun t => t.mem = s.mem ∧ t.out = s.out
      ∧ t.net.nodes = s.net.nodes))
  ∧ (portUp np.toNat s = true → hsr s = false → Completes (.plantFrameReceive np src none .supervision .mine frame) s (fun t =>
      t.net.nodes.head? = some (src, nowNs s)))
  ∧ (netUp s = true → s.net.dup.length = 1 → s.net.dup.any (fun e => e.src == src && e.seq == seq) = true → Completes (.redundantCopyTimeout src seq) s (fun t =>
      t.net.dup = []))
  ∧ (netUp s = true → redundant s = true → portUp 0 s = true → portUp 1 s = true → Completes .supervisionSend s (fun t =>
      t.out.length = s.out.length + 2))
  ∧ (netUp s = true → hsr s = true → Completes .netHsrOpen s (fun t => flag Fld.NET_EVENT_RED_LOSS t = true))
  ∧ (netUp s = true → serving s = true → Completes .gratuitousArpRepeat s (fun t => t.out.length = s.out.length + 1))
  ∧ (portUp (2 + ir1.toNat) s = true → Completes (.acyclicRingAnswer ir1 err frame) s (fun t => t.net = s.net ∧ t.exe = s.exe))

/-- A one-step Sync or a Follow_Up of the selected master becomes the offset of its port less the path delay; an offset
above JUMP_NS changes no time unless a step was accepted, then module time is stepped by it and the permission ends; an
Announce selects the master, a timeout or silence leads to HOLDOVER, or to the other port; delay requests are answered
and delay answers measured; messages of a master go out only from a master. (R515, R516, R517, R518, R519, R520, R521,
R522) -/
def Obligations.NetworkTime : Prop := ∀ (s : State) (np tie two both : Bool) (gm : DWord) (sec : BitVec 48) (ns : Word) (corr t2 : Int) (age turn : Nat)
    (u : BitVec 16),
  (portUp np.toNat s = true → s.net.ptp.master = true → rd64 Reg.PTP_GM_LO s = gm → (ptpPort np s).delays = [] →
    Completes (.ptpSync np gm sec ns corr age false) s (fun t =>
      (ptpPort np t).offset = some (((moduleNs s).toNat : Int) - age - ptpTime sec ns - corr)))
  ∧ (portUp np.toNat s = true → s.net.ptp.master = true → rd64 Reg.PTP_GM_LO s = gm → Completes (.ptpSync np gm sec ns corr age true) s (fun t =>
      (ptpPort np t).sync = some (((moduleNs s).toNat : Int) - age, corr) ∧ t.mtime = s.mtime))
  ∧ (portUp np.toNat s = true → (ptpPort np s).sync.isSome = true → (ptpPort np s).delays = [] →
    Completes (.ptpFollowUp np false sec ns corr) s (fun t => (ptpPort np t).offset = (ptpPort np s).sync.map (fun x => x.1 - ptpTime sec ns - x.2 - corr)))
  ∧ (portUp np.toNat s = true → s.net.ptp.master = true → rd64 Reg.PTP_GM_LO s = gm → np = srcPort s → (ptpPort np s).delays = [] →
    s.net.ptp.stepAccepted = false → s.net.ptp.judged = true →
    (rd Reg.PTP_JUMP s).toNat < (((moduleNs s).toNat : Int) - age - ptpTime sec ns - corr).natAbs →
    Completes (.ptpSync np gm sec ns corr age false) s (fun t => t.mtime = s.mtime ∧ flag Fld.PTP_STATE_REFUSING t = true
      ∧ t.net.ptp.refused = s.net.ptp.refused + 1 ∧ flag Fld.NET_EVENT_PTP_JUMP t = true))
  ∧ (portUp np.toNat s = true → s.net.ptp.master = true → rd64 Reg.PTP_GM_LO s = gm → np = srcPort s → (ptpPort np s).delays = [] →
    s.net.ptp.stepAccepted = true →
    (rd Reg.PTP_JUMP s).toNat < (((moduleNs s).toNat : Int) - age - ptpTime sec ns - corr).natAbs →
    Completes (.ptpSync np gm sec ns corr age false) s (fun t => t.net.ptp.stepAccepted = false ∧ flag Fld.PTP_STATE_REFUSING t = false
      ∧ (t.mtime : Int) = (s.mtime - (((moduleNs s).toNat : Int) - age - ptpTime sec ns - corr) * 2 ^ 32) % 2 ^ 96))
  ∧ (portUp np.toNat s = true → Completes (.ptpAnnounce np gm (some u) .sender) s (fun t => t.net.ptp.master = true ∧ rd64 Reg.PTP_GM_LO t = gm
      ∧ flag Fld.PTP_STATE_MASTER t = false ∧ fld Fld.PTP_UTC_OFFSET_S t = u.toNat)
    ∧ Completes (.ptpAnnounce np gm none .nobody) s (fun t => t.net.ptp.master = false))
  ∧ (netUp s = true → s.net.ptp.master = true → servo s ≠ 3 → Completes (.ptpAnnounceTimeout .nobody false) s (fun t =>
      servo t = 3 ∧ t.net.ptp.master = false ∧ flag Fld.PTP_STATE_DISCIPLINED t = false)
    ∧ Completes (.ptpSyncSilence true false) s (fun t => servo t = 3 ∧ flag Fld.PTP_STATE_DISCIPLINED t = false)
    ∧ Completes (.ptpSyncSilence both true) s (fun t => servo t = servo s))
  ∧ (netUp s = true → s.net.ptp.master = true → redundant s = true → Completes (.ptpSyncSilence false false) s (fun t =>
      srcPort t = !srcPort s ∧ servo t = servo s))
  ∧ (portUp np.toNat s = true → Completes (.ptpPdelayReq np turn) s (fun t => t.out.length = s.out.length + 1 ∧ t.net = s.net))
  ∧ (portUp np.toNat s = true → Completes (.ptpMessageSend .pdelayReq np) s (fun t => (ptpPort np t).reqAt = some ((moduleNs s).toNat : Int)
      ∧ t.out.length = s.out.length + 1))
  ∧ (portUp np.toNat s = true → flag Fld.PTP_STATE_MASTER s = false → Completes (.ptpMessageSend .sync np) s (fun t => t.out = s.out)
    ∧ Completes (.ptpMessageSend .announce np) s (fun t => t.out = s.out))
  ∧ (portUp np.toNat s = true → (ptpPort np s).reqAt = some t2 → Completes (.ptpPdelayResp np t2 corr age false) s (fun t =>
      (ptpPort np t).reqAt = none ∧ (ptpPort np t).delays.head? = some (((moduleNs s).toNat : Int) - age - t2 - corr)))
  ∧ (hostOk Reg.PTP_CMD .write s = true → Completes .ptpAcceptStep s (fun t => t.net.ptp.stepAccepted = true)
    ∧ Completes .ptpCancelStep s (fun t => t.net.ptp.stepAccepted = false))

/-- A sound GOOSE or launch descriptor is taken and answered, a bad one is refused; a repetition counts its message; a
validity that expires marks the subscription; a launch that waits leaves and its guard ends; a ring cycle gives each
station of the task a new TID, the answer with that TID brings the task's values and one with another is late; an
enumeration marks the stations that are there with their identity; RUN starts and stops the ring, and a standby side
passes frames on. (R524, R526, R527, R528, R530, R531, R533, R534, R537, R538, R540, R541) -/
def Obligations.GooseLaunchAndRing : Prop := ∀ (s : State) (k : Fin 80) (i : Fin 16) (j st : Fin 64) (t0 : Fin 8) (w : Fin 8) (tid : BitVec 16)
    (vals : List (Tag × DWord)) (late tie run : Bool) (p : Fin 64) (m : GooseMsg),
  (hostOk Reg.GSE_CMD .write s = true → fld Fld.GSE_SEL_ENTRY s = k.val → gseBad k ((List.range 8).map (fun w => rd (Reg.GSE_DATA w) s)) s = true →
    Completes .gseWrite s (fun t => t.net = s.net ∧ fld Fld.GSE_RESULT_STATUS t = Code.NET_CFG_BAD.toNat ∧ flag Fld.NET_EVENT_GSE_CFG t = true))
  ∧ (hostOk Reg.GSE_CMD .write s = true → fld Fld.GSE_SEL_ENTRY s = k.val → gseBad k ((List.range 8).map (fun w => rd (Reg.GSE_DATA w) s)) s = false →
    Completes .gseWrite s (fun t => (gse k t).desc.getD w 0 = rd (Reg.GSE_DATA w) s ∧ (gse k t).live = false
      ∧ fld Fld.GSE_RESULT_STATUS t = Code.NET_OK.toNat))
  ∧ (hostOk Reg.GSE_CMD .write s = true → fld Fld.GSE_SEL_ENTRY s = k.val → Completes .gseRead s (fun t => rd (Reg.GSE_DATA w) t = (gse k s).desc.getD w 0
      ∧ t.net = s.net) ∧ Completes .gseDisable s (fun t => gseEn (gse k t) = false ∧ (gse k t).live = false))
  ∧ (regionsUp s = true → gseEn (gse i s) = true → (gse i s).live = true → Completes (.gooseRetransmit i) s (fun t =>
      (gse i t).sqNum = (gse i s).sqNum + 1 ∧ (gse i t).stNum = (gse i s).stNum
      ∧ (gse i t).interval = min (2 * (gse i s).interval) (gseBits (gse i s).desc 3 15 0)))
  ∧ (netUp s = true → Completes (.gooseReceive m) s (fun t => gooseMatch (16 + j) m s = false → gse (16 + j) t = gse (16 + j) s))
  ∧ (netUp s = true → gseEn (gse (16 + j) s) = true → flag (gseValid j) s = true → Completes (.netGseTalExpired j false) s (fun t =>
      flag (gseValid j) t = false ∧ flag Fld.NET_EVENT_GSE_INVALID t = true)
    ∧ Completes (.netGseTalExpired j true) s (fun t => flag (gseValid j) t = true))
  ∧ (hostOk Reg.LNCH_CMD .write s = true → fld Fld.LNCH_SEL_SLOT s = j.val → launchBad (rd Reg.LNCH_DATA0 s) (rd Reg.LNCH_DATA1 s) s = true →
    Completes .lnchWrite s (fun t => t.net = s.net ∧ fld Fld.LNCH_RESULT_STATUS t = Code.NET_CFG_BAD.toNat))
  ∧ (hostOk Reg.LNCH_CMD .write s = true → fld Fld.LNCH_SEL_SLOT s = j.val → launchBad (rd Reg.LNCH_DATA0 s) (rd Reg.LNCH_DATA1 s) s = false →
    Completes .lnchWrite s (fun t => (launch j t).w0 = rd Reg.LNCH_DATA0 s ∧ (launch j t).w1 = rd Reg.LNCH_DATA1 s
      ∧ fld Fld.LNCH_RESULT_STATUS t = Code.NET_OK.toNat))
  ∧ (hostOk Reg.LNCH_CMD .write s = true → fld Fld.LNCH_SEL_SLOT s = j.val → Completes .lnchRead s (fun t => rd Reg.LNCH_DATA0 t = (launch j s).w0
      ∧ rd Reg.LNCH_DATA1 t = (launch j s).w1) ∧ Completes .lnchDisable s (fun t => (launch j t).w0.getLsbD 31 = false ∧ (launch j t).w1 = (launch j s).w1))
  ∧ (netUp s = true → (launch j s).waiting.isSome = true → portUp 0 s = true → portUp 1 s = true → redundant s = true → Completes (.launchSend j late) s
      (fun t => (launch j t).waiting = none ∧ t.out.length = s.out.length + 2))
  ∧ (Completes (.launchGuardExpiry j) s (fun t => (launch j t).guard = false ∧ (launch j t).waiting = (launch j s).waiting))
  ∧ (ringMaster s = true → fld Fld.RING_STATE_STATE s = 3 → taskStations t0 s = [(st.val, { task := t0, staleLimit := 1 })] →
    (ringStn st s).issued = [] → Completes (.ringCycleLaunch t0) s (fun t => (ringStn st t).tid = (ringStn st s).tid % 65535 + 1
      ∧ (station st t).answered = false ∧ t.net.ring.launchAt = nowNs s))
  ∧ (ringMaster s = true → portUp 2 s = true → (ringStn st s).closed = false → (ringStn st s).tid < 65536 →
    Completes (.stationAnswer st (BitVec.ofNat 16 (ringStn st s).tid) true false vals tie) s (fun t => (station st t).answered = true
      ∧ flag (Fld.STNs_STATUS_VIA_IR0 st) t = true ∧ (ringStn st t).tid = (ringStn st s).tid))
  ∧ (ringMaster s = true → portUp 2 s = true → (ringStn st s).tid ≠ tid.toNat → Completes (.stationAnswer st tid true false vals tie) s (fun t =>
      t.exe = s.exe ∧ t.net = s.net))
  ∧ (ringMaster s = true → inRange (fld Fld.RING_STATE_STATE s) 2 3 = true → rd (Reg.STNs_ID st) s ≠ 0 →
    Completes (.ringEnumeration [(st, rd (Reg.STNs_ID st) s, p)]) s (fun t => fld (Fld.STNs_STATUS_STATE st) t = 2 ∧ fld (Fld.STNs_STATUS_POSITION st) t = p.val
      ∧ fld Fld.RING_STATE_STATE t = 3 ∧ flag (presentBit st) t = true))
  ∧ (hostOk Reg.RING_CTRL .write s = true → Completes (.ringRunWrite run) s (fun t => flag Fld.RING_CTRL_RUN t = run
      ∧ (run = false → fld Fld.RING_STATE_STATE t = 0 ∧ t.net.ring.up = false)))
  ∧ (regionsUp s = true → Completes .ringWaitExpiry s (fun t => t.net.ring.waitOver = true))
  ∧ (onStandby s = true → portUp 2 s = true → portUp 3 s = true → Completes (.ringPassThrough [(st, tid)]) s (fun t =>
      (ringStn st t).tid = tid.toNat ∧ flag Fld.RING_STATE_PASS t = true ∧ t.out.length = s.out.length + 1))

/-- A frame goes to the lowest matching buffer that can take it, with its identifier, format, data and time and FULL set,
and a second one there sets OVERRUN; a frame that no buffer takes is lost; the transmission with the highest priority
completes and clears its pending request; errors count, above 255 the channel is off the bus, and it comes back after
its recovery; a deadline withdraws a request. A channel with sound timing and buffers is enabled with its counters at 0,
one with bad timing is not; a host write reaches a word that it may write and leaves any other; REQUEST, CANCEL, RELEASE
and CLEAR_CLASH act on a buffer of the host and are refused for a safety buffer; RECOVER starts the recovery of a
channel that is off the bus; an isolated channel comes back by RECOVER_CH with a passed check only. (R546, R547, R548,
R549, R550, R551, R552, R553, R554, R555, R558, R559) -/
def Obligations.CanChannels : Prop :=
  (∀ (s : State) (c : Fin 4) (b : Fin 64) (f : CanFrame) (stamp : DWord) (crc eight tie counts : Bool),
  (canOnBus c s = true → flag (Fld.CNc_CFG_FD_EN c) s = true →
    ((List.range 64).filter (fun b => canMatches (canBuf c b s) f)).head? = some b.val → canTakes (canBuf c b s) = true →
    Completes (.canFrameReceive c f) s (fun t => (canBuf c b t).has canFull = true ∧ (canBuf c b t).word 7 = canRxId f
      ∧ (canBuf c b t).word 4 = f.stamp.setWidth 32 ∧ (canBuf c b t).has canOverrun = (canBuf c b s).has canFull
      ∧ (canBuf c b t).get canSeq = ((canBuf c b s).get canSeq + 1) % 16))
  ∧ (canOnBus c s = true → flag (Fld.CNc_CFG_FD_EN c) s = true →
    ((List.range 64).filter (fun b => canMatches (canBuf c b s) f)) = [] → flag (Fld.CNc_CFG_QUEUE_EN c) s = false →
    Completes (.canFrameReceive c f) s (fun t => t.can = s.can ∧ t.mem = s.mem))
  ∧ (canOnBus c s = true → flag (Fld.CNc_CFG_FD_EN c) s = false → f.fdf = true → Completes (.canFrameReceive c f) s (fun t => t.can = s.can
      ∧ canRec c t = min (canRec c s + 1) 255))
  ∧ (canOnBus c s = true → Completes (.canRxError c crc eight) s (fun t => canRec c t = min (canRec c s + (if eight then 8 else 1)) 255
      ∧ canTec c t = canTec c s))
  ∧ (canSends c s = true → canOffer c s = some b.val → Completes (.canTxComplete c none stamp) s (fun t => canPendingAt c b t = false
      ∧ (canBuf c b t).word 4 = stamp.setWidth 32 ∧ canTec c t = canTec c s - 1 ∧ t.out.length = s.out.length + 1))
  ∧ (canSends c s = true → canOffer c s = some b.val → (canBuf c b s).cancelled = false → canTec c s < 248 → Completes (.canTxError c none (.error true)) s
      (fun t => canTec c t = canTec c s + 8 ∧ canPendingAt c b t = true ∧ canOnBus c t = true))
  ∧ (canSends c s = true → canOffer c s = some b.val → 248 ≤ canTec c s → Completes (.canTxError c none (.error true)) s
      (fun t => canOnBus c t = false ∧ flag Fld.CAN_EVENT_BUS_OFF t = true))
  ∧ (canUp s = true → canState c s = 4 → Completes (.canBusOn c) s (fun t => canState c t = 1 ∧ canTec c t = 0 ∧ canRec c t = 0))
  ∧ (canUp s = true → canPendingAt c b s = true → (canBuf c b s).has canTimeout = true → Completes (.canTxTimeout c b false stamp) s (fun t =>
      canPendingAt c b t = false ∧ (canBuf c b t).get canLast = Code.CAN_TX_TIMEOUT.toNat ∧ flag Fld.CAN_EVENT_TX_FAIL t = true))
  ∧ (canUp s = true → inRange (canState c s) 1 4 = true → (canBuf c b s).get canKind = 1 → (canBuf c b s).get canOwner = 1 →
    (canBuf c b s).has canTimeout = true → Completes (.canRxSilent c b false) s (fun t =>
      (canBuf c b t).get canLast = Code.CAN_RX_SILENT.toNat) ∧ Completes (.canRxSilent c b true) s (fun t => t.can = s.can)))
  ∧ (∀ (s : State) (c d : Fin 4) (b e : Fin 64) (w : Fin 32) (v : Word) (tie check : Bool),
  (hostOk Reg.CAN_CTRL .write s = true → v.getLsbD c = true → bitAt Reg.CAN_CTRL c s = false → canTimingOk c s = true → canBound c s = [] →
    canState c s ≠ 5 → Completes (.canChannelEnable v) s (fun t => bitAt Reg.CAN_CTRL c t = true ∧ canState c t = 1 ∧ canTec c t = 0 ∧ canRec c t = 0))
  ∧ (hostOk Reg.CAN_CTRL .write s = true → v.getLsbD c = true → bitAt Reg.CAN_CTRL c s = false → canTimingOk c s = false →
    Completes (.canChannelEnable v) s (fun t => bitAt Reg.CAN_CTRL c t = false ∧ canState c t = canState c s))
  ∧ (hostOk Reg.CAN_CTRL .write s = true → v.getLsbD c = false → bitAt Reg.CAN_CTRL c s = true → canState c s ≠ 5 → Completes (.canChannelEnable v) s
      (fun t => bitAt Reg.CAN_CTRL c t = false ∧ canState c t = 0))
  ∧ (hostOk (canAddr c b w) .write s = true → canWritable c b w v s = true → Completes (.canBufferWrite c b w v) s (fun t =>
      (canBuf c b t).word w = (v &&& canWordMask w) ∧ (c ≠ d ∨ b ≠ e → canBuf d e t = canBuf d e s)))
  ∧ (hostOk (canAddr c b w) .write s = true → canWritable c b w v s = false → Completes (.canBufferWrite c b w v) s (fun t => t.can = s.can))
  ∧ (hostOk Reg.CAN_CMD .write s = true → (canBuf c b s).get canOwner ≠ 2 → (canBuf c b s).get canKind = 2 → Completes (.canRequest c b) s (fun t =>
      canPendingAt c b t = true ∧ (canBuf c b t).clash = false ∧ fld Fld.CAN_RESULT_STATUS t = Code.CAN_OK.toNat))
  ∧ (hostOk Reg.CAN_CMD .write s = true → (canBuf c b s).get canOwner = 2 → Completes (.canRequest c b) s (fun t => t.can = s.can
      ∧ fld Fld.CAN_RESULT_STATUS t = Code.CAN_CFG_BAD.toNat) ∧ Completes (.canRelease c b tie) s (fun t => t.can = s.can))
  ∧ (hostOk Reg.CAN_CMD .write s = true → (canBuf c b s).get canOwner ≠ 2 → canPendingAt c b s = true → Completes (.canCancel c b false) s (fun t =>
      canPendingAt c b t = false ∧ (canBuf c b t).get canLast = Code.CAN_CANCELLED.toNat ∧ fld Fld.CAN_RESULT_STATUS t = Code.CAN_CANCELLED.toNat)
    ∧ (canSends c s = true → Completes (.canCancel c b true) s (fun t => canPendingAt c b t = true ∧ (canBuf c b t).cancelled = true)))
  ∧ (hostOk Reg.CAN_CMD .write s = true → (canBuf c b s).get canOwner ≠ 2 → Completes (.canRelease c b false) s (fun t =>
      (canBuf c b t).has canFull = false) ∧ Completes (.canRelease c b true) s (fun t => t.can = s.can)
    ∧ Completes (.canClearClash c b) s (fun t => (canBuf c b t).clash = false ∧ (canBuf c b t).words = (canBuf c b s).words))
  ∧ (hostOk Reg.CAN_CMD .write s = true → canState c s = 3 → Completes (.canRecover c) s (fun t => canState c t = 4))
  ∧ (canUp s = true → canState c s ≠ 5 → Completes (.canChannelIsolated c) s (fun t => canState c t = 5 ∧ flag Fld.CAN_EVENT_ISOLATED t = true))
  ∧ (hostOk Reg.CAN_CMD .write s = true → canState c s = 5 → Completes (.canRecoverCh c true) s (fun t =>
      canState c t = (if bitAt Reg.CAN_CTRL c s then 1 else 0) ∧ canTec c t = 0)
    ∧ Completes (.canRecoverCh c false) s (fun t => canState c t = 5 ∧ fld Fld.CAN_RESULT_STATUS t = Code.CAN_CHANNEL_ISOLATED.toNat)))

/-- The oldest accepted record is written with its check at the ring index of its SEQ; FREEZE stops writing after the
records accepted so far and is refused in a freeze, THAW and the expiry end one, and the hold area then follows in
order; READ answers the record at an index, or all ones on a memory error; LOG accepts a record of source host; a rate
limit is set for the selected code; the records that a live drain skipped are reported and counted anew; a request takes
the item at TAIL of Q51. (R565, R566, R567, R570, R571, R572, R574, R575, R576, R577, R578, R579) -/
def Obligations.StrandlineRing : Prop := ∀ (s : State) (w : Fin 8) (v : Word) (tie : Bool) (r : StrRec) (first : Word) (count : Nat),
  (s.strand.phase = .run → s.strand.lostSince = 0 → flag Fld.STR_CTRL_LIVE_EN s = false → flag Fld.STR_CTRL_PRIO_EN s = false →
    Completes .strandlineRingWrite { s with strand := { s.strand with queue := r :: s.strand.queue } } (fun t => t.strand.queue = s.strand.queue
      ∧ mgetBytes (ringBase + 32 * ringIndex r.seq) 32 t = recBytes r ∧ t.strand.ringSeq = r.seq))
  ∧ (hostOk Reg.STR_CMD .write s = true → s.strand.phase = .run → Completes .strFreeze s (fun t => t.strand.phase = .frozen
      ∧ t.strand.frozenAt = nowNs s ∧ t.strand.events &&& fieldMask Fld.STR_EVENT_FREEZE ≠ 0 ∧ fld Fld.STR_RESULT_STATUS t = Code.STRAND_OK.toNat))
  ∧ (hostOk Reg.STR_CMD .write s = true → s.strand.phase = .frozen → Completes .strFreeze s (fun t => t.strand.phase = .frozen
      ∧ t.strand.frozenAt = s.strand.frozenAt ∧ fld Fld.STR_RESULT_STATUS t = Code.STR_CMD_REFUSED.toNat))
  ∧ (hostOk Reg.STR_CMD .write s = true → s.strand.phase = .frozen → Completes (.strThaw tie) s (fun t => t.strand.phase = .thawing
      ∧ fld Fld.STR_RESULT_STATUS t = Code.STRAND_OK.toNat))
  ∧ (hostOk Reg.STR_CMD .write s = true → s.strand.phase = .run → Completes (.strThaw tie) s (fun t => t.strand.phase = .run
      ∧ fld Fld.STR_RESULT_STATUS t = Code.STR_CMD_REFUSED.toNat))
  ∧ (s.strand.phase = .frozen → Completes .strFreezeExpired s (fun t => t.strand.phase = .thawing ∧ t.strand.events &&& fieldMask Fld.STR_EVENT_EXPIRED ≠ 0))
  ∧ (s.strand.phase = .thawing → Completes .strThawAppendDone s (fun t => t.strand.phase = .run ∧ t.strand.hold = []))
  ∧ (hostOk Reg.STR_CMD .write s = true → Completes (.strRead false) s (fun t =>
      rd (Reg.STR_REC w) t = toW (mgetN (ringBase + 32 * fld Fld.STR_READ_IDX_INDEX s + 4 * w) 4 s) ∧ t.mem = s.mem
      ∧ fld Fld.STR_RESULT_STATUS t = Code.STRAND_OK.toNat)
    ∧ Completes (.strRead true) s (fun t => rd (Reg.STR_REC w) t = 0xFFFFFFFF ∧ t.strand.events &&& fieldMask Fld.STR_EVENT_MEM_ERR ≠ 0
      ∧ fld Fld.STR_RESULT_STATUS t = Code.STR_MEM_ERR.toNat))
  ∧ (hostOk Reg.STR_CMD .write s = true → Completes .strLog s (fun t => fld Fld.STR_RESULT_STATUS t = Code.STRAND_OK.toNat ∧ t.mem = s.mem))
  ∧ (hostOk Reg.STR_CMD .write s = true → s.strand.phase = .run → s.strand.queue = [] → s.strand.lostSince = 0 →
    Sparse.find s.strand.tat (fld Fld.STR_HOST_CODE_CODE s) = none → fieldOf (rlCfg (fld Fld.STR_HOST_CODE_CODE s) s) Fld.STR_RL_CFG_RATE = 0 →
    Completes .strLog s (fun t => t.strand.queue.map (fun r => (r.source, r.code, r.datum, r.seq)) =
      [(.host, fld Fld.STR_HOST_CODE_CODE s, rd64 Reg.STR_HOST_DATUM_LO s, s.strand.seq + 1)]))
  ∧ (hostOk Reg.STR_RL_CFG .write s = true → Completes (.strRlCfgWrite v) s (fun t =>
      rlCfg (fld Fld.STR_RL_SEL_CODE s) t = (v &&& 0xFFFFFF80) ∧ t.strand.queue = s.strand.queue))
  ∧ (s.strand.skips ≠ 0 → Completes .strDrainSkip s (fun t => t.strand.skips = 0 ∧ t.strand.events &&& fieldMask Fld.STR_EVENT_DRAIN_SKIP ≠ 0))
  ∧ (queHas 51 s = true → Completes (.strandlineRequest first count) s (fun t => queTail 51 t = (queTail 51 s + 1) % queEntries 51 s
      ∧ queHead 51 t = queHead 51 s))
  ∧ (s.strand.phase = .starting → alive s = true → Completes .strandlineScanEnd s (fun t => t.strand.phase ≠ .starting
      ∧ t.strand.phase ≠ .frozen ∧ t.strand.recovered = !s.sup.dramLost))

/-- A window's end applies the accumulated trim; a stopped crystal loses trust and sets OSF, which the host clears only once
it runs again; SET_TICKS and SET_CAL load the count and are refused beyond 2271 and for an invalid date, READ_CAL shows
the calendar of the count; network time sets the count; a lost retention clears the clock and its registers; a low cell
is reported and its recovery too. (R584, R585, R586, R587, R589, R590, R592, R593, R594, R595) -/
def Obligations.BackupClock : Prop := ∀ (s : State) (i j : Fin 16) (v : Word) (mv : Nat) (b : Bool),
  (s.backup.stopped = false → Completes .trimWindow s (fun t => t.backup.window = 0 ∧ t.backup.adjust = Int.tdiv (s.backup.acc + s.backup.trim) 32
      ∧ t.backup.acc + 32 * t.backup.adjust = s.backup.acc + s.backup.trim ∧ t.backup.count = s.backup.count))
  ∧ (Completes .clkOscStopped s (fun t => t.backup.osf = true ∧ t.backup.trusted = false ∧ t.backup.stopped = true
      ∧ t.backup.count = s.backup.count))
  ∧ (hostOk Reg.CLK_STATUS .write s = true → Completes (.clkOsfClear false) s (fun t => t.backup.osf = false ∧ t.backup.stopped = false
      ∧ t.backup.trusted = s.backup.trusted) ∧ Completes (.clkOsfClear true) s (fun t => t.backup = s.backup))
  ∧ (alive s = true → flag Fld.CLK_CTRL_SYNC_EN s = true → disciplined s = true → Completes .clkSync s (fun t =>
      t.backup.count = s.mtime * 64 / (1953125 * 2 ^ 32) ∧ t.backup.trusted = (s.backup.trusted || !s.backup.osf)
      ∧ flag Fld.CLK_EVENT_SET t = true))
  ∧ (hostOk Reg.CLK_CMD .write s = true → (rd64 Reg.CLK_SET_LO s).toNat % 2 ^ 48 ≤ lastTick → Completes .clkSetTicks s (fun t =>
      t.backup.count = (rd64 Reg.CLK_SET_LO s).toNat % 2 ^ 48 ∧ t.backup.trusted = (s.backup.trusted || !s.backup.osf)
      ∧ fld Fld.CLK_RESULT_STATUS t = Code.CLK_OK.toNat))
  ∧ (hostOk Reg.CLK_CMD .write s = true → lastTick < (rd64 Reg.CLK_SET_LO s).toNat % 2 ^ 48 → Completes .clkSetTicks s (fun t =>
      t.backup = s.backup ∧ fld Fld.CLK_RESULT_STATUS t = Code.CLK_RANGE.toNat))
  ∧ (hostOk Reg.CLK_CMD .write s = true → (Cal.unpack (rd64 Reg.CLK_CAL_LO s)).valid = true → Completes .clkSetCal s (fun t =>
      t.backup.count = (Cal.unpack (rd64 Reg.CLK_CAL_LO s)).seconds * 32768))
  ∧ (hostOk Reg.CLK_CMD .write s = true → (Cal.unpack (rd64 Reg.CLK_CAL_LO s)).valid = false → Completes .clkSetCal s (fun t =>
      t.backup = s.backup ∧ flag Fld.CLK_EVENT_CAL_INVALID t = true ∧ fld Fld.CLK_RESULT_STATUS t = Code.CAL_INVALID.toNat))
  ∧ (hostOk Reg.CLK_CMD .write s = true → s.backup.count ≤ lastTick → Completes .clkReadCal s (fun t => t.backup = s.backup
      ∧ (Cal.unpack (rd64 Reg.CLK_CAL_LO t)).valid = true ∧ (Cal.unpack (rd64 Reg.CLK_CAL_LO t)).seconds = s.backup.count / 32768))
  ∧ (hostOk Reg.CLK_CMD .write s = true → Completes .clkRegsValidate s (fun t => t.backup.regsValid = true))
  ∧ (hostOk (Reg.CLK_BREG i) .write s = true → Completes (.clkBregWrite i v) s (fun t => Sparse.get (fun _ => 0) t.backup.breg i = v
      ∧ (j ≠ i → Sparse.get (fun _ => 0) t.backup.breg j = Sparse.get (fun _ => 0) s.backup.breg j)))
  ∧ (Completes (.vbakSwitch b) s (fun t => t.backup.onBackup = !b ∧ t.backup.count = s.backup.count))
  ∧ (Completes .clkRetentionLost s (fun t => t.backup.count = 0 ∧ t.backup.osf = true ∧ t.backup.trusted = false
      ∧ t.backup.regsValid = false ∧ Sparse.get (fun _ => 0) t.backup.breg i = 0))
  ∧ (alive s = true → s.backup.onBackup = false → s.backup.cellLow = false → mv < 2500 → Completes (.clkCellCheck mv) s (fun t =>
      t.backup.cellLow = true ∧ fld Fld.CLK_CELL_MV t = mv ∧ flag Fld.CLK_EVENT_CELL_LOW t = true))
  ∧ (alive s = true → s.backup.onBackup = false → s.backup.cellLow = true → 2700 ≤ mv → Completes (.clkCellCheck mv) s (fun t =>
      t.backup.cellLow = false ∧ flag Fld.CLK_EVENT_CELL_LOW t = true))

/-- COMMIT puts the staged set in force and advances the epoch, and is refused when locked, while one completes, and for a
staged set with START above END; its completion is reported; ABANDON stages the set in force again and READ the selected
entry; a written lock stays; a corrected symbol is counted; an uncorrectable one in the running image sends the Logic
region to fallback, and one in an image that does not run discards that image. A word sent from an end is the newest
towards the other end, at most eight of them, and a read takes the oldest; doorbell bits add up until end 1 takes them;
an acknowledge sets NEW until end 0 reads it; the free lock goes to the reader and only its holder, or a forced write,
frees it; bindings are written only while they are open and only between different allowed masters; an index write of
the host moves a queue's index within its fill and is otherwise an overrun; a queue with a bad configuration is not
enabled. (R616, R617, R618, R619, R620, R621, R622, R625, R627, R629, R630, R633) -/
def Obligations.ProtectionMailboxesAndQueues : Prop :=
  (∀ (s : State) (m : Fin 10) (e : Fin 32) (addr : BitVec 36),
  (hostOk Reg.MPU_CMD .write s = true → flag Fld.MPU_CTRL_LOCKED s = false → flag Fld.MPU_RESULT_BUSY s = false → stagedBad s = false →
    Completes .mpuCommit s (fun t => t.mpu.rules = s.mpu.staged ∧ t.mpu.paint = [] ∧ rd Reg.MPU_EPOCH t = rd Reg.MPU_EPOCH s + 1
      ∧ flag Fld.MPU_RESULT_BUSY t = true))
  ∧ (hostOk Reg.MPU_CMD .write s = true → flag Fld.MPU_CTRL_LOCKED s = true → Completes .mpuCommit s (fun t => t.mpu = s.mpu
      ∧ rd Reg.MPU_EPOCH t = rd Reg.MPU_EPOCH s ∧ fld Fld.MPU_RESULT_STATUS t = Code.MPU_LOCKED.toNat))
  ∧ (hostOk Reg.MPU_CMD .write s = true → flag Fld.MPU_CTRL_LOCKED s = false → flag Fld.MPU_RESULT_BUSY s = true → Completes .mpuCommit s (fun t =>
      t.mpu = s.mpu ∧ rd Reg.MPU_EPOCH t = rd Reg.MPU_EPOCH s))
  ∧ (hostOk Reg.MPU_CMD .write s = true → flag Fld.MPU_CTRL_LOCKED s = false → flag Fld.MPU_RESULT_BUSY s = false → stagedBad s = true →
    Completes .mpuCommit s (fun t => t.mpu = s.mpu ∧ rd Reg.MPU_EPOCH t = rd Reg.MPU_EPOCH s ∧ fld Fld.MPU_RESULT_STATUS t = Code.MPU_CFG_BAD.toNat))
  ∧ (alive s = true → flag Fld.MPU_RESULT_BUSY s = true → Completes .mpuCommitted s (fun t => flag Fld.MPU_RESULT_BUSY t = false
      ∧ flag Fld.MPU_EVENT_COMMITTED t = true ∧ t.mpu = s.mpu))
  ∧ (hostOk Reg.MPU_CMD .write s = true → Completes .mpuAbandon s (fun t => t.mpu.staged = s.mpu.rules ∧ t.mpu.paint = [] ∧ t.mpu.rules = s.mpu.rules))
  ∧ (hostOk Reg.MPU_CMD .write s = true → flag Fld.MPU_STG_SEL_PAINT s = false → fld Fld.MPU_STG_SEL_MASTER s = m.val → fld Fld.MPU_STG_SEL_ENTRY s = e.val →
    Completes .mpuRead s (fun t => mpuDesc t.mpu.staged m e = mpuDesc s.mpu.rules m e ∧ mpuCfg t.mpu.staged m = mpuCfg s.mpu.rules m
      ∧ t.mpu.rules = s.mpu.rules))
  ∧ (hostOk Reg.MPU_CTRL .write s = true → Completes .mpuLockWrite s (fun t => flag Fld.MPU_CTRL_LOCKED t = true ∧ t.mpu = s.mpu))
  ∧ (alive s = true → addr.toNat ≤ dramEnd → Completes (.memEccCorrected addr) s (fun t => t.exe = s.exe
      ∧ fld Fld.MEM_ECC_CORR t = min (fld Fld.MEM_ECC_CORR s + 1) (2 ^ Fld.MEM_ECC_CORR.width - 1)))
  ∧ (alive s = true → addr.toNat < 0x02000000 → addr.toNat ≤ dramEnd → (addr.toNat / 0x01000000 = if s.exe.area then 1 else 0) → s.exe.image.isSome = true →
    Completes (.memEccUncorr addr) s (fun t => inFallback 0 t = true ∧ flag Fld.MPU_EVENT_ECC_UNCORR t = true))
  ∧ (alive s = true → addr.toNat < 0x02000000 → addr.toNat ≤ dramEnd → ((addr.toNat / 0x01000000 = if s.exe.area then 0 else 1) ∨ s.exe.image = none) →
    Completes (.memEccUncorr addr) s (fun t => t.exe.inactive = none ∧ t.exe.previous = none ∧ t.exe.image = s.exe.image
      ∧ inFallback 0 t = inFallback 0 s ∧ rd Reg.MEM_ECC_ADDR_LO t = toW (addr.toNat / 16 * 16))))
  ∧ (∀ (s : State) (m : Fin 24) (i : Fin 64) (w v : Word) (code ix : BitVec 16) (q : Fin 64) (k : Fin 4),
  (hostOk (Reg.MBXm_SEND m) .write s = true → mbxEnd m 8 s = some false → (mbx m s).to1.length < 8 → Completes (.mbxSend 8 m w) s (fun t =>
      (mbx m t).to1 = (mbx m s).to1 ++ [w] ∧ (mbx m t).to0 = (mbx m s).to0 ∧ (mbx m t).last0 = Code.MBX_OK))
  ∧ (hostOk (Reg.MBXm_SEND m) .write s = true → mbxEnd m 8 s = some false → (mbx m s).to1.length = 8 → Completes (.mbxSend 8 m w) s (fun t =>
      (mbx m t).to1 = (mbx m s).to1.drop 1 ++ [w] ∧ (mbx m t).coll1 = true ∧ (mbx m t).last0 = Code.MBX_OVERWRITE))
  ∧ (hostOk (Reg.MBXm_RECV m) .read s = true → mbxEnd m 8 s = some false → (mbx m s).to0 ≠ [] → Completes (.mbxRecv 8 m) s (fun t =>
      some t.hostData = (mbx m s).to0.head? ∧ (mbx m t).to0 = (mbx m s).to0.drop 1))
  ∧ (hostOk (Reg.MBXm_DBL m) .write s = true → mbxEnd m 8 s = some false → Completes (.mbxDoorbellRing 8 m w) s (fun t =>
      (mbx m t).bell = (mbx m s).bell ||| w))
  ∧ (hostOk (Reg.MBXm_DBL m) .write s = true → mbxEnd m 8 s = some true → Completes (.mbxDoorbellTake 8 m w) s (fun t =>
      (mbx m t).bell = (mbx m s).bell &&& ~~~ w))
  ∧ (hostOk (Reg.MBXm_ACK m) .write s = true → mbxEnd m 8 s = some true → Completes (.mbxAckWrite 8 m code) s (fun t =>
      (mbx m t).code = code ∧ (mbx m t).new = true ∧ (mbx m t).overrun = ((mbx m s).overrun || (mbx m s).new)))
  ∧ (hostOk (Reg.MBXm_ACK m) .read s = true → mbxEnd m 8 s = some false → Completes (.mbxAckRead 8 m) s (fun t => (mbx m t).new = false
      ∧ (mbx m t).overrun = false ∧ (t.hostData.setWidth 16 : BitVec 16) = (mbx m s).code ∧ t.hostData.getLsbD 31 = (mbx m s).new))
  ∧ (hostOk (Reg.MBXm_BIND m) .write s = true → bindOpen s = true → v.getLsbD 31 = false ∨ bindOk (v &&& 0x80FFFFFF) = true →
    Completes (.mbxBindWrite m v) s (fun t => rd (Reg.MBXm_BIND m) t = v &&& 0x80FFFFFF))
  ∧ (hostOk (Reg.MBXm_BIND m) .write s = true → bindOpen s = false → Completes (.mbxBindWrite m v) s (fun t =>
      rd (Reg.MBXm_BIND m) t = rd (Reg.MBXm_BIND m) s))
  ∧ (hostOk Reg.MBX_CTRL .write s = true → Completes .mbxBindLock s (fun t => bindOpen t = false))
  ∧ (hostOk (Reg.MBX_LOCK i) .read s = true → lockHolder i s = none → Completes (.mbxLockRead 8 i) s (fun t =>
      lockHolder i t = some ⟨8, 0⟩ ∧ t.hostData = 0x801))
  ∧ (hostOk (Reg.MBX_LOCK i) .write s = true → (lockHolder i s).any (fun h => h.master == 8) = true → Completes (.mbxLockWrite 8 i 1) s (fun t =>
      lockHolder i t = none))
  ∧ (hostOk (Reg.MBX_LOCK i) .write s = true → (lockHolder i s).any (fun h => h.master == 8) = false → Completes (.mbxLockWrite 8 i 1) s (fun t =>
      t.locks = s.locks))
  ∧ (hostOk Reg.MBX_LOCK_FORCE_LO .write s = true → i.val < 32 → w.getLsbD i = true → Completes (.mbxLockForce false w) s (fun t =>
      lockHolder i t = none))
  ∧ (hostOk Reg.QUE_EN_LO .write s = true → q.val < 32 → v.getLsbD q = true → queEnabled q s = false → Completes (.queEnable false v) s (fun t =>
      queEnabled q t = queCfgOk q s))
  ∧ (hostOk (Reg.QUEq_HEAD q) .write s = true → queHostProduced q = true → queEnabled q s = true → ix.toNat < queEntries q s →
    (ix.toNat + queEntries q s - queHead q s) % queEntries q s ≤ queEntries q s - 1 - queFill q s → Completes (.queHeadWrite q ix) s (fun t =>
      queHead q t = ix.toNat ∧ queTail q t = queTail q s))
  ∧ (hostOk (Reg.QUEq_TAIL q) .write s = true → queHostConsumed q = true → queEnabled q s = true → queEntries q s ≤ ix.toNat →
    Completes (.queTailWrite q ix) s (fun t => queTail q t = queTail q s ∧ queHead q t = queHead q s))
  ∧ (hostOk (Reg.QUEq_TAIL q) .write s = true → queHostConsumed q = true → queEnabled q s = true → ix.toNat < queEntries q s →
    (ix.toNat + queEntries q s - queTail q s) % queEntries q s ≤ queFill q s → Completes (.queTailWrite q ix) s (fun t =>
      queTail q t = ix.toNat ∧ queHead q t = queHead q s))
  ∧ (alive s = true → queHas (36 + k) s = true → Completes (.unusedBulkQueueItem k) s (fun t =>
      queTail (36 + k) t = (queTail (36 + k) s + 1) % queEntries (36 + k) s ∧ queHead (36 + k) t = queHead (36 + k) s)))

/-- A listed transition whose confirmation and precondition hold starts and is otherwise refused with nothing changed; when
its fuse group reads blown the state is the target, with a session closed, and RETURN and RETIRED erase keys, stores,
DRAM and backup registers and reset the module; keys are installed into empty slots and revoked beside a live one;
authorisations and tokens are judged; a session opens by a matching value and closes on command, by its window or by the
fuse; the debugger's locked parts read zero and drop writes, the others act; the scan port takes an instruction that is
open and else BYPASS. (R638, R639, R640, R641, R642, R643, R647, R648, R649, R651, R652) -/
def Obligations.LifecycleKeysAndDebug : Prop := ∀ (s : State) (g : Fin 6) (b : Byte) (k : Fin 2) (u n : DWord) (k0 k1 : Option (BitVec 384)) (v : Word)
    (inst : ScanInst) (addr : BitVec 36) (d : List Byte) (tie good : Bool),
  (hostOk Reg.LCY_CMD .write s = true → flag Fld.LCY_RESULT_BUSY s = false → lcyListed s.lcy.st g.val = true → (g.val = 1 → s.lcy.key0.isSome = true) →
    (g.val = 3 → flag Fld.EXE_CFG_CHANGE_MODE s = storedMode s) → (g.val = 4 → s.lcy.auth = some (rd64 Reg.LCY_NONCE_LO s)) →
    (4 ≤ g.val → power s = 1) → Completes (.lcyTransition (BitVec.ofNat 8 g.val) (~~~(BitVec.ofNat 8 g.val))) s (fun t =>
      t.lcy.transition = some g ∧ t.lcy.st = s.lcy.st ∧ flag Fld.LCY_RESULT_BUSY t = true ∧ t.lcy.marker = if 4 ≤ g.val then some g else s.lcy.marker))
  ∧ (hostOk Reg.LCY_CMD .write s = true → flag Fld.LCY_RESULT_BUSY s = false →
    (b ≠ ~~~(BitVec.ofNat 8 g.val) ∨ lcyListed s.lcy.st g.val = false) → Completes (.lcyTransition (BitVec.ofNat 8 g.val) b) s (fun t =>
      t.lcy = s.lcy ∧ fld Fld.LCY_RESULT_STATUS t = Code.LCY_CMD_REFUSED.toNat ∧ flag Fld.LCY_EVENT_REFUSED t = true))
  ∧ (hostOk Reg.LCY_CMD .write s = true → flag Fld.LCY_RESULT_BUSY s = false → lcyListed s.lcy.st 4 = true →
    s.lcy.auth ≠ some (rd64 Reg.LCY_NONCE_LO s) → Completes (.lcyTransition 4 0xFB) s (fun t =>
      t.lcy = s.lcy ∧ fld Fld.LCY_RESULT_STATUS t = Code.LCY_AUTH_BAD.toNat))
  ∧ (hostOk Reg.LCY_CMD .write s = true → flag Fld.LCY_RESULT_BUSY s = false → lcyListed s.lcy.st 5 = true → power s ≠ 1 →
    Completes (.lcyTransition 5 0xFA) s (fun t => t.lcy = s.lcy ∧ fld Fld.LCY_RESULT_STATUS t = Code.LCY_NOT_QUIET.toNat))
  ∧ (alive s = true → (s.lcy.transition).any (fun x => decide (x.val < 4)) = true → Completes .lcyStateChanged s (fun t =>
      some t.lcy.st = s.lcy.transition ∧ t.lcy.transition = none ∧ flag Fld.LCY_DBG_STATUS_OPEN t = false ∧ flag Fld.LCY_RESULT_BUSY t = false
      ∧ t.lcy.key0 = s.lcy.key0 ∧ t.lcy.key1 = s.lcy.key1 ∧ t.mem = s.mem))
  ∧ (alive s = true → (s.lcy.transition).any (fun x => decide (4 ≤ x.val)) = true → addr.toNat < 0x200000000 → Completes .lcyStateChanged s (fun t =>
      some t.lcy.st = s.lcy.transition ∧ t.lcy.transition = none ∧ t.lcy.key0 = none ∧ t.lcy.key1 = none ∧ t.fwu.cur = none ∧ t.fwu.prev = none
      ∧ t.fwu.prog = [] ∧ t.backup.breg = [] ∧ mget addr.toNat t = 0 ∧ t.sup.inReset = true ∧ t.sup.cause.val = 4))
  ∧ (hostOk Reg.LCY_CMD .write s = true → flag Fld.LCY_RESULT_BUSY s = false → (keyOf (1 - k.val) s).isSome = true →
    s.lcy.revoked.getLsbD (1 - k.val) = false → Completes (.lcyRevokeKey k) s (fun t => t.lcy.revoked = s.lcy.revoked ||| BitVec.ofNat 2 (2 ^ k.val)
      ∧ t.lcy.key0 = s.lcy.key0 ∧ t.lcy.key1 = s.lcy.key1 ∧ t.lcy.st = s.lcy.st ∧ fld Fld.LCY_RESULT_STATUS t = Code.LCY_OK.toNat))
  ∧ (hostOk Reg.LCY_CMD .write s = true → flag Fld.LCY_RESULT_BUSY s = false →
    ((keyOf (1 - k.val) s).isNone = true ∨ s.lcy.revoked.getLsbD (1 - k.val) = true) → Completes (.lcyRevokeKey k) s (fun t =>
      t.lcy = s.lcy ∧ fld Fld.LCY_RESULT_STATUS t = Code.LCY_CMD_REFUSED.toNat))
  ∧ (hostOk Reg.LCY_CMD .write s = true → flag Fld.LCY_RESULT_BUSY s = false → Completes .lcyNewNonce s (fun t => t.lcy = s.lcy
      ∧ rd64 Reg.LCY_NONCE_LO t = Config.freeValue s.freeCtr ∧ t.freeCtr = s.freeCtr + 1))
  ∧ (alive s = true → itemReady 35 s = true → s.lcy.st.val ≤ 1 →
    (k0.isSome = true → s.lcy.key0 = none) → (k1.isSome = true → s.lcy.key1 = none) → Completes (.keyPackage uid true k0 k1) s (fun t =>
      t.lcy = { s.lcy with key0 := k0.or s.lcy.key0, key1 := k1.or s.lcy.key1 } ∧ queTail 35 t = (queTail 35 s + 1) % queEntries 35 s))
  ∧ (alive s = true → queHas 35 s = true → (good && decide (u = uid) && decide (s.lcy.st.val ≤ 1) && !(k0.isSome && s.lcy.key0.isSome)
    && !(k1.isSome && s.lcy.key1.isSome)) = false → Completes (.keyPackage u good k0 k1) s (fun t =>
      t.lcy = s.lcy ∧ queTail 35 t = (queTail 35 s + 1) % queEntries 35 s))
  ∧ (alive s = true → itemReady 35 s = true →
    Completes (.returnAuthorisation uid (rd64 Reg.LCY_NONCE_LO s) true) s (fun t => t.lcy = { s.lcy with auth := some (rd64 Reg.LCY_NONCE_LO s) }))
  ∧ (alive s = true → queHas 35 s = true → (good = false ∨ u ≠ uid ∨ n ≠ rd64 Reg.LCY_NONCE_LO s) → Completes (.returnAuthorisation u n good) s (fun t => t.lcy = s.lcy))
  ∧ (hostOk Reg.LCY_DBG_TOKEN .write s = true → v ≠ 0 → Completes (.lcyDbgTokenWrite v) s (fun t =>
      t.lcy = { s.lcy with token := some (v, flag Fld.LCY_DBG_CFG_SCAN_EN s) } ∧ fld Fld.LCY_DBG_STATUS_FAILS t = 0))
  ∧ (hostOk Reg.LCY_DBG_TOKEN .write s = true → Completes (.lcyDbgTokenWrite 0) s (fun t => t.lcy = { s.lcy with token := none }))
  ∧ (alive s = true → s.lcy.st.val = 2 → s.lcy.ir = .dbgAuth → s.lcy.token.isSome = true → Completes (.dbgAuth ((s.lcy.token.map (·.1)).getD 0) tie) s (fun t =>
      flag Fld.LCY_DBG_STATUS_OPEN t = true ∧ some (flag Fld.LCY_DBG_STATUS_SCAN_OPEN t) = s.lcy.token.map (·.2)
      ∧ t.lcy.sessionEnd = nowNs s + 1000000000 * fld Fld.LCY_DBG_CFG_WINDOW s ∧ t.lcy.st = s.lcy.st))
  ∧ (alive s = true → s.lcy.st.val = 2 → s.lcy.ir = .dbgAuth → (s.lcy.token.map (·.1)).any (fun x => x != v) = true →
    Completes (.dbgAuth v false) s (fun t => flag Fld.LCY_DBG_STATUS_OPEN t = flag Fld.LCY_DBG_STATUS_OPEN s
      ∧ fld Fld.LCY_DBG_STATUS_FAILS t = min (fld Fld.LCY_DBG_STATUS_FAILS s + 1) 3
      ∧ t.lcy.token = if fld Fld.LCY_DBG_STATUS_FAILS s < 2 then s.lcy.token else none))
  ∧ (alive s = true → Completes .dbgTokenExpiry s (fun t => t.lcy = { s.lcy with token := none } ∧ flag Fld.LCY_DBG_STATUS_OPEN t = flag Fld.LCY_DBG_STATUS_OPEN s))
  ∧ (alive s = true → Completes .dbgSessionExpiry s (fun t => t.lcy = s.lcy ∧ flag Fld.LCY_DBG_STATUS_OPEN t = false))
  ∧ (hostOk Reg.LCY_CMD .write s = true → flag Fld.LCY_RESULT_BUSY s = false → Completes .lcyDbgClose s (fun t => t.lcy = s.lcy
      ∧ flag Fld.LCY_DBG_STATUS_OPEN t = false ∧ fld Fld.LCY_RESULT_STATUS t = Code.LCY_OK.toNat))
  ∧ (alive s = true → flag Fld.MOD_STATUS_START_DONE s = true → debugLocked addr.toNat .read s = true → Completes (.debugAccess false addr 1 d) s (fun t =>
      t.dbgData = [0] ∧ rd64 Reg.LCY_DBG_DENY_LO t = toD addr.toNat ∧ flag Fld.LCY_DBG_STATUS_DBG_DENY t = true ∧ flag Fld.LCY_DBG_STATUS_CAUSE t = false))
  ∧ (alive s = true → flag Fld.MOD_STATUS_START_DONE s = true → debugLocked addr.toNat .write s = true → Completes (.debugAccess true addr 1 d) s (fun t =>
      t.mem = s.mem ∧ t.exe = s.exe ∧ rd64 Reg.LCY_DBG_DENY_LO t = toD addr.toNat ∧ flag Fld.LCY_DBG_STATUS_DBG_DENY t = true))
  ∧ (alive s = true → flag Fld.MOD_STATUS_START_DONE s = true → 0x20000000 ≤ addr.toNat → addr.toNat < 0x100000000 →
    debugLocked addr.toNat .read s = false → partCause 9 addr.toNat .read s = none → Completes (.debugAccess false addr 1 d) s (fun t =>
      t.dbgData = [mget addr.toNat s] ∧ t.mem = s.mem ∧ t.regs = s.regs))
  ∧ (alive s = true → flag Fld.MOD_STATUS_START_DONE s = true → 0x20000000 ≤ addr.toNat → addr.toNat < 0x100000000 →
    debugLocked addr.toNat .write s = false → partCause 9 addr.toNat .write s = none → Completes (.debugAccess true addr 1 d) s (fun t =>
      mget addr.toNat t = d.headD 0 ∧ t.regs = s.regs ∧ ∀ a, a ≠ addr.toNat → mget a t = mget a s))
  ∧ (alive s = true → scanOpen inst s = true → (scanDrives inst = true → s.sup.authDriven = false ∧ (power s = 1 ∨ power s = 2)) →
    Completes (.scanInstruction inst) s (fun t => t = { s with lcy := { s.lcy with ir := inst } }))
  ∧ (alive s = true → (scanOpen inst s = false ∨ (scanDrives inst = true ∧ (s.sup.authDriven = true ∨ 3 ≤ power s))) →
    Completes (.scanInstruction inst) s (fun t => t.lcy = { s.lcy with ir := .bypass } ∧ flag Fld.LCY_EVENT_SCAN_REFUSED t = true))

/-- PROGRAM invalidates and erases the other slot, items fill it, VERIFY validates it or is refused with nothing changed;
ACTIVATE waits for slack with an equal SAFE_CRC, resets with FULL or on a standby side, asks an active side with a
capable partner to hand over, and is otherwise refused; the pause starts the other slot on trial and releases what it
held; HEALTH_OK keeps the slot, and expiry and REJECT reset into the previous slot and store; an accepted item of the
stores replaces their content and others do not. (R653, R654, R655, R656, R657, R658, R659, R660, R661, R646, R641,
R502) -/
def Obligations.FirmwareUpdate : Prop := ∀ (s : State) (good full tie : Bool) (n : Fin 24) (c : CfgCopy) (m : Image) (g : Signed) (a : BitVec 36),
  (hostOk Reg.FWU_CMD .write s = true → flag Fld.FWU_RESULT_BUSY s = false → s.fwu.trial = false → s.lcy.st.val ≠ 5 → Completes .fwuProgram s (fun t =>
      slotValid (otherSlot s) t = false ∧ slotValid s.fwu.runB t = slotValid s.fwu.runB s ∧ t.fwu.runB = s.fwu.runB ∧ t.fwu.programming = true
      ∧ t.fwu.complete = false ∧ mget a.toNat t = if slotBase (otherSlot s) ≤ a.toNat ∧ a.toNat < slotBase (otherSlot s) + 0x10000000 then 0 else mget a.toNat s))
  ∧ (hostOk Reg.FWU_CMD .write s = true → flag Fld.FWU_RESULT_BUSY s = false → s.fwu.trial = true → Completes .fwuProgram s (fun t =>
      t.fwu = s.fwu ∧ t.mem = s.mem ∧ fld Fld.FWU_RESULT_STATUS t = Code.FWU_TRIAL_BUSY.toNat))
  ∧ (hostOk Reg.FWU_CMD .write s = true → flag Fld.FWU_RESULT_BUSY s = false → Completes .fwuAbort s (fun t =>
      t.fwu = { s.fwu with programming := false, complete := false } ∧ t.mem = s.mem))
  ∧ (alive s = true → itemReady 32 s = true → queEnabled 40 s = false → s.fwu.programming = true → s.lcy.st.val ≠ 5 →
    itemOffset 32 s + (itemData 32 s).length ≤ 0x10000000 → Completes .firmwareItem s (fun t => mget a.toNat t =
        if slotBase (otherSlot s) + itemOffset 32 s ≤ a.toNat ∧ a.toNat < slotBase (otherSlot s) + itemOffset 32 s + (itemData 32 s).length
        then (itemData 32 s).getD (a.toNat - slotBase (otherSlot s) - itemOffset 32 s) 0 else mget a.toNat s))
  ∧ (alive s = true → itemReady 32 s = true → s.fwu.programming = true → s.lcy.st.val ≠ 5 →
    itemOffset 32 s + (itemData 32 s).length ≤ 0x10000000 → Completes .firmwareItem s (fun t =>
      t.fwu = { s.fwu with programming := s.fwu.programming && !itemLast 32 s, complete := s.fwu.complete || itemLast 32 s }))
  ∧ (alive s = true → itemReady 32 s = true → queEnabled 40 s = false →
    (s.fwu.programming = false ∨ 0x10000000 < itemOffset 32 s + (itemData 32 s).length) → Completes .firmwareItem s (fun t =>
      t.fwu = s.fwu ∧ t.mem = s.mem ∧ flag Fld.FWU_EVENT_REFUSED t = true))
  ∧ (hostOk Reg.FWU_CMD .write s = true → flag Fld.FWU_RESULT_BUSY s = false → s.fwu.complete = true → s.lcy.st.val ≠ 5 → fwIncompatible s = false →
    Completes (.fwuVerify true) s (fun t => slotValid (otherSlot s) t = true ∧ slotValid s.fwu.runB t = slotValid s.fwu.runB s
      ∧ t.fwu.complete = false ∧ t.fwu.runB = s.fwu.runB ∧ fld Fld.FWU_RESULT_STATUS t = Code.FWU_OK.toNat))
  ∧ (hostOk Reg.FWU_CMD .write s = true → flag Fld.FWU_RESULT_BUSY s = false → s.fwu.complete = true → s.lcy.st.val ≠ 5 →
    (good = false ∨ fwIncompatible s = true) → Completes (.fwuVerify good) s (fun t => t.fwu = s.fwu
      ∧ fld Fld.FWU_RESULT_STATUS t = (if good then Code.FWU_INCOMPATIBLE else Code.FWU_IMAGE_BAD).toNat))
  ∧ (hostOk Reg.FWU_CMD .write s = true → flag Fld.FWU_RESULT_BUSY s = false → (slotValid (otherSlot s) s = false ∨ s.fwu.trial = true ∨ s.lcy.st.val = 5
    ∨ s.exe.phase = .verified ∨ s.exe.phase = .armed) → Completes (.fwuActivate full) s (fun t => t.fwu = s.fwu ∧ t.fwWait = s.fwWait
      ∧ fld Fld.FWU_RESULT_STATUS t = Code.FWU_CMD_INVALID.toNat))
  ∧ (hostOk Reg.FWU_CMD .write s = true → flag Fld.FWU_RESULT_BUSY s = false → slotValid (otherSlot s) s = true → s.fwu.trial = false → s.lcy.st.val ≠ 5 →
    s.exe.phase ≠ .verified → s.exe.phase ≠ .armed → s.fwu.noFw = false → onStandby s = false → pairState s ≠ 1 →
    hdrSafeCrc (otherSlot s) s = hdrSafeCrc s.fwu.runB s → Completes (.fwuActivate full) s (fun t => t.fwWait = true ∧ t.fwu.runB = s.fwu.runB
      ∧ t.fwu.trial = false ∧ flag Fld.FWU_RESULT_BUSY t = true ∧ t.fwu.trialWin = fld Fld.FWU_CFG_TRIAL_WIN s))
  ∧ (hostOk Reg.FWU_CMD .write s = true → flag Fld.FWU_RESULT_BUSY s = false → slotValid (otherSlot s) s = true → s.fwu.trial = false → s.lcy.st.val ≠ 5 →
    s.exe.phase ≠ .verified → s.exe.phase ≠ .armed → s.fwu.noFw = false → onStandby s = false → pairState s ≠ 1 →
    hdrSafeCrc (otherSlot s) s ≠ hdrSafeCrc s.fwu.runB s → Completes (.fwuActivate full) s (fun t =>
      if full then t.fwu.runB = otherSlot s ∧ t.fwu.trial = true ∧ t.sup.inReset = true ∧ t.sup.cause.val = 4
      else t.fwu.runB = s.fwu.runB ∧ t.fwu.trial = false ∧ t.fwWait = s.fwWait ∧ t.sup.inReset = s.sup.inReset
        ∧ fld Fld.FWU_RESULT_STATUS t = Code.FWU_SAFE_RESET_NEEDED.toNat))
  ∧ (hostOk Reg.FWU_CMD .write s = true → flag Fld.FWU_RESULT_BUSY s = false → slotValid (otherSlot s) s = true → s.fwu.trial = false → s.lcy.st.val ≠ 5 →
    s.exe.phase ≠ .verified → s.exe.phase ≠ .armed → onStandby s = true → Completes (.fwuActivate full) s (fun t =>
      t.fwu.runB = otherSlot s ∧ t.fwu.trial = true ∧ t.sup.inReset = true ∧ t.sup.cause.val = 4))
  ∧ (hostOk Reg.FWU_CMD .write s = true → flag Fld.FWU_RESULT_BUSY s = false → slotValid (otherSlot s) s = true → s.fwu.trial = false → s.lcy.st.val ≠ 5 →
    s.exe.phase ≠ .verified → s.exe.phase ≠ .armed → pairState s = 1 → peerInStep s = true → s.pair.switch = .none → Completes (.fwuActivate full) s (fun t =>
      t.pair.switch = .waiting .firmware ∧ t.fwu.viaSwitch = true ∧ t.fwu.runB = s.fwu.runB ∧ t.sup.inReset = s.sup.inReset))
  ∧ (alive s = true → s.fwWait = true → s.fwu.viaSwitch = false → allIdle s = true → slackBusy s = false → Completes .fwuPauseStart s (fun t =>
      t.fwPause = true ∧ t.fwWait = false ∧ t.fwu.runB = otherSlot s ∧ t.fwu.trial = true ∧ t.fwu.trialEnd = nowNs s + 1000000000 * s.fwu.trialWin
      ∧ t.exe = s.exe ∧ t.mem = s.mem ∧ t.regs = s.regs))
  ∧ (alive s = true → s.fwPause = true → Completes .fwuActivated s (fun t => t.fwPause = false ∧ flag Fld.FWU_RESULT_BUSY t = false
      ∧ fld Fld.FWU_RESULT_STATUS t = Code.FWU_OK.toNat ∧ flag Fld.FWU_EVENT_ACTIVATED t = true ∧ t.fwu = s.fwu
      ∧ fld Fld.FWU_PAUSE_SKIPPED t = min s.fwu.skipped 0xFFFF))
  ∧ (alive s = true → s.fwPause = true → (taskDef n.val s).isSome = true → (match (task n.val s).held with | .slack _ => true | _ => false) = true →
    Completes .fwuActivated s (fun t => (task n.val t).phase = .latch ∧ (task n.val t).held = .no ∧ (task n.val t).lastRelease = nowNs s))
  ∧ (s.fwu.trial = true → healthy s = true → Completes .fwuHealthOk s (fun t =>
      t.fwu = { s.fwu with trial := false, healthOk := true, prev := none } ∧ flag Fld.FWU_EVENT_HEALTH_OK t = true))
  ∧ (alive s = true → s.fwu.trial = true → (tie && healthy s) = false → Completes (.fwuTrialExpiry tie) s (fun t => t.fwu.runB = otherSlot s
      ∧ slotValid s.fwu.runB t = false ∧ slotValid (otherSlot s) t = slotValid (otherSlot s) s ∧ t.fwu.trial = false ∧ t.fwu.fallbackDue = true
      ∧ t.fwu.cur = s.fwu.prev.or s.fwu.cur ∧ t.sup.inReset = true ∧ t.sup.cause.val = 4))
  ∧ (s.fwu.trial = true → healthy s = true → Completes (.fwuTrialExpiry true) s (fun t => t.fwu.runB = s.fwu.runB ∧ t.fwu.trial = false
      ∧ t.fwu.healthOk = true ∧ t.sup = s.sup
      ∧ fld Fld.FWU_CLOSE_CALL_COUNT t = min (fld Fld.FWU_CLOSE_CALL_COUNT s + 1) (2 ^ Fld.FWU_CLOSE_CALL_COUNT.width - 1)))
  ∧ (hostOk Reg.FWU_CMD .write s = true → flag Fld.FWU_RESULT_BUSY s = false → s.fwu.trial = true → Completes .fwuReject s (fun t =>
      t.fwu.runB = otherSlot s ∧ slotValid s.fwu.runB t = false ∧ t.fwu.trial = false ∧ t.fwu.cur = s.fwu.prev.or s.fwu.cur
      ∧ t.sup.inReset = true ∧ t.sup.cause.val = 4))
  ∧ (hostOk Reg.FWU_CMD .write s = true → flag Fld.FWU_RESULT_BUSY s = false → s.fwu.trial = false → Completes .fwuReject s (fun t =>
      t.fwu = s.fwu ∧ fld Fld.FWU_RESULT_STATUS t = Code.FWU_CMD_INVALID.toNat))
  ∧ (alive s = true → itemReady 33 s = true → itemLast 33 s = true → s.lcy.st.val ≠ 3 → s.lcy.st.val ≠ 5 → s.fwu.trial = false → accepts c.signed s = true →
    Completes (.configStoreWrite c) s (fun t => t.fwu = { s.fwu with cur := some c }))
  ∧ (alive s = true → itemReady 33 s = true → (s.lcy.st.val = 5 ∨ s.fwu.trial = true ∨ itemLast 33 s = false ∨ accepts c.signed s = false) →
    Completes (.configStoreWrite c) s (fun t => t.fwu = s.fwu ∧ queTail 33 t = (queTail 33 s + 1) % queEntries 33 s))
  ∧ (alive s = true → itemReady 33 s = true → s.lcy.st.val = 3 → (cfgUsed s).any (fun u => u.split != c.split) = true →
    Completes (.configStoreWrite c) s (fun t => t.fwu = s.fwu))
  ∧ (alive s = true → itemReady 34 s = true → itemLast 34 s = true → s.lcy.st.val ≠ 5 → itemOffset 34 s + (itemData 34 s).length ≤ 0x20000000 →
    accepts g s = true → Completes (.programStoreWrite (some m) g) s (fun t => t.fwu.progArea.val = itemOffset 34 s / 0x10000000 % 2
      ∧ Sparse.find t.fwu.prog (itemOffset 34 s / 0x10000000) = some (m, g) ∧ t.exe = s.exe))
  ∧ (alive s = true → itemReady 34 s = true → itemLast 34 s = true → s.lcy.st.val ≠ 5 → itemOffset 34 s + (itemData 34 s).length ≤ 0x20000000 →
    accepts g s = false → Completes (.programStoreWrite (some m) g) s (fun t => Sparse.find t.fwu.prog (itemOffset 34 s / 0x10000000) = none
      ∧ t.fwu.progArea = s.fwu.progArea ∧ flag Fld.FWU_EVENT_REFUSED t = true))

/-- Each command moves the module step by step to its target: to OFF with volatile memory lost, to QUIET, to READY by a
restart of the regions, to RUN and HOLD and back; a step whose condition fails is refused and the state stays; a command
while BUSY changes nothing unless it is QUIET, and without firmware every command is refused; leaving RUN hands over to
a capable partner first and otherwise releases AUTH; at the end of the restart the regions are in their reset state and
DRAM is kept. (R667, R668, R670, R671, R672, R673, R674, R676, R682, R684, R708) -/
def Obligations.PowerStates : Prop := ∀ (s : State) (bist : TriadBist) (prog : Bool) (c : Fin 5) (a : BitVec 36),
  (hostOk Reg.SUP_PWR_CMD .write s = true → s.fwu.noFw = true → Completes (powerCommand c) s (fun t => power t = power s
      ∧ fld Fld.SUP_PWR_STATE_TARGET t = fld Fld.SUP_PWR_STATE_TARGET s ∧ t.sup = s.sup ∧ flag Fld.SUP_EVENT_REFUSED t = true))
  ∧ (hostOk Reg.SUP_PWR_CMD .write s = true → s.fwu.noFw = false → flag Fld.SUP_PWR_STATE_BUSY s = true → c.val ≠ 1 → Completes (powerCommand c) s (fun t => t = s))
  ∧ (hostOk Reg.SUP_PWR_CMD .write s = true → s.fwu.noFw = false → power s = c.val → (flag Fld.SUP_PWR_STATE_BUSY s = false ∨ c.val = 1) →
    Completes (powerCommand c) s (fun t => power t = c.val ∧ fld Fld.SUP_PWR_STATE_TARGET t = c.val ∧ flag Fld.SUP_PWR_STATE_BUSY t = false ∧ t.sup.stepTo = none))
  ∧ (hostOk Reg.SUP_PWR_CMD .write s = true → s.fwu.noFw = false → flag Fld.SUP_PWR_STATE_BUSY s = false → power s = 1 ∨ power s = 2 →
    Completes .powerCmdOff s (fun t => power t = 0 ∧ mget a.toNat t = (if a.toNat < 0x300000000 then 0 else mget a.toNat s) ∧ t.backup = s.backup))
  ∧ (hostOk Reg.SUP_PWR_CMD .write s = true → s.fwu.noFw = false → power s = 2 →
    Completes .powerCmdQuiet s (fun t => power t = 1 ∧ fld Fld.SUP_PWR_STATE_LAST t = Code.SUP_STATE_CHANGED.toNat
      ∧ flag Fld.SUP_EVENT_STATE t = true ∧ t.tides = [] ∧ t.exe.image = none ∧ t.mem = s.mem))
  ∧ (hostOk Reg.SUP_PWR_CMD .write s = true → s.fwu.noFw = false → flag Fld.SUP_PWR_STATE_BUSY s = false → power s = 1 →
    (flag Fld.MOD_STATUS_START_DONE s && flag Fld.MOD_STATUS_CFG_OK s && s.lcy.st.val != 5) = true →
    Completes .powerCmdReady s (fun t => power t = 1 ∧ t.sup.stepTo = some 2 ∧ flag Fld.SUP_PWR_STATE_BUSY t = true ∧ fld Fld.SUP_PWR_STATE_TARGET t = 2))
  ∧ (hostOk Reg.SUP_PWR_CMD .write s = true → s.fwu.noFw = false → flag Fld.SUP_PWR_STATE_BUSY s = false → power s = 1 →
    (flag Fld.MOD_STATUS_START_DONE s && flag Fld.MOD_STATUS_CFG_OK s && s.lcy.st.val != 5) = false →
    Completes .powerCmdReady s (fun t => power t = 1 ∧ flag Fld.SUP_PWR_STATE_BUSY t = false ∧ fld Fld.SUP_PWR_STATE_LAST t = Code.SUP_STEP_REFUSED.toNat
      ∧ flag Fld.SUP_EVENT_REFUSED t = true))
  ∧ (hostOk Reg.SUP_PWR_CMD .write s = true → s.fwu.noFw = false → flag Fld.SUP_PWR_STATE_BUSY s = false → power s = 2 → s.sup.sid ≠ 3 →
    ([1, 2, 4].contains (fld Fld.TRIAD_STATE_MODE s) && fld Fld.SUP_REGIONS_FALLBACK s % 16 == 0 && s.lcy.st.val != 5) = true →
    Completes .powerCmdRun s (fun t => power t = 3 ∧ flag Fld.SUP_PWR_STATE_EBB t = false ∧ flag Fld.SUP_PWR_STATE_MODULE_FAULT t = false
      ∧ t.saf.ebb = false ∧ fld Fld.SUP_PWR_STATE_LAST t = Code.SUP_STATE_CHANGED.toNat ∧ flag Fld.SUP_PWR_STATE_BUSY t = false))
  ∧ (hostOk Reg.SUP_PWR_CMD .write s = true → s.fwu.noFw = false → flag Fld.SUP_PWR_STATE_BUSY s = false → power s = 2 →
    (s.sup.sid = 3 ∨ ([1, 2, 4].contains (fld Fld.TRIAD_STATE_MODE s) && fld Fld.SUP_REGIONS_FALLBACK s % 16 == 0 && s.lcy.st.val != 5) = false) →
    Completes .powerCmdRun s (fun t => power t = 2 ∧ fld Fld.SUP_PWR_STATE_LAST t = Code.SUP_STEP_REFUSED.toNat ∧ flag Fld.SUP_PWR_STATE_BUSY t = false))
  ∧ (hostOk Reg.SUP_PWR_CMD .write s = true → s.fwu.noFw = false → flag Fld.SUP_PWR_STATE_BUSY s = false → power s = 3 →
    Completes .powerCmdHold s (fun t => power t = 4 ∧ t.sup.heldProg = s.exe.committed ∧ t.sup.authDriven = s.sup.authDriven ∧ t.exe = s.exe))
  ∧ (hostOk Reg.SUP_PWR_CMD .write s = true → s.fwu.noFw = false → flag Fld.SUP_PWR_STATE_BUSY s = false → power s = 4 →
    Completes .powerCmdRun s (fun t => power t = 3 ∧ t.sup.heldProg = [] ∧ t.sup.authDriven = s.sup.authDriven ∧ t.exe = s.exe))
  ∧ (hostOk Reg.SUP_PWR_CMD .write s = true → s.fwu.noFw = false → flag Fld.SUP_PWR_STATE_BUSY s = false → 3 ≤ power s → s.sup.stepTo = none →
    (flag Fld.PAIR_STATE_AUTH_HELD s = false ∨ pairState s ≠ 1 ∨ peerInStep s = false) → Completes .powerCmdReady s (fun t => power t = 2
      ∧ t.sup.authDriven = false ∧ t.sup.stepTo = none ∧ fld Fld.SUP_PWR_STATE_LAST t = Code.SUP_STATE_CHANGED.toNat))
  ∧ (hostOk Reg.SUP_PWR_CMD .write s = true → s.fwu.noFw = false → flag Fld.SUP_PWR_STATE_BUSY s = false → 3 ≤ power s → s.pair.switch = .none →
    flag Fld.PAIR_STATE_AUTH_HELD s = true → pairState s = 1 → peerInStep s = true → Completes .powerCmdReady s (fun t => power t = power s
      ∧ t.pair.switch = .waiting .power ∧ t.sup.stepTo = some 2 ∧ flag Fld.SUP_PWR_STATE_BUSY t = true ∧ t.sup.authDriven = s.sup.authDriven))
  ∧ (alive s = true → power s = 1 → s.sup.stepTo = some 2 → fld Fld.SUP_PWR_STATE_TARGET s = 2 → Completes (.readyRestartDone bist prog) s (fun t =>
      power t = 2 ∧ t.sup.stepTo = none ∧ flag Fld.SUP_PWR_STATE_BUSY t = false ∧ t.tides = [] ∧ t.mem = s.mem ∧ t.backup = s.backup ∧ t.sup.sid = s.sup.sid
      ∧ flag Fld.EXE_CTRL_RUN t = false))
  ∧ (alive s = true → power s = 1 → s.sup.stepTo = some 2 → fld Fld.SUP_PWR_STATE_TARGET s = 2 → s.triad.retired = 0 →
    Completes (.readyRestartDone ⟨true, true, 7, 0x7F⟩ prog) s (fun t => power t = 2 ∧ fld Fld.TRIAD_STATE_MODE t = 1
      ∧ pairState t = match s.sup.sid.toNat with | 3 => 6 | 2 => 5 | _ => 0))

/-- SUP_CMD RESET with its confirmation, HOST_RST_N, the supervisor watchdog and a reseated module reset the module with
their causes and keep memory and the backup domain; a recovery that its checks allow ends the fallback of its region and
is otherwise refused; the end of reset latches the slot identity and takes module time from the backup count, and
completes an interrupted erasure; the start selects a slot whose checks pass and ends with START_DONE, and without one
the module runs without firmware. (R65, R66, R67, R99, R583, R588, R644, R660, R677, R679, R680, R681) -/
def Obligations.ResetsAndStart : Prop := ∀ (s : State) (b : Byte) (r : Fin 16) (pass runOk otherOk : Bool) (l : List (Fin 64 × Word × Word × Word)),
  (hostOk Reg.SUP_CMD .write s = true → Completes (.supReset 0x5A) s (fun t => t.sup.inReset = true ∧ t.sup.cause.val = 3 ∧ t.mem = s.mem
      ∧ t.backup = s.backup ∧ t.lcy.st = s.lcy.st ∧ t.exe.image = none ∧ t.tides = [] ∧ t.pending = s.pending))
  ∧ (hostOk Reg.SUP_CMD .write s = true → b ≠ 0x5A → Completes (.supReset b) s (fun t => t.sup = s.sup ∧ t.mem = s.mem ∧ t.exe = s.exe
      ∧ fld Fld.SUP_RESULT_STATUS t = Code.SUP_CMD_REFUSED.toNat))
  ∧ (s.sup.supplyLow = false → Completes .hostRst s (fun t => t.sup.inReset = true ∧ t.sup.cause.val = 2 ∧ t.mem = s.mem ∧ t.backup = s.backup
      ∧ (s.fwu.trial = true → t.fwu.runB = otherSlot s ∧ t.fwu.fallbackDue = true)))
  ∧ (powered s = true → s.sup.inReset = false → Completes .supWatchdog s (fun t => t.sup.inReset = true ∧ t.sup.cause.val = 5 ∧ t.mem = s.mem
      ∧ t.backup = s.backup))
  ∧ (s.sup.unseated = true → powered s = true → Completes .reseated s (fun t => t.sup.inReset = true ∧ t.sup.cause.val = 6 ∧ t.sup.seated = true
      ∧ t.sup.unseated = false ∧ t.mem = s.mem))
  ∧ (hostOk Reg.SUP_CMD .write s = true → flag Fld.SUP_REGIONS_TI_BANK s = true → Completes (.supRecover 8 true) s (fun t =>
      flag Fld.SUP_REGIONS_TI_BANK t = false ∧ fld Fld.SUP_RESULT_STATUS t = Code.SUP_OK.toNat ∧ t.sup = s.sup))
  ∧ (hostOk Reg.SUP_CMD .write s = true → [1, 2, 3].contains r.val = true → inFallback r.val s = true → Completes (.supRecover r true) s (fun t =>
      inFallback r.val t = false ∧ fld Fld.SUP_RESULT_STATUS t = Code.SUP_OK.toNat))
  ∧ (hostOk Reg.SUP_CMD .write s = true → inFallback 5 s = true → s.backup.osf = false → s.backup.trusted = true → s.backup.regsValid = true →
    Completes (.supRecover 5 true) s (fun t => inFallback 5 t = false ∧ fld Fld.SUP_RESULT_STATUS t = Code.SUP_OK.toNat))
  ∧ (hostOk Reg.SUP_CMD .write s = true → (pass = false ∨ [1, 2, 3, 5, 8].contains r.val = false ∨ (r.val ≤ 5 ∧ inFallback r.val s = false)) →
    Completes (.supRecover r pass) s (fun t => rd Reg.SUP_REGIONS t = rd Reg.SUP_REGIONS s ∧ t.sup = s.sup
      ∧ fld Fld.SUP_RESULT_STATUS t = Code.SUP_RECOVER_REFUSED.toNat))
  ∧ (s.sup.inReset = true → s.sup.supplyLow = false → s.sup.converters = true → s.lcy.marker = none → Completes .resetRelease s (fun t =>
      t.sup.inReset = false ∧ t.sup.sid = sidOf s.sup.sidPins ∧ t.sup.starts = s.sup.starts + 1 ∧ t.mtime = countNs s.backup.count * 2 ^ 32
      ∧ pairState t = (match (sidOf s.sup.sidPins).toNat with | 3 => 6 | 2 => 5 | _ => 0) ∧ t.mem = s.mem ∧ t.lcy = s.lcy))
  ∧ (s.sup.inReset = true → s.sup.supplyLow = false → s.sup.converters = true → s.lcy.marker.isSome = true → Completes .resetRelease s (fun t =>
      some t.lcy.st = s.lcy.marker ∧ t.lcy.marker = none ∧ t.lcy.key0 = none ∧ t.lcy.key1 = none ∧ t.fwu.cur = none ∧ t.fwu.prog = []))
  ∧ (alive s = true → flag Fld.MOD_STATUS_START_DONE s = false → s.fwu.noFw = false → s.strand.phase ≠ .starting → slotValid s.fwu.runB s = true →
    Completes (.supStart true otherOk l) s (fun t => flag Fld.MOD_STATUS_START_DONE t = true ∧ t.fwu.runB = s.fwu.runB ∧ t.fwu.noFw = false
      ∧ t.fwu.fallbackDue = false ∧ power t = power s))
  ∧ (alive s = true → flag Fld.MOD_STATUS_START_DONE s = false → s.fwu.noFw = false → s.strand.phase ≠ .starting →
    slotValid s.fwu.runB s = true → slotValid (otherSlot s) s = true → Completes (.supStart false true l) s (fun t =>
      flag Fld.MOD_STATUS_START_DONE t = true ∧ t.fwu.runB = otherSlot s))
  ∧ (alive s = true → flag Fld.MOD_STATUS_START_DONE s = false → s.fwu.noFw = false → s.strand.phase ≠ .starting →
    ((slotValid s.fwu.runB s && runOk) || (slotValid (otherSlot s) s && otherOk)) = false → Completes (.supStart runOk otherOk l) s (fun t =>
      t.fwu.noFw = true ∧ flag Fld.MOD_STATUS_START_DONE t = false))
  ∧ (alive s = true → flag Fld.MOD_STATUS_START_DONE s = false → s.fwu.noFw = false → s.strand.phase ≠ .starting → slotValid s.fwu.runB s = true →
    (s.fwu.cur).any (fun c => accepts c.signed s && c.format.toNat == hdrCfgFormat s.fwu.runB s) = true → Completes (.supStart true otherOk l) s (fun t =>
      flag Fld.MOD_STATUS_CFG_OK t = true ∧ t.fwu.cur = s.fwu.cur))

/-- With a command at the front of its queue a step is exec of that command on the state with the rest of the queue; with an
empty queue one CD_FABRIC cycle passes, in which a module that is off or in reset only counts its backup clock; that an
empty queue is a cycle is the model's choice (log entry 1). (00_scope.md) -/
def Obligations.StepRunsTheFrontCommand : Prop := ∀ (s : State) (c : Instr) (rest : List Instr),
  step { s with pending := c :: rest } = exec c { s with pending := rest }
  ∧ step { s with pending := [] } = .next (tick { s with pending := [] })
  ∧ (s.pending = [] → alive s = false → step s = .next { s with backup := backupAdvance s.backup })

/-- After reset the registers whose tables give a value other than zero show it, an offset that no block lists shows zero,
no command waits, no region holds anything, and the module is in reset; memory lists nothing, which is the model's
choice of contents (log entry 11). (03_tide_tracking.md, 05_execution_model.md, 08_digital_field_io_and_reflex.md,
09_analog_loops_and_hart.md, 13_pair_redundancy.md, 14_network_and_time.md, 15_can_fd.md,
17_memory_protection_and_mailboxes.md, 19_power_states_and_startup.md) -/
def Obligations.ResetValues : Prop :=
  (∀ n : Fin 8, State.reset.view (Reg.TDn_CFG n) = 0x5C481000)
  ∧ (∀ n : Fin 8, State.reset.view (Reg.TDn_SCALE n) = 0xC350)
  ∧ (∀ n : Fin 8, State.reset.view (Reg.TDn_WINDOWS n) = 0x410400A)
  ∧ (∀ n : Fin 8, State.reset.view (Reg.TDn_HOLDLIM n) = 0xC8)
  ∧ State.reset.view Reg.TT_PARTITION = 0x800
  ∧ State.reset.view Reg.TT_RESULT = 0x400
  ∧ State.reset.view Reg.EXE_CFG = 0xA01
  ∧ State.reset.view Reg.EXE_CHANGE_STATUS = 0x300
  ∧ State.reset.view Reg.EXE_FORCE_RESULT = 0x300
  ∧ State.reset.view Reg.LOOP_RESULT = 0x500
  ∧ State.reset.view Reg.DIO_BANK_RESULT = 0x600
  ∧ (∀ n : Fin 4, State.reset.view (Reg.DIO_BANKk_CFG n) = 0x400A0000)
  ∧ (∀ n : Fin 32, State.reset.view (Reg.DIOn_CFG n) = 0x1000300)
  ∧ State.reset.view Reg.RFX_RESULT = 0x800
  ∧ State.reset.view Reg.ANA_BANK_RESULT = 0x700
  ∧ State.reset.view Reg.ANA_HART_RESULT = 0x700
  ∧ (∀ n : Fin 16, State.reset.view (Reg.ANn_CFG n) = 0x4040000)
  ∧ (∀ n : Fin 16, State.reset.view (Reg.ANn_RANGE_LO n) = 0x40800000)
  ∧ (∀ n : Fin 16, State.reset.view (Reg.ANn_RANGE_HI n) = 0x41A00000)
  ∧ (∀ n : Fin 16, State.reset.view (Reg.ANn_EU_HI n) = 0x42C80000)
  ∧ (∀ n : Fin 16, State.reset.view (Reg.ANn_TRIM_GAIN n) = 0x3F800000)
  ∧ (∀ n : Fin 16, State.reset.view (Reg.ANn_SQRT_CUT n) = 0x3C23D70A)
  ∧ (∀ n : Fin 16, State.reset.view (Reg.ANn_HART_CFG n) = 0xA8F00)
  ∧ (∀ n : Fin 16, State.reset.view (Reg.ANn_HART_POLL n) = 0xA)
  ∧ State.reset.view Reg.SAF_LAST_STATUS = 0x900
  ∧ State.reset.view Reg.TRIAD_RESULT = 0xB00
  ∧ State.reset.view Reg.PAIR_CTRL = 0x2
  ∧ State.reset.view Reg.PAIR_CFG = 0x800A51F4
  ∧ State.reset.view Reg.PAIR_RESULT = 0xA00
  ∧ State.reset.view Reg.PAIR_TIDE_WIN = 0x100000
  ∧ State.reset.view Reg.PAIR_LAST_CAUSE = 0xA00
  ∧ State.reset.view Reg.NET_SVC_NET = 0x80000018
  ∧ State.reset.view Reg.PTP_CFG = 0x414800
  ∧ State.reset.view Reg.PTP_JUMP = 0x2710
  ∧ State.reset.view Reg.PTP_UTC_OFFSET = 0x25
  ∧ State.reset.view Reg.GSE_RESULT = 0xC00
  ∧ State.reset.view Reg.LNCH_RESULT = 0xC00
  ∧ State.reset.view Reg.RING_CFG = 0x7801E00
  ∧ State.reset.view Reg.CAN_RESULT = 0xD00
  ∧ (∀ n : Fin 4, State.reset.view (Reg.CNc_CFG n) = 0x80000000)
  ∧ (∀ n : Fin 4, State.reset.view (Reg.CNc_NBT n) = 0x3E7E3E00)
  ∧ (∀ n : Fin 4, State.reset.view (Reg.CNc_DBT n) = 0x7F382020)
  ∧ State.reset.view Reg.STR_RESULT = 0xE00
  ∧ State.reset.view Reg.STR_FREEZE_CFG = 0xA
  ∧ State.reset.view Reg.CLK_CTRL = 0x1
  ∧ State.reset.view Reg.CLK_RESULT = 0xF00
  ∧ State.reset.view Reg.MPU_RESULT = 0x1000
  ∧ State.reset.view Reg.MPU_STG_MCFG = 0xFFFF0000
  ∧ (∀ n : Fin 8, State.reset.view (Reg.MBX_LOCK_OWNER n) = 0xFFFFFFFF)
  ∧ (∀ n : Fin 64, State.reset.view (Reg.QUEq_CFG n) = 0x80B01)
  ∧ State.reset.view Reg.LCY_RESULT = 0x1200
  ∧ State.reset.view Reg.LCY_DBG_CFG = 0x258
  ∧ State.reset.view Reg.FWU_RESULT = 0x1300
  ∧ State.reset.view Reg.FWU_CFG = 0x258
  ∧ State.reset.view Reg.SUP_PWR_STATE = 0x11000200
  ∧ State.reset.view Reg.SUP_RESULT = 0x200
  ∧ (∀ a, regRow a = none → rd a State.reset = 0)
  ∧ State.reset.pending = [] ∧ State.reset.mem = [] ∧ State.reset.out = [] ∧ State.reset.tides = [] ∧ State.reset.seqs = [] ∧ State.reset.exe.image = none
  ∧ State.reset.loop.slots = [] ∧ State.reset.dio = [] ∧ State.reset.an = [] ∧ State.reset.can = [] ∧ State.reset.mailboxes = [] ∧ State.reset.locks = []
  ∧ State.reset.sup.inReset = true ∧ power State.reset = 1 ∧ flag Fld.MOD_STATUS_START_DONE State.reset = false

/-- The register file, memory and tag memory of the state after reset are in canonical form.
(17_memory_protection_and_mailboxes.md) -/
def Obligations.ResetIsCanonical : Prop := Canonical State.reset ∧ LifecycleSound State.reset

/-- From every state in canonical form, a step that answers a next state gives one in canonical form: addresses strictly
rise, and no entry equals what an unlisted address reads as, so that equal memories are equal data.
(17_memory_protection_and_mailboxes.md, R603) -/
def Obligations.StepKeepsCanonicalForm : Prop := ∀ (s t : State), Canonical s → step s = .next t → Canonical t

/-- Every command that answers a next state leaves the queue as it was, so a step removes exactly the command that it runs.
(00_scope.md) -/
def Obligations.CommandsLeaveTheQueue : Prop := ∀ (s t : State),
  (∀ c, exec c s = .next t → t.pending = s.pending)
  ∧ (step s = .next t → t.pending = s.pending.tail)

/-- From every state whose transition under way and erase marker are transitions of Table LCY-2, a step keeps them so, and
leaves the lifecycle state as it was or moves it by a transition of that table; RETIRED is never left. (R637, R638,
R639, R643, R644) -/
def Obligations.LifecycleOrder : Prop := ∀ (s t : State), LifecycleSound s → step s = .next t →
  LifecycleSound t ∧ (t.lcy.st = s.lcy.st ∨ lcyListed s.lcy.st.val t.lcy.st.val = true) ∧ (s.lcy.st.val = 5 → t.lcy.st.val = 5)

/-- When reset is released the identity is latched from SID1 and SID0 with the meanings of Table CONN-3 (side A, side B,
lone slot, invalid), and no other command, and no tick, changes it. (R66) -/
def Obligations.SlotIdentityIsLatched : Prop := ∀ (s t : State),
  (mayStart s = true → Completes .resetRelease s (fun t => t.sup.inReset = false ∧
    (s.sup.sidPins = 2 → t.sup.sid = 0) ∧ (s.sup.sidPins = 1 → t.sup.sid = 1) ∧ (s.sup.sidPins = 3 → t.sup.sid = 2) ∧ (s.sup.sidPins = 0 → t.sup.sid = 3)))
  ∧ (∀ c, c ≠ .resetRelease → exec c s = .next t → t.sup.sid = s.sup.sid)
  ∧ (tick s).sup.sid = s.sup.sid ∧ (mayStart s = false → Completes .resetRelease s (fun t => t = s))

/-- A host write to the SAF block changes nothing, whatever its value and byte enables; a write to the unassigned range that
the protection check allows changes nothing, and the range reads as zero; each completes. (R52, R53) -/
def Obligations.WindowsWithoutHostWrites : Prop := ∀ (s : State) (a : BitVec 26) (be : BitVec 4) (v hw : Word),
  (0x080000 ≤ a.toNat → a.toNat ≤ 0x08FFFF → Completes (.registerWrite a be v hw) s (fun t => t = s))
  ∧ (0x140000 ≤ a.toNat → a.toNat ≤ 0xFFFFFF → hostCause a.toNat .write s = none → Completes (.registerWrite a be v hw) s (fun t => t = s))
  ∧ (0x140000 ≤ a.toNat → a.toNat ≤ 0xFFFFFF → s.view a.toNat = 0 ∧ Completes (.lowWordRead a) s (fun t => t = s)
      ∧ Completes (.counterRead a v) s (fun t => t = s))

/-- A host write that the protection check denies changes no register outside the protection unit and the event recorder and
nothing that the regions hold; it is counted for M8 and recorded with its address; a denied read returns zero and is
recorded the same way. (R54, R613, R600) -/
def Obligations.DeniedHostAccesses : Prop := ∀ (s : State) (a : BitVec 26) (v hw : Word),
  (s.accMaster = 8 → a.toNat % 4 = 0 → a.toNat < 0x01000000 → inRange a.toNat 0x080000 0x08FFFF = false → hostAnswers a.toNat s = true →
    (hostCause a.toNat .write s).isSome = true → Completes (.registerWrite a 0xF v hw) s (fun t =>
      Only [.block 0x0F, .strand, .free, .out] s t ∧ flag Fld.MPU_EVENT_DENIED t = true
      ∧ fld (Fld.MPU_DENY_COUNTm_COUNT 8) t = min (fld (Fld.MPU_DENY_COUNTm_COUNT 8) s + 1) (2 ^ (Fld.MPU_DENY_COUNTm_COUNT 8).width - 1)
      ∧ some (rd64 Reg.MPU_DENY_LO t) = (hostCause a.toNat .write s).map (fun c => denyDatum 8 (0x400000000 + a.toNat) .write (masterColour 8 s) c s)))
  ∧ (s.accMaster = 8 → isLow a.toNat = true → hostAnswers a.toNat s = true → (hostCause a.toNat .read s).isSome = true →
    Completes (.lowWordRead a) s (fun t => t.hostData = 0 ∧ flag Fld.MPU_EVENT_DENIED t = true ∧ t.captured = s.captured
      ∧ fld (Fld.MPU_DENY_COUNTm_COUNT 8) t = min (fld (Fld.MPU_DENY_COUNTm_COUNT 8) s + 1) (2 ^ (Fld.MPU_DENY_COUNTm_COUNT 8).width - 1)))

/-- Each of the commands of tides, the tide table, sequencers, DIO, the reflex matrix, analog channels and the loop engine,
whenever it answers a next state, leaves every part of the state but the listed ones as it was: the registers of every
other block, memory, and what each other unit holds. (03_tide_tracking.md, 04_tide_tables_and_step_tables.md,
07_loop_engine.md, 08_digital_field_io_and_reflex.md, 09_analog_loops_and_hart.md) -/
def Obligations.FieldFrames : Prop :=
  (∀ (n : Fin 8),
      Frame [.block 0x02, .block 0x0F, .free, .strand, .tides, .out] (.tideEnable n)
      ∧ Frame [.block 0x02, .block 0x0F, .free, .strand, .tides, .out] (.tideResync n))
  ∧ (∀ (n : Fin 8),
      Frame [.block 0x02, .block 0x0F, .strand, .tides, .out] (.tideDisable n))
  ∧ (∀ (mask : BitVec 8),
      Frame [.block 0x02, .block 0x0F, .strand, .out] (.tideLockOpen mask))
  ∧ (∀ (n : Fin 8) (positive : Bool) (peakMv : Nat) (ageNs : Nat) (tie : Bool),
      Frame [.block 0x02, .free, .strand, .tides, .out] (.mainsCrossing n positive peakMv ageNs tie))
  ∧ (∀ (n : Fin 8),
      Frame [.block 0x02, .free, .strand, .tides, .out] (.tideMiss n)
      ∧ Frame [.block 0x02, .free, .strand, .tides, .out] (.indexPulse n)
      ∧ Frame [.block 0x02, .free, .strand, .tides, .out] (.tideMeasurement n)
      ∧ Frame [.block 0x02, .free, .strand, .tides, .out] (.trackerUpdate n))
  ∧ (∀ (n : Fin 8) (both : Bool) (forward : Bool),
      Frame [.block 0x02, .free, .strand, .tides, .out] (.encoderEdge n both forward))
  ∧ (∀ (n : Fin 8) (forward : Bool),
      Frame [.tides] (.stepEdge n forward))
  ∧ (∀ (input : Fin 4) (z : Bool) (present : Bool),
      Frame [.block 0x02, .free, .strand, .tides, .out] (.tideLineFault input z present))
  ∧ (∀ (n : Fin 8) (tie : Bool),
      Frame [.block 0x02, .free, .strand, .tides, .out] (.tideLost n tie))
  ∧ Frame [.block 0x01, .block 0x02, .free, .strand, .tides, .out] .tideBankFault
  ∧ Frame [.block 0x02, .block 0x0F, .free, .strand, .tideTable, .net, .out] .ttWrite
  ∧ Frame [.block 0x02, .block 0x0F, .free, .strand, .out] .ttRead
  ∧ Frame [.block 0x02, .block 0x0F, .free, .strand, .tideTable, .out] .ttRetire
  ∧ (∀ (value : Word),
      Frame [.block 0x02, .block 0x0F, .free, .strand, .out] (.ttPartitionWrite value))
  ∧ (∀ (value : Word),
      Frame [.block 0x02, .block 0x0F, .strand, .tideTable, .out] (.ttClaimWrite value))
  ∧ (∀ (i : Fin 4096),
      Frame [.block 0x02, .free, .strand, .tideTable, .net, .out] (.ttScanVisit i))
  ∧ (∀ (i : Fin 4096) (forward : Bool) (step : Fin 32) (dropped : Bool),
      Frame [.block 0x02, .block 0x03, .block 0x04, .block 0x05, .block 0x06, .block 0x0B, .free, .strand, .tideTable, .exe, .loop, .dio, .ana, .net, .out] (.ttFire i forward step dropped))
  ∧ (∀ (i : Fin 4096),
      Frame [.block 0x02, .block 0x03, .block 0x04, .block 0x05, .block 0x06, .block 0x0B, .free, .strand, .tideTable, .exe, .loop, .dio, .ana, .net, .out] (.ttLateFire i))
  ∧ (∀ (out : TideOut),
      Frame [.tideTable] (.pulseTrailingEdge out))
  ∧ (∀ (out : TideOut) (ok : Bool),
      Frame [.block 0x02, .free, .strand, .tideTable, .out] (.ttCalibration out ok))
  ∧ (∀ (place : MemErr),
      Frame [.block 0x02, .free, .strand, .tideTable, .seqs, .pair, .out] (.ttMemErr place))
  ∧ (∀ (q : Fin 32),
      Frame [.block 0x02, .block 0x03, .block 0x04, .block 0x05, .free, .strand, .tideTable, .seqs, .exe, .loop, .dio, .pair, .net, .out] (.sqEvaluation q)
      ∧ Frame [.block 0x02, .block 0x03, .block 0x04, .block 0x05, .free, .strand, .tideTable, .seqs, .exe, .loop, .dio, .pair, .net, .out] (.sqDurationElapsed q)
      ∧ Frame [.block 0x02, .block 0x03, .block 0x04, .block 0x05, .free, .strand, .tideTable, .seqs, .exe, .loop, .dio, .pair, .net, .out] (.sqTimeout q))
  ∧ (∀ (q : Fin 32) (step : Fin 1024),
      Frame [.block 0x0F, .strand, .seqs, .out] (.sqStart q step)
      ∧ Frame [.block 0x0F, .strand, .seqs, .out] (.sqJump q step))
  ∧ (∀ (q : Fin 32),
      Frame [.block 0x0F, .strand, .seqs, .out] (.sqHold q)
      ∧ Frame [.block 0x0F, .strand, .seqs, .out] (.sqResume q)
      ∧ Frame [.block 0x0F, .strand, .seqs, .out] (.sqAbort q))
  ∧ (∀ (q : Fin 32) (sig : Byte),
      Frame [.block 0x0F, .strand, .seqs, .out] (.sqSignalWrite q sig))
  ∧ (∀ (q : Fin 32) (rec : SeqMirror),
      Frame [.free, .strand, .seqs, .out] (.sqMirrorRecord q rec))
  ∧ (∀ (cycles : Nat) (crossing : Bool),
      Frame [.block 0x04, .free, .strand, .loop, .pair, .out] (.loopFrameStart cycles crossing))
  ∧ (∀ (k : Fin 2048),
      Frame [.block 0x04, .block 0x05, .free, .mem, .strand, .exe, .loop, .dio, .pair, .out] (.loopEvaluation k))
  ∧ (∀ (k : Fin 2048),
      Frame [.block 0x04, .free, .strand, .exe, .loop, .pair, .out] (.loopLost k)
      ∧ Frame [.block 0x04, .free, .strand, .exe, .loop, .pair, .out] (.loopFrozen k)
      ∧ Frame [.block 0x04, .free, .strand, .exe, .loop, .pair, .out] (.loopImplausible k))
  ∧ (∀ (k : Fin 2048),
      Frame [.block 0x04, .free, .strand, .exe, .loop, .out] (.loopRecovered k))
  ∧ Frame [.block 0x04, .block 0x0F, .free, .strand, .loop, .out] .loopLoad
      ∧ Frame [.block 0x04, .block 0x0F, .free, .strand, .loop, .out] .loopSetPar
      ∧ Frame [.block 0x04, .block 0x0F, .free, .strand, .loop, .out] .loopGetPar
      ∧ Frame [.block 0x04, .block 0x0F, .free, .strand, .loop, .out] .loopReadItem
      ∧ Frame [.block 0x04, .block 0x0F, .free, .strand, .loop, .out] .loopClear
  ∧ Frame [.block 0x04, .block 0x0F, .strand, .out] .loopRead
  ∧ Frame [.block 0x04, .block 0x0F, .strand, .loop, .out] .loopSetSp
  ∧ Frame [.block 0x04, .block 0x0F, .free, .strand, .loop, .pair, .out] .loopSetMode
  ∧ (∀ (run : Bool),
      Frame [.block 0x04, .block 0x0F, .strand, .loop, .out] (.loopRunWrite run))
  ∧ (∀ (b : Fin 32),
      Frame [.block 0x04, .block 0x0F, .free, .strand, .loop, .out] (.traceArm b)
      ∧ Frame [.block 0x04, .block 0x0F, .free, .strand, .loop, .out] (.traceTrigger b))
  ∧ (∀ (b : Fin 32),
      Frame [.block 0x04, .block 0x0F, .strand, .loop, .out] (.traceStop b))
  ∧ (∀ (b : Fin 32),
      Frame [.block 0x0F, .mem, .strand, .out] (.traceClear b))
  ∧ (∀ (b : Fin 32),
      Frame [.block 0x04, .loop, .out] (.traceDone b))
  ∧ (∀ (k : Fin 2048) (rec : LoopMirror),
      Frame [.block 0x04, .free, .strand, .loop, .out] (.loopMirrorRecord k rec))
  ∧ (∀ (b : Fin 128),
      Frame [.block 0x01, .block 0x02, .block 0x03, .block 0x04, .block 0x05, .block 0x08, .block 0x09, .block 0x0A, .block 0x0C, .free, .strand, .backup, .tides, .seqs, .exe, .loop, .dio, .saf, .pair, .can, .sup, .mbx, .out] (.loopBankIsolated b))
  ∧ (∀ (b : Fin 128),
      Frame [.block 0x0F, .strand, .loop, .out] (.loopBankReen b))
  ∧ (∀ (b : Fin 128),
      Frame [.block 0x04, .free, .strand, .exe, .loop, .sup, .out] (.loopBankReenabled b))
  ∧ (∀ (n : Fin 32) (level : Bool) (currentMa : BitVec 12),
      Frame [.block 0x03, .block 0x05, .free, .strand, .exe, .dio, .out] (.dioPinChange n level currentMa))
  ∧ (∀ (n : Fin 32),
      Frame [.block 0x03, .block 0x05, .free, .strand, .exe, .dio, .out] (.dioFilterExpiry n))
  ∧ (∀ (chs : BitVec 32) (tie : Bool),
      Frame [.block 0x01, .block 0x02, .block 0x03, .block 0x05, .block 0x08, .block 0x09, .block 0x0A, .block 0x0C, .free, .strand, .backup, .tides, .seqs, .exe, .loop, .dio, .saf, .pair, .can, .sup, .mbx, .out] (.dioShort chs tie)
      ∧ Frame [.block 0x01, .block 0x02, .block 0x03, .block 0x05, .block 0x08, .block 0x09, .block 0x0A, .block 0x0C, .free, .strand, .backup, .tides, .seqs, .exe, .loop, .dio, .saf, .pair, .can, .sup, .mbx, .out] (.dioOverload chs tie)
      ∧ Frame [.block 0x01, .block 0x02, .block 0x03, .block 0x05, .block 0x08, .block 0x09, .block 0x0A, .block 0x0C, .free, .strand, .backup, .tides, .seqs, .exe, .loop, .dio, .saf, .pair, .can, .sup, .mbx, .out] (.dioStuckOn chs tie)
      ∧ Frame [.block 0x01, .block 0x02, .block 0x03, .block 0x05, .block 0x08, .block 0x09, .block 0x0A, .block 0x0C, .free, .strand, .backup, .tides, .seqs, .exe, .loop, .dio, .saf, .pair, .can, .sup, .mbx, .out] (.dioStuckOff chs tie))
  ∧ (∀ (chs : BitVec 32),
      Frame [.block 0x01, .block 0x02, .block 0x03, .block 0x05, .block 0x08, .block 0x09, .block 0x0A, .block 0x0C, .free, .strand, .backup, .tides, .seqs, .exe, .loop, .dio, .saf, .pair, .can, .sup, .mbx, .out] (.dioOvertemp chs))
  ∧ (∀ (mask : Word),
      Frame [.block 0x0F, .free, .strand, .dio, .out] (.dioRearm mask))
  ∧ (∀ (n : Fin 32),
      Frame [.block 0x05, .free, .strand, .dio, .out] (.dioStuckExternal n)
      ∧ Frame [.block 0x05, .free, .strand, .dio, .out] (.dioOpenLoad n))
  ∧ (∀ (n : Fin 32),
      Frame [.strand, .dio, .out] (.dioFaultClear n))
  ∧ (∀ (k : Fin 4) (mv : BitVec 16),
      Frame [.block 0x05, .free, .strand, .dio, .out] (.dioBankWarn k mv))
  ∧ (∀ (k : Fin 4) (mv : BitVec 16),
      Frame [.block 0x05, .dio] (.dioBankWarnClear k mv))
  ∧ (∀ (k : Fin 4) (mv : BitVec 16),
      Frame [.block 0x05, .block 0x06, .free, .strand, .dio, .ana, .out] (.dioBankLow k mv))
  ∧ (∀ (k : Fin 4) (mv : BitVec 16),
      Frame [.block 0x05, .dio, .ana] (.dioBankLowClear k mv))
  ∧ (∀ (k : Fin 4) (tie : Bool),
      Frame [.block 0x05, .free, .strand, .dio, .out] (.dioBankLatchoff k tie))
  ∧ (∀ (k : Fin 4),
      Frame [.block 0x05, .free, .strand, .dio, .out] (.dioBankOvercurrent k)
      ∧ Frame [.block 0x05, .free, .strand, .dio, .out] (.dioStageSilent k))
  ∧ (∀ (k : Fin 4),
      Frame [.block 0x05, .block 0x0F, .free, .strand, .dio, .out] (.dioBankReenable k))
  ∧ (∀ (k : Fin 4) (pass : Bool),
      Frame [.block 0x05, .block 0x0F, .free, .strand, .dio, .sup, .out] (.dioBankRecover k pass))
  ∧ (∀ (k : Fin 4) (en : Bool),
      Frame [.block 0x05, .block 0x0F, .free, .strand, .dio, .out] (.dioBankEnable k en))
  ∧ (∀ (k : Fin 4),
      Frame [.block 0x01, .block 0x02, .block 0x03, .block 0x05, .block 0x08, .block 0x09, .block 0x0A, .block 0x0C, .free, .strand, .backup, .tides, .seqs, .exe, .loop, .dio, .saf, .pair, .can, .sup, .mbx, .out] (.dioBankIsolated k))
  ∧ (∀ (k : Fin 4),
      Frame [.dio] (.dioKeepaliveExpiry k))
  ∧ Frame [.block 0x07, .block 0x0F, .free, .strand, .rfx, .out] .rfxWrite
      ∧ Frame [.block 0x07, .block 0x0F, .free, .strand, .rfx, .out] .rfxDisable
      ∧ Frame [.block 0x07, .block 0x0F, .free, .strand, .rfx, .out] .rfxResetLatch
  ∧ Frame [.block 0x07, .block 0x0F, .free, .strand, .out] .rfxRead
  ∧ (∀ (ok : Bool),
      Frame [.block 0x01, .block 0x02, .block 0x03, .block 0x05, .block 0x07, .block 0x08, .block 0x09, .block 0x0A, .block 0x0C, .free, .strand, .backup, .tides, .seqs, .exe, .loop, .dio, .rfx, .saf, .pair, .can, .sup, .mbx, .out] (.rfxCrcCheck ok))
  ∧ (∀ (latches : BitVec 64),
      Frame [.rfx] (.reflexRecord latches))
  ∧ (∀ (value : BitVec 16),
      Frame [.block 0x06, .block 0x0F, .free, .strand, .ana, .out] (.anaChannelEnable value))
  ∧ (∀ (value : BitVec 16),
      Frame [.block 0x06, .block 0x0F, .strand, .out] (.anaLockOpen value))
  ∧ (∀ (convs : List (Fin 16 × DWord)) (overlap : Bool),
      Frame [.block 0x01, .block 0x02, .block 0x03, .block 0x05, .block 0x06, .block 0x08, .block 0x09, .block 0x0A, .block 0x0C, .free, .strand, .backup, .tides, .seqs, .exe, .loop, .dio, .ana, .saf, .pair, .can, .sup, .mbx, .out] (.anaConversion convs overlap))
  ∧ (∀ (chs : BitVec 16),
      Frame [.block 0x01, .block 0x02, .block 0x03, .block 0x05, .block 0x06, .block 0x08, .block 0x09, .block 0x0A, .block 0x0C, .free, .strand, .backup, .tides, .seqs, .exe, .loop, .dio, .ana, .saf, .pair, .can, .sup, .mbx, .out] (.anaLoopShort chs)
      ∧ Frame [.block 0x01, .block 0x02, .block 0x03, .block 0x05, .block 0x06, .block 0x08, .block 0x09, .block 0x0A, .block 0x0C, .free, .strand, .backup, .tides, .seqs, .exe, .loop, .dio, .ana, .saf, .pair, .can, .sup, .mbx, .out] (.anaOutOpen chs)
      ∧ Frame [.block 0x01, .block 0x02, .block 0x03, .block 0x05, .block 0x06, .block 0x08, .block 0x09, .block 0x0A, .block 0x0C, .free, .strand, .backup, .tides, .seqs, .exe, .loop, .dio, .ana, .saf, .pair, .can, .sup, .mbx, .out] (.anaReadbackErr chs))
  ∧ (∀ (n : Fin 16),
      Frame [.ana] (.anaOutputFaultClear n))
  ∧ (∀ (n : Fin 16) (mv : BitVec 16) (tie : Bool),
      Frame [.block 0x06, .free, .strand, .ana, .out] (.anaCompliance n mv tie)
      ∧ Frame [.block 0x06, .free, .strand, .ana, .out] (.anaComplianceClear n mv tie))
  ∧ (∀ (k : Fin 4),
      Frame [.ana] (.anaKeepaliveExpiry k))
  ∧ (∀ (k : Fin 4),
      Frame [.block 0x06, .free, .strand, .ana, .out] (.anaStageSilent k))
  ∧ (∀ (k : Fin 4),
      Frame [.block 0x01, .block 0x02, .block 0x03, .block 0x05, .block 0x06, .block 0x08, .block 0x09, .block 0x0A, .block 0x0C, .free, .strand, .backup, .tides, .seqs, .exe, .loop, .dio, .ana, .saf, .pair, .can, .sup, .mbx, .out] (.anaBankIsolated k))
  ∧ (∀ (k : Fin 4) (pass : Bool),
      Frame [.block 0x06, .block 0x0F, .free, .strand, .ana, .sup, .out] (.anaBankRecover k pass))
  ∧ (∀ (n : Fin 16),
      Frame [.block 0x06, .ana, .out] (.hartPoll n))
  ∧ (∀ (n : Fin 16) (good : Bool) (tie : Bool) (resp : Byte) (dev : Byte) (vars : List Word) (data : List Byte),
      Frame [.block 0x05, .block 0x06, .free, .strand, .exe, .dio, .ana, .out] (.hartResponse n good tie resp dev vars data))
  ∧ (∀ (n : Fin 16),
      Frame [.block 0x06, .free, .strand, .exe, .ana, .out] (.hartRespTimeout n))
  ∧ (∀ (n : Fin 16) (dev : Byte) (vars : List Word),
      Frame [.block 0x05, .block 0x06, .free, .strand, .exe, .dio, .ana, .out] (.hartBurstFrame n dev vars))
  ∧ (∀ (cmd : BitVec 16) (len : Byte),
      Frame [.block 0x06, .block 0x0F, .free, .strand, .ana, .out] (.anaHartCmd cmd len))

/-- Each of the commands of tasks, online change and every KQ instruction, whenever it answers a next state, leaves every
part of the state but the listed ones as it was: the registers of every other block, memory, and what each other unit
holds. (05_execution_model.md, 06_instruction_set.md) -/
def Obligations.ExecutionFrames : Prop :=
  (∀ (feedB : Bool) (tie : Bool),
      Frame [.block 0x00, .free, .strand, .out] (.modFeedLow feedB tie))
  ∧ (∀ (feedB : Bool),
      Frame [.block 0x00, .free, .strand, .out] (.modFeedOk feedB))
  ∧ Frame [.block 0x01, .block 0x08, .block 0x09, .block 0x0C, .free, .strand, .saf, .pair, .can, .sup, .out] .modPowerFail
  ∧ Frame [.blocks, .master, .host, .time, .free, .strand, .tides, .tideTable, .seqs, .exe, .loop, .dio, .rfx, .ana, .saf, .triad, .pair, .net, .can, .lcy, .fwu, .sup, .mpu, .mbx, .queSeq, .out] .powerFailReset
  ∧ Frame [.blocks, .master, .host, .time, .free, .mem, .strand, .tides, .tideTable, .seqs, .exe, .loop, .dio, .rfx, .ana, .saf, .triad, .pair, .net, .can, .lcy, .fwu, .sup, .mpu, .mbx, .queSeq, .out] .powerLoss
  ∧ Frame [.block 0x00, .block 0x09, .block 0x11, .time, .free, .mem, .strand, .backup, .triad, .lcy, .fwu, .sup, .mpu, .out] .powerOn
  ∧ Frame [.sup] .insertionQualified
  ∧ Frame [.block 0x08, .block 0x09, .block 0x0C, .free, .strand, .saf, .pair, .can, .sup, .out] .seatedNBreak
  ∧ Frame [.block 0x00, .free, .strand, .pair, .sup, .out] .leverOpen
  ∧ Frame [.block 0x00, .free, .strand, .sup, .out] .modRemoveReady
  ∧ Frame [.block 0x00, .block 0x09, .pair, .sup, .out] .leverClose
  ∧ (∀ (sid : BitVec 2),
      Frame [.block 0x00, .free, .strand, .sup, .out] (.modSidChanged sid))
  ∧ (∀ (present : Bool),
      Frame [.sup] (.peerPresenceChange present))
  ∧ (∀ (t : Fin 8) (forward : Bool),
      Frame [.block 0x01, .block 0x02, .block 0x03, .block 0x05, .block 0x08, .block 0x09, .block 0x0A, .block 0x0C, .free, .strand, .backup, .tides, .seqs, .exe, .loop, .dio, .saf, .pair, .can, .fwu, .sup, .mbx, .out] (.taskRelease t forward))
  ∧ (∀ (t : Fin 8),
      Frame [.block 0x01, .block 0x02, .block 0x03, .block 0x05, .block 0x08, .block 0x09, .block 0x0A, .block 0x0C, .free, .strand, .backup, .tides, .seqs, .exe, .loop, .dio, .saf, .pair, .can, .fwu, .sup, .mbx, .out] (.taskTimerRelease t))
  ∧ (∀ (e : Fin 16),
      Frame [.block 0x03, .free, .strand, .exe, .out] (.eventTaskSignal e))
  ∧ (∀ (e : Fin 16),
      Frame [.block 0x03, .block 0x05, .free, .strand, .exe, .dio, .mbx, .out] (.eventTaskRelease e))
  ∧ (∀ (sig : BitVec 16),
      Frame [.block 0x03, .block 0x0F, .free, .strand, .exe, .out] (.exeEvtSignalWrite sig))
  ∧ (∀ (t : Fin 24),
      Frame [.exe, .pair, .out] (.inputLatchComplete t))
  ∧ Frame [.exe, .pair, .out] .taskPreempt
      ∧ Frame [.exe, .pair, .out] .blockAnswer
      ∧ Frame [.exe, .pair, .out] .commitPointTimer
  ∧ (∀ (t : Fin 24) (tie : Bool),
      Frame [.block 0x03, .block 0x05, .block 0x09, .block 0x0A, .free, .strand, .exe, .dio, .pair, .net, .can, .out] (.outputCommit t tie))
  ∧ (∀ (run : Bool),
      Frame [.block 0x03, .block 0x0F, .strand, .exe, .out] (.exeRunWrite run))
  ∧ Frame [.block 0x03, .free, .strand, .out] .exeNoSlack
  ∧ (∀ (t : Fin 24),
      Frame [.block 0x01, .block 0x02, .block 0x03, .block 0x05, .block 0x08, .block 0x09, .block 0x0A, .block 0x0C, .free, .strand, .backup, .tides, .seqs, .exe, .loop, .dio, .saf, .pair, .can, .sup, .mbx, .out] (.exeOverrun t))
  ∧ Frame [.block 0x03, .block 0x0F, .free, .strand, .exe, .out] .changeVerify
  ∧ (∀ (img : Image) (sound : Bool) (legal : Bool),
      Frame [.block 0x03, .free, .mem, .strand, .exe, .pair, .out] (.changeVerifyDone img sound legal))
  ∧ Frame [.block 0x00, .block 0x03, .block 0x04, .block 0x05, .block 0x07, .block 0x09, .block 0x0B, .block 0x0F, .free, .strand, .exe, .loop, .dio, .rfx, .pair, .net, .can, .mpu, .out] .changeArm
      ∧ Frame [.block 0x00, .block 0x03, .block 0x04, .block 0x05, .block 0x07, .block 0x09, .block 0x0B, .block 0x0F, .free, .strand, .exe, .loop, .dio, .rfx, .pair, .net, .can, .mpu, .out] .changeRevert
      ∧ Frame [.block 0x00, .block 0x03, .block 0x04, .block 0x05, .block 0x07, .block 0x09, .block 0x0B, .block 0x0F, .free, .strand, .exe, .loop, .dio, .rfx, .pair, .net, .can, .mpu, .out] .imageSwap
      ∧ Frame [.block 0x00, .block 0x03, .block 0x04, .block 0x05, .block 0x07, .block 0x09, .block 0x0B, .block 0x0F, .free, .strand, .exe, .loop, .dio, .rfx, .pair, .net, .can, .mpu, .out] .revertSwitch
  ∧ (∀ (switching : Bool),
      Frame [.block 0x03, .block 0x09, .block 0x0F, .free, .strand, .exe, .pair, .out] (.changeCancel switching))
  ∧ Frame [.block 0x03, .block 0x09, .block 0x0F, .free, .strand, .exe, .pair, .out] .changeCommit
  ∧ Frame [.block 0x03, .block 0x09, .block 0x0F, .free, .strand, .exe, .out] .changeValues
  ∧ Frame [.block 0x03, .free, .strand, .exe, .pair, .out] .valuesCheckDone
  ∧ Frame [.block 0x03, .block 0x05, .free, .strand, .exe, .dio, .out] .valuesApply
  ∧ Frame [.block 0x03, .block 0x05, .block 0x09, .block 0x0F, .free, .strand, .exe, .dio, .pair, .out] .forceSet
      ∧ Frame [.block 0x03, .block 0x05, .block 0x09, .block 0x0F, .free, .strand, .exe, .dio, .pair, .out] .forceClear
      ∧ Frame [.block 0x03, .block 0x05, .block 0x09, .block 0x0F, .free, .strand, .exe, .dio, .pair, .out] .forceClearAll
  ∧ Frame [.block 0x03, .block 0x09, .block 0x0F, .free, .strand, .out] .forceRead
  ∧ (∀ (tag : Tag) (high : Bool) (value : Word),
      Frame [.block 0x03, .block 0x05, .block 0x0F, .free, .strand, .exe, .dio, .pair, .out] (.hostTagWrite tag high value))
  ∧ (∀ (w32 : Bool) (rd : Fin 64) (ra : Fin 64) (rb : Fin 64),
      Frame [.exe] (.add w32 rd ra rb)
      ∧ Frame [.exe] (.sub w32 rd ra rb)
      ∧ Frame [.exe] (.mul w32 rd ra rb)
      ∧ Frame [.exe] (.mulh w32 rd ra rb)
      ∧ Frame [.exe] (.min w32 rd ra rb)
      ∧ Frame [.exe] (.max w32 rd ra rb)
      ∧ Frame [.exe] (.minu w32 rd ra rb)
      ∧ Frame [.exe] (.maxu w32 rd ra rb)
      ∧ Frame [.exe] (.selz w32 rd ra rb)
      ∧ Frame [.exe] (.and w32 rd ra rb)
      ∧ Frame [.exe] (.or w32 rd ra rb)
      ∧ Frame [.exe] (.xor w32 rd ra rb)
      ∧ Frame [.exe] (.andn w32 rd ra rb)
      ∧ Frame [.exe] (.shl w32 rd ra rb)
      ∧ Frame [.exe] (.shr w32 rd ra rb)
      ∧ Frame [.exe] (.sar w32 rd ra rb)
      ∧ Frame [.exe] (.rol w32 rd ra rb)
      ∧ Frame [.exe] (.ror w32 rd ra rb)
      ∧ Frame [.exe] (.bext w32 rd ra rb)
      ∧ Frame [.exe] (.bset w32 rd ra rb)
      ∧ Frame [.exe] (.bclr w32 rd ra rb))
  ∧ (∀ (w32 : Bool) (rd : Fin 64) (ra : Fin 64) (rb : Fin 64),
      Frame [.strand, .exe, .out] (.div w32 rd ra rb)
      ∧ Frame [.strand, .exe, .out] (.divu w32 rd ra rb)
      ∧ Frame [.strand, .exe, .out] (.rem w32 rd ra rb)
      ∧ Frame [.strand, .exe, .out] (.remu w32 rd ra rb))
  ∧ (∀ (w32 : Bool) (rd : Fin 64) (ra : Fin 64),
      Frame [.exe] (.neg w32 rd ra)
      ∧ Frame [.exe] (.abs w32 rd ra)
      ∧ Frame [.exe] (.mov w32 rd ra)
      ∧ Frame [.exe] (.not w32 rd ra)
      ∧ Frame [.exe] (.popc w32 rd ra)
      ∧ Frame [.exe] (.clz w32 rd ra))
  ∧ (∀ (f32 : Bool) (rd : Fin 64) (ra : Fin 64) (rb : Fin 64),
      Frame [.exe] (.fadd f32 rd ra rb)
      ∧ Frame [.exe] (.fsub f32 rd ra rb)
      ∧ Frame [.exe] (.fmul f32 rd ra rb)
      ∧ Frame [.exe] (.fdiv f32 rd ra rb)
      ∧ Frame [.exe] (.fmin f32 rd ra rb)
      ∧ Frame [.exe] (.fmax f32 rd ra rb))
  ∧ (∀ (f32 : Bool) (rd : Fin 64) (ra : Fin 64),
      Frame [.exe] (.fsqrt f32 rd ra)
      ∧ Frame [.exe] (.fneg f32 rd ra)
      ∧ Frame [.exe] (.fabs f32 rd ra))
  ∧ (∀ (ty : CmpType) (ra : Fin 64) (rb : Fin 64),
      Frame [.exe] (.cmp ty ra rb))
  ∧ (∀ (ty : CmpType) (c : CmpCond) (rd : Fin 64) (ra : Fin 64) (rb : Fin 64),
      Frame [.exe] (.cset ty c rd ra rb))
  ∧ (∀ (rd : Fin 64) (ra : Fin 64),
      Frame [.exe] (.cvtI64F64 rd ra)
      ∧ Frame [.exe] (.cvtI64F32 rd ra)
      ∧ Frame [.exe] (.cvtI32F32 rd ra)
      ∧ Frame [.exe] (.cvtI32F64 rd ra)
      ∧ Frame [.exe] (.trnF64I64 rd ra)
      ∧ Frame [.exe] (.rndF64I64 rd ra)
      ∧ Frame [.exe] (.trnF32I32 rd ra)
      ∧ Frame [.exe] (.rndF32I32 rd ra)
      ∧ Frame [.exe] (.cvtF32F64 rd ra)
      ∧ Frame [.exe] (.cvtF64F32 rd ra)
      ∧ Frame [.exe] (.trnF64I32 rd ra)
      ∧ Frame [.exe] (.rndF64I32 rd ra)
      ∧ Frame [.exe] (.sext16 rd ra)
      ∧ Frame [.exe] (.sext32 rd ra)
      ∧ Frame [.exe] (.zext32 rd ra)
      ∧ Frame [.exe] (.cvtU64F64 rd ra))
  ∧ (∀ (area : ImgArea) (sgn : Bool) (size : AccSize) (rd : Fin 64) (ra : Fin 64) (rb : Fin 64),
      Frame [.block 0x01, .block 0x02, .block 0x03, .block 0x05, .block 0x08, .block 0x09, .block 0x0A, .block 0x0C, .block 0x0F, .free, .strand, .backup, .tides, .seqs, .exe, .loop, .dio, .saf, .pair, .can, .sup, .mbx, .out] (.imld area sgn size rd ra rb))
  ∧ (∀ (area : ImgArea) (size : AccSize) (rd : Fin 64) (ra : Fin 64) (rb : Fin 64),
      Frame [.block 0x01, .block 0x02, .block 0x03, .block 0x05, .block 0x08, .block 0x09, .block 0x0A, .block 0x0C, .block 0x0F, .free, .mem, .strand, .backup, .tides, .seqs, .exe, .loop, .dio, .saf, .pair, .can, .sup, .mbx, .out] (.imst area size rd ra rb))
  ∧ (∀ (ty : Fin 16) (rd : Fin 64) (ra : Fin 64) (rb : Fin 64),
      Frame [.block 0x01, .block 0x02, .block 0x03, .block 0x05, .block 0x08, .block 0x09, .block 0x0A, .block 0x0C, .block 0x0F, .free, .strand, .backup, .tides, .seqs, .exe, .loop, .dio, .saf, .pair, .can, .sup, .mbx, .out] (.tldx ty rd ra rb)
      ∧ Frame [.block 0x01, .block 0x02, .block 0x03, .block 0x05, .block 0x08, .block 0x09, .block 0x0A, .block 0x0C, .block 0x0F, .free, .strand, .backup, .tides, .seqs, .exe, .loop, .dio, .saf, .pair, .can, .sup, .mbx, .out] (.tstx ty rd ra rb))
  ∧ (∀ (ra : Fin 64) (legal : Bool),
      Frame [.block 0x01, .block 0x02, .block 0x03, .block 0x05, .block 0x08, .block 0x09, .block 0x0A, .block 0x0C, .free, .strand, .backup, .tides, .seqs, .exe, .loop, .dio, .saf, .pair, .can, .sup, .mbx, .out] (.jmpr ra legal)
      ∧ Frame [.block 0x01, .block 0x02, .block 0x03, .block 0x05, .block 0x08, .block 0x09, .block 0x0A, .block 0x0C, .free, .strand, .backup, .tides, .seqs, .exe, .loop, .dio, .saf, .pair, .can, .sup, .mbx, .out] (.callr ra legal))
  ∧ Frame [.block 0x01, .block 0x02, .block 0x03, .block 0x05, .block 0x08, .block 0x09, .block 0x0A, .block 0x0C, .free, .strand, .backup, .tides, .seqs, .exe, .loop, .dio, .saf, .pair, .can, .sup, .mbx, .out] .ret
      ∧ Frame [.block 0x01, .block 0x02, .block 0x03, .block 0x05, .block 0x08, .block 0x09, .block 0x0A, .block 0x0C, .free, .strand, .backup, .tides, .seqs, .exe, .loop, .dio, .saf, .pair, .can, .sup, .mbx, .out] .yield
  ∧ (∀ (rd : Fin 64) (imm : BitVec 16),
      Frame [.exe] (.li rd imm)
      ∧ Frame [.exe] (.liu rd imm)
      ∧ Frame [.exe] (.ins0 rd imm)
      ∧ Frame [.exe] (.ins1 rd imm)
      ∧ Frame [.exe] (.ins2 rd imm)
      ∧ Frame [.exe] (.ins3 rd imm)
      ∧ Frame [.exe] (.addi rd imm)
      ∧ Frame [.exe] (.addi32 rd imm)
      ∧ Frame [.exe] (.andi rd imm)
      ∧ Frame [.exe] (.ori rd imm)
      ∧ Frame [.exe] (.xori rd imm)
      ∧ Frame [.exe] (.cmpi rd imm)
      ∧ Frame [.exe] (.cmpiu rd imm)
      ∧ Frame [.exe] (.muli rd imm))
  ∧ (∀ (rd : Fin 64) (n : Fin 64),
      Frame [.exe] (.shli rd n)
      ∧ Frame [.exe] (.shri rd n)
      ∧ Frame [.exe] (.sari rd n))
  ∧ (∀ (rd : Fin 64) (i : Fin 4096),
      Frame [.exe] (.cld rd i))
  ∧ (∀ (ty : Fin 16) (rd : Fin 64) (tag : Tag),
      Frame [.block 0x01, .block 0x02, .block 0x03, .block 0x05, .block 0x08, .block 0x09, .block 0x0A, .block 0x0C, .block 0x0F, .free, .strand, .backup, .tides, .seqs, .exe, .loop, .dio, .saf, .pair, .can, .sup, .mbx, .out] (.tld ty rd tag)
      ∧ Frame [.block 0x01, .block 0x02, .block 0x03, .block 0x05, .block 0x08, .block 0x09, .block 0x0A, .block 0x0C, .block 0x0F, .free, .strand, .backup, .tides, .seqs, .exe, .loop, .dio, .saf, .pair, .can, .sup, .mbx, .out] (.tst ty rd tag))
  ∧ (∀ (off : BitVec 20),
      Frame [.block 0x01, .block 0x02, .block 0x03, .block 0x05, .block 0x08, .block 0x09, .block 0x0A, .block 0x0C, .free, .strand, .backup, .tides, .seqs, .exe, .loop, .dio, .saf, .pair, .can, .sup, .mbx, .out] (.br off)
      ∧ Frame [.block 0x01, .block 0x02, .block 0x03, .block 0x05, .block 0x08, .block 0x09, .block 0x0A, .block 0x0C, .free, .strand, .backup, .tides, .seqs, .exe, .loop, .dio, .saf, .pair, .can, .sup, .mbx, .out] (.call off))
  ∧ (∀ (rs : Fin 64) (off : BitVec 20),
      Frame [.block 0x01, .block 0x02, .block 0x03, .block 0x05, .block 0x08, .block 0x09, .block 0x0A, .block 0x0C, .free, .strand, .backup, .tides, .seqs, .exe, .loop, .dio, .saf, .pair, .can, .sup, .mbx, .out] (.bz rs off)
      ∧ Frame [.block 0x01, .block 0x02, .block 0x03, .block 0x05, .block 0x08, .block 0x09, .block 0x0A, .block 0x0C, .free, .strand, .backup, .tides, .seqs, .exe, .loop, .dio, .saf, .pair, .can, .sup, .mbx, .out] (.bnz rs off)
      ∧ Frame [.block 0x01, .block 0x02, .block 0x03, .block 0x05, .block 0x08, .block 0x09, .block 0x0A, .block 0x0C, .free, .strand, .backup, .tides, .seqs, .exe, .loop, .dio, .saf, .pair, .can, .sup, .mbx, .out] (.bltz rs off)
      ∧ Frame [.block 0x01, .block 0x02, .block 0x03, .block 0x05, .block 0x08, .block 0x09, .block 0x0A, .block 0x0C, .free, .strand, .backup, .tides, .seqs, .exe, .loop, .dio, .saf, .pair, .can, .sup, .mbx, .out] (.bgez rs off))
  ∧ (∀ (f : KqFlag) (off : BitVec 20),
      Frame [.block 0x01, .block 0x02, .block 0x03, .block 0x05, .block 0x08, .block 0x09, .block 0x0A, .block 0x0C, .free, .strand, .backup, .tides, .seqs, .exe, .loop, .dio, .saf, .pair, .can, .sup, .mbx, .out] (.bf f off)
      ∧ Frame [.block 0x01, .block 0x02, .block 0x03, .block 0x05, .block 0x08, .block 0x09, .block 0x0A, .block 0x0C, .free, .strand, .backup, .tides, .seqs, .exe, .loop, .dio, .saf, .pair, .can, .sup, .mbx, .out] (.bnf f off))
  ∧ (∀ (rd : Fin 64) (ra : Fin 64) (x : BitVec 14),
      Frame [.block 0x01, .block 0x02, .block 0x03, .block 0x05, .block 0x08, .block 0x09, .block 0x0A, .block 0x0C, .free, .strand, .backup, .tides, .seqs, .exe, .loop, .dio, .saf, .pair, .can, .sup, .mbx, .out] (.ton rd ra x)
      ∧ Frame [.block 0x01, .block 0x02, .block 0x03, .block 0x05, .block 0x08, .block 0x09, .block 0x0A, .block 0x0C, .free, .strand, .backup, .tides, .seqs, .exe, .loop, .dio, .saf, .pair, .can, .sup, .mbx, .out] (.tof rd ra x)
      ∧ Frame [.block 0x01, .block 0x02, .block 0x03, .block 0x05, .block 0x08, .block 0x09, .block 0x0A, .block 0x0C, .free, .strand, .backup, .tides, .seqs, .exe, .loop, .dio, .saf, .pair, .can, .sup, .mbx, .out] (.tp rd ra x)
      ∧ Frame [.block 0x01, .block 0x02, .block 0x03, .block 0x05, .block 0x08, .block 0x09, .block 0x0A, .block 0x0C, .free, .strand, .backup, .tides, .seqs, .exe, .loop, .dio, .saf, .pair, .can, .sup, .mbx, .out] (.ctu rd ra x)
      ∧ Frame [.block 0x01, .block 0x02, .block 0x03, .block 0x05, .block 0x08, .block 0x09, .block 0x0A, .block 0x0C, .free, .strand, .backup, .tides, .seqs, .exe, .loop, .dio, .saf, .pair, .can, .sup, .mbx, .out] (.ctd rd ra x)
      ∧ Frame [.block 0x01, .block 0x02, .block 0x03, .block 0x05, .block 0x08, .block 0x09, .block 0x0A, .block 0x0C, .free, .strand, .backup, .tides, .seqs, .exe, .loop, .dio, .saf, .pair, .can, .sup, .mbx, .out] (.ctud rd ra x)
      ∧ Frame [.block 0x01, .block 0x02, .block 0x03, .block 0x05, .block 0x08, .block 0x09, .block 0x0A, .block 0x0C, .free, .strand, .backup, .tides, .seqs, .exe, .loop, .dio, .saf, .pair, .can, .sup, .mbx, .out] (.rtrg rd ra x)
      ∧ Frame [.block 0x01, .block 0x02, .block 0x03, .block 0x05, .block 0x08, .block 0x09, .block 0x0A, .block 0x0C, .free, .strand, .backup, .tides, .seqs, .exe, .loop, .dio, .saf, .pair, .can, .sup, .mbx, .out] (.ftrg rd ra x))
  ∧ (∀ (rd : Fin 64) (x : BitVec 14),
      Frame [.block 0x01, .block 0x02, .block 0x03, .block 0x05, .block 0x08, .block 0x09, .block 0x0A, .block 0x0C, .free, .strand, .backup, .tides, .seqs, .exe, .loop, .dio, .saf, .pair, .can, .sup, .mbx, .out] (.tet rd x)
      ∧ Frame [.block 0x01, .block 0x02, .block 0x03, .block 0x05, .block 0x08, .block 0x09, .block 0x0A, .block 0x0C, .free, .strand, .backup, .tides, .seqs, .exe, .loop, .dio, .saf, .pair, .can, .sup, .mbx, .out] (.ctv rd x))
  ∧ (∀ (rd : Fin 64) (ra : Fin 64) (rb : Fin 64),
      Frame [.exe, .pair, .out] (.cal2t rd ra rb))
  ∧ (∀ (rd : Fin 64) (ra : Fin 64),
      Frame [.exe, .pair, .out] (.t2cal rd ra))
  ∧ (∀ (rd : Fin 64) (ra : Fin 62) (rb : Fin 64) (waits : Bool),
      Frame [.block 0x01, .block 0x02, .block 0x03, .block 0x05, .block 0x08, .block 0x09, .block 0x0A, .block 0x0C, .free, .strand, .backup, .tides, .tideTable, .seqs, .exe, .loop, .dio, .saf, .pair, .net, .can, .sup, .mbx, .out] (.tsch rd ra rb waits))
  ∧ (∀ (rd : Fin 64) (rb : Fin 64) (waits : Bool),
      Frame [.block 0x01, .block 0x02, .block 0x03, .block 0x05, .block 0x08, .block 0x09, .block 0x0A, .block 0x0C, .free, .strand, .backup, .tides, .tideTable, .seqs, .exe, .loop, .dio, .saf, .pair, .can, .sup, .mbx, .out] (.tret rd rb waits))
  ∧ (∀ (rd : Fin 64) (ra : Fin 64) (rb : Fin 64) (waits : Bool),
      Frame [.exe, .loop, .pair, .out] (.lsp rd ra rb waits))
  ∧ (∀ (rd : Fin 64) (ra : Fin 64) (rb : Fin 64) (waits : Bool),
      Frame [.block 0x04, .free, .strand, .exe, .loop, .pair, .out] (.lmode rd ra rb waits)
      ∧ Frame [.block 0x04, .free, .strand, .exe, .loop, .pair, .out] (.lpar rd ra rb waits))
  ∧ (∀ (rd : Fin 64) (rb : Fin 64) (waits : Bool),
      Frame [.free, .strand, .exe, .loop, .pair, .out] (.lrd rd rb waits))
  ∧ (∀ (rd : Fin 64) (ra : Fin 64) (rb : Fin 64) (waits : Bool),
      Frame [.seqs, .exe, .pair, .out] (.sqc rd ra rb waits)
      ∧ Frame [.seqs, .exe, .pair, .out] (.sqsig rd ra rb waits))
  ∧ (∀ (rd : Fin 64) (rb : Fin 64) (waits : Bool),
      Frame [.exe, .pair, .out] (.sqs rd rb waits))
  ∧ (∀ (rd : Fin 64) (ra : Fin 64) (rb : Fin 64) (waits : Bool),
      Frame [.block 0x01, .block 0x02, .block 0x03, .block 0x05, .block 0x08, .block 0x09, .block 0x0A, .block 0x0C, .block 0x0F, .block 0x10, .free, .strand, .backup, .tides, .seqs, .exe, .loop, .dio, .saf, .pair, .can, .sup, .mbx, .out] (.msend rd ra rb waits)
      ∧ Frame [.block 0x01, .block 0x02, .block 0x03, .block 0x05, .block 0x08, .block 0x09, .block 0x0A, .block 0x0C, .block 0x0F, .block 0x10, .free, .strand, .backup, .tides, .seqs, .exe, .loop, .dio, .saf, .pair, .can, .sup, .mbx, .out] (.mdbl rd ra rb waits)
      ∧ Frame [.block 0x01, .block 0x02, .block 0x03, .block 0x05, .block 0x08, .block 0x09, .block 0x0A, .block 0x0C, .block 0x0F, .block 0x10, .free, .strand, .backup, .tides, .seqs, .exe, .loop, .dio, .saf, .pair, .can, .sup, .mbx, .out] (.mack rd ra rb waits))
  ∧ (∀ (rd : Fin 64) (rb : Fin 64) (waits : Bool),
      Frame [.block 0x01, .block 0x02, .block 0x03, .block 0x05, .block 0x08, .block 0x09, .block 0x0A, .block 0x0C, .block 0x0F, .free, .strand, .backup, .tides, .seqs, .exe, .loop, .dio, .saf, .pair, .can, .sup, .mbx, .out] (.mrecv rd rb waits)
      ∧ Frame [.block 0x01, .block 0x02, .block 0x03, .block 0x05, .block 0x08, .block 0x09, .block 0x0A, .block 0x0C, .block 0x0F, .free, .strand, .backup, .tides, .seqs, .exe, .loop, .dio, .saf, .pair, .can, .sup, .mbx, .out] (.lktry rd rb waits)
      ∧ Frame [.block 0x01, .block 0x02, .block 0x03, .block 0x05, .block 0x08, .block 0x09, .block 0x0A, .block 0x0C, .block 0x0F, .free, .strand, .backup, .tides, .seqs, .exe, .loop, .dio, .saf, .pair, .can, .sup, .mbx, .out] (.lkrel rd rb waits))
  ∧ (∀ (rd : Fin 64) (ra : Fin 64),
      Frame [.exe, .saf, .pair, .out] (.sxch rd ra))
  ∧ Frame [.block 0x01, .block 0x02, .block 0x03, .block 0x05, .block 0x08, .block 0x09, .block 0x0A, .block 0x0C, .free, .strand, .backup, .tides, .seqs, .exe, .loop, .dio, .saf, .triad, .pair, .can, .sup, .mbx, .out] .mfence
      ∧ Frame [.block 0x01, .block 0x02, .block 0x03, .block 0x05, .block 0x08, .block 0x09, .block 0x0A, .block 0x0C, .free, .strand, .backup, .tides, .seqs, .exe, .loop, .dio, .saf, .triad, .pair, .can, .sup, .mbx, .out] .fenceDrained
  ∧ Frame [.exe] .rfence
  ∧ (∀ (rd : Fin 64),
      Frame [.exe, .pair, .out] (.fget rd)
      ∧ Frame [.exe, .pair, .out] (.cyct rd)
      ∧ Frame [.exe, .pair, .out] (.mtim rd))
  ∧ (∀ (ra : Fin 64),
      Frame [.exe, .pair, .out] (.fclr ra))
  ∧ (∀ (code : BitVec 12) (ra : Fin 64),
      Frame [.strand, .exe, .pair, .out] (.log code ra))
  ∧ (∀ (rd : Fin 64) (item : Fin 4) (tide : Fin 8),
      Frame [.exe, .pair, .out] (.tang rd item tide))

/-- Each of the commands of the regions and AUTH, safety, the triad, the pair, the network, CAN, memory, the host port, the
debugger, Strandline, the clock, lifecycle, firmware and power, whenever it answers a next state, leaves every part of
the state but the listed ones as it was: the registers of every other block, memory, and what each other unit holds.
(01_architecture.md, 10_safety_channels.md, 11_safety_frames.md, 12_triad_execution.md, 13_pair_redundancy.md,
14_network_and_time.md, 15_can_fd.md, 16_strandline_and_clock.md, 17_memory_protection_and_mailboxes.md,
18_lifecycle_debug_and_update.md, 19_power_states_and_startup.md) -/
def Obligations.ModuleFrames : Prop :=
  (∀ (addr : BitVec 26) (be : BitVec 4) (value : Word) (hwSet : Word),
      Frame [.blocks, .free, .strand, .backup, .dio, .mpu, .out] (.registerWrite addr be value hwSet))
  ∧ (∀ (addr : BitVec 26),
      Frame [.blocks, .host, .strand, .out] (.lowWordRead addr))
  ∧ (∀ (addr : BitVec 26) (events : Word),
      Frame [.blocks, .host, .strand, .out] (.counterRead addr events))
  ∧ (∀ (region : Region) (status : Status),
      Frame [.block 0x01, .block 0x02, .block 0x03, .block 0x05, .block 0x08, .block 0x09, .block 0x0A, .block 0x0B, .block 0x0C, .free, .strand, .backup, .tides, .seqs, .exe, .loop, .dio, .saf, .pair, .net, .can, .sup, .mbx, .out] (.regionFault region status))
  ∧ (∀ (region : Region),
      Frame [.block 0x01, .block 0x08, .block 0x09, .block 0x0C, .free, .strand, .saf, .pair, .can, .sup, .out] (.regionFallbackFail region))
  ∧ (∀ (domain : ClockDomain),
      Frame [.block 0x01, .block 0x02, .block 0x03, .block 0x05, .block 0x08, .block 0x09, .block 0x0A, .block 0x0B, .block 0x0C, .free, .strand, .backup, .tides, .seqs, .exe, .loop, .dio, .saf, .pair, .net, .can, .sup, .mbx, .out] (.clockFailure domain))
  ∧ (∀ (region : Region),
      Frame [.block 0x01, .block 0x02, .block 0x03, .block 0x05, .block 0x08, .block 0x09, .block 0x0A, .block 0x0C, .free, .strand, .backup, .tides, .seqs, .exe, .loop, .dio, .saf, .pair, .can, .sup, .mbx, .out] (.bankIsolationTimeout region))
  ∧ Frame [.sup] .cdFabricStop
      ∧ Frame [.sup] .livenessToggle
  ∧ (∀ (tie : Bool),
      Frame [.block 0x08, .block 0x09, .block 0x0C, .free, .strand, .saf, .pair, .can, .sup, .out] (.safLiveness tie))
  ∧ Frame [.lcy, .sup] .authClaim
  ∧ (∀ (alone : Bool),
      Frame [.block 0x01, .block 0x02, .block 0x03, .block 0x04, .block 0x05, .block 0x08, .block 0x09, .block 0x0A, .block 0x0B, .block 0x0C, .free, .strand, .backup, .tides, .tideTable, .seqs, .exe, .loop, .dio, .saf, .pair, .net, .can, .fwu, .sup, .mbx, .out] (.authMeasure alone))
  ∧ Frame [.block 0x09, .block 0x0C, .free, .strand, .pair, .can, .sup, .out] .authShared
      ∧ Frame [.block 0x09, .block 0x0C, .free, .strand, .pair, .can, .sup, .out] .pairContestLost
  ∧ Frame [.block 0x01, .block 0x02, .block 0x03, .block 0x04, .block 0x05, .block 0x08, .block 0x09, .block 0x0A, .block 0x0B, .block 0x0C, .free, .strand, .backup, .tides, .tideTable, .seqs, .exe, .loop, .dio, .saf, .pair, .net, .can, .fwu, .sup, .mbx, .out] .authConfirmRun
  ∧ (∀ (t : Fin 8),
      Frame [.block 0x03, .block 0x0B, .free, .strand, .exe, .net, .out] (.stationDeadline t))
  ∧ Frame [.block 0x08, .free, .strand, .saf, .pair, .out] .safetyCycle
      ∧ Frame [.block 0x08, .free, .strand, .saf, .pair, .out] .safAuthTaken
      ∧ Frame [.block 0x08, .free, .strand, .saf, .pair, .out] .consumerEpochHoldEnd
  ∧ (∀ (tie : Bool),
      Frame [.block 0x08, .free, .strand, .saf, .out] (.safSxTimeout tie))
  ∧ Frame [.saf] .safetyHeartbeatToggle
  ∧ Frame [.block 0x01, .block 0x02, .block 0x03, .block 0x05, .block 0x08, .block 0x09, .block 0x0A, .block 0x0C, .free, .strand, .backup, .tides, .seqs, .exe, .loop, .dio, .saf, .pair, .can, .sup, .mbx, .out] .safBwHb
      ∧ Frame [.block 0x01, .block 0x02, .block 0x03, .block 0x05, .block 0x08, .block 0x09, .block 0x0A, .block 0x0C, .free, .strand, .backup, .tides, .seqs, .exe, .loop, .dio, .saf, .pair, .can, .sup, .mbx, .out] .safLockstep
      ∧ Frame [.block 0x01, .block 0x02, .block 0x03, .block 0x05, .block 0x08, .block 0x09, .block 0x0A, .block 0x0C, .free, .strand, .backup, .tides, .seqs, .exe, .loop, .dio, .saf, .pair, .can, .sup, .mbx, .out] .safBwSelftest
  ∧ (∀ (p : Fin 8) (b : Bool) (level : Bool),
      Frame [.block 0x08, .free, .strand, .saf, .out] (.siFilterExpiry p b level))
  ∧ (∀ (p : Fin 8) (tie : Bool),
      Frame [.block 0x08, .free, .strand, .saf, .out] (.safSiDiscrepancy p tie))
  ∧ (∀ (k : Fin 4),
      Frame [.block 0x08, .saf] (.tpPulseStart k))
  ∧ (∀ (k : Fin 4) (low : BitVec 16),
      Frame [.block 0x08, .free, .strand, .saf, .out] (.tpPulseEnd k low))
  ∧ (∀ (k : Fin 4),
      Frame [.block 0x01, .block 0x02, .block 0x03, .block 0x05, .block 0x08, .block 0x09, .block 0x0A, .block 0x0C, .free, .strand, .backup, .tides, .seqs, .exe, .loop, .dio, .saf, .pair, .can, .sup, .mbx, .out] (.safTpSource k))
  ∧ (∀ (n : Fin 8) (hs : Bool),
      Frame [.saf] (.sqTestStart n hs))
  ∧ (∀ (n : Fin 8),
      Frame [.block 0x08, .free, .strand, .saf, .out] (.sqTestConfirm n)
      ∧ Frame [.block 0x08, .free, .strand, .saf, .out] (.safSqOvercurrent n)
      ∧ Frame [.block 0x08, .free, .strand, .saf, .out] (.safSqDisagree n))
  ∧ (∀ (n : Fin 8) (tie : Bool),
      Frame [.block 0x08, .free, .strand, .saf, .out] (.sqTestExpiry n tie))
  ∧ (∀ (n : Fin 8),
      Frame [.block 0x08, .free, .strand, .out] (.safTestOverdue n))
  ∧ (∀ (k : Fin 4) (tie : Bool),
      Frame [.block 0x08, .free, .strand, .saf, .out] (.safBankLow k tie))
  ∧ (∀ (k : Fin 4),
      Frame [.block 0x08, .free, .strand, .saf, .out] (.safBankRestored k))
  ∧ Frame [.block 0x08, .free, .strand, .saf, .out] .safAuthReleased
      ∧ Frame [.block 0x08, .free, .strand, .saf, .out] .safHandoverHoldEnd
  ∧ (∀ (carrier : Fin 4) (src : DWord) (frame : List Byte),
      Frame [.block 0x08, .free, .strand, .saf, .pair, .out] (.safetyFrameReceive carrier src frame))
  ∧ (∀ (i : Fin 16),
      Frame [.saf, .pair, .out] (.consumerOpenRepeat i))
  ∧ (∀ (i : Fin 16) (tie : Bool),
      Frame [.block 0x08, .free, .strand, .saf, .pair, .out] (.safConnWdog i tie))
  ∧ (∀ (carrier : Fin 4) (src : DWord) (frame : List Byte),
      Frame [.block 0x08, .free, .strand, .saf, .out] (.producerFrameReceive carrier src frame))
  ∧ (∀ (i : Fin 16) (tie : Bool),
      Frame [.block 0x08, .free, .strand, .saf, .out] (.safConnAckTimeout i tie))
  ∧ (∀ (r0 : Option VoteRec) (r1 : Option VoteRec) (r2 : Option VoteRec),
      Frame [.block 0x01, .block 0x02, .block 0x03, .block 0x05, .block 0x08, .block 0x09, .block 0x0A, .block 0x0C, .free, .strand, .backup, .tides, .seqs, .exe, .loop, .dio, .saf, .triad, .pair, .can, .sup, .mbx, .out] (.triadVote r0 r1 r2))
  ∧ (∀ (pass : Bool),
      Frame [.block 0x0A, .free, .strand, .triad, .out] (.triadResyncStart pass))
  ∧ Frame [.block 0x0A, .free, .strand, .triad, .sup, .out] .triadResyncDone
  ∧ Frame [.block 0x0A, .free, .strand, .triad, .out] .triadResyncTimeout
  ∧ (∀ (place : EccPlace) (symbol : Fin 19) (word : BitVec 20),
      Frame [.block 0x0A, .free, .strand, .out] (.triadEccCorrected place symbol word))
  ∧ (∀ (place : EccPlace) (word : BitVec 20),
      Frame [.block 0x01, .block 0x02, .block 0x03, .block 0x05, .block 0x08, .block 0x09, .block 0x0A, .block 0x0C, .free, .strand, .backup, .tides, .seqs, .exe, .loop, .dio, .saf, .pair, .can, .sup, .mbx, .out] (.triadEccUncorr place word))
  ∧ (∀ (core : Fin 4),
      Frame [.block 0x0A, .block 0x0F, .free, .strand, .triad, .out] (.triadUnretire core))
  ∧ (∀ (other : Bool),
      Frame [.block 0x09, .free, .strand, .pair, .sup, .out] (.heartbeatSend other)
      ∧ Frame [.block 0x09, .free, .strand, .pair, .sup, .out] (.pairPeerLost other))
  ∧ (∀ (cw2 : Bool) (hb : Heartbeat) (good : Bool) (tie : Bool) (other : Bool),
      Frame [.block 0x01, .block 0x02, .block 0x03, .block 0x05, .block 0x08, .block 0x09, .block 0x0A, .block 0x0C, .free, .strand, .backup, .tides, .seqs, .exe, .loop, .dio, .saf, .pair, .can, .sup, .mbx, .out] (.heartbeatReceive cw2 hb good tie other))
  ∧ (∀ (cw2 : Bool),
      Frame [.block 0x09, .free, .strand, .pair, .out] (.pairPathLost cw2))
  ∧ Frame [.pair] .pairWaitExpiry
  ∧ Frame [.free, .strand, .sup, .out] .pairAuthSense
  ∧ (∀ (tie : Bool),
      Frame [.block 0x08, .saf] (.safetyMirrorStale tie))
  ∧ (∀ (q : Word) (t : Fin 24) (cycle : Nat) (cycleTime : DWord) (angle : Word) (vals : List (Tag × DWord × Bool × Bool)),
      Frame [.block 0x03, .block 0x09, .free, .strand, .exe, .pair, .out] (.releaseRecord q t cycle cycleTime angle vals))
  ∧ (∀ (q : Word) (t : Fin 24) (points : Nat) (resume : Bool),
      Frame [.block 0x09, .free, .strand, .exe, .pair, .out] (.schedRecord q t points resume))
  ∧ (∀ (q : Word) (rec : Replay),
      Frame [.block 0x09, .free, .strand, .exe, .pair, .out] (.replayRecord q rec))
  ∧ (∀ (q : Word) (t : Fin 24) (cycle : Nat) (crc : Word) (since : BitVec 16) (tie : Bool),
      Frame [.block 0x09, .free, .strand, .exe, .pair, .out] (.commitRecord q t cycle crc since tie))
  ∧ (∀ (q : Word) (granules : List Granule),
      Frame [.block 0x09, .free, .mem, .strand, .exe, .pair, .out] (.stateRecord q granules))
  ∧ (∀ (n : Fin 8) (locked : Bool) (pos : DWord) (omega : Int) (base : DWord),
      Frame [.block 0x09, .free, .strand, .tides, .exe, .pair, .out] (.tideRecord n locked pos omega base))
  ∧ (∀ (q : Word) (rec : ControlRec),
      Frame [.block 0x00, .block 0x03, .block 0x04, .block 0x05, .block 0x07, .block 0x09, .block 0x0B, .block 0x0F, .free, .strand, .exe, .loop, .dio, .rfx, .pair, .net, .can, .mpu, .out] (.controlRecord q rec))
  ∧ (∀ (sqs : List (Fin 8 × Fin 4)) (req : DWord) (conns : List (Fin 32 × ConnItems)) (split : Bool),
      Frame [.saf] (.safetyRecord sqs req conns split))
  ∧ (∀ (t : Fin 24) (cycle : Nat),
      Frame [.block 0x09, .free, .strand, .pair, .out] (.pairTrailing t cycle))
  ∧ Frame [.block 0x09, .free, .strand, .exe, .pair, .out] .syncComplete
  ∧ Frame [.block 0x09, .free, .strand, .pair, .out] .trackingRejoin
  ∧ Frame [.block 0x09, .pair, .out] .yieldExpiry
  ∧ Frame [.block 0x09, .block 0x0F, .free, .strand, .pair, .out] .pairSwitchoverCmd
      ∧ Frame [.block 0x09, .block 0x0F, .free, .strand, .pair, .out] .pairRejoin
      ∧ Frame [.block 0x09, .block 0x0F, .free, .strand, .pair, .out] .pairResync
  ∧ Frame [.block 0x09, .block 0x0F, .free, .strand, .pair, .fwu, .sup, .out] .pairCancel
  ∧ Frame [.block 0x00, .block 0x09, .free, .strand, .pair, .sup, .out] .switchoverStart
  ∧ (∀ (q : Word) (cycles : List (Fin 24 × Nat)) (angles : List (Fin 24 × Word)) (base : DWord),
      Frame [.block 0x09, .free, .strand, .exe, .pair, .out] (.handoverRecord q cycles angles base))
  ∧ (∀ (q : Word),
      Frame [.block 0x09, .block 0x0C, .free, .strand, .exe, .saf, .pair, .can, .sup, .out] (.readyRecord q))
  ∧ (∀ (q : Word),
      Frame [.block 0x09, .free, .strand, .exe, .pair, .out] (.takenRecord q))
  ∧ Frame [.block 0x00, .block 0x09, .free, .strand, .saf, .pair, .sup, .out] .pairSwitchFailed
  ∧ Frame [.pair, .out] .pairReclaim
      ∧ Frame [.pair, .out] .tideRecordSend
  ∧ (∀ (value : Word) (ok : BitVec 4),
      Frame [.block 0x0B, .block 0x0F, .free, .strand, .sup, .out] (.netCtrlWrite value ok))
  ∧ (∀ (port : Fin 4),
      Frame [.block 0x0B, .free, .strand, .net, .out] (.netLinkDown port)
      ∧ Frame [.block 0x0B, .free, .strand, .net, .out] (.netLinkUp port))
  ∧ (∀ (port : Bool) (src : BitVec 48) (seq : Option (BitVec 16)) (kind : PlantKind) (dest : PlantDest) (frame : List Byte),
      Frame [.block 0x13, .free, .mem, .strand, .net, .queSeq, .out] (.plantFrameReceive port src seq kind dest frame))
  ∧ (∀ (src : BitVec 48) (seq : BitVec 16),
      Frame [.block 0x0B, .free, .strand, .net, .out] (.redundantCopyTimeout src seq))
  ∧ Frame [.out] .supervisionSend
      ∧ Frame [.out] .gratuitousArpRepeat
  ∧ Frame [.block 0x0B, .free, .strand, .out] .netHsrOpen
  ∧ (∀ (port : Bool) (gm : DWord) (sec : BitVec 48) (ns : Word) (corr : Int) (age : Nat) (twoStep : Bool),
      Frame [.block 0x02, .block 0x0B, .time, .free, .strand, .tides, .net, .out] (.ptpSync port gm sec ns corr age twoStep))
  ∧ (∀ (port : Bool) (gm : DWord) (utc : Option (BitVec 16)) (best : Bmca),
      Frame [.block 0x0B, .free, .strand, .net, .out] (.ptpAnnounce port gm utc best))
  ∧ (∀ (best : Bmca) (tie : Bool),
      Frame [.block 0x02, .block 0x0B, .free, .strand, .tides, .net, .out] (.ptpAnnounceTimeout best tie))
  ∧ (∀ (both : Bool) (tie : Bool),
      Frame [.block 0x02, .block 0x0B, .free, .strand, .tides, .net, .out] (.ptpSyncSilence both tie))
  ∧ (∀ (port : Bool) (turn : Nat),
      Frame [.out] (.ptpPdelayReq port turn))
  ∧ (∀ (port : Bool) (t2 : Int) (corr : Int) (age : Nat) (twoStep : Bool),
      Frame [.block 0x0B, .net] (.ptpPdelayResp port t2 corr age twoStep))
  ∧ (∀ (kind : PtpSend) (port : Bool),
      Frame [.net, .out] (.ptpMessageSend kind port))
  ∧ Frame [.block 0x0F, .strand, .net, .out] .ptpAcceptStep
      ∧ Frame [.block 0x0F, .strand, .net, .out] .ptpCancelStep
  ∧ Frame [.block 0x0B, .block 0x0F, .free, .strand, .net, .out] .gseWrite
      ∧ Frame [.block 0x0B, .block 0x0F, .free, .strand, .net, .out] .gseDisable
      ∧ Frame [.block 0x0B, .block 0x0F, .free, .strand, .net, .out] .lnchWrite
      ∧ Frame [.block 0x0B, .block 0x0F, .free, .strand, .net, .out] .lnchDisable
  ∧ Frame [.block 0x0B, .block 0x0F, .free, .strand, .out] .gseRead
      ∧ Frame [.block 0x0B, .block 0x0F, .free, .strand, .out] .lnchRead
  ∧ (∀ (i : Fin 16),
      Frame [.net, .out] (.gooseRetransmit i))
  ∧ (∀ (msg : GooseMsg),
      Frame [.block 0x05, .block 0x0B, .free, .strand, .exe, .dio, .net, .out] (.gooseReceive msg))
  ∧ (∀ (j : Fin 64) (tie : Bool),
      Frame [.block 0x0B, .free, .strand, .exe, .out] (.netGseTalExpired j tie))
  ∧ (∀ (slot : Fin 64) (late : Bool),
      Frame [.block 0x0B, .free, .strand, .net, .out] (.launchSend slot late))
  ∧ (∀ (slot : Fin 64),
      Frame [.net] (.launchGuardExpiry slot))
  ∧ (∀ (t : Fin 8),
      Frame [.block 0x0B, .free, .strand, .exe, .net, .out] (.ringCycleLaunch t))
  ∧ (∀ (st : Fin 64) (tid : BitVec 16) (ir0 : Bool) (ir1 : Bool) (vals : List (Tag × DWord)) (tie : Bool),
      Frame [.block 0x03, .block 0x0B, .exe, .net] (.stationAnswer st tid ir0 ir1 vals tie))
  ∧ (∀ (found : List (Fin 64 × Word × Fin 64)),
      Frame [.block 0x0B, .free, .strand, .exe, .net, .out] (.ringEnumeration found))
  ∧ (∀ (run : Bool),
      Frame [.block 0x0B, .block 0x0F, .strand, .net, .out] (.ringRunWrite run))
  ∧ Frame [.block 0x0B, .net] .ringWaitExpiry
  ∧ (∀ (segs : List (Fin 64 × BitVec 16)),
      Frame [.block 0x0B, .net, .out] (.ringPassThrough segs))
  ∧ (∀ (port : Fin 4),
      Frame [.block 0x01, .block 0x02, .block 0x03, .block 0x05, .block 0x08, .block 0x09, .block 0x0A, .block 0x0B, .block 0x0C, .free, .strand, .backup, .tides, .seqs, .exe, .loop, .dio, .saf, .pair, .net, .can, .sup, .mbx, .out] (.netPortIsolated port))
  ∧ (∀ (value : Word),
      Frame [.block 0x0C, .block 0x0F, .free, .strand, .out] (.canChannelEnable value))
  ∧ (∀ (c : Fin 4) (b : Fin 64) (word : Fin 32) (value : Word),
      Frame [.block 0x0F, .free, .strand, .can, .out] (.canBufferWrite c b word value))
  ∧ (∀ (c : Fin 4) (frame : CanFrame),
      Frame [.block 0x03, .block 0x05, .block 0x0C, .block 0x13, .free, .mem, .strand, .exe, .dio, .can, .queSeq, .out] (.canFrameReceive c frame))
  ∧ (∀ (c : Fin 4) (begun : Option (Fin 65)) (stamp : DWord),
      Frame [.block 0x0C, .block 0x13, .free, .strand, .can, .out] (.canTxComplete c begun stamp))
  ∧ (∀ (c : Fin 4) (begun : Option (Fin 65)) (kind : CanErr),
      Frame [.block 0x0C, .free, .strand, .can, .out] (.canTxError c begun kind))
  ∧ (∀ (c : Fin 4),
      Frame [.block 0x0C, .free, .strand, .out] (.canBusOn c))
  ∧ (∀ (c : Fin 4) (b : Fin 64) (tie : Bool) (stamp : DWord),
      Frame [.block 0x0C, .block 0x13, .free, .strand, .can, .out] (.canTxTimeout c b tie stamp))
  ∧ (∀ (c : Fin 4) (b : Fin 64) (tie : Bool),
      Frame [.block 0x0C, .free, .strand, .exe, .can, .out] (.canRxSilent c b tie))
  ∧ (∀ (c : Fin 4) (b : Fin 64),
      Frame [.block 0x0C, .block 0x0F, .free, .strand, .can, .out] (.canRequest c b)
      ∧ Frame [.block 0x0C, .block 0x0F, .free, .strand, .can, .out] (.canClearClash c b))
  ∧ (∀ (c : Fin 4) (b : Fin 64) (begun : Bool),
      Frame [.block 0x0C, .block 0x0F, .free, .strand, .can, .out] (.canCancel c b begun))
  ∧ (∀ (c : Fin 4) (b : Fin 64) (tie : Bool),
      Frame [.block 0x0C, .block 0x0F, .free, .strand, .can, .out] (.canRelease c b tie))
  ∧ (∀ (c : Fin 4),
      Frame [.block 0x0C, .block 0x0F, .free, .strand, .out] (.canRecover c))
  ∧ (∀ (c : Fin 4) (check : Bool),
      Frame [.block 0x0C, .block 0x0F, .free, .strand, .sup, .out] (.canRecoverCh c check))
  ∧ (∀ (c : Fin 4),
      Frame [.block 0x01, .block 0x02, .block 0x03, .block 0x05, .block 0x08, .block 0x09, .block 0x0A, .block 0x0C, .free, .strand, .backup, .tides, .seqs, .exe, .loop, .dio, .saf, .pair, .can, .sup, .mbx, .out] (.canChannelIsolated c))
  ∧ Frame [.block 0x0D, .block 0x13, .free, .mem, .strand, .queSeq, .out] .strandlineRingWrite
      ∧ Frame [.block 0x0D, .block 0x13, .free, .mem, .strand, .queSeq, .out] .strThawAppendDone
      ∧ Frame [.block 0x0D, .block 0x13, .free, .mem, .strand, .queSeq, .out] .strandlineScanEnd
  ∧ Frame [.block 0x0D, .block 0x0F, .block 0x13, .free, .mem, .strand, .queSeq, .out] .strFreeze
  ∧ (∀ (tie : Bool),
      Frame [.block 0x0D, .block 0x0F, .free, .strand, .out] (.strThaw tie))
  ∧ (∀ (uncorr : Bool),
      Frame [.block 0x0D, .block 0x0F, .free, .strand, .out] (.strRead uncorr))
  ∧ Frame [.block 0x0D, .block 0x0F, .free, .strand, .out] .strLog
  ∧ Frame [.free, .strand, .out] .strFreezeExpired
      ∧ Frame [.free, .strand, .out] .strDrainSkip
  ∧ (∀ (first : Word) (count : Nat),
      Frame [.block 0x13, .free, .mem, .strand, .queSeq, .out] (.strandlineRequest first count))
  ∧ (∀ (value : Word),
      Frame [.block 0x0F, .strand, .out] (.strRlCfgWrite value))
  ∧ Frame [.backup] .trimWindow
      ∧ Frame [.backup] .clkRetentionLost
  ∧ Frame [.block 0x01, .block 0x0E, .free, .strand, .backup, .mbx, .out] .clkOscStopped
  ∧ (∀ (stopped : Bool),
      Frame [.block 0x0F, .strand, .backup, .out] (.clkOsfClear stopped))
  ∧ Frame [.block 0x0E, .free, .strand, .backup, .out] .clkSync
  ∧ Frame [.block 0x0E, .block 0x0F, .free, .strand, .backup, .out] .clkSetTicks
      ∧ Frame [.block 0x0E, .block 0x0F, .free, .strand, .backup, .out] .clkSetCal
      ∧ Frame [.block 0x0E, .block 0x0F, .free, .strand, .backup, .out] .clkRegsValidate
  ∧ Frame [.block 0x0E, .block 0x0F, .free, .strand, .out] .clkReadCal
  ∧ (∀ (i : Fin 16) (value : Word),
      Frame [.block 0x0F, .strand, .backup, .out] (.clkBregWrite i value))
  ∧ (∀ (toMain : Bool),
      Frame [.backup] (.vbakSwitch toMain))
  ∧ (∀ (mv : Nat),
      Frame [.block 0x0E, .free, .strand, .backup, .out] (.clkCellCheck mv))
  ∧ (∀ (bar2 : Bool) (off : BitVec 33) (len : Fin 257) (write : Bool) (data : List Byte) (uncorr : Option (Fin 256)),
      Frame [.block 0x03, .block 0x05, .block 0x0F, .host, .free, .mem, .strand, .exe, .dio, .pair, .out] (.hostMemoryAccess bar2 off len write data uncorr))
  ∧ Frame [.block 0x0F, .free, .strand, .mpu, .out] .mpuCommit
      ∧ Frame [.block 0x0F, .free, .strand, .mpu, .out] .mpuAbandon
      ∧ Frame [.block 0x0F, .free, .strand, .mpu, .out] .mpuRead
  ∧ Frame [.block 0x0F, .free, .strand, .out] .mpuCommitted
  ∧ Frame [.block 0x0F, .strand, .out] .mpuLockWrite
  ∧ (∀ (addr : BitVec 36),
      Frame [.block 0x0F, .free, .strand, .out] (.memEccCorrected addr))
  ∧ (∀ (addr : BitVec 36),
      Frame [.block 0x01, .block 0x02, .block 0x03, .block 0x05, .block 0x08, .block 0x09, .block 0x0A, .block 0x0C, .block 0x0F, .block 0x13, .free, .strand, .backup, .tides, .seqs, .exe, .loop, .dio, .saf, .pair, .can, .sup, .mbx, .out] (.memEccUncorr addr))
  ∧ (∀ (master : Fin 10) (m : Fin 24) (word : Word),
      Frame [.block 0x0F, .block 0x10, .free, .strand, .mbx, .out] (.mbxSend master m word))
  ∧ (∀ (master : Fin 10) (m : Fin 24),
      Frame [.block 0x0F, .host, .free, .strand, .mbx, .out] (.mbxRecv master m))
  ∧ (∀ (master : Fin 10) (m : Fin 24) (bits : Word),
      Frame [.block 0x03, .block 0x0F, .block 0x10, .free, .strand, .exe, .mbx, .out] (.mbxDoorbellRing master m bits))
  ∧ (∀ (master : Fin 10) (m : Fin 24) (bits : Word),
      Frame [.block 0x0F, .free, .strand, .mbx, .out] (.mbxDoorbellTake master m bits))
  ∧ (∀ (master : Fin 10) (m : Fin 24) (code : BitVec 16),
      Frame [.block 0x01, .block 0x02, .block 0x03, .block 0x05, .block 0x08, .block 0x09, .block 0x0A, .block 0x0C, .block 0x0F, .block 0x10, .free, .strand, .backup, .tides, .seqs, .exe, .loop, .dio, .saf, .pair, .can, .sup, .mbx, .out] (.mbxAckWrite master m code))
  ∧ (∀ (master : Fin 10) (m : Fin 24),
      Frame [.block 0x01, .block 0x02, .block 0x03, .block 0x05, .block 0x08, .block 0x09, .block 0x0A, .block 0x0C, .block 0x0F, .host, .free, .strand, .backup, .tides, .seqs, .exe, .loop, .dio, .saf, .pair, .can, .sup, .mbx, .out] (.mbxAckRead master m))
  ∧ (∀ (m : Fin 24) (value : Word),
      Frame [.block 0x0F, .block 0x10, .free, .strand, .out] (.mbxBindWrite m value))
  ∧ Frame [.block 0x0F, .block 0x10, .strand, .out] .mbxBindLock
  ∧ (∀ (master : Fin 10) (i : Fin 64),
      Frame [.block 0x0F, .host, .strand, .mbx, .out] (.mbxLockRead master i))
  ∧ (∀ (master : Fin 10) (i : Fin 64) (value : Word),
      Frame [.block 0x0F, .free, .strand, .mbx, .out] (.mbxLockWrite master i value))
  ∧ (∀ (high : Bool) (mask : Word),
      Frame [.block 0x0F, .free, .strand, .mbx, .out] (.mbxLockForce high mask))
  ∧ (∀ (high : Bool) (value : Word),
      Frame [.block 0x0F, .block 0x13, .free, .strand, .out] (.queEnable high value))
  ∧ (∀ (q : Fin 64) (index : BitVec 16),
      Frame [.block 0x0F, .block 0x13, .free, .strand, .out] (.queHeadWrite q index)
      ∧ Frame [.block 0x0F, .block 0x13, .free, .strand, .out] (.queTailWrite q index))
  ∧ (∀ (target : Byte) (confirm : Byte),
      Frame [.block 0x0F, .block 0x11, .free, .strand, .lcy, .out] (.lcyTransition target confirm))
  ∧ (∀ (slot : Fin 2),
      Frame [.block 0x0F, .block 0x11, .free, .strand, .lcy, .out] (.lcyRevokeKey slot))
  ∧ Frame [.block 0x0F, .block 0x11, .free, .strand, .out] .lcyDbgClose
      ∧ Frame [.block 0x0F, .block 0x11, .free, .strand, .out] .lcyNewNonce
  ∧ Frame [.blocks, .master, .host, .time, .free, .mem, .strand, .backup, .tides, .tideTable, .seqs, .exe, .loop, .dio, .rfx, .ana, .saf, .triad, .pair, .net, .can, .lcy, .fwu, .sup, .mpu, .mbx, .queSeq, .out] .lcyStateChanged
  ∧ (∀ (uid : DWord) (good : Bool) (k0 : Option (BitVec 384)) (k1 : Option (BitVec 384)),
      Frame [.block 0x11, .block 0x13, .free, .mem, .strand, .lcy, .queSeq, .out] (.keyPackage uid good k0 k1))
  ∧ (∀ (uid : DWord) (nonce : DWord) (good : Bool),
      Frame [.block 0x11, .block 0x13, .free, .mem, .strand, .lcy, .queSeq, .out] (.returnAuthorisation uid nonce good))
  ∧ (∀ (token : Word),
      Frame [.block 0x0F, .block 0x11, .strand, .lcy, .out] (.lcyDbgTokenWrite token))
  ∧ (∀ (value : Word) (tie : Bool),
      Frame [.block 0x11, .free, .strand, .lcy, .out] (.dbgAuth value tie))
  ∧ Frame [.block 0x11, .lcy, .out] .dbgTokenExpiry
  ∧ Frame [.block 0x11, .free, .strand, .out] .dbgSessionExpiry
  ∧ (∀ (write : Bool) (addr : BitVec 36) (len : Fin 257) (data : List Byte),
      Frame [.blocks, .master, .host, .time, .free, .mem, .strand, .backup, .tides, .tideTable, .seqs, .exe, .loop, .dio, .rfx, .ana, .saf, .triad, .pair, .net, .can, .lcy, .fwu, .sup, .mpu, .mbx, .queSeq, .out] (.debugAccess write addr len data))
  ∧ (∀ (inst : ScanInst),
      Frame [.block 0x11, .free, .strand, .lcy, .out] (.scanInstruction inst))
  ∧ Frame [.block 0x0F, .block 0x12, .free, .mem, .strand, .fwu, .out] .fwuProgram
  ∧ (∀ (good : Bool),
      Frame [.block 0x0F, .block 0x12, .free, .strand, .fwu, .out] (.fwuVerify good))
  ∧ (∀ (full : Bool),
      Frame [.blocks, .master, .host, .time, .free, .strand, .tides, .tideTable, .seqs, .exe, .loop, .dio, .rfx, .ana, .saf, .triad, .pair, .net, .can, .lcy, .fwu, .sup, .mpu, .mbx, .queSeq, .out] (.fwuActivate full))
  ∧ Frame [.blocks, .master, .host, .time, .free, .strand, .tides, .tideTable, .seqs, .exe, .loop, .dio, .rfx, .ana, .saf, .triad, .pair, .net, .can, .lcy, .fwu, .sup, .mpu, .mbx, .queSeq, .out] .fwuReject
      ∧ Frame [.blocks, .master, .host, .time, .free, .strand, .tides, .tideTable, .seqs, .exe, .loop, .dio, .rfx, .ana, .saf, .triad, .pair, .net, .can, .lcy, .fwu, .sup, .mpu, .mbx, .queSeq, .out] .hostRst
      ∧ Frame [.blocks, .master, .host, .time, .free, .strand, .tides, .tideTable, .seqs, .exe, .loop, .dio, .rfx, .ana, .saf, .triad, .pair, .net, .can, .lcy, .fwu, .sup, .mpu, .mbx, .queSeq, .out] .supWatchdog
      ∧ Frame [.blocks, .master, .host, .time, .free, .strand, .tides, .tideTable, .seqs, .exe, .loop, .dio, .rfx, .ana, .saf, .triad, .pair, .net, .can, .lcy, .fwu, .sup, .mpu, .mbx, .queSeq, .out] .reseated
  ∧ Frame [.block 0x0F, .block 0x12, .free, .strand, .fwu, .out] .fwuAbort
  ∧ Frame [.block 0x12, .block 0x13, .free, .mem, .strand, .fwu, .queSeq, .out] .firmwareItem
  ∧ (∀ (copy : CfgCopy),
      Frame [.block 0x11, .block 0x12, .block 0x13, .free, .mem, .strand, .fwu, .queSeq, .out] (.configStoreWrite copy))
  ∧ (∀ (image : Option Image) (signed : Signed),
      Frame [.block 0x12, .block 0x13, .free, .mem, .strand, .fwu, .queSeq, .out] (.programStoreWrite image signed))
  ∧ Frame [.block 0x12, .free, .strand, .fwu, .out] .fwuPauseStart
      ∧ Frame [.block 0x12, .free, .strand, .fwu, .out] .fwuHealthOk
  ∧ Frame [.block 0x03, .block 0x05, .block 0x12, .free, .strand, .exe, .dio, .fwu, .mbx, .out] .fwuActivated
  ∧ (∀ (tie : Bool),
      Frame [.blocks, .master, .host, .time, .free, .strand, .tides, .tideTable, .seqs, .exe, .loop, .dio, .rfx, .ana, .saf, .triad, .pair, .net, .can, .lcy, .fwu, .sup, .mpu, .mbx, .queSeq, .out] (.fwuTrialExpiry tie))
  ∧ Frame [.blocks, .master, .host, .time, .free, .mem, .strand, .tides, .tideTable, .seqs, .exe, .loop, .dio, .rfx, .ana, .saf, .triad, .pair, .net, .can, .lcy, .fwu, .sup, .mpu, .mbx, .queSeq, .out] .powerCmdOff
      ∧ Frame [.blocks, .master, .host, .time, .free, .mem, .strand, .tides, .tideTable, .seqs, .exe, .loop, .dio, .rfx, .ana, .saf, .triad, .pair, .net, .can, .lcy, .fwu, .sup, .mpu, .mbx, .queSeq, .out] .powerCmdQuiet
      ∧ Frame [.blocks, .master, .host, .time, .free, .mem, .strand, .tides, .tideTable, .seqs, .exe, .loop, .dio, .rfx, .ana, .saf, .triad, .pair, .net, .can, .lcy, .fwu, .sup, .mpu, .mbx, .queSeq, .out] .powerCmdReady
      ∧ Frame [.blocks, .master, .host, .time, .free, .mem, .strand, .tides, .tideTable, .seqs, .exe, .loop, .dio, .rfx, .ana, .saf, .triad, .pair, .net, .can, .lcy, .fwu, .sup, .mpu, .mbx, .queSeq, .out] .powerCmdRun
      ∧ Frame [.blocks, .master, .host, .time, .free, .mem, .strand, .tides, .tideTable, .seqs, .exe, .loop, .dio, .rfx, .ana, .saf, .triad, .pair, .net, .can, .lcy, .fwu, .sup, .mpu, .mbx, .queSeq, .out] .powerCmdHold
  ∧ (∀ (bist : TriadBist) (prog : Bool),
      Frame [.blocks, .master, .host, .time, .free, .mem, .strand, .backup, .tides, .tideTable, .seqs, .exe, .loop, .dio, .rfx, .ana, .saf, .triad, .pair, .net, .can, .lcy, .fwu, .sup, .mpu, .mbx, .queSeq, .out] (.readyRestartDone bist prog))
  ∧ (∀ (confirm : Byte),
      Frame [.blocks, .master, .host, .time, .free, .strand, .tides, .tideTable, .seqs, .exe, .loop, .dio, .rfx, .ana, .saf, .triad, .pair, .net, .can, .lcy, .fwu, .sup, .mpu, .mbx, .queSeq, .out] (.supReset confirm))
  ∧ (∀ (target : Fin 16) (pass : Bool),
      Frame [.block 0x01, .block 0x0F, .free, .strand, .sup, .out] (.supRecover target pass))
  ∧ Frame [.block 0x00, .block 0x09, .block 0x11, .time, .free, .mem, .strand, .backup, .triad, .lcy, .fwu, .sup, .mpu, .out] .resetRelease
  ∧ (∀ (runOk : Bool) (otherOk : Bool) (queues : List (Fin 64 × Word × Word × Word)),
      Frame [.block 0x00, .block 0x01, .block 0x03, .block 0x0E, .block 0x10, .block 0x12, .block 0x13, .free, .strand, .backup, .fwu, .sup, .mbx, .out] (.supStart runOk otherOk queues))
  ∧ (∀ (p : Fin 8) (b : Bool) (level : Bool),
      Frame [.saf] (.breakwaterContactChange p b level))
  ∧ Frame [.saf, .sup] .authTakenByOtherSide
  ∧ (∀ (kind : Fin 13) (q : Word),
      Frame [.pair] (.causewayRecordAck kind q))
  ∧ (∀ (port : Bool) (pdelay : Bool) (sec : BitVec 48) (ns : Word) (corr : Int),
      Frame [.block 0x02, .block 0x0B, .time, .free, .strand, .tides, .net, .out] (.ptpFollowUp port pdelay sec ns corr))
  ∧ (∀ (c : Fin 4) (crc : Bool) (eight : Bool),
      Frame [.block 0x0C, .free, .strand, .out] (.canRxError c crc eight))
  ∧ (∀ (ir1 : Bool) (err : Bool) (frame : List Byte),
      Frame [.block 0x13, .free, .mem, .strand, .queSeq, .out] (.acyclicRingAnswer ir1 err frame))
  ∧ (∀ (k : Fin 4),
      Frame [.block 0x13, .free, .mem, .strand, .queSeq, .out] (.unusedBulkQueueItem k))

/-- A command of one tide, sequencer, task, loop slot, trace buffer, DIO channel or bank, analog channel or bank, safety
output, connection, station, message buffer or mailbox leaves every other one of its kind; an instruction that works on
registers changes nothing of the triad but its own task. (03_tide_tracking.md, 04_tide_tables_and_step_tables.md,
05_execution_model.md, 06_instruction_set.md, 07_loop_engine.md, 08_digital_field_io_and_reflex.md,
09_analog_loops_and_hart.md, 10_safety_channels.md, 11_safety_frames.md, 15_can_fd.md,
17_memory_protection_and_mailboxes.md) -/
def Obligations.OtherInstancesStay : Prop := ∀ (s : State),
  (∀ (n : Fin 8) (o : Fin 8), o.val ≠ n.val →
    Completes (.tideEnable n) s (fun t => tide o t = tide o s)
    ∧ Completes (.tideDisable n) s (fun t => tide o t = tide o s)
    ∧ Completes (.tideResync n) s (fun t => tide o t = tide o s)
    ∧ Completes (.tideMiss n) s (fun t => tide o t = tide o s)
    ∧ Completes (.indexPulse n) s (fun t => tide o t = tide o s)
    ∧ Completes (.tideMeasurement n) s (fun t => tide o t = tide o s)
    ∧ Completes (.trackerUpdate n) s (fun t => tide o t = tide o s))
  ∧ (∀ (n : Fin 8) (positive : Bool) (peakMv : Nat) (ageNs : Nat) (tie : Bool) (o : Fin 8), o.val ≠ n.val →
    Completes (.mainsCrossing n positive peakMv ageNs tie) s (fun t => tide o t = tide o s))
  ∧ (∀ (n : Fin 8) (both : Bool) (forward : Bool) (o : Fin 8), o.val ≠ n.val →
    Completes (.encoderEdge n both forward) s (fun t => tide o t = tide o s))
  ∧ (∀ (n : Fin 8) (forward : Bool) (o : Fin 8), o.val ≠ n.val →
    Completes (.stepEdge n forward) s (fun t => tide o t = tide o s))
  ∧ (∀ (n : Fin 8) (tie : Bool) (o : Fin 8), o.val ≠ n.val →
    Completes (.tideLost n tie) s (fun t => tide o t = tide o s))
  ∧ (∀ (q : Fin 32) (o : Fin 32), o.val ≠ q.val →
    Completes (.sqEvaluation q) s (fun t => seq o t = seq o s)
    ∧ Completes (.sqDurationElapsed q) s (fun t => seq o t = seq o s)
    ∧ Completes (.sqTimeout q) s (fun t => seq o t = seq o s)
    ∧ Completes (.sqHold q) s (fun t => seq o t = seq o s)
    ∧ Completes (.sqResume q) s (fun t => seq o t = seq o s)
    ∧ Completes (.sqAbort q) s (fun t => seq o t = seq o s))
  ∧ (∀ (q : Fin 32) (step : Fin 1024) (o : Fin 32), o.val ≠ q.val →
    Completes (.sqStart q step) s (fun t => seq o t = seq o s)
    ∧ Completes (.sqJump q step) s (fun t => seq o t = seq o s))
  ∧ (∀ (q : Fin 32) (sig : Byte) (o : Fin 32), o.val ≠ q.val →
    Completes (.sqSignalWrite q sig) s (fun t => seq o t = seq o s))
  ∧ (∀ (q : Fin 32) (rec : SeqMirror) (o : Fin 32), o.val ≠ q.val →
    Completes (.sqMirrorRecord q rec) s (fun t => seq o t = seq o s))
  ∧ (∀ (t : Fin 8) (forward : Bool) (o : Fin 24), o.val ≠ t.val →
    Completes (.taskRelease t forward) s (fun t => task o t = task o s))
  ∧ (∀ (t : Fin 8) (o : Fin 24), o.val ≠ t.val →
    Completes (.taskTimerRelease t) s (fun t => task o t = task o s))
  ∧ (∀ (t : Fin 24) (o : Fin 24), o.val ≠ t.val →
    Completes (.inputLatchComplete t) s (fun t => task o t = task o s))
  ∧ (∀ (e : Fin 16) (o : Fin 24), o.val ≠ 8 + e.val →
    Completes (.eventTaskSignal e) s (fun t => task o t = task o s)
    ∧ Completes (.eventTaskRelease e) s (fun t => task o t = task o s))
  ∧ (∀ (k : Fin 2048) (o : Fin 2048), o.val ≠ k.val →
    Completes (.loopLost k) s (fun t => slot o t = slot o s)
    ∧ Completes (.loopFrozen k) s (fun t => slot o t = slot o s)
    ∧ Completes (.loopImplausible k) s (fun t => slot o t = slot o s)
    ∧ Completes (.loopRecovered k) s (fun t => slot o t = slot o s))
  ∧ (∀ (k : Fin 2048) (rec : LoopMirror) (o : Fin 2048), o.val ≠ k.val →
    Completes (.loopMirrorRecord k rec) s (fun t => slot o t = slot o s))
  ∧ (∀ (b : Fin 32) (o : Fin 32), o.val ≠ b.val →
    Completes (.traceArm b) s (fun t => traceBuf o t = traceBuf o s)
    ∧ Completes (.traceStop b) s (fun t => traceBuf o t = traceBuf o s)
    ∧ Completes (.traceTrigger b) s (fun t => traceBuf o t = traceBuf o s)
    ∧ Completes (.traceClear b) s (fun t => traceBuf o t = traceBuf o s)
    ∧ Completes (.traceDone b) s (fun t => traceBuf o t = traceBuf o s))
  ∧ (∀ (n : Fin 32) (o : Fin 32), o.val ≠ n.val →
    Completes (.dioStuckExternal n) s (fun t => dioCh o t = dioCh o s)
    ∧ Completes (.dioOpenLoad n) s (fun t => dioCh o t = dioCh o s)
    ∧ Completes (.dioFaultClear n) s (fun t => dioCh o t = dioCh o s))
  ∧ (∀ (k : Fin 4) (mv : BitVec 16) (o : Fin 4), o.val ≠ k.val →
    Completes (.dioBankWarn k mv) s (fun t => dioBank o t = dioBank o s)
    ∧ Completes (.dioBankWarnClear k mv) s (fun t => dioBank o t = dioBank o s)
    ∧ Completes (.dioBankLow k mv) s (fun t => dioBank o t = dioBank o s)
    ∧ Completes (.dioBankLowClear k mv) s (fun t => dioBank o t = dioBank o s))
  ∧ (∀ (k : Fin 4) (tie : Bool) (o : Fin 4), o.val ≠ k.val →
    Completes (.dioBankLatchoff k tie) s (fun t => dioBank o t = dioBank o s))
  ∧ (∀ (k : Fin 4) (o : Fin 4), o.val ≠ k.val →
    Completes (.dioBankOvercurrent k) s (fun t => dioBank o t = dioBank o s)
    ∧ Completes (.dioBankReenable k) s (fun t => dioBank o t = dioBank o s)
    ∧ Completes (.dioKeepaliveExpiry k) s (fun t => dioBank o t = dioBank o s)
    ∧ Completes (.dioStageSilent k) s (fun t => dioBank o t = dioBank o s))
  ∧ (∀ (k : Fin 4) (pass : Bool) (o : Fin 4), o.val ≠ k.val →
    Completes (.dioBankRecover k pass) s (fun t => dioBank o t = dioBank o s))
  ∧ (∀ (k : Fin 4) (en : Bool) (o : Fin 4), o.val ≠ k.val →
    Completes (.dioBankEnable k en) s (fun t => dioBank o t = dioBank o s))
  ∧ (∀ (n : Fin 16) (o : Fin 16), o.val ≠ n.val →
    Completes (.anaOutputFaultClear n) s (fun t => anCh o t = anCh o s)
    ∧ Completes (.hartPoll n) s (fun t => anCh o t = anCh o s)
    ∧ Completes (.hartRespTimeout n) s (fun t => anCh o t = anCh o s))
  ∧ (∀ (n : Fin 16) (mv : BitVec 16) (tie : Bool) (o : Fin 16), o.val ≠ n.val →
    Completes (.anaCompliance n mv tie) s (fun t => anCh o t = anCh o s)
    ∧ Completes (.anaComplianceClear n mv tie) s (fun t => anCh o t = anCh o s))
  ∧ (∀ (n : Fin 16) (good : Bool) (tie : Bool) (resp : Byte) (dev : Byte) (vars : List Word) (data : List Byte) (o : Fin 16), o.val ≠ n.val →
    Completes (.hartResponse n good tie resp dev vars data) s (fun t => anCh o t = anCh o s))
  ∧ (∀ (n : Fin 16) (dev : Byte) (vars : List Word) (o : Fin 16), o.val ≠ n.val →
    Completes (.hartBurstFrame n dev vars) s (fun t => anCh o t = anCh o s))
  ∧ (∀ (k : Fin 4) (o : Fin 4), o.val ≠ k.val →
    Completes (.anaKeepaliveExpiry k) s (fun t => anBank o t = anBank o s)
    ∧ Completes (.anaStageSilent k) s (fun t => anBank o t = anBank o s)
    ∧ Completes (.anaBankIsolated k) s (fun t => anBank o t = anBank o s))
  ∧ (∀ (k : Fin 4) (pass : Bool) (o : Fin 4), o.val ≠ k.val →
    Completes (.anaBankRecover k pass) s (fun t => anBank o t = anBank o s))
  ∧ (∀ (n : Fin 8) (hs : Bool) (o : Fin 8), o.val ≠ n.val →
    Completes (.sqTestStart n hs) s (fun t => sq o t = sq o s))
  ∧ (∀ (n : Fin 8) (o : Fin 8), o.val ≠ n.val →
    Completes (.sqTestConfirm n) s (fun t => sq o t = sq o s)
    ∧ Completes (.safTestOverdue n) s (fun t => sq o t = sq o s)
    ∧ Completes (.safSqOvercurrent n) s (fun t => sq o t = sq o s)
    ∧ Completes (.safSqDisagree n) s (fun t => sq o t = sq o s))
  ∧ (∀ (n : Fin 8) (tie : Bool) (o : Fin 8), o.val ≠ n.val →
    Completes (.sqTestExpiry n tie) s (fun t => sq o t = sq o s))
  ∧ (∀ (i : Fin 16) (o : Fin 32), o.val ≠ i.val →
    Completes (.consumerOpenRepeat i) s (fun t => conn o t = conn o s))
  ∧ (∀ (i : Fin 16) (tie : Bool) (o : Fin 32), o.val ≠ i.val →
    Completes (.safConnWdog i tie) s (fun t => conn o t = conn o s)
    ∧ Completes (.safConnAckTimeout i tie) s (fun t => conn o t = conn o s))
  ∧ (∀ (st : Fin 64) (tid : BitVec 16) (ir0 : Bool) (ir1 : Bool) (vals : List (Tag × DWord)) (tie : Bool) (o : Fin 64), o.val ≠ st.val →
    Completes (.stationAnswer st tid ir0 ir1 vals tie) s (fun t => station o t = station o s))
  ∧ (∀ (c : Fin 4) (b : Fin 64) (word : Fin 32) (value : Word) (o : Fin 64), o.val ≠ b.val →
    Completes (.canBufferWrite c b word value) s (fun t => canBuf c o t = canBuf c o s))
  ∧ (∀ (c : Fin 4) (b : Fin 64) (tie : Bool) (stamp : DWord) (o : Fin 64), o.val ≠ b.val →
    Completes (.canTxTimeout c b tie stamp) s (fun t => canBuf c o t = canBuf c o s))
  ∧ (∀ (c : Fin 4) (b : Fin 64) (tie : Bool) (o : Fin 64), o.val ≠ b.val →
    Completes (.canRxSilent c b tie) s (fun t => canBuf c o t = canBuf c o s)
    ∧ Completes (.canRelease c b tie) s (fun t => canBuf c o t = canBuf c o s))
  ∧ (∀ (c : Fin 4) (b : Fin 64) (o : Fin 64), o.val ≠ b.val →
    Completes (.canRequest c b) s (fun t => canBuf c o t = canBuf c o s)
    ∧ Completes (.canClearClash c b) s (fun t => canBuf c o t = canBuf c o s))
  ∧ (∀ (c : Fin 4) (b : Fin 64) (begun : Bool) (o : Fin 64), o.val ≠ b.val →
    Completes (.canCancel c b begun) s (fun t => canBuf c o t = canBuf c o s))
  ∧ (∀ (master : Fin 10) (m : Fin 24) (word : Word) (o : Fin 24), o.val ≠ m.val →
    Completes (.mbxSend master m word) s (fun t => mbx o t = mbx o s))
  ∧ (∀ (master : Fin 10) (m : Fin 24) (o : Fin 24), o.val ≠ m.val →
    Completes (.mbxRecv master m) s (fun t => mbx o t = mbx o s)
    ∧ Completes (.mbxAckRead master m) s (fun t => mbx o t = mbx o s))
  ∧ (∀ (master : Fin 10) (m : Fin 24) (bits : Word) (o : Fin 24), o.val ≠ m.val →
    Completes (.mbxDoorbellRing master m bits) s (fun t => mbx o t = mbx o s)
    ∧ Completes (.mbxDoorbellTake master m bits) s (fun t => mbx o t = mbx o s))
  ∧ (∀ (master : Fin 10) (m : Fin 24) (code : BitVec 16) (o : Fin 24), o.val ≠ m.val →
    Completes (.mbxAckWrite master m code) s (fun t => mbx o t = mbx o s))
  ∧ (∀ (n o : Fin 24), kqRuns n s = true → o ≠ n →
      (∀ (w32 : Bool) (rd : Fin 64) (ra : Fin 64) (rb : Fin 64), Completes (.add w32 rd ra rb) s (KqStays n o s)
      ∧ Completes (.sub w32 rd ra rb) s (KqStays n o s)
      ∧ Completes (.mul w32 rd ra rb) s (KqStays n o s)
      ∧ Completes (.mulh w32 rd ra rb) s (KqStays n o s)
      ∧ Completes (.div w32 rd ra rb) s (KqStays n o s)
      ∧ Completes (.divu w32 rd ra rb) s (KqStays n o s)
      ∧ Completes (.rem w32 rd ra rb) s (KqStays n o s)
      ∧ Completes (.remu w32 rd ra rb) s (KqStays n o s)
      ∧ Completes (.min w32 rd ra rb) s (KqStays n o s)
      ∧ Completes (.max w32 rd ra rb) s (KqStays n o s)
      ∧ Completes (.minu w32 rd ra rb) s (KqStays n o s)
      ∧ Completes (.maxu w32 rd ra rb) s (KqStays n o s)
      ∧ Completes (.selz w32 rd ra rb) s (KqStays n o s)
      ∧ Completes (.and w32 rd ra rb) s (KqStays n o s)
      ∧ Completes (.or w32 rd ra rb) s (KqStays n o s)
      ∧ Completes (.xor w32 rd ra rb) s (KqStays n o s)
      ∧ Completes (.andn w32 rd ra rb) s (KqStays n o s)
      ∧ Completes (.shl w32 rd ra rb) s (KqStays n o s)
      ∧ Completes (.shr w32 rd ra rb) s (KqStays n o s)
      ∧ Completes (.sar w32 rd ra rb) s (KqStays n o s)
      ∧ Completes (.rol w32 rd ra rb) s (KqStays n o s)
      ∧ Completes (.ror w32 rd ra rb) s (KqStays n o s)
      ∧ Completes (.bext w32 rd ra rb) s (KqStays n o s)
      ∧ Completes (.bset w32 rd ra rb) s (KqStays n o s)
      ∧ Completes (.bclr w32 rd ra rb) s (KqStays n o s))
      ∧ (∀ (w32 : Bool) (rd : Fin 64) (ra : Fin 64), Completes (.neg w32 rd ra) s (KqStays n o s)
      ∧ Completes (.abs w32 rd ra) s (KqStays n o s)
      ∧ Completes (.mov w32 rd ra) s (KqStays n o s)
      ∧ Completes (.not w32 rd ra) s (KqStays n o s)
      ∧ Completes (.popc w32 rd ra) s (KqStays n o s)
      ∧ Completes (.clz w32 rd ra) s (KqStays n o s))
      ∧ (∀ (f32 : Bool) (rd : Fin 64) (ra : Fin 64) (rb : Fin 64), Completes (.fadd f32 rd ra rb) s (KqStays n o s)
      ∧ Completes (.fsub f32 rd ra rb) s (KqStays n o s)
      ∧ Completes (.fmul f32 rd ra rb) s (KqStays n o s)
      ∧ Completes (.fdiv f32 rd ra rb) s (KqStays n o s)
      ∧ Completes (.fmin f32 rd ra rb) s (KqStays n o s)
      ∧ Completes (.fmax f32 rd ra rb) s (KqStays n o s))
      ∧ (∀ (f32 : Bool) (rd : Fin 64) (ra : Fin 64), Completes (.fsqrt f32 rd ra) s (KqStays n o s)
      ∧ Completes (.fneg f32 rd ra) s (KqStays n o s)
      ∧ Completes (.fabs f32 rd ra) s (KqStays n o s))
      ∧ (∀ (ty : CmpType) (ra : Fin 64) (rb : Fin 64), Completes (.cmp ty ra rb) s (KqStays n o s))
      ∧ (∀ (ty : CmpType) (c : CmpCond) (rd : Fin 64) (ra : Fin 64) (rb : Fin 64), Completes (.cset ty c rd ra rb) s (KqStays n o s))
      ∧ (∀ (rd : Fin 64) (ra : Fin 64), Completes (.cvtI64F64 rd ra) s (KqStays n o s)
      ∧ Completes (.cvtI64F32 rd ra) s (KqStays n o s)
      ∧ Completes (.cvtI32F32 rd ra) s (KqStays n o s)
      ∧ Completes (.cvtI32F64 rd ra) s (KqStays n o s)
      ∧ Completes (.trnF64I64 rd ra) s (KqStays n o s)
      ∧ Completes (.rndF64I64 rd ra) s (KqStays n o s)
      ∧ Completes (.trnF32I32 rd ra) s (KqStays n o s)
      ∧ Completes (.rndF32I32 rd ra) s (KqStays n o s)
      ∧ Completes (.cvtF32F64 rd ra) s (KqStays n o s)
      ∧ Completes (.cvtF64F32 rd ra) s (KqStays n o s)
      ∧ Completes (.trnF64I32 rd ra) s (KqStays n o s)
      ∧ Completes (.rndF64I32 rd ra) s (KqStays n o s)
      ∧ Completes (.sext16 rd ra) s (KqStays n o s)
      ∧ Completes (.sext32 rd ra) s (KqStays n o s)
      ∧ Completes (.zext32 rd ra) s (KqStays n o s)
      ∧ Completes (.cvtU64F64 rd ra) s (KqStays n o s))
      ∧ (∀ (rd : Fin 64) (imm : BitVec 16), Completes (.li rd imm) s (KqStays n o s)
      ∧ Completes (.liu rd imm) s (KqStays n o s)
      ∧ Completes (.ins0 rd imm) s (KqStays n o s)
      ∧ Completes (.ins1 rd imm) s (KqStays n o s)
      ∧ Completes (.ins2 rd imm) s (KqStays n o s)
      ∧ Completes (.ins3 rd imm) s (KqStays n o s)
      ∧ Completes (.addi rd imm) s (KqStays n o s)
      ∧ Completes (.addi32 rd imm) s (KqStays n o s)
      ∧ Completes (.andi rd imm) s (KqStays n o s)
      ∧ Completes (.ori rd imm) s (KqStays n o s)
      ∧ Completes (.xori rd imm) s (KqStays n o s)
      ∧ Completes (.cmpi rd imm) s (KqStays n o s)
      ∧ Completes (.cmpiu rd imm) s (KqStays n o s)
      ∧ Completes (.muli rd imm) s (KqStays n o s))
      ∧ (∀ (rd : Fin 64) (by_ : Fin 64), Completes (.shli rd by_) s (KqStays n o s)
      ∧ Completes (.shri rd by_) s (KqStays n o s)
      ∧ Completes (.sari rd by_) s (KqStays n o s))
      ∧ (∀ (rd : Fin 64) (i : Fin 4096), Completes (.cld rd i) s (KqStays n o s)))

/-- Each command that stores to memory leaves every byte outside the stored ones as it was: trace records, queue slots,
records of the Strandline ring, the data of an image, the item of a firmware or program store, and the partitions that
an erasure names. (R300, R566, R601, R603, R628, R630, 07_loop_engine.md, 16_strandline_and_clock.md,
17_memory_protection_and_mailboxes.md, 18_lifecycle_debug_and_update.md) -/
def Obligations.MemoryFrames : Prop := ∀ (s : State) (a : BitVec 36) (k : Fin 2048) (port ir1 err good sound legal : Bool) (src : BitVec 48)
    (sq : Option (BitVec 16)) (kind : PlantKind) (dest : PlantDest) (frame : List Byte) (c : Fin 4) (f : CanFrame) (first : Word) (count : Nat)
    (u n : DWord) (k0 k1 : Option (BitVec 384)) (copy : CfgCopy) (img : Option Image) (m : Image) (g : Signed) (q : Word) (gs : List Granule) (b : Fin 32),
  ((List.range 32).all (fun i => !inRange a.toNat (traceBase i + fld (Fld.TRBb_STATUS_WR_INDEX i) s * traceLen i s)
      (traceBase i + fld (Fld.TRBb_STATUS_WR_INDEX i) s * traceLen i s + traceLen i s - 1)) = true →
    Completes (.loopEvaluation k) s (fun t => mget a.toNat t = mget a.toNat s))
  ∧ (inRange a.toNat (traceBase b) (traceBase b + 262143) = false → Completes (.traceClear b) s (fun t => mget a.toNat t = mget a.toNat s))
  ∧ (inSlot (plantQueue kind) s a.toNat = false → Completes (.plantFrameReceive port src sq kind dest frame) s (fun t => mget a.toNat t = mget a.toNat s))
  ∧ (inSlot (16 + 2 * c.val) s a.toNat = false → Completes (.canFrameReceive c f) s (fun t => mget a.toNat t = mget a.toNat s))
  ∧ (inSlot 11 s a.toNat = false → Completes (.acyclicRingAnswer ir1 err frame) s (fun t => mget a.toNat t = mget a.toNat s))
  ∧ (inSlot 48 s a.toNat = false → inSlot 49 s a.toNat = false →
    (s.strand.queue.head?).any (fun r => inRange a.toNat (ringBase + 32 * ringIndex r.seq) (ringBase + 32 * ringIndex r.seq + 31)) = false →
    Completes .strandlineRingWrite s (fun t => mget a.toNat t = mget a.toNat s))
  ∧ (inQueue 48 s a.toNat = false → inQueue 49 s a.toNat = false → inRange a.toNat ringBase (ringBase + 32 * ringLen - 1) = false →
    queHead 48 s < queEntries 48 s → queHead 49 s < queEntries 49 s →
    Completes .strFreeze s (fun t => mget a.toNat t = mget a.toNat s) ∧ Completes .strThawAppendDone s (fun t => mget a.toNat t = mget a.toNat s)
    ∧ Completes .strandlineScanEnd s (fun t => mget a.toNat t = mget a.toNat s))
  ∧ (inQueue 50 s a.toNat = false → queHead 50 s < queEntries 50 s → Completes (.strandlineRequest first count) s (fun t => mget a.toNat t = mget a.toNat s))
  ∧ (inSlot 43 s a.toNat = false → Completes (.keyPackage u good k0 k1) s (fun t => mget a.toNat t = mget a.toNat s)
    ∧ Completes (.returnAuthorisation u n good) s (fun t => mget a.toNat t = mget a.toNat s))
  ∧ (inSlot 41 s a.toNat = false → Completes (.configStoreWrite copy) s (fun t => mget a.toNat t = mget a.toNat s))
  ∧ (inSlot 42 s a.toNat = false → (a.toNat < 0x328000000 + itemOffset 34 s ∨ 0x328000000 + itemOffset 34 s + (itemData 34 s).length ≤ a.toNat) →
    Completes (.programStoreWrite img g) s (fun t => mget a.toNat t = mget a.toNat s))
  ∧ (inSlot 40 s a.toNat = false → (a.toNat < slotBase (otherSlot s) + itemOffset 32 s ∨ slotBase (otherSlot s) + itemOffset 32 s + (itemData 32 s).length ≤ a.toNat) →
    Completes .firmwareItem s (fun t => mget a.toNat t = mget a.toNat s))
  ∧ (inSlot (44 + c.val) s a.toNat = false → Completes (.unusedBulkQueueItem c) s (fun t => mget a.toNat t = mget a.toNat s))
  ∧ ((a.toNat < dataBase s ∨ dataBase s + (s.exe.image.map (·.dataLen)).getD 0 ≤ a.toNat) → Completes (.stateRecord q gs) s (fun t => mget a.toNat t = mget a.toNat s))
  ∧ (inRange a.toNat (if s.exe.area then 0 else 0x01000000) (if s.exe.area then 0x00FFFFFF else 0x01FFFFFF) = false →
    inRange a.toNat (if s.exe.area then 0x02000000 else 0x06000000) (if s.exe.area then 0x05FFFFFF else 0x09FFFFFF) = false →
    m.data.all (fun e => decide (e.1 < 0x04000000)) = true → Completes (.changeVerifyDone m sound legal) s (fun t => mget a.toNat t = mget a.toNat s))
  ∧ (0x200000000 ≤ a.toNat → (a.toNat < 0x320000000 ∨ 0x348000000 ≤ a.toNat) → Completes .lcyStateChanged s (fun t => mget a.toNat t = mget a.toNat s))

/-- An UNRETIRE of a core that is not retired, or of CORE 3, is refused with status 0x0B31 and retires or restores nothing;
an accepted one reports status 0x0B30 and ends that core's retirement only. (R464) -/
def Obligations.UnretireAnswers : Prop := ∀ (s : State) (core : Fin 4),
  (hostOk Reg.TRIAD_CMD .write s = true → (fld Fld.TRIAD_STATE_RETIRED s).testBit core.val = false → Completes (.triadUnretire core) s (fun t =>
      fld Fld.TRIAD_RESULT_STATUS t = 0x0B31 ∧ t.triad = s.triad))
  ∧ (hostOk Reg.TRIAD_CMD .write s = true → Completes (.triadUnretire 3) s (fun t => fld Fld.TRIAD_RESULT_STATUS t = 0x0B31 ∧ t.triad = s.triad))
  ∧ (hostOk Reg.TRIAD_CMD .write s = true → (fld Fld.TRIAD_STATE_RETIRED s).testBit core.val = true → Completes (.triadUnretire core) s (fun t =>
      fld Fld.TRIAD_RESULT_STATUS t = 0x0B30 ∧ t.triad.retired = s.triad.retired &&& ~~~(BitVec.ofNat 3 (2 ^ core.val))))
end

