-- ==== Sys2Proof/Laws/Sparse.lean ====
section
/-! SUPPORT. Laws of sparse tables: what a read finds after an update, and that every update keeps the canonical form. -/
namespace Sys2Proof.Machine.Sparse

variable {α : Type}

@[simp] theorem find_nil (k : Nat) : find ([] : List (Nat × α)) k = none := rfl

theorem find_insert (m : List (Nat × α)) (k k' : Nat) (v : α) :
    find (insert m k v) k' = if k' = k then some v else find m k' := by
  induction m with
  | nil => simp [insert, find]
  | cons e m ih =>
    obtain ⟨a, w⟩ := e
    simp only [insert]
    split
    · simp only [find]
    · split
      · subst_vars; simp only [find]; split <;> simp_all
      · simp only [find, ih]; split
        · split <;> simp_all
        · rfl

theorem find_erase (m : List (Nat × α)) (k k' : Nat) :
    find (erase m k) k' = if k' = k then none else find m k' := by
  induction m with
  | nil => simp [erase]
  | cons e m ih =>
    obtain ⟨a, w⟩ := e
    simp only [erase]
    split
    · subst_vars; rw [ih]; split <;> simp_all [find]
    · simp only [find, ih]; split
      · split <;> simp_all
      · rfl

@[simp] theorem get_nil (d : Nat → α) (k : Nat) : get d [] k = d k := rfl

/-- A read after a write. -/
theorem get_set [DecidableEq α] (d : Nat → α) (m : List (Nat × α)) (k k' : Nat) (v : α) :
    get d (set d m k v) k' = if k' = k then v else get d m k' := by
  unfold set get
  split
  · rw [find_erase]; split <;> simp_all
  · rw [find_insert]; split <;> simp_all

@[simp] theorem get_set_same [DecidableEq α] (d : Nat → α) (m : List (Nat × α)) (k : Nat) (v : α) :
    get d (set d m k v) k = v := by simp [get_set]

theorem get_set_other [DecidableEq α] (d : Nat → α) (m : List (Nat × α)) {k k' : Nat} (v : α) (h : k' ≠ k) :
    get d (set d m k v) k' = get d m k' := by simp [get_set, h]

/-- Every key of a table lies above a bound. -/
def above (lo : Option Nat) (k : Nat) : Bool := match lo with | none => true | some l => decide (l < k)

theorem wfFrom_cons [DecidableEq α] {d : Nat → α} {lo : Option Nat} {k : Nat} {v : α} {t : List (Nat × α)} :
    wfFrom d lo ((k, v) :: t) = true ↔ above lo k = true ∧ v ≠ d k ∧ wfFrom d (some k) t = true := by
  cases lo <;> simp [wfFrom, above, and_assoc]

theorem above_trans {lo : Option Nat} {a b : Nat} (h : above lo a = true) (k : a < b) : above lo b = true := by
  cases lo with
  | none => rfl
  | some l => simp only [above, decide_eq_true_eq] at *; omega

theorem wfFrom_mono [DecidableEq α] {d : Nat → α} {lo : Option Nat} {k : Nat} {m : List (Nat × α)}
    (h : wfFrom d (some k) m = true) (hk : above lo k = true) : wfFrom d lo m = true := by
  cases m with
  | nil => rfl
  | cons e m =>
    obtain ⟨a, v⟩ := e
    rw [wfFrom_cons] at *
    exact ⟨above_trans hk (by simpa [above] using h.1), h.2⟩

theorem wfFrom_erase [DecidableEq α] {d : Nat → α} (k : Nat) :
    ∀ {lo : Option Nat} {m : List (Nat × α)}, wfFrom d lo m = true → wfFrom d lo (erase m k) = true
  | _, [], h => h
  | lo, (a, v) :: m, h => by
    rw [wfFrom_cons] at h
    simp only [erase]
    split
    · exact wfFrom_mono (wfFrom_erase k h.2.2) h.1
    · exact wfFrom_cons.2 ⟨h.1, h.2.1, wfFrom_erase k h.2.2⟩

theorem wfFrom_insert [DecidableEq α] {d : Nat → α} {k : Nat} {v : α} (hv : v ≠ d k) :
    ∀ {lo : Option Nat} {m : List (Nat × α)}, wfFrom d lo m = true → above lo k = true →
      wfFrom d lo (insert m k v) = true
  | _, [], _, hk => wfFrom_cons.2 ⟨hk, hv, rfl⟩
  | lo, (a, w) :: m, h, hk => by
    rw [wfFrom_cons] at h
    simp only [insert]
    split
    · exact wfFrom_cons.2 ⟨hk, hv, wfFrom_cons.2 ⟨by simpa [above], h.2⟩⟩
    · split
      · subst_vars; exact wfFrom_cons.2 ⟨hk, hv, h.2.2⟩
      · exact wfFrom_cons.2 ⟨h.1, h.2.1, wfFrom_insert hv h.2.2 (by simp only [above, decide_eq_true_eq]; omega)⟩

/-- A write keeps the canonical form. -/
theorem wf_set [DecidableEq α] {d : Nat → α} {m : List (Nat × α)} (k : Nat) (v : α) (h : wf d m = true) :
    wf d (set d m k v) = true := by
  unfold set
  split
  · exact wfFrom_erase k h
  · exact wfFrom_insert ‹_› h rfl

/-- A table built by writes from the empty one is canonical. -/
theorem wf_foldl_set [DecidableEq α] {β : Type} {d : Nat → α} (f : β → Nat) (g : β → α) (l : List β) :
    ∀ {m : List (Nat × α)}, wf d m = true → wf d (l.foldl (fun m e => set d m (f e) (g e)) m) = true := by
  induction l with
  | nil => exact fun h => h
  | cons e l ih => exact fun h => ih (wf_set _ _ h)

/-- Dropping entries keeps the canonical form. -/
theorem wf_filter [DecidableEq α] {d : Nat → α} (p : Nat × α → Bool) :
    ∀ {lo : Option Nat} {m : List (Nat × α)}, wfFrom d lo m = true → wfFrom d lo (m.filter p) = true
  | _, [], h => h
  | lo, (a, v) :: m, h => by
    rw [wfFrom_cons] at h
    rw [List.filter_cons]
    split
    · exact wfFrom_cons.2 ⟨h.1, h.2.1, wf_filter p h.2.2⟩
    · exact wfFrom_mono (wf_filter p h.2.2) h.1

end Sys2Proof.Machine.Sparse
end

