-- ==== Sys2Proof/Laws/Only.lean ====
section
/-! SUPPORT. `Does A s t`: from `s` to `t` nothing but the listed parts changed, and canonical tables stayed canonical. It is
kept by composition; each shared operation has one lemma that adds it to what came before. -/
namespace Sys2Proof.Machine

/-- Only the listed parts changed, and canonical form was kept. -/
structure Does (A : List Part) (s t : State) : Prop where
  only : Only A s t
  canon : Canonical s → Canonical t

/-- A number for each part, for quick comparison. -/
def Part.code : Part → Nat
  | .pending => 0 | .master => 1 | .host => 2 | .blocks => 3 | .time => 4 | .free => 5 | .mem => 6 | .strand => 7 | .backup => 8
  | .tides => 9 | .tideTable => 10 | .seqs => 11 | .exe => 12 | .loop => 13 | .dio => 14 | .rfx => 15 | .ana => 16 | .saf => 17
  | .triad => 18 | .pair => 19 | .net => 20 | .can => 21 | .lcy => 22 | .fwu => 23 | .sup => 24 | .mpu => 25 | .mbx => 26
  | .queSeq => 27 | .out => 28 | .block b => 32 + b

theorem Part.code_inj {p q : Part} (h : p.code = q.code) : p = q := by
  cases p <;> cases q <;> first | rfl | (simp only [Part.code] at h; first | omega | (congr 1; omega))

/-- A number stands in a list of parts, itself or as one of the blocks. -/
def codeIn (n : Nat) : List Part → Bool
  | [] => false
  | q :: A => Nat.beq q.code n || (Nat.ble 32 n && Nat.beq q.code 3) || codeIn n A

/-- Every part of one list is listed in another. -/
def partsIn : List Part → List Part → Bool
  | [], _ => true
  | p :: B, A => codeIn p.code A && partsIn B A

theorem Part.listed_iff {p : Part} {A : List Part} :
    p.listed A = true ↔ p ∈ A ∨ ((∃ b, p = .block b) ∧ .blocks ∈ A) := by
  cases p <;> simp [Part.listed]

theorem codeIn_iff {p : Part} {A : List Part} : codeIn p.code A = true ↔ p.listed A = true := by
  rw [Part.listed_iff]
  induction A with
  | nil => simp [codeIn]
  | cons q A ih =>
    have k : (Nat.ble 32 p.code = true) ↔ ∃ b, p = .block b := by
      cases p <;> simp [Part.code]
    have e : q.code = p.code ↔ p = q := ⟨fun h => (Part.code_inj h).symm, fun h => h ▸ rfl⟩
    have z : q.code = 3 ↔ Part.blocks = q :=
      ⟨fun h => Part.code_inj (p := .blocks) h.symm, fun h => h ▸ rfl⟩
    simp only [codeIn, Bool.or_eq_true, Bool.and_eq_true, k, ih, Nat.beq_eq_true_eq, e, z, List.mem_cons]
    constructor
    · rintro ((h | h) | (h | h)) <;> simp_all
    · rintro (((h | h)) | ⟨h, (j | j)⟩) <;> simp_all

theorem partsIn_iff {B A : List Part} : partsIn B A = true ↔ ∀ p ∈ B, p.listed A = true := by
  induction B with
  | nil => simp [partsIn]
  | cons p B ih => simp [partsIn, ih, codeIn_iff]

theorem Part.listed_mono {p : Part} {A B : List Part} (h : partsIn B A = true) (hp : p.listed B = true) :
    p.listed A = true := by
  have k := partsIn_iff.1 h
  rcases Part.listed_iff.1 hp with hp | ⟨⟨b, rfl⟩, hb⟩
  · exact k p hp
  · have := Part.listed_iff.1 (k _ hb)
    simp at this
    exact Part.listed_iff.2 (Or.inr ⟨⟨b, rfl⟩, this⟩)

/-- A part whose code is in a list is listed. -/
theorem listed_code {p : Part} {C A : List Part} (h : codeIn p.code C = true) (k : partsIn C A = true) : p.listed A = true :=
  Part.listed_mono k (codeIn_iff.1 h)

theorem Part.same_refl (p : Part) (s : State) : p.same s s := by cases p <;> simp [Part.same]

theorem Part.same_trans {p : Part} {s t u : State} (h : p.same s t) (k : p.same t u) : p.same s u := by
  cases p <;> simp_all [Part.same]

theorem Does.refl (A : List Part) (s : State) : Does A s s := ⟨fun p _ => p.same_refl s, id⟩

theorem Does.step {A B : List Part} {s t u : State} (h : Does A s t) (k : Does B t u) (m : partsIn B A = true) :
    Does A s u := by
  refine ⟨fun p hp => ?_, fun c => k.canon (h.canon c)⟩
  refine Part.same_trans (h.only p hp) (k.only p ?_)
  cases e : p.listed B with
  | false => rfl
  | true => exact absurd (Part.listed_mono m e) (by simp [hp])

theorem partsIn_trans {B C A : List Part} (h : partsIn B C = true) (k : partsIn C A = true) : partsIn B A = true :=
  partsIn_iff.2 (fun p hp => Part.listed_mono k (partsIn_iff.1 h p hp))

theorem listed_trans {p : Part} {C A : List Part} (h : p.listed C = true) (k : partsIn C A = true) : p.listed A = true :=
  Part.listed_mono k h

/-- A register of block `n`. -/
theorem listed_block (n : Nat) {a : Nat} {C A : List Part} (e : a / 65536 = n) (h : codeIn (32 + n) C = true)
    (k : partsIn C A = true) : (Part.block (a / 65536)).listed A = true := by
  subst e; exact listed_code h k

/-- Any register, where every block is listed. -/
theorem listed_blocks {n : Nat} {C A : List Part} (h : codeIn 3 C = true) (k : partsIn C A = true) :
    (Part.block n).listed A = true := by
  have h := Part.listed_iff.1 (codeIn_iff (p := .blocks) (A := C) |>.1 h)
  simp at h
  exact Part.listed_mono k (Part.listed_iff.2 (Or.inr ⟨⟨n, rfl⟩, h⟩))

/-- An outcome, if it is a next state, is one that only the listed parts lead to. -/
def DoesO (A : List Part) (s : State) (o : Host.Outcome State Fault Refusal) : Prop := ∀ t, o = .next t → Does A s t

theorem next_does {A : List Part} {s t : State} (h : Does A s t) : DoesO A s (.next t) := by
  intro u e; cases e; exact h

theorem iteO_does {A : List Part} {s : State} {c : Prop} [Decidable c] {x y : Host.Outcome State Fault Refusal}
    (h : c → DoesO A s x) (k : ¬c → DoesO A s y) : DoesO A s (if c then x else y) := by
  split
  · exact h ‹_›
  · exact k ‹_›

theorem upd_pending {A : List Part} {b s : State} {v0 : List Instr} (h : Does A b s)
    (m : partsIn [.pending] A = true) :
    Does A b { s with pending := v0 } := by
  refine h.step ⟨fun p hp => ?_, fun c => c⟩ m
  cases p
  all_goals first
    | exact Bool.noConfusion hp
    | exact rfl
    | exact fun _ _ => rfl
    | exact trivial
    | exact ⟨rfl, rfl⟩
    | exact ⟨rfl, rfl, rfl⟩
    | exact ⟨rfl, rfl, rfl, rfl⟩

theorem upd_accMaster {A : List Part} {b s : State} {v0 : Nat} (h : Does A b s)
    (m : partsIn [.master] A = true) :
    Does A b { s with accMaster := v0 } := by
  refine h.step ⟨fun p hp => ?_, fun c => c⟩ m
  cases p
  all_goals first
    | exact Bool.noConfusion hp
    | exact rfl
    | exact fun _ _ => rfl
    | exact trivial
    | exact ⟨rfl, rfl⟩
    | exact ⟨rfl, rfl, rfl⟩
    | exact ⟨rfl, rfl, rfl, rfl⟩

theorem upd_hostData {A : List Part} {b s : State} {v0 : Word} (h : Does A b s)
    (m : partsIn [.host] A = true) :
    Does A b { s with hostData := v0 } := by
  refine h.step ⟨fun p hp => ?_, fun c => c⟩ m
  cases p
  all_goals first
    | exact Bool.noConfusion hp
    | exact rfl
    | exact fun _ _ => rfl
    | exact trivial
    | exact ⟨rfl, rfl⟩
    | exact ⟨rfl, rfl, rfl⟩
    | exact ⟨rfl, rfl, rfl, rfl⟩

theorem upd_hostBytes {A : List Part} {b s : State} {v0 : List Byte} (h : Does A b s)
    (m : partsIn [.host] A = true) :
    Does A b { s with hostBytes := v0 } := by
  refine h.step ⟨fun p hp => ?_, fun c => c⟩ m
  cases p
  all_goals first
    | exact Bool.noConfusion hp
    | exact rfl
    | exact fun _ _ => rfl
    | exact trivial
    | exact ⟨rfl, rfl⟩
    | exact ⟨rfl, rfl, rfl⟩
    | exact ⟨rfl, rfl, rfl, rfl⟩

theorem upd_hostBytes_freeCtr {A : List Part} {b s : State} {v0 : List Byte} {v1 : Nat} (h : Does A b s)
    (m : partsIn [.host, .free] A = true) :
    Does A b { s with hostBytes := v0, freeCtr := v1 } := by
  refine h.step ⟨fun p hp => ?_, fun c => c⟩ m
  cases p
  all_goals first
    | exact Bool.noConfusion hp
    | exact rfl
    | exact fun _ _ => rfl
    | exact trivial
    | exact ⟨rfl, rfl⟩
    | exact ⟨rfl, rfl, rfl⟩
    | exact ⟨rfl, rfl, rfl, rfl⟩

theorem upd_captured {A : List Part} {b s : State} {v0 : List (Nat × Word)} (h : Does A b s)
    (m : partsIn [.host] A = true) :
    Does A b { s with captured := v0 } := by
  refine h.step ⟨fun p hp => ?_, fun c => c⟩ m
  cases p
  all_goals first
    | exact Bool.noConfusion hp
    | exact rfl
    | exact fun _ _ => rfl
    | exact trivial
    | exact ⟨rfl, rfl⟩
    | exact ⟨rfl, rfl, rfl⟩
    | exact ⟨rfl, rfl, rfl, rfl⟩

theorem upd_regs {A : List Part} {b s : State} {v0 : List (Nat × Word)} (h : Does A b s)
    (m : partsIn [.blocks] A = true) (w : Sparse.wf regReset s.regs = true → Sparse.wf regReset v0 = true) :
    Does A b { s with regs := v0 } := by
  refine h.step ⟨fun p hp => ?_, fun c => ⟨w c.1, c.2⟩⟩ m
  cases p
  all_goals first
    | exact Bool.noConfusion hp
    | exact rfl
    | exact fun _ _ => rfl
    | exact trivial
    | exact ⟨rfl, rfl⟩
    | exact ⟨rfl, rfl, rfl⟩
    | exact ⟨rfl, rfl, rfl, rfl⟩

theorem upd_cycle {A : List Part} {b s : State} {v0 : Nat} (h : Does A b s)
    (m : partsIn [.time] A = true) :
    Does A b { s with cycle := v0 } := by
  refine h.step ⟨fun p hp => ?_, fun c => c⟩ m
  cases p
  all_goals first
    | exact Bool.noConfusion hp
    | exact rfl
    | exact fun _ _ => rfl
    | exact trivial
    | exact ⟨rfl, rfl⟩
    | exact ⟨rfl, rfl, rfl⟩
    | exact ⟨rfl, rfl, rfl, rfl⟩

theorem upd_mtime {A : List Part} {b s : State} {v0 : Nat} (h : Does A b s)
    (m : partsIn [.time] A = true) :
    Does A b { s with mtime := v0 } := by
  refine h.step ⟨fun p hp => ?_, fun c => c⟩ m
  cases p
  all_goals first
    | exact Bool.noConfusion hp
    | exact rfl
    | exact fun _ _ => rfl
    | exact trivial
    | exact ⟨rfl, rfl⟩
    | exact ⟨rfl, rfl, rfl⟩
    | exact ⟨rfl, rfl, rfl, rfl⟩

theorem upd_mtime_strand_sup {A : List Part} {b s : State} {v0 : Nat} {v1 : Strand} {v2 : Sup} (h : Does A b s)
    (m : partsIn [.time, .strand, .sup] A = true) :
    Does A b { s with mtime := v0, strand := v1, sup := v2 } := by
  refine h.step ⟨fun p hp => ?_, fun c => c⟩ m
  cases p
  all_goals first
    | exact Bool.noConfusion hp
    | exact rfl
    | exact fun _ _ => rfl
    | exact trivial
    | exact ⟨rfl, rfl⟩
    | exact ⟨rfl, rfl, rfl⟩
    | exact ⟨rfl, rfl, rfl, rfl⟩

theorem upd_mtime_net {A : List Part} {b s : State} {v0 : Nat} {v1 : Net} (h : Does A b s)
    (m : partsIn [.time, .net] A = true) :
    Does A b { s with mtime := v0, net := v1 } := by
  refine h.step ⟨fun p hp => ?_, fun c => c⟩ m
  cases p
  all_goals first
    | exact Bool.noConfusion hp
    | exact rfl
    | exact fun _ _ => rfl
    | exact trivial
    | exact ⟨rfl, rfl⟩
    | exact ⟨rfl, rfl, rfl⟩
    | exact ⟨rfl, rfl, rfl, rfl⟩

theorem upd_freeCtr {A : List Part} {b s : State} {v0 : Nat} (h : Does A b s)
    (m : partsIn [.free] A = true) :
    Does A b { s with freeCtr := v0 } := by
  refine h.step ⟨fun p hp => ?_, fun c => c⟩ m
  cases p
  all_goals first
    | exact Bool.noConfusion hp
    | exact rfl
    | exact fun _ _ => rfl
    | exact trivial
    | exact ⟨rfl, rfl⟩
    | exact ⟨rfl, rfl, rfl⟩
    | exact ⟨rfl, rfl, rfl, rfl⟩

theorem upd_freeCtr_dbgData {A : List Part} {b s : State} {v0 : Nat} {v1 : List Byte} (h : Does A b s)
    (m : partsIn [.free, .host] A = true) :
    Does A b { s with freeCtr := v0, dbgData := v1 } := by
  refine h.step ⟨fun p hp => ?_, fun c => c⟩ m
  cases p
  all_goals first
    | exact Bool.noConfusion hp
    | exact rfl
    | exact fun _ _ => rfl
    | exact trivial
    | exact ⟨rfl, rfl⟩
    | exact ⟨rfl, rfl, rfl⟩
    | exact ⟨rfl, rfl, rfl, rfl⟩

theorem upd_freeCtr_fwPause {A : List Part} {b s : State} {v0 : Nat} {v1 : Bool} (h : Does A b s)
    (m : partsIn [.free, .fwu] A = true) :
    Does A b { s with freeCtr := v0, fwPause := v1 } := by
  refine h.step ⟨fun p hp => ?_, fun c => c⟩ m
  cases p
  all_goals first
    | exact Bool.noConfusion hp
    | exact rfl
    | exact fun _ _ => rfl
    | exact trivial
    | exact ⟨rfl, rfl⟩
    | exact ⟨rfl, rfl, rfl⟩
    | exact ⟨rfl, rfl, rfl, rfl⟩

theorem upd_mem {A : List Part} {b s : State} {v0 : List (Nat × Byte)} (h : Does A b s)
    (m : partsIn [.mem] A = true) (w : Sparse.wf (fun _ => (0 : Byte)) s.mem = true → Sparse.wf (fun _ => (0 : Byte)) v0 = true) :
    Does A b { s with mem := v0 } := by
  refine h.step ⟨fun p hp => ?_, fun c => ⟨c.1, w c.2.1, c.2.2⟩⟩ m
  cases p
  all_goals first
    | exact Bool.noConfusion hp
    | exact rfl
    | exact fun _ _ => rfl
    | exact trivial
    | exact ⟨rfl, rfl⟩
    | exact ⟨rfl, rfl, rfl⟩
    | exact ⟨rfl, rfl, rfl, rfl⟩

theorem upd_strand {A : List Part} {b s : State} {v0 : Strand} (h : Does A b s)
    (m : partsIn [.strand] A = true) :
    Does A b { s with strand := v0 } := by
  refine h.step ⟨fun p hp => ?_, fun c => c⟩ m
  cases p
  all_goals first
    | exact Bool.noConfusion hp
    | exact rfl
    | exact fun _ _ => rfl
    | exact trivial
    | exact ⟨rfl, rfl⟩
    | exact ⟨rfl, rfl, rfl⟩
    | exact ⟨rfl, rfl, rfl, rfl⟩

theorem upd_backup {A : List Part} {b s : State} {v0 : Backup} (h : Does A b s)
    (m : partsIn [.backup] A = true) :
    Does A b { s with backup := v0 } := by
  refine h.step ⟨fun p hp => ?_, fun c => c⟩ m
  cases p
  all_goals first
    | exact Bool.noConfusion hp
    | exact rfl
    | exact fun _ _ => rfl
    | exact trivial
    | exact ⟨rfl, rfl⟩
    | exact ⟨rfl, rfl, rfl⟩
    | exact ⟨rfl, rfl, rfl, rfl⟩

theorem upd_backup_triad_lcy_fwu {A : List Part} {b s : State} {v0 : Backup} {v1 : Triad} {v2 : Lcy} {v3 : Fwu} (h : Does A b s)
    (m : partsIn [.backup, .triad, .lcy, .fwu] A = true) :
    Does A b { s with backup := v0, triad := v1, lcy := v2, fwu := v3 } := by
  refine h.step ⟨fun p hp => ?_, fun c => c⟩ m
  cases p
  all_goals first
    | exact Bool.noConfusion hp
    | exact rfl
    | exact fun _ _ => rfl
    | exact trivial
    | exact ⟨rfl, rfl⟩
    | exact ⟨rfl, rfl, rfl⟩
    | exact ⟨rfl, rfl, rfl, rfl⟩

theorem upd_tides {A : List Part} {b s : State} {v0 : List (Nat × Tide)} (h : Does A b s)
    (m : partsIn [.tides] A = true) :
    Does A b { s with tides := v0 } := by
  refine h.step ⟨fun p hp => ?_, fun c => c⟩ m
  cases p
  all_goals first
    | exact Bool.noConfusion hp
    | exact rfl
    | exact fun _ _ => rfl
    | exact trivial
    | exact ⟨rfl, rfl⟩
    | exact ⟨rfl, rfl, rfl⟩
    | exact ⟨rfl, rfl, rfl, rfl⟩

theorem upd_tiFault {A : List Part} {b s : State} {v0 : List Nat} (h : Does A b s)
    (m : partsIn [.tides] A = true) :
    Does A b { s with tiFault := v0 } := by
  refine h.step ⟨fun p hp => ?_, fun c => c⟩ m
  cases p
  all_goals first
    | exact Bool.noConfusion hp
    | exact rfl
    | exact fun _ _ => rfl
    | exact trivial
    | exact ⟨rfl, rfl⟩
    | exact ⟨rfl, rfl, rfl⟩
    | exact ⟨rfl, rfl, rfl, rfl⟩

theorem upd_tt {A : List Part} {b s : State} {v0 : List (Nat × TTEntry)} (h : Does A b s)
    (m : partsIn [.tideTable] A = true) :
    Does A b { s with tt := v0 } := by
  refine h.step ⟨fun p hp => ?_, fun c => c⟩ m
  cases p
  all_goals first
    | exact Bool.noConfusion hp
    | exact rfl
    | exact fun _ _ => rfl
    | exact trivial
    | exact ⟨rfl, rfl⟩
    | exact ⟨rfl, rfl, rfl⟩
    | exact ⟨rfl, rfl, rfl, rfl⟩

theorem upd_ttOut {A : List Part} {b s : State} {v0 : List (Nat × TTOut)} (h : Does A b s)
    (m : partsIn [.tideTable] A = true) :
    Does A b { s with ttOut := v0 } := by
  refine h.step ⟨fun p hp => ?_, fun c => c⟩ m
  cases p
  all_goals first
    | exact Bool.noConfusion hp
    | exact rfl
    | exact fun _ _ => rfl
    | exact trivial
    | exact ⟨rfl, rfl⟩
    | exact ⟨rfl, rfl, rfl⟩
    | exact ⟨rfl, rfl, rfl, rfl⟩

theorem upd_ttFull {A : List Part} {b s : State} {v0 : List (Nat × Nat)} (h : Does A b s)
    (m : partsIn [.tideTable] A = true) :
    Does A b { s with ttFull := v0 } := by
  refine h.step ⟨fun p hp => ?_, fun c => c⟩ m
  cases p
  all_goals first
    | exact Bool.noConfusion hp
    | exact rfl
    | exact fun _ _ => rfl
    | exact trivial
    | exact ⟨rfl, rfl⟩
    | exact ⟨rfl, rfl, rfl⟩
    | exact ⟨rfl, rfl, rfl, rfl⟩

theorem upd_seqs {A : List Part} {b s : State} {v0 : List (Nat × Seq)} (h : Does A b s)
    (m : partsIn [.seqs] A = true) :
    Does A b { s with seqs := v0 } := by
  refine h.step ⟨fun p hp => ?_, fun c => c⟩ m
  cases p
  all_goals first
    | exact Bool.noConfusion hp
    | exact rfl
    | exact fun _ _ => rfl
    | exact trivial
    | exact ⟨rfl, rfl⟩
    | exact ⟨rfl, rfl, rfl⟩
    | exact ⟨rfl, rfl, rfl, rfl⟩

theorem upd_exe {A : List Part} {b s : State} {v0 : Exe} (h : Does A b s)
    (m : partsIn [.exe] A = true) (w : Sparse.wf (fun _ => (0 : DWord)) s.exe.tagMem = true → Sparse.wf (fun _ => (0 : DWord)) v0.tagMem = true) :
    Does A b { s with exe := v0 } := by
  refine h.step ⟨fun p hp => ?_, fun c => ⟨c.1, c.2.1, w c.2.2⟩⟩ m
  cases p
  all_goals first
    | exact Bool.noConfusion hp
    | exact rfl
    | exact fun _ _ => rfl
    | exact trivial
    | exact ⟨rfl, rfl⟩
    | exact ⟨rfl, rfl, rfl⟩
    | exact ⟨rfl, rfl, rfl, rfl⟩

theorem upd_exe_pair {A : List Part} {b s : State} {v0 : Exe} {v1 : Pair} (h : Does A b s)
    (m : partsIn [.exe, .pair] A = true) (w : Sparse.wf (fun _ => (0 : DWord)) s.exe.tagMem = true → Sparse.wf (fun _ => (0 : DWord)) v0.tagMem = true) :
    Does A b { s with exe := v0, pair := v1 } := by
  refine h.step ⟨fun p hp => ?_, fun c => ⟨c.1, c.2.1, w c.2.2⟩⟩ m
  cases p
  all_goals first
    | exact Bool.noConfusion hp
    | exact rfl
    | exact fun _ _ => rfl
    | exact trivial
    | exact ⟨rfl, rfl⟩
    | exact ⟨rfl, rfl, rfl⟩
    | exact ⟨rfl, rfl, rfl, rfl⟩

theorem upd_loop {A : List Part} {b s : State} {v0 : Loop} (h : Does A b s)
    (m : partsIn [.loop] A = true) :
    Does A b { s with loop := v0 } := by
  refine h.step ⟨fun p hp => ?_, fun c => c⟩ m
  cases p
  all_goals first
    | exact Bool.noConfusion hp
    | exact rfl
    | exact fun _ _ => rfl
    | exact trivial
    | exact ⟨rfl, rfl⟩
    | exact ⟨rfl, rfl, rfl⟩
    | exact ⟨rfl, rfl, rfl, rfl⟩

theorem upd_dio {A : List Part} {b s : State} {v0 : List (Nat × DioCh)} (h : Does A b s)
    (m : partsIn [.dio] A = true) :
    Does A b { s with dio := v0 } := by
  refine h.step ⟨fun p hp => ?_, fun c => c⟩ m
  cases p
  all_goals first
    | exact Bool.noConfusion hp
    | exact rfl
    | exact fun _ _ => rfl
    | exact trivial
    | exact ⟨rfl, rfl⟩
    | exact ⟨rfl, rfl, rfl⟩
    | exact ⟨rfl, rfl, rfl, rfl⟩

theorem upd_dioBank {A : List Part} {b s : State} {v0 : List (Nat × DioBank)} (h : Does A b s)
    (m : partsIn [.dio] A = true) :
    Does A b { s with dioBank := v0 } := by
  refine h.step ⟨fun p hp => ?_, fun c => c⟩ m
  cases p
  all_goals first
    | exact Bool.noConfusion hp
    | exact rfl
    | exact fun _ _ => rfl
    | exact trivial
    | exact ⟨rfl, rfl⟩
    | exact ⟨rfl, rfl, rfl⟩
    | exact ⟨rfl, rfl, rfl, rfl⟩

theorem upd_po {A : List Part} {b s : State} {v0 : List (Nat × PoCh)} (h : Does A b s)
    (m : partsIn [.dio] A = true) :
    Does A b { s with po := v0 } := by
  refine h.step ⟨fun p hp => ?_, fun c => c⟩ m
  cases p
  all_goals first
    | exact Bool.noConfusion hp
    | exact rfl
    | exact fun _ _ => rfl
    | exact trivial
    | exact ⟨rfl, rfl⟩
    | exact ⟨rfl, rfl, rfl⟩
    | exact ⟨rfl, rfl, rfl, rfl⟩

theorem upd_terms {A : List Part} {b s : State} {v0 : List (Nat × Term)} (h : Does A b s)
    (m : partsIn [.rfx] A = true) :
    Does A b { s with terms := v0 } := by
  refine h.step ⟨fun p hp => ?_, fun c => c⟩ m
  cases p
  all_goals first
    | exact Bool.noConfusion hp
    | exact rfl
    | exact fun _ _ => rfl
    | exact trivial
    | exact ⟨rfl, rfl⟩
    | exact ⟨rfl, rfl, rfl⟩
    | exact ⟨rfl, rfl, rfl, rfl⟩

theorem upd_rfxStopped {A : List Part} {b s : State} {v0 : Bool} (h : Does A b s)
    (m : partsIn [.rfx] A = true) :
    Does A b { s with rfxStopped := v0 } := by
  refine h.step ⟨fun p hp => ?_, fun c => c⟩ m
  cases p
  all_goals first
    | exact Bool.noConfusion hp
    | exact rfl
    | exact fun _ _ => rfl
    | exact trivial
    | exact ⟨rfl, rfl⟩
    | exact ⟨rfl, rfl, rfl⟩
    | exact ⟨rfl, rfl, rfl, rfl⟩

theorem upd_an {A : List Part} {b s : State} {v0 : List (Nat × AnCh)} (h : Does A b s)
    (m : partsIn [.ana] A = true) :
    Does A b { s with an := v0 } := by
  refine h.step ⟨fun p hp => ?_, fun c => c⟩ m
  cases p
  all_goals first
    | exact Bool.noConfusion hp
    | exact rfl
    | exact fun _ _ => rfl
    | exact trivial
    | exact ⟨rfl, rfl⟩
    | exact ⟨rfl, rfl, rfl⟩
    | exact ⟨rfl, rfl, rfl, rfl⟩

theorem upd_anBank {A : List Part} {b s : State} {v0 : List (Nat × AnBank)} (h : Does A b s)
    (m : partsIn [.ana] A = true) :
    Does A b { s with anBank := v0 } := by
  refine h.step ⟨fun p hp => ?_, fun c => c⟩ m
  cases p
  all_goals first
    | exact Bool.noConfusion hp
    | exact rfl
    | exact fun _ _ => rfl
    | exact trivial
    | exact ⟨rfl, rfl⟩
    | exact ⟨rfl, rfl, rfl⟩
    | exact ⟨rfl, rfl, rfl, rfl⟩

theorem upd_saf {A : List Part} {b s : State} {v0 : Saf} (h : Does A b s)
    (m : partsIn [.saf] A = true) :
    Does A b { s with saf := v0 } := by
  refine h.step ⟨fun p hp => ?_, fun c => c⟩ m
  cases p
  all_goals first
    | exact Bool.noConfusion hp
    | exact rfl
    | exact fun _ _ => rfl
    | exact trivial
    | exact ⟨rfl, rfl⟩
    | exact ⟨rfl, rfl, rfl⟩
    | exact ⟨rfl, rfl, rfl, rfl⟩

theorem upd_saf_sup {A : List Part} {b s : State} {v0 : Saf} {v1 : Sup} (h : Does A b s)
    (m : partsIn [.saf, .sup] A = true) :
    Does A b { s with saf := v0, sup := v1 } := by
  refine h.step ⟨fun p hp => ?_, fun c => c⟩ m
  cases p
  all_goals first
    | exact Bool.noConfusion hp
    | exact rfl
    | exact fun _ _ => rfl
    | exact trivial
    | exact ⟨rfl, rfl⟩
    | exact ⟨rfl, rfl, rfl⟩
    | exact ⟨rfl, rfl, rfl, rfl⟩

theorem upd_triad {A : List Part} {b s : State} {v0 : Triad} (h : Does A b s)
    (m : partsIn [.triad] A = true) :
    Does A b { s with triad := v0 } := by
  refine h.step ⟨fun p hp => ?_, fun c => c⟩ m
  cases p
  all_goals first
    | exact Bool.noConfusion hp
    | exact rfl
    | exact fun _ _ => rfl
    | exact trivial
    | exact ⟨rfl, rfl⟩
    | exact ⟨rfl, rfl, rfl⟩
    | exact ⟨rfl, rfl, rfl, rfl⟩

theorem upd_pair {A : List Part} {b s : State} {v0 : Pair} (h : Does A b s)
    (m : partsIn [.pair] A = true) :
    Does A b { s with pair := v0 } := by
  refine h.step ⟨fun p hp => ?_, fun c => c⟩ m
  cases p
  all_goals first
    | exact Bool.noConfusion hp
    | exact rfl
    | exact fun _ _ => rfl
    | exact trivial
    | exact ⟨rfl, rfl⟩
    | exact ⟨rfl, rfl, rfl⟩
    | exact ⟨rfl, rfl, rfl, rfl⟩

theorem upd_net {A : List Part} {b s : State} {v0 : Net} (h : Does A b s)
    (m : partsIn [.net] A = true) :
    Does A b { s with net := v0 } := by
  refine h.step ⟨fun p hp => ?_, fun c => c⟩ m
  cases p
  all_goals first
    | exact Bool.noConfusion hp
    | exact rfl
    | exact fun _ _ => rfl
    | exact trivial
    | exact ⟨rfl, rfl⟩
    | exact ⟨rfl, rfl, rfl⟩
    | exact ⟨rfl, rfl, rfl, rfl⟩

theorem upd_can {A : List Part} {b s : State} {v0 : List (Nat × CanBuf)} (h : Does A b s)
    (m : partsIn [.can] A = true) :
    Does A b { s with can := v0 } := by
  refine h.step ⟨fun p hp => ?_, fun c => c⟩ m
  cases p
  all_goals first
    | exact Bool.noConfusion hp
    | exact rfl
    | exact fun _ _ => rfl
    | exact trivial
    | exact ⟨rfl, rfl⟩
    | exact ⟨rfl, rfl, rfl⟩
    | exact ⟨rfl, rfl, rfl, rfl⟩

theorem upd_lcy {A : List Part} {b s : State} {v0 : Lcy} (h : Does A b s)
    (m : partsIn [.lcy] A = true) :
    Does A b { s with lcy := v0 } := by
  refine h.step ⟨fun p hp => ?_, fun c => c⟩ m
  cases p
  all_goals first
    | exact Bool.noConfusion hp
    | exact rfl
    | exact fun _ _ => rfl
    | exact trivial
    | exact ⟨rfl, rfl⟩
    | exact ⟨rfl, rfl, rfl⟩
    | exact ⟨rfl, rfl, rfl, rfl⟩

theorem upd_fwu {A : List Part} {b s : State} {v0 : Fwu} (h : Does A b s)
    (m : partsIn [.fwu] A = true) :
    Does A b { s with fwu := v0 } := by
  refine h.step ⟨fun p hp => ?_, fun c => c⟩ m
  cases p
  all_goals first
    | exact Bool.noConfusion hp
    | exact rfl
    | exact fun _ _ => rfl
    | exact trivial
    | exact ⟨rfl, rfl⟩
    | exact ⟨rfl, rfl, rfl⟩
    | exact ⟨rfl, rfl, rfl, rfl⟩

theorem upd_fwu_fwWait {A : List Part} {b s : State} {v0 : Fwu} {v1 : Bool} (h : Does A b s)
    (m : partsIn [.fwu] A = true) :
    Does A b { s with fwu := v0, fwWait := v1 } := by
  refine h.step ⟨fun p hp => ?_, fun c => c⟩ m
  cases p
  all_goals first
    | exact Bool.noConfusion hp
    | exact rfl
    | exact fun _ _ => rfl
    | exact trivial
    | exact ⟨rfl, rfl⟩
    | exact ⟨rfl, rfl, rfl⟩
    | exact ⟨rfl, rfl, rfl, rfl⟩

theorem upd_fwPause_fwWait {A : List Part} {b s : State} {v0 : Bool} {v1 : Bool} (h : Does A b s)
    (m : partsIn [.fwu] A = true) :
    Does A b { s with fwPause := v0, fwWait := v1 } := by
  refine h.step ⟨fun p hp => ?_, fun c => c⟩ m
  cases p
  all_goals first
    | exact Bool.noConfusion hp
    | exact rfl
    | exact fun _ _ => rfl
    | exact trivial
    | exact ⟨rfl, rfl⟩
    | exact ⟨rfl, rfl, rfl⟩
    | exact ⟨rfl, rfl, rfl, rfl⟩

theorem upd_fwWait {A : List Part} {b s : State} {v0 : Bool} (h : Does A b s)
    (m : partsIn [.fwu] A = true) :
    Does A b { s with fwWait := v0 } := by
  refine h.step ⟨fun p hp => ?_, fun c => c⟩ m
  cases p
  all_goals first
    | exact Bool.noConfusion hp
    | exact rfl
    | exact fun _ _ => rfl
    | exact trivial
    | exact ⟨rfl, rfl⟩
    | exact ⟨rfl, rfl, rfl⟩
    | exact ⟨rfl, rfl, rfl, rfl⟩

theorem upd_fwWait_sup {A : List Part} {b s : State} {v0 : Bool} {v1 : Sup} (h : Does A b s)
    (m : partsIn [.fwu, .sup] A = true) :
    Does A b { s with fwWait := v0, sup := v1 } := by
  refine h.step ⟨fun p hp => ?_, fun c => c⟩ m
  cases p
  all_goals first
    | exact Bool.noConfusion hp
    | exact rfl
    | exact fun _ _ => rfl
    | exact trivial
    | exact ⟨rfl, rfl⟩
    | exact ⟨rfl, rfl, rfl⟩
    | exact ⟨rfl, rfl, rfl, rfl⟩

theorem upd_sup {A : List Part} {b s : State} {v0 : Sup} (h : Does A b s)
    (m : partsIn [.sup] A = true) :
    Does A b { s with sup := v0 } := by
  refine h.step ⟨fun p hp => ?_, fun c => c⟩ m
  cases p
  all_goals first
    | exact Bool.noConfusion hp
    | exact rfl
    | exact fun _ _ => rfl
    | exact trivial
    | exact ⟨rfl, rfl⟩
    | exact ⟨rfl, rfl, rfl⟩
    | exact ⟨rfl, rfl, rfl, rfl⟩

theorem upd_sup_mpu {A : List Part} {b s : State} {v0 : Sup} {v1 : Mpu} (h : Does A b s)
    (m : partsIn [.sup, .mpu] A = true) :
    Does A b { s with sup := v0, mpu := v1 } := by
  refine h.step ⟨fun p hp => ?_, fun c => c⟩ m
  cases p
  all_goals first
    | exact Bool.noConfusion hp
    | exact rfl
    | exact fun _ _ => rfl
    | exact trivial
    | exact ⟨rfl, rfl⟩
    | exact ⟨rfl, rfl, rfl⟩
    | exact ⟨rfl, rfl, rfl, rfl⟩

theorem upd_mpu {A : List Part} {b s : State} {v0 : Mpu} (h : Does A b s)
    (m : partsIn [.mpu] A = true) :
    Does A b { s with mpu := v0 } := by
  refine h.step ⟨fun p hp => ?_, fun c => c⟩ m
  cases p
  all_goals first
    | exact Bool.noConfusion hp
    | exact rfl
    | exact fun _ _ => rfl
    | exact trivial
    | exact ⟨rfl, rfl⟩
    | exact ⟨rfl, rfl, rfl⟩
    | exact ⟨rfl, rfl, rfl, rfl⟩

theorem upd_mailboxes {A : List Part} {b s : State} {v0 : List (Nat × Mailbox)} (h : Does A b s)
    (m : partsIn [.mbx] A = true) :
    Does A b { s with mailboxes := v0 } := by
  refine h.step ⟨fun p hp => ?_, fun c => c⟩ m
  cases p
  all_goals first
    | exact Bool.noConfusion hp
    | exact rfl
    | exact fun _ _ => rfl
    | exact trivial
    | exact ⟨rfl, rfl⟩
    | exact ⟨rfl, rfl, rfl⟩
    | exact ⟨rfl, rfl, rfl, rfl⟩

theorem upd_locks {A : List Part} {b s : State} {v0 : List (Nat × LockHold)} (h : Does A b s)
    (m : partsIn [.mbx] A = true) :
    Does A b { s with locks := v0 } := by
  refine h.step ⟨fun p hp => ?_, fun c => c⟩ m
  cases p
  all_goals first
    | exact Bool.noConfusion hp
    | exact rfl
    | exact fun _ _ => rfl
    | exact trivial
    | exact ⟨rfl, rfl⟩
    | exact ⟨rfl, rfl, rfl⟩
    | exact ⟨rfl, rfl, rfl, rfl⟩

theorem upd_queSeq {A : List Part} {b s : State} {v0 : List (Nat × Word)} (h : Does A b s)
    (m : partsIn [.queSeq] A = true) :
    Does A b { s with queSeq := v0 } := by
  refine h.step ⟨fun p hp => ?_, fun c => c⟩ m
  cases p
  all_goals first
    | exact Bool.noConfusion hp
    | exact rfl
    | exact fun _ _ => rfl
    | exact trivial
    | exact ⟨rfl, rfl⟩
    | exact ⟨rfl, rfl, rfl⟩
    | exact ⟨rfl, rfl, rfl, rfl⟩

theorem upd_out {A : List Part} {b s : State} {v0 : List Out} (h : Does A b s)
    (m : partsIn [.out] A = true) :
    Does A b { s with out := v0 } := by
  refine h.step ⟨fun p hp => ?_, fun c => c⟩ m
  cases p
  all_goals first
    | exact Bool.noConfusion hp
    | exact rfl
    | exact fun _ _ => rfl
    | exact trivial
    | exact ⟨rfl, rfl⟩
    | exact ⟨rfl, rfl, rfl⟩
    | exact ⟨rfl, rfl, rfl, rfl⟩

end Sys2Proof.Machine
end

