-- ==== Sys2Proof/Laws/OnlyPrim.lean ====
section
/-! SUPPORT. What the primitive operations on registers, memory and messages can do. -/
namespace Sys2Proof.Machine

/-- Another register keeps its value. -/
theorem rd_wr (a b : Nat) (v : Word) (s : State) : rd a (wr b v s) = if a = b then v else rd a s :=
  Sparse.get_set _ _ _ _ _

theorem wr_does {A : List Part} {b : State} (a : Nat) (v : Word) (s : State) (hD : Does A b s)
    (m : (Part.block (a / 65536)).listed A = true) : Does A b (wr a v s) := by
  refine hD.step (B := [.block (a / 65536)]) ⟨fun p hp => ?_, fun c => ⟨Sparse.wf_set _ _ c.1, c.2⟩⟩ (by simpa [partsIn, codeIn_iff])
  cases p
  case block n =>
    intro x hx
    rw [rd_wr]
    split
    · subst_vars; simp [Part.listed] at hp
    · rfl
  all_goals first
    | exact rfl
    | exact trivial
    | exact ⟨rfl, rfl⟩
    | exact ⟨rfl, rfl, rfl⟩
    | exact ⟨rfl, rfl, rfl, rfl⟩

theorem setFld_does {A : List Part} {b : State} (f : RegField) (v : Nat) (s : State) (hD : Does A b s)
    (m : (Part.block (f.addr / 65536)).listed A = true) : Does A b (setFld f v s) := wr_does _ _ _ hD m

theorem setFlag_does {A : List Part} {b : State} (f : RegField) (v : Bool) (s : State) (hD : Does A b s)
    (m : (Part.block (f.addr / 65536)).listed A = true) : Does A b (setFlag f v s) := wr_does _ _ _ hD m

theorem bump_does {A : List Part} {b : State} (f : RegField) (s : State) (hD : Does A b s)
    (m : (Part.block (f.addr / 65536)).listed A = true) : Does A b (bump f s) := wr_does _ _ _ hD m

theorem bumpBy_does {A : List Part} {b : State} (f : RegField) (n : Nat) (s : State) (hD : Does A b s)
    (m : (Part.block (f.addr / 65536)).listed A = true) : Does A b (bumpBy f n s) := wr_does _ _ _ hD m

theorem orReg_does {A : List Part} {b : State} (a : Nat) (v : Word) (s : State) (hD : Does A b s)
    (m : (Part.block (a / 65536)).listed A = true) : Does A b (orReg a v s) := wr_does _ _ _ hD m

theorem clrReg_does {A : List Part} {b : State} (a : Nat) (v : Word) (s : State) (hD : Does A b s)
    (m : (Part.block (a / 65536)).listed A = true) : Does A b (clrReg a v s) := wr_does _ _ _ hD m

theorem setBitAt_does {A : List Part} {b : State} (a i : Nat) (v : Bool) (s : State) (hD : Does A b s)
    (m : (Part.block (a / 65536)).listed A = true) : Does A b (setBitAt a i v s) := by
  unfold setBitAt
  split
  · exact orReg_does _ _ _ hD m
  · exact clrReg_does _ _ _ hD m

/-- The low word of a pair does not end its block. -/
theorem wr64_does {A : List Part} {b : State} (a : Nat) (v : DWord) (s : State) (hD : Does A b s)
    (m : (Part.block (a / 65536)).listed A = true) (e : (a + 4) / 65536 = a / 65536) : Does A b (wr64 a v s) :=
  wr_does _ _ _ (wr_does _ _ _ hD m) (e ▸ m)

theorem ite_does {A : List Part} {b : State} {c : Prop} [Decidable c] {x y : State} (h : c → Does A b x) (k : ¬c → Does A b y) :
    Does A b (if c then x else y) := by
  split
  · exact h ‹_›
  · exact k ‹_›

theorem id_does {A : List Part} {b s : State} (h : Does A b s) : Does A b (id s) := h

theorem onlyIf_does {A : List Part} {b : State} (c : Bool) (f : State → State) (s : State)
    (hf : ∀ u, Does A b u → Does A b (f u)) (hD : Does A b s) : Does A b (onlyIf c f s) := by
  unfold onlyIf
  split
  · exact hf _ hD
  · exact hD

theorem foldl_does {A : List Part} {b : State} {α : Type} (f : α → State → State)
    (hf : ∀ x u, Does A b u → Does A b (f x u)) (l : List α) :
    ∀ s, Does A b s → Does A b (l.foldl (fun t x => f x t) s) := by
  induction l with
  | nil => exact fun _ h => h
  | cons x l ih => exact fun s h => ih _ (hf x s h)

theorem forAll_does {A : List Part} {b : State} {α : Type} (l : List α) (f : α → State → State) (s : State)
    (hf : ∀ x u, Does A b u → Does A b (f x u)) (hD : Does A b s) : Does A b (forAll l f s) := foldl_does f hf l s hD

theorem withFree_does {A : List Part} {b : State} (k : DWord → State → State) (s : State)
    (hf : ∀ d u, Does A b u → Does A b (k d u)) (hD : Does A b s) (hA : partsIn [.free] A = true) :
    Does A b (withFree k s) := hf _ _ (upd_freeCtr hD hA)

theorem sendOut_does {A : List Part} {b : State} (o : Out) (s : State) (hD : Does A b s) (hA : partsIn [.out] A = true) :
    Does A b (sendOut o s) := upd_out hD hA

theorem withIrq_does {A : List Part} {b : State} (v : Nat) (f : State → State) (s : State)
    (hf : ∀ u, Does A b u → Does A b (f u)) (hD : Does A b s) (hA : partsIn [.out] A = true) : Does A b (withIrq v f s) := by
  unfold withIrq
  dsimp only
  split
  · exact sendOut_does _ _ (hf _ hD) hA
  · exact hf _ hD

theorem raise_does {A : List Part} {b : State} (v a : Nat) (m : Word) (s : State) (hD : Does A b s)
    (hm : (Part.block (a / 65536)).listed A = true) (hA : partsIn [.out] A = true) : Does A b (raise v a m s) :=
  withIrq_does _ _ _ (fun _ h => orReg_does _ _ _ h hm) hD hA

theorem raiseF_does {A : List Part} {b : State} (v : Nat) (f : RegField) (s : State) (hD : Does A b s)
    (hm : (Part.block (f.addr / 65536)).listed A = true) (hA : partsIn [.out] A = true) : Does A b (raiseF v f s) :=
  raise_does _ _ _ _ hD hm hA

theorem raiseBit_does {A : List Part} {b : State} (v : Nat) (f : RegField) (i : Nat) (s : State) (hD : Does A b s)
    (hm : (Part.block (f.addr / 65536)).listed A = true) (hA : partsIn [.out] A = true) : Does A b (raiseBit v f i s) :=
  raise_does _ _ _ _ hD hm hA

theorem mset_does {A : List Part} {b : State} (a : Nat) (v : Byte) (s : State) (hD : Does A b s)
    (hA : partsIn [.mem] A = true) : Does A b (mset a v s) := upd_mem hD hA (Sparse.wf_set _ _)

theorem msetN_does {A : List Part} {b : State} (a n v : Nat) (s : State) (hD : Does A b s)
    (hA : partsIn [.mem] A = true) : Does A b (msetN a n v s) := by
  induction n generalizing a v s with
  | zero => exact hD
  | succ k ih => exact ih _ _ _ (mset_does _ _ _ hD hA)

theorem msetBytes_does {A : List Part} {b : State} (a : Nat) (l : List Byte) (s : State) (hD : Does A b s)
    (hA : partsIn [.mem] A = true) : Does A b (msetBytes a l s) := by
  induction l generalizing a s with
  | nil => exact hD
  | cons x l ih => exact ih _ _ (mset_does _ _ _ hD hA)

theorem mclear_does {A : List Part} {b : State} (a n : Nat) (s : State) (hD : Does A b s)
    (hA : partsIn [.mem] A = true) : Does A b (mclear a n s) := upd_mem hD hA (Sparse.wf_filter _)

/-- A state that may be absent, if it is there, is one that only the listed parts lead to. -/
def DoesM (A : List Part) (s : State) (o : Option State) : Prop := ∀ t, o = some t → Does A s t

theorem some_does {A : List Part} {s t : State} (h : Does A s t) : DoesM A s (some t) := by
  intro u e; cases e; exact h

theorem none_does {A : List Part} {s : State} : DoesM A s none := by
  intro u e; cases e

theorem or_does {A : List Part} {s : State} {o p : Option State} (h : DoesM A s o) (k : DoesM A s p) : DoesM A s (o.or p) := by
  cases o with
  | none => exact k
  | some t => exact h

theorem iteM_does {A : List Part} {s : State} {c : Prop} [Decidable c] {x y : Option State}
    (h : c → DoesM A s x) (k : ¬c → DoesM A s y) : DoesM A s (if c then x else y) := by
  split
  · exact h ‹_›
  · exact k ‹_›

theorem onlyM_does {A : List Part} {s t : State} {o : Option State} (k : DoesM A s o) (e : o = some t) : Does A s t := k t e

end Sys2Proof.Machine
end

