-- ==== Sys2Proof/Laws/OnlyOps.lean ====
section
/-! SUPPORT. What each operation of Machine/Ops.lean can do: the parts of the state it may change, and that it keeps
canonical form. -/
namespace Sys2Proof.Machine

theorem strEvent_does {A : List Part} {b₀ : State} (f : RegField) (s : State) 
    (hD : Does A b₀ s) (hA : partsIn [.strand, .out] A = true) : Does A b₀ (strEvent f s) := by
  unfold strEvent
  repeat' first
    | with_reducible assumption
    | with_reducible apply withIrq_does
    | ((with_reducible refine partsIn_trans ?_ hA); exact rfl)
    | ((with_reducible refine listed_code ?_ hA); exact rfl)
    | exact fun (h : Sparse.wf _ _ = true) => h
    | with_reducible apply next_does
    | with_reducible apply id_does
    | with_reducible apply ite_does
    | with_reducible apply iteO_does
    | (apply Sparse.wf_set; assumption)
    | exact rfl
    | intro _
    | dsimp only
    | split
    | with_reducible apply upd_strand

theorem strLose_does {A : List Part} {b₀ : State}  (s : State) 
    (hD : Does A b₀ s) (hA : partsIn [.strand, .out] A = true) : Does A b₀ (strLose s) := by
  unfold strLose
  repeat' first
    | with_reducible assumption
    | with_reducible apply strEvent_does
    | ((with_reducible refine partsIn_trans ?_ hA); exact rfl)
    | ((with_reducible refine listed_code ?_ hA); exact rfl)
    | exact fun (h : Sparse.wf _ _ = true) => h
    | with_reducible apply next_does
    | with_reducible apply id_does
    | with_reducible apply ite_does
    | with_reducible apply iteO_does
    | (apply Sparse.wf_set; assumption)
    | exact rfl
    | intro _
    | dsimp only
    | split
    | with_reducible apply upd_strand

theorem strAccept_does {A : List Part} {b₀ : State} (r : StrRec) (s : State) 
    (hD : Does A b₀ s) (hA : partsIn [.strand, .out] A = true) : Does A b₀ (strAccept r s) := by
  unfold strAccept
  repeat' first
    | with_reducible assumption
    | with_reducible apply strEvent_does
    | with_reducible apply strLose_does
    | ((with_reducible refine partsIn_trans ?_ hA); exact rfl)
    | ((with_reducible refine listed_code ?_ hA); exact rfl)
    | exact fun (h : Sparse.wf _ _ = true) => h
    | with_reducible apply next_does
    | with_reducible apply id_does
    | with_reducible apply ite_does
    | with_reducible apply iteO_does
    | (apply Sparse.wf_set; assumption)
    | exact rfl
    | intro _
    | dsimp only
    | split
    | with_reducible apply upd_strand

theorem present_does {A : List Part} {b₀ : State} (r : StrRec) (s : State) 
    (hD : Does A b₀ s) (hA : partsIn [.strand, .out] A = true) : Does A b₀ (present r s) := by
  unfold present
  repeat' first
    | with_reducible assumption
    | with_reducible apply strAccept_does
    | ((with_reducible refine partsIn_trans ?_ hA); exact rfl)
    | ((with_reducible refine listed_code ?_ hA); exact rfl)
    | exact fun (h : Sparse.wf _ _ = true) => h
    | with_reducible apply next_does
    | with_reducible apply id_does
    | with_reducible apply ite_does
    | with_reducible apply iteO_does
    | (apply Sparse.wf_set; assumption)
    | exact rfl
    | intro _
    | dsimp only
    | split
    | with_reducible apply upd_strand

theorem sayD_does {A : List Part} {b₀ : State} (st : Status) (datum : DWord) (s : State) 
    (hD : Does A b₀ s) (hA : partsIn [.strand, .out] A = true) : Does A b₀ (sayD st datum s) := by
  unfold sayD
  repeat' first
    | with_reducible assumption
    | with_reducible apply present_does
    | ((with_reducible refine partsIn_trans ?_ hA); exact rfl)
    | ((with_reducible refine listed_code ?_ hA); exact rfl)
    | exact fun (h : Sparse.wf _ _ = true) => h
    | with_reducible apply next_does
    | with_reducible apply id_does
    | with_reducible apply ite_does
    | with_reducible apply iteO_does
    | (apply Sparse.wf_set; assumption)
    | exact rfl
    | intro _
    | dsimp only
    | split

theorem say_does {A : List Part} {b₀ : State} (st : Status) (s : State) 
    (hD : Does A b₀ s) (hA : partsIn [.free, .strand, .out] A = true) : Does A b₀ (say st s) := by
  unfold say
  repeat' first
    | with_reducible assumption
    | with_reducible apply sayD_does
    | with_reducible apply withFree_does
    | ((with_reducible refine partsIn_trans ?_ hA); exact rfl)
    | ((with_reducible refine listed_code ?_ hA); exact rfl)
    | exact fun (h : Sparse.wf _ _ = true) => h
    | with_reducible apply next_does
    | with_reducible apply id_does
    | with_reducible apply ite_does
    | with_reducible apply iteO_does
    | (apply Sparse.wf_set; assumption)
    | exact rfl
    | intro _
    | dsimp only
    | split

theorem sayRegion_does {A : List Part} {b₀ : State} (st : Status) (s : State) 
    (hD : Does A b₀ s) (hA : partsIn [.free, .strand, .out] A = true) : Does A b₀ (sayRegion st s) := by
  unfold sayRegion
  repeat' first
    | with_reducible assumption
    | with_reducible apply say_does
    | with_reducible apply sendOut_does
    | ((with_reducible refine partsIn_trans ?_ hA); exact rfl)
    | ((with_reducible refine listed_code ?_ hA); exact rfl)
    | exact fun (h : Sparse.wf _ _ = true) => h
    | with_reducible apply next_does
    | with_reducible apply id_does
    | with_reducible apply ite_does
    | with_reducible apply iteO_does
    | (apply Sparse.wf_set; assumption)
    | exact rfl
    | intro _
    | dsimp only
    | split

theorem result_does {A : List Part} {b₀ : State} (f : RegField) (st : Status) (s : State) (hD : Does A b₀ s)
    (hp : (Part.block (f.addr / 65536)).listed A = true) (hA : partsIn [.free, .strand, .out] A = true) :
    Does A b₀ (result f st s) :=
  onlyIf_does _ _ _ (fun _ h => say_does _ _ h hA) (setFld_does _ _ _ hD hp)

theorem mpuDeny_does {A : List Part} {b₀ : State} (m : Nat) (a : Nat) (k : Acc) (colour : Nat) (cause : Nat) (s : State) 
    (hD : Does A b₀ s) (hA : partsIn [.block 0x0F, .strand, .out] A = true) : Does A b₀ (mpuDeny m a k colour cause s) := by
  unfold mpuDeny
  repeat' first
    | with_reducible assumption
    | with_reducible apply bump_does
    | with_reducible apply raiseF_does
    | with_reducible apply sayD_does
    | with_reducible apply wr64_does
    | ((with_reducible refine listed_block 15 ?_ ?_ hA); first | omega | (dsimp only [Fld.MPU_DENY_COUNTm_COUNT, Fld.MPU_EVENT_DENIED, Reg.MPU_DENY_LO]; omega) | (dsimp only [Fld.MPU_DENY_COUNTm_COUNT, Fld.MPU_EVENT_DENIED, Reg.MPU_DENY_LO]; split <;> omega); exact rfl)
    | ((with_reducible refine partsIn_trans ?_ hA); exact rfl)
    | ((with_reducible refine listed_code ?_ hA); exact rfl)
    | exact fun (h : Sparse.wf _ _ = true) => h
    | with_reducible apply next_does
    | with_reducible apply id_does
    | with_reducible apply ite_does
    | with_reducible apply iteO_does
    | (apply Sparse.wf_set; assumption)
    | exact rfl
    | (dsimp only [Fld.MPU_DENY_COUNTm_COUNT, Fld.MPU_EVENT_DENIED, Reg.MPU_DENY_LO]; omega)
    | intro _
    | dsimp only
    | split

theorem hostAcc_does {A : List Part} {b₀ : State} (a : Nat) (k : Acc) (f : State → State) (s : State) (h_f : ∀ u, Does A b₀ u → Does A b₀ (f u))
    (hD : Does A b₀ s) (hA : partsIn [.block 0x0F, .strand, .out] A = true) : Does A b₀ (hostAcc a k f s) := by
  unfold hostAcc
  repeat' first
    | with_reducible assumption
    | with_reducible apply h_f
    | with_reducible apply mpuDeny_does
    | ((with_reducible refine listed_block 15 ?_ ?_ hA); first | omega | (dsimp only [Fld.MPU_STG_MCFG_COLOUR, masterColour]; omega) | (dsimp only [Fld.MPU_STG_MCFG_COLOUR, masterColour]; split <;> omega); exact rfl)
    | ((with_reducible refine partsIn_trans ?_ hA); exact rfl)
    | ((with_reducible refine listed_code ?_ hA); exact rfl)
    | exact fun (h : Sparse.wf _ _ = true) => h
    | with_reducible apply next_does
    | with_reducible apply id_does
    | with_reducible apply ite_does
    | with_reducible apply iteO_does
    | (apply Sparse.wf_set; assumption)
    | exact rfl
    | intro _
    | dsimp only
    | split

theorem hostCmd_does {A : List Part} {b₀ : State} (a : Nat) (f : State → State) (s : State) (h_f : ∀ u, Does A b₀ u → Does A b₀ (f u))
    (hD : Does A b₀ s) (hA : partsIn [.block 0x0F, .strand, .out] A = true) : Does A b₀ (hostCmd a f s) := by
  unfold hostCmd
  repeat' first
    | with_reducible assumption
    | with_reducible apply h_f
    | with_reducible apply hostAcc_does
    | ((with_reducible refine partsIn_trans ?_ hA); exact rfl)
    | ((with_reducible refine listed_code ?_ hA); exact rfl)
    | exact fun (h : Sparse.wf _ _ = true) => h
    | with_reducible apply next_does
    | with_reducible apply id_does
    | with_reducible apply ite_does
    | with_reducible apply iteO_does
    | (apply Sparse.wf_set; assumption)
    | exact rfl
    | intro _
    | dsimp only
    | split

theorem cwSend_does {A : List Part} {b₀ : State} (kind : Nat) (data : List DWord) (s : State) 
    (hD : Does A b₀ s) (hA : partsIn [.pair, .out] A = true) : Does A b₀ (cwSend kind data s) := by
  unfold cwSend
  repeat' first
    | with_reducible assumption
    | with_reducible apply sendOut_does
    | ((with_reducible refine partsIn_trans ?_ hA); exact rfl)
    | ((with_reducible refine listed_code ?_ hA); exact rfl)
    | exact fun (h : Sparse.wf _ _ = true) => h
    | with_reducible apply next_does
    | with_reducible apply id_does
    | with_reducible apply ite_does
    | with_reducible apply iteO_does
    | (apply Sparse.wf_set; assumption)
    | exact rfl
    | intro _
    | dsimp only
    | split
    | with_reducible apply upd_pair

theorem cwMirror_does {A : List Part} {b₀ : State} (kind : Nat) (data : List DWord) (s : State) 
    (hD : Does A b₀ s) (hA : partsIn [.pair, .out] A = true) : Does A b₀ (cwMirror kind data s) := by
  unfold cwMirror
  repeat' first
    | with_reducible assumption
    | with_reducible apply cwSend_does
    | with_reducible apply onlyIf_does
    | ((with_reducible refine partsIn_trans ?_ hA); exact rfl)
    | ((with_reducible refine listed_code ?_ hA); exact rfl)
    | exact fun (h : Sparse.wf _ _ = true) => h
    | with_reducible apply next_does
    | with_reducible apply id_does
    | with_reducible apply ite_does
    | with_reducible apply iteO_does
    | (apply Sparse.wf_set; assumption)
    | exact rfl
    | intro _
    | dsimp only
    | split

theorem cwStep_does {A : List Part} {b₀ : State} (kind : Nat) (data : List DWord) (s : State) 
    (hD : Does A b₀ s) (hA : partsIn [.pair, .out] A = true) : Does A b₀ (cwStep kind data s) := by
  unfold cwStep
  repeat' first
    | with_reducible assumption
    | with_reducible apply cwMirror_does
    | with_reducible apply onlyIf_does
    | ((with_reducible refine partsIn_trans ?_ hA); exact rfl)
    | ((with_reducible refine listed_code ?_ hA); exact rfl)
    | exact fun (h : Sparse.wf _ _ = true) => h
    | with_reducible apply next_does
    | with_reducible apply id_does
    | with_reducible apply ite_does
    | with_reducible apply iteO_does
    | (apply Sparse.wf_set; assumption)
    | exact rfl
    | intro _
    | dsimp only
    | split

theorem hbSend_does {A : List Part} {b₀ : State}  (s : State) 
    (hD : Does A b₀ s) (hA : partsIn [.pair, .out] A = true) : Does A b₀ (hbSend s) := by
  unfold hbSend
  repeat' first
    | with_reducible assumption
    | with_reducible apply cwSend_does
    | ((with_reducible refine partsIn_trans ?_ hA); exact rfl)
    | ((with_reducible refine listed_code ?_ hA); exact rfl)
    | exact fun (h : Sparse.wf _ _ = true) => h
    | with_reducible apply next_does
    | with_reducible apply id_does
    | with_reducible apply ite_does
    | with_reducible apply iteO_does
    | (apply Sparse.wf_set; assumption)
    | exact rfl
    | intro _
    | dsimp only
    | split
    | with_reducible apply upd_pair

theorem pairTo_does {A : List Part} {b₀ : State} (n : Nat) (s : State) 
    (hD : Does A b₀ s) (hA : partsIn [.block 0x09, .pair, .out] A = true) : Does A b₀ (pairTo n s) := by
  unfold pairTo
  repeat' first
    | with_reducible assumption
    | with_reducible apply bump_does
    | with_reducible apply hbSend_does
    | with_reducible apply onlyIf_does
    | with_reducible apply raiseF_does
    | with_reducible apply setFld_does
    | ((with_reducible refine listed_block 9 ?_ ?_ hA); first | omega | (dsimp only [Fld.PAIR_COUNTS_TRACKING, Fld.PAIR_EVENT_IN_STEP, Fld.PAIR_EVENT_TRACKING, Fld.PAIR_STATE_STATE, pairState]; omega) | (dsimp only [Fld.PAIR_COUNTS_TRACKING, Fld.PAIR_EVENT_IN_STEP, Fld.PAIR_EVENT_TRACKING, Fld.PAIR_STATE_STATE, pairState]; split <;> omega); exact rfl)
    | ((with_reducible refine partsIn_trans ?_ hA); exact rfl)
    | ((with_reducible refine listed_code ?_ hA); exact rfl)
    | exact fun (h : Sparse.wf _ _ = true) => h
    | with_reducible apply next_does
    | with_reducible apply id_does
    | with_reducible apply ite_does
    | with_reducible apply iteO_does
    | (apply Sparse.wf_set; assumption)
    | exact rfl
    | intro _
    | dsimp only
    | split

theorem syncStart_does {A : List Part} {b₀ : State}  (s : State) 
    (hD : Does A b₀ s) (hA : partsIn [.block 0x09, .free, .strand, .exe, .pair, .out] A = true) : Does A b₀ (syncStart s) := by
  unfold syncStart
  repeat' first
    | with_reducible assumption
    | with_reducible apply pairTo_does
    | with_reducible apply say_does
    | ((with_reducible refine partsIn_trans ?_ hA); exact rfl)
    | ((with_reducible refine listed_code ?_ hA); exact rfl)
    | exact fun (h : Sparse.wf _ _ = true) => h
    | with_reducible apply next_does
    | with_reducible apply id_does
    | with_reducible apply ite_does
    | with_reducible apply iteO_does
    | (apply Sparse.wf_set; assumption)
    | exact rfl
    | intro _
    | dsimp only
    | split
    | with_reducible apply upd_exe_pair

theorem onCan_does {A : List Part} {b₀ : State} (c : Nat) (b : Nat) (f : CanBuf → CanBuf) (s : State) 
    (hD : Does A b₀ s) (hA : partsIn [.can] A = true) : Does A b₀ (onCan c b f s) := by
  unfold onCan
  repeat' first
    | with_reducible assumption
    | ((with_reducible refine partsIn_trans ?_ hA); exact rfl)
    | ((with_reducible refine listed_code ?_ hA); exact rfl)
    | exact fun (h : Sparse.wf _ _ = true) => h
    | with_reducible apply next_does
    | with_reducible apply id_does
    | with_reducible apply ite_does
    | with_reducible apply iteO_does
    | (apply Sparse.wf_set; assumption)
    | exact rfl
    | intro _
    | dsimp only
    | split
    | with_reducible apply upd_can

theorem canSay_does {A : List Part} {b₀ : State} (c : Nat) (b : Nat) (st : Status) (s : State) 
    (hD : Does A b₀ s) (hA : partsIn [.free, .strand, .can, .out] A = true) : Does A b₀ (canSay c b st s) := by
  unfold canSay
  repeat' first
    | with_reducible assumption
    | with_reducible apply onCan_does
    | with_reducible apply say_does
    | ((with_reducible refine partsIn_trans ?_ hA); exact rfl)
    | ((with_reducible refine listed_code ?_ hA); exact rfl)
    | exact fun (h : Sparse.wf _ _ = true) => h
    | with_reducible apply next_does
    | with_reducible apply id_does
    | with_reducible apply ite_does
    | with_reducible apply iteO_does
    | (apply Sparse.wf_set; assumption)
    | exact rfl
    | intro _
    | dsimp only
    | split

theorem canWithdraw_does {A : List Part} {b₀ : State} (c : Nat) (b : Nat) (st : Status) (s : State) 
    (hD : Does A b₀ s) (hA : partsIn [.free, .strand, .can, .out] A = true) : Does A b₀ (canWithdraw c b st s) := by
  unfold canWithdraw
  repeat' first
    | with_reducible assumption
    | with_reducible apply canSay_does
    | with_reducible apply onCan_does
    | ((with_reducible refine partsIn_trans ?_ hA); exact rfl)
    | ((with_reducible refine listed_code ?_ hA); exact rfl)
    | exact fun (h : Sparse.wf _ _ = true) => h
    | with_reducible apply next_does
    | with_reducible apply id_does
    | with_reducible apply ite_does
    | with_reducible apply iteO_does
    | (apply Sparse.wf_set; assumption)
    | exact rfl
    | intro _
    | dsimp only
    | split

theorem canTxFail_does {A : List Part} {b₀ : State} (c : Nat) (b : Nat) (st : Status) (s : State) 
    (hD : Does A b₀ s) (hA : partsIn [.block 0x0C, .free, .strand, .can, .out] A = true) : Does A b₀ (canTxFail c b st s) := by
  unfold canTxFail
  repeat' first
    | with_reducible assumption
    | with_reducible apply canWithdraw_does
    | with_reducible apply raiseF_does
    | ((with_reducible refine partsIn_trans ?_ hA); exact rfl)
    | ((with_reducible refine listed_code ?_ hA); exact rfl)
    | exact fun (h : Sparse.wf _ _ = true) => h
    | with_reducible apply next_does
    | with_reducible apply id_does
    | with_reducible apply ite_does
    | with_reducible apply iteO_does
    | (apply Sparse.wf_set; assumption)
    | exact rfl
    | intro _
    | dsimp only
    | split

theorem canWithdrawAll_does {A : List Part} {b₀ : State}  (s : State) 
    (hD : Does A b₀ s) (hA : partsIn [.block 0x0C, .free, .strand, .can, .out] A = true) : Does A b₀ (canWithdrawAll s) := by
  unfold canWithdrawAll
  repeat' first
    | with_reducible assumption
    | with_reducible apply canTxFail_does
    | with_reducible apply forAll_does
    | ((with_reducible refine partsIn_trans ?_ hA); exact rfl)
    | ((with_reducible refine listed_code ?_ hA); exact rfl)
    | exact fun (h : Sparse.wf _ _ = true) => h
    | with_reducible apply next_does
    | with_reducible apply id_does
    | with_reducible apply ite_does
    | with_reducible apply iteO_does
    | (apply Sparse.wf_set; assumption)
    | exact rfl
    | intro _
    | dsimp only
    | split

theorem releaseAuth_does {A : List Part} {b₀ : State} (cause : Status) (s : State) 
    (hD : Does A b₀ s) (hA : partsIn [.block 0x09, .block 0x0C, .free, .strand, .pair, .can, .sup, .out] A = true) : Does A b₀ (releaseAuth cause s) := by
  unfold releaseAuth
  repeat' first
    | with_reducible assumption
    | with_reducible apply canWithdrawAll_does
    | with_reducible apply hbSend_does
    | with_reducible apply raiseF_does
    | with_reducible apply setFlag_does
    | with_reducible apply setFld_does
    | ((with_reducible refine partsIn_trans ?_ hA); exact rfl)
    | ((with_reducible refine listed_code ?_ hA); exact rfl)
    | exact fun (h : Sparse.wf _ _ = true) => h
    | with_reducible apply next_does
    | with_reducible apply id_does
    | with_reducible apply ite_does
    | with_reducible apply iteO_does
    | (apply Sparse.wf_set; assumption)
    | exact rfl
    | intro _
    | dsimp only
    | split
    | with_reducible apply upd_sup

theorem moduleEbb_does {A : List Part} {b₀ : State} (st : Status) (s : State) 
    (hD : Does A b₀ s) (hA : partsIn [.block 0x01, .block 0x09, .block 0x0C, .free, .strand, .pair, .can, .sup, .out] A = true) : Does A b₀ (moduleEbb st s) := by
  unfold moduleEbb
  repeat' first
    | with_reducible assumption
    | with_reducible apply pairTo_does
    | with_reducible apply raiseF_does
    | with_reducible apply releaseAuth_does
    | with_reducible apply sayD_does
    | with_reducible apply setFlag_does
    | ((with_reducible refine partsIn_trans ?_ hA); exact rfl)
    | ((with_reducible refine listed_code ?_ hA); exact rfl)
    | exact fun (h : Sparse.wf _ _ = true) => h
    | with_reducible apply next_does
    | with_reducible apply id_does
    | with_reducible apply ite_does
    | with_reducible apply iteO_does
    | (apply Sparse.wf_set; assumption)
    | exact rfl
    | intro _
    | dsimp only
    | split

theorem forceLocks_does {A : List Part} {b₀ : State} (p : Nat → LockHold → Bool) (s : State) 
    (hD : Does A b₀ s) (hA : partsIn [.free, .strand, .mbx, .out] A = true) : Does A b₀ (forceLocks p s) := by
  unfold forceLocks
  repeat' first
    | with_reducible assumption
    | with_reducible apply forAll_does
    | with_reducible apply say_does
    | ((with_reducible refine partsIn_trans ?_ hA); exact rfl)
    | ((with_reducible refine listed_code ?_ hA); exact rfl)
    | exact fun (h : Sparse.wf _ _ = true) => h
    | with_reducible apply next_does
    | with_reducible apply id_does
    | with_reducible apply ite_does
    | with_reducible apply iteO_does
    | (apply Sparse.wf_set; assumption)
    | exact rfl
    | intro _
    | dsimp only
    | split
    | with_reducible apply upd_locks

theorem markFallback_does {A : List Part} {b₀ : State} (r : Nat) (s : State) 
    (hD : Does A b₀ s) (hA : partsIn [.block 0x01, .free, .strand, .mbx, .out] A = true) : Does A b₀ (markFallback r s) := by
  unfold markFallback
  repeat' first
    | with_reducible assumption
    | with_reducible apply forceLocks_does
    | with_reducible apply raiseF_does
    | with_reducible apply sayRegion_does
    | with_reducible apply setBitAt_does
    | ((with_reducible refine partsIn_trans ?_ hA); exact rfl)
    | ((with_reducible refine listed_code ?_ hA); exact rfl)
    | exact fun (h : Sparse.wf _ _ = true) => h
    | with_reducible apply next_does
    | with_reducible apply id_does
    | with_reducible apply ite_does
    | with_reducible apply iteO_does
    | (apply Sparse.wf_set; assumption)
    | exact rfl
    | intro _
    | dsimp only
    | split

end Sys2Proof.Machine
end

