-- ==== Sys2Proof/Laws/OnlyQueue.lean ====
section
/-! SUPPORT. What each operation of Machine/Queue.lean can do: the parts of the state it may change, and that it keeps
canonical form. -/
namespace Sys2Proof.Machine

theorem queEvent_does {A : List Part} {b₀ : State} (q : Nat) (s : State) 
    (hD : Does A b₀ s) (hA : partsIn [.block 0x13, .out] A = true) : Does A b₀ (queEvent q s) := by
  unfold queEvent
  repeat' first
    | with_reducible assumption
    | with_reducible apply raise_does
    | ((with_reducible refine listed_block 19 ?_ ?_ hA); first | omega | (dsimp only [Reg.QUE_EV_HI, Reg.QUE_EV_LO, queEvReg]; omega) | (dsimp only [Reg.QUE_EV_HI, Reg.QUE_EV_LO, queEvReg]; split <;> omega); exact rfl)
    | ((with_reducible refine partsIn_trans ?_ hA); exact rfl)
    | ((with_reducible refine listed_code ?_ hA); exact rfl)
    | exact fun (h : Sparse.wf _ _ = true) => h
    | with_reducible apply next_does
    | with_reducible apply id_does
    | with_reducible apply ite_does
    | with_reducible apply iteO_does
    | (apply Sparse.wf_set; assumption)
    | exact rfl
    | intro _
    | dsimp only
    | split

theorem quePush_does {A : List Part} {b₀ : State} (q : Nat) (flags : Nat) (src : Nat) (stamp : DWord) (payload : List Byte) (s : State) 
    (hD : Does A b₀ s) (hA : partsIn [.block 0x13, .free, .mem, .strand, .queSeq, .out] A = true) : Does A b₀ (quePush q flags src stamp payload s) := by
  unfold quePush
  repeat' first
    | with_reducible assumption
    | with_reducible apply bump_does
    | with_reducible apply msetBytes_does
    | with_reducible apply onlyIf_does
    | with_reducible apply queEvent_does
    | with_reducible apply say_does
    | with_reducible apply setFld_does
    | ((with_reducible refine listed_block 19 ?_ ?_ hA); first | omega | (dsimp only [Fld.QUEq_CFG_ENTRIES_LOG2, Fld.QUEq_CFG_SLOT_LOG2, Fld.QUEq_CFG_THRESH, Fld.QUEq_COUNTS_DROP, Fld.QUEq_HEAD_INDEX, queEntries, queHead, queSlot]; omega) | (dsimp only [Fld.QUEq_CFG_ENTRIES_LOG2, Fld.QUEq_CFG_SLOT_LOG2, Fld.QUEq_CFG_THRESH, Fld.QUEq_COUNTS_DROP, Fld.QUEq_HEAD_INDEX, queEntries, queHead, queSlot]; split <;> omega); exact rfl)
    | ((with_reducible refine partsIn_trans ?_ hA); exact rfl)
    | ((with_reducible refine listed_code ?_ hA); exact rfl)
    | exact fun (h : Sparse.wf _ _ = true) => h
    | with_reducible apply next_does
    | with_reducible apply id_does
    | with_reducible apply ite_does
    | with_reducible apply iteO_does
    | (apply Sparse.wf_set; assumption)
    | exact rfl
    | intro _
    | dsimp only
    | split
    | with_reducible apply upd_queSeq

theorem queFree_does {A : List Part} {b₀ : State} (q : Nat) (s : State) 
    (hD : Does A b₀ s) (hA : partsIn [.block 0x13, .out] A = true) : Does A b₀ (queFree q s) := by
  unfold queFree
  repeat' first
    | with_reducible assumption
    | with_reducible apply onlyIf_does
    | with_reducible apply queEvent_does
    | with_reducible apply setFld_does
    | ((with_reducible refine listed_block 19 ?_ ?_ hA); first | omega | (dsimp only [Fld.QUEq_CFG_ENTRIES_LOG2, Fld.QUEq_TAIL_INDEX, queEntries, queTail]; omega) | (dsimp only [Fld.QUEq_CFG_ENTRIES_LOG2, Fld.QUEq_TAIL_INDEX, queEntries, queTail]; split <;> omega); exact rfl)
    | ((with_reducible refine partsIn_trans ?_ hA); exact rfl)
    | ((with_reducible refine listed_code ?_ hA); exact rfl)
    | exact fun (h : Sparse.wf _ _ = true) => h
    | with_reducible apply next_does
    | with_reducible apply id_does
    | with_reducible apply ite_does
    | with_reducible apply iteO_does
    | (apply Sparse.wf_set; assumption)
    | exact rfl
    | intro _
    | dsimp only
    | split

theorem queTake_does {A : List Part} {b₀ : State} (q : Nat) (k : List Byte → State → State) (s : State) (h_k : ∀ x0 u, Does A b₀ u → Does A b₀ (k x0 u))
    (hD : Does A b₀ s) (hA : partsIn [.block 0x13, .out] A = true) : Does A b₀ (queTake q k s) := by
  unfold queTake
  repeat' first
    | with_reducible assumption
    | with_reducible apply h_k
    | with_reducible apply queFree_does
    | with_reducible apply setFlag_does
    | ((with_reducible refine listed_block 19 ?_ ?_ hA); first | omega | (dsimp only [Fld.QUEq_CFG_SLOT_LOG2, Fld.QUEq_STATUS_LAST_ERR, Fld.QUEq_TAIL_INDEX, queSlot, queTail]; omega) | (dsimp only [Fld.QUEq_CFG_SLOT_LOG2, Fld.QUEq_STATUS_LAST_ERR, Fld.QUEq_TAIL_INDEX, queSlot, queTail]; split <;> omega); exact rfl)
    | ((with_reducible refine partsIn_trans ?_ hA); exact rfl)
    | ((with_reducible refine listed_code ?_ hA); exact rfl)
    | exact fun (h : Sparse.wf _ _ = true) => h
    | with_reducible apply next_does
    | with_reducible apply id_does
    | with_reducible apply ite_does
    | with_reducible apply iteO_does
    | (apply Sparse.wf_set; assumption)
    | exact rfl
    | intro _
    | dsimp only
    | split

end Sys2Proof.Machine
end

