-- ==== Sys2Proof/Laws/OnlyCells.lean ====
section
/-! SUPPORT. What each operation of Machine/Cells.lean can do: the parts of the state it may change, and that it keeps
canonical form. -/
namespace Sys2Proof.Machine

theorem onDio_does {A : List Part} {b₀ : State} (n : Nat) (f : DioCh → DioCh) (s : State) 
    (hD : Does A b₀ s) (hA : partsIn [.dio] A = true) : Does A b₀ (onDio n f s) := by
  unfold onDio
  repeat' first
    | with_reducible assumption
    | ((with_reducible refine partsIn_trans ?_ hA); exact rfl)
    | ((with_reducible refine listed_code ?_ hA); exact rfl)
    | exact fun (h : Sparse.wf _ _ = true) => h
    | with_reducible apply next_does
    | with_reducible apply id_does
    | with_reducible apply ite_does
    | with_reducible apply iteO_does
    | (apply Sparse.wf_set; assumption)
    | exact rfl
    | intro _
    | dsimp only
    | split
    | with_reducible apply upd_dio

theorem onDioBank_does {A : List Part} {b₀ : State} (k : Nat) (f : DioBank → DioBank) (s : State) 
    (hD : Does A b₀ s) (hA : partsIn [.dio] A = true) : Does A b₀ (onDioBank k f s) := by
  unfold onDioBank
  repeat' first
    | with_reducible assumption
    | ((with_reducible refine partsIn_trans ?_ hA); exact rfl)
    | ((with_reducible refine listed_code ?_ hA); exact rfl)
    | exact fun (h : Sparse.wf _ _ = true) => h
    | with_reducible apply next_does
    | with_reducible apply id_does
    | with_reducible apply ite_does
    | with_reducible apply iteO_does
    | (apply Sparse.wf_set; assumption)
    | exact rfl
    | intro _
    | dsimp only
    | split
    | with_reducible apply upd_dioBank

theorem setPo_does {A : List Part} {b₀ : State} (n : Nat) (c : PoCh) (s : State) 
    (hD : Does A b₀ s) (hA : partsIn [.dio] A = true) : Does A b₀ (setPo n c s) := by
  unfold setPo
  repeat' first
    | with_reducible assumption
    | ((with_reducible refine partsIn_trans ?_ hA); exact rfl)
    | ((with_reducible refine listed_code ?_ hA); exact rfl)
    | exact fun (h : Sparse.wf _ _ = true) => h
    | with_reducible apply next_does
    | with_reducible apply id_does
    | with_reducible apply ite_does
    | with_reducible apply iteO_does
    | (apply Sparse.wf_set; assumption)
    | exact rfl
    | intro _
    | dsimp only
    | split
    | with_reducible apply upd_po

theorem onTerm_does {A : List Part} {b₀ : State} (j : Nat) (f : Term → Term) (s : State) 
    (hD : Does A b₀ s) (hA : partsIn [.rfx] A = true) : Does A b₀ (onTerm j f s) := by
  unfold onTerm
  repeat' first
    | with_reducible assumption
    | ((with_reducible refine partsIn_trans ?_ hA); exact rfl)
    | ((with_reducible refine listed_code ?_ hA); exact rfl)
    | exact fun (h : Sparse.wf _ _ = true) => h
    | with_reducible apply next_does
    | with_reducible apply id_does
    | with_reducible apply ite_does
    | with_reducible apply iteO_does
    | (apply Sparse.wf_set; assumption)
    | exact rfl
    | intro _
    | dsimp only
    | split
    | with_reducible apply upd_terms

theorem onAn_does {A : List Part} {b₀ : State} (n : Nat) (f : AnCh → AnCh) (s : State) 
    (hD : Does A b₀ s) (hA : partsIn [.ana] A = true) : Does A b₀ (onAn n f s) := by
  unfold onAn
  repeat' first
    | with_reducible assumption
    | ((with_reducible refine partsIn_trans ?_ hA); exact rfl)
    | ((with_reducible refine listed_code ?_ hA); exact rfl)
    | exact fun (h : Sparse.wf _ _ = true) => h
    | with_reducible apply next_does
    | with_reducible apply id_does
    | with_reducible apply ite_does
    | with_reducible apply iteO_does
    | (apply Sparse.wf_set; assumption)
    | exact rfl
    | intro _
    | dsimp only
    | split
    | with_reducible apply upd_an

theorem onAnBank_does {A : List Part} {b₀ : State} (k : Nat) (f : AnBank → AnBank) (s : State) 
    (hD : Does A b₀ s) (hA : partsIn [.ana] A = true) : Does A b₀ (onAnBank k f s) := by
  unfold onAnBank
  repeat' first
    | with_reducible assumption
    | ((with_reducible refine partsIn_trans ?_ hA); exact rfl)
    | ((with_reducible refine listed_code ?_ hA); exact rfl)
    | exact fun (h : Sparse.wf _ _ = true) => h
    | with_reducible apply next_does
    | with_reducible apply id_does
    | with_reducible apply ite_does
    | with_reducible apply iteO_does
    | (apply Sparse.wf_set; assumption)
    | exact rfl
    | intro _
    | dsimp only
    | split
    | with_reducible apply upd_anBank

theorem onSq_does {A : List Part} {b₀ : State} (n : Nat) (f : SqOut → SqOut) (s : State) 
    (hD : Does A b₀ s) (hA : partsIn [.saf] A = true) : Does A b₀ (onSq n f s) := by
  unfold onSq
  repeat' first
    | with_reducible assumption
    | ((with_reducible refine partsIn_trans ?_ hA); exact rfl)
    | ((with_reducible refine listed_code ?_ hA); exact rfl)
    | exact fun (h : Sparse.wf _ _ = true) => h
    | with_reducible apply next_does
    | with_reducible apply id_does
    | with_reducible apply ite_does
    | with_reducible apply iteO_does
    | (apply Sparse.wf_set; assumption)
    | exact rfl
    | intro _
    | dsimp only
    | split
    | with_reducible apply upd_saf

theorem onSi_does {A : List Part} {b₀ : State} (p : Nat) (f : SiPair → SiPair) (s : State) 
    (hD : Does A b₀ s) (hA : partsIn [.saf] A = true) : Does A b₀ (onSi p f s) := by
  unfold onSi
  repeat' first
    | with_reducible assumption
    | ((with_reducible refine partsIn_trans ?_ hA); exact rfl)
    | ((with_reducible refine listed_code ?_ hA); exact rfl)
    | exact fun (h : Sparse.wf _ _ = true) => h
    | with_reducible apply next_does
    | with_reducible apply id_does
    | with_reducible apply ite_does
    | with_reducible apply iteO_does
    | (apply Sparse.wf_set; assumption)
    | exact rfl
    | intro _
    | dsimp only
    | split
    | with_reducible apply upd_saf

theorem onTTOut_does {A : List Part} {b₀ : State} (c : Nat) (f : TTOut → TTOut) (s : State) 
    (hD : Does A b₀ s) (hA : partsIn [.tideTable] A = true) : Does A b₀ (onTTOut c f s) := by
  unfold onTTOut
  repeat' first
    | with_reducible assumption
    | ((with_reducible refine partsIn_trans ?_ hA); exact rfl)
    | ((with_reducible refine listed_code ?_ hA); exact rfl)
    | exact fun (h : Sparse.wf _ _ = true) => h
    | with_reducible apply next_does
    | with_reducible apply id_does
    | with_reducible apply ite_does
    | with_reducible apply iteO_does
    | (apply Sparse.wf_set; assumption)
    | exact rfl
    | intro _
    | dsimp only
    | split
    | with_reducible apply upd_ttOut

theorem tagMemSet_does {A : List Part} {b₀ : State} (slot : Nat) (v : DWord) (s : State) 
    (hD : Does A b₀ s) (hA : partsIn [.exe] A = true) : Does A b₀ (tagMemSet slot v s) := by
  unfold tagMemSet
  repeat' first
    | with_reducible assumption
    | ((with_reducible refine partsIn_trans ?_ hA); exact rfl)
    | ((with_reducible refine listed_code ?_ hA); exact rfl)
    | exact fun (h : Sparse.wf _ _ = true) => h
    | with_reducible apply next_does
    | with_reducible apply id_does
    | with_reducible apply ite_does
    | with_reducible apply iteO_does
    | (apply Sparse.wf_set; assumption)
    | exact rfl
    | intro _
    | dsimp only
    | split
    | with_reducible apply upd_exe

theorem setTagFlags_does {A : List Part} {b₀ : State} (t : Nat) (stale : Bool) (invalid : Bool) (s : State) 
    (hD : Does A b₀ s) (hA : partsIn [.exe] A = true) : Does A b₀ (setTagFlags t stale invalid s) := by
  unfold setTagFlags
  repeat' first
    | with_reducible assumption
    | ((with_reducible refine partsIn_trans ?_ hA); exact rfl)
    | ((with_reducible refine listed_code ?_ hA); exact rfl)
    | exact fun (h : Sparse.wf _ _ = true) => h
    | with_reducible apply next_does
    | with_reducible apply id_does
    | with_reducible apply ite_does
    | with_reducible apply iteO_does
    | (apply Sparse.wf_set; assumption)
    | exact rfl
    | intro _
    | dsimp only
    | split
    | with_reducible apply upd_exe

theorem setCommitted_does {A : List Part} {b₀ : State} (t : Nat) (v : DWord) (s : State) 
    (hD : Does A b₀ s) (hA : partsIn [.exe] A = true) : Does A b₀ (setCommitted t v s) := by
  unfold setCommitted
  repeat' first
    | with_reducible assumption
    | ((with_reducible refine partsIn_trans ?_ hA); exact rfl)
    | ((with_reducible refine listed_code ?_ hA); exact rfl)
    | exact fun (h : Sparse.wf _ _ = true) => h
    | with_reducible apply next_does
    | with_reducible apply id_does
    | with_reducible apply ite_does
    | with_reducible apply iteO_does
    | (apply Sparse.wf_set; assumption)
    | exact rfl
    | intro _
    | dsimp only
    | split
    | with_reducible apply upd_exe

theorem dropCommitted_does {A : List Part} {b₀ : State} (t : Nat) (s : State) 
    (hD : Does A b₀ s) (hA : partsIn [.exe] A = true) : Does A b₀ (dropCommitted t s) := by
  unfold dropCommitted
  repeat' first
    | with_reducible assumption
    | ((with_reducible refine partsIn_trans ?_ hA); exact rfl)
    | ((with_reducible refine listed_code ?_ hA); exact rfl)
    | exact fun (h : Sparse.wf _ _ = true) => h
    | with_reducible apply next_does
    | with_reducible apply id_does
    | with_reducible apply ite_does
    | with_reducible apply iteO_does
    | (apply Sparse.wf_set; assumption)
    | exact rfl
    | intro _
    | dsimp only
    | split
    | with_reducible apply upd_exe

theorem dioRearm_does {A : List Part} {b₀ : State} (n : Nat) (s : State) 
    (hD : Does A b₀ s) (hA : partsIn [.free, .strand, .dio, .out] A = true) : Does A b₀ (dioRearm n s) := by
  unfold dioRearm
  repeat' first
    | with_reducible assumption
    | with_reducible apply onDio_does
    | with_reducible apply say_does
    | ((with_reducible refine partsIn_trans ?_ hA); exact rfl)
    | ((with_reducible refine listed_code ?_ hA); exact rfl)
    | exact fun (h : Sparse.wf _ _ = true) => h
    | with_reducible apply next_does
    | with_reducible apply id_does
    | with_reducible apply ite_does
    | with_reducible apply iteO_does
    | (apply Sparse.wf_set; assumption)
    | exact rfl
    | intro _
    | dsimp only
    | split

theorem dioSettleCh_does {A : List Part} {b₀ : State} (n : Nat) (s : State) 
    (hD : Does A b₀ s) (hA : partsIn [.free, .strand, .dio, .out] A = true) : Does A b₀ (dioSettleCh n s) := by
  unfold dioSettleCh
  repeat' first
    | with_reducible assumption
    | with_reducible apply dioRearm_does
    | with_reducible apply onDio_does
    | ((with_reducible refine partsIn_trans ?_ hA); exact rfl)
    | ((with_reducible refine listed_code ?_ hA); exact rfl)
    | exact fun (h : Sparse.wf _ _ = true) => h
    | with_reducible apply next_does
    | with_reducible apply id_does
    | with_reducible apply ite_does
    | with_reducible apply iteO_does
    | (apply Sparse.wf_set; assumption)
    | exact rfl
    | intro _
    | dsimp only
    | split

theorem poSettle_does {A : List Part} {b₀ : State} (k : Nat) (s : State) 
    (hD : Does A b₀ s) (hA : partsIn [.dio] A = true) : Does A b₀ (poSettle k s) := by
  unfold poSettle
  repeat' first
    | with_reducible assumption
    | with_reducible apply setPo_does
    | ((with_reducible refine partsIn_trans ?_ hA); exact rfl)
    | ((with_reducible refine listed_code ?_ hA); exact rfl)
    | exact fun (h : Sparse.wf _ _ = true) => h
    | with_reducible apply next_does
    | with_reducible apply id_does
    | with_reducible apply ite_does
    | with_reducible apply iteO_does
    | (apply Sparse.wf_set; assumption)
    | exact rfl
    | intro _
    | dsimp only
    | split

theorem anSettle_does {A : List Part} {b₀ : State} (n : Nat) (s : State) 
    (hD : Does A b₀ s) (hA : partsIn [.free, .strand, .ana, .out] A = true) : Does A b₀ (anSettle n s) := by
  unfold anSettle
  repeat' first
    | with_reducible assumption
    | with_reducible apply onAn_does
    | with_reducible apply onlyIf_does
    | with_reducible apply say_does
    | ((with_reducible refine partsIn_trans ?_ hA); exact rfl)
    | ((with_reducible refine listed_code ?_ hA); exact rfl)
    | exact fun (h : Sparse.wf _ _ = true) => h
    | with_reducible apply next_does
    | with_reducible apply id_does
    | with_reducible apply ite_does
    | with_reducible apply iteO_does
    | (apply Sparse.wf_set; assumption)
    | exact rfl
    | intro _
    | dsimp only
    | split

theorem dioReenable_does {A : List Part} {b₀ : State} (k : Nat) (s : State) 
    (hD : Does A b₀ s) (hA : partsIn [.block 0x05, .free, .strand, .dio, .out] A = true) : Does A b₀ (dioReenable k s) := by
  unfold dioReenable
  repeat' first
    | with_reducible assumption
    | with_reducible apply forAll_does
    | with_reducible apply onDio_does
    | with_reducible apply onDioBank_does
    | with_reducible apply raiseF_does
    | with_reducible apply say_does
    | ((with_reducible refine listed_block 5 ?_ ?_ hA); first | omega | (dsimp only [Fld.DIO_BANKk_CFG_EN, Fld.DIO_EVENT_BANK_REEN]; omega) | (dsimp only [Fld.DIO_BANKk_CFG_EN, Fld.DIO_EVENT_BANK_REEN]; split <;> omega); exact rfl)
    | ((with_reducible refine partsIn_trans ?_ hA); exact rfl)
    | ((with_reducible refine listed_code ?_ hA); exact rfl)
    | exact fun (h : Sparse.wf _ _ = true) => h
    | with_reducible apply next_does
    | with_reducible apply id_does
    | with_reducible apply ite_does
    | with_reducible apply iteO_does
    | (apply Sparse.wf_set; assumption)
    | exact rfl
    | intro _
    | dsimp only
    | split

theorem dioReenCmd_does {A : List Part} {b₀ : State} (k : Nat) (s : State) 
    (hD : Does A b₀ s) (hA : partsIn [.block 0x05, .free, .strand, .dio, .out] A = true) : Does A b₀ (dioReenCmd k s) := by
  unfold dioReenCmd
  repeat' first
    | with_reducible assumption
    | with_reducible apply dioReenable_does
    | with_reducible apply say_does
    | ((with_reducible refine partsIn_trans ?_ hA); exact rfl)
    | ((with_reducible refine listed_code ?_ hA); exact rfl)
    | exact fun (h : Sparse.wf _ _ = true) => h
    | with_reducible apply next_does
    | with_reducible apply id_does
    | with_reducible apply ite_does
    | with_reducible apply iteO_does
    | (apply Sparse.wf_set; assumption)
    | exact rfl
    | intro _
    | dsimp only
    | split

theorem dioReenTag_does {A : List Part} {b₀ : State} (k : Nat) (s : State) 
    (hD : Does A b₀ s) (hA : partsIn [.block 0x05, .free, .strand, .dio, .out] A = true) : Does A b₀ (dioReenTag k s) := by
  unfold dioReenTag
  repeat' first
    | with_reducible assumption
    | with_reducible apply dioReenCmd_does
    | with_reducible apply onDioBank_does
    | ((with_reducible refine listed_block 5 ?_ ?_ hA); first | omega | (dsimp only [Fld.DIO_BANKk_CFG_REEN_TAG, Fld.DIO_BANKk_CFG_REEN_TAG_EN]; omega) | (dsimp only [Fld.DIO_BANKk_CFG_REEN_TAG, Fld.DIO_BANKk_CFG_REEN_TAG_EN]; split <;> omega); exact rfl)
    | ((with_reducible refine partsIn_trans ?_ hA); exact rfl)
    | ((with_reducible refine listed_code ?_ hA); exact rfl)
    | exact fun (h : Sparse.wf _ _ = true) => h
    | with_reducible apply next_does
    | with_reducible apply id_does
    | with_reducible apply ite_does
    | with_reducible apply iteO_does
    | (apply Sparse.wf_set; assumption)
    | exact rfl
    | intro _
    | dsimp only
    | split

theorem settle_does {A : List Part} {b₀ : State}  (s : State) 
    (hD : Does A b₀ s) (hA : partsIn [.free, .strand, .dio, .ana, .out] A = true) : Does A b₀ (settle s) := by
  unfold settle
  repeat' first
    | with_reducible assumption
    | with_reducible apply anSettle_does
    | with_reducible apply dioSettleCh_does
    | with_reducible apply forAll_does
    | with_reducible apply poSettle_does
    | ((with_reducible refine partsIn_trans ?_ hA); exact rfl)
    | ((with_reducible refine listed_code ?_ hA); exact rfl)
    | exact fun (h : Sparse.wf _ _ = true) => h
    | with_reducible apply next_does
    | with_reducible apply id_does
    | with_reducible apply ite_does
    | with_reducible apply iteO_does
    | (apply Sparse.wf_set; assumption)
    | exact rfl
    | intro _
    | dsimp only
    | split

theorem tagStore_does {A : List Part} {b₀ : State} (t : Nat) (v : DWord) (s : State) 
    (hD : Does A b₀ s) (hA : partsIn [.block 0x05, .free, .strand, .exe, .dio, .out] A = true) : Does A b₀ (tagStore t v s) := by
  unfold tagStore
  repeat' first
    | with_reducible assumption
    | with_reducible apply dioReenTag_does
    | with_reducible apply forAll_does
    | with_reducible apply setCommitted_does
    | with_reducible apply tagMemSet_does
    | ((with_reducible refine partsIn_trans ?_ hA); exact rfl)
    | ((with_reducible refine listed_code ?_ hA); exact rfl)
    | exact fun (h : Sparse.wf _ _ = true) => h
    | with_reducible apply next_does
    | with_reducible apply id_does
    | with_reducible apply ite_does
    | with_reducible apply iteO_does
    | (apply Sparse.wf_set; assumption)
    | exact rfl
    | intro _
    | dsimp only
    | split

end Sys2Proof.Machine
end

