-- ==== Sys2Proof/Laws/OnlyTasks.lean ====
section
/-! SUPPORT. What each operation of Machine/Tasks.lean can do: the parts of the state it may change, and that it keeps
canonical form. -/
namespace Sys2Proof.Machine

theorem onTask_does {A : List Part} {b₀ : State} (t : Nat) (f : Task → Task) (s : State) 
    (hD : Does A b₀ s) (hA : partsIn [.exe] A = true) : Does A b₀ (onTask t f s) := by
  unfold onTask
  repeat' first
    | with_reducible assumption
    | ((with_reducible refine partsIn_trans ?_ hA); exact rfl)
    | ((with_reducible refine listed_code ?_ hA); exact rfl)
    | exact fun (h : Sparse.wf _ _ = true) => h
    | with_reducible apply next_does
    | with_reducible apply id_does
    | with_reducible apply ite_does
    | with_reducible apply iteO_does
    | (apply Sparse.wf_set; assumption)
    | exact rfl
    | intro _
    | dsimp only
    | split
    | with_reducible apply upd_exe

theorem signalTask_does {A : List Part} {b₀ : State} (e : Nat) (s : State) 
    (hD : Does A b₀ s) (hA : partsIn [.block 0x03, .free, .strand, .exe, .out] A = true) : Does A b₀ (signalTask e s) := by
  unfold signalTask
  repeat' first
    | with_reducible assumption
    | with_reducible apply bump_does
    | with_reducible apply onTask_does
    | with_reducible apply raiseF_does
    | with_reducible apply say_does
    | with_reducible apply sayD_does
    | ((with_reducible refine listed_block 3 ?_ ?_ hA); first | omega | (dsimp only [Fld.EXE_EVENT_EVT_MERGED, Fld.TASKt_COUNTS_MERGED]; omega) | (dsimp only [Fld.EXE_EVENT_EVT_MERGED, Fld.TASKt_COUNTS_MERGED]; split <;> omega); exact rfl)
    | ((with_reducible refine partsIn_trans ?_ hA); exact rfl)
    | ((with_reducible refine listed_code ?_ hA); exact rfl)
    | exact fun (h : Sparse.wf _ _ = true) => h
    | with_reducible apply next_does
    | with_reducible apply id_does
    | with_reducible apply ite_does
    | with_reducible apply iteO_does
    | (apply Sparse.wf_set; assumption)
    | exact rfl
    | intro _
    | dsimp only
    | split

theorem signalSource_does {A : List Part} {b₀ : State} (src : Nat) (index : Nat) (s : State) 
    (hD : Does A b₀ s) (hA : partsIn [.block 0x03, .free, .strand, .exe, .out] A = true) : Does A b₀ (signalSource src index s) := by
  unfold signalSource
  repeat' first
    | with_reducible assumption
    | with_reducible apply forAll_does
    | with_reducible apply signalTask_does
    | ((with_reducible refine partsIn_trans ?_ hA); exact rfl)
    | ((with_reducible refine listed_code ?_ hA); exact rfl)
    | exact fun (h : Sparse.wf _ _ = true) => h
    | with_reducible apply next_does
    | with_reducible apply id_does
    | with_reducible apply ite_does
    | with_reducible apply iteO_does
    | (apply Sparse.wf_set; assumption)
    | exact rfl
    | intro _
    | dsimp only
    | split

end Sys2Proof.Machine
end

