-- ==== Sys2Proof/Laws/OnlyCanOps.lean ====
section
/-! SUPPORT. What each operation of Machine/CanOps.lean can do: the parts of the state it may change, and that it keeps
canonical form. -/
namespace Sys2Proof.Machine

theorem canCount_does {A : List Part} {b₀ : State} (c : Nat) (tec : Nat) (rec : Nat) (s : State) 
    (hD : Does A b₀ s) (hA : partsIn [.block 0x0C, .free, .strand, .out] A = true) : Does A b₀ (canCount c tec rec s) := by
  unfold canCount
  repeat' first
    | with_reducible assumption
    | with_reducible apply raiseF_does
    | with_reducible apply say_does
    | with_reducible apply setFld_does
    | ((with_reducible refine listed_block 12 ?_ ?_ hA); first | omega | (dsimp only [Fld.CAN_EVENT_BUS_OFF, Fld.CAN_EVENT_ERR_STATE, Fld.CNc_CFG_AUTO_RECOVER, Fld.CNc_STATUS_REC, Fld.CNc_STATUS_STATE, Fld.CNc_STATUS_TEC, canState]; omega) | (dsimp only [Fld.CAN_EVENT_BUS_OFF, Fld.CAN_EVENT_ERR_STATE, Fld.CNc_CFG_AUTO_RECOVER, Fld.CNc_STATUS_REC, Fld.CNc_STATUS_STATE, Fld.CNc_STATUS_TEC, canState]; split <;> omega); exact rfl)
    | ((with_reducible refine partsIn_trans ?_ hA); exact rfl)
    | ((with_reducible refine listed_code ?_ hA); exact rfl)
    | exact fun (h : Sparse.wf _ _ = true) => h
    | with_reducible apply next_does
    | with_reducible apply id_does
    | with_reducible apply ite_does
    | with_reducible apply iteO_does
    | (apply Sparse.wf_set; assumption)
    | exact rfl
    | intro _
    | dsimp only
    | split

theorem canSwapCheck_does {A : List Part} {b₀ : State}  (s : State) 
    (hD : Does A b₀ s) (hA : partsIn [.free, .strand, .can, .out] A = true) : Does A b₀ (canSwapCheck s) := by
  unfold canSwapCheck
  repeat' first
    | with_reducible assumption
    | with_reducible apply canSay_does
    | with_reducible apply forAll_does
    | with_reducible apply onCan_does
    | ((with_reducible refine partsIn_trans ?_ hA); exact rfl)
    | ((with_reducible refine listed_code ?_ hA); exact rfl)
    | exact fun (h : Sparse.wf _ _ = true) => h
    | with_reducible apply next_does
    | with_reducible apply id_does
    | with_reducible apply ite_does
    | with_reducible apply iteO_does
    | (apply Sparse.wf_set; assumption)
    | exact rfl
    | intro _
    | dsimp only
    | split

theorem canStaleTags_does {A : List Part} {b₀ : State} (c : Nat) (b : Nat) (stale : Bool) (s : State) 
    (hD : Does A b₀ s) (hA : partsIn [.exe] A = true) : Does A b₀ (canStaleTags c b stale s) := by
  unfold canStaleTags
  repeat' first
    | with_reducible assumption
    | with_reducible apply forAll_does
    | with_reducible apply setTagFlags_does
    | ((with_reducible refine partsIn_trans ?_ hA); exact rfl)
    | ((with_reducible refine listed_code ?_ hA); exact rfl)
    | exact fun (h : Sparse.wf _ _ = true) => h
    | with_reducible apply next_does
    | with_reducible apply id_does
    | with_reducible apply ite_does
    | with_reducible apply iteO_does
    | (apply Sparse.wf_set; assumption)
    | exact rfl
    | intro _
    | dsimp only
    | split

theorem canFail_does {A : List Part} {b₀ : State}  (s : State) 
    (hD : Does A b₀ s) (hA : partsIn [.exe] A = true) : Does A b₀ (canFail s) := by
  unfold canFail
  repeat' first
    | with_reducible assumption
    | with_reducible apply canStaleTags_does
    | with_reducible apply forAll_does
    | ((with_reducible refine partsIn_trans ?_ hA); exact rfl)
    | ((with_reducible refine listed_code ?_ hA); exact rfl)
    | exact fun (h : Sparse.wf _ _ = true) => h
    | with_reducible apply next_does
    | with_reducible apply id_does
    | with_reducible apply ite_does
    | with_reducible apply iteO_does
    | (apply Sparse.wf_set; assumption)
    | exact rfl
    | intro _
    | dsimp only
    | split

theorem canAsk_does {A : List Part} {b₀ : State} (c : Nat) (b : Nat) (s : State) 
    (hD : Does A b₀ s) (hA : partsIn [.can] A = true) : Does A b₀ (canAsk c b s) := by
  unfold canAsk
  repeat' first
    | with_reducible assumption
    | with_reducible apply onCan_does
    | ((with_reducible refine partsIn_trans ?_ hA); exact rfl)
    | ((with_reducible refine listed_code ?_ hA); exact rfl)
    | exact fun (h : Sparse.wf _ _ = true) => h
    | with_reducible apply next_does
    | with_reducible apply id_does
    | with_reducible apply ite_does
    | with_reducible apply iteO_does
    | (apply Sparse.wf_set; assumption)
    | exact rfl
    | intro _
    | dsimp only
    | split

theorem canActive_does {A : List Part} {b₀ : State}  (s : State) 
    (hD : Does A b₀ s) (hA : partsIn [.can] A = true) : Does A b₀ (canActive s) := by
  unfold canActive
  repeat' first
    | with_reducible assumption
    | with_reducible apply forAll_does
    | with_reducible apply onCan_does
    | ((with_reducible refine partsIn_trans ?_ hA); exact rfl)
    | ((with_reducible refine listed_code ?_ hA); exact rfl)
    | exact fun (h : Sparse.wf _ _ = true) => h
    | with_reducible apply next_does
    | with_reducible apply id_does
    | with_reducible apply ite_does
    | with_reducible apply iteO_does
    | (apply Sparse.wf_set; assumption)
    | exact rfl
    | intro _
    | dsimp only
    | split

theorem canSample_does {A : List Part} {b₀ : State} (c : Nat) (b : Nat) (s : State) 
    (hD : Does A b₀ s) (hA : partsIn [.can] A = true) : Does A b₀ (canSample c b s) := by
  unfold canSample
  repeat' first
    | with_reducible assumption
    | with_reducible apply onCan_does
    | ((with_reducible refine partsIn_trans ?_ hA); exact rfl)
    | ((with_reducible refine listed_code ?_ hA); exact rfl)
    | exact fun (h : Sparse.wf _ _ = true) => h
    | with_reducible apply next_does
    | with_reducible apply id_does
    | with_reducible apply ite_does
    | with_reducible apply iteO_does
    | (apply Sparse.wf_set; assumption)
    | exact rfl
    | intro _
    | dsimp only
    | split

theorem canCommitBuf_does {A : List Part} {b₀ : State} (c : Nat) (b : Nat) (s : State) 
    (hD : Does A b₀ s) (hA : partsIn [.can] A = true) : Does A b₀ (canCommitBuf c b s) := by
  unfold canCommitBuf
  repeat' first
    | with_reducible assumption
    | with_reducible apply canAsk_does
    | with_reducible apply canSample_does
    | with_reducible apply onlyIf_does
    | ((with_reducible refine partsIn_trans ?_ hA); exact rfl)
    | ((with_reducible refine listed_code ?_ hA); exact rfl)
    | exact fun (h : Sparse.wf _ _ = true) => h
    | with_reducible apply next_does
    | with_reducible apply id_does
    | with_reducible apply ite_does
    | with_reducible apply iteO_does
    | (apply Sparse.wf_set; assumption)
    | exact rfl
    | intro _
    | dsimp only
    | split

theorem canCommit_does {A : List Part} {b₀ : State} (t : Nat) (s : State) 
    (hD : Does A b₀ s) (hA : partsIn [.can] A = true) : Does A b₀ (canCommit t s) := by
  unfold canCommit
  repeat' first
    | with_reducible assumption
    | with_reducible apply canCommitBuf_does
    | with_reducible apply forAll_does
    | ((with_reducible refine partsIn_trans ?_ hA); exact rfl)
    | ((with_reducible refine listed_code ?_ hA); exact rfl)
    | exact fun (h : Sparse.wf _ _ = true) => h
    | with_reducible apply next_does
    | with_reducible apply id_does
    | with_reducible apply ite_does
    | with_reducible apply iteO_does
    | (apply Sparse.wf_set; assumption)
    | exact rfl
    | intro _
    | dsimp only
    | split

end Sys2Proof.Machine
end

