-- ==== Sys2Proof/Laws/OnlyLoopOps.lean ====
section
/-! SUPPORT. What each operation of Machine/LoopOps.lean can do: the parts of the state it may change, and that it keeps
canonical form. -/
namespace Sys2Proof.Machine

theorem setSlot_does {A : List Part} {b₀ : State} (k : Nat) (x : LoopSlot) (s : State) 
    (hD : Does A b₀ s) (hA : partsIn [.loop] A = true) : Does A b₀ (setSlot k x s) := by
  unfold setSlot
  repeat' first
    | with_reducible assumption
    | ((with_reducible refine partsIn_trans ?_ hA); exact rfl)
    | ((with_reducible refine listed_code ?_ hA); exact rfl)
    | exact fun (h : Sparse.wf _ _ = true) => h
    | with_reducible apply next_does
    | with_reducible apply id_does
    | with_reducible apply ite_does
    | with_reducible apply iteO_does
    | (apply Sparse.wf_set; assumption)
    | exact rfl
    | intro _
    | dsimp only
    | split
    | with_reducible apply upd_loop

theorem onSlot_does {A : List Part} {b₀ : State} (k : Nat) (f : LoopSlot → LoopSlot) (s : State) 
    (hD : Does A b₀ s) (hA : partsIn [.loop] A = true) : Does A b₀ (onSlot k f s) := by
  unfold onSlot
  repeat' first
    | with_reducible assumption
    | with_reducible apply setSlot_does
    | ((with_reducible refine partsIn_trans ?_ hA); exact rfl)
    | ((with_reducible refine listed_code ?_ hA); exact rfl)
    | exact fun (h : Sparse.wf _ _ = true) => h
    | with_reducible apply next_does
    | with_reducible apply id_does
    | with_reducible apply ite_does
    | with_reducible apply iteO_does
    | (apply Sparse.wf_set; assumption)
    | exact rfl
    | intro _
    | dsimp only
    | split

theorem slotSay_does {A : List Part} {b₀ : State} (k : Nat) (st : Status) (s : State) 
    (hD : Does A b₀ s) (hA : partsIn [.free, .strand, .loop, .out] A = true) : Does A b₀ (slotSay k st s) := by
  unfold slotSay
  repeat' first
    | with_reducible assumption
    | with_reducible apply onSlot_does
    | with_reducible apply say_does
    | ((with_reducible refine partsIn_trans ?_ hA); exact rfl)
    | ((with_reducible refine listed_code ?_ hA); exact rfl)
    | exact fun (h : Sparse.wf _ _ = true) => h
    | with_reducible apply next_does
    | with_reducible apply id_does
    | with_reducible apply ite_does
    | with_reducible apply iteO_does
    | (apply Sparse.wf_set; assumption)
    | exact rfl
    | intro _
    | dsimp only
    | split

theorem slotRefuse_does {A : List Part} {b₀ : State} (k : Nat) (st : Status) (s : State) 
    (hD : Does A b₀ s) (hA : partsIn [.block 0x04, .free, .strand, .loop, .out] A = true) : Does A b₀ (slotRefuse k st s) := by
  unfold slotRefuse
  repeat' first
    | with_reducible assumption
    | with_reducible apply raiseF_does
    | with_reducible apply slotSay_does
    | ((with_reducible refine partsIn_trans ?_ hA); exact rfl)
    | ((with_reducible refine listed_code ?_ hA); exact rfl)
    | exact fun (h : Sparse.wf _ _ = true) => h
    | with_reducible apply next_does
    | with_reducible apply id_does
    | with_reducible apply ite_does
    | with_reducible apply iteO_does
    | (apply Sparse.wf_set; assumption)
    | exact rfl
    | intro _
    | dsimp only
    | split

theorem markOut_does {A : List Part} {b₀ : State} (k : Nat) (s : State) 
    (hD : Does A b₀ s) (hA : partsIn [.exe] A = true) : Does A b₀ (markOut k s) := by
  unfold markOut
  repeat' first
    | with_reducible assumption
    | with_reducible apply setTagFlags_does
    | ((with_reducible refine partsIn_trans ?_ hA); exact rfl)
    | ((with_reducible refine listed_code ?_ hA); exact rfl)
    | exact fun (h : Sparse.wf _ _ = true) => h
    | with_reducible apply next_does
    | with_reducible apply id_does
    | with_reducible apply ite_does
    | with_reducible apply iteO_does
    | (apply Sparse.wf_set; assumption)
    | exact rfl
    | intro _
    | dsimp only
    | split

theorem slotMirror_does {A : List Part} {b₀ : State} (k : Nat) (s : State) 
    (hD : Does A b₀ s) (hA : partsIn [.pair, .out] A = true) : Does A b₀ (slotMirror k s) := by
  unfold slotMirror
  repeat' first
    | with_reducible assumption
    | with_reducible apply cwMirror_does
    | ((with_reducible refine partsIn_trans ?_ hA); exact rfl)
    | ((with_reducible refine listed_code ?_ hA); exact rfl)
    | exact fun (h : Sparse.wf _ _ = true) => h
    | with_reducible apply next_does
    | with_reducible apply id_does
    | with_reducible apply ite_does
    | with_reducible apply iteO_does
    | (apply Sparse.wf_set; assumption)
    | exact rfl
    | intro _
    | dsimp only
    | split

theorem slotFallback_does {A : List Part} {b₀ : State} (k : Nat) (a : FbAction) (s : State) 
    (hD : Does A b₀ s) (hA : partsIn [.block 0x04, .free, .strand, .exe, .loop, .pair, .out] A = true) : Does A b₀ (slotFallback k a s) := by
  unfold slotFallback
  repeat' first
    | with_reducible assumption
    | with_reducible apply markOut_does
    | with_reducible apply onSlot_does
    | with_reducible apply onlyIf_does
    | with_reducible apply raiseF_does
    | with_reducible apply slotMirror_does
    | with_reducible apply slotSay_does
    | ((with_reducible refine partsIn_trans ?_ hA); exact rfl)
    | ((with_reducible refine listed_code ?_ hA); exact rfl)
    | exact fun (h : Sparse.wf _ _ = true) => h
    | with_reducible apply next_does
    | with_reducible apply id_does
    | with_reducible apply ite_does
    | with_reducible apply iteO_does
    | (apply Sparse.wf_set; assumption)
    | exact rfl
    | intro _
    | dsimp only
    | split

theorem slotRecover_does {A : List Part} {b₀ : State} (k : Nat) (s : State) 
    (hD : Does A b₀ s) (hA : partsIn [.block 0x04, .free, .strand, .exe, .loop, .out] A = true) : Does A b₀ (slotRecover k s) := by
  unfold slotRecover
  repeat' first
    | with_reducible assumption
    | with_reducible apply markOut_does
    | with_reducible apply onSlot_does
    | with_reducible apply raiseF_does
    | with_reducible apply slotSay_does
    | ((with_reducible refine partsIn_trans ?_ hA); exact rfl)
    | ((with_reducible refine listed_code ?_ hA); exact rfl)
    | exact fun (h : Sparse.wf _ _ = true) => h
    | with_reducible apply next_does
    | with_reducible apply id_does
    | with_reducible apply ite_does
    | with_reducible apply iteO_does
    | (apply Sparse.wf_set; assumption)
    | exact rfl
    | intro _
    | dsimp only
    | split

theorem slotCapture_does {A : List Part} {b₀ : State} (k : Nat) (stamp : DWord) (s : State) 
    (hD : Does A b₀ s) (hA : partsIn [.loop] A = true) : Does A b₀ (slotCapture k stamp s) := by
  unfold slotCapture
  repeat' first
    | with_reducible assumption
    | with_reducible apply setSlot_does
    | ((with_reducible refine partsIn_trans ?_ hA); exact rfl)
    | ((with_reducible refine listed_code ?_ hA); exact rfl)
    | exact fun (h : Sparse.wf _ _ = true) => h
    | with_reducible apply next_does
    | with_reducible apply id_does
    | with_reducible apply ite_does
    | with_reducible apply iteO_does
    | (apply Sparse.wf_set; assumption)
    | exact rfl
    | intro _
    | dsimp only
    | split

theorem condFound_does {A : List Part} {b₀ : State} (k : Nat) (st : Status) (f : LoopSlot → LoopSlot) (s : State) 
    (hD : Does A b₀ s) (hA : partsIn [.block 0x04, .free, .strand, .exe, .loop, .pair, .out] A = true) : Does A b₀ (condFound k st f s) := by
  unfold condFound
  repeat' first
    | with_reducible assumption
    | with_reducible apply onSlot_does
    | with_reducible apply slotFallback_does
    | with_reducible apply slotSay_does
    | ((with_reducible refine partsIn_trans ?_ hA); exact rfl)
    | ((with_reducible refine listed_code ?_ hA); exact rfl)
    | exact fun (h : Sparse.wf _ _ = true) => h
    | with_reducible apply next_does
    | with_reducible apply id_does
    | with_reducible apply ite_does
    | with_reducible apply iteO_does
    | (apply Sparse.wf_set; assumption)
    | exact rfl
    | intro _
    | dsimp only
    | split

theorem supervise_does {A : List Part} {b₀ : State} (k : Nat) (j : Judge) (s : State) 
    (hD : Does A b₀ s) (hA : partsIn [.block 0x04, .free, .strand, .exe, .loop, .pair, .out] A = true) : Does A b₀ (supervise k j s) := by
  unfold supervise
  repeat' first
    | with_reducible assumption
    | with_reducible apply bump_does
    | with_reducible apply condFound_does
    | with_reducible apply onSlot_does
    | with_reducible apply onlyIf_does
    | with_reducible apply slotFallback_does
    | with_reducible apply slotRecover_does
    | ((with_reducible refine partsIn_trans ?_ hA); exact rfl)
    | ((with_reducible refine listed_code ?_ hA); exact rfl)
    | exact fun (h : Sparse.wf _ _ = true) => h
    | with_reducible apply next_does
    | with_reducible apply id_does
    | with_reducible apply ite_does
    | with_reducible apply iteO_does
    | (apply Sparse.wf_set; assumption)
    | exact rfl
    | intro _
    | dsimp only
    | split

-- NOBASE controlLaw
theorem slotWrite_does {A : List Part} {b₀ : State} (k : Nat) (s : State) 
    (hD : Does A b₀ s) (hA : partsIn [.block 0x05, .free, .strand, .exe, .dio, .out] A = true) : Does A b₀ (slotWrite k s) := by
  unfold slotWrite
  repeat' first
    | with_reducible assumption
    | with_reducible apply tagStore_does
    | ((with_reducible refine partsIn_trans ?_ hA); exact rfl)
    | ((with_reducible refine listed_code ?_ hA); exact rfl)
    | exact fun (h : Sparse.wf _ _ = true) => h
    | with_reducible apply next_does
    | with_reducible apply id_does
    | with_reducible apply ite_does
    | with_reducible apply iteO_does
    | (apply Sparse.wf_set; assumption)
    | exact rfl
    | intro _
    | dsimp only
    | split

theorem slotRelease_does {A : List Part} {b₀ : State} (k : Nat) (s : State) 
    (hD : Does A b₀ s) (hA : partsIn [.exe] A = true) : Does A b₀ (slotRelease k s) := by
  unfold slotRelease
  repeat' first
    | with_reducible assumption
    | with_reducible apply dropCommitted_does
    | ((with_reducible refine partsIn_trans ?_ hA); exact rfl)
    | ((with_reducible refine listed_code ?_ hA); exact rfl)
    | exact fun (h : Sparse.wf _ _ = true) => h
    | with_reducible apply next_does
    | with_reducible apply id_does
    | with_reducible apply ite_does
    | with_reducible apply iteO_does
    | (apply Sparse.wf_set; assumption)
    | exact rfl
    | intro _
    | dsimp only
    | split

theorem onTrace_does {A : List Part} {b₀ : State} (b : Nat) (f : TraceBuf → TraceBuf) (s : State) 
    (hD : Does A b₀ s) (hA : partsIn [.loop] A = true) : Does A b₀ (onTrace b f s) := by
  unfold onTrace
  repeat' first
    | with_reducible assumption
    | ((with_reducible refine partsIn_trans ?_ hA); exact rfl)
    | ((with_reducible refine listed_code ?_ hA); exact rfl)
    | exact fun (h : Sparse.wf _ _ = true) => h
    | with_reducible apply next_does
    | with_reducible apply id_does
    | with_reducible apply ite_does
    | with_reducible apply iteO_does
    | (apply Sparse.wf_set; assumption)
    | exact rfl
    | intro _
    | dsimp only
    | split
    | with_reducible apply upd_loop

theorem traceTrig_does {A : List Part} {b₀ : State} (b : Nat) (s : State) 
    (hD : Does A b₀ s) (hA : partsIn [.block 0x04, .free, .strand, .loop, .out] A = true) : Does A b₀ (traceTrig b s) := by
  unfold traceTrig
  repeat' first
    | with_reducible assumption
    | with_reducible apply onTrace_does
    | with_reducible apply onlyIf_does
    | with_reducible apply raiseF_does
    | with_reducible apply say_does
    | with_reducible apply setFlag_does
    | with_reducible apply setFld_does
    | ((with_reducible refine listed_block 4 ?_ ?_ hA); first | omega | (dsimp only [Fld.LOOP_EVENT_TRACE_TRIG, Fld.TRBb_POST_POST, Fld.TRBb_STATUS_RUN, Fld.TRBb_STATUS_TRIGGERED, Fld.TRBb_STATUS_TRIG_INDEX, Fld.TRBb_STATUS_WR_INDEX, Fld.TRBb_TRIG_MODE]; omega) | (dsimp only [Fld.LOOP_EVENT_TRACE_TRIG, Fld.TRBb_POST_POST, Fld.TRBb_STATUS_RUN, Fld.TRBb_STATUS_TRIGGERED, Fld.TRBb_STATUS_TRIG_INDEX, Fld.TRBb_STATUS_WR_INDEX, Fld.TRBb_TRIG_MODE]; split <;> omega); exact rfl)
    | ((with_reducible refine partsIn_trans ?_ hA); exact rfl)
    | ((with_reducible refine listed_code ?_ hA); exact rfl)
    | exact fun (h : Sparse.wf _ _ = true) => h
    | with_reducible apply next_does
    | with_reducible apply id_does
    | with_reducible apply ite_does
    | with_reducible apply iteO_does
    | (apply Sparse.wf_set; assumption)
    | exact rfl
    | intro _
    | dsimp only
    | split

theorem tracePut_does {A : List Part} {b₀ : State} (b : Nat) (k : Nat) (s : State) 
    (hD : Does A b₀ s) (hA : partsIn [.block 0x04, .mem, .loop] A = true) : Does A b₀ (tracePut b k s) := by
  unfold tracePut
  repeat' first
    | with_reducible assumption
    | with_reducible apply msetBytes_does
    | with_reducible apply onTrace_does
    | with_reducible apply onlyIf_does
    | with_reducible apply setFlag_does
    | with_reducible apply setFld_does
    | ((with_reducible refine listed_block 4 ?_ ?_ hA); first | omega | (dsimp only [Fld.TRBb_CFG_MASK, Fld.TRBb_STATUS_WRAPPED, Fld.TRBb_STATUS_WR_INDEX, Fld.TRBb_TRIG_MODE, traceMask]; omega) | (dsimp only [Fld.TRBb_CFG_MASK, Fld.TRBb_STATUS_WRAPPED, Fld.TRBb_STATUS_WR_INDEX, Fld.TRBb_TRIG_MODE, traceMask]; split <;> omega); exact rfl)
    | ((with_reducible refine partsIn_trans ?_ hA); exact rfl)
    | ((with_reducible refine listed_code ?_ hA); exact rfl)
    | exact fun (h : Sparse.wf _ _ = true) => h
    | with_reducible apply next_does
    | with_reducible apply id_does
    | with_reducible apply ite_does
    | with_reducible apply iteO_does
    | (apply Sparse.wf_set; assumption)
    | exact rfl
    | intro _
    | dsimp only
    | split

theorem traceSlot_does {A : List Part} {b₀ : State} (k : Nat) (s : State) 
    (hD : Does A b₀ s) (hA : partsIn [.block 0x04, .free, .mem, .strand, .loop, .out] A = true) : Does A b₀ (traceSlot k s) := by
  unfold traceSlot
  repeat' first
    | with_reducible assumption
    | with_reducible apply forAll_does
    | with_reducible apply onSlot_does
    | with_reducible apply onTrace_does
    | with_reducible apply onlyIf_does
    | with_reducible apply tracePut_does
    | with_reducible apply traceTrig_does
    | ((with_reducible refine listed_block 4 ?_ ?_ hA); first | omega | (dsimp only [Fld.TRBb_CFG_SLOT, Fld.TRBb_STATUS_RUN, Fld.TRBb_TRIG_DECIM, Fld.TRBb_TRIG_SRC, Fld.TRBb_TRIG_TAG]; omega) | (dsimp only [Fld.TRBb_CFG_SLOT, Fld.TRBb_STATUS_RUN, Fld.TRBb_TRIG_DECIM, Fld.TRBb_TRIG_SRC, Fld.TRBb_TRIG_TAG]; split <;> omega); exact rfl)
    | ((with_reducible refine partsIn_trans ?_ hA); exact rfl)
    | ((with_reducible refine listed_code ?_ hA); exact rfl)
    | exact fun (h : Sparse.wf _ _ = true) => h
    | with_reducible apply next_does
    | with_reducible apply id_does
    | with_reducible apply ite_does
    | with_reducible apply iteO_does
    | (apply Sparse.wf_set; assumption)
    | exact rfl
    | intro _
    | dsimp only
    | split

theorem ovrFinish_does {A : List Part} {b₀ : State} (g : Nat) (ts : Nat) (s : State) 
    (hD : Does A b₀ s) (hA : partsIn [.block 0x04, .block 0x05, .free, .mem, .strand, .exe, .loop, .dio, .out] A = true) : Does A b₀ (ovrFinish g ts s) := by
  unfold ovrFinish
  repeat' first
    | with_reducible assumption
    | with_reducible apply forAll_does
    | with_reducible apply onSlot_does
    | with_reducible apply say_does
    | with_reducible apply slotWrite_does
    | with_reducible apply traceSlot_does
    | ((with_reducible refine partsIn_trans ?_ hA); exact rfl)
    | ((with_reducible refine listed_code ?_ hA); exact rfl)
    | exact fun (h : Sparse.wf _ _ = true) => h
    | with_reducible apply next_does
    | with_reducible apply id_does
    | with_reducible apply ite_does
    | with_reducible apply iteO_does
    | (apply Sparse.wf_set; assumption)
    | exact rfl
    | intro _
    | dsimp only
    | split
    | with_reducible apply upd_loop

theorem slotOff_does {A : List Part} {b₀ : State} (k : Nat) (s : State) 
    (hD : Does A b₀ s) (hA : partsIn [.exe, .loop] A = true) : Does A b₀ (slotOff k s) := by
  unfold slotOff
  repeat' first
    | with_reducible assumption
    | with_reducible apply forAll_does
    | with_reducible apply markOut_does
    | with_reducible apply onSlot_does
    | with_reducible apply slotRelease_does
    | ((with_reducible refine partsIn_trans ?_ hA); exact rfl)
    | ((with_reducible refine listed_code ?_ hA); exact rfl)
    | exact fun (h : Sparse.wf _ _ = true) => h
    | with_reducible apply next_does
    | with_reducible apply id_does
    | with_reducible apply ite_does
    | with_reducible apply iteO_does
    | (apply Sparse.wf_set; assumption)
    | exact rfl
    | intro _
    | dsimp only
    | split

theorem modeEffect_does {A : List Part} {b₀ : State} (k : Nat) (m : LoopMode) (s : State) 
    (hD : Does A b₀ s) (hA : partsIn [.block 0x04, .free, .strand, .exe, .loop, .pair, .out] A = true) : Does A b₀ (modeEffect k m s) := by
  unfold modeEffect
  repeat' first
    | with_reducible assumption
    | with_reducible apply onSlot_does
    | with_reducible apply slotMirror_does
    | with_reducible apply slotOff_does
    | with_reducible apply slotRecover_does
    | with_reducible apply slotRefuse_does
    | ((with_reducible refine partsIn_trans ?_ hA); exact rfl)
    | ((with_reducible refine listed_code ?_ hA); exact rfl)
    | exact fun (h : Sparse.wf _ _ = true) => h
    | with_reducible apply next_does
    | with_reducible apply id_does
    | with_reducible apply ite_does
    | with_reducible apply iteO_does
    | (apply Sparse.wf_set; assumption)
    | exact rfl
    | intro _
    | dsimp only
    | split

theorem writeEffect_does {A : List Part} {b₀ : State} (k : Nat) (w : SlotWrite) (s : State) 
    (hD : Does A b₀ s) (hA : partsIn [.block 0x04, .free, .strand, .exe, .loop, .pair, .out] A = true) : Does A b₀ (writeEffect k w s) := by
  unfold writeEffect
  repeat' first
    | with_reducible assumption
    | with_reducible apply modeEffect_does
    | with_reducible apply onSlot_does
    | with_reducible apply slotRefuse_does
    | ((with_reducible refine partsIn_trans ?_ hA); exact rfl)
    | ((with_reducible refine listed_code ?_ hA); exact rfl)
    | exact fun (h : Sparse.wf _ _ = true) => h
    | with_reducible apply next_does
    | with_reducible apply id_does
    | with_reducible apply ite_does
    | with_reducible apply iteO_does
    | (apply Sparse.wf_set; assumption)
    | exact rfl
    | intro _
    | dsimp only
    | split

theorem queueWrite_does {A : List Part} {b₀ : State} (k : Nat) (w : SlotWrite) (s : State) 
    (hD : Does A b₀ s) (hA : partsIn [.loop] A = true) : Does A b₀ (queueWrite k w s) := by
  unfold queueWrite
  repeat' first
    | with_reducible assumption
    | with_reducible apply onSlot_does
    | ((with_reducible refine partsIn_trans ?_ hA); exact rfl)
    | ((with_reducible refine listed_code ?_ hA); exact rfl)
    | exact fun (h : Sparse.wf _ _ = true) => h
    | with_reducible apply next_does
    | with_reducible apply id_does
    | with_reducible apply ite_does
    | with_reducible apply iteO_does
    | (apply Sparse.wf_set; assumption)
    | exact rfl
    | intro _
    | dsimp only
    | split

theorem loopPutSp_does {A : List Part} {b₀ : State} (k : Nat) (v : Word) (s : State) 
    (hD : Does A b₀ s) (hA : partsIn [.loop] A = true) : Does A b₀ (loopPutSp k v s).2 := by
  unfold loopPutSp
  repeat' first
    | with_reducible assumption
    | with_reducible apply queueWrite_does
    | ((with_reducible refine partsIn_trans ?_ hA); exact rfl)
    | ((with_reducible refine listed_code ?_ hA); exact rfl)
    | exact fun (h : Sparse.wf _ _ = true) => h
    | with_reducible apply next_does
    | with_reducible apply id_does
    | with_reducible apply ite_does
    | with_reducible apply iteO_does
    | (apply Sparse.wf_set; assumption)
    | exact rfl
    | intro _
    | dsimp only
    | split

theorem loopPutPar_does {A : List Part} {b₀ : State} (k : Nat) (c : Nat) (v : Word) (s : State) 
    (hD : Does A b₀ s) (hA : partsIn [.block 0x04, .free, .strand, .loop, .out] A = true) : Does A b₀ (loopPutPar k c v s).2 := by
  unfold loopPutPar
  repeat' first
    | with_reducible assumption
    | with_reducible apply queueWrite_does
    | with_reducible apply slotRefuse_does
    | ((with_reducible refine partsIn_trans ?_ hA); exact rfl)
    | ((with_reducible refine listed_code ?_ hA); exact rfl)
    | exact fun (h : Sparse.wf _ _ = true) => h
    | with_reducible apply next_does
    | with_reducible apply id_does
    | with_reducible apply ite_does
    | with_reducible apply iteO_does
    | (apply Sparse.wf_set; assumption)
    | exact rfl
    | intro _
    | dsimp only
    | split

theorem loopPutMode_does {A : List Part} {b₀ : State} (k : Nat) (c : Nat) (s : State) 
    (hD : Does A b₀ s) (hA : partsIn [.block 0x04, .free, .strand, .loop, .pair, .out] A = true) : Does A b₀ (loopPutMode k c s).2 := by
  unfold loopPutMode
  repeat' first
    | with_reducible assumption
    | with_reducible apply onSlot_does
    | with_reducible apply queueWrite_does
    | with_reducible apply slotMirror_does
    | with_reducible apply slotRefuse_does
    | ((with_reducible refine partsIn_trans ?_ hA); exact rfl)
    | ((with_reducible refine listed_code ?_ hA); exact rfl)
    | exact fun (h : Sparse.wf _ _ = true) => h
    | with_reducible apply next_does
    | with_reducible apply id_does
    | with_reducible apply ite_does
    | with_reducible apply iteO_does
    | (apply Sparse.wf_set; assumption)
    | exact rfl
    | intro _
    | dsimp only
    | split

theorem applyMirror_does {A : List Part} {b₀ : State} (k : Nat) (s : State) 
    (hD : Does A b₀ s) (hA : partsIn [.exe, .loop] A = true) : Does A b₀ (applyMirror k s) := by
  unfold applyMirror
  repeat' first
    | with_reducible assumption
    | with_reducible apply markOut_does
    | with_reducible apply onSlot_does
    | ((with_reducible refine partsIn_trans ?_ hA); exact rfl)
    | ((with_reducible refine listed_code ?_ hA); exact rfl)
    | exact fun (h : Sparse.wf _ _ = true) => h
    | with_reducible apply next_does
    | with_reducible apply id_does
    | with_reducible apply ite_does
    | with_reducible apply iteO_does
    | (apply Sparse.wf_set; assumption)
    | exact rfl
    | intro _
    | dsimp only
    | split

theorem slotInit_does {A : List Part} {b₀ : State} (k : Nat) (s : State) 
    (hD : Does A b₀ s) (hA : partsIn [.free, .loop] A = true) : Does A b₀ (slotInit k s) := by
  unfold slotInit
  repeat' first
    | with_reducible assumption
    | with_reducible apply onSlot_does
    | with_reducible apply withFree_does
    | ((with_reducible refine partsIn_trans ?_ hA); exact rfl)
    | ((with_reducible refine listed_code ?_ hA); exact rfl)
    | exact fun (h : Sparse.wf _ _ = true) => h
    | with_reducible apply next_does
    | with_reducible apply id_does
    | with_reducible apply ite_does
    | with_reducible apply iteO_does
    | (apply Sparse.wf_set; assumption)
    | exact rfl
    | intro _
    | dsimp only
    | split

theorem checkBackup_does {A : List Part} {b₀ : State} (k : Nat) (s : State) 
    (hD : Does A b₀ s) (hA : partsIn [.free, .strand, .loop, .out] A = true) : Does A b₀ (checkBackup k s) := by
  unfold checkBackup
  repeat' first
    | with_reducible assumption
    | with_reducible apply onSlot_does
    | with_reducible apply onlyIf_does
    | with_reducible apply slotSay_does
    | ((with_reducible refine partsIn_trans ?_ hA); exact rfl)
    | ((with_reducible refine listed_code ?_ hA); exact rfl)
    | exact fun (h : Sparse.wf _ _ = true) => h
    | with_reducible apply next_does
    | with_reducible apply id_does
    | with_reducible apply ite_does
    | with_reducible apply iteO_does
    | (apply Sparse.wf_set; assumption)
    | exact rfl
    | intro _
    | dsimp only
    | split

theorem numericFault_does {A : List Part} {b₀ : State} (k : Nat) (s : State) 
    (hD : Does A b₀ s) (hA : partsIn [.block 0x04, .free, .strand, .exe, .loop, .out] A = true) : Does A b₀ (numericFault k s) := by
  unfold numericFault
  repeat' first
    | with_reducible assumption
    | with_reducible apply markOut_does
    | with_reducible apply onSlot_does
    | with_reducible apply raiseF_does
    | with_reducible apply slotSay_does
    | ((with_reducible refine partsIn_trans ?_ hA); exact rfl)
    | ((with_reducible refine listed_code ?_ hA); exact rfl)
    | exact fun (h : Sparse.wf _ _ = true) => h
    | with_reducible apply next_does
    | with_reducible apply id_does
    | with_reducible apply ite_does
    | with_reducible apply iteO_does
    | (apply Sparse.wf_set; assumption)
    | exact rfl
    | intro _
    | dsimp only
    | split

theorem evalControl_does {A : List Part} {b₀ : State} (k : Nat) (old : LoopSlot) (j : Judge) (ts : Nat) (s : State) 
    (hD : Does A b₀ s) (hA : partsIn [.block 0x04, .block 0x05, .free, .mem, .strand, .exe, .loop, .dio, .out] A = true) : Does A b₀ (evalControl k old j ts s) := by
  unfold evalControl
  repeat' first
    | with_reducible assumption
    | with_reducible apply numericFault_does
    | with_reducible apply onSlot_does
    | with_reducible apply onlyIf_does
    | with_reducible apply setSlot_does
    | with_reducible apply slotWrite_does
    | with_reducible apply traceSlot_does
    | ((with_reducible refine partsIn_trans ?_ hA); exact rfl)
    | ((with_reducible refine listed_code ?_ hA); exact rfl)
    | exact fun (h : Sparse.wf _ _ = true) => h
    | with_reducible apply next_does
    | with_reducible apply id_does
    | with_reducible apply ite_does
    | with_reducible apply iteO_does
    | (apply Sparse.wf_set; assumption)
    | exact rfl
    | intro _
    | dsimp only
    | split
    | with_reducible apply upd_out

theorem laneCount_does {A : List Part} {b₀ : State} (k : Nat) (s : State) 
    (hD : Does A b₀ s) (hA : partsIn [.block 0x04, .loop] A = true) : Does A b₀ (laneCount k s) := by
  unfold laneCount
  repeat' first
    | with_reducible assumption
    | with_reducible apply setFld_does
    | ((with_reducible refine partsIn_trans ?_ hA); exact rfl)
    | ((with_reducible refine listed_code ?_ hA); exact rfl)
    | exact fun (h : Sparse.wf _ _ = true) => h
    | with_reducible apply next_does
    | with_reducible apply id_does
    | with_reducible apply ite_does
    | with_reducible apply iteO_does
    | (apply Sparse.wf_set; assumption)
    | exact rfl
    | intro _
    | dsimp only
    | split
    | with_reducible apply upd_loop

theorem evaluate_does {A : List Part} {b₀ : State} (k : Nat) (s : State) 
    (hD : Does A b₀ s) (hA : partsIn [.block 0x04, .block 0x05, .free, .mem, .strand, .exe, .loop, .dio, .pair, .out] A = true) : Does A b₀ (evaluate k s) := by
  unfold evaluate
  repeat' first
    | with_reducible assumption
    | with_reducible apply applyMirror_does
    | with_reducible apply checkBackup_does
    | with_reducible apply evalControl_does
    | with_reducible apply forAll_does
    | with_reducible apply laneCount_does
    | with_reducible apply onSlot_does
    | with_reducible apply slotInit_does
    | with_reducible apply supervise_does
    | with_reducible apply writeEffect_does
    | ((with_reducible refine partsIn_trans ?_ hA); exact rfl)
    | ((with_reducible refine listed_code ?_ hA); exact rfl)
    | exact fun (h : Sparse.wf _ _ = true) => h
    | with_reducible apply next_does
    | with_reducible apply id_does
    | with_reducible apply ite_does
    | with_reducible apply iteO_does
    | (apply Sparse.wf_set; assumption)
    | exact rfl
    | intro _
    | dsimp only
    | split

theorem evaluateAt_does {A : List Part} {b₀ : State} (k : Nat) (s : State) 
    (hD : Does A b₀ s) (hA : partsIn [.block 0x04, .block 0x05, .free, .mem, .strand, .exe, .loop, .dio, .pair, .out] A = true) : Does A b₀ (evaluateAt k s) := by
  unfold evaluateAt
  repeat' first
    | with_reducible assumption
    | with_reducible apply evaluate_does
    | with_reducible apply onSlot_does
    | with_reducible apply ovrFinish_does
    | ((with_reducible refine partsIn_trans ?_ hA); exact rfl)
    | ((with_reducible refine listed_code ?_ hA); exact rfl)
    | exact fun (h : Sparse.wf _ _ = true) => h
    | with_reducible apply next_does
    | with_reducible apply id_does
    | with_reducible apply ite_does
    | with_reducible apply iteO_does
    | (apply Sparse.wf_set; assumption)
    | exact rfl
    | intro _
    | dsimp only
    | split

theorem loopSample_does {A : List Part} {b₀ : State} (k : Nat) (s : State) 
    (hD : Does A b₀ s) (hA : partsIn [.block 0x04, .free, .strand, .loop, .out] A = true) : Does A b₀ (loopSample k s) := by
  unfold loopSample
  repeat' first
    | with_reducible assumption
    | with_reducible apply bump_does
    | with_reducible apply onSlot_does
    | with_reducible apply slotCapture_does
    | with_reducible apply slotSay_does
    | ((with_reducible refine partsIn_trans ?_ hA); exact rfl)
    | ((with_reducible refine listed_code ?_ hA); exact rfl)
    | exact fun (h : Sparse.wf _ _ = true) => h
    | with_reducible apply next_does
    | with_reducible apply id_does
    | with_reducible apply ite_does
    | with_reducible apply iteO_does
    | (apply Sparse.wf_set; assumption)
    | exact rfl
    | intro _
    | dsimp only
    | split

theorem loopSwapCheck_does {A : List Part} {b₀ : State}  (s : State) 
    (hD : Does A b₀ s) (hA : partsIn [.block 0x04, .free, .strand, .exe, .loop, .out] A = true) : Does A b₀ (loopSwapCheck s) := by
  unfold loopSwapCheck
  repeat' first
    | with_reducible assumption
    | with_reducible apply forAll_does
    | with_reducible apply markOut_does
    | with_reducible apply onSlot_does
    | with_reducible apply raiseF_does
    | with_reducible apply slotSay_does
    | ((with_reducible refine partsIn_trans ?_ hA); exact rfl)
    | ((with_reducible refine listed_code ?_ hA); exact rfl)
    | exact fun (h : Sparse.wf _ _ = true) => h
    | with_reducible apply next_does
    | with_reducible apply id_does
    | with_reducible apply ite_does
    | with_reducible apply iteO_does
    | (apply Sparse.wf_set; assumption)
    | exact rfl
    | intro _
    | dsimp only
    | split

theorem loopRegionFallback_does {A : List Part} {b₀ : State}  (s : State) 
    (hD : Does A b₀ s) (hA : partsIn [.block 0x05, .free, .strand, .exe, .loop, .dio, .out] A = true) : Does A b₀ (loopRegionFallback s) := by
  unfold loopRegionFallback
  repeat' first
    | with_reducible assumption
    | with_reducible apply forAll_does
    | with_reducible apply onSlot_does
    | with_reducible apply slotWrite_does
    | ((with_reducible refine partsIn_trans ?_ hA); exact rfl)
    | ((with_reducible refine listed_code ?_ hA); exact rfl)
    | exact fun (h : Sparse.wf _ _ = true) => h
    | with_reducible apply next_does
    | with_reducible apply id_does
    | with_reducible apply ite_does
    | with_reducible apply iteO_does
    | (apply Sparse.wf_set; assumption)
    | exact rfl
    | intro _
    | dsimp only
    | split

end Sys2Proof.Machine
end

