-- ==== Sys2Proof/Laws/OnlyTideOps.lean ====
section
/-! SUPPORT. What each operation of Machine/TideOps.lean can do: the parts of the state it may change, and that it keeps
canonical form. -/
namespace Sys2Proof.Machine

theorem setTide_does {A : List Part} {b₀ : State} (n : Nat) (t : Tide) (s : State) 
    (hD : Does A b₀ s) (hA : partsIn [.tides] A = true) : Does A b₀ (setTide n t s) := by
  unfold setTide
  repeat' first
    | with_reducible assumption
    | ((with_reducible refine partsIn_trans ?_ hA); exact rfl)
    | ((with_reducible refine listed_code ?_ hA); exact rfl)
    | exact fun (h : Sparse.wf _ _ = true) => h
    | with_reducible apply next_does
    | with_reducible apply id_does
    | with_reducible apply ite_does
    | with_reducible apply iteO_does
    | (apply Sparse.wf_set; assumption)
    | exact rfl
    | intro _
    | dsimp only
    | split
    | with_reducible apply upd_tides

theorem onTide_does {A : List Part} {b₀ : State} (n : Nat) (f : Tide → Tide) (s : State) 
    (hD : Does A b₀ s) (hA : partsIn [.tides] A = true) : Does A b₀ (onTide n f s) := by
  unfold onTide
  repeat' first
    | with_reducible assumption
    | with_reducible apply setTide_does
    | ((with_reducible refine partsIn_trans ?_ hA); exact rfl)
    | ((with_reducible refine listed_code ?_ hA); exact rfl)
    | exact fun (h : Sparse.wf _ _ = true) => h
    | with_reducible apply next_does
    | with_reducible apply id_does
    | with_reducible apply ite_does
    | with_reducible apply iteO_does
    | (apply Sparse.wf_set; assumption)
    | exact rfl
    | intro _
    | dsimp only
    | split

theorem tideEvent_does {A : List Part} {b₀ : State} (f : RegField) (n : Nat) (st : Status) (s : State) (hp_f : (Part.block (f.addr / 65536)).listed A = true)
    (hD : Does A b₀ s) (hA : partsIn [.free, .strand, .out] A = true) : Does A b₀ (tideEvent f n st s) := by
  unfold tideEvent
  repeat' first
    | with_reducible assumption
    | with_reducible exact hp_f
    | with_reducible apply raiseBit_does
    | with_reducible apply say_does
    | ((with_reducible refine partsIn_trans ?_ hA); exact rfl)
    | ((with_reducible refine listed_code ?_ hA); exact rfl)
    | exact fun (h : Sparse.wf _ _ = true) => h
    | with_reducible apply next_does
    | with_reducible apply id_does
    | with_reducible apply ite_does
    | with_reducible apply iteO_does
    | (apply Sparse.wf_set; assumption)
    | exact rfl
    | intro _
    | dsimp only
    | split

theorem tideHold_does {A : List Part} {b₀ : State} (net : Bool) (n : Nat) (s : State) 
    (hD : Does A b₀ s) (hA : partsIn [.block 0x02, .free, .strand, .tides, .out] A = true) : Does A b₀ (tideHold net n s) := by
  unfold tideHold
  repeat' first
    | with_reducible assumption
    | with_reducible apply onTide_does
    | with_reducible apply tideEvent_does
    | with_reducible apply withFree_does
    | ((with_reducible refine partsIn_trans ?_ hA); exact rfl)
    | ((with_reducible refine listed_code ?_ hA); exact rfl)
    | exact fun (h : Sparse.wf _ _ = true) => h
    | with_reducible apply next_does
    | with_reducible apply id_does
    | with_reducible apply ite_does
    | with_reducible apply iteO_does
    | (apply Sparse.wf_set; assumption)
    | exact rfl
    | intro _
    | dsimp only
    | split

theorem tideLock_does {A : List Part} {b₀ : State} (n : Nat) (s : State) 
    (hD : Does A b₀ s) (hA : partsIn [.block 0x02, .free, .strand, .tides, .out] A = true) : Does A b₀ (tideLock n s) := by
  unfold tideLock
  repeat' first
    | with_reducible assumption
    | with_reducible apply onTide_does
    | with_reducible apply setFlag_does
    | with_reducible apply tideEvent_does
    | ((with_reducible refine listed_block 2 ?_ ?_ hA); first | omega | (dsimp only [Fld.TDn_STATUS_RELOCK_HELD, Fld.TIDE_EVENT_LOCKED]; omega) | (dsimp only [Fld.TDn_STATUS_RELOCK_HELD, Fld.TIDE_EVENT_LOCKED]; split <;> omega); exact rfl)
    | ((with_reducible refine partsIn_trans ?_ hA); exact rfl)
    | ((with_reducible refine listed_code ?_ hA); exact rfl)
    | exact fun (h : Sparse.wf _ _ = true) => h
    | with_reducible apply next_does
    | with_reducible apply id_does
    | with_reducible apply ite_does
    | with_reducible apply iteO_does
    | (apply Sparse.wf_set; assumption)
    | exact rfl
    | intro _
    | dsimp only
    | split

theorem tideNetCheck_does {A : List Part} {b₀ : State} (n : Nat) (s : State) 
    (hD : Does A b₀ s) (hA : partsIn [.block 0x02, .free, .strand, .tides, .out] A = true) : Does A b₀ (tideNetCheck n s) := by
  unfold tideNetCheck
  repeat' first
    | with_reducible assumption
    | with_reducible apply tideHold_does
    | ((with_reducible refine listed_block 2 ?_ ?_ hA); first | omega | (dsimp only [Fld.TDn_CFG_SOURCE, tideSource]; omega) | (dsimp only [Fld.TDn_CFG_SOURCE, tideSource]; split <;> omega); exact rfl)
    | ((with_reducible refine partsIn_trans ?_ hA); exact rfl)
    | ((with_reducible refine listed_code ?_ hA); exact rfl)
    | exact fun (h : Sparse.wf _ _ = true) => h
    | with_reducible apply next_does
    | with_reducible apply id_does
    | with_reducible apply ite_does
    | with_reducible apply iteO_does
    | (apply Sparse.wf_set; assumption)
    | exact rfl
    | intro _
    | dsimp only
    | split

theorem tideInputCheck_does {A : List Part} {b₀ : State} (n : Nat) (s : State) 
    (hD : Does A b₀ s) (hA : partsIn [.block 0x02, .free, .strand, .tides, .out] A = true) : Does A b₀ (tideInputCheck n s) := by
  unfold tideInputCheck
  repeat' first
    | with_reducible assumption
    | with_reducible apply setFlag_does
    | with_reducible apply tideHold_does
    | ((with_reducible refine listed_block 2 ?_ ?_ hA); first | omega | (dsimp only [Fld.TDn_CFG_SOURCE, Fld.TDn_STATUS_LINE_FAULT, tideSource]; omega) | (dsimp only [Fld.TDn_CFG_SOURCE, Fld.TDn_STATUS_LINE_FAULT, tideSource]; split <;> omega); exact rfl)
    | ((with_reducible refine partsIn_trans ?_ hA); exact rfl)
    | ((with_reducible refine listed_code ?_ hA); exact rfl)
    | exact fun (h : Sparse.wf _ _ = true) => h
    | with_reducible apply next_does
    | with_reducible apply id_does
    | with_reducible apply ite_does
    | with_reducible apply iteO_does
    | (apply Sparse.wf_set; assumption)
    | exact rfl
    | intro _
    | dsimp only
    | split

theorem tidesNetCheck_does {A : List Part} {b₀ : State}  (s : State) 
    (hD : Does A b₀ s) (hA : partsIn [.block 0x02, .free, .strand, .tides, .out] A = true) : Does A b₀ (tidesNetCheck s) := by
  unfold tidesNetCheck
  repeat' first
    | with_reducible assumption
    | with_reducible apply forAll_does
    | with_reducible apply tideNetCheck_does
    | ((with_reducible refine partsIn_trans ?_ hA); exact rfl)
    | ((with_reducible refine listed_code ?_ hA); exact rfl)
    | exact fun (h : Sparse.wf _ _ = true) => h
    | with_reducible apply next_does
    | with_reducible apply id_does
    | with_reducible apply ite_does
    | with_reducible apply iteO_does
    | (apply Sparse.wf_set; assumption)
    | exact rfl
    | intro _
    | dsimp only
    | split

theorem tideEnable_does {A : List Part} {b₀ : State} (n : Nat) (s : State) 
    (hD : Does A b₀ s) (hA : partsIn [.block 0x02, .free, .strand, .tides, .out] A = true) : Does A b₀ (tideEnable n s) := by
  unfold tideEnable
  repeat' first
    | with_reducible assumption
    | with_reducible apply onTide_does
    | with_reducible apply onlyIf_does
    | with_reducible apply say_does
    | with_reducible apply setBitAt_does
    | with_reducible apply setFlag_does
    | with_reducible apply setFld_does
    | with_reducible apply tideInputCheck_does
    | with_reducible apply tideLock_does
    | with_reducible apply tideNetCheck_does
    | ((with_reducible refine listed_block 2 ?_ ?_ hA); first | omega | (dsimp only [Fld.TDn_AMPL_AMPL, Fld.TDn_CFG_SOURCE, Fld.TDn_STATUS_CFG_CONFLICT, Reg.TIDE_CTRL, Reg.TIDE_LOCK, tideSource]; omega) | (dsimp only [Fld.TDn_AMPL_AMPL, Fld.TDn_CFG_SOURCE, Fld.TDn_STATUS_CFG_CONFLICT, Reg.TIDE_CTRL, Reg.TIDE_LOCK, tideSource]; split <;> omega); exact rfl)
    | ((with_reducible refine partsIn_trans ?_ hA); exact rfl)
    | ((with_reducible refine listed_code ?_ hA); exact rfl)
    | exact fun (h : Sparse.wf _ _ = true) => h
    | with_reducible apply next_does
    | with_reducible apply id_does
    | with_reducible apply ite_does
    | with_reducible apply iteO_does
    | (apply Sparse.wf_set; assumption)
    | exact rfl
    | intro _
    | dsimp only
    | split

theorem tideDisable_does {A : List Part} {b₀ : State} (n : Nat) (s : State) 
    (hD : Does A b₀ s) (hA : partsIn [.block 0x02, .tides] A = true) : Does A b₀ (tideDisable n s) := by
  unfold tideDisable
  repeat' first
    | with_reducible assumption
    | with_reducible apply onTide_does
    | with_reducible apply setBitAt_does
    | with_reducible apply setFlag_does
    | ((with_reducible refine listed_block 2 ?_ ?_ hA); first | omega | (dsimp only [Fld.TDn_STATUS_CFG_CONFLICT, Fld.TDn_STATUS_RELOCK_HELD, Reg.TIDE_CTRL]; omega) | (dsimp only [Fld.TDn_STATUS_CFG_CONFLICT, Fld.TDn_STATUS_RELOCK_HELD, Reg.TIDE_CTRL]; split <;> omega); exact rfl)
    | ((with_reducible refine partsIn_trans ?_ hA); exact rfl)
    | ((with_reducible refine listed_code ?_ hA); exact rfl)
    | exact fun (h : Sparse.wf _ _ = true) => h
    | with_reducible apply next_does
    | with_reducible apply id_does
    | with_reducible apply ite_does
    | with_reducible apply iteO_does
    | (apply Sparse.wf_set; assumption)
    | exact rfl
    | intro _
    | dsimp only
    | split

theorem tideResync_does {A : List Part} {b₀ : State} (n : Nat) (s : State) 
    (hD : Does A b₀ s) (hA : partsIn [.block 0x02, .free, .strand, .tides, .out] A = true) : Does A b₀ (tideResync n s) := by
  unfold tideResync
  repeat' first
    | with_reducible assumption
    | with_reducible apply onTide_does
    | with_reducible apply tideEvent_does
    | ((with_reducible refine listed_block 2 ?_ ?_ hA); first | omega | (dsimp only [Fld.TDn_CFG_SOURCE, Fld.TIDE_EVENT_JUMP, tideSource]; omega) | (dsimp only [Fld.TDn_CFG_SOURCE, Fld.TIDE_EVENT_JUMP, tideSource]; split <;> omega); exact rfl)
    | ((with_reducible refine partsIn_trans ?_ hA); exact rfl)
    | ((with_reducible refine listed_code ?_ hA); exact rfl)
    | exact fun (h : Sparse.wf _ _ = true) => h
    | with_reducible apply next_does
    | with_reducible apply id_does
    | with_reducible apply ite_does
    | with_reducible apply iteO_does
    | (apply Sparse.wf_set; assumption)
    | exact rfl
    | intro _
    | dsimp only
    | split

theorem tideMissed_does {A : List Part} {b₀ : State} (n : Nat) (s : State) 
    (hD : Does A b₀ s) (hA : partsIn [.block 0x02, .free, .strand, .tides, .out] A = true) : Does A b₀ (tideMissed n s) := by
  unfold tideMissed
  repeat' first
    | with_reducible assumption
    | with_reducible apply bump_does
    | with_reducible apply onTide_does
    | with_reducible apply tideHold_does
    | ((with_reducible refine listed_block 2 ?_ ?_ hA); first | omega | (dsimp only [Fld.TDn_CFG_HOLD_ENTRY, Fld.TDn_COUNTS_MISS]; omega) | (dsimp only [Fld.TDn_CFG_HOLD_ENTRY, Fld.TDn_COUNTS_MISS]; split <;> omega); exact rfl)
    | ((with_reducible refine partsIn_trans ?_ hA); exact rfl)
    | ((with_reducible refine listed_code ?_ hA); exact rfl)
    | exact fun (h : Sparse.wf _ _ = true) => h
    | with_reducible apply next_does
    | with_reducible apply id_does
    | with_reducible apply ite_does
    | with_reducible apply iteO_does
    | (apply Sparse.wf_set; assumption)
    | exact rfl
    | intro _
    | dsimp only
    | split

theorem tideAccept_does {A : List Part} {b₀ : State} (n : Nat) (p : TidePend) (s : State) 
    (hD : Does A b₀ s) (hA : partsIn [.block 0x02, .tides] A = true) : Does A b₀ (tideAccept n p s) := by
  unfold tideAccept
  repeat' first
    | with_reducible assumption
    | with_reducible apply onTide_does
    | with_reducible apply setFlag_does
    | ((with_reducible refine listed_block 2 ?_ ?_ hA); first | omega | (dsimp only [Fld.TDn_STATUS_REF_OK]; omega) | (dsimp only [Fld.TDn_STATUS_REF_OK]; split <;> omega); exact rfl)
    | ((with_reducible refine partsIn_trans ?_ hA); exact rfl)
    | ((with_reducible refine listed_code ?_ hA); exact rfl)
    | exact fun (h : Sparse.wf _ _ = true) => h
    | with_reducible apply next_does
    | with_reducible apply id_does
    | with_reducible apply ite_does
    | with_reducible apply iteO_does
    | (apply Sparse.wf_set; assumption)
    | exact rfl
    | intro _
    | dsimp only
    | split

theorem mainsCrossing_does {A : List Part} {b₀ : State} (n : Nat) (positive : Bool) (peak : Nat) (tk : Nat) (s : State) 
    (hD : Does A b₀ s) (hA : partsIn [.block 0x02, .free, .strand, .tides, .out] A = true) : Does A b₀ (mainsCrossing n positive peak tk s) := by
  unfold mainsCrossing
  repeat' first
    | with_reducible assumption
    | with_reducible apply onTide_does
    | with_reducible apply onlyIf_does
    | with_reducible apply say_does
    | with_reducible apply setFlag_does
    | with_reducible apply setFld_does
    | with_reducible apply tideAccept_does
    | with_reducible apply tideMissed_does
    | ((with_reducible refine listed_block 2 ?_ ?_ hA); first | omega | (dsimp only [Fld.TDn_AMPL_AMPL, Fld.TDn_CFG_MEAS_EDGES, Fld.TDn_STATUS_AMPL_LOW, Fld.TDn_STATUS_FREQ_RANGE, Fld.TDn_STATUS_PHASE_REJECT, Fld.TDn_STATUS_REF_OK, Fld.TDn_WINDOWS_FILTER, crossSpan]; omega) | (dsimp only [Fld.TDn_AMPL_AMPL, Fld.TDn_CFG_MEAS_EDGES, Fld.TDn_STATUS_AMPL_LOW, Fld.TDn_STATUS_FREQ_RANGE, Fld.TDn_STATUS_PHASE_REJECT, Fld.TDn_STATUS_REF_OK, Fld.TDn_WINDOWS_FILTER, crossSpan]; split <;> omega); exact rfl)
    | ((with_reducible refine partsIn_trans ?_ hA); exact rfl)
    | ((with_reducible refine listed_code ?_ hA); exact rfl)
    | exact fun (h : Sparse.wf _ _ = true) => h
    | with_reducible apply next_does
    | with_reducible apply id_does
    | with_reducible apply ite_does
    | with_reducible apply iteO_does
    | (apply Sparse.wf_set; assumption)
    | exact rfl
    | intro _
    | dsimp only
    | split

theorem tideMiss_does {A : List Part} {b₀ : State} (n : Nat) (s : State) 
    (hD : Does A b₀ s) (hA : partsIn [.block 0x02, .free, .strand, .tides, .out] A = true) : Does A b₀ (tideMiss n s) := by
  unfold tideMiss
  repeat' first
    | with_reducible assumption
    | with_reducible apply onTide_does
    | with_reducible apply tideMissed_does
    | ((with_reducible refine partsIn_trans ?_ hA); exact rfl)
    | ((with_reducible refine listed_code ?_ hA); exact rfl)
    | exact fun (h : Sparse.wf _ _ = true) => h
    | with_reducible apply next_does
    | with_reducible apply id_does
    | with_reducible apply ite_does
    | with_reducible apply iteO_does
    | (apply Sparse.wf_set; assumption)
    | exact rfl
    | intro _
    | dsimp only
    | split

theorem moveP_does {A : List Part} {b₀ : State} (n : Nat) (forward : Bool) (s : State) 
    (hD : Does A b₀ s) (hA : partsIn [.tides] A = true) : Does A b₀ (moveP n forward s) := by
  unfold moveP
  repeat' first
    | with_reducible assumption
    | with_reducible apply onTide_does
    | ((with_reducible refine partsIn_trans ?_ hA); exact rfl)
    | ((with_reducible refine listed_code ?_ hA); exact rfl)
    | exact fun (h : Sparse.wf _ _ = true) => h
    | with_reducible apply next_does
    | with_reducible apply id_does
    | with_reducible apply ite_does
    | with_reducible apply iteO_does
    | (apply Sparse.wf_set; assumption)
    | exact rfl
    | intro _
    | dsimp only
    | split

theorem indexSet_does {A : List Part} {b₀ : State} (n : Nat) (s : State) 
    (hD : Does A b₀ s) (hA : partsIn [.block 0x02, .free, .strand, .tides, .out] A = true) : Does A b₀ (indexSet n s) := by
  unfold indexSet
  repeat' first
    | with_reducible assumption
    | with_reducible apply onTide_does
    | with_reducible apply tideEvent_does
    | ((with_reducible refine partsIn_trans ?_ hA); exact rfl)
    | ((with_reducible refine listed_code ?_ hA); exact rfl)
    | exact fun (h : Sparse.wf _ _ = true) => h
    | with_reducible apply next_does
    | with_reducible apply id_does
    | with_reducible apply ite_does
    | with_reducible apply iteO_does
    | (apply Sparse.wf_set; assumption)
    | exact rfl
    | intro _
    | dsimp only
    | split

theorem indexPulse_does {A : List Part} {b₀ : State} (n : Nat) (s : State) 
    (hD : Does A b₀ s) (hA : partsIn [.block 0x02, .free, .strand, .tides, .out] A = true) : Does A b₀ (indexPulse n s) := by
  unfold indexPulse
  repeat' first
    | with_reducible assumption
    | with_reducible apply indexSet_does
    | with_reducible apply onTide_does
    | with_reducible apply say_does
    | with_reducible apply setFlag_does
    | ((with_reducible refine listed_block 2 ?_ ?_ hA); first | omega | (dsimp only [Fld.TDn_CFG_INDEX_MODE, Fld.TDn_STATUS_INDEX_ERR, Reg.TDn_SCALE, tideScale]; omega) | (dsimp only [Fld.TDn_CFG_INDEX_MODE, Fld.TDn_STATUS_INDEX_ERR, Reg.TDn_SCALE, tideScale]; split <;> omega); exact rfl)
    | ((with_reducible refine partsIn_trans ?_ hA); exact rfl)
    | ((with_reducible refine listed_code ?_ hA); exact rfl)
    | exact fun (h : Sparse.wf _ _ = true) => h
    | with_reducible apply next_does
    | with_reducible apply id_does
    | with_reducible apply ite_does
    | with_reducible apply iteO_does
    | (apply Sparse.wf_set; assumption)
    | exact rfl
    | intro _
    | dsimp only
    | split

theorem tideMeasure_does {A : List Part} {b₀ : State} (n : Nat) (s : State) 
    (hD : Does A b₀ s) (hA : partsIn [.block 0x02, .free, .strand, .tides, .out] A = true) : Does A b₀ (tideMeasure n s) := by
  unfold tideMeasure
  repeat' first
    | with_reducible assumption
    | with_reducible apply onTide_does
    | with_reducible apply setFlag_does
    | with_reducible apply tideAccept_does
    | with_reducible apply tideMissed_does
    | with_reducible apply tideNetCheck_does
    | ((with_reducible refine listed_block 2 ?_ ?_ hA); first | omega | (dsimp only [Fld.TDn_CFG_SOURCE, Fld.TDn_STATUS_QUAD_ERR, Fld.TDn_STATUS_REF_OK, tideSource]; omega) | (dsimp only [Fld.TDn_CFG_SOURCE, Fld.TDn_STATUS_QUAD_ERR, Fld.TDn_STATUS_REF_OK, tideSource]; split <;> omega); exact rfl)
    | ((with_reducible refine partsIn_trans ?_ hA); exact rfl)
    | ((with_reducible refine listed_code ?_ hA); exact rfl)
    | exact fun (h : Sparse.wf _ _ = true) => h
    | with_reducible apply next_does
    | with_reducible apply id_does
    | with_reducible apply ite_does
    | with_reducible apply iteO_does
    | (apply Sparse.wf_set; assumption)
    | exact rfl
    | intro _
    | dsimp only
    | split

theorem trackerUpdate_does {A : List Part} {b₀ : State} (n : Nat) (s : State) 
    (hD : Does A b₀ s) (hA : partsIn [.block 0x02, .free, .strand, .tides, .out] A = true) : Does A b₀ (trackerUpdate n s) := by
  unfold trackerUpdate
  repeat' first
    | with_reducible assumption
    | with_reducible apply onTide_does
    | with_reducible apply onlyIf_does
    | with_reducible apply say_does
    | with_reducible apply setFlag_does
    | with_reducible apply tideEvent_does
    | with_reducible apply tideLock_does
    | with_reducible apply wr_does
    | ((with_reducible refine listed_block 2 ?_ ?_ hA); first | omega | (dsimp only [Fld.TDn_CFG_RELOCK_MODE, Fld.TDn_CFG_SOURCE, Fld.TDn_STATUS_RELOCK_HELD, Fld.TDn_WINDOWS_LOCK_COUNT, Fld.TDn_WINDOWS_LOCK_WIN, Fld.TDn_WINDOWS_SLEW_WIN, Fld.TIDE_EVENT_JUMP, Reg.TDn_PHASE_ERR, tideSource]; omega) | (dsimp only [Fld.TDn_CFG_RELOCK_MODE, Fld.TDn_CFG_SOURCE, Fld.TDn_STATUS_RELOCK_HELD, Fld.TDn_WINDOWS_LOCK_COUNT, Fld.TDn_WINDOWS_LOCK_WIN, Fld.TDn_WINDOWS_SLEW_WIN, Fld.TIDE_EVENT_JUMP, Reg.TDn_PHASE_ERR, tideSource]; split <;> omega); exact rfl)
    | ((with_reducible refine partsIn_trans ?_ hA); exact rfl)
    | ((with_reducible refine listed_code ?_ hA); exact rfl)
    | exact fun (h : Sparse.wf _ _ = true) => h
    | with_reducible apply next_does
    | with_reducible apply id_does
    | with_reducible apply ite_does
    | with_reducible apply iteO_does
    | (apply Sparse.wf_set; assumption)
    | exact rfl
    | intro _
    | dsimp only
    | split

theorem tideLost_does {A : List Part} {b₀ : State} (n : Nat) (tie : Bool) (s : State) 
    (hD : Does A b₀ s) (hA : partsIn [.block 0x02, .free, .strand, .tides, .out] A = true) : Does A b₀ (tideLost n tie s) := by
  unfold tideLost
  repeat' first
    | with_reducible assumption
    | with_reducible apply bump_does
    | with_reducible apply onTide_does
    | with_reducible apply tideEvent_does
    | ((with_reducible refine partsIn_trans ?_ hA); exact rfl)
    | ((with_reducible refine listed_code ?_ hA); exact rfl)
    | exact fun (h : Sparse.wf _ _ = true) => h
    | with_reducible apply next_does
    | with_reducible apply id_does
    | with_reducible apply ite_does
    | with_reducible apply iteO_does
    | (apply Sparse.wf_set; assumption)
    | exact rfl
    | intro _
    | dsimp only
    | split

theorem lineFault_does {A : List Part} {b₀ : State} (input : Nat) (z : Bool) (present : Bool) (s : State) 
    (hD : Does A b₀ s) (hA : partsIn [.block 0x02, .free, .strand, .tides, .out] A = true) : Does A b₀ (lineFault input z present s) := by
  unfold lineFault
  repeat' first
    | with_reducible assumption
    | with_reducible apply forAll_does
    | with_reducible apply say_does
    | with_reducible apply setFlag_does
    | with_reducible apply tideHold_does
    | ((with_reducible refine listed_block 2 ?_ ?_ hA); first | omega | (dsimp only [Fld.TDn_STATUS_LINE_FAULT]; omega) | (dsimp only [Fld.TDn_STATUS_LINE_FAULT]; split <;> omega); exact rfl)
    | ((with_reducible refine partsIn_trans ?_ hA); exact rfl)
    | ((with_reducible refine listed_code ?_ hA); exact rfl)
    | exact fun (h : Sparse.wf _ _ = true) => h
    | with_reducible apply next_does
    | with_reducible apply id_does
    | with_reducible apply ite_does
    | with_reducible apply iteO_does
    | (apply Sparse.wf_set; assumption)
    | exact rfl
    | intro _
    | dsimp only
    | split
    | with_reducible apply upd_tiFault

theorem tidesHold_does {A : List Part} {b₀ : State}  (s : State) 
    (hD : Does A b₀ s) (hA : partsIn [.block 0x02, .free, .strand, .tides, .out] A = true) : Does A b₀ (tidesHold s) := by
  unfold tidesHold
  repeat' first
    | with_reducible assumption
    | with_reducible apply forAll_does
    | with_reducible apply tideHold_does
    | ((with_reducible refine listed_block 2 ?_ ?_ hA); first | omega | (dsimp only [Fld.TDn_CFG_SOURCE, tideSource]; omega) | (dsimp only [Fld.TDn_CFG_SOURCE, tideSource]; split <;> omega); exact rfl)
    | ((with_reducible refine partsIn_trans ?_ hA); exact rfl)
    | ((with_reducible refine listed_code ?_ hA); exact rfl)
    | exact fun (h : Sparse.wf _ _ = true) => h
    | with_reducible apply next_does
    | with_reducible apply id_does
    | with_reducible apply ite_does
    | with_reducible apply iteO_does
    | (apply Sparse.wf_set; assumption)
    | exact rfl
    | intro _
    | dsimp only
    | split

theorem tiBankFault_does {A : List Part} {b₀ : State}  (s : State) 
    (hD : Does A b₀ s) (hA : partsIn [.block 0x01, .block 0x02, .free, .strand, .tides, .out] A = true) : Does A b₀ (tiBankFault s) := by
  unfold tiBankFault
  repeat' first
    | with_reducible assumption
    | with_reducible apply say_does
    | with_reducible apply setFlag_does
    | with_reducible apply tidesHold_does
    | ((with_reducible refine partsIn_trans ?_ hA); exact rfl)
    | ((with_reducible refine listed_code ?_ hA); exact rfl)
    | exact fun (h : Sparse.wf _ _ = true) => h
    | with_reducible apply next_does
    | with_reducible apply id_does
    | with_reducible apply ite_does
    | with_reducible apply iteO_does
    | (apply Sparse.wf_set; assumption)
    | exact rfl
    | intro _
    | dsimp only
    | split

end Sys2Proof.Machine
end

