-- ==== Sys2Proof/Laws/OnlyNetOps.lean ====
section
/-! SUPPORT. What each operation of Machine/NetOps.lean can do: the parts of the state it may change, and that it keeps
canonical form. -/
namespace Sys2Proof.Machine

theorem portLink_block (p : Nat) : (portLink p).addr / 65536 = 11 := by
  unfold portLink
  first
    | rfl
    | ((repeat' split) <;> first | rfl | (dsimp only [Reg.NET_PORT_STATUS]; omega))
    | ((repeat' split) <;> dsimp only [Reg.NET_PORT_STATUS])

theorem portSfp_block (p : Nat) : (portSfp p).addr / 65536 = 11 := by
  unfold portSfp
  first
    | rfl
    | ((repeat' split) <;> first | rfl | (dsimp only [Reg.NET_PORT_STATUS]; omega))
    | ((repeat' split) <;> dsimp only [Reg.NET_PORT_STATUS])

theorem portIso_block (p : Nat) : (portIso p).addr / 65536 = 11 := by
  unfold portIso
  first
    | rfl
    | ((repeat' split) <;> first | rfl | (dsimp only [Reg.NET_PORT_STATUS]; omega))
    | ((repeat' split) <;> dsimp only [Reg.NET_PORT_STATUS])

theorem gseValid_block (j : Nat) : (gseValid j).addr / 65536 = 11 := by
  unfold gseValid
  first
    | rfl
    | ((repeat' split) <;> first | rfl | (dsimp only [Reg.GSE_VALID_HI, Reg.GSE_VALID_LO]; omega))
    | ((repeat' split) <;> dsimp only [Reg.GSE_VALID_HI, Reg.GSE_VALID_LO])

theorem staleBit_block (n : Nat) : (staleBit n).addr / 65536 = 3 := by
  unfold staleBit
  first
    | rfl
    | ((repeat' split) <;> first | rfl | (dsimp only [Reg.EXE_STALE_HI, Reg.EXE_STALE_LO]; omega))
    | ((repeat' split) <;> dsimp only [Reg.EXE_STALE_HI, Reg.EXE_STALE_LO])

theorem netSay_does {A : List Part} {b₀ : State} (f : RegField) (st : Status) (s : State) (hp_f : (Part.block (f.addr / 65536)).listed A = true)
    (hD : Does A b₀ s) (hA : partsIn [.free, .strand, .out] A = true) : Does A b₀ (netSay f st s) := by
  unfold netSay
  repeat' first
    | with_reducible assumption
    | with_reducible exact hp_f
    | with_reducible apply raiseF_does
    | with_reducible apply say_does
    | ((with_reducible refine partsIn_trans ?_ hA); exact rfl)
    | ((with_reducible refine listed_code ?_ hA); exact rfl)
    | exact fun (h : Sparse.wf _ _ = true) => h
    | with_reducible apply next_does
    | with_reducible apply id_does
    | with_reducible apply ite_does
    | with_reducible apply iteO_does
    | (apply Sparse.wf_set; assumption)
    | exact rfl
    | intro _
    | dsimp only
    | split

theorem onPtp_does {A : List Part} {b₀ : State} (f : Ptp → Ptp) (s : State) 
    (hD : Does A b₀ s) (hA : partsIn [.net] A = true) : Does A b₀ (onPtp f s) := by
  unfold onPtp
  repeat' first
    | with_reducible assumption
    | ((with_reducible refine partsIn_trans ?_ hA); exact rfl)
    | ((with_reducible refine listed_code ?_ hA); exact rfl)
    | exact fun (h : Sparse.wf _ _ = true) => h
    | with_reducible apply next_does
    | with_reducible apply id_does
    | with_reducible apply ite_does
    | with_reducible apply iteO_does
    | (apply Sparse.wf_set; assumption)
    | exact rfl
    | intro _
    | dsimp only
    | split
    | with_reducible apply upd_net

theorem onPtpPort_does {A : List Part} {b₀ : State} (b : Bool) (f : PtpPort → PtpPort) (s : State) 
    (hD : Does A b₀ s) (hA : partsIn [.net] A = true) : Does A b₀ (onPtpPort b f s) := by
  unfold onPtpPort
  repeat' first
    | with_reducible assumption
    | with_reducible apply onPtp_does
    | ((with_reducible refine partsIn_trans ?_ hA); exact rfl)
    | ((with_reducible refine listed_code ?_ hA); exact rfl)
    | exact fun (h : Sparse.wf _ _ = true) => h
    | with_reducible apply next_does
    | with_reducible apply id_does
    | with_reducible apply ite_does
    | with_reducible apply iteO_does
    | (apply Sparse.wf_set; assumption)
    | exact rfl
    | intro _
    | dsimp only
    | split

theorem servoTo_does {A : List Part} {b₀ : State} (n : Nat) (s : State) 
    (hD : Does A b₀ s) (hA : partsIn [.block 0x02, .block 0x0B, .free, .strand, .tides, .net, .out] A = true) : Does A b₀ (servoTo n s) := by
  unfold servoTo
  repeat' first
    | with_reducible assumption
    | with_reducible apply onPtp_does
    | with_reducible apply onlyIf_does
    | with_reducible apply raiseF_does
    | with_reducible apply say_does
    | with_reducible apply setFlag_does
    | with_reducible apply setFld_does
    | with_reducible apply tidesNetCheck_does
    | ((with_reducible refine listed_block 2 ?_ ?_ hA); first | omega | (dsimp only [Fld.NET_EVENT_PTP_STATE, Fld.PTP_STATE_DISCIPLINED, Fld.PTP_STATE_SERVO, servo]; omega) | (dsimp only [Fld.NET_EVENT_PTP_STATE, Fld.PTP_STATE_DISCIPLINED, Fld.PTP_STATE_SERVO, servo]; split <;> omega); exact rfl)
    | ((with_reducible refine listed_block 11 ?_ ?_ hA); first | omega | (dsimp only [Fld.NET_EVENT_PTP_STATE, Fld.PTP_STATE_DISCIPLINED, Fld.PTP_STATE_SERVO, servo]; omega) | (dsimp only [Fld.NET_EVENT_PTP_STATE, Fld.PTP_STATE_DISCIPLINED, Fld.PTP_STATE_SERVO, servo]; split <;> omega); exact rfl)
    | ((with_reducible refine partsIn_trans ?_ hA); exact rfl)
    | ((with_reducible refine listed_code ?_ hA); exact rfl)
    | exact fun (h : Sparse.wf _ _ = true) => h
    | with_reducible apply next_does
    | with_reducible apply id_does
    | with_reducible apply ite_does
    | with_reducible apply iteO_does
    | (apply Sparse.wf_set; assumption)
    | exact rfl
    | intro _
    | dsimp only
    | split

theorem mtimeAdvance_does {A : List Part} {b₀ : State}  (s : State) 
    (hD : Does A b₀ s) (hA : partsIn [.time, .net] A = true) : Does A b₀ (mtimeAdvance s) := by
  unfold mtimeAdvance
  repeat' first
    | with_reducible assumption
    | ((with_reducible refine partsIn_trans ?_ hA); exact rfl)
    | ((with_reducible refine listed_code ?_ hA); exact rfl)
    | exact fun (h : Sparse.wf _ _ = true) => h
    | with_reducible apply next_does
    | with_reducible apply id_does
    | with_reducible apply ite_does
    | with_reducible apply iteO_does
    | (apply Sparse.wf_set; assumption)
    | exact rfl
    | intro _
    | dsimp only
    | split
    | with_reducible apply upd_mtime_net

theorem ptpStep_does {A : List Part} {b₀ : State} (o : Int) (s : State) 
    (hD : Does A b₀ s) (hA : partsIn [.block 0x02, .block 0x0B, .time, .free, .strand, .tides, .net, .out] A = true) : Does A b₀ (ptpStep o s) := by
  unfold ptpStep
  repeat' first
    | with_reducible assumption
    | with_reducible apply onPtp_does
    | with_reducible apply say_does
    | with_reducible apply servoTo_does
    | with_reducible apply setFlag_does
    | ((with_reducible refine partsIn_trans ?_ hA); exact rfl)
    | ((with_reducible refine listed_code ?_ hA); exact rfl)
    | exact fun (h : Sparse.wf _ _ = true) => h
    | with_reducible apply next_does
    | with_reducible apply id_does
    | with_reducible apply ite_does
    | with_reducible apply iteO_does
    | (apply Sparse.wf_set; assumption)
    | exact rfl
    | intro _
    | dsimp only
    | split
    | with_reducible apply upd_mtime

theorem ptpRefuse_does {A : List Part} {b₀ : State} (o : Int) (s : State) 
    (hD : Does A b₀ s) (hA : partsIn [.block 0x02, .block 0x0B, .free, .strand, .tides, .net, .out] A = true) : Does A b₀ (ptpRefuse o s) := by
  unfold ptpRefuse
  repeat' first
    | with_reducible assumption
    | with_reducible apply bump_does
    | with_reducible apply netSay_does
    | with_reducible apply onPtp_does
    | with_reducible apply servoTo_does
    | with_reducible apply setFlag_does
    | with_reducible apply wr_does
    | ((with_reducible refine listed_block 2 ?_ ?_ hA); first | omega | (dsimp only [Fld.NET_EVENT_PTP_JUMP, Fld.PTP_COUNTS_REFUSED, Fld.PTP_STATE_REFUSING, Fld.PTP_STATE_SERVO, Reg.PTP_PENDING_STEP, servo]; omega) | (dsimp only [Fld.NET_EVENT_PTP_JUMP, Fld.PTP_COUNTS_REFUSED, Fld.PTP_STATE_REFUSING, Fld.PTP_STATE_SERVO, Reg.PTP_PENDING_STEP, servo]; split <;> omega); exact rfl)
    | ((with_reducible refine listed_block 11 ?_ ?_ hA); first | omega | (dsimp only [Fld.NET_EVENT_PTP_JUMP, Fld.PTP_COUNTS_REFUSED, Fld.PTP_STATE_REFUSING, Fld.PTP_STATE_SERVO, Reg.PTP_PENDING_STEP, servo]; omega) | (dsimp only [Fld.NET_EVENT_PTP_JUMP, Fld.PTP_COUNTS_REFUSED, Fld.PTP_STATE_REFUSING, Fld.PTP_STATE_SERVO, Reg.PTP_PENDING_STEP, servo]; split <;> omega); exact rfl)
    | ((with_reducible refine partsIn_trans ?_ hA); exact rfl)
    | ((with_reducible refine listed_code ?_ hA); exact rfl)
    | exact fun (h : Sparse.wf _ _ = true) => h
    | with_reducible apply next_does
    | with_reducible apply id_does
    | with_reducible apply ite_does
    | with_reducible apply iteO_does
    | (apply Sparse.wf_set; assumption)
    | exact rfl
    | intro _
    | dsimp only
    | split

theorem servoOffset_does {A : List Part} {b₀ : State} (o : Int) (s : State) 
    (hD : Does A b₀ s) (hA : partsIn [.block 0x02, .block 0x0B, .time, .free, .strand, .tides, .net, .out] A = true) : Does A b₀ (servoOffset o s) := by
  unfold servoOffset
  repeat' first
    | with_reducible assumption
    | with_reducible apply onPtp_does
    | with_reducible apply onlyIf_does
    | with_reducible apply ptpRefuse_does
    | with_reducible apply ptpStep_does
    | with_reducible apply servoTo_does
    | with_reducible apply wr_does
    | ((with_reducible refine listed_block 2 ?_ ?_ hA); first | omega | (dsimp only [Fld.PTP_CFG_KI, Fld.PTP_CFG_KP, Fld.PTP_CFG_STEP_AT_START, Fld.PTP_STATE_SERVO, Reg.PTP_FREQ, Reg.PTP_JUMP, Reg.PTP_OFFSET, servo]; omega) | (dsimp only [Fld.PTP_CFG_KI, Fld.PTP_CFG_KP, Fld.PTP_CFG_STEP_AT_START, Fld.PTP_STATE_SERVO, Reg.PTP_FREQ, Reg.PTP_JUMP, Reg.PTP_OFFSET, servo]; split <;> omega); exact rfl)
    | ((with_reducible refine listed_block 11 ?_ ?_ hA); first | omega | (dsimp only [Fld.PTP_CFG_KI, Fld.PTP_CFG_KP, Fld.PTP_CFG_STEP_AT_START, Fld.PTP_STATE_SERVO, Reg.PTP_FREQ, Reg.PTP_JUMP, Reg.PTP_OFFSET, servo]; omega) | (dsimp only [Fld.PTP_CFG_KI, Fld.PTP_CFG_KP, Fld.PTP_CFG_STEP_AT_START, Fld.PTP_STATE_SERVO, Reg.PTP_FREQ, Reg.PTP_JUMP, Reg.PTP_OFFSET, servo]; split <;> omega); exact rfl)
    | ((with_reducible refine partsIn_trans ?_ hA); exact rfl)
    | ((with_reducible refine listed_code ?_ hA); exact rfl)
    | exact fun (h : Sparse.wf _ _ = true) => h
    | with_reducible apply next_does
    | with_reducible apply id_does
    | with_reducible apply ite_does
    | with_reducible apply iteO_does
    | (apply Sparse.wf_set; assumption)
    | exact rfl
    | intro _
    | dsimp only
    | split

theorem linkMeasure_does {A : List Part} {b₀ : State} (b : Bool) (x : Int) (s : State) 
    (hD : Does A b₀ s) (hA : partsIn [.block 0x0B, .net] A = true) : Does A b₀ (linkMeasure b x s) := by
  unfold linkMeasure
  repeat' first
    | with_reducible assumption
    | with_reducible apply onPtpPort_does
    | with_reducible apply setFld_does
    | ((with_reducible refine partsIn_trans ?_ hA); exact rfl)
    | ((with_reducible refine listed_code ?_ hA); exact rfl)
    | exact fun (h : Sparse.wf _ _ = true) => h
    | with_reducible apply next_does
    | with_reducible apply id_does
    | with_reducible apply ite_does
    | with_reducible apply iteO_does
    | (apply Sparse.wf_set; assumption)
    | exact rfl
    | intro _
    | dsimp only
    | split

theorem ptpPorts_does {A : List Part} {b₀ : State}  (s : State) 
    (hD : Does A b₀ s) (hA : partsIn [.block 0x0B] A = true) : Does A b₀ (ptpPorts s) := by
  unfold ptpPorts
  repeat' first
    | with_reducible assumption
    | with_reducible apply setFld_does
    | ((with_reducible refine listed_block 11 ?_ ?_ hA); first | omega | (dsimp only [Fld.PTP_STATE_MASTER, Fld.PTP_STATE_PORT0, Fld.PTP_STATE_PORT1, Reg.NET_CTRL, Reg.NET_PORT_STATUS, portIso]; omega) | (dsimp only [Fld.PTP_STATE_MASTER, Fld.PTP_STATE_PORT0, Fld.PTP_STATE_PORT1, Reg.NET_CTRL, Reg.NET_PORT_STATUS, portIso]; split <;> omega); exact rfl)
    | ((with_reducible refine listed_block 11 ?_ ?_ hA); exact portIso_block _; exact rfl)
    | ((with_reducible refine partsIn_trans ?_ hA); exact rfl)
    | ((with_reducible refine listed_code ?_ hA); exact rfl)
    | exact fun (h : Sparse.wf _ _ = true) => h
    | with_reducible apply next_does
    | with_reducible apply id_does
    | with_reducible apply ite_does
    | with_reducible apply iteO_does
    | (apply Sparse.wf_set; assumption)
    | exact rfl
    | intro _
    | dsimp only
    | split

theorem ptpMeasure_does {A : List Part} {b₀ : State} (b : Bool) (x : Int) (s : State) 
    (hD : Does A b₀ s) (hA : partsIn [.block 0x02, .block 0x0B, .time, .free, .strand, .tides, .net, .out] A = true) : Does A b₀ (ptpMeasure b x s) := by
  unfold ptpMeasure
  repeat' first
    | with_reducible assumption
    | with_reducible apply onPtpPort_does
    | with_reducible apply servoOffset_does
    | ((with_reducible refine partsIn_trans ?_ hA); exact rfl)
    | ((with_reducible refine listed_code ?_ hA); exact rfl)
    | exact fun (h : Sparse.wf _ _ = true) => h
    | with_reducible apply next_does
    | with_reducible apply id_does
    | with_reducible apply ite_does
    | with_reducible apply iteO_does
    | (apply Sparse.wf_set; assumption)
    | exact rfl
    | intro _
    | dsimp only
    | split

theorem ptpMaster_does {A : List Part} {b₀ : State} (gm : DWord) (s : State) 
    (hD : Does A b₀ s) (hA : partsIn [.block 0x0B, .free, .strand, .net, .out] A = true) : Does A b₀ (ptpMaster gm s) := by
  unfold ptpMaster
  repeat' first
    | with_reducible assumption
    | with_reducible apply bump_does
    | with_reducible apply netSay_does
    | with_reducible apply onPtp_does
    | with_reducible apply onlyIf_does
    | with_reducible apply setFlag_does
    | with_reducible apply wr64_does
    | ((with_reducible refine partsIn_trans ?_ hA); exact rfl)
    | ((with_reducible refine listed_code ?_ hA); exact rfl)
    | exact fun (h : Sparse.wf _ _ = true) => h
    | with_reducible apply next_does
    | with_reducible apply id_does
    | with_reducible apply ite_does
    | with_reducible apply iteO_does
    | (apply Sparse.wf_set; assumption)
    | exact rfl
    | (dsimp only [Fld.NET_EVENT_PTP_MASTER, Fld.PTP_COUNTS_MASTER_CHANGES, Fld.PTP_STATE_MASTER, Reg.PTP_GM_LO]; omega)
    | intro _
    | dsimp only
    | split

theorem ptpSwitch_does {A : List Part} {b₀ : State}  (s : State) 
    (hD : Does A b₀ s) (hA : partsIn [.block 0x0B, .free, .strand, .out] A = true) : Does A b₀ (ptpSwitch s) := by
  unfold ptpSwitch
  repeat' first
    | with_reducible assumption
    | with_reducible apply bump_does
    | with_reducible apply netSay_does
    | with_reducible apply onlyIf_does
    | with_reducible apply ptpPorts_does
    | with_reducible apply setFlag_does
    | ((with_reducible refine partsIn_trans ?_ hA); exact rfl)
    | ((with_reducible refine listed_code ?_ hA); exact rfl)
    | exact fun (h : Sparse.wf _ _ = true) => h
    | with_reducible apply next_does
    | with_reducible apply id_does
    | with_reducible apply ite_does
    | with_reducible apply iteO_does
    | (apply Sparse.wf_set; assumption)
    | exact rfl
    | intro _
    | dsimp only
    | split

theorem ptpSelf_does {A : List Part} {b₀ : State}  (s : State) 
    (hD : Does A b₀ s) (hA : partsIn [.block 0x0B, .free, .strand, .net, .out] A = true) : Does A b₀ (ptpSelf s) := by
  unfold ptpSelf
  repeat' first
    | with_reducible assumption
    | with_reducible apply onPtp_does
    | with_reducible apply onlyIf_does
    | with_reducible apply ptpPorts_does
    | with_reducible apply say_does
    | with_reducible apply setFlag_does
    | ((with_reducible refine partsIn_trans ?_ hA); exact rfl)
    | ((with_reducible refine listed_code ?_ hA); exact rfl)
    | exact fun (h : Sparse.wf _ _ = true) => h
    | with_reducible apply next_does
    | with_reducible apply id_does
    | with_reducible apply ite_does
    | with_reducible apply iteO_does
    | (apply Sparse.wf_set; assumption)
    | exact rfl
    | intro _
    | dsimp only
    | split

theorem onGse_does {A : List Part} {b₀ : State} (k : Nat) (f : Gse → Gse) (s : State) 
    (hD : Does A b₀ s) (hA : partsIn [.net] A = true) : Does A b₀ (onGse k f s) := by
  unfold onGse
  repeat' first
    | with_reducible assumption
    | ((with_reducible refine partsIn_trans ?_ hA); exact rfl)
    | ((with_reducible refine listed_code ?_ hA); exact rfl)
    | exact fun (h : Sparse.wf _ _ = true) => h
    | with_reducible apply next_does
    | with_reducible apply id_does
    | with_reducible apply ite_does
    | with_reducible apply iteO_does
    | (apply Sparse.wf_set; assumption)
    | exact rfl
    | intro _
    | dsimp only
    | split
    | with_reducible apply upd_net

theorem gooseSend_does {A : List Part} {b₀ : State} (k : Nat) (s : State) 
    (hD : Does A b₀ s) (hA : partsIn [.out] A = true) : Does A b₀ (gooseSend k s) := by
  unfold gooseSend
  repeat' first
    | with_reducible assumption
    | with_reducible apply onlyIf_does
    | with_reducible apply sendOut_does
    | ((with_reducible refine partsIn_trans ?_ hA); exact rfl)
    | ((with_reducible refine listed_code ?_ hA); exact rfl)
    | exact fun (h : Sparse.wf _ _ = true) => h
    | with_reducible apply next_does
    | with_reducible apply id_does
    | with_reducible apply ite_does
    | with_reducible apply iteO_does
    | (apply Sparse.wf_set; assumption)
    | exact rfl
    | intro _
    | dsimp only
    | split

theorem gooseStart_does {A : List Part} {b₀ : State} (k : Nat) (vals : List DWord) (s : State) 
    (hD : Does A b₀ s) (hA : partsIn [.net, .out] A = true) : Does A b₀ (gooseStart k vals s) := by
  unfold gooseStart
  repeat' first
    | with_reducible assumption
    | with_reducible apply gooseSend_does
    | with_reducible apply onGse_does
    | ((with_reducible refine partsIn_trans ?_ hA); exact rfl)
    | ((with_reducible refine listed_code ?_ hA); exact rfl)
    | exact fun (h : Sparse.wf _ _ = true) => h
    | with_reducible apply next_does
    | with_reducible apply id_does
    | with_reducible apply ite_does
    | with_reducible apply iteO_does
    | (apply Sparse.wf_set; assumption)
    | exact rfl
    | intro _
    | dsimp only
    | split

theorem gooseSample_does {A : List Part} {b₀ : State} (k : Nat) (s : State) 
    (hD : Does A b₀ s) (hA : partsIn [.net, .out] A = true) : Does A b₀ (gooseSample k s) := by
  unfold gooseSample
  repeat' first
    | with_reducible assumption
    | with_reducible apply gooseStart_does
    | ((with_reducible refine partsIn_trans ?_ hA); exact rfl)
    | ((with_reducible refine listed_code ?_ hA); exact rfl)
    | exact fun (h : Sparse.wf _ _ = true) => h
    | with_reducible apply next_does
    | with_reducible apply id_does
    | with_reducible apply ite_does
    | with_reducible apply iteO_does
    | (apply Sparse.wf_set; assumption)
    | exact rfl
    | intro _
    | dsimp only
    | split

theorem gooseCommit_does {A : List Part} {b₀ : State} (t : Nat) (s : State) 
    (hD : Does A b₀ s) (hA : partsIn [.net, .out] A = true) : Does A b₀ (gooseCommit t s) := by
  unfold gooseCommit
  repeat' first
    | with_reducible assumption
    | with_reducible apply forAll_does
    | with_reducible apply gooseSample_does
    | ((with_reducible refine partsIn_trans ?_ hA); exact rfl)
    | ((with_reducible refine listed_code ?_ hA); exact rfl)
    | exact fun (h : Sparse.wf _ _ = true) => h
    | with_reducible apply next_does
    | with_reducible apply id_does
    | with_reducible apply ite_does
    | with_reducible apply iteO_does
    | (apply Sparse.wf_set; assumption)
    | exact rfl
    | intro _
    | dsimp only
    | split

theorem gooseActive_does {A : List Part} {b₀ : State}  (s : State) 
    (hD : Does A b₀ s) (hA : partsIn [.net, .out] A = true) : Does A b₀ (gooseActive s) := by
  unfold gooseActive
  repeat' first
    | with_reducible assumption
    | with_reducible apply forAll_does
    | with_reducible apply gooseStart_does
    | ((with_reducible refine partsIn_trans ?_ hA); exact rfl)
    | ((with_reducible refine listed_code ?_ hA); exact rfl)
    | exact fun (h : Sparse.wf _ _ = true) => h
    | with_reducible apply next_does
    | with_reducible apply id_does
    | with_reducible apply ite_does
    | with_reducible apply iteO_does
    | (apply Sparse.wf_set; assumption)
    | exact rfl
    | intro _
    | dsimp only
    | split

theorem gseStale_does {A : List Part} {b₀ : State} (k : Nat) (b : Bool) (s : State) 
    (hD : Does A b₀ s) (hA : partsIn [.exe] A = true) : Does A b₀ (gseStale k b s) := by
  unfold gseStale
  repeat' first
    | with_reducible assumption
    | with_reducible apply forAll_does
    | with_reducible apply setTagFlags_does
    | ((with_reducible refine partsIn_trans ?_ hA); exact rfl)
    | ((with_reducible refine listed_code ?_ hA); exact rfl)
    | exact fun (h : Sparse.wf _ _ = true) => h
    | with_reducible apply next_does
    | with_reducible apply id_does
    | with_reducible apply ite_does
    | with_reducible apply iteO_does
    | (apply Sparse.wf_set; assumption)
    | exact rfl
    | intro _
    | dsimp only
    | split

theorem gseDeliver_does {A : List Part} {b₀ : State} (k : Nat) (vals : List DWord) (s : State) 
    (hD : Does A b₀ s) (hA : partsIn [.block 0x05, .free, .strand, .exe, .dio, .out] A = true) : Does A b₀ (gseDeliver k vals s) := by
  unfold gseDeliver
  repeat' first
    | with_reducible assumption
    | with_reducible apply forAll_does
    | with_reducible apply gseStale_does
    | with_reducible apply tagStore_does
    | ((with_reducible refine partsIn_trans ?_ hA); exact rfl)
    | ((with_reducible refine listed_code ?_ hA); exact rfl)
    | exact fun (h : Sparse.wf _ _ = true) => h
    | with_reducible apply next_does
    | with_reducible apply id_does
    | with_reducible apply ite_does
    | with_reducible apply iteO_does
    | (apply Sparse.wf_set; assumption)
    | exact rfl
    | intro _
    | dsimp only
    | split

theorem gseOff_does {A : List Part} {b₀ : State} (k : Nat) (s : State) 
    (hD : Does A b₀ s) (hA : partsIn [.block 0x0B, .net] A = true) : Does A b₀ (gseOff k s) := by
  unfold gseOff
  repeat' first
    | with_reducible assumption
    | with_reducible apply onGse_does
    | with_reducible apply onlyIf_does
    | with_reducible apply setFlag_does
    | ((with_reducible refine listed_block 11 ?_ ?_ hA); first | omega | (dsimp only [Reg.GSE_VALID_HI, Reg.GSE_VALID_LO, gseValid]; omega) | (dsimp only [Reg.GSE_VALID_HI, Reg.GSE_VALID_LO, gseValid]; split <;> omega); exact rfl)
    | ((with_reducible refine listed_block 11 ?_ ?_ hA); exact gseValid_block _; exact rfl)
    | ((with_reducible refine partsIn_trans ?_ hA); exact rfl)
    | ((with_reducible refine listed_code ?_ hA); exact rfl)
    | exact fun (h : Sparse.wf _ _ = true) => h
    | with_reducible apply next_does
    | with_reducible apply id_does
    | with_reducible apply ite_does
    | with_reducible apply iteO_does
    | (apply Sparse.wf_set; assumption)
    | exact rfl
    | intro _
    | dsimp only
    | split

theorem gseSwapCheck_does {A : List Part} {b₀ : State}  (s : State) 
    (hD : Does A b₀ s) (hA : partsIn [.block 0x0B, .free, .strand, .net, .out] A = true) : Does A b₀ (gseSwapCheck s) := by
  unfold gseSwapCheck
  repeat' first
    | with_reducible assumption
    | with_reducible apply forAll_does
    | with_reducible apply gseOff_does
    | with_reducible apply netSay_does
    | ((with_reducible refine partsIn_trans ?_ hA); exact rfl)
    | ((with_reducible refine listed_code ?_ hA); exact rfl)
    | exact fun (h : Sparse.wf _ _ = true) => h
    | with_reducible apply next_does
    | with_reducible apply id_does
    | with_reducible apply ite_does
    | with_reducible apply iteO_does
    | (apply Sparse.wf_set; assumption)
    | exact rfl
    | intro _
    | dsimp only
    | split

theorem onLaunch_does {A : List Part} {b₀ : State} (n : Nat) (f : Launch → Launch) (s : State) 
    (hD : Does A b₀ s) (hA : partsIn [.net] A = true) : Does A b₀ (onLaunch n f s) := by
  unfold onLaunch
  repeat' first
    | with_reducible assumption
    | ((with_reducible refine partsIn_trans ?_ hA); exact rfl)
    | ((with_reducible refine listed_code ?_ hA); exact rfl)
    | exact fun (h : Sparse.wf _ _ = true) => h
    | with_reducible apply next_does
    | with_reducible apply id_does
    | with_reducible apply ite_does
    | with_reducible apply iteO_does
    | (apply Sparse.wf_set; assumption)
    | exact rfl
    | intro _
    | dsimp only
    | split
    | with_reducible apply upd_net

theorem launchArm_does {A : List Part} {b₀ : State} (n : Nat) (s : State) 
    (hD : Does A b₀ s) (hA : partsIn [.net] A = true) : Does A b₀ (launchArm n s) := by
  unfold launchArm
  repeat' first
    | with_reducible assumption
    | with_reducible apply onLaunch_does
    | ((with_reducible refine partsIn_trans ?_ hA); exact rfl)
    | ((with_reducible refine listed_code ?_ hA); exact rfl)
    | exact fun (h : Sparse.wf _ _ = true) => h
    | with_reducible apply next_does
    | with_reducible apply id_does
    | with_reducible apply ite_does
    | with_reducible apply iteO_does
    | (apply Sparse.wf_set; assumption)
    | exact rfl
    | intro _
    | dsimp only
    | split

theorem launchFire_does {A : List Part} {b₀ : State} (n : Nat) (s : State) 
    (hD : Does A b₀ s) (hA : partsIn [.block 0x0B, .free, .strand, .net, .out] A = true) : Does A b₀ (launchFire n s) := by
  unfold launchFire
  repeat' first
    | with_reducible assumption
    | with_reducible apply bump_does
    | with_reducible apply launchArm_does
    | with_reducible apply netSay_does
    | with_reducible apply onLaunch_does
    | with_reducible apply raiseF_does
    | with_reducible apply sayD_does
    | ((with_reducible refine partsIn_trans ?_ hA); exact rfl)
    | ((with_reducible refine listed_code ?_ hA); exact rfl)
    | exact fun (h : Sparse.wf _ _ = true) => h
    | with_reducible apply next_does
    | with_reducible apply id_does
    | with_reducible apply ite_does
    | with_reducible apply iteO_does
    | (apply Sparse.wf_set; assumption)
    | exact rfl
    | intro _
    | dsimp only
    | split

theorem onRingStn_does {A : List Part} {b₀ : State} (n : Nat) (f : RingStn → RingStn) (s : State) 
    (hD : Does A b₀ s) (hA : partsIn [.net] A = true) : Does A b₀ (onRingStn n f s) := by
  unfold onRingStn
  repeat' first
    | with_reducible assumption
    | ((with_reducible refine partsIn_trans ?_ hA); exact rfl)
    | ((with_reducible refine listed_code ?_ hA); exact rfl)
    | exact fun (h : Sparse.wf _ _ = true) => h
    | with_reducible apply next_does
    | with_reducible apply id_does
    | with_reducible apply ite_does
    | with_reducible apply iteO_does
    | (apply Sparse.wf_set; assumption)
    | exact rfl
    | intro _
    | dsimp only
    | split
    | with_reducible apply upd_net

theorem onStation_does {A : List Part} {b₀ : State} (n : Nat) (f : Station → Station) (s : State) 
    (hD : Does A b₀ s) (hA : partsIn [.exe] A = true) : Does A b₀ (onStation n f s) := by
  unfold onStation
  repeat' first
    | with_reducible assumption
    | ((with_reducible refine partsIn_trans ?_ hA); exact rfl)
    | ((with_reducible refine listed_code ?_ hA); exact rfl)
    | exact fun (h : Sparse.wf _ _ = true) => h
    | with_reducible apply next_does
    | with_reducible apply id_does
    | with_reducible apply ite_does
    | with_reducible apply iteO_does
    | (apply Sparse.wf_set; assumption)
    | exact rfl
    | intro _
    | dsimp only
    | split
    | with_reducible apply upd_exe

theorem ringRestart_does {A : List Part} {b₀ : State}  (s : State) 
    (hD : Does A b₀ s) (hA : partsIn [.net] A = true) : Does A b₀ (ringRestart s) := by
  unfold ringRestart
  repeat' first
    | with_reducible assumption
    | with_reducible apply forAll_does
    | with_reducible apply onRingStn_does
    | ((with_reducible refine partsIn_trans ?_ hA); exact rfl)
    | ((with_reducible refine listed_code ?_ hA); exact rfl)
    | exact fun (h : Sparse.wf _ _ = true) => h
    | with_reducible apply next_does
    | with_reducible apply id_does
    | with_reducible apply ite_does
    | with_reducible apply iteO_does
    | (apply Sparse.wf_set; assumption)
    | exact rfl
    | intro _
    | dsimp only
    | split

theorem netActive_does {A : List Part} {b₀ : State}  (s : State) 
    (hD : Does A b₀ s) (hA : partsIn [.block 0x0B, .free, .strand, .net, .out] A = true) : Does A b₀ (netActive s) := by
  unfold netActive
  repeat' first
    | with_reducible assumption
    | with_reducible apply gooseActive_does
    | with_reducible apply onlyIf_does
    | with_reducible apply ringRestart_does
    | with_reducible apply say_does
    | with_reducible apply sendOut_does
    | with_reducible apply setFlag_does
    | ((with_reducible refine partsIn_trans ?_ hA); exact rfl)
    | ((with_reducible refine listed_code ?_ hA); exact rfl)
    | exact fun (h : Sparse.wf _ _ = true) => h
    | with_reducible apply next_does
    | with_reducible apply id_does
    | with_reducible apply ite_does
    | with_reducible apply iteO_does
    | (apply Sparse.wf_set; assumption)
    | exact rfl
    | intro _
    | dsimp only
    | split

theorem netFail_does {A : List Part} {b₀ : State}  (s : State) 
    (hD : Does A b₀ s) (hA : partsIn [.block 0x02, .block 0x03, .block 0x0B, .free, .strand, .tides, .exe, .net, .out] A = true) : Does A b₀ (netFail s) := by
  unfold netFail
  repeat' first
    | with_reducible assumption
    | with_reducible apply forAll_does
    | with_reducible apply gseStale_does
    | with_reducible apply onStation_does
    | with_reducible apply onlyIf_does
    | with_reducible apply raiseF_does
    | with_reducible apply servoTo_does
    | with_reducible apply setFlag_does
    | ((with_reducible refine listed_block 2 ?_ ?_ hA); first | omega | (dsimp only [Fld.EXE_EVENT_STALE, Fld.STNs_STATUS_STALE, Reg.EXE_STALE_HI, Reg.EXE_STALE_LO, Reg.GSE_VALID_HI, Reg.GSE_VALID_LO, gseValid, staleBit]; omega) | (dsimp only [Fld.EXE_EVENT_STALE, Fld.STNs_STATUS_STALE, Reg.EXE_STALE_HI, Reg.EXE_STALE_LO, Reg.GSE_VALID_HI, Reg.GSE_VALID_LO, gseValid, staleBit]; split <;> omega); exact rfl)
    | ((with_reducible refine listed_block 3 ?_ ?_ hA); first | omega | (dsimp only [Fld.EXE_EVENT_STALE, Fld.STNs_STATUS_STALE, Reg.EXE_STALE_HI, Reg.EXE_STALE_LO, Reg.GSE_VALID_HI, Reg.GSE_VALID_LO, gseValid, staleBit]; omega) | (dsimp only [Fld.EXE_EVENT_STALE, Fld.STNs_STATUS_STALE, Reg.EXE_STALE_HI, Reg.EXE_STALE_LO, Reg.GSE_VALID_HI, Reg.GSE_VALID_LO, gseValid, staleBit]; split <;> omega); exact rfl)
    | ((with_reducible refine listed_block 11 ?_ ?_ hA); first | omega | (dsimp only [Fld.EXE_EVENT_STALE, Fld.STNs_STATUS_STALE, Reg.EXE_STALE_HI, Reg.EXE_STALE_LO, Reg.GSE_VALID_HI, Reg.GSE_VALID_LO, gseValid, staleBit]; omega) | (dsimp only [Fld.EXE_EVENT_STALE, Fld.STNs_STATUS_STALE, Reg.EXE_STALE_HI, Reg.EXE_STALE_LO, Reg.GSE_VALID_HI, Reg.GSE_VALID_LO, gseValid, staleBit]; split <;> omega); exact rfl)
    | ((with_reducible refine listed_block 11 ?_ ?_ hA); exact gseValid_block _; exact rfl)
    | ((with_reducible refine listed_block 3 ?_ ?_ hA); exact staleBit_block _; exact rfl)
    | ((with_reducible refine partsIn_trans ?_ hA); exact rfl)
    | ((with_reducible refine listed_code ?_ hA); exact rfl)
    | exact fun (h : Sparse.wf _ _ = true) => h
    | with_reducible apply next_does
    | with_reducible apply id_does
    | with_reducible apply ite_does
    | with_reducible apply iteO_does
    | (apply Sparse.wf_set; assumption)
    | exact rfl
    | intro _
    | dsimp only
    | split

end Sys2Proof.Machine
end

