-- ==== Sys2Proof/Laws/OnlySafOps.lean ====
section
/-! SUPPORT. What each operation of Machine/SafOps.lean can do: the parts of the state it may change, and that it keeps
canonical form. -/
namespace Sys2Proof.Machine

theorem safSay_does {A : List Part} {b₀ : State} (st : Status) (s : State) 
    (hD : Does A b₀ s) (hA : partsIn [.block 0x08, .free, .strand, .out] A = true) : Does A b₀ (safSay st s) := by
  unfold safSay
  repeat' first
    | with_reducible assumption
    | with_reducible apply say_does
    | with_reducible apply setFld_does
    | ((with_reducible refine partsIn_trans ?_ hA); exact rfl)
    | ((with_reducible refine listed_code ?_ hA); exact rfl)
    | exact fun (h : Sparse.wf _ _ = true) => h
    | with_reducible apply next_does
    | with_reducible apply id_does
    | with_reducible apply ite_does
    | with_reducible apply iteO_does
    | (apply Sparse.wf_set; assumption)
    | exact rfl
    | intro _
    | dsimp only
    | split

theorem safEv_does {A : List Part} {b₀ : State} (f : RegField) (s : State) (hp_f : (Part.block (f.addr / 65536)).listed A = true)
    (hD : Does A b₀ s) (hA : partsIn [.out] A = true) : Does A b₀ (safEv f s) := by
  unfold safEv
  repeat' first
    | with_reducible assumption
    | with_reducible exact hp_f
    | with_reducible apply raiseF_does
    | ((with_reducible refine partsIn_trans ?_ hA); exact rfl)
    | ((with_reducible refine listed_code ?_ hA); exact rfl)
    | exact fun (h : Sparse.wf _ _ = true) => h
    | with_reducible apply next_does
    | with_reducible apply id_does
    | with_reducible apply ite_does
    | with_reducible apply iteO_does
    | (apply Sparse.wf_set; assumption)
    | exact rfl
    | intro _
    | dsimp only
    | split

theorem safTie_does {A : List Part} {b₀ : State} (tie : Bool) (s : State) 
    (hD : Does A b₀ s) (hA : partsIn [.block 0x08] A = true) : Does A b₀ (safTie tie s) := by
  unfold safTie
  repeat' first
    | with_reducible assumption
    | with_reducible apply bump_does
    | with_reducible apply onlyIf_does
    | ((with_reducible refine partsIn_trans ?_ hA); exact rfl)
    | ((with_reducible refine listed_code ?_ hA); exact rfl)
    | exact fun (h : Sparse.wf _ _ = true) => h
    | with_reducible apply next_does
    | with_reducible apply id_does
    | with_reducible apply ite_does
    | with_reducible apply iteO_does
    | (apply Sparse.wf_set; assumption)
    | exact rfl
    | intro _
    | dsimp only
    | split

theorem onConn_does {A : List Part} {b₀ : State} (i : Nat) (f : Conn → Conn) (s : State) 
    (hD : Does A b₀ s) (hA : partsIn [.saf] A = true) : Does A b₀ (onConn i f s) := by
  unfold onConn
  repeat' first
    | with_reducible assumption
    | ((with_reducible refine partsIn_trans ?_ hA); exact rfl)
    | ((with_reducible refine listed_code ?_ hA); exact rfl)
    | exact fun (h : Sparse.wf _ _ = true) => h
    | with_reducible apply next_does
    | with_reducible apply id_does
    | with_reducible apply ite_does
    | with_reducible apply iteO_does
    | (apply Sparse.wf_set; assumption)
    | exact rfl
    | intro _
    | dsimp only
    | split
    | with_reducible apply upd_saf

theorem sqCut_does {A : List Part} {b₀ : State} (n : Nat) (s : State) 
    (hD : Does A b₀ s) (hA : partsIn [.block 0x08, .free, .strand, .saf, .out] A = true) : Does A b₀ (sqCut n s) := by
  unfold sqCut
  repeat' first
    | with_reducible assumption
    | with_reducible apply bump_does
    | with_reducible apply onSq_does
    | with_reducible apply onlyIf_does
    | with_reducible apply safEv_does
    | with_reducible apply safSay_does
    | ((with_reducible refine listed_block 8 ?_ ?_ hA); first | omega | (dsimp only [Fld.SAF_EVENT_TEST, Fld.SQn_COUNTS_DISCARDED]; omega) | (dsimp only [Fld.SAF_EVENT_TEST, Fld.SQn_COUNTS_DISCARDED]; split <;> omega); exact rfl)
    | ((with_reducible refine partsIn_trans ?_ hA); exact rfl)
    | ((with_reducible refine listed_code ?_ hA); exact rfl)
    | exact fun (h : Sparse.wf _ _ = true) => h
    | with_reducible apply next_does
    | with_reducible apply id_does
    | with_reducible apply ite_does
    | with_reducible apply iteO_does
    | (apply Sparse.wf_set; assumption)
    | exact rfl
    | intro _
    | dsimp only
    | split

theorem sqClose_does {A : List Part} {b₀ : State} (n : Nat) (s : State) 
    (hD : Does A b₀ s) (hA : partsIn [.saf] A = true) : Does A b₀ (sqClose n s) := by
  unfold sqClose
  repeat' first
    | with_reducible assumption
    | with_reducible apply onSq_does
    | ((with_reducible refine partsIn_trans ?_ hA); exact rfl)
    | ((with_reducible refine listed_code ?_ hA); exact rfl)
    | exact fun (h : Sparse.wf _ _ = true) => h
    | with_reducible apply next_does
    | with_reducible apply id_does
    | with_reducible apply ite_does
    | with_reducible apply iteO_does
    | (apply Sparse.wf_set; assumption)
    | exact rfl
    | intro _
    | dsimp only
    | split

theorem sqFault_does {A : List Part} {b₀ : State} (n : Nat) (code : Fin 5) (st : Status) (s : State) 
    (hD : Does A b₀ s) (hA : partsIn [.block 0x08, .free, .strand, .saf, .out] A = true) : Does A b₀ (sqFault n code st s) := by
  unfold sqFault
  repeat' first
    | with_reducible assumption
    | with_reducible apply onSq_does
    | with_reducible apply safEv_does
    | with_reducible apply safSay_does
    | ((with_reducible refine partsIn_trans ?_ hA); exact rfl)
    | ((with_reducible refine listed_code ?_ hA); exact rfl)
    | exact fun (h : Sparse.wf _ _ = true) => h
    | with_reducible apply next_does
    | with_reducible apply id_does
    | with_reducible apply ite_does
    | with_reducible apply iteO_does
    | (apply Sparse.wf_set; assumption)
    | exact rfl
    | intro _
    | dsimp only
    | split

theorem sqEval_does {A : List Part} {b₀ : State} (n : Nat) (req : Bool) (edge : Bool) (s : State) 
    (hD : Does A b₀ s) (hA : partsIn [.block 0x08, .free, .strand, .saf, .out] A = true) : Does A b₀ (sqEval n req edge s) := by
  unfold sqEval
  repeat' first
    | with_reducible assumption
    | with_reducible apply onSq_does
    | with_reducible apply onlyIf_does
    | with_reducible apply safEv_does
    | with_reducible apply safSay_does
    | with_reducible apply sqClose_does
    | with_reducible apply sqCut_does
    | ((with_reducible refine listed_block 8 ?_ ?_ hA); first | omega | (dsimp only [Fld.SAF_EVENT_TRIP, Fld.SQn_CFG_RESTART, Fld.SQn_CFG_USED]; omega) | (dsimp only [Fld.SAF_EVENT_TRIP, Fld.SQn_CFG_RESTART, Fld.SQn_CFG_USED]; split <;> omega); exact rfl)
    | ((with_reducible refine partsIn_trans ?_ hA); exact rfl)
    | ((with_reducible refine listed_code ?_ hA); exact rfl)
    | exact fun (h : Sparse.wf _ _ = true) => h
    | with_reducible apply next_does
    | with_reducible apply id_does
    | with_reducible apply ite_does
    | with_reducible apply iteO_does
    | (apply Sparse.wf_set; assumption)
    | exact rfl
    | intro _
    | dsimp only
    | split

theorem sqEvalAll_does {A : List Part} {b₀ : State} (edges : Byte) (s : State) 
    (hD : Does A b₀ s) (hA : partsIn [.block 0x08, .free, .strand, .saf, .out] A = true) : Does A b₀ (sqEvalAll edges s) := by
  unfold sqEvalAll
  repeat' first
    | with_reducible assumption
    | with_reducible apply forAll_does
    | with_reducible apply sqEval_does
    | ((with_reducible refine partsIn_trans ?_ hA); exact rfl)
    | ((with_reducible refine listed_code ?_ hA); exact rfl)
    | exact fun (h : Sparse.wf _ _ = true) => h
    | with_reducible apply next_does
    | with_reducible apply id_does
    | with_reducible apply ite_does
    | with_reducible apply iteO_does
    | (apply Sparse.wf_set; assumption)
    | exact rfl
    | intro _
    | dsimp only
    | split

theorem safEbb_does {A : List Part} {b₀ : State}  (s : State) 
    (hD : Does A b₀ s) (hA : partsIn [.block 0x08, .free, .strand, .saf, .out] A = true) : Does A b₀ (safEbb s) := by
  unfold safEbb
  repeat' first
    | with_reducible assumption
    | with_reducible apply onlyIf_does
    | with_reducible apply safSay_does
    | with_reducible apply sqEvalAll_does
    | ((with_reducible refine partsIn_trans ?_ hA); exact rfl)
    | ((with_reducible refine listed_code ?_ hA); exact rfl)
    | exact fun (h : Sparse.wf _ _ = true) => h
    | with_reducible apply next_does
    | with_reducible apply id_does
    | with_reducible apply ite_does
    | with_reducible apply iteO_does
    | (apply Sparse.wf_set; assumption)
    | exact rfl
    | intro _
    | dsimp only
    | split
    | with_reducible apply upd_saf

theorem connSend_does {A : List Part} {b₀ : State} (i : Nat) (bytes : List Byte) (s : State) 
    (hD : Does A b₀ s) (hA : partsIn [.saf, .pair, .out] A = true) : Does A b₀ (connSend i bytes s) := by
  unfold connSend
  repeat' first
    | with_reducible assumption
    | with_reducible apply cwSend_does
    | with_reducible apply onConn_does
    | with_reducible apply sendOut_does
    | ((with_reducible refine partsIn_trans ?_ hA); exact rfl)
    | ((with_reducible refine listed_code ?_ hA); exact rfl)
    | exact fun (h : Sparse.wf _ _ = true) => h
    | with_reducible apply next_does
    | with_reducible apply id_does
    | with_reducible apply ite_does
    | with_reducible apply iteO_does
    | (apply Sparse.wf_set; assumption)
    | exact rfl
    | intro _
    | dsimp only
    | split

theorem connOpenSend_does {A : List Part} {b₀ : State} (i : Nat) (s : State) 
    (hD : Does A b₀ s) (hA : partsIn [.saf, .pair, .out] A = true) : Does A b₀ (connOpenSend i s) := by
  unfold connOpenSend
  repeat' first
    | with_reducible assumption
    | with_reducible apply connSend_does
    | ((with_reducible refine partsIn_trans ?_ hA); exact rfl)
    | ((with_reducible refine listed_code ?_ hA); exact rfl)
    | exact fun (h : Sparse.wf _ _ = true) => h
    | with_reducible apply next_does
    | with_reducible apply id_does
    | with_reducible apply ite_does
    | with_reducible apply iteO_does
    | (apply Sparse.wf_set; assumption)
    | exact rfl
    | intro _
    | dsimp only
    | split

theorem connOpen_does {A : List Part} {b₀ : State} (i : Nat) (mirrored : Bool) (s : State) 
    (hD : Does A b₀ s) (hA : partsIn [.block 0x08, .free, .strand, .saf, .pair, .out] A = true) : Does A b₀ (connOpen i mirrored s) := by
  unfold connOpen
  repeat' first
    | with_reducible assumption
    | with_reducible apply connOpenSend_does
    | with_reducible apply onConn_does
    | with_reducible apply safSay_does
    | ((with_reducible refine partsIn_trans ?_ hA); exact rfl)
    | ((with_reducible refine listed_code ?_ hA); exact rfl)
    | exact fun (h : Sparse.wf _ _ = true) => h
    | with_reducible apply next_does
    | with_reducible apply id_does
    | with_reducible apply ite_does
    | with_reducible apply iteO_does
    | (apply Sparse.wf_set; assumption)
    | exact rfl
    | intro _
    | dsimp only
    | split

theorem connFail_does {A : List Part} {b₀ : State} (i : Nat) (st : Status) (s : State) 
    (hD : Does A b₀ s) (hA : partsIn [.block 0x08, .free, .strand, .saf, .pair, .out] A = true) : Does A b₀ (connFail i st s) := by
  unfold connFail
  repeat' first
    | with_reducible assumption
    | with_reducible apply connOpen_does
    | with_reducible apply onConn_does
    | with_reducible apply safSay_does
    | ((with_reducible refine partsIn_trans ?_ hA); exact rfl)
    | ((with_reducible refine listed_code ?_ hA); exact rfl)
    | exact fun (h : Sparse.wf _ _ = true) => h
    | with_reducible apply next_does
    | with_reducible apply id_does
    | with_reducible apply ite_does
    | with_reducible apply iteO_does
    | (apply Sparse.wf_set; assumption)
    | exact rfl
    | intro _
    | dsimp only
    | split

theorem connStart_does {A : List Part} {b₀ : State}  (s : State) 
    (hD : Does A b₀ s) (hA : partsIn [.block 0x08, .free, .strand, .saf, .pair, .out] A = true) : Does A b₀ (connStart s) := by
  unfold connStart
  repeat' first
    | with_reducible assumption
    | with_reducible apply connOpen_does
    | with_reducible apply forAll_does
    | with_reducible apply onConn_does
    | ((with_reducible refine partsIn_trans ?_ hA); exact rfl)
    | ((with_reducible refine listed_code ?_ hA); exact rfl)
    | exact fun (h : Sparse.wf _ _ = true) => h
    | with_reducible apply next_does
    | with_reducible apply id_does
    | with_reducible apply ite_does
    | with_reducible apply iteO_does
    | (apply Sparse.wf_set; assumption)
    | exact rfl
    | intro _
    | dsimp only
    | split

theorem producerCycle_does {A : List Part} {b₀ : State} (i : Nat) (s : State) 
    (hD : Does A b₀ s) (hA : partsIn [.saf, .pair, .out] A = true) : Does A b₀ (producerCycle i s) := by
  unfold producerCycle
  repeat' first
    | with_reducible assumption
    | with_reducible apply connSend_does
    | with_reducible apply onConn_does
    | with_reducible apply onlyIf_does
    | ((with_reducible refine partsIn_trans ?_ hA); exact rfl)
    | ((with_reducible refine listed_code ?_ hA); exact rfl)
    | exact fun (h : Sparse.wf _ _ = true) => h
    | with_reducible apply next_does
    | with_reducible apply id_does
    | with_reducible apply ite_does
    | with_reducible apply iteO_does
    | (apply Sparse.wf_set; assumption)
    | exact rfl
    | intro _
    | dsimp only
    | split

theorem safMirror_does {A : List Part} {b₀ : State}  (s : State) 
    (hD : Does A b₀ s) (hA : partsIn [.pair, .out] A = true) : Does A b₀ (safMirror s) := by
  unfold safMirror
  repeat' first
    | with_reducible assumption
    | with_reducible apply cwMirror_does
    | ((with_reducible refine partsIn_trans ?_ hA); exact rfl)
    | ((with_reducible refine listed_code ?_ hA); exact rfl)
    | exact fun (h : Sparse.wf _ _ = true) => h
    | with_reducible apply next_does
    | with_reducible apply id_does
    | with_reducible apply ite_does
    | with_reducible apply iteO_does
    | (apply Sparse.wf_set; assumption)
    | exact rfl
    | intro _
    | dsimp only
    | split

theorem tpStop_does {A : List Part} {b₀ : State}  (s : State) 
    (hD : Does A b₀ s) (hA : partsIn [.block 0x08, .saf] A = true) : Does A b₀ (tpStop s) := by
  unfold tpStop
  repeat' first
    | with_reducible assumption
    | with_reducible apply setFld_does
    | ((with_reducible refine partsIn_trans ?_ hA); exact rfl)
    | ((with_reducible refine listed_code ?_ hA); exact rfl)
    | exact fun (h : Sparse.wf _ _ = true) => h
    | with_reducible apply next_does
    | with_reducible apply id_does
    | with_reducible apply ite_does
    | with_reducible apply iteO_does
    | (apply Sparse.wf_set; assumption)
    | exact rfl
    | intro _
    | dsimp only
    | split
    | with_reducible apply upd_saf

theorem tpStart_does {A : List Part} {b₀ : State}  (s : State) 
    (hD : Does A b₀ s) (hA : partsIn [.block 0x08] A = true) : Does A b₀ (tpStart s) := by
  unfold tpStart
  repeat' first
    | with_reducible assumption
    | with_reducible apply setFld_does
    | ((with_reducible refine partsIn_trans ?_ hA); exact rfl)
    | ((with_reducible refine listed_code ?_ hA); exact rfl)
    | exact fun (h : Sparse.wf _ _ = true) => h
    | with_reducible apply next_does
    | with_reducible apply id_does
    | with_reducible apply ite_does
    | with_reducible apply iteO_does
    | (apply Sparse.wf_set; assumption)
    | exact rfl
    | intro _
    | dsimp only
    | split

theorem safFall_does {A : List Part} {b₀ : State} (cause : Status) (s : State) 
    (hD : Does A b₀ s) (hA : partsIn [.block 0x08, .saf, .out] A = true) : Does A b₀ (safFall cause s) := by
  unfold safFall
  repeat' first
    | with_reducible assumption
    | with_reducible apply forAll_does
    | with_reducible apply onConn_does
    | with_reducible apply onSq_does
    | with_reducible apply safEv_does
    | with_reducible apply setFld_does
    | with_reducible apply tpStop_does
    | ((with_reducible refine partsIn_trans ?_ hA); exact rfl)
    | ((with_reducible refine listed_code ?_ hA); exact rfl)
    | exact fun (h : Sparse.wf _ _ = true) => h
    | with_reducible apply next_does
    | with_reducible apply id_does
    | with_reducible apply ite_does
    | with_reducible apply iteO_does
    | (apply Sparse.wf_set; assumption)
    | exact rfl
    | intro _
    | dsimp only
    | split

theorem safStart_does {A : List Part} {b₀ : State}  (s : State) 
    (hD : Does A b₀ s) (hA : partsIn [.block 0x08, .free, .strand, .saf, .pair, .out] A = true) : Does A b₀ (safStart s) := by
  unfold safStart
  repeat' first
    | with_reducible assumption
    | with_reducible apply connStart_does
    | with_reducible apply onlyIf_does
    | with_reducible apply safSay_does
    | with_reducible apply setFld_does
    | with_reducible apply tpStart_does
    | ((with_reducible refine listed_block 8 ?_ ?_ hA); first | omega | (dsimp only [Fld.SAF_STATE_CFG_OK, Fld.SAF_STATE_SPLIT_STRAP, Fld.SAF_STATE_STATE, safState]; omega) | (dsimp only [Fld.SAF_STATE_CFG_OK, Fld.SAF_STATE_SPLIT_STRAP, Fld.SAF_STATE_STATE, safState]; split <;> omega); exact rfl)
    | ((with_reducible refine partsIn_trans ?_ hA); exact rfl)
    | ((with_reducible refine listed_code ?_ hA); exact rfl)
    | exact fun (h : Sparse.wf _ _ = true) => h
    | with_reducible apply next_does
    | with_reducible apply id_does
    | with_reducible apply ite_does
    | with_reducible apply iteO_does
    | (apply Sparse.wf_set; assumption)
    | exact rfl
    | intro _
    | dsimp only
    | split

end Sys2Proof.Machine
end

