-- ==== Sys2Proof/Laws/OnlyRegion.lean ====
section
/-! SUPPORT. What each operation of Machine/Region.lean can do: the parts of the state it may change, and that it keeps
canonical form. -/
namespace Sys2Proof.Machine

theorem moduleFault_does {A : List Part} {b₀ : State} (st : Status) (s : State) 
    (hD : Does A b₀ s) (hA : partsIn [.block 0x01, .block 0x08, .block 0x09, .block 0x0C, .free, .strand, .saf, .pair, .can, .sup, .out] A = true) : Does A b₀ (moduleFault st s) := by
  unfold moduleFault
  repeat' first
    | with_reducible assumption
    | with_reducible apply moduleEbb_does
    | with_reducible apply safEbb_does
    | ((with_reducible refine partsIn_trans ?_ hA); exact rfl)
    | ((with_reducible refine listed_code ?_ hA); exact rfl)
    | exact fun (h : Sparse.wf _ _ = true) => h
    | with_reducible apply next_does
    | with_reducible apply id_does
    | with_reducible apply ite_does
    | with_reducible apply iteO_does
    | (apply Sparse.wf_set; assumption)
    | exact rfl
    | intro _
    | dsimp only
    | split

theorem seqsFault_does {A : List Part} {b₀ : State}  (s : State) 
    (hD : Does A b₀ s) (hA : partsIn [.block 0x02, .free, .strand, .seqs, .out] A = true) : Does A b₀ (seqsFault s) := by
  unfold seqsFault
  repeat' first
    | with_reducible assumption
    | with_reducible apply forAll_does
    | with_reducible apply raiseBit_does
    | with_reducible apply say_does
    | ((with_reducible refine partsIn_trans ?_ hA); exact rfl)
    | ((with_reducible refine listed_code ?_ hA); exact rfl)
    | exact fun (h : Sparse.wf _ _ = true) => h
    | with_reducible apply next_does
    | with_reducible apply id_does
    | with_reducible apply ite_does
    | with_reducible apply iteO_does
    | (apply Sparse.wf_set; assumption)
    | exact rfl
    | intro _
    | dsimp only
    | split
    | with_reducible apply upd_seqs

theorem triadMode_does {A : List Part} {b₀ : State} (m : Nat) (s : State) 
    (hD : Does A b₀ s) (hA : partsIn [.block 0x0A] A = true) : Does A b₀ (triadMode m s) := by
  unfold triadMode
  repeat' first
    | with_reducible assumption
    | with_reducible apply setFld_does
    | ((with_reducible refine partsIn_trans ?_ hA); exact rfl)
    | ((with_reducible refine listed_code ?_ hA); exact rfl)
    | exact fun (h : Sparse.wf _ _ = true) => h
    | with_reducible apply next_does
    | with_reducible apply id_does
    | with_reducible apply ite_does
    | with_reducible apply iteO_does
    | (apply Sparse.wf_set; assumption)
    | exact rfl
    | intro _
    | dsimp only
    | split

theorem regionAction_does {A : List Part} {b₀ : State} (r : Nat) (st : Status) (s : State) 
    (hD : Does A b₀ s) (hA : partsIn [.block 0x02, .block 0x03, .block 0x05, .block 0x08, .block 0x0A, .free, .strand, .backup, .tides, .seqs, .exe, .loop, .dio, .saf, .out] A = true) : Does A b₀ (regionAction r st s) := by
  unfold regionAction
  repeat' first
    | with_reducible assumption
    | with_reducible apply loopRegionFallback_does
    | with_reducible apply safFall_does
    | with_reducible apply seqsFault_does
    | with_reducible apply setFlag_does
    | with_reducible apply setFld_does
    | with_reducible apply tidesHold_does
    | with_reducible apply triadMode_does
    | ((with_reducible refine partsIn_trans ?_ hA); exact rfl)
    | ((with_reducible refine listed_code ?_ hA); exact rfl)
    | exact fun (h : Sparse.wf _ _ = true) => h
    | with_reducible apply next_does
    | with_reducible apply id_does
    | with_reducible apply ite_does
    | with_reducible apply iteO_does
    | (apply Sparse.wf_set; assumption)
    | exact rfl
    | intro _
    | dsimp only
    | split
    | with_reducible apply upd_backup
    | with_reducible apply upd_exe

theorem enterFallback_does {A : List Part} {b₀ : State} (r : Nat) (st : Status) (s : State) 
    (hD : Does A b₀ s) (hA : partsIn [.block 0x01, .block 0x02, .block 0x03, .block 0x05, .block 0x08, .block 0x09, .block 0x0A, .block 0x0C, .free, .strand, .backup, .tides, .seqs, .exe, .loop, .dio, .saf, .pair, .can, .sup, .mbx, .out] A = true) : Does A b₀ (enterFallback r st s) := by
  unfold enterFallback
  repeat' first
    | with_reducible assumption
    | with_reducible apply markFallback_does
    | with_reducible apply moduleFault_does
    | with_reducible apply regionAction_does
    | ((with_reducible refine partsIn_trans ?_ hA); exact rfl)
    | ((with_reducible refine listed_code ?_ hA); exact rfl)
    | exact fun (h : Sparse.wf _ _ = true) => h
    | with_reducible apply next_does
    | with_reducible apply id_does
    | with_reducible apply ite_does
    | with_reducible apply iteO_does
    | (apply Sparse.wf_set; assumption)
    | exact rfl
    | intro _
    | dsimp only
    | split

theorem safFault_does {A : List Part} {b₀ : State} (st : Status) (s : State) 
    (hD : Does A b₀ s) (hA : partsIn [.block 0x01, .block 0x02, .block 0x03, .block 0x05, .block 0x08, .block 0x09, .block 0x0A, .block 0x0C, .free, .strand, .backup, .tides, .seqs, .exe, .loop, .dio, .saf, .pair, .can, .sup, .mbx, .out] A = true) : Does A b₀ (safFault st s) := by
  unfold safFault
  repeat' first
    | with_reducible assumption
    | with_reducible apply enterFallback_does
    | with_reducible apply safSay_does
    | ((with_reducible refine partsIn_trans ?_ hA); exact rfl)
    | ((with_reducible refine listed_code ?_ hA); exact rfl)
    | exact fun (h : Sparse.wf _ _ = true) => h
    | with_reducible apply next_does
    | with_reducible apply id_does
    | with_reducible apply ite_does
    | with_reducible apply iteO_does
    | (apply Sparse.wf_set; assumption)
    | exact rfl
    | intro _
    | dsimp only
    | split

theorem isolateBank_does {A : List Part} {b₀ : State} (r : Nat) (b : Nat) (s : State) 
    (hD : Does A b₀ s) (hA : partsIn [.block 0x01, .block 0x02, .block 0x03, .block 0x05, .block 0x08, .block 0x09, .block 0x0A, .block 0x0C, .free, .strand, .backup, .tides, .seqs, .exe, .loop, .dio, .saf, .pair, .can, .sup, .mbx, .out] A = true) : Does A b₀ (isolateBank r b s) := by
  unfold isolateBank
  repeat' first
    | with_reducible assumption
    | with_reducible apply enterFallback_does
    | with_reducible apply sayRegion_does
    | ((with_reducible refine partsIn_trans ?_ hA); exact rfl)
    | ((with_reducible refine listed_code ?_ hA); exact rfl)
    | exact fun (h : Sparse.wf _ _ = true) => h
    | with_reducible apply next_does
    | with_reducible apply id_does
    | with_reducible apply ite_does
    | with_reducible apply iteO_does
    | (apply Sparse.wf_set; assumption)
    | exact rfl
    | intro _
    | dsimp only
    | split
    | with_reducible apply upd_sup

theorem unisolateBank_does {A : List Part} {b₀ : State} (r : Nat) (b : Nat) (s : State) 
    (hD : Does A b₀ s) (hA : partsIn [.sup] A = true) : Does A b₀ (unisolateBank r b s) := by
  unfold unisolateBank
  repeat' first
    | with_reducible assumption
    | ((with_reducible refine partsIn_trans ?_ hA); exact rfl)
    | ((with_reducible refine listed_code ?_ hA); exact rfl)
    | exact fun (h : Sparse.wf _ _ = true) => h
    | with_reducible apply next_does
    | with_reducible apply id_does
    | with_reducible apply ite_does
    | with_reducible apply iteO_does
    | (apply Sparse.wf_set; assumption)
    | exact rfl
    | intro _
    | dsimp only
    | split
    | with_reducible apply upd_sup

theorem queueFail_does {A : List Part} {b₀ : State}  (s : State) 
    (hD : Does A b₀ s) (hA : partsIn [.block 0x02, .block 0x03, .block 0x0B, .free, .strand, .tides, .exe, .net, .sup, .out] A = true) : Does A b₀ (queueFail s) := by
  unfold queueFail
  repeat' first
    | with_reducible assumption
    | with_reducible apply canFail_does
    | with_reducible apply netFail_does
    | ((with_reducible refine partsIn_trans ?_ hA); exact rfl)
    | ((with_reducible refine listed_code ?_ hA); exact rfl)
    | exact fun (h : Sparse.wf _ _ = true) => h
    | with_reducible apply next_does
    | with_reducible apply id_does
    | with_reducible apply ite_does
    | with_reducible apply iteO_does
    | (apply Sparse.wf_set; assumption)
    | exact rfl
    | intro _
    | dsimp only
    | split
    | with_reducible apply upd_sup

theorem execRegionFault_does {A : List Part} {b₀ : State} (region : Region) (status : Status) (s : State) 
    (hD : Does A b₀ s) (hA : partsIn [.block 0x01, .block 0x02, .block 0x03, .block 0x05, .block 0x08, .block 0x09, .block 0x0A, .block 0x0B, .block 0x0C, .free, .strand, .backup, .tides, .seqs, .exe, .loop, .dio, .saf, .pair, .net, .can, .sup, .mbx, .out] A = true) : DoesO A b₀ (execRegionFault region status s) := by
  unfold execRegionFault
  repeat' first
    | with_reducible assumption
    | with_reducible apply enterFallback_does
    | with_reducible apply onlyIf_does
    | with_reducible apply queueFail_does
    | with_reducible apply safFault_does
    | with_reducible apply sayRegion_does
    | ((with_reducible refine partsIn_trans ?_ hA); exact rfl)
    | ((with_reducible refine listed_code ?_ hA); exact rfl)
    | exact fun (h : Sparse.wf _ _ = true) => h
    | with_reducible apply next_does
    | with_reducible apply id_does
    | with_reducible apply ite_does
    | with_reducible apply iteO_does
    | (apply Sparse.wf_set; assumption)
    | exact rfl
    | intro _
    | dsimp only
    | split

theorem execRegionFallbackFail_does {A : List Part} {b₀ : State} (region : Region) (s : State) 
    (hD : Does A b₀ s) (hA : partsIn [.block 0x01, .block 0x08, .block 0x09, .block 0x0C, .free, .strand, .saf, .pair, .can, .sup, .out] A = true) : DoesO A b₀ (execRegionFallbackFail region s) := by
  unfold execRegionFallbackFail
  repeat' first
    | with_reducible assumption
    | with_reducible apply moduleFault_does
    | with_reducible apply sayRegion_does
    | ((with_reducible refine partsIn_trans ?_ hA); exact rfl)
    | ((with_reducible refine listed_code ?_ hA); exact rfl)
    | exact fun (h : Sparse.wf _ _ = true) => h
    | with_reducible apply next_does
    | with_reducible apply id_does
    | with_reducible apply ite_does
    | with_reducible apply iteO_does
    | (apply Sparse.wf_set; assumption)
    | exact rfl
    | intro _
    | dsimp only
    | split

theorem linkStale_does {A : List Part} {b₀ : State} (d : ClockDomain) (s : State) 
    (hD : Does A b₀ s) (hA : partsIn [.block 0x02, .block 0x03, .block 0x0B, .free, .strand, .tides, .exe, .net, .out] A = true) : Does A b₀ (linkStale d s) := by
  unfold linkStale
  repeat' first
    | with_reducible assumption
    | with_reducible apply canFail_does
    | with_reducible apply netFail_does
    | ((with_reducible refine partsIn_trans ?_ hA); exact rfl)
    | ((with_reducible refine listed_code ?_ hA); exact rfl)
    | exact fun (h : Sparse.wf _ _ = true) => h
    | with_reducible apply next_does
    | with_reducible apply id_does
    | with_reducible apply ite_does
    | with_reducible apply iteO_does
    | (apply Sparse.wf_set; assumption)
    | exact rfl
    | intro _
    | dsimp only
    | split

theorem execClockFailure_does {A : List Part} {b₀ : State} (domain : ClockDomain) (s : State) 
    (hD : Does A b₀ s) (hA : partsIn [.block 0x01, .block 0x02, .block 0x03, .block 0x05, .block 0x08, .block 0x09, .block 0x0A, .block 0x0B, .block 0x0C, .free, .strand, .backup, .tides, .seqs, .exe, .loop, .dio, .saf, .pair, .net, .can, .sup, .mbx, .out] A = true) : DoesO A b₀ (execClockFailure domain s) := by
  unfold execClockFailure
  repeat' first
    | with_reducible assumption
    | with_reducible apply enterFallback_does
    | with_reducible apply linkStale_does
    | with_reducible apply moduleFault_does
    | with_reducible apply safFault_does
    | with_reducible apply sayRegion_does
    | ((with_reducible refine partsIn_trans ?_ hA); exact rfl)
    | ((with_reducible refine listed_code ?_ hA); exact rfl)
    | exact fun (h : Sparse.wf _ _ = true) => h
    | with_reducible apply next_does
    | with_reducible apply id_does
    | with_reducible apply ite_does
    | with_reducible apply iteO_does
    | (apply Sparse.wf_set; assumption)
    | exact rfl
    | intro _
    | dsimp only
    | split
    | with_reducible apply upd_sup

theorem execBankIsolationTimeout_does {A : List Part} {b₀ : State} (region : Region) (s : State) 
    (hD : Does A b₀ s) (hA : partsIn [.block 0x01, .block 0x02, .block 0x03, .block 0x05, .block 0x08, .block 0x09, .block 0x0A, .block 0x0C, .free, .strand, .backup, .tides, .seqs, .exe, .loop, .dio, .saf, .pair, .can, .sup, .mbx, .out] A = true) : DoesO A b₀ (execBankIsolationTimeout region s) := by
  unfold execBankIsolationTimeout
  repeat' first
    | with_reducible assumption
    | with_reducible apply enterFallback_does
    | with_reducible apply sayRegion_does
    | ((with_reducible refine partsIn_trans ?_ hA); exact rfl)
    | ((with_reducible refine listed_code ?_ hA); exact rfl)
    | exact fun (h : Sparse.wf _ _ = true) => h
    | with_reducible apply next_does
    | with_reducible apply id_does
    | with_reducible apply ite_does
    | with_reducible apply iteO_does
    | (apply Sparse.wf_set; assumption)
    | exact rfl
    | intro _
    | dsimp only
    | split

theorem execCdFabricStop_does {A : List Part} {b₀ : State}  (s : State) 
    (hD : Does A b₀ s) (hA : partsIn [.sup] A = true) : DoesO A b₀ (execCdFabricStop s) := by
  unfold execCdFabricStop
  repeat' first
    | with_reducible assumption
    | ((with_reducible refine partsIn_trans ?_ hA); exact rfl)
    | ((with_reducible refine listed_code ?_ hA); exact rfl)
    | exact fun (h : Sparse.wf _ _ = true) => h
    | with_reducible apply next_does
    | with_reducible apply id_does
    | with_reducible apply ite_does
    | with_reducible apply iteO_does
    | (apply Sparse.wf_set; assumption)
    | exact rfl
    | intro _
    | dsimp only
    | split
    | with_reducible apply upd_sup

theorem execLivenessToggle_does {A : List Part} {b₀ : State}  (s : State) 
    (hD : Does A b₀ s) (hA : partsIn [.sup] A = true) : DoesO A b₀ (execLivenessToggle s) := by
  unfold execLivenessToggle
  repeat' first
    | with_reducible assumption
    | ((with_reducible refine partsIn_trans ?_ hA); exact rfl)
    | ((with_reducible refine listed_code ?_ hA); exact rfl)
    | exact fun (h : Sparse.wf _ _ = true) => h
    | with_reducible apply next_does
    | with_reducible apply id_does
    | with_reducible apply ite_does
    | with_reducible apply iteO_does
    | (apply Sparse.wf_set; assumption)
    | exact rfl
    | intro _
    | dsimp only
    | split
    | with_reducible apply upd_sup

theorem execSafLiveness_does {A : List Part} {b₀ : State} (tie : Bool) (s : State) 
    (hD : Does A b₀ s) (hA : partsIn [.block 0x08, .block 0x09, .block 0x0C, .free, .strand, .saf, .pair, .can, .sup, .out] A = true) : DoesO A b₀ (execSafLiveness tie s) := by
  unfold execSafLiveness
  repeat' first
    | with_reducible assumption
    | with_reducible apply onlyIf_does
    | with_reducible apply pairTo_does
    | with_reducible apply releaseAuth_does
    | with_reducible apply safSay_does
    | with_reducible apply safTie_does
    | with_reducible apply sqEvalAll_does
    | ((with_reducible refine listed_block 8 ?_ ?_ hA); first | omega | (dsimp only [Fld.SAF_STATE_STATE, Fld.SUP_PWR_STATE_STATE, power, safState]; omega) | (dsimp only [Fld.SAF_STATE_STATE, Fld.SUP_PWR_STATE_STATE, power, safState]; split <;> omega); exact rfl)
    | ((with_reducible refine listed_block 9 ?_ ?_ hA); first | omega | (dsimp only [Fld.SAF_STATE_STATE, Fld.SUP_PWR_STATE_STATE, power, safState]; omega) | (dsimp only [Fld.SAF_STATE_STATE, Fld.SUP_PWR_STATE_STATE, power, safState]; split <;> omega); exact rfl)
    | ((with_reducible refine listed_block 12 ?_ ?_ hA); first | omega | (dsimp only [Fld.SAF_STATE_STATE, Fld.SUP_PWR_STATE_STATE, power, safState]; omega) | (dsimp only [Fld.SAF_STATE_STATE, Fld.SUP_PWR_STATE_STATE, power, safState]; split <;> omega); exact rfl)
    | ((with_reducible refine partsIn_trans ?_ hA); exact rfl)
    | ((with_reducible refine listed_code ?_ hA); exact rfl)
    | exact fun (h : Sparse.wf _ _ = true) => h
    | with_reducible apply next_does
    | with_reducible apply id_does
    | with_reducible apply ite_does
    | with_reducible apply iteO_does
    | (apply Sparse.wf_set; assumption)
    | exact rfl
    | intro _
    | dsimp only
    | split
    | with_reducible apply upd_sup

end Sys2Proof.Machine
end

