-- ==== Sys2Proof/Laws/OnlyCan.lean ====
section
/-! SUPPORT. What each operation of Machine/Can.lean can do: the parts of the state it may change, and that it keeps
canonical form. -/
namespace Sys2Proof.Machine

theorem canEnable_does {A : List Part} {b₀ : State} (c : Nat) (s : State) 
    (hD : Does A b₀ s) (hA : partsIn [.block 0x0C, .free, .strand, .out] A = true) : Does A b₀ (canEnable c s) := by
  unfold canEnable
  repeat' first
    | with_reducible assumption
    | with_reducible apply say_does
    | with_reducible apply setBitAt_does
    | with_reducible apply setFld_does
    | ((with_reducible refine listed_block 12 ?_ ?_ hA); first | omega | (dsimp only [Fld.CNc_STATUS_REC, Fld.CNc_STATUS_STATE, Fld.CNc_STATUS_TEC, Reg.CAN_CTRL, canState]; omega) | (dsimp only [Fld.CNc_STATUS_REC, Fld.CNc_STATUS_STATE, Fld.CNc_STATUS_TEC, Reg.CAN_CTRL, canState]; split <;> omega); exact rfl)
    | ((with_reducible refine partsIn_trans ?_ hA); exact rfl)
    | ((with_reducible refine listed_code ?_ hA); exact rfl)
    | exact fun (h : Sparse.wf _ _ = true) => h
    | with_reducible apply next_does
    | with_reducible apply id_does
    | with_reducible apply ite_does
    | with_reducible apply iteO_does
    | (apply Sparse.wf_set; assumption)
    | exact rfl
    | intro _
    | dsimp only
    | split

theorem canDisable_does {A : List Part} {b₀ : State} (c : Nat) (s : State) 
    (hD : Does A b₀ s) (hA : partsIn [.block 0x0C] A = true) : Does A b₀ (canDisable c s) := by
  unfold canDisable
  repeat' first
    | with_reducible assumption
    | with_reducible apply setBitAt_does
    | with_reducible apply setFld_does
    | ((with_reducible refine listed_block 12 ?_ ?_ hA); first | omega | (dsimp only [Fld.CNc_STATUS_STATE, Reg.CAN_CTRL, canState]; omega) | (dsimp only [Fld.CNc_STATUS_STATE, Reg.CAN_CTRL, canState]; split <;> omega); exact rfl)
    | ((with_reducible refine partsIn_trans ?_ hA); exact rfl)
    | ((with_reducible refine listed_code ?_ hA); exact rfl)
    | exact fun (h : Sparse.wf _ _ = true) => h
    | with_reducible apply next_does
    | with_reducible apply id_does
    | with_reducible apply ite_does
    | with_reducible apply iteO_does
    | (apply Sparse.wf_set; assumption)
    | exact rfl
    | intro _
    | dsimp only
    | split

theorem execCanChannelEnable_does {A : List Part} {b₀ : State} (value : Word) (s : State) 
    (hD : Does A b₀ s) (hA : partsIn [.block 0x0C, .block 0x0F, .free, .strand, .out] A = true) : DoesO A b₀ (execCanChannelEnable value s) := by
  unfold execCanChannelEnable
  repeat' first
    | with_reducible assumption
    | with_reducible apply canDisable_does
    | with_reducible apply canEnable_does
    | with_reducible apply forAll_does
    | with_reducible apply hostCmd_does
    | ((with_reducible refine partsIn_trans ?_ hA); exact rfl)
    | ((with_reducible refine listed_code ?_ hA); exact rfl)
    | exact fun (h : Sparse.wf _ _ = true) => h
    | with_reducible apply next_does
    | with_reducible apply id_does
    | with_reducible apply ite_does
    | with_reducible apply iteO_does
    | (apply Sparse.wf_set; assumption)
    | exact rfl
    | intro _
    | dsimp only
    | split

theorem execCanBufferWrite_does {A : List Part} {b₀ : State} (c : Fin 4) (b : Fin 64) (word : Fin 32) (value : Word) (s : State) 
    (hD : Does A b₀ s) (hA : partsIn [.block 0x0F, .free, .strand, .can, .out] A = true) : DoesO A b₀ (execCanBufferWrite c b word value s) := by
  unfold execCanBufferWrite
  repeat' first
    | with_reducible assumption
    | with_reducible apply hostCmd_does
    | with_reducible apply onCan_does
    | with_reducible apply say_does
    | ((with_reducible refine partsIn_trans ?_ hA); exact rfl)
    | ((with_reducible refine listed_code ?_ hA); exact rfl)
    | exact fun (h : Sparse.wf _ _ = true) => h
    | with_reducible apply next_does
    | with_reducible apply id_does
    | with_reducible apply ite_does
    | with_reducible apply iteO_does
    | (apply Sparse.wf_set; assumption)
    | exact rfl
    | intro _
    | dsimp only
    | split

theorem canReceived_does {A : List Part} {b₀ : State} (c : Nat) (s : State) 
    (hD : Does A b₀ s) (hA : partsIn [.block 0x0C, .free, .strand, .out] A = true) : Does A b₀ (canReceived c s) := by
  unfold canReceived
  repeat' first
    | with_reducible assumption
    | with_reducible apply canCount_does
    | with_reducible apply withFree_does
    | ((with_reducible refine listed_block 12 ?_ ?_ hA); first | omega | (dsimp only [Fld.CNc_STATUS_REC, Fld.CNc_STATUS_TEC, canRec, canTec]; omega) | (dsimp only [Fld.CNc_STATUS_REC, Fld.CNc_STATUS_TEC, canRec, canTec]; split <;> omega); exact rfl)
    | ((with_reducible refine partsIn_trans ?_ hA); exact rfl)
    | ((with_reducible refine listed_code ?_ hA); exact rfl)
    | exact fun (h : Sparse.wf _ _ = true) => h
    | with_reducible apply next_does
    | with_reducible apply id_does
    | with_reducible apply ite_does
    | with_reducible apply iteO_does
    | (apply Sparse.wf_set; assumption)
    | exact rfl
    | intro _
    | dsimp only
    | split

theorem canStore_does {A : List Part} {b₀ : State} (c : Nat) (b : Nat) (f : CanFrame) (s : State) 
    (hD : Does A b₀ s) (hA : partsIn [.block 0x03, .block 0x05, .block 0x0C, .free, .strand, .exe, .dio, .can, .out] A = true) : Does A b₀ (canStore c b f s) := by
  unfold canStore
  repeat' first
    | with_reducible assumption
    | with_reducible apply canStaleTags_does
    | with_reducible apply forAll_does
    | with_reducible apply onCan_does
    | with_reducible apply onlyIf_does
    | with_reducible apply raiseBit_does
    | with_reducible apply raiseF_does
    | with_reducible apply say_does
    | with_reducible apply signalSource_does
    | with_reducible apply tagStore_does
    | ((with_reducible refine partsIn_trans ?_ hA); exact rfl)
    | ((with_reducible refine listed_code ?_ hA); exact rfl)
    | exact fun (h : Sparse.wf _ _ = true) => h
    | with_reducible apply next_does
    | with_reducible apply id_does
    | with_reducible apply ite_does
    | with_reducible apply iteO_does
    | (apply Sparse.wf_set; assumption)
    | exact rfl
    | intro _
    | dsimp only
    | split

theorem execCanFrameReceive_does {A : List Part} {b₀ : State} (c : Fin 4) (frame : CanFrame) (s : State) 
    (hD : Does A b₀ s) (hA : partsIn [.block 0x03, .block 0x05, .block 0x0C, .block 0x13, .free, .mem, .strand, .exe, .dio, .can, .queSeq, .out] A = true) : DoesO A b₀ (execCanFrameReceive c frame s) := by
  unfold execCanFrameReceive
  repeat' first
    | with_reducible assumption
    | with_reducible apply bump_does
    | with_reducible apply canCount_does
    | with_reducible apply canReceived_does
    | with_reducible apply canStore_does
    | with_reducible apply forAll_does
    | with_reducible apply onCan_does
    | with_reducible apply quePush_does
    | ((with_reducible refine listed_block 3 ?_ ?_ hA); first | omega | (dsimp only [Fld.CNc_CFG_FD_EN, Fld.CNc_RX_COUNTS_LOST, Fld.CNc_STATUS_REC, Fld.CNc_STATUS_TEC, canRec, canTec]; omega) | (dsimp only [Fld.CNc_CFG_FD_EN, Fld.CNc_RX_COUNTS_LOST, Fld.CNc_STATUS_REC, Fld.CNc_STATUS_TEC, canRec, canTec]; split <;> omega); exact rfl)
    | ((with_reducible refine listed_block 5 ?_ ?_ hA); first | omega | (dsimp only [Fld.CNc_CFG_FD_EN, Fld.CNc_RX_COUNTS_LOST, Fld.CNc_STATUS_REC, Fld.CNc_STATUS_TEC, canRec, canTec]; omega) | (dsimp only [Fld.CNc_CFG_FD_EN, Fld.CNc_RX_COUNTS_LOST, Fld.CNc_STATUS_REC, Fld.CNc_STATUS_TEC, canRec, canTec]; split <;> omega); exact rfl)
    | ((with_reducible refine listed_block 12 ?_ ?_ hA); first | omega | (dsimp only [Fld.CNc_CFG_FD_EN, Fld.CNc_RX_COUNTS_LOST, Fld.CNc_STATUS_REC, Fld.CNc_STATUS_TEC, canRec, canTec]; omega) | (dsimp only [Fld.CNc_CFG_FD_EN, Fld.CNc_RX_COUNTS_LOST, Fld.CNc_STATUS_REC, Fld.CNc_STATUS_TEC, canRec, canTec]; split <;> omega); exact rfl)
    | ((with_reducible refine listed_block 19 ?_ ?_ hA); first | omega | (dsimp only [Fld.CNc_CFG_FD_EN, Fld.CNc_RX_COUNTS_LOST, Fld.CNc_STATUS_REC, Fld.CNc_STATUS_TEC, canRec, canTec]; omega) | (dsimp only [Fld.CNc_CFG_FD_EN, Fld.CNc_RX_COUNTS_LOST, Fld.CNc_STATUS_REC, Fld.CNc_STATUS_TEC, canRec, canTec]; split <;> omega); exact rfl)
    | ((with_reducible refine partsIn_trans ?_ hA); exact rfl)
    | ((with_reducible refine listed_code ?_ hA); exact rfl)
    | exact fun (h : Sparse.wf _ _ = true) => h
    | with_reducible apply next_does
    | with_reducible apply id_does
    | with_reducible apply ite_does
    | with_reducible apply iteO_does
    | (apply Sparse.wf_set; assumption)
    | exact rfl
    | intro _
    | dsimp only
    | split

theorem execCanRxError_does {A : List Part} {b₀ : State} (c : Fin 4) (crc : Bool) (eight : Bool) (s : State) 
    (hD : Does A b₀ s) (hA : partsIn [.block 0x0C, .free, .strand, .out] A = true) : DoesO A b₀ (execCanRxError c crc eight s) := by
  unfold execCanRxError
  repeat' first
    | with_reducible assumption
    | with_reducible apply bump_does
    | with_reducible apply canCount_does
    | with_reducible apply onlyIf_does
    | ((with_reducible refine listed_block 12 ?_ ?_ hA); first | omega | (dsimp only [Fld.CNc_RX_COUNTS_CRC, Fld.CNc_STATUS_REC, Fld.CNc_STATUS_TEC, canRec, canTec]; omega) | (dsimp only [Fld.CNc_RX_COUNTS_CRC, Fld.CNc_STATUS_REC, Fld.CNc_STATUS_TEC, canRec, canTec]; split <;> omega); exact rfl)
    | ((with_reducible refine partsIn_trans ?_ hA); exact rfl)
    | ((with_reducible refine listed_code ?_ hA); exact rfl)
    | exact fun (h : Sparse.wf _ _ = true) => h
    | with_reducible apply next_does
    | with_reducible apply id_does
    | with_reducible apply ite_does
    | with_reducible apply iteO_does
    | (apply Sparse.wf_set; assumption)
    | exact rfl
    | intro _
    | dsimp only
    | split

theorem execCanRxSilent_does {A : List Part} {b₀ : State} (c : Fin 4) (b : Fin 64) (tie : Bool) (s : State) 
    (hD : Does A b₀ s) (hA : partsIn [.block 0x0C, .free, .strand, .exe, .can, .out] A = true) : DoesO A b₀ (execCanRxSilent c b tie s) := by
  unfold execCanRxSilent
  repeat' first
    | with_reducible assumption
    | with_reducible apply bump_does
    | with_reducible apply canSay_does
    | with_reducible apply canStaleTags_does
    | ((with_reducible refine listed_block 12 ?_ ?_ hA); first | omega | (dsimp only [Fld.CAN_CLOSE_CALL_COUNT, Fld.CNc_STATUS_STATE, canState]; omega) | (dsimp only [Fld.CAN_CLOSE_CALL_COUNT, Fld.CNc_STATUS_STATE, canState]; split <;> omega); exact rfl)
    | ((with_reducible refine partsIn_trans ?_ hA); exact rfl)
    | ((with_reducible refine listed_code ?_ hA); exact rfl)
    | exact fun (h : Sparse.wf _ _ = true) => h
    | with_reducible apply next_does
    | with_reducible apply id_does
    | with_reducible apply ite_does
    | with_reducible apply iteO_does
    | (apply Sparse.wf_set; assumption)
    | exact rfl
    | intro _
    | dsimp only
    | split

theorem canComplete_does {A : List Part} {b₀ : State} (c : Nat) (b : Nat) (stamp : DWord) (s : State) 
    (hD : Does A b₀ s) (hA : partsIn [.block 0x0C, .block 0x13, .free, .strand, .can, .out] A = true) : Does A b₀ (canComplete c b stamp s) := by
  unfold canComplete
  repeat' first
    | with_reducible assumption
    | with_reducible apply canCount_does
    | with_reducible apply onCan_does
    | with_reducible apply onlyIf_does
    | with_reducible apply queTake_does
    | with_reducible apply raiseF_does
    | with_reducible apply say_does
    | with_reducible apply sendOut_does
    | ((with_reducible refine listed_block 12 ?_ ?_ hA); first | omega | (dsimp only [Fld.CAN_EVENT_TX_DONE, Fld.CNc_STATUS_REC, Fld.CNc_STATUS_TEC, canRec, canTec]; omega) | (dsimp only [Fld.CAN_EVENT_TX_DONE, Fld.CNc_STATUS_REC, Fld.CNc_STATUS_TEC, canRec, canTec]; split <;> omega); exact rfl)
    | ((with_reducible refine listed_block 19 ?_ ?_ hA); first | omega | (dsimp only [Fld.CAN_EVENT_TX_DONE, Fld.CNc_STATUS_REC, Fld.CNc_STATUS_TEC, canRec, canTec]; omega) | (dsimp only [Fld.CAN_EVENT_TX_DONE, Fld.CNc_STATUS_REC, Fld.CNc_STATUS_TEC, canRec, canTec]; split <;> omega); exact rfl)
    | ((with_reducible refine partsIn_trans ?_ hA); exact rfl)
    | ((with_reducible refine listed_code ?_ hA); exact rfl)
    | exact fun (h : Sparse.wf _ _ = true) => h
    | with_reducible apply next_does
    | with_reducible apply id_does
    | with_reducible apply ite_does
    | with_reducible apply iteO_does
    | (apply Sparse.wf_set; assumption)
    | exact rfl
    | intro _
    | dsimp only
    | split

theorem execCanTxComplete_does {A : List Part} {b₀ : State} (c : Fin 4) (begun : Option (Fin 65)) (stamp : DWord) (s : State) 
    (hD : Does A b₀ s) (hA : partsIn [.block 0x0C, .block 0x13, .free, .strand, .can, .out] A = true) : DoesO A b₀ (execCanTxComplete c begun stamp s) := by
  unfold execCanTxComplete
  repeat' first
    | with_reducible assumption
    | with_reducible apply canComplete_does
    | ((with_reducible refine partsIn_trans ?_ hA); exact rfl)
    | ((with_reducible refine listed_code ?_ hA); exact rfl)
    | exact fun (h : Sparse.wf _ _ = true) => h
    | with_reducible apply next_does
    | with_reducible apply id_does
    | with_reducible apply ite_does
    | with_reducible apply iteO_does
    | (apply Sparse.wf_set; assumption)
    | exact rfl
    | intro _
    | dsimp only
    | split

theorem canRetry_does {A : List Part} {b₀ : State} (c : Nat) (b : Nat) (s : State) 
    (hD : Does A b₀ s) (hA : partsIn [.block 0x0C, .free, .strand, .can, .out] A = true) : Does A b₀ (canRetry c b s) := by
  unfold canRetry
  repeat' first
    | with_reducible assumption
    | with_reducible apply canTxFail_does
    | ((with_reducible refine partsIn_trans ?_ hA); exact rfl)
    | ((with_reducible refine listed_code ?_ hA); exact rfl)
    | exact fun (h : Sparse.wf _ _ = true) => h
    | with_reducible apply next_does
    | with_reducible apply id_does
    | with_reducible apply ite_does
    | with_reducible apply iteO_does
    | (apply Sparse.wf_set; assumption)
    | exact rfl
    | intro _
    | dsimp only
    | split

theorem canCollide_does {A : List Part} {b₀ : State} (c : Nat) (b : Nat) (s : State) 
    (hD : Does A b₀ s) (hA : partsIn [.block 0x0C, .free, .strand, .can, .out] A = true) : Does A b₀ (canCollide c b s) := by
  unfold canCollide
  repeat' first
    | with_reducible assumption
    | with_reducible apply canWithdraw_does
    | with_reducible apply onCan_does
    | with_reducible apply raiseF_does
    | ((with_reducible refine partsIn_trans ?_ hA); exact rfl)
    | ((with_reducible refine listed_code ?_ hA); exact rfl)
    | exact fun (h : Sparse.wf _ _ = true) => h
    | with_reducible apply next_does
    | with_reducible apply id_does
    | with_reducible apply ite_does
    | with_reducible apply iteO_does
    | (apply Sparse.wf_set; assumption)
    | exact rfl
    | intro _
    | dsimp only
    | split

theorem execCanTxError_does {A : List Part} {b₀ : State} (c : Fin 4) (begun : Option (Fin 65)) (kind : CanErr) (s : State) 
    (hD : Does A b₀ s) (hA : partsIn [.block 0x0C, .free, .strand, .can, .out] A = true) : DoesO A b₀ (execCanTxError c begun kind s) := by
  unfold execCanTxError
  repeat' first
    | with_reducible assumption
    | with_reducible apply canCollide_does
    | with_reducible apply canCount_does
    | with_reducible apply canRetry_does
    | with_reducible apply onlyIf_does
    | ((with_reducible refine listed_block 12 ?_ ?_ hA); first | omega | (dsimp only [Fld.CNc_STATUS_REC, Fld.CNc_STATUS_TEC, canRec, canTec]; omega) | (dsimp only [Fld.CNc_STATUS_REC, Fld.CNc_STATUS_TEC, canRec, canTec]; split <;> omega); exact rfl)
    | ((with_reducible refine partsIn_trans ?_ hA); exact rfl)
    | ((with_reducible refine listed_code ?_ hA); exact rfl)
    | exact fun (h : Sparse.wf _ _ = true) => h
    | with_reducible apply next_does
    | with_reducible apply id_does
    | with_reducible apply ite_does
    | with_reducible apply iteO_does
    | (apply Sparse.wf_set; assumption)
    | exact rfl
    | intro _
    | dsimp only
    | split

theorem execCanBusOn_does {A : List Part} {b₀ : State} (c : Fin 4) (s : State) 
    (hD : Does A b₀ s) (hA : partsIn [.block 0x0C, .free, .strand, .out] A = true) : DoesO A b₀ (execCanBusOn c s) := by
  unfold execCanBusOn
  repeat' first
    | with_reducible assumption
    | with_reducible apply raiseF_does
    | with_reducible apply say_does
    | with_reducible apply setFld_does
    | ((with_reducible refine listed_block 12 ?_ ?_ hA); first | omega | (dsimp only [Fld.CAN_EVENT_ERR_STATE, Fld.CNc_STATUS_REC, Fld.CNc_STATUS_STATE, Fld.CNc_STATUS_TEC, canState]; omega) | (dsimp only [Fld.CAN_EVENT_ERR_STATE, Fld.CNc_STATUS_REC, Fld.CNc_STATUS_STATE, Fld.CNc_STATUS_TEC, canState]; split <;> omega); exact rfl)
    | ((with_reducible refine partsIn_trans ?_ hA); exact rfl)
    | ((with_reducible refine listed_code ?_ hA); exact rfl)
    | exact fun (h : Sparse.wf _ _ = true) => h
    | with_reducible apply next_does
    | with_reducible apply id_does
    | with_reducible apply ite_does
    | with_reducible apply iteO_does
    | (apply Sparse.wf_set; assumption)
    | exact rfl
    | intro _
    | dsimp only
    | split

theorem execCanTxTimeout_does {A : List Part} {b₀ : State} (c : Fin 4) (b : Fin 64) (tie : Bool) (stamp : DWord) (s : State) 
    (hD : Does A b₀ s) (hA : partsIn [.block 0x0C, .block 0x13, .free, .strand, .can, .out] A = true) : DoesO A b₀ (execCanTxTimeout c b tie stamp s) := by
  unfold execCanTxTimeout
  repeat' first
    | with_reducible assumption
    | with_reducible apply bump_does
    | with_reducible apply canComplete_does
    | with_reducible apply canTxFail_does
    | ((with_reducible refine partsIn_trans ?_ hA); exact rfl)
    | ((with_reducible refine listed_code ?_ hA); exact rfl)
    | exact fun (h : Sparse.wf _ _ = true) => h
    | with_reducible apply next_does
    | with_reducible apply id_does
    | with_reducible apply ite_does
    | with_reducible apply iteO_does
    | (apply Sparse.wf_set; assumption)
    | exact rfl
    | intro _
    | dsimp only
    | split

theorem canResult_does {A : List Part} {b₀ : State} (st : Status) (s : State) 
    (hD : Does A b₀ s) (hA : partsIn [.block 0x0C, .free, .strand, .out] A = true) : Does A b₀ (canResult st s) := by
  unfold canResult
  repeat' first
    | with_reducible assumption
    | with_reducible apply result_does
    | ((with_reducible refine partsIn_trans ?_ hA); exact rfl)
    | ((with_reducible refine listed_code ?_ hA); exact rfl)
    | exact fun (h : Sparse.wf _ _ = true) => h
    | with_reducible apply next_does
    | with_reducible apply id_does
    | with_reducible apply ite_does
    | with_reducible apply iteO_does
    | (apply Sparse.wf_set; assumption)
    | exact rfl
    | intro _
    | dsimp only
    | split

theorem canBufCmd_does {A : List Part} {b₀ : State} (c : Nat) (b : Nat) (f : State → State) (s : State) (h_f : ∀ u, Does A b₀ u → Does A b₀ (f u))
    (hD : Does A b₀ s) (hA : partsIn [.block 0x0C, .block 0x0F, .free, .strand, .out] A = true) : Does A b₀ (canBufCmd c b f s) := by
  unfold canBufCmd
  repeat' first
    | with_reducible assumption
    | with_reducible apply h_f
    | with_reducible apply canResult_does
    | with_reducible apply hostCmd_does
    | ((with_reducible refine partsIn_trans ?_ hA); exact rfl)
    | ((with_reducible refine listed_code ?_ hA); exact rfl)
    | exact fun (h : Sparse.wf _ _ = true) => h
    | with_reducible apply next_does
    | with_reducible apply id_does
    | with_reducible apply ite_does
    | with_reducible apply iteO_does
    | (apply Sparse.wf_set; assumption)
    | exact rfl
    | intro _
    | dsimp only
    | split

theorem execCanRequest_does {A : List Part} {b₀ : State} (c : Fin 4) (b : Fin 64) (s : State) 
    (hD : Does A b₀ s) (hA : partsIn [.block 0x0C, .block 0x0F, .free, .strand, .can, .out] A = true) : DoesO A b₀ (execCanRequest c b s) := by
  unfold execCanRequest
  repeat' first
    | with_reducible assumption
    | with_reducible apply canAsk_does
    | with_reducible apply canBufCmd_does
    | with_reducible apply canResult_does
    | ((with_reducible refine partsIn_trans ?_ hA); exact rfl)
    | ((with_reducible refine listed_code ?_ hA); exact rfl)
    | exact fun (h : Sparse.wf _ _ = true) => h
    | with_reducible apply next_does
    | with_reducible apply id_does
    | with_reducible apply ite_does
    | with_reducible apply iteO_does
    | (apply Sparse.wf_set; assumption)
    | exact rfl
    | intro _
    | dsimp only
    | split

theorem execCanCancel_does {A : List Part} {b₀ : State} (c : Fin 4) (b : Fin 64) (begun : Bool) (s : State) 
    (hD : Does A b₀ s) (hA : partsIn [.block 0x0C, .block 0x0F, .free, .strand, .can, .out] A = true) : DoesO A b₀ (execCanCancel c b begun s) := by
  unfold execCanCancel
  repeat' first
    | with_reducible assumption
    | with_reducible apply canBufCmd_does
    | with_reducible apply canResult_does
    | with_reducible apply onCan_does
    | with_reducible apply raiseF_does
    | ((with_reducible refine partsIn_trans ?_ hA); exact rfl)
    | ((with_reducible refine listed_code ?_ hA); exact rfl)
    | exact fun (h : Sparse.wf _ _ = true) => h
    | with_reducible apply next_does
    | with_reducible apply id_does
    | with_reducible apply ite_does
    | with_reducible apply iteO_does
    | (apply Sparse.wf_set; assumption)
    | exact rfl
    | intro _
    | dsimp only
    | split

theorem execCanRelease_does {A : List Part} {b₀ : State} (c : Fin 4) (b : Fin 64) (tie : Bool) (s : State) 
    (hD : Does A b₀ s) (hA : partsIn [.block 0x0C, .block 0x0F, .free, .strand, .can, .out] A = true) : DoesO A b₀ (execCanRelease c b tie s) := by
  unfold execCanRelease
  repeat' first
    | with_reducible assumption
    | with_reducible apply canBufCmd_does
    | with_reducible apply canResult_does
    | with_reducible apply onCan_does
    | with_reducible apply onlyIf_does
    | ((with_reducible refine partsIn_trans ?_ hA); exact rfl)
    | ((with_reducible refine listed_code ?_ hA); exact rfl)
    | exact fun (h : Sparse.wf _ _ = true) => h
    | with_reducible apply next_does
    | with_reducible apply id_does
    | with_reducible apply ite_does
    | with_reducible apply iteO_does
    | (apply Sparse.wf_set; assumption)
    | exact rfl
    | intro _
    | dsimp only
    | split

theorem execCanClearClash_does {A : List Part} {b₀ : State} (c : Fin 4) (b : Fin 64) (s : State) 
    (hD : Does A b₀ s) (hA : partsIn [.block 0x0C, .block 0x0F, .free, .strand, .can, .out] A = true) : DoesO A b₀ (execCanClearClash c b s) := by
  unfold execCanClearClash
  repeat' first
    | with_reducible assumption
    | with_reducible apply canBufCmd_does
    | with_reducible apply canResult_does
    | with_reducible apply onCan_does
    | ((with_reducible refine partsIn_trans ?_ hA); exact rfl)
    | ((with_reducible refine listed_code ?_ hA); exact rfl)
    | exact fun (h : Sparse.wf _ _ = true) => h
    | with_reducible apply next_does
    | with_reducible apply id_does
    | with_reducible apply ite_does
    | with_reducible apply iteO_does
    | (apply Sparse.wf_set; assumption)
    | exact rfl
    | intro _
    | dsimp only
    | split

theorem execCanRecover_does {A : List Part} {b₀ : State} (c : Fin 4) (s : State) 
    (hD : Does A b₀ s) (hA : partsIn [.block 0x0C, .block 0x0F, .free, .strand, .out] A = true) : DoesO A b₀ (execCanRecover c s) := by
  unfold execCanRecover
  repeat' first
    | with_reducible assumption
    | with_reducible apply canResult_does
    | with_reducible apply hostCmd_does
    | with_reducible apply onlyIf_does
    | with_reducible apply setFld_does
    | ((with_reducible refine listed_block 12 ?_ ?_ hA); first | omega | (dsimp only [Fld.CNc_STATUS_STATE, Reg.CAN_CMD, canState]; omega) | (dsimp only [Fld.CNc_STATUS_STATE, Reg.CAN_CMD, canState]; split <;> omega); exact rfl)
    | ((with_reducible refine listed_block 15 ?_ ?_ hA); first | omega | (dsimp only [Fld.CNc_STATUS_STATE, Reg.CAN_CMD, canState]; omega) | (dsimp only [Fld.CNc_STATUS_STATE, Reg.CAN_CMD, canState]; split <;> omega); exact rfl)
    | ((with_reducible refine partsIn_trans ?_ hA); exact rfl)
    | ((with_reducible refine listed_code ?_ hA); exact rfl)
    | exact fun (h : Sparse.wf _ _ = true) => h
    | with_reducible apply next_does
    | with_reducible apply id_does
    | with_reducible apply ite_does
    | with_reducible apply iteO_does
    | (apply Sparse.wf_set; assumption)
    | exact rfl
    | intro _
    | dsimp only
    | split

theorem execCanChannelIsolated_does {A : List Part} {b₀ : State} (c : Fin 4) (s : State) 
    (hD : Does A b₀ s) (hA : partsIn [.block 0x01, .block 0x02, .block 0x03, .block 0x05, .block 0x08, .block 0x09, .block 0x0A, .block 0x0C, .free, .strand, .backup, .tides, .seqs, .exe, .loop, .dio, .saf, .pair, .can, .sup, .mbx, .out] A = true) : DoesO A b₀ (execCanChannelIsolated c s) := by
  unfold execCanChannelIsolated
  repeat' first
    | with_reducible assumption
    | with_reducible apply isolateBank_does
    | with_reducible apply raiseF_does
    | with_reducible apply say_does
    | with_reducible apply setFld_does
    | ((with_reducible refine listed_block 1 ?_ ?_ hA); first | omega | (dsimp only [Fld.CAN_EVENT_ISOLATED, Fld.CNc_STATUS_STATE, canState]; omega) | (dsimp only [Fld.CAN_EVENT_ISOLATED, Fld.CNc_STATUS_STATE, canState]; split <;> omega); exact rfl)
    | ((with_reducible refine listed_block 2 ?_ ?_ hA); first | omega | (dsimp only [Fld.CAN_EVENT_ISOLATED, Fld.CNc_STATUS_STATE, canState]; omega) | (dsimp only [Fld.CAN_EVENT_ISOLATED, Fld.CNc_STATUS_STATE, canState]; split <;> omega); exact rfl)
    | ((with_reducible refine listed_block 3 ?_ ?_ hA); first | omega | (dsimp only [Fld.CAN_EVENT_ISOLATED, Fld.CNc_STATUS_STATE, canState]; omega) | (dsimp only [Fld.CAN_EVENT_ISOLATED, Fld.CNc_STATUS_STATE, canState]; split <;> omega); exact rfl)
    | ((with_reducible refine listed_block 5 ?_ ?_ hA); first | omega | (dsimp only [Fld.CAN_EVENT_ISOLATED, Fld.CNc_STATUS_STATE, canState]; omega) | (dsimp only [Fld.CAN_EVENT_ISOLATED, Fld.CNc_STATUS_STATE, canState]; split <;> omega); exact rfl)
    | ((with_reducible refine listed_block 8 ?_ ?_ hA); first | omega | (dsimp only [Fld.CAN_EVENT_ISOLATED, Fld.CNc_STATUS_STATE, canState]; omega) | (dsimp only [Fld.CAN_EVENT_ISOLATED, Fld.CNc_STATUS_STATE, canState]; split <;> omega); exact rfl)
    | ((with_reducible refine listed_block 9 ?_ ?_ hA); first | omega | (dsimp only [Fld.CAN_EVENT_ISOLATED, Fld.CNc_STATUS_STATE, canState]; omega) | (dsimp only [Fld.CAN_EVENT_ISOLATED, Fld.CNc_STATUS_STATE, canState]; split <;> omega); exact rfl)
    | ((with_reducible refine listed_block 10 ?_ ?_ hA); first | omega | (dsimp only [Fld.CAN_EVENT_ISOLATED, Fld.CNc_STATUS_STATE, canState]; omega) | (dsimp only [Fld.CAN_EVENT_ISOLATED, Fld.CNc_STATUS_STATE, canState]; split <;> omega); exact rfl)
    | ((with_reducible refine listed_block 12 ?_ ?_ hA); first | omega | (dsimp only [Fld.CAN_EVENT_ISOLATED, Fld.CNc_STATUS_STATE, canState]; omega) | (dsimp only [Fld.CAN_EVENT_ISOLATED, Fld.CNc_STATUS_STATE, canState]; split <;> omega); exact rfl)
    | ((with_reducible refine partsIn_trans ?_ hA); exact rfl)
    | ((with_reducible refine listed_code ?_ hA); exact rfl)
    | exact fun (h : Sparse.wf _ _ = true) => h
    | with_reducible apply next_does
    | with_reducible apply id_does
    | with_reducible apply ite_does
    | with_reducible apply iteO_does
    | (apply Sparse.wf_set; assumption)
    | exact rfl
    | intro _
    | dsimp only
    | split

theorem execCanRecoverCh_does {A : List Part} {b₀ : State} (c : Fin 4) (check : Bool) (s : State) 
    (hD : Does A b₀ s) (hA : partsIn [.block 0x0C, .block 0x0F, .free, .strand, .sup, .out] A = true) : DoesO A b₀ (execCanRecoverCh c check s) := by
  unfold execCanRecoverCh
  repeat' first
    | with_reducible assumption
    | with_reducible apply canResult_does
    | with_reducible apply hostCmd_does
    | with_reducible apply say_does
    | with_reducible apply setFld_does
    | with_reducible apply unisolateBank_does
    | ((with_reducible refine listed_block 12 ?_ ?_ hA); first | omega | (dsimp only [Fld.CNc_STATUS_REC, Fld.CNc_STATUS_STATE, Fld.CNc_STATUS_TEC, Reg.CAN_CMD, Reg.CAN_CTRL, canState]; omega) | (dsimp only [Fld.CNc_STATUS_REC, Fld.CNc_STATUS_STATE, Fld.CNc_STATUS_TEC, Reg.CAN_CMD, Reg.CAN_CTRL, canState]; split <;> omega); exact rfl)
    | ((with_reducible refine listed_block 15 ?_ ?_ hA); first | omega | (dsimp only [Fld.CNc_STATUS_REC, Fld.CNc_STATUS_STATE, Fld.CNc_STATUS_TEC, Reg.CAN_CMD, Reg.CAN_CTRL, canState]; omega) | (dsimp only [Fld.CNc_STATUS_REC, Fld.CNc_STATUS_STATE, Fld.CNc_STATUS_TEC, Reg.CAN_CMD, Reg.CAN_CTRL, canState]; split <;> omega); exact rfl)
    | ((with_reducible refine partsIn_trans ?_ hA); exact rfl)
    | ((with_reducible refine listed_code ?_ hA); exact rfl)
    | exact fun (h : Sparse.wf _ _ = true) => h
    | with_reducible apply next_does
    | with_reducible apply id_does
    | with_reducible apply ite_does
    | with_reducible apply iteO_does
    | (apply Sparse.wf_set; assumption)
    | exact rfl
    | intro _
    | dsimp only
    | split

end Sys2Proof.Machine
end

