-- ==== Sys2Proof/Laws/OnlyAnaOps.lean ====
section
/-! SUPPORT. What each operation of Machine/AnaOps.lean can do: the parts of the state it may change, and that it keeps
canonical form. -/
namespace Sys2Proof.Machine

theorem anFaultSet_does {A : List Part} {b₀ : State} (f : Fin 9) (n : Nat) (s : State) 
    (hD : Does A b₀ s) (hA : partsIn [.block 0x06, .free, .strand, .ana, .out] A = true) : Does A b₀ (anFaultSet f n s) := by
  unfold anFaultSet
  repeat' first
    | with_reducible assumption
    | with_reducible apply onAn_does
    | with_reducible apply raiseF_does
    | with_reducible apply say_does
    | ((with_reducible refine partsIn_trans ?_ hA); exact rfl)
    | ((with_reducible refine listed_code ?_ hA); exact rfl)
    | exact fun (h : Sparse.wf _ _ = true) => h
    | with_reducible apply next_does
    | with_reducible apply id_does
    | with_reducible apply ite_does
    | with_reducible apply iteO_does
    | (apply Sparse.wf_set; assumption)
    | exact rfl
    | intro _
    | dsimp only
    | split

theorem anaLoopLow_does {A : List Part} {b₀ : State} (k : Nat) (s : State) 
    (hD : Does A b₀ s) (hA : partsIn [.block 0x06, .free, .strand, .ana, .out] A = true) : Does A b₀ (anaLoopLow k s) := by
  unfold anaLoopLow
  repeat' first
    | with_reducible assumption
    | with_reducible apply anFaultSet_does
    | with_reducible apply forAll_does
    | with_reducible apply onAn_does
    | with_reducible apply onAnBank_does
    | ((with_reducible refine listed_block 6 ?_ ?_ hA); first | omega | (dsimp only [Fld.ANn_CFG_MODE, anMode]; omega) | (dsimp only [Fld.ANn_CFG_MODE, anMode]; split <;> omega); exact rfl)
    | ((with_reducible refine partsIn_trans ?_ hA); exact rfl)
    | ((with_reducible refine listed_code ?_ hA); exact rfl)
    | exact fun (h : Sparse.wf _ _ = true) => h
    | with_reducible apply next_does
    | with_reducible apply id_does
    | with_reducible apply ite_does
    | with_reducible apply iteO_does
    | (apply Sparse.wf_set; assumption)
    | exact rfl
    | intro _
    | dsimp only
    | split

theorem analogTrigger_does {A : List Part} {b₀ : State} (n : Nat) (s : State) 
    (hD : Does A b₀ s) (hA : partsIn [.block 0x06, .free, .strand, .ana, .out] A = true) : Does A b₀ (analogTrigger n s) := by
  unfold analogTrigger
  repeat' first
    | with_reducible assumption
    | with_reducible apply bump_does
    | with_reducible apply onAn_does
    | with_reducible apply say_does
    | ((with_reducible refine listed_block 6 ?_ ?_ hA); first | omega | (dsimp only [Fld.ANn_CFG_MODE, Fld.ANn_CFG_TRIG, Fld.ANn_COUNTS_TRIG_MERGED, anMode]; omega) | (dsimp only [Fld.ANn_CFG_MODE, Fld.ANn_CFG_TRIG, Fld.ANn_COUNTS_TRIG_MERGED, anMode]; split <;> omega); exact rfl)
    | ((with_reducible refine partsIn_trans ?_ hA); exact rfl)
    | ((with_reducible refine listed_code ?_ hA); exact rfl)
    | exact fun (h : Sparse.wf _ _ = true) => h
    | with_reducible apply next_does
    | with_reducible apply id_does
    | with_reducible apply ite_does
    | with_reducible apply iteO_does
    | (apply Sparse.wf_set; assumption)
    | exact rfl
    | intro _
    | dsimp only
    | split

end Sys2Proof.Machine
end

