-- ==== Sys2Proof/Laws/OnlyDio.lean ====
section
/-! SUPPORT. What each operation of Machine/Dio.lean can do: the parts of the state it may change, and that it keeps
canonical form. -/
namespace Sys2Proof.Machine

theorem dioFault_does {A : List Part} {b₀ : State} (code : Fin 9) (st : Status) (n : Nat) (s : State) 
    (hD : Does A b₀ s) (hA : partsIn [.block 0x05, .free, .strand, .dio, .out] A = true) : Does A b₀ (dioFault code st n s) := by
  unfold dioFault
  repeat' first
    | with_reducible assumption
    | with_reducible apply onDio_does
    | with_reducible apply raiseF_does
    | with_reducible apply say_does
    | ((with_reducible refine partsIn_trans ?_ hA); exact rfl)
    | ((with_reducible refine listed_code ?_ hA); exact rfl)
    | exact fun (h : Sparse.wf _ _ = true) => h
    | with_reducible apply next_does
    | with_reducible apply id_does
    | with_reducible apply ite_does
    | with_reducible apply iteO_does
    | (apply Sparse.wf_set; assumption)
    | exact rfl
    | intro _
    | dsimp only
    | split

theorem dioBackFed_does {A : List Part} {b₀ : State} (n : Nat) (y : Nat) (s : State) 
    (hD : Does A b₀ s) (hA : partsIn [.block 0x05, .free, .strand, .dio, .out] A = true) : Does A b₀ (dioBackFed n y s) := by
  unfold dioBackFed
  repeat' first
    | with_reducible assumption
    | with_reducible apply dioFault_does
    | with_reducible apply onDio_does
    | ((with_reducible refine partsIn_trans ?_ hA); exact rfl)
    | ((with_reducible refine listed_code ?_ hA); exact rfl)
    | exact fun (h : Sparse.wf _ _ = true) => h
    | with_reducible apply next_does
    | with_reducible apply id_does
    | with_reducible apply ite_does
    | with_reducible apply iteO_does
    | (apply Sparse.wf_set; assumption)
    | exact rfl
    | intro _
    | dsimp only
    | split

theorem dioFeedCheck_does {A : List Part} {b₀ : State} (n : Nat) (s : State) 
    (hD : Does A b₀ s) (hA : partsIn [.block 0x05, .free, .strand, .dio, .out] A = true) : Does A b₀ (dioFeedCheck n s) := by
  unfold dioFeedCheck
  repeat' first
    | with_reducible assumption
    | with_reducible apply dioBackFed_does
    | ((with_reducible refine partsIn_trans ?_ hA); exact rfl)
    | ((with_reducible refine listed_code ?_ hA); exact rfl)
    | exact fun (h : Sparse.wf _ _ = true) => h
    | with_reducible apply next_does
    | with_reducible apply id_does
    | with_reducible apply ite_does
    | with_reducible apply iteO_does
    | (apply Sparse.wf_set; assumption)
    | exact rfl
    | intro _
    | dsimp only
    | split

theorem dioPass_does {A : List Part} {b₀ : State} (n : Nat) (s : State) 
    (hD : Does A b₀ s) (hA : partsIn [.block 0x03, .block 0x05, .free, .strand, .exe, .dio, .out] A = true) : Does A b₀ (dioPass n s) := by
  unfold dioPass
  repeat' first
    | with_reducible assumption
    | with_reducible apply dioFeedCheck_does
    | with_reducible apply onDio_does
    | with_reducible apply signalSource_does
    | ((with_reducible refine partsIn_trans ?_ hA); exact rfl)
    | ((with_reducible refine listed_code ?_ hA); exact rfl)
    | exact fun (h : Sparse.wf _ _ = true) => h
    | with_reducible apply next_does
    | with_reducible apply id_does
    | with_reducible apply ite_does
    | with_reducible apply iteO_does
    | (apply Sparse.wf_set; assumption)
    | exact rfl
    | intro _
    | dsimp only
    | split

theorem execDioPinChange_does {A : List Part} {b₀ : State} (n : Fin 32) (level : Bool) (currentMa : BitVec 12) (s : State) 
    (hD : Does A b₀ s) (hA : partsIn [.block 0x03, .block 0x05, .free, .strand, .exe, .dio, .out] A = true) : DoesO A b₀ (execDioPinChange n level currentMa s) := by
  unfold execDioPinChange
  repeat' first
    | with_reducible assumption
    | with_reducible apply dioPass_does
    | with_reducible apply onDio_does
    | ((with_reducible refine listed_block 3 ?_ ?_ hA); first | omega | (dsimp only [Fld.DIOn_CFG_FILT]; omega) | (dsimp only [Fld.DIOn_CFG_FILT]; split <;> omega); exact rfl)
    | ((with_reducible refine listed_block 5 ?_ ?_ hA); first | omega | (dsimp only [Fld.DIOn_CFG_FILT]; omega) | (dsimp only [Fld.DIOn_CFG_FILT]; split <;> omega); exact rfl)
    | ((with_reducible refine partsIn_trans ?_ hA); exact rfl)
    | ((with_reducible refine listed_code ?_ hA); exact rfl)
    | exact fun (h : Sparse.wf _ _ = true) => h
    | with_reducible apply next_does
    | with_reducible apply id_does
    | with_reducible apply ite_does
    | with_reducible apply iteO_does
    | (apply Sparse.wf_set; assumption)
    | exact rfl
    | intro _
    | dsimp only
    | split

theorem execDioFilterExpiry_does {A : List Part} {b₀ : State} (n : Fin 32) (s : State) 
    (hD : Does A b₀ s) (hA : partsIn [.block 0x03, .block 0x05, .free, .strand, .exe, .dio, .out] A = true) : DoesO A b₀ (execDioFilterExpiry n s) := by
  unfold execDioFilterExpiry
  repeat' first
    | with_reducible assumption
    | with_reducible apply dioPass_does
    | ((with_reducible refine partsIn_trans ?_ hA); exact rfl)
    | ((with_reducible refine listed_code ?_ hA); exact rfl)
    | exact fun (h : Sparse.wf _ _ = true) => h
    | with_reducible apply next_does
    | with_reducible apply id_does
    | with_reducible apply ite_does
    | with_reducible apply iteO_does
    | (apply Sparse.wf_set; assumption)
    | exact rfl
    | intro _
    | dsimp only
    | split

theorem dioIsolate_does {A : List Part} {b₀ : State} (k : Nat) (s : State) 
    (hD : Does A b₀ s) (hA : partsIn [.block 0x01, .block 0x02, .block 0x03, .block 0x05, .block 0x08, .block 0x09, .block 0x0A, .block 0x0C, .free, .strand, .backup, .tides, .seqs, .exe, .loop, .dio, .saf, .pair, .can, .sup, .mbx, .out] A = true) : Does A b₀ (dioIsolate k s) := by
  unfold dioIsolate
  repeat' first
    | with_reducible assumption
    | with_reducible apply isolateBank_does
    | with_reducible apply onDioBank_does
    | with_reducible apply raiseF_does
    | with_reducible apply say_does
    | ((with_reducible refine partsIn_trans ?_ hA); exact rfl)
    | ((with_reducible refine listed_code ?_ hA); exact rfl)
    | exact fun (h : Sparse.wf _ _ = true) => h
    | with_reducible apply next_does
    | with_reducible apply id_does
    | with_reducible apply ite_does
    | with_reducible apply iteO_does
    | (apply Sparse.wf_set; assumption)
    | exact rfl
    | intro _
    | dsimp only
    | split

theorem dioCells_does {A : List Part} {b₀ : State} (chs : BitVec 32) (ok : Nat → Bool) (act : Nat → State → State) (s : State) (h_act : ∀ x0 u, Does A b₀ u → Does A b₀ (act x0 u))
    (hD : Does A b₀ s) (hA : partsIn [.block 0x01, .block 0x02, .block 0x03, .block 0x05, .block 0x08, .block 0x09, .block 0x0A, .block 0x0C, .free, .strand, .backup, .tides, .seqs, .exe, .loop, .dio, .saf, .pair, .can, .sup, .mbx, .out] A = true) : Does A b₀ (dioCells chs ok act s) := by
  unfold dioCells
  repeat' first
    | with_reducible assumption
    | with_reducible apply h_act
    | with_reducible apply dioIsolate_does
    | with_reducible apply forAll_does
    | ((with_reducible refine partsIn_trans ?_ hA); exact rfl)
    | ((with_reducible refine listed_code ?_ hA); exact rfl)
    | exact fun (h : Sparse.wf _ _ = true) => h
    | with_reducible apply next_does
    | with_reducible apply id_does
    | with_reducible apply ite_does
    | with_reducible apply iteO_does
    | (apply Sparse.wf_set; assumption)
    | exact rfl
    | intro _
    | dsimp only
    | split

theorem dioTie_does {A : List Part} {b₀ : State} (tie : Bool) (f : State → State) (s : State) (h_f : ∀ u, Does A b₀ u → Does A b₀ (f u))
    (hD : Does A b₀ s) (hA : partsIn [.block 0x05] A = true) : Does A b₀ (dioTie tie f s) := by
  unfold dioTie
  repeat' first
    | with_reducible assumption
    | with_reducible apply h_f
    | with_reducible apply bump_does
    | ((with_reducible refine partsIn_trans ?_ hA); exact rfl)
    | ((with_reducible refine listed_code ?_ hA); exact rfl)
    | exact fun (h : Sparse.wf _ _ = true) => h
    | with_reducible apply next_does
    | with_reducible apply id_does
    | with_reducible apply ite_does
    | with_reducible apply iteO_does
    | (apply Sparse.wf_set; assumption)
    | exact rfl
    | intro _
    | dsimp only
    | split

theorem dioTrip_does {A : List Part} {b₀ : State} (code : Fin 9) (st : Status) (n : Nat) (s : State) 
    (hD : Does A b₀ s) (hA : partsIn [.block 0x05, .free, .strand, .dio, .out] A = true) : Does A b₀ (dioTrip code st n s) := by
  unfold dioTrip
  repeat' first
    | with_reducible assumption
    | with_reducible apply dioFault_does
    | with_reducible apply onDio_does
    | ((with_reducible refine partsIn_trans ?_ hA); exact rfl)
    | ((with_reducible refine listed_code ?_ hA); exact rfl)
    | exact fun (h : Sparse.wf _ _ = true) => h
    | with_reducible apply next_does
    | with_reducible apply id_does
    | with_reducible apply ite_does
    | with_reducible apply iteO_does
    | (apply Sparse.wf_set; assumption)
    | exact rfl
    | intro _
    | dsimp only
    | split

theorem execDioShort_does {A : List Part} {b₀ : State} (chs : BitVec 32) (tie : Bool) (s : State) 
    (hD : Does A b₀ s) (hA : partsIn [.block 0x01, .block 0x02, .block 0x03, .block 0x05, .block 0x08, .block 0x09, .block 0x0A, .block 0x0C, .free, .strand, .backup, .tides, .seqs, .exe, .loop, .dio, .saf, .pair, .can, .sup, .mbx, .out] A = true) : DoesO A b₀ (execDioShort chs tie s) := by
  unfold execDioShort
  repeat' first
    | with_reducible assumption
    | with_reducible apply dioCells_does
    | with_reducible apply dioTie_does
    | with_reducible apply dioTrip_does
    | ((with_reducible refine partsIn_trans ?_ hA); exact rfl)
    | ((with_reducible refine listed_code ?_ hA); exact rfl)
    | exact fun (h : Sparse.wf _ _ = true) => h
    | with_reducible apply next_does
    | with_reducible apply id_does
    | with_reducible apply ite_does
    | with_reducible apply iteO_does
    | (apply Sparse.wf_set; assumption)
    | exact rfl
    | intro _
    | dsimp only
    | split

theorem execDioOverload_does {A : List Part} {b₀ : State} (chs : BitVec 32) (tie : Bool) (s : State) 
    (hD : Does A b₀ s) (hA : partsIn [.block 0x01, .block 0x02, .block 0x03, .block 0x05, .block 0x08, .block 0x09, .block 0x0A, .block 0x0C, .free, .strand, .backup, .tides, .seqs, .exe, .loop, .dio, .saf, .pair, .can, .sup, .mbx, .out] A = true) : DoesO A b₀ (execDioOverload chs tie s) := by
  unfold execDioOverload
  repeat' first
    | with_reducible assumption
    | with_reducible apply dioCells_does
    | with_reducible apply dioTie_does
    | with_reducible apply dioTrip_does
    | ((with_reducible refine partsIn_trans ?_ hA); exact rfl)
    | ((with_reducible refine listed_code ?_ hA); exact rfl)
    | exact fun (h : Sparse.wf _ _ = true) => h
    | with_reducible apply next_does
    | with_reducible apply id_does
    | with_reducible apply ite_does
    | with_reducible apply iteO_does
    | (apply Sparse.wf_set; assumption)
    | exact rfl
    | intro _
    | dsimp only
    | split

theorem execDioOvertemp_does {A : List Part} {b₀ : State} (chs : BitVec 32) (s : State) 
    (hD : Does A b₀ s) (hA : partsIn [.block 0x01, .block 0x02, .block 0x03, .block 0x05, .block 0x08, .block 0x09, .block 0x0A, .block 0x0C, .free, .strand, .backup, .tides, .seqs, .exe, .loop, .dio, .saf, .pair, .can, .sup, .mbx, .out] A = true) : DoesO A b₀ (execDioOvertemp chs s) := by
  unfold execDioOvertemp
  repeat' first
    | with_reducible assumption
    | with_reducible apply dioCells_does
    | with_reducible apply dioTrip_does
    | ((with_reducible refine partsIn_trans ?_ hA); exact rfl)
    | ((with_reducible refine listed_code ?_ hA); exact rfl)
    | exact fun (h : Sparse.wf _ _ = true) => h
    | with_reducible apply next_does
    | with_reducible apply id_does
    | with_reducible apply ite_does
    | with_reducible apply iteO_does
    | (apply Sparse.wf_set; assumption)
    | exact rfl
    | intro _
    | dsimp only
    | split

theorem execDioRearm_does {A : List Part} {b₀ : State} (mask : Word) (s : State) 
    (hD : Does A b₀ s) (hA : partsIn [.block 0x0F, .free, .strand, .dio, .out] A = true) : DoesO A b₀ (execDioRearm mask s) := by
  unfold execDioRearm
  repeat' first
    | with_reducible assumption
    | with_reducible apply dioRearm_does
    | with_reducible apply forAll_does
    | with_reducible apply hostCmd_does
    | ((with_reducible refine partsIn_trans ?_ hA); exact rfl)
    | ((with_reducible refine listed_code ?_ hA); exact rfl)
    | exact fun (h : Sparse.wf _ _ = true) => h
    | with_reducible apply next_does
    | with_reducible apply id_does
    | with_reducible apply ite_does
    | with_reducible apply iteO_does
    | (apply Sparse.wf_set; assumption)
    | exact rfl
    | intro _
    | dsimp only
    | split

theorem dioSwitchOff_does {A : List Part} {b₀ : State} (k : Nat) (s : State) 
    (hD : Does A b₀ s) (hA : partsIn [.block 0x05, .free, .strand, .dio, .out] A = true) : Does A b₀ (dioSwitchOff k s) := by
  unfold dioSwitchOff
  repeat' first
    | with_reducible assumption
    | with_reducible apply bump_does
    | with_reducible apply onDioBank_does
    | with_reducible apply raiseF_does
    | with_reducible apply say_does
    | ((with_reducible refine listed_block 5 ?_ ?_ hA); first | omega | (dsimp only [Fld.DIO_BANKk_COUNTS_OFF, Fld.DIO_EVENT_BANK_OFF]; omega) | (dsimp only [Fld.DIO_BANKk_COUNTS_OFF, Fld.DIO_EVENT_BANK_OFF]; split <;> omega); exact rfl)
    | ((with_reducible refine partsIn_trans ?_ hA); exact rfl)
    | ((with_reducible refine listed_code ?_ hA); exact rfl)
    | exact fun (h : Sparse.wf _ _ = true) => h
    | with_reducible apply next_does
    | with_reducible apply id_does
    | with_reducible apply ite_does
    | with_reducible apply iteO_does
    | (apply Sparse.wf_set; assumption)
    | exact rfl
    | intro _
    | dsimp only
    | split

theorem dioStuckOn_does {A : List Part} {b₀ : State} (n : Nat) (s : State) 
    (hD : Does A b₀ s) (hA : partsIn [.block 0x05, .free, .strand, .dio, .out] A = true) : Does A b₀ (dioStuckOn n s) := by
  unfold dioStuckOn
  repeat' first
    | with_reducible assumption
    | with_reducible apply dioFault_does
    | with_reducible apply dioSwitchOff_does
    | with_reducible apply onlyIf_does
    | ((with_reducible refine listed_block 5 ?_ ?_ hA); first | omega | (dsimp only [Fld.DIO_BANKk_CFG_STUCK_ACTION]; omega) | (dsimp only [Fld.DIO_BANKk_CFG_STUCK_ACTION]; split <;> omega); exact rfl)
    | ((with_reducible refine partsIn_trans ?_ hA); exact rfl)
    | ((with_reducible refine listed_code ?_ hA); exact rfl)
    | exact fun (h : Sparse.wf _ _ = true) => h
    | with_reducible apply next_does
    | with_reducible apply id_does
    | with_reducible apply ite_does
    | with_reducible apply iteO_does
    | (apply Sparse.wf_set; assumption)
    | exact rfl
    | intro _
    | dsimp only
    | split

theorem execDioStuckOn_does {A : List Part} {b₀ : State} (chs : BitVec 32) (tie : Bool) (s : State) 
    (hD : Does A b₀ s) (hA : partsIn [.block 0x01, .block 0x02, .block 0x03, .block 0x05, .block 0x08, .block 0x09, .block 0x0A, .block 0x0C, .free, .strand, .backup, .tides, .seqs, .exe, .loop, .dio, .saf, .pair, .can, .sup, .mbx, .out] A = true) : DoesO A b₀ (execDioStuckOn chs tie s) := by
  unfold execDioStuckOn
  repeat' first
    | with_reducible assumption
    | with_reducible apply dioCells_does
    | with_reducible apply dioStuckOn_does
    | with_reducible apply dioTie_does
    | ((with_reducible refine partsIn_trans ?_ hA); exact rfl)
    | ((with_reducible refine listed_code ?_ hA); exact rfl)
    | exact fun (h : Sparse.wf _ _ = true) => h
    | with_reducible apply next_does
    | with_reducible apply id_does
    | with_reducible apply ite_does
    | with_reducible apply iteO_does
    | (apply Sparse.wf_set; assumption)
    | exact rfl
    | intro _
    | dsimp only
    | split

theorem execDioStuckExternal_does {A : List Part} {b₀ : State} (n : Fin 32) (s : State) 
    (hD : Does A b₀ s) (hA : partsIn [.block 0x05, .free, .strand, .dio, .out] A = true) : DoesO A b₀ (execDioStuckExternal n s) := by
  unfold execDioStuckExternal
  repeat' first
    | with_reducible assumption
    | with_reducible apply dioFault_does
    | ((with_reducible refine partsIn_trans ?_ hA); exact rfl)
    | ((with_reducible refine listed_code ?_ hA); exact rfl)
    | exact fun (h : Sparse.wf _ _ = true) => h
    | with_reducible apply next_does
    | with_reducible apply id_does
    | with_reducible apply ite_does
    | with_reducible apply iteO_does
    | (apply Sparse.wf_set; assumption)
    | exact rfl
    | intro _
    | dsimp only
    | split

theorem execDioStuckOff_does {A : List Part} {b₀ : State} (chs : BitVec 32) (tie : Bool) (s : State) 
    (hD : Does A b₀ s) (hA : partsIn [.block 0x01, .block 0x02, .block 0x03, .block 0x05, .block 0x08, .block 0x09, .block 0x0A, .block 0x0C, .free, .strand, .backup, .tides, .seqs, .exe, .loop, .dio, .saf, .pair, .can, .sup, .mbx, .out] A = true) : DoesO A b₀ (execDioStuckOff chs tie s) := by
  unfold execDioStuckOff
  repeat' first
    | with_reducible assumption
    | with_reducible apply dioCells_does
    | with_reducible apply dioFault_does
    | with_reducible apply dioTie_does
    | ((with_reducible refine partsIn_trans ?_ hA); exact rfl)
    | ((with_reducible refine listed_code ?_ hA); exact rfl)
    | exact fun (h : Sparse.wf _ _ = true) => h
    | with_reducible apply next_does
    | with_reducible apply id_does
    | with_reducible apply ite_does
    | with_reducible apply iteO_does
    | (apply Sparse.wf_set; assumption)
    | exact rfl
    | intro _
    | dsimp only
    | split

theorem execDioOpenLoad_does {A : List Part} {b₀ : State} (n : Fin 32) (s : State) 
    (hD : Does A b₀ s) (hA : partsIn [.block 0x05, .free, .strand, .dio, .out] A = true) : DoesO A b₀ (execDioOpenLoad n s) := by
  unfold execDioOpenLoad
  repeat' first
    | with_reducible assumption
    | with_reducible apply onDio_does
    | with_reducible apply raiseF_does
    | with_reducible apply say_does
    | ((with_reducible refine listed_block 5 ?_ ?_ hA); first | omega | (dsimp only [Fld.DIO_EVENT_OPEN_LOAD, Fld.DIOn_CFG_OPEN_EN]; omega) | (dsimp only [Fld.DIO_EVENT_OPEN_LOAD, Fld.DIOn_CFG_OPEN_EN]; split <;> omega); exact rfl)
    | ((with_reducible refine partsIn_trans ?_ hA); exact rfl)
    | ((with_reducible refine listed_code ?_ hA); exact rfl)
    | exact fun (h : Sparse.wf _ _ = true) => h
    | with_reducible apply next_does
    | with_reducible apply id_does
    | with_reducible apply ite_does
    | with_reducible apply iteO_does
    | (apply Sparse.wf_set; assumption)
    | exact rfl
    | intro _
    | dsimp only
    | split

theorem execDioFaultClear_does {A : List Part} {b₀ : State} (n : Fin 32) (s : State) 
    (hD : Does A b₀ s) (hA : partsIn [.strand, .dio, .out] A = true) : DoesO A b₀ (execDioFaultClear n s) := by
  unfold execDioFaultClear
  repeat' first
    | with_reducible assumption
    | with_reducible apply onDio_does
    | with_reducible apply sayD_does
    | ((with_reducible refine partsIn_trans ?_ hA); exact rfl)
    | ((with_reducible refine listed_code ?_ hA); exact rfl)
    | exact fun (h : Sparse.wf _ _ = true) => h
    | with_reducible apply next_does
    | with_reducible apply id_does
    | with_reducible apply ite_does
    | with_reducible apply iteO_does
    | (apply Sparse.wf_set; assumption)
    | exact rfl
    | intro _
    | dsimp only
    | split

theorem dioVolt_does {A : List Part} {b₀ : State} (k : Nat) (mv : BitVec 16) (s : State) 
    (hD : Does A b₀ s) (hA : partsIn [.block 0x05] A = true) : Does A b₀ (dioVolt k mv s) := by
  unfold dioVolt
  repeat' first
    | with_reducible assumption
    | with_reducible apply setFld_does
    | ((with_reducible refine listed_block 5 ?_ ?_ hA); first | omega | (dsimp only [Fld.DIO_BANKk_VOLT_MV]; omega) | (dsimp only [Fld.DIO_BANKk_VOLT_MV]; split <;> omega); exact rfl)
    | ((with_reducible refine partsIn_trans ?_ hA); exact rfl)
    | ((with_reducible refine listed_code ?_ hA); exact rfl)
    | exact fun (h : Sparse.wf _ _ = true) => h
    | with_reducible apply next_does
    | with_reducible apply id_does
    | with_reducible apply ite_does
    | with_reducible apply iteO_does
    | (apply Sparse.wf_set; assumption)
    | exact rfl
    | intro _
    | dsimp only
    | split

theorem execDioBankWarn_does {A : List Part} {b₀ : State} (k : Fin 4) (mv : BitVec 16) (s : State) 
    (hD : Does A b₀ s) (hA : partsIn [.block 0x05, .free, .strand, .dio, .out] A = true) : DoesO A b₀ (execDioBankWarn k mv s) := by
  unfold execDioBankWarn
  repeat' first
    | with_reducible assumption
    | with_reducible apply bump_does
    | with_reducible apply dioVolt_does
    | with_reducible apply onDioBank_does
    | with_reducible apply raiseF_does
    | with_reducible apply say_does
    | ((with_reducible refine listed_block 5 ?_ ?_ hA); first | omega | (dsimp only [Fld.DIO_BANKk_COUNTS_WARN, Fld.DIO_EVENT_BANK_WARN]; omega) | (dsimp only [Fld.DIO_BANKk_COUNTS_WARN, Fld.DIO_EVENT_BANK_WARN]; split <;> omega); exact rfl)
    | ((with_reducible refine partsIn_trans ?_ hA); exact rfl)
    | ((with_reducible refine listed_code ?_ hA); exact rfl)
    | exact fun (h : Sparse.wf _ _ = true) => h
    | with_reducible apply next_does
    | with_reducible apply id_does
    | with_reducible apply ite_does
    | with_reducible apply iteO_does
    | (apply Sparse.wf_set; assumption)
    | exact rfl
    | intro _
    | dsimp only
    | split

theorem execDioBankWarnClear_does {A : List Part} {b₀ : State} (k : Fin 4) (mv : BitVec 16) (s : State) 
    (hD : Does A b₀ s) (hA : partsIn [.block 0x05, .dio] A = true) : DoesO A b₀ (execDioBankWarnClear k mv s) := by
  unfold execDioBankWarnClear
  repeat' first
    | with_reducible assumption
    | with_reducible apply dioVolt_does
    | with_reducible apply onDioBank_does
    | ((with_reducible refine partsIn_trans ?_ hA); exact rfl)
    | ((with_reducible refine listed_code ?_ hA); exact rfl)
    | exact fun (h : Sparse.wf _ _ = true) => h
    | with_reducible apply next_does
    | with_reducible apply id_does
    | with_reducible apply ite_does
    | with_reducible apply iteO_does
    | (apply Sparse.wf_set; assumption)
    | exact rfl
    | intro _
    | dsimp only
    | split

theorem execDioBankLow_does {A : List Part} {b₀ : State} (k : Fin 4) (mv : BitVec 16) (s : State) 
    (hD : Does A b₀ s) (hA : partsIn [.block 0x05, .block 0x06, .free, .strand, .dio, .ana, .out] A = true) : DoesO A b₀ (execDioBankLow k mv s) := by
  unfold execDioBankLow
  repeat' first
    | with_reducible assumption
    | with_reducible apply anaLoopLow_does
    | with_reducible apply dioVolt_does
    | with_reducible apply onDioBank_does
    | with_reducible apply say_does
    | ((with_reducible refine partsIn_trans ?_ hA); exact rfl)
    | ((with_reducible refine listed_code ?_ hA); exact rfl)
    | exact fun (h : Sparse.wf _ _ = true) => h
    | with_reducible apply next_does
    | with_reducible apply id_does
    | with_reducible apply ite_does
    | with_reducible apply iteO_does
    | (apply Sparse.wf_set; assumption)
    | exact rfl
    | intro _
    | dsimp only
    | split

theorem execDioBankLowClear_does {A : List Part} {b₀ : State} (k : Fin 4) (mv : BitVec 16) (s : State) 
    (hD : Does A b₀ s) (hA : partsIn [.block 0x05, .dio, .ana] A = true) : DoesO A b₀ (execDioBankLowClear k mv s) := by
  unfold execDioBankLowClear
  repeat' first
    | with_reducible assumption
    | with_reducible apply dioVolt_does
    | with_reducible apply onAnBank_does
    | with_reducible apply onDioBank_does
    | ((with_reducible refine partsIn_trans ?_ hA); exact rfl)
    | ((with_reducible refine listed_code ?_ hA); exact rfl)
    | exact fun (h : Sparse.wf _ _ = true) => h
    | with_reducible apply next_does
    | with_reducible apply id_does
    | with_reducible apply ite_does
    | with_reducible apply iteO_does
    | (apply Sparse.wf_set; assumption)
    | exact rfl
    | intro _
    | dsimp only
    | split

theorem execDioBankLatchoff_does {A : List Part} {b₀ : State} (k : Fin 4) (tie : Bool) (s : State) 
    (hD : Does A b₀ s) (hA : partsIn [.block 0x05, .free, .strand, .dio, .out] A = true) : DoesO A b₀ (execDioBankLatchoff k tie s) := by
  unfold execDioBankLatchoff
  repeat' first
    | with_reducible assumption
    | with_reducible apply bump_does
    | with_reducible apply dioTie_does
    | with_reducible apply onDioBank_does
    | with_reducible apply raiseF_does
    | with_reducible apply say_does
    | ((with_reducible refine listed_block 5 ?_ ?_ hA); first | omega | (dsimp only [Fld.DIO_BANKk_COUNTS_OFF, Fld.DIO_EVENT_BANK_OFF]; omega) | (dsimp only [Fld.DIO_BANKk_COUNTS_OFF, Fld.DIO_EVENT_BANK_OFF]; split <;> omega); exact rfl)
    | ((with_reducible refine partsIn_trans ?_ hA); exact rfl)
    | ((with_reducible refine listed_code ?_ hA); exact rfl)
    | exact fun (h : Sparse.wf _ _ = true) => h
    | with_reducible apply next_does
    | with_reducible apply id_does
    | with_reducible apply ite_does
    | with_reducible apply iteO_does
    | (apply Sparse.wf_set; assumption)
    | exact rfl
    | intro _
    | dsimp only
    | split

theorem execDioBankOvercurrent_does {A : List Part} {b₀ : State} (k : Fin 4) (s : State) 
    (hD : Does A b₀ s) (hA : partsIn [.block 0x05, .free, .strand, .dio, .out] A = true) : DoesO A b₀ (execDioBankOvercurrent k s) := by
  unfold execDioBankOvercurrent
  repeat' first
    | with_reducible assumption
    | with_reducible apply dioSwitchOff_does
    | ((with_reducible refine partsIn_trans ?_ hA); exact rfl)
    | ((with_reducible refine listed_code ?_ hA); exact rfl)
    | exact fun (h : Sparse.wf _ _ = true) => h
    | with_reducible apply next_does
    | with_reducible apply id_does
    | with_reducible apply ite_does
    | with_reducible apply iteO_does
    | (apply Sparse.wf_set; assumption)
    | exact rfl
    | intro _
    | dsimp only
    | split

theorem execDioBankReenable_does {A : List Part} {b₀ : State} (k : Fin 4) (s : State) 
    (hD : Does A b₀ s) (hA : partsIn [.block 0x05, .block 0x0F, .free, .strand, .dio, .out] A = true) : DoesO A b₀ (execDioBankReenable k s) := by
  unfold execDioBankReenable
  repeat' first
    | with_reducible assumption
    | with_reducible apply dioReenCmd_does
    | with_reducible apply hostCmd_does
    | with_reducible apply setFld_does
    | ((with_reducible refine partsIn_trans ?_ hA); exact rfl)
    | ((with_reducible refine listed_code ?_ hA); exact rfl)
    | exact fun (h : Sparse.wf _ _ = true) => h
    | with_reducible apply next_does
    | with_reducible apply id_does
    | with_reducible apply ite_does
    | with_reducible apply iteO_does
    | (apply Sparse.wf_set; assumption)
    | exact rfl
    | intro _
    | dsimp only
    | split

theorem execDioBankRecover_does {A : List Part} {b₀ : State} (k : Fin 4) (pass : Bool) (s : State) 
    (hD : Does A b₀ s) (hA : partsIn [.block 0x05, .block 0x0F, .free, .strand, .dio, .sup, .out] A = true) : DoesO A b₀ (execDioBankRecover k pass s) := by
  unfold execDioBankRecover
  repeat' first
    | with_reducible assumption
    | with_reducible apply hostCmd_does
    | with_reducible apply onDioBank_does
    | with_reducible apply setFld_does
    | with_reducible apply unisolateBank_does
    | with_reducible apply withFree_does
    | ((with_reducible refine listed_block 5 ?_ ?_ hA); first | omega | (dsimp only [Fld.DIO_BANK_RESULT_STATUS, Fld.DIO_BANKk_CFG_EN, Reg.DIO_BANK_CMD]; omega) | (dsimp only [Fld.DIO_BANK_RESULT_STATUS, Fld.DIO_BANKk_CFG_EN, Reg.DIO_BANK_CMD]; split <;> omega); exact rfl)
    | ((with_reducible refine listed_block 15 ?_ ?_ hA); first | omega | (dsimp only [Fld.DIO_BANK_RESULT_STATUS, Fld.DIO_BANKk_CFG_EN, Reg.DIO_BANK_CMD]; omega) | (dsimp only [Fld.DIO_BANK_RESULT_STATUS, Fld.DIO_BANKk_CFG_EN, Reg.DIO_BANK_CMD]; split <;> omega); exact rfl)
    | ((with_reducible refine partsIn_trans ?_ hA); exact rfl)
    | ((with_reducible refine listed_code ?_ hA); exact rfl)
    | exact fun (h : Sparse.wf _ _ = true) => h
    | with_reducible apply next_does
    | with_reducible apply id_does
    | with_reducible apply ite_does
    | with_reducible apply iteO_does
    | (apply Sparse.wf_set; assumption)
    | exact rfl
    | intro _
    | dsimp only
    | split

theorem execDioBankEnable_does {A : List Part} {b₀ : State} (k : Fin 4) (en : Bool) (s : State) 
    (hD : Does A b₀ s) (hA : partsIn [.block 0x05, .block 0x0F, .free, .strand, .dio, .out] A = true) : DoesO A b₀ (execDioBankEnable k en s) := by
  unfold execDioBankEnable
  repeat' first
    | with_reducible assumption
    | with_reducible apply hostCmd_does
    | with_reducible apply onDioBank_does
    | with_reducible apply raiseF_does
    | with_reducible apply say_does
    | with_reducible apply setFlag_does
    | ((with_reducible refine listed_block 5 ?_ ?_ hA); first | omega | (dsimp only [Fld.DIO_BANKk_CFG_EN, Fld.DIO_EVENT_DIR_CONFLICT, Reg.DIO_BANKk_CFG]; omega) | (dsimp only [Fld.DIO_BANKk_CFG_EN, Fld.DIO_EVENT_DIR_CONFLICT, Reg.DIO_BANKk_CFG]; split <;> omega); exact rfl)
    | ((with_reducible refine listed_block 15 ?_ ?_ hA); first | omega | (dsimp only [Fld.DIO_BANKk_CFG_EN, Fld.DIO_EVENT_DIR_CONFLICT, Reg.DIO_BANKk_CFG]; omega) | (dsimp only [Fld.DIO_BANKk_CFG_EN, Fld.DIO_EVENT_DIR_CONFLICT, Reg.DIO_BANKk_CFG]; split <;> omega); exact rfl)
    | ((with_reducible refine partsIn_trans ?_ hA); exact rfl)
    | ((with_reducible refine listed_code ?_ hA); exact rfl)
    | exact fun (h : Sparse.wf _ _ = true) => h
    | with_reducible apply next_does
    | with_reducible apply id_does
    | with_reducible apply ite_does
    | with_reducible apply iteO_does
    | (apply Sparse.wf_set; assumption)
    | exact rfl
    | intro _
    | dsimp only
    | split

theorem execDioBankIsolated_does {A : List Part} {b₀ : State} (k : Fin 4) (s : State) 
    (hD : Does A b₀ s) (hA : partsIn [.block 0x01, .block 0x02, .block 0x03, .block 0x05, .block 0x08, .block 0x09, .block 0x0A, .block 0x0C, .free, .strand, .backup, .tides, .seqs, .exe, .loop, .dio, .saf, .pair, .can, .sup, .mbx, .out] A = true) : DoesO A b₀ (execDioBankIsolated k s) := by
  unfold execDioBankIsolated
  repeat' first
    | with_reducible assumption
    | with_reducible apply dioIsolate_does
    | ((with_reducible refine partsIn_trans ?_ hA); exact rfl)
    | ((with_reducible refine listed_code ?_ hA); exact rfl)
    | exact fun (h : Sparse.wf _ _ = true) => h
    | with_reducible apply next_does
    | with_reducible apply id_does
    | with_reducible apply ite_does
    | with_reducible apply iteO_does
    | (apply Sparse.wf_set; assumption)
    | exact rfl
    | intro _
    | dsimp only
    | split

theorem execDioKeepaliveExpiry_does {A : List Part} {b₀ : State} (k : Fin 4) (s : State) 
    (hD : Does A b₀ s) (hA : partsIn [.dio] A = true) : DoesO A b₀ (execDioKeepaliveExpiry k s) := by
  unfold execDioKeepaliveExpiry
  repeat' first
    | with_reducible assumption
    | with_reducible apply forAll_does
    | with_reducible apply onDio_does
    | with_reducible apply onDioBank_does
    | ((with_reducible refine partsIn_trans ?_ hA); exact rfl)
    | ((with_reducible refine listed_code ?_ hA); exact rfl)
    | exact fun (h : Sparse.wf _ _ = true) => h
    | with_reducible apply next_does
    | with_reducible apply id_does
    | with_reducible apply ite_does
    | with_reducible apply iteO_does
    | (apply Sparse.wf_set; assumption)
    | exact rfl
    | intro _
    | dsimp only
    | split

theorem execDioStageSilent_does {A : List Part} {b₀ : State} (k : Fin 4) (s : State) 
    (hD : Does A b₀ s) (hA : partsIn [.block 0x05, .free, .strand, .dio, .out] A = true) : DoesO A b₀ (execDioStageSilent k s) := by
  unfold execDioStageSilent
  repeat' first
    | with_reducible assumption
    | with_reducible apply onDioBank_does
    | with_reducible apply raiseF_does
    | with_reducible apply say_does
    | ((with_reducible refine partsIn_trans ?_ hA); exact rfl)
    | ((with_reducible refine listed_code ?_ hA); exact rfl)
    | exact fun (h : Sparse.wf _ _ = true) => h
    | with_reducible apply next_does
    | with_reducible apply id_does
    | with_reducible apply ite_does
    | with_reducible apply iteO_does
    | (apply Sparse.wf_set; assumption)
    | exact rfl
    | intro _
    | dsimp only
    | split

end Sys2Proof.Machine
end

