-- ==== Sys2Proof/Laws/OnlyMbxOps.lean ====
section
/-! SUPPORT. What each operation of Machine/MbxOps.lean can do: the parts of the state it may change, and that it keeps
canonical form. -/
namespace Sys2Proof.Machine

theorem onMbx_does {A : List Part} {b₀ : State} (m : Nat) (f : Mailbox → Mailbox) (s : State) 
    (hD : Does A b₀ s) (hA : partsIn [.mbx] A = true) : Does A b₀ (onMbx m f s) := by
  unfold onMbx
  repeat' first
    | with_reducible assumption
    | ((with_reducible refine partsIn_trans ?_ hA); exact rfl)
    | ((with_reducible refine listed_code ?_ hA); exact rfl)
    | exact fun (h : Sparse.wf _ _ = true) => h
    | with_reducible apply next_does
    | with_reducible apply id_does
    | with_reducible apply ite_does
    | with_reducible apply iteO_does
    | (apply Sparse.wf_set; assumption)
    | exact rfl
    | intro _
    | dsimp only
    | split
    | with_reducible apply upd_mailboxes

theorem mbxNote_does {A : List Part} {b₀ : State} (m : Nat) (e : Bool) (st : Status) (s : State) 
    (hD : Does A b₀ s) (hA : partsIn [.free, .strand, .mbx, .out] A = true) : Does A b₀ (mbxNote m e st s) := by
  unfold mbxNote
  repeat' first
    | with_reducible assumption
    | with_reducible apply onMbx_does
    | with_reducible apply onlyIf_does
    | with_reducible apply say_does
    | ((with_reducible refine partsIn_trans ?_ hA); exact rfl)
    | ((with_reducible refine listed_code ?_ hA); exact rfl)
    | exact fun (h : Sparse.wf _ _ = true) => h
    | with_reducible apply next_does
    | with_reducible apply id_does
    | with_reducible apply ite_does
    | with_reducible apply iteO_does
    | (apply Sparse.wf_set; assumption)
    | exact rfl
    | intro _
    | dsimp only
    | split

theorem mbxEvent_does {A : List Part} {b₀ : State} (f : RegField) (m : Nat) (receiver : Nat) (s : State) (hp_f : (Part.block (f.addr / 65536)).listed A = true)
    (hD : Does A b₀ s) (hA : partsIn [.out] A = true) : Does A b₀ (mbxEvent f m receiver s) := by
  unfold mbxEvent
  repeat' first
    | with_reducible assumption
    | with_reducible exact hp_f
    | with_reducible apply onlyIf_does
    | with_reducible apply raiseBit_does
    | ((with_reducible refine partsIn_trans ?_ hA); exact rfl)
    | ((with_reducible refine listed_code ?_ hA); exact rfl)
    | exact fun (h : Sparse.wf _ _ = true) => h
    | with_reducible apply next_does
    | with_reducible apply id_does
    | with_reducible apply ite_does
    | with_reducible apply iteO_does
    | (apply Sparse.wf_set; assumption)
    | exact rfl
    | intro _
    | dsimp only
    | split

theorem mbxOp_does {A : List Part} {b₀ : State} (m : Nat) (master : Nat) (f : Bool → State → Status × State) (s : State) (h_f : ∀ x0 u, Does A b₀ u → Does A b₀ (f x0 u).2)
    (hD : Does A b₀ s) (hA : partsIn [.free, .strand, .mbx, .out] A = true) : Does A b₀ (mbxOp m master f s).2 := by
  unfold mbxOp
  repeat' first
    | with_reducible assumption
    | with_reducible apply h_f
    | with_reducible apply mbxNote_does
    | with_reducible apply say_does
    | ((with_reducible refine partsIn_trans ?_ hA); exact rfl)
    | ((with_reducible refine listed_code ?_ hA); exact rfl)
    | exact fun (h : Sparse.wf _ _ = true) => h
    | with_reducible apply next_does
    | with_reducible apply id_does
    | with_reducible apply ite_does
    | with_reducible apply iteO_does
    | (apply Sparse.wf_set; assumption)
    | exact rfl
    | intro _
    | dsimp only
    | split

theorem mbxSend_does {A : List Part} {b₀ : State} (m : Nat) (master : Nat) (w : Word) (s : State) 
    (hD : Does A b₀ s) (hA : partsIn [.block 0x10, .free, .strand, .mbx, .out] A = true) : Does A b₀ (mbxSend m master w s).2 := by
  unfold mbxSend
  repeat' first
    | with_reducible assumption
    | with_reducible apply mbxEvent_does
    | with_reducible apply mbxOp_does
    | with_reducible apply onMbx_does
    | ((with_reducible refine listed_block 16 ?_ ?_ hA); first | omega | (dsimp only [Fld.MBX_EV_RX_MB, Fld.MBXm_BIND_END0, Fld.MBXm_BIND_END1, mbxEnd0, mbxEnd1]; omega) | (dsimp only [Fld.MBX_EV_RX_MB, Fld.MBXm_BIND_END0, Fld.MBXm_BIND_END1, mbxEnd0, mbxEnd1]; split <;> omega); exact rfl)
    | ((with_reducible refine partsIn_trans ?_ hA); exact rfl)
    | ((with_reducible refine listed_code ?_ hA); exact rfl)
    | exact fun (h : Sparse.wf _ _ = true) => h
    | with_reducible apply next_does
    | with_reducible apply id_does
    | with_reducible apply ite_does
    | with_reducible apply iteO_does
    | (apply Sparse.wf_set; assumption)
    | exact rfl
    | intro _
    | dsimp only
    | split

theorem mbxTake_does {A : List Part} {b₀ : State} (m : Nat) (master : Nat) (s : State) 
    (hD : Does A b₀ s) (hA : partsIn [.free, .strand, .mbx, .out] A = true) : Does A b₀ (mbxTake m master s).2 := by
  unfold mbxTake
  repeat' first
    | with_reducible assumption
    | with_reducible apply mbxOp_does
    | with_reducible apply onMbx_does
    | ((with_reducible refine partsIn_trans ?_ hA); exact rfl)
    | ((with_reducible refine listed_code ?_ hA); exact rfl)
    | exact fun (h : Sparse.wf _ _ = true) => h
    | with_reducible apply next_does
    | with_reducible apply id_does
    | with_reducible apply ite_does
    | with_reducible apply iteO_does
    | (apply Sparse.wf_set; assumption)
    | exact rfl
    | intro _
    | dsimp only
    | split

theorem mbxRing_does {A : List Part} {b₀ : State} (m : Nat) (master : Nat) (bits : Word) (s : State) 
    (hD : Does A b₀ s) (hA : partsIn [.block 0x03, .block 0x10, .free, .strand, .exe, .mbx, .out] A = true) : Does A b₀ (mbxRing m master bits s).2 := by
  unfold mbxRing
  repeat' first
    | with_reducible assumption
    | with_reducible apply mbxEvent_does
    | with_reducible apply mbxOp_does
    | with_reducible apply onMbx_does
    | with_reducible apply onlyIf_does
    | with_reducible apply signalSource_does
    | ((with_reducible refine listed_block 3 ?_ ?_ hA); first | omega | (dsimp only [Fld.MBX_EV_DBL_MB, Fld.MBXm_BIND_END1, mbxEnd1]; omega) | (dsimp only [Fld.MBX_EV_DBL_MB, Fld.MBXm_BIND_END1, mbxEnd1]; split <;> omega); exact rfl)
    | ((with_reducible refine listed_block 16 ?_ ?_ hA); first | omega | (dsimp only [Fld.MBX_EV_DBL_MB, Fld.MBXm_BIND_END1, mbxEnd1]; omega) | (dsimp only [Fld.MBX_EV_DBL_MB, Fld.MBXm_BIND_END1, mbxEnd1]; split <;> omega); exact rfl)
    | ((with_reducible refine partsIn_trans ?_ hA); exact rfl)
    | ((with_reducible refine listed_code ?_ hA); exact rfl)
    | exact fun (h : Sparse.wf _ _ = true) => h
    | with_reducible apply next_does
    | with_reducible apply id_does
    | with_reducible apply ite_does
    | with_reducible apply iteO_does
    | (apply Sparse.wf_set; assumption)
    | exact rfl
    | intro _
    | dsimp only
    | split

theorem mbxAck_does {A : List Part} {b₀ : State} (m : Nat) (master : Nat) (code : BitVec 16) (s : State) 
    (hD : Does A b₀ s) (hA : partsIn [.block 0x01, .block 0x02, .block 0x03, .block 0x05, .block 0x08, .block 0x09, .block 0x0A, .block 0x0C, .block 0x10, .free, .strand, .backup, .tides, .seqs, .exe, .loop, .dio, .saf, .pair, .can, .sup, .mbx, .out] A = true) : Does A b₀ (mbxAck m master code s).2 := by
  unfold mbxAck
  repeat' first
    | with_reducible assumption
    | with_reducible apply mbxEvent_does
    | with_reducible apply mbxOp_does
    | with_reducible apply onMbx_does
    | with_reducible apply overrun_does
    | ((with_reducible refine listed_block 1 ?_ ?_ hA); first | omega | (dsimp only [Fld.MBX_EV_ACK_MB, Fld.MBXm_BIND_END0, mbxEnd0]; omega) | (dsimp only [Fld.MBX_EV_ACK_MB, Fld.MBXm_BIND_END0, mbxEnd0]; split <;> omega); exact rfl)
    | ((with_reducible refine listed_block 2 ?_ ?_ hA); first | omega | (dsimp only [Fld.MBX_EV_ACK_MB, Fld.MBXm_BIND_END0, mbxEnd0]; omega) | (dsimp only [Fld.MBX_EV_ACK_MB, Fld.MBXm_BIND_END0, mbxEnd0]; split <;> omega); exact rfl)
    | ((with_reducible refine listed_block 3 ?_ ?_ hA); first | omega | (dsimp only [Fld.MBX_EV_ACK_MB, Fld.MBXm_BIND_END0, mbxEnd0]; omega) | (dsimp only [Fld.MBX_EV_ACK_MB, Fld.MBXm_BIND_END0, mbxEnd0]; split <;> omega); exact rfl)
    | ((with_reducible refine listed_block 5 ?_ ?_ hA); first | omega | (dsimp only [Fld.MBX_EV_ACK_MB, Fld.MBXm_BIND_END0, mbxEnd0]; omega) | (dsimp only [Fld.MBX_EV_ACK_MB, Fld.MBXm_BIND_END0, mbxEnd0]; split <;> omega); exact rfl)
    | ((with_reducible refine listed_block 8 ?_ ?_ hA); first | omega | (dsimp only [Fld.MBX_EV_ACK_MB, Fld.MBXm_BIND_END0, mbxEnd0]; omega) | (dsimp only [Fld.MBX_EV_ACK_MB, Fld.MBXm_BIND_END0, mbxEnd0]; split <;> omega); exact rfl)
    | ((with_reducible refine listed_block 9 ?_ ?_ hA); first | omega | (dsimp only [Fld.MBX_EV_ACK_MB, Fld.MBXm_BIND_END0, mbxEnd0]; omega) | (dsimp only [Fld.MBX_EV_ACK_MB, Fld.MBXm_BIND_END0, mbxEnd0]; split <;> omega); exact rfl)
    | ((with_reducible refine listed_block 10 ?_ ?_ hA); first | omega | (dsimp only [Fld.MBX_EV_ACK_MB, Fld.MBXm_BIND_END0, mbxEnd0]; omega) | (dsimp only [Fld.MBX_EV_ACK_MB, Fld.MBXm_BIND_END0, mbxEnd0]; split <;> omega); exact rfl)
    | ((with_reducible refine listed_block 12 ?_ ?_ hA); first | omega | (dsimp only [Fld.MBX_EV_ACK_MB, Fld.MBXm_BIND_END0, mbxEnd0]; omega) | (dsimp only [Fld.MBX_EV_ACK_MB, Fld.MBXm_BIND_END0, mbxEnd0]; split <;> omega); exact rfl)
    | ((with_reducible refine listed_block 16 ?_ ?_ hA); first | omega | (dsimp only [Fld.MBX_EV_ACK_MB, Fld.MBXm_BIND_END0, mbxEnd0]; omega) | (dsimp only [Fld.MBX_EV_ACK_MB, Fld.MBXm_BIND_END0, mbxEnd0]; split <;> omega); exact rfl)
    | ((with_reducible refine partsIn_trans ?_ hA); exact rfl)
    | ((with_reducible refine listed_code ?_ hA); exact rfl)
    | exact fun (h : Sparse.wf _ _ = true) => h
    | with_reducible apply next_does
    | with_reducible apply id_does
    | with_reducible apply ite_does
    | with_reducible apply iteO_does
    | (apply Sparse.wf_set; assumption)
    | exact rfl
    | intro _
    | dsimp only
    | split

theorem bellToTag_does {A : List Part} {b₀ : State} (m : Nat) (s : State) 
    (hD : Does A b₀ s) (hA : partsIn [.block 0x05, .free, .strand, .exe, .dio, .mbx, .out] A = true) : Does A b₀ (bellToTag m s) := by
  unfold bellToTag
  repeat' first
    | with_reducible assumption
    | with_reducible apply onMbx_does
    | with_reducible apply onlyIf_does
    | with_reducible apply tagStore_does
    | ((with_reducible refine listed_block 5 ?_ ?_ hA); first | omega | (dsimp only [Fld.MBXm_BIND_DBL_TAG]; omega) | (dsimp only [Fld.MBXm_BIND_DBL_TAG]; split <;> omega); exact rfl)
    | ((with_reducible refine partsIn_trans ?_ hA); exact rfl)
    | ((with_reducible refine listed_code ?_ hA); exact rfl)
    | exact fun (h : Sparse.wf _ _ = true) => h
    | with_reducible apply next_does
    | with_reducible apply id_does
    | with_reducible apply ite_does
    | with_reducible apply iteO_does
    | (apply Sparse.wf_set; assumption)
    | exact rfl
    | intro _
    | dsimp only
    | split

theorem lockTry_does {A : List Part} {b₀ : State} (i : Nat) (master : Nat) (t : Nat) (s : State) 
    (hD : Does A b₀ s) (hA : partsIn [.mbx] A = true) : Does A b₀ (lockTry i master t s) := by
  unfold lockTry
  repeat' first
    | with_reducible assumption
    | ((with_reducible refine partsIn_trans ?_ hA); exact rfl)
    | ((with_reducible refine listed_code ?_ hA); exact rfl)
    | exact fun (h : Sparse.wf _ _ = true) => h
    | with_reducible apply next_does
    | with_reducible apply id_does
    | with_reducible apply ite_does
    | with_reducible apply iteO_does
    | (apply Sparse.wf_set; assumption)
    | exact rfl
    | intro _
    | dsimp only
    | split
    | with_reducible apply upd_locks

theorem lockFree_does {A : List Part} {b₀ : State} (i : Nat) (s : State) 
    (hD : Does A b₀ s) (hA : partsIn [.mbx] A = true) : Does A b₀ (lockFree i s) := by
  unfold lockFree
  repeat' first
    | with_reducible assumption
    | ((with_reducible refine partsIn_trans ?_ hA); exact rfl)
    | ((with_reducible refine listed_code ?_ hA); exact rfl)
    | exact fun (h : Sparse.wf _ _ = true) => h
    | with_reducible apply next_does
    | with_reducible apply id_does
    | with_reducible apply ite_does
    | with_reducible apply iteO_does
    | (apply Sparse.wf_set; assumption)
    | exact rfl
    | intro _
    | dsimp only
    | split
    | with_reducible apply upd_locks

end Sys2Proof.Machine
end

