-- ==== Sys2Proof/Laws/OnlyTtOps.lean ====
section
/-! SUPPORT. What each operation of Machine/TtOps.lean can do: the parts of the state it may change, and that it keeps
canonical form. -/
namespace Sys2Proof.Machine

theorem onTT_does {A : List Part} {b₀ : State} (i : Nat) (f : TTEntry → TTEntry) (s : State) 
    (hD : Does A b₀ s) (hA : partsIn [.tideTable] A = true) : Does A b₀ (onTT i f s) := by
  unfold onTT
  repeat' first
    | with_reducible assumption
    | ((with_reducible refine partsIn_trans ?_ hA); exact rfl)
    | ((with_reducible refine listed_code ?_ hA); exact rfl)
    | exact fun (h : Sparse.wf _ _ = true) => h
    | with_reducible apply next_does
    | with_reducible apply id_does
    | with_reducible apply ite_does
    | with_reducible apply iteO_does
    | (apply Sparse.wf_set; assumption)
    | exact rfl
    | intro _
    | dsimp only
    | split
    | with_reducible apply upd_tt

theorem ttSay_does {A : List Part} {b₀ : State} (i : Nat) (st : Status) (s : State) 
    (hD : Does A b₀ s) (hA : partsIn [.free, .strand, .tideTable, .out] A = true) : Does A b₀ (ttSay i st s) := by
  unfold ttSay
  repeat' first
    | with_reducible assumption
    | with_reducible apply onTT_does
    | with_reducible apply say_does
    | ((with_reducible refine partsIn_trans ?_ hA); exact rfl)
    | ((with_reducible refine listed_code ?_ hA); exact rfl)
    | exact fun (h : Sparse.wf _ _ = true) => h
    | with_reducible apply next_does
    | with_reducible apply id_does
    | with_reducible apply ite_does
    | with_reducible apply iteO_does
    | (apply Sparse.wf_set; assumption)
    | exact rfl
    | intro _
    | dsimp only
    | split

theorem ttArmFull_does {A : List Part} {b₀ : State} (i : Nat) (n : Nat) (s : State) 
    (hD : Does A b₀ s) (hA : partsIn [.block 0x02, .free, .strand, .tideTable, .out] A = true) : Does A b₀ (ttArmFull i n s) := by
  unfold ttArmFull
  repeat' first
    | with_reducible assumption
    | with_reducible apply raiseBit_does
    | with_reducible apply ttSay_does
    | ((with_reducible refine partsIn_trans ?_ hA); exact rfl)
    | ((with_reducible refine listed_code ?_ hA); exact rfl)
    | exact fun (h : Sparse.wf _ _ = true) => h
    | with_reducible apply next_does
    | with_reducible apply id_does
    | with_reducible apply ite_does
    | with_reducible apply iteO_does
    | (apply Sparse.wf_set; assumption)
    | exact rfl
    | intro _
    | dsimp only
    | split
    | with_reducible apply upd_ttFull

theorem ttArm_does {A : List Part} {b₀ : State} (i : Nat) (s : State) 
    (hD : Does A b₀ s) (hA : partsIn [.block 0x02, .free, .strand, .tideTable, .net, .out] A = true) : Does A b₀ (ttArm i s) := by
  unfold ttArm
  repeat' first
    | with_reducible assumption
    | with_reducible apply launchArm_does
    | with_reducible apply onTT_does
    | with_reducible apply onlyIf_does
    | with_reducible apply ttArmFull_does
    | ((with_reducible refine partsIn_trans ?_ hA); exact rfl)
    | ((with_reducible refine listed_code ?_ hA); exact rfl)
    | exact fun (h : Sparse.wf _ _ = true) => h
    | with_reducible apply next_does
    | with_reducible apply id_does
    | with_reducible apply ite_does
    | with_reducible apply iteO_does
    | (apply Sparse.wf_set; assumption)
    | exact rfl
    | intro _
    | dsimp only
    | split

theorem ttCommit_does {A : List Part} {b₀ : State} (host : Bool) (i : Nat) (w0 : Word) (w1 : Word) (w2 : Word) (w3 : Word) (w4 : Word) (s : State) 
    (hD : Does A b₀ s) (hA : partsIn [.block 0x02, .free, .strand, .tideTable, .net, .out] A = true) : Does A b₀ (ttCommit host i w0 w1 w2 w3 w4 s).2 := by
  unfold ttCommit
  repeat' first
    | with_reducible assumption
    | with_reducible apply onTT_does
    | with_reducible apply say_does
    | with_reducible apply ttArm_does
    | ((with_reducible refine partsIn_trans ?_ hA); exact rfl)
    | ((with_reducible refine listed_code ?_ hA); exact rfl)
    | exact fun (h : Sparse.wf _ _ = true) => h
    | with_reducible apply next_does
    | with_reducible apply id_does
    | with_reducible apply ite_does
    | with_reducible apply iteO_does
    | (apply Sparse.wf_set; assumption)
    | exact rfl
    | intro _
    | dsimp only
    | split

theorem ttRetireBy_does {A : List Part} {b₀ : State} (host : Bool) (i : Nat) (s : State) 
    (hD : Does A b₀ s) (hA : partsIn [.free, .strand, .tideTable, .out] A = true) : Does A b₀ (ttRetireBy host i s).2 := by
  unfold ttRetireBy
  repeat' first
    | with_reducible assumption
    | with_reducible apply onTT_does
    | with_reducible apply say_does
    | ((with_reducible refine partsIn_trans ?_ hA); exact rfl)
    | ((with_reducible refine listed_code ?_ hA); exact rfl)
    | exact fun (h : Sparse.wf _ _ = true) => h
    | with_reducible apply next_does
    | with_reducible apply id_does
    | with_reducible apply ite_does
    | with_reducible apply iteO_does
    | (apply Sparse.wf_set; assumption)
    | exact rfl
    | intro _
    | dsimp only
    | split

theorem ttEdge_does {A : List Part} {b₀ : State} (c : Nat) (level : Bool) (step : Nat) (trailing : Option Nat) (s : State) 
    (hD : Does A b₀ s) (hA : partsIn [.tideTable] A = true) : Does A b₀ (ttEdge c level step trailing s) := by
  unfold ttEdge
  repeat' first
    | with_reducible assumption
    | with_reducible apply onTTOut_does
    | ((with_reducible refine partsIn_trans ?_ hA); exact rfl)
    | ((with_reducible refine listed_code ?_ hA); exact rfl)
    | exact fun (h : Sparse.wf _ _ = true) => h
    | with_reducible apply next_does
    | with_reducible apply id_does
    | with_reducible apply ite_does
    | with_reducible apply iteO_does
    | (apply Sparse.wf_set; assumption)
    | exact rfl
    | intro _
    | dsimp only
    | split

theorem ttAct_does {A : List Part} {b₀ : State} (e : TTEntry) (step : Nat) (dropped : Bool) (s : State) 
    (hD : Does A b₀ s) (hA : partsIn [.block 0x02, .block 0x03, .block 0x04, .block 0x05, .block 0x06, .block 0x0B, .free, .strand, .tideTable, .exe, .loop, .dio, .ana, .net, .out] A = true) : Does A b₀ (ttAct e step dropped s) := by
  unfold ttAct
  repeat' first
    | with_reducible assumption
    | with_reducible apply analogTrigger_does
    | with_reducible apply bump_does
    | with_reducible apply launchFire_does
    | with_reducible apply loopSample_does
    | with_reducible apply signalTask_does
    | with_reducible apply tagStore_does
    | with_reducible apply ttEdge_does
    | ((with_reducible refine partsIn_trans ?_ hA); exact rfl)
    | ((with_reducible refine listed_code ?_ hA); exact rfl)
    | exact fun (h : Sparse.wf _ _ = true) => h
    | with_reducible apply next_does
    | with_reducible apply id_does
    | with_reducible apply ite_does
    | with_reducible apply iteO_does
    | (apply Sparse.wf_set; assumption)
    | exact rfl
    | intro _
    | dsimp only
    | split

theorem ttNext_does {A : List Part} {b₀ : State} (i : Nat) (forward : Bool) (s : State) 
    (hD : Does A b₀ s) (hA : partsIn [.tideTable] A = true) : Does A b₀ (ttNext i forward s) := by
  unfold ttNext
  repeat' first
    | with_reducible assumption
    | with_reducible apply onTT_does
    | ((with_reducible refine partsIn_trans ?_ hA); exact rfl)
    | ((with_reducible refine listed_code ?_ hA); exact rfl)
    | exact fun (h : Sparse.wf _ _ = true) => h
    | with_reducible apply next_does
    | with_reducible apply id_does
    | with_reducible apply ite_does
    | with_reducible apply iteO_does
    | (apply Sparse.wf_set; assumption)
    | exact rfl
    | intro _
    | dsimp only
    | split

theorem ttFire_does {A : List Part} {b₀ : State} (i : Nat) (forward : Bool) (step : Nat) (dropped : Bool) (s : State) 
    (hD : Does A b₀ s) (hA : partsIn [.block 0x02, .block 0x03, .block 0x04, .block 0x05, .block 0x06, .block 0x0B, .free, .strand, .tideTable, .exe, .loop, .dio, .ana, .net, .out] A = true) : Does A b₀ (ttFire i forward step dropped s) := by
  unfold ttFire
  repeat' first
    | with_reducible assumption
    | with_reducible apply bump_does
    | with_reducible apply onTT_does
    | with_reducible apply raiseBit_does
    | with_reducible apply ttAct_does
    | with_reducible apply ttNext_does
    | with_reducible apply ttSay_does
    | ((with_reducible refine partsIn_trans ?_ hA); exact rfl)
    | ((with_reducible refine listed_code ?_ hA); exact rfl)
    | exact fun (h : Sparse.wf _ _ = true) => h
    | with_reducible apply next_does
    | with_reducible apply id_does
    | with_reducible apply ite_does
    | with_reducible apply iteO_does
    | (apply Sparse.wf_set; assumption)
    | exact rfl
    | intro _
    | dsimp only
    | split

theorem ttLate_does {A : List Part} {b₀ : State} (i : Nat) (forward : Bool) (s : State) 
    (hD : Does A b₀ s) (hA : partsIn [.block 0x02, .free, .strand, .tideTable, .out] A = true) : Does A b₀ (ttLate i forward s) := by
  unfold ttLate
  repeat' first
    | with_reducible assumption
    | with_reducible apply bump_does
    | with_reducible apply onTT_does
    | with_reducible apply raiseBit_does
    | with_reducible apply ttNext_does
    | with_reducible apply ttSay_does
    | ((with_reducible refine partsIn_trans ?_ hA); exact rfl)
    | ((with_reducible refine listed_code ?_ hA); exact rfl)
    | exact fun (h : Sparse.wf _ _ = true) => h
    | with_reducible apply next_does
    | with_reducible apply id_does
    | with_reducible apply ite_does
    | with_reducible apply iteO_does
    | (apply Sparse.wf_set; assumption)
    | exact rfl
    | intro _
    | dsimp only
    | split

theorem ttOverspeed_does {A : List Part} {b₀ : State} (n : Nat) (s : State) 
    (hD : Does A b₀ s) (hA : partsIn [.block 0x02, .free, .strand, .out] A = true) : Does A b₀ (ttOverspeed n s) := by
  unfold ttOverspeed
  repeat' first
    | with_reducible assumption
    | with_reducible apply onlyIf_does
    | with_reducible apply say_does
    | with_reducible apply setBitAt_does
    | ((with_reducible refine partsIn_trans ?_ hA); exact rfl)
    | ((with_reducible refine listed_code ?_ hA); exact rfl)
    | exact fun (h : Sparse.wf _ _ = true) => h
    | with_reducible apply next_does
    | with_reducible apply id_does
    | with_reducible apply ite_does
    | with_reducible apply iteO_does
    | (apply Sparse.wf_set; assumption)
    | exact rfl
    | intro _
    | dsimp only
    | split

theorem ttVisit_does {A : List Part} {b₀ : State} (i : Nat) (s : State) 
    (hD : Does A b₀ s) (hA : partsIn [.block 0x02, .free, .strand, .tideTable, .net, .out] A = true) : Does A b₀ (ttVisit i s) := by
  unfold ttVisit
  repeat' first
    | with_reducible assumption
    | with_reducible apply forAll_does
    | with_reducible apply onTT_does
    | with_reducible apply ttArm_does
    | with_reducible apply ttLate_does
    | with_reducible apply ttOverspeed_does
    | ((with_reducible refine partsIn_trans ?_ hA); exact rfl)
    | ((with_reducible refine listed_code ?_ hA); exact rfl)
    | exact fun (h : Sparse.wf _ _ = true) => h
    | with_reducible apply next_does
    | with_reducible apply id_does
    | with_reducible apply ite_does
    | with_reducible apply iteO_does
    | (apply Sparse.wf_set; assumption)
    | exact rfl
    | intro _
    | dsimp only
    | split

theorem ttActive_does {A : List Part} {b₀ : State}  (s : State) 
    (hD : Does A b₀ s) (hA : partsIn [.free, .strand, .tideTable, .out] A = true) : Does A b₀ (ttActive s) := by
  unfold ttActive
  repeat' first
    | with_reducible assumption
    | with_reducible apply forAll_does
    | with_reducible apply onTTOut_does
    | with_reducible apply onlyIf_does
    | with_reducible apply say_does
    | ((with_reducible refine partsIn_trans ?_ hA); exact rfl)
    | ((with_reducible refine listed_code ?_ hA); exact rfl)
    | exact fun (h : Sparse.wf _ _ = true) => h
    | with_reducible apply next_does
    | with_reducible apply id_does
    | with_reducible apply ite_does
    | with_reducible apply iteO_does
    | (apply Sparse.wf_set; assumption)
    | exact rfl
    | intro _
    | dsimp only
    | split

end Sys2Proof.Machine
end

