-- ==== Sys2Proof/Laws/OnlySeqOps.lean ====
section
/-! SUPPORT. What each operation of Machine/SeqOps.lean can do: the parts of the state it may change, and that it keeps
canonical form. -/
namespace Sys2Proof.Machine

theorem onSeq_does {A : List Part} {b₀ : State} (q : Nat) (f : Seq → Seq) (s : State) 
    (hD : Does A b₀ s) (hA : partsIn [.seqs] A = true) : Does A b₀ (onSeq q f s) := by
  unfold onSeq
  repeat' first
    | with_reducible assumption
    | ((with_reducible refine partsIn_trans ?_ hA); exact rfl)
    | ((with_reducible refine listed_code ?_ hA); exact rfl)
    | exact fun (h : Sparse.wf _ _ = true) => h
    | with_reducible apply next_does
    | with_reducible apply id_does
    | with_reducible apply ite_does
    | with_reducible apply iteO_does
    | (apply Sparse.wf_set; assumption)
    | exact rfl
    | intro _
    | dsimp only
    | split
    | with_reducible apply upd_seqs

theorem sqSay_does {A : List Part} {b₀ : State} (q : Nat) (st : Status) (s : State) 
    (hD : Does A b₀ s) (hA : partsIn [.free, .strand, .seqs, .out] A = true) : Does A b₀ (sqSay q st s) := by
  unfold sqSay
  repeat' first
    | with_reducible assumption
    | with_reducible apply onSeq_does
    | with_reducible apply say_does
    | ((with_reducible refine partsIn_trans ?_ hA); exact rfl)
    | ((with_reducible refine listed_code ?_ hA); exact rfl)
    | exact fun (h : Sparse.wf _ _ = true) => h
    | with_reducible apply next_does
    | with_reducible apply id_does
    | with_reducible apply ite_does
    | with_reducible apply iteO_does
    | (apply Sparse.wf_set; assumption)
    | exact rfl
    | intro _
    | dsimp only
    | split

theorem seqMirror_does {A : List Part} {b₀ : State} (q : Nat) (s : State) 
    (hD : Does A b₀ s) (hA : partsIn [.pair, .out] A = true) : Does A b₀ (seqMirror q s) := by
  unfold seqMirror
  repeat' first
    | with_reducible assumption
    | with_reducible apply cwMirror_does
    | ((with_reducible refine partsIn_trans ?_ hA); exact rfl)
    | ((with_reducible refine listed_code ?_ hA); exact rfl)
    | exact fun (h : Sparse.wf _ _ = true) => h
    | with_reducible apply next_does
    | with_reducible apply id_does
    | with_reducible apply ite_does
    | with_reducible apply iteO_does
    | (apply Sparse.wf_set; assumption)
    | exact rfl
    | intro _
    | dsimp only
    | split

theorem tidesMirror_does {A : List Part} {b₀ : State}  (s : State) 
    (hD : Does A b₀ s) (hA : partsIn [.pair, .out] A = true) : Does A b₀ (tidesMirror s) := by
  unfold tidesMirror
  repeat' first
    | with_reducible assumption
    | with_reducible apply cwMirror_does
    | with_reducible apply forAll_does
    | with_reducible apply onlyIf_does
    | ((with_reducible refine partsIn_trans ?_ hA); exact rfl)
    | ((with_reducible refine listed_code ?_ hA); exact rfl)
    | exact fun (h : Sparse.wf _ _ = true) => h
    | with_reducible apply next_does
    | with_reducible apply id_does
    | with_reducible apply ite_does
    | with_reducible apply iteO_does
    | (apply Sparse.wf_set; assumption)
    | exact rfl
    | intro _
    | dsimp only
    | split
    | with_reducible apply upd_pair

theorem slackMirror_does {A : List Part} {b₀ : State}  (s : State) 
    (hD : Does A b₀ s) (hA : partsIn [.pair, .out] A = true) : Does A b₀ (slackMirror s) := by
  unfold slackMirror
  repeat' first
    | with_reducible assumption
    | with_reducible apply cwMirror_does
    | with_reducible apply forAll_does
    | with_reducible apply seqMirror_does
    | with_reducible apply tidesMirror_does
    | ((with_reducible refine partsIn_trans ?_ hA); exact rfl)
    | ((with_reducible refine listed_code ?_ hA); exact rfl)
    | exact fun (h : Sparse.wf _ _ = true) => h
    | with_reducible apply next_does
    | with_reducible apply id_does
    | with_reducible apply ite_does
    | with_reducible apply iteO_does
    | (apply Sparse.wf_set; assumption)
    | exact rfl
    | intro _
    | dsimp only
    | split

theorem stepAction_does {A : List Part} {b₀ : State} (q : Nat) (act : Nat) (target : Nat) (v : Word) (s : State) 
    (hD : Does A b₀ s) (hA : partsIn [.block 0x02, .block 0x03, .block 0x04, .block 0x05, .free, .strand, .tideTable, .seqs, .exe, .loop, .dio, .pair, .net, .out] A = true) : Does A b₀ (stepAction q act target v s) := by
  unfold stepAction
  repeat' first
    | with_reducible assumption
    | with_reducible apply loopPutMode_does
    | with_reducible apply loopPutSp_does
    | with_reducible apply onTT_does
    | with_reducible apply present_does
    | with_reducible apply signalTask_does
    | with_reducible apply sqSay_does
    | with_reducible apply tagStore_does
    | with_reducible apply ttArm_does
    | ((with_reducible refine partsIn_trans ?_ hA); exact rfl)
    | ((with_reducible refine listed_code ?_ hA); exact rfl)
    | exact fun (h : Sparse.wf _ _ = true) => h
    | with_reducible apply next_does
    | with_reducible apply id_does
    | with_reducible apply ite_does
    | with_reducible apply iteO_does
    | (apply Sparse.wf_set; assumption)
    | exact rfl
    | intro _
    | dsimp only
    | split

theorem stepActions_does {A : List Part} {b₀ : State} (q : Nat) (s : State) 
    (hD : Does A b₀ s) (hA : partsIn [.block 0x02, .block 0x03, .block 0x04, .block 0x05, .free, .strand, .tideTable, .seqs, .exe, .loop, .dio, .pair, .net, .out] A = true) : Does A b₀ (stepActions q s) := by
  unfold stepActions
  repeat' first
    | with_reducible assumption
    | with_reducible apply forAll_does
    | with_reducible apply stepAction_does
    | ((with_reducible refine partsIn_trans ?_ hA); exact rfl)
    | ((with_reducible refine listed_code ?_ hA); exact rfl)
    | exact fun (h : Sparse.wf _ _ = true) => h
    | with_reducible apply next_does
    | with_reducible apply id_does
    | with_reducible apply ite_does
    | with_reducible apply iteO_does
    | (apply Sparse.wf_set; assumption)
    | exact rfl
    | intro _
    | dsimp only
    | split

theorem seqFault_does {A : List Part} {b₀ : State} (q : Nat) (s : State) 
    (hD : Does A b₀ s) (hA : partsIn [.block 0x02, .free, .strand, .seqs, .pair, .out] A = true) : Does A b₀ (seqFault q s) := by
  unfold seqFault
  repeat' first
    | with_reducible assumption
    | with_reducible apply onSeq_does
    | with_reducible apply raiseBit_does
    | with_reducible apply seqMirror_does
    | with_reducible apply sqSay_does
    | ((with_reducible refine partsIn_trans ?_ hA); exact rfl)
    | ((with_reducible refine listed_code ?_ hA); exact rfl)
    | exact fun (h : Sparse.wf _ _ = true) => h
    | with_reducible apply next_does
    | with_reducible apply id_does
    | with_reducible apply ite_does
    | with_reducible apply iteO_does
    | (apply Sparse.wf_set; assumption)
    | exact rfl
    | intro _
    | dsimp only
    | split

theorem enterStep_does {A : List Part} {b₀ : State} (q : Nat) (n : Nat) (nominal : Int) (start : Option (Nat × DWord)) (s : State) 
    (hD : Does A b₀ s) (hA : partsIn [.block 0x02, .block 0x03, .block 0x04, .block 0x05, .free, .strand, .tideTable, .seqs, .exe, .loop, .dio, .pair, .net, .out] A = true) : Does A b₀ (enterStep q n nominal start s) := by
  unfold enterStep
  repeat' first
    | with_reducible assumption
    | with_reducible apply onSeq_does
    | with_reducible apply seqFault_does
    | with_reducible apply seqMirror_does
    | with_reducible apply sqSay_does
    | with_reducible apply stepActions_does
    | ((with_reducible refine partsIn_trans ?_ hA); exact rfl)
    | ((with_reducible refine listed_code ?_ hA); exact rfl)
    | exact fun (h : Sparse.wf _ _ = true) => h
    | with_reducible apply next_does
    | with_reducible apply id_does
    | with_reducible apply ite_does
    | with_reducible apply iteO_does
    | (apply Sparse.wf_set; assumption)
    | exact rfl
    | intro _
    | dsimp only
    | split

theorem toFaultNext_does {A : List Part} {b₀ : State} (q : Nat) (st : Status) (s : State) 
    (hD : Does A b₀ s) (hA : partsIn [.block 0x02, .block 0x03, .block 0x04, .block 0x05, .free, .strand, .tideTable, .seqs, .exe, .loop, .dio, .pair, .net, .out] A = true) : Does A b₀ (toFaultNext q st s) := by
  unfold toFaultNext
  repeat' first
    | with_reducible assumption
    | with_reducible apply enterStep_does
    | with_reducible apply seqFault_does
    | with_reducible apply sqSay_does
    | ((with_reducible refine partsIn_trans ?_ hA); exact rfl)
    | ((with_reducible refine listed_code ?_ hA); exact rfl)
    | exact fun (h : Sparse.wf _ _ = true) => h
    | with_reducible apply next_does
    | with_reducible apply id_does
    | with_reducible apply ite_does
    | with_reducible apply iteO_does
    | (apply Sparse.wf_set; assumption)
    | exact rfl
    | intro _
    | dsimp only
    | split

theorem cmdAct_does {A : List Part} {b₀ : State} (q : Nat) (c : SeqCmd) (s : State) 
    (hD : Does A b₀ s) (hA : partsIn [.block 0x02, .block 0x03, .block 0x04, .block 0x05, .free, .strand, .tideTable, .seqs, .exe, .loop, .dio, .pair, .net, .out] A = true) : Does A b₀ (cmdAct q c s) := by
  unfold cmdAct
  repeat' first
    | with_reducible assumption
    | with_reducible apply enterStep_does
    | with_reducible apply onSeq_does
    | with_reducible apply seqMirror_does
    | ((with_reducible refine partsIn_trans ?_ hA); exact rfl)
    | ((with_reducible refine listed_code ?_ hA); exact rfl)
    | exact fun (h : Sparse.wf _ _ = true) => h
    | with_reducible apply next_does
    | with_reducible apply id_does
    | with_reducible apply ite_does
    | with_reducible apply iteO_does
    | (apply Sparse.wf_set; assumption)
    | exact rfl
    | intro _
    | dsimp only
    | split

theorem doMove_does {A : List Part} {b₀ : State} (q : Nat) (m : SeqMove) (s : State) 
    (hD : Does A b₀ s) (hA : partsIn [.block 0x02, .block 0x03, .block 0x04, .block 0x05, .free, .strand, .tideTable, .seqs, .exe, .loop, .dio, .pair, .net, .out] A = true) : Does A b₀ (doMove q m s) := by
  unfold doMove
  repeat' first
    | with_reducible assumption
    | with_reducible apply enterStep_does
    | with_reducible apply onSeq_does
    | with_reducible apply onlyIf_does
    | with_reducible apply raiseBit_does
    | with_reducible apply seqMirror_does
    | with_reducible apply sqSay_does
    | with_reducible apply toFaultNext_does
    | ((with_reducible refine partsIn_trans ?_ hA); exact rfl)
    | ((with_reducible refine listed_code ?_ hA); exact rfl)
    | exact fun (h : Sparse.wf _ _ = true) => h
    | with_reducible apply next_does
    | with_reducible apply id_does
    | with_reducible apply ite_does
    | with_reducible apply iteO_does
    | (apply Sparse.wf_set; assumption)
    | exact rfl
    | intro _
    | dsimp only
    | split

theorem seqEval_does {A : List Part} {b₀ : State} (q : Nat) (s : State) 
    (hD : Does A b₀ s) (hA : partsIn [.block 0x02, .block 0x03, .block 0x04, .block 0x05, .free, .strand, .tideTable, .seqs, .exe, .loop, .dio, .pair, .net, .out] A = true) : Does A b₀ (seqEval q s) := by
  unfold seqEval
  repeat' first
    | with_reducible assumption
    | with_reducible apply bump_does
    | with_reducible apply cmdAct_does
    | with_reducible apply doMove_does
    | with_reducible apply forAll_does
    | with_reducible apply onSeq_does
    | with_reducible apply onlyIf_does
    | with_reducible apply sqSay_does
    | ((with_reducible refine listed_block 2 ?_ ?_ hA); first | omega | (dsimp only [Fld.SQ_CLOSE_CALL_COUNT, Fld.SQs_DROPPED_COUNT]; omega) | (dsimp only [Fld.SQ_CLOSE_CALL_COUNT, Fld.SQs_DROPPED_COUNT]; split <;> omega); exact rfl)
    | ((with_reducible refine listed_block 3 ?_ ?_ hA); first | omega | (dsimp only [Fld.SQ_CLOSE_CALL_COUNT, Fld.SQs_DROPPED_COUNT]; omega) | (dsimp only [Fld.SQ_CLOSE_CALL_COUNT, Fld.SQs_DROPPED_COUNT]; split <;> omega); exact rfl)
    | ((with_reducible refine listed_block 4 ?_ ?_ hA); first | omega | (dsimp only [Fld.SQ_CLOSE_CALL_COUNT, Fld.SQs_DROPPED_COUNT]; omega) | (dsimp only [Fld.SQ_CLOSE_CALL_COUNT, Fld.SQs_DROPPED_COUNT]; split <;> omega); exact rfl)
    | ((with_reducible refine listed_block 5 ?_ ?_ hA); first | omega | (dsimp only [Fld.SQ_CLOSE_CALL_COUNT, Fld.SQs_DROPPED_COUNT]; omega) | (dsimp only [Fld.SQ_CLOSE_CALL_COUNT, Fld.SQs_DROPPED_COUNT]; split <;> omega); exact rfl)
    | ((with_reducible refine partsIn_trans ?_ hA); exact rfl)
    | ((with_reducible refine listed_code ?_ hA); exact rfl)
    | exact fun (h : Sparse.wf _ _ = true) => h
    | with_reducible apply next_does
    | with_reducible apply id_does
    | with_reducible apply ite_does
    | with_reducible apply iteO_does
    | (apply Sparse.wf_set; assumption)
    | exact rfl
    | intro _
    | dsimp only
    | split

theorem seqPut_does {A : List Part} {b₀ : State} (q : Nat) (c : SeqCmd) (s : State) 
    (hD : Does A b₀ s) (hA : partsIn [.seqs] A = true) : Does A b₀ (seqPut q c s) := by
  unfold seqPut
  repeat' first
    | with_reducible assumption
    | with_reducible apply onSeq_does
    | ((with_reducible refine partsIn_trans ?_ hA); exact rfl)
    | ((with_reducible refine listed_code ?_ hA); exact rfl)
    | exact fun (h : Sparse.wf _ _ = true) => h
    | with_reducible apply next_does
    | with_reducible apply id_does
    | with_reducible apply ite_does
    | with_reducible apply iteO_does
    | (apply Sparse.wf_set; assumption)
    | exact rfl
    | intro _
    | dsimp only
    | split

theorem seqSignal_does {A : List Part} {b₀ : State} (q : Nat) (b : Byte) (s : State) 
    (hD : Does A b₀ s) (hA : partsIn [.seqs] A = true) : Does A b₀ (seqSignal q b s) := by
  unfold seqSignal
  repeat' first
    | with_reducible assumption
    | with_reducible apply onSeq_does
    | ((with_reducible refine partsIn_trans ?_ hA); exact rfl)
    | ((with_reducible refine listed_code ?_ hA); exact rfl)
    | exact fun (h : Sparse.wf _ _ = true) => h
    | with_reducible apply next_does
    | with_reducible apply id_does
    | with_reducible apply ite_does
    | with_reducible apply iteO_does
    | (apply Sparse.wf_set; assumption)
    | exact rfl
    | intro _
    | dsimp only
    | split

theorem seqResume_does {A : List Part} {b₀ : State} (q : Nat) (s : State) 
    (hD : Does A b₀ s) (hA : partsIn [.block 0x02, .block 0x03, .block 0x04, .block 0x05, .free, .strand, .tideTable, .seqs, .exe, .loop, .dio, .pair, .net, .out] A = true) : Does A b₀ (seqResume q s) := by
  unfold seqResume
  repeat' first
    | with_reducible assumption
    | with_reducible apply onSeq_does
    | with_reducible apply onlyIf_does
    | with_reducible apply seqFault_does
    | with_reducible apply sqSay_does
    | with_reducible apply stepActions_does
    | ((with_reducible refine partsIn_trans ?_ hA); exact rfl)
    | ((with_reducible refine listed_code ?_ hA); exact rfl)
    | exact fun (h : Sparse.wf _ _ = true) => h
    | with_reducible apply next_does
    | with_reducible apply id_does
    | with_reducible apply ite_does
    | with_reducible apply iteO_does
    | (apply Sparse.wf_set; assumption)
    | exact rfl
    | intro _
    | dsimp only
    | split

end Sys2Proof.Machine
end

