-- ==== Sys2Proof/Laws/OnlyExecOps.lean ====
section
/-! SUPPORT. What each operation of Machine/ExecOps.lean can do: the parts of the state it may change, and that it keeps
canonical form. -/
namespace Sys2Proof.Machine

theorem slackEnd_does {A : List Part} {b₀ : State}  (s : State) 
    (hD : Does A b₀ s) (hA : partsIn [.block 0x03] A = true) : Does A b₀ (slackEnd s) := by
  unfold slackEnd
  repeat' first
    | with_reducible assumption
    | with_reducible apply setFld_does
    | ((with_reducible refine partsIn_trans ?_ hA); exact rfl)
    | ((with_reducible refine listed_code ?_ hA); exact rfl)
    | exact fun (h : Sparse.wf _ _ = true) => h
    | with_reducible apply next_does
    | with_reducible apply id_does
    | with_reducible apply ite_does
    | with_reducible apply iteO_does
    | (apply Sparse.wf_set; assumption)
    | exact rfl
    | intro _
    | dsimp only
    | split

theorem slackBegin_does {A : List Part} {b₀ : State}  (s : State) 
    (hD : Does A b₀ s) (hA : partsIn [.exe, .pair, .out] A = true) : Does A b₀ (slackBegin s) := by
  unfold slackBegin
  repeat' first
    | with_reducible assumption
    | with_reducible apply slackMirror_does
    | ((with_reducible refine partsIn_trans ?_ hA); exact rfl)
    | ((with_reducible refine listed_code ?_ hA); exact rfl)
    | exact fun (h : Sparse.wf _ _ = true) => h
    | with_reducible apply next_does
    | with_reducible apply id_does
    | with_reducible apply ite_does
    | with_reducible apply iteO_does
    | (apply Sparse.wf_set; assumption)
    | exact rfl
    | intro _
    | dsimp only
    | split
    | with_reducible apply upd_exe

theorem overrun_does {A : List Part} {b₀ : State} (t : Nat) (kind : Nat) (s : State) 
    (hD : Does A b₀ s) (hA : partsIn [.block 0x01, .block 0x02, .block 0x03, .block 0x05, .block 0x08, .block 0x09, .block 0x0A, .block 0x0C, .free, .strand, .backup, .tides, .seqs, .exe, .loop, .dio, .saf, .pair, .can, .sup, .mbx, .out] A = true) : Does A b₀ (overrun t kind s) := by
  unfold overrun
  repeat' first
    | with_reducible assumption
    | with_reducible apply enterFallback_does
    | with_reducible apply raiseF_does
    | with_reducible apply sayD_does
    | with_reducible apply wr_does
    | ((with_reducible refine partsIn_trans ?_ hA); exact rfl)
    | ((with_reducible refine listed_code ?_ hA); exact rfl)
    | exact fun (h : Sparse.wf _ _ = true) => h
    | with_reducible apply next_does
    | with_reducible apply id_does
    | with_reducible apply ite_does
    | with_reducible apply iteO_does
    | (apply Sparse.wf_set; assumption)
    | exact rfl
    | intro _
    | dsimp only
    | split

theorem progFault_does {A : List Part} {b₀ : State} (st : Status) (t : Nat) (s : State) 
    (hD : Does A b₀ s) (hA : partsIn [.block 0x01, .block 0x02, .block 0x03, .block 0x05, .block 0x08, .block 0x09, .block 0x0A, .block 0x0C, .free, .strand, .backup, .tides, .seqs, .exe, .loop, .dio, .saf, .pair, .can, .sup, .mbx, .out] A = true) : Does A b₀ (progFault st t s) := by
  unfold progFault
  repeat' first
    | with_reducible assumption
    | with_reducible apply enterFallback_does
    | with_reducible apply onlyIf_does
    | with_reducible apply raiseF_does
    | with_reducible apply say_does
    | with_reducible apply sayD_does
    | ((with_reducible refine partsIn_trans ?_ hA); exact rfl)
    | ((with_reducible refine listed_code ?_ hA); exact rfl)
    | exact fun (h : Sparse.wf _ _ = true) => h
    | with_reducible apply next_does
    | with_reducible apply id_does
    | with_reducible apply ite_does
    | with_reducible apply iteO_does
    | (apply Sparse.wf_set; assumption)
    | exact rfl
    | intro _
    | dsimp only
    | split

theorem runTask_does {A : List Part} {b₀ : State} (t : Nat) (s : State) 
    (hD : Does A b₀ s) (hA : partsIn [.exe, .pair, .out] A = true) : Does A b₀ (runTask t s) := by
  unfold runTask
  repeat' first
    | with_reducible assumption
    | with_reducible apply cwStep_does
    | with_reducible apply onTask_does
    | with_reducible apply onlyIf_does
    | ((with_reducible refine partsIn_trans ?_ hA); exact rfl)
    | ((with_reducible refine listed_code ?_ hA); exact rfl)
    | exact fun (h : Sparse.wf _ _ = true) => h
    | with_reducible apply next_does
    | with_reducible apply id_does
    | with_reducible apply ite_does
    | with_reducible apply iteO_does
    | (apply Sparse.wf_set; assumption)
    | exact rfl
    | intro _
    | dsimp only
    | split
    | with_reducible apply upd_exe

theorem startNext_does {A : List Part} {b₀ : State}  (s : State) 
    (hD : Does A b₀ s) (hA : partsIn [.exe, .pair, .out] A = true) : Does A b₀ (startNext s) := by
  unfold startNext
  repeat' first
    | with_reducible assumption
    | with_reducible apply runTask_does
    | ((with_reducible refine partsIn_trans ?_ hA); exact rfl)
    | ((with_reducible refine listed_code ?_ hA); exact rfl)
    | exact fun (h : Sparse.wf _ _ = true) => h
    | with_reducible apply next_does
    | with_reducible apply id_does
    | with_reducible apply ite_does
    | with_reducible apply iteO_does
    | (apply Sparse.wf_set; assumption)
    | exact rfl
    | intro _
    | dsimp only
    | split

theorem preempt_does {A : List Part} {b₀ : State}  (s : State) 
    (hD : Does A b₀ s) (hA : partsIn [.exe, .pair, .out] A = true) : Does A b₀ (preempt s) := by
  unfold preempt
  repeat' first
    | with_reducible assumption
    | with_reducible apply cwStep_does
    | with_reducible apply onTask_does
    | with_reducible apply startNext_does
    | ((with_reducible refine partsIn_trans ?_ hA); exact rfl)
    | ((with_reducible refine listed_code ?_ hA); exact rfl)
    | exact fun (h : Sparse.wf _ _ = true) => h
    | with_reducible apply next_does
    | with_reducible apply id_does
    | with_reducible apply ite_does
    | with_reducible apply iteO_does
    | (apply Sparse.wf_set; assumption)
    | exact rfl
    | intro _
    | dsimp only
    | split
    | with_reducible apply upd_exe

theorem releaseTask_does {A : List Part} {b₀ : State} (t : Nat) (at_ : Nat) (s : State) 
    (hD : Does A b₀ s) (hA : partsIn [.block 0x03, .block 0x05, .free, .strand, .exe, .dio, .mbx, .out] A = true) : Does A b₀ (releaseTask t at_ s) := by
  unfold releaseTask
  repeat' first
    | with_reducible assumption
    | with_reducible apply bellToTag_does
    | with_reducible apply onTask_does
    | with_reducible apply onlyIf_does
    | with_reducible apply slackEnd_does
    | ((with_reducible refine partsIn_trans ?_ hA); exact rfl)
    | ((with_reducible refine listed_code ?_ hA); exact rfl)
    | exact fun (h : Sparse.wf _ _ = true) => h
    | with_reducible apply next_does
    | with_reducible apply id_does
    | with_reducible apply ite_does
    | with_reducible apply iteO_does
    | (apply Sparse.wf_set; assumption)
    | exact rfl
    | intro _
    | dsimp only
    | split

theorem dueRelease_does {A : List Part} {b₀ : State} (t : Nat) (s : State) 
    (hD : Does A b₀ s) (hA : partsIn [.block 0x01, .block 0x02, .block 0x03, .block 0x05, .block 0x08, .block 0x09, .block 0x0A, .block 0x0C, .free, .strand, .backup, .tides, .seqs, .exe, .loop, .dio, .saf, .pair, .can, .fwu, .sup, .mbx, .out] A = true) : Does A b₀ (dueRelease t s) := by
  unfold dueRelease
  repeat' first
    | with_reducible assumption
    | with_reducible apply onTask_does
    | with_reducible apply overrun_does
    | with_reducible apply releaseTask_does
    | ((with_reducible refine partsIn_trans ?_ hA); exact rfl)
    | ((with_reducible refine listed_code ?_ hA); exact rfl)
    | exact fun (h : Sparse.wf _ _ = true) => h
    | with_reducible apply next_does
    | with_reducible apply id_does
    | with_reducible apply ite_does
    | with_reducible apply iteO_does
    | (apply Sparse.wf_set; assumption)
    | exact rfl
    | intro _
    | dsimp only
    | split
    | with_reducible apply upd_fwu

theorem heldRelease_does {A : List Part} {b₀ : State} (t : Nat) (s : State) 
    (hD : Does A b₀ s) (hA : partsIn [.block 0x03, .block 0x05, .free, .strand, .exe, .dio, .mbx, .out] A = true) : Does A b₀ (heldRelease t s) := by
  unfold heldRelease
  repeat' first
    | with_reducible assumption
    | with_reducible apply onTask_does
    | with_reducible apply releaseTask_does
    | ((with_reducible refine partsIn_trans ?_ hA); exact rfl)
    | ((with_reducible refine listed_code ?_ hA); exact rfl)
    | exact fun (h : Sparse.wf _ _ = true) => h
    | with_reducible apply next_does
    | with_reducible apply id_does
    | with_reducible apply ite_does
    | with_reducible apply iteO_does
    | (apply Sparse.wf_set; assumption)
    | exact rfl
    | intro _
    | dsimp only
    | split

theorem latchDone_does {A : List Part} {b₀ : State} (t : Nat) (s : State) 
    (hD : Does A b₀ s) (hA : partsIn [.exe, .pair, .out] A = true) : Does A b₀ (latchDone t s) := by
  unfold latchDone
  repeat' first
    | with_reducible assumption
    | with_reducible apply cwMirror_does
    | with_reducible apply onTask_does
    | with_reducible apply startNext_does
    | ((with_reducible refine partsIn_trans ?_ hA); exact rfl)
    | ((with_reducible refine listed_code ?_ hA); exact rfl)
    | exact fun (h : Sparse.wf _ _ = true) => h
    | with_reducible apply next_does
    | with_reducible apply id_does
    | with_reducible apply ite_does
    | with_reducible apply iteO_does
    | (apply Sparse.wf_set; assumption)
    | exact rfl
    | intro _
    | dsimp only
    | split

theorem noteCommit_does {A : List Part} {b₀ : State} (t : Nat) (crc : Word) (s : State) 
    (hD : Does A b₀ s) (hA : partsIn [.pair, .out] A = true) : Does A b₀ (noteCommit t crc s) := by
  unfold noteCommit
  repeat' first
    | with_reducible assumption
    | with_reducible apply cwSend_does
    | with_reducible apply onlyIf_does
    | ((with_reducible refine partsIn_trans ?_ hA); exact rfl)
    | ((with_reducible refine listed_code ?_ hA); exact rfl)
    | exact fun (h : Sparse.wf _ _ = true) => h
    | with_reducible apply next_does
    | with_reducible apply id_does
    | with_reducible apply ite_does
    | with_reducible apply iteO_does
    | (apply Sparse.wf_set; assumption)
    | exact rfl
    | intro _
    | dsimp only
    | split
    | with_reducible apply upd_pair

theorem commitTask_does {A : List Part} {b₀ : State} (t : Nat) (s : State) 
    (hD : Does A b₀ s) (hA : partsIn [.block 0x03, .block 0x05, .block 0x0A, .free, .strand, .exe, .dio, .pair, .net, .can, .out] A = true) : Does A b₀ (commitTask t s) := by
  unfold commitTask
  repeat' first
    | with_reducible assumption
    | with_reducible apply bump_does
    | with_reducible apply canCommit_does
    | with_reducible apply forAll_does
    | with_reducible apply gooseCommit_does
    | with_reducible apply noteCommit_does
    | with_reducible apply onTask_does
    | with_reducible apply setFld_does
    | with_reducible apply slackBegin_does
    | with_reducible apply tagStore_does
    | ((with_reducible refine listed_block 3 ?_ ?_ hA); first | omega | (dsimp only [Fld.TASKt_COUNTS_CYCLES, Fld.TASKt_EXEC_MAX_US, Fld.TASKt_EXEC_US, Fld.TRIAD_HEALTH_SINCE]; omega) | (dsimp only [Fld.TASKt_COUNTS_CYCLES, Fld.TASKt_EXEC_MAX_US, Fld.TASKt_EXEC_US, Fld.TRIAD_HEALTH_SINCE]; split <;> omega); exact rfl)
    | ((with_reducible refine listed_block 5 ?_ ?_ hA); first | omega | (dsimp only [Fld.TASKt_COUNTS_CYCLES, Fld.TASKt_EXEC_MAX_US, Fld.TASKt_EXEC_US, Fld.TRIAD_HEALTH_SINCE]; omega) | (dsimp only [Fld.TASKt_COUNTS_CYCLES, Fld.TASKt_EXEC_MAX_US, Fld.TASKt_EXEC_US, Fld.TRIAD_HEALTH_SINCE]; split <;> omega); exact rfl)
    | ((with_reducible refine listed_block 10 ?_ ?_ hA); first | omega | (dsimp only [Fld.TASKt_COUNTS_CYCLES, Fld.TASKt_EXEC_MAX_US, Fld.TASKt_EXEC_US, Fld.TRIAD_HEALTH_SINCE]; omega) | (dsimp only [Fld.TASKt_COUNTS_CYCLES, Fld.TASKt_EXEC_MAX_US, Fld.TASKt_EXEC_US, Fld.TRIAD_HEALTH_SINCE]; split <;> omega); exact rfl)
    | ((with_reducible refine partsIn_trans ?_ hA); exact rfl)
    | ((with_reducible refine listed_code ?_ hA); exact rfl)
    | exact fun (h : Sparse.wf _ _ = true) => h
    | with_reducible apply next_does
    | with_reducible apply id_does
    | with_reducible apply ite_does
    | with_reducible apply iteO_does
    | (apply Sparse.wf_set; assumption)
    | exact rfl
    | intro _
    | dsimp only
    | split

end Sys2Proof.Machine
end

