-- ==== Sys2Proof/Laws/OnlyRfx.lean ====
section
/-! SUPPORT. What each operation of Machine/Rfx.lean can do: the parts of the state it may change, and that it keeps
canonical form. -/
namespace Sys2Proof.Machine

theorem rfxReport_does {A : List Part} {b₀ : State} (j : Nat) (x : Term) (y : Term) (s : State) (t : State) 
    (hD : Does A b₀ t) (hA : partsIn [.block 0x07, .free, .strand, .out] A = true) : Does A b₀ (rfxReport j x y s t) := by
  unfold rfxReport
  repeat' first
    | with_reducible assumption
    | with_reducible apply onlyIf_does
    | with_reducible apply raiseF_does
    | with_reducible apply say_does
    | with_reducible apply sayD_does
    | with_reducible apply setBitAt_does
    | ((with_reducible refine partsIn_trans ?_ hA); exact rfl)
    | ((with_reducible refine listed_code ?_ hA); exact rfl)
    | exact fun (h : Sparse.wf _ _ = true) => h
    | with_reducible apply next_does
    | with_reducible apply id_does
    | with_reducible apply ite_does
    | with_reducible apply iteO_does
    | (apply Sparse.wf_set; assumption)
    | exact rfl
    | intro _
    | dsimp only
    | split

theorem rfxTerm_does {A : List Part} {b₀ : State} (j : Nat) (cmd : Bool) (s : State) (t : State) 
    (hD : Does A b₀ t) (hA : partsIn [.block 0x07, .free, .strand, .rfx, .out] A = true) : Does A b₀ (rfxTerm j cmd s t) := by
  unfold rfxTerm
  repeat' first
    | with_reducible assumption
    | with_reducible apply onTerm_does
    | with_reducible apply rfxReport_does
    | ((with_reducible refine partsIn_trans ?_ hA); exact rfl)
    | ((with_reducible refine listed_code ?_ hA); exact rfl)
    | exact fun (h : Sparse.wf _ _ = true) => h
    | with_reducible apply next_does
    | with_reducible apply id_does
    | with_reducible apply ite_does
    | with_reducible apply iteO_does
    | (apply Sparse.wf_set; assumption)
    | exact rfl
    | intro _
    | dsimp only
    | split

theorem rfxCycle_does {A : List Part} {b₀ : State}  (s : State) 
    (hD : Does A b₀ s) (hA : partsIn [.block 0x07, .free, .strand, .rfx, .out] A = true) : Does A b₀ (rfxCycle s) := by
  unfold rfxCycle
  repeat' first
    | with_reducible assumption
    | with_reducible apply forAll_does
    | with_reducible apply rfxTerm_does
    | ((with_reducible refine partsIn_trans ?_ hA); exact rfl)
    | ((with_reducible refine listed_code ?_ hA); exact rfl)
    | exact fun (h : Sparse.wf _ _ = true) => h
    | with_reducible apply next_does
    | with_reducible apply id_does
    | with_reducible apply ite_does
    | with_reducible apply iteO_does
    | (apply Sparse.wf_set; assumption)
    | exact rfl
    | intro _
    | dsimp only
    | split

theorem execRfxWrite_does {A : List Part} {b₀ : State}  (s : State) 
    (hD : Does A b₀ s) (hA : partsIn [.block 0x07, .block 0x0F, .free, .strand, .rfx, .out] A = true) : DoesO A b₀ (execRfxWrite s) := by
  unfold execRfxWrite
  repeat' first
    | with_reducible assumption
    | with_reducible apply hostCmd_does
    | with_reducible apply onTerm_does
    | with_reducible apply raiseF_does
    | with_reducible apply result_does
    | with_reducible apply wr_does
    | ((with_reducible refine listed_block 7 ?_ ?_ hA); first | omega | (dsimp only [Fld.RFX_EVENT_CFG_REFUSED, Fld.RFX_RESULT_STATUS, Fld.RFX_SEL_TERM, Reg.RFX_CMD, Reg.RFX_CRC, Reg.RFX_DATA, rfxSel]; omega) | (dsimp only [Fld.RFX_EVENT_CFG_REFUSED, Fld.RFX_RESULT_STATUS, Fld.RFX_SEL_TERM, Reg.RFX_CMD, Reg.RFX_CRC, Reg.RFX_DATA, rfxSel]; split <;> omega); exact rfl)
    | ((with_reducible refine listed_block 15 ?_ ?_ hA); first | omega | (dsimp only [Fld.RFX_EVENT_CFG_REFUSED, Fld.RFX_RESULT_STATUS, Fld.RFX_SEL_TERM, Reg.RFX_CMD, Reg.RFX_CRC, Reg.RFX_DATA, rfxSel]; omega) | (dsimp only [Fld.RFX_EVENT_CFG_REFUSED, Fld.RFX_RESULT_STATUS, Fld.RFX_SEL_TERM, Reg.RFX_CMD, Reg.RFX_CRC, Reg.RFX_DATA, rfxSel]; split <;> omega); exact rfl)
    | ((with_reducible refine partsIn_trans ?_ hA); exact rfl)
    | ((with_reducible refine listed_code ?_ hA); exact rfl)
    | exact fun (h : Sparse.wf _ _ = true) => h
    | with_reducible apply next_does
    | with_reducible apply id_does
    | with_reducible apply ite_does
    | with_reducible apply iteO_does
    | (apply Sparse.wf_set; assumption)
    | exact rfl
    | intro _
    | dsimp only
    | split

theorem execRfxRead_does {A : List Part} {b₀ : State}  (s : State) 
    (hD : Does A b₀ s) (hA : partsIn [.block 0x07, .block 0x0F, .free, .strand, .out] A = true) : DoesO A b₀ (execRfxRead s) := by
  unfold execRfxRead
  repeat' first
    | with_reducible assumption
    | with_reducible apply forAll_does
    | with_reducible apply hostCmd_does
    | with_reducible apply result_does
    | with_reducible apply wr_does
    | ((with_reducible refine listed_block 7 ?_ ?_ hA); first | omega | (dsimp only [Fld.RFX_RESULT_STATUS, Fld.RFX_SEL_TERM, Reg.RFX_CMD, Reg.RFX_DATA, rfxSel]; omega) | (dsimp only [Fld.RFX_RESULT_STATUS, Fld.RFX_SEL_TERM, Reg.RFX_CMD, Reg.RFX_DATA, rfxSel]; split <;> omega); exact rfl)
    | ((with_reducible refine listed_block 15 ?_ ?_ hA); first | omega | (dsimp only [Fld.RFX_RESULT_STATUS, Fld.RFX_SEL_TERM, Reg.RFX_CMD, Reg.RFX_DATA, rfxSel]; omega) | (dsimp only [Fld.RFX_RESULT_STATUS, Fld.RFX_SEL_TERM, Reg.RFX_CMD, Reg.RFX_DATA, rfxSel]; split <;> omega); exact rfl)
    | ((with_reducible refine partsIn_trans ?_ hA); exact rfl)
    | ((with_reducible refine listed_code ?_ hA); exact rfl)
    | exact fun (h : Sparse.wf _ _ = true) => h
    | with_reducible apply next_does
    | with_reducible apply id_does
    | with_reducible apply ite_does
    | with_reducible apply iteO_does
    | (apply Sparse.wf_set; assumption)
    | exact rfl
    | intro _
    | dsimp only
    | split

theorem execRfxDisable_does {A : List Part} {b₀ : State}  (s : State) 
    (hD : Does A b₀ s) (hA : partsIn [.block 0x07, .block 0x0F, .free, .strand, .rfx, .out] A = true) : DoesO A b₀ (execRfxDisable s) := by
  unfold execRfxDisable
  repeat' first
    | with_reducible assumption
    | with_reducible apply hostCmd_does
    | with_reducible apply onTerm_does
    | with_reducible apply result_does
    | with_reducible apply wr_does
    | ((with_reducible refine listed_block 7 ?_ ?_ hA); first | omega | (dsimp only [Fld.RFX_RESULT_STATUS, Fld.RFX_SEL_TERM, Reg.RFX_CMD, Reg.RFX_CRC, rfxSel]; omega) | (dsimp only [Fld.RFX_RESULT_STATUS, Fld.RFX_SEL_TERM, Reg.RFX_CMD, Reg.RFX_CRC, rfxSel]; split <;> omega); exact rfl)
    | ((with_reducible refine listed_block 15 ?_ ?_ hA); first | omega | (dsimp only [Fld.RFX_RESULT_STATUS, Fld.RFX_SEL_TERM, Reg.RFX_CMD, Reg.RFX_CRC, rfxSel]; omega) | (dsimp only [Fld.RFX_RESULT_STATUS, Fld.RFX_SEL_TERM, Reg.RFX_CMD, Reg.RFX_CRC, rfxSel]; split <;> omega); exact rfl)
    | ((with_reducible refine partsIn_trans ?_ hA); exact rfl)
    | ((with_reducible refine listed_code ?_ hA); exact rfl)
    | exact fun (h : Sparse.wf _ _ = true) => h
    | with_reducible apply next_does
    | with_reducible apply id_does
    | with_reducible apply ite_does
    | with_reducible apply iteO_does
    | (apply Sparse.wf_set; assumption)
    | exact rfl
    | intro _
    | dsimp only
    | split

theorem execRfxResetLatch_does {A : List Part} {b₀ : State}  (s : State) 
    (hD : Does A b₀ s) (hA : partsIn [.block 0x07, .block 0x0F, .free, .strand, .rfx, .out] A = true) : DoesO A b₀ (execRfxResetLatch s) := by
  unfold execRfxResetLatch
  repeat' first
    | with_reducible assumption
    | with_reducible apply hostCmd_does
    | with_reducible apply onlyIf_does
    | with_reducible apply result_does
    | with_reducible apply rfxTerm_does
    | ((with_reducible refine listed_block 7 ?_ ?_ hA); first | omega | (dsimp only [Fld.RFX_RESULT_STATUS, Fld.RFX_SEL_TERM, Reg.RFX_CMD, rfxSel]; omega) | (dsimp only [Fld.RFX_RESULT_STATUS, Fld.RFX_SEL_TERM, Reg.RFX_CMD, rfxSel]; split <;> omega); exact rfl)
    | ((with_reducible refine listed_block 15 ?_ ?_ hA); first | omega | (dsimp only [Fld.RFX_RESULT_STATUS, Fld.RFX_SEL_TERM, Reg.RFX_CMD, rfxSel]; omega) | (dsimp only [Fld.RFX_RESULT_STATUS, Fld.RFX_SEL_TERM, Reg.RFX_CMD, rfxSel]; split <;> omega); exact rfl)
    | ((with_reducible refine partsIn_trans ?_ hA); exact rfl)
    | ((with_reducible refine listed_code ?_ hA); exact rfl)
    | exact fun (h : Sparse.wf _ _ = true) => h
    | with_reducible apply next_does
    | with_reducible apply id_does
    | with_reducible apply ite_does
    | with_reducible apply iteO_does
    | (apply Sparse.wf_set; assumption)
    | exact rfl
    | intro _
    | dsimp only
    | split

theorem execRfxCrcCheck_does {A : List Part} {b₀ : State} (ok : Bool) (s : State) 
    (hD : Does A b₀ s) (hA : partsIn [.block 0x01, .block 0x02, .block 0x03, .block 0x05, .block 0x07, .block 0x08, .block 0x09, .block 0x0A, .block 0x0C, .free, .strand, .backup, .tides, .seqs, .exe, .loop, .dio, .rfx, .saf, .pair, .can, .sup, .mbx, .out] A = true) : DoesO A b₀ (execRfxCrcCheck ok s) := by
  unfold execRfxCrcCheck
  repeat' first
    | with_reducible assumption
    | with_reducible apply enterFallback_does
    | with_reducible apply raiseF_does
    | with_reducible apply say_does
    | ((with_reducible refine partsIn_trans ?_ hA); exact rfl)
    | ((with_reducible refine listed_code ?_ hA); exact rfl)
    | exact fun (h : Sparse.wf _ _ = true) => h
    | with_reducible apply next_does
    | with_reducible apply id_does
    | with_reducible apply ite_does
    | with_reducible apply iteO_does
    | (apply Sparse.wf_set; assumption)
    | exact rfl
    | intro _
    | dsimp only
    | split
    | with_reducible apply upd_rfxStopped

theorem execReflexRecord_does {A : List Part} {b₀ : State} (latches : BitVec 64) (s : State) 
    (hD : Does A b₀ s) (hA : partsIn [.rfx] A = true) : DoesO A b₀ (execReflexRecord latches s) := by
  unfold execReflexRecord
  repeat' first
    | with_reducible assumption
    | with_reducible apply forAll_does
    | with_reducible apply onTerm_does
    | ((with_reducible refine partsIn_trans ?_ hA); exact rfl)
    | ((with_reducible refine listed_code ?_ hA); exact rfl)
    | exact fun (h : Sparse.wf _ _ = true) => h
    | with_reducible apply next_does
    | with_reducible apply id_does
    | with_reducible apply ite_does
    | with_reducible apply iteO_does
    | (apply Sparse.wf_set; assumption)
    | exact rfl
    | intro _
    | dsimp only
    | split

theorem rfxSwapCheck_does {A : List Part} {b₀ : State}  (s : State) 
    (hD : Does A b₀ s) (hA : partsIn [.block 0x07, .free, .strand, .rfx, .out] A = true) : Does A b₀ (rfxSwapCheck s) := by
  unfold rfxSwapCheck
  repeat' first
    | with_reducible assumption
    | with_reducible apply forAll_does
    | with_reducible apply onTerm_does
    | with_reducible apply raiseF_does
    | with_reducible apply say_does
    | ((with_reducible refine partsIn_trans ?_ hA); exact rfl)
    | ((with_reducible refine listed_code ?_ hA); exact rfl)
    | exact fun (h : Sparse.wf _ _ = true) => h
    | with_reducible apply next_does
    | with_reducible apply id_does
    | with_reducible apply ite_does
    | with_reducible apply iteO_does
    | (apply Sparse.wf_set; assumption)
    | exact rfl
    | intro _
    | dsimp only
    | split

end Sys2Proof.Machine
end

