-- ==== Sys2Proof/Laws/OnlyImage.lean ====
section
/-! SUPPORT. What each operation of Machine/Image.lean can do: the parts of the state it may change, and that it keeps
canonical form. -/
namespace Sys2Proof.Machine

theorem paintTags_does {A : List Part} {b₀ : State} (m : Image) (s : State) 
    (hD : Does A b₀ s) (hA : partsIn [.block 0x0F, .mpu] A = true) : Does A b₀ (paintTags m s) := by
  unfold paintTags
  repeat' first
    | with_reducible assumption
    | with_reducible apply setFld_does
    | ((with_reducible refine partsIn_trans ?_ hA); exact rfl)
    | ((with_reducible refine listed_code ?_ hA); exact rfl)
    | exact fun (h : Sparse.wf _ _ = true) => h
    | with_reducible apply next_does
    | with_reducible apply id_does
    | with_reducible apply ite_does
    | with_reducible apply iteO_does
    | (apply Sparse.wf_set; assumption)
    | exact rfl
    | intro _
    | dsimp only
    | split
    | with_reducible apply upd_mpu

theorem reportDrops_does {A : List Part} {b₀ : State} (dropped : List Nat) (reset : List Nat) (s : State) 
    (hD : Does A b₀ s) (hA : partsIn [.block 0x03, .strand, .out] A = true) : Does A b₀ (reportDrops dropped reset s) := by
  unfold reportDrops
  repeat' first
    | with_reducible assumption
    | with_reducible apply forAll_does
    | with_reducible apply raiseF_does
    | with_reducible apply sayD_does
    | with_reducible apply wr_does
    | ((with_reducible refine partsIn_trans ?_ hA); exact rfl)
    | ((with_reducible refine listed_code ?_ hA); exact rfl)
    | exact fun (h : Sparse.wf _ _ = true) => h
    | with_reducible apply next_does
    | with_reducible apply id_does
    | with_reducible apply ite_does
    | with_reducible apply iteO_does
    | (apply Sparse.wf_set; assumption)
    | exact rfl
    | intro _
    | dsimp only
    | split

theorem switchTo_does {A : List Part} {b₀ : State} (m : Image) (carry : Bool) (s : State) 
    (hD : Does A b₀ s) (hA : partsIn [.block 0x00, .block 0x03, .block 0x04, .block 0x05, .block 0x07, .block 0x0B, .block 0x0F, .free, .strand, .exe, .loop, .dio, .rfx, .net, .can, .mpu, .out] A = true) : Does A b₀ (switchTo m carry s) := by
  unfold switchTo
  repeat' first
    | with_reducible assumption
    | with_reducible apply canSwapCheck_does
    | with_reducible apply dioReenTag_does
    | with_reducible apply forAll_does
    | with_reducible apply gseSwapCheck_does
    | with_reducible apply loopSwapCheck_does
    | with_reducible apply paintTags_does
    | with_reducible apply reportDrops_does
    | with_reducible apply rfxSwapCheck_does
    | with_reducible apply setFlag_does
    | with_reducible apply wr_does
    | ((with_reducible refine partsIn_trans ?_ hA); exact rfl)
    | ((with_reducible refine listed_code ?_ hA); exact rfl)
    | exact fun (h : Sparse.wf _ _ = true) => h
    | with_reducible apply next_does
    | with_reducible apply id_does
    | with_reducible apply ite_does
    | with_reducible apply iteO_does
    | (apply Sparse.wf_set; assumption)
    | exact Sparse.wf_foldl_set _ _ _ rfl
    | exact rfl
    | intro _
    | dsimp only
    | split
    | with_reducible apply upd_exe

theorem changeResult_does {A : List Part} {b₀ : State} (st : Status) (s : State) 
    (hD : Does A b₀ s) (hA : partsIn [.block 0x03, .free, .strand, .out] A = true) : Does A b₀ (changeResult st s) := by
  unfold changeResult
  repeat' first
    | with_reducible assumption
    | with_reducible apply result_does
    | ((with_reducible refine partsIn_trans ?_ hA); exact rfl)
    | ((with_reducible refine listed_code ?_ hA); exact rfl)
    | exact fun (h : Sparse.wf _ _ = true) => h
    | with_reducible apply next_does
    | with_reducible apply id_does
    | with_reducible apply ite_does
    | with_reducible apply iteO_does
    | (apply Sparse.wf_set; assumption)
    | exact rfl
    | intro _
    | dsimp only
    | split

theorem changeRefuse_does {A : List Part} {b₀ : State} (st : Status) (s : State) 
    (hD : Does A b₀ s) (hA : partsIn [.block 0x03, .free, .strand, .out] A = true) : Does A b₀ (changeRefuse st s) := by
  unfold changeRefuse
  repeat' first
    | with_reducible assumption
    | with_reducible apply changeResult_does
    | with_reducible apply raiseF_does
    | ((with_reducible refine partsIn_trans ?_ hA); exact rfl)
    | ((with_reducible refine listed_code ?_ hA); exact rfl)
    | exact fun (h : Sparse.wf _ _ = true) => h
    | with_reducible apply next_does
    | with_reducible apply id_does
    | with_reducible apply ite_does
    | with_reducible apply iteO_does
    | (apply Sparse.wf_set; assumption)
    | exact rfl
    | intro _
    | dsimp only
    | split

theorem standbyRefuse_does {A : List Part} {b₀ : State} (f : RegField) (s : State) (hp_f : (Part.block (f.addr / 65536)).listed A = true)
    (hD : Does A b₀ s) (hA : partsIn [.block 0x09, .free, .strand, .out] A = true) : Does A b₀ (standbyRefuse f s) := by
  unfold standbyRefuse
  repeat' first
    | with_reducible assumption
    | with_reducible exact hp_f
    | with_reducible apply raiseF_does
    | with_reducible apply result_does
    | ((with_reducible refine partsIn_trans ?_ hA); exact rfl)
    | ((with_reducible refine listed_code ?_ hA); exact rfl)
    | exact fun (h : Sparse.wf _ _ = true) => h
    | with_reducible apply next_does
    | with_reducible apply id_does
    | with_reducible apply ite_does
    | with_reducible apply iteO_does
    | (apply Sparse.wf_set; assumption)
    | exact rfl
    | intro _
    | dsimp only
    | split

theorem changeOp_does {A : List Part} {b₀ : State} (f : State → State) (s : State) (h_f : ∀ u, Does A b₀ u → Does A b₀ (f u))
    (hD : Does A b₀ s) (hA : partsIn [.block 0x03, .block 0x09, .block 0x0F, .free, .strand, .out] A = true) : Does A b₀ (changeOp f s) := by
  unfold changeOp
  repeat' first
    | with_reducible assumption
    | with_reducible apply h_f
    | with_reducible apply hostCmd_does
    | with_reducible apply raiseF_does
    | with_reducible apply standbyRefuse_does
    | ((with_reducible refine partsIn_trans ?_ hA); exact rfl)
    | ((with_reducible refine listed_code ?_ hA); exact rfl)
    | exact fun (h : Sparse.wf _ _ = true) => h
    | with_reducible apply next_does
    | with_reducible apply id_does
    | with_reducible apply ite_does
    | with_reducible apply iteO_does
    | (apply Sparse.wf_set; assumption)
    | exact rfl
    | intro _
    | dsimp only
    | split

theorem changeStart_does {A : List Part} {b₀ : State} (b : ChangeBusy) (ph : ChangePhase) (need : Nat) (s : State) 
    (hD : Does A b₀ s) (hA : partsIn [.exe] A = true) : Does A b₀ (changeStart b ph need s) := by
  unfold changeStart
  repeat' first
    | with_reducible assumption
    | ((with_reducible refine partsIn_trans ?_ hA); exact rfl)
    | ((with_reducible refine listed_code ?_ hA); exact rfl)
    | exact fun (h : Sparse.wf _ _ = true) => h
    | with_reducible apply next_does
    | with_reducible apply id_does
    | with_reducible apply ite_does
    | with_reducible apply iteO_does
    | (apply Sparse.wf_set; assumption)
    | exact rfl
    | intro _
    | dsimp only
    | split
    | with_reducible apply upd_exe

theorem changeEnd_does {A : List Part} {b₀ : State} (ph : ChangePhase) (st : Status) (s : State) 
    (hD : Does A b₀ s) (hA : partsIn [.block 0x03, .free, .strand, .exe, .out] A = true) : Does A b₀ (changeEnd ph st s) := by
  unfold changeEnd
  repeat' first
    | with_reducible assumption
    | with_reducible apply changeResult_does
    | ((with_reducible refine partsIn_trans ?_ hA); exact rfl)
    | ((with_reducible refine listed_code ?_ hA); exact rfl)
    | exact fun (h : Sparse.wf _ _ = true) => h
    | with_reducible apply next_does
    | with_reducible apply id_does
    | with_reducible apply ite_does
    | with_reducible apply iteO_does
    | (apply Sparse.wf_set; assumption)
    | exact rfl
    | intro _
    | dsimp only
    | split
    | with_reducible apply upd_exe

theorem changeDone_does {A : List Part} {b₀ : State} (ph : ChangePhase) (st : Status) (s : State) 
    (hD : Does A b₀ s) (hA : partsIn [.block 0x03, .free, .strand, .exe, .out] A = true) : Does A b₀ (changeDone ph st s) := by
  unfold changeDone
  repeat' first
    | with_reducible assumption
    | with_reducible apply changeEnd_does
    | with_reducible apply raiseF_does
    | ((with_reducible refine partsIn_trans ?_ hA); exact rfl)
    | ((with_reducible refine listed_code ?_ hA); exact rfl)
    | exact fun (h : Sparse.wf _ _ = true) => h
    | with_reducible apply next_does
    | with_reducible apply id_does
    | with_reducible apply ite_does
    | with_reducible apply iteO_does
    | (apply Sparse.wf_set; assumption)
    | exact rfl
    | intro _
    | dsimp only
    | split

theorem doSwap_does {A : List Part} {b₀ : State} (carry : Bool) (s : State) 
    (hD : Does A b₀ s) (hA : partsIn [.block 0x00, .block 0x03, .block 0x04, .block 0x05, .block 0x07, .block 0x0B, .block 0x0F, .free, .strand, .exe, .loop, .dio, .rfx, .net, .can, .mpu, .out] A = true) : Does A b₀ (doSwap carry s) := by
  unfold doSwap
  repeat' first
    | with_reducible assumption
    | with_reducible apply changeDone_does
    | with_reducible apply switchTo_does
    | ((with_reducible refine partsIn_trans ?_ hA); exact rfl)
    | ((with_reducible refine listed_code ?_ hA); exact rfl)
    | exact fun (h : Sparse.wf _ _ = true) => h
    | with_reducible apply next_does
    | with_reducible apply id_does
    | with_reducible apply ite_does
    | with_reducible apply iteO_does
    | (apply Sparse.wf_set; assumption)
    | exact rfl
    | intro _
    | dsimp only
    | split

theorem doRevert_does {A : List Part} {b₀ : State} (carry : Bool) (s : State) 
    (hD : Does A b₀ s) (hA : partsIn [.block 0x00, .block 0x03, .block 0x04, .block 0x05, .block 0x07, .block 0x0B, .block 0x0F, .free, .strand, .exe, .loop, .dio, .rfx, .net, .can, .mpu, .out] A = true) : Does A b₀ (doRevert carry s) := by
  unfold doRevert
  repeat' first
    | with_reducible assumption
    | with_reducible apply changeDone_does
    | with_reducible apply switchTo_does
    | ((with_reducible refine partsIn_trans ?_ hA); exact rfl)
    | ((with_reducible refine listed_code ?_ hA); exact rfl)
    | exact fun (h : Sparse.wf _ _ = true) => h
    | with_reducible apply next_does
    | with_reducible apply id_does
    | with_reducible apply ite_does
    | with_reducible apply iteO_does
    | (apply Sparse.wf_set; assumption)
    | exact rfl
    | intro _
    | dsimp only
    | split
    | with_reducible apply upd_exe

theorem changeTell_does {A : List Part} {b₀ : State} (op : Nat) (s : State) 
    (hD : Does A b₀ s) (hA : partsIn [.pair, .out] A = true) : Does A b₀ (changeTell op s) := by
  unfold changeTell
  repeat' first
    | with_reducible assumption
    | with_reducible apply cwMirror_does
    | ((with_reducible refine partsIn_trans ?_ hA); exact rfl)
    | ((with_reducible refine listed_code ?_ hA); exact rfl)
    | exact fun (h : Sparse.wf _ _ = true) => h
    | with_reducible apply next_does
    | with_reducible apply id_does
    | with_reducible apply ite_does
    | with_reducible apply iteO_does
    | (apply Sparse.wf_set; assumption)
    | exact rfl
    | intro _
    | dsimp only
    | split

theorem execChangeVerify_does {A : List Part} {b₀ : State}  (s : State) 
    (hD : Does A b₀ s) (hA : partsIn [.block 0x03, .block 0x0F, .free, .strand, .exe, .out] A = true) : DoesO A b₀ (execChangeVerify s) := by
  unfold execChangeVerify
  repeat' first
    | with_reducible assumption
    | with_reducible apply changeRefuse_does
    | with_reducible apply changeStart_does
    | with_reducible apply hostCmd_does
    | ((with_reducible refine partsIn_trans ?_ hA); exact rfl)
    | ((with_reducible refine listed_code ?_ hA); exact rfl)
    | exact fun (h : Sparse.wf _ _ = true) => h
    | with_reducible apply next_does
    | with_reducible apply id_does
    | with_reducible apply ite_does
    | with_reducible apply iteO_does
    | (apply Sparse.wf_set; assumption)
    | exact rfl
    | intro _
    | dsimp only
    | split

theorem loadData_does {A : List Part} {b₀ : State} (m : Image) (s : State) 
    (hD : Does A b₀ s) (hA : partsIn [.mem] A = true) : Does A b₀ (loadData m s) := by
  unfold loadData
  repeat' first
    | with_reducible assumption
    | with_reducible apply forAll_does
    | with_reducible apply mclear_does
    | with_reducible apply mset_does
    | ((with_reducible refine partsIn_trans ?_ hA); exact rfl)
    | ((with_reducible refine listed_code ?_ hA); exact rfl)
    | exact fun (h : Sparse.wf _ _ = true) => h
    | with_reducible apply next_does
    | with_reducible apply id_does
    | with_reducible apply ite_does
    | with_reducible apply iteO_does
    | (apply Sparse.wf_set; assumption)
    | exact rfl
    | intro _
    | dsimp only
    | split

theorem execChangeVerifyDone_does {A : List Part} {b₀ : State} (img : Image) (sound : Bool) (legal : Bool) (s : State) 
    (hD : Does A b₀ s) (hA : partsIn [.block 0x03, .free, .mem, .strand, .exe, .pair, .out] A = true) : DoesO A b₀ (execChangeVerifyDone img sound legal s) := by
  unfold execChangeVerifyDone
  repeat' first
    | with_reducible assumption
    | with_reducible apply changeEnd_does
    | with_reducible apply changeRefuse_does
    | with_reducible apply cwSend_does
    | with_reducible apply loadData_does
    | ((with_reducible refine partsIn_trans ?_ hA); exact rfl)
    | ((with_reducible refine listed_code ?_ hA); exact rfl)
    | exact fun (h : Sparse.wf _ _ = true) => h
    | with_reducible apply next_does
    | with_reducible apply id_does
    | with_reducible apply ite_does
    | with_reducible apply iteO_does
    | (apply Sparse.wf_set; assumption)
    | exact rfl
    | intro _
    | dsimp only
    | split
    | with_reducible apply upd_exe

theorem execChangeArm_does {A : List Part} {b₀ : State}  (s : State) 
    (hD : Does A b₀ s) (hA : partsIn [.block 0x00, .block 0x03, .block 0x04, .block 0x05, .block 0x07, .block 0x09, .block 0x0B, .block 0x0F, .free, .strand, .exe, .loop, .dio, .rfx, .pair, .net, .can, .mpu, .out] A = true) : DoesO A b₀ (execChangeArm s) := by
  unfold execChangeArm
  repeat' first
    | with_reducible assumption
    | with_reducible apply changeOp_does
    | with_reducible apply changeRefuse_does
    | with_reducible apply changeStart_does
    | with_reducible apply changeTell_does
    | with_reducible apply doSwap_does
    | with_reducible apply setFld_does
    | ((with_reducible refine partsIn_trans ?_ hA); exact rfl)
    | ((with_reducible refine listed_code ?_ hA); exact rfl)
    | exact fun (h : Sparse.wf _ _ = true) => h
    | with_reducible apply next_does
    | with_reducible apply id_does
    | with_reducible apply ite_does
    | with_reducible apply iteO_does
    | (apply Sparse.wf_set; assumption)
    | exact rfl
    | intro _
    | dsimp only
    | split

theorem execChangeCancel_does {A : List Part} {b₀ : State} (switching : Bool) (s : State) 
    (hD : Does A b₀ s) (hA : partsIn [.block 0x03, .block 0x09, .block 0x0F, .free, .strand, .exe, .pair, .out] A = true) : DoesO A b₀ (execChangeCancel switching s) := by
  unfold execChangeCancel
  repeat' first
    | with_reducible assumption
    | with_reducible apply changeEnd_does
    | with_reducible apply changeRefuse_does
    | with_reducible apply changeTell_does
    | with_reducible apply hostCmd_does
    | with_reducible apply raiseF_does
    | with_reducible apply standbyRefuse_does
    | ((with_reducible refine partsIn_trans ?_ hA); exact rfl)
    | ((with_reducible refine listed_code ?_ hA); exact rfl)
    | exact fun (h : Sparse.wf _ _ = true) => h
    | with_reducible apply next_does
    | with_reducible apply id_does
    | with_reducible apply ite_does
    | with_reducible apply iteO_does
    | (apply Sparse.wf_set; assumption)
    | exact rfl
    | intro _
    | dsimp only
    | split
    | with_reducible apply upd_exe

theorem execChangeRevert_does {A : List Part} {b₀ : State}  (s : State) 
    (hD : Does A b₀ s) (hA : partsIn [.block 0x00, .block 0x03, .block 0x04, .block 0x05, .block 0x07, .block 0x09, .block 0x0B, .block 0x0F, .free, .strand, .exe, .loop, .dio, .rfx, .pair, .net, .can, .mpu, .out] A = true) : DoesO A b₀ (execChangeRevert s) := by
  unfold execChangeRevert
  repeat' first
    | with_reducible assumption
    | with_reducible apply changeOp_does
    | with_reducible apply changeRefuse_does
    | with_reducible apply changeStart_does
    | with_reducible apply changeTell_does
    | with_reducible apply doRevert_does
    | with_reducible apply setFld_does
    | ((with_reducible refine partsIn_trans ?_ hA); exact rfl)
    | ((with_reducible refine listed_code ?_ hA); exact rfl)
    | exact fun (h : Sparse.wf _ _ = true) => h
    | with_reducible apply next_does
    | with_reducible apply id_does
    | with_reducible apply ite_does
    | with_reducible apply iteO_does
    | (apply Sparse.wf_set; assumption)
    | exact rfl
    | intro _
    | dsimp only
    | split

theorem execChangeCommit_does {A : List Part} {b₀ : State}  (s : State) 
    (hD : Does A b₀ s) (hA : partsIn [.block 0x03, .block 0x09, .block 0x0F, .free, .strand, .exe, .pair, .out] A = true) : DoesO A b₀ (execChangeCommit s) := by
  unfold execChangeCommit
  repeat' first
    | with_reducible assumption
    | with_reducible apply changeEnd_does
    | with_reducible apply changeOp_does
    | with_reducible apply changeRefuse_does
    | with_reducible apply changeTell_does
    | ((with_reducible refine partsIn_trans ?_ hA); exact rfl)
    | ((with_reducible refine listed_code ?_ hA); exact rfl)
    | exact fun (h : Sparse.wf _ _ = true) => h
    | with_reducible apply next_does
    | with_reducible apply id_does
    | with_reducible apply ite_does
    | with_reducible apply iteO_does
    | (apply Sparse.wf_set; assumption)
    | exact rfl
    | intro _
    | dsimp only
    | split
    | with_reducible apply upd_exe

theorem execChangeValues_does {A : List Part} {b₀ : State}  (s : State) 
    (hD : Does A b₀ s) (hA : partsIn [.block 0x03, .block 0x09, .block 0x0F, .free, .strand, .exe, .out] A = true) : DoesO A b₀ (execChangeValues s) := by
  unfold execChangeValues
  repeat' first
    | with_reducible assumption
    | with_reducible apply changeOp_does
    | with_reducible apply changeRefuse_does
    | with_reducible apply changeStart_does
    | ((with_reducible refine partsIn_trans ?_ hA); exact rfl)
    | ((with_reducible refine listed_code ?_ hA); exact rfl)
    | exact fun (h : Sparse.wf _ _ = true) => h
    | with_reducible apply next_does
    | with_reducible apply id_does
    | with_reducible apply ite_does
    | with_reducible apply iteO_does
    | (apply Sparse.wf_set; assumption)
    | exact rfl
    | intro _
    | dsimp only
    | split

theorem execValuesCheckDone_does {A : List Part} {b₀ : State}  (s : State) 
    (hD : Does A b₀ s) (hA : partsIn [.block 0x03, .free, .strand, .exe, .pair, .out] A = true) : DoesO A b₀ (execValuesCheckDone s) := by
  unfold execValuesCheckDone
  repeat' first
    | with_reducible assumption
    | with_reducible apply changeRefuse_does
    | with_reducible apply cwMirror_does
    | ((with_reducible refine partsIn_trans ?_ hA); exact rfl)
    | ((with_reducible refine listed_code ?_ hA); exact rfl)
    | exact fun (h : Sparse.wf _ _ = true) => h
    | with_reducible apply next_does
    | with_reducible apply id_does
    | with_reducible apply ite_does
    | with_reducible apply iteO_does
    | (apply Sparse.wf_set; assumption)
    | exact rfl
    | intro _
    | dsimp only
    | split
    | with_reducible apply upd_exe

theorem applyEntry_does {A : List Part} {b₀ : State} (e : Nat × Nat × DWord) (s : State) 
    (hD : Does A b₀ s) (hA : partsIn [.block 0x05, .free, .strand, .exe, .dio, .out] A = true) : Does A b₀ (applyEntry e s) := by
  unfold applyEntry
  repeat' first
    | with_reducible assumption
    | with_reducible apply tagStore_does
    | ((with_reducible refine partsIn_trans ?_ hA); exact rfl)
    | ((with_reducible refine listed_code ?_ hA); exact rfl)
    | exact fun (h : Sparse.wf _ _ = true) => h
    | with_reducible apply next_does
    | with_reducible apply id_does
    | with_reducible apply ite_does
    | with_reducible apply iteO_does
    | (apply Sparse.wf_set; assumption)
    | exact rfl
    | intro _
    | dsimp only
    | split
    | with_reducible apply upd_exe

theorem changeSync_does {A : List Part} {b₀ : State}  (s : State) 
    (hD : Does A b₀ s) (hA : partsIn [.block 0x09, .free, .strand, .exe, .pair, .out] A = true) : Does A b₀ (changeSync s) := by
  unfold changeSync
  repeat' first
    | with_reducible assumption
    | with_reducible apply syncStart_does
    | ((with_reducible refine listed_block 9 ?_ ?_ hA); first | omega | (dsimp only [Fld.PAIR_STATE_STATE, pairState]; omega) | (dsimp only [Fld.PAIR_STATE_STATE, pairState]; split <;> omega); exact rfl)
    | ((with_reducible refine partsIn_trans ?_ hA); exact rfl)
    | ((with_reducible refine listed_code ?_ hA); exact rfl)
    | exact fun (h : Sparse.wf _ _ = true) => h
    | with_reducible apply next_does
    | with_reducible apply id_does
    | with_reducible apply ite_does
    | with_reducible apply iteO_does
    | (apply Sparse.wf_set; assumption)
    | exact rfl
    | intro _
    | dsimp only
    | split

theorem execImageSwap_does {A : List Part} {b₀ : State}  (s : State) 
    (hD : Does A b₀ s) (hA : partsIn [.block 0x00, .block 0x03, .block 0x04, .block 0x05, .block 0x07, .block 0x09, .block 0x0B, .block 0x0F, .free, .strand, .exe, .loop, .dio, .rfx, .pair, .net, .can, .mpu, .out] A = true) : DoesO A b₀ (execImageSwap s) := by
  unfold execImageSwap
  repeat' first
    | with_reducible assumption
    | with_reducible apply changeSync_does
    | with_reducible apply doSwap_does
    | ((with_reducible refine partsIn_trans ?_ hA); exact rfl)
    | ((with_reducible refine listed_code ?_ hA); exact rfl)
    | exact fun (h : Sparse.wf _ _ = true) => h
    | with_reducible apply next_does
    | with_reducible apply id_does
    | with_reducible apply ite_does
    | with_reducible apply iteO_does
    | (apply Sparse.wf_set; assumption)
    | exact rfl
    | intro _
    | dsimp only
    | split

theorem execRevertSwitch_does {A : List Part} {b₀ : State}  (s : State) 
    (hD : Does A b₀ s) (hA : partsIn [.block 0x00, .block 0x03, .block 0x04, .block 0x05, .block 0x07, .block 0x09, .block 0x0B, .block 0x0F, .free, .strand, .exe, .loop, .dio, .rfx, .pair, .net, .can, .mpu, .out] A = true) : DoesO A b₀ (execRevertSwitch s) := by
  unfold execRevertSwitch
  repeat' first
    | with_reducible assumption
    | with_reducible apply changeSync_does
    | with_reducible apply doRevert_does
    | ((with_reducible refine partsIn_trans ?_ hA); exact rfl)
    | ((with_reducible refine listed_code ?_ hA); exact rfl)
    | exact fun (h : Sparse.wf _ _ = true) => h
    | with_reducible apply next_does
    | with_reducible apply id_does
    | with_reducible apply ite_does
    | with_reducible apply iteO_does
    | (apply Sparse.wf_set; assumption)
    | exact rfl
    | intro _
    | dsimp only
    | split

theorem execValuesApply_does {A : List Part} {b₀ : State}  (s : State) 
    (hD : Does A b₀ s) (hA : partsIn [.block 0x03, .block 0x05, .free, .strand, .exe, .dio, .out] A = true) : DoesO A b₀ (execValuesApply s) := by
  unfold execValuesApply
  repeat' first
    | with_reducible assumption
    | with_reducible apply applyEntry_does
    | with_reducible apply changeDone_does
    | with_reducible apply forAll_does
    | ((with_reducible refine partsIn_trans ?_ hA); exact rfl)
    | ((with_reducible refine listed_code ?_ hA); exact rfl)
    | exact fun (h : Sparse.wf _ _ = true) => h
    | with_reducible apply next_does
    | with_reducible apply id_does
    | with_reducible apply ite_does
    | with_reducible apply iteO_does
    | (apply Sparse.wf_set; assumption)
    | exact rfl
    | intro _
    | dsimp only
    | split
    | with_reducible apply upd_exe

theorem execExeNoSlack_does {A : List Part} {b₀ : State}  (s : State) 
    (hD : Does A b₀ s) (hA : partsIn [.block 0x03, .free, .strand, .out] A = true) : DoesO A b₀ (execExeNoSlack s) := by
  unfold execExeNoSlack
  repeat' first
    | with_reducible assumption
    | with_reducible apply bump_does
    | with_reducible apply raiseF_does
    | with_reducible apply say_does
    | ((with_reducible refine partsIn_trans ?_ hA); exact rfl)
    | ((with_reducible refine listed_code ?_ hA); exact rfl)
    | exact fun (h : Sparse.wf _ _ = true) => h
    | with_reducible apply next_does
    | with_reducible apply id_does
    | with_reducible apply ite_does
    | with_reducible apply iteO_does
    | (apply Sparse.wf_set; assumption)
    | exact rfl
    | intro _
    | dsimp only
    | split

theorem setForce_does {A : List Part} {b₀ : State} (g : Nat) (v : DWord) (s : State) 
    (hD : Does A b₀ s) (hA : partsIn [.block 0x05, .free, .strand, .exe, .dio, .out] A = true) : Does A b₀ (setForce g v s) := by
  unfold setForce
  repeat' first
    | with_reducible assumption
    | with_reducible apply dioReenTag_does
    | with_reducible apply forAll_does
    | ((with_reducible refine partsIn_trans ?_ hA); exact rfl)
    | ((with_reducible refine listed_code ?_ hA); exact rfl)
    | exact fun (h : Sparse.wf _ _ = true) => h
    | with_reducible apply next_does
    | with_reducible apply id_does
    | with_reducible apply ite_does
    | with_reducible apply iteO_does
    | (apply Sparse.wf_set; assumption)
    | exact rfl
    | intro _
    | dsimp only
    | split
    | with_reducible apply upd_exe

theorem dropForces_does {A : List Part} {b₀ : State} (p : Nat → Bool) (s : State) 
    (hD : Does A b₀ s) (hA : partsIn [.block 0x05, .free, .strand, .exe, .dio, .out] A = true) : Does A b₀ (dropForces p s) := by
  unfold dropForces
  repeat' first
    | with_reducible assumption
    | with_reducible apply dioReenTag_does
    | with_reducible apply forAll_does
    | ((with_reducible refine partsIn_trans ?_ hA); exact rfl)
    | ((with_reducible refine listed_code ?_ hA); exact rfl)
    | exact fun (h : Sparse.wf _ _ = true) => h
    | with_reducible apply next_does
    | with_reducible apply id_does
    | with_reducible apply ite_does
    | with_reducible apply iteO_does
    | (apply Sparse.wf_set; assumption)
    | exact rfl
    | intro _
    | dsimp only
    | split
    | with_reducible apply upd_exe

theorem forceCmd_does {A : List Part} {b₀ : State} (f : Nat → State → State) (s : State) (h_f : ∀ x0 u, Does A b₀ u → Does A b₀ (f x0 u))
    (hD : Does A b₀ s) (hA : partsIn [.block 0x03, .block 0x09, .block 0x0F, .free, .strand, .out] A = true) : Does A b₀ (forceCmd f s) := by
  unfold forceCmd
  repeat' first
    | with_reducible assumption
    | with_reducible apply h_f
    | with_reducible apply hostCmd_does
    | with_reducible apply standbyRefuse_does
    | ((with_reducible refine partsIn_trans ?_ hA); exact rfl)
    | ((with_reducible refine listed_code ?_ hA); exact rfl)
    | exact fun (h : Sparse.wf _ _ = true) => h
    | with_reducible apply next_does
    | with_reducible apply id_does
    | with_reducible apply ite_does
    | with_reducible apply iteO_does
    | (apply Sparse.wf_set; assumption)
    | exact rfl
    | intro _
    | dsimp only
    | split

theorem forceResult_does {A : List Part} {b₀ : State} (st : Status) (s : State) 
    (hD : Does A b₀ s) (hA : partsIn [.block 0x03, .free, .strand, .out] A = true) : Does A b₀ (forceResult st s) := by
  unfold forceResult
  repeat' first
    | with_reducible assumption
    | with_reducible apply result_does
    | ((with_reducible refine partsIn_trans ?_ hA); exact rfl)
    | ((with_reducible refine listed_code ?_ hA); exact rfl)
    | exact fun (h : Sparse.wf _ _ = true) => h
    | with_reducible apply next_does
    | with_reducible apply id_does
    | with_reducible apply ite_does
    | with_reducible apply iteO_does
    | (apply Sparse.wf_set; assumption)
    | exact rfl
    | intro _
    | dsimp only
    | split

theorem execForceSet_does {A : List Part} {b₀ : State}  (s : State) 
    (hD : Does A b₀ s) (hA : partsIn [.block 0x03, .block 0x05, .block 0x09, .block 0x0F, .free, .strand, .exe, .dio, .pair, .out] A = true) : DoesO A b₀ (execForceSet s) := by
  unfold execForceSet
  repeat' first
    | with_reducible assumption
    | with_reducible apply cwMirror_does
    | with_reducible apply forceCmd_does
    | with_reducible apply forceResult_does
    | with_reducible apply setForce_does
    | ((with_reducible refine partsIn_trans ?_ hA); exact rfl)
    | ((with_reducible refine listed_code ?_ hA); exact rfl)
    | exact fun (h : Sparse.wf _ _ = true) => h
    | with_reducible apply next_does
    | with_reducible apply id_does
    | with_reducible apply ite_does
    | with_reducible apply iteO_does
    | (apply Sparse.wf_set; assumption)
    | exact rfl
    | intro _
    | dsimp only
    | split

theorem execForceClear_does {A : List Part} {b₀ : State}  (s : State) 
    (hD : Does A b₀ s) (hA : partsIn [.block 0x03, .block 0x05, .block 0x09, .block 0x0F, .free, .strand, .exe, .dio, .pair, .out] A = true) : DoesO A b₀ (execForceClear s) := by
  unfold execForceClear
  repeat' first
    | with_reducible assumption
    | with_reducible apply cwMirror_does
    | with_reducible apply dropForces_does
    | with_reducible apply forceCmd_does
    | with_reducible apply forceResult_does
    | ((with_reducible refine partsIn_trans ?_ hA); exact rfl)
    | ((with_reducible refine listed_code ?_ hA); exact rfl)
    | exact fun (h : Sparse.wf _ _ = true) => h
    | with_reducible apply next_does
    | with_reducible apply id_does
    | with_reducible apply ite_does
    | with_reducible apply iteO_does
    | (apply Sparse.wf_set; assumption)
    | exact rfl
    | intro _
    | dsimp only
    | split

theorem execForceClearAll_does {A : List Part} {b₀ : State}  (s : State) 
    (hD : Does A b₀ s) (hA : partsIn [.block 0x03, .block 0x05, .block 0x09, .block 0x0F, .free, .strand, .exe, .dio, .pair, .out] A = true) : DoesO A b₀ (execForceClearAll s) := by
  unfold execForceClearAll
  repeat' first
    | with_reducible assumption
    | with_reducible apply cwMirror_does
    | with_reducible apply dropForces_does
    | with_reducible apply forceCmd_does
    | with_reducible apply forceResult_does
    | ((with_reducible refine partsIn_trans ?_ hA); exact rfl)
    | ((with_reducible refine listed_code ?_ hA); exact rfl)
    | exact fun (h : Sparse.wf _ _ = true) => h
    | with_reducible apply next_does
    | with_reducible apply id_does
    | with_reducible apply ite_does
    | with_reducible apply iteO_does
    | (apply Sparse.wf_set; assumption)
    | exact rfl
    | intro _
    | dsimp only
    | split

theorem execForceRead_does {A : List Part} {b₀ : State}  (s : State) 
    (hD : Does A b₀ s) (hA : partsIn [.block 0x03, .block 0x09, .block 0x0F, .free, .strand, .out] A = true) : DoesO A b₀ (execForceRead s) := by
  unfold execForceRead
  repeat' first
    | with_reducible assumption
    | with_reducible apply forceCmd_does
    | with_reducible apply forceResult_does
    | with_reducible apply wr64_does
    | ((with_reducible refine partsIn_trans ?_ hA); exact rfl)
    | ((with_reducible refine listed_code ?_ hA); exact rfl)
    | exact fun (h : Sparse.wf _ _ = true) => h
    | with_reducible apply next_does
    | with_reducible apply id_does
    | with_reducible apply ite_does
    | with_reducible apply iteO_does
    | (apply Sparse.wf_set; assumption)
    | exact rfl
    | (dsimp only [Reg.EXE_FORCE_VAL_LO]; omega)
    | intro _
    | dsimp only
    | split

theorem tagDenied_does {A : List Part} {b₀ : State}  (s : State) 
    (hD : Does A b₀ s) (hA : partsIn [.block 0x03, .out] A = true) : Does A b₀ (tagDenied s) := by
  unfold tagDenied
  repeat' first
    | with_reducible assumption
    | with_reducible apply bump_does
    | with_reducible apply raiseF_does
    | ((with_reducible refine partsIn_trans ?_ hA); exact rfl)
    | ((with_reducible refine listed_code ?_ hA); exact rfl)
    | exact fun (h : Sparse.wf _ _ = true) => h
    | with_reducible apply next_does
    | with_reducible apply id_does
    | with_reducible apply ite_does
    | with_reducible apply iteO_does
    | (apply Sparse.wf_set; assumption)
    | exact rfl
    | intro _
    | dsimp only
    | split

theorem execHostTagWrite_does {A : List Part} {b₀ : State} (tag : Tag) (high : Bool) (value : Word) (s : State) 
    (hD : Does A b₀ s) (hA : partsIn [.block 0x03, .block 0x05, .block 0x0F, .free, .strand, .exe, .dio, .pair, .out] A = true) : DoesO A b₀ (execHostTagWrite tag high value s) := by
  unfold execHostTagWrite
  repeat' first
    | with_reducible assumption
    | with_reducible apply cwMirror_does
    | with_reducible apply hostCmd_does
    | with_reducible apply mpuDeny_does
    | with_reducible apply tagDenied_does
    | with_reducible apply tagStore_does
    | ((with_reducible refine listed_block 3 ?_ ?_ hA); first | omega | (dsimp only [Fld.MPU_STG_MCFG_COLOUR, masterColour]; omega) | (dsimp only [Fld.MPU_STG_MCFG_COLOUR, masterColour]; split <;> omega); exact rfl)
    | ((with_reducible refine listed_block 5 ?_ ?_ hA); first | omega | (dsimp only [Fld.MPU_STG_MCFG_COLOUR, masterColour]; omega) | (dsimp only [Fld.MPU_STG_MCFG_COLOUR, masterColour]; split <;> omega); exact rfl)
    | ((with_reducible refine listed_block 15 ?_ ?_ hA); first | omega | (dsimp only [Fld.MPU_STG_MCFG_COLOUR, masterColour]; omega) | (dsimp only [Fld.MPU_STG_MCFG_COLOUR, masterColour]; split <;> omega); exact rfl)
    | ((with_reducible refine partsIn_trans ?_ hA); exact rfl)
    | ((with_reducible refine listed_code ?_ hA); exact rfl)
    | exact fun (h : Sparse.wf _ _ = true) => h
    | with_reducible apply next_does
    | with_reducible apply id_does
    | with_reducible apply ite_does
    | with_reducible apply iteO_does
    | (apply Sparse.wf_set; assumption)
    | exact rfl
    | intro _
    | dsimp only
    | split

end Sys2Proof.Machine
end

