-- ==== Sys2Proof/Laws/OnlyPairOps.lean ====
section
/-! SUPPORT. What each operation of Machine/PairOps.lean can do: the parts of the state it may change, and that it keeps
canonical form. -/
namespace Sys2Proof.Machine

theorem onPair_does {A : List Part} {b₀ : State} (f : Pair → Pair) (s : State) 
    (hD : Does A b₀ s) (hA : partsIn [.pair] A = true) : Does A b₀ (onPair f s) := by
  unfold onPair
  repeat' first
    | with_reducible assumption
    | ((with_reducible refine partsIn_trans ?_ hA); exact rfl)
    | ((with_reducible refine listed_code ?_ hA); exact rfl)
    | exact fun (h : Sparse.wf _ _ = true) => h
    | with_reducible apply next_does
    | with_reducible apply id_does
    | with_reducible apply ite_does
    | with_reducible apply iteO_does
    | (apply Sparse.wf_set; assumption)
    | exact rfl
    | intro _
    | dsimp only
    | split
    | with_reducible apply upd_pair

theorem takeoverRelease_does {A : List Part} {b₀ : State} (t : Nat) (s : State) 
    (hD : Does A b₀ s) (hA : partsIn [.block 0x01, .block 0x02, .block 0x03, .block 0x05, .block 0x08, .block 0x09, .block 0x0A, .block 0x0C, .free, .strand, .backup, .tides, .seqs, .exe, .loop, .dio, .saf, .pair, .can, .fwu, .sup, .mbx, .out] A = true) : Does A b₀ (takeoverRelease t s) := by
  unfold takeoverRelease
  repeat' first
    | with_reducible assumption
    | with_reducible apply bumpBy_does
    | with_reducible apply dueRelease_does
    | with_reducible apply onTask_does
    | ((with_reducible refine partsIn_trans ?_ hA); exact rfl)
    | ((with_reducible refine listed_code ?_ hA); exact rfl)
    | exact fun (h : Sparse.wf _ _ = true) => h
    | with_reducible apply next_does
    | with_reducible apply id_does
    | with_reducible apply ite_does
    | with_reducible apply iteO_does
    | (apply Sparse.wf_set; assumption)
    | exact rfl
    | intro _
    | dsimp only
    | split

theorem dropReplayWaits_does {A : List Part} {b₀ : State}  (s : State) 
    (hD : Does A b₀ s) (hA : partsIn [.exe] A = true) : Does A b₀ (dropReplayWaits s) := by
  unfold dropReplayWaits
  repeat' first
    | with_reducible assumption
    | with_reducible apply forAll_does
    | with_reducible apply onTask_does
    | ((with_reducible refine partsIn_trans ?_ hA); exact rfl)
    | ((with_reducible refine listed_code ?_ hA); exact rfl)
    | exact fun (h : Sparse.wf _ _ = true) => h
    | with_reducible apply next_does
    | with_reducible apply id_does
    | with_reducible apply ite_does
    | with_reducible apply iteO_does
    | (apply Sparse.wf_set; assumption)
    | exact rfl
    | intro _
    | dsimp only
    | split

theorem standbyActive_does {A : List Part} {b₀ : State} (takeover : Bool) (s : State) 
    (hD : Does A b₀ s) (hA : partsIn [.block 0x01, .block 0x02, .block 0x03, .block 0x04, .block 0x05, .block 0x08, .block 0x09, .block 0x0A, .block 0x0C, .free, .strand, .backup, .tides, .tideTable, .seqs, .exe, .loop, .dio, .saf, .pair, .net, .can, .fwu, .sup, .mbx, .out] A = true) : Does A b₀ (standbyActive takeover s) := by
  unfold standbyActive
  repeat' first
    | with_reducible assumption
    | with_reducible apply dropReplayWaits_does
    | with_reducible apply forAll_does
    | with_reducible apply onlyIf_does
    | with_reducible apply seqResume_does
    | with_reducible apply startNext_does
    | with_reducible apply takeoverRelease_does
    | with_reducible apply ttActive_does
    | ((with_reducible refine partsIn_trans ?_ hA); exact rfl)
    | ((with_reducible refine listed_code ?_ hA); exact rfl)
    | exact fun (h : Sparse.wf _ _ = true) => h
    | with_reducible apply next_does
    | with_reducible apply id_does
    | with_reducible apply ite_does
    | with_reducible apply iteO_does
    | (apply Sparse.wf_set; assumption)
    | exact rfl
    | intro _
    | dsimp only
    | split

theorem becomeActive_does {A : List Part} {b₀ : State}  (s : State) 
    (hD : Does A b₀ s) (hA : partsIn [.block 0x01, .block 0x02, .block 0x03, .block 0x04, .block 0x05, .block 0x08, .block 0x09, .block 0x0A, .block 0x0B, .block 0x0C, .free, .strand, .backup, .tides, .tideTable, .seqs, .exe, .loop, .dio, .saf, .pair, .net, .can, .fwu, .sup, .mbx, .out] A = true) : Does A b₀ (becomeActive s) := by
  unfold becomeActive
  repeat' first
    | with_reducible assumption
    | with_reducible apply bump_does
    | with_reducible apply canActive_does
    | with_reducible apply cwSend_does
    | with_reducible apply hbSend_does
    | with_reducible apply netActive_does
    | with_reducible apply onPair_does
    | with_reducible apply onlyIf_does
    | with_reducible apply pairTo_does
    | with_reducible apply raiseF_does
    | with_reducible apply sayD_does
    | with_reducible apply setFlag_does
    | with_reducible apply setFld_does
    | with_reducible apply standbyActive_does
    | ((with_reducible refine listed_block 1 ?_ ?_ hA); first | omega | (dsimp only [Fld.PAIR_COUNTS_SWITCHOVERS, Fld.PAIR_COUNTS_TAKEOVERS, Fld.PAIR_EVENT_AUTH_CHANGE, Fld.PAIR_LAST_CAUSE_STATUS, Fld.PAIR_STATE_AUTH_HELD, Fld.PAIR_STATE_STATE, pairState]; omega) | (dsimp only [Fld.PAIR_COUNTS_SWITCHOVERS, Fld.PAIR_COUNTS_TAKEOVERS, Fld.PAIR_EVENT_AUTH_CHANGE, Fld.PAIR_LAST_CAUSE_STATUS, Fld.PAIR_STATE_AUTH_HELD, Fld.PAIR_STATE_STATE, pairState]; split <;> omega); exact rfl)
    | ((with_reducible refine listed_block 2 ?_ ?_ hA); first | omega | (dsimp only [Fld.PAIR_COUNTS_SWITCHOVERS, Fld.PAIR_COUNTS_TAKEOVERS, Fld.PAIR_EVENT_AUTH_CHANGE, Fld.PAIR_LAST_CAUSE_STATUS, Fld.PAIR_STATE_AUTH_HELD, Fld.PAIR_STATE_STATE, pairState]; omega) | (dsimp only [Fld.PAIR_COUNTS_SWITCHOVERS, Fld.PAIR_COUNTS_TAKEOVERS, Fld.PAIR_EVENT_AUTH_CHANGE, Fld.PAIR_LAST_CAUSE_STATUS, Fld.PAIR_STATE_AUTH_HELD, Fld.PAIR_STATE_STATE, pairState]; split <;> omega); exact rfl)
    | ((with_reducible refine listed_block 3 ?_ ?_ hA); first | omega | (dsimp only [Fld.PAIR_COUNTS_SWITCHOVERS, Fld.PAIR_COUNTS_TAKEOVERS, Fld.PAIR_EVENT_AUTH_CHANGE, Fld.PAIR_LAST_CAUSE_STATUS, Fld.PAIR_STATE_AUTH_HELD, Fld.PAIR_STATE_STATE, pairState]; omega) | (dsimp only [Fld.PAIR_COUNTS_SWITCHOVERS, Fld.PAIR_COUNTS_TAKEOVERS, Fld.PAIR_EVENT_AUTH_CHANGE, Fld.PAIR_LAST_CAUSE_STATUS, Fld.PAIR_STATE_AUTH_HELD, Fld.PAIR_STATE_STATE, pairState]; split <;> omega); exact rfl)
    | ((with_reducible refine listed_block 4 ?_ ?_ hA); first | omega | (dsimp only [Fld.PAIR_COUNTS_SWITCHOVERS, Fld.PAIR_COUNTS_TAKEOVERS, Fld.PAIR_EVENT_AUTH_CHANGE, Fld.PAIR_LAST_CAUSE_STATUS, Fld.PAIR_STATE_AUTH_HELD, Fld.PAIR_STATE_STATE, pairState]; omega) | (dsimp only [Fld.PAIR_COUNTS_SWITCHOVERS, Fld.PAIR_COUNTS_TAKEOVERS, Fld.PAIR_EVENT_AUTH_CHANGE, Fld.PAIR_LAST_CAUSE_STATUS, Fld.PAIR_STATE_AUTH_HELD, Fld.PAIR_STATE_STATE, pairState]; split <;> omega); exact rfl)
    | ((with_reducible refine listed_block 5 ?_ ?_ hA); first | omega | (dsimp only [Fld.PAIR_COUNTS_SWITCHOVERS, Fld.PAIR_COUNTS_TAKEOVERS, Fld.PAIR_EVENT_AUTH_CHANGE, Fld.PAIR_LAST_CAUSE_STATUS, Fld.PAIR_STATE_AUTH_HELD, Fld.PAIR_STATE_STATE, pairState]; omega) | (dsimp only [Fld.PAIR_COUNTS_SWITCHOVERS, Fld.PAIR_COUNTS_TAKEOVERS, Fld.PAIR_EVENT_AUTH_CHANGE, Fld.PAIR_LAST_CAUSE_STATUS, Fld.PAIR_STATE_AUTH_HELD, Fld.PAIR_STATE_STATE, pairState]; split <;> omega); exact rfl)
    | ((with_reducible refine listed_block 8 ?_ ?_ hA); first | omega | (dsimp only [Fld.PAIR_COUNTS_SWITCHOVERS, Fld.PAIR_COUNTS_TAKEOVERS, Fld.PAIR_EVENT_AUTH_CHANGE, Fld.PAIR_LAST_CAUSE_STATUS, Fld.PAIR_STATE_AUTH_HELD, Fld.PAIR_STATE_STATE, pairState]; omega) | (dsimp only [Fld.PAIR_COUNTS_SWITCHOVERS, Fld.PAIR_COUNTS_TAKEOVERS, Fld.PAIR_EVENT_AUTH_CHANGE, Fld.PAIR_LAST_CAUSE_STATUS, Fld.PAIR_STATE_AUTH_HELD, Fld.PAIR_STATE_STATE, pairState]; split <;> omega); exact rfl)
    | ((with_reducible refine listed_block 9 ?_ ?_ hA); first | omega | (dsimp only [Fld.PAIR_COUNTS_SWITCHOVERS, Fld.PAIR_COUNTS_TAKEOVERS, Fld.PAIR_EVENT_AUTH_CHANGE, Fld.PAIR_LAST_CAUSE_STATUS, Fld.PAIR_STATE_AUTH_HELD, Fld.PAIR_STATE_STATE, pairState]; omega) | (dsimp only [Fld.PAIR_COUNTS_SWITCHOVERS, Fld.PAIR_COUNTS_TAKEOVERS, Fld.PAIR_EVENT_AUTH_CHANGE, Fld.PAIR_LAST_CAUSE_STATUS, Fld.PAIR_STATE_AUTH_HELD, Fld.PAIR_STATE_STATE, pairState]; split <;> omega); exact rfl)
    | ((with_reducible refine listed_block 10 ?_ ?_ hA); first | omega | (dsimp only [Fld.PAIR_COUNTS_SWITCHOVERS, Fld.PAIR_COUNTS_TAKEOVERS, Fld.PAIR_EVENT_AUTH_CHANGE, Fld.PAIR_LAST_CAUSE_STATUS, Fld.PAIR_STATE_AUTH_HELD, Fld.PAIR_STATE_STATE, pairState]; omega) | (dsimp only [Fld.PAIR_COUNTS_SWITCHOVERS, Fld.PAIR_COUNTS_TAKEOVERS, Fld.PAIR_EVENT_AUTH_CHANGE, Fld.PAIR_LAST_CAUSE_STATUS, Fld.PAIR_STATE_AUTH_HELD, Fld.PAIR_STATE_STATE, pairState]; split <;> omega); exact rfl)
    | ((with_reducible refine listed_block 11 ?_ ?_ hA); first | omega | (dsimp only [Fld.PAIR_COUNTS_SWITCHOVERS, Fld.PAIR_COUNTS_TAKEOVERS, Fld.PAIR_EVENT_AUTH_CHANGE, Fld.PAIR_LAST_CAUSE_STATUS, Fld.PAIR_STATE_AUTH_HELD, Fld.PAIR_STATE_STATE, pairState]; omega) | (dsimp only [Fld.PAIR_COUNTS_SWITCHOVERS, Fld.PAIR_COUNTS_TAKEOVERS, Fld.PAIR_EVENT_AUTH_CHANGE, Fld.PAIR_LAST_CAUSE_STATUS, Fld.PAIR_STATE_AUTH_HELD, Fld.PAIR_STATE_STATE, pairState]; split <;> omega); exact rfl)
    | ((with_reducible refine listed_block 12 ?_ ?_ hA); first | omega | (dsimp only [Fld.PAIR_COUNTS_SWITCHOVERS, Fld.PAIR_COUNTS_TAKEOVERS, Fld.PAIR_EVENT_AUTH_CHANGE, Fld.PAIR_LAST_CAUSE_STATUS, Fld.PAIR_STATE_AUTH_HELD, Fld.PAIR_STATE_STATE, pairState]; omega) | (dsimp only [Fld.PAIR_COUNTS_SWITCHOVERS, Fld.PAIR_COUNTS_TAKEOVERS, Fld.PAIR_EVENT_AUTH_CHANGE, Fld.PAIR_LAST_CAUSE_STATUS, Fld.PAIR_STATE_AUTH_HELD, Fld.PAIR_STATE_STATE, pairState]; split <;> omega); exact rfl)
    | ((with_reducible refine partsIn_trans ?_ hA); exact rfl)
    | ((with_reducible refine listed_code ?_ hA); exact rfl)
    | exact fun (h : Sparse.wf _ _ = true) => h
    | with_reducible apply next_does
    | with_reducible apply id_does
    | with_reducible apply ite_does
    | with_reducible apply iteO_does
    | (apply Sparse.wf_set; assumption)
    | exact rfl
    | intro _
    | dsimp only
    | split
    | with_reducible apply upd_sup

theorem contestLost_does {A : List Part} {b₀ : State}  (s : State) 
    (hD : Does A b₀ s) (hA : partsIn [.block 0x09, .block 0x0C, .free, .strand, .pair, .can, .sup, .out] A = true) : Does A b₀ (contestLost s) := by
  unfold contestLost
  repeat' first
    | with_reducible assumption
    | with_reducible apply onPair_does
    | with_reducible apply pairTo_does
    | with_reducible apply releaseAuth_does
    | with_reducible apply say_does
    | ((with_reducible refine partsIn_trans ?_ hA); exact rfl)
    | ((with_reducible refine listed_code ?_ hA); exact rfl)
    | exact fun (h : Sparse.wf _ _ = true) => h
    | with_reducible apply next_does
    | with_reducible apply id_does
    | with_reducible apply ite_does
    | with_reducible apply iteO_does
    | (apply Sparse.wf_set; assumption)
    | exact rfl
    | intro _
    | dsimp only
    | split

theorem takeoverBlocked_does {A : List Part} {b₀ : State}  (s : State) 
    (hD : Does A b₀ s) (hA : partsIn [.block 0x09, .free, .strand, .pair, .out] A = true) : Does A b₀ (takeoverBlocked s) := by
  unfold takeoverBlocked
  repeat' first
    | with_reducible assumption
    | with_reducible apply onPair_does
    | with_reducible apply raiseF_does
    | with_reducible apply say_does
    | ((with_reducible refine partsIn_trans ?_ hA); exact rfl)
    | ((with_reducible refine listed_code ?_ hA); exact rfl)
    | exact fun (h : Sparse.wf _ _ = true) => h
    | with_reducible apply next_does
    | with_reducible apply id_does
    | with_reducible apply ite_does
    | with_reducible apply iteO_does
    | (apply Sparse.wf_set; assumption)
    | exact rfl
    | intro _
    | dsimp only
    | split

theorem noTakeover_does {A : List Part} {b₀ : State}  (s : State) 
    (hD : Does A b₀ s) (hA : partsIn [.free, .strand, .pair, .out] A = true) : Does A b₀ (noTakeover s) := by
  unfold noTakeover
  repeat' first
    | with_reducible assumption
    | with_reducible apply onPair_does
    | with_reducible apply say_does
    | ((with_reducible refine partsIn_trans ?_ hA); exact rfl)
    | ((with_reducible refine listed_code ?_ hA); exact rfl)
    | exact fun (h : Sparse.wf _ _ = true) => h
    | with_reducible apply next_does
    | with_reducible apply id_does
    | with_reducible apply ite_does
    | with_reducible apply iteO_does
    | (apply Sparse.wf_set; assumption)
    | exact rfl
    | intro _
    | dsimp only
    | split

theorem takeoverDue_does {A : List Part} {b₀ : State} (c : Status) (s : State) 
    (hD : Does A b₀ s) (hA : partsIn [.block 0x09, .free, .strand, .pair, .out] A = true) : Does A b₀ (takeoverDue c s) := by
  unfold takeoverDue
  repeat' first
    | with_reducible assumption
    | with_reducible apply noTakeover_does
    | with_reducible apply onPair_does
    | with_reducible apply takeoverBlocked_does
    | ((with_reducible refine partsIn_trans ?_ hA); exact rfl)
    | ((with_reducible refine listed_code ?_ hA); exact rfl)
    | exact fun (h : Sparse.wf _ _ = true) => h
    | with_reducible apply next_does
    | with_reducible apply id_does
    | with_reducible apply ite_does
    | with_reducible apply iteO_does
    | (apply Sparse.wf_set; assumption)
    | exact rfl
    | intro _
    | dsimp only
    | split

theorem partnerOverrun_does {A : List Part} {b₀ : State}  (s : State) 
    (hD : Does A b₀ s) (hA : partsIn [.block 0x01, .block 0x02, .block 0x03, .block 0x05, .block 0x08, .block 0x09, .block 0x0A, .block 0x0C, .free, .strand, .backup, .tides, .seqs, .exe, .loop, .dio, .saf, .pair, .can, .sup, .mbx, .out] A = true) : Does A b₀ (partnerOverrun s) := by
  unfold partnerOverrun
  repeat' first
    | with_reducible assumption
    | with_reducible apply enterFallback_does
    | with_reducible apply raiseF_does
    | with_reducible apply say_does
    | ((with_reducible refine partsIn_trans ?_ hA); exact rfl)
    | ((with_reducible refine listed_code ?_ hA); exact rfl)
    | exact fun (h : Sparse.wf _ _ = true) => h
    | with_reducible apply next_does
    | with_reducible apply id_does
    | with_reducible apply ite_does
    | with_reducible apply iteO_does
    | (apply Sparse.wf_set; assumption)
    | exact rfl
    | intro _
    | dsimp only
    | split

theorem partnerOut_does {A : List Part} {b₀ : State} (c : Status) (s : State) 
    (hD : Does A b₀ s) (hA : partsIn [.block 0x01, .block 0x02, .block 0x03, .block 0x05, .block 0x08, .block 0x09, .block 0x0A, .block 0x0C, .free, .strand, .backup, .tides, .seqs, .exe, .loop, .dio, .saf, .pair, .can, .sup, .mbx, .out] A = true) : Does A b₀ (partnerOut c s) := by
  unfold partnerOut
  repeat' first
    | with_reducible assumption
    | with_reducible apply noTakeover_does
    | with_reducible apply onPair_does
    | with_reducible apply partnerOverrun_does
    | with_reducible apply takeoverDue_does
    | ((with_reducible refine listed_block 1 ?_ ?_ hA); first | omega | (dsimp only [Fld.PAIR_STATE_STATE, pairState]; omega) | (dsimp only [Fld.PAIR_STATE_STATE, pairState]; split <;> omega); exact rfl)
    | ((with_reducible refine listed_block 2 ?_ ?_ hA); first | omega | (dsimp only [Fld.PAIR_STATE_STATE, pairState]; omega) | (dsimp only [Fld.PAIR_STATE_STATE, pairState]; split <;> omega); exact rfl)
    | ((with_reducible refine listed_block 3 ?_ ?_ hA); first | omega | (dsimp only [Fld.PAIR_STATE_STATE, pairState]; omega) | (dsimp only [Fld.PAIR_STATE_STATE, pairState]; split <;> omega); exact rfl)
    | ((with_reducible refine listed_block 5 ?_ ?_ hA); first | omega | (dsimp only [Fld.PAIR_STATE_STATE, pairState]; omega) | (dsimp only [Fld.PAIR_STATE_STATE, pairState]; split <;> omega); exact rfl)
    | ((with_reducible refine listed_block 8 ?_ ?_ hA); first | omega | (dsimp only [Fld.PAIR_STATE_STATE, pairState]; omega) | (dsimp only [Fld.PAIR_STATE_STATE, pairState]; split <;> omega); exact rfl)
    | ((with_reducible refine listed_block 9 ?_ ?_ hA); first | omega | (dsimp only [Fld.PAIR_STATE_STATE, pairState]; omega) | (dsimp only [Fld.PAIR_STATE_STATE, pairState]; split <;> omega); exact rfl)
    | ((with_reducible refine listed_block 10 ?_ ?_ hA); first | omega | (dsimp only [Fld.PAIR_STATE_STATE, pairState]; omega) | (dsimp only [Fld.PAIR_STATE_STATE, pairState]; split <;> omega); exact rfl)
    | ((with_reducible refine listed_block 12 ?_ ?_ hA); first | omega | (dsimp only [Fld.PAIR_STATE_STATE, pairState]; omega) | (dsimp only [Fld.PAIR_STATE_STATE, pairState]; split <;> omega); exact rfl)
    | ((with_reducible refine partsIn_trans ?_ hA); exact rfl)
    | ((with_reducible refine listed_code ?_ hA); exact rfl)
    | exact fun (h : Sparse.wf _ _ = true) => h
    | with_reducible apply next_does
    | with_reducible apply id_does
    | with_reducible apply ite_does
    | with_reducible apply iteO_does
    | (apply Sparse.wf_set; assumption)
    | exact rfl
    | intro _
    | dsimp only
    | split

theorem faultCycleDone_does {A : List Part} {b₀ : State}  (s : State) 
    (hD : Does A b₀ s) (hA : partsIn [.block 0x09, .free, .strand, .pair, .out] A = true) : Does A b₀ (faultCycleDone s) := by
  unfold faultCycleDone
  repeat' first
    | with_reducible assumption
    | with_reducible apply onPair_does
    | with_reducible apply takeoverDue_does
    | ((with_reducible refine listed_block 9 ?_ ?_ hA); first | omega | (dsimp only [Fld.PAIR_STATE_STATE, pairState]; omega) | (dsimp only [Fld.PAIR_STATE_STATE, pairState]; split <;> omega); exact rfl)
    | ((with_reducible refine partsIn_trans ?_ hA); exact rfl)
    | ((with_reducible refine listed_code ?_ hA); exact rfl)
    | exact fun (h : Sparse.wf _ _ = true) => h
    | with_reducible apply next_does
    | with_reducible apply id_does
    | with_reducible apply ite_does
    | with_reducible apply iteO_does
    | (apply Sparse.wf_set; assumption)
    | exact rfl
    | intro _
    | dsimp only
    | split

theorem mismatch_does {A : List Part} {b₀ : State} (onActive : Bool) (t : Nat) (cycle : Nat) (active : Nat) (standby : Nat) (s : State) 
    (hD : Does A b₀ s) (hA : partsIn [.block 0x09, .free, .strand, .exe, .pair, .out] A = true) : Does A b₀ (mismatch onActive t cycle active standby s) := by
  unfold mismatch
  repeat' first
    | with_reducible assumption
    | with_reducible apply bump_does
    | with_reducible apply onPair_does
    | with_reducible apply onlyIf_does
    | with_reducible apply raiseF_does
    | with_reducible apply say_does
    | with_reducible apply syncStart_does
    | with_reducible apply wr_does
    | ((with_reducible refine partsIn_trans ?_ hA); exact rfl)
    | ((with_reducible refine listed_code ?_ hA); exact rfl)
    | exact fun (h : Sparse.wf _ _ = true) => h
    | with_reducible apply next_does
    | with_reducible apply id_does
    | with_reducible apply ite_does
    | with_reducible apply iteO_does
    | (apply Sparse.wf_set; assumption)
    | exact rfl
    | intro _
    | dsimp only
    | split

theorem setLag_does {A : List Part} {b₀ : State} (t : Nat) (lag : Nat) (s : State) 
    (hD : Does A b₀ s) (hA : partsIn [.block 0x09] A = true) : Does A b₀ (setLag t lag s) := by
  unfold setLag
  repeat' first
    | with_reducible assumption
    | with_reducible apply setFld_does
    | ((with_reducible refine partsIn_trans ?_ hA); exact rfl)
    | ((with_reducible refine listed_code ?_ hA); exact rfl)
    | exact fun (h : Sparse.wf _ _ = true) => h
    | with_reducible apply next_does
    | with_reducible apply id_does
    | with_reducible apply ite_does
    | with_reducible apply iteO_does
    | (apply Sparse.wf_set; assumption)
    | exact rfl
    | intro _
    | dsimp only
    | split

theorem activeCompare_does {A : List Part} {b₀ : State} (c : PairCommit) (tie : Bool) (s : State) 
    (hD : Does A b₀ s) (hA : partsIn [.block 0x09, .free, .strand, .exe, .pair, .out] A = true) : Does A b₀ (activeCompare c tie s) := by
  unfold activeCompare
  repeat' first
    | with_reducible assumption
    | with_reducible apply bump_does
    | with_reducible apply mismatch_does
    | with_reducible apply onPair_does
    | with_reducible apply onlyIf_does
    | with_reducible apply setFld_does
    | with_reducible apply setLag_does
    | ((with_reducible refine listed_block 9 ?_ ?_ hA); first | omega | (dsimp only [Fld.PAIR_CFG_LAG_PCT, Fld.PAIR_CLOSE_CALL_COUNT, Fld.PAIR_LAG_TRAIL_RUN, lagBudget]; omega) | (dsimp only [Fld.PAIR_CFG_LAG_PCT, Fld.PAIR_CLOSE_CALL_COUNT, Fld.PAIR_LAG_TRAIL_RUN, lagBudget]; split <;> omega); exact rfl)
    | ((with_reducible refine partsIn_trans ?_ hA); exact rfl)
    | ((with_reducible refine listed_code ?_ hA); exact rfl)
    | exact fun (h : Sparse.wf _ _ = true) => h
    | with_reducible apply next_does
    | with_reducible apply id_does
    | with_reducible apply ite_does
    | with_reducible apply iteO_does
    | (apply Sparse.wf_set; assumption)
    | exact rfl
    | intro _
    | dsimp only
    | split

theorem standbyCompare_does {A : List Part} {b₀ : State} (t : Nat) (cycle : Nat) (s : State) 
    (hD : Does A b₀ s) (hA : partsIn [.block 0x09, .free, .strand, .exe, .pair, .out] A = true) : Does A b₀ (standbyCompare t cycle s) := by
  unfold standbyCompare
  repeat' first
    | with_reducible assumption
    | with_reducible apply mismatch_does
    | with_reducible apply onPair_does
    | ((with_reducible refine partsIn_trans ?_ hA); exact rfl)
    | ((with_reducible refine listed_code ?_ hA); exact rfl)
    | exact fun (h : Sparse.wf _ _ = true) => h
    | with_reducible apply next_does
    | with_reducible apply id_does
    | with_reducible apply ite_does
    | with_reducible apply iteO_does
    | (apply Sparse.wf_set; assumption)
    | exact rfl
    | intro _
    | dsimp only
    | split

theorem pairCommitted_does {A : List Part} {b₀ : State} (t : Nat) (cycle : Nat) (s : State) 
    (hD : Does A b₀ s) (hA : partsIn [.block 0x09, .free, .strand, .exe, .pair, .out] A = true) : Does A b₀ (pairCommitted t cycle s) := by
  unfold pairCommitted
  repeat' first
    | with_reducible assumption
    | with_reducible apply faultCycleDone_does
    | with_reducible apply standbyCompare_does
    | ((with_reducible refine listed_block 9 ?_ ?_ hA); first | omega | (dsimp only [Fld.PAIR_STATE_STATE, pairState]; omega) | (dsimp only [Fld.PAIR_STATE_STATE, pairState]; split <;> omega); exact rfl)
    | ((with_reducible refine partsIn_trans ?_ hA); exact rfl)
    | ((with_reducible refine listed_code ?_ hA); exact rfl)
    | exact fun (h : Sparse.wf _ _ = true) => h
    | with_reducible apply next_does
    | with_reducible apply id_does
    | with_reducible apply ite_does
    | with_reducible apply iteO_does
    | (apply Sparse.wf_set; assumption)
    | exact rfl
    | intro _
    | dsimp only
    | split

theorem cwTake_does {A : List Part} {b₀ : State} (kind : Nat) (q : Word) (f : State → State) (s : State) (h_f : ∀ u, Does A b₀ u → Does A b₀ (f u))
    (hD : Does A b₀ s) (hA : partsIn [.block 0x09, .free, .strand, .exe, .pair, .out] A = true) : Does A b₀ (cwTake kind q f s) := by
  unfold cwTake
  repeat' first
    | with_reducible assumption
    | with_reducible apply h_f
    | with_reducible apply cwMirror_does
    | with_reducible apply onPair_does
    | with_reducible apply syncStart_does
    | ((with_reducible refine partsIn_trans ?_ hA); exact rfl)
    | ((with_reducible refine listed_code ?_ hA); exact rfl)
    | exact fun (h : Sparse.wf _ _ = true) => h
    | with_reducible apply next_does
    | with_reducible apply id_does
    | with_reducible apply ite_does
    | with_reducible apply iteO_does
    | (apply Sparse.wf_set; assumption)
    | exact rfl
    | intro _
    | dsimp only
    | split

theorem pairDone_does {A : List Part} {b₀ : State} (st : Status) (s : State) 
    (hD : Does A b₀ s) (hA : partsIn [.block 0x09] A = true) : Does A b₀ (pairDone st s) := by
  unfold pairDone
  repeat' first
    | with_reducible assumption
    | with_reducible apply setFlag_does
    | with_reducible apply setFld_does
    | ((with_reducible refine partsIn_trans ?_ hA); exact rfl)
    | ((with_reducible refine listed_code ?_ hA); exact rfl)
    | exact fun (h : Sparse.wf _ _ = true) => h
    | with_reducible apply next_does
    | with_reducible apply id_does
    | with_reducible apply ite_does
    | with_reducible apply iteO_does
    | (apply Sparse.wf_set; assumption)
    | exact rfl
    | intro _
    | dsimp only
    | split

theorem switchAsk_does {A : List Part} {b₀ : State} (w : SwitchWhy) (s : State) 
    (hD : Does A b₀ s) (hA : partsIn [.pair] A = true) : Does A b₀ (switchAsk w s) := by
  unfold switchAsk
  repeat' first
    | with_reducible assumption
    | with_reducible apply onPair_does
    | ((with_reducible refine partsIn_trans ?_ hA); exact rfl)
    | ((with_reducible refine listed_code ?_ hA); exact rfl)
    | exact fun (h : Sparse.wf _ _ = true) => h
    | with_reducible apply next_does
    | with_reducible apply id_does
    | with_reducible apply ite_does
    | with_reducible apply iteO_does
    | (apply Sparse.wf_set; assumption)
    | exact rfl
    | intro _
    | dsimp only
    | split

theorem switchDrop_does {A : List Part} {b₀ : State}  (s : State) 
    (hD : Does A b₀ s) (hA : partsIn [.block 0x09, .pair, .out] A = true) : Does A b₀ (switchDrop s) := by
  unfold switchDrop
  repeat' first
    | with_reducible assumption
    | with_reducible apply cwMirror_does
    | with_reducible apply onPair_does
    | with_reducible apply onlyIf_does
    | with_reducible apply pairDone_does
    | ((with_reducible refine partsIn_trans ?_ hA); exact rfl)
    | ((with_reducible refine listed_code ?_ hA); exact rfl)
    | exact fun (h : Sparse.wf _ _ = true) => h
    | with_reducible apply next_does
    | with_reducible apply id_does
    | with_reducible apply ite_does
    | with_reducible apply iteO_does
    | (apply Sparse.wf_set; assumption)
    | exact rfl
    | intro _
    | dsimp only
    | split

theorem removeRefused_does {A : List Part} {b₀ : State}  (s : State) 
    (hD : Does A b₀ s) (hA : partsIn [.block 0x00, .free, .strand, .sup, .out] A = true) : Does A b₀ (removeRefused s) := by
  unfold removeRefused
  repeat' first
    | with_reducible assumption
    | with_reducible apply raiseF_does
    | with_reducible apply say_does
    | ((with_reducible refine partsIn_trans ?_ hA); exact rfl)
    | ((with_reducible refine listed_code ?_ hA); exact rfl)
    | exact fun (h : Sparse.wf _ _ = true) => h
    | with_reducible apply next_does
    | with_reducible apply id_does
    | with_reducible apply ite_does
    | with_reducible apply iteO_does
    | (apply Sparse.wf_set; assumption)
    | exact rfl
    | intro _
    | dsimp only
    | split
    | with_reducible apply upd_sup

theorem dwellStep_does {A : List Part} {b₀ : State}  (s : State) 
    (hD : Does A b₀ s) (hA : partsIn [.pair] A = true) : Does A b₀ (dwellStep s) := by
  unfold dwellStep
  repeat' first
    | with_reducible assumption
    | with_reducible apply onPair_does
    | ((with_reducible refine partsIn_trans ?_ hA); exact rfl)
    | ((with_reducible refine listed_code ?_ hA); exact rfl)
    | exact fun (h : Sparse.wf _ _ = true) => h
    | with_reducible apply next_does
    | with_reducible apply id_does
    | with_reducible apply ite_does
    | with_reducible apply iteO_does
    | (apply Sparse.wf_set; assumption)
    | exact rfl
    | intro _
    | dsimp only
    | split

end Sys2Proof.Machine
end

