-- ==== Sys2Proof/Laws/OnlyAuth.lean ====
section
/-! SUPPORT. What each operation of Machine/Auth.lean can do: the parts of the state it may change, and that it keeps
canonical form. -/
namespace Sys2Proof.Machine

theorem scanLeave_does {A : List Part} {b₀ : State}  (s : State) 
    (hD : Does A b₀ s) (hA : partsIn [.lcy] A = true) : Does A b₀ (scanLeave s) := by
  unfold scanLeave
  repeat' first
    | with_reducible assumption
    | ((with_reducible refine partsIn_trans ?_ hA); exact rfl)
    | ((with_reducible refine listed_code ?_ hA); exact rfl)
    | exact fun (h : Sparse.wf _ _ = true) => h
    | with_reducible apply next_does
    | with_reducible apply id_does
    | with_reducible apply ite_does
    | with_reducible apply iteO_does
    | (apply Sparse.wf_set; assumption)
    | exact rfl
    | intro _
    | dsimp only
    | split
    | with_reducible apply upd_lcy

theorem execAuthClaim_does {A : List Part} {b₀ : State}  (s : State) 
    (hD : Does A b₀ s) (hA : partsIn [.lcy, .sup] A = true) : DoesO A b₀ (execAuthClaim s) := by
  unfold execAuthClaim
  repeat' first
    | with_reducible assumption
    | with_reducible apply scanLeave_does
    | ((with_reducible refine partsIn_trans ?_ hA); exact rfl)
    | ((with_reducible refine listed_code ?_ hA); exact rfl)
    | exact fun (h : Sparse.wf _ _ = true) => h
    | with_reducible apply next_does
    | with_reducible apply id_does
    | with_reducible apply ite_does
    | with_reducible apply iteO_does
    | (apply Sparse.wf_set; assumption)
    | exact rfl
    | intro _
    | dsimp only
    | split
    | with_reducible apply upd_sup

theorem execAuthMeasure_does {A : List Part} {b₀ : State} (alone : Bool) (s : State) 
    (hD : Does A b₀ s) (hA : partsIn [.block 0x01, .block 0x02, .block 0x03, .block 0x04, .block 0x05, .block 0x08, .block 0x09, .block 0x0A, .block 0x0B, .block 0x0C, .free, .strand, .backup, .tides, .tideTable, .seqs, .exe, .loop, .dio, .saf, .pair, .net, .can, .fwu, .sup, .mbx, .out] A = true) : DoesO A b₀ (execAuthMeasure alone s) := by
  unfold execAuthMeasure
  repeat' first
    | with_reducible assumption
    | with_reducible apply becomeActive_does
    | with_reducible apply contestLost_does
    | ((with_reducible refine partsIn_trans ?_ hA); exact rfl)
    | ((with_reducible refine listed_code ?_ hA); exact rfl)
    | exact fun (h : Sparse.wf _ _ = true) => h
    | with_reducible apply next_does
    | with_reducible apply id_does
    | with_reducible apply ite_does
    | with_reducible apply iteO_does
    | (apply Sparse.wf_set; assumption)
    | exact rfl
    | intro _
    | dsimp only
    | split
    | with_reducible apply upd_sup

theorem execAuthShared_does {A : List Part} {b₀ : State}  (s : State) 
    (hD : Does A b₀ s) (hA : partsIn [.block 0x09, .block 0x0C, .free, .strand, .pair, .can, .sup, .out] A = true) : DoesO A b₀ (execAuthShared s) := by
  unfold execAuthShared
  repeat' first
    | with_reducible assumption
    | with_reducible apply contestLost_does
    | ((with_reducible refine partsIn_trans ?_ hA); exact rfl)
    | ((with_reducible refine listed_code ?_ hA); exact rfl)
    | exact fun (h : Sparse.wf _ _ = true) => h
    | with_reducible apply next_does
    | with_reducible apply id_does
    | with_reducible apply ite_does
    | with_reducible apply iteO_does
    | (apply Sparse.wf_set; assumption)
    | exact rfl
    | intro _
    | dsimp only
    | split
    | with_reducible apply upd_sup

theorem execAuthConfirmRun_does {A : List Part} {b₀ : State}  (s : State) 
    (hD : Does A b₀ s) (hA : partsIn [.block 0x01, .block 0x02, .block 0x03, .block 0x04, .block 0x05, .block 0x08, .block 0x09, .block 0x0A, .block 0x0B, .block 0x0C, .free, .strand, .backup, .tides, .tideTable, .seqs, .exe, .loop, .dio, .saf, .pair, .net, .can, .fwu, .sup, .mbx, .out] A = true) : DoesO A b₀ (execAuthConfirmRun s) := by
  unfold execAuthConfirmRun
  repeat' first
    | with_reducible assumption
    | with_reducible apply becomeActive_does
    | ((with_reducible refine partsIn_trans ?_ hA); exact rfl)
    | ((with_reducible refine listed_code ?_ hA); exact rfl)
    | exact fun (h : Sparse.wf _ _ = true) => h
    | with_reducible apply next_does
    | with_reducible apply id_does
    | with_reducible apply ite_does
    | with_reducible apply iteO_does
    | (apply Sparse.wf_set; assumption)
    | exact rfl
    | intro _
    | dsimp only
    | split
    | with_reducible apply upd_sup

theorem execPairContestLost_does {A : List Part} {b₀ : State}  (s : State) 
    (hD : Does A b₀ s) (hA : partsIn [.block 0x09, .block 0x0C, .free, .strand, .pair, .can, .sup, .out] A = true) : DoesO A b₀ (execPairContestLost s) := by
  unfold execPairContestLost
  repeat' first
    | with_reducible assumption
    | with_reducible apply contestLost_does
    | ((with_reducible refine partsIn_trans ?_ hA); exact rfl)
    | ((with_reducible refine listed_code ?_ hA); exact rfl)
    | exact fun (h : Sparse.wf _ _ = true) => h
    | with_reducible apply next_does
    | with_reducible apply id_does
    | with_reducible apply ite_does
    | with_reducible apply iteO_does
    | (apply Sparse.wf_set; assumption)
    | exact rfl
    | intro _
    | dsimp only
    | split

end Sys2Proof.Machine
end

