-- ==== Sys2Proof/Laws/OnlyResetOps.lean ====
section
/-! SUPPORT. What each operation of Machine/ResetOps.lean can do: the parts of the state it may change, and that it keeps
canonical form. -/
namespace Sys2Proof.Machine

theorem setSlotValid_does {A : List Part} {b₀ : State} (b : Bool) (v : Bool) (s : State) 
    (hD : Does A b₀ s) (hA : partsIn [.fwu] A = true) : Does A b₀ (setSlotValid b v s) := by
  unfold setSlotValid
  repeat' first
    | with_reducible assumption
    | ((with_reducible refine partsIn_trans ?_ hA); exact rfl)
    | ((with_reducible refine listed_code ?_ hA); exact rfl)
    | exact fun (h : Sparse.wf _ _ = true) => h
    | with_reducible apply next_does
    | with_reducible apply id_does
    | with_reducible apply ite_does
    | with_reducible apply iteO_does
    | (apply Sparse.wf_set; assumption)
    | exact rfl
    | intro _
    | dsimp only
    | split
    | with_reducible apply upd_fwu

theorem cfgMigrate_does {A : List Part} {b₀ : State}  (s : State) 
    (hD : Does A b₀ s) (hA : partsIn [.free, .strand, .fwu, .out] A = true) : Does A b₀ (cfgMigrate s) := by
  unfold cfgMigrate
  repeat' first
    | with_reducible assumption
    | with_reducible apply say_does
    | with_reducible apply withFree_does
    | ((with_reducible refine partsIn_trans ?_ hA); exact rfl)
    | ((with_reducible refine listed_code ?_ hA); exact rfl)
    | exact fun (h : Sparse.wf _ _ = true) => h
    | with_reducible apply next_does
    | with_reducible apply id_does
    | with_reducible apply ite_does
    | with_reducible apply iteO_does
    | (apply Sparse.wf_set; assumption)
    | exact rfl
    | intro _
    | dsimp only
    | split
    | with_reducible apply upd_fwu

theorem trialFail_does {A : List Part} {b₀ : State}  (s : State) 
    (hD : Does A b₀ s) (hA : partsIn [.fwu] A = true) : Does A b₀ (trialFail s) := by
  unfold trialFail
  repeat' first
    | with_reducible assumption
    | with_reducible apply setSlotValid_does
    | ((with_reducible refine partsIn_trans ?_ hA); exact rfl)
    | ((with_reducible refine listed_code ?_ hA); exact rfl)
    | exact fun (h : Sparse.wf _ _ = true) => h
    | with_reducible apply next_does
    | with_reducible apply id_does
    | with_reducible apply ite_does
    | with_reducible apply iteO_does
    | (apply Sparse.wf_set; assumption)
    | exact rfl
    | intro _
    | dsimp only
    | split
    | with_reducible apply upd_fwu

theorem resetState_does {A : List Part} {b₀ : State} (cause : Nat) (s : State)
    (hD : Does A b₀ s) (hA : partsIn [.blocks, .master, .host, .time, .free, .strand, .tides, .tideTable, .seqs, .exe, .loop, .dio, .rfx, .ana, .saf, .triad, .pair, .net, .can, .lcy, .fwu, .sup, .mpu, .mbx, .queSeq, .out] A = true) : Does A b₀ (resetState cause s) := by
  refine hD.step (B := [.blocks, .master, .host, .time, .free, .strand, .tides, .tideTable, .seqs, .exe, .loop, .dio, .rfx, .ana, .saf, .triad, .pair, .net, .can, .lcy, .fwu, .sup, .mpu, .mbx, .queSeq, .out]) ⟨fun p hp => ?_, fun c => ⟨rfl, c.2.1, rfl⟩⟩ hA
  cases p
  all_goals first
    | exact Bool.noConfusion hp
    | exact rfl
    | exact ⟨rfl, rfl⟩
    | exact ⟨rfl, rfl, rfl⟩
    | exact ⟨rfl, rfl, rfl, rfl⟩
    | (simp [Part.listed] at hp)

theorem sessionClose_does {A : List Part} {b₀ : State}  (s : State) 
    (hD : Does A b₀ s) (hA : partsIn [.block 0x11, .free, .strand, .out] A = true) : Does A b₀ (sessionClose s) := by
  unfold sessionClose
  repeat' first
    | with_reducible assumption
    | with_reducible apply raiseF_does
    | with_reducible apply say_does
    | with_reducible apply setFlag_does
    | ((with_reducible refine partsIn_trans ?_ hA); exact rfl)
    | ((with_reducible refine listed_code ?_ hA); exact rfl)
    | exact fun (h : Sparse.wf _ _ = true) => h
    | with_reducible apply next_does
    | with_reducible apply id_does
    | with_reducible apply ite_does
    | with_reducible apply iteO_does
    | (apply Sparse.wf_set; assumption)
    | exact rfl
    | intro _
    | dsimp only
    | split

theorem moduleReset_does {A : List Part} {b₀ : State} (cause : Nat) (s : State) 
    (hD : Does A b₀ s) (hA : partsIn [.blocks, .master, .host, .time, .free, .strand, .tides, .tideTable, .seqs, .exe, .loop, .dio, .rfx, .ana, .saf, .triad, .pair, .net, .can, .lcy, .fwu, .sup, .mpu, .mbx, .queSeq, .out] A = true) : Does A b₀ (moduleReset cause s) := by
  unfold moduleReset
  repeat' first
    | with_reducible assumption
    | with_reducible apply onlyIf_does
    | with_reducible apply raiseF_does
    | with_reducible apply resetState_does
    | with_reducible apply say_does
    | with_reducible apply trialFail_does
    | ((with_reducible refine listed_blocks ?_ hA); exact rfl)
    | ((with_reducible refine partsIn_trans ?_ hA); exact rfl)
    | ((with_reducible refine listed_code ?_ hA); exact rfl)
    | exact fun (h : Sparse.wf _ _ = true) => h
    | with_reducible apply next_does
    | with_reducible apply id_does
    | with_reducible apply ite_does
    | with_reducible apply iteO_does
    | (apply Sparse.wf_set; assumption)
    | exact rfl
    | intro _
    | dsimp only
    | split

theorem dramClear_does {A : List Part} {b₀ : State}  (s : State) 
    (hD : Does A b₀ s) (hA : partsIn [.mem, .mpu] A = true) : Does A b₀ (dramClear s) := by
  unfold dramClear
  repeat' first
    | with_reducible assumption
    | with_reducible apply mclear_does
    | ((with_reducible refine partsIn_trans ?_ hA); exact rfl)
    | ((with_reducible refine listed_code ?_ hA); exact rfl)
    | exact fun (h : Sparse.wf _ _ = true) => h
    | with_reducible apply next_does
    | with_reducible apply id_does
    | with_reducible apply ite_does
    | with_reducible apply iteO_does
    | (apply Sparse.wf_set; assumption)
    | exact rfl
    | intro _
    | dsimp only
    | split
    | with_reducible apply upd_mpu

theorem memLost_does {A : List Part} {b₀ : State}  (s : State) 
    (hD : Does A b₀ s) (hA : partsIn [.mem, .sup, .mpu] A = true) : Does A b₀ (memLost s) := by
  unfold memLost
  repeat' first
    | with_reducible assumption
    | with_reducible apply mclear_does
    | ((with_reducible refine partsIn_trans ?_ hA); exact rfl)
    | ((with_reducible refine listed_code ?_ hA); exact rfl)
    | exact fun (h : Sparse.wf _ _ = true) => h
    | with_reducible apply next_does
    | with_reducible apply id_does
    | with_reducible apply ite_does
    | with_reducible apply iteO_does
    | (apply Sparse.wf_set; assumption)
    | exact rfl
    | intro _
    | dsimp only
    | split
    | with_reducible apply upd_sup_mpu

theorem regionsClear_does {A : List Part} {b₀ : State} (s : State)
    (hD : Does A b₀ s) (hA : partsIn [.blocks, .tides, .tideTable, .seqs, .exe, .loop, .dio, .rfx, .ana, .saf, .triad, .pair, .net, .can, .fwu, .sup, .mbx] A = true) : Does A b₀ (regionsClear s) := by
  refine hD.step (B := [.blocks, .tides, .tideTable, .seqs, .exe, .loop, .dio, .rfx, .ana, .saf, .triad, .pair, .net, .can, .fwu, .sup, .mbx]) ⟨fun p hp => ?_, fun c => ⟨Sparse.wf_filter _ c.1, c.2.1, rfl⟩⟩ hA
  cases p
  all_goals first
    | exact Bool.noConfusion hp
    | exact rfl
    | exact ⟨rfl, rfl⟩
    | exact ⟨rfl, rfl, rfl⟩
    | exact ⟨rfl, rfl, rfl, rfl⟩
    | (simp [Part.listed] at hp)

theorem regionsReset_does {A : List Part} {b₀ : State}  (s : State) 
    (hD : Does A b₀ s) (hA : partsIn [.blocks, .tides, .tideTable, .seqs, .exe, .loop, .dio, .rfx, .ana, .saf, .triad, .pair, .net, .can, .fwu, .sup, .mbx] A = true) : Does A b₀ (regionsReset s) := by
  unfold regionsReset
  repeat' first
    | with_reducible assumption
    | with_reducible apply clrReg_does
    | with_reducible apply regionsClear_does
    | with_reducible apply setFlag_does
    | ((with_reducible refine listed_blocks ?_ hA); exact rfl)
    | ((with_reducible refine partsIn_trans ?_ hA); exact rfl)
    | ((with_reducible refine listed_code ?_ hA); exact rfl)
    | exact fun (h : Sparse.wf _ _ = true) => h
    | with_reducible apply next_does
    | with_reducible apply id_does
    | with_reducible apply ite_does
    | with_reducible apply iteO_does
    | (apply Sparse.wf_set; assumption)
    | exact rfl
    | intro _
    | dsimp only
    | split

theorem pairStart_does {A : List Part} {b₀ : State}  (s : State) 
    (hD : Does A b₀ s) (hA : partsIn [.block 0x09] A = true) : Does A b₀ (pairStart s) := by
  unfold pairStart
  repeat' first
    | with_reducible assumption
    | with_reducible apply setFld_does
    | ((with_reducible refine partsIn_trans ?_ hA); exact rfl)
    | ((with_reducible refine listed_code ?_ hA); exact rfl)
    | exact fun (h : Sparse.wf _ _ = true) => h
    | with_reducible apply next_does
    | with_reducible apply id_does
    | with_reducible apply ite_does
    | with_reducible apply iteO_does
    | (apply Sparse.wf_set; assumption)
    | exact rfl
    | intro _
    | dsimp only
    | split

theorem eraseAll_does {A : List Part} {b₀ : State}  (s : State) 
    (hD : Does A b₀ s) (hA : partsIn [.mem, .backup, .triad, .lcy, .fwu, .mpu] A = true) : Does A b₀ (eraseAll s) := by
  unfold eraseAll
  repeat' first
    | with_reducible assumption
    | with_reducible apply dramClear_does
    | with_reducible apply mclear_does
    | ((with_reducible refine partsIn_trans ?_ hA); exact rfl)
    | ((with_reducible refine listed_code ?_ hA); exact rfl)
    | exact fun (h : Sparse.wf _ _ = true) => h
    | with_reducible apply next_does
    | with_reducible apply id_does
    | with_reducible apply ite_does
    | with_reducible apply iteO_does
    | (apply Sparse.wf_set; assumption)
    | exact rfl
    | intro _
    | dsimp only
    | split
    | with_reducible apply upd_backup_triad_lcy_fwu

theorem stateBlown_does {A : List Part} {b₀ : State} (target : Fin 6) (s : State) 
    (hD : Does A b₀ s) (hA : partsIn [.block 0x11, .strand, .lcy, .out] A = true) : Does A b₀ (stateBlown target s) := by
  unfold stateBlown
  repeat' first
    | with_reducible assumption
    | with_reducible apply raiseF_does
    | with_reducible apply sayD_does
    | ((with_reducible refine partsIn_trans ?_ hA); exact rfl)
    | ((with_reducible refine listed_code ?_ hA); exact rfl)
    | exact fun (h : Sparse.wf _ _ = true) => h
    | with_reducible apply next_does
    | with_reducible apply id_does
    | with_reducible apply ite_does
    | with_reducible apply iteO_does
    | (apply Sparse.wf_set; assumption)
    | exact rfl
    | intro _
    | dsimp only
    | split
    | with_reducible apply upd_lcy

theorem safeLoad_does {A : List Part} {b₀ : State} (c : SafeCfg) (s : State) 
    (hD : Does A b₀ s) (hA : partsIn [.block 0x08, .saf, .can] A = true) : Does A b₀ (safeLoad c s) := by
  unfold safeLoad
  repeat' first
    | with_reducible assumption
    | with_reducible apply forAll_does
    | with_reducible apply onCan_does
    | with_reducible apply setFlag_does
    | with_reducible apply wr_does
    | ((with_reducible refine listed_block 8 ?_ ?_ hA); first | omega | (dsimp only [Fld.SAF_STATE_CFG_OK, Reg.SAF_CFG, Reg.SAF_CFG_CRC, Reg.SAF_CLAIM, Reg.SIp_CFG, Reg.SQn_CFG]; omega) | (dsimp only [Fld.SAF_STATE_CFG_OK, Reg.SAF_CFG, Reg.SAF_CFG_CRC, Reg.SAF_CLAIM, Reg.SIp_CFG, Reg.SQn_CFG]; split <;> omega); exact rfl)
    | ((with_reducible refine partsIn_trans ?_ hA); exact rfl)
    | ((with_reducible refine listed_code ?_ hA); exact rfl)
    | exact fun (h : Sparse.wf _ _ = true) => h
    | with_reducible apply next_does
    | with_reducible apply id_does
    | with_reducible apply ite_does
    | with_reducible apply iteO_does
    | (apply Sparse.wf_set; assumption)
    | exact rfl
    | intro _
    | dsimp only
    | split
    | with_reducible apply upd_saf

theorem safeConfig_does {A : List Part} {b₀ : State}  (s : State) 
    (hD : Does A b₀ s) (hA : partsIn [.block 0x01, .block 0x02, .block 0x03, .block 0x05, .block 0x08, .block 0x09, .block 0x0A, .block 0x0C, .free, .strand, .backup, .tides, .seqs, .exe, .loop, .dio, .saf, .pair, .can, .sup, .mbx, .out] A = true) : Does A b₀ (safeConfig s) := by
  unfold safeConfig
  repeat' first
    | with_reducible assumption
    | with_reducible apply safFault_does
    | with_reducible apply safeLoad_does
    | with_reducible apply setFlag_does
    | ((with_reducible refine partsIn_trans ?_ hA); exact rfl)
    | ((with_reducible refine listed_code ?_ hA); exact rfl)
    | exact fun (h : Sparse.wf _ _ = true) => h
    | with_reducible apply next_does
    | with_reducible apply id_does
    | with_reducible apply ite_does
    | with_reducible apply iteO_does
    | (apply Sparse.wf_set; assumption)
    | exact rfl
    | intro _
    | dsimp only
    | split

end Sys2Proof.Machine
end

