-- ==== Sys2Proof/Laws/OnlyLifecycle.lean ====
section
/-! SUPPORT. What each operation of Machine/Lifecycle.lean can do: the parts of the state it may change, and that it keeps
canonical form. -/
namespace Sys2Proof.Machine

theorem lcyCmd_does {A : List Part} {b₀ : State} (f : State → State) (s : State) (h_f : ∀ u, Does A b₀ u → Does A b₀ (f u))
    (hD : Does A b₀ s) (hA : partsIn [.block 0x0F, .strand, .out] A = true) : Does A b₀ (lcyCmd f s) := by
  unfold lcyCmd
  repeat' first
    | with_reducible assumption
    | with_reducible apply h_f
    | with_reducible apply hostCmd_does
    | ((with_reducible refine partsIn_trans ?_ hA); exact rfl)
    | ((with_reducible refine listed_code ?_ hA); exact rfl)
    | exact fun (h : Sparse.wf _ _ = true) => h
    | with_reducible apply next_does
    | with_reducible apply id_does
    | with_reducible apply ite_does
    | with_reducible apply iteO_does
    | (apply Sparse.wf_set; assumption)
    | exact rfl
    | intro _
    | dsimp only
    | split

theorem lcyResult_does {A : List Part} {b₀ : State} (st : Status) (s : State) 
    (hD : Does A b₀ s) (hA : partsIn [.block 0x11, .free, .strand, .out] A = true) : Does A b₀ (lcyResult st s) := by
  unfold lcyResult
  repeat' first
    | with_reducible assumption
    | with_reducible apply result_does
    | ((with_reducible refine partsIn_trans ?_ hA); exact rfl)
    | ((with_reducible refine listed_code ?_ hA); exact rfl)
    | exact fun (h : Sparse.wf _ _ = true) => h
    | with_reducible apply next_does
    | with_reducible apply id_does
    | with_reducible apply ite_does
    | with_reducible apply iteO_does
    | (apply Sparse.wf_set; assumption)
    | exact rfl
    | intro _
    | dsimp only
    | split

theorem lcyRefuse_does {A : List Part} {b₀ : State} (st : Status) (s : State) 
    (hD : Does A b₀ s) (hA : partsIn [.block 0x11, .free, .strand, .out] A = true) : Does A b₀ (lcyRefuse st s) := by
  unfold lcyRefuse
  repeat' first
    | with_reducible assumption
    | with_reducible apply lcyResult_does
    | with_reducible apply raiseF_does
    | ((with_reducible refine partsIn_trans ?_ hA); exact rfl)
    | ((with_reducible refine listed_code ?_ hA); exact rfl)
    | exact fun (h : Sparse.wf _ _ = true) => h
    | with_reducible apply next_does
    | with_reducible apply id_does
    | with_reducible apply ite_does
    | with_reducible apply iteO_does
    | (apply Sparse.wf_set; assumption)
    | exact rfl
    | intro _
    | dsimp only
    | split

theorem bulkAnswer_does {A : List Part} {b₀ : State} (q : Nat) (off : Nat) (st : Status) (s : State) 
    (hD : Does A b₀ s) (hA : partsIn [.block 0x13, .free, .mem, .strand, .queSeq, .out] A = true) : Does A b₀ (bulkAnswer q off st s) := by
  unfold bulkAnswer
  repeat' first
    | with_reducible assumption
    | with_reducible apply quePush_does
    | ((with_reducible refine partsIn_trans ?_ hA); exact rfl)
    | ((with_reducible refine listed_code ?_ hA); exact rfl)
    | exact fun (h : Sparse.wf _ _ = true) => h
    | with_reducible apply next_does
    | with_reducible apply id_does
    | with_reducible apply ite_does
    | with_reducible apply iteO_does
    | (apply Sparse.wf_set; assumption)
    | exact rfl
    | intro _
    | dsimp only
    | split

theorem execLcyTransition_does {A : List Part} {b₀ : State} (target : Byte) (confirm : Byte) (s : State) 
    (hD : Does A b₀ s) (hA : partsIn [.block 0x0F, .block 0x11, .free, .strand, .lcy, .out] A = true) : DoesO A b₀ (execLcyTransition target confirm s) := by
  unfold execLcyTransition
  repeat' first
    | with_reducible assumption
    | with_reducible apply lcyCmd_does
    | with_reducible apply lcyRefuse_does
    | with_reducible apply onlyIf_does
    | with_reducible apply sessionClose_does
    | with_reducible apply setFlag_does
    | ((with_reducible refine partsIn_trans ?_ hA); exact rfl)
    | ((with_reducible refine listed_code ?_ hA); exact rfl)
    | exact fun (h : Sparse.wf _ _ = true) => h
    | with_reducible apply next_does
    | with_reducible apply id_does
    | with_reducible apply ite_does
    | with_reducible apply iteO_does
    | (apply Sparse.wf_set; assumption)
    | exact rfl
    | intro _
    | dsimp only
    | split
    | with_reducible apply upd_lcy

theorem execLcyStateChanged_does {A : List Part} {b₀ : State}  (s : State) 
    (hD : Does A b₀ s) (hA : partsIn [.blocks, .master, .host, .time, .free, .mem, .strand, .backup, .tides, .tideTable, .seqs, .exe, .loop, .dio, .rfx, .ana, .saf, .triad, .pair, .net, .can, .lcy, .fwu, .sup, .mpu, .mbx, .queSeq, .out] A = true) : DoesO A b₀ (execLcyStateChanged s) := by
  unfold execLcyStateChanged
  repeat' first
    | with_reducible assumption
    | with_reducible apply eraseAll_does
    | with_reducible apply lcyResult_does
    | with_reducible apply moduleReset_does
    | with_reducible apply say_does
    | with_reducible apply sessionClose_does
    | with_reducible apply setFlag_does
    | with_reducible apply stateBlown_does
    | ((with_reducible refine listed_blocks ?_ hA); exact rfl)
    | ((with_reducible refine partsIn_trans ?_ hA); exact rfl)
    | ((with_reducible refine listed_code ?_ hA); exact rfl)
    | exact fun (h : Sparse.wf _ _ = true) => h
    | with_reducible apply next_does
    | with_reducible apply id_does
    | with_reducible apply ite_does
    | with_reducible apply iteO_does
    | (apply Sparse.wf_set; assumption)
    | exact rfl
    | intro _
    | dsimp only
    | split

theorem execLcyRevokeKey_does {A : List Part} {b₀ : State} (slot : Fin 2) (s : State) 
    (hD : Does A b₀ s) (hA : partsIn [.block 0x0F, .block 0x11, .free, .strand, .lcy, .out] A = true) : DoesO A b₀ (execLcyRevokeKey slot s) := by
  unfold execLcyRevokeKey
  repeat' first
    | with_reducible assumption
    | with_reducible apply lcyCmd_does
    | with_reducible apply lcyRefuse_does
    | with_reducible apply lcyResult_does
    | with_reducible apply say_does
    | ((with_reducible refine partsIn_trans ?_ hA); exact rfl)
    | ((with_reducible refine listed_code ?_ hA); exact rfl)
    | exact fun (h : Sparse.wf _ _ = true) => h
    | with_reducible apply next_does
    | with_reducible apply id_does
    | with_reducible apply ite_does
    | with_reducible apply iteO_does
    | (apply Sparse.wf_set; assumption)
    | exact rfl
    | intro _
    | dsimp only
    | split
    | with_reducible apply upd_lcy

theorem newNonce_does {A : List Part} {b₀ : State}  (s : State) 
    (hD : Does A b₀ s) (hA : partsIn [.block 0x11, .free] A = true) : Does A b₀ (newNonce s) := by
  unfold newNonce
  repeat' first
    | with_reducible assumption
    | with_reducible apply withFree_does
    | with_reducible apply wr64_does
    | ((with_reducible refine partsIn_trans ?_ hA); exact rfl)
    | ((with_reducible refine listed_code ?_ hA); exact rfl)
    | exact fun (h : Sparse.wf _ _ = true) => h
    | with_reducible apply next_does
    | with_reducible apply id_does
    | with_reducible apply ite_does
    | with_reducible apply iteO_does
    | (apply Sparse.wf_set; assumption)
    | exact rfl
    | (dsimp only [Reg.LCY_NONCE_LO]; omega)
    | intro _
    | dsimp only
    | split

theorem execLcyNewNonce_does {A : List Part} {b₀ : State}  (s : State) 
    (hD : Does A b₀ s) (hA : partsIn [.block 0x0F, .block 0x11, .free, .strand, .out] A = true) : DoesO A b₀ (execLcyNewNonce s) := by
  unfold execLcyNewNonce
  repeat' first
    | with_reducible assumption
    | with_reducible apply lcyCmd_does
    | with_reducible apply lcyResult_does
    | with_reducible apply newNonce_does
    | ((with_reducible refine partsIn_trans ?_ hA); exact rfl)
    | ((with_reducible refine listed_code ?_ hA); exact rfl)
    | exact fun (h : Sparse.wf _ _ = true) => h
    | with_reducible apply next_does
    | with_reducible apply id_does
    | with_reducible apply ite_does
    | with_reducible apply iteO_does
    | (apply Sparse.wf_set; assumption)
    | exact rfl
    | intro _
    | dsimp only
    | split

theorem keyItem_does {A : List Part} {b₀ : State} (bad : Bool) (st : Status) (f : State → State) (s : State) (h_f : ∀ u, Does A b₀ u → Does A b₀ (f u))
    (hD : Does A b₀ s) (hA : partsIn [.block 0x11, .block 0x13, .free, .mem, .strand, .queSeq, .out] A = true) : Does A b₀ (keyItem bad st f s) := by
  unfold keyItem
  repeat' first
    | with_reducible assumption
    | with_reducible apply h_f
    | with_reducible apply bulkAnswer_does
    | with_reducible apply queTake_does
    | with_reducible apply raiseF_does
    | with_reducible apply say_does
    | ((with_reducible refine partsIn_trans ?_ hA); exact rfl)
    | ((with_reducible refine listed_code ?_ hA); exact rfl)
    | exact fun (h : Sparse.wf _ _ = true) => h
    | with_reducible apply next_does
    | with_reducible apply id_does
    | with_reducible apply ite_does
    | with_reducible apply iteO_does
    | (apply Sparse.wf_set; assumption)
    | exact rfl
    | intro _
    | dsimp only
    | split

theorem execKeyPackage_does {A : List Part} {b₀ : State} (uid_ : DWord) (good : Bool) (k0 : Option (BitVec 384)) (k1 : Option (BitVec 384)) (s : State) 
    (hD : Does A b₀ s) (hA : partsIn [.block 0x11, .block 0x13, .free, .mem, .strand, .lcy, .queSeq, .out] A = true) : DoesO A b₀ (execKeyPackage uid_ good k0 k1 s) := by
  unfold execKeyPackage
  repeat' first
    | with_reducible assumption
    | with_reducible apply keyItem_does
    | ((with_reducible refine partsIn_trans ?_ hA); exact rfl)
    | ((with_reducible refine listed_code ?_ hA); exact rfl)
    | exact fun (h : Sparse.wf _ _ = true) => h
    | with_reducible apply next_does
    | with_reducible apply id_does
    | with_reducible apply ite_does
    | with_reducible apply iteO_does
    | (apply Sparse.wf_set; assumption)
    | exact rfl
    | intro _
    | dsimp only
    | split
    | with_reducible apply upd_lcy

theorem execReturnAuthorisation_does {A : List Part} {b₀ : State} (uid_ : DWord) (nonce : DWord) (good : Bool) (s : State) 
    (hD : Does A b₀ s) (hA : partsIn [.block 0x11, .block 0x13, .free, .mem, .strand, .lcy, .queSeq, .out] A = true) : DoesO A b₀ (execReturnAuthorisation uid_ nonce good s) := by
  unfold execReturnAuthorisation
  repeat' first
    | with_reducible assumption
    | with_reducible apply keyItem_does
    | ((with_reducible refine partsIn_trans ?_ hA); exact rfl)
    | ((with_reducible refine listed_code ?_ hA); exact rfl)
    | exact fun (h : Sparse.wf _ _ = true) => h
    | with_reducible apply next_does
    | with_reducible apply id_does
    | with_reducible apply ite_does
    | with_reducible apply iteO_does
    | (apply Sparse.wf_set; assumption)
    | exact rfl
    | intro _
    | dsimp only
    | split
    | with_reducible apply upd_lcy

theorem tokenVoid_does {A : List Part} {b₀ : State}  (s : State) 
    (hD : Does A b₀ s) (hA : partsIn [.lcy] A = true) : Does A b₀ (tokenVoid s) := by
  unfold tokenVoid
  repeat' first
    | with_reducible assumption
    | ((with_reducible refine partsIn_trans ?_ hA); exact rfl)
    | ((with_reducible refine listed_code ?_ hA); exact rfl)
    | exact fun (h : Sparse.wf _ _ = true) => h
    | with_reducible apply next_does
    | with_reducible apply id_does
    | with_reducible apply ite_does
    | with_reducible apply iteO_does
    | (apply Sparse.wf_set; assumption)
    | exact rfl
    | intro _
    | dsimp only
    | split
    | with_reducible apply upd_lcy

theorem execLcyDbgTokenWrite_does {A : List Part} {b₀ : State} (token : Word) (s : State) 
    (hD : Does A b₀ s) (hA : partsIn [.block 0x0F, .block 0x11, .strand, .lcy, .out] A = true) : DoesO A b₀ (execLcyDbgTokenWrite token s) := by
  unfold execLcyDbgTokenWrite
  repeat' first
    | with_reducible assumption
    | with_reducible apply hostCmd_does
    | with_reducible apply raiseF_does
    | with_reducible apply setFld_does
    | with_reducible apply tokenVoid_does
    | ((with_reducible refine partsIn_trans ?_ hA); exact rfl)
    | ((with_reducible refine listed_code ?_ hA); exact rfl)
    | exact fun (h : Sparse.wf _ _ = true) => h
    | with_reducible apply next_does
    | with_reducible apply id_does
    | with_reducible apply ite_does
    | with_reducible apply iteO_does
    | (apply Sparse.wf_set; assumption)
    | exact rfl
    | intro _
    | dsimp only
    | split
    | with_reducible apply upd_lcy

theorem sessionOpen_does {A : List Part} {b₀ : State} (scan : Bool) (s : State) 
    (hD : Does A b₀ s) (hA : partsIn [.block 0x11, .free, .strand, .lcy, .out] A = true) : Does A b₀ (sessionOpen scan s) := by
  unfold sessionOpen
  repeat' first
    | with_reducible assumption
    | with_reducible apply raiseF_does
    | with_reducible apply say_does
    | with_reducible apply setFlag_does
    | ((with_reducible refine partsIn_trans ?_ hA); exact rfl)
    | ((with_reducible refine listed_code ?_ hA); exact rfl)
    | exact fun (h : Sparse.wf _ _ = true) => h
    | with_reducible apply next_does
    | with_reducible apply id_does
    | with_reducible apply ite_does
    | with_reducible apply iteO_does
    | (apply Sparse.wf_set; assumption)
    | exact rfl
    | intro _
    | dsimp only
    | split
    | with_reducible apply upd_lcy

theorem execDbgAuth_does {A : List Part} {b₀ : State} (value : Word) (tie : Bool) (s : State) 
    (hD : Does A b₀ s) (hA : partsIn [.block 0x11, .free, .strand, .lcy, .out] A = true) : DoesO A b₀ (execDbgAuth value tie s) := by
  unfold execDbgAuth
  repeat' first
    | with_reducible assumption
    | with_reducible apply bump_does
    | with_reducible apply onlyIf_does
    | with_reducible apply raiseF_does
    | with_reducible apply say_does
    | with_reducible apply sessionOpen_does
    | with_reducible apply setFld_does
    | with_reducible apply tokenVoid_does
    | ((with_reducible refine partsIn_trans ?_ hA); exact rfl)
    | ((with_reducible refine listed_code ?_ hA); exact rfl)
    | exact fun (h : Sparse.wf _ _ = true) => h
    | with_reducible apply next_does
    | with_reducible apply id_does
    | with_reducible apply ite_does
    | with_reducible apply iteO_does
    | (apply Sparse.wf_set; assumption)
    | exact rfl
    | intro _
    | dsimp only
    | split

theorem execDbgTokenExpiry_does {A : List Part} {b₀ : State}  (s : State) 
    (hD : Does A b₀ s) (hA : partsIn [.block 0x11, .lcy, .out] A = true) : DoesO A b₀ (execDbgTokenExpiry s) := by
  unfold execDbgTokenExpiry
  repeat' first
    | with_reducible assumption
    | with_reducible apply raiseF_does
    | with_reducible apply tokenVoid_does
    | ((with_reducible refine partsIn_trans ?_ hA); exact rfl)
    | ((with_reducible refine listed_code ?_ hA); exact rfl)
    | exact fun (h : Sparse.wf _ _ = true) => h
    | with_reducible apply next_does
    | with_reducible apply id_does
    | with_reducible apply ite_does
    | with_reducible apply iteO_does
    | (apply Sparse.wf_set; assumption)
    | exact rfl
    | intro _
    | dsimp only
    | split

theorem execDbgSessionExpiry_does {A : List Part} {b₀ : State}  (s : State) 
    (hD : Does A b₀ s) (hA : partsIn [.block 0x11, .free, .strand, .out] A = true) : DoesO A b₀ (execDbgSessionExpiry s) := by
  unfold execDbgSessionExpiry
  repeat' first
    | with_reducible assumption
    | with_reducible apply sessionClose_does
    | ((with_reducible refine partsIn_trans ?_ hA); exact rfl)
    | ((with_reducible refine listed_code ?_ hA); exact rfl)
    | exact fun (h : Sparse.wf _ _ = true) => h
    | with_reducible apply next_does
    | with_reducible apply id_does
    | with_reducible apply ite_does
    | with_reducible apply iteO_does
    | (apply Sparse.wf_set; assumption)
    | exact rfl
    | intro _
    | dsimp only
    | split

theorem execLcyDbgClose_does {A : List Part} {b₀ : State}  (s : State) 
    (hD : Does A b₀ s) (hA : partsIn [.block 0x0F, .block 0x11, .free, .strand, .out] A = true) : DoesO A b₀ (execLcyDbgClose s) := by
  unfold execLcyDbgClose
  repeat' first
    | with_reducible assumption
    | with_reducible apply lcyCmd_does
    | with_reducible apply lcyResult_does
    | with_reducible apply sessionClose_does
    | ((with_reducible refine partsIn_trans ?_ hA); exact rfl)
    | ((with_reducible refine listed_code ?_ hA); exact rfl)
    | exact fun (h : Sparse.wf _ _ = true) => h
    | with_reducible apply next_does
    | with_reducible apply id_does
    | with_reducible apply ite_does
    | with_reducible apply iteO_does
    | (apply Sparse.wf_set; assumption)
    | exact rfl
    | intro _
    | dsimp only
    | split

theorem execScanInstruction_does {A : List Part} {b₀ : State} (inst : ScanInst) (s : State) 
    (hD : Does A b₀ s) (hA : partsIn [.block 0x11, .free, .strand, .lcy, .out] A = true) : DoesO A b₀ (execScanInstruction inst s) := by
  unfold execScanInstruction
  repeat' first
    | with_reducible assumption
    | with_reducible apply raiseF_does
    | with_reducible apply say_does
    | ((with_reducible refine listed_block 17 ?_ ?_ hA); first | omega | (dsimp only [Fld.LCY_EVENT_SCAN_REFUSED, Fld.SUP_PWR_STATE_STATE, power]; omega) | (dsimp only [Fld.LCY_EVENT_SCAN_REFUSED, Fld.SUP_PWR_STATE_STATE, power]; split <;> omega); exact rfl)
    | ((with_reducible refine partsIn_trans ?_ hA); exact rfl)
    | ((with_reducible refine listed_code ?_ hA); exact rfl)
    | exact fun (h : Sparse.wf _ _ = true) => h
    | with_reducible apply next_does
    | with_reducible apply id_does
    | with_reducible apply ite_does
    | with_reducible apply iteO_does
    | (apply Sparse.wf_set; assumption)
    | exact rfl
    | intro _
    | dsimp only
    | split
    | with_reducible apply upd_lcy

end Sys2Proof.Machine
end

