-- ==== Sys2Proof/Laws/OnlyFirmware.lean ====
section
/-! SUPPORT. What each operation of Machine/Firmware.lean can do: the parts of the state it may change, and that it keeps
canonical form. -/
namespace Sys2Proof.Machine

theorem fwuResult_does {A : List Part} {b₀ : State} (st : Status) (s : State) 
    (hD : Does A b₀ s) (hA : partsIn [.block 0x12, .free, .strand, .out] A = true) : Does A b₀ (fwuResult st s) := by
  unfold fwuResult
  repeat' first
    | with_reducible assumption
    | with_reducible apply result_does
    | ((with_reducible refine partsIn_trans ?_ hA); exact rfl)
    | ((with_reducible refine listed_code ?_ hA); exact rfl)
    | exact fun (h : Sparse.wf _ _ = true) => h
    | with_reducible apply next_does
    | with_reducible apply id_does
    | with_reducible apply ite_does
    | with_reducible apply iteO_does
    | (apply Sparse.wf_set; assumption)
    | exact rfl
    | intro _
    | dsimp only
    | split

theorem fwuRefuse_does {A : List Part} {b₀ : State} (st : Status) (s : State) 
    (hD : Does A b₀ s) (hA : partsIn [.block 0x12, .free, .strand, .out] A = true) : Does A b₀ (fwuRefuse st s) := by
  unfold fwuRefuse
  repeat' first
    | with_reducible assumption
    | with_reducible apply fwuResult_does
    | with_reducible apply raiseF_does
    | ((with_reducible refine partsIn_trans ?_ hA); exact rfl)
    | ((with_reducible refine listed_code ?_ hA); exact rfl)
    | exact fun (h : Sparse.wf _ _ = true) => h
    | with_reducible apply next_does
    | with_reducible apply id_does
    | with_reducible apply ite_does
    | with_reducible apply iteO_does
    | (apply Sparse.wf_set; assumption)
    | exact rfl
    | intro _
    | dsimp only
    | split

theorem fwuCmd_does {A : List Part} {b₀ : State} (f : State → State) (s : State) (h_f : ∀ u, Does A b₀ u → Does A b₀ (f u))
    (hD : Does A b₀ s) (hA : partsIn [.block 0x0F, .strand, .out] A = true) : Does A b₀ (fwuCmd f s) := by
  unfold fwuCmd
  repeat' first
    | with_reducible assumption
    | with_reducible apply h_f
    | with_reducible apply hostCmd_does
    | ((with_reducible refine partsIn_trans ?_ hA); exact rfl)
    | ((with_reducible refine listed_code ?_ hA); exact rfl)
    | exact fun (h : Sparse.wf _ _ = true) => h
    | with_reducible apply next_does
    | with_reducible apply id_does
    | with_reducible apply ite_does
    | with_reducible apply iteO_does
    | (apply Sparse.wf_set; assumption)
    | exact rfl
    | intro _
    | dsimp only
    | split

theorem onFwu_does {A : List Part} {b₀ : State} (f : Fwu → Fwu) (s : State) 
    (hD : Does A b₀ s) (hA : partsIn [.fwu] A = true) : Does A b₀ (onFwu f s) := by
  unfold onFwu
  repeat' first
    | with_reducible assumption
    | ((with_reducible refine partsIn_trans ?_ hA); exact rfl)
    | ((with_reducible refine listed_code ?_ hA); exact rfl)
    | exact fun (h : Sparse.wf _ _ = true) => h
    | with_reducible apply next_does
    | with_reducible apply id_does
    | with_reducible apply ite_does
    | with_reducible apply iteO_does
    | (apply Sparse.wf_set; assumption)
    | exact rfl
    | intro _
    | dsimp only
    | split
    | with_reducible apply upd_fwu

theorem execFwuProgram_does {A : List Part} {b₀ : State}  (s : State) 
    (hD : Does A b₀ s) (hA : partsIn [.block 0x0F, .block 0x12, .free, .mem, .strand, .fwu, .out] A = true) : DoesO A b₀ (execFwuProgram s) := by
  unfold execFwuProgram
  repeat' first
    | with_reducible assumption
    | with_reducible apply fwuCmd_does
    | with_reducible apply fwuRefuse_does
    | with_reducible apply fwuResult_does
    | with_reducible apply mclear_does
    | with_reducible apply onFwu_does
    | with_reducible apply setSlotValid_does
    | ((with_reducible refine partsIn_trans ?_ hA); exact rfl)
    | ((with_reducible refine listed_code ?_ hA); exact rfl)
    | exact fun (h : Sparse.wf _ _ = true) => h
    | with_reducible apply next_does
    | with_reducible apply id_does
    | with_reducible apply ite_does
    | with_reducible apply iteO_does
    | (apply Sparse.wf_set; assumption)
    | exact rfl
    | intro _
    | dsimp only
    | split

theorem execFwuAbort_does {A : List Part} {b₀ : State}  (s : State) 
    (hD : Does A b₀ s) (hA : partsIn [.block 0x0F, .block 0x12, .free, .strand, .fwu, .out] A = true) : DoesO A b₀ (execFwuAbort s) := by
  unfold execFwuAbort
  repeat' first
    | with_reducible assumption
    | with_reducible apply fwuCmd_does
    | with_reducible apply fwuResult_does
    | with_reducible apply onFwu_does
    | ((with_reducible refine partsIn_trans ?_ hA); exact rfl)
    | ((with_reducible refine listed_code ?_ hA); exact rfl)
    | exact fun (h : Sparse.wf _ _ = true) => h
    | with_reducible apply next_does
    | with_reducible apply id_does
    | with_reducible apply ite_does
    | with_reducible apply iteO_does
    | (apply Sparse.wf_set; assumption)
    | exact rfl
    | intro _
    | dsimp only
    | split

theorem bulkItem_does {A : List Part} {b₀ : State} (q : Nat) (f : Nat → Bool → List Byte → State → Status × State) (s : State) (h_f : ∀ x0 x1 x2 u, Does A b₀ u → Does A b₀ (f x0 x1 x2 u).2)
    (hD : Does A b₀ s) (hA : partsIn [.block 0x12, .block 0x13, .free, .mem, .strand, .queSeq, .out] A = true) : Does A b₀ (bulkItem q f s) := by
  unfold bulkItem
  repeat' first
    | with_reducible assumption
    | with_reducible apply h_f
    | with_reducible apply bulkAnswer_does
    | with_reducible apply onlyIf_does
    | with_reducible apply queTake_does
    | with_reducible apply raiseF_does
    | with_reducible apply say_does
    | ((with_reducible refine partsIn_trans ?_ hA); exact rfl)
    | ((with_reducible refine listed_code ?_ hA); exact rfl)
    | exact fun (h : Sparse.wf _ _ = true) => h
    | with_reducible apply next_does
    | with_reducible apply id_does
    | with_reducible apply ite_does
    | with_reducible apply iteO_does
    | (apply Sparse.wf_set; assumption)
    | exact rfl
    | intro _
    | dsimp only
    | split

theorem execFirmwareItem_does {A : List Part} {b₀ : State}  (s : State) 
    (hD : Does A b₀ s) (hA : partsIn [.block 0x12, .block 0x13, .free, .mem, .strand, .fwu, .queSeq, .out] A = true) : DoesO A b₀ (execFirmwareItem s) := by
  unfold execFirmwareItem
  repeat' first
    | with_reducible assumption
    | with_reducible apply bulkItem_does
    | with_reducible apply msetBytes_does
    | with_reducible apply onFwu_does
    | with_reducible apply onlyIf_does
    | ((with_reducible refine partsIn_trans ?_ hA); exact rfl)
    | ((with_reducible refine listed_code ?_ hA); exact rfl)
    | exact fun (h : Sparse.wf _ _ = true) => h
    | with_reducible apply next_does
    | with_reducible apply id_does
    | with_reducible apply ite_does
    | with_reducible apply iteO_does
    | (apply Sparse.wf_set; assumption)
    | exact rfl
    | intro _
    | dsimp only
    | split

theorem execFwuVerify_does {A : List Part} {b₀ : State} (good : Bool) (s : State) 
    (hD : Does A b₀ s) (hA : partsIn [.block 0x0F, .block 0x12, .free, .strand, .fwu, .out] A = true) : DoesO A b₀ (execFwuVerify good s) := by
  unfold execFwuVerify
  repeat' first
    | with_reducible assumption
    | with_reducible apply fwuCmd_does
    | with_reducible apply fwuRefuse_does
    | with_reducible apply fwuResult_does
    | with_reducible apply onFwu_does
    | with_reducible apply say_does
    | with_reducible apply setSlotValid_does
    | ((with_reducible refine partsIn_trans ?_ hA); exact rfl)
    | ((with_reducible refine listed_code ?_ hA); exact rfl)
    | exact fun (h : Sparse.wf _ _ = true) => h
    | with_reducible apply next_does
    | with_reducible apply id_does
    | with_reducible apply ite_does
    | with_reducible apply iteO_does
    | (apply Sparse.wf_set; assumption)
    | exact rfl
    | intro _
    | dsimp only
    | split

theorem trialStart_does {A : List Part} {b₀ : State}  (s : State) 
    (hD : Does A b₀ s) (hA : partsIn [.block 0x12, .free, .strand, .fwu, .out] A = true) : Does A b₀ (trialStart s) := by
  unfold trialStart
  repeat' first
    | with_reducible assumption
    | with_reducible apply healthOk_does
    | with_reducible apply onFwu_does
    | ((with_reducible refine partsIn_trans ?_ hA); exact rfl)
    | ((with_reducible refine listed_code ?_ hA); exact rfl)
    | exact fun (h : Sparse.wf _ _ = true) => h
    | with_reducible apply next_does
    | with_reducible apply id_does
    | with_reducible apply ite_does
    | with_reducible apply iteO_does
    | (apply Sparse.wf_set; assumption)
    | exact rfl
    | intro _
    | dsimp only
    | split

theorem activateReset_does {A : List Part} {b₀ : State}  (s : State) 
    (hD : Does A b₀ s) (hA : partsIn [.blocks, .master, .host, .time, .free, .strand, .tides, .tideTable, .seqs, .exe, .loop, .dio, .rfx, .ana, .saf, .triad, .pair, .net, .can, .lcy, .fwu, .sup, .mpu, .mbx, .queSeq, .out] A = true) : Does A b₀ (activateReset s) := by
  unfold activateReset
  repeat' first
    | with_reducible assumption
    | with_reducible apply moduleReset_does
    | with_reducible apply trialStart_does
    | ((with_reducible refine listed_blocks ?_ hA); exact rfl)
    | ((with_reducible refine partsIn_trans ?_ hA); exact rfl)
    | ((with_reducible refine listed_code ?_ hA); exact rfl)
    | exact fun (h : Sparse.wf _ _ = true) => h
    | with_reducible apply next_does
    | with_reducible apply id_does
    | with_reducible apply ite_does
    | with_reducible apply iteO_does
    | (apply Sparse.wf_set; assumption)
    | exact rfl
    | intro _
    | dsimp only
    | split

theorem activateLone_does {A : List Part} {b₀ : State}  (s : State) 
    (hD : Does A b₀ s) (hA : partsIn [.blocks, .master, .host, .time, .free, .strand, .tides, .tideTable, .seqs, .exe, .loop, .dio, .rfx, .ana, .saf, .triad, .pair, .net, .can, .lcy, .fwu, .sup, .mpu, .mbx, .queSeq, .out] A = true) : Does A b₀ (activateLone s) := by
  unfold activateLone
  repeat' first
    | with_reducible assumption
    | with_reducible apply activateReset_does
    | with_reducible apply fwuRefuse_does
    | with_reducible apply setFlag_does
    | ((with_reducible refine listed_blocks ?_ hA); exact rfl)
    | ((with_reducible refine partsIn_trans ?_ hA); exact rfl)
    | ((with_reducible refine listed_code ?_ hA); exact rfl)
    | exact fun (h : Sparse.wf _ _ = true) => h
    | with_reducible apply next_does
    | with_reducible apply id_does
    | with_reducible apply ite_does
    | with_reducible apply iteO_does
    | (apply Sparse.wf_set; assumption)
    | exact rfl
    | intro _
    | dsimp only
    | split
    | with_reducible apply upd_fwWait

theorem execFwuActivate_does {A : List Part} {b₀ : State} (full : Bool) (s : State) 
    (hD : Does A b₀ s) (hA : partsIn [.blocks, .master, .host, .time, .free, .strand, .tides, .tideTable, .seqs, .exe, .loop, .dio, .rfx, .ana, .saf, .triad, .pair, .net, .can, .lcy, .fwu, .sup, .mpu, .mbx, .queSeq, .out] A = true) : DoesO A b₀ (execFwuActivate full s) := by
  unfold execFwuActivate
  repeat' first
    | with_reducible assumption
    | with_reducible apply activateLone_does
    | with_reducible apply activateReset_does
    | with_reducible apply fwuCmd_does
    | with_reducible apply fwuRefuse_does
    | with_reducible apply onFwu_does
    | with_reducible apply setFlag_does
    | with_reducible apply switchAsk_does
    | ((with_reducible refine listed_block 9 ?_ ?_ hA); first | omega | (dsimp only [Fld.FWU_CFG_TRIAL_WIN, Fld.FWU_RESULT_BUSY, Fld.PAIR_STATE_STATE, pairState]; omega) | (dsimp only [Fld.FWU_CFG_TRIAL_WIN, Fld.FWU_RESULT_BUSY, Fld.PAIR_STATE_STATE, pairState]; split <;> omega); exact rfl)
    | ((with_reducible refine listed_block 18 ?_ ?_ hA); first | omega | (dsimp only [Fld.FWU_CFG_TRIAL_WIN, Fld.FWU_RESULT_BUSY, Fld.PAIR_STATE_STATE, pairState]; omega) | (dsimp only [Fld.FWU_CFG_TRIAL_WIN, Fld.FWU_RESULT_BUSY, Fld.PAIR_STATE_STATE, pairState]; split <;> omega); exact rfl)
    | ((with_reducible refine listed_blocks ?_ hA); exact rfl)
    | ((with_reducible refine partsIn_trans ?_ hA); exact rfl)
    | ((with_reducible refine listed_code ?_ hA); exact rfl)
    | exact fun (h : Sparse.wf _ _ = true) => h
    | with_reducible apply next_does
    | with_reducible apply id_does
    | with_reducible apply ite_does
    | with_reducible apply iteO_does
    | (apply Sparse.wf_set; assumption)
    | exact rfl
    | intro _
    | dsimp only
    | split
    | with_reducible apply upd_fwu_fwWait

theorem activateContinue_does {A : List Part} {b₀ : State}  (s : State) 
    (hD : Does A b₀ s) (hA : partsIn [.blocks, .master, .host, .time, .free, .strand, .tides, .tideTable, .seqs, .exe, .loop, .dio, .rfx, .ana, .saf, .triad, .pair, .net, .can, .lcy, .fwu, .sup, .mpu, .mbx, .queSeq, .out] A = true) : Does A b₀ (activateContinue s) := by
  unfold activateContinue
  repeat' first
    | with_reducible assumption
    | with_reducible apply activateLone_does
    | with_reducible apply activateReset_does
    | ((with_reducible refine listed_blocks ?_ hA); exact rfl)
    | ((with_reducible refine partsIn_trans ?_ hA); exact rfl)
    | ((with_reducible refine listed_code ?_ hA); exact rfl)
    | exact fun (h : Sparse.wf _ _ = true) => h
    | with_reducible apply next_does
    | with_reducible apply id_does
    | with_reducible apply ite_does
    | with_reducible apply iteO_does
    | (apply Sparse.wf_set; assumption)
    | exact rfl
    | intro _
    | dsimp only
    | split
    | with_reducible apply upd_fwu_fwWait

theorem execFwuPauseStart_does {A : List Part} {b₀ : State}  (s : State) 
    (hD : Does A b₀ s) (hA : partsIn [.block 0x12, .free, .strand, .fwu, .out] A = true) : DoesO A b₀ (execFwuPauseStart s) := by
  unfold execFwuPauseStart
  repeat' first
    | with_reducible assumption
    | with_reducible apply onFwu_does
    | with_reducible apply trialStart_does
    | ((with_reducible refine partsIn_trans ?_ hA); exact rfl)
    | ((with_reducible refine listed_code ?_ hA); exact rfl)
    | exact fun (h : Sparse.wf _ _ = true) => h
    | with_reducible apply next_does
    | with_reducible apply id_does
    | with_reducible apply ite_does
    | with_reducible apply iteO_does
    | (apply Sparse.wf_set; assumption)
    | exact rfl
    | intro _
    | dsimp only
    | split
    | with_reducible apply upd_fwPause_fwWait

theorem execFwuActivated_does {A : List Part} {b₀ : State}  (s : State) 
    (hD : Does A b₀ s) (hA : partsIn [.block 0x03, .block 0x05, .block 0x12, .free, .strand, .exe, .dio, .fwu, .mbx, .out] A = true) : DoesO A b₀ (execFwuActivated s) := by
  unfold execFwuActivated
  repeat' first
    | with_reducible assumption
    | with_reducible apply bump_does
    | with_reducible apply forAll_does
    | with_reducible apply fwuResult_does
    | with_reducible apply raiseF_does
    | with_reducible apply releaseTask_does
    | with_reducible apply sayD_does
    | with_reducible apply setFlag_does
    | with_reducible apply setFld_does
    | ((with_reducible refine partsIn_trans ?_ hA); exact rfl)
    | ((with_reducible refine listed_code ?_ hA); exact rfl)
    | exact fun (h : Sparse.wf _ _ = true) => h
    | with_reducible apply next_does
    | with_reducible apply id_does
    | with_reducible apply ite_does
    | with_reducible apply iteO_does
    | (apply Sparse.wf_set; assumption)
    | exact rfl
    | intro _
    | dsimp only
    | split
    | with_reducible apply upd_freeCtr_fwPause

theorem healthOk_does {A : List Part} {b₀ : State}  (s : State) 
    (hD : Does A b₀ s) (hA : partsIn [.block 0x12, .free, .strand, .fwu, .out] A = true) : Does A b₀ (healthOk s) := by
  unfold healthOk
  repeat' first
    | with_reducible assumption
    | with_reducible apply onFwu_does
    | with_reducible apply raiseF_does
    | with_reducible apply say_does
    | ((with_reducible refine partsIn_trans ?_ hA); exact rfl)
    | ((with_reducible refine listed_code ?_ hA); exact rfl)
    | exact fun (h : Sparse.wf _ _ = true) => h
    | with_reducible apply next_does
    | with_reducible apply id_does
    | with_reducible apply ite_does
    | with_reducible apply iteO_does
    | (apply Sparse.wf_set; assumption)
    | exact rfl
    | intro _
    | dsimp only
    | split

theorem execFwuHealthOk_does {A : List Part} {b₀ : State}  (s : State) 
    (hD : Does A b₀ s) (hA : partsIn [.block 0x12, .free, .strand, .fwu, .out] A = true) : DoesO A b₀ (execFwuHealthOk s) := by
  unfold execFwuHealthOk
  repeat' first
    | with_reducible assumption
    | with_reducible apply healthOk_does
    | ((with_reducible refine partsIn_trans ?_ hA); exact rfl)
    | ((with_reducible refine listed_code ?_ hA); exact rfl)
    | exact fun (h : Sparse.wf _ _ = true) => h
    | with_reducible apply next_does
    | with_reducible apply id_does
    | with_reducible apply ite_does
    | with_reducible apply iteO_does
    | (apply Sparse.wf_set; assumption)
    | exact rfl
    | intro _
    | dsimp only
    | split

theorem execFwuTrialExpiry_does {A : List Part} {b₀ : State} (tie : Bool) (s : State) 
    (hD : Does A b₀ s) (hA : partsIn [.blocks, .master, .host, .time, .free, .strand, .tides, .tideTable, .seqs, .exe, .loop, .dio, .rfx, .ana, .saf, .triad, .pair, .net, .can, .lcy, .fwu, .sup, .mpu, .mbx, .queSeq, .out] A = true) : DoesO A b₀ (execFwuTrialExpiry tie s) := by
  unfold execFwuTrialExpiry
  repeat' first
    | with_reducible assumption
    | with_reducible apply bump_does
    | with_reducible apply healthOk_does
    | with_reducible apply moduleReset_does
    | ((with_reducible refine listed_blocks ?_ hA); exact rfl)
    | ((with_reducible refine partsIn_trans ?_ hA); exact rfl)
    | ((with_reducible refine listed_code ?_ hA); exact rfl)
    | exact fun (h : Sparse.wf _ _ = true) => h
    | with_reducible apply next_does
    | with_reducible apply id_does
    | with_reducible apply ite_does
    | with_reducible apply iteO_does
    | (apply Sparse.wf_set; assumption)
    | exact rfl
    | intro _
    | dsimp only
    | split

theorem execFwuReject_does {A : List Part} {b₀ : State}  (s : State) 
    (hD : Does A b₀ s) (hA : partsIn [.blocks, .master, .host, .time, .free, .strand, .tides, .tideTable, .seqs, .exe, .loop, .dio, .rfx, .ana, .saf, .triad, .pair, .net, .can, .lcy, .fwu, .sup, .mpu, .mbx, .queSeq, .out] A = true) : DoesO A b₀ (execFwuReject s) := by
  unfold execFwuReject
  repeat' first
    | with_reducible assumption
    | with_reducible apply fwuCmd_does
    | with_reducible apply fwuRefuse_does
    | with_reducible apply moduleReset_does
    | with_reducible apply say_does
    | ((with_reducible refine listed_blocks ?_ hA); exact rfl)
    | ((with_reducible refine partsIn_trans ?_ hA); exact rfl)
    | ((with_reducible refine listed_code ?_ hA); exact rfl)
    | exact fun (h : Sparse.wf _ _ = true) => h
    | with_reducible apply next_does
    | with_reducible apply id_does
    | with_reducible apply ite_does
    | with_reducible apply iteO_does
    | (apply Sparse.wf_set; assumption)
    | exact rfl
    | intro _
    | dsimp only
    | split

theorem execConfigStoreWrite_does {A : List Part} {b₀ : State} (copy : CfgCopy) (s : State) 
    (hD : Does A b₀ s) (hA : partsIn [.block 0x11, .block 0x12, .block 0x13, .free, .mem, .strand, .fwu, .queSeq, .out] A = true) : DoesO A b₀ (execConfigStoreWrite copy s) := by
  unfold execConfigStoreWrite
  repeat' first
    | with_reducible assumption
    | with_reducible apply bulkItem_does
    | with_reducible apply onFwu_does
    | with_reducible apply raiseF_does
    | ((with_reducible refine partsIn_trans ?_ hA); exact rfl)
    | ((with_reducible refine listed_code ?_ hA); exact rfl)
    | exact fun (h : Sparse.wf _ _ = true) => h
    | with_reducible apply next_does
    | with_reducible apply id_does
    | with_reducible apply ite_does
    | with_reducible apply iteO_does
    | (apply Sparse.wf_set; assumption)
    | exact rfl
    | intro _
    | dsimp only
    | split

theorem execProgramStoreWrite_does {A : List Part} {b₀ : State} (image : Option Image) (signed : Signed) (s : State) 
    (hD : Does A b₀ s) (hA : partsIn [.block 0x12, .block 0x13, .free, .mem, .strand, .fwu, .queSeq, .out] A = true) : DoesO A b₀ (execProgramStoreWrite image signed s) := by
  unfold execProgramStoreWrite
  repeat' first
    | with_reducible assumption
    | with_reducible apply bulkItem_does
    | with_reducible apply msetBytes_does
    | with_reducible apply onFwu_does
    | ((with_reducible refine partsIn_trans ?_ hA); exact rfl)
    | ((with_reducible refine listed_code ?_ hA); exact rfl)
    | exact fun (h : Sparse.wf _ _ = true) => h
    | with_reducible apply next_does
    | with_reducible apply id_does
    | with_reducible apply ite_does
    | with_reducible apply iteO_does
    | (apply Sparse.wf_set; assumption)
    | exact rfl
    | intro _
    | dsimp only
    | split

theorem execUnusedBulkQueueItem_does {A : List Part} {b₀ : State} (k : Fin 4) (s : State) 
    (hD : Does A b₀ s) (hA : partsIn [.block 0x13, .free, .mem, .strand, .queSeq, .out] A = true) : DoesO A b₀ (execUnusedBulkQueueItem k s) := by
  unfold execUnusedBulkQueueItem
  repeat' first
    | with_reducible assumption
    | with_reducible apply quePush_does
    | with_reducible apply queTake_does
    | ((with_reducible refine partsIn_trans ?_ hA); exact rfl)
    | ((with_reducible refine listed_code ?_ hA); exact rfl)
    | exact fun (h : Sparse.wf _ _ = true) => h
    | with_reducible apply next_does
    | with_reducible apply id_does
    | with_reducible apply ite_does
    | with_reducible apply iteO_does
    | (apply Sparse.wf_set; assumption)
    | exact rfl
    | intro _
    | dsimp only
    | split

end Sys2Proof.Machine
end

