-- ==== Sys2Proof/Laws/OnlyKq.lean ====
section
/-! SUPPORT. What each operation of Machine/Kq.lean can do: the parts of the state it may change, and that it keeps
canonical form. -/
namespace Sys2Proof.Machine

theorem kqRun_does {A : List Part} {b₀ : State} (f : Nat → State → State) (s : State) (h_f : ∀ x0 u, Does A b₀ u → Does A b₀ (f x0 u))
    (hD : Does A b₀ s) : Does A b₀ (kqRun f s) := by
  unfold kqRun
  repeat' first
    | with_reducible assumption
    | with_reducible apply h_f
    | exact fun (h : Sparse.wf _ _ = true) => h
    | with_reducible apply next_does
    | with_reducible apply id_does
    | with_reducible apply ite_does
    | with_reducible apply iteO_does
    | (apply Sparse.wf_set; assumption)
    | exact rfl
    | intro _
    | dsimp only
    | split

theorem kqTask_does {A : List Part} {b₀ : State} (f : Task → Task) (s : State) 
    (hD : Does A b₀ s) (hA : partsIn [.exe] A = true) : Does A b₀ (kqTask f s) := by
  unfold kqTask
  repeat' first
    | with_reducible assumption
    | with_reducible apply kqRun_does
    | with_reducible apply onTask_does
    | ((with_reducible refine partsIn_trans ?_ hA); exact rfl)
    | ((with_reducible refine listed_code ?_ hA); exact rfl)
    | exact fun (h : Sparse.wf _ _ = true) => h
    | with_reducible apply next_does
    | with_reducible apply id_does
    | with_reducible apply ite_does
    | with_reducible apply iteO_does
    | (apply Sparse.wf_set; assumption)
    | exact rfl
    | intro _
    | dsimp only
    | split

theorem commitPoint_does {A : List Part} {b₀ : State} (t : Nat) (s : State) 
    (hD : Does A b₀ s) (hA : partsIn [.exe, .pair, .out] A = true) : Does A b₀ (commitPoint t s) := by
  unfold commitPoint
  repeat' first
    | with_reducible assumption
    | with_reducible apply onTask_does
    | with_reducible apply preempt_does
    | ((with_reducible refine partsIn_trans ?_ hA); exact rfl)
    | ((with_reducible refine listed_code ?_ hA); exact rfl)
    | exact fun (h : Sparse.wf _ _ = true) => h
    | with_reducible apply next_does
    | with_reducible apply id_does
    | with_reducible apply ite_does
    | with_reducible apply iteO_does
    | (apply Sparse.wf_set; assumption)
    | exact rfl
    | intro _
    | dsimp only
    | split
    | with_reducible apply upd_pair

theorem kqFault_does {A : List Part} {b₀ : State} (st : Status) (t : Nat) (s : State) 
    (hD : Does A b₀ s) (hA : partsIn [.block 0x01, .block 0x02, .block 0x03, .block 0x05, .block 0x08, .block 0x09, .block 0x0A, .block 0x0C, .free, .strand, .backup, .tides, .seqs, .exe, .loop, .dio, .saf, .pair, .can, .sup, .mbx, .out] A = true) : Does A b₀ (kqFault st t s) := by
  unfold kqFault
  repeat' first
    | with_reducible assumption
    | with_reducible apply progFault_does
    | ((with_reducible refine partsIn_trans ?_ hA); exact rfl)
    | ((with_reducible refine listed_code ?_ hA); exact rfl)
    | exact fun (h : Sparse.wf _ _ = true) => h
    | with_reducible apply next_does
    | with_reducible apply id_does
    | with_reducible apply ite_does
    | with_reducible apply iteO_does
    | (apply Sparse.wf_set; assumption)
    | exact rfl
    | intro _
    | dsimp only
    | split

theorem kqProt_does {A : List Part} {b₀ : State} (t : Nat) (a : Nat) (k : Acc) (colour : Nat) (f : State → State) (s : State) (h_f : ∀ u, Does A b₀ u → Does A b₀ (f u))
    (hD : Does A b₀ s) (hA : partsIn [.block 0x01, .block 0x02, .block 0x03, .block 0x05, .block 0x08, .block 0x09, .block 0x0A, .block 0x0C, .block 0x0F, .free, .strand, .backup, .tides, .seqs, .exe, .loop, .dio, .saf, .pair, .can, .sup, .mbx, .out] A = true) : Does A b₀ (kqProt t a k colour f s) := by
  unfold kqProt
  repeat' first
    | with_reducible assumption
    | with_reducible apply h_f
    | with_reducible apply kqFault_does
    | with_reducible apply mpuDeny_does
    | ((with_reducible refine partsIn_trans ?_ hA); exact rfl)
    | ((with_reducible refine listed_code ?_ hA); exact rfl)
    | exact fun (h : Sparse.wf _ _ = true) => h
    | with_reducible apply next_does
    | with_reducible apply id_does
    | with_reducible apply ite_does
    | with_reducible apply iteO_does
    | (apply Sparse.wf_set; assumption)
    | exact rfl
    | intro _
    | dsimp only
    | split

theorem kqReg_does {A : List Part} {b₀ : State} (t : Nat) (a : Nat) (k : Acc) (f : State → State) (s : State) (h_f : ∀ u, Does A b₀ u → Does A b₀ (f u))
    (hD : Does A b₀ s) (hA : partsIn [.block 0x01, .block 0x02, .block 0x03, .block 0x05, .block 0x08, .block 0x09, .block 0x0A, .block 0x0C, .block 0x0F, .free, .strand, .backup, .tides, .seqs, .exe, .loop, .dio, .saf, .pair, .can, .sup, .mbx, .out] A = true) : Does A b₀ (kqReg t a k f s) := by
  unfold kqReg
  repeat' first
    | with_reducible assumption
    | with_reducible apply h_f
    | with_reducible apply kqProt_does
    | ((with_reducible refine listed_block 1 ?_ ?_ hA); first | omega | (dsimp only [Fld.MPU_STG_MCFG_COLOUR, masterColour]; omega) | (dsimp only [Fld.MPU_STG_MCFG_COLOUR, masterColour]; split <;> omega); exact rfl)
    | ((with_reducible refine listed_block 2 ?_ ?_ hA); first | omega | (dsimp only [Fld.MPU_STG_MCFG_COLOUR, masterColour]; omega) | (dsimp only [Fld.MPU_STG_MCFG_COLOUR, masterColour]; split <;> omega); exact rfl)
    | ((with_reducible refine listed_block 3 ?_ ?_ hA); first | omega | (dsimp only [Fld.MPU_STG_MCFG_COLOUR, masterColour]; omega) | (dsimp only [Fld.MPU_STG_MCFG_COLOUR, masterColour]; split <;> omega); exact rfl)
    | ((with_reducible refine listed_block 5 ?_ ?_ hA); first | omega | (dsimp only [Fld.MPU_STG_MCFG_COLOUR, masterColour]; omega) | (dsimp only [Fld.MPU_STG_MCFG_COLOUR, masterColour]; split <;> omega); exact rfl)
    | ((with_reducible refine listed_block 8 ?_ ?_ hA); first | omega | (dsimp only [Fld.MPU_STG_MCFG_COLOUR, masterColour]; omega) | (dsimp only [Fld.MPU_STG_MCFG_COLOUR, masterColour]; split <;> omega); exact rfl)
    | ((with_reducible refine listed_block 9 ?_ ?_ hA); first | omega | (dsimp only [Fld.MPU_STG_MCFG_COLOUR, masterColour]; omega) | (dsimp only [Fld.MPU_STG_MCFG_COLOUR, masterColour]; split <;> omega); exact rfl)
    | ((with_reducible refine listed_block 10 ?_ ?_ hA); first | omega | (dsimp only [Fld.MPU_STG_MCFG_COLOUR, masterColour]; omega) | (dsimp only [Fld.MPU_STG_MCFG_COLOUR, masterColour]; split <;> omega); exact rfl)
    | ((with_reducible refine listed_block 12 ?_ ?_ hA); first | omega | (dsimp only [Fld.MPU_STG_MCFG_COLOUR, masterColour]; omega) | (dsimp only [Fld.MPU_STG_MCFG_COLOUR, masterColour]; split <;> omega); exact rfl)
    | ((with_reducible refine listed_block 15 ?_ ?_ hA); first | omega | (dsimp only [Fld.MPU_STG_MCFG_COLOUR, masterColour]; omega) | (dsimp only [Fld.MPU_STG_MCFG_COLOUR, masterColour]; split <;> omega); exact rfl)
    | ((with_reducible refine partsIn_trans ?_ hA); exact rfl)
    | ((with_reducible refine listed_code ?_ hA); exact rfl)
    | exact fun (h : Sparse.wf _ _ = true) => h
    | with_reducible apply next_does
    | with_reducible apply id_does
    | with_reducible apply ite_does
    | with_reducible apply iteO_does
    | (apply Sparse.wf_set; assumption)
    | exact rfl
    | intro _
    | dsimp only
    | split

theorem kqEnd_does {A : List Part} {b₀ : State} (t : Nat) (point : Bool) (s : State) 
    (hD : Does A b₀ s) (hA : partsIn [.exe, .pair, .out] A = true) : Does A b₀ (kqEnd t point s) := by
  unfold kqEnd
  repeat' first
    | with_reducible assumption
    | with_reducible apply commitPoint_does
    | with_reducible apply onlyIf_does
    | ((with_reducible refine partsIn_trans ?_ hA); exact rfl)
    | ((with_reducible refine listed_code ?_ hA); exact rfl)
    | exact fun (h : Sparse.wf _ _ = true) => h
    | with_reducible apply next_does
    | with_reducible apply id_does
    | with_reducible apply ite_does
    | with_reducible apply iteO_does
    | (apply Sparse.wf_set; assumption)
    | exact rfl
    | intro _
    | dsimp only
    | split

theorem takeReplay_does {A : List Part} {b₀ : State} {t : Nat} {s u : State} {r : Replay}
    (h : takeReplay t s = some (r, u)) (hD : Does A b₀ s) (hA : partsIn [.pair] A = true) : Does A b₀ u := by
  unfold takeReplay at h
  split at h
  · cases h
  · injection h with h
    injection h with _ h
    exact h ▸ upd_pair hD hA

theorem kqReplay_does {A : List Part} {b₀ : State} (t : Nat) (rd : Fin 64) (point : Bool) (own : State → State) (act : State → KqRes × State) (s : State) (h_own : ∀ u, Does A b₀ u → Does A b₀ (own u)) (h_act : ∀ u, Does A b₀ u → Does A b₀ (act u).2)
    (hD : Does A b₀ s) (hA : partsIn [.exe, .pair, .out] A = true) : Does A b₀ (kqReplay t rd point own act s) := by
  unfold kqReplay
  repeat' first
    | with_reducible assumption
    | with_reducible apply h_own
    | with_reducible apply h_act
    | with_reducible apply cwStep_does
    | with_reducible apply kqEnd_does
    | with_reducible apply onTask_does
    | (with_reducible refine takeReplay_does ‹takeReplay _ _ = some _› ?_ ?_)
    | ((with_reducible refine partsIn_trans ?_ hA); exact rfl)
    | ((with_reducible refine listed_code ?_ hA); exact rfl)
    | exact fun (h : Sparse.wf _ _ = true) => h
    | with_reducible apply next_does
    | with_reducible apply id_does
    | with_reducible apply ite_does
    | with_reducible apply iteO_does
    | (apply Sparse.wf_set; assumption)
    | exact rfl
    | intro _
    | dsimp only
    | split

theorem kqBlock_does {A : List Part} {b₀ : State} (t : Nat) (rd : Fin 64) (waits : Bool) (ordered : Bool) (own : State → State) (act : State → KqRes × State) (s : State) (h_own : ∀ u, Does A b₀ u → Does A b₀ (own u)) (h_act : ∀ u, Does A b₀ u → Does A b₀ (act u).2)
    (hD : Does A b₀ s) (hA : partsIn [.exe, .pair, .out] A = true) : Does A b₀ (kqBlock t rd waits ordered own act s) := by
  unfold kqBlock
  repeat' first
    | with_reducible assumption
    | with_reducible apply h_own
    | with_reducible apply h_act
    | with_reducible apply cwStep_does
    | with_reducible apply kqReplay_does
    | with_reducible apply onTask_does
    | ((with_reducible refine partsIn_trans ?_ hA); exact rfl)
    | ((with_reducible refine listed_code ?_ hA); exact rfl)
    | exact fun (h : Sparse.wf _ _ = true) => h
    | with_reducible apply next_does
    | with_reducible apply id_does
    | with_reducible apply ite_does
    | with_reducible apply iteO_does
    | (apply Sparse.wf_set; assumption)
    | exact rfl
    | intro _
    | dsimp only
    | split

theorem statusAct_does {A : List Part} {b₀ : State} (f : State → Status × State) (s : State) (h_f : ∀ u, Does A b₀ u → Does A b₀ (f u).2)
    (hD : Does A b₀ s) : Does A b₀ (statusAct f s).2 := by
  unfold statusAct
  repeat' first
    | with_reducible assumption
    | with_reducible apply h_f
    | exact fun (h : Sparse.wf _ _ = true) => h
    | with_reducible apply next_does
    | with_reducible apply id_does
    | with_reducible apply ite_does
    | with_reducible apply iteO_does
    | (apply Sparse.wf_set; assumption)
    | exact rfl
    | intro _
    | dsimp only
    | split

theorem ownPart_does {A : List Part} {b₀ : State} (f : State → Status × State) (s : State) (h_f : ∀ u, Does A b₀ u → Does A b₀ (f u).2)
    (hD : Does A b₀ s) : Does A b₀ (ownPart f s) := by
  unfold ownPart
  repeat' first
    | with_reducible assumption
    | with_reducible apply h_f
    | exact fun (h : Sparse.wf _ _ = true) => h
    | with_reducible apply next_does
    | with_reducible apply id_does
    | with_reducible apply ite_does
    | with_reducible apply iteO_does
    | (apply Sparse.wf_set; assumption)
    | exact rfl
    | intro _
    | dsimp only
    | split

theorem kqGoto_does {A : List Part} {b₀ : State} (t : Nat) (target : Int) (point : Bool) (f : Task → Task) (s : State) 
    (hD : Does A b₀ s) (hA : partsIn [.block 0x01, .block 0x02, .block 0x03, .block 0x05, .block 0x08, .block 0x09, .block 0x0A, .block 0x0C, .free, .strand, .backup, .tides, .seqs, .exe, .loop, .dio, .saf, .pair, .can, .sup, .mbx, .out] A = true) : Does A b₀ (kqGoto t target point f s) := by
  unfold kqGoto
  repeat' first
    | with_reducible assumption
    | with_reducible apply kqEnd_does
    | with_reducible apply kqFault_does
    | with_reducible apply onTask_does
    | ((with_reducible refine partsIn_trans ?_ hA); exact rfl)
    | ((with_reducible refine listed_code ?_ hA); exact rfl)
    | exact fun (h : Sparse.wf _ _ = true) => h
    | with_reducible apply next_does
    | with_reducible apply id_does
    | with_reducible apply ite_does
    | with_reducible apply iteO_does
    | (apply Sparse.wf_set; assumption)
    | exact rfl
    | intro _
    | dsimp only
    | split

theorem kqBranch_does {A : List Part} {b₀ : State} (off : BitVec 20) (c : Task → Bool) (s : State) 
    (hD : Does A b₀ s) (hA : partsIn [.block 0x01, .block 0x02, .block 0x03, .block 0x05, .block 0x08, .block 0x09, .block 0x0A, .block 0x0C, .free, .strand, .backup, .tides, .seqs, .exe, .loop, .dio, .saf, .pair, .can, .sup, .mbx, .out] A = true) : Does A b₀ (kqBranch off c s) := by
  unfold kqBranch
  repeat' first
    | with_reducible assumption
    | with_reducible apply kqGoto_does
    | with_reducible apply kqRun_does
    | with_reducible apply onTask_does
    | ((with_reducible refine partsIn_trans ?_ hA); exact rfl)
    | ((with_reducible refine listed_code ?_ hA); exact rfl)
    | exact fun (h : Sparse.wf _ _ = true) => h
    | with_reducible apply next_does
    | with_reducible apply id_does
    | with_reducible apply ite_does
    | with_reducible apply iteO_does
    | (apply Sparse.wf_set; assumption)
    | exact rfl
    | intro _
    | dsimp only
    | split

theorem kqCall_does {A : List Part} {b₀ : State} (t : Nat) (target : Int) (s : State) 
    (hD : Does A b₀ s) (hA : partsIn [.block 0x01, .block 0x02, .block 0x03, .block 0x05, .block 0x08, .block 0x09, .block 0x0A, .block 0x0C, .free, .strand, .backup, .tides, .seqs, .exe, .loop, .dio, .saf, .pair, .can, .sup, .mbx, .out] A = true) : Does A b₀ (kqCall t target s) := by
  unfold kqCall
  repeat' first
    | with_reducible assumption
    | with_reducible apply kqFault_does
    | with_reducible apply kqGoto_does
    | ((with_reducible refine partsIn_trans ?_ hA); exact rfl)
    | ((with_reducible refine listed_code ?_ hA); exact rfl)
    | exact fun (h : Sparse.wf _ _ = true) => h
    | with_reducible apply next_does
    | with_reducible apply id_does
    | with_reducible apply ite_does
    | with_reducible apply iteO_does
    | (apply Sparse.wf_set; assumption)
    | exact rfl
    | intro _
    | dsimp only
    | split

theorem execBr_does {A : List Part} {b₀ : State} (off : BitVec 20) (s : State) 
    (hD : Does A b₀ s) (hA : partsIn [.block 0x01, .block 0x02, .block 0x03, .block 0x05, .block 0x08, .block 0x09, .block 0x0A, .block 0x0C, .free, .strand, .backup, .tides, .seqs, .exe, .loop, .dio, .saf, .pair, .can, .sup, .mbx, .out] A = true) : DoesO A b₀ (execBr off s) := by
  unfold execBr
  repeat' first
    | with_reducible assumption
    | with_reducible apply kqBranch_does
    | ((with_reducible refine partsIn_trans ?_ hA); exact rfl)
    | ((with_reducible refine listed_code ?_ hA); exact rfl)
    | exact fun (h : Sparse.wf _ _ = true) => h
    | with_reducible apply next_does
    | with_reducible apply id_does
    | with_reducible apply ite_does
    | with_reducible apply iteO_does
    | (apply Sparse.wf_set; assumption)
    | exact rfl
    | intro _
    | dsimp only
    | split

theorem execCall_does {A : List Part} {b₀ : State} (off : BitVec 20) (s : State) 
    (hD : Does A b₀ s) (hA : partsIn [.block 0x01, .block 0x02, .block 0x03, .block 0x05, .block 0x08, .block 0x09, .block 0x0A, .block 0x0C, .free, .strand, .backup, .tides, .seqs, .exe, .loop, .dio, .saf, .pair, .can, .sup, .mbx, .out] A = true) : DoesO A b₀ (execCall off s) := by
  unfold execCall
  repeat' first
    | with_reducible assumption
    | with_reducible apply kqCall_does
    | with_reducible apply kqRun_does
    | ((with_reducible refine partsIn_trans ?_ hA); exact rfl)
    | ((with_reducible refine listed_code ?_ hA); exact rfl)
    | exact fun (h : Sparse.wf _ _ = true) => h
    | with_reducible apply next_does
    | with_reducible apply id_does
    | with_reducible apply ite_does
    | with_reducible apply iteO_does
    | (apply Sparse.wf_set; assumption)
    | exact rfl
    | intro _
    | dsimp only
    | split

theorem execBz_does {A : List Part} {b₀ : State} (rs : Fin 64) (off : BitVec 20) (s : State) 
    (hD : Does A b₀ s) (hA : partsIn [.block 0x01, .block 0x02, .block 0x03, .block 0x05, .block 0x08, .block 0x09, .block 0x0A, .block 0x0C, .free, .strand, .backup, .tides, .seqs, .exe, .loop, .dio, .saf, .pair, .can, .sup, .mbx, .out] A = true) : DoesO A b₀ (execBz rs off s) := by
  unfold execBz
  repeat' first
    | with_reducible assumption
    | with_reducible apply kqBranch_does
    | ((with_reducible refine partsIn_trans ?_ hA); exact rfl)
    | ((with_reducible refine listed_code ?_ hA); exact rfl)
    | exact fun (h : Sparse.wf _ _ = true) => h
    | with_reducible apply next_does
    | with_reducible apply id_does
    | with_reducible apply ite_does
    | with_reducible apply iteO_does
    | (apply Sparse.wf_set; assumption)
    | exact rfl
    | intro _
    | dsimp only
    | split

theorem execBnz_does {A : List Part} {b₀ : State} (rs : Fin 64) (off : BitVec 20) (s : State) 
    (hD : Does A b₀ s) (hA : partsIn [.block 0x01, .block 0x02, .block 0x03, .block 0x05, .block 0x08, .block 0x09, .block 0x0A, .block 0x0C, .free, .strand, .backup, .tides, .seqs, .exe, .loop, .dio, .saf, .pair, .can, .sup, .mbx, .out] A = true) : DoesO A b₀ (execBnz rs off s) := by
  unfold execBnz
  repeat' first
    | with_reducible assumption
    | with_reducible apply kqBranch_does
    | ((with_reducible refine partsIn_trans ?_ hA); exact rfl)
    | ((with_reducible refine listed_code ?_ hA); exact rfl)
    | exact fun (h : Sparse.wf _ _ = true) => h
    | with_reducible apply next_does
    | with_reducible apply id_does
    | with_reducible apply ite_does
    | with_reducible apply iteO_does
    | (apply Sparse.wf_set; assumption)
    | exact rfl
    | intro _
    | dsimp only
    | split

theorem execBltz_does {A : List Part} {b₀ : State} (rs : Fin 64) (off : BitVec 20) (s : State) 
    (hD : Does A b₀ s) (hA : partsIn [.block 0x01, .block 0x02, .block 0x03, .block 0x05, .block 0x08, .block 0x09, .block 0x0A, .block 0x0C, .free, .strand, .backup, .tides, .seqs, .exe, .loop, .dio, .saf, .pair, .can, .sup, .mbx, .out] A = true) : DoesO A b₀ (execBltz rs off s) := by
  unfold execBltz
  repeat' first
    | with_reducible assumption
    | with_reducible apply kqBranch_does
    | ((with_reducible refine partsIn_trans ?_ hA); exact rfl)
    | ((with_reducible refine listed_code ?_ hA); exact rfl)
    | exact fun (h : Sparse.wf _ _ = true) => h
    | with_reducible apply next_does
    | with_reducible apply id_does
    | with_reducible apply ite_does
    | with_reducible apply iteO_does
    | (apply Sparse.wf_set; assumption)
    | exact rfl
    | intro _
    | dsimp only
    | split

theorem execBgez_does {A : List Part} {b₀ : State} (rs : Fin 64) (off : BitVec 20) (s : State) 
    (hD : Does A b₀ s) (hA : partsIn [.block 0x01, .block 0x02, .block 0x03, .block 0x05, .block 0x08, .block 0x09, .block 0x0A, .block 0x0C, .free, .strand, .backup, .tides, .seqs, .exe, .loop, .dio, .saf, .pair, .can, .sup, .mbx, .out] A = true) : DoesO A b₀ (execBgez rs off s) := by
  unfold execBgez
  repeat' first
    | with_reducible assumption
    | with_reducible apply kqBranch_does
    | ((with_reducible refine partsIn_trans ?_ hA); exact rfl)
    | ((with_reducible refine listed_code ?_ hA); exact rfl)
    | exact fun (h : Sparse.wf _ _ = true) => h
    | with_reducible apply next_does
    | with_reducible apply id_does
    | with_reducible apply ite_does
    | with_reducible apply iteO_does
    | (apply Sparse.wf_set; assumption)
    | exact rfl
    | intro _
    | dsimp only
    | split

theorem execBf_does {A : List Part} {b₀ : State} (f : KqFlag) (off : BitVec 20) (s : State) 
    (hD : Does A b₀ s) (hA : partsIn [.block 0x01, .block 0x02, .block 0x03, .block 0x05, .block 0x08, .block 0x09, .block 0x0A, .block 0x0C, .free, .strand, .backup, .tides, .seqs, .exe, .loop, .dio, .saf, .pair, .can, .sup, .mbx, .out] A = true) : DoesO A b₀ (execBf f off s) := by
  unfold execBf
  repeat' first
    | with_reducible assumption
    | with_reducible apply kqBranch_does
    | ((with_reducible refine partsIn_trans ?_ hA); exact rfl)
    | ((with_reducible refine listed_code ?_ hA); exact rfl)
    | exact fun (h : Sparse.wf _ _ = true) => h
    | with_reducible apply next_does
    | with_reducible apply id_does
    | with_reducible apply ite_does
    | with_reducible apply iteO_does
    | (apply Sparse.wf_set; assumption)
    | exact rfl
    | intro _
    | dsimp only
    | split

theorem execBnf_does {A : List Part} {b₀ : State} (f : KqFlag) (off : BitVec 20) (s : State) 
    (hD : Does A b₀ s) (hA : partsIn [.block 0x01, .block 0x02, .block 0x03, .block 0x05, .block 0x08, .block 0x09, .block 0x0A, .block 0x0C, .free, .strand, .backup, .tides, .seqs, .exe, .loop, .dio, .saf, .pair, .can, .sup, .mbx, .out] A = true) : DoesO A b₀ (execBnf f off s) := by
  unfold execBnf
  repeat' first
    | with_reducible assumption
    | with_reducible apply kqBranch_does
    | ((with_reducible refine partsIn_trans ?_ hA); exact rfl)
    | ((with_reducible refine listed_code ?_ hA); exact rfl)
    | exact fun (h : Sparse.wf _ _ = true) => h
    | with_reducible apply next_does
    | with_reducible apply id_does
    | with_reducible apply ite_does
    | with_reducible apply iteO_does
    | (apply Sparse.wf_set; assumption)
    | exact rfl
    | intro _
    | dsimp only
    | split

theorem kqIllegal_does {A : List Part} {b₀ : State} (t : Nat) (legal : Bool) (s : State) 
    (hD : Does A b₀ s) (hA : partsIn [.block 0x01, .block 0x02, .block 0x03, .block 0x05, .block 0x08, .block 0x09, .block 0x0A, .block 0x0C, .free, .strand, .backup, .tides, .seqs, .exe, .loop, .dio, .saf, .pair, .can, .sup, .mbx, .out] A = true) : Does A b₀ (kqIllegal t legal s) := by
  unfold kqIllegal
  repeat' first
    | with_reducible assumption
    | with_reducible apply kqFault_does
    | with_reducible apply onlyIf_does
    | ((with_reducible refine partsIn_trans ?_ hA); exact rfl)
    | ((with_reducible refine listed_code ?_ hA); exact rfl)
    | exact fun (h : Sparse.wf _ _ = true) => h
    | with_reducible apply next_does
    | with_reducible apply id_does
    | with_reducible apply ite_does
    | with_reducible apply iteO_does
    | (apply Sparse.wf_set; assumption)
    | exact rfl
    | intro _
    | dsimp only
    | split

theorem execJmpr_does {A : List Part} {b₀ : State} (ra : Fin 64) (legal : Bool) (s : State) 
    (hD : Does A b₀ s) (hA : partsIn [.block 0x01, .block 0x02, .block 0x03, .block 0x05, .block 0x08, .block 0x09, .block 0x0A, .block 0x0C, .free, .strand, .backup, .tides, .seqs, .exe, .loop, .dio, .saf, .pair, .can, .sup, .mbx, .out] A = true) : DoesO A b₀ (execJmpr ra legal s) := by
  unfold execJmpr
  repeat' first
    | with_reducible assumption
    | with_reducible apply kqGoto_does
    | with_reducible apply kqIllegal_does
    | with_reducible apply kqRun_does
    | ((with_reducible refine partsIn_trans ?_ hA); exact rfl)
    | ((with_reducible refine listed_code ?_ hA); exact rfl)
    | exact fun (h : Sparse.wf _ _ = true) => h
    | with_reducible apply next_does
    | with_reducible apply id_does
    | with_reducible apply ite_does
    | with_reducible apply iteO_does
    | (apply Sparse.wf_set; assumption)
    | exact rfl
    | intro _
    | dsimp only
    | split

theorem execCallr_does {A : List Part} {b₀ : State} (ra : Fin 64) (legal : Bool) (s : State) 
    (hD : Does A b₀ s) (hA : partsIn [.block 0x01, .block 0x02, .block 0x03, .block 0x05, .block 0x08, .block 0x09, .block 0x0A, .block 0x0C, .free, .strand, .backup, .tides, .seqs, .exe, .loop, .dio, .saf, .pair, .can, .sup, .mbx, .out] A = true) : DoesO A b₀ (execCallr ra legal s) := by
  unfold execCallr
  repeat' first
    | with_reducible assumption
    | with_reducible apply kqCall_does
    | with_reducible apply kqIllegal_does
    | with_reducible apply kqRun_does
    | ((with_reducible refine partsIn_trans ?_ hA); exact rfl)
    | ((with_reducible refine listed_code ?_ hA); exact rfl)
    | exact fun (h : Sparse.wf _ _ = true) => h
    | with_reducible apply next_does
    | with_reducible apply id_does
    | with_reducible apply ite_does
    | with_reducible apply iteO_does
    | (apply Sparse.wf_set; assumption)
    | exact rfl
    | intro _
    | dsimp only
    | split

theorem execRet_does {A : List Part} {b₀ : State}  (s : State) 
    (hD : Does A b₀ s) (hA : partsIn [.block 0x01, .block 0x02, .block 0x03, .block 0x05, .block 0x08, .block 0x09, .block 0x0A, .block 0x0C, .free, .strand, .backup, .tides, .seqs, .exe, .loop, .dio, .saf, .pair, .can, .sup, .mbx, .out] A = true) : DoesO A b₀ (execRet s) := by
  unfold execRet
  repeat' first
    | with_reducible assumption
    | with_reducible apply kqFault_does
    | with_reducible apply kqGoto_does
    | with_reducible apply kqRun_does
    | ((with_reducible refine partsIn_trans ?_ hA); exact rfl)
    | ((with_reducible refine listed_code ?_ hA); exact rfl)
    | exact fun (h : Sparse.wf _ _ = true) => h
    | with_reducible apply next_does
    | with_reducible apply id_does
    | with_reducible apply ite_does
    | with_reducible apply iteO_does
    | (apply Sparse.wf_set; assumption)
    | exact rfl
    | intro _
    | dsimp only
    | split

theorem yieldLocks_does {A : List Part} {b₀ : State} (t : Nat) (s : State) 
    (hD : Does A b₀ s) (hA : partsIn [.strand, .mbx, .out] A = true) : Does A b₀ (yieldLocks t s) := by
  unfold yieldLocks
  repeat' first
    | with_reducible assumption
    | with_reducible apply forAll_does
    | with_reducible apply lockFree_does
    | with_reducible apply sayD_does
    | ((with_reducible refine partsIn_trans ?_ hA); exact rfl)
    | ((with_reducible refine listed_code ?_ hA); exact rfl)
    | exact fun (h : Sparse.wf _ _ = true) => h
    | with_reducible apply next_does
    | with_reducible apply id_does
    | with_reducible apply ite_does
    | with_reducible apply iteO_does
    | (apply Sparse.wf_set; assumption)
    | exact rfl
    | intro _
    | dsimp only
    | split

theorem execYield_does {A : List Part} {b₀ : State}  (s : State) 
    (hD : Does A b₀ s) (hA : partsIn [.block 0x01, .block 0x02, .block 0x03, .block 0x05, .block 0x08, .block 0x09, .block 0x0A, .block 0x0C, .free, .strand, .backup, .tides, .seqs, .exe, .loop, .dio, .saf, .pair, .can, .sup, .mbx, .out] A = true) : DoesO A b₀ (execYield s) := by
  unfold execYield
  repeat' first
    | with_reducible assumption
    | with_reducible apply kqFault_does
    | with_reducible apply kqRun_does
    | with_reducible apply onTask_does
    | with_reducible apply startNext_does
    | with_reducible apply yieldLocks_does
    | ((with_reducible refine partsIn_trans ?_ hA); exact rfl)
    | ((with_reducible refine listed_code ?_ hA); exact rfl)
    | exact fun (h : Sparse.wf _ _ = true) => h
    | with_reducible apply next_does
    | with_reducible apply id_does
    | with_reducible apply ite_does
    | with_reducible apply iteO_does
    | (apply Sparse.wf_set; assumption)
    | exact rfl
    | intro _
    | dsimp only
    | split
    | with_reducible apply upd_exe

theorem waitEnd_does {A : List Part} {b₀ : State} (t : Nat) (rd : Fin 64) (r : KqRes) (s : State) 
    (hD : Does A b₀ s) (hA : partsIn [.exe, .pair, .out] A = true) : Does A b₀ (waitEnd t rd r s) := by
  unfold waitEnd
  repeat' first
    | with_reducible assumption
    | with_reducible apply commitPoint_does
    | with_reducible apply onTask_does
    | ((with_reducible refine partsIn_trans ?_ hA); exact rfl)
    | ((with_reducible refine listed_code ?_ hA); exact rfl)
    | exact fun (h : Sparse.wf _ _ = true) => h
    | with_reducible apply next_does
    | with_reducible apply id_does
    | with_reducible apply ite_does
    | with_reducible apply iteO_does
    | (apply Sparse.wf_set; assumption)
    | exact rfl
    | intro _
    | dsimp only
    | split

theorem execMfence_does {A : List Part} {b₀ : State}  (s : State) 
    (hD : Does A b₀ s) (hA : partsIn [.block 0x01, .block 0x02, .block 0x03, .block 0x05, .block 0x08, .block 0x09, .block 0x0A, .block 0x0C, .free, .strand, .backup, .tides, .seqs, .exe, .loop, .dio, .saf, .triad, .pair, .can, .sup, .mbx, .out] A = true) : DoesO A b₀ (execMfence s) := by
  unfold execMfence
  repeat' first
    | with_reducible assumption
    | with_reducible apply fence_does
    | with_reducible apply kqTask_does
    | ((with_reducible refine partsIn_trans ?_ hA); exact rfl)
    | ((with_reducible refine listed_code ?_ hA); exact rfl)
    | exact fun (h : Sparse.wf _ _ = true) => h
    | with_reducible apply next_does
    | with_reducible apply id_does
    | with_reducible apply ite_does
    | with_reducible apply iteO_does
    | (apply Sparse.wf_set; assumption)
    | exact rfl
    | intro _
    | dsimp only
    | split

theorem execRfence_does {A : List Part} {b₀ : State}  (s : State) 
    (hD : Does A b₀ s) (hA : partsIn [.exe] A = true) : DoesO A b₀ (execRfence s) := by
  unfold execRfence
  repeat' first
    | with_reducible assumption
    | with_reducible apply kqTask_does
    | ((with_reducible refine partsIn_trans ?_ hA); exact rfl)
    | ((with_reducible refine listed_code ?_ hA); exact rfl)
    | exact fun (h : Sparse.wf _ _ = true) => h
    | with_reducible apply next_does
    | with_reducible apply id_does
    | with_reducible apply ite_does
    | with_reducible apply iteO_does
    | (apply Sparse.wf_set; assumption)
    | exact rfl
    | intro _
    | dsimp only
    | split

theorem execFenceDrained_does {A : List Part} {b₀ : State}  (s : State) 
    (hD : Does A b₀ s) (hA : partsIn [.block 0x01, .block 0x02, .block 0x03, .block 0x05, .block 0x08, .block 0x09, .block 0x0A, .block 0x0C, .free, .strand, .backup, .tides, .seqs, .exe, .loop, .dio, .saf, .triad, .pair, .can, .sup, .mbx, .out] A = true) : DoesO A b₀ (execFenceDrained s) := by
  unfold execFenceDrained
  repeat' first
    | with_reducible assumption
    | with_reducible apply fence_does
    | with_reducible apply waitEnd_does
    | ((with_reducible refine partsIn_trans ?_ hA); exact rfl)
    | ((with_reducible refine listed_code ?_ hA); exact rfl)
    | exact fun (h : Sparse.wf _ _ = true) => h
    | with_reducible apply next_does
    | with_reducible apply id_does
    | with_reducible apply ite_does
    | with_reducible apply iteO_does
    | (apply Sparse.wf_set; assumption)
    | exact rfl
    | intro _
    | dsimp only
    | split

theorem execBlockAnswer_does {A : List Part} {b₀ : State}  (s : State) 
    (hD : Does A b₀ s) (hA : partsIn [.exe, .pair, .out] A = true) : DoesO A b₀ (execBlockAnswer s) := by
  unfold execBlockAnswer
  repeat' first
    | with_reducible assumption
    | with_reducible apply waitEnd_does
    | ((with_reducible refine partsIn_trans ?_ hA); exact rfl)
    | ((with_reducible refine listed_code ?_ hA); exact rfl)
    | exact fun (h : Sparse.wf _ _ = true) => h
    | with_reducible apply next_does
    | with_reducible apply id_does
    | with_reducible apply ite_does
    | with_reducible apply iteO_does
    | (apply Sparse.wf_set; assumption)
    | exact rfl
    | intro _
    | dsimp only
    | split

theorem execCommitPointTimer_does {A : List Part} {b₀ : State}  (s : State) 
    (hD : Does A b₀ s) (hA : partsIn [.exe, .pair, .out] A = true) : DoesO A b₀ (execCommitPointTimer s) := by
  unfold execCommitPointTimer
  repeat' first
    | with_reducible assumption
    | with_reducible apply commitPoint_does
    | ((with_reducible refine partsIn_trans ?_ hA); exact rfl)
    | ((with_reducible refine listed_code ?_ hA); exact rfl)
    | exact fun (h : Sparse.wf _ _ = true) => h
    | with_reducible apply next_does
    | with_reducible apply id_does
    | with_reducible apply ite_does
    | with_reducible apply iteO_does
    | (apply Sparse.wf_set; assumption)
    | exact rfl
    | intro _
    | dsimp only
    | split

theorem execFget_does {A : List Part} {b₀ : State} (rd : Fin 64) (s : State) 
    (hD : Does A b₀ s) (hA : partsIn [.exe, .pair, .out] A = true) : DoesO A b₀ (execFget rd s) := by
  unfold execFget
  repeat' first
    | with_reducible assumption
    | with_reducible apply commitPoint_does
    | with_reducible apply kqRun_does
    | with_reducible apply onTask_does
    | ((with_reducible refine partsIn_trans ?_ hA); exact rfl)
    | ((with_reducible refine listed_code ?_ hA); exact rfl)
    | exact fun (h : Sparse.wf _ _ = true) => h
    | with_reducible apply next_does
    | with_reducible apply id_does
    | with_reducible apply ite_does
    | with_reducible apply iteO_does
    | (apply Sparse.wf_set; assumption)
    | exact rfl
    | intro _
    | dsimp only
    | split

theorem execFclr_does {A : List Part} {b₀ : State} (ra : Fin 64) (s : State) 
    (hD : Does A b₀ s) (hA : partsIn [.exe, .pair, .out] A = true) : DoesO A b₀ (execFclr ra s) := by
  unfold execFclr
  repeat' first
    | with_reducible assumption
    | with_reducible apply commitPoint_does
    | with_reducible apply kqRun_does
    | with_reducible apply onTask_does
    | ((with_reducible refine partsIn_trans ?_ hA); exact rfl)
    | ((with_reducible refine listed_code ?_ hA); exact rfl)
    | exact fun (h : Sparse.wf _ _ = true) => h
    | with_reducible apply next_does
    | with_reducible apply id_does
    | with_reducible apply ite_does
    | with_reducible apply iteO_does
    | (apply Sparse.wf_set; assumption)
    | exact rfl
    | intro _
    | dsimp only
    | split

theorem execCyct_does {A : List Part} {b₀ : State} (rd : Fin 64) (s : State) 
    (hD : Does A b₀ s) (hA : partsIn [.exe, .pair, .out] A = true) : DoesO A b₀ (execCyct rd s) := by
  unfold execCyct
  repeat' first
    | with_reducible assumption
    | with_reducible apply commitPoint_does
    | with_reducible apply kqRun_does
    | with_reducible apply onTask_does
    | ((with_reducible refine partsIn_trans ?_ hA); exact rfl)
    | ((with_reducible refine listed_code ?_ hA); exact rfl)
    | exact fun (h : Sparse.wf _ _ = true) => h
    | with_reducible apply next_does
    | with_reducible apply id_does
    | with_reducible apply ite_does
    | with_reducible apply iteO_does
    | (apply Sparse.wf_set; assumption)
    | exact rfl
    | intro _
    | dsimp only
    | split

end Sys2Proof.Machine
end

