-- ==== Sys2Proof/Laws/OnlyKqArith.lean ====
section
/-! SUPPORT. What each operation of Machine/KqArith.lean can do: the parts of the state it may change, and that it keeps
canonical form. -/
namespace Sys2Proof.Machine

theorem kq2_does {A : List Part} {b₀ : State} (rd : Fin 64) (ra : Fin 64) (rb : Fin 64) (f : DWord → DWord → KqRes) (s : State) 
    (hD : Does A b₀ s) (hA : partsIn [.exe] A = true) : DoesO A b₀ (kq2 rd ra rb f s) := by
  unfold kq2
  repeat' first
    | with_reducible assumption
    | with_reducible apply kqTask_does
    | ((with_reducible refine partsIn_trans ?_ hA); exact rfl)
    | ((with_reducible refine listed_code ?_ hA); exact rfl)
    | exact fun (h : Sparse.wf _ _ = true) => h
    | with_reducible apply next_does
    | with_reducible apply id_does
    | with_reducible apply ite_does
    | with_reducible apply iteO_does
    | (apply Sparse.wf_set; assumption)
    | exact rfl
    | intro _
    | dsimp only
    | split

theorem kq1_does {A : List Part} {b₀ : State} (rd : Fin 64) (ra : Fin 64) (f : DWord → KqRes) (s : State) 
    (hD : Does A b₀ s) (hA : partsIn [.exe] A = true) : DoesO A b₀ (kq1 rd ra f s) := by
  unfold kq1
  repeat' first
    | with_reducible assumption
    | with_reducible apply kqTask_does
    | ((with_reducible refine partsIn_trans ?_ hA); exact rfl)
    | ((with_reducible refine listed_code ?_ hA); exact rfl)
    | exact fun (h : Sparse.wf _ _ = true) => h
    | with_reducible apply next_does
    | with_reducible apply id_does
    | with_reducible apply ite_does
    | with_reducible apply iteO_does
    | (apply Sparse.wf_set; assumption)
    | exact rfl
    | intro _
    | dsimp only
    | split

theorem execAdd_does {A : List Part} {b₀ : State} (w : Bool) (rd : Fin 64) (ra : Fin 64) (rb : Fin 64) (s : State) 
    (hD : Does A b₀ s) (hA : partsIn [.exe] A = true) : DoesO A b₀ (execAdd w rd ra rb s) := by
  unfold execAdd
  repeat' first
    | with_reducible assumption
    | with_reducible apply kq2_does
    | ((with_reducible refine partsIn_trans ?_ hA); exact rfl)
    | ((with_reducible refine listed_code ?_ hA); exact rfl)
    | exact fun (h : Sparse.wf _ _ = true) => h
    | with_reducible apply next_does
    | with_reducible apply id_does
    | with_reducible apply ite_does
    | with_reducible apply iteO_does
    | (apply Sparse.wf_set; assumption)
    | exact rfl
    | intro _
    | dsimp only
    | split

theorem execSub_does {A : List Part} {b₀ : State} (w : Bool) (rd : Fin 64) (ra : Fin 64) (rb : Fin 64) (s : State) 
    (hD : Does A b₀ s) (hA : partsIn [.exe] A = true) : DoesO A b₀ (execSub w rd ra rb s) := by
  unfold execSub
  repeat' first
    | with_reducible assumption
    | with_reducible apply kq2_does
    | ((with_reducible refine partsIn_trans ?_ hA); exact rfl)
    | ((with_reducible refine listed_code ?_ hA); exact rfl)
    | exact fun (h : Sparse.wf _ _ = true) => h
    | with_reducible apply next_does
    | with_reducible apply id_does
    | with_reducible apply ite_does
    | with_reducible apply iteO_does
    | (apply Sparse.wf_set; assumption)
    | exact rfl
    | intro _
    | dsimp only
    | split

theorem execMul_does {A : List Part} {b₀ : State} (w : Bool) (rd : Fin 64) (ra : Fin 64) (rb : Fin 64) (s : State) 
    (hD : Does A b₀ s) (hA : partsIn [.exe] A = true) : DoesO A b₀ (execMul w rd ra rb s) := by
  unfold execMul
  repeat' first
    | with_reducible assumption
    | with_reducible apply kq2_does
    | ((with_reducible refine partsIn_trans ?_ hA); exact rfl)
    | ((with_reducible refine listed_code ?_ hA); exact rfl)
    | exact fun (h : Sparse.wf _ _ = true) => h
    | with_reducible apply next_does
    | with_reducible apply id_does
    | with_reducible apply ite_does
    | with_reducible apply iteO_does
    | (apply Sparse.wf_set; assumption)
    | exact rfl
    | intro _
    | dsimp only
    | split

theorem execMulh_does {A : List Part} {b₀ : State} (w : Bool) (rd : Fin 64) (ra : Fin 64) (rb : Fin 64) (s : State) 
    (hD : Does A b₀ s) (hA : partsIn [.exe] A = true) : DoesO A b₀ (execMulh w rd ra rb s) := by
  unfold execMulh
  repeat' first
    | with_reducible assumption
    | with_reducible apply kq2_does
    | ((with_reducible refine partsIn_trans ?_ hA); exact rfl)
    | ((with_reducible refine listed_code ?_ hA); exact rfl)
    | exact fun (h : Sparse.wf _ _ = true) => h
    | with_reducible apply next_does
    | with_reducible apply id_does
    | with_reducible apply ite_does
    | with_reducible apply iteO_does
    | (apply Sparse.wf_set; assumption)
    | exact rfl
    | intro _
    | dsimp only
    | split

theorem kqDiv_does {A : List Part} {b₀ : State} (w : Bool) (rd : Fin 64) (ra : Fin 64) (rb : Fin 64) (f : DWord → DWord → KqRes) (s : State) 
    (hD : Does A b₀ s) (hA : partsIn [.strand, .exe, .out] A = true) : DoesO A b₀ (kqDiv w rd ra rb f s) := by
  unfold kqDiv
  repeat' first
    | with_reducible assumption
    | with_reducible apply kqRun_does
    | with_reducible apply onTask_does
    | with_reducible apply sayD_does
    | ((with_reducible refine partsIn_trans ?_ hA); exact rfl)
    | ((with_reducible refine listed_code ?_ hA); exact rfl)
    | exact fun (h : Sparse.wf _ _ = true) => h
    | with_reducible apply next_does
    | with_reducible apply id_does
    | with_reducible apply ite_does
    | with_reducible apply iteO_does
    | (apply Sparse.wf_set; assumption)
    | exact rfl
    | intro _
    | dsimp only
    | split

theorem execDiv_does {A : List Part} {b₀ : State} (w : Bool) (rd : Fin 64) (ra : Fin 64) (rb : Fin 64) (s : State) 
    (hD : Does A b₀ s) (hA : partsIn [.strand, .exe, .out] A = true) : DoesO A b₀ (execDiv w rd ra rb s) := by
  unfold execDiv
  repeat' first
    | with_reducible assumption
    | with_reducible apply kqDiv_does
    | ((with_reducible refine partsIn_trans ?_ hA); exact rfl)
    | ((with_reducible refine listed_code ?_ hA); exact rfl)
    | exact fun (h : Sparse.wf _ _ = true) => h
    | with_reducible apply next_does
    | with_reducible apply id_does
    | with_reducible apply ite_does
    | with_reducible apply iteO_does
    | (apply Sparse.wf_set; assumption)
    | exact rfl
    | intro _
    | dsimp only
    | split

theorem execDivu_does {A : List Part} {b₀ : State} (w : Bool) (rd : Fin 64) (ra : Fin 64) (rb : Fin 64) (s : State) 
    (hD : Does A b₀ s) (hA : partsIn [.strand, .exe, .out] A = true) : DoesO A b₀ (execDivu w rd ra rb s) := by
  unfold execDivu
  repeat' first
    | with_reducible assumption
    | with_reducible apply kqDiv_does
    | ((with_reducible refine partsIn_trans ?_ hA); exact rfl)
    | ((with_reducible refine listed_code ?_ hA); exact rfl)
    | exact fun (h : Sparse.wf _ _ = true) => h
    | with_reducible apply next_does
    | with_reducible apply id_does
    | with_reducible apply ite_does
    | with_reducible apply iteO_does
    | (apply Sparse.wf_set; assumption)
    | exact rfl
    | intro _
    | dsimp only
    | split

theorem execRem_does {A : List Part} {b₀ : State} (w : Bool) (rd : Fin 64) (ra : Fin 64) (rb : Fin 64) (s : State) 
    (hD : Does A b₀ s) (hA : partsIn [.strand, .exe, .out] A = true) : DoesO A b₀ (execRem w rd ra rb s) := by
  unfold execRem
  repeat' first
    | with_reducible assumption
    | with_reducible apply kqDiv_does
    | ((with_reducible refine partsIn_trans ?_ hA); exact rfl)
    | ((with_reducible refine listed_code ?_ hA); exact rfl)
    | exact fun (h : Sparse.wf _ _ = true) => h
    | with_reducible apply next_does
    | with_reducible apply id_does
    | with_reducible apply ite_does
    | with_reducible apply iteO_does
    | (apply Sparse.wf_set; assumption)
    | exact rfl
    | intro _
    | dsimp only
    | split

theorem execRemu_does {A : List Part} {b₀ : State} (w : Bool) (rd : Fin 64) (ra : Fin 64) (rb : Fin 64) (s : State) 
    (hD : Does A b₀ s) (hA : partsIn [.strand, .exe, .out] A = true) : DoesO A b₀ (execRemu w rd ra rb s) := by
  unfold execRemu
  repeat' first
    | with_reducible assumption
    | with_reducible apply kqDiv_does
    | ((with_reducible refine partsIn_trans ?_ hA); exact rfl)
    | ((with_reducible refine listed_code ?_ hA); exact rfl)
    | exact fun (h : Sparse.wf _ _ = true) => h
    | with_reducible apply next_does
    | with_reducible apply id_does
    | with_reducible apply ite_does
    | with_reducible apply iteO_does
    | (apply Sparse.wf_set; assumption)
    | exact rfl
    | intro _
    | dsimp only
    | split

theorem execNeg_does {A : List Part} {b₀ : State} (w : Bool) (rd : Fin 64) (ra : Fin 64) (s : State) 
    (hD : Does A b₀ s) (hA : partsIn [.exe] A = true) : DoesO A b₀ (execNeg w rd ra s) := by
  unfold execNeg
  repeat' first
    | with_reducible assumption
    | with_reducible apply kq1_does
    | ((with_reducible refine partsIn_trans ?_ hA); exact rfl)
    | ((with_reducible refine listed_code ?_ hA); exact rfl)
    | exact fun (h : Sparse.wf _ _ = true) => h
    | with_reducible apply next_does
    | with_reducible apply id_does
    | with_reducible apply ite_does
    | with_reducible apply iteO_does
    | (apply Sparse.wf_set; assumption)
    | exact rfl
    | intro _
    | dsimp only
    | split

theorem execAbs_does {A : List Part} {b₀ : State} (w : Bool) (rd : Fin 64) (ra : Fin 64) (s : State) 
    (hD : Does A b₀ s) (hA : partsIn [.exe] A = true) : DoesO A b₀ (execAbs w rd ra s) := by
  unfold execAbs
  repeat' first
    | with_reducible assumption
    | with_reducible apply kq1_does
    | ((with_reducible refine partsIn_trans ?_ hA); exact rfl)
    | ((with_reducible refine listed_code ?_ hA); exact rfl)
    | exact fun (h : Sparse.wf _ _ = true) => h
    | with_reducible apply next_does
    | with_reducible apply id_does
    | with_reducible apply ite_does
    | with_reducible apply iteO_does
    | (apply Sparse.wf_set; assumption)
    | exact rfl
    | intro _
    | dsimp only
    | split

theorem execMin_does {A : List Part} {b₀ : State} (w : Bool) (rd : Fin 64) (ra : Fin 64) (rb : Fin 64) (s : State) 
    (hD : Does A b₀ s) (hA : partsIn [.exe] A = true) : DoesO A b₀ (execMin w rd ra rb s) := by
  unfold execMin
  repeat' first
    | with_reducible assumption
    | with_reducible apply kq2_does
    | ((with_reducible refine partsIn_trans ?_ hA); exact rfl)
    | ((with_reducible refine listed_code ?_ hA); exact rfl)
    | exact fun (h : Sparse.wf _ _ = true) => h
    | with_reducible apply next_does
    | with_reducible apply id_does
    | with_reducible apply ite_does
    | with_reducible apply iteO_does
    | (apply Sparse.wf_set; assumption)
    | exact rfl
    | intro _
    | dsimp only
    | split

theorem execMax_does {A : List Part} {b₀ : State} (w : Bool) (rd : Fin 64) (ra : Fin 64) (rb : Fin 64) (s : State) 
    (hD : Does A b₀ s) (hA : partsIn [.exe] A = true) : DoesO A b₀ (execMax w rd ra rb s) := by
  unfold execMax
  repeat' first
    | with_reducible assumption
    | with_reducible apply kq2_does
    | ((with_reducible refine partsIn_trans ?_ hA); exact rfl)
    | ((with_reducible refine listed_code ?_ hA); exact rfl)
    | exact fun (h : Sparse.wf _ _ = true) => h
    | with_reducible apply next_does
    | with_reducible apply id_does
    | with_reducible apply ite_does
    | with_reducible apply iteO_does
    | (apply Sparse.wf_set; assumption)
    | exact rfl
    | intro _
    | dsimp only
    | split

theorem execMinu_does {A : List Part} {b₀ : State} (w : Bool) (rd : Fin 64) (ra : Fin 64) (rb : Fin 64) (s : State) 
    (hD : Does A b₀ s) (hA : partsIn [.exe] A = true) : DoesO A b₀ (execMinu w rd ra rb s) := by
  unfold execMinu
  repeat' first
    | with_reducible assumption
    | with_reducible apply kq2_does
    | ((with_reducible refine partsIn_trans ?_ hA); exact rfl)
    | ((with_reducible refine listed_code ?_ hA); exact rfl)
    | exact fun (h : Sparse.wf _ _ = true) => h
    | with_reducible apply next_does
    | with_reducible apply id_does
    | with_reducible apply ite_does
    | with_reducible apply iteO_does
    | (apply Sparse.wf_set; assumption)
    | exact rfl
    | intro _
    | dsimp only
    | split

theorem execMaxu_does {A : List Part} {b₀ : State} (w : Bool) (rd : Fin 64) (ra : Fin 64) (rb : Fin 64) (s : State) 
    (hD : Does A b₀ s) (hA : partsIn [.exe] A = true) : DoesO A b₀ (execMaxu w rd ra rb s) := by
  unfold execMaxu
  repeat' first
    | with_reducible assumption
    | with_reducible apply kq2_does
    | ((with_reducible refine partsIn_trans ?_ hA); exact rfl)
    | ((with_reducible refine listed_code ?_ hA); exact rfl)
    | exact fun (h : Sparse.wf _ _ = true) => h
    | with_reducible apply next_does
    | with_reducible apply id_does
    | with_reducible apply ite_does
    | with_reducible apply iteO_does
    | (apply Sparse.wf_set; assumption)
    | exact rfl
    | intro _
    | dsimp only
    | split

theorem execMov_does {A : List Part} {b₀ : State} (w : Bool) (rd : Fin 64) (ra : Fin 64) (s : State) 
    (hD : Does A b₀ s) (hA : partsIn [.exe] A = true) : DoesO A b₀ (execMov w rd ra s) := by
  unfold execMov
  repeat' first
    | with_reducible assumption
    | with_reducible apply kq1_does
    | ((with_reducible refine partsIn_trans ?_ hA); exact rfl)
    | ((with_reducible refine listed_code ?_ hA); exact rfl)
    | exact fun (h : Sparse.wf _ _ = true) => h
    | with_reducible apply next_does
    | with_reducible apply id_does
    | with_reducible apply ite_does
    | with_reducible apply iteO_does
    | (apply Sparse.wf_set; assumption)
    | exact rfl
    | intro _
    | dsimp only
    | split

theorem execSelz_does {A : List Part} {b₀ : State} (w : Bool) (rd : Fin 64) (ra : Fin 64) (rb : Fin 64) (s : State) 
    (hD : Does A b₀ s) (hA : partsIn [.exe] A = true) : DoesO A b₀ (execSelz w rd ra rb s) := by
  unfold execSelz
  repeat' first
    | with_reducible assumption
    | with_reducible apply kqTask_does
    | ((with_reducible refine partsIn_trans ?_ hA); exact rfl)
    | ((with_reducible refine listed_code ?_ hA); exact rfl)
    | exact fun (h : Sparse.wf _ _ = true) => h
    | with_reducible apply next_does
    | with_reducible apply id_does
    | with_reducible apply ite_does
    | with_reducible apply iteO_does
    | (apply Sparse.wf_set; assumption)
    | exact rfl
    | intro _
    | dsimp only
    | split

theorem kqF2_does {A : List Part} {b₀ : State} (f32 : Bool) (rd : Fin 64) (ra : Fin 64) (rb : Fin 64) (op : Flt.Fmt → Nat → Nat → Flt.Res) (s : State) 
    (hD : Does A b₀ s) (hA : partsIn [.exe] A = true) : DoesO A b₀ (kqF2 f32 rd ra rb op s) := by
  unfold kqF2
  repeat' first
    | with_reducible assumption
    | with_reducible apply kq2_does
    | ((with_reducible refine partsIn_trans ?_ hA); exact rfl)
    | ((with_reducible refine listed_code ?_ hA); exact rfl)
    | exact fun (h : Sparse.wf _ _ = true) => h
    | with_reducible apply next_does
    | with_reducible apply id_does
    | with_reducible apply ite_does
    | with_reducible apply iteO_does
    | (apply Sparse.wf_set; assumption)
    | exact rfl
    | intro _
    | dsimp only
    | split

theorem kqF1_does {A : List Part} {b₀ : State} (f32 : Bool) (rd : Fin 64) (ra : Fin 64) (op : Flt.Fmt → Nat → Flt.Res) (s : State) 
    (hD : Does A b₀ s) (hA : partsIn [.exe] A = true) : DoesO A b₀ (kqF1 f32 rd ra op s) := by
  unfold kqF1
  repeat' first
    | with_reducible assumption
    | with_reducible apply kq1_does
    | ((with_reducible refine partsIn_trans ?_ hA); exact rfl)
    | ((with_reducible refine listed_code ?_ hA); exact rfl)
    | exact fun (h : Sparse.wf _ _ = true) => h
    | with_reducible apply next_does
    | with_reducible apply id_does
    | with_reducible apply ite_does
    | with_reducible apply iteO_does
    | (apply Sparse.wf_set; assumption)
    | exact rfl
    | intro _
    | dsimp only
    | split

theorem execFadd_does {A : List Part} {b₀ : State} (f32 : Bool) (rd : Fin 64) (ra : Fin 64) (rb : Fin 64) (s : State) 
    (hD : Does A b₀ s) (hA : partsIn [.exe] A = true) : DoesO A b₀ (execFadd f32 rd ra rb s) := by
  unfold execFadd
  repeat' first
    | with_reducible assumption
    | with_reducible apply kqF2_does
    | ((with_reducible refine partsIn_trans ?_ hA); exact rfl)
    | ((with_reducible refine listed_code ?_ hA); exact rfl)
    | exact fun (h : Sparse.wf _ _ = true) => h
    | with_reducible apply next_does
    | with_reducible apply id_does
    | with_reducible apply ite_does
    | with_reducible apply iteO_does
    | (apply Sparse.wf_set; assumption)
    | exact rfl
    | intro _
    | dsimp only
    | split

theorem execFsub_does {A : List Part} {b₀ : State} (f32 : Bool) (rd : Fin 64) (ra : Fin 64) (rb : Fin 64) (s : State) 
    (hD : Does A b₀ s) (hA : partsIn [.exe] A = true) : DoesO A b₀ (execFsub f32 rd ra rb s) := by
  unfold execFsub
  repeat' first
    | with_reducible assumption
    | with_reducible apply kqF2_does
    | ((with_reducible refine partsIn_trans ?_ hA); exact rfl)
    | ((with_reducible refine listed_code ?_ hA); exact rfl)
    | exact fun (h : Sparse.wf _ _ = true) => h
    | with_reducible apply next_does
    | with_reducible apply id_does
    | with_reducible apply ite_does
    | with_reducible apply iteO_does
    | (apply Sparse.wf_set; assumption)
    | exact rfl
    | intro _
    | dsimp only
    | split

theorem execFmul_does {A : List Part} {b₀ : State} (f32 : Bool) (rd : Fin 64) (ra : Fin 64) (rb : Fin 64) (s : State) 
    (hD : Does A b₀ s) (hA : partsIn [.exe] A = true) : DoesO A b₀ (execFmul f32 rd ra rb s) := by
  unfold execFmul
  repeat' first
    | with_reducible assumption
    | with_reducible apply kqF2_does
    | ((with_reducible refine partsIn_trans ?_ hA); exact rfl)
    | ((with_reducible refine listed_code ?_ hA); exact rfl)
    | exact fun (h : Sparse.wf _ _ = true) => h
    | with_reducible apply next_does
    | with_reducible apply id_does
    | with_reducible apply ite_does
    | with_reducible apply iteO_does
    | (apply Sparse.wf_set; assumption)
    | exact rfl
    | intro _
    | dsimp only
    | split

theorem execFdiv_does {A : List Part} {b₀ : State} (f32 : Bool) (rd : Fin 64) (ra : Fin 64) (rb : Fin 64) (s : State) 
    (hD : Does A b₀ s) (hA : partsIn [.exe] A = true) : DoesO A b₀ (execFdiv f32 rd ra rb s) := by
  unfold execFdiv
  repeat' first
    | with_reducible assumption
    | with_reducible apply kqF2_does
    | ((with_reducible refine partsIn_trans ?_ hA); exact rfl)
    | ((with_reducible refine listed_code ?_ hA); exact rfl)
    | exact fun (h : Sparse.wf _ _ = true) => h
    | with_reducible apply next_does
    | with_reducible apply id_does
    | with_reducible apply ite_does
    | with_reducible apply iteO_does
    | (apply Sparse.wf_set; assumption)
    | exact rfl
    | intro _
    | dsimp only
    | split

theorem execFsqrt_does {A : List Part} {b₀ : State} (f32 : Bool) (rd : Fin 64) (ra : Fin 64) (s : State) 
    (hD : Does A b₀ s) (hA : partsIn [.exe] A = true) : DoesO A b₀ (execFsqrt f32 rd ra s) := by
  unfold execFsqrt
  repeat' first
    | with_reducible assumption
    | with_reducible apply kqF1_does
    | ((with_reducible refine partsIn_trans ?_ hA); exact rfl)
    | ((with_reducible refine listed_code ?_ hA); exact rfl)
    | exact fun (h : Sparse.wf _ _ = true) => h
    | with_reducible apply next_does
    | with_reducible apply id_does
    | with_reducible apply ite_does
    | with_reducible apply iteO_does
    | (apply Sparse.wf_set; assumption)
    | exact rfl
    | intro _
    | dsimp only
    | split

theorem execFneg_does {A : List Part} {b₀ : State} (f32 : Bool) (rd : Fin 64) (ra : Fin 64) (s : State) 
    (hD : Does A b₀ s) (hA : partsIn [.exe] A = true) : DoesO A b₀ (execFneg f32 rd ra s) := by
  unfold execFneg
  repeat' first
    | with_reducible assumption
    | with_reducible apply kqF1_does
    | ((with_reducible refine partsIn_trans ?_ hA); exact rfl)
    | ((with_reducible refine listed_code ?_ hA); exact rfl)
    | exact fun (h : Sparse.wf _ _ = true) => h
    | with_reducible apply next_does
    | with_reducible apply id_does
    | with_reducible apply ite_does
    | with_reducible apply iteO_does
    | (apply Sparse.wf_set; assumption)
    | exact rfl
    | intro _
    | dsimp only
    | split

theorem execFabs_does {A : List Part} {b₀ : State} (f32 : Bool) (rd : Fin 64) (ra : Fin 64) (s : State) 
    (hD : Does A b₀ s) (hA : partsIn [.exe] A = true) : DoesO A b₀ (execFabs f32 rd ra s) := by
  unfold execFabs
  repeat' first
    | with_reducible assumption
    | with_reducible apply kqF1_does
    | ((with_reducible refine partsIn_trans ?_ hA); exact rfl)
    | ((with_reducible refine listed_code ?_ hA); exact rfl)
    | exact fun (h : Sparse.wf _ _ = true) => h
    | with_reducible apply next_does
    | with_reducible apply id_does
    | with_reducible apply ite_does
    | with_reducible apply iteO_does
    | (apply Sparse.wf_set; assumption)
    | exact rfl
    | intro _
    | dsimp only
    | split

theorem execFmin_does {A : List Part} {b₀ : State} (f32 : Bool) (rd : Fin 64) (ra : Fin 64) (rb : Fin 64) (s : State) 
    (hD : Does A b₀ s) (hA : partsIn [.exe] A = true) : DoesO A b₀ (execFmin f32 rd ra rb s) := by
  unfold execFmin
  repeat' first
    | with_reducible assumption
    | with_reducible apply kqF2_does
    | ((with_reducible refine partsIn_trans ?_ hA); exact rfl)
    | ((with_reducible refine listed_code ?_ hA); exact rfl)
    | exact fun (h : Sparse.wf _ _ = true) => h
    | with_reducible apply next_does
    | with_reducible apply id_does
    | with_reducible apply ite_does
    | with_reducible apply iteO_does
    | (apply Sparse.wf_set; assumption)
    | exact rfl
    | intro _
    | dsimp only
    | split

theorem execFmax_does {A : List Part} {b₀ : State} (f32 : Bool) (rd : Fin 64) (ra : Fin 64) (rb : Fin 64) (s : State) 
    (hD : Does A b₀ s) (hA : partsIn [.exe] A = true) : DoesO A b₀ (execFmax f32 rd ra rb s) := by
  unfold execFmax
  repeat' first
    | with_reducible assumption
    | with_reducible apply kqF2_does
    | ((with_reducible refine partsIn_trans ?_ hA); exact rfl)
    | ((with_reducible refine listed_code ?_ hA); exact rfl)
    | exact fun (h : Sparse.wf _ _ = true) => h
    | with_reducible apply next_does
    | with_reducible apply id_does
    | with_reducible apply ite_does
    | with_reducible apply iteO_does
    | (apply Sparse.wf_set; assumption)
    | exact rfl
    | intro _
    | dsimp only
    | split

theorem execCmp_does {A : List Part} {b₀ : State} (ty : CmpType) (ra : Fin 64) (rb : Fin 64) (s : State) 
    (hD : Does A b₀ s) (hA : partsIn [.exe] A = true) : DoesO A b₀ (execCmp ty ra rb s) := by
  unfold execCmp
  repeat' first
    | with_reducible assumption
    | with_reducible apply kqTask_does
    | ((with_reducible refine partsIn_trans ?_ hA); exact rfl)
    | ((with_reducible refine listed_code ?_ hA); exact rfl)
    | exact fun (h : Sparse.wf _ _ = true) => h
    | with_reducible apply next_does
    | with_reducible apply id_does
    | with_reducible apply ite_does
    | with_reducible apply iteO_does
    | (apply Sparse.wf_set; assumption)
    | exact rfl
    | intro _
    | dsimp only
    | split

theorem execCset_does {A : List Part} {b₀ : State} (ty : CmpType) (c : CmpCond) (rd : Fin 64) (ra : Fin 64) (rb : Fin 64) (s : State) 
    (hD : Does A b₀ s) (hA : partsIn [.exe] A = true) : DoesO A b₀ (execCset ty c rd ra rb s) := by
  unfold execCset
  repeat' first
    | with_reducible assumption
    | with_reducible apply kq2_does
    | ((with_reducible refine partsIn_trans ?_ hA); exact rfl)
    | ((with_reducible refine listed_code ?_ hA); exact rfl)
    | exact fun (h : Sparse.wf _ _ = true) => h
    | with_reducible apply next_does
    | with_reducible apply id_does
    | with_reducible apply ite_does
    | with_reducible apply iteO_does
    | (apply Sparse.wf_set; assumption)
    | exact rfl
    | intro _
    | dsimp only
    | split

theorem execCvtI64F64_does {A : List Part} {b₀ : State} (rd : Fin 64) (ra : Fin 64) (s : State) 
    (hD : Does A b₀ s) (hA : partsIn [.exe] A = true) : DoesO A b₀ (execCvtI64F64 rd ra s) := by
  unfold execCvtI64F64
  repeat' first
    | with_reducible assumption
    | with_reducible apply kq1_does
    | ((with_reducible refine partsIn_trans ?_ hA); exact rfl)
    | ((with_reducible refine listed_code ?_ hA); exact rfl)
    | exact fun (h : Sparse.wf _ _ = true) => h
    | with_reducible apply next_does
    | with_reducible apply id_does
    | with_reducible apply ite_does
    | with_reducible apply iteO_does
    | (apply Sparse.wf_set; assumption)
    | exact rfl
    | intro _
    | dsimp only
    | split

theorem execCvtI64F32_does {A : List Part} {b₀ : State} (rd : Fin 64) (ra : Fin 64) (s : State) 
    (hD : Does A b₀ s) (hA : partsIn [.exe] A = true) : DoesO A b₀ (execCvtI64F32 rd ra s) := by
  unfold execCvtI64F32
  repeat' first
    | with_reducible assumption
    | with_reducible apply kq1_does
    | ((with_reducible refine partsIn_trans ?_ hA); exact rfl)
    | ((with_reducible refine listed_code ?_ hA); exact rfl)
    | exact fun (h : Sparse.wf _ _ = true) => h
    | with_reducible apply next_does
    | with_reducible apply id_does
    | with_reducible apply ite_does
    | with_reducible apply iteO_does
    | (apply Sparse.wf_set; assumption)
    | exact rfl
    | intro _
    | dsimp only
    | split

theorem execCvtI32F32_does {A : List Part} {b₀ : State} (rd : Fin 64) (ra : Fin 64) (s : State) 
    (hD : Does A b₀ s) (hA : partsIn [.exe] A = true) : DoesO A b₀ (execCvtI32F32 rd ra s) := by
  unfold execCvtI32F32
  repeat' first
    | with_reducible assumption
    | with_reducible apply kq1_does
    | ((with_reducible refine partsIn_trans ?_ hA); exact rfl)
    | ((with_reducible refine listed_code ?_ hA); exact rfl)
    | exact fun (h : Sparse.wf _ _ = true) => h
    | with_reducible apply next_does
    | with_reducible apply id_does
    | with_reducible apply ite_does
    | with_reducible apply iteO_does
    | (apply Sparse.wf_set; assumption)
    | exact rfl
    | intro _
    | dsimp only
    | split

theorem execCvtI32F64_does {A : List Part} {b₀ : State} (rd : Fin 64) (ra : Fin 64) (s : State) 
    (hD : Does A b₀ s) (hA : partsIn [.exe] A = true) : DoesO A b₀ (execCvtI32F64 rd ra s) := by
  unfold execCvtI32F64
  repeat' first
    | with_reducible assumption
    | with_reducible apply kq1_does
    | ((with_reducible refine partsIn_trans ?_ hA); exact rfl)
    | ((with_reducible refine listed_code ?_ hA); exact rfl)
    | exact fun (h : Sparse.wf _ _ = true) => h
    | with_reducible apply next_does
    | with_reducible apply id_does
    | with_reducible apply ite_does
    | with_reducible apply iteO_does
    | (apply Sparse.wf_set; assumption)
    | exact rfl
    | intro _
    | dsimp only
    | split

theorem execTrnF64I64_does {A : List Part} {b₀ : State} (rd : Fin 64) (ra : Fin 64) (s : State) 
    (hD : Does A b₀ s) (hA : partsIn [.exe] A = true) : DoesO A b₀ (execTrnF64I64 rd ra s) := by
  unfold execTrnF64I64
  repeat' first
    | with_reducible assumption
    | with_reducible apply kq1_does
    | ((with_reducible refine partsIn_trans ?_ hA); exact rfl)
    | ((with_reducible refine listed_code ?_ hA); exact rfl)
    | exact fun (h : Sparse.wf _ _ = true) => h
    | with_reducible apply next_does
    | with_reducible apply id_does
    | with_reducible apply ite_does
    | with_reducible apply iteO_does
    | (apply Sparse.wf_set; assumption)
    | exact rfl
    | intro _
    | dsimp only
    | split

theorem execRndF64I64_does {A : List Part} {b₀ : State} (rd : Fin 64) (ra : Fin 64) (s : State) 
    (hD : Does A b₀ s) (hA : partsIn [.exe] A = true) : DoesO A b₀ (execRndF64I64 rd ra s) := by
  unfold execRndF64I64
  repeat' first
    | with_reducible assumption
    | with_reducible apply kq1_does
    | ((with_reducible refine partsIn_trans ?_ hA); exact rfl)
    | ((with_reducible refine listed_code ?_ hA); exact rfl)
    | exact fun (h : Sparse.wf _ _ = true) => h
    | with_reducible apply next_does
    | with_reducible apply id_does
    | with_reducible apply ite_does
    | with_reducible apply iteO_does
    | (apply Sparse.wf_set; assumption)
    | exact rfl
    | intro _
    | dsimp only
    | split

theorem execTrnF32I32_does {A : List Part} {b₀ : State} (rd : Fin 64) (ra : Fin 64) (s : State) 
    (hD : Does A b₀ s) (hA : partsIn [.exe] A = true) : DoesO A b₀ (execTrnF32I32 rd ra s) := by
  unfold execTrnF32I32
  repeat' first
    | with_reducible assumption
    | with_reducible apply kq1_does
    | ((with_reducible refine partsIn_trans ?_ hA); exact rfl)
    | ((with_reducible refine listed_code ?_ hA); exact rfl)
    | exact fun (h : Sparse.wf _ _ = true) => h
    | with_reducible apply next_does
    | with_reducible apply id_does
    | with_reducible apply ite_does
    | with_reducible apply iteO_does
    | (apply Sparse.wf_set; assumption)
    | exact rfl
    | intro _
    | dsimp only
    | split

theorem execRndF32I32_does {A : List Part} {b₀ : State} (rd : Fin 64) (ra : Fin 64) (s : State) 
    (hD : Does A b₀ s) (hA : partsIn [.exe] A = true) : DoesO A b₀ (execRndF32I32 rd ra s) := by
  unfold execRndF32I32
  repeat' first
    | with_reducible assumption
    | with_reducible apply kq1_does
    | ((with_reducible refine partsIn_trans ?_ hA); exact rfl)
    | ((with_reducible refine listed_code ?_ hA); exact rfl)
    | exact fun (h : Sparse.wf _ _ = true) => h
    | with_reducible apply next_does
    | with_reducible apply id_does
    | with_reducible apply ite_does
    | with_reducible apply iteO_does
    | (apply Sparse.wf_set; assumption)
    | exact rfl
    | intro _
    | dsimp only
    | split

theorem execCvtF32F64_does {A : List Part} {b₀ : State} (rd : Fin 64) (ra : Fin 64) (s : State) 
    (hD : Does A b₀ s) (hA : partsIn [.exe] A = true) : DoesO A b₀ (execCvtF32F64 rd ra s) := by
  unfold execCvtF32F64
  repeat' first
    | with_reducible assumption
    | with_reducible apply kq1_does
    | ((with_reducible refine partsIn_trans ?_ hA); exact rfl)
    | ((with_reducible refine listed_code ?_ hA); exact rfl)
    | exact fun (h : Sparse.wf _ _ = true) => h
    | with_reducible apply next_does
    | with_reducible apply id_does
    | with_reducible apply ite_does
    | with_reducible apply iteO_does
    | (apply Sparse.wf_set; assumption)
    | exact rfl
    | intro _
    | dsimp only
    | split

theorem execCvtF64F32_does {A : List Part} {b₀ : State} (rd : Fin 64) (ra : Fin 64) (s : State) 
    (hD : Does A b₀ s) (hA : partsIn [.exe] A = true) : DoesO A b₀ (execCvtF64F32 rd ra s) := by
  unfold execCvtF64F32
  repeat' first
    | with_reducible assumption
    | with_reducible apply kq1_does
    | ((with_reducible refine partsIn_trans ?_ hA); exact rfl)
    | ((with_reducible refine listed_code ?_ hA); exact rfl)
    | exact fun (h : Sparse.wf _ _ = true) => h
    | with_reducible apply next_does
    | with_reducible apply id_does
    | with_reducible apply ite_does
    | with_reducible apply iteO_does
    | (apply Sparse.wf_set; assumption)
    | exact rfl
    | intro _
    | dsimp only
    | split

theorem execTrnF64I32_does {A : List Part} {b₀ : State} (rd : Fin 64) (ra : Fin 64) (s : State) 
    (hD : Does A b₀ s) (hA : partsIn [.exe] A = true) : DoesO A b₀ (execTrnF64I32 rd ra s) := by
  unfold execTrnF64I32
  repeat' first
    | with_reducible assumption
    | with_reducible apply kq1_does
    | ((with_reducible refine partsIn_trans ?_ hA); exact rfl)
    | ((with_reducible refine listed_code ?_ hA); exact rfl)
    | exact fun (h : Sparse.wf _ _ = true) => h
    | with_reducible apply next_does
    | with_reducible apply id_does
    | with_reducible apply ite_does
    | with_reducible apply iteO_does
    | (apply Sparse.wf_set; assumption)
    | exact rfl
    | intro _
    | dsimp only
    | split

theorem execRndF64I32_does {A : List Part} {b₀ : State} (rd : Fin 64) (ra : Fin 64) (s : State) 
    (hD : Does A b₀ s) (hA : partsIn [.exe] A = true) : DoesO A b₀ (execRndF64I32 rd ra s) := by
  unfold execRndF64I32
  repeat' first
    | with_reducible assumption
    | with_reducible apply kq1_does
    | ((with_reducible refine partsIn_trans ?_ hA); exact rfl)
    | ((with_reducible refine listed_code ?_ hA); exact rfl)
    | exact fun (h : Sparse.wf _ _ = true) => h
    | with_reducible apply next_does
    | with_reducible apply id_does
    | with_reducible apply ite_does
    | with_reducible apply iteO_does
    | (apply Sparse.wf_set; assumption)
    | exact rfl
    | intro _
    | dsimp only
    | split

theorem execSext16_does {A : List Part} {b₀ : State} (rd : Fin 64) (ra : Fin 64) (s : State) 
    (hD : Does A b₀ s) (hA : partsIn [.exe] A = true) : DoesO A b₀ (execSext16 rd ra s) := by
  unfold execSext16
  repeat' first
    | with_reducible assumption
    | with_reducible apply kq1_does
    | ((with_reducible refine partsIn_trans ?_ hA); exact rfl)
    | ((with_reducible refine listed_code ?_ hA); exact rfl)
    | exact fun (h : Sparse.wf _ _ = true) => h
    | with_reducible apply next_does
    | with_reducible apply id_does
    | with_reducible apply ite_does
    | with_reducible apply iteO_does
    | (apply Sparse.wf_set; assumption)
    | exact rfl
    | intro _
    | dsimp only
    | split

theorem execSext32_does {A : List Part} {b₀ : State} (rd : Fin 64) (ra : Fin 64) (s : State) 
    (hD : Does A b₀ s) (hA : partsIn [.exe] A = true) : DoesO A b₀ (execSext32 rd ra s) := by
  unfold execSext32
  repeat' first
    | with_reducible assumption
    | with_reducible apply kq1_does
    | ((with_reducible refine partsIn_trans ?_ hA); exact rfl)
    | ((with_reducible refine listed_code ?_ hA); exact rfl)
    | exact fun (h : Sparse.wf _ _ = true) => h
    | with_reducible apply next_does
    | with_reducible apply id_does
    | with_reducible apply ite_does
    | with_reducible apply iteO_does
    | (apply Sparse.wf_set; assumption)
    | exact rfl
    | intro _
    | dsimp only
    | split

theorem execZext32_does {A : List Part} {b₀ : State} (rd : Fin 64) (ra : Fin 64) (s : State) 
    (hD : Does A b₀ s) (hA : partsIn [.exe] A = true) : DoesO A b₀ (execZext32 rd ra s) := by
  unfold execZext32
  repeat' first
    | with_reducible assumption
    | with_reducible apply kq1_does
    | ((with_reducible refine partsIn_trans ?_ hA); exact rfl)
    | ((with_reducible refine listed_code ?_ hA); exact rfl)
    | exact fun (h : Sparse.wf _ _ = true) => h
    | with_reducible apply next_does
    | with_reducible apply id_does
    | with_reducible apply ite_does
    | with_reducible apply iteO_does
    | (apply Sparse.wf_set; assumption)
    | exact rfl
    | intro _
    | dsimp only
    | split

theorem execCvtU64F64_does {A : List Part} {b₀ : State} (rd : Fin 64) (ra : Fin 64) (s : State) 
    (hD : Does A b₀ s) (hA : partsIn [.exe] A = true) : DoesO A b₀ (execCvtU64F64 rd ra s) := by
  unfold execCvtU64F64
  repeat' first
    | with_reducible assumption
    | with_reducible apply kq1_does
    | ((with_reducible refine partsIn_trans ?_ hA); exact rfl)
    | ((with_reducible refine listed_code ?_ hA); exact rfl)
    | exact fun (h : Sparse.wf _ _ = true) => h
    | with_reducible apply next_does
    | with_reducible apply id_does
    | with_reducible apply ite_does
    | with_reducible apply iteO_does
    | (apply Sparse.wf_set; assumption)
    | exact rfl
    | intro _
    | dsimp only
    | split

theorem execAnd_does {A : List Part} {b₀ : State} (w : Bool) (rd : Fin 64) (ra : Fin 64) (rb : Fin 64) (s : State) 
    (hD : Does A b₀ s) (hA : partsIn [.exe] A = true) : DoesO A b₀ (execAnd w rd ra rb s) := by
  unfold execAnd
  repeat' first
    | with_reducible assumption
    | with_reducible apply kq2_does
    | ((with_reducible refine partsIn_trans ?_ hA); exact rfl)
    | ((with_reducible refine listed_code ?_ hA); exact rfl)
    | exact fun (h : Sparse.wf _ _ = true) => h
    | with_reducible apply next_does
    | with_reducible apply id_does
    | with_reducible apply ite_does
    | with_reducible apply iteO_does
    | (apply Sparse.wf_set; assumption)
    | exact rfl
    | intro _
    | dsimp only
    | split

theorem execOr_does {A : List Part} {b₀ : State} (w : Bool) (rd : Fin 64) (ra : Fin 64) (rb : Fin 64) (s : State) 
    (hD : Does A b₀ s) (hA : partsIn [.exe] A = true) : DoesO A b₀ (execOr w rd ra rb s) := by
  unfold execOr
  repeat' first
    | with_reducible assumption
    | with_reducible apply kq2_does
    | ((with_reducible refine partsIn_trans ?_ hA); exact rfl)
    | ((with_reducible refine listed_code ?_ hA); exact rfl)
    | exact fun (h : Sparse.wf _ _ = true) => h
    | with_reducible apply next_does
    | with_reducible apply id_does
    | with_reducible apply ite_does
    | with_reducible apply iteO_does
    | (apply Sparse.wf_set; assumption)
    | exact rfl
    | intro _
    | dsimp only
    | split

theorem execXor_does {A : List Part} {b₀ : State} (w : Bool) (rd : Fin 64) (ra : Fin 64) (rb : Fin 64) (s : State) 
    (hD : Does A b₀ s) (hA : partsIn [.exe] A = true) : DoesO A b₀ (execXor w rd ra rb s) := by
  unfold execXor
  repeat' first
    | with_reducible assumption
    | with_reducible apply kq2_does
    | ((with_reducible refine partsIn_trans ?_ hA); exact rfl)
    | ((with_reducible refine listed_code ?_ hA); exact rfl)
    | exact fun (h : Sparse.wf _ _ = true) => h
    | with_reducible apply next_does
    | with_reducible apply id_does
    | with_reducible apply ite_does
    | with_reducible apply iteO_does
    | (apply Sparse.wf_set; assumption)
    | exact rfl
    | intro _
    | dsimp only
    | split

theorem execAndn_does {A : List Part} {b₀ : State} (w : Bool) (rd : Fin 64) (ra : Fin 64) (rb : Fin 64) (s : State) 
    (hD : Does A b₀ s) (hA : partsIn [.exe] A = true) : DoesO A b₀ (execAndn w rd ra rb s) := by
  unfold execAndn
  repeat' first
    | with_reducible assumption
    | with_reducible apply kq2_does
    | ((with_reducible refine partsIn_trans ?_ hA); exact rfl)
    | ((with_reducible refine listed_code ?_ hA); exact rfl)
    | exact fun (h : Sparse.wf _ _ = true) => h
    | with_reducible apply next_does
    | with_reducible apply id_does
    | with_reducible apply ite_does
    | with_reducible apply iteO_does
    | (apply Sparse.wf_set; assumption)
    | exact rfl
    | intro _
    | dsimp only
    | split

theorem execNot_does {A : List Part} {b₀ : State} (w : Bool) (rd : Fin 64) (ra : Fin 64) (s : State) 
    (hD : Does A b₀ s) (hA : partsIn [.exe] A = true) : DoesO A b₀ (execNot w rd ra s) := by
  unfold execNot
  repeat' first
    | with_reducible assumption
    | with_reducible apply kq1_does
    | ((with_reducible refine partsIn_trans ?_ hA); exact rfl)
    | ((with_reducible refine listed_code ?_ hA); exact rfl)
    | exact fun (h : Sparse.wf _ _ = true) => h
    | with_reducible apply next_does
    | with_reducible apply id_does
    | with_reducible apply ite_does
    | with_reducible apply iteO_does
    | (apply Sparse.wf_set; assumption)
    | exact rfl
    | intro _
    | dsimp only
    | split

theorem execShl_does {A : List Part} {b₀ : State} (w : Bool) (rd : Fin 64) (ra : Fin 64) (rb : Fin 64) (s : State) 
    (hD : Does A b₀ s) (hA : partsIn [.exe] A = true) : DoesO A b₀ (execShl w rd ra rb s) := by
  unfold execShl
  repeat' first
    | with_reducible assumption
    | with_reducible apply kq2_does
    | ((with_reducible refine partsIn_trans ?_ hA); exact rfl)
    | ((with_reducible refine listed_code ?_ hA); exact rfl)
    | exact fun (h : Sparse.wf _ _ = true) => h
    | with_reducible apply next_does
    | with_reducible apply id_does
    | with_reducible apply ite_does
    | with_reducible apply iteO_does
    | (apply Sparse.wf_set; assumption)
    | exact rfl
    | intro _
    | dsimp only
    | split

theorem execShr_does {A : List Part} {b₀ : State} (w : Bool) (rd : Fin 64) (ra : Fin 64) (rb : Fin 64) (s : State) 
    (hD : Does A b₀ s) (hA : partsIn [.exe] A = true) : DoesO A b₀ (execShr w rd ra rb s) := by
  unfold execShr
  repeat' first
    | with_reducible assumption
    | with_reducible apply kq2_does
    | ((with_reducible refine partsIn_trans ?_ hA); exact rfl)
    | ((with_reducible refine listed_code ?_ hA); exact rfl)
    | exact fun (h : Sparse.wf _ _ = true) => h
    | with_reducible apply next_does
    | with_reducible apply id_does
    | with_reducible apply ite_does
    | with_reducible apply iteO_does
    | (apply Sparse.wf_set; assumption)
    | exact rfl
    | intro _
    | dsimp only
    | split

theorem execSar_does {A : List Part} {b₀ : State} (w : Bool) (rd : Fin 64) (ra : Fin 64) (rb : Fin 64) (s : State) 
    (hD : Does A b₀ s) (hA : partsIn [.exe] A = true) : DoesO A b₀ (execSar w rd ra rb s) := by
  unfold execSar
  repeat' first
    | with_reducible assumption
    | with_reducible apply kq2_does
    | ((with_reducible refine partsIn_trans ?_ hA); exact rfl)
    | ((with_reducible refine listed_code ?_ hA); exact rfl)
    | exact fun (h : Sparse.wf _ _ = true) => h
    | with_reducible apply next_does
    | with_reducible apply id_does
    | with_reducible apply ite_does
    | with_reducible apply iteO_does
    | (apply Sparse.wf_set; assumption)
    | exact rfl
    | intro _
    | dsimp only
    | split

theorem execRol_does {A : List Part} {b₀ : State} (w : Bool) (rd : Fin 64) (ra : Fin 64) (rb : Fin 64) (s : State) 
    (hD : Does A b₀ s) (hA : partsIn [.exe] A = true) : DoesO A b₀ (execRol w rd ra rb s) := by
  unfold execRol
  repeat' first
    | with_reducible assumption
    | with_reducible apply kq2_does
    | ((with_reducible refine partsIn_trans ?_ hA); exact rfl)
    | ((with_reducible refine listed_code ?_ hA); exact rfl)
    | exact fun (h : Sparse.wf _ _ = true) => h
    | with_reducible apply next_does
    | with_reducible apply id_does
    | with_reducible apply ite_does
    | with_reducible apply iteO_does
    | (apply Sparse.wf_set; assumption)
    | exact rfl
    | intro _
    | dsimp only
    | split

theorem execRor_does {A : List Part} {b₀ : State} (w : Bool) (rd : Fin 64) (ra : Fin 64) (rb : Fin 64) (s : State) 
    (hD : Does A b₀ s) (hA : partsIn [.exe] A = true) : DoesO A b₀ (execRor w rd ra rb s) := by
  unfold execRor
  repeat' first
    | with_reducible assumption
    | with_reducible apply kq2_does
    | ((with_reducible refine partsIn_trans ?_ hA); exact rfl)
    | ((with_reducible refine listed_code ?_ hA); exact rfl)
    | exact fun (h : Sparse.wf _ _ = true) => h
    | with_reducible apply next_does
    | with_reducible apply id_does
    | with_reducible apply ite_does
    | with_reducible apply iteO_does
    | (apply Sparse.wf_set; assumption)
    | exact rfl
    | intro _
    | dsimp only
    | split

theorem execBext_does {A : List Part} {b₀ : State} (w : Bool) (rd : Fin 64) (ra : Fin 64) (rb : Fin 64) (s : State) 
    (hD : Does A b₀ s) (hA : partsIn [.exe] A = true) : DoesO A b₀ (execBext w rd ra rb s) := by
  unfold execBext
  repeat' first
    | with_reducible assumption
    | with_reducible apply kq2_does
    | ((with_reducible refine partsIn_trans ?_ hA); exact rfl)
    | ((with_reducible refine listed_code ?_ hA); exact rfl)
    | exact fun (h : Sparse.wf _ _ = true) => h
    | with_reducible apply next_does
    | with_reducible apply id_does
    | with_reducible apply ite_does
    | with_reducible apply iteO_does
    | (apply Sparse.wf_set; assumption)
    | exact rfl
    | intro _
    | dsimp only
    | split

theorem execBset_does {A : List Part} {b₀ : State} (w : Bool) (rd : Fin 64) (ra : Fin 64) (rb : Fin 64) (s : State) 
    (hD : Does A b₀ s) (hA : partsIn [.exe] A = true) : DoesO A b₀ (execBset w rd ra rb s) := by
  unfold execBset
  repeat' first
    | with_reducible assumption
    | with_reducible apply kq2_does
    | ((with_reducible refine partsIn_trans ?_ hA); exact rfl)
    | ((with_reducible refine listed_code ?_ hA); exact rfl)
    | exact fun (h : Sparse.wf _ _ = true) => h
    | with_reducible apply next_does
    | with_reducible apply id_does
    | with_reducible apply ite_does
    | with_reducible apply iteO_does
    | (apply Sparse.wf_set; assumption)
    | exact rfl
    | intro _
    | dsimp only
    | split

theorem execBclr_does {A : List Part} {b₀ : State} (w : Bool) (rd : Fin 64) (ra : Fin 64) (rb : Fin 64) (s : State) 
    (hD : Does A b₀ s) (hA : partsIn [.exe] A = true) : DoesO A b₀ (execBclr w rd ra rb s) := by
  unfold execBclr
  repeat' first
    | with_reducible assumption
    | with_reducible apply kq2_does
    | ((with_reducible refine partsIn_trans ?_ hA); exact rfl)
    | ((with_reducible refine listed_code ?_ hA); exact rfl)
    | exact fun (h : Sparse.wf _ _ = true) => h
    | with_reducible apply next_does
    | with_reducible apply id_does
    | with_reducible apply ite_does
    | with_reducible apply iteO_does
    | (apply Sparse.wf_set; assumption)
    | exact rfl
    | intro _
    | dsimp only
    | split

theorem execPopc_does {A : List Part} {b₀ : State} (w : Bool) (rd : Fin 64) (ra : Fin 64) (s : State) 
    (hD : Does A b₀ s) (hA : partsIn [.exe] A = true) : DoesO A b₀ (execPopc w rd ra s) := by
  unfold execPopc
  repeat' first
    | with_reducible assumption
    | with_reducible apply kq1_does
    | ((with_reducible refine partsIn_trans ?_ hA); exact rfl)
    | ((with_reducible refine listed_code ?_ hA); exact rfl)
    | exact fun (h : Sparse.wf _ _ = true) => h
    | with_reducible apply next_does
    | with_reducible apply id_does
    | with_reducible apply ite_does
    | with_reducible apply iteO_does
    | (apply Sparse.wf_set; assumption)
    | exact rfl
    | intro _
    | dsimp only
    | split

theorem execClz_does {A : List Part} {b₀ : State} (w : Bool) (rd : Fin 64) (ra : Fin 64) (s : State) 
    (hD : Does A b₀ s) (hA : partsIn [.exe] A = true) : DoesO A b₀ (execClz w rd ra s) := by
  unfold execClz
  repeat' first
    | with_reducible assumption
    | with_reducible apply kq1_does
    | ((with_reducible refine partsIn_trans ?_ hA); exact rfl)
    | ((with_reducible refine listed_code ?_ hA); exact rfl)
    | exact fun (h : Sparse.wf _ _ = true) => h
    | with_reducible apply next_does
    | with_reducible apply id_does
    | with_reducible apply ite_does
    | with_reducible apply iteO_does
    | (apply Sparse.wf_set; assumption)
    | exact rfl
    | intro _
    | dsimp only
    | split

theorem execLi_does {A : List Part} {b₀ : State} (rd : Fin 64) (imm : BitVec 16) (s : State) 
    (hD : Does A b₀ s) (hA : partsIn [.exe] A = true) : DoesO A b₀ (execLi rd imm s) := by
  unfold execLi
  repeat' first
    | with_reducible assumption
    | with_reducible apply kq1_does
    | ((with_reducible refine partsIn_trans ?_ hA); exact rfl)
    | ((with_reducible refine listed_code ?_ hA); exact rfl)
    | exact fun (h : Sparse.wf _ _ = true) => h
    | with_reducible apply next_does
    | with_reducible apply id_does
    | with_reducible apply ite_does
    | with_reducible apply iteO_does
    | (apply Sparse.wf_set; assumption)
    | exact rfl
    | intro _
    | dsimp only
    | split

theorem execLiu_does {A : List Part} {b₀ : State} (rd : Fin 64) (imm : BitVec 16) (s : State) 
    (hD : Does A b₀ s) (hA : partsIn [.exe] A = true) : DoesO A b₀ (execLiu rd imm s) := by
  unfold execLiu
  repeat' first
    | with_reducible assumption
    | with_reducible apply kq1_does
    | ((with_reducible refine partsIn_trans ?_ hA); exact rfl)
    | ((with_reducible refine listed_code ?_ hA); exact rfl)
    | exact fun (h : Sparse.wf _ _ = true) => h
    | with_reducible apply next_does
    | with_reducible apply id_does
    | with_reducible apply ite_does
    | with_reducible apply iteO_does
    | (apply Sparse.wf_set; assumption)
    | exact rfl
    | intro _
    | dsimp only
    | split

theorem execIns0_does {A : List Part} {b₀ : State} (rd : Fin 64) (imm : BitVec 16) (s : State) 
    (hD : Does A b₀ s) (hA : partsIn [.exe] A = true) : DoesO A b₀ (execIns0 rd imm s) := by
  unfold execIns0
  repeat' first
    | with_reducible assumption
    | with_reducible apply kq1_does
    | ((with_reducible refine partsIn_trans ?_ hA); exact rfl)
    | ((with_reducible refine listed_code ?_ hA); exact rfl)
    | exact fun (h : Sparse.wf _ _ = true) => h
    | with_reducible apply next_does
    | with_reducible apply id_does
    | with_reducible apply ite_does
    | with_reducible apply iteO_does
    | (apply Sparse.wf_set; assumption)
    | exact rfl
    | intro _
    | dsimp only
    | split

theorem execIns1_does {A : List Part} {b₀ : State} (rd : Fin 64) (imm : BitVec 16) (s : State) 
    (hD : Does A b₀ s) (hA : partsIn [.exe] A = true) : DoesO A b₀ (execIns1 rd imm s) := by
  unfold execIns1
  repeat' first
    | with_reducible assumption
    | with_reducible apply kq1_does
    | ((with_reducible refine partsIn_trans ?_ hA); exact rfl)
    | ((with_reducible refine listed_code ?_ hA); exact rfl)
    | exact fun (h : Sparse.wf _ _ = true) => h
    | with_reducible apply next_does
    | with_reducible apply id_does
    | with_reducible apply ite_does
    | with_reducible apply iteO_does
    | (apply Sparse.wf_set; assumption)
    | exact rfl
    | intro _
    | dsimp only
    | split

theorem execIns2_does {A : List Part} {b₀ : State} (rd : Fin 64) (imm : BitVec 16) (s : State) 
    (hD : Does A b₀ s) (hA : partsIn [.exe] A = true) : DoesO A b₀ (execIns2 rd imm s) := by
  unfold execIns2
  repeat' first
    | with_reducible assumption
    | with_reducible apply kq1_does
    | ((with_reducible refine partsIn_trans ?_ hA); exact rfl)
    | ((with_reducible refine listed_code ?_ hA); exact rfl)
    | exact fun (h : Sparse.wf _ _ = true) => h
    | with_reducible apply next_does
    | with_reducible apply id_does
    | with_reducible apply ite_does
    | with_reducible apply iteO_does
    | (apply Sparse.wf_set; assumption)
    | exact rfl
    | intro _
    | dsimp only
    | split

theorem execIns3_does {A : List Part} {b₀ : State} (rd : Fin 64) (imm : BitVec 16) (s : State) 
    (hD : Does A b₀ s) (hA : partsIn [.exe] A = true) : DoesO A b₀ (execIns3 rd imm s) := by
  unfold execIns3
  repeat' first
    | with_reducible assumption
    | with_reducible apply kq1_does
    | ((with_reducible refine partsIn_trans ?_ hA); exact rfl)
    | ((with_reducible refine listed_code ?_ hA); exact rfl)
    | exact fun (h : Sparse.wf _ _ = true) => h
    | with_reducible apply next_does
    | with_reducible apply id_does
    | with_reducible apply ite_does
    | with_reducible apply iteO_does
    | (apply Sparse.wf_set; assumption)
    | exact rfl
    | intro _
    | dsimp only
    | split

theorem execAddi_does {A : List Part} {b₀ : State} (rd : Fin 64) (imm : BitVec 16) (s : State) 
    (hD : Does A b₀ s) (hA : partsIn [.exe] A = true) : DoesO A b₀ (execAddi rd imm s) := by
  unfold execAddi
  repeat' first
    | with_reducible assumption
    | with_reducible apply kq1_does
    | ((with_reducible refine partsIn_trans ?_ hA); exact rfl)
    | ((with_reducible refine listed_code ?_ hA); exact rfl)
    | exact fun (h : Sparse.wf _ _ = true) => h
    | with_reducible apply next_does
    | with_reducible apply id_does
    | with_reducible apply ite_does
    | with_reducible apply iteO_does
    | (apply Sparse.wf_set; assumption)
    | exact rfl
    | intro _
    | dsimp only
    | split

theorem execAddi32_does {A : List Part} {b₀ : State} (rd : Fin 64) (imm : BitVec 16) (s : State) 
    (hD : Does A b₀ s) (hA : partsIn [.exe] A = true) : DoesO A b₀ (execAddi32 rd imm s) := by
  unfold execAddi32
  repeat' first
    | with_reducible assumption
    | with_reducible apply kq1_does
    | ((with_reducible refine partsIn_trans ?_ hA); exact rfl)
    | ((with_reducible refine listed_code ?_ hA); exact rfl)
    | exact fun (h : Sparse.wf _ _ = true) => h
    | with_reducible apply next_does
    | with_reducible apply id_does
    | with_reducible apply ite_does
    | with_reducible apply iteO_does
    | (apply Sparse.wf_set; assumption)
    | exact rfl
    | intro _
    | dsimp only
    | split

theorem execAndi_does {A : List Part} {b₀ : State} (rd : Fin 64) (imm : BitVec 16) (s : State) 
    (hD : Does A b₀ s) (hA : partsIn [.exe] A = true) : DoesO A b₀ (execAndi rd imm s) := by
  unfold execAndi
  repeat' first
    | with_reducible assumption
    | with_reducible apply kq1_does
    | ((with_reducible refine partsIn_trans ?_ hA); exact rfl)
    | ((with_reducible refine listed_code ?_ hA); exact rfl)
    | exact fun (h : Sparse.wf _ _ = true) => h
    | with_reducible apply next_does
    | with_reducible apply id_does
    | with_reducible apply ite_does
    | with_reducible apply iteO_does
    | (apply Sparse.wf_set; assumption)
    | exact rfl
    | intro _
    | dsimp only
    | split

theorem execOri_does {A : List Part} {b₀ : State} (rd : Fin 64) (imm : BitVec 16) (s : State) 
    (hD : Does A b₀ s) (hA : partsIn [.exe] A = true) : DoesO A b₀ (execOri rd imm s) := by
  unfold execOri
  repeat' first
    | with_reducible assumption
    | with_reducible apply kq1_does
    | ((with_reducible refine partsIn_trans ?_ hA); exact rfl)
    | ((with_reducible refine listed_code ?_ hA); exact rfl)
    | exact fun (h : Sparse.wf _ _ = true) => h
    | with_reducible apply next_does
    | with_reducible apply id_does
    | with_reducible apply ite_does
    | with_reducible apply iteO_does
    | (apply Sparse.wf_set; assumption)
    | exact rfl
    | intro _
    | dsimp only
    | split

theorem execXori_does {A : List Part} {b₀ : State} (rd : Fin 64) (imm : BitVec 16) (s : State) 
    (hD : Does A b₀ s) (hA : partsIn [.exe] A = true) : DoesO A b₀ (execXori rd imm s) := by
  unfold execXori
  repeat' first
    | with_reducible assumption
    | with_reducible apply kq1_does
    | ((with_reducible refine partsIn_trans ?_ hA); exact rfl)
    | ((with_reducible refine listed_code ?_ hA); exact rfl)
    | exact fun (h : Sparse.wf _ _ = true) => h
    | with_reducible apply next_does
    | with_reducible apply id_does
    | with_reducible apply ite_does
    | with_reducible apply iteO_does
    | (apply Sparse.wf_set; assumption)
    | exact rfl
    | intro _
    | dsimp only
    | split

theorem execShli_does {A : List Part} {b₀ : State} (rd : Fin 64) (n : Fin 64) (s : State) 
    (hD : Does A b₀ s) (hA : partsIn [.exe] A = true) : DoesO A b₀ (execShli rd n s) := by
  unfold execShli
  repeat' first
    | with_reducible assumption
    | with_reducible apply kq1_does
    | ((with_reducible refine partsIn_trans ?_ hA); exact rfl)
    | ((with_reducible refine listed_code ?_ hA); exact rfl)
    | exact fun (h : Sparse.wf _ _ = true) => h
    | with_reducible apply next_does
    | with_reducible apply id_does
    | with_reducible apply ite_does
    | with_reducible apply iteO_does
    | (apply Sparse.wf_set; assumption)
    | exact rfl
    | intro _
    | dsimp only
    | split

theorem execShri_does {A : List Part} {b₀ : State} (rd : Fin 64) (n : Fin 64) (s : State) 
    (hD : Does A b₀ s) (hA : partsIn [.exe] A = true) : DoesO A b₀ (execShri rd n s) := by
  unfold execShri
  repeat' first
    | with_reducible assumption
    | with_reducible apply kq1_does
    | ((with_reducible refine partsIn_trans ?_ hA); exact rfl)
    | ((with_reducible refine listed_code ?_ hA); exact rfl)
    | exact fun (h : Sparse.wf _ _ = true) => h
    | with_reducible apply next_does
    | with_reducible apply id_does
    | with_reducible apply ite_does
    | with_reducible apply iteO_does
    | (apply Sparse.wf_set; assumption)
    | exact rfl
    | intro _
    | dsimp only
    | split

theorem execSari_does {A : List Part} {b₀ : State} (rd : Fin 64) (n : Fin 64) (s : State) 
    (hD : Does A b₀ s) (hA : partsIn [.exe] A = true) : DoesO A b₀ (execSari rd n s) := by
  unfold execSari
  repeat' first
    | with_reducible assumption
    | with_reducible apply kq1_does
    | ((with_reducible refine partsIn_trans ?_ hA); exact rfl)
    | ((with_reducible refine listed_code ?_ hA); exact rfl)
    | exact fun (h : Sparse.wf _ _ = true) => h
    | with_reducible apply next_does
    | with_reducible apply id_does
    | with_reducible apply ite_does
    | with_reducible apply iteO_does
    | (apply Sparse.wf_set; assumption)
    | exact rfl
    | intro _
    | dsimp only
    | split

theorem execCmpi_does {A : List Part} {b₀ : State} (rd : Fin 64) (imm : BitVec 16) (s : State) 
    (hD : Does A b₀ s) (hA : partsIn [.exe] A = true) : DoesO A b₀ (execCmpi rd imm s) := by
  unfold execCmpi
  repeat' first
    | with_reducible assumption
    | with_reducible apply kqTask_does
    | ((with_reducible refine partsIn_trans ?_ hA); exact rfl)
    | ((with_reducible refine listed_code ?_ hA); exact rfl)
    | exact fun (h : Sparse.wf _ _ = true) => h
    | with_reducible apply next_does
    | with_reducible apply id_does
    | with_reducible apply ite_does
    | with_reducible apply iteO_does
    | (apply Sparse.wf_set; assumption)
    | exact rfl
    | intro _
    | dsimp only
    | split

theorem execCmpiu_does {A : List Part} {b₀ : State} (rd : Fin 64) (imm : BitVec 16) (s : State) 
    (hD : Does A b₀ s) (hA : partsIn [.exe] A = true) : DoesO A b₀ (execCmpiu rd imm s) := by
  unfold execCmpiu
  repeat' first
    | with_reducible assumption
    | with_reducible apply kqTask_does
    | ((with_reducible refine partsIn_trans ?_ hA); exact rfl)
    | ((with_reducible refine listed_code ?_ hA); exact rfl)
    | exact fun (h : Sparse.wf _ _ = true) => h
    | with_reducible apply next_does
    | with_reducible apply id_does
    | with_reducible apply ite_does
    | with_reducible apply iteO_does
    | (apply Sparse.wf_set; assumption)
    | exact rfl
    | intro _
    | dsimp only
    | split

theorem execMuli_does {A : List Part} {b₀ : State} (rd : Fin 64) (imm : BitVec 16) (s : State) 
    (hD : Does A b₀ s) (hA : partsIn [.exe] A = true) : DoesO A b₀ (execMuli rd imm s) := by
  unfold execMuli
  repeat' first
    | with_reducible assumption
    | with_reducible apply kq1_does
    | ((with_reducible refine partsIn_trans ?_ hA); exact rfl)
    | ((with_reducible refine listed_code ?_ hA); exact rfl)
    | exact fun (h : Sparse.wf _ _ = true) => h
    | with_reducible apply next_does
    | with_reducible apply id_does
    | with_reducible apply ite_does
    | with_reducible apply iteO_does
    | (apply Sparse.wf_set; assumption)
    | exact rfl
    | intro _
    | dsimp only
    | split

theorem execCld_does {A : List Part} {b₀ : State} (rd : Fin 64) (i : Fin 4096) (s : State) 
    (hD : Does A b₀ s) (hA : partsIn [.exe] A = true) : DoesO A b₀ (execCld rd i s) := by
  unfold execCld
  repeat' first
    | with_reducible assumption
    | with_reducible apply kqRun_does
    | with_reducible apply onTask_does
    | ((with_reducible refine partsIn_trans ?_ hA); exact rfl)
    | ((with_reducible refine listed_code ?_ hA); exact rfl)
    | exact fun (h : Sparse.wf _ _ = true) => h
    | with_reducible apply next_does
    | with_reducible apply id_does
    | with_reducible apply ite_does
    | with_reducible apply iteO_does
    | (apply Sparse.wf_set; assumption)
    | exact rfl
    | intro _
    | dsimp only
    | split

end Sys2Proof.Machine
end

