-- ==== Sys2Proof/Laws/OnlyKqTag.lean ====
section
/-! SUPPORT. What each operation of Machine/KqTag.lean can do: the parts of the state it may change, and that it keeps
canonical form. -/
namespace Sys2Proof.Machine

theorem kqTyped_does {A : List Part} {b₀ : State} (t : Nat) (g : Nat) (ty : Fin 16) (f : TagDef → State → State) (s : State) (h_f : ∀ x0 u, Does A b₀ u → Does A b₀ (f x0 u))
    (hD : Does A b₀ s) (hA : partsIn [.block 0x01, .block 0x02, .block 0x03, .block 0x05, .block 0x08, .block 0x09, .block 0x0A, .block 0x0C, .free, .strand, .backup, .tides, .seqs, .exe, .loop, .dio, .saf, .pair, .can, .sup, .mbx, .out] A = true) : Does A b₀ (kqTyped t g ty f s) := by
  unfold kqTyped
  repeat' first
    | with_reducible assumption
    | with_reducible apply h_f
    | with_reducible apply kqFault_does
    | ((with_reducible refine partsIn_trans ?_ hA); exact rfl)
    | ((with_reducible refine listed_code ?_ hA); exact rfl)
    | exact fun (h : Sparse.wf _ _ = true) => h
    | with_reducible apply next_does
    | with_reducible apply id_does
    | with_reducible apply ite_does
    | with_reducible apply iteO_does
    | (apply Sparse.wf_set; assumption)
    | exact rfl
    | intro _
    | dsimp only
    | split

theorem kqLoad_does {A : List Part} {b₀ : State} (t : Nat) (g : Nat) (ty : Fin 16) (rd : Fin 64) (s : State) 
    (hD : Does A b₀ s) (hA : partsIn [.block 0x01, .block 0x02, .block 0x03, .block 0x05, .block 0x08, .block 0x09, .block 0x0A, .block 0x0C, .block 0x0F, .free, .strand, .backup, .tides, .seqs, .exe, .loop, .dio, .saf, .pair, .can, .sup, .mbx, .out] A = true) : Does A b₀ (kqLoad t g ty rd s) := by
  unfold kqLoad
  repeat' first
    | with_reducible assumption
    | with_reducible apply kqProt_does
    | with_reducible apply kqReplay_does
    | with_reducible apply kqTyped_does
    | with_reducible apply onTask_does
    | ((with_reducible refine partsIn_trans ?_ hA); exact rfl)
    | ((with_reducible refine listed_code ?_ hA); exact rfl)
    | exact fun (h : Sparse.wf _ _ = true) => h
    | with_reducible apply next_does
    | with_reducible apply id_does
    | with_reducible apply ite_does
    | with_reducible apply iteO_does
    | (apply Sparse.wf_set; assumption)
    | exact rfl
    | intro _
    | dsimp only
    | split

theorem storeTo_does {A : List Part} {b₀ : State} (t : Nat) (g : Nat) (v : DWord) (s : State) 
    (hD : Does A b₀ s) (hA : partsIn [.block 0x05, .free, .strand, .exe, .dio, .out] A = true) : Does A b₀ (storeTo t g v s) := by
  unfold storeTo
  repeat' first
    | with_reducible assumption
    | with_reducible apply onTask_does
    | with_reducible apply tagStore_does
    | ((with_reducible refine partsIn_trans ?_ hA); exact rfl)
    | ((with_reducible refine listed_code ?_ hA); exact rfl)
    | exact fun (h : Sparse.wf _ _ = true) => h
    | with_reducible apply next_does
    | with_reducible apply id_does
    | with_reducible apply ite_does
    | with_reducible apply iteO_does
    | (apply Sparse.wf_set; assumption)
    | exact rfl
    | intro _
    | dsimp only
    | split

theorem kqStore_does {A : List Part} {b₀ : State} (t : Nat) (g : Nat) (ty : Fin 16) (v : DWord) (s : State) 
    (hD : Does A b₀ s) (hA : partsIn [.block 0x01, .block 0x02, .block 0x03, .block 0x05, .block 0x08, .block 0x09, .block 0x0A, .block 0x0C, .block 0x0F, .free, .strand, .backup, .tides, .seqs, .exe, .loop, .dio, .saf, .pair, .can, .sup, .mbx, .out] A = true) : Does A b₀ (kqStore t g ty v s) := by
  unfold kqStore
  repeat' first
    | with_reducible assumption
    | with_reducible apply commitPoint_does
    | with_reducible apply kqFault_does
    | with_reducible apply kqProt_does
    | with_reducible apply kqTyped_does
    | with_reducible apply onTask_does
    | with_reducible apply storeTo_does
    | ((with_reducible refine partsIn_trans ?_ hA); exact rfl)
    | ((with_reducible refine listed_code ?_ hA); exact rfl)
    | exact fun (h : Sparse.wf _ _ = true) => h
    | with_reducible apply next_does
    | with_reducible apply id_does
    | with_reducible apply ite_does
    | with_reducible apply iteO_does
    | (apply Sparse.wf_set; assumption)
    | exact rfl
    | intro _
    | dsimp only
    | split

theorem execTld_does {A : List Part} {b₀ : State} (ty : Fin 16) (rd : Fin 64) (tag : Tag) (s : State) 
    (hD : Does A b₀ s) (hA : partsIn [.block 0x01, .block 0x02, .block 0x03, .block 0x05, .block 0x08, .block 0x09, .block 0x0A, .block 0x0C, .block 0x0F, .free, .strand, .backup, .tides, .seqs, .exe, .loop, .dio, .saf, .pair, .can, .sup, .mbx, .out] A = true) : DoesO A b₀ (execTld ty rd tag s) := by
  unfold execTld
  repeat' first
    | with_reducible assumption
    | with_reducible apply kqLoad_does
    | with_reducible apply kqRun_does
    | ((with_reducible refine partsIn_trans ?_ hA); exact rfl)
    | ((with_reducible refine listed_code ?_ hA); exact rfl)
    | exact fun (h : Sparse.wf _ _ = true) => h
    | with_reducible apply next_does
    | with_reducible apply id_does
    | with_reducible apply ite_does
    | with_reducible apply iteO_does
    | (apply Sparse.wf_set; assumption)
    | exact rfl
    | intro _
    | dsimp only
    | split

theorem execTldx_does {A : List Part} {b₀ : State} (ty : Fin 16) (rd : Fin 64) (ra : Fin 64) (rb : Fin 64) (s : State) 
    (hD : Does A b₀ s) (hA : partsIn [.block 0x01, .block 0x02, .block 0x03, .block 0x05, .block 0x08, .block 0x09, .block 0x0A, .block 0x0C, .block 0x0F, .free, .strand, .backup, .tides, .seqs, .exe, .loop, .dio, .saf, .pair, .can, .sup, .mbx, .out] A = true) : DoesO A b₀ (execTldx ty rd ra rb s) := by
  unfold execTldx
  repeat' first
    | with_reducible assumption
    | with_reducible apply kqLoad_does
    | with_reducible apply kqRun_does
    | ((with_reducible refine partsIn_trans ?_ hA); exact rfl)
    | ((with_reducible refine listed_code ?_ hA); exact rfl)
    | exact fun (h : Sparse.wf _ _ = true) => h
    | with_reducible apply next_does
    | with_reducible apply id_does
    | with_reducible apply ite_does
    | with_reducible apply iteO_does
    | (apply Sparse.wf_set; assumption)
    | exact rfl
    | intro _
    | dsimp only
    | split

theorem execTst_does {A : List Part} {b₀ : State} (ty : Fin 16) (rd : Fin 64) (tag : Tag) (s : State) 
    (hD : Does A b₀ s) (hA : partsIn [.block 0x01, .block 0x02, .block 0x03, .block 0x05, .block 0x08, .block 0x09, .block 0x0A, .block 0x0C, .block 0x0F, .free, .strand, .backup, .tides, .seqs, .exe, .loop, .dio, .saf, .pair, .can, .sup, .mbx, .out] A = true) : DoesO A b₀ (execTst ty rd tag s) := by
  unfold execTst
  repeat' first
    | with_reducible assumption
    | with_reducible apply kqRun_does
    | with_reducible apply kqStore_does
    | ((with_reducible refine partsIn_trans ?_ hA); exact rfl)
    | ((with_reducible refine listed_code ?_ hA); exact rfl)
    | exact fun (h : Sparse.wf _ _ = true) => h
    | with_reducible apply next_does
    | with_reducible apply id_does
    | with_reducible apply ite_does
    | with_reducible apply iteO_does
    | (apply Sparse.wf_set; assumption)
    | exact rfl
    | intro _
    | dsimp only
    | split

theorem execTstx_does {A : List Part} {b₀ : State} (ty : Fin 16) (rd : Fin 64) (ra : Fin 64) (rb : Fin 64) (s : State) 
    (hD : Does A b₀ s) (hA : partsIn [.block 0x01, .block 0x02, .block 0x03, .block 0x05, .block 0x08, .block 0x09, .block 0x0A, .block 0x0C, .block 0x0F, .free, .strand, .backup, .tides, .seqs, .exe, .loop, .dio, .saf, .pair, .can, .sup, .mbx, .out] A = true) : DoesO A b₀ (execTstx ty rd ra rb s) := by
  unfold execTstx
  repeat' first
    | with_reducible assumption
    | with_reducible apply kqRun_does
    | with_reducible apply kqStore_does
    | ((with_reducible refine partsIn_trans ?_ hA); exact rfl)
    | ((with_reducible refine listed_code ?_ hA); exact rfl)
    | exact fun (h : Sparse.wf _ _ = true) => h
    | with_reducible apply next_does
    | with_reducible apply id_does
    | with_reducible apply ite_does
    | with_reducible apply iteO_does
    | (apply Sparse.wf_set; assumption)
    | exact rfl
    | intro _
    | dsimp only
    | split

theorem refWrite_does {A : List Part} {b₀ : State} (t : Nat) (off : Nat) (n : Nat) (v : Nat) (r : ImgRef) (s : State) 
    (hD : Does A b₀ s) (hA : partsIn [.mem, .exe] A = true) : Does A b₀ (refWrite t off n v r s) := by
  unfold refWrite
  repeat' first
    | with_reducible assumption
    | with_reducible apply msetN_does
    | with_reducible apply onTask_does
    | ((with_reducible refine partsIn_trans ?_ hA); exact rfl)
    | ((with_reducible refine listed_code ?_ hA); exact rfl)
    | exact fun (h : Sparse.wf _ _ = true) => h
    | with_reducible apply next_does
    | with_reducible apply id_does
    | with_reducible apply ite_does
    | with_reducible apply iteO_does
    | (apply Sparse.wf_set; assumption)
    | exact rfl
    | intro _
    | dsimp only
    | split

theorem execImld_does {A : List Part} {b₀ : State} (area : ImgArea) (sgn : Bool) (size : AccSize) (rd : Fin 64) (ra : Fin 64) (rb : Fin 64) (s : State) 
    (hD : Does A b₀ s) (hA : partsIn [.block 0x01, .block 0x02, .block 0x03, .block 0x05, .block 0x08, .block 0x09, .block 0x0A, .block 0x0C, .block 0x0F, .free, .strand, .backup, .tides, .seqs, .exe, .loop, .dio, .saf, .pair, .can, .sup, .mbx, .out] A = true) : DoesO A b₀ (execImld area sgn size rd ra rb s) := by
  unfold execImld
  repeat' first
    | with_reducible assumption
    | with_reducible apply kqFault_does
    | with_reducible apply kqProt_does
    | with_reducible apply kqReplay_does
    | with_reducible apply kqRun_does
    | with_reducible apply onTask_does
    | ((with_reducible refine listed_block 1 ?_ ?_ hA); first | omega | (dsimp only [Fld.MPU_STG_MCFG_COLOUR, masterColour]; omega) | (dsimp only [Fld.MPU_STG_MCFG_COLOUR, masterColour]; split <;> omega); exact rfl)
    | ((with_reducible refine listed_block 2 ?_ ?_ hA); first | omega | (dsimp only [Fld.MPU_STG_MCFG_COLOUR, masterColour]; omega) | (dsimp only [Fld.MPU_STG_MCFG_COLOUR, masterColour]; split <;> omega); exact rfl)
    | ((with_reducible refine listed_block 3 ?_ ?_ hA); first | omega | (dsimp only [Fld.MPU_STG_MCFG_COLOUR, masterColour]; omega) | (dsimp only [Fld.MPU_STG_MCFG_COLOUR, masterColour]; split <;> omega); exact rfl)
    | ((with_reducible refine listed_block 5 ?_ ?_ hA); first | omega | (dsimp only [Fld.MPU_STG_MCFG_COLOUR, masterColour]; omega) | (dsimp only [Fld.MPU_STG_MCFG_COLOUR, masterColour]; split <;> omega); exact rfl)
    | ((with_reducible refine listed_block 8 ?_ ?_ hA); first | omega | (dsimp only [Fld.MPU_STG_MCFG_COLOUR, masterColour]; omega) | (dsimp only [Fld.MPU_STG_MCFG_COLOUR, masterColour]; split <;> omega); exact rfl)
    | ((with_reducible refine listed_block 9 ?_ ?_ hA); first | omega | (dsimp only [Fld.MPU_STG_MCFG_COLOUR, masterColour]; omega) | (dsimp only [Fld.MPU_STG_MCFG_COLOUR, masterColour]; split <;> omega); exact rfl)
    | ((with_reducible refine listed_block 10 ?_ ?_ hA); first | omega | (dsimp only [Fld.MPU_STG_MCFG_COLOUR, masterColour]; omega) | (dsimp only [Fld.MPU_STG_MCFG_COLOUR, masterColour]; split <;> omega); exact rfl)
    | ((with_reducible refine listed_block 12 ?_ ?_ hA); first | omega | (dsimp only [Fld.MPU_STG_MCFG_COLOUR, masterColour]; omega) | (dsimp only [Fld.MPU_STG_MCFG_COLOUR, masterColour]; split <;> omega); exact rfl)
    | ((with_reducible refine listed_block 15 ?_ ?_ hA); first | omega | (dsimp only [Fld.MPU_STG_MCFG_COLOUR, masterColour]; omega) | (dsimp only [Fld.MPU_STG_MCFG_COLOUR, masterColour]; split <;> omega); exact rfl)
    | ((with_reducible refine partsIn_trans ?_ hA); exact rfl)
    | ((with_reducible refine listed_code ?_ hA); exact rfl)
    | exact fun (h : Sparse.wf _ _ = true) => h
    | with_reducible apply next_does
    | with_reducible apply id_does
    | with_reducible apply ite_does
    | with_reducible apply iteO_does
    | (apply Sparse.wf_set; assumption)
    | exact rfl
    | intro _
    | dsimp only
    | split

theorem execImst_does {A : List Part} {b₀ : State} (area : ImgArea) (size : AccSize) (rd : Fin 64) (ra : Fin 64) (rb : Fin 64) (s : State) 
    (hD : Does A b₀ s) (hA : partsIn [.block 0x01, .block 0x02, .block 0x03, .block 0x05, .block 0x08, .block 0x09, .block 0x0A, .block 0x0C, .block 0x0F, .free, .mem, .strand, .backup, .tides, .seqs, .exe, .loop, .dio, .saf, .pair, .can, .sup, .mbx, .out] A = true) : DoesO A b₀ (execImst area size rd ra rb s) := by
  unfold execImst
  repeat' first
    | with_reducible assumption
    | with_reducible apply commitPoint_does
    | with_reducible apply kqFault_does
    | with_reducible apply kqProt_does
    | with_reducible apply kqRun_does
    | with_reducible apply onTask_does
    | with_reducible apply refWrite_does
    | ((with_reducible refine listed_block 1 ?_ ?_ hA); first | omega | (dsimp only [Fld.MPU_STG_MCFG_COLOUR, masterColour]; omega) | (dsimp only [Fld.MPU_STG_MCFG_COLOUR, masterColour]; split <;> omega); exact rfl)
    | ((with_reducible refine listed_block 2 ?_ ?_ hA); first | omega | (dsimp only [Fld.MPU_STG_MCFG_COLOUR, masterColour]; omega) | (dsimp only [Fld.MPU_STG_MCFG_COLOUR, masterColour]; split <;> omega); exact rfl)
    | ((with_reducible refine listed_block 3 ?_ ?_ hA); first | omega | (dsimp only [Fld.MPU_STG_MCFG_COLOUR, masterColour]; omega) | (dsimp only [Fld.MPU_STG_MCFG_COLOUR, masterColour]; split <;> omega); exact rfl)
    | ((with_reducible refine listed_block 5 ?_ ?_ hA); first | omega | (dsimp only [Fld.MPU_STG_MCFG_COLOUR, masterColour]; omega) | (dsimp only [Fld.MPU_STG_MCFG_COLOUR, masterColour]; split <;> omega); exact rfl)
    | ((with_reducible refine listed_block 8 ?_ ?_ hA); first | omega | (dsimp only [Fld.MPU_STG_MCFG_COLOUR, masterColour]; omega) | (dsimp only [Fld.MPU_STG_MCFG_COLOUR, masterColour]; split <;> omega); exact rfl)
    | ((with_reducible refine listed_block 9 ?_ ?_ hA); first | omega | (dsimp only [Fld.MPU_STG_MCFG_COLOUR, masterColour]; omega) | (dsimp only [Fld.MPU_STG_MCFG_COLOUR, masterColour]; split <;> omega); exact rfl)
    | ((with_reducible refine listed_block 10 ?_ ?_ hA); first | omega | (dsimp only [Fld.MPU_STG_MCFG_COLOUR, masterColour]; omega) | (dsimp only [Fld.MPU_STG_MCFG_COLOUR, masterColour]; split <;> omega); exact rfl)
    | ((with_reducible refine listed_block 12 ?_ ?_ hA); first | omega | (dsimp only [Fld.MPU_STG_MCFG_COLOUR, masterColour]; omega) | (dsimp only [Fld.MPU_STG_MCFG_COLOUR, masterColour]; split <;> omega); exact rfl)
    | ((with_reducible refine listed_block 15 ?_ ?_ hA); first | omega | (dsimp only [Fld.MPU_STG_MCFG_COLOUR, masterColour]; omega) | (dsimp only [Fld.MPU_STG_MCFG_COLOUR, masterColour]; split <;> omega); exact rfl)
    | ((with_reducible refine partsIn_trans ?_ hA); exact rfl)
    | ((with_reducible refine listed_code ?_ hA); exact rfl)
    | exact fun (h : Sparse.wf _ _ = true) => h
    | with_reducible apply next_does
    | with_reducible apply id_does
    | with_reducible apply ite_does
    | with_reducible apply iteO_does
    | (apply Sparse.wf_set; assumption)
    | exact rfl
    | intro _
    | dsimp only
    | split

end Sys2Proof.Machine
end

