-- ==== Sys2Proof/Laws/OnlyLoop.lean ====
section
/-! SUPPORT. What each operation of Machine/Loop.lean can do: the parts of the state it may change, and that it keeps
canonical form. -/
namespace Sys2Proof.Machine

theorem frameSource_does {A : List Part} {b₀ : State} (crossing : Bool) (s : State) 
    (hD : Does A b₀ s) (hA : partsIn [.block 0x04, .free, .strand, .loop, .out] A = true) : Does A b₀ (frameSource crossing s) := by
  unfold frameSource
  repeat' first
    | with_reducible assumption
    | with_reducible apply raiseF_does
    | with_reducible apply say_does
    | with_reducible apply setFlag_does
    | ((with_reducible refine partsIn_trans ?_ hA); exact rfl)
    | ((with_reducible refine listed_code ?_ hA); exact rfl)
    | exact fun (h : Sparse.wf _ _ = true) => h
    | with_reducible apply next_does
    | with_reducible apply id_does
    | with_reducible apply ite_does
    | with_reducible apply iteO_does
    | (apply Sparse.wf_set; assumption)
    | exact rfl
    | intro _
    | dsimp only
    | split
    | with_reducible apply upd_loop

theorem mirrorRound_does {A : List Part} {b₀ : State}  (s : State) 
    (hD : Does A b₀ s) (hA : partsIn [.loop, .pair, .out] A = true) : Does A b₀ (mirrorRound s) := by
  unfold mirrorRound
  repeat' first
    | with_reducible assumption
    | with_reducible apply forAll_does
    | with_reducible apply slotMirror_does
    | ((with_reducible refine partsIn_trans ?_ hA); exact rfl)
    | ((with_reducible refine listed_code ?_ hA); exact rfl)
    | exact fun (h : Sparse.wf _ _ = true) => h
    | with_reducible apply next_does
    | with_reducible apply id_does
    | with_reducible apply ite_does
    | with_reducible apply iteO_does
    | (apply Sparse.wf_set; assumption)
    | exact rfl
    | intro _
    | dsimp only
    | split
    | with_reducible apply upd_loop

theorem slotFrame_does {A : List Part} {b₀ : State} (f : Nat) (stamp : DWord) (k : Nat) (s : State) 
    (hD : Does A b₀ s) (hA : partsIn [.block 0x04, .free, .strand, .loop, .out] A = true) : Does A b₀ (slotFrame f stamp k s) := by
  unfold slotFrame
  repeat' first
    | with_reducible assumption
    | with_reducible apply bump_does
    | with_reducible apply onSlot_does
    | with_reducible apply onlyIf_does
    | with_reducible apply raiseF_does
    | with_reducible apply slotCapture_does
    | with_reducible apply slotSay_does
    | ((with_reducible refine partsIn_trans ?_ hA); exact rfl)
    | ((with_reducible refine listed_code ?_ hA); exact rfl)
    | exact fun (h : Sparse.wf _ _ = true) => h
    | with_reducible apply next_does
    | with_reducible apply id_does
    | with_reducible apply ite_does
    | with_reducible apply iteO_does
    | (apply Sparse.wf_set; assumption)
    | exact rfl
    | intro _
    | dsimp only
    | split

theorem frameStart_does {A : List Part} {b₀ : State} (cycles : Nat) (crossing : Bool) (s : State) 
    (hD : Does A b₀ s) (hA : partsIn [.block 0x04, .free, .strand, .loop, .pair, .out] A = true) : Does A b₀ (frameStart cycles crossing s) := by
  unfold frameStart
  repeat' first
    | with_reducible assumption
    | with_reducible apply forAll_does
    | with_reducible apply frameSource_does
    | with_reducible apply mirrorRound_does
    | with_reducible apply setFld_does
    | with_reducible apply slotFrame_does
    | with_reducible apply withFree_does
    | with_reducible apply wr_does
    | ((with_reducible refine listed_block 4 ?_ ?_ hA); first | omega | (dsimp only [Fld.LOOP_FRAME_SRC, Fld.LOOP_STATUS_FRAME, Reg.LOOP_FRAME_LAST, frameCycles]; omega) | (dsimp only [Fld.LOOP_FRAME_SRC, Fld.LOOP_STATUS_FRAME, Reg.LOOP_FRAME_LAST, frameCycles]; split <;> omega); exact rfl)
    | ((with_reducible refine partsIn_trans ?_ hA); exact rfl)
    | ((with_reducible refine listed_code ?_ hA); exact rfl)
    | exact fun (h : Sparse.wf _ _ = true) => h
    | with_reducible apply next_does
    | with_reducible apply id_does
    | with_reducible apply ite_does
    | with_reducible apply iteO_does
    | (apply Sparse.wf_set; assumption)
    | exact rfl
    | intro _
    | dsimp only
    | split
    | with_reducible apply upd_loop

theorem execLoopFrameStart_does {A : List Part} {b₀ : State} (cycles : Nat) (crossing : Bool) (s : State) 
    (hD : Does A b₀ s) (hA : partsIn [.block 0x04, .free, .strand, .loop, .pair, .out] A = true) : DoesO A b₀ (execLoopFrameStart cycles crossing s) := by
  unfold execLoopFrameStart
  repeat' first
    | with_reducible assumption
    | with_reducible apply frameStart_does
    | ((with_reducible refine partsIn_trans ?_ hA); exact rfl)
    | ((with_reducible refine listed_code ?_ hA); exact rfl)
    | exact fun (h : Sparse.wf _ _ = true) => h
    | with_reducible apply next_does
    | with_reducible apply id_does
    | with_reducible apply ite_does
    | with_reducible apply iteO_does
    | (apply Sparse.wf_set; assumption)
    | exact rfl
    | intro _
    | dsimp only
    | split

theorem execLoopEvaluation_does {A : List Part} {b₀ : State} (k : Fin 2048) (s : State) 
    (hD : Does A b₀ s) (hA : partsIn [.block 0x04, .block 0x05, .free, .mem, .strand, .exe, .loop, .dio, .pair, .out] A = true) : DoesO A b₀ (execLoopEvaluation k s) := by
  unfold execLoopEvaluation
  repeat' first
    | with_reducible assumption
    | with_reducible apply evaluateAt_does
    | ((with_reducible refine partsIn_trans ?_ hA); exact rfl)
    | ((with_reducible refine listed_code ?_ hA); exact rfl)
    | exact fun (h : Sparse.wf _ _ = true) => h
    | with_reducible apply next_does
    | with_reducible apply id_does
    | with_reducible apply ite_does
    | with_reducible apply iteO_does
    | (apply Sparse.wf_set; assumption)
    | exact rfl
    | intro _
    | dsimp only
    | split

theorem condEvent_does {A : List Part} {b₀ : State} (k : Nat) (st : Status) (now : Judge → Bool) (was : LoopSlot → Bool) (set : LoopSlot → LoopSlot) (s : State) 
    (hD : Does A b₀ s) (hA : partsIn [.block 0x04, .free, .strand, .exe, .loop, .pair, .out] A = true) : Does A b₀ (condEvent k st now was set s) := by
  unfold condEvent
  repeat' first
    | with_reducible assumption
    | with_reducible apply condFound_does
    | ((with_reducible refine partsIn_trans ?_ hA); exact rfl)
    | ((with_reducible refine listed_code ?_ hA); exact rfl)
    | exact fun (h : Sparse.wf _ _ = true) => h
    | with_reducible apply next_does
    | with_reducible apply id_does
    | with_reducible apply ite_does
    | with_reducible apply iteO_does
    | (apply Sparse.wf_set; assumption)
    | exact rfl
    | intro _
    | dsimp only
    | split

theorem execLoopLost_does {A : List Part} {b₀ : State} (k : Fin 2048) (s : State) 
    (hD : Does A b₀ s) (hA : partsIn [.block 0x04, .free, .strand, .exe, .loop, .pair, .out] A = true) : DoesO A b₀ (execLoopLost k s) := by
  unfold execLoopLost
  repeat' first
    | with_reducible assumption
    | with_reducible apply condEvent_does
    | ((with_reducible refine partsIn_trans ?_ hA); exact rfl)
    | ((with_reducible refine listed_code ?_ hA); exact rfl)
    | exact fun (h : Sparse.wf _ _ = true) => h
    | with_reducible apply next_does
    | with_reducible apply id_does
    | with_reducible apply ite_does
    | with_reducible apply iteO_does
    | (apply Sparse.wf_set; assumption)
    | exact rfl
    | intro _
    | dsimp only
    | split

theorem execLoopFrozen_does {A : List Part} {b₀ : State} (k : Fin 2048) (s : State) 
    (hD : Does A b₀ s) (hA : partsIn [.block 0x04, .free, .strand, .exe, .loop, .pair, .out] A = true) : DoesO A b₀ (execLoopFrozen k s) := by
  unfold execLoopFrozen
  repeat' first
    | with_reducible assumption
    | with_reducible apply condEvent_does
    | ((with_reducible refine partsIn_trans ?_ hA); exact rfl)
    | ((with_reducible refine listed_code ?_ hA); exact rfl)
    | exact fun (h : Sparse.wf _ _ = true) => h
    | with_reducible apply next_does
    | with_reducible apply id_does
    | with_reducible apply ite_does
    | with_reducible apply iteO_does
    | (apply Sparse.wf_set; assumption)
    | exact rfl
    | intro _
    | dsimp only
    | split

theorem execLoopImplausible_does {A : List Part} {b₀ : State} (k : Fin 2048) (s : State) 
    (hD : Does A b₀ s) (hA : partsIn [.block 0x04, .free, .strand, .exe, .loop, .pair, .out] A = true) : DoesO A b₀ (execLoopImplausible k s) := by
  unfold execLoopImplausible
  repeat' first
    | with_reducible assumption
    | with_reducible apply condEvent_does
    | ((with_reducible refine partsIn_trans ?_ hA); exact rfl)
    | ((with_reducible refine listed_code ?_ hA); exact rfl)
    | exact fun (h : Sparse.wf _ _ = true) => h
    | with_reducible apply next_does
    | with_reducible apply id_does
    | with_reducible apply ite_does
    | with_reducible apply iteO_does
    | (apply Sparse.wf_set; assumption)
    | exact rfl
    | intro _
    | dsimp only
    | split

theorem execLoopRecovered_does {A : List Part} {b₀ : State} (k : Fin 2048) (s : State) 
    (hD : Does A b₀ s) (hA : partsIn [.block 0x04, .free, .strand, .exe, .loop, .out] A = true) : DoesO A b₀ (execLoopRecovered k s) := by
  unfold execLoopRecovered
  repeat' first
    | with_reducible assumption
    | with_reducible apply slotRecover_does
    | ((with_reducible refine partsIn_trans ?_ hA); exact rfl)
    | ((with_reducible refine listed_code ?_ hA); exact rfl)
    | exact fun (h : Sparse.wf _ _ = true) => h
    | with_reducible apply next_does
    | with_reducible apply id_does
    | with_reducible apply ite_does
    | with_reducible apply iteO_does
    | (apply Sparse.wf_set; assumption)
    | exact rfl
    | intro _
    | dsimp only
    | split

theorem loopResult_does {A : List Part} {b₀ : State} (st : Status) (s : State) 
    (hD : Does A b₀ s) (hA : partsIn [.block 0x04] A = true) : Does A b₀ (loopResult st s) := by
  unfold loopResult
  repeat' first
    | with_reducible assumption
    | with_reducible apply setFld_does
    | ((with_reducible refine partsIn_trans ?_ hA); exact rfl)
    | ((with_reducible refine listed_code ?_ hA); exact rfl)
    | exact fun (h : Sparse.wf _ _ = true) => h
    | with_reducible apply next_does
    | with_reducible apply id_does
    | with_reducible apply ite_does
    | with_reducible apply iteO_does
    | (apply Sparse.wf_set; assumption)
    | exact rfl
    | intro _
    | dsimp only
    | split

theorem loopRefuse_does {A : List Part} {b₀ : State} (k : Nat) (st : Status) (s : State) 
    (hD : Does A b₀ s) (hA : partsIn [.block 0x04, .free, .strand, .loop, .out] A = true) : Does A b₀ (loopRefuse k st s) := by
  unfold loopRefuse
  repeat' first
    | with_reducible assumption
    | with_reducible apply loopResult_does
    | with_reducible apply slotRefuse_does
    | ((with_reducible refine partsIn_trans ?_ hA); exact rfl)
    | ((with_reducible refine listed_code ?_ hA); exact rfl)
    | exact fun (h : Sparse.wf _ _ = true) => h
    | with_reducible apply next_does
    | with_reducible apply id_does
    | with_reducible apply ite_does
    | with_reducible apply iteO_does
    | (apply Sparse.wf_set; assumption)
    | exact rfl
    | intro _
    | dsimp only
    | split

theorem execLoopLoad_does {A : List Part} {b₀ : State}  (s : State) 
    (hD : Does A b₀ s) (hA : partsIn [.block 0x04, .block 0x0F, .free, .strand, .loop, .out] A = true) : DoesO A b₀ (execLoopLoad s) := by
  unfold execLoopLoad
  repeat' first
    | with_reducible assumption
    | with_reducible apply hostCmd_does
    | with_reducible apply loopRefuse_does
    | with_reducible apply loopResult_does
    | with_reducible apply setSlot_does
    | ((with_reducible refine listed_block 4 ?_ ?_ hA); first | omega | (dsimp only [Fld.LOOP_SEL_SLOT, Reg.LOOP_CMD, Reg.LOOP_DESC, loopSel]; omega) | (dsimp only [Fld.LOOP_SEL_SLOT, Reg.LOOP_CMD, Reg.LOOP_DESC, loopSel]; split <;> omega); exact rfl)
    | ((with_reducible refine listed_block 15 ?_ ?_ hA); first | omega | (dsimp only [Fld.LOOP_SEL_SLOT, Reg.LOOP_CMD, Reg.LOOP_DESC, loopSel]; omega) | (dsimp only [Fld.LOOP_SEL_SLOT, Reg.LOOP_CMD, Reg.LOOP_DESC, loopSel]; split <;> omega); exact rfl)
    | ((with_reducible refine partsIn_trans ?_ hA); exact rfl)
    | ((with_reducible refine listed_code ?_ hA); exact rfl)
    | exact fun (h : Sparse.wf _ _ = true) => h
    | with_reducible apply next_does
    | with_reducible apply id_does
    | with_reducible apply ite_does
    | with_reducible apply iteO_does
    | (apply Sparse.wf_set; assumption)
    | exact rfl
    | intro _
    | dsimp only
    | split

theorem execLoopRead_does {A : List Part} {b₀ : State}  (s : State) 
    (hD : Does A b₀ s) (hA : partsIn [.block 0x04, .block 0x0F, .strand, .out] A = true) : DoesO A b₀ (execLoopRead s) := by
  unfold execLoopRead
  repeat' first
    | with_reducible assumption
    | with_reducible apply forAll_does
    | with_reducible apply hostCmd_does
    | with_reducible apply loopResult_does
    | with_reducible apply wr_does
    | ((with_reducible refine listed_block 4 ?_ ?_ hA); first | omega | (dsimp only [Fld.LOOP_SEL_SLOT, Reg.LOOP_CMD, Reg.LOOP_DESC, loopSel]; omega) | (dsimp only [Fld.LOOP_SEL_SLOT, Reg.LOOP_CMD, Reg.LOOP_DESC, loopSel]; split <;> omega); exact rfl)
    | ((with_reducible refine listed_block 15 ?_ ?_ hA); first | omega | (dsimp only [Fld.LOOP_SEL_SLOT, Reg.LOOP_CMD, Reg.LOOP_DESC, loopSel]; omega) | (dsimp only [Fld.LOOP_SEL_SLOT, Reg.LOOP_CMD, Reg.LOOP_DESC, loopSel]; split <;> omega); exact rfl)
    | ((with_reducible refine partsIn_trans ?_ hA); exact rfl)
    | ((with_reducible refine listed_code ?_ hA); exact rfl)
    | exact fun (h : Sparse.wf _ _ = true) => h
    | with_reducible apply next_does
    | with_reducible apply id_does
    | with_reducible apply ite_does
    | with_reducible apply iteO_does
    | (apply Sparse.wf_set; assumption)
    | exact rfl
    | intro _
    | dsimp only
    | split

theorem execLoopSetPar_does {A : List Part} {b₀ : State}  (s : State) 
    (hD : Does A b₀ s) (hA : partsIn [.block 0x04, .block 0x0F, .free, .strand, .loop, .out] A = true) : DoesO A b₀ (execLoopSetPar s) := by
  unfold execLoopSetPar
  repeat' first
    | with_reducible assumption
    | with_reducible apply hostCmd_does
    | with_reducible apply loopPutPar_does
    | with_reducible apply loopResult_does
    | ((with_reducible refine listed_block 4 ?_ ?_ hA); first | omega | (dsimp only [Fld.LOOP_ARG_ARG, Fld.LOOP_SEL_SLOT, Reg.LOOP_CMD, Reg.LOOP_VAL, loopArg, loopSel]; omega) | (dsimp only [Fld.LOOP_ARG_ARG, Fld.LOOP_SEL_SLOT, Reg.LOOP_CMD, Reg.LOOP_VAL, loopArg, loopSel]; split <;> omega); exact rfl)
    | ((with_reducible refine listed_block 15 ?_ ?_ hA); first | omega | (dsimp only [Fld.LOOP_ARG_ARG, Fld.LOOP_SEL_SLOT, Reg.LOOP_CMD, Reg.LOOP_VAL, loopArg, loopSel]; omega) | (dsimp only [Fld.LOOP_ARG_ARG, Fld.LOOP_SEL_SLOT, Reg.LOOP_CMD, Reg.LOOP_VAL, loopArg, loopSel]; split <;> omega); exact rfl)
    | ((with_reducible refine partsIn_trans ?_ hA); exact rfl)
    | ((with_reducible refine listed_code ?_ hA); exact rfl)
    | exact fun (h : Sparse.wf _ _ = true) => h
    | with_reducible apply next_does
    | with_reducible apply id_does
    | with_reducible apply ite_does
    | with_reducible apply iteO_does
    | (apply Sparse.wf_set; assumption)
    | exact rfl
    | intro _
    | dsimp only
    | split

theorem execLoopGetPar_does {A : List Part} {b₀ : State}  (s : State) 
    (hD : Does A b₀ s) (hA : partsIn [.block 0x04, .block 0x0F, .free, .strand, .loop, .out] A = true) : DoesO A b₀ (execLoopGetPar s) := by
  unfold execLoopGetPar
  repeat' first
    | with_reducible assumption
    | with_reducible apply hostCmd_does
    | with_reducible apply loopRefuse_does
    | with_reducible apply loopResult_does
    | with_reducible apply wr_does
    | ((with_reducible refine listed_block 4 ?_ ?_ hA); first | omega | (dsimp only [Fld.LOOP_ARG_ARG, Fld.LOOP_SEL_SLOT, Reg.LOOP_CMD, Reg.LOOP_VAL, loopArg, loopSel]; omega) | (dsimp only [Fld.LOOP_ARG_ARG, Fld.LOOP_SEL_SLOT, Reg.LOOP_CMD, Reg.LOOP_VAL, loopArg, loopSel]; split <;> omega); exact rfl)
    | ((with_reducible refine listed_block 15 ?_ ?_ hA); first | omega | (dsimp only [Fld.LOOP_ARG_ARG, Fld.LOOP_SEL_SLOT, Reg.LOOP_CMD, Reg.LOOP_VAL, loopArg, loopSel]; omega) | (dsimp only [Fld.LOOP_ARG_ARG, Fld.LOOP_SEL_SLOT, Reg.LOOP_CMD, Reg.LOOP_VAL, loopArg, loopSel]; split <;> omega); exact rfl)
    | ((with_reducible refine partsIn_trans ?_ hA); exact rfl)
    | ((with_reducible refine listed_code ?_ hA); exact rfl)
    | exact fun (h : Sparse.wf _ _ = true) => h
    | with_reducible apply next_does
    | with_reducible apply id_does
    | with_reducible apply ite_does
    | with_reducible apply iteO_does
    | (apply Sparse.wf_set; assumption)
    | exact rfl
    | intro _
    | dsimp only
    | split

theorem execLoopSetSp_does {A : List Part} {b₀ : State}  (s : State) 
    (hD : Does A b₀ s) (hA : partsIn [.block 0x04, .block 0x0F, .strand, .loop, .out] A = true) : DoesO A b₀ (execLoopSetSp s) := by
  unfold execLoopSetSp
  repeat' first
    | with_reducible assumption
    | with_reducible apply hostCmd_does
    | with_reducible apply loopPutSp_does
    | with_reducible apply loopResult_does
    | ((with_reducible refine listed_block 4 ?_ ?_ hA); first | omega | (dsimp only [Fld.LOOP_SEL_SLOT, Reg.LOOP_CMD, Reg.LOOP_VAL, loopSel]; omega) | (dsimp only [Fld.LOOP_SEL_SLOT, Reg.LOOP_CMD, Reg.LOOP_VAL, loopSel]; split <;> omega); exact rfl)
    | ((with_reducible refine listed_block 15 ?_ ?_ hA); first | omega | (dsimp only [Fld.LOOP_SEL_SLOT, Reg.LOOP_CMD, Reg.LOOP_VAL, loopSel]; omega) | (dsimp only [Fld.LOOP_SEL_SLOT, Reg.LOOP_CMD, Reg.LOOP_VAL, loopSel]; split <;> omega); exact rfl)
    | ((with_reducible refine partsIn_trans ?_ hA); exact rfl)
    | ((with_reducible refine listed_code ?_ hA); exact rfl)
    | exact fun (h : Sparse.wf _ _ = true) => h
    | with_reducible apply next_does
    | with_reducible apply id_does
    | with_reducible apply ite_does
    | with_reducible apply iteO_does
    | (apply Sparse.wf_set; assumption)
    | exact rfl
    | intro _
    | dsimp only
    | split

theorem execLoopSetMode_does {A : List Part} {b₀ : State}  (s : State) 
    (hD : Does A b₀ s) (hA : partsIn [.block 0x04, .block 0x0F, .free, .strand, .loop, .pair, .out] A = true) : DoesO A b₀ (execLoopSetMode s) := by
  unfold execLoopSetMode
  repeat' first
    | with_reducible assumption
    | with_reducible apply hostCmd_does
    | with_reducible apply loopPutMode_does
    | with_reducible apply loopResult_does
    | ((with_reducible refine listed_block 4 ?_ ?_ hA); first | omega | (dsimp only [Fld.LOOP_ARG_ARG, Fld.LOOP_SEL_SLOT, Reg.LOOP_CMD, loopArg, loopSel]; omega) | (dsimp only [Fld.LOOP_ARG_ARG, Fld.LOOP_SEL_SLOT, Reg.LOOP_CMD, loopArg, loopSel]; split <;> omega); exact rfl)
    | ((with_reducible refine listed_block 15 ?_ ?_ hA); first | omega | (dsimp only [Fld.LOOP_ARG_ARG, Fld.LOOP_SEL_SLOT, Reg.LOOP_CMD, loopArg, loopSel]; omega) | (dsimp only [Fld.LOOP_ARG_ARG, Fld.LOOP_SEL_SLOT, Reg.LOOP_CMD, loopArg, loopSel]; split <;> omega); exact rfl)
    | ((with_reducible refine partsIn_trans ?_ hA); exact rfl)
    | ((with_reducible refine listed_code ?_ hA); exact rfl)
    | exact fun (h : Sparse.wf _ _ = true) => h
    | with_reducible apply next_does
    | with_reducible apply id_does
    | with_reducible apply ite_does
    | with_reducible apply iteO_does
    | (apply Sparse.wf_set; assumption)
    | exact rfl
    | intro _
    | dsimp only
    | split

theorem execLoopReadItem_does {A : List Part} {b₀ : State}  (s : State) 
    (hD : Does A b₀ s) (hA : partsIn [.block 0x04, .block 0x0F, .free, .strand, .loop, .out] A = true) : DoesO A b₀ (execLoopReadItem s) := by
  unfold execLoopReadItem
  repeat' first
    | with_reducible assumption
    | with_reducible apply hostCmd_does
    | with_reducible apply loopResult_does
    | with_reducible apply slotSay_does
    | with_reducible apply wr_does
    | ((with_reducible refine listed_block 4 ?_ ?_ hA); first | omega | (dsimp only [Fld.LOOP_ARG_ARG, Fld.LOOP_SEL_SLOT, Reg.LOOP_CMD, Reg.LOOP_VAL, loopArg, loopSel]; omega) | (dsimp only [Fld.LOOP_ARG_ARG, Fld.LOOP_SEL_SLOT, Reg.LOOP_CMD, Reg.LOOP_VAL, loopArg, loopSel]; split <;> omega); exact rfl)
    | ((with_reducible refine listed_block 15 ?_ ?_ hA); first | omega | (dsimp only [Fld.LOOP_ARG_ARG, Fld.LOOP_SEL_SLOT, Reg.LOOP_CMD, Reg.LOOP_VAL, loopArg, loopSel]; omega) | (dsimp only [Fld.LOOP_ARG_ARG, Fld.LOOP_SEL_SLOT, Reg.LOOP_CMD, Reg.LOOP_VAL, loopArg, loopSel]; split <;> omega); exact rfl)
    | ((with_reducible refine partsIn_trans ?_ hA); exact rfl)
    | ((with_reducible refine listed_code ?_ hA); exact rfl)
    | exact fun (h : Sparse.wf _ _ = true) => h
    | with_reducible apply next_does
    | with_reducible apply id_does
    | with_reducible apply ite_does
    | with_reducible apply iteO_does
    | (apply Sparse.wf_set; assumption)
    | exact rfl
    | intro _
    | dsimp only
    | split

theorem execLoopClear_does {A : List Part} {b₀ : State}  (s : State) 
    (hD : Does A b₀ s) (hA : partsIn [.block 0x04, .block 0x0F, .free, .strand, .loop, .out] A = true) : DoesO A b₀ (execLoopClear s) := by
  unfold execLoopClear
  repeat' first
    | with_reducible assumption
    | with_reducible apply hostCmd_does
    | with_reducible apply loopRefuse_does
    | with_reducible apply loopResult_does
    | with_reducible apply onSlot_does
    | ((with_reducible refine listed_block 4 ?_ ?_ hA); first | omega | (dsimp only [Fld.LOOP_SEL_SLOT, Reg.LOOP_CMD, loopSel]; omega) | (dsimp only [Fld.LOOP_SEL_SLOT, Reg.LOOP_CMD, loopSel]; split <;> omega); exact rfl)
    | ((with_reducible refine listed_block 15 ?_ ?_ hA); first | omega | (dsimp only [Fld.LOOP_SEL_SLOT, Reg.LOOP_CMD, loopSel]; omega) | (dsimp only [Fld.LOOP_SEL_SLOT, Reg.LOOP_CMD, loopSel]; split <;> omega); exact rfl)
    | ((with_reducible refine partsIn_trans ?_ hA); exact rfl)
    | ((with_reducible refine listed_code ?_ hA); exact rfl)
    | exact fun (h : Sparse.wf _ _ = true) => h
    | with_reducible apply next_does
    | with_reducible apply id_does
    | with_reducible apply ite_does
    | with_reducible apply iteO_does
    | (apply Sparse.wf_set; assumption)
    | exact rfl
    | intro _
    | dsimp only
    | split

theorem execLoopRunWrite_does {A : List Part} {b₀ : State} (run : Bool) (s : State) 
    (hD : Does A b₀ s) (hA : partsIn [.block 0x04, .block 0x0F, .strand, .loop, .out] A = true) : DoesO A b₀ (execLoopRunWrite run s) := by
  unfold execLoopRunWrite
  repeat' first
    | with_reducible assumption
    | with_reducible apply hostCmd_does
    | with_reducible apply setFlag_does
    | with_reducible apply wr_does
    | ((with_reducible refine partsIn_trans ?_ hA); exact rfl)
    | ((with_reducible refine listed_code ?_ hA); exact rfl)
    | exact fun (h : Sparse.wf _ _ = true) => h
    | with_reducible apply next_does
    | with_reducible apply id_does
    | with_reducible apply ite_does
    | with_reducible apply iteO_does
    | (apply Sparse.wf_set; assumption)
    | exact rfl
    | intro _
    | dsimp only
    | split
    | with_reducible apply upd_loop

theorem traceStop_does {A : List Part} {b₀ : State} (b : Nat) (s : State) 
    (hD : Does A b₀ s) (hA : partsIn [.block 0x04, .loop, .out] A = true) : Does A b₀ (traceStop b s) := by
  unfold traceStop
  repeat' first
    | with_reducible assumption
    | with_reducible apply onTrace_does
    | with_reducible apply raiseF_does
    | with_reducible apply setFlag_does
    | ((with_reducible refine listed_block 4 ?_ ?_ hA); first | omega | (dsimp only [Fld.LOOP_EVENT_TRACE_DONE, Fld.TRBb_STATUS_RUN, Fld.TRBb_STATUS_STOPPED]; omega) | (dsimp only [Fld.LOOP_EVENT_TRACE_DONE, Fld.TRBb_STATUS_RUN, Fld.TRBb_STATUS_STOPPED]; split <;> omega); exact rfl)
    | ((with_reducible refine partsIn_trans ?_ hA); exact rfl)
    | ((with_reducible refine listed_code ?_ hA); exact rfl)
    | exact fun (h : Sparse.wf _ _ = true) => h
    | with_reducible apply next_does
    | with_reducible apply id_does
    | with_reducible apply ite_does
    | with_reducible apply iteO_does
    | (apply Sparse.wf_set; assumption)
    | exact rfl
    | intro _
    | dsimp only
    | split

theorem execTraceArm_does {A : List Part} {b₀ : State} (b : Fin 32) (s : State) 
    (hD : Does A b₀ s) (hA : partsIn [.block 0x04, .block 0x0F, .free, .strand, .loop, .out] A = true) : DoesO A b₀ (execTraceArm b s) := by
  unfold execTraceArm
  repeat' first
    | with_reducible assumption
    | with_reducible apply hostCmd_does
    | with_reducible apply onTrace_does
    | with_reducible apply raiseF_does
    | with_reducible apply say_does
    | with_reducible apply setFlag_does
    | with_reducible apply wr_does
    | ((with_reducible refine listed_block 4 ?_ ?_ hA); first | omega | (dsimp only [Fld.LOOP_EVENT_CFG_REFUSED, Fld.TRBb_CFG_MASK, Fld.TRBb_STATUS_RUN, Fld.TRBb_TRIG_MODE, Fld.TRBb_TRIG_SRC, Fld.TRBb_TRIG_TAG, Reg.TRACE_CMD, Reg.TRBb_STATUS, traceMask]; omega) | (dsimp only [Fld.LOOP_EVENT_CFG_REFUSED, Fld.TRBb_CFG_MASK, Fld.TRBb_STATUS_RUN, Fld.TRBb_TRIG_MODE, Fld.TRBb_TRIG_SRC, Fld.TRBb_TRIG_TAG, Reg.TRACE_CMD, Reg.TRBb_STATUS, traceMask]; split <;> omega); exact rfl)
    | ((with_reducible refine listed_block 15 ?_ ?_ hA); first | omega | (dsimp only [Fld.LOOP_EVENT_CFG_REFUSED, Fld.TRBb_CFG_MASK, Fld.TRBb_STATUS_RUN, Fld.TRBb_TRIG_MODE, Fld.TRBb_TRIG_SRC, Fld.TRBb_TRIG_TAG, Reg.TRACE_CMD, Reg.TRBb_STATUS, traceMask]; omega) | (dsimp only [Fld.LOOP_EVENT_CFG_REFUSED, Fld.TRBb_CFG_MASK, Fld.TRBb_STATUS_RUN, Fld.TRBb_TRIG_MODE, Fld.TRBb_TRIG_SRC, Fld.TRBb_TRIG_TAG, Reg.TRACE_CMD, Reg.TRBb_STATUS, traceMask]; split <;> omega); exact rfl)
    | ((with_reducible refine partsIn_trans ?_ hA); exact rfl)
    | ((with_reducible refine listed_code ?_ hA); exact rfl)
    | exact fun (h : Sparse.wf _ _ = true) => h
    | with_reducible apply next_does
    | with_reducible apply id_does
    | with_reducible apply ite_does
    | with_reducible apply iteO_does
    | (apply Sparse.wf_set; assumption)
    | exact rfl
    | intro _
    | dsimp only
    | split

theorem execTraceStop_does {A : List Part} {b₀ : State} (b : Fin 32) (s : State) 
    (hD : Does A b₀ s) (hA : partsIn [.block 0x04, .block 0x0F, .strand, .loop, .out] A = true) : DoesO A b₀ (execTraceStop b s) := by
  unfold execTraceStop
  repeat' first
    | with_reducible assumption
    | with_reducible apply hostCmd_does
    | with_reducible apply onlyIf_does
    | with_reducible apply traceStop_does
    | ((with_reducible refine listed_block 4 ?_ ?_ hA); first | omega | (dsimp only [Fld.TRBb_STATUS_RUN, Reg.TRACE_CMD]; omega) | (dsimp only [Fld.TRBb_STATUS_RUN, Reg.TRACE_CMD]; split <;> omega); exact rfl)
    | ((with_reducible refine listed_block 15 ?_ ?_ hA); first | omega | (dsimp only [Fld.TRBb_STATUS_RUN, Reg.TRACE_CMD]; omega) | (dsimp only [Fld.TRBb_STATUS_RUN, Reg.TRACE_CMD]; split <;> omega); exact rfl)
    | ((with_reducible refine partsIn_trans ?_ hA); exact rfl)
    | ((with_reducible refine listed_code ?_ hA); exact rfl)
    | exact fun (h : Sparse.wf _ _ = true) => h
    | with_reducible apply next_does
    | with_reducible apply id_does
    | with_reducible apply ite_does
    | with_reducible apply iteO_does
    | (apply Sparse.wf_set; assumption)
    | exact rfl
    | intro _
    | dsimp only
    | split

theorem execTraceTrigger_does {A : List Part} {b₀ : State} (b : Fin 32) (s : State) 
    (hD : Does A b₀ s) (hA : partsIn [.block 0x04, .block 0x0F, .free, .strand, .loop, .out] A = true) : DoesO A b₀ (execTraceTrigger b s) := by
  unfold execTraceTrigger
  repeat' first
    | with_reducible assumption
    | with_reducible apply hostCmd_does
    | with_reducible apply onlyIf_does
    | with_reducible apply traceTrig_does
    | ((with_reducible refine listed_block 4 ?_ ?_ hA); first | omega | (dsimp only [Fld.TRBb_TRIG_SRC, Reg.TRACE_CMD]; omega) | (dsimp only [Fld.TRBb_TRIG_SRC, Reg.TRACE_CMD]; split <;> omega); exact rfl)
    | ((with_reducible refine listed_block 15 ?_ ?_ hA); first | omega | (dsimp only [Fld.TRBb_TRIG_SRC, Reg.TRACE_CMD]; omega) | (dsimp only [Fld.TRBb_TRIG_SRC, Reg.TRACE_CMD]; split <;> omega); exact rfl)
    | ((with_reducible refine partsIn_trans ?_ hA); exact rfl)
    | ((with_reducible refine listed_code ?_ hA); exact rfl)
    | exact fun (h : Sparse.wf _ _ = true) => h
    | with_reducible apply next_does
    | with_reducible apply id_does
    | with_reducible apply ite_does
    | with_reducible apply iteO_does
    | (apply Sparse.wf_set; assumption)
    | exact rfl
    | intro _
    | dsimp only
    | split

theorem execTraceClear_does {A : List Part} {b₀ : State} (b : Fin 32) (s : State) 
    (hD : Does A b₀ s) (hA : partsIn [.block 0x0F, .mem, .strand, .out] A = true) : DoesO A b₀ (execTraceClear b s) := by
  unfold execTraceClear
  repeat' first
    | with_reducible assumption
    | with_reducible apply hostCmd_does
    | with_reducible apply mclear_does
    | ((with_reducible refine partsIn_trans ?_ hA); exact rfl)
    | ((with_reducible refine listed_code ?_ hA); exact rfl)
    | exact fun (h : Sparse.wf _ _ = true) => h
    | with_reducible apply next_does
    | with_reducible apply id_does
    | with_reducible apply ite_does
    | with_reducible apply iteO_does
    | (apply Sparse.wf_set; assumption)
    | exact rfl
    | intro _
    | dsimp only
    | split

theorem execTraceDone_does {A : List Part} {b₀ : State} (b : Fin 32) (s : State) 
    (hD : Does A b₀ s) (hA : partsIn [.block 0x04, .loop, .out] A = true) : DoesO A b₀ (execTraceDone b s) := by
  unfold execTraceDone
  repeat' first
    | with_reducible assumption
    | with_reducible apply onlyIf_does
    | with_reducible apply traceStop_does
    | ((with_reducible refine listed_block 4 ?_ ?_ hA); first | omega | (dsimp only [Fld.TRBb_STATUS_RUN]; omega) | (dsimp only [Fld.TRBb_STATUS_RUN]; split <;> omega); exact rfl)
    | ((with_reducible refine partsIn_trans ?_ hA); exact rfl)
    | ((with_reducible refine listed_code ?_ hA); exact rfl)
    | exact fun (h : Sparse.wf _ _ = true) => h
    | with_reducible apply next_does
    | with_reducible apply id_does
    | with_reducible apply ite_does
    | with_reducible apply iteO_does
    | (apply Sparse.wf_set; assumption)
    | exact rfl
    | intro _
    | dsimp only
    | split

theorem execLoopMirrorRecord_does {A : List Part} {b₀ : State} (k : Fin 2048) (rec : LoopMirror) (s : State) 
    (hD : Does A b₀ s) (hA : partsIn [.block 0x04, .free, .strand, .loop, .out] A = true) : DoesO A b₀ (execLoopMirrorRecord k rec s) := by
  unfold execLoopMirrorRecord
  repeat' first
    | with_reducible assumption
    | with_reducible apply bump_does
    | with_reducible apply onSlot_does
    | with_reducible apply raiseF_does
    | with_reducible apply slotSay_does
    | ((with_reducible refine partsIn_trans ?_ hA); exact rfl)
    | ((with_reducible refine listed_code ?_ hA); exact rfl)
    | exact fun (h : Sparse.wf _ _ = true) => h
    | with_reducible apply next_does
    | with_reducible apply id_does
    | with_reducible apply ite_does
    | with_reducible apply iteO_does
    | (apply Sparse.wf_set; assumption)
    | exact rfl
    | intro _
    | dsimp only
    | split

theorem execLoopBankIsolated_does {A : List Part} {b₀ : State} (b : Fin 128) (s : State) 
    (hD : Does A b₀ s) (hA : partsIn [.block 0x01, .block 0x02, .block 0x03, .block 0x04, .block 0x05, .block 0x08, .block 0x09, .block 0x0A, .block 0x0C, .free, .strand, .backup, .tides, .seqs, .exe, .loop, .dio, .saf, .pair, .can, .sup, .mbx, .out] A = true) : DoesO A b₀ (execLoopBankIsolated b s) := by
  unfold execLoopBankIsolated
  repeat' first
    | with_reducible assumption
    | with_reducible apply forAll_does
    | with_reducible apply isolateBank_does
    | with_reducible apply markOut_does
    | with_reducible apply raiseF_does
    | with_reducible apply say_does
    | with_reducible apply setBitAt_does
    | ((with_reducible refine listed_block 1 ?_ ?_ hA); first | omega | (dsimp only [Fld.LOOP_EVENT_BANK_ISO, Reg.LOOP_BANK_ISO]; omega) | (dsimp only [Fld.LOOP_EVENT_BANK_ISO, Reg.LOOP_BANK_ISO]; split <;> omega); exact rfl)
    | ((with_reducible refine listed_block 2 ?_ ?_ hA); first | omega | (dsimp only [Fld.LOOP_EVENT_BANK_ISO, Reg.LOOP_BANK_ISO]; omega) | (dsimp only [Fld.LOOP_EVENT_BANK_ISO, Reg.LOOP_BANK_ISO]; split <;> omega); exact rfl)
    | ((with_reducible refine listed_block 3 ?_ ?_ hA); first | omega | (dsimp only [Fld.LOOP_EVENT_BANK_ISO, Reg.LOOP_BANK_ISO]; omega) | (dsimp only [Fld.LOOP_EVENT_BANK_ISO, Reg.LOOP_BANK_ISO]; split <;> omega); exact rfl)
    | ((with_reducible refine listed_block 4 ?_ ?_ hA); first | omega | (dsimp only [Fld.LOOP_EVENT_BANK_ISO, Reg.LOOP_BANK_ISO]; omega) | (dsimp only [Fld.LOOP_EVENT_BANK_ISO, Reg.LOOP_BANK_ISO]; split <;> omega); exact rfl)
    | ((with_reducible refine listed_block 5 ?_ ?_ hA); first | omega | (dsimp only [Fld.LOOP_EVENT_BANK_ISO, Reg.LOOP_BANK_ISO]; omega) | (dsimp only [Fld.LOOP_EVENT_BANK_ISO, Reg.LOOP_BANK_ISO]; split <;> omega); exact rfl)
    | ((with_reducible refine listed_block 8 ?_ ?_ hA); first | omega | (dsimp only [Fld.LOOP_EVENT_BANK_ISO, Reg.LOOP_BANK_ISO]; omega) | (dsimp only [Fld.LOOP_EVENT_BANK_ISO, Reg.LOOP_BANK_ISO]; split <;> omega); exact rfl)
    | ((with_reducible refine listed_block 9 ?_ ?_ hA); first | omega | (dsimp only [Fld.LOOP_EVENT_BANK_ISO, Reg.LOOP_BANK_ISO]; omega) | (dsimp only [Fld.LOOP_EVENT_BANK_ISO, Reg.LOOP_BANK_ISO]; split <;> omega); exact rfl)
    | ((with_reducible refine listed_block 10 ?_ ?_ hA); first | omega | (dsimp only [Fld.LOOP_EVENT_BANK_ISO, Reg.LOOP_BANK_ISO]; omega) | (dsimp only [Fld.LOOP_EVENT_BANK_ISO, Reg.LOOP_BANK_ISO]; split <;> omega); exact rfl)
    | ((with_reducible refine listed_block 12 ?_ ?_ hA); first | omega | (dsimp only [Fld.LOOP_EVENT_BANK_ISO, Reg.LOOP_BANK_ISO]; omega) | (dsimp only [Fld.LOOP_EVENT_BANK_ISO, Reg.LOOP_BANK_ISO]; split <;> omega); exact rfl)
    | ((with_reducible refine partsIn_trans ?_ hA); exact rfl)
    | ((with_reducible refine listed_code ?_ hA); exact rfl)
    | exact fun (h : Sparse.wf _ _ = true) => h
    | with_reducible apply next_does
    | with_reducible apply id_does
    | with_reducible apply ite_does
    | with_reducible apply iteO_does
    | (apply Sparse.wf_set; assumption)
    | exact rfl
    | intro _
    | dsimp only
    | split

theorem execLoopBankReen_does {A : List Part} {b₀ : State} (b : Fin 128) (s : State) 
    (hD : Does A b₀ s) (hA : partsIn [.block 0x0F, .strand, .loop, .out] A = true) : DoesO A b₀ (execLoopBankReen b s) := by
  unfold execLoopBankReen
  repeat' first
    | with_reducible assumption
    | with_reducible apply hostCmd_does
    | ((with_reducible refine partsIn_trans ?_ hA); exact rfl)
    | ((with_reducible refine listed_code ?_ hA); exact rfl)
    | exact fun (h : Sparse.wf _ _ = true) => h
    | with_reducible apply next_does
    | with_reducible apply id_does
    | with_reducible apply ite_does
    | with_reducible apply iteO_does
    | (apply Sparse.wf_set; assumption)
    | exact rfl
    | intro _
    | dsimp only
    | split
    | with_reducible apply upd_loop

theorem execLoopBankReenabled_does {A : List Part} {b₀ : State} (b : Fin 128) (s : State) 
    (hD : Does A b₀ s) (hA : partsIn [.block 0x04, .free, .strand, .exe, .loop, .sup, .out] A = true) : DoesO A b₀ (execLoopBankReenabled b s) := by
  unfold execLoopBankReenabled
  repeat' first
    | with_reducible assumption
    | with_reducible apply forAll_does
    | with_reducible apply markOut_does
    | with_reducible apply onSlot_does
    | with_reducible apply say_does
    | with_reducible apply setBitAt_does
    | with_reducible apply unisolateBank_does
    | ((with_reducible refine listed_block 4 ?_ ?_ hA); first | omega | (dsimp only [Reg.LOOP_BANK_ISO]; omega) | (dsimp only [Reg.LOOP_BANK_ISO]; split <;> omega); exact rfl)
    | ((with_reducible refine partsIn_trans ?_ hA); exact rfl)
    | ((with_reducible refine listed_code ?_ hA); exact rfl)
    | exact fun (h : Sparse.wf _ _ = true) => h
    | with_reducible apply next_does
    | with_reducible apply id_does
    | with_reducible apply ite_does
    | with_reducible apply iteO_does
    | (apply Sparse.wf_set; assumption)
    | exact rfl
    | intro _
    | dsimp only
    | split
    | with_reducible apply upd_loop

end Sys2Proof.Machine
end

