-- ==== Sys2Proof/Laws/OnlyMem.lean ====
section
/-! SUPPORT. What each operation of Machine/Mem.lean can do: the parts of the state it may change, and that it keeps
canonical form. -/
namespace Sys2Proof.Machine

theorem mpuResult_does {A : List Part} {b₀ : State} (st : Status) (s : State) 
    (hD : Does A b₀ s) (hA : partsIn [.block 0x0F, .free, .strand, .out] A = true) : Does A b₀ (mpuResult st s) := by
  unfold mpuResult
  repeat' first
    | with_reducible assumption
    | with_reducible apply result_does
    | ((with_reducible refine partsIn_trans ?_ hA); exact rfl)
    | ((with_reducible refine listed_code ?_ hA); exact rfl)
    | exact fun (h : Sparse.wf _ _ = true) => h
    | with_reducible apply next_does
    | with_reducible apply id_does
    | with_reducible apply ite_does
    | with_reducible apply iteO_does
    | (apply Sparse.wf_set; assumption)
    | exact rfl
    | intro _
    | dsimp only
    | split

theorem mpuApply_does {A : List Part} {b₀ : State}  (s : State) 
    (hD : Does A b₀ s) (hA : partsIn [.block 0x0F, .mpu] A = true) : Does A b₀ (mpuApply s) := by
  unfold mpuApply
  repeat' first
    | with_reducible assumption
    | with_reducible apply setFlag_does
    | with_reducible apply wr_does
    | ((with_reducible refine partsIn_trans ?_ hA); exact rfl)
    | ((with_reducible refine listed_code ?_ hA); exact rfl)
    | exact fun (h : Sparse.wf _ _ = true) => h
    | with_reducible apply next_does
    | with_reducible apply id_does
    | with_reducible apply ite_does
    | with_reducible apply iteO_does
    | (apply Sparse.wf_set; assumption)
    | exact rfl
    | intro _
    | dsimp only
    | split
    | with_reducible apply upd_mpu

theorem execMpuCommit_does {A : List Part} {b₀ : State}  (s : State) 
    (hD : Does A b₀ s) (hA : partsIn [.block 0x0F, .free, .strand, .mpu, .out] A = true) : DoesO A b₀ (execMpuCommit s) := by
  unfold execMpuCommit
  repeat' first
    | with_reducible assumption
    | with_reducible apply hostCmd_does
    | with_reducible apply mpuApply_does
    | with_reducible apply mpuResult_does
    | ((with_reducible refine partsIn_trans ?_ hA); exact rfl)
    | ((with_reducible refine listed_code ?_ hA); exact rfl)
    | exact fun (h : Sparse.wf _ _ = true) => h
    | with_reducible apply next_does
    | with_reducible apply id_does
    | with_reducible apply ite_does
    | with_reducible apply iteO_does
    | (apply Sparse.wf_set; assumption)
    | exact rfl
    | intro _
    | dsimp only
    | split

theorem execMpuCommitted_does {A : List Part} {b₀ : State}  (s : State) 
    (hD : Does A b₀ s) (hA : partsIn [.block 0x0F, .free, .strand, .out] A = true) : DoesO A b₀ (execMpuCommitted s) := by
  unfold execMpuCommitted
  repeat' first
    | with_reducible assumption
    | with_reducible apply mpuResult_does
    | with_reducible apply raiseF_does
    | with_reducible apply setFlag_does
    | ((with_reducible refine partsIn_trans ?_ hA); exact rfl)
    | ((with_reducible refine listed_code ?_ hA); exact rfl)
    | exact fun (h : Sparse.wf _ _ = true) => h
    | with_reducible apply next_does
    | with_reducible apply id_does
    | with_reducible apply ite_does
    | with_reducible apply iteO_does
    | (apply Sparse.wf_set; assumption)
    | exact rfl
    | intro _
    | dsimp only
    | split

theorem execMpuAbandon_does {A : List Part} {b₀ : State}  (s : State) 
    (hD : Does A b₀ s) (hA : partsIn [.block 0x0F, .free, .strand, .mpu, .out] A = true) : DoesO A b₀ (execMpuAbandon s) := by
  unfold execMpuAbandon
  repeat' first
    | with_reducible assumption
    | with_reducible apply hostCmd_does
    | with_reducible apply mpuResult_does
    | ((with_reducible refine partsIn_trans ?_ hA); exact rfl)
    | ((with_reducible refine listed_code ?_ hA); exact rfl)
    | exact fun (h : Sparse.wf _ _ = true) => h
    | with_reducible apply next_does
    | with_reducible apply id_does
    | with_reducible apply ite_does
    | with_reducible apply iteO_does
    | (apply Sparse.wf_set; assumption)
    | exact rfl
    | intro _
    | dsimp only
    | split
    | with_reducible apply upd_mpu

theorem stageDesc_does {A : List Part} {b₀ : State} (m : Nat) (d : Nat) (x : Desc) (s : State) 
    (hD : Does A b₀ s) (hA : partsIn [.mpu] A = true) : Does A b₀ (stageDesc m d x s) := by
  unfold stageDesc
  repeat' first
    | with_reducible assumption
    | ((with_reducible refine partsIn_trans ?_ hA); exact rfl)
    | ((with_reducible refine listed_code ?_ hA); exact rfl)
    | exact fun (h : Sparse.wf _ _ = true) => h
    | with_reducible apply next_does
    | with_reducible apply id_does
    | with_reducible apply ite_does
    | with_reducible apply iteO_does
    | (apply Sparse.wf_set; assumption)
    | exact rfl
    | intro _
    | dsimp only
    | split
    | with_reducible apply upd_mpu

theorem stageCfg_does {A : List Part} {b₀ : State} (m : Nat) (w : Word) (s : State) 
    (hD : Does A b₀ s) (hA : partsIn [.mpu] A = true) : Does A b₀ (stageCfg m w s) := by
  unfold stageCfg
  repeat' first
    | with_reducible assumption
    | ((with_reducible refine partsIn_trans ?_ hA); exact rfl)
    | ((with_reducible refine listed_code ?_ hA); exact rfl)
    | exact fun (h : Sparse.wf _ _ = true) => h
    | with_reducible apply next_does
    | with_reducible apply id_does
    | with_reducible apply ite_does
    | with_reducible apply iteO_does
    | (apply Sparse.wf_set; assumption)
    | exact rfl
    | intro _
    | dsimp only
    | split
    | with_reducible apply upd_mpu

theorem stagePaint_does {A : List Part} {b₀ : State} (i : Nat) (x : Desc) (s : State) 
    (hD : Does A b₀ s) (hA : partsIn [.mpu] A = true) : Does A b₀ (stagePaint i x s) := by
  unfold stagePaint
  repeat' first
    | with_reducible assumption
    | ((with_reducible refine partsIn_trans ?_ hA); exact rfl)
    | ((with_reducible refine listed_code ?_ hA); exact rfl)
    | exact fun (h : Sparse.wf _ _ = true) => h
    | with_reducible apply next_does
    | with_reducible apply id_does
    | with_reducible apply ite_does
    | with_reducible apply iteO_does
    | (apply Sparse.wf_set; assumption)
    | exact rfl
    | intro _
    | dsimp only
    | split
    | with_reducible apply upd_mpu

theorem execMpuRead_does {A : List Part} {b₀ : State}  (s : State) 
    (hD : Does A b₀ s) (hA : partsIn [.block 0x0F, .free, .strand, .mpu, .out] A = true) : DoesO A b₀ (execMpuRead s) := by
  unfold execMpuRead
  repeat' first
    | with_reducible assumption
    | with_reducible apply hostCmd_does
    | with_reducible apply mpuResult_does
    | with_reducible apply stageCfg_does
    | with_reducible apply stageDesc_does
    | with_reducible apply stagePaint_does
    | ((with_reducible refine partsIn_trans ?_ hA); exact rfl)
    | ((with_reducible refine listed_code ?_ hA); exact rfl)
    | exact fun (h : Sparse.wf _ _ = true) => h
    | with_reducible apply next_does
    | with_reducible apply id_does
    | with_reducible apply ite_does
    | with_reducible apply iteO_does
    | (apply Sparse.wf_set; assumption)
    | exact rfl
    | intro _
    | dsimp only
    | split

theorem execMpuLockWrite_does {A : List Part} {b₀ : State}  (s : State) 
    (hD : Does A b₀ s) (hA : partsIn [.block 0x0F, .strand, .out] A = true) : DoesO A b₀ (execMpuLockWrite s) := by
  unfold execMpuLockWrite
  repeat' first
    | with_reducible assumption
    | with_reducible apply hostCmd_does
    | with_reducible apply setFlag_does
    | ((with_reducible refine partsIn_trans ?_ hA); exact rfl)
    | ((with_reducible refine listed_code ?_ hA); exact rfl)
    | exact fun (h : Sparse.wf _ _ = true) => h
    | with_reducible apply next_does
    | with_reducible apply id_does
    | with_reducible apply ite_does
    | with_reducible apply iteO_does
    | (apply Sparse.wf_set; assumption)
    | exact rfl
    | intro _
    | dsimp only
    | split

theorem execMemEccCorrected_does {A : List Part} {b₀ : State} (addr : BitVec 36) (s : State) 
    (hD : Does A b₀ s) (hA : partsIn [.block 0x0F, .free, .strand, .out] A = true) : DoesO A b₀ (execMemEccCorrected addr s) := by
  unfold execMemEccCorrected
  repeat' first
    | with_reducible assumption
    | with_reducible apply bump_does
    | with_reducible apply say_does
    | ((with_reducible refine partsIn_trans ?_ hA); exact rfl)
    | ((with_reducible refine listed_code ?_ hA); exact rfl)
    | exact fun (h : Sparse.wf _ _ = true) => h
    | with_reducible apply next_does
    | with_reducible apply id_does
    | with_reducible apply ite_does
    | with_reducible apply iteO_does
    | (apply Sparse.wf_set; assumption)
    | exact rfl
    | intro _
    | dsimp only
    | split

theorem dropSlot_does {A : List Part} {b₀ : State} (a : Nat) (q : Nat) (s : State) 
    (hD : Does A b₀ s) (hA : partsIn [.block 0x13, .free, .strand, .out] A = true) : Does A b₀ (dropSlot a q s) := by
  unfold dropSlot
  repeat' first
    | with_reducible assumption
    | with_reducible apply queFree_does
    | with_reducible apply say_does
    | with_reducible apply setFlag_does
    | ((with_reducible refine listed_block 19 ?_ ?_ hA); first | omega | (dsimp only [Fld.QUEq_BASE_HI_ADDR, Fld.QUEq_BASE_LO_ADDR, Fld.QUEq_CFG_SLOT_LOG2, Fld.QUEq_STATUS_LAST_ERR, Fld.QUEq_TAIL_INDEX, queBase, queSlot, queTail]; omega) | (dsimp only [Fld.QUEq_BASE_HI_ADDR, Fld.QUEq_BASE_LO_ADDR, Fld.QUEq_CFG_SLOT_LOG2, Fld.QUEq_STATUS_LAST_ERR, Fld.QUEq_TAIL_INDEX, queBase, queSlot, queTail]; split <;> omega); exact rfl)
    | ((with_reducible refine partsIn_trans ?_ hA); exact rfl)
    | ((with_reducible refine listed_code ?_ hA); exact rfl)
    | exact fun (h : Sparse.wf _ _ = true) => h
    | with_reducible apply next_does
    | with_reducible apply id_does
    | with_reducible apply ite_does
    | with_reducible apply iteO_does
    | (apply Sparse.wf_set; assumption)
    | exact rfl
    | intro _
    | dsimp only
    | split

theorem dramEccRecord_does {A : List Part} {b₀ : State} (a : Nat) (s : State) 
    (hD : Does A b₀ s) (hA : partsIn [.block 0x0F, .out] A = true) : Does A b₀ (dramEccRecord a s) := by
  unfold dramEccRecord
  repeat' first
    | with_reducible assumption
    | with_reducible apply bump_does
    | with_reducible apply raiseF_does
    | with_reducible apply wr_does
    | ((with_reducible refine partsIn_trans ?_ hA); exact rfl)
    | ((with_reducible refine listed_code ?_ hA); exact rfl)
    | exact fun (h : Sparse.wf _ _ = true) => h
    | with_reducible apply next_does
    | with_reducible apply id_does
    | with_reducible apply ite_does
    | with_reducible apply iteO_does
    | (apply Sparse.wf_set; assumption)
    | exact rfl
    | intro _
    | dsimp only
    | split

theorem execMemEccUncorr_does {A : List Part} {b₀ : State} (addr : BitVec 36) (s : State) 
    (hD : Does A b₀ s) (hA : partsIn [.block 0x01, .block 0x02, .block 0x03, .block 0x05, .block 0x08, .block 0x09, .block 0x0A, .block 0x0C, .block 0x0F, .block 0x13, .free, .strand, .backup, .tides, .seqs, .exe, .loop, .dio, .saf, .pair, .can, .sup, .mbx, .out] A = true) : DoesO A b₀ (execMemEccUncorr addr s) := by
  unfold execMemEccUncorr
  repeat' first
    | with_reducible assumption
    | with_reducible apply dramEccRecord_does
    | with_reducible apply dropSlot_does
    | with_reducible apply enterFallback_does
    | with_reducible apply forAll_does
    | with_reducible apply say_does
    | with_reducible apply syncStart_does
    | ((with_reducible refine partsIn_trans ?_ hA); exact rfl)
    | ((with_reducible refine listed_code ?_ hA); exact rfl)
    | exact fun (h : Sparse.wf _ _ = true) => h
    | with_reducible apply next_does
    | with_reducible apply id_does
    | with_reducible apply ite_does
    | with_reducible apply iteO_does
    | (apply Sparse.wf_set; assumption)
    | exact rfl
    | intro _
    | dsimp only
    | split
    | with_reducible apply upd_exe

theorem masterAcc_does {A : List Part} {b₀ : State} (master : Nat) (a : Nat) (k : Acc) (f : State → State) (s : State) (h_f : ∀ u, Does A b₀ u → Does A b₀ (f u))
    (hD : Does A b₀ s) (hA : partsIn [.block 0x0F, .strand, .out] A = true) : Does A b₀ (masterAcc master a k f s) := by
  unfold masterAcc
  repeat' first
    | with_reducible assumption
    | with_reducible apply h_f
    | with_reducible apply hostAcc_does
    | with_reducible apply mpuDeny_does
    | ((with_reducible refine listed_block 15 ?_ ?_ hA); first | omega | (dsimp only [Fld.MPU_STG_MCFG_COLOUR, masterColour]; omega) | (dsimp only [Fld.MPU_STG_MCFG_COLOUR, masterColour]; split <;> omega); exact rfl)
    | ((with_reducible refine partsIn_trans ?_ hA); exact rfl)
    | ((with_reducible refine listed_code ?_ hA); exact rfl)
    | exact fun (h : Sparse.wf _ _ = true) => h
    | with_reducible apply next_does
    | with_reducible apply id_does
    | with_reducible apply ite_does
    | with_reducible apply iteO_does
    | (apply Sparse.wf_set; assumption)
    | exact rfl
    | intro _
    | dsimp only
    | split

theorem hostGets_does {A : List Part} {b₀ : State} (master : Nat) (w : Word) (s : State) 
    (hD : Does A b₀ s) (hA : partsIn [.host] A = true) : Does A b₀ (hostGets master w s) := by
  unfold hostGets
  repeat' first
    | with_reducible assumption
    | ((with_reducible refine partsIn_trans ?_ hA); exact rfl)
    | ((with_reducible refine listed_code ?_ hA); exact rfl)
    | exact fun (h : Sparse.wf _ _ = true) => h
    | with_reducible apply next_does
    | with_reducible apply id_does
    | with_reducible apply ite_does
    | with_reducible apply iteO_does
    | (apply Sparse.wf_set; assumption)
    | exact rfl
    | intro _
    | dsimp only
    | split
    | with_reducible apply upd_hostData

theorem execMbxSend_does {A : List Part} {b₀ : State} (master : Fin 10) (m : Fin 24) (word : Word) (s : State) 
    (hD : Does A b₀ s) (hA : partsIn [.block 0x0F, .block 0x10, .free, .strand, .mbx, .out] A = true) : DoesO A b₀ (execMbxSend master m word s) := by
  unfold execMbxSend
  repeat' first
    | with_reducible assumption
    | with_reducible apply masterAcc_does
    | with_reducible apply mbxSend_does
    | ((with_reducible refine listed_block 15 ?_ ?_ hA); first | omega | (dsimp only [Reg.MBXm_SEND]; omega) | (dsimp only [Reg.MBXm_SEND]; split <;> omega); exact rfl)
    | ((with_reducible refine listed_block 16 ?_ ?_ hA); first | omega | (dsimp only [Reg.MBXm_SEND]; omega) | (dsimp only [Reg.MBXm_SEND]; split <;> omega); exact rfl)
    | ((with_reducible refine partsIn_trans ?_ hA); exact rfl)
    | ((with_reducible refine listed_code ?_ hA); exact rfl)
    | exact fun (h : Sparse.wf _ _ = true) => h
    | with_reducible apply next_does
    | with_reducible apply id_does
    | with_reducible apply ite_does
    | with_reducible apply iteO_does
    | (apply Sparse.wf_set; assumption)
    | exact rfl
    | intro _
    | dsimp only
    | split

theorem execMbxRecv_does {A : List Part} {b₀ : State} (master : Fin 10) (m : Fin 24) (s : State) 
    (hD : Does A b₀ s) (hA : partsIn [.block 0x0F, .host, .free, .strand, .mbx, .out] A = true) : DoesO A b₀ (execMbxRecv master m s) := by
  unfold execMbxRecv
  repeat' first
    | with_reducible assumption
    | with_reducible apply hostGets_does
    | with_reducible apply masterAcc_does
    | with_reducible apply mbxTake_does
    | ((with_reducible refine listed_block 15 ?_ ?_ hA); first | omega | (dsimp only [Reg.MBXm_RECV]; omega) | (dsimp only [Reg.MBXm_RECV]; split <;> omega); exact rfl)
    | ((with_reducible refine partsIn_trans ?_ hA); exact rfl)
    | ((with_reducible refine listed_code ?_ hA); exact rfl)
    | exact fun (h : Sparse.wf _ _ = true) => h
    | with_reducible apply next_does
    | with_reducible apply id_does
    | with_reducible apply ite_does
    | with_reducible apply iteO_does
    | (apply Sparse.wf_set; assumption)
    | exact rfl
    | intro _
    | dsimp only
    | split

theorem execMbxDoorbellRing_does {A : List Part} {b₀ : State} (master : Fin 10) (m : Fin 24) (bits : Word) (s : State) 
    (hD : Does A b₀ s) (hA : partsIn [.block 0x03, .block 0x0F, .block 0x10, .free, .strand, .exe, .mbx, .out] A = true) : DoesO A b₀ (execMbxDoorbellRing master m bits s) := by
  unfold execMbxDoorbellRing
  repeat' first
    | with_reducible assumption
    | with_reducible apply masterAcc_does
    | with_reducible apply mbxRing_does
    | ((with_reducible refine listed_block 3 ?_ ?_ hA); first | omega | (dsimp only [Reg.MBXm_DBL]; omega) | (dsimp only [Reg.MBXm_DBL]; split <;> omega); exact rfl)
    | ((with_reducible refine listed_block 15 ?_ ?_ hA); first | omega | (dsimp only [Reg.MBXm_DBL]; omega) | (dsimp only [Reg.MBXm_DBL]; split <;> omega); exact rfl)
    | ((with_reducible refine listed_block 16 ?_ ?_ hA); first | omega | (dsimp only [Reg.MBXm_DBL]; omega) | (dsimp only [Reg.MBXm_DBL]; split <;> omega); exact rfl)
    | ((with_reducible refine partsIn_trans ?_ hA); exact rfl)
    | ((with_reducible refine listed_code ?_ hA); exact rfl)
    | exact fun (h : Sparse.wf _ _ = true) => h
    | with_reducible apply next_does
    | with_reducible apply id_does
    | with_reducible apply ite_does
    | with_reducible apply iteO_does
    | (apply Sparse.wf_set; assumption)
    | exact rfl
    | intro _
    | dsimp only
    | split

theorem execMbxDoorbellTake_does {A : List Part} {b₀ : State} (master : Fin 10) (m : Fin 24) (bits : Word) (s : State) 
    (hD : Does A b₀ s) (hA : partsIn [.block 0x0F, .free, .strand, .mbx, .out] A = true) : DoesO A b₀ (execMbxDoorbellTake master m bits s) := by
  unfold execMbxDoorbellTake
  repeat' first
    | with_reducible assumption
    | with_reducible apply masterAcc_does
    | with_reducible apply mbxOp_does
    | with_reducible apply onMbx_does
    | ((with_reducible refine listed_block 15 ?_ ?_ hA); first | omega | (dsimp only [Reg.MBXm_DBL]; omega) | (dsimp only [Reg.MBXm_DBL]; split <;> omega); exact rfl)
    | ((with_reducible refine partsIn_trans ?_ hA); exact rfl)
    | ((with_reducible refine listed_code ?_ hA); exact rfl)
    | exact fun (h : Sparse.wf _ _ = true) => h
    | with_reducible apply next_does
    | with_reducible apply id_does
    | with_reducible apply ite_does
    | with_reducible apply iteO_does
    | (apply Sparse.wf_set; assumption)
    | exact rfl
    | intro _
    | dsimp only
    | split

theorem execMbxAckWrite_does {A : List Part} {b₀ : State} (master : Fin 10) (m : Fin 24) (code : BitVec 16) (s : State) 
    (hD : Does A b₀ s) (hA : partsIn [.block 0x01, .block 0x02, .block 0x03, .block 0x05, .block 0x08, .block 0x09, .block 0x0A, .block 0x0C, .block 0x0F, .block 0x10, .free, .strand, .backup, .tides, .seqs, .exe, .loop, .dio, .saf, .pair, .can, .sup, .mbx, .out] A = true) : DoesO A b₀ (execMbxAckWrite master m code s) := by
  unfold execMbxAckWrite
  repeat' first
    | with_reducible assumption
    | with_reducible apply masterAcc_does
    | with_reducible apply mbxAck_does
    | ((with_reducible refine listed_block 1 ?_ ?_ hA); first | omega | (dsimp only [Reg.MBXm_ACK]; omega) | (dsimp only [Reg.MBXm_ACK]; split <;> omega); exact rfl)
    | ((with_reducible refine listed_block 2 ?_ ?_ hA); first | omega | (dsimp only [Reg.MBXm_ACK]; omega) | (dsimp only [Reg.MBXm_ACK]; split <;> omega); exact rfl)
    | ((with_reducible refine listed_block 3 ?_ ?_ hA); first | omega | (dsimp only [Reg.MBXm_ACK]; omega) | (dsimp only [Reg.MBXm_ACK]; split <;> omega); exact rfl)
    | ((with_reducible refine listed_block 5 ?_ ?_ hA); first | omega | (dsimp only [Reg.MBXm_ACK]; omega) | (dsimp only [Reg.MBXm_ACK]; split <;> omega); exact rfl)
    | ((with_reducible refine listed_block 8 ?_ ?_ hA); first | omega | (dsimp only [Reg.MBXm_ACK]; omega) | (dsimp only [Reg.MBXm_ACK]; split <;> omega); exact rfl)
    | ((with_reducible refine listed_block 9 ?_ ?_ hA); first | omega | (dsimp only [Reg.MBXm_ACK]; omega) | (dsimp only [Reg.MBXm_ACK]; split <;> omega); exact rfl)
    | ((with_reducible refine listed_block 10 ?_ ?_ hA); first | omega | (dsimp only [Reg.MBXm_ACK]; omega) | (dsimp only [Reg.MBXm_ACK]; split <;> omega); exact rfl)
    | ((with_reducible refine listed_block 12 ?_ ?_ hA); first | omega | (dsimp only [Reg.MBXm_ACK]; omega) | (dsimp only [Reg.MBXm_ACK]; split <;> omega); exact rfl)
    | ((with_reducible refine listed_block 15 ?_ ?_ hA); first | omega | (dsimp only [Reg.MBXm_ACK]; omega) | (dsimp only [Reg.MBXm_ACK]; split <;> omega); exact rfl)
    | ((with_reducible refine listed_block 16 ?_ ?_ hA); first | omega | (dsimp only [Reg.MBXm_ACK]; omega) | (dsimp only [Reg.MBXm_ACK]; split <;> omega); exact rfl)
    | ((with_reducible refine partsIn_trans ?_ hA); exact rfl)
    | ((with_reducible refine listed_code ?_ hA); exact rfl)
    | exact fun (h : Sparse.wf _ _ = true) => h
    | with_reducible apply next_does
    | with_reducible apply id_does
    | with_reducible apply ite_does
    | with_reducible apply iteO_does
    | (apply Sparse.wf_set; assumption)
    | exact rfl
    | intro _
    | dsimp only
    | split

theorem execMbxAckRead_does {A : List Part} {b₀ : State} (master : Fin 10) (m : Fin 24) (s : State) 
    (hD : Does A b₀ s) (hA : partsIn [.block 0x01, .block 0x02, .block 0x03, .block 0x05, .block 0x08, .block 0x09, .block 0x0A, .block 0x0C, .block 0x0F, .host, .free, .strand, .backup, .tides, .seqs, .exe, .loop, .dio, .saf, .pair, .can, .sup, .mbx, .out] A = true) : DoesO A b₀ (execMbxAckRead master m s) := by
  unfold execMbxAckRead
  repeat' first
    | with_reducible assumption
    | with_reducible apply hostGets_does
    | with_reducible apply masterAcc_does
    | with_reducible apply onMbx_does
    | with_reducible apply overrun_does
    | with_reducible apply say_does
    | ((with_reducible refine listed_block 1 ?_ ?_ hA); first | omega | (dsimp only [Reg.MBXm_ACK]; omega) | (dsimp only [Reg.MBXm_ACK]; split <;> omega); exact rfl)
    | ((with_reducible refine listed_block 2 ?_ ?_ hA); first | omega | (dsimp only [Reg.MBXm_ACK]; omega) | (dsimp only [Reg.MBXm_ACK]; split <;> omega); exact rfl)
    | ((with_reducible refine listed_block 3 ?_ ?_ hA); first | omega | (dsimp only [Reg.MBXm_ACK]; omega) | (dsimp only [Reg.MBXm_ACK]; split <;> omega); exact rfl)
    | ((with_reducible refine listed_block 5 ?_ ?_ hA); first | omega | (dsimp only [Reg.MBXm_ACK]; omega) | (dsimp only [Reg.MBXm_ACK]; split <;> omega); exact rfl)
    | ((with_reducible refine listed_block 8 ?_ ?_ hA); first | omega | (dsimp only [Reg.MBXm_ACK]; omega) | (dsimp only [Reg.MBXm_ACK]; split <;> omega); exact rfl)
    | ((with_reducible refine listed_block 9 ?_ ?_ hA); first | omega | (dsimp only [Reg.MBXm_ACK]; omega) | (dsimp only [Reg.MBXm_ACK]; split <;> omega); exact rfl)
    | ((with_reducible refine listed_block 10 ?_ ?_ hA); first | omega | (dsimp only [Reg.MBXm_ACK]; omega) | (dsimp only [Reg.MBXm_ACK]; split <;> omega); exact rfl)
    | ((with_reducible refine listed_block 12 ?_ ?_ hA); first | omega | (dsimp only [Reg.MBXm_ACK]; omega) | (dsimp only [Reg.MBXm_ACK]; split <;> omega); exact rfl)
    | ((with_reducible refine listed_block 15 ?_ ?_ hA); first | omega | (dsimp only [Reg.MBXm_ACK]; omega) | (dsimp only [Reg.MBXm_ACK]; split <;> omega); exact rfl)
    | ((with_reducible refine partsIn_trans ?_ hA); exact rfl)
    | ((with_reducible refine listed_code ?_ hA); exact rfl)
    | exact fun (h : Sparse.wf _ _ = true) => h
    | with_reducible apply next_does
    | with_reducible apply id_does
    | with_reducible apply ite_does
    | with_reducible apply iteO_does
    | (apply Sparse.wf_set; assumption)
    | exact rfl
    | intro _
    | dsimp only
    | split

theorem execMbxBindWrite_does {A : List Part} {b₀ : State} (m : Fin 24) (value : Word) (s : State) 
    (hD : Does A b₀ s) (hA : partsIn [.block 0x0F, .block 0x10, .free, .strand, .out] A = true) : DoesO A b₀ (execMbxBindWrite m value s) := by
  unfold execMbxBindWrite
  repeat' first
    | with_reducible assumption
    | with_reducible apply hostCmd_does
    | with_reducible apply say_does
    | with_reducible apply wr_does
    | ((with_reducible refine listed_block 15 ?_ ?_ hA); first | omega | (dsimp only [Reg.MBXm_BIND]; omega) | (dsimp only [Reg.MBXm_BIND]; split <;> omega); exact rfl)
    | ((with_reducible refine listed_block 16 ?_ ?_ hA); first | omega | (dsimp only [Reg.MBXm_BIND]; omega) | (dsimp only [Reg.MBXm_BIND]; split <;> omega); exact rfl)
    | ((with_reducible refine partsIn_trans ?_ hA); exact rfl)
    | ((with_reducible refine listed_code ?_ hA); exact rfl)
    | exact fun (h : Sparse.wf _ _ = true) => h
    | with_reducible apply next_does
    | with_reducible apply id_does
    | with_reducible apply ite_does
    | with_reducible apply iteO_does
    | (apply Sparse.wf_set; assumption)
    | exact rfl
    | intro _
    | dsimp only
    | split

theorem execMbxBindLock_does {A : List Part} {b₀ : State}  (s : State) 
    (hD : Does A b₀ s) (hA : partsIn [.block 0x0F, .block 0x10, .strand, .out] A = true) : DoesO A b₀ (execMbxBindLock s) := by
  unfold execMbxBindLock
  repeat' first
    | with_reducible assumption
    | with_reducible apply hostCmd_does
    | with_reducible apply setFlag_does
    | ((with_reducible refine partsIn_trans ?_ hA); exact rfl)
    | ((with_reducible refine listed_code ?_ hA); exact rfl)
    | exact fun (h : Sparse.wf _ _ = true) => h
    | with_reducible apply next_does
    | with_reducible apply id_does
    | with_reducible apply ite_does
    | with_reducible apply iteO_does
    | (apply Sparse.wf_set; assumption)
    | exact rfl
    | intro _
    | dsimp only
    | split

theorem execMbxLockRead_does {A : List Part} {b₀ : State} (master : Fin 10) (i : Fin 64) (s : State) 
    (hD : Does A b₀ s) (hA : partsIn [.block 0x0F, .host, .strand, .mbx, .out] A = true) : DoesO A b₀ (execMbxLockRead master i s) := by
  unfold execMbxLockRead
  repeat' first
    | with_reducible assumption
    | with_reducible apply hostGets_does
    | with_reducible apply lockTry_does
    | with_reducible apply masterAcc_does
    | ((with_reducible refine listed_block 15 ?_ ?_ hA); first | omega | (dsimp only [Reg.MBX_LOCK]; omega) | (dsimp only [Reg.MBX_LOCK]; split <;> omega); exact rfl)
    | ((with_reducible refine partsIn_trans ?_ hA); exact rfl)
    | ((with_reducible refine listed_code ?_ hA); exact rfl)
    | exact fun (h : Sparse.wf _ _ = true) => h
    | with_reducible apply next_does
    | with_reducible apply id_does
    | with_reducible apply ite_does
    | with_reducible apply iteO_does
    | (apply Sparse.wf_set; assumption)
    | exact rfl
    | intro _
    | dsimp only
    | split

theorem execMbxLockWrite_does {A : List Part} {b₀ : State} (master : Fin 10) (i : Fin 64) (value : Word) (s : State) 
    (hD : Does A b₀ s) (hA : partsIn [.block 0x0F, .free, .strand, .mbx, .out] A = true) : DoesO A b₀ (execMbxLockWrite master i value s) := by
  unfold execMbxLockWrite
  repeat' first
    | with_reducible assumption
    | with_reducible apply lockFree_does
    | with_reducible apply masterAcc_does
    | with_reducible apply say_does
    | ((with_reducible refine listed_block 15 ?_ ?_ hA); first | omega | (dsimp only [Reg.MBX_LOCK]; omega) | (dsimp only [Reg.MBX_LOCK]; split <;> omega); exact rfl)
    | ((with_reducible refine partsIn_trans ?_ hA); exact rfl)
    | ((with_reducible refine listed_code ?_ hA); exact rfl)
    | exact fun (h : Sparse.wf _ _ = true) => h
    | with_reducible apply next_does
    | with_reducible apply id_does
    | with_reducible apply ite_does
    | with_reducible apply iteO_does
    | (apply Sparse.wf_set; assumption)
    | exact rfl
    | intro _
    | dsimp only
    | split

theorem execMbxLockForce_does {A : List Part} {b₀ : State} (high : Bool) (mask : Word) (s : State) 
    (hD : Does A b₀ s) (hA : partsIn [.block 0x0F, .free, .strand, .mbx, .out] A = true) : DoesO A b₀ (execMbxLockForce high mask s) := by
  unfold execMbxLockForce
  repeat' first
    | with_reducible assumption
    | with_reducible apply forceLocks_does
    | with_reducible apply hostCmd_does
    | ((with_reducible refine partsIn_trans ?_ hA); exact rfl)
    | ((with_reducible refine listed_code ?_ hA); exact rfl)
    | exact fun (h : Sparse.wf _ _ = true) => h
    | with_reducible apply next_does
    | with_reducible apply id_does
    | with_reducible apply ite_does
    | with_reducible apply iteO_does
    | (apply Sparse.wf_set; assumption)
    | exact rfl
    | intro _
    | dsimp only
    | split

theorem queSwitch_does {A : List Part} {b₀ : State} (value : Word) (q : Nat) (s : State) 
    (hD : Does A b₀ s) (hA : partsIn [.block 0x13, .free, .strand, .out] A = true) : Does A b₀ (queSwitch value q s) := by
  unfold queSwitch
  repeat' first
    | with_reducible assumption
    | with_reducible apply say_does
    | with_reducible apply setBitAt_does
    | with_reducible apply setFld_does
    | ((with_reducible refine listed_block 19 ?_ ?_ hA); first | omega | (dsimp only [Fld.QUEq_HEAD_INDEX, Fld.QUEq_TAIL_INDEX, Reg.QUE_EN_HI, Reg.QUE_EN_LO, queEnReg]; omega) | (dsimp only [Fld.QUEq_HEAD_INDEX, Fld.QUEq_TAIL_INDEX, Reg.QUE_EN_HI, Reg.QUE_EN_LO, queEnReg]; split <;> omega); exact rfl)
    | ((with_reducible refine partsIn_trans ?_ hA); exact rfl)
    | ((with_reducible refine listed_code ?_ hA); exact rfl)
    | exact fun (h : Sparse.wf _ _ = true) => h
    | with_reducible apply next_does
    | with_reducible apply id_does
    | with_reducible apply ite_does
    | with_reducible apply iteO_does
    | (apply Sparse.wf_set; assumption)
    | exact rfl
    | intro _
    | dsimp only
    | split

theorem execQueEnable_does {A : List Part} {b₀ : State} (high : Bool) (value : Word) (s : State) 
    (hD : Does A b₀ s) (hA : partsIn [.block 0x0F, .block 0x13, .free, .strand, .out] A = true) : DoesO A b₀ (execQueEnable high value s) := by
  unfold execQueEnable
  repeat' first
    | with_reducible assumption
    | with_reducible apply forAll_does
    | with_reducible apply hostCmd_does
    | with_reducible apply queSwitch_does
    | ((with_reducible refine partsIn_trans ?_ hA); exact rfl)
    | ((with_reducible refine listed_code ?_ hA); exact rfl)
    | exact fun (h : Sparse.wf _ _ = true) => h
    | with_reducible apply next_does
    | with_reducible apply id_does
    | with_reducible apply ite_does
    | with_reducible apply iteO_does
    | (apply Sparse.wf_set; assumption)
    | exact rfl
    | intro _
    | dsimp only
    | split

theorem queOverrun_does {A : List Part} {b₀ : State} (q : Nat) (s : State) 
    (hD : Does A b₀ s) (hA : partsIn [.block 0x13, .free, .strand, .out] A = true) : Does A b₀ (queOverrun q s) := by
  unfold queOverrun
  repeat' first
    | with_reducible assumption
    | with_reducible apply bump_does
    | with_reducible apply say_does
    | ((with_reducible refine listed_block 19 ?_ ?_ hA); first | omega | (dsimp only [Fld.QUEq_COUNTS_OVERRUN]; omega) | (dsimp only [Fld.QUEq_COUNTS_OVERRUN]; split <;> omega); exact rfl)
    | ((with_reducible refine partsIn_trans ?_ hA); exact rfl)
    | ((with_reducible refine listed_code ?_ hA); exact rfl)
    | exact fun (h : Sparse.wf _ _ = true) => h
    | with_reducible apply next_does
    | with_reducible apply id_does
    | with_reducible apply ite_does
    | with_reducible apply iteO_does
    | (apply Sparse.wf_set; assumption)
    | exact rfl
    | intro _
    | dsimp only
    | split

theorem execQueHeadWrite_does {A : List Part} {b₀ : State} (q : Fin 64) (index : BitVec 16) (s : State) 
    (hD : Does A b₀ s) (hA : partsIn [.block 0x0F, .block 0x13, .free, .strand, .out] A = true) : DoesO A b₀ (execQueHeadWrite q index s) := by
  unfold execQueHeadWrite
  repeat' first
    | with_reducible assumption
    | with_reducible apply hostCmd_does
    | with_reducible apply queOverrun_does
    | with_reducible apply setFld_does
    | ((with_reducible refine listed_block 15 ?_ ?_ hA); first | omega | (dsimp only [Fld.QUEq_CFG_ENTRIES_LOG2, Fld.QUEq_HEAD_INDEX, Reg.QUEq_HEAD, queEntries, queHead]; omega) | (dsimp only [Fld.QUEq_CFG_ENTRIES_LOG2, Fld.QUEq_HEAD_INDEX, Reg.QUEq_HEAD, queEntries, queHead]; split <;> omega); exact rfl)
    | ((with_reducible refine listed_block 19 ?_ ?_ hA); first | omega | (dsimp only [Fld.QUEq_CFG_ENTRIES_LOG2, Fld.QUEq_HEAD_INDEX, Reg.QUEq_HEAD, queEntries, queHead]; omega) | (dsimp only [Fld.QUEq_CFG_ENTRIES_LOG2, Fld.QUEq_HEAD_INDEX, Reg.QUEq_HEAD, queEntries, queHead]; split <;> omega); exact rfl)
    | ((with_reducible refine partsIn_trans ?_ hA); exact rfl)
    | ((with_reducible refine listed_code ?_ hA); exact rfl)
    | exact fun (h : Sparse.wf _ _ = true) => h
    | with_reducible apply next_does
    | with_reducible apply id_does
    | with_reducible apply ite_does
    | with_reducible apply iteO_does
    | (apply Sparse.wf_set; assumption)
    | exact rfl
    | intro _
    | dsimp only
    | split

theorem execQueTailWrite_does {A : List Part} {b₀ : State} (q : Fin 64) (index : BitVec 16) (s : State) 
    (hD : Does A b₀ s) (hA : partsIn [.block 0x0F, .block 0x13, .free, .strand, .out] A = true) : DoesO A b₀ (execQueTailWrite q index s) := by
  unfold execQueTailWrite
  repeat' first
    | with_reducible assumption
    | with_reducible apply hostCmd_does
    | with_reducible apply queOverrun_does
    | with_reducible apply setFld_does
    | ((with_reducible refine listed_block 15 ?_ ?_ hA); first | omega | (dsimp only [Fld.QUEq_CFG_ENTRIES_LOG2, Fld.QUEq_TAIL_INDEX, Reg.QUEq_TAIL, queEntries, queTail]; omega) | (dsimp only [Fld.QUEq_CFG_ENTRIES_LOG2, Fld.QUEq_TAIL_INDEX, Reg.QUEq_TAIL, queEntries, queTail]; split <;> omega); exact rfl)
    | ((with_reducible refine listed_block 19 ?_ ?_ hA); first | omega | (dsimp only [Fld.QUEq_CFG_ENTRIES_LOG2, Fld.QUEq_TAIL_INDEX, Reg.QUEq_TAIL, queEntries, queTail]; omega) | (dsimp only [Fld.QUEq_CFG_ENTRIES_LOG2, Fld.QUEq_TAIL_INDEX, Reg.QUEq_TAIL, queEntries, queTail]; split <;> omega); exact rfl)
    | ((with_reducible refine partsIn_trans ?_ hA); exact rfl)
    | ((with_reducible refine listed_code ?_ hA); exact rfl)
    | exact fun (h : Sparse.wf _ _ = true) => h
    | with_reducible apply next_does
    | with_reducible apply id_does
    | with_reducible apply ite_does
    | with_reducible apply iteO_does
    | (apply Sparse.wf_set; assumption)
    | exact rfl
    | intro _
    | dsimp only
    | split

end Sys2Proof.Machine
end

