-- ==== Sys2Proof/Laws/OnlyClock.lean ====
section
/-! SUPPORT. What each operation of Machine/Clock.lean can do: the parts of the state it may change, and that it keeps
canonical form. -/
namespace Sys2Proof.Machine

theorem execTrimWindow_does {A : List Part} {b₀ : State}  (s : State) 
    (hD : Does A b₀ s) (hA : partsIn [.backup] A = true) : DoesO A b₀ (execTrimWindow s) := by
  unfold execTrimWindow
  repeat' first
    | with_reducible assumption
    | ((with_reducible refine partsIn_trans ?_ hA); exact rfl)
    | ((with_reducible refine listed_code ?_ hA); exact rfl)
    | exact fun (h : Sparse.wf _ _ = true) => h
    | with_reducible apply next_does
    | with_reducible apply id_does
    | with_reducible apply ite_does
    | with_reducible apply iteO_does
    | (apply Sparse.wf_set; assumption)
    | exact rfl
    | intro _
    | dsimp only
    | split
    | with_reducible apply upd_backup

theorem execClkOscStopped_does {A : List Part} {b₀ : State}  (s : State) 
    (hD : Does A b₀ s) (hA : partsIn [.block 0x01, .block 0x0E, .free, .strand, .backup, .mbx, .out] A = true) : DoesO A b₀ (execClkOscStopped s) := by
  unfold execClkOscStopped
  repeat' first
    | with_reducible assumption
    | with_reducible apply markFallback_does
    | with_reducible apply raiseF_does
    | with_reducible apply say_does
    | with_reducible apply sayRegion_does
    | ((with_reducible refine partsIn_trans ?_ hA); exact rfl)
    | ((with_reducible refine listed_code ?_ hA); exact rfl)
    | exact fun (h : Sparse.wf _ _ = true) => h
    | with_reducible apply next_does
    | with_reducible apply id_does
    | with_reducible apply ite_does
    | with_reducible apply iteO_does
    | (apply Sparse.wf_set; assumption)
    | exact rfl
    | intro _
    | dsimp only
    | split
    | with_reducible apply upd_backup

theorem execClkOsfClear_does {A : List Part} {b₀ : State} (stopped : Bool) (s : State) 
    (hD : Does A b₀ s) (hA : partsIn [.block 0x0F, .strand, .backup, .out] A = true) : DoesO A b₀ (execClkOsfClear stopped s) := by
  unfold execClkOsfClear
  repeat' first
    | with_reducible assumption
    | with_reducible apply hostCmd_does
    | ((with_reducible refine partsIn_trans ?_ hA); exact rfl)
    | ((with_reducible refine listed_code ?_ hA); exact rfl)
    | exact fun (h : Sparse.wf _ _ = true) => h
    | with_reducible apply next_does
    | with_reducible apply id_does
    | with_reducible apply ite_does
    | with_reducible apply iteO_does
    | (apply Sparse.wf_set; assumption)
    | exact rfl
    | intro _
    | dsimp only
    | split
    | with_reducible apply upd_backup

theorem clkSync_does {A : List Part} {b₀ : State}  (s : State) 
    (hD : Does A b₀ s) (hA : partsIn [.block 0x0E, .free, .strand, .backup, .out] A = true) : Does A b₀ (clkSync s) := by
  unfold clkSync
  repeat' first
    | with_reducible assumption
    | with_reducible apply onlyIf_does
    | with_reducible apply raiseF_does
    | with_reducible apply say_does
    | with_reducible apply withFree_does
    | with_reducible apply wr_does
    | ((with_reducible refine partsIn_trans ?_ hA); exact rfl)
    | ((with_reducible refine listed_code ?_ hA); exact rfl)
    | exact fun (h : Sparse.wf _ _ = true) => h
    | with_reducible apply next_does
    | with_reducible apply id_does
    | with_reducible apply ite_does
    | with_reducible apply iteO_does
    | (apply Sparse.wf_set; assumption)
    | exact rfl
    | intro _
    | dsimp only
    | split
    | with_reducible apply upd_backup

theorem execClkSync_does {A : List Part} {b₀ : State}  (s : State) 
    (hD : Does A b₀ s) (hA : partsIn [.block 0x0E, .free, .strand, .backup, .out] A = true) : DoesO A b₀ (execClkSync s) := by
  unfold execClkSync
  repeat' first
    | with_reducible assumption
    | with_reducible apply clkSync_does
    | ((with_reducible refine partsIn_trans ?_ hA); exact rfl)
    | ((with_reducible refine listed_code ?_ hA); exact rfl)
    | exact fun (h : Sparse.wf _ _ = true) => h
    | with_reducible apply next_does
    | with_reducible apply id_does
    | with_reducible apply ite_does
    | with_reducible apply iteO_does
    | (apply Sparse.wf_set; assumption)
    | exact rfl
    | intro _
    | dsimp only
    | split

theorem clkLoad_does {A : List Part} {b₀ : State} (c : Nat) (s : State) 
    (hD : Does A b₀ s) (hA : partsIn [.block 0x0E, .free, .strand, .backup, .out] A = true) : Does A b₀ (clkLoad c s) := by
  unfold clkLoad
  repeat' first
    | with_reducible assumption
    | with_reducible apply raiseF_does
    | with_reducible apply result_does
    | with_reducible apply say_does
    | ((with_reducible refine partsIn_trans ?_ hA); exact rfl)
    | ((with_reducible refine listed_code ?_ hA); exact rfl)
    | exact fun (h : Sparse.wf _ _ = true) => h
    | with_reducible apply next_does
    | with_reducible apply id_does
    | with_reducible apply ite_does
    | with_reducible apply iteO_does
    | (apply Sparse.wf_set; assumption)
    | exact rfl
    | intro _
    | dsimp only
    | split
    | with_reducible apply upd_backup

theorem execClkSetTicks_does {A : List Part} {b₀ : State}  (s : State) 
    (hD : Does A b₀ s) (hA : partsIn [.block 0x0E, .block 0x0F, .free, .strand, .backup, .out] A = true) : DoesO A b₀ (execClkSetTicks s) := by
  unfold execClkSetTicks
  repeat' first
    | with_reducible assumption
    | with_reducible apply clkLoad_does
    | with_reducible apply hostCmd_does
    | with_reducible apply result_does
    | ((with_reducible refine partsIn_trans ?_ hA); exact rfl)
    | ((with_reducible refine listed_code ?_ hA); exact rfl)
    | exact fun (h : Sparse.wf _ _ = true) => h
    | with_reducible apply next_does
    | with_reducible apply id_does
    | with_reducible apply ite_does
    | with_reducible apply iteO_does
    | (apply Sparse.wf_set; assumption)
    | exact rfl
    | intro _
    | dsimp only
    | split

theorem calInvalid_does {A : List Part} {b₀ : State}  (s : State) 
    (hD : Does A b₀ s) (hA : partsIn [.block 0x0E, .free, .strand, .out] A = true) : Does A b₀ (calInvalid s) := by
  unfold calInvalid
  repeat' first
    | with_reducible assumption
    | with_reducible apply raiseF_does
    | with_reducible apply result_does
    | ((with_reducible refine partsIn_trans ?_ hA); exact rfl)
    | ((with_reducible refine listed_code ?_ hA); exact rfl)
    | exact fun (h : Sparse.wf _ _ = true) => h
    | with_reducible apply next_does
    | with_reducible apply id_does
    | with_reducible apply ite_does
    | with_reducible apply iteO_does
    | (apply Sparse.wf_set; assumption)
    | exact rfl
    | intro _
    | dsimp only
    | split

theorem execClkSetCal_does {A : List Part} {b₀ : State}  (s : State) 
    (hD : Does A b₀ s) (hA : partsIn [.block 0x0E, .block 0x0F, .free, .strand, .backup, .out] A = true) : DoesO A b₀ (execClkSetCal s) := by
  unfold execClkSetCal
  repeat' first
    | with_reducible assumption
    | with_reducible apply calInvalid_does
    | with_reducible apply clkLoad_does
    | with_reducible apply hostCmd_does
    | ((with_reducible refine partsIn_trans ?_ hA); exact rfl)
    | ((with_reducible refine listed_code ?_ hA); exact rfl)
    | exact fun (h : Sparse.wf _ _ = true) => h
    | with_reducible apply next_does
    | with_reducible apply id_does
    | with_reducible apply ite_does
    | with_reducible apply iteO_does
    | (apply Sparse.wf_set; assumption)
    | exact rfl
    | intro _
    | dsimp only
    | split

theorem execClkReadCal_does {A : List Part} {b₀ : State}  (s : State) 
    (hD : Does A b₀ s) (hA : partsIn [.block 0x0E, .block 0x0F, .free, .strand, .out] A = true) : DoesO A b₀ (execClkReadCal s) := by
  unfold execClkReadCal
  repeat' first
    | with_reducible assumption
    | with_reducible apply calInvalid_does
    | with_reducible apply hostCmd_does
    | with_reducible apply result_does
    | with_reducible apply wr64_does
    | ((with_reducible refine partsIn_trans ?_ hA); exact rfl)
    | ((with_reducible refine listed_code ?_ hA); exact rfl)
    | exact fun (h : Sparse.wf _ _ = true) => h
    | with_reducible apply next_does
    | with_reducible apply id_does
    | with_reducible apply ite_does
    | with_reducible apply iteO_does
    | (apply Sparse.wf_set; assumption)
    | exact rfl
    | (dsimp only [Fld.CLK_RESULT_STATUS, Reg.CLK_CAL_LO, Reg.CLK_CMD]; omega)
    | intro _
    | dsimp only
    | split

theorem execClkRegsValidate_does {A : List Part} {b₀ : State}  (s : State) 
    (hD : Does A b₀ s) (hA : partsIn [.block 0x0E, .block 0x0F, .free, .strand, .backup, .out] A = true) : DoesO A b₀ (execClkRegsValidate s) := by
  unfold execClkRegsValidate
  repeat' first
    | with_reducible assumption
    | with_reducible apply hostCmd_does
    | with_reducible apply result_does
    | with_reducible apply say_does
    | ((with_reducible refine partsIn_trans ?_ hA); exact rfl)
    | ((with_reducible refine listed_code ?_ hA); exact rfl)
    | exact fun (h : Sparse.wf _ _ = true) => h
    | with_reducible apply next_does
    | with_reducible apply id_does
    | with_reducible apply ite_does
    | with_reducible apply iteO_does
    | (apply Sparse.wf_set; assumption)
    | exact rfl
    | intro _
    | dsimp only
    | split
    | with_reducible apply upd_backup

theorem execClkBregWrite_does {A : List Part} {b₀ : State} (i : Fin 16) (value : Word) (s : State) 
    (hD : Does A b₀ s) (hA : partsIn [.block 0x0F, .strand, .backup, .out] A = true) : DoesO A b₀ (execClkBregWrite i value s) := by
  unfold execClkBregWrite
  repeat' first
    | with_reducible assumption
    | with_reducible apply hostCmd_does
    | ((with_reducible refine listed_block 15 ?_ ?_ hA); first | omega | (dsimp only [Reg.CLK_BREG]; omega) | (dsimp only [Reg.CLK_BREG]; split <;> omega); exact rfl)
    | ((with_reducible refine partsIn_trans ?_ hA); exact rfl)
    | ((with_reducible refine listed_code ?_ hA); exact rfl)
    | exact fun (h : Sparse.wf _ _ = true) => h
    | with_reducible apply next_does
    | with_reducible apply id_does
    | with_reducible apply ite_does
    | with_reducible apply iteO_does
    | (apply Sparse.wf_set; assumption)
    | exact rfl
    | intro _
    | dsimp only
    | split
    | with_reducible apply upd_backup

theorem execVbakSwitch_does {A : List Part} {b₀ : State} (toMain : Bool) (s : State) 
    (hD : Does A b₀ s) (hA : partsIn [.backup] A = true) : DoesO A b₀ (execVbakSwitch toMain s) := by
  unfold execVbakSwitch
  repeat' first
    | with_reducible assumption
    | ((with_reducible refine partsIn_trans ?_ hA); exact rfl)
    | ((with_reducible refine listed_code ?_ hA); exact rfl)
    | exact fun (h : Sparse.wf _ _ = true) => h
    | with_reducible apply next_does
    | with_reducible apply id_does
    | with_reducible apply ite_does
    | with_reducible apply iteO_does
    | (apply Sparse.wf_set; assumption)
    | exact rfl
    | intro _
    | dsimp only
    | split
    | with_reducible apply upd_backup

theorem execClkRetentionLost_does {A : List Part} {b₀ : State}  (s : State) 
    (hD : Does A b₀ s) (hA : partsIn [.backup] A = true) : DoesO A b₀ (execClkRetentionLost s) := by
  unfold execClkRetentionLost
  repeat' first
    | with_reducible assumption
    | ((with_reducible refine partsIn_trans ?_ hA); exact rfl)
    | ((with_reducible refine listed_code ?_ hA); exact rfl)
    | exact fun (h : Sparse.wf _ _ = true) => h
    | with_reducible apply next_does
    | with_reducible apply id_does
    | with_reducible apply ite_does
    | with_reducible apply iteO_does
    | (apply Sparse.wf_set; assumption)
    | exact rfl
    | intro _
    | dsimp only
    | split
    | with_reducible apply upd_backup

theorem execClkCellCheck_does {A : List Part} {b₀ : State} (mv : Nat) (s : State) 
    (hD : Does A b₀ s) (hA : partsIn [.block 0x0E, .free, .strand, .backup, .out] A = true) : DoesO A b₀ (execClkCellCheck mv s) := by
  unfold execClkCellCheck
  repeat' first
    | with_reducible assumption
    | with_reducible apply raiseF_does
    | with_reducible apply say_does
    | with_reducible apply setFld_does
    | ((with_reducible refine partsIn_trans ?_ hA); exact rfl)
    | ((with_reducible refine listed_code ?_ hA); exact rfl)
    | exact fun (h : Sparse.wf _ _ = true) => h
    | with_reducible apply next_does
    | with_reducible apply id_does
    | with_reducible apply ite_does
    | with_reducible apply iteO_does
    | (apply Sparse.wf_set; assumption)
    | exact rfl
    | intro _
    | dsimp only
    | split
    | with_reducible apply upd_backup

end Sys2Proof.Machine
end

