-- ==== Sys2Proof/Laws/OnlyTriad.lean ====
section
/-! SUPPORT. What each operation of Machine/Triad.lean can do: the parts of the state it may change, and that it keeps
canonical form. -/
namespace Sys2Proof.Machine

theorem votesField_block (c : Nat) : (votesField c).addr / 65536 = 10 := by
  unfold votesField
  first
    | rfl
    | ((repeat' split) <;> first | rfl | (dsimp only [Fld.TRIAD_VOTES_T0, Fld.TRIAD_VOTES_T1, Fld.TRIAD_VOTES_T2]; omega))
    | ((repeat' split) <;> dsimp only [Fld.TRIAD_VOTES_T0, Fld.TRIAD_VOTES_T1, Fld.TRIAD_VOTES_T2])

theorem recordDiff_does {A : List Part} {b₀ : State} (core : Nat) (field : Nat) (t : Nat) (s : State) 
    (hD : Does A b₀ s) (hA : partsIn [.block 0x0A] A = true) : Does A b₀ (recordDiff core field t s) := by
  unfold recordDiff
  repeat' first
    | with_reducible assumption
    | with_reducible apply setFld_does
    | ((with_reducible refine partsIn_trans ?_ hA); exact rfl)
    | ((with_reducible refine listed_code ?_ hA); exact rfl)
    | exact fun (h : Sparse.wf _ _ = true) => h
    | with_reducible apply next_does
    | with_reducible apply id_does
    | with_reducible apply ite_does
    | with_reducible apply iteO_does
    | (apply Sparse.wf_set; assumption)
    | exact rfl
    | intro _
    | dsimp only
    | split

theorem retireCore_does {A : List Part} {b₀ : State} (c : Nat) (s : State) 
    (hD : Does A b₀ s) (hA : partsIn [.block 0x0A, .free, .strand, .triad, .out] A = true) : Does A b₀ (retireCore c s) := by
  unfold retireCore
  repeat' first
    | with_reducible assumption
    | with_reducible apply raiseF_does
    | with_reducible apply say_does
    | with_reducible apply setFld_does
    | with_reducible apply triadMode_does
    | ((with_reducible refine partsIn_trans ?_ hA); exact rfl)
    | ((with_reducible refine listed_code ?_ hA); exact rfl)
    | exact fun (h : Sparse.wf _ _ = true) => h
    | with_reducible apply next_does
    | with_reducible apply id_does
    | with_reducible apply ite_does
    | with_reducible apply iteO_does
    | (apply Sparse.wf_set; assumption)
    | exact rfl
    | intro _
    | dsimp only
    | split
    | with_reducible apply upd_triad

theorem resyncFail_does {A : List Part} {b₀ : State} (c : Nat) (s : State) 
    (hD : Does A b₀ s) (hA : partsIn [.block 0x0A, .free, .strand, .triad, .out] A = true) : Does A b₀ (resyncFail c s) := by
  unfold resyncFail
  repeat' first
    | with_reducible assumption
    | with_reducible apply raiseF_does
    | with_reducible apply retireCore_does
    | with_reducible apply say_does
    | with_reducible apply setFld_does
    | with_reducible apply triadMode_does
    | ((with_reducible refine partsIn_trans ?_ hA); exact rfl)
    | ((with_reducible refine listed_code ?_ hA); exact rfl)
    | exact fun (h : Sparse.wf _ _ = true) => h
    | with_reducible apply next_does
    | with_reducible apply id_does
    | with_reducible apply ite_does
    | with_reducible apply iteO_does
    | (apply Sparse.wf_set; assumption)
    | exact rfl
    | intro _
    | dsimp only
    | split
    | with_reducible apply upd_triad

theorem fence_does {A : List Part} {b₀ : State} (c : Nat) (field : Nat) (t : Nat) (s : State) 
    (hD : Does A b₀ s) (hA : partsIn [.block 0x01, .block 0x02, .block 0x03, .block 0x05, .block 0x08, .block 0x09, .block 0x0A, .block 0x0C, .free, .strand, .backup, .tides, .seqs, .exe, .loop, .dio, .saf, .triad, .pair, .can, .sup, .mbx, .out] A = true) : Does A b₀ (fence c field t s) := by
  unfold fence
  repeat' first
    | with_reducible assumption
    | with_reducible apply bump_does
    | with_reducible apply isolateBank_does
    | with_reducible apply onlyIf_does
    | with_reducible apply raiseF_does
    | with_reducible apply recordDiff_does
    | with_reducible apply resyncFail_does
    | with_reducible apply say_does
    | with_reducible apply setFld_does
    | with_reducible apply triadMode_does
    | ((with_reducible refine listed_block 1 ?_ ?_ hA); first | omega | (dsimp only [Fld.TRIAD_EVENT_OUTVOTE, Fld.TRIAD_HEALTH_SINCE, Fld.TRIAD_STATE_FENCED, Fld.TRIAD_VOTES_T0, Fld.TRIAD_VOTES_T1, Fld.TRIAD_VOTES_T2, votesField]; omega) | (dsimp only [Fld.TRIAD_EVENT_OUTVOTE, Fld.TRIAD_HEALTH_SINCE, Fld.TRIAD_STATE_FENCED, Fld.TRIAD_VOTES_T0, Fld.TRIAD_VOTES_T1, Fld.TRIAD_VOTES_T2, votesField]; split <;> omega); exact rfl)
    | ((with_reducible refine listed_block 2 ?_ ?_ hA); first | omega | (dsimp only [Fld.TRIAD_EVENT_OUTVOTE, Fld.TRIAD_HEALTH_SINCE, Fld.TRIAD_STATE_FENCED, Fld.TRIAD_VOTES_T0, Fld.TRIAD_VOTES_T1, Fld.TRIAD_VOTES_T2, votesField]; omega) | (dsimp only [Fld.TRIAD_EVENT_OUTVOTE, Fld.TRIAD_HEALTH_SINCE, Fld.TRIAD_STATE_FENCED, Fld.TRIAD_VOTES_T0, Fld.TRIAD_VOTES_T1, Fld.TRIAD_VOTES_T2, votesField]; split <;> omega); exact rfl)
    | ((with_reducible refine listed_block 3 ?_ ?_ hA); first | omega | (dsimp only [Fld.TRIAD_EVENT_OUTVOTE, Fld.TRIAD_HEALTH_SINCE, Fld.TRIAD_STATE_FENCED, Fld.TRIAD_VOTES_T0, Fld.TRIAD_VOTES_T1, Fld.TRIAD_VOTES_T2, votesField]; omega) | (dsimp only [Fld.TRIAD_EVENT_OUTVOTE, Fld.TRIAD_HEALTH_SINCE, Fld.TRIAD_STATE_FENCED, Fld.TRIAD_VOTES_T0, Fld.TRIAD_VOTES_T1, Fld.TRIAD_VOTES_T2, votesField]; split <;> omega); exact rfl)
    | ((with_reducible refine listed_block 5 ?_ ?_ hA); first | omega | (dsimp only [Fld.TRIAD_EVENT_OUTVOTE, Fld.TRIAD_HEALTH_SINCE, Fld.TRIAD_STATE_FENCED, Fld.TRIAD_VOTES_T0, Fld.TRIAD_VOTES_T1, Fld.TRIAD_VOTES_T2, votesField]; omega) | (dsimp only [Fld.TRIAD_EVENT_OUTVOTE, Fld.TRIAD_HEALTH_SINCE, Fld.TRIAD_STATE_FENCED, Fld.TRIAD_VOTES_T0, Fld.TRIAD_VOTES_T1, Fld.TRIAD_VOTES_T2, votesField]; split <;> omega); exact rfl)
    | ((with_reducible refine listed_block 8 ?_ ?_ hA); first | omega | (dsimp only [Fld.TRIAD_EVENT_OUTVOTE, Fld.TRIAD_HEALTH_SINCE, Fld.TRIAD_STATE_FENCED, Fld.TRIAD_VOTES_T0, Fld.TRIAD_VOTES_T1, Fld.TRIAD_VOTES_T2, votesField]; omega) | (dsimp only [Fld.TRIAD_EVENT_OUTVOTE, Fld.TRIAD_HEALTH_SINCE, Fld.TRIAD_STATE_FENCED, Fld.TRIAD_VOTES_T0, Fld.TRIAD_VOTES_T1, Fld.TRIAD_VOTES_T2, votesField]; split <;> omega); exact rfl)
    | ((with_reducible refine listed_block 9 ?_ ?_ hA); first | omega | (dsimp only [Fld.TRIAD_EVENT_OUTVOTE, Fld.TRIAD_HEALTH_SINCE, Fld.TRIAD_STATE_FENCED, Fld.TRIAD_VOTES_T0, Fld.TRIAD_VOTES_T1, Fld.TRIAD_VOTES_T2, votesField]; omega) | (dsimp only [Fld.TRIAD_EVENT_OUTVOTE, Fld.TRIAD_HEALTH_SINCE, Fld.TRIAD_STATE_FENCED, Fld.TRIAD_VOTES_T0, Fld.TRIAD_VOTES_T1, Fld.TRIAD_VOTES_T2, votesField]; split <;> omega); exact rfl)
    | ((with_reducible refine listed_block 10 ?_ ?_ hA); first | omega | (dsimp only [Fld.TRIAD_EVENT_OUTVOTE, Fld.TRIAD_HEALTH_SINCE, Fld.TRIAD_STATE_FENCED, Fld.TRIAD_VOTES_T0, Fld.TRIAD_VOTES_T1, Fld.TRIAD_VOTES_T2, votesField]; omega) | (dsimp only [Fld.TRIAD_EVENT_OUTVOTE, Fld.TRIAD_HEALTH_SINCE, Fld.TRIAD_STATE_FENCED, Fld.TRIAD_VOTES_T0, Fld.TRIAD_VOTES_T1, Fld.TRIAD_VOTES_T2, votesField]; split <;> omega); exact rfl)
    | ((with_reducible refine listed_block 12 ?_ ?_ hA); first | omega | (dsimp only [Fld.TRIAD_EVENT_OUTVOTE, Fld.TRIAD_HEALTH_SINCE, Fld.TRIAD_STATE_FENCED, Fld.TRIAD_VOTES_T0, Fld.TRIAD_VOTES_T1, Fld.TRIAD_VOTES_T2, votesField]; omega) | (dsimp only [Fld.TRIAD_EVENT_OUTVOTE, Fld.TRIAD_HEALTH_SINCE, Fld.TRIAD_STATE_FENCED, Fld.TRIAD_VOTES_T0, Fld.TRIAD_VOTES_T1, Fld.TRIAD_VOTES_T2, votesField]; split <;> omega); exact rfl)
    | ((with_reducible refine listed_block 10 ?_ ?_ hA); exact votesField_block _; exact rfl)
    | ((with_reducible refine partsIn_trans ?_ hA); exact rfl)
    | ((with_reducible refine listed_code ?_ hA); exact rfl)
    | exact fun (h : Sparse.wf _ _ = true) => h
    | with_reducible apply next_does
    | with_reducible apply id_does
    | with_reducible apply ite_does
    | with_reducible apply iteO_does
    | (apply Sparse.wf_set; assumption)
    | exact rfl
    | intro _
    | dsimp only
    | split

theorem noMajority_does {A : List Part} {b₀ : State} (field : Nat) (t : Nat) (s : State) 
    (hD : Does A b₀ s) (hA : partsIn [.block 0x01, .block 0x02, .block 0x03, .block 0x05, .block 0x08, .block 0x09, .block 0x0A, .block 0x0C, .free, .strand, .backup, .tides, .seqs, .exe, .loop, .dio, .saf, .pair, .can, .sup, .mbx, .out] A = true) : Does A b₀ (noMajority field t s) := by
  unfold noMajority
  repeat' first
    | with_reducible assumption
    | with_reducible apply enterFallback_does
    | with_reducible apply raiseF_does
    | with_reducible apply recordDiff_does
    | with_reducible apply say_does
    | ((with_reducible refine partsIn_trans ?_ hA); exact rfl)
    | ((with_reducible refine listed_code ?_ hA); exact rfl)
    | exact fun (h : Sparse.wf _ _ = true) => h
    | with_reducible apply next_does
    | with_reducible apply id_does
    | with_reducible apply ite_does
    | with_reducible apply iteO_does
    | (apply Sparse.wf_set; assumption)
    | exact rfl
    | intro _
    | dsimp only
    | split

theorem voteFault_does {A : List Part} {b₀ : State} (r : Option VoteRec) (t : Nat) (s : State) 
    (hD : Does A b₀ s) (hA : partsIn [.block 0x01, .block 0x02, .block 0x03, .block 0x05, .block 0x08, .block 0x09, .block 0x0A, .block 0x0C, .free, .strand, .backup, .tides, .seqs, .exe, .loop, .dio, .saf, .pair, .can, .sup, .mbx, .out] A = true) : Does A b₀ (voteFault r t s) := by
  unfold voteFault
  repeat' first
    | with_reducible assumption
    | with_reducible apply onlyIf_does
    | with_reducible apply progFault_does
    | ((with_reducible refine partsIn_trans ?_ hA); exact rfl)
    | ((with_reducible refine listed_code ?_ hA); exact rfl)
    | exact fun (h : Sparse.wf _ _ = true) => h
    | with_reducible apply next_does
    | with_reducible apply id_does
    | with_reducible apply ite_does
    | with_reducible apply iteO_does
    | (apply Sparse.wf_set; assumption)
    | exact rfl
    | intro _
    | dsimp only
    | split

theorem execTriadVote_does {A : List Part} {b₀ : State} (r0 : Option VoteRec) (r1 : Option VoteRec) (r2 : Option VoteRec) (s : State) 
    (hD : Does A b₀ s) (hA : partsIn [.block 0x01, .block 0x02, .block 0x03, .block 0x05, .block 0x08, .block 0x09, .block 0x0A, .block 0x0C, .free, .strand, .backup, .tides, .seqs, .exe, .loop, .dio, .saf, .triad, .pair, .can, .sup, .mbx, .out] A = true) : DoesO A b₀ (execTriadVote r0 r1 r2 s) := by
  unfold execTriadVote
  repeat' first
    | with_reducible assumption
    | with_reducible apply fence_does
    | with_reducible apply noMajority_does
    | with_reducible apply voteFault_does
    | ((with_reducible refine partsIn_trans ?_ hA); exact rfl)
    | ((with_reducible refine listed_code ?_ hA); exact rfl)
    | exact fun (h : Sparse.wf _ _ = true) => h
    | with_reducible apply next_does
    | with_reducible apply id_does
    | with_reducible apply ite_does
    | with_reducible apply iteO_does
    | (apply Sparse.wf_set; assumption)
    | exact rfl
    | intro _
    | dsimp only
    | split

theorem execTriadResyncStart_does {A : List Part} {b₀ : State} (pass : Bool) (s : State) 
    (hD : Does A b₀ s) (hA : partsIn [.block 0x0A, .free, .strand, .triad, .out] A = true) : DoesO A b₀ (execTriadResyncStart pass s) := by
  unfold execTriadResyncStart
  repeat' first
    | with_reducible assumption
    | with_reducible apply resyncFail_does
    | with_reducible apply triadMode_does
    | ((with_reducible refine partsIn_trans ?_ hA); exact rfl)
    | ((with_reducible refine listed_code ?_ hA); exact rfl)
    | exact fun (h : Sparse.wf _ _ = true) => h
    | with_reducible apply next_does
    | with_reducible apply id_does
    | with_reducible apply ite_does
    | with_reducible apply iteO_does
    | (apply Sparse.wf_set; assumption)
    | exact rfl
    | intro _
    | dsimp only
    | split
    | with_reducible apply upd_triad

theorem execTriadResyncDone_does {A : List Part} {b₀ : State}  (s : State) 
    (hD : Does A b₀ s) (hA : partsIn [.block 0x0A, .free, .strand, .triad, .sup, .out] A = true) : DoesO A b₀ (execTriadResyncDone s) := by
  unfold execTriadResyncDone
  repeat' first
    | with_reducible assumption
    | with_reducible apply bump_does
    | with_reducible apply onlyIf_does
    | with_reducible apply raiseF_does
    | with_reducible apply say_does
    | with_reducible apply setFld_does
    | with_reducible apply triadMode_does
    | with_reducible apply unisolateBank_does
    | ((with_reducible refine partsIn_trans ?_ hA); exact rfl)
    | ((with_reducible refine listed_code ?_ hA); exact rfl)
    | exact fun (h : Sparse.wf _ _ = true) => h
    | with_reducible apply next_does
    | with_reducible apply id_does
    | with_reducible apply ite_does
    | with_reducible apply iteO_does
    | (apply Sparse.wf_set; assumption)
    | exact rfl
    | intro _
    | dsimp only
    | split
    | with_reducible apply upd_triad

theorem execTriadResyncTimeout_does {A : List Part} {b₀ : State}  (s : State) 
    (hD : Does A b₀ s) (hA : partsIn [.block 0x0A, .free, .strand, .triad, .out] A = true) : DoesO A b₀ (execTriadResyncTimeout s) := by
  unfold execTriadResyncTimeout
  repeat' first
    | with_reducible assumption
    | with_reducible apply resyncFail_does
    | ((with_reducible refine partsIn_trans ?_ hA); exact rfl)
    | ((with_reducible refine listed_code ?_ hA); exact rfl)
    | exact fun (h : Sparse.wf _ _ = true) => h
    | with_reducible apply next_does
    | with_reducible apply id_does
    | with_reducible apply ite_does
    | with_reducible apply iteO_does
    | (apply Sparse.wf_set; assumption)
    | exact rfl
    | intro _
    | dsimp only
    | split

theorem triadStart_does {A : List Part} {b₀ : State} (b : TriadBist) (s : State) 
    (hD : Does A b₀ s) (hA : partsIn [.block 0x01, .block 0x02, .block 0x03, .block 0x05, .block 0x08, .block 0x09, .block 0x0A, .block 0x0C, .free, .strand, .backup, .tides, .seqs, .exe, .loop, .dio, .saf, .triad, .pair, .can, .sup, .mbx, .out] A = true) : Does A b₀ (triadStart b s) := by
  unfold triadStart
  repeat' first
    | with_reducible assumption
    | with_reducible apply enterFallback_does
    | with_reducible apply raiseF_does
    | with_reducible apply retireCore_does
    | with_reducible apply say_does
    | with_reducible apply setFlag_does
    | with_reducible apply setFld_does
    | with_reducible apply triadMode_does
    | ((with_reducible refine partsIn_trans ?_ hA); exact rfl)
    | ((with_reducible refine listed_code ?_ hA); exact rfl)
    | exact fun (h : Sparse.wf _ _ = true) => h
    | with_reducible apply next_does
    | with_reducible apply id_does
    | with_reducible apply ite_does
    | with_reducible apply iteO_does
    | (apply Sparse.wf_set; assumption)
    | exact rfl
    | intro _
    | dsimp only
    | split
    | with_reducible apply upd_triad

theorem eccRecord_does {A : List Part} {b₀ : State} (place : EccPlace) (symbol : Nat) (word : BitVec 20) (s : State) 
    (hD : Does A b₀ s) (hA : partsIn [.block 0x0A] A = true) : Does A b₀ (eccRecord place symbol word s) := by
  unfold eccRecord
  repeat' first
    | with_reducible assumption
    | with_reducible apply setFld_does
    | ((with_reducible refine partsIn_trans ?_ hA); exact rfl)
    | ((with_reducible refine listed_code ?_ hA); exact rfl)
    | exact fun (h : Sparse.wf _ _ = true) => h
    | with_reducible apply next_does
    | with_reducible apply id_does
    | with_reducible apply ite_does
    | with_reducible apply iteO_does
    | (apply Sparse.wf_set; assumption)
    | exact rfl
    | intro _
    | dsimp only
    | split

theorem execTriadEccCorrected_does {A : List Part} {b₀ : State} (place : EccPlace) (symbol : Fin 19) (word : BitVec 20) (s : State) 
    (hD : Does A b₀ s) (hA : partsIn [.block 0x0A, .free, .strand, .out] A = true) : DoesO A b₀ (execTriadEccCorrected place symbol word s) := by
  unfold execTriadEccCorrected
  repeat' first
    | with_reducible assumption
    | with_reducible apply bump_does
    | with_reducible apply eccRecord_does
    | with_reducible apply raiseF_does
    | with_reducible apply say_does
    | ((with_reducible refine partsIn_trans ?_ hA); exact rfl)
    | ((with_reducible refine listed_code ?_ hA); exact rfl)
    | exact fun (h : Sparse.wf _ _ = true) => h
    | with_reducible apply next_does
    | with_reducible apply id_does
    | with_reducible apply ite_does
    | with_reducible apply iteO_does
    | (apply Sparse.wf_set; assumption)
    | exact rfl
    | intro _
    | dsimp only
    | split

theorem execTriadEccUncorr_does {A : List Part} {b₀ : State} (place : EccPlace) (word : BitVec 20) (s : State) 
    (hD : Does A b₀ s) (hA : partsIn [.block 0x01, .block 0x02, .block 0x03, .block 0x05, .block 0x08, .block 0x09, .block 0x0A, .block 0x0C, .free, .strand, .backup, .tides, .seqs, .exe, .loop, .dio, .saf, .pair, .can, .sup, .mbx, .out] A = true) : DoesO A b₀ (execTriadEccUncorr place word s) := by
  unfold execTriadEccUncorr
  repeat' first
    | with_reducible assumption
    | with_reducible apply bump_does
    | with_reducible apply eccRecord_does
    | with_reducible apply enterFallback_does
    | with_reducible apply onTask_does
    | with_reducible apply onlyIf_does
    | with_reducible apply raiseF_does
    | with_reducible apply say_does
    | ((with_reducible refine partsIn_trans ?_ hA); exact rfl)
    | ((with_reducible refine listed_code ?_ hA); exact rfl)
    | exact fun (h : Sparse.wf _ _ = true) => h
    | with_reducible apply next_does
    | with_reducible apply id_does
    | with_reducible apply ite_does
    | with_reducible apply iteO_does
    | (apply Sparse.wf_set; assumption)
    | exact rfl
    | intro _
    | dsimp only
    | split

theorem execTriadUnretire_does {A : List Part} {b₀ : State} (core : Fin 4) (s : State) 
    (hD : Does A b₀ s) (hA : partsIn [.block 0x0A, .block 0x0F, .free, .strand, .triad, .out] A = true) : DoesO A b₀ (execTriadUnretire core s) := by
  unfold execTriadUnretire
  repeat' first
    | with_reducible assumption
    | with_reducible apply hostCmd_does
    | with_reducible apply result_does
    | ((with_reducible refine partsIn_trans ?_ hA); exact rfl)
    | ((with_reducible refine listed_code ?_ hA); exact rfl)
    | exact fun (h : Sparse.wf _ _ = true) => h
    | with_reducible apply next_does
    | with_reducible apply id_does
    | with_reducible apply ite_does
    | with_reducible apply iteO_does
    | (apply Sparse.wf_set; assumption)
    | exact rfl
    | intro _
    | dsimp only
    | split
    | with_reducible apply upd_triad

end Sys2Proof.Machine
end

