-- ==== Sys2Proof/Laws/OnlyPower.lean ====
section
/-! SUPPORT. What each operation of Machine/Power.lean can do: the parts of the state it may change, and that it keeps
canonical form. -/
namespace Sys2Proof.Machine

theorem stepDone_does {A : List Part} {b₀ : State} (dst : Nat) (s : State) 
    (hD : Does A b₀ s) (hA : partsIn [.block 0x01, .strand, .out] A = true) : Does A b₀ (stepDone dst s) := by
  unfold stepDone
  repeat' first
    | with_reducible assumption
    | with_reducible apply raiseF_does
    | with_reducible apply sayD_does
    | with_reducible apply setFld_does
    | ((with_reducible refine listed_block 1 ?_ ?_ hA); first | omega | (dsimp only [Fld.SUP_EVENT_STATE, Fld.SUP_PWR_STATE_LAST, Fld.SUP_PWR_STATE_STATE, power]; omega) | (dsimp only [Fld.SUP_EVENT_STATE, Fld.SUP_PWR_STATE_LAST, Fld.SUP_PWR_STATE_STATE, power]; split <;> omega); exact rfl)
    | ((with_reducible refine partsIn_trans ?_ hA); exact rfl)
    | ((with_reducible refine listed_code ?_ hA); exact rfl)
    | exact fun (h : Sparse.wf _ _ = true) => h
    | with_reducible apply next_does
    | with_reducible apply id_does
    | with_reducible apply ite_does
    | with_reducible apply iteO_does
    | (apply Sparse.wf_set; assumption)
    | exact rfl
    | intro _
    | dsimp only
    | split

theorem stepIdle_does {A : List Part} {b₀ : State}  (s : State) 
    (hD : Does A b₀ s) (hA : partsIn [.block 0x01, .sup] A = true) : Does A b₀ (stepIdle s) := by
  unfold stepIdle
  repeat' first
    | with_reducible assumption
    | with_reducible apply setFlag_does
    | ((with_reducible refine partsIn_trans ?_ hA); exact rfl)
    | ((with_reducible refine listed_code ?_ hA); exact rfl)
    | exact fun (h : Sparse.wf _ _ = true) => h
    | with_reducible apply next_does
    | with_reducible apply id_does
    | with_reducible apply ite_does
    | with_reducible apply iteO_does
    | (apply Sparse.wf_set; assumption)
    | exact rfl
    | intro _
    | dsimp only
    | split
    | with_reducible apply upd_sup

theorem stepWaits_does {A : List Part} {b₀ : State} (dst : Nat) (s : State) 
    (hD : Does A b₀ s) (hA : partsIn [.block 0x01, .sup] A = true) : Does A b₀ (stepWaits dst s) := by
  unfold stepWaits
  repeat' first
    | with_reducible assumption
    | with_reducible apply setFlag_does
    | ((with_reducible refine partsIn_trans ?_ hA); exact rfl)
    | ((with_reducible refine listed_code ?_ hA); exact rfl)
    | exact fun (h : Sparse.wf _ _ = true) => h
    | with_reducible apply next_does
    | with_reducible apply id_does
    | with_reducible apply ite_does
    | with_reducible apply iteO_does
    | (apply Sparse.wf_set; assumption)
    | exact rfl
    | intro _
    | dsimp only
    | split
    | with_reducible apply upd_sup

theorem stepRefuse_does {A : List Part} {b₀ : State} (dst : Nat) (n : Nat) (s : State) 
    (hD : Does A b₀ s) (hA : partsIn [.block 0x01, .strand, .sup, .out] A = true) : Does A b₀ (stepRefuse dst n s) := by
  unfold stepRefuse
  repeat' first
    | with_reducible assumption
    | with_reducible apply raiseF_does
    | with_reducible apply sayD_does
    | with_reducible apply setFld_does
    | with_reducible apply stepIdle_does
    | ((with_reducible refine listed_block 1 ?_ ?_ hA); first | omega | (dsimp only [Fld.SUP_EVENT_REFUSED, Fld.SUP_PWR_STATE_LAST, Fld.SUP_PWR_STATE_STATE, power]; omega) | (dsimp only [Fld.SUP_EVENT_REFUSED, Fld.SUP_PWR_STATE_LAST, Fld.SUP_PWR_STATE_STATE, power]; split <;> omega); exact rfl)
    | ((with_reducible refine partsIn_trans ?_ hA); exact rfl)
    | ((with_reducible refine listed_code ?_ hA); exact rfl)
    | exact fun (h : Sparse.wf _ _ = true) => h
    | with_reducible apply next_does
    | with_reducible apply id_does
    | with_reducible apply ite_does
    | with_reducible apply iteO_does
    | (apply Sparse.wf_set; assumption)
    | exact rfl
    | intro _
    | dsimp only
    | split

theorem enterRun_does {A : List Part} {b₀ : State}  (s : State) 
    (hD : Does A b₀ s) (hA : partsIn [.block 0x01, .saf, .lcy, .sup] A = true) : Does A b₀ (enterRun s) := by
  unfold enterRun
  repeat' first
    | with_reducible assumption
    | with_reducible apply scanLeave_does
    | with_reducible apply setFlag_does
    | ((with_reducible refine partsIn_trans ?_ hA); exact rfl)
    | ((with_reducible refine listed_code ?_ hA); exact rfl)
    | exact fun (h : Sparse.wf _ _ = true) => h
    | with_reducible apply next_does
    | with_reducible apply id_does
    | with_reducible apply ite_does
    | with_reducible apply iteO_does
    | (apply Sparse.wf_set; assumption)
    | exact rfl
    | intro _
    | dsimp only
    | split
    | with_reducible apply upd_saf_sup

theorem enterHold_does {A : List Part} {b₀ : State}  (s : State) 
    (hD : Does A b₀ s) (hA : partsIn [.sup] A = true) : Does A b₀ (enterHold s) := by
  unfold enterHold
  repeat' first
    | with_reducible assumption
    | ((with_reducible refine partsIn_trans ?_ hA); exact rfl)
    | ((with_reducible refine listed_code ?_ hA); exact rfl)
    | exact fun (h : Sparse.wf _ _ = true) => h
    | with_reducible apply next_does
    | with_reducible apply id_does
    | with_reducible apply ite_does
    | with_reducible apply iteO_does
    | (apply Sparse.wf_set; assumption)
    | exact rfl
    | intro _
    | dsimp only
    | split
    | with_reducible apply upd_sup

theorem leaveRun_does {A : List Part} {b₀ : State}  (s : State) 
    (hD : Does A b₀ s) (hA : partsIn [.block 0x08, .block 0x09, .block 0x0C, .free, .strand, .saf, .pair, .can, .sup, .out] A = true) : Does A b₀ (leaveRun s) := by
  unfold leaveRun
  repeat' first
    | with_reducible assumption
    | with_reducible apply onPair_does
    | with_reducible apply onlyIf_does
    | with_reducible apply pairTo_does
    | with_reducible apply releaseAuth_does
    | with_reducible apply safEbb_does
    | ((with_reducible refine listed_block 8 ?_ ?_ hA); first | omega | (dsimp only [Fld.PAIR_STATE_STATE, pairState]; omega) | (dsimp only [Fld.PAIR_STATE_STATE, pairState]; split <;> omega); exact rfl)
    | ((with_reducible refine listed_block 9 ?_ ?_ hA); first | omega | (dsimp only [Fld.PAIR_STATE_STATE, pairState]; omega) | (dsimp only [Fld.PAIR_STATE_STATE, pairState]; split <;> omega); exact rfl)
    | ((with_reducible refine listed_block 12 ?_ ?_ hA); first | omega | (dsimp only [Fld.PAIR_STATE_STATE, pairState]; omega) | (dsimp only [Fld.PAIR_STATE_STATE, pairState]; split <;> omega); exact rfl)
    | ((with_reducible refine partsIn_trans ?_ hA); exact rfl)
    | ((with_reducible refine listed_code ?_ hA); exact rfl)
    | exact fun (h : Sparse.wf _ _ = true) => h
    | with_reducible apply next_does
    | with_reducible apply id_does
    | with_reducible apply ite_does
    | with_reducible apply iteO_does
    | (apply Sparse.wf_set; assumption)
    | exact rfl
    | intro _
    | dsimp only
    | split
    | with_reducible apply upd_sup

theorem switchOff_does {A : List Part} {b₀ : State}  (s : State) 
    (hD : Does A b₀ s) (hA : partsIn [.blocks, .master, .host, .time, .free, .mem, .strand, .tides, .tideTable, .seqs, .exe, .loop, .dio, .rfx, .ana, .saf, .triad, .pair, .net, .can, .lcy, .fwu, .sup, .mpu, .mbx, .queSeq, .out] A = true) : Does A b₀ (switchOff s) := by
  unfold switchOff
  repeat' first
    | with_reducible assumption
    | with_reducible apply memLost_does
    | with_reducible apply moduleReset_does
    | with_reducible apply setFld_does
    | ((with_reducible refine listed_blocks ?_ hA); exact rfl)
    | ((with_reducible refine partsIn_trans ?_ hA); exact rfl)
    | ((with_reducible refine listed_code ?_ hA); exact rfl)
    | exact fun (h : Sparse.wf _ _ = true) => h
    | with_reducible apply next_does
    | with_reducible apply id_does
    | with_reducible apply ite_does
    | with_reducible apply iteO_does
    | (apply Sparse.wf_set; assumption)
    | exact rfl
    | intro _
    | dsimp only
    | split
    | with_reducible apply upd_sup

theorem powerLeave_does {A : List Part} {b₀ : State} (next : State → State) (s : State) (h_next : ∀ u, Does A b₀ u → Does A b₀ (next u))
    (hD : Does A b₀ s) (hA : partsIn [.block 0x01, .block 0x08, .block 0x09, .block 0x0C, .free, .strand, .saf, .pair, .can, .sup, .out] A = true) : Does A b₀ (powerLeave next s) := by
  unfold powerLeave
  repeat' first
    | with_reducible assumption
    | with_reducible apply h_next
    | with_reducible apply leaveRun_does
    | with_reducible apply stepDone_does
    | with_reducible apply stepWaits_does
    | with_reducible apply switchAsk_does
    | ((with_reducible refine listed_block 1 ?_ ?_ hA); first | omega | (dsimp only [Fld.PAIR_STATE_AUTH_HELD, Fld.PAIR_STATE_STATE, Fld.SUP_PWR_STATE_STATE, pairState, power]; omega) | (dsimp only [Fld.PAIR_STATE_AUTH_HELD, Fld.PAIR_STATE_STATE, Fld.SUP_PWR_STATE_STATE, pairState, power]; split <;> omega); exact rfl)
    | ((with_reducible refine listed_block 8 ?_ ?_ hA); first | omega | (dsimp only [Fld.PAIR_STATE_AUTH_HELD, Fld.PAIR_STATE_STATE, Fld.SUP_PWR_STATE_STATE, pairState, power]; omega) | (dsimp only [Fld.PAIR_STATE_AUTH_HELD, Fld.PAIR_STATE_STATE, Fld.SUP_PWR_STATE_STATE, pairState, power]; split <;> omega); exact rfl)
    | ((with_reducible refine listed_block 9 ?_ ?_ hA); first | omega | (dsimp only [Fld.PAIR_STATE_AUTH_HELD, Fld.PAIR_STATE_STATE, Fld.SUP_PWR_STATE_STATE, pairState, power]; omega) | (dsimp only [Fld.PAIR_STATE_AUTH_HELD, Fld.PAIR_STATE_STATE, Fld.SUP_PWR_STATE_STATE, pairState, power]; split <;> omega); exact rfl)
    | ((with_reducible refine listed_block 12 ?_ ?_ hA); first | omega | (dsimp only [Fld.PAIR_STATE_AUTH_HELD, Fld.PAIR_STATE_STATE, Fld.SUP_PWR_STATE_STATE, pairState, power]; omega) | (dsimp only [Fld.PAIR_STATE_AUTH_HELD, Fld.PAIR_STATE_STATE, Fld.SUP_PWR_STATE_STATE, pairState, power]; split <;> omega); exact rfl)
    | ((with_reducible refine partsIn_trans ?_ hA); exact rfl)
    | ((with_reducible refine listed_code ?_ hA); exact rfl)
    | exact fun (h : Sparse.wf _ _ = true) => h
    | with_reducible apply next_does
    | with_reducible apply id_does
    | with_reducible apply ite_does
    | with_reducible apply iteO_does
    | (apply Sparse.wf_set; assumption)
    | exact rfl
    | intro _
    | dsimp only
    | split
    | with_reducible apply upd_sup

theorem powerStep_does {A : List Part} {b₀ : State} (next : State → State) (s : State) (h_next : ∀ u, Does A b₀ u → Does A b₀ (next u))
    (hD : Does A b₀ s) (hA : partsIn [.blocks, .master, .host, .time, .free, .mem, .strand, .tides, .tideTable, .seqs, .exe, .loop, .dio, .rfx, .ana, .saf, .triad, .pair, .net, .can, .lcy, .fwu, .sup, .mpu, .mbx, .queSeq, .out] A = true) : Does A b₀ (powerStep next s) := by
  unfold powerStep
  repeat' first
    | with_reducible assumption
    | with_reducible apply h_next
    | with_reducible apply enterHold_does
    | with_reducible apply enterRun_does
    | with_reducible apply powerLeave_does
    | with_reducible apply regionsReset_does
    | with_reducible apply scanLeave_does
    | with_reducible apply stepDone_does
    | with_reducible apply stepIdle_does
    | with_reducible apply stepRefuse_does
    | with_reducible apply stepWaits_does
    | with_reducible apply switchOff_does
    | ((with_reducible refine listed_block 1 ?_ ?_ hA); first | omega | (dsimp only [Fld.SUP_PWR_STATE_STATE, Fld.SUP_PWR_STATE_TARGET, power]; omega) | (dsimp only [Fld.SUP_PWR_STATE_STATE, Fld.SUP_PWR_STATE_TARGET, power]; split <;> omega); exact rfl)
    | ((with_reducible refine listed_blocks ?_ hA); exact rfl)
    | ((with_reducible refine partsIn_trans ?_ hA); exact rfl)
    | ((with_reducible refine listed_code ?_ hA); exact rfl)
    | exact fun (h : Sparse.wf _ _ = true) => h
    | with_reducible apply next_does
    | with_reducible apply id_does
    | with_reducible apply ite_does
    | with_reducible apply iteO_does
    | (apply Sparse.wf_set; assumption)
    | exact rfl
    | intro _
    | dsimp only
    | split

theorem powerWalk_does {A : List Part} {b₀ : State} (n : Nat) (s : State)
    (hD : Does A b₀ s) (hA : partsIn [.blocks, .master, .host, .time, .free, .mem, .strand, .tides, .tideTable, .seqs, .exe, .loop, .dio, .rfx, .ana, .saf, .triad, .pair, .net, .can, .lcy, .fwu, .sup, .mpu, .mbx, .queSeq, .out] A = true) : Does A b₀ (powerWalk n s) := by
  induction n generalizing s with
  | zero => exact hD
  | succ n ih => exact powerStep_does (powerWalk n) s ih hD hA

theorem powerCmd_does {A : List Part} {b₀ : State} (target : Nat) (s : State) 
    (hD : Does A b₀ s) (hA : partsIn [.blocks, .master, .host, .time, .free, .mem, .strand, .tides, .tideTable, .seqs, .exe, .loop, .dio, .rfx, .ana, .saf, .triad, .pair, .net, .can, .lcy, .fwu, .sup, .mpu, .mbx, .queSeq, .out] A = true) : Does A b₀ (powerCmd target s) := by
  unfold powerCmd
  repeat' first
    | with_reducible assumption
    | with_reducible apply hostCmd_does
    | with_reducible apply powerWalk_does
    | with_reducible apply raiseF_does
    | with_reducible apply say_does
    | with_reducible apply setFld_does
    | with_reducible apply stepIdle_does
    | with_reducible apply switchDrop_does
    | ((with_reducible refine listed_block 1 ?_ ?_ hA); first | omega | (dsimp only [Fld.SUP_EVENT_REFUSED, Fld.SUP_PWR_STATE_BUSY, Fld.SUP_PWR_STATE_STATE, Fld.SUP_PWR_STATE_TARGET, Reg.SUP_PWR_CMD, power]; omega) | (dsimp only [Fld.SUP_EVENT_REFUSED, Fld.SUP_PWR_STATE_BUSY, Fld.SUP_PWR_STATE_STATE, Fld.SUP_PWR_STATE_TARGET, Reg.SUP_PWR_CMD, power]; split <;> omega); exact rfl)
    | ((with_reducible refine listed_blocks ?_ hA); exact rfl)
    | ((with_reducible refine partsIn_trans ?_ hA); exact rfl)
    | ((with_reducible refine listed_code ?_ hA); exact rfl)
    | exact fun (h : Sparse.wf _ _ = true) => h
    | with_reducible apply next_does
    | with_reducible apply id_does
    | with_reducible apply ite_does
    | with_reducible apply iteO_does
    | (apply Sparse.wf_set; assumption)
    | exact rfl
    | intro _
    | dsimp only
    | split

theorem powerContinue_does {A : List Part} {b₀ : State}  (s : State) 
    (hD : Does A b₀ s) (hA : partsIn [.blocks, .master, .host, .time, .free, .mem, .strand, .tides, .tideTable, .seqs, .exe, .loop, .dio, .rfx, .ana, .saf, .triad, .pair, .net, .can, .lcy, .fwu, .sup, .mpu, .mbx, .queSeq, .out] A = true) : Does A b₀ (powerContinue s) := by
  unfold powerContinue
  repeat' first
    | with_reducible assumption
    | with_reducible apply powerWalk_does
    | ((with_reducible refine listed_block 1 ?_ ?_ hA); first | omega | (dsimp only [Fld.SUP_PWR_STATE_STATE, power]; omega) | (dsimp only [Fld.SUP_PWR_STATE_STATE, power]; split <;> omega); exact rfl)
    | ((with_reducible refine listed_blocks ?_ hA); exact rfl)
    | ((with_reducible refine partsIn_trans ?_ hA); exact rfl)
    | ((with_reducible refine listed_code ?_ hA); exact rfl)
    | exact fun (h : Sparse.wf _ _ = true) => h
    | with_reducible apply next_does
    | with_reducible apply id_does
    | with_reducible apply ite_does
    | with_reducible apply iteO_does
    | (apply Sparse.wf_set; assumption)
    | exact rfl
    | intro _
    | dsimp only
    | split

theorem execPowerCmdOff_does {A : List Part} {b₀ : State}  (s : State) 
    (hD : Does A b₀ s) (hA : partsIn [.blocks, .master, .host, .time, .free, .mem, .strand, .tides, .tideTable, .seqs, .exe, .loop, .dio, .rfx, .ana, .saf, .triad, .pair, .net, .can, .lcy, .fwu, .sup, .mpu, .mbx, .queSeq, .out] A = true) : DoesO A b₀ (execPowerCmdOff s) := by
  unfold execPowerCmdOff
  repeat' first
    | with_reducible assumption
    | with_reducible apply powerCmd_does
    | ((with_reducible refine listed_blocks ?_ hA); exact rfl)
    | ((with_reducible refine partsIn_trans ?_ hA); exact rfl)
    | ((with_reducible refine listed_code ?_ hA); exact rfl)
    | exact fun (h : Sparse.wf _ _ = true) => h
    | with_reducible apply next_does
    | with_reducible apply id_does
    | with_reducible apply ite_does
    | with_reducible apply iteO_does
    | (apply Sparse.wf_set; assumption)
    | exact rfl
    | intro _
    | dsimp only
    | split

theorem execPowerCmdQuiet_does {A : List Part} {b₀ : State}  (s : State) 
    (hD : Does A b₀ s) (hA : partsIn [.blocks, .master, .host, .time, .free, .mem, .strand, .tides, .tideTable, .seqs, .exe, .loop, .dio, .rfx, .ana, .saf, .triad, .pair, .net, .can, .lcy, .fwu, .sup, .mpu, .mbx, .queSeq, .out] A = true) : DoesO A b₀ (execPowerCmdQuiet s) := by
  unfold execPowerCmdQuiet
  repeat' first
    | with_reducible assumption
    | with_reducible apply powerCmd_does
    | ((with_reducible refine listed_blocks ?_ hA); exact rfl)
    | ((with_reducible refine partsIn_trans ?_ hA); exact rfl)
    | ((with_reducible refine listed_code ?_ hA); exact rfl)
    | exact fun (h : Sparse.wf _ _ = true) => h
    | with_reducible apply next_does
    | with_reducible apply id_does
    | with_reducible apply ite_does
    | with_reducible apply iteO_does
    | (apply Sparse.wf_set; assumption)
    | exact rfl
    | intro _
    | dsimp only
    | split

theorem execPowerCmdReady_does {A : List Part} {b₀ : State}  (s : State) 
    (hD : Does A b₀ s) (hA : partsIn [.blocks, .master, .host, .time, .free, .mem, .strand, .tides, .tideTable, .seqs, .exe, .loop, .dio, .rfx, .ana, .saf, .triad, .pair, .net, .can, .lcy, .fwu, .sup, .mpu, .mbx, .queSeq, .out] A = true) : DoesO A b₀ (execPowerCmdReady s) := by
  unfold execPowerCmdReady
  repeat' first
    | with_reducible assumption
    | with_reducible apply powerCmd_does
    | ((with_reducible refine listed_blocks ?_ hA); exact rfl)
    | ((with_reducible refine partsIn_trans ?_ hA); exact rfl)
    | ((with_reducible refine listed_code ?_ hA); exact rfl)
    | exact fun (h : Sparse.wf _ _ = true) => h
    | with_reducible apply next_does
    | with_reducible apply id_does
    | with_reducible apply ite_does
    | with_reducible apply iteO_does
    | (apply Sparse.wf_set; assumption)
    | exact rfl
    | intro _
    | dsimp only
    | split

theorem execPowerCmdRun_does {A : List Part} {b₀ : State}  (s : State) 
    (hD : Does A b₀ s) (hA : partsIn [.blocks, .master, .host, .time, .free, .mem, .strand, .tides, .tideTable, .seqs, .exe, .loop, .dio, .rfx, .ana, .saf, .triad, .pair, .net, .can, .lcy, .fwu, .sup, .mpu, .mbx, .queSeq, .out] A = true) : DoesO A b₀ (execPowerCmdRun s) := by
  unfold execPowerCmdRun
  repeat' first
    | with_reducible assumption
    | with_reducible apply powerCmd_does
    | ((with_reducible refine listed_blocks ?_ hA); exact rfl)
    | ((with_reducible refine partsIn_trans ?_ hA); exact rfl)
    | ((with_reducible refine listed_code ?_ hA); exact rfl)
    | exact fun (h : Sparse.wf _ _ = true) => h
    | with_reducible apply next_does
    | with_reducible apply id_does
    | with_reducible apply ite_does
    | with_reducible apply iteO_does
    | (apply Sparse.wf_set; assumption)
    | exact rfl
    | intro _
    | dsimp only
    | split

theorem execPowerCmdHold_does {A : List Part} {b₀ : State}  (s : State) 
    (hD : Does A b₀ s) (hA : partsIn [.blocks, .master, .host, .time, .free, .mem, .strand, .tides, .tideTable, .seqs, .exe, .loop, .dio, .rfx, .ana, .saf, .triad, .pair, .net, .can, .lcy, .fwu, .sup, .mpu, .mbx, .queSeq, .out] A = true) : DoesO A b₀ (execPowerCmdHold s) := by
  unfold execPowerCmdHold
  repeat' first
    | with_reducible assumption
    | with_reducible apply powerCmd_does
    | ((with_reducible refine listed_blocks ?_ hA); exact rfl)
    | ((with_reducible refine partsIn_trans ?_ hA); exact rfl)
    | ((with_reducible refine listed_code ?_ hA); exact rfl)
    | exact fun (h : Sparse.wf _ _ = true) => h
    | with_reducible apply next_does
    | with_reducible apply id_does
    | with_reducible apply ite_does
    | with_reducible apply iteO_does
    | (apply Sparse.wf_set; assumption)
    | exact rfl
    | intro _
    | dsimp only
    | split

theorem programLoad_does {A : List Part} {b₀ : State} (pass : Bool) (s : State) 
    (hD : Does A b₀ s) (hA : partsIn [.block 0x00, .block 0x03, .block 0x04, .block 0x05, .block 0x07, .block 0x0B, .block 0x0F, .free, .strand, .exe, .loop, .dio, .rfx, .net, .can, .mpu, .out] A = true) : Does A b₀ (programLoad pass s) := by
  unfold programLoad
  repeat' first
    | with_reducible assumption
    | with_reducible apply switchTo_does
    | ((with_reducible refine partsIn_trans ?_ hA); exact rfl)
    | ((with_reducible refine listed_code ?_ hA); exact rfl)
    | exact fun (h : Sparse.wf _ _ = true) => h
    | with_reducible apply next_does
    | with_reducible apply id_does
    | with_reducible apply ite_does
    | with_reducible apply iteO_does
    | (apply Sparse.wf_set; assumption)
    | exact rfl
    | intro _
    | dsimp only
    | split
    | with_reducible apply upd_exe

theorem execReadyRestartDone_does {A : List Part} {b₀ : State} (bist : TriadBist) (prog : Bool) (s : State) 
    (hD : Does A b₀ s) (hA : partsIn [.blocks, .master, .host, .time, .free, .mem, .strand, .backup, .tides, .tideTable, .seqs, .exe, .loop, .dio, .rfx, .ana, .saf, .triad, .pair, .net, .can, .lcy, .fwu, .sup, .mpu, .mbx, .queSeq, .out] A = true) : DoesO A b₀ (execReadyRestartDone bist prog s) := by
  unfold execReadyRestartDone
  repeat' first
    | with_reducible assumption
    | with_reducible apply pairStart_does
    | with_reducible apply powerWalk_does
    | with_reducible apply programLoad_does
    | with_reducible apply regionsReset_does
    | with_reducible apply safStart_does
    | with_reducible apply safeConfig_does
    | with_reducible apply sessionClose_does
    | with_reducible apply setFlag_does
    | with_reducible apply setFld_does
    | with_reducible apply stepDone_does
    | with_reducible apply triadStart_does
    | ((with_reducible refine listed_block 1 ?_ ?_ hA); first | omega | (dsimp only [Fld.EXE_CFG_CHANGE_MODE, Fld.SUP_PWR_STATE_STATE, power]; omega) | (dsimp only [Fld.EXE_CFG_CHANGE_MODE, Fld.SUP_PWR_STATE_STATE, power]; split <;> omega); exact rfl)
    | ((with_reducible refine listed_block 3 ?_ ?_ hA); first | omega | (dsimp only [Fld.EXE_CFG_CHANGE_MODE, Fld.SUP_PWR_STATE_STATE, power]; omega) | (dsimp only [Fld.EXE_CFG_CHANGE_MODE, Fld.SUP_PWR_STATE_STATE, power]; split <;> omega); exact rfl)
    | ((with_reducible refine listed_blocks ?_ hA); exact rfl)
    | ((with_reducible refine partsIn_trans ?_ hA); exact rfl)
    | ((with_reducible refine listed_code ?_ hA); exact rfl)
    | exact fun (h : Sparse.wf _ _ = true) => h
    | with_reducible apply next_does
    | with_reducible apply id_does
    | with_reducible apply ite_does
    | with_reducible apply iteO_does
    | (apply Sparse.wf_set; assumption)
    | exact rfl
    | intro _
    | dsimp only
    | split
    | with_reducible apply upd_sup

theorem supRefuse_does {A : List Part} {b₀ : State} (st : Status) (s : State) 
    (hD : Does A b₀ s) (hA : partsIn [.block 0x01, .free, .strand, .out] A = true) : Does A b₀ (supRefuse st s) := by
  unfold supRefuse
  repeat' first
    | with_reducible assumption
    | with_reducible apply raiseF_does
    | with_reducible apply result_does
    | ((with_reducible refine partsIn_trans ?_ hA); exact rfl)
    | ((with_reducible refine listed_code ?_ hA); exact rfl)
    | exact fun (h : Sparse.wf _ _ = true) => h
    | with_reducible apply next_does
    | with_reducible apply id_does
    | with_reducible apply ite_does
    | with_reducible apply iteO_does
    | (apply Sparse.wf_set; assumption)
    | exact rfl
    | intro _
    | dsimp only
    | split

theorem execSupReset_does {A : List Part} {b₀ : State} (confirm : Byte) (s : State) 
    (hD : Does A b₀ s) (hA : partsIn [.blocks, .master, .host, .time, .free, .strand, .tides, .tideTable, .seqs, .exe, .loop, .dio, .rfx, .ana, .saf, .triad, .pair, .net, .can, .lcy, .fwu, .sup, .mpu, .mbx, .queSeq, .out] A = true) : DoesO A b₀ (execSupReset confirm s) := by
  unfold execSupReset
  repeat' first
    | with_reducible assumption
    | with_reducible apply hostCmd_does
    | with_reducible apply moduleReset_does
    | with_reducible apply supRefuse_does
    | ((with_reducible refine listed_blocks ?_ hA); exact rfl)
    | ((with_reducible refine partsIn_trans ?_ hA); exact rfl)
    | ((with_reducible refine listed_code ?_ hA); exact rfl)
    | exact fun (h : Sparse.wf _ _ = true) => h
    | with_reducible apply next_does
    | with_reducible apply id_does
    | with_reducible apply ite_does
    | with_reducible apply iteO_does
    | (apply Sparse.wf_set; assumption)
    | exact rfl
    | intro _
    | dsimp only
    | split

theorem recoverRegion_does {A : List Part} {b₀ : State} (r : Nat) (s : State) 
    (hD : Does A b₀ s) (hA : partsIn [.block 0x01, .free, .strand, .sup, .out] A = true) : Does A b₀ (recoverRegion r s) := by
  unfold recoverRegion
  repeat' first
    | with_reducible assumption
    | with_reducible apply raiseF_does
    | with_reducible apply sayRegion_does
    | with_reducible apply setBitAt_does
    | ((with_reducible refine partsIn_trans ?_ hA); exact rfl)
    | ((with_reducible refine listed_code ?_ hA); exact rfl)
    | exact fun (h : Sparse.wf _ _ = true) => h
    | with_reducible apply next_does
    | with_reducible apply id_does
    | with_reducible apply ite_does
    | with_reducible apply iteO_does
    | (apply Sparse.wf_set; assumption)
    | exact rfl
    | intro _
    | dsimp only
    | split
    | with_reducible apply upd_sup

theorem execSupRecover_does {A : List Part} {b₀ : State} (target : Fin 16) (pass : Bool) (s : State) 
    (hD : Does A b₀ s) (hA : partsIn [.block 0x01, .block 0x0F, .free, .strand, .sup, .out] A = true) : DoesO A b₀ (execSupRecover target pass s) := by
  unfold execSupRecover
  repeat' first
    | with_reducible assumption
    | with_reducible apply hostCmd_does
    | with_reducible apply recoverRegion_does
    | with_reducible apply result_does
    | with_reducible apply setFlag_does
    | with_reducible apply supRefuse_does
    | ((with_reducible refine partsIn_trans ?_ hA); exact rfl)
    | ((with_reducible refine listed_code ?_ hA); exact rfl)
    | exact fun (h : Sparse.wf _ _ = true) => h
    | with_reducible apply next_does
    | with_reducible apply id_does
    | with_reducible apply ite_does
    | with_reducible apply iteO_does
    | (apply Sparse.wf_set; assumption)
    | exact rfl
    | intro _
    | dsimp only
    | split

theorem execHostRst_does {A : List Part} {b₀ : State}  (s : State) 
    (hD : Does A b₀ s) (hA : partsIn [.blocks, .master, .host, .time, .free, .strand, .tides, .tideTable, .seqs, .exe, .loop, .dio, .rfx, .ana, .saf, .triad, .pair, .net, .can, .lcy, .fwu, .sup, .mpu, .mbx, .queSeq, .out] A = true) : DoesO A b₀ (execHostRst s) := by
  unfold execHostRst
  repeat' first
    | with_reducible assumption
    | with_reducible apply moduleReset_does
    | ((with_reducible refine listed_blocks ?_ hA); exact rfl)
    | ((with_reducible refine partsIn_trans ?_ hA); exact rfl)
    | ((with_reducible refine listed_code ?_ hA); exact rfl)
    | exact fun (h : Sparse.wf _ _ = true) => h
    | with_reducible apply next_does
    | with_reducible apply id_does
    | with_reducible apply ite_does
    | with_reducible apply iteO_does
    | (apply Sparse.wf_set; assumption)
    | exact rfl
    | intro _
    | dsimp only
    | split

theorem execSupWatchdog_does {A : List Part} {b₀ : State}  (s : State) 
    (hD : Does A b₀ s) (hA : partsIn [.blocks, .master, .host, .time, .free, .strand, .tides, .tideTable, .seqs, .exe, .loop, .dio, .rfx, .ana, .saf, .triad, .pair, .net, .can, .lcy, .fwu, .sup, .mpu, .mbx, .queSeq, .out] A = true) : DoesO A b₀ (execSupWatchdog s) := by
  unfold execSupWatchdog
  repeat' first
    | with_reducible assumption
    | with_reducible apply moduleReset_does
    | ((with_reducible refine listed_blocks ?_ hA); exact rfl)
    | ((with_reducible refine partsIn_trans ?_ hA); exact rfl)
    | ((with_reducible refine listed_code ?_ hA); exact rfl)
    | exact fun (h : Sparse.wf _ _ = true) => h
    | with_reducible apply next_does
    | with_reducible apply id_does
    | with_reducible apply ite_does
    | with_reducible apply iteO_does
    | (apply Sparse.wf_set; assumption)
    | exact rfl
    | intro _
    | dsimp only
    | split

theorem execReseated_does {A : List Part} {b₀ : State}  (s : State) 
    (hD : Does A b₀ s) (hA : partsIn [.blocks, .master, .host, .time, .free, .strand, .tides, .tideTable, .seqs, .exe, .loop, .dio, .rfx, .ana, .saf, .triad, .pair, .net, .can, .lcy, .fwu, .sup, .mpu, .mbx, .queSeq, .out] A = true) : DoesO A b₀ (execReseated s) := by
  unfold execReseated
  repeat' first
    | with_reducible assumption
    | with_reducible apply moduleReset_does
    | ((with_reducible refine listed_blocks ?_ hA); exact rfl)
    | ((with_reducible refine partsIn_trans ?_ hA); exact rfl)
    | ((with_reducible refine listed_code ?_ hA); exact rfl)
    | exact fun (h : Sparse.wf _ _ = true) => h
    | with_reducible apply next_does
    | with_reducible apply id_does
    | with_reducible apply ite_does
    | with_reducible apply iteO_does
    | (apply Sparse.wf_set; assumption)
    | exact rfl
    | intro _
    | dsimp only
    | split
    | with_reducible apply upd_sup

theorem resetRelease_does {A : List Part} {b₀ : State}  (s : State) 
    (hD : Does A b₀ s) (hA : partsIn [.block 0x00, .block 0x09, .block 0x11, .time, .free, .mem, .strand, .backup, .triad, .lcy, .fwu, .sup, .mpu, .out] A = true) : Does A b₀ (resetRelease s) := by
  unfold resetRelease
  repeat' first
    | with_reducible assumption
    | with_reducible apply eraseAll_does
    | with_reducible apply newNonce_does
    | with_reducible apply onlyIf_does
    | with_reducible apply pairStart_does
    | with_reducible apply raiseF_does
    | with_reducible apply say_does
    | with_reducible apply stateBlown_does
    | ((with_reducible refine partsIn_trans ?_ hA); exact rfl)
    | ((with_reducible refine listed_code ?_ hA); exact rfl)
    | exact fun (h : Sparse.wf _ _ = true) => h
    | with_reducible apply next_does
    | with_reducible apply id_does
    | with_reducible apply ite_does
    | with_reducible apply iteO_does
    | (apply Sparse.wf_set; assumption)
    | exact rfl
    | intro _
    | dsimp only
    | split
    | with_reducible apply upd_mtime_strand_sup

theorem execResetRelease_does {A : List Part} {b₀ : State}  (s : State) 
    (hD : Does A b₀ s) (hA : partsIn [.block 0x00, .block 0x09, .block 0x11, .time, .free, .mem, .strand, .backup, .triad, .lcy, .fwu, .sup, .mpu, .out] A = true) : DoesO A b₀ (execResetRelease s) := by
  unfold execResetRelease
  repeat' first
    | with_reducible assumption
    | with_reducible apply resetRelease_does
    | ((with_reducible refine partsIn_trans ?_ hA); exact rfl)
    | ((with_reducible refine listed_code ?_ hA); exact rfl)
    | exact fun (h : Sparse.wf _ _ = true) => h
    | with_reducible apply next_does
    | with_reducible apply id_does
    | with_reducible apply ite_does
    | with_reducible apply iteO_does
    | (apply Sparse.wf_set; assumption)
    | exact rfl
    | intro _
    | dsimp only
    | split

theorem queueLoad_does {A : List Part} {b₀ : State} (l : List (Fin 64 × Word × Word × Word)) (s : State) 
    (hD : Does A b₀ s) (hA : partsIn [.block 0x13, .free, .strand, .out] A = true) : Does A b₀ (queueLoad l s) := by
  unfold queueLoad
  repeat' first
    | with_reducible assumption
    | with_reducible apply forAll_does
    | with_reducible apply say_does
    | with_reducible apply setBitAt_does
    | with_reducible apply wr_does
    | ((with_reducible refine listed_block 19 ?_ ?_ hA); first | omega | (dsimp only [Reg.QUE_EN_HI, Reg.QUE_EN_LO, Reg.QUEq_BASE_HI, Reg.QUEq_BASE_LO, Reg.QUEq_CFG, queEnReg]; omega) | (dsimp only [Reg.QUE_EN_HI, Reg.QUE_EN_LO, Reg.QUEq_BASE_HI, Reg.QUEq_BASE_LO, Reg.QUEq_CFG, queEnReg]; split <;> omega); exact rfl)
    | ((with_reducible refine partsIn_trans ?_ hA); exact rfl)
    | ((with_reducible refine listed_code ?_ hA); exact rfl)
    | exact fun (h : Sparse.wf _ _ = true) => h
    | with_reducible apply next_does
    | with_reducible apply id_does
    | with_reducible apply ite_does
    | with_reducible apply iteO_does
    | (apply Sparse.wf_set; assumption)
    | exact rfl
    | intro _
    | dsimp only
    | split

theorem bindLoad_does {A : List Part} {b₀ : State} (l : List (Fin 24 × Word)) (s : State) 
    (hD : Does A b₀ s) (hA : partsIn [.block 0x10, .free, .strand, .out] A = true) : Does A b₀ (bindLoad l s) := by
  unfold bindLoad
  repeat' first
    | with_reducible assumption
    | with_reducible apply forAll_does
    | with_reducible apply say_does
    | with_reducible apply wr_does
    | ((with_reducible refine listed_block 16 ?_ ?_ hA); first | omega | (dsimp only [Reg.MBXm_BIND]; omega) | (dsimp only [Reg.MBXm_BIND]; split <;> omega); exact rfl)
    | ((with_reducible refine partsIn_trans ?_ hA); exact rfl)
    | ((with_reducible refine listed_code ?_ hA); exact rfl)
    | exact fun (h : Sparse.wf _ _ = true) => h
    | with_reducible apply next_does
    | with_reducible apply id_does
    | with_reducible apply ite_does
    | with_reducible apply iteO_does
    | (apply Sparse.wf_set; assumption)
    | exact rfl
    | intro _
    | dsimp only
    | split

theorem configLoad_does {A : List Part} {b₀ : State}  (s : State) 
    (hD : Does A b₀ s) (hA : partsIn [.block 0x00, .block 0x03, .block 0x10, .free, .strand, .fwu, .out] A = true) : Does A b₀ (configLoad s) := by
  unfold configLoad
  repeat' first
    | with_reducible assumption
    | with_reducible apply bindLoad_does
    | with_reducible apply cfgMigrate_does
    | with_reducible apply say_does
    | with_reducible apply setFlag_does
    | ((with_reducible refine partsIn_trans ?_ hA); exact rfl)
    | ((with_reducible refine listed_code ?_ hA); exact rfl)
    | exact fun (h : Sparse.wf _ _ = true) => h
    | with_reducible apply next_does
    | with_reducible apply id_does
    | with_reducible apply ite_does
    | with_reducible apply iteO_does
    | (apply Sparse.wf_set; assumption)
    | exact rfl
    | intro _
    | dsimp only
    | split

theorem retentionReport_does {A : List Part} {b₀ : State}  (s : State) 
    (hD : Does A b₀ s) (hA : partsIn [.block 0x01, .block 0x0E, .free, .strand, .backup, .mbx, .out] A = true) : Does A b₀ (retentionReport s) := by
  unfold retentionReport
  repeat' first
    | with_reducible assumption
    | with_reducible apply markFallback_does
    | with_reducible apply raiseF_does
    | with_reducible apply say_does
    | ((with_reducible refine partsIn_trans ?_ hA); exact rfl)
    | ((with_reducible refine listed_code ?_ hA); exact rfl)
    | exact fun (h : Sparse.wf _ _ = true) => h
    | with_reducible apply next_does
    | with_reducible apply id_does
    | with_reducible apply ite_does
    | with_reducible apply iteO_does
    | (apply Sparse.wf_set; assumption)
    | exact rfl
    | intro _
    | dsimp only
    | split
    | with_reducible apply upd_backup

theorem fallbackReport_does {A : List Part} {b₀ : State}  (s : State) 
    (hD : Does A b₀ s) (hA : partsIn [.block 0x12, .free, .strand, .fwu, .out] A = true) : Does A b₀ (fallbackReport s) := by
  unfold fallbackReport
  repeat' first
    | with_reducible assumption
    | with_reducible apply bump_does
    | with_reducible apply onFwu_does
    | with_reducible apply raiseF_does
    | with_reducible apply say_does
    | ((with_reducible refine partsIn_trans ?_ hA); exact rfl)
    | ((with_reducible refine listed_code ?_ hA); exact rfl)
    | exact fun (h : Sparse.wf _ _ = true) => h
    | with_reducible apply next_does
    | with_reducible apply id_does
    | with_reducible apply ite_does
    | with_reducible apply iteO_does
    | (apply Sparse.wf_set; assumption)
    | exact rfl
    | intro _
    | dsimp only
    | split

theorem execSupStart_does {A : List Part} {b₀ : State} (runOk : Bool) (otherOk : Bool) (queues : List (Fin 64 × Word × Word × Word)) (s : State) 
    (hD : Does A b₀ s) (hA : partsIn [.block 0x00, .block 0x01, .block 0x03, .block 0x0E, .block 0x10, .block 0x12, .block 0x13, .free, .strand, .backup, .fwu, .sup, .mbx, .out] A = true) : DoesO A b₀ (execSupStart runOk otherOk queues s) := by
  unfold execSupStart
  repeat' first
    | with_reducible assumption
    | with_reducible apply configLoad_does
    | with_reducible apply fallbackReport_does
    | with_reducible apply onFwu_does
    | with_reducible apply queueLoad_does
    | with_reducible apply retentionReport_does
    | with_reducible apply say_does
    | with_reducible apply sayD_does
    | with_reducible apply setFlag_does
    | ((with_reducible refine partsIn_trans ?_ hA); exact rfl)
    | ((with_reducible refine listed_code ?_ hA); exact rfl)
    | exact fun (h : Sparse.wf _ _ = true) => h
    | with_reducible apply next_does
    | with_reducible apply id_does
    | with_reducible apply ite_does
    | with_reducible apply iteO_does
    | (apply Sparse.wf_set; assumption)
    | exact rfl
    | intro _
    | dsimp only
    | split
    | with_reducible apply upd_sup

end Sys2Proof.Machine
end

