-- ==== Sys2Proof/Laws/OnlyStrand.lean ====
section
/-! SUPPORT. What each operation of Machine/Strand.lean can do: the parts of the state it may change, and that it keeps
canonical form. -/
namespace Sys2Proof.Machine

theorem drainTo_does {A : List Part} {b₀ : State} (q : Nat) (r : StrRec) (s : State) 
    (hD : Does A b₀ s) (hA : partsIn [.block 0x0D, .block 0x13, .free, .mem, .strand, .queSeq, .out] A = true) : Does A b₀ (drainTo q r s) := by
  unfold drainTo
  repeat' first
    | with_reducible assumption
    | with_reducible apply bump_does
    | with_reducible apply quePush_does
    | ((with_reducible refine partsIn_trans ?_ hA); exact rfl)
    | ((with_reducible refine listed_code ?_ hA); exact rfl)
    | exact fun (h : Sparse.wf _ _ = true) => h
    | with_reducible apply next_does
    | with_reducible apply id_does
    | with_reducible apply ite_does
    | with_reducible apply iteO_does
    | (apply Sparse.wf_set; assumption)
    | exact rfl
    | intro _
    | dsimp only
    | split
    | with_reducible apply upd_strand

theorem ringPut_does {A : List Part} {b₀ : State} (r : StrRec) (s : State) 
    (hD : Does A b₀ s) (hA : partsIn [.block 0x0D, .block 0x13, .free, .mem, .strand, .queSeq, .out] A = true) : Does A b₀ (ringPut r s) := by
  unfold ringPut
  repeat' first
    | with_reducible assumption
    | with_reducible apply drainTo_does
    | with_reducible apply msetBytes_does
    | with_reducible apply onlyIf_does
    | ((with_reducible refine partsIn_trans ?_ hA); exact rfl)
    | ((with_reducible refine listed_code ?_ hA); exact rfl)
    | exact fun (h : Sparse.wf _ _ = true) => h
    | with_reducible apply next_does
    | with_reducible apply id_does
    | with_reducible apply ite_does
    | with_reducible apply iteO_does
    | (apply Sparse.wf_set; assumption)
    | exact rfl
    | intro _
    | dsimp only
    | split
    | with_reducible apply upd_strand

theorem sayLost_does {A : List Part} {b₀ : State}  (s : State) 
    (hD : Does A b₀ s) (hA : partsIn [.strand, .out] A = true) : Does A b₀ (sayLost s) := by
  unfold sayLost
  repeat' first
    | with_reducible assumption
    | with_reducible apply strAccept_does
    | ((with_reducible refine partsIn_trans ?_ hA); exact rfl)
    | ((with_reducible refine listed_code ?_ hA); exact rfl)
    | exact fun (h : Sparse.wf _ _ = true) => h
    | with_reducible apply next_does
    | with_reducible apply id_does
    | with_reducible apply ite_does
    | with_reducible apply iteO_does
    | (apply Sparse.wf_set; assumption)
    | exact rfl
    | intro _
    | dsimp only
    | split
    | with_reducible apply upd_strand

theorem execStrandlineRingWrite_does {A : List Part} {b₀ : State}  (s : State) 
    (hD : Does A b₀ s) (hA : partsIn [.block 0x0D, .block 0x13, .free, .mem, .strand, .queSeq, .out] A = true) : DoesO A b₀ (execStrandlineRingWrite s) := by
  unfold execStrandlineRingWrite
  repeat' first
    | with_reducible assumption
    | with_reducible apply ringPut_does
    | with_reducible apply sayLost_does
    | ((with_reducible refine partsIn_trans ?_ hA); exact rfl)
    | ((with_reducible refine listed_code ?_ hA); exact rfl)
    | exact fun (h : Sparse.wf _ _ = true) => h
    | with_reducible apply next_does
    | with_reducible apply id_does
    | with_reducible apply ite_does
    | with_reducible apply iteO_does
    | (apply Sparse.wf_set; assumption)
    | exact rfl
    | intro _
    | dsimp only
    | split
    | with_reducible apply upd_strand

theorem strResult_does {A : List Part} {b₀ : State} (st : Status) (s : State) 
    (hD : Does A b₀ s) (hA : partsIn [.block 0x0D, .free, .strand, .out] A = true) : Does A b₀ (strResult st s) := by
  unfold strResult
  repeat' first
    | with_reducible assumption
    | with_reducible apply result_does
    | ((with_reducible refine partsIn_trans ?_ hA); exact rfl)
    | ((with_reducible refine listed_code ?_ hA); exact rfl)
    | exact fun (h : Sparse.wf _ _ = true) => h
    | with_reducible apply next_does
    | with_reducible apply id_does
    | with_reducible apply ite_does
    | with_reducible apply iteO_does
    | (apply Sparse.wf_set; assumption)
    | exact rfl
    | intro _
    | dsimp only
    | split

theorem strFreeze_does {A : List Part} {b₀ : State}  (s : State) 
    (hD : Does A b₀ s) (hA : partsIn [.block 0x0D, .block 0x13, .free, .mem, .strand, .queSeq, .out] A = true) : Does A b₀ (strFreeze s) := by
  unfold strFreeze
  repeat' first
    | with_reducible assumption
    | with_reducible apply forAll_does
    | with_reducible apply ringPut_does
    | with_reducible apply say_does
    | with_reducible apply sayLost_does
    | with_reducible apply strEvent_does
    | with_reducible apply strResult_does
    | ((with_reducible refine partsIn_trans ?_ hA); exact rfl)
    | ((with_reducible refine listed_code ?_ hA); exact rfl)
    | exact fun (h : Sparse.wf _ _ = true) => h
    | with_reducible apply next_does
    | with_reducible apply id_does
    | with_reducible apply ite_does
    | with_reducible apply iteO_does
    | (apply Sparse.wf_set; assumption)
    | exact rfl
    | intro _
    | dsimp only
    | split
    | with_reducible apply upd_strand

theorem execStrFreeze_does {A : List Part} {b₀ : State}  (s : State) 
    (hD : Does A b₀ s) (hA : partsIn [.block 0x0D, .block 0x0F, .block 0x13, .free, .mem, .strand, .queSeq, .out] A = true) : DoesO A b₀ (execStrFreeze s) := by
  unfold execStrFreeze
  repeat' first
    | with_reducible assumption
    | with_reducible apply hostCmd_does
    | with_reducible apply strFreeze_does
    | with_reducible apply strResult_does
    | ((with_reducible refine partsIn_trans ?_ hA); exact rfl)
    | ((with_reducible refine listed_code ?_ hA); exact rfl)
    | exact fun (h : Sparse.wf _ _ = true) => h
    | with_reducible apply next_does
    | with_reducible apply id_does
    | with_reducible apply ite_does
    | with_reducible apply iteO_does
    | (apply Sparse.wf_set; assumption)
    | exact rfl
    | intro _
    | dsimp only
    | split

theorem strBeginAppend_does {A : List Part} {b₀ : State}  (s : State) 
    (hD : Does A b₀ s) (hA : partsIn [.strand, .out] A = true) : Does A b₀ (strBeginAppend s) := by
  unfold strBeginAppend
  repeat' first
    | with_reducible assumption
    | with_reducible apply strEvent_does
    | ((with_reducible refine partsIn_trans ?_ hA); exact rfl)
    | ((with_reducible refine listed_code ?_ hA); exact rfl)
    | exact fun (h : Sparse.wf _ _ = true) => h
    | with_reducible apply next_does
    | with_reducible apply id_does
    | with_reducible apply ite_does
    | with_reducible apply iteO_does
    | (apply Sparse.wf_set; assumption)
    | exact rfl
    | intro _
    | dsimp only
    | split
    | with_reducible apply upd_strand

theorem execStrThaw_does {A : List Part} {b₀ : State} (tie : Bool) (s : State) 
    (hD : Does A b₀ s) (hA : partsIn [.block 0x0D, .block 0x0F, .free, .strand, .out] A = true) : DoesO A b₀ (execStrThaw tie s) := by
  unfold execStrThaw
  repeat' first
    | with_reducible assumption
    | with_reducible apply bump_does
    | with_reducible apply hostCmd_does
    | with_reducible apply onlyIf_does
    | with_reducible apply say_does
    | with_reducible apply strBeginAppend_does
    | with_reducible apply strResult_does
    | ((with_reducible refine partsIn_trans ?_ hA); exact rfl)
    | ((with_reducible refine listed_code ?_ hA); exact rfl)
    | exact fun (h : Sparse.wf _ _ = true) => h
    | with_reducible apply next_does
    | with_reducible apply id_does
    | with_reducible apply ite_does
    | with_reducible apply iteO_does
    | (apply Sparse.wf_set; assumption)
    | exact rfl
    | intro _
    | dsimp only
    | split

theorem execStrThawAppendDone_does {A : List Part} {b₀ : State}  (s : State) 
    (hD : Does A b₀ s) (hA : partsIn [.block 0x0D, .block 0x13, .free, .mem, .strand, .queSeq, .out] A = true) : DoesO A b₀ (execStrThawAppendDone s) := by
  unfold execStrThawAppendDone
  repeat' first
    | with_reducible assumption
    | with_reducible apply forAll_does
    | with_reducible apply ringPut_does
    | with_reducible apply sayLost_does
    | ((with_reducible refine partsIn_trans ?_ hA); exact rfl)
    | ((with_reducible refine listed_code ?_ hA); exact rfl)
    | exact fun (h : Sparse.wf _ _ = true) => h
    | with_reducible apply next_does
    | with_reducible apply id_does
    | with_reducible apply ite_does
    | with_reducible apply iteO_does
    | (apply Sparse.wf_set; assumption)
    | exact rfl
    | intro _
    | dsimp only
    | split
    | with_reducible apply upd_strand

theorem execStrFreezeExpired_does {A : List Part} {b₀ : State}  (s : State) 
    (hD : Does A b₀ s) (hA : partsIn [.free, .strand, .out] A = true) : DoesO A b₀ (execStrFreezeExpired s) := by
  unfold execStrFreezeExpired
  repeat' first
    | with_reducible assumption
    | with_reducible apply say_does
    | with_reducible apply strBeginAppend_does
    | with_reducible apply strEvent_does
    | ((with_reducible refine partsIn_trans ?_ hA); exact rfl)
    | ((with_reducible refine listed_code ?_ hA); exact rfl)
    | exact fun (h : Sparse.wf _ _ = true) => h
    | with_reducible apply next_does
    | with_reducible apply id_does
    | with_reducible apply ite_does
    | with_reducible apply iteO_does
    | (apply Sparse.wf_set; assumption)
    | exact rfl
    | intro _
    | dsimp only
    | split

theorem readRecord_does {A : List Part} {b₀ : State} (i : Nat) (ones : Bool) (s : State) 
    (hD : Does A b₀ s) (hA : partsIn [.block 0x0D] A = true) : Does A b₀ (readRecord i ones s) := by
  unfold readRecord
  repeat' first
    | with_reducible assumption
    | with_reducible apply forAll_does
    | with_reducible apply wr_does
    | ((with_reducible refine listed_block 13 ?_ ?_ hA); first | omega | (dsimp only [Reg.STR_REC]; omega) | (dsimp only [Reg.STR_REC]; split <;> omega); exact rfl)
    | ((with_reducible refine partsIn_trans ?_ hA); exact rfl)
    | ((with_reducible refine listed_code ?_ hA); exact rfl)
    | exact fun (h : Sparse.wf _ _ = true) => h
    | with_reducible apply next_does
    | with_reducible apply id_does
    | with_reducible apply ite_does
    | with_reducible apply iteO_does
    | (apply Sparse.wf_set; assumption)
    | exact rfl
    | intro _
    | dsimp only
    | split

theorem execStrRead_does {A : List Part} {b₀ : State} (uncorr : Bool) (s : State) 
    (hD : Does A b₀ s) (hA : partsIn [.block 0x0D, .block 0x0F, .free, .strand, .out] A = true) : DoesO A b₀ (execStrRead uncorr s) := by
  unfold execStrRead
  repeat' first
    | with_reducible assumption
    | with_reducible apply hostCmd_does
    | with_reducible apply readRecord_does
    | with_reducible apply sayD_does
    | with_reducible apply setFld_does
    | with_reducible apply strEvent_does
    | with_reducible apply strResult_does
    | ((with_reducible refine partsIn_trans ?_ hA); exact rfl)
    | ((with_reducible refine listed_code ?_ hA); exact rfl)
    | exact fun (h : Sparse.wf _ _ = true) => h
    | with_reducible apply next_does
    | with_reducible apply id_does
    | with_reducible apply ite_does
    | with_reducible apply iteO_does
    | (apply Sparse.wf_set; assumption)
    | exact rfl
    | intro _
    | dsimp only
    | split

theorem execStrLog_does {A : List Part} {b₀ : State}  (s : State) 
    (hD : Does A b₀ s) (hA : partsIn [.block 0x0D, .block 0x0F, .free, .strand, .out] A = true) : DoesO A b₀ (execStrLog s) := by
  unfold execStrLog
  repeat' first
    | with_reducible assumption
    | with_reducible apply hostCmd_does
    | with_reducible apply present_does
    | with_reducible apply strResult_does
    | ((with_reducible refine partsIn_trans ?_ hA); exact rfl)
    | ((with_reducible refine listed_code ?_ hA); exact rfl)
    | exact fun (h : Sparse.wf _ _ = true) => h
    | with_reducible apply next_does
    | with_reducible apply id_does
    | with_reducible apply ite_does
    | with_reducible apply iteO_does
    | (apply Sparse.wf_set; assumption)
    | exact rfl
    | intro _
    | dsimp only
    | split

theorem answerRequest_does {A : List Part} {b₀ : State} (first : Word) (count : Nat) (s : State) 
    (hD : Does A b₀ s) (hA : partsIn [.block 0x13, .free, .mem, .strand, .queSeq, .out] A = true) : Does A b₀ (answerRequest first count s) := by
  unfold answerRequest
  repeat' first
    | with_reducible assumption
    | with_reducible apply forAll_does
    | with_reducible apply quePush_does
    | ((with_reducible refine partsIn_trans ?_ hA); exact rfl)
    | ((with_reducible refine listed_code ?_ hA); exact rfl)
    | exact fun (h : Sparse.wf _ _ = true) => h
    | with_reducible apply next_does
    | with_reducible apply id_does
    | with_reducible apply ite_does
    | with_reducible apply iteO_does
    | (apply Sparse.wf_set; assumption)
    | exact rfl
    | intro _
    | dsimp only
    | split

theorem execStrandlineRequest_does {A : List Part} {b₀ : State} (first : Word) (count : Nat) (s : State) 
    (hD : Does A b₀ s) (hA : partsIn [.block 0x13, .free, .mem, .strand, .queSeq, .out] A = true) : DoesO A b₀ (execStrandlineRequest first count s) := by
  unfold execStrandlineRequest
  repeat' first
    | with_reducible assumption
    | with_reducible apply answerRequest_does
    | with_reducible apply queTake_does
    | ((with_reducible refine partsIn_trans ?_ hA); exact rfl)
    | ((with_reducible refine listed_code ?_ hA); exact rfl)
    | exact fun (h : Sparse.wf _ _ = true) => h
    | with_reducible apply next_does
    | with_reducible apply id_does
    | with_reducible apply ite_does
    | with_reducible apply iteO_does
    | (apply Sparse.wf_set; assumption)
    | exact rfl
    | intro _
    | dsimp only
    | split

theorem execStrDrainSkip_does {A : List Part} {b₀ : State}  (s : State) 
    (hD : Does A b₀ s) (hA : partsIn [.free, .strand, .out] A = true) : DoesO A b₀ (execStrDrainSkip s) := by
  unfold execStrDrainSkip
  repeat' first
    | with_reducible assumption
    | with_reducible apply say_does
    | with_reducible apply strEvent_does
    | ((with_reducible refine partsIn_trans ?_ hA); exact rfl)
    | ((with_reducible refine listed_code ?_ hA); exact rfl)
    | exact fun (h : Sparse.wf _ _ = true) => h
    | with_reducible apply next_does
    | with_reducible apply id_does
    | with_reducible apply ite_does
    | with_reducible apply iteO_does
    | (apply Sparse.wf_set; assumption)
    | exact rfl
    | intro _
    | dsimp only
    | split
    | with_reducible apply upd_strand

theorem startRecord_does {A : List Part} {b₀ : State} (st : Status) (datum : DWord) (stamp : DWord) (s : State) 
    (hD : Does A b₀ s) (hA : partsIn [.block 0x0D, .block 0x13, .free, .mem, .strand, .queSeq, .out] A = true) : Does A b₀ (startRecord st datum stamp s) := by
  unfold startRecord
  repeat' first
    | with_reducible assumption
    | with_reducible apply ringPut_does
    | ((with_reducible refine partsIn_trans ?_ hA); exact rfl)
    | ((with_reducible refine listed_code ?_ hA); exact rfl)
    | exact fun (h : Sparse.wf _ _ = true) => h
    | with_reducible apply next_does
    | with_reducible apply id_does
    | with_reducible apply ite_does
    | with_reducible apply iteO_does
    | (apply Sparse.wf_set; assumption)
    | exact rfl
    | intro _
    | dsimp only
    | split
    | with_reducible apply upd_strand

theorem scanEnd_does {A : List Part} {b₀ : State}  (s : State) 
    (hD : Does A b₀ s) (hA : partsIn [.block 0x0D, .block 0x13, .free, .mem, .strand, .queSeq, .out] A = true) : Does A b₀ (scanEnd s) := by
  unfold scanEnd
  repeat' first
    | with_reducible assumption
    | with_reducible apply bumpBy_does
    | with_reducible apply mclear_does
    | with_reducible apply startRecord_does
    | with_reducible apply strEvent_does
    | ((with_reducible refine partsIn_trans ?_ hA); exact rfl)
    | ((with_reducible refine listed_code ?_ hA); exact rfl)
    | exact fun (h : Sparse.wf _ _ = true) => h
    | with_reducible apply next_does
    | with_reducible apply id_does
    | with_reducible apply ite_does
    | with_reducible apply iteO_does
    | (apply Sparse.wf_set; assumption)
    | exact rfl
    | intro _
    | dsimp only
    | split
    | with_reducible apply upd_strand

theorem execStrandlineScanEnd_does {A : List Part} {b₀ : State}  (s : State) 
    (hD : Does A b₀ s) (hA : partsIn [.block 0x0D, .block 0x13, .free, .mem, .strand, .queSeq, .out] A = true) : DoesO A b₀ (execStrandlineScanEnd s) := by
  unfold execStrandlineScanEnd
  repeat' first
    | with_reducible assumption
    | with_reducible apply scanEnd_does
    | ((with_reducible refine partsIn_trans ?_ hA); exact rfl)
    | ((with_reducible refine listed_code ?_ hA); exact rfl)
    | exact fun (h : Sparse.wf _ _ = true) => h
    | with_reducible apply next_does
    | with_reducible apply id_does
    | with_reducible apply ite_does
    | with_reducible apply iteO_does
    | (apply Sparse.wf_set; assumption)
    | exact rfl
    | intro _
    | dsimp only
    | split

theorem execStrRlCfgWrite_does {A : List Part} {b₀ : State} (value : Word) (s : State) 
    (hD : Does A b₀ s) (hA : partsIn [.block 0x0F, .strand, .out] A = true) : DoesO A b₀ (execStrRlCfgWrite value s) := by
  unfold execStrRlCfgWrite
  repeat' first
    | with_reducible assumption
    | with_reducible apply hostCmd_does
    | ((with_reducible refine partsIn_trans ?_ hA); exact rfl)
    | ((with_reducible refine listed_code ?_ hA); exact rfl)
    | exact fun (h : Sparse.wf _ _ = true) => h
    | with_reducible apply next_does
    | with_reducible apply id_does
    | with_reducible apply ite_does
    | with_reducible apply iteO_does
    | (apply Sparse.wf_set; assumption)
    | exact rfl
    | intro _
    | dsimp only
    | split
    | with_reducible apply upd_strand

end Sys2Proof.Machine
end

