-- ==== Sys2Proof/Laws/OnlyAccess.lean ====
section
/-! SUPPORT. What each operation of Machine/Access.lean can do: the parts of the state it may change, and that it keeps
canonical form. -/
namespace Sys2Proof.Machine

theorem writeByCode_does {A : List Part} {b₀ : State} (r : RegRow) (a : Nat) (v : Word) (hw : Word) (s : State) (hp_a : (Part.block (a / 65536)).listed A = true)
    (hD : Does A b₀ s) : Does A b₀ (writeByCode r a v hw s) := by
  unfold writeByCode
  repeat' first
    | with_reducible assumption
    | with_reducible exact hp_a
    | with_reducible apply wr_does
    | exact fun (h : Sparse.wf _ _ = true) => h
    | with_reducible apply next_does
    | with_reducible apply id_does
    | with_reducible apply ite_does
    | with_reducible apply iteO_does
    | (apply Sparse.wf_set; assumption)
    | exact rfl
    | intro _
    | dsimp only
    | split

theorem writeStaged_does {A : List Part} {b₀ : State} (f : Desc → Desc) (s : State) 
    (hD : Does A b₀ s) (hA : partsIn [.mpu] A = true) : Does A b₀ (writeStaged f s) := by
  unfold writeStaged
  repeat' first
    | with_reducible assumption
    | with_reducible apply stageDesc_does
    | with_reducible apply stagePaint_does
    | ((with_reducible refine partsIn_trans ?_ hA); exact rfl)
    | ((with_reducible refine listed_code ?_ hA); exact rfl)
    | exact fun (h : Sparse.wf _ _ = true) => h
    | with_reducible apply next_does
    | with_reducible apply id_does
    | with_reducible apply ite_does
    | with_reducible apply iteO_does
    | (apply Sparse.wf_set; assumption)
    | exact rfl
    | intro _
    | dsimp only
    | split

theorem writeReg_does {A : List Part} {b₀ : State} (a : Nat) (v : Word) (hw : Word) (s : State) 
    (hD : Does A b₀ s) (hA : partsIn [.blocks, .free, .strand, .backup, .dio, .mpu, .out] A = true) : Does A b₀ (writeReg a v hw s) := by
  unfold writeReg
  repeat' first
    | with_reducible assumption
    | with_reducible apply onDioBank_does
    | with_reducible apply onlyIf_does
    | with_reducible apply raiseF_does
    | with_reducible apply say_does
    | with_reducible apply stageCfg_does
    | with_reducible apply withIrq_does
    | with_reducible apply writeByCode_does
    | with_reducible apply writeStaged_does
    | ((with_reducible refine listed_block 1 ?_ ?_ hA); first | omega | (dsimp only [Fld.DIO_BANKk_CFG_EN, Fld.DIO_BANKk_CFG_REEN_TAG, Fld.MPU_STG_SEL_MASTER, Fld.SUP_EVENT_REFUSED, Fld.TRBb_STATUS_RUN, Reg.CAN_HP_EVENT, Reg.CAN_HP_IRQ_EN, Reg.CLK_TRIM, Reg.MPU_STG_MCFG, Reg.MPU_STG_W0, Reg.MPU_STG_W1, Reg.MPU_STG_W2, Reg.STR_EVENT, Reg.SUP_PWR_CMD, vectorOf]; omega) | (dsimp only [Fld.DIO_BANKk_CFG_EN, Fld.DIO_BANKk_CFG_REEN_TAG, Fld.MPU_STG_SEL_MASTER, Fld.SUP_EVENT_REFUSED, Fld.TRBb_STATUS_RUN, Reg.CAN_HP_EVENT, Reg.CAN_HP_IRQ_EN, Reg.CLK_TRIM, Reg.MPU_STG_MCFG, Reg.MPU_STG_W0, Reg.MPU_STG_W1, Reg.MPU_STG_W2, Reg.STR_EVENT, Reg.SUP_PWR_CMD, vectorOf]; split <;> omega); exact rfl)
    | ((with_reducible refine listed_block 4 ?_ ?_ hA); first | omega | (dsimp only [Fld.DIO_BANKk_CFG_EN, Fld.DIO_BANKk_CFG_REEN_TAG, Fld.MPU_STG_SEL_MASTER, Fld.SUP_EVENT_REFUSED, Fld.TRBb_STATUS_RUN, Reg.CAN_HP_EVENT, Reg.CAN_HP_IRQ_EN, Reg.CLK_TRIM, Reg.MPU_STG_MCFG, Reg.MPU_STG_W0, Reg.MPU_STG_W1, Reg.MPU_STG_W2, Reg.STR_EVENT, Reg.SUP_PWR_CMD, vectorOf]; omega) | (dsimp only [Fld.DIO_BANKk_CFG_EN, Fld.DIO_BANKk_CFG_REEN_TAG, Fld.MPU_STG_SEL_MASTER, Fld.SUP_EVENT_REFUSED, Fld.TRBb_STATUS_RUN, Reg.CAN_HP_EVENT, Reg.CAN_HP_IRQ_EN, Reg.CLK_TRIM, Reg.MPU_STG_MCFG, Reg.MPU_STG_W0, Reg.MPU_STG_W1, Reg.MPU_STG_W2, Reg.STR_EVENT, Reg.SUP_PWR_CMD, vectorOf]; split <;> omega); exact rfl)
    | ((with_reducible refine listed_block 5 ?_ ?_ hA); first | omega | (dsimp only [Fld.DIO_BANKk_CFG_EN, Fld.DIO_BANKk_CFG_REEN_TAG, Fld.MPU_STG_SEL_MASTER, Fld.SUP_EVENT_REFUSED, Fld.TRBb_STATUS_RUN, Reg.CAN_HP_EVENT, Reg.CAN_HP_IRQ_EN, Reg.CLK_TRIM, Reg.MPU_STG_MCFG, Reg.MPU_STG_W0, Reg.MPU_STG_W1, Reg.MPU_STG_W2, Reg.STR_EVENT, Reg.SUP_PWR_CMD, vectorOf]; omega) | (dsimp only [Fld.DIO_BANKk_CFG_EN, Fld.DIO_BANKk_CFG_REEN_TAG, Fld.MPU_STG_SEL_MASTER, Fld.SUP_EVENT_REFUSED, Fld.TRBb_STATUS_RUN, Reg.CAN_HP_EVENT, Reg.CAN_HP_IRQ_EN, Reg.CLK_TRIM, Reg.MPU_STG_MCFG, Reg.MPU_STG_W0, Reg.MPU_STG_W1, Reg.MPU_STG_W2, Reg.STR_EVENT, Reg.SUP_PWR_CMD, vectorOf]; split <;> omega); exact rfl)
    | ((with_reducible refine listed_block 12 ?_ ?_ hA); first | omega | (dsimp only [Fld.DIO_BANKk_CFG_EN, Fld.DIO_BANKk_CFG_REEN_TAG, Fld.MPU_STG_SEL_MASTER, Fld.SUP_EVENT_REFUSED, Fld.TRBb_STATUS_RUN, Reg.CAN_HP_EVENT, Reg.CAN_HP_IRQ_EN, Reg.CLK_TRIM, Reg.MPU_STG_MCFG, Reg.MPU_STG_W0, Reg.MPU_STG_W1, Reg.MPU_STG_W2, Reg.STR_EVENT, Reg.SUP_PWR_CMD, vectorOf]; omega) | (dsimp only [Fld.DIO_BANKk_CFG_EN, Fld.DIO_BANKk_CFG_REEN_TAG, Fld.MPU_STG_SEL_MASTER, Fld.SUP_EVENT_REFUSED, Fld.TRBb_STATUS_RUN, Reg.CAN_HP_EVENT, Reg.CAN_HP_IRQ_EN, Reg.CLK_TRIM, Reg.MPU_STG_MCFG, Reg.MPU_STG_W0, Reg.MPU_STG_W1, Reg.MPU_STG_W2, Reg.STR_EVENT, Reg.SUP_PWR_CMD, vectorOf]; split <;> omega); exact rfl)
    | ((with_reducible refine listed_block 13 ?_ ?_ hA); first | omega | (dsimp only [Fld.DIO_BANKk_CFG_EN, Fld.DIO_BANKk_CFG_REEN_TAG, Fld.MPU_STG_SEL_MASTER, Fld.SUP_EVENT_REFUSED, Fld.TRBb_STATUS_RUN, Reg.CAN_HP_EVENT, Reg.CAN_HP_IRQ_EN, Reg.CLK_TRIM, Reg.MPU_STG_MCFG, Reg.MPU_STG_W0, Reg.MPU_STG_W1, Reg.MPU_STG_W2, Reg.STR_EVENT, Reg.SUP_PWR_CMD, vectorOf]; omega) | (dsimp only [Fld.DIO_BANKk_CFG_EN, Fld.DIO_BANKk_CFG_REEN_TAG, Fld.MPU_STG_SEL_MASTER, Fld.SUP_EVENT_REFUSED, Fld.TRBb_STATUS_RUN, Reg.CAN_HP_EVENT, Reg.CAN_HP_IRQ_EN, Reg.CLK_TRIM, Reg.MPU_STG_MCFG, Reg.MPU_STG_W0, Reg.MPU_STG_W1, Reg.MPU_STG_W2, Reg.STR_EVENT, Reg.SUP_PWR_CMD, vectorOf]; split <;> omega); exact rfl)
    | ((with_reducible refine listed_block 14 ?_ ?_ hA); first | omega | (dsimp only [Fld.DIO_BANKk_CFG_EN, Fld.DIO_BANKk_CFG_REEN_TAG, Fld.MPU_STG_SEL_MASTER, Fld.SUP_EVENT_REFUSED, Fld.TRBb_STATUS_RUN, Reg.CAN_HP_EVENT, Reg.CAN_HP_IRQ_EN, Reg.CLK_TRIM, Reg.MPU_STG_MCFG, Reg.MPU_STG_W0, Reg.MPU_STG_W1, Reg.MPU_STG_W2, Reg.STR_EVENT, Reg.SUP_PWR_CMD, vectorOf]; omega) | (dsimp only [Fld.DIO_BANKk_CFG_EN, Fld.DIO_BANKk_CFG_REEN_TAG, Fld.MPU_STG_SEL_MASTER, Fld.SUP_EVENT_REFUSED, Fld.TRBb_STATUS_RUN, Reg.CAN_HP_EVENT, Reg.CAN_HP_IRQ_EN, Reg.CLK_TRIM, Reg.MPU_STG_MCFG, Reg.MPU_STG_W0, Reg.MPU_STG_W1, Reg.MPU_STG_W2, Reg.STR_EVENT, Reg.SUP_PWR_CMD, vectorOf]; split <;> omega); exact rfl)
    | ((with_reducible refine listed_block 15 ?_ ?_ hA); first | omega | (dsimp only [Fld.DIO_BANKk_CFG_EN, Fld.DIO_BANKk_CFG_REEN_TAG, Fld.MPU_STG_SEL_MASTER, Fld.SUP_EVENT_REFUSED, Fld.TRBb_STATUS_RUN, Reg.CAN_HP_EVENT, Reg.CAN_HP_IRQ_EN, Reg.CLK_TRIM, Reg.MPU_STG_MCFG, Reg.MPU_STG_W0, Reg.MPU_STG_W1, Reg.MPU_STG_W2, Reg.STR_EVENT, Reg.SUP_PWR_CMD, vectorOf]; omega) | (dsimp only [Fld.DIO_BANKk_CFG_EN, Fld.DIO_BANKk_CFG_REEN_TAG, Fld.MPU_STG_SEL_MASTER, Fld.SUP_EVENT_REFUSED, Fld.TRBb_STATUS_RUN, Reg.CAN_HP_EVENT, Reg.CAN_HP_IRQ_EN, Reg.CLK_TRIM, Reg.MPU_STG_MCFG, Reg.MPU_STG_W0, Reg.MPU_STG_W1, Reg.MPU_STG_W2, Reg.STR_EVENT, Reg.SUP_PWR_CMD, vectorOf]; split <;> omega); exact rfl)
    | ((with_reducible refine listed_blocks ?_ hA); exact rfl)
    | ((with_reducible refine partsIn_trans ?_ hA); exact rfl)
    | ((with_reducible refine listed_code ?_ hA); exact rfl)
    | exact fun (h : Sparse.wf _ _ = true) => h
    | with_reducible apply next_does
    | with_reducible apply id_does
    | with_reducible apply ite_does
    | with_reducible apply iteO_does
    | (apply Sparse.wf_set; assumption)
    | exact rfl
    | intro _
    | dsimp only
    | split
    | with_reducible apply upd_backup
    | with_reducible apply upd_strand

theorem pairRead_does {A : List Part} {b₀ : State} (a : Nat) (low : Bool) (high : Bool) (v : Nat → Word) (s : State) 
    (hD : Does A b₀ s) (hA : partsIn [.host] A = true) : Does A b₀ (pairRead a low high v s).2 := by
  unfold pairRead
  repeat' first
    | with_reducible assumption
    | ((with_reducible refine partsIn_trans ?_ hA); exact rfl)
    | ((with_reducible refine listed_code ?_ hA); exact rfl)
    | exact fun (h : Sparse.wf _ _ = true) => h
    | with_reducible apply next_does
    | with_reducible apply id_does
    | with_reducible apply ite_does
    | with_reducible apply iteO_does
    | (apply Sparse.wf_set; assumption)
    | exact rfl
    | intro _
    | dsimp only
    | split
    | with_reducible apply upd_captured

theorem clearRc_does {A : List Part} {b₀ : State} (a : Nat) (events : Word) (s : State) (hp_a : (Part.block (a / 65536)).listed A = true)
    (hD : Does A b₀ s) (hA : partsIn [.strand, .out] A = true) : Does A b₀ (clearRc a events s) := by
  unfold clearRc
  repeat' first
    | with_reducible assumption
    | with_reducible exact hp_a
    | with_reducible apply withIrq_does
    | with_reducible apply wr_does
    | ((with_reducible refine partsIn_trans ?_ hA); exact rfl)
    | ((with_reducible refine listed_code ?_ hA); exact rfl)
    | exact fun (h : Sparse.wf _ _ = true) => h
    | with_reducible apply next_does
    | with_reducible apply id_does
    | with_reducible apply ite_does
    | with_reducible apply iteO_does
    | (apply Sparse.wf_set; assumption)
    | exact rfl
    | intro _
    | dsimp only
    | split
    | with_reducible apply upd_strand

theorem readReg_does {A : List Part} {b₀ : State} (a : Nat) (s : State) 
    (hD : Does A b₀ s) (hA : partsIn [.blocks, .host, .strand, .out] A = true) : Does A b₀ (readReg a s).2 := by
  unfold readReg
  repeat' first
    | with_reducible assumption
    | with_reducible apply clearRc_does
    | with_reducible apply pairRead_does
    | ((with_reducible refine listed_blocks ?_ hA); exact rfl)
    | ((with_reducible refine partsIn_trans ?_ hA); exact rfl)
    | ((with_reducible refine listed_code ?_ hA); exact rfl)
    | exact fun (h : Sparse.wf _ _ = true) => h
    | with_reducible apply next_does
    | with_reducible apply id_does
    | with_reducible apply ite_does
    | with_reducible apply iteO_does
    | (apply Sparse.wf_set; assumption)
    | exact rfl
    | intro _
    | dsimp only
    | split

theorem dirPut_does {A : List Part} {b₀ : State} (off : Nat) (b : Byte) (s : State) 
    (hD : Does A b₀ s) (hA : partsIn [.exe] A = true) : Does A b₀ (dirPut off b s) := by
  unfold dirPut
  repeat' first
    | with_reducible assumption
    | ((with_reducible refine partsIn_trans ?_ hA); exact rfl)
    | ((with_reducible refine listed_code ?_ hA); exact rfl)
    | exact fun (h : Sparse.wf _ _ = true) => h
    | with_reducible apply next_does
    | with_reducible apply id_does
    | with_reducible apply ite_does
    | with_reducible apply iteO_does
    | (apply Sparse.wf_set; assumption)
    | exact rfl
    | intro _
    | dsimp only
    | split
    | with_reducible apply upd_exe

theorem imagePut_does {A : List Part} {b₀ : State} (off : Nat) (b : Byte) (s : State) 
    (hD : Does A b₀ s) (hA : partsIn [.exe] A = true) : Does A b₀ (imagePut off b s) := by
  unfold imagePut
  repeat' first
    | with_reducible assumption
    | with_reducible apply onTask_does
    | with_reducible apply tagMemSet_does
    | ((with_reducible refine partsIn_trans ?_ hA); exact rfl)
    | ((with_reducible refine listed_code ?_ hA); exact rfl)
    | exact fun (h : Sparse.wf _ _ = true) => h
    | with_reducible apply next_does
    | with_reducible apply id_does
    | with_reducible apply ite_does
    | with_reducible apply iteO_does
    | (apply Sparse.wf_set; assumption)
    | exact rfl
    | intro _
    | dsimp only
    | split
    | with_reducible apply upd_exe

theorem memPut_does {A : List Part} {b₀ : State} (a : Nat) (b : Byte) (s : State) 
    (hD : Does A b₀ s) (hA : partsIn [.mem, .exe] A = true) : Does A b₀ (memPut a b s) := by
  unfold memPut
  repeat' first
    | with_reducible assumption
    | with_reducible apply dirPut_does
    | with_reducible apply imagePut_does
    | with_reducible apply mset_does
    | ((with_reducible refine partsIn_trans ?_ hA); exact rfl)
    | ((with_reducible refine listed_code ?_ hA); exact rfl)
    | exact fun (h : Sparse.wf _ _ = true) => h
    | with_reducible apply next_does
    | with_reducible apply id_does
    | with_reducible apply ite_does
    | with_reducible apply iteO_does
    | (apply Sparse.wf_set; assumption)
    | exact rfl
    | intro _
    | dsimp only
    | split

theorem memPuts_does {A : List Part} {b₀ : State} (a : Nat) (l : List Byte) (s : State) 
    (hD : Does A b₀ s) (hA : partsIn [.mem, .exe] A = true) : Does A b₀ (memPuts a l s) := by
  induction l generalizing a s with
  | nil => exact hD
  | cons e l ih =>
    unfold memPuts
    repeat' first
      | with_reducible assumption
      | with_reducible apply ih
      | with_reducible apply memPut_does
      | ((with_reducible refine partsIn_trans ?_ hA); exact rfl)
      | ((with_reducible refine listed_code ?_ hA); exact rfl)
      | exact fun (h : Sparse.wf _ _ = true) => h
      | with_reducible apply next_does
      | with_reducible apply id_does
      | with_reducible apply ite_does
      | with_reducible apply iteO_does
      | (apply Sparse.wf_set; assumption)
      | exact rfl
      | intro _
      | dsimp only
      | split

end Sys2Proof.Machine
end

