-- ==== Sys2Proof/Laws/OnlyAna.lean ====
section
/-! SUPPORT. What each operation of Machine/Ana.lean can do: the parts of the state it may change, and that it keeps
canonical form. -/
namespace Sys2Proof.Machine

theorem hartSay_does {A : List Part} {b₀ : State} (n : Nat) (st : Status) (s : State) 
    (hD : Does A b₀ s) (hA : partsIn [.block 0x06, .free, .strand, .out] A = true) : Does A b₀ (hartSay n st s) := by
  unfold hartSay
  repeat' first
    | with_reducible assumption
    | with_reducible apply say_does
    | with_reducible apply setFld_does
    | ((with_reducible refine listed_block 6 ?_ ?_ hA); first | omega | (dsimp only [Fld.ANn_HART_STATUS_LAST]; omega) | (dsimp only [Fld.ANn_HART_STATUS_LAST]; split <;> omega); exact rfl)
    | ((with_reducible refine partsIn_trans ?_ hA); exact rfl)
    | ((with_reducible refine listed_code ?_ hA); exact rfl)
    | exact fun (h : Sparse.wf _ _ = true) => h
    | with_reducible apply next_does
    | with_reducible apply id_does
    | with_reducible apply ite_does
    | with_reducible apply iteO_does
    | (apply Sparse.wf_set; assumption)
    | exact rfl
    | intro _
    | dsimp only
    | split

theorem hartSend_does {A : List Part} {b₀ : State} (n : Nat) (t : HartTxn) (s : State) 
    (hD : Does A b₀ s) (hA : partsIn [.out] A = true) : Does A b₀ (hartSend n t s) := by
  unfold hartSend
  repeat' first
    | with_reducible assumption
    | with_reducible apply sendOut_does
    | ((with_reducible refine partsIn_trans ?_ hA); exact rfl)
    | ((with_reducible refine listed_code ?_ hA); exact rfl)
    | exact fun (h : Sparse.wf _ _ = true) => h
    | with_reducible apply next_does
    | with_reducible apply id_does
    | with_reducible apply ite_does
    | with_reducible apply iteO_does
    | (apply Sparse.wf_set; assumption)
    | exact rfl
    | intro _
    | dsimp only
    | split

theorem hartStart_does {A : List Part} {b₀ : State} (n : Nat) (t : HartTxn) (s : State) 
    (hD : Does A b₀ s) (hA : partsIn [.ana, .out] A = true) : Does A b₀ (hartStart n t s) := by
  unfold hartStart
  repeat' first
    | with_reducible assumption
    | with_reducible apply hartSend_does
    | with_reducible apply onAn_does
    | ((with_reducible refine partsIn_trans ?_ hA); exact rfl)
    | ((with_reducible refine listed_code ?_ hA); exact rfl)
    | exact fun (h : Sparse.wf _ _ = true) => h
    | with_reducible apply next_does
    | with_reducible apply id_does
    | with_reducible apply ite_does
    | with_reducible apply iteO_does
    | (apply Sparse.wf_set; assumption)
    | exact rfl
    | intro _
    | dsimp only
    | split

theorem hartNext_does {A : List Part} {b₀ : State} (n : Nat) (s : State) 
    (hD : Does A b₀ s) (hA : partsIn [.ana, .out] A = true) : Does A b₀ (hartNext n s) := by
  unfold hartNext
  repeat' first
    | with_reducible assumption
    | with_reducible apply hartStart_does
    | with_reducible apply onAn_does
    | ((with_reducible refine partsIn_trans ?_ hA); exact rfl)
    | ((with_reducible refine listed_code ?_ hA); exact rfl)
    | exact fun (h : Sparse.wf _ _ = true) => h
    | with_reducible apply next_does
    | with_reducible apply id_does
    | with_reducible apply ite_does
    | with_reducible apply iteO_does
    | (apply Sparse.wf_set; assumption)
    | exact rfl
    | intro _
    | dsimp only
    | split

theorem hartDone_does {A : List Part} {b₀ : State} (st : Status) (len : Nat) (s : State) 
    (hD : Does A b₀ s) (hA : partsIn [.block 0x06, .out] A = true) : Does A b₀ (hartDone st len s) := by
  unfold hartDone
  repeat' first
    | with_reducible assumption
    | with_reducible apply raiseF_does
    | with_reducible apply setFlag_does
    | with_reducible apply setFld_does
    | ((with_reducible refine partsIn_trans ?_ hA); exact rfl)
    | ((with_reducible refine listed_code ?_ hA); exact rfl)
    | exact fun (h : Sparse.wf _ _ = true) => h
    | with_reducible apply next_does
    | with_reducible apply id_does
    | with_reducible apply ite_does
    | with_reducible apply iteO_does
    | (apply Sparse.wf_set; assumption)
    | exact rfl
    | intro _
    | dsimp only
    | split

theorem hartMark_does {A : List Part} {b₀ : State} (n : Nat) (stale : Bool) (invalid : Bool) (s : State) 
    (hD : Does A b₀ s) (hA : partsIn [.exe] A = true) : Does A b₀ (hartMark n stale invalid s) := by
  unfold hartMark
  repeat' first
    | with_reducible assumption
    | with_reducible apply forAll_does
    | with_reducible apply setTagFlags_does
    | ((with_reducible refine partsIn_trans ?_ hA); exact rfl)
    | ((with_reducible refine listed_code ?_ hA); exact rfl)
    | exact fun (h : Sparse.wf _ _ = true) => h
    | with_reducible apply next_does
    | with_reducible apply id_does
    | with_reducible apply ite_does
    | with_reducible apply iteO_does
    | (apply Sparse.wf_set; assumption)
    | exact rfl
    | intro _
    | dsimp only
    | split

theorem hartVars_does {A : List Part} {b₀ : State} (n : Nat) (vars : List Word) (s : State) 
    (hD : Does A b₀ s) (hA : partsIn [.block 0x05, .free, .strand, .exe, .dio, .ana, .out] A = true) : Does A b₀ (hartVars n vars s) := by
  unfold hartVars
  repeat' first
    | with_reducible assumption
    | with_reducible apply forAll_does
    | with_reducible apply hartMark_does
    | with_reducible apply onAn_does
    | with_reducible apply tagStore_does
    | ((with_reducible refine partsIn_trans ?_ hA); exact rfl)
    | ((with_reducible refine listed_code ?_ hA); exact rfl)
    | exact fun (h : Sparse.wf _ _ = true) => h
    | with_reducible apply next_does
    | with_reducible apply id_does
    | with_reducible apply ite_does
    | with_reducible apply iteO_does
    | (apply Sparse.wf_set; assumption)
    | exact rfl
    | intro _
    | dsimp only
    | split

theorem hartDev_does {A : List Part} {b₀ : State} (n : Nat) (dev : Byte) (s : State) 
    (hD : Does A b₀ s) (hA : partsIn [.block 0x06, .free, .strand, .out] A = true) : Does A b₀ (hartDev n dev s) := by
  unfold hartDev
  repeat' first
    | with_reducible assumption
    | with_reducible apply hartSay_does
    | with_reducible apply onlyIf_does
    | with_reducible apply raiseF_does
    | with_reducible apply setFld_does
    | ((with_reducible refine listed_block 6 ?_ ?_ hA); first | omega | (dsimp only [Fld.ANA_EVENT_HART_DEV_STATUS, Fld.ANn_HART_STATUS_DEV_STATUS]; omega) | (dsimp only [Fld.ANA_EVENT_HART_DEV_STATUS, Fld.ANn_HART_STATUS_DEV_STATUS]; split <;> omega); exact rfl)
    | ((with_reducible refine partsIn_trans ?_ hA); exact rfl)
    | ((with_reducible refine listed_code ?_ hA); exact rfl)
    | exact fun (h : Sparse.wf _ _ = true) => h
    | with_reducible apply next_does
    | with_reducible apply id_does
    | with_reducible apply ite_does
    | with_reducible apply iteO_does
    | (apply Sparse.wf_set; assumption)
    | exact rfl
    | intro _
    | dsimp only
    | split

theorem hartFail_does {A : List Part} {b₀ : State} (n : Nat) (k : HartKind) (s : State) 
    (hD : Does A b₀ s) (hA : partsIn [.block 0x06, .free, .strand, .exe, .ana, .out] A = true) : Does A b₀ (hartFail n k s) := by
  unfold hartFail
  repeat' first
    | with_reducible assumption
    | with_reducible apply bump_does
    | with_reducible apply hartDone_does
    | with_reducible apply hartMark_does
    | with_reducible apply hartNext_does
    | with_reducible apply hartSay_does
    | with_reducible apply onAn_does
    | with_reducible apply raiseF_does
    | ((with_reducible refine listed_block 6 ?_ ?_ hA); first | omega | (dsimp only [Fld.ANA_EVENT_HART_FAIL, Fld.ANn_COUNTS_HART_FAIL]; omega) | (dsimp only [Fld.ANA_EVENT_HART_FAIL, Fld.ANn_COUNTS_HART_FAIL]; split <;> omega); exact rfl)
    | ((with_reducible refine partsIn_trans ?_ hA); exact rfl)
    | ((with_reducible refine listed_code ?_ hA); exact rfl)
    | exact fun (h : Sparse.wf _ _ = true) => h
    | with_reducible apply next_does
    | with_reducible apply id_does
    | with_reducible apply ite_does
    | with_reducible apply iteO_does
    | (apply Sparse.wf_set; assumption)
    | exact rfl
    | intro _
    | dsimp only
    | split

theorem hartRetry_does {A : List Part} {b₀ : State} (n : Nat) (x : HartTxn) (s : State) 
    (hD : Does A b₀ s) (hA : partsIn [.block 0x06, .free, .strand, .exe, .ana, .out] A = true) : Does A b₀ (hartRetry n x s) := by
  unfold hartRetry
  repeat' first
    | with_reducible assumption
    | with_reducible apply hartFail_does
    | with_reducible apply hartSend_does
    | with_reducible apply onAn_does
    | ((with_reducible refine partsIn_trans ?_ hA); exact rfl)
    | ((with_reducible refine listed_code ?_ hA); exact rfl)
    | exact fun (h : Sparse.wf _ _ = true) => h
    | with_reducible apply next_does
    | with_reducible apply id_does
    | with_reducible apply ite_does
    | with_reducible apply iteO_does
    | (apply Sparse.wf_set; assumption)
    | exact rfl
    | intro _
    | dsimp only
    | split

theorem hartAbandon_does {A : List Part} {b₀ : State}  (s : State) 
    (hD : Does A b₀ s) (hA : partsIn [.block 0x06, .ana, .out] A = true) : Does A b₀ (hartAbandon s) := by
  unfold hartAbandon
  repeat' first
    | with_reducible assumption
    | with_reducible apply forAll_does
    | with_reducible apply hartDone_does
    | with_reducible apply onAn_does
    | with_reducible apply onlyIf_does
    | ((with_reducible refine partsIn_trans ?_ hA); exact rfl)
    | ((with_reducible refine listed_code ?_ hA); exact rfl)
    | exact fun (h : Sparse.wf _ _ = true) => h
    | with_reducible apply next_does
    | with_reducible apply id_does
    | with_reducible apply ite_does
    | with_reducible apply iteO_does
    | (apply Sparse.wf_set; assumption)
    | exact rfl
    | intro _
    | dsimp only
    | split

theorem execHartPoll_does {A : List Part} {b₀ : State} (n : Fin 16) (s : State) 
    (hD : Does A b₀ s) (hA : partsIn [.block 0x06, .ana, .out] A = true) : DoesO A b₀ (execHartPoll n s) := by
  unfold execHartPoll
  repeat' first
    | with_reducible assumption
    | with_reducible apply hartStart_does
    | with_reducible apply setFlag_does
    | ((with_reducible refine listed_block 6 ?_ ?_ hA); first | omega | (dsimp only [Fld.ANn_HART_CFG_POLL_EN, Fld.ANn_HART_CFG_RETRIES, Fld.ANn_HART_POLL_PERIOD, Fld.ANn_HART_STATUS_BURST, hartPeriod, hartRetries]; omega) | (dsimp only [Fld.ANn_HART_CFG_POLL_EN, Fld.ANn_HART_CFG_RETRIES, Fld.ANn_HART_POLL_PERIOD, Fld.ANn_HART_STATUS_BURST, hartPeriod, hartRetries]; split <;> omega); exact rfl)
    | ((with_reducible refine partsIn_trans ?_ hA); exact rfl)
    | ((with_reducible refine listed_code ?_ hA); exact rfl)
    | exact fun (h : Sparse.wf _ _ = true) => h
    | with_reducible apply next_does
    | with_reducible apply id_does
    | with_reducible apply ite_does
    | with_reducible apply iteO_does
    | (apply Sparse.wf_set; assumption)
    | exact rfl
    | intro _
    | dsimp only
    | split

theorem execHartResponse_does {A : List Part} {b₀ : State} (n : Fin 16) (good : Bool) (tie : Bool) (resp : Byte) (dev : Byte) (vars : List Word) (data : List Byte) (s : State) 
    (hD : Does A b₀ s) (hA : partsIn [.block 0x05, .block 0x06, .free, .strand, .exe, .dio, .ana, .out] A = true) : DoesO A b₀ (execHartResponse n good tie resp dev vars data s) := by
  unfold execHartResponse
  repeat' first
    | with_reducible assumption
    | with_reducible apply bump_does
    | with_reducible apply forAll_does
    | with_reducible apply hartDev_does
    | with_reducible apply hartDone_does
    | with_reducible apply hartNext_does
    | with_reducible apply hartRetry_does
    | with_reducible apply hartSay_does
    | with_reducible apply hartVars_does
    | with_reducible apply onAn_does
    | with_reducible apply onlyIf_does
    | with_reducible apply setFlag_does
    | with_reducible apply setFld_does
    | with_reducible apply wr_does
    | ((with_reducible refine listed_block 5 ?_ ?_ hA); first | omega | (dsimp only [Fld.ANA_CLOSE_CALL_COUNT, Fld.ANn_HART_CFG_RETRIES, Fld.ANn_HART_STATUS_LONG_OK, Fld.ANn_HART_STATUS_RESP_CODE, Reg.ANA_HART_DATA, hartRetries]; omega) | (dsimp only [Fld.ANA_CLOSE_CALL_COUNT, Fld.ANn_HART_CFG_RETRIES, Fld.ANn_HART_STATUS_LONG_OK, Fld.ANn_HART_STATUS_RESP_CODE, Reg.ANA_HART_DATA, hartRetries]; split <;> omega); exact rfl)
    | ((with_reducible refine listed_block 6 ?_ ?_ hA); first | omega | (dsimp only [Fld.ANA_CLOSE_CALL_COUNT, Fld.ANn_HART_CFG_RETRIES, Fld.ANn_HART_STATUS_LONG_OK, Fld.ANn_HART_STATUS_RESP_CODE, Reg.ANA_HART_DATA, hartRetries]; omega) | (dsimp only [Fld.ANA_CLOSE_CALL_COUNT, Fld.ANn_HART_CFG_RETRIES, Fld.ANn_HART_STATUS_LONG_OK, Fld.ANn_HART_STATUS_RESP_CODE, Reg.ANA_HART_DATA, hartRetries]; split <;> omega); exact rfl)
    | ((with_reducible refine partsIn_trans ?_ hA); exact rfl)
    | ((with_reducible refine listed_code ?_ hA); exact rfl)
    | exact fun (h : Sparse.wf _ _ = true) => h
    | with_reducible apply next_does
    | with_reducible apply id_does
    | with_reducible apply ite_does
    | with_reducible apply iteO_does
    | (apply Sparse.wf_set; assumption)
    | exact rfl
    | intro _
    | dsimp only
    | split

theorem execHartRespTimeout_does {A : List Part} {b₀ : State} (n : Fin 16) (s : State) 
    (hD : Does A b₀ s) (hA : partsIn [.block 0x06, .free, .strand, .exe, .ana, .out] A = true) : DoesO A b₀ (execHartRespTimeout n s) := by
  unfold execHartRespTimeout
  repeat' first
    | with_reducible assumption
    | with_reducible apply hartRetry_does
    | ((with_reducible refine partsIn_trans ?_ hA); exact rfl)
    | ((with_reducible refine listed_code ?_ hA); exact rfl)
    | exact fun (h : Sparse.wf _ _ = true) => h
    | with_reducible apply next_does
    | with_reducible apply id_does
    | with_reducible apply ite_does
    | with_reducible apply iteO_does
    | (apply Sparse.wf_set; assumption)
    | exact rfl
    | intro _
    | dsimp only
    | split

theorem execHartBurstFrame_does {A : List Part} {b₀ : State} (n : Fin 16) (dev : Byte) (vars : List Word) (s : State) 
    (hD : Does A b₀ s) (hA : partsIn [.block 0x05, .block 0x06, .free, .strand, .exe, .dio, .ana, .out] A = true) : DoesO A b₀ (execHartBurstFrame n dev vars s) := by
  unfold execHartBurstFrame
  repeat' first
    | with_reducible assumption
    | with_reducible apply hartDev_does
    | with_reducible apply hartVars_does
    | with_reducible apply onAn_does
    | with_reducible apply setFlag_does
    | ((with_reducible refine listed_block 5 ?_ ?_ hA); first | omega | (dsimp only [Fld.ANn_HART_CFG_BURST_ACCEPT, Fld.ANn_HART_STATUS_BURST]; omega) | (dsimp only [Fld.ANn_HART_CFG_BURST_ACCEPT, Fld.ANn_HART_STATUS_BURST]; split <;> omega); exact rfl)
    | ((with_reducible refine listed_block 6 ?_ ?_ hA); first | omega | (dsimp only [Fld.ANn_HART_CFG_BURST_ACCEPT, Fld.ANn_HART_STATUS_BURST]; omega) | (dsimp only [Fld.ANn_HART_CFG_BURST_ACCEPT, Fld.ANn_HART_STATUS_BURST]; split <;> omega); exact rfl)
    | ((with_reducible refine partsIn_trans ?_ hA); exact rfl)
    | ((with_reducible refine listed_code ?_ hA); exact rfl)
    | exact fun (h : Sparse.wf _ _ = true) => h
    | with_reducible apply next_does
    | with_reducible apply id_does
    | with_reducible apply ite_does
    | with_reducible apply iteO_does
    | (apply Sparse.wf_set; assumption)
    | exact rfl
    | intro _
    | dsimp only
    | split

theorem execAnaHartCmd_does {A : List Part} {b₀ : State} (cmd : BitVec 16) (len : Byte) (s : State) 
    (hD : Does A b₀ s) (hA : partsIn [.block 0x06, .block 0x0F, .free, .strand, .ana, .out] A = true) : DoesO A b₀ (execAnaHartCmd cmd len s) := by
  unfold execAnaHartCmd
  repeat' first
    | with_reducible assumption
    | with_reducible apply hartDone_does
    | with_reducible apply hartSay_does
    | with_reducible apply hartStart_does
    | with_reducible apply hostCmd_does
    | with_reducible apply setFlag_does
    | ((with_reducible refine listed_block 6 ?_ ?_ hA); first | omega | (dsimp only [Fld.ANA_HART_RESULT_BUSY, Fld.ANA_HART_SEL_CHANNEL, Fld.ANn_HART_CFG_RETRIES, Reg.ANA_HART_CMD, hartRetries]; omega) | (dsimp only [Fld.ANA_HART_RESULT_BUSY, Fld.ANA_HART_SEL_CHANNEL, Fld.ANn_HART_CFG_RETRIES, Reg.ANA_HART_CMD, hartRetries]; split <;> omega); exact rfl)
    | ((with_reducible refine listed_block 15 ?_ ?_ hA); first | omega | (dsimp only [Fld.ANA_HART_RESULT_BUSY, Fld.ANA_HART_SEL_CHANNEL, Fld.ANn_HART_CFG_RETRIES, Reg.ANA_HART_CMD, hartRetries]; omega) | (dsimp only [Fld.ANA_HART_RESULT_BUSY, Fld.ANA_HART_SEL_CHANNEL, Fld.ANn_HART_CFG_RETRIES, Reg.ANA_HART_CMD, hartRetries]; split <;> omega); exact rfl)
    | ((with_reducible refine partsIn_trans ?_ hA); exact rfl)
    | ((with_reducible refine listed_code ?_ hA); exact rfl)
    | exact fun (h : Sparse.wf _ _ = true) => h
    | with_reducible apply next_does
    | with_reducible apply id_does
    | with_reducible apply ite_does
    | with_reducible apply iteO_does
    | (apply Sparse.wf_set; assumption)
    | exact rfl
    | intro _
    | dsimp only
    | split

theorem anDisable_does {A : List Part} {b₀ : State} (n : Nat) (s : State) 
    (hD : Does A b₀ s) (hA : partsIn [.block 0x06, .ana, .out] A = true) : Does A b₀ (anDisable n s) := by
  unfold anDisable
  repeat' first
    | with_reducible assumption
    | with_reducible apply hartDone_does
    | with_reducible apply onAn_does
    | with_reducible apply onlyIf_does
    | with_reducible apply setBitAt_does
    | ((with_reducible refine partsIn_trans ?_ hA); exact rfl)
    | ((with_reducible refine listed_code ?_ hA); exact rfl)
    | exact fun (h : Sparse.wf _ _ = true) => h
    | with_reducible apply next_does
    | with_reducible apply id_does
    | with_reducible apply ite_does
    | with_reducible apply iteO_does
    | (apply Sparse.wf_set; assumption)
    | exact rfl
    | intro _
    | dsimp only
    | split

theorem anEnable_does {A : List Part} {b₀ : State} (n : Nat) (s : State) 
    (hD : Does A b₀ s) (hA : partsIn [.block 0x06, .free, .strand, .ana, .out] A = true) : Does A b₀ (anEnable n s) := by
  unfold anEnable
  repeat' first
    | with_reducible assumption
    | with_reducible apply hartStart_does
    | with_reducible apply onAn_does
    | with_reducible apply onlyIf_does
    | with_reducible apply raiseF_does
    | with_reducible apply say_does
    | with_reducible apply setBitAt_does
    | with_reducible apply setFlag_does
    | with_reducible apply wr_does
    | ((with_reducible refine listed_block 6 ?_ ?_ hA); first | omega | (dsimp only [Fld.ANA_EVENT_CFG_REFUSED, Fld.ANn_HART_CFG_RETRIES, Fld.ANn_HART_STATUS_LONG_OK, Reg.ANA_ENABLE, Reg.ANA_LOCK, Reg.ANn_RES, hartRetries]; omega) | (dsimp only [Fld.ANA_EVENT_CFG_REFUSED, Fld.ANn_HART_CFG_RETRIES, Fld.ANn_HART_STATUS_LONG_OK, Reg.ANA_ENABLE, Reg.ANA_LOCK, Reg.ANn_RES, hartRetries]; split <;> omega); exact rfl)
    | ((with_reducible refine partsIn_trans ?_ hA); exact rfl)
    | ((with_reducible refine listed_code ?_ hA); exact rfl)
    | exact fun (h : Sparse.wf _ _ = true) => h
    | with_reducible apply next_does
    | with_reducible apply id_does
    | with_reducible apply ite_does
    | with_reducible apply iteO_does
    | (apply Sparse.wf_set; assumption)
    | exact rfl
    | intro _
    | dsimp only
    | split

theorem execAnaChannelEnable_does {A : List Part} {b₀ : State} (value : BitVec 16) (s : State) 
    (hD : Does A b₀ s) (hA : partsIn [.block 0x06, .block 0x0F, .free, .strand, .ana, .out] A = true) : DoesO A b₀ (execAnaChannelEnable value s) := by
  unfold execAnaChannelEnable
  repeat' first
    | with_reducible assumption
    | with_reducible apply anDisable_does
    | with_reducible apply anEnable_does
    | with_reducible apply forAll_does
    | with_reducible apply hostCmd_does
    | ((with_reducible refine partsIn_trans ?_ hA); exact rfl)
    | ((with_reducible refine listed_code ?_ hA); exact rfl)
    | exact fun (h : Sparse.wf _ _ = true) => h
    | with_reducible apply next_does
    | with_reducible apply id_does
    | with_reducible apply ite_does
    | with_reducible apply iteO_does
    | (apply Sparse.wf_set; assumption)
    | exact rfl
    | intro _
    | dsimp only
    | split

theorem execAnaLockOpen_does {A : List Part} {b₀ : State} (value : BitVec 16) (s : State) 
    (hD : Does A b₀ s) (hA : partsIn [.block 0x06, .block 0x0F, .strand, .out] A = true) : DoesO A b₀ (execAnaLockOpen value s) := by
  unfold execAnaLockOpen
  repeat' first
    | with_reducible assumption
    | with_reducible apply hostCmd_does
    | with_reducible apply wr_does
    | ((with_reducible refine partsIn_trans ?_ hA); exact rfl)
    | ((with_reducible refine listed_code ?_ hA); exact rfl)
    | exact fun (h : Sparse.wf _ _ = true) => h
    | with_reducible apply next_does
    | with_reducible apply id_does
    | with_reducible apply ite_does
    | with_reducible apply iteO_does
    | (apply Sparse.wf_set; assumption)
    | exact rfl
    | intro _
    | dsimp only
    | split

theorem anConversion_does {A : List Part} {b₀ : State} (n : Nat) (mcal : Nat) (s : State) 
    (hD : Does A b₀ s) (hA : partsIn [.block 0x06, .free, .strand, .ana, .out] A = true) : Does A b₀ (anConversion n mcal s) := by
  unfold anConversion
  repeat' first
    | with_reducible assumption
    | with_reducible apply anFaultSet_does
    | with_reducible apply onAn_does
    | with_reducible apply onlyIf_does
    | with_reducible apply raiseF_does
    | with_reducible apply say_does
    | with_reducible apply wr_does
    | with_reducible apply wr64_does
    | ((with_reducible refine listed_block 6 ?_ ?_ hA); first | omega | (dsimp only [Fld.ANA_EVENT_INPUT_FAULT, Fld.ANn_CFG_RATE, Reg.ANn_MEAS, Reg.ANn_STAMP_LO, Reg.ANn_VALUE]; omega) | (dsimp only [Fld.ANA_EVENT_INPUT_FAULT, Fld.ANn_CFG_RATE, Reg.ANn_MEAS, Reg.ANn_STAMP_LO, Reg.ANn_VALUE]; split <;> omega); exact rfl)
    | ((with_reducible refine partsIn_trans ?_ hA); exact rfl)
    | ((with_reducible refine listed_code ?_ hA); exact rfl)
    | exact fun (h : Sparse.wf _ _ = true) => h
    | with_reducible apply next_does
    | with_reducible apply id_does
    | with_reducible apply ite_does
    | with_reducible apply iteO_does
    | (apply Sparse.wf_set; assumption)
    | exact rfl
    | intro _
    | (dsimp only [Fld.ANA_EVENT_INPUT_FAULT, Fld.ANn_CFG_RATE, Reg.ANn_MEAS, Reg.ANn_STAMP_LO, Reg.ANn_VALUE]; omega)
    | dsimp only
    | split
    | with_reducible apply upd_freeCtr

theorem anaIsolate_does {A : List Part} {b₀ : State} (k : Nat) (s : State) 
    (hD : Does A b₀ s) (hA : partsIn [.block 0x01, .block 0x02, .block 0x03, .block 0x05, .block 0x06, .block 0x08, .block 0x09, .block 0x0A, .block 0x0C, .free, .strand, .backup, .tides, .seqs, .exe, .loop, .dio, .ana, .saf, .pair, .can, .sup, .mbx, .out] A = true) : Does A b₀ (anaIsolate k s) := by
  unfold anaIsolate
  repeat' first
    | with_reducible assumption
    | with_reducible apply isolateBank_does
    | with_reducible apply onAnBank_does
    | with_reducible apply raiseF_does
    | with_reducible apply say_does
    | ((with_reducible refine partsIn_trans ?_ hA); exact rfl)
    | ((with_reducible refine listed_code ?_ hA); exact rfl)
    | exact fun (h : Sparse.wf _ _ = true) => h
    | with_reducible apply next_does
    | with_reducible apply id_does
    | with_reducible apply ite_does
    | with_reducible apply iteO_does
    | (apply Sparse.wf_set; assumption)
    | exact rfl
    | intro _
    | dsimp only
    | split

theorem anaCount_does {A : List Part} {b₀ : State} (chs : List Nat) (before : State) (after : State) 
    (hD : Does A b₀ after) (hA : partsIn [.block 0x01, .block 0x02, .block 0x03, .block 0x05, .block 0x06, .block 0x08, .block 0x09, .block 0x0A, .block 0x0C, .free, .strand, .backup, .tides, .seqs, .exe, .loop, .dio, .ana, .saf, .pair, .can, .sup, .mbx, .out] A = true) : Does A b₀ (anaCount chs before after) := by
  unfold anaCount
  repeat' first
    | with_reducible assumption
    | with_reducible apply anaIsolate_does
    | with_reducible apply forAll_does
    | ((with_reducible refine partsIn_trans ?_ hA); exact rfl)
    | ((with_reducible refine listed_code ?_ hA); exact rfl)
    | exact fun (h : Sparse.wf _ _ = true) => h
    | with_reducible apply next_does
    | with_reducible apply id_does
    | with_reducible apply ite_does
    | with_reducible apply iteO_does
    | (apply Sparse.wf_set; assumption)
    | exact rfl
    | intro _
    | dsimp only
    | split

theorem execAnaConversion_does {A : List Part} {b₀ : State} (convs : List (Fin 16 × DWord)) (overlap : Bool) (s : State) 
    (hD : Does A b₀ s) (hA : partsIn [.block 0x01, .block 0x02, .block 0x03, .block 0x05, .block 0x06, .block 0x08, .block 0x09, .block 0x0A, .block 0x0C, .free, .strand, .backup, .tides, .seqs, .exe, .loop, .dio, .ana, .saf, .pair, .can, .sup, .mbx, .out] A = true) : DoesO A b₀ (execAnaConversion convs overlap s) := by
  unfold execAnaConversion
  repeat' first
    | with_reducible assumption
    | with_reducible apply anConversion_does
    | with_reducible apply anaCount_does
    | with_reducible apply forAll_does
    | with_reducible apply onAn_does
    | ((with_reducible refine listed_block 1 ?_ ?_ hA); first | omega | (dsimp only [Fld.ANn_CFG_MODE, Fld.ANn_CFG_TRIG, anMode]; omega) | (dsimp only [Fld.ANn_CFG_MODE, Fld.ANn_CFG_TRIG, anMode]; split <;> omega); exact rfl)
    | ((with_reducible refine listed_block 2 ?_ ?_ hA); first | omega | (dsimp only [Fld.ANn_CFG_MODE, Fld.ANn_CFG_TRIG, anMode]; omega) | (dsimp only [Fld.ANn_CFG_MODE, Fld.ANn_CFG_TRIG, anMode]; split <;> omega); exact rfl)
    | ((with_reducible refine listed_block 3 ?_ ?_ hA); first | omega | (dsimp only [Fld.ANn_CFG_MODE, Fld.ANn_CFG_TRIG, anMode]; omega) | (dsimp only [Fld.ANn_CFG_MODE, Fld.ANn_CFG_TRIG, anMode]; split <;> omega); exact rfl)
    | ((with_reducible refine listed_block 5 ?_ ?_ hA); first | omega | (dsimp only [Fld.ANn_CFG_MODE, Fld.ANn_CFG_TRIG, anMode]; omega) | (dsimp only [Fld.ANn_CFG_MODE, Fld.ANn_CFG_TRIG, anMode]; split <;> omega); exact rfl)
    | ((with_reducible refine listed_block 6 ?_ ?_ hA); first | omega | (dsimp only [Fld.ANn_CFG_MODE, Fld.ANn_CFG_TRIG, anMode]; omega) | (dsimp only [Fld.ANn_CFG_MODE, Fld.ANn_CFG_TRIG, anMode]; split <;> omega); exact rfl)
    | ((with_reducible refine listed_block 8 ?_ ?_ hA); first | omega | (dsimp only [Fld.ANn_CFG_MODE, Fld.ANn_CFG_TRIG, anMode]; omega) | (dsimp only [Fld.ANn_CFG_MODE, Fld.ANn_CFG_TRIG, anMode]; split <;> omega); exact rfl)
    | ((with_reducible refine listed_block 9 ?_ ?_ hA); first | omega | (dsimp only [Fld.ANn_CFG_MODE, Fld.ANn_CFG_TRIG, anMode]; omega) | (dsimp only [Fld.ANn_CFG_MODE, Fld.ANn_CFG_TRIG, anMode]; split <;> omega); exact rfl)
    | ((with_reducible refine listed_block 10 ?_ ?_ hA); first | omega | (dsimp only [Fld.ANn_CFG_MODE, Fld.ANn_CFG_TRIG, anMode]; omega) | (dsimp only [Fld.ANn_CFG_MODE, Fld.ANn_CFG_TRIG, anMode]; split <;> omega); exact rfl)
    | ((with_reducible refine listed_block 12 ?_ ?_ hA); first | omega | (dsimp only [Fld.ANn_CFG_MODE, Fld.ANn_CFG_TRIG, anMode]; omega) | (dsimp only [Fld.ANn_CFG_MODE, Fld.ANn_CFG_TRIG, anMode]; split <;> omega); exact rfl)
    | ((with_reducible refine partsIn_trans ?_ hA); exact rfl)
    | ((with_reducible refine listed_code ?_ hA); exact rfl)
    | exact fun (h : Sparse.wf _ _ = true) => h
    | with_reducible apply next_does
    | with_reducible apply id_does
    | with_reducible apply ite_does
    | with_reducible apply iteO_does
    | (apply Sparse.wf_set; assumption)
    | exact rfl
    | intro _
    | dsimp only
    | split

theorem anaCells_does {A : List Part} {b₀ : State} (chs : BitVec 16) (ok : Nat → Bool) (f : Fin 9) (s : State) 
    (hD : Does A b₀ s) (hA : partsIn [.block 0x01, .block 0x02, .block 0x03, .block 0x05, .block 0x06, .block 0x08, .block 0x09, .block 0x0A, .block 0x0C, .free, .strand, .backup, .tides, .seqs, .exe, .loop, .dio, .ana, .saf, .pair, .can, .sup, .mbx, .out] A = true) : Does A b₀ (anaCells chs ok f s) := by
  unfold anaCells
  repeat' first
    | with_reducible assumption
    | with_reducible apply anFaultSet_does
    | with_reducible apply anaCount_does
    | with_reducible apply forAll_does
    | ((with_reducible refine partsIn_trans ?_ hA); exact rfl)
    | ((with_reducible refine listed_code ?_ hA); exact rfl)
    | exact fun (h : Sparse.wf _ _ = true) => h
    | with_reducible apply next_does
    | with_reducible apply id_does
    | with_reducible apply ite_does
    | with_reducible apply iteO_does
    | (apply Sparse.wf_set; assumption)
    | exact rfl
    | intro _
    | dsimp only
    | split

theorem execAnaLoopShort_does {A : List Part} {b₀ : State} (chs : BitVec 16) (s : State) 
    (hD : Does A b₀ s) (hA : partsIn [.block 0x01, .block 0x02, .block 0x03, .block 0x05, .block 0x06, .block 0x08, .block 0x09, .block 0x0A, .block 0x0C, .free, .strand, .backup, .tides, .seqs, .exe, .loop, .dio, .ana, .saf, .pair, .can, .sup, .mbx, .out] A = true) : DoesO A b₀ (execAnaLoopShort chs s) := by
  unfold execAnaLoopShort
  repeat' first
    | with_reducible assumption
    | with_reducible apply anaCells_does
    | ((with_reducible refine listed_block 1 ?_ ?_ hA); first | omega | (dsimp only [Fld.ANn_CFG_MODE, anMode]; omega) | (dsimp only [Fld.ANn_CFG_MODE, anMode]; split <;> omega); exact rfl)
    | ((with_reducible refine listed_block 2 ?_ ?_ hA); first | omega | (dsimp only [Fld.ANn_CFG_MODE, anMode]; omega) | (dsimp only [Fld.ANn_CFG_MODE, anMode]; split <;> omega); exact rfl)
    | ((with_reducible refine listed_block 3 ?_ ?_ hA); first | omega | (dsimp only [Fld.ANn_CFG_MODE, anMode]; omega) | (dsimp only [Fld.ANn_CFG_MODE, anMode]; split <;> omega); exact rfl)
    | ((with_reducible refine listed_block 5 ?_ ?_ hA); first | omega | (dsimp only [Fld.ANn_CFG_MODE, anMode]; omega) | (dsimp only [Fld.ANn_CFG_MODE, anMode]; split <;> omega); exact rfl)
    | ((with_reducible refine listed_block 6 ?_ ?_ hA); first | omega | (dsimp only [Fld.ANn_CFG_MODE, anMode]; omega) | (dsimp only [Fld.ANn_CFG_MODE, anMode]; split <;> omega); exact rfl)
    | ((with_reducible refine listed_block 8 ?_ ?_ hA); first | omega | (dsimp only [Fld.ANn_CFG_MODE, anMode]; omega) | (dsimp only [Fld.ANn_CFG_MODE, anMode]; split <;> omega); exact rfl)
    | ((with_reducible refine listed_block 9 ?_ ?_ hA); first | omega | (dsimp only [Fld.ANn_CFG_MODE, anMode]; omega) | (dsimp only [Fld.ANn_CFG_MODE, anMode]; split <;> omega); exact rfl)
    | ((with_reducible refine listed_block 10 ?_ ?_ hA); first | omega | (dsimp only [Fld.ANn_CFG_MODE, anMode]; omega) | (dsimp only [Fld.ANn_CFG_MODE, anMode]; split <;> omega); exact rfl)
    | ((with_reducible refine listed_block 12 ?_ ?_ hA); first | omega | (dsimp only [Fld.ANn_CFG_MODE, anMode]; omega) | (dsimp only [Fld.ANn_CFG_MODE, anMode]; split <;> omega); exact rfl)
    | ((with_reducible refine partsIn_trans ?_ hA); exact rfl)
    | ((with_reducible refine listed_code ?_ hA); exact rfl)
    | exact fun (h : Sparse.wf _ _ = true) => h
    | with_reducible apply next_does
    | with_reducible apply id_does
    | with_reducible apply ite_does
    | with_reducible apply iteO_does
    | (apply Sparse.wf_set; assumption)
    | exact rfl
    | intro _
    | dsimp only
    | split

theorem execAnaOutOpen_does {A : List Part} {b₀ : State} (chs : BitVec 16) (s : State) 
    (hD : Does A b₀ s) (hA : partsIn [.block 0x01, .block 0x02, .block 0x03, .block 0x05, .block 0x06, .block 0x08, .block 0x09, .block 0x0A, .block 0x0C, .free, .strand, .backup, .tides, .seqs, .exe, .loop, .dio, .ana, .saf, .pair, .can, .sup, .mbx, .out] A = true) : DoesO A b₀ (execAnaOutOpen chs s) := by
  unfold execAnaOutOpen
  repeat' first
    | with_reducible assumption
    | with_reducible apply anaCells_does
    | ((with_reducible refine partsIn_trans ?_ hA); exact rfl)
    | ((with_reducible refine listed_code ?_ hA); exact rfl)
    | exact fun (h : Sparse.wf _ _ = true) => h
    | with_reducible apply next_does
    | with_reducible apply id_does
    | with_reducible apply ite_does
    | with_reducible apply iteO_does
    | (apply Sparse.wf_set; assumption)
    | exact rfl
    | intro _
    | dsimp only
    | split

theorem execAnaReadbackErr_does {A : List Part} {b₀ : State} (chs : BitVec 16) (s : State) 
    (hD : Does A b₀ s) (hA : partsIn [.block 0x01, .block 0x02, .block 0x03, .block 0x05, .block 0x06, .block 0x08, .block 0x09, .block 0x0A, .block 0x0C, .free, .strand, .backup, .tides, .seqs, .exe, .loop, .dio, .ana, .saf, .pair, .can, .sup, .mbx, .out] A = true) : DoesO A b₀ (execAnaReadbackErr chs s) := by
  unfold execAnaReadbackErr
  repeat' first
    | with_reducible assumption
    | with_reducible apply anaCells_does
    | ((with_reducible refine partsIn_trans ?_ hA); exact rfl)
    | ((with_reducible refine listed_code ?_ hA); exact rfl)
    | exact fun (h : Sparse.wf _ _ = true) => h
    | with_reducible apply next_does
    | with_reducible apply id_does
    | with_reducible apply ite_does
    | with_reducible apply iteO_does
    | (apply Sparse.wf_set; assumption)
    | exact rfl
    | intro _
    | dsimp only
    | split

theorem execAnaOutputFaultClear_does {A : List Part} {b₀ : State} (n : Fin 16) (s : State) 
    (hD : Does A b₀ s) (hA : partsIn [.ana] A = true) : DoesO A b₀ (execAnaOutputFaultClear n s) := by
  unfold execAnaOutputFaultClear
  repeat' first
    | with_reducible assumption
    | with_reducible apply onAn_does
    | ((with_reducible refine partsIn_trans ?_ hA); exact rfl)
    | ((with_reducible refine listed_code ?_ hA); exact rfl)
    | exact fun (h : Sparse.wf _ _ = true) => h
    | with_reducible apply next_does
    | with_reducible apply id_does
    | with_reducible apply ite_does
    | with_reducible apply iteO_does
    | (apply Sparse.wf_set; assumption)
    | exact rfl
    | intro _
    | dsimp only
    | split

theorem execAnaCompliance_does {A : List Part} {b₀ : State} (n : Fin 16) (mv : BitVec 16) (tie : Bool) (s : State) 
    (hD : Does A b₀ s) (hA : partsIn [.block 0x06, .free, .strand, .ana, .out] A = true) : DoesO A b₀ (execAnaCompliance n mv tie s) := by
  unfold execAnaCompliance
  repeat' first
    | with_reducible assumption
    | with_reducible apply bump_does
    | with_reducible apply onAn_does
    | with_reducible apply raiseF_does
    | with_reducible apply say_does
    | with_reducible apply wr_does
    | ((with_reducible refine listed_block 6 ?_ ?_ hA); first | omega | (dsimp only [Fld.ANA_CLOSE_CALL_COUNT, Fld.ANA_EVENT_COMPLIANCE, Reg.ANn_HEADROOM]; omega) | (dsimp only [Fld.ANA_CLOSE_CALL_COUNT, Fld.ANA_EVENT_COMPLIANCE, Reg.ANn_HEADROOM]; split <;> omega); exact rfl)
    | ((with_reducible refine partsIn_trans ?_ hA); exact rfl)
    | ((with_reducible refine listed_code ?_ hA); exact rfl)
    | exact fun (h : Sparse.wf _ _ = true) => h
    | with_reducible apply next_does
    | with_reducible apply id_does
    | with_reducible apply ite_does
    | with_reducible apply iteO_does
    | (apply Sparse.wf_set; assumption)
    | exact rfl
    | intro _
    | dsimp only
    | split

theorem execAnaComplianceClear_does {A : List Part} {b₀ : State} (n : Fin 16) (mv : BitVec 16) (tie : Bool) (s : State) 
    (hD : Does A b₀ s) (hA : partsIn [.block 0x06, .free, .strand, .ana, .out] A = true) : DoesO A b₀ (execAnaComplianceClear n mv tie s) := by
  unfold execAnaComplianceClear
  repeat' first
    | with_reducible assumption
    | with_reducible apply bump_does
    | with_reducible apply onAn_does
    | with_reducible apply say_does
    | with_reducible apply wr_does
    | ((with_reducible refine listed_block 6 ?_ ?_ hA); first | omega | (dsimp only [Fld.ANA_CLOSE_CALL_COUNT, Reg.ANn_HEADROOM]; omega) | (dsimp only [Fld.ANA_CLOSE_CALL_COUNT, Reg.ANn_HEADROOM]; split <;> omega); exact rfl)
    | ((with_reducible refine partsIn_trans ?_ hA); exact rfl)
    | ((with_reducible refine listed_code ?_ hA); exact rfl)
    | exact fun (h : Sparse.wf _ _ = true) => h
    | with_reducible apply next_does
    | with_reducible apply id_does
    | with_reducible apply ite_does
    | with_reducible apply iteO_does
    | (apply Sparse.wf_set; assumption)
    | exact rfl
    | intro _
    | dsimp only
    | split

theorem execAnaKeepaliveExpiry_does {A : List Part} {b₀ : State} (k : Fin 4) (s : State) 
    (hD : Does A b₀ s) (hA : partsIn [.ana] A = true) : DoesO A b₀ (execAnaKeepaliveExpiry k s) := by
  unfold execAnaKeepaliveExpiry
  repeat' first
    | with_reducible assumption
    | with_reducible apply onAnBank_does
    | ((with_reducible refine partsIn_trans ?_ hA); exact rfl)
    | ((with_reducible refine listed_code ?_ hA); exact rfl)
    | exact fun (h : Sparse.wf _ _ = true) => h
    | with_reducible apply next_does
    | with_reducible apply id_does
    | with_reducible apply ite_does
    | with_reducible apply iteO_does
    | (apply Sparse.wf_set; assumption)
    | exact rfl
    | intro _
    | dsimp only
    | split

theorem execAnaStageSilent_does {A : List Part} {b₀ : State} (k : Fin 4) (s : State) 
    (hD : Does A b₀ s) (hA : partsIn [.block 0x06, .free, .strand, .ana, .out] A = true) : DoesO A b₀ (execAnaStageSilent k s) := by
  unfold execAnaStageSilent
  repeat' first
    | with_reducible assumption
    | with_reducible apply onAnBank_does
    | with_reducible apply raiseF_does
    | with_reducible apply say_does
    | ((with_reducible refine partsIn_trans ?_ hA); exact rfl)
    | ((with_reducible refine listed_code ?_ hA); exact rfl)
    | exact fun (h : Sparse.wf _ _ = true) => h
    | with_reducible apply next_does
    | with_reducible apply id_does
    | with_reducible apply ite_does
    | with_reducible apply iteO_does
    | (apply Sparse.wf_set; assumption)
    | exact rfl
    | intro _
    | dsimp only
    | split

theorem execAnaBankIsolated_does {A : List Part} {b₀ : State} (k : Fin 4) (s : State) 
    (hD : Does A b₀ s) (hA : partsIn [.block 0x01, .block 0x02, .block 0x03, .block 0x05, .block 0x06, .block 0x08, .block 0x09, .block 0x0A, .block 0x0C, .free, .strand, .backup, .tides, .seqs, .exe, .loop, .dio, .ana, .saf, .pair, .can, .sup, .mbx, .out] A = true) : DoesO A b₀ (execAnaBankIsolated k s) := by
  unfold execAnaBankIsolated
  repeat' first
    | with_reducible assumption
    | with_reducible apply anaIsolate_does
    | ((with_reducible refine partsIn_trans ?_ hA); exact rfl)
    | ((with_reducible refine listed_code ?_ hA); exact rfl)
    | exact fun (h : Sparse.wf _ _ = true) => h
    | with_reducible apply next_does
    | with_reducible apply id_does
    | with_reducible apply ite_does
    | with_reducible apply iteO_does
    | (apply Sparse.wf_set; assumption)
    | exact rfl
    | intro _
    | dsimp only
    | split

theorem execAnaBankRecover_does {A : List Part} {b₀ : State} (k : Fin 4) (pass : Bool) (s : State) 
    (hD : Does A b₀ s) (hA : partsIn [.block 0x06, .block 0x0F, .free, .strand, .ana, .sup, .out] A = true) : DoesO A b₀ (execAnaBankRecover k pass s) := by
  unfold execAnaBankRecover
  repeat' first
    | with_reducible assumption
    | with_reducible apply hostCmd_does
    | with_reducible apply onAnBank_does
    | with_reducible apply raiseF_does
    | with_reducible apply say_does
    | with_reducible apply setFld_does
    | with_reducible apply unisolateBank_does
    | with_reducible apply withFree_does
    | ((with_reducible refine partsIn_trans ?_ hA); exact rfl)
    | ((with_reducible refine listed_code ?_ hA); exact rfl)
    | exact fun (h : Sparse.wf _ _ = true) => h
    | with_reducible apply next_does
    | with_reducible apply id_does
    | with_reducible apply ite_does
    | with_reducible apply iteO_does
    | (apply Sparse.wf_set; assumption)
    | exact rfl
    | intro _
    | dsimp only
    | split

end Sys2Proof.Machine
end

