-- ==== Sys2Proof/Laws/OnlyBoundary.lean ====
section
/-! SUPPORT. What each operation of Machine/Boundary.lean can do: the parts of the state it may change, and that it keeps
canonical form. -/
namespace Sys2Proof.Machine

theorem feedOk_block (b : Bool) : (feedOk b).addr / 65536 = 0 := by
  unfold feedOk
  first
    | rfl
    | ((repeat' split) <;> first | rfl | (dsimp only [Fld.MOD_STATUS_FEED_A_OK, Fld.MOD_STATUS_FEED_B_OK]; omega))
    | ((repeat' split) <;> dsimp only [Fld.MOD_STATUS_FEED_A_OK, Fld.MOD_STATUS_FEED_B_OK])

theorem modSay_does {A : List Part} {b₀ : State} (f : RegField) (st : Status) (s : State) (hp_f : (Part.block (f.addr / 65536)).listed A = true)
    (hD : Does A b₀ s) (hA : partsIn [.free, .strand, .out] A = true) : Does A b₀ (modSay f st s) := by
  unfold modSay
  repeat' first
    | with_reducible assumption
    | with_reducible exact hp_f
    | with_reducible apply raiseF_does
    | with_reducible apply say_does
    | ((with_reducible refine partsIn_trans ?_ hA); exact rfl)
    | ((with_reducible refine listed_code ?_ hA); exact rfl)
    | exact fun (h : Sparse.wf _ _ = true) => h
    | with_reducible apply next_does
    | with_reducible apply id_does
    | with_reducible apply ite_does
    | with_reducible apply iteO_does
    | (apply Sparse.wf_set; assumption)
    | exact rfl
    | intro _
    | dsimp only
    | split

theorem execModFeedLow_does {A : List Part} {b₀ : State} (feedB : Bool) (tie : Bool) (s : State) 
    (hD : Does A b₀ s) (hA : partsIn [.block 0x00, .free, .strand, .out] A = true) : DoesO A b₀ (execModFeedLow feedB tie s) := by
  unfold execModFeedLow
  repeat' first
    | with_reducible assumption
    | with_reducible apply bump_does
    | with_reducible apply modSay_does
    | with_reducible apply setFlag_does
    | ((with_reducible refine listed_block 0 ?_ ?_ hA); first | omega | (dsimp only [Fld.MOD_CLOSE_CALL_COUNT, Fld.MOD_EVENT_FEED, Fld.MOD_STATUS_FEED_A_OK, Fld.MOD_STATUS_FEED_B_OK, feedOk]; omega) | (dsimp only [Fld.MOD_CLOSE_CALL_COUNT, Fld.MOD_EVENT_FEED, Fld.MOD_STATUS_FEED_A_OK, Fld.MOD_STATUS_FEED_B_OK, feedOk]; split <;> omega); exact rfl)
    | ((with_reducible refine listed_block 0 ?_ ?_ hA); exact feedOk_block _; exact rfl)
    | ((with_reducible refine partsIn_trans ?_ hA); exact rfl)
    | ((with_reducible refine listed_code ?_ hA); exact rfl)
    | exact fun (h : Sparse.wf _ _ = true) => h
    | with_reducible apply next_does
    | with_reducible apply id_does
    | with_reducible apply ite_does
    | with_reducible apply iteO_does
    | (apply Sparse.wf_set; assumption)
    | exact rfl
    | intro _
    | dsimp only
    | split

theorem execModFeedOk_does {A : List Part} {b₀ : State} (feedB : Bool) (s : State) 
    (hD : Does A b₀ s) (hA : partsIn [.block 0x00, .free, .strand, .out] A = true) : DoesO A b₀ (execModFeedOk feedB s) := by
  unfold execModFeedOk
  repeat' first
    | with_reducible assumption
    | with_reducible apply modSay_does
    | with_reducible apply setFlag_does
    | ((with_reducible refine listed_block 0 ?_ ?_ hA); first | omega | (dsimp only [Fld.MOD_EVENT_FEED, Fld.MOD_STATUS_FEED_A_OK, Fld.MOD_STATUS_FEED_B_OK, feedOk]; omega) | (dsimp only [Fld.MOD_EVENT_FEED, Fld.MOD_STATUS_FEED_A_OK, Fld.MOD_STATUS_FEED_B_OK, feedOk]; split <;> omega); exact rfl)
    | ((with_reducible refine listed_block 0 ?_ ?_ hA); exact feedOk_block _; exact rfl)
    | ((with_reducible refine partsIn_trans ?_ hA); exact rfl)
    | ((with_reducible refine listed_code ?_ hA); exact rfl)
    | exact fun (h : Sparse.wf _ _ = true) => h
    | with_reducible apply next_does
    | with_reducible apply id_does
    | with_reducible apply ite_does
    | with_reducible apply iteO_does
    | (apply Sparse.wf_set; assumption)
    | exact rfl
    | intro _
    | dsimp only
    | split

theorem execModPowerFail_does {A : List Part} {b₀ : State}  (s : State) 
    (hD : Does A b₀ s) (hA : partsIn [.block 0x01, .block 0x08, .block 0x09, .block 0x0C, .free, .strand, .saf, .pair, .can, .sup, .out] A = true) : DoesO A b₀ (execModPowerFail s) := by
  unfold execModPowerFail
  repeat' first
    | with_reducible assumption
    | with_reducible apply moduleFault_does
    | with_reducible apply say_does
    | ((with_reducible refine partsIn_trans ?_ hA); exact rfl)
    | ((with_reducible refine listed_code ?_ hA); exact rfl)
    | exact fun (h : Sparse.wf _ _ = true) => h
    | with_reducible apply next_does
    | with_reducible apply id_does
    | with_reducible apply ite_does
    | with_reducible apply iteO_does
    | (apply Sparse.wf_set; assumption)
    | exact rfl
    | intro _
    | dsimp only
    | split
    | with_reducible apply upd_sup

theorem execPowerFailReset_does {A : List Part} {b₀ : State}  (s : State) 
    (hD : Does A b₀ s) (hA : partsIn [.blocks, .master, .host, .time, .free, .strand, .tides, .tideTable, .seqs, .exe, .loop, .dio, .rfx, .ana, .saf, .triad, .pair, .net, .can, .lcy, .fwu, .sup, .mpu, .mbx, .queSeq, .out] A = true) : DoesO A b₀ (execPowerFailReset s) := by
  unfold execPowerFailReset
  repeat' first
    | with_reducible assumption
    | with_reducible apply moduleReset_does
    | ((with_reducible refine listed_blocks ?_ hA); exact rfl)
    | ((with_reducible refine partsIn_trans ?_ hA); exact rfl)
    | ((with_reducible refine listed_code ?_ hA); exact rfl)
    | exact fun (h : Sparse.wf _ _ = true) => h
    | with_reducible apply next_does
    | with_reducible apply id_does
    | with_reducible apply ite_does
    | with_reducible apply iteO_does
    | (apply Sparse.wf_set; assumption)
    | exact rfl
    | intro _
    | dsimp only
    | split
    | with_reducible apply upd_sup

theorem execPowerLoss_does {A : List Part} {b₀ : State}  (s : State) 
    (hD : Does A b₀ s) (hA : partsIn [.blocks, .master, .host, .time, .free, .mem, .strand, .tides, .tideTable, .seqs, .exe, .loop, .dio, .rfx, .ana, .saf, .triad, .pair, .net, .can, .lcy, .fwu, .sup, .mpu, .mbx, .queSeq, .out] A = true) : DoesO A b₀ (execPowerLoss s) := by
  unfold execPowerLoss
  repeat' first
    | with_reducible assumption
    | with_reducible apply memLost_does
    | with_reducible apply moduleReset_does
    | ((with_reducible refine listed_blocks ?_ hA); exact rfl)
    | ((with_reducible refine partsIn_trans ?_ hA); exact rfl)
    | ((with_reducible refine listed_code ?_ hA); exact rfl)
    | exact fun (h : Sparse.wf _ _ = true) => h
    | with_reducible apply next_does
    | with_reducible apply id_does
    | with_reducible apply ite_does
    | with_reducible apply iteO_does
    | (apply Sparse.wf_set; assumption)
    | exact rfl
    | intro _
    | dsimp only
    | split
    | with_reducible apply upd_saf_sup

theorem execPowerOn_does {A : List Part} {b₀ : State}  (s : State) 
    (hD : Does A b₀ s) (hA : partsIn [.block 0x00, .block 0x09, .block 0x11, .time, .free, .mem, .strand, .backup, .triad, .lcy, .fwu, .sup, .mpu, .out] A = true) : DoesO A b₀ (execPowerOn s) := by
  unfold execPowerOn
  repeat' first
    | with_reducible assumption
    | with_reducible apply resetRelease_does
    | ((with_reducible refine partsIn_trans ?_ hA); exact rfl)
    | ((with_reducible refine listed_code ?_ hA); exact rfl)
    | exact fun (h : Sparse.wf _ _ = true) => h
    | with_reducible apply next_does
    | with_reducible apply id_does
    | with_reducible apply ite_does
    | with_reducible apply iteO_does
    | (apply Sparse.wf_set; assumption)
    | exact rfl
    | intro _
    | dsimp only
    | split
    | with_reducible apply upd_sup

theorem execInsertionQualified_does {A : List Part} {b₀ : State}  (s : State) 
    (hD : Does A b₀ s) (hA : partsIn [.sup] A = true) : DoesO A b₀ (execInsertionQualified s) := by
  unfold execInsertionQualified
  repeat' first
    | with_reducible assumption
    | ((with_reducible refine partsIn_trans ?_ hA); exact rfl)
    | ((with_reducible refine listed_code ?_ hA); exact rfl)
    | exact fun (h : Sparse.wf _ _ = true) => h
    | with_reducible apply next_does
    | with_reducible apply id_does
    | with_reducible apply ite_does
    | with_reducible apply iteO_does
    | (apply Sparse.wf_set; assumption)
    | exact rfl
    | intro _
    | dsimp only
    | split
    | with_reducible apply upd_sup

theorem execSeatedNBreak_does {A : List Part} {b₀ : State}  (s : State) 
    (hD : Does A b₀ s) (hA : partsIn [.block 0x08, .block 0x09, .block 0x0C, .free, .strand, .saf, .pair, .can, .sup, .out] A = true) : DoesO A b₀ (execSeatedNBreak s) := by
  unfold execSeatedNBreak
  repeat' first
    | with_reducible assumption
    | with_reducible apply onlyIf_does
    | with_reducible apply pairTo_does
    | with_reducible apply releaseAuth_does
    | with_reducible apply sqEvalAll_does
    | with_reducible apply withFree_does
    | ((with_reducible refine partsIn_trans ?_ hA); exact rfl)
    | ((with_reducible refine listed_code ?_ hA); exact rfl)
    | exact fun (h : Sparse.wf _ _ = true) => h
    | with_reducible apply next_does
    | with_reducible apply id_does
    | with_reducible apply ite_does
    | with_reducible apply iteO_does
    | (apply Sparse.wf_set; assumption)
    | exact rfl
    | intro _
    | dsimp only
    | split
    | with_reducible apply upd_sup

theorem execLeverOpen_does {A : List Part} {b₀ : State}  (s : State) 
    (hD : Does A b₀ s) (hA : partsIn [.block 0x00, .free, .strand, .pair, .sup, .out] A = true) : DoesO A b₀ (execLeverOpen s) := by
  unfold execLeverOpen
  repeat' first
    | with_reducible assumption
    | with_reducible apply removeRefused_does
    | with_reducible apply switchAsk_does
    | ((with_reducible refine listed_block 0 ?_ ?_ hA); first | omega | (dsimp only [Fld.PAIR_STATE_STATE, pairState]; omega) | (dsimp only [Fld.PAIR_STATE_STATE, pairState]; split <;> omega); exact rfl)
    | ((with_reducible refine partsIn_trans ?_ hA); exact rfl)
    | ((with_reducible refine listed_code ?_ hA); exact rfl)
    | exact fun (h : Sparse.wf _ _ = true) => h
    | with_reducible apply next_does
    | with_reducible apply id_does
    | with_reducible apply ite_does
    | with_reducible apply iteO_does
    | (apply Sparse.wf_set; assumption)
    | exact rfl
    | intro _
    | dsimp only
    | split
    | with_reducible apply upd_sup

theorem execModRemoveReady_does {A : List Part} {b₀ : State}  (s : State) 
    (hD : Does A b₀ s) (hA : partsIn [.block 0x00, .free, .strand, .sup, .out] A = true) : DoesO A b₀ (execModRemoveReady s) := by
  unfold execModRemoveReady
  repeat' first
    | with_reducible assumption
    | with_reducible apply modSay_does
    | with_reducible apply removeRefused_does
    | with_reducible apply setFlag_does
    | ((with_reducible refine partsIn_trans ?_ hA); exact rfl)
    | ((with_reducible refine listed_code ?_ hA); exact rfl)
    | exact fun (h : Sparse.wf _ _ = true) => h
    | with_reducible apply next_does
    | with_reducible apply id_does
    | with_reducible apply ite_does
    | with_reducible apply iteO_does
    | (apply Sparse.wf_set; assumption)
    | exact rfl
    | intro _
    | dsimp only
    | split
    | with_reducible apply upd_sup

theorem execLeverClose_does {A : List Part} {b₀ : State}  (s : State) 
    (hD : Does A b₀ s) (hA : partsIn [.block 0x00, .block 0x09, .pair, .sup, .out] A = true) : DoesO A b₀ (execLeverClose s) := by
  unfold execLeverClose
  repeat' first
    | with_reducible assumption
    | with_reducible apply onlyIf_does
    | with_reducible apply setFlag_does
    | with_reducible apply switchDrop_does
    | ((with_reducible refine partsIn_trans ?_ hA); exact rfl)
    | ((with_reducible refine listed_code ?_ hA); exact rfl)
    | exact fun (h : Sparse.wf _ _ = true) => h
    | with_reducible apply next_does
    | with_reducible apply id_does
    | with_reducible apply ite_does
    | with_reducible apply iteO_does
    | (apply Sparse.wf_set; assumption)
    | exact rfl
    | intro _
    | dsimp only
    | split
    | with_reducible apply upd_sup

theorem execModSidChanged_does {A : List Part} {b₀ : State} (sid : BitVec 2) (s : State) 
    (hD : Does A b₀ s) (hA : partsIn [.block 0x00, .free, .strand, .sup, .out] A = true) : DoesO A b₀ (execModSidChanged sid s) := by
  unfold execModSidChanged
  repeat' first
    | with_reducible assumption
    | with_reducible apply modSay_does
    | ((with_reducible refine partsIn_trans ?_ hA); exact rfl)
    | ((with_reducible refine listed_code ?_ hA); exact rfl)
    | exact fun (h : Sparse.wf _ _ = true) => h
    | with_reducible apply next_does
    | with_reducible apply id_does
    | with_reducible apply ite_does
    | with_reducible apply iteO_does
    | (apply Sparse.wf_set; assumption)
    | exact rfl
    | intro _
    | dsimp only
    | split
    | with_reducible apply upd_sup

theorem execPeerPresenceChange_does {A : List Part} {b₀ : State} (present : Bool) (s : State) 
    (hD : Does A b₀ s) (hA : partsIn [.sup] A = true) : DoesO A b₀ (execPeerPresenceChange present s) := by
  unfold execPeerPresenceChange
  repeat' first
    | with_reducible assumption
    | ((with_reducible refine partsIn_trans ?_ hA); exact rfl)
    | ((with_reducible refine listed_code ?_ hA); exact rfl)
    | exact fun (h : Sparse.wf _ _ = true) => h
    | with_reducible apply next_does
    | with_reducible apply id_does
    | with_reducible apply ite_does
    | with_reducible apply iteO_does
    | (apply Sparse.wf_set; assumption)
    | exact rfl
    | intro _
    | dsimp only
    | split
    | with_reducible apply upd_sup

end Sys2Proof.Machine
end

