-- ==== Sys2Proof/Laws/OnlyExec.lean ====
section
/-! SUPPORT. What each operation of Machine/Exec.lean can do: the parts of the state it may change, and that it keeps
canonical form. -/
namespace Sys2Proof.Machine

theorem execTaskRelease_does {A : List Part} {b₀ : State} (t : Fin 8) (forward : Bool) (s : State) 
    (hD : Does A b₀ s) (hA : partsIn [.block 0x01, .block 0x02, .block 0x03, .block 0x05, .block 0x08, .block 0x09, .block 0x0A, .block 0x0C, .free, .strand, .backup, .tides, .seqs, .exe, .loop, .dio, .saf, .pair, .can, .fwu, .sup, .mbx, .out] A = true) : DoesO A b₀ (execTaskRelease t forward s) := by
  unfold execTaskRelease
  repeat' first
    | with_reducible assumption
    | with_reducible apply dueRelease_does
    | with_reducible apply onTask_does
    | with_reducible apply onlyIf_does
    | with_reducible apply raiseF_does
    | with_reducible apply say_does
    | ((with_reducible refine partsIn_trans ?_ hA); exact rfl)
    | ((with_reducible refine listed_code ?_ hA); exact rfl)
    | exact fun (h : Sparse.wf _ _ = true) => h
    | with_reducible apply next_does
    | with_reducible apply id_does
    | with_reducible apply ite_does
    | with_reducible apply iteO_does
    | (apply Sparse.wf_set; assumption)
    | exact rfl
    | intro _
    | dsimp only
    | split

theorem execTaskTimerRelease_does {A : List Part} {b₀ : State} (t : Fin 8) (s : State) 
    (hD : Does A b₀ s) (hA : partsIn [.block 0x01, .block 0x02, .block 0x03, .block 0x05, .block 0x08, .block 0x09, .block 0x0A, .block 0x0C, .free, .strand, .backup, .tides, .seqs, .exe, .loop, .dio, .saf, .pair, .can, .fwu, .sup, .mbx, .out] A = true) : DoesO A b₀ (execTaskTimerRelease t s) := by
  unfold execTaskTimerRelease
  repeat' first
    | with_reducible assumption
    | with_reducible apply dueRelease_does
    | with_reducible apply onTask_does
    | with_reducible apply onlyIf_does
    | with_reducible apply raiseF_does
    | with_reducible apply say_does
    | ((with_reducible refine partsIn_trans ?_ hA); exact rfl)
    | ((with_reducible refine listed_code ?_ hA); exact rfl)
    | exact fun (h : Sparse.wf _ _ = true) => h
    | with_reducible apply next_does
    | with_reducible apply id_does
    | with_reducible apply ite_does
    | with_reducible apply iteO_does
    | (apply Sparse.wf_set; assumption)
    | exact rfl
    | intro _
    | dsimp only
    | split

theorem execEventTaskSignal_does {A : List Part} {b₀ : State} (e : Fin 16) (s : State) 
    (hD : Does A b₀ s) (hA : partsIn [.block 0x03, .free, .strand, .exe, .out] A = true) : DoesO A b₀ (execEventTaskSignal e s) := by
  unfold execEventTaskSignal
  repeat' first
    | with_reducible assumption
    | with_reducible apply signalTask_does
    | ((with_reducible refine partsIn_trans ?_ hA); exact rfl)
    | ((with_reducible refine listed_code ?_ hA); exact rfl)
    | exact fun (h : Sparse.wf _ _ = true) => h
    | with_reducible apply next_does
    | with_reducible apply id_does
    | with_reducible apply ite_does
    | with_reducible apply iteO_does
    | (apply Sparse.wf_set; assumption)
    | exact rfl
    | intro _
    | dsimp only
    | split

theorem execEventTaskRelease_does {A : List Part} {b₀ : State} (e : Fin 16) (s : State) 
    (hD : Does A b₀ s) (hA : partsIn [.block 0x03, .block 0x05, .free, .strand, .exe, .dio, .mbx, .out] A = true) : DoesO A b₀ (execEventTaskRelease e s) := by
  unfold execEventTaskRelease
  repeat' first
    | with_reducible assumption
    | with_reducible apply heldRelease_does
    | with_reducible apply onTask_does
    | with_reducible apply releaseTask_does
    | ((with_reducible refine partsIn_trans ?_ hA); exact rfl)
    | ((with_reducible refine listed_code ?_ hA); exact rfl)
    | exact fun (h : Sparse.wf _ _ = true) => h
    | with_reducible apply next_does
    | with_reducible apply id_does
    | with_reducible apply ite_does
    | with_reducible apply iteO_does
    | (apply Sparse.wf_set; assumption)
    | exact rfl
    | intro _
    | dsimp only
    | split

theorem execExeEvtSignalWrite_does {A : List Part} {b₀ : State} (sig : BitVec 16) (s : State) 
    (hD : Does A b₀ s) (hA : partsIn [.block 0x03, .block 0x0F, .free, .strand, .exe, .out] A = true) : DoesO A b₀ (execExeEvtSignalWrite sig s) := by
  unfold execExeEvtSignalWrite
  repeat' first
    | with_reducible assumption
    | with_reducible apply forAll_does
    | with_reducible apply hostCmd_does
    | with_reducible apply signalTask_does
    | ((with_reducible refine partsIn_trans ?_ hA); exact rfl)
    | ((with_reducible refine listed_code ?_ hA); exact rfl)
    | exact fun (h : Sparse.wf _ _ = true) => h
    | with_reducible apply next_does
    | with_reducible apply id_does
    | with_reducible apply ite_does
    | with_reducible apply iteO_does
    | (apply Sparse.wf_set; assumption)
    | exact rfl
    | intro _
    | dsimp only
    | split

theorem execInputLatchComplete_does {A : List Part} {b₀ : State} (t : Fin 24) (s : State) 
    (hD : Does A b₀ s) (hA : partsIn [.exe, .pair, .out] A = true) : DoesO A b₀ (execInputLatchComplete t s) := by
  unfold execInputLatchComplete
  repeat' first
    | with_reducible assumption
    | with_reducible apply latchDone_does
    | ((with_reducible refine partsIn_trans ?_ hA); exact rfl)
    | ((with_reducible refine listed_code ?_ hA); exact rfl)
    | exact fun (h : Sparse.wf _ _ = true) => h
    | with_reducible apply next_does
    | with_reducible apply id_does
    | with_reducible apply ite_does
    | with_reducible apply iteO_does
    | (apply Sparse.wf_set; assumption)
    | exact rfl
    | intro _
    | dsimp only
    | split

theorem execTaskPreempt_does {A : List Part} {b₀ : State}  (s : State) 
    (hD : Does A b₀ s) (hA : partsIn [.exe, .pair, .out] A = true) : DoesO A b₀ (execTaskPreempt s) := by
  unfold execTaskPreempt
  repeat' first
    | with_reducible assumption
    | with_reducible apply preempt_does
    | ((with_reducible refine partsIn_trans ?_ hA); exact rfl)
    | ((with_reducible refine listed_code ?_ hA); exact rfl)
    | exact fun (h : Sparse.wf _ _ = true) => h
    | with_reducible apply next_does
    | with_reducible apply id_does
    | with_reducible apply ite_does
    | with_reducible apply iteO_does
    | (apply Sparse.wf_set; assumption)
    | exact rfl
    | intro _
    | dsimp only
    | split

theorem execOutputCommit_does {A : List Part} {b₀ : State} (t : Fin 24) (tie : Bool) (s : State) 
    (hD : Does A b₀ s) (hA : partsIn [.block 0x03, .block 0x05, .block 0x09, .block 0x0A, .free, .strand, .exe, .dio, .pair, .net, .can, .out] A = true) : DoesO A b₀ (execOutputCommit t tie s) := by
  unfold execOutputCommit
  repeat' first
    | with_reducible assumption
    | with_reducible apply bump_does
    | with_reducible apply commitTask_does
    | with_reducible apply onlyIf_does
    | with_reducible apply pairCommitted_does
    | ((with_reducible refine partsIn_trans ?_ hA); exact rfl)
    | ((with_reducible refine listed_code ?_ hA); exact rfl)
    | exact fun (h : Sparse.wf _ _ = true) => h
    | with_reducible apply next_does
    | with_reducible apply id_does
    | with_reducible apply ite_does
    | with_reducible apply iteO_does
    | (apply Sparse.wf_set; assumption)
    | exact rfl
    | intro _
    | dsimp only
    | split

theorem execExeRunWrite_does {A : List Part} {b₀ : State} (run : Bool) (s : State) 
    (hD : Does A b₀ s) (hA : partsIn [.block 0x03, .block 0x0F, .strand, .exe, .out] A = true) : DoesO A b₀ (execExeRunWrite run s) := by
  unfold execExeRunWrite
  repeat' first
    | with_reducible assumption
    | with_reducible apply forAll_does
    | with_reducible apply hostCmd_does
    | with_reducible apply onTask_does
    | with_reducible apply setFlag_does
    | ((with_reducible refine partsIn_trans ?_ hA); exact rfl)
    | ((with_reducible refine listed_code ?_ hA); exact rfl)
    | exact fun (h : Sparse.wf _ _ = true) => h
    | with_reducible apply next_does
    | with_reducible apply id_does
    | with_reducible apply ite_does
    | with_reducible apply iteO_does
    | (apply Sparse.wf_set; assumption)
    | exact rfl
    | intro _
    | dsimp only
    | split

theorem execExeOverrun_does {A : List Part} {b₀ : State} (t : Fin 24) (s : State) 
    (hD : Does A b₀ s) (hA : partsIn [.block 0x01, .block 0x02, .block 0x03, .block 0x05, .block 0x08, .block 0x09, .block 0x0A, .block 0x0C, .free, .strand, .backup, .tides, .seqs, .exe, .loop, .dio, .saf, .pair, .can, .sup, .mbx, .out] A = true) : DoesO A b₀ (execExeOverrun t s) := by
  unfold execExeOverrun
  repeat' first
    | with_reducible assumption
    | with_reducible apply forAll_does
    | with_reducible apply onTask_does
    | with_reducible apply overrun_does
    | with_reducible apply pairTo_does
    | with_reducible apply raiseF_does
    | with_reducible apply say_does
    | ((with_reducible refine listed_block 1 ?_ ?_ hA); first | omega | (dsimp only [Fld.PAIR_EVENT_STANDBY_FAULT, Fld.PAIR_STATE_STATE, pairState]; omega) | (dsimp only [Fld.PAIR_EVENT_STANDBY_FAULT, Fld.PAIR_STATE_STATE, pairState]; split <;> omega); exact rfl)
    | ((with_reducible refine listed_block 2 ?_ ?_ hA); first | omega | (dsimp only [Fld.PAIR_EVENT_STANDBY_FAULT, Fld.PAIR_STATE_STATE, pairState]; omega) | (dsimp only [Fld.PAIR_EVENT_STANDBY_FAULT, Fld.PAIR_STATE_STATE, pairState]; split <;> omega); exact rfl)
    | ((with_reducible refine listed_block 3 ?_ ?_ hA); first | omega | (dsimp only [Fld.PAIR_EVENT_STANDBY_FAULT, Fld.PAIR_STATE_STATE, pairState]; omega) | (dsimp only [Fld.PAIR_EVENT_STANDBY_FAULT, Fld.PAIR_STATE_STATE, pairState]; split <;> omega); exact rfl)
    | ((with_reducible refine listed_block 5 ?_ ?_ hA); first | omega | (dsimp only [Fld.PAIR_EVENT_STANDBY_FAULT, Fld.PAIR_STATE_STATE, pairState]; omega) | (dsimp only [Fld.PAIR_EVENT_STANDBY_FAULT, Fld.PAIR_STATE_STATE, pairState]; split <;> omega); exact rfl)
    | ((with_reducible refine listed_block 8 ?_ ?_ hA); first | omega | (dsimp only [Fld.PAIR_EVENT_STANDBY_FAULT, Fld.PAIR_STATE_STATE, pairState]; omega) | (dsimp only [Fld.PAIR_EVENT_STANDBY_FAULT, Fld.PAIR_STATE_STATE, pairState]; split <;> omega); exact rfl)
    | ((with_reducible refine listed_block 9 ?_ ?_ hA); first | omega | (dsimp only [Fld.PAIR_EVENT_STANDBY_FAULT, Fld.PAIR_STATE_STATE, pairState]; omega) | (dsimp only [Fld.PAIR_EVENT_STANDBY_FAULT, Fld.PAIR_STATE_STATE, pairState]; split <;> omega); exact rfl)
    | ((with_reducible refine listed_block 10 ?_ ?_ hA); first | omega | (dsimp only [Fld.PAIR_EVENT_STANDBY_FAULT, Fld.PAIR_STATE_STATE, pairState]; omega) | (dsimp only [Fld.PAIR_EVENT_STANDBY_FAULT, Fld.PAIR_STATE_STATE, pairState]; split <;> omega); exact rfl)
    | ((with_reducible refine listed_block 12 ?_ ?_ hA); first | omega | (dsimp only [Fld.PAIR_EVENT_STANDBY_FAULT, Fld.PAIR_STATE_STATE, pairState]; omega) | (dsimp only [Fld.PAIR_EVENT_STANDBY_FAULT, Fld.PAIR_STATE_STATE, pairState]; split <;> omega); exact rfl)
    | ((with_reducible refine partsIn_trans ?_ hA); exact rfl)
    | ((with_reducible refine listed_code ?_ hA); exact rfl)
    | exact fun (h : Sparse.wf _ _ = true) => h
    | with_reducible apply next_does
    | with_reducible apply id_does
    | with_reducible apply ite_does
    | with_reducible apply iteO_does
    | (apply Sparse.wf_set; assumption)
    | exact rfl
    | intro _
    | dsimp only
    | split
    | with_reducible apply upd_exe_pair

end Sys2Proof.Machine
end

