-- ==== Sys2Proof/Laws/OnlyHost.lean ====
section
/-! SUPPORT. What each operation of Machine/Host.lean can do: the parts of the state it may change, and that it keeps
canonical form. -/
namespace Sys2Proof.Machine

theorem hostRead_does {A : List Part} {b₀ : State} (a : Nat) (f : State → State) (s : State) (h_f : ∀ u, Does A b₀ u → Does A b₀ (f u))
    (hD : Does A b₀ s) (hA : partsIn [.block 0x0F, .host, .strand, .out] A = true) : Does A b₀ (hostRead a f s) := by
  unfold hostRead
  repeat' first
    | with_reducible assumption
    | with_reducible apply h_f
    | with_reducible apply mpuDeny_does
    | ((with_reducible refine listed_block 15 ?_ ?_ hA); first | omega | (dsimp only [Fld.MPU_STG_MCFG_COLOUR, Fld.SUP_PWR_STATE_STATE, masterColour, power]; omega) | (dsimp only [Fld.MPU_STG_MCFG_COLOUR, Fld.SUP_PWR_STATE_STATE, masterColour, power]; split <;> omega); exact rfl)
    | ((with_reducible refine partsIn_trans ?_ hA); exact rfl)
    | ((with_reducible refine listed_code ?_ hA); exact rfl)
    | exact fun (h : Sparse.wf _ _ = true) => h
    | with_reducible apply next_does
    | with_reducible apply id_does
    | with_reducible apply ite_does
    | with_reducible apply iteO_does
    | (apply Sparse.wf_set; assumption)
    | exact rfl
    | intro _
    | dsimp only
    | split
    | with_reducible apply upd_hostData

theorem execRegisterWrite_does {A : List Part} {b₀ : State} (addr : BitVec 26) (be : BitVec 4) (value : Word) (hwSet : Word) (s : State) 
    (hD : Does A b₀ s) (hA : partsIn [.blocks, .free, .strand, .backup, .dio, .mpu, .out] A = true) : DoesO A b₀ (execRegisterWrite addr be value hwSet s) := by
  unfold execRegisterWrite
  repeat' first
    | with_reducible assumption
    | with_reducible apply hostCmd_does
    | with_reducible apply writeReg_does
    | ((with_reducible refine listed_blocks ?_ hA); exact rfl)
    | ((with_reducible refine partsIn_trans ?_ hA); exact rfl)
    | ((with_reducible refine listed_code ?_ hA); exact rfl)
    | exact fun (h : Sparse.wf _ _ = true) => h
    | with_reducible apply next_does
    | with_reducible apply id_does
    | with_reducible apply ite_does
    | with_reducible apply iteO_does
    | (apply Sparse.wf_set; assumption)
    | exact rfl
    | intro _
    | dsimp only
    | split

theorem tagRead_does {A : List Part} {b₀ : State} (off : Nat) (s : State) 
    (hD : Does A b₀ s) (hA : partsIn [.host] A = true) : Does A b₀ (tagRead off s).2 := by
  unfold tagRead
  repeat' first
    | with_reducible assumption
    | with_reducible apply pairRead_does
    | ((with_reducible refine partsIn_trans ?_ hA); exact rfl)
    | ((with_reducible refine listed_code ?_ hA); exact rfl)
    | exact fun (h : Sparse.wf _ _ = true) => h
    | with_reducible apply next_does
    | with_reducible apply id_does
    | with_reducible apply ite_does
    | with_reducible apply iteO_does
    | (apply Sparse.wf_set; assumption)
    | exact rfl
    | intro _
    | dsimp only
    | split

theorem execLowWordRead_does {A : List Part} {b₀ : State} (addr : BitVec 26) (s : State) 
    (hD : Does A b₀ s) (hA : partsIn [.blocks, .host, .strand, .out] A = true) : DoesO A b₀ (execLowWordRead addr s) := by
  unfold execLowWordRead
  repeat' first
    | with_reducible assumption
    | with_reducible apply hostRead_does
    | with_reducible apply mpuDeny_does
    | with_reducible apply readReg_does
    | with_reducible apply tagRead_does
    | ((with_reducible refine listed_block 15 ?_ ?_ hA); first | omega | (dsimp only [Fld.MPU_STG_MCFG_COLOUR, masterColour]; omega) | (dsimp only [Fld.MPU_STG_MCFG_COLOUR, masterColour]; split <;> omega); exact rfl)
    | ((with_reducible refine listed_blocks ?_ hA); exact rfl)
    | ((with_reducible refine partsIn_trans ?_ hA); exact rfl)
    | ((with_reducible refine listed_code ?_ hA); exact rfl)
    | exact fun (h : Sparse.wf _ _ = true) => h
    | with_reducible apply next_does
    | with_reducible apply id_does
    | with_reducible apply ite_does
    | with_reducible apply iteO_does
    | (apply Sparse.wf_set; assumption)
    | exact rfl
    | intro _
    | dsimp only
    | split
    | with_reducible apply upd_hostData

theorem execCounterRead_does {A : List Part} {b₀ : State} (addr : BitVec 26) (events : Word) (s : State) 
    (hD : Does A b₀ s) (hA : partsIn [.blocks, .host, .strand, .out] A = true) : DoesO A b₀ (execCounterRead addr events s) := by
  unfold execCounterRead
  repeat' first
    | with_reducible assumption
    | with_reducible apply clearRc_does
    | with_reducible apply hostRead_does
    | ((with_reducible refine listed_blocks ?_ hA); exact rfl)
    | ((with_reducible refine partsIn_trans ?_ hA); exact rfl)
    | ((with_reducible refine listed_code ?_ hA); exact rfl)
    | exact fun (h : Sparse.wf _ _ = true) => h
    | with_reducible apply next_does
    | with_reducible apply id_does
    | with_reducible apply ite_does
    | with_reducible apply iteO_does
    | (apply Sparse.wf_set; assumption)
    | exact rfl
    | intro _
    | dsimp only
    | split
    | with_reducible apply upd_hostData

theorem listPuts_does {A : List Part} {b₀ : State} (off : Nat) (l : List Byte) (s : State) 
    (hD : Does A b₀ s) (hA : partsIn [.exe] A = true) : Does A b₀ (listPuts off l s) := by
  induction l generalizing off s with
  | nil => exact hD
  | cons e l ih =>
    unfold listPuts
    repeat' first
      | with_reducible assumption
      | with_reducible apply ih
      | ((with_reducible refine partsIn_trans ?_ hA); exact rfl)
      | ((with_reducible refine listed_code ?_ hA); exact rfl)
      | exact fun (h : Sparse.wf _ _ = true) => h
      | with_reducible apply next_does
      | with_reducible apply id_does
      | with_reducible apply ite_does
      | with_reducible apply iteO_does
      | (apply Sparse.wf_set; assumption)
      | exact rfl
      | intro _
      | dsimp only
      | split
      | with_reducible apply upd_exe

theorem tagsRead_does {A : List Part} {b₀ : State} (m : Nat) (parts : List (Nat × Nat)) (s : State) 
    (hD : Does A b₀ s) (hA : partsIn [.host] A = true) : Does A b₀ (tagsRead m parts s).2 := by
  induction parts generalizing s with
  | nil => exact hD
  | cons e l ih =>
    unfold tagsRead
    repeat' first
      | with_reducible assumption
      | with_reducible apply ih
      | with_reducible apply tagRead_does
      | ((with_reducible refine partsIn_trans ?_ hA); exact rfl)
      | ((with_reducible refine listed_code ?_ hA); exact rfl)
      | exact fun (h : Sparse.wf _ _ = true) => h
      | with_reducible apply next_does
      | with_reducible apply id_does
      | with_reducible apply ite_does
      | with_reducible apply iteO_does
      | (apply Sparse.wf_set; assumption)
      | exact rfl
      | intro _
      | dsimp only
      | split

theorem partRead_does {A : List Part} {b₀ : State} (m : Nat) (a : Nat) (n : Nat) (s : State) 
    (hD : Does A b₀ s) (hA : partsIn [.host] A = true) : Does A b₀ (partRead m a n s).2 := by
  unfold partRead
  repeat' first
    | with_reducible assumption
    | with_reducible apply tagsRead_does
    | ((with_reducible refine partsIn_trans ?_ hA); exact rfl)
    | ((with_reducible refine listed_code ?_ hA); exact rfl)
    | exact fun (h : Sparse.wf _ _ = true) => h
    | with_reducible apply next_does
    | with_reducible apply id_does
    | with_reducible apply ite_does
    | with_reducible apply iteO_does
    | (apply Sparse.wf_set; assumption)
    | exact rfl
    | intro _
    | dsimp only
    | split

theorem partsRead_does {A : List Part} {b₀ : State} (m : Nat) (parts : List (Nat × Nat)) (s : State) 
    (hD : Does A b₀ s) (hA : partsIn [.host] A = true) : Does A b₀ (partsRead m parts s).2 := by
  induction parts generalizing s with
  | nil => exact hD
  | cons e l ih =>
    unfold partsRead
    repeat' first
      | with_reducible assumption
      | with_reducible apply ih
      | with_reducible apply partRead_does
      | ((with_reducible refine partsIn_trans ?_ hA); exact rfl)
      | ((with_reducible refine listed_code ?_ hA); exact rfl)
      | exact fun (h : Sparse.wf _ _ = true) => h
      | with_reducible apply next_does
      | with_reducible apply id_does
      | with_reducible apply ite_does
      | with_reducible apply iteO_does
      | (apply Sparse.wf_set; assumption)
      | exact rfl
      | intro _
      | dsimp only
      | split

theorem tagsWrite_does {A : List Part} {b₀ : State} (m : Nat) (parts : List (Nat × Nat)) (l : List Byte) (s : State) 
    (hD : Does A b₀ s) (hA : partsIn [.block 0x03, .block 0x05, .free, .strand, .exe, .dio, .pair, .out] A = true) : Does A b₀ (tagsWrite m parts l s).2 := by
  induction parts generalizing l s with
  | nil => exact hD
  | cons e l ih =>
    unfold tagsWrite
    repeat' first
      | with_reducible assumption
      | with_reducible apply ih
      | with_reducible apply cwMirror_does
      | with_reducible apply tagDenied_does
      | with_reducible apply tagStore_does
      | ((with_reducible refine partsIn_trans ?_ hA); exact rfl)
      | ((with_reducible refine listed_code ?_ hA); exact rfl)
      | exact fun (h : Sparse.wf _ _ = true) => h
      | with_reducible apply next_does
      | with_reducible apply id_does
      | with_reducible apply ite_does
      | with_reducible apply iteO_does
      | (apply Sparse.wf_set; assumption)
      | exact rfl
      | intro _
      | dsimp only
      | split

theorem partWrite_does {A : List Part} {b₀ : State} (m : Nat) (a : Nat) (l : List Byte) (s : State) 
    (hD : Does A b₀ s) (hA : partsIn [.block 0x03, .block 0x05, .free, .mem, .strand, .exe, .dio, .pair, .out] A = true) : Does A b₀ (partWrite m a l s).2 := by
  unfold partWrite
  repeat' first
    | with_reducible assumption
    | with_reducible apply listPuts_does
    | with_reducible apply memPuts_does
    | with_reducible apply tagsWrite_does
    | ((with_reducible refine partsIn_trans ?_ hA); exact rfl)
    | ((with_reducible refine listed_code ?_ hA); exact rfl)
    | exact fun (h : Sparse.wf _ _ = true) => h
    | with_reducible apply next_does
    | with_reducible apply id_does
    | with_reducible apply ite_does
    | with_reducible apply iteO_does
    | (apply Sparse.wf_set; assumption)
    | exact rfl
    | intro _
    | dsimp only
    | split

theorem partsWrite_does {A : List Part} {b₀ : State} (m : Nat) (parts : List (Nat × Nat)) (l : List Byte) (s : State) 
    (hD : Does A b₀ s) (hA : partsIn [.block 0x03, .block 0x05, .free, .mem, .strand, .exe, .dio, .pair, .out] A = true) : Does A b₀ (partsWrite m parts l s).2 := by
  induction parts generalizing l s with
  | nil => exact hD
  | cons e l ih =>
    unfold partsWrite
    repeat' first
      | with_reducible assumption
      | with_reducible apply ih
      | with_reducible apply partWrite_does
      | ((with_reducible refine partsIn_trans ?_ hA); exact rfl)
      | ((with_reducible refine listed_code ?_ hA); exact rfl)
      | exact fun (h : Sparse.wf _ _ = true) => h
      | with_reducible apply next_does
      | with_reducible apply id_does
      | with_reducible apply ite_does
      | with_reducible apply iteO_does
      | (apply Sparse.wf_set; assumption)
      | exact rfl
      | intro _
      | dsimp only
      | split

theorem denyFirst_does {A : List Part} {b₀ : State} (m : Nat) (k : Acc) (d : Option (Nat × Nat)) (s : State) 
    (hD : Does A b₀ s) (hA : partsIn [.block 0x0F, .strand, .out] A = true) : Does A b₀ (denyFirst m k d s) := by
  unfold denyFirst
  repeat' first
    | with_reducible assumption
    | with_reducible apply mpuDeny_does
    | ((with_reducible refine listed_block 15 ?_ ?_ hA); first | omega | (dsimp only [Fld.MPU_STG_MCFG_COLOUR, masterColour]; omega) | (dsimp only [Fld.MPU_STG_MCFG_COLOUR, masterColour]; split <;> omega); exact rfl)
    | ((with_reducible refine partsIn_trans ?_ hA); exact rfl)
    | ((with_reducible refine listed_code ?_ hA); exact rfl)
    | exact fun (h : Sparse.wf _ _ = true) => h
    | with_reducible apply next_does
    | with_reducible apply id_does
    | with_reducible apply ite_does
    | with_reducible apply iteO_does
    | (apply Sparse.wf_set; assumption)
    | exact rfl
    | intro _
    | dsimp only
    | split

theorem hostEcc_does {A : List Part} {b₀ : State} (a : Nat) (uncorr : Option (Fin 256)) (n : Nat) (s : State) 
    (hD : Does A b₀ s) (hA : partsIn [.block 0x0F, .host, .free, .strand, .out] A = true) : Does A b₀ (hostEcc a uncorr n s) := by
  unfold hostEcc
  repeat' first
    | with_reducible assumption
    | with_reducible apply dramEccRecord_does
    | with_reducible apply say_does
    | ((with_reducible refine partsIn_trans ?_ hA); exact rfl)
    | ((with_reducible refine listed_code ?_ hA); exact rfl)
    | exact fun (h : Sparse.wf _ _ = true) => h
    | with_reducible apply next_does
    | with_reducible apply id_does
    | with_reducible apply ite_does
    | with_reducible apply iteO_does
    | (apply Sparse.wf_set; assumption)
    | exact rfl
    | intro _
    | dsimp only
    | split
    | with_reducible apply upd_hostBytes

theorem hostMem_does {A : List Part} {b₀ : State} (a : Nat) (n : Nat) (write : Bool) (data : List Byte) (uncorr : Option (Fin 256)) (s : State) 
    (hD : Does A b₀ s) (hA : partsIn [.block 0x03, .block 0x05, .block 0x0F, .host, .free, .mem, .strand, .exe, .dio, .pair, .out] A = true) : Does A b₀ (hostMem a n write data uncorr s) := by
  unfold hostMem
  repeat' first
    | with_reducible assumption
    | with_reducible apply denyFirst_does
    | with_reducible apply hostEcc_does
    | with_reducible apply partsRead_does
    | with_reducible apply partsWrite_does
    | ((with_reducible refine partsIn_trans ?_ hA); exact rfl)
    | ((with_reducible refine listed_code ?_ hA); exact rfl)
    | exact fun (h : Sparse.wf _ _ = true) => h
    | with_reducible apply next_does
    | with_reducible apply id_does
    | with_reducible apply ite_does
    | with_reducible apply iteO_does
    | (apply Sparse.wf_set; assumption)
    | exact rfl
    | intro _
    | dsimp only
    | split
    | with_reducible apply upd_hostBytes_freeCtr

theorem execHostMemoryAccess_does {A : List Part} {b₀ : State} (bar2 : Bool) (off : BitVec 33) (len : Fin 257) (write : Bool) (data : List Byte) (uncorr : Option (Fin 256)) (s : State) 
    (hD : Does A b₀ s) (hA : partsIn [.block 0x03, .block 0x05, .block 0x0F, .host, .free, .mem, .strand, .exe, .dio, .pair, .out] A = true) : DoesO A b₀ (execHostMemoryAccess bar2 off len write data uncorr s) := by
  unfold execHostMemoryAccess
  repeat' first
    | with_reducible assumption
    | with_reducible apply hostMem_does
    | with_reducible apply onlyIf_does
    | ((with_reducible refine listed_block 3 ?_ ?_ hA); first | omega | (dsimp only [Fld.SUP_PWR_STATE_STATE, power]; omega) | (dsimp only [Fld.SUP_PWR_STATE_STATE, power]; split <;> omega); exact rfl)
    | ((with_reducible refine listed_block 5 ?_ ?_ hA); first | omega | (dsimp only [Fld.SUP_PWR_STATE_STATE, power]; omega) | (dsimp only [Fld.SUP_PWR_STATE_STATE, power]; split <;> omega); exact rfl)
    | ((with_reducible refine listed_block 15 ?_ ?_ hA); first | omega | (dsimp only [Fld.SUP_PWR_STATE_STATE, power]; omega) | (dsimp only [Fld.SUP_PWR_STATE_STATE, power]; split <;> omega); exact rfl)
    | ((with_reducible refine partsIn_trans ?_ hA); exact rfl)
    | ((with_reducible refine listed_code ?_ hA); exact rfl)
    | exact fun (h : Sparse.wf _ _ = true) => h
    | with_reducible apply next_does
    | with_reducible apply id_does
    | with_reducible apply ite_does
    | with_reducible apply iteO_does
    | (apply Sparse.wf_set; assumption)
    | exact rfl
    | intro _
    | dsimp only
    | split
    | with_reducible apply upd_hostBytes

end Sys2Proof.Machine
end

