-- ==== Sys2Proof/Laws/OnlyNet.lean ====
section
/-! SUPPORT. What each operation of Machine/Net.lean can do: the parts of the state it may change, and that it keeps
canonical form. -/
namespace Sys2Proof.Machine

theorem presentBit_block (n : Nat) : (presentBit n).addr / 65536 = 11 := by
  unfold presentBit
  first
    | rfl
    | ((repeat' split) <;> first | rfl | (dsimp only [Reg.RING_PRESENT_HI, Reg.RING_PRESENT_LO]; omega))
    | ((repeat' split) <;> dsimp only [Reg.RING_PRESENT_HI, Reg.RING_PRESENT_LO])

theorem execNetCtrlWrite_does {A : List Part} {b₀ : State} (value : Word) (ok : BitVec 4) (s : State) 
    (hD : Does A b₀ s) (hA : partsIn [.block 0x0B, .block 0x0F, .free, .strand, .sup, .out] A = true) : DoesO A b₀ (execNetCtrlWrite value ok s) := by
  unfold execNetCtrlWrite
  repeat' first
    | with_reducible assumption
    | with_reducible apply forAll_does
    | with_reducible apply hostCmd_does
    | with_reducible apply onlyIf_does
    | with_reducible apply ptpPorts_does
    | with_reducible apply say_does
    | with_reducible apply setFlag_does
    | with_reducible apply unisolateBank_does
    | with_reducible apply wr_does
    | ((with_reducible refine listed_block 11 ?_ ?_ hA); first | omega | (dsimp only [Reg.NET_CTRL, Reg.NET_PORT_STATUS, portIso]; omega) | (dsimp only [Reg.NET_CTRL, Reg.NET_PORT_STATUS, portIso]; split <;> omega); exact rfl)
    | ((with_reducible refine listed_block 15 ?_ ?_ hA); first | omega | (dsimp only [Reg.NET_CTRL, Reg.NET_PORT_STATUS, portIso]; omega) | (dsimp only [Reg.NET_CTRL, Reg.NET_PORT_STATUS, portIso]; split <;> omega); exact rfl)
    | ((with_reducible refine listed_block 11 ?_ ?_ hA); exact portIso_block _; exact rfl)
    | ((with_reducible refine partsIn_trans ?_ hA); exact rfl)
    | ((with_reducible refine listed_code ?_ hA); exact rfl)
    | exact fun (h : Sparse.wf _ _ = true) => h
    | with_reducible apply next_does
    | with_reducible apply id_does
    | with_reducible apply ite_does
    | with_reducible apply iteO_does
    | (apply Sparse.wf_set; assumption)
    | exact rfl
    | intro _
    | dsimp only
    | split

theorem redCheck_does {A : List Part} {b₀ : State}  (s : State) 
    (hD : Does A b₀ s) (hA : partsIn [.block 0x0B, .free, .strand, .net, .out] A = true) : Does A b₀ (redCheck s) := by
  unfold redCheck
  repeat' first
    | with_reducible assumption
    | with_reducible apply netSay_does
    | with_reducible apply onlyIf_does
    | ((with_reducible refine listed_block 11 ?_ ?_ hA); first | omega | (dsimp only [Fld.NET_EVENT_RED_LOSS, Reg.NET_PORT_STATUS, portLink]; omega) | (dsimp only [Fld.NET_EVENT_RED_LOSS, Reg.NET_PORT_STATUS, portLink]; split <;> omega); exact rfl)
    | ((with_reducible refine listed_block 11 ?_ ?_ hA); exact portLink_block _; exact rfl)
    | ((with_reducible refine partsIn_trans ?_ hA); exact rfl)
    | ((with_reducible refine listed_code ?_ hA); exact rfl)
    | exact fun (h : Sparse.wf _ _ = true) => h
    | with_reducible apply next_does
    | with_reducible apply id_does
    | with_reducible apply ite_does
    | with_reducible apply iteO_does
    | (apply Sparse.wf_set; assumption)
    | exact rfl
    | intro _
    | dsimp only
    | split
    | with_reducible apply upd_net

theorem execNetLinkDown_does {A : List Part} {b₀ : State} (port : Fin 4) (s : State) 
    (hD : Does A b₀ s) (hA : partsIn [.block 0x0B, .free, .strand, .net, .out] A = true) : DoesO A b₀ (execNetLinkDown port s) := by
  unfold execNetLinkDown
  repeat' first
    | with_reducible assumption
    | with_reducible apply netSay_does
    | with_reducible apply redCheck_does
    | with_reducible apply setFlag_does
    | ((with_reducible refine listed_block 11 ?_ ?_ hA); first | omega | (dsimp only [Fld.NET_EVENT_LINK, Reg.NET_PORT_STATUS, portLink]; omega) | (dsimp only [Fld.NET_EVENT_LINK, Reg.NET_PORT_STATUS, portLink]; split <;> omega); exact rfl)
    | ((with_reducible refine listed_block 11 ?_ ?_ hA); exact portLink_block _; exact rfl)
    | ((with_reducible refine partsIn_trans ?_ hA); exact rfl)
    | ((with_reducible refine listed_code ?_ hA); exact rfl)
    | exact fun (h : Sparse.wf _ _ = true) => h
    | with_reducible apply next_does
    | with_reducible apply id_does
    | with_reducible apply ite_does
    | with_reducible apply iteO_does
    | (apply Sparse.wf_set; assumption)
    | exact rfl
    | intro _
    | dsimp only
    | split

theorem execNetLinkUp_does {A : List Part} {b₀ : State} (port : Fin 4) (s : State) 
    (hD : Does A b₀ s) (hA : partsIn [.block 0x0B, .free, .strand, .net, .out] A = true) : DoesO A b₀ (execNetLinkUp port s) := by
  unfold execNetLinkUp
  repeat' first
    | with_reducible assumption
    | with_reducible apply netSay_does
    | with_reducible apply onlyIf_does
    | with_reducible apply redCheck_does
    | with_reducible apply setFlag_does
    | ((with_reducible refine listed_block 11 ?_ ?_ hA); first | omega | (dsimp only [Fld.NET_EVENT_LINK, Reg.NET_CTRL, Reg.NET_PORT_STATUS, portLink, portSfp]; omega) | (dsimp only [Fld.NET_EVENT_LINK, Reg.NET_CTRL, Reg.NET_PORT_STATUS, portLink, portSfp]; split <;> omega); exact rfl)
    | ((with_reducible refine listed_block 11 ?_ ?_ hA); exact portLink_block _; exact rfl)
    | ((with_reducible refine listed_block 11 ?_ ?_ hA); exact portSfp_block _; exact rfl)
    | ((with_reducible refine partsIn_trans ?_ hA); exact rfl)
    | ((with_reducible refine listed_code ?_ hA); exact rfl)
    | exact fun (h : Sparse.wf _ _ = true) => h
    | with_reducible apply next_does
    | with_reducible apply id_does
    | with_reducible apply ite_does
    | with_reducible apply iteO_does
    | (apply Sparse.wf_set; assumption)
    | exact rfl
    | intro _
    | dsimp only
    | split

theorem execNetPortIsolated_does {A : List Part} {b₀ : State} (port : Fin 4) (s : State) 
    (hD : Does A b₀ s) (hA : partsIn [.block 0x01, .block 0x02, .block 0x03, .block 0x05, .block 0x08, .block 0x09, .block 0x0A, .block 0x0B, .block 0x0C, .free, .strand, .backup, .tides, .seqs, .exe, .loop, .dio, .saf, .pair, .net, .can, .sup, .mbx, .out] A = true) : DoesO A b₀ (execNetPortIsolated port s) := by
  unfold execNetPortIsolated
  repeat' first
    | with_reducible assumption
    | with_reducible apply isolateBank_does
    | with_reducible apply netSay_does
    | with_reducible apply ptpPorts_does
    | with_reducible apply redCheck_does
    | with_reducible apply setFlag_does
    | ((with_reducible refine listed_block 1 ?_ ?_ hA); first | omega | (dsimp only [Fld.NET_EVENT_PORT_ISO, Reg.NET_PORT_STATUS, portIso, portLink]; omega) | (dsimp only [Fld.NET_EVENT_PORT_ISO, Reg.NET_PORT_STATUS, portIso, portLink]; split <;> omega); exact rfl)
    | ((with_reducible refine listed_block 2 ?_ ?_ hA); first | omega | (dsimp only [Fld.NET_EVENT_PORT_ISO, Reg.NET_PORT_STATUS, portIso, portLink]; omega) | (dsimp only [Fld.NET_EVENT_PORT_ISO, Reg.NET_PORT_STATUS, portIso, portLink]; split <;> omega); exact rfl)
    | ((with_reducible refine listed_block 3 ?_ ?_ hA); first | omega | (dsimp only [Fld.NET_EVENT_PORT_ISO, Reg.NET_PORT_STATUS, portIso, portLink]; omega) | (dsimp only [Fld.NET_EVENT_PORT_ISO, Reg.NET_PORT_STATUS, portIso, portLink]; split <;> omega); exact rfl)
    | ((with_reducible refine listed_block 5 ?_ ?_ hA); first | omega | (dsimp only [Fld.NET_EVENT_PORT_ISO, Reg.NET_PORT_STATUS, portIso, portLink]; omega) | (dsimp only [Fld.NET_EVENT_PORT_ISO, Reg.NET_PORT_STATUS, portIso, portLink]; split <;> omega); exact rfl)
    | ((with_reducible refine listed_block 8 ?_ ?_ hA); first | omega | (dsimp only [Fld.NET_EVENT_PORT_ISO, Reg.NET_PORT_STATUS, portIso, portLink]; omega) | (dsimp only [Fld.NET_EVENT_PORT_ISO, Reg.NET_PORT_STATUS, portIso, portLink]; split <;> omega); exact rfl)
    | ((with_reducible refine listed_block 9 ?_ ?_ hA); first | omega | (dsimp only [Fld.NET_EVENT_PORT_ISO, Reg.NET_PORT_STATUS, portIso, portLink]; omega) | (dsimp only [Fld.NET_EVENT_PORT_ISO, Reg.NET_PORT_STATUS, portIso, portLink]; split <;> omega); exact rfl)
    | ((with_reducible refine listed_block 10 ?_ ?_ hA); first | omega | (dsimp only [Fld.NET_EVENT_PORT_ISO, Reg.NET_PORT_STATUS, portIso, portLink]; omega) | (dsimp only [Fld.NET_EVENT_PORT_ISO, Reg.NET_PORT_STATUS, portIso, portLink]; split <;> omega); exact rfl)
    | ((with_reducible refine listed_block 11 ?_ ?_ hA); first | omega | (dsimp only [Fld.NET_EVENT_PORT_ISO, Reg.NET_PORT_STATUS, portIso, portLink]; omega) | (dsimp only [Fld.NET_EVENT_PORT_ISO, Reg.NET_PORT_STATUS, portIso, portLink]; split <;> omega); exact rfl)
    | ((with_reducible refine listed_block 12 ?_ ?_ hA); first | omega | (dsimp only [Fld.NET_EVENT_PORT_ISO, Reg.NET_PORT_STATUS, portIso, portLink]; omega) | (dsimp only [Fld.NET_EVENT_PORT_ISO, Reg.NET_PORT_STATUS, portIso, portLink]; split <;> omega); exact rfl)
    | ((with_reducible refine listed_block 11 ?_ ?_ hA); exact portIso_block _; exact rfl)
    | ((with_reducible refine listed_block 11 ?_ ?_ hA); exact portLink_block _; exact rfl)
    | ((with_reducible refine partsIn_trans ?_ hA); exact rfl)
    | ((with_reducible refine listed_code ?_ hA); exact rfl)
    | exact fun (h : Sparse.wf _ _ = true) => h
    | with_reducible apply next_does
    | with_reducible apply id_does
    | with_reducible apply ite_does
    | with_reducible apply iteO_does
    | (apply Sparse.wf_set; assumption)
    | exact rfl
    | intro _
    | dsimp only
    | split

theorem plantDispatch_does {A : List Part} {b₀ : State} (port : Bool) (src : BitVec 48) (kind : PlantKind) (frame : List Byte) (s : State) 
    (hD : Does A b₀ s) (hA : partsIn [.block 0x13, .free, .mem, .strand, .net, .queSeq, .out] A = true) : Does A b₀ (plantDispatch port src kind frame s) := by
  unfold plantDispatch
  repeat' first
    | with_reducible assumption
    | with_reducible apply quePush_does
    | ((with_reducible refine partsIn_trans ?_ hA); exact rfl)
    | ((with_reducible refine listed_code ?_ hA); exact rfl)
    | exact fun (h : Sparse.wf _ _ = true) => h
    | with_reducible apply next_does
    | with_reducible apply id_does
    | with_reducible apply ite_does
    | with_reducible apply iteO_does
    | (apply Sparse.wf_set; assumption)
    | exact rfl
    | intro _
    | dsimp only
    | split
    | with_reducible apply upd_net

theorem execPlantFrameReceive_does {A : List Part} {b₀ : State} (port : Bool) (src : BitVec 48) (seq : Option (BitVec 16)) (kind : PlantKind) (dest : PlantDest) (frame : List Byte) (s : State) 
    (hD : Does A b₀ s) (hA : partsIn [.block 0x13, .free, .mem, .strand, .net, .queSeq, .out] A = true) : DoesO A b₀ (execPlantFrameReceive port src seq kind dest frame s) := by
  unfold execPlantFrameReceive
  repeat' first
    | with_reducible assumption
    | with_reducible apply onlyIf_does
    | with_reducible apply plantDispatch_does
    | with_reducible apply sendOut_does
    | ((with_reducible refine partsIn_trans ?_ hA); exact rfl)
    | ((with_reducible refine listed_code ?_ hA); exact rfl)
    | exact fun (h : Sparse.wf _ _ = true) => h
    | with_reducible apply next_does
    | with_reducible apply id_does
    | with_reducible apply ite_does
    | with_reducible apply iteO_does
    | (apply Sparse.wf_set; assumption)
    | exact rfl
    | intro _
    | dsimp only
    | split
    | with_reducible apply upd_net

theorem execRedundantCopyTimeout_does {A : List Part} {b₀ : State} (src : BitVec 48) (seq : BitVec 16) (s : State) 
    (hD : Does A b₀ s) (hA : partsIn [.block 0x0B, .free, .strand, .net, .out] A = true) : DoesO A b₀ (execRedundantCopyTimeout src seq s) := by
  unfold execRedundantCopyTimeout
  repeat' first
    | with_reducible assumption
    | with_reducible apply bump_does
    | with_reducible apply redCheck_does
    | ((with_reducible refine partsIn_trans ?_ hA); exact rfl)
    | ((with_reducible refine listed_code ?_ hA); exact rfl)
    | exact fun (h : Sparse.wf _ _ = true) => h
    | with_reducible apply next_does
    | with_reducible apply id_does
    | with_reducible apply ite_does
    | with_reducible apply iteO_does
    | (apply Sparse.wf_set; assumption)
    | exact rfl
    | intro _
    | dsimp only
    | split
    | with_reducible apply upd_net

theorem execSupervisionSend_does {A : List Part} {b₀ : State}  (s : State) 
    (hD : Does A b₀ s) (hA : partsIn [.out] A = true) : DoesO A b₀ (execSupervisionSend s) := by
  unfold execSupervisionSend
  repeat' first
    | with_reducible assumption
    | with_reducible apply onlyIf_does
    | with_reducible apply sendOut_does
    | ((with_reducible refine partsIn_trans ?_ hA); exact rfl)
    | ((with_reducible refine listed_code ?_ hA); exact rfl)
    | exact fun (h : Sparse.wf _ _ = true) => h
    | with_reducible apply next_does
    | with_reducible apply id_does
    | with_reducible apply ite_does
    | with_reducible apply iteO_does
    | (apply Sparse.wf_set; assumption)
    | exact rfl
    | intro _
    | dsimp only
    | split

theorem execNetHsrOpen_does {A : List Part} {b₀ : State}  (s : State) 
    (hD : Does A b₀ s) (hA : partsIn [.block 0x0B, .free, .strand, .out] A = true) : DoesO A b₀ (execNetHsrOpen s) := by
  unfold execNetHsrOpen
  repeat' first
    | with_reducible assumption
    | with_reducible apply netSay_does
    | ((with_reducible refine partsIn_trans ?_ hA); exact rfl)
    | ((with_reducible refine listed_code ?_ hA); exact rfl)
    | exact fun (h : Sparse.wf _ _ = true) => h
    | with_reducible apply next_does
    | with_reducible apply id_does
    | with_reducible apply ite_does
    | with_reducible apply iteO_does
    | (apply Sparse.wf_set; assumption)
    | exact rfl
    | intro _
    | dsimp only
    | split

theorem execGratuitousArpRepeat_does {A : List Part} {b₀ : State}  (s : State) 
    (hD : Does A b₀ s) (hA : partsIn [.out] A = true) : DoesO A b₀ (execGratuitousArpRepeat s) := by
  unfold execGratuitousArpRepeat
  repeat' first
    | with_reducible assumption
    | with_reducible apply sendOut_does
    | ((with_reducible refine partsIn_trans ?_ hA); exact rfl)
    | ((with_reducible refine listed_code ?_ hA); exact rfl)
    | exact fun (h : Sparse.wf _ _ = true) => h
    | with_reducible apply next_does
    | with_reducible apply id_does
    | with_reducible apply ite_does
    | with_reducible apply iteO_does
    | (apply Sparse.wf_set; assumption)
    | exact rfl
    | intro _
    | dsimp only
    | split

theorem execAcyclicRingAnswer_does {A : List Part} {b₀ : State} (ir1 : Bool) (err : Bool) (frame : List Byte) (s : State) 
    (hD : Does A b₀ s) (hA : partsIn [.block 0x13, .free, .mem, .strand, .queSeq, .out] A = true) : DoesO A b₀ (execAcyclicRingAnswer ir1 err frame s) := by
  unfold execAcyclicRingAnswer
  repeat' first
    | with_reducible assumption
    | with_reducible apply quePush_does
    | ((with_reducible refine partsIn_trans ?_ hA); exact rfl)
    | ((with_reducible refine listed_code ?_ hA); exact rfl)
    | exact fun (h : Sparse.wf _ _ = true) => h
    | with_reducible apply next_does
    | with_reducible apply id_does
    | with_reducible apply ite_does
    | with_reducible apply iteO_does
    | (apply Sparse.wf_set; assumption)
    | exact rfl
    | intro _
    | dsimp only
    | split

theorem execPtpSync_does {A : List Part} {b₀ : State} (port : Bool) (gm : DWord) (sec : BitVec 48) (ns : Word) (corr : Int) (age : Nat) (twoStep : Bool) (s : State) 
    (hD : Does A b₀ s) (hA : partsIn [.block 0x02, .block 0x0B, .time, .free, .strand, .tides, .net, .out] A = true) : DoesO A b₀ (execPtpSync port gm sec ns corr age twoStep s) := by
  unfold execPtpSync
  repeat' first
    | with_reducible assumption
    | with_reducible apply onPtpPort_does
    | with_reducible apply ptpMeasure_does
    | ((with_reducible refine partsIn_trans ?_ hA); exact rfl)
    | ((with_reducible refine listed_code ?_ hA); exact rfl)
    | exact fun (h : Sparse.wf _ _ = true) => h
    | with_reducible apply next_does
    | with_reducible apply id_does
    | with_reducible apply ite_does
    | with_reducible apply iteO_does
    | (apply Sparse.wf_set; assumption)
    | exact rfl
    | intro _
    | dsimp only
    | split

theorem execPtpFollowUp_does {A : List Part} {b₀ : State} (port : Bool) (pdelay : Bool) (sec : BitVec 48) (ns : Word) (corr : Int) (s : State) 
    (hD : Does A b₀ s) (hA : partsIn [.block 0x02, .block 0x0B, .time, .free, .strand, .tides, .net, .out] A = true) : DoesO A b₀ (execPtpFollowUp port pdelay sec ns corr s) := by
  unfold execPtpFollowUp
  repeat' first
    | with_reducible assumption
    | with_reducible apply linkMeasure_does
    | with_reducible apply ptpMeasure_does
    | ((with_reducible refine partsIn_trans ?_ hA); exact rfl)
    | ((with_reducible refine listed_code ?_ hA); exact rfl)
    | exact fun (h : Sparse.wf _ _ = true) => h
    | with_reducible apply next_does
    | with_reducible apply id_does
    | with_reducible apply ite_does
    | with_reducible apply iteO_does
    | (apply Sparse.wf_set; assumption)
    | exact rfl
    | intro _
    | dsimp only
    | split

theorem execPtpAnnounce_does {A : List Part} {b₀ : State} (port : Bool) (gm : DWord) (utc : Option (BitVec 16)) (best : Bmca) (s : State) 
    (hD : Does A b₀ s) (hA : partsIn [.block 0x0B, .free, .strand, .net, .out] A = true) : DoesO A b₀ (execPtpAnnounce port gm utc best s) := by
  unfold execPtpAnnounce
  repeat' first
    | with_reducible assumption
    | with_reducible apply onPtp_does
    | with_reducible apply onlyIf_does
    | with_reducible apply ptpMaster_does
    | with_reducible apply ptpPorts_does
    | with_reducible apply ptpSelf_does
    | with_reducible apply setFlag_does
    | with_reducible apply setFld_does
    | ((with_reducible refine partsIn_trans ?_ hA); exact rfl)
    | ((with_reducible refine listed_code ?_ hA); exact rfl)
    | exact fun (h : Sparse.wf _ _ = true) => h
    | with_reducible apply next_does
    | with_reducible apply id_does
    | with_reducible apply ite_does
    | with_reducible apply iteO_does
    | (apply Sparse.wf_set; assumption)
    | exact rfl
    | intro _
    | dsimp only
    | split

theorem execPtpAnnounceTimeout_does {A : List Part} {b₀ : State} (best : Bmca) (tie : Bool) (s : State) 
    (hD : Does A b₀ s) (hA : partsIn [.block 0x02, .block 0x0B, .free, .strand, .tides, .net, .out] A = true) : DoesO A b₀ (execPtpAnnounceTimeout best tie s) := by
  unfold execPtpAnnounceTimeout
  repeat' first
    | with_reducible assumption
    | with_reducible apply bump_does
    | with_reducible apply onPtp_does
    | with_reducible apply ptpPorts_does
    | with_reducible apply ptpSelf_does
    | with_reducible apply servoTo_does
    | ((with_reducible refine partsIn_trans ?_ hA); exact rfl)
    | ((with_reducible refine listed_code ?_ hA); exact rfl)
    | exact fun (h : Sparse.wf _ _ = true) => h
    | with_reducible apply next_does
    | with_reducible apply id_does
    | with_reducible apply ite_does
    | with_reducible apply iteO_does
    | (apply Sparse.wf_set; assumption)
    | exact rfl
    | intro _
    | dsimp only
    | split

theorem execPtpSyncSilence_does {A : List Part} {b₀ : State} (both : Bool) (tie : Bool) (s : State) 
    (hD : Does A b₀ s) (hA : partsIn [.block 0x02, .block 0x0B, .free, .strand, .tides, .net, .out] A = true) : DoesO A b₀ (execPtpSyncSilence both tie s) := by
  unfold execPtpSyncSilence
  repeat' first
    | with_reducible assumption
    | with_reducible apply bump_does
    | with_reducible apply ptpSwitch_does
    | with_reducible apply servoTo_does
    | ((with_reducible refine listed_block 2 ?_ ?_ hA); first | omega | (dsimp only [Fld.NET_CLOSE_CALL_COUNT, Fld.PTP_STATE_SERVO, servo]; omega) | (dsimp only [Fld.NET_CLOSE_CALL_COUNT, Fld.PTP_STATE_SERVO, servo]; split <;> omega); exact rfl)
    | ((with_reducible refine listed_block 11 ?_ ?_ hA); first | omega | (dsimp only [Fld.NET_CLOSE_CALL_COUNT, Fld.PTP_STATE_SERVO, servo]; omega) | (dsimp only [Fld.NET_CLOSE_CALL_COUNT, Fld.PTP_STATE_SERVO, servo]; split <;> omega); exact rfl)
    | ((with_reducible refine partsIn_trans ?_ hA); exact rfl)
    | ((with_reducible refine listed_code ?_ hA); exact rfl)
    | exact fun (h : Sparse.wf _ _ = true) => h
    | with_reducible apply next_does
    | with_reducible apply id_does
    | with_reducible apply ite_does
    | with_reducible apply iteO_does
    | (apply Sparse.wf_set; assumption)
    | exact rfl
    | intro _
    | dsimp only
    | split

theorem execPtpPdelayReq_does {A : List Part} {b₀ : State} (port : Bool) (turn : Nat) (s : State) 
    (hD : Does A b₀ s) (hA : partsIn [.out] A = true) : DoesO A b₀ (execPtpPdelayReq port turn s) := by
  unfold execPtpPdelayReq
  repeat' first
    | with_reducible assumption
    | with_reducible apply sendOut_does
    | ((with_reducible refine partsIn_trans ?_ hA); exact rfl)
    | ((with_reducible refine listed_code ?_ hA); exact rfl)
    | exact fun (h : Sparse.wf _ _ = true) => h
    | with_reducible apply next_does
    | with_reducible apply id_does
    | with_reducible apply ite_does
    | with_reducible apply iteO_does
    | (apply Sparse.wf_set; assumption)
    | exact rfl
    | intro _
    | dsimp only
    | split

theorem execPtpPdelayResp_does {A : List Part} {b₀ : State} (port : Bool) (t2 : Int) (corr : Int) (age : Nat) (twoStep : Bool) (s : State) 
    (hD : Does A b₀ s) (hA : partsIn [.block 0x0B, .net] A = true) : DoesO A b₀ (execPtpPdelayResp port t2 corr age twoStep s) := by
  unfold execPtpPdelayResp
  repeat' first
    | with_reducible assumption
    | with_reducible apply linkMeasure_does
    | with_reducible apply onPtpPort_does
    | ((with_reducible refine partsIn_trans ?_ hA); exact rfl)
    | ((with_reducible refine listed_code ?_ hA); exact rfl)
    | exact fun (h : Sparse.wf _ _ = true) => h
    | with_reducible apply next_does
    | with_reducible apply id_does
    | with_reducible apply ite_does
    | with_reducible apply iteO_does
    | (apply Sparse.wf_set; assumption)
    | exact rfl
    | intro _
    | dsimp only
    | split

theorem execPtpMessageSend_does {A : List Part} {b₀ : State} (kind : PtpSend) (port : Bool) (s : State) 
    (hD : Does A b₀ s) (hA : partsIn [.net, .out] A = true) : DoesO A b₀ (execPtpMessageSend kind port s) := by
  unfold execPtpMessageSend
  repeat' first
    | with_reducible assumption
    | with_reducible apply onPtpPort_does
    | with_reducible apply onlyIf_does
    | with_reducible apply sendOut_does
    | ((with_reducible refine partsIn_trans ?_ hA); exact rfl)
    | ((with_reducible refine listed_code ?_ hA); exact rfl)
    | exact fun (h : Sparse.wf _ _ = true) => h
    | with_reducible apply next_does
    | with_reducible apply id_does
    | with_reducible apply ite_does
    | with_reducible apply iteO_does
    | (apply Sparse.wf_set; assumption)
    | exact rfl
    | intro _
    | dsimp only
    | split

theorem execPtpAcceptStep_does {A : List Part} {b₀ : State}  (s : State) 
    (hD : Does A b₀ s) (hA : partsIn [.block 0x0F, .strand, .net, .out] A = true) : DoesO A b₀ (execPtpAcceptStep s) := by
  unfold execPtpAcceptStep
  repeat' first
    | with_reducible assumption
    | with_reducible apply hostCmd_does
    | with_reducible apply onPtp_does
    | ((with_reducible refine partsIn_trans ?_ hA); exact rfl)
    | ((with_reducible refine listed_code ?_ hA); exact rfl)
    | exact fun (h : Sparse.wf _ _ = true) => h
    | with_reducible apply next_does
    | with_reducible apply id_does
    | with_reducible apply ite_does
    | with_reducible apply iteO_does
    | (apply Sparse.wf_set; assumption)
    | exact rfl
    | intro _
    | dsimp only
    | split

theorem execPtpCancelStep_does {A : List Part} {b₀ : State}  (s : State) 
    (hD : Does A b₀ s) (hA : partsIn [.block 0x0F, .strand, .net, .out] A = true) : DoesO A b₀ (execPtpCancelStep s) := by
  unfold execPtpCancelStep
  repeat' first
    | with_reducible assumption
    | with_reducible apply hostCmd_does
    | with_reducible apply onPtp_does
    | ((with_reducible refine partsIn_trans ?_ hA); exact rfl)
    | ((with_reducible refine listed_code ?_ hA); exact rfl)
    | exact fun (h : Sparse.wf _ _ = true) => h
    | with_reducible apply next_does
    | with_reducible apply id_does
    | with_reducible apply ite_does
    | with_reducible apply iteO_does
    | (apply Sparse.wf_set; assumption)
    | exact rfl
    | intro _
    | dsimp only
    | split

theorem execGseWrite_does {A : List Part} {b₀ : State}  (s : State) 
    (hD : Does A b₀ s) (hA : partsIn [.block 0x0B, .block 0x0F, .free, .strand, .net, .out] A = true) : DoesO A b₀ (execGseWrite s) := by
  unfold execGseWrite
  repeat' first
    | with_reducible assumption
    | with_reducible apply hostCmd_does
    | with_reducible apply onGse_does
    | with_reducible apply raiseF_does
    | with_reducible apply result_does
    | ((with_reducible refine listed_block 11 ?_ ?_ hA); first | omega | (dsimp only [Fld.GSE_RESULT_STATUS, Fld.GSE_SEL_ENTRY, Fld.NET_EVENT_GSE_CFG, Reg.GSE_CMD, Reg.GSE_DATA]; omega) | (dsimp only [Fld.GSE_RESULT_STATUS, Fld.GSE_SEL_ENTRY, Fld.NET_EVENT_GSE_CFG, Reg.GSE_CMD, Reg.GSE_DATA]; split <;> omega); exact rfl)
    | ((with_reducible refine listed_block 15 ?_ ?_ hA); first | omega | (dsimp only [Fld.GSE_RESULT_STATUS, Fld.GSE_SEL_ENTRY, Fld.NET_EVENT_GSE_CFG, Reg.GSE_CMD, Reg.GSE_DATA]; omega) | (dsimp only [Fld.GSE_RESULT_STATUS, Fld.GSE_SEL_ENTRY, Fld.NET_EVENT_GSE_CFG, Reg.GSE_CMD, Reg.GSE_DATA]; split <;> omega); exact rfl)
    | ((with_reducible refine partsIn_trans ?_ hA); exact rfl)
    | ((with_reducible refine listed_code ?_ hA); exact rfl)
    | exact fun (h : Sparse.wf _ _ = true) => h
    | with_reducible apply next_does
    | with_reducible apply id_does
    | with_reducible apply ite_does
    | with_reducible apply iteO_does
    | (apply Sparse.wf_set; assumption)
    | exact rfl
    | intro _
    | dsimp only
    | split

theorem execGseRead_does {A : List Part} {b₀ : State}  (s : State) 
    (hD : Does A b₀ s) (hA : partsIn [.block 0x0B, .block 0x0F, .free, .strand, .out] A = true) : DoesO A b₀ (execGseRead s) := by
  unfold execGseRead
  repeat' first
    | with_reducible assumption
    | with_reducible apply forAll_does
    | with_reducible apply hostCmd_does
    | with_reducible apply result_does
    | with_reducible apply wr_does
    | ((with_reducible refine listed_block 11 ?_ ?_ hA); first | omega | (dsimp only [Fld.GSE_RESULT_STATUS, Fld.GSE_SEL_ENTRY, Reg.GSE_CMD, Reg.GSE_DATA]; omega) | (dsimp only [Fld.GSE_RESULT_STATUS, Fld.GSE_SEL_ENTRY, Reg.GSE_CMD, Reg.GSE_DATA]; split <;> omega); exact rfl)
    | ((with_reducible refine listed_block 15 ?_ ?_ hA); first | omega | (dsimp only [Fld.GSE_RESULT_STATUS, Fld.GSE_SEL_ENTRY, Reg.GSE_CMD, Reg.GSE_DATA]; omega) | (dsimp only [Fld.GSE_RESULT_STATUS, Fld.GSE_SEL_ENTRY, Reg.GSE_CMD, Reg.GSE_DATA]; split <;> omega); exact rfl)
    | ((with_reducible refine partsIn_trans ?_ hA); exact rfl)
    | ((with_reducible refine listed_code ?_ hA); exact rfl)
    | exact fun (h : Sparse.wf _ _ = true) => h
    | with_reducible apply next_does
    | with_reducible apply id_does
    | with_reducible apply ite_does
    | with_reducible apply iteO_does
    | (apply Sparse.wf_set; assumption)
    | exact rfl
    | intro _
    | dsimp only
    | split

theorem execGseDisable_does {A : List Part} {b₀ : State}  (s : State) 
    (hD : Does A b₀ s) (hA : partsIn [.block 0x0B, .block 0x0F, .free, .strand, .net, .out] A = true) : DoesO A b₀ (execGseDisable s) := by
  unfold execGseDisable
  repeat' first
    | with_reducible assumption
    | with_reducible apply gseOff_does
    | with_reducible apply hostCmd_does
    | with_reducible apply result_does
    | ((with_reducible refine partsIn_trans ?_ hA); exact rfl)
    | ((with_reducible refine listed_code ?_ hA); exact rfl)
    | exact fun (h : Sparse.wf _ _ = true) => h
    | with_reducible apply next_does
    | with_reducible apply id_does
    | with_reducible apply ite_does
    | with_reducible apply iteO_does
    | (apply Sparse.wf_set; assumption)
    | exact rfl
    | intro _
    | dsimp only
    | split

theorem execGooseRetransmit_does {A : List Part} {b₀ : State} (i : Fin 16) (s : State) 
    (hD : Does A b₀ s) (hA : partsIn [.net, .out] A = true) : DoesO A b₀ (execGooseRetransmit i s) := by
  unfold execGooseRetransmit
  repeat' first
    | with_reducible assumption
    | with_reducible apply gooseSend_does
    | with_reducible apply onGse_does
    | ((with_reducible refine partsIn_trans ?_ hA); exact rfl)
    | ((with_reducible refine listed_code ?_ hA); exact rfl)
    | exact fun (h : Sparse.wf _ _ = true) => h
    | with_reducible apply next_does
    | with_reducible apply id_does
    | with_reducible apply ite_does
    | with_reducible apply iteO_does
    | (apply Sparse.wf_set; assumption)
    | exact rfl
    | intro _
    | dsimp only
    | split

theorem gooseTake_does {A : List Part} {b₀ : State} (k : Nat) (m : GooseMsg) (s : State) 
    (hD : Does A b₀ s) (hA : partsIn [.block 0x05, .block 0x0B, .free, .strand, .exe, .dio, .net, .out] A = true) : Does A b₀ (gooseTake k m s) := by
  unfold gooseTake
  repeat' first
    | with_reducible assumption
    | with_reducible apply gseDeliver_does
    | with_reducible apply netSay_does
    | with_reducible apply onGse_does
    | with_reducible apply say_does
    | with_reducible apply setFlag_does
    | ((with_reducible refine listed_block 5 ?_ ?_ hA); first | omega | (dsimp only [Fld.NET_EVENT_GSE_CFG, Reg.GSE_VALID_HI, Reg.GSE_VALID_LO, gseValid]; omega) | (dsimp only [Fld.NET_EVENT_GSE_CFG, Reg.GSE_VALID_HI, Reg.GSE_VALID_LO, gseValid]; split <;> omega); exact rfl)
    | ((with_reducible refine listed_block 11 ?_ ?_ hA); first | omega | (dsimp only [Fld.NET_EVENT_GSE_CFG, Reg.GSE_VALID_HI, Reg.GSE_VALID_LO, gseValid]; omega) | (dsimp only [Fld.NET_EVENT_GSE_CFG, Reg.GSE_VALID_HI, Reg.GSE_VALID_LO, gseValid]; split <;> omega); exact rfl)
    | ((with_reducible refine listed_block 11 ?_ ?_ hA); exact gseValid_block _; exact rfl)
    | ((with_reducible refine partsIn_trans ?_ hA); exact rfl)
    | ((with_reducible refine listed_code ?_ hA); exact rfl)
    | exact fun (h : Sparse.wf _ _ = true) => h
    | with_reducible apply next_does
    | with_reducible apply id_does
    | with_reducible apply ite_does
    | with_reducible apply iteO_does
    | (apply Sparse.wf_set; assumption)
    | exact rfl
    | intro _
    | dsimp only
    | split

theorem execGooseReceive_does {A : List Part} {b₀ : State} (msg : GooseMsg) (s : State) 
    (hD : Does A b₀ s) (hA : partsIn [.block 0x05, .block 0x0B, .free, .strand, .exe, .dio, .net, .out] A = true) : DoesO A b₀ (execGooseReceive msg s) := by
  unfold execGooseReceive
  repeat' first
    | with_reducible assumption
    | with_reducible apply forAll_does
    | with_reducible apply gooseTake_does
    | ((with_reducible refine partsIn_trans ?_ hA); exact rfl)
    | ((with_reducible refine listed_code ?_ hA); exact rfl)
    | exact fun (h : Sparse.wf _ _ = true) => h
    | with_reducible apply next_does
    | with_reducible apply id_does
    | with_reducible apply ite_does
    | with_reducible apply iteO_does
    | (apply Sparse.wf_set; assumption)
    | exact rfl
    | intro _
    | dsimp only
    | split

theorem execNetGseTalExpired_does {A : List Part} {b₀ : State} (j : Fin 64) (tie : Bool) (s : State) 
    (hD : Does A b₀ s) (hA : partsIn [.block 0x0B, .free, .strand, .exe, .out] A = true) : DoesO A b₀ (execNetGseTalExpired j tie s) := by
  unfold execNetGseTalExpired
  repeat' first
    | with_reducible assumption
    | with_reducible apply bump_does
    | with_reducible apply gseStale_does
    | with_reducible apply netSay_does
    | with_reducible apply setFlag_does
    | ((with_reducible refine listed_block 11 ?_ ?_ hA); first | omega | (dsimp only [Fld.NET_CLOSE_CALL_COUNT, Fld.NET_EVENT_GSE_INVALID, Reg.GSE_VALID_HI, Reg.GSE_VALID_LO, gseValid]; omega) | (dsimp only [Fld.NET_CLOSE_CALL_COUNT, Fld.NET_EVENT_GSE_INVALID, Reg.GSE_VALID_HI, Reg.GSE_VALID_LO, gseValid]; split <;> omega); exact rfl)
    | ((with_reducible refine listed_block 11 ?_ ?_ hA); exact gseValid_block _; exact rfl)
    | ((with_reducible refine partsIn_trans ?_ hA); exact rfl)
    | ((with_reducible refine listed_code ?_ hA); exact rfl)
    | exact fun (h : Sparse.wf _ _ = true) => h
    | with_reducible apply next_does
    | with_reducible apply id_does
    | with_reducible apply ite_does
    | with_reducible apply iteO_does
    | (apply Sparse.wf_set; assumption)
    | exact rfl
    | intro _
    | dsimp only
    | split

theorem execLnchWrite_does {A : List Part} {b₀ : State}  (s : State) 
    (hD : Does A b₀ s) (hA : partsIn [.block 0x0B, .block 0x0F, .free, .strand, .net, .out] A = true) : DoesO A b₀ (execLnchWrite s) := by
  unfold execLnchWrite
  repeat' first
    | with_reducible assumption
    | with_reducible apply hostCmd_does
    | with_reducible apply onLaunch_does
    | with_reducible apply result_does
    | ((with_reducible refine partsIn_trans ?_ hA); exact rfl)
    | ((with_reducible refine listed_code ?_ hA); exact rfl)
    | exact fun (h : Sparse.wf _ _ = true) => h
    | with_reducible apply next_does
    | with_reducible apply id_does
    | with_reducible apply ite_does
    | with_reducible apply iteO_does
    | (apply Sparse.wf_set; assumption)
    | exact rfl
    | intro _
    | dsimp only
    | split

theorem execLnchRead_does {A : List Part} {b₀ : State}  (s : State) 
    (hD : Does A b₀ s) (hA : partsIn [.block 0x0B, .block 0x0F, .free, .strand, .out] A = true) : DoesO A b₀ (execLnchRead s) := by
  unfold execLnchRead
  repeat' first
    | with_reducible assumption
    | with_reducible apply hostCmd_does
    | with_reducible apply result_does
    | with_reducible apply wr_does
    | ((with_reducible refine partsIn_trans ?_ hA); exact rfl)
    | ((with_reducible refine listed_code ?_ hA); exact rfl)
    | exact fun (h : Sparse.wf _ _ = true) => h
    | with_reducible apply next_does
    | with_reducible apply id_does
    | with_reducible apply ite_does
    | with_reducible apply iteO_does
    | (apply Sparse.wf_set; assumption)
    | exact rfl
    | intro _
    | dsimp only
    | split

theorem execLnchDisable_does {A : List Part} {b₀ : State}  (s : State) 
    (hD : Does A b₀ s) (hA : partsIn [.block 0x0B, .block 0x0F, .free, .strand, .net, .out] A = true) : DoesO A b₀ (execLnchDisable s) := by
  unfold execLnchDisable
  repeat' first
    | with_reducible assumption
    | with_reducible apply hostCmd_does
    | with_reducible apply onLaunch_does
    | with_reducible apply result_does
    | ((with_reducible refine partsIn_trans ?_ hA); exact rfl)
    | ((with_reducible refine listed_code ?_ hA); exact rfl)
    | exact fun (h : Sparse.wf _ _ = true) => h
    | with_reducible apply next_does
    | with_reducible apply id_does
    | with_reducible apply ite_does
    | with_reducible apply iteO_does
    | (apply Sparse.wf_set; assumption)
    | exact rfl
    | intro _
    | dsimp only
    | split

theorem execLaunchSend_does {A : List Part} {b₀ : State} (slot : Fin 64) (late : Bool) (s : State) 
    (hD : Does A b₀ s) (hA : partsIn [.block 0x0B, .free, .strand, .net, .out] A = true) : DoesO A b₀ (execLaunchSend slot late s) := by
  unfold execLaunchSend
  repeat' first
    | with_reducible assumption
    | with_reducible apply bump_does
    | with_reducible apply netSay_does
    | with_reducible apply onLaunch_does
    | with_reducible apply onlyIf_does
    | with_reducible apply sendOut_does
    | ((with_reducible refine partsIn_trans ?_ hA); exact rfl)
    | ((with_reducible refine listed_code ?_ hA); exact rfl)
    | exact fun (h : Sparse.wf _ _ = true) => h
    | with_reducible apply next_does
    | with_reducible apply id_does
    | with_reducible apply ite_does
    | with_reducible apply iteO_does
    | (apply Sparse.wf_set; assumption)
    | exact rfl
    | intro _
    | dsimp only
    | split

theorem execLaunchGuardExpiry_does {A : List Part} {b₀ : State} (slot : Fin 64) (s : State) 
    (hD : Does A b₀ s) (hA : partsIn [.net] A = true) : DoesO A b₀ (execLaunchGuardExpiry slot s) := by
  unfold execLaunchGuardExpiry
  repeat' first
    | with_reducible assumption
    | with_reducible apply onLaunch_does
    | ((with_reducible refine partsIn_trans ?_ hA); exact rfl)
    | ((with_reducible refine listed_code ?_ hA); exact rfl)
    | exact fun (h : Sparse.wf _ _ = true) => h
    | with_reducible apply next_does
    | with_reducible apply id_does
    | with_reducible apply ite_does
    | with_reducible apply iteO_does
    | (apply Sparse.wf_set; assumption)
    | exact rfl
    | intro _
    | dsimp only
    | split

theorem execRingCycleLaunch_does {A : List Part} {b₀ : State} (t : Fin 8) (s : State) 
    (hD : Does A b₀ s) (hA : partsIn [.block 0x0B, .free, .strand, .exe, .net, .out] A = true) : DoesO A b₀ (execRingCycleLaunch t s) := by
  unfold execRingCycleLaunch
  repeat' first
    | with_reducible assumption
    | with_reducible apply bump_does
    | with_reducible apply forAll_does
    | with_reducible apply onRingStn_does
    | with_reducible apply onStation_does
    | with_reducible apply onlyIf_does
    | with_reducible apply say_does
    | with_reducible apply sendOut_does
    | with_reducible apply setFld_does
    | ((with_reducible refine listed_block 11 ?_ ?_ hA); first | omega | (dsimp only [Fld.RING_CFG_STN_WDOG, Fld.RING_COUNTS_QSKIP, Fld.RING_STATE_STATE, Fld.STNs_STATUS_LAST_TID]; omega) | (dsimp only [Fld.RING_CFG_STN_WDOG, Fld.RING_COUNTS_QSKIP, Fld.RING_STATE_STATE, Fld.STNs_STATUS_LAST_TID]; split <;> omega); exact rfl)
    | ((with_reducible refine partsIn_trans ?_ hA); exact rfl)
    | ((with_reducible refine listed_code ?_ hA); exact rfl)
    | exact fun (h : Sparse.wf _ _ = true) => h
    | with_reducible apply next_does
    | with_reducible apply id_does
    | with_reducible apply ite_does
    | with_reducible apply iteO_does
    | (apply Sparse.wf_set; assumption)
    | exact rfl
    | intro _
    | dsimp only
    | split
    | with_reducible apply upd_net

theorem execStationAnswer_does {A : List Part} {b₀ : State} (st : Fin 64) (tid : BitVec 16) (ir0 : Bool) (ir1 : Bool) (vals : List (Tag × DWord)) (tie : Bool) (s : State) 
    (hD : Does A b₀ s) (hA : partsIn [.block 0x03, .block 0x0B, .exe, .net] A = true) : DoesO A b₀ (execStationAnswer st tid ir0 ir1 vals tie s) := by
  unfold execStationAnswer
  repeat' first
    | with_reducible assumption
    | with_reducible apply bump_does
    | with_reducible apply onRingStn_does
    | with_reducible apply onStation_does
    | with_reducible apply onlyIf_does
    | with_reducible apply setFlag_does
    | ((with_reducible refine listed_block 3 ?_ ?_ hA); first | omega | (dsimp only [Fld.EXE_STATION_LATE_COUNT, Fld.NET_CLOSE_CALL_COUNT, Fld.STNs_STATUS_VIA_IR0, Fld.STNs_STATUS_VIA_IR1]; omega) | (dsimp only [Fld.EXE_STATION_LATE_COUNT, Fld.NET_CLOSE_CALL_COUNT, Fld.STNs_STATUS_VIA_IR0, Fld.STNs_STATUS_VIA_IR1]; split <;> omega); exact rfl)
    | ((with_reducible refine listed_block 11 ?_ ?_ hA); first | omega | (dsimp only [Fld.EXE_STATION_LATE_COUNT, Fld.NET_CLOSE_CALL_COUNT, Fld.STNs_STATUS_VIA_IR0, Fld.STNs_STATUS_VIA_IR1]; omega) | (dsimp only [Fld.EXE_STATION_LATE_COUNT, Fld.NET_CLOSE_CALL_COUNT, Fld.STNs_STATUS_VIA_IR0, Fld.STNs_STATUS_VIA_IR1]; split <;> omega); exact rfl)
    | ((with_reducible refine partsIn_trans ?_ hA); exact rfl)
    | ((with_reducible refine listed_code ?_ hA); exact rfl)
    | exact fun (h : Sparse.wf _ _ = true) => h
    | with_reducible apply next_does
    | with_reducible apply id_does
    | with_reducible apply ite_does
    | with_reducible apply iteO_does
    | (apply Sparse.wf_set; assumption)
    | exact rfl
    | intro _
    | dsimp only
    | split
    | with_reducible apply upd_exe
    | with_reducible apply upd_net

theorem stationDeadline_does {A : List Part} {b₀ : State} (n : Nat) (limit : Nat) (s : State) 
    (hD : Does A b₀ s) (hA : partsIn [.block 0x03, .block 0x0B, .free, .strand, .exe, .net, .out] A = true) : Does A b₀ (stationDeadline n limit s) := by
  unfold stationDeadline
  repeat' first
    | with_reducible assumption
    | with_reducible apply onRingStn_does
    | with_reducible apply onStation_does
    | with_reducible apply onlyIf_does
    | with_reducible apply raiseF_does
    | with_reducible apply say_does
    | with_reducible apply setFlag_does
    | ((with_reducible refine listed_block 3 ?_ ?_ hA); first | omega | (dsimp only [Fld.EXE_EVENT_STALE, Fld.NET_EVENT_STATION, Fld.STNs_STATUS_INVALID, Fld.STNs_STATUS_STALE, Fld.STNs_STATUS_STATE, Reg.EXE_STALE_HI, Reg.EXE_STALE_LO, staleBit]; omega) | (dsimp only [Fld.EXE_EVENT_STALE, Fld.NET_EVENT_STATION, Fld.STNs_STATUS_INVALID, Fld.STNs_STATUS_STALE, Fld.STNs_STATUS_STATE, Reg.EXE_STALE_HI, Reg.EXE_STALE_LO, staleBit]; split <;> omega); exact rfl)
    | ((with_reducible refine listed_block 11 ?_ ?_ hA); first | omega | (dsimp only [Fld.EXE_EVENT_STALE, Fld.NET_EVENT_STATION, Fld.STNs_STATUS_INVALID, Fld.STNs_STATUS_STALE, Fld.STNs_STATUS_STATE, Reg.EXE_STALE_HI, Reg.EXE_STALE_LO, staleBit]; omega) | (dsimp only [Fld.EXE_EVENT_STALE, Fld.NET_EVENT_STATION, Fld.STNs_STATUS_INVALID, Fld.STNs_STATUS_STALE, Fld.STNs_STATUS_STATE, Reg.EXE_STALE_HI, Reg.EXE_STALE_LO, staleBit]; split <;> omega); exact rfl)
    | ((with_reducible refine listed_block 3 ?_ ?_ hA); exact staleBit_block _; exact rfl)
    | ((with_reducible refine partsIn_trans ?_ hA); exact rfl)
    | ((with_reducible refine listed_code ?_ hA); exact rfl)
    | exact fun (h : Sparse.wf _ _ = true) => h
    | with_reducible apply next_does
    | with_reducible apply id_does
    | with_reducible apply ite_does
    | with_reducible apply iteO_does
    | (apply Sparse.wf_set; assumption)
    | exact rfl
    | intro _
    | dsimp only
    | split

theorem ringJudge_does {A : List Part} {b₀ : State} (l : List (Nat × StationDef)) (s : State) 
    (hD : Does A b₀ s) (hA : partsIn [.block 0x0B, .free, .strand, .net, .out] A = true) : Does A b₀ (ringJudge l s) := by
  unfold ringJudge
  repeat' first
    | with_reducible assumption
    | with_reducible apply bump_does
    | with_reducible apply netSay_does
    | with_reducible apply say_does
    | with_reducible apply setFlag_does
    | with_reducible apply setFld_does
    | ((with_reducible refine listed_block 11 ?_ ?_ hA); first | omega | (dsimp only [Fld.NET_EVENT_RING_BREAK, Fld.RING_COUNTS_BREAKS, Fld.RING_STATE_BREAK, Fld.RING_STATE_BREAK_AFTER, Fld.STNs_STATUS_POSITION]; omega) | (dsimp only [Fld.NET_EVENT_RING_BREAK, Fld.RING_COUNTS_BREAKS, Fld.RING_STATE_BREAK, Fld.RING_STATE_BREAK_AFTER, Fld.STNs_STATUS_POSITION]; split <;> omega); exact rfl)
    | ((with_reducible refine partsIn_trans ?_ hA); exact rfl)
    | ((with_reducible refine listed_code ?_ hA); exact rfl)
    | exact fun (h : Sparse.wf _ _ = true) => h
    | with_reducible apply next_does
    | with_reducible apply id_does
    | with_reducible apply ite_does
    | with_reducible apply iteO_does
    | (apply Sparse.wf_set; assumption)
    | exact rfl
    | intro _
    | dsimp only
    | split
    | with_reducible apply upd_net

theorem execStationDeadline_does {A : List Part} {b₀ : State} (t : Fin 8) (s : State) 
    (hD : Does A b₀ s) (hA : partsIn [.block 0x03, .block 0x0B, .free, .strand, .exe, .net, .out] A = true) : DoesO A b₀ (execStationDeadline t s) := by
  unfold execStationDeadline
  repeat' first
    | with_reducible assumption
    | with_reducible apply forAll_does
    | with_reducible apply ringJudge_does
    | with_reducible apply stationDeadline_does
    | ((with_reducible refine partsIn_trans ?_ hA); exact rfl)
    | ((with_reducible refine listed_code ?_ hA); exact rfl)
    | exact fun (h : Sparse.wf _ _ = true) => h
    | with_reducible apply next_does
    | with_reducible apply id_does
    | with_reducible apply ite_does
    | with_reducible apply iteO_does
    | (apply Sparse.wf_set; assumption)
    | exact rfl
    | intro _
    | dsimp only
    | split

theorem enumStation_does {A : List Part} {b₀ : State} (found : List (Fin 64 × Word × Fin 64)) (n : Nat) (s : State) 
    (hD : Does A b₀ s) (hA : partsIn [.block 0x0B, .free, .strand, .exe, .out] A = true) : Does A b₀ (enumStation found n s) := by
  unfold enumStation
  repeat' first
    | with_reducible assumption
    | with_reducible apply netSay_does
    | with_reducible apply onStation_does
    | with_reducible apply onlyIf_does
    | with_reducible apply setFlag_does
    | with_reducible apply setFld_does
    | ((with_reducible refine listed_block 11 ?_ ?_ hA); first | omega | (dsimp only [Fld.NET_EVENT_STATION, Fld.STNs_STATUS_INVALID, Fld.STNs_STATUS_POSITION, Fld.STNs_STATUS_STATE, Reg.STNs_ID]; omega) | (dsimp only [Fld.NET_EVENT_STATION, Fld.STNs_STATUS_INVALID, Fld.STNs_STATUS_POSITION, Fld.STNs_STATUS_STATE, Reg.STNs_ID]; split <;> omega); exact rfl)
    | ((with_reducible refine partsIn_trans ?_ hA); exact rfl)
    | ((with_reducible refine listed_code ?_ hA); exact rfl)
    | exact fun (h : Sparse.wf _ _ = true) => h
    | with_reducible apply next_does
    | with_reducible apply id_does
    | with_reducible apply ite_does
    | with_reducible apply iteO_does
    | (apply Sparse.wf_set; assumption)
    | exact rfl
    | intro _
    | dsimp only
    | split

theorem execRingEnumeration_does {A : List Part} {b₀ : State} (found : List (Fin 64 × Word × Fin 64)) (s : State) 
    (hD : Does A b₀ s) (hA : partsIn [.block 0x0B, .free, .strand, .exe, .net, .out] A = true) : DoesO A b₀ (execRingEnumeration found s) := by
  unfold execRingEnumeration
  repeat' first
    | with_reducible assumption
    | with_reducible apply enumStation_does
    | with_reducible apply forAll_does
    | with_reducible apply onlyIf_does
    | with_reducible apply say_does
    | with_reducible apply setFlag_does
    | with_reducible apply setFld_does
    | ((with_reducible refine listed_block 11 ?_ ?_ hA); first | omega | (dsimp only [Fld.RING_STATE_STATE, Fld.STNs_STATUS_STATE, Reg.RING_PRESENT_HI, Reg.RING_PRESENT_LO, presentBit]; omega) | (dsimp only [Fld.RING_STATE_STATE, Fld.STNs_STATUS_STATE, Reg.RING_PRESENT_HI, Reg.RING_PRESENT_LO, presentBit]; split <;> omega); exact rfl)
    | ((with_reducible refine listed_block 11 ?_ ?_ hA); exact presentBit_block _; exact rfl)
    | ((with_reducible refine partsIn_trans ?_ hA); exact rfl)
    | ((with_reducible refine listed_code ?_ hA); exact rfl)
    | exact fun (h : Sparse.wf _ _ = true) => h
    | with_reducible apply next_does
    | with_reducible apply id_does
    | with_reducible apply ite_does
    | with_reducible apply iteO_does
    | (apply Sparse.wf_set; assumption)
    | exact rfl
    | intro _
    | dsimp only
    | split
    | with_reducible apply upd_net

theorem execRingRunWrite_does {A : List Part} {b₀ : State} (run : Bool) (s : State) 
    (hD : Does A b₀ s) (hA : partsIn [.block 0x0B, .block 0x0F, .strand, .net, .out] A = true) : DoesO A b₀ (execRingRunWrite run s) := by
  unfold execRingRunWrite
  repeat' first
    | with_reducible assumption
    | with_reducible apply hostCmd_does
    | with_reducible apply ringRestart_does
    | with_reducible apply setFlag_does
    | with_reducible apply setFld_does
    | ((with_reducible refine partsIn_trans ?_ hA); exact rfl)
    | ((with_reducible refine listed_code ?_ hA); exact rfl)
    | exact fun (h : Sparse.wf _ _ = true) => h
    | with_reducible apply next_does
    | with_reducible apply id_does
    | with_reducible apply ite_does
    | with_reducible apply iteO_does
    | (apply Sparse.wf_set; assumption)
    | exact rfl
    | intro _
    | dsimp only
    | split
    | with_reducible apply upd_net

theorem execRingWaitExpiry_does {A : List Part} {b₀ : State}  (s : State) 
    (hD : Does A b₀ s) (hA : partsIn [.block 0x0B, .net] A = true) : DoesO A b₀ (execRingWaitExpiry s) := by
  unfold execRingWaitExpiry
  repeat' first
    | with_reducible assumption
    | with_reducible apply onlyIf_does
    | with_reducible apply setFld_does
    | ((with_reducible refine partsIn_trans ?_ hA); exact rfl)
    | ((with_reducible refine listed_code ?_ hA); exact rfl)
    | exact fun (h : Sparse.wf _ _ = true) => h
    | with_reducible apply next_does
    | with_reducible apply id_does
    | with_reducible apply ite_does
    | with_reducible apply iteO_does
    | (apply Sparse.wf_set; assumption)
    | exact rfl
    | intro _
    | dsimp only
    | split
    | with_reducible apply upd_net

theorem execRingPassThrough_does {A : List Part} {b₀ : State} (segs : List (Fin 64 × BitVec 16)) (s : State) 
    (hD : Does A b₀ s) (hA : partsIn [.block 0x0B, .net, .out] A = true) : DoesO A b₀ (execRingPassThrough segs s) := by
  unfold execRingPassThrough
  repeat' first
    | with_reducible assumption
    | with_reducible apply forAll_does
    | with_reducible apply onRingStn_does
    | with_reducible apply sendOut_does
    | with_reducible apply setFlag_does
    | with_reducible apply setFld_does
    | ((with_reducible refine listed_block 11 ?_ ?_ hA); first | omega | (dsimp only [Fld.RING_STATE_PASS, Fld.STNs_STATUS_LAST_TID]; omega) | (dsimp only [Fld.RING_STATE_PASS, Fld.STNs_STATUS_LAST_TID]; split <;> omega); exact rfl)
    | ((with_reducible refine partsIn_trans ?_ hA); exact rfl)
    | ((with_reducible refine listed_code ?_ hA); exact rfl)
    | exact fun (h : Sparse.wf _ _ = true) => h
    | with_reducible apply next_does
    | with_reducible apply id_does
    | with_reducible apply ite_does
    | with_reducible apply iteO_does
    | (apply Sparse.wf_set; assumption)
    | exact rfl
    | intro _
    | dsimp only
    | split

end Sys2Proof.Machine
end

