-- ==== Sys2Proof/Laws/OnlyPair.lean ====
section
/-! SUPPORT. What each operation of Machine/Pair.lean can do: the parts of the state it may change, and that it keeps
canonical form. -/
namespace Sys2Proof.Machine

theorem cwResend_does {A : List Part} {b₀ : State} (was : Nat) (s : State) 
    (hD : Does A b₀ s) (hA : partsIn [.out] A = true) : Does A b₀ (cwResend was s) := by
  unfold cwResend
  repeat' first
    | with_reducible assumption
    | with_reducible apply forAll_does
    | with_reducible apply sendOut_does
    | ((with_reducible refine partsIn_trans ?_ hA); exact rfl)
    | ((with_reducible refine listed_code ?_ hA); exact rfl)
    | exact fun (h : Sparse.wf _ _ = true) => h
    | with_reducible apply next_does
    | with_reducible apply id_does
    | with_reducible apply ite_does
    | with_reducible apply iteO_does
    | (apply Sparse.wf_set; assumption)
    | exact rfl
    | intro _
    | dsimp only
    | split

theorem pathPeriod_does {A : List Part} {b₀ : State} (cw2 : Bool) (s : State) 
    (hD : Does A b₀ s) (hA : partsIn [.block 0x09, .free, .strand, .pair, .out] A = true) : Does A b₀ (pathPeriod cw2 s) := by
  unfold pathPeriod
  repeat' first
    | with_reducible assumption
    | with_reducible apply bump_does
    | with_reducible apply cwResend_does
    | with_reducible apply onPair_does
    | with_reducible apply onlyIf_does
    | with_reducible apply raiseF_does
    | with_reducible apply say_does
    | with_reducible apply setFlag_does
    | ((with_reducible refine listed_block 9 ?_ ?_ hA); first | omega | (dsimp only [Fld.PAIR_EVENT_PATH, Fld.PAIR_HB_MISS_CW1, Fld.PAIR_HB_MISS_CW2, Fld.PAIR_STATE_CW1_OK, Fld.PAIR_STATE_CW2_OK, cwPath]; omega) | (dsimp only [Fld.PAIR_EVENT_PATH, Fld.PAIR_HB_MISS_CW1, Fld.PAIR_HB_MISS_CW2, Fld.PAIR_STATE_CW1_OK, Fld.PAIR_STATE_CW2_OK, cwPath]; split <;> omega); exact rfl)
    | ((with_reducible refine partsIn_trans ?_ hA); exact rfl)
    | ((with_reducible refine listed_code ?_ hA); exact rfl)
    | exact fun (h : Sparse.wf _ _ = true) => h
    | with_reducible apply next_does
    | with_reducible apply id_does
    | with_reducible apply ite_does
    | with_reducible apply iteO_does
    | (apply Sparse.wf_set; assumption)
    | exact rfl
    | intro _
    | dsimp only
    | split

theorem senseOther_does {A : List Part} {b₀ : State} (other : Bool) (s : State) 
    (hD : Does A b₀ s) (hA : partsIn [.sup] A = true) : Does A b₀ (senseOther other s) := by
  unfold senseOther
  repeat' first
    | with_reducible assumption
    | ((with_reducible refine partsIn_trans ?_ hA); exact rfl)
    | ((with_reducible refine listed_code ?_ hA); exact rfl)
    | exact fun (h : Sparse.wf _ _ = true) => h
    | with_reducible apply next_does
    | with_reducible apply id_does
    | with_reducible apply ite_does
    | with_reducible apply iteO_does
    | (apply Sparse.wf_set; assumption)
    | exact rfl
    | intro _
    | dsimp only
    | split
    | with_reducible apply upd_sup

theorem execHeartbeatSend_does {A : List Part} {b₀ : State} (other : Bool) (s : State) 
    (hD : Does A b₀ s) (hA : partsIn [.block 0x09, .free, .strand, .pair, .sup, .out] A = true) : DoesO A b₀ (execHeartbeatSend other s) := by
  unfold execHeartbeatSend
  repeat' first
    | with_reducible assumption
    | with_reducible apply hbSend_does
    | with_reducible apply pathPeriod_does
    | with_reducible apply senseOther_does
    | with_reducible apply takeoverBlocked_does
    | ((with_reducible refine partsIn_trans ?_ hA); exact rfl)
    | ((with_reducible refine listed_code ?_ hA); exact rfl)
    | exact fun (h : Sparse.wf _ _ = true) => h
    | with_reducible apply next_does
    | with_reducible apply id_does
    | with_reducible apply ite_does
    | with_reducible apply iteO_does
    | (apply Sparse.wf_set; assumption)
    | exact rfl
    | intro _
    | dsimp only
    | split

theorem peerRegs_does {A : List Part} {b₀ : State} (hb : Heartbeat) (s : State) 
    (hD : Does A b₀ s) (hA : partsIn [.block 0x09] A = true) : Does A b₀ (peerRegs hb s) := by
  unfold peerRegs
  repeat' first
    | with_reducible assumption
    | with_reducible apply setFld_does
    | with_reducible apply wr_does
    | ((with_reducible refine partsIn_trans ?_ hA); exact rfl)
    | ((with_reducible refine listed_code ?_ hA); exact rfl)
    | exact fun (h : Sparse.wf _ _ = true) => h
    | with_reducible apply next_does
    | with_reducible apply id_does
    | with_reducible apply ite_does
    | with_reducible apply iteO_does
    | (apply Sparse.wf_set; assumption)
    | exact rfl
    | intro _
    | dsimp only
    | split

theorem homeCheck_does {A : List Part} {b₀ : State} (hb : Heartbeat) (s : State) 
    (hD : Does A b₀ s) (hA : partsIn [.block 0x09, .free, .strand, .out] A = true) : Does A b₀ (homeCheck hb s) := by
  unfold homeCheck
  repeat' first
    | with_reducible assumption
    | with_reducible apply onlyIf_does
    | with_reducible apply say_does
    | with_reducible apply setFlag_does
    | ((with_reducible refine partsIn_trans ?_ hA); exact rfl)
    | ((with_reducible refine listed_code ?_ hA); exact rfl)
    | exact fun (h : Sparse.wf _ _ = true) => h
    | with_reducible apply next_does
    | with_reducible apply id_does
    | with_reducible apply ite_does
    | with_reducible apply iteO_does
    | (apply Sparse.wf_set; assumption)
    | exact rfl
    | intro _
    | dsimp only
    | split

theorem versionCheck_does {A : List Part} {b₀ : State} (old : Option Heartbeat) (hb : Heartbeat) (s : State) 
    (hD : Does A b₀ s) (hA : partsIn [.free, .strand, .out] A = true) : Does A b₀ (versionCheck old hb s) := by
  unfold versionCheck
  repeat' first
    | with_reducible assumption
    | with_reducible apply onlyIf_does
    | with_reducible apply say_does
    | ((with_reducible refine partsIn_trans ?_ hA); exact rfl)
    | ((with_reducible refine listed_code ?_ hA); exact rfl)
    | exact fun (h : Sparse.wf _ _ = true) => h
    | with_reducible apply next_does
    | with_reducible apply id_does
    | with_reducible apply ite_does
    | with_reducible apply iteO_does
    | (apply Sparse.wf_set; assumption)
    | exact rfl
    | intro _
    | dsimp only
    | split

theorem peerNote_does {A : List Part} {b₀ : State} (old : Option Heartbeat) (hb : Heartbeat) (s : State) 
    (hD : Does A b₀ s) (hA : partsIn [.pair] A = true) : Does A b₀ (peerNote old hb s) := by
  unfold peerNote
  repeat' first
    | with_reducible assumption
    | with_reducible apply onPair_does
    | ((with_reducible refine partsIn_trans ?_ hA); exact rfl)
    | ((with_reducible refine listed_code ?_ hA); exact rfl)
    | exact fun (h : Sparse.wf _ _ = true) => h
    | with_reducible apply next_does
    | with_reducible apply id_does
    | with_reducible apply ite_does
    | with_reducible apply iteO_does
    | (apply Sparse.wf_set; assumption)
    | exact rfl
    | intro _
    | dsimp only
    | split

theorem peerDecide_does {A : List Part} {b₀ : State} (lost : Bool) (old : Option Heartbeat) (hb : Heartbeat) (s : State) 
    (hD : Does A b₀ s) (hA : partsIn [.block 0x01, .block 0x02, .block 0x03, .block 0x05, .block 0x08, .block 0x09, .block 0x0A, .block 0x0C, .free, .strand, .backup, .tides, .seqs, .exe, .loop, .dio, .saf, .pair, .can, .sup, .mbx, .out] A = true) : Does A b₀ (peerDecide lost old hb s) := by
  unfold peerDecide
  repeat' first
    | with_reducible assumption
    | with_reducible apply onPair_does
    | with_reducible apply partnerOut_does
    | with_reducible apply peerNote_does
    | with_reducible apply syncStart_does
    | ((with_reducible refine listed_block 1 ?_ ?_ hA); first | omega | (dsimp only [Fld.PAIR_STATE_STATE, pairState]; omega) | (dsimp only [Fld.PAIR_STATE_STATE, pairState]; split <;> omega); exact rfl)
    | ((with_reducible refine listed_block 2 ?_ ?_ hA); first | omega | (dsimp only [Fld.PAIR_STATE_STATE, pairState]; omega) | (dsimp only [Fld.PAIR_STATE_STATE, pairState]; split <;> omega); exact rfl)
    | ((with_reducible refine listed_block 3 ?_ ?_ hA); first | omega | (dsimp only [Fld.PAIR_STATE_STATE, pairState]; omega) | (dsimp only [Fld.PAIR_STATE_STATE, pairState]; split <;> omega); exact rfl)
    | ((with_reducible refine listed_block 5 ?_ ?_ hA); first | omega | (dsimp only [Fld.PAIR_STATE_STATE, pairState]; omega) | (dsimp only [Fld.PAIR_STATE_STATE, pairState]; split <;> omega); exact rfl)
    | ((with_reducible refine listed_block 8 ?_ ?_ hA); first | omega | (dsimp only [Fld.PAIR_STATE_STATE, pairState]; omega) | (dsimp only [Fld.PAIR_STATE_STATE, pairState]; split <;> omega); exact rfl)
    | ((with_reducible refine listed_block 9 ?_ ?_ hA); first | omega | (dsimp only [Fld.PAIR_STATE_STATE, pairState]; omega) | (dsimp only [Fld.PAIR_STATE_STATE, pairState]; split <;> omega); exact rfl)
    | ((with_reducible refine listed_block 10 ?_ ?_ hA); first | omega | (dsimp only [Fld.PAIR_STATE_STATE, pairState]; omega) | (dsimp only [Fld.PAIR_STATE_STATE, pairState]; split <;> omega); exact rfl)
    | ((with_reducible refine listed_block 12 ?_ ?_ hA); first | omega | (dsimp only [Fld.PAIR_STATE_STATE, pairState]; omega) | (dsimp only [Fld.PAIR_STATE_STATE, pairState]; split <;> omega); exact rfl)
    | ((with_reducible refine partsIn_trans ?_ hA); exact rfl)
    | ((with_reducible refine listed_code ?_ hA); exact rfl)
    | exact fun (h : Sparse.wf _ _ = true) => h
    | with_reducible apply next_does
    | with_reducible apply id_does
    | with_reducible apply ite_does
    | with_reducible apply iteO_does
    | (apply Sparse.wf_set; assumption)
    | exact rfl
    | intro _
    | dsimp only
    | split

theorem takeBase_does {A : List Part} {b₀ : State} (base : DWord) (s : State) 
    (hD : Does A b₀ s) (hA : partsIn [.exe] A = true) : Does A b₀ (takeBase base s) := by
  unfold takeBase
  repeat' first
    | with_reducible assumption
    | ((with_reducible refine partsIn_trans ?_ hA); exact rfl)
    | ((with_reducible refine listed_code ?_ hA); exact rfl)
    | exact fun (h : Sparse.wf _ _ = true) => h
    | with_reducible apply next_does
    | with_reducible apply id_does
    | with_reducible apply ite_does
    | with_reducible apply iteO_does
    | (apply Sparse.wf_set; assumption)
    | exact rfl
    | intro _
    | dsimp only
    | split
    | with_reducible apply upd_exe

theorem execHeartbeatReceive_does {A : List Part} {b₀ : State} (cw2 : Bool) (hb : Heartbeat) (good : Bool) (tie : Bool) (other : Bool) (s : State) 
    (hD : Does A b₀ s) (hA : partsIn [.block 0x01, .block 0x02, .block 0x03, .block 0x05, .block 0x08, .block 0x09, .block 0x0A, .block 0x0C, .free, .strand, .backup, .tides, .seqs, .exe, .loop, .dio, .saf, .pair, .can, .sup, .mbx, .out] A = true) : DoesO A b₀ (execHeartbeatReceive cw2 hb good tie other s) := by
  unfold execHeartbeatReceive
  repeat' first
    | with_reducible assumption
    | with_reducible apply bump_does
    | with_reducible apply homeCheck_does
    | with_reducible apply onPair_does
    | with_reducible apply onlyIf_does
    | with_reducible apply peerDecide_does
    | with_reducible apply peerRegs_does
    | with_reducible apply senseOther_does
    | with_reducible apply takeBase_does
    | with_reducible apply takeoverBlocked_does
    | with_reducible apply versionCheck_does
    | ((with_reducible refine partsIn_trans ?_ hA); exact rfl)
    | ((with_reducible refine listed_code ?_ hA); exact rfl)
    | exact fun (h : Sparse.wf _ _ = true) => h
    | with_reducible apply next_does
    | with_reducible apply id_does
    | with_reducible apply ite_does
    | with_reducible apply iteO_does
    | (apply Sparse.wf_set; assumption)
    | exact rfl
    | intro _
    | dsimp only
    | split

theorem execPairPathLost_does {A : List Part} {b₀ : State} (cw2 : Bool) (s : State) 
    (hD : Does A b₀ s) (hA : partsIn [.block 0x09, .free, .strand, .pair, .out] A = true) : DoesO A b₀ (execPairPathLost cw2 s) := by
  unfold execPairPathLost
  repeat' first
    | with_reducible assumption
    | with_reducible apply cwResend_does
    | with_reducible apply onPair_does
    | with_reducible apply raiseF_does
    | with_reducible apply say_does
    | with_reducible apply setFlag_does
    | ((with_reducible refine listed_block 9 ?_ ?_ hA); first | omega | (dsimp only [Fld.PAIR_EVENT_PATH, Fld.PAIR_STATE_CW1_OK, Fld.PAIR_STATE_CW2_OK, cwPath]; omega) | (dsimp only [Fld.PAIR_EVENT_PATH, Fld.PAIR_STATE_CW1_OK, Fld.PAIR_STATE_CW2_OK, cwPath]; split <;> omega); exact rfl)
    | ((with_reducible refine partsIn_trans ?_ hA); exact rfl)
    | ((with_reducible refine listed_code ?_ hA); exact rfl)
    | exact fun (h : Sparse.wf _ _ = true) => h
    | with_reducible apply next_does
    | with_reducible apply id_does
    | with_reducible apply ite_does
    | with_reducible apply iteO_does
    | (apply Sparse.wf_set; assumption)
    | exact rfl
    | intro _
    | dsimp only
    | split

theorem execPairPeerLost_does {A : List Part} {b₀ : State} (other : Bool) (s : State) 
    (hD : Does A b₀ s) (hA : partsIn [.block 0x09, .free, .strand, .pair, .sup, .out] A = true) : DoesO A b₀ (execPairPeerLost other s) := by
  unfold execPairPeerLost
  repeat' first
    | with_reducible assumption
    | with_reducible apply onPair_does
    | with_reducible apply onlyIf_does
    | with_reducible apply raiseF_does
    | with_reducible apply say_does
    | with_reducible apply senseOther_does
    | with_reducible apply setFld_does
    | with_reducible apply takeoverDue_does
    | ((with_reducible refine listed_block 9 ?_ ?_ hA); first | omega | (dsimp only [Fld.PAIR_EVENT_PEER_LOST, Fld.PAIR_STATE_PEER, Fld.PAIR_STATE_STATE, Fld.SUP_PWR_STATE_STATE, pairState, power]; omega) | (dsimp only [Fld.PAIR_EVENT_PEER_LOST, Fld.PAIR_STATE_PEER, Fld.PAIR_STATE_STATE, Fld.SUP_PWR_STATE_STATE, pairState, power]; split <;> omega); exact rfl)
    | ((with_reducible refine partsIn_trans ?_ hA); exact rfl)
    | ((with_reducible refine listed_code ?_ hA); exact rfl)
    | exact fun (h : Sparse.wf _ _ = true) => h
    | with_reducible apply next_does
    | with_reducible apply id_does
    | with_reducible apply ite_does
    | with_reducible apply iteO_does
    | (apply Sparse.wf_set; assumption)
    | exact rfl
    | intro _
    | dsimp only
    | split

theorem execPairWaitExpiry_does {A : List Part} {b₀ : State}  (s : State) 
    (hD : Does A b₀ s) (hA : partsIn [.pair] A = true) : DoesO A b₀ (execPairWaitExpiry s) := by
  unfold execPairWaitExpiry
  repeat' first
    | with_reducible assumption
    | with_reducible apply onPair_does
    | ((with_reducible refine partsIn_trans ?_ hA); exact rfl)
    | ((with_reducible refine listed_code ?_ hA); exact rfl)
    | exact fun (h : Sparse.wf _ _ = true) => h
    | with_reducible apply next_does
    | with_reducible apply id_does
    | with_reducible apply ite_does
    | with_reducible apply iteO_does
    | (apply Sparse.wf_set; assumption)
    | exact rfl
    | intro _
    | dsimp only
    | split

theorem execPairAuthSense_does {A : List Part} {b₀ : State}  (s : State) 
    (hD : Does A b₀ s) (hA : partsIn [.free, .strand, .sup, .out] A = true) : DoesO A b₀ (execPairAuthSense s) := by
  unfold execPairAuthSense
  repeat' first
    | with_reducible assumption
    | with_reducible apply say_does
    | with_reducible apply senseOther_does
    | ((with_reducible refine partsIn_trans ?_ hA); exact rfl)
    | ((with_reducible refine listed_code ?_ hA); exact rfl)
    | exact fun (h : Sparse.wf _ _ = true) => h
    | with_reducible apply next_does
    | with_reducible apply id_does
    | with_reducible apply ite_does
    | with_reducible apply iteO_does
    | (apply Sparse.wf_set; assumption)
    | exact rfl
    | intro _
    | dsimp only
    | split

theorem execSafetyMirrorStale_does {A : List Part} {b₀ : State} (tie : Bool) (s : State) 
    (hD : Does A b₀ s) (hA : partsIn [.block 0x08, .saf] A = true) : DoesO A b₀ (execSafetyMirrorStale tie s) := by
  unfold execSafetyMirrorStale
  repeat' first
    | with_reducible assumption
    | with_reducible apply safTie_does
    | ((with_reducible refine partsIn_trans ?_ hA); exact rfl)
    | ((with_reducible refine listed_code ?_ hA); exact rfl)
    | exact fun (h : Sparse.wf _ _ = true) => h
    | with_reducible apply next_does
    | with_reducible apply id_does
    | with_reducible apply ite_does
    | with_reducible apply iteO_does
    | (apply Sparse.wf_set; assumption)
    | exact rfl
    | intro _
    | dsimp only
    | split
    | with_reducible apply upd_saf

theorem execSafetyRecord_does {A : List Part} {b₀ : State} (sqs : List (Fin 8 × Fin 4)) (req : DWord) (conns : List (Fin 32 × ConnItems)) (split : Bool) (s : State) 
    (hD : Does A b₀ s) (hA : partsIn [.saf] A = true) : DoesO A b₀ (execSafetyRecord sqs req conns split s) := by
  unfold execSafetyRecord
  repeat' first
    | with_reducible assumption
    | with_reducible apply forAll_does
    | with_reducible apply onConn_does
    | with_reducible apply onSq_does
    | ((with_reducible refine partsIn_trans ?_ hA); exact rfl)
    | ((with_reducible refine listed_code ?_ hA); exact rfl)
    | exact fun (h : Sparse.wf _ _ = true) => h
    | with_reducible apply next_does
    | with_reducible apply id_does
    | with_reducible apply ite_does
    | with_reducible apply iteO_does
    | (apply Sparse.wf_set; assumption)
    | exact rfl
    | intro _
    | dsimp only
    | split
    | with_reducible apply upd_saf

theorem standbyRelease_does {A : List Part} {b₀ : State} (t : Nat) (cycle : Nat) (cycleTime : DWord) (vals : List (Tag × DWord × Bool × Bool)) (s : State) 
    (hD : Does A b₀ s) (hA : partsIn [.block 0x03, .exe, .pair, .out] A = true) : Does A b₀ (standbyRelease t cycle cycleTime vals s) := by
  unfold standbyRelease
  repeat' first
    | with_reducible assumption
    | with_reducible apply onTask_does
    | with_reducible apply slackEnd_does
    | with_reducible apply startNext_does
    | ((with_reducible refine partsIn_trans ?_ hA); exact rfl)
    | ((with_reducible refine listed_code ?_ hA); exact rfl)
    | exact fun (h : Sparse.wf _ _ = true) => h
    | with_reducible apply next_does
    | with_reducible apply id_does
    | with_reducible apply ite_does
    | with_reducible apply iteO_does
    | (apply Sparse.wf_set; assumption)
    | exact rfl
    | intro _
    | dsimp only
    | split

theorem toTracking_does {A : List Part} {b₀ : State}  (s : State) 
    (hD : Does A b₀ s) (hA : partsIn [.block 0x09, .exe, .pair, .out] A = true) : Does A b₀ (toTracking s) := by
  unfold toTracking
  repeat' first
    | with_reducible assumption
    | with_reducible apply forAll_does
    | with_reducible apply onTask_does
    | with_reducible apply pairTo_does
    | ((with_reducible refine partsIn_trans ?_ hA); exact rfl)
    | ((with_reducible refine listed_code ?_ hA); exact rfl)
    | exact fun (h : Sparse.wf _ _ = true) => h
    | with_reducible apply next_does
    | with_reducible apply id_does
    | with_reducible apply ite_does
    | with_reducible apply iteO_does
    | (apply Sparse.wf_set; assumption)
    | exact rfl
    | intro _
    | dsimp only
    | split
    | with_reducible apply upd_exe_pair

theorem execReleaseRecord_does {A : List Part} {b₀ : State} (q : Word) (t : Fin 24) (cycle : Nat) (cycleTime : DWord) (angle : Word) (vals : List (Tag × DWord × Bool × Bool)) (s : State) 
    (hD : Does A b₀ s) (hA : partsIn [.block 0x03, .block 0x09, .free, .strand, .exe, .pair, .out] A = true) : DoesO A b₀ (execReleaseRecord q t cycle cycleTime angle vals s) := by
  unfold execReleaseRecord
  repeat' first
    | with_reducible assumption
    | with_reducible apply cwTake_does
    | with_reducible apply onTask_does
    | with_reducible apply onlyIf_does
    | with_reducible apply raiseF_does
    | with_reducible apply say_does
    | with_reducible apply standbyRelease_does
    | with_reducible apply toTracking_does
    | ((with_reducible refine listed_block 3 ?_ ?_ hA); first | omega | (dsimp only [Fld.PAIR_EVENT_STANDBY_FAULT, Fld.PAIR_STATE_STATE, pairState]; omega) | (dsimp only [Fld.PAIR_EVENT_STANDBY_FAULT, Fld.PAIR_STATE_STATE, pairState]; split <;> omega); exact rfl)
    | ((with_reducible refine listed_block 9 ?_ ?_ hA); first | omega | (dsimp only [Fld.PAIR_EVENT_STANDBY_FAULT, Fld.PAIR_STATE_STATE, pairState]; omega) | (dsimp only [Fld.PAIR_EVENT_STANDBY_FAULT, Fld.PAIR_STATE_STATE, pairState]; split <;> omega); exact rfl)
    | ((with_reducible refine partsIn_trans ?_ hA); exact rfl)
    | ((with_reducible refine listed_code ?_ hA); exact rfl)
    | exact fun (h : Sparse.wf _ _ = true) => h
    | with_reducible apply next_does
    | with_reducible apply id_does
    | with_reducible apply ite_does
    | with_reducible apply iteO_does
    | (apply Sparse.wf_set; assumption)
    | exact rfl
    | intro _
    | dsimp only
    | split

theorem execSchedRecord_does {A : List Part} {b₀ : State} (q : Word) (t : Fin 24) (points : Nat) (resume : Bool) (s : State) 
    (hD : Does A b₀ s) (hA : partsIn [.block 0x09, .free, .strand, .exe, .pair, .out] A = true) : DoesO A b₀ (execSchedRecord q t points resume s) := by
  unfold execSchedRecord
  repeat' first
    | with_reducible assumption
    | with_reducible apply cwTake_does
    | with_reducible apply onPair_does
    | with_reducible apply preempt_does
    | ((with_reducible refine listed_block 9 ?_ ?_ hA); first | omega | (dsimp only [Fld.PAIR_STATE_STATE, pairState]; omega) | (dsimp only [Fld.PAIR_STATE_STATE, pairState]; split <;> omega); exact rfl)
    | ((with_reducible refine partsIn_trans ?_ hA); exact rfl)
    | ((with_reducible refine listed_code ?_ hA); exact rfl)
    | exact fun (h : Sparse.wf _ _ = true) => h
    | with_reducible apply next_does
    | with_reducible apply id_does
    | with_reducible apply ite_does
    | with_reducible apply iteO_does
    | (apply Sparse.wf_set; assumption)
    | exact rfl
    | intro _
    | dsimp only
    | split

theorem execReplayRecord_does {A : List Part} {b₀ : State} (q : Word) (rec : Replay) (s : State) 
    (hD : Does A b₀ s) (hA : partsIn [.block 0x09, .free, .strand, .exe, .pair, .out] A = true) : DoesO A b₀ (execReplayRecord q rec s) := by
  unfold execReplayRecord
  repeat' first
    | with_reducible assumption
    | with_reducible apply cwTake_does
    | with_reducible apply kqEnd_does
    | with_reducible apply onPair_does
    | with_reducible apply onTask_does
    | ((with_reducible refine listed_block 9 ?_ ?_ hA); first | omega | (dsimp only [Fld.PAIR_STATE_STATE, pairState]; omega) | (dsimp only [Fld.PAIR_STATE_STATE, pairState]; split <;> omega); exact rfl)
    | ((with_reducible refine partsIn_trans ?_ hA); exact rfl)
    | ((with_reducible refine listed_code ?_ hA); exact rfl)
    | exact fun (h : Sparse.wf _ _ = true) => h
    | with_reducible apply next_does
    | with_reducible apply id_does
    | with_reducible apply ite_does
    | with_reducible apply iteO_does
    | (apply Sparse.wf_set; assumption)
    | exact rfl
    | intro _
    | dsimp only
    | split

theorem execCommitRecord_does {A : List Part} {b₀ : State} (q : Word) (t : Fin 24) (cycle : Nat) (crc : Word) (since : BitVec 16) (tie : Bool) (s : State) 
    (hD : Does A b₀ s) (hA : partsIn [.block 0x09, .free, .strand, .exe, .pair, .out] A = true) : DoesO A b₀ (execCommitRecord q t cycle crc since tie s) := by
  unfold execCommitRecord
  repeat' first
    | with_reducible assumption
    | with_reducible apply activeCompare_does
    | with_reducible apply cwTake_does
    | with_reducible apply onPair_does
    | with_reducible apply standbyCompare_does
    | ((with_reducible refine listed_block 9 ?_ ?_ hA); first | omega | (dsimp only [Fld.PAIR_STATE_STATE, pairState]; omega) | (dsimp only [Fld.PAIR_STATE_STATE, pairState]; split <;> omega); exact rfl)
    | ((with_reducible refine partsIn_trans ?_ hA); exact rfl)
    | ((with_reducible refine listed_code ?_ hA); exact rfl)
    | exact fun (h : Sparse.wf _ _ = true) => h
    | with_reducible apply next_does
    | with_reducible apply id_does
    | with_reducible apply ite_does
    | with_reducible apply iteO_does
    | (apply Sparse.wf_set; assumption)
    | exact rfl
    | intro _
    | dsimp only
    | split

theorem applyGranule_does {A : List Part} {b₀ : State} (g : Granule) (s : State) 
    (hD : Does A b₀ s) (hA : partsIn [.mem, .exe] A = true) : Does A b₀ (applyGranule g s) := by
  unfold applyGranule
  repeat' first
    | with_reducible assumption
    | with_reducible apply mset_does
    | with_reducible apply setCommitted_does
    | with_reducible apply tagMemSet_does
    | ((with_reducible refine partsIn_trans ?_ hA); exact rfl)
    | ((with_reducible refine listed_code ?_ hA); exact rfl)
    | exact fun (h : Sparse.wf _ _ = true) => h
    | with_reducible apply next_does
    | with_reducible apply id_does
    | with_reducible apply ite_does
    | with_reducible apply iteO_does
    | (apply Sparse.wf_set; assumption)
    | exact rfl
    | intro _
    | dsimp only
    | split
    | with_reducible apply upd_exe

theorem execStateRecord_does {A : List Part} {b₀ : State} (q : Word) (granules : List Granule) (s : State) 
    (hD : Does A b₀ s) (hA : partsIn [.block 0x09, .free, .mem, .strand, .exe, .pair, .out] A = true) : DoesO A b₀ (execStateRecord q granules s) := by
  unfold execStateRecord
  repeat' first
    | with_reducible assumption
    | with_reducible apply applyGranule_does
    | with_reducible apply cwTake_does
    | with_reducible apply forAll_does
    | ((with_reducible refine listed_block 9 ?_ ?_ hA); first | omega | (dsimp only [Fld.PAIR_STATE_STATE, pairState]; omega) | (dsimp only [Fld.PAIR_STATE_STATE, pairState]; split <;> omega); exact rfl)
    | ((with_reducible refine partsIn_trans ?_ hA); exact rfl)
    | ((with_reducible refine listed_code ?_ hA); exact rfl)
    | exact fun (h : Sparse.wf _ _ = true) => h
    | with_reducible apply next_does
    | with_reducible apply id_does
    | with_reducible apply ite_does
    | with_reducible apply iteO_does
    | (apply Sparse.wf_set; assumption)
    | exact rfl
    | intro _
    | dsimp only
    | split

theorem tideAlign_does {A : List Part} {b₀ : State} (n : Nat) (bad : Bool) (now : Bool) (s : State) 
    (hD : Does A b₀ s) (hA : partsIn [.block 0x09, .free, .strand, .pair, .out] A = true) : Does A b₀ (tideAlign n bad now s) := by
  unfold tideAlign
  repeat' first
    | with_reducible assumption
    | with_reducible apply onPair_does
    | with_reducible apply raiseF_does
    | with_reducible apply say_does
    | with_reducible apply setBitAt_does
    | ((with_reducible refine partsIn_trans ?_ hA); exact rfl)
    | ((with_reducible refine listed_code ?_ hA); exact rfl)
    | exact fun (h : Sparse.wf _ _ = true) => h
    | with_reducible apply next_does
    | with_reducible apply id_does
    | with_reducible apply ite_does
    | with_reducible apply iteO_does
    | (apply Sparse.wf_set; assumption)
    | exact rfl
    | intro _
    | dsimp only
    | split

theorem execTideRecord_does {A : List Part} {b₀ : State} (n : Fin 8) (locked : Bool) (pos : DWord) (omega : Int) (base : DWord) (s : State) 
    (hD : Does A b₀ s) (hA : partsIn [.block 0x09, .free, .strand, .tides, .exe, .pair, .out] A = true) : DoesO A b₀ (execTideRecord n locked pos omega base s) := by
  unfold execTideRecord
  repeat' first
    | with_reducible assumption
    | with_reducible apply onTide_does
    | with_reducible apply takeBase_does
    | with_reducible apply tideAlign_does
    | ((with_reducible refine listed_block 9 ?_ ?_ hA); first | omega | (dsimp only [Fld.TDn_CFG_SOURCE, Reg.PAIR_TIDE_WIN, tideSource]; omega) | (dsimp only [Fld.TDn_CFG_SOURCE, Reg.PAIR_TIDE_WIN, tideSource]; split <;> omega); exact rfl)
    | ((with_reducible refine partsIn_trans ?_ hA); exact rfl)
    | ((with_reducible refine listed_code ?_ hA); exact rfl)
    | exact fun (h : Sparse.wf _ _ = true) => h
    | with_reducible apply next_does
    | with_reducible apply id_does
    | with_reducible apply ite_does
    | with_reducible apply iteO_does
    | (apply Sparse.wf_set; assumption)
    | exact rfl
    | intro _
    | dsimp only
    | split

theorem standbyChange_does {A : List Part} {b₀ : State} (op : Nat) (s : State) 
    (hD : Does A b₀ s) (hA : partsIn [.block 0x00, .block 0x03, .block 0x04, .block 0x05, .block 0x07, .block 0x09, .block 0x0B, .block 0x0F, .free, .strand, .exe, .loop, .dio, .rfx, .pair, .net, .can, .mpu, .out] A = true) : Does A b₀ (standbyChange op s) := by
  unfold standbyChange
  repeat' first
    | with_reducible assumption
    | with_reducible apply changeEnd_does
    | with_reducible apply changeStart_does
    | with_reducible apply changeSync_does
    | with_reducible apply doRevert_does
    | with_reducible apply doSwap_does
    | ((with_reducible refine partsIn_trans ?_ hA); exact rfl)
    | ((with_reducible refine listed_code ?_ hA); exact rfl)
    | exact fun (h : Sparse.wf _ _ = true) => h
    | with_reducible apply next_does
    | with_reducible apply id_does
    | with_reducible apply ite_does
    | with_reducible apply iteO_does
    | (apply Sparse.wf_set; assumption)
    | exact rfl
    | intro _
    | dsimp only
    | split
    | with_reducible apply upd_exe

theorem standbyControl_does {A : List Part} {b₀ : State} (r : ControlRec) (s : State) 
    (hD : Does A b₀ s) (hA : partsIn [.block 0x00, .block 0x03, .block 0x04, .block 0x05, .block 0x07, .block 0x09, .block 0x0B, .block 0x0F, .free, .strand, .exe, .loop, .dio, .rfx, .pair, .net, .can, .mpu, .out] A = true) : Does A b₀ (standbyControl r s) := by
  unfold standbyControl
  repeat' first
    | with_reducible assumption
    | with_reducible apply dropForces_does
    | with_reducible apply onPair_does
    | with_reducible apply say_does
    | with_reducible apply setForce_does
    | with_reducible apply standbyChange_does
    | with_reducible apply syncStart_does
    | with_reducible apply tagStore_does
    | with_reducible apply toTracking_does
    | ((with_reducible refine listed_block 0 ?_ ?_ hA); first | omega | (dsimp only [Fld.PAIR_STATE_STATE, pairState]; omega) | (dsimp only [Fld.PAIR_STATE_STATE, pairState]; split <;> omega); exact rfl)
    | ((with_reducible refine listed_block 3 ?_ ?_ hA); first | omega | (dsimp only [Fld.PAIR_STATE_STATE, pairState]; omega) | (dsimp only [Fld.PAIR_STATE_STATE, pairState]; split <;> omega); exact rfl)
    | ((with_reducible refine listed_block 4 ?_ ?_ hA); first | omega | (dsimp only [Fld.PAIR_STATE_STATE, pairState]; omega) | (dsimp only [Fld.PAIR_STATE_STATE, pairState]; split <;> omega); exact rfl)
    | ((with_reducible refine listed_block 5 ?_ ?_ hA); first | omega | (dsimp only [Fld.PAIR_STATE_STATE, pairState]; omega) | (dsimp only [Fld.PAIR_STATE_STATE, pairState]; split <;> omega); exact rfl)
    | ((with_reducible refine listed_block 7 ?_ ?_ hA); first | omega | (dsimp only [Fld.PAIR_STATE_STATE, pairState]; omega) | (dsimp only [Fld.PAIR_STATE_STATE, pairState]; split <;> omega); exact rfl)
    | ((with_reducible refine listed_block 9 ?_ ?_ hA); first | omega | (dsimp only [Fld.PAIR_STATE_STATE, pairState]; omega) | (dsimp only [Fld.PAIR_STATE_STATE, pairState]; split <;> omega); exact rfl)
    | ((with_reducible refine listed_block 11 ?_ ?_ hA); first | omega | (dsimp only [Fld.PAIR_STATE_STATE, pairState]; omega) | (dsimp only [Fld.PAIR_STATE_STATE, pairState]; split <;> omega); exact rfl)
    | ((with_reducible refine listed_block 15 ?_ ?_ hA); first | omega | (dsimp only [Fld.PAIR_STATE_STATE, pairState]; omega) | (dsimp only [Fld.PAIR_STATE_STATE, pairState]; split <;> omega); exact rfl)
    | ((with_reducible refine partsIn_trans ?_ hA); exact rfl)
    | ((with_reducible refine listed_code ?_ hA); exact rfl)
    | exact fun (h : Sparse.wf _ _ = true) => h
    | with_reducible apply next_does
    | with_reducible apply id_does
    | with_reducible apply ite_does
    | with_reducible apply iteO_does
    | (apply Sparse.wf_set; assumption)
    | exact rfl
    | intro _
    | dsimp only
    | split
    | with_reducible apply upd_exe

theorem applyControl_does {A : List Part} {b₀ : State} (r : ControlRec) (s : State) 
    (hD : Does A b₀ s) (hA : partsIn [.block 0x00, .block 0x03, .block 0x04, .block 0x05, .block 0x07, .block 0x09, .block 0x0B, .block 0x0F, .free, .strand, .exe, .loop, .dio, .rfx, .pair, .net, .can, .mpu, .out] A = true) : Does A b₀ (applyControl r s) := by
  unfold applyControl
  repeat' first
    | with_reducible assumption
    | with_reducible apply onPair_does
    | with_reducible apply onlyIf_does
    | with_reducible apply standbyControl_does
    | with_reducible apply switchAsk_does
    | ((with_reducible refine listed_block 0 ?_ ?_ hA); first | omega | (dsimp only [Fld.PAIR_STATE_STATE, pairState]; omega) | (dsimp only [Fld.PAIR_STATE_STATE, pairState]; split <;> omega); exact rfl)
    | ((with_reducible refine listed_block 3 ?_ ?_ hA); first | omega | (dsimp only [Fld.PAIR_STATE_STATE, pairState]; omega) | (dsimp only [Fld.PAIR_STATE_STATE, pairState]; split <;> omega); exact rfl)
    | ((with_reducible refine listed_block 4 ?_ ?_ hA); first | omega | (dsimp only [Fld.PAIR_STATE_STATE, pairState]; omega) | (dsimp only [Fld.PAIR_STATE_STATE, pairState]; split <;> omega); exact rfl)
    | ((with_reducible refine listed_block 5 ?_ ?_ hA); first | omega | (dsimp only [Fld.PAIR_STATE_STATE, pairState]; omega) | (dsimp only [Fld.PAIR_STATE_STATE, pairState]; split <;> omega); exact rfl)
    | ((with_reducible refine listed_block 7 ?_ ?_ hA); first | omega | (dsimp only [Fld.PAIR_STATE_STATE, pairState]; omega) | (dsimp only [Fld.PAIR_STATE_STATE, pairState]; split <;> omega); exact rfl)
    | ((with_reducible refine listed_block 9 ?_ ?_ hA); first | omega | (dsimp only [Fld.PAIR_STATE_STATE, pairState]; omega) | (dsimp only [Fld.PAIR_STATE_STATE, pairState]; split <;> omega); exact rfl)
    | ((with_reducible refine listed_block 11 ?_ ?_ hA); first | omega | (dsimp only [Fld.PAIR_STATE_STATE, pairState]; omega) | (dsimp only [Fld.PAIR_STATE_STATE, pairState]; split <;> omega); exact rfl)
    | ((with_reducible refine listed_block 15 ?_ ?_ hA); first | omega | (dsimp only [Fld.PAIR_STATE_STATE, pairState]; omega) | (dsimp only [Fld.PAIR_STATE_STATE, pairState]; split <;> omega); exact rfl)
    | ((with_reducible refine partsIn_trans ?_ hA); exact rfl)
    | ((with_reducible refine listed_code ?_ hA); exact rfl)
    | exact fun (h : Sparse.wf _ _ = true) => h
    | with_reducible apply next_does
    | with_reducible apply id_does
    | with_reducible apply ite_does
    | with_reducible apply iteO_does
    | (apply Sparse.wf_set; assumption)
    | exact rfl
    | intro _
    | dsimp only
    | split

theorem execControlRecord_does {A : List Part} {b₀ : State} (q : Word) (rec : ControlRec) (s : State) 
    (hD : Does A b₀ s) (hA : partsIn [.block 0x00, .block 0x03, .block 0x04, .block 0x05, .block 0x07, .block 0x09, .block 0x0B, .block 0x0F, .free, .strand, .exe, .loop, .dio, .rfx, .pair, .net, .can, .mpu, .out] A = true) : DoesO A b₀ (execControlRecord q rec s) := by
  unfold execControlRecord
  repeat' first
    | with_reducible assumption
    | with_reducible apply applyControl_does
    | with_reducible apply cwTake_does
    | ((with_reducible refine partsIn_trans ?_ hA); exact rfl)
    | ((with_reducible refine listed_code ?_ hA); exact rfl)
    | exact fun (h : Sparse.wf _ _ = true) => h
    | with_reducible apply next_does
    | with_reducible apply id_does
    | with_reducible apply ite_does
    | with_reducible apply iteO_does
    | (apply Sparse.wf_set; assumption)
    | exact rfl
    | intro _
    | dsimp only
    | split

theorem execPairTrailing_does {A : List Part} {b₀ : State} (t : Fin 24) (cycle : Nat) (s : State) 
    (hD : Does A b₀ s) (hA : partsIn [.block 0x09, .free, .strand, .pair, .out] A = true) : DoesO A b₀ (execPairTrailing t cycle s) := by
  unfold execPairTrailing
  repeat' first
    | with_reducible assumption
    | with_reducible apply cwMirror_does
    | with_reducible apply onlyIf_does
    | with_reducible apply say_does
    | with_reducible apply setFld_does
    | with_reducible apply setLag_does
    | ((with_reducible refine listed_block 9 ?_ ?_ hA); first | omega | (dsimp only [Fld.PAIR_LAG_TRAIL_RUN, Fld.PAIR_STATE_STATE, pairState]; omega) | (dsimp only [Fld.PAIR_LAG_TRAIL_RUN, Fld.PAIR_STATE_STATE, pairState]; split <;> omega); exact rfl)
    | ((with_reducible refine partsIn_trans ?_ hA); exact rfl)
    | ((with_reducible refine listed_code ?_ hA); exact rfl)
    | exact fun (h : Sparse.wf _ _ = true) => h
    | with_reducible apply next_does
    | with_reducible apply id_does
    | with_reducible apply ite_does
    | with_reducible apply iteO_does
    | (apply Sparse.wf_set; assumption)
    | exact rfl
    | intro _
    | dsimp only
    | split

theorem execSyncComplete_does {A : List Part} {b₀ : State}  (s : State) 
    (hD : Does A b₀ s) (hA : partsIn [.block 0x09, .free, .strand, .exe, .pair, .out] A = true) : DoesO A b₀ (execSyncComplete s) := by
  unfold execSyncComplete
  repeat' first
    | with_reducible assumption
    | with_reducible apply cwMirror_does
    | with_reducible apply say_does
    | with_reducible apply toTracking_does
    | ((with_reducible refine listed_block 9 ?_ ?_ hA); first | omega | (dsimp only [Fld.PAIR_STATE_STATE, pairState]; omega) | (dsimp only [Fld.PAIR_STATE_STATE, pairState]; split <;> omega); exact rfl)
    | ((with_reducible refine partsIn_trans ?_ hA); exact rfl)
    | ((with_reducible refine listed_code ?_ hA); exact rfl)
    | exact fun (h : Sparse.wf _ _ = true) => h
    | with_reducible apply next_does
    | with_reducible apply id_does
    | with_reducible apply ite_does
    | with_reducible apply iteO_does
    | (apply Sparse.wf_set; assumption)
    | exact rfl
    | intro _
    | dsimp only
    | split

theorem execTrackingRejoin_does {A : List Part} {b₀ : State}  (s : State) 
    (hD : Does A b₀ s) (hA : partsIn [.block 0x09, .free, .strand, .pair, .out] A = true) : DoesO A b₀ (execTrackingRejoin s) := by
  unfold execTrackingRejoin
  repeat' first
    | with_reducible assumption
    | with_reducible apply onPair_does
    | with_reducible apply pairTo_does
    | with_reducible apply say_does
    | ((with_reducible refine listed_block 9 ?_ ?_ hA); first | omega | (dsimp only [Fld.PAIR_CTRL_REJOIN_AUTO, Fld.PAIR_STATE_STATE, pairState]; omega) | (dsimp only [Fld.PAIR_CTRL_REJOIN_AUTO, Fld.PAIR_STATE_STATE, pairState]; split <;> omega); exact rfl)
    | ((with_reducible refine partsIn_trans ?_ hA); exact rfl)
    | ((with_reducible refine listed_code ?_ hA); exact rfl)
    | exact fun (h : Sparse.wf _ _ = true) => h
    | with_reducible apply next_does
    | with_reducible apply id_does
    | with_reducible apply ite_does
    | with_reducible apply iteO_does
    | (apply Sparse.wf_set; assumption)
    | exact rfl
    | intro _
    | dsimp only
    | split

theorem execYieldExpiry_does {A : List Part} {b₀ : State}  (s : State) 
    (hD : Does A b₀ s) (hA : partsIn [.block 0x09, .pair, .out] A = true) : DoesO A b₀ (execYieldExpiry s) := by
  unfold execYieldExpiry
  repeat' first
    | with_reducible assumption
    | with_reducible apply switchDrop_does
    | ((with_reducible refine partsIn_trans ?_ hA); exact rfl)
    | ((with_reducible refine listed_code ?_ hA); exact rfl)
    | exact fun (h : Sparse.wf _ _ = true) => h
    | with_reducible apply next_does
    | with_reducible apply id_does
    | with_reducible apply ite_does
    | with_reducible apply iteO_does
    | (apply Sparse.wf_set; assumption)
    | exact rfl
    | intro _
    | dsimp only
    | split

theorem execCausewayRecordAck_does {A : List Part} {b₀ : State} (kind : Fin 13) (q : Word) (s : State) 
    (hD : Does A b₀ s) (hA : partsIn [.pair] A = true) : DoesO A b₀ (execCausewayRecordAck kind q s) := by
  unfold execCausewayRecordAck
  repeat' first
    | with_reducible assumption
    | with_reducible apply onPair_does
    | ((with_reducible refine partsIn_trans ?_ hA); exact rfl)
    | ((with_reducible refine listed_code ?_ hA); exact rfl)
    | exact fun (h : Sparse.wf _ _ = true) => h
    | with_reducible apply next_does
    | with_reducible apply id_does
    | with_reducible apply ite_does
    | with_reducible apply iteO_does
    | (apply Sparse.wf_set; assumption)
    | exact rfl
    | intro _
    | dsimp only
    | split

theorem execTideRecordSend_does {A : List Part} {b₀ : State}  (s : State) 
    (hD : Does A b₀ s) (hA : partsIn [.pair, .out] A = true) : DoesO A b₀ (execTideRecordSend s) := by
  unfold execTideRecordSend
  repeat' first
    | with_reducible assumption
    | with_reducible apply tidesMirror_does
    | ((with_reducible refine partsIn_trans ?_ hA); exact rfl)
    | ((with_reducible refine listed_code ?_ hA); exact rfl)
    | exact fun (h : Sparse.wf _ _ = true) => h
    | with_reducible apply next_does
    | with_reducible apply id_does
    | with_reducible apply ite_does
    | with_reducible apply iteO_does
    | (apply Sparse.wf_set; assumption)
    | exact rfl
    | intro _
    | dsimp only
    | split

theorem pairRefuse_does {A : List Part} {b₀ : State} (st : Status) (s : State) 
    (hD : Does A b₀ s) (hA : partsIn [.block 0x09, .free, .strand, .out] A = true) : Does A b₀ (pairRefuse st s) := by
  unfold pairRefuse
  repeat' first
    | with_reducible assumption
    | with_reducible apply raiseF_does
    | with_reducible apply result_does
    | ((with_reducible refine partsIn_trans ?_ hA); exact rfl)
    | ((with_reducible refine listed_code ?_ hA); exact rfl)
    | exact fun (h : Sparse.wf _ _ = true) => h
    | with_reducible apply next_does
    | with_reducible apply id_does
    | with_reducible apply ite_does
    | with_reducible apply iteO_does
    | (apply Sparse.wf_set; assumption)
    | exact rfl
    | intro _
    | dsimp only
    | split

theorem pairCmd_does {A : List Part} {b₀ : State} (cancel : Bool) (f : State → State) (s : State) (h_f : ∀ u, Does A b₀ u → Does A b₀ (f u))
    (hD : Does A b₀ s) (hA : partsIn [.block 0x09, .block 0x0F, .free, .strand, .out] A = true) : Does A b₀ (pairCmd cancel f s) := by
  unfold pairCmd
  repeat' first
    | with_reducible assumption
    | with_reducible apply h_f
    | with_reducible apply hostCmd_does
    | with_reducible apply pairRefuse_does
    | ((with_reducible refine listed_block 9 ?_ ?_ hA); first | omega | (dsimp only [Fld.PAIR_RESULT_BUSY, Fld.PAIR_STATE_STATE, Reg.PAIR_CMD, pairState]; omega) | (dsimp only [Fld.PAIR_RESULT_BUSY, Fld.PAIR_STATE_STATE, Reg.PAIR_CMD, pairState]; split <;> omega); exact rfl)
    | ((with_reducible refine listed_block 15 ?_ ?_ hA); first | omega | (dsimp only [Fld.PAIR_RESULT_BUSY, Fld.PAIR_STATE_STATE, Reg.PAIR_CMD, pairState]; omega) | (dsimp only [Fld.PAIR_RESULT_BUSY, Fld.PAIR_STATE_STATE, Reg.PAIR_CMD, pairState]; split <;> omega); exact rfl)
    | ((with_reducible refine partsIn_trans ?_ hA); exact rfl)
    | ((with_reducible refine listed_code ?_ hA); exact rfl)
    | exact fun (h : Sparse.wf _ _ = true) => h
    | with_reducible apply next_does
    | with_reducible apply id_does
    | with_reducible apply ite_does
    | with_reducible apply iteO_does
    | (apply Sparse.wf_set; assumption)
    | exact rfl
    | intro _
    | dsimp only
    | split

theorem execPairSwitchoverCmd_does {A : List Part} {b₀ : State}  (s : State) 
    (hD : Does A b₀ s) (hA : partsIn [.block 0x09, .block 0x0F, .free, .strand, .pair, .out] A = true) : DoesO A b₀ (execPairSwitchoverCmd s) := by
  unfold execPairSwitchoverCmd
  repeat' first
    | with_reducible assumption
    | with_reducible apply pairCmd_does
    | with_reducible apply pairRefuse_does
    | with_reducible apply setFlag_does
    | with_reducible apply switchAsk_does
    | ((with_reducible refine partsIn_trans ?_ hA); exact rfl)
    | ((with_reducible refine listed_code ?_ hA); exact rfl)
    | exact fun (h : Sparse.wf _ _ = true) => h
    | with_reducible apply next_does
    | with_reducible apply id_does
    | with_reducible apply ite_does
    | with_reducible apply iteO_does
    | (apply Sparse.wf_set; assumption)
    | exact rfl
    | intro _
    | dsimp only
    | split

theorem execPairRejoin_does {A : List Part} {b₀ : State}  (s : State) 
    (hD : Does A b₀ s) (hA : partsIn [.block 0x09, .block 0x0F, .free, .strand, .pair, .out] A = true) : DoesO A b₀ (execPairRejoin s) := by
  unfold execPairRejoin
  repeat' first
    | with_reducible assumption
    | with_reducible apply cwSend_does
    | with_reducible apply pairCmd_does
    | with_reducible apply pairRefuse_does
    | with_reducible apply result_does
    | ((with_reducible refine partsIn_trans ?_ hA); exact rfl)
    | ((with_reducible refine listed_code ?_ hA); exact rfl)
    | exact fun (h : Sparse.wf _ _ = true) => h
    | with_reducible apply next_does
    | with_reducible apply id_does
    | with_reducible apply ite_does
    | with_reducible apply iteO_does
    | (apply Sparse.wf_set; assumption)
    | exact rfl
    | intro _
    | dsimp only
    | split

theorem execPairResync_does {A : List Part} {b₀ : State}  (s : State) 
    (hD : Does A b₀ s) (hA : partsIn [.block 0x09, .block 0x0F, .free, .strand, .pair, .out] A = true) : DoesO A b₀ (execPairResync s) := by
  unfold execPairResync
  repeat' first
    | with_reducible assumption
    | with_reducible apply cwSend_does
    | with_reducible apply pairCmd_does
    | with_reducible apply pairRefuse_does
    | with_reducible apply result_does
    | ((with_reducible refine partsIn_trans ?_ hA); exact rfl)
    | ((with_reducible refine listed_code ?_ hA); exact rfl)
    | exact fun (h : Sparse.wf _ _ = true) => h
    | with_reducible apply next_does
    | with_reducible apply id_does
    | with_reducible apply ite_does
    | with_reducible apply iteO_does
    | (apply Sparse.wf_set; assumption)
    | exact rfl
    | intro _
    | dsimp only
    | split

theorem execPairCancel_does {A : List Part} {b₀ : State}  (s : State) 
    (hD : Does A b₀ s) (hA : partsIn [.block 0x09, .block 0x0F, .free, .strand, .pair, .fwu, .sup, .out] A = true) : DoesO A b₀ (execPairCancel s) := by
  unfold execPairCancel
  repeat' first
    | with_reducible assumption
    | with_reducible apply pairCmd_does
    | with_reducible apply pairRefuse_does
    | with_reducible apply setFld_does
    | with_reducible apply switchDrop_does
    | ((with_reducible refine partsIn_trans ?_ hA); exact rfl)
    | ((with_reducible refine listed_code ?_ hA); exact rfl)
    | exact fun (h : Sparse.wf _ _ = true) => h
    | with_reducible apply next_does
    | with_reducible apply id_does
    | with_reducible apply ite_does
    | with_reducible apply iteO_does
    | (apply Sparse.wf_set; assumption)
    | exact rfl
    | intro _
    | dsimp only
    | split
    | with_reducible apply upd_fwWait_sup

theorem execSwitchoverStart_does {A : List Part} {b₀ : State}  (s : State) 
    (hD : Does A b₀ s) (hA : partsIn [.block 0x00, .block 0x09, .free, .strand, .pair, .sup, .out] A = true) : DoesO A b₀ (execSwitchoverStart s) := by
  unfold execSwitchoverStart
  repeat' first
    | with_reducible assumption
    | with_reducible apply cwSend_does
    | with_reducible apply onPair_does
    | with_reducible apply removeRefused_does
    | with_reducible apply switchDrop_does
    | ((with_reducible refine listed_block 0 ?_ ?_ hA); first | omega | (dsimp only [Fld.PAIR_STATE_STATE, pairState]; omega) | (dsimp only [Fld.PAIR_STATE_STATE, pairState]; split <;> omega); exact rfl)
    | ((with_reducible refine listed_block 9 ?_ ?_ hA); first | omega | (dsimp only [Fld.PAIR_STATE_STATE, pairState]; omega) | (dsimp only [Fld.PAIR_STATE_STATE, pairState]; split <;> omega); exact rfl)
    | ((with_reducible refine partsIn_trans ?_ hA); exact rfl)
    | ((with_reducible refine listed_code ?_ hA); exact rfl)
    | exact fun (h : Sparse.wf _ _ = true) => h
    | with_reducible apply next_does
    | with_reducible apply id_does
    | with_reducible apply ite_does
    | with_reducible apply iteO_does
    | (apply Sparse.wf_set; assumption)
    | exact rfl
    | intro _
    | dsimp only
    | split

theorem execHandoverRecord_does {A : List Part} {b₀ : State} (q : Word) (cycles : List (Fin 24 × Nat)) (angles : List (Fin 24 × Word)) (base : DWord) (s : State) 
    (hD : Does A b₀ s) (hA : partsIn [.block 0x09, .free, .strand, .exe, .pair, .out] A = true) : DoesO A b₀ (execHandoverRecord q cycles angles base s) := by
  unfold execHandoverRecord
  repeat' first
    | with_reducible assumption
    | with_reducible apply cwSend_does
    | with_reducible apply cwTake_does
    | with_reducible apply forAll_does
    | with_reducible apply onPair_does
    | with_reducible apply onTask_does
    | with_reducible apply takeBase_does
    | ((with_reducible refine listed_block 9 ?_ ?_ hA); first | omega | (dsimp only [Fld.PAIR_STATE_STATE, pairState]; omega) | (dsimp only [Fld.PAIR_STATE_STATE, pairState]; split <;> omega); exact rfl)
    | ((with_reducible refine partsIn_trans ?_ hA); exact rfl)
    | ((with_reducible refine listed_code ?_ hA); exact rfl)
    | exact fun (h : Sparse.wf _ _ = true) => h
    | with_reducible apply next_does
    | with_reducible apply id_does
    | with_reducible apply ite_does
    | with_reducible apply iteO_does
    | (apply Sparse.wf_set; assumption)
    | exact rfl
    | intro _
    | dsimp only
    | split

theorem execReadyRecord_does {A : List Part} {b₀ : State} (q : Word) (s : State) 
    (hD : Does A b₀ s) (hA : partsIn [.block 0x09, .block 0x0C, .free, .strand, .exe, .saf, .pair, .can, .sup, .out] A = true) : DoesO A b₀ (execReadyRecord q s) := by
  unfold execReadyRecord
  repeat' first
    | with_reducible assumption
    | with_reducible apply cwTake_does
    | with_reducible apply onPair_does
    | with_reducible apply releaseAuth_does
    | ((with_reducible refine partsIn_trans ?_ hA); exact rfl)
    | ((with_reducible refine listed_code ?_ hA); exact rfl)
    | exact fun (h : Sparse.wf _ _ = true) => h
    | with_reducible apply next_does
    | with_reducible apply id_does
    | with_reducible apply ite_does
    | with_reducible apply iteO_does
    | (apply Sparse.wf_set; assumption)
    | exact rfl
    | intro _
    | dsimp only
    | split
    | with_reducible apply upd_saf

theorem execTakenRecord_does {A : List Part} {b₀ : State} (q : Word) (s : State) 
    (hD : Does A b₀ s) (hA : partsIn [.block 0x09, .free, .strand, .exe, .pair, .out] A = true) : DoesO A b₀ (execTakenRecord q s) := by
  unfold execTakenRecord
  repeat' first
    | with_reducible assumption
    | with_reducible apply bump_does
    | with_reducible apply cwTake_does
    | with_reducible apply onPair_does
    | with_reducible apply pairDone_does
    | with_reducible apply pairTo_does
    | with_reducible apply say_does
    | with_reducible apply syncStart_does
    | ((with_reducible refine partsIn_trans ?_ hA); exact rfl)
    | ((with_reducible refine listed_code ?_ hA); exact rfl)
    | exact fun (h : Sparse.wf _ _ = true) => h
    | with_reducible apply next_does
    | with_reducible apply id_does
    | with_reducible apply ite_does
    | with_reducible apply iteO_does
    | (apply Sparse.wf_set; assumption)
    | exact rfl
    | intro _
    | dsimp only
    | split

theorem execPairSwitchFailed_does {A : List Part} {b₀ : State}  (s : State) 
    (hD : Does A b₀ s) (hA : partsIn [.block 0x00, .block 0x09, .free, .strand, .saf, .pair, .sup, .out] A = true) : DoesO A b₀ (execPairSwitchFailed s) := by
  unfold execPairSwitchFailed
  repeat' first
    | with_reducible assumption
    | with_reducible apply onPair_does
    | with_reducible apply onlyIf_does
    | with_reducible apply pairDone_does
    | with_reducible apply removeRefused_does
    | with_reducible apply say_does
    | ((with_reducible refine listed_block 0 ?_ ?_ hA); first | omega | (dsimp only [Fld.PAIR_STATE_STATE, pairState]; omega) | (dsimp only [Fld.PAIR_STATE_STATE, pairState]; split <;> omega); exact rfl)
    | ((with_reducible refine listed_block 9 ?_ ?_ hA); first | omega | (dsimp only [Fld.PAIR_STATE_STATE, pairState]; omega) | (dsimp only [Fld.PAIR_STATE_STATE, pairState]; split <;> omega); exact rfl)
    | ((with_reducible refine partsIn_trans ?_ hA); exact rfl)
    | ((with_reducible refine listed_code ?_ hA); exact rfl)
    | exact fun (h : Sparse.wf _ _ = true) => h
    | with_reducible apply next_does
    | with_reducible apply id_does
    | with_reducible apply ite_does
    | with_reducible apply iteO_does
    | (apply Sparse.wf_set; assumption)
    | exact rfl
    | intro _
    | dsimp only
    | split
    | with_reducible apply upd_saf

theorem execPairReclaim_does {A : List Part} {b₀ : State}  (s : State) 
    (hD : Does A b₀ s) (hA : partsIn [.pair, .out] A = true) : DoesO A b₀ (execPairReclaim s) := by
  unfold execPairReclaim
  repeat' first
    | with_reducible assumption
    | with_reducible apply cwSend_does
    | ((with_reducible refine partsIn_trans ?_ hA); exact rfl)
    | ((with_reducible refine listed_code ?_ hA); exact rfl)
    | exact fun (h : Sparse.wf _ _ = true) => h
    | with_reducible apply next_does
    | with_reducible apply id_does
    | with_reducible apply ite_does
    | with_reducible apply iteO_does
    | (apply Sparse.wf_set; assumption)
    | exact rfl
    | intro _
    | dsimp only
    | split

end Sys2Proof.Machine
end

