-- ==== Sys2Proof/Laws/OnlySequencer.lean ====
section
/-! SUPPORT. What each operation of Machine/Sequencer.lean can do: the parts of the state it may change, and that it keeps
canonical form. -/
namespace Sys2Proof.Machine

theorem execSqEvaluation_does {A : List Part} {b₀ : State} (q : Fin 32) (s : State) 
    (hD : Does A b₀ s) (hA : partsIn [.block 0x02, .block 0x03, .block 0x04, .block 0x05, .free, .strand, .tideTable, .seqs, .exe, .loop, .dio, .pair, .net, .out] A = true) : DoesO A b₀ (execSqEvaluation q s) := by
  unfold execSqEvaluation
  repeat' first
    | with_reducible assumption
    | with_reducible apply seqEval_does
    | ((with_reducible refine partsIn_trans ?_ hA); exact rfl)
    | ((with_reducible refine listed_code ?_ hA); exact rfl)
    | exact fun (h : Sparse.wf _ _ = true) => h
    | with_reducible apply next_does
    | with_reducible apply id_does
    | with_reducible apply ite_does
    | with_reducible apply iteO_does
    | (apply Sparse.wf_set; assumption)
    | exact rfl
    | intro _
    | dsimp only
    | split

theorem execSqDurationElapsed_does {A : List Part} {b₀ : State} (q : Fin 32) (s : State) 
    (hD : Does A b₀ s) (hA : partsIn [.block 0x02, .block 0x03, .block 0x04, .block 0x05, .free, .strand, .tideTable, .seqs, .exe, .loop, .dio, .pair, .net, .out] A = true) : DoesO A b₀ (execSqDurationElapsed q s) := by
  unfold execSqDurationElapsed
  repeat' first
    | with_reducible assumption
    | with_reducible apply seqEval_does
    | ((with_reducible refine partsIn_trans ?_ hA); exact rfl)
    | ((with_reducible refine listed_code ?_ hA); exact rfl)
    | exact fun (h : Sparse.wf _ _ = true) => h
    | with_reducible apply next_does
    | with_reducible apply id_does
    | with_reducible apply ite_does
    | with_reducible apply iteO_does
    | (apply Sparse.wf_set; assumption)
    | exact rfl
    | intro _
    | dsimp only
    | split

theorem execSqTimeout_does {A : List Part} {b₀ : State} (q : Fin 32) (s : State) 
    (hD : Does A b₀ s) (hA : partsIn [.block 0x02, .block 0x03, .block 0x04, .block 0x05, .free, .strand, .tideTable, .seqs, .exe, .loop, .dio, .pair, .net, .out] A = true) : DoesO A b₀ (execSqTimeout q s) := by
  unfold execSqTimeout
  repeat' first
    | with_reducible assumption
    | with_reducible apply seqEval_does
    | ((with_reducible refine partsIn_trans ?_ hA); exact rfl)
    | ((with_reducible refine listed_code ?_ hA); exact rfl)
    | exact fun (h : Sparse.wf _ _ = true) => h
    | with_reducible apply next_does
    | with_reducible apply id_does
    | with_reducible apply ite_does
    | with_reducible apply iteO_does
    | (apply Sparse.wf_set; assumption)
    | exact rfl
    | intro _
    | dsimp only
    | split

theorem seqHost_does {A : List Part} {b₀ : State} (q : Fin 32) (c : SeqCmd) (s : State) 
    (hD : Does A b₀ s) (hA : partsIn [.block 0x0F, .strand, .seqs, .out] A = true) : Does A b₀ (seqHost q c s) := by
  unfold seqHost
  repeat' first
    | with_reducible assumption
    | with_reducible apply hostCmd_does
    | with_reducible apply seqPut_does
    | ((with_reducible refine listed_block 15 ?_ ?_ hA); first | omega | (dsimp only [Reg.SQs_CMD]; omega) | (dsimp only [Reg.SQs_CMD]; split <;> omega); exact rfl)
    | ((with_reducible refine partsIn_trans ?_ hA); exact rfl)
    | ((with_reducible refine listed_code ?_ hA); exact rfl)
    | exact fun (h : Sparse.wf _ _ = true) => h
    | with_reducible apply next_does
    | with_reducible apply id_does
    | with_reducible apply ite_does
    | with_reducible apply iteO_does
    | (apply Sparse.wf_set; assumption)
    | exact rfl
    | intro _
    | dsimp only
    | split

theorem execSqStart_does {A : List Part} {b₀ : State} (q : Fin 32) (step : Fin 1024) (s : State) 
    (hD : Does A b₀ s) (hA : partsIn [.block 0x0F, .strand, .seqs, .out] A = true) : DoesO A b₀ (execSqStart q step s) := by
  unfold execSqStart
  repeat' first
    | with_reducible assumption
    | with_reducible apply seqHost_does
    | ((with_reducible refine partsIn_trans ?_ hA); exact rfl)
    | ((with_reducible refine listed_code ?_ hA); exact rfl)
    | exact fun (h : Sparse.wf _ _ = true) => h
    | with_reducible apply next_does
    | with_reducible apply id_does
    | with_reducible apply ite_does
    | with_reducible apply iteO_does
    | (apply Sparse.wf_set; assumption)
    | exact rfl
    | intro _
    | dsimp only
    | split

theorem execSqHold_does {A : List Part} {b₀ : State} (q : Fin 32) (s : State) 
    (hD : Does A b₀ s) (hA : partsIn [.block 0x0F, .strand, .seqs, .out] A = true) : DoesO A b₀ (execSqHold q s) := by
  unfold execSqHold
  repeat' first
    | with_reducible assumption
    | with_reducible apply seqHost_does
    | ((with_reducible refine partsIn_trans ?_ hA); exact rfl)
    | ((with_reducible refine listed_code ?_ hA); exact rfl)
    | exact fun (h : Sparse.wf _ _ = true) => h
    | with_reducible apply next_does
    | with_reducible apply id_does
    | with_reducible apply ite_does
    | with_reducible apply iteO_does
    | (apply Sparse.wf_set; assumption)
    | exact rfl
    | intro _
    | dsimp only
    | split

theorem execSqResume_does {A : List Part} {b₀ : State} (q : Fin 32) (s : State) 
    (hD : Does A b₀ s) (hA : partsIn [.block 0x0F, .strand, .seqs, .out] A = true) : DoesO A b₀ (execSqResume q s) := by
  unfold execSqResume
  repeat' first
    | with_reducible assumption
    | with_reducible apply seqHost_does
    | ((with_reducible refine partsIn_trans ?_ hA); exact rfl)
    | ((with_reducible refine listed_code ?_ hA); exact rfl)
    | exact fun (h : Sparse.wf _ _ = true) => h
    | with_reducible apply next_does
    | with_reducible apply id_does
    | with_reducible apply ite_does
    | with_reducible apply iteO_does
    | (apply Sparse.wf_set; assumption)
    | exact rfl
    | intro _
    | dsimp only
    | split

theorem execSqAbort_does {A : List Part} {b₀ : State} (q : Fin 32) (s : State) 
    (hD : Does A b₀ s) (hA : partsIn [.block 0x0F, .strand, .seqs, .out] A = true) : DoesO A b₀ (execSqAbort q s) := by
  unfold execSqAbort
  repeat' first
    | with_reducible assumption
    | with_reducible apply seqHost_does
    | ((with_reducible refine partsIn_trans ?_ hA); exact rfl)
    | ((with_reducible refine listed_code ?_ hA); exact rfl)
    | exact fun (h : Sparse.wf _ _ = true) => h
    | with_reducible apply next_does
    | with_reducible apply id_does
    | with_reducible apply ite_does
    | with_reducible apply iteO_does
    | (apply Sparse.wf_set; assumption)
    | exact rfl
    | intro _
    | dsimp only
    | split

theorem execSqJump_does {A : List Part} {b₀ : State} (q : Fin 32) (step : Fin 1024) (s : State) 
    (hD : Does A b₀ s) (hA : partsIn [.block 0x0F, .strand, .seqs, .out] A = true) : DoesO A b₀ (execSqJump q step s) := by
  unfold execSqJump
  repeat' first
    | with_reducible assumption
    | with_reducible apply seqHost_does
    | ((with_reducible refine partsIn_trans ?_ hA); exact rfl)
    | ((with_reducible refine listed_code ?_ hA); exact rfl)
    | exact fun (h : Sparse.wf _ _ = true) => h
    | with_reducible apply next_does
    | with_reducible apply id_does
    | with_reducible apply ite_does
    | with_reducible apply iteO_does
    | (apply Sparse.wf_set; assumption)
    | exact rfl
    | intro _
    | dsimp only
    | split

theorem execSqSignalWrite_does {A : List Part} {b₀ : State} (q : Fin 32) (sig : Byte) (s : State) 
    (hD : Does A b₀ s) (hA : partsIn [.block 0x0F, .strand, .seqs, .out] A = true) : DoesO A b₀ (execSqSignalWrite q sig s) := by
  unfold execSqSignalWrite
  repeat' first
    | with_reducible assumption
    | with_reducible apply hostCmd_does
    | with_reducible apply seqSignal_does
    | ((with_reducible refine listed_block 15 ?_ ?_ hA); first | omega | (dsimp only [Reg.SQs_SIGNAL]; omega) | (dsimp only [Reg.SQs_SIGNAL]; split <;> omega); exact rfl)
    | ((with_reducible refine partsIn_trans ?_ hA); exact rfl)
    | ((with_reducible refine listed_code ?_ hA); exact rfl)
    | exact fun (h : Sparse.wf _ _ = true) => h
    | with_reducible apply next_does
    | with_reducible apply id_does
    | with_reducible apply ite_does
    | with_reducible apply iteO_does
    | (apply Sparse.wf_set; assumption)
    | exact rfl
    | intro _
    | dsimp only
    | split

theorem execSqMirrorRecord_does {A : List Part} {b₀ : State} (q : Fin 32) (rec : SeqMirror) (s : State) 
    (hD : Does A b₀ s) (hA : partsIn [.free, .strand, .seqs, .out] A = true) : DoesO A b₀ (execSqMirrorRecord q rec s) := by
  unfold execSqMirrorRecord
  repeat' first
    | with_reducible assumption
    | with_reducible apply onSeq_does
    | with_reducible apply sqSay_does
    | ((with_reducible refine partsIn_trans ?_ hA); exact rfl)
    | ((with_reducible refine listed_code ?_ hA); exact rfl)
    | exact fun (h : Sparse.wf _ _ = true) => h
    | with_reducible apply next_does
    | with_reducible apply id_does
    | with_reducible apply ite_does
    | with_reducible apply iteO_does
    | (apply Sparse.wf_set; assumption)
    | exact rfl
    | intro _
    | dsimp only
    | split

end Sys2Proof.Machine
end

