-- ==== Sys2Proof/Laws/OnlyTide.lean ====
section
/-! SUPPORT. What each operation of Machine/Tide.lean can do: the parts of the state it may change, and that it keeps
canonical form. -/
namespace Sys2Proof.Machine

theorem execTideEnable_does {A : List Part} {b₀ : State} (n : Fin 8) (s : State) 
    (hD : Does A b₀ s) (hA : partsIn [.block 0x02, .block 0x0F, .free, .strand, .tides, .out] A = true) : DoesO A b₀ (execTideEnable n s) := by
  unfold execTideEnable
  repeat' first
    | with_reducible assumption
    | with_reducible apply hostCmd_does
    | with_reducible apply tideEnable_does
    | ((with_reducible refine partsIn_trans ?_ hA); exact rfl)
    | ((with_reducible refine listed_code ?_ hA); exact rfl)
    | exact fun (h : Sparse.wf _ _ = true) => h
    | with_reducible apply next_does
    | with_reducible apply id_does
    | with_reducible apply ite_does
    | with_reducible apply iteO_does
    | (apply Sparse.wf_set; assumption)
    | exact rfl
    | intro _
    | dsimp only
    | split

theorem execTideDisable_does {A : List Part} {b₀ : State} (n : Fin 8) (s : State) 
    (hD : Does A b₀ s) (hA : partsIn [.block 0x02, .block 0x0F, .strand, .tides, .out] A = true) : DoesO A b₀ (execTideDisable n s) := by
  unfold execTideDisable
  repeat' first
    | with_reducible assumption
    | with_reducible apply hostCmd_does
    | with_reducible apply tideDisable_does
    | ((with_reducible refine partsIn_trans ?_ hA); exact rfl)
    | ((with_reducible refine listed_code ?_ hA); exact rfl)
    | exact fun (h : Sparse.wf _ _ = true) => h
    | with_reducible apply next_does
    | with_reducible apply id_does
    | with_reducible apply ite_does
    | with_reducible apply iteO_does
    | (apply Sparse.wf_set; assumption)
    | exact rfl
    | intro _
    | dsimp only
    | split

theorem execTideResync_does {A : List Part} {b₀ : State} (n : Fin 8) (s : State) 
    (hD : Does A b₀ s) (hA : partsIn [.block 0x02, .block 0x0F, .free, .strand, .tides, .out] A = true) : DoesO A b₀ (execTideResync n s) := by
  unfold execTideResync
  repeat' first
    | with_reducible assumption
    | with_reducible apply hostCmd_does
    | with_reducible apply tideResync_does
    | ((with_reducible refine partsIn_trans ?_ hA); exact rfl)
    | ((with_reducible refine listed_code ?_ hA); exact rfl)
    | exact fun (h : Sparse.wf _ _ = true) => h
    | with_reducible apply next_does
    | with_reducible apply id_does
    | with_reducible apply ite_does
    | with_reducible apply iteO_does
    | (apply Sparse.wf_set; assumption)
    | exact rfl
    | intro _
    | dsimp only
    | split

theorem execTideLockOpen_does {A : List Part} {b₀ : State} (mask : BitVec 8) (s : State) 
    (hD : Does A b₀ s) (hA : partsIn [.block 0x02, .block 0x0F, .strand, .out] A = true) : DoesO A b₀ (execTideLockOpen mask s) := by
  unfold execTideLockOpen
  repeat' first
    | with_reducible assumption
    | with_reducible apply forAll_does
    | with_reducible apply hostCmd_does
    | with_reducible apply setBitAt_does
    | ((with_reducible refine partsIn_trans ?_ hA); exact rfl)
    | ((with_reducible refine listed_code ?_ hA); exact rfl)
    | exact fun (h : Sparse.wf _ _ = true) => h
    | with_reducible apply next_does
    | with_reducible apply id_does
    | with_reducible apply ite_does
    | with_reducible apply iteO_does
    | (apply Sparse.wf_set; assumption)
    | exact rfl
    | intro _
    | dsimp only
    | split

theorem execMainsCrossing_does {A : List Part} {b₀ : State} (n : Fin 8) (positive : Bool) (peakMv : Nat) (ageNs : Nat) (tie : Bool) (s : State) 
    (hD : Does A b₀ s) (hA : partsIn [.block 0x02, .free, .strand, .tides, .out] A = true) : DoesO A b₀ (execMainsCrossing n positive peakMv ageNs tie s) := by
  unfold execMainsCrossing
  repeat' first
    | with_reducible assumption
    | with_reducible apply bump_does
    | with_reducible apply mainsCrossing_does
    | with_reducible apply onlyIf_does
    | ((with_reducible refine partsIn_trans ?_ hA); exact rfl)
    | ((with_reducible refine listed_code ?_ hA); exact rfl)
    | exact fun (h : Sparse.wf _ _ = true) => h
    | with_reducible apply next_does
    | with_reducible apply id_does
    | with_reducible apply ite_does
    | with_reducible apply iteO_does
    | (apply Sparse.wf_set; assumption)
    | exact rfl
    | intro _
    | dsimp only
    | split

theorem execTideMiss_does {A : List Part} {b₀ : State} (n : Fin 8) (s : State) 
    (hD : Does A b₀ s) (hA : partsIn [.block 0x02, .free, .strand, .tides, .out] A = true) : DoesO A b₀ (execTideMiss n s) := by
  unfold execTideMiss
  repeat' first
    | with_reducible assumption
    | with_reducible apply tideMiss_does
    | ((with_reducible refine listed_block 2 ?_ ?_ hA); first | omega | (dsimp only [Fld.TDn_CFG_SOURCE, tideSource]; omega) | (dsimp only [Fld.TDn_CFG_SOURCE, tideSource]; split <;> omega); exact rfl)
    | ((with_reducible refine partsIn_trans ?_ hA); exact rfl)
    | ((with_reducible refine listed_code ?_ hA); exact rfl)
    | exact fun (h : Sparse.wf _ _ = true) => h
    | with_reducible apply next_does
    | with_reducible apply id_does
    | with_reducible apply ite_does
    | with_reducible apply iteO_does
    | (apply Sparse.wf_set; assumption)
    | exact rfl
    | intro _
    | dsimp only
    | split

theorem execEncoderEdge_does {A : List Part} {b₀ : State} (n : Fin 8) (both : Bool) (forward : Bool) (s : State) 
    (hD : Does A b₀ s) (hA : partsIn [.block 0x02, .free, .strand, .tides, .out] A = true) : DoesO A b₀ (execEncoderEdge n both forward s) := by
  unfold execEncoderEdge
  repeat' first
    | with_reducible assumption
    | with_reducible apply bump_does
    | with_reducible apply moveP_does
    | with_reducible apply onTide_does
    | with_reducible apply say_does
    | with_reducible apply setFlag_does
    | ((with_reducible refine listed_block 2 ?_ ?_ hA); first | omega | (dsimp only [Fld.TDn_CFG_DIR_INVERT, Fld.TDn_COUNTS_QUAD, Fld.TDn_STATUS_QUAD_ERR]; omega) | (dsimp only [Fld.TDn_CFG_DIR_INVERT, Fld.TDn_COUNTS_QUAD, Fld.TDn_STATUS_QUAD_ERR]; split <;> omega); exact rfl)
    | ((with_reducible refine partsIn_trans ?_ hA); exact rfl)
    | ((with_reducible refine listed_code ?_ hA); exact rfl)
    | exact fun (h : Sparse.wf _ _ = true) => h
    | with_reducible apply next_does
    | with_reducible apply id_does
    | with_reducible apply ite_does
    | with_reducible apply iteO_does
    | (apply Sparse.wf_set; assumption)
    | exact rfl
    | intro _
    | dsimp only
    | split

theorem execStepEdge_does {A : List Part} {b₀ : State} (n : Fin 8) (forward : Bool) (s : State) 
    (hD : Does A b₀ s) (hA : partsIn [.tides] A = true) : DoesO A b₀ (execStepEdge n forward s) := by
  unfold execStepEdge
  repeat' first
    | with_reducible assumption
    | with_reducible apply moveP_does
    | ((with_reducible refine partsIn_trans ?_ hA); exact rfl)
    | ((with_reducible refine listed_code ?_ hA); exact rfl)
    | exact fun (h : Sparse.wf _ _ = true) => h
    | with_reducible apply next_does
    | with_reducible apply id_does
    | with_reducible apply ite_does
    | with_reducible apply iteO_does
    | (apply Sparse.wf_set; assumption)
    | exact rfl
    | intro _
    | dsimp only
    | split

theorem execIndexPulse_does {A : List Part} {b₀ : State} (n : Fin 8) (s : State) 
    (hD : Does A b₀ s) (hA : partsIn [.block 0x02, .free, .strand, .tides, .out] A = true) : DoesO A b₀ (execIndexPulse n s) := by
  unfold execIndexPulse
  repeat' first
    | with_reducible assumption
    | with_reducible apply indexPulse_does
    | ((with_reducible refine partsIn_trans ?_ hA); exact rfl)
    | ((with_reducible refine listed_code ?_ hA); exact rfl)
    | exact fun (h : Sparse.wf _ _ = true) => h
    | with_reducible apply next_does
    | with_reducible apply id_does
    | with_reducible apply ite_does
    | with_reducible apply iteO_does
    | (apply Sparse.wf_set; assumption)
    | exact rfl
    | intro _
    | dsimp only
    | split

theorem execTideMeasurement_does {A : List Part} {b₀ : State} (n : Fin 8) (s : State) 
    (hD : Does A b₀ s) (hA : partsIn [.block 0x02, .free, .strand, .tides, .out] A = true) : DoesO A b₀ (execTideMeasurement n s) := by
  unfold execTideMeasurement
  repeat' first
    | with_reducible assumption
    | with_reducible apply tideMeasure_does
    | ((with_reducible refine partsIn_trans ?_ hA); exact rfl)
    | ((with_reducible refine listed_code ?_ hA); exact rfl)
    | exact fun (h : Sparse.wf _ _ = true) => h
    | with_reducible apply next_does
    | with_reducible apply id_does
    | with_reducible apply ite_does
    | with_reducible apply iteO_does
    | (apply Sparse.wf_set; assumption)
    | exact rfl
    | intro _
    | dsimp only
    | split

theorem execTideLineFault_does {A : List Part} {b₀ : State} (input : Fin 4) (z : Bool) (present : Bool) (s : State) 
    (hD : Does A b₀ s) (hA : partsIn [.block 0x02, .free, .strand, .tides, .out] A = true) : DoesO A b₀ (execTideLineFault input z present s) := by
  unfold execTideLineFault
  repeat' first
    | with_reducible assumption
    | with_reducible apply lineFault_does
    | ((with_reducible refine partsIn_trans ?_ hA); exact rfl)
    | ((with_reducible refine listed_code ?_ hA); exact rfl)
    | exact fun (h : Sparse.wf _ _ = true) => h
    | with_reducible apply next_does
    | with_reducible apply id_does
    | with_reducible apply ite_does
    | with_reducible apply iteO_does
    | (apply Sparse.wf_set; assumption)
    | exact rfl
    | intro _
    | dsimp only
    | split

theorem execTrackerUpdate_does {A : List Part} {b₀ : State} (n : Fin 8) (s : State) 
    (hD : Does A b₀ s) (hA : partsIn [.block 0x02, .free, .strand, .tides, .out] A = true) : DoesO A b₀ (execTrackerUpdate n s) := by
  unfold execTrackerUpdate
  repeat' first
    | with_reducible assumption
    | with_reducible apply trackerUpdate_does
    | ((with_reducible refine partsIn_trans ?_ hA); exact rfl)
    | ((with_reducible refine listed_code ?_ hA); exact rfl)
    | exact fun (h : Sparse.wf _ _ = true) => h
    | with_reducible apply next_does
    | with_reducible apply id_does
    | with_reducible apply ite_does
    | with_reducible apply iteO_does
    | (apply Sparse.wf_set; assumption)
    | exact rfl
    | intro _
    | dsimp only
    | split

theorem execTideLost_does {A : List Part} {b₀ : State} (n : Fin 8) (tie : Bool) (s : State) 
    (hD : Does A b₀ s) (hA : partsIn [.block 0x02, .free, .strand, .tides, .out] A = true) : DoesO A b₀ (execTideLost n tie s) := by
  unfold execTideLost
  repeat' first
    | with_reducible assumption
    | with_reducible apply tideLost_does
    | ((with_reducible refine partsIn_trans ?_ hA); exact rfl)
    | ((with_reducible refine listed_code ?_ hA); exact rfl)
    | exact fun (h : Sparse.wf _ _ = true) => h
    | with_reducible apply next_does
    | with_reducible apply id_does
    | with_reducible apply ite_does
    | with_reducible apply iteO_does
    | (apply Sparse.wf_set; assumption)
    | exact rfl
    | intro _
    | dsimp only
    | split

theorem execTideBankFault_does {A : List Part} {b₀ : State}  (s : State) 
    (hD : Does A b₀ s) (hA : partsIn [.block 0x01, .block 0x02, .free, .strand, .tides, .out] A = true) : DoesO A b₀ (execTideBankFault s) := by
  unfold execTideBankFault
  repeat' first
    | with_reducible assumption
    | with_reducible apply tiBankFault_does
    | ((with_reducible refine partsIn_trans ?_ hA); exact rfl)
    | ((with_reducible refine listed_code ?_ hA); exact rfl)
    | exact fun (h : Sparse.wf _ _ = true) => h
    | with_reducible apply next_does
    | with_reducible apply id_does
    | with_reducible apply ite_does
    | with_reducible apply iteO_does
    | (apply Sparse.wf_set; assumption)
    | exact rfl
    | intro _
    | dsimp only
    | split

end Sys2Proof.Machine
end

