-- ==== Sys2Proof/Laws/OnlyTideTable.lean ====
section
/-! SUPPORT. What each operation of Machine/TideTable.lean can do: the parts of the state it may change, and that it keeps
canonical form. -/
namespace Sys2Proof.Machine

theorem execTtWrite_does {A : List Part} {b₀ : State}  (s : State) 
    (hD : Does A b₀ s) (hA : partsIn [.block 0x02, .block 0x0F, .free, .strand, .tideTable, .net, .out] A = true) : DoesO A b₀ (execTtWrite s) := by
  unfold execTtWrite
  repeat' first
    | with_reducible assumption
    | with_reducible apply hostCmd_does
    | with_reducible apply setFld_does
    | with_reducible apply ttCommit_does
    | ((with_reducible refine listed_block 2 ?_ ?_ hA); first | omega | (dsimp only [Fld.TT_RESULT_STATUS, Fld.TT_SEL_INDEX, Reg.TT_CMD, Reg.TT_DATA]; omega) | (dsimp only [Fld.TT_RESULT_STATUS, Fld.TT_SEL_INDEX, Reg.TT_CMD, Reg.TT_DATA]; split <;> omega); exact rfl)
    | ((with_reducible refine listed_block 15 ?_ ?_ hA); first | omega | (dsimp only [Fld.TT_RESULT_STATUS, Fld.TT_SEL_INDEX, Reg.TT_CMD, Reg.TT_DATA]; omega) | (dsimp only [Fld.TT_RESULT_STATUS, Fld.TT_SEL_INDEX, Reg.TT_CMD, Reg.TT_DATA]; split <;> omega); exact rfl)
    | ((with_reducible refine partsIn_trans ?_ hA); exact rfl)
    | ((with_reducible refine listed_code ?_ hA); exact rfl)
    | exact fun (h : Sparse.wf _ _ = true) => h
    | with_reducible apply next_does
    | with_reducible apply id_does
    | with_reducible apply ite_does
    | with_reducible apply iteO_does
    | (apply Sparse.wf_set; assumption)
    | exact rfl
    | intro _
    | dsimp only
    | split

theorem execTtRead_does {A : List Part} {b₀ : State}  (s : State) 
    (hD : Does A b₀ s) (hA : partsIn [.block 0x02, .block 0x0F, .free, .strand, .out] A = true) : DoesO A b₀ (execTtRead s) := by
  unfold execTtRead
  repeat' first
    | with_reducible assumption
    | with_reducible apply forAll_does
    | with_reducible apply hostCmd_does
    | with_reducible apply result_does
    | with_reducible apply wr_does
    | ((with_reducible refine listed_block 2 ?_ ?_ hA); first | omega | (dsimp only [Fld.TT_RESULT_STATUS, Fld.TT_SEL_INDEX, Reg.TT_CMD, Reg.TT_DATA]; omega) | (dsimp only [Fld.TT_RESULT_STATUS, Fld.TT_SEL_INDEX, Reg.TT_CMD, Reg.TT_DATA]; split <;> omega); exact rfl)
    | ((with_reducible refine listed_block 15 ?_ ?_ hA); first | omega | (dsimp only [Fld.TT_RESULT_STATUS, Fld.TT_SEL_INDEX, Reg.TT_CMD, Reg.TT_DATA]; omega) | (dsimp only [Fld.TT_RESULT_STATUS, Fld.TT_SEL_INDEX, Reg.TT_CMD, Reg.TT_DATA]; split <;> omega); exact rfl)
    | ((with_reducible refine partsIn_trans ?_ hA); exact rfl)
    | ((with_reducible refine listed_code ?_ hA); exact rfl)
    | exact fun (h : Sparse.wf _ _ = true) => h
    | with_reducible apply next_does
    | with_reducible apply id_does
    | with_reducible apply ite_does
    | with_reducible apply iteO_does
    | (apply Sparse.wf_set; assumption)
    | exact rfl
    | intro _
    | dsimp only
    | split

theorem execTtRetire_does {A : List Part} {b₀ : State}  (s : State) 
    (hD : Does A b₀ s) (hA : partsIn [.block 0x02, .block 0x0F, .free, .strand, .tideTable, .out] A = true) : DoesO A b₀ (execTtRetire s) := by
  unfold execTtRetire
  repeat' first
    | with_reducible assumption
    | with_reducible apply hostCmd_does
    | with_reducible apply setFld_does
    | with_reducible apply ttRetireBy_does
    | ((with_reducible refine partsIn_trans ?_ hA); exact rfl)
    | ((with_reducible refine listed_code ?_ hA); exact rfl)
    | exact fun (h : Sparse.wf _ _ = true) => h
    | with_reducible apply next_does
    | with_reducible apply id_does
    | with_reducible apply ite_does
    | with_reducible apply iteO_does
    | (apply Sparse.wf_set; assumption)
    | exact rfl
    | intro _
    | dsimp only
    | split

theorem execTtPartitionWrite_does {A : List Part} {b₀ : State} (value : Word) (s : State) 
    (hD : Does A b₀ s) (hA : partsIn [.block 0x02, .block 0x0F, .free, .strand, .out] A = true) : DoesO A b₀ (execTtPartitionWrite value s) := by
  unfold execTtPartitionWrite
  repeat' first
    | with_reducible assumption
    | with_reducible apply hostCmd_does
    | with_reducible apply result_does
    | with_reducible apply setFld_does
    | ((with_reducible refine partsIn_trans ?_ hA); exact rfl)
    | ((with_reducible refine listed_code ?_ hA); exact rfl)
    | exact fun (h : Sparse.wf _ _ = true) => h
    | with_reducible apply next_does
    | with_reducible apply id_does
    | with_reducible apply ite_does
    | with_reducible apply iteO_does
    | (apply Sparse.wf_set; assumption)
    | exact rfl
    | intro _
    | dsimp only
    | split

theorem execTtClaimWrite_does {A : List Part} {b₀ : State} (value : Word) (s : State) 
    (hD : Does A b₀ s) (hA : partsIn [.block 0x02, .block 0x0F, .strand, .tideTable, .out] A = true) : DoesO A b₀ (execTtClaimWrite value s) := by
  unfold execTtClaimWrite
  repeat' first
    | with_reducible assumption
    | with_reducible apply forAll_does
    | with_reducible apply hostCmd_does
    | with_reducible apply onTTOut_does
    | with_reducible apply wr_does
    | ((with_reducible refine partsIn_trans ?_ hA); exact rfl)
    | ((with_reducible refine listed_code ?_ hA); exact rfl)
    | exact fun (h : Sparse.wf _ _ = true) => h
    | with_reducible apply next_does
    | with_reducible apply id_does
    | with_reducible apply ite_does
    | with_reducible apply iteO_does
    | (apply Sparse.wf_set; assumption)
    | exact rfl
    | intro _
    | dsimp only
    | split

theorem execTtScanVisit_does {A : List Part} {b₀ : State} (i : Fin 4096) (s : State) 
    (hD : Does A b₀ s) (hA : partsIn [.block 0x02, .free, .strand, .tideTable, .net, .out] A = true) : DoesO A b₀ (execTtScanVisit i s) := by
  unfold execTtScanVisit
  repeat' first
    | with_reducible assumption
    | with_reducible apply ttVisit_does
    | ((with_reducible refine partsIn_trans ?_ hA); exact rfl)
    | ((with_reducible refine listed_code ?_ hA); exact rfl)
    | exact fun (h : Sparse.wf _ _ = true) => h
    | with_reducible apply next_does
    | with_reducible apply id_does
    | with_reducible apply ite_does
    | with_reducible apply iteO_does
    | (apply Sparse.wf_set; assumption)
    | exact rfl
    | intro _
    | dsimp only
    | split

theorem execTtFire_does {A : List Part} {b₀ : State} (i : Fin 4096) (forward : Bool) (step : Fin 32) (dropped : Bool) (s : State) 
    (hD : Does A b₀ s) (hA : partsIn [.block 0x02, .block 0x03, .block 0x04, .block 0x05, .block 0x06, .block 0x0B, .free, .strand, .tideTable, .exe, .loop, .dio, .ana, .net, .out] A = true) : DoesO A b₀ (execTtFire i forward step dropped s) := by
  unfold execTtFire
  repeat' first
    | with_reducible assumption
    | with_reducible apply ttFire_does
    | ((with_reducible refine partsIn_trans ?_ hA); exact rfl)
    | ((with_reducible refine listed_code ?_ hA); exact rfl)
    | exact fun (h : Sparse.wf _ _ = true) => h
    | with_reducible apply next_does
    | with_reducible apply id_does
    | with_reducible apply ite_does
    | with_reducible apply iteO_does
    | (apply Sparse.wf_set; assumption)
    | exact rfl
    | intro _
    | dsimp only
    | split

theorem execTtLateFire_does {A : List Part} {b₀ : State} (i : Fin 4096) (s : State) 
    (hD : Does A b₀ s) (hA : partsIn [.block 0x02, .block 0x03, .block 0x04, .block 0x05, .block 0x06, .block 0x0B, .free, .strand, .tideTable, .exe, .loop, .dio, .ana, .net, .out] A = true) : DoesO A b₀ (execTtLateFire i s) := by
  unfold execTtLateFire
  repeat' first
    | with_reducible assumption
    | with_reducible apply onTT_does
    | with_reducible apply ttFire_does
    | ((with_reducible refine partsIn_trans ?_ hA); exact rfl)
    | ((with_reducible refine listed_code ?_ hA); exact rfl)
    | exact fun (h : Sparse.wf _ _ = true) => h
    | with_reducible apply next_does
    | with_reducible apply id_does
    | with_reducible apply ite_does
    | with_reducible apply iteO_does
    | (apply Sparse.wf_set; assumption)
    | exact rfl
    | intro _
    | dsimp only
    | split

theorem execPulseTrailingEdge_does {A : List Part} {b₀ : State} (out : TideOut) (s : State) 
    (hD : Does A b₀ s) (hA : partsIn [.tideTable] A = true) : DoesO A b₀ (execPulseTrailingEdge out s) := by
  unfold execPulseTrailingEdge
  repeat' first
    | with_reducible assumption
    | with_reducible apply onTTOut_does
    | ((with_reducible refine partsIn_trans ?_ hA); exact rfl)
    | ((with_reducible refine listed_code ?_ hA); exact rfl)
    | exact fun (h : Sparse.wf _ _ = true) => h
    | with_reducible apply next_does
    | with_reducible apply id_does
    | with_reducible apply ite_does
    | with_reducible apply iteO_does
    | (apply Sparse.wf_set; assumption)
    | exact rfl
    | intro _
    | dsimp only
    | split

theorem execTtCalibration_does {A : List Part} {b₀ : State} (out : TideOut) (ok : Bool) (s : State) 
    (hD : Does A b₀ s) (hA : partsIn [.block 0x02, .free, .strand, .tideTable, .out] A = true) : DoesO A b₀ (execTtCalibration out ok s) := by
  unfold execTtCalibration
  repeat' first
    | with_reducible assumption
    | with_reducible apply onTTOut_does
    | with_reducible apply say_does
    | with_reducible apply setBitAt_does
    | ((with_reducible refine partsIn_trans ?_ hA); exact rfl)
    | ((with_reducible refine listed_code ?_ hA); exact rfl)
    | exact fun (h : Sparse.wf _ _ = true) => h
    | with_reducible apply next_does
    | with_reducible apply id_does
    | with_reducible apply ite_does
    | with_reducible apply iteO_does
    | (apply Sparse.wf_set; assumption)
    | exact rfl
    | intro _
    | dsimp only
    | split

theorem execTtMemErr_does {A : List Part} {b₀ : State} (place : MemErr) (s : State) 
    (hD : Does A b₀ s) (hA : partsIn [.block 0x02, .free, .strand, .tideTable, .seqs, .pair, .out] A = true) : DoesO A b₀ (execTtMemErr place s) := by
  unfold execTtMemErr
  repeat' first
    | with_reducible assumption
    | with_reducible apply onTT_does
    | with_reducible apply seqFault_does
    | with_reducible apply sqSay_does
    | with_reducible apply ttSay_does
    | ((with_reducible refine partsIn_trans ?_ hA); exact rfl)
    | ((with_reducible refine listed_code ?_ hA); exact rfl)
    | exact fun (h : Sparse.wf _ _ = true) => h
    | with_reducible apply next_does
    | with_reducible apply id_does
    | with_reducible apply ite_does
    | with_reducible apply iteO_does
    | (apply Sparse.wf_set; assumption)
    | exact rfl
    | intro _
    | dsimp only
    | split

end Sys2Proof.Machine
end

