-- ==== Sys2Proof/Laws/OnlyCmd.lean ====
section
/-! SUPPORT. What each operation of Machine/Cmd.lean can do: the parts of the state it may change, and that it keeps
canonical form. -/
namespace Sys2Proof.Machine

theorem after_does {A : List Part} {b₀ : State} (o : Host.Outcome State Fault Refusal) (s : State)
    (h : DoesO A b₀ o) (hD : Does A b₀ s) : Does A b₀ (after o s) := by
  unfold after
  split
  · exact h _ rfl
  · exact hD

theorem spent_does {A : List Part} {b₀ : State}  (s : State) 
    (hD : Does A b₀ s) (hA : partsIn [.free] A = true) : Does A b₀ (spent s) := by
  unfold spent
  repeat' first
    | with_reducible assumption
    | ((with_reducible refine partsIn_trans ?_ hA); exact rfl)
    | ((with_reducible refine listed_code ?_ hA); exact rfl)
    | exact fun (h : Sparse.wf _ _ = true) => h
    | with_reducible apply next_does
    | with_reducible apply id_does
    | with_reducible apply ite_does
    | with_reducible apply iteO_does
    | (apply Sparse.wf_set; assumption)
    | exact rfl
    | intro _
    | dsimp only
    | split
    | with_reducible apply upd_freeCtr

/-- Each meaning of a list keeps to the listed parts. -/
def AllDo (A : List Part) (b₀ : State) : List (Nat × Meaning) → Prop
  | [] => True
  | e :: l => (∀ u, Does A b₀ u → DoesO A b₀ (e.2 u)) ∧ AllDo A b₀ l

theorem AllDo.mem {A : List Part} {b₀ : State} {l : List (Nat × Meaning)} (h : AllDo A b₀ l) {e : Nat × Meaning} (k : e ∈ l) :
    ∀ u, Does A b₀ u → DoesO A b₀ (e.2 u) := by
  induction l with
  | nil => cases k
  | cons x l ih =>
    rcases List.mem_cons.1 k with rfl | k
    · exact h.1
    · exact ih h.2 k

theorem allDo_nil {A : List Part} {b₀ : State} : AllDo A b₀ [] := trivial

theorem allDo_cons {A : List Part} {b₀ : State} {n : Nat} {f : Meaning} {l : List (Nat × Meaning)}
    (h : ∀ u, Does A b₀ u → DoesO A b₀ (f u)) (k : AllDo A b₀ l) : AllDo A b₀ ((n, f) :: l) := ⟨h, k⟩

theorem byOp_does {A : List Part} {b₀ : State} (op : Nat) (l : List (Nat × Meaning)) (s : State)
    (hD : Does A b₀ s) (h : AllDo A b₀ l) : Does A b₀ (byOp op l s) := by
  unfold byOp
  split
  · exact after_does _ _ (h.mem (List.mem_of_find?_eq_some ‹_›) _ hD) hD
  · exact hD

theorem tideCtrlWrite_does {A : List Part} {b₀ : State} (v : Word) (s : State) 
    (hD : Does A b₀ s) (hA : partsIn [.block 0x02, .block 0x0F, .free, .strand, .tides, .out] A = true) : Does A b₀ (tideCtrlWrite v s) := by
  unfold tideCtrlWrite
  repeat' first
    | with_reducible assumption
    | with_reducible apply after_does
    | with_reducible apply execTideDisable_does
    | with_reducible apply execTideEnable_does
    | with_reducible apply execTideResync_does
    | with_reducible apply forAll_does
    | ((with_reducible refine partsIn_trans ?_ hA); exact rfl)
    | ((with_reducible refine listed_code ?_ hA); exact rfl)
    | exact fun (h : Sparse.wf _ _ = true) => h
    | with_reducible apply next_does
    | with_reducible apply id_does
    | with_reducible apply ite_does
    | with_reducible apply iteO_does
    | (apply Sparse.wf_set; assumption)
    | exact rfl
    | intro _
    | dsimp only
    | split

theorem cmdTide_does {A : List Part} {b₀ : State} (a : Nat) (v : Word) (s : State) 
    (hD : Does A b₀ s) (hA : partsIn [.block 0x00, .block 0x02, .block 0x03, .block 0x04, .block 0x05, .block 0x07, .block 0x09, .block 0x0B, .block 0x0F, .free, .strand, .tides, .tideTable, .seqs, .exe, .loop, .dio, .rfx, .pair, .net, .can, .mpu, .out] A = true) : DoesM A b₀ (cmdTide a v s) := by
  unfold cmdTide
  try dsimp only
  repeat' first
    | with_reducible exact none_does
    | with_reducible refine some_does ?_
    | with_reducible refine iteM_does (fun _ => ?_) (fun _ => ?_)
    | split
  repeat' first
    | with_reducible exact hD
    | with_reducible assumption
    | with_reducible refine after_does _ _ ?_ ?_
    | with_reducible refine byOp_does _ _ _ ?_ ?_
    | exact allDo_nil
    | with_reducible refine allDo_cons (fun _ h => ?_) ?_
    | with_reducible apply execChangeArm_does
    | with_reducible apply execChangeCancel_does
    | with_reducible apply execChangeCommit_does
    | with_reducible apply execChangeRevert_does
    | with_reducible apply execChangeValues_does
    | with_reducible apply execChangeVerify_does
    | with_reducible apply execExeEvtSignalWrite_does
    | with_reducible apply execExeRunWrite_does
    | with_reducible apply execForceClear_does
    | with_reducible apply execForceClearAll_does
    | with_reducible apply execForceRead_does
    | with_reducible apply execForceSet_does
    | with_reducible apply execSqAbort_does
    | with_reducible apply execSqHold_does
    | with_reducible apply execSqJump_does
    | with_reducible apply execSqResume_does
    | with_reducible apply execSqSignalWrite_does
    | with_reducible apply execSqStart_does
    | with_reducible apply execTideLockOpen_does
    | with_reducible apply execTtClaimWrite_does
    | with_reducible apply execTtPartitionWrite_does
    | with_reducible apply execTtRead_does
    | with_reducible apply execTtRetire_does
    | with_reducible apply execTtWrite_does
    | with_reducible apply spent_does
    | with_reducible apply tideCtrlWrite_does
    | ((with_reducible refine partsIn_trans ?_ hA); exact rfl)
    | ((with_reducible refine listed_code ?_ hA); exact rfl)
    | ((with_reducible refine listed_blocks ?_ hA); exact rfl)
    | with_reducible apply ite_does
    | with_reducible apply iteO_does
    | intro _
    | dsimp only
    | split

theorem cmdField_does {A : List Part} {b₀ : State} (a : Nat) (v : Word) (s : State) 
    (hD : Does A b₀ s) (hA : partsIn [.blocks, .free, .mem, .strand, .backup, .loop, .dio, .rfx, .ana, .triad, .pair, .sup, .mpu, .out] A = true) : DoesM A b₀ (cmdField a v s) := by
  unfold cmdField
  try dsimp only
  repeat' first
    | with_reducible exact none_does
    | with_reducible refine some_does ?_
    | with_reducible refine iteM_does (fun _ => ?_) (fun _ => ?_)
    | split
  repeat' first
    | with_reducible exact hD
    | with_reducible assumption
    | with_reducible refine after_does _ _ ?_ ?_
    | with_reducible refine byOp_does _ _ _ ?_ ?_
    | exact allDo_nil
    | with_reducible refine allDo_cons (fun _ h => ?_) ?_
    | with_reducible apply execAnaBankRecover_does
    | with_reducible apply execAnaChannelEnable_does
    | with_reducible apply execAnaHartCmd_does
    | with_reducible apply execAnaLockOpen_does
    | with_reducible apply execDioBankEnable_does
    | with_reducible apply execDioBankRecover_does
    | with_reducible apply execDioBankReenable_does
    | with_reducible apply execDioRearm_does
    | with_reducible apply execLoopBankReen_does
    | with_reducible apply execLoopClear_does
    | with_reducible apply execLoopGetPar_does
    | with_reducible apply execLoopLoad_does
    | with_reducible apply execLoopRead_does
    | with_reducible apply execLoopReadItem_does
    | with_reducible apply execLoopRunWrite_does
    | with_reducible apply execLoopSetMode_does
    | with_reducible apply execLoopSetPar_does
    | with_reducible apply execLoopSetSp_does
    | with_reducible apply execRfxDisable_does
    | with_reducible apply execRfxRead_does
    | with_reducible apply execRfxResetLatch_does
    | with_reducible apply execRfxWrite_does
    | with_reducible apply execTraceArm_does
    | with_reducible apply execTraceClear_does
    | with_reducible apply execTraceStop_does
    | with_reducible apply execTraceTrigger_does
    | with_reducible apply execTriadUnretire_does
    | with_reducible apply hostCmd_does
    | with_reducible apply spent_does
    | with_reducible apply writeReg_does
    | ((with_reducible refine partsIn_trans ?_ hA); exact rfl)
    | ((with_reducible refine listed_code ?_ hA); exact rfl)
    | ((with_reducible refine listed_blocks ?_ hA); exact rfl)
    | with_reducible apply ite_does
    | with_reducible apply iteO_does
    | intro _
    | dsimp only
    | split

theorem cmdLink_does {A : List Part} {b₀ : State} (a : Nat) (v : Word) (s : State) 
    (hD : Does A b₀ s) (hA : partsIn [.block 0x09, .block 0x0B, .block 0x0C, .block 0x0F, .free, .strand, .pair, .net, .can, .fwu, .sup, .out] A = true) : DoesM A b₀ (cmdLink a v s) := by
  unfold cmdLink
  try dsimp only
  repeat' first
    | with_reducible exact none_does
    | with_reducible refine some_does ?_
    | with_reducible refine iteM_does (fun _ => ?_) (fun _ => ?_)
    | split
  repeat' first
    | with_reducible exact hD
    | with_reducible assumption
    | with_reducible refine after_does _ _ ?_ ?_
    | with_reducible refine byOp_does _ _ _ ?_ ?_
    | exact allDo_nil
    | with_reducible refine allDo_cons (fun _ h => ?_) ?_
    | with_reducible apply execCanBufferWrite_does
    | with_reducible apply execCanCancel_does
    | with_reducible apply execCanChannelEnable_does
    | with_reducible apply execCanClearClash_does
    | with_reducible apply execCanRecover_does
    | with_reducible apply execCanRecoverCh_does
    | with_reducible apply execCanRelease_does
    | with_reducible apply execCanRequest_does
    | with_reducible apply execGseDisable_does
    | with_reducible apply execGseRead_does
    | with_reducible apply execGseWrite_does
    | with_reducible apply execLnchDisable_does
    | with_reducible apply execLnchRead_does
    | with_reducible apply execLnchWrite_does
    | with_reducible apply execNetCtrlWrite_does
    | with_reducible apply execPairCancel_does
    | with_reducible apply execPairRejoin_does
    | with_reducible apply execPairResync_does
    | with_reducible apply execPairSwitchoverCmd_does
    | with_reducible apply execPtpAcceptStep_does
    | with_reducible apply execPtpCancelStep_does
    | with_reducible apply execRingRunWrite_does
    | with_reducible apply spent_does
    | ((with_reducible refine partsIn_trans ?_ hA); exact rfl)
    | ((with_reducible refine listed_code ?_ hA); exact rfl)
    | ((with_reducible refine listed_blocks ?_ hA); exact rfl)
    | with_reducible apply ite_does
    | with_reducible apply iteO_does
    | intro _
    | dsimp only
    | split

theorem cmdSystem_does {A : List Part} {b₀ : State} (a : Nat) (v : Word) (s : State) 
    (hD : Does A b₀ s) (hA : partsIn [.blocks, .master, .host, .time, .free, .mem, .strand, .backup, .tides, .tideTable, .seqs, .exe, .loop, .dio, .rfx, .ana, .saf, .triad, .pair, .net, .can, .lcy, .fwu, .sup, .mpu, .mbx, .queSeq, .out] A = true) : DoesM A b₀ (cmdSystem a v s) := by
  unfold cmdSystem
  try dsimp only
  repeat' first
    | with_reducible exact none_does
    | with_reducible refine some_does ?_
    | with_reducible refine iteM_does (fun _ => ?_) (fun _ => ?_)
    | split
  repeat' first
    | with_reducible exact hD
    | with_reducible assumption
    | with_reducible refine after_does _ _ ?_ ?_
    | with_reducible refine byOp_does _ _ _ ?_ ?_
    | exact allDo_nil
    | with_reducible refine allDo_cons (fun _ h => ?_) ?_
    | with_reducible apply execClkBregWrite_does
    | with_reducible apply execClkOsfClear_does
    | with_reducible apply execClkReadCal_does
    | with_reducible apply execClkRegsValidate_does
    | with_reducible apply execClkSetCal_does
    | with_reducible apply execClkSetTicks_does
    | with_reducible apply execFwuAbort_does
    | with_reducible apply execFwuActivate_does
    | with_reducible apply execFwuProgram_does
    | with_reducible apply execFwuReject_does
    | with_reducible apply execFwuVerify_does
    | with_reducible apply execLcyDbgClose_does
    | with_reducible apply execLcyDbgTokenWrite_does
    | with_reducible apply execLcyNewNonce_does
    | with_reducible apply execLcyRevokeKey_does
    | with_reducible apply execLcyTransition_does
    | with_reducible apply execMbxBindLock_does
    | with_reducible apply execMbxLockForce_does
    | with_reducible apply execPowerCmdHold_does
    | with_reducible apply execPowerCmdOff_does
    | with_reducible apply execPowerCmdQuiet_does
    | with_reducible apply execPowerCmdReady_does
    | with_reducible apply execPowerCmdRun_does
    | with_reducible apply execQueEnable_does
    | with_reducible apply execQueHeadWrite_does
    | with_reducible apply execQueTailWrite_does
    | with_reducible apply execStrFreeze_does
    | with_reducible apply execStrLog_does
    | with_reducible apply execStrRead_does
    | with_reducible apply execStrRlCfgWrite_does
    | with_reducible apply execStrThaw_does
    | with_reducible apply execSupRecover_does
    | with_reducible apply execSupReset_does
    | with_reducible apply hostCmd_does
    | with_reducible apply spent_does
    | with_reducible apply writeReg_does
    | ((with_reducible refine partsIn_trans ?_ hA); exact rfl)
    | ((with_reducible refine listed_code ?_ hA); exact rfl)
    | ((with_reducible refine listed_blocks ?_ hA); exact rfl)
    | with_reducible apply ite_does
    | with_reducible apply iteO_does
    | intro _
    | dsimp only
    | split

theorem cmdMailbox_does {A : List Part} {b₀ : State} (a : Nat) (v : Word) (s : State) 
    (hD : Does A b₀ s) (hA : partsIn [.block 0x0F, .block 0x10, .free, .strand, .mbx, .out] A = true) : DoesM A b₀ (cmdMailbox a v s) := by
  unfold cmdMailbox
  try dsimp only
  repeat' first
    | with_reducible exact none_does
    | with_reducible refine some_does ?_
    | with_reducible refine iteM_does (fun _ => ?_) (fun _ => ?_)
    | split
  repeat' first
    | with_reducible exact hD
    | with_reducible assumption
    | with_reducible refine after_does _ _ ?_ ?_
    | with_reducible refine byOp_does _ _ _ ?_ ?_
    | exact allDo_nil
    | with_reducible refine allDo_cons (fun _ h => ?_) ?_
    | with_reducible apply execMbxBindWrite_does
    | with_reducible apply execMbxLockWrite_does
    | with_reducible apply hostCmd_does
    | with_reducible apply say_does
    | ((with_reducible refine partsIn_trans ?_ hA); exact rfl)
    | ((with_reducible refine listed_code ?_ hA); exact rfl)
    | ((with_reducible refine listed_blocks ?_ hA); exact rfl)
    | with_reducible apply ite_does
    | with_reducible apply iteO_does
    | intro _
    | dsimp only
    | split

theorem regWrite9_does {A : List Part} {b₀ : State} (a : Nat) (v : Word) (s : State) 
    (hD : Does A b₀ s) (hA : partsIn [.blocks, .master, .host, .time, .free, .mem, .strand, .backup, .tides, .tideTable, .seqs, .exe, .loop, .dio, .rfx, .ana, .saf, .triad, .pair, .net, .can, .lcy, .fwu, .sup, .mpu, .mbx, .queSeq, .out] A = true) : Does A b₀ (regWrite9 a v s) := by
  unfold regWrite9
  repeat' first
    | with_reducible assumption
    | with_reducible apply cmdField_does
    | with_reducible apply cmdLink_does
    | with_reducible apply cmdMailbox_does
    | with_reducible apply cmdSystem_does
    | with_reducible apply cmdTide_does
    | with_reducible apply hostCmd_does
    | with_reducible apply writeReg_does
    | ((with_reducible refine listed_blocks ?_ hA); exact rfl)
    | ((with_reducible refine partsIn_trans ?_ hA); exact rfl)
    | ((with_reducible refine listed_code ?_ hA); exact rfl)
    | exact fun (h : Sparse.wf _ _ = true) => h
    | with_reducible apply next_does
    | with_reducible apply id_does
    | with_reducible apply ite_does
    | with_reducible apply iteO_does
    | (apply Sparse.wf_set; assumption)
    | exact rfl
    | with_reducible apply some_does
    | with_reducible apply none_does
    | with_reducible apply iteM_does
    | with_reducible apply or_does
    | (with_reducible refine onlyM_does ?_ ‹_ = some _›)
    | intro _
    | dsimp only
    | split

theorem regRead9_does {A : List Part} {b₀ : State} (a : Nat) (s : State) 
    (hD : Does A b₀ s) (hA : partsIn [.blocks, .host, .free, .strand, .mbx, .out] A = true) : Does A b₀ (regRead9 a s).2 := by
  unfold regRead9
  repeat' first
    | with_reducible assumption
    | with_reducible apply lockTry_does
    | with_reducible apply readReg_does
    | with_reducible apply say_does
    | ((with_reducible refine listed_block 16 ?_ ?_ hA); first | omega | (dsimp only [Reg.MBX_LOCK, Reg.MBXm_BIND]; omega) | (dsimp only [Reg.MBX_LOCK, Reg.MBXm_BIND]; split <;> omega); exact rfl)
    | ((with_reducible refine listed_blocks ?_ hA); exact rfl)
    | ((with_reducible refine partsIn_trans ?_ hA); exact rfl)
    | ((with_reducible refine listed_code ?_ hA); exact rfl)
    | exact fun (h : Sparse.wf _ _ = true) => h
    | with_reducible apply next_does
    | with_reducible apply id_does
    | with_reducible apply ite_does
    | with_reducible apply iteO_does
    | (apply Sparse.wf_set; assumption)
    | exact rfl
    | intro _
    | dsimp only
    | split

end Sys2Proof.Machine
end

