-- ==== Sys2Proof/Laws/OnlyDebug.lean ====
section
/-! SUPPORT. What each operation of Machine/Debug.lean can do: the parts of the state it may change, and that it keeps
canonical form. -/
namespace Sys2Proof.Machine

theorem regsRead9_does {A : List Part} {b₀ : State} (l : List (Nat × Nat)) (s : State) 
    (hD : Does A b₀ s) (hA : partsIn [.blocks, .host, .free, .strand, .mbx, .out] A = true) : Does A b₀ (regsRead9 l s).2 := by
  induction l generalizing s with
  | nil => exact hD
  | cons e l ih =>
    unfold regsRead9
    repeat' first
      | with_reducible assumption
      | with_reducible apply ih
      | with_reducible apply regRead9_does
      | ((with_reducible refine listed_blocks ?_ hA); exact rfl)
      | ((with_reducible refine partsIn_trans ?_ hA); exact rfl)
      | ((with_reducible refine listed_code ?_ hA); exact rfl)
      | exact fun (h : Sparse.wf _ _ = true) => h
      | with_reducible apply next_does
      | with_reducible apply id_does
      | with_reducible apply ite_does
      | with_reducible apply iteO_does
      | (apply Sparse.wf_set; assumption)
      | exact rfl
      | intro _
      | dsimp only
      | split

theorem regsWrite9_does {A : List Part} {b₀ : State} (l : List (Nat × Nat)) (data : List Byte) (s : State) 
    (hD : Does A b₀ s) (hA : partsIn [.blocks, .master, .host, .time, .free, .mem, .strand, .backup, .tides, .tideTable, .seqs, .exe, .loop, .dio, .rfx, .ana, .saf, .triad, .pair, .net, .can, .lcy, .fwu, .sup, .mpu, .mbx, .queSeq, .out] A = true) : Does A b₀ (regsWrite9 l data s) := by
  induction l generalizing data s with
  | nil => exact hD
  | cons e l ih =>
    unfold regsWrite9
    repeat' first
      | with_reducible assumption
      | with_reducible apply ih
      | with_reducible apply regWrite9_does
      | ((with_reducible refine listed_blocks ?_ hA); exact rfl)
      | ((with_reducible refine partsIn_trans ?_ hA); exact rfl)
      | ((with_reducible refine listed_code ?_ hA); exact rfl)
      | exact fun (h : Sparse.wf _ _ = true) => h
      | with_reducible apply next_does
      | with_reducible apply id_does
      | with_reducible apply ite_does
      | with_reducible apply iteO_does
      | (apply Sparse.wf_set; assumption)
      | exact rfl
      | intro _
      | dsimp only
      | split

theorem debugRead_does {A : List Part} {b₀ : State} (parts : List (Nat × Nat)) (s : State) 
    (hD : Does A b₀ s) (hA : partsIn [.blocks, .host, .free, .strand, .mbx, .out] A = true) : Does A b₀ (debugRead parts s).2 := by
  induction parts generalizing s with
  | nil => exact hD
  | cons e l ih =>
    unfold debugRead
    repeat' first
      | with_reducible assumption
      | with_reducible apply ih
      | with_reducible apply partRead_does
      | with_reducible apply regsRead9_does
      | ((with_reducible refine listed_blocks ?_ hA); exact rfl)
      | ((with_reducible refine partsIn_trans ?_ hA); exact rfl)
      | ((with_reducible refine listed_code ?_ hA); exact rfl)
      | exact fun (h : Sparse.wf _ _ = true) => h
      | with_reducible apply next_does
      | with_reducible apply id_does
      | with_reducible apply ite_does
      | with_reducible apply iteO_does
      | (apply Sparse.wf_set; assumption)
      | exact rfl
      | intro _
      | dsimp only
      | split

theorem debugWrite_does {A : List Part} {b₀ : State} (parts : List (Nat × Nat)) (l : List Byte) (s : State) 
    (hD : Does A b₀ s) (hA : partsIn [.blocks, .master, .host, .time, .free, .mem, .strand, .backup, .tides, .tideTable, .seqs, .exe, .loop, .dio, .rfx, .ana, .saf, .triad, .pair, .net, .can, .lcy, .fwu, .sup, .mpu, .mbx, .queSeq, .out] A = true) : Does A b₀ (debugWrite parts l s).2 := by
  induction parts generalizing l s with
  | nil => exact hD
  | cons e l ih =>
    unfold debugWrite
    repeat' first
      | with_reducible assumption
      | with_reducible apply ih
      | with_reducible apply partWrite_does
      | with_reducible apply regsWrite9_does
      | ((with_reducible refine listed_blocks ?_ hA); exact rfl)
      | ((with_reducible refine partsIn_trans ?_ hA); exact rfl)
      | ((with_reducible refine listed_code ?_ hA); exact rfl)
      | exact fun (h : Sparse.wf _ _ = true) => h
      | with_reducible apply next_does
      | with_reducible apply id_does
      | with_reducible apply ite_does
      | with_reducible apply iteO_does
      | (apply Sparse.wf_set; assumption)
      | exact rfl
      | intro _
      | dsimp only
      | split

theorem debugRecord_does {A : List Part} {b₀ : State} (k : Acc) (l : List DebugDenied) (s : State) 
    (hD : Does A b₀ s) (hA : partsIn [.block 0x0F, .block 0x11, .free, .strand, .out] A = true) : Does A b₀ (debugRecord k l s) := by
  unfold debugRecord
  repeat' first
    | with_reducible assumption
    | with_reducible apply denyFirst_does
    | with_reducible apply onlyIf_does
    | with_reducible apply say_does
    | with_reducible apply setFlag_does
    | with_reducible apply wr64_does
    | ((with_reducible refine partsIn_trans ?_ hA); exact rfl)
    | ((with_reducible refine listed_code ?_ hA); exact rfl)
    | exact fun (h : Sparse.wf _ _ = true) => h
    | with_reducible apply next_does
    | with_reducible apply id_does
    | with_reducible apply ite_does
    | with_reducible apply iteO_does
    | (apply Sparse.wf_set; assumption)
    | exact rfl
    | (dsimp only [Fld.LCY_DBG_STATUS_CAUSE, Fld.LCY_DBG_STATUS_DBG_DENY, Reg.LCY_DBG_DENY_LO]; omega)
    | intro _
    | dsimp only
    | split

theorem debugMem_does {A : List Part} {b₀ : State} (write : Bool) (a : Nat) (n : Nat) (data : List Byte) (s : State) 
    (hD : Does A b₀ s) (hA : partsIn [.blocks, .master, .host, .time, .free, .mem, .strand, .backup, .tides, .tideTable, .seqs, .exe, .loop, .dio, .rfx, .ana, .saf, .triad, .pair, .net, .can, .lcy, .fwu, .sup, .mpu, .mbx, .queSeq, .out] A = true) : Does A b₀ (debugMem write a n data s) := by
  unfold debugMem
  repeat' first
    | with_reducible assumption
    | with_reducible apply debugRead_does
    | with_reducible apply debugRecord_does
    | with_reducible apply debugWrite_does
    | ((with_reducible refine listed_blocks ?_ hA); exact rfl)
    | ((with_reducible refine partsIn_trans ?_ hA); exact rfl)
    | ((with_reducible refine listed_code ?_ hA); exact rfl)
    | exact fun (h : Sparse.wf _ _ = true) => h
    | with_reducible apply next_does
    | with_reducible apply id_does
    | with_reducible apply ite_does
    | with_reducible apply iteO_does
    | (apply Sparse.wf_set; assumption)
    | exact rfl
    | intro _
    | dsimp only
    | split
    | with_reducible apply upd_accMaster
    | with_reducible apply upd_freeCtr_dbgData

theorem execDebugAccess_does {A : List Part} {b₀ : State} (write : Bool) (addr : BitVec 36) (len : Fin 257) (data : List Byte) (s : State) 
    (hD : Does A b₀ s) (hA : partsIn [.blocks, .master, .host, .time, .free, .mem, .strand, .backup, .tides, .tideTable, .seqs, .exe, .loop, .dio, .rfx, .ana, .saf, .triad, .pair, .net, .can, .lcy, .fwu, .sup, .mpu, .mbx, .queSeq, .out] A = true) : DoesO A b₀ (execDebugAccess write addr len data s) := by
  unfold execDebugAccess
  repeat' first
    | with_reducible assumption
    | with_reducible apply debugMem_does
    | ((with_reducible refine listed_blocks ?_ hA); exact rfl)
    | ((with_reducible refine partsIn_trans ?_ hA); exact rfl)
    | ((with_reducible refine listed_code ?_ hA); exact rfl)
    | exact fun (h : Sparse.wf _ _ = true) => h
    | with_reducible apply next_does
    | with_reducible apply id_does
    | with_reducible apply ite_does
    | with_reducible apply iteO_does
    | (apply Sparse.wf_set; assumption)
    | exact rfl
    | intro _
    | dsimp only
    | split

end Sys2Proof.Machine
end

