-- ==== Sys2Proof/Laws/OnlySaf.lean ====
section
/-! SUPPORT. What each operation of Machine/Saf.lean can do: the parts of the state it may change, and that it keeps
canonical form. -/
namespace Sys2Proof.Machine

theorem takeRequest_does {A : List Part} {b₀ : State}  (s : State) 
    (hD : Does A b₀ s) (hA : partsIn [.block 0x08, .saf] A = true) : Does A b₀ (takeRequest s) := by
  unfold takeRequest
  repeat' first
    | with_reducible assumption
    | with_reducible apply wr64_does
    | ((with_reducible refine partsIn_trans ?_ hA); exact rfl)
    | ((with_reducible refine listed_code ?_ hA); exact rfl)
    | exact fun (h : Sparse.wf _ _ = true) => h
    | with_reducible apply next_does
    | with_reducible apply id_does
    | with_reducible apply ite_does
    | with_reducible apply iteO_does
    | (apply Sparse.wf_set; assumption)
    | exact rfl
    | intro _
    | (dsimp only [Reg.SAF_SX_REQ_LO]; omega)
    | dsimp only
    | split
    | with_reducible apply upd_saf

theorem execSafetyCycle_does {A : List Part} {b₀ : State}  (s : State) 
    (hD : Does A b₀ s) (hA : partsIn [.block 0x08, .free, .strand, .saf, .pair, .out] A = true) : DoesO A b₀ (execSafetyCycle s) := by
  unfold execSafetyCycle
  repeat' first
    | with_reducible assumption
    | with_reducible apply forAll_does
    | with_reducible apply onlyIf_does
    | with_reducible apply producerCycle_does
    | with_reducible apply safMirror_does
    | with_reducible apply sqEvalAll_does
    | with_reducible apply takeRequest_does
    | with_reducible apply wr_does
    | with_reducible apply wr64_does
    | ((with_reducible refine listed_block 8 ?_ ?_ hA); first | omega | (dsimp only [Fld.SAF_STATE_STATE, Reg.SAF_CYCLES, Reg.SAF_SX_RSP_LO, safState]; omega) | (dsimp only [Fld.SAF_STATE_STATE, Reg.SAF_CYCLES, Reg.SAF_SX_RSP_LO, safState]; split <;> omega); exact rfl)
    | ((with_reducible refine partsIn_trans ?_ hA); exact rfl)
    | ((with_reducible refine listed_code ?_ hA); exact rfl)
    | exact fun (h : Sparse.wf _ _ = true) => h
    | with_reducible apply next_does
    | with_reducible apply id_does
    | with_reducible apply ite_does
    | with_reducible apply iteO_does
    | (apply Sparse.wf_set; assumption)
    | exact rfl
    | (dsimp only [Fld.SAF_STATE_STATE, Reg.SAF_CYCLES, Reg.SAF_SX_RSP_LO]; omega)
    | intro _
    | dsimp only
    | split

theorem execSafSxTimeout_does {A : List Part} {b₀ : State} (tie : Bool) (s : State) 
    (hD : Does A b₀ s) (hA : partsIn [.block 0x08, .free, .strand, .saf, .out] A = true) : DoesO A b₀ (execSafSxTimeout tie s) := by
  unfold execSafSxTimeout
  repeat' first
    | with_reducible assumption
    | with_reducible apply safEv_does
    | with_reducible apply safSay_does
    | with_reducible apply safTie_does
    | ((with_reducible refine partsIn_trans ?_ hA); exact rfl)
    | ((with_reducible refine listed_code ?_ hA); exact rfl)
    | exact fun (h : Sparse.wf _ _ = true) => h
    | with_reducible apply next_does
    | with_reducible apply id_does
    | with_reducible apply ite_does
    | with_reducible apply iteO_does
    | (apply Sparse.wf_set; assumption)
    | exact rfl
    | intro _
    | dsimp only
    | split
    | with_reducible apply upd_saf

theorem execSafetyHeartbeatToggle_does {A : List Part} {b₀ : State}  (s : State) 
    (hD : Does A b₀ s) (hA : partsIn [.saf] A = true) : DoesO A b₀ (execSafetyHeartbeatToggle s) := by
  unfold execSafetyHeartbeatToggle
  repeat' first
    | with_reducible assumption
    | ((with_reducible refine partsIn_trans ?_ hA); exact rfl)
    | ((with_reducible refine listed_code ?_ hA); exact rfl)
    | exact fun (h : Sparse.wf _ _ = true) => h
    | with_reducible apply next_does
    | with_reducible apply id_does
    | with_reducible apply ite_does
    | with_reducible apply iteO_does
    | (apply Sparse.wf_set; assumption)
    | exact rfl
    | intro _
    | dsimp only
    | split
    | with_reducible apply upd_saf

theorem execSafBwHb_does {A : List Part} {b₀ : State}  (s : State) 
    (hD : Does A b₀ s) (hA : partsIn [.block 0x01, .block 0x02, .block 0x03, .block 0x05, .block 0x08, .block 0x09, .block 0x0A, .block 0x0C, .free, .strand, .backup, .tides, .seqs, .exe, .loop, .dio, .saf, .pair, .can, .sup, .mbx, .out] A = true) : DoesO A b₀ (execSafBwHb s) := by
  unfold execSafBwHb
  repeat' first
    | with_reducible assumption
    | with_reducible apply safFault_does
    | ((with_reducible refine listed_block 1 ?_ ?_ hA); first | omega | (dsimp only [Fld.SUP_PWR_STATE_STATE, power]; omega) | (dsimp only [Fld.SUP_PWR_STATE_STATE, power]; split <;> omega); exact rfl)
    | ((with_reducible refine listed_block 2 ?_ ?_ hA); first | omega | (dsimp only [Fld.SUP_PWR_STATE_STATE, power]; omega) | (dsimp only [Fld.SUP_PWR_STATE_STATE, power]; split <;> omega); exact rfl)
    | ((with_reducible refine listed_block 3 ?_ ?_ hA); first | omega | (dsimp only [Fld.SUP_PWR_STATE_STATE, power]; omega) | (dsimp only [Fld.SUP_PWR_STATE_STATE, power]; split <;> omega); exact rfl)
    | ((with_reducible refine listed_block 5 ?_ ?_ hA); first | omega | (dsimp only [Fld.SUP_PWR_STATE_STATE, power]; omega) | (dsimp only [Fld.SUP_PWR_STATE_STATE, power]; split <;> omega); exact rfl)
    | ((with_reducible refine listed_block 8 ?_ ?_ hA); first | omega | (dsimp only [Fld.SUP_PWR_STATE_STATE, power]; omega) | (dsimp only [Fld.SUP_PWR_STATE_STATE, power]; split <;> omega); exact rfl)
    | ((with_reducible refine listed_block 9 ?_ ?_ hA); first | omega | (dsimp only [Fld.SUP_PWR_STATE_STATE, power]; omega) | (dsimp only [Fld.SUP_PWR_STATE_STATE, power]; split <;> omega); exact rfl)
    | ((with_reducible refine listed_block 10 ?_ ?_ hA); first | omega | (dsimp only [Fld.SUP_PWR_STATE_STATE, power]; omega) | (dsimp only [Fld.SUP_PWR_STATE_STATE, power]; split <;> omega); exact rfl)
    | ((with_reducible refine listed_block 12 ?_ ?_ hA); first | omega | (dsimp only [Fld.SUP_PWR_STATE_STATE, power]; omega) | (dsimp only [Fld.SUP_PWR_STATE_STATE, power]; split <;> omega); exact rfl)
    | ((with_reducible refine partsIn_trans ?_ hA); exact rfl)
    | ((with_reducible refine listed_code ?_ hA); exact rfl)
    | exact fun (h : Sparse.wf _ _ = true) => h
    | with_reducible apply next_does
    | with_reducible apply id_does
    | with_reducible apply ite_does
    | with_reducible apply iteO_does
    | (apply Sparse.wf_set; assumption)
    | exact rfl
    | intro _
    | dsimp only
    | split
    | with_reducible apply upd_saf

theorem siRecover_does {A : List Part} {b₀ : State} (p : Nat) (s : State) 
    (hD : Does A b₀ s) (hA : partsIn [.block 0x08, .free, .strand, .saf, .out] A = true) : Does A b₀ (siRecover p s) := by
  unfold siRecover
  repeat' first
    | with_reducible assumption
    | with_reducible apply onSi_does
    | with_reducible apply safSay_does
    | ((with_reducible refine partsIn_trans ?_ hA); exact rfl)
    | ((with_reducible refine listed_code ?_ hA); exact rfl)
    | exact fun (h : Sparse.wf _ _ = true) => h
    | with_reducible apply next_does
    | with_reducible apply id_does
    | with_reducible apply ite_does
    | with_reducible apply iteO_does
    | (apply Sparse.wf_set; assumption)
    | exact rfl
    | intro _
    | dsimp only
    | split

theorem execSiFilterExpiry_does {A : List Part} {b₀ : State} (p : Fin 8) (b : Bool) (level : Bool) (s : State) 
    (hD : Does A b₀ s) (hA : partsIn [.block 0x08, .free, .strand, .saf, .out] A = true) : DoesO A b₀ (execSiFilterExpiry p b level s) := by
  unfold execSiFilterExpiry
  repeat' first
    | with_reducible assumption
    | with_reducible apply onSi_does
    | with_reducible apply siRecover_does
    | ((with_reducible refine partsIn_trans ?_ hA); exact rfl)
    | ((with_reducible refine listed_code ?_ hA); exact rfl)
    | exact fun (h : Sparse.wf _ _ = true) => h
    | with_reducible apply next_does
    | with_reducible apply id_does
    | with_reducible apply ite_does
    | with_reducible apply iteO_does
    | (apply Sparse.wf_set; assumption)
    | exact rfl
    | intro _
    | dsimp only
    | split

theorem siFault_does {A : List Part} {b₀ : State} (p : Nat) (kind : Fin 4) (st : Status) (f : SiPair → SiPair) (s : State) 
    (hD : Does A b₀ s) (hA : partsIn [.block 0x08, .free, .strand, .saf, .out] A = true) : Does A b₀ (siFault p kind st f s) := by
  unfold siFault
  repeat' first
    | with_reducible assumption
    | with_reducible apply onSi_does
    | with_reducible apply safEv_does
    | with_reducible apply safSay_does
    | ((with_reducible refine partsIn_trans ?_ hA); exact rfl)
    | ((with_reducible refine listed_code ?_ hA); exact rfl)
    | exact fun (h : Sparse.wf _ _ = true) => h
    | with_reducible apply next_does
    | with_reducible apply id_does
    | with_reducible apply ite_does
    | with_reducible apply iteO_does
    | (apply Sparse.wf_set; assumption)
    | exact rfl
    | intro _
    | dsimp only
    | split

theorem execSafSiDiscrepancy_does {A : List Part} {b₀ : State} (p : Fin 8) (tie : Bool) (s : State) 
    (hD : Does A b₀ s) (hA : partsIn [.block 0x08, .free, .strand, .saf, .out] A = true) : DoesO A b₀ (execSafSiDiscrepancy p tie s) := by
  unfold execSafSiDiscrepancy
  repeat' first
    | with_reducible assumption
    | with_reducible apply safTie_does
    | with_reducible apply siFault_does
    | ((with_reducible refine listed_block 8 ?_ ?_ hA); first | omega | (dsimp only [Fld.SIp_CFG_MODE]; omega) | (dsimp only [Fld.SIp_CFG_MODE]; split <;> omega); exact rfl)
    | ((with_reducible refine partsIn_trans ?_ hA); exact rfl)
    | ((with_reducible refine listed_code ?_ hA); exact rfl)
    | exact fun (h : Sparse.wf _ _ = true) => h
    | with_reducible apply next_does
    | with_reducible apply id_does
    | with_reducible apply ite_does
    | with_reducible apply iteO_does
    | (apply Sparse.wf_set; assumption)
    | exact rfl
    | intro _
    | dsimp only
    | split

theorem execTpPulseStart_does {A : List Part} {b₀ : State} (k : Fin 4) (s : State) 
    (hD : Does A b₀ s) (hA : partsIn [.block 0x08, .saf] A = true) : DoesO A b₀ (execTpPulseStart k s) := by
  unfold execTpPulseStart
  repeat' first
    | with_reducible assumption
    | with_reducible apply setBitAt_does
    | ((with_reducible refine partsIn_trans ?_ hA); exact rfl)
    | ((with_reducible refine listed_code ?_ hA); exact rfl)
    | exact fun (h : Sparse.wf _ _ = true) => h
    | with_reducible apply next_does
    | with_reducible apply id_does
    | with_reducible apply ite_does
    | with_reducible apply iteO_does
    | (apply Sparse.wf_set; assumption)
    | exact rfl
    | intro _
    | dsimp only
    | split
    | with_reducible apply upd_saf

theorem pairWindow_does {A : List Part} {b₀ : State} (p : Nat) (k : Nat) (lowA : Bool) (lowB : Bool) (s : State) 
    (hD : Does A b₀ s) (hA : partsIn [.block 0x08, .free, .strand, .saf, .out] A = true) : Does A b₀ (pairWindow p k lowA lowB s) := by
  unfold pairWindow
  repeat' first
    | with_reducible assumption
    | with_reducible apply onSi_does
    | with_reducible apply siFault_does
    | with_reducible apply siRecover_does
    | ((with_reducible refine listed_block 8 ?_ ?_ hA); first | omega | (dsimp only [Fld.SIp_CFG_MODE, Fld.SIp_CFG_SRC_A, Fld.SIp_CFG_SRC_B]; omega) | (dsimp only [Fld.SIp_CFG_MODE, Fld.SIp_CFG_SRC_A, Fld.SIp_CFG_SRC_B]; split <;> omega); exact rfl)
    | ((with_reducible refine partsIn_trans ?_ hA); exact rfl)
    | ((with_reducible refine listed_code ?_ hA); exact rfl)
    | exact fun (h : Sparse.wf _ _ = true) => h
    | with_reducible apply next_does
    | with_reducible apply id_does
    | with_reducible apply ite_does
    | with_reducible apply iteO_does
    | (apply Sparse.wf_set; assumption)
    | exact rfl
    | intro _
    | dsimp only
    | split

theorem execTpPulseEnd_does {A : List Part} {b₀ : State} (k : Fin 4) (low : BitVec 16) (s : State) 
    (hD : Does A b₀ s) (hA : partsIn [.block 0x08, .free, .strand, .saf, .out] A = true) : DoesO A b₀ (execTpPulseEnd k low s) := by
  unfold execTpPulseEnd
  repeat' first
    | with_reducible assumption
    | with_reducible apply forAll_does
    | with_reducible apply pairWindow_does
    | with_reducible apply setBitAt_does
    | ((with_reducible refine partsIn_trans ?_ hA); exact rfl)
    | ((with_reducible refine listed_code ?_ hA); exact rfl)
    | exact fun (h : Sparse.wf _ _ = true) => h
    | with_reducible apply next_does
    | with_reducible apply id_does
    | with_reducible apply ite_does
    | with_reducible apply iteO_does
    | (apply Sparse.wf_set; assumption)
    | exact rfl
    | intro _
    | dsimp only
    | split
    | with_reducible apply upd_saf

theorem execSafTpSource_does {A : List Part} {b₀ : State} (k : Fin 4) (s : State) 
    (hD : Does A b₀ s) (hA : partsIn [.block 0x01, .block 0x02, .block 0x03, .block 0x05, .block 0x08, .block 0x09, .block 0x0A, .block 0x0C, .free, .strand, .backup, .tides, .seqs, .exe, .loop, .dio, .saf, .pair, .can, .sup, .mbx, .out] A = true) : DoesO A b₀ (execSafTpSource k s) := by
  unfold execSafTpSource
  repeat' first
    | with_reducible assumption
    | with_reducible apply safFault_does
    | ((with_reducible refine listed_block 1 ?_ ?_ hA); first | omega | (dsimp only [Fld.SAF_STATE_STATE, Fld.SAF_TP_STATUS_RUN, safState]; omega) | (dsimp only [Fld.SAF_STATE_STATE, Fld.SAF_TP_STATUS_RUN, safState]; split <;> omega); exact rfl)
    | ((with_reducible refine listed_block 2 ?_ ?_ hA); first | omega | (dsimp only [Fld.SAF_STATE_STATE, Fld.SAF_TP_STATUS_RUN, safState]; omega) | (dsimp only [Fld.SAF_STATE_STATE, Fld.SAF_TP_STATUS_RUN, safState]; split <;> omega); exact rfl)
    | ((with_reducible refine listed_block 3 ?_ ?_ hA); first | omega | (dsimp only [Fld.SAF_STATE_STATE, Fld.SAF_TP_STATUS_RUN, safState]; omega) | (dsimp only [Fld.SAF_STATE_STATE, Fld.SAF_TP_STATUS_RUN, safState]; split <;> omega); exact rfl)
    | ((with_reducible refine listed_block 5 ?_ ?_ hA); first | omega | (dsimp only [Fld.SAF_STATE_STATE, Fld.SAF_TP_STATUS_RUN, safState]; omega) | (dsimp only [Fld.SAF_STATE_STATE, Fld.SAF_TP_STATUS_RUN, safState]; split <;> omega); exact rfl)
    | ((with_reducible refine listed_block 8 ?_ ?_ hA); first | omega | (dsimp only [Fld.SAF_STATE_STATE, Fld.SAF_TP_STATUS_RUN, safState]; omega) | (dsimp only [Fld.SAF_STATE_STATE, Fld.SAF_TP_STATUS_RUN, safState]; split <;> omega); exact rfl)
    | ((with_reducible refine listed_block 9 ?_ ?_ hA); first | omega | (dsimp only [Fld.SAF_STATE_STATE, Fld.SAF_TP_STATUS_RUN, safState]; omega) | (dsimp only [Fld.SAF_STATE_STATE, Fld.SAF_TP_STATUS_RUN, safState]; split <;> omega); exact rfl)
    | ((with_reducible refine listed_block 10 ?_ ?_ hA); first | omega | (dsimp only [Fld.SAF_STATE_STATE, Fld.SAF_TP_STATUS_RUN, safState]; omega) | (dsimp only [Fld.SAF_STATE_STATE, Fld.SAF_TP_STATUS_RUN, safState]; split <;> omega); exact rfl)
    | ((with_reducible refine listed_block 12 ?_ ?_ hA); first | omega | (dsimp only [Fld.SAF_STATE_STATE, Fld.SAF_TP_STATUS_RUN, safState]; omega) | (dsimp only [Fld.SAF_STATE_STATE, Fld.SAF_TP_STATUS_RUN, safState]; split <;> omega); exact rfl)
    | ((with_reducible refine partsIn_trans ?_ hA); exact rfl)
    | ((with_reducible refine listed_code ?_ hA); exact rfl)
    | exact fun (h : Sparse.wf _ _ = true) => h
    | with_reducible apply next_does
    | with_reducible apply id_does
    | with_reducible apply ite_does
    | with_reducible apply iteO_does
    | (apply Sparse.wf_set; assumption)
    | exact rfl
    | intro _
    | dsimp only
    | split

theorem execSqTestStart_does {A : List Part} {b₀ : State} (n : Fin 8) (hs : Bool) (s : State) 
    (hD : Does A b₀ s) (hA : partsIn [.saf] A = true) : DoesO A b₀ (execSqTestStart n hs s) := by
  unfold execSqTestStart
  repeat' first
    | with_reducible assumption
    | with_reducible apply onSq_does
    | ((with_reducible refine partsIn_trans ?_ hA); exact rfl)
    | ((with_reducible refine listed_code ?_ hA); exact rfl)
    | exact fun (h : Sparse.wf _ _ = true) => h
    | with_reducible apply next_does
    | with_reducible apply id_does
    | with_reducible apply ite_does
    | with_reducible apply iteO_does
    | (apply Sparse.wf_set; assumption)
    | exact rfl
    | intro _
    | dsimp only
    | split

theorem execSqTestConfirm_does {A : List Part} {b₀ : State} (n : Fin 8) (s : State) 
    (hD : Does A b₀ s) (hA : partsIn [.block 0x08, .free, .strand, .saf, .out] A = true) : DoesO A b₀ (execSqTestConfirm n s) := by
  unfold execSqTestConfirm
  repeat' first
    | with_reducible assumption
    | with_reducible apply bump_does
    | with_reducible apply onSq_does
    | with_reducible apply onlyIf_does
    | with_reducible apply safEv_does
    | with_reducible apply safSay_does
    | ((with_reducible refine listed_block 8 ?_ ?_ hA); first | omega | (dsimp only [Fld.SAF_EVENT_TEST, Fld.SQn_COUNTS_DELAYED]; omega) | (dsimp only [Fld.SAF_EVENT_TEST, Fld.SQn_COUNTS_DELAYED]; split <;> omega); exact rfl)
    | ((with_reducible refine partsIn_trans ?_ hA); exact rfl)
    | ((with_reducible refine listed_code ?_ hA); exact rfl)
    | exact fun (h : Sparse.wf _ _ = true) => h
    | with_reducible apply next_does
    | with_reducible apply id_does
    | with_reducible apply ite_does
    | with_reducible apply iteO_does
    | (apply Sparse.wf_set; assumption)
    | exact rfl
    | intro _
    | dsimp only
    | split

theorem execSqTestExpiry_does {A : List Part} {b₀ : State} (n : Fin 8) (tie : Bool) (s : State) 
    (hD : Does A b₀ s) (hA : partsIn [.block 0x08, .free, .strand, .saf, .out] A = true) : DoesO A b₀ (execSqTestExpiry n tie s) := by
  unfold execSqTestExpiry
  repeat' first
    | with_reducible assumption
    | with_reducible apply safTie_does
    | with_reducible apply sqFault_does
    | ((with_reducible refine partsIn_trans ?_ hA); exact rfl)
    | ((with_reducible refine listed_code ?_ hA); exact rfl)
    | exact fun (h : Sparse.wf _ _ = true) => h
    | with_reducible apply next_does
    | with_reducible apply id_does
    | with_reducible apply ite_does
    | with_reducible apply iteO_does
    | (apply Sparse.wf_set; assumption)
    | exact rfl
    | intro _
    | dsimp only
    | split

theorem execSafTestOverdue_does {A : List Part} {b₀ : State} (n : Fin 8) (s : State) 
    (hD : Does A b₀ s) (hA : partsIn [.block 0x08, .free, .strand, .out] A = true) : DoesO A b₀ (execSafTestOverdue n s) := by
  unfold execSafTestOverdue
  repeat' first
    | with_reducible assumption
    | with_reducible apply safEv_does
    | with_reducible apply safSay_does
    | ((with_reducible refine listed_block 8 ?_ ?_ hA); first | omega | (dsimp only [Fld.SAF_EVENT_TEST, Fld.SQn_CFG_USED]; omega) | (dsimp only [Fld.SAF_EVENT_TEST, Fld.SQn_CFG_USED]; split <;> omega); exact rfl)
    | ((with_reducible refine partsIn_trans ?_ hA); exact rfl)
    | ((with_reducible refine listed_code ?_ hA); exact rfl)
    | exact fun (h : Sparse.wf _ _ = true) => h
    | with_reducible apply next_does
    | with_reducible apply id_does
    | with_reducible apply ite_does
    | with_reducible apply iteO_does
    | (apply Sparse.wf_set; assumption)
    | exact rfl
    | intro _
    | dsimp only
    | split

theorem execSafSqOvercurrent_does {A : List Part} {b₀ : State} (n : Fin 8) (s : State) 
    (hD : Does A b₀ s) (hA : partsIn [.block 0x08, .free, .strand, .saf, .out] A = true) : DoesO A b₀ (execSafSqOvercurrent n s) := by
  unfold execSafSqOvercurrent
  repeat' first
    | with_reducible assumption
    | with_reducible apply sqCut_does
    | with_reducible apply sqFault_does
    | ((with_reducible refine partsIn_trans ?_ hA); exact rfl)
    | ((with_reducible refine listed_code ?_ hA); exact rfl)
    | exact fun (h : Sparse.wf _ _ = true) => h
    | with_reducible apply next_does
    | with_reducible apply id_does
    | with_reducible apply ite_does
    | with_reducible apply iteO_does
    | (apply Sparse.wf_set; assumption)
    | exact rfl
    | intro _
    | dsimp only
    | split

theorem execSafSqDisagree_does {A : List Part} {b₀ : State} (n : Fin 8) (s : State) 
    (hD : Does A b₀ s) (hA : partsIn [.block 0x08, .free, .strand, .saf, .out] A = true) : DoesO A b₀ (execSafSqDisagree n s) := by
  unfold execSafSqDisagree
  repeat' first
    | with_reducible assumption
    | with_reducible apply sqCut_does
    | with_reducible apply sqFault_does
    | ((with_reducible refine listed_block 8 ?_ ?_ hA); first | omega | (dsimp only [Fld.SAF_STATE_STATE, safState]; omega) | (dsimp only [Fld.SAF_STATE_STATE, safState]; split <;> omega); exact rfl)
    | ((with_reducible refine partsIn_trans ?_ hA); exact rfl)
    | ((with_reducible refine listed_code ?_ hA); exact rfl)
    | exact fun (h : Sparse.wf _ _ = true) => h
    | with_reducible apply next_does
    | with_reducible apply id_does
    | with_reducible apply ite_does
    | with_reducible apply iteO_does
    | (apply Sparse.wf_set; assumption)
    | exact rfl
    | intro _
    | dsimp only
    | split

theorem execSafBankLow_does {A : List Part} {b₀ : State} (k : Fin 4) (tie : Bool) (s : State) 
    (hD : Does A b₀ s) (hA : partsIn [.block 0x08, .free, .strand, .saf, .out] A = true) : DoesO A b₀ (execSafBankLow k tie s) := by
  unfold execSafBankLow
  repeat' first
    | with_reducible assumption
    | with_reducible apply safEv_does
    | with_reducible apply safSay_does
    | with_reducible apply safTie_does
    | ((with_reducible refine partsIn_trans ?_ hA); exact rfl)
    | ((with_reducible refine listed_code ?_ hA); exact rfl)
    | exact fun (h : Sparse.wf _ _ = true) => h
    | with_reducible apply next_does
    | with_reducible apply id_does
    | with_reducible apply ite_does
    | with_reducible apply iteO_does
    | (apply Sparse.wf_set; assumption)
    | exact rfl
    | intro _
    | dsimp only
    | split
    | with_reducible apply upd_saf

theorem execSafBankRestored_does {A : List Part} {b₀ : State} (k : Fin 4) (s : State) 
    (hD : Does A b₀ s) (hA : partsIn [.block 0x08, .free, .strand, .saf, .out] A = true) : DoesO A b₀ (execSafBankRestored k s) := by
  unfold execSafBankRestored
  repeat' first
    | with_reducible assumption
    | with_reducible apply safSay_does
    | ((with_reducible refine partsIn_trans ?_ hA); exact rfl)
    | ((with_reducible refine listed_code ?_ hA); exact rfl)
    | exact fun (h : Sparse.wf _ _ = true) => h
    | with_reducible apply next_does
    | with_reducible apply id_does
    | with_reducible apply ite_does
    | with_reducible apply iteO_does
    | (apply Sparse.wf_set; assumption)
    | exact rfl
    | intro _
    | dsimp only
    | split
    | with_reducible apply upd_saf

theorem sqGain_does {A : List Part} {b₀ : State} (n : Nat) (s : State) 
    (hD : Does A b₀ s) (hA : partsIn [.saf] A = true) : Does A b₀ (sqGain n s) := by
  unfold sqGain
  repeat' first
    | with_reducible assumption
    | with_reducible apply onSq_does
    | ((with_reducible refine partsIn_trans ?_ hA); exact rfl)
    | ((with_reducible refine listed_code ?_ hA); exact rfl)
    | exact fun (h : Sparse.wf _ _ = true) => h
    | with_reducible apply next_does
    | with_reducible apply id_does
    | with_reducible apply ite_does
    | with_reducible apply iteO_does
    | (apply Sparse.wf_set; assumption)
    | exact rfl
    | intro _
    | dsimp only
    | split

theorem execSafAuthTaken_does {A : List Part} {b₀ : State}  (s : State) 
    (hD : Does A b₀ s) (hA : partsIn [.block 0x08, .free, .strand, .saf, .pair, .out] A = true) : DoesO A b₀ (execSafAuthTaken s) := by
  unfold execSafAuthTaken
  repeat' first
    | with_reducible assumption
    | with_reducible apply connStart_does
    | with_reducible apply forAll_does
    | with_reducible apply onlyIf_does
    | with_reducible apply safEv_does
    | with_reducible apply safSay_does
    | with_reducible apply say_does
    | with_reducible apply setFld_does
    | with_reducible apply sqGain_does
    | with_reducible apply tpStart_does
    | with_reducible apply wr64_does
    | ((with_reducible refine listed_block 8 ?_ ?_ hA); first | omega | (dsimp only [Fld.PAIR_STATE_AUTH_HELD, Fld.SAF_EVENT_AUTHORITY, Fld.SAF_STATE_STATE, Reg.SAF_SX_REQ_LO, safState]; omega) | (dsimp only [Fld.PAIR_STATE_AUTH_HELD, Fld.SAF_EVENT_AUTHORITY, Fld.SAF_STATE_STATE, Reg.SAF_SX_REQ_LO, safState]; split <;> omega); exact rfl)
    | ((with_reducible refine partsIn_trans ?_ hA); exact rfl)
    | ((with_reducible refine listed_code ?_ hA); exact rfl)
    | exact fun (h : Sparse.wf _ _ = true) => h
    | with_reducible apply next_does
    | with_reducible apply id_does
    | with_reducible apply ite_does
    | with_reducible apply iteO_does
    | (apply Sparse.wf_set; assumption)
    | exact rfl
    | intro _
    | (dsimp only [Fld.PAIR_STATE_AUTH_HELD, Fld.SAF_EVENT_AUTHORITY, Fld.SAF_STATE_STATE, Reg.SAF_SX_REQ_LO]; omega)
    | dsimp only
    | split
    | with_reducible apply upd_saf

theorem safDrop_does {A : List Part} {b₀ : State}  (s : State) 
    (hD : Does A b₀ s) (hA : partsIn [.block 0x08, .free, .strand, .saf, .out] A = true) : Does A b₀ (safDrop s) := by
  unfold safDrop
  repeat' first
    | with_reducible assumption
    | with_reducible apply forAll_does
    | with_reducible apply onConn_does
    | with_reducible apply onSq_does
    | with_reducible apply onlyIf_does
    | with_reducible apply safEv_does
    | with_reducible apply safSay_does
    | with_reducible apply setFld_does
    | with_reducible apply sqEvalAll_does
    | with_reducible apply tpStop_does
    | ((with_reducible refine listed_block 8 ?_ ?_ hA); first | omega | (dsimp only [Fld.SAF_EVENT_AUTHORITY, Fld.SAF_STATE_STATE, Fld.SAF_TP_STATUS_LEVEL, safState]; omega) | (dsimp only [Fld.SAF_EVENT_AUTHORITY, Fld.SAF_STATE_STATE, Fld.SAF_TP_STATUS_LEVEL, safState]; split <;> omega); exact rfl)
    | ((with_reducible refine partsIn_trans ?_ hA); exact rfl)
    | ((with_reducible refine listed_code ?_ hA); exact rfl)
    | exact fun (h : Sparse.wf _ _ = true) => h
    | with_reducible apply next_does
    | with_reducible apply id_does
    | with_reducible apply ite_does
    | with_reducible apply iteO_does
    | (apply Sparse.wf_set; assumption)
    | exact rfl
    | intro _
    | dsimp only
    | split
    | with_reducible apply upd_saf

theorem execSafAuthReleased_does {A : List Part} {b₀ : State}  (s : State) 
    (hD : Does A b₀ s) (hA : partsIn [.block 0x08, .free, .strand, .saf, .out] A = true) : DoesO A b₀ (execSafAuthReleased s) := by
  unfold execSafAuthReleased
  repeat' first
    | with_reducible assumption
    | with_reducible apply safDrop_does
    | with_reducible apply setFld_does
    | with_reducible apply tpStop_does
    | ((with_reducible refine partsIn_trans ?_ hA); exact rfl)
    | ((with_reducible refine listed_code ?_ hA); exact rfl)
    | exact fun (h : Sparse.wf _ _ = true) => h
    | with_reducible apply next_does
    | with_reducible apply id_does
    | with_reducible apply ite_does
    | with_reducible apply iteO_does
    | (apply Sparse.wf_set; assumption)
    | exact rfl
    | intro _
    | dsimp only
    | split
    | with_reducible apply upd_saf

theorem execSafHandoverHoldEnd_does {A : List Part} {b₀ : State}  (s : State) 
    (hD : Does A b₀ s) (hA : partsIn [.block 0x08, .free, .strand, .saf, .out] A = true) : DoesO A b₀ (execSafHandoverHoldEnd s) := by
  unfold execSafHandoverHoldEnd
  repeat' first
    | with_reducible assumption
    | with_reducible apply safDrop_does
    | ((with_reducible refine partsIn_trans ?_ hA); exact rfl)
    | ((with_reducible refine listed_code ?_ hA); exact rfl)
    | exact fun (h : Sparse.wf _ _ = true) => h
    | with_reducible apply next_does
    | with_reducible apply id_does
    | with_reducible apply ite_does
    | with_reducible apply iteO_does
    | (apply Sparse.wf_set; assumption)
    | exact rfl
    | intro _
    | dsimp only
    | split

theorem execSafLockstep_does {A : List Part} {b₀ : State}  (s : State) 
    (hD : Does A b₀ s) (hA : partsIn [.block 0x01, .block 0x02, .block 0x03, .block 0x05, .block 0x08, .block 0x09, .block 0x0A, .block 0x0C, .free, .strand, .backup, .tides, .seqs, .exe, .loop, .dio, .saf, .pair, .can, .sup, .mbx, .out] A = true) : DoesO A b₀ (execSafLockstep s) := by
  unfold execSafLockstep
  repeat' first
    | with_reducible assumption
    | with_reducible apply safFault_does
    | ((with_reducible refine partsIn_trans ?_ hA); exact rfl)
    | ((with_reducible refine listed_code ?_ hA); exact rfl)
    | exact fun (h : Sparse.wf _ _ = true) => h
    | with_reducible apply next_does
    | with_reducible apply id_does
    | with_reducible apply ite_does
    | with_reducible apply iteO_does
    | (apply Sparse.wf_set; assumption)
    | exact rfl
    | intro _
    | dsimp only
    | split

theorem execSafBwSelftest_does {A : List Part} {b₀ : State}  (s : State) 
    (hD : Does A b₀ s) (hA : partsIn [.block 0x01, .block 0x02, .block 0x03, .block 0x05, .block 0x08, .block 0x09, .block 0x0A, .block 0x0C, .free, .strand, .backup, .tides, .seqs, .exe, .loop, .dio, .saf, .pair, .can, .sup, .mbx, .out] A = true) : DoesO A b₀ (execSafBwSelftest s) := by
  unfold execSafBwSelftest
  repeat' first
    | with_reducible assumption
    | with_reducible apply safFault_does
    | ((with_reducible refine partsIn_trans ?_ hA); exact rfl)
    | ((with_reducible refine listed_code ?_ hA); exact rfl)
    | exact fun (h : Sparse.wf _ _ = true) => h
    | with_reducible apply next_does
    | with_reducible apply id_does
    | with_reducible apply ite_does
    | with_reducible apply iteO_does
    | (apply Sparse.wf_set; assumption)
    | exact rfl
    | intro _
    | dsimp only
    | split
    | with_reducible apply upd_saf

theorem execBreakwaterContactChange_does {A : List Part} {b₀ : State} (p : Fin 8) (b : Bool) (level : Bool) (s : State) 
    (hD : Does A b₀ s) (hA : partsIn [.saf] A = true) : DoesO A b₀ (execBreakwaterContactChange p b level s) := by
  unfold execBreakwaterContactChange
  repeat' first
    | with_reducible assumption
    | with_reducible apply onSi_does
    | ((with_reducible refine partsIn_trans ?_ hA); exact rfl)
    | ((with_reducible refine listed_code ?_ hA); exact rfl)
    | exact fun (h : Sparse.wf _ _ = true) => h
    | with_reducible apply next_does
    | with_reducible apply id_does
    | with_reducible apply ite_does
    | with_reducible apply iteO_does
    | (apply Sparse.wf_set; assumption)
    | exact rfl
    | intro _
    | dsimp only
    | split

theorem execAuthTakenByOtherSide_does {A : List Part} {b₀ : State}  (s : State) 
    (hD : Does A b₀ s) (hA : partsIn [.saf, .sup] A = true) : DoesO A b₀ (execAuthTakenByOtherSide s) := by
  unfold execAuthTakenByOtherSide
  repeat' first
    | with_reducible assumption
    | with_reducible apply forAll_does
    | with_reducible apply onSq_does
    | ((with_reducible refine partsIn_trans ?_ hA); exact rfl)
    | ((with_reducible refine listed_code ?_ hA); exact rfl)
    | exact fun (h : Sparse.wf _ _ = true) => h
    | with_reducible apply next_does
    | with_reducible apply id_does
    | with_reducible apply ite_does
    | with_reducible apply iteO_does
    | (apply Sparse.wf_set; assumption)
    | exact rfl
    | intro _
    | dsimp only
    | split
    | with_reducible apply upd_sup

theorem connCorrupt_does {A : List Part} {b₀ : State} (i : Nat) (s : State) 
    (hD : Does A b₀ s) (hA : partsIn [.block 0x08, .free, .strand, .saf, .pair, .out] A = true) : Does A b₀ (connCorrupt i s) := by
  unfold connCorrupt
  repeat' first
    | with_reducible assumption
    | with_reducible apply connFail_does
    | with_reducible apply onConn_does
    | with_reducible apply safSay_does
    | ((with_reducible refine partsIn_trans ?_ hA); exact rfl)
    | ((with_reducible refine listed_code ?_ hA); exact rfl)
    | exact fun (h : Sparse.wf _ _ = true) => h
    | with_reducible apply next_does
    | with_reducible apply id_does
    | with_reducible apply ite_does
    | with_reducible apply iteO_does
    | (apply Sparse.wf_set; assumption)
    | exact rfl
    | intro _
    | dsimp only
    | split

theorem connAck_does {A : List Part} {b₀ : State} (i : Nat) (src : DWord) (f : List Byte) (s : State) 
    (hD : Does A b₀ s) (hA : partsIn [.saf, .pair, .out] A = true) : Does A b₀ (connAck i src f s) := by
  unfold connAck
  repeat' first
    | with_reducible assumption
    | with_reducible apply connSend_does
    | with_reducible apply onConn_does
    | ((with_reducible refine partsIn_trans ?_ hA); exact rfl)
    | ((with_reducible refine listed_code ?_ hA); exact rfl)
    | exact fun (h : Sparse.wf _ _ = true) => h
    | with_reducible apply next_does
    | with_reducible apply id_does
    | with_reducible apply ite_does
    | with_reducible apply iteO_does
    | (apply Sparse.wf_set; assumption)
    | exact rfl
    | intro _
    | dsimp only
    | split

theorem execSafetyFrameReceive_does {A : List Part} {b₀ : State} (carrier : Fin 4) (src : DWord) (frame : List Byte) (s : State) 
    (hD : Does A b₀ s) (hA : partsIn [.block 0x08, .free, .strand, .saf, .pair, .out] A = true) : DoesO A b₀ (execSafetyFrameReceive carrier src frame s) := by
  unfold execSafetyFrameReceive
  repeat' first
    | with_reducible assumption
    | with_reducible apply connAck_does
    | with_reducible apply connCorrupt_does
    | with_reducible apply connFail_does
    | with_reducible apply onConn_does
    | with_reducible apply onlyIf_does
    | with_reducible apply safSay_does
    | ((with_reducible refine partsIn_trans ?_ hA); exact rfl)
    | ((with_reducible refine listed_code ?_ hA); exact rfl)
    | exact fun (h : Sparse.wf _ _ = true) => h
    | with_reducible apply next_does
    | with_reducible apply id_does
    | with_reducible apply ite_does
    | with_reducible apply iteO_does
    | (apply Sparse.wf_set; assumption)
    | exact rfl
    | intro _
    | dsimp only
    | split

theorem execConsumerOpenRepeat_does {A : List Part} {b₀ : State} (i : Fin 16) (s : State) 
    (hD : Does A b₀ s) (hA : partsIn [.saf, .pair, .out] A = true) : DoesO A b₀ (execConsumerOpenRepeat i s) := by
  unfold execConsumerOpenRepeat
  repeat' first
    | with_reducible assumption
    | with_reducible apply connOpenSend_does
    | ((with_reducible refine partsIn_trans ?_ hA); exact rfl)
    | ((with_reducible refine listed_code ?_ hA); exact rfl)
    | exact fun (h : Sparse.wf _ _ = true) => h
    | with_reducible apply next_does
    | with_reducible apply id_does
    | with_reducible apply ite_does
    | with_reducible apply iteO_does
    | (apply Sparse.wf_set; assumption)
    | exact rfl
    | intro _
    | dsimp only
    | split

theorem execSafConnWdog_does {A : List Part} {b₀ : State} (i : Fin 16) (tie : Bool) (s : State) 
    (hD : Does A b₀ s) (hA : partsIn [.block 0x08, .free, .strand, .saf, .pair, .out] A = true) : DoesO A b₀ (execSafConnWdog i tie s) := by
  unfold execSafConnWdog
  repeat' first
    | with_reducible assumption
    | with_reducible apply connFail_does
    | with_reducible apply onConn_does
    | with_reducible apply onlyIf_does
    | with_reducible apply safSay_does
    | with_reducible apply safTie_does
    | ((with_reducible refine partsIn_trans ?_ hA); exact rfl)
    | ((with_reducible refine listed_code ?_ hA); exact rfl)
    | exact fun (h : Sparse.wf _ _ = true) => h
    | with_reducible apply next_does
    | with_reducible apply id_does
    | with_reducible apply ite_does
    | with_reducible apply iteO_does
    | (apply Sparse.wf_set; assumption)
    | exact rfl
    | intro _
    | dsimp only
    | split

theorem execProducerFrameReceive_does {A : List Part} {b₀ : State} (carrier : Fin 4) (src : DWord) (frame : List Byte) (s : State) 
    (hD : Does A b₀ s) (hA : partsIn [.block 0x08, .free, .strand, .saf, .out] A = true) : DoesO A b₀ (execProducerFrameReceive carrier src frame s) := by
  unfold execProducerFrameReceive
  repeat' first
    | with_reducible assumption
    | with_reducible apply onConn_does
    | with_reducible apply safSay_does
    | ((with_reducible refine partsIn_trans ?_ hA); exact rfl)
    | ((with_reducible refine listed_code ?_ hA); exact rfl)
    | exact fun (h : Sparse.wf _ _ = true) => h
    | with_reducible apply next_does
    | with_reducible apply id_does
    | with_reducible apply ite_does
    | with_reducible apply iteO_does
    | (apply Sparse.wf_set; assumption)
    | exact rfl
    | intro _
    | dsimp only
    | split

theorem execSafConnAckTimeout_does {A : List Part} {b₀ : State} (i : Fin 16) (tie : Bool) (s : State) 
    (hD : Does A b₀ s) (hA : partsIn [.block 0x08, .free, .strand, .saf, .out] A = true) : DoesO A b₀ (execSafConnAckTimeout i tie s) := by
  unfold execSafConnAckTimeout
  repeat' first
    | with_reducible assumption
    | with_reducible apply onConn_does
    | with_reducible apply safSay_does
    | with_reducible apply safTie_does
    | ((with_reducible refine partsIn_trans ?_ hA); exact rfl)
    | ((with_reducible refine listed_code ?_ hA); exact rfl)
    | exact fun (h : Sparse.wf _ _ = true) => h
    | with_reducible apply next_does
    | with_reducible apply id_does
    | with_reducible apply ite_does
    | with_reducible apply iteO_does
    | (apply Sparse.wf_set; assumption)
    | exact rfl
    | intro _
    | dsimp only
    | split

theorem execConsumerEpochHoldEnd_does {A : List Part} {b₀ : State}  (s : State) 
    (hD : Does A b₀ s) (hA : partsIn [.block 0x08, .free, .strand, .saf, .pair, .out] A = true) : DoesO A b₀ (execConsumerEpochHoldEnd s) := by
  unfold execConsumerEpochHoldEnd
  repeat' first
    | with_reducible assumption
    | with_reducible apply connOpen_does
    | with_reducible apply forAll_does
    | ((with_reducible refine partsIn_trans ?_ hA); exact rfl)
    | ((with_reducible refine listed_code ?_ hA); exact rfl)
    | exact fun (h : Sparse.wf _ _ = true) => h
    | with_reducible apply next_does
    | with_reducible apply id_does
    | with_reducible apply ite_does
    | with_reducible apply iteO_does
    | (apply Sparse.wf_set; assumption)
    | exact rfl
    | intro _
    | dsimp only
    | split
    | with_reducible apply upd_saf

end Sys2Proof.Machine
end

