-- ==== Sys2Proof/Laws/OnlyKqSys.lean ====
section
/-! SUPPORT. What each operation of Machine/KqSys.lean can do: the parts of the state it may change, and that it keeps
canonical form. -/
namespace Sys2Proof.Machine

theorem kqIndexed_does {A : List Part} {b₀ : State} (t : Nat) (rb : Fin 64) (size : Nat) (f : Nat → State → State) (s : State) (h_f : ∀ x0 u, Does A b₀ u → Does A b₀ (f x0 u))
    (hD : Does A b₀ s) (hA : partsIn [.block 0x01, .block 0x02, .block 0x03, .block 0x05, .block 0x08, .block 0x09, .block 0x0A, .block 0x0C, .free, .strand, .backup, .tides, .seqs, .exe, .loop, .dio, .saf, .pair, .can, .sup, .mbx, .out] A = true) : Does A b₀ (kqIndexed t rb size f s) := by
  unfold kqIndexed
  repeat' first
    | with_reducible assumption
    | with_reducible apply h_f
    | with_reducible apply kqFault_does
    | ((with_reducible refine partsIn_trans ?_ hA); exact rfl)
    | ((with_reducible refine listed_code ?_ hA); exact rfl)
    | exact fun (h : Sparse.wf _ _ = true) => h
    | with_reducible apply next_does
    | with_reducible apply id_does
    | with_reducible apply ite_does
    | with_reducible apply iteO_does
    | (apply Sparse.wf_set; assumption)
    | exact rfl
    | intro _
    | dsimp only
    | split

theorem execTsch_does {A : List Part} {b₀ : State} (rd : Fin 64) (ra : Fin 62) (rb : Fin 64) (waits : Bool) (s : State) 
    (hD : Does A b₀ s) (hA : partsIn [.block 0x01, .block 0x02, .block 0x03, .block 0x05, .block 0x08, .block 0x09, .block 0x0A, .block 0x0C, .free, .strand, .backup, .tides, .tideTable, .seqs, .exe, .loop, .dio, .saf, .pair, .net, .can, .sup, .mbx, .out] A = true) : DoesO A b₀ (execTsch rd ra rb waits s) := by
  unfold execTsch
  repeat' first
    | with_reducible assumption
    | with_reducible apply kqBlock_does
    | with_reducible apply kqIndexed_does
    | with_reducible apply kqRun_does
    | with_reducible apply ownPart_does
    | with_reducible apply statusAct_does
    | with_reducible apply ttCommit_does
    | ((with_reducible refine partsIn_trans ?_ hA); exact rfl)
    | ((with_reducible refine listed_code ?_ hA); exact rfl)
    | exact fun (h : Sparse.wf _ _ = true) => h
    | with_reducible apply next_does
    | with_reducible apply id_does
    | with_reducible apply ite_does
    | with_reducible apply iteO_does
    | (apply Sparse.wf_set; assumption)
    | exact rfl
    | intro _
    | dsimp only
    | split

theorem execTret_does {A : List Part} {b₀ : State} (rd : Fin 64) (rb : Fin 64) (waits : Bool) (s : State) 
    (hD : Does A b₀ s) (hA : partsIn [.block 0x01, .block 0x02, .block 0x03, .block 0x05, .block 0x08, .block 0x09, .block 0x0A, .block 0x0C, .free, .strand, .backup, .tides, .tideTable, .seqs, .exe, .loop, .dio, .saf, .pair, .can, .sup, .mbx, .out] A = true) : DoesO A b₀ (execTret rd rb waits s) := by
  unfold execTret
  repeat' first
    | with_reducible assumption
    | with_reducible apply kqBlock_does
    | with_reducible apply kqIndexed_does
    | with_reducible apply kqRun_does
    | with_reducible apply ownPart_does
    | with_reducible apply statusAct_does
    | with_reducible apply ttRetireBy_does
    | ((with_reducible refine partsIn_trans ?_ hA); exact rfl)
    | ((with_reducible refine listed_code ?_ hA); exact rfl)
    | exact fun (h : Sparse.wf _ _ = true) => h
    | with_reducible apply next_does
    | with_reducible apply id_does
    | with_reducible apply ite_does
    | with_reducible apply iteO_does
    | (apply Sparse.wf_set; assumption)
    | exact rfl
    | intro _
    | dsimp only
    | split

theorem execLsp_does {A : List Part} {b₀ : State} (rd : Fin 64) (ra : Fin 64) (rb : Fin 64) (waits : Bool) (s : State) 
    (hD : Does A b₀ s) (hA : partsIn [.exe, .loop, .pair, .out] A = true) : DoesO A b₀ (execLsp rd ra rb waits s) := by
  unfold execLsp
  repeat' first
    | with_reducible assumption
    | with_reducible apply kqBlock_does
    | with_reducible apply kqRun_does
    | with_reducible apply loopPutSp_does
    | with_reducible apply ownPart_does
    | with_reducible apply statusAct_does
    | ((with_reducible refine partsIn_trans ?_ hA); exact rfl)
    | ((with_reducible refine listed_code ?_ hA); exact rfl)
    | exact fun (h : Sparse.wf _ _ = true) => h
    | with_reducible apply next_does
    | with_reducible apply id_does
    | with_reducible apply ite_does
    | with_reducible apply iteO_does
    | (apply Sparse.wf_set; assumption)
    | exact rfl
    | intro _
    | dsimp only
    | split

theorem execLmode_does {A : List Part} {b₀ : State} (rd : Fin 64) (ra : Fin 64) (rb : Fin 64) (waits : Bool) (s : State) 
    (hD : Does A b₀ s) (hA : partsIn [.block 0x04, .free, .strand, .exe, .loop, .pair, .out] A = true) : DoesO A b₀ (execLmode rd ra rb waits s) := by
  unfold execLmode
  repeat' first
    | with_reducible assumption
    | with_reducible apply kqBlock_does
    | with_reducible apply kqRun_does
    | with_reducible apply loopPutMode_does
    | with_reducible apply ownPart_does
    | with_reducible apply statusAct_does
    | ((with_reducible refine partsIn_trans ?_ hA); exact rfl)
    | ((with_reducible refine listed_code ?_ hA); exact rfl)
    | exact fun (h : Sparse.wf _ _ = true) => h
    | with_reducible apply next_does
    | with_reducible apply id_does
    | with_reducible apply ite_does
    | with_reducible apply iteO_does
    | (apply Sparse.wf_set; assumption)
    | exact rfl
    | intro _
    | dsimp only
    | split

theorem execLpar_does {A : List Part} {b₀ : State} (rd : Fin 64) (ra : Fin 64) (rb : Fin 64) (waits : Bool) (s : State) 
    (hD : Does A b₀ s) (hA : partsIn [.block 0x04, .free, .strand, .exe, .loop, .pair, .out] A = true) : DoesO A b₀ (execLpar rd ra rb waits s) := by
  unfold execLpar
  repeat' first
    | with_reducible assumption
    | with_reducible apply kqBlock_does
    | with_reducible apply kqRun_does
    | with_reducible apply loopPutPar_does
    | with_reducible apply ownPart_does
    | with_reducible apply statusAct_does
    | ((with_reducible refine partsIn_trans ?_ hA); exact rfl)
    | ((with_reducible refine listed_code ?_ hA); exact rfl)
    | exact fun (h : Sparse.wf _ _ = true) => h
    | with_reducible apply next_does
    | with_reducible apply id_does
    | with_reducible apply ite_does
    | with_reducible apply iteO_does
    | (apply Sparse.wf_set; assumption)
    | exact rfl
    | intro _
    | dsimp only
    | split

theorem loopItemRes_does {A : List Part} {b₀ : State} (k : Nat) (c : Nat) (s : State) 
    (hD : Does A b₀ s) (hA : partsIn [.free, .strand, .loop, .out] A = true) : Does A b₀ (loopItemRes k c s).2 := by
  unfold loopItemRes
  repeat' first
    | with_reducible assumption
    | with_reducible apply slotSay_does
    | ((with_reducible refine partsIn_trans ?_ hA); exact rfl)
    | ((with_reducible refine listed_code ?_ hA); exact rfl)
    | exact fun (h : Sparse.wf _ _ = true) => h
    | with_reducible apply next_does
    | with_reducible apply id_does
    | with_reducible apply ite_does
    | with_reducible apply iteO_does
    | (apply Sparse.wf_set; assumption)
    | exact rfl
    | intro _
    | dsimp only
    | split
    | with_reducible apply upd_freeCtr

theorem execLrd_does {A : List Part} {b₀ : State} (rd : Fin 64) (rb : Fin 64) (waits : Bool) (s : State) 
    (hD : Does A b₀ s) (hA : partsIn [.free, .strand, .exe, .loop, .pair, .out] A = true) : DoesO A b₀ (execLrd rd rb waits s) := by
  unfold execLrd
  repeat' first
    | with_reducible assumption
    | with_reducible apply kqBlock_does
    | with_reducible apply kqRun_does
    | with_reducible apply loopItemRes_does
    | ((with_reducible refine partsIn_trans ?_ hA); exact rfl)
    | ((with_reducible refine listed_code ?_ hA); exact rfl)
    | exact fun (h : Sparse.wf _ _ = true) => h
    | with_reducible apply next_does
    | with_reducible apply id_does
    | with_reducible apply ite_does
    | with_reducible apply iteO_does
    | (apply Sparse.wf_set; assumption)
    | exact rfl
    | intro _
    | dsimp only
    | split

theorem delivered_does {A : List Part} {b₀ : State} (f : State → State) (s : State) (h_f : ∀ u, Does A b₀ u → Does A b₀ (f u))
    (hD : Does A b₀ s) : Does A b₀ (delivered f s).2 := by
  unfold delivered
  repeat' first
    | with_reducible assumption
    | with_reducible apply h_f
    | exact fun (h : Sparse.wf _ _ = true) => h
    | with_reducible apply next_does
    | with_reducible apply id_does
    | with_reducible apply ite_does
    | with_reducible apply iteO_does
    | (apply Sparse.wf_set; assumption)
    | exact rfl
    | intro _
    | dsimp only
    | split

theorem execSqc_does {A : List Part} {b₀ : State} (rd : Fin 64) (ra : Fin 64) (rb : Fin 64) (waits : Bool) (s : State) 
    (hD : Does A b₀ s) (hA : partsIn [.seqs, .exe, .pair, .out] A = true) : DoesO A b₀ (execSqc rd ra rb waits s) := by
  unfold execSqc
  repeat' first
    | with_reducible assumption
    | with_reducible apply delivered_does
    | with_reducible apply kqBlock_does
    | with_reducible apply kqRun_does
    | with_reducible apply seqPut_does
    | with_reducible apply statusAct_does
    | ((with_reducible refine partsIn_trans ?_ hA); exact rfl)
    | ((with_reducible refine listed_code ?_ hA); exact rfl)
    | exact fun (h : Sparse.wf _ _ = true) => h
    | with_reducible apply next_does
    | with_reducible apply id_does
    | with_reducible apply ite_does
    | with_reducible apply iteO_does
    | (apply Sparse.wf_set; assumption)
    | exact rfl
    | intro _
    | dsimp only
    | split

theorem execSqs_does {A : List Part} {b₀ : State} (rd : Fin 64) (rb : Fin 64) (waits : Bool) (s : State) 
    (hD : Does A b₀ s) (hA : partsIn [.exe, .pair, .out] A = true) : DoesO A b₀ (execSqs rd rb waits s) := by
  unfold execSqs
  repeat' first
    | with_reducible assumption
    | with_reducible apply kqBlock_does
    | with_reducible apply kqRun_does
    | ((with_reducible refine partsIn_trans ?_ hA); exact rfl)
    | ((with_reducible refine listed_code ?_ hA); exact rfl)
    | exact fun (h : Sparse.wf _ _ = true) => h
    | with_reducible apply next_does
    | with_reducible apply id_does
    | with_reducible apply ite_does
    | with_reducible apply iteO_does
    | (apply Sparse.wf_set; assumption)
    | exact rfl
    | intro _
    | dsimp only
    | split

theorem execSqsig_does {A : List Part} {b₀ : State} (rd : Fin 64) (ra : Fin 64) (rb : Fin 64) (waits : Bool) (s : State) 
    (hD : Does A b₀ s) (hA : partsIn [.seqs, .exe, .pair, .out] A = true) : DoesO A b₀ (execSqsig rd ra rb waits s) := by
  unfold execSqsig
  repeat' first
    | with_reducible assumption
    | with_reducible apply delivered_does
    | with_reducible apply kqBlock_does
    | with_reducible apply kqRun_does
    | with_reducible apply seqSignal_does
    | with_reducible apply statusAct_does
    | ((with_reducible refine partsIn_trans ?_ hA); exact rfl)
    | ((with_reducible refine listed_code ?_ hA); exact rfl)
    | exact fun (h : Sparse.wf _ _ = true) => h
    | with_reducible apply next_does
    | with_reducible apply id_does
    | with_reducible apply ite_does
    | with_reducible apply iteO_does
    | (apply Sparse.wf_set; assumption)
    | exact rfl
    | intro _
    | dsimp only
    | split

theorem execMsend_does {A : List Part} {b₀ : State} (rd : Fin 64) (ra : Fin 64) (rb : Fin 64) (waits : Bool) (s : State) 
    (hD : Does A b₀ s) (hA : partsIn [.block 0x01, .block 0x02, .block 0x03, .block 0x05, .block 0x08, .block 0x09, .block 0x0A, .block 0x0C, .block 0x0F, .block 0x10, .free, .strand, .backup, .tides, .seqs, .exe, .loop, .dio, .saf, .pair, .can, .sup, .mbx, .out] A = true) : DoesO A b₀ (execMsend rd ra rb waits s) := by
  unfold execMsend
  repeat' first
    | with_reducible assumption
    | with_reducible apply kqBlock_does
    | with_reducible apply kqIndexed_does
    | with_reducible apply kqReg_does
    | with_reducible apply kqRun_does
    | with_reducible apply mbxSend_does
    | with_reducible apply statusAct_does
    | ((with_reducible refine listed_block 1 ?_ ?_ hA); first | omega | (dsimp only [Reg.MBXm_SEND]; omega) | (dsimp only [Reg.MBXm_SEND]; split <;> omega); exact rfl)
    | ((with_reducible refine listed_block 2 ?_ ?_ hA); first | omega | (dsimp only [Reg.MBXm_SEND]; omega) | (dsimp only [Reg.MBXm_SEND]; split <;> omega); exact rfl)
    | ((with_reducible refine listed_block 3 ?_ ?_ hA); first | omega | (dsimp only [Reg.MBXm_SEND]; omega) | (dsimp only [Reg.MBXm_SEND]; split <;> omega); exact rfl)
    | ((with_reducible refine listed_block 5 ?_ ?_ hA); first | omega | (dsimp only [Reg.MBXm_SEND]; omega) | (dsimp only [Reg.MBXm_SEND]; split <;> omega); exact rfl)
    | ((with_reducible refine listed_block 8 ?_ ?_ hA); first | omega | (dsimp only [Reg.MBXm_SEND]; omega) | (dsimp only [Reg.MBXm_SEND]; split <;> omega); exact rfl)
    | ((with_reducible refine listed_block 9 ?_ ?_ hA); first | omega | (dsimp only [Reg.MBXm_SEND]; omega) | (dsimp only [Reg.MBXm_SEND]; split <;> omega); exact rfl)
    | ((with_reducible refine listed_block 10 ?_ ?_ hA); first | omega | (dsimp only [Reg.MBXm_SEND]; omega) | (dsimp only [Reg.MBXm_SEND]; split <;> omega); exact rfl)
    | ((with_reducible refine listed_block 12 ?_ ?_ hA); first | omega | (dsimp only [Reg.MBXm_SEND]; omega) | (dsimp only [Reg.MBXm_SEND]; split <;> omega); exact rfl)
    | ((with_reducible refine listed_block 15 ?_ ?_ hA); first | omega | (dsimp only [Reg.MBXm_SEND]; omega) | (dsimp only [Reg.MBXm_SEND]; split <;> omega); exact rfl)
    | ((with_reducible refine listed_block 16 ?_ ?_ hA); first | omega | (dsimp only [Reg.MBXm_SEND]; omega) | (dsimp only [Reg.MBXm_SEND]; split <;> omega); exact rfl)
    | ((with_reducible refine partsIn_trans ?_ hA); exact rfl)
    | ((with_reducible refine listed_code ?_ hA); exact rfl)
    | exact fun (h : Sparse.wf _ _ = true) => h
    | with_reducible apply next_does
    | with_reducible apply id_does
    | with_reducible apply ite_does
    | with_reducible apply iteO_does
    | (apply Sparse.wf_set; assumption)
    | exact rfl
    | intro _
    | dsimp only
    | split

theorem mrecvRes_does {A : List Part} {b₀ : State} (m : Nat) (s : State) 
    (hD : Does A b₀ s) (hA : partsIn [.free, .strand, .mbx, .out] A = true) : Does A b₀ (mrecvRes m s).2 := by
  unfold mrecvRes
  repeat' first
    | with_reducible assumption
    | with_reducible apply mbxTake_does
    | ((with_reducible refine partsIn_trans ?_ hA); exact rfl)
    | ((with_reducible refine listed_code ?_ hA); exact rfl)
    | exact fun (h : Sparse.wf _ _ = true) => h
    | with_reducible apply next_does
    | with_reducible apply id_does
    | with_reducible apply ite_does
    | with_reducible apply iteO_does
    | (apply Sparse.wf_set; assumption)
    | exact rfl
    | intro _
    | dsimp only
    | split

theorem execMrecv_does {A : List Part} {b₀ : State} (rd : Fin 64) (rb : Fin 64) (waits : Bool) (s : State) 
    (hD : Does A b₀ s) (hA : partsIn [.block 0x01, .block 0x02, .block 0x03, .block 0x05, .block 0x08, .block 0x09, .block 0x0A, .block 0x0C, .block 0x0F, .free, .strand, .backup, .tides, .seqs, .exe, .loop, .dio, .saf, .pair, .can, .sup, .mbx, .out] A = true) : DoesO A b₀ (execMrecv rd rb waits s) := by
  unfold execMrecv
  repeat' first
    | with_reducible assumption
    | with_reducible apply kqBlock_does
    | with_reducible apply kqIndexed_does
    | with_reducible apply kqReg_does
    | with_reducible apply kqRun_does
    | with_reducible apply mrecvRes_does
    | ((with_reducible refine listed_block 1 ?_ ?_ hA); first | omega | (dsimp only [Reg.MBXm_RECV]; omega) | (dsimp only [Reg.MBXm_RECV]; split <;> omega); exact rfl)
    | ((with_reducible refine listed_block 2 ?_ ?_ hA); first | omega | (dsimp only [Reg.MBXm_RECV]; omega) | (dsimp only [Reg.MBXm_RECV]; split <;> omega); exact rfl)
    | ((with_reducible refine listed_block 3 ?_ ?_ hA); first | omega | (dsimp only [Reg.MBXm_RECV]; omega) | (dsimp only [Reg.MBXm_RECV]; split <;> omega); exact rfl)
    | ((with_reducible refine listed_block 5 ?_ ?_ hA); first | omega | (dsimp only [Reg.MBXm_RECV]; omega) | (dsimp only [Reg.MBXm_RECV]; split <;> omega); exact rfl)
    | ((with_reducible refine listed_block 8 ?_ ?_ hA); first | omega | (dsimp only [Reg.MBXm_RECV]; omega) | (dsimp only [Reg.MBXm_RECV]; split <;> omega); exact rfl)
    | ((with_reducible refine listed_block 9 ?_ ?_ hA); first | omega | (dsimp only [Reg.MBXm_RECV]; omega) | (dsimp only [Reg.MBXm_RECV]; split <;> omega); exact rfl)
    | ((with_reducible refine listed_block 10 ?_ ?_ hA); first | omega | (dsimp only [Reg.MBXm_RECV]; omega) | (dsimp only [Reg.MBXm_RECV]; split <;> omega); exact rfl)
    | ((with_reducible refine listed_block 12 ?_ ?_ hA); first | omega | (dsimp only [Reg.MBXm_RECV]; omega) | (dsimp only [Reg.MBXm_RECV]; split <;> omega); exact rfl)
    | ((with_reducible refine listed_block 15 ?_ ?_ hA); first | omega | (dsimp only [Reg.MBXm_RECV]; omega) | (dsimp only [Reg.MBXm_RECV]; split <;> omega); exact rfl)
    | ((with_reducible refine partsIn_trans ?_ hA); exact rfl)
    | ((with_reducible refine listed_code ?_ hA); exact rfl)
    | exact fun (h : Sparse.wf _ _ = true) => h
    | with_reducible apply next_does
    | with_reducible apply id_does
    | with_reducible apply ite_does
    | with_reducible apply iteO_does
    | (apply Sparse.wf_set; assumption)
    | exact rfl
    | intro _
    | dsimp only
    | split

theorem execMdbl_does {A : List Part} {b₀ : State} (rd : Fin 64) (ra : Fin 64) (rb : Fin 64) (waits : Bool) (s : State) 
    (hD : Does A b₀ s) (hA : partsIn [.block 0x01, .block 0x02, .block 0x03, .block 0x05, .block 0x08, .block 0x09, .block 0x0A, .block 0x0C, .block 0x0F, .block 0x10, .free, .strand, .backup, .tides, .seqs, .exe, .loop, .dio, .saf, .pair, .can, .sup, .mbx, .out] A = true) : DoesO A b₀ (execMdbl rd ra rb waits s) := by
  unfold execMdbl
  repeat' first
    | with_reducible assumption
    | with_reducible apply kqBlock_does
    | with_reducible apply kqIndexed_does
    | with_reducible apply kqReg_does
    | with_reducible apply kqRun_does
    | with_reducible apply mbxRing_does
    | with_reducible apply statusAct_does
    | ((with_reducible refine listed_block 1 ?_ ?_ hA); first | omega | (dsimp only [Reg.MBXm_DBL]; omega) | (dsimp only [Reg.MBXm_DBL]; split <;> omega); exact rfl)
    | ((with_reducible refine listed_block 2 ?_ ?_ hA); first | omega | (dsimp only [Reg.MBXm_DBL]; omega) | (dsimp only [Reg.MBXm_DBL]; split <;> omega); exact rfl)
    | ((with_reducible refine listed_block 3 ?_ ?_ hA); first | omega | (dsimp only [Reg.MBXm_DBL]; omega) | (dsimp only [Reg.MBXm_DBL]; split <;> omega); exact rfl)
    | ((with_reducible refine listed_block 5 ?_ ?_ hA); first | omega | (dsimp only [Reg.MBXm_DBL]; omega) | (dsimp only [Reg.MBXm_DBL]; split <;> omega); exact rfl)
    | ((with_reducible refine listed_block 8 ?_ ?_ hA); first | omega | (dsimp only [Reg.MBXm_DBL]; omega) | (dsimp only [Reg.MBXm_DBL]; split <;> omega); exact rfl)
    | ((with_reducible refine listed_block 9 ?_ ?_ hA); first | omega | (dsimp only [Reg.MBXm_DBL]; omega) | (dsimp only [Reg.MBXm_DBL]; split <;> omega); exact rfl)
    | ((with_reducible refine listed_block 10 ?_ ?_ hA); first | omega | (dsimp only [Reg.MBXm_DBL]; omega) | (dsimp only [Reg.MBXm_DBL]; split <;> omega); exact rfl)
    | ((with_reducible refine listed_block 12 ?_ ?_ hA); first | omega | (dsimp only [Reg.MBXm_DBL]; omega) | (dsimp only [Reg.MBXm_DBL]; split <;> omega); exact rfl)
    | ((with_reducible refine listed_block 15 ?_ ?_ hA); first | omega | (dsimp only [Reg.MBXm_DBL]; omega) | (dsimp only [Reg.MBXm_DBL]; split <;> omega); exact rfl)
    | ((with_reducible refine listed_block 16 ?_ ?_ hA); first | omega | (dsimp only [Reg.MBXm_DBL]; omega) | (dsimp only [Reg.MBXm_DBL]; split <;> omega); exact rfl)
    | ((with_reducible refine partsIn_trans ?_ hA); exact rfl)
    | ((with_reducible refine listed_code ?_ hA); exact rfl)
    | exact fun (h : Sparse.wf _ _ = true) => h
    | with_reducible apply next_does
    | with_reducible apply id_does
    | with_reducible apply ite_does
    | with_reducible apply iteO_does
    | (apply Sparse.wf_set; assumption)
    | exact rfl
    | intro _
    | dsimp only
    | split

theorem execMack_does {A : List Part} {b₀ : State} (rd : Fin 64) (ra : Fin 64) (rb : Fin 64) (waits : Bool) (s : State) 
    (hD : Does A b₀ s) (hA : partsIn [.block 0x01, .block 0x02, .block 0x03, .block 0x05, .block 0x08, .block 0x09, .block 0x0A, .block 0x0C, .block 0x0F, .block 0x10, .free, .strand, .backup, .tides, .seqs, .exe, .loop, .dio, .saf, .pair, .can, .sup, .mbx, .out] A = true) : DoesO A b₀ (execMack rd ra rb waits s) := by
  unfold execMack
  repeat' first
    | with_reducible assumption
    | with_reducible apply kqBlock_does
    | with_reducible apply kqIndexed_does
    | with_reducible apply kqReg_does
    | with_reducible apply kqRun_does
    | with_reducible apply mbxAck_does
    | with_reducible apply statusAct_does
    | ((with_reducible refine listed_block 1 ?_ ?_ hA); first | omega | (dsimp only [Reg.MBXm_ACK]; omega) | (dsimp only [Reg.MBXm_ACK]; split <;> omega); exact rfl)
    | ((with_reducible refine listed_block 2 ?_ ?_ hA); first | omega | (dsimp only [Reg.MBXm_ACK]; omega) | (dsimp only [Reg.MBXm_ACK]; split <;> omega); exact rfl)
    | ((with_reducible refine listed_block 3 ?_ ?_ hA); first | omega | (dsimp only [Reg.MBXm_ACK]; omega) | (dsimp only [Reg.MBXm_ACK]; split <;> omega); exact rfl)
    | ((with_reducible refine listed_block 5 ?_ ?_ hA); first | omega | (dsimp only [Reg.MBXm_ACK]; omega) | (dsimp only [Reg.MBXm_ACK]; split <;> omega); exact rfl)
    | ((with_reducible refine listed_block 8 ?_ ?_ hA); first | omega | (dsimp only [Reg.MBXm_ACK]; omega) | (dsimp only [Reg.MBXm_ACK]; split <;> omega); exact rfl)
    | ((with_reducible refine listed_block 9 ?_ ?_ hA); first | omega | (dsimp only [Reg.MBXm_ACK]; omega) | (dsimp only [Reg.MBXm_ACK]; split <;> omega); exact rfl)
    | ((with_reducible refine listed_block 10 ?_ ?_ hA); first | omega | (dsimp only [Reg.MBXm_ACK]; omega) | (dsimp only [Reg.MBXm_ACK]; split <;> omega); exact rfl)
    | ((with_reducible refine listed_block 12 ?_ ?_ hA); first | omega | (dsimp only [Reg.MBXm_ACK]; omega) | (dsimp only [Reg.MBXm_ACK]; split <;> omega); exact rfl)
    | ((with_reducible refine listed_block 15 ?_ ?_ hA); first | omega | (dsimp only [Reg.MBXm_ACK]; omega) | (dsimp only [Reg.MBXm_ACK]; split <;> omega); exact rfl)
    | ((with_reducible refine listed_block 16 ?_ ?_ hA); first | omega | (dsimp only [Reg.MBXm_ACK]; omega) | (dsimp only [Reg.MBXm_ACK]; split <;> omega); exact rfl)
    | ((with_reducible refine partsIn_trans ?_ hA); exact rfl)
    | ((with_reducible refine listed_code ?_ hA); exact rfl)
    | exact fun (h : Sparse.wf _ _ = true) => h
    | with_reducible apply next_does
    | with_reducible apply id_does
    | with_reducible apply ite_does
    | with_reducible apply iteO_does
    | (apply Sparse.wf_set; assumption)
    | exact rfl
    | intro _
    | dsimp only
    | split

theorem lktryRes_does {A : List Part} {b₀ : State} (i : Nat) (t : Nat) (s : State) 
    (hD : Does A b₀ s) (hA : partsIn [.mbx] A = true) : Does A b₀ (lktryRes i t s).2 := by
  unfold lktryRes
  repeat' first
    | with_reducible assumption
    | with_reducible apply lockTry_does
    | ((with_reducible refine partsIn_trans ?_ hA); exact rfl)
    | ((with_reducible refine listed_code ?_ hA); exact rfl)
    | exact fun (h : Sparse.wf _ _ = true) => h
    | with_reducible apply next_does
    | with_reducible apply id_does
    | with_reducible apply ite_does
    | with_reducible apply iteO_does
    | (apply Sparse.wf_set; assumption)
    | exact rfl
    | intro _
    | dsimp only
    | split

theorem execLktry_does {A : List Part} {b₀ : State} (rd : Fin 64) (rb : Fin 64) (waits : Bool) (s : State) 
    (hD : Does A b₀ s) (hA : partsIn [.block 0x01, .block 0x02, .block 0x03, .block 0x05, .block 0x08, .block 0x09, .block 0x0A, .block 0x0C, .block 0x0F, .free, .strand, .backup, .tides, .seqs, .exe, .loop, .dio, .saf, .pair, .can, .sup, .mbx, .out] A = true) : DoesO A b₀ (execLktry rd rb waits s) := by
  unfold execLktry
  repeat' first
    | with_reducible assumption
    | with_reducible apply kqBlock_does
    | with_reducible apply kqIndexed_does
    | with_reducible apply kqReg_does
    | with_reducible apply kqRun_does
    | with_reducible apply lktryRes_does
    | ((with_reducible refine listed_block 1 ?_ ?_ hA); first | omega | (dsimp only [Reg.MBX_LOCK]; omega) | (dsimp only [Reg.MBX_LOCK]; split <;> omega); exact rfl)
    | ((with_reducible refine listed_block 2 ?_ ?_ hA); first | omega | (dsimp only [Reg.MBX_LOCK]; omega) | (dsimp only [Reg.MBX_LOCK]; split <;> omega); exact rfl)
    | ((with_reducible refine listed_block 3 ?_ ?_ hA); first | omega | (dsimp only [Reg.MBX_LOCK]; omega) | (dsimp only [Reg.MBX_LOCK]; split <;> omega); exact rfl)
    | ((with_reducible refine listed_block 5 ?_ ?_ hA); first | omega | (dsimp only [Reg.MBX_LOCK]; omega) | (dsimp only [Reg.MBX_LOCK]; split <;> omega); exact rfl)
    | ((with_reducible refine listed_block 8 ?_ ?_ hA); first | omega | (dsimp only [Reg.MBX_LOCK]; omega) | (dsimp only [Reg.MBX_LOCK]; split <;> omega); exact rfl)
    | ((with_reducible refine listed_block 9 ?_ ?_ hA); first | omega | (dsimp only [Reg.MBX_LOCK]; omega) | (dsimp only [Reg.MBX_LOCK]; split <;> omega); exact rfl)
    | ((with_reducible refine listed_block 10 ?_ ?_ hA); first | omega | (dsimp only [Reg.MBX_LOCK]; omega) | (dsimp only [Reg.MBX_LOCK]; split <;> omega); exact rfl)
    | ((with_reducible refine listed_block 12 ?_ ?_ hA); first | omega | (dsimp only [Reg.MBX_LOCK]; omega) | (dsimp only [Reg.MBX_LOCK]; split <;> omega); exact rfl)
    | ((with_reducible refine listed_block 15 ?_ ?_ hA); first | omega | (dsimp only [Reg.MBX_LOCK]; omega) | (dsimp only [Reg.MBX_LOCK]; split <;> omega); exact rfl)
    | ((with_reducible refine partsIn_trans ?_ hA); exact rfl)
    | ((with_reducible refine listed_code ?_ hA); exact rfl)
    | exact fun (h : Sparse.wf _ _ = true) => h
    | with_reducible apply next_does
    | with_reducible apply id_does
    | with_reducible apply ite_does
    | with_reducible apply iteO_does
    | (apply Sparse.wf_set; assumption)
    | exact rfl
    | intro _
    | dsimp only
    | split

theorem lkrelRes_does {A : List Part} {b₀ : State} (i : Nat) (t : Nat) (s : State) 
    (hD : Does A b₀ s) (hA : partsIn [.free, .strand, .mbx, .out] A = true) : Does A b₀ (lkrelRes i t s).2 := by
  unfold lkrelRes
  repeat' first
    | with_reducible assumption
    | with_reducible apply lockFree_does
    | with_reducible apply say_does
    | ((with_reducible refine partsIn_trans ?_ hA); exact rfl)
    | ((with_reducible refine listed_code ?_ hA); exact rfl)
    | exact fun (h : Sparse.wf _ _ = true) => h
    | with_reducible apply next_does
    | with_reducible apply id_does
    | with_reducible apply ite_does
    | with_reducible apply iteO_does
    | (apply Sparse.wf_set; assumption)
    | exact rfl
    | intro _
    | dsimp only
    | split

theorem execLkrel_does {A : List Part} {b₀ : State} (rd : Fin 64) (rb : Fin 64) (waits : Bool) (s : State) 
    (hD : Does A b₀ s) (hA : partsIn [.block 0x01, .block 0x02, .block 0x03, .block 0x05, .block 0x08, .block 0x09, .block 0x0A, .block 0x0C, .block 0x0F, .free, .strand, .backup, .tides, .seqs, .exe, .loop, .dio, .saf, .pair, .can, .sup, .mbx, .out] A = true) : DoesO A b₀ (execLkrel rd rb waits s) := by
  unfold execLkrel
  repeat' first
    | with_reducible assumption
    | with_reducible apply kqBlock_does
    | with_reducible apply kqIndexed_does
    | with_reducible apply kqReg_does
    | with_reducible apply kqRun_does
    | with_reducible apply lkrelRes_does
    | ((with_reducible refine listed_block 1 ?_ ?_ hA); first | omega | (dsimp only [Reg.MBX_LOCK]; omega) | (dsimp only [Reg.MBX_LOCK]; split <;> omega); exact rfl)
    | ((with_reducible refine listed_block 2 ?_ ?_ hA); first | omega | (dsimp only [Reg.MBX_LOCK]; omega) | (dsimp only [Reg.MBX_LOCK]; split <;> omega); exact rfl)
    | ((with_reducible refine listed_block 3 ?_ ?_ hA); first | omega | (dsimp only [Reg.MBX_LOCK]; omega) | (dsimp only [Reg.MBX_LOCK]; split <;> omega); exact rfl)
    | ((with_reducible refine listed_block 5 ?_ ?_ hA); first | omega | (dsimp only [Reg.MBX_LOCK]; omega) | (dsimp only [Reg.MBX_LOCK]; split <;> omega); exact rfl)
    | ((with_reducible refine listed_block 8 ?_ ?_ hA); first | omega | (dsimp only [Reg.MBX_LOCK]; omega) | (dsimp only [Reg.MBX_LOCK]; split <;> omega); exact rfl)
    | ((with_reducible refine listed_block 9 ?_ ?_ hA); first | omega | (dsimp only [Reg.MBX_LOCK]; omega) | (dsimp only [Reg.MBX_LOCK]; split <;> omega); exact rfl)
    | ((with_reducible refine listed_block 10 ?_ ?_ hA); first | omega | (dsimp only [Reg.MBX_LOCK]; omega) | (dsimp only [Reg.MBX_LOCK]; split <;> omega); exact rfl)
    | ((with_reducible refine listed_block 12 ?_ ?_ hA); first | omega | (dsimp only [Reg.MBX_LOCK]; omega) | (dsimp only [Reg.MBX_LOCK]; split <;> omega); exact rfl)
    | ((with_reducible refine listed_block 15 ?_ ?_ hA); first | omega | (dsimp only [Reg.MBX_LOCK]; omega) | (dsimp only [Reg.MBX_LOCK]; split <;> omega); exact rfl)
    | ((with_reducible refine partsIn_trans ?_ hA); exact rfl)
    | ((with_reducible refine listed_code ?_ hA); exact rfl)
    | exact fun (h : Sparse.wf _ _ = true) => h
    | with_reducible apply next_does
    | with_reducible apply id_does
    | with_reducible apply ite_does
    | with_reducible apply iteO_does
    | (apply Sparse.wf_set; assumption)
    | exact rfl
    | intro _
    | dsimp only
    | split

theorem placeRequest_does {A : List Part} {b₀ : State} (w : DWord) (s : State) 
    (hD : Does A b₀ s) (hA : partsIn [.saf] A = true) : Does A b₀ (placeRequest w s) := by
  unfold placeRequest
  repeat' first
    | with_reducible assumption
    | ((with_reducible refine partsIn_trans ?_ hA); exact rfl)
    | ((with_reducible refine listed_code ?_ hA); exact rfl)
    | exact fun (h : Sparse.wf _ _ = true) => h
    | with_reducible apply next_does
    | with_reducible apply id_does
    | with_reducible apply ite_does
    | with_reducible apply iteO_does
    | (apply Sparse.wf_set; assumption)
    | exact rfl
    | intro _
    | dsimp only
    | split
    | with_reducible apply upd_saf

theorem execSxch_does {A : List Part} {b₀ : State} (rd : Fin 64) (ra : Fin 64) (s : State) 
    (hD : Does A b₀ s) (hA : partsIn [.exe, .saf, .pair, .out] A = true) : DoesO A b₀ (execSxch rd ra s) := by
  unfold execSxch
  repeat' first
    | with_reducible assumption
    | with_reducible apply kqReplay_does
    | with_reducible apply kqRun_does
    | with_reducible apply placeRequest_does
    | ((with_reducible refine partsIn_trans ?_ hA); exact rfl)
    | ((with_reducible refine listed_code ?_ hA); exact rfl)
    | exact fun (h : Sparse.wf _ _ = true) => h
    | with_reducible apply next_does
    | with_reducible apply id_does
    | with_reducible apply ite_does
    | with_reducible apply iteO_does
    | (apply Sparse.wf_set; assumption)
    | exact rfl
    | intro _
    | dsimp only
    | split

theorem execMtim_does {A : List Part} {b₀ : State} (rd : Fin 64) (s : State) 
    (hD : Does A b₀ s) (hA : partsIn [.exe, .pair, .out] A = true) : DoesO A b₀ (execMtim rd s) := by
  unfold execMtim
  repeat' first
    | with_reducible assumption
    | with_reducible apply kqReplay_does
    | with_reducible apply kqRun_does
    | ((with_reducible refine partsIn_trans ?_ hA); exact rfl)
    | ((with_reducible refine listed_code ?_ hA); exact rfl)
    | exact fun (h : Sparse.wf _ _ = true) => h
    | with_reducible apply next_does
    | with_reducible apply id_does
    | with_reducible apply ite_does
    | with_reducible apply iteO_does
    | (apply Sparse.wf_set; assumption)
    | exact rfl
    | intro _
    | dsimp only
    | split

theorem execLog_does {A : List Part} {b₀ : State} (code : BitVec 12) (ra : Fin 64) (s : State) 
    (hD : Does A b₀ s) (hA : partsIn [.strand, .exe, .pair, .out] A = true) : DoesO A b₀ (execLog code ra s) := by
  unfold execLog
  repeat' first
    | with_reducible assumption
    | with_reducible apply commitPoint_does
    | with_reducible apply kqRun_does
    | with_reducible apply onTask_does
    | with_reducible apply present_does
    | ((with_reducible refine partsIn_trans ?_ hA); exact rfl)
    | ((with_reducible refine listed_code ?_ hA); exact rfl)
    | exact fun (h : Sparse.wf _ _ = true) => h
    | with_reducible apply next_does
    | with_reducible apply id_does
    | with_reducible apply ite_does
    | with_reducible apply iteO_does
    | (apply Sparse.wf_set; assumption)
    | exact rfl
    | intro _
    | dsimp only
    | split

theorem execTang_does {A : List Part} {b₀ : State} (rd : Fin 64) (item : Fin 4) (tide : Fin 8) (s : State) 
    (hD : Does A b₀ s) (hA : partsIn [.exe, .pair, .out] A = true) : DoesO A b₀ (execTang rd item tide s) := by
  unfold execTang
  repeat' first
    | with_reducible assumption
    | with_reducible apply kqReplay_does
    | with_reducible apply kqRun_does
    | ((with_reducible refine partsIn_trans ?_ hA); exact rfl)
    | ((with_reducible refine listed_code ?_ hA); exact rfl)
    | exact fun (h : Sparse.wf _ _ = true) => h
    | with_reducible apply next_does
    | with_reducible apply id_does
    | with_reducible apply ite_does
    | with_reducible apply iteO_does
    | (apply Sparse.wf_set; assumption)
    | exact rfl
    | intro _
    | dsimp only
    | split

end Sys2Proof.Machine
end

