-- ==== Sys2Proof/Laws/State.lean ====
section
/-! SUPPORT. What each update of the state leaves as it was: one lemma per update and field, and the laws of registers and
their fields. -/
namespace Sys2Proof.Machine

/-! ### Fields of the state -/

@[simp] theorem wr_pending (a : Nat) (v : Word) (s : State) : (wr a v s).pending = s.pending := rfl
@[simp] theorem wr_accMaster (a : Nat) (v : Word) (s : State) : (wr a v s).accMaster = s.accMaster := rfl
@[simp] theorem wr_hostData (a : Nat) (v : Word) (s : State) : (wr a v s).hostData = s.hostData := rfl
@[simp] theorem wr_hostBytes (a : Nat) (v : Word) (s : State) : (wr a v s).hostBytes = s.hostBytes := rfl
@[simp] theorem wr_captured (a : Nat) (v : Word) (s : State) : (wr a v s).captured = s.captured := rfl
@[simp] theorem wr_cycle (a : Nat) (v : Word) (s : State) : (wr a v s).cycle = s.cycle := rfl
@[simp] theorem wr_mtime (a : Nat) (v : Word) (s : State) : (wr a v s).mtime = s.mtime := rfl
@[simp] theorem wr_freeCtr (a : Nat) (v : Word) (s : State) : (wr a v s).freeCtr = s.freeCtr := rfl
@[simp] theorem wr_mem (a : Nat) (v : Word) (s : State) : (wr a v s).mem = s.mem := rfl
@[simp] theorem wr_strand (a : Nat) (v : Word) (s : State) : (wr a v s).strand = s.strand := rfl
@[simp] theorem wr_backup (a : Nat) (v : Word) (s : State) : (wr a v s).backup = s.backup := rfl
@[simp] theorem wr_tides (a : Nat) (v : Word) (s : State) : (wr a v s).tides = s.tides := rfl
@[simp] theorem wr_tiFault (a : Nat) (v : Word) (s : State) : (wr a v s).tiFault = s.tiFault := rfl
@[simp] theorem wr_tt (a : Nat) (v : Word) (s : State) : (wr a v s).tt = s.tt := rfl
@[simp] theorem wr_ttOut (a : Nat) (v : Word) (s : State) : (wr a v s).ttOut = s.ttOut := rfl
@[simp] theorem wr_ttFull (a : Nat) (v : Word) (s : State) : (wr a v s).ttFull = s.ttFull := rfl
@[simp] theorem wr_seqs (a : Nat) (v : Word) (s : State) : (wr a v s).seqs = s.seqs := rfl
@[simp] theorem wr_exe (a : Nat) (v : Word) (s : State) : (wr a v s).exe = s.exe := rfl
@[simp] theorem wr_loop (a : Nat) (v : Word) (s : State) : (wr a v s).loop = s.loop := rfl
@[simp] theorem wr_dio (a : Nat) (v : Word) (s : State) : (wr a v s).dio = s.dio := rfl
@[simp] theorem wr_dioBank (a : Nat) (v : Word) (s : State) : (wr a v s).dioBank = s.dioBank := rfl
@[simp] theorem wr_po (a : Nat) (v : Word) (s : State) : (wr a v s).po = s.po := rfl
@[simp] theorem wr_terms (a : Nat) (v : Word) (s : State) : (wr a v s).terms = s.terms := rfl
@[simp] theorem wr_rfxStopped (a : Nat) (v : Word) (s : State) : (wr a v s).rfxStopped = s.rfxStopped := rfl
@[simp] theorem wr_an (a : Nat) (v : Word) (s : State) : (wr a v s).an = s.an := rfl
@[simp] theorem wr_anBank (a : Nat) (v : Word) (s : State) : (wr a v s).anBank = s.anBank := rfl
@[simp] theorem wr_saf (a : Nat) (v : Word) (s : State) : (wr a v s).saf = s.saf := rfl
@[simp] theorem wr_triad (a : Nat) (v : Word) (s : State) : (wr a v s).triad = s.triad := rfl
@[simp] theorem wr_pair (a : Nat) (v : Word) (s : State) : (wr a v s).pair = s.pair := rfl
@[simp] theorem wr_net (a : Nat) (v : Word) (s : State) : (wr a v s).net = s.net := rfl
@[simp] theorem wr_can (a : Nat) (v : Word) (s : State) : (wr a v s).can = s.can := rfl
@[simp] theorem wr_lcy (a : Nat) (v : Word) (s : State) : (wr a v s).lcy = s.lcy := rfl
@[simp] theorem wr_fwu (a : Nat) (v : Word) (s : State) : (wr a v s).fwu = s.fwu := rfl
@[simp] theorem wr_dbgData (a : Nat) (v : Word) (s : State) : (wr a v s).dbgData = s.dbgData := rfl
@[simp] theorem wr_fwPause (a : Nat) (v : Word) (s : State) : (wr a v s).fwPause = s.fwPause := rfl
@[simp] theorem wr_fwWait (a : Nat) (v : Word) (s : State) : (wr a v s).fwWait = s.fwWait := rfl
@[simp] theorem wr_sup (a : Nat) (v : Word) (s : State) : (wr a v s).sup = s.sup := rfl
@[simp] theorem wr_mpu (a : Nat) (v : Word) (s : State) : (wr a v s).mpu = s.mpu := rfl
@[simp] theorem wr_mailboxes (a : Nat) (v : Word) (s : State) : (wr a v s).mailboxes = s.mailboxes := rfl
@[simp] theorem wr_locks (a : Nat) (v : Word) (s : State) : (wr a v s).locks = s.locks := rfl
@[simp] theorem wr_queSeq (a : Nat) (v : Word) (s : State) : (wr a v s).queSeq = s.queSeq := rfl
@[simp] theorem wr_out (a : Nat) (v : Word) (s : State) : (wr a v s).out = s.out := rfl
@[simp] theorem setFld_pending (f : RegField) (v : Nat) (s : State) : (setFld f v s).pending = s.pending := rfl
@[simp] theorem setFld_accMaster (f : RegField) (v : Nat) (s : State) : (setFld f v s).accMaster = s.accMaster := rfl
@[simp] theorem setFld_hostData (f : RegField) (v : Nat) (s : State) : (setFld f v s).hostData = s.hostData := rfl
@[simp] theorem setFld_hostBytes (f : RegField) (v : Nat) (s : State) : (setFld f v s).hostBytes = s.hostBytes := rfl
@[simp] theorem setFld_captured (f : RegField) (v : Nat) (s : State) : (setFld f v s).captured = s.captured := rfl
@[simp] theorem setFld_cycle (f : RegField) (v : Nat) (s : State) : (setFld f v s).cycle = s.cycle := rfl
@[simp] theorem setFld_mtime (f : RegField) (v : Nat) (s : State) : (setFld f v s).mtime = s.mtime := rfl
@[simp] theorem setFld_freeCtr (f : RegField) (v : Nat) (s : State) : (setFld f v s).freeCtr = s.freeCtr := rfl
@[simp] theorem setFld_mem (f : RegField) (v : Nat) (s : State) : (setFld f v s).mem = s.mem := rfl
@[simp] theorem setFld_strand (f : RegField) (v : Nat) (s : State) : (setFld f v s).strand = s.strand := rfl
@[simp] theorem setFld_backup (f : RegField) (v : Nat) (s : State) : (setFld f v s).backup = s.backup := rfl
@[simp] theorem setFld_tides (f : RegField) (v : Nat) (s : State) : (setFld f v s).tides = s.tides := rfl
@[simp] theorem setFld_tiFault (f : RegField) (v : Nat) (s : State) : (setFld f v s).tiFault = s.tiFault := rfl
@[simp] theorem setFld_tt (f : RegField) (v : Nat) (s : State) : (setFld f v s).tt = s.tt := rfl
@[simp] theorem setFld_ttOut (f : RegField) (v : Nat) (s : State) : (setFld f v s).ttOut = s.ttOut := rfl
@[simp] theorem setFld_ttFull (f : RegField) (v : Nat) (s : State) : (setFld f v s).ttFull = s.ttFull := rfl
@[simp] theorem setFld_seqs (f : RegField) (v : Nat) (s : State) : (setFld f v s).seqs = s.seqs := rfl
@[simp] theorem setFld_exe (f : RegField) (v : Nat) (s : State) : (setFld f v s).exe = s.exe := rfl
@[simp] theorem setFld_loop (f : RegField) (v : Nat) (s : State) : (setFld f v s).loop = s.loop := rfl
@[simp] theorem setFld_dio (f : RegField) (v : Nat) (s : State) : (setFld f v s).dio = s.dio := rfl
@[simp] theorem setFld_dioBank (f : RegField) (v : Nat) (s : State) : (setFld f v s).dioBank = s.dioBank := rfl
@[simp] theorem setFld_po (f : RegField) (v : Nat) (s : State) : (setFld f v s).po = s.po := rfl
@[simp] theorem setFld_terms (f : RegField) (v : Nat) (s : State) : (setFld f v s).terms = s.terms := rfl
@[simp] theorem setFld_rfxStopped (f : RegField) (v : Nat) (s : State) : (setFld f v s).rfxStopped = s.rfxStopped := rfl
@[simp] theorem setFld_an (f : RegField) (v : Nat) (s : State) : (setFld f v s).an = s.an := rfl
@[simp] theorem setFld_anBank (f : RegField) (v : Nat) (s : State) : (setFld f v s).anBank = s.anBank := rfl
@[simp] theorem setFld_saf (f : RegField) (v : Nat) (s : State) : (setFld f v s).saf = s.saf := rfl
@[simp] theorem setFld_triad (f : RegField) (v : Nat) (s : State) : (setFld f v s).triad = s.triad := rfl
@[simp] theorem setFld_pair (f : RegField) (v : Nat) (s : State) : (setFld f v s).pair = s.pair := rfl
@[simp] theorem setFld_net (f : RegField) (v : Nat) (s : State) : (setFld f v s).net = s.net := rfl
@[simp] theorem setFld_can (f : RegField) (v : Nat) (s : State) : (setFld f v s).can = s.can := rfl
@[simp] theorem setFld_lcy (f : RegField) (v : Nat) (s : State) : (setFld f v s).lcy = s.lcy := rfl
@[simp] theorem setFld_fwu (f : RegField) (v : Nat) (s : State) : (setFld f v s).fwu = s.fwu := rfl
@[simp] theorem setFld_dbgData (f : RegField) (v : Nat) (s : State) : (setFld f v s).dbgData = s.dbgData := rfl
@[simp] theorem setFld_fwPause (f : RegField) (v : Nat) (s : State) : (setFld f v s).fwPause = s.fwPause := rfl
@[simp] theorem setFld_fwWait (f : RegField) (v : Nat) (s : State) : (setFld f v s).fwWait = s.fwWait := rfl
@[simp] theorem setFld_sup (f : RegField) (v : Nat) (s : State) : (setFld f v s).sup = s.sup := rfl
@[simp] theorem setFld_mpu (f : RegField) (v : Nat) (s : State) : (setFld f v s).mpu = s.mpu := rfl
@[simp] theorem setFld_mailboxes (f : RegField) (v : Nat) (s : State) : (setFld f v s).mailboxes = s.mailboxes := rfl
@[simp] theorem setFld_locks (f : RegField) (v : Nat) (s : State) : (setFld f v s).locks = s.locks := rfl
@[simp] theorem setFld_queSeq (f : RegField) (v : Nat) (s : State) : (setFld f v s).queSeq = s.queSeq := rfl
@[simp] theorem setFld_out (f : RegField) (v : Nat) (s : State) : (setFld f v s).out = s.out := rfl
@[simp] theorem setFlag_pending (f : RegField) (b : Bool) (s : State) : (setFlag f b s).pending = s.pending := rfl
@[simp] theorem setFlag_accMaster (f : RegField) (b : Bool) (s : State) : (setFlag f b s).accMaster = s.accMaster := rfl
@[simp] theorem setFlag_hostData (f : RegField) (b : Bool) (s : State) : (setFlag f b s).hostData = s.hostData := rfl
@[simp] theorem setFlag_hostBytes (f : RegField) (b : Bool) (s : State) : (setFlag f b s).hostBytes = s.hostBytes := rfl
@[simp] theorem setFlag_captured (f : RegField) (b : Bool) (s : State) : (setFlag f b s).captured = s.captured := rfl
@[simp] theorem setFlag_cycle (f : RegField) (b : Bool) (s : State) : (setFlag f b s).cycle = s.cycle := rfl
@[simp] theorem setFlag_mtime (f : RegField) (b : Bool) (s : State) : (setFlag f b s).mtime = s.mtime := rfl
@[simp] theorem setFlag_freeCtr (f : RegField) (b : Bool) (s : State) : (setFlag f b s).freeCtr = s.freeCtr := rfl
@[simp] theorem setFlag_mem (f : RegField) (b : Bool) (s : State) : (setFlag f b s).mem = s.mem := rfl
@[simp] theorem setFlag_strand (f : RegField) (b : Bool) (s : State) : (setFlag f b s).strand = s.strand := rfl
@[simp] theorem setFlag_backup (f : RegField) (b : Bool) (s : State) : (setFlag f b s).backup = s.backup := rfl
@[simp] theorem setFlag_tides (f : RegField) (b : Bool) (s : State) : (setFlag f b s).tides = s.tides := rfl
@[simp] theorem setFlag_tiFault (f : RegField) (b : Bool) (s : State) : (setFlag f b s).tiFault = s.tiFault := rfl
@[simp] theorem setFlag_tt (f : RegField) (b : Bool) (s : State) : (setFlag f b s).tt = s.tt := rfl
@[simp] theorem setFlag_ttOut (f : RegField) (b : Bool) (s : State) : (setFlag f b s).ttOut = s.ttOut := rfl
@[simp] theorem setFlag_ttFull (f : RegField) (b : Bool) (s : State) : (setFlag f b s).ttFull = s.ttFull := rfl
@[simp] theorem setFlag_seqs (f : RegField) (b : Bool) (s : State) : (setFlag f b s).seqs = s.seqs := rfl
@[simp] theorem setFlag_exe (f : RegField) (b : Bool) (s : State) : (setFlag f b s).exe = s.exe := rfl
@[simp] theorem setFlag_loop (f : RegField) (b : Bool) (s : State) : (setFlag f b s).loop = s.loop := rfl
@[simp] theorem setFlag_dio (f : RegField) (b : Bool) (s : State) : (setFlag f b s).dio = s.dio := rfl
@[simp] theorem setFlag_dioBank (f : RegField) (b : Bool) (s : State) : (setFlag f b s).dioBank = s.dioBank := rfl
@[simp] theorem setFlag_po (f : RegField) (b : Bool) (s : State) : (setFlag f b s).po = s.po := rfl
@[simp] theorem setFlag_terms (f : RegField) (b : Bool) (s : State) : (setFlag f b s).terms = s.terms := rfl
@[simp] theorem setFlag_rfxStopped (f : RegField) (b : Bool) (s : State) : (setFlag f b s).rfxStopped = s.rfxStopped := rfl
@[simp] theorem setFlag_an (f : RegField) (b : Bool) (s : State) : (setFlag f b s).an = s.an := rfl
@[simp] theorem setFlag_anBank (f : RegField) (b : Bool) (s : State) : (setFlag f b s).anBank = s.anBank := rfl
@[simp] theorem setFlag_saf (f : RegField) (b : Bool) (s : State) : (setFlag f b s).saf = s.saf := rfl
@[simp] theorem setFlag_triad (f : RegField) (b : Bool) (s : State) : (setFlag f b s).triad = s.triad := rfl
@[simp] theorem setFlag_pair (f : RegField) (b : Bool) (s : State) : (setFlag f b s).pair = s.pair := rfl
@[simp] theorem setFlag_net (f : RegField) (b : Bool) (s : State) : (setFlag f b s).net = s.net := rfl
@[simp] theorem setFlag_can (f : RegField) (b : Bool) (s : State) : (setFlag f b s).can = s.can := rfl
@[simp] theorem setFlag_lcy (f : RegField) (b : Bool) (s : State) : (setFlag f b s).lcy = s.lcy := rfl
@[simp] theorem setFlag_fwu (f : RegField) (b : Bool) (s : State) : (setFlag f b s).fwu = s.fwu := rfl
@[simp] theorem setFlag_dbgData (f : RegField) (b : Bool) (s : State) : (setFlag f b s).dbgData = s.dbgData := rfl
@[simp] theorem setFlag_fwPause (f : RegField) (b : Bool) (s : State) : (setFlag f b s).fwPause = s.fwPause := rfl
@[simp] theorem setFlag_fwWait (f : RegField) (b : Bool) (s : State) : (setFlag f b s).fwWait = s.fwWait := rfl
@[simp] theorem setFlag_sup (f : RegField) (b : Bool) (s : State) : (setFlag f b s).sup = s.sup := rfl
@[simp] theorem setFlag_mpu (f : RegField) (b : Bool) (s : State) : (setFlag f b s).mpu = s.mpu := rfl
@[simp] theorem setFlag_mailboxes (f : RegField) (b : Bool) (s : State) : (setFlag f b s).mailboxes = s.mailboxes := rfl
@[simp] theorem setFlag_locks (f : RegField) (b : Bool) (s : State) : (setFlag f b s).locks = s.locks := rfl
@[simp] theorem setFlag_queSeq (f : RegField) (b : Bool) (s : State) : (setFlag f b s).queSeq = s.queSeq := rfl
@[simp] theorem setFlag_out (f : RegField) (b : Bool) (s : State) : (setFlag f b s).out = s.out := rfl
@[simp] theorem bump_pending (f : RegField) (s : State) : (bump f s).pending = s.pending := rfl
@[simp] theorem bump_accMaster (f : RegField) (s : State) : (bump f s).accMaster = s.accMaster := rfl
@[simp] theorem bump_hostData (f : RegField) (s : State) : (bump f s).hostData = s.hostData := rfl
@[simp] theorem bump_hostBytes (f : RegField) (s : State) : (bump f s).hostBytes = s.hostBytes := rfl
@[simp] theorem bump_captured (f : RegField) (s : State) : (bump f s).captured = s.captured := rfl
@[simp] theorem bump_cycle (f : RegField) (s : State) : (bump f s).cycle = s.cycle := rfl
@[simp] theorem bump_mtime (f : RegField) (s : State) : (bump f s).mtime = s.mtime := rfl
@[simp] theorem bump_freeCtr (f : RegField) (s : State) : (bump f s).freeCtr = s.freeCtr := rfl
@[simp] theorem bump_mem (f : RegField) (s : State) : (bump f s).mem = s.mem := rfl
@[simp] theorem bump_strand (f : RegField) (s : State) : (bump f s).strand = s.strand := rfl
@[simp] theorem bump_backup (f : RegField) (s : State) : (bump f s).backup = s.backup := rfl
@[simp] theorem bump_tides (f : RegField) (s : State) : (bump f s).tides = s.tides := rfl
@[simp] theorem bump_tiFault (f : RegField) (s : State) : (bump f s).tiFault = s.tiFault := rfl
@[simp] theorem bump_tt (f : RegField) (s : State) : (bump f s).tt = s.tt := rfl
@[simp] theorem bump_ttOut (f : RegField) (s : State) : (bump f s).ttOut = s.ttOut := rfl
@[simp] theorem bump_ttFull (f : RegField) (s : State) : (bump f s).ttFull = s.ttFull := rfl
@[simp] theorem bump_seqs (f : RegField) (s : State) : (bump f s).seqs = s.seqs := rfl
@[simp] theorem bump_exe (f : RegField) (s : State) : (bump f s).exe = s.exe := rfl
@[simp] theorem bump_loop (f : RegField) (s : State) : (bump f s).loop = s.loop := rfl
@[simp] theorem bump_dio (f : RegField) (s : State) : (bump f s).dio = s.dio := rfl
@[simp] theorem bump_dioBank (f : RegField) (s : State) : (bump f s).dioBank = s.dioBank := rfl
@[simp] theorem bump_po (f : RegField) (s : State) : (bump f s).po = s.po := rfl
@[simp] theorem bump_terms (f : RegField) (s : State) : (bump f s).terms = s.terms := rfl
@[simp] theorem bump_rfxStopped (f : RegField) (s : State) : (bump f s).rfxStopped = s.rfxStopped := rfl
@[simp] theorem bump_an (f : RegField) (s : State) : (bump f s).an = s.an := rfl
@[simp] theorem bump_anBank (f : RegField) (s : State) : (bump f s).anBank = s.anBank := rfl
@[simp] theorem bump_saf (f : RegField) (s : State) : (bump f s).saf = s.saf := rfl
@[simp] theorem bump_triad (f : RegField) (s : State) : (bump f s).triad = s.triad := rfl
@[simp] theorem bump_pair (f : RegField) (s : State) : (bump f s).pair = s.pair := rfl
@[simp] theorem bump_net (f : RegField) (s : State) : (bump f s).net = s.net := rfl
@[simp] theorem bump_can (f : RegField) (s : State) : (bump f s).can = s.can := rfl
@[simp] theorem bump_lcy (f : RegField) (s : State) : (bump f s).lcy = s.lcy := rfl
@[simp] theorem bump_fwu (f : RegField) (s : State) : (bump f s).fwu = s.fwu := rfl
@[simp] theorem bump_dbgData (f : RegField) (s : State) : (bump f s).dbgData = s.dbgData := rfl
@[simp] theorem bump_fwPause (f : RegField) (s : State) : (bump f s).fwPause = s.fwPause := rfl
@[simp] theorem bump_fwWait (f : RegField) (s : State) : (bump f s).fwWait = s.fwWait := rfl
@[simp] theorem bump_sup (f : RegField) (s : State) : (bump f s).sup = s.sup := rfl
@[simp] theorem bump_mpu (f : RegField) (s : State) : (bump f s).mpu = s.mpu := rfl
@[simp] theorem bump_mailboxes (f : RegField) (s : State) : (bump f s).mailboxes = s.mailboxes := rfl
@[simp] theorem bump_locks (f : RegField) (s : State) : (bump f s).locks = s.locks := rfl
@[simp] theorem bump_queSeq (f : RegField) (s : State) : (bump f s).queSeq = s.queSeq := rfl
@[simp] theorem bump_out (f : RegField) (s : State) : (bump f s).out = s.out := rfl
@[simp] theorem bumpBy_pending (f : RegField) (n : Nat) (s : State) : (bumpBy f n s).pending = s.pending := rfl
@[simp] theorem bumpBy_accMaster (f : RegField) (n : Nat) (s : State) : (bumpBy f n s).accMaster = s.accMaster := rfl
@[simp] theorem bumpBy_hostData (f : RegField) (n : Nat) (s : State) : (bumpBy f n s).hostData = s.hostData := rfl
@[simp] theorem bumpBy_hostBytes (f : RegField) (n : Nat) (s : State) : (bumpBy f n s).hostBytes = s.hostBytes := rfl
@[simp] theorem bumpBy_captured (f : RegField) (n : Nat) (s : State) : (bumpBy f n s).captured = s.captured := rfl
@[simp] theorem bumpBy_cycle (f : RegField) (n : Nat) (s : State) : (bumpBy f n s).cycle = s.cycle := rfl
@[simp] theorem bumpBy_mtime (f : RegField) (n : Nat) (s : State) : (bumpBy f n s).mtime = s.mtime := rfl
@[simp] theorem bumpBy_freeCtr (f : RegField) (n : Nat) (s : State) : (bumpBy f n s).freeCtr = s.freeCtr := rfl
@[simp] theorem bumpBy_mem (f : RegField) (n : Nat) (s : State) : (bumpBy f n s).mem = s.mem := rfl
@[simp] theorem bumpBy_strand (f : RegField) (n : Nat) (s : State) : (bumpBy f n s).strand = s.strand := rfl
@[simp] theorem bumpBy_backup (f : RegField) (n : Nat) (s : State) : (bumpBy f n s).backup = s.backup := rfl
@[simp] theorem bumpBy_tides (f : RegField) (n : Nat) (s : State) : (bumpBy f n s).tides = s.tides := rfl
@[simp] theorem bumpBy_tiFault (f : RegField) (n : Nat) (s : State) : (bumpBy f n s).tiFault = s.tiFault := rfl
@[simp] theorem bumpBy_tt (f : RegField) (n : Nat) (s : State) : (bumpBy f n s).tt = s.tt := rfl
@[simp] theorem bumpBy_ttOut (f : RegField) (n : Nat) (s : State) : (bumpBy f n s).ttOut = s.ttOut := rfl
@[simp] theorem bumpBy_ttFull (f : RegField) (n : Nat) (s : State) : (bumpBy f n s).ttFull = s.ttFull := rfl
@[simp] theorem bumpBy_seqs (f : RegField) (n : Nat) (s : State) : (bumpBy f n s).seqs = s.seqs := rfl
@[simp] theorem bumpBy_exe (f : RegField) (n : Nat) (s : State) : (bumpBy f n s).exe = s.exe := rfl
@[simp] theorem bumpBy_loop (f : RegField) (n : Nat) (s : State) : (bumpBy f n s).loop = s.loop := rfl
@[simp] theorem bumpBy_dio (f : RegField) (n : Nat) (s : State) : (bumpBy f n s).dio = s.dio := rfl
@[simp] theorem bumpBy_dioBank (f : RegField) (n : Nat) (s : State) : (bumpBy f n s).dioBank = s.dioBank := rfl
@[simp] theorem bumpBy_po (f : RegField) (n : Nat) (s : State) : (bumpBy f n s).po = s.po := rfl
@[simp] theorem bumpBy_terms (f : RegField) (n : Nat) (s : State) : (bumpBy f n s).terms = s.terms := rfl
@[simp] theorem bumpBy_rfxStopped (f : RegField) (n : Nat) (s : State) : (bumpBy f n s).rfxStopped = s.rfxStopped := rfl
@[simp] theorem bumpBy_an (f : RegField) (n : Nat) (s : State) : (bumpBy f n s).an = s.an := rfl
@[simp] theorem bumpBy_anBank (f : RegField) (n : Nat) (s : State) : (bumpBy f n s).anBank = s.anBank := rfl
@[simp] theorem bumpBy_saf (f : RegField) (n : Nat) (s : State) : (bumpBy f n s).saf = s.saf := rfl
@[simp] theorem bumpBy_triad (f : RegField) (n : Nat) (s : State) : (bumpBy f n s).triad = s.triad := rfl
@[simp] theorem bumpBy_pair (f : RegField) (n : Nat) (s : State) : (bumpBy f n s).pair = s.pair := rfl
@[simp] theorem bumpBy_net (f : RegField) (n : Nat) (s : State) : (bumpBy f n s).net = s.net := rfl
@[simp] theorem bumpBy_can (f : RegField) (n : Nat) (s : State) : (bumpBy f n s).can = s.can := rfl
@[simp] theorem bumpBy_lcy (f : RegField) (n : Nat) (s : State) : (bumpBy f n s).lcy = s.lcy := rfl
@[simp] theorem bumpBy_fwu (f : RegField) (n : Nat) (s : State) : (bumpBy f n s).fwu = s.fwu := rfl
@[simp] theorem bumpBy_dbgData (f : RegField) (n : Nat) (s : State) : (bumpBy f n s).dbgData = s.dbgData := rfl
@[simp] theorem bumpBy_fwPause (f : RegField) (n : Nat) (s : State) : (bumpBy f n s).fwPause = s.fwPause := rfl
@[simp] theorem bumpBy_fwWait (f : RegField) (n : Nat) (s : State) : (bumpBy f n s).fwWait = s.fwWait := rfl
@[simp] theorem bumpBy_sup (f : RegField) (n : Nat) (s : State) : (bumpBy f n s).sup = s.sup := rfl
@[simp] theorem bumpBy_mpu (f : RegField) (n : Nat) (s : State) : (bumpBy f n s).mpu = s.mpu := rfl
@[simp] theorem bumpBy_mailboxes (f : RegField) (n : Nat) (s : State) : (bumpBy f n s).mailboxes = s.mailboxes := rfl
@[simp] theorem bumpBy_locks (f : RegField) (n : Nat) (s : State) : (bumpBy f n s).locks = s.locks := rfl
@[simp] theorem bumpBy_queSeq (f : RegField) (n : Nat) (s : State) : (bumpBy f n s).queSeq = s.queSeq := rfl
@[simp] theorem bumpBy_out (f : RegField) (n : Nat) (s : State) : (bumpBy f n s).out = s.out := rfl
@[simp] theorem orReg_pending (a : Nat) (m : Word) (s : State) : (orReg a m s).pending = s.pending := rfl
@[simp] theorem orReg_accMaster (a : Nat) (m : Word) (s : State) : (orReg a m s).accMaster = s.accMaster := rfl
@[simp] theorem orReg_hostData (a : Nat) (m : Word) (s : State) : (orReg a m s).hostData = s.hostData := rfl
@[simp] theorem orReg_hostBytes (a : Nat) (m : Word) (s : State) : (orReg a m s).hostBytes = s.hostBytes := rfl
@[simp] theorem orReg_captured (a : Nat) (m : Word) (s : State) : (orReg a m s).captured = s.captured := rfl
@[simp] theorem orReg_cycle (a : Nat) (m : Word) (s : State) : (orReg a m s).cycle = s.cycle := rfl
@[simp] theorem orReg_mtime (a : Nat) (m : Word) (s : State) : (orReg a m s).mtime = s.mtime := rfl
@[simp] theorem orReg_freeCtr (a : Nat) (m : Word) (s : State) : (orReg a m s).freeCtr = s.freeCtr := rfl
@[simp] theorem orReg_mem (a : Nat) (m : Word) (s : State) : (orReg a m s).mem = s.mem := rfl
@[simp] theorem orReg_strand (a : Nat) (m : Word) (s : State) : (orReg a m s).strand = s.strand := rfl
@[simp] theorem orReg_backup (a : Nat) (m : Word) (s : State) : (orReg a m s).backup = s.backup := rfl
@[simp] theorem orReg_tides (a : Nat) (m : Word) (s : State) : (orReg a m s).tides = s.tides := rfl
@[simp] theorem orReg_tiFault (a : Nat) (m : Word) (s : State) : (orReg a m s).tiFault = s.tiFault := rfl
@[simp] theorem orReg_tt (a : Nat) (m : Word) (s : State) : (orReg a m s).tt = s.tt := rfl
@[simp] theorem orReg_ttOut (a : Nat) (m : Word) (s : State) : (orReg a m s).ttOut = s.ttOut := rfl
@[simp] theorem orReg_ttFull (a : Nat) (m : Word) (s : State) : (orReg a m s).ttFull = s.ttFull := rfl
@[simp] theorem orReg_seqs (a : Nat) (m : Word) (s : State) : (orReg a m s).seqs = s.seqs := rfl
@[simp] theorem orReg_exe (a : Nat) (m : Word) (s : State) : (orReg a m s).exe = s.exe := rfl
@[simp] theorem orReg_loop (a : Nat) (m : Word) (s : State) : (orReg a m s).loop = s.loop := rfl
@[simp] theorem orReg_dio (a : Nat) (m : Word) (s : State) : (orReg a m s).dio = s.dio := rfl
@[simp] theorem orReg_dioBank (a : Nat) (m : Word) (s : State) : (orReg a m s).dioBank = s.dioBank := rfl
@[simp] theorem orReg_po (a : Nat) (m : Word) (s : State) : (orReg a m s).po = s.po := rfl
@[simp] theorem orReg_terms (a : Nat) (m : Word) (s : State) : (orReg a m s).terms = s.terms := rfl
@[simp] theorem orReg_rfxStopped (a : Nat) (m : Word) (s : State) : (orReg a m s).rfxStopped = s.rfxStopped := rfl
@[simp] theorem orReg_an (a : Nat) (m : Word) (s : State) : (orReg a m s).an = s.an := rfl
@[simp] theorem orReg_anBank (a : Nat) (m : Word) (s : State) : (orReg a m s).anBank = s.anBank := rfl
@[simp] theorem orReg_saf (a : Nat) (m : Word) (s : State) : (orReg a m s).saf = s.saf := rfl
@[simp] theorem orReg_triad (a : Nat) (m : Word) (s : State) : (orReg a m s).triad = s.triad := rfl
@[simp] theorem orReg_pair (a : Nat) (m : Word) (s : State) : (orReg a m s).pair = s.pair := rfl
@[simp] theorem orReg_net (a : Nat) (m : Word) (s : State) : (orReg a m s).net = s.net := rfl
@[simp] theorem orReg_can (a : Nat) (m : Word) (s : State) : (orReg a m s).can = s.can := rfl
@[simp] theorem orReg_lcy (a : Nat) (m : Word) (s : State) : (orReg a m s).lcy = s.lcy := rfl
@[simp] theorem orReg_fwu (a : Nat) (m : Word) (s : State) : (orReg a m s).fwu = s.fwu := rfl
@[simp] theorem orReg_dbgData (a : Nat) (m : Word) (s : State) : (orReg a m s).dbgData = s.dbgData := rfl
@[simp] theorem orReg_fwPause (a : Nat) (m : Word) (s : State) : (orReg a m s).fwPause = s.fwPause := rfl
@[simp] theorem orReg_fwWait (a : Nat) (m : Word) (s : State) : (orReg a m s).fwWait = s.fwWait := rfl
@[simp] theorem orReg_sup (a : Nat) (m : Word) (s : State) : (orReg a m s).sup = s.sup := rfl
@[simp] theorem orReg_mpu (a : Nat) (m : Word) (s : State) : (orReg a m s).mpu = s.mpu := rfl
@[simp] theorem orReg_mailboxes (a : Nat) (m : Word) (s : State) : (orReg a m s).mailboxes = s.mailboxes := rfl
@[simp] theorem orReg_locks (a : Nat) (m : Word) (s : State) : (orReg a m s).locks = s.locks := rfl
@[simp] theorem orReg_queSeq (a : Nat) (m : Word) (s : State) : (orReg a m s).queSeq = s.queSeq := rfl
@[simp] theorem orReg_out (a : Nat) (m : Word) (s : State) : (orReg a m s).out = s.out := rfl
@[simp] theorem clrReg_pending (a : Nat) (m : Word) (s : State) : (clrReg a m s).pending = s.pending := rfl
@[simp] theorem clrReg_accMaster (a : Nat) (m : Word) (s : State) : (clrReg a m s).accMaster = s.accMaster := rfl
@[simp] theorem clrReg_hostData (a : Nat) (m : Word) (s : State) : (clrReg a m s).hostData = s.hostData := rfl
@[simp] theorem clrReg_hostBytes (a : Nat) (m : Word) (s : State) : (clrReg a m s).hostBytes = s.hostBytes := rfl
@[simp] theorem clrReg_captured (a : Nat) (m : Word) (s : State) : (clrReg a m s).captured = s.captured := rfl
@[simp] theorem clrReg_cycle (a : Nat) (m : Word) (s : State) : (clrReg a m s).cycle = s.cycle := rfl
@[simp] theorem clrReg_mtime (a : Nat) (m : Word) (s : State) : (clrReg a m s).mtime = s.mtime := rfl
@[simp] theorem clrReg_freeCtr (a : Nat) (m : Word) (s : State) : (clrReg a m s).freeCtr = s.freeCtr := rfl
@[simp] theorem clrReg_mem (a : Nat) (m : Word) (s : State) : (clrReg a m s).mem = s.mem := rfl
@[simp] theorem clrReg_strand (a : Nat) (m : Word) (s : State) : (clrReg a m s).strand = s.strand := rfl
@[simp] theorem clrReg_backup (a : Nat) (m : Word) (s : State) : (clrReg a m s).backup = s.backup := rfl
@[simp] theorem clrReg_tides (a : Nat) (m : Word) (s : State) : (clrReg a m s).tides = s.tides := rfl
@[simp] theorem clrReg_tiFault (a : Nat) (m : Word) (s : State) : (clrReg a m s).tiFault = s.tiFault := rfl
@[simp] theorem clrReg_tt (a : Nat) (m : Word) (s : State) : (clrReg a m s).tt = s.tt := rfl
@[simp] theorem clrReg_ttOut (a : Nat) (m : Word) (s : State) : (clrReg a m s).ttOut = s.ttOut := rfl
@[simp] theorem clrReg_ttFull (a : Nat) (m : Word) (s : State) : (clrReg a m s).ttFull = s.ttFull := rfl
@[simp] theorem clrReg_seqs (a : Nat) (m : Word) (s : State) : (clrReg a m s).seqs = s.seqs := rfl
@[simp] theorem clrReg_exe (a : Nat) (m : Word) (s : State) : (clrReg a m s).exe = s.exe := rfl
@[simp] theorem clrReg_loop (a : Nat) (m : Word) (s : State) : (clrReg a m s).loop = s.loop := rfl
@[simp] theorem clrReg_dio (a : Nat) (m : Word) (s : State) : (clrReg a m s).dio = s.dio := rfl
@[simp] theorem clrReg_dioBank (a : Nat) (m : Word) (s : State) : (clrReg a m s).dioBank = s.dioBank := rfl
@[simp] theorem clrReg_po (a : Nat) (m : Word) (s : State) : (clrReg a m s).po = s.po := rfl
@[simp] theorem clrReg_terms (a : Nat) (m : Word) (s : State) : (clrReg a m s).terms = s.terms := rfl
@[simp] theorem clrReg_rfxStopped (a : Nat) (m : Word) (s : State) : (clrReg a m s).rfxStopped = s.rfxStopped := rfl
@[simp] theorem clrReg_an (a : Nat) (m : Word) (s : State) : (clrReg a m s).an = s.an := rfl
@[simp] theorem clrReg_anBank (a : Nat) (m : Word) (s : State) : (clrReg a m s).anBank = s.anBank := rfl
@[simp] theorem clrReg_saf (a : Nat) (m : Word) (s : State) : (clrReg a m s).saf = s.saf := rfl
@[simp] theorem clrReg_triad (a : Nat) (m : Word) (s : State) : (clrReg a m s).triad = s.triad := rfl
@[simp] theorem clrReg_pair (a : Nat) (m : Word) (s : State) : (clrReg a m s).pair = s.pair := rfl
@[simp] theorem clrReg_net (a : Nat) (m : Word) (s : State) : (clrReg a m s).net = s.net := rfl
@[simp] theorem clrReg_can (a : Nat) (m : Word) (s : State) : (clrReg a m s).can = s.can := rfl
@[simp] theorem clrReg_lcy (a : Nat) (m : Word) (s : State) : (clrReg a m s).lcy = s.lcy := rfl
@[simp] theorem clrReg_fwu (a : Nat) (m : Word) (s : State) : (clrReg a m s).fwu = s.fwu := rfl
@[simp] theorem clrReg_dbgData (a : Nat) (m : Word) (s : State) : (clrReg a m s).dbgData = s.dbgData := rfl
@[simp] theorem clrReg_fwPause (a : Nat) (m : Word) (s : State) : (clrReg a m s).fwPause = s.fwPause := rfl
@[simp] theorem clrReg_fwWait (a : Nat) (m : Word) (s : State) : (clrReg a m s).fwWait = s.fwWait := rfl
@[simp] theorem clrReg_sup (a : Nat) (m : Word) (s : State) : (clrReg a m s).sup = s.sup := rfl
@[simp] theorem clrReg_mpu (a : Nat) (m : Word) (s : State) : (clrReg a m s).mpu = s.mpu := rfl
@[simp] theorem clrReg_mailboxes (a : Nat) (m : Word) (s : State) : (clrReg a m s).mailboxes = s.mailboxes := rfl
@[simp] theorem clrReg_locks (a : Nat) (m : Word) (s : State) : (clrReg a m s).locks = s.locks := rfl
@[simp] theorem clrReg_queSeq (a : Nat) (m : Word) (s : State) : (clrReg a m s).queSeq = s.queSeq := rfl
@[simp] theorem clrReg_out (a : Nat) (m : Word) (s : State) : (clrReg a m s).out = s.out := rfl
@[simp] theorem wr64_pending (a : Nat) (v : DWord) (s : State) : (wr64 a v s).pending = s.pending := rfl
@[simp] theorem wr64_accMaster (a : Nat) (v : DWord) (s : State) : (wr64 a v s).accMaster = s.accMaster := rfl
@[simp] theorem wr64_hostData (a : Nat) (v : DWord) (s : State) : (wr64 a v s).hostData = s.hostData := rfl
@[simp] theorem wr64_hostBytes (a : Nat) (v : DWord) (s : State) : (wr64 a v s).hostBytes = s.hostBytes := rfl
@[simp] theorem wr64_captured (a : Nat) (v : DWord) (s : State) : (wr64 a v s).captured = s.captured := rfl
@[simp] theorem wr64_cycle (a : Nat) (v : DWord) (s : State) : (wr64 a v s).cycle = s.cycle := rfl
@[simp] theorem wr64_mtime (a : Nat) (v : DWord) (s : State) : (wr64 a v s).mtime = s.mtime := rfl
@[simp] theorem wr64_freeCtr (a : Nat) (v : DWord) (s : State) : (wr64 a v s).freeCtr = s.freeCtr := rfl
@[simp] theorem wr64_mem (a : Nat) (v : DWord) (s : State) : (wr64 a v s).mem = s.mem := rfl
@[simp] theorem wr64_strand (a : Nat) (v : DWord) (s : State) : (wr64 a v s).strand = s.strand := rfl
@[simp] theorem wr64_backup (a : Nat) (v : DWord) (s : State) : (wr64 a v s).backup = s.backup := rfl
@[simp] theorem wr64_tides (a : Nat) (v : DWord) (s : State) : (wr64 a v s).tides = s.tides := rfl
@[simp] theorem wr64_tiFault (a : Nat) (v : DWord) (s : State) : (wr64 a v s).tiFault = s.tiFault := rfl
@[simp] theorem wr64_tt (a : Nat) (v : DWord) (s : State) : (wr64 a v s).tt = s.tt := rfl
@[simp] theorem wr64_ttOut (a : Nat) (v : DWord) (s : State) : (wr64 a v s).ttOut = s.ttOut := rfl
@[simp] theorem wr64_ttFull (a : Nat) (v : DWord) (s : State) : (wr64 a v s).ttFull = s.ttFull := rfl
@[simp] theorem wr64_seqs (a : Nat) (v : DWord) (s : State) : (wr64 a v s).seqs = s.seqs := rfl
@[simp] theorem wr64_exe (a : Nat) (v : DWord) (s : State) : (wr64 a v s).exe = s.exe := rfl
@[simp] theorem wr64_loop (a : Nat) (v : DWord) (s : State) : (wr64 a v s).loop = s.loop := rfl
@[simp] theorem wr64_dio (a : Nat) (v : DWord) (s : State) : (wr64 a v s).dio = s.dio := rfl
@[simp] theorem wr64_dioBank (a : Nat) (v : DWord) (s : State) : (wr64 a v s).dioBank = s.dioBank := rfl
@[simp] theorem wr64_po (a : Nat) (v : DWord) (s : State) : (wr64 a v s).po = s.po := rfl
@[simp] theorem wr64_terms (a : Nat) (v : DWord) (s : State) : (wr64 a v s).terms = s.terms := rfl
@[simp] theorem wr64_rfxStopped (a : Nat) (v : DWord) (s : State) : (wr64 a v s).rfxStopped = s.rfxStopped := rfl
@[simp] theorem wr64_an (a : Nat) (v : DWord) (s : State) : (wr64 a v s).an = s.an := rfl
@[simp] theorem wr64_anBank (a : Nat) (v : DWord) (s : State) : (wr64 a v s).anBank = s.anBank := rfl
@[simp] theorem wr64_saf (a : Nat) (v : DWord) (s : State) : (wr64 a v s).saf = s.saf := rfl
@[simp] theorem wr64_triad (a : Nat) (v : DWord) (s : State) : (wr64 a v s).triad = s.triad := rfl
@[simp] theorem wr64_pair (a : Nat) (v : DWord) (s : State) : (wr64 a v s).pair = s.pair := rfl
@[simp] theorem wr64_net (a : Nat) (v : DWord) (s : State) : (wr64 a v s).net = s.net := rfl
@[simp] theorem wr64_can (a : Nat) (v : DWord) (s : State) : (wr64 a v s).can = s.can := rfl
@[simp] theorem wr64_lcy (a : Nat) (v : DWord) (s : State) : (wr64 a v s).lcy = s.lcy := rfl
@[simp] theorem wr64_fwu (a : Nat) (v : DWord) (s : State) : (wr64 a v s).fwu = s.fwu := rfl
@[simp] theorem wr64_dbgData (a : Nat) (v : DWord) (s : State) : (wr64 a v s).dbgData = s.dbgData := rfl
@[simp] theorem wr64_fwPause (a : Nat) (v : DWord) (s : State) : (wr64 a v s).fwPause = s.fwPause := rfl
@[simp] theorem wr64_fwWait (a : Nat) (v : DWord) (s : State) : (wr64 a v s).fwWait = s.fwWait := rfl
@[simp] theorem wr64_sup (a : Nat) (v : DWord) (s : State) : (wr64 a v s).sup = s.sup := rfl
@[simp] theorem wr64_mpu (a : Nat) (v : DWord) (s : State) : (wr64 a v s).mpu = s.mpu := rfl
@[simp] theorem wr64_mailboxes (a : Nat) (v : DWord) (s : State) : (wr64 a v s).mailboxes = s.mailboxes := rfl
@[simp] theorem wr64_locks (a : Nat) (v : DWord) (s : State) : (wr64 a v s).locks = s.locks := rfl
@[simp] theorem wr64_queSeq (a : Nat) (v : DWord) (s : State) : (wr64 a v s).queSeq = s.queSeq := rfl
@[simp] theorem wr64_out (a : Nat) (v : DWord) (s : State) : (wr64 a v s).out = s.out := rfl

@[simp] theorem setBitAt_pending (a i : Nat) (b : Bool) (s : State) : (setBitAt a i b s).pending = s.pending := by
  unfold setBitAt; split <;> rfl
@[simp] theorem setBitAt_accMaster (a i : Nat) (b : Bool) (s : State) : (setBitAt a i b s).accMaster = s.accMaster := by
  unfold setBitAt; split <;> rfl
@[simp] theorem setBitAt_hostData (a i : Nat) (b : Bool) (s : State) : (setBitAt a i b s).hostData = s.hostData := by
  unfold setBitAt; split <;> rfl
@[simp] theorem setBitAt_hostBytes (a i : Nat) (b : Bool) (s : State) : (setBitAt a i b s).hostBytes = s.hostBytes := by
  unfold setBitAt; split <;> rfl
@[simp] theorem setBitAt_captured (a i : Nat) (b : Bool) (s : State) : (setBitAt a i b s).captured = s.captured := by
  unfold setBitAt; split <;> rfl
@[simp] theorem setBitAt_cycle (a i : Nat) (b : Bool) (s : State) : (setBitAt a i b s).cycle = s.cycle := by
  unfold setBitAt; split <;> rfl
@[simp] theorem setBitAt_mtime (a i : Nat) (b : Bool) (s : State) : (setBitAt a i b s).mtime = s.mtime := by
  unfold setBitAt; split <;> rfl
@[simp] theorem setBitAt_freeCtr (a i : Nat) (b : Bool) (s : State) : (setBitAt a i b s).freeCtr = s.freeCtr := by
  unfold setBitAt; split <;> rfl
@[simp] theorem setBitAt_mem (a i : Nat) (b : Bool) (s : State) : (setBitAt a i b s).mem = s.mem := by
  unfold setBitAt; split <;> rfl
@[simp] theorem setBitAt_strand (a i : Nat) (b : Bool) (s : State) : (setBitAt a i b s).strand = s.strand := by
  unfold setBitAt; split <;> rfl
@[simp] theorem setBitAt_backup (a i : Nat) (b : Bool) (s : State) : (setBitAt a i b s).backup = s.backup := by
  unfold setBitAt; split <;> rfl
@[simp] theorem setBitAt_tides (a i : Nat) (b : Bool) (s : State) : (setBitAt a i b s).tides = s.tides := by
  unfold setBitAt; split <;> rfl
@[simp] theorem setBitAt_tiFault (a i : Nat) (b : Bool) (s : State) : (setBitAt a i b s).tiFault = s.tiFault := by
  unfold setBitAt; split <;> rfl
@[simp] theorem setBitAt_tt (a i : Nat) (b : Bool) (s : State) : (setBitAt a i b s).tt = s.tt := by
  unfold setBitAt; split <;> rfl
@[simp] theorem setBitAt_ttOut (a i : Nat) (b : Bool) (s : State) : (setBitAt a i b s).ttOut = s.ttOut := by
  unfold setBitAt; split <;> rfl
@[simp] theorem setBitAt_ttFull (a i : Nat) (b : Bool) (s : State) : (setBitAt a i b s).ttFull = s.ttFull := by
  unfold setBitAt; split <;> rfl
@[simp] theorem setBitAt_seqs (a i : Nat) (b : Bool) (s : State) : (setBitAt a i b s).seqs = s.seqs := by
  unfold setBitAt; split <;> rfl
@[simp] theorem setBitAt_exe (a i : Nat) (b : Bool) (s : State) : (setBitAt a i b s).exe = s.exe := by
  unfold setBitAt; split <;> rfl
@[simp] theorem setBitAt_loop (a i : Nat) (b : Bool) (s : State) : (setBitAt a i b s).loop = s.loop := by
  unfold setBitAt; split <;> rfl
@[simp] theorem setBitAt_dio (a i : Nat) (b : Bool) (s : State) : (setBitAt a i b s).dio = s.dio := by
  unfold setBitAt; split <;> rfl
@[simp] theorem setBitAt_dioBank (a i : Nat) (b : Bool) (s : State) : (setBitAt a i b s).dioBank = s.dioBank := by
  unfold setBitAt; split <;> rfl
@[simp] theorem setBitAt_po (a i : Nat) (b : Bool) (s : State) : (setBitAt a i b s).po = s.po := by
  unfold setBitAt; split <;> rfl
@[simp] theorem setBitAt_terms (a i : Nat) (b : Bool) (s : State) : (setBitAt a i b s).terms = s.terms := by
  unfold setBitAt; split <;> rfl
@[simp] theorem setBitAt_rfxStopped (a i : Nat) (b : Bool) (s : State) : (setBitAt a i b s).rfxStopped = s.rfxStopped := by
  unfold setBitAt; split <;> rfl
@[simp] theorem setBitAt_an (a i : Nat) (b : Bool) (s : State) : (setBitAt a i b s).an = s.an := by
  unfold setBitAt; split <;> rfl
@[simp] theorem setBitAt_anBank (a i : Nat) (b : Bool) (s : State) : (setBitAt a i b s).anBank = s.anBank := by
  unfold setBitAt; split <;> rfl
@[simp] theorem setBitAt_saf (a i : Nat) (b : Bool) (s : State) : (setBitAt a i b s).saf = s.saf := by
  unfold setBitAt; split <;> rfl
@[simp] theorem setBitAt_triad (a i : Nat) (b : Bool) (s : State) : (setBitAt a i b s).triad = s.triad := by
  unfold setBitAt; split <;> rfl
@[simp] theorem setBitAt_pair (a i : Nat) (b : Bool) (s : State) : (setBitAt a i b s).pair = s.pair := by
  unfold setBitAt; split <;> rfl
@[simp] theorem setBitAt_net (a i : Nat) (b : Bool) (s : State) : (setBitAt a i b s).net = s.net := by
  unfold setBitAt; split <;> rfl
@[simp] theorem setBitAt_can (a i : Nat) (b : Bool) (s : State) : (setBitAt a i b s).can = s.can := by
  unfold setBitAt; split <;> rfl
@[simp] theorem setBitAt_lcy (a i : Nat) (b : Bool) (s : State) : (setBitAt a i b s).lcy = s.lcy := by
  unfold setBitAt; split <;> rfl
@[simp] theorem setBitAt_fwu (a i : Nat) (b : Bool) (s : State) : (setBitAt a i b s).fwu = s.fwu := by
  unfold setBitAt; split <;> rfl
@[simp] theorem setBitAt_dbgData (a i : Nat) (b : Bool) (s : State) : (setBitAt a i b s).dbgData = s.dbgData := by
  unfold setBitAt; split <;> rfl
@[simp] theorem setBitAt_fwPause (a i : Nat) (b : Bool) (s : State) : (setBitAt a i b s).fwPause = s.fwPause := by
  unfold setBitAt; split <;> rfl
@[simp] theorem setBitAt_fwWait (a i : Nat) (b : Bool) (s : State) : (setBitAt a i b s).fwWait = s.fwWait := by
  unfold setBitAt; split <;> rfl
@[simp] theorem setBitAt_sup (a i : Nat) (b : Bool) (s : State) : (setBitAt a i b s).sup = s.sup := by
  unfold setBitAt; split <;> rfl
@[simp] theorem setBitAt_mpu (a i : Nat) (b : Bool) (s : State) : (setBitAt a i b s).mpu = s.mpu := by
  unfold setBitAt; split <;> rfl
@[simp] theorem setBitAt_mailboxes (a i : Nat) (b : Bool) (s : State) : (setBitAt a i b s).mailboxes = s.mailboxes := by
  unfold setBitAt; split <;> rfl
@[simp] theorem setBitAt_locks (a i : Nat) (b : Bool) (s : State) : (setBitAt a i b s).locks = s.locks := by
  unfold setBitAt; split <;> rfl
@[simp] theorem setBitAt_queSeq (a i : Nat) (b : Bool) (s : State) : (setBitAt a i b s).queSeq = s.queSeq := by
  unfold setBitAt; split <;> rfl
@[simp] theorem setBitAt_out (a i : Nat) (b : Bool) (s : State) : (setBitAt a i b s).out = s.out := by
  unfold setBitAt; split <;> rfl
@[simp] theorem sendOut_pending (o : Out) (s : State) : (sendOut o s).pending = s.pending := rfl
@[simp] theorem sendOut_accMaster (o : Out) (s : State) : (sendOut o s).accMaster = s.accMaster := rfl
@[simp] theorem sendOut_hostData (o : Out) (s : State) : (sendOut o s).hostData = s.hostData := rfl
@[simp] theorem sendOut_hostBytes (o : Out) (s : State) : (sendOut o s).hostBytes = s.hostBytes := rfl
@[simp] theorem sendOut_captured (o : Out) (s : State) : (sendOut o s).captured = s.captured := rfl
@[simp] theorem sendOut_regs (o : Out) (s : State) : (sendOut o s).regs = s.regs := rfl
@[simp] theorem sendOut_cycle (o : Out) (s : State) : (sendOut o s).cycle = s.cycle := rfl
@[simp] theorem sendOut_mtime (o : Out) (s : State) : (sendOut o s).mtime = s.mtime := rfl
@[simp] theorem sendOut_freeCtr (o : Out) (s : State) : (sendOut o s).freeCtr = s.freeCtr := rfl
@[simp] theorem sendOut_mem (o : Out) (s : State) : (sendOut o s).mem = s.mem := rfl
@[simp] theorem sendOut_strand (o : Out) (s : State) : (sendOut o s).strand = s.strand := rfl
@[simp] theorem sendOut_backup (o : Out) (s : State) : (sendOut o s).backup = s.backup := rfl
@[simp] theorem sendOut_tides (o : Out) (s : State) : (sendOut o s).tides = s.tides := rfl
@[simp] theorem sendOut_tiFault (o : Out) (s : State) : (sendOut o s).tiFault = s.tiFault := rfl
@[simp] theorem sendOut_tt (o : Out) (s : State) : (sendOut o s).tt = s.tt := rfl
@[simp] theorem sendOut_ttOut (o : Out) (s : State) : (sendOut o s).ttOut = s.ttOut := rfl
@[simp] theorem sendOut_ttFull (o : Out) (s : State) : (sendOut o s).ttFull = s.ttFull := rfl
@[simp] theorem sendOut_seqs (o : Out) (s : State) : (sendOut o s).seqs = s.seqs := rfl
@[simp] theorem sendOut_exe (o : Out) (s : State) : (sendOut o s).exe = s.exe := rfl
@[simp] theorem sendOut_loop (o : Out) (s : State) : (sendOut o s).loop = s.loop := rfl
@[simp] theorem sendOut_dio (o : Out) (s : State) : (sendOut o s).dio = s.dio := rfl
@[simp] theorem sendOut_dioBank (o : Out) (s : State) : (sendOut o s).dioBank = s.dioBank := rfl
@[simp] theorem sendOut_po (o : Out) (s : State) : (sendOut o s).po = s.po := rfl
@[simp] theorem sendOut_terms (o : Out) (s : State) : (sendOut o s).terms = s.terms := rfl
@[simp] theorem sendOut_rfxStopped (o : Out) (s : State) : (sendOut o s).rfxStopped = s.rfxStopped := rfl
@[simp] theorem sendOut_an (o : Out) (s : State) : (sendOut o s).an = s.an := rfl
@[simp] theorem sendOut_anBank (o : Out) (s : State) : (sendOut o s).anBank = s.anBank := rfl
@[simp] theorem sendOut_saf (o : Out) (s : State) : (sendOut o s).saf = s.saf := rfl
@[simp] theorem sendOut_triad (o : Out) (s : State) : (sendOut o s).triad = s.triad := rfl
@[simp] theorem sendOut_pair (o : Out) (s : State) : (sendOut o s).pair = s.pair := rfl
@[simp] theorem sendOut_net (o : Out) (s : State) : (sendOut o s).net = s.net := rfl
@[simp] theorem sendOut_can (o : Out) (s : State) : (sendOut o s).can = s.can := rfl
@[simp] theorem sendOut_lcy (o : Out) (s : State) : (sendOut o s).lcy = s.lcy := rfl
@[simp] theorem sendOut_fwu (o : Out) (s : State) : (sendOut o s).fwu = s.fwu := rfl
@[simp] theorem sendOut_dbgData (o : Out) (s : State) : (sendOut o s).dbgData = s.dbgData := rfl
@[simp] theorem sendOut_fwPause (o : Out) (s : State) : (sendOut o s).fwPause = s.fwPause := rfl
@[simp] theorem sendOut_fwWait (o : Out) (s : State) : (sendOut o s).fwWait = s.fwWait := rfl
@[simp] theorem sendOut_sup (o : Out) (s : State) : (sendOut o s).sup = s.sup := rfl
@[simp] theorem sendOut_mpu (o : Out) (s : State) : (sendOut o s).mpu = s.mpu := rfl
@[simp] theorem sendOut_mailboxes (o : Out) (s : State) : (sendOut o s).mailboxes = s.mailboxes := rfl
@[simp] theorem sendOut_locks (o : Out) (s : State) : (sendOut o s).locks = s.locks := rfl
@[simp] theorem sendOut_queSeq (o : Out) (s : State) : (sendOut o s).queSeq = s.queSeq := rfl
@[simp] theorem mset_pending (a : Nat) (v : Byte) (s : State) : (mset a v s).pending = s.pending := rfl
@[simp] theorem mset_accMaster (a : Nat) (v : Byte) (s : State) : (mset a v s).accMaster = s.accMaster := rfl
@[simp] theorem mset_hostData (a : Nat) (v : Byte) (s : State) : (mset a v s).hostData = s.hostData := rfl
@[simp] theorem mset_hostBytes (a : Nat) (v : Byte) (s : State) : (mset a v s).hostBytes = s.hostBytes := rfl
@[simp] theorem mset_captured (a : Nat) (v : Byte) (s : State) : (mset a v s).captured = s.captured := rfl
@[simp] theorem mset_regs (a : Nat) (v : Byte) (s : State) : (mset a v s).regs = s.regs := rfl
@[simp] theorem mset_cycle (a : Nat) (v : Byte) (s : State) : (mset a v s).cycle = s.cycle := rfl
@[simp] theorem mset_mtime (a : Nat) (v : Byte) (s : State) : (mset a v s).mtime = s.mtime := rfl
@[simp] theorem mset_freeCtr (a : Nat) (v : Byte) (s : State) : (mset a v s).freeCtr = s.freeCtr := rfl
@[simp] theorem mset_strand (a : Nat) (v : Byte) (s : State) : (mset a v s).strand = s.strand := rfl
@[simp] theorem mset_backup (a : Nat) (v : Byte) (s : State) : (mset a v s).backup = s.backup := rfl
@[simp] theorem mset_tides (a : Nat) (v : Byte) (s : State) : (mset a v s).tides = s.tides := rfl
@[simp] theorem mset_tiFault (a : Nat) (v : Byte) (s : State) : (mset a v s).tiFault = s.tiFault := rfl
@[simp] theorem mset_tt (a : Nat) (v : Byte) (s : State) : (mset a v s).tt = s.tt := rfl
@[simp] theorem mset_ttOut (a : Nat) (v : Byte) (s : State) : (mset a v s).ttOut = s.ttOut := rfl
@[simp] theorem mset_ttFull (a : Nat) (v : Byte) (s : State) : (mset a v s).ttFull = s.ttFull := rfl
@[simp] theorem mset_seqs (a : Nat) (v : Byte) (s : State) : (mset a v s).seqs = s.seqs := rfl
@[simp] theorem mset_exe (a : Nat) (v : Byte) (s : State) : (mset a v s).exe = s.exe := rfl
@[simp] theorem mset_loop (a : Nat) (v : Byte) (s : State) : (mset a v s).loop = s.loop := rfl
@[simp] theorem mset_dio (a : Nat) (v : Byte) (s : State) : (mset a v s).dio = s.dio := rfl
@[simp] theorem mset_dioBank (a : Nat) (v : Byte) (s : State) : (mset a v s).dioBank = s.dioBank := rfl
@[simp] theorem mset_po (a : Nat) (v : Byte) (s : State) : (mset a v s).po = s.po := rfl
@[simp] theorem mset_terms (a : Nat) (v : Byte) (s : State) : (mset a v s).terms = s.terms := rfl
@[simp] theorem mset_rfxStopped (a : Nat) (v : Byte) (s : State) : (mset a v s).rfxStopped = s.rfxStopped := rfl
@[simp] theorem mset_an (a : Nat) (v : Byte) (s : State) : (mset a v s).an = s.an := rfl
@[simp] theorem mset_anBank (a : Nat) (v : Byte) (s : State) : (mset a v s).anBank = s.anBank := rfl
@[simp] theorem mset_saf (a : Nat) (v : Byte) (s : State) : (mset a v s).saf = s.saf := rfl
@[simp] theorem mset_triad (a : Nat) (v : Byte) (s : State) : (mset a v s).triad = s.triad := rfl
@[simp] theorem mset_pair (a : Nat) (v : Byte) (s : State) : (mset a v s).pair = s.pair := rfl
@[simp] theorem mset_net (a : Nat) (v : Byte) (s : State) : (mset a v s).net = s.net := rfl
@[simp] theorem mset_can (a : Nat) (v : Byte) (s : State) : (mset a v s).can = s.can := rfl
@[simp] theorem mset_lcy (a : Nat) (v : Byte) (s : State) : (mset a v s).lcy = s.lcy := rfl
@[simp] theorem mset_fwu (a : Nat) (v : Byte) (s : State) : (mset a v s).fwu = s.fwu := rfl
@[simp] theorem mset_dbgData (a : Nat) (v : Byte) (s : State) : (mset a v s).dbgData = s.dbgData := rfl
@[simp] theorem mset_fwPause (a : Nat) (v : Byte) (s : State) : (mset a v s).fwPause = s.fwPause := rfl
@[simp] theorem mset_fwWait (a : Nat) (v : Byte) (s : State) : (mset a v s).fwWait = s.fwWait := rfl
@[simp] theorem mset_sup (a : Nat) (v : Byte) (s : State) : (mset a v s).sup = s.sup := rfl
@[simp] theorem mset_mpu (a : Nat) (v : Byte) (s : State) : (mset a v s).mpu = s.mpu := rfl
@[simp] theorem mset_mailboxes (a : Nat) (v : Byte) (s : State) : (mset a v s).mailboxes = s.mailboxes := rfl
@[simp] theorem mset_locks (a : Nat) (v : Byte) (s : State) : (mset a v s).locks = s.locks := rfl
@[simp] theorem mset_queSeq (a : Nat) (v : Byte) (s : State) : (mset a v s).queSeq = s.queSeq := rfl
@[simp] theorem mset_out (a : Nat) (v : Byte) (s : State) : (mset a v s).out = s.out := rfl
@[simp] theorem raise_pending (v a : Nat) (m : Word) (s : State) : (raise v a m s).pending = s.pending := by
  unfold raise withIrq; dsimp only; split <;> rfl
@[simp] theorem raise_accMaster (v a : Nat) (m : Word) (s : State) : (raise v a m s).accMaster = s.accMaster := by
  unfold raise withIrq; dsimp only; split <;> rfl
@[simp] theorem raise_hostData (v a : Nat) (m : Word) (s : State) : (raise v a m s).hostData = s.hostData := by
  unfold raise withIrq; dsimp only; split <;> rfl
@[simp] theorem raise_hostBytes (v a : Nat) (m : Word) (s : State) : (raise v a m s).hostBytes = s.hostBytes := by
  unfold raise withIrq; dsimp only; split <;> rfl
@[simp] theorem raise_captured (v a : Nat) (m : Word) (s : State) : (raise v a m s).captured = s.captured := by
  unfold raise withIrq; dsimp only; split <;> rfl
@[simp] theorem raise_cycle (v a : Nat) (m : Word) (s : State) : (raise v a m s).cycle = s.cycle := by
  unfold raise withIrq; dsimp only; split <;> rfl
@[simp] theorem raise_mtime (v a : Nat) (m : Word) (s : State) : (raise v a m s).mtime = s.mtime := by
  unfold raise withIrq; dsimp only; split <;> rfl
@[simp] theorem raise_freeCtr (v a : Nat) (m : Word) (s : State) : (raise v a m s).freeCtr = s.freeCtr := by
  unfold raise withIrq; dsimp only; split <;> rfl
@[simp] theorem raise_mem (v a : Nat) (m : Word) (s : State) : (raise v a m s).mem = s.mem := by
  unfold raise withIrq; dsimp only; split <;> rfl
@[simp] theorem raise_strand (v a : Nat) (m : Word) (s : State) : (raise v a m s).strand = s.strand := by
  unfold raise withIrq; dsimp only; split <;> rfl
@[simp] theorem raise_backup (v a : Nat) (m : Word) (s : State) : (raise v a m s).backup = s.backup := by
  unfold raise withIrq; dsimp only; split <;> rfl
@[simp] theorem raise_tides (v a : Nat) (m : Word) (s : State) : (raise v a m s).tides = s.tides := by
  unfold raise withIrq; dsimp only; split <;> rfl
@[simp] theorem raise_tiFault (v a : Nat) (m : Word) (s : State) : (raise v a m s).tiFault = s.tiFault := by
  unfold raise withIrq; dsimp only; split <;> rfl
@[simp] theorem raise_tt (v a : Nat) (m : Word) (s : State) : (raise v a m s).tt = s.tt := by
  unfold raise withIrq; dsimp only; split <;> rfl
@[simp] theorem raise_ttOut (v a : Nat) (m : Word) (s : State) : (raise v a m s).ttOut = s.ttOut := by
  unfold raise withIrq; dsimp only; split <;> rfl
@[simp] theorem raise_ttFull (v a : Nat) (m : Word) (s : State) : (raise v a m s).ttFull = s.ttFull := by
  unfold raise withIrq; dsimp only; split <;> rfl
@[simp] theorem raise_seqs (v a : Nat) (m : Word) (s : State) : (raise v a m s).seqs = s.seqs := by
  unfold raise withIrq; dsimp only; split <;> rfl
@[simp] theorem raise_exe (v a : Nat) (m : Word) (s : State) : (raise v a m s).exe = s.exe := by
  unfold raise withIrq; dsimp only; split <;> rfl
@[simp] theorem raise_loop (v a : Nat) (m : Word) (s : State) : (raise v a m s).loop = s.loop := by
  unfold raise withIrq; dsimp only; split <;> rfl
@[simp] theorem raise_dio (v a : Nat) (m : Word) (s : State) : (raise v a m s).dio = s.dio := by
  unfold raise withIrq; dsimp only; split <;> rfl
@[simp] theorem raise_dioBank (v a : Nat) (m : Word) (s : State) : (raise v a m s).dioBank = s.dioBank := by
  unfold raise withIrq; dsimp only; split <;> rfl
@[simp] theorem raise_po (v a : Nat) (m : Word) (s : State) : (raise v a m s).po = s.po := by
  unfold raise withIrq; dsimp only; split <;> rfl
@[simp] theorem raise_terms (v a : Nat) (m : Word) (s : State) : (raise v a m s).terms = s.terms := by
  unfold raise withIrq; dsimp only; split <;> rfl
@[simp] theorem raise_rfxStopped (v a : Nat) (m : Word) (s : State) : (raise v a m s).rfxStopped = s.rfxStopped := by
  unfold raise withIrq; dsimp only; split <;> rfl
@[simp] theorem raise_an (v a : Nat) (m : Word) (s : State) : (raise v a m s).an = s.an := by
  unfold raise withIrq; dsimp only; split <;> rfl
@[simp] theorem raise_anBank (v a : Nat) (m : Word) (s : State) : (raise v a m s).anBank = s.anBank := by
  unfold raise withIrq; dsimp only; split <;> rfl
@[simp] theorem raise_saf (v a : Nat) (m : Word) (s : State) : (raise v a m s).saf = s.saf := by
  unfold raise withIrq; dsimp only; split <;> rfl
@[simp] theorem raise_triad (v a : Nat) (m : Word) (s : State) : (raise v a m s).triad = s.triad := by
  unfold raise withIrq; dsimp only; split <;> rfl
@[simp] theorem raise_pair (v a : Nat) (m : Word) (s : State) : (raise v a m s).pair = s.pair := by
  unfold raise withIrq; dsimp only; split <;> rfl
@[simp] theorem raise_net (v a : Nat) (m : Word) (s : State) : (raise v a m s).net = s.net := by
  unfold raise withIrq; dsimp only; split <;> rfl
@[simp] theorem raise_can (v a : Nat) (m : Word) (s : State) : (raise v a m s).can = s.can := by
  unfold raise withIrq; dsimp only; split <;> rfl
@[simp] theorem raise_lcy (v a : Nat) (m : Word) (s : State) : (raise v a m s).lcy = s.lcy := by
  unfold raise withIrq; dsimp only; split <;> rfl
@[simp] theorem raise_fwu (v a : Nat) (m : Word) (s : State) : (raise v a m s).fwu = s.fwu := by
  unfold raise withIrq; dsimp only; split <;> rfl
@[simp] theorem raise_dbgData (v a : Nat) (m : Word) (s : State) : (raise v a m s).dbgData = s.dbgData := by
  unfold raise withIrq; dsimp only; split <;> rfl
@[simp] theorem raise_fwPause (v a : Nat) (m : Word) (s : State) : (raise v a m s).fwPause = s.fwPause := by
  unfold raise withIrq; dsimp only; split <;> rfl
@[simp] theorem raise_fwWait (v a : Nat) (m : Word) (s : State) : (raise v a m s).fwWait = s.fwWait := by
  unfold raise withIrq; dsimp only; split <;> rfl
@[simp] theorem raise_sup (v a : Nat) (m : Word) (s : State) : (raise v a m s).sup = s.sup := by
  unfold raise withIrq; dsimp only; split <;> rfl
@[simp] theorem raise_mpu (v a : Nat) (m : Word) (s : State) : (raise v a m s).mpu = s.mpu := by
  unfold raise withIrq; dsimp only; split <;> rfl
@[simp] theorem raise_mailboxes (v a : Nat) (m : Word) (s : State) : (raise v a m s).mailboxes = s.mailboxes := by
  unfold raise withIrq; dsimp only; split <;> rfl
@[simp] theorem raise_locks (v a : Nat) (m : Word) (s : State) : (raise v a m s).locks = s.locks := by
  unfold raise withIrq; dsimp only; split <;> rfl
@[simp] theorem raise_queSeq (v a : Nat) (m : Word) (s : State) : (raise v a m s).queSeq = s.queSeq := by
  unfold raise withIrq; dsimp only; split <;> rfl
@[simp] theorem raiseF_pending (v : Nat) (g : RegField) (s : State) : (raiseF v g s).pending = s.pending := by
  unfold raiseF raise withIrq; dsimp only; split <;> rfl
@[simp] theorem raiseF_accMaster (v : Nat) (g : RegField) (s : State) : (raiseF v g s).accMaster = s.accMaster := by
  unfold raiseF raise withIrq; dsimp only; split <;> rfl
@[simp] theorem raiseF_hostData (v : Nat) (g : RegField) (s : State) : (raiseF v g s).hostData = s.hostData := by
  unfold raiseF raise withIrq; dsimp only; split <;> rfl
@[simp] theorem raiseF_hostBytes (v : Nat) (g : RegField) (s : State) : (raiseF v g s).hostBytes = s.hostBytes := by
  unfold raiseF raise withIrq; dsimp only; split <;> rfl
@[simp] theorem raiseF_captured (v : Nat) (g : RegField) (s : State) : (raiseF v g s).captured = s.captured := by
  unfold raiseF raise withIrq; dsimp only; split <;> rfl
@[simp] theorem raiseF_cycle (v : Nat) (g : RegField) (s : State) : (raiseF v g s).cycle = s.cycle := by
  unfold raiseF raise withIrq; dsimp only; split <;> rfl
@[simp] theorem raiseF_mtime (v : Nat) (g : RegField) (s : State) : (raiseF v g s).mtime = s.mtime := by
  unfold raiseF raise withIrq; dsimp only; split <;> rfl
@[simp] theorem raiseF_freeCtr (v : Nat) (g : RegField) (s : State) : (raiseF v g s).freeCtr = s.freeCtr := by
  unfold raiseF raise withIrq; dsimp only; split <;> rfl
@[simp] theorem raiseF_mem (v : Nat) (g : RegField) (s : State) : (raiseF v g s).mem = s.mem := by
  unfold raiseF raise withIrq; dsimp only; split <;> rfl
@[simp] theorem raiseF_strand (v : Nat) (g : RegField) (s : State) : (raiseF v g s).strand = s.strand := by
  unfold raiseF raise withIrq; dsimp only; split <;> rfl
@[simp] theorem raiseF_backup (v : Nat) (g : RegField) (s : State) : (raiseF v g s).backup = s.backup := by
  unfold raiseF raise withIrq; dsimp only; split <;> rfl
@[simp] theorem raiseF_tides (v : Nat) (g : RegField) (s : State) : (raiseF v g s).tides = s.tides := by
  unfold raiseF raise withIrq; dsimp only; split <;> rfl
@[simp] theorem raiseF_tiFault (v : Nat) (g : RegField) (s : State) : (raiseF v g s).tiFault = s.tiFault := by
  unfold raiseF raise withIrq; dsimp only; split <;> rfl
@[simp] theorem raiseF_tt (v : Nat) (g : RegField) (s : State) : (raiseF v g s).tt = s.tt := by
  unfold raiseF raise withIrq; dsimp only; split <;> rfl
@[simp] theorem raiseF_ttOut (v : Nat) (g : RegField) (s : State) : (raiseF v g s).ttOut = s.ttOut := by
  unfold raiseF raise withIrq; dsimp only; split <;> rfl
@[simp] theorem raiseF_ttFull (v : Nat) (g : RegField) (s : State) : (raiseF v g s).ttFull = s.ttFull := by
  unfold raiseF raise withIrq; dsimp only; split <;> rfl
@[simp] theorem raiseF_seqs (v : Nat) (g : RegField) (s : State) : (raiseF v g s).seqs = s.seqs := by
  unfold raiseF raise withIrq; dsimp only; split <;> rfl
@[simp] theorem raiseF_exe (v : Nat) (g : RegField) (s : State) : (raiseF v g s).exe = s.exe := by
  unfold raiseF raise withIrq; dsimp only; split <;> rfl
@[simp] theorem raiseF_loop (v : Nat) (g : RegField) (s : State) : (raiseF v g s).loop = s.loop := by
  unfold raiseF raise withIrq; dsimp only; split <;> rfl
@[simp] theorem raiseF_dio (v : Nat) (g : RegField) (s : State) : (raiseF v g s).dio = s.dio := by
  unfold raiseF raise withIrq; dsimp only; split <;> rfl
@[simp] theorem raiseF_dioBank (v : Nat) (g : RegField) (s : State) : (raiseF v g s).dioBank = s.dioBank := by
  unfold raiseF raise withIrq; dsimp only; split <;> rfl
@[simp] theorem raiseF_po (v : Nat) (g : RegField) (s : State) : (raiseF v g s).po = s.po := by
  unfold raiseF raise withIrq; dsimp only; split <;> rfl
@[simp] theorem raiseF_terms (v : Nat) (g : RegField) (s : State) : (raiseF v g s).terms = s.terms := by
  unfold raiseF raise withIrq; dsimp only; split <;> rfl
@[simp] theorem raiseF_rfxStopped (v : Nat) (g : RegField) (s : State) : (raiseF v g s).rfxStopped = s.rfxStopped := by
  unfold raiseF raise withIrq; dsimp only; split <;> rfl
@[simp] theorem raiseF_an (v : Nat) (g : RegField) (s : State) : (raiseF v g s).an = s.an := by
  unfold raiseF raise withIrq; dsimp only; split <;> rfl
@[simp] theorem raiseF_anBank (v : Nat) (g : RegField) (s : State) : (raiseF v g s).anBank = s.anBank := by
  unfold raiseF raise withIrq; dsimp only; split <;> rfl
@[simp] theorem raiseF_saf (v : Nat) (g : RegField) (s : State) : (raiseF v g s).saf = s.saf := by
  unfold raiseF raise withIrq; dsimp only; split <;> rfl
@[simp] theorem raiseF_triad (v : Nat) (g : RegField) (s : State) : (raiseF v g s).triad = s.triad := by
  unfold raiseF raise withIrq; dsimp only; split <;> rfl
@[simp] theorem raiseF_pair (v : Nat) (g : RegField) (s : State) : (raiseF v g s).pair = s.pair := by
  unfold raiseF raise withIrq; dsimp only; split <;> rfl
@[simp] theorem raiseF_net (v : Nat) (g : RegField) (s : State) : (raiseF v g s).net = s.net := by
  unfold raiseF raise withIrq; dsimp only; split <;> rfl
@[simp] theorem raiseF_can (v : Nat) (g : RegField) (s : State) : (raiseF v g s).can = s.can := by
  unfold raiseF raise withIrq; dsimp only; split <;> rfl
@[simp] theorem raiseF_lcy (v : Nat) (g : RegField) (s : State) : (raiseF v g s).lcy = s.lcy := by
  unfold raiseF raise withIrq; dsimp only; split <;> rfl
@[simp] theorem raiseF_fwu (v : Nat) (g : RegField) (s : State) : (raiseF v g s).fwu = s.fwu := by
  unfold raiseF raise withIrq; dsimp only; split <;> rfl
@[simp] theorem raiseF_dbgData (v : Nat) (g : RegField) (s : State) : (raiseF v g s).dbgData = s.dbgData := by
  unfold raiseF raise withIrq; dsimp only; split <;> rfl
@[simp] theorem raiseF_fwPause (v : Nat) (g : RegField) (s : State) : (raiseF v g s).fwPause = s.fwPause := by
  unfold raiseF raise withIrq; dsimp only; split <;> rfl
@[simp] theorem raiseF_fwWait (v : Nat) (g : RegField) (s : State) : (raiseF v g s).fwWait = s.fwWait := by
  unfold raiseF raise withIrq; dsimp only; split <;> rfl
@[simp] theorem raiseF_sup (v : Nat) (g : RegField) (s : State) : (raiseF v g s).sup = s.sup := by
  unfold raiseF raise withIrq; dsimp only; split <;> rfl
@[simp] theorem raiseF_mpu (v : Nat) (g : RegField) (s : State) : (raiseF v g s).mpu = s.mpu := by
  unfold raiseF raise withIrq; dsimp only; split <;> rfl
@[simp] theorem raiseF_mailboxes (v : Nat) (g : RegField) (s : State) : (raiseF v g s).mailboxes = s.mailboxes := by
  unfold raiseF raise withIrq; dsimp only; split <;> rfl
@[simp] theorem raiseF_locks (v : Nat) (g : RegField) (s : State) : (raiseF v g s).locks = s.locks := by
  unfold raiseF raise withIrq; dsimp only; split <;> rfl
@[simp] theorem raiseF_queSeq (v : Nat) (g : RegField) (s : State) : (raiseF v g s).queSeq = s.queSeq := by
  unfold raiseF raise withIrq; dsimp only; split <;> rfl
@[simp] theorem raiseBit_pending (v : Nat) (g : RegField) (i : Nat) (s : State) : (raiseBit v g i s).pending = s.pending := by
  unfold raiseBit raise withIrq; dsimp only; split <;> rfl
@[simp] theorem raiseBit_accMaster (v : Nat) (g : RegField) (i : Nat) (s : State) : (raiseBit v g i s).accMaster = s.accMaster := by
  unfold raiseBit raise withIrq; dsimp only; split <;> rfl
@[simp] theorem raiseBit_hostData (v : Nat) (g : RegField) (i : Nat) (s : State) : (raiseBit v g i s).hostData = s.hostData := by
  unfold raiseBit raise withIrq; dsimp only; split <;> rfl
@[simp] theorem raiseBit_hostBytes (v : Nat) (g : RegField) (i : Nat) (s : State) : (raiseBit v g i s).hostBytes = s.hostBytes := by
  unfold raiseBit raise withIrq; dsimp only; split <;> rfl
@[simp] theorem raiseBit_captured (v : Nat) (g : RegField) (i : Nat) (s : State) : (raiseBit v g i s).captured = s.captured := by
  unfold raiseBit raise withIrq; dsimp only; split <;> rfl
@[simp] theorem raiseBit_cycle (v : Nat) (g : RegField) (i : Nat) (s : State) : (raiseBit v g i s).cycle = s.cycle := by
  unfold raiseBit raise withIrq; dsimp only; split <;> rfl
@[simp] theorem raiseBit_mtime (v : Nat) (g : RegField) (i : Nat) (s : State) : (raiseBit v g i s).mtime = s.mtime := by
  unfold raiseBit raise withIrq; dsimp only; split <;> rfl
@[simp] theorem raiseBit_freeCtr (v : Nat) (g : RegField) (i : Nat) (s : State) : (raiseBit v g i s).freeCtr = s.freeCtr := by
  unfold raiseBit raise withIrq; dsimp only; split <;> rfl
@[simp] theorem raiseBit_mem (v : Nat) (g : RegField) (i : Nat) (s : State) : (raiseBit v g i s).mem = s.mem := by
  unfold raiseBit raise withIrq; dsimp only; split <;> rfl
@[simp] theorem raiseBit_strand (v : Nat) (g : RegField) (i : Nat) (s : State) : (raiseBit v g i s).strand = s.strand := by
  unfold raiseBit raise withIrq; dsimp only; split <;> rfl
@[simp] theorem raiseBit_backup (v : Nat) (g : RegField) (i : Nat) (s : State) : (raiseBit v g i s).backup = s.backup := by
  unfold raiseBit raise withIrq; dsimp only; split <;> rfl
@[simp] theorem raiseBit_tides (v : Nat) (g : RegField) (i : Nat) (s : State) : (raiseBit v g i s).tides = s.tides := by
  unfold raiseBit raise withIrq; dsimp only; split <;> rfl
@[simp] theorem raiseBit_tiFault (v : Nat) (g : RegField) (i : Nat) (s : State) : (raiseBit v g i s).tiFault = s.tiFault := by
  unfold raiseBit raise withIrq; dsimp only; split <;> rfl
@[simp] theorem raiseBit_tt (v : Nat) (g : RegField) (i : Nat) (s : State) : (raiseBit v g i s).tt = s.tt := by
  unfold raiseBit raise withIrq; dsimp only; split <;> rfl
@[simp] theorem raiseBit_ttOut (v : Nat) (g : RegField) (i : Nat) (s : State) : (raiseBit v g i s).ttOut = s.ttOut := by
  unfold raiseBit raise withIrq; dsimp only; split <;> rfl
@[simp] theorem raiseBit_ttFull (v : Nat) (g : RegField) (i : Nat) (s : State) : (raiseBit v g i s).ttFull = s.ttFull := by
  unfold raiseBit raise withIrq; dsimp only; split <;> rfl
@[simp] theorem raiseBit_seqs (v : Nat) (g : RegField) (i : Nat) (s : State) : (raiseBit v g i s).seqs = s.seqs := by
  unfold raiseBit raise withIrq; dsimp only; split <;> rfl
@[simp] theorem raiseBit_exe (v : Nat) (g : RegField) (i : Nat) (s : State) : (raiseBit v g i s).exe = s.exe := by
  unfold raiseBit raise withIrq; dsimp only; split <;> rfl
@[simp] theorem raiseBit_loop (v : Nat) (g : RegField) (i : Nat) (s : State) : (raiseBit v g i s).loop = s.loop := by
  unfold raiseBit raise withIrq; dsimp only; split <;> rfl
@[simp] theorem raiseBit_dio (v : Nat) (g : RegField) (i : Nat) (s : State) : (raiseBit v g i s).dio = s.dio := by
  unfold raiseBit raise withIrq; dsimp only; split <;> rfl
@[simp] theorem raiseBit_dioBank (v : Nat) (g : RegField) (i : Nat) (s : State) : (raiseBit v g i s).dioBank = s.dioBank := by
  unfold raiseBit raise withIrq; dsimp only; split <;> rfl
@[simp] theorem raiseBit_po (v : Nat) (g : RegField) (i : Nat) (s : State) : (raiseBit v g i s).po = s.po := by
  unfold raiseBit raise withIrq; dsimp only; split <;> rfl
@[simp] theorem raiseBit_terms (v : Nat) (g : RegField) (i : Nat) (s : State) : (raiseBit v g i s).terms = s.terms := by
  unfold raiseBit raise withIrq; dsimp only; split <;> rfl
@[simp] theorem raiseBit_rfxStopped (v : Nat) (g : RegField) (i : Nat) (s : State) : (raiseBit v g i s).rfxStopped = s.rfxStopped := by
  unfold raiseBit raise withIrq; dsimp only; split <;> rfl
@[simp] theorem raiseBit_an (v : Nat) (g : RegField) (i : Nat) (s : State) : (raiseBit v g i s).an = s.an := by
  unfold raiseBit raise withIrq; dsimp only; split <;> rfl
@[simp] theorem raiseBit_anBank (v : Nat) (g : RegField) (i : Nat) (s : State) : (raiseBit v g i s).anBank = s.anBank := by
  unfold raiseBit raise withIrq; dsimp only; split <;> rfl
@[simp] theorem raiseBit_saf (v : Nat) (g : RegField) (i : Nat) (s : State) : (raiseBit v g i s).saf = s.saf := by
  unfold raiseBit raise withIrq; dsimp only; split <;> rfl
@[simp] theorem raiseBit_triad (v : Nat) (g : RegField) (i : Nat) (s : State) : (raiseBit v g i s).triad = s.triad := by
  unfold raiseBit raise withIrq; dsimp only; split <;> rfl
@[simp] theorem raiseBit_pair (v : Nat) (g : RegField) (i : Nat) (s : State) : (raiseBit v g i s).pair = s.pair := by
  unfold raiseBit raise withIrq; dsimp only; split <;> rfl
@[simp] theorem raiseBit_net (v : Nat) (g : RegField) (i : Nat) (s : State) : (raiseBit v g i s).net = s.net := by
  unfold raiseBit raise withIrq; dsimp only; split <;> rfl
@[simp] theorem raiseBit_can (v : Nat) (g : RegField) (i : Nat) (s : State) : (raiseBit v g i s).can = s.can := by
  unfold raiseBit raise withIrq; dsimp only; split <;> rfl
@[simp] theorem raiseBit_lcy (v : Nat) (g : RegField) (i : Nat) (s : State) : (raiseBit v g i s).lcy = s.lcy := by
  unfold raiseBit raise withIrq; dsimp only; split <;> rfl
@[simp] theorem raiseBit_fwu (v : Nat) (g : RegField) (i : Nat) (s : State) : (raiseBit v g i s).fwu = s.fwu := by
  unfold raiseBit raise withIrq; dsimp only; split <;> rfl
@[simp] theorem raiseBit_dbgData (v : Nat) (g : RegField) (i : Nat) (s : State) : (raiseBit v g i s).dbgData = s.dbgData := by
  unfold raiseBit raise withIrq; dsimp only; split <;> rfl
@[simp] theorem raiseBit_fwPause (v : Nat) (g : RegField) (i : Nat) (s : State) : (raiseBit v g i s).fwPause = s.fwPause := by
  unfold raiseBit raise withIrq; dsimp only; split <;> rfl
@[simp] theorem raiseBit_fwWait (v : Nat) (g : RegField) (i : Nat) (s : State) : (raiseBit v g i s).fwWait = s.fwWait := by
  unfold raiseBit raise withIrq; dsimp only; split <;> rfl
@[simp] theorem raiseBit_sup (v : Nat) (g : RegField) (i : Nat) (s : State) : (raiseBit v g i s).sup = s.sup := by
  unfold raiseBit raise withIrq; dsimp only; split <;> rfl
@[simp] theorem raiseBit_mpu (v : Nat) (g : RegField) (i : Nat) (s : State) : (raiseBit v g i s).mpu = s.mpu := by
  unfold raiseBit raise withIrq; dsimp only; split <;> rfl
@[simp] theorem raiseBit_mailboxes (v : Nat) (g : RegField) (i : Nat) (s : State) : (raiseBit v g i s).mailboxes = s.mailboxes := by
  unfold raiseBit raise withIrq; dsimp only; split <;> rfl
@[simp] theorem raiseBit_locks (v : Nat) (g : RegField) (i : Nat) (s : State) : (raiseBit v g i s).locks = s.locks := by
  unfold raiseBit raise withIrq; dsimp only; split <;> rfl
@[simp] theorem raiseBit_queSeq (v : Nat) (g : RegField) (i : Nat) (s : State) : (raiseBit v g i s).queSeq = s.queSeq := by
  unfold raiseBit raise withIrq; dsimp only; split <;> rfl
@[simp] theorem strEvent_pending (g : RegField) (s : State) : (strEvent g s).pending = s.pending :=
  ((strEvent_does (A := [.strand, .out]) g s (Does.refl _ _) rfl).only .pending rfl)
@[simp] theorem strEvent_accMaster (g : RegField) (s : State) : (strEvent g s).accMaster = s.accMaster :=
  ((strEvent_does (A := [.strand, .out]) g s (Does.refl _ _) rfl).only .master rfl)
@[simp] theorem strEvent_hostData (g : RegField) (s : State) : (strEvent g s).hostData = s.hostData :=
  ((strEvent_does (A := [.strand, .out]) g s (Does.refl _ _) rfl).only .host rfl).1
@[simp] theorem strEvent_hostBytes (g : RegField) (s : State) : (strEvent g s).hostBytes = s.hostBytes :=
  ((strEvent_does (A := [.strand, .out]) g s (Does.refl _ _) rfl).only .host rfl).2.1
@[simp] theorem strEvent_captured (g : RegField) (s : State) : (strEvent g s).captured = s.captured :=
  ((strEvent_does (A := [.strand, .out]) g s (Does.refl _ _) rfl).only .host rfl).2.2.1
@[simp] theorem strEvent_cycle (g : RegField) (s : State) : (strEvent g s).cycle = s.cycle :=
  ((strEvent_does (A := [.strand, .out]) g s (Does.refl _ _) rfl).only .time rfl).1
@[simp] theorem strEvent_mtime (g : RegField) (s : State) : (strEvent g s).mtime = s.mtime :=
  ((strEvent_does (A := [.strand, .out]) g s (Does.refl _ _) rfl).only .time rfl).2
@[simp] theorem strEvent_freeCtr (g : RegField) (s : State) : (strEvent g s).freeCtr = s.freeCtr :=
  ((strEvent_does (A := [.strand, .out]) g s (Does.refl _ _) rfl).only .free rfl)
@[simp] theorem strEvent_mem (g : RegField) (s : State) : (strEvent g s).mem = s.mem :=
  ((strEvent_does (A := [.strand, .out]) g s (Does.refl _ _) rfl).only .mem rfl)
@[simp] theorem strEvent_backup (g : RegField) (s : State) : (strEvent g s).backup = s.backup :=
  ((strEvent_does (A := [.strand, .out]) g s (Does.refl _ _) rfl).only .backup rfl)
@[simp] theorem strEvent_tides (g : RegField) (s : State) : (strEvent g s).tides = s.tides :=
  ((strEvent_does (A := [.strand, .out]) g s (Does.refl _ _) rfl).only .tides rfl).1
@[simp] theorem strEvent_tiFault (g : RegField) (s : State) : (strEvent g s).tiFault = s.tiFault :=
  ((strEvent_does (A := [.strand, .out]) g s (Does.refl _ _) rfl).only .tides rfl).2
@[simp] theorem strEvent_tt (g : RegField) (s : State) : (strEvent g s).tt = s.tt :=
  ((strEvent_does (A := [.strand, .out]) g s (Does.refl _ _) rfl).only .tideTable rfl).1
@[simp] theorem strEvent_ttOut (g : RegField) (s : State) : (strEvent g s).ttOut = s.ttOut :=
  ((strEvent_does (A := [.strand, .out]) g s (Does.refl _ _) rfl).only .tideTable rfl).2.1
@[simp] theorem strEvent_ttFull (g : RegField) (s : State) : (strEvent g s).ttFull = s.ttFull :=
  ((strEvent_does (A := [.strand, .out]) g s (Does.refl _ _) rfl).only .tideTable rfl).2.2
@[simp] theorem strEvent_seqs (g : RegField) (s : State) : (strEvent g s).seqs = s.seqs :=
  ((strEvent_does (A := [.strand, .out]) g s (Does.refl _ _) rfl).only .seqs rfl)
@[simp] theorem strEvent_exe (g : RegField) (s : State) : (strEvent g s).exe = s.exe :=
  ((strEvent_does (A := [.strand, .out]) g s (Does.refl _ _) rfl).only .exe rfl)
@[simp] theorem strEvent_loop (g : RegField) (s : State) : (strEvent g s).loop = s.loop :=
  ((strEvent_does (A := [.strand, .out]) g s (Does.refl _ _) rfl).only .loop rfl)
@[simp] theorem strEvent_dio (g : RegField) (s : State) : (strEvent g s).dio = s.dio :=
  ((strEvent_does (A := [.strand, .out]) g s (Does.refl _ _) rfl).only .dio rfl).1
@[simp] theorem strEvent_dioBank (g : RegField) (s : State) : (strEvent g s).dioBank = s.dioBank :=
  ((strEvent_does (A := [.strand, .out]) g s (Does.refl _ _) rfl).only .dio rfl).2.1
@[simp] theorem strEvent_po (g : RegField) (s : State) : (strEvent g s).po = s.po :=
  ((strEvent_does (A := [.strand, .out]) g s (Does.refl _ _) rfl).only .dio rfl).2.2
@[simp] theorem strEvent_terms (g : RegField) (s : State) : (strEvent g s).terms = s.terms :=
  ((strEvent_does (A := [.strand, .out]) g s (Does.refl _ _) rfl).only .rfx rfl).1
@[simp] theorem strEvent_rfxStopped (g : RegField) (s : State) : (strEvent g s).rfxStopped = s.rfxStopped :=
  ((strEvent_does (A := [.strand, .out]) g s (Does.refl _ _) rfl).only .rfx rfl).2
@[simp] theorem strEvent_an (g : RegField) (s : State) : (strEvent g s).an = s.an :=
  ((strEvent_does (A := [.strand, .out]) g s (Does.refl _ _) rfl).only .ana rfl).1
@[simp] theorem strEvent_anBank (g : RegField) (s : State) : (strEvent g s).anBank = s.anBank :=
  ((strEvent_does (A := [.strand, .out]) g s (Does.refl _ _) rfl).only .ana rfl).2
@[simp] theorem strEvent_saf (g : RegField) (s : State) : (strEvent g s).saf = s.saf :=
  ((strEvent_does (A := [.strand, .out]) g s (Does.refl _ _) rfl).only .saf rfl)
@[simp] theorem strEvent_triad (g : RegField) (s : State) : (strEvent g s).triad = s.triad :=
  ((strEvent_does (A := [.strand, .out]) g s (Does.refl _ _) rfl).only .triad rfl)
@[simp] theorem strEvent_pair (g : RegField) (s : State) : (strEvent g s).pair = s.pair :=
  ((strEvent_does (A := [.strand, .out]) g s (Does.refl _ _) rfl).only .pair rfl)
@[simp] theorem strEvent_net (g : RegField) (s : State) : (strEvent g s).net = s.net :=
  ((strEvent_does (A := [.strand, .out]) g s (Does.refl _ _) rfl).only .net rfl)
@[simp] theorem strEvent_can (g : RegField) (s : State) : (strEvent g s).can = s.can :=
  ((strEvent_does (A := [.strand, .out]) g s (Does.refl _ _) rfl).only .can rfl)
@[simp] theorem strEvent_lcy (g : RegField) (s : State) : (strEvent g s).lcy = s.lcy :=
  ((strEvent_does (A := [.strand, .out]) g s (Does.refl _ _) rfl).only .lcy rfl)
@[simp] theorem strEvent_fwu (g : RegField) (s : State) : (strEvent g s).fwu = s.fwu :=
  ((strEvent_does (A := [.strand, .out]) g s (Does.refl _ _) rfl).only .fwu rfl).1
@[simp] theorem strEvent_dbgData (g : RegField) (s : State) : (strEvent g s).dbgData = s.dbgData :=
  ((strEvent_does (A := [.strand, .out]) g s (Does.refl _ _) rfl).only .host rfl).2.2.2
@[simp] theorem strEvent_fwPause (g : RegField) (s : State) : (strEvent g s).fwPause = s.fwPause :=
  ((strEvent_does (A := [.strand, .out]) g s (Does.refl _ _) rfl).only .fwu rfl).2.1
@[simp] theorem strEvent_fwWait (g : RegField) (s : State) : (strEvent g s).fwWait = s.fwWait :=
  ((strEvent_does (A := [.strand, .out]) g s (Does.refl _ _) rfl).only .fwu rfl).2.2
@[simp] theorem strEvent_sup (g : RegField) (s : State) : (strEvent g s).sup = s.sup :=
  ((strEvent_does (A := [.strand, .out]) g s (Does.refl _ _) rfl).only .sup rfl)
@[simp] theorem strEvent_mpu (g : RegField) (s : State) : (strEvent g s).mpu = s.mpu :=
  ((strEvent_does (A := [.strand, .out]) g s (Does.refl _ _) rfl).only .mpu rfl)
@[simp] theorem strEvent_mailboxes (g : RegField) (s : State) : (strEvent g s).mailboxes = s.mailboxes :=
  ((strEvent_does (A := [.strand, .out]) g s (Does.refl _ _) rfl).only .mbx rfl).1
@[simp] theorem strEvent_locks (g : RegField) (s : State) : (strEvent g s).locks = s.locks :=
  ((strEvent_does (A := [.strand, .out]) g s (Does.refl _ _) rfl).only .mbx rfl).2
@[simp] theorem strEvent_queSeq (g : RegField) (s : State) : (strEvent g s).queSeq = s.queSeq :=
  ((strEvent_does (A := [.strand, .out]) g s (Does.refl _ _) rfl).only .queSeq rfl)
@[simp] theorem present_pending (r : StrRec) (s : State) : (present r s).pending = s.pending :=
  ((present_does (A := [.strand, .out]) r s (Does.refl _ _) rfl).only .pending rfl)
@[simp] theorem present_accMaster (r : StrRec) (s : State) : (present r s).accMaster = s.accMaster :=
  ((present_does (A := [.strand, .out]) r s (Does.refl _ _) rfl).only .master rfl)
@[simp] theorem present_hostData (r : StrRec) (s : State) : (present r s).hostData = s.hostData :=
  ((present_does (A := [.strand, .out]) r s (Does.refl _ _) rfl).only .host rfl).1
@[simp] theorem present_hostBytes (r : StrRec) (s : State) : (present r s).hostBytes = s.hostBytes :=
  ((present_does (A := [.strand, .out]) r s (Does.refl _ _) rfl).only .host rfl).2.1
@[simp] theorem present_captured (r : StrRec) (s : State) : (present r s).captured = s.captured :=
  ((present_does (A := [.strand, .out]) r s (Does.refl _ _) rfl).only .host rfl).2.2.1
@[simp] theorem present_cycle (r : StrRec) (s : State) : (present r s).cycle = s.cycle :=
  ((present_does (A := [.strand, .out]) r s (Does.refl _ _) rfl).only .time rfl).1
@[simp] theorem present_mtime (r : StrRec) (s : State) : (present r s).mtime = s.mtime :=
  ((present_does (A := [.strand, .out]) r s (Does.refl _ _) rfl).only .time rfl).2
@[simp] theorem present_freeCtr (r : StrRec) (s : State) : (present r s).freeCtr = s.freeCtr :=
  ((present_does (A := [.strand, .out]) r s (Does.refl _ _) rfl).only .free rfl)
@[simp] theorem present_mem (r : StrRec) (s : State) : (present r s).mem = s.mem :=
  ((present_does (A := [.strand, .out]) r s (Does.refl _ _) rfl).only .mem rfl)
@[simp] theorem present_backup (r : StrRec) (s : State) : (present r s).backup = s.backup :=
  ((present_does (A := [.strand, .out]) r s (Does.refl _ _) rfl).only .backup rfl)
@[simp] theorem present_tides (r : StrRec) (s : State) : (present r s).tides = s.tides :=
  ((present_does (A := [.strand, .out]) r s (Does.refl _ _) rfl).only .tides rfl).1
@[simp] theorem present_tiFault (r : StrRec) (s : State) : (present r s).tiFault = s.tiFault :=
  ((present_does (A := [.strand, .out]) r s (Does.refl _ _) rfl).only .tides rfl).2
@[simp] theorem present_tt (r : StrRec) (s : State) : (present r s).tt = s.tt :=
  ((present_does (A := [.strand, .out]) r s (Does.refl _ _) rfl).only .tideTable rfl).1
@[simp] theorem present_ttOut (r : StrRec) (s : State) : (present r s).ttOut = s.ttOut :=
  ((present_does (A := [.strand, .out]) r s (Does.refl _ _) rfl).only .tideTable rfl).2.1
@[simp] theorem present_ttFull (r : StrRec) (s : State) : (present r s).ttFull = s.ttFull :=
  ((present_does (A := [.strand, .out]) r s (Does.refl _ _) rfl).only .tideTable rfl).2.2
@[simp] theorem present_seqs (r : StrRec) (s : State) : (present r s).seqs = s.seqs :=
  ((present_does (A := [.strand, .out]) r s (Does.refl _ _) rfl).only .seqs rfl)
@[simp] theorem present_exe (r : StrRec) (s : State) : (present r s).exe = s.exe :=
  ((present_does (A := [.strand, .out]) r s (Does.refl _ _) rfl).only .exe rfl)
@[simp] theorem present_loop (r : StrRec) (s : State) : (present r s).loop = s.loop :=
  ((present_does (A := [.strand, .out]) r s (Does.refl _ _) rfl).only .loop rfl)
@[simp] theorem present_dio (r : StrRec) (s : State) : (present r s).dio = s.dio :=
  ((present_does (A := [.strand, .out]) r s (Does.refl _ _) rfl).only .dio rfl).1
@[simp] theorem present_dioBank (r : StrRec) (s : State) : (present r s).dioBank = s.dioBank :=
  ((present_does (A := [.strand, .out]) r s (Does.refl _ _) rfl).only .dio rfl).2.1
@[simp] theorem present_po (r : StrRec) (s : State) : (present r s).po = s.po :=
  ((present_does (A := [.strand, .out]) r s (Does.refl _ _) rfl).only .dio rfl).2.2
@[simp] theorem present_terms (r : StrRec) (s : State) : (present r s).terms = s.terms :=
  ((present_does (A := [.strand, .out]) r s (Does.refl _ _) rfl).only .rfx rfl).1
@[simp] theorem present_rfxStopped (r : StrRec) (s : State) : (present r s).rfxStopped = s.rfxStopped :=
  ((present_does (A := [.strand, .out]) r s (Does.refl _ _) rfl).only .rfx rfl).2
@[simp] theorem present_an (r : StrRec) (s : State) : (present r s).an = s.an :=
  ((present_does (A := [.strand, .out]) r s (Does.refl _ _) rfl).only .ana rfl).1
@[simp] theorem present_anBank (r : StrRec) (s : State) : (present r s).anBank = s.anBank :=
  ((present_does (A := [.strand, .out]) r s (Does.refl _ _) rfl).only .ana rfl).2
@[simp] theorem present_saf (r : StrRec) (s : State) : (present r s).saf = s.saf :=
  ((present_does (A := [.strand, .out]) r s (Does.refl _ _) rfl).only .saf rfl)
@[simp] theorem present_triad (r : StrRec) (s : State) : (present r s).triad = s.triad :=
  ((present_does (A := [.strand, .out]) r s (Does.refl _ _) rfl).only .triad rfl)
@[simp] theorem present_pair (r : StrRec) (s : State) : (present r s).pair = s.pair :=
  ((present_does (A := [.strand, .out]) r s (Does.refl _ _) rfl).only .pair rfl)
@[simp] theorem present_net (r : StrRec) (s : State) : (present r s).net = s.net :=
  ((present_does (A := [.strand, .out]) r s (Does.refl _ _) rfl).only .net rfl)
@[simp] theorem present_can (r : StrRec) (s : State) : (present r s).can = s.can :=
  ((present_does (A := [.strand, .out]) r s (Does.refl _ _) rfl).only .can rfl)
@[simp] theorem present_lcy (r : StrRec) (s : State) : (present r s).lcy = s.lcy :=
  ((present_does (A := [.strand, .out]) r s (Does.refl _ _) rfl).only .lcy rfl)
@[simp] theorem present_fwu (r : StrRec) (s : State) : (present r s).fwu = s.fwu :=
  ((present_does (A := [.strand, .out]) r s (Does.refl _ _) rfl).only .fwu rfl).1
@[simp] theorem present_dbgData (r : StrRec) (s : State) : (present r s).dbgData = s.dbgData :=
  ((present_does (A := [.strand, .out]) r s (Does.refl _ _) rfl).only .host rfl).2.2.2
@[simp] theorem present_fwPause (r : StrRec) (s : State) : (present r s).fwPause = s.fwPause :=
  ((present_does (A := [.strand, .out]) r s (Does.refl _ _) rfl).only .fwu rfl).2.1
@[simp] theorem present_fwWait (r : StrRec) (s : State) : (present r s).fwWait = s.fwWait :=
  ((present_does (A := [.strand, .out]) r s (Does.refl _ _) rfl).only .fwu rfl).2.2
@[simp] theorem present_sup (r : StrRec) (s : State) : (present r s).sup = s.sup :=
  ((present_does (A := [.strand, .out]) r s (Does.refl _ _) rfl).only .sup rfl)
@[simp] theorem present_mpu (r : StrRec) (s : State) : (present r s).mpu = s.mpu :=
  ((present_does (A := [.strand, .out]) r s (Does.refl _ _) rfl).only .mpu rfl)
@[simp] theorem present_mailboxes (r : StrRec) (s : State) : (present r s).mailboxes = s.mailboxes :=
  ((present_does (A := [.strand, .out]) r s (Does.refl _ _) rfl).only .mbx rfl).1
@[simp] theorem present_locks (r : StrRec) (s : State) : (present r s).locks = s.locks :=
  ((present_does (A := [.strand, .out]) r s (Does.refl _ _) rfl).only .mbx rfl).2
@[simp] theorem present_queSeq (r : StrRec) (s : State) : (present r s).queSeq = s.queSeq :=
  ((present_does (A := [.strand, .out]) r s (Does.refl _ _) rfl).only .queSeq rfl)
@[simp] theorem sayD_pending (st : Status) (d : DWord) (s : State) : (sayD st d s).pending = s.pending :=
  ((sayD_does (A := [.strand, .out]) st d s (Does.refl _ _) rfl).only .pending rfl)
@[simp] theorem sayD_accMaster (st : Status) (d : DWord) (s : State) : (sayD st d s).accMaster = s.accMaster :=
  ((sayD_does (A := [.strand, .out]) st d s (Does.refl _ _) rfl).only .master rfl)
@[simp] theorem sayD_hostData (st : Status) (d : DWord) (s : State) : (sayD st d s).hostData = s.hostData :=
  ((sayD_does (A := [.strand, .out]) st d s (Does.refl _ _) rfl).only .host rfl).1
@[simp] theorem sayD_hostBytes (st : Status) (d : DWord) (s : State) : (sayD st d s).hostBytes = s.hostBytes :=
  ((sayD_does (A := [.strand, .out]) st d s (Does.refl _ _) rfl).only .host rfl).2.1
@[simp] theorem sayD_captured (st : Status) (d : DWord) (s : State) : (sayD st d s).captured = s.captured :=
  ((sayD_does (A := [.strand, .out]) st d s (Does.refl _ _) rfl).only .host rfl).2.2.1
@[simp] theorem sayD_cycle (st : Status) (d : DWord) (s : State) : (sayD st d s).cycle = s.cycle :=
  ((sayD_does (A := [.strand, .out]) st d s (Does.refl _ _) rfl).only .time rfl).1
@[simp] theorem sayD_mtime (st : Status) (d : DWord) (s : State) : (sayD st d s).mtime = s.mtime :=
  ((sayD_does (A := [.strand, .out]) st d s (Does.refl _ _) rfl).only .time rfl).2
@[simp] theorem sayD_freeCtr (st : Status) (d : DWord) (s : State) : (sayD st d s).freeCtr = s.freeCtr :=
  ((sayD_does (A := [.strand, .out]) st d s (Does.refl _ _) rfl).only .free rfl)
@[simp] theorem sayD_mem (st : Status) (d : DWord) (s : State) : (sayD st d s).mem = s.mem :=
  ((sayD_does (A := [.strand, .out]) st d s (Does.refl _ _) rfl).only .mem rfl)
@[simp] theorem sayD_backup (st : Status) (d : DWord) (s : State) : (sayD st d s).backup = s.backup :=
  ((sayD_does (A := [.strand, .out]) st d s (Does.refl _ _) rfl).only .backup rfl)
@[simp] theorem sayD_tides (st : Status) (d : DWord) (s : State) : (sayD st d s).tides = s.tides :=
  ((sayD_does (A := [.strand, .out]) st d s (Does.refl _ _) rfl).only .tides rfl).1
@[simp] theorem sayD_tiFault (st : Status) (d : DWord) (s : State) : (sayD st d s).tiFault = s.tiFault :=
  ((sayD_does (A := [.strand, .out]) st d s (Does.refl _ _) rfl).only .tides rfl).2
@[simp] theorem sayD_tt (st : Status) (d : DWord) (s : State) : (sayD st d s).tt = s.tt :=
  ((sayD_does (A := [.strand, .out]) st d s (Does.refl _ _) rfl).only .tideTable rfl).1
@[simp] theorem sayD_ttOut (st : Status) (d : DWord) (s : State) : (sayD st d s).ttOut = s.ttOut :=
  ((sayD_does (A := [.strand, .out]) st d s (Does.refl _ _) rfl).only .tideTable rfl).2.1
@[simp] theorem sayD_ttFull (st : Status) (d : DWord) (s : State) : (sayD st d s).ttFull = s.ttFull :=
  ((sayD_does (A := [.strand, .out]) st d s (Does.refl _ _) rfl).only .tideTable rfl).2.2
@[simp] theorem sayD_seqs (st : Status) (d : DWord) (s : State) : (sayD st d s).seqs = s.seqs :=
  ((sayD_does (A := [.strand, .out]) st d s (Does.refl _ _) rfl).only .seqs rfl)
@[simp] theorem sayD_exe (st : Status) (d : DWord) (s : State) : (sayD st d s).exe = s.exe :=
  ((sayD_does (A := [.strand, .out]) st d s (Does.refl _ _) rfl).only .exe rfl)
@[simp] theorem sayD_loop (st : Status) (d : DWord) (s : State) : (sayD st d s).loop = s.loop :=
  ((sayD_does (A := [.strand, .out]) st d s (Does.refl _ _) rfl).only .loop rfl)
@[simp] theorem sayD_dio (st : Status) (d : DWord) (s : State) : (sayD st d s).dio = s.dio :=
  ((sayD_does (A := [.strand, .out]) st d s (Does.refl _ _) rfl).only .dio rfl).1
@[simp] theorem sayD_dioBank (st : Status) (d : DWord) (s : State) : (sayD st d s).dioBank = s.dioBank :=
  ((sayD_does (A := [.strand, .out]) st d s (Does.refl _ _) rfl).only .dio rfl).2.1
@[simp] theorem sayD_po (st : Status) (d : DWord) (s : State) : (sayD st d s).po = s.po :=
  ((sayD_does (A := [.strand, .out]) st d s (Does.refl _ _) rfl).only .dio rfl).2.2
@[simp] theorem sayD_terms (st : Status) (d : DWord) (s : State) : (sayD st d s).terms = s.terms :=
  ((sayD_does (A := [.strand, .out]) st d s (Does.refl _ _) rfl).only .rfx rfl).1
@[simp] theorem sayD_rfxStopped (st : Status) (d : DWord) (s : State) : (sayD st d s).rfxStopped = s.rfxStopped :=
  ((sayD_does (A := [.strand, .out]) st d s (Does.refl _ _) rfl).only .rfx rfl).2
@[simp] theorem sayD_an (st : Status) (d : DWord) (s : State) : (sayD st d s).an = s.an :=
  ((sayD_does (A := [.strand, .out]) st d s (Does.refl _ _) rfl).only .ana rfl).1
@[simp] theorem sayD_anBank (st : Status) (d : DWord) (s : State) : (sayD st d s).anBank = s.anBank :=
  ((sayD_does (A := [.strand, .out]) st d s (Does.refl _ _) rfl).only .ana rfl).2
@[simp] theorem sayD_saf (st : Status) (d : DWord) (s : State) : (sayD st d s).saf = s.saf :=
  ((sayD_does (A := [.strand, .out]) st d s (Does.refl _ _) rfl).only .saf rfl)
@[simp] theorem sayD_triad (st : Status) (d : DWord) (s : State) : (sayD st d s).triad = s.triad :=
  ((sayD_does (A := [.strand, .out]) st d s (Does.refl _ _) rfl).only .triad rfl)
@[simp] theorem sayD_pair (st : Status) (d : DWord) (s : State) : (sayD st d s).pair = s.pair :=
  ((sayD_does (A := [.strand, .out]) st d s (Does.refl _ _) rfl).only .pair rfl)
@[simp] theorem sayD_net (st : Status) (d : DWord) (s : State) : (sayD st d s).net = s.net :=
  ((sayD_does (A := [.strand, .out]) st d s (Does.refl _ _) rfl).only .net rfl)
@[simp] theorem sayD_can (st : Status) (d : DWord) (s : State) : (sayD st d s).can = s.can :=
  ((sayD_does (A := [.strand, .out]) st d s (Does.refl _ _) rfl).only .can rfl)
@[simp] theorem sayD_lcy (st : Status) (d : DWord) (s : State) : (sayD st d s).lcy = s.lcy :=
  ((sayD_does (A := [.strand, .out]) st d s (Does.refl _ _) rfl).only .lcy rfl)
@[simp] theorem sayD_fwu (st : Status) (d : DWord) (s : State) : (sayD st d s).fwu = s.fwu :=
  ((sayD_does (A := [.strand, .out]) st d s (Does.refl _ _) rfl).only .fwu rfl).1
@[simp] theorem sayD_dbgData (st : Status) (d : DWord) (s : State) : (sayD st d s).dbgData = s.dbgData :=
  ((sayD_does (A := [.strand, .out]) st d s (Does.refl _ _) rfl).only .host rfl).2.2.2
@[simp] theorem sayD_fwPause (st : Status) (d : DWord) (s : State) : (sayD st d s).fwPause = s.fwPause :=
  ((sayD_does (A := [.strand, .out]) st d s (Does.refl _ _) rfl).only .fwu rfl).2.1
@[simp] theorem sayD_fwWait (st : Status) (d : DWord) (s : State) : (sayD st d s).fwWait = s.fwWait :=
  ((sayD_does (A := [.strand, .out]) st d s (Does.refl _ _) rfl).only .fwu rfl).2.2
@[simp] theorem sayD_sup (st : Status) (d : DWord) (s : State) : (sayD st d s).sup = s.sup :=
  ((sayD_does (A := [.strand, .out]) st d s (Does.refl _ _) rfl).only .sup rfl)
@[simp] theorem sayD_mpu (st : Status) (d : DWord) (s : State) : (sayD st d s).mpu = s.mpu :=
  ((sayD_does (A := [.strand, .out]) st d s (Does.refl _ _) rfl).only .mpu rfl)
@[simp] theorem sayD_mailboxes (st : Status) (d : DWord) (s : State) : (sayD st d s).mailboxes = s.mailboxes :=
  ((sayD_does (A := [.strand, .out]) st d s (Does.refl _ _) rfl).only .mbx rfl).1
@[simp] theorem sayD_locks (st : Status) (d : DWord) (s : State) : (sayD st d s).locks = s.locks :=
  ((sayD_does (A := [.strand, .out]) st d s (Does.refl _ _) rfl).only .mbx rfl).2
@[simp] theorem sayD_queSeq (st : Status) (d : DWord) (s : State) : (sayD st d s).queSeq = s.queSeq :=
  ((sayD_does (A := [.strand, .out]) st d s (Does.refl _ _) rfl).only .queSeq rfl)
@[simp] theorem say_pending (st : Status) (s : State) : (say st s).pending = s.pending :=
  ((say_does (A := [.free, .strand, .out]) st s (Does.refl _ _) rfl).only .pending rfl)
@[simp] theorem say_accMaster (st : Status) (s : State) : (say st s).accMaster = s.accMaster :=
  ((say_does (A := [.free, .strand, .out]) st s (Does.refl _ _) rfl).only .master rfl)
@[simp] theorem say_hostData (st : Status) (s : State) : (say st s).hostData = s.hostData :=
  ((say_does (A := [.free, .strand, .out]) st s (Does.refl _ _) rfl).only .host rfl).1
@[simp] theorem say_hostBytes (st : Status) (s : State) : (say st s).hostBytes = s.hostBytes :=
  ((say_does (A := [.free, .strand, .out]) st s (Does.refl _ _) rfl).only .host rfl).2.1
@[simp] theorem say_captured (st : Status) (s : State) : (say st s).captured = s.captured :=
  ((say_does (A := [.free, .strand, .out]) st s (Does.refl _ _) rfl).only .host rfl).2.2.1
@[simp] theorem say_cycle (st : Status) (s : State) : (say st s).cycle = s.cycle :=
  ((say_does (A := [.free, .strand, .out]) st s (Does.refl _ _) rfl).only .time rfl).1
@[simp] theorem say_mtime (st : Status) (s : State) : (say st s).mtime = s.mtime :=
  ((say_does (A := [.free, .strand, .out]) st s (Does.refl _ _) rfl).only .time rfl).2
@[simp] theorem say_mem (st : Status) (s : State) : (say st s).mem = s.mem :=
  ((say_does (A := [.free, .strand, .out]) st s (Does.refl _ _) rfl).only .mem rfl)
@[simp] theorem say_backup (st : Status) (s : State) : (say st s).backup = s.backup :=
  ((say_does (A := [.free, .strand, .out]) st s (Does.refl _ _) rfl).only .backup rfl)
@[simp] theorem say_tides (st : Status) (s : State) : (say st s).tides = s.tides :=
  ((say_does (A := [.free, .strand, .out]) st s (Does.refl _ _) rfl).only .tides rfl).1
@[simp] theorem say_tiFault (st : Status) (s : State) : (say st s).tiFault = s.tiFault :=
  ((say_does (A := [.free, .strand, .out]) st s (Does.refl _ _) rfl).only .tides rfl).2
@[simp] theorem say_tt (st : Status) (s : State) : (say st s).tt = s.tt :=
  ((say_does (A := [.free, .strand, .out]) st s (Does.refl _ _) rfl).only .tideTable rfl).1
@[simp] theorem say_ttOut (st : Status) (s : State) : (say st s).ttOut = s.ttOut :=
  ((say_does (A := [.free, .strand, .out]) st s (Does.refl _ _) rfl).only .tideTable rfl).2.1
@[simp] theorem say_ttFull (st : Status) (s : State) : (say st s).ttFull = s.ttFull :=
  ((say_does (A := [.free, .strand, .out]) st s (Does.refl _ _) rfl).only .tideTable rfl).2.2
@[simp] theorem say_seqs (st : Status) (s : State) : (say st s).seqs = s.seqs :=
  ((say_does (A := [.free, .strand, .out]) st s (Does.refl _ _) rfl).only .seqs rfl)
@[simp] theorem say_exe (st : Status) (s : State) : (say st s).exe = s.exe :=
  ((say_does (A := [.free, .strand, .out]) st s (Does.refl _ _) rfl).only .exe rfl)
@[simp] theorem say_loop (st : Status) (s : State) : (say st s).loop = s.loop :=
  ((say_does (A := [.free, .strand, .out]) st s (Does.refl _ _) rfl).only .loop rfl)
@[simp] theorem say_dio (st : Status) (s : State) : (say st s).dio = s.dio :=
  ((say_does (A := [.free, .strand, .out]) st s (Does.refl _ _) rfl).only .dio rfl).1
@[simp] theorem say_dioBank (st : Status) (s : State) : (say st s).dioBank = s.dioBank :=
  ((say_does (A := [.free, .strand, .out]) st s (Does.refl _ _) rfl).only .dio rfl).2.1
@[simp] theorem say_po (st : Status) (s : State) : (say st s).po = s.po :=
  ((say_does (A := [.free, .strand, .out]) st s (Does.refl _ _) rfl).only .dio rfl).2.2
@[simp] theorem say_terms (st : Status) (s : State) : (say st s).terms = s.terms :=
  ((say_does (A := [.free, .strand, .out]) st s (Does.refl _ _) rfl).only .rfx rfl).1
@[simp] theorem say_rfxStopped (st : Status) (s : State) : (say st s).rfxStopped = s.rfxStopped :=
  ((say_does (A := [.free, .strand, .out]) st s (Does.refl _ _) rfl).only .rfx rfl).2
@[simp] theorem say_an (st : Status) (s : State) : (say st s).an = s.an :=
  ((say_does (A := [.free, .strand, .out]) st s (Does.refl _ _) rfl).only .ana rfl).1
@[simp] theorem say_anBank (st : Status) (s : State) : (say st s).anBank = s.anBank :=
  ((say_does (A := [.free, .strand, .out]) st s (Does.refl _ _) rfl).only .ana rfl).2
@[simp] theorem say_saf (st : Status) (s : State) : (say st s).saf = s.saf :=
  ((say_does (A := [.free, .strand, .out]) st s (Does.refl _ _) rfl).only .saf rfl)
@[simp] theorem say_triad (st : Status) (s : State) : (say st s).triad = s.triad :=
  ((say_does (A := [.free, .strand, .out]) st s (Does.refl _ _) rfl).only .triad rfl)
@[simp] theorem say_pair (st : Status) (s : State) : (say st s).pair = s.pair :=
  ((say_does (A := [.free, .strand, .out]) st s (Does.refl _ _) rfl).only .pair rfl)
@[simp] theorem say_net (st : Status) (s : State) : (say st s).net = s.net :=
  ((say_does (A := [.free, .strand, .out]) st s (Does.refl _ _) rfl).only .net rfl)
@[simp] theorem say_can (st : Status) (s : State) : (say st s).can = s.can :=
  ((say_does (A := [.free, .strand, .out]) st s (Does.refl _ _) rfl).only .can rfl)
@[simp] theorem say_lcy (st : Status) (s : State) : (say st s).lcy = s.lcy :=
  ((say_does (A := [.free, .strand, .out]) st s (Does.refl _ _) rfl).only .lcy rfl)
@[simp] theorem say_fwu (st : Status) (s : State) : (say st s).fwu = s.fwu :=
  ((say_does (A := [.free, .strand, .out]) st s (Does.refl _ _) rfl).only .fwu rfl).1
@[simp] theorem say_dbgData (st : Status) (s : State) : (say st s).dbgData = s.dbgData :=
  ((say_does (A := [.free, .strand, .out]) st s (Does.refl _ _) rfl).only .host rfl).2.2.2
@[simp] theorem say_fwPause (st : Status) (s : State) : (say st s).fwPause = s.fwPause :=
  ((say_does (A := [.free, .strand, .out]) st s (Does.refl _ _) rfl).only .fwu rfl).2.1
@[simp] theorem say_fwWait (st : Status) (s : State) : (say st s).fwWait = s.fwWait :=
  ((say_does (A := [.free, .strand, .out]) st s (Does.refl _ _) rfl).only .fwu rfl).2.2
@[simp] theorem say_sup (st : Status) (s : State) : (say st s).sup = s.sup :=
  ((say_does (A := [.free, .strand, .out]) st s (Does.refl _ _) rfl).only .sup rfl)
@[simp] theorem say_mpu (st : Status) (s : State) : (say st s).mpu = s.mpu :=
  ((say_does (A := [.free, .strand, .out]) st s (Does.refl _ _) rfl).only .mpu rfl)
@[simp] theorem say_mailboxes (st : Status) (s : State) : (say st s).mailboxes = s.mailboxes :=
  ((say_does (A := [.free, .strand, .out]) st s (Does.refl _ _) rfl).only .mbx rfl).1
@[simp] theorem say_locks (st : Status) (s : State) : (say st s).locks = s.locks :=
  ((say_does (A := [.free, .strand, .out]) st s (Does.refl _ _) rfl).only .mbx rfl).2
@[simp] theorem say_queSeq (st : Status) (s : State) : (say st s).queSeq = s.queSeq :=
  ((say_does (A := [.free, .strand, .out]) st s (Does.refl _ _) rfl).only .queSeq rfl)
@[simp] theorem sayRegion_pending (st : Status) (s : State) : (sayRegion st s).pending = s.pending :=
  ((sayRegion_does (A := [.free, .strand, .out]) st s (Does.refl _ _) rfl).only .pending rfl)
@[simp] theorem sayRegion_accMaster (st : Status) (s : State) : (sayRegion st s).accMaster = s.accMaster :=
  ((sayRegion_does (A := [.free, .strand, .out]) st s (Does.refl _ _) rfl).only .master rfl)
@[simp] theorem sayRegion_hostData (st : Status) (s : State) : (sayRegion st s).hostData = s.hostData :=
  ((sayRegion_does (A := [.free, .strand, .out]) st s (Does.refl _ _) rfl).only .host rfl).1
@[simp] theorem sayRegion_hostBytes (st : Status) (s : State) : (sayRegion st s).hostBytes = s.hostBytes :=
  ((sayRegion_does (A := [.free, .strand, .out]) st s (Does.refl _ _) rfl).only .host rfl).2.1
@[simp] theorem sayRegion_captured (st : Status) (s : State) : (sayRegion st s).captured = s.captured :=
  ((sayRegion_does (A := [.free, .strand, .out]) st s (Does.refl _ _) rfl).only .host rfl).2.2.1
@[simp] theorem sayRegion_cycle (st : Status) (s : State) : (sayRegion st s).cycle = s.cycle :=
  ((sayRegion_does (A := [.free, .strand, .out]) st s (Does.refl _ _) rfl).only .time rfl).1
@[simp] theorem sayRegion_mtime (st : Status) (s : State) : (sayRegion st s).mtime = s.mtime :=
  ((sayRegion_does (A := [.free, .strand, .out]) st s (Does.refl _ _) rfl).only .time rfl).2
@[simp] theorem sayRegion_mem (st : Status) (s : State) : (sayRegion st s).mem = s.mem :=
  ((sayRegion_does (A := [.free, .strand, .out]) st s (Does.refl _ _) rfl).only .mem rfl)
@[simp] theorem sayRegion_backup (st : Status) (s : State) : (sayRegion st s).backup = s.backup :=
  ((sayRegion_does (A := [.free, .strand, .out]) st s (Does.refl _ _) rfl).only .backup rfl)
@[simp] theorem sayRegion_tides (st : Status) (s : State) : (sayRegion st s).tides = s.tides :=
  ((sayRegion_does (A := [.free, .strand, .out]) st s (Does.refl _ _) rfl).only .tides rfl).1
@[simp] theorem sayRegion_tiFault (st : Status) (s : State) : (sayRegion st s).tiFault = s.tiFault :=
  ((sayRegion_does (A := [.free, .strand, .out]) st s (Does.refl _ _) rfl).only .tides rfl).2
@[simp] theorem sayRegion_tt (st : Status) (s : State) : (sayRegion st s).tt = s.tt :=
  ((sayRegion_does (A := [.free, .strand, .out]) st s (Does.refl _ _) rfl).only .tideTable rfl).1
@[simp] theorem sayRegion_ttOut (st : Status) (s : State) : (sayRegion st s).ttOut = s.ttOut :=
  ((sayRegion_does (A := [.free, .strand, .out]) st s (Does.refl _ _) rfl).only .tideTable rfl).2.1
@[simp] theorem sayRegion_ttFull (st : Status) (s : State) : (sayRegion st s).ttFull = s.ttFull :=
  ((sayRegion_does (A := [.free, .strand, .out]) st s (Does.refl _ _) rfl).only .tideTable rfl).2.2
@[simp] theorem sayRegion_seqs (st : Status) (s : State) : (sayRegion st s).seqs = s.seqs :=
  ((sayRegion_does (A := [.free, .strand, .out]) st s (Does.refl _ _) rfl).only .seqs rfl)
@[simp] theorem sayRegion_exe (st : Status) (s : State) : (sayRegion st s).exe = s.exe :=
  ((sayRegion_does (A := [.free, .strand, .out]) st s (Does.refl _ _) rfl).only .exe rfl)
@[simp] theorem sayRegion_loop (st : Status) (s : State) : (sayRegion st s).loop = s.loop :=
  ((sayRegion_does (A := [.free, .strand, .out]) st s (Does.refl _ _) rfl).only .loop rfl)
@[simp] theorem sayRegion_dio (st : Status) (s : State) : (sayRegion st s).dio = s.dio :=
  ((sayRegion_does (A := [.free, .strand, .out]) st s (Does.refl _ _) rfl).only .dio rfl).1
@[simp] theorem sayRegion_dioBank (st : Status) (s : State) : (sayRegion st s).dioBank = s.dioBank :=
  ((sayRegion_does (A := [.free, .strand, .out]) st s (Does.refl _ _) rfl).only .dio rfl).2.1
@[simp] theorem sayRegion_po (st : Status) (s : State) : (sayRegion st s).po = s.po :=
  ((sayRegion_does (A := [.free, .strand, .out]) st s (Does.refl _ _) rfl).only .dio rfl).2.2
@[simp] theorem sayRegion_terms (st : Status) (s : State) : (sayRegion st s).terms = s.terms :=
  ((sayRegion_does (A := [.free, .strand, .out]) st s (Does.refl _ _) rfl).only .rfx rfl).1
@[simp] theorem sayRegion_rfxStopped (st : Status) (s : State) : (sayRegion st s).rfxStopped = s.rfxStopped :=
  ((sayRegion_does (A := [.free, .strand, .out]) st s (Does.refl _ _) rfl).only .rfx rfl).2
@[simp] theorem sayRegion_an (st : Status) (s : State) : (sayRegion st s).an = s.an :=
  ((sayRegion_does (A := [.free, .strand, .out]) st s (Does.refl _ _) rfl).only .ana rfl).1
@[simp] theorem sayRegion_anBank (st : Status) (s : State) : (sayRegion st s).anBank = s.anBank :=
  ((sayRegion_does (A := [.free, .strand, .out]) st s (Does.refl _ _) rfl).only .ana rfl).2
@[simp] theorem sayRegion_saf (st : Status) (s : State) : (sayRegion st s).saf = s.saf :=
  ((sayRegion_does (A := [.free, .strand, .out]) st s (Does.refl _ _) rfl).only .saf rfl)
@[simp] theorem sayRegion_triad (st : Status) (s : State) : (sayRegion st s).triad = s.triad :=
  ((sayRegion_does (A := [.free, .strand, .out]) st s (Does.refl _ _) rfl).only .triad rfl)
@[simp] theorem sayRegion_pair (st : Status) (s : State) : (sayRegion st s).pair = s.pair :=
  ((sayRegion_does (A := [.free, .strand, .out]) st s (Does.refl _ _) rfl).only .pair rfl)
@[simp] theorem sayRegion_net (st : Status) (s : State) : (sayRegion st s).net = s.net :=
  ((sayRegion_does (A := [.free, .strand, .out]) st s (Does.refl _ _) rfl).only .net rfl)
@[simp] theorem sayRegion_can (st : Status) (s : State) : (sayRegion st s).can = s.can :=
  ((sayRegion_does (A := [.free, .strand, .out]) st s (Does.refl _ _) rfl).only .can rfl)
@[simp] theorem sayRegion_lcy (st : Status) (s : State) : (sayRegion st s).lcy = s.lcy :=
  ((sayRegion_does (A := [.free, .strand, .out]) st s (Does.refl _ _) rfl).only .lcy rfl)
@[simp] theorem sayRegion_fwu (st : Status) (s : State) : (sayRegion st s).fwu = s.fwu :=
  ((sayRegion_does (A := [.free, .strand, .out]) st s (Does.refl _ _) rfl).only .fwu rfl).1
@[simp] theorem sayRegion_dbgData (st : Status) (s : State) : (sayRegion st s).dbgData = s.dbgData :=
  ((sayRegion_does (A := [.free, .strand, .out]) st s (Does.refl _ _) rfl).only .host rfl).2.2.2
@[simp] theorem sayRegion_fwPause (st : Status) (s : State) : (sayRegion st s).fwPause = s.fwPause :=
  ((sayRegion_does (A := [.free, .strand, .out]) st s (Does.refl _ _) rfl).only .fwu rfl).2.1
@[simp] theorem sayRegion_fwWait (st : Status) (s : State) : (sayRegion st s).fwWait = s.fwWait :=
  ((sayRegion_does (A := [.free, .strand, .out]) st s (Does.refl _ _) rfl).only .fwu rfl).2.2
@[simp] theorem sayRegion_sup (st : Status) (s : State) : (sayRegion st s).sup = s.sup :=
  ((sayRegion_does (A := [.free, .strand, .out]) st s (Does.refl _ _) rfl).only .sup rfl)
@[simp] theorem sayRegion_mpu (st : Status) (s : State) : (sayRegion st s).mpu = s.mpu :=
  ((sayRegion_does (A := [.free, .strand, .out]) st s (Does.refl _ _) rfl).only .mpu rfl)
@[simp] theorem sayRegion_mailboxes (st : Status) (s : State) : (sayRegion st s).mailboxes = s.mailboxes :=
  ((sayRegion_does (A := [.free, .strand, .out]) st s (Does.refl _ _) rfl).only .mbx rfl).1
@[simp] theorem sayRegion_locks (st : Status) (s : State) : (sayRegion st s).locks = s.locks :=
  ((sayRegion_does (A := [.free, .strand, .out]) st s (Does.refl _ _) rfl).only .mbx rfl).2
@[simp] theorem sayRegion_queSeq (st : Status) (s : State) : (sayRegion st s).queSeq = s.queSeq :=
  ((sayRegion_does (A := [.free, .strand, .out]) st s (Does.refl _ _) rfl).only .queSeq rfl)
@[simp] theorem cwSend_pending (k : Nat) (d : List DWord) (s : State) : (cwSend k d s).pending = s.pending :=
  ((cwSend_does (A := [.pair, .out]) k d s (Does.refl _ _) rfl).only .pending rfl)
@[simp] theorem cwSend_accMaster (k : Nat) (d : List DWord) (s : State) : (cwSend k d s).accMaster = s.accMaster :=
  ((cwSend_does (A := [.pair, .out]) k d s (Does.refl _ _) rfl).only .master rfl)
@[simp] theorem cwSend_hostData (k : Nat) (d : List DWord) (s : State) : (cwSend k d s).hostData = s.hostData :=
  ((cwSend_does (A := [.pair, .out]) k d s (Does.refl _ _) rfl).only .host rfl).1
@[simp] theorem cwSend_hostBytes (k : Nat) (d : List DWord) (s : State) : (cwSend k d s).hostBytes = s.hostBytes :=
  ((cwSend_does (A := [.pair, .out]) k d s (Does.refl _ _) rfl).only .host rfl).2.1
@[simp] theorem cwSend_captured (k : Nat) (d : List DWord) (s : State) : (cwSend k d s).captured = s.captured :=
  ((cwSend_does (A := [.pair, .out]) k d s (Does.refl _ _) rfl).only .host rfl).2.2.1
@[simp] theorem cwSend_cycle (k : Nat) (d : List DWord) (s : State) : (cwSend k d s).cycle = s.cycle :=
  ((cwSend_does (A := [.pair, .out]) k d s (Does.refl _ _) rfl).only .time rfl).1
@[simp] theorem cwSend_mtime (k : Nat) (d : List DWord) (s : State) : (cwSend k d s).mtime = s.mtime :=
  ((cwSend_does (A := [.pair, .out]) k d s (Does.refl _ _) rfl).only .time rfl).2
@[simp] theorem cwSend_freeCtr (k : Nat) (d : List DWord) (s : State) : (cwSend k d s).freeCtr = s.freeCtr :=
  ((cwSend_does (A := [.pair, .out]) k d s (Does.refl _ _) rfl).only .free rfl)
@[simp] theorem cwSend_mem (k : Nat) (d : List DWord) (s : State) : (cwSend k d s).mem = s.mem :=
  ((cwSend_does (A := [.pair, .out]) k d s (Does.refl _ _) rfl).only .mem rfl)
@[simp] theorem cwSend_strand (k : Nat) (d : List DWord) (s : State) : (cwSend k d s).strand = s.strand :=
  ((cwSend_does (A := [.pair, .out]) k d s (Does.refl _ _) rfl).only .strand rfl)
@[simp] theorem cwSend_backup (k : Nat) (d : List DWord) (s : State) : (cwSend k d s).backup = s.backup :=
  ((cwSend_does (A := [.pair, .out]) k d s (Does.refl _ _) rfl).only .backup rfl)
@[simp] theorem cwSend_tides (k : Nat) (d : List DWord) (s : State) : (cwSend k d s).tides = s.tides :=
  ((cwSend_does (A := [.pair, .out]) k d s (Does.refl _ _) rfl).only .tides rfl).1
@[simp] theorem cwSend_tiFault (k : Nat) (d : List DWord) (s : State) : (cwSend k d s).tiFault = s.tiFault :=
  ((cwSend_does (A := [.pair, .out]) k d s (Does.refl _ _) rfl).only .tides rfl).2
@[simp] theorem cwSend_tt (k : Nat) (d : List DWord) (s : State) : (cwSend k d s).tt = s.tt :=
  ((cwSend_does (A := [.pair, .out]) k d s (Does.refl _ _) rfl).only .tideTable rfl).1
@[simp] theorem cwSend_ttOut (k : Nat) (d : List DWord) (s : State) : (cwSend k d s).ttOut = s.ttOut :=
  ((cwSend_does (A := [.pair, .out]) k d s (Does.refl _ _) rfl).only .tideTable rfl).2.1
@[simp] theorem cwSend_ttFull (k : Nat) (d : List DWord) (s : State) : (cwSend k d s).ttFull = s.ttFull :=
  ((cwSend_does (A := [.pair, .out]) k d s (Does.refl _ _) rfl).only .tideTable rfl).2.2
@[simp] theorem cwSend_seqs (k : Nat) (d : List DWord) (s : State) : (cwSend k d s).seqs = s.seqs :=
  ((cwSend_does (A := [.pair, .out]) k d s (Does.refl _ _) rfl).only .seqs rfl)
@[simp] theorem cwSend_exe (k : Nat) (d : List DWord) (s : State) : (cwSend k d s).exe = s.exe :=
  ((cwSend_does (A := [.pair, .out]) k d s (Does.refl _ _) rfl).only .exe rfl)
@[simp] theorem cwSend_loop (k : Nat) (d : List DWord) (s : State) : (cwSend k d s).loop = s.loop :=
  ((cwSend_does (A := [.pair, .out]) k d s (Does.refl _ _) rfl).only .loop rfl)
@[simp] theorem cwSend_dio (k : Nat) (d : List DWord) (s : State) : (cwSend k d s).dio = s.dio :=
  ((cwSend_does (A := [.pair, .out]) k d s (Does.refl _ _) rfl).only .dio rfl).1
@[simp] theorem cwSend_dioBank (k : Nat) (d : List DWord) (s : State) : (cwSend k d s).dioBank = s.dioBank :=
  ((cwSend_does (A := [.pair, .out]) k d s (Does.refl _ _) rfl).only .dio rfl).2.1
@[simp] theorem cwSend_po (k : Nat) (d : List DWord) (s : State) : (cwSend k d s).po = s.po :=
  ((cwSend_does (A := [.pair, .out]) k d s (Does.refl _ _) rfl).only .dio rfl).2.2
@[simp] theorem cwSend_terms (k : Nat) (d : List DWord) (s : State) : (cwSend k d s).terms = s.terms :=
  ((cwSend_does (A := [.pair, .out]) k d s (Does.refl _ _) rfl).only .rfx rfl).1
@[simp] theorem cwSend_rfxStopped (k : Nat) (d : List DWord) (s : State) : (cwSend k d s).rfxStopped = s.rfxStopped :=
  ((cwSend_does (A := [.pair, .out]) k d s (Does.refl _ _) rfl).only .rfx rfl).2
@[simp] theorem cwSend_an (k : Nat) (d : List DWord) (s : State) : (cwSend k d s).an = s.an :=
  ((cwSend_does (A := [.pair, .out]) k d s (Does.refl _ _) rfl).only .ana rfl).1
@[simp] theorem cwSend_anBank (k : Nat) (d : List DWord) (s : State) : (cwSend k d s).anBank = s.anBank :=
  ((cwSend_does (A := [.pair, .out]) k d s (Does.refl _ _) rfl).only .ana rfl).2
@[simp] theorem cwSend_saf (k : Nat) (d : List DWord) (s : State) : (cwSend k d s).saf = s.saf :=
  ((cwSend_does (A := [.pair, .out]) k d s (Does.refl _ _) rfl).only .saf rfl)
@[simp] theorem cwSend_triad (k : Nat) (d : List DWord) (s : State) : (cwSend k d s).triad = s.triad :=
  ((cwSend_does (A := [.pair, .out]) k d s (Does.refl _ _) rfl).only .triad rfl)
@[simp] theorem cwSend_net (k : Nat) (d : List DWord) (s : State) : (cwSend k d s).net = s.net :=
  ((cwSend_does (A := [.pair, .out]) k d s (Does.refl _ _) rfl).only .net rfl)
@[simp] theorem cwSend_can (k : Nat) (d : List DWord) (s : State) : (cwSend k d s).can = s.can :=
  ((cwSend_does (A := [.pair, .out]) k d s (Does.refl _ _) rfl).only .can rfl)
@[simp] theorem cwSend_lcy (k : Nat) (d : List DWord) (s : State) : (cwSend k d s).lcy = s.lcy :=
  ((cwSend_does (A := [.pair, .out]) k d s (Does.refl _ _) rfl).only .lcy rfl)
@[simp] theorem cwSend_fwu (k : Nat) (d : List DWord) (s : State) : (cwSend k d s).fwu = s.fwu :=
  ((cwSend_does (A := [.pair, .out]) k d s (Does.refl _ _) rfl).only .fwu rfl).1
@[simp] theorem cwSend_dbgData (k : Nat) (d : List DWord) (s : State) : (cwSend k d s).dbgData = s.dbgData :=
  ((cwSend_does (A := [.pair, .out]) k d s (Does.refl _ _) rfl).only .host rfl).2.2.2
@[simp] theorem cwSend_fwPause (k : Nat) (d : List DWord) (s : State) : (cwSend k d s).fwPause = s.fwPause :=
  ((cwSend_does (A := [.pair, .out]) k d s (Does.refl _ _) rfl).only .fwu rfl).2.1
@[simp] theorem cwSend_fwWait (k : Nat) (d : List DWord) (s : State) : (cwSend k d s).fwWait = s.fwWait :=
  ((cwSend_does (A := [.pair, .out]) k d s (Does.refl _ _) rfl).only .fwu rfl).2.2
@[simp] theorem cwSend_sup (k : Nat) (d : List DWord) (s : State) : (cwSend k d s).sup = s.sup :=
  ((cwSend_does (A := [.pair, .out]) k d s (Does.refl _ _) rfl).only .sup rfl)
@[simp] theorem cwSend_mpu (k : Nat) (d : List DWord) (s : State) : (cwSend k d s).mpu = s.mpu :=
  ((cwSend_does (A := [.pair, .out]) k d s (Does.refl _ _) rfl).only .mpu rfl)
@[simp] theorem cwSend_mailboxes (k : Nat) (d : List DWord) (s : State) : (cwSend k d s).mailboxes = s.mailboxes :=
  ((cwSend_does (A := [.pair, .out]) k d s (Does.refl _ _) rfl).only .mbx rfl).1
@[simp] theorem cwSend_locks (k : Nat) (d : List DWord) (s : State) : (cwSend k d s).locks = s.locks :=
  ((cwSend_does (A := [.pair, .out]) k d s (Does.refl _ _) rfl).only .mbx rfl).2
@[simp] theorem cwSend_queSeq (k : Nat) (d : List DWord) (s : State) : (cwSend k d s).queSeq = s.queSeq :=
  ((cwSend_does (A := [.pair, .out]) k d s (Does.refl _ _) rfl).only .queSeq rfl)
@[simp] theorem cwMirror_pending (k : Nat) (d : List DWord) (s : State) : (cwMirror k d s).pending = s.pending :=
  ((cwMirror_does (A := [.pair, .out]) k d s (Does.refl _ _) rfl).only .pending rfl)
@[simp] theorem cwMirror_accMaster (k : Nat) (d : List DWord) (s : State) : (cwMirror k d s).accMaster = s.accMaster :=
  ((cwMirror_does (A := [.pair, .out]) k d s (Does.refl _ _) rfl).only .master rfl)
@[simp] theorem cwMirror_hostData (k : Nat) (d : List DWord) (s : State) : (cwMirror k d s).hostData = s.hostData :=
  ((cwMirror_does (A := [.pair, .out]) k d s (Does.refl _ _) rfl).only .host rfl).1
@[simp] theorem cwMirror_hostBytes (k : Nat) (d : List DWord) (s : State) : (cwMirror k d s).hostBytes = s.hostBytes :=
  ((cwMirror_does (A := [.pair, .out]) k d s (Does.refl _ _) rfl).only .host rfl).2.1
@[simp] theorem cwMirror_captured (k : Nat) (d : List DWord) (s : State) : (cwMirror k d s).captured = s.captured :=
  ((cwMirror_does (A := [.pair, .out]) k d s (Does.refl _ _) rfl).only .host rfl).2.2.1
@[simp] theorem cwMirror_cycle (k : Nat) (d : List DWord) (s : State) : (cwMirror k d s).cycle = s.cycle :=
  ((cwMirror_does (A := [.pair, .out]) k d s (Does.refl _ _) rfl).only .time rfl).1
@[simp] theorem cwMirror_mtime (k : Nat) (d : List DWord) (s : State) : (cwMirror k d s).mtime = s.mtime :=
  ((cwMirror_does (A := [.pair, .out]) k d s (Does.refl _ _) rfl).only .time rfl).2
@[simp] theorem cwMirror_freeCtr (k : Nat) (d : List DWord) (s : State) : (cwMirror k d s).freeCtr = s.freeCtr :=
  ((cwMirror_does (A := [.pair, .out]) k d s (Does.refl _ _) rfl).only .free rfl)
@[simp] theorem cwMirror_mem (k : Nat) (d : List DWord) (s : State) : (cwMirror k d s).mem = s.mem :=
  ((cwMirror_does (A := [.pair, .out]) k d s (Does.refl _ _) rfl).only .mem rfl)
@[simp] theorem cwMirror_strand (k : Nat) (d : List DWord) (s : State) : (cwMirror k d s).strand = s.strand :=
  ((cwMirror_does (A := [.pair, .out]) k d s (Does.refl _ _) rfl).only .strand rfl)
@[simp] theorem cwMirror_backup (k : Nat) (d : List DWord) (s : State) : (cwMirror k d s).backup = s.backup :=
  ((cwMirror_does (A := [.pair, .out]) k d s (Does.refl _ _) rfl).only .backup rfl)
@[simp] theorem cwMirror_tides (k : Nat) (d : List DWord) (s : State) : (cwMirror k d s).tides = s.tides :=
  ((cwMirror_does (A := [.pair, .out]) k d s (Does.refl _ _) rfl).only .tides rfl).1
@[simp] theorem cwMirror_tiFault (k : Nat) (d : List DWord) (s : State) : (cwMirror k d s).tiFault = s.tiFault :=
  ((cwMirror_does (A := [.pair, .out]) k d s (Does.refl _ _) rfl).only .tides rfl).2
@[simp] theorem cwMirror_tt (k : Nat) (d : List DWord) (s : State) : (cwMirror k d s).tt = s.tt :=
  ((cwMirror_does (A := [.pair, .out]) k d s (Does.refl _ _) rfl).only .tideTable rfl).1
@[simp] theorem cwMirror_ttOut (k : Nat) (d : List DWord) (s : State) : (cwMirror k d s).ttOut = s.ttOut :=
  ((cwMirror_does (A := [.pair, .out]) k d s (Does.refl _ _) rfl).only .tideTable rfl).2.1
@[simp] theorem cwMirror_ttFull (k : Nat) (d : List DWord) (s : State) : (cwMirror k d s).ttFull = s.ttFull :=
  ((cwMirror_does (A := [.pair, .out]) k d s (Does.refl _ _) rfl).only .tideTable rfl).2.2
@[simp] theorem cwMirror_seqs (k : Nat) (d : List DWord) (s : State) : (cwMirror k d s).seqs = s.seqs :=
  ((cwMirror_does (A := [.pair, .out]) k d s (Does.refl _ _) rfl).only .seqs rfl)
@[simp] theorem cwMirror_exe (k : Nat) (d : List DWord) (s : State) : (cwMirror k d s).exe = s.exe :=
  ((cwMirror_does (A := [.pair, .out]) k d s (Does.refl _ _) rfl).only .exe rfl)
@[simp] theorem cwMirror_loop (k : Nat) (d : List DWord) (s : State) : (cwMirror k d s).loop = s.loop :=
  ((cwMirror_does (A := [.pair, .out]) k d s (Does.refl _ _) rfl).only .loop rfl)
@[simp] theorem cwMirror_dio (k : Nat) (d : List DWord) (s : State) : (cwMirror k d s).dio = s.dio :=
  ((cwMirror_does (A := [.pair, .out]) k d s (Does.refl _ _) rfl).only .dio rfl).1
@[simp] theorem cwMirror_dioBank (k : Nat) (d : List DWord) (s : State) : (cwMirror k d s).dioBank = s.dioBank :=
  ((cwMirror_does (A := [.pair, .out]) k d s (Does.refl _ _) rfl).only .dio rfl).2.1
@[simp] theorem cwMirror_po (k : Nat) (d : List DWord) (s : State) : (cwMirror k d s).po = s.po :=
  ((cwMirror_does (A := [.pair, .out]) k d s (Does.refl _ _) rfl).only .dio rfl).2.2
@[simp] theorem cwMirror_terms (k : Nat) (d : List DWord) (s : State) : (cwMirror k d s).terms = s.terms :=
  ((cwMirror_does (A := [.pair, .out]) k d s (Does.refl _ _) rfl).only .rfx rfl).1
@[simp] theorem cwMirror_rfxStopped (k : Nat) (d : List DWord) (s : State) : (cwMirror k d s).rfxStopped = s.rfxStopped :=
  ((cwMirror_does (A := [.pair, .out]) k d s (Does.refl _ _) rfl).only .rfx rfl).2
@[simp] theorem cwMirror_an (k : Nat) (d : List DWord) (s : State) : (cwMirror k d s).an = s.an :=
  ((cwMirror_does (A := [.pair, .out]) k d s (Does.refl _ _) rfl).only .ana rfl).1
@[simp] theorem cwMirror_anBank (k : Nat) (d : List DWord) (s : State) : (cwMirror k d s).anBank = s.anBank :=
  ((cwMirror_does (A := [.pair, .out]) k d s (Does.refl _ _) rfl).only .ana rfl).2
@[simp] theorem cwMirror_saf (k : Nat) (d : List DWord) (s : State) : (cwMirror k d s).saf = s.saf :=
  ((cwMirror_does (A := [.pair, .out]) k d s (Does.refl _ _) rfl).only .saf rfl)
@[simp] theorem cwMirror_triad (k : Nat) (d : List DWord) (s : State) : (cwMirror k d s).triad = s.triad :=
  ((cwMirror_does (A := [.pair, .out]) k d s (Does.refl _ _) rfl).only .triad rfl)
@[simp] theorem cwMirror_net (k : Nat) (d : List DWord) (s : State) : (cwMirror k d s).net = s.net :=
  ((cwMirror_does (A := [.pair, .out]) k d s (Does.refl _ _) rfl).only .net rfl)
@[simp] theorem cwMirror_can (k : Nat) (d : List DWord) (s : State) : (cwMirror k d s).can = s.can :=
  ((cwMirror_does (A := [.pair, .out]) k d s (Does.refl _ _) rfl).only .can rfl)
@[simp] theorem cwMirror_lcy (k : Nat) (d : List DWord) (s : State) : (cwMirror k d s).lcy = s.lcy :=
  ((cwMirror_does (A := [.pair, .out]) k d s (Does.refl _ _) rfl).only .lcy rfl)
@[simp] theorem cwMirror_fwu (k : Nat) (d : List DWord) (s : State) : (cwMirror k d s).fwu = s.fwu :=
  ((cwMirror_does (A := [.pair, .out]) k d s (Does.refl _ _) rfl).only .fwu rfl).1
@[simp] theorem cwMirror_dbgData (k : Nat) (d : List DWord) (s : State) : (cwMirror k d s).dbgData = s.dbgData :=
  ((cwMirror_does (A := [.pair, .out]) k d s (Does.refl _ _) rfl).only .host rfl).2.2.2
@[simp] theorem cwMirror_fwPause (k : Nat) (d : List DWord) (s : State) : (cwMirror k d s).fwPause = s.fwPause :=
  ((cwMirror_does (A := [.pair, .out]) k d s (Does.refl _ _) rfl).only .fwu rfl).2.1
@[simp] theorem cwMirror_fwWait (k : Nat) (d : List DWord) (s : State) : (cwMirror k d s).fwWait = s.fwWait :=
  ((cwMirror_does (A := [.pair, .out]) k d s (Does.refl _ _) rfl).only .fwu rfl).2.2
@[simp] theorem cwMirror_sup (k : Nat) (d : List DWord) (s : State) : (cwMirror k d s).sup = s.sup :=
  ((cwMirror_does (A := [.pair, .out]) k d s (Does.refl _ _) rfl).only .sup rfl)
@[simp] theorem cwMirror_mpu (k : Nat) (d : List DWord) (s : State) : (cwMirror k d s).mpu = s.mpu :=
  ((cwMirror_does (A := [.pair, .out]) k d s (Does.refl _ _) rfl).only .mpu rfl)
@[simp] theorem cwMirror_mailboxes (k : Nat) (d : List DWord) (s : State) : (cwMirror k d s).mailboxes = s.mailboxes :=
  ((cwMirror_does (A := [.pair, .out]) k d s (Does.refl _ _) rfl).only .mbx rfl).1
@[simp] theorem cwMirror_locks (k : Nat) (d : List DWord) (s : State) : (cwMirror k d s).locks = s.locks :=
  ((cwMirror_does (A := [.pair, .out]) k d s (Does.refl _ _) rfl).only .mbx rfl).2
@[simp] theorem cwMirror_queSeq (k : Nat) (d : List DWord) (s : State) : (cwMirror k d s).queSeq = s.queSeq :=
  ((cwMirror_does (A := [.pair, .out]) k d s (Does.refl _ _) rfl).only .queSeq rfl)

/-! ### Registers -/

@[simp] theorem rd_orReg (x a : Nat) (m : Word) (s : State) : rd x (orReg a m s) = if x = a then rd a s ||| m else rd x s :=
  rd_wr _ _ _ _

@[simp] theorem rd_clrReg (x a : Nat) (m : Word) (s : State) : rd x (clrReg a m s) = if x = a then rd a s &&& ~~~ m else rd x s :=
  rd_wr _ _ _ _

@[simp] theorem rd_setFld (x : Nat) (f : RegField) (v : Nat) (s : State) :
    rd x (setFld f v s) = if x = f.addr then withField (rd f.addr s) f v else rd x s := rd_wr _ _ _ _

@[simp] theorem rd_setFlag (x : Nat) (f : RegField) (b : Bool) (s : State) :
    rd x (setFlag f b s) = if x = f.addr then withField (rd f.addr s) f b.toNat else rd x s := rd_wr _ _ _ _

@[simp] theorem rd_raise (x v a : Nat) (m : Word) (s : State) :
    rd x (raise v a m s) = if x = a then rd a s ||| m else rd x s := by
  unfold raise withIrq
  dsimp only
  split
  · exact rd_orReg _ _ _ _
  · exact rd_orReg _ _ _ _

@[simp] theorem rd_raiseF (x v : Nat) (f : RegField) (s : State) :
    rd x (raiseF v f s) = if x = f.addr then rd f.addr s ||| fieldMask f else rd x s := rd_raise _ _ _ _ _

@[simp] theorem rd_raiseBit (x v : Nat) (f : RegField) (i : Nat) (s : State) :
    rd x (raiseBit v f i s) = if x = f.addr then rd f.addr s ||| bitMask (f.lo + i) else rd x s := rd_raise _ _ _ _ _

theorem fieldOf_testBit (w : Word) (f : RegField) (i : Nat) :
    (fieldOf w f).testBit i = (decide (i < f.width) && w.getLsbD (i + f.lo)) := by
  simp [fieldOf, Nat.testBit_mod_two_pow, Nat.testBit_div_two_pow, BitVec.getLsbD]

theorem fieldMask_bit (f : RegField) (j : Nat) :
    (fieldMask f).getLsbD j = (decide (j < 32) && (decide (f.lo ≤ j) && decide (j - f.lo < f.width))) := by
  simp [fieldMask, BitVec.getLsbD_ofNat, Nat.testBit_mul_two_pow, Nat.testBit_two_pow_sub_one]

theorem withField_bit (w : Word) (f : RegField) (v j : Nat) :
    (withField w f v).getLsbD j = (decide (j < 32) &&
      if f.lo ≤ j ∧ j - f.lo < f.width then v.testBit (j - f.lo) else w.getLsbD j) := by
  unfold withField
  rw [BitVec.getLsbD_or, BitVec.getLsbD_and, BitVec.getLsbD_not, fieldMask_bit, BitVec.getLsbD_ofNat,
    Nat.testBit_mul_two_pow, Nat.testBit_mod_two_pow]
  by_cases h : j < 32 <;> by_cases a : f.lo ≤ j <;> by_cases b : j - f.lo < f.width <;> simp [h, a, b]

/-- A field keeps the value it is given, cut to its width. -/
theorem fieldOf_withField (w : Word) (f : RegField) (v : Nat) (h : f.lo + f.width ≤ 32) :
    fieldOf (withField w f v) f = v % 2 ^ f.width := by
  apply Nat.eq_of_testBit_eq
  intro i
  rw [fieldOf_testBit, withField_bit, Nat.testBit_mod_two_pow]
  by_cases hi : i < f.width
  · have e : i + f.lo < 32 := by omega
    simp [hi, e]
  · simp [hi]

/-- A disjoint field of the same register keeps its value. -/
theorem fieldOf_withField_disj (w : Word) (f g : RegField) (v : Nat) (h : g.lo + g.width ≤ f.lo ∨ f.lo + f.width ≤ g.lo) :
    fieldOf (withField w f v) g = fieldOf w g := by
  apply Nat.eq_of_testBit_eq
  intro i
  rw [fieldOf_testBit, fieldOf_testBit, withField_bit]
  by_cases hi : i < g.width
  · have n : ¬(f.lo ≤ i + g.lo ∧ i + g.lo - f.lo < f.width) := by omega
    simp only [hi, n, decide_true, Bool.true_and, if_false]
    by_cases e : i + g.lo < 32
    · simp [e]
    · simp [e, BitVec.getLsbD_of_ge w (i + g.lo) (by omega)]
  · simp [hi]

theorem fld_setFld_same (f : RegField) (v : Nat) (s : State) (h : f.lo + f.width ≤ 32) : fld f (setFld f v s) = v % 2 ^ f.width := by
  simp [fld, fieldOf_withField _ _ _ h]

theorem fld_setFld_addr (f g : RegField) (v : Nat) (s : State) (h : g.addr ≠ f.addr) : fld g (setFld f v s) = fld g s := by
  simp [fld, h]

theorem fld_setFld_disj (f g : RegField) (v : Nat) (s : State) (h : g.lo + g.width ≤ f.lo ∨ f.lo + f.width ≤ g.lo) :
    fld g (setFld f v s) = fld g s := by
  unfold fld
  rw [rd_setFld]
  split
  · rename_i e
    rw [fieldOf_withField_disj _ _ _ _ h, e]
  · rfl

@[simp] theorem rd_strEvent (x : Nat) (g : RegField) (s : State) : rd x (strEvent g s) = rd x s :=
  (strEvent_does (A := [.strand, .out]) g s (Does.refl _ _) rfl).only (.block (x / 65536)) rfl x rfl
@[simp] theorem fld_strEvent (f : RegField) (g : RegField) (s : State) : fld f (strEvent g s) = fld f s := by simp [fld]
@[simp] theorem flag_strEvent (f : RegField) (g : RegField) (s : State) : flag f (strEvent g s) = flag f s := by simp [flag]
@[simp] theorem rd_present (x : Nat) (r : StrRec) (s : State) : rd x (present r s) = rd x s :=
  (present_does (A := [.strand, .out]) r s (Does.refl _ _) rfl).only (.block (x / 65536)) rfl x rfl
@[simp] theorem fld_present (f : RegField) (r : StrRec) (s : State) : fld f (present r s) = fld f s := by simp [fld]
@[simp] theorem flag_present (f : RegField) (r : StrRec) (s : State) : flag f (present r s) = flag f s := by simp [flag]
@[simp] theorem rd_sayD (x : Nat) (st : Status) (d : DWord) (s : State) : rd x (sayD st d s) = rd x s :=
  (sayD_does (A := [.strand, .out]) st d s (Does.refl _ _) rfl).only (.block (x / 65536)) rfl x rfl
@[simp] theorem fld_sayD (f : RegField) (st : Status) (d : DWord) (s : State) : fld f (sayD st d s) = fld f s := by simp [fld]
@[simp] theorem flag_sayD (f : RegField) (st : Status) (d : DWord) (s : State) : flag f (sayD st d s) = flag f s := by simp [flag]
@[simp] theorem rd_say (x : Nat) (st : Status) (s : State) : rd x (say st s) = rd x s :=
  (say_does (A := [.free, .strand, .out]) st s (Does.refl _ _) rfl).only (.block (x / 65536)) rfl x rfl
@[simp] theorem fld_say (f : RegField) (st : Status) (s : State) : fld f (say st s) = fld f s := by simp [fld]
@[simp] theorem flag_say (f : RegField) (st : Status) (s : State) : flag f (say st s) = flag f s := by simp [flag]
@[simp] theorem rd_sayRegion (x : Nat) (st : Status) (s : State) : rd x (sayRegion st s) = rd x s :=
  (sayRegion_does (A := [.free, .strand, .out]) st s (Does.refl _ _) rfl).only (.block (x / 65536)) rfl x rfl
@[simp] theorem fld_sayRegion (f : RegField) (st : Status) (s : State) : fld f (sayRegion st s) = fld f s := by simp [fld]
@[simp] theorem flag_sayRegion (f : RegField) (st : Status) (s : State) : flag f (sayRegion st s) = flag f s := by simp [flag]
@[simp] theorem rd_cwSend (x : Nat) (k : Nat) (d : List DWord) (s : State) : rd x (cwSend k d s) = rd x s :=
  (cwSend_does (A := [.pair, .out]) k d s (Does.refl _ _) rfl).only (.block (x / 65536)) rfl x rfl
@[simp] theorem fld_cwSend (f : RegField) (k : Nat) (d : List DWord) (s : State) : fld f (cwSend k d s) = fld f s := by simp [fld]
@[simp] theorem flag_cwSend (f : RegField) (k : Nat) (d : List DWord) (s : State) : flag f (cwSend k d s) = flag f s := by simp [flag]
@[simp] theorem rd_cwMirror (x : Nat) (k : Nat) (d : List DWord) (s : State) : rd x (cwMirror k d s) = rd x s :=
  (cwMirror_does (A := [.pair, .out]) k d s (Does.refl _ _) rfl).only (.block (x / 65536)) rfl x rfl
@[simp] theorem fld_cwMirror (f : RegField) (k : Nat) (d : List DWord) (s : State) : fld f (cwMirror k d s) = fld f s := by simp [fld]
@[simp] theorem flag_cwMirror (f : RegField) (k : Nat) (d : List DWord) (s : State) : flag f (cwMirror k d s) = flag f s := by simp [flag]
@[simp] theorem rd_sendOut (x : Nat) (o : Out) (s : State) : rd x (sendOut o s) = rd x s := rfl
@[simp] theorem fld_sendOut (f : RegField) (o : Out) (s : State) : fld f (sendOut o s) = fld f s := rfl
@[simp] theorem flag_sendOut (f : RegField) (o : Out) (s : State) : flag f (sendOut o s) = flag f s := rfl
@[simp] theorem rd_mset (x : Nat) (a : Nat) (v : Byte) (s : State) : rd x (mset a v s) = rd x s := rfl
@[simp] theorem fld_mset (f : RegField) (a : Nat) (v : Byte) (s : State) : fld f (mset a v s) = fld f s := rfl
@[simp] theorem flag_mset (f : RegField) (a : Nat) (v : Byte) (s : State) : flag f (mset a v s) = flag f s := rfl

end Sys2Proof.Machine
end

