-- ==== Sys2Proof/Tests/Slice0.lean ====
section
/-! SUPPORT. Small tests, each of one step or one table, and for every statement a state that meets its hypotheses. -/
namespace Sys2Proof.Tests
set_option Elab.async false
open Sys2Proof.Machine

/-- A module in RUN that has ended its start. -/
def up : State :=
  { State.reset with sup := { inReset := false } } |> setFld Fld.SUP_PWR_STATE_STATE 3 |> setFlag Fld.MOD_STATUS_START_DONE true


/-- The DRAM below 4 GiB is present in every variant: a check there rests on no Config value. -/
theorem mpuCheck_low (m a : Nat) (k : Acc) (c : Nat) (s : State) (h : a ≤ 0x0FFFFFFFF) : mpuCheck m a k c s =
    if mpuFixed m a k then some 0
    else match findDesc s.mpu.rules m a 32 0 with
      | none => some 1
      | some d =>
        if !(match k with | .read => d.w2.getLsbD 30 | .write => d.w2.getLsbD 29 | .fetch => d.w2.getLsbD 28) then some 2
        else if tagged a then
          let g := granuleColour a s
          if !(mpuCfg s.mpu.rules m).getLsbD (16 + g) then some 3
          else if k == .write && g != c && !d.w2.getLsbD 27 then some 4
          else none
        else none := by
  have hp : populated a = true := by
    unfold populated dramEnd
    rw [if_pos (by omega)]
    split <;> simp <;> omega
  unfold mpuCheck
  rw [hp]
  rfl
/-- An option holds a value of which a test holds. -/
theorem any_of {α : Type} {o : Option α} {p : α → Bool} (d : α) (h : o = some d) (hp : p d = true) : o.any p = true := by
  rw [h]; exact hp

theorem wit_RegionFaults : regionsUp up = true ∧ inFallback 0 up = false ∧ alive up = true ∧ up.sup.clockFailed.contains .net = false
    ∧ (isolateBank 2 1 up).sup.isolated.any (fun e => e.1 / 256 == 2) = true ∧ regionsUp (isolateBank 2 1 up) = true
    ∧ inFallback 2 (isolateBank 2 1 up) = false ∧ up.sup.inReset = false ∧ 2 ≤ power up := by decide +kernel

/-- A module just inserted, in reset. -/
def inserted : State := { State.reset with sup := { converters := true, seated := true, leverClosed := true } }
theorem wit_FeedsSeatAndLever : alive up = true ∧ flag (feedOk true) up = false ∧ flag (feedOk false) up = false ∧ up.sup.powerFail = false
    ∧ alive { up with sup := { up.sup with powerFail := true } } = true ∧ activeSide up = false ∧ up.pair.switch = .none
    ∧ alive { up with sup := { up.sup with removing := true } } = true ∧ sidOf 1 ≠ up.sup.sid
    ∧ inserted.sup.inReset = true ∧ inserted.sup.supplyLow = true ∧ inserted.sup.converters = true := by decide +kernel

/-- A lone module that is seated and waits for authority. -/
def seated : State := setFld Fld.PAIR_STATE_STATE 5 { up with sup := { up.sup with seated := true, leverClosed := true, sid := 2 } }
/-- It has claimed, and holds AUTH. -/
def claimed : State := { seated with sup := { seated.sup with authDriven := true, claimAt := some 0 } }
def holder : State := setFlag Fld.PAIR_STATE_AUTH_HELD true { seated with sup := { seated.sup with authDriven := true } }
def contest : State := { holder with sup := { holder.sup with contesting := true } }
theorem wit_AuthLine : mayClaim seated = true ∧ alive claimed = true ∧ claimed.sup.authDriven = true ∧ claimed.sup.claimAt.isSome = true
    ∧ alive holder = true ∧ flag Fld.PAIR_STATE_AUTH_HELD holder = true ∧ holder.sup.authDriven = true
    ∧ holder.sup.contesting = false ∧ alive contest = true ∧ contest.sup.contesting = true := by decide +kernel

/-- The host has read the low word of the backup count. -/
def half : State := { up with captured := [(Reg.CLK_COUNT_LO + 4, 7)] }
theorem wit_HostRegisterAccess : plainReg Reg.MOD_IRQ_EN = true ∧ hostOk Reg.MOD_IRQ_EN .write up = true ∧ hostOk Reg.CLK_TRIM .write up = true
    ∧ hostOk Reg.STR_EVENT .write up = true ∧ isLow (Reg.CLK_COUNT_LO) = true ∧ regRow Reg.CLK_COUNT_LO ≠ none
    ∧ hostOk Reg.CLK_COUNT_LO .read up = true ∧ isLow (Reg.CLK_COUNT_LO + 4) = false ∧ hostOk (Reg.CLK_COUNT_LO + 4) .read up = true
    ∧ isCounter Fld.TIDE_CLOSE_CALL_COUNT.addr = true ∧ hostOk Fld.TIDE_CLOSE_CALL_COUNT.addr .read up = true := by decide +kernel

/-- Trace buffer 3 runs. -/
def tracing : State := setFlag (Fld.TRBb_STATUS_RUN 3) true up
theorem wit_RangedFieldsStayInRange : hostOk Reg.PAIR_CFG .write up = true ∧ hostOk Reg.PTP_JUMP .write up = true
    ∧ hostOk Reg.RING_CFG .write up = true ∧ hostOk Reg.STR_FREEZE_CFG .write up = true ∧ hostOk Reg.LCY_DBG_CFG .write up = true
    ∧ hostOk Reg.FWU_CFG .write up = true ∧ flag (Fld.TRBb_STATUS_RUN 3) tracing = true
    ∧ hostOk (Reg.TRBb_CFG 3) .write tracing = true ∧ hostOk (Reg.DIO_BANKk_CFG 3) .write up = true := by decide +kernel

theorem dramEnd_cases : dramEnd = 0x0FFFFFFFF ∨ dramEnd = 0x1FFFFFFFF := by unfold dramEnd; split <;> simp
theorem wit_HostMemoryAccess : power up ≠ 0 ∧ up.sup.inReset = false ∧ hostAnswers 0x130000 up = true
    ∧ (accParts 64 5 0xFFFFFF00 256).all (fun p => (partCause 8 p.1 .read up).isNone) = true
    ∧ (accParts 64 5 0x2000003F 2).all (fun p => (partCause 8 p.1 .write up).isNone) = true
    ∧ State.reset.sup.inReset = true := by
  refine ⟨by decide +kernel, by decide +kernel, by decide +kernel, ?_, ?_, rfl⟩ <;>
  · simp only [partCause, mpuCheck, populated]
    rcases dramEnd_cases with h | h <;> rw [h] <;> decide +kernel

/-- Tide 7 free-running at 50 Hz, disabled; the same enabled; and tide 0 on an encoder. -/
def tideOff : State := wr (Reg.TDn_SCALE 7) 50000 up |> setFld (Fld.TDn_CFG_KI_SHIFT 7) 8 |> setFld (Fld.TDn_CFG_HOLD_ENTRY 7) 1
  |> setFld (Fld.TDn_WINDOWS_LOCK_COUNT 7) 1 |> setFld (Fld.TDn_HOLDLIM_HOLD_LIMIT 7) 1
def tideOn : State := tideEnable 7 tideOff
def tideEnc : State := onTide 0 (fun x => { x with st := .locked }) (setFld (Fld.TDn_CFG_SOURCE 0) 2 (wr (Reg.TDn_SCALE 0) 4096 up))
theorem wit_TideHostCommands : hostOk Reg.TIDE_CTRL .write tideOff = true ∧ tideEnabled 7 tideOff = false
    ∧ tideConflict 7 tideOff = false ∧ tideRangeOk 7 tideOff = true ∧ tideRangeOk 7 (wr (Reg.TDn_SCALE 7) 0 tideOff) = false
    ∧ hostOk Reg.TIDE_CTRL .write tideOn = true ∧ tideEnabled 7 tideOn = true ∧ tideRuns 7 tideOn = true ∧ tideSource 7 tideOn = 0
    ∧ tideRuns 0 tideEnc = true ∧ tideSource 0 tideEnc ≠ 0 ∧ hostOk Reg.TIDE_CTRL .write tideEnc = true
    ∧ hostOk Reg.TIDE_LOCK .write up = true := by decide +kernel

def tideMains : State := onTide 3 (fun x => { x with st := .acquire }) (setFld (Fld.TDn_CFG_SOURCE 3) 1 (wr (Reg.TDn_SCALE 3) 50000 up))
  |> setFld (Fld.TDn_WINDOWS_FILTER 3) 40
def tideStep : State := setFld (Fld.TDn_CFG_SOURCE 0) 3 (setFld (Fld.TDn_CFG_INDEX_MODE 0) 1 tideEnc)
def tideNet : State := onTide 2 (fun x => { x with st := .acquire }) (setFld (Fld.TDn_CFG_SOURCE 2) 4
  (wr (Reg.TDn_SCALE 2) 1000000 (setFlag Fld.PTP_STATE_DISCIPLINED true up)))
def tideEdge : State := onTide 0 (fun x => { x with hadEdge := true }) tideEnc
theorem wit_TideMeasurements : crossingUsed 3 true tideMains = true ∧ (tide 3 tideMains).lastCross = none ∧ (tide 3 tideMains).crossings = 0
    ∧ fld (Fld.TDn_WINDOWS_FILTER 3) tideMains * 50 = 2000 ∧ tideSource 3 tideMains = 1 ∧ (tide 3 tideMains).st = .acquire
    ∧ alive tideMains = true ∧ edgesLive 0 2 tideEnc = true ∧ edgesLive 0 3 tideStep = true
    ∧ fld (Fld.TDn_CFG_INDEX_MODE 0) tideStep ≠ 0 ∧ (tide 0 tideStep).indexSeen = false
    ∧ regionsUp tideNet = true ∧ tideRuns 2 tideNet = true ∧ tideSource 2 tideNet = 4 ∧ disciplined tideNet = true
    ∧ edgesLive 0 2 tideEdge = true ∧ (tide 0 tideEdge).reject = false ∧ (tide 0 tideEdge).hadEdge = true
    ∧ regionsUp up = true := by decide +kernel

def tideWait : State := onTide 0 (fun x => { x with pend := some { phi := 0x80000000, tk := 0 } }) tideEnc
def tideHeld : State := onTide 0 (fun x => { x with st := .holdover }) tideEnc
theorem wit_TideTracking : regionsUp tideWait = true ∧ tideRuns 0 tideWait = true ∧ (tide 0 tideWait).pend = some { phi := 0x80000000, tk := 0 }
    ∧ (tide 0 tideWait).st = .locked ∧ (tide 0 tideWait).fresh = false ∧ alive tideHeld = true ∧ (tide 0 tideHeld).st = .holdover
    ∧ inRange (tideSource 0 tideEnc) 1 3 = true ∧ (tide 0 tideEnc).st = .locked := by decide +kernel

/-- The host selects entry 4095, the last, which is valid, with a clear action of tide 0 staged. -/
def ttUp : State := up |> setFld Fld.TT_SEL_INDEX 4095 |> wr (Reg.TT_DATA 0) 0x80000000 |> onTT 4095 (fun e => { e with w0 := 0x80000000, w1 := 5 })
theorem wit_TideTableHostCommands : hostOk Reg.TT_CMD .write ttUp = true ∧ ttHosts (fld Fld.TT_SEL_INDEX ttUp) ttUp = true
    ∧ ttBad { w0 := rd (Reg.TT_DATA 0) ttUp, w3 := rd (Reg.TT_DATA 3) ttUp } ttUp = false
    ∧ inRange ((rd (Reg.TT_DATA 0) ttUp).toNat / 2 ^ 24 % 16) 1 2 = false
    ∧ ttHosts (fld Fld.TT_SEL_INDEX (setFld Fld.TT_PARTITION_HOST_FIRST 4096 ttUp)) (setFld Fld.TT_PARTITION_HOST_FIRST 4096 ttUp) = false
    ∧ hostOk Reg.TT_PARTITION .write up = true ∧ up.tt.any (fun x => ttValid x.2) = false
    ∧ hostOk Reg.TT_PARTITION .write ttUp = true ∧ ttUp.tt.any (fun x => ttValid x.2) = true
    ∧ hostOk Reg.TT_CLAIM .write up = true := by decide +kernel

/-- Entry 7 of tide 0 is armed and repeats by 9 counts; entry 1 fires late; and the pulse output 0 is high. -/
def ttFiring : State := setFlag Fld.TT_CTRL_RUN true tideEnc
  |> onTT 7 (fun _ => { w0 := 0x80080000, w1 := 100, w2 := 9, armed := true })
  |> onTT 1 (fun _ => { w0 := 0x80000000, late := some true }) |> onTTOut 0 (fun x => { x with value := true, trailing := some 3 })
def ttHeld : State := onTide 0 (fun x => { x with st := .holdover }) ttFiring
def ttSeq : State := onSeq 3 (fun x => { x with st := .held }) ttFiring
theorem wit_TideTableFiring : regionsUp ttFiring = true ∧ regionsUp ttSeq = true ∧ (seq 3 ttSeq).st = .held ∧ ttValid (ttEntry 7 ttFiring) = true ∧ ttRuns ttFiring = true
    ∧ (ttEntry 7 ttFiring).armed = true ∧ ttDirOk (ttEntry 7 ttFiring) true = true ∧ tideRuns 0 ttFiring = true
    ∧ tideAllows (ttHold (ttEntry 7 ttFiring)) (tide 0 ttFiring).st = true ∧ tideAllows (ttHold (ttEntry 7 ttHeld)) (tide 0 ttHeld).st = false
    ∧ ttRuns ttHeld = true ∧ tideRuns 0 ttHeld = true ∧ ttTide (ttEntry 7 ttFiring) = 0
    ∧ (ttEntry 1 ttFiring).late.isSome = true ∧ tideAllows (ttHold (ttEntry 1 ttFiring)) (tide 0 ttFiring).st = true
    ∧ (ttOut (tideOutCode (.dio 0)) ttFiring).trailing.isSome = true ∧ (ttOut (tideOutCode (.dio 0)) ttFiring).lineFailed = false := by
  decide +kernel

/-- Sequencer 31: idle with a START waiting; in a last step that is due; in a step of 10 µs that runs out; and past a TIMEOUT of 10 µs. -/
def sqIdle : State := onSeq 31 (fun x => { x with cmds := [.start 1023] }) up
def sqLast : State := onSeq 31 (fun x => { x with st := .run, work := [0x41000000] }) up
def sqTimed : State := onSeq 31 (fun x => { x with st := .run, work := [0x40005000, 1] }) { up with cycle := 1250 }
def sqStuck : State := onSeq 31 (fun x => { x with st := .run, work := [0x100003FF, 0, 1] }) { up with cycle := 1250 }
def standing : State := setFld Fld.PAIR_STATE_STATE 4 up
theorem wit_SequencerCommands : seqsRun sqIdle = true ∧ (seq 31 sqIdle).st = .idle ∧ (seq 31 sqIdle).cmds = [.start 1023]
    ∧ seqsRun sqLast = true ∧ (seq 31 sqLast).st = .run ∧ exitDue (seq 31 sqLast) sqLast = true
    ∧ stepBits (seq 31 sqLast).work 0 24 24 = 1 ∧ (seq 31 sqLast).cmds = []
    ∧ seqsRun sqTimed = true ∧ timeDue (seq 31 sqTimed) (execBase sqTimed) = true ∧ exitKind (seq 31 sqTimed).work = 0
    ∧ stepBits (seq 31 sqTimed).work 0 24 24 = 0 ∧ stepBits (seq 31 sqTimed).work 0 21 12 = 5
    ∧ timeoutDue (seq 31 sqStuck) sqStuck = true ∧ exitDue (seq 31 sqStuck) sqStuck = false
    ∧ stepBits (seq 31 sqStuck).work 0 9 0 = 1023 ∧ hostOk (Reg.SQs_CMD 31) .write up = true
    ∧ hostOk (Reg.SQs_SIGNAL 31) .write up = true ∧ regionsUp standing = true ∧ onStandby standing = true := by decide +kernel

/-- Cyclic tasks 0 and 7 on tide 7, event tasks 8 and 23 of mailbox 23, with a task output, a memory-only tag and a host tag. -/
def tagOf (locKind loc writerKind writer : Nat) (output : Bool) : TagDef :=
  { typ := 1, locKind := locKind, output := output, colour := 0, writerKind := writerKind, writerIndex := writer, location := toW loc, init := 0 }
def taskOf (kind prio : Nat) (step : Word) : TaskDef :=
  { kind := kind, prio := prio, tide := 7, hold := 0, either := false, src := 4, index := 23, angle := 0x80000000, step := step
    wdog := 1000, period := 1000, entry := 16, inputs := [5, 3], outputs := [] }
def imgA : Image :=
  { gen := 1, crc := 0x1234, codeLen := 100, consts := [(0, 7)], changeable := [0]
    tags := [(0, tagOf 1 0 1 7 true), (3, tagOf 1 31 0 0 false), (5, tagOf 0 8 4 0 false), (9, tagOf 1 0x300 0 0 false), (65535, tagOf 0 0x7FFF8 0 0 false)]
    tasks := [(0, taskOf 1 9 1), (7, { taskOf 1 5 0x40000000 with outputs := [0] }), (8, taskOf 2 3 0), (23, taskOf 2 31 0)]
    stations := [(63, { task := 7, staleLimit := 1 })], timers := [(0, { kind := .ton, key := 4, init := 0 })]
    counters := [(1, { kind := .counter, key := 6, init := 12 })], edges := [], dataLen := 0x1000, data := [(0, 0xA5), (0xFFF, 0x5A)] }
/-- The triad executes imgA with tide 7 in LOCKED; the same with every task idle and with tide 7 in HOLDOVER. -/
def exeIdle : State :=
  { up with exe := { up.exe with image := some imgA, area := true }, cycle := 50000 } |> setFld Fld.TRIAD_STATE_MODE 1
    |> setFlag Fld.EXE_CTRL_RUN true |> setFld Fld.EXE_STATE_STATE 1 |> onTide 7 (fun x => { x with st := .locked })
def exeHeld : State := onTide 7 (fun x => { x with st := .holdover }) exeIdle
/-- Task 0 runs, 7 is ready, 8 latches, and 23 commits with its flag set. -/
def exeBusy : State :=
  { exeIdle with exe := { exeIdle.exe with running := some 0 } } |> onTask 0 (fun x => { x with phase := .run, k := [(1, 5)] })
    |> onTask 7 (fun x => { x with phase := .ready }) |> onTask 8 (fun x => { x with phase := .latch, snap := [(3, { val := 1 })] })
    |> onTask 23 (fun x => { x with phase := .commit, pending := true })
def exePend : State := onTask 23 (fun x => { x with pending := true }) exeIdle
theorem wit_TaskReleases : exeRuns exeIdle = true ∧ onStandby exeIdle = false
    ∧ (taskDef 7 exeIdle).any (fun d => d.kind == 1 && tideAllows d.hold (tide d.tide exeIdle).st && (true || d.either)) = true
    ∧ (task 7 exeIdle).freerun = false ∧ (task 7 exeIdle).phase = .idle ∧ (task 7 exeIdle).held = .no ∧ slackBusy exeIdle = false
    ∧ (task 7 exeIdle).released = false ∧ exeRuns exeBusy = true ∧ onStandby exeBusy = false
    ∧ (taskDef 7 exeBusy).any (fun d => d.kind == 1 && tideAllows d.hold (tide d.tide exeBusy).st && (true || d.either)) = true
    ∧ (task 7 exeBusy).freerun = false ∧ (task 7 exeBusy).phase ≠ .idle ∧ exeBusy.fwPause = false ∧ exeRuns exeHeld = true
    ∧ onStandby exeHeld = false ∧ (taskDef 0 exeHeld).any (fun d => d.kind == 1 && !tideAllows d.hold (tide d.tide exeHeld).st) = true
    ∧ (task 0 exeHeld).phase = .idle ∧ (task 0 exeHeld).held = .no ∧ slackBusy exeHeld = false ∧ (task 0 exeHeld).released = false
    ∧ regionsUp exeIdle = true ∧ (taskDef 8 exeIdle).isSome = true ∧ (task 8 exeIdle).pending = false
    ∧ regionsUp exePend = true ∧ (taskDef 23 exePend).isSome = true ∧ (task 23 exePend).pending = true ∧ (taskDef 22 exeIdle).isSome = false
    ∧ exeRuns exePend = true ∧ onStandby exePend = false ∧ (taskDef 23 exePend).any (fun d => d.kind == 2) = true
    ∧ slackBusy exePend = false ∧ (task 23 exePend).phase = .idle ∧ (task 23 exePend).held = .no ∧ hostOk Reg.EXE_EVT_SIGNAL .write exeIdle = true
    ∧ (0x8001 : BitVec 16).getLsbD 15 = true ∧ (taskDef 23 exeIdle).isSome = true
    ∧ regionsUp exeBusy = true ∧ inFallback 0 exeBusy = false ∧ (task 8 exeBusy).phase = .latch ∧ (taskDef 8 exeBusy).isSome = true
    ∧ triadRuns exeBusy = true ∧ exeBusy.exe.running = some 0 ∧ nextTask exeBusy = some 7 ∧ taskPrio 7 exeBusy < taskPrio 0 exeBusy
    ∧ (task 0 exeBusy).phase = .run := by decide +kernel

/-- Task 7 commits; station 63 of task 7 has answered; the partner of an in-step side has committed cycle 0 of task 0. -/
def exeCommit : State := onTask 7 (fun x => { x with phase := .commit, output := [(0, 1)] }) exeIdle
def exeSwap : State := { exeIdle with exe := { exeIdle.exe with busy := .swap, phase := .armed, inactive := some imgA, needUs := 20 } }
def exeAnswer : State := onStation 63 (fun x => { x with answered := true, stale := true }) exeIdle
def exeAlone : State := setFld Fld.PAIR_STATE_STATE 5 exeBusy
def exeLate : State :=
  { exeBusy with pair := { exeBusy.pair with theirs := [{ task := 0, cycle := 0, crc := 0, since := 0, at_ := 0 }] } } |> setFld Fld.PAIR_STATE_STATE 4
theorem wit_TaskCommitsAndOverruns : regionsUp exeCommit = true ∧ inFallback 0 exeCommit = false ∧ (task 7 exeCommit).phase = .commit
    ∧ pairState exeCommit ≠ 4 ∧ outImage 7 exeCommit = [(0, 1)] ∧ hostOk Reg.EXE_CTRL .write exeIdle = true
    ∧ regionsUp exeSwap = true ∧ exeSwap.exe.busy = .swap ∧ regionsUp exeAnswer = true ∧ onStandby exeAnswer = false
    ∧ (taskStations 7 exeAnswer).map (·.1) = [63] ∧ (station 63 exeAnswer).answered = true ∧ regionsUp exeIdle = true ∧ onStandby exeIdle = false
    ∧ (taskStations 7 exeIdle).map (·.1) = [63] ∧ (station 63 exeIdle).answered = false
    ∧ (taskStations 7 exeIdle).any (fun e => decide (e.2.staleLimit ≤ (station 63 exeIdle).staleCount + 1)) = true
    ∧ regionsUp exeAlone = true ∧ inFallback 0 exeAlone = false ∧ (task 0 exeAlone).phase ≠ .idle ∧ pairState exeAlone = 5 ∧ exeAlone.fwPause = false
    ∧ regionsUp exeLate = true ∧ inFallback 0 exeLate = false ∧ (task 0 exeLate).phase ≠ .idle ∧ pairState exeLate = 4 ∧ exeLate.fwPause = false
    ∧ exeLate.pair.theirs.any (fun c => c.task == 0 && c.cycle == (task 0 exeLate).cycles) = true := by decide +kernel

/-- A checked image waits, with RUN 1 and with RUN 0; an image to go back to; and a list of one constant. -/
def chgReady : State := { exeIdle with exe := { exeIdle.exe with phase := .verified, inactive := some imgA } }
def chgFirst : State := setFlag Fld.EXE_CTRL_RUN false { chgReady with exe := { chgReady.exe with image := none } }
def chgOpen : State := setFlag Fld.EXE_CFG_CHANGE_MODE false exeIdle
def chgOnlyValues : State := setFlag Fld.EXE_CFG_CHANGE_MODE true exeIdle
def chgVerify : State := { chgOpen with exe := { chgOpen.exe with busy := .verify, savedPhase := .swapped, phase := .swapped } }
def chgSwapped : State := { chgOpen with exe := { chgOpen.exe with phase := .swapped, previous := some imgA } }
def chgValues : State :=
  { exeIdle with exe := { exeIdle.exe with busy := .values, list := [(0, 0x20000000), (2, 9)] } } |> setFld Fld.EXE_VALUES_LEN_LEN 1
theorem wit_OnlineChangeCommands : hostOk Reg.EXE_CHANGE_CMD .write chgOpen = true ∧ chgOpen.exe.busy = .none ∧ chgOpen.exe.phase = .none
    ∧ flag Fld.EXE_CFG_CHANGE_MODE chgOpen = false ∧ onStandby chgOpen = false ∧ hostOk Reg.EXE_CHANGE_CMD .write chgOnlyValues = true
    ∧ chgOnlyValues.exe.busy = .none ∧ chgOnlyValues.exe.phase = .none
    ∧ flag Fld.EXE_CFG_CHANGE_MODE chgOnlyValues = true ∧ regionsUp chgVerify = true ∧ chgVerify.exe.busy = .verify
    ∧ imageStatus imgA true true = none ∧ (imageStatus imgA false true).isSome = true ∧ hostOk Reg.EXE_CHANGE_CMD .write chgVerify = true
    ∧ onStandby chgVerify = false ∧ hostOk Reg.EXE_CHANGE_CMD .write chgReady = true ∧ chgReady.exe.busy = .none
    ∧ onStandby chgReady = false ∧ chgReady.exe.phase = .verified ∧ chgReady.exe.inactive = some imgA ∧ imageDiffers imgA chgReady = false
    ∧ flag Fld.EXE_CTRL_RUN chgReady = true ∧ hostOk Reg.EXE_CHANGE_CMD .write chgFirst = true ∧ chgFirst.exe.busy = .none ∧ onStandby chgFirst = false
    ∧ chgFirst.exe.phase = .verified ∧ chgFirst.exe.inactive = some imgA ∧ imageDiffers imgA chgFirst = false
    ∧ flag Fld.EXE_CTRL_RUN chgFirst = false ∧ hostOk Reg.EXE_CHANGE_CMD .write exeSwap = true
    ∧ onStandby exeSwap = false ∧ exeSwap.exe.busy = .swap ∧ hostOk Reg.EXE_CHANGE_CMD .write chgSwapped = true ∧ chgSwapped.exe.busy = .none
    ∧ onStandby chgSwapped = false ∧ chgSwapped.exe.phase = .swapped ∧ chgSwapped.exe.previous = some imgA ∧ imageDiffers imgA chgSwapped = false
    ∧ flag Fld.EXE_CTRL_RUN chgSwapped = true ∧ regionsUp chgValues = true ∧ chgValues.exe.busy = .values
    ∧ inRange (fld Fld.EXE_VALUES_LEN_LEN chgValues) 1 4096 = true
    ∧ ((List.range (fld Fld.EXE_VALUES_LEN_LEN chgValues)).map (listEntry chgValues)).all (fun e => listOk e chgValues) = true
    ∧ inRange (fld Fld.EXE_VALUES_LEN_LEN (setFld Fld.EXE_VALUES_LEN_LEN 0 chgValues)) 1 4096 = false := by decide +kernel

/-- The module swaps, goes back or applies one constant in a slack without end: no task is released. -/
def imgC : Image := { imgA with tasks := [], stations := [] }
def swSwap : State :=
  { exeSwap with
    exe := { exeSwap.exe with image := some imgC, tagMem := [(1, 1)], forces := [(0, 9, 1), (1, 5, 1)], timers := [(0, { q := true })] } }
def swBack : State := { swSwap with exe := { swSwap.exe with busy := .revert, phase := .swapped, previous := some imgA } }
def swApply : State := { swSwap with exe := { swSwap.exe with busy := .apply, phase := .none, values := [(2, 0, 9)] } }
def imgB : Image := { imgA with tasks := [], stations := [], tags := [(5, { tagOf 0 8 4 0 false with typ := 4 })] }
def swApplyTag : State := { swSwap with exe := { swSwap.exe with busy := .apply, image := some imgB, values := [(1, 5, 9)] } }
theorem wit_ImageSwitches : swSwap.exe.busy = .swap ∧ changeFits swSwap = true ∧ inRange (pairState swSwap) 2 3 = false
    ∧ swSwap.exe.inactive = some imgA ∧ swSwap.exe.image = some imgC
    ∧ ((imgA.tags.filter (fun e => e.2.typ != 0 && e.2.locKind == 0)).map (fun e => e.2.location.toNat / 8)).Nodup
    ∧ (Sparse.find imgA.tags 5).any (fun d => d.typ != 0 && d.locKind == 0 && (Sparse.find imgC.tags 5).any (fun e => e.typ == d.typ)) = true
    ∧ swBack.exe.busy = .revert ∧ changeFits swBack = true ∧ inRange (pairState swBack) 2 3 = false ∧ swBack.exe.previous = some imgA
    ∧ swApply.exe.busy = .apply ∧ changeFits swApply = true ∧ swApply.exe.values.all (fun e => e.1 == 2) = true
    ∧ swApplyTag.exe.busy = .apply ∧ changeFits swApplyTag = true ∧ swApplyTag.exe.values.length = 1
    ∧ swApplyTag.exe.values.all (fun e => e.1 == 1 && (tagDef e.2.1 swApplyTag).any (fun d => d.locKind == 0 && d.typ == 4)) = true := by decide +kernel

/-- Tag 5 is selected, forced and not; tag 9, which cannot be forced; and a standby side. -/
def frcFree : State := exeIdle |> setFld Fld.EXE_FORCE_TAG_TAG 5 |> wr Reg.EXE_FORCE_VAL_LO 3
def frcSet : State := { frcFree with exe := { frcFree.exe with forces := [(0, 3, 1), (1023, 5, 1)] } }
def frcCell : State := setFld Fld.EXE_FORCE_TAG_TAG 9 exeIdle
def frcStandby : State := setFld Fld.PAIR_STATE_STATE 2 frcFree
theorem wit_ForcesAndHostTagWrites : hostOk Reg.EXE_FORCE_CMD .write frcFree = true ∧ onStandby frcFree = false
    ∧ fld Fld.EXE_FORCE_TAG_TAG frcFree = (5 : Tag).toNat ∧ forceRefused (5 : Tag).toNat frcFree = false ∧ frcFree.exe.forces.length < 1024
    ∧ (forceOf (5 : Tag).toNat frcFree).isSome = false ∧ hostOk Reg.EXE_FORCE_CMD .write frcSet = true ∧ onStandby frcSet = false
    ∧ fld Fld.EXE_FORCE_TAG_TAG frcSet = (5 : Tag).toNat ∧ (forceOf (5 : Tag).toNat frcSet).isSome = true
    ∧ (frcSet.exe.forces.map (·.1)).Nodup ∧ (3 : Tag) ≠ 5 ∧ hostOk Reg.EXE_FORCE_CMD .write frcCell = true ∧ onStandby frcCell = false
    ∧ fld Fld.EXE_FORCE_TAG_TAG frcCell = (9 : Tag).toNat ∧ forceRefused (9 : Tag).toNat frcCell = true
    ∧ hostOk Reg.EXE_FORCE_CMD .write frcStandby = true ∧ onStandby frcStandby = true
    ∧ hostOk (0x02100000 + 8 * 5 + 4) .write frcFree = true ∧ (tagDef (5 : Tag).toNat frcFree).any (fun d =>
        d.writerKind == 4 && d.locKind == 0 && (tagColourCause 8 d .write frcFree).isNone) = true
    ∧ hostOk (0x02100000 + 8 * 3 + 0) .write frcFree = true ∧ (tagDef (3 : Tag).toNat frcFree).any (fun d => d.writerKind == 4) = false := by
  decide +kernel

/-- Task 0 runs with values at the ends of the ranges in k1, k3, k7 and k63. -/
def kqWith (a b c d : DWord) (f : Flags) : State :=
  { exeIdle with exe := { exeIdle.exe with running := some 0 } }
    |> onTask 0 (fun x => { x with phase := .run, k := [(1, a), (3, b), (7, c), (63, d)], flags := f, pc := 20 })
def kqA : State := kqWith 0x8000000000000000 0xFFFFFFFFFFFFFFFF 1 0x7FFFFFFFFFFFFFFF { ov := true }
def kqB : State := kqWith 0x80000000 0xFFFFFFFF 0x7FFFFFFF 0x100000000 { z := true, tov := true }
def kqC : State := kqWith 5 (BitVec.ofInt 64 (-3)) 0x123456789ABCDEF0 0xFFFFFFFF00000000 { n := true, nv := true }
theorem wit_KqIntegerArithmetic : kqRuns 0 kqA = true ∧ kqRuns 0 kqB = true ∧ sx true (kReg32 0 kqB 3) (kReg 0 kqB 3) ≠ 0
    ∧ sx true (kReg32 0 kqB 63) (kReg 0 kqB 63) = 0 ∧ sx false (kReg32 0 kqB 63) (kReg 0 kqB 63) ≠ 0
    ∧ sx false (kReg32 0 kqB 0) (kReg 0 kqB 0) = 0 := by decide +kernel

theorem wit_KqLogicAndShifts : kqRuns 0 kqC = true := by decide +kernel

theorem wit_KqImmediates : kqRuns 0 kqA = true ∧ kqA.exe.image.any (fun m => (Sparse.find m.consts 0).isSome) = true := by decide +kernel

/-- A signalling NaN, minus infinity, minus zero and one in F64; the same in F32; two infinities and a negative number. -/
def kqF : State := kqWith 0x7FF0000000000001 0xFFF0000000000000 0x8000000000000000 0x3FF0000000000000 {}
def kqG : State := kqWith 0x7F800001 0xFF800000 0x80000000 0x3F800000 {}
def kqH : State := kqWith 0x7FF0000000000000 0xFFF0000000000000 0xBFF0000000000000 0x7F800000 {}
theorem wit_KqFloatingPoint : kqRuns 0 kqF = true ∧ nanF false (kReg 0 kqF 1) = true ∧ nanF false (kReg 0 kqF 63) = false
    ∧ kqRuns 0 kqG = true ∧ nanF true (kReg 0 kqG 1) = true ∧ nanF true (kReg 0 kqG 3) = false
    ∧ kqRuns 0 kqH = true ∧ infF false (kReg 0 kqH 1) = true ∧ infF false (kReg 0 kqH 3) = true
    ∧ infF false (kReg 0 kqF 3) = true ∧ zeroF false (kReg 0 kqF 7) = true ∧ infF false (kReg 0 kqF 63) = false
    ∧ zeroF false (kReg 0 kqF 63) = false ∧ zeroF false (kReg 0 kqF 0) = true ∧ nanF false (kReg 0 kqF 7) = false
    ∧ nanF false (kReg 0 kqH 7) = false ∧ signF false (kReg 0 kqH 7) = true ∧ zeroF false (kReg 0 kqH 7) = false := by decide +kernel

theorem wit_KqComparisonsAndConversions : kqRuns 0 kqA = true ∧ nanF false (kReg 0 kqA 1) = false ∧ nanF false (kReg 0 kqA 7) = false
    ∧ kqRuns 0 kqF = true ∧ nanF false (kReg 0 kqF 1) = true ∧ kqRuns 0 kqG = true ∧ nanF true (kReg 0 kqG 1) = true
    ∧ infF false (kReg 0 kqF 3) = true ∧ infF false (kReg 0 kqA 1) = false ∧ nanF true (kReg 0 kqG 63) = false
    ∧ infF true (kReg 0 kqG 63) = false ∧ nanF false (kReg 0 kqF 63) = false := by decide +kernel

theorem wit_SumsAndProductsRoundToNearest : Flt.isFinite (fmtOf false) (fval false 0x3FF0000000000000) = true
    ∧ Flt.isFinite (fmtOf false) (fval false 1) = true ∧ Flt.isFinite (fmtOf true) (fval true 0x7F7FFFFF) = true
    ∧ (Flt.add (fmtOf false) (fval false 0x3FF0000000000000) (fval false 1)).ov = false
    ∧ (Flt.mul (fmtOf false) (fval false 0x3FF0000000000000) (fval false 1)).ov = false := by decide +kernel

/-- Task 0 has the inputs 5 and 3 latched; tag 9 is forced; task 7 has the output 0; k1 + k1 is 10 and k7 + k63 is 5. -/
def imgK : Image :=
  { imgA with tags := [(0, { tagOf 1 0 1 7 true with typ := 1 }), (2, { tagOf 0 0 0 0 false with typ := 2 }), (3, tagOf 1 31 0 0 false),
      (5, tagOf 0 8 4 0 false), (7, { tagOf 0 16 1 0 false with typ := 3 }), (9, tagOf 1 0x300 0 0 false), (10, { tagOf 0 24 0 0 false with typ := 6 })] }
def kqTags (t : Nat) : State :=
  { exeIdle with exe := { exeIdle.exe with running := some t, image := some imgK, forces := [(0, 7, 0xFFFFFFFF), (2, 0, 1)] } }
    |> onTask t (fun x => { x with
      phase := .run, k := [(1, 5), (3, 0xFFFFFFFFFFFF8000), (7, 2), (63, 3)], pc := 20, input := [(3, { val := 1, stale := true }), (5, { val := 1 })] })
def kqTag0 : State := kqTags 0
def kqTag7 : State := kqTags 7
theorem wit_KqTagAccess : kqRuns 0 kqTag0 = true ∧ pairState kqTag0 ≠ 4
    ∧ (kReg 0 kqTag0 1 + kReg 0 kqTag0 1).toNat % 65536 = 10 ∧ assignedIn 0 5 kqTag0 = true ∧ (Sparse.find (task 0 kqTag0).input 5).isSome = true
    ∧ assignedIn 0 7 kqTag0 = false ∧ (forceOf 7 kqTag0).isSome = true ∧ assignedOut 0 2 kqTag0 = false ∧ kqRuns 7 kqTag7 = true
    ∧ assignedOut 7 0 kqTag7 = true ∧ (tagDef 65535 kqTag0).isSome = false ∧ (tagDef 2 kqTag0).any (fun d => (3 : Nat) != 0 && 3 != d.typ) = true
    ∧ (tagDef 5 kqTag0).any (fun d => !storeAllowed 0 d) = true := by decide +kernel
theorem wit_KqTagAccess_load (ty : Nat) (h : ty = 0 ∨ ty = 3) : (tagDef 7 kqTag0).any (fun d => (ty == 0 || ty == d.typ)
    && (mpuCheck 0 (tagPlace 0 7 d kqTag0) .read d.colour kqTag0).isNone) = true :=
  any_of { tagOf 0 16 1 0 false with typ := 3 } (by decide +kernel) (by rcases h with rfl | rfl <;> (rw [mpuCheck_low] <;> decide +kernel))
theorem wit_KqTagAccess_loadx : (tagDef 10 kqTag0).any (fun d => ((6 : Nat) == 0 || 6 == d.typ)
    && (mpuCheck 0 (tagPlace 0 10 d kqTag0) .read d.colour kqTag0).isNone) = true :=
  any_of { tagOf 0 24 0 0 false with typ := 6 } (by decide +kernel) (by rw [mpuCheck_low] <;> decide +kernel)
theorem wit_KqTagAccess_store : (tagDef 2 kqTag0).any (fun d => ((2 : Nat) == 0 || 2 == d.typ) && storeAllowed 0 d && d.locKind == 0
    && (mpuCheck 0 (tagPlace 0 2 d kqTag0) .write d.colour kqTag0).isNone) = true :=
  any_of { tagOf 0 0 0 0 false with typ := 2 } (by decide +kernel) (by rw [mpuCheck_low] <;> decide +kernel)
theorem wit_KqTagAccess_out : (tagDef 0 kqTag7).any (fun d => ((1 : Nat) == 0 || 1 == d.typ) && storeAllowed 7 d
    && (mpuCheck 0 (tagPlace 7 0 d kqTag7) .write d.colour kqTag7).isNone) = true :=
  any_of { tagOf 1 0 1 7 true with typ := 1 } (by decide +kernel) (by rw [mpuCheck_low] <;> decide +kernel)

/-- k1 is 8, k3 a negative number, k7 is 0xFF8, and k63 is 3; the image of task 7 has one output. -/
def kqMem (t : Nat) : State :=
  mset 0x06000FFF 0x80 (mset 0x06000008 0xFE ({ exeIdle with exe := { exeIdle.exe with running := some t } }
    |> onTask t (fun x => { x with phase := .run, k := [(1, 8), (3, 0xFFFFFFFFFFFF8001), (7, 0xFF8), (63, 3)], output := [(0, 1)] })))
def kqMem0 : State := kqMem 0
def kqMem7 : State := kqMem 7
theorem wit_KqImageAccess : kqRuns 0 kqMem0 = true ∧ (kReg 0 kqMem0 7 + kReg 0 kqMem0 0).toNat % sizeBytes .b8 = 0
    ∧ (kReg 0 kqMem0 7 + kReg 0 kqMem0 0).toNat + sizeBytes .b8 ≤ (kqImage kqMem0).dataLen
    ∧ kqRuns 7 kqMem7 = true ∧ 8 ≤ (kReg 7 kqMem7 1 + kReg 7 kqMem7 0).toNat
    ∧ (kReg 7 kqMem7 1 + kReg 7 kqMem7 0).toNat + 8 ≤ 8 * (imgWords true 7 kqMem7).length
    ∧ (kReg 0 kqMem0 63 + kReg 0 kqMem0 0).toNat % sizeBytes .b2 ≠ 0
    ∧ (imgRef .output 0 (kReg 0 kqMem0 7 + kReg 0 kqMem0 0).toNat (sizeBytes .b8) kqMem0).isNone = true ∧ pairState kqMem0 ≠ 4 := by decide +kernel
theorem wit_KqImageAccess_load : (mpuCheck 0 (dataBase kqMem0 + (kReg 0 kqMem0 7 + kReg 0 kqMem0 0).toNat) .read (masterColour 0 kqMem0)
    kqMem0).isNone = true := by rw [mpuCheck_low] <;> decide +kernel
theorem wit_KqImageAccess_store : (mpuCheck 0 (dataBase kqMem0 + (kReg 0 kqMem0 7 + kReg 0 kqMem0 0).toNat) .write (masterColour 0 kqMem0)
    kqMem0).isNone = true := by rw [mpuCheck_low] <;> decide +kernel
theorem wit_KqImageAccess_input : (imgRef .input 0 (kReg 0 kqMem0 1 + kReg 0 kqMem0 0).toNat (sizeBytes .b8) kqMem0).any (fun r =>
    (mpuCheck 0 (refAddr r) .read (masterColour 0 kqMem0) kqMem0).isNone) = true :=
  any_of (.word 1 0x0A100008) (by rfl) (by rw [mpuCheck_low] <;> decide +kernel)
theorem wit_KqImageAccess_output : (mpuCheck 0 (0x0A140000 + 0x80000 * 7 + (kReg 7 kqMem7 1 + kReg 7 kqMem7 0).toNat) .write
    (masterColour 0 kqMem7) kqMem7).isNone = true := by rw [mpuCheck_low] <;> decide +kernel

/-- Task 0 at the last of 100 instructions inside a call, with a full return stack, and at the outermost level with lock 63. -/
def kqDeep : State := onTask 0 (fun x => { x with pc := 99, stack := [0, 99], k := [(1, 50), (7, 99)] }) kqC
def kqFull : State := onTask 0 (fun x => { x with stack := List.replicate 256 7 }) kqDeep
def kqLock : State := onTask 0 (fun x => { x with pc := 50, k := [(1, 50), (7, 99)] }) { kqC with locks := [(5, ⟨8, 0⟩), (63, ⟨0, 0⟩)] }
theorem wit_KqBranchesAndCalls : kqRuns 0 kqDeep = true ∧ 0 ≤ ((task 0 kqDeep).pc : Int) + (BitVec.ofInt 20 (-99)).toInt
    ∧ ((task 0 kqDeep).pc : Int) + (BitVec.ofInt 20 (-99)).toInt < (kqImage kqDeep).codeLen
    ∧ (kqImage kqDeep).codeLen ≤ ((task 0 kqDeep).pc : Int) + (1 : BitVec 20).toInt ∧ (task 0 kqDeep).stack.length < 256
    ∧ (kReg 0 kqDeep 7).toNat < (kqImage kqDeep).codeLen ∧ kqRuns 0 kqFull = true ∧ (task 0 kqFull).stack.length = 256 ∧ pairState kqDeep ≠ 4
    ∧ (task 0 kqDeep).stack.any (fun a => decide (a < (kqImage kqDeep).codeLen)) = true
    ∧ (task 0 kqDeep).stack.all (fun a => decide (a < (kqImage kqDeep).codeLen)) = true ∧ kqRuns 0 kqLock = true ∧ (task 0 kqLock).stack = []
    ∧ lockHolder 63 kqLock = some ⟨0, 0⟩ ∧ lockHolder 5 kqLock ≠ some ⟨0, 0⟩ ∧ (task 0 kqDeep).stack ≠ [] := by decide +kernel

/-- Timers 0 to 2 of the three kinds, counter 1 and edge 3, with a running timer; the packed dates of 2000-01-01 and 2271-12-31. -/
def imgI : Image :=
  { imgA with timers := [(0, { kind := .ton, key := 4, init := 0 }), (1, { kind := .tof, key := 5, init := 0 }), (2, { kind := .tp, key := 6, init := 0 })]
              edges := [(3, { kind := .edge, key := 9, init := 0 })] }
def kqInst (ty : Nat) (c : Counter) (y : Timer) (e : Edge) : State :=
  { exeIdle with exe := { exeIdle.exe with
      running := some 0, image := some imgI, timers := [(0, y), (1, y), (2, y)], counters := [(1, c)], edges := [(3, e)] } }
    |> onTask 0 (fun x => { x with
      phase := .run, k := [(1, 1), (3, toD ty), (7, 0x07D0010100000005), (63, 0x08DF0C1F173B3B00)], pc := 20, cycleTime := 5000 })
def kqInst1 : State := kqInst 1000 { cv := 0x7FFFFFFFFFFFFFFF, prev := [false, true], inited := true } { run := true, start := 4000, q := true } { prev := true, init := true }
def kqInst2 : State := kqInst 9000 { cv := 3, prev := [false, false], inited := true } { run := true, start := 4500, q := true, prevIn := true } {}
def kqInst3 : State := kqInst 3 { cv := 0x8000000000000000, prev := [], inited := false } { run := false, start := 100, q := false } { prev := false, init := true }
theorem wit_KqInstances : kqRuns 0 kqInst1 = true ∧ instOk (kqImage kqInst1).timers 0 8192 (· == .ton) = true
    ∧ instOk (kqImage kqInst1).timers 1 8192 (· == .tof) = true ∧ instOk (kqImage kqInst1).timers 2 8192 (· == .tp) = true
    ∧ instOk (kqImage kqInst1).timers 2 8192 (fun k => k == .ton || k == .tof || k == .tp) = true
    ∧ instOk (kqImage kqInst1).counters 1 4096 (· == .counter) = true ∧ instOk (kqImage kqInst1).edges 3 16384 (· == .edge) = true
    ∧ Sparse.find (kqImage kqInst1).timers 8191 = none ∧ Sparse.find (kqImage kqInst1).counters 4095 = none
    ∧ Sparse.find (kqImage kqInst1).edges 16383 = none ∧ (kReg 0 kqInst1 0).toNat < Cal.endSeconds * 1000000000
    ∧ (Cal.unpack (kReg 0 kqInst1 63)).valid = true ∧ (kReg 0 kqInst1 1).toNat < 1000000000 ∧ (Cal.unpack (kReg 0 kqInst1 1)).valid = false := by
  decide +kernel

/-- k1 holds a word for entry 7; k3 names entry, mailbox and lock 3; k7 is 5 and k63 an AUTO command and a START. M0 stands at end 0
of mailbox 3 and at end 1 of mailbox 5, and task 0 holds lock 3. -/
def kqBlk (r3 : DWord) (first : Nat) : State :=
  { exeIdle with exe := { exeIdle.exe with running := some 0 }, locks := [(3, ⟨0, 0⟩)] }
    |> onTask 0 (fun x => { x with phase := .run, k := [(1, 0x0000000580000000), (3, r3), (7, 5), (63, 0x10000002)], pc := 20 })
    |> setFld Fld.TT_PARTITION_HOST_FIRST first |> onSlot 3 (fun x => { x with valid := true, mode := .manual, items := [0x3F800000] })
    |> setFlag (Fld.MBXm_BIND_EN 3) true |> setFld (Fld.MBXm_BIND_END0 3) 0 |> setFld (Fld.MBXm_BIND_END1 3) 8
    |> setFlag (Fld.MBXm_BIND_EN 5) true |> setFld (Fld.MBXm_BIND_END0 5) 8 |> setFld (Fld.MBXm_BIND_END1 5) 0
    |> onMbx 3 (fun x => { x with to0 := [0x12345678] })
def kqBlkProg : State := kqBlk 3 4096
def kqBlkHost : State := kqBlk 3 0
def kqBlkFar : State := kqBlk 0x1000 4096
theorem wit_KqBlockCommands : kqRuns 0 kqBlkProg = true ∧ pairState kqBlkProg ≠ 4 ∧ (kReg 0 kqBlkProg 3).toNat < 4096
    ∧ ttHosts (kReg 0 kqBlkProg 3).toNat kqBlkProg = false
    ∧ ttBad { w0 := (kAt (task 0 kqBlkProg) 1).setWidth 32, w3 := (kAt (task 0 kqBlkProg) 2).extractLsb' 32 32 } kqBlkProg = false
    ∧ inRange ((kAt (task 0 kqBlkProg) 1).toNat / 2 ^ 24 % 16) 1 2 = false ∧ kqRuns 0 kqBlkHost = true
    ∧ ttHosts (kReg 0 kqBlkHost 3).toNat kqBlkHost = true ∧ kqRuns 0 kqBlkFar = true ∧ 4096 ≤ (kReg 0 kqBlkFar 3).toNat
    ∧ (kReg 0 kqBlkProg 3).toNat / 65536 % 256 ≤ 0x19 ∧ Flt.isFinite Flt.f32 (kReg32 0 kqBlkProg 7).toNat = true
    ∧ (slot ((kReg 0 kqBlkProg 3).toNat % 2048) kqBlkProg).valid = true ∧ (slot ((kReg 0 kqBlkProg 3).toNat % 2048) kqBlkProg).mode ≠ .off
    ∧ (kReg 0 kqBlkProg 63).toNat % 16 = 2 ∧ (slotItem ((kReg 0 kqBlkProg 3).toNat % 2048) ((kReg 0 kqBlkProg 3).toNat / 65536 % 256) kqBlkProg).isSome = true
    ∧ inRange ((kReg 0 kqBlkProg 63).toNat / 2 ^ 28 % 16) 1 1 = true ∧ mbxEnd (kReg 0 kqBlkProg 3).toNat 0 kqBlkProg = some false
    ∧ (mpuCheck 0 (0x400000000 + Reg.MBXm_SEND 3) .write (masterColour 0 kqBlkProg) kqBlkProg).isNone = true
    ∧ (mpuCheck 0 (0x400000000 + Reg.MBXm_RECV 3) .read (masterColour 0 kqBlkProg) kqBlkProg).isNone = true
    ∧ (mpuCheck 0 (0x400000000 + Reg.MBXm_DBL 3) .write (masterColour 0 kqBlkProg) kqBlkProg).isNone = true
    ∧ (mpuCheck 0 (0x400000000 + Reg.MBXm_ACK 5) .write (masterColour 0 kqBlkProg) kqBlkProg).isNone = true
    ∧ (mpuCheck 0 (0x400000000 + Reg.MBX_LOCK 3) .read (masterColour 0 kqBlkProg) kqBlkProg).isNone = true
    ∧ (mpuCheck 0 (0x400000000 + Reg.MBX_LOCK 3) .write (masterColour 0 kqBlkProg) kqBlkProg).isNone = true
    ∧ (mbx (kReg 0 kqBlkProg 3).toNat kqBlkProg).to1.length < 8 ∧ mbxEnd (kReg 0 kqBlkProg 7).toNat 0 kqBlkProg = some true := by
  decide +kernel

/-- Task 0 waits on a fence, and on a block instruction that would give 9 to k7; code 4095 has no limit. -/
def kqFence : State := onTask 0 (fun x => { x with wait := .fence }) kqC
def kqWait : State := onTask 0 (fun x => { x with wait := .block 7 9 (some true) false true }) kqC
def kqLog : State := { kqC with strand := { kqC.strand with phase := .run, rlCfg := [(4095, 0)] } }
/-- Task 0 waits for the rules of epoch 0, which drain or have drained. -/
def kqRules : State := onTask 0 (fun x => { x with wait := .rules 0 }) kqC
def kqRulesBusy : State := setFlag Fld.MPU_RESULT_BUSY true kqRules
theorem wit_KqSystem : kqRuns 0 kqC = true ∧ pairState kqC ≠ 4 ∧ kqFence.exe.running = some (0 : Fin 24).val ∧ triadRuns kqFence = true
    ∧ (task 0 kqFence).wait = .fence ∧ kqWait.exe.running = some (0 : Fin 24).val ∧ triadRuns kqWait = true ∧ blockWait (task 0 kqWait).wait = true
    ∧ kqRuns 0 kqLog = true ∧ rlRate (rlCfg 4095 kqLog) = 0 ∧ kqLog.strand.phase = .run
    ∧ kqLog.strand.queue.length < 240 ∧ (task 0 kqRules).wait = .rules 0 ∧ kqRules.exe.running = some (0 : Fin 24).val
    ∧ triadRuns kqRules = true ∧ flag Fld.MPU_RESULT_BUSY kqRules = false ∧ (task 0 kqRulesBusy).wait = .rules 0
    ∧ kqRulesBusy.exe.running = some (0 : Fin 24).val ∧ triadRuns kqRulesBusy = true ∧ flag Fld.MPU_RESULT_BUSY kqRulesBusy = true
    ∧ rd Reg.MPU_EPOCH kqRulesBusy = 0 ∧ rd Reg.MPU_EPOCH (wr Reg.MPU_EPOCH 1 kqRulesBusy) ≠ 0 := by decide +kernel

/-- Slot 0 of a running engine: in MANUAL, in AUTO with a good process value, with a lost one, with a frozen one, with an
implausible one, and in a fallback that may end. -/
def loopOn : State := setFlag Fld.LOOP_CTRL_RUN true up
def loopBase : LoopSlot :=
  { valid := true, wsp := 0x4000000000000000, desc := [0x00200000, 0, 0, 0, 0, 0x02000101, 0x01000000, 0].map (BitVec.ofNat 32)
    cap := [(0, { val := 0x40000000 })], due := true, clearCnt := 3 }
def imgL : Image := { imgA with tags := [(0, { tagOf 1 0x200 0 0 false with typ := 5 })] }
def loopWith (x : LoopSlot) : State :=
  { loopOn with loop := { loopOn.loop with slots := [(0, x)], ns := 5000000000 }, exe := { loopOn.exe with image := some imgL } }
def loopMan : State := loopWith { loopBase with mode := .manual, par := [(0x0E, 0x41200000)] }
def loopAuto : State := loopWith { loopBase with mode := .auto, sp := 0x41200000 }
def loopGone : State := loopWith { loopBase with mode := .auto, cap := [(0, { val := 0x7FC00000 })] }
def loopStill : State := loopWith { loopBase with
  mode := .auto, par := [(0x15, 0x3F800000), (0x16, 0x3F800000)], frz := some { start := 0, pv := 0x4000000000000000, lo := 0, hi := 0x4024000000000000 } }
def loopOdd : State := loopWith { loopBase with mode := .auto, par := [(0x14, 0x3F800000)], resCnt := 200 }
def loopBack : State := loopWith { loopBase with mode := .auto, fb := some .hold }
def loopOffNow : State := loopWith loopBase
def loopNext : State := { loopMan with loop := { loopMan.loop with frame := some 4 } }
theorem wit_LoopFramesAndEvaluations : loopUp loopOn = true ∧ loopOn.loop.frame = none ∧ fld Fld.LOOP_FRAME_SRC loopOn = 0
    ∧ loopUp loopNext = true ∧ loopNext.loop.frame = some 4 ∧ fld Fld.LOOP_FRAME_SRC loopNext = 0 ∧ (slot 0 loopNext).valid = true
    ∧ (slot 0 loopNext).sched ≠ 1 ∧ (slot 0 loopNext).mode ≠ .off
    ∧ slotReady 0 loopOffNow = true ∧ (slot 0 loopOffNow).mode = .off ∧ (slot 0 loopOffNow).ovrEn = false
    ∧ slotReady 0 loopMan = true ∧ (slot 0 loopMan).mode = .manual ∧ (slot 0 loopMan).writes = [] ∧ (slot 0 loopMan).mirror = none
    ∧ (slot 0 loopMan).fresh = false ∧ (slot 0 loopMan).ovrEn = false
    ∧ slotReady 0 loopAuto = true ∧ (slot 0 loopAuto).autoMode = true ∧ (slot 0 loopAuto).writes = [] ∧ (slot 0 loopAuto).mirror = none
    ∧ (slot 0 loopAuto).fresh = false ∧ (slot 0 loopAuto).ovrEn = false ∧ (slot 0 loopAuto).fb = none
    ∧ (judge (slot 0 loopAuto) loopAuto).lost = false ∧ (judge (slot 0 loopAuto) loopAuto).frozen = false
    ∧ (judge (slot 0 loopAuto) loopAuto).implausible = false ∧ (slot 0 loopAuto).pw 0x0A = 0 ∧ (slot 0 loopAuto).pw 0x0B = 0
    ∧ Flt.flt ((slot 0 loopAuto).pw 0x08) ((slot 0 loopAuto).pw 0x09) = true
    ∧ slotReady 0 loopGone = true ∧ (judge (slot 0 loopGone) loopGone).lost = true ∧ (slot 0 loopGone).lost = false
    ∧ mayFall (slot 0 loopGone) loopGone = true
    ∧ slotReady 0 loopStill = true ∧ (judge (slot 0 loopStill) loopStill).frozen = true ∧ (slot 0 loopStill).frozen = false
    ∧ mayFall (slot 0 loopStill) loopStill = true
    ∧ slotReady 0 loopOdd = true ∧ (judge (slot 0 loopOdd) loopOdd).implausible = true ∧ (slot 0 loopOdd).implausible = false
    ∧ mayFall (slot 0 loopOdd) loopOdd = true
    ∧ slotReady 0 loopBack = true ∧ (slot 0 loopBack).mode ≠ .off ∧ (slot 0 loopBack).fb = some .hold
    ∧ (slot 0 loopBack).fbRecover = true ∧ (judge (slot 0 loopBack) loopBack).lost = false
    ∧ (judge (slot 0 loopBack) loopBack).frozen = false ∧ (judge (slot 0 loopBack) loopBack).implausible = false
    ∧ (slot 0 loopBack).recover ≤ (slot 0 loopBack).clearCnt + 1 := by decide +kernel

/-- The host's registers for slot 0: a sound descriptor, a bad one, parameter codes and a value that is no number. -/
def loopArgIs (v w : Word) (s : State) : State := wr Reg.LOOP_ARG v (wr Reg.LOOP_VAL w s)
def loopGood : State := wr (Reg.LOOP_DESC 0) 0x00200000 loopOffNow |> wr (Reg.LOOP_DESC 5) 0x00000101 |> wr (Reg.LOOP_DESC 6) 0x01000000
def loopEmpty : State := { loopGood with loop := {} }
def loopArgBad : State := loopArgIs 0x1A 0x7FC00000 loopGood
def loopArgNan : State := loopArgIs 0x19 0x7FC00000 loopGood
def loopArgAuto : State := loopArgIs 2 0 loopGood
def loopArgMan : State := loopArgIs 1 0 loopAuto
def loopArgFive : State := loopArgIs 5 0 loopGood
def loopArgNone : State := loopArgIs 1 0 loopEmpty
def loopArgItem : State := loopArgIs 15 0 loopGood
def loopArgGap : State := loopArgIs 0x3F 0 loopGood
theorem wit_LoopSlotCommands : hostOk Reg.LOOP_CMD .write loopGood = true ∧ loopSel loopGood = 0 ∧ (slot 0 loopGood).mode = .off
    ∧ descBad { slot 0 loopGood with desc := (List.range 7).map (fun i => rd (Reg.LOOP_DESC i) loopGood), valid := true } = false
    ∧ schedConflict 0 { slot 0 loopGood with desc := (List.range 7).map (fun i => rd (Reg.LOOP_DESC i) loopGood), valid := true } loopGood = false
    ∧ hostOk Reg.LOOP_CMD .write loopAuto = true ∧ loopSel loopAuto = 0 ∧ (slot 0 loopAuto).mode ≠ .off
    ∧ hostOk Reg.LOOP_CMD .write loopOffNow = true ∧ loopSel loopOffNow = 0 ∧ (slot 0 loopOffNow).mode = .off
    ∧ descBad { slot 0 loopOffNow with desc := (List.range 7).map (fun i => rd (Reg.LOOP_DESC i) loopOffNow), valid := true } = true
    ∧ loopArg loopGood ≤ 0x19 ∧ Flt.isFinite Flt.f32 (rd Reg.LOOP_VAL loopGood).toNat = true
    ∧ hostOk Reg.LOOP_CMD .write loopArgBad = true ∧ loopSel loopArgBad = 0
    ∧ 0x19 < loopArg loopArgBad ∧ loopArg loopArgNan = 0x19
    ∧ Flt.isFinite Flt.f32 (rd Reg.LOOP_VAL loopArgNan).toNat = false
    ∧ loopModeOf (loopArg loopArgAuto % 16) = some .auto ∧ (slot 0 loopArgAuto).valid = true
    ∧ (slot 0 loopArgAuto).mode = .off ∧ slotCheck 0 (slot 0 loopArgAuto) loopArgAuto = none
    ∧ loopModeOf (loopArg loopArgMan % 16) = some .manual ∧ (slot 0 loopArgMan).valid = true
    ∧ (slot 0 loopArgMan).mode ≠ .off ∧ loopModeOf (loopArg loopArgFive % 16) = none
    ∧ hostOk Reg.LOOP_CMD .write loopArgNone = true ∧ loopArg loopArgNone % 16 = 1
    ∧ (slot 0 loopArgNone).valid = false ∧ loopArg loopArgItem = 15
    ∧ 0x10 < loopArg loopArgGap ∧ loopArg loopArgGap < 0x40
    ∧ hostOk Reg.LOOP_CTRL .write loopEmpty = true ∧ flag Fld.LOOP_CTRL_RUN (setFlag Fld.LOOP_CTRL_RUN false loopEmpty) = false := by decide +kernel

/-- Buffer 0 set up, running and full; and bank 0 isolated, its self-test running. -/
def trcSet : State := setFld (Fld.TRBb_CFG_MASK 0) 7 loopOn
def trcRun : State := setFlag (Fld.TRBb_STATUS_RUN 0) true trcSet
def trcFull : State := onTrace 0 (fun x => { x with done := true }) trcRun
def loopMir : LoopMirror := { mode := 2, fb := 0, wsp := 0, i := 0, dPrev := 0, outPrev := 0, d7 := slotCrc {} }
def loopStandby : State := setFld Fld.PAIR_STATE_STATE 4 loopOn
def loopIso : State := { setBitAt (Reg.LOOP_BANK_ISO 0) 0 true loopOn with loop := { loopOn.loop with selfTest := [0] } }
theorem loopBad : { loopMir with d7 := loopMir.d7 + 1 }.d7 ≠ slotCrc (slot 0 loopStandby) := by
  have h : slot 0 loopStandby = {} := by decide +kernel
  have g : ∀ w : Word, w + 1 ≠ w := by
    intro w e
    bv_omega
  rw [h]
  exact g _
theorem wit_LoopTracesAndBanks : hostOk Reg.TRACE_CMD .write trcSet = true ∧ traceMask 0 trcSet ≠ 0 ∧ fld (Fld.TRBb_TRIG_MODE 0) trcSet ≠ 3
    ∧ fld (Fld.TRBb_TRIG_SRC 0) trcSet ≠ 3 ∧ hostOk Reg.TRACE_CMD .write loopOn = true ∧ traceMask 0 loopOn = 0
    ∧ hostOk Reg.TRACE_CMD .write trcRun = true ∧ flag (Fld.TRBb_STATUS_RUN 0) trcRun = true ∧ fld (Fld.TRBb_TRIG_SRC 0) trcRun = 0
    ∧ flag (Fld.TRBb_STATUS_TRIGGERED 0) trcRun = false ∧ flag (Fld.TRBb_STATUS_RUN 0) trcFull = true ∧ (traceBuf 0 trcFull).done = true
    ∧ regionsUp loopStandby = true ∧ inRange (pairState loopStandby) 2 4 = true
    ∧ { loopMir with d7 := loopMir.d7 + 1 }.d7 ≠ slotCrc (slot 0 loopStandby)
    ∧ regionsUp loopOn = true ∧ inFallback 1 loopOn = false ∧ slotBankIso 0 loopOn = false
    ∧ hostOk Reg.LOOP_BANK_REEN .write loopIso = true ∧ slotBankIso 0 loopIso = true ∧ regionsUp loopIso = true
    ∧ loopIso.loop.selfTest.contains 0 = true := by
  refine ⟨?_, ?_, ?_, ?_, ?_, ?_, ?_, ?_, ?_, ?_, ?_, ?_, ?_, ?_, loopBad, ?_⟩ <;> decide +kernel

/-- The active side with bank 0 on: channels 0 and 1 are outputs that drive, low, 2 reads high while off, and 3 is at fault. -/
def dioOn : State := { setFld Fld.PAIR_STATE_STATE 1 up with
  dio := [(0, { arb := true, out := true, pin := false }), (1, { arb := true, out := true, pin := true, filt := true }), (2, { filt := true }),
    (3, { fault := 1, filt := true }), (4, { latched := true, mark := true, fault := 5 }), (5, { fault := 4 }), (6, { fault := 1, filt := true, arb := true })]
  dioBank := [(0, { st := .on, switch := true })] }
  |> forAll (List.range 7) (fun n => setFld (Fld.DIOn_CFG_DIR n) 1) |> setFlag (Fld.DIOn_CFG_OPEN_EN 1) true
  |> setFlag (Fld.DIO_BANKk_CFG_EN 0) true
def dioSlow : State := setFld (Fld.DIOn_CFG_FILT 0) 9 dioOn
def dioFast : State := setFld (Fld.DIOn_CFG_FILT 0) 0 dioOn
def dioCut : State := { dioOn with dioBank := [(0, { st := .switchedOff })] }
def dioAct : State := setFlag (Fld.DIO_BANKk_CFG_STUCK_ACTION 0) true dioOn
theorem wit_DioInputsAndFaults : regionsUp dioSlow = true ∧ fld (Fld.DIOn_CFG_FILT 0) dioSlow ≠ 0 ∧ regionsUp dioOn = true
    ∧ fld (Fld.DIOn_CFG_FILT 0) dioFast = 0 ∧ regionsUp dioFast = true ∧ dioDrives 0 dioOn = true ∧ dioDrives 1 dioOn = true
    ∧ dioDir 0 dioOn = true ∧ (dioCh 0 dioOn).latched = false ∧ hostOk Reg.DIO_REARM .write dioOn = true
    ∧ dioStuckCond 2 dioOn = true ∧ dioStuckCond 2 dioAct = true ∧ flag (Fld.DIO_BANKk_CFG_STUCK_ACTION 0) dioAct = true
    ∧ (dioBank 0 dioAct).st = .on ∧ regionsUp dioCut = true ∧ (dioCh 3 dioCut).fault = 1 ∧ (dioCh 3 dioCut).filt = true
    ∧ (dioBank 0 dioCut).st = .switchedOff ∧ dioJudged 0 dioOn = true ∧ (dioCh 0 dioOn).arb = true ∧ (dioCh 0 dioOn).filt = false
    ∧ (dioCh 0 dioOn).current < 2500 ∧ (dioCh 0 dioOn).fault = 0
    ∧ (dioCh 1 dioOn).filt = true ∧ (dioCh 1 dioOn).current < 5 ∧ flag (Fld.DIOn_CFG_OPEN_EN 1) dioOn = true ∧ (dioCh 1 dioOn).fault = 0
    ∧ inRange (dioCh 5 dioOn).fault.val 1 4 = true ∧ (dioCh 5 dioOn).arb = (dioCh 5 dioOn).filt := by decide +kernel

/-- Bank 1 off after a low supply, isolated, disabled, and with a conflict of direction. -/
def bankOff : State := setFlag (Fld.DIO_BANKk_CFG_EN 1) true { dioOn with
  dioBank := [(0, { st := .on, switch := true, low := true, silent := true }), (1, { st := .latchedOff, reenReady := true }), (2, { st := .disabled })] }
def bankIso : State := { bankOff with dioBank := [(1, { st := .isolated })] }
def bankBad : State := { bankOff with exe := { bankOff.exe with image := some { imgA with tags := [(0, tagOf 1 31 1 7 true)] } } }
theorem wit_DioBankSupplies : regionsUp bankOff = true ∧ (dioBank 1 bankOff).warn = false ∧ (dioBank 1 bankOff).low = false
    ∧ dioDir 8 bankOff = false ∧ (dioBank 0 bankOff).low = true ∧ (dioBank 0 bankOff).st = .on
    ∧ hostOk Reg.DIO_BANK_CMD .write bankOff = true ∧ (dioBank 1 bankOff).st = .latchedOff ∧ (dioBank 1 bankOff).reenReady = true
    ∧ flag (Fld.DIO_BANKk_CFG_EN 1) bankOff = true ∧ (dioBank 0 bankOff).reenReady = false
    ∧ hostOk Reg.DIO_BANK_CMD .write bankIso = true ∧ (dioBank 1 bankIso).st = .isolated ∧ flag (Fld.DIO_BANKk_CFG_EN 1) bankIso = true
    ∧ hostOk (Reg.DIO_BANKk_CFG 2) .write bankOff = true ∧ flag (Fld.DIO_BANKk_CFG_EN 2) bankOff = false ∧ dioDirConflict 2 bankOff = false
    ∧ (dioBank 2 bankOff).st = .disabled ∧ hostOk (Reg.DIO_BANKk_CFG 3) .write bankBad = true ∧ flag (Fld.DIO_BANKk_CFG_EN 3) bankBad = false
    ∧ dioDirConflict 3 bankBad = true ∧ hostOk (Reg.DIO_BANKk_CFG 0) .write bankOff = true
    ∧ bankOff.sup.inReset = false ∧ 2 ≤ power bankOff ∧ (dioBank 0 bankOff).silent = true := by decide +kernel

/-- Term 0 selected, latching and set; a descriptor with an unknown input selector; and a standby side. -/
def rfxOn : State := { setFlag Fld.RFX_CTRL_RUN true up with terms := [(0, { desc := [0xC0000000, 0, 0, 0], latch := true, out := true }), (5, { out := true })] }
def rfxBad : State := wr (Reg.RFX_DATA 2) 0x30 rfxOn
def rfxStandby : State := setFld Fld.PAIR_STATE_STATE 4 rfxOn
theorem wit_ReflexMatrix : hostOk Reg.RFX_CMD .write rfxOn = true ∧ rfxSel rfxOn = 0
    ∧ rfxCheck { desc := (List.range 16).map (fun i => rd (Reg.RFX_DATA i) rfxOn), out := (term 0 rfxOn).out } rfxOn = none
    ∧ hostOk Reg.RFX_CMD .write rfxBad = true ∧ rfxSel rfxBad = 0
    ∧ (rfxCheck { desc := (List.range 16).map (fun i => rd (Reg.RFX_DATA i) rfxBad), out := (term 0 rfxBad).out } rfxBad).isSome = true
    ∧ rfxRuns rfxOn = true ∧ termOn (term 0 rfxOn) = true ∧ (term 0 rfxOn).latching = true
    ∧ ((term 0 rfxOn).w (4 + rfxIndex (term 0 rfxOn) rfxOn / 32)).getLsbD (rfxIndex (term 0 rfxOn) rfxOn % 32) = false
    ∧ rfxOn.rfxStopped = false ∧ regionsUp rfxStandby = true ∧ onStandby rfxStandby = true := by decide +kernel

/-- Channels 0 and 1 are loop-powered inputs, 2 an output with a fault, 3 is ready to be enabled and 15 is not. -/
def anBase : State := wr (Reg.ANn_RANGE_LO 3) 0x40800000 (setFld Fld.PAIR_STATE_STATE 1 up) |> wr (Reg.ANn_RANGE_HI 3) 0x41A00000 |> wr (Reg.ANn_EU_HI 3) 0x42C80000
  |> wr (Reg.ANn_TRIM_GAIN 3) 0x3F800000
def anOn : State := { anBase with an := [(2, { fault := 7 }), (0, { cell := 5 })] }
  |> setBitAt Reg.ANA_ENABLE 0 true |> setBitAt Reg.ANA_ENABLE 1 true |> setBitAt Reg.ANA_ENABLE 2 true
  |> setFld (Fld.ANn_CFG_MODE 0) 1 |> setFld (Fld.ANn_CFG_MODE 1) 1 |> setFld (Fld.ANn_CFG_MODE 2) 4 |> setFld (Fld.ANn_CFG_MODE 3) 1
  |> setFld (Fld.ANn_CFG_MODE 15) 7
def anLim : State := { anOn with an := [(2, { fault := 6 })] }
theorem wit_AnalogConversionsAndFaults : hostOk Reg.ANA_ENABLE .write anOn = true ∧ anEnabled 3 anOn = false ∧ anCheck 3 anOn = none
    ∧ anEnabled 15 anOn = false ∧ (anCheck 15 anOn).isSome = true ∧ anEnabled 0 anOn = true ∧ hostOk Reg.ANA_LOCK .write anOn = true
    ∧ regionsUp anOn = true ∧ inRange (anMode 0 anOn) 1 3 = true ∧ flag (Fld.ANn_CFG_TRIG 0) anOn = false ∧ anMode 0 anOn = 1
    ∧ anEnabled 1 anOn = true ∧ anMode 1 anOn = 1 ∧ (anCh 0 anOn).fault = 0 ∧ (anCh 1 anOn).fault = 0
    ∧ anEnabled 2 anOn = true ∧ anOutput 2 anOn = true ∧ (anCh 2 anOn).compliance = false ∧ (anCh 2 anOn).fault = 7
    ∧ regionsUp anLim = true ∧ anEnabled 2 anLim = true ∧ anOutput 2 anLim = true ∧ (anCh 2 anLim).fault ≠ 7 := by decide +kernel

/-- Channel 0 has a modem that polls; a transaction with and without attempts left; and isolated and silent banks. -/
def hartOn : State := { setFlag (Fld.ANn_HART_CFG_EN 0) true anOn with anBank := [(1, { isolated := true, silent := true })] }
  |> setFlag (Fld.ANn_HART_CFG_POLL_EN 0) true |> setFlag (Fld.ANn_HART_STATUS_LONG_OK 0) true |> setFlag (Fld.ANn_HART_CFG_BURST_ACCEPT 0) true
def hartTry : State := onAn 0 (fun c => { c with txn := some ⟨.poll, 3, [], 2⟩ }) hartOn
def hartLast : State := onAn 0 (fun c => { c with txn := some ⟨.poll, 3, [], 0⟩ }) hartOn
def hartIdent : State := onAn 0 (fun c => { c with txn := some ⟨.ident, 0, [], 0⟩ }) hartOn
def hartHost : State := setFlag Fld.ANA_HART_RESULT_BUSY true (onAn 0 (fun c => { c with txn := some ⟨.host, 9, [], 0⟩ }) hartOn)
theorem wit_HartAndAnalogBanks : hartUp 0 hartOn = true ∧ flag (Fld.ANn_HART_CFG_POLL_EN 0) hartOn = true ∧ onStandby hartOn = false
    ∧ (anCh 0 hartOn).burstAt = none ∧ (anCh 0 hartOn).txn = none
    ∧ hartUp 0 hartTry = true ∧ onStandby hartTry = false ∧ (anCh 0 hartTry).txn.any (fun x => x.left != 0) = true
    ∧ hartUp 0 hartLast = true ∧ onStandby hartLast = false ∧ (anCh 0 hartLast).txn.any (fun x => x.left == 0) = true ∧ (anCh 0 hartLast).waiting = []
    ∧ hartUp 0 hartIdent = true ∧ (anCh 0 hartIdent).txn.any (fun x => x.kind == .ident) = true ∧ (anCh 0 hartIdent).waiting = [] ∧ onStandby hartIdent = false
    ∧ hartUp 0 hartHost = true ∧ (anCh 0 hartHost).txn.any (fun x => x.kind == .host) = true ∧ (anCh 0 hartHost).waiting = [] ∧ onStandby hartHost = false
    ∧ flag (Fld.ANn_HART_CFG_BURST_ACCEPT 0) hartOn = true ∧ hostOk Reg.ANA_HART_CMD .write hartOn = true
    ∧ flag Fld.ANA_HART_RESULT_BUSY hartOn = false ∧ fld Fld.ANA_HART_SEL_CHANNEL hartOn = 0
    ∧ hostOk Reg.ANA_HART_CMD .write hartHost = true ∧ flag Fld.ANA_HART_RESULT_BUSY hartHost = true
    ∧ hostOk Reg.ANA_HART_CMD .write anOn = true ∧ flag Fld.ANA_HART_RESULT_BUSY anOn = false ∧ fld Fld.ANA_HART_SEL_CHANNEL anOn = 0
    ∧ hartUp 0 anOn = false ∧ hartOn.sup.inReset = false ∧ 2 ≤ power hartOn ∧ regionsUp hartOn = true
    ∧ (anBank 1 hartOn).silent = true ∧ (anBank 0 hartOn).isolated = false ∧ hostOk Reg.ANA_BANK_CMD .write hartOn = true
    ∧ (anBank 1 hartOn).isolated = true := by decide +kernel

/-- The Safety region in RUN with authority: output 0 is ON, 1 tripped, 2 off; the same without a permit, without requests, with
a request that resets output 1, and in fallback. -/
def safOn : State := { up with saf := { up.saf with
    auth := true, lastSeq := some 4, sq := [(0, { st := .on, hs := true, lsReq := true }), (1, { st := .tripped }), (2, { st := .off })] } }
  |> setFld Fld.SAF_STATE_STATE 1 |> setFlag Fld.PAIR_STATE_AUTH_HELD true |> wr Reg.SAF_SX_REQ_LO 7
  |> setFlag (Fld.SQn_CFG_USED 0) true |> setFlag (Fld.SQn_CFG_USED 1) true |> setFlag (Fld.SQn_CFG_USED 2) true
def safLow : State := { safOn with saf := { safOn.saf with bankLow := [0, 1] } }
def safNoReq : State := { wr Reg.SAF_SX_REQ_LO 0 safOn with cycle := 500000000 }
def safAgain : State := { safOn with saf := { safOn.saf with word := some 0x0500000002000007 } }
def safDown : State := setFld Fld.SAF_STATE_STATE 4 safOn
def safDark : State := onSq 0 (fun x => { x with test := some ⟨true, true⟩, hs := false }) safOn
def safBright : State := onSq 2 (fun x => { x with test := some ⟨false, false⟩, lsTest := true }) safOn
theorem wit_SafetyOutputs : safUp safLow = true ∧ flag (Fld.SQn_CFG_USED 0) safLow = true ∧ (sq 0 safLow).st = .on ∧ sqPermit 0 safLow = false
    ∧ safUp safOn = true ∧ flag (Fld.SQn_CFG_USED 0) safOn = true ∧ (sq 0 safOn).st = .on ∧ sqPermit 0 safOn = true ∧ safOn.saf.word = none
    ∧ (safReq safOn).getLsbD 0 = true ∧ safUp safNoReq = true ∧ (safReq safNoReq).getLsbD 0 = false ∧ (sq 0 safNoReq).st = .on
    ∧ sqPermit 0 safNoReq = true ∧ safNoReq.saf.word = none ∧ flag (Fld.SQn_CFG_USED 2) safOn = true ∧ (sq 2 safOn).st = .off
    ∧ sqPermit 2 safOn = true ∧ (safReq safOn).getLsbD 2 = true ∧ (sq 2 safOn).test = none ∧ (sq 2 safLow).st = .off ∧ sqPermit 2 safLow = false
    ∧ safUp safAgain = true ∧ flag (Fld.SQn_CFG_USED 1) safAgain = true ∧ (sq 1 safAgain).st = .tripped ∧ sqPermit 1 safAgain = true
    ∧ safAgain.saf.word.any (fun w => reqFresh w safAgain && w.getLsbD 25) = true ∧ safAgain.saf.lastSeq.isSome = true
    ∧ safAgain.saf.resets.getLsbD 1 = false
    ∧ (sq 1 safOn).st = .tripped ∧ regionsUp safDown = true ∧ safState safDown = 4 ∧ frozen safOn = false
    ∧ regionsUp safOn = true ∧ safState safOn ≤ 2 ∧ mayTest safOn = true ∧ (sq 0 safOn).test = none ∧ (sq 0 safOn).hs = true
    ∧ (sq 0 safOn).lsReq = true ∧ safNoReq.saf.authAt + 1000000 ≤ nowNs safNoReq ∧ (sq 2 safNoReq).st = .off ∧ mayTest safNoReq = true
    ∧ (sq 0 safDark).test.any (fun x => x.dark) = true ∧ (sq 2 safBright).test.any (fun x => !x.dark) = true ∧ (sq 2 safBright).delayed = false
    ∧ (sq 0 safDark).test.isSome = true ∧ safState safOn ≠ 0 ∧ safRuns safOn = true ∧ safOn.saf.auth = true := by decide +kernel

/-- Pair 0 in use with contacts that disagree; a pulse of source 0; the region in START and in SHADOW; and a switchover. -/
def safPair : State := setFld (Fld.SIp_CFG_MODE 0) 1 safOn |> onSi 0 (fun x => { x with a := true }) |> setFld Fld.SAF_TP_STATUS_RUN 15
def safPulse : State := setFld (Fld.SIp_CFG_SRC_A 0) 0 { safPair with saf := { safPair.saf with pulsing := [0] } }
def safNew : State := setFld Fld.SAF_STATE_STATE 0 safOn
def safShadow : State := setFld Fld.SAF_STATE_STATE 2 { safOn with saf := { safOn.saf with auth := false } }
def safGone : State := setFlag Fld.PAIR_STATE_AUTH_HELD false safOn
def safHand : State := { safGone with saf := { safGone.saf with handover := true } }
def safHold : State := { safGone with saf := { safGone.saf with holding := true } }
theorem wit_SafetyInputsAndAuthority : regionsUp safPair = true ∧ (siPair 0 safPair).kind ≠ 1 ∧ safUp safPair = true
    ∧ inRange (fld (Fld.SIp_CFG_MODE 0) safPair) 1 2 = true ∧ siAgree 0 (siPair 0 safPair) safPair = false ∧ (siPair 0 safPair).kind = 0
    ∧ safRuns safPair = true ∧ (fld Fld.SAF_TP_STATUS_RUN safPair).testBit 0 = true ∧ safPair.saf.pulsing.contains 0 = false
    ∧ safPulse.saf.pulsing.contains 0 = true ∧ inRange (fld (Fld.SIp_CFG_MODE 0) safPulse) 1 2 = true
    ∧ fld (Fld.SIp_CFG_SRC_A 0) safPulse = 0 ∧ (siPair 0 safPulse).kind = 0 ∧ regionsUp safNew = true ∧ safState safNew = 0
    ∧ inFallback 4 safNew = false ∧ safPair.saf.bankLow.contains 0 = false ∧ regionsUp safLow = true ∧ safLow.saf.bankLow.contains 0 = true
    ∧ regionsUp safShadow = true ∧ safShadow.saf.auth = false ∧ flag Fld.PAIR_STATE_AUTH_HELD safShadow = true ∧ safState safShadow = 2
    ∧ safGone.saf.auth = true ∧ safGone.saf.holding = false ∧ flag Fld.PAIR_STATE_AUTH_HELD safGone = false ∧ safGone.saf.handover = false
    ∧ safHand.saf.auth = true ∧ safHand.saf.holding = false ∧ flag Fld.PAIR_STATE_AUTH_HELD safHand = false ∧ safHand.saf.handover = true
    ∧ safRuns safHand = true ∧ safHold.saf.holding = true ∧ flag Fld.SAF_STATE_SPLIT_STRAP safOn = false ∧ inFallback 4 safOn = false
    ∧ safOn.saf.hbOk = true ∧ safOn.sup.inReset = false ∧ 2 ≤ power safOn := by decide +kernel

/-- A consumer 0 and a producer 16 over the causeway, in RUN; both before; and the epochs held. -/
def connDef0 : ConnDef := { connId := 5, carrier := .causeway, key := 0x12345678, texp := 100 }
def connRun : State := { safOn with saf := { safOn.saf with
  epochHold := false
  conns := [(0, { entry := connDef0, st := .run, epoch := 1, seq := 9, live := true }), (16, { entry := connDef0, st := .run, epoch := 255, seq := 65535 })] } }
def connWait : State := { safOn with saf := { safOn.saf with epochHold := false, conns := [(0, { entry := connDef0, st := .opening, epoch := 7 }), (16, { entry := connDef0 })] } }
def connHeld : State := { safOn with saf := { safOn.saf with epochHold := true, conns := [(0, { entry := connDef0 })] } }
theorem wit_SafetyConnections : safTalks connRun = true ∧ connRun.saf.epochHold = false ∧ (conn 0 connRun).st = .run ∧ (conn 0 connRun).seq ≠ 0
    ∧ connOf true 3 (safetyFrame (conn 0 connRun).entry 1 0 (nextSeq (conn 0 connRun).seq) 7) connRun = some (0, conn 0 connRun)
    ∧ connOf true 3 (safetyFrame (conn 0 connRun).entry 1 0 (conn 0 connRun).seq 7) connRun = some (0, conn 0 connRun)
    ∧ safTalks connWait = true ∧ connWait.saf.epochHold = false ∧ (conn 0 connWait).st = .opening
    ∧ connOf true 3 (safetyFrame (conn 0 connWait).entry 7 0 1 7) connWait = some (0, conn 0 connWait)
    ∧ (2 : Byte) ≠ (conn 0 connRun).epoch ∧ connOf true 3 (safetyFrame (conn 0 connRun).entry 2 0 1 7) connRun = some (0, conn 0 connRun)
    ∧ connOf true 3 (leBytes 2 (conn 0 connRun).entry.connId.toNat) connRun = some (0, conn 0 connRun)
    ∧ frameGood (conn 0 connRun).entry.key (leBytes 2 (conn 0 connRun).entry.connId.toNat) = false
    ∧ (conn 16 connWait).st ≠ .run ∧ connOf false 3 (safetyFrame (conn 16 connWait).entry 3 2 0 0) connWait = some (16, conn 16 connWait)
    ∧ (conn 16 connRun).st = .run ∧ (conn 16 connRun).seq ≠ 0 ∧ (conn 16 connRun).acked = false
    ∧ connOf false 3 (safetyFrame (conn 16 connRun).entry 255 1 65535 0) connRun = some (16, conn 16 connRun)
    ∧ safTalks connHeld = true ∧ connHeld.saf.epochHold = true ∧ connHeld.saf.conns.map (·.1) = [0] := by decide +kernel

/-- Task 0 runs on three cores, on two, with core 2 fenced and due, and in a resynchronisation; core 1 is retired. -/
def triRun : State := setFld Fld.TRIAD_STATE_VOTING 7 { exeBusy with triad := {} }
def triTwo : State := setFld Fld.TRIAD_STATE_VOTING 3 triRun
def triDue : State := { setFld Fld.TRIAD_STATE_MODE 2 (setFld Fld.TRIAD_STATE_FENCED 4 exeIdle) with
  exe := { exeIdle.exe with image := some { imgA with tasks := [], stations := [] } } }
def triSync : State := { setFld Fld.TRIAD_STATE_MODE 3 triDue with triad := { triDue.triad with resync := some (2, 0) }, cycle := 18750 }
def triRet : State := setFld Fld.TRIAD_STATE_RETIRED 2 up
theorem wit_TriadVotesAndRecovery : triRun.exe.running = some 0 ∧ triadRuns triRun = true ∧ fld Fld.TRIAD_STATE_VOTING triRun = 7
    ∧ triRun.triad.rejoined = [] ∧ triRun.sup.isolated = [] ∧ triRun.sup.lastIso = []
    ∧ triTwo.exe.running = some 0 ∧ triadRuns triTwo = true ∧ fld Fld.TRIAD_STATE_VOTING triTwo = 3
    ∧ resyncDue triDue = some 2 ∧ regionsUp triDue = true ∧ inFallback 0 triDue = false
    ∧ triSync.triad.resync.any (fun e => nowNs triSync ≤ e.2 + 150000) = true ∧ regionsUp triSync = true ∧ inFallback 0 triSync = false
    ∧ triSync.triad.resync.any (fun e => e.2 + 150000 ≤ nowNs triSync) = true ∧ hostOk Reg.TRIAD_CMD .write triRet = true
    ∧ (fld Fld.TRIAD_STATE_RETIRED triRet).testBit 1 = true ∧ (fld Fld.TRIAD_STATE_RETIRED triRet).testBit 0 = false := by decide +kernel

/-- A partner's heartbeat in a pair state; and sides of the pair with such a partner. -/
def hbOf (st : Fin 7) : Heartbeat :=
  { st := st, sideB := true, home := 0, auth := false, capable := true, lever := true, inhibit := false, period := 500, base := 0, since := 0
    mode := 1, regions := 0, major := BitVec.ofNat 8 (Config.pairVersion.toNat / 256), minor := 0, cause := 0, imageCrc := 0 }
def pairIn (n : Nat) (st : Fin 7) : State :=
  { setFld Fld.PAIR_STATE_STATE n (setFld Fld.PAIR_STATE_PEER st.val (setFlag Fld.PAIR_STATE_CW1_OK true (setFlag Fld.PAIR_STATE_CW2_OK true up))) with
    pair := { peer := some (hbOf st) } }
def pairWait : State := pairIn 0 0
def pairActive : State := { pairIn 1 4 with cycle := 10000000000, pair := { (pairIn 1 4).pair with
  mine := [{ task := 0, cycle := 3, crc := 7, since := 2000, at_ := 5 }], unacked := [(1, 3, [1]), (1, 4, [2])], switch := .waiting .yield } }
def pairSync : State := pairIn 2 1
def pairTrack : State := { pairIn 3 1 with cycle := 10000000000, pair := { (pairIn 3 1).pair with trackAt := some 0 } }
theorem wit_PairHeartbeats : cwUp pairWait = true ∧ pairState pairWait = 0 ∧ (hbOf 1).st = 1
    ∧ flag Fld.PAIR_STATE_CW1_OK pairWait = true ∧ alive pairWait = true ∧ 2 ≤ power pairWait ∧ pairState pairWait ≠ 5 ∧ pairWait.pair.peerLost = false
    ∧ peerIs 0 pairWait = true ∧ cwUp pairSync = true ∧ pairSync.sup.authDriven = false ∧ peerIs 1 pairSync = true
    ∧ regionsUp pairSync = true ∧ pairSync.saf.auth = false ∧ cwUp pairActive = true ∧ mirroring pairActive = true
    ∧ pairActive.pair.tideSent + 10000000 ≤ nowNs pairActive ∧ pairState pairSync = 2
    ∧ cwUp pairTrack = true ∧ pairState pairTrack = 3 ∧ flag Fld.PAIR_CTRL_REJOIN_AUTO (setFlag Fld.PAIR_CTRL_REJOIN_AUTO true pairTrack) = true
    ∧ pairTrack.pair.trackAt = some 0 ∧ 10000000000 ≤ nowNs pairTrack ∧ peerIs 1 pairTrack = true ∧ alive pairActive = true
    ∧ pairActive.pair.switch = .waiting .yield ∧ pairState pairActive = 1 ∧ peerIs 4 pairActive = true
    ∧ (commitOf pairActive.pair.mine 0 3).isSome = true ∧ fld Fld.PAIR_LAG_TRAIL_RUN pairActive < 7 := by decide +kernel
/-- The partner's heartbeat has this side's protocol version. -/
theorem wit_PairHeartbeats_version : (hbOf 1).major.toNat = Config.pairVersion.toNat / 256 :=
  (BitVec.toNat_ofNat _ _).trans (Nat.mod_eq_of_lt (Nat.div_lt_of_lt_mul Config.pairVersion.isLt))
/-- And another heartbeat has another one. -/
theorem byte_succ_ne (m : Byte) : m + 1 ≠ m := by revert m; decide
theorem wit_PairHeartbeats_other : ((hbOf 1).major + 1).toNat ≠ Config.pairVersion.toNat / 256 :=
  fun h => byte_succ_ne _ (BitVec.eq_of_toNat_eq (h.trans wit_PairHeartbeats_version.symm))

/-- Standby sides in step, with a task released, with a free-running tide, and copying; an active side with a commit. -/
def recStep : State := { exeIdle with pair := { peer := some (hbOf 1) } } |> setFld Fld.PAIR_STATE_STATE 4
def recBusy : State := onTask 0 (fun x => { x with phase := .ready }) recStep
def recSync : State := setFld Fld.PAIR_STATE_STATE 2 recStep
def recTide : State := { setFld Fld.PAIR_STATE_STATE 4 tideOn with pair := { peer := some (hbOf 1) } }
def recActive : State := { pairIn 1 4 with cycle := 100, pair := { (pairIn 1 4).pair with
  mine := [{ task := 0, cycle := 3, crc := 0x1234, since := 2000, at_ := 800 }] } }
theorem wit_PairRecords : cwUp recStep = true ∧ pairState recStep = 4 ∧ (taskDef 0 recStep).isSome = true ∧ (task 0 recStep).phase = .idle
    ∧ cwUp recBusy = true ∧ pairState recBusy = 4 ∧ (task 0 recBusy).phase ≠ .idle
    ∧ 2 ^ 31 ≤ ((0xFFFFFFFF : Word) - toW (Sparse.get (fun _ => 0) recStep.pair.taken 1)).toNat ∧ onStandby recStep = true
    ∧ recStep.exe.running ≠ some 0 ∧ (task 0 recStep).wait = .none ∧ commitOf recStep.pair.mine 0 3 = none
    ∧ cwUp recActive = true ∧ pairState recActive = 1 ∧ (commitOf recActive.pair.mine 0 3).any (fun m => m.crc == 0x1234 && m.at_ == nowNs recActive) = true
    ∧ yieldPending recActive = false ∧ cwUp recSync = true ∧ inRange (pairState recSync) 2 3 = true ∧ cwUp recTide = true
    ∧ onStandby recTide = true ∧ tideEnabled 7 recTide = true ∧ tideSource 7 recTide = 0 ∧ execBase recTide ≤ (1000 : DWord).toNat
    ∧ peerInStep recActive = true ∧ recActive.pair.switch = .none := by decide +kernel

/-- The active side of a pair in step, its steps of a switchover, and a capable standby side. -/
def swoOn : State := { pairIn 1 4 with cycle := 10000000000, pair := { (pairIn 1 4).pair with trackAt := some 0 } }
  |> setFlag Fld.PAIR_STATE_AUTH_HELD true |> setFlag Fld.PAIR_CTRL_REJOIN_AUTO false
def swoAsk : State := setFlag Fld.PAIR_RESULT_BUSY true { swoOn with pair := { swoOn.pair with switch := .waiting .command } }
def swoSent : State := { swoOn with pair := { swoOn.pair with switch := .sent .command } }
def swoReleased : State := { swoOn with pair := { swoOn.pair with switch := .released .command } }
def swoTrack : State := { swoOn with pair := { swoOn.pair with peer := some (hbOf 3) } }
def swoBare : State := { pairIn 1 2 with cycle := 5 }
def swoLone : State := setFld Fld.PAIR_STATE_STATE 5 up
def swoStandby : State := pairIn 4 1 |> setFld Fld.TRIAD_STATE_MODE 1 |> setFld Fld.SAF_STATE_STATE 2
def swoCan : State := { swoStandby with sup := { swoStandby.sup with leverClosed := true } }
def swoHome : State := setFld Fld.TRIAD_HEALTH_SINCE 1000 <| setFld Fld.PAIR_CFG_HOME 0 <| setFlag Fld.PAIR_CTRL_RECLAIM_INHIBIT false { swoCan with
  sup := { swoCan.sup with sid := 0 }, cycle := 100000000000, pair := { swoCan.pair with dwellAt := some 0 } }
theorem wit_PairSwitchover : hostOk Reg.PAIR_CMD .write swoOn = true ∧ flag Fld.PAIR_RESULT_BUSY swoOn = false ∧ pairState swoOn = 1
    ∧ peerInStep swoOn = true ∧ swoOn.pair.switch = .none ∧ hostOk Reg.PAIR_CMD .write swoBare = true ∧ flag Fld.PAIR_RESULT_BUSY swoBare = false
    ∧ pairState swoBare = 1 ∧ peerInStep swoBare = false ∧ hostOk Reg.PAIR_CMD .write swoStandby = true ∧ flag Fld.PAIR_RESULT_BUSY swoStandby = false
    ∧ pairState swoStandby ≠ 1 ∧ pairState swoStandby ≠ 5 ∧ hostOk Reg.PAIR_CMD .write swoLone = true ∧ flag Fld.PAIR_RESULT_BUSY swoLone = false
    ∧ pairState swoLone = 5 ∧ peerIs 4 swoOn = true ∧ cwUp swoOn = true ∧ hostOk Reg.PAIR_CMD .write swoTrack = true
    ∧ flag Fld.PAIR_RESULT_BUSY swoTrack = false ∧ pairState swoTrack = 1 ∧ peerIs 3 swoTrack = true ∧ swoTrack.pair.trackAt = some 0
    ∧ 10000000000 ≤ nowNs swoTrack ∧ cwUp swoTrack = true ∧ hostOk Reg.PAIR_CMD .write swoAsk = true ∧ pairState swoAsk = 1
    ∧ swoAsk.pair.switch = .waiting .command ∧ cwUp swoAsk = true ∧ peerInStep swoAsk = true ∧ swoAsk.pair.mine = [] ∧ slackFits 120000 swoAsk = true
    ∧ cwUp swoCan = true ∧ pairState swoCan = 4 ∧ allIdle swoCan = true
    ∧ onStandby swoBare = false ∧ cwUp swoStandby = true ∧ onStandby (pairIn 4 1) = true ∧ pairCapable (pairIn 4 1) = false ∧ cwUp (pairIn 4 1) = true
    ∧ cwUp swoSent = true ∧ swoSent.pair.switch = .sent .command ∧ cwUp swoReleased = true ∧ swoReleased.pair.switch = .released .command
    ∧ pairState swoReleased = 1 ∧ alive swoSent = true ∧ pairState swoSent = 1 ∧ cwUp swoHome = true
    ∧ swoHome.pair.dwellAt = some 0 ∧ 1000000000 * fld Fld.PAIR_CFG_RECLAIM_DWELL swoHome ≤ nowNs swoHome := by decide +kernel
/-- The standby side is capable: its partner has its protocol version. -/
theorem sameVersion {s : State} (h : s.pair.peer = some (hbOf 1)) :
    s.pair.peer.any (fun h => h.major.toNat == Config.pairVersion.toNat / 256) = true :=
  any_of (hbOf 1) h (by rw [wit_PairHeartbeats_version]; exact beq_self_eq_true _)
theorem wit_PairSwitchover_capable : pairCapable swoCan = true := by
  unfold pairCapable; rw [sameVersion rfl]; decide +kernel
theorem wit_PairSwitchover_home : pairCapable swoHome = true := by
  unfold pairCapable; rw [sameVersion rfl]; decide +kernel
theorem wit_PairSwitchover_dwell : dwellRuns swoHome = true := by
  unfold dwellRuns; rw [wit_PairSwitchover_home]; decide +kernel

/-- Both plant ports run redundant (PRP and HSR) with link; a closed NET_CTRL; a port without link; and ring ports with link. -/
def netOff : State := setFld Fld.PAIR_STATE_STATE 1 up
def netOn : State := wr Reg.NET_CTRL 0x1000000F netOff |> setFld Fld.NET_CTRL_REDUN 1
  |> setFlag (portLink 0) true |> setFlag (portLink 1) true |> setFlag (portLink 2) true
def netRing : State := setFld Fld.NET_CTRL_REDUN 2 netOn
def netDup : State := { netOn with net := { netOn.net with dup := [{ src := 0xFFFFFFFFFFFF, seq := 0xFFFF, port := false, at_ := 0, both := false }] } }
theorem wit_PlantPorts : hostOk Reg.NET_CTRL .write netOff = true ∧ rd Reg.NET_CTRL netOff &&& 3 = 0 ∧ hostOk Reg.NET_CTRL .write netOn = true
    ∧ rd Reg.NET_CTRL netOn &&& 3 ≠ 0 ∧ (0xF : Word).toNat / 2 ^ 28 ≠ (rd Reg.NET_CTRL netOn).toNat / 2 ^ 28
    ∧ regionsUp netOn = true ∧ flag (portLink 0) netOn = true ∧ portOn 3 netOn = true ∧ flag (portLink 3) netOn = false
    ∧ portUp 0 netOn = true ∧ redundant netOn = true ∧ hsr netOn = false
    ∧ (netDup.net.dup.filter (fun e => decide (nowNs netDup < e.at_ + 400000000))).any (fun e => e.src == 0xFFFFFFFFFFFF && e.seq == 0xFFFF) = true
    ∧ (netDup.net.dup.filter (fun e => decide (nowNs netDup < e.at_ + 400000000))).any (fun e => e.src == 0xFFFFFFFFFFFF && e.seq == 1) = false
    ∧ portUp 0 netDup = true ∧ redundant netDup = true ∧ hsr netDup = false ∧ netUp netDup = true ∧ netDup.net.dup.length = 1 ∧ netDup.net.dup.any (fun e => e.src == 0xFFFFFFFFFFFF && e.seq == 0xFFFF) = true
    ∧ portUp 1 netOn = true ∧ netUp netRing = true ∧ hsr netRing = true ∧ serving netOn = true ∧ portUp 2 netOn = true := by decide +kernel

/-- A side that is synchronised, the same with a step accepted, with a Sync that waits, and with a delay request under way. -/
def ptpOn : State := { setFld Fld.PTP_STATE_SERVO 2 netOn with mtime := 8 * 2 ^ 60, net := { netOn.net with ptp := { master := true, judged := true } } }
def ptpMay : State := { ptpOn with net := { ptpOn.net with ptp := { ptpOn.net.ptp with stepAccepted := true } } }
def ptpHalf : State := { ptpOn with net := { ptpOn.net with ptp := { ptpOn.net.ptp with port0 := { sync := some (0, 0), reqAt := some 0 } } } }
def ptpFar : State := wr Reg.PTP_JUMP 3 ptpOn
theorem wit_NetworkTime : portUp 0 ptpOn = true ∧ ptpOn.net.ptp.master = true ∧ rd64 Reg.PTP_GM_LO ptpOn = 0 ∧ (ptpPort false ptpOn).delays = []
    ∧ portUp 0 ptpHalf = true ∧ (ptpPort false ptpHalf).sync.isSome = true ∧ (ptpPort false ptpHalf).delays = []
    ∧ false = srcPort ptpFar ∧ ptpFar.net.ptp.stepAccepted = false ∧ ptpFar.net.ptp.judged = true
    ∧ (rd Reg.PTP_JUMP ptpFar).toNat < (((moduleNs ptpFar).toNat : Int) - (0 : Nat) - ptpTime 946684800 0 - 0).natAbs
    ∧ false = srcPort ptpMay ∧ ptpMay.net.ptp.stepAccepted = true ∧ (rd Reg.PTP_JUMP ptpMay).toNat < (((moduleNs ptpMay).toNat : Int) - (0 : Nat)
        - ptpTime 946684800 0 - 0).natAbs
    ∧ netUp ptpOn = true ∧ servo ptpOn ≠ 3 ∧ redundant ptpOn = true ∧ flag Fld.PTP_STATE_MASTER ptpOn = false
    ∧ (ptpPort false ptpHalf).reqAt = some 0 ∧ hostOk Reg.PTP_CMD .write ptpOn = true := by decide +kernel

/-- A publication and a subscription that are live, a launch that waits, a ring master with one station, and a standby side. -/
def gseOn : State := { netOn with net := { netOn.net with
    gse := [(0, { desc := [0x80000000], live := true, interval := 4 }), (16, { desc := [0x80000000], live := true })]
    launch := [(0, { waiting := some (0, [1, 2]) })] } } |> setFlag (gseValid 0) true
def gseGood : State := { gseOn with exe := { gseOn.exe with image := some imgA } } |> setFld Fld.GSE_SEL_ENTRY 1
  |> wr (Reg.GSE_DATA 3) 0x000A000A |> wr (Reg.GSE_DATA 4) 0x00000001 |> wr (Reg.GSE_DATA 5) 0x00000101
  |> mset 0x02000013 0x10 |> wr Reg.LNCH_DATA0 0x8001E000
def ringOn : State := { gseGood with net := { gseGood.net with ring := { waitOver := true, stn := [(63, { closed := false, tid := 65535 })] } } } |> setFlag Fld.RING_CTRL_RUN true
  |> setFld Fld.RING_STATE_STATE 3 |> wr (Reg.STNs_ID 63) 0x77
def ringPass : State := setFlag (portLink 3) true (setFld Fld.PAIR_STATE_STATE 4 netOn)
theorem wit_GooseLaunchAndRing : hostOk Reg.GSE_CMD .write gseOn = true ∧ fld Fld.GSE_SEL_ENTRY gseOn = 0
    ∧ gseBad 0 ((List.range 8).map (fun w => rd (Reg.GSE_DATA w) gseOn)) gseOn = true ∧ hostOk Reg.GSE_CMD .write gseGood = true
    ∧ fld Fld.GSE_SEL_ENTRY gseGood = 1 ∧ gseBad 1 ((List.range 8).map (fun w => rd (Reg.GSE_DATA w) gseGood)) gseGood = false
    ∧ regionsUp gseOn = true ∧ gseEn (gse 0 gseOn) = true ∧ (gse 0 gseOn).live = true ∧ netUp gseOn = true ∧ gseEn (gse 16 gseOn) = true
    ∧ flag (gseValid 0) gseOn = true ∧ hostOk Reg.LNCH_CMD .write gseOn = true ∧ fld Fld.LNCH_SEL_SLOT gseOn = 0
    ∧ launchBad (rd Reg.LNCH_DATA0 gseOn) (rd Reg.LNCH_DATA1 gseOn) gseOn = true ∧ fld Fld.LNCH_SEL_SLOT gseGood = 0
    ∧ launchBad (rd Reg.LNCH_DATA0 gseGood) (rd Reg.LNCH_DATA1 gseGood) gseGood = false ∧ hostOk Reg.LNCH_CMD .write gseGood = true
    ∧ (launch 0 gseOn).waiting.isSome = true ∧ portUp 0 gseOn = true ∧ portUp 1 gseOn = true ∧ redundant gseOn = true
    ∧ ringMaster ringOn = true ∧ fld Fld.RING_STATE_STATE ringOn = 3 ∧ taskStations 7 ringOn = [(63, { task := 7, staleLimit := 1 })]
    ∧ (ringStn 63 ringOn).issued = [] ∧ portUp 2 ringOn = true ∧ (ringStn 63 ringOn).closed = false ∧ (ringStn 63 ringOn).tid < 65536
    ∧ (ringStn 63 ringOn).tid ≠ (9 : BitVec 16).toNat ∧ inRange (fld Fld.RING_STATE_STATE ringOn) 2 3 = true ∧ rd (Reg.STNs_ID 63) ringOn ≠ 0
    ∧ hostOk Reg.RING_CTRL .write ringOn = true ∧ regionsUp ringOn = true ∧ onStandby ringPass = true ∧ portUp 2 ringPass = true
    ∧ portUp 3 ringPass = true := by decide +kernel

/-- Channel 0 of an active side: buffer 0 receives every identifier and is full, 1 transmits with a deadline, 2 is bound to tags;
the same near the limit of its counter, recovering, and without FD. -/
def canX : CanBuf := { words := [(0, 0x40000000), (3, 0x08000000)] }
def canT : CanBuf := { words := [(0, 0x80000123), (2, 0x04000000), (3, 0x02000000), (6, 9)] }
def canG : CanBuf := { words := [(0, 0x40000000), (1, 0x60000000), (6, 9)] }
def canOn : State := { setFlag Fld.PAIR_STATE_AUTH_HELD true (setFld Fld.PAIR_STATE_STATE 1 up) with can := [(0, canX), (1, canT), (2, canG)] }
  |> setFld (Fld.CNc_STATUS_STATE 0) 1 |> setBitAt Reg.CAN_CTRL 0 true |> setFlag (Fld.CNc_CFG_FD_EN 0) true
def canNear : State := setFld (Fld.CNc_STATUS_TEC 0) 250 canOn
def canBack : State := setFld (Fld.CNc_STATUS_STATE 0) 4 canOn
def canOld : State := setFlag (Fld.CNc_CFG_FD_EN 0) false canOn
def canNone : State := { canOn with can := [] }
def canFd : CanFrame :=
  { id := 5, ide := false, fdf := true, brs := false, esi := false, rtr := false, dlc := 2, data := [1, 2], stamp := 9 }
theorem wit_CanTraffic : canOnBus 0 canOn = true ∧ flag (Fld.CNc_CFG_FD_EN 0) canOn = true
    ∧ ((List.range 64).filter (fun b => canMatches (canBuf 0 b canOn) canFd)).head? = some 0 ∧ canTakes (canBuf 0 0 canOn) = true
    ∧ canOnBus 0 canNone = true ∧ flag (Fld.CNc_CFG_FD_EN 0) canNone = true
    ∧ (List.range 64).filter (fun b => canMatches (canBuf 0 b canNone) canFd) = [] ∧ flag (Fld.CNc_CFG_QUEUE_EN 0) canNone = false
    ∧ canOnBus 0 canOld = true ∧ flag (Fld.CNc_CFG_FD_EN 0) canOld = false ∧ canFd.fdf = true
    ∧ canSends 0 canOn = true ∧ canOffer 0 canOn = some 1 ∧ (canBuf 0 1 canOn).cancelled = false ∧ canTec 0 canOn < 248
    ∧ canSends 0 canNear = true ∧ canOffer 0 canNear = some 1 ∧ 248 ≤ canTec 0 canNear ∧ canUp canBack = true ∧ canState 0 canBack = 4
    ∧ canUp canOn = true ∧ canPendingAt 0 1 canOn = true ∧ (canBuf 0 1 canOn).has canTimeout = true ∧ inRange (canState 0 canOn) 1 4 = true
    ∧ (canBuf 0 2 canOn).get canKind = 1 ∧ (canBuf 0 2 canOn).get canOwner = 1 ∧ (canBuf 0 2 canOn).has canTimeout = true := by decide +kernel

/-- Channel 0 stopped with sound timing (1 Mbit/s, 8 Mbit/s), off the bus, and isolated; buffer 3 belongs to safety. -/
def canStop : State := { up with can := [(3, { words := [(1, 0x80000000)] }), (1, canT)] } |> setFld (Fld.CNc_NBT_NTSEG1 0) 62
  |> setFld (Fld.CNc_NBT_NTSEG2 0) 15 |> setFld (Fld.CNc_NBT_NSJW 0) 0 |> setFld (Fld.CNc_DBT_DTSEG1 0) 5 |> setFld (Fld.CNc_DBT_DTSEG2 0) 2
  |> setFld (Fld.CNc_DBT_DSJW 0) 0 |> setFld (Fld.CNc_DBT_DBRP 0) 0 |> setFld (Fld.CNc_NBT_NBRP 0) 0
def canBadTime : State := setFld (Fld.CNc_NBT_NTSEG1 0) 0 canStop
def canOff : State := setFld (Fld.CNc_STATUS_STATE 0) 3 canOn
def canIso : State := setFld (Fld.CNc_STATUS_STATE 0) 5 canOn
theorem wit_CanCommands : hostOk Reg.CAN_CTRL .write canStop = true ∧ bitAt Reg.CAN_CTRL 0 canStop = false ∧ canTimingOk 0 canStop = true
    ∧ canBound 0 canStop = [] ∧ canState 0 canStop ≠ 5 ∧ hostOk Reg.CAN_CTRL .write canBadTime = true ∧ bitAt Reg.CAN_CTRL 0 canBadTime = false
    ∧ canTimingOk 0 canBadTime = false ∧ hostOk Reg.CAN_CTRL .write canOn = true ∧ bitAt Reg.CAN_CTRL 0 canOn = true ∧ canState 0 canOn ≠ 5
    ∧ hostOk (canAddr 0 1 8) .write canStop = true ∧ canWritable 0 1 8 5 canStop = true ∧ hostOk (canAddr 0 3 8) .write canStop = true
    ∧ canWritable 0 3 8 5 canStop = false ∧ hostOk Reg.CAN_CMD .write canStop = true ∧ (canBuf 0 1 canStop).get canOwner ≠ 2
    ∧ (canBuf 0 1 canStop).get canKind = 2 ∧ (canBuf 0 3 canStop).get canOwner = 2 ∧ canPendingAt 0 1 canStop = true
    ∧ hostOk Reg.CAN_CMD .write canOn = true ∧ (canBuf 0 1 canOn).get canOwner ≠ 2 ∧ canPendingAt 0 1 canOn = true ∧ canSends 0 canOn = true
    ∧ hostOk Reg.CAN_CMD .write canOff = true ∧ canState 0 canOff = 3 ∧ canUp canOn = true ∧ hostOk Reg.CAN_CMD .write canIso = true
    ∧ canState 0 canIso = 5 := by decide +kernel

/-- The writer runs, is frozen, thaws, and starts; and a drain that skipped. -/
def strOn : State := { setFlag Fld.STR_CTRL_LIVE_EN false (setFlag Fld.STR_CTRL_PRIO_EN false up) with strand := { up.strand with phase := .run, queue := [], skips := 3 } }
def strIce : State := { strOn with strand := { strOn.strand with phase := .frozen, frozenAt := 7 } }
def strMelt : State := { strOn with strand := { strOn.strand with phase := .thawing } }
def strBoot : State := { strOn with strand := { strOn.strand with phase := .starting } }
def strReq : State := setBitAt (queEnReg 51) 19 true strOn |> setFld (Fld.QUEq_CFG_ENTRIES_LOG2 51) 4
  |> setFld (Fld.QUEq_CFG_SLOT_LOG2 51) 6 |> setFld (Fld.QUEq_HEAD_INDEX 51) 1
def strFree : State := { strOn with strand := { strOn.strand with rlCfg := [(0, 0)] } }
theorem wit_StrandlineRing : strOn.strand.phase = .run ∧ strOn.strand.lostSince = 0 ∧ flag Fld.STR_CTRL_LIVE_EN strOn = false
    ∧ flag Fld.STR_CTRL_PRIO_EN strOn = false ∧ hostOk Reg.STR_CMD .write strOn = true ∧ hostOk Reg.STR_CMD .write strIce = true
    ∧ strIce.strand.phase = .frozen ∧ strMelt.strand.phase = .thawing ∧ strFree.strand.queue = []
    ∧ strFree.strand.phase = .run ∧ strFree.strand.lostSince = 0 ∧ hostOk Reg.STR_CMD .write strFree = true
    ∧ Sparse.find strFree.strand.tat (fld Fld.STR_HOST_CODE_CODE strFree) = none
    ∧ fieldOf (rlCfg (fld Fld.STR_HOST_CODE_CODE strFree) strFree) Fld.STR_RL_CFG_RATE = 0 ∧ hostOk Reg.STR_RL_CFG .write strOn = true
    ∧ strOn.strand.skips ≠ 0 ∧ queHas 51 strReq = true ∧ strBoot.strand.phase = .starting ∧ alive strBoot = true := by decide +kernel

/-- The clock runs in network time; counts to set, one too large; a date to set; and a low cell. -/
def clkOn : State := setFlag Fld.CLK_CTRL_SYNC_EN true (setFlag Fld.PTP_STATE_DISCIPLINED true { up with backup := { up.backup with count := 3276800 } })
def clkBig : State := wr64 Reg.CLK_SET_LO 0xFFFFFFFFFFFF clkOn
def clkDate : State := wr64 Reg.CLK_CAL_LO (Cal.pack 86400) clkOn
def clkBadDate : State := wr64 Reg.CLK_CAL_LO 0xFFFFFFFFFFFFFFFF clkOn
def clkCell : State := { clkOn with backup := { clkOn.backup with cellLow := true, onBackup := false, stopped := false } }
theorem wit_BackupClock : clkCell.backup.stopped = false ∧ hostOk Reg.CLK_STATUS .write clkOn = true ∧ alive clkOn = true
    ∧ flag Fld.CLK_CTRL_SYNC_EN clkOn = true ∧ disciplined clkOn = true ∧ hostOk Reg.CLK_CMD .write clkOn = true
    ∧ (rd64 Reg.CLK_SET_LO clkOn).toNat % 2 ^ 48 ≤ lastTick ∧ hostOk Reg.CLK_CMD .write clkBig = true
    ∧ lastTick < (rd64 Reg.CLK_SET_LO clkBig).toNat % 2 ^ 48 ∧ hostOk Reg.CLK_CMD .write clkDate = true
    ∧ (Cal.unpack (rd64 Reg.CLK_CAL_LO clkDate)).valid = true ∧ hostOk Reg.CLK_CMD .write clkBadDate = true
    ∧ (Cal.unpack (rd64 Reg.CLK_CAL_LO clkBadDate)).valid = false ∧ clkOn.backup.count ≤ lastTick
    ∧ hostOk (Reg.CLK_BREG 15) .write clkOn = true ∧ clkOn.backup.onBackup = false ∧ clkOn.backup.cellLow = false ∧ alive clkCell = true
    ∧ clkCell.backup.onBackup = false ∧ clkCell.backup.cellLow = true := by decide +kernel

/-- A staged set that is in order, one that is not, one locked, and a commit under way. -/
def mpuIdle : State := { up with exe := { up.exe with area := true } }
def mpuBad : State := { mpuIdle with mpu := { mpuIdle.mpu with paint := [(0, { w0 := 9, w1 := 8, w2 := 0x80000000 })] } }
def mpuRun : State := { mpuIdle with exe := { mpuIdle.exe with image := some imgA } }
def mpuShut : State := setFlag Fld.MPU_CTRL_LOCKED true mpuIdle
def mpuBusy : State := setFlag Fld.MPU_RESULT_BUSY true mpuIdle
theorem wit_ProtectionAndMemoryErrors : hostOk Reg.MPU_CMD .write mpuIdle = true ∧ flag Fld.MPU_CTRL_LOCKED mpuIdle = false
    ∧ flag Fld.MPU_RESULT_BUSY mpuIdle = false ∧ stagedBad mpuIdle = false ∧ hostOk Reg.MPU_CMD .write mpuShut = true
    ∧ flag Fld.MPU_CTRL_LOCKED mpuShut = true ∧ hostOk Reg.MPU_CMD .write mpuBusy = true ∧ flag Fld.MPU_CTRL_LOCKED mpuBusy = false
    ∧ flag Fld.MPU_RESULT_BUSY mpuBusy = true ∧ hostOk Reg.MPU_CMD .write mpuBad = true ∧ flag Fld.MPU_CTRL_LOCKED mpuBad = false
    ∧ flag Fld.MPU_RESULT_BUSY mpuBad = false ∧ stagedBad mpuBad = true ∧ alive mpuBusy = true ∧ flag Fld.MPU_STG_SEL_PAINT mpuIdle = false
    ∧ fld Fld.MPU_STG_SEL_MASTER mpuIdle = 0 ∧ fld Fld.MPU_STG_SEL_ENTRY mpuIdle = 0 ∧ hostOk Reg.MPU_CTRL .write mpuIdle = true
    ∧ alive mpuIdle = true ∧ (0x01FFFFFF : BitVec 36).toNat < 0x02000000
    ∧ alive mpuRun = true ∧ ((0x01FFFFFF : BitVec 36).toNat / 0x01000000 = if mpuRun.exe.area then 1 else 0) ∧ mpuRun.exe.image.isSome = true
    ∧ ((0x00FFFFFF : BitVec 36).toNat / 0x01000000 = if mpuIdle.exe.area then 0 else 1) := by decide +kernel
/-- Every variant has DRAM up to 2 GiB. -/
theorem wit_ProtectionAndMemoryErrors_dram : (0x01FFFFFF : BitVec 36).toNat ≤ dramEnd := by
  unfold dramEnd; split <;> decide

/-- The host at each end of a mailbox, with words and without; locks held by the host and by another; and queues in use. -/
def mbxHost0 : State := { setFlag (Fld.MBXm_BIND_EN 0) true (setFld (Fld.MBXm_BIND_END0 0) 8 (setFld (Fld.MBXm_BIND_END1 0) 0 up)) with
  mailboxes := [(0, { to0 := [5, 6], to1 := [7], new := true })], locks := [(0, ⟨8, 0⟩), (1, ⟨0, 3⟩)] }
def mbxFull : State := { mbxHost0 with mailboxes := [(0, { to1 := [1, 2, 3, 4, 5, 6, 7, 8] })] }
def mbxHost1 : State := setFld (Fld.MBXm_BIND_END0 0) 0 (setFld (Fld.MBXm_BIND_END1 0) 8 mbxHost0)
def mbxShut : State := setFlag Fld.MBX_CTRL_BIND_LOCK true mbxHost0
def queReady (q : Nat) (s : State) : State := setFld (Fld.QUEq_CFG_ENTRIES_LOG2 q) 4 s |> setFld (Fld.QUEq_CFG_SLOT_LOG2 q) 6
  |> setFld (Fld.QUEq_BASE_LO_ADDR q) 0x300000
def queOn : State := setBitAt (queEnReg 11) 11 true (setBitAt (queEnReg 3) 3 true (queReady 3 (queReady 11 (queReady 0 up))))
  |> setFld (Fld.QUEq_HEAD_INDEX 3) 2 |> setFld (Fld.QUEq_HEAD_INDEX 11) 3 |> setBitAt (queEnReg 36) 4 true |> setFld (Fld.QUEq_CFG_ENTRIES_LOG2 36) 4 |> setFld (Fld.QUEq_CFG_SLOT_LOG2 36) 6
  |> setFld (Fld.QUEq_HEAD_INDEX 36) 1
theorem wit_MailboxesLocksAndQueues : hostOk (Reg.MBXm_SEND 0) .write mbxHost0 = true ∧ mbxEnd 0 8 mbxHost0 = some false
    ∧ (mbx 0 mbxHost0).to1.length < 8 ∧ hostOk (Reg.MBXm_SEND 0) .write mbxFull = true ∧ mbxEnd 0 8 mbxFull = some false
    ∧ (mbx 0 mbxFull).to1.length = 8 ∧ hostOk (Reg.MBXm_RECV 0) .read mbxHost0 = true ∧ (mbx 0 mbxHost0).to0 ≠ []
    ∧ hostOk (Reg.MBXm_DBL 0) .write mbxHost0 = true ∧ hostOk (Reg.MBXm_DBL 0) .write mbxHost1 = true ∧ mbxEnd 0 8 mbxHost1 = some true
    ∧ hostOk (Reg.MBXm_ACK 0) .write mbxHost1 = true ∧ hostOk (Reg.MBXm_ACK 0) .read mbxHost0 = true
    ∧ hostOk (Reg.MBXm_BIND 0) .write mbxHost0 = true ∧ bindOpen mbxHost0 = true ∧ bindOk ((0x80800000 : Word) &&& 0x80FFFFFF) = true
    ∧ hostOk (Reg.MBXm_BIND 0) .write mbxShut = true ∧ bindOpen mbxShut = false ∧ hostOk Reg.MBX_CTRL .write mbxHost0 = true
    ∧ hostOk (Reg.MBX_LOCK 63) .read mbxHost0 = true ∧ lockHolder 63 mbxHost0 = none ∧ hostOk (Reg.MBX_LOCK 0) .write mbxHost0 = true
    ∧ (lockHolder 0 mbxHost0).any (fun h => h.master == 8) = true ∧ hostOk (Reg.MBX_LOCK 1) .write mbxHost0 = true
    ∧ (lockHolder 1 mbxHost0).any (fun h => h.master == 8) = false ∧ hostOk Reg.MBX_LOCK_FORCE_LO .write mbxHost0 = true
    ∧ hostOk Reg.QUE_EN_LO .write queOn = true ∧ queEnabled 0 queOn = false
    ∧ hostOk (Reg.QUEq_HEAD 3) .write queOn = true ∧ queHostProduced 3 = true ∧ queEnabled 3 queOn = true ∧ (5 : BitVec 16).toNat < queEntries 3 queOn
    ∧ ((5 : BitVec 16).toNat + queEntries 3 queOn - queHead 3 queOn) % queEntries 3 queOn ≤ queEntries 3 queOn - 1 - queFill 3 queOn
    ∧ hostOk (Reg.QUEq_TAIL 11) .write queOn = true ∧ queHostConsumed 11 = true ∧ queEnabled 11 queOn = true
    ∧ queEntries 11 queOn ≤ (16 : BitVec 16).toNat ∧ ((2 : BitVec 16).toNat + queEntries 11 queOn - queTail 11 queOn) % queEntries 11 queOn ≤ queFill 11 queOn
    ∧ alive queOn = true ∧ queHas 36 queOn = true := by decide +kernel

/-- Modules in each lifecycle state, with keys, tokens and authorisations. -/
def lcyIn (st : Fin 6) : State := { up with lcy := { st := st, key0 := some 5, key1 := some 6, token := some (9, true), ir := .dbgAuth, transition := some 3, auth := some 0 } }
def lcyQuiet : State := setFld Fld.SUP_PWR_STATE_STATE 1 (lcyIn 2)
def lcyRetiring : State := { lcyQuiet with lcy := { lcyQuiet.lcy with transition := some 5 } }
def lcyOneKey : State := { lcyQuiet with lcy := { lcyQuiet.lcy with key1 := none, auth := none } }
def lcyNew : State := { lcyIn 0 with lcy := { (lcyIn 0).lcy with key0 := none, key1 := none } }
def keyQueue (s : State) : State := s |> setBitAt (queEnReg 35) 3 true |> setFld (Fld.QUEq_CFG_ENTRIES_LOG2 35) 4
  |> setFld (Fld.QUEq_CFG_SLOT_LOG2 35) 6 |> setFld (Fld.QUEq_HEAD_INDEX 35) 1 |> setFld (Fld.QUEq_BASE_LO_ADDR 35) 0x400000
def lcyKeys : State := keyQueue lcyNew
def lcyField : State := keyQueue (lcyIn 2)
def lcySession : State := setFlag Fld.LCY_DBG_STATUS_OPEN true (lcyIn 2)
def lcySealed : State := lcyIn 3
def lcyDriving : State := { lcyIn 4 with sup := { (lcyIn 4).sup with authDriven := true } }
theorem wit_LifecycleKeysAndDebug : hostOk Reg.LCY_CMD .write lcyQuiet = true ∧ flag Fld.LCY_RESULT_BUSY lcyQuiet = false
    ∧ lcyListed lcyQuiet.lcy.st (4 : Fin 6).val = true ∧ lcyListed lcyQuiet.lcy.st (5 : Fin 6).val = true ∧ lcyListed lcyQuiet.lcy.st (3 : Fin 6).val = true
    ∧ lcyQuiet.lcy.auth = some (rd64 Reg.LCY_NONCE_LO lcyQuiet) ∧ power lcyQuiet = 1 ∧ (0x04 : Byte) ≠ ~~~(BitVec.ofNat 8 (4 : Fin 6).val)
    ∧ lcyListed lcyQuiet.lcy.st (1 : Fin 6).val = false ∧ hostOk Reg.LCY_CMD .write lcyOneKey = true ∧ flag Fld.LCY_RESULT_BUSY lcyOneKey = false
    ∧ lcyListed lcyOneKey.lcy.st 4 = true ∧ lcyOneKey.lcy.auth ≠ some (rd64 Reg.LCY_NONCE_LO lcyOneKey) ∧ hostOk Reg.LCY_CMD .write lcyField = true
    ∧ flag Fld.LCY_RESULT_BUSY lcyField = false ∧ lcyListed lcyField.lcy.st 5 = true ∧ power lcyField ≠ 1 ∧ alive lcyQuiet = true
    ∧ (lcyQuiet.lcy.transition).any (fun x => decide (x.val < 4)) = true ∧ alive lcyRetiring = true
    ∧ (lcyRetiring.lcy.transition).any (fun x => decide (4 ≤ x.val)) = true ∧ (keyOf (1 - (1 : Fin 2).val) lcyOneKey).isSome = true
    ∧ lcyOneKey.lcy.revoked.getLsbD (1 - (1 : Fin 2).val) = false ∧ (keyOf (1 - (0 : Fin 2).val) lcyOneKey).isNone = true
    ∧ alive lcyKeys = true ∧ itemReady 35 lcyKeys = true
    ∧ lcyKeys.lcy.st.val ≤ 1 ∧ lcyKeys.lcy.key0 = none ∧ lcyKeys.lcy.key1 = none ∧ itemReady 35 lcyField = true
    ∧ (5 : DWord) ≠ rd64 Reg.LCY_NONCE_LO lcyField ∧ decide (lcyField.lcy.st.val ≤ 1) = false
    ∧ hostOk Reg.LCY_DBG_TOKEN .write lcyField = true ∧ alive lcyField = true ∧ lcyField.lcy.st.val = 2 ∧ lcyField.lcy.ir = .dbgAuth
    ∧ lcyField.lcy.token.isSome = true ∧ (lcyField.lcy.token.map (·.1)).any (fun x => x != 8) = true := by decide +kernel
theorem wit_LifecycleKeysAndDebug_access : alive lcySession = true ∧ flag Fld.MOD_STATUS_START_DONE lcySession = true
    ∧ debugLocked (0x1F : BitVec 36).toNat .read lcySession = true ∧ debugLocked (0x1F : BitVec 36).toNat .write lcySession = true
    ∧ debugLocked (0x20000000 : BitVec 36).toNat .read lcySession = false ∧ debugLocked (0x0FFFFFFFF : BitVec 36).toNat .write lcySession = false
    ∧ debugLocked (0x20000000 : BitVec 36).toNat .read lcySealed = true
    ∧ alive lcySealed = true ∧ scanOpen .idcode lcySealed = true ∧ scanOpen .extest lcySealed = false ∧ alive lcyDriving = true
    ∧ scanOpen .extest lcyDriving = true ∧ scanDrives .extest = true ∧ lcyDriving.sup.authDriven = true
    ∧ scanOpen .highz (lcyIn 1) = true ∧ (lcyIn 1).sup.authDriven = false := by decide +kernel
/-- The default descriptors let the debugger reach the host region of DRAM (Table MPU-3). -/
theorem wit_LifecycleKeysAndDebug_mpu : partCause 9 (0x20000000 : BitVec 36).toNat .read lcySession = none
    ∧ partCause 9 (0x0FFFFFFFF : BitVec 36).toNat .write lcySession = none := by
  unfold partCause
  refine ⟨?_, ?_⟩ <;> (simp only [mpuCheck_low _ _ _ _ _ (by decide : (0x20000000 : BitVec 36).toNat ≤ 0x0FFFFFFFF), mpuCheck_low _ _ _ _ _ (by decide : (0x0FFFFFFFF : BitVec 36).toNat ≤ 0x0FFFFFFFF)]; decide +kernel)

/-- Two valid slots; an item in each of the bulk queues; a trial; a pair; a wait for slack, and a pause. -/
def bulkOn (q last : Nat) (s : State) : State := s |> setBitAt (queEnReg q) (q % 32) true |> setFld (Fld.QUEq_CFG_ENTRIES_LOG2 q) 4
  |> setFld (Fld.QUEq_CFG_SLOT_LOG2 q) 6 |> setFld (Fld.QUEq_HEAD_INDEX q) 1 |> setFld (Fld.QUEq_BASE_LO_ADDR q) (0x400000 + 0x1000 * q)
  |> (fun t => msetBytes (queAddr q 0 t) [12, 0] t) |> (fun t => msetBytes (queAddr q 0 t + 20) [BitVec.ofNat 8 last, 0, 0, 0, 7, 8, 9, 10] t)
def bulkUp : State := bulkOn 34 1 (bulkOn 33 1 (bulkOn 32 1 up))
def safeCopy : CfgCopy := ⟨0, 1, ⟨.test, true⟩, none, false, [], ⟨0, 0, [], [], [], [], [], true⟩⟩
def fwuIdle : State := { bulkUp with fwu := { bulkUp.fwu with validA := true, validB := true, programming := true, complete := true, cur := some safeCopy } }
def fwuNone : State := { bulkUp with fwu := { bulkUp.fwu with validA := true } }
def fwuLone : State := { setFld Fld.PAIR_STATE_STATE 5 fwuIdle with fwWait := true }
def fwuOther : State := msetBytes (slotBase true + 16) [1] fwuLone
def fwuTrial : State := { fwuLone with fwu := { fwuLone.fwu with trial := true, runB := true, cur := some safeCopy, prev := some { safeCopy with gen := 2 } } }
def fwuStand : State := setFld Fld.PAIR_STATE_STATE 4 fwuIdle
def fwuActive : State := { setFlag Fld.PAIR_STATE_CW1_OK true (setFld Fld.PAIR_STATE_PEER 4 (setFld Fld.PAIR_STATE_STATE 1 fwuIdle)) with
  pair := { peer := some (hbOf 4) } }
def fwuPaused : State := { fwuLone with fwPause := true }
def fwuRetired : State := { fwuIdle with lcy := { fwuIdle.lcy with st := 5 } }
def fwuHeld : State := { exeIdle with fwPause := true } |> onTask 0 (fun x => { x with held := .slack 5 })
def fwuSealed : State := { fwuIdle with lcy := { fwuIdle.lcy with st := 3 } }
def safeSplit : CfgCopy := { safeCopy with split := true }
theorem wit_FirmwareUpdate : hostOk Reg.FWU_CMD .write fwuIdle = true ∧ flag Fld.FWU_RESULT_BUSY fwuIdle = false ∧ fwuIdle.fwu.trial = false
    ∧ fwuIdle.lcy.st.val ≠ 5 ∧ hostOk Reg.FWU_CMD .write fwuTrial = true ∧ flag Fld.FWU_RESULT_BUSY fwuTrial = false ∧ fwuTrial.fwu.trial = true
    ∧ alive fwuIdle = true ∧ itemReady 32 fwuIdle = true ∧ queEnabled 40 fwuIdle = false ∧ fwuIdle.fwu.programming = true
    ∧ itemOffset 32 fwuIdle + (itemData 32 fwuIdle).length ≤ 0x10000000 ∧ alive fwuNone = true ∧ itemReady 32 fwuNone = true
    ∧ queEnabled 40 fwuNone = false ∧ fwuNone.fwu.programming = false ∧ fwuIdle.fwu.complete = true
    ∧ hostOk Reg.FWU_CMD .write fwuNone = true ∧ flag Fld.FWU_RESULT_BUSY fwuNone = false ∧ slotValid (otherSlot fwuNone) fwuNone = false
    ∧ hostOk Reg.FWU_CMD .write fwuLone = true ∧ flag Fld.FWU_RESULT_BUSY fwuLone = false ∧ slotValid (otherSlot fwuLone) fwuLone = true
    ∧ fwuLone.fwu.trial = false ∧ fwuLone.lcy.st.val ≠ 5 ∧ fwuLone.exe.phase ≠ .verified ∧ fwuLone.exe.phase ≠ .armed ∧ fwuLone.fwu.noFw = false
    ∧ onStandby fwuLone = false ∧ pairState fwuLone ≠ 1 ∧ hdrSafeCrc (otherSlot fwuLone) fwuLone = hdrSafeCrc fwuLone.fwu.runB fwuLone
    ∧ hostOk Reg.FWU_CMD .write fwuOther = true ∧ flag Fld.FWU_RESULT_BUSY fwuOther = false ∧ slotValid (otherSlot fwuOther) fwuOther = true
    ∧ fwuOther.fwu.trial = false ∧ fwuOther.lcy.st.val ≠ 5 ∧ fwuOther.exe.phase ≠ .verified ∧ fwuOther.exe.phase ≠ .armed ∧ fwuOther.fwu.noFw = false
    ∧ onStandby fwuOther = false ∧ pairState fwuOther ≠ 1 ∧ hdrSafeCrc (otherSlot fwuOther) fwuOther ≠ hdrSafeCrc fwuOther.fwu.runB fwuOther := by
  decide +kernel
theorem wit_FirmwareUpdate_pair : hostOk Reg.FWU_CMD .write fwuStand = true ∧ flag Fld.FWU_RESULT_BUSY fwuStand = false ∧ slotValid (otherSlot fwuStand) fwuStand = true
    ∧ fwuStand.fwu.trial = false ∧ fwuStand.lcy.st.val ≠ 5 ∧ fwuStand.exe.phase ≠ .verified ∧ fwuStand.exe.phase ≠ .armed ∧ onStandby fwuStand = true
    ∧ hostOk Reg.FWU_CMD .write fwuActive = true ∧ flag Fld.FWU_RESULT_BUSY fwuActive = false ∧ slotValid (otherSlot fwuActive) fwuActive = true
    ∧ fwuActive.fwu.trial = false ∧ fwuActive.lcy.st.val ≠ 5 ∧ fwuActive.exe.phase ≠ .verified ∧ fwuActive.exe.phase ≠ .armed ∧ pairState fwuActive = 1
    ∧ peerInStep fwuActive = true ∧ fwuActive.pair.switch = .none ∧ alive fwuLone = true ∧ fwuLone.fwWait = true ∧ fwuLone.fwu.viaSwitch = false
    ∧ allIdle fwuLone = true ∧ slackBusy fwuLone = false ∧ alive fwuPaused = true ∧ fwuPaused.fwPause = true ∧ alive fwuHeld = true
    ∧ fwuHeld.fwPause = true ∧ (taskDef (0 : Fin 24).val fwuHeld).isSome = true
    ∧ (match (task (0 : Fin 24).val fwuHeld).held with | .slack _ => true | _ => false) = true ∧ healthy fwuTrial = true
    ∧ alive fwuTrial = true ∧ (false && healthy fwuTrial) = false := by decide +kernel
theorem wit_FirmwareUpdate_stores : itemReady 33 fwuIdle = true ∧ itemLast 33 fwuIdle = true ∧ fwuIdle.lcy.st.val ≠ 3 ∧ fwuIdle.fwu.trial = false
    ∧ accepts safeCopy.signed fwuIdle = true ∧ alive fwuRetired = true ∧ itemReady 33 fwuRetired = true ∧ fwuRetired.lcy.st.val = 5
    ∧ alive fwuSealed = true ∧ itemReady 33 fwuSealed = true ∧ fwuSealed.lcy.st.val = 3 ∧ itemReady 34 fwuIdle = true ∧ itemLast 34 fwuIdle = true
    ∧ itemOffset 34 fwuIdle + (itemData 34 fwuIdle).length ≤ 0x20000000 ∧ accepts ⟨.test, true⟩ fwuIdle = true
    ∧ accepts ⟨.slot 0 5, true⟩ fwuIdle = false := by decide +kernel
/-- A sealed module with a store signed under its key slot 0. -/
def fwuSealedCfg : State := { fwuSealed with lcy := { fwuSealed.lcy with key0 := some 5 }, fwu := { fwuSealed.fwu with cur := some { safeCopy with signed := ⟨.slot 0 5, true⟩ } } }
theorem wit_FirmwareUpdate_sealed : alive fwuSealedCfg = true ∧ itemReady 33 fwuSealedCfg = true ∧ fwuSealedCfg.lcy.st.val = 3
    ∧ (cfgUsed fwuSealedCfg).any (fun u => u.split != safeSplit.split) = true := by decide +kernel
/-- An image for every variant fits, and one for none does not. -/
def fwuAllVariants : State := msetBytes (slotBase true + 14) [0xFF] fwuIdle
theorem wit_FirmwareUpdate_variants : fwIncompatible fwuAllVariants = false ∧ fwIncompatible fwuIdle = true
    ∧ hostOk Reg.FWU_CMD .write fwuAllVariants = true ∧ flag Fld.FWU_RESULT_BUSY fwuAllVariants = false ∧ fwuAllVariants.fwu.complete = true
    ∧ fwuAllVariants.lcy.st.val ≠ 5 := by
  unfold fwIncompatible variantBit
  generalize Config.variant = v
  revert v
  decide +kernel

/-- Modules in each power state. -/
def pwrAt (n : Nat) : State := { setFld Fld.SUP_PWR_STATE_STATE n (setFlag Fld.MOD_STATUS_CFG_OK true (setFld Fld.TRIAD_STATE_MODE 1 up)) with fwu := { up.fwu with noFw := false } }
def pwrQuiet : State := pwrAt 1
def pwrReady : State := pwrAt 2
def pwrRun : State := pwrAt 3
def pwrHold : State := { pwrAt 4 with sup := { (pwrAt 4).sup with heldProg := [(3, 5)] } }
def pwrBare : State := { pwrAt 1 with fwu := { up.fwu with noFw := true } }
def pwrBusy : State := setFlag Fld.SUP_PWR_STATE_BUSY true pwrReady
def pwrNoCfg : State := setFlag Fld.MOD_STATUS_CFG_OK false pwrQuiet
def pwrBadSid : State := { pwrReady with sup := { pwrReady.sup with sid := 3 } }
def pwrGood : State := { pwrReady with sup := { pwrReady.sup with sid := 1 } }
def pwrPair : State := { setFlag Fld.PAIR_STATE_AUTH_HELD true (setFld Fld.PAIR_STATE_STATE 1 (setFld Fld.PAIR_STATE_PEER 4 (setFlag Fld.PAIR_STATE_CW1_OK true pwrRun))) with
  pair := { peer := some (hbOf 4) } }
def pwrStep : State := { setFld Fld.SUP_PWR_STATE_TARGET 2 (setFlag Fld.SUP_PWR_STATE_BUSY true pwrQuiet) with sup := { pwrQuiet.sup with stepTo := some 2 } }
theorem wit_PowerStates : hostOk Reg.SUP_PWR_CMD .write pwrBare = true ∧ pwrBare.fwu.noFw = true ∧ hostOk Reg.SUP_PWR_CMD .write pwrBusy = true
    ∧ pwrBusy.fwu.noFw = false ∧ flag Fld.SUP_PWR_STATE_BUSY pwrBusy = true ∧ (0 : Fin 5).val ≠ 1 ∧ hostOk Reg.SUP_PWR_CMD .write pwrQuiet = true
    ∧ pwrQuiet.fwu.noFw = false ∧ power pwrQuiet = (1 : Fin 5).val ∧ flag Fld.SUP_PWR_STATE_BUSY pwrQuiet = false
    ∧ hostOk Reg.SUP_PWR_CMD .write pwrReady = true ∧ pwrReady.fwu.noFw = false ∧ power pwrReady = 2 ∧ flag Fld.SUP_PWR_STATE_BUSY pwrReady = false
    ∧ (flag Fld.MOD_STATUS_START_DONE pwrQuiet && flag Fld.MOD_STATUS_CFG_OK pwrQuiet && pwrQuiet.lcy.st.val != 5) = true
    ∧ hostOk Reg.SUP_PWR_CMD .write pwrNoCfg = true ∧ pwrNoCfg.fwu.noFw = false ∧ flag Fld.SUP_PWR_STATE_BUSY pwrNoCfg = false ∧ power pwrNoCfg = 1
    ∧ (flag Fld.MOD_STATUS_START_DONE pwrNoCfg && flag Fld.MOD_STATUS_CFG_OK pwrNoCfg && pwrNoCfg.lcy.st.val != 5) = false
    ∧ hostOk Reg.SUP_PWR_CMD .write pwrGood = true ∧ pwrGood.fwu.noFw = false ∧ flag Fld.SUP_PWR_STATE_BUSY pwrGood = false ∧ power pwrGood = 2
    ∧ pwrGood.sup.sid ≠ 3 ∧ ([1, 2, 4].contains (fld Fld.TRIAD_STATE_MODE pwrGood) && fld Fld.SUP_REGIONS_FALLBACK pwrGood % 16 == 0 && pwrGood.lcy.st.val != 5) = true
    ∧ hostOk Reg.SUP_PWR_CMD .write pwrBadSid = true ∧ pwrBadSid.fwu.noFw = false ∧ flag Fld.SUP_PWR_STATE_BUSY pwrBadSid = false ∧ power pwrBadSid = 2
    ∧ pwrBadSid.sup.sid = 3 ∧ hostOk Reg.SUP_PWR_CMD .write pwrRun = true ∧ pwrRun.fwu.noFw = false ∧ flag Fld.SUP_PWR_STATE_BUSY pwrRun = false
    ∧ power pwrRun = 3 ∧ hostOk Reg.SUP_PWR_CMD .write pwrHold = true ∧ pwrHold.fwu.noFw = false ∧ flag Fld.SUP_PWR_STATE_BUSY pwrHold = false
    ∧ power pwrHold = 4 ∧ pwrRun.sup.stepTo = none ∧ flag Fld.PAIR_STATE_AUTH_HELD pwrRun = false ∧ hostOk Reg.SUP_PWR_CMD .write pwrPair = true
    ∧ pwrPair.fwu.noFw = false ∧ flag Fld.SUP_PWR_STATE_BUSY pwrPair = false ∧ 3 ≤ power pwrPair ∧ pwrPair.pair.switch = .none
    ∧ flag Fld.PAIR_STATE_AUTH_HELD pwrPair = true ∧ pairState pwrPair = 1 ∧ peerInStep pwrPair = true ∧ alive pwrStep = true ∧ power pwrStep = 1
    ∧ pwrStep.sup.stepTo = some 2 ∧ fld Fld.SUP_PWR_STATE_TARGET pwrStep = 2 ∧ pwrStep.triad.retired = 0 := by decide +kernel

/-- A module in reset, with and without an interrupted erasure; one that starts; one off its seat; one with fallbacks. -/
def rstUp : State := { up with sup := { up.sup with supplyLow := false } }
def rstHeld : State := { State.reset with sup := { converters := true, sidPins := 1, supplyLow := false } }
def rstErase : State := { rstHeld with lcy := { rstHeld.lcy with marker := some 5, key0 := some 5 } }
def rstSeat : State := { rstUp with sup := { rstUp.sup with unseated := true } }
def rstStart : State := { setFlag Fld.MOD_STATUS_START_DONE false (setFld Fld.SUP_PWR_STATE_STATE 1 up) with
  strand := { up.strand with phase := .run }, fwu := { up.fwu with validA := true, validB := true, cur := some safeCopy } }
def rstNoSlot : State := { rstStart with fwu := { rstStart.fwu with validA := false, validB := false } }
def rstFalls : State := { setBitAt Reg.SUP_REGIONS 1 true (setBitAt Reg.SUP_REGIONS 3 true (setBitAt Reg.SUP_REGIONS 5 true (setFlag Fld.SUP_REGIONS_TI_BANK true up))) with
  backup := { up.backup with osf := false, trusted := true, regsValid := true } }
theorem wit_ResetsAndStart : hostOk Reg.SUP_CMD .write up = true ∧ (0x5B : Byte) ≠ 0x5A ∧ rstUp.sup.supplyLow = false ∧ powered rstUp = true
    ∧ rstUp.sup.inReset = false ∧ rstSeat.sup.unseated = true ∧ powered rstSeat = true ∧ hostOk Reg.SUP_CMD .write rstFalls = true
    ∧ flag Fld.SUP_REGIONS_TI_BANK rstFalls = true ∧ [1, 2, 3].contains (3 : Fin 16).val = true ∧ inFallback (3 : Fin 16).val rstFalls = true
    ∧ inFallback 5 rstFalls = true ∧ rstFalls.backup.osf = false ∧ rstFalls.backup.trusted = true ∧ rstFalls.backup.regsValid = true
    ∧ [1, 2, 3, 5, 8].contains (15 : Fin 16).val = false ∧ rstHeld.sup.inReset = true ∧ rstHeld.sup.supplyLow = false
    ∧ rstHeld.sup.converters = true ∧ rstHeld.lcy.marker = none ∧ rstErase.sup.inReset = true ∧ rstErase.sup.supplyLow = false
    ∧ rstErase.sup.converters = true ∧ rstErase.lcy.marker.isSome = true ∧ alive rstStart = true ∧ flag Fld.MOD_STATUS_START_DONE rstStart = false
    ∧ rstStart.fwu.noFw = false ∧ rstStart.strand.phase ≠ .starting ∧ slotValid rstStart.fwu.runB rstStart = true
    ∧ slotValid (otherSlot rstStart) rstStart = true ∧ alive rstNoSlot = true ∧ flag Fld.MOD_STATUS_START_DONE rstNoSlot = false
    ∧ rstNoSlot.fwu.noFw = false ∧ rstNoSlot.strand.phase ≠ .starting
    ∧ ((slotValid rstNoSlot.fwu.runB rstNoSlot && true) || (slotValid (otherSlot rstNoSlot) rstNoSlot && true)) = false
    ∧ (rstStart.fwu.cur).any (fun c => accepts c.signed rstStart && c.format.toNat == hdrCfgFormat rstStart.fwu.runB rstStart) = true := by
  decide +kernel

theorem wit_StepKeepsCanonicalForm : Canonical State.reset ∧ step State.reset = .next (tick State.reset) := by
  exact ⟨⟨by decide +kernel, by decide +kernel, by decide +kernel⟩, rfl⟩

theorem wit_LifecycleOrder : LifecycleSound lcyQuiet ∧ LifecycleSound lcyRetiring := by
  unfold LifecycleSound; decide +kernel
theorem wit_LifecycleOrder_step : (match step State.reset with | .next _ => true | _ => false) = true := rfl

theorem wit_SlotIdentityIsLatched : mayStart rstHeld = true ∧ rstHeld.sup.sidPins = 1 ∧ mayStart up = false
    ∧ mayStart { rstHeld with sup := { rstHeld.sup with sidPins := 3 } } = true ∧ mayStart { rstHeld with sup := { rstHeld.sup with sidPins := 0 } } = true
    ∧ mayStart { rstHeld with sup := { rstHeld.sup with sidPins := 2 } } = true := by decide +kernel

theorem wit_WindowsWithoutHostWrites : hostCause (0x140000 : BitVec 26).toNat .write up = none ∧ hostCause (0xFFFFFF : BitVec 26).toNat .write up = none
    ∧ (0x08FFFF : BitVec 26).toNat ≤ 0x08FFFF ∧ 0x080000 ≤ (0x080000 : BitVec 26).toNat := by decide +kernel

/-- The host has no descriptor in force. -/
def denyAll : State := { up with mpu := { up.mpu with rules := { desc := (List.range 32).map (fun d => (256 + d, {})) } } }
theorem wit_DeniedHostAccesses : denyAll.accMaster = 8 ∧ inRange (0x020000 : BitVec 26).toNat 0x080000 0x08FFFF = false
    ∧ hostAnswers (0x020000 : BitVec 26).toNat denyAll = true ∧ (hostCause (0x020000 : BitVec 26).toNat .write denyAll).isSome = true
    ∧ isLow Reg.CLK_COUNT_LO = true ∧ hostAnswers Reg.CLK_COUNT_LO denyAll = true ∧ (hostCause Reg.CLK_COUNT_LO .read denyAll).isSome = true := by decide +kernel

theorem wit_OtherInstancesStay : kqRuns 0 kqA = true ∧ (1 : Fin 24) ≠ 0 := by decide +kernel

theorem wit_MemoryFrames : (List.range 32).all (fun i => !inRange (0x201000020 : BitVec 36).toNat (traceBase i + fld (Fld.TRBb_STATUS_WR_INDEX i) up * traceLen i up)
      (traceBase i + fld (Fld.TRBb_STATUS_WR_INDEX i) up * traceLen i up + traceLen i up - 1)) = true
    ∧ inRange (0x201040000 : BitVec 36).toNat (traceBase (0 : Fin 32).val) (traceBase (0 : Fin 32).val + 262143) = false
    ∧ inSlot (plantQueue .goose) up (0x300000 : BitVec 36).toNat = false ∧ inSlot (16 + 2 * (3 : Fin 4).val) up (0x300000 : BitVec 36).toNat = false
    ∧ inSlot 11 queOn (0x300000 : BitVec 36).toNat = false ∧ inSlot 48 strOn (0x300000 : BitVec 36).toNat = false
    ∧ (strOn.strand.queue.head?).any (fun r => inRange (0x300000 : BitVec 36).toNat (ringBase + 32 * ringIndex r.seq) (ringBase + 32 * ringIndex r.seq + 31)) = false
    ∧ inQueue 49 strOn (0x300000 : BitVec 36).toNat = false ∧ inRange (0x0FFFFFFF : BitVec 36).toNat ringBase (ringBase + 32 * ringLen - 1) = false
    ∧ queHead 48 strOn < queEntries 48 strOn ∧ queHead 49 strOn < queEntries 49 strOn ∧ queHead 50 strReq < queEntries 50 strReq
    ∧ ((0x328000000 : BitVec 36).toNat < 0x328000000 + itemOffset 34 fwuIdle ∨ 0x328000000 + itemOffset 34 fwuIdle + (itemData 34 fwuIdle).length ≤ (0x328000008 : BitVec 36).toNat)
    ∧ slotBase (otherSlot fwuIdle) + itemOffset 32 fwuIdle + (itemData 32 fwuIdle).length ≤ (0x310000004 : BitVec 36).toNat
    ∧ dataBase up + (up.exe.image.map (·.dataLen)).getD 0 ≤ (0x06000000 : BitVec 36).toNat
    ∧ inRange (0x0A000000 : BitVec 36).toNat (if up.exe.area then 0x02000000 else 0x06000000) (if up.exe.area then 0x05FFFFFF else 0x09FFFFFF) = false := by
  decide +kernel

def coreOut : State := setFld Fld.TRIAD_STATE_RETIRED 4 up
theorem wit_UnretireAnswers : hostOk Reg.TRIAD_CMD .write coreOut = true ∧ (fld Fld.TRIAD_STATE_RETIRED coreOut).testBit (1 : Fin 4).val = false
    ∧ (fld Fld.TRIAD_STATE_RETIRED coreOut).testBit (2 : Fin 4).val = true := by decide +kernel

/-! ### Well-formed commands, and what each check refuses -/

theorem wf_register : (Instr.registerWrite 0x20000 0xF 1 0).wf = true ∧ (Instr.registerWrite 0x20002 0xF 1 0).wf = false
    ∧ (Instr.registerWrite 0x1000000 0xF 1 0).wf = false := by decide
theorem wf_word : (Instr.lowWordRead 0x02100000).wf = true ∧ (Instr.lowWordRead 0x02180000).wf = false ∧ (Instr.lowWordRead 0x20001).wf = false := by decide
theorem wf_counter : (Instr.counterRead 0x20014 0).wf = true ∧ (Instr.counterRead 0x20015 0).wf = false := by decide
theorem wf_span : (Instr.hostMemoryAccess true 0x1FFFFFFFF 1 false [] none).wf = true ∧ (Instr.hostMemoryAccess true 0x1FFFFFFFF 2 false [] none).wf = false
    ∧ (Instr.hostMemoryAccess false 0x20000 4 false [] none).wf = false ∧ (Instr.hostMemoryAccess true 0 0 false [] none).wf = false := by decide
theorem wf_data : (Instr.hostMemoryAccess true 0 2 true [1, 2] none).wf = true ∧ (Instr.hostMemoryAccess true 0 2 true [1] none).wf = false
    ∧ (Instr.hostMemoryAccess true 0 2 false [1, 2] none).wf = false := by decide
theorem wf_debug : (Instr.debugAccess true 0xFFFFFFFFF 1 [7]).wf = true ∧ (Instr.debugAccess true 0xFFFFFFFFF 2 [7, 8]).wf = false
    ∧ (Instr.debugAccess false 0 1 [7]).wf = false := by decide

/-! ### Worked examples of the manual -/

/-- No word spells a command (log entry 2). -/
theorem test_no_bits : decodeTableWord 32 0 = none ∧ (up.withFetchWord 32 0) = up := ⟨rfl, rfl⟩

/-- The statuses of the examples after Table ARCH-11. -/
theorem test_region_status : Code.REGION_FALLBACK 2 = 0x2201 ∧ Code.TIDE_LOST = 0x0412 := by decide

/-- The worked example of R10: the pair of the backup count reads as the value at the first read. -/
def counting : State := { up with backup := { up.backup with count := 0x00000001FFFFFFFF } }
theorem test_capture : (match exec (.lowWordRead (BitVec.ofNat 26 Reg.CLK_COUNT_LO)) counting with
    | .next t => t.hostData == 0xFFFFFFFF && (match exec (.lowWordRead (BitVec.ofNat 26 (Reg.CLK_COUNT_LO + 4)))
        { t with backup := { t.backup with count := 0x0000000200000000 } } with
      | .next u => u.hostData == 1
      | _ => false)
    | _ => false) = true := by decide +kernel

/-- The safety frame of the worked example before Table FRAME-8. -/
theorem test_safety_frame : safetyFrame { connId := 0x0107, key := 0xA5A50107, texp := 20 } 3 0 41 3
    = [0x07, 0x01, 0x03, 0x04, 0x29, 0x00, 0x14, 0x00, 0x03, 0x00, 0x00, 0x00, 0x85, 0x96, 0x48, 0x51] := by decide +kernel

/-- The denial datum of the worked example of R613. -/
theorem test_deny_datum : denyDatum 5 0x0C000040 .write 3 3 { up with mpu := { up.mpu with colours := [(0x300001, 0x300001, 5)] } }
    = 0x535680000C000040 := by decide +kernel

/-- The calendar example of R592: 2100-02-29 is no date, 2000-02-29 is one, and 2100-03-01 is a Monday, 3,160,857,600 s on. -/
theorem test_calendar : (Cal.unpack 0x0834021D00000000).valid = false ∧ (Cal.unpack 0x07D0021D00000000).valid = true
    ∧ (Cal.unpack 0x0834030100000000).seconds = 3160857600 ∧ Cal.pack 3160857600 = 0x0834030100000000 := by decide +kernel

/-- CSET.F32.GE of Table KQ-21: a level of 2.75 is not below the constant 2.75, and a NaN level is false and sets NV. -/
theorem test_cset_ge : (match exec (.cset .f32 .ge 5 1 3) (kqWith 0x40300000 0x40300000 0 0 {}) with
    | .next t => kReg 0 t 5 == 1 | _ => false) = true
    ∧ (match exec (.cset .f32 .ge 5 1 3) (kqWith 0x7FC00000 0x40300000 0 0 {}) with
    | .next t => kReg 0 t 5 == 0 && (task 0 t).flags.nv | _ => false) = true := by decide +kernel

end Sys2Proof.Tests
end

section
/-! PROOFS. Accesses of the host (O3, O4): the path of an access that is answered and allowed, the writes of registers by
access code and their clamped fields, the reads with a side effect, and the host region of DRAM behind BAR2. -/
namespace Sys2Proof.Machine

/-! ### The path of an access that is answered and allowed -/

theorem hostOk_iff {a : Nat} {k : Acc} {s : State} :
    hostOk a k s = true ↔ hostAnswers a s = true ∧ hostCause a k s = none := by
  simp [hostOk]

/-- A module that answers is neither in OFF nor in reset. -/
theorem hostAnswers_powered {a : Nat} {s : State} (h : hostAnswers a s = true) :
    power s ≠ 0 ∧ s.sup.inReset = false := by
  simp only [hostAnswers, Bool.and_eq_true, bne_iff_ne, ne_eq, Bool.not_eq_true'] at h
  exact h.1

theorem hostCmd_of_ok {a : Nat} {s : State} (f : State → State) (h : hostOk a .write s = true) : hostCmd a f s = f s := by
  obtain ⟨hans, hcause⟩ := hostOk_iff.1 h
  simp [hostCmd, hostAcc, hans, hcause]

theorem hostRead_of_ok {a : Nat} {s : State} (f : State → State) (h : hostOk a .read s = true) : hostRead a f s = f s := by
  obtain ⟨hans, hcause⟩ := hostOk_iff.1 h
  obtain ⟨hpow, hreset⟩ := hostAnswers_powered hans
  simp [hostRead, hpow, hreset, hans, hcause]

/-- An aligned word of the register area outside the SAF block, which is read-only to the host (R9, R53). -/
def wordPlace (a : Nat) : Bool := a % 4 == 0 && decide (a < 0x01000000) && !inRange a 0x080000 0x08FFFF

/-- A full write of such a word that is answered and allowed acts by `writeReg`. -/
theorem exec_registerWrite {a : Nat} (hplace : wordPlace a = true) (v hw : Word) {s : State}
    (hok : hostOk a .write s = true) :
    exec (.registerWrite (BitVec.ofNat 26 a) 0xF v hw) s = .next (writeReg a v hw s) := by
  simp only [wordPlace, Bool.and_eq_true, beq_iff_eq, decide_eq_true_eq, Bool.not_eq_true'] at hplace
  obtain ⟨⟨halign, hbound⟩, hsaf⟩ := hplace
  have haddr : (BitVec.ofNat 26 a).toNat = a := by
    rw [BitVec.toNat_ofNat]
    omega
  have hinside : ¬ 0x01000000 ≤ a := by omega
  show execRegisterWrite _ 0xF v hw s = _
  simp [execRegisterWrite, haddr, halign, hinside, hsaf, hostCmd_of_ok _ hok]

/-- A write with byte enables changes nothing (R9). -/
theorem exec_registerWrite_bytes {be : BitVec 4} (h : be ≠ 0xF) (a : BitVec 26) (v hw : Word) (s : State) :
    exec (.registerWrite a be v hw) s = .next s := by
  have hbytes : (be != 0xF) = true := bne_iff_ne.2 h
  show execRegisterWrite a be v hw s = _
  simp only [execRegisterWrite, hbytes, Bool.true_or, if_true]

/-- The rise of an interrupt level changes no register. -/
@[simp] theorem rd_withIrq (x v : Nat) (f : State → State) (s : State) : rd x (withIrq v f s) = rd x (f s) := by
  unfold withIrq
  dsimp only
  split
  · exact rd_sendOut _ _ _
  · rfl

/-! ### Writes by access code -/

/-- No register has a bit that is cleared by a written 1 and also takes the written value. -/
theorem w1c_disjoint_of_regRow {a : Nat} {r : RegRow} (h : regRow a = some r) : r.w1c &&& (r.rw ||| r.rwl) = 0 := by
  have hall : ∀ n < 20, ((blockRows (n * 0x10000)).all fun r => r.w1c &&& (r.rw ||| r.rwl) == 0) = true := by
    decide +kernel
  have hmem : r ∈ blockRows a := List.mem_of_find?_eq_some h
  by_cases hn : a / 0x10000 < 20
  · have hblock : blockRows (a / 0x10000 * 0x10000) = blockRows a := by simp [blockRows]
    have := hall _ hn
    rw [hblock, List.all_eq_true] at this
    simpa using this r hmem
  · obtain ⟨b, hb⟩ : ∃ b, a / 0x10000 = b + 20 := ⟨a / 0x10000 - 20, by omega⟩
    simp [blockRows, hb] at hmem

/-- Registers whose bits lie elsewhere in the state. -/
def elsewhereRegs : List Nat :=
  [Reg.SUP_PWR_CMD, Reg.STR_EVENT, Reg.CLK_TRIM, Reg.MPU_STG_W0, Reg.MPU_STG_W1, Reg.MPU_STG_W2, Reg.MPU_STG_MCFG]

/-- The trace buffers and the DIO banks are not among them. -/
theorem not_mem_elsewhereRegs {a : Nat} (h : 0x040200 ≤ a ∧ a ≤ 0x05007F) : a ∉ elsewhereRegs := by
  have hall : ∀ x ∈ elsewhereRegs, x < 0x040200 ∨ 0x05007F < x := by decide
  intro hmem
  have := hall a hmem
  omega

/-- A register that `writeReg` writes by its access codes and in no other way. -/
def codeReg (a : Nat) : Bool :=
  !ownRow a && !inRange a 0x080000 0x08FFFF && !inRange a 0x040200 0x0403FF && !inRange a 0x050040 0x05007F
  && !elsewhereRegs.contains a

/-- The bits of a register that take the written value: its RW bits, and its RWL bits while the lock is open (R6). -/
def writeMask (r : RegRow) (a : Nat) (s : State) : Word := r.rw ||| (if lockOpen a s then r.rwl else 0)

theorem writeMask_bit (r : RegRow) (a : Nat) (s : State) (i : Nat) :
    (writeMask r a s).getLsbD i = (r.rw.getLsbD i || (r.rwl.getLsbD i && lockOpen a s)) := by
  cases h : lockOpen a s <;> simp [writeMask, h]

/-- The register with the written value in the bits that take it. -/
def mergedWord (r : RegRow) (a : Nat) (v : Word) (s : State) : Word :=
  (rd a s &&& ~~~ writeMask r a s) ||| (v &&& writeMask r a s)

/-- The word that a write by access code leaves in a register (R3, R4, R7). -/
def codeWord (r : RegRow) (a : Nat) (v hw : Word) (s : State) : Word :=
  clampReg a (mergedWord r a v s) &&& ~~~ (v &&& r.w1c &&& ~~~ hw)

/-- A register that is RW in every bit takes the whole written value. -/
theorem mergedWord_of_rw {r : RegRow} (h : r.rw = 0xFFFFFFFF) (a : Nat) (v : Word) (s : State) :
    mergedWord r a v s = v := by
  have hmask : writeMask r a s = BitVec.allOnes 32 := by
    rw [writeMask, h]
    exact BitVec.allOnes_or
  rw [mergedWord, hmask, BitVec.not_allOnes, BitVec.and_zero, BitVec.zero_or, BitVec.and_allOnes]

/-- Without W1C bits nothing is cleared. -/
theorem codeWord_of_no_w1c {r : RegRow} (h : r.w1c = 0) (a : Nat) (v hw : Word) (s : State) :
    codeWord r a v hw s = clampReg a (mergedWord r a v s) := by
  simp only [codeWord, h, BitVec.ofNat_eq_ofNat, BitVec.and_zero, BitVec.zero_and, BitVec.not_zero, BitVec.and_allOnes]

/-- A bit that takes the written value is not cleared by a written 1. -/
theorem w1c_false_of_writeMask {a : Nat} {r : RegRow} (hrow : regRow a = some r) {s : State} {i : Nat}
    (h : (writeMask r a s).getLsbD i = true) : r.w1c.getLsbD i = false := by
  have hdisj : (r.w1c.getLsbD i && (r.rw.getLsbD i || r.rwl.getLsbD i)) = false := by
    simpa only [BitVec.getLsbD_and, BitVec.getLsbD_or, BitVec.ofNat_eq_ofNat, BitVec.getLsbD_zero] using
      congrArg (BitVec.getLsbD · i) (w1c_disjoint_of_regRow hrow)
  rw [writeMask_bit] at h
  cases hrw : r.rw.getLsbD i <;> simp_all

theorem rd_writeByCode (r : RegRow) (a : Nat) (v hw : Word) (s : State) :
    rd a (writeByCode r a v hw s) = codeWord r a v hw s := by
  simp [writeByCode, codeWord, mergedWord, writeMask, rd_wr]

theorem writeReg_of_codeReg {a : Nat} {r : RegRow} (hcode : codeReg a = true) (hrow : regRow a = some r) (v hw : Word)
    (s : State) : writeReg a v hw s = withIrq (vectorOf a) (writeByCode r a v hw) s := by
  simp only [codeReg, elsewhereRegs, Bool.and_eq_true, Bool.not_eq_true', List.contains_eq_mem, decide_eq_false_iff_not,
    List.mem_cons, List.not_mem_nil, or_false, not_or] at hcode
  obtain ⟨⟨⟨⟨hown, hsaf⟩, htrace⟩, hbank⟩, h1, h2, h3, h4, h5, h6, h7⟩ := hcode
  simp [writeReg, hrow, hown, hsaf, htrace, hbank, h1, h2, h3, h4, h5, h6, h7]

theorem rd_writeReg_of_codeReg {a : Nat} {r : RegRow} (hcode : codeReg a = true) (hrow : regRow a = some r) (v hw : Word)
    (s : State) : rd a (writeReg a v hw s) = codeWord r a v hw s := by
  rw [writeReg_of_codeReg hcode hrow, rd_withIrq, rd_writeByCode]

/-- The addresses of a plain register: written by access code, and none of those whose fields are clamped. -/
theorem plainReg_spec {a : Nat} (h : plainReg a = true) :
    a < 0x01000000 ∧ inRange a 0x080000 0x08FFFF = false ∧ codeReg a = true ∧ ∀ w, clampReg a w = w := by
  simp only [plainReg, Bool.and_eq_true, Bool.not_eq_true', decide_eq_true_eq, List.contains_eq_mem,
    decide_eq_false_iff_not, List.mem_cons, List.not_mem_nil, or_false, not_or] at h
  obtain ⟨⟨⟨⟨⟨⟨-, hbound⟩, hown⟩, hsaf⟩, htrace⟩, hbank⟩, h1, h2, h3, h4, h5, h6, h7, h8, h9, h10, h11, h12, h13⟩ := h
  refine ⟨hbound, hsaf, ?_, fun w => ?_⟩
  · simp [codeReg, elsewhereRegs, *]
  · simp [clampReg, h8, h9, h10, h11, h12, h13]

/-- Bit by bit, what a write by access code leaves in a register without a clamped field. -/
theorem codeWord_bit {a : Nat} {r : RegRow} (hrow : regRow a = some r) (hclamp : ∀ w, clampReg a w = w) (v hw : Word)
    (s : State) {i : Nat} (hi : i < 32) :
    (codeWord r a v hw s).getLsbD i =
      if r.rw.getLsbD i || (r.rwl.getLsbD i && lockOpen a s) then v.getLsbD i
      else if r.w1c.getLsbD i then (rd a s).getLsbD i && !(v.getLsbD i && !hw.getLsbD i)
      else (rd a s).getLsbD i := by
  rw [← writeMask_bit r a s]
  have hword : (codeWord r a v hw s).getLsbD i =
      (((rd a s).getLsbD i && !(writeMask r a s).getLsbD i || v.getLsbD i && (writeMask r a s).getLsbD i)
        && !(v.getLsbD i && r.w1c.getLsbD i && !hw.getLsbD i)) := by
    simp only [codeWord, mergedWord, hclamp, BitVec.getLsbD_and, BitVec.getLsbD_or, BitVec.getLsbD_not, hi, decide_true,
      Bool.true_and]
  rw [hword]
  cases hmask : (writeMask r a s).getLsbD i with
  | true => simp [w1c_false_of_writeMask hrow hmask]
  | false => cases r.w1c.getLsbD i <;> simp

/-! ### Clamped fields -/

/-- A clamped field lies inside its range. -/
theorem fieldOf_clampFld (f : RegField) (lo hi : Nat) (w : Word) (hwidth : f.lo + f.width ≤ 32)
    (hlo : lo < 2 ^ f.width) (hhi : hi < 2 ^ f.width) :
    fieldOf (clampFld f lo hi w) f = max lo (min hi (fieldOf w f)) := by
  rw [clampFld, fieldOf_withField _ _ _ hwidth, Nat.mod_eq_of_lt (by omega)]

theorem inRange_clamp {lo hi n : Nat} (h : lo ≤ hi) : inRange (max lo (min hi n)) lo hi = true := by
  simp only [inRange, Bool.and_eq_true, decide_eq_true_eq]
  omega

theorem inRange_fieldOf_clampFld (f : RegField) {lo hi : Nat} (w : Word) (hwidth : f.lo + f.width ≤ 32) (hle : lo ≤ hi)
    (hhi : hi < 2 ^ f.width) : inRange (fieldOf (clampFld f lo hi w) f) lo hi = true := by
  rw [fieldOf_clampFld f lo hi w hwidth (by omega) hhi]
  exact inRange_clamp hle

/-- Another field of a word with a clamped field. -/
theorem fieldOf_clampFld_disj (f g : RegField) (lo hi : Nat) (w : Word)
    (h : g.lo + g.width ≤ f.lo ∨ f.lo + f.width ≤ g.lo) : fieldOf (clampFld f lo hi w) g = fieldOf w g :=
  fieldOf_withField_disj _ _ _ _ h

/-- A register written by its access codes that has no W1C bit, at a place that a word write reaches. -/
def clampedReg (a : Nat) : Bool :=
  codeReg a && (regRow a).any (fun r => r.w1c == 0) && wordPlace a

/-- Such a register holds a clamped word after a write, whatever was written. -/
theorem completes_write_clamped {a : Nat} (hreg : clampedReg a = true)
    (v hw : Word) {s : State} (hok : hostOk a .write s = true) {P : State → Prop}
    (hP : ∀ t r, regRow a = some r → rd a t = clampReg a (mergedWord r a v s) → P t) :
    Completes (.registerWrite (BitVec.ofNat 26 a) 0xF v hw) s P := by
  simp only [clampedReg, Bool.and_eq_true, Option.any_eq_true, beq_iff_eq] at hreg
  obtain ⟨⟨hcode, r, hrow, hw1c⟩, hplace⟩ := hreg
  refine ⟨_, exec_registerWrite hplace v hw hok, hP _ r hrow ?_⟩
  rw [rd_writeReg_of_codeReg hcode hrow, codeWord_of_no_w1c hw1c]

theorem clampReg_pairCfg (w : Word) : clampReg Reg.PAIR_CFG w = clampFld Fld.PAIR_CFG_HB_PERIOD 100 500
    (clampFld Fld.PAIR_CFG_LAG_PCT 5 50 (clampFld Fld.PAIR_CFG_RECLAIM_DWELL 1 3600 w)) := rfl
theorem clampReg_ptpJump (w : Word) : clampReg Reg.PTP_JUMP w = toW (max 1000 (min 1000000000 w.toNat)) := rfl
/-- A register with one clamped field holds it inside its range after a write. -/
theorem completes_write_clampFld (f : RegField) {lo hi : Nat} (hreg : clampedReg f.addr = true)
    (hclamp : ∀ w, clampReg f.addr w = clampFld f lo hi w) (hwidth : f.lo + f.width ≤ 32) (hle : lo ≤ hi)
    (hhi : hi < 2 ^ f.width) (v hw : Word) {s : State} (hok : hostOk f.addr .write s = true) :
    Completes (.registerWrite (BitVec.ofNat 26 f.addr) 0xF v hw) s (fun t => inRange (fld f t) lo hi = true) := by
  refine completes_write_clamped hreg v hw hok fun t r _ ht => ?_
  rw [fld, ht, hclamp]
  exact inRange_fieldOf_clampFld _ _ hwidth hle hhi

/-- Every bit of PTP_JUMP takes the written value. -/
theorem rw_ptpJump {r : RegRow} (hrow : regRow Reg.PTP_JUMP = some r) : r.rw = 0xFFFFFFFF := by
  have hall : (regRow Reg.PTP_JUMP).all (fun r => r.rw == 0xFFFFFFFF) = true := by decide +kernel
  simpa [hrow] using hall

/-! ### Registers with a rule of their own -/

/-- A trace buffer that runs keeps its registers. -/
theorem writeReg_running_trace {a : Nat} (ha : inRange a 0x040200 0x0403FF = true) (v hw : Word) {s : State}
    (hrun : flag (Fld.TRBb_STATUS_RUN ((a - 0x040200) / 16)) s = true) : writeReg a v hw s = s := by
  have hbounds : 0x040200 ≤ a ∧ a ≤ 0x0403FF := by simpa [inRange] using ha
  have hother := not_mem_elsewhereRegs (a := a) (by omega)
  simp only [elsewhereRegs, List.mem_cons, List.not_mem_nil, or_false, not_or] at hother
  obtain ⟨h1, h2, h3, h4, h5, h6, h7⟩ := hother
  unfold writeReg
  split
  · rfl
  · simp [h1, h2, h3, h4, h5, h6, h7, ha, hrun, onlyIf]

@[simp] theorem rd_onDioBank (x k : Nat) (f : DioBank → DioBank) (s : State) : rd x (onDioBank k f s) = rd x s := rfl

theorem wordPlace_traceCfg (b : Fin 32) : wordPlace (Reg.TRBb_CFG b) = true := by revert b; decide +kernel
theorem wordPlace_bankCfg (k : Fin 4) : wordPlace (Reg.DIO_BANKk_CFG k) = true := by revert k; decide +kernel
theorem ownRow_bankCfg (k : Fin 4) : ownRow (Reg.DIO_BANKk_CFG k) = false := by revert k; decide +kernel
theorem clampReg_bankCfg (k : Fin 4) (w : Word) : clampReg (Reg.DIO_BANKk_CFG k) w = w :=
  match k with
  | 0 | 1 | 2 | 3 => rfl

/-- The configuration of a DIO bank has no bit that a written 1 clears. -/
theorem regRow_bankCfg (k : Fin 4) : ∃ r, regRow (Reg.DIO_BANKk_CFG k) = some r ∧ r.w1c = 0 := by
  have hall : ∀ k : Fin 4, (regRow (Reg.DIO_BANKk_CFG k)).any (fun r => r.w1c == 0) = true := by decide +kernel
  simpa [Option.any_eq_true] using hall k

/-- A write of a DIO bank's configuration is one by access code with EN as it is. -/
theorem rd_writeReg_bank (k : Fin 4) {r : RegRow} (hrow : regRow (Reg.DIO_BANKk_CFG k) = some r) (v hw : Word) (s : State) :
    rd (Reg.DIO_BANKk_CFG k) (writeReg (Reg.DIO_BANKk_CFG k) v hw s) = codeWord r (Reg.DIO_BANKk_CFG k)
      (withField v (Fld.DIO_BANKk_CFG_EN k) (fld (Fld.DIO_BANKk_CFG_EN k) s)) hw s := by
  have hown := ownRow_bankCfg k
  generalize ha : Reg.DIO_BANKk_CFG k = a at *
  have hindex : (a - 0x050040) / 16 = k := by simp only [Reg.DIO_BANKk_CFG] at ha; omega
  have hbounds : 0x050040 ≤ a ∧ a ≤ 0x05007F := by simp only [Reg.DIO_BANKk_CFG] at ha; omega
  have hplaces : inRange a 0x050040 0x05007F = true ∧ inRange a 0x080000 0x08FFFF = false
      ∧ inRange a 0x040200 0x0403FF = false := by
    simp only [inRange, Bool.and_eq_true, Bool.and_eq_false_iff, decide_eq_true_eq, decide_eq_false_iff_not]
    omega
  have hother := not_mem_elsewhereRegs (a := a) (by omega)
  simp only [elsewhereRegs, List.mem_cons, List.not_mem_nil, or_false, not_or] at hother
  obtain ⟨h1, h2, h3, h4, h5, h6, h7⟩ := hother
  simp [writeReg, hrow, hown, hplaces, h1, h2, h3, h4, h5, h6, h7, hindex, rd_writeByCode]

/-- A write that gives a field its present value leaves it so, where nothing is cleared or clamped. -/
theorem fieldOf_codeWord_kept {r : RegRow} (f : RegField) (hrow : regRow f.addr = some r)
    (hclamp : ∀ w, clampReg f.addr w = w) (hw1c : r.w1c = 0) (hwidth : f.lo + f.width ≤ 32) (v hw : Word) (s : State) :
    fieldOf (codeWord r f.addr (withField v f (fld f s)) hw s) f = fld f s := by
  apply Nat.eq_of_testBit_eq
  intro i
  by_cases hi : i < f.width
  · have hplace : i + f.lo < 32 := by omega
    have hpresent : (fld f s).testBit i = (rd f.addr s).getLsbD (i + f.lo) := by simp [fld, fieldOf_testBit, hi]
    have hwritten : (withField v f (fld f s)).getLsbD (i + f.lo) = (rd f.addr s).getLsbD (i + f.lo) := by
      rw [withField_bit, Nat.add_sub_cancel, hpresent]
      simp [hplace, hi]
    rw [fieldOf_testBit, codeWord_bit hrow hclamp _ _ _ hplace, hwritten, hpresent, hw1c]
    simp [hi]
  · simp [fld, fieldOf_testBit, hi]

/-! ### Reads with a side effect -/

@[simp] theorem hostData_clearRc (a : Nat) (e : Word) (s : State) : (clearRc a e s).hostData = s.hostData :=
  ((clearRc_does (A := [.blocks, .strand, .out]) a e s (by simp [Part.listed]) (Does.refl _ _) rfl).only .host rfl).1

@[simp] theorem captured_clearRc (a : Nat) (e : Word) (s : State) : (clearRc a e s).captured = s.captured :=
  ((clearRc_does (A := [.blocks, .strand, .out]) a e s (by simp [Part.listed]) (Does.refl _ _) rfl).only .host rfl).2.2.1

/-- Reading the low word gives it and captures the high word (R10). -/
theorem readReg_low {a : Nat} (h : isLow a = true) (s : State) :
    (readReg a s).1 = s.view a ∧ Sparse.find (readReg a s).2.captured (a + 4) = some (s.view (a + 4)) := by
  simp [readReg, pairRead, h, Sparse.find_insert]

/-- Reading the high word gives what was captured, if anything was (R10). -/
theorem readReg_high {a : Nat} (hlow : isLow a = false) (h4 : 4 ≤ a) (hhigh : isLow (a - 4) = true) (s : State) :
    (readReg a s).1 = (Sparse.find s.captured a).getD (s.view a) := by
  simp [readReg, pairRead, hlow, h4, hhigh]

/-- A read of either word of a 64-bit value that is answered and allowed is a register read. -/
theorem exec_lowWordRead {a : BitVec 26} (h : isLow a.toNat = true ∨ (4 ≤ a.toNat ∧ isLow (a.toNat - 4) = true))
    {s : State} (hok : hostOk a.toNat .read s = true) :
    exec (.lowWordRead a) s = .next { (readReg a.toNat s).2 with hostData := (readReg a.toNat s).1 } := by
  have hpair : (isLow a.toNat || (decide (4 ≤ a.toNat) && isLow (a.toNat - 4))) = true := by simpa using h
  show execLowWordRead a s = _
  simp only [execLowWordRead, hpair, if_true, hostRead_of_ok _ hok]

/-- A clearing read keeps, of its RC bits, those of the events of the same clock (R5). -/
theorem rd_clearRc {a : Nat} {r : RegRow} (hrow : regRow a = some r) (ha : a ≠ Reg.STR_COUNTS) (e : Word) (s : State) :
    rd a (clearRc a e s) = (rd a s &&& ~~~ r.rc) ||| (e &&& r.rc) := by
  simp [clearRc, ha, hrow, rd_wr]

theorem exec_counterRead {a : BitVec 26} (h : isCounter a.toNat = true) (e : Word) {s : State}
    (hok : hostOk a.toNat .read s = true) :
    exec (.counterRead a e) s = .next (clearRc a.toNat e { s with hostData := s.view a.toNat }) := by
  show execCounterRead a e s = _
  simp only [execCounterRead, h, if_true, hostRead_of_ok _ hok]

/-! ### Runs of bytes -/

theorem mget_mset (x a : Nat) (b : Byte) (s : State) : mget x (mset a b s) = if x = a then b else mget x s :=
  Sparse.get_set _ _ _ _ _

theorem mgetBytes_append (m n : Nat) (s : State) :
    ∀ a, mgetBytes a (m + n) s = mgetBytes a m s ++ mgetBytes (a + m) n s := by
  induction m with
  | zero => simp [mgetBytes]
  | succ m ih =>
    intro a
    rw [Nat.succ_add, mgetBytes, mgetBytes, ih, List.cons_append, Nat.add_assoc, Nat.add_comm 1 m]

theorem msetBytes_append (k l : List Byte) :
    ∀ a s, msetBytes a (k ++ l) s = msetBytes (a + k.length) l (msetBytes a k s) := by
  induction k with
  | nil => simp [msetBytes]
  | cons b k ih =>
    intro a s
    rw [List.cons_append, msetBytes, msetBytes, ih, List.length_cons, Nat.add_assoc, Nat.add_comm 1]

/-- A run of writes gives the bytes of its range and leaves the others. -/
theorem mget_msetBytes (x : Nat) (l : List Byte) : ∀ a s, mget x (msetBytes a l s) =
    if a ≤ x ∧ x < a + l.length then l.getD (x - a) 0 else mget x s := by
  induction l with
  | nil =>
    intro a s
    rw [msetBytes, if_neg (by simp)]
  | cons b l ih =>
    intro a s
    rw [msetBytes, ih, mget_mset, List.length_cons]
    by_cases hfirst : x = a
    · subst hfirst
      rw [if_neg (by omega), if_pos rfl, if_pos (by omega), Nat.sub_self, List.getD_cons_zero]
    · by_cases hin : a + 1 ≤ x ∧ x < a + 1 + l.length
      · obtain ⟨k, rfl⟩ : ∃ k, x = a + 1 + k := ⟨x - (a + 1), by omega⟩
        have hout : a ≤ a + 1 + k ∧ a + 1 + k < a + (l.length + 1) := by omega
        have hk : a + 1 + k - a = k + 1 := by omega
        rw [if_pos hin, if_pos hout, hk, Nat.add_sub_cancel_left, List.getD_cons_succ]
      · have hout : ¬ (a ≤ x ∧ x < a + (l.length + 1)) := by omega
        rw [if_neg hin, if_neg hfirst, if_neg hout]

@[simp] theorem regs_msetBytes (l : List Byte) : ∀ a s, (msetBytes a l s).regs = s.regs := by
  induction l with
  | nil => exact fun _ _ => rfl
  | cons b l ih => exact fun a s => ih _ _

/-- The protection check does not depend on memory. -/
@[simp] theorem partCause_msetBytes (m x : Nat) (k : Acc) (l : List Byte) :
    ∀ a s, partCause m x k (msetBytes a l s) = partCause m x k s := by
  induction l with
  | nil => exact fun _ _ => rfl
  | cons b l ih => exact fun a s => ih _ _

/-! ### The host region of DRAM (Table MEM-1, R603, R606) -/

/-- The addresses from `a` to `a + n` lie in the first 3.5 GiB of the host region, which every variant has. -/
def InDram (a n : Nat) : Prop := 0x20000000 ≤ a ∧ a + n ≤ 0x100000000

theorem behind_dram {a n : Nat} (h : InDram a n) : behind a = .mem a := by
  have hbelow : a < 0x400000000 := by unfold InDram at h; omega
  simp [behind, hbelow]

/-- No address of the host region has a content of its own. -/
theorem dram_plain {a n : Nat} (h : InDram a (n + 1)) : ¬ a ≤ 0x01FFFFFF ∧ inRange a 0x0A000000 0x0AFFFFFF = false
    ∧ inRange a 0x0B000000 0x0BFFFFFF = false ∧ inRange a 0x18000000 0x1BFFFFFF = false
    ∧ inRange a 0x320000000 0x327FFFFFF = false ∧ inRange a 0x200400000 0x2004FFFFF = false ∧ ¬ 0x348000000 ≤ a := by
  simp only [InDram, inRange, Bool.and_eq_false_iff, decide_eq_false_iff_not] at h ⊢
  omega

theorem memByte_dram {a n : Nat} (h : InDram a (n + 1)) (s : State) : memByte a s = mget a s := by
  obtain ⟨hcode, himage, hhidden, hstack, hflash, hdir, htop⟩ := dram_plain h
  simp [memByte, hcode, himage, hhidden, hstack, hflash, hdir, htop]

theorem memPut_dram {a n : Nat} (h : InDram a (n + 1)) (b : Byte) (s : State) : memPut a b s = mset a b s := by
  obtain ⟨hcode, himage, -, -, -, hdir, -⟩ := dram_plain h
  simp [memPut, hcode, himage, hdir]

theorem InDram.tail {a n : Nat} (h : InDram a (n + 1)) : InDram (a + 1) n := by
  unfold InDram at *
  omega

theorem memBytes_dram (n : Nat) (s : State) : ∀ a, InDram a n → memBytes a n s = mgetBytes a n s := by
  induction n with
  | zero => exact fun _ _ => rfl
  | succ n ih =>
    intro a h
    rw [memBytes, mgetBytes, memByte_dram h, ih _ h.tail]

theorem memPuts_dram (l : List Byte) : ∀ a s, InDram a l.length → memPuts a l s = msetBytes a l s := by
  induction l with
  | nil => exact fun _ _ _ => rfl
  | cons b l ih =>
    intro a s h
    rw [memPuts, msetBytes, memPut_dram h, ih _ _ h.tail]

/-- The length of the first part of an access: up to the next boundary of 64 bytes (R612). -/
def firstPart (a n : Nat) : Nat := min n (64 - a % 64)

theorem accParts_succ {n : Nat} (k a : Nat) (h : n ≠ 0) :
    accParts 64 (k + 1) a n = (a, firstPart a n) :: accParts 64 k (a + firstPart a n) (n - firstPart a n) := by
  simp [accParts, h, firstPart]

/-- `k` parts are enough for `n` bytes from `a` on. -/
def PartsCover (k a n : Nat) : Prop := n = 0 ∨ n + a % 64 ≤ 64 * k

/-- The rest of an access after its first part needs one part less. -/
theorem PartsCover.rest {k a n : Nat} (h : PartsCover (k + 1) a n) :
    PartsCover k (a + firstPart a n) (n - firstPart a n) := by
  unfold PartsCover firstPart at *
  omega

theorem firstPart_le (a n : Nat) : firstPart a n ≤ n := Nat.min_le_left _ _

theorem InDram.split {a n m : Nat} (h : InDram a n) (hm : m ≤ n) : InDram a m ∧ InDram (a + m) (n - m) := by
  unfold InDram at *
  omega

theorem partRead_dram {a n : Nat} (h : InDram a n) (m : Nat) (s : State) :
    partRead m a n s = ((mgetBytes a n s, none), s) := by
  simp [partRead, behind_dram h, memBytes_dram n s a h]

theorem partWrite_dram {a : Nat} {l : List Byte} (h : InDram a l.length) (m : Nat) (s : State) :
    partWrite m a l s = (none, msetBytes a l s) := by
  simp [partWrite, behind_dram h, memPuts_dram l a s h]

/-- An allowed read of the host region gives the bytes of its range, part by part. -/
theorem partsRead_dram (m k : Nat) (s : State) : ∀ a n, PartsCover k a n → InDram a n →
    (accParts 64 k a n).all (fun p => (partCause m p.1 .read s).isNone) = true →
    partsRead m (accParts 64 k a n) s = ((mgetBytes a n s, none), s) := by
  induction k with
  | zero =>
    intro a n hcover _ _
    obtain rfl : n = 0 := by unfold PartsCover at hcover; omega
    rfl
  | succ k ih =>
    intro a n hcover hdram hallowed
    by_cases hn : n = 0
    · subst hn
      rfl
    · rw [accParts_succ k a hn, List.all_cons, Bool.and_eq_true, Option.isNone_iff_eq_none] at hallowed
      obtain ⟨hfirst, hrest⟩ := hallowed
      obtain ⟨hdramFirst, hdramRest⟩ := hdram.split (firstPart_le a n)
      have hsplit : mgetBytes a n s
          = mgetBytes a (firstPart a n) s ++ mgetBytes (a + firstPart a n) (n - firstPart a n) s := by
        rw [← mgetBytes_append, Nat.add_sub_cancel' (firstPart_le a n)]
      simp only [accParts_succ k a hn, partsRead, hfirst, partRead_dram hdramFirst, ih _ _ hcover.rest hdramRest hrest,
        hsplit, Option.or_none]

/-- An allowed write of the host region stores its bytes, part by part. -/
theorem partsWrite_dram (m k : Nat) : ∀ a (l : List Byte) (s : State), PartsCover k a l.length → InDram a l.length →
    (accParts 64 k a l.length).all (fun p => (partCause m p.1 .write s).isNone) = true →
    partsWrite m (accParts 64 k a l.length) l s = (none, msetBytes a l s) := by
  induction k with
  | zero =>
    intro a l s hcover _ _
    obtain rfl : l = [] := List.eq_nil_of_length_eq_zero (by unfold PartsCover at hcover; omega)
    rfl
  | succ k ih =>
    intro a l s hcover hdram hallowed
    by_cases hn : l.length = 0
    · obtain rfl := List.eq_nil_of_length_eq_zero hn
      rfl
    · rw [accParts_succ k a hn, List.all_cons, Bool.and_eq_true, Option.isNone_iff_eq_none] at hallowed
      obtain ⟨hfirst, hrest⟩ := hallowed
      obtain ⟨hdramFirst, hdramRest⟩ := hdram.split (firstPart_le a l.length)
      rw [accParts_succ k a hn]
      generalize hm : firstPart a l.length = n at *
      have hlenFirst : (l.take n).length = n := List.length_take_of_le (hm ▸ firstPart_le a l.length)
      have hlenRest : (l.drop n).length = l.length - n := List.length_drop
      have hsplit : msetBytes a l s = msetBytes (a + n) (l.drop n) (msetBytes a (l.take n) s) := by
        have happend := msetBytes_append (l.take n) (l.drop n) a s
        rwa [List.take_append_drop, hlenFirst] at happend
      have hcoverRest : PartsCover k (a + n) (l.drop n).length := by rw [hlenRest, ← hm]; exact hcover.rest
      have hmore := ih (a + n) (l.drop n) (msetBytes a (l.take n) s) hcoverRest (by rwa [hlenRest])
        (by simpa only [hlenRest, partCause_msetBytes] using hrest)
      rw [hlenRest] at hmore
      simp only [partsWrite, hfirst, partWrite_dram (by rwa [hlenFirst]), hmore, hsplit, Option.or_none]

/-- Five parts of 64 bytes are enough for the longest access. -/
theorem partsCover_five (a : Nat) (len : Fin 257) : PartsCover 5 a len := by
  unfold PartsCover
  omega

/-- An access through BAR2 to the host region of a module that answers. -/
theorem exec_hostMemoryAccess_dram {off : BitVec 33} {len : Fin 257} (hdram : InDram off.toNat len) {s : State}
    (hpower : power s ≠ 0) (hreset : s.sup.inReset = false) (hans : hostAnswers 0x130000 s = true) (write : Bool)
    (data : List Byte) : exec (.hostMemoryAccess true off len write data none) s
      = .next (hostMem off.toNat len write data none s) := by
  have hinside : ¬ 0x200000000 < off.toNat + len.val := by unfold InDram at hdram; omega
  show execHostMemoryAccess true off len write data none s = _
  simp [execHostMemoryAccess, hinside, hpower, hreset, hans]

/-- In OFF and in reset no access to memory changes anything (R671). -/
theorem exec_hostMemoryAccess_dead {s : State} (h : power s = 0 ∨ s.sup.inReset = true) (bar2 : Bool) (off : BitVec 33)
    (len : Fin 257) (write : Bool) (data : List Byte) (uncorr : Option (Fin 256)) :
    exec (.hostMemoryAccess bar2 off len write data uncorr) s = .next s := by
  have hdead : (decide (power s = 0) || s.sup.inReset) = true := by simpa using h
  show execHostMemoryAccess bar2 off len write data uncorr s = _
  simp only [execHostMemoryAccess, hdead, if_true, ite_self]

theorem hostMem_read_dram {a : Nat} {len : Fin 257} (hdram : InDram a len) {s : State}
    (hallowed : (accParts 64 5 a len).all (fun p => (partCause 8 p.1 .read s).isNone) = true) (data : List Byte) :
    hostMem a len false data none s = { s with hostBytes := mgetBytes a len s, freeCtr := s.freeCtr + 1 } := by
  simp [hostMem, partsRead_dram 8 5 s a len (partsCover_five a len) hdram hallowed, denyFirst, hostEcc]

theorem hostMem_write_dram {a : Nat} {len : Fin 257} (hdram : InDram a len) {s : State} {data : List Byte}
    (hdata : data.length = len) (hallowed : (accParts 64 5 a len).all (fun p => (partCause 8 p.1 .write s).isNone) = true) :
    hostMem a len true data none s = msetBytes a data s := by
  have hbytes : (data ++ List.replicate len 0).take len = data := by rw [← hdata, List.take_left]
  rw [← hdata] at hdram hallowed
  have hparts := partsWrite_dram 8 5 a data s (hdata ▸ partsCover_five a len) hdram hallowed
  rw [hdata] at hparts
  simp only [hostMem, if_true, hbytes, hparts, denyFirst]

/-! ### The obligations -/

/-- Settles O3: an access that is answered and allowed acts by `writeReg`, `readReg` or `clearRc`, or part by part on the
bytes of the host region; any other changes nothing. -/
theorem hostRegisterAndMemoryAccess : Obligations.HostRegisterAndMemoryAccess := by
  refine ⟨fun s a v hw be => ⟨?_, fun hok => ?_, fun hok => ?_, fun hbe => ?_, fun hlow hrow hok => ?_,
      fun hlow h4 hhigh hok => ?_, fun hcounter hne hok => ?_⟩,
    fun s off len data => ⟨?_, ?_, fun hoff w bar2 => ?_⟩⟩
  · intro hplain halign hok
    obtain ⟨hbound, hsaf, hcode, hclamp⟩ := plainReg_spec hplain
    have hexec := exec_registerWrite (by simp [wordPlace, halign, hbound, hsaf]) v hw hok
    rw [BitVec.ofNat_toNat, BitVec.setWidth_eq] at hexec
    refine ⟨_, hexec, fun r hrow i hi => ?_⟩
    rw [rd_writeReg_of_codeReg hcode hrow]
    exact codeWord_bit hrow hclamp v hw s hi
  · exact ⟨_, exec_registerWrite (by decide) v hw hok, rfl⟩
  · exact ⟨_, exec_registerWrite (by decide) v hw hok, rfl⟩
  · exact ⟨s, exec_registerWrite_bytes hbe a v hw s, rfl⟩
  · exact ⟨_, exec_lowWordRead (.inl hlow) hok, readReg_low hlow s⟩
  · exact ⟨_, exec_lowWordRead (.inr ⟨h4, hhigh⟩) hok, readReg_high hlow h4 hhigh s⟩
  · exact ⟨_, exec_counterRead hcounter v hok, hostData_clearRc _ _ _, fun r hrow => rd_clearRc hrow hne v _⟩
  · intro hpower hreset hans hlo hhi hallowed
    refine ⟨_, exec_hostMemoryAccess_dram ⟨hlo, hhi⟩ hpower hreset hans false data, ?_⟩
    rw [hostMem_read_dram ⟨hlo, hhi⟩ hallowed]
    exact ⟨rfl, rfl, rfl⟩
  · intro hpower hreset hans hlo hhi hdata hallowed
    refine ⟨_, exec_hostMemoryAccess_dram ⟨hlo, hhi⟩ hpower hreset hans true data, ?_⟩
    rw [hostMem_write_dram ⟨hlo, hhi⟩ hdata hallowed]
    refine ⟨regs_msetBytes _ _ _, fun x => ?_⟩
    rw [mget_msetBytes, hdata]
  · exact ⟨s, exec_hostMemoryAccess_dead hoff bar2 off len w data none, rfl⟩

/-- Settles O4: a write by access code leaves `clampReg` of the merged word, whose clamped fields lie inside their
bounds; a trace buffer that runs drops the write; a bank's EN is written with its present value. -/
theorem rangedFieldsStayInRange : Obligations.RangedFieldsStayInRange := by
  intro s v hw b k
  refine ⟨fun hok => ?_, fun hok => ?_, fun hok => ?_, fun hok => ?_, fun hok => ?_, fun hok => ?_, fun hrun hok => ?_,
    fun hok => ?_⟩
  · refine completes_write_clamped (by decide +kernel) v hw hok fun t r _ ht => ?_
    simp only [fld, ht, clampReg_pairCfg]
    refine ⟨?_, ?_, inRange_fieldOf_clampFld _ _ (by decide) (by decide) (by decide)⟩
    · rw [fieldOf_clampFld_disj _ _ _ _ _ (by decide), fieldOf_clampFld_disj _ _ _ _ _ (by decide)]
      exact inRange_fieldOf_clampFld _ _ (by decide) (by decide) (by decide)
    · rw [fieldOf_clampFld_disj _ _ _ _ _ (by decide)]
      exact inRange_fieldOf_clampFld _ _ (by decide) (by decide) (by decide)
  · refine completes_write_clamped (by decide +kernel) v hw hok fun t r hrow ht => ?_
    rw [ht, mergedWord_of_rw (rw_ptpJump hrow), clampReg_ptpJump]
  · exact completes_write_clampFld Fld.RING_CFG_LEAD_US (by decide +kernel) (fun _ => rfl) (by decide) (by decide)
      (by decide) v hw hok
  · exact completes_write_clampFld Fld.STR_FREEZE_CFG_FREEZE_MAX (by decide +kernel) (fun _ => rfl) (by decide) (by decide)
      (by decide) v hw hok
  · exact completes_write_clampFld Fld.LCY_DBG_CFG_WINDOW (by decide +kernel) (fun _ => rfl) (by decide) (by decide)
      (by decide) v hw hok
  · exact completes_write_clampFld Fld.FWU_CFG_TRIAL_WIN (by decide +kernel) (fun _ => rfl) (by decide) (by decide)
      (by decide) v hw hok
  · have hb : b.val % 32 = b := Nat.mod_eq_of_lt b.isLt
    refine ⟨_, exec_registerWrite (wordPlace_traceCfg b) v hw hok, writeReg_running_trace ?_ v hw ?_⟩
    · simp only [inRange, Reg.TRBb_CFG, Bool.and_eq_true, decide_eq_true_eq]
      omega
    · have hindex : (Reg.TRBb_CFG b - 0x040200) / 16 = b := by simp only [Reg.TRBb_CFG]; omega
      rwa [hindex]
  · obtain ⟨r, hrow, hw1c⟩ := regRow_bankCfg k
    refine ⟨_, exec_registerWrite (wordPlace_bankCfg k) v hw hok, ?_⟩
    show fieldOf (rd (Reg.DIO_BANKk_CFG k) _) _ = _
    rw [rd_writeReg_bank k hrow]
    exact fieldOf_codeWord_kept (Fld.DIO_BANKk_CFG_EN k) hrow (clampReg_bankCfg k) hw1c (Nat.le_refl _) v hw s

end Sys2Proof.Machine
end

section
/-! PROOFS. The AUTH line (O2): a measurement that makes a standby side active can end with authority released. -/
namespace Sys2Proof.Machine

/-- A measurement of 2.3 mA or more after a claim makes the side active (R73). -/
theorem exec_authMeasure_alone {s : State} (halive : alive s = true) (hdriven : s.sup.authDriven = true)
    (hclaim : s.sup.claimAt.isSome = true) : exec (.authMeasure true) s = .next (becomeActive s) := by
  have hclaimed : s.sup.claimAt.isNone = false := by rw [← Option.not_isSome, hclaim, Bool.not_true]
  show execAuthMeasure true s = _
  simp [execAuthMeasure, halive, hdriven, hclaimed]

/-- An image with one task, which is cyclic on tide 0 and released every quarter turn. -/
def quarterTurnImage : Image :=
  { gen := 1, crc := 0, codeLen := 1, consts := [], changeable := [], tags := []
    tasks := [(0, { kind := 1, prio := 0, tide := 0, hold := 0, either := false, src := 0, index := 0, angle := 0x40000000
                    step := 0x40000000, wdog := 1000, period := 1000, entry := 0, inputs := [], outputs := [] })]
    stations := [], timers := [], counters := [], edges := [], dataLen := 0, data := [] }

/-- Side B, in step, has lost its partner and drives AUTH since 200 ns. Task 0 is still in its program phase as its tide has
passed the angle of the next release. -/
def midCycleTakeover : State :=
  { State.reset with
    cycle := 50000
    tides := [(0, { st := .locked, pos := 0x4000000100000000, omega := 1 })]
    exe := { image := some quarterTurnImage, running := some 0
             tasks := [(0, { phase := .run, angle := some 0x40000000, released := true })] }
    pair := { takeover := some Code.PAIR_PEER_LOST, peerLost := true }
    sup := { inReset := false, sid := 1, seated := true, leverClosed := true, authDriven := true, claimAt := some 49975 } }
  |> setFld Fld.SUP_PWR_STATE_STATE 3 |> setFlag Fld.MOD_STATUS_START_DONE true |> setFld Fld.PAIR_STATE_STATE 4
  |> setFld Fld.TRIAD_STATE_MODE 1 |> setFld Fld.EXE_STATE_STATE 1 |> setFlag Fld.EXE_CTRL_RUN true

theorem midCycleTakeover_measures : alive midCycleTakeover = true ∧ midCycleTakeover.sup.authDriven = true
    ∧ midCycleTakeover.sup.claimAt.isSome = true := by decide +kernel

/-- The release that a takeover makes up for (R495) meets the cycle that still runs: it is an overrun (R201), the Logic region
falls back, and the module level gives AUTH up again (R37). -/
theorem becomeActive_midCycleTakeover :
    flag Fld.EXE_EVENT_OVERRUN (becomeActive midCycleTakeover) = true
    ∧ flag Fld.SUP_PWR_STATE_MODULE_FAULT (becomeActive midCycleTakeover) = true
    ∧ flag Fld.PAIR_STATE_AUTH_HELD (becomeActive midCycleTakeover) = false := by decide +kernel

/-- Refutes O2: a standby side whose task still runs as its tide passes the next release angle overruns in the step that
makes it active, so after a measurement of 2.3 mA or more it does not hold authority. -/
theorem not_feedsSeatLeverAndAuthLine : ¬ Obligations.FeedsSeatLeverAndAuthLine := by
  unfold Obligations.FeedsSeatLeverAndAuthLine
  intro ⟨_, hauth⟩
  obtain ⟨-, hmeasure, -⟩ := hauth midCycleTakeover true
  obtain ⟨halive, hdriven, hclaim⟩ := midCycleTakeover_measures
  obtain ⟨t, hexec, hheld, -⟩ := hmeasure halive hdriven hclaim
  obtain ⟨-, -, hreleased⟩ := becomeActive_midCycleTakeover
  have ht : becomeActive midCycleTakeover = t :=
    Host.Outcome.next.inj ((exec_authMeasure_alone halive hdriven hclaim).symm.trans hexec)
  rw [← ht, hreleased] at hheld
  exact Bool.false_ne_true hheld

end Sys2Proof.Machine
end

section
/-! PROOFS. Resets, recovery and start-up (O45): what a module reset keeps, the registers of the supervisor after a command,
the end of reset, and the start step by step. -/
namespace Sys2Proof.Machine

/-! ### Registers and fields through an operation -/

/-- A field outside the listed blocks keeps its value. -/
theorem fld_of_only {A : List Part} {s t : State} (h : Only A s t) (f : RegField)
    (hA : (Part.block (f.addr / 65536)).listed A = false) : fld f t = fld f s := by
  rw [fld, h _ hA f.addr rfl, fld]

theorem flag_setFlag_same (f : RegField) (b : Bool) (s : State) (hwidth : f.width = 1) (hlo : f.lo < 32) :
    flag f (setFlag f b s) = b := by
  rw [flag, setFlag, fld_setFld_same f _ s (by omega), hwidth]
  cases b <;> rfl

theorem bitAt_setBitAt_false (a : Nat) {i : Nat} (hi : i < 32) (s : State) : bitAt a i (setBitAt a i false s) = false := by
  rw [bitAt, setBitAt, if_neg Bool.false_ne_true, rd_clrReg, if_pos rfl, BitVec.getLsbD_and, BitVec.getLsbD_not, bitMask,
    BitVec.getLsbD_ofNat, Nat.testBit_two_pow_self]
  simp [hi]

@[simp] theorem rd_result (x : Nat) (f : RegField) (st : Status) (s : State) :
    rd x (result f st s) = if x = f.addr then withField (rd f.addr s) f st.toNat else rd x s := by
  unfold result onlyIf
  split <;> simp

/-- SUP_RESULT shows the status of the command. -/
theorem fld_supResult (st : Status) (s : State) :
    fld Fld.SUP_RESULT_STATUS (result Fld.SUP_RESULT_STATUS st s) = st.toNat := by
  rw [fld, rd_result, if_pos rfl, fieldOf_withField _ _ _ (by decide)]
  exact Nat.mod_eq_of_lt st.isLt

theorem result_sup (f : RegField) (st : Status) (s : State) : (result f st s).sup = s.sup := by
  unfold result onlyIf
  split <;> simp

/-! ### A module reset -/

theorem trialFail_only (s : State) : Only [.fwu] s (trialFail s) := (trialFail_does s (Does.refl _ _) rfl).only

/-- A reset ends a trial as a failure: the other slot runs next, and the failure is to be reported (R660). -/
theorem trialFail_of_trial {s : State} (h : s.fwu.trial = true) :
    (trialFail s).fwu.runB = otherSlot s ∧ (trialFail s).fwu.fallbackDue = true := by
  simp only [trialFail, h, Bool.not_true, Bool.false_eq_true, if_false, setSlotValid]
  split <;> exact ⟨rfl, rfl⟩

/-- After the reset itself only the end of a debug session is reported. -/
theorem moduleReset_reports (cause : Nat) (s : State) :
    Only [.block 0x11, .free, .strand, .out] (resetState cause (trialFail s)) (moduleReset cause s) :=
  (onlyIf_does _ _ _ (fun _ hu => say_does _ _ (raiseF_does _ _ _ hu rfl rfl) rfl) (Does.refl _ _)).only

theorem moduleReset_mem (cause : Nat) (s : State) : (moduleReset cause s).mem = s.mem :=
  (moduleReset_reports cause s .mem rfl).trans (trialFail_only s .mem rfl)

theorem moduleReset_backup (cause : Nat) (s : State) : (moduleReset cause s).backup = s.backup :=
  (moduleReset_reports cause s .backup rfl).trans (trialFail_only s .backup rfl)

theorem moduleReset_pending (cause : Nat) (s : State) : (moduleReset cause s).pending = s.pending :=
  (moduleReset_reports cause s .pending rfl).trans (trialFail_only s .pending rfl)

theorem moduleReset_exe (cause : Nat) (s : State) : (moduleReset cause s).exe = {} := moduleReset_reports cause s .exe rfl

theorem moduleReset_tides (cause : Nat) (s : State) : (moduleReset cause s).tides = [] :=
  (moduleReset_reports cause s .tides rfl).1

theorem moduleReset_lcy_st (cause : Nat) (s : State) : (moduleReset cause s).lcy.st = s.lcy.st :=
  (congrArg Lcy.st (moduleReset_reports cause s .lcy rfl)).trans (congrArg (·.st) (trialFail_only s .lcy rfl))

theorem moduleReset_sup (cause : Nat) (s : State) : (moduleReset cause s).sup = (resetState cause s).sup := by
  rw [moduleReset_reports cause s .sup rfl, resetState, trialFail_only s .sup rfl]
  rfl

theorem moduleReset_inReset (cause : Nat) (s : State) : (moduleReset cause s).sup.inReset = true := by
  rw [moduleReset_sup]
  rfl

theorem moduleReset_cause {cause : Nat} (h : cause < 16) (s : State) : (moduleReset cause s).sup.cause.val = cause := by
  rw [moduleReset_sup]
  exact Nat.mod_eq_of_lt h

theorem moduleReset_of_trial (cause : Nat) {s : State} (h : s.fwu.trial = true) :
    (moduleReset cause s).fwu.runB = otherSlot s ∧ (moduleReset cause s).fwu.fallbackDue = true := by
  rw [(moduleReset_reports cause s .fwu rfl).1]
  exact trialFail_of_trial h

/-! ### Reset sources (Table SUP-3) -/

theorem exec_hostRst {s : State} (h : s.sup.supplyLow = false) : exec .hostRst s = .next (moduleReset 2 s) := by
  show execHostRst s = _
  simp [execHostRst, h]

theorem exec_supWatchdog {s : State} (hpowered : powered s = true) (hreset : s.sup.inReset = false) :
    exec .supWatchdog s = .next (moduleReset 5 s) := by
  show execSupWatchdog s = _
  simp [execSupWatchdog, hpowered, hreset]

theorem exec_reseated {s : State} (hunseated : s.sup.unseated = true) (hpowered : powered s = true) : exec .reseated s
    = .next (moduleReset 6 { s with sup := { s.sup with seated := true, unseated := false } }) := by
  show execReseated s = _
  simp [execReseated, hunseated, hpowered]

/-! ### SUP_CMD (R677, R680) -/

theorem exec_supReset_confirmed {s : State} (hok : hostOk Reg.SUP_CMD .write s = true) :
    exec (.supReset 0x5A) s = .next (moduleReset 3 s) :=
  congrArg Host.Outcome.next ((hostCmd_of_ok _ hok).trans (if_pos rfl))

theorem exec_supReset_refused {s : State} (hok : hostOk Reg.SUP_CMD .write s = true) {b : Byte} (hb : b ≠ 0x5A) :
    exec (.supReset b) s = .next (supRefuse Code.SUP_CMD_REFUSED s) :=
  congrArg Host.Outcome.next ((hostCmd_of_ok _ hok).trans (if_neg hb))

/-- A refused command changes no more than the registers of the supervisor. -/
theorem supRefuse_only (st : Status) (s : State) : Only [.block 0x01, .free, .strand, .out] s (supRefuse st s) :=
  (supRefuse_does st s (Does.refl _ _) rfl).only

theorem rd_supRefuse_regions (st : Status) (s : State) : rd Reg.SUP_REGIONS (supRefuse st s) = rd Reg.SUP_REGIONS s := by
  rw [supRefuse, rd_result, if_neg (by decide), rd_raiseF, if_neg (by decide)]

theorem exec_supRecover_tiBank {s : State} (hok : hostOk Reg.SUP_CMD .write s = true)
    (hbank : flag Fld.SUP_REGIONS_TI_BANK s = true) : exec (.supRecover 8 true) s
      = .next (result Fld.SUP_RESULT_STATUS Code.SUP_OK (setFlag Fld.SUP_REGIONS_TI_BANK false s)) := by
  have hbranch : (decide ((8 : Fin 16).val = 8) && flag Fld.SUP_REGIONS_TI_BANK s && true) = true := by
    rw [hbank]
    rfl
  exact congrArg Host.Outcome.next ((hostCmd_of_ok _ hok).trans (if_pos hbranch))

theorem exec_supRecover_region {s : State} (hok : hostOk Reg.SUP_CMD .write s = true) {r : Fin 16}
    (hregion : [1, 2, 3, 5].contains r.val = true) (hfallback : inFallback r.val s = true)
    (hcheck : recoverOk r.val true s = true) : exec (.supRecover r true) s
      = .next (result Fld.SUP_RESULT_STATUS Code.SUP_OK (recoverRegion r.val s)) := by
  have hbank : r.val ≠ 8 := fun h => by simp [h] at hregion
  show execSupRecover r true s = _
  simp only [execSupRecover, hostCmd_of_ok _ hok, hbank, decide_false, Bool.false_and, Bool.false_eq_true, if_false,
    hregion, hfallback, hcheck, Bool.and_self, if_true]

theorem exec_supRecover_refused {s : State} (hok : hostOk Reg.SUP_CMD .write s = true) {r : Fin 16} {pass : Bool}
    (h : pass = false ∨ [1, 2, 3, 5, 8].contains r.val = false ∨ (r.val ≤ 5 ∧ inFallback r.val s = false)) :
    exec (.supRecover r pass) s = .next (supRefuse Code.SUP_RECOVER_REFUSED s) := by
  have hbank : (decide (r.val = 8) && flag Fld.SUP_REGIONS_TI_BANK s && pass) = false := by
    rcases h with h | h | ⟨h, -⟩
    · simp [h]
    · have : r.val ≠ 8 := fun e => by simp [e] at h
      simp [this]
    · have : r.val ≠ 8 := by omega
      simp [this]
  have hregion : ([1, 2, 3, 5].contains r.val && inFallback r.val s && recoverOk r.val pass s) = false := by
    rcases h with h | h | ⟨-, h⟩
    · simp [recoverOk, h]
    · have : [1, 2, 3, 5].contains r.val = false := by
        simp only [List.contains_eq_mem, List.mem_cons, List.not_mem_nil, or_false, decide_eq_false_iff_not, not_or] at h ⊢
        omega
      rw [this, Bool.false_and, Bool.false_and]
    · simp [h]
  show execSupRecover r pass s = _
  simp only [execSupRecover, hostCmd_of_ok _ hok, hbank, hregion, Bool.false_eq_true, if_false]

/-- A recovery ends the fallback of its region. -/
theorem inFallback_recoverRegion {r : Nat} (hr : r < 32) (st : Status) (s : State) :
    inFallback r (result Fld.SUP_RESULT_STATUS st (recoverRegion r s)) = false := by
  unfold inFallback bitAt recoverRegion
  rw [rd_result, if_neg (by decide), rd_sayRegion, rd_raiseF, if_neg (by decide)]
  exact bitAt_setBitAt_false Reg.SUP_REGIONS hr _

/-! ### The end of reset (R66, R67, R588) -/

/-- The module as it leaves reset, before an erasure that was cut short is completed. -/
def latched (s : State) : State :=
  { s with
    mtime := countNs s.backup.count * 2 ^ 32
    strand := { s.strand with untrusted := !s.backup.trusted, loaded := toD (countNs s.backup.count) }
    sup := { s.sup with inReset := false, sid := sidOf s.sup.sidPins, starts := s.sup.starts + 1 } }
  |> pairStart |> newNonce
  |> onlyIf (sidOf s.sup.sidPins == 3) (fun t => t |> raiseF 0x01 Fld.MOD_EVENT_SID |> say Code.MOD_SID_INVALID)

theorem exec_resetRelease {s : State} (hreset : s.sup.inReset = true) (hsupply : s.sup.supplyLow = false)
    (hconv : s.sup.converters = true) : exec .resetRelease s = .next (resetRelease s) := by
  show execResetRelease s = _
  simp [execResetRelease, mayStart, hreset, hsupply, hconv]

/-- Leaving reset writes registers, the time, the Strandline origin and the latched identity, and nothing else. -/
theorem latched_only (s : State) :
    Only [.block 0x00, .block 0x09, .block 0x11, .time, .free, .strand, .sup, .out] s (latched s) :=
  (onlyIf_does _ _ _ (fun _ hu => say_does _ _ (raiseF_does _ _ _ hu rfl rfl) rfl)
    (newNonce_does _ (pairStart_does _ (upd_mtime_strand_sup (Does.refl _ _) rfl) rfl) rfl)).only

theorem latched_sup (s : State) :
    (latched s).sup = { s.sup with inReset := false, sid := sidOf s.sup.sidPins, starts := s.sup.starts + 1 } := by
  unfold latched onlyIf
  split <;> simp [newNonce, withFree, wr64, pairStart]

theorem latched_mtime (s : State) : (latched s).mtime = countNs s.backup.count * 2 ^ 32 := by
  unfold latched onlyIf
  split <;> simp [newNonce, withFree, wr64, pairStart]

/-- The pair state at a start, by the latched identity (R67, R466). -/
theorem pairState_pairStart (s : State) :
    pairState (pairStart s) = match s.sup.sid.toNat with | 3 => 6 | 2 => 5 | _ => 0 := by
  rw [pairState, pairStart, fld_setFld_same _ _ _ (by decide)]
  generalize s.sup.sid = sid
  revert sid
  decide

theorem pairState_latched (s : State) :
    pairState (latched s) = match (sidOf s.sup.sidPins).toNat with | 3 => 6 | 2 => 5 | _ => 0 := by
  have hafter : ∀ u, Only [.block 0x00, .block 0x11, .free, .strand, .out] u
      (newNonce u |> onlyIf (sidOf s.sup.sidPins == 3)
        (fun t => t |> raiseF 0x01 Fld.MOD_EVENT_SID |> say Code.MOD_SID_INVALID)) := fun u =>
    (onlyIf_does _ _ _ (fun _ hu => say_does _ _ (raiseF_does _ _ _ hu rfl rfl) rfl)
      (newNonce_does _ (Does.refl _ _) rfl)).only
  exact (fld_of_only (hafter _) Fld.PAIR_STATE_STATE rfl).trans (pairState_pairStart _)

theorem resetRelease_of_no_marker {s : State} (h : s.lcy.marker = none) : resetRelease s = latched s := by
  have hmarker : (latched s).lcy.marker = none := by rw [latched_only s .lcy rfl, h]
  show (match (latched s).lcy.marker with
    | some t => latched s |> eraseAll |> say Code.LCY_ERASE_RESUMED |> stateBlown t
    | none => latched s) = _
  rw [hmarker]

theorem resetRelease_of_marker {s : State} {target : Fin 6} (h : s.lcy.marker = some target) :
    resetRelease s = (latched s |> eraseAll |> say Code.LCY_ERASE_RESUMED |> stateBlown target) := by
  have hmarker : (latched s).lcy.marker = some target := by rw [latched_only s .lcy rfl, h]
  show (match (latched s).lcy.marker with
    | some t => latched s |> eraseAll |> say Code.LCY_ERASE_RESUMED |> stateBlown t
    | none => latched s) = _
  rw [hmarker]

/-- The state of the target is blown once keys and stores are erased (R639, R643). -/
theorem stateBlown_eraseAll (st : Status) (target : Fin 6) (s : State) :
    (eraseAll s |> say st |> stateBlown target).lcy
      = { s.lcy with st := target, transition := none, key0 := none, key1 := none, marker := none }
    ∧ (eraseAll s |> say st |> stateBlown target).fwu = { s.fwu with cur := none, prev := none, prog := [] } := by
  constructor
  · rw [stateBlown, sayD_lcy, raiseF_lcy, say_lcy]
    rfl
  · rw [stateBlown, sayD_fwu, raiseF_fwu]
    exact say_fwu _ _

/-! ### The start (Table SUP-5) -/

/-- The start from the slot that was selected. -/
def startFrom (b : Bool) (s : State) : State :=
  if b = s.fwu.runB then s else say Code.SUP_BOOT_SLOT (onFwu (fun x => { x with runB := b }) s)

/-- The steps of a start after the selection of the slot. -/
def startUp (queues : List (Fin 64 × Word × Word × Word)) (s : State) : State :=
  { s with sup := { s.sup with dramLost := false } }
    |> fallbackReport |> configLoad |> queueLoad queues |> retentionReport
    |> setFlag Fld.MOD_STATUS_START_DONE true |> sayD Code.SUP_START (toD s.sup.cause.val)

section
variable {s : State} (halive : alive s = true) (hdone : flag Fld.MOD_STATUS_START_DONE s = false)
  (hfw : s.fwu.noFw = false) (hphase : s.strand.phase ≠ .starting)
include halive hdone hfw hphase

theorem exec_supStart_of_slot {runOk otherOk b : Bool} (l : List (Fin 64 × Word × Word × Word))
    (hslot : bootSlot runOk otherOk s = some b) :
    exec (.supStart runOk otherOk l) s = .next (startUp l (startFrom b s)) := by
  show execSupStart runOk otherOk l s = _
  simp [execSupStart, halive, hdone, hfw, hphase, hslot, startUp, startFrom]

theorem exec_supStart_without_slot {runOk otherOk : Bool} (l : List (Fin 64 × Word × Word × Word))
    (hslot : bootSlot runOk otherOk s = none) : exec (.supStart runOk otherOk l) s
      = .next (say Code.SUP_NO_FIRMWARE (onFwu (fun x => { x with noFw := true }) s)) := by
  show execSupStart runOk otherOk l s = _
  simp [execSupStart, halive, hdone, hfw, hphase, hslot]

end

theorem bootSlot_run {s : State} (h : slotValid s.fwu.runB s = true) (otherOk : Bool) :
    bootSlot true otherOk s = some s.fwu.runB := by
  simp [bootSlot, h]

theorem bootSlot_other {s : State} (h : slotValid (otherSlot s) s = true) : bootSlot false true s = some (otherSlot s) := by
  simp [bootSlot, h]

theorem bootSlot_none {s : State} {runOk otherOk : Bool}
    (h : ((slotValid s.fwu.runB s && runOk) || (slotValid (otherSlot s) s && otherOk)) = false) :
    bootSlot runOk otherOk s = none := by
  obtain ⟨hrun, hother⟩ := Bool.or_eq_false_iff.1 h
  simp [bootSlot, hrun, hother]

theorem startFrom_run (s : State) : startFrom s.fwu.runB s = s := if_pos rfl

theorem startFrom_fwu (b : Bool) (s : State) : (startFrom b s).fwu = { s.fwu with runB := b } := by
  unfold startFrom
  split
  · next h => rw [h]
  · simp [onFwu]

theorem fallbackReport_fwu (s : State) : (fallbackReport s).fwu = { s.fwu with fallbackDue := false } := by
  unfold fallbackReport
  split
  · simp [onFwu]
  · next h => rw [← eq_false_of_ne_true h]

theorem fallbackReport_only (s : State) : Only [.block 0x12, .free, .strand, .fwu, .out] s (fallbackReport s) :=
  (fallbackReport_does s (Does.refl _ _) rfl).only

theorem configLoad_only (s : State) :
    Only [.block 0x00, .block 0x03, .block 0x10, .free, .strand, .fwu, .out] s (configLoad s) :=
  (configLoad_does s (Does.refl _ _) rfl).only

theorem queueLoad_only (l : List (Fin 64 × Word × Word × Word)) (s : State) :
    Only [.block 0x13, .free, .strand, .out] s (queueLoad l s) := (queueLoad_does l s (Does.refl _ _) rfl).only

theorem retentionReport_only (s : State) :
    Only [.block 0x01, .block 0x0E, .free, .strand, .backup, .mbx, .out] s (retentionReport s) :=
  (retentionReport_does s (Does.refl _ _) rfl).only

/-- A region that enters its fallback leaves the power state. -/
theorem power_markFallback (r : Nat) (s : State) : power (markFallback r s) = power s := by
  unfold markFallback power
  rw [fld_of_only (forceLocks_does (A := [.free, .strand, .mbx, .out]) _ _ (Does.refl _ _) rfl).only _ rfl, fld_sayRegion,
    fld, rd_raiseF, if_neg (by decide), setBitAt, if_pos rfl, rd_orReg, if_neg (by decide), fld]

theorem power_retentionReport (s : State) : power (retentionReport s) = power s := by
  unfold retentionReport
  split
  · rw [power_markFallback, power, fld_say, fld, rd_raiseF, if_neg (by decide)]
    rfl
  · rfl

/-- A migration changes only the copies of the configuration store. -/
theorem cfgMigrate_fwu (s : State) : ∃ cur prev, (cfgMigrate s).fwu = { s.fwu with cur := cur, prev := prev } := by
  unfold cfgMigrate
  split
  · dsimp only
    split
    · exact ⟨_, _, say_fwu _ _⟩
    · exact ⟨_, _, rfl⟩
  · exact ⟨_, _, rfl⟩

/-- The running firmware uses the current copy of the configuration store as it stands (R661). -/
def usesCurrent (s : State) : Bool := s.fwu.cur.any (fun c => cfgFits c (hdrCfgFormat s.fwu.runB s) s)

theorem usesCurrent_congr {s t : State} (hcur : t.fwu.cur = s.fwu.cur) (hrun : t.fwu.runB = s.fwu.runB)
    (hmem : t.mem = s.mem) (hlcy : t.lcy = s.lcy) : usesCurrent t = usesCurrent s := by
  have hformat : hdrCfgFormat t.fwu.runB t = hdrCfgFormat s.fwu.runB s := by
    simp only [hdrCfgFormat, mgetN, mget, hrun, hmem]
  have hfits : ∀ c f, cfgFits c f t = cfgFits c f s := fun c f => by
    simp only [cfgFits, accepts, keyOf, hlcy]
  simp only [usesCurrent, hcur, hformat, hfits]

/-- A copy that fits the running firmware is used, and is not migrated. -/
theorem exists_cfgUsed_of_usesCurrent {s : State} (h : usesCurrent s = true) :
    cfgMigrate s = s ∧ ∃ c, cfgUsed s = some c := by
  obtain ⟨c, hcur, hfit⟩ := (Option.any_eq_true _ _).1 h
  have hformat : c.format.toNat = hdrCfgFormat s.fwu.runB s := by
    simp only [cfgFits, Bool.and_eq_true, beq_iff_eq] at hfit
    exact hfit.2
  have hnone : (accepts c.signed s && inRange c.format.toNat (hdrCfgFrom s.fwu.runB s) (hdrCfgFormat s.fwu.runB s - 1)
      && decide (0 < hdrCfgFormat s.fwu.runB s)) = false := by
    simp only [hformat, inRange, Bool.and_eq_false_iff, decide_eq_false_iff_not]
    omega
  have hkept : s.fwu.cur.filter (fun c => cfgFits c (hdrCfgFormat s.fwu.runB s) s) = some c :=
    Option.filter_eq_some_iff.2 ⟨hcur, hfit⟩
  refine ⟨?_, c, ?_⟩
  · simp [cfgMigrate, hcur, hnone]
  · simp only [cfgUsed, hkept]

theorem configLoad_fwu (s : State) : (configLoad s).fwu = (cfgMigrate s).fwu := by
  unfold configLoad
  dsimp only
  split
  · rw [((bindLoad_does (A := [.block 0x10, .free, .strand, .out]) _ _ (Does.refl _ _) rfl).only .fwu rfl).1,
      setFlag_fwu, setFlag_fwu]
  · rw [say_fwu, setFlag_fwu]

/-- A copy that fits is in force after the start (R661, R683). -/
theorem configLoad_of_usesCurrent {s : State} (h : usesCurrent s = true) :
    flag Fld.MOD_STATUS_CFG_OK (configLoad s) = true := by
  obtain ⟨hmigrate, c, hused⟩ := exists_cfgUsed_of_usesCurrent h
  have hused' : ∀ b, cfgUsed (setFlag Fld.EXE_CFG_CHANGE_MODE b s) = some c := fun _ => hused
  simp only [configLoad, hmigrate, hused']
  unfold flag
  rw [fld_of_only (bindLoad_does (A := [.block 0x10, .free, .strand, .out]) _ _ (Does.refl _ _) rfl).only _ rfl]
  exact flag_setFlag_same _ _ _ rfl (by decide)

/-! ### What a start leaves -/

theorem startUp_startDone (l : List (Fin 64 × Word × Word × Word)) (s : State) :
    flag Fld.MOD_STATUS_START_DONE (startUp l s) = true := by
  rw [startUp, flag_sayD]
  exact flag_setFlag_same _ _ _ rfl (by decide)

/-- From the configuration on, a start changes no more of the firmware than the copies of the store. -/
theorem startUp_fwu (l : List (Fin 64 × Word × Word × Word)) (s : State) : (startUp l s).fwu
    = (cfgMigrate (fallbackReport { s with sup := { s.sup with dramLost := false } })).fwu := by
  rw [startUp, sayD_fwu, setFlag_fwu, (retentionReport_only _ .fwu rfl).1, (queueLoad_only l _ .fwu rfl).1, configLoad_fwu]

theorem startUp_slot (l : List (Fin 64 × Word × Word × Word)) (s : State) : (startUp l s).fwu.runB = s.fwu.runB
    ∧ (startUp l s).fwu.noFw = s.fwu.noFw ∧ (startUp l s).fwu.fallbackDue = false := by
  obtain ⟨_, _, hmigrate⟩ := cfgMigrate_fwu (fallbackReport { s with sup := { s.sup with dramLost := false } })
  rw [startUp_fwu, hmigrate, fallbackReport_fwu]
  exact ⟨rfl, rfl, rfl⟩

theorem power_startUp (l : List (Fin 64 × Word × Word × Word)) (s : State) : power (startUp l s) = power s := by
  rw [startUp, power, fld_sayD, setFlag, fld_setFld_addr _ _ _ _ (by decide)]
  refine (power_retentionReport _).trans ?_
  rw [power, fld_of_only (queueLoad_only l _) _ rfl, fld_of_only (configLoad_only _) _ rfl,
    fld_of_only (fallbackReport_only _) _ rfl]
  rfl

theorem startUp_of_usesCurrent (l : List (Fin 64 × Word × Word × Word)) {s : State} (h : usesCurrent s = true) :
    flag Fld.MOD_STATUS_CFG_OK (startUp l s) = true ∧ (startUp l s).fwu.cur = s.fwu.cur := by
  have hfwu := fallbackReport_fwu { s with sup := { s.sup with dramLost := false } }
  have huses : usesCurrent (fallbackReport { s with sup := { s.sup with dramLost := false } }) = true :=
    (usesCurrent_congr (by rw [hfwu]) (by rw [hfwu]) (fallbackReport_only _ .mem rfl)
      (fallbackReport_only _ .lcy rfl)).trans h
  constructor
  · rw [startUp, flag_sayD, flag, setFlag, fld_setFld_disj _ _ _ _ (by decide), fld_of_only (retentionReport_only _) _ rfl,
      fld_of_only (queueLoad_only l _) _ rfl]
    exact configLoad_of_usesCurrent huses
  · rw [startUp_fwu, (exists_cfgUsed_of_usesCurrent huses).1, hfwu]

/-! ### The obligation -/

/-- Settles O45: each source of a reset acts by `moduleReset`, the end of reset by `latched` with the erasure that a marker
asks for, and a start by `startUp` from the slot that is selected. -/
theorem resetsAndStart : Obligations.ResetsAndStart := by
  intro s b r pass runOk otherOk l
  refine ⟨fun hok => ?_, fun hok hb => ?_, fun hsupply => ?_, fun hpowered hreset => ?_, fun hunseated hpowered => ?_,
    fun hok hbank => ?_, fun hok hregion hfallback => ?_, fun hok hfallback hosf htrusted hregs => ?_, fun hok hrefused => ?_,
    fun hreset hsupply hconv hmarker => ?_, fun hreset hsupply hconv hmarker => ?_,
    fun halive hdone hfw hphase hslot => ?_, fun halive hdone hfw hphase _ hother => ?_,
    fun halive hdone hfw hphase hnone => ?_, fun halive hdone hfw hphase hslot huses => ?_⟩
  · exact ⟨_, exec_supReset_confirmed hok, moduleReset_inReset _ _, moduleReset_cause (by decide) _, moduleReset_mem _ _,
      moduleReset_backup _ _, moduleReset_lcy_st _ _, congrArg Exe.image (moduleReset_exe _ _), moduleReset_tides _ _,
      moduleReset_pending _ _⟩
  · have honly := supRefuse_only Code.SUP_CMD_REFUSED s
    exact ⟨_, exec_supReset_refused hok hb, honly .sup rfl, honly .mem rfl, honly .exe rfl, fld_supResult _ _⟩
  · exact ⟨_, exec_hostRst hsupply, moduleReset_inReset _ _, moduleReset_cause (by decide) _, moduleReset_mem _ _,
      moduleReset_backup _ _, moduleReset_of_trial _⟩
  · exact ⟨_, exec_supWatchdog hpowered hreset, moduleReset_inReset _ _, moduleReset_cause (by decide) _,
      moduleReset_mem _ _, moduleReset_backup _ _⟩
  · refine ⟨_, exec_reseated hunseated hpowered, moduleReset_inReset _ _, moduleReset_cause (by decide) _, ?_, ?_,
      moduleReset_mem _ _⟩ <;> rw [moduleReset_sup] <;> rfl
  · refine ⟨_, exec_supRecover_tiBank hok hbank, ?_, fld_supResult _ _, result_sup _ _ _⟩
    rw [flag, fld, rd_result, if_neg (by decide)]
    exact flag_setFlag_same Fld.SUP_REGIONS_TI_BANK false s rfl (by decide)
  · have hcheck : recoverOk r.val true s = true := by
      have : r.val ≠ 5 := fun h => by simp [h] at hregion
      simp [recoverOk, this]
    have hlisted : [1, 2, 3, 5].contains r.val = true := by
      simp only [List.contains_eq_mem, List.mem_cons, List.not_mem_nil, or_false, decide_eq_true_eq] at hregion ⊢
      omega
    exact ⟨_, exec_supRecover_region hok hlisted hfallback hcheck, inFallback_recoverRegion (by omega) _ _,
      fld_supResult _ _⟩
  · have hcheck : recoverOk 5 true s = true := by simp [recoverOk, hosf, htrusted, hregs]
    exact ⟨_, exec_supRecover_region (r := 5) hok (by decide) hfallback hcheck, inFallback_recoverRegion (by decide) _ _,
      fld_supResult _ _⟩
  · exact ⟨_, exec_supRecover_refused hok hrefused, rd_supRefuse_regions _ _, supRefuse_only _ _ .sup rfl,
      fld_supResult _ _⟩
  · have hexec := exec_resetRelease hreset hsupply hconv
    rw [resetRelease_of_no_marker hmarker] at hexec
    refine ⟨_, hexec, ?_, ?_, ?_, latched_mtime s, pairState_latched s, latched_only s .mem rfl, latched_only s .lcy rfl⟩ <;>
      rw [latched_sup]
  · obtain ⟨target, hmarker⟩ := Option.isSome_iff_exists.1 hmarker
    refine ⟨_, exec_resetRelease hreset hsupply hconv, ?_⟩
    obtain ⟨hlcy, hfwu⟩ := stateBlown_eraseAll Code.LCY_ERASE_RESUMED target (latched s)
    rw [resetRelease_of_marker hmarker, hlcy, hfwu, hmarker]
    exact ⟨rfl, rfl, rfl, rfl, rfl, rfl⟩
  · refine ⟨_, exec_supStart_of_slot halive hdone hfw hphase l (bootSlot_run hslot otherOk), ?_⟩
    rw [startFrom_run]
    obtain ⟨hrun, hnoFw, hdue⟩ := startUp_slot l s
    exact ⟨startUp_startDone l s, hrun, hnoFw.trans hfw, hdue, power_startUp l s⟩
  · refine ⟨_, exec_supStart_of_slot halive hdone hfw hphase l (bootSlot_other hother), startUp_startDone _ _, ?_⟩
    rw [(startUp_slot l _).1, startFrom_fwu]
  · refine ⟨_, exec_supStart_without_slot halive hdone hfw hphase l (bootSlot_none hnone), ?_, ?_⟩
    · rw [say_fwu]
      rfl
    · rw [flag_say]
      exact hdone
  · refine ⟨_, exec_supStart_of_slot halive hdone hfw hphase l (bootSlot_run hslot otherOk), ?_⟩
    rw [startFrom_run]
    exact startUp_of_usesCurrent l huses

end Sys2Proof.Machine
end

section
/-! PROOFS. Commands of a tide (O5): a tide on a TI input that does not deliver does not stay in ACQUIRE. -/
namespace Sys2Proof.Machine

/-- Setting ENABLE of a tide that is not enabled. -/
theorem exec_tideEnable {s : State} {n : Fin 8} (hok : hostOk Reg.TIDE_CTRL .write s = true)
    (hoff : tideEnabled n s = false) : exec (.tideEnable n) s = .next (tideEnable n s) := by
  show execTideEnable n s = _
  simp only [execTideEnable, hostCmd_of_ok _ hok, hoff, Bool.false_eq_true, if_false]

/-- A module in RUN whose TI bank is in fault, with tide 3 configured for mains and not enabled. -/
def bankFaultMains : State :=
  { State.reset with sup := { inReset := false } }
  |> setFld Fld.SUP_PWR_STATE_STATE 3 |> setFlag Fld.MOD_STATUS_START_DONE true
  |> setFlag Fld.SUP_REGIONS_TI_BANK true |> setFld (Fld.TDn_CFG_SOURCE 3) 1

theorem bankFaultMains_sound : hostOk Reg.TIDE_CTRL .write bankFaultMains = true
    ∧ tideEnabled (3 : Fin 8) bankFaultMains = false ∧ tideConflict (3 : Fin 8) bankFaultMains = false
    ∧ tideRangeOk (3 : Fin 8) bankFaultMains = true ∧ tideSource (3 : Fin 8) bankFaultMains = 1 := by decide +kernel

/-- The tide enters HOLDOVER with its enabling, since its input delivers nothing (R129). -/
theorem st_tideEnable_bankFaultMains : (tide (3 : Fin 8) (tideEnable (3 : Fin 8) bankFaultMains)).st = .holdover := by
  decide +kernel

/-- Refutes O5: a mains tide that is enabled while the TI bank is in fault is in HOLDOVER after the step, not in ACQUIRE. -/
theorem not_tideCommandsAndTracking : ¬ Obligations.TideCommandsAndTracking := by
  unfold Obligations.TideCommandsAndTracking
  intro ⟨hcommands, _⟩
  obtain ⟨henable, -⟩ := hcommands bankFaultMains 3 0
  obtain ⟨hok, hoff, hconflict, hrange, hsource⟩ := bankFaultMains_sound
  rw [hsource] at henable
  obtain ⟨t, hexec, -, -, hacquire, -⟩ := henable hok hoff hconflict hrange (fun h => absurd h (by decide))
  have ht : tideEnable (3 : Fin 8) bankFaultMains = t :=
    Host.Outcome.next.inj ((exec_tideEnable hok hoff).symm.trans hexec)
  rw [← ht, st_tideEnable_bankFaultMains] at hacquire
  exact absurd hacquire (by decide)

end Sys2Proof.Machine
end

section
/-! PROOFS. Measurements of a tide (O6): a tide and the registers through the tracker's operations, HOLDOVER and what is
missed, crossings, edges, the index, line faults and the end of an interval. -/
namespace Sys2Proof.Machine

/-! ### The registers of a tide lie apart -/

theorem tideReg_apart {a b : Nat} (h : a ≠ b) (n : Nat) : a + 0x40 * (n % 8) ≠ b + 0x40 * (n % 8) :=
  fun e => h (Nat.add_right_cancel e)

theorem tideReg_above {a b : Nat} (h : b < a) (n : Nat) : a + 0x40 * (n % 8) ≠ b := by omega

/-! ### A tide through an operation -/

@[simp] theorem tide_onTide (n : Nat) (f : Tide → Tide) (s : State) : tide n (onTide n f s) = f (tide n s) :=
  Sparse.get_set_same _ _ _ _

@[simp] theorem rd_onTide (x n : Nat) (f : Tide → Tide) (s : State) : rd x (onTide n f s) = rd x s := rfl
@[simp] theorem fld_onTide (g : RegField) (n : Nat) (f : Tide → Tide) (s : State) : fld g (onTide n f s) = fld g s := rfl
@[simp] theorem flag_onTide (g : RegField) (n : Nat) (f : Tide → Tide) (s : State) : flag g (onTide n f s) = flag g s := rfl

/-- A tide reads the same from states with the same tides. -/
theorem tide_congr {s t : State} (h : t.tides = s.tides) (n : Nat) : tide n t = tide n s := by
  rw [tide, tide, h]

@[simp] theorem tide_setFlag (n : Nat) (f : RegField) (b : Bool) (s : State) : tide n (setFlag f b s) = tide n s := rfl
@[simp] theorem tide_bump (n : Nat) (f : RegField) (s : State) : tide n (bump f s) = tide n s := rfl
@[simp] theorem tide_say (n : Nat) (st : Status) (s : State) : tide n (say st s) = tide n s :=
  tide_congr (say_tides st s) n

@[simp] theorem tide_tideEvent (m : Nat) (f : RegField) (n : Nat) (st : Status) (s : State) :
    tide m (tideEvent f n st s) = tide m s :=
  tide_congr ((say_tides _ _).trans (raiseBit_tides _ _ _ _)) m

@[simp] theorem tiFault_tideEvent (f : RegField) (n : Nat) (st : Status) (s : State) :
    (tideEvent f n st s).tiFault = s.tiFault := (say_tiFault _ _).trans (raiseBit_tiFault _ _ _ _)

/-- A report of a transition writes its event register only. -/
theorem rd_tideEvent {x : Nat} {f : RegField} (hx : x ≠ f.addr) (n : Nat) (st : Status) (s : State) :
    rd x (tideEvent f n st s) = rd x s := by
  rw [tideEvent, rd_say, rd_raiseBit, if_neg hx]

@[simp] theorem tide_onlyIf_say (n : Nat) (c : Bool) (st : Status) (s : State) :
    tide n (onlyIf c (say st) s) = tide n s := by
  cases c
  · rfl
  · exact tide_say n st s

@[simp] theorem rd_onlyIf_say (x : Nat) (c : Bool) (st : Status) (s : State) : rd x (onlyIf c (say st) s) = rd x s := by
  cases c
  · rfl
  · exact rd_say x st s

/-- A flag outside the field that is set keeps its value. -/
theorem flag_setFlag_disj {f g : RegField} (b : Bool) (s : State)
    (h : g.lo + g.width ≤ f.lo ∨ f.lo + f.width ≤ g.lo) : flag g (setFlag f b s) = flag g s := by
  rw [flag, setFlag, fld_setFld_disj f g _ s h, flag]

/-- A flag of a register that reads the same. -/
theorem flag_of_rd {s t : State} {f : RegField} (h : rd f.addr t = rd f.addr s) : flag f t = flag f s := by
  rw [flag, fld, h, flag, fld]

/-! ### HOLDOVER, and measurements that are missed (Table TIDE-5) -/

/-- The tide is in ACQUIRE or LOCKED. -/
def Tracks (x : Tide) : Prop := x.st = .acquire ∨ x.st = .locked

/-- A tide in HOLDOVER since `now` at frequency `w`. -/
def heldOver (w : Int) (now : Nat) (x : Tide) : Tide :=
  { x with st := .holdover, omega := w, holdNs := now, relockCnt := 0, lockCnt := 0, unlockCnt := 0, skipped := true }

theorem tide_tideHold (net : Bool) {n : Nat} {s : State} (h : Tracks (tide n s)) :
    ∃ w, tide n (tideHold net n s) = heldOver w (nowNs s) (tide n s) := by
  unfold tideHold
  rcases h with h | h <;> rw [h]
  all_goals
    simp only [tide_tideEvent, withFree, tide_onTide]
    exact ⟨_, rfl⟩

theorem tideHold_of_not_tracks (net : Bool) {n : Nat} {s : State} (h : ¬ Tracks (tide n s)) : tideHold net n s = s := by
  unfold tideHold
  split
  · next hst => exact absurd (.inl hst) h
  · next hst => exact absurd (.inr hst) h
  · rfl

/-- HOLDOVER keeps a waiting measurement and the count of misses, and the note of a crossing that was missed. -/
theorem tideHold_keeps (net : Bool) (n : Nat) (s : State) : (tide n (tideHold net n s)).pend = (tide n s).pend
    ∧ (tide n (tideHold net n s)).missCnt = (tide n s).missCnt
    ∧ ((tide n s).skipped = true → (tide n (tideHold net n s)).skipped = true) := by
  by_cases h : Tracks (tide n s)
  · obtain ⟨w, hheld⟩ := tide_tideHold net h
    rw [hheld]
    exact ⟨rfl, rfl, fun _ => rfl⟩
  · rw [tideHold_of_not_tracks net h]
    exact ⟨rfl, rfl, id⟩

/-- Entering HOLDOVER writes TIDE_EVENT only. -/
theorem rd_tideHold {x : Nat} (hx : x ≠ Reg.TIDE_EVENT) (net : Bool) (n : Nat) (s : State) :
    rd x (tideHold net n s) = rd x s := by
  unfold tideHold
  split
  · exact rd_tideEvent hx _ _ _
  · exact rd_tideEvent hx _ _ _
  · rfl

@[simp] theorem tiFault_tideHold (net : Bool) (n : Nat) (s : State) : (tideHold net n s).tiFault = s.tiFault := by
  unfold tideHold
  split
  · exact tiFault_tideEvent _ _ _ _
  · exact tiFault_tideEvent _ _ _ _
  · rfl

/-- A missed measurement is counted. -/
def missCounted (n : Nat) (s : State) : State :=
  s |> bump (Fld.TDn_COUNTS_MISS n)
    |> onTide n (fun x => { x with missCnt := x.missCnt + 1, lockCnt := 0, unlockCnt := 0, relockCnt := 0 })

theorem tide_missCounted (n : Nat) (s : State) : tide n (missCounted n s)
    = { tide n s with missCnt := (tide n s).missCnt + 1, lockCnt := 0, unlockCnt := 0, relockCnt := 0 } := by
  rw [missCounted, tide_onTide, tide_bump]

theorem rd_missCounted {x n : Nat} (hx : x ≠ Reg.TDn_COUNTS n) (s : State) : rd x (missCounted n s) = rd x s := by
  rw [missCounted, rd_onTide, bump, rd_setFld, if_neg hx]

/-- At HOLD_ENTRY misses in a row the tide is held over. -/
theorem tideMissed_eq (n : Nat) (s : State) : tideMissed n s =
    if fld (Fld.TDn_CFG_HOLD_ENTRY n) s ≤ (tide n s).missCnt + 1 then tideHold false n (missCounted n s)
    else missCounted n s := by
  have hentry : fld (Fld.TDn_CFG_HOLD_ENTRY n) (missCounted n s) = fld (Fld.TDn_CFG_HOLD_ENTRY n) s := by
    rw [fld, fld, rd_missCounted (tideReg_apart (by decide) n)]
  have hcount : (tide n (missCounted n s)).missCnt = (tide n s).missCnt + 1 := by rw [tide_missCounted]
  rw [← hentry, ← hcount]
  rfl

theorem tideMissed_keeps (n : Nat) (s : State) : (tide n (tideMissed n s)).pend = (tide n s).pend
    ∧ (tide n (tideMissed n s)).missCnt = (tide n s).missCnt + 1
    ∧ ((tide n s).skipped = true → (tide n (tideMissed n s)).skipped = true) := by
  have hcounted := tide_missCounted n s
  rw [tideMissed_eq]
  split
  · have hkeeps := tideHold_keeps false n (missCounted n s)
    rwa [hcounted] at hkeeps
  · rw [hcounted]
    exact ⟨rfl, rfl, id⟩

theorem st_tideMissed {n : Nat} {s : State} (h : Tracks (tide n s)) : (tide n (tideMissed n s)).st =
    if fld (Fld.TDn_CFG_HOLD_ENTRY n) s ≤ (tide n s).missCnt + 1 then .holdover else (tide n s).st := by
  have hcounted := tide_missCounted n s
  rw [tideMissed_eq]
  split
  · obtain ⟨w, hheld⟩ := tide_tideHold false (n := n) (s := missCounted n s) (by rw [hcounted]; exact h)
    rw [hheld]
    rfl
  · rw [hcounted]

theorem rd_tideMissed {x n : Nat} (hevent : x ≠ Reg.TIDE_EVENT) (hcounts : x ≠ Reg.TDn_COUNTS n) (s : State) :
    rd x (tideMissed n s) = rd x s := by
  rw [tideMissed_eq]
  split
  · rw [rd_tideHold hevent, rd_missCounted hcounts]
  · exact rd_missCounted hcounts s

/-- The flags of a tide outlast a miss. -/
theorem flag_tideMissed {g : RegField} {n : Nat} (hg : g.addr = Reg.TDn_STATUS n) (s : State) :
    flag g (tideMissed n s) = flag g s :=
  flag_of_rd (hg ▸ rd_tideMissed (tideReg_above (by decide) n) (tideReg_apart (by decide) n) s)

/-! ### Accepted measurements -/

theorem tide_tideAccept (n : Nat) (p : TidePend) (s : State) :
    tide n (tideAccept n p s) = { tide n s with missCnt := 0, pend := some p } := by
  rw [tideAccept, tide_onTide, tide_setFlag]

theorem refOk_tideAccept (n : Nat) (p : TidePend) (s : State) :
    flag (Fld.TDn_STATUS_REF_OK n) (tideAccept n p s) = true := by
  rw [tideAccept, flag_onTide]
  exact flag_setFlag_same _ _ _ rfl (by simp)

/-! ### Crossings of the mains (R106, R107) -/

/-- What a crossing shows: its amplitude, and the three tests that it fails or passes. -/
def crossingShown (n peak : Nat) (ampBad freqBad phaseBad : Bool) (s : State) : State :=
  s |> setFld (Fld.TDn_AMPL_AMPL n) (min peak 0xFFFF) |> setFlag (Fld.TDn_STATUS_AMPL_LOW n) ampBad
    |> setFlag (Fld.TDn_STATUS_FREQ_RANGE n) freqBad |> setFlag (Fld.TDn_STATUS_PHASE_REJECT n) phaseBad

@[simp] theorem tide_crossingShown (m n peak : Nat) (a f p : Bool) (s : State) :
    tide m (crossingShown n peak a f p s) = tide m s := rfl

theorem amplLow_crossingShown (n peak : Nat) (a f p : Bool) (s : State) :
    flag (Fld.TDn_STATUS_AMPL_LOW n) (crossingShown n peak a f p s) = a := by
  rw [crossingShown, flag_setFlag_disj _ _ (by simp), flag_setFlag_disj _ _ (by simp)]
  exact flag_setFlag_same _ _ _ rfl (by simp)

theorem rd_crossingShown {x n : Nat} (hstatus : x ≠ Reg.TDn_STATUS n) (hampl : x ≠ Reg.TDn_AMPL n) (peak : Nat)
    (a f p : Bool) (s : State) : rd x (crossingShown n peak a f p s) = rd x s := by
  simp only [crossingShown, rd_setFlag, rd_setFld, if_neg hstatus, if_neg hampl]

/-- The angle of a crossing: OFFSET, and half a turn more where it is negative-going (Table TIDE-3). -/
def crossingAngle (n : Nat) (positive : Bool) (s : State) : Word := tideOffset n s + (if positive then 0 else 0x80000000)

/-- A first crossing has neither an interval nor an expected angle to fail; with its amplitude it is accepted. -/
theorem mainsCrossing_first {n peak : Nat} {s : State} (hlast : (tide n s).lastCross = none)
    (hfirst : (tide n s).crossings = 0) (hampl : fld (Fld.TDn_WINDOWS_FILTER n) s * 50 ≤ peak) (positive : Bool) (tk : Nat) :
    ∃ e, mainsCrossing n positive peak tk s = (crossingShown n peak false false false s
      |> onTide n (fun x => { x with crossings := x.crossings + 1, lastCross := some tk, skipped := false, expect := e })
      |> tideAccept n { phi := crossingAngle n positive s, tk := tk }) := by
  have hamp : decide (peak < fld (Fld.TDn_WINDOWS_FILTER n) s * 50) = false := decide_eq_false (by omega)
  have hoffset : tideOffset n (crossingShown n peak false false false s) = tideOffset n s :=
    rd_crossingShown (tideReg_apart (by decide) n) (tideReg_apart (by decide) n) _ _ _ _ _
  refine ⟨crossingAngle n positive s + crossStep n (crossingShown n peak false false false s), ?_⟩
  unfold crossingAngle
  rw [← hoffset]
  simp only [mainsCrossing, hlast, hfirst, hamp, crossingShown, Option.map_none, Option.getD_none, bne_self_eq_false,
    Bool.false_and, Bool.and_false, Bool.or_self, Bool.false_eq_true, if_false]

/-- A first crossing of sufficient amplitude is the waiting measurement. -/
theorem mainsCrossing_waits {n peak : Nat} {s : State} (hlast : (tide n s).lastCross = none)
    (hfirst : (tide n s).crossings = 0) (hampl : fld (Fld.TDn_WINDOWS_FILTER n) s * 50 ≤ peak) (positive : Bool) (tk : Nat) :
    flag (Fld.TDn_STATUS_REF_OK n) (mainsCrossing n positive peak tk s) = true
    ∧ (tide n (mainsCrossing n positive peak tk s)).crossings = 1
    ∧ (tide n (mainsCrossing n positive peak tk s)).pend = some { phi := crossingAngle n positive s, tk := tk }
    ∧ (tide n (mainsCrossing n positive peak tk s)).lastCross = some tk := by
  obtain ⟨e, hcrossing⟩ := mainsCrossing_first hlast hfirst hampl positive tk
  rw [hcrossing, tide_tideAccept, tide_onTide, tide_crossingShown, hfirst]
  exact ⟨refOk_tideAccept _ _ _, rfl, rfl, rfl⟩

/-- A crossing whose amplitude is too small, rejected and reported with the other tests that it fails. -/
def crossingRejected (n peak : Nat) (freqBad phaseBad : Bool) (e : Tide → Word) (s : State) : State :=
  crossingShown n peak true freqBad phaseBad s |> setFlag (Fld.TDn_STATUS_REF_OK n) false
    |> onlyIf true (say Code.TIDE_AMPL_LOW) |> onlyIf freqBad (say Code.TIDE_FREQ_RANGE)
    |> onlyIf phaseBad (say Code.TIDE_PHASE_REJECT)
    |> onTide n (fun x => { x with skipped := true, expect := e x })

theorem tide_crossingRejected (n peak : Nat) (f p : Bool) (e : Tide → Word) (s : State) :
    tide n (crossingRejected n peak f p e s) = { tide n s with skipped := true, expect := e (tide n s) } := by
  simp only [crossingRejected, tide_onTide, tide_onlyIf_say, tide_setFlag, tide_crossingShown]

/-- The reports of a rejection leave the flags. -/
theorem flag_crossingRejected (g : RegField) (n peak : Nat) (f p : Bool) (e : Tide → Word) (s : State) :
    flag g (crossingRejected n peak f p e s)
      = flag g (setFlag (Fld.TDn_STATUS_REF_OK n) false (crossingShown n peak true f p s)) :=
  flag_of_rd (by simp only [crossingRejected, rd_onTide, rd_onlyIf_say])

/-- A crossing whose amplitude is too small is rejected and counts as missed. -/
theorem mainsCrossing_small {n peak : Nat} {s : State} (hampl : peak < fld (Fld.TDn_WINDOWS_FILTER n) s * 50)
    (positive : Bool) (tk : Nat) : ∃ f p e,
      mainsCrossing n positive peak tk s = tideMissed n (crossingRejected n peak f p e s) := by
  simp only [mainsCrossing, decide_eq_true hampl, Bool.true_or, if_true]
  exact ⟨_, _, _, rfl⟩

/-- It shows in the flags, and the waiting measurement stays as it was. -/
theorem mainsCrossing_rejects {n peak : Nat} {s : State} (hampl : peak < fld (Fld.TDn_WINDOWS_FILTER n) s * 50)
    (positive : Bool) (tk : Nat) : flag (Fld.TDn_STATUS_REF_OK n) (mainsCrossing n positive peak tk s) = false
    ∧ flag (Fld.TDn_STATUS_AMPL_LOW n) (mainsCrossing n positive peak tk s) = true
    ∧ (tide n (mainsCrossing n positive peak tk s)).skipped = true
    ∧ (tide n (mainsCrossing n positive peak tk s)).pend = (tide n s).pend := by
  obtain ⟨f, p, e, hcrossing⟩ := mainsCrossing_small hampl positive tk
  obtain ⟨hpend, -, hskipped⟩ := tideMissed_keeps n (crossingRejected n peak f p e s)
  rw [tide_crossingRejected] at hpend hskipped
  rw [hcrossing, flag_tideMissed rfl, flag_tideMissed rfl, flag_crossingRejected, flag_crossingRejected]
  refine ⟨flag_setFlag_same _ _ _ rfl (by simp), ?_, hskipped rfl, hpend⟩
  rw [flag_setFlag_disj _ _ (by simp), amplLow_crossingShown]

/-- A crossing in the cycle of a miss counts as a close call first (R107). -/
theorem exec_mainsCrossing {n : Fin 8} {positive : Bool} {s : State} (h : crossingUsed n positive s = true)
    (peak age : Nat) (tie : Bool) : exec (.mainsCrossing n positive peak age tie) s
      = .next (mainsCrossing n positive peak (nowNs s - age) (onlyIf tie (bump Fld.TIDE_CLOSE_CALL_COUNT) s)) := by
  show execMainsCrossing n positive peak age tie s = _
  simp only [execMainsCrossing, h, if_true]

@[simp] theorem tide_closeCall (n : Nat) (tie : Bool) (s : State) :
    tide n (onlyIf tie (bump Fld.TIDE_CLOSE_CALL_COUNT) s) = tide n s := by
  cases tie <;> rfl

theorem rd_closeCall {x : Nat} (hx : x ≠ Reg.TIDE_CLOSE_CALL) (tie : Bool) (s : State) :
    rd x (onlyIf tie (bump Fld.TIDE_CLOSE_CALL_COUNT) s) = rd x s := by
  cases tie
  · rfl
  · exact (rd_setFld _ _ _ _).trans (if_neg hx)

/-- The smallest amplitude that a close call leaves as it was. -/
theorem filter_closeCall (n : Nat) (tie : Bool) (s : State) :
    fld (Fld.TDn_WINDOWS_FILTER n) (onlyIf tie (bump Fld.TIDE_CLOSE_CALL_COUNT) s) = fld (Fld.TDn_WINDOWS_FILTER n) s := by
  rw [fld, rd_closeCall (tideReg_above (by decide) n), fld]

theorem crossingAngle_closeCall (n : Nat) (positive tie : Bool) (s : State) :
    crossingAngle n positive (onlyIf tie (bump Fld.TIDE_CLOSE_CALL_COUNT) s) = crossingAngle n positive s := by
  rw [crossingAngle, tideOffset, rd_closeCall (tideReg_above (by decide) n), crossingAngle, tideOffset]

theorem exec_tideMiss {n : Fin 8} {s : State} (hsource : tideSource n s = 1) (htracks : Tracks (tide n s))
    (halive : alive s = true) : exec (.tideMiss n) s = .next (tideMiss n s) := by
  have hst : ((tide n s).st == .acquire || (tide n s).st == .locked) = true := by simpa [Tracks] using htracks
  show execTideMiss n s = _
  simp only [execTideMiss, hsource, hst, halive, beq_self_eq_true, Bool.and_self, if_true]

/-- A miss is noted and counted, and at HOLD_ENTRY of them in a row a tide in ACQUIRE or LOCKED is held over. -/
theorem tide_tideMiss {n : Nat} {s : State} (htracks : Tracks (tide n s)) : (tide n (tideMiss n s)).skipped = true
    ∧ (tide n (tideMiss n s)).missCnt = (tide n s).missCnt + 1
    ∧ (tide n (tideMiss n s)).st =
      if fld (Fld.TDn_CFG_HOLD_ENTRY n) s ≤ (tide n s).missCnt + 1 then .holdover else (tide n s).st := by
  unfold tideMiss
  generalize hu : onTide n _ s = u
  have htide : ∃ e, tide n u = { tide n s with skipped := true, expect := e } := ⟨_, hu ▸ tide_onTide _ _ _⟩
  have hentry : fld (Fld.TDn_CFG_HOLD_ENTRY n) u = fld (Fld.TDn_CFG_HOLD_ENTRY n) s := by rw [← hu, fld_onTide]
  obtain ⟨e, htide⟩ := htide
  obtain ⟨-, hcount, hskipped⟩ := tideMissed_keeps n u
  have hst := st_tideMissed (n := n) (s := u) (by rw [htide]; exact htracks)
  rw [htide] at hcount hskipped hst
  rw [hentry] at hst
  exact ⟨hskipped rfl, hcount, hst⟩

/-! ### Edges and the index (R109 to R111, R115) -/

theorem tide_moveP (n : Nat) (forward : Bool) (s : State) : tide n (moveP n forward s) = { tide n s with
    p := if forward then ((tide n s).p + 1) % tideScale n s else ((tide n s).p + tideScale n s - 1) % tideScale n s
    hadEdge := true, edgeNs := nowNs s } := tide_onTide _ _ _

theorem hadEdge_moveP (n : Nat) (forward : Bool) (s : State) : (tide n (moveP n forward s)).hadEdge = true := by
  rw [tide_moveP]

/-- The position moves back where the sense of the lines equals DIR_INVERT. -/
theorem p_moveP (n : Nat) (fwd : Bool) (s : State) : (tide n (moveP n (fwd != flag (Fld.TDn_CFG_DIR_INVERT n) s) s)).p =
    if fwd = flag (Fld.TDn_CFG_DIR_INVERT n) s then ((tide n s).p + tideScale n s - 1) % tideScale n s
    else ((tide n s).p + 1) % tideScale n s := by
  rw [tide_moveP]
  by_cases h : fwd = flag (Fld.TDn_CFG_DIR_INVERT n) s <;> simp [h]

theorem exec_encoderEdge_single {n : Fin 8} {s : State} (h : edgesLive n 2 s = true) (fwd : Bool) :
    exec (.encoderEdge n false fwd) s = .next (moveP n (fwd != flag (Fld.TDn_CFG_DIR_INVERT n) s) s) := by
  show execEncoderEdge n false fwd s = _
  simp only [execEncoderEdge, h, Bool.not_true, Bool.false_eq_true, if_false]

theorem exec_encoderEdge_double {n : Fin 8} {s : State} (h : edgesLive n 2 s = true) (fwd : Bool) :
    exec (.encoderEdge n true fwd) s = .next (s |> setFlag (Fld.TDn_STATUS_QUAD_ERR n) true
      |> bump (Fld.TDn_COUNTS_QUAD n) |> onTide n (fun x => { x with reject := true }) |> say Code.TIDE_QUAD_ERROR) := by
  show execEncoderEdge n true fwd s = _
  simp only [execEncoderEdge, h, Bool.not_true, Bool.false_eq_true, if_false, if_true]

theorem exec_stepEdge {n : Fin 8} {s : State} (h : edgesLive n 3 s = true) (fwd : Bool) :
    exec (.stepEdge n fwd) s = .next (moveP n (fwd != flag (Fld.TDn_CFG_DIR_INVERT n) s) s) := by
  show execStepEdge n fwd s = _
  simp only [execStepEdge, h, if_true]

theorem exec_indexPulse_first {n : Fin 8} {s : State} (hlive : edgesLive n 2 s = true ∨ edgesLive n 3 s = true)
    (hmode : fld (Fld.TDn_CFG_INDEX_MODE n) s ≠ 0) (hseen : (tide n s).indexSeen = false) :
    exec (.indexPulse n) s = .next (indexSet n s) := by
  have hedges : (edgesLive n 2 s || edgesLive n 3 s) = true := Bool.or_eq_true_iff.2 hlive
  show execIndexPulse n s = _
  simp only [execIndexPulse, hedges, indexPulse, hmode, hseen, Bool.not_false, if_true, if_false]

/-- The first index places the tide at OFFSET in turn 0. -/
theorem tide_indexSet (n : Nat) (s : State) : tide n (indexSet n s) =
    placeAt (BitVec.ofNat 64 ((tideOffset n s).toNat * 2 ^ 32))
      { tide n s with p := 0, indexSeen := true, edgeNs := nowNs s } := by
  rw [indexSet, tide_tideEvent, tide_onTide]

/-- A tide that is placed at an angle shows this angle and turn 0. -/
theorem pos_placeAt_angle (w : Word) (x : Tide) :
    (placeAt (BitVec.ofNat 64 (w.toNat * 2 ^ 32)) x).pos.toNat = w.toNat * 2 ^ 32 := by
  have hw := w.isLt
  simp only [placeAt, BitVec.truncate_eq_setWidth, BitVec.toNat_setWidth, BitVec.toNat_ofNat]
  omega

theorem tideAngle_indexSet (n : Nat) (s : State) : tideAngle n (indexSet n s) = tideOffset n s := by
  unfold tideAngle
  rw [tide_indexSet, pos_placeAt_angle, Nat.mul_div_cancel _ (by decide), BitVec.ofNat_toNat, BitVec.setWidth_eq]

theorem tideTurn_indexSet (n : Nat) (s : State) : tideTurn n (indexSet n s) = 0 := by
  have hoffset := (tideOffset n s).isLt
  unfold tideTurn
  rw [tide_indexSet, pos_placeAt_angle, Nat.div_eq_of_lt (by omega)]
  rfl

/-! ### Line faults (R116) -/

/-- A fold of operations that keep the line faults keeps them. -/
theorem tiFault_forAll {α : Type} (f : α → State → State) (h : ∀ x u, (f x u).tiFault = u.tiFault) (l : List α) :
    ∀ s, (forAll l f s).tiFault = s.tiFault := by
  induction l with
  | nil => exact fun _ => rfl
  | cons x l ih => exact fun s => (ih (f x s)).trans (h x s)

/-- A line fault is listed while it is present. -/
theorem tiFault_lineFault (input : Nat) (z present : Bool) (s : State) : (lineFault input z present s).tiFault =
    if present then (if s.tiFault.contains (input * 2 + z.toNat) then s.tiFault else (input * 2 + z.toNat) :: s.tiFault)
    else s.tiFault.filter (· != input * 2 + z.toNat) := by
  refine tiFault_forAll _ (fun n u => ?_) _ _
  dsimp only
  split
  · rw [tiFault_tideHold, say_tiFault, setFlag_tiFault]
  · exact setFlag_tiFault _ _ _

theorem contains_lineFault (input : Nat) (z present : Bool) (s : State) :
    (lineFault input z present s).tiFault.contains (input * 2 + z.toNat) = present := by
  rw [tiFault_lineFault]
  cases present with
  | false => simp
  | true =>
    rw [if_pos rfl]
    split
    · next hlisted => exact hlisted
    · simp

theorem exec_tideLineFault {s : State} (h : regionsUp s = true) (input : Fin 4) (z present : Bool) :
    exec (.tideLineFault input z present) s = .next (lineFault input z present s) := by
  show execTideLineFault input z present s = _
  simp only [execTideLineFault, h, if_true]

/-! ### The end of a 1 µs interval (R113, R114, R117) -/

theorem exec_tideMeasurement {n : Fin 8} {s : State} (h : regionsUp s = true) :
    exec (.tideMeasurement n) s = .next (tideMeasure n s) := by
  show execTideMeasurement n s = _
  simp only [execTideMeasurement, h, if_true]

/-- Disciplined network time is a measurement. -/
theorem tideMeasure_net {n : Nat} {s : State} (hruns : tideRuns n s = true) (hsource : tideSource n s = 4)
    (htime : disciplined s = true) : tideMeasure n s = tideAccept n { phi := phiNet n s, tk := nowNs s } s := by
  have hcheck : tideNetCheck n s = s := by simp [tideNetCheck, htime]
  simp only [tideMeasure, hruns, hsource, hcheck, Bool.not_true, Bool.false_eq_true, if_false, if_true]

/-- The conditions under which the edges of a tide count. -/
theorem edgesLive_iff {n src : Nat} {s : State} : edgesLive n src s = true ↔
    tideRuns n s = true ∧ tideSource n s = src ∧ tiLive s = true ∧ tideLineFault n s = false := by
  simp only [edgesLive, Bool.and_eq_true, beq_iff_eq, Bool.not_eq_true', and_assoc]

theorem regionsUp_of_tiLive {s : State} (h : tiLive s = true) : regionsUp s = true := by
  simp only [tiLive, Bool.and_eq_true] at h
  exact h.1.1

/-- An interval with an edge measures the position at the instant of its last edge. -/
theorem tideMeasure_edge {n : Nat} {s : State} (hlive : edgesLive n 2 s = true) (hreject : (tide n s).reject = false)
    (hedge : (tide n s).hadEdge = true) : tideMeasure n s =
      (s |> setFlag (Fld.TDn_STATUS_QUAD_ERR n) false |> onTide n (fun x => { x with hadEdge := false })
        |> tideAccept n { phi := phiP n s, tk := (tide n s).edgeNs }) := by
  obtain ⟨hruns, hsource, hti, hline⟩ := edgesLive_iff.1 hlive
  have hpaired : tidePaired n s = true := by simp [tidePaired, hsource]
  have hnet : ¬ tideSource n s = 4 := by omega
  simp only [tideMeasure, hruns, hnet, hpaired, hti, hline, hreject, hedge, Bool.not_true, Bool.or_self,
    Bool.false_eq_true, if_false, if_true]

/-! ### The obligation -/

/-- Settles O6: each event acts by one operation on its tide, whose effect the lemmas above state. -/
theorem tideMeasurements : Obligations.TideMeasurements := by
  intro s n pos fwd tie z peak age input
  refine ⟨fun hused hlast hfirst hampl => ?_, fun hused hampl => ?_, fun hsource htracks halive => ?_, fun hlive => ?_,
    fun hlive => ?_, fun hlive => ?_, fun hlive hmode hseen => ?_, fun hup hruns hsource htime => ?_,
    fun hlive hreject hedge => ?_, fun hup => ?_, fun hup => ?_⟩
  · rw [← tide_closeCall n tie] at hlast hfirst
    rw [← filter_closeCall n tie] at hampl
    refine ⟨_, exec_mainsCrossing hused peak age tie, ?_⟩
    have hwaits := mainsCrossing_waits hlast hfirst hampl pos (nowNs s - age)
    rwa [crossingAngle_closeCall] at hwaits
  · rw [← filter_closeCall n tie] at hampl
    refine ⟨_, exec_mainsCrossing hused peak age tie, ?_⟩
    have hrejects := mainsCrossing_rejects hampl pos (nowNs s - age)
    rwa [tide_closeCall] at hrejects
  · exact ⟨_, exec_tideMiss hsource htracks halive, tide_tideMiss htracks⟩
  · exact ⟨_, exec_encoderEdge_single hlive fwd, hadEdge_moveP _ _ _, p_moveP n fwd s⟩
  · refine ⟨_, exec_encoderEdge_double hlive fwd, ?_, ?_, ?_⟩
    · rw [flag_say, flag_onTide, flag, bump, fld_setFld_addr _ _ _ _ (tideReg_apart (by decide) n)]
      exact flag_setFlag_same _ _ _ rfl (by simp)
    · rw [tide_say, tide_onTide]
    · rw [tide_say, tide_onTide, tide_bump, tide_setFlag]
  · exact ⟨_, exec_stepEdge hlive fwd, hadEdge_moveP _ _ _, p_moveP n fwd s⟩
  · refine ⟨_, exec_indexPulse_first hlive hmode hseen, ?_, ?_, tideAngle_indexSet n s, tideTurn_indexSet n s⟩ <;>
      rw [tide_indexSet] <;> rfl
  · have hexec := exec_tideMeasurement (n := n) hup
    rw [tideMeasure_net hruns hsource htime] at hexec
    exact ⟨_, hexec, congrArg Tide.pend (tide_tideAccept _ _ _), refOk_tideAccept _ _ _⟩
  · obtain ⟨-, -, hti, -⟩ := edgesLive_iff.1 hlive
    have hexec := exec_tideMeasurement (n := n) (regionsUp_of_tiLive hti)
    rw [tideMeasure_edge hlive hreject hedge] at hexec
    refine ⟨_, hexec, ?_, ?_⟩ <;> rw [tide_tideAccept, tide_onTide]
  · exact ⟨_, exec_tideLineFault hup input z true, contains_lineFault _ _ _ _⟩
  · exact ⟨_, exec_tideLineFault hup input z false, contains_lineFault _ _ _ _⟩

end Sys2Proof.Machine
end

section
/-! PROOFS. Step sequencers (O8): a sequencer through an operation, the actions of a step, the entry of a step and its
FAULT, and an evaluation with and without a waiting command. -/
namespace Sys2Proof.Machine

/-! ### A sequencer through an operation -/

@[simp] theorem seq_onSeq (q : Nat) (f : Seq → Seq) (s : State) : seq q (onSeq q f s) = f (seq q s) :=
  Sparse.get_set_same _ _ _ _

@[simp] theorem rd_onSeq (x q : Nat) (f : Seq → Seq) (s : State) : rd x (onSeq q f s) = rd x s := rfl

/-- A sequencer reads the same from states with the same sequencers. -/
theorem seq_congr {s t : State} (h : t.seqs = s.seqs) (q : Nat) : seq q t = seq q s := by rw [seq, seq, h]

@[simp] theorem seq_say (q : Nat) (st : Status) (s : State) : seq q (say st s) = seq q s := seq_congr (say_seqs st s) q

@[simp] theorem seq_raiseBit (q v : Nat) (f : RegField) (i : Nat) (s : State) : seq q (raiseBit v f i s) = seq q s :=
  seq_congr (raiseBit_seqs v f i s) q

@[simp] theorem seq_seqMirror (q m : Nat) (s : State) : seq q (seqMirror m s) = seq q s :=
  seq_congr (cwMirror_seqs _ _ _) q

@[simp] theorem rd_seqMirror (x m : Nat) (s : State) : rd x (seqMirror m s) = rd x s := rd_cwMirror _ _ _ _

@[simp] theorem seq_sqSay (q : Nat) (st : Status) (s : State) :
    seq q (sqSay q st s) = { seq q s with last := st.setWidth 8 } := by
  rw [sqSay, seq_say, seq_onSeq]

@[simp] theorem rd_sqSay (x q : Nat) (st : Status) (s : State) : rd x (sqSay q st s) = rd x s := rd_say _ _ _

/-- Raising the event bit of a sequencer sets it. -/
theorem bitAt_raiseBit (v a : Nat) (q : Fin 32) (s : State) : bitAt a q (raiseBit v ⟨a, 0, 32⟩ q s) = true := by
  rw [bitAt, rd_raiseBit, if_pos rfl, BitVec.getLsbD_or, bitMask, BitVec.getLsbD_ofNat, Nat.zero_add,
    Nat.testBit_two_pow_self, decide_eq_true q.isLt]
  exact Bool.or_true _

/-! ### The actions of a step (R151, Table TIDE-28) -/

/-- A sequencer is as it was, but for the status that it last reported. -/
def SeqStays (q : Nat) (s t : State) : Prop := ∃ l, seq q t = { seq q s with last := l }

theorem SeqStays.of_eq {q : Nat} {s t : State} (h : seq q t = seq q s) : SeqStays q s t := ⟨(seq q s).last, h⟩

theorem SeqStays.trans {q : Nat} {s t u : State} (h : SeqStays q s t) (k : SeqStays q t u) : SeqStays q s u := by
  obtain ⟨l, ht⟩ := h
  obtain ⟨m, hu⟩ := k
  exact ⟨m, by rw [hu, ht]⟩

theorem seqStays_sqSay (q : Nat) (st : Status) (s : State) : SeqStays q s (sqSay q st s) := ⟨_, seq_sqSay q st s⟩

theorem seqStays_forAll {α : Type} {q : Nat} {f : α → State → State} (h : ∀ x u, SeqStays q u (f x u)) (l : List α)
    (s : State) : SeqStays q s (forAll l f s) := by
  induction l generalizing s with
  | nil => exact .of_eq rfl
  | cons x l ih => exact (h x s).trans (ih (f x s))

/-- The parts of the state that the actions of a step reach beside the sequencers. -/
def actionParts : List Part :=
  [.block 0x02, .block 0x03, .block 0x04, .block 0x05, .free, .strand, .tideTable, .exe, .loop, .dio, .pair, .net, .out]

theorem SeqStays.of_does {s t : State} (h : Does actionParts s t) (q : Nat) : SeqStays q s t :=
  .of_eq (seq_congr (h.only .seqs rfl) q)

theorem seqStays_stepAction (q act target : Nat) (v : Word) (s : State) :
    SeqStays q s (stepAction q act target v s) := by
  have refl := Does.refl actionParts s
  unfold stepAction
  split
  case h_1 =>
    split
    · split
      · exact .of_does (tagStore_does _ _ _ refl rfl) q
      · exact seqStays_sqSay _ _ _
    · exact seqStays_sqSay _ _ _
  case h_2 =>
    split
    · exact .of_does (loopPutSp_does _ _ _ refl rfl) q
    · exact .of_eq rfl
  case h_3 =>
    split
    · exact .of_does (loopPutMode_does _ _ _ refl rfl) q
    · exact .of_eq rfl
  case h_4 =>
    split
    · exact .of_eq rfl
    split
    · exact seqStays_sqSay _ _ _
    split
    · exact .of_does (ttArm_does _ _ (onTT_does _ _ _ refl rfl) rfl) q
    · exact .of_does (onTT_does _ _ _ refl rfl) q
  case h_5 =>
    split
    · exact .of_does (signalTask_does _ _ refl rfl) q
    · exact .of_eq rfl
  case h_6 => exact .of_does (present_does _ _ refl rfl) q
  case h_7 => exact .of_eq rfl

theorem seqStays_stepActions (q : Nat) (s : State) : SeqStays q s (stepActions q s) :=
  seqStays_forAll (fun _ _ => seqStays_stepAction _ _ _ _ _) _ s

/-! ### FAULT and the entry of a step (R149 to R154, R156, R160) -/

/-- A sequencer in FAULT, with its status. -/
def faulted (x : Seq) : Seq := { x with st := .fault, heldAt := none, last := Code.SQ_FAULT.setWidth 8 }

theorem seq_seqFault (q : Nat) (s : State) : seq q (seqFault q s) = faulted (seq q s) := by
  rw [seqFault, seq_seqMirror, seq_sqSay, seq_raiseBit, seq_onSeq, faulted]

theorem bitAt_seqFault (q : Fin 32) (s : State) : bitAt Reg.SQ_FAULT_EV q (seqFault q s) = true := by
  rw [seqFault, bitAt, rd_seqMirror, rd_sqSay, ← bitAt, bitAt_raiseBit]

/-- The sequencer's registers as it enters a step. -/
def entered (q n : Nat) (nominal : Int) (pos : DWord) (s : State) : Seq :=
  { seq q s with
    st := .run, step := n, work := stepWords q n s, nominal := nominal, actual := execBase s, startPos := pos, heldNs := 0
    heldAt := none }

/-- A valid step is entered in RUN and an invalid one in FAULT, with the same registers. -/
theorem seq_enterStep (q n : Nat) (nominal : Int) (start : Option (Nat × DWord)) (s : State) :
    ∃ pos last, seq q (enterStep q n nominal start s) =
      { entered q n nominal pos s with
        st := if stepBad (stepWords q n s) s then .fault else .run, last := last } := by
  unfold enterStep
  extract_lets l pos s'
  have hentered : seq q s' = entered q n nominal pos s := seq_onSeq _ _ _
  have hbad : stepBad l s' = stepBad (stepWords q n s) s := rfl
  rw [hbad]
  split
  · refine ⟨pos, Code.SQ_FAULT.setWidth 8, ?_⟩
    rw [seq_seqFault, seq_sqSay, hentered]
    rfl
  · obtain ⟨last, hacted⟩ := seqStays_stepActions q (seqMirror q s')
    rw [seq_seqMirror, hentered] at hacted
    exact ⟨pos, last, hacted⟩

/-! ### An evaluation (R152, R158, R159) -/

/-- The state in which an evaluation acts: a close call is counted, and no command waits any more. -/
def evalBase (q : Nat) (s : State) : State :=
  onSeq q (fun y => { y with cmds := [] }) (onlyIf ((seq q s).st == .run && exitDue (seq q s) s && timeoutDue (seq q s) s)
    (bump Fld.SQ_CLOSE_CALL_COUNT) s)

theorem seq_evalBase (q : Nat) (s : State) : seq q (evalBase q s) = { seq q s with cmds := [] } := by
  rw [evalBase, seq_onSeq, onlyIf]
  split <;> rfl

theorem seq_evalBase_of_no_cmds {q : Nat} {s : State} (h : (seq q s).cmds = []) : seq q (evalBase q s) = seq q s := by
  rw [seq_evalBase, ← h]

/-- An evaluation for which no command waits makes its move. -/
theorem seqEval_of_no_cmds {q : Nat} {s : State} (h : (seq q s).cmds = []) :
    seqEval q s = doMove q (seqMove (seq q s) s) (evalBase q s) := by
  unfold seqEval
  simp only [h, List.filter_nil, cmdPick]
  rfl

/-- An idle sequencer makes no move and takes the START that waits. -/
theorem seqEval_start {q n : Nat} {s : State} (hidle : (seq q s).st = .idle) (hcmds : (seq q s).cmds = [.start n]) :
    seqEval q s = cmdAct q (.start n) (onSeq q (fun y => { y with cmds := [] }) s) := by
  have hstay : seqMove (seq q s) s = .stay := by
    rw [seqMove, hidle]
    rfl
  have hpick : cmdPick ([.start n].filter (cmdOk .idle)) = some (.start n) := rfl
  have hclose : (SeqState.idle == .run) = false := rfl
  unfold seqEval
  simp only [hcmds, hstay, hidle, doMove, moveState, hpick, hclose, onlyIf, Bool.false_and, Bool.false_eq_true, if_false,
    seq_onSeq]
  rfl

/-- The exit of a running step ends the sequencer after a last step and enters the next step otherwise. -/
theorem seqMove_of_exitDue {x : Seq} {s : State} (hrun : x.st = .run) (hdue : exitDue x s = true) :
    seqMove x s = if stepBits x.work 0 24 24 = 1 then .done else .next := by
  simp [seqMove, hrun, hdue]

theorem seqMove_of_timeoutDue {x : Seq} {s : State} (hrun : x.st = .run) (hdue : exitDue x s = false)
    (htimeout : timeoutDue x s = true) : seqMove x s = .lost Code.SQ_TIMEOUT := by
  simp [seqMove, hrun, hdue, htimeout]

/-- The exit of a step on its duration alone is due when its time duration has run. -/
theorem exitDue_of_timeDue {x : Seq} {s : State} (hkind : exitKind x.work = 0) (htime : timeDue x (execBase s) = true) :
    exitDue x s = true := by
  simp [exitDue, hkind, htime]

/-- A move to DONE ends the sequencer and sets its event bit. -/
theorem doMove_done (q : Fin 32) (s : State) :
    (seq q (doMove q .done s)).st = .done ∧ bitAt Reg.SQ_DONE_EV q (doMove q .done s) = true := by
  simp only [doMove]
  constructor
  · rw [seq_seqMirror, seq_sqSay, seq_raiseBit, seq_onSeq]
  · rw [bitAt, rd_seqMirror, rd_sqSay, ← bitAt, bitAt_raiseBit]

/-- A move whose time duration has run enters the next step at the nominal instant (R153). -/
theorem doMove_next_onTime {q : Nat} {s : State} (h : exitOnTime (seq q s) s = true) :
    (seq q (doMove q .next s)).step = stepBits (seq q s).work 0 21 12
      ∧ (seq q (doMove q .next s)).nominal = (seq q s).nominal + stepDur (seq q s).work := by
  simp only [doMove, h, if_true]
  obtain ⟨pos, last, hseq⟩ := seq_enterStep q (stepBits (seq q s).work 0 21 12)
    ((seq q s).nominal + stepDur (seq q s).work) _ _
  rw [hseq]
  exact ⟨rfl, rfl⟩

/-- Without a fault step the sequencer ends in FAULT. -/
theorem doMove_lost_noFaultStep {q : Nat} {s : State} (h : stepBits (seq q s).work 0 9 0 = 1023) (st : Status) :
    doMove q (.lost st) s = seqFault q (sqSay q st s) := by
  simp only [doMove, toFaultNext, h, if_true]

/-! ### The commands and events of a sequencer -/

theorem exec_sqEvaluation {q : Fin 32} {s : State} (hruns : seqsRun s = true) :
    exec (.sqEvaluation q) s = .next (seqEval q s) := by
  show execSqEvaluation q s = _
  rw [execSqEvaluation, if_pos hruns]

theorem exec_sqDurationElapsed {q : Fin 32} {s : State} (hruns : seqsRun s = true) (hrun : (seq q s).st = .run)
    (htime : timeDue (seq q s) (execBase s) = true) : exec (.sqDurationElapsed q) s = .next (seqEval q s) := by
  show execSqDurationElapsed q s = _
  rw [execSqDurationElapsed, hruns, hrun, htime]
  rfl

theorem exec_sqTimeout {q : Fin 32} {s : State} (hruns : seqsRun s = true) (hrun : (seq q s).st = .run)
    (htimeout : timeoutDue (seq q s) s = true) : exec (.sqTimeout q) s = .next (seqEval q s) := by
  show execSqTimeout q s = _
  rw [execSqTimeout, hruns, hrun, htimeout]
  rfl

/-- A host command that is answered and allowed waits for the next evaluation (R158). -/
theorem seq_seqHost {q : Fin 32} {s : State} (hok : hostOk (Reg.SQs_CMD q) .write s = true) (c : SeqCmd) :
    seq q (seqHost q c s) = { seq q s with cmds := (seq q s).cmds ++ [c] } := by
  rw [seqHost, hostCmd_of_ok _ hok, seqPut, seq_onSeq]

/-- Signal bits that the host writes accumulate. -/
theorem seq_sqSignalWrite {q : Fin 32} {s : State} (hok : hostOk (Reg.SQs_SIGNAL q) .write s = true) (b : Byte) :
    seq q (hostCmd (Reg.SQs_SIGNAL q) (seqSignal q b) s) = { seq q s with signals := (seq q s).signals ||| b } := by
  rw [hostCmd_of_ok _ hok, seqSignal, seq_onSeq]

/-- A standby side keeps a mirror record with the check of its step (R163). -/
theorem completes_sqMirrorRecord {s : State} (hup : regionsUp s = true) (hstandby : onStandby s = true) (q : Fin 32)
    (r : SeqMirror) : Completes (.sqMirrorRecord q r) s (fun t => (seq q t).mirror = some r
      ∧ (seq q t).mirrorOk = decide (stepCrc q r.step s = r.crc)) := by
  refine ⟨_, rfl, ?_⟩
  simp only [hup, hstandby, Bool.not_true, Bool.or_self, Bool.false_eq_true, if_false]
  split
  case isTrue hcrc => rw [seq_onSeq, decide_eq_true hcrc]; exact ⟨rfl, rfl⟩
  case isFalse hcrc => rw [seq_sqSay, seq_onSeq, decide_eq_false hcrc]; exact ⟨rfl, rfl⟩

/-! ### The obligation -/

/-- Settles O8: an evaluation takes the START that waits or makes its move, and a host command only waits. -/
theorem sequencerCommands : Obligations.SequencerCommands := by
  intro s q n b r
  refine ⟨fun hruns hidle hcmds => ?_, fun hruns hrun hdue hlast hcmds => ?_,
    fun hruns hrun htime hkind hlast hcmds => ?_, fun hruns hrun htimeout hdue hfault hcmds => ?_, fun hok => ?_,
    fun hok => ?_, fun hup hstandby => completes_sqMirrorRecord hup hstandby q r⟩
  · refine ⟨_, exec_sqEvaluation hruns, ?_⟩
    rw [seqEval_start hidle hcmds, cmdAct]
    obtain ⟨pos, last, hseq⟩ := seq_enterStep q n _ none _
    rw [hseq]
    exact ⟨rfl, by rw [entered, seq_onSeq, seq_onSeq], rfl, rfl⟩
  · refine ⟨_, exec_sqEvaluation hruns, ?_⟩
    rw [seqEval_of_no_cmds hcmds, seqMove_of_exitDue hrun hdue, if_pos hlast]
    exact doMove_done q _
  · refine ⟨_, exec_sqDurationElapsed hruns hrun htime, ?_⟩
    have hsame := seq_evalBase_of_no_cmds hcmds
    have hbase : execBase (evalBase q s) = execBase s := by
      rw [evalBase, onlyIf]
      split <;> rfl
    have htimed : exitOnTime (seq q (evalBase q s)) (evalBase q s) = true := by
      simp [exitOnTime, hsame, hbase, htime, hkind]
    rw [seqEval_of_no_cmds hcmds, seqMove_of_exitDue hrun (exitDue_of_timeDue hkind htime), if_neg (by omega), ← hsame]
    exact doMove_next_onTime htimed
  · refine ⟨_, exec_sqTimeout hruns hrun htimeout, ?_⟩
    have hnone : stepBits (seq q (evalBase q s)).work 0 9 0 = 1023 := by rw [seq_evalBase, hfault]
    rw [seqEval_of_no_cmds hcmds, seqMove_of_timeoutDue hrun hdue htimeout, doMove_lost_noFaultStep hnone]
    exact ⟨by rw [seq_seqFault, faulted], bitAt_seqFault q _⟩
  · have hwaits := fun c => congrArg Seq.cmds (seq_seqHost hok c)
    exact ⟨⟨_, rfl, hwaits _⟩, ⟨_, rfl, hwaits _⟩, ⟨_, rfl, hwaits _⟩, ⟨_, rfl, hwaits _⟩, _, rfl, hwaits _,
      by rw [seq_seqHost hok]⟩
  · exact ⟨_, rfl, congrArg Seq.signals (seq_sqSignalWrite hok b)⟩

end Sys2Proof.Machine
end

section
/-! PROOFS. The bytes of memory that a command may store to (O59): the header of a queue item is written whole, so an item
reaches past a slot that is shorter than its header. -/
namespace Sys2Proof.Machine

/-! ### The header of an item -/

@[simp] theorem queEvent_mem (q : Nat) (s : State) : (queEvent q s).mem = s.mem := raise_mem _ _ _ _

@[simp] theorem onlyIf_queEvent_mem (q : Nat) (c : Bool) (s : State) : (onlyIf c (queEvent q) s).mem = s.mem := by
  unfold onlyIf
  split
  · exact queEvent_mem q s
  · rfl

/-- An item that is put into a queue has its FLAGS in the third byte from the slot's address on (Table QUE-2), whatever
the size of the slot is. -/
theorem mget_quePush_flags {q : Nat} {s : State} (henabled : queEnabled q s = true) (hroom : queFull q s = false)
    (flags src : Nat) (stamp : DWord) (payload : List Byte) :
    mget (queAddr q (queHead q s) s + 2) (quePush q flags src stamp payload s)
      = BitVec.ofNat 8 (flags + (decide (queSlot q s - 16 < payload.length)).toNat) := by
  simp only [mget, quePush, henabled, hroom, Bool.not_true, Bool.false_eq_true, if_false, onlyIf_queEvent_mem, setFld_mem]
  refine (mget_msetBytes _ _ _ _).trans ((if_pos ?_).trans ?_)
  · simp [leBytes]
  · rw [Nat.add_sub_cancel_left]
    rfl

/-- A GOOSE message for this module that arrives once on a plant port goes into Q9 (R508, Table NET-1). -/
theorem exec_plantFrameReceive_goose {port : Bool} {s : State} (hup : portUp port.toNat s = true) (hhsr : hsr s = false)
    (src : BitVec 48) (frame : List Byte) :
    exec (.plantFrameReceive port src none .goose .mine frame) s
      = .next (quePush 9 0 port.toNat (moduleNs s) frame s) := by
  show execPlantFrameReceive port src none .goose .mine frame s = _
  simp [execPlantFrameReceive, hup, hhsr, plantDispatch, plantQueue]

/-! ### Slots shorter than a header -/

/-- The firmware's table for the start lists Q9 twice: with slots of 64 bytes, and with slots of one byte. -/
def q9Twice : List (Fin 64 × Word × Word × Word) :=
  [(9, 0x00040601, 0x0C000000, 0), (9, 0x00040001, 0x0C000000, 0)]

/-- A module in RUN with a link on NP0, after the load of that table: the second entry is refused (QUE_CFG_BAD), but the queue
that the first one enabled stays enabled with the refused size. -/
def oneByteSlots : State :=
  queueLoad q9Twice ({ State.reset with sup := { inReset := false } } |> setFld Fld.SUP_PWR_STATE_STATE 3
    |> setBitAt Reg.NET_CTRL 0 true |> setFlag (portLink 0) true)

theorem oneByteSlots_receives : portUp 0 oneByteSlots = true ∧ hsr oneByteSlots = false := by decide +kernel

theorem oneByteSlots_queue : queEnabled 9 oneByteSlots = true ∧ queFull 9 oneByteSlots = false
    ∧ queAddr 9 (queHead 9 oneByteSlots) oneByteSlots = 0x0C000000 ∧ queSlot 9 oneByteSlots = 1 := by decide +kernel

/-- The third byte from the slot's address on lies outside the slot and reads 0. -/
theorem oneByteSlots_third : inSlot 9 oneByteSlots 0x0C000002 = false ∧ mget 0x0C000002 oneByteSlots = 0 := by decide +kernel

/-- The FLAGS of a message that the slot cuts short stand there after the message arrived (R630). -/
theorem oneByteSlots_flags (b : Byte) :
    mget 0x0C000002 (quePush 9 0 0 (moduleNs oneByteSlots) [b] oneByteSlots) = 1 := by
  obtain ⟨henabled, hroom, haddr, hslot⟩ := oneByteSlots_queue
  have hflags := mget_quePush_flags henabled hroom 0 0 (moduleNs oneByteSlots) [b]
  rw [haddr, hslot] at hflags
  exact hflags

/-- Refutes O59: nothing asks that a slot holds the 16 bytes of an item's header. With slots of one byte in Q9, a GOOSE message
changes the byte two places past the slot's address, which is no byte of the slot. -/
theorem not_memoryFrames : ¬ Obligations.MemoryFrames := by
  unfold Obligations.MemoryFrames
  intro h
  obtain ⟨hup, hhsr⟩ := oneByteSlots_receives
  obtain ⟨houtside, hzero⟩ := oneByteSlots_third
  have signed : Signed := ⟨.test, true⟩
  have image : Image := ⟨0, 0, 0, [], [], [], [], [], [], [], [], 0, []⟩
  obtain ⟨-, -, hplant, -⟩ := h oneByteSlots 0x0C000002 0 false false false true true true 0 none .goose .mine [0] 0
    ⟨false, 0, false, false, false, false, 0, [], 0⟩ 0 0 0 0 none none ⟨0, 0, signed, none, false, [], ⟨0, 0, [], [], [], [], [], true⟩⟩
    none image signed 0 [] 0
  obtain ⟨t, hexec, hsame⟩ := hplant houtside
  have ht := Host.Outcome.next.inj ((exec_plantFrameReceive_goose (port := false) hup hhsr 0 [0]).symm.trans hexec)
  have hone : mget 0x0C000002 t = 1 := ht ▸ oneByteSlots_flags 0
  exact absurd (hone.symm.trans (hsame.trans hzero)) (by decide)

end Sys2Proof.Machine
end

section
/-! PROOFS. What chapter 8 shares (O25, O26): the status and event fields of a register through the operations that write
them, the cells of the Field region through an operation, and the fallback of this region. -/
namespace Sys2Proof.Machine

/-! ### Status and event fields -/

/-- A status field holds the status that is written. -/
theorem fld_setFld_status (f : RegField) (st : Status) (s : State) (hwidth : f.width = 16) (hlo : f.lo = 0) :
    fld f (setFld f st.toNat s) = st.toNat := by
  rw [fld_setFld_same _ _ _ (by omega), hwidth]
  exact Nat.mod_eq_of_lt st.isLt

/-- The RESULT field of a command shows its status. -/
theorem fld_result (f : RegField) (st : Status) (s : State) (hwidth : f.width = 16) (hlo : f.lo = 0) :
    fld f (result f st s) = st.toNat := by
  unfold result onlyIf
  split
  · rw [fld_say, fld_setFld_status f st s hwidth hlo]
  · exact fld_setFld_status f st s hwidth hlo

theorem flag_setFld_addr (f g : RegField) (v : Nat) (s : State) (h : g.addr ≠ f.addr) : flag g (setFld f v s) = flag g s := by
  rw [flag, fld_setFld_addr f g v s h, flag]

theorem fld_raiseF_addr (v : Nat) (f g : RegField) (s : State) (h : g.addr ≠ f.addr) : fld g (raiseF v f s) = fld g s := by
  rw [fld, rd_raiseF, if_neg h, fld]

theorem flag_raiseF_addr (v : Nat) (f g : RegField) (s : State) (h : g.addr ≠ f.addr) : flag g (raiseF v f s) = flag g s := by
  rw [flag, fld_raiseF_addr v f g s h, flag]

/-- An event bit is set once it is raised. -/
theorem flag_raiseF (v : Nat) (f : RegField) (s : State) (hwidth : f.width = 1) (hlo : f.lo < 32) :
    flag f (raiseF v f s) = true := by
  have hbit : (fld f (raiseF v f s)).testBit 0 = true := by
    rw [fld, rd_raiseF, if_pos rfl, fieldOf_testBit, BitVec.getLsbD_or, fieldMask_bit]
    simp [hwidth, hlo]
  rw [flag, bne_iff_ne]
  intro hzero
  rw [hzero, Nat.zero_testBit] at hbit
  exact Bool.false_ne_true hbit

theorem bitAt_setBitAt_true (a : Nat) {i : Nat} (hi : i < 32) (s : State) : bitAt a i (setBitAt a i true s) = true := by
  rw [bitAt, setBitAt, if_pos rfl, rd_orReg, if_pos rfl, BitVec.getLsbD_or, bitMask, BitVec.getLsbD_ofNat,
    Nat.testBit_two_pow_self]
  simp [hi]

/-! ### Folds of operations -/

/-- What every operation of a fold keeps, the fold keeps. -/
theorem forAll_keeps {α β : Type} {g : State → β} {f : α → State → State} (h : ∀ x u, g (f x u) = g u) (l : List α) :
    ∀ s, g (forAll l f s) = g s := by
  induction l with
  | nil => exact fun _ => rfl
  | cons x l ih => exact fun s => (ih (f x s)).trans (h x s)

/-- What one operation of a fold brings about and the others keep holds after the fold. -/
theorem forAll_reaches {α : Type} {P : State → Prop} {f : α → State → State} {x : α} {l : List α} (hx : x ∈ l)
    (hreach : ∀ u, P (f x u)) (hkeep : ∀ y ∈ l, ∀ u, P u → P (f y u)) (s : State) : P (forAll l f s) := by
  have hstays : ∀ (m : List α) (u : State), (∀ y ∈ m, y ∈ l) → P u → P (forAll m f u) := by
    intro m
    induction m with
    | nil => exact fun _ _ hu => hu
    | cons y m ih =>
      exact fun u hm hu => ih _ (fun z hz => hm z (List.mem_cons_of_mem y hz)) (hkeep y (hm y List.mem_cons_self) u hu)
  obtain ⟨before, after, rfl⟩ := List.append_of_mem hx
  have hsplit : forAll (before ++ x :: after) f s = forAll after f (f x (forAll before f s)) := List.foldl_append
  rw [hsplit]
  exact hstays after _ (by simp +contextual) (hreach _)

/-! ### The fallback of the Field region (R34, Table ARCH-4) -/

/-- The module level writes none of the fallback bits. -/
theorem rd_moduleFault_regions (st : Status) (s : State) : rd Reg.SUP_REGIONS (moduleFault st s) = rd Reg.SUP_REGIONS s := by
  have hreleased : ∀ u, Only [.block 0x09, .block 0x0C, .free, .strand, .pair, .can, .sup, .out] u
      (pairTo 6 (releaseAuth st u)) := fun u =>
    (pairTo_does _ _ (releaseAuth_does _ _ (Does.refl _ _) rfl) rfl).only
  have hebb : Only [.block 0x08, .free, .strand, .saf, .out] s (safEbb s) := (safEbb_does s (Does.refl _ _) rfl).only
  rw [moduleFault, moduleEbb, hreleased _ (.block 0x01) rfl _ rfl, rd_sayD, rd_raiseF, if_neg (by decide), rd_setFlag,
    if_neg (by decide), rd_setFlag, if_neg (by decide), hebb (.block 0x01) rfl _ rfl]

theorem inFallback_markFallback {r : Nat} (hr : r < 32) (s : State) : inFallback r (markFallback r s) = true := by
  have hlocks : ∀ p u, Only [.free, .strand, .mbx, .out] u (forceLocks p u) := fun p u =>
    (forceLocks_does p u (Does.refl _ _) rfl).only
  rw [inFallback, bitAt, markFallback, hlocks _ _ (.block 0x01) rfl _ rfl, rd_sayRegion, rd_raiseF, if_neg (by decide)]
  exact bitAt_setBitAt_true Reg.SUP_REGIONS hr s

/-- A region that enters its fallback is in fallback. -/
theorem inFallback_enterFallback {r : Nat} (hr : r < 32) (st : Status) (s : State) :
    inFallback r (enterFallback r st s) = true := by
  have hmarked := inFallback_markFallback hr (regionAction r st s)
  unfold enterFallback
  split
  case isTrue h => exact h
  case isFalse =>
    dsimp only
    split
    · rw [inFallback, bitAt, rd_moduleFault_regions]
      exact hmarked
    · exact hmarked

/-- What the fallback of the Field region reaches: no cell, no bank and no term, and none of their registers. -/
def fieldFallbackParts : List Part :=
  [.block 0x01, .block 0x02, .block 0x08, .block 0x09, .block 0x0C, .free, .strand, .tides, .seqs, .saf, .pair, .can, .sup,
    .mbx, .out]

theorem enterFallback_field_does {b s : State} (st : Status) (h : Does fieldFallbackParts b s) :
    Does fieldFallbackParts b (enterFallback 2 st s) := by
  have hmarked : Does fieldFallbackParts b (markFallback 2 (regionAction 2 st s)) :=
    markFallback_does _ _ (tidesHold_does _ (seqsFault_does _ (setFlag_does _ _ _ h rfl) rfl) rfl) rfl
  unfold enterFallback
  exact ite_does (fun _ => h) fun _ => ite_does (fun _ => moduleFault_does _ _ hmarked rfl) fun _ => hmarked

/-- The isolation of a bank of the Field region reaches no more, even when it climbs to the region (R33). -/
theorem isolateBank_field_only (b : Nat) (s : State) : Only fieldFallbackParts s (isolateBank 2 b s) := by
  have hnoted : ∀ v, Does fieldFallbackParts s { s with sup := v } := fun _ => upd_sup (Does.refl _ _) rfl
  unfold isolateBank
  exact (ite_does (fun _ => enterFallback_field_does _ (sayRegion_does _ _ (hnoted _) rfl)) fun _ => hnoted _).only

end Sys2Proof.Machine
end

section
/-! PROOFS. The commands of the reflex matrix (O26): a term through an operation, the loading of a term, READ, RESET_LATCH, the
descriptor check and the record that a standby side follows. -/
namespace Sys2Proof.Machine

/-! ### A term through an operation -/

@[simp] theorem term_onTerm_same (j : Nat) (f : Term → Term) (s : State) : term j (onTerm j f s) = f (term j s) :=
  Sparse.get_set_same _ _ _ _

theorem term_onTerm_other {j m : Nat} (h : m ≠ j) (f : Term → Term) (s : State) : term m (onTerm j f s) = term m s :=
  Sparse.get_set_other _ _ _ h

/-- A term reads the same from states with the same terms. -/
theorem term_congr {s t : State} (h : t.terms = s.terms) (j : Nat) : term j t = term j s := by rw [term, term, h]

theorem result_terms (f : RegField) (st : Status) (s : State) : (result f st s).terms = s.terms := by
  unfold result onlyIf
  split
  · exact say_terms _ _
  · rfl

theorem fld_rfxResult (st : Status) (s : State) : fld Fld.RFX_RESULT_STATUS (result Fld.RFX_RESULT_STATUS st s) = st.toNat :=
  fld_result _ _ _ rfl rfl

/-! ### WRITE and DISABLE (R335, R341) -/

/-- The selected term is replaced, the check word follows, and the command succeeds. -/
def termStored (x : Term) (s : State) : State :=
  let t := onTerm (rfxSel s) (fun _ => x) s
  result Fld.RFX_RESULT_STATUS Code.RFX_OK (wr Reg.RFX_CRC (rfxCrc t) t)

theorem termStored_terms (x : Term) (s : State) : (termStored x s).terms = (onTerm (rfxSel s) (fun _ => x) s).terms :=
  result_terms _ _ _

theorem term_termStored_same (x : Term) (s : State) : term (rfxSel s) (termStored x s) = x := by
  rw [term_congr (termStored_terms x s), term_onTerm_same]

theorem term_termStored_other {m : Nat} {s : State} (h : m ≠ rfxSel s) (x : Term) : term m (termStored x s) = term m s := by
  rw [term_congr (termStored_terms x s), term_onTerm_other h]

/-- The term that WRITE loads: the descriptor of the data registers, unlatched, with its output as it was. -/
def loadedTerm (s : State) : Term :=
  { desc := (List.range 16).map (fun i => rd (Reg.RFX_DATA i) s), out := (term (rfxSel s) s).out }

theorem w_loadedTerm (i : Fin 16) (s : State) : (loadedTerm s).w i = rd (Reg.RFX_DATA i) s := by
  simp [Term.w, loadedTerm, List.getD]

/-- WRITE refuses a descriptor with the first check that fails. -/
def writeRefused (st : Status) (s : State) : State :=
  result Fld.RFX_RESULT_STATUS st (raiseF 0x08 Fld.RFX_EVENT_CFG_REFUSED s)

theorem exec_rfxWrite_sound {s : State} (hok : hostOk Reg.RFX_CMD .write s = true)
    (hcheck : rfxCheck (loadedTerm s) s = none) : exec .rfxWrite s = .next (termStored (loadedTerm s) s) := by
  show execRfxWrite s = _
  rw [loadedTerm] at hcheck
  simp only [execRfxWrite, hostCmd_of_ok _ hok, hcheck]
  rfl

theorem exec_rfxWrite_refused {s : State} (hok : hostOk Reg.RFX_CMD .write s = true) {st : Status}
    (hcheck : rfxCheck (loadedTerm s) s = some st) : exec .rfxWrite s = .next (writeRefused st s) := by
  show execRfxWrite s = _
  rw [loadedTerm] at hcheck
  simp only [execRfxWrite, hostCmd_of_ok _ hok, hcheck]
  rfl

theorem writeRefused_terms (st : Status) (s : State) : (writeRefused st s).terms = s.terms :=
  (result_terms _ _ _).trans (raiseF_terms _ _ _)

theorem flag_writeRefused (st : Status) (s : State) : flag Fld.RFX_EVENT_CFG_REFUSED (writeRefused st s) = true := by
  have hevent : rd Reg.RFX_EVENT (writeRefused st s) = rd Reg.RFX_EVENT (raiseF 0x08 Fld.RFX_EVENT_CFG_REFUSED s) := by
    rw [writeRefused, rd_result, if_neg (by decide)]
  rw [flag_of_rd hevent]
  exact flag_raiseF _ _ _ rfl (by decide)

/-- A term without its enable bit, its latch and its output. -/
def disabledTerm (x : Term) : Term :=
  { x with
    desc := if x.desc.isEmpty then [] else (x.w 0 &&& ~~~ bitMask 31) :: x.desc.drop 1
    latch := false
    out := false }

theorem exec_rfxDisable {s : State} (hok : hostOk Reg.RFX_CMD .write s = true) :
    exec .rfxDisable s = .next (termStored (disabledTerm (term (rfxSel s) s)) s) :=
  congrArg Host.Outcome.next (hostCmd_of_ok _ hok)

theorem termOn_disabledTerm (x : Term) : termOn (disabledTerm x) = false := by
  cases h : x.desc with
  | nil => simp [termOn, disabledTerm, h]
  | cons a l => simp [termOn, disabledTerm, h, bitMask]

/-- The other words of the descriptor stay. -/
theorem w_disabledTerm {i : Nat} (hi : i ≠ 0) (x : Term) : (disabledTerm x).w i = x.w i := by
  obtain ⟨k, rfl⟩ := Nat.exists_eq_succ_of_ne_zero hi
  cases h : x.desc with
  | nil => simp [Term.w, disabledTerm, h]
  | cons a l => simp [Term.w, disabledTerm, h]

/-! ### READ (R334) -/

/-- The data registers after READ. -/
def dataLoaded (s : State) : State :=
  forAll (List.range 16) (fun i => wr (Reg.RFX_DATA i) ((term (rfxSel s) s).w i)) s

theorem exec_rfxRead {s : State} (hok : hostOk Reg.RFX_CMD .write s = true) :
    exec .rfxRead s = .next (result Fld.RFX_RESULT_STATUS Code.RFX_OK (dataLoaded s)) :=
  congrArg Host.Outcome.next (hostCmd_of_ok _ hok)

theorem dataLoaded_terms (s : State) : (dataLoaded s).terms = s.terms := by
  unfold dataLoaded
  exact forAll_keeps (g := State.terms) (fun i u => wr_terms _ _ u) _ s

theorem rfxData_inj {i k : Nat} (hi : i < 16) (hk : k < 16) (h : Reg.RFX_DATA i = Reg.RFX_DATA k) : i = k := by
  simp only [Reg.RFX_DATA] at h
  omega

/-- Each data register shows its word of the descriptor. -/
theorem rd_dataLoaded (i : Fin 16) (s : State) : rd (Reg.RFX_DATA i) (dataLoaded s) = (term (rfxSel s) s).w i := by
  unfold dataLoaded
  refine forAll_reaches (P := fun u => rd (Reg.RFX_DATA i) u = (term (rfxSel s) s).w i) (List.mem_range.2 i.isLt)
    (fun u => ?_) (fun k hk u hu => ?_) s
  · rw [rd_wr, if_pos rfl]
  · rw [rd_wr]
    split
    case isTrue h => rw [rfxData_inj i.isLt (List.mem_range.1 hk) h]
    case isFalse => exact hu

/-! ### RESET_LATCH (R336) -/

/-- A reset of a latching term whose function is 0 leaves it unlatched with its output off, whichever input dominates. -/
theorem rfxStep_reset {x : Term} {s : State} (hon : termOn x = true) (hlatching : x.latching = true)
    (hzero : (x.w (4 + rfxIndex x s / 32)).getLsbD (rfxIndex x s % 32) = false) :
    rfxStep x true s = { x with latch := false, out := false } := by
  simp [rfxStep, hon, hlatching, hzero]

theorem rfxReport_terms (j : Nat) (x y : Term) (s t : State) : (rfxReport j x y s t).terms = t.terms :=
  ((rfxReport_does (A := [.block 0x07, .free, .strand, .out]) j x y s t (Does.refl _ _) rfl).only .rfx rfl).1

/-- The evaluation of a term replaces it by its step. -/
theorem term_rfxTerm_same (j : Nat) (cmd : Bool) (s : State) : term j (rfxTerm j cmd s s) = rfxStep (term j s) cmd s := by
  unfold rfxTerm
  dsimp only
  split
  case isTrue h => exact h.symm
  case isFalse => rw [term_congr (rfxReport_terms _ _ _ _ _), term_onTerm_same]

theorem term_rfxTerm_other {j m : Nat} (h : m ≠ j) (cmd : Bool) (s : State) : term m (rfxTerm j cmd s s) = term m s := by
  unfold rfxTerm
  dsimp only
  split
  · rfl
  · rw [term_congr (rfxReport_terms _ _ _ _ _), term_onTerm_other h]

theorem exec_rfxResetLatch {s : State} (hok : hostOk Reg.RFX_CMD .write s = true) (hruns : rfxRuns s = true) :
    exec .rfxResetLatch s = .next (result Fld.RFX_RESULT_STATUS Code.RFX_OK (rfxTerm (rfxSel s) true s s)) := by
  show execRfxResetLatch s = _
  simp only [execRfxResetLatch, hostCmd_of_ok _ hok, onlyIf, hruns, if_true]

/-! ### The descriptor check (R344) -/

/-- A failed check stops the matrix and reports it. -/
def matrixStopped (s : State) : State :=
  { s with rfxStopped := true } |> raiseF 0x08 Fld.RFX_EVENT_CHECK_FAIL |> say Code.RFX_CHECK_FAIL

theorem exec_rfxCrcCheck_fails {s : State} (hup : regionsUp s = true) (hruns : s.rfxStopped = false) :
    exec (.rfxCrcCheck false) s = .next (enterFallback 2 Code.RFX_CHECK_FAIL (matrixStopped s)) := by
  show execRfxCrcCheck false s = _
  simp only [execRfxCrcCheck, hup, hruns, Bool.not_true, Bool.or_self, Bool.false_eq_true, if_false]
  rfl

theorem enterFallback_field_only (st : Status) (s : State) : Only fieldFallbackParts s (enterFallback 2 st s) :=
  (enterFallback_field_does st (Does.refl _ _)).only

theorem rfxStopped_fallback (st : Status) (s : State) : (enterFallback 2 st (matrixStopped s)).rfxStopped = true := by
  rw [(enterFallback_field_only st _ .rfx rfl).2, matrixStopped, say_rfxStopped, raiseF_rfxStopped]

theorem flag_checkFail_fallback (st : Status) (s : State) :
    flag Fld.RFX_EVENT_CHECK_FAIL (enterFallback 2 st (matrixStopped s)) = true := by
  rw [flag_of_rd (enterFallback_field_only st _ (.block 0x07) rfl _ rfl), matrixStopped, flag_say]
  exact flag_raiseF _ _ _ rfl (by decide)

theorem rfxRuns_of_stopped {s : State} (h : s.rfxStopped = true) : rfxRuns s = false := by simp [rfxRuns, h]

/-! ### The record of a standby side (R346) -/

/-- The terms whose latches a record shows. -/
def latchesSet (l : List Nat) (s : State) : State := forAll l (fun j => onTerm j (fun x => { x with latch := true })) s

theorem exec_reflexRecord {s : State} (hup : regionsUp s = true) (hstandby : onStandby s = true) (latches : BitVec 64) :
    exec (.reflexRecord latches) s
      = .next (latchesSet ((List.range 64).filter (fun j => latches.getLsbD j)) s) := by
  show execReflexRecord latches s = _
  simp only [execReflexRecord, hup, hstandby, Bool.and_self, if_true]
  rfl

/-- A listed term is latched, and nothing else of a term changes. -/
theorem term_latchesSet (j : Nat) (l : List Nat) (s : State) :
    term j (latchesSet l s) = { term j s with latch := (term j s).latch || l.contains j } := by
  induction l generalizing s with
  | nil => simp [latchesSet, forAll]
  | cons m l ih =>
    have hcons : latchesSet (m :: l) s = latchesSet l (onTerm m (fun x => { x with latch := true }) s) := rfl
    rw [hcons, ih]
    by_cases h : j = m
    · subst h
      simp
    · simp [term_onTerm_other h, h]

/-! ### The obligation -/

/-- Settles O26: WRITE and DISABLE store the selected term, RESET_LATCH steps it, a failed check enters the Field region's
fallback, and a record only sets latches. -/
theorem reflexMatrix : Obligations.ReflexMatrix := by
  intro s j m i _ latches
  have hother : m ≠ j → m.val ≠ j.val := fun h => Fin.val_ne_of_ne h
  refine ⟨fun hok hsel hcheck => ?_, fun hok hsel hcheck => ?_, fun hok hsel => ?_, fun hok hsel => ?_,
    fun hok hsel hruns hon hlatching hzero => ?_, fun hup hruns => ?_, fun hup hstandby => ?_⟩
  · rw [← hsel] at hcheck hother ⊢
    refine ⟨_, exec_rfxWrite_sound hok hcheck, ?_, ?_, ?_, fun h => term_termStored_other (hother h) _, fld_rfxResult _ _⟩ <;>
      rw [term_termStored_same]
    · exact w_loadedTerm i s
    · rfl
    · rfl
  · rw [← hsel] at hcheck ⊢
    obtain ⟨st, hst⟩ := Option.isSome_iff_exists.1 hcheck
    refine ⟨_, exec_rfxWrite_refused hok hst, writeRefused_terms st s, flag_writeRefused st s, ?_⟩
    rw [hst, writeRefused, fld_rfxResult]
    rfl
  · refine ⟨_, exec_rfxRead hok, ?_, (result_terms _ _ _).trans (dataLoaded_terms s), fld_rfxResult _ _⟩
    have hresult : ∀ k, Reg.RFX_DATA k ≠ Reg.RFX_RESULT := fun k => by simp only [Reg.RFX_DATA, Reg.RFX_RESULT]; omega
    rw [rd_result, if_neg (hresult i), rd_dataLoaded, hsel]
  · rw [← hsel] at hother ⊢
    refine ⟨_, exec_rfxDisable hok, ?_, ?_, ?_, fun hi => ?_, fun h => term_termStored_other (hother h) _⟩
    · rw [term_termStored_same, termOn_disabledTerm]
    · rw [term_termStored_same, disabledTerm]
    · rw [term_termStored_same, disabledTerm]
    · rw [term_termStored_same, w_disabledTerm (fun h => hi (Fin.ext h))]
  · rw [← hsel] at hother hon hlatching hzero ⊢
    have hterm : ∀ n, term n (result Fld.RFX_RESULT_STATUS Code.RFX_OK (rfxTerm (rfxSel s) true s s))
        = term n (rfxTerm (rfxSel s) true s s) := term_congr (result_terms _ _ _)
    have hreset := (hterm _).trans ((term_rfxTerm_same _ _ _).trans (rfxStep_reset hon hlatching hzero))
    refine ⟨_, exec_rfxResetLatch hok hruns, ?_⟩
    dsimp only
    rw [hreset]
    exact ⟨rfl, rfl, rfl, fun h => (hterm m).trans (term_rfxTerm_other (hother h) _ _)⟩
  · have hstopped := rfxStopped_fallback Code.RFX_CHECK_FAIL s
    exact ⟨_, exec_rfxCrcCheck_fails hup hruns, hstopped, inFallback_enterFallback (by decide) _ _,
      rfxRuns_of_stopped hstopped, flag_checkFail_fallback _ _⟩
  · have hterm := term_latchesSet j ((List.range 64).filter (fun j => latches.getLsbD j)) s
    have hlisted : ((List.range 64).filter (fun j => latches.getLsbD j)).contains j.val = latches.getLsbD j := by
      simp only [List.contains_eq_mem, List.mem_filter, List.mem_range, j.isLt, true_and, Bool.decide_eq_true]
    refine ⟨_, exec_reflexRecord hup hstandby latches, ?_⟩
    dsimp only
    rw [hterm, hlisted]
    exact ⟨rfl, rfl, rfl⟩

end Sys2Proof.Machine
end

section
/-! PROOFS. The supplies of a DIO bank (O25): a bank through an operation, the supply and its comparators, the commands of a
bank, and the isolation and keep-alive of its driver. -/
namespace Sys2Proof.Machine

/-! ### A bank through an operation -/

@[simp] theorem dioBank_onDioBank (k : Nat) (f : DioBank → DioBank) (s : State) :
    dioBank k (onDioBank k f s) = f (dioBank k s) := Sparse.get_set_same _ _ _ _

/-- A bank reads the same from states with the same banks. -/
theorem dioBank_congr {s t : State} (h : t.dioBank = s.dioBank) (k : Nat) : dioBank k t = dioBank k s := by
  rw [dioBank, dioBank, h]

@[simp] theorem dioBank_setFld (k : Nat) (f : RegField) (v : Nat) (s : State) : dioBank k (setFld f v s) = dioBank k s := rfl
@[simp] theorem dioBank_setFlag (k : Nat) (f : RegField) (b : Bool) (s : State) : dioBank k (setFlag f b s) = dioBank k s := rfl
@[simp] theorem dioBank_bump (k : Nat) (f : RegField) (s : State) : dioBank k (bump f s) = dioBank k s := rfl
@[simp] theorem dioBank_dioVolt (k b : Nat) (mv : BitVec 16) (s : State) : dioBank k (dioVolt b mv s) = dioBank k s := rfl
@[simp] theorem dioBank_onAnBank (k b : Nat) (f : AnBank → AnBank) (s : State) : dioBank k (onAnBank b f s) = dioBank k s := rfl
@[simp] theorem dioBank_unisolateBank (k r b : Nat) (s : State) : dioBank k (unisolateBank r b s) = dioBank k s := rfl
@[simp] theorem dioBank_say (k : Nat) (st : Status) (s : State) : dioBank k (say st s) = dioBank k s :=
  dioBank_congr (say_dioBank st s) k
@[simp] theorem dioBank_raiseF (k v : Nat) (f : RegField) (s : State) : dioBank k (raiseF v f s) = dioBank k s :=
  dioBank_congr (raiseF_dioBank v f s) k

@[simp] theorem anBank_onAnBank (k : Nat) (f : AnBank → AnBank) (s : State) : anBank k (onAnBank k f s) = f (anBank k s) :=
  Sparse.get_set_same _ _ _ _

@[simp] theorem fld_onDioBank (g : RegField) (k : Nat) (f : DioBank → DioBank) (s : State) :
    fld g (onDioBank k f s) = fld g s := rfl
@[simp] theorem flag_onDioBank (g : RegField) (k : Nat) (f : DioBank → DioBank) (s : State) :
    flag g (onDioBank k f s) = flag g s := rfl

/-! ### The registers of a bank lie apart -/

theorem bankReg_apart {a b : Nat} (h : a ≠ b) (k : Nat) : a + 0x10 * (k % 4) ≠ b + 0x10 * (k % 4) :=
  fun e => h (Nat.add_right_cancel e)

theorem bankReg_above {a b : Nat} (h : b < a) (k : Nat) : b ≠ a + 0x10 * (k % 4) := by omega

/-- The converter's register shows the reading of the supply. -/
theorem fld_dioVolt (k : Nat) (mv : BitVec 16) (s : State) : fld (Fld.DIO_BANKk_VOLT_MV k) (dioVolt k mv s) = mv.toNat :=
  fld_setFld_status _ mv s rfl rfl

/-- A counter of a bank is no event. -/
theorem flag_bump_counts (g : RegField) (hg : g.addr = Reg.DIO_EVENT) {f : RegField} {k : Nat}
    (hf : f.addr = Reg.DIO_BANKk_COUNTS k) (s : State) : flag g (bump f s) = flag g s :=
  flag_setFld_addr _ _ _ _ (by rw [hg, hf]; exact bankReg_above (by decide) k)

/-! ### The supply and its comparators (R326 to R328, R331, R369) -/

/-- Below 19.2 V the bank warns. -/
def bankWarned (k : Nat) (mv : BitVec 16) (s : State) : State :=
  s |> dioVolt k mv |> onDioBank k (fun b => { b with warn := true, reenReady := false })
    |> raiseF 0x06 Fld.DIO_EVENT_BANK_WARN |> bump (Fld.DIO_BANKk_COUNTS_WARN k) |> say Code.DIO_BANK_WARN

theorem exec_dioBankWarn {k : Fin 4} {s : State} (hup : regionsUp s = true) (hwarn : (dioBank k s).warn = false)
    (mv : BitVec 16) : exec (.dioBankWarn k mv) s = .next (bankWarned k mv s) := by
  show execDioBankWarn k mv s = _
  simp only [execDioBankWarn, hup, hwarn, Bool.not_true, Bool.or_self, Bool.false_eq_true, if_false]
  rfl

theorem dioBank_bankWarned (k : Nat) (mv : BitVec 16) (s : State) :
    dioBank k (bankWarned k mv s) = { dioBank k s with warn := true, reenReady := false } := by
  simp [bankWarned]

theorem fld_bankWarned (k : Nat) (mv : BitVec 16) (s : State) :
    fld (Fld.DIO_BANKk_VOLT_MV k) (bankWarned k mv s) = mv.toNat := by
  rw [bankWarned, fld_say, bump, fld_setFld_addr _ _ _ _ (bankReg_apart (by decide) k),
    fld_raiseF_addr _ _ _ _ (bankReg_above (by decide) k).symm, fld_onDioBank, fld_dioVolt]

theorem flag_bankWarned (k : Nat) (mv : BitVec 16) (s : State) :
    flag Fld.DIO_EVENT_BANK_WARN (bankWarned k mv s) = true := by
  rw [bankWarned, flag_say, flag_bump_counts _ rfl rfl]
  exact flag_raiseF _ _ _ rfl (by decide)

theorem exec_dioBankWarnClear {k : Fin 4} {s : State} (hup : regionsUp s = true) (hlow : (dioBank k s).low = false)
    (mv : BitVec 16) : exec (.dioBankWarnClear k mv) s
      = .next (s |> dioVolt k mv |> onDioBank k (fun b => { b with warn := false, reenReady := true })) := by
  show execDioBankWarnClear k mv s = _
  simp only [execDioBankWarnClear, hup, hlow, Bool.not_false, Bool.and_self, if_true]

/-- Below 15.0 V the bank is low, before the analog bank that it feeds follows. -/
def bankLow (k : Nat) (mv : BitVec 16) (s : State) : State :=
  s |> dioVolt k mv |> onDioBank k (fun b => { b with low := true, reenReady := false }) |> say Code.DIO_BANK_LOW

theorem exec_dioBankLow {k : Fin 4} {s : State} (hup : regionsUp s = true) (hlow : (dioBank k s).low = false)
    (mv : BitVec 16) : exec (.dioBankLow k mv) s = .next (anaLoopLow k (bankLow k mv s)) := by
  show execDioBankLow k mv s = _
  simp only [execDioBankLow, hup, hlow, Bool.not_true, Bool.or_self, Bool.false_eq_true, if_false]
  rfl

theorem anaLoopLow_only (k : Nat) (s : State) : Only [.block 0x06, .free, .strand, .ana, .out] s (anaLoopLow k s) :=
  (anaLoopLow_does k s (Does.refl _ _) rfl).only

theorem dioBank_anaLoopLow (k b : Nat) (s : State) : dioBank k (anaLoopLow b s) = dioBank k s :=
  dioBank_congr (anaLoopLow_only b s .dio rfl).2.1 k

/-- The faults of the channels leave the bank's own mark. -/
theorem anBank_anaLoopLow (k : Nat) (s : State) : anBank k (anaLoopLow k s) = { anBank k s with loopLow := true } := by
  unfold anaLoopLow
  rw [forAll_keeps (g := anBank k), anBank_onAnBank]
  intro n u
  rw [anBank, anFaultSet, say_anBank, raiseF_anBank]
  rfl

theorem dioBank_bankLow (k : Nat) (mv : BitVec 16) (s : State) :
    dioBank k (bankLow k mv s) = { dioBank k s with low := true, reenReady := false } := by
  simp [bankLow]

theorem dioReg_above {b : Nat} (n : Nat) (h : b < 0x050100) : 0x050100 + 0x8 * (n % 32) ≠ b := by omega

/-- A low supply does not turn a channel round. -/
theorem dioDir_bankLow (n : Nat) (k : Fin 4) (mv : BitVec 16) (s : State) :
    dioDir n (anaLoopLow k (bankLow k mv s)) = dioDir n s := by
  have hvolt : 0x050048 + 0x10 * (k.val % 4) < 0x050100 := by omega
  have hblock : (0x050100 + 0x8 * (n % 32)) / 65536 = 5 := by omega
  rw [dioDir, flag_of_rd (anaLoopLow_only k _ (.block 5) rfl _ hblock), bankLow, flag_say, flag_onDioBank, dioVolt,
    flag_setFld_addr _ _ _ _ (dioReg_above n hvolt), dioDir]

/-- The inputs of a low bank are invalid (R327). -/
theorem dioInvalid_of_low {n : Nat} {s : State} (hdir : dioDir n s = false) (hlow : (dioBank (n / 8) s).low = true) :
    dioInvalid n s = true := by
  simp [dioInvalid, hdir, hlow]

theorem exec_dioBankLowClear {s : State} (hup : regionsUp s = true) (k : Fin 4) (mv : BitVec 16) :
    exec (.dioBankLowClear k mv) s = .next (s |> dioVolt k mv |> onDioBank k (fun b => { b with low := false })
      |> onAnBank k (fun b => { b with loopLow := false })) := by
  show execDioBankLowClear k mv s = _
  simp only [execDioBankLowClear, hup, if_true]

/-- A bank goes off and is counted. -/
def bankOpened (st : DioBankState) (code : Status) (k : Nat) (s : State) : State :=
  s |> onDioBank k (fun b => { b with st := st, switch := false }) |> raiseF 0x06 Fld.DIO_EVENT_BANK_OFF
    |> bump (Fld.DIO_BANKk_COUNTS_OFF k) |> say code

theorem dioBank_bankOpened (st : DioBankState) (code : Status) (k : Nat) (s : State) :
    dioBank k (bankOpened st code k s) = { dioBank k s with st := st, switch := false } := by
  simp [bankOpened]

theorem flag_bankOpened (st : DioBankState) (code : Status) (k : Nat) (s : State) :
    flag Fld.DIO_EVENT_BANK_OFF (bankOpened st code k s) = true := by
  rw [bankOpened, flag_say, flag_bump_counts _ rfl rfl]
  exact flag_raiseF _ _ _ rfl (by decide)

theorem exec_dioBankLatchoff {k : Fin 4} {s : State} (hup : regionsUp s = true) (hlow : (dioBank k s).low = true)
    (hon : (dioBank k s).st = .on) :
    exec (.dioBankLatchoff k false) s = .next (bankOpened .latchedOff Code.DIO_BANK_LATCHOFF k s) := by
  show execDioBankLatchoff k false s = _
  simp only [execDioBankLatchoff, hup, hlow, hon, dioTie, Bool.not_true, Bool.or_self, Bool.false_eq_true, if_false,
    beq_self_eq_true, if_true]
  rfl

theorem exec_dioBankOvercurrent {k : Fin 4} {s : State} (hup : regionsUp s = true) (hon : (dioBank k s).st = .on) :
    exec (.dioBankOvercurrent k) s = .next (bankOpened .switchedOff Code.DIO_BANK_SWITCHOFF k s) := by
  show execDioBankOvercurrent k s = _
  simp only [execDioBankOvercurrent, hup, dioSwitchOff, hon, bne_self_eq_false, Bool.false_eq_true, if_false, if_true]
  rfl

/-! ### REENABLE and RECOVER (R329, R347) -/

/-- DIO_BANK_RESULT shows the status. -/
theorem fld_bankResult (st : Status) (s : State) :
    fld Fld.DIO_BANK_RESULT_STATUS (setFld Fld.DIO_BANK_RESULT_STATUS st.toNat s) = st.toNat :=
  fld_setFld_status _ _ _ rfl rfl

/-- The bank is off in a way that a re-enable ends, and its supply is good. -/
def reenables (k : Nat) (s : State) : Bool :=
  ((dioBank k s).st == .latchedOff || (dioBank k s).st == .switchedOff) && (dioBank k s).reenReady

theorem exec_dioBankReenable {k : Fin 4} {s : State} (hok : hostOk Reg.DIO_BANK_CMD .write s = true) :
    exec (.dioBankReenable k) s = .next (setFld Fld.DIO_BANK_RESULT_STATUS
      (if reenables k s then Code.DIO_OK else Code.DIO_REEN_REFUSED).toNat
      (if reenables k s then dioReenable k s else say Code.DIO_REEN_REFUSED s)) :=
  congrArg Host.Outcome.next (hostCmd_of_ok _ hok)

/-- A re-enabled bank is as its EN bit says, whatever its channels were stuck at. -/
theorem dioBank_dioReenable (k : Nat) (s : State) : dioBank k (dioReenable k s) = { dioBank k s with
    st := if flag (Fld.DIO_BANKk_CFG_EN k) s then .on else .disabled, switch := flag (Fld.DIO_BANKk_CFG_EN k) s } := by
  rw [dioReenable, dioBank_say, dioBank_raiseF, forAll_keeps (g := dioBank k), dioBank_onDioBank]
  exact fun _ _ => rfl

/-- A recovered bank is as its EN bit says. -/
def bankRecovered (k : Nat) (s : State) : State :=
  s |> onDioBank k (fun b => { b with
      st := if flag (Fld.DIO_BANKk_CFG_EN k) s then .on else .disabled, switch := flag (Fld.DIO_BANKk_CFG_EN k) s })
    |> unisolateBank 2 k |> setFld Fld.DIO_BANK_RESULT_STATUS Code.DIO_OK.toNat

theorem exec_dioBankRecover_passes {k : Fin 4} {s : State} (hok : hostOk Reg.DIO_BANK_CMD .write s = true)
    (hisolated : (dioBank k s).st = .isolated) : exec (.dioBankRecover k true) s = .next (bankRecovered k s) := by
  show execDioBankRecover k true s = _
  simp only [execDioBankRecover, hostCmd_of_ok _ hok, hisolated, beq_self_eq_true, Bool.and_self, if_true]
  rfl

/-- Without a passed self-check only the result register changes. -/
theorem exec_dioBankRecover_fails {k : Fin 4} {s : State} (hok : hostOk Reg.DIO_BANK_CMD .write s = true) :
    exec (.dioBankRecover k false) s
      = .next (withFree (fun d => setFld Fld.DIO_BANK_RESULT_STATUS (d.toNat % 65536)) s) := by
  show execDioBankRecover k false s = _
  simp only [execDioBankRecover, hostCmd_of_ok _ hok, Bool.and_false, Bool.false_eq_true, if_false]

/-! ### The enable of a bank (R311) -/

/-- The enable bit shows what is written. -/
theorem flag_bankEnable (k : Nat) (b : Bool) (s : State) :
    flag (Fld.DIO_BANKk_CFG_EN k) (setFlag (Fld.DIO_BANKk_CFG_EN k) b s) = b :=
  flag_setFlag_same _ _ _ rfl (by simp)

/-- A disabled bank turns on with its enable bit. -/
def bankEnabled (k : Nat) (s : State) : State :=
  s |> setFlag (Fld.DIO_BANKk_CFG_EN k) true
    |> onDioBank k (fun b => if b.st == .disabled then { b with st := .on, switch := true } else b)

theorem exec_dioBankEnable_fits {k : Fin 4} {s : State} (hok : hostOk (Reg.DIO_BANKk_CFG k) .write s = true)
    (hoff : flag (Fld.DIO_BANKk_CFG_EN k) s = false) (hfits : dioDirConflict k s = false) :
    exec (.dioBankEnable k true) s = .next (bankEnabled k s) := by
  show execDioBankEnable k true s = _
  simp only [execDioBankEnable, hostCmd_of_ok _ hok, hoff, hfits, Bool.false_eq_true, if_false, if_true]
  rfl

theorem dioBank_bankEnabled {k : Nat} {s : State} (h : (dioBank k s).st = .disabled) :
    dioBank k (bankEnabled k s) = { dioBank k s with st := .on, switch := true } := by
  simp [bankEnabled, h]

/-- A conflict of direction is reported, and the bank stays disabled. -/
theorem exec_dioBankEnable_conflict {k : Fin 4} {s : State} (hok : hostOk (Reg.DIO_BANKk_CFG k) .write s = true)
    (hoff : flag (Fld.DIO_BANKk_CFG_EN k) s = false) (hconflict : dioDirConflict k s = true) :
    exec (.dioBankEnable k true) s
      = .next (say Code.DIO_DIR_CONFLICT (raiseF 0x06 Fld.DIO_EVENT_DIR_CONFLICT s)) := by
  show execDioBankEnable k true s = _
  simp only [execDioBankEnable, hostCmd_of_ok _ hok, hoff, hconflict, Bool.false_eq_true, if_false, if_true]

/-- Without its enable bit a bank opens its switch, and one that was on is disabled. -/
def bankDisabled (k : Nat) (s : State) : State :=
  s |> setFlag (Fld.DIO_BANKk_CFG_EN k) false
    |> onDioBank k (fun b => { b with st := if b.st == .on then .disabled else b.st, switch := false })

theorem exec_dioBankEnable_off {k : Fin 4} {s : State} (hok : hostOk (Reg.DIO_BANKk_CFG k) .write s = true) :
    exec (.dioBankEnable k false) s = .next (bankDisabled k s) := by
  show execDioBankEnable k false s = _
  simp only [execDioBankEnable, hostCmd_of_ok _ hok, Bool.false_eq_true, if_false]
  rfl

theorem dioBank_bankDisabled {k : Nat} {s : State} (h : (dioBank k s).st = .on) :
    dioBank k (bankDisabled k s) = { dioBank k s with st := .disabled, switch := false } := by
  simp [bankDisabled, h]

/-! ### The isolation and the keep-alive of a driver (R332, R347) -/

/-- The bank as it is isolated, before the region counts it (R33). -/
def bankIsolated (k : Nat) (s : State) : State :=
  s |> onDioBank k (fun b => { b with st := .isolated, switch := false }) |> raiseF 0x06 Fld.DIO_EVENT_BANK_ISO
    |> say Code.DIO_BANK_ISOLATED

theorem exec_dioBankIsolated {k : Fin 4} {s : State} (hup : regionsUp s = true) (hst : (dioBank k s).st ≠ .isolated) :
    exec (.dioBankIsolated k) s = .next (isolateBank 2 k (bankIsolated k s)) := by
  have hother : ((dioBank k s).st == .isolated) = false := beq_eq_false_iff_ne.2 hst
  show execDioBankIsolated k s = _
  simp only [execDioBankIsolated, hup, dioIsolate, hother, Bool.false_eq_true, if_false, if_true]
  rfl

theorem dioBank_bankIsolated (k : Nat) (s : State) :
    dioBank k (bankIsolated k s) = { dioBank k s with st := .isolated, switch := false } := by
  simp [bankIsolated]

/-- The region's count of isolations leaves the bank and the events of the block. -/
theorem dioBank_isolateBank (k b : Nat) (s : State) : dioBank k (isolateBank 2 b s) = dioBank k s :=
  dioBank_congr (isolateBank_field_only b s .dio rfl).2.1 k

theorem flag_bankIsolated (k b : Nat) (s : State) :
    flag Fld.DIO_EVENT_BANK_ISO (isolateBank 2 b (bankIsolated k s)) = true := by
  rw [flag_of_rd (isolateBank_field_only b _ (.block 0x05) rfl _ rfl), bankIsolated, flag_say]
  exact flag_raiseF _ _ _ rfl (by decide)

theorem dioCh_onDio (n m : Nat) (f : DioCh → DioCh) (s : State) :
    dioCh n (onDio m f s) = if n = m then f (dioCh m s) else dioCh n s := Sparse.get_set _ _ _ _ _

/-- The driver opens every output switch of its bank. -/
def bankSilenced (k : Nat) (s : State) : State :=
  forAll (List.range 8) (fun j => onDio (8 * k + j) (fun c => { c with out := false }))
    (onDioBank k (fun b => { b with silent := true }) s)

theorem exec_dioKeepaliveExpiry {s : State} (hreset : s.sup.inReset = false) (hpower : 2 ≤ power s) (k : Fin 4) :
    exec (.dioKeepaliveExpiry k) s = .next (bankSilenced k s) := by
  have hup : decide (power s < 2) = false := decide_eq_false (by omega)
  show execDioKeepaliveExpiry k s = _
  simp only [execDioKeepaliveExpiry, hreset, hup, Bool.or_self, Bool.false_eq_true, if_false]
  rfl

theorem dioBank_bankSilenced (k : Nat) (s : State) :
    dioBank k (bankSilenced k s) = { dioBank k s with silent := true } := by
  rw [bankSilenced, forAll_keeps (g := dioBank k), dioBank_onDioBank]
  exact fun _ _ => rfl

theorem out_bankSilenced (k : Nat) (j : Fin 8) (s : State) : (dioCh (8 * k + j) (bankSilenced k s)).out = false := by
  unfold bankSilenced
  refine forAll_reaches (P := fun u => (dioCh (8 * k + j) u).out = false) (List.mem_range.2 j.isLt) (fun u => ?_)
    (fun i _ u hu => ?_) _
  · rw [dioCh_onDio, if_pos rfl]
  · rw [dioCh_onDio]
    split
    · rfl
    · exact hu

/-- The retriggers have resumed, which is reported. -/
def bankHeard (k : Nat) (s : State) : State :=
  s |> onDioBank k (fun b => { b with silent := false }) |> raiseF 0x06 Fld.DIO_EVENT_STAGE_SILENT
    |> say Code.DIO_STAGE_SILENT

theorem exec_dioStageSilent {k : Fin 4} {s : State} (hup : regionsUp s = true) (hsilent : (dioBank k s).silent = true) :
    exec (.dioStageSilent k) s = .next (bankHeard k s) := by
  show execDioStageSilent k s = _
  simp only [execDioStageSilent, hup, hsilent, Bool.and_self, if_true]
  rfl

/-! ### The obligation -/

/-- Settles O25: each event and command acts on its bank by one operation, and the isolation of a bank climbs to the Field
region without a further change of the bank. -/
theorem dioBankSupplies : Obligations.DioBankSupplies := by
  intro s k j mv
  have hchannel : (8 * k.val + j.val) / 8 = k.val := by omega
  refine ⟨fun hup hwarn => ?_, fun hup hlow => ?_, fun hup hlow => ?_, fun hup => ?_, fun hup hlow hon => ?_,
    fun hup hon => ?_, fun hok hst hready hen => ?_, fun hok hready => ?_, fun hok hst hen => ?_,
    fun hok hoff hfits hst => ?_, fun hok hoff hconflict => ?_, fun hok hon => ?_, fun hup hst => ?_,
    fun hreset hpower => ?_, fun hup hsilent => ?_⟩
  · refine ⟨_, exec_dioBankWarn hup hwarn mv, ?_⟩
    dsimp only
    rw [dioBank_bankWarned]
    exact ⟨rfl, fld_bankWarned k mv s, flag_bankWarned k mv s, rfl⟩
  · refine ⟨_, exec_dioBankWarnClear hup hlow mv, ?_⟩
    dsimp only
    rw [dioBank_onDioBank]
    exact ⟨rfl, rfl, fld_dioVolt k mv s⟩
  · refine ⟨_, exec_dioBankLow hup hlow mv, ?_⟩
    dsimp only
    have hbank := (dioBank_anaLoopLow k k (bankLow k mv s)).trans (dioBank_bankLow k mv s)
    rw [hbank, anBank_anaLoopLow]
    refine ⟨rfl, rfl, rfl, fun hdir => dioInvalid_of_low ((dioDir_bankLow _ k mv s).trans hdir) ?_⟩
    rw [hchannel, hbank]
  · refine ⟨_, exec_dioBankLowClear hup k mv, ?_⟩
    dsimp only
    rw [dioBank_onAnBank, dioBank_onDioBank, anBank_onAnBank]
    exact ⟨rfl, rfl, fld_dioVolt k mv s⟩
  · refine ⟨_, exec_dioBankLatchoff hup hlow hon, ?_⟩
    dsimp only
    rw [dioBank_bankOpened]
    exact ⟨rfl, rfl, flag_bankOpened _ _ k s⟩
  · refine ⟨_, exec_dioBankOvercurrent hup hon, ?_⟩
    dsimp only
    rw [dioBank_bankOpened]
    exact ⟨rfl, rfl, flag_bankOpened _ _ k s⟩
  · have hreenables : reenables k s = true := by
      rcases hst with hst | hst <;> simp [reenables, hst, hready]
    refine ⟨_, exec_dioBankReenable hok, ?_⟩
    dsimp only
    rw [if_pos hreenables, if_pos hreenables, dioBank_setFld, dioBank_dioReenable, hen]
    exact ⟨rfl, rfl, fld_bankResult _ _⟩
  · have hrefused : ¬ reenables k s = true := by simp [reenables, hready]
    refine ⟨_, exec_dioBankReenable hok, ?_⟩
    dsimp only
    rw [if_neg hrefused, if_neg hrefused, dioBank_setFld, dioBank_say]
    exact ⟨rfl, fld_bankResult _ _⟩
  · refine ⟨⟨_, exec_dioBankRecover_passes hok hst, ?_, fld_bankResult _ _⟩, _, exec_dioBankRecover_fails hok, hst⟩
    rw [bankRecovered, dioBank_setFld, dioBank_unisolateBank, dioBank_onDioBank, if_pos hen]
  · refine ⟨_, exec_dioBankEnable_fits hok hoff hfits, ?_⟩
    dsimp only
    rw [dioBank_bankEnabled hst]
    exact ⟨flag_bankEnable k true s, rfl, rfl⟩
  · refine ⟨_, exec_dioBankEnable_conflict hok hoff hconflict, ?_, ?_, ?_⟩
    · rw [flag_say, flag_raiseF_addr _ _ _ _ (bankReg_above (by decide) k).symm, hoff]
    · rw [dioBank_say, dioBank_raiseF]
    · rw [flag_say]
      exact flag_raiseF _ _ _ rfl (by decide)
  · refine ⟨_, exec_dioBankEnable_off hok, ?_⟩
    dsimp only
    rw [dioBank_bankDisabled hon]
    exact ⟨flag_bankEnable k false s, rfl, rfl⟩
  · refine ⟨_, exec_dioBankIsolated hup hst, ?_⟩
    dsimp only
    rw [dioBank_isolateBank, dioBank_bankIsolated]
    exact ⟨rfl, rfl, flag_bankIsolated k k s⟩
  · refine ⟨_, exec_dioKeepaliveExpiry hreset hpower k, ?_, out_bankSilenced k j s⟩
    rw [dioBank_bankSilenced]
  · refine ⟨_, exec_dioStageSilent hup hsilent, ?_, ?_⟩
    · simp [bankHeard]
    · rw [bankHeard, flag_say]
      exact flag_raiseF _ _ _ rfl (by decide)

end Sys2Proof.Machine
end

section
/-! PROOFS. HART transactions and analog banks (O28): a channel through an operation, the HART status of a channel, the start,
retry and end of a transaction, its commands and events, and the isolation and keep-alive of an analog bank. -/
namespace Sys2Proof.Machine

/-! ### A channel and a bank through an operation -/

@[simp] theorem anCh_onAn (n : Nat) (f : AnCh → AnCh) (s : State) : anCh n (onAn n f s) = f (anCh n s) :=
  Sparse.get_set_same _ _ _ _

/-- A channel reads the same from states with the same channels. -/
theorem anCh_congr {s t : State} (h : t.an = s.an) (n : Nat) : anCh n t = anCh n s := by rw [anCh, anCh, h]

theorem anBank_congr {s t : State} (h : t.anBank = s.anBank) (k : Nat) : anBank k t = anBank k s := by rw [anBank, anBank, h]

/-- An operation that does not reach the analog part leaves every channel. -/
theorem anCh_of_only {A : List Part} {s t : State} (h : Only A s t) (hA : Part.ana.listed A = false) (n : Nat) :
    anCh n t = anCh n s := anCh_congr (h .ana hA).1 n

@[simp] theorem anCh_setFld (n : Nat) (f : RegField) (v : Nat) (s : State) : anCh n (setFld f v s) = anCh n s := rfl
@[simp] theorem anCh_setFlag (n : Nat) (f : RegField) (b : Bool) (s : State) : anCh n (setFlag f b s) = anCh n s := rfl
@[simp] theorem anCh_bump (n : Nat) (f : RegField) (s : State) : anCh n (bump f s) = anCh n s := rfl
@[simp] theorem anCh_hartSend (n m : Nat) (x : HartTxn) (s : State) : anCh n (hartSend m x s) = anCh n s := rfl
@[simp] theorem anCh_raiseF (n v : Nat) (f : RegField) (s : State) : anCh n (raiseF v f s) = anCh n s :=
  anCh_congr (raiseF_an v f s) n
@[simp] theorem anCh_hartSay (n m : Nat) (st : Status) (s : State) : anCh n (hartSay m st s) = anCh n s :=
  anCh_of_only (hartSay_does m st s (Does.refl [.block 0x06, .free, .strand, .out] _) rfl).only rfl n
@[simp] theorem anCh_hartDone (n : Nat) (st : Status) (len : Nat) (s : State) : anCh n (hartDone st len s) = anCh n s :=
  anCh_of_only (hartDone_does st len s (Does.refl [.block 0x06, .out] _) rfl).only rfl n
@[simp] theorem anCh_hartDev (n m : Nat) (dev : Byte) (s : State) : anCh n (hartDev m dev s) = anCh n s :=
  anCh_of_only (hartDev_does m dev s (Does.refl [.block 0x06, .free, .strand, .out] _) rfl).only rfl n

theorem hartMark_only (n : Nat) (stale invalid : Bool) (s : State) : Only [.exe] s (hartMark n stale invalid s) :=
  (hartMark_does n stale invalid s (Does.refl _ _) rfl).only

@[simp] theorem anCh_hartMark (n m : Nat) (stale invalid : Bool) (s : State) :
    anCh n (hartMark m stale invalid s) = anCh n s := anCh_of_only (hartMark_only m stale invalid s) rfl n

@[simp] theorem flag_onAn (g : RegField) (n : Nat) (f : AnCh → AnCh) (s : State) : flag g (onAn n f s) = flag g s := rfl
@[simp] theorem fld_onAn (g : RegField) (n : Nat) (f : AnCh → AnCh) (s : State) : fld g (onAn n f s) = fld g s := rfl

/-- A stored variable goes to a tag, never to the channel. -/
theorem anCh_tagStore (n t : Nat) (v : DWord) (s : State) : anCh n (tagStore t v s) = anCh n s :=
  anCh_of_only (tagStore_does t v s (Does.refl [.block 0x05, .free, .strand, .exe, .dio, .out] _) rfl).only rfl n

/-- Fresh variables end the row of failed polls (R373). -/
theorem anCh_hartVars (n : Nat) (vars : List Word) (s : State) :
    anCh n (hartVars n vars s) = { anCh n s with failed := 0 } := by
  unfold hartVars
  rw [anCh_hartMark, forAll_keeps (g := anCh n) fun _ u => anCh_tagStore n _ _ u, anCh_onAn]

theorem hartVars_only (n : Nat) (vars : List Word) (s : State) :
    Only [.block 0x05, .free, .strand, .exe, .dio, .ana, .out] s (hartVars n vars s) :=
  (hartVars_does n vars s (Does.refl _ _) rfl).only

/-! ### The status register of a channel -/

theorem hartStatus_block (n : Nat) : Reg.ANn_HART_STATUS n / 65536 = 6 := by
  unfold Reg.ANn_HART_STATUS
  omega

/-- A channel's register of block 6 lies above its common registers. -/
theorem anReg_above {a b : Nat} (h : b < a) (n : Nat) : b ≠ a + 0x80 * (n % 16) := by omega

/-- An event bit that is set stays set when another is raised. -/
theorem flag_raiseF_mono (v : Nat) (f : RegField) {g : RegField} {s : State} (h : flag g s = true) :
    flag g (raiseF v f s) = true := by
  rw [flag, bne_iff_ne] at h ⊢
  obtain ⟨i, hi⟩ := Nat.exists_testBit_of_ne_zero h
  intro hzero
  have hkept : (fld g (raiseF v f s)).testBit i = true := by
    rw [fld, fieldOf_testBit, Bool.and_eq_true] at hi ⊢
    obtain ⟨hinside, hbit⟩ := hi
    refine ⟨hinside, ?_⟩
    rw [rd_raiseF]
    split
    case isTrue haddr => rw [BitVec.getLsbD_or, ← haddr, hbit, Bool.true_or]
    case isFalse => exact hbit
  rw [hzero, Nat.zero_testBit] at hkept
  exact Bool.false_ne_true hkept

/-- A HART report writes only LAST, the low byte of the status register. -/
theorem fld_hartSay_high {g : RegField} (h : 8 ≤ g.lo) (n : Nat) (st : Status) (s : State) :
    fld g (hartSay n st s) = fld g s := by
  rw [hartSay, fld_say]
  exact fld_setFld_disj _ _ _ _ (.inr h)

theorem flag_hartSay_event {g : RegField} (h : g.addr = Reg.ANA_EVENT) (n : Nat) (st : Status) (s : State) :
    flag g (hartSay n st s) = flag g s := by
  rw [hartSay, flag_say]
  exact flag_setFld_addr _ _ _ _ (h ▸ anReg_above (by decide) n)

/-- The report of a new device status leaves the upper fields of the status register. -/
theorem fld_hartDev_report {g : RegField} {n : Nat} (haddr : g.addr = Reg.ANn_HART_STATUS n) (hlo : 8 ≤ g.lo) (dev : Byte)
    (s : State) : fld g (hartDev n dev s) = fld g (setFld (Fld.ANn_HART_STATUS_DEV_STATUS n) dev.toNat s) := by
  unfold hartDev onlyIf
  dsimp only
  split
  · rw [fld_hartSay_high hlo, fld_raiseF_addr _ _ _ _ (haddr ▸ (anReg_above (by decide) n).symm)]
  · rfl

theorem fld_hartDev_devStatus (n : Nat) (dev : Byte) (s : State) :
    fld (Fld.ANn_HART_STATUS_DEV_STATUS n) (hartDev n dev s) = dev.toNat := by
  rw [fld_hartDev_report rfl (by simp), fld_setFld_same _ _ _ (by simp)]
  exact Nat.mod_eq_of_lt dev.isLt

/-- The device status is the upper byte: the fields between it and LAST stay. -/
theorem fld_hartDev_other {g : RegField} {n : Nat} (haddr : g.addr = Reg.ANn_HART_STATUS n) (hlo : 8 ≤ g.lo)
    (hhi : g.lo + g.width ≤ 24) (dev : Byte) (s : State) : fld g (hartDev n dev s) = fld g s := by
  rw [fld_hartDev_report haddr hlo]
  exact fld_setFld_disj _ _ _ _ (.inl hhi)

/-! ### Start and end of a transaction -/

/-- A transaction that starts when none is under way is sent at once. -/
theorem hartStart_idle {n : Nat} {s : State} (h : (anCh n s).txn = none) (x : HartTxn) :
    hartStart n x s = hartSend n x (onAn n (fun c => { c with txn := some x }) s) := by
  simp only [hartStart, h, Option.isNone_none, if_true]

/-- With nothing waiting the transaction under way just ends. -/
theorem hartNext_idle {n : Nat} {s : State} (h : (anCh n s).waiting = []) :
    hartNext n s = onAn n (fun c => { c with txn := none }) s := by
  simp only [hartNext, anCh_onAn, h]

/-- With an attempt left the transaction goes on with one less (R372). -/
theorem txn_hartRetry {x : HartTxn} (h : x.left ≠ 0) (n : Nat) (s : State) :
    (anCh n (hartRetry n x s)).txn = some { x with left := x.left - 1 } := by
  rw [hartRetry, if_neg h, anCh_hartSend, anCh_onAn]

/-! ### A transaction without a good response (R372) -/

/-- A failed transaction is reported and counted. -/
def hartFailed (n : Nat) (s : State) : State :=
  s |> hartSay n Code.ANA_HART_TIMEOUT |> raiseF 0x07 Fld.ANA_EVENT_HART_FAIL |> bump (Fld.ANn_COUNTS_HART_FAIL n)

/-- What a failure means to a poll and to the host, before the next transaction runs (R373, R375). -/
def hartFailedFor (n : Nat) (k : HartKind) (s : State) : State :=
  match k with
  | .poll =>
    let t := onAn n (fun c => { c with failed := c.failed + 1 }) s
    hartSay n Code.ANA_HART_POLL_STALE (hartMark n true (decide (3 ≤ (anCh n t).failed)) t)
  | .host => hartDone Code.ANA_HART_TIMEOUT 0 s
  | .ident | .more => s

theorem hartFail_eq (n : Nat) (k : HartKind) (s : State) :
    hartFail n k s = hartNext n (hartFailedFor n k (hartFailed n s)) := by
  cases k <;> rfl

theorem anCh_hartFailed (n : Nat) (s : State) : anCh n (hartFailed n s) = anCh n s := by simp [hartFailed]

theorem waiting_hartFailedFor (n : Nat) (k : HartKind) (s : State) :
    (anCh n (hartFailedFor n k s)).waiting = (anCh n s).waiting := by
  cases k <;> simp [hartFailedFor]

theorem flag_hartFailed (n : Nat) (s : State) : flag Fld.ANA_EVENT_HART_FAIL (hartFailed n s) = true := by
  rw [hartFailed, bump, flag_setFld_addr _ _ _ _ (anReg_above (by decide) n)]
  exact flag_raiseF _ _ _ rfl (by decide)

theorem flag_hartFailedFor {n : Nat} {s : State} (h : flag Fld.ANA_EVENT_HART_FAIL s = true) (k : HartKind) :
    flag Fld.ANA_EVENT_HART_FAIL (hartFailedFor n k s) = true := by
  cases k with
  | poll =>
    rw [hartFailedFor, flag_hartSay_event rfl, flag_of_rd (hartMark_only n _ _ _ (.block 0x06) rfl _ rfl), flag_onAn]
    exact h
  | host =>
    refine flag_raiseF_mono _ _ ?_
    rw [flag_setFld_addr _ _ _ _ (by decide), flag_setFld_addr _ _ _ _ (by decide), setFlag,
      flag_setFld_addr _ _ _ _ (by decide)]
    exact h
  | ident => exact h
  | more => exact h

/-- The state after a failure with nothing waiting. -/
theorem hartFail_idle {n : Nat} {s : State} (h : (anCh n s).waiting = []) (k : HartKind) :
    hartFail n k s = onAn n (fun c => { c with txn := none }) (hartFailedFor n k (hartFailed n s)) := by
  rw [hartFail_eq]
  exact hartNext_idle (by rw [waiting_hartFailedFor, anCh_hartFailed, h])

/-! ### The result of a host transaction (R375) -/

theorem busy_hartDone (st : Status) (len : Nat) (s : State) : flag Fld.ANA_HART_RESULT_BUSY (hartDone st len s) = false := by
  rw [hartDone, flag_raiseF_addr _ _ _ _ (by decide), flag, fld_setFld_disj _ _ _ _ (by decide),
    fld_setFld_disj _ _ _ _ (by decide)]
  exact flag_setFlag_same _ _ _ rfl (by decide)

theorem status_hartDone (st : Status) (len : Nat) (s : State) :
    fld Fld.ANA_HART_RESULT_STATUS (hartDone st len s) = st.toNat := by
  rw [hartDone, fld_raiseF_addr _ _ _ _ (by decide)]
  exact fld_setFld_status _ _ _ rfl rfl

theorem len_hartDone (st : Status) (len : Nat) (s : State) :
    fld Fld.ANA_HART_RESULT_LEN (hartDone st len s) = min len 255 := by
  rw [hartDone, fld_raiseF_addr _ _ _ _ (by decide), fld_setFld_disj _ _ _ _ (by decide), fld_setFld_same _ _ _ (by decide)]
  exact Nat.mod_eq_of_lt (Nat.lt_of_le_of_lt (Nat.min_le_right _ _) (by decide))

/-! ### A good response (R371, R375) -/

/-- The two status bytes of a good response. -/
def hartAnswered (n : Nat) (resp dev : Byte) (s : State) : State :=
  hartDev n dev (setFld (Fld.ANn_HART_STATUS_RESP_CODE n) resp.toNat s)

/-- The device is identified by its long address. -/
def hartIdentified (n : Nat) (data : List Byte) (s : State) : State :=
  setFlag (Fld.ANn_HART_STATUS_LONG_OK n) true (onAn n (fun c => { c with long := data.take 5 }) s)

/-- The data registers take the bytes of a response. -/
def hartDataStored (data : List Byte) (s : State) : State :=
  forAll (List.range 16) (fun w => wr (Reg.ANA_HART_DATA w) (toW (leNat ((data.drop (4 * w)).take 4)))) s

theorem anCh_hartAnswered (n : Nat) (resp dev : Byte) (s : State) : anCh n (hartAnswered n resp dev s) = anCh n s := by
  simp [hartAnswered]

theorem fld_hartAnswered (n : Nat) (resp dev : Byte) (s : State) :
    fld (Fld.ANn_HART_STATUS_RESP_CODE n) (hartAnswered n resp dev s) = resp.toNat := by
  rw [hartAnswered, fld_hartDev_other rfl (by simp) (by simp), fld_setFld_same _ _ _ (by simp)]
  exact Nat.mod_eq_of_lt resp.isLt

theorem anCh_hartDataStored (n : Nat) (data : List Byte) (s : State) : anCh n (hartDataStored data s) = anCh n s := by
  rw [hartDataStored, forAll_keeps (g := anCh n)]
  exact fun _ u => anCh_congr (wr_an _ _ u) n

/-! ### The events and commands of a transaction -/

theorem exec_hartPoll {n : Fin 16} {s : State} (hup : hartUp n s = true) (hpoll : flag (Fld.ANn_HART_CFG_POLL_EN n) s = true)
    (hactive : onStandby s = false) (hburst : (anCh n s).burstAt = none) : exec (.hartPoll n) s
      = .next (hartStart n ⟨.poll, 3, [], hartRetries n s⟩ (setFlag (Fld.ANn_HART_STATUS_BURST n) false s)) := by
  show execHartPoll n s = _
  simp only [execHartPoll, hup, hpoll, hactive, hburst, Option.any_none, Bool.not_true, Bool.or_self, Bool.false_eq_true,
    if_false]

/-- A response that is not good is reported, and the attempt counts as lost. -/
theorem exec_hartResponse_bad {n : Fin 16} {s : State} {x : HartTxn} (hup : hartUp n s = true) (hactive : onStandby s = false)
    (htxn : (anCh n s).txn = some x) (resp dev : Byte) (vars : List Word) (data : List Byte) :
    exec (.hartResponse n false false resp dev vars data) s
      = .next (hartRetry n x (hartSay n Code.ANA_HART_COMM_ERR s)) := by
  show execHartResponse n false false resp dev vars data s = _
  simp only [execHartResponse, hup, hactive, htxn, onlyIf, Bool.not_true, Bool.not_false, Bool.false_eq_true, if_false,
    if_true]

theorem exec_hartResponse_ident {n : Fin 16} {s : State} {x : HartTxn} (hup : hartUp n s = true)
    (hactive : onStandby s = false) (htxn : (anCh n s).txn = some x) (hkind : x.kind = .ident) (resp dev : Byte)
    (vars : List Word) (data : List Byte) : exec (.hartResponse n true false resp dev vars data) s
      = .next (hartNext n (hartIdentified n data (hartAnswered n resp dev s))) := by
  show execHartResponse n true false resp dev vars data s = _
  simp only [execHartResponse, hup, hactive, htxn, hkind, onlyIf, Bool.not_true, Bool.false_eq_true, if_false]
  rfl

theorem exec_hartResponse_host {n : Fin 16} {s : State} {x : HartTxn} (hup : hartUp n s = true)
    (hactive : onStandby s = false) (htxn : (anCh n s).txn = some x) (hkind : x.kind = .host) (resp dev : Byte)
    (vars : List Word) (data : List Byte) : exec (.hartResponse n true false resp dev vars data) s
      = .next (hartNext n (hartDone Code.ANA_OK data.length (hartDataStored data (hartAnswered n resp dev s)))) := by
  show execHartResponse n true false resp dev vars data s = _
  simp only [execHartResponse, hup, hactive, htxn, hkind, onlyIf, Bool.not_true, Bool.false_eq_true, if_false]
  rfl

theorem exec_hartRespTimeout {n : Fin 16} {s : State} {x : HartTxn} (htxn : (anCh n s).txn = some x) :
    exec (.hartRespTimeout n) s = .next (hartRetry n x s) := by
  show execHartRespTimeout n s = _
  simp only [execHartRespTimeout, htxn]

/-- A burst frame leaves its instant and its mark, before its device status and variables (R374). -/
def burstMarked (n : Nat) (s : State) : State :=
  s |> onAn n (fun c => { c with burstAt := some (nowNs s) }) |> setFlag (Fld.ANn_HART_STATUS_BURST n) true

theorem exec_hartBurstFrame {n : Fin 16} {s : State} (hup : hartUp n s = true)
    (haccept : flag (Fld.ANn_HART_CFG_BURST_ACCEPT n) s = true) (dev : Byte) (vars : List Word) :
    exec (.hartBurstFrame n dev vars) s = .next (hartVars n vars (hartDev n dev (burstMarked n s))) := by
  show execHartBurstFrame n dev vars s = _
  simp only [execHartBurstFrame, hup, haccept, Bool.and_self, if_true]
  rfl

/-- The variables of a burst frame leave the status register. -/
theorem fld_hartVars_status (n : Nat) {g : RegField} (haddr : g.addr = Reg.ANn_HART_STATUS n) (vars : List Word) (s : State) :
    fld g (hartVars n vars s) = fld g s := by
  have hblock : g.addr / 65536 = 6 := haddr ▸ hartStatus_block n
  rw [fld, hartVars_only n vars s (.block 0x06) rfl _ hblock, fld]

theorem flag_burst (n : Nat) (dev : Byte) (vars : List Word) (s : State) :
    flag (Fld.ANn_HART_STATUS_BURST n) (hartVars n vars (hartDev n dev (burstMarked n s))) = true := by
  rw [flag, fld_hartVars_status n rfl, fld_hartDev_other rfl (by simp) (by simp)]
  exact flag_setFlag_same _ _ _ rfl (by simp)

theorem exec_anaHartCmd_busy {s : State} (hok : hostOk Reg.ANA_HART_CMD .write s = true)
    (hbusy : flag Fld.ANA_HART_RESULT_BUSY s = true) (cmd : BitVec 16) (len : Byte) :
    exec (.anaHartCmd cmd len) s = .next s := by
  show execAnaHartCmd cmd len s = _
  simp only [execAnaHartCmd, hostCmd_of_ok _ hok, hbusy, if_true]

theorem exec_anaHartCmd_refused {n : Fin 16} {s : State} (hok : hostOk Reg.ANA_HART_CMD .write s = true)
    (hidle : flag Fld.ANA_HART_RESULT_BUSY s = false) (hsel : fld Fld.ANA_HART_SEL_CHANNEL s = n.val)
    (hdown : hartUp n s = false) (cmd : BitVec 16) (len : Byte) : exec (.anaHartCmd cmd len) s
      = .next (hartDone Code.ANA_HART_REFUSED 0 (hartSay n Code.ANA_HART_REFUSED s)) := by
  show execAnaHartCmd cmd len s = _
  simp only [execAnaHartCmd, hostCmd_of_ok _ hok, hidle, hsel, hdown, Bool.not_false, Bool.false_eq_true, if_false, if_true]

theorem exec_anaHartCmd_starts {n : Fin 16} {s : State} (hok : hostOk Reg.ANA_HART_CMD .write s = true)
    (hidle : flag Fld.ANA_HART_RESULT_BUSY s = false) (hsel : fld Fld.ANA_HART_SEL_CHANNEL s = n.val)
    (hup : hartUp n s = true) (hactive : onStandby s = false) (cmd : BitVec 16) (len : Byte) :
    exec (.anaHartCmd cmd len) s = .next (hartStart n ⟨.host, cmd.toNat, hartData (min len.toNat 64) s, hartRetries n s⟩
      (setFlag Fld.ANA_HART_RESULT_BUSY true s)) := by
  show execAnaHartCmd cmd len s = _
  simp only [execAnaHartCmd, hostCmd_of_ok _ hok, hidle, hsel, hup, hactive, Bool.not_true, Bool.false_eq_true, if_false]

theorem hartRefused_an (n : Nat) (s : State) :
    (hartDone Code.ANA_HART_REFUSED 0 (hartSay n Code.ANA_HART_REFUSED s)).an = s.an :=
  ((hartDone_does _ _ _ (hartSay_does n _ s (Does.refl [.block 0x06, .free, .strand, .out] _) rfl) rfl).only .ana rfl).1

/-! ### The isolation and the keep-alive of an analog bank (R370, R377) -/

@[simp] theorem anBank_setFld (k : Nat) (f : RegField) (v : Nat) (s : State) : anBank k (setFld f v s) = anBank k s := rfl
@[simp] theorem anBank_unisolateBank (k r b : Nat) (s : State) : anBank k (unisolateBank r b s) = anBank k s := rfl
@[simp] theorem anBank_say (k : Nat) (st : Status) (s : State) : anBank k (say st s) = anBank k s :=
  anBank_congr (say_anBank st s) k
@[simp] theorem anBank_raiseF (k v : Nat) (f : RegField) (s : State) : anBank k (raiseF v f s) = anBank k s :=
  anBank_congr (raiseF_anBank v f s) k

/-- A change of an analog bank raises the block's event and is reported. -/
def anBankChanged (k : Nat) (f : AnBank → AnBank) (code : Status) (s : State) : State :=
  s |> onAnBank k f |> raiseF 0x07 Fld.ANA_EVENT_BANK |> say code

theorem anBank_anBankChanged (k : Nat) (f : AnBank → AnBank) (code : Status) (s : State) :
    anBank k (anBankChanged k f code s) = f (anBank k s) := by
  simp [anBankChanged]

theorem flag_anBankChanged (k : Nat) (f : AnBank → AnBank) (code : Status) (s : State) :
    flag Fld.ANA_EVENT_BANK (anBankChanged k f code s) = true := by
  rw [anBankChanged, flag_say]
  exact flag_raiseF _ _ _ rfl (by decide)

theorem exec_anaKeepaliveExpiry {s : State} (hreset : s.sup.inReset = false) (hpower : 2 ≤ power s) (k : Fin 4) :
    exec (.anaKeepaliveExpiry k) s = .next (onAnBank k (fun b => { b with silent := true }) s) := by
  have hup : decide (power s < 2) = false := decide_eq_false (by omega)
  show execAnaKeepaliveExpiry k s = _
  simp only [execAnaKeepaliveExpiry, hreset, hup, Bool.or_self, Bool.false_eq_true, if_false]

theorem exec_anaStageSilent {k : Fin 4} {s : State} (hup : regionsUp s = true) (hsilent : (anBank k s).silent = true) :
    exec (.anaStageSilent k) s
      = .next (anBankChanged k (fun b => { b with silent := false }) Code.ANA_STAGE_SILENT s) := by
  show execAnaStageSilent k s = _
  simp only [execAnaStageSilent, hup, hsilent, Bool.and_self, if_true]
  rfl

theorem exec_anaBankIsolated {k : Fin 4} {s : State} (hup : regionsUp s = true) (hwhole : (anBank k s).isolated = false) :
    exec (.anaBankIsolated k) s
      = .next (isolateBank 2 (4 + k) (anBankChanged k (fun b => { b with isolated := true }) Code.ANA_BANK_ISOLATED s)) := by
  show execAnaBankIsolated k s = _
  simp only [execAnaBankIsolated, anaIsolate, hup, hwhole, Bool.false_eq_true, if_false, if_true]
  rfl

/-- The region's count of isolations leaves the analog banks. -/
theorem anBank_isolateBank (k b : Nat) (s : State) : anBank k (isolateBank 2 b s) = anBank k s :=
  anBank_congr (isolateBank_field_only b s .ana rfl).2 k

/-- A bank that passes its check leaves isolation, and the command succeeds. -/
def anBankRecovered (k : Nat) (s : State) : State :=
  s |> onAnBank k (fun b => { b with isolated := false }) |> unisolateBank 2 (4 + k) |> raiseF 0x07 Fld.ANA_EVENT_BANK
    |> say Code.ANA_BANK_RECOVERED |> setFld Fld.ANA_BANK_RESULT_STATUS Code.ANA_OK.toNat

theorem exec_anaBankRecover_passes {k : Fin 4} {s : State} (hok : hostOk Reg.ANA_BANK_CMD .write s = true)
    (hisolated : (anBank k s).isolated = true) : exec (.anaBankRecover k true) s = .next (anBankRecovered k s) := by
  show execAnaBankRecover k true s = _
  simp only [execAnaBankRecover, hostCmd_of_ok _ hok, hisolated, Bool.and_self, if_true]
  rfl

theorem anBank_anBankRecovered (k : Nat) (s : State) :
    anBank k (anBankRecovered k s) = { anBank k s with isolated := false } := by
  simp [anBankRecovered]

theorem fld_anBankRecovered (k : Nat) (s : State) :
    fld Fld.ANA_BANK_RESULT_STATUS (anBankRecovered k s) = Code.ANA_OK.toNat := fld_setFld_status _ _ _ rfl rfl

/-- Without a passed check only the result register changes. -/
theorem exec_anaBankRecover_fails {k : Fin 4} {s : State} (hok : hostOk Reg.ANA_BANK_CMD .write s = true) :
    exec (.anaBankRecover k false) s
      = .next (withFree (fun d => setFld Fld.ANA_BANK_RESULT_STATUS (d.toNat % 65536)) s) := by
  show execAnaBankRecover k false s = _
  simp only [execAnaBankRecover, hostCmd_of_ok _ hok, Bool.and_false, Bool.false_eq_true, if_false]

/-! ### The obligation -/

/-- Settles O28: with no transaction under way a new one is sent at once, with none waiting its end clears the channel, and
the fallback to which a bank's isolation may climb reaches neither the analog banks nor their registers. -/
theorem hartAndAnalogBanks : Obligations.HartAndAnalogBanks := by
  intro s n k cmd len resp dev vars data
  refine ⟨fun hup hpoll hactive hburst hidle => ?_, fun hup hactive hleft => ?_, fun hup hactive hleft hwait => ?_,
    fun hup hactive hkind hwait => ?_, fun hup hactive hkind hwait => ?_, fun hup haccept => ?_,
    fun hok hidle hsel hup hactive htxn => ?_, fun hok hbusy => ?_, fun hok hidle hsel hdown => ?_,
    fun hreset hpower => ?_, fun hup hsilent => ?_, fun hup hwhole => ?_, fun hok hisolated => ?_⟩
  · refine ⟨_, exec_hartPoll hup hpoll hactive hburst, ?_⟩
    rw [hartStart_idle (by rw [anCh_setFlag, hidle])]
    exact ⟨by rw [anCh_hartSend, anCh_onAn], List.length_append⟩
  · obtain ⟨x, htxn, hx⟩ := Option.any_eq_true _ _ |>.1 hleft
    have hx : x.left ≠ 0 := bne_iff_ne.1 hx
    rw [htxn]
    exact ⟨⟨_, exec_hartResponse_bad hup hactive htxn resp dev vars data, txn_hartRetry hx _ _⟩,
      _, exec_hartRespTimeout htxn, txn_hartRetry hx _ _⟩
  · obtain ⟨x, htxn, hx⟩ := Option.any_eq_true _ _ |>.1 hleft
    refine ⟨_, exec_hartRespTimeout htxn, ?_⟩
    dsimp only
    rw [hartRetry, if_pos (eq_of_beq hx), hartFail_idle hwait, anCh_onAn, flag_onAn]
    exact ⟨rfl, flag_hartFailedFor (flag_hartFailed n s) _⟩
  · obtain ⟨x, htxn, hx⟩ := Option.any_eq_true _ _ |>.1 hkind
    refine ⟨_, exec_hartResponse_ident hup hactive htxn (eq_of_beq hx) resp dev vars data, ?_⟩
    have hchannel : anCh n (hartIdentified n data (hartAnswered n resp dev s)) = { anCh n s with long := data.take 5 } := by
      rw [hartIdentified, anCh_setFlag, anCh_onAn, anCh_hartAnswered]
    dsimp only
    rw [hartNext_idle (by rw [hchannel]; exact hwait), anCh_onAn, hchannel, flag_onAn, fld_onAn]
    refine ⟨rfl, rfl, flag_setFlag_same _ _ _ rfl (by simp), ?_⟩
    rw [hartIdentified, setFlag, fld_setFld_disj _ _ _ _ (.inr (by simp)), fld_onAn, fld_hartAnswered]
  · obtain ⟨x, htxn, hx⟩ := Option.any_eq_true _ _ |>.1 hkind
    refine ⟨_, exec_hartResponse_host hup hactive htxn (eq_of_beq hx) resp dev vars data, ?_⟩
    rw [hartNext_idle (by rw [anCh_hartDone, anCh_hartDataStored, anCh_hartAnswered, hwait])]
    exact ⟨by rw [anCh_onAn], busy_hartDone _ _ _, status_hartDone _ _ _, len_hartDone _ _ _⟩
  · refine ⟨_, exec_hartBurstFrame hup haccept dev vars, flag_burst n dev vars s, ?_⟩
    rw [anCh_hartVars, anCh_hartDev, burstMarked, anCh_setFlag, anCh_onAn, fld_hartVars_status n rfl]
    exact ⟨rfl, rfl, fld_hartDev_devStatus _ _ _⟩
  · refine ⟨_, exec_anaHartCmd_starts hok hidle hsel hup hactive cmd len, ?_⟩
    rw [hartStart_idle (by rw [anCh_setFlag, htxn])]
    exact ⟨flag_setFlag_same Fld.ANA_HART_RESULT_BUSY true s rfl (by decide), by rw [anCh_hartSend, anCh_onAn]⟩
  · exact ⟨s, exec_anaHartCmd_busy hok hbusy cmd len, rfl, hbusy⟩
  · exact ⟨_, exec_anaHartCmd_refused hok hidle hsel hdown cmd len, hartRefused_an n s, status_hartDone _ _ _⟩
  · exact ⟨_, exec_anaKeepaliveExpiry hreset hpower k, by rw [anBank_onAnBank], rfl⟩
  · exact ⟨_, exec_anaStageSilent hup hsilent, by rw [anBank_anBankChanged], flag_anBankChanged _ _ _ _⟩
  · refine ⟨_, exec_anaBankIsolated hup hwhole, by rw [anBank_isolateBank, anBank_anBankChanged], ?_⟩
    rw [flag_of_rd (isolateBank_field_only _ _ (.block 0x06) rfl _ rfl), flag_anBankChanged]
  · exact ⟨⟨_, exec_anaBankRecover_passes hok hisolated, by rw [anBank_anBankRecovered], fld_anBankRecovered _ _⟩,
      _, exec_anaBankRecover_fails hok, hisolated⟩

end Sys2Proof.Machine
end

section
/-! PROOFS. What chapter 10 shares (O29, O30): the reports of the Safety region, the outputs, pairs and connections through an
operation, what the evaluation of the outputs leaves, and folds over them. -/
namespace Sys2Proof.Machine

theorem completes_of_exec {c : Instr} {s t : State} {P : State → Prop} (h : exec c s = .next t) (hP : P t) :
    Completes c s P := ⟨t, h, hP⟩

/-! ### Reports -/

@[simp] theorem safSay_saf (st : Status) (s : State) : (safSay st s).saf = s.saf := say_saf _ _
@[simp] theorem safSay_sup (st : Status) (s : State) : (safSay st s).sup = s.sup := say_sup _ _

theorem safTie_saf (tie : Bool) (s : State) : (safTie tie s).saf = s.saf := by cases tie <;> rfl

theorem rd_safTie {a : Nat} (ha : a ≠ Reg.SAF_CLOSE_CALL) (tie : Bool) (s : State) : rd a (safTie tie s) = rd a s := by
  unfold safTie onlyIf
  split
  · rw [bump, rd_setFld, if_neg ha]
  · rfl

theorem rd_safSay {a : Nat} (ha : a ≠ Reg.SAF_LAST_STATUS) (st : Status) (s : State) : rd a (safSay st s) = rd a s := by
  rw [safSay, rd_say, rd_setFld, if_neg ha]

/-- An event of the region with its status. -/
def safNote (f : RegField) (st : Status) (s : State) : State := s |> safEv f |> safSay st

@[simp] theorem safNote_saf (f : RegField) (st : Status) (s : State) : (safNote f st s).saf = s.saf := by
  rw [safNote, safSay_saf, safEv, raiseF_saf]

@[simp] theorem safNote_sup (f : RegField) (st : Status) (s : State) : (safNote f st s).sup = s.sup := by
  rw [safNote, safSay_sup, safEv, raiseF_sup]

theorem rd_safNote {a : Nat} {f : RegField} (hf : f.addr = Reg.SAF_EVENT) (hevent : a ≠ Reg.SAF_EVENT)
    (hlast : a ≠ Reg.SAF_LAST_STATUS) (st : Status) (s : State) : rd a (safNote f st s) = rd a s := by
  rw [safNote, rd_safSay hlast, safEv, rd_raiseF, if_neg (hf ▸ hevent)]

/-- A status leaves the events. -/
theorem flag_safSay_event {f : RegField} (hf : f.addr = Reg.SAF_EVENT) (st : Status) (s : State) :
    flag f (safSay st s) = flag f s := flag_of_rd (rd_safSay (by rw [hf]; decide) st s)

theorem flag_safNote {f : RegField} (hf : f.addr = Reg.SAF_EVENT) (hwidth : f.width = 1) (hlo : f.lo < 32) (st : Status)
    (s : State) : flag f (safNote f st s) = true := by
  rw [safNote, flag_safSay_event hf]
  exact flag_raiseF _ _ _ hwidth hlo

/-- An event that is set stays set when another is noted. -/
theorem flag_safNote_mono {f g : RegField} (hg : g.addr = Reg.SAF_EVENT) {s : State} (h : flag g s = true) (st : Status) :
    flag g (safNote f st s) = true := by
  rw [safNote, flag_safSay_event hg]
  exact flag_raiseF_mono _ _ h

theorem fld_safNote_status (f : RegField) (st : Status) (s : State) :
    fld Fld.SAF_LAST_STATUS_STATUS (safNote f st s) = st.toNat := by
  rw [safNote, safSay, fld_say, fld_setFld_status _ _ _ rfl rfl]

/-- A field reads the same from states with the same register. -/
theorem fld_congr {s t : State} {f : RegField} (h : rd f.addr t = rd f.addr s) : fld f t = fld f s := by rw [fld, h, fld]

/-- The registers in which the region reports. -/
inductive SafReport : Nat → Prop
  | event : SafReport Reg.SAF_EVENT
  | status : SafReport Reg.SAF_LAST_STATUS
  | ties : SafReport Reg.SAF_CLOSE_CALL
  | counts (n : Nat) : SafReport (Reg.SQn_COUNTS n)

theorem SafReport.ne {a b : Nat} (hb : SafReport b) (ha : ¬ SafReport a) : a ≠ b := fun e => ha (e ▸ hb)

theorem SafReport.bounds {a : Nat} (h : SafReport a) :
    (0x08000C ≤ a ∧ a ≤ 0x080014) ∨ (0x08010C ≤ a ∧ a ≤ 0x08017C ∧ a % 16 = 12) := by
  cases h with
  | event => decide
  | status => decide
  | ties => decide
  | counts n =>
    rw [Reg.SQn_COUNTS]
    omega

/-! ### Outputs, pairs and connections through an operation -/

theorem sq_congr {s t : State} (h : t.saf.sq = s.saf.sq) (n : Nat) : sq n t = sq n s := by rw [sq, sq, h]
theorem siPair_congr {s t : State} (h : t.saf.si = s.saf.si) (p : Nat) : siPair p t = siPair p s := by rw [siPair, siPair, h]

@[simp] theorem sq_onSq_same (n : Nat) (f : SqOut → SqOut) (s : State) : sq n (onSq n f s) = f (sq n s) :=
  Sparse.get_set_same _ _ _ _

theorem sq_onSq_other {n m : Nat} (h : n ≠ m) (f : SqOut → SqOut) (s : State) : sq n (onSq m f s) = sq n s :=
  Sparse.get_set_other _ _ _ h

@[simp] theorem siPair_onSi_same (p : Nat) (f : SiPair → SiPair) (s : State) : siPair p (onSi p f s) = f (siPair p s) :=
  Sparse.get_set_same _ _ _ _

theorem siPair_onSi_other {p q : Nat} (h : p ≠ q) (f : SiPair → SiPair) (s : State) : siPair p (onSi q f s) = siPair p s :=
  Sparse.get_set_other _ _ _ h

@[simp] theorem sq_safSay (n : Nat) (st : Status) (s : State) : sq n (safSay st s) = sq n s :=
  sq_congr (by rw [safSay_saf]) n
@[simp] theorem sq_safNote (n : Nat) (f : RegField) (st : Status) (s : State) : sq n (safNote f st s) = sq n s :=
  sq_congr (by rw [safNote_saf]) n
@[simp] theorem siPair_safSay (p : Nat) (st : Status) (s : State) : siPair p (safSay st s) = siPair p s :=
  siPair_congr (by rw [safSay_saf]) p
@[simp] theorem siPair_safNote (p : Nat) (f : RegField) (st : Status) (s : State) : siPair p (safNote f st s) = siPair p s :=
  siPair_congr (by rw [safNote_saf]) p
@[simp] theorem sq_bump (n : Nat) (f : RegField) (s : State) : sq n (bump f s) = sq n s := rfl

/-! ### Folds over the outputs and pairs -/

section
variable {R : State → State → Prop} (hrefl : ∀ u, R u u) (htrans : ∀ {u v w}, R u v → R v w → R u w)
include hrefl htrans

/-- What every operation of a fold does, the fold does. -/
theorem forAll_rel {α : Type} {f : α → State → State} (l : List α) (h : ∀ x ∈ l, ∀ u, R u (f x u)) :
    ∀ s, R s (forAll l f s) := by
  induction l with
  | nil => exact hrefl
  | cons x l ih =>
    exact fun s => htrans (h x List.mem_cons_self s) (ih (fun y hy => h y (List.mem_cons_of_mem x hy)) (f x s))

/-- A fold over the numbers below `k` whose other operations all keep to `R` is, up to `R`, the operation of `n`. -/
theorem forAll_at {f : Nat → State → State} {n k : Nat} (hn : n < k) (h : ∀ m, m ≠ n → ∀ u, R u (f m u)) (s : State) :
    ∃ u, R s u ∧ R (f n u) (forAll (List.range k) f s) := by
  obtain ⟨before, after, hsplit⟩ := List.append_of_mem (List.mem_range.2 hn)
  have hnodup : (before ++ n :: after).Nodup := hsplit ▸ List.nodup_range
  obtain ⟨-, hcons, hapart⟩ := List.nodup_append.1 hnodup
  obtain ⟨hlast, -⟩ := List.nodup_cons.1 hcons
  have hfold : forAll (List.range k) f s = forAll after f (f n (forAll before f s)) := by
    rw [hsplit]
    exact List.foldl_append
  rw [hfold]
  exact ⟨_, forAll_rel hrefl htrans before (fun m hm => h m (hapart m hm n List.mem_cons_self)) s,
    forAll_rel hrefl htrans after (fun m hm => h m fun e => hlast (e ▸ hm)) _⟩

end

/-! ### What the evaluation of the outputs leaves (R388) -/

/-- From `s` to `t` the outputs of which `P` holds stay, and so do the rest of the region and all registers but its reports;
no event is cleared. -/
structure Spares (P : Nat → Prop) (s t : State) : Prop where
  outputs : ∀ n, P n → sq n t = sq n s
  rest : { t.saf with sq := [] } = { s.saf with sq := [] }
  sup : t.sup = s.sup
  regs : ∀ a, ¬ SafReport a → rd a t = rd a s
  events : ∀ f : RegField, f.addr = Reg.SAF_EVENT → flag f s = true → flag f t = true

theorem Spares.refl {P : Nat → Prop} (s : State) : Spares P s s := ⟨fun _ _ => rfl, rfl, rfl, fun _ _ => rfl, fun _ _ => id⟩

theorem Spares.trans {P : Nat → Prop} {s t u : State} (h : Spares P s t) (k : Spares P t u) : Spares P s u where
  outputs n hn := (k.outputs n hn).trans (h.outputs n hn)
  rest := k.rest.trans h.rest
  sup := k.sup.trans h.sup
  regs a ha := (k.regs a ha).trans (h.regs a ha)
  events f hf hset := k.events f hf (h.events f hf hset)

theorem spares_onSq {P : Nat → Prop} {n : Nat} (hn : ¬ P n) (f : SqOut → SqOut) (s : State) : Spares P s (onSq n f s) :=
  ⟨fun _ hm => sq_onSq_other (fun e : _ = n => hn (e ▸ hm)) f s, rfl, rfl, fun _ _ => rfl, fun _ _ => id⟩

theorem spares_safSay {P : Nat → Prop} (st : Status) (s : State) : Spares P s (safSay st s) where
  outputs n _ := sq_safSay n st s
  rest := by rw [safSay_saf]
  sup := safSay_sup st s
  regs _ ha := rd_safSay (SafReport.status.ne ha) st s
  events _ hg hset := (flag_safSay_event hg st s).trans hset

theorem spares_safNote {P : Nat → Prop} {f : RegField} (hf : f.addr = Reg.SAF_EVENT) (st : Status) (s : State) :
    Spares P s (safNote f st s) where
  outputs n _ := sq_safNote n f st s
  rest := by rw [safNote_saf]
  sup := safNote_sup f st s
  regs _ ha := rd_safNote hf (SafReport.event.ne ha) (SafReport.status.ne ha) st s
  events _ hg hset := flag_safNote_mono hg hset st

theorem spares_bump {P : Nat → Prop} {f : RegField} {n : Nat} (hf : f.addr = Reg.SQn_COUNTS n) (s : State) :
    Spares P s (bump f s) where
  outputs _ _ := rfl
  rest := rfl
  sup := rfl
  regs a ha := by rw [bump, rd_setFld, if_neg (hf ▸ (SafReport.counts n).ne ha)]
  events g hg hset := by
    have hapart : g.addr ≠ f.addr := by rw [hg, hf, Reg.SQn_COUNTS, Reg.SAF_EVENT]; omega
    rw [bump, flag_setFld_addr _ _ _ _ hapart, hset]

theorem spares_onlyIf {P : Nat → Prop} {f : State → State} (hf : ∀ u, Spares P u (f u)) (c : Bool) (s : State) :
    Spares P s (onlyIf c f s) := by
  cases c
  · exact Spares.refl s
  · exact hf s

theorem spares_sqCut {P : Nat → Prop} {n : Nat} (hn : ¬ P n) (s : State) : Spares P s (sqCut n s) :=
  (spares_onSq hn _ s).trans (spares_onlyIf (fun u => (spares_bump (n := n) rfl u).trans (spares_safNote rfl _ _)) _ _)

theorem spares_sqClose {P : Nat → Prop} {n : Nat} (hn : ¬ P n) (s : State) : Spares P s (sqClose n s) := spares_onSq hn _ s

/-- An output trips to a state (R388). -/
def sqTrip (n : Nat) (st : SqState) (s : State) : State :=
  s |> onSq n (fun x => { x with st := st }) |> safNote Fld.SAF_EVENT_TRIP Code.SAF_TRIP

theorem spares_sqTrip {P : Nat → Prop} {n : Nat} (hn : ¬ P n) (st : SqState) (s : State) : Spares P s (sqTrip n st s) :=
  (spares_onSq hn _ s).trans (spares_safNote rfl _ _)

theorem spares_sqEval {P : Nat → Prop} {n : Nat} (hn : ¬ P n) (req edge : Bool) (s : State) :
    Spares P s (sqEval n req edge s) := by
  have hset : ∀ f u, Spares P u (onSq n f u) := fun f u => spares_onSq hn f u
  have hcut : Spares P s (sqCut n s) := spares_sqCut hn s
  unfold sqEval
  dsimp only
  split
  case isTrue => exact Spares.refl s
  case isFalse =>
    split
    case h_1 => exact spares_onlyIf (hset _) _ s
    case h_2 =>
      split
      · exact hcut.trans (spares_sqTrip hn _ _)
      · split
        · exact Spares.refl s
        · exact hcut.trans (hset _ _)
    case h_3 =>
      split
      · exact spares_onlyIf (spares_sqTrip hn _) _ s
      · exact spares_onlyIf (spares_sqClose hn) _ s
    case h_4 => exact spares_onlyIf (fun u => (hset _ u).trans (spares_safSay _ _)) _ s

theorem spares_sqEvalAll (edges : Byte) (s : State) : Spares (fun _ => False) s (sqEvalAll edges s) :=
  forAll_rel Spares.refl Spares.trans _ (fun _ _ u => spares_sqEval not_false _ _ u) s

/-- In the evaluation of all outputs an output meets its own evaluation alone. -/
theorem sqEvalAll_at {n : Nat} (hn : n < 8) (edges : Byte) (s : State) : ∃ u, Spares (· = n) s u
    ∧ Spares (· = n) (sqEval n ((safReq s).getLsbD n) (edges.getLsbD n) u) (sqEvalAll edges s) :=
  forAll_at (f := fun n => sqEval n ((safReq s).getLsbD n) (edges.getLsbD n)) Spares.refl Spares.trans hn
    (fun _ hm u => spares_sqEval (P := (· = n)) hm _ _ u) s

/-! ### What a permit reads (R387) -/

/-- The registers that the permit of an output reads. -/
inductive PermitReg (n : Nat) : Nat → Prop
  | cfg : PermitReg n (Reg.SQn_CFG n)
  | safeMask : PermitReg n (Reg.SQn_SAFE_MASK n)
  | pair (p : Nat) : PermitReg n (Reg.SIp_CFG p)
  | state : PermitReg n Reg.SAF_STATE
  | power : PermitReg n Reg.SUP_PWR_STATE

theorem PermitReg.bounds {n a : Nat} (h : PermitReg n a) :
    a ≤ 0x080000 ∨ (0x080100 ≤ a ∧ a ≤ 0x080174 ∧ a % 16 ≠ 12) ∨ 0x080200 ≤ a := by
  cases h with
  | cfg =>
    rw [Reg.SQn_CFG]
    omega
  | safeMask =>
    rw [Reg.SQn_SAFE_MASK]
    omega
  | pair p =>
    rw [Reg.SIp_CFG]
    omega
  | state => decide
  | power => decide

theorem PermitReg.not_report {n a : Nat} (h : PermitReg n a) : ¬ SafReport a := fun hreport => by
  have hpermit := h.bounds
  have hbounds := hreport.bounds
  omega

theorem PermitReg.not_request {n a : Nat} (h : PermitReg n a) : a ≠ Reg.SAF_SX_REQ_LO ∧ a ≠ Reg.SAF_SX_REQ_HI := by
  have hbounds := h.bounds
  rw [Reg.SAF_SX_REQ_LO, Reg.SAF_SX_REQ_HI]
  omega

theorem power_congr {s t : State} (h : rd Reg.SUP_PWR_STATE t = rd Reg.SUP_PWR_STATE s) : power t = power s :=
  fld_congr h

theorem regionsUp_congr {s t : State} (hsup : t.sup = s.sup) (hpower : rd Reg.SUP_PWR_STATE t = rd Reg.SUP_PWR_STATE s) :
    regionsUp t = regionsUp s := by
  rw [regionsUp, regionsUp, alive, alive, power_congr hpower, hsup]

theorem pairHealthy_congr {s t : State} (p : Nat) (hsi : t.saf.si = s.saf.si)
    (hmode : rd (Reg.SIp_CFG p) t = rd (Reg.SIp_CFG p) s) : pairHealthy p t = pairHealthy p s := by
  have hfld : fld (Fld.SIp_CFG_MODE p) t = fld (Fld.SIp_CFG_MODE p) s := fld_congr hmode
  rw [pairHealthy, pairHealthy, siPair_congr hsi, hfld]

/-- The parts of the region that a permit reads. -/
def permitParts (x : Saf) : List (Nat × SiPair) × List (Nat × Conn) × List Nat × Bool × Bool :=
  (x.si, x.conns, x.bankLow, x.ebb, x.auth)

theorem sqPermit_congr {s t : State} {n : Nat} (hsaf : permitParts t.saf = permitParts s.saf) (hsup : t.sup = s.sup)
    (hregs : ∀ a, PermitReg n a → rd a t = rd a s) : sqPermit n t = sqPermit n s := by
  simp only [permitParts, Prod.mk.injEq] at hsaf
  obtain ⟨hsi, hconns, hlow, hebb, hauth⟩ := hsaf
  have hcfg : rd (Reg.SQn_CFG n) t = rd (Reg.SQn_CFG n) s := hregs _ .cfg
  have hmask : rd (Reg.SQn_SAFE_MASK n) t = rd (Reg.SQn_SAFE_MASK n) s := hregs _ .safeMask
  have hpairs : ∀ p, pairHealthy p t = pairHealthy p s := fun p => pairHealthy_congr p hsi (hregs _ (.pair p))
  have hused : flag (Fld.SQn_CFG_USED n) t = flag (Fld.SQn_CFG_USED n) s := flag_of_rd hcfg
  have hsel : fld (Fld.SQn_CFG_SI_MASK n) t = fld (Fld.SQn_CFG_SI_MASK n) s := fld_congr hcfg
  have hinputs : safeInputs t = safeInputs s := by rw [safeInputs, safeInputs, hconns]
  have hstate : safState t = safState s := fld_congr (hregs _ .state)
  have hruns : safRuns t = safRuns s := by rw [safRuns, safRuns, regionsUp_congr hsup (hregs _ .power), hstate]
  simp only [sqPermit, hused, hsel, hpairs, hmask, hinputs, hlow, hebb, hsup, hauth, hruns]

theorem Spares.parts {P : Nat → Prop} {s t : State} (h : Spares P s t) : permitParts t.saf = permitParts s.saf :=
  (congrArg permitParts h.rest :)

theorem Spares.permit {P : Nat → Prop} {s t : State} (h : Spares P s t) (n : Nat) : sqPermit n t = sqPermit n s :=
  sqPermit_congr h.parts h.sup fun a ha => h.regs a ha.not_report

theorem Spares.cfg {P : Nat → Prop} {s t : State} (h : Spares P s t) (n : Nat) :
    rd (Reg.SQn_CFG n) t = rd (Reg.SQn_CFG n) s := h.regs _ (PermitReg.cfg (n := n)).not_report

/-! ### The evaluation of one output (R388) -/

/-- An output with both switches open and no test under way. -/
def SqOut.opened (x : SqOut) : SqOut := { x with hs := false, lsReq := false, lsTest := false, test := none, delayed := false }

theorem sq_sqCut (n : Nat) (s : State) : sq n (sqCut n s) = (sq n s).opened := by
  unfold sqCut onlyIf
  dsimp only
  split
  · show sq n (safNote _ _ (bump _ (onSq n SqOut.opened s))) = _
    rw [sq_safNote, sq_bump, sq_onSq_same]
  · exact sq_onSq_same n SqOut.opened s

theorem sq_sqTrip (n : Nat) (st : SqState) (s : State) : sq n (sqTrip n st s) = { sq n s with st := st } := by
  rw [sqTrip, sq_safNote, sq_onSq_same]

theorem sq_onlyIf (n : Nat) (c : Bool) (f : State → State) (s : State) :
    sq n (onlyIf c f s) = if c then sq n (f s) else sq n s := by cases c <;> rfl

theorem flag_sqTrip (n : Nat) (st : SqState) (s : State) : flag Fld.SAF_EVENT_TRIP (sqTrip n st s) = true :=
  flag_safNote rfl rfl (by decide) _ _

theorem sq_sqClose {n : Nat} {s : State} (h : (sq n s).test = none) :
    sq n (sqClose n s) = { sq n s with st := .on, hs := true, lsReq := true } := by
  simp only [sqClose, sq_onSq_same, h, Option.isSome_none, Bool.false_eq_true, if_false]

/-- What an evaluation leaves on its output rests on the output, its permit and its configuration alone. -/
theorem sq_sqEval_congr {n : Nat} {s t : State} (hsq : sq n t = sq n s) (hpermit : sqPermit n t = sqPermit n s)
    (hcfg : rd (Reg.SQn_CFG n) t = rd (Reg.SQn_CFG n) s) (req edge : Bool) :
    sq n (sqEval n req edge t) = sq n (sqEval n req edge s) := by
  have hused : flag (Fld.SQn_CFG_USED n) t = flag (Fld.SQn_CFG_USED n) s := flag_of_rd hcfg
  have hrestart : flag (Fld.SQn_CFG_RESTART n) t = flag (Fld.SQn_CFG_RESTART n) s := flag_of_rd hcfg
  have htrip : ∀ st u, sq n (u |> onSq n (fun x => { x with st := st }) |> safEv Fld.SAF_EVENT_TRIP |> safSay Code.SAF_TRIP)
      = { sq n u with st := st } := sq_sqTrip n
  unfold sqEval
  simp only [hused, hrestart, hpermit, hsq]
  split
  case isTrue => exact hsq
  case isFalse =>
    split
    case h_1 => simp only [sq_onlyIf, sq_onSq_same, hsq]
    case h_2 =>
      split
      · simp only [htrip, sq_sqCut, hsq]
      · split
        · exact hsq
        · simp only [sq_onSq_same, sq_sqCut, hsq]
    case h_3 =>
      split
      · simp only [sq_onlyIf, htrip, hsq]
      · simp only [sq_onlyIf, sqClose, sq_onSq_same, hsq]
    case h_4 => simp only [sq_onlyIf, sq_safSay, sq_onSq_same, hsq]

/-- The evaluation of all outputs leaves on each what its own evaluation leaves. -/
theorem sq_sqEvalAll {n : Nat} (hn : n < 8) (edges : Byte) (s : State) :
    sq n (sqEvalAll edges s) = sq n (sqEval n ((safReq s).getLsbD n) (edges.getLsbD n) s) := by
  obtain ⟨u, hbefore, hafter⟩ := sqEvalAll_at hn edges s
  exact (hafter.outputs n rfl).trans (sq_sqEval_congr (hbefore.outputs n rfl) (hbefore.permit n) (hbefore.cfg n) _ _)

section
variable {n : Nat} {s : State} (hused : flag (Fld.SQn_CFG_USED n) s = true)
include hused

theorem sqEval_on_unpermitted (hst : (sq n s).st = .on) (hpermit : sqPermit n s = false) (req edge : Bool) :
    sqEval n req edge s = sqTrip n (if flag (Fld.SQn_CFG_RESTART n) s then .tripped else .off) (sqCut n s) := by
  simp only [sqEval, hused, hst, hpermit, Bool.not_true, Bool.not_false, Bool.false_eq_true, if_false, if_true]
  rfl

theorem sqEval_on_requested (hst : (sq n s).st = .on) (hpermit : sqPermit n s = true) (edge : Bool) :
    sqEval n true edge s = s := by
  simp only [sqEval, hused, hst, hpermit, Bool.not_true, Bool.false_eq_true, if_false, if_true]

theorem sqEval_on_released (hst : (sq n s).st = .on) (hpermit : sqPermit n s = true) (edge : Bool) :
    sqEval n false edge s = onSq n (fun x => { x with st := .off }) (sqCut n s) := by
  simp only [sqEval, hused, hst, hpermit, Bool.not_true, Bool.false_eq_true, if_false]

theorem sqEval_off_permitted (hst : (sq n s).st = .off) (hpermit : sqPermit n s = true) (req edge : Bool) :
    sqEval n req edge s = onlyIf req (sqClose n) s := by
  simp only [sqEval, hused, hst, hpermit, Bool.not_true, Bool.false_eq_true, if_false]

theorem sqEval_tripped (hst : (sq n s).st = .tripped) (req edge : Bool) :
    sqEval n req edge s = onlyIf (sqPermit n s && edge)
      (fun t => safSay Code.SAF_RESET (onSq n (fun x => { x with st := .off }) t)) s := by
  simp only [sqEval, hused, hst, Bool.not_true, Bool.false_eq_true, if_false]

end

/-- Without its permit an output that is OFF stays so, or it trips. -/
theorem sqEval_off_unpermitted {n : Nat} {s : State} (hst : (sq n s).st = .off) (hpermit : sqPermit n s = false)
    (req edge : Bool) : sqEval n req edge s = s ∨ sqEval n req edge s = sqTrip n .tripped s := by
  cases hused : flag (Fld.SQn_CFG_USED n) s with
  | false =>
    left
    simp only [sqEval, hused, Bool.not_false, if_true]
  | true =>
    simp only [sqEval, hused, hst, hpermit, Bool.not_true, Bool.not_false, Bool.false_eq_true, if_false, if_true]
    cases flag (Fld.SQn_CFG_RESTART n) s && req with
    | false => exact .inl rfl
    | true => exact .inr rfl

/-- Without a reset edge an output that tripped stays so. -/
theorem sqEval_tripped_noEdge {n : Nat} {s : State} (hst : (sq n s).st = .tripped) (req : Bool) : sqEval n req false s = s := by
  cases hused : flag (Fld.SQn_CFG_USED n) s with
  | false => simp only [sqEval, hused, Bool.not_false, if_true]
  | true => rw [sqEval_tripped hused hst, Bool.and_false]; rfl

end Sys2Proof.Machine
end

section
/-! PROOFS. Safety outputs (O29): the request that a safety cycle takes, what it publishes, the evaluation of one output case by
case, and the tests and faults of an output. -/
namespace Sys2Proof.Machine

/-! ### The request of a cycle (R385, R386) -/

theorem rd64_wr64_same (lo : Nat) (v : DWord) (s : State) : rd64 lo (wr64 lo v s) = v := by
  have hhi : v.toNat / 2 ^ 32 < 2 ^ 32 := by have := v.isLt; omega
  apply BitVec.eq_of_toNat_eq
  rw [rd64, wr64, rd_wr, if_pos rfl, rd_wr, if_neg (by omega), rd_wr, if_pos rfl, BitVec.toNat_ofNat, BitVec.toNat_ofNat,
    BitVec.toNat_ofNat, Nat.mod_eq_of_lt hhi, Nat.div_add_mod', Nat.mod_eq_of_lt v.isLt]

theorem rd_wr64_other {a lo : Nat} (hlo : a ≠ lo) (hhi : a ≠ lo + 4) (v : DWord) (s : State) :
    rd a (wr64 lo v s) = rd a s := by
  rw [wr64, rd_wr, if_neg hhi, rd_wr, if_neg hlo]

theorem rd64_congr {lo : Nat} {s t : State} (hlo : rd lo t = rd lo s) (hhi : rd (lo + 4) t = rd (lo + 4) s) :
    rd64 lo t = rd64 lo s := by rw [rd64, rd64, hlo, hhi]

/-- Nothing new in the exchange: there is no reset edge. -/
theorem takeRequest_none {s : State} (h : s.saf.word = none) :
    takeRequest s = { s with saf := { s.saf with resetEdge := 0 } } := by
  simp only [takeRequest, h]

/-- A fresh request is kept, and its reset edges are those against the last one. -/
theorem takeRequest_fresh {s : State} {w : DWord} (h : s.saf.word = some w) (hfresh : reqFresh w s = true) :
    takeRequest s = wr64 Reg.SAF_SX_REQ_LO w { s with saf := { s.saf with
      lastSeq := some (BitVec.ofNat 8 (w.toNat / 2 ^ 56))
      timedOut := false
      resets := BitVec.ofNat 8 (w.toNat / 2 ^ 24)
      resetEdge := if s.saf.lastSeq.isNone then 0 else BitVec.ofNat 8 (w.toNat / 2 ^ 24) &&& ~~~ s.saf.resets } } := by
  simp only [takeRequest, h, hfresh, Bool.not_true, Bool.false_eq_true, if_false]

/-- Taking the request reaches no output, nothing that a permit reads, and no register but the request's. -/
theorem takeRequest_frame (s : State) : (takeRequest s).saf.sq = s.saf.sq
    ∧ permitParts (takeRequest s).saf = permitParts s.saf ∧ (takeRequest s).sup = s.sup
    ∧ ∀ a, a ≠ Reg.SAF_SX_REQ_LO → a ≠ Reg.SAF_SX_REQ_HI → rd a (takeRequest s) = rd a s := by
  unfold takeRequest
  split
  case h_1 => exact ⟨rfl, rfl, rfl, fun _ _ _ => rfl⟩
  case h_2 =>
    dsimp only
    split
    · exact ⟨rfl, rfl, rfl, fun _ _ _ => rfl⟩
    · exact ⟨rfl, rfl, rfl, fun a hlo hhi => rd_wr64_other hlo hhi _ _⟩

/-- So an output, its permit and its configuration are as they were. -/
theorem output_takeRequest (n : Nat) (s : State) : sq n (takeRequest s) = sq n s
    ∧ sqPermit n (takeRequest s) = sqPermit n s ∧ rd (Reg.SQn_CFG n) (takeRequest s) = rd (Reg.SQn_CFG n) s := by
  obtain ⟨hsq, hparts, hsup, hregs⟩ := takeRequest_frame s
  have hpermit : ∀ a, PermitReg n a → rd a (takeRequest s) = rd a s := by
    intro a ha
    obtain ⟨hlo, hhi⟩ := ha.not_request
    exact hregs a hlo hhi
  exact ⟨sq_congr hsq n, sqPermit_congr hparts hsup hpermit, hpermit _ .cfg⟩

/-! ### What a cycle sends and publishes (R385, R428) -/

theorem connSend_only (i : Nat) (bytes : List Byte) (s : State) : Only [.saf, .pair, .out] s (connSend i bytes s) :=
  (connSend_does i bytes s (Does.refl _ _) rfl).only

/-- A frame changes nothing of the region but the connections. -/
theorem connSend_saf (i : Nat) (bytes : List Byte) (s : State) :
    { (connSend i bytes s).saf with conns := [] } = { s.saf with conns := [] } := by
  unfold connSend
  dsimp only
  split
  · rw [cwSend_saf, onConn]
  · rw [sendOut_saf, onConn]

theorem producerCycle_saf (i : Nat) (s : State) :
    { (producerCycle i s).saf with conns := [] } = { s.saf with conns := [] } := by
  unfold producerCycle onlyIf
  dsimp only
  split
  · rfl
  · rw [connSend_saf]
    split <;> rfl

/-- The frames of a cycle. -/
def cycleSends (s : State) : State :=
  onlyIf (safTalks s) (forAll (s.saf.conns.filter (fun e => !isConsumer e)) (fun e => producerCycle e.1)) s

theorem cycleSends_saf (s : State) : { (cycleSends s).saf with conns := [] } = { s.saf with conns := [] } := by
  unfold cycleSends onlyIf
  split
  · exact forAll_keeps (g := fun u => { u.saf with conns := [] }) (fun (e : Nat × Conn) u => producerCycle_saf e.1 u) _ s
  · rfl

theorem rd_cycleSends (a : Nat) (s : State) : rd a (cycleSends s) = rd a s := by
  have hframe : ∀ i u, Only [.saf, .pair, .out] u (producerCycle i u) := fun i u =>
    (producerCycle_does i u (Does.refl _ _) rfl).only
  unfold cycleSends onlyIf
  split
  · exact forAll_keeps (g := rd a) (fun (e : Nat × Conn) u => hframe e.1 u (.block (a / 65536)) rfl a rfl) _ s
  · rfl

/-- The response is published. -/
def safPublish (s : State) : State := wr64 Reg.SAF_SX_RSP_LO (safResponse s) s

/-- What a cycle does after the evaluation: the frames, the count, the response and the record to the partner. -/
def cycleCloses (s : State) : State :=
  let t := cycleSends s
  t |> wr Reg.SAF_CYCLES (rd Reg.SAF_CYCLES t + 1) |> safPublish |> onlyIf (safRuns t) safMirror

theorem safMirror_only (s : State) : Only [.pair, .out] s (safMirror s) := (safMirror_does s (Does.refl _ _) rfl).only

theorem cycleCloses_saf (s : State) : { (cycleCloses s).saf with conns := [] } = { s.saf with conns := [] } := by
  have hsends : (cycleCloses s).saf = (cycleSends s).saf := by
    unfold cycleCloses onlyIf
    dsimp only
    split
    · rw [safMirror_only _ .saf rfl, safPublish, wr64_saf, wr_saf]
    · rw [safPublish, wr64_saf, wr_saf]
  rw [hsends, cycleSends_saf]

/-- The count and the response are all the registers that the end of a cycle writes. -/
theorem rd_cycleCloses (a : Nat) (s : State) : rd a (cycleCloses s)
    = rd a (safPublish (wr Reg.SAF_CYCLES (rd Reg.SAF_CYCLES (cycleSends s) + 1) (cycleSends s))) := by
  unfold cycleCloses onlyIf
  dsimp only
  split
  · exact safMirror_only _ (.block (a / 65536)) rfl a rfl
  · rfl

theorem rd_cycleCloses_other {a : Nat} (hcycles : a ≠ Reg.SAF_CYCLES) (hlo : a ≠ Reg.SAF_SX_RSP_LO)
    (hhi : a ≠ Reg.SAF_SX_RSP_HI) (s : State) : rd a (cycleCloses s) = rd a s := by
  rw [rd_cycleCloses, safPublish, rd_wr64_other hlo hhi, rd_wr, if_neg hcycles, rd_cycleSends]

theorem rd_cycleCloses_cycles (s : State) : rd Reg.SAF_CYCLES (cycleCloses s) = rd Reg.SAF_CYCLES s + 1 := by
  rw [rd_cycleCloses, safPublish, rd_wr64_other (by decide) (by decide), rd_wr, if_pos rfl, rd_cycleSends]

theorem sq_cycleCloses (n : Nat) (s : State) : sq n (cycleCloses s) = sq n s :=
  sq_congr (congrArg Saf.sq (cycleCloses_saf s) :) n

/-! ### A safety cycle (R388) -/

/-- The state after the evaluation of a cycle, and after the cycle. -/
def cycleEvals (s : State) : State := sqEvalAll (takeRequest s).saf.resetEdge (takeRequest s)
def cycleDone (s : State) : State := cycleCloses (cycleEvals s)

theorem exec_safetyCycle {s : State} (hup : safUp s = true) : exec .safetyCycle s = .next (cycleDone s) := by
  show execSafetyCycle s = _
  simp only [execSafetyCycle, hup, if_true]
  rfl

/-- In fallback a cycle only publishes. -/
theorem exec_safetyCycle_fallback {s : State} (hup : regionsUp s = true) (hstate : safState s = 4) :
    exec .safetyCycle s = .next (safPublish s) := by
  have hdown : safUp s = false := by rw [safUp, hstate, hup]; rfl
  show execSafetyCycle s = _
  simp only [execSafetyCycle, hdown, hup, hstate, Bool.false_eq_true, if_false, beq_self_eq_true, Bool.and_self, if_true]
  rfl

theorem cycleEvals_spares (s : State) : Spares (fun _ => False) (takeRequest s) (cycleEvals s) := spares_sqEvalAll _ _

/-- A cycle leaves on each output what the output's own evaluation leaves. -/
theorem sq_cycleDone (n : Fin 8) (s : State) : sq n (cycleDone s)
    = sq n (sqEval n ((safReq (takeRequest s)).getLsbD n) ((takeRequest s).saf.resetEdge.getLsbD n) s) := by
  obtain ⟨hsq, hpermit, hcfg⟩ := output_takeRequest n s
  rw [cycleDone, sq_cycleCloses, cycleEvals, sq_sqEvalAll n.isLt]
  exact sq_sqEval_congr hsq hpermit hcfg _ _

/-- With nothing new in the exchange there is the last request and no reset edge. -/
theorem sq_cycleDone_none {s : State} (h : s.saf.word = none) (n : Fin 8) :
    sq n (cycleDone s) = sq n (sqEval n ((safReq s).getLsbD n) false s) := by
  have hreq : safReq (takeRequest s) = safReq s := by rw [takeRequest_none h]; rfl
  have hedge : (takeRequest s).saf.resetEdge = 0 := by rw [takeRequest_none h]
  rw [sq_cycleDone, hreq, hedge, show (0 : Byte).getLsbD n = false from BitVec.getLsbD_zero]

/-- An output that is ON without its permit sets the event of a trip. -/
theorem flag_trip_cycleDone {n : Fin 8} {s : State} (hused : flag (Fld.SQn_CFG_USED n) s = true) (hst : (sq n s).st = .on)
    (hpermit : sqPermit n s = false) : flag Fld.SAF_EVENT_TRIP (cycleDone s) = true := by
  obtain ⟨hsq, hper, hcfg⟩ := output_takeRequest n s
  obtain ⟨u, hbefore, hafter⟩ := sqEvalAll_at n.isLt (takeRequest s).saf.resetEdge (takeRequest s)
  have hsq : sq n u = sq n s := (hbefore.outputs n rfl).trans hsq
  have hused : flag (Fld.SQn_CFG_USED n) u = true := (flag_of_rd ((hbefore.cfg n).trans hcfg)).trans hused
  rw [cycleDone, flag_of_rd (rd_cycleCloses_other (by decide) (by decide) (by decide) _)]
  refine hafter.events _ rfl ?_
  rw [sqEval_on_unpermitted hused (hsq ▸ hst) (((hbefore.permit n).trans hper).trans hpermit)]
  exact flag_sqTrip _ _ _

theorem rd_cycleDone_cycles (s : State) : rd Reg.SAF_CYCLES (cycleDone s) = rd Reg.SAF_CYCLES s + 1 := by
  obtain ⟨-, -, -, hregs⟩ := takeRequest_frame s
  have hquiet : ¬ SafReport Reg.SAF_CYCLES := fun h => absurd h.bounds (by decide)
  rw [cycleDone, rd_cycleCloses_cycles, (cycleEvals_spares s).regs _ hquiet, hregs _ (by decide) (by decide)]

/-- The request that a cycle takes stays in the exchange. -/
theorem rd64_cycleDone_req (s : State) : rd64 Reg.SAF_SX_REQ_LO (cycleDone s) = rd64 Reg.SAF_SX_REQ_LO (takeRequest s) := by
  have hlo : ¬ SafReport Reg.SAF_SX_REQ_LO := fun h => absurd h.bounds (by decide)
  have hhi : ¬ SafReport (Reg.SAF_SX_REQ_LO + 4) := fun h => absurd h.bounds (by decide)
  refine rd64_congr ?_ ?_
  · rw [cycleDone, rd_cycleCloses_other (by decide) (by decide) (by decide), (cycleEvals_spares s).regs _ hlo]
  · rw [cycleDone, rd_cycleCloses_other (by decide) (by decide) (by decide), (cycleEvals_spares s).regs _ hhi]

theorem timedOut_cycleDone (s : State) : (cycleDone s).saf.timedOut = (takeRequest s).saf.timedOut := by
  have hcloses : (cycleDone s).saf.timedOut = (cycleEvals s).saf.timedOut :=
    (congrArg Saf.timedOut (cycleCloses_saf (cycleEvals s)) :)
  exact hcloses.trans (congrArg Saf.timedOut (cycleEvals_spares s).rest :)

/-! ### Requests that stop (R386) -/

/-- The state after SX_TIMEOUT. -/
def requestsStopped (tie : Bool) (s : State) : State :=
  safNote Fld.SAF_EVENT_SX_TIMEOUT Code.SAF_SX_TIMEOUT { safTie tie s with saf := { s.saf with timedOut := true } }

theorem exec_safSxTimeout {s : State} (hup : safUp s = true) (tie : Bool) :
    exec (.safSxTimeout tie) s = .next (requestsStopped tie s) := by
  show execSafSxTimeout tie s = _
  simp only [execSafSxTimeout, hup, if_true]
  rfl

/-- Requests that have timed out count as 0. -/
theorem safReq_requestsStopped (tie : Bool) {s : State} (hfrozen : frozen s = false) :
    safReq (requestsStopped tie s) = 0 := by
  have hpower : rd Reg.SUP_PWR_STATE (requestsStopped tie s) = rd Reg.SUP_PWR_STATE s := by
    rw [requestsStopped, rd_safNote rfl (by decide) (by decide)]
    exact rd_safTie (by decide) tie s
  have hruns : frozen (requestsStopped tie s) = false := by rw [frozen, power_congr hpower, ← frozen, hfrozen]
  have htimed : (requestsStopped tie s).saf.timedOut = true := by rw [requestsStopped, safNote_saf]
  simp only [safReq, htimed, hruns, if_true, Bool.false_eq_true, if_false]

/-! ### Tests and faults of an output (R399 to R404) -/

section
variable {n : Fin 8} {s : State} (hup : regionsUp s = true) (hstate : safState s ≤ 2)
  (hused : flag (Fld.SQn_CFG_USED n) s = true) (hmay : mayTest s = true) (hidle : (sq n s).test = none)
include hup hstate hused hmay hidle

theorem exec_sqTestStart_dark (hst : (sq n s).st = .on) (hhs : (sq n s).hs = true) (hls : (sq n s).lsReq = true) (hs : Bool) :
    exec (.sqTestStart n hs) s
      = .next (onSq n (fun x => { x with test := some ⟨hs, true⟩, hs := x.hs && !hs, lsReq := x.lsReq && hs }) s) := by
  have hlow : ¬ 2 < safState s := by omega
  show execSqTestStart n hs s = _
  simp only [execSqTestStart, hup, hlow, hused, hmay, hidle, hst, hhs, hls, decide_false, Bool.not_true, Bool.or_self,
    Option.isSome_none, Bool.false_eq_true, if_false, beq_self_eq_true, Bool.and_self, if_true]

theorem exec_sqTestStart_bright (hst : (sq n s).st = .off ∨ (sq n s).st = .tripped) (hsince : s.saf.authAt + 1000000 ≤ nowNs s)
    (hs : Bool) : exec (.sqTestStart n hs) s
      = .next (onSq n (fun x => { x with test := some ⟨hs, false⟩, hs := hs, lsTest := !hs }) s) := by
  have hlow : ¬ 2 < safState s := by omega
  have hlate : ¬ nowNs s < s.saf.authAt + 1000000 := by omega
  have hon : ((sq n s).st == .on) = false ∧ ((sq n s).st == .fault) = false := by
    rcases hst with h | h <;> rw [h] <;> exact ⟨rfl, rfl⟩
  show execSqTestStart n hs s = _
  simp only [execSqTestStart, hup, hlow, hlate, hused, hmay, hidle, hon, decide_false, Bool.not_true, Bool.or_self,
    Option.isSome_none, Bool.false_eq_true, if_false, Bool.and_false, Bool.false_and]

end

/-- A confirmed test leaves both switches closed after a dark test, or when an energising waits, and open otherwise. -/
theorem completes_sqTestConfirm {n : Fin 8} {s : State} {x : SqTest} (h : (sq n s).test = some x) :
    Completes (.sqTestConfirm n) s (fun t => (sq n t).test = none ∧ (sq n t).hs = (x.dark || (sq n s).delayed)
      ∧ (sq n t).lsReq = (x.dark || (sq n s).delayed) ∧ (sq n t).lsTest = false) := by
  show ∃ t, execSqTestConfirm n s = .next t ∧ _
  have hcounted : ∀ c u, sq n (onlyIf c (fun t => t |> bump (Fld.SQn_COUNTS_DELAYED n) |> safEv Fld.SAF_EVENT_TEST
      |> safSay Code.SAF_ENERGISE_DELAYED) u) = sq n u := by
    intro c u
    cases c
    · rfl
    · exact sq_safNote n _ _ _
  simp only [execSqTestConfirm, h]
  refine ⟨_, rfl, ?_⟩
  simp only [hcounted, sq_onSq_same, and_self]

theorem sq_sqFault (n : Nat) (code : Fin 5) (st : Status) (s : State) : sq n (sqFault n code st s)
    = { (sq n s).opened with st := .fault, fault := code, leaving := none } := by
  show sq n (safNote _ _ _) = _
  rw [sq_safNote, sq_onSq_same]
  rfl

theorem flag_sqFault (n : Nat) (code : Fin 5) (st : Status) (s : State) :
    flag Fld.SAF_EVENT_FAULT (sqFault n code st s) = true := flag_safNote rfl rfl (by decide) _ _

theorem exec_sqTestExpiry {n : Fin 8} {s : State} {x : SqTest} (h : (sq n s).test = some x) (tie : Bool) :
    exec (.sqTestExpiry n tie) s = .next (sqFault n (if x.hs then 1 else 2)
      (if x.hs then Code.SAF_SQ_HS_FAIL else Code.SAF_SQ_LS_FAIL) (safTie tie s)) := by
  show execSqTestExpiry n tie s = _
  simp only [execSqTestExpiry, h]

theorem exec_safSqOvercurrent {s : State} (hup : regionsUp s = true) (n : Fin 8) : exec (.safSqOvercurrent n) s
    = .next (sqFault n 3 Code.SAF_SQ_OVERCURRENT (sqCut n s)) := by
  show execSafSqOvercurrent n s = _
  simp only [execSafSqOvercurrent, hup, if_true]

theorem exec_safSqDisagree {s : State} (hup : regionsUp s = true) (hstate : safState s ≠ 0) (n : Fin 8) :
    exec (.safSqDisagree n) s = .next (sqFault n 4 Code.SAF_SQ_DISAGREE (sqCut n s)) := by
  show execSafSqDisagree n s = _
  simp only [execSafSqDisagree, hup, bne_iff_ne.2 hstate, Bool.and_self, if_true]

theorem exec_safTestOverdue {n : Fin 8} {s : State} (hruns : safRuns s = true) (hauth : s.saf.auth = true)
    (hused : flag (Fld.SQn_CFG_USED n) s = true) : exec (.safTestOverdue n) s
      = .next (safNote Fld.SAF_EVENT_TEST Code.SAF_TEST_OVERDUE s) := by
  show execSafTestOverdue n s = _
  simp only [execSafTestOverdue, hruns, hauth, hused, Bool.and_self, if_true]
  rfl

/-! ### The obligation -/

/-- A fresh request whose reset bit was clear gives the output a reset edge. -/
theorem resetEdge_of_fresh {s : State} {w : DWord} {n : Fin 8} (hword : s.saf.word = some w) (hfresh : reqFresh w s = true)
    (hbit : w.getLsbD (24 + n) = true) (hseq : s.saf.lastSeq.isSome = true) (hclear : s.saf.resets.getLsbD n = false) :
    (takeRequest s).saf.resetEdge.getLsbD n = true := by
  obtain ⟨q, hq⟩ := Option.isSome_iff_exists.1 hseq
  have hr : (BitVec.ofNat 8 (w.toNat / 2 ^ 24)).getLsbD n = true := by
    rw [BitVec.getLsbD_ofNat, Nat.testBit_div_two_pow, Nat.add_comm]
    simpa [← BitVec.testBit_toNat] using hbit
  rw [takeRequest_fresh hword hfresh, wr64_saf, hq]
  simp only [Option.isNone_some, Bool.false_eq_true, if_false, BitVec.getLsbD_and, BitVec.getLsbD_not, hr, hclear, n.isLt,
    decide_true, Bool.not_false, Bool.and_self]

/-- Settles O29: a cycle leaves on an output what its own evaluation leaves, and the commands of a test act on one output. -/
theorem safetyOutputs : Obligations.SafetyOutputs := by
  intro s n hs tie
  refine ⟨fun hup hused hst hpermit => ?_, fun hup hused hst hpermit hword hreq => ?_,
    fun hup hused hst hpermit hword hreq => ?_, fun hup hused hst hpermit hword hreq hidle => ?_, fun hup hst hpermit => ?_,
    fun hup hused hst hpermit hword hseq hclear => ?_, fun hup hst hword => ?_, fun hup hstate => ?_, fun hup => ?_,
    fun hup hstate hused hmay hidle hst hhs hls => ?_, fun hup hstate hused hmay hidle hst hsince => ?_, fun hdark => ?_,
    fun hbright hdelayed => ?_, fun htest => ?_, fun hup => ?_, fun hup hstate => ?_, fun hruns hauth hused => ?_⟩
  · refine completes_of_exec (exec_safetyCycle hup) ?_
    rw [sq_cycleDone, sqEval_on_unpermitted hused hst hpermit, sq_sqTrip, sq_sqCut]
    exact ⟨rfl, rfl, rfl, flag_trip_cycleDone hused hst hpermit, rd_cycleDone_cycles s⟩
  · refine completes_of_exec (exec_safetyCycle hup) ?_
    rw [sq_cycleDone_none hword, hreq, sqEval_on_requested hused hst hpermit]
  · refine completes_of_exec (exec_safetyCycle hup) ?_
    rw [sq_cycleDone_none hword, hreq, sqEval_on_released hused hst hpermit, sq_onSq_same, sq_sqCut]
    exact ⟨rfl, rfl, rfl⟩
  · refine completes_of_exec (exec_safetyCycle hup) ?_
    rw [sq_cycleDone_none hword, hreq, sqEval_off_permitted hused hst hpermit, onlyIf, if_pos rfl, sq_sqClose hidle]
    exact ⟨rfl, rfl, rfl⟩
  · refine completes_of_exec (exec_safetyCycle hup) ?_
    rw [sq_cycleDone]
    obtain h | h := sqEval_off_unpermitted hst hpermit ((safReq (takeRequest s)).getLsbD n)
      ((takeRequest s).saf.resetEdge.getLsbD n)
    · rw [h, hst]
      exact ⟨SqState.noConfusion, rfl⟩
    · rw [h, sq_sqTrip]
      exact ⟨SqState.noConfusion, rfl⟩
  · obtain ⟨w, hw, hboth⟩ := Option.any_eq_true _ _ |>.1 hword
    obtain ⟨hfresh, hbit⟩ := Bool.and_eq_true_iff.1 hboth
    refine completes_of_exec (exec_safetyCycle hup) ⟨?_, ?_, ?_⟩
    · rw [sq_cycleDone, sqEval_tripped hused hst, hpermit, resetEdge_of_fresh hw hfresh hbit hseq hclear, Bool.and_self, onlyIf,
        if_pos rfl, sq_safSay, sq_onSq_same]
    · rw [rd64_cycleDone_req, takeRequest_fresh hw hfresh, rd64_wr64_same, hw]
    · rw [timedOut_cycleDone, takeRequest_fresh hw hfresh, wr64_saf]
  · refine completes_of_exec (exec_safetyCycle hup) ?_
    rw [sq_cycleDone_none hword, sqEval_tripped_noEdge hst, hst]
  · exact ⟨_, exec_safetyCycle_fallback hup hstate, wr64_saf _ _ _, rd64_wr64_same _ _ _⟩
  · exact ⟨_, exec_safSxTimeout hup tie, by rw [requestsStopped, safNote_saf], flag_safNote rfl rfl (by decide) _ _,
      safReq_requestsStopped tie⟩
  · refine completes_of_exec (exec_sqTestStart_dark hup hstate hused hmay hidle hst hhs hls hs) ?_
    rw [sq_onSq_same, hhs, hls]
    exact ⟨rfl, Bool.true_and _, Bool.true_and _, hst⟩
  · refine completes_of_exec (exec_sqTestStart_bright hup hstate hused hmay hidle hst hsince hs) ?_
    rw [sq_onSq_same]
    exact ⟨rfl, rfl, rfl, rfl⟩
  · obtain ⟨x, htest, hx⟩ := Option.any_eq_true _ _ |>.1 hdark
    have h := completes_sqTestConfirm htest
    rwa [hx, Bool.true_or] at h
  · obtain ⟨x, htest, hx⟩ := Option.any_eq_true _ _ |>.1 hbright
    have h := completes_sqTestConfirm htest
    rwa [hdelayed, Bool.or_false, Bool.not_eq_true' _ |>.mp hx] at h
  · obtain ⟨x, hx⟩ := Option.isSome_iff_exists.1 htest
    refine completes_of_exec (exec_sqTestExpiry hx tie) ?_
    rw [sq_sqFault]
    exact ⟨rfl, rfl, rfl, rfl, flag_sqFault _ _ _ _⟩
  · refine completes_of_exec (exec_safSqOvercurrent hup n) ?_
    rw [sq_sqFault]
    exact ⟨rfl, rfl, rfl, rfl⟩
  · refine completes_of_exec (exec_safSqDisagree hup hstate n) ?_
    rw [sq_sqFault]
    exact ⟨rfl, rfl, rfl, rfl⟩
  · exact ⟨_, exec_safTestOverdue hruns hauth hused, safNote_saf _ _ _, flag_safNote rfl rfl (by decide) _ _,
      fld_safNote_status _ _ _⟩

end Sys2Proof.Machine
end

section
/-! PROOFS. Safety inputs, test pulses, bank supplies, safety authority and the region's fallback (O30). -/
namespace Sys2Proof.Machine

/-! ### Contacts (R383, R394, R395) -/

/-- A contact takes a level, by the processor's filter or by Breakwater's. -/
def SiPair.filtered (b level : Bool) (x : SiPair) : SiPair := if b then { x with b := level } else { x with a := level }
def SiPair.bwFiltered (b level : Bool) (x : SiPair) : SiPair := if b then { x with bwB := level } else { x with bwA := level }

theorem kind_filtered (b level : Bool) (x : SiPair) : (x.filtered b level).kind = x.kind := by cases b <;> rfl

theorem exec_siFilterExpiry {p : Fin 8} {s : State} (hup : regionsUp s = true) (hkind : (siPair p s).kind ≠ 1)
    (b level : Bool) : exec (.siFilterExpiry p b level) s = .next (onSi p (SiPair.filtered b level) s) := by
  have hother : (siPair p (onSi p (SiPair.filtered b level) s)).kind != 1 := by
    rw [siPair_onSi_same, kind_filtered]
    exact bne_iff_ne.2 hkind
  show execSiFilterExpiry p b level s = _
  simp only [execSiFilterExpiry, hup, Bool.not_true, Bool.false_eq_true, if_false]
  exact congrArg Host.Outcome.next (if_pos hother)

theorem exec_breakwaterContactChange {s : State} (hreset : s.sup.inReset = false) (hpower : 2 ≤ power s) (p : Fin 8)
    (b level : Bool) : exec (.breakwaterContactChange p b level) s = .next (onSi p (SiPair.bwFiltered b level) s) := by
  have hlow : ¬ power s < 2 := by omega
  show execBreakwaterContactChange p b level s = _
  simp only [execBreakwaterContactChange, hreset, hlow, decide_false, Bool.or_self, Bool.false_eq_true, if_false]
  rfl

theorem exec_safSiDiscrepancy {p : Fin 8} {s : State} (hup : safUp s = true)
    (hmode : inRange (fld (Fld.SIp_CFG_MODE p) s) 1 2 = true) (hapart : siAgree p (siPair p s) s = false)
    (hkind : (siPair p s).kind = 0) (tie : Bool) :
    exec (.safSiDiscrepancy p tie) s = .next (siFault p 1 Code.SAF_SI_DISCREPANCY id (safTie tie s)) := by
  show execSafSiDiscrepancy p tie s = _
  simp only [execSafSiDiscrepancy, hup, hmode, hapart, hkind, Bool.not_false, Bool.and_self, beq_self_eq_true, if_true]

theorem siPair_siFault (p : Nat) (kind : Fin 4) (st : Status) (f : SiPair → SiPair) (s : State) :
    siPair p (siFault p kind st f s) = f { siPair p s with kind := kind, demanded := false } := by
  show siPair p (safNote _ _ _) = _
  rw [siPair_safNote, siPair_onSi_same]

theorem flag_siFault (p : Nat) (kind : Fin 4) (st : Status) (f : SiPair → SiPair) (s : State) :
    flag Fld.SAF_EVENT_FAULT (siFault p kind st f s) = true := flag_safNote rfl rfl (by decide) _ _

/-- A pair with a fault demands (R396). -/
theorem pairHealthy_of_kind {p : Nat} {s : State} (h : (siPair p s).kind ≠ 0) : pairHealthy p s = false := by
  simp only [pairHealthy, beq_false_of_ne h, Bool.false_and]

/-! ### Test pulses (R393, R396) -/

theorem exec_tpPulseStart {k : Fin 4} {s : State} (hup : safUp s = true)
    (hrun : (fld Fld.SAF_TP_STATUS_RUN s).testBit k = true) (hhigh : s.saf.pulsing.contains k.val = false) :
    exec (.tpPulseStart k) s = .next (setBitAt Reg.SAF_TP_STATUS (24 + k) false
      { s with saf := { s.saf with pulsing := k.val :: s.saf.pulsing } }) := by
  show execTpPulseStart k s = _
  simp only [execTpPulseStart, hup, hrun, hhigh, Bool.not_false, Bool.and_self, if_true]

/-- The source is high again, before its window is judged. -/
def pulseEnded (k : Nat) (s : State) : State :=
  setBitAt Reg.SAF_TP_STATUS (24 + k) true { s with saf := { s.saf with pulsing := s.saf.pulsing.filter (· != k) } }

theorem fld_pulseEnded (f : RegField) (hf : f.addr ≠ Reg.SAF_TP_STATUS) (k : Nat) (s : State) :
    fld f (pulseEnded k s) = fld f s := by
  rw [fld, pulseEnded, setBitAt, if_pos rfl, rd_orReg, if_neg hf]
  rfl

theorem siPair_pulseEnded (p k : Nat) (s : State) : siPair p (pulseEnded k s) = siPair p s :=
  siPair_congr (by rw [pulseEnded, setBitAt_saf]) p

/-- The windows of all pairs. -/
def windowsJudged (k : Nat) (low : BitVec 16) (s : State) : State :=
  forAll (List.range 8) (fun p => pairWindow p k (low.getLsbD (2 * p)) (low.getLsbD (2 * p + 1))) s

theorem exec_tpPulseEnd {k : Fin 4} {s : State} (hlow : s.saf.pulsing.contains k.val = true) (low : BitVec 16) :
    exec (.tpPulseEnd k low) s = .next (windowsJudged k low (pulseEnded k s)) := by
  show execTpPulseEnd k low s = _
  simp only [execTpPulseEnd, hlow, Bool.not_true, Bool.false_eq_true, if_false]
  rfl

/-- From `s` to `t` only pairs of which `P` does not hold changed, and the region's reports. -/
structure SparesPairs (P : Nat → Prop) (s t : State) : Prop where
  pairs : ∀ p, P p → siPair p t = siPair p s
  rest : { t.saf with si := [] } = { s.saf with si := [] }
  regs : ∀ a, ¬ SafReport a → rd a t = rd a s

theorem SparesPairs.refl {P : Nat → Prop} (s : State) : SparesPairs P s s := ⟨fun _ _ => rfl, rfl, fun _ _ => rfl⟩

theorem SparesPairs.trans {P : Nat → Prop} {s t u : State} (h : SparesPairs P s t) (k : SparesPairs P t u) :
    SparesPairs P s u where
  pairs p hp := (k.pairs p hp).trans (h.pairs p hp)
  rest := k.rest.trans h.rest
  regs a ha := (k.regs a ha).trans (h.regs a ha)

theorem sparesPairs_onSi {P : Nat → Prop} {p : Nat} (hp : ¬ P p) (f : SiPair → SiPair) (s : State) :
    SparesPairs P s (onSi p f s) :=
  ⟨fun _ hq => siPair_onSi_other (fun e : _ = p => hp (e ▸ hq)) f s, rfl, fun _ _ => rfl⟩

theorem sparesPairs_siFault {P : Nat → Prop} {p : Nat} (hp : ¬ P p) (kind : Fin 4) (st : Status) (f : SiPair → SiPair)
    (s : State) : SparesPairs P s (siFault p kind st f s) :=
  (sparesPairs_onSi hp (fun x => f { x with kind := kind, demanded := false }) s).trans
    ⟨fun q _ => siPair_safNote q _ _ _, congrArg (fun x : Saf => { x with si := [] }) (safNote_saf _ _ _),
      fun _ ha => rd_safNote rfl (SafReport.event.ne ha) (SafReport.status.ne ha) _ _⟩

theorem sparesPairs_siRecover {P : Nat → Prop} {p : Nat} (hp : ¬ P p) (s : State) : SparesPairs P s (siRecover p s) :=
  (sparesPairs_onSi hp _ s).trans
    ⟨fun q _ => siPair_safSay q _ _, congrArg (fun x : Saf => { x with si := [] }) (safSay_saf _ _),
      fun _ ha => rd_safSay (SafReport.status.ne ha) _ _⟩

theorem sparesPairs_pairWindow {P : Nat → Prop} {p : Nat} (hp : ¬ P p) (k : Nat) (lowA lowB : Bool) (s : State) :
    SparesPairs P s (pairWindow p k lowA lowB s) := by
  unfold pairWindow
  dsimp only
  split
  case isTrue => exact SparesPairs.refl s
  case isFalse =>
    split
    case isTrue =>
      split
      · exact sparesPairs_siRecover hp s
      · exact sparesPairs_onSi hp _ s
    case isFalse =>
      split
      · exact sparesPairs_siFault hp _ _ _ s
      · split
        · exact sparesPairs_siFault hp _ _ _ s
        · exact SparesPairs.refl s

theorem windowsJudged_spares (k : Nat) (low : BitVec 16) (s : State) :
    SparesPairs (fun _ => False) s (windowsJudged k low s) :=
  forAll_rel SparesPairs.refl SparesPairs.trans _ (fun _ _ u => sparesPairs_pairWindow not_false _ _ _ u) s

/-- A contact that stays high while its own source pulls low is stuck. -/
theorem kind_pairWindow_stuck {p k : Nat} {s : State} (hmode : inRange (fld (Fld.SIp_CFG_MODE p) s) 1 2 = true)
    (hsrc : fld (Fld.SIp_CFG_SRC_A p) s = k) (hkind : (siPair p s).kind = 0) (lowB : Bool) :
    (siPair p (pairWindow p k false lowB s)).kind = 2 := by
  have hfree : ((siPair p s).kind == 2 || (siPair p s).kind == 3) = false := by rw [hkind]; rfl
  unfold pairWindow
  simp only [hmode, hsrc, hfree, windowCheck, Bool.not_true, Bool.false_eq_true, if_false, if_true, beq_self_eq_true,
    Bool.true_or, siPair_siFault]

theorem kind_windowsJudged {p : Fin 8} {k : Nat} {low : BitVec 16} {s : State}
    (hmode : inRange (fld (Fld.SIp_CFG_MODE p) s) 1 2 = true) (hsrc : fld (Fld.SIp_CFG_SRC_A p) s = k)
    (hlow : low.getLsbD (2 * p) = false) (hkind : (siPair p s).kind = 0) :
    (siPair p (windowsJudged k low s)).kind = 2 := by
  obtain ⟨u, hbefore, hafter⟩ := forAll_at (f := fun p => pairWindow p k (low.getLsbD (2 * p)) (low.getLsbD (2 * p + 1)))
    SparesPairs.refl SparesPairs.trans p.isLt
    (fun _ hq u => sparesPairs_pairWindow (P := (· = p.val)) hq _ _ _ u) s
  have hcfg : rd (Reg.SIp_CFG p) u = rd (Reg.SIp_CFG p) s := hbefore.regs _ (PermitReg.pair (n := 0) p).not_report
  have hmodeU : fld (Fld.SIp_CFG_MODE p) u = fld (Fld.SIp_CFG_MODE p) s := fld_congr hcfg
  have hsrcU : fld (Fld.SIp_CFG_SRC_A p) u = fld (Fld.SIp_CFG_SRC_A p) s := fld_congr hcfg
  have hkindU : (siPair p u).kind = 0 := by rw [hbefore.pairs p rfl, hkind]
  rw [windowsJudged, hafter.pairs p rfl, hlow]
  exact kind_pairWindow_stuck (hmodeU ▸ hmode) (hsrcU.trans hsrc) hkindU _

/-! ### Bank supplies (R405) -/

theorem exec_safBankLow {k : Fin 4} {s : State} (hup : regionsUp s = true) (hlow : s.saf.bankLow.contains k.val = false)
    (tie : Bool) : exec (.safBankLow k tie) s = .next (safNote Fld.SAF_EVENT_BANK_LOW Code.SAF_BANK_LOW
      (safTie tie { s with saf := { s.saf with bankLow := k.val :: s.saf.bankLow } })) := by
  show execSafBankLow k tie s = _
  simp only [execSafBankLow, hup, hlow, Bool.not_false, Bool.and_self, if_true]
  rfl

theorem exec_safBankRestored {k : Fin 4} {s : State} (hup : regionsUp s = true)
    (hlow : s.saf.bankLow.contains k.val = true) : exec (.safBankRestored k) s = .next (safSay Code.SAF_BANK_RESTORED
      { s with saf := { s.saf with bankLow := s.saf.bankLow.filter (· != k.val) } }) := by
  show execSafBankRestored k s = _
  simp only [execSafBankRestored, hup, hlow, Bool.and_self, if_true]

/-- The outputs of a low bank have no permit. -/
theorem sqPermit_of_bankLow {n : Nat} {s : State} (h : s.saf.bankLow.contains (n / 2) = true) : sqPermit n s = false := by
  simp only [sqPermit, h, Bool.not_true, Bool.and_false, Bool.false_and]

/-! ### The fallback of the region (R384, R393, R411, R412) -/

theorem inFallback_safSay (r : Nat) (st : Status) (s : State) : inFallback r (safSay st s) = inFallback r s := by
  rw [inFallback, bitAt, rd_safSay (by decide), inFallback, bitAt]

theorem inFallback_safFault {s : State} (hup : regionsUp s = true) (st : Status) : inFallback 4 (safFault st s) = true := by
  cases hin : inFallback 4 s with
  | true => simp only [safFault, hin, Bool.true_or, if_true]
  | false =>
    simp only [safFault, hin, hup, Bool.not_true, Bool.or_self, Bool.false_eq_true, if_false]
    exact inFallback_enterFallback (by decide) st _

/-- The region's own part is all of its fallback: it climbs to no other level (R36). -/
theorem safFault_enters {s : State} (hup : regionsUp s = true) (hout : inFallback 4 s = false) (st : Status) :
    safFault st s = markFallback 4 (safFall st (safSay st s)) := by
  simp only [safFault, hout, hup, Bool.not_true, Bool.or_self, Bool.false_eq_true, if_false, enterFallback, inFallback_safSay]
  rw [if_neg]
  · rfl
  · simp

theorem markFallback_only (r : Nat) (s : State) : Only [.block 0x01, .free, .strand, .mbx, .out] s (markFallback r s) :=
  (markFallback_does r s (Does.refl _ _) rfl).only

/-- Every connection stops. -/
def connsStop (s : State) : State :=
  forAll s.saf.conns (fun e => onConn e.1 (fun c => { c with st := .idle, live := false, tx := [] })) s

theorem connsStop_saf (s : State) : { (connsStop s).saf with conns := [] } = { s.saf with conns := [] } := by
  unfold connsStop
  refine forAll_keeps (g := fun u => { u.saf with conns := [] }) (fun _ _ => ?_) _ s
  rfl

theorem rd_connsStop (a : Nat) (s : State) : rd a (connsStop s) = rd a s := by
  unfold connsStop
  refine forAll_keeps (g := rd a) (fun _ _ => ?_) _ s
  rfl

theorem sq_connsStop (n : Nat) (s : State) : sq n (connsStop s) = sq n s :=
  sq_congr (congrArg Saf.sq (connsStop_saf s) :) n

/-- Every output changes. -/
def allOutputs (f : SqOut → SqOut) (s : State) : State := forAll (List.range 8) (fun n => onSq n f) s

theorem allOutputs_saf (f : SqOut → SqOut) (s : State) : { (allOutputs f s).saf with sq := [] } = { s.saf with sq := [] } := by
  unfold allOutputs
  refine forAll_keeps (g := fun u => { u.saf with sq := [] }) (fun _ _ => ?_) _ s
  rfl

theorem allOutputs_sup (f : SqOut → SqOut) (s : State) : (allOutputs f s).sup = s.sup := by
  unfold allOutputs
  refine forAll_keeps (g := State.sup) (fun _ _ => ?_) _ s
  rfl

theorem rd_allOutputs (a : Nat) (f : SqOut → SqOut) (s : State) : rd a (allOutputs f s) = rd a s := by
  unfold allOutputs
  refine forAll_keeps (g := rd a) (fun _ _ => ?_) _ s
  rfl

/-- What the change brings about on an output, and does not undo, it shows. -/
theorem sq_allOutputs {Q : SqOut → Prop} {f : SqOut → SqOut} (hf : ∀ x, Q (f x)) (n : Fin 8) (s : State) :
    Q (sq n (allOutputs f s)) := by
  refine forAll_reaches (P := fun u => Q (sq n u)) (List.mem_range.2 n.isLt) (fun u => ?_) (fun m _ u hu => ?_) s
  · rw [sq_onSq_same]
    exact hf _
  · by_cases h : n.val = m
    · rw [h, sq_onSq_same]
      exact hf _
    · rw [sq_onSq_other h]
      exact hu

/-- The registers of the region as it falls back. -/
def fallMarked (st : Status) (s : State) : State :=
  s |> setFld Fld.SAF_STATE_STATE 4 |> setFld Fld.SAF_STATE_CAUSE st.toNat |> safEv Fld.SAF_EVENT_FALLBACK |> tpStop
    |> setFld Fld.SAF_TP_STATUS_LEVEL 0

theorem safFall_eq (st : Status) (s : State) : safFall st s = connsStop (allOutputs (fun x => { x with
    st := if x.st == .on then .off else x.st
    hs := false
    lsReq := false
    lsTest := false
    test := none
    delayed := false
    leaving := none }) (fallMarked st s)) := rfl

theorem safState_safFall (st : Status) (s : State) : safState (safFall st s) = 4 := by
  have hmarked : safState (fallMarked st s) = 4 := by
    rw [safState, fallMarked, fld_setFld_addr _ _ _ _ (by decide), tpStop, fld_setFld_addr _ _ _ _ (by decide)]
    show fld Fld.SAF_STATE_STATE (safEv _ _) = 4
    rw [safEv, fld_raiseF_addr _ _ _ _ (by decide), fld_setFld_disj _ _ _ _ (.inr (by decide)),
      fld_setFld_same _ _ _ (by decide)]
    rfl
  rw [safState, fld, safFall_eq, rd_connsStop, rd_allOutputs]
  exact hmarked

/-- The fallback leaves what Breakwater holds. -/
theorem bw_safFall (st : Status) (s : State) :
    (safFall st s).saf.bwOk = s.saf.bwOk ∧ (safFall st s).saf.hbOk = s.saf.hbOk := by
  have hmarked : (fallMarked st s).saf = { s.saf with pulsing := [] } := by
    rw [fallMarked, setFld_saf, tpStop, setFld_saf, safEv, raiseF_saf, setFld_saf, setFld_saf]
  rw [safFall_eq]
  generalize hf : (fun x : SqOut => _) = f
  have hconns := connsStop_saf (allOutputs f (fallMarked st s))
  have houts := allOutputs_saf f (fallMarked st s)
  refine ⟨(congrArg Saf.bwOk hconns :).trans ((congrArg Saf.bwOk houts :).trans ?_),
    (congrArg Saf.hbOk hconns :).trans ((congrArg Saf.hbOk houts :).trans ?_)⟩ <;> rw [hmarked]

theorem safFault_saf {s : State} (hup : regionsUp s = true) (hout : inFallback 4 s = false) (st : Status) :
    (safFault st s).saf.bwOk = s.saf.bwOk ∧ (safFault st s).saf.hbOk = s.saf.hbOk := by
  rw [safFault_enters hup hout, markFallback_only _ _ .saf rfl]
  have h := bw_safFall st (safSay st s)
  rwa [safSay_saf] at h

theorem safState_safFault {s : State} (hup : regionsUp s = true) (hout : inFallback 4 s = false) (st : Status) :
    safState (safFault st s) = 4 := by
  rw [safFault_enters hup hout, safState, fld_of_only (markFallback_only _ _) _ rfl]
  exact safState_safFall st _

theorem exec_safTpSource {s : State} (hup : regionsUp s = true) (hstate : safState s = 0) (k : Fin 4) :
    exec (.safTpSource k) s = .next (safFault Code.SAF_TP_SOURCE s) := by
  show execSafTpSource k s = _
  simp only [execSafTpSource, hup, hstate, beq_self_eq_true, Bool.or_true, Bool.and_self, if_true]

theorem exec_safLockstep {s : State} (hstrap : flag Fld.SAF_STATE_SPLIT_STRAP s = false) :
    exec .safLockstep s = .next (safFault Code.SAF_LOCKSTEP s) := by
  show execSafLockstep s = _
  simp only [execSafLockstep, hstrap, Bool.false_eq_true, if_false]

/-- Breakwater has failed its self-test, or has lost the heartbeat. -/
def bwFailed (s : State) : State := { s with saf := { s.saf with bwOk := false } }
def hbLost (s : State) : State := { s with saf := { s.saf with hbOk := false } }

theorem exec_safBwSelftest {s : State} (hup : regionsUp s = true) :
    exec .safBwSelftest s = .next (safFault Code.SAF_BW_SELFTEST (bwFailed s)) := by
  show execSafBwSelftest s = _
  simp only [execSafBwSelftest, hup, if_true]
  rfl

theorem exec_safBwHb {s : State} (hup : regionsUp s = true) (hhb : s.saf.hbOk = true) :
    exec .safBwHb s = .next (safFault Code.SAF_BW_HB (hbLost s)) := by
  simp only [regionsUp, alive, Bool.and_eq_true, Bool.not_eq_true', decide_eq_true_eq] at hup
  obtain ⟨⟨⟨hreset, -⟩, -⟩, hpower⟩ := hup
  have hlow : ¬ power s < 2 := by omega
  show execSafBwHb s = _
  simp only [execSafBwHb, hreset, hlow, hhb, decide_false, Bool.not_true, Bool.or_self, Bool.false_eq_true, if_false]
  rfl

theorem exec_safetyHeartbeatToggle {s : State} (hup : regionsUp s = true) :
    exec .safetyHeartbeatToggle s = .next { s with saf := { s.saf with hbLine := !s.saf.hbLine } } := by
  show execSafetyHeartbeatToggle s = _
  simp only [execSafetyHeartbeatToggle, hup, if_true]

/-! ### The gain of safety authority (R406, R408, R437) -/

/-- What the gain shows at once and the rest of it keeps. -/
def authView (s : State) : Bool × Nat × Word × Word :=
  (s.saf.auth, s.saf.authAt, rd Reg.SAF_STATE s, rd Reg.SAF_EVENT s)

/-- It is kept by what keeps the region but its outputs and connections, and the two registers. -/
theorem authView_congr {s t : State}
    (hsaf : { t.saf with sq := [], conns := [] } = { s.saf with sq := [], conns := [] })
    (hstate : rd Reg.SAF_STATE t = rd Reg.SAF_STATE s) (hevent : rd Reg.SAF_EVENT t = rd Reg.SAF_EVENT s) :
    authView t = authView s := by
  have hauth : t.saf.auth = s.saf.auth := (congrArg Saf.auth hsaf :)
  have hsince : t.saf.authAt = s.saf.authAt := (congrArg Saf.authAt hsaf :)
  rw [authView, authView, hauth, hsince, hstate, hevent]

theorem authView_ite {p : Prop} [Decidable p] {s t u : State} (ht : authView t = authView s) (hu : authView u = authView s) :
    authView (if p then t else u) = authView s := by
  split
  · exact ht
  · exact hu

theorem authView_safSay (st : Status) (s : State) : authView (safSay st s) = authView s :=
  authView_congr (by rw [safSay_saf]) (rd_safSay (by decide) st s) (rd_safSay (by decide) st s)

theorem authView_say (st : Status) (s : State) : authView (say st s) = authView s :=
  authView_congr (by rw [say_saf]) (rd_say _ st s) (rd_say _ st s)

theorem authView_connSend (i : Nat) (bytes : List Byte) (s : State) : authView (connSend i bytes s) = authView s :=
  authView_congr (congrArg (fun x : Saf => { x with sq := [] }) (connSend_saf i bytes s))
    (connSend_only i bytes s (.block 8) rfl _ rfl) (connSend_only i bytes s (.block 8) rfl _ rfl)

theorem authView_connOpen (i : Nat) (mirrored : Bool) (s : State) : authView (connOpen i mirrored s) = authView s := by
  unfold connOpen
  dsimp only
  split
  · rfl
  · rw [connOpenSend, authView_connSend, authView_safSay]
    rfl

theorem authView_connStart (s : State) : authView (connStart s) = authView s := by
  unfold connStart
  refine forAll_keeps (g := authView) (fun e u => ?_) _ s
  dsimp only
  split
  case h_1 =>
    split
    · split
      · exact authView_connOpen _ _ _
      · rfl
    · split
      · exact authView_connOpen _ _ _
      · rfl
  case h_2 =>
    split
    · exact authView_connOpen _ _ _
    · rfl

theorem authView_sqGain (n : Nat) (s : State) : authView (sqGain n s) = authView s := by
  unfold sqGain
  exact authView_ite rfl (authView_ite rfl rfl)

theorem authView_tpStart (s : State) : authView (tpStart s) = authView s :=
  authView_congr rfl (by rw [tpStart, rd_setFld, if_neg (by decide), rd_setFld, if_neg (by decide)])
    (by rw [tpStart, rd_setFld, if_neg (by decide), rd_setFld, if_neg (by decide)])

/-- The gain itself. -/
def authGained (s : State) : State :=
  { s with saf := { s.saf with auth := true, authAt := nowNs s, bwAuth := true, handover := false, holding := false } }
    |> safNote Fld.SAF_EVENT_AUTHORITY Code.SAF_AUTH_TAKEN

/-- The region takes over the mirrored request. -/
def mirrorTaken (t : State) : State :=
  match t.saf.mirrorReq with
  | some w =>
    if t.saf.mirrorStale then t
    else wr64 Reg.SAF_SX_REQ_LO w { t with saf := { t.saf with
      lastSeq := some (BitVec.ofNat 8 (w.toNat / 2 ^ 56)), resets := BitVec.ofNat 8 (w.toNat / 2 ^ 24), mirrorReq := none } }
  | none => t

theorem authView_mirrorTaken (s : State) : authView (mirrorTaken s) = authView s := by
  unfold mirrorTaken
  split
  case h_1 =>
    split
    · rfl
    · rw [authView, rd_wr64_other (by decide) (by decide), rd_wr64_other (by decide) (by decide), wr64_saf]
      rfl
  case h_2 => rfl

/-- The region leaves SHADOW: its outputs, connections and sources start. -/
def shadowLeft (s : State) : State :=
  let t := connStart (forAll (List.range 8) sqGain (mirrorTaken (setFld Fld.SAF_STATE_STATE 1 s)))
  let t := onlyIf t.saf.mirrorStale (say Code.PAIR_SAFETY_MIRROR_STALE) t
  tpStart { t with saf := { t.saf with mirrorStale := false } }

theorem authView_shadowLeft (s : State) : authView (shadowLeft s) = authView (setFld Fld.SAF_STATE_STATE 1 s) := by
  have hsaid : ∀ c u, authView (onlyIf c (say Code.PAIR_SAFETY_MIRROR_STALE) u) = authView u := by
    intro c u
    cases c
    · rfl
    · exact authView_say _ u
  rw [shadowLeft, authView_tpStart]
  refine (hsaid _ _).trans ?_
  rw [authView_connStart, forAll_keeps (g := authView) authView_sqGain, authView_mirrorTaken]

/-- The state after the sense shows that the side holds AUTH alone. -/
def authTaken (s : State) : State :=
  let t := authGained s
  if safState t = 2 then shadowLeft t else onlyIf (safState t == 3) (fun t => tpStart (connStart t)) t

theorem exec_safAuthTaken {s : State} (hup : regionsUp s = true) (hauth : s.saf.auth = false)
    (hheld : flag Fld.PAIR_STATE_AUTH_HELD s = true) : exec .safAuthTaken s = .next (authTaken s) := by
  show execSafAuthTaken s = _
  simp only [execSafAuthTaken, hup, hauth, hheld, Bool.not_true, Bool.or_self, Bool.false_eq_true, if_false]
  rfl

theorem authView_authTaken (s : State) : authView (authTaken s)
    = authView (onlyIf (safState (authGained s) == 2) (setFld Fld.SAF_STATE_STATE 1) (authGained s)) := by
  unfold authTaken
  dsimp only
  by_cases h : safState (authGained s) = 2
  · rw [if_pos h, authView_shadowLeft, h]
    rfl
  · rw [if_neg h, beq_false_of_ne h]
    cases safState (authGained s) == 3
    · rfl
    · show authView (tpStart (connStart _)) = _
      rw [authView_tpStart, authView_connStart]
      rfl

/-- The gain holds at once, and a region in SHADOW goes to RUN. -/
theorem authTaken_shows (s : State) : (authTaken s).saf.auth = true ∧ (authTaken s).saf.authAt = nowNs s
    ∧ flag Fld.SAF_EVENT_AUTHORITY (authTaken s) = true ∧ (safState s = 2 → safState (authTaken s) = 1) := by
  have hview := authView_authTaken s
  have hstate : safState (authGained s) = safState s := fld_congr (rd_safNote rfl (by decide) (by decide) _ _)
  have hnoted : flag Fld.SAF_EVENT_AUTHORITY (authGained s) = true := flag_safNote rfl rfl (by decide) _ _
  have hsaf : (authGained s).saf.auth = true ∧ (authGained s).saf.authAt = nowNs s := by
    rw [authGained, safNote_saf]
    exact ⟨rfl, rfl⟩
  obtain ⟨hauth, hsince⟩ := hsaf
  rw [hstate] at hview
  simp only [authView, Prod.mk.injEq] at hview
  obtain ⟨hauthT, hsinceT, hstateT, heventT⟩ := hview
  have hkept : ∀ c, (onlyIf c (setFld Fld.SAF_STATE_STATE 1) (authGained s)).saf = (authGained s).saf
      ∧ rd Reg.SAF_EVENT (onlyIf c (setFld Fld.SAF_STATE_STATE 1) (authGained s)) = rd Reg.SAF_EVENT (authGained s) := by
    intro c
    cases c
    · exact ⟨rfl, rfl⟩
    · exact ⟨setFld_saf _ _ _, by rw [onlyIf, if_pos rfl, rd_setFld, if_neg (by decide)]⟩
  obtain ⟨hsafC, heventC⟩ := hkept (safState s == 2)
  refine ⟨hauthT.trans (hsafC ▸ hauth), hsinceT.trans (hsafC ▸ hsince),
    (flag_of_rd (heventT.trans heventC)).trans hnoted, fun hshadow => ?_⟩
  rw [safState, fld, hstateT, hshadow, onlyIf, if_pos (beq_self_eq_true 2)]
  exact fld_setFld_same Fld.SAF_STATE_STATE 1 _ (by decide)

/-! ### The end of safety authority (R406, R409) -/

/-- Authority ends and the sources stop. -/
def authEnded (s : State) : State :=
  { s with saf := { s.saf with auth := false, bwAuth := false, holding := false, handover := false } }
    |> safNote Fld.SAF_EVENT_AUTHORITY Code.SAF_AUTH_RELEASED |> tpStop |> setFld Fld.SAF_TP_STATUS_LEVEL 0

/-- A region in RUN goes to SHADOW. -/
def authShadowed (s : State) : State := onlyIf (safState (authEnded s) == 1) (setFld Fld.SAF_STATE_STATE 2) (authEnded s)

theorem safDrop_eq (s : State) : safDrop s
    = connsStop (allOutputs SqOut.opened (onlyIf (safUp (authShadowed s)) (sqEvalAll 0) (authShadowed s))) := rfl

theorem rd_authEnded (s : State) : rd Reg.SAF_STATE (authEnded s) = rd Reg.SAF_STATE s := by
  rw [authEnded, rd_setFld, if_neg (by decide), tpStop, rd_setFld, if_neg (by decide)]
  exact rd_safNote rfl (by decide) (by decide) _ _

theorem authEnded_saf (s : State) : (authEnded s).saf.auth = false ∧ (authEnded s).saf.holding = false := by
  rw [authEnded, setFld_saf, tpStop, setFld_saf, safNote_saf]
  exact ⟨rfl, rfl⟩

theorem authShadowed_saf (s : State) : (authShadowed s).saf = (authEnded s).saf := by
  unfold authShadowed onlyIf
  split <;> rfl

/-- The evaluation, where the region still evaluates, and all that follows reach only outputs and connections. -/
theorem safDrop_leaves (s : State) : { (safDrop s).saf with sq := [], conns := [] }
      = { (authEnded s).saf with sq := [], conns := [] }
    ∧ rd Reg.SAF_STATE (safDrop s) = rd Reg.SAF_STATE (authShadowed s) := by
  have heval : Spares (fun _ => False) (authShadowed s) (onlyIf (safUp (authShadowed s)) (sqEvalAll 0) (authShadowed s)) :=
    spares_onlyIf (spares_sqEvalAll 0) _ _
  rw [safDrop_eq, ← authShadowed_saf, rd_connsStop, rd_allOutputs]
  generalize hv : onlyIf (safUp (authShadowed s)) (sqEvalAll 0) (authShadowed s) = v at *
  have hconns := congrArg (fun x : Saf => { x with sq := [] }) (connsStop_saf (allOutputs SqOut.opened v))
  have houts := congrArg (fun x : Saf => { x with conns := [] }) (allOutputs_saf SqOut.opened v)
  have hrest := congrArg (fun x : Saf => { x with conns := [] }) heval.rest
  exact ⟨hconns.trans (houts.trans hrest), heval.regs _ (PermitReg.state (n := 0)).not_report⟩

theorem auth_safDrop (s : State) : (safDrop s).saf.auth = false ∧ (safDrop s).saf.holding = false := by
  obtain ⟨hauth, hholding⟩ := authEnded_saf s
  obtain ⟨hrest, -⟩ := safDrop_leaves s
  exact ⟨(congrArg Saf.auth hrest :).trans hauth, (congrArg Saf.holding hrest :).trans hholding⟩

theorem sq_safDrop (n : Fin 8) (s : State) : (sq n (safDrop s)).hs = false ∧ (sq n (safDrop s)).lsReq = false := by
  rw [safDrop_eq, sq_connsStop]
  exact sq_allOutputs (Q := fun x => x.hs = false ∧ x.lsReq = false) (fun _ => ⟨rfl, rfl⟩) n _

theorem safState_safDrop {s : State} (hrun : safState s = 1) : safState (safDrop s) = 2 := by
  have hended : safState (authEnded s) = 1 := (fld_congr (rd_authEnded s)).trans hrun
  obtain ⟨-, hstate⟩ := safDrop_leaves s
  rw [safState, fld, hstate, authShadowed, hended, onlyIf, if_pos (beq_self_eq_true 1)]
  exact fld_setFld_same Fld.SAF_STATE_STATE 2 _ (by decide)

/-- At a switchover the hold starts, in which the sources are held without pulses (R409). -/
def holdStarted (s : State) : State :=
  setFld Fld.SAF_TP_STATUS_LEVEL 15 (tpStop { s with saf := { s.saf with holding := true, handover := false } })

theorem holdStarted_saf (s : State) :
    (holdStarted s).saf = { s.saf with holding := true, handover := false, pulsing := [] } := by
  rw [holdStarted, setFld_saf, tpStop, setFld_saf]

section
variable {s : State} (hauth : s.saf.auth = true) (hholding : s.saf.holding = false)
  (hheld : flag Fld.PAIR_STATE_AUTH_HELD s = false)
include hauth hholding hheld

theorem exec_safAuthReleased (hhand : s.saf.handover = false) : exec .safAuthReleased s = .next (safDrop s) := by
  show execSafAuthReleased s = _
  simp only [execSafAuthReleased, hauth, hholding, hheld, hhand, Bool.not_true, Bool.or_self, Bool.false_and,
    Bool.false_eq_true, if_false]

theorem exec_safAuthReleased_holds (hhand : s.saf.handover = true) (hruns : safRuns s = true) :
    exec .safAuthReleased s = .next (holdStarted s) := by
  have hends : (!s.saf.auth || s.saf.holding || flag Fld.PAIR_STATE_AUTH_HELD s) = false := by
    rw [hauth, hholding, hheld]
    rfl
  have hholds : (s.saf.handover && safRuns s) = true := by rw [hhand, hruns]; rfl
  exact congrArg Host.Outcome.next ((if_neg (hends ▸ Bool.false_ne_true)).trans (if_pos hholds))

end

theorem exec_safHandoverHoldEnd {s : State} (h : s.saf.holding = true) : exec .safHandoverHoldEnd s = .next (safDrop s) := by
  show execSafHandoverHoldEnd s = _
  simp only [execSafHandoverHoldEnd, h, if_true]

/-- A test under way is abandoned (R407). -/
def SqOut.abandoned (x : SqOut) : SqOut := if x.test.isSome then x.opened else x

theorem test_abandoned (x : SqOut) : x.abandoned.test = none := by
  cases h : x.test <;> simp [SqOut.abandoned, SqOut.opened, h]

theorem exec_authTakenByOtherSide {s : State} (hauth : s.saf.auth = false) : exec .authTakenByOtherSide s
    = .next (allOutputs SqOut.abandoned { s with sup := { s.sup with authOther := true } }) := by
  show execAuthTakenByOtherSide s = _
  simp only [execAuthTakenByOtherSide, hauth, Bool.false_eq_true, if_false]
  rfl

/-! ### The obligation -/

/-- Settles O30: each event acts by one operation on its pair, its source, its bank or the region's authority, whose effect the
lemmas above state. -/
theorem safetyInputsAndAuthority : Obligations.SafetyInputsAndAuthority := by
  intro s p n k b level tie low
  refine ⟨fun hup hkind => ?_, fun hup hmode hapart hkind => ?_, fun hup hrun hhigh => ?_, fun hlow => ?_,
    fun hup hstate _ => ?_, fun hup hlow => ?_, fun hup hlow => ?_, fun hup hauth hheld => ?_,
    fun hauth hholding hheld hhand => ?_, fun hauth hholding hheld hhand hruns => ?_, fun hholding => ?_,
    fun hstrap hup hout => ?_, fun hup hout => ?_, fun hup hhb hout => ?_, fun hup => ?_, fun hreset hpower => ?_,
    fun hauth => ?_⟩
  · exact completes_of_exec (exec_siFilterExpiry hup hkind b level)
      ⟨siPair_onSi_same _ _ _, fun h => siPair_onSi_other (fun e => h (Fin.ext e)) _ _⟩
  · refine completes_of_exec (exec_safSiDiscrepancy hup hmode hapart hkind tie) ?_
    have hfault : (siPair p (siFault p 1 Code.SAF_SI_DISCREPANCY id (safTie tie s))).kind = 1 := by rw [siPair_siFault]; rfl
    exact ⟨hfault, pairHealthy_of_kind (by rw [hfault]; decide), flag_siFault _ _ _ _ _⟩
  · refine completes_of_exec (exec_tpPulseStart hup hrun hhigh) ⟨?_, bitAt_setBitAt_false _ (by omega) _⟩
    rw [setBitAt_saf]
    simp
  · have hcfg : Reg.SIp_CFG p ≠ Reg.SAF_TP_STATUS := by
      rw [Reg.SIp_CFG, Reg.SAF_TP_STATUS]
      omega
    refine completes_of_exec (exec_tpPulseEnd hlow low) ⟨?_, ?_, fun hmode hsrc hbit hkind => ?_⟩
    · rw [show (windowsJudged k low (pulseEnded k s)).saf.pulsing = (pulseEnded k s).saf.pulsing from
        (congrArg Saf.pulsing (windowsJudged_spares k low (pulseEnded k s)).rest :), pulseEnded, setBitAt_saf]
      simp
    · rw [bitAt, (windowsJudged_spares k low (pulseEnded k s)).regs _ fun h => absurd h.bounds (by decide)]
      exact bitAt_setBitAt_true _ (by omega) _
    · exact kind_windowsJudged ((fld_pulseEnded (Fld.SIp_CFG_MODE p) hcfg k s).symm ▸ hmode)
        ((fld_pulseEnded (Fld.SIp_CFG_SRC_A p) hcfg k s).trans hsrc) hbit ((siPair_pulseEnded p k s).symm ▸ hkind)
  · exact completes_of_exec (exec_safTpSource hup hstate k) (inFallback_safFault hup _)
  · refine completes_of_exec (exec_safBankLow hup hlow tie) ?_
    have hheld : (safNote Fld.SAF_EVENT_BANK_LOW Code.SAF_BANK_LOW
        (safTie tie { s with saf := { s.saf with bankLow := k.val :: s.saf.bankLow } })).saf.bankLow.contains k.val = true := by
      rw [safNote_saf, safTie_saf]
      simp
    exact ⟨hheld, flag_safNote rfl rfl (by decide) _ _, fun hbank => sqPermit_of_bankLow (hbank ▸ hheld)⟩
  · refine completes_of_exec (exec_safBankRestored hup hlow) ?_
    rw [safSay_saf]
    simp
  · exact completes_of_exec (exec_safAuthTaken hup hauth hheld) (authTaken_shows s)
  · exact completes_of_exec (exec_safAuthReleased hauth hholding hheld hhand)
      ⟨(auth_safDrop s).1, (sq_safDrop n s).1, (sq_safDrop n s).2, safState_safDrop⟩
  · refine completes_of_exec (exec_safAuthReleased_holds hauth hholding hheld hhand hruns) ⟨?_, ?_, sq_congr ?_ n⟩
      <;> rw [holdStarted_saf]
    exact hauth
  · exact completes_of_exec (exec_safHandoverHoldEnd hholding)
      ⟨(auth_safDrop s).1, (auth_safDrop s).2, (sq_safDrop n s).1, (sq_safDrop n s).2⟩
  · exact completes_of_exec (exec_safLockstep hstrap) ⟨inFallback_safFault hup _, safState_safFault hup hout _⟩
  · have hupT : regionsUp (bwFailed s) = true := hup
    have houtT : inFallback 4 (bwFailed s) = false := hout
    exact completes_of_exec (exec_safBwSelftest hup) ⟨(safFault_saf hupT houtT _).1, inFallback_safFault hupT _⟩
  · have hupT : regionsUp (hbLost s) = true := hup
    have houtT : inFallback 4 (hbLost s) = false := hout
    exact completes_of_exec (exec_safBwHb hup hhb) ⟨(safFault_saf hupT houtT _).2, inFallback_safFault hupT _⟩
  · exact completes_of_exec (exec_safetyHeartbeatToggle hup) rfl
  · exact completes_of_exec (exec_breakwaterContactChange hreset hpower p b level) (siPair_onSi_same _ _ _)
  · refine completes_of_exec (exec_authTakenByOtherSide hauth) ⟨?_, sq_allOutputs (Q := (·.test = none)) test_abandoned n _⟩
    rw [allOutputs_sup]

end Sys2Proof.Machine
end
